-- ==== Sys2Proof/Word.lean ====
section
/-!
DEFINITION. The words the device computes with: the 64-bit words of the g registers (R136) and the bytes of memory (R192); and the records in which
an event carries what the world outside brings to it.
-/

namespace Sys2Proof

/-- A scalar register's contents (R136). -/
abbrev Word := BitVec 64

/-- One location of memory (R192). -/
abbrev Byte := BitVec 8

/-- The host's access of a BAR (R456): of n bytes, a write of data or a read. -/
structure BarAccess where
  n : Nat
  write : Bool
  data : BitVec 64
deriving DecidableEq, Repr

/-- What arrives as a message (R387, R393): the request id, with the answer where it went to another device; the number 0 is a message of another
device, which comes in by a port and holds its handler, its words, its class and its sender. -/
structure Arrival where
  id : Nat
  placed : Bool
  port : Nat
  job : BitVec 32
  lcore : BitVec 20
  msg : List (BitVec 64)
deriving DecidableEq, Repr

/-- A Nightfall flit that comes in by a port: its job and the key of its origin (R428, R430). -/
structure OriginIn where
  port : Nat
  job : BitVec 32
  key : BitVec 32
deriving DecidableEq, Repr

/-- A Daybreak step (R433): the coordinating device, the port the flit comes in by where that is another one, the job and the step. -/
structure StepIn where
  dev : BitVec 8
  port : Nat
  job : BitVec 32
  k : BitVec 2
deriving DecidableEq, Repr

/-- A device's acknowledgement of a Daybreak step, and the port it comes in by (R431, R433). -/
structure AckIn where
  dev : BitVec 8
  port : Nat
deriving DecidableEq, Repr

/-- The form of an abstract command and the register it names (R436). -/
structure DebugReg where
  cmdtype : BitVec 8
  regno : BitVec 16
deriving DecidableEq, Repr

/-- The size of an abstract command's transfer, and whether it runs the program buffer (R436). -/
structure DebugSize where
  size : BitVec 3
  postexec : Bool
deriving DecidableEq, Repr

/-- A beat (R71): of the request id, or, with the number 0, of an access that a unit performs in one step (8 times its core, and its slot; from
16,384 on 32 times the column, and the engine); src is its network, link or bus by the numbers of ERRINFO.SRC (R74). -/
structure Beat where
  id : Nat
  unit : Nat
  src : BitVec 4
deriving DecidableEq, Repr

end Sys2Proof
end

