-- ==== Sys2Proof/Syntax.lean ====
section
/-!
DEFINITION. The instructions and events of the part: one constructor per row of spec/opcode_table.json.
A row with an encoding is an instruction; its arguments are the fields of its encoding (R220 to R228, R303, R331, R338,
R349, R357), named as the table names them.  A row without an encoding is an indivisible step of some unit of the device
(95_what_each_step_holds.md); its arguments say which unit takes the step and what the world outside brings to it.
-/

namespace Sys2Proof

/-- The instructions and the events (R216 to R230 for the encodings; each constructor names the rule of its row). -/
inductive Instr where
  /-- COLD_RESET (R76). Cold reset loads the fuse map, trains and repairs both vertical buses and sets every register to its Reset value. -/
  | coldReset
  /-- WARM_RESET (R77). A write of RSTCTL.COLS warm-resets the named columns: cores stop, slices write back, DRAM enters self-refresh, soft repairs are retrained and ways are cleared. -/
  | warmReset (cols : BitVec 8)
  /-- BOOT (R463). At power-on the boot controller verifies and measures the stage-1 and stage-2 images, trains the buses and the CXL link, and waits for OK. -/
  | boot
  /-- BOOT_TIMEOUT (R463). When OK has not been written within 2^32 s-cycles of power-on, the start fails and the failure count advances. -/
  | bootTimeout
  /-- BOOTCTL_OK (R467). A write of 1 to BOOTCTL.OK ends the start as successful and clears the failure count. -/
  | bootctlOk
  /-- ATTEST (R465). Management mailbox command 0x01 returns the signed attestation report for the host's nonce. -/
  | attest
  /-- RESET (R465). Management mailbox command 0x02 starts a warm reset of the columns in its mask. -/
  | mbxReset
  /-- NIGHTREG (R465). Management mailbox command 0x03 reads or writes NFSTAT, NFCAUSE or NFCTL. -/
  | nightreg
  /-- UPDATE (R465). Management mailbox command 0x04 appends a firmware image chunk and commits the image on LAST. -/
  | update
  /-- COMMIT (R79). A write of 1 to VBCTL.COMMIT burns every soft repair into the fuse bank, or sets FAIL when too few slots remain. -/
  | commit (col : Nat)
  /-- LAYERCTL_REQ (R80). A write of LAYERCTL.REQ requests power-on or power-off of the column's upper layer, taking effect when any transition ends. -/
  | layerctlReq (col : Nat) (on : Bool)
  /-- LAYER_POWER_OFF (R81). Once every core has quiesced, the upper layer returns its cache lines home, wakes its waiters and removes power, losing bank and array contents. -/
  | layerPowerOff (col : Nat)
  /-- LAYER_POWER_ON (R81). After 34,000 s-cycles the upper layer is powered with its ways zeroed in their configured modes. -/
  | layerPowerOn (col : Nat)
  /-- TEMP_READING (R82). Every 1,700,000 s-cycles each column reads and votes its 13 sensors and applies the thermal limits. -/
  | tempReading (col : Nat) (raw : List (BitVec 16)) (watts : BitVec 16)
  /-- TRIP_CLEAR (R469). Clearing THERMCTL.TRIP while readings lie below the trip figures releases the column through a warm reset. -/
  | tripClear (col : Nat)
  /-- PATROL_SCRUB (R51). The patrol scrubber reads each DRAM line once per 2^36 s-cycles, correcting and writing back correctable errors. -/
  | patrolScrub (col : Nat) (line : Nat)
  /-- CECNT_READ (R74). A read of CECNT returns the corrected-error count and clears it atomically. -/
  | cecntRead (col : Nat)
  /-- CEBYTES_READ (R113). A read of CEBYTES returns the bytes written by a copy engine and clears the count. -/
  | cebytesRead (col : Nat) (e : Nat)
  /-- CEREQS_READ (R113). A read of CEREQS returns the requests completed or stopped and clears the count. -/
  | cereqsRead (col : Nat) (e : Nat)
  /-- CLELEMS_READ (R113). A read of CLELEMS returns the elements a collective engine combined or sent and clears the count. -/
  | clelemsRead (col : Nat) (k : Nat)
  /-- CZIN_READ (R113). A read of CZIN returns the uncompressed bytes taken by a compression engine and clears the count. -/
  | czinRead (col : Nat) (z : Nat)
  /-- CZOUT_READ (R113). A read of CZOUT returns the encoded bytes sent and clears the count. -/
  | czoutRead (col : Nat) (z : Nat)
  /-- REGISTER_WRITE (R3). A write to a register with no row of its own takes effect field by field under the access codes. bar names the function's BAR (R456), a number without one the MSI-X masks (R466). -/
  | registerWrite (bar : BitVec 3) (off : Nat) (a : BarAccess)
  /-- PRIVILEGED_VIEW_WRITE (R134). A privileged-view write to a vector-context register waits for the vector units to idle and holds the vector hart's next command. -/
  | privilegedViewWrite (core : Nat) (slot : BitVec 3) (n : BitVec 12) (v : BitVec 64)
  /-- MSTAT_WRITE (R147). A privileged write of MSTAT sets or clears matrix mode and MVL, leaving an invalid size unchanged and acc untouched. -/
  | mstatWrite (core : Nat) (slot : BitVec 3) (v : BitVec 64)
  /-- WRITE_QUEUE_DRAIN (R196). A write-queue entry is handed to the cache way, bank port, omega network or mesh and sets its touched-mask bit or count. -/
  | writeQueueDrain (core : Nat)
  /-- SWITCH_HOP (R56). A request passes one omega-network switch stage towards its output port. -/
  | switchHop (id : Nat)
  /-- REPLY_ENTRY_EXPIRY (R212). A reply entry closes 512 s-cycles after it opened if its reply has not passed. -/
  | replyEntryExpiry (k : Nat)
  /-- REPLY_HOP (R60). A reply passes a switch on the return network, where a combined reply is split and shared replies are copied. -/
  | replyHop (id : Nat)
  /-- SLICE_REQUEST (R53). A slice takes a request in its arrival order and performs it on the line, reading DRAM on a miss. -/
  | sliceRequest (col : Nat) (slice : Nat)
  /-- BANK_ACCESS (R120). A scratchpad bank takes one local or mesh access per s-cycle and performs it indivisibly per 64-byte block. -/
  | bankAccess (core : Nat) (way : Nat)
  /-- TIMED_RETRY (R121). A full/empty requester not recorded in the waiter table retries after 256 s-cycles, counting against FERETRY. -/
  | timedRetry (core : Nat) (slot : BitVec 3)
  /-- ACKNOWLEDGEMENT (R192). An acknowledgement returns to the requester, lowering its counts and holding any error for the next release. -/
  | acknowledgement (id : Nat)
  /-- PROBE (R199). A probe reaches a slice, column router, device or host agent and is echoed once the hart's earlier writes are performed. -/
  | probe (id : Nat)
  /-- ECHO (R199). A probe echo returns to the releasing hart, which completes its release once all echoes and counts allow. -/
  | echo (id : Nat)
  /-- ROUTE (R462). A column router forwards a packet by its route table, logical-core table or forwarding entry, or reports it unroutable. -/
  | route (id : Nat)
  /-- TRANSIENT_READ (R63). A transient read reaches the home or a holder, which answers with data and one token. -/
  | transientRead (id : Nat)
  /-- TRANSIENT_WRITE (R63). A transient write reaches the home or a holder, which sends all its tokens and, as owner, the data. -/
  | transientWrite (id : Nat)
  /-- EVICTION (R63). An evicting core returns all its tokens, and dirty owner data, to the home. -/
  | eviction (core : Nat) (line : Nat)
  /-- TRANSIENT_FAILURE (R64). A transient request unsatisfied 1,024 s-cycles after issue fails and is reissued, or becomes persistent after four failures. -/
  | transientFailure (id : Nat)
  /-- PERSISTENT_REQUEST (R64). The home queues or activates a persistent request and broadcasts it so every holder forwards the line's tokens. -/
  | persistentRequest (id : Nat)
  /-- DEACTIVATION (R64). A deactivation ends a persistent request, is broadcast, and activates the next waiting one. -/
  | deactivation (id : Nat)
  /-- COUNTDOWN_EXPIRY (R59). A recent-write countdown reaching 0 with no unacknowledged write clears its recent-write bit. -/
  | countdownExpiry (core : Nat) (slot : BitVec 3) (dest : Nat)
  /-- RANGE_SEARCH (R31). On a range-cache miss the walker binary-searches the directory and fills the range cache or reports a miss. -/
  | rangeSearch (core : Nat) (slot : BitVec 3) (va : BitVec 64)
  /-- HEADER_REREAD (R31). A walker that missed during an edit re-reads the header every 64 s-cycles and repeats the search once EDIT is 0. -/
  | headerReread (core : Nat) (slot : BitVec 3)
  /-- EDIT_RETRY (R36). An editor finding EDIT set retries its compare-and-swap every 64 s-cycles. -/
  | editRetry (core : Nat) (slot : BitVec 3)
  /-- LOCK_RETRY (R45). An access stalled on a locked range repeats its search every 4,096 s-cycles or on the step-4 invalidation. -/
  | lockRetry (core : Nat) (slot : BitVec 3)
  /-- DROP_REQUEST (R39). A core receiving a drop request drops matching range-cache entries and L0 lines and acknowledges once its accesses under them are performed. -/
  | dropRequest (id : Nat) (core : Nat)
  /-- ENGINE_DROP (R41). An engine reached by a drop request drops its matching entries and acknowledges once its accesses under them are performed. -/
  | engineDrop (id : Nat) (col : Nat)
  /-- DROP_ACKNOWLEDGEMENT (R39). An invalidation completes and unparks its hart when every core and engine of its scope has acknowledged. -/
  | dropAcknowledgement (id : Nat)
  /-- DROP (R34). A write of 1 to RCCTL.DROP drops every range-cache entry of the core once their accesses are performed. -/
  | drop (core : Nat)
  /-- MOVE (R44). A write of 1 to CMPCTL.GO starts a live move of a range: lock, copy, swap, invalidate and finish. -/
  | move (col : Nat)
  /-- DDROP (R116). A write of 1 to L0CTL.DDROP drops every line of the L0 data cache. -/
  | ddrop (core : Nat)
  /-- IDROP (R116). A write of 1 to L0CTL.IDROP drops every line of the L0 instruction cache. -/
  | idrop (core : Nat)
  /-- WALKER_PIECE (R68). The cache walker performs a CWFLUSH or CWINV piece at every home slice and makes the arrival when all pieces end. -/
  | walkerPiece (col : Nat)
  /-- REQUEST_BEGINS (R105). A copy or collective request leaves its engine's queue once its wait mask and token order allow. -/
  | requestBegins (col : Nat) (e : Nat)
  /-- BATCH (R89). A copy engine translates and transfers one batch of elements, crediting the barrier object. -/
  | batch (col : Nat) (e : Nat)
  /-- REQUEST_COMPLETE (R94). A request whose writes are performed and barrier contribution accepted completes, clears CSTART and frees its token. -/
  | requestComplete (col : Nat) (e : Nat)
  /-- CONTRIBUTION (R110). A collective home engine takes a participant's contribution and combines the fixed pairwise tree. -/
  | contribution (col : Nat) (k : Nat)
  /-- INITIALISE (R101). A barrier unit loads INIT, PEND and MODE and clears STATUS and counters. -/
  | initialise (id : Nat)
  /-- CREDIT (R101). A barrier unit lowers PEND by the bytes credited by a copy. -/
  | credit (id : Nat)
  /-- ARRIVE (R101). A barrier unit lowers PEND by one for an arrival. -/
  | arrive (id : Nat)
  /-- ERROR_ARRIVE (R101). A barrier unit takes an arrival carrying an error status, raising ERRCNT and ERROR. -/
  | errorArrive (id : Nat)
  /-- QUERY (R101). A barrier unit returns the object's image. -/
  | query (id : Nat)
  /-- WIRE_COMPLETION (R267). A wire generation completes 16 or 32 s-cycles after its last arrival and is delivered to every participating core. -/
  | wireCompletion (col : Nat) (wire : BitVec 2) (k : Nat)
  /-- BARW_TIMEOUT (R268). A barw waiting BWTO.LIMIT s-cycles ends without acquire and reports the missing cores. -/
  | barwTimeout (core : Nat) (slot : BitVec 3)
  /-- PARK_TIMEOUT (R269). The park timer elapses and latches wake event bit 0. -/
  | parkTimeout (core : Nat) (slot : BitVec 3)
  /-- DECISION_CYCLE (R376). Every 64 s-cycles the distributor consumes ring entries, resolves records and selects the head record if its cores fit. -/
  | decisionCycle
  /-- CONTEXT_SWITCH (R368). The distributor switches a host queue context out or in, writing or reading its image and making a job entry. -/
  | contextSwitch (q : Nat)
  /-- QTAIL (R366). A host write of QTAIL sets the context's TAIL or is ignored and sets BAD. -/
  | qtail (q : Nat) (v : BitVec 64)
  /-- LOAD (R366). A write of 1 to QCTL.LOAD reads the context image and makes the context eligible. -/
  | load (q : Nat)
  /-- STAGE_FEED (R381). The distributor feeds one continuation record per work unit into stage 0's queue when it has room. -/
  | stageFeed (job : BitVec 32) (rec : Nat)
  /-- TAKE_RECORD (R383). An IDLE slot of a bound core takes a continuation record and its registers and becomes READY. -/
  | takeRecord (core : Nat)
  /-- BALANCER (R385). Every 4,096 a-cycles the balancer marks one core to move from the emptiest stage to the fullest. -/
  | balancer (job : BitVec 32) (rec : Nat)
  /-- TAKE_MESSAGE (R387). An IDLE handler slot takes the oldest message of the highest non-empty class and runs it. -/
  | takeMessage (core : Nat)
  /-- MESSAGE_ARRIVAL (R393). A message reaches its target core and is placed in its class sub-ring or refused. -/
  | messageArrival (a : Arrival)
  /-- MESSAGE_RETRY (R393). A refused message is retried after 64 s-cycles, and dropped once its refusals pass FERETRY. -/
  | messageRetry (id : Nat)
  /-- SPAWN_REQUEST (R389). A spawn request reaches its target core, which claims an IDLE slot for the child or refuses. -/
  | spawnRequest (id : Nat)
  /-- SPAWN_ANSWER (R389). The target's answer returns to the spawner, which writes gd or starts the child inline. -/
  | spawnAnswer (id : Nat)
  /-- CTXJOB_WRITE (R363). A write of CTXJOB, directly or through the column alias, is held until the core is quiet. -/
  | ctxjobWrite (core : Nat) (lc : Bool) (v : BitVec 64)
  /-- JOB_CHANGE (R363). When the core is quiet a changed JOB clears the core's job state and takes effect. -/
  | jobChange (core : Nat)
  /-- SAVE (R406). A write of SVCTL.SAVE stops the core, releases, writes its context and banks, clears it and frees it. -/
  | save (core : Nat)
  /-- RESTORE (R412). A write of SVCTL.RESTORE binds the core and reloads a saved context so each slot resumes. -/
  | restore (core : Nat)
  /-- NFCTL_NFALL (R427). A write of 1 to NFCTL.NFALL starts a Nightfall wave with cause 0. -/
  | nfctlNfall
  /-- NFCTL_JOB (R432). A write of NFCTL.JOB names the job under Nightfall and sets WSEQ to 0. -/
  | nfctlJob (v : BitVec 64)
  /-- ORIGIN_FLIT (R430). An origin flit reaches a device, which counts it and keeps the lowest origin as cause. -/
  | originFlit (o : OriginIn) (cause : BitVec 8)
  /-- WAVE (R429). The Nightfall wave reaches a unit at its freeze point and the unit stops the job's work. -/
  | wave (core : Nat)
  /-- NFCTL_DB (R433). A write of 1 to NFCTL.DB while NIGHT is set starts a Daybreak coordinated by this device. -/
  | nfctlDb
  /-- DAYBREAK_STEP (R433). A device performs a Daybreak step sent by the coordinator and acknowledges it. -/
  | daybreakStep (d : StepIn)
  /-- HALTREQ (R436). The debug module moves a READY or FROZEN hart into HALTED. -/
  | haltreq (core : Nat) (slot : BitVec 3)
  /-- RESUMEREQ (R436). The debug module returns a halted hart to its previous state, or runs one step unit. -/
  | resumereq (core : Nat) (slot : BitVec 3)
  /-- ACCESS_REGISTER (R436). An abstract Access Register command reads or writes a register of a halted hart. -/
  | accessRegister (core : Nat) (slot : BitVec 3) (reg : DebugReg) (sz : DebugSize) (write : Bool) (v : BitVec 64)
  /-- ACCESS_MEMORY (R437). An abstract Access Memory command reads or writes a GPA of the device coherently. -/
  | accessMemory (col : Nat) (gpa : BitVec 64) (size : BitVec 3) (virt : Bool) (write : Bool) (v : BitVec 64)
  /-- INSTRUMENT_UNLOAD (R438). The instrument network evicts, scans out and clears a halted row cluster. -/
  | instrumentUnload (col : Nat) (row : Nat)
  /-- TRAIN (R461). A write of 1 to FABCFG.TRAIN trains every enabled TFL port. -/
  | train
  /-- CAPABILITY_FLIT (R460). A port receives its partner's capability flit and comes up, or stays down on a mismatch. -/
  | capabilityFlit (p : Nat) (major : BitVec 8) (minor : BitVec 8) (feat : BitVec 16) (dev : BitVec 8)
  /-- ALLOWANCE_GRANT (R459). A port receives a send-allowance grant and may send that many data flits in the class. -/
  | allowanceGrant (p : Nat) (cls : BitVec 2) (n : Nat)
  /-- JOBLCT_WRITE (R462). A write of JOBLCTj sets a job's table entry and drops the router's cached entries of that job. -/
  | joblctWrite (col : Nat) (j : Nat) (v : BitVec 64)
  /-- LCTBASE_WRITE (R462). A write of LCTBASEj sets the table address and drops the cached entries of that job. -/
  | lctbaseWrite (col : Nat) (j : Nat) (v : BitVec 64)
  /-- CXL_MEM_ACCESS (R457). A host CXL.mem access is performed at its home slice and completed. -/
  | cxlMemAccess (col : Nat) (off : Nat) (n : Nat) (write : Bool) (data : List (BitVec 8))
  /-- MERGE_WINDOW_CLOSE (R188). A bank's 16 s-cycle merge window closes and its merged operand stream starts. -/
  | mergeWindowClose (core : Nat) (way : Nat)
  /-- OPERAND_BUFFER_FULL (R342). A mopa operand buffer fills and the vector hart may issue again while accumulation runs. -/
  | operandBufferFull (core : Nat)
  /-- ADD_16 (R228). 16-bit form of add gd, gd, ga. -/
  | add16 (a : BitVec 3) (d : BitVec 3)
  /-- SUB_16 (R228). 16-bit form of sub gd, gd, ga. -/
  | sub16 (a : BitVec 3) (d : BitVec 3)
  /-- AND_16 (R228). 16-bit form of and gd, gd, ga. -/
  | and16 (a : BitVec 3) (d : BitVec 3)
  /-- OR_16 (R228). 16-bit form of or gd, gd, ga. -/
  | or16 (a : BitVec 3) (d : BitVec 3)
  /-- XOR_16 (R228). 16-bit form of xor gd, gd, ga. -/
  | xor16 (a : BitVec 3) (d : BitVec 3)
  /-- SHL_16 (R228). 16-bit form of shl gd, gd, ga. -/
  | shl16 (a : BitVec 3) (d : BitVec 3)
  /-- SHR_16 (R228). 16-bit form of shr gd, gd, ga. -/
  | shr16 (a : BitVec 3) (d : BitVec 3)
  /-- SRA_16 (R228). 16-bit form of sra gd, gd, ga. -/
  | sra16 (a : BitVec 3) (d : BitVec 3)
  /-- MV_16 (R228). 16-bit form of mv gd, ga, expanding to add gd, ga, g0. -/
  | mv16 (a : BitVec 3) (d : BitVec 3)
  /-- ADDI_16 (R228). 16-bit form of addi gd, gd, imm7. -/
  | addi16 (i : BitVec 7) (d : BitVec 3)
  /-- LI_16 (R228). 16-bit form of li gd, imm7. -/
  | li16 (i : BitVec 7) (d : BitVec 3)
  /-- LD_D_16 (R228). 16-bit form of ld.d with offset 8 times off4. -/
  | ldD16 (o : BitVec 4) (b : BitVec 3) (d : BitVec 3)
  /-- ST_D_16 (R228). 16-bit form of st.d with offset 8 times off4. -/
  | stD16 (o : BitVec 4) (b : BitVec 3) (d : BitVec 3)
  /-- LD_W_16 (R228). 16-bit form of ld.w with offset 4 times off4. -/
  | ldW16 (o : BitVec 4) (b : BitVec 3) (d : BitVec 3)
  /-- ST_W_16 (R228). 16-bit form of st.w with offset 4 times off4. -/
  | stW16 (o : BitVec 4) (b : BitVec 3) (d : BitVec 3)
  /-- BEQZ_16 (R228). 16-bit branch when ga equals zero. -/
  | beqz16 (o : BitVec 7) (a : BitVec 3)
  /-- BNEZ_16 (R228). 16-bit branch when ga is nonzero. -/
  | bnez16 (o : BitVec 7) (a : BitVec 3)
  /-- J_16 (R228). 16-bit jump without link. -/
  | j16 (o : BitVec 10)
  /-- RET_16 (R228). 16-bit return, jalr g0, 0(ln). -/
  | ret16
  /-- ADD (R242). gd := ga + gb, wrapping. -/
  | add (b : BitVec 5) (a : BitVec 5) (d : BitVec 5)
  /-- SUB (R242). gd := ga - gb, wrapping. -/
  | sub (b : BitVec 5) (a : BitVec 5) (d : BitVec 5)
  /-- AND (R242). gd := ga AND gb. -/
  | and (b : BitVec 5) (a : BitVec 5) (d : BitVec 5)
  /-- OR (R242). gd := ga OR gb. -/
  | or (b : BitVec 5) (a : BitVec 5) (d : BitVec 5)
  /-- XOR (R242). gd := ga XOR gb. -/
  | xor (b : BitVec 5) (a : BitVec 5) (d : BitVec 5)
  /-- SHL (R242). gd := ga shifted left by gb[5:0]. -/
  | shl (b : BitVec 5) (a : BitVec 5) (d : BitVec 5)
  /-- SHR (R242). gd := ga shifted right logically by gb[5:0]. -/
  | shr (b : BitVec 5) (a : BitVec 5) (d : BitVec 5)
  /-- SRA (R242). gd := ga shifted right arithmetically by gb[5:0]. -/
  | sra (b : BitVec 5) (a : BitVec 5) (d : BitVec 5)
  /-- SLT (R242). gd := 1 if ga < gb signed, else 0. -/
  | slt (b : BitVec 5) (a : BitVec 5) (d : BitVec 5)
  /-- SLTN (R242). gd := 1 if ga < gb unsigned, else 0. -/
  | sltn (b : BitVec 5) (a : BitVec 5) (d : BitVec 5)
  /-- MIN (R242). gd := signed minimum of ga and gb. -/
  | min (b : BitVec 5) (a : BitVec 5) (d : BitVec 5)
  /-- MAX (R242). gd := signed maximum of ga and gb. -/
  | max (b : BitVec 5) (a : BitVec 5) (d : BitVec 5)
  /-- MINN (R242). gd := unsigned minimum of ga and gb. -/
  | minn (b : BitVec 5) (a : BitVec 5) (d : BitVec 5)
  /-- MAXN (R242). gd := unsigned maximum of ga and gb. -/
  | maxn (b : BitVec 5) (a : BitVec 5) (d : BitVec 5)
  /-- ANDN (R242). gd := ga AND NOT gb. -/
  | andn (b : BitVec 5) (a : BitVec 5) (d : BitVec 5)
  /-- MUL (R243). gd := low 64 bits of ga × gb. -/
  | mul (b : BitVec 5) (a : BitVec 5) (d : BitVec 5)
  /-- MULH (R243). gd := high 64 bits of the signed product. -/
  | mulh (b : BitVec 5) (a : BitVec 5) (d : BitVec 5)
  /-- MULHN (R243). gd := high 64 bits of the unsigned product. -/
  | mulhn (b : BitVec 5) (a : BitVec 5) (d : BitVec 5)
  /-- DIV (R243). gd := signed quotient under R174. -/
  | div (b : BitVec 5) (a : BitVec 5) (d : BitVec 5)
  /-- DIVN (R243). gd := unsigned quotient under R174. -/
  | divn (b : BitVec 5) (a : BitVec 5) (d : BitVec 5)
  /-- REM (R243). gd := signed remainder under R174. -/
  | rem (b : BitVec 5) (a : BitVec 5) (d : BitVec 5)
  /-- REMN (R243). gd := unsigned remainder under R174. -/
  | remn (b : BitVec 5) (a : BitVec 5) (d : BitVec 5)
  /-- ADD_W (R244). 32-bit add, result sign-extended. -/
  | addW (b : BitVec 5) (a : BitVec 5) (d : BitVec 5)
  /-- SUB_W (R244). 32-bit subtract, result sign-extended. -/
  | subW (b : BitVec 5) (a : BitVec 5) (d : BitVec 5)
  /-- SHL_W (R244). 32-bit left shift by gb[4:0], result sign-extended. -/
  | shlW (b : BitVec 5) (a : BitVec 5) (d : BitVec 5)
  /-- SHR_W (R244). 32-bit logical right shift, result sign-extended. -/
  | shrW (b : BitVec 5) (a : BitVec 5) (d : BitVec 5)
  /-- SRA_W (R244). 32-bit arithmetic right shift, result sign-extended. -/
  | sraW (b : BitVec 5) (a : BitVec 5) (d : BitVec 5)
  /-- MUL_W (R244). 32-bit multiply, result sign-extended. -/
  | mulW (b : BitVec 5) (a : BitVec 5) (d : BitVec 5)
  /-- DIV_W (R244). 32-bit signed divide, result sign-extended. -/
  | divW (b : BitVec 5) (a : BitVec 5) (d : BitVec 5)
  /-- DIVN_W (R244). 32-bit unsigned divide, result sign-extended. -/
  | divnW (b : BitVec 5) (a : BitVec 5) (d : BitVec 5)
  /-- REM_W (R244). 32-bit signed remainder, result sign-extended. -/
  | remW (b : BitVec 5) (a : BitVec 5) (d : BitVec 5)
  /-- REMN_W (R244). 32-bit unsigned remainder, result sign-extended. -/
  | remnW (b : BitVec 5) (a : BitVec 5) (d : BitVec 5)
  /-- ADDI (R245). gd := ga + sext(imm12). -/
  | addi (i : BitVec 12) (a : BitVec 5) (d : BitVec 5)
  /-- SLTI (R245). gd := 1 if ga < imm signed. -/
  | slti (i : BitVec 12) (a : BitVec 5) (d : BitVec 5)
  /-- SLTNI (R245). gd := 1 if ga < sign-extended imm unsigned. -/
  | sltni (i : BitVec 12) (a : BitVec 5) (d : BitVec 5)
  /-- ANDI (R245). gd := ga AND sext(imm12). -/
  | andi (i : BitVec 12) (a : BitVec 5) (d : BitVec 5)
  /-- ORI (R245). gd := ga OR sext(imm12). -/
  | ori (i : BitVec 12) (a : BitVec 5) (d : BitVec 5)
  /-- XORI (R245). gd := ga XOR sext(imm12). -/
  | xori (i : BitVec 12) (a : BitVec 5) (d : BitVec 5)
  /-- SHLI (R245). gd := ga shifted left by an immediate amount. -/
  | shli (h : BitVec 6) (a : BitVec 5) (d : BitVec 5)
  /-- SHRI (R245). gd := ga shifted right logically by an immediate amount. -/
  | shri (h : BitVec 6) (a : BitVec 5) (d : BitVec 5)
  /-- SRAI (R245). gd := ga shifted right arithmetically by an immediate amount. -/
  | srai (h : BitVec 6) (a : BitVec 5) (d : BitVec 5)
  /-- BEXT (R247). Extracts a bit field of ga by the width and offset in gb. -/
  | bext (b : BitVec 5) (a : BitVec 5) (d : BitVec 5)
  /-- BINS (R247). Inserts low bits of ga into a field of gd. -/
  | bins (b : BitVec 5) (a : BitVec 5) (d : BitVec 5)
  /-- POPC (R248). gd := number of 1 bits in ga. -/
  | popc (a : BitVec 5) (d : BitVec 5)
  /-- CLZ (R248). gd := count of leading zero bits of ga. -/
  | clz (a : BitVec 5) (d : BitVec 5)
  /-- CTZ (R248). gd := count of trailing zero bits of ga. -/
  | ctz (a : BitVec 5) (d : BitVec 5)
  /-- LDHI (R246). gd := sext(imm20) << 12. -/
  | ldhi (i : BitVec 20) (d : BitVec 5)
  /-- PCADD (R246). gd := PC + (sext(imm20) << 12). -/
  | pcadd (i : BitVec 20) (d : BitVec 5)
  /-- LD_B (R251). Ordinary load of a sign-extended byte. -/
  | ldB (i : BitVec 12) (a : BitVec 5) (d : BitVec 5)
  /-- LD_H (R251). Ordinary load of a sign-extended halfword. -/
  | ldH (i : BitVec 12) (a : BitVec 5) (d : BitVec 5)
  /-- LD_W (R251). Ordinary load of a sign-extended word. -/
  | ldW (i : BitVec 12) (a : BitVec 5) (d : BitVec 5)
  /-- LD_D (R251). Ordinary load of a doubleword. -/
  | ldD (i : BitVec 12) (a : BitVec 5) (d : BitVec 5)
  /-- LD_BN (R251). Ordinary load of a zero-extended byte. -/
  | ldBn (i : BitVec 12) (a : BitVec 5) (d : BitVec 5)
  /-- LD_HN (R251). Ordinary load of a zero-extended halfword. -/
  | ldHn (i : BitVec 12) (a : BitVec 5) (d : BitVec 5)
  /-- LD_WN (R251). Ordinary load of a zero-extended word. -/
  | ldWn (i : BitVec 12) (a : BitVec 5) (d : BitVec 5)
  /-- LD_B_NC (R252). Byte load at the home without the L0 or token collection. -/
  | ldBNc (i : BitVec 12) (a : BitVec 5) (d : BitVec 5)
  /-- LD_H_NC (R252). Halfword .nc load at the home. -/
  | ldHNc (i : BitVec 12) (a : BitVec 5) (d : BitVec 5)
  /-- LD_W_NC (R252). Word .nc load at the home. -/
  | ldWNc (i : BitVec 12) (a : BitVec 5) (d : BitVec 5)
  /-- LD_D_NC (R252). Doubleword .nc load at the home. -/
  | ldDNc (i : BitVec 12) (a : BitVec 5) (d : BitVec 5)
  /-- LD_BN_NC (R252). Zero-extending byte .nc load. -/
  | ldBnNc (i : BitVec 12) (a : BitVec 5) (d : BitVec 5)
  /-- LD_HN_NC (R252). Zero-extending halfword .nc load. -/
  | ldHnNc (i : BitVec 12) (a : BitVec 5) (d : BitVec 5)
  /-- LD_WN_NC (R252). Zero-extending word .nc load. -/
  | ldWnNc (i : BitVec 12) (a : BitVec 5) (d : BitVec 5)
  /-- LD_B_C (R252). Combinable coherent byte load at the home. -/
  | ldBC (i : BitVec 12) (a : BitVec 5) (d : BitVec 5)
  /-- LD_H_C (R252). Combinable coherent halfword load. -/
  | ldHC (i : BitVec 12) (a : BitVec 5) (d : BitVec 5)
  /-- LD_W_C (R252). Combinable coherent word load. -/
  | ldWC (i : BitVec 12) (a : BitVec 5) (d : BitVec 5)
  /-- LD_D_C (R252). Combinable coherent doubleword load. -/
  | ldDC (i : BitVec 12) (a : BitVec 5) (d : BitVec 5)
  /-- LD_BN_C (R252). Combinable zero-extending byte load. -/
  | ldBnC (i : BitVec 12) (a : BitVec 5) (d : BitVec 5)
  /-- LD_HN_C (R252). Combinable zero-extending halfword load. -/
  | ldHnC (i : BitVec 12) (a : BitVec 5) (d : BitVec 5)
  /-- LD_WN_C (R252). Combinable zero-extending word load. -/
  | ldWnC (i : BitVec 12) (a : BitVec 5) (d : BitVec 5)
  /-- ST_B (R251). Ordinary store of the low byte of g(data). -/
  | stB (i : BitVec 12) (b : BitVec 5) (s : BitVec 5)
  /-- ST_H (R251). Ordinary store of a halfword. -/
  | stH (i : BitVec 12) (b : BitVec 5) (s : BitVec 5)
  /-- ST_W (R251). Ordinary store of a word. -/
  | stW (i : BitVec 12) (b : BitVec 5) (s : BitVec 5)
  /-- ST_D (R251). Ordinary store of a doubleword. -/
  | stD (i : BitVec 12) (b : BitVec 5) (s : BitVec 5)
  /-- ST_B_NC (R252). Byte store at the home without collecting tokens. -/
  | stBNc (i : BitVec 12) (b : BitVec 5) (s : BitVec 5)
  /-- ST_H_NC (R252). Halfword .nc store. -/
  | stHNc (i : BitVec 12) (b : BitVec 5) (s : BitVec 5)
  /-- ST_W_NC (R252). Word .nc store. -/
  | stWNc (i : BitVec 12) (b : BitVec 5) (s : BitVec 5)
  /-- ST_D_NC (R252). Doubleword .nc store. -/
  | stDNc (i : BitVec 12) (b : BitVec 5) (s : BitVec 5)
  /-- AMADD (R256). Atomic add at the owner returning the old value. -/
  | amadd (z : BitVec 1) (b : BitVec 5) (a : BitVec 5) (d : BitVec 5)
  /-- AMSWAP (R256). Atomic swap at the owner. -/
  | amswap (z : BitVec 1) (b : BitVec 5) (a : BitVec 5) (d : BitVec 5)
  /-- AMCAS (R256). Atomic compare-and-swap against gd at the owner. -/
  | amcas (z : BitVec 1) (b : BitVec 5) (a : BitVec 5) (d : BitVec 5)
  /-- AMAND (R256). Atomic AND at the owner. -/
  | amand (z : BitVec 1) (b : BitVec 5) (a : BitVec 5) (d : BitVec 5)
  /-- AMOR (R256). Atomic OR at the owner. -/
  | amor (z : BitVec 1) (b : BitVec 5) (a : BitVec 5) (d : BitVec 5)
  /-- AMXOR (R256). Atomic XOR at the owner. -/
  | amxor (z : BitVec 1) (b : BitVec 5) (a : BitVec 5) (d : BitVec 5)
  /-- AMMIN (R256). Atomic signed minimum at the owner. -/
  | ammin (z : BitVec 1) (b : BitVec 5) (a : BitVec 5) (d : BitVec 5)
  /-- AMMAX (R256). Atomic signed maximum at the owner. -/
  | ammax (z : BitVec 1) (b : BitVec 5) (a : BitVec 5) (d : BitVec 5)
  /-- AMMINN (R256). Atomic unsigned minimum at the owner. -/
  | amminn (z : BitVec 1) (b : BitVec 5) (a : BitVec 5) (d : BitVec 5)
  /-- AMMAXN (R256). Atomic unsigned maximum at the owner. -/
  | ammaxn (z : BitVec 1) (b : BitVec 5) (a : BitVec 5) (d : BitVec 5)
  /-- AMFADD (R256). Atomic floating-point add rounded RNE without flags. -/
  | amfadd (z : BitVec 1) (b : BitVec 5) (a : BitVec 5) (d : BitVec 5)
  /-- AMFMIN (R256). Atomic floating-point minimum. -/
  | amfmin (z : BitVec 1) (b : BitVec 5) (a : BitVec 5) (d : BitVec 5)
  /-- AMFMAX (R256). Atomic floating-point maximum. -/
  | amfmax (z : BitVec 1) (b : BitVec 5) (a : BitVec 5) (d : BitVec 5)
  /-- RED_ADD (R258). Fire-and-forget integer add at the owner. -/
  | redAdd (z : BitVec 1) (b : BitVec 5) (a : BitVec 5)
  /-- RED_MIN (R258). Fire-and-forget signed minimum. -/
  | redMin (z : BitVec 1) (b : BitVec 5) (a : BitVec 5)
  /-- RED_MAX (R258). Fire-and-forget signed maximum. -/
  | redMax (z : BitVec 1) (b : BitVec 5) (a : BitVec 5)
  /-- RED_MINN (R258). Fire-and-forget unsigned minimum. -/
  | redMinn (z : BitVec 1) (b : BitVec 5) (a : BitVec 5)
  /-- RED_MAXN (R258). Fire-and-forget unsigned maximum. -/
  | redMaxn (z : BitVec 1) (b : BitVec 5) (a : BitVec 5)
  /-- RED_FADD (R258). Fire-and-forget floating-point add. -/
  | redFadd (z : BitVec 1) (b : BitVec 5) (a : BitVec 5)
  /-- RED_FMIN (R258). Fire-and-forget floating-point minimum. -/
  | redFmin (z : BitVec 1) (b : BitVec 5) (a : BitVec 5)
  /-- RED_FMAX (R258). Fire-and-forget floating-point maximum. -/
  | redFmax (z : BitVec 1) (b : BitVec 5) (a : BitVec 5)
  /-- LDF_D (R259). Loads a full bank word and sets it empty, parking while it is empty. -/
  | ldfD (a : BitVec 5) (d : BitVec 5)
  /-- STE_D (R259). Stores into an empty bank word and sets it full, parking while it is full. -/
  | steD (b : BitVec 5) (a : BitVec 5)
  /-- MBPUT (R260). Writes ga into an empty mailbox and sets it full, parking while full. -/
  | mbput (a : BitVec 5) (n : BitVec 5)
  /-- MBGET (R260). Takes a full mailbox's value and sets it empty, parking while empty. -/
  | mbget (n : BitVec 5) (d : BitVec 5)
  /-- BEQ (R249). Branches when ga = gb. -/
  | beq (o : BitVec 12) (b : BitVec 5) (a : BitVec 5)
  /-- BNE (R249). Branches when ga ≠ gb. -/
  | bne (o : BitVec 12) (b : BitVec 5) (a : BitVec 5)
  /-- BLT (R249). Branches when ga < gb signed. -/
  | blt (o : BitVec 12) (b : BitVec 5) (a : BitVec 5)
  /-- BGE (R249). Branches when ga ≥ gb signed. -/
  | bge (o : BitVec 12) (b : BitVec 5) (a : BitVec 5)
  /-- BLTN (R249). Branches when ga < gb unsigned. -/
  | bltn (o : BitVec 12) (b : BitVec 5) (a : BitVec 5)
  /-- BGEN (R249). Branches when ga ≥ gb unsigned. -/
  | bgen (o : BitVec 12) (b : BitVec 5) (a : BitVec 5)
  /-- JAL (R250). Jumps PC-relative and links the next address into gd. -/
  | jal (o : BitVec 20) (d : BitVec 5)
  /-- JALR (R250). Jumps to ga + imm, trapping MISALIGN on an odd target, and links into gd. -/
  | jalr (i : BitVec 12) (a : BitVec 5) (d : BitVec 5)
  /-- FENCE (R200). Release at scope s that also waits for earlier sends and spawns. -/
  | fence (s : BitVec 3)
  /-- ACQ (R200). Acquire: waits for earlier loads, drops the L0 and begins a phase. -/
  | acq (s : BitVec 3)
  /-- REL (R200). Release at scope s: waits for probes and counts, then clears the touched masks. -/
  | rel (s : BitVec 3)
  /-- PHASE (R200). A release then an acquire at scope s. -/
  | phase (s : BitVec 3)
  /-- VFENCE (R265). Ends the convoy and waits for every earlier vector, dense-tile and block-port command. -/
  | vfence
  /-- BARW (R268). Releases, arrives on a barrier wire set and parks until the generation completes, then acquires. -/
  | barw (w : BitVec 5) (d : BitVec 5)
  /-- PARK (R269). Parks until a wake event is latched and returns the latched event bits. -/
  | park (a : BitVec 5) (d : BitVec 5)
  /-- WAITT (R270). Parks the copy hart until the named tokens are IDLE, trapping COPY_ERR on an ERROR token. -/
  | waitt (a : BitVec 5)
  /-- MFS (R414). Reads a system register into gd. -/
  | mfs (n : BitVec 12) (d : BitVec 5)
  /-- MTS (R414). Writes ga to a system register. -/
  | mts (n : BitVec 12) (a : BitVec 5)
  /-- TRAP (R415). Raises SYSCALL with the immediate in XVAL. -/
  | trap (i : BitVec 12)
  /-- XRET (R416). Returns to XPC and restores the privilege from XSTAT.PP. -/
  | xret
  /-- SAVEV (R417). Stores the vector context as a save image at ga. -/
  | savev (a : BitVec 5) (d : BitVec 5)
  /-- RSTV (R417). Loads a vector save image at ga into the bound context. -/
  | rstv (a : BitVec 5) (d : BitVec 5)
  /-- MIGRATE (R418). Moves a core's context to another core and installs forwarding. -/
  | migrate (b : BitVec 5) (a : BitVec 5) (d : BitVec 5)
  /-- FWDCLR (R420). Removes forwarding entries of a job in every column router. -/
  | fwdclr (b : BitVec 5) (a : BitVec 5)
  /-- SPAWN (R389). Starts a child at ga on a logical core, inline if no slot is free. -/
  | spawn (b : BitVec 5) (a : BitVec 5) (d : BitVec 5)
  /-- SUSPEND (R390). Writes a continuation record to a stage queue and frees the slot. -/
  | suspend (a : BitVec 5)
  /-- EMIT (R391). Pushes a record to the next stage and raises LIVE. -/
  | emit (d : BitVec 5)
  /-- END (R392). Releases at scope 6 and returns from an inline child or frees the slot, lowering LIVE. -/
  | endI
  /-- HEND (R394). Ends a message handler. -/
  | hend
  /-- LARM (R395). Arms a launch record or updates its priority and parks until the distributor has done so. -/
  | larm (b : BitVec 5) (a : BitVec 5) (d : BitVec 5)
  /-- SEND (R393). Sends a four-word message of class c to a logical core. -/
  | send (c : BitVec 2) (b : BitVec 5) (a : BitVec 5)
  /-- VADD_VV (R291). Element-wise integer add of two vectors. -/
  | vaddVv (r : BitVec 2) (p : BitVec 1) (a : BitVec 1) (m : BitVec 1) (t : BitVec 5) (s : BitVec 5) (d : BitVec 5)
  /-- VADD_VX (R291). Integer add of a vector and a scalar. -/
  | vaddVx (r : BitVec 2) (p : BitVec 1) (a : BitVec 1) (m : BitVec 1) (t : BitVec 5) (s : BitVec 5) (d : BitVec 5)
  /-- VSUB_VV (R291). Element-wise integer subtract. -/
  | vsubVv (r : BitVec 2) (p : BitVec 1) (a : BitVec 1) (m : BitVec 1) (t : BitVec 5) (s : BitVec 5) (d : BitVec 5)
  /-- VSUB_VX (R291). Vector minus scalar. -/
  | vsubVx (r : BitVec 2) (p : BitVec 1) (a : BitVec 1) (m : BitVec 1) (t : BitVec 5) (s : BitVec 5) (d : BitVec 5)
  /-- VRSUB_VX (R291). Scalar minus vector. -/
  | vrsubVx (r : BitVec 2) (p : BitVec 1) (a : BitVec 1) (m : BitVec 1) (t : BitVec 5) (s : BitVec 5) (d : BitVec 5)
  /-- VMUL_VV (R291). Low bits of element-wise product. -/
  | vmulVv (r : BitVec 2) (p : BitVec 1) (a : BitVec 1) (m : BitVec 1) (t : BitVec 5) (s : BitVec 5) (d : BitVec 5)
  /-- VMUL_VX (R291). Low bits of vector times scalar. -/
  | vmulVx (r : BitVec 2) (p : BitVec 1) (a : BitVec 1) (m : BitVec 1) (t : BitVec 5) (s : BitVec 5) (d : BitVec 5)
  /-- VMULH_VV (R291). High bits of element-wise product. -/
  | vmulhVv (r : BitVec 2) (p : BitVec 1) (a : BitVec 1) (m : BitVec 1) (t : BitVec 5) (s : BitVec 5) (d : BitVec 5)
  /-- VMULH_VX (R291). High bits of vector times scalar. -/
  | vmulhVx (r : BitVec 2) (p : BitVec 1) (a : BitVec 1) (m : BitVec 1) (t : BitVec 5) (s : BitVec 5) (d : BitVec 5)
  /-- VDIV_VV (R291). Element-wise quotient. -/
  | vdivVv (r : BitVec 2) (p : BitVec 1) (a : BitVec 1) (m : BitVec 1) (t : BitVec 5) (s : BitVec 5) (d : BitVec 5)
  /-- VDIV_VX (R291). Vector divided by scalar. -/
  | vdivVx (r : BitVec 2) (p : BitVec 1) (a : BitVec 1) (m : BitVec 1) (t : BitVec 5) (s : BitVec 5) (d : BitVec 5)
  /-- VREM_VV (R291). Element-wise remainder. -/
  | vremVv (r : BitVec 2) (p : BitVec 1) (a : BitVec 1) (m : BitVec 1) (t : BitVec 5) (s : BitVec 5) (d : BitVec 5)
  /-- VREM_VX (R291). Vector remainder by scalar. -/
  | vremVx (r : BitVec 2) (p : BitVec 1) (a : BitVec 1) (m : BitVec 1) (t : BitVec 5) (s : BitVec 5) (d : BitVec 5)
  /-- VMIN_VV (R291). Element-wise integer minimum. -/
  | vminVv (r : BitVec 2) (p : BitVec 1) (a : BitVec 1) (m : BitVec 1) (t : BitVec 5) (s : BitVec 5) (d : BitVec 5)
  /-- VMIN_VX (R291). Minimum of vector and scalar. -/
  | vminVx (r : BitVec 2) (p : BitVec 1) (a : BitVec 1) (m : BitVec 1) (t : BitVec 5) (s : BitVec 5) (d : BitVec 5)
  /-- VMAX_VV (R291). Element-wise integer maximum. -/
  | vmaxVv (r : BitVec 2) (p : BitVec 1) (a : BitVec 1) (m : BitVec 1) (t : BitVec 5) (s : BitVec 5) (d : BitVec 5)
  /-- VMAX_VX (R291). Maximum of vector and scalar. -/
  | vmaxVx (r : BitVec 2) (p : BitVec 1) (a : BitVec 1) (m : BitVec 1) (t : BitVec 5) (s : BitVec 5) (d : BitVec 5)
  /-- VSADD_VV (R291). Saturating element-wise add, setting SAT. -/
  | vsaddVv (r : BitVec 2) (p : BitVec 1) (a : BitVec 1) (m : BitVec 1) (t : BitVec 5) (s : BitVec 5) (d : BitVec 5)
  /-- VSADD_VX (R291). Saturating add of vector and scalar. -/
  | vsaddVx (r : BitVec 2) (p : BitVec 1) (a : BitVec 1) (m : BitVec 1) (t : BitVec 5) (s : BitVec 5) (d : BitVec 5)
  /-- VSSUB_VV (R291). Saturating element-wise subtract. -/
  | vssubVv (r : BitVec 2) (p : BitVec 1) (a : BitVec 1) (m : BitVec 1) (t : BitVec 5) (s : BitVec 5) (d : BitVec 5)
  /-- VSSUB_VX (R291). Saturating vector minus scalar. -/
  | vssubVx (r : BitVec 2) (p : BitVec 1) (a : BitVec 1) (m : BitVec 1) (t : BitVec 5) (s : BitVec 5) (d : BitVec 5)
  /-- VID_V (R291). Writes each element's index. -/
  | vidV (a : BitVec 1) (m : BitVec 1) (d : BitVec 5)
  /-- VPOPC_V (R291). Counts the 1 bits of each element. -/
  | vpopcV (r : BitVec 2) (p : BitVec 1) (a : BitVec 1) (m : BitVec 1) (t : BitVec 5) (d : BitVec 5)
  /-- VVIEW_V (R291). Writes the plane view of each element as a full element. -/
  | vviewV (r : BitVec 2) (p : BitVec 1) (a : BitVec 1) (m : BitVec 1) (t : BitVec 5) (d : BitVec 5)
  /-- VAND_VV (R293). Element-wise AND. -/
  | vandVv (r : BitVec 2) (p : BitVec 1) (a : BitVec 1) (m : BitVec 1) (t : BitVec 5) (s : BitVec 5) (d : BitVec 5)
  /-- VAND_VX (R293). AND with a scalar. -/
  | vandVx (r : BitVec 2) (p : BitVec 1) (a : BitVec 1) (m : BitVec 1) (t : BitVec 5) (s : BitVec 5) (d : BitVec 5)
  /-- VOR_VV (R293). Element-wise OR. -/
  | vorVv (r : BitVec 2) (p : BitVec 1) (a : BitVec 1) (m : BitVec 1) (t : BitVec 5) (s : BitVec 5) (d : BitVec 5)
  /-- VOR_VX (R293). OR with a scalar. -/
  | vorVx (r : BitVec 2) (p : BitVec 1) (a : BitVec 1) (m : BitVec 1) (t : BitVec 5) (s : BitVec 5) (d : BitVec 5)
  /-- VXOR_VV (R293). Element-wise XOR. -/
  | vxorVv (r : BitVec 2) (p : BitVec 1) (a : BitVec 1) (m : BitVec 1) (t : BitVec 5) (s : BitVec 5) (d : BitVec 5)
  /-- VXOR_VX (R293). XOR with a scalar. -/
  | vxorVx (r : BitVec 2) (p : BitVec 1) (a : BitVec 1) (m : BitVec 1) (t : BitVec 5) (s : BitVec 5) (d : BitVec 5)
  /-- VANDN_VV (R293). x AND NOT y. -/
  | vandnVv (r : BitVec 2) (p : BitVec 1) (a : BitVec 1) (m : BitVec 1) (t : BitVec 5) (s : BitVec 5) (d : BitVec 5)
  /-- VNOT_V (R293). Bitwise NOT of each element. -/
  | vnotV (r : BitVec 2) (p : BitVec 1) (a : BitVec 1) (m : BitVec 1) (t : BitVec 5) (d : BitVec 5)
  /-- VSHL_VV (R293). Left shift by per-element amounts. -/
  | vshlVv (r : BitVec 2) (p : BitVec 1) (a : BitVec 1) (m : BitVec 1) (t : BitVec 5) (s : BitVec 5) (d : BitVec 5)
  /-- VSHL_VX (R293). Left shift by a uniform amount. -/
  | vshlVx (r : BitVec 2) (p : BitVec 1) (a : BitVec 1) (m : BitVec 1) (t : BitVec 5) (s : BitVec 5) (d : BitVec 5)
  /-- VSHR_VV (R293). Logical right shift by per-element amounts. -/
  | vshrVv (r : BitVec 2) (p : BitVec 1) (a : BitVec 1) (m : BitVec 1) (t : BitVec 5) (s : BitVec 5) (d : BitVec 5)
  /-- VSHR_VX (R293). Logical right shift by a uniform amount. -/
  | vshrVx (r : BitVec 2) (p : BitVec 1) (a : BitVec 1) (m : BitVec 1) (t : BitVec 5) (s : BitVec 5) (d : BitVec 5)
  /-- VSRA_VV (R293). Arithmetic right shift by per-element amounts. -/
  | vsraVv (r : BitVec 2) (p : BitVec 1) (a : BitVec 1) (m : BitVec 1) (t : BitVec 5) (s : BitVec 5) (d : BitVec 5)
  /-- VSRA_VX (R293). Arithmetic right shift by a uniform amount. -/
  | vsraVx (r : BitVec 2) (p : BitVec 1) (a : BitVec 1) (m : BitVec 1) (t : BitVec 5) (s : BitVec 5) (d : BitVec 5)
  /-- VMSEQ_VV (R294). Mask of elements where x = y. -/
  | vmseqVv (r : BitVec 2) (p : BitVec 1) (a : BitVec 1) (m : BitVec 1) (t : BitVec 5) (s : BitVec 5) (d : BitVec 5)
  /-- VMSEQ_VX (R294). Mask of elements equal to a scalar. -/
  | vmseqVx (r : BitVec 2) (p : BitVec 1) (a : BitVec 1) (m : BitVec 1) (t : BitVec 5) (s : BitVec 5) (d : BitVec 5)
  /-- VMSNE_VV (R294). Mask of elements where x ≠ y. -/
  | vmsneVv (r : BitVec 2) (p : BitVec 1) (a : BitVec 1) (m : BitVec 1) (t : BitVec 5) (s : BitVec 5) (d : BitVec 5)
  /-- VMSNE_VX (R294). Mask of elements unequal to a scalar. -/
  | vmsneVx (r : BitVec 2) (p : BitVec 1) (a : BitVec 1) (m : BitVec 1) (t : BitVec 5) (s : BitVec 5) (d : BitVec 5)
  /-- VMSLT_VV (R294). Mask of elements where x < y. -/
  | vmsltVv (r : BitVec 2) (p : BitVec 1) (a : BitVec 1) (m : BitVec 1) (t : BitVec 5) (s : BitVec 5) (d : BitVec 5)
  /-- VMSLT_VX (R294). Mask of elements below a scalar. -/
  | vmsltVx (r : BitVec 2) (p : BitVec 1) (a : BitVec 1) (m : BitVec 1) (t : BitVec 5) (s : BitVec 5) (d : BitVec 5)
  /-- VMSLE_VV (R294). Mask of elements where x ≤ y. -/
  | vmsleVv (r : BitVec 2) (p : BitVec 1) (a : BitVec 1) (m : BitVec 1) (t : BitVec 5) (s : BitVec 5) (d : BitVec 5)
  /-- VMSLE_VX (R294). Mask of elements at most a scalar. -/
  | vmsleVx (r : BitVec 2) (p : BitVec 1) (a : BitVec 1) (m : BitVec 1) (t : BitVec 5) (s : BitVec 5) (d : BitVec 5)
  /-- VMSGT_VX (R294). Mask of elements above a scalar. -/
  | vmsgtVx (r : BitVec 2) (p : BitVec 1) (a : BitVec 1) (m : BitVec 1) (t : BitVec 5) (s : BitVec 5) (d : BitVec 5)
  /-- VMSGE_VX (R294). Mask of elements at least a scalar. -/
  | vmsgeVx (r : BitVec 2) (p : BitVec 1) (a : BitVec 1) (m : BitVec 1) (t : BitVec 5) (s : BitVec 5) (d : BitVec 5)
  /-- VMAND_MM (R294). AND of two masks. -/
  | vmandMm (a : BitVec 1) (m : BitVec 1) (t : BitVec 5) (s : BitVec 5) (d : BitVec 5)
  /-- VMOR_MM (R294). OR of two masks. -/
  | vmorMm (a : BitVec 1) (m : BitVec 1) (t : BitVec 5) (s : BitVec 5) (d : BitVec 5)
  /-- VMXOR_MM (R294). XOR of two masks. -/
  | vmxorMm (a : BitVec 1) (m : BitVec 1) (t : BitVec 5) (s : BitVec 5) (d : BitVec 5)
  /-- VMANDN_MM (R294). Mask vs2 AND NOT vs1. -/
  | vmandnMm (a : BitVec 1) (m : BitVec 1) (t : BitVec 5) (s : BitVec 5) (d : BitVec 5)
  /-- VMERGE_VV (R295). Selects between two vectors by the v0 mask. -/
  | vmergeVv (a : BitVec 1) (t : BitVec 5) (s : BitVec 5) (d : BitVec 5)
  /-- VMERGE_VX (R295). Selects between a vector and a scalar by the v0 mask. -/
  | vmergeVx (a : BitVec 1) (t : BitVec 5) (s : BitVec 5) (d : BitVec 5)
  /-- VMV_VV (R295). Copies active elements of vs2 into vd. -/
  | vmvVv (r : BitVec 2) (p : BitVec 1) (a : BitVec 1) (m : BitVec 1) (t : BitVec 5) (d : BitVec 5)
  /-- VMV_VX (R295). Writes a scalar into active elements. -/
  | vmvVx (a : BitVec 1) (m : BitVec 1) (s : BitVec 5) (d : BitVec 5)
  /-- VMV_XS (R296). Moves element 0 of vs2 into gd. -/
  | vmvXs (t : BitVec 5) (d : BitVec 5)
  /-- VFADD_VV (R298). Floating-point element-wise add. -/
  | vfaddVv (r : BitVec 2) (p : BitVec 1) (a : BitVec 1) (m : BitVec 1) (t : BitVec 5) (s : BitVec 5) (d : BitVec 5)
  /-- VFADD_VX (R298). Floating-point add of a scalar. -/
  | vfaddVx (r : BitVec 2) (p : BitVec 1) (a : BitVec 1) (m : BitVec 1) (t : BitVec 5) (s : BitVec 5) (d : BitVec 5)
  /-- VFSUB_VV (R298). Floating-point subtract. -/
  | vfsubVv (r : BitVec 2) (p : BitVec 1) (a : BitVec 1) (m : BitVec 1) (t : BitVec 5) (s : BitVec 5) (d : BitVec 5)
  /-- VFSUB_VX (R298). Floating-point vector minus scalar. -/
  | vfsubVx (r : BitVec 2) (p : BitVec 1) (a : BitVec 1) (m : BitVec 1) (t : BitVec 5) (s : BitVec 5) (d : BitVec 5)
  /-- VFRSUB_VX (R298). Floating-point scalar minus vector. -/
  | vfrsubVx (r : BitVec 2) (p : BitVec 1) (a : BitVec 1) (m : BitVec 1) (t : BitVec 5) (s : BitVec 5) (d : BitVec 5)
  /-- VFMUL_VV (R298). Floating-point multiply. -/
  | vfmulVv (r : BitVec 2) (p : BitVec 1) (a : BitVec 1) (m : BitVec 1) (t : BitVec 5) (s : BitVec 5) (d : BitVec 5)
  /-- VFMUL_VX (R298). Floating-point multiply by a scalar. -/
  | vfmulVx (r : BitVec 2) (p : BitVec 1) (a : BitVec 1) (m : BitVec 1) (t : BitVec 5) (s : BitVec 5) (d : BitVec 5)
  /-- VFDIV_VV (R298). Floating-point divide. -/
  | vfdivVv (r : BitVec 2) (p : BitVec 1) (a : BitVec 1) (m : BitVec 1) (t : BitVec 5) (s : BitVec 5) (d : BitVec 5)
  /-- VFDIV_VX (R298). Floating-point divide by a scalar. -/
  | vfdivVx (r : BitVec 2) (p : BitVec 1) (a : BitVec 1) (m : BitVec 1) (t : BitVec 5) (s : BitVec 5) (d : BitVec 5)
  /-- VFRDIV_VX (R298). Floating-point scalar divided by vector. -/
  | vfrdivVx (r : BitVec 2) (p : BitVec 1) (a : BitVec 1) (m : BitVec 1) (t : BitVec 5) (s : BitVec 5) (d : BitVec 5)
  /-- VFSQRT_V (R298). Floating-point square root. -/
  | vfsqrtV (r : BitVec 2) (p : BitVec 1) (a : BitVec 1) (m : BitVec 1) (t : BitVec 5) (d : BitVec 5)
  /-- VFMIN_VV (R298). Floating-point minimum. -/
  | vfminVv (r : BitVec 2) (p : BitVec 1) (a : BitVec 1) (m : BitVec 1) (t : BitVec 5) (s : BitVec 5) (d : BitVec 5)
  /-- VFMIN_VX (R298). Floating-point minimum with a scalar. -/
  | vfminVx (r : BitVec 2) (p : BitVec 1) (a : BitVec 1) (m : BitVec 1) (t : BitVec 5) (s : BitVec 5) (d : BitVec 5)
  /-- VFMAX_VV (R298). Floating-point maximum. -/
  | vfmaxVv (r : BitVec 2) (p : BitVec 1) (a : BitVec 1) (m : BitVec 1) (t : BitVec 5) (s : BitVec 5) (d : BitVec 5)
  /-- VFMAX_VX (R298). Floating-point maximum with a scalar. -/
  | vfmaxVx (r : BitVec 2) (p : BitVec 1) (a : BitVec 1) (m : BitVec 1) (t : BitVec 5) (s : BitVec 5) (d : BitVec 5)
  /-- VFSGN_VV (R298). Magnitude of x with the sign of y. -/
  | vfsgnVv (r : BitVec 2) (p : BitVec 1) (a : BitVec 1) (m : BitVec 1) (t : BitVec 5) (s : BitVec 5) (d : BitVec 5)
  /-- VFSGNN_VV (R298). Magnitude of x with the inverted sign of y. -/
  | vfsgnnVv (r : BitVec 2) (p : BitVec 1) (a : BitVec 1) (m : BitVec 1) (t : BitVec 5) (s : BitVec 5) (d : BitVec 5)
  /-- VFSGNX_VV (R298). Magnitude of x with the XOR of both signs. -/
  | vfsgnxVv (r : BitVec 2) (p : BitVec 1) (a : BitVec 1) (m : BitVec 1) (t : BitVec 5) (s : BitVec 5) (d : BitVec 5)
  /-- VFCLASS_V (R298). Writes the class bit of each floating-point element. -/
  | vfclassV (r : BitVec 2) (p : BitVec 1) (a : BitVec 1) (m : BitVec 1) (t : BitVec 5) (d : BitVec 5)
  /-- VMFEQ_VV (R299). Mask of floating-point x = y. -/
  | vmfeqVv (r : BitVec 2) (p : BitVec 1) (a : BitVec 1) (m : BitVec 1) (t : BitVec 5) (s : BitVec 5) (d : BitVec 5)
  /-- VMFEQ_VX (R299). Mask of floating-point equality with a scalar. -/
  | vmfeqVx (r : BitVec 2) (p : BitVec 1) (a : BitVec 1) (m : BitVec 1) (t : BitVec 5) (s : BitVec 5) (d : BitVec 5)
  /-- VMFNE_VV (R299). Mask of floating-point x ≠ y. -/
  | vmfneVv (r : BitVec 2) (p : BitVec 1) (a : BitVec 1) (m : BitVec 1) (t : BitVec 5) (s : BitVec 5) (d : BitVec 5)
  /-- VMFNE_VX (R299). Mask of floating-point inequality with a scalar. -/
  | vmfneVx (r : BitVec 2) (p : BitVec 1) (a : BitVec 1) (m : BitVec 1) (t : BitVec 5) (s : BitVec 5) (d : BitVec 5)
  /-- VMFLT_VV (R299). Mask of floating-point x < y. -/
  | vmfltVv (r : BitVec 2) (p : BitVec 1) (a : BitVec 1) (m : BitVec 1) (t : BitVec 5) (s : BitVec 5) (d : BitVec 5)
  /-- VMFLT_VX (R299). Mask of floating-point elements below a scalar. -/
  | vmfltVx (r : BitVec 2) (p : BitVec 1) (a : BitVec 1) (m : BitVec 1) (t : BitVec 5) (s : BitVec 5) (d : BitVec 5)
  /-- VMFLE_VV (R299). Mask of floating-point x ≤ y. -/
  | vmfleVv (r : BitVec 2) (p : BitVec 1) (a : BitVec 1) (m : BitVec 1) (t : BitVec 5) (s : BitVec 5) (d : BitVec 5)
  /-- VMFLE_VX (R299). Mask of floating-point elements at most a scalar. -/
  | vmfleVx (r : BitVec 2) (p : BitVec 1) (a : BitVec 1) (m : BitVec 1) (t : BitVec 5) (s : BitVec 5) (d : BitVec 5)
  /-- VMFGT_VX (R299). Mask of floating-point elements above a scalar. -/
  | vmfgtVx (r : BitVec 2) (p : BitVec 1) (a : BitVec 1) (m : BitVec 1) (t : BitVec 5) (s : BitVec 5) (d : BitVec 5)
  /-- VMFGE_VX (R299). Mask of floating-point elements at least a scalar. -/
  | vmfgeVx (r : BitVec 2) (p : BitVec 1) (a : BitVec 1) (m : BitVec 1) (t : BitVec 5) (s : BitVec 5) (d : BitVec 5)
  /-- VWCVT_V (R300). Widens integers to 2·SEW by sign or zero extension. -/
  | vwcvtV (r : BitVec 2) (p : BitVec 1) (a : BitVec 1) (m : BitVec 1) (t : BitVec 5) (d : BitVec 5)
  /-- VNCVT_V (R300). Narrows integers by keeping the low SEW bits. -/
  | vncvtV (r : BitVec 2) (p : BitVec 1) (a : BitVec 1) (m : BitVec 1) (t : BitVec 5) (d : BitVec 5)
  /-- VNCLIP_V (R300). Narrows integers with saturation. -/
  | vnclipV (r : BitVec 2) (p : BitVec 1) (a : BitVec 1) (m : BitVec 1) (t : BitVec 5) (d : BitVec 5)
  /-- VFWCVT_V (R300). Widens floating-point elements exactly. -/
  | vfwcvtV (r : BitVec 2) (p : BitVec 1) (a : BitVec 1) (m : BitVec 1) (t : BitVec 5) (d : BitVec 5)
  /-- VFNCVT_V (R300). Narrows floating-point elements with one rounding. -/
  | vfncvtV (r : BitVec 2) (p : BitVec 1) (a : BitVec 1) (m : BitVec 1) (t : BitVec 5) (d : BitVec 5)
  /-- VFTOI_V (R300). Converts floating point to signed integers. -/
  | vftoiV (r : BitVec 2) (p : BitVec 1) (a : BitVec 1) (m : BitVec 1) (t : BitVec 5) (d : BitVec 5)
  /-- VFTOIN_V (R300). Converts floating point to unsigned integers. -/
  | vftoinV (r : BitVec 2) (p : BitVec 1) (a : BitVec 1) (m : BitVec 1) (t : BitVec 5) (d : BitVec 5)
  /-- VITOF_V (R300). Converts signed integers to floating point. -/
  | vitofV (r : BitVec 2) (p : BitVec 1) (a : BitVec 1) (m : BitVec 1) (t : BitVec 5) (d : BitVec 5)
  /-- VINTOF_V (R300). Converts unsigned integers to floating point. -/
  | vintofV (r : BitVec 2) (p : BitVec 1) (a : BitVec 1) (m : BitVec 1) (t : BitVec 5) (d : BitVec 5)
  /-- VFCVT_F4 (R301). Converts f32 to e2m1 with a single rounding. -/
  | vfcvtF4 (r : BitVec 2) (p : BitVec 1) (a : BitVec 1) (m : BitVec 1) (t : BitVec 5) (d : BitVec 5)
  /-- VRNG_V (R302). Advances each lane's random state and writes its top bits. -/
  | vrngV (a : BitVec 1) (m : BitVec 1) (d : BitVec 5)
  /-- VSEED_VX (R302). Seeds each active lane's random state from a scalar. -/
  | vseedVx (a : BitVec 1) (m : BitVec 1) (s : BitVec 5)
  /-- VSETL (R280). Sets VTYPE from gb and VL from ga, returning VL. -/
  | vsetl (b : BitVec 5) (a : BitVec 5) (d : BitVec 5)
  /-- VSETLI (R280). Sets VTYPE from an immediate and VL from ga. -/
  | vsetli (i : BitVec 12) (a : BitVec 5) (d : BitVec 5)
  /-- VREDSUM_XS (R308). Integer sum reduction into a scalar. -/
  | vredsumXs (a : BitVec 1) (m : BitVec 1) (t : BitVec 5) (s : BitVec 5) (d : BitVec 5)
  /-- VREDMIN_XS (R308). Integer minimum reduction. -/
  | vredminXs (a : BitVec 1) (m : BitVec 1) (t : BitVec 5) (s : BitVec 5) (d : BitVec 5)
  /-- VREDMAX_XS (R308). Integer maximum reduction. -/
  | vredmaxXs (a : BitVec 1) (m : BitVec 1) (t : BitVec 5) (s : BitVec 5) (d : BitVec 5)
  /-- VREDAND_XS (R308). Bitwise AND reduction. -/
  | vredandXs (a : BitVec 1) (m : BitVec 1) (t : BitVec 5) (s : BitVec 5) (d : BitVec 5)
  /-- VREDOR_XS (R308). Bitwise OR reduction. -/
  | vredorXs (a : BitVec 1) (m : BitVec 1) (t : BitVec 5) (s : BitVec 5) (d : BitVec 5)
  /-- VREDXOR_XS (R308). Bitwise XOR reduction. -/
  | vredxorXs (a : BitVec 1) (m : BitVec 1) (t : BitVec 5) (s : BitVec 5) (d : BitVec 5)
  /-- VFREDSUM_XS (R308). Floating-point sum reduction in the fixed tree. -/
  | vfredsumXs (a : BitVec 1) (m : BitVec 1) (t : BitVec 5) (s : BitVec 5) (d : BitVec 5)
  /-- VFREDMIN_XS (R308). Floating-point minimum reduction. -/
  | vfredminXs (a : BitVec 1) (m : BitVec 1) (t : BitVec 5) (s : BitVec 5) (d : BitVec 5)
  /-- VFREDMAX_XS (R308). Floating-point maximum reduction. -/
  | vfredmaxXs (a : BitVec 1) (m : BitVec 1) (t : BitVec 5) (s : BitVec 5) (d : BitVec 5)
  /-- VREDMINI_XS (R309). Minimum with the lowest index of its occurrence. -/
  | vredminiXs (a : BitVec 1) (m : BitVec 1) (t : BitVec 5) (s : BitVec 5) (d : BitVec 5)
  /-- VREDMAXI_XS (R309). Maximum with the lowest index of its occurrence. -/
  | vredmaxiXs (a : BitVec 1) (m : BitVec 1) (t : BitVec 5) (s : BitVec 5) (d : BitVec 5)
  /-- VTREE (R311). Adds the integer row sum into acc[i][0] with saturation. -/
  | vtree (a : BitVec 1) (m : BitVec 1) (t : BitVec 5) (h : BitVec 1) (i : BitVec 5)
  /-- VFTREE (R311). Adds the floating-point row sum into acc[i][0]. -/
  | vftree (a : BitVec 1) (m : BitVec 1) (t : BitVec 5) (h : BitVec 1) (i : BitVec 5)
  /-- VTREESEG (R311). Adds integer segment sums into a row of acc. -/
  | vtreeseg (c : BitVec 3) (a : BitVec 1) (m : BitVec 1) (t : BitVec 5) (h : BitVec 1) (i : BitVec 5)
  /-- VFTREESEG (R311). Adds floating-point segment sums into a row of acc. -/
  | vftreeseg (c : BitVec 3) (a : BitVec 1) (m : BitVec 1) (t : BitVec 5) (h : BitVec 1) (i : BitVec 5)
  /-- VSEGSUM_V (R310). Integer sum per segment of S elements. -/
  | vsegsumV (c : BitVec 3) (a : BitVec 1) (m : BitVec 1) (t : BitVec 5) (d : BitVec 5)
  /-- VSEGMIN_V (R310). Integer minimum per segment. -/
  | vsegminV (c : BitVec 3) (a : BitVec 1) (m : BitVec 1) (t : BitVec 5) (d : BitVec 5)
  /-- VSEGMAX_V (R310). Integer maximum per segment. -/
  | vsegmaxV (c : BitVec 3) (a : BitVec 1) (m : BitVec 1) (t : BitVec 5) (d : BitVec 5)
  /-- VFSEGSUM_V (R310). Floating-point sum per segment. -/
  | vfsegsumV (c : BitVec 3) (a : BitVec 1) (m : BitVec 1) (t : BitVec 5) (d : BitVec 5)
  /-- VFSEGMIN_V (R310). Floating-point minimum per segment. -/
  | vfsegminV (c : BitVec 3) (a : BitVec 1) (m : BitVec 1) (t : BitVec 5) (d : BitVec 5)
  /-- VFSEGMAX_V (R310). Floating-point maximum per segment. -/
  | vfsegmaxV (c : BitVec 3) (a : BitVec 1) (m : BitVec 1) (t : BitVec 5) (d : BitVec 5)
  /-- VSLIDEUP_VX (R313). Slides elements up by k. -/
  | vslideupVx (a : BitVec 1) (m : BitVec 1) (t : BitVec 5) (s : BitVec 5) (d : BitVec 5)
  /-- VSLIDEDOWN_VX (R313). Slides elements down by k. -/
  | vslidedownVx (a : BitVec 1) (m : BitVec 1) (t : BitVec 5) (s : BitVec 5) (d : BitVec 5)
  /-- VSLIDE1UP_VX (R313). Slides up by one, inserting a scalar at element 0. -/
  | vslide1upVx (a : BitVec 1) (m : BitVec 1) (t : BitVec 5) (s : BitVec 5) (d : BitVec 5)
  /-- VSLIDE1DOWN_VX (R313). Slides down by one, inserting a scalar at VL - 1. -/
  | vslide1downVx (a : BitVec 1) (m : BitVec 1) (t : BitVec 5) (s : BitVec 5) (d : BitVec 5)
  /-- VGATHER_VV (R313). Gathers vs2 elements by an index vector. -/
  | vgatherVv (w : BitVec 2) (a : BitVec 1) (m : BitVec 1) (t : BitVec 5) (s : BitVec 5) (d : BitVec 5)
  /-- VCOMPRESS_VV (R315). Packs mask-selected elements and sets VL to their count. -/
  | vcompressVv (a : BitVec 1) (t : BitVec 5) (s : BitVec 5) (d : BitVec 5)
  /-- VEXPAND_VV (R316). Spreads packed elements to the mask-selected places. -/
  | vexpandVv (a : BitVec 1) (t : BitVec 5) (s : BitVec 5) (d : BitVec 5)
  /-- VBCAST_VX (R313). Broadcasts element k of vs2. -/
  | vbcastVx (a : BitVec 1) (m : BitVec 1) (t : BitVec 5) (s : BitVec 5) (d : BitVec 5)
  /-- VMROT_VX (R317). Rotates whole member contents around the gang. -/
  | vmrotVx (a : BitVec 1) (m : BitVec 1) (t : BitVec 5) (s : BitVec 5) (d : BitVec 5)
  /-- VLD (R320). Unit-stride vector load. -/
  | vld (a : BitVec 1) (m : BitVec 1) (s : BitVec 5) (d : BitVec 5)
  /-- VST (R320). Unit-stride vector store. -/
  | vst (a : BitVec 1) (m : BitVec 1) (s : BitVec 5) (d : BitVec 5)
  /-- VLDS (R320). Strided vector load. -/
  | vlds (a : BitVec 1) (m : BitVec 1) (t : BitVec 5) (s : BitVec 5) (d : BitVec 5)
  /-- VSTS (R320). Strided vector store. -/
  | vsts (a : BitVec 1) (m : BitVec 1) (t : BitVec 5) (s : BitVec 5) (d : BitVec 5)
  /-- VLDX (R320). Indexed vector load. -/
  | vldx (w : BitVec 2) (a : BitVec 1) (m : BitVec 1) (t : BitVec 5) (s : BitVec 5) (d : BitVec 5)
  /-- VSTX (R320). Indexed vector store. -/
  | vstx (w : BitVec 2) (a : BitVec 1) (m : BitVec 1) (t : BitVec 5) (s : BitVec 5) (d : BitVec 5)
  /-- VLDSP (R327). Loads operand rows of an own bank into a vector, converting by format. -/
  | vldsp (tr : BitVec 1) (a : BitVec 1) (m : BitVec 1) (k : BitVec 5) (s : BitVec 5) (d : BitVec 5)
  /-- VSTSP (R328). Stores a vector into operand rows of an own bank, converting by format. -/
  | vstsp (tr : BitVec 1) (a : BitVec 1) (m : BitVec 1) (k : BitVec 5) (s : BitVec 5) (d : BitVec 5)
  /-- MMODE (R332). Sets matrix mode and tile size. -/
  | mmode (a : BitVec 5) (d : BitVec 5)
  /-- MZERO (R333). Zeroes every cell of the tile. -/
  | mzero
  /-- MTREE (R334). Folds the tile into its first row by a pairwise tree. -/
  | mtree (t : BitVec 1)
  /-- MRD (R336). Reads tile cells into a vector, converting to a format. -/
  | mrd (t : BitVec 1) (f : BitVec 5) (b : BitVec 5) (a : BitVec 5) (d : BitVec 5)
  /-- MWR (R337). Writes vector elements into tile cells, converting from a format. -/
  | mwr (t : BitVec 1) (f : BitVec 5) (b : BitVec 5) (a : BitVec 5) (d : BitVec 5)
  /-- MOPA (R341). Accumulates the outer product of two bank operands into the tile. -/
  | mopa (b : BitVec 5) (a : BitVec 5)
  /-- MOPA_SC (R341). Accumulates a scaled outer product in FP32. -/
  | mopaSc (b : BitVec 5) (a : BitVec 5) (d : BitVec 5)
  /-- GADD (R345). Adds two Gaussian block images. -/
  | gadd (b : BitVec 5) (a : BitVec 5) (d : BitVec 5)
  /-- GELIM (R346). Eliminates the first k variables of a block image, trapping GSING on a small pivot. -/
  | gelim (b : BitVec 5) (a : BitVec 5) (d : BitVec 5)
  /-- GDAMP (R347). Blends a new block image with an old one by the damping weight. -/
  | gdamp (b : BitVec 5) (a : BitVec 5) (d : BitVec 5)
  /-- COPY (R351). Issues a linear copy request to the row cluster's engine. -/
  | copy (w : BitVec 1) (z : BitVec 1) (m : BitVec 1) (k : BitVec 3) (b : BitVec 5) (a : BitVec 5) (d : BitVec 5)
  /-- COPY2D (R351). Issues a strided two-dimensional copy request. -/
  | copy2d (w : BitVec 1) (z : BitVec 1) (m : BitVec 1) (k : BitVec 3) (b : BitVec 5) (a : BitVec 5) (d : BitVec 5)
  /-- COPYGATH (R351). Issues a gather of table rows by an index list. -/
  | copygath (w : BitVec 1) (z : BitVec 1) (m : BitVec 1) (k : BitVec 3) (b : BitVec 5) (a : BitVec 5) (d : BitVec 5)
  /-- COPYSCAT (R351). Issues a scatter of rows to table places by an index list. -/
  | copyscat (w : BitVec 1) (z : BitVec 1) (m : BitVec 1) (k : BitVec 3) (b : BitVec 5) (a : BitVec 5) (d : BitVec 5)
  /-- COPYT (R353). Issues a transposing copy of rows into a vector register group. -/
  | copyt (w : BitVec 1) (z : BitVec 1) (m : BitVec 1) (k : BitVec 3) (b : BitVec 5) (a : BitVec 5) (d : BitVec 5)
  /-- CREDUCE (R356). Contributes to a collective reduction. -/
  | creduce (w : BitVec 1) (z : BitVec 1) (k : BitVec 3) (b : BitVec 5) (a : BitVec 5) (d : BitVec 5)
  /-- CBCAST (R356). Takes part in a collective broadcast from rank 0. -/
  | cbcast (w : BitVec 1) (z : BitVec 1) (k : BitVec 3) (b : BitVec 5) (a : BitVec 5) (d : BitVec 5)
  /-- BINIT (R358). Initialises a barrier object and parks until it is performed. -/
  | binit (f : BitVec 2) (b : BitVec 5) (a : BitVec 5)
  /-- BARRIVE (R359). Releases at scope 6 and sends one arrival to a barrier object. -/
  | barrive (a : BitVec 5)
  /-- BWAIT (R360). Parks until the object is DONE or its GEN changes, then acquires at scope 7. -/
  | bwait (b : BitVec 5) (a : BitVec 5) (d : BitVec 5)
  /-- BQUERY (R361). Returns one word of a barrier object's image. -/
  | bquery (b : BitVec 5) (a : BitVec 5) (d : BitVec 5)
  /-- FADD (R262). Scalar floating-point add. -/
  | fadd (z : BitVec 1) (b : BitVec 5) (a : BitVec 5) (d : BitVec 5)
  /-- FSUB (R262). Scalar floating-point subtract. -/
  | fsub (z : BitVec 1) (b : BitVec 5) (a : BitVec 5) (d : BitVec 5)
  /-- FMUL (R262). Scalar floating-point multiply. -/
  | fmul (z : BitVec 1) (b : BitVec 5) (a : BitVec 5) (d : BitVec 5)
  /-- FDIV (R262). Scalar floating-point divide. -/
  | fdiv (z : BitVec 1) (b : BitVec 5) (a : BitVec 5) (d : BitVec 5)
  /-- FSQRT (R262). Scalar floating-point square root. -/
  | fsqrt (z : BitVec 1) (a : BitVec 5) (d : BitVec 5)
  /-- FMIN (R262). Scalar floating-point minimum. -/
  | fmin (z : BitVec 1) (b : BitVec 5) (a : BitVec 5) (d : BitVec 5)
  /-- FMAX (R262). Scalar floating-point maximum. -/
  | fmax (z : BitVec 1) (b : BitVec 5) (a : BitVec 5) (d : BitVec 5)
  /-- FTOI (R263). Floating point to signed 64-bit integer. -/
  | ftoi (z : BitVec 1) (a : BitVec 5) (d : BitVec 5)
  /-- FTOIN (R263). Floating point to unsigned 64-bit integer. -/
  | ftoin (z : BitVec 1) (a : BitVec 5) (d : BitVec 5)
  /-- ITOF (R263). Signed integer to floating point. -/
  | itof (z : BitVec 1) (a : BitVec 5) (d : BitVec 5)
  /-- INTOF (R263). Unsigned integer to floating point. -/
  | intof (z : BitVec 1) (a : BitVec 5) (d : BitVec 5)
  /-- FNAR (R263). Narrows f64 to f32. -/
  | fnar (a : BitVec 5) (d : BitVec 5)
  /-- FWID (R263). Widens f32 to f64 exactly. -/
  | fwid (a : BitVec 5) (d : BitVec 5)
  /-- FEQ (R263). Floating-point equality test. -/
  | feq (z : BitVec 1) (b : BitVec 5) (a : BitVec 5) (d : BitVec 5)
  /-- FLT (R263). Floating-point less-than test. -/
  | flt (z : BitVec 1) (b : BitVec 5) (a : BitVec 5) (d : BitVec 5)
  /-- FLE (R263). Floating-point less-or-equal test. -/
  | fle (z : BitVec 1) (b : BitVec 5) (a : BitVec 5) (d : BitVec 5)
  /-- FCLASS (R263). Writes the class bit of a floating-point value. -/
  | fclass (z : BitVec 1) (a : BitVec 5) (d : BitVec 5)
  /-- FSGN (R263). Magnitude of ga with the sign of gb. -/
  | fsgn (z : BitVec 1) (b : BitVec 5) (a : BitVec 5) (d : BitVec 5)
  /-- FSGNN (R263). Magnitude of ga with the inverted sign of gb. -/
  | fsgnn (z : BitVec 1) (b : BitVec 5) (a : BitVec 5) (d : BitVec 5)
  /-- FSGNX (R263). Magnitude of ga with the XOR of both signs. -/
  | fsgnx (z : BitVec 1) (b : BitVec 5) (a : BitVec 5) (d : BitVec 5)
  /-- FMADD (R264). Fused ga × gb + gd. -/
  | fmadd (z : BitVec 1) (b : BitVec 5) (a : BitVec 5) (d : BitVec 5)
  /-- FMSUB (R264). Fused ga × gb - gd. -/
  | fmsub (z : BitVec 1) (b : BitVec 5) (a : BitVec 5) (d : BitVec 5)
  /-- FNMADD (R264). Fused -(ga × gb) + gd. -/
  | fnmadd (z : BitVec 1) (b : BitVec 5) (a : BitVec 5) (d : BitVec 5)
  /-- OXLI (R271). Loads a sign-extended 20-bit immediate into an ox register. -/
  | oxli (i : BitVec 20) (n : BitVec 3)
  /-- OXHI (R271). Shifts an ox register left by 20 and ORs in an immediate. -/
  | oxhi (i : BitVec 20) (n : BitVec 3)
  /-- OXMV (R271). Copies ga into an ox register. -/
  | oxmv (a : BitVec 5) (n : BitVec 3)
  /-- OXRD (R271). Copies an ox register into gd. -/
  | oxrd (d : BitVec 5) (n : BitVec 3)
  /-- RSPLIT (R273). Splits the range containing ga under the edit lock. -/
  | rsplit (a : BitVec 5) (d : BitVec 5)
  /-- RMERGE (R273). Merges the range containing ga with its successor. -/
  | rmerge (a : BitVec 5) (d : BitVec 5)
  /-- RINV (R274). Invalidates range entries over a span at a scope and parks until done. -/
  | rinv (s : BitVec 3) (b : BitVec 5) (a : BitVec 5)
  /-- RPROBE (R275). Translates ga without trapping and reports the descriptor's state. -/
  | rprobe (a : BitVec 5) (d : BitVec 5)
  /-- WAYCFG (R276). Requests a new way configuration and parks until the change completes. -/
  | waycfg (a : BitVec 5) (d : BitVec 5)
  /-- CWFLUSH (R278). Sends cache-walker flush pieces for a span. -/
  | cwflush (b : BitVec 5) (a : BitVec 5) (d : BitVec 5)
  /-- CWINV (R278). Sends cache-walker flush-and-drop pieces for a span. -/
  | cwinv (b : BitVec 5) (a : BitVec 5) (d : BitVec 5)
  /-- BRK (R425). Raises BREAK with the code in XVAL. -/
  | brk (c : BitVec 5)
  /-- NFALL (R425). Starts a Nightfall wave and freezes the issuing hart. -/
  | nfall (a : BitVec 5)
  /-- ILLEGAL_OP (R218). A fetched word whose encoding is unassigned, has a nonzero reserved field or an out-of-limit field traps ILLEGAL_OP with the word in XVAL. -/
  | illegalOp (w : BitVec 32)
  /-- PASS (R178). The micro-sequencer completes one pass of a convoy member over an element group, advancing VPI and, at the last pass, completing the command. -/
  | pass (core : Nat)
  /-- ACCUMULATION_END (R342). A MOPA or MOPA.SC accumulation ends the time of R186 after its operand buffer filled, completing the dense-tile command. -/
  | accumulationEnd (core : Nat)
  /-- DAYBREAK_ACKNOWLEDGEMENT (R433). A device's acknowledgement of a Daybreak step reaches the coordinator, which sends the next step once every device has acknowledged. -/
  | daybreakAcknowledgement (a : AckIn)
  /-- BEAT_RETRANSMISSION (R71). A beat received with a failing CRC-16 on the omega network, mesh, link or vertical bus is retransmitted, and after 8 failures counts as an uncorrectable error of its access. -/
  | beatRetransmission (b : Beat) (ok : Bool)
deriving DecidableEq, Repr

end Sys2Proof
end

