-- ==== Sys2Proof/WellFormed.lean ====
section
/-!
DEFINITION. Which terms of Instr are instructions: the limits that the chapters state for fields under ILLEGAL_OP
(R218, R224, R225, R260, R266, R307, R313, R331), and for events the numbers of the units they name (R9, R11, R12).
-/

namespace Sys2Proof

/-- A replicate width without replication traps ILLEGAL_OP (R224). -/
def repOk (rsz : BitVec 2) (rep : BitVec 1) : Bool := rep == 1#1 || rsz == 0#2

/-- The index width code 01 names no width (R313, R319). -/
def indexWidthOk (x : BitVec 2) : Bool := x != 1#2

/-- The formats whose mrd and mwr name a scale register: the block-scaled codes 0x0D to 0x13 (R157, R331). -/
def blockScaledCode (f : BitVec 5) : Bool := 0x0D ≤ f.toNat && f.toNat ≤ 0x13

/-- A column, a core, and a package slot number within the package (R9, R12). -/
def colOk (c : Nat) : Bool := c < 8
def coreOk (c : Nat) : Bool := c < 2048

/-- The legal terms (R218). -/
def Instr.wf : Instr → Bool
  | .coldReset => true
  | .warmReset _ => true
  | .boot => true
  | .bootTimeout => true
  | .bootctlOk => true
  | .attest => true
  | .mbxReset => true
  | .nightreg => true
  | .update => true
  | .commit col => colOk col
  | .layerctlReq col _ => colOk col
  | .layerPowerOff col => colOk col
  | .layerPowerOn col => colOk col
  | .tempReading col _ _ => colOk col
  | .tripClear col => colOk col
  | .patrolScrub col _ => colOk col
  | .cecntRead col => colOk col
  | .cebytesRead col _ => colOk col
  | .cereqsRead col _ => colOk col
  | .clelemsRead col _ => colOk col
  | .czinRead col _ => colOk col
  | .czoutRead col _ => colOk col
  | .registerWrite _ _ _ => true
  | .privilegedViewWrite core _ _ _ => coreOk core
  | .mstatWrite core _ _ => coreOk core
  | .writeQueueDrain core => coreOk core
  | .switchHop _ => true
  | .replyEntryExpiry _ => true
  | .replyHop _ => true
  | .sliceRequest col _ => colOk col
  | .bankAccess core _ => coreOk core
  | .timedRetry core _ => coreOk core
  | .acknowledgement _ => true
  | .probe _ => true
  | .echo _ => true
  | .route _ => true
  | .transientRead _ => true
  | .transientWrite _ => true
  | .eviction core _ => coreOk core
  | .transientFailure _ => true
  | .persistentRequest _ => true
  | .deactivation _ => true
  | .countdownExpiry core _ _ => coreOk core
  | .rangeSearch core _ _ => coreOk core
  | .headerReread core _ => coreOk core
  | .editRetry core _ => coreOk core
  | .lockRetry core _ => coreOk core
  | .dropRequest _ core => coreOk core
  | .engineDrop _ col => colOk col
  | .dropAcknowledgement _ => true
  | .drop core => coreOk core
  | .move col => colOk col
  | .ddrop core => coreOk core
  | .idrop core => coreOk core
  | .walkerPiece col => colOk col
  | .requestBegins col _ => colOk col
  | .batch col _ => colOk col
  | .requestComplete col _ => colOk col
  | .contribution col _ => colOk col
  | .initialise _ => true
  | .credit _ => true
  | .arrive _ => true
  | .errorArrive _ => true
  | .query _ => true
  | .wireCompletion col _ _ => colOk col
  | .barwTimeout core _ => coreOk core
  | .parkTimeout core _ => coreOk core
  | .decisionCycle => true
  | .contextSwitch _ => true
  | .qtail _ _ => true
  | .load _ => true
  | .stageFeed _ _ => true
  | .takeRecord core => coreOk core
  | .balancer _ _ => true
  | .takeMessage core => coreOk core
  | .messageArrival _ => true
  | .messageRetry _ => true
  | .spawnRequest _ => true
  | .spawnAnswer _ => true
  | .ctxjobWrite core _ _ => coreOk core
  | .jobChange core => coreOk core
  | .save core => coreOk core
  | .restore core => coreOk core
  | .nfctlNfall => true
  | .nfctlJob _ => true
  | .originFlit o _ => decide (o.port < 16)
  | .wave core => core ≤ 2050
  | .nfctlDb => true
  | .daybreakStep d => decide (d.port < 16)
  | .haltreq core _ => coreOk core
  | .resumereq core _ => coreOk core
  | .accessRegister core _ _ _ _ _ => coreOk core
  | .accessMemory col _ _ _ _ _ => colOk col
  | .instrumentUnload col _ => colOk col
  | .train => true
  | .capabilityFlit _ _ _ _ _ => true
  | .allowanceGrant _ _ _ => true
  | .joblctWrite col _ _ => colOk col
  | .lctbaseWrite col _ _ => colOk col
  | .cxlMemAccess col _ _ _ _ => colOk col
  | .mergeWindowClose core _ => coreOk core
  | .operandBufferFull core => coreOk core
  | .add16 _ _ => true
  | .sub16 _ _ => true
  | .and16 _ _ => true
  | .or16 _ _ => true
  | .xor16 _ _ => true
  | .shl16 _ _ => true
  | .shr16 _ _ => true
  | .sra16 _ _ => true
  | .mv16 _ _ => true
  | .addi16 _ _ => true
  | .li16 _ _ => true
  | .ldD16 _ _ _ => true
  | .stD16 _ _ _ => true
  | .ldW16 _ _ _ => true
  | .stW16 _ _ _ => true
  | .beqz16 _ _ => true
  | .bnez16 _ _ => true
  | .j16 _ => true
  | .ret16 => true
  | .add _ _ _ => true
  | .sub _ _ _ => true
  | .and _ _ _ => true
  | .or _ _ _ => true
  | .xor _ _ _ => true
  | .shl _ _ _ => true
  | .shr _ _ _ => true
  | .sra _ _ _ => true
  | .slt _ _ _ => true
  | .sltn _ _ _ => true
  | .min _ _ _ => true
  | .max _ _ _ => true
  | .minn _ _ _ => true
  | .maxn _ _ _ => true
  | .andn _ _ _ => true
  | .mul _ _ _ => true
  | .mulh _ _ _ => true
  | .mulhn _ _ _ => true
  | .div _ _ _ => true
  | .divn _ _ _ => true
  | .rem _ _ _ => true
  | .remn _ _ _ => true
  | .addW _ _ _ => true
  | .subW _ _ _ => true
  | .shlW _ _ _ => true
  | .shrW _ _ _ => true
  | .sraW _ _ _ => true
  | .mulW _ _ _ => true
  | .divW _ _ _ => true
  | .divnW _ _ _ => true
  | .remW _ _ _ => true
  | .remnW _ _ _ => true
  | .addi _ _ _ => true
  | .slti _ _ _ => true
  | .sltni _ _ _ => true
  | .andi _ _ _ => true
  | .ori _ _ _ => true
  | .xori _ _ _ => true
  | .shli _ _ _ => true
  | .shri _ _ _ => true
  | .srai _ _ _ => true
  | .bext _ _ _ => true
  | .bins _ _ _ => true
  | .popc _ _ => true
  | .clz _ _ => true
  | .ctz _ _ => true
  | .ldhi _ _ => true
  | .pcadd _ _ => true
  | .ldB _ _ _ => true
  | .ldH _ _ _ => true
  | .ldW _ _ _ => true
  | .ldD _ _ _ => true
  | .ldBn _ _ _ => true
  | .ldHn _ _ _ => true
  | .ldWn _ _ _ => true
  | .ldBNc _ _ _ => true
  | .ldHNc _ _ _ => true
  | .ldWNc _ _ _ => true
  | .ldDNc _ _ _ => true
  | .ldBnNc _ _ _ => true
  | .ldHnNc _ _ _ => true
  | .ldWnNc _ _ _ => true
  | .ldBC _ _ _ => true
  | .ldHC _ _ _ => true
  | .ldWC _ _ _ => true
  | .ldDC _ _ _ => true
  | .ldBnC _ _ _ => true
  | .ldHnC _ _ _ => true
  | .ldWnC _ _ _ => true
  | .stB _ _ _ => true
  | .stH _ _ _ => true
  | .stW _ _ _ => true
  | .stD _ _ _ => true
  | .stBNc _ _ _ => true
  | .stHNc _ _ _ => true
  | .stWNc _ _ _ => true
  | .stDNc _ _ _ => true
  | .amadd _ _ _ _ => true
  | .amswap _ _ _ _ => true
  | .amcas _ _ _ _ => true
  | .amand _ _ _ _ => true
  | .amor _ _ _ _ => true
  | .amxor _ _ _ _ => true
  | .ammin _ _ _ _ => true
  | .ammax _ _ _ _ => true
  | .amminn _ _ _ _ => true
  | .ammaxn _ _ _ _ => true
  | .amfadd _ _ _ _ => true
  | .amfmin _ _ _ _ => true
  | .amfmax _ _ _ _ => true
  | .redAdd _ _ _ => true
  | .redMin _ _ _ => true
  | .redMax _ _ _ => true
  | .redMinn _ _ _ => true
  | .redMaxn _ _ _ => true
  | .redFadd _ _ _ => true
  | .redFmin _ _ _ => true
  | .redFmax _ _ _ => true
  | .ldfD _ _ => true
  | .steD _ _ => true
  | .mbput _ n => n.toNat < 8
  | .mbget n _ => n.toNat < 8
  | .beq _ _ _ => true
  | .bne _ _ _ => true
  | .blt _ _ _ => true
  | .bge _ _ _ => true
  | .bltn _ _ _ => true
  | .bgen _ _ _ => true
  | .jal _ _ => true
  | .jalr _ _ _ => true
  | .fence _ => true
  | .acq _ => true
  | .rel _ => true
  | .phase _ => true
  | .vfence => true
  | .barw w _ => w.toNat < 3
  | .park _ _ => true
  | .waitt _ => true
  | .mfs _ _ => true
  | .mts _ _ => true
  | .trap _ => true
  | .xret => true
  | .savev _ _ => true
  | .rstv _ _ => true
  | .migrate _ _ _ => true
  | .fwdclr _ _ => true
  | .spawn _ _ _ => true
  | .suspend _ => true
  | .emit _ => true
  | .endI => true
  | .hend => true
  | .larm _ _ _ => true
  | .send _ _ _ => true
  | .vaddVv r p _ _ _ _ _ => repOk r p
  | .vaddVx r p _ _ _ _ _ => repOk r p
  | .vsubVv r p _ _ _ _ _ => repOk r p
  | .vsubVx r p _ _ _ _ _ => repOk r p
  | .vrsubVx r p _ _ _ _ _ => repOk r p
  | .vmulVv r p _ _ _ _ _ => repOk r p
  | .vmulVx r p _ _ _ _ _ => repOk r p
  | .vmulhVv r p _ _ _ _ _ => repOk r p
  | .vmulhVx r p _ _ _ _ _ => repOk r p
  | .vdivVv r p _ _ _ _ _ => repOk r p
  | .vdivVx r p _ _ _ _ _ => repOk r p
  | .vremVv r p _ _ _ _ _ => repOk r p
  | .vremVx r p _ _ _ _ _ => repOk r p
  | .vminVv r p _ _ _ _ _ => repOk r p
  | .vminVx r p _ _ _ _ _ => repOk r p
  | .vmaxVv r p _ _ _ _ _ => repOk r p
  | .vmaxVx r p _ _ _ _ _ => repOk r p
  | .vsaddVv r p _ _ _ _ _ => repOk r p
  | .vsaddVx r p _ _ _ _ _ => repOk r p
  | .vssubVv r p _ _ _ _ _ => repOk r p
  | .vssubVx r p _ _ _ _ _ => repOk r p
  | .vidV _ _ _ => true
  | .vpopcV r p _ _ _ _ => repOk r p
  | .vviewV r p _ _ _ _ => repOk r p
  | .vandVv r p _ _ _ _ _ => repOk r p
  | .vandVx r p _ _ _ _ _ => repOk r p
  | .vorVv r p _ _ _ _ _ => repOk r p
  | .vorVx r p _ _ _ _ _ => repOk r p
  | .vxorVv r p _ _ _ _ _ => repOk r p
  | .vxorVx r p _ _ _ _ _ => repOk r p
  | .vandnVv r p _ _ _ _ _ => repOk r p
  | .vnotV r p _ _ _ _ => repOk r p
  | .vshlVv r p _ _ _ _ _ => repOk r p
  | .vshlVx r p _ _ _ _ _ => repOk r p
  | .vshrVv r p _ _ _ _ _ => repOk r p
  | .vshrVx r p _ _ _ _ _ => repOk r p
  | .vsraVv r p _ _ _ _ _ => repOk r p
  | .vsraVx r p _ _ _ _ _ => repOk r p
  | .vmseqVv r p _ _ _ _ _ => repOk r p
  | .vmseqVx r p _ _ _ _ _ => repOk r p
  | .vmsneVv r p _ _ _ _ _ => repOk r p
  | .vmsneVx r p _ _ _ _ _ => repOk r p
  | .vmsltVv r p _ _ _ _ _ => repOk r p
  | .vmsltVx r p _ _ _ _ _ => repOk r p
  | .vmsleVv r p _ _ _ _ _ => repOk r p
  | .vmsleVx r p _ _ _ _ _ => repOk r p
  | .vmsgtVx r p _ _ _ _ _ => repOk r p
  | .vmsgeVx r p _ _ _ _ _ => repOk r p
  | .vmandMm _ _ _ _ _ => true
  | .vmorMm _ _ _ _ _ => true
  | .vmxorMm _ _ _ _ _ => true
  | .vmandnMm _ _ _ _ _ => true
  | .vmergeVv _ _ _ _ => true
  | .vmergeVx _ _ _ _ => true
  | .vmvVv r p _ _ _ _ => repOk r p
  | .vmvVx _ _ _ _ => true
  | .vmvXs _ _ => true
  | .vfaddVv r p _ _ _ _ _ => repOk r p
  | .vfaddVx r p _ _ _ _ _ => repOk r p
  | .vfsubVv r p _ _ _ _ _ => repOk r p
  | .vfsubVx r p _ _ _ _ _ => repOk r p
  | .vfrsubVx r p _ _ _ _ _ => repOk r p
  | .vfmulVv r p _ _ _ _ _ => repOk r p
  | .vfmulVx r p _ _ _ _ _ => repOk r p
  | .vfdivVv r p _ _ _ _ _ => repOk r p
  | .vfdivVx r p _ _ _ _ _ => repOk r p
  | .vfrdivVx r p _ _ _ _ _ => repOk r p
  | .vfsqrtV r p _ _ _ _ => repOk r p
  | .vfminVv r p _ _ _ _ _ => repOk r p
  | .vfminVx r p _ _ _ _ _ => repOk r p
  | .vfmaxVv r p _ _ _ _ _ => repOk r p
  | .vfmaxVx r p _ _ _ _ _ => repOk r p
  | .vfsgnVv r p _ _ _ _ _ => repOk r p
  | .vfsgnnVv r p _ _ _ _ _ => repOk r p
  | .vfsgnxVv r p _ _ _ _ _ => repOk r p
  | .vfclassV r p _ _ _ _ => repOk r p
  | .vmfeqVv r p _ _ _ _ _ => repOk r p
  | .vmfeqVx r p _ _ _ _ _ => repOk r p
  | .vmfneVv r p _ _ _ _ _ => repOk r p
  | .vmfneVx r p _ _ _ _ _ => repOk r p
  | .vmfltVv r p _ _ _ _ _ => repOk r p
  | .vmfltVx r p _ _ _ _ _ => repOk r p
  | .vmfleVv r p _ _ _ _ _ => repOk r p
  | .vmfleVx r p _ _ _ _ _ => repOk r p
  | .vmfgtVx r p _ _ _ _ _ => repOk r p
  | .vmfgeVx r p _ _ _ _ _ => repOk r p
  | .vwcvtV r p _ _ _ _ => repOk r p
  | .vncvtV r p _ _ _ _ => repOk r p
  | .vnclipV r p _ _ _ _ => repOk r p
  | .vfwcvtV r p _ _ _ _ => repOk r p
  | .vfncvtV r p _ _ _ _ => repOk r p
  | .vftoiV r p _ _ _ _ => repOk r p
  | .vftoinV r p _ _ _ _ => repOk r p
  | .vitofV r p _ _ _ _ => repOk r p
  | .vintofV r p _ _ _ _ => repOk r p
  | .vfcvtF4 r p _ _ _ _ => repOk r p
  | .vrngV _ _ _ => true
  | .vseedVx _ _ _ => true
  | .vsetl _ _ _ => true
  | .vsetli _ _ _ => true
  | .vredsumXs _ _ _ _ _ => true
  | .vredminXs _ _ _ _ _ => true
  | .vredmaxXs _ _ _ _ _ => true
  | .vredandXs _ _ _ _ _ => true
  | .vredorXs _ _ _ _ _ => true
  | .vredxorXs _ _ _ _ _ => true
  | .vfredsumXs _ _ _ _ _ => true
  | .vfredminXs _ _ _ _ _ => true
  | .vfredmaxXs _ _ _ _ _ => true
  | .vredminiXs _ _ _ s d => d != s || d == 0#5
  | .vredmaxiXs _ _ _ s d => d != s || d == 0#5
  | .vtree _ _ _ _ _ => true
  | .vftree _ _ _ _ _ => true
  | .vtreeseg _ _ _ _ _ _ => true
  | .vftreeseg _ _ _ _ _ _ => true
  | .vsegsumV _ _ _ _ _ => true
  | .vsegminV _ _ _ _ _ => true
  | .vsegmaxV _ _ _ _ _ => true
  | .vfsegsumV _ _ _ _ _ => true
  | .vfsegminV _ _ _ _ _ => true
  | .vfsegmaxV _ _ _ _ _ => true
  | .vslideupVx _ _ _ _ _ => true
  | .vslidedownVx _ _ _ _ _ => true
  | .vslide1upVx _ _ _ _ _ => true
  | .vslide1downVx _ _ _ _ _ => true
  | .vgatherVv w _ _ _ _ _ => indexWidthOk w
  | .vcompressVv _ _ _ _ => true
  | .vexpandVv _ _ _ _ => true
  | .vbcastVx _ _ _ _ _ => true
  | .vmrotVx _ _ _ _ _ => true
  | .vld _ _ _ _ => true
  | .vst _ _ _ _ => true
  | .vlds _ _ _ _ _ => true
  | .vsts _ _ _ _ _ => true
  | .vldx w _ _ _ _ _ => indexWidthOk w
  | .vstx w _ _ _ _ _ => indexWidthOk w
  | .vldsp _ _ _ _ _ _ => true
  | .vstsp _ _ _ _ _ _ => true
  | .mmode _ _ => true
  | .mzero => true
  | .mtree _ => true
  | .mrd _ f b _ _ => blockScaledCode f || b == 0#5
  | .mwr _ f b _ _ => blockScaledCode f || b == 0#5
  | .mopa _ _ => true
  | .mopaSc _ _ _ => true
  | .gadd _ _ _ => true
  | .gelim _ _ _ => true
  | .gdamp _ _ _ => true
  | .copy _ _ _ _ _ _ _ => true
  | .copy2d _ _ _ _ _ _ _ => true
  | .copygath _ _ _ _ _ _ _ => true
  | .copyscat _ _ _ _ _ _ _ => true
  | .copyt _ _ _ _ _ _ _ => true
  | .creduce _ _ _ _ _ _ => true
  | .cbcast _ _ _ _ _ _ => true
  | .binit _ _ _ => true
  | .barrive _ => true
  | .bwait _ _ _ => true
  | .bquery _ _ _ => true
  | .fadd _ _ _ _ => true
  | .fsub _ _ _ _ => true
  | .fmul _ _ _ _ => true
  | .fdiv _ _ _ _ => true
  | .fsqrt _ _ _ => true
  | .fmin _ _ _ _ => true
  | .fmax _ _ _ _ => true
  | .ftoi _ _ _ => true
  | .ftoin _ _ _ => true
  | .itof _ _ _ => true
  | .intof _ _ _ => true
  | .fnar _ _ => true
  | .fwid _ _ => true
  | .feq _ _ _ _ => true
  | .flt _ _ _ _ => true
  | .fle _ _ _ _ => true
  | .fclass _ _ _ => true
  | .fsgn _ _ _ _ => true
  | .fsgnn _ _ _ _ => true
  | .fsgnx _ _ _ _ => true
  | .fmadd _ _ _ _ => true
  | .fmsub _ _ _ _ => true
  | .fnmadd _ _ _ _ => true
  | .oxli _ _ => true
  | .oxhi _ _ => true
  | .oxmv _ _ => true
  | .oxrd _ _ => true
  | .rsplit _ _ => true
  | .rmerge _ _ => true
  | .rinv _ _ _ => true
  | .rprobe _ _ => true
  | .waycfg _ _ => true
  | .cwflush _ _ _ => true
  | .cwinv _ _ _ => true
  | .brk _ => true
  | .nfall _ => true
  | .illegalOp _ => true
  | .pass core => coreOk core
  | .accumulationEnd core => coreOk core
  | .daybreakAcknowledgement a => decide (a.port < 16)
  | .beatRetransmission _ _ => true

end Sys2Proof
end

