-- ==== Sys2Proof/Decode.lean ====
section
/-!
DEFINITION. The decoder and the encoder (R216 to R230 and the function tables of the instruction chapters).
A word is read as one natural number whose bit 0 is the least significant bit of the first halfword (R216).
The decoder is total on any bytes; what is not an assigned encoding with legal fields is rejected by name, and the step
then takes ILLEGAL_OP (R218).
-/

namespace Sys2Proof

/-- The field of len bits of w whose lowest bit is bit lo (R1, written [lo+len-1:lo]). -/
def field (lo len w : Nat) : Nat := w / 2 ^ lo % 2 ^ len

/-- The number whose fields from bit 0 upwards have the given widths and values. -/
def pack : List (Nat × Nat) → Nat
  | [] => 0
  | (n, v) :: r => v % 2 ^ n + 2 ^ n * pack r

/-- The fields of a word, by lowest bit and length. -/
abbrev Fields := Nat → Nat → Nat

/-- The fields of the word w. -/
def fieldsOf (w : Nat) : Fields := fun lo len => field lo len w

/-- The field of len bits at lo as a bit vector. -/
def bits (f : Fields) (lo len : Nat) : BitVec len := BitVec.ofNat len (f lo len)

/-- Why bytes are no instruction. -/
inductive DecodeError where
  /-- Fewer bytes than the length bit asks for (R216). -/
  | truncated
  /-- The halfword's opcode or function value is unassigned, or a reserved field is nonzero (R218, R228). -/
  | unassigned16
  /-- The 32-bit word's major or function value is unassigned, or a reserved field is nonzero (R218, R229). -/
  | unassigned32
  /-- A field lies outside the limit its instruction states, under ILLEGAL_OP (R218). -/
  | fieldLimit
deriving DecidableEq, Repr

/-- 16-bit opcode 0x01 (R228). -/
def decodeH01 (f : Fields) : Option Instr :=
  if f 12 4 = 0x0 then
    some (.add16 (bits f 9 3) (bits f 6 3))
  else if f 12 4 = 0x1 then
    some (.sub16 (bits f 9 3) (bits f 6 3))
  else if f 12 4 = 0x2 then
    some (.and16 (bits f 9 3) (bits f 6 3))
  else if f 12 4 = 0x3 then
    some (.or16 (bits f 9 3) (bits f 6 3))
  else if f 12 4 = 0x4 then
    some (.xor16 (bits f 9 3) (bits f 6 3))
  else if f 12 4 = 0x5 then
    some (.shl16 (bits f 9 3) (bits f 6 3))
  else if f 12 4 = 0x6 then
    some (.shr16 (bits f 9 3) (bits f 6 3))
  else if f 12 4 = 0x7 then
    some (.sra16 (bits f 9 3) (bits f 6 3))
  else if f 12 4 = 0x8 then
    some (.mv16 (bits f 9 3) (bits f 6 3))
  else none

/-- 16-bit opcode 0x02 (R228). -/
def decodeH02 (f : Fields) : Option Instr :=
  some (.addi16 (bits f 9 7) (bits f 6 3))

/-- 16-bit opcode 0x03 (R228). -/
def decodeH03 (f : Fields) : Option Instr :=
  some (.li16 (bits f 9 7) (bits f 6 3))

/-- 16-bit opcode 0x04 (R228). -/
def decodeH04 (f : Fields) : Option Instr :=
  some (.ldD16 (bits f 12 4) (bits f 9 3) (bits f 6 3))

/-- 16-bit opcode 0x05 (R228). -/
def decodeH05 (f : Fields) : Option Instr :=
  some (.stD16 (bits f 12 4) (bits f 9 3) (bits f 6 3))

/-- 16-bit opcode 0x06 (R228). -/
def decodeH06 (f : Fields) : Option Instr :=
  some (.ldW16 (bits f 12 4) (bits f 9 3) (bits f 6 3))

/-- 16-bit opcode 0x07 (R228). -/
def decodeH07 (f : Fields) : Option Instr :=
  some (.stW16 (bits f 12 4) (bits f 9 3) (bits f 6 3))

/-- 16-bit opcode 0x08 (R228). -/
def decodeH08 (f : Fields) : Option Instr :=
  some (.beqz16 (bits f 9 7) (bits f 6 3))

/-- 16-bit opcode 0x09 (R228). -/
def decodeH09 (f : Fields) : Option Instr :=
  some (.bnez16 (bits f 9 7) (bits f 6 3))

/-- 16-bit opcode 0x0A (R228). -/
def decodeH0A (f : Fields) : Option Instr :=
  some (.j16 (bits f 6 10))

/-- 16-bit opcode 0x0B (R228). -/
def decodeH0B (f : Fields) : Option Instr :=
  if f 6 10 = 0x0 then
    some (.ret16)
  else none

/-- Assigned 16-bit encodings by their opcode (R228). -/
def decodeWord16 (f : Fields) : Option Instr :=
  if f 1 5 = 0x1 then decodeH01 f
  else if f 1 5 = 0x2 then decodeH02 f
  else if f 1 5 = 0x3 then decodeH03 f
  else if f 1 5 = 0x4 then decodeH04 f
  else if f 1 5 = 0x5 then decodeH05 f
  else if f 1 5 = 0x6 then decodeH06 f
  else if f 1 5 = 0x7 then decodeH07 f
  else if f 1 5 = 0x8 then decodeH08 f
  else if f 1 5 = 0x9 then decodeH09 f
  else if f 1 5 = 0xa then decodeH0A f
  else if f 1 5 = 0xb then decodeH0B f
  else none

/-- Major 0x00 (R242). -/
def decodeW00 (f : Fields) : Option Instr :=
  if f 22 10 = 0x0 then
    some (.add (bits f 17 5) (bits f 12 5) (bits f 7 5))
  else if f 22 10 = 0x1 then
    some (.sub (bits f 17 5) (bits f 12 5) (bits f 7 5))
  else if f 22 10 = 0x2 then
    some (.and (bits f 17 5) (bits f 12 5) (bits f 7 5))
  else if f 22 10 = 0x3 then
    some (.or (bits f 17 5) (bits f 12 5) (bits f 7 5))
  else if f 22 10 = 0x4 then
    some (.xor (bits f 17 5) (bits f 12 5) (bits f 7 5))
  else if f 22 10 = 0x5 then
    some (.shl (bits f 17 5) (bits f 12 5) (bits f 7 5))
  else if f 22 10 = 0x6 then
    some (.shr (bits f 17 5) (bits f 12 5) (bits f 7 5))
  else if f 22 10 = 0x7 then
    some (.sra (bits f 17 5) (bits f 12 5) (bits f 7 5))
  else if f 22 10 = 0x8 then
    some (.slt (bits f 17 5) (bits f 12 5) (bits f 7 5))
  else if f 22 10 = 0x9 then
    some (.sltn (bits f 17 5) (bits f 12 5) (bits f 7 5))
  else if f 22 10 = 0xa then
    some (.min (bits f 17 5) (bits f 12 5) (bits f 7 5))
  else if f 22 10 = 0xb then
    some (.max (bits f 17 5) (bits f 12 5) (bits f 7 5))
  else if f 22 10 = 0xc then
    some (.minn (bits f 17 5) (bits f 12 5) (bits f 7 5))
  else if f 22 10 = 0xd then
    some (.maxn (bits f 17 5) (bits f 12 5) (bits f 7 5))
  else if f 22 10 = 0xe then
    some (.andn (bits f 17 5) (bits f 12 5) (bits f 7 5))
  else none

/-- Major 0x01 (R243). -/
def decodeW01 (f : Fields) : Option Instr :=
  if f 22 10 = 0x0 then
    some (.mul (bits f 17 5) (bits f 12 5) (bits f 7 5))
  else if f 22 10 = 0x1 then
    some (.mulh (bits f 17 5) (bits f 12 5) (bits f 7 5))
  else if f 22 10 = 0x2 then
    some (.mulhn (bits f 17 5) (bits f 12 5) (bits f 7 5))
  else if f 22 10 = 0x3 then
    some (.div (bits f 17 5) (bits f 12 5) (bits f 7 5))
  else if f 22 10 = 0x4 then
    some (.divn (bits f 17 5) (bits f 12 5) (bits f 7 5))
  else if f 22 10 = 0x5 then
    some (.rem (bits f 17 5) (bits f 12 5) (bits f 7 5))
  else if f 22 10 = 0x6 then
    some (.remn (bits f 17 5) (bits f 12 5) (bits f 7 5))
  else none

/-- Major 0x02 (R245). -/
def decodeW02 (f : Fields) : Option Instr :=
  if f 29 3 = 0x0 then
    some (.addi (bits f 17 12) (bits f 12 5) (bits f 7 5))
  else if f 29 3 = 0x1 then
    some (.slti (bits f 17 12) (bits f 12 5) (bits f 7 5))
  else if f 29 3 = 0x2 then
    some (.sltni (bits f 17 12) (bits f 12 5) (bits f 7 5))
  else if f 29 3 = 0x3 then
    some (.andi (bits f 17 12) (bits f 12 5) (bits f 7 5))
  else if f 29 3 = 0x4 then
    some (.ori (bits f 17 12) (bits f 12 5) (bits f 7 5))
  else if f 29 3 = 0x5 then
    some (.xori (bits f 17 12) (bits f 12 5) (bits f 7 5))
  else none

/-- Major 0x03 (R245). -/
def decodeW03 (f : Fields) : Option Instr :=
  if f 23 9 = 0x0 then
    some (.shli (bits f 17 6) (bits f 12 5) (bits f 7 5))
  else if f 23 9 = 0x40 then
    some (.shri (bits f 17 6) (bits f 12 5) (bits f 7 5))
  else if f 23 9 = 0x80 then
    some (.srai (bits f 17 6) (bits f 12 5) (bits f 7 5))
  else none

/-- Major 0x04 (R247, R248). -/
def decodeW04 (f : Fields) : Option Instr :=
  if f 22 10 = 0x0 then
    some (.bext (bits f 17 5) (bits f 12 5) (bits f 7 5))
  else if f 22 10 = 0x1 then
    some (.bins (bits f 17 5) (bits f 12 5) (bits f 7 5))
  else if f 22 10 = 0x2 ∧ f 17 5 = 0x0 then
    some (.popc (bits f 12 5) (bits f 7 5))
  else if f 22 10 = 0x3 ∧ f 17 5 = 0x0 then
    some (.clz (bits f 12 5) (bits f 7 5))
  else if f 22 10 = 0x4 ∧ f 17 5 = 0x0 then
    some (.ctz (bits f 12 5) (bits f 7 5))
  else none

/-- Major 0x05 (R246). -/
def decodeW05 (f : Fields) : Option Instr :=
  some (.ldhi (bits f 12 20) (bits f 7 5))

/-- Major 0x06 (R246). -/
def decodeW06 (f : Fields) : Option Instr :=
  some (.pcadd (bits f 12 20) (bits f 7 5))

/-- Major 0x07 (R244). -/
def decodeW07 (f : Fields) : Option Instr :=
  if f 22 10 = 0x0 then
    some (.addW (bits f 17 5) (bits f 12 5) (bits f 7 5))
  else if f 22 10 = 0x1 then
    some (.subW (bits f 17 5) (bits f 12 5) (bits f 7 5))
  else if f 22 10 = 0x5 then
    some (.shlW (bits f 17 5) (bits f 12 5) (bits f 7 5))
  else if f 22 10 = 0x6 then
    some (.shrW (bits f 17 5) (bits f 12 5) (bits f 7 5))
  else if f 22 10 = 0x7 then
    some (.sraW (bits f 17 5) (bits f 12 5) (bits f 7 5))
  else if f 22 10 = 0x100 then
    some (.mulW (bits f 17 5) (bits f 12 5) (bits f 7 5))
  else if f 22 10 = 0x103 then
    some (.divW (bits f 17 5) (bits f 12 5) (bits f 7 5))
  else if f 22 10 = 0x104 then
    some (.divnW (bits f 17 5) (bits f 12 5) (bits f 7 5))
  else if f 22 10 = 0x105 then
    some (.remW (bits f 17 5) (bits f 12 5) (bits f 7 5))
  else if f 22 10 = 0x106 then
    some (.remnW (bits f 17 5) (bits f 12 5) (bits f 7 5))
  else none

/-- Major 0x10 (R251). -/
def decodeW10 (f : Fields) : Option Instr :=
  if f 29 3 = 0x0 then
    some (.ldB (bits f 17 12) (bits f 12 5) (bits f 7 5))
  else if f 29 3 = 0x1 then
    some (.ldH (bits f 17 12) (bits f 12 5) (bits f 7 5))
  else if f 29 3 = 0x2 then
    some (.ldW (bits f 17 12) (bits f 12 5) (bits f 7 5))
  else if f 29 3 = 0x3 then
    some (.ldD (bits f 17 12) (bits f 12 5) (bits f 7 5))
  else if f 29 3 = 0x4 then
    some (.ldBn (bits f 17 12) (bits f 12 5) (bits f 7 5))
  else if f 29 3 = 0x5 then
    some (.ldHn (bits f 17 12) (bits f 12 5) (bits f 7 5))
  else if f 29 3 = 0x6 then
    some (.ldWn (bits f 17 12) (bits f 12 5) (bits f 7 5))
  else none

/-- Major 0x11 (R252). -/
def decodeW11 (f : Fields) : Option Instr :=
  if f 29 3 = 0x0 then
    some (.ldBNc (bits f 17 12) (bits f 12 5) (bits f 7 5))
  else if f 29 3 = 0x1 then
    some (.ldHNc (bits f 17 12) (bits f 12 5) (bits f 7 5))
  else if f 29 3 = 0x2 then
    some (.ldWNc (bits f 17 12) (bits f 12 5) (bits f 7 5))
  else if f 29 3 = 0x3 then
    some (.ldDNc (bits f 17 12) (bits f 12 5) (bits f 7 5))
  else if f 29 3 = 0x4 then
    some (.ldBnNc (bits f 17 12) (bits f 12 5) (bits f 7 5))
  else if f 29 3 = 0x5 then
    some (.ldHnNc (bits f 17 12) (bits f 12 5) (bits f 7 5))
  else if f 29 3 = 0x6 then
    some (.ldWnNc (bits f 17 12) (bits f 12 5) (bits f 7 5))
  else none

/-- Major 0x12 (R252). -/
def decodeW12 (f : Fields) : Option Instr :=
  if f 29 3 = 0x0 then
    some (.ldBC (bits f 17 12) (bits f 12 5) (bits f 7 5))
  else if f 29 3 = 0x1 then
    some (.ldHC (bits f 17 12) (bits f 12 5) (bits f 7 5))
  else if f 29 3 = 0x2 then
    some (.ldWC (bits f 17 12) (bits f 12 5) (bits f 7 5))
  else if f 29 3 = 0x3 then
    some (.ldDC (bits f 17 12) (bits f 12 5) (bits f 7 5))
  else if f 29 3 = 0x4 then
    some (.ldBnC (bits f 17 12) (bits f 12 5) (bits f 7 5))
  else if f 29 3 = 0x5 then
    some (.ldHnC (bits f 17 12) (bits f 12 5) (bits f 7 5))
  else if f 29 3 = 0x6 then
    some (.ldWnC (bits f 17 12) (bits f 12 5) (bits f 7 5))
  else none

/-- Major 0x13 (R251). -/
def decodeW13 (f : Fields) : Option Instr :=
  if f 29 3 = 0x0 then
    some (.stB (bits f 17 12) (bits f 12 5) (bits f 7 5))
  else if f 29 3 = 0x1 then
    some (.stH (bits f 17 12) (bits f 12 5) (bits f 7 5))
  else if f 29 3 = 0x2 then
    some (.stW (bits f 17 12) (bits f 12 5) (bits f 7 5))
  else if f 29 3 = 0x3 then
    some (.stD (bits f 17 12) (bits f 12 5) (bits f 7 5))
  else none

/-- Major 0x14 (R252). -/
def decodeW14 (f : Fields) : Option Instr :=
  if f 29 3 = 0x0 then
    some (.stBNc (bits f 17 12) (bits f 12 5) (bits f 7 5))
  else if f 29 3 = 0x1 then
    some (.stHNc (bits f 17 12) (bits f 12 5) (bits f 7 5))
  else if f 29 3 = 0x2 then
    some (.stWNc (bits f 17 12) (bits f 12 5) (bits f 7 5))
  else if f 29 3 = 0x3 then
    some (.stDNc (bits f 17 12) (bits f 12 5) (bits f 7 5))
  else none

/-- Major 0x15 (R256). -/
def decodeW15 (f : Fields) : Option Instr :=
  if f 23 9 = 0x1 then
    some (.amadd (bits f 22 1) (bits f 17 5) (bits f 12 5) (bits f 7 5))
  else if f 23 9 = 0x9 then
    some (.amswap (bits f 22 1) (bits f 17 5) (bits f 12 5) (bits f 7 5))
  else if f 23 9 = 0x11 then
    some (.amcas (bits f 22 1) (bits f 17 5) (bits f 12 5) (bits f 7 5))
  else if f 23 9 = 0x19 then
    some (.amand (bits f 22 1) (bits f 17 5) (bits f 12 5) (bits f 7 5))
  else if f 23 9 = 0x21 then
    some (.amor (bits f 22 1) (bits f 17 5) (bits f 12 5) (bits f 7 5))
  else if f 23 9 = 0x29 then
    some (.amxor (bits f 22 1) (bits f 17 5) (bits f 12 5) (bits f 7 5))
  else if f 23 9 = 0x31 then
    some (.ammin (bits f 22 1) (bits f 17 5) (bits f 12 5) (bits f 7 5))
  else if f 23 9 = 0x39 then
    some (.ammax (bits f 22 1) (bits f 17 5) (bits f 12 5) (bits f 7 5))
  else if f 23 9 = 0x41 then
    some (.amminn (bits f 22 1) (bits f 17 5) (bits f 12 5) (bits f 7 5))
  else if f 23 9 = 0x49 then
    some (.ammaxn (bits f 22 1) (bits f 17 5) (bits f 12 5) (bits f 7 5))
  else if f 23 9 = 0x51 then
    some (.amfadd (bits f 22 1) (bits f 17 5) (bits f 12 5) (bits f 7 5))
  else if f 23 9 = 0x59 then
    some (.amfmin (bits f 22 1) (bits f 17 5) (bits f 12 5) (bits f 7 5))
  else if f 23 9 = 0x61 then
    some (.amfmax (bits f 22 1) (bits f 17 5) (bits f 12 5) (bits f 7 5))
  else none

/-- Major 0x16 (R258, R259). -/
def decodeW16 (f : Fields) : Option Instr :=
  if f 23 9 = 0x1 ∧ f 7 5 = 0x0 then
    some (.redAdd (bits f 22 1) (bits f 17 5) (bits f 12 5))
  else if f 23 9 = 0x9 ∧ f 7 5 = 0x0 then
    some (.redMin (bits f 22 1) (bits f 17 5) (bits f 12 5))
  else if f 23 9 = 0x11 ∧ f 7 5 = 0x0 then
    some (.redMax (bits f 22 1) (bits f 17 5) (bits f 12 5))
  else if f 23 9 = 0x19 ∧ f 7 5 = 0x0 then
    some (.redMinn (bits f 22 1) (bits f 17 5) (bits f 12 5))
  else if f 23 9 = 0x21 ∧ f 7 5 = 0x0 then
    some (.redMaxn (bits f 22 1) (bits f 17 5) (bits f 12 5))
  else if f 23 9 = 0x29 ∧ f 7 5 = 0x0 then
    some (.redFadd (bits f 22 1) (bits f 17 5) (bits f 12 5))
  else if f 23 9 = 0x31 ∧ f 7 5 = 0x0 then
    some (.redFmin (bits f 22 1) (bits f 17 5) (bits f 12 5))
  else if f 23 9 = 0x39 ∧ f 7 5 = 0x0 then
    some (.redFmax (bits f 22 1) (bits f 17 5) (bits f 12 5))
  else if f 22 1 = 0x1 ∧ f 23 9 = 0x41 ∧ f 17 5 = 0x0 then
    some (.ldfD (bits f 12 5) (bits f 7 5))
  else if f 22 1 = 0x1 ∧ f 23 9 = 0x49 ∧ f 7 5 = 0x0 then
    some (.steD (bits f 17 5) (bits f 12 5))
  else none

/-- Major 0x17 (R260). -/
def decodeW17 (f : Fields) : Option Instr :=
  if f 17 15 = 0x0 then
    some (.mbput (bits f 12 5) (bits f 7 5))
  else if f 17 15 = 0x20 then
    some (.mbget (bits f 12 5) (bits f 7 5))
  else none

/-- Major 0x18 (R249). -/
def decodeW18 (f : Fields) : Option Instr :=
  if f 29 3 = 0x0 then
    some (.beq (bits f 17 12) (bits f 12 5) (bits f 7 5))
  else if f 29 3 = 0x1 then
    some (.bne (bits f 17 12) (bits f 12 5) (bits f 7 5))
  else if f 29 3 = 0x2 then
    some (.blt (bits f 17 12) (bits f 12 5) (bits f 7 5))
  else if f 29 3 = 0x3 then
    some (.bge (bits f 17 12) (bits f 12 5) (bits f 7 5))
  else if f 29 3 = 0x4 then
    some (.bltn (bits f 17 12) (bits f 12 5) (bits f 7 5))
  else if f 29 3 = 0x5 then
    some (.bgen (bits f 17 12) (bits f 12 5) (bits f 7 5))
  else none

/-- Major 0x19 (R250). -/
def decodeW19 (f : Fields) : Option Instr :=
  some (.jal (bits f 12 20) (bits f 7 5))

/-- Major 0x1A (R250). -/
def decodeW1A (f : Fields) : Option Instr :=
  if f 29 3 = 0x0 then
    some (.jalr (bits f 17 12) (bits f 12 5) (bits f 7 5))
  else none

/-- Major 0x1C (R200, R265). -/
def decodeW1C (f : Fields) : Option Instr :=
  if f 20 12 = 0x0 ∧ f 7 10 = 0x0 then
    some (.fence (bits f 17 3))
  else if f 20 12 = 0x200 ∧ f 7 10 = 0x0 then
    some (.acq (bits f 17 3))
  else if f 20 12 = 0x400 ∧ f 7 10 = 0x0 then
    some (.rel (bits f 17 3))
  else if f 20 12 = 0x600 ∧ f 7 10 = 0x0 then
    some (.phase (bits f 17 3))
  else if f 20 12 = 0x800 ∧ f 17 3 = 0x0 ∧ f 7 10 = 0x0 then
    some (.vfence)
  else none

/-- Major 0x1D (R268, R269, R270). -/
def decodeW1D (f : Fields) : Option Instr :=
  if f 22 10 = 0x0 ∧ f 12 5 = 0x0 then
    some (.barw (bits f 17 5) (bits f 7 5))
  else if f 22 10 = 0x1 ∧ f 17 5 = 0x0 then
    some (.park (bits f 12 5) (bits f 7 5))
  else if f 22 10 = 0x2 ∧ f 17 5 = 0x0 ∧ f 7 5 = 0x0 then
    some (.waitt (bits f 12 5))
  else none

/-- Major 0x1E (R414, R415, R416, R417, R418, R420). -/
noncomputable def decodeW1E (f : Fields) : Option Instr :=
  if f 29 3 = 0x0 ∧ f 12 5 = 0x0 then
    some (.mfs (bits f 17 12) (bits f 7 5))
  else if f 29 3 = 0x1 ∧ f 7 5 = 0x0 then
    some (.mts (bits f 17 12) (bits f 12 5))
  else if f 29 3 = 0x2 ∧ f 12 5 = 0x0 ∧ f 7 5 = 0x0 then
    some (.trap (bits f 17 12))
  else if f 22 7 = 0x0 ∧ f 29 3 = 0x3 ∧ f 17 5 = 0x0 ∧ f 12 5 = 0x0 ∧ f 7 5 = 0x0 then
    some (.xret)
  else if f 22 7 = 0x1 ∧ f 29 3 = 0x3 ∧ f 17 5 = 0x0 then
    some (.savev (bits f 12 5) (bits f 7 5))
  else if f 22 7 = 0x2 ∧ f 29 3 = 0x3 ∧ f 17 5 = 0x0 then
    some (.rstv (bits f 12 5) (bits f 7 5))
  else if f 22 7 = 0x3 ∧ f 29 3 = 0x3 then
    some (.migrate (bits f 17 5) (bits f 12 5) (bits f 7 5))
  else if f 22 7 = 0x4 ∧ f 29 3 = 0x3 ∧ f 7 5 = 0x0 then
    some (.fwdclr (bits f 17 5) (bits f 12 5))
  else none

/-- Major 0x1F (R389, R390, R391, R392, R393, R394, R395). -/
noncomputable def decodeW1F (f : Fields) : Option Instr :=
  if f 24 8 = 0x0 ∧ f 22 2 = 0x0 then
    some (.spawn (bits f 17 5) (bits f 12 5) (bits f 7 5))
  else if f 24 8 = 0x0 ∧ f 22 2 = 0x1 ∧ f 17 5 = 0x0 ∧ f 7 5 = 0x0 then
    some (.suspend (bits f 12 5))
  else if f 24 8 = 0x0 ∧ f 22 2 = 0x2 ∧ f 17 5 = 0x0 ∧ f 12 5 = 0x0 then
    some (.emit (bits f 7 5))
  else if f 24 8 = 0x0 ∧ f 22 2 = 0x3 ∧ f 17 5 = 0x0 ∧ f 12 5 = 0x0 ∧ f 7 5 = 0x0 then
    some (.endI)
  else if f 24 8 = 0x1 ∧ f 22 2 = 0x0 ∧ f 17 5 = 0x0 ∧ f 12 5 = 0x0 ∧ f 7 5 = 0x0 then
    some (.hend)
  else if f 24 8 = 0x1 ∧ f 22 2 = 0x1 then
    some (.larm (bits f 17 5) (bits f 12 5) (bits f 7 5))
  else if f 24 8 = 0x2 ∧ f 7 5 = 0x0 then
    some (.send (bits f 22 2) (bits f 17 5) (bits f 12 5))
  else none

/-- Major 0x20 (R291). -/
noncomputable def decodeW20 (f : Fields) : Option Instr :=
  if f 22 5 = 0x0 then
    some (.vaddVv (bits f 30 2) (bits f 29 1) (bits f 28 1) (bits f 27 1) (bits f 17 5) (bits f 12 5) (bits f 7 5))
  else if f 22 5 = 0x1 then
    some (.vaddVx (bits f 30 2) (bits f 29 1) (bits f 28 1) (bits f 27 1) (bits f 17 5) (bits f 12 5) (bits f 7 5))
  else if f 22 5 = 0x2 then
    some (.vsubVv (bits f 30 2) (bits f 29 1) (bits f 28 1) (bits f 27 1) (bits f 17 5) (bits f 12 5) (bits f 7 5))
  else if f 22 5 = 0x3 then
    some (.vsubVx (bits f 30 2) (bits f 29 1) (bits f 28 1) (bits f 27 1) (bits f 17 5) (bits f 12 5) (bits f 7 5))
  else if f 22 5 = 0x4 then
    some (.vrsubVx (bits f 30 2) (bits f 29 1) (bits f 28 1) (bits f 27 1) (bits f 17 5) (bits f 12 5) (bits f 7 5))
  else if f 22 5 = 0x5 then
    some (.vmulVv (bits f 30 2) (bits f 29 1) (bits f 28 1) (bits f 27 1) (bits f 17 5) (bits f 12 5) (bits f 7 5))
  else if f 22 5 = 0x6 then
    some (.vmulVx (bits f 30 2) (bits f 29 1) (bits f 28 1) (bits f 27 1) (bits f 17 5) (bits f 12 5) (bits f 7 5))
  else if f 22 5 = 0x7 then
    some (.vmulhVv (bits f 30 2) (bits f 29 1) (bits f 28 1) (bits f 27 1) (bits f 17 5) (bits f 12 5) (bits f 7 5))
  else if f 22 5 = 0x8 then
    some (.vmulhVx (bits f 30 2) (bits f 29 1) (bits f 28 1) (bits f 27 1) (bits f 17 5) (bits f 12 5) (bits f 7 5))
  else if f 22 5 = 0x9 then
    some (.vdivVv (bits f 30 2) (bits f 29 1) (bits f 28 1) (bits f 27 1) (bits f 17 5) (bits f 12 5) (bits f 7 5))
  else if f 22 5 = 0xa then
    some (.vdivVx (bits f 30 2) (bits f 29 1) (bits f 28 1) (bits f 27 1) (bits f 17 5) (bits f 12 5) (bits f 7 5))
  else if f 22 5 = 0xb then
    some (.vremVv (bits f 30 2) (bits f 29 1) (bits f 28 1) (bits f 27 1) (bits f 17 5) (bits f 12 5) (bits f 7 5))
  else if f 22 5 = 0xc then
    some (.vremVx (bits f 30 2) (bits f 29 1) (bits f 28 1) (bits f 27 1) (bits f 17 5) (bits f 12 5) (bits f 7 5))
  else if f 22 5 = 0xd then
    some (.vminVv (bits f 30 2) (bits f 29 1) (bits f 28 1) (bits f 27 1) (bits f 17 5) (bits f 12 5) (bits f 7 5))
  else if f 22 5 = 0xe then
    some (.vminVx (bits f 30 2) (bits f 29 1) (bits f 28 1) (bits f 27 1) (bits f 17 5) (bits f 12 5) (bits f 7 5))
  else if f 22 5 = 0xf then
    some (.vmaxVv (bits f 30 2) (bits f 29 1) (bits f 28 1) (bits f 27 1) (bits f 17 5) (bits f 12 5) (bits f 7 5))
  else if f 22 5 = 0x10 then
    some (.vmaxVx (bits f 30 2) (bits f 29 1) (bits f 28 1) (bits f 27 1) (bits f 17 5) (bits f 12 5) (bits f 7 5))
  else if f 22 5 = 0x11 then
    some (.vsaddVv (bits f 30 2) (bits f 29 1) (bits f 28 1) (bits f 27 1) (bits f 17 5) (bits f 12 5) (bits f 7 5))
  else if f 22 5 = 0x12 then
    some (.vsaddVx (bits f 30 2) (bits f 29 1) (bits f 28 1) (bits f 27 1) (bits f 17 5) (bits f 12 5) (bits f 7 5))
  else if f 22 5 = 0x13 then
    some (.vssubVv (bits f 30 2) (bits f 29 1) (bits f 28 1) (bits f 27 1) (bits f 17 5) (bits f 12 5) (bits f 7 5))
  else if f 22 5 = 0x14 then
    some (.vssubVx (bits f 30 2) (bits f 29 1) (bits f 28 1) (bits f 27 1) (bits f 17 5) (bits f 12 5) (bits f 7 5))
  else if f 22 5 = 0x15 ∧ f 30 2 = 0x0 ∧ f 29 1 = 0x0 ∧ f 17 5 = 0x0 ∧ f 12 5 = 0x0 then
    some (.vidV (bits f 28 1) (bits f 27 1) (bits f 7 5))
  else if f 22 5 = 0x16 ∧ f 12 5 = 0x0 then
    some (.vpopcV (bits f 30 2) (bits f 29 1) (bits f 28 1) (bits f 27 1) (bits f 17 5) (bits f 7 5))
  else if f 22 5 = 0x17 ∧ f 12 5 = 0x0 then
    some (.vviewV (bits f 30 2) (bits f 29 1) (bits f 28 1) (bits f 27 1) (bits f 17 5) (bits f 7 5))
  else none

/-- Major 0x21 (R293). -/
noncomputable def decodeW21 (f : Fields) : Option Instr :=
  if f 22 5 = 0x0 then
    some (.vandVv (bits f 30 2) (bits f 29 1) (bits f 28 1) (bits f 27 1) (bits f 17 5) (bits f 12 5) (bits f 7 5))
  else if f 22 5 = 0x1 then
    some (.vandVx (bits f 30 2) (bits f 29 1) (bits f 28 1) (bits f 27 1) (bits f 17 5) (bits f 12 5) (bits f 7 5))
  else if f 22 5 = 0x2 then
    some (.vorVv (bits f 30 2) (bits f 29 1) (bits f 28 1) (bits f 27 1) (bits f 17 5) (bits f 12 5) (bits f 7 5))
  else if f 22 5 = 0x3 then
    some (.vorVx (bits f 30 2) (bits f 29 1) (bits f 28 1) (bits f 27 1) (bits f 17 5) (bits f 12 5) (bits f 7 5))
  else if f 22 5 = 0x4 then
    some (.vxorVv (bits f 30 2) (bits f 29 1) (bits f 28 1) (bits f 27 1) (bits f 17 5) (bits f 12 5) (bits f 7 5))
  else if f 22 5 = 0x5 then
    some (.vxorVx (bits f 30 2) (bits f 29 1) (bits f 28 1) (bits f 27 1) (bits f 17 5) (bits f 12 5) (bits f 7 5))
  else if f 22 5 = 0x6 then
    some (.vandnVv (bits f 30 2) (bits f 29 1) (bits f 28 1) (bits f 27 1) (bits f 17 5) (bits f 12 5) (bits f 7 5))
  else if f 22 5 = 0x7 ∧ f 12 5 = 0x0 then
    some (.vnotV (bits f 30 2) (bits f 29 1) (bits f 28 1) (bits f 27 1) (bits f 17 5) (bits f 7 5))
  else if f 22 5 = 0x8 then
    some (.vshlVv (bits f 30 2) (bits f 29 1) (bits f 28 1) (bits f 27 1) (bits f 17 5) (bits f 12 5) (bits f 7 5))
  else if f 22 5 = 0x9 then
    some (.vshlVx (bits f 30 2) (bits f 29 1) (bits f 28 1) (bits f 27 1) (bits f 17 5) (bits f 12 5) (bits f 7 5))
  else if f 22 5 = 0xa then
    some (.vshrVv (bits f 30 2) (bits f 29 1) (bits f 28 1) (bits f 27 1) (bits f 17 5) (bits f 12 5) (bits f 7 5))
  else if f 22 5 = 0xb then
    some (.vshrVx (bits f 30 2) (bits f 29 1) (bits f 28 1) (bits f 27 1) (bits f 17 5) (bits f 12 5) (bits f 7 5))
  else if f 22 5 = 0xc then
    some (.vsraVv (bits f 30 2) (bits f 29 1) (bits f 28 1) (bits f 27 1) (bits f 17 5) (bits f 12 5) (bits f 7 5))
  else if f 22 5 = 0xd then
    some (.vsraVx (bits f 30 2) (bits f 29 1) (bits f 28 1) (bits f 27 1) (bits f 17 5) (bits f 12 5) (bits f 7 5))
  else none

/-- Major 0x22 (R294). -/
noncomputable def decodeW22 (f : Fields) : Option Instr :=
  if f 22 5 = 0x0 then
    some (.vmseqVv (bits f 30 2) (bits f 29 1) (bits f 28 1) (bits f 27 1) (bits f 17 5) (bits f 12 5) (bits f 7 5))
  else if f 22 5 = 0x1 then
    some (.vmseqVx (bits f 30 2) (bits f 29 1) (bits f 28 1) (bits f 27 1) (bits f 17 5) (bits f 12 5) (bits f 7 5))
  else if f 22 5 = 0x2 then
    some (.vmsneVv (bits f 30 2) (bits f 29 1) (bits f 28 1) (bits f 27 1) (bits f 17 5) (bits f 12 5) (bits f 7 5))
  else if f 22 5 = 0x3 then
    some (.vmsneVx (bits f 30 2) (bits f 29 1) (bits f 28 1) (bits f 27 1) (bits f 17 5) (bits f 12 5) (bits f 7 5))
  else if f 22 5 = 0x4 then
    some (.vmsltVv (bits f 30 2) (bits f 29 1) (bits f 28 1) (bits f 27 1) (bits f 17 5) (bits f 12 5) (bits f 7 5))
  else if f 22 5 = 0x5 then
    some (.vmsltVx (bits f 30 2) (bits f 29 1) (bits f 28 1) (bits f 27 1) (bits f 17 5) (bits f 12 5) (bits f 7 5))
  else if f 22 5 = 0x6 then
    some (.vmsleVv (bits f 30 2) (bits f 29 1) (bits f 28 1) (bits f 27 1) (bits f 17 5) (bits f 12 5) (bits f 7 5))
  else if f 22 5 = 0x7 then
    some (.vmsleVx (bits f 30 2) (bits f 29 1) (bits f 28 1) (bits f 27 1) (bits f 17 5) (bits f 12 5) (bits f 7 5))
  else if f 22 5 = 0x8 then
    some (.vmsgtVx (bits f 30 2) (bits f 29 1) (bits f 28 1) (bits f 27 1) (bits f 17 5) (bits f 12 5) (bits f 7 5))
  else if f 22 5 = 0x9 then
    some (.vmsgeVx (bits f 30 2) (bits f 29 1) (bits f 28 1) (bits f 27 1) (bits f 17 5) (bits f 12 5) (bits f 7 5))
  else if f 22 5 = 0xa ∧ f 30 2 = 0x0 ∧ f 29 1 = 0x0 then
    some (.vmandMm (bits f 28 1) (bits f 27 1) (bits f 17 5) (bits f 12 5) (bits f 7 5))
  else if f 22 5 = 0xb ∧ f 30 2 = 0x0 ∧ f 29 1 = 0x0 then
    some (.vmorMm (bits f 28 1) (bits f 27 1) (bits f 17 5) (bits f 12 5) (bits f 7 5))
  else if f 22 5 = 0xc ∧ f 30 2 = 0x0 ∧ f 29 1 = 0x0 then
    some (.vmxorMm (bits f 28 1) (bits f 27 1) (bits f 17 5) (bits f 12 5) (bits f 7 5))
  else if f 22 5 = 0xd ∧ f 30 2 = 0x0 ∧ f 29 1 = 0x0 then
    some (.vmandnMm (bits f 28 1) (bits f 27 1) (bits f 17 5) (bits f 12 5) (bits f 7 5))
  else none

/-- Major 0x23 (R295, R296). -/
noncomputable def decodeW23 (f : Fields) : Option Instr :=
  if f 22 5 = 0x0 ∧ f 30 2 = 0x0 ∧ f 29 1 = 0x0 ∧ f 27 1 = 0x0 then
    some (.vmergeVv (bits f 28 1) (bits f 17 5) (bits f 12 5) (bits f 7 5))
  else if f 22 5 = 0x1 ∧ f 30 2 = 0x0 ∧ f 29 1 = 0x0 ∧ f 27 1 = 0x0 then
    some (.vmergeVx (bits f 28 1) (bits f 17 5) (bits f 12 5) (bits f 7 5))
  else if f 22 5 = 0x2 ∧ f 12 5 = 0x0 then
    some (.vmvVv (bits f 30 2) (bits f 29 1) (bits f 28 1) (bits f 27 1) (bits f 17 5) (bits f 7 5))
  else if f 22 5 = 0x3 ∧ f 30 2 = 0x0 ∧ f 29 1 = 0x0 ∧ f 17 5 = 0x0 then
    some (.vmvVx (bits f 28 1) (bits f 27 1) (bits f 12 5) (bits f 7 5))
  else if f 22 5 = 0x4 ∧ f 30 2 = 0x0 ∧ f 29 1 = 0x0 ∧ f 28 1 = 0x0 ∧ f 27 1 = 0x0 ∧ f 12 5 = 0x0 then
    some (.vmvXs (bits f 17 5) (bits f 7 5))
  else none

/-- Major 0x24 (R298). -/
noncomputable def decodeW24 (f : Fields) : Option Instr :=
  if f 22 5 = 0x0 then
    some (.vfaddVv (bits f 30 2) (bits f 29 1) (bits f 28 1) (bits f 27 1) (bits f 17 5) (bits f 12 5) (bits f 7 5))
  else if f 22 5 = 0x1 then
    some (.vfaddVx (bits f 30 2) (bits f 29 1) (bits f 28 1) (bits f 27 1) (bits f 17 5) (bits f 12 5) (bits f 7 5))
  else if f 22 5 = 0x2 then
    some (.vfsubVv (bits f 30 2) (bits f 29 1) (bits f 28 1) (bits f 27 1) (bits f 17 5) (bits f 12 5) (bits f 7 5))
  else if f 22 5 = 0x3 then
    some (.vfsubVx (bits f 30 2) (bits f 29 1) (bits f 28 1) (bits f 27 1) (bits f 17 5) (bits f 12 5) (bits f 7 5))
  else if f 22 5 = 0x4 then
    some (.vfrsubVx (bits f 30 2) (bits f 29 1) (bits f 28 1) (bits f 27 1) (bits f 17 5) (bits f 12 5) (bits f 7 5))
  else if f 22 5 = 0x5 then
    some (.vfmulVv (bits f 30 2) (bits f 29 1) (bits f 28 1) (bits f 27 1) (bits f 17 5) (bits f 12 5) (bits f 7 5))
  else if f 22 5 = 0x6 then
    some (.vfmulVx (bits f 30 2) (bits f 29 1) (bits f 28 1) (bits f 27 1) (bits f 17 5) (bits f 12 5) (bits f 7 5))
  else if f 22 5 = 0x7 then
    some (.vfdivVv (bits f 30 2) (bits f 29 1) (bits f 28 1) (bits f 27 1) (bits f 17 5) (bits f 12 5) (bits f 7 5))
  else if f 22 5 = 0x8 then
    some (.vfdivVx (bits f 30 2) (bits f 29 1) (bits f 28 1) (bits f 27 1) (bits f 17 5) (bits f 12 5) (bits f 7 5))
  else if f 22 5 = 0x9 then
    some (.vfrdivVx (bits f 30 2) (bits f 29 1) (bits f 28 1) (bits f 27 1) (bits f 17 5) (bits f 12 5) (bits f 7 5))
  else if f 22 5 = 0xa ∧ f 12 5 = 0x0 then
    some (.vfsqrtV (bits f 30 2) (bits f 29 1) (bits f 28 1) (bits f 27 1) (bits f 17 5) (bits f 7 5))
  else if f 22 5 = 0xb then
    some (.vfminVv (bits f 30 2) (bits f 29 1) (bits f 28 1) (bits f 27 1) (bits f 17 5) (bits f 12 5) (bits f 7 5))
  else if f 22 5 = 0xc then
    some (.vfminVx (bits f 30 2) (bits f 29 1) (bits f 28 1) (bits f 27 1) (bits f 17 5) (bits f 12 5) (bits f 7 5))
  else if f 22 5 = 0xd then
    some (.vfmaxVv (bits f 30 2) (bits f 29 1) (bits f 28 1) (bits f 27 1) (bits f 17 5) (bits f 12 5) (bits f 7 5))
  else if f 22 5 = 0xe then
    some (.vfmaxVx (bits f 30 2) (bits f 29 1) (bits f 28 1) (bits f 27 1) (bits f 17 5) (bits f 12 5) (bits f 7 5))
  else if f 22 5 = 0xf then
    some (.vfsgnVv (bits f 30 2) (bits f 29 1) (bits f 28 1) (bits f 27 1) (bits f 17 5) (bits f 12 5) (bits f 7 5))
  else if f 22 5 = 0x10 then
    some (.vfsgnnVv (bits f 30 2) (bits f 29 1) (bits f 28 1) (bits f 27 1) (bits f 17 5) (bits f 12 5) (bits f 7 5))
  else if f 22 5 = 0x11 then
    some (.vfsgnxVv (bits f 30 2) (bits f 29 1) (bits f 28 1) (bits f 27 1) (bits f 17 5) (bits f 12 5) (bits f 7 5))
  else if f 22 5 = 0x12 ∧ f 12 5 = 0x0 then
    some (.vfclassV (bits f 30 2) (bits f 29 1) (bits f 28 1) (bits f 27 1) (bits f 17 5) (bits f 7 5))
  else none

/-- Major 0x25 (R299). -/
noncomputable def decodeW25 (f : Fields) : Option Instr :=
  if f 22 5 = 0x0 then
    some (.vmfeqVv (bits f 30 2) (bits f 29 1) (bits f 28 1) (bits f 27 1) (bits f 17 5) (bits f 12 5) (bits f 7 5))
  else if f 22 5 = 0x1 then
    some (.vmfeqVx (bits f 30 2) (bits f 29 1) (bits f 28 1) (bits f 27 1) (bits f 17 5) (bits f 12 5) (bits f 7 5))
  else if f 22 5 = 0x2 then
    some (.vmfneVv (bits f 30 2) (bits f 29 1) (bits f 28 1) (bits f 27 1) (bits f 17 5) (bits f 12 5) (bits f 7 5))
  else if f 22 5 = 0x3 then
    some (.vmfneVx (bits f 30 2) (bits f 29 1) (bits f 28 1) (bits f 27 1) (bits f 17 5) (bits f 12 5) (bits f 7 5))
  else if f 22 5 = 0x4 then
    some (.vmfltVv (bits f 30 2) (bits f 29 1) (bits f 28 1) (bits f 27 1) (bits f 17 5) (bits f 12 5) (bits f 7 5))
  else if f 22 5 = 0x5 then
    some (.vmfltVx (bits f 30 2) (bits f 29 1) (bits f 28 1) (bits f 27 1) (bits f 17 5) (bits f 12 5) (bits f 7 5))
  else if f 22 5 = 0x6 then
    some (.vmfleVv (bits f 30 2) (bits f 29 1) (bits f 28 1) (bits f 27 1) (bits f 17 5) (bits f 12 5) (bits f 7 5))
  else if f 22 5 = 0x7 then
    some (.vmfleVx (bits f 30 2) (bits f 29 1) (bits f 28 1) (bits f 27 1) (bits f 17 5) (bits f 12 5) (bits f 7 5))
  else if f 22 5 = 0x8 then
    some (.vmfgtVx (bits f 30 2) (bits f 29 1) (bits f 28 1) (bits f 27 1) (bits f 17 5) (bits f 12 5) (bits f 7 5))
  else if f 22 5 = 0x9 then
    some (.vmfgeVx (bits f 30 2) (bits f 29 1) (bits f 28 1) (bits f 27 1) (bits f 17 5) (bits f 12 5) (bits f 7 5))
  else none

/-- Major 0x26 (R300, R301). -/
noncomputable def decodeW26 (f : Fields) : Option Instr :=
  if f 22 5 = 0x0 ∧ f 12 5 = 0x0 then
    some (.vwcvtV (bits f 30 2) (bits f 29 1) (bits f 28 1) (bits f 27 1) (bits f 17 5) (bits f 7 5))
  else if f 22 5 = 0x1 ∧ f 12 5 = 0x0 then
    some (.vncvtV (bits f 30 2) (bits f 29 1) (bits f 28 1) (bits f 27 1) (bits f 17 5) (bits f 7 5))
  else if f 22 5 = 0x2 ∧ f 12 5 = 0x0 then
    some (.vnclipV (bits f 30 2) (bits f 29 1) (bits f 28 1) (bits f 27 1) (bits f 17 5) (bits f 7 5))
  else if f 22 5 = 0x3 ∧ f 12 5 = 0x0 then
    some (.vfwcvtV (bits f 30 2) (bits f 29 1) (bits f 28 1) (bits f 27 1) (bits f 17 5) (bits f 7 5))
  else if f 22 5 = 0x4 ∧ f 12 5 = 0x0 then
    some (.vfncvtV (bits f 30 2) (bits f 29 1) (bits f 28 1) (bits f 27 1) (bits f 17 5) (bits f 7 5))
  else if f 22 5 = 0x5 ∧ f 12 5 = 0x0 then
    some (.vftoiV (bits f 30 2) (bits f 29 1) (bits f 28 1) (bits f 27 1) (bits f 17 5) (bits f 7 5))
  else if f 22 5 = 0x6 ∧ f 12 5 = 0x0 then
    some (.vftoinV (bits f 30 2) (bits f 29 1) (bits f 28 1) (bits f 27 1) (bits f 17 5) (bits f 7 5))
  else if f 22 5 = 0x7 ∧ f 12 5 = 0x0 then
    some (.vitofV (bits f 30 2) (bits f 29 1) (bits f 28 1) (bits f 27 1) (bits f 17 5) (bits f 7 5))
  else if f 22 5 = 0x8 ∧ f 12 5 = 0x0 then
    some (.vintofV (bits f 30 2) (bits f 29 1) (bits f 28 1) (bits f 27 1) (bits f 17 5) (bits f 7 5))
  else if f 22 5 = 0x9 ∧ f 12 5 = 0x0 then
    some (.vfcvtF4 (bits f 30 2) (bits f 29 1) (bits f 28 1) (bits f 27 1) (bits f 17 5) (bits f 7 5))
  else none

/-- Major 0x27 (R302). -/
noncomputable def decodeW27 (f : Fields) : Option Instr :=
  if f 29 3 = 0x0 ∧ f 17 10 = 0x0 ∧ f 12 5 = 0x0 then
    some (.vrngV (bits f 28 1) (bits f 27 1) (bits f 7 5))
  else if f 29 3 = 0x0 ∧ f 17 10 = 0x20 ∧ f 7 5 = 0x0 then
    some (.vseedVx (bits f 28 1) (bits f 27 1) (bits f 12 5))
  else none

/-- Major 0x28 (R320, R327, R328). -/
noncomputable def decodeW28 (f : Fields) : Option Instr :=
  if f 22 5 = 0x0 ∧ f 30 2 = 0x0 ∧ f 29 1 = 0x0 ∧ f 17 5 = 0x0 then
    some (.vld (bits f 28 1) (bits f 27 1) (bits f 12 5) (bits f 7 5))
  else if f 22 5 = 0x1 ∧ f 30 2 = 0x0 ∧ f 29 1 = 0x0 ∧ f 17 5 = 0x0 then
    some (.vst (bits f 28 1) (bits f 27 1) (bits f 12 5) (bits f 7 5))
  else if f 22 5 = 0x2 ∧ f 30 2 = 0x0 ∧ f 29 1 = 0x0 then
    some (.vlds (bits f 28 1) (bits f 27 1) (bits f 17 5) (bits f 12 5) (bits f 7 5))
  else if f 22 5 = 0x3 ∧ f 30 2 = 0x0 ∧ f 29 1 = 0x0 then
    some (.vsts (bits f 28 1) (bits f 27 1) (bits f 17 5) (bits f 12 5) (bits f 7 5))
  else if f 22 5 = 0x4 ∧ f 29 1 = 0x0 then
    some (.vldx (bits f 30 2) (bits f 28 1) (bits f 27 1) (bits f 17 5) (bits f 12 5) (bits f 7 5))
  else if f 22 5 = 0x5 ∧ f 29 1 = 0x0 then
    some (.vstx (bits f 30 2) (bits f 28 1) (bits f 27 1) (bits f 17 5) (bits f 12 5) (bits f 7 5))
  else if f 22 5 = 0x6 ∧ f 30 2 = 0x0 then
    some (.vldsp (bits f 29 1) (bits f 28 1) (bits f 27 1) (bits f 17 5) (bits f 12 5) (bits f 7 5))
  else if f 22 5 = 0x7 ∧ f 30 2 = 0x0 then
    some (.vstsp (bits f 29 1) (bits f 28 1) (bits f 27 1) (bits f 17 5) (bits f 12 5) (bits f 7 5))
  else none

/-- Major 0x29 (R308, R309, R310, R311). -/
noncomputable def decodeW29 (f : Fields) : Option Instr :=
  if f 22 5 = 0x0 ∧ f 29 3 = 0x0 then
    some (.vredsumXs (bits f 28 1) (bits f 27 1) (bits f 17 5) (bits f 12 5) (bits f 7 5))
  else if f 22 5 = 0x1 ∧ f 29 3 = 0x0 then
    some (.vredminXs (bits f 28 1) (bits f 27 1) (bits f 17 5) (bits f 12 5) (bits f 7 5))
  else if f 22 5 = 0x2 ∧ f 29 3 = 0x0 then
    some (.vredmaxXs (bits f 28 1) (bits f 27 1) (bits f 17 5) (bits f 12 5) (bits f 7 5))
  else if f 22 5 = 0x3 ∧ f 29 3 = 0x0 then
    some (.vredandXs (bits f 28 1) (bits f 27 1) (bits f 17 5) (bits f 12 5) (bits f 7 5))
  else if f 22 5 = 0x4 ∧ f 29 3 = 0x0 then
    some (.vredorXs (bits f 28 1) (bits f 27 1) (bits f 17 5) (bits f 12 5) (bits f 7 5))
  else if f 22 5 = 0x5 ∧ f 29 3 = 0x0 then
    some (.vredxorXs (bits f 28 1) (bits f 27 1) (bits f 17 5) (bits f 12 5) (bits f 7 5))
  else if f 22 5 = 0x6 ∧ f 29 3 = 0x0 then
    some (.vfredsumXs (bits f 28 1) (bits f 27 1) (bits f 17 5) (bits f 12 5) (bits f 7 5))
  else if f 22 5 = 0x7 ∧ f 29 3 = 0x0 then
    some (.vfredminXs (bits f 28 1) (bits f 27 1) (bits f 17 5) (bits f 12 5) (bits f 7 5))
  else if f 22 5 = 0x8 ∧ f 29 3 = 0x0 then
    some (.vfredmaxXs (bits f 28 1) (bits f 27 1) (bits f 17 5) (bits f 12 5) (bits f 7 5))
  else if f 22 5 = 0x9 ∧ f 29 3 = 0x0 then
    some (.vredminiXs (bits f 28 1) (bits f 27 1) (bits f 17 5) (bits f 12 5) (bits f 7 5))
  else if f 22 5 = 0xa ∧ f 29 3 = 0x0 then
    some (.vredmaxiXs (bits f 28 1) (bits f 27 1) (bits f 17 5) (bits f 12 5) (bits f 7 5))
  else if f 22 5 = 0xb ∧ f 29 3 = 0x0 ∧ f 13 4 = 0x0 then
    some (.vtree (bits f 28 1) (bits f 27 1) (bits f 17 5) (bits f 12 1) (bits f 7 5))
  else if f 22 5 = 0xb ∧ f 29 3 = 0x0 ∧ f 13 4 = 0x1 then
    some (.vftree (bits f 28 1) (bits f 27 1) (bits f 17 5) (bits f 12 1) (bits f 7 5))
  else if f 22 5 = 0xc ∧ f 13 4 = 0x0 then
    some (.vtreeseg (bits f 29 3) (bits f 28 1) (bits f 27 1) (bits f 17 5) (bits f 12 1) (bits f 7 5))
  else if f 22 5 = 0xc ∧ f 13 4 = 0x1 then
    some (.vftreeseg (bits f 29 3) (bits f 28 1) (bits f 27 1) (bits f 17 5) (bits f 12 1) (bits f 7 5))
  else if f 22 5 = 0xd ∧ f 13 4 = 0x0 ∧ f 12 1 = 0x0 then
    some (.vsegsumV (bits f 29 3) (bits f 28 1) (bits f 27 1) (bits f 17 5) (bits f 7 5))
  else if f 22 5 = 0xe ∧ f 13 4 = 0x0 ∧ f 12 1 = 0x0 then
    some (.vsegminV (bits f 29 3) (bits f 28 1) (bits f 27 1) (bits f 17 5) (bits f 7 5))
  else if f 22 5 = 0xf ∧ f 13 4 = 0x0 ∧ f 12 1 = 0x0 then
    some (.vsegmaxV (bits f 29 3) (bits f 28 1) (bits f 27 1) (bits f 17 5) (bits f 7 5))
  else if f 22 5 = 0x10 ∧ f 13 4 = 0x0 ∧ f 12 1 = 0x0 then
    some (.vfsegsumV (bits f 29 3) (bits f 28 1) (bits f 27 1) (bits f 17 5) (bits f 7 5))
  else if f 22 5 = 0x11 ∧ f 13 4 = 0x0 ∧ f 12 1 = 0x0 then
    some (.vfsegminV (bits f 29 3) (bits f 28 1) (bits f 27 1) (bits f 17 5) (bits f 7 5))
  else if f 22 5 = 0x12 ∧ f 13 4 = 0x0 ∧ f 12 1 = 0x0 then
    some (.vfsegmaxV (bits f 29 3) (bits f 28 1) (bits f 27 1) (bits f 17 5) (bits f 7 5))
  else none

/-- Major 0x2A (R313, R315, R316, R317). -/
noncomputable def decodeW2A (f : Fields) : Option Instr :=
  if f 22 5 = 0x0 ∧ f 30 2 = 0x0 ∧ f 29 1 = 0x0 then
    some (.vslideupVx (bits f 28 1) (bits f 27 1) (bits f 17 5) (bits f 12 5) (bits f 7 5))
  else if f 22 5 = 0x1 ∧ f 30 2 = 0x0 ∧ f 29 1 = 0x0 then
    some (.vslidedownVx (bits f 28 1) (bits f 27 1) (bits f 17 5) (bits f 12 5) (bits f 7 5))
  else if f 22 5 = 0x2 ∧ f 30 2 = 0x0 ∧ f 29 1 = 0x0 then
    some (.vslide1upVx (bits f 28 1) (bits f 27 1) (bits f 17 5) (bits f 12 5) (bits f 7 5))
  else if f 22 5 = 0x3 ∧ f 30 2 = 0x0 ∧ f 29 1 = 0x0 then
    some (.vslide1downVx (bits f 28 1) (bits f 27 1) (bits f 17 5) (bits f 12 5) (bits f 7 5))
  else if f 22 5 = 0x4 ∧ f 29 1 = 0x0 then
    some (.vgatherVv (bits f 30 2) (bits f 28 1) (bits f 27 1) (bits f 17 5) (bits f 12 5) (bits f 7 5))
  else if f 22 5 = 0x5 ∧ f 30 2 = 0x0 ∧ f 29 1 = 0x0 ∧ f 27 1 = 0x0 then
    some (.vcompressVv (bits f 28 1) (bits f 17 5) (bits f 12 5) (bits f 7 5))
  else if f 22 5 = 0x6 ∧ f 30 2 = 0x0 ∧ f 29 1 = 0x0 ∧ f 27 1 = 0x0 then
    some (.vexpandVv (bits f 28 1) (bits f 17 5) (bits f 12 5) (bits f 7 5))
  else if f 22 5 = 0x7 ∧ f 30 2 = 0x0 ∧ f 29 1 = 0x0 then
    some (.vbcastVx (bits f 28 1) (bits f 27 1) (bits f 17 5) (bits f 12 5) (bits f 7 5))
  else if f 22 5 = 0x8 ∧ f 30 2 = 0x0 ∧ f 29 1 = 0x0 then
    some (.vmrotVx (bits f 28 1) (bits f 27 1) (bits f 17 5) (bits f 12 5) (bits f 7 5))
  else none

/-- Major 0x2B (R280). -/
noncomputable def decodeW2B (f : Fields) : Option Instr :=
  if f 29 3 = 0x0 ∧ f 22 7 = 0x0 then
    some (.vsetl (bits f 17 5) (bits f 12 5) (bits f 7 5))
  else if f 29 3 = 0x1 then
    some (.vsetli (bits f 17 12) (bits f 12 5) (bits f 7 5))
  else none

/-- Major 0x2C (R331: fn[9:6] names the instruction, fn[5] the cell type T, fn[4:0] the format; 5 to 15 are ILLEGAL_OP; that b is reserved without a
block-scaled format is WellFormed's check; R332 to R334, R336, R337). -/
noncomputable def decodeW2C (f : Fields) : Option Instr :=
  if f 28 4 = 0x0 ∧ f 27 1 = 0x0 ∧ f 22 5 = 0x0 ∧ f 17 5 = 0x0 then
    some (.mmode (bits f 12 5) (bits f 7 5))
  else if f 28 4 = 0x1 ∧ f 27 1 = 0x0 ∧ f 22 5 = 0x0 ∧ f 17 5 = 0x0 ∧ f 12 5 = 0x0 ∧ f 7 5 = 0x0 then
    some (.mzero)
  else if f 28 4 = 0x2 ∧ f 22 5 = 0x0 ∧ f 17 5 = 0x0 ∧ f 12 5 = 0x0 ∧ f 7 5 = 0x0 then
    some (.mtree (bits f 27 1))
  else if f 28 4 = 0x3 then
    some (.mrd (bits f 27 1) (bits f 22 5) (bits f 17 5) (bits f 12 5) (bits f 7 5))
  else if f 28 4 = 0x4 then
    some (.mwr (bits f 27 1) (bits f 22 5) (bits f 17 5) (bits f 12 5) (bits f 7 5))
  else none

/-- Major 0x2D (R341). -/
noncomputable def decodeW2D (f : Fields) : Option Instr :=
  if f 22 10 = 0x0 ∧ f 7 5 = 0x0 then
    some (.mopa (bits f 17 5) (bits f 12 5))
  else if f 22 10 = 0x1 then
    some (.mopaSc (bits f 17 5) (bits f 12 5) (bits f 7 5))
  else none

/-- Major 0x2E (R345, R346, R347). -/
noncomputable def decodeW2E (f : Fields) : Option Instr :=
  if f 22 10 = 0x0 then
    some (.gadd (bits f 17 5) (bits f 12 5) (bits f 7 5))
  else if f 22 10 = 0x1 then
    some (.gelim (bits f 17 5) (bits f 12 5) (bits f 7 5))
  else if f 22 10 = 0x2 then
    some (.gdamp (bits f 17 5) (bits f 12 5) (bits f 7 5))
  else none

/-- Major 0x30 (R351, R353). -/
noncomputable def decodeW30 (f : Fields) : Option Instr :=
  if f 31 1 = 0x0 ∧ f 25 3 = 0x0 then
    some (.copy (bits f 30 1) (bits f 29 1) (bits f 28 1) (bits f 22 3) (bits f 17 5) (bits f 12 5) (bits f 7 5))
  else if f 31 1 = 0x0 ∧ f 25 3 = 0x1 then
    some (.copy2d (bits f 30 1) (bits f 29 1) (bits f 28 1) (bits f 22 3) (bits f 17 5) (bits f 12 5) (bits f 7 5))
  else if f 31 1 = 0x0 ∧ f 25 3 = 0x2 then
    some (.copygath (bits f 30 1) (bits f 29 1) (bits f 28 1) (bits f 22 3) (bits f 17 5) (bits f 12 5) (bits f 7 5))
  else if f 31 1 = 0x0 ∧ f 25 3 = 0x3 then
    some (.copyscat (bits f 30 1) (bits f 29 1) (bits f 28 1) (bits f 22 3) (bits f 17 5) (bits f 12 5) (bits f 7 5))
  else if f 31 1 = 0x0 ∧ f 25 3 = 0x4 then
    some (.copyt (bits f 30 1) (bits f 29 1) (bits f 28 1) (bits f 22 3) (bits f 17 5) (bits f 12 5) (bits f 7 5))
  else none

/-- Major 0x31 (R356). -/
noncomputable def decodeW31 (f : Fields) : Option Instr :=
  if f 31 1 = 0x0 ∧ f 25 4 = 0x0 then
    some (.creduce (bits f 30 1) (bits f 29 1) (bits f 22 3) (bits f 17 5) (bits f 12 5) (bits f 7 5))
  else if f 31 1 = 0x0 ∧ f 25 4 = 0x1 then
    some (.cbcast (bits f 30 1) (bits f 29 1) (bits f 22 3) (bits f 17 5) (bits f 12 5) (bits f 7 5))
  else none

/-- Major 0x32 (R358, R359, R360, R361). -/
noncomputable def decodeW32 (f : Fields) : Option Instr :=
  if f 24 8 = 0x0 ∧ f 7 5 = 0x0 then
    some (.binit (bits f 22 2) (bits f 17 5) (bits f 12 5))
  else if f 22 2 = 0x0 ∧ f 24 8 = 0x1 ∧ f 17 5 = 0x0 ∧ f 7 5 = 0x0 then
    some (.barrive (bits f 12 5))
  else if f 22 2 = 0x0 ∧ f 24 8 = 0x2 then
    some (.bwait (bits f 17 5) (bits f 12 5) (bits f 7 5))
  else if f 22 2 = 0x0 ∧ f 24 8 = 0x3 then
    some (.bquery (bits f 17 5) (bits f 12 5) (bits f 7 5))
  else none

/-- Major 0x38 (R262). -/
noncomputable def decodeW38 (f : Fields) : Option Instr :=
  if f 23 9 = 0x0 then
    some (.fadd (bits f 22 1) (bits f 17 5) (bits f 12 5) (bits f 7 5))
  else if f 23 9 = 0x1 then
    some (.fsub (bits f 22 1) (bits f 17 5) (bits f 12 5) (bits f 7 5))
  else if f 23 9 = 0x2 then
    some (.fmul (bits f 22 1) (bits f 17 5) (bits f 12 5) (bits f 7 5))
  else if f 23 9 = 0x3 then
    some (.fdiv (bits f 22 1) (bits f 17 5) (bits f 12 5) (bits f 7 5))
  else if f 23 9 = 0x4 ∧ f 17 5 = 0x0 then
    some (.fsqrt (bits f 22 1) (bits f 12 5) (bits f 7 5))
  else if f 23 9 = 0x5 then
    some (.fmin (bits f 22 1) (bits f 17 5) (bits f 12 5) (bits f 7 5))
  else if f 23 9 = 0x6 then
    some (.fmax (bits f 22 1) (bits f 17 5) (bits f 12 5) (bits f 7 5))
  else none

/-- Major 0x39 (R263). -/
noncomputable def decodeW39 (f : Fields) : Option Instr :=
  if f 23 9 = 0x0 ∧ f 17 5 = 0x0 then
    some (.ftoi (bits f 22 1) (bits f 12 5) (bits f 7 5))
  else if f 23 9 = 0x1 ∧ f 17 5 = 0x0 then
    some (.ftoin (bits f 22 1) (bits f 12 5) (bits f 7 5))
  else if f 23 9 = 0x2 ∧ f 17 5 = 0x0 then
    some (.itof (bits f 22 1) (bits f 12 5) (bits f 7 5))
  else if f 23 9 = 0x3 ∧ f 17 5 = 0x0 then
    some (.intof (bits f 22 1) (bits f 12 5) (bits f 7 5))
  else if f 23 9 = 0x4 ∧ f 22 1 = 0x1 ∧ f 17 5 = 0x0 then
    some (.fnar (bits f 12 5) (bits f 7 5))
  else if f 23 9 = 0x5 ∧ f 22 1 = 0x0 ∧ f 17 5 = 0x0 then
    some (.fwid (bits f 12 5) (bits f 7 5))
  else if f 23 9 = 0x6 then
    some (.feq (bits f 22 1) (bits f 17 5) (bits f 12 5) (bits f 7 5))
  else if f 23 9 = 0x7 then
    some (.flt (bits f 22 1) (bits f 17 5) (bits f 12 5) (bits f 7 5))
  else if f 23 9 = 0x8 then
    some (.fle (bits f 22 1) (bits f 17 5) (bits f 12 5) (bits f 7 5))
  else if f 23 9 = 0x9 ∧ f 17 5 = 0x0 then
    some (.fclass (bits f 22 1) (bits f 12 5) (bits f 7 5))
  else if f 23 9 = 0xa then
    some (.fsgn (bits f 22 1) (bits f 17 5) (bits f 12 5) (bits f 7 5))
  else if f 23 9 = 0xb then
    some (.fsgnn (bits f 22 1) (bits f 17 5) (bits f 12 5) (bits f 7 5))
  else if f 23 9 = 0xc then
    some (.fsgnx (bits f 22 1) (bits f 17 5) (bits f 12 5) (bits f 7 5))
  else none

/-- Major 0x3A (R264). -/
noncomputable def decodeW3A (f : Fields) : Option Instr :=
  if f 23 9 = 0x0 then
    some (.fmadd (bits f 22 1) (bits f 17 5) (bits f 12 5) (bits f 7 5))
  else if f 23 9 = 0x1 then
    some (.fmsub (bits f 22 1) (bits f 17 5) (bits f 12 5) (bits f 7 5))
  else if f 23 9 = 0x2 then
    some (.fnmadd (bits f 22 1) (bits f 17 5) (bits f 12 5) (bits f 7 5))
  else none

/-- Major 0x3C (R271). -/
noncomputable def decodeW3C (f : Fields) : Option Instr :=
  if f 10 2 = 0x0 then
    some (.oxli (bits f 12 20) (bits f 7 3))
  else if f 10 2 = 0x1 then
    some (.oxhi (bits f 12 20) (bits f 7 3))
  else if f 17 15 = 0x0 ∧ f 10 2 = 0x2 then
    some (.oxmv (bits f 12 5) (bits f 7 3))
  else if f 17 15 = 0x0 ∧ f 10 2 = 0x3 then
    some (.oxrd (bits f 12 5) (bits f 7 3))
  else none

/-- Major 0x3D (R273, R274, R275, R276). -/
noncomputable def decodeW3D (f : Fields) : Option Instr :=
  if f 25 7 = 0x0 ∧ f 22 3 = 0x0 ∧ f 17 5 = 0x0 then
    some (.rsplit (bits f 12 5) (bits f 7 5))
  else if f 25 7 = 0x0 ∧ f 22 3 = 0x1 ∧ f 17 5 = 0x0 then
    some (.rmerge (bits f 12 5) (bits f 7 5))
  else if f 25 7 = 0x1 ∧ f 7 5 = 0x0 then
    some (.rinv (bits f 22 3) (bits f 17 5) (bits f 12 5))
  else if f 25 7 = 0x2 ∧ f 22 3 = 0x0 ∧ f 17 5 = 0x0 then
    some (.rprobe (bits f 12 5) (bits f 7 5))
  else if f 25 7 = 0x4 ∧ f 22 3 = 0x0 ∧ f 17 5 = 0x0 then
    some (.waycfg (bits f 12 5) (bits f 7 5))
  else none

/-- Major 0x3E (R278, R425). -/
noncomputable def decodeW3E (f : Fields) : Option Instr :=
  if f 22 10 = 0x0 then
    some (.cwflush (bits f 17 5) (bits f 12 5) (bits f 7 5))
  else if f 22 10 = 0x1 then
    some (.cwinv (bits f 17 5) (bits f 12 5) (bits f 7 5))
  else if f 22 10 = 0x100 ∧ f 12 5 = 0x0 ∧ f 7 5 = 0x0 then
    some (.brk (bits f 17 5))
  else if f 22 10 = 0x101 ∧ f 17 5 = 0x0 ∧ f 7 5 = 0x0 then
    some (.nfall (bits f 12 5))
  else none

/-- Assigned 32-bit encodings by their major (R229). -/
noncomputable def decodeWord32 (f : Fields) : Option Instr :=
  if f 1 6 = 0x0 then decodeW00 f
  else if f 1 6 = 0x1 then decodeW01 f
  else if f 1 6 = 0x2 then decodeW02 f
  else if f 1 6 = 0x3 then decodeW03 f
  else if f 1 6 = 0x4 then decodeW04 f
  else if f 1 6 = 0x5 then decodeW05 f
  else if f 1 6 = 0x6 then decodeW06 f
  else if f 1 6 = 0x7 then decodeW07 f
  else if f 1 6 = 0x10 then decodeW10 f
  else if f 1 6 = 0x11 then decodeW11 f
  else if f 1 6 = 0x12 then decodeW12 f
  else if f 1 6 = 0x13 then decodeW13 f
  else if f 1 6 = 0x14 then decodeW14 f
  else if f 1 6 = 0x15 then decodeW15 f
  else if f 1 6 = 0x16 then decodeW16 f
  else if f 1 6 = 0x17 then decodeW17 f
  else if f 1 6 = 0x18 then decodeW18 f
  else if f 1 6 = 0x19 then decodeW19 f
  else if f 1 6 = 0x1a then decodeW1A f
  else if f 1 6 = 0x1c then decodeW1C f
  else if f 1 6 = 0x1d then decodeW1D f
  else if f 1 6 = 0x1e then decodeW1E f
  else if f 1 6 = 0x1f then decodeW1F f
  else if f 1 6 = 0x20 then decodeW20 f
  else if f 1 6 = 0x21 then decodeW21 f
  else if f 1 6 = 0x22 then decodeW22 f
  else if f 1 6 = 0x23 then decodeW23 f
  else if f 1 6 = 0x24 then decodeW24 f
  else if f 1 6 = 0x25 then decodeW25 f
  else if f 1 6 = 0x26 then decodeW26 f
  else if f 1 6 = 0x27 then decodeW27 f
  else if f 1 6 = 0x28 then decodeW28 f
  else if f 1 6 = 0x29 then decodeW29 f
  else if f 1 6 = 0x2a then decodeW2A f
  else if f 1 6 = 0x2b then decodeW2B f
  else if f 1 6 = 0x2c then decodeW2C f
  else if f 1 6 = 0x2d then decodeW2D f
  else if f 1 6 = 0x2e then decodeW2E f
  else if f 1 6 = 0x30 then decodeW30 f
  else if f 1 6 = 0x31 then decodeW31 f
  else if f 1 6 = 0x32 then decodeW32 f
  else if f 1 6 = 0x38 then decodeW38 f
  else if f 1 6 = 0x39 then decodeW39 f
  else if f 1 6 = 0x3a then decodeW3A f
  else if f 1 6 = 0x3c then decodeW3C f
  else if f 1 6 = 0x3d then decodeW3D f
  else if f 1 6 = 0x3e then decodeW3E f
  else none

/-- The instruction of a halfword whose length bit is 0, or the reason for its rejection (R216, R218). -/
def decode16 (w : Nat) : Except DecodeError Instr :=
  match decodeWord16 (fieldsOf w) with
  | none => .error .unassigned16
  | some i => .ok i

/-- The instruction of a 32-bit word whose length bit is 1, or the reason for its rejection (R216, R218). -/
noncomputable def decode32 (w : Nat) : Except DecodeError Instr :=
  match decodeWord32 (fieldsOf w) with
  | none => .error .unassigned32
  | some i => if i.wf then .ok i else .error .fieldLimit

/-- The instruction at the head of the bytes and its length in bytes; halfwords are little-endian (R1, R216). -/
noncomputable def decode : List (BitVec 8) → Except DecodeError (Instr × Nat)
  | b0 :: b1 :: rest =>
    let h0 := b0.toNat + 256 * b1.toNat
    if field 0 1 h0 = 0 then
      match decode16 h0 with
      | .ok i => .ok (i, 2)
      | .error e => .error e
    else
      match rest with
      | b2 :: b3 :: _ =>
        match decode32 (h0 + 65536 * b2.toNat + 16777216 * b3.toNat) with
        | .ok i => .ok (i, 4)
        | .error e => .error e
      | _ => .error .truncated
  | _ => .error .truncated

/-- The encoding of an instruction, its fields from bit 0 upwards as widths and values; an event has none. -/
def encodeFields : Instr → List (Nat × Nat)
  | .add16 a d => [(1, 0x0), (5, 0x1), (3, d.toNat), (3, a.toNat), (4, 0x0)]
  | .sub16 a d => [(1, 0x0), (5, 0x1), (3, d.toNat), (3, a.toNat), (4, 0x1)]
  | .and16 a d => [(1, 0x0), (5, 0x1), (3, d.toNat), (3, a.toNat), (4, 0x2)]
  | .or16 a d => [(1, 0x0), (5, 0x1), (3, d.toNat), (3, a.toNat), (4, 0x3)]
  | .xor16 a d => [(1, 0x0), (5, 0x1), (3, d.toNat), (3, a.toNat), (4, 0x4)]
  | .shl16 a d => [(1, 0x0), (5, 0x1), (3, d.toNat), (3, a.toNat), (4, 0x5)]
  | .shr16 a d => [(1, 0x0), (5, 0x1), (3, d.toNat), (3, a.toNat), (4, 0x6)]
  | .sra16 a d => [(1, 0x0), (5, 0x1), (3, d.toNat), (3, a.toNat), (4, 0x7)]
  | .mv16 a d => [(1, 0x0), (5, 0x1), (3, d.toNat), (3, a.toNat), (4, 0x8)]
  | .addi16 i d => [(1, 0x0), (5, 0x2), (3, d.toNat), (7, i.toNat)]
  | .li16 i d => [(1, 0x0), (5, 0x3), (3, d.toNat), (7, i.toNat)]
  | .ldD16 o b d => [(1, 0x0), (5, 0x4), (3, d.toNat), (3, b.toNat), (4, o.toNat)]
  | .stD16 o b d => [(1, 0x0), (5, 0x5), (3, d.toNat), (3, b.toNat), (4, o.toNat)]
  | .ldW16 o b d => [(1, 0x0), (5, 0x6), (3, d.toNat), (3, b.toNat), (4, o.toNat)]
  | .stW16 o b d => [(1, 0x0), (5, 0x7), (3, d.toNat), (3, b.toNat), (4, o.toNat)]
  | .beqz16 o a => [(1, 0x0), (5, 0x8), (3, a.toNat), (7, o.toNat)]
  | .bnez16 o a => [(1, 0x0), (5, 0x9), (3, a.toNat), (7, o.toNat)]
  | .j16 o => [(1, 0x0), (5, 0xa), (10, o.toNat)]
  | .ret16 => [(1, 0x0), (5, 0xb), (10, 0x0)]
  | .add b a d => [(1, 0x1), (6, 0x0), (5, d.toNat), (5, a.toNat), (5, b.toNat), (10, 0x0)]
  | .sub b a d => [(1, 0x1), (6, 0x0), (5, d.toNat), (5, a.toNat), (5, b.toNat), (10, 0x1)]
  | .and b a d => [(1, 0x1), (6, 0x0), (5, d.toNat), (5, a.toNat), (5, b.toNat), (10, 0x2)]
  | .or b a d => [(1, 0x1), (6, 0x0), (5, d.toNat), (5, a.toNat), (5, b.toNat), (10, 0x3)]
  | .xor b a d => [(1, 0x1), (6, 0x0), (5, d.toNat), (5, a.toNat), (5, b.toNat), (10, 0x4)]
  | .shl b a d => [(1, 0x1), (6, 0x0), (5, d.toNat), (5, a.toNat), (5, b.toNat), (10, 0x5)]
  | .shr b a d => [(1, 0x1), (6, 0x0), (5, d.toNat), (5, a.toNat), (5, b.toNat), (10, 0x6)]
  | .sra b a d => [(1, 0x1), (6, 0x0), (5, d.toNat), (5, a.toNat), (5, b.toNat), (10, 0x7)]
  | .slt b a d => [(1, 0x1), (6, 0x0), (5, d.toNat), (5, a.toNat), (5, b.toNat), (10, 0x8)]
  | .sltn b a d => [(1, 0x1), (6, 0x0), (5, d.toNat), (5, a.toNat), (5, b.toNat), (10, 0x9)]
  | .min b a d => [(1, 0x1), (6, 0x0), (5, d.toNat), (5, a.toNat), (5, b.toNat), (10, 0xa)]
  | .max b a d => [(1, 0x1), (6, 0x0), (5, d.toNat), (5, a.toNat), (5, b.toNat), (10, 0xb)]
  | .minn b a d => [(1, 0x1), (6, 0x0), (5, d.toNat), (5, a.toNat), (5, b.toNat), (10, 0xc)]
  | .maxn b a d => [(1, 0x1), (6, 0x0), (5, d.toNat), (5, a.toNat), (5, b.toNat), (10, 0xd)]
  | .andn b a d => [(1, 0x1), (6, 0x0), (5, d.toNat), (5, a.toNat), (5, b.toNat), (10, 0xe)]
  | .mul b a d => [(1, 0x1), (6, 0x1), (5, d.toNat), (5, a.toNat), (5, b.toNat), (10, 0x0)]
  | .mulh b a d => [(1, 0x1), (6, 0x1), (5, d.toNat), (5, a.toNat), (5, b.toNat), (10, 0x1)]
  | .mulhn b a d => [(1, 0x1), (6, 0x1), (5, d.toNat), (5, a.toNat), (5, b.toNat), (10, 0x2)]
  | .div b a d => [(1, 0x1), (6, 0x1), (5, d.toNat), (5, a.toNat), (5, b.toNat), (10, 0x3)]
  | .divn b a d => [(1, 0x1), (6, 0x1), (5, d.toNat), (5, a.toNat), (5, b.toNat), (10, 0x4)]
  | .rem b a d => [(1, 0x1), (6, 0x1), (5, d.toNat), (5, a.toNat), (5, b.toNat), (10, 0x5)]
  | .remn b a d => [(1, 0x1), (6, 0x1), (5, d.toNat), (5, a.toNat), (5, b.toNat), (10, 0x6)]
  | .addW b a d => [(1, 0x1), (6, 0x7), (5, d.toNat), (5, a.toNat), (5, b.toNat), (10, 0x0)]
  | .subW b a d => [(1, 0x1), (6, 0x7), (5, d.toNat), (5, a.toNat), (5, b.toNat), (10, 0x1)]
  | .shlW b a d => [(1, 0x1), (6, 0x7), (5, d.toNat), (5, a.toNat), (5, b.toNat), (10, 0x5)]
  | .shrW b a d => [(1, 0x1), (6, 0x7), (5, d.toNat), (5, a.toNat), (5, b.toNat), (10, 0x6)]
  | .sraW b a d => [(1, 0x1), (6, 0x7), (5, d.toNat), (5, a.toNat), (5, b.toNat), (10, 0x7)]
  | .mulW b a d => [(1, 0x1), (6, 0x7), (5, d.toNat), (5, a.toNat), (5, b.toNat), (10, 0x100)]
  | .divW b a d => [(1, 0x1), (6, 0x7), (5, d.toNat), (5, a.toNat), (5, b.toNat), (10, 0x103)]
  | .divnW b a d => [(1, 0x1), (6, 0x7), (5, d.toNat), (5, a.toNat), (5, b.toNat), (10, 0x104)]
  | .remW b a d => [(1, 0x1), (6, 0x7), (5, d.toNat), (5, a.toNat), (5, b.toNat), (10, 0x105)]
  | .remnW b a d => [(1, 0x1), (6, 0x7), (5, d.toNat), (5, a.toNat), (5, b.toNat), (10, 0x106)]
  | .addi i a d => [(1, 0x1), (6, 0x2), (5, d.toNat), (5, a.toNat), (12, i.toNat), (3, 0x0)]
  | .slti i a d => [(1, 0x1), (6, 0x2), (5, d.toNat), (5, a.toNat), (12, i.toNat), (3, 0x1)]
  | .sltni i a d => [(1, 0x1), (6, 0x2), (5, d.toNat), (5, a.toNat), (12, i.toNat), (3, 0x2)]
  | .andi i a d => [(1, 0x1), (6, 0x2), (5, d.toNat), (5, a.toNat), (12, i.toNat), (3, 0x3)]
  | .ori i a d => [(1, 0x1), (6, 0x2), (5, d.toNat), (5, a.toNat), (12, i.toNat), (3, 0x4)]
  | .xori i a d => [(1, 0x1), (6, 0x2), (5, d.toNat), (5, a.toNat), (12, i.toNat), (3, 0x5)]
  | .shli h a d => [(1, 0x1), (6, 0x3), (5, d.toNat), (5, a.toNat), (6, h.toNat), (9, 0x0)]
  | .shri h a d => [(1, 0x1), (6, 0x3), (5, d.toNat), (5, a.toNat), (6, h.toNat), (9, 0x40)]
  | .srai h a d => [(1, 0x1), (6, 0x3), (5, d.toNat), (5, a.toNat), (6, h.toNat), (9, 0x80)]
  | .bext b a d => [(1, 0x1), (6, 0x4), (5, d.toNat), (5, a.toNat), (5, b.toNat), (10, 0x0)]
  | .bins b a d => [(1, 0x1), (6, 0x4), (5, d.toNat), (5, a.toNat), (5, b.toNat), (10, 0x1)]
  | .popc a d => [(1, 0x1), (6, 0x4), (5, d.toNat), (5, a.toNat), (5, 0x0), (10, 0x2)]
  | .clz a d => [(1, 0x1), (6, 0x4), (5, d.toNat), (5, a.toNat), (5, 0x0), (10, 0x3)]
  | .ctz a d => [(1, 0x1), (6, 0x4), (5, d.toNat), (5, a.toNat), (5, 0x0), (10, 0x4)]
  | .ldhi i d => [(1, 0x1), (6, 0x5), (5, d.toNat), (20, i.toNat)]
  | .pcadd i d => [(1, 0x1), (6, 0x6), (5, d.toNat), (20, i.toNat)]
  | .ldB i a d => [(1, 0x1), (6, 0x10), (5, d.toNat), (5, a.toNat), (12, i.toNat), (3, 0x0)]
  | .ldH i a d => [(1, 0x1), (6, 0x10), (5, d.toNat), (5, a.toNat), (12, i.toNat), (3, 0x1)]
  | .ldW i a d => [(1, 0x1), (6, 0x10), (5, d.toNat), (5, a.toNat), (12, i.toNat), (3, 0x2)]
  | .ldD i a d => [(1, 0x1), (6, 0x10), (5, d.toNat), (5, a.toNat), (12, i.toNat), (3, 0x3)]
  | .ldBn i a d => [(1, 0x1), (6, 0x10), (5, d.toNat), (5, a.toNat), (12, i.toNat), (3, 0x4)]
  | .ldHn i a d => [(1, 0x1), (6, 0x10), (5, d.toNat), (5, a.toNat), (12, i.toNat), (3, 0x5)]
  | .ldWn i a d => [(1, 0x1), (6, 0x10), (5, d.toNat), (5, a.toNat), (12, i.toNat), (3, 0x6)]
  | .ldBNc i a d => [(1, 0x1), (6, 0x11), (5, d.toNat), (5, a.toNat), (12, i.toNat), (3, 0x0)]
  | .ldHNc i a d => [(1, 0x1), (6, 0x11), (5, d.toNat), (5, a.toNat), (12, i.toNat), (3, 0x1)]
  | .ldWNc i a d => [(1, 0x1), (6, 0x11), (5, d.toNat), (5, a.toNat), (12, i.toNat), (3, 0x2)]
  | .ldDNc i a d => [(1, 0x1), (6, 0x11), (5, d.toNat), (5, a.toNat), (12, i.toNat), (3, 0x3)]
  | .ldBnNc i a d => [(1, 0x1), (6, 0x11), (5, d.toNat), (5, a.toNat), (12, i.toNat), (3, 0x4)]
  | .ldHnNc i a d => [(1, 0x1), (6, 0x11), (5, d.toNat), (5, a.toNat), (12, i.toNat), (3, 0x5)]
  | .ldWnNc i a d => [(1, 0x1), (6, 0x11), (5, d.toNat), (5, a.toNat), (12, i.toNat), (3, 0x6)]
  | .ldBC i a d => [(1, 0x1), (6, 0x12), (5, d.toNat), (5, a.toNat), (12, i.toNat), (3, 0x0)]
  | .ldHC i a d => [(1, 0x1), (6, 0x12), (5, d.toNat), (5, a.toNat), (12, i.toNat), (3, 0x1)]
  | .ldWC i a d => [(1, 0x1), (6, 0x12), (5, d.toNat), (5, a.toNat), (12, i.toNat), (3, 0x2)]
  | .ldDC i a d => [(1, 0x1), (6, 0x12), (5, d.toNat), (5, a.toNat), (12, i.toNat), (3, 0x3)]
  | .ldBnC i a d => [(1, 0x1), (6, 0x12), (5, d.toNat), (5, a.toNat), (12, i.toNat), (3, 0x4)]
  | .ldHnC i a d => [(1, 0x1), (6, 0x12), (5, d.toNat), (5, a.toNat), (12, i.toNat), (3, 0x5)]
  | .ldWnC i a d => [(1, 0x1), (6, 0x12), (5, d.toNat), (5, a.toNat), (12, i.toNat), (3, 0x6)]
  | .stB i b s => [(1, 0x1), (6, 0x13), (5, s.toNat), (5, b.toNat), (12, i.toNat), (3, 0x0)]
  | .stH i b s => [(1, 0x1), (6, 0x13), (5, s.toNat), (5, b.toNat), (12, i.toNat), (3, 0x1)]
  | .stW i b s => [(1, 0x1), (6, 0x13), (5, s.toNat), (5, b.toNat), (12, i.toNat), (3, 0x2)]
  | .stD i b s => [(1, 0x1), (6, 0x13), (5, s.toNat), (5, b.toNat), (12, i.toNat), (3, 0x3)]
  | .stBNc i b s => [(1, 0x1), (6, 0x14), (5, s.toNat), (5, b.toNat), (12, i.toNat), (3, 0x0)]
  | .stHNc i b s => [(1, 0x1), (6, 0x14), (5, s.toNat), (5, b.toNat), (12, i.toNat), (3, 0x1)]
  | .stWNc i b s => [(1, 0x1), (6, 0x14), (5, s.toNat), (5, b.toNat), (12, i.toNat), (3, 0x2)]
  | .stDNc i b s => [(1, 0x1), (6, 0x14), (5, s.toNat), (5, b.toNat), (12, i.toNat), (3, 0x3)]
  | .amadd z b a d => [(1, 0x1), (6, 0x15), (5, d.toNat), (5, a.toNat), (5, b.toNat), (1, z.toNat), (9, 0x1)]
  | .amswap z b a d => [(1, 0x1), (6, 0x15), (5, d.toNat), (5, a.toNat), (5, b.toNat), (1, z.toNat), (9, 0x9)]
  | .amcas z b a d => [(1, 0x1), (6, 0x15), (5, d.toNat), (5, a.toNat), (5, b.toNat), (1, z.toNat), (9, 0x11)]
  | .amand z b a d => [(1, 0x1), (6, 0x15), (5, d.toNat), (5, a.toNat), (5, b.toNat), (1, z.toNat), (9, 0x19)]
  | .amor z b a d => [(1, 0x1), (6, 0x15), (5, d.toNat), (5, a.toNat), (5, b.toNat), (1, z.toNat), (9, 0x21)]
  | .amxor z b a d => [(1, 0x1), (6, 0x15), (5, d.toNat), (5, a.toNat), (5, b.toNat), (1, z.toNat), (9, 0x29)]
  | .ammin z b a d => [(1, 0x1), (6, 0x15), (5, d.toNat), (5, a.toNat), (5, b.toNat), (1, z.toNat), (9, 0x31)]
  | .ammax z b a d => [(1, 0x1), (6, 0x15), (5, d.toNat), (5, a.toNat), (5, b.toNat), (1, z.toNat), (9, 0x39)]
  | .amminn z b a d => [(1, 0x1), (6, 0x15), (5, d.toNat), (5, a.toNat), (5, b.toNat), (1, z.toNat), (9, 0x41)]
  | .ammaxn z b a d => [(1, 0x1), (6, 0x15), (5, d.toNat), (5, a.toNat), (5, b.toNat), (1, z.toNat), (9, 0x49)]
  | .amfadd z b a d => [(1, 0x1), (6, 0x15), (5, d.toNat), (5, a.toNat), (5, b.toNat), (1, z.toNat), (9, 0x51)]
  | .amfmin z b a d => [(1, 0x1), (6, 0x15), (5, d.toNat), (5, a.toNat), (5, b.toNat), (1, z.toNat), (9, 0x59)]
  | .amfmax z b a d => [(1, 0x1), (6, 0x15), (5, d.toNat), (5, a.toNat), (5, b.toNat), (1, z.toNat), (9, 0x61)]
  | .redAdd z b a => [(1, 0x1), (6, 0x16), (5, 0x0), (5, a.toNat), (5, b.toNat), (1, z.toNat), (9, 0x1)]
  | .redMin z b a => [(1, 0x1), (6, 0x16), (5, 0x0), (5, a.toNat), (5, b.toNat), (1, z.toNat), (9, 0x9)]
  | .redMax z b a => [(1, 0x1), (6, 0x16), (5, 0x0), (5, a.toNat), (5, b.toNat), (1, z.toNat), (9, 0x11)]
  | .redMinn z b a => [(1, 0x1), (6, 0x16), (5, 0x0), (5, a.toNat), (5, b.toNat), (1, z.toNat), (9, 0x19)]
  | .redMaxn z b a => [(1, 0x1), (6, 0x16), (5, 0x0), (5, a.toNat), (5, b.toNat), (1, z.toNat), (9, 0x21)]
  | .redFadd z b a => [(1, 0x1), (6, 0x16), (5, 0x0), (5, a.toNat), (5, b.toNat), (1, z.toNat), (9, 0x29)]
  | .redFmin z b a => [(1, 0x1), (6, 0x16), (5, 0x0), (5, a.toNat), (5, b.toNat), (1, z.toNat), (9, 0x31)]
  | .redFmax z b a => [(1, 0x1), (6, 0x16), (5, 0x0), (5, a.toNat), (5, b.toNat), (1, z.toNat), (9, 0x39)]
  | .ldfD a d => [(1, 0x1), (6, 0x16), (5, d.toNat), (5, a.toNat), (5, 0x0), (1, 0x1), (9, 0x41)]
  | .steD b a => [(1, 0x1), (6, 0x16), (5, 0x0), (5, a.toNat), (5, b.toNat), (1, 0x1), (9, 0x49)]
  | .mbput a n => [(1, 0x1), (6, 0x17), (5, n.toNat), (5, a.toNat), (15, 0x0)]
  | .mbget n d => [(1, 0x1), (6, 0x17), (5, d.toNat), (5, n.toNat), (15, 0x20)]
  | .beq o b a => [(1, 0x1), (6, 0x18), (5, a.toNat), (5, b.toNat), (12, o.toNat), (3, 0x0)]
  | .bne o b a => [(1, 0x1), (6, 0x18), (5, a.toNat), (5, b.toNat), (12, o.toNat), (3, 0x1)]
  | .blt o b a => [(1, 0x1), (6, 0x18), (5, a.toNat), (5, b.toNat), (12, o.toNat), (3, 0x2)]
  | .bge o b a => [(1, 0x1), (6, 0x18), (5, a.toNat), (5, b.toNat), (12, o.toNat), (3, 0x3)]
  | .bltn o b a => [(1, 0x1), (6, 0x18), (5, a.toNat), (5, b.toNat), (12, o.toNat), (3, 0x4)]
  | .bgen o b a => [(1, 0x1), (6, 0x18), (5, a.toNat), (5, b.toNat), (12, o.toNat), (3, 0x5)]
  | .jal o d => [(1, 0x1), (6, 0x19), (5, d.toNat), (20, o.toNat)]
  | .jalr i a d => [(1, 0x1), (6, 0x1a), (5, d.toNat), (5, a.toNat), (12, i.toNat), (3, 0x0)]
  | .fence s => [(1, 0x1), (6, 0x1c), (10, 0x0), (3, s.toNat), (12, 0x0)]
  | .acq s => [(1, 0x1), (6, 0x1c), (10, 0x0), (3, s.toNat), (12, 0x200)]
  | .rel s => [(1, 0x1), (6, 0x1c), (10, 0x0), (3, s.toNat), (12, 0x400)]
  | .phase s => [(1, 0x1), (6, 0x1c), (10, 0x0), (3, s.toNat), (12, 0x600)]
  | .vfence => [(1, 0x1), (6, 0x1c), (10, 0x0), (3, 0x0), (12, 0x800)]
  | .barw w d => [(1, 0x1), (6, 0x1d), (5, d.toNat), (5, 0x0), (5, w.toNat), (10, 0x0)]
  | .park a d => [(1, 0x1), (6, 0x1d), (5, d.toNat), (5, a.toNat), (5, 0x0), (10, 0x1)]
  | .waitt a => [(1, 0x1), (6, 0x1d), (5, 0x0), (5, a.toNat), (5, 0x0), (10, 0x2)]
  | .mfs n d => [(1, 0x1), (6, 0x1e), (5, d.toNat), (5, 0x0), (12, n.toNat), (3, 0x0)]
  | .mts n a => [(1, 0x1), (6, 0x1e), (5, 0x0), (5, a.toNat), (12, n.toNat), (3, 0x1)]
  | .trap i => [(1, 0x1), (6, 0x1e), (5, 0x0), (5, 0x0), (12, i.toNat), (3, 0x2)]
  | .xret => [(1, 0x1), (6, 0x1e), (5, 0x0), (5, 0x0), (5, 0x0), (7, 0x0), (3, 0x3)]
  | .savev a d => [(1, 0x1), (6, 0x1e), (5, d.toNat), (5, a.toNat), (5, 0x0), (7, 0x1), (3, 0x3)]
  | .rstv a d => [(1, 0x1), (6, 0x1e), (5, d.toNat), (5, a.toNat), (5, 0x0), (7, 0x2), (3, 0x3)]
  | .migrate b a d => [(1, 0x1), (6, 0x1e), (5, d.toNat), (5, a.toNat), (5, b.toNat), (7, 0x3), (3, 0x3)]
  | .fwdclr b a => [(1, 0x1), (6, 0x1e), (5, 0x0), (5, a.toNat), (5, b.toNat), (7, 0x4), (3, 0x3)]
  | .spawn b a d => [(1, 0x1), (6, 0x1f), (5, d.toNat), (5, a.toNat), (5, b.toNat), (2, 0x0), (8, 0x0)]
  | .suspend a => [(1, 0x1), (6, 0x1f), (5, 0x0), (5, a.toNat), (5, 0x0), (2, 0x1), (8, 0x0)]
  | .emit d => [(1, 0x1), (6, 0x1f), (5, d.toNat), (5, 0x0), (5, 0x0), (2, 0x2), (8, 0x0)]
  | .endI => [(1, 0x1), (6, 0x1f), (5, 0x0), (5, 0x0), (5, 0x0), (2, 0x3), (8, 0x0)]
  | .hend => [(1, 0x1), (6, 0x1f), (5, 0x0), (5, 0x0), (5, 0x0), (2, 0x0), (8, 0x1)]
  | .larm b a d => [(1, 0x1), (6, 0x1f), (5, d.toNat), (5, a.toNat), (5, b.toNat), (2, 0x1), (8, 0x1)]
  | .send c b a => [(1, 0x1), (6, 0x1f), (5, 0x0), (5, a.toNat), (5, b.toNat), (2, c.toNat), (8, 0x2)]
  | .vaddVv r p a m t s d => [(1, 0x1), (6, 0x20), (5, d.toNat), (5, s.toNat), (5, t.toNat), (5, 0x0), (1, m.toNat), (1, a.toNat), (1, p.toNat), (2, r.toNat)]
  | .vaddVx r p a m t s d => [(1, 0x1), (6, 0x20), (5, d.toNat), (5, s.toNat), (5, t.toNat), (5, 0x1), (1, m.toNat), (1, a.toNat), (1, p.toNat), (2, r.toNat)]
  | .vsubVv r p a m t s d => [(1, 0x1), (6, 0x20), (5, d.toNat), (5, s.toNat), (5, t.toNat), (5, 0x2), (1, m.toNat), (1, a.toNat), (1, p.toNat), (2, r.toNat)]
  | .vsubVx r p a m t s d => [(1, 0x1), (6, 0x20), (5, d.toNat), (5, s.toNat), (5, t.toNat), (5, 0x3), (1, m.toNat), (1, a.toNat), (1, p.toNat), (2, r.toNat)]
  | .vrsubVx r p a m t s d => [(1, 0x1), (6, 0x20), (5, d.toNat), (5, s.toNat), (5, t.toNat), (5, 0x4), (1, m.toNat), (1, a.toNat), (1, p.toNat), (2, r.toNat)]
  | .vmulVv r p a m t s d => [(1, 0x1), (6, 0x20), (5, d.toNat), (5, s.toNat), (5, t.toNat), (5, 0x5), (1, m.toNat), (1, a.toNat), (1, p.toNat), (2, r.toNat)]
  | .vmulVx r p a m t s d => [(1, 0x1), (6, 0x20), (5, d.toNat), (5, s.toNat), (5, t.toNat), (5, 0x6), (1, m.toNat), (1, a.toNat), (1, p.toNat), (2, r.toNat)]
  | .vmulhVv r p a m t s d => [(1, 0x1), (6, 0x20), (5, d.toNat), (5, s.toNat), (5, t.toNat), (5, 0x7), (1, m.toNat), (1, a.toNat), (1, p.toNat), (2, r.toNat)]
  | .vmulhVx r p a m t s d => [(1, 0x1), (6, 0x20), (5, d.toNat), (5, s.toNat), (5, t.toNat), (5, 0x8), (1, m.toNat), (1, a.toNat), (1, p.toNat), (2, r.toNat)]
  | .vdivVv r p a m t s d => [(1, 0x1), (6, 0x20), (5, d.toNat), (5, s.toNat), (5, t.toNat), (5, 0x9), (1, m.toNat), (1, a.toNat), (1, p.toNat), (2, r.toNat)]
  | .vdivVx r p a m t s d => [(1, 0x1), (6, 0x20), (5, d.toNat), (5, s.toNat), (5, t.toNat), (5, 0xa), (1, m.toNat), (1, a.toNat), (1, p.toNat), (2, r.toNat)]
  | .vremVv r p a m t s d => [(1, 0x1), (6, 0x20), (5, d.toNat), (5, s.toNat), (5, t.toNat), (5, 0xb), (1, m.toNat), (1, a.toNat), (1, p.toNat), (2, r.toNat)]
  | .vremVx r p a m t s d => [(1, 0x1), (6, 0x20), (5, d.toNat), (5, s.toNat), (5, t.toNat), (5, 0xc), (1, m.toNat), (1, a.toNat), (1, p.toNat), (2, r.toNat)]
  | .vminVv r p a m t s d => [(1, 0x1), (6, 0x20), (5, d.toNat), (5, s.toNat), (5, t.toNat), (5, 0xd), (1, m.toNat), (1, a.toNat), (1, p.toNat), (2, r.toNat)]
  | .vminVx r p a m t s d => [(1, 0x1), (6, 0x20), (5, d.toNat), (5, s.toNat), (5, t.toNat), (5, 0xe), (1, m.toNat), (1, a.toNat), (1, p.toNat), (2, r.toNat)]
  | .vmaxVv r p a m t s d => [(1, 0x1), (6, 0x20), (5, d.toNat), (5, s.toNat), (5, t.toNat), (5, 0xf), (1, m.toNat), (1, a.toNat), (1, p.toNat), (2, r.toNat)]
  | .vmaxVx r p a m t s d => [(1, 0x1), (6, 0x20), (5, d.toNat), (5, s.toNat), (5, t.toNat), (5, 0x10), (1, m.toNat), (1, a.toNat), (1, p.toNat), (2, r.toNat)]
  | .vsaddVv r p a m t s d => [(1, 0x1), (6, 0x20), (5, d.toNat), (5, s.toNat), (5, t.toNat), (5, 0x11), (1, m.toNat), (1, a.toNat), (1, p.toNat), (2, r.toNat)]
  | .vsaddVx r p a m t s d => [(1, 0x1), (6, 0x20), (5, d.toNat), (5, s.toNat), (5, t.toNat), (5, 0x12), (1, m.toNat), (1, a.toNat), (1, p.toNat), (2, r.toNat)]
  | .vssubVv r p a m t s d => [(1, 0x1), (6, 0x20), (5, d.toNat), (5, s.toNat), (5, t.toNat), (5, 0x13), (1, m.toNat), (1, a.toNat), (1, p.toNat), (2, r.toNat)]
  | .vssubVx r p a m t s d => [(1, 0x1), (6, 0x20), (5, d.toNat), (5, s.toNat), (5, t.toNat), (5, 0x14), (1, m.toNat), (1, a.toNat), (1, p.toNat), (2, r.toNat)]
  | .vidV a m d => [(1, 0x1), (6, 0x20), (5, d.toNat), (5, 0x0), (5, 0x0), (5, 0x15), (1, m.toNat), (1, a.toNat), (1, 0x0), (2, 0x0)]
  | .vpopcV r p a m t d => [(1, 0x1), (6, 0x20), (5, d.toNat), (5, 0x0), (5, t.toNat), (5, 0x16), (1, m.toNat), (1, a.toNat), (1, p.toNat), (2, r.toNat)]
  | .vviewV r p a m t d => [(1, 0x1), (6, 0x20), (5, d.toNat), (5, 0x0), (5, t.toNat), (5, 0x17), (1, m.toNat), (1, a.toNat), (1, p.toNat), (2, r.toNat)]
  | .vandVv r p a m t s d => [(1, 0x1), (6, 0x21), (5, d.toNat), (5, s.toNat), (5, t.toNat), (5, 0x0), (1, m.toNat), (1, a.toNat), (1, p.toNat), (2, r.toNat)]
  | .vandVx r p a m t s d => [(1, 0x1), (6, 0x21), (5, d.toNat), (5, s.toNat), (5, t.toNat), (5, 0x1), (1, m.toNat), (1, a.toNat), (1, p.toNat), (2, r.toNat)]
  | .vorVv r p a m t s d => [(1, 0x1), (6, 0x21), (5, d.toNat), (5, s.toNat), (5, t.toNat), (5, 0x2), (1, m.toNat), (1, a.toNat), (1, p.toNat), (2, r.toNat)]
  | .vorVx r p a m t s d => [(1, 0x1), (6, 0x21), (5, d.toNat), (5, s.toNat), (5, t.toNat), (5, 0x3), (1, m.toNat), (1, a.toNat), (1, p.toNat), (2, r.toNat)]
  | .vxorVv r p a m t s d => [(1, 0x1), (6, 0x21), (5, d.toNat), (5, s.toNat), (5, t.toNat), (5, 0x4), (1, m.toNat), (1, a.toNat), (1, p.toNat), (2, r.toNat)]
  | .vxorVx r p a m t s d => [(1, 0x1), (6, 0x21), (5, d.toNat), (5, s.toNat), (5, t.toNat), (5, 0x5), (1, m.toNat), (1, a.toNat), (1, p.toNat), (2, r.toNat)]
  | .vandnVv r p a m t s d => [(1, 0x1), (6, 0x21), (5, d.toNat), (5, s.toNat), (5, t.toNat), (5, 0x6), (1, m.toNat), (1, a.toNat), (1, p.toNat), (2, r.toNat)]
  | .vnotV r p a m t d => [(1, 0x1), (6, 0x21), (5, d.toNat), (5, 0x0), (5, t.toNat), (5, 0x7), (1, m.toNat), (1, a.toNat), (1, p.toNat), (2, r.toNat)]
  | .vshlVv r p a m t s d => [(1, 0x1), (6, 0x21), (5, d.toNat), (5, s.toNat), (5, t.toNat), (5, 0x8), (1, m.toNat), (1, a.toNat), (1, p.toNat), (2, r.toNat)]
  | .vshlVx r p a m t s d => [(1, 0x1), (6, 0x21), (5, d.toNat), (5, s.toNat), (5, t.toNat), (5, 0x9), (1, m.toNat), (1, a.toNat), (1, p.toNat), (2, r.toNat)]
  | .vshrVv r p a m t s d => [(1, 0x1), (6, 0x21), (5, d.toNat), (5, s.toNat), (5, t.toNat), (5, 0xa), (1, m.toNat), (1, a.toNat), (1, p.toNat), (2, r.toNat)]
  | .vshrVx r p a m t s d => [(1, 0x1), (6, 0x21), (5, d.toNat), (5, s.toNat), (5, t.toNat), (5, 0xb), (1, m.toNat), (1, a.toNat), (1, p.toNat), (2, r.toNat)]
  | .vsraVv r p a m t s d => [(1, 0x1), (6, 0x21), (5, d.toNat), (5, s.toNat), (5, t.toNat), (5, 0xc), (1, m.toNat), (1, a.toNat), (1, p.toNat), (2, r.toNat)]
  | .vsraVx r p a m t s d => [(1, 0x1), (6, 0x21), (5, d.toNat), (5, s.toNat), (5, t.toNat), (5, 0xd), (1, m.toNat), (1, a.toNat), (1, p.toNat), (2, r.toNat)]
  | .vmseqVv r p a m t s d => [(1, 0x1), (6, 0x22), (5, d.toNat), (5, s.toNat), (5, t.toNat), (5, 0x0), (1, m.toNat), (1, a.toNat), (1, p.toNat), (2, r.toNat)]
  | .vmseqVx r p a m t s d => [(1, 0x1), (6, 0x22), (5, d.toNat), (5, s.toNat), (5, t.toNat), (5, 0x1), (1, m.toNat), (1, a.toNat), (1, p.toNat), (2, r.toNat)]
  | .vmsneVv r p a m t s d => [(1, 0x1), (6, 0x22), (5, d.toNat), (5, s.toNat), (5, t.toNat), (5, 0x2), (1, m.toNat), (1, a.toNat), (1, p.toNat), (2, r.toNat)]
  | .vmsneVx r p a m t s d => [(1, 0x1), (6, 0x22), (5, d.toNat), (5, s.toNat), (5, t.toNat), (5, 0x3), (1, m.toNat), (1, a.toNat), (1, p.toNat), (2, r.toNat)]
  | .vmsltVv r p a m t s d => [(1, 0x1), (6, 0x22), (5, d.toNat), (5, s.toNat), (5, t.toNat), (5, 0x4), (1, m.toNat), (1, a.toNat), (1, p.toNat), (2, r.toNat)]
  | .vmsltVx r p a m t s d => [(1, 0x1), (6, 0x22), (5, d.toNat), (5, s.toNat), (5, t.toNat), (5, 0x5), (1, m.toNat), (1, a.toNat), (1, p.toNat), (2, r.toNat)]
  | .vmsleVv r p a m t s d => [(1, 0x1), (6, 0x22), (5, d.toNat), (5, s.toNat), (5, t.toNat), (5, 0x6), (1, m.toNat), (1, a.toNat), (1, p.toNat), (2, r.toNat)]
  | .vmsleVx r p a m t s d => [(1, 0x1), (6, 0x22), (5, d.toNat), (5, s.toNat), (5, t.toNat), (5, 0x7), (1, m.toNat), (1, a.toNat), (1, p.toNat), (2, r.toNat)]
  | .vmsgtVx r p a m t s d => [(1, 0x1), (6, 0x22), (5, d.toNat), (5, s.toNat), (5, t.toNat), (5, 0x8), (1, m.toNat), (1, a.toNat), (1, p.toNat), (2, r.toNat)]
  | .vmsgeVx r p a m t s d => [(1, 0x1), (6, 0x22), (5, d.toNat), (5, s.toNat), (5, t.toNat), (5, 0x9), (1, m.toNat), (1, a.toNat), (1, p.toNat), (2, r.toNat)]
  | .vmandMm a m t s d => [(1, 0x1), (6, 0x22), (5, d.toNat), (5, s.toNat), (5, t.toNat), (5, 0xa), (1, m.toNat), (1, a.toNat), (1, 0x0), (2, 0x0)]
  | .vmorMm a m t s d => [(1, 0x1), (6, 0x22), (5, d.toNat), (5, s.toNat), (5, t.toNat), (5, 0xb), (1, m.toNat), (1, a.toNat), (1, 0x0), (2, 0x0)]
  | .vmxorMm a m t s d => [(1, 0x1), (6, 0x22), (5, d.toNat), (5, s.toNat), (5, t.toNat), (5, 0xc), (1, m.toNat), (1, a.toNat), (1, 0x0), (2, 0x0)]
  | .vmandnMm a m t s d => [(1, 0x1), (6, 0x22), (5, d.toNat), (5, s.toNat), (5, t.toNat), (5, 0xd), (1, m.toNat), (1, a.toNat), (1, 0x0), (2, 0x0)]
  | .vmergeVv a t s d => [(1, 0x1), (6, 0x23), (5, d.toNat), (5, s.toNat), (5, t.toNat), (5, 0x0), (1, 0x0), (1, a.toNat), (1, 0x0), (2, 0x0)]
  | .vmergeVx a t s d => [(1, 0x1), (6, 0x23), (5, d.toNat), (5, s.toNat), (5, t.toNat), (5, 0x1), (1, 0x0), (1, a.toNat), (1, 0x0), (2, 0x0)]
  | .vmvVv r p a m t d => [(1, 0x1), (6, 0x23), (5, d.toNat), (5, 0x0), (5, t.toNat), (5, 0x2), (1, m.toNat), (1, a.toNat), (1, p.toNat), (2, r.toNat)]
  | .vmvVx a m s d => [(1, 0x1), (6, 0x23), (5, d.toNat), (5, s.toNat), (5, 0x0), (5, 0x3), (1, m.toNat), (1, a.toNat), (1, 0x0), (2, 0x0)]
  | .vmvXs t d => [(1, 0x1), (6, 0x23), (5, d.toNat), (5, 0x0), (5, t.toNat), (5, 0x4), (1, 0x0), (1, 0x0), (1, 0x0), (2, 0x0)]
  | .vfaddVv r p a m t s d => [(1, 0x1), (6, 0x24), (5, d.toNat), (5, s.toNat), (5, t.toNat), (5, 0x0), (1, m.toNat), (1, a.toNat), (1, p.toNat), (2, r.toNat)]
  | .vfaddVx r p a m t s d => [(1, 0x1), (6, 0x24), (5, d.toNat), (5, s.toNat), (5, t.toNat), (5, 0x1), (1, m.toNat), (1, a.toNat), (1, p.toNat), (2, r.toNat)]
  | .vfsubVv r p a m t s d => [(1, 0x1), (6, 0x24), (5, d.toNat), (5, s.toNat), (5, t.toNat), (5, 0x2), (1, m.toNat), (1, a.toNat), (1, p.toNat), (2, r.toNat)]
  | .vfsubVx r p a m t s d => [(1, 0x1), (6, 0x24), (5, d.toNat), (5, s.toNat), (5, t.toNat), (5, 0x3), (1, m.toNat), (1, a.toNat), (1, p.toNat), (2, r.toNat)]
  | .vfrsubVx r p a m t s d => [(1, 0x1), (6, 0x24), (5, d.toNat), (5, s.toNat), (5, t.toNat), (5, 0x4), (1, m.toNat), (1, a.toNat), (1, p.toNat), (2, r.toNat)]
  | .vfmulVv r p a m t s d => [(1, 0x1), (6, 0x24), (5, d.toNat), (5, s.toNat), (5, t.toNat), (5, 0x5), (1, m.toNat), (1, a.toNat), (1, p.toNat), (2, r.toNat)]
  | .vfmulVx r p a m t s d => [(1, 0x1), (6, 0x24), (5, d.toNat), (5, s.toNat), (5, t.toNat), (5, 0x6), (1, m.toNat), (1, a.toNat), (1, p.toNat), (2, r.toNat)]
  | .vfdivVv r p a m t s d => [(1, 0x1), (6, 0x24), (5, d.toNat), (5, s.toNat), (5, t.toNat), (5, 0x7), (1, m.toNat), (1, a.toNat), (1, p.toNat), (2, r.toNat)]
  | .vfdivVx r p a m t s d => [(1, 0x1), (6, 0x24), (5, d.toNat), (5, s.toNat), (5, t.toNat), (5, 0x8), (1, m.toNat), (1, a.toNat), (1, p.toNat), (2, r.toNat)]
  | .vfrdivVx r p a m t s d => [(1, 0x1), (6, 0x24), (5, d.toNat), (5, s.toNat), (5, t.toNat), (5, 0x9), (1, m.toNat), (1, a.toNat), (1, p.toNat), (2, r.toNat)]
  | .vfsqrtV r p a m t d => [(1, 0x1), (6, 0x24), (5, d.toNat), (5, 0x0), (5, t.toNat), (5, 0xa), (1, m.toNat), (1, a.toNat), (1, p.toNat), (2, r.toNat)]
  | .vfminVv r p a m t s d => [(1, 0x1), (6, 0x24), (5, d.toNat), (5, s.toNat), (5, t.toNat), (5, 0xb), (1, m.toNat), (1, a.toNat), (1, p.toNat), (2, r.toNat)]
  | .vfminVx r p a m t s d => [(1, 0x1), (6, 0x24), (5, d.toNat), (5, s.toNat), (5, t.toNat), (5, 0xc), (1, m.toNat), (1, a.toNat), (1, p.toNat), (2, r.toNat)]
  | .vfmaxVv r p a m t s d => [(1, 0x1), (6, 0x24), (5, d.toNat), (5, s.toNat), (5, t.toNat), (5, 0xd), (1, m.toNat), (1, a.toNat), (1, p.toNat), (2, r.toNat)]
  | .vfmaxVx r p a m t s d => [(1, 0x1), (6, 0x24), (5, d.toNat), (5, s.toNat), (5, t.toNat), (5, 0xe), (1, m.toNat), (1, a.toNat), (1, p.toNat), (2, r.toNat)]
  | .vfsgnVv r p a m t s d => [(1, 0x1), (6, 0x24), (5, d.toNat), (5, s.toNat), (5, t.toNat), (5, 0xf), (1, m.toNat), (1, a.toNat), (1, p.toNat), (2, r.toNat)]
  | .vfsgnnVv r p a m t s d => [(1, 0x1), (6, 0x24), (5, d.toNat), (5, s.toNat), (5, t.toNat), (5, 0x10), (1, m.toNat), (1, a.toNat), (1, p.toNat), (2, r.toNat)]
  | .vfsgnxVv r p a m t s d => [(1, 0x1), (6, 0x24), (5, d.toNat), (5, s.toNat), (5, t.toNat), (5, 0x11), (1, m.toNat), (1, a.toNat), (1, p.toNat), (2, r.toNat)]
  | .vfclassV r p a m t d => [(1, 0x1), (6, 0x24), (5, d.toNat), (5, 0x0), (5, t.toNat), (5, 0x12), (1, m.toNat), (1, a.toNat), (1, p.toNat), (2, r.toNat)]
  | .vmfeqVv r p a m t s d => [(1, 0x1), (6, 0x25), (5, d.toNat), (5, s.toNat), (5, t.toNat), (5, 0x0), (1, m.toNat), (1, a.toNat), (1, p.toNat), (2, r.toNat)]
  | .vmfeqVx r p a m t s d => [(1, 0x1), (6, 0x25), (5, d.toNat), (5, s.toNat), (5, t.toNat), (5, 0x1), (1, m.toNat), (1, a.toNat), (1, p.toNat), (2, r.toNat)]
  | .vmfneVv r p a m t s d => [(1, 0x1), (6, 0x25), (5, d.toNat), (5, s.toNat), (5, t.toNat), (5, 0x2), (1, m.toNat), (1, a.toNat), (1, p.toNat), (2, r.toNat)]
  | .vmfneVx r p a m t s d => [(1, 0x1), (6, 0x25), (5, d.toNat), (5, s.toNat), (5, t.toNat), (5, 0x3), (1, m.toNat), (1, a.toNat), (1, p.toNat), (2, r.toNat)]
  | .vmfltVv r p a m t s d => [(1, 0x1), (6, 0x25), (5, d.toNat), (5, s.toNat), (5, t.toNat), (5, 0x4), (1, m.toNat), (1, a.toNat), (1, p.toNat), (2, r.toNat)]
  | .vmfltVx r p a m t s d => [(1, 0x1), (6, 0x25), (5, d.toNat), (5, s.toNat), (5, t.toNat), (5, 0x5), (1, m.toNat), (1, a.toNat), (1, p.toNat), (2, r.toNat)]
  | .vmfleVv r p a m t s d => [(1, 0x1), (6, 0x25), (5, d.toNat), (5, s.toNat), (5, t.toNat), (5, 0x6), (1, m.toNat), (1, a.toNat), (1, p.toNat), (2, r.toNat)]
  | .vmfleVx r p a m t s d => [(1, 0x1), (6, 0x25), (5, d.toNat), (5, s.toNat), (5, t.toNat), (5, 0x7), (1, m.toNat), (1, a.toNat), (1, p.toNat), (2, r.toNat)]
  | .vmfgtVx r p a m t s d => [(1, 0x1), (6, 0x25), (5, d.toNat), (5, s.toNat), (5, t.toNat), (5, 0x8), (1, m.toNat), (1, a.toNat), (1, p.toNat), (2, r.toNat)]
  | .vmfgeVx r p a m t s d => [(1, 0x1), (6, 0x25), (5, d.toNat), (5, s.toNat), (5, t.toNat), (5, 0x9), (1, m.toNat), (1, a.toNat), (1, p.toNat), (2, r.toNat)]
  | .vwcvtV r p a m t d => [(1, 0x1), (6, 0x26), (5, d.toNat), (5, 0x0), (5, t.toNat), (5, 0x0), (1, m.toNat), (1, a.toNat), (1, p.toNat), (2, r.toNat)]
  | .vncvtV r p a m t d => [(1, 0x1), (6, 0x26), (5, d.toNat), (5, 0x0), (5, t.toNat), (5, 0x1), (1, m.toNat), (1, a.toNat), (1, p.toNat), (2, r.toNat)]
  | .vnclipV r p a m t d => [(1, 0x1), (6, 0x26), (5, d.toNat), (5, 0x0), (5, t.toNat), (5, 0x2), (1, m.toNat), (1, a.toNat), (1, p.toNat), (2, r.toNat)]
  | .vfwcvtV r p a m t d => [(1, 0x1), (6, 0x26), (5, d.toNat), (5, 0x0), (5, t.toNat), (5, 0x3), (1, m.toNat), (1, a.toNat), (1, p.toNat), (2, r.toNat)]
  | .vfncvtV r p a m t d => [(1, 0x1), (6, 0x26), (5, d.toNat), (5, 0x0), (5, t.toNat), (5, 0x4), (1, m.toNat), (1, a.toNat), (1, p.toNat), (2, r.toNat)]
  | .vftoiV r p a m t d => [(1, 0x1), (6, 0x26), (5, d.toNat), (5, 0x0), (5, t.toNat), (5, 0x5), (1, m.toNat), (1, a.toNat), (1, p.toNat), (2, r.toNat)]
  | .vftoinV r p a m t d => [(1, 0x1), (6, 0x26), (5, d.toNat), (5, 0x0), (5, t.toNat), (5, 0x6), (1, m.toNat), (1, a.toNat), (1, p.toNat), (2, r.toNat)]
  | .vitofV r p a m t d => [(1, 0x1), (6, 0x26), (5, d.toNat), (5, 0x0), (5, t.toNat), (5, 0x7), (1, m.toNat), (1, a.toNat), (1, p.toNat), (2, r.toNat)]
  | .vintofV r p a m t d => [(1, 0x1), (6, 0x26), (5, d.toNat), (5, 0x0), (5, t.toNat), (5, 0x8), (1, m.toNat), (1, a.toNat), (1, p.toNat), (2, r.toNat)]
  | .vfcvtF4 r p a m t d => [(1, 0x1), (6, 0x26), (5, d.toNat), (5, 0x0), (5, t.toNat), (5, 0x9), (1, m.toNat), (1, a.toNat), (1, p.toNat), (2, r.toNat)]
  | .vrngV a m d => [(1, 0x1), (6, 0x27), (5, d.toNat), (5, 0x0), (10, 0x0), (1, m.toNat), (1, a.toNat), (3, 0x0)]
  | .vseedVx a m s => [(1, 0x1), (6, 0x27), (5, 0x0), (5, s.toNat), (10, 0x20), (1, m.toNat), (1, a.toNat), (3, 0x0)]
  | .vsetl b a d => [(1, 0x1), (6, 0x2b), (5, d.toNat), (5, a.toNat), (5, b.toNat), (7, 0x0), (3, 0x0)]
  | .vsetli i a d => [(1, 0x1), (6, 0x2b), (5, d.toNat), (5, a.toNat), (12, i.toNat), (3, 0x1)]
  | .vredsumXs a m t s d => [(1, 0x1), (6, 0x29), (5, d.toNat), (5, s.toNat), (5, t.toNat), (5, 0x0), (1, m.toNat), (1, a.toNat), (3, 0x0)]
  | .vredminXs a m t s d => [(1, 0x1), (6, 0x29), (5, d.toNat), (5, s.toNat), (5, t.toNat), (5, 0x1), (1, m.toNat), (1, a.toNat), (3, 0x0)]
  | .vredmaxXs a m t s d => [(1, 0x1), (6, 0x29), (5, d.toNat), (5, s.toNat), (5, t.toNat), (5, 0x2), (1, m.toNat), (1, a.toNat), (3, 0x0)]
  | .vredandXs a m t s d => [(1, 0x1), (6, 0x29), (5, d.toNat), (5, s.toNat), (5, t.toNat), (5, 0x3), (1, m.toNat), (1, a.toNat), (3, 0x0)]
  | .vredorXs a m t s d => [(1, 0x1), (6, 0x29), (5, d.toNat), (5, s.toNat), (5, t.toNat), (5, 0x4), (1, m.toNat), (1, a.toNat), (3, 0x0)]
  | .vredxorXs a m t s d => [(1, 0x1), (6, 0x29), (5, d.toNat), (5, s.toNat), (5, t.toNat), (5, 0x5), (1, m.toNat), (1, a.toNat), (3, 0x0)]
  | .vfredsumXs a m t s d => [(1, 0x1), (6, 0x29), (5, d.toNat), (5, s.toNat), (5, t.toNat), (5, 0x6), (1, m.toNat), (1, a.toNat), (3, 0x0)]
  | .vfredminXs a m t s d => [(1, 0x1), (6, 0x29), (5, d.toNat), (5, s.toNat), (5, t.toNat), (5, 0x7), (1, m.toNat), (1, a.toNat), (3, 0x0)]
  | .vfredmaxXs a m t s d => [(1, 0x1), (6, 0x29), (5, d.toNat), (5, s.toNat), (5, t.toNat), (5, 0x8), (1, m.toNat), (1, a.toNat), (3, 0x0)]
  | .vredminiXs a m t s d => [(1, 0x1), (6, 0x29), (5, d.toNat), (5, s.toNat), (5, t.toNat), (5, 0x9), (1, m.toNat), (1, a.toNat), (3, 0x0)]
  | .vredmaxiXs a m t s d => [(1, 0x1), (6, 0x29), (5, d.toNat), (5, s.toNat), (5, t.toNat), (5, 0xa), (1, m.toNat), (1, a.toNat), (3, 0x0)]
  | .vtree a m t h i => [(1, 0x1), (6, 0x29), (5, i.toNat), (1, h.toNat), (4, 0x0), (5, t.toNat), (5, 0xb), (1, m.toNat), (1, a.toNat), (3, 0x0)]
  | .vftree a m t h i => [(1, 0x1), (6, 0x29), (5, i.toNat), (1, h.toNat), (4, 0x1), (5, t.toNat), (5, 0xb), (1, m.toNat), (1, a.toNat), (3, 0x0)]
  | .vtreeseg c a m t h i => [(1, 0x1), (6, 0x29), (5, i.toNat), (1, h.toNat), (4, 0x0), (5, t.toNat), (5, 0xc), (1, m.toNat), (1, a.toNat), (3, c.toNat)]
  | .vftreeseg c a m t h i => [(1, 0x1), (6, 0x29), (5, i.toNat), (1, h.toNat), (4, 0x1), (5, t.toNat), (5, 0xc), (1, m.toNat), (1, a.toNat), (3, c.toNat)]
  | .vsegsumV c a m t d => [(1, 0x1), (6, 0x29), (5, d.toNat), (1, 0x0), (4, 0x0), (5, t.toNat), (5, 0xd), (1, m.toNat), (1, a.toNat), (3, c.toNat)]
  | .vsegminV c a m t d => [(1, 0x1), (6, 0x29), (5, d.toNat), (1, 0x0), (4, 0x0), (5, t.toNat), (5, 0xe), (1, m.toNat), (1, a.toNat), (3, c.toNat)]
  | .vsegmaxV c a m t d => [(1, 0x1), (6, 0x29), (5, d.toNat), (1, 0x0), (4, 0x0), (5, t.toNat), (5, 0xf), (1, m.toNat), (1, a.toNat), (3, c.toNat)]
  | .vfsegsumV c a m t d => [(1, 0x1), (6, 0x29), (5, d.toNat), (1, 0x0), (4, 0x0), (5, t.toNat), (5, 0x10), (1, m.toNat), (1, a.toNat), (3, c.toNat)]
  | .vfsegminV c a m t d => [(1, 0x1), (6, 0x29), (5, d.toNat), (1, 0x0), (4, 0x0), (5, t.toNat), (5, 0x11), (1, m.toNat), (1, a.toNat), (3, c.toNat)]
  | .vfsegmaxV c a m t d => [(1, 0x1), (6, 0x29), (5, d.toNat), (1, 0x0), (4, 0x0), (5, t.toNat), (5, 0x12), (1, m.toNat), (1, a.toNat), (3, c.toNat)]
  | .vslideupVx a m t s d => [(1, 0x1), (6, 0x2a), (5, d.toNat), (5, s.toNat), (5, t.toNat), (5, 0x0), (1, m.toNat), (1, a.toNat), (1, 0x0), (2, 0x0)]
  | .vslidedownVx a m t s d => [(1, 0x1), (6, 0x2a), (5, d.toNat), (5, s.toNat), (5, t.toNat), (5, 0x1), (1, m.toNat), (1, a.toNat), (1, 0x0), (2, 0x0)]
  | .vslide1upVx a m t s d => [(1, 0x1), (6, 0x2a), (5, d.toNat), (5, s.toNat), (5, t.toNat), (5, 0x2), (1, m.toNat), (1, a.toNat), (1, 0x0), (2, 0x0)]
  | .vslide1downVx a m t s d => [(1, 0x1), (6, 0x2a), (5, d.toNat), (5, s.toNat), (5, t.toNat), (5, 0x3), (1, m.toNat), (1, a.toNat), (1, 0x0), (2, 0x0)]
  | .vgatherVv w a m t s d => [(1, 0x1), (6, 0x2a), (5, d.toNat), (5, s.toNat), (5, t.toNat), (5, 0x4), (1, m.toNat), (1, a.toNat), (1, 0x0), (2, w.toNat)]
  | .vcompressVv a t s d => [(1, 0x1), (6, 0x2a), (5, d.toNat), (5, s.toNat), (5, t.toNat), (5, 0x5), (1, 0x0), (1, a.toNat), (1, 0x0), (2, 0x0)]
  | .vexpandVv a t s d => [(1, 0x1), (6, 0x2a), (5, d.toNat), (5, s.toNat), (5, t.toNat), (5, 0x6), (1, 0x0), (1, a.toNat), (1, 0x0), (2, 0x0)]
  | .vbcastVx a m t s d => [(1, 0x1), (6, 0x2a), (5, d.toNat), (5, s.toNat), (5, t.toNat), (5, 0x7), (1, m.toNat), (1, a.toNat), (1, 0x0), (2, 0x0)]
  | .vmrotVx a m t s d => [(1, 0x1), (6, 0x2a), (5, d.toNat), (5, s.toNat), (5, t.toNat), (5, 0x8), (1, m.toNat), (1, a.toNat), (1, 0x0), (2, 0x0)]
  | .vld a m s d => [(1, 0x1), (6, 0x28), (5, d.toNat), (5, s.toNat), (5, 0x0), (5, 0x0), (1, m.toNat), (1, a.toNat), (1, 0x0), (2, 0x0)]
  | .vst a m s d => [(1, 0x1), (6, 0x28), (5, d.toNat), (5, s.toNat), (5, 0x0), (5, 0x1), (1, m.toNat), (1, a.toNat), (1, 0x0), (2, 0x0)]
  | .vlds a m t s d => [(1, 0x1), (6, 0x28), (5, d.toNat), (5, s.toNat), (5, t.toNat), (5, 0x2), (1, m.toNat), (1, a.toNat), (1, 0x0), (2, 0x0)]
  | .vsts a m t s d => [(1, 0x1), (6, 0x28), (5, d.toNat), (5, s.toNat), (5, t.toNat), (5, 0x3), (1, m.toNat), (1, a.toNat), (1, 0x0), (2, 0x0)]
  | .vldx w a m t s d => [(1, 0x1), (6, 0x28), (5, d.toNat), (5, s.toNat), (5, t.toNat), (5, 0x4), (1, m.toNat), (1, a.toNat), (1, 0x0), (2, w.toNat)]
  | .vstx w a m t s d => [(1, 0x1), (6, 0x28), (5, d.toNat), (5, s.toNat), (5, t.toNat), (5, 0x5), (1, m.toNat), (1, a.toNat), (1, 0x0), (2, w.toNat)]
  | .vldsp tr a m k s d => [(1, 0x1), (6, 0x28), (5, d.toNat), (5, s.toNat), (5, k.toNat), (5, 0x6), (1, m.toNat), (1, a.toNat), (1, tr.toNat), (2, 0x0)]
  | .vstsp tr a m k s d => [(1, 0x1), (6, 0x28), (5, d.toNat), (5, s.toNat), (5, k.toNat), (5, 0x7), (1, m.toNat), (1, a.toNat), (1, tr.toNat), (2, 0x0)]
  | .mmode a d => [(1, 0x1), (6, 0x2c), (5, d.toNat), (5, a.toNat), (5, 0x0), (5, 0x0), (1, 0x0), (4, 0x0)]
  | .mzero => [(1, 0x1), (6, 0x2c), (5, 0x0), (5, 0x0), (5, 0x0), (5, 0x0), (1, 0x0), (4, 0x1)]
  | .mtree t => [(1, 0x1), (6, 0x2c), (5, 0x0), (5, 0x0), (5, 0x0), (5, 0x0), (1, t.toNat), (4, 0x2)]
  | .mrd t f b a d => [(1, 0x1), (6, 0x2c), (5, d.toNat), (5, a.toNat), (5, b.toNat), (5, f.toNat), (1, t.toNat), (4, 0x3)]
  | .mwr t f b a d => [(1, 0x1), (6, 0x2c), (5, d.toNat), (5, a.toNat), (5, b.toNat), (5, f.toNat), (1, t.toNat), (4, 0x4)]
  | .mopa b a => [(1, 0x1), (6, 0x2d), (5, 0x0), (5, a.toNat), (5, b.toNat), (10, 0x0)]
  | .mopaSc b a d => [(1, 0x1), (6, 0x2d), (5, d.toNat), (5, a.toNat), (5, b.toNat), (10, 0x1)]
  | .gadd b a d => [(1, 0x1), (6, 0x2e), (5, d.toNat), (5, a.toNat), (5, b.toNat), (10, 0x0)]
  | .gelim b a d => [(1, 0x1), (6, 0x2e), (5, d.toNat), (5, a.toNat), (5, b.toNat), (10, 0x1)]
  | .gdamp b a d => [(1, 0x1), (6, 0x2e), (5, d.toNat), (5, a.toNat), (5, b.toNat), (10, 0x2)]
  | .copy w z m k b a d => [(1, 0x1), (6, 0x30), (5, d.toNat), (5, a.toNat), (5, b.toNat), (3, k.toNat), (3, 0x0), (1, m.toNat), (1, z.toNat), (1, w.toNat), (1, 0x0)]
  | .copy2d w z m k b a d => [(1, 0x1), (6, 0x30), (5, d.toNat), (5, a.toNat), (5, b.toNat), (3, k.toNat), (3, 0x1), (1, m.toNat), (1, z.toNat), (1, w.toNat), (1, 0x0)]
  | .copygath w z m k b a d => [(1, 0x1), (6, 0x30), (5, d.toNat), (5, a.toNat), (5, b.toNat), (3, k.toNat), (3, 0x2), (1, m.toNat), (1, z.toNat), (1, w.toNat), (1, 0x0)]
  | .copyscat w z m k b a d => [(1, 0x1), (6, 0x30), (5, d.toNat), (5, a.toNat), (5, b.toNat), (3, k.toNat), (3, 0x3), (1, m.toNat), (1, z.toNat), (1, w.toNat), (1, 0x0)]
  | .copyt w z m k b a d => [(1, 0x1), (6, 0x30), (5, d.toNat), (5, a.toNat), (5, b.toNat), (3, k.toNat), (3, 0x4), (1, m.toNat), (1, z.toNat), (1, w.toNat), (1, 0x0)]
  | .creduce w z k b a d => [(1, 0x1), (6, 0x31), (5, d.toNat), (5, a.toNat), (5, b.toNat), (3, k.toNat), (4, 0x0), (1, z.toNat), (1, w.toNat), (1, 0x0)]
  | .cbcast w z k b a d => [(1, 0x1), (6, 0x31), (5, d.toNat), (5, a.toNat), (5, b.toNat), (3, k.toNat), (4, 0x1), (1, z.toNat), (1, w.toNat), (1, 0x0)]
  | .binit f b a => [(1, 0x1), (6, 0x32), (5, 0x0), (5, a.toNat), (5, b.toNat), (2, f.toNat), (8, 0x0)]
  | .barrive a => [(1, 0x1), (6, 0x32), (5, 0x0), (5, a.toNat), (5, 0x0), (2, 0x0), (8, 0x1)]
  | .bwait b a d => [(1, 0x1), (6, 0x32), (5, d.toNat), (5, a.toNat), (5, b.toNat), (2, 0x0), (8, 0x2)]
  | .bquery b a d => [(1, 0x1), (6, 0x32), (5, d.toNat), (5, a.toNat), (5, b.toNat), (2, 0x0), (8, 0x3)]
  | .fadd z b a d => [(1, 0x1), (6, 0x38), (5, d.toNat), (5, a.toNat), (5, b.toNat), (1, z.toNat), (9, 0x0)]
  | .fsub z b a d => [(1, 0x1), (6, 0x38), (5, d.toNat), (5, a.toNat), (5, b.toNat), (1, z.toNat), (9, 0x1)]
  | .fmul z b a d => [(1, 0x1), (6, 0x38), (5, d.toNat), (5, a.toNat), (5, b.toNat), (1, z.toNat), (9, 0x2)]
  | .fdiv z b a d => [(1, 0x1), (6, 0x38), (5, d.toNat), (5, a.toNat), (5, b.toNat), (1, z.toNat), (9, 0x3)]
  | .fsqrt z a d => [(1, 0x1), (6, 0x38), (5, d.toNat), (5, a.toNat), (5, 0x0), (1, z.toNat), (9, 0x4)]
  | .fmin z b a d => [(1, 0x1), (6, 0x38), (5, d.toNat), (5, a.toNat), (5, b.toNat), (1, z.toNat), (9, 0x5)]
  | .fmax z b a d => [(1, 0x1), (6, 0x38), (5, d.toNat), (5, a.toNat), (5, b.toNat), (1, z.toNat), (9, 0x6)]
  | .ftoi z a d => [(1, 0x1), (6, 0x39), (5, d.toNat), (5, a.toNat), (5, 0x0), (1, z.toNat), (9, 0x0)]
  | .ftoin z a d => [(1, 0x1), (6, 0x39), (5, d.toNat), (5, a.toNat), (5, 0x0), (1, z.toNat), (9, 0x1)]
  | .itof z a d => [(1, 0x1), (6, 0x39), (5, d.toNat), (5, a.toNat), (5, 0x0), (1, z.toNat), (9, 0x2)]
  | .intof z a d => [(1, 0x1), (6, 0x39), (5, d.toNat), (5, a.toNat), (5, 0x0), (1, z.toNat), (9, 0x3)]
  | .fnar a d => [(1, 0x1), (6, 0x39), (5, d.toNat), (5, a.toNat), (5, 0x0), (1, 0x1), (9, 0x4)]
  | .fwid a d => [(1, 0x1), (6, 0x39), (5, d.toNat), (5, a.toNat), (5, 0x0), (1, 0x0), (9, 0x5)]
  | .feq z b a d => [(1, 0x1), (6, 0x39), (5, d.toNat), (5, a.toNat), (5, b.toNat), (1, z.toNat), (9, 0x6)]
  | .flt z b a d => [(1, 0x1), (6, 0x39), (5, d.toNat), (5, a.toNat), (5, b.toNat), (1, z.toNat), (9, 0x7)]
  | .fle z b a d => [(1, 0x1), (6, 0x39), (5, d.toNat), (5, a.toNat), (5, b.toNat), (1, z.toNat), (9, 0x8)]
  | .fclass z a d => [(1, 0x1), (6, 0x39), (5, d.toNat), (5, a.toNat), (5, 0x0), (1, z.toNat), (9, 0x9)]
  | .fsgn z b a d => [(1, 0x1), (6, 0x39), (5, d.toNat), (5, a.toNat), (5, b.toNat), (1, z.toNat), (9, 0xa)]
  | .fsgnn z b a d => [(1, 0x1), (6, 0x39), (5, d.toNat), (5, a.toNat), (5, b.toNat), (1, z.toNat), (9, 0xb)]
  | .fsgnx z b a d => [(1, 0x1), (6, 0x39), (5, d.toNat), (5, a.toNat), (5, b.toNat), (1, z.toNat), (9, 0xc)]
  | .fmadd z b a d => [(1, 0x1), (6, 0x3a), (5, d.toNat), (5, a.toNat), (5, b.toNat), (1, z.toNat), (9, 0x0)]
  | .fmsub z b a d => [(1, 0x1), (6, 0x3a), (5, d.toNat), (5, a.toNat), (5, b.toNat), (1, z.toNat), (9, 0x1)]
  | .fnmadd z b a d => [(1, 0x1), (6, 0x3a), (5, d.toNat), (5, a.toNat), (5, b.toNat), (1, z.toNat), (9, 0x2)]
  | .oxli i n => [(1, 0x1), (6, 0x3c), (3, n.toNat), (2, 0x0), (20, i.toNat)]
  | .oxhi i n => [(1, 0x1), (6, 0x3c), (3, n.toNat), (2, 0x1), (20, i.toNat)]
  | .oxmv a n => [(1, 0x1), (6, 0x3c), (3, n.toNat), (2, 0x2), (5, a.toNat), (15, 0x0)]
  | .oxrd d n => [(1, 0x1), (6, 0x3c), (3, n.toNat), (2, 0x3), (5, d.toNat), (15, 0x0)]
  | .rsplit a d => [(1, 0x1), (6, 0x3d), (5, d.toNat), (5, a.toNat), (5, 0x0), (3, 0x0), (7, 0x0)]
  | .rmerge a d => [(1, 0x1), (6, 0x3d), (5, d.toNat), (5, a.toNat), (5, 0x0), (3, 0x1), (7, 0x0)]
  | .rinv s b a => [(1, 0x1), (6, 0x3d), (5, 0x0), (5, a.toNat), (5, b.toNat), (3, s.toNat), (7, 0x1)]
  | .rprobe a d => [(1, 0x1), (6, 0x3d), (5, d.toNat), (5, a.toNat), (5, 0x0), (3, 0x0), (7, 0x2)]
  | .waycfg a d => [(1, 0x1), (6, 0x3d), (5, d.toNat), (5, a.toNat), (5, 0x0), (3, 0x0), (7, 0x4)]
  | .cwflush b a d => [(1, 0x1), (6, 0x3e), (5, d.toNat), (5, a.toNat), (5, b.toNat), (10, 0x0)]
  | .cwinv b a d => [(1, 0x1), (6, 0x3e), (5, d.toNat), (5, a.toNat), (5, b.toNat), (10, 0x1)]
  | .brk c => [(1, 0x1), (6, 0x3e), (5, 0x0), (5, 0x0), (5, c.toNat), (10, 0x100)]
  | .nfall a => [(1, 0x1), (6, 0x3e), (5, 0x0), (5, a.toNat), (5, 0x0), (10, 0x101)]
  | .coldReset => []
  | .warmReset _ => []
  | .boot => []
  | .bootTimeout => []
  | .bootctlOk => []
  | .attest => []
  | .mbxReset => []
  | .nightreg => []
  | .update => []
  | .commit _ => []
  | .layerctlReq _ _ => []
  | .layerPowerOff _ => []
  | .layerPowerOn _ => []
  | .tempReading _ _ _ => []
  | .tripClear _ => []
  | .patrolScrub _ _ => []
  | .cecntRead _ => []
  | .cebytesRead _ _ => []
  | .cereqsRead _ _ => []
  | .clelemsRead _ _ => []
  | .czinRead _ _ => []
  | .czoutRead _ _ => []
  | .registerWrite _ _ _ => []
  | .privilegedViewWrite _ _ _ _ => []
  | .mstatWrite _ _ _ => []
  | .writeQueueDrain _ => []
  | .switchHop _ => []
  | .replyEntryExpiry _ => []
  | .replyHop _ => []
  | .sliceRequest _ _ => []
  | .bankAccess _ _ => []
  | .timedRetry _ _ => []
  | .acknowledgement _ => []
  | .probe _ => []
  | .echo _ => []
  | .route _ => []
  | .transientRead _ => []
  | .transientWrite _ => []
  | .eviction _ _ => []
  | .transientFailure _ => []
  | .persistentRequest _ => []
  | .deactivation _ => []
  | .countdownExpiry _ _ _ => []
  | .rangeSearch _ _ _ => []
  | .headerReread _ _ => []
  | .editRetry _ _ => []
  | .lockRetry _ _ => []
  | .dropRequest _ _ => []
  | .engineDrop _ _ => []
  | .dropAcknowledgement _ => []
  | .drop _ => []
  | .move _ => []
  | .ddrop _ => []
  | .idrop _ => []
  | .walkerPiece _ => []
  | .requestBegins _ _ => []
  | .batch _ _ => []
  | .requestComplete _ _ => []
  | .contribution _ _ => []
  | .initialise _ => []
  | .credit _ => []
  | .arrive _ => []
  | .errorArrive _ => []
  | .query _ => []
  | .wireCompletion _ _ _ => []
  | .barwTimeout _ _ => []
  | .parkTimeout _ _ => []
  | .decisionCycle => []
  | .contextSwitch _ => []
  | .qtail _ _ => []
  | .load _ => []
  | .stageFeed _ _ => []
  | .takeRecord _ => []
  | .balancer _ _ => []
  | .takeMessage _ => []
  | .messageArrival _ => []
  | .messageRetry _ => []
  | .spawnRequest _ => []
  | .spawnAnswer _ => []
  | .ctxjobWrite _ _ _ => []
  | .jobChange _ => []
  | .save _ => []
  | .restore _ => []
  | .nfctlNfall => []
  | .nfctlJob _ => []
  | .originFlit _ _ => []
  | .wave _ => []
  | .nfctlDb => []
  | .daybreakStep _ => []
  | .haltreq _ _ => []
  | .resumereq _ _ => []
  | .accessRegister _ _ _ _ _ _ => []
  | .accessMemory _ _ _ _ _ _ => []
  | .instrumentUnload _ _ => []
  | .train => []
  | .capabilityFlit _ _ _ _ _ => []
  | .allowanceGrant _ _ _ => []
  | .joblctWrite _ _ _ => []
  | .lctbaseWrite _ _ _ => []
  | .cxlMemAccess _ _ _ _ _ => []
  | .mergeWindowClose _ _ => []
  | .operandBufferFull _ => []
  | .illegalOp _ => []
  | .pass _ => []
  | .accumulationEnd _ => []
  | .daybreakAcknowledgement _ => []
  | .beatRetransmission _ _ => []

/-- The number of bits of an instruction's encoding: 16, 32, or 0 for an event (R216). -/
def encodeBits (i : Instr) : Nat := ((encodeFields i).map Prod.fst).sum

/-- The word of an instruction as one number (R216, R220 to R228). -/
def encodeWord (i : Instr) : Nat := pack (encodeFields i)

/-- The bytes of a number of n bytes, little-endian (R1). -/
def leBytes : Nat → Nat → List (BitVec 8)
  | 0, _ => []
  | n + 1, w => BitVec.ofNat 8 w :: leBytes n (w / 256)

/-- The bytes of an instruction in the order memory holds them (R1, R216). -/
def encode (i : Instr) : List (BitVec 8) := leBytes (encodeBits i / 8) (encodeWord i)

/-- What the decoder reads from an instruction of nbits bits whose bits are w, the bits above nbits being 0. -/
noncomputable def decodeTableWord (nbits w : Nat) : Option Instr :=
  match decode (leBytes 4 (w % 2 ^ nbits)) with
  | .ok (i, _) => some i
  | .error _ => none

end Sys2Proof
end

