-- ==== Sys2Proof/Config.lean ====
section
/-!
DEFINITION. What the spec leaves open, as constants nothing can evaluate: free values, and the outside functions the boot
controller and the attestation use by name only (FIPS 202, FIPS 205).
-/

namespace Sys2Proof.Config

/-- The k-th free 64-bit value: what the part leaves in a place whose value the spec leaves open (log entry 2). -/
opaque freeWord : Nat → BitVec 64

/-- The k-th free choice between two outcomes that the spec allows (R112, R462, log entry 4). -/
opaque freeChoice : Nat → Bool

/-- Instructions a core fetches on speculative paths and discards in the n s-cycles after a moment: what SPECCNT counts (R147, R403); the spec
leaves it to the run (log entry 11). -/
opaque speculated : (core clock n : Nat) → BitVec 64

/-- SHAKE256 of a byte string, first 512 bits (R463, R464): the function of FIPS 202, named and not defined by the spec. -/
opaque shake512 : List (BitVec 8) → BitVec 512

/-- Whether an image carries a valid SLH-DSA-SHAKE-256s signature under the key of the fused digest (R463). -/
opaque verifies : (digest : BitVec 256) → (image : List (BitVec 8)) → Bool

/-- The version number an image carries (R463). -/
opaque version : (image : List (BitVec 8)) → BitVec 64

/-- The 29,792-byte signature of a report under the identity key derived from the fused seed (R464, R465). -/
opaque sign : (seed : BitVec 256) → (report : List (BitVec 8)) → Nat → BitVec 8

/-- Whether the training of a column's core bus, and of its layer bus, passes at a given moment (R76). -/
opaque coreBusPasses : (col clock : Nat) → Bool
opaque layerBusPasses : (col clock : Nat) → Bool

/-- Whether the training of the CXL link passes at a given moment (R463). -/
opaque cxlTrains : (clock : Nat) → Bool

/-- Soft repairs a column's training makes at a given moment (R76, R79). -/
opaque softRepairs : (col clock : Nat) → BitVec 8

end Sys2Proof.Config
end

