-- ==== Sys2Proof/Machine/State.lean ====
section
/-!
DEFINITION. The state of the whole package: eight columns, their cores and harts, memory, the networks' requests in
flight, the distributor, the fabric ports, Nightfall, the boot controller; and the machine after cold reset.
Every field names the rule that gives it.  A field that belongs to the model and not to the part says so.
-/

namespace Sys2Proof.Machine

/-- A sparse table of plain data: (key, value) pairs with strictly rising keys; a key not listed reads as the
default its reader names. -/
abbrev Tab (α : Type) := List (Nat × α)

/-- A 64-byte line, byte 0 in bits [7:0] (R1). -/
abbrev Line := BitVec 512

/-- Why the machine stops. -/
inductive Fault where
  /-- Raised by an event that names a core, column, engine, port or bank the package does not have (R11 to R15): safe. -/
  | noSuchUnit
deriving DecidableEq, Repr

/-- Why the model gives no meaning. -/
inductive Refusal where
  /-- Raised by exec for an instruction without a meaning yet: safe. -/
  | notModelled (mnemonic : String)
deriving DecidableEq, Repr

/-- The causes of R396. -/
inductive Cause where
  | illegalOp | priv | misalign | rangeMiss | rangePerm | partialRes | layerOff | busFault | feLimit | copyErr
  | watch | brk | step | syscall | gsing | vcfg | mmode | handlerBlock | slot | vown | nightfall | sendLimit | fmt | wayMode
deriving DecidableEq, Repr

/-- How a vector command stops at an element (R183): a trap, a watch region with ACT = 1 (R422), or a freeze or pre-emption while it stands at a
locked range (R321). -/
inductive VEnd where
  | trap (z : Cause) (xval : BitVec 64)
  | halt
  | freeze
deriving DecidableEq, Repr

/-- The states of a hart slot (R131). -/
inductive HState where
  | idle | ready | parked | stalled | frozen | halted
deriving DecidableEq, Repr

/-- What a parked or stalled hart waits for (R131), with what its completion needs. -/
inductive Wait where
  /-- Nothing: the hart is not waiting. -/
  | none
  /-- `mbput` on full mailbox n, with the value to write (R85). -/
  | mbput (n : Nat) (v : BitVec 64)
  /-- `mbget` on empty mailbox n into gd (R85). -/
  | mbget (n : Nat) (d : BitVec 5)
  /-- `ldf.d`/`ste.d` on the word at this GPA and virtual address; not recorded means the timed retry of R121 point 3 runs. -/
  | fullEmpty (gpa : Nat) (va : BitVec 64) (recorded : Bool)
  /-- `bwait` on the barrier object at this GPA, gd named (R101, R360). -/
  | barrier (gpa : Nat) (d : BitVec 5)
  /-- `barw` on wire set w (0 row, 1 column, 2 die), gd named (R268). -/
  | wires (w : Nat) (d : BitVec 5)
  /-- `park` (R269). -/
  | park
  /-- `waitt`, or a copy whose token is busy: the tokens in the mask (R94, R95). -/
  | tokens (mask : BitVec 8)
  /-- A release, fence or phase at this scope with probes or counts outstanding (R200). -/
  | release (scope : BitVec 3)
  /-- A range edit until the accesses of its core are performed (R39, R273). -/
  | drain
  /-- A locked range found at this virtual address (R45). -/
  | lock (va : BitVec 64)
  /-- A miss found while EDIT = 1 at this virtual address (R31). -/
  | header (va : BitVec 64)
  /-- A range edit that found EDIT = 1 (R36). -/
  | edit
  /-- A full copy-engine, collective-engine or walker queue (R86, R68). -/
  | queue
  /-- An invalidation or RCCTL.DROP whose drop requests are outstanding, by packet id (R39, R34). -/
  | inval (id : Nat)
  /-- `spawn` awaiting its answer, gd named (R389). -/
  | spawn (d : BitVec 5)
  /-- A fifth `send` awaiting a place (R393). -/
  | sendSlot
  /-- A `fence` until every earlier message is placed or dropped (R200). -/
  | messages
  /-- `suspend` or `emit` on a full stage queue (R390, R391). -/
  | stageQueue
  /-- An `AM*`, a `.c` load or a barrier query whose reply is on its way (R256, R213). -/
  | reply (id : Nat)
  /-- A token request of the core for a cached-coherent line (R63). -/
  | tokenReq (id : Nat)
  /-- A write of CTXJOB.JOB awaiting its conditions (R363). -/
  | jobWrite
  /-- `migrate` of this core until the move ends (R418). -/
  | migrate (src : Nat)
  /-- A walker instruction with gd = 0 until its pieces are done (R278). -/
  | walker (group : Nat)
  /-- The settled vector context (R134, R200). -/
  | settle
  /-- `waycfg` until its change has been made (R127, R276). -/
  | ways
  /-- `larm` until the distributor has read the record's register blocks (R372, R395). -/
  | arm
  /-- A block-port instruction the port is performing: 0 `gadd`, 1 `gelim`, 2 `gdamp`, its operands, the blocks of A and B read so far and the
  blocks of D still to write (R348). -/
  | port (op : Fin 3) (a b d : BitVec 64) (reads writes : List (BitVec 512))
  /-- A gang follower's slot (R144); whether it held a hart when the gang formed. -/
  | follower (busy : Bool)
deriving DecidableEq, Repr

/-- One frame of the inline stack: return address and destination (R389, R409). -/
structure Frame where
  ret : BitVec 48
  d : BitVec 5
deriving DecidableEq, Repr

/-- One destination of the recent-write record of R59. -/
structure Recent where
  /-- Set when a write leaves towards the destination. -/
  bit : Bool
  /-- Unacknowledged writes towards it. -/
  out : Nat
  /-- Countdown, in s-cycles. -/
  count : Nat
deriving DecidableEq, Repr

/-- A hart slot (R130, R136, R147, R148). -/
structure Hart where
  /-- R131 -/
  st : HState
  /-- The state a FROZEN or HALTED hart returns to (R131, R436). -/
  back : HState
  wait : Wait
  /-- The model's own: the clock at which the hart began to wait (R85's order of parking, R269, R268). -/
  since : Nat
  /-- PC (R136), bit 0 is 0. -/
  pc : BitVec 48
  g : Vector (BitVec 64) 32
  ox : Vector (BitVec 64) 8
  fstat : BitVec 64
  tsmask : BitVec 64
  txmask : BitVec 64
  /-- The list of up to 8 devices of R198. -/
  fab : List (BitVec 8)
  /-- More than 8 devices were recorded (R199). -/
  fabMany : Bool
  bwto : BitVec 64
  geps : BitVec 64
  feretry : BitVec 64
  /-- The FERETRY count (R121). -/
  feCount : Nat
  xpc : BitVec 64
  xcause : BitVec 64
  xval : BitVec 64
  xstat : BitVec 64
  xbase : BitVec 64
  xscratch : BitVec 64
  xconv : BitVec 64
  xcpc : Vector (BitVec 64) 7
  dstep : BitVec 64
  dconv : BitVec 64
  /-- The place in a replay (R401): 0 while the command at XPC is awaited, 9 while the command a halted hart stopped at is, k + 1 after k
  members. -/
  replayed : Nat
  /-- The held error acknowledgement: virtual address (or device) of the oldest failed store (R201). -/
  errAck : Option (BitVec 64)
  /-- Number of the packet that store left as: what tells the oldest (R73). -/
  errId : Nat
  /-- Unacknowledged bank writes (R198). -/
  bankOut : Nat
  /-- Writes awaiting tokens (R198). -/
  tokOut : Nat
  /-- Recent-write record (R59): 0-63 slices, 64-71 columns, 72 other devices, 73 host. -/
  recent : Tab Recent
  /-- Inline stack, innermost first (R389). -/
  frames : List Frame
  /-- The record the slot runs: present, unit and origin (R382, R383). -/
  hasRec : Bool
  unit : BitVec 32
  lrec : BitVec 12
  stage : BitVec 3
  /-- Latch of park events (R269). -/
  latch : BitVec 4
  /-- Remaining time-out of `park`, `barw` or a timed retry; none when there is none (R269, R268, R121). -/
  timer : Option Nat
  /-- Messages placed nowhere yet (R393). -/
  msgsOut : Nat
  /-- Target logical cores of dropped messages not yet reported, oldest first (R393). -/
  dropped : List (BitVec 20)
  /-- Probes outstanding of the release in progress, and whether they have been sent (R199). -/
  probes : Nat
  probed : Bool
  /-- A device that the release in progress found no route to: the error acknowledgement it counts as (R199). -/
  unsent : Option (BitVec 64)
  /-- The release in progress has completed and its instruction goes on at its re-issue (the model's own). -/
  released : Bool
  /-- Address of the head of the step unit under way (R426). -/
  stepHead : Option (BitVec 48)
  /-- The instruction of that unit has completed or trapped. -/
  stepDone : Bool
  /-- Resumed by the debug module for one step unit, at whose end the hart halts (R436). -/
  dbgStep : Bool
  /-- Stepped by the debug module during this night: its packets pass the held routers (R436). -/
  stepped : Bool
  /-- Watch region with ACT = 1 while a convoy stops: the members to be matched when the hart goes on, without an X register written: XCONV,
  then the addresses (R400, R422). -/
  shadow : Option (BitVec 64 × List (BitVec 64))
  /-- The model's own: instructions of the slot counted in INSTRET, as a checkpoint takes them back (R147, R399). -/
  counted : Nat
  /-- The model's own: failed retransmissions of a beat of the access that the hart performs in one step (R71); 9 once it is lost. -/
  beats : Nat
deriving DecidableEq, Repr

/-- A range descriptor as four words (R24). -/
structure RDesc where
  w0 : BitVec 64
  w1 : BitVec 64
  w2 : BitVec 64
  w3 : BitVec 64
deriving DecidableEq, Repr

/-- A range-cache entry (R32). -/
structure REntry where
  job : BitVec 32
  desc : RDesc
deriving DecidableEq, Repr

/-- A line of a core's cache ways (R61, R119). -/
structure CWLine where
  /-- Line number: GPA div 64. -/
  line : Nat
  /-- The cache way that holds it (R119). -/
  way : Nat
  tokens : Nat
  owner : Bool
  dirty : Bool
  data : BitVec 512
deriving DecidableEq, Repr

/-- A message (R387). -/
structure Msg where
  handler : BitVec 64
  w : Vector (BitVec 64) 4
  cls : BitVec 2
  sender : BitVec 64
deriving DecidableEq, Repr

/-- Operations performed at the owner (R255, R258). -/
inductive AmOp where
  | add | swap | cas | and | or | xor | min | max | minn | maxn | fadd | fmin | fmax
deriving DecidableEq, Repr

/-- What a store or reduction in the write queue does (R196).  The elements of one vector store that lie in one 64-byte line form one
entry: the bits of the line it writes, and their values (R322). -/
inductive WKind where
  | store | red (op : AmOp)
  | vec (mask data : BitVec 512)
deriving DecidableEq, Repr

/-- An entry of the write queue (R196). -/
structure WEntry where
  slot : Fin 8
  kind : WKind
  gpa : Nat
  va : BitVec 64
  n : Nat
  data : BitVec 64
  /-- Served at the home without collecting tokens: `.nc`, bypass class (R65, R252). -/
  nc : Bool
deriving DecidableEq, Repr

/-- A waiter of a bank's full/empty word (R121). -/
structure Waiter where
  word : Nat
  core : Nat
  slot : Fin 8
deriving DecidableEq, Repr

/-- The scalar checkpoint of an unsettled vector command (R399). -/
structure Check where
  pc : BitVec 48
  g : Vector (BitVec 64) 32
  ox : Vector (BitVec 64) 8
  fstat : BitVec 64
  /-- The slot's instructions that INSTRET had counted (R147). -/
  counted : Nat
deriving DecidableEq, Repr

/-- The operations of the vector instructions of majors 0x20 to 0x2A (R291 to R302, R307, R313, R319). -/
inductive VOp where
  | add | sub | rsub | mul | mulh | div | rem | min | max | sadd | ssub | id | popc | view
  | and | or | xor | andn | not | shl | shr | sra
  | seq | sne | slt | sle | sgt | sge | mand | mor | mxor | mandn
  | merge | mv | mvxs
  | fadd | fsub | frsub | fmul | fdiv | frdiv | fsqrt | fmin | fmax | fsgn | fsgnn | fsgnx | fclass
  | feq | fne | flt | fle | fgt | fge
  | wcvt | ncvt | nclip | fwcvt | fncvt | ftoi | ftoin | itof | intof | cvtF4
  | rng | seed
  | ld | st | lds | sts | ldx | stx | ldsp | stsp
  | redsum | redmin | redmax | redand | redor | redxor | fredsum | fredmin | fredmax | redmini | redmaxi
  | tree | ftree | treeseg | ftreeseg | segsum | segmin | segmax | fsegsum | fsegmin | fsegmax
  | slideup | slidedown | slide1up | slide1down | gather | compress | expand | bcast | mrot
deriving DecidableEq, Repr

/-- A vector command in the convoy (R181 to R183), with what it captured at issue (R281). -/
structure VCmd where
  op : VOp
  /-- The second operand is the scalar x (a `.vx` form). -/
  sc : Bool
  vd : BitVec 5
  vs2 : BitVec 5
  vs1 : BitVec 5
  m : Bool
  /-- Length of the replicated segment, 0 when vs2 is not replicated (R224). -/
  rep : Nat
  /-- Segment length, index width, or transposition, as the operation has one. -/
  k : Nat
  word : BitVec 64
  pc : BitVec 48
  /-- g(vs1) and g(vs2) at issue. -/
  x : BitVec 64
  y : BitVec 64
  vl : Nat
  vstart : Nat
  vtype : BitVec 64
  check : Check
  /-- The next element to perform, and whether the command has begun (R183). -/
  next : Nat
  began : Bool
  /-- The command has completed; it stays in the convoy until that ends. -/
  finished : Bool
  /-- It has performed an element (R140, R289). -/
  performed : Bool
  /-- The small gather under way for it, by packet id, and the elements that gathers brought, by GPA; no value where the element met an error
  (R54, R73). -/
  gather : Option Nat
  gathered : List (Nat × Option (BitVec 64))
  /-- What is read before it is used: the replicated segment (R224), the block scales of `vldsp` (R327), or, for `vstsp` into a block-scaled
  format, the elements and draws of the passes so far (R328). -/
  seg : List (BitVec 64)
  /-- The 64-byte blocks of its bank, by number, that `vldsp` has read, or that `vstsp` is to write: the bits, and their values (R329). -/
  blocks : Tab (BitVec 512 × BitVec 512)
  /-- The bank the member is aimed at (R320). -/
  bank : Option Nat
  /-- What a sample record counts (R440): CYC at issue, lines, ranges, range-cache misses. -/
  cyc : BitVec 64
  lines : List Nat
  rngs : List Nat
  misses : Nat
  /-- Slice conflicts, and the clock of its first request (R440). -/
  conflicts : Nat
  firstReq : Option Nat
deriving DecidableEq, Repr

/-- One operand of a dense-tile command as its buffer holds it (R187): the BFMT word and, per row, 384 bytes and the scale bytes. -/
structure DtuBuf where
  bfmt : BitVec 64
  rows : List (BitVec 3072)
  scales : List (List (BitVec 8))
deriving DecidableEq, Repr

/-- A `mopa` or `mopa.sc` in the DTU (R187, R341, R342): its descriptors, the scale exponent, the codes checked at issue, and the
operand buffers as far as they are filled. -/
structure DtuOp where
  word : BitVec 64
  da : BitVec 64
  db : BitVec 64
  q : Option (BitVec 8)
  codeA : Nat
  codeB : Nat
  a : Option DtuBuf
  b : Option DtuBuf
  full : Bool
  /-- Members of the open convoy that were issued before it (R191). -/
  after : Nat
  /-- The stop its fill met, taken when the members before it have settled (R189). -/
  stop : Option (Cause × BitVec 64)
deriving DecidableEq, Repr

/-- A merge window of a bank (R188): first row, tile size, operand role, and the cores whose requests it holds. -/
structure MWin where
  way : Nat
  row0 : Nat
  mvl : Nat
  second : Bool
  opened : Nat
  cores : List Nat
deriving DecidableEq, Repr

/-- A vector context (R132, R147). -/
structure Vec where
  bound : Bool
  slot : Fin 8
  vl : BitVec 64
  vtype : BitVec 64
  vstart : BitVec 64
  vflags : BitVec 64
  vdirty : BitVec 64
  mstat : BitVec 64
  vpi : Vector (BitVec 64) 32
  vhw : Vector (BitVec 64) 32
  /-- Register rows: key 32768 * register + lane; bit 31 - r is register row r of the lane (R126). -/
  v : Tab (BitVec 32)
  /-- acc[i][j] at key 64 i + j (R136). -/
  acc : Tab (BitVec 32)
  /-- The random states by lane; a lane not listed holds its binding value (R166). -/
  vrs : Tab (BitVec 64)
  /-- The open convoy, oldest member first (R181). -/
  convoy : List VCmd
  /-- The convoy has been ended: no command joins it (R182). -/
  ended : Bool
  /-- A member of the convoy has stopped and the earlier ones run on (R183): its place, the element and the way it stopped. -/
  stop : Option (Nat × Nat × VEnd)
  /-- The dense-tile commands in flight, the accumulating one first (R187). -/
  dtu : List DtuOp
deriving DecidableEq, Repr

/-- A change of the way configuration asked for by `waycfg` (R127, R128): the hart's slot, the new counts, and whether its steps have
begun. -/
structure WayReq where
  slot : Fin 8
  narr : Nat
  nbank : Nat
  began : Bool
deriving DecidableEq, Repr

/-- A core (R14). -/
structure Core where
  harts : Vector Hart 8
  /-- R34 -/
  rdbase : BitVec 64
  /-- Most recently used first (R32). -/
  rcache : List REntry
  mb : Vector (BitVec 64) 8
  mbFull : BitVec 8
  /-- Token states (R94): 0 idle, 1 busy, 2 error. -/
  tok : Vector (BitVec 2) 8
  /-- The address whose access stopped the token's request (R106). -/
  tokVa : Vector (BitVec 64) 8
  cstart : Vector (BitVec 64) 8
  cpc : Vector (BitVec 64) 8
  /-- L0 caches by set, most recently used first: (GPA div 64, line) (R114, R115). -/
  l0i : Tab (List (Nat × BitVec 512))
  l0d : Tab (List (Nat × BitVec 512))
  /-- L0 data lines that a copy with a chunk mask has overwritten, by mask register: an instruction that reads the register drops them
  (R99). -/
  chunkLines : List (BitVec 5 × Nat)
  narr : Nat
  nbank : Nat
  /-- Cache-way lines by set, most recently used first (R119). -/
  cw : Tab (List CWLine)
  /-- Full bits: key 32768 * way + word (R121). -/
  full : Tab Bool
  /-- Waiter tables by way (R121). -/
  waiters : Tab (List Waiter)
  /-- By way: the access the bank took last was one of its own core (R120). -/
  bankLocal : Tab Bool
  /-- Changes of the way configuration in the order their `waycfg` issued (R128). -/
  wayReqs : List WayReq
  /-- The change that its binding to a stage asks for, by NARR and NBANK, until the core is quiet (R127, R380). -/
  binding : Option (Nat × Nat)
  bfmt : Vector (BitVec 64) 16
  vec : Vec
  /-- Merge windows open at the core's banks (R188). -/
  windows : List MWin
  gangSize : BitVec 2
  gangPos : BitVec 2
  gangLeader : BitVec 8
  /-- CYC = clock - cycBase while the core is not frozen (R147). -/
  cycBase : Nat
  cycStop : Option Nat
  /-- Value CYC holds at cycBase. -/
  cycVal : BitVec 64
  instret : BitVec 64
  speccnt : BitVec 64
  ctxjob : BitVec 64
  ctxlc : BitVec 64
  /-- A held write of CTXJOB and the hart that parks for it, if a hart wrote it (R363). -/
  jobWrite : Option (BitVec 64 × Option (Fin 8))
  /-- The message ring: one list per class, oldest first (R387). -/
  ring : Vector (List Msg) 4
  wq : List WEntry
  /-- The core's s-cycles since slot 6, the copy hart, last issued, as far as R386 counts them. -/
  sinceCopy : Nat
  /-- The slot that last won the round robin (R386). -/
  rr : Fin 8
  dbgctl : BitVec 64
  dbpa : Vector (BitVec 64) 4
  dbpc : Vector (BitVec 64) 4
  smpctl : BitVec 64
  smpbase : BitVec 64
  /-- The sampling counter (R439), and whether the next completing instruction is sampled. -/
  smpCount : Nat
  smpArmed : Bool
  /-- Arrival latches and generations of the row, column and die wires (R267). -/
  latchSet : BitVec 3
  /-- By wire set: a `barw` of the core timed out and its generation has completed since (R268). -/
  latchDone : BitVec 3
  /-- Bound to a stage (R380): launch record and stage stand in CTXJOB. -/
  bound : Bool
  /-- Marked to move to this stage by the balancer (R385). -/
  marked : Option (BitVec 3)
  svarea : BitVec 64
  svctl : BitVec 64
  /-- Row cluster unloaded by the instrument network (R438). -/
  unloaded : Bool
  /-- A wave is on its way to the core (R428). -/
  wave : Bool
  /-- Frozen by Nightfall (R429). -/
  night : Bool
deriving DecidableEq, Repr

/-- A copy or collective request (R87, R109). -/
structure CReq where
  id : Nat
  core : Nat
  job : BitVec 32
  /-- RDBASE when the request was issued (R41). -/
  dir : BitVec 64
  user : Bool
  /-- 0 COPY, 1 COPY2D, 2 COPYGATH, 3 COPYSCAT, 4 COPYT, 5 CREDUCE, 6 CBCAST. -/
  kind : Nat
  src : BitVec 64
  dst : BitVec 64
  len : Nat
  rows : Nat
  rowb : Nat
  sstride : BitVec 64
  dstride : BitVec 64
  list : BitVec 64
  wide : Bool
  nrows : Nat
  swz : Bool
  tok : Fin 8
  waitMask : BitVec 8
  bar : BitVec 64
  /-- .M: chunk code and mask register. -/
  mask : Option (BitVec 3 × BitVec 5)
  z : Bool
  /-- The destination line a `.z` copy is assembling: bytes so far, and their value (R112). -/
  zn : Nat
  zv : Nat
  /-- The column its bytes come from, and a GPA that names where it goes. -/
  zfrom : Nat
  zgpa : Nat
  vreg : BitVec 5
  /-- VTYPE in force when the request began (R353). -/
  vt : BitVec 64
  /-- GLANES and LANES when the request began: the places of a column's elements (R125, R137, R354). -/
  glanes : Nat
  lanes : Nat
  /-- BFMT of a formatted source bank of `copyt` and its scale bytes by row, read when the request began (R353). -/
  fmt : Option (BitVec 64)
  scales : List (List (BitVec 8))
  pc : BitVec 48
  /-- The next element (R107), and how many there are. -/
  next : Nat
  total : Nat
  /-- The collective group's record GPA and rank; OP, TYPE, FLAGS and COUNT of the record (R109). -/
  group : BitVec 64
  rank : Nat
  op : Nat
  ty : Nat
  rootOnly : Bool
  count : Nat
  /-- The result of the round and how much of it is written (R110). -/
  result : Option (List (BitVec 64))
  wrote : Nat
  /-- The request's own range-cache entries (R41). -/
  rc : List REntry
  begun : Bool
  /-- Every element transferred; its barrier contribution may still be on its way (R94). -/
  done : Bool
  /-- It has stopped at this address with this cause (R105, R106); its token enters ERROR when what it has credited is performed (R441). -/
  failed : Option (Cause × BitVec 64)
deriving DecidableEq, Repr

/-- A contribution to a collective round at its home engine (R109, R110): the elements sent so far. -/
structure Contrib where
  group : BitVec 64
  rank : Nat
  req : Nat
  data : List (BitVec 64)
  complete : Bool
  /-- A result kept for a participant that stopped while its destination was written, and the elements that are (R105, R111). -/
  kept : Bool
  elem : Nat
deriving DecidableEq, Repr

/-- A piece of the cache walker (R68). -/
structure WPiece where
  core : Nat
  slot : Fin 8
  group : Nat
  inv : Bool
  /-- Target span, GPAs. -/
  first : Nat
  last : Nat
  cached : Bool
  /-- The range-cache entry it was translated under (R41). -/
  entry : REntry
  bar : BitVec 64
  err : Bool
deriving DecidableEq, Repr

/-- A barrier object (R100). -/
structure BarObj where
  pend : BitVec 64
  init : BitVec 64
  gen : BitVec 32
  mode : BitVec 8
  status : BitVec 8
  oorcnt : BitVec 32
  errcnt : BitVec 32
deriving DecidableEq, Repr

/-- A forwarding entry (R419). -/
structure Fwd where
  job : BitVec 32
  src : Nat
  dst : Nat
deriving DecidableEq, Repr

/-- A column (R11): service die, DRAM and registers. -/
structure Column where
  /-- Slice tags by key 512 * slice + set, most recently used first: (line, dirty) (R52). -/
  slices : Tab (List (Nat × Bool))
  /-- DRAM lines (OFF div 64) with an uncorrectable error, and with a correctable one (R71, R72). -/
  bad : List Nat
  soft : List Nat
  /-- Lines whose copy in the slice has an uncorrectable error, and a correctable one (R71). -/
  sliceBad : List Nat
  sliceSoft : List Nat
  /-- By slice: the port that won last (R53). -/
  slicePort : Tab Nat
  /-- Holder hints by line (R63). -/
  hint : Tab (List Nat)
  /-- Persistent requests in arrival order: (line, core, slot); the first four of different lines are active (R64). -/
  persist : List (Nat × Nat × Nat)
  bars : Tab BarObj
  /-- Copy engines: queued and active requests of engine e (R86), round-robin place. -/
  eng : Vector (List CReq) 16
  engNext : Vector Nat 16
  cebytes : Vector (BitVec 64) 16
  cereqs : Vector (BitVec 64) 16
  /-- Collective engines: the requests queued there and the contributions of the open rounds (R109). -/
  coll : Vector (List CReq) 2
  contribs : Vector (List Contrib) 2
  clelems : Vector (BitVec 64) 2
  czin : Vector (BitVec 64) 2
  czout : Vector (BitVec 64) 2
  walker : List WPiece
  cmpdir : BitVec 64
  cmpva : BitVec 64
  cmptgt : BitVec 64
  cmpbar : BitVec 64
  /-- CMPCTL: BUSY and STATUS; GO reads 0 (R43). -/
  cmpctl : BitVec 64
  /-- Step of the move in progress, 0 none, 1 to 5 (R44), and the blocks copied. -/
  cmpStep : Nat
  cmpErr : Bool
  /-- Block number of the range's old target (R44). -/
  cmpOld : Nat
  errinfo : BitVec 64
  erraddr : BitVec 64
  cecnt : BitVec 64
  /-- Fuse bank: free slots and repairs loaded (R75, R79). -/
  vbstat : BitVec 64
  vbctl : BitVec 64
  layerctl : BitVec 64
  /-- A REQ written during a transition (R80). -/
  layerNext : Option Bool
  therm : Vector (BitVec 64) 13
  thermctl : BitVec 64
  /-- Sixteenths of the full clock rate (R469). -/
  clk16 : Nat
  /-- Held in reset after a trip (R468). -/
  tripped : Bool
  route : Tab (BitVec 64)
  joblct : Vector (BitVec 64) 16
  lctbase : Vector (BitVec 64) 16
  /-- Cached logical-core entries: (job, lcore, entry) (R462). -/
  lctCache : List (BitVec 32 × Nat × BitVec 64)
  fwd : List Fwd
  /-- Rows unloaded (R438). -/
  unloaded : BitVec 16
  /-- The router holds the packets of the frozen job (R429). -/
  hold : Bool
  /-- VWSEL of the column's debug module (R436). -/
  vwsel : BitVec 64
  /-- The model's own: failed retransmissions of a beat of what an engine transfers, by engine, the collective engines from 16 on (R71). -/
  beats : Tab Nat
  /-- The last abstract command's data and cmderr (R436). -/
  ddata : BitVec 64
  cmderr : BitVec 3
deriving DecidableEq, Repr

/-- What a request in flight carries. -/
inductive PKind where
  | store (n : Nat) (data : BitVec 64) (nc : Bool)
  /-- The elements of a vector store in one line (R322). -/
  | vstore (mask data : BitVec 512)
  | red (op : AmOp) (n : Nat) (x : BitVec 64)
  | am (op : AmOp) (n : Nat) (x e : BitVec 64) (d : BitVec 5)
  | loadC (n : Nat) (sext : Bool) (d : BitVec 5)
  | probe (scope : BitVec 3)
  | msg (m : Msg) (lcore : BitVec 20) (refusals : Nat)
  | spawn (pc : BitVec 48) (w : Vector (BitVec 64) 4) (lcore : BitVec 20) (d : BitVec 5)
  | spawnAnswer (d : BitVec 5) (status : BitVec 64) (inline : Bool) (pc : BitVec 48)
  /-- A drop request: span first to last, the cores and the engine columns still to acknowledge (R39). -/
  | drop (first last : Nat) (scope : BitVec 3) (cores : List Nat) (cols : List Nat)
  | barInit (v : BitVec 64) (kind auto : Bool)
  /-- Bytes credited, and out-of-range rows delivered with them (R91, R101). -/
  | barCredit (n oor : Nat)
  | barArrive
  | barErrArrive
  | barQuery (d : BitVec 5) (word : Nat)
  /-- A core's transient read of a line for an ordinary load (R63). -/
  | tokRead
  /-- A small gather of elements of n bytes at these GPAs of one slice, and its packed reply: by GPA, no value for an element that met an
  error (R54, R73). -/
  | gather (n : Nat) (els : List Nat)
  | gathered (els : List (Nat × Option (BitVec 64)))
deriving DecidableEq, Repr

/-- Where a request is. -/
inductive PLoc where
  /-- Waiting in the stage-j switch of its column's omega network, j = 1 to 8 (R56). -/
  | omega (stage : Nat)
  /-- At the router of its column (R462). -/
  | router
  /-- In the queue of its slice, bank or barrier unit (R53, R120, R55). -/
  | queued
  /-- On the reply network before stage j, counted down to 0 (R56). -/
  | reply (stage : Nat)
  /-- Performed; the acknowledgement is on its way (R192). -/
  | ack
  /-- Combined into another request at a stage, with the amount its reply adds (R60). -/
  | merged (into stage : Nat) (add : BitVec 64)
  /-- Sharing the reply of another `.c` load at a stage (R212). -/
  | shared (into stage : Nat)
  /-- On the service mesh (R57). -/
  | mesh
  /-- Refused; to be retried (R393). -/
  | retry
  /-- Sent to another device, whose answer has not come (R393). -/
  | away
  /-- Awaiting tokens; the number of failures so far (R64). -/
  | tokens (fails : Nat)
deriving DecidableEq, Repr

/-- A request in flight (R56, R57). -/
structure Pkt where
  id : Nat
  core : Nat
  slot : Fin 8
  job : BitVec 32
  kind : PKind
  gpa : Nat
  va : BitVec 64
  loc : PLoc
  born : Nat
  /-- The request asks for a reply value, and the value once read (R60). -/
  wants : Bool
  val : BitVec 64
  /-- The error the acknowledgement carries (R73). -/
  err : Bool
  /-- Combinable (R58, R59). -/
  comb : Bool
  /-- Performed as a coherent access, collecting tokens (R65, R194). -/
  coh : Bool
  /-- Failed retransmissions of its beat (R71). -/
  beats : Nat
deriving DecidableEq, Repr

/-- A reply entry of a switch (R212). -/
structure REnt where
  col : Nat
  stage : Nat
  switch : Nat
  out : Bool
  gpa : Nat
  n : Nat
  pkt : Nat
  opened : Nat
deriving DecidableEq, Repr

/-- The distributor's own state of a launch record (R368, R373). -/
structure LRec where
  status : BitVec 16
  /-- The 256-byte snapshot taken at arming, as 32 words (R374). -/
  snap : Vector (BitVec 64) 32
  /-- The register blocks of the stages, read at arming: stage * 32 + word (R372). -/
  regs : Tab (BitVec 64)
  prio : BitVec 8
  selprio : BitVec 8
  seq : BitVec 64
  /-- Decisions since it became READY (R377). -/
  waited : Nat
  issued : Nat
  live : Nat
  /-- The contexts whose entries named it since it was last at rest (R366). -/
  ctxs : List Nat
  /-- Stage queues: continuation records, oldest first, and how many each has taken since arming (R381). -/
  queues : Vector (List (Vector (BitVec 64) 8)) 8
  pushed : Vector Nat 8
deriving DecidableEq, Repr

/-- A job entry of the distributor (R368). -/
structure JobEnt where
  job : BitVec 32
  pool : BitVec 64
  pooln : Nat
  qarea : BitVec 64
  rdir : BitVec 64
  recs : Tab LRec
  /-- Range cache for register blocks (R372). -/
  rcache : List REntry
deriving DecidableEq, Repr

/-- A host queue context (R364, R366). -/
structure QCtx where
  resident : Bool
  /-- The image while resident, and the committed HEAD. -/
  job : BitVec 32
  pool : BitVec 64
  pooln : Nat
  qarea : BitVec 64
  ring : BitVec 64
  ringn : Nat
  tail : BitVec 64
  head : BitVec 64
  rdir : BitVec 64
  bad : Bool
  loadReq : Bool
  qirq : BitVec 64
  /-- Clock of the last consumption (R368). -/
  used : Nat
  /-- A switch of the context is in progress: out while it is resident, in otherwise (R366, R369). -/
  switching : Bool
  /-- Writes of QTAIL that wait for the end of a switch-out, oldest first (R369). -/
  tails : List (BitVec 64)
deriving DecidableEq, Repr

/-- The distributor (R362 to R385). -/
structure Dist where
  dqbase : BitVec 64
  ctxs : Tab QCtx
  jobs : List JobEnt
  seq : BitVec 64
deriving DecidableEq, Repr

/-- Nightfall registers and progress (R427 to R435). -/
structure Night where
  nfstat : BitVec 64
  nfcause : BitVec 64
  nfctl : BitVec 64
  /-- Devices whose acknowledgement of the running Daybreak step is outstanding, and whether this device coordinates. -/
  coord : Bool
  acks : List (BitVec 8)
  /-- The device that coordinates, and whether the acknowledgement of step 1 to it awaits SETTLED (R433). -/
  leader : BitVec 8
  ackDue : Bool
  /-- Engines, distributor and balancer stopped (R429). -/
  engines : Bool
  /-- Ports grant no allowances (R429). -/
  ports : Bool
  /-- A wave reached the device during a Daybreak (R435). -/
  again : Bool
deriving DecidableEq, Repr

/-- A control flit (R459): a capability flit (R460), a Nightfall flit (R428, R430), a Daybreak step to a device, or the acknowledgement of one
(R433). -/
inductive Flit where
  | capability (major minor : BitVec 8) (feat : BitVec 16) (dev : BitVec 8)
  | night (job key : BitVec 32) (cause : BitVec 8)
  | step (dev : BitVec 8) (job : BitVec 32) (k : BitVec 2)
  | stepAck (dev : BitVec 8) (job : BitVec 32) (k : BitVec 2)
deriving DecidableEq, Repr

/-- Fabric ports (R459 to R461). -/
structure Fabric where
  dev : BitVec 8
  enable : BitVec 16
  tflstat : Vector (BitVec 64) 16
  /-- Send allowances: port * 4 + class (R459). -/
  allow : Tab Nat
  /-- Ports in training: capability flit sent (R460). -/
  training : BitVec 16
  /-- Control flits sent, with their ports, newest first. -/
  sent : List (Nat × Flit)
deriving DecidableEq, Repr

/-- Boot controller, management mailbox and MSI-X (R463 to R467). -/
structure Boot where
  /-- 512-bit measurement registers. -/
  meas0 : BitVec 512
  meas1 : BitVec 512
  /-- The versions of the firmware stages that were verified at this start (R463, R464). -/
  ver1 : BitVec 64
  ver2 : BitVec 64
  /-- Fused: digest of the public key, seed, minimum versions of the stages. -/
  keyDigest : BitVec 256
  seed : BitVec 256
  minVer1 : BitVec 64
  minVer2 : BitVec 64
  /-- The boot store: images 1 and 2 as bytes, with their versions and signatures. -/
  image1 : List (BitVec 8)
  image2 : List (BitVec 8)
  /-- Chunks received since the last FIRST, per image (R465). -/
  part1 : List (BitVec 8)
  part2 : List (BitVec 8)
  fails : BitVec 2
  bootwhy : BitVec 4
  minimal : Bool
  /-- The start is under way: OK not yet written (R463). -/
  starting : Bool
  /-- Next step of R463, 1 to 6. -/
  step : Nat
  /-- Clock of power-on. -/
  on : Nat
  /-- RSTCTL.BUSY, and the columns of the warm reset asked for (R467). -/
  rstBusy : Bool
  rstCols : BitVec 8
  intstat : BitVec 8
  /-- MSI-X per-vector mask, function mask and pending bits (R466), and the messages sent, newest first. -/
  msixMask : BitVec 64
  msixFun : Bool
  msixPend : BitVec 64
  msixSent : List Nat
  mbxcmd : BitVec 64
  /-- MBXCMD as it stood when the command that runs was started (R465). -/
  mbxRun : BitVec 64
  mbxsts : BitVec 64
  mbxwin : BitVec 64
  /-- ARG and RESP bytes (R465). -/
  arg : Tab (BitVec 8)
  resp : List (BitVec 8)
  /-- The data response of the host's last CXL.mem read, and its poison indication (R73, R457). -/
  cxlData : List (BitVec 8)
  cxlPoison : Bool
  /-- The completion of the host's last BAR access: the data of a read, 0 for a write; none is the unsupported-request status (R456). -/
  barData : Option (BitVec 64)
  /-- CXL.mem and CXL.io writes of the device to host memory whose completions have not come (R458), as packet ids and their harts. -/
  hostWrites : List (Nat × Nat × Fin 8)
deriving DecidableEq, Repr

/-- Who moves next (the model's own: the environment's choice as data). -/
inductive Act where
  | core (c : Fin 2048)
  /-- A parked slot looks whether its instruction can complete. -/
  | look (c : Fin 2048) (k : Fin 8)
  | ev (i : Instr)
  | tick (n : Nat)
deriving DecidableEq, Repr

/-- The machine: the whole package (R9 to R15). -/
structure State where
  /-- Cores by package core number; a core not listed is as after reset (R12). -/
  cores : Tab Core
  cols : Vector Column 8
  /-- Memory by 56-bit GPA: DRAM of every device, scratchpad banks, host memory (R18, R20). -/
  mem : List Host.Cell
  /-- Full/empty words of other devices' banks by GPA div 8, and the waiters at them by GPA div 2^18 (R19, R121). -/
  farFull : Tab Bool
  farWaiters : Tab (List Waiter)
  /-- Barrier objects of other devices by GPA div 64 (R19, R100). -/
  farBars : Tab BarObj
  net : List Pkt
  entries : List REnt
  dist : Dist
  fabric : Fabric
  night : Night
  boot : Boot
  /-- The hart exec acts for. -/
  curCore : Fin 2048
  curSlot : Fin 8
  /-- s-cycles since power-on (R5). -/
  clock : Nat
  /-- The model's own: the environment's choices still to take. -/
  agenda : List Act
  /-- The model's own: whether the next default step is a background event, and the core that issued last. -/
  turn : Bool
  lastCore : Nat
  nextId : Nat
  /-- The model's own: index of the next free value. -/
  freeIdx : Nat
  /-- The model's own: whether atomics, `.c` loads, barrier queries and block-port accesses travel on their own. -/
  split : Bool
  /-- The model's own: whether vector and dense-tile commands are queued and run pass by pass. -/
  vqueue : Bool
deriving DecidableEq, Repr

/-- A hart after cold reset (R4, R147, R148). -/
def Hart.reset : Hart where
  st := .idle
  back := .idle
  wait := .none
  since := 0
  pc := 0
  g := Vector.replicate 32 0
  ox := Vector.replicate 8 0
  fstat := 0
  tsmask := 0
  txmask := 0
  fab := []
  fabMany := false
  bwto := 65536
  geps := 0x34000000
  feretry := 1024
  feCount := 0
  xpc := 0
  xcause := 0
  xval := 0
  xstat := 1
  xbase := 0
  xscratch := 0
  xconv := 0
  xcpc := Vector.replicate 7 0
  dstep := 0
  dconv := 0
  replayed := 0
  errAck := none
  errId := 0
  bankOut := 0
  tokOut := 0
  recent := []
  frames := []
  hasRec := false
  unit := 0
  lrec := 0
  stage := 0
  latch := 0
  timer := none
  msgsOut := 0
  dropped := []
  probes := 0
  probed := false
  unsent := none
  released := false
  stepHead := none
  stepDone := false
  dbgStep := false
  stepped := false
  shadow := none
  counted := 0
  beats := 0

/-- A vector context after cold reset (R77, R147): unbound, VTYPE.ILL = 1. -/
def Vec.reset : Vec where
  bound := false
  slot := 0
  vl := 0
  vtype := 0x8000000000000000
  vstart := 0
  vflags := 0
  vdirty := 0
  mstat := 0
  vpi := Vector.replicate 32 0
  vhw := Vector.replicate 32 0
  v := []
  acc := []
  vrs := []
  convoy := []
  ended := false
  stop := none
  dtu := []

/-- A core after cold reset (R4, R77, R118). -/
def Core.reset : Core where
  harts := Vector.replicate 8 Hart.reset
  rdbase := 0
  rcache := []
  mb := Vector.replicate 8 0
  mbFull := 0
  tok := Vector.replicate 8 0
  tokVa := Vector.replicate 8 0
  cstart := Vector.replicate 8 0
  cpc := Vector.replicate 8 0
  l0i := []
  l0d := []
  chunkLines := []
  narr := 0
  nbank := 0
  cw := []
  full := []
  waiters := []
  bankLocal := []
  wayReqs := []
  binding := none
  bfmt := Vector.replicate 16 0x1F
  vec := Vec.reset
  windows := []
  gangSize := 0
  gangPos := 0
  gangLeader := 0
  cycBase := 0
  cycStop := none
  cycVal := 0
  instret := 0
  speccnt := 0
  ctxjob := 0
  ctxlc := 0
  jobWrite := none
  ring := Vector.replicate 4 []
  wq := []
  sinceCopy := 3
  rr := 6
  dbgctl := 0
  dbpa := Vector.replicate 4 0
  dbpc := Vector.replicate 4 0
  smpctl := 0
  smpbase := 0
  smpCount := 0
  smpArmed := false
  latchSet := 0
  latchDone := 0
  bound := false
  marked := none
  svarea := 0
  svctl := 0
  unloaded := false
  wave := false
  night := false

/-- A column after cold reset (R77, R79, R80, R113, R461, R469). -/
def Column.reset : Column where
  slices := []
  bad := []
  soft := []
  sliceBad := []
  sliceSoft := []
  slicePort := []
  hint := []
  persist := []
  bars := []
  eng := Vector.replicate 16 []
  engNext := Vector.replicate 16 0
  cebytes := Vector.replicate 16 0
  cereqs := Vector.replicate 16 0
  coll := Vector.replicate 2 []
  contribs := Vector.replicate 2 []
  clelems := Vector.replicate 2 0
  czin := Vector.replicate 2 0
  czout := Vector.replicate 2 0
  walker := []
  cmpdir := 0
  cmpva := 0
  cmptgt := 0
  cmpbar := 0
  cmpctl := 0
  cmpStep := 0
  cmpErr := false
  cmpOld := 0
  errinfo := 0
  erraddr := 0
  cecnt := 0
  vbstat := 0x0040000000000000
  vbctl := 0
  layerctl := 3
  layerNext := none
  therm := Vector.replicate 13 0
  thermctl := 450
  clk16 := 16
  tripped := false
  route := []
  joblct := Vector.replicate 16 0
  lctbase := Vector.replicate 16 0
  lctCache := []
  fwd := []
  unloaded := 0
  hold := false
  vwsel := 0
  beats := []
  ddata := 0
  cmderr := 0

/-- The boot controller at power-on (R463); fused and stored values that the spec does not give are zero or empty
(DESIGN CHOICE, log entry 3). -/
def Boot.reset : Boot where
  meas0 := 0
  meas1 := 0
  ver1 := 0
  ver2 := 0
  keyDigest := 0
  seed := 0
  minVer1 := 0
  minVer2 := 0
  image1 := []
  image2 := []
  part1 := []
  part2 := []
  fails := 0
  bootwhy := 0
  minimal := false
  starting := true
  step := 1
  on := 0
  rstBusy := false
  rstCols := 0
  intstat := 0
  msixMask := 0
  msixFun := false
  msixPend := 0
  msixSent := []
  mbxcmd := 0
  mbxRun := 0
  mbxsts := 0
  mbxwin := 0
  arg := []
  resp := []
  cxlData := []
  cxlPoison := false
  barData := none
  hostWrites := []

/-- The machine right after cold reset (R4, R77): every slot idle, memory with nothing listed, nothing in flight. -/
def State.reset : State where
  cores := []
  cols := Vector.replicate 8 Column.reset
  mem := []
  farFull := []
  farWaiters := []
  farBars := []
  net := []
  entries := []
  dist := { dqbase := 0, ctxs := [], jobs := [], seq := 0 }
  fabric := { dev := 0, enable := 0xFFFF, tflstat := Vector.replicate 16 0, allow := [], training := 0, sent := [] }
  night := { nfstat := 0, nfcause := 0, nfctl := 0, coord := false, acks := [], leader := 0, ackDue := false, engines := false, ports := false, again := false }
  boot := Boot.reset
  curCore := 0
  curSlot := 0
  clock := 0
  agenda := []
  turn := false
  lastCore := 2047
  nextId := 1
  freeIdx := 0
  split := true
  vqueue := true

end Sys2Proof.Machine
end

