-- ==== Sys2Proof/Machine/Table.lean ====
section
/-!
DEFINITION. Sparse tables and the byte memory: reading, writing, clearing, and the canonical form of memory.
-/

namespace Sys2Proof.Machine

/-- The entry at key k, or d where none is listed. -/
def tabGet {α : Type} (d : α) : Tab α → Nat → α
  | [], _ => d
  | (j, v) :: t, k => if j = k then v else tabGet d t k

/-- The table with v at key k, keys kept rising. -/
def tabPut {α : Type} : Tab α → Nat → α → Tab α
  | [], k, v => [(k, v)]
  | (j, w) :: t, k, v =>
    if k < j then (k, v) :: (j, w) :: t
    else if k = j then (k, v) :: t
    else (j, w) :: tabPut t k v

/-- The table without key k. -/
def tabDel {α : Type} (t : Tab α) (k : Nat) : Tab α := t.filter fun e => e.1 != k

/-- Whether key k is listed. -/
def tabHas {α : Type} (t : Tab α) (k : Nat) : Bool := t.any fun e => e.1 == k

/-- The table without the keys k of lo ≤ k < hi. -/
def tabClear {α : Type} (t : Tab α) (lo hi : Nat) : Tab α := t.filter fun e => e.1 < lo || hi ≤ e.1

/-- Words laid one after the other, the first at the lowest address (R1). -/
def packWords (w : Nat) : List Nat → Nat
  | [] => 0
  | x :: l => x % 2 ^ w + 2 ^ w * packWords w l

/-- A list with one more entry, before the first that it does not come after. -/
def insertBy {α : Type} (le : α → α → Bool) (a : α) : List α → List α
  | [] => [a]
  | b :: l => if le a b then a :: b :: l else b :: insertBy le a l

/-- A list in the order le, entries that tie as they stood. -/
def sortBy {α : Type} (le : α → α → Bool) : List α → List α
  | [] => []
  | a :: l => insertBy le a (sortBy le l)

/-- One byte of memory; an address not listed reads 0 (log entry 1; R77 gives zero for the way SRAM). -/
def memGet : List Host.Cell → Nat → Byte
  | [], _ => 0
  | (j, v) :: t, k => if j = k then v else memGet t k

/-- Put cell (k, v) in front of a tail, but for a zero byte, which stands for no cell. -/
def memCons (k : Nat) (v : Byte) (t : List Host.Cell) : List Host.Cell := if v = 0 then t else (k, v) :: t

/-- Memory with byte v at address k; canonical form kept: addresses strictly rising, no zero byte listed. -/
def memPut : List Host.Cell → Nat → Byte → List Host.Cell
  | [], k, v => memCons k v []
  | (j, w) :: t, k, v =>
    if k < j then memCons k v ((j, w) :: t)
    else if k = j then memCons k v t
    else (j, w) :: memPut t k v

/-- Every address of the list is above lo, strictly rising, and no byte is 0. -/
def memAbove : Option Nat → List Host.Cell → Bool
  | _, [] => true
  | lo, (j, v) :: t =>
    (match lo with
     | none => true
     | some l => decide (l < j)) && v != 0 && memAbove (some j) t

/-- The canonical form of memory. -/
def Memory.wf (m : List Host.Cell) : Bool := memAbove none m

/-- The n bytes at address a as a number, byte 0 least significant (R1). -/
def memRead (m : List Host.Cell) (a : Nat) : Nat → Nat
  | 0 => 0
  | n + 1 => (memGet m a).toNat + 256 * memRead m (a + 1) n

/-- Memory with the n low bytes of x at address a (R1). -/
def memWrite (m : List Host.Cell) (a : Nat) : Nat → Nat → List Host.Cell
  | 0, _ => m
  | n + 1, x => memWrite (memPut m a (BitVec.ofNat 8 x)) (a + 1) n (x / 256)

/-- Memory with every byte of lo ≤ address < hi zero. -/
def memClear (m : List Host.Cell) (lo hi : Nat) : List Host.Cell := m.filter fun e => e.1 < lo || hi ≤ e.1

/-- The bytes of a list written from address a on. -/
def memBytes (m : List Host.Cell) (a : Nat) : List Byte → List Host.Cell
  | [] => m
  | b :: bs => memBytes (memPut m a b) (a + 1) bs

/-- The n bytes at address a as a list. -/
def memList (m : List Host.Cell) (a : Nat) : Nat → List Byte
  | 0 => []
  | n + 1 => memGet m a :: memList m (a + 1) n

end Sys2Proof.Machine
end

