-- ==== Sys2Proof/Machine/Ops.lean ====
section
/-!
DEFINITION. Named operations over the state: cores, harts, the g registers, leaving an instruction, the cause codes, taking
a trap (R397) and a freezing trap (R427), and the return from one (R416).
-/

namespace Sys2Proof.Machine

/-! ## Cores, harts, columns -/

/-- Core c of the package (R12). -/
def coreAt (s : State) (c : Nat) : Core := tabGet Core.reset s.cores c

def setCore (s : State) (c : Nat) (v : Core) : State := { s with cores := tabPut s.cores c v }

def updCore (s : State) (c : Nat) (f : Core → Core) : State := setCore s c (f (coreAt s c))

/-- The hart in slot k of core c. -/
def hartAt (s : State) (c : Nat) (k : Fin 8) : Hart := (coreAt s c).harts.get k

def Core.setHart (c : Core) (k : Fin 8) (h : Hart) : Core := { c with harts := c.harts.set k h }

def setHart (s : State) (c : Nat) (k : Fin 8) (h : Hart) : State := updCore s c fun q => q.setHart k h

def updHart (s : State) (c : Nat) (k : Fin 8) (f : Hart → Hart) : State := setHart s c k (f (hartAt s c k))

/-- Change every hart of a core. -/
def Core.mapHarts (c : Core) (f : Fin 8 → Hart → Hart) : Core :=
  { c with harts := Vector.ofFn fun k => f k (c.harts.get k) }

def colAt (s : State) (k : Fin 8) : Column := s.cols.get k

def setCol (s : State) (k : Fin 8) (v : Column) : State := { s with cols := s.cols.set k v }

def updCol (s : State) (k : Fin 8) (f : Column → Column) : State := setCol s k (f (colAt s k))

/-- The column of a core, 256 cores each (R12). -/
def colOf (c : Nat) : Fin 8 := ⟨c / 256 % 8, Nat.mod_lt _ (by decide)⟩

/-- The mesh index of a core within its column, its row and its col (R12). -/
def idxOf (c : Nat) : Nat := c % 256
def rowOf (c : Nat) : Nat := c % 256 / 16
def meshColOf (c : Nat) : Nat := c % 16

/-! ## The issuing hart -/

/-- The core, and the hart, exec acts for. -/
def myCore (s : State) : Core := coreAt s s.curCore
def me (s : State) : Hart := hartAt s s.curCore s.curSlot

def setMe (s : State) (h : Hart) : State := setHart s s.curCore s.curSlot h
def updMe (s : State) (f : Hart → Hart) : State := setMe s (f (me s))
def updMyCore (s : State) (f : Core → Core) : State := updCore s s.curCore f

/-- Register gr of a hart: g0 reads 0 (R136). -/
def Hart.gr (h : Hart) (r : BitVec 5) : BitVec 64 := if r = 0 then 0 else h.g.get r.toFin

/-- A hart with register gr written: g0 ignores writes (R136). -/
def Hart.setG (h : Hart) (r : BitVec 5) (v : BitVec 64) : Hart :=
  if r = 0 then h else { h with g := h.g.set r.toFin v }

/-- Register gr of the issuing hart. -/
def gr (s : State) (r : BitVec 5) : BitVec 64 := (me s).gr r

def setG (s : State) (r : BitVec 5) (v : BitVec 64) : State := updMe s fun h => h.setG r v

/-- Register g(8 + k) named by a three-bit field of a 16-bit form (R227). -/
def r8 (k : BitVec 3) : BitVec 5 := 8 + k.zeroExtend 5

/-- Operand-extension register oxn (R136). -/
def Hart.oxr (h : Hart) (n : BitVec 3) : BitVec 64 := h.ox.get n.toFin
def oxr (s : State) (n : BitVec 3) : BitVec 64 := (me s).oxr n
def setOx (s : State) (n : BitVec 3) (v : BitVec 64) : State :=
  updMe s fun h => { h with ox := h.ox.set n.toFin v }

/-- The hart's PC as a 64-bit address. -/
def pc64 (s : State) : BitVec 64 := (me s).pc.zeroExtend 64

/-- Current privilege: system level (R6, R148). -/
def Hart.sys (h : Hart) : Bool := h.xstat.getLsbD 0
def isSys (s : State) : Bool := (me s).sys

/-- Job of a core: CTXJOB.JOB, 0 when unbound (R148). -/
def Core.job (c : Core) : BitVec 32 := c.ctxjob.setWidth 32
def Core.lrecIx (c : Core) : BitVec 12 := c.ctxjob.extractLsb' 36 12
def Core.stageIx (c : Core) : BitVec 3 := c.ctxjob.extractLsb' 32 3

/-- LANES = 2,048 per array way (R126), and cache ways (R117). -/
def Core.lanes (c : Core) : Nat := c.narr * 2048
def Core.ncache (c : Core) : Nat := 16 - c.narr - c.nbank

/-- The gang size G of a core: 1, 2 or 4 (R137, R147). -/
def Core.gang (q : Core) : Nat := if q.gangSize = 1 then 2 else if q.gangSize = 2 then 4 else 1

/-- The members of a core's gang, the core alone outside one (R143). -/
def gangOf (s : State) (c : Nat) : List Nat :=
  let q := coreAt s c
  if q.gang = 1 then [c] else (List.range q.gang).map fun k => 256 * (colOf c).val + q.gangLeader.toNat + k

/-- The leader of a core's gang. -/
def leaderOf (s : State) (c : Nat) : Nat :=
  let q := coreAt s c
  if q.gang = 1 then c else 256 * (colOf c).val + q.gangLeader.toNat

/-- A save of the core is under way: of it or of a member of its gang (R406, R407). -/
def saving (s : State) (c : Nat) : Bool :=
  (gangOf s c).any fun m => (coreAt s m).svctl.getLsbD 63 && (coreAt s m).svctl.getLsbD 0

/-- A hart waits in `migrate` for this core to be moved (R418). -/
def moving (s : State) (c : Nat) : Bool :=
  s.cores.any fun e => e.2.harts.toList.any fun h => h.wait == .migrate c && h.st == .parked

/-- The harts of the core come to their pre-emption points (R406 step 1, R418). -/
def stopping (s : State) (c : Nat) : Bool := saving s c || moving s c

/-- The core takes no record, child or message: it is being saved, restored or moved, or it is unloaded (R406, R418, R438). -/
def closed (s : State) (c : Nat) : Bool := (coreAt s c).svctl.getLsbD 63 || stopping s c || (coreAt s c).unloaded

/-- HARTID (R147). -/
def hartId (s : State) (c : Nat) (k : Fin 8) : BitVec 64 :=
  (s.fabric.dev.zeroExtend 64 <<< 56) ||| (BitVec.ofNat 64 ((colOf c).val) <<< 53) |||
  (BitVec.ofNat 64 (idxOf c) <<< 45) ||| (((coreAt s c).ctxlc.setWidth 20).zeroExtend 64 <<< 20) |||
  BitVec.ofNat 64 k.val

/-! ## Leaving an instruction -/

/-- A hart goes on: READY, or, while it is FROZEN or HALTED, READY once that ends (R131). -/
def Hart.goOn (h : Hart) : Hart :=
  { h with st := (if h.st = .frozen ∨ h.st = .halted then h.st else .ready), back := .ready }

/-- The state of a hart, under a stop that holds it FROZEN or HALTED. -/
def Hart.under (h : Hart) : HState := if h.st = .frozen ∨ h.st = .halted then h.back else h.st

/-- A hart's state changes; one that is FROZEN or HALTED keeps its stop and is in the new state after it (R131). -/
def Hart.become (x : HState) (h : Hart) : Hart := if h.st = .frozen ∨ h.st = .halted then { h with back := x } else { h with st := x }

/-- What a hart waits for. -/
def Hart.waiting (w : Wait) (h : Hart) : Hart := { h with wait := w }

/-- PARKED, or FROZEN or HALTED while it was (R131). -/
def Hart.isParked (h : Hart) : Bool := h.st == .parked || ((h.st == .frozen || h.st == .halted) && h.back == .parked)

/-- A hart goes on at address p. -/
def Hart.passTo (p : BitVec 48) (h : Hart) : Hart :=
  { h.goOn with pc := p, released := false, wait := .none, timer := none, stepDone := true }

/-- An instruction of a hart retires and the hart goes on at address p: INSTRET counts it (R147), and what the model keeps
of a wait is forgotten. -/
def retireAt (p : BitVec 48) (s : State) : State :=
  let s := updMe s fun h => { h.passTo p with counted := h.counted + 1 }
  updMyCore s fun c => { c with instret := c.instret + 1 }

/-- An instruction of len bytes retires. -/
def retire (len : BitVec 48) (s : State) : State := retireAt ((me s).pc + len) s

/-- gd := v and the instruction of 4 bytes retires. -/
def done4 (d : BitVec 5) (v : BitVec 64) (s : State) : State := retire 4 (setG s d v)

/-- gd := v and the instruction of 2 bytes retires (R228). -/
def done2 (d : BitVec 5) (v : BitVec 64) (s : State) : State := retire 2 (setG s d v)

/-- The issuing hart begins to wait at its instruction (R241). -/
def waitAs (st : HState) (w : Wait) (s : State) : State :=
  updMe s fun h => { h with st := st, wait := w, since := if h.wait = w then h.since else s.clock }

def park (w : Wait) (s : State) : State := waitAs .parked w s
def stall (w : Wait) (s : State) : State := waitAs .stalled w s

/-- A waiting hart is woken: it re-issues its instruction.  A hart frozen or halted meanwhile keeps its stop and will be
READY when that ends (R131). -/
def Hart.wake (h : Hart) : Hart :=
  match h.st with
  | .parked => { h with st := .ready }
  | .stalled => { h with st := .ready }
  | .frozen => if h.back = .parked ∨ h.back = .stalled then { h with back := .ready } else h
  | .halted => if h.back = .parked ∨ h.back = .stalled then { h with back := .ready } else h
  | _ => h

def wake (s : State) (c : Nat) (k : Fin 8) : State := updHart s c k Hart.wake

/-- Wake every hart of the package whose wait satisfies p. -/
def wakeAll (s : State) (p : Wait → Bool) : State :=
  { s with cores := s.cores.map fun e => (e.1, e.2.mapHarts fun _ h => if p h.wait then h.wake else h) }

/-- Act for another hart, then return to the issuing one. -/
def actAs (c : Nat) (k : Fin 8) (f : State → State) (s : State) : State :=
  let t := f { s with curCore := ⟨c % 2048, Nat.mod_lt _ (by decide)⟩, curSlot := k }
  { t with curCore := s.curCore, curSlot := s.curSlot }

/-! ## Causes and traps -/

/-- The cause codes (R396). -/
def causeCode : Cause → BitVec 8
  | .illegalOp => 0x01
  | .priv => 0x02
  | .misalign => 0x03
  | .rangeMiss => 0x04
  | .rangePerm => 0x05
  | .partialRes => 0x06
  | .layerOff => 0x07
  | .busFault => 0x08
  | .feLimit => 0x09
  | .copyErr => 0x0A
  | .watch => 0x0B
  | .brk => 0x0C
  | .step => 0x0D
  | .syscall => 0x0E
  | .gsing => 0x0F
  | .vcfg => 0x11
  | .mmode => 0x12
  | .handlerBlock => 0x13
  | .slot => 0x14
  | .vown => 0x15
  | .nightfall => 0x16
  | .sendLimit => 0x17
  | .fmt => 0x18
  | .wayMode => 0x19

/-- Steps 1 and 2 of R397 on the hart's registers: XPC, XCAUSE, XVAL, XSTAT.PP and XSTAT.VEC; a trap ends a replay (R401). -/
def Hart.record (h : Hart) (c : Cause) (xval : BitVec 64) (vec : Bool) : Hart :=
  { h.goOn with
    xpc := h.pc.zeroExtend 64 &&& ~~~(1#64)
    xcause := (causeCode c).zeroExtend 64
    xval := xval
    xstat := (if vec then 4 else 0) ||| (if h.sys then 3 else 0)
    xconv := h.xconv &&& ~~~(7#64 <<< 56), shadow := none
    wait := .none, timer := none, released := false, probed := false, unsent := none, stepHead := none, stepDone := true }

/-- Step 3 of R397: XSTAT.PRIV := 1 and PC := XBASE. -/
def Hart.vector (h : Hart) : Hart :=
  { h with xstat := h.xstat ||| 1, pc := h.xbase.setWidth 48 &&& ~~~(1#48) }

/-- Whether a trap of this cause on core c is a freezing trap (R427): FRZ = 1, the cause's bit set in CMASK (the NIGHTFALL
bit ignored, R421), and the core's job is the one of NFCTL. -/
def freezing (s : State) (c : Nat) (cause : Cause) : Bool :=
  let q := coreAt s c
  q.dbgctl.getLsbD 63 && q.dbgctl.getLsbD (causeCode cause).toNat && cause != .nightfall &&
    q.job != 0 && q.job == s.night.nfctl.extractLsb' 32 32

/-- The key of an origin: DEV, COL, INDEX, SLOT (R430), in the places of NFCAUSE [63:40]. -/
def originKey (s : State) (c : Nat) (k : Nat) : BitVec 32 :=
  BitVec.ofNat 32 ((s.fabric.dev.toNat * 8 + (colOf c).val) * 256 + idxOf c) <<< 8 ||| BitVec.ofNat 32 k

/-- NFCAUSE with an origin noted: the lowest key is kept (R430); WSEQ stays. -/
def causeWord (old : BitVec 64) (key : BitVec 32) (cause : BitVec 8) : BitVec 64 :=
  ((key.extractLsb' 8 19).zeroExtend 64 <<< 45) ||| ((key.extractLsb' 0 3).zeroExtend 64 <<< 40) |||
    (cause.zeroExtend 64 <<< 32) ||| ((old.setWidth 32).zeroExtend 64)

/-- The key held in NFCAUSE. -/
def keptKey (w : BitVec 64) : BitVec 32 :=
  ((w.extractLsb' 45 19).zeroExtend 32 <<< 8) ||| (w.extractLsb' 40 3).zeroExtend 32

/-- INTSTAT bit v rises and its MSI-X message is sent, or left pending while masked (R466). -/
def sendMsix (v : Nat) (s : State) : State :=
  let b := s.boot
  if b.msixFun || b.msixMask.getLsbD v then
    { s with boot := { b with msixPend := b.msixPend ||| (1#64 <<< v) } }
  else { s with boot := { b with msixSent := v :: b.msixSent } }

def raiseInt (v : Nat) (s : State) : State :=
  if s.boot.intstat.getLsbD v then s
  else sendMsix v { s with boot := { s.boot with intstat := s.boot.intstat ||| (1#8 <<< v) } }

/-! ## Control flits (R459) -/

/-- Port p is up (R461). -/
def portUp (s : State) (p : Nat) : Bool := (s.fabric.tflstat.toList.getD p 0).extractLsb' 62 2 == 1

/-- Its partner negotiated the Nightfall feature (R431, R460). -/
def portNight (s : State) (p : Nat) : Bool := portUp s p && (s.fabric.tflstat.toList.getD p 0).getLsbD 0

/-- Control flits leave: they need no allowance (R459). -/
def sendFlits (l : List (Nat × Flit)) (s : State) : State := { s with fabric := { s.fabric with sent := l.reverse ++ s.fabric.sent } }

/-- A Nightfall flit leaves every port that passes one, but for the one it came by (R428, R431). -/
def sendNight (job key : BitVec 32) (cause : BitVec 8) (from' : Option Nat) (s : State) : State :=
  sendFlits (((List.range 16).filter fun p => portNight s p && some p != from').map fun p => (p, .night job key cause)) s

/-- PARTIAL and PPORT for the lowest-numbered up port that passes no Nightfall flit (R431). -/
def partialBits (s : State) : BitVec 64 :=
  match (List.range 16).find? fun p => portUp s p && !portNight s p with
  | some p => (1#64 <<< 59) ||| (BitVec.ofNat 64 p <<< 48)
  | none => 0

/-- Ports enabled for training each send their capability flit (R460, R461): version 2.1, Nightfall and compression, the own number. -/
def trainPorts (s : State) : State :=
  let f := s.fabric
  sendFlits (((List.range 16).filter fun p => f.enable.getLsbD p).map fun p => (p, .capability 2 1 3 f.dev))
    { s with fabric := { f with training := f.enable } }

/-! ## The wave (R427 to R431) -/

/-- An origin is noted on this device (R430): ORIGINS counts it, saturating, the lowest key stays; NIGHT is set, vector 1
raised (R466); and the wave is sent to every core of the job, to the engines, the distributor and the ports, and in a Nightfall flit to the
other devices (R428), its PARTIAL and PPORT those of this night (R431).  A wave that comes during a Daybreak begins the record of a new night
(R435); a device that was not frozen has no port settled yet. -/
def startWave (key : BitVec 32) (cause : BitVec 8) (from' : Option Nat) (s : State) : State :=
  let n := s.night
  let night := n.nfstat.getLsbD 63
  let first := !night || (n.nfstat.getLsbD 62 && !n.again)
  let origins := if first then 0 else n.nfstat.setWidth 16
  let origins' := if origins = 0xFFFF then origins else origins + 1
  let keep := !first && decide ((keptKey n.nfcause).toNat ≤ key.toNat)
  let nfcause := if keep then n.nfcause else causeWord n.nfcause key cause
  let kept := if first then n.nfstat &&& ~~~(0x0C0F00000000FFFF#64) else n.nfstat &&& ~~~(0x040000000000FFFF#64)
  let nfstat := kept ||| partialBits s ||| (1#64 <<< 63) ||| origins'.zeroExtend 64
  let job := n.nfctl.extractLsb' 32 32
  let s := sendNight job key cause from' { s with
    night := { n with nfstat := nfstat, nfcause := nfcause, again := night && n.nfstat.getLsbD 62 }
    cores := s.cores.map fun e => (e.1, if e.2.job = job ∧ job ≠ 0 then { e.2 with wave := !e.2.night } else e.2) }
  if night then s else raiseInt 1 s

/-- The engines, distributor and balancer stand still for a frozen job (R429), and in minimal mode, whose firmware does not run (R463). -/
def stilled (s : State) (job : BitVec 32) : Bool :=
  s.boot.minimal || (s.night.engines && job == s.night.nfctl.extractLsb' 32 32)

/-- A unit of column k stands still for a job: also when the column has halted on its temperature (R468).  The distributor's agent and the
balancer are units of column 0 (R13). -/
def stilledAt (s : State) (k : Fin 8) (job : BitVec 32) : Bool := stilled s job || (colAt s k).tripped

/-- A core that issues at all: its column is in service, the core is loaded, and in minimal mode it is one of cores 0 to 15 of the device
(R76, R438, R463, R468). -/
def coreRuns (s : State) (c : Nat) : Bool :=
  let k := colAt s (colOf c)
  !k.tripped && !k.vbstat.getLsbD 63 && !(coreAt s c).unloaded && (!s.boot.minimal || decide (c < 16))

/-- A core whose slots take records and messages: it runs, takes new work, and neither a wave has reached it nor Nightfall holds it (R405,
R429). -/
def takesWork (s : State) (c : Nat) : Bool := coreRuns s c && !closed s c && !(coreAt s c).wave && !(coreAt s c).night

/-- Taking a trap on the issuing hart (R397), or its freezing form (R427). -/
def takeTrap (c : Cause) (xval : BitVec 64) (vec : Bool) (s : State) : State :=
  let s1 := updMe s fun h => h.record c xval vec
  if freezing s s.curCore c then
    startWave (originKey s s.curCore s.curSlot.val) (causeCode c) none
      (updMe s1 fun h => { h with st := .frozen, back := .ready, dstep := h.dstep ||| 2 })
  else updMe s1 Hart.vector

/-- The return from a trap (R416): PC := XPC and XSTAT.PRIV := XSTAT.PP; the members to replay are counted from 0 (R401). -/
def Hart.returnFromTrap (h : Hart) : Hart :=
  { h with
    pc := h.xpc.setWidth 48 &&& ~~~(1#48)
    xstat := (h.xstat &&& ~~~(1#64)) ||| (if h.xstat.getLsbD 1 then 1 else 0)
    replayed := 0 }

/-! ## Results of the parts of an instruction -/

/-- The result of a part of an instruction: it goes on with a value, it traps, or the hart does not go on (the state says
what it waits for). -/
inductive Res (α : Type) where
  | ok (a : α) (s : State)
  | trap (c : Cause) (xval : BitVec 64) (s : State)
  | hold (s : State)

/-- Go on with the value, if there is one. -/
def Res.andThen {α β : Type} (r : Res α) (k : α → State → Res β) : Res β :=
  match r with
  | .ok a s => k a s
  | .trap c x s => .trap c x s
  | .hold s => .hold s

/-! ## The vector context's owner -/

/-- The issuing hart is its core's vector hart (R132, R133). -/
def isVecHart (s : State) : Bool := (myCore s).vec.bound && (myCore s).vec.slot == s.curSlot

/-- The hart stands at a block-port instruction that the port performs (R348). -/
def Hart.atPort (h : Hart) : Bool := match h.wait with | .port _ _ _ _ _ _ => true | _ => false

/-- The block port performs an instruction of one of the core's slots (R348). -/
def Core.portBusy (q : Core) : Bool := q.harts.toList.any Hart.atPort

/-- Nothing is queued, running or stopped in the micro-sequencer, the DTU and the block port (R134). -/
def Core.quiet (q : Core) : Bool := q.vec.convoy.isEmpty && q.vec.stop.isNone && q.vec.dtu.isEmpty && !q.portBusy

/-- What `vfence` waits for (R208, R265): no command is queued or running, and every element of a vector store has left the write
queue. -/
def Core.fenced (q : Core) : Bool :=
  q.quiet && !(q.wq.any fun e => match e.kind with | .vec _ _ => true | _ => false)

/-- What waits as `vfence` does when the vector hart issues it (R200): it ends the open convoy (R182), and the hart holds while a command is
outstanding; the commands go on meanwhile. -/
def settled (s : State) (k : State → Res Unit) : Res Unit :=
  if isVecHart s && !(myCore s).fenced then .hold (updMyCore s fun q => { q with vec := { q.vec with ended := true } }) else k s

/-! ## Outcomes -/

/-- The outcome of a step of this machine. -/
abbrev Out := Host.Outcome State Fault Refusal

/-- The outcome of an instruction's parts.  A trap of the vector hart waits until every earlier vector command has settled
(R398, R399). -/
def finish : Res Unit → Out
  | .ok _ s => .next s
  | .trap c x s => .next (if isVecHart s && !(myCore s).quiet then s else takeTrap c x false s)
  | .hold s => .next s

/-- A check of R219: the condition must hold. -/
def need (b : Bool) (c : Cause) (xval : BitVec 64) (s : State) : Res Unit :=
  if b then .ok () s else .trap c xval s

/-! ## Free values -/

/-- The next free value (log entry 2). -/
def takeFree (s : State) : BitVec 64 × State := (Config.freeWord s.freeIdx, { s with freeIdx := s.freeIdx + 1 })

/-- The next free choice (log entry 4). -/
def takeChoice (s : State) : Bool × State := (Config.freeChoice s.freeIdx, { s with freeIdx := s.freeIdx + 1 })

end Sys2Proof.Machine
end

