-- ==== Sys2Proof/Machine/Flags.lean ====
section
/-!
DEFINITION. The sticky flags of R168 in the places of VFLAGS (R147): SAT in bit 5, NV, DZ, OF, UF, NX in bits 4 to 0;
FSTAT holds the last five in the same places.
-/

namespace Sys2Proof.Machine

/-- A set of flags. -/
abbrev Flags := BitVec 6

def fNone : Flags := 0
def fNX : Flags := 1
def fUF : Flags := 2
def fOF : Flags := 4
def fDZ : Flags := 8
def fNV : Flags := 16
def fSAT : Flags := 32

/-- One flag, when its condition holds. -/
def flagIf (b : Bool) (f : Flags) : Flags := if b then f else 0

/-- Scalar results accumulate NV, DZ, OF, UF, NX in FSTAT (R168, R261). -/
def orFstat (f : Flags) (s : State) : State :=
  updMe s fun h => { h with fstat := h.fstat ||| ((f.setWidth 5).zeroExtend 64) }

/-- Vector results accumulate in VFLAGS (R168). -/
def orVflags (f : Flags) (v : Vec) : Vec := { v with vflags := v.vflags ||| f.zeroExtend 64 }

end Sys2Proof.Machine
end

