-- ==== Sys2Proof/Machine/Float.lean ====
section
/-!
DEFINITION. Number formats and the arithmetic rules of floating point (R151 to R170): exact values, one rounding.
-/

namespace Sys2Proof.Machine

/-- What the encodings of a format hold beside finite numbers (R151). -/
inductive FKind where
  | ieee     -- infinities and NaNs
  | nanOnly  -- e4m3: one NaN magnitude
  | finite   -- every encoding a number
deriving DecidableEq, Repr

/-- A floating-point format (R151). -/
structure Fmt where
  eb : Nat
  mb : Nat
  bias : Nat
  kind : FKind
deriving DecidableEq, Repr

def f64 : Fmt := ⟨11, 52, 1023, .ieee⟩
def f32 : Fmt := ⟨8, 23, 127, .ieee⟩
def bf16 : Fmt := ⟨8, 7, 127, .ieee⟩
def f16 : Fmt := ⟨5, 10, 15, .ieee⟩
def e5m2 : Fmt := ⟨5, 2, 15, .ieee⟩
def e4m3 : Fmt := ⟨4, 3, 7, .nanOnly⟩
def e3m2 : Fmt := ⟨3, 2, 3, .finite⟩
def e2m3 : Fmt := ⟨2, 3, 1, .finite⟩
def e2m1 : Fmt := ⟨2, 1, 1, .finite⟩

/-- An exact value: NaN (signalling or not), infinity, or (-1)^neg * m * 2^e with the sign of a zero kept. -/
inductive FVal where
  | nan (signalling : Bool)
  | inf (neg : Bool)
  | fin (neg : Bool) (m : Nat) (e : Int)
deriving DecidableEq, Repr

def Fmt.width (f : Fmt) : Nat := 1 + f.eb + f.mb
/-- Exponent of the unit of a subnormal. -/
def Fmt.qmin (f : Fmt) : Int := 1 - (f.bias : Int) - f.mb
/-- Largest finite magnitude as an encoding without sign. -/
def Fmt.maxEnc (f : Fmt) : Nat :=
  match f.kind with
  | .ieee => (2 ^ f.eb - 2) * 2 ^ f.mb + (2 ^ f.mb - 1)
  | .nanOnly => (2 ^ f.eb - 1) * 2 ^ f.mb + (2 ^ f.mb - 2)
  | .finite => 2 ^ (f.eb + f.mb) - 1
/-- The canonical NaN (R152); for a format without NaN, +max (R160). -/
def Fmt.nanEnc (f : Fmt) : Nat :=
  match f.kind with
  | .ieee => (2 ^ f.eb - 1) * 2 ^ f.mb + 2 ^ (f.mb - 1)
  | .nanOnly => 2 ^ (f.eb + f.mb) - 1
  | .finite => f.maxEnc
def Fmt.infEnc (f : Fmt) : Nat := (2 ^ f.eb - 1) * 2 ^ f.mb
def Fmt.signBit (f : Fmt) (neg : Bool) : Nat := if neg then 2 ^ (f.eb + f.mb) else 0

/-- The value of an encoding (R151). -/
def Fmt.value (f : Fmt) (x : Nat) : FVal :=
  let neg := x / 2 ^ (f.eb + f.mb) % 2 == 1
  let e := x / 2 ^ f.mb % 2 ^ f.eb
  let m := x % 2 ^ f.mb
  let num : FVal := if e = 0 then .fin neg m f.qmin else .fin neg (2 ^ f.mb + m) (f.qmin + e - 1)
  match f.kind with
  | .ieee =>
    if e = 2 ^ f.eb - 1 then (if m = 0 then .inf neg else .nan (decide (m < 2 ^ (f.mb - 1)))) else num
  | .nanOnly => if e = 2 ^ f.eb - 1 ∧ m = 2 ^ f.mb - 1 then .nan false else num
  | .finite => num

/-- Whether a magnitude truncated to sig, with the part rem of 2^sh left over (and a nonzero part below when sticky), rounds
away from zero (R163, R166); r is the lane's draw of 24 bits. -/
def roundsUp (rm : Nat) (neg : Bool) (sig rem sh : Nat) (sticky : Bool) (r : Nat) : Bool :=
  let inexact := rem != 0 || sticky
  match rm with
  | 0 => decide (2 ^ sh < 2 * rem) || (decide (2 ^ sh = 2 * rem) && (sticky || sig % 2 == 1))
  | 1 => false
  | 2 => neg && inexact
  | 3 => !neg && inexact
  | 4 => decide (2 ^ sh ≤ 2 * rem) && inexact
  | _ => inexact && decide (2 ^ 24 ≤ 2 ^ 24 * rem / 2 ^ sh + r)

/-- m * 2^e cut at the unit 2^q and rounded: the count of units, and whether anything was lost. -/
def roundAt (rm : Nat) (neg : Bool) (m : Nat) (e q : Int) (sticky : Bool) (r : Nat) : Nat × Bool :=
  if q ≤ e then (m * 2 ^ (e - q).toNat, sticky)
  else
    let sh := (q - e).toNat
    let sig := m / 2 ^ sh
    let rem := m % 2 ^ sh
    (if roundsUp rm neg sig rem sh sticky r then sig + 1 else sig, rem != 0 || sticky)

/-- The overflow result (R159). -/
def Fmt.overflow (f : Fmt) (rm : Nat) (neg : Bool) : Nat :=
  f.signBit neg +
    match f.kind with
    | .ieee =>
      if rm = 1 ∨ (rm = 2 ∧ !neg) ∨ (rm = 3 ∧ neg) then f.maxEnc else f.infEnc
    | _ => f.maxEnc

/-- The exact value (-1)^neg * m * 2^e (a little more in magnitude when sticky) rounded once into a format, with its flags
(R159, R163, R168).  u is the magnitude in the format's precision with an unbounded exponent, in units of 2^qu: it reaches the smallest
normal value only where qu is qmin - 1 and the rounding carries. -/
def Fmt.round (f : Fmt) (rm : Nat) (r : Nat) (neg : Bool) (m : Nat) (e : Int) (sticky : Bool) : Nat × Flags :=
  if m = 0 then (f.signBit neg, 0)
  else
    let top : Int := e + Nat.log2 m
    let qu : Int := top - f.mb
    let u := roundAt rm neg m e qu sticky r
    let tiny := decide (qu < f.qmin) && !(decide (qu = f.qmin - 1) && decide (2 ^ (f.mb + 1) ≤ u.1))
    let q := if qu < f.qmin then f.qmin else qu
    let (sig, lost) := roundAt rm neg m e q sticky r
    let (sig, q) := if sig = 2 ^ (f.mb + 1) then (2 ^ f.mb, q + 1) else (sig, q)
    let enc := if sig < 2 ^ f.mb then sig else (q - f.qmin + 1).toNat * 2 ^ f.mb + (sig - 2 ^ f.mb)
    if f.maxEnc < enc then (f.overflow rm neg, fOF ||| fNX)
    else (f.signBit neg + enc, flagIf lost fNX ||| flagIf (tiny && lost) fUF)

/-- A value converted into a format (R159, R160). -/
def Fmt.ofVal (f : Fmt) (rm r : Nat) (v : FVal) : Nat × Flags :=
  match v with
  | .nan sig =>
    match f.kind with
    | .finite => (f.maxEnc, fNV)
    | _ => (f.nanEnc, flagIf sig fNV)
  | .inf neg =>
    match f.kind with
    | .ieee => (f.signBit neg + f.infEnc, 0)
    | _ => (f.signBit neg + f.maxEnc, fOF ||| fNX)
  | .fin neg m e => f.round rm r neg m e false

/-! ## Exact sums -/

/-- (-1)^neg * m as an integer. -/
def sgnInt (neg : Bool) (m : Nat) : Int := if neg then -(m : Int) else m

/-- x * 2^e as a count of 2^q, q at most e. -/
def scaleTo (q : Int) (x : Int) (e : Int) : Int := x * 2 ^ (e - q).toNat

/-- Sum of two finite values, and the sign of an exact zero sum (R164). -/
def addFin (rm : Nat) (n1 : Bool) (m1 : Nat) (e1 : Int) (n2 : Bool) (m2 : Nat) (e2 : Int) : FVal :=
  if m1 = 0 ∧ m2 = 0 then .fin (if n1 = n2 then n1 else rm == 2) 0 0
  else
    let q := min e1 e2
    let x := scaleTo q (sgnInt n1 m1) e1 + scaleTo q (sgnInt n2 m2) e2
    if x = 0 then .fin (rm == 2) 0 0 else .fin (decide (x < 0)) x.natAbs q

def FVal.isNan : FVal → Bool
  | .nan _ => true
  | _ => false
def FVal.isSig : FVal → Bool
  | .nan s => s
  | _ => false
def FVal.neg : FVal → FVal
  | .nan s => .nan s
  | .inf n => .inf !n
  | .fin n m e => .fin (!n) m e

/-- The flags of an operation with a NaN among its operands, or none: NV when one is signalling (R168). -/
def nanFlags (vs : List FVal) : Flags := flagIf (vs.any FVal.isSig) fNV

/-- Exact sum (R164, R168): a value and flags. -/
def addVal (rm : Nat) (a b : FVal) : FVal × Flags :=
  match a, b with
  | .nan s, y => (.nan false, flagIf (s || y.isSig) fNV)
  | _, .nan s => (.nan false, flagIf s fNV)
  | .inf n, .inf k => if n = k then (.inf n, 0) else (.nan false, fNV)
  | .inf n, .fin _ _ _ => (.inf n, 0)
  | .fin _ _ _, .inf n => (.inf n, 0)
  | .fin n m e, .fin k j f => (addFin rm n m e k j f, 0)

/-- Exact product (R168). -/
def mulVal (a b : FVal) : FVal × Flags :=
  match a, b with
  | .nan s, y => (.nan false, flagIf (s || y.isSig) fNV)
  | _, .nan s => (.nan false, flagIf s fNV)
  | .inf n, .inf k => (.inf (n != k), 0)
  | .inf n, .fin k m _ => if m = 0 then (.nan false, fNV) else (.inf (n != k), 0)
  | .fin k m _, .inf n => if m = 0 then (.nan false, fNV) else (.inf (n != k), 0)
  | .fin n m e, .fin k j f => (.fin (n != k) (m * j) (e + f), 0)

/-- A value rounded into a format, with the flags of the operation before it. -/
def Fmt.finish (f : Fmt) (rm r : Nat) (v : FVal × Flags) : Nat × Flags :=
  let (x, fl) := f.ofVal rm r v.1
  (x, fl ||| v.2)

/-! ## The operations -/

def Fmt.add (f : Fmt) (rm r a b : Nat) : Nat × Flags := f.finish rm r (addVal rm (f.value a) (f.value b))
def Fmt.sub (f : Fmt) (rm r a b : Nat) : Nat × Flags := f.finish rm r (addVal rm (f.value a) (f.value b).neg)
def Fmt.mul (f : Fmt) (rm r a b : Nat) : Nat × Flags := f.finish rm r (mulVal (f.value a) (f.value b))

/-- (±)a * b + (±)c, rounded once; 0 × ∞ sets NV whatever the addend is (R264). -/
def Fmt.fma (f : Fmt) (rm r : Nat) (negProd negAdd : Bool) (a b c : Nat) : Nat × Flags :=
  let (p, fl) := mulVal (f.value a) (f.value b)
  let p := if negProd then p.neg else p
  let c := if negAdd then (f.value c).neg else f.value c
  let (v, fl2) := addVal rm p c
  f.finish rm r (v, fl ||| fl2)

/-- Quotient (R168): DZ for a finite nonzero value by zero, NV for 0/0 and ∞/∞. -/
def Fmt.div (f : Fmt) (rm r a b : Nat) : Nat × Flags :=
  match f.value a, f.value b with
  | .nan s, y => (f.nanEnc, flagIf (s || y.isSig) fNV)
  | _, .nan s => (f.nanEnc, flagIf s fNV)
  | .inf _, .inf _ => (f.nanEnc, fNV)
  | .inf n, .fin k _ _ => f.ofVal rm r (.inf (n != k))
  | .fin n _ _, .inf k => f.ofVal rm r (.fin (n != k) 0 0)
  | .fin n m e, .fin k j g =>
    if j = 0 then
      if m = 0 then (f.nanEnc, fNV)
      else
        let (x, fl) := f.ofVal rm r (.inf (n != k))
        (x, fl ||| fDZ)
    else
      let sh := f.mb + 32 + Nat.log2 j
      f.round rm r (n != k) (m * 2 ^ sh / j) (e - g - sh) (m * 2 ^ sh % j != 0)

/-- Integer square root by bits, from bit k down. -/
def isqrt (n : Nat) : Nat → Nat → Nat
  | 0, r => r
  | k + 1, r =>
    let t := r + 2 ^ k
    isqrt n k (if t * t ≤ n then t else r)

/-- Square root (R168, R262): of a negative nonzero value NaN and NV; √−0 = −0. -/
def Fmt.sqrt (f : Fmt) (rm r a : Nat) : Nat × Flags :=
  match f.value a with
  | .nan s => (f.nanEnc, flagIf s fNV)
  | .inf n => if n then (f.nanEnc, fNV) else f.ofVal rm r (.inf false)
  | .fin n m e =>
    if m = 0 then (f.signBit n, 0)
    else if n then (f.nanEnc, fNV)
    else
      let odd := if e % 2 = 0 then 0 else 1
      let k := f.mb + 32
      let big := m * 2 ^ (odd + 2 * k)
      let root := isqrt big (Nat.log2 big / 2 + 2) 0
      f.round rm r false root ((e - odd) / 2 - k) (root * root != big)

/-- Signed order of two values that are not NaN, −0 below +0 when z. -/
def ltVal (z : Bool) (a b : FVal) : Bool :=
  match a, b with
  | .inf n, .inf k => n && !k
  | .inf n, .fin _ _ _ => n
  | .fin _ _ _, .inf k => !k
  | .fin n m e, .fin k j f =>
    let q := min e f
    let x := scaleTo q (sgnInt n m) e
    let y := scaleTo q (sgnInt k j) f
    decide (x < y) || (z && decide (x = y) && m == 0 && n && !k)
  | _, _ => false

/-- Minimum and maximum (R170). -/
def Fmt.min (f : Fmt) (a b : Nat) : Nat × Flags :=
  let x := f.value a
  let y := f.value b
  if x.isNan || y.isNan then (f.nanEnc, nanFlags [x, y])
  else (if ltVal true y x then b else a, 0)

def Fmt.max (f : Fmt) (a b : Nat) : Nat × Flags :=
  let x := f.value a
  let y := f.value b
  if x.isNan || y.isNan then (f.nanEnc, nanFlags [x, y])
  else (if ltVal true x y then b else a, 0)

/-- Equality: NV only for a signalling NaN (R263). -/
def Fmt.eq (f : Fmt) (a b : Nat) : Bool × Flags :=
  let x := f.value a
  let y := f.value b
  if x.isNan || y.isNan then (false, nanFlags [x, y]) else (!ltVal false x y && !ltVal false y x, 0)

/-- Less, and less or equal: any NaN gives false and NV (R263). -/
def Fmt.lt (f : Fmt) (a b : Nat) : Bool × Flags :=
  let x := f.value a
  let y := f.value b
  if x.isNan || y.isNan then (false, fNV) else (ltVal false x y, 0)

def Fmt.le (f : Fmt) (a b : Nat) : Bool × Flags :=
  let x := f.value a
  let y := f.value b
  if x.isNan || y.isNan then (false, fNV) else (!ltVal false y x, 0)

/-- The class of a value as one bit of ten (R263). -/
def Fmt.fclass (f : Fmt) (a : Nat) : Nat :=
  match f.value a with
  | .nan s => if s then 2 ^ 8 else 2 ^ 9
  | .inf n => if n then 1 else 2 ^ 7
  | .fin n m _ =>
    if m = 0 then (if n then 2 ^ 3 else 2 ^ 4)
    else if a / 2 ^ f.mb % 2 ^ f.eb = 0 then (if n then 2 ^ 2 else 2 ^ 5)
    else if n then 2 else 2 ^ 6

/-- Magnitude of a with a sign: of b, its inverse, or the exclusive or with a's own (R263). -/
def Fmt.withSign (f : Fmt) (a : Nat) (neg : Bool) : Nat := a % 2 ^ (f.eb + f.mb) + f.signBit neg
def Fmt.sign (f : Fmt) (a : Nat) : Bool := a / 2 ^ (f.eb + f.mb) % 2 == 1

/-- A value converted to an integer of w bits, signed or not (R160, R161): the integer and the flags. -/
def toInt (signed : Bool) (w : Nat) (rm r : Nat) (v : FVal) : Int × Flags :=
  let lo : Int := if signed then -(2 ^ (w - 1)) else 0
  let hi : Int := if signed then 2 ^ (w - 1) - 1 else 2 ^ w - 1
  match v with
  | .nan _ => (0, fNV)
  | .inf n => (if n then lo else hi, fNV)
  | .fin n m e =>
    let (k, lost) := roundAt rm n m e 0 false r
    let x := sgnInt n k
    if x < lo then (lo, fNV) else if hi < x then (hi, fNV) else (x, flagIf lost fNX)

/-- An integer converted into a format (R161). -/
def Fmt.ofInt (f : Fmt) (rm r : Nat) (x : Int) : Nat × Flags :=
  f.round rm r (decide (x < 0)) x.natAbs 0 false

/-- One advance of a lane's random state, and its draw (R166). -/
def vrsStep (s : BitVec 64) : BitVec 64 :=
  let s := s ^^^ (s <<< 13)
  let s := s ^^^ (s >>> 7)
  s ^^^ (s <<< 17)
def vrsDraw (s : BitVec 64) : Nat := (s >>> 40).toNat

/-- What an operation at the owner makes of old value m and operand x (R255, R258), at 4 or 8 bytes; e is the value compared
by the compare-and-swap. -/
def amResult (op : AmOp) (n : Nat) (m x e : BitVec 64) : BitVec 64 :=
  let w := 8 * n
  let cut (v : BitVec 64) : BitVec 64 := if n = 4 then (v.setWidth 32).zeroExtend 64 else v
  let sx (v : BitVec 64) : Int := if n = 4 then (v.setWidth 32).toInt else v.toInt
  let f := if n = 4 then f32 else f64
  let m := cut m
  let x := cut x
  match op with
  | .add => cut (m + x)
  | .swap => x
  | .cas => if m = cut e then x else m
  | .and => m &&& x
  | .or => m ||| x
  | .xor => m ^^^ x
  | .min => if sx m ≤ sx x then m else x
  | .max => if sx x ≤ sx m then m else x
  | .minn => if m.toNat ≤ x.toNat then m else x
  | .maxn => if x.toNat ≤ m.toNat then m else x
  | .fadd => BitVec.ofNat 64 ((f.add 0 0 m.toNat x.toNat).1 % 2 ^ w)
  | .fmin => BitVec.ofNat 64 ((f.min m.toNat x.toNat).1 % 2 ^ w)
  | .fmax => BitVec.ofNat 64 ((f.max m.toNat x.toNat).1 % 2 ^ w)

end Sys2Proof.Machine
end

