-- ==== Sys2Proof/Machine/Ranges.lean ====
section
/-!
DEFINITION. Global physical addresses (R18 to R20), range descriptors (R24 to R28), the range cache and the range walker
(R29 to R34), and the checks of a translation (R35).
-/

namespace Sys2Proof.Machine

/-! ## Addresses -/

def gpaDev (a : Nat) : Nat := a / 2 ^ 48 % 256
def gpaCol (a : Nat) : Nat := a / 2 ^ 45 % 8
def gpaOff (a : Nat) : Nat := a % 2 ^ 45

/-- The GPA of an offset of a column of this device (R18). -/
def mkGpa (s : State) (col : Nat) (off : Nat) : Nat := s.fabric.dev.toNat * 2 ^ 48 + col * 2 ^ 45 + off

/-- What a GPA names (R19, R20). -/
inductive Target where
  | dram (col : Fin 8) (off : Nat)
  | bank (core way byte : Nat)
  | barrier (col : Fin 8) (n : Nat)
  | service (col : Fin 8) (off : Nat)
  | priv (col : Fin 8) (off : Nat)
  | host (addr : Nat)
  | device (dev : Nat)
  | unmapped
deriving DecidableEq, Repr

/-- The runs of R20 an offset of a column may lie in: DRAM, one way, barriers, service registers, privileged registers. -/
def offTarget (col : Fin 8) (off : Nat) : Target :=
  if off < 0xC00000000 then .dram col off
  else if 0x10000000000 ≤ off ∧ off < 0x10040000000 then
    .bank (256 * col.val + (off - 0x10000000000) / 2 ^ 22) (off / 2 ^ 18 % 16) (off % 2 ^ 18)
  else if 0x18000000000 ≤ off ∧ off < 0x18000100000 then .barrier col ((off - 0x18000000000) / 64)
  else if 0x18000100000 ≤ off ∧ off < 0x18001000000 then .service col off
  else if 0x1F000000000 ≤ off ∧ off < 0x1F001000000 then .priv col (off - 0x1F000000000)
  else .unmapped

/-- What a GPA names, seen from this device (R19, R20). -/
def targetOf (s : State) (a : Nat) : Target :=
  let col : Fin 8 := ⟨gpaCol a, Nat.mod_lt _ (by decide)⟩
  if gpaDev a = 0xFE then (if col.val = 0 then .host (gpaOff a) else .unmapped)
  else if gpaDev a = 0xFF then .unmapped
  else if gpaDev a = s.fabric.dev.toNat then offTarget col (gpaOff a)
  else .device (gpaDev a)

/-- The home slice of a DRAM offset (R50). -/
def sliceOf (off : Nat) : Nat :=
  (off / 2 ^ 6 % 64) ^^^ (off / 2 ^ 12 % 64) ^^^ (off / 2 ^ 18 % 64) ^^^ (off / 2 ^ 24 % 64) ^^^ (off / 2 ^ 30 % 64)

/-! ## Descriptors -/

def RDesc.vbase (d : RDesc) : Nat := d.w0.toNat / 64
def RDesc.cls (d : RDesc) : Nat := d.w0.toNat / 4 % 4
def RDesc.locked (d : RDesc) : Bool := d.w0.getLsbD 1
def RDesc.valid (d : RDesc) : Bool := d.w0.getLsbD 0
def RDesc.vlast (d : RDesc) : Nat := d.w1.toNat / 64
/-- AT, US, EX, WR, RD in bits 4 to 0. -/
def RDesc.perm (d : RDesc) : BitVec 5 := d.w1.setWidth 5
def RDesc.ver (d : RDesc) : Nat := d.w2.toNat / 2 ^ 56
def RDesc.tgt (d : RDesc) : Nat := d.w2.toNat % 2 ^ 56 / 64
def RDesc.whi (d : RDesc) : Nat := d.w3.toNat / 2 ^ 32
def RDesc.wlo (d : RDesc) : Nat := d.w3.toNat % 2 ^ 32

/-- The run of R20 a target block lies in, as (first block past its end, bypass needed, host). -/
def runEnd (blk : Nat) : Option (Nat × Bool × Bool) :=
  let a := blk * 64
  let base := (a - gpaOff a) / 64
  if gpaDev a = 0xFF then none
  else if gpaDev a = 0xFE then
    if gpaCol a = 0 then some (base + 2 ^ 45 / 64, false, true) else none
  else
    match offTarget 0 (gpaOff a) with
    | .dram _ _ => some (base + 0xC00000000 / 64, false, false)
    | .bank _ _ _ => some ((a / 2 ^ 18 + 1) * 2 ^ 18 / 64, true, false)
    | .barrier _ _ => some (base + 0x18000100000 / 64, true, false)
    | .service _ _ => some (base + 0x18001000000 / 64, true, false)
    | .priv _ _ => some (base + 0x1F001000000 / 64, true, false)
    | _ => none

/-- Malformed descriptors (R25). -/
def RDesc.malformed (d : RDesc) : Bool :=
  d.w0.toNat / 16 % 4 != 0 || d.w1.getLsbD 5 || d.w2.toNat % 64 != 0 || d.cls == 3 ||
  decide (d.vlast < d.vbase) || decide (2 ^ 32 ≤ d.vlast - d.vbase) ||
  (match runEnd d.tgt with
   | none => true
   | some (e, byp, host) =>
     decide (e < d.tgt + (d.vlast - d.vbase) + 1) || (byp && d.cls != 2) || (host && d.cls == 0))

/-- A descriptor covers an address (R30). -/
def RDesc.covers (d : RDesc) (va : Nat) : Bool := decide (d.vbase * 64 ≤ va) && decide (va ≤ d.vlast * 64 + 63)

/-- Its block is in the resident window (R28). -/
def RDesc.resident (d : RDesc) (va : Nat) : Bool :=
  decide (d.wlo ≤ va / 64 - d.vbase) && decide (va / 64 - d.vbase ≤ d.whi)

/-- The GPA an address translates to. -/
def RDesc.gpa (d : RDesc) (va : Nat) : Nat := d.tgt * 64 + (va - d.vbase * 64)

/-! ## The directory and its walker -/

/-- A column whose core bus failed after repair: every access to a GPA naming it returns BUS_FAULT (R76). -/
def degradedAt (s : State) (a : Nat) : Bool :=
  gpaDev a == s.fabric.dev.toNat && (colAt s ⟨gpaCol a, Nat.mod_lt _ (by decide)⟩).vbstat.getLsbD 63

/-- Whether some up port of column c's route table carries packets for device d (R462). -/
def routeUp (s : State) (c : Fin 8) (d : Nat) : Bool :=
  let ports := tabGet 0 (colAt s c).route d
  (List.range 16).any fun p => ports.getLsbD p && portUp s p

/-- What an address of another device names there (R20). -/
def farTarget (gpa : Nat) : Target := offTarget 0 (gpaOff gpa)

/-- The region of R20 an address lies in, on this device or on another; a column that it names on another device is read as column 0. -/
def regionOf (s : State) (gpa : Nat) : Target :=
  match targetOf s gpa with
  | .device _ => farTarget gpa
  | t => t

/-- Another device keeps no data at this address: its barrier and register regions, and unmapped offsets (R103, R253). -/
def farError (gpa : Nat) : Bool :=
  match farTarget gpa with
  | .dram _ _ | .bank _ _ _ => false
  | _ => true

/-- No column router has an up port towards the device an address names (R462). -/
def cutOff (s : State) (gpa : Nat) : Bool :=
  match targetOf s gpa with
  | .device d => (List.finRange 8).all fun k => !routeUp s k d
  | _ => false

/-- Key of the slice set of a DRAM offset (R50, R52). -/
def sliceKey (off : Nat) : Nat := 512 * sliceOf off + off / 2 ^ 12 % 512

/-- A line of DRAM, named by its offset, stands in its slice (R52). -/
def Column.inSlice (c : Column) (off : Nat) : Bool := (tabGet [] c.slices (sliceKey off)).any fun e => e.1 == off / 64

/-- A read of a DRAM line meets an uncorrectable error: in its slice where the slice holds it, else in DRAM (R52, R71, R72). -/
def Column.lineErr (c : Column) (off : Nat) : Bool :=
  if c.inSlice off then c.sliceBad.contains (off / 64) else c.bad.contains (off / 64)

/-- A read of the line of a GPA meets an error: a DRAM line with an uncorrectable error in the slice or in DRAM, a bank of an unloaded core, a
column whose core bus failed, an offset where no line lies, or a device that no router reaches (R20, R71, R72, R76, R253, R438, R462). -/
def lineBad (s : State) (a : Nat) : Bool :=
  match targetOf s a with
  | .dram c off => (colAt s c).lineErr off || (colAt s c).vbstat.getLsbD 63
  | .bank c _ _ => (coreAt s c).unloaded || (colAt s (colOf c)).vbstat.getLsbD 63
  | .barrier _ _ | .service _ _ | .priv _ _ | .unmapped => true
  | .device _ => farError a || cutOff s a
  | .host _ => false

/-- The port a packet for device d leaves column c's router by: the lowest up port of this router in its mask, else the lowest up port
of any (R462). -/
def portFor (s : State) (c : Fin 8) (d : Nat) : Option Nat :=
  let ports := tabGet 0 (colAt s c).route d
  let up := (List.range 16).filter fun p => ports.getLsbD p && portUp s p
  ((up.filter fun p => p / 2 == c.val) ++ up).head?

/-- Whether n data flits of class k (0 requests, 1 replies, 2 messages, 3 copies) have send allowances at that port (R459). -/
def maySendN (s : State) (c : Fin 8) (d k n : Nat) : Bool :=
  match portFor s c d with
  | some p => decide (n ≤ tabGet 0 s.fabric.allow (4 * p + k))
  | none => true

/-- So many data flits use their allowances (R459). -/
def useAllowances (c : Fin 8) (d k n : Nat) (s : State) : State :=
  match portFor s c d with
  | some p => { s with fabric := { s.fabric with allow := tabPut s.fabric.allow (4 * p + k) (tabGet 0 s.fabric.allow (4 * p + k) - n) } }
  | none => s

/-- Whether one data flit of class k may leave. -/
def maySend (s : State) (c : Fin 8) (d k : Nat) : Bool := maySendN s c d k 1

/-- A data flit uses an allowance. -/
def useAllowance (c : Fin 8) (d k : Nat) (s : State) : State := useAllowances c d k 1 s

/-- n requests of a unit of column c to the owner of an address may leave: they need allowances where another device owns it (R459). -/
def mayReach (s : State) (c : Fin 8) (gpa n : Nat) : Bool :=
  match targetOf s gpa with
  | .device d => maySendN s c d 0 n
  | _ => true

/-- They leave. -/
def reach (c : Fin 8) (gpa n : Nat) (s : State) : State :=
  match targetOf s gpa with
  | .device d => useAllowances c d 0 n s
  | _ => s

def dword (m : List Host.Cell) (a : Nat) : BitVec 64 := BitVec.ofNat 64 (memRead m a 8)

/-- Descriptor k of the directory whose header is at GPA h (R29). -/
def dirDesc (s : State) (h k : Nat) : RDesc :=
  let a := h + 64 + 32 * k
  { w0 := dword s.mem a, w1 := dword s.mem (a + 8), w2 := dword s.mem (a + 16), w3 := dword s.mem (a + 24) }

/-- The header at h is a valid record: COUNT at most 65,536 and every reserved bit 0 (R2, R29). -/
def dirHeaderOk (s : State) (h : Nat) : Bool :=
  decide (memRead s.mem h 4 ≤ 65536) && decide (memRead s.mem (h + 4) 4 < 2) && decide (memRead s.mem (h + 16) 48 = 0)

/-- COUNT and EDIT of the directory whose header is at h.  R2 calls a header with a nonzero reserved bit, or with COUNT above 65,536,
invalid, and no chapter says what a search of such a directory gives: in the model it names no descriptor and is under no edit, so that a
search misses (log entry 107). -/
def dirCount (s : State) (h : Nat) : Nat := if dirHeaderOk s h then memRead s.mem h 4 else 0
def dirEdit (s : State) (h : Nat) : Bool := dirHeaderOk s h && (memGet s.mem (h + 4)).getLsbD 0

/-- The header a core's RDBASE names (R34). -/
def hdrOf (w : BitVec 64) : Nat := w.toNat % 2 ^ 56 / 64 * 64

/-- What a search of the directory finds (R31). -/
inductive Found where
  | miss
  | stall
  | err
  | desc (d : RDesc)

/-- The binary search of R31 over the lines lo to hi, where none stands for -1; an error in a probed line ends it. -/
def searchLines (s : State) (h va : Nat) : Nat → Option Nat → Nat → Except Unit (Option Nat)
  | 0, lo, _ => .ok lo
  | f + 1, lo, hi =>
    let l1 := match lo with | none => 0 | some l => l + 1
    if hi ≤ l1 then .ok lo
    else
      let mid := match lo with | none => (hi + 1) / 2 - 1 | some l => l + (hi - l) / 2
      if lineBad s (h + 64 + 64 * mid) then .error ()
      else if (dirDesc s h (2 * mid)).vbase * 64 ≤ va then searchLines s h va f (some mid) hi
      else searchLines s h va f lo mid

/-- The lines a search of R31 probes, from lo and hi on: it ends early at one with a data error. -/
def probesFrom (s : State) (h va : Nat) : Nat → Option Nat → Nat → List Nat
  | 0, _, _ => []
  | f + 1, lo, hi =>
    let l1 := match lo with | none => 0 | some l => l + 1
    if hi ≤ l1 then []
    else
      let mid := match lo with | none => (hi + 1) / 2 - 1 | some l => l + (hi - l) / 2
      let a := h + 64 + 64 * mid
      if lineBad s a then [a]
      else a :: (if (dirDesc s h (2 * mid)).vbase * 64 ≤ va then probesFrom s h va f (some mid) hi else probesFrom s h va f lo mid)

/-- The lines a search of the directory at h reads: the header's, then the probed ones. -/
def probeLines (s : State) (h va : Nat) : List Nat :=
  h :: (if lineBad s h then [] else probesFrom s h va 18 none ((dirCount s h + 1) / 2))

/-- The descriptor the search of R31 ends at: its number, when it is valid, well formed and covers the address. -/
def searchIdx (s : State) (h va : Nat) : Except Unit (Option Nat) :=
  let count := dirCount s h
  if lineBad s h then .error ()
  else match searchLines s h va 18 none ((count + 1) / 2) with
    | .error _ => .error ()
    | .ok none => .ok none
    | .ok (some lo) =>
      let k1 := 2 * lo + 1
      let k := if k1 ≥ count || decide ((dirDesc s h k1).vbase * 64 > va) then 2 * lo else k1
      let d := dirDesc s h k
      .ok (if !d.valid || d.malformed || !d.covers va then none else some k)

/-- The whole search of R31 in the directory at h. -/
def searchDir (s : State) (h va : Nat) : Found :=
  match searchIdx s h va with
  | .error _ => .err
  | .ok none => .miss
  | .ok (some k) => let d := dirDesc s h k; if d.locked then .stall else .desc d

/-- A lookup in a list of entries: the entry of the job that covers the address, moved to the front (R32). -/
def rcLookup (es : List REntry) (job : BitVec 32) (va : Nat) : Option (RDesc × List REntry) :=
  match es.find? fun e => e.job == job && e.desc.covers va with
  | none => none
  | some e => some (e.desc, e :: es.filter fun x => x != e)

/-- A fill: at the front, least recently used past n entries dropped (R32, R41). -/
def rcFill (n : Nat) (es : List REntry) (e : REntry) : List REntry := (e :: es).take n

/-- The rights an access needs (R27), as AT, US, EX, WR, RD; US is added at user level. -/
def needRd : BitVec 5 := 0x01
def needWr : BitVec 5 := 0x02
def needRdWr : BitVec 5 := 0x03
def needAm : BitVec 5 := 0x13
def needRed : BitVec 5 := 0x12
def needEx : BitVec 5 := 0x04

/-- Whether way w of a core answers as a bank (R20), else the cause: no access to a column whose core bus failed or to an unloaded core
comes as far as its ways (R76, R438). -/
def bankCheck (s : State) (c w : Nat) : Option Cause :=
  let q := coreAt s c
  if (colAt s (colOf c)).vbstat.getLsbD 63 || q.unloaded then some .busFault
  else if w ≥ 8 ∧ !(colAt s (colOf c)).layerctl.getLsbD 0 then some .layerOff
  else if w + q.nbank < 16 then some .wayMode
  else none

/-- What a translation gives. -/
inductive Xlat where
  | ok (gpa : Nat) (cls : Nat) (d : RDesc)
  | fault (c : Cause)
  | lock
  | header
deriving DecidableEq, Repr

/-- Checks 2 to 4 of R35 under a descriptor. -/
def checkDesc (s : State) (d : RDesc) (rights : BitVec 5) (sys : Bool) (va : Nat) : Xlat :=
  let r := if sys then rights else rights ||| 0x08
  if d.perm &&& r ≠ r then .fault .rangePerm
  else if !d.resident va then .fault .partialRes
  else
    match targetOf s (d.gpa va) with
    | .bank c w _ =>
      match bankCheck s c w with
      | some e => .fault e
      | none => .ok (d.gpa va) d.cls d
    | _ => .ok (d.gpa va) d.cls d

end Sys2Proof.Machine
end

