-- ==== Sys2Proof/Machine/Lines.lean ====
section
/-!
DEFINITION. Where data rests: slices and their tags (R50 to R53), errors (R71 to R74), cache ways under token counting (R61 to
R66, R119), and the two L0 caches (R114, R115); and the translation of one access, whose walker reads the directory there (R31, R35).
-/

namespace Sys2Proof.Machine

/-! ## Bytes of a line -/

/-- The n bytes at byte o of a line. -/
def lineGet (l : BitVec 512) (o n : Nat) : Nat := l.toNat / 2 ^ (8 * o) % 2 ^ (8 * n)

/-- A line with the n low bytes of x at byte o. -/
def linePut (l : BitVec 512) (o n x : Nat) : BitVec 512 :=
  BitVec.ofNat 512 (l.toNat - lineGet l o n * 2 ^ (8 * o) + x % 2 ^ (8 * n) * 2 ^ (8 * o))

/-- A line with the bits of a mask replaced. -/
def lineMask (l m d : BitVec 512) : BitVec 512 := (l &&& ~~~m) ||| (d &&& m)

/-- Every bit of a line. -/
def lineAll : BitVec 512 := BitVec.allOnes 512

/-- The home copy of line number ln (GPA div 64): the slice or DRAM copy. -/
def homeLine (s : State) (ln : Nat) : BitVec 512 := BitVec.ofNat 512 (memRead s.mem (ln * 64) 64)

def setHomeLine (s : State) (ln : Nat) (d : BitVec 512) : State :=
  { s with mem := memWrite s.mem (ln * 64) 64 d.toNat }

/-! ## Errors (R71 to R74) -/

/-- An uncorrectable error is logged (R74): the record is taken while VALID is 0, otherwise OVER is set. -/
def logError (col : Fin 8) (src unit : Nat) (gpa : Nat) (s : State) : State :=
  let c := colAt s col
  if c.errinfo.getLsbD 63 then
    updCol s col fun c => { c with errinfo := c.errinfo ||| (1#64 <<< 62) }
  else
    raiseInt 3 (updCol s col fun c => { c with
      errinfo := (1#64 <<< 63) ||| (c.errinfo &&& (1#64 <<< 62)) ||| (BitVec.ofNat 64 src <<< 52) ||| (BitVec.ofNat 64 unit <<< 40)
      erraddr := BitVec.ofNat 64 (gpa / 64 * 64) })

/-- CECNT counts a corrected error, saturating (R74). -/
def countSoft (col : Fin 8) (s : State) : State :=
  updCol s col fun c => { c with cecnt := if c.cecnt = 0xFFFFFFFF then c.cecnt else c.cecnt + 1 }

/-! ## Slices -/

/-- A line stands in its slice, most recently used, dirty or not. -/
def slicePut (col : Fin 8) (off : Nat) (write : Bool) (s : State) : State :=
  updCol s col fun c =>
    let set := tabGet [] c.slices (sliceKey off)
    let ln := off / 64
    let dirty := write || set.any fun e => e.1 == ln && e.2
    { c with slices := tabPut c.slices (sliceKey off) ((ln, dirty) :: set.filter fun e => e.1 != ln) }

/-- The slice's copy of a line, named by its number in the column, is written to DRAM whole (R52): its error goes there with its check bits, a
good copy ends the error there (R72), and a correctable one is corrected and counted (R51). -/
def sliceToDram (col : Fin 8) (ln : Nat) (s : State) : State :=
  let c := colAt s col
  let s := if c.sliceSoft.contains ln then countSoft col s else s
  updCol s col fun c => { c with
    bad := if c.sliceBad.contains ln then ln :: c.bad.filter (· != ln) else c.bad.filter (· != ln)
    soft := c.soft.filter (· != ln), sliceSoft := c.sliceSoft.filter (· != ln) }

/-- A line leaves its slice (R52): a dirty copy is written to DRAM, the error of a clean one is gone. -/
def sliceOut (col : Fin 8) (k : Nat) (v : Nat × Bool) (s : State) : State :=
  updCol (if v.2 then sliceToDram col v.1 s else s) col fun c => { c with
    slices := tabPut c.slices k ((tabGet [] c.slices k).filter fun e => e.1 != v.1)
    sliceBad := c.sliceBad.filter (· != v.1), sliceSoft := c.sliceSoft.filter (· != v.1) }

/-- A copy of all 64 bytes is written to the home of a line: slice or DRAM errors of the line end (R72), and the slice holds it dirty
without a read of DRAM (R52). -/
def homeWriteLine (col : Fin 8) (ln : Nat) (d : BitVec 512) (s : State) : State :=
  let o := gpaOff (ln * 64)
  let s := updCol (setHomeLine s ln d) col fun c => { c with
    bad := c.bad.filter (· != o / 64), soft := c.soft.filter (· != o / 64)
    sliceBad := c.sliceBad.filter (· != o / 64), sliceSoft := c.sliceSoft.filter (· != o / 64) }
  slicePut col o true s

/-! ## Cache ways and tokens -/

/-- The cache ways of a core that count: those in a powered layer (R119). -/
def cacheWayList (s : State) (c : Nat) : List Nat :=
  let q := coreAt s c
  let up := (colAt s (colOf c)).layerctl.getLsbD 0
  (List.range 16).filter fun w => decide (q.narr ≤ w) && decide (w + q.nbank < 16) && (up || decide (w < 8))

/-- How many they are. -/
def cacheWays (s : State) (c : Nat) : Nat := (cacheWayList s c).length

def cwSet (ln : Nat) : Nat := ln % 4096

/-- A core's copy of a line. -/
def Core.cwFind (c : Core) (ln : Nat) : Option CWLine := (tabGet [] c.cw (cwSet ln)).find? fun e => e.line == ln

/-- A core without its copy of a line. -/
def Core.cwDrop (c : Core) (ln : Nat) : Core :=
  { c with cw := tabPut c.cw (cwSet ln) ((tabGet [] c.cw (cwSet ln)).filter fun e => e.line != ln) }

/-- A core with a copy of a line, most recently used. -/
def Core.cwPut (c : Core) (e : CWLine) : Core :=
  let c := c.cwDrop e.line
  { c with cw := tabPut c.cw (cwSet e.line) (e :: tabGet [] c.cw (cwSet e.line)) }

/-- The listed cores of a column that hold a copy of a line. -/
def holders (s : State) (col : Fin 8) (ln : Nat) : List (Nat × CWLine) :=
  s.cores.filterMap fun e => if colOf e.1 = col then (e.2.cwFind ln).map fun l => (e.1, l) else none

/-- Tokens of a line at its home: 256 less those of the cache ways (R61). -/
def homeTokens (s : State) (col : Fin 8) (ln : Nat) : Nat :=
  256 - ((holders s col ln).map fun e => e.2.tokens).sum

/-- The eviction of a line (R63): all its tokens return home, with the data when the owner token's copy is dirty. -/
def evictLine (c ln : Nat) (s : State) : State :=
  match (coreAt s c).cwFind ln with
  | none => s
  | some e =>
    let s := if e.owner && e.dirty then homeWriteLine (colOf c) ln e.data s else s
    updCore s c fun q => q.cwDrop ln

/-- The home collects every token of a line with its own transient write (R65). -/
def collectAll (col : Fin 8) (ln : Nat) (s : State) : State :=
  (holders s col ln).foldl (fun s e => evictLine e.1 ln s) s

/-- The DRAM line of an offset is looked up in its slice, most recently used first, and brought in when absent (R52).  With no way free
the least recently used line leaves whose tokens are all at home; where none may leave, the slice first recalls the tokens of its least
recently used line with a transient write of its own (R63). -/
def sliceTouch (col : Fin 8) (off : Nat) (write : Bool) (s : State) : State :=
  let k := sliceKey off
  let others := (tabGet [] (colAt s col).slices k).filter fun e => e.1 != off / 64
  let lnOf (e : Nat × Bool) : Nat := mkGpa s col.val (64 * e.1) / 64
  let s :=
    if others.length < 16 then s
    else
      match others.reverse.find? fun e => homeTokens s col (lnOf e) == 256, others.getLast? with
      | some v, _ => sliceOut col k v s
      | none, some v =>
        let s := collectAll col (lnOf v) s
        let dirty := (tabGet [] (colAt s col).slices k).any fun e => e.1 == v.1 && e.2
        sliceOut col k (v.1, dirty) s
      | none, none => s
  slicePut col off write s

/-- A read of a DRAM line at its home, from the slice where it holds the line, else from DRAM (R52): a correctable error is corrected, counted
and written back (R51, R71); an uncorrectable one is logged and reported (R72, R74).  For a column whose core bus failed (R76) the model records SRC 3 and UNIT 0:
its own choice, R74 names no record for it (log entry 92). -/
def homeRead (col : Fin 8) (off gpa : Nat) (write : Bool) (s : State) : Bool × State :=
  let c := colAt s col
  let ln := off / 64
  let held := c.inSlice off
  if c.vbstat.getLsbD 63 then (false, logError col 3 0 gpa s)
  else if c.lineErr off then (false, logError col (if held then 1 else 0) (sliceOf off) gpa s)
  else
    let s := if (if held then c.sliceSoft else c.soft).contains ln then
        countSoft col (updCol s col fun c =>
          if held then { c with sliceSoft := c.sliceSoft.filter (· != ln) } else { c with soft := c.soft.filter (· != ln) }) else s
    (true, sliceTouch col off write s)

/-- Lines, by their GPAs, are read at their home slices; an uncorrectable error ends the reading and is logged (R51, R73, R74). -/
def readLines (write : Bool) : List Nat → State → State
  | [], s => s
  | a :: l, s =>
    match targetOf s a with
    | .dram col off =>
      (match homeRead col off a write s with
       | (true, s) => readLines write l s
       | (false, s) => s)
    | _ => readLines write l s

/-- A copy of a line enters a core's cache ways, in a way its set does not use; with none free the least recently used line is evicted
first (R119).  A core without a cache way keeps nothing: tokens and dirty data are at home. -/
def cwInstall (c : Nat) (e : CWLine) (s : State) : State :=
  let ways := cacheWayList s c
  let set := tabGet [] (coreAt s c).cw (cwSet e.line)
  let others := set.filter fun x => x.line != e.line
  if ways.isEmpty then (if e.owner && e.dirty then homeWriteLine (colOf c) e.line e.data s else s)
  else
    match set.find? fun x => x.line == e.line, ways.find? fun w => !(others.any fun x => x.way == w), others.getLast? with
    | some x, _, _ => updCore s c fun q => q.cwPut { e with way := x.way }
    | none, some w, _ => updCore s c fun q => q.cwPut { e with way := w }
    | none, none, some v => updCore (evictLine c v.line s) c fun q => q.cwPut { e with way := v.way }
    | none, none, none => updCore s c fun q => q.cwPut e

/-- The home notes a requester in its holder hint (R63). -/
def noteHint (col : Fin 8) (ln c : Nat) (s : State) : State :=
  updCol s col fun k =>
    let h := tabGet [] k.hint ln
    { k with hint := tabPut k.hint ln (if h.contains c then h else c :: h) }

/-- The home reads a line to send its data (R51, R63). -/
def homeFill (col : Fin 8) (ln : Nat) (s : State) : State := (homeRead col (gpaOff (ln * 64)) (ln * 64) false s).2

/-- A transient read of core c (R63): the owner-token holder gives data and one other token, or the owner token when it holds
no other; the home, while it holds tokens, gives data and one token.  That the owner's copy counts as used by this (R119's order of use) is
the model's choice (log entry 115). -/
def tokenRead (c ln : Nat) (s : State) : State :=
  let col := colOf c
  match (coreAt s c).cwFind ln with
  | some e => updCore s c fun q => q.cwPut e
  | none =>
    let t := homeTokens s col ln
    let s := noteHint col ln c s
    let s := if t = 0 then s else homeFill col ln s
    let home := if t = 0 then 0 else 1
    match (holders s col ln).find? fun e => e.2.owner with
    | some (o, e) =>
      if 1 < e.tokens then
        let s := updCore s o fun q => q.cwPut { e with tokens := e.tokens - 1 }
        cwInstall c { line := ln, way := 0, tokens := 1 + home, owner := false, dirty := false, data := e.data } s
      else
        let s := updCore s o fun q => q.cwDrop ln
        cwInstall c { line := ln, way := 0, tokens := 1 + home, owner := true, dirty := e.dirty, data := e.data } s
    | none =>
      cwInstall c { line := ln, way := 0, tokens := 1, owner := decide (t ≤ 1), dirty := false, data := homeLine s ln } s

/-- A transient write of core c (R63): every holder gives all its tokens, the owner's with the data. -/
def tokenWrite (c ln : Nat) (s : State) : State :=
  let col := colOf c
  let hs := holders s col ln
  let own := hs.find? fun e => e.2.owner
  let s := noteHint col ln c (if own.isSome then s else homeFill col ln s)
  let data := match own with | some e => e.2.data | none => homeLine s ln
  let dirty := match own with | some e => e.2.dirty | none => false
  let s := hs.foldl (fun s e => updCore s e.1 fun q => q.cwDrop ln) s
  cwInstall c { line := ln, way := 0, tokens := 256, owner := true, dirty := dirty, data := data } s

/-- A store into a copy held with all tokens, which then is dirty (R61, R62). -/
def cwStore (c ln : Nat) (f : BitVec 512 → BitVec 512) (s : State) : State :=
  updCore s c fun q =>
    match q.cwFind ln with
    | none => q
    | some e => q.cwPut { e with data := f e.data, dirty := true }

/-! ## Translation -/

/-- The walker reads the lines of a search at their home slices (R29): correctable errors it meets are corrected and counted, an
uncorrectable one ends the search and is logged (R51, R73, R74). -/
def walkerReads (h va : Nat) (s : State) : State := readLines false (probeLines s h va) s

/-- A walker of column c searches a directory; it has to wait where the directory is on another device and its probes have no allowances (R459):
the model's choice (log entry 124). -/
def walkFrom (c : Fin 8) (h va : Nat) (s : State) : Option State :=
  let n := (probeLines s h va).length
  if mayReach s c h n then some (reach c h n (walkerReads h va s)) else none

/-- The translation of one access of a hart of core c (R35): range cache, then walker, filling the cache.  A directory on another device is
searched when its probes have their allowances (R459); the hart waits for them as for the header, which the model chose (log entry 124). -/
def translate (s : State) (c : Nat) (sys : Bool) (rights : BitVec 5) (va : BitVec 64) : Xlat × State :=
  let q := coreAt s c
  match rcLookup q.rcache q.job va.toNat with
  | some (d, es) => (checkDesc s d rights sys va.toNat, setCore s c { q with rcache := es })
  | none =>
    let h := hdrOf q.rdbase
    match walkFrom (colOf c) h va.toNat s with
    | none => (.header, s)
    | some t =>
    match searchDir s h va.toNat with
    | .err => (.fault .busFault, t)
    | .stall => (.lock, t)
    | .miss => (if dirEdit s h then .header else .fault .rangeMiss, t)
    | .desc d =>
      (checkDesc s d rights sys va.toNat, updCore t c fun q => { q with rcache := rcFill 32 q.rcache { job := q.job, desc := d } })

/-- The target is a privileged column register, of this device or of another. -/
def isPrivReg (s : State) (gpa : Nat) : Bool := match regionOf s gpa with | .priv _ _ => true | _ => false

/-- The translation of an access of the issuing hart, PRIV for a privileged column register at user level (R21); a locked range stalls it (R45), and a miss under an edit lock holds it
until the walker's next look at the header (R31). -/
def xlate (rights : BitVec 5) (va : BitVec 64) (s : State) : Res (Nat × Nat) :=
  match translate s s.curCore (isSys s) rights va with
  | (.ok g cls _, t) => if isPrivReg s g && !isSys s then .trap .priv va t else .ok (g, cls) t
  | (.fault c, t) => .trap c va t
  | (.lock, t) => .hold (stall (.lock va) t)
  | (.header, t) => .hold (stall (.header va) t)

/-! ## The L0 caches -/

def l0dSet (ln : Nat) : Nat := ln % 64
def l0iSet (ln : Nat) : Nat := ln % 128

/-- A lookup in one set: the line, moved to the front (R114, R115). -/
def l0Find (t : Tab (List (Nat × BitVec 512))) (k ln : Nat) : Option (BitVec 512 × Tab (List (Nat × BitVec 512))) :=
  let set := tabGet [] t k
  match set.find? fun e => e.1 == ln with
  | none => none
  | some e => some (e.2, tabPut t k (e :: set.filter fun x => x.1 != ln))

/-- A fill of one set of w ways (R114, R115). -/
def l0Fill (w : Nat) (t : Tab (List (Nat × BitVec 512))) (k ln : Nat) (d : BitVec 512) : Tab (List (Nat × BitVec 512)) :=
  tabPut t k (((ln, d) :: (tabGet [] t k).filter fun x => x.1 != ln).take w)

/-- Drop one line. -/
def l0Drop (t : Tab (List (Nat × BitVec 512))) (k ln : Nat) : Tab (List (Nat × BitVec 512)) :=
  if tabHas t k then tabPut t k ((tabGet [] t k).filter fun x => x.1 != ln) else t

/-- Drop the lines lo ≤ ln ≤ hi. -/
def l0DropSpan (t : Tab (List (Nat × BitVec 512))) (lo hi : Nat) : Tab (List (Nat × BitVec 512)) :=
  t.map fun e => (e.1, e.2.filter fun x => x.1 < lo || hi < x.1)

/-- A line that is present, changed. -/
def l0Change (t : Tab (List (Nat × BitVec 512))) (ln : Nat) (f : BitVec 512 → BitVec 512) : Tab (List (Nat × BitVec 512)) :=
  let k := l0dSet ln
  if tabHas t k then tabPut t k ((tabGet [] t k).map fun e => if e.1 = ln then (e.1, f e.2) else e) else t

/-- A store of this core updates a line that is present (R115). -/
def l0Update (t : Tab (List (Nat × BitVec 512))) (gpa n x : Nat) : Tab (List (Nat × BitVec 512)) :=
  l0Change t (gpa / 64) fun d => linePut d (gpa % 64) n x

end Sys2Proof.Machine
end

