-- ==== Sys2Proof/Machine/Registers.lean ====
section
/-!
DEFINITION. Service registers (R113) and privileged column registers: reads, and writes with what they start (R43, R74, R79,
R80, R83, R363, R365, R404, R432, R461, R462, R466, R467, R469), under the access codes of R3.
-/

namespace Sys2Proof.Machine

/-- Replace bits [hi:lo] of an old value by those of a new one. -/
def setBits (old new : BitVec 64) (hi lo : Nat) : BitVec 64 :=
  let m := (BitVec.ofNat 64 (2 ^ (hi + 1 - lo) - 1)) <<< lo
  (old &&& ~~~m) ||| (new &&& m)

/-- Bits [hi:lo] alone. -/
def onlyBits (v : BitVec 64) (hi lo : Nat) : BitVec 64 := setBits 0 v hi lo

/-- A vector's element by number, 0 beyond its end. -/
def vget {n : Nat} (v : Vector (BitVec 64) n) (i : Nat) : BitVec 64 := v.toList.getD i 0
/-- A vector with element i written, unchanged beyond its end. -/
def vput {α : Type} {n : Nat} (v : Vector α n) (i : Nat) (x : α) : Vector α n :=
  if h : i < n then v.set i x h else v

/-! ## What register writes start -/

/-- A write of LAYERCTL.REQ (R80): during a transition it takes effect when that ends; a column whose layer bus failed
ignores it (R76). -/
def layerReq (col : Fin 8) (on : Bool) (s : State) : State :=
  updCol s col fun c =>
    if c.vbstat.getLsbD 62 then c
    else if c.layerctl.getLsbD 2 then { c with layerNext := some on }
    else
      let w : BitVec 64 := setBits c.layerctl (if on then 2 else 0) 1 1
      { c with layerctl := if c.layerctl.getLsbD 0 = on then w else w ||| 4 }

/-- A write of CTXJOB for a core, by a hart or through the alias (R363): an unchanged JOB takes effect at once, a changed one is
held until its conditions come about. -/
def jobWrite (c : Nat) (v : BitVec 64) (k : Option (Fin 8)) (s : State) : State :=
  let v := onlyBits v 47 36 ||| onlyBits v 34 0
  updCore s c fun q =>
    if v.setWidth 32 = q.job then { q with ctxjob := v } else { q with jobWrite := some (v, k) }

/-- A write of VBCTL.COMMIT is ignored while BUSY (R79). -/
def vbctlWrite (c : Column) (v : BitVec 64) : Column :=
  let w := if v.getLsbD 0 then c.vbctl &&& ~~~(1#64) else c.vbctl
  { c with vbctl := if v.getLsbD 1 && !c.vbctl.getLsbD 2 then w ||| 4 else w }

/-- CMPCTL.GO (R43). -/
def cmpGo (c : Column) (v : BitVec 64) : Column :=
  if !v.getLsbD 0 then c
  else if c.cmpctl.getLsbD 63 then { c with cmpctl := setBits c.cmpctl (4#64 <<< 32) 34 32 }
  else { c with cmpctl := setBits (c.cmpctl ||| (1#64 <<< 63)) 0 34 32, cmpStep := 1, cmpErr := false }

/-- SVCTL.SAVE and RESTORE (R404): both together are ignored; while BUSY the request is rejected with STATUS 5. -/
def svGo (q : Core) (v : BitVec 64) : Core :=
  let op := v.toNat % 4
  if op = 0 ∨ op = 3 then q
  else if q.svctl.getLsbD 63 then { q with svctl := setBits q.svctl (5#64 <<< 32) 35 32 }
  else { q with svctl := (1#64 <<< 63) ||| BitVec.ofNat 64 op }

/-- A Daybreak starts, coordinated here (R432, R433): while NIGHT is 1 and none runs. -/
def startDaybreak (s : State) : State :=
  let n := s.night
  if n.nfstat.getLsbD 63 && !n.nfstat.getLsbD 62 then
    { s with night := { n with nfstat := setBits (n.nfstat ||| (1#64 <<< 62)) 0 61 60, coord := true, acks := [], leader := s.fabric.dev, ackDue := false } }
  else s

/-- A wave started by a write of NFCTL.NFALL: CAUSE 0, INDEX 0xFF (R427). -/
def nfallWave (s : State) : State := startWave (BitVec.ofNat 32 ((s.fabric.dev.toNat * 8) * 256 + 255) <<< 8) 0 none s

/-- A write of NFCTL (R432): JOB with WSEQ := 0, MODE, DB, NFALL. -/
def nfctlWrite (v : BitVec 64) (s : State) : State :=
  let n := s.night
  let s := { s with night := { n with nfctl := onlyBits v 63 32 ||| onlyBits v 2 2, nfcause := setBits n.nfcause 0 31 0 } }
  let s := if v.getLsbD 1 then startDaybreak s else s
  if v.getLsbD 0 then nfallWave s else s

/-- The package takes a device number (R461): its own memory is named by GPAs of the new number from then on. -/
def setDev (d : BitVec 8) (s : State) : State :=
  let a := s.fabric.dev.toNat
  let b := d.toNat
  if a = b then s
  else { s with
    mem := (s.mem.filter fun e => gpaDev e.1 == a).foldl (fun m e => memPut m (e.1 - a * 2 ^ 48 + b * 2 ^ 48) e.2)
      (s.mem.filter fun e => gpaDev e.1 != a && gpaDev e.1 != b)
    fabric := { s.fabric with dev := d } }

/-- FABCFG (R461): DEV is taken only while no port is up, and never as 0xFE or 0xFF; TRAIN starts the enabled ports, but none in
minimal mode (R463). -/
def fabcfgWrite (v : BitVec 64) (s : State) : State :=
  let up := s.fabric.tflstat.toList.any fun w => w.extractLsb' 62 2 == 1
  let d : BitVec 8 := v.setWidth 8
  let s := if up || d == 0xFE || d == 0xFF then s else setDev d s
  let s := { s with fabric := { s.fabric with enable := v.extractLsb' 32 16 } }
  if v.getLsbD 63 && !s.boot.minimal then trainPorts s else s

/-- A write of 1 to BOOTCTL.OK raises vector 5 (R466) and, with every earlier step of the start passed, ends it as successful: the failure
count is cleared (R463, R467). -/
def bootOk (s : State) : State :=
  raiseInt 5 (if s.boot.starting && s.boot.step == 6 then { s with boot := { s.boot with starting := false, fails := 0 } } else s)

/-- The figure a sensor trips at, in sixteenths of a degree (R468): 115 °C, DRAM sensors 105 °C. -/
def tripAt (i : Nat) : Int := if i < 11 then 1840 else 1680
def hotAt (i : Nat) : Int := if i < 11 then 1600 else 1440

/-- Effective reading of sensor i of a column (R83). -/
def tempOf (c : Column) (i : Nat) : Int := ((vget c.therm i).setWidth 16).toInt

/-- THERMCTL (R469): CAP, and TRIP cleared by a 1; cleared while every reading is below the trip figures, the column is released
through a warm reset. -/
def thermctlWrite (col : Fin 8) (v : BitVec 64) (s : State) : State :=
  let c := colAt s col
  let w := setBits c.thermctl v 15 0
  if v.getLsbD 63 && c.thermctl.getLsbD 63 then
    let s := raiseInt 4 (updCol s col fun c => { c with thermctl := w &&& ~~~(1#64 <<< 63) })
    if (List.range 13).all fun i => decide (tempOf c i < tripAt i) then
      { s with boot := { s.boot with rstBusy := true, rstCols := s.boot.rstCols ||| (1#8 <<< col.val) } }
    else s
  else updCol s col fun c => { c with thermctl := w }

/-- A write to JOBLCTj or LCTBASEj drops the cached entries of the job (R462). -/
def lctWrite (col : Fin 8) (j : Nat) (base : Bool) (v : BitVec 64) (s : State) : State :=
  updCol s col fun c =>
    let old : BitVec 32 := (vget c.joblct j).setWidth 32
    let c := if base then { c with lctbase := vput c.lctbase j (onlyBits v 55 6) }
      else { c with joblct := vput c.joblct j (onlyBits v 63 63 ||| onlyBits v 52 0) }
    let new : BitVec 32 := (vget c.joblct j).setWidth 32
    { c with lctCache := c.lctCache.filter fun e => e.1 != old && e.1 != new }

/-! ## Service registers -/

/-- An 8-byte read of the service region at a column offset (R113); the counters marked RC clear. -/
def serviceRead (col : Fin 8) (off : Nat) (s : State) : BitVec 64 × State :=
  let c := colAt s col
  let r := off - 0x18000100000
  let i := r / 64
  let w := r % 64
  if r < 0x400 then
    if w = 0 then
      let l := c.eng.toList.getD i []
      (BitVec.ofNat 64 ((l.filter fun q => !q.begun).length * 256 + (l.filter fun q => q.begun).length), s)
    else if w = 8 then (vget c.cebytes i, updCol s col fun c => { c with cebytes := vput c.cebytes i 0 })
    else if w = 16 then (vget c.cereqs i, updCol s col fun c => { c with cereqs := vput c.cereqs i 0 })
    else (0, s)
  else if 0x1000 ≤ r ∧ r < 0x1080 then
    let i := (r - 0x1000) / 64
    let own := (c.contribs.toList.getD i []).filter fun x => gpaDev x.group.toNat == s.fabric.dev.toNat
    if w = 0 then (BitVec.ofNat 64 (own.map fun x => x.group.toNat).dedup.length, s)
    else if w = 8 then (vget c.clelems i, updCol s col fun c => { c with clelems := vput c.clelems i 0 })
    else (0, s)
  else if 0x2000 ≤ r ∧ r < 0x2080 then
    let i := (r - 0x2000) / 64
    if w = 0 then (vget c.czin i, updCol s col fun c => { c with czin := vput c.czin i 0 })
    else if w = 8 then (vget c.czout i, updCol s col fun c => { c with czout := vput c.czout i 0 })
    else (0, s)
  else (0, s)

/-! ## Privileged column registers -/

/-- An 8-byte read at short offset off of column col (R20, R253); CECNT clears (R74). -/
def privRead (col : Fin 8) (off : Nat) (s : State) : BitVec 64 × State :=
  let c := colAt s col
  let z := col.val = 0
  if off = 0x2000 then (c.cmpdir, s)
  else if off = 0x2008 then (c.cmpva, s)
  else if off = 0x2010 then (c.cmptgt, s)
  else if off = 0x2018 then (c.cmpbar, s)
  else if off = 0x2020 then (c.cmpctl, s)
  else if off = 0x3000 then (c.vbstat, s)
  else if off = 0x3008 then (c.vbctl, s)
  else if off = 0x3100 then (c.errinfo, s)
  else if off = 0x3108 then (c.erraddr, s)
  else if off = 0x3110 then (c.cecnt, updCol s col fun c => { c with cecnt := 0 })
  else if off = 0x3200 then (c.layerctl, s)
  else if 0x3300 ≤ off ∧ off < 0x3368 ∧ off % 8 = 0 then (vget c.therm ((off - 0x3300) / 8), s)
  else if off = 0x4000 ∧ z then (s.dist.dqbase, s)
  else if off = 0x5000 ∧ z then (s.night.nfstat, s)
  else if off = 0x5008 ∧ z then (s.night.nfcause, s)
  else if off = 0x5010 ∧ z then (s.night.nfctl, s)
  else if 0x6000 ≤ off ∧ off < 0x7000 ∧ off % 8 = 0 then
    let q := coreAt s (256 * col.val + (off - 0x6000) / 16)
    (if off % 16 = 0 then q.svarea else q.svctl &&& ~~~(3#64), s)
  else if off = 0x7000 ∧ z then
    ((s.fabric.enable.zeroExtend 64 <<< 32) ||| s.fabric.dev.zeroExtend 64, s)
  else if 0x7100 ≤ off ∧ off < 0x7180 ∧ off % 8 = 0 ∧ z then (vget s.fabric.tflstat ((off - 0x7100) / 8), s)
  else if off = 0x8000 ∧ z then
    ((if s.boot.minimal then 1#64 <<< 62 else 0) ||| (s.boot.fails.zeroExtend 64 <<< 8) ||| s.boot.bootwhy.zeroExtend 64, s)
  else if off = 0x8100 ∧ z then (if s.boot.rstBusy then 256 else 0, s)
  else if off = 0x8200 then (c.thermctl, s)
  else if off = 0x8300 ∧ z then (s.boot.intstat.zeroExtend 64, s)
  else if 0xA000 ≤ off ∧ off < 0xB000 ∧ off % 8 = 0 then
    let q := coreAt s (256 * col.val + (off - 0xA000) / 16)
    (if off % 16 = 0 then q.ctxjob else q.ctxlc, s)
  else if 0xB000 ≤ off ∧ off < 0xB7F0 ∧ off % 8 = 0 then (tabGet 0 c.route ((off - 0xB000) / 8), s)
  else if 0xC000 ≤ off ∧ off < 0xC100 ∧ off % 8 = 0 then
    let j := (off - 0xC000) / 16
    (if off % 16 = 0 then vget c.joblct j else vget c.lctbase j, s)
  else (0, s)

/-- An 8-byte write at short offset off of column col. -/
def privWrite (col : Fin 8) (off : Nat) (v : BitVec 64) (s : State) : State :=
  let z := col.val = 0
  if off = 0x2000 then updCol s col fun c => { c with cmpdir := onlyBits v 55 6 }
  else if off = 0x2008 then updCol s col fun c => { c with cmpva := onlyBits v 63 6 }
  else if off = 0x2010 then updCol s col fun c => { c with cmptgt := onlyBits v 55 6 }
  else if off = 0x2018 then updCol s col fun c => { c with cmpbar := onlyBits v 55 6 }
  else if off = 0x2020 then updCol s col fun c => cmpGo c v
  else if off = 0x3008 then updCol s col fun c => vbctlWrite c v
  else if off = 0x3100 then updCol s col fun c => { c with errinfo := c.errinfo &&& ~~~(onlyBits v 63 62) }
  else if off = 0x3200 then layerReq col (v.getLsbD 1) s
  else if off = 0x4000 ∧ z then { s with dist := { s.dist with dqbase := onlyBits v 55 17 } }
  else if off = 0x5010 ∧ z then nfctlWrite v s
  else if 0x6000 ≤ off ∧ off < 0x7000 ∧ off % 8 = 0 then
    updCore s (256 * col.val + (off - 0x6000) / 16) fun q =>
      if off % 16 = 0 then { q with svarea := onlyBits v 55 12 } else svGo q v
  else if off = 0x7000 ∧ z then fabcfgWrite v s
  else if off = 0x8000 ∧ z then (if v.getLsbD 63 then bootOk s else s)
  else if off = 0x8100 ∧ z then
    if s.boot.rstBusy ∨ v.setWidth 8 = 0#8 then s
    else { s with boot := { s.boot with rstBusy := true, rstCols := v.setWidth 8 } }
  else if off = 0x8200 then thermctlWrite col v s
  else if off = 0x8300 ∧ z then
    { s with boot := { s.boot with intstat := s.boot.intstat &&& ~~~(v.setWidth 8) } }
  else if 0xA000 ≤ off ∧ off < 0xB000 ∧ off % 8 = 0 then
    let c := 256 * col.val + (off - 0xA000) / 16
    if off % 16 = 0 then jobWrite c v none s
    else updCore s c fun q => { q with ctxlc := onlyBits v 19 0 }
  else if 0xB000 ≤ off ∧ off < 0xB7F0 ∧ off % 8 = 0 then
    updCol s col fun c => { c with route := tabPut c.route ((off - 0xB000) / 8) (onlyBits v 15 0) }
  else if 0xC000 ≤ off ∧ off < 0xC100 ∧ off % 8 = 0 then
    lctWrite col ((off - 0xC000) / 16) (off % 16 != 0) v s
  else s

/-- Whether an access to an offset waits for a held write of CTXJOB (R363). -/
def aliasHeld (s : State) (col : Fin 8) (off : Nat) : Bool :=
  decide (0xA000 ≤ off) && decide (off < 0xB000) &&
    (coreAt s (256 * col.val + (off - 0xA000) / 16)).jobWrite.isSome

/-- Word w of a barrier object's image (R100). -/
def barWord (o : BarObj) (w : Nat) : BitVec 64 :=
  match w with
  | 0 => o.pend
  | 1 => o.init
  | 2 => o.gen.zeroExtend 64 ||| (o.mode.zeroExtend 64 <<< 32) ||| (o.status.zeroExtend 64 <<< 40)
  | 3 => o.oorcnt.zeroExtend 64 ||| (o.errcnt.zeroExtend 64 <<< 32)
  | _ => 0

def BarObj.zero : BarObj := { pend := 0, init := 0, gen := 0, mode := 0, status := 0, oorcnt := 0, errcnt := 0 }

end Sys2Proof.Machine
end

