-- ==== Sys2Proof/Machine/Access.lean ====
section
/-!
DEFINITION. One access of a hart: the write queue and its forwarding (R196), loads by class and completer (R26, R252, R253),
stores, reductions and atomics, the touched masks and the recent-write record (R59, R198), and performing at the owner (R192).
-/

namespace Sys2Proof.Machine

/-! ## Destinations, masks, the recent-write record -/

/-- Where a write goes, as R198 lists it. -/
inductive Dest where
  | slice (k : Nat)
  | column (c : Fin 8)
  | fabric (d : BitVec 8)
  | host
  | bank
deriving DecidableEq, Repr

/-- The destination of an access of core c (R56, R198); registers, barrier objects and unmapped offsets of the own column leave
at the port of slice OFF[11:6]. -/
def destOf (s : State) (c : Nat) (gpa : Nat) : Dest :=
  match targetOf s gpa with
  | .bank _ _ _ => .bank
  | .host _ => .host
  | .device d => .fabric (BitVec.ofNat 8 d)
  | .dram col off => if col = colOf c then .slice (sliceOf off) else .column col
  | _ =>
    if gpaDev gpa = s.fabric.dev.toNat then
      (if gpaCol gpa = (colOf c).val then .slice (gpa / 64 % 64) else .column ⟨gpaCol gpa, Nat.mod_lt _ (by decide)⟩)
    else .host

/-- The place of a destination in the recent-write record. -/
def recentKey : Dest → Nat
  | .slice k => k
  | .column c => 64 + c.val
  | .fabric _ => 72
  | .host => 73
  | .bank => 74

def Recent.none : Recent := { bit := false, out := 0, count := 0 }

/-- A write of the hart leaves the write queue towards a destination (R198, R59). -/
def Hart.leave (h : Hart) (d : Dest) : Hart :=
  let mark (h : Hart) : Hart :=
    let r := tabGet Recent.none h.recent (recentKey d)
    { h with recent := tabPut h.recent (recentKey d) { r with bit := true, out := r.out + 1 } }
  match d with
  | .slice k => mark { h with tsmask := h.tsmask ||| (1#64 <<< k) }
  | .column c => mark { h with txmask := h.txmask ||| (1#64 <<< c.val) }
  | .fabric v =>
    let h := { h with txmask := h.txmask ||| (1#64 <<< 9) }
    mark (if h.fab.contains v then h
      else if h.fab.length < 8 then { h with fab := v :: h.fab } else { h with fabMany := true })
  | .host => mark { h with txmask := h.txmask ||| (1#64 <<< 8) }
  | .bank => { h with bankOut := h.bankOut + 1 }

/-- The acknowledgement of such a write returns: its countdown is reloaded with 512 s-cycles (R59). -/
def Hart.acked (h : Hart) (d : Dest) (now : Nat) : Hart :=
  match d with
  | .bank => { h with bankOut := h.bankOut - 1 }
  | _ =>
    let r := tabGet Recent.none h.recent (recentKey d)
    { h with recent := tabPut h.recent (recentKey d) { r with out := r.out - 1, count := now + 512 } }

/-- A write of the hart performed in its own cache way sets no touched bit (R198), but its destination is named in the recent-write record
for 512 s-cycles, so that no later `.c` load shares a value read before it (R59, R213). -/
def Hart.recentWrite (h : Hart) (d : Dest) (now : Nat) : Hart :=
  let r := tabGet Recent.none h.recent (recentKey d)
  { h with recent := tabPut h.recent (recentKey d) { r with bit := true, count := now + 512 } }

/-- An acknowledgement that carries an error is held against the hart; of several, that of the oldest failed store, which left as the
packet of the lowest number (R73, R201). -/
def Hart.failed (h : Hart) (va : BitVec 64) (id : Nat) : Hart :=
  if h.errAck.isNone || decide (id < h.errId) then { h with errAck := some va, errId := id } else h

/-- Whether a `.c` load towards a destination may travel as combinable (R59). -/
def combinable (h : Hart) (d : Dest) : Bool :=
  let named := match d with
    | .slice k => h.tsmask.getLsbD k
    | .column c => h.txmask.getLsbD c.val
    | .fabric _ => h.txmask.getLsbD 9
    | .host => h.txmask.getLsbD 8
    | .bank => true
  !named && !(tabGet Recent.none h.recent (recentKey d)).bit

/-! ## The write queue and what is in flight -/

/-- Two byte spans meet. -/
def meets (a n b m : Nat) : Bool := decide (a < b + m) && decide (b < a + n)

/-- Bytes a request in flight writes, while it is not performed. -/
def Pkt.writes (p : Pkt) : Nat :=
  match p.loc with
  | .reply _ | .ack => 0
  | _ =>
    match p.kind with
    | .store n _ _ => n
    | .vstore _ _ => 64
    | .red _ n _ => n
    | .am _ n _ _ _ => n
    | _ => 0

/-- The request counts as a write of its hart for a release (R198, R359): stores, reductions, atomics, and barrier arrivals. -/
def PKind.isWrite : PKind → Bool
  | .store _ _ _ | .vstore _ _ | .red _ _ _ | .am _ _ _ _ _ => true
  | .barInit _ _ _ | .barArrive => true
  | _ => false

/-- A write of core c that left its queue and is not performed yet touches the span. -/
def inFlight (s : State) (c a n : Nat) : Bool := s.net.any fun p => p.core == c && meets p.gpa p.writes a n

/-- The byte at address a the youngest entry of the queue gives: none, or what it gives (no value for a reduction). -/
def wqByte (q : List WEntry) (a : Nat) : Option (Option Nat) :=
  q.foldl (fun r e =>
    if meets e.gpa e.n a 1 then
      (match e.kind with
       | .red _ => some none
       | .store => some (some (e.data.toNat / 2 ^ (8 * (a - e.gpa)) % 256))
       | .vec m d =>
         let b := lineGet m (a - e.gpa) 1
         if b = 0 then r else if b = 255 then some (some (lineGet d (a - e.gpa) 1)) else some none)
    else r) none

/-- What a load of n bytes finds in the write queue (R196): nothing, all of its bytes, or only a part. -/
inductive Fwded where
  | none
  | all (v : Nat)
  | part

def forward (q : List WEntry) (a n : Nat) : Fwded :=
  if (List.range n).all fun i => (wqByte q (a + i)).isNone then .none
  else
    (List.range n).foldl (fun r i =>
      match r, wqByte q (a + i) with
      | .all v, some (some b) => .all (v + b * 2 ^ (8 * i))
      | _, _ => .part) (.all 0)

/-- A line with the queued stores of its bytes laid over it (R196). -/
def mergeQueue (q : List WEntry) (ln : Nat) (d : BitVec 512) : BitVec 512 :=
  q.foldl (fun d e =>
    match e.kind with
    | .store => if e.gpa / 64 = ln then linePut d (e.gpa % 64) e.n e.data.toNat else d
    | .vec m x => if e.gpa / 64 = ln then lineMask d m x else d
    | .red _ => d) d

/-- A reduction of the queue touches the span. -/
def redQueued (q : List WEntry) (a n : Nat) : Bool :=
  q.any fun e => (match e.kind with | .red _ => true | _ => false) && meets e.gpa e.n a n

/-! ## Where migrated banks are -/

/-- The core that a packet of a job reaches from core c after at most so many forwarding entries: each core it reaches may have one of its own
(R419). -/
def forwarded (s : State) (job : BitVec 32) : Nat → Nat → Nat
  | 0, c => c
  | n + 1, c =>
    match (colAt s (colOf c)).fwd.find? fun f => f.job == job && f.src == idxOf c with
    | some f => forwarded s job n f.dst
    | none => c

/-- The core that answers for the banks of core c to packets of a job (R419): the package has 8 routers of 64 entries. -/
def bankCore (s : State) (job : BitVec 32) (c : Nat) : Nat := forwarded s job 512 c

/-- The GPA of byte b of way w of core c (R20). -/
def bankGpa (s : State) (c w b : Nat) : Nat :=
  mkGpa s (colOf c).val (0x10000000000 + idxOf c * 2 ^ 22 + w * 2 ^ 18 + b)

/-- The address a bank access of a job is performed at. -/
def redirect (s : State) (job : BitVec 32) (gpa : Nat) : Nat :=
  match targetOf s gpa with
  | .bank c w b => let d := bankCore s job c; if d = c then gpa else bankGpa s d w b
  | _ => gpa

/-- An access of core k to a bank of a core that is being saved or moved waits at the bank (R406). -/
def bankHeld (s : State) (k gpa : Nat) : Bool :=
  match targetOf s gpa with
  | .bank b _ _ => b != k && stopping s b
  | _ => false

/-- A bank serves local accesses and mesh arrivals in turn (R120): an access of core k must let one of the other kind pass that waits
there since the bank last took one of k's kind. -/
def bankTaken (s : State) (k b w : Nat) : Bool :=
  tabHas (coreAt s b).bankLocal w && tabGet false (coreAt s b).bankLocal w == decide (k = b) &&
    s.net.any fun p => (p.loc == .queued || p.loc == .mesh) && (p.core == b) != decide (k = b) && p.writes != 0 &&
      (match targetOf s (redirect s p.job p.gpa) with | .bank c v _ => c == b && v == w | _ => false)

/-- The bank takes an access of core k. -/
def takeBank (k b w : Nat) (s : State) : State :=
  updCore s b fun q => { q with bankLocal := tabPut q.bankLocal w (decide (k = b)) }

/-! ## Performing at the owner -/

/-- The home slice of a line, by its number. -/
def homeSlice (ln : Nat) : Nat := sliceOf (gpaOff (64 * ln))

/-- Active persistent requests of a column: at most four at each home slice, of different lines, oldest first (R64).  While one is active every
token of its line goes to its core; the 256-entry tables of R64 in the cores all hold this list. -/
def activePersist (c : Column) : List (Nat × Nat × Nat) :=
  c.persist.foldl (fun (l : List (Nat × Nat × Nat)) x =>
    if (l.any fun y => y.1 == x.1) || decide (4 ≤ (l.filter fun y => homeSlice y.1 == homeSlice x.1).length) then l else l ++ [x]) []

/-- Another core's persistent request for a line of column col is active; every request counts for the home itself (core none). -/
def barredBy (s : State) (col : Fin 8) (core : Option Nat) (ln : Nat) : Bool :=
  (activePersist (colAt s col)).any fun x => x.1 == ln && some x.2.1 != core

/-- A coherent access at the home of this address waits for an active persistent request (R64, R65). -/
def homeBarred (s : State) (coh : Bool) (gpa : Nat) : Bool :=
  match targetOf s gpa with
  | .dram col _ => coh && barredBy s col none (gpa / 64)
  | _ => false

/-- A read of n bytes at the owner, as a coherent read (R194) or without collecting (R65).  No value: the error of R73.  R74 names no record
for a bank of an unloaded core: the model logs SRC 5 and the core's index as UNIT; nor for a degraded column: SRC 3, UNIT 0 (log entry 92). -/
def ownerRead (coh : Bool) (gpa n : Nat) (s : State) : Option Nat × State :=
  if degradedAt s gpa then (none, logError ⟨gpaCol gpa, Nat.mod_lt _ (by decide)⟩ 3 0 gpa s)
  else
  match targetOf s gpa with
  | .dram col off =>
    let s := if coh then collectAll col (gpa / 64) s else s
    let (ok, s) := homeRead col off gpa false s
    if ok then (some (memRead s.mem gpa n), s) else (none, s)
  | .bank c _ _ => if lineBad s gpa then (none, logError (colOf c) 5 (idxOf c) gpa s) else (some (memRead s.mem gpa n), s)
  | .host _ => (some (memRead s.mem gpa n), s)
  | .device _ => if farError gpa then (none, s) else (some (memRead s.mem gpa n), s)
  | _ => (none, s)

/-- A write of n bytes at the owner; false when it is not performed (R73, R103, R127, R253).  A write of a whole line reads no DRAM and ends
an error of the line (R52, R72).  A register of another device is no state of this machine: a write that its region takes changes nothing here
(log entry 127). -/
def ownerWrite (coh : Bool) (gpa n x : Nat) (s : State) : Bool × State :=
  if degradedAt s gpa then (false, logError ⟨gpaCol gpa, Nat.mod_lt _ (by decide)⟩ 3 0 gpa s)
  else
  match targetOf s gpa with
  | .dram col off =>
    let s := if coh then collectAll col (gpa / 64) s else s
    if n = 64 then (true, homeWriteLine col (gpa / 64) (BitVec.ofNat 512 x) (sliceTouch col off true s))
    else
      let (ok, s) := homeRead col off gpa true s
      if ok then (true, { s with mem := memWrite s.mem gpa n x }) else (false, s)
  | .bank c w _ =>
    if lineBad s gpa || (bankCheck s c w).isSome then (false, s) else (true, { s with mem := memWrite s.mem gpa n x })
  | .host _ => (true, { s with mem := memWrite s.mem gpa n x })
  | .device _ =>
    (match farTarget gpa with
     | .dram _ _ | .bank _ _ _ => (true, { s with mem := memWrite s.mem gpa n x })
     | .service _ _ => (true, s)
     | .priv _ _ => (n == 8, s)
     | _ => (false, s))
  | .service _ _ => (true, s)
  | .priv col off => if n = 8 then (true, privWrite col off (BitVec.ofNat 64 x) s) else (false, s)
  | _ => (false, s)

/-- A write of the masked bits of the line at gpa, in one indivisible merge at the owner (R322); of all of them, the write of a whole line. -/
def ownerMask (coh : Bool) (gpa : Nat) (m d : BitVec 512) (s : State) : Bool × State :=
  let merged (s : State) : State :=
    { s with mem := memWrite s.mem gpa 64 (lineMask (BitVec.ofNat 512 (memRead s.mem gpa 64)) m d).toNat }
  if m = lineAll then ownerWrite coh gpa 64 d.toNat s
  else
    match targetOf s gpa with
    | .dram col off =>
      let s := if coh then collectAll col (gpa / 64) s else s
      let (ok, s) := homeRead col off gpa true s
      (ok, if ok then merged s else s)
    | .bank c w _ => if lineBad s gpa || (bankCheck s c w).isSome then (false, s) else (true, merged s)
    | .host _ => (true, merged s)
    | .device _ => if farError gpa then (false, s) else (true, merged s)
    | _ => (false, s)

/-- An operation at the owner (R209): the old value, or none when it is not performed. -/
def ownerModify (coh : Bool) (op : AmOp) (gpa n : Nat) (x e : BitVec 64) (s : State) : Option (BitVec 64) × State :=
  match targetOf s gpa with
  | .barrier _ _ | .service _ _ | .priv _ _ | .unmapped => (none, s)
  | .bank c w _ =>
    if lineBad s gpa || (bankCheck s c w).isSome then (none, s)
    else
      let m := BitVec.ofNat 64 (memRead s.mem gpa n)
      (some m, { s with mem := memWrite s.mem gpa n (amResult op n m x e).toNat })
  | _ =>
    match ownerRead coh gpa n s with
    | (none, s) => (none, s)
    | (some m, s) =>
      let m := BitVec.ofNat 64 m
      let s := match targetOf s gpa with | .dram col off => slicePut col off true s | _ => s
      (some m, { s with mem := memWrite s.mem gpa n (amResult op n m x e).toNat })

/-- A small gather at its home slice (R54, R65): up to 8 elements of n bytes, in one operation; each is none where its line meets an error. -/
def ownerGather (coh : Bool) (n : Nat) : List Nat → State → List (Nat × Option (BitVec 64)) × State
  | [], s => ([], s)
  | a :: l, s =>
    let (v, s) := ownerRead coh a n s
    let (r, s) := ownerGather coh n l s
    ((a, v.map fun x => BitVec.ofNat 64 x) :: r, s)

/-! ## Loads -/

/-- The completer of a scalar access (R252); cn is a `.c` load that travels as a `.nc` one. -/
inductive Completer where
  | ord | nc | c | cn
deriving DecidableEq, Repr

/-- Watch regions (R421, R422): the first enabled region of core c that contains the address and watches the kind of access. -/
def watchHit (s : State) (c : Nat) (wr : Bool) (va : Nat) : Option Bool :=
  let q := coreAt s c
  (List.range 4).findSome? fun n =>
    let pc := vget q.dbpc n
    let a := (vget q.dbpa n).toNat
    let sz := 2 ^ (pc.toNat % 64)
    let kind := pc.toNat / 256 % 4
    if pc.getLsbD 63 && decide (a % sz = 0) && decide (a ≤ va) && decide (va < a + sz) &&
        (kind == 3 || kind == (if wr then 2 else 1)) then some (pc.getLsbD 10) else none

/-- The watch check of an access of the issuing hart: WATCH, or HALTED at the instruction with ACT = 1 (R422). -/
def watch (wr : Bool) (va : BitVec 64) (s : State) : Res Unit :=
  match watchHit s s.curCore wr va.toNat with
  | none => .ok () s
  | some false => .trap .watch va s
  | some true => .hold (updMe s fun h => { h with st := .halted, back := .ready })

/-- A line of DRAM or host memory for an L0 fill by an ordinary load (R115): from the core's cache way, or from the home. -/
def fillLine (coh : Bool) (gpa : Nat) (s : State) : Option (BitVec 512) × State :=
  let c := s.curCore.val
  let ln := gpa / 64
  if coh && decide (0 < cacheWays s c) then
    match (coreAt s c).cwFind ln, (holders s (colOf c) ln).any fun e => e.2.owner with
    | some e, _ => (some e.data, tokenRead c ln s)
    | none, true =>
      let s := tokenRead c ln s
      (((coreAt s c).cwFind ln).map (·.data), s)
    | none, false =>
      match ownerRead false (ln * 64) 64 s with
      | (none, s) => (none, s)
      | (some _, s) =>
        let s := tokenRead c ln s
        (((coreAt s c).cwFind ln).map (·.data), s)
  else
    match ownerRead coh (ln * 64) 64 s with
    | (none, s) => (none, s)
    | (some v, s) => (some (BitVec.ofNat 512 v), s)

/-- A request of the issuing hart enters the network (R56, R57). -/
def newPkt (s : State) (k : PKind) (gpa : Nat) (va : BitVec 64) (loc : PLoc) : Pkt :=
  { id := s.nextId, core := s.curCore.val, slot := s.curSlot, job := (myCore s).job, kind := k, gpa := gpa, va := va, loc := loc
    born := s.clock, wants := false, val := 0, err := false, comb := false, coh := false, beats := 0 }

def sendPkt (s : State) (p : Pkt) : State := { s with net := s.net ++ [p], nextId := s.nextId + 1 }

/-- An ordinary load through the L0 data cache (R115). -/
def loadL0 (coh : Bool) (gpa n : Nat) (va : BitVec 64) (s : State) : Res Nat :=
  let c := s.curCore.val
  let ln := gpa / 64
  match l0Find (coreAt s c).l0d (l0dSet ln) ln with
  | some (d, t) => .ok (lineGet d (gpa % 64) n) (updCore s c fun q => { q with l0d := t })
  | none =>
    if inFlight s c (ln * 64) 64 || redQueued (coreAt s c).wq (ln * 64) 64 then .hold s
    else if coh && barredBy s (colOf c) (some c) ln then .hold s
    else if s.split && coh && decide (0 < cacheWays s c) && ((coreAt s c).cwFind ln).isNone then
      -- the transient read travels (R63); the load goes on when its token has come
      let p := newPkt s .tokRead (ln * 64) va (.tokens 0)
      .hold (updMe (sendPkt s p) fun h => { h with wait := .tokenReq p.id, since := s.clock })
    else
      match fillLine coh gpa s with
      | (none, s) => .trap .busFault va s
      | (some d, s) =>
        let d := mergeQueue (coreAt s c).wq ln d
        .ok (lineGet d (gpa % 64) n) (updCore s c fun q => { q with l0d := l0Fill 8 q.l0d (l0dSet ln) ln d })

/-- The barrier object at a GPA: of this device, or of another, whose objects the model holds as far as this device's operations act on
them (log entry 89). -/
def barAt (s : State) (gpa : Nat) : BarObj :=
  match targetOf s gpa with
  | .barrier c k => tabGet BarObj.zero (colAt s c).bars k
  | _ => tabGet BarObj.zero s.farBars (gpa / 64)

def putBar (gpa : Nat) (o : BarObj) (s : State) : State :=
  match targetOf s gpa with
  | .barrier c k => updCol s c fun q => { q with bars := tabPut q.bars k o }
  | _ => { s with farBars := tabPut s.farBars (gpa / 64) o }

/-- Operations on the barrier object at gpa that come before a read of the issuing hart now: those its unit has queued, and those of the
issuing core on their way (R55, R101, R197). -/
def barPending (s : State) (gpa : Nat) : Bool :=
  s.net.any fun p => p.gpa / 64 == gpa / 64 && (p.loc == .queued || p.core == s.curCore.val) &&
    (match p.kind with
     | .barInit _ _ _ | .barCredit _ _ | .barArrive | .barErrArrive | .barQuery _ _ => p.loc != .ack
     | _ => false)

/-- The access may use the L0 data cache (R26, R252): an ordinary load of a cached-L0-only range, or of a cached-coherent one of the own
column. -/
def usesL0 (s : State) (m : Completer) (gpa cls : Nat) : Bool :=
  m == .ord &&
    (match targetOf s gpa with
     | .dram col _ => cls == 1 || (cls == 0 && col == colOf s.curCore)
     | .host _ => cls == 1
     | .device _ => cls == 1 && !farError gpa
     | _ => false)

/-- A load that leaves the core, unless a beat of it was lost for good (R71, R72, R73). -/
def unlessLost (va : BitVec 64) (s : State) (k : State → Res Nat) : Res Nat :=
  if 9 ≤ (me s).beats then .trap .busFault va (updMe s fun h => { h with beats := 0 }) else k s

/-- The value of a `.c` load that travels as a `.nc` one where a cache way of the column owns the line: the owner's copy, which stays where it
is (R197, R204, R252; log entry 129). -/
def ownedValue (s : State) (m : Completer) (gpa cls n : Nat) : Option Nat :=
  match targetOf s gpa with
  | .dram col _ =>
    if m == .cn && cls == 0 && col == colOf s.curCore then
      ((holders s col (gpa / 64)).find? fun e => e.2.owner).map fun e => lineGet e.2.data (gpa % 64) n
    else none
  | _ => none

/-- A load served at the point of performance. -/
def loadHome (m : Completer) (coh : Bool) (gpa cls n : Nat) (va : BitVec 64) (s : State) : Res Nat :=
  if inFlight s s.curCore gpa n || homeBarred s coh gpa then .hold s
  else
    match ownedValue s m gpa cls n with
    | some v => .ok v s
    | none =>
      match ownerRead coh gpa n s with
      | (none, s) => .trap .busFault va s
      | (some v, s) => .ok v s

/-- A load of n bytes of the issuing hart, after translation (R252, R253).  A column whose core bus failed answers nothing (R76); a register of
another device is no state of this machine and gives a free value (log entry 127). -/
def loadAt (m : Completer) (gpa cls n : Nat) (va : BitVec 64) (s : State) : Res Nat :=
  let c := s.curCore.val
  let gpa := redirect s (myCore s).job gpa
  let l0 := usesL0 s m gpa cls
  if degradedAt s gpa then .trap .busFault va s
  else
  match forward (myCore s).wq gpa n with
  | .part => .hold s
  | .all v => .ok v s
  | .none =>
    if l0 && (l0Find (coreAt s c).l0d (l0dSet (gpa / 64)) (gpa / 64)).isSome then loadL0 false gpa n va s
    else
    unlessLost va s fun s =>
    match targetOf s gpa with
    | .dram col _ =>
      let coh := decide (col = colOf c) && cls == 0 && m != .nc && m != .cn
      if l0 then loadL0 coh gpa n va s else loadHome m coh gpa cls n va s
    | .bank b w _ =>
      match bankCheck s b w with
      | some e => .trap e va s
      | none => if bankHeld s c gpa || bankTaken s c b w then .hold s else loadHome m false gpa cls n va (takeBank c b w s)
    | .barrier _ _ =>
      if n ≠ 8 then .trap .busFault va s
      else if barPending s gpa then .hold s
      else .ok (barWord (barAt s gpa) (gpa % 64 / 8)).toNat s
    | .service col off =>
      if n = 8 then (let (v, s) := serviceRead col off s; .ok v.toNat s) else .trap .busFault va s
    | .priv col off =>
      if !isSys s then .trap .priv va s
      else if n ≠ 8 then .trap .busFault va s
      else if aliasHeld s col off then .hold s
      else (let (v, s) := privRead col off s; .ok v.toNat s)
    | .host _ => if l0 then loadL0 false gpa n va s else loadHome m false gpa cls n va s
    | .device d =>
      if !routeUp s (colOf c) d then .trap .busFault va s
      else
      match farTarget gpa with
      | .dram _ _ | .bank _ _ _ =>
        if !maySend s (colOf c) d 0 then .hold s
        else
          let s := useAllowance (colOf c) d 0 s
          if l0 then loadL0 false gpa n va s else loadHome m false gpa cls n va s
      | .barrier _ _ =>
        if n ≠ 8 then .trap .busFault va s
        else if barPending s gpa || !maySend s (colOf c) d 0 then .hold s
        else .ok (barWord (barAt s gpa) (gpa % 64 / 8)).toNat (useAllowance (colOf c) d 0 s)
      | .service _ _ | .priv _ _ =>
        if isPrivReg s gpa && !isSys s then .trap .priv va s
        else if n ≠ 8 then .trap .busFault va s
        else if !maySend s (colOf c) d 0 then .hold s
        else (let (v, s) := takeFree (useAllowance (colOf c) d 0 s); .ok v.toNat s)
      | _ => .trap .busFault va s
    | .unmapped => .trap .busFault va s

/-- The checks of a load or store up to its performance (R254): alignment, then translation and PRIV of R21.  An access of
the vector hart waits for its vector commands (R399). -/
def accessAt (rights : BitVec 5) (n : Nat) (va : BitVec 64) (s : State) : Res (Nat × Nat) :=
  if isVecHart s && !(myCore s).quiet then .hold s
  else if va.toNat % n ≠ 0 then .trap .misalign va s
  else xlate rights va s

/-- Watch checks for the kinds of access a right set stands for (R421): reads for RD, writes for WR. -/
def watchFor (rd wr : Bool) (va : BitVec 64) (s : State) : Res Unit :=
  (if rd then watch false va s else .ok () s).andThen fun _ s => if wr then watch true va s else .ok () s

/-- Where a request of core k starts: the first omega stage, or the mesh for a bank of its own column (R56, R57). -/
def startLoc (s : State) (k gpa : Nat) : PLoc :=
  match targetOf s gpa with
  | .bank c _ _ => if colOf c = colOf k then .mesh else .omega 1
  | _ => .omega 1

/-- The target rules of R253 refuse a load of n bytes. -/
def loadRefused (s : State) (gpa n : Nat) : Bool :=
  match regionOf s gpa with
  | .barrier _ _ | .service _ _ | .priv _ _ => n != 8
  | .unmapped => true
  | _ => false

/-- A scalar load of n bytes at va into gd (R251, R252), sign-extended or not; len is the instruction's length.  A watch region is looked at
after the target rules of R253 (R254, R422). -/
def loadInstr (m : Completer) (n : Nat) (sx : Bool) (d : BitVec 5) (va : BitVec 64) (len : BitVec 48) (s : State) : Res Unit :=
  (accessAt needRd n va s).andThen fun (g, cls) s =>
  (need (!loadRefused s g n) .busFault va s).andThen fun _ s =>
  (watchFor true false va s).andThen fun _ s =>
    let dst := destOf s s.curCore g
    let own := match targetOf s g with | .dram col _ => decide (col = colOf s.curCore) | _ => false
    let far := match targetOf s g with | .dram _ _ => true | _ => false
    if m = .c && s.split && far && combinable (me s) dst && !inFlight s s.curCore g n &&
        (match forward (myCore s).wq g n with | .none => true | _ => false) then
      let p := { newPkt s (.loadC n sx d) g va (startLoc s s.curCore g) with wants := true, comb := true, coh := own && cls == 0 }
      .hold (updMe (sendPkt s p) fun h => { h with wait := .reply p.id, since := s.clock })
    else
      -- a `.c` load of a bank, or one that fails the test of R59, travels as a `.nc` load (R252)
      let m := if m = .c && !combinable (me s) dst then .cn else m
      (loadAt m g cls n va s).andThen fun v s =>
        let x : BitVec 64 := if sx then BitVec.signExtend 64 (BitVec.ofNat (8 * n) v) else BitVec.ofNat 64 v
        .ok () (retire len (setG s d x))

/-! ## Stores, reductions, atomics -/

/-- An entry for the write queue; a full queue (32 entries) holds the hart READY (R196). -/
def enqueue (k : WKind) (gpa cls n : Nat) (va x : BitVec 64) (nc : Bool) (s : State) : Res Unit :=
  if 32 ≤ (myCore s).wq.length then .hold s
  else
    let own := match targetOf s gpa with | .dram col _ => decide (col = colOf s.curCore) | _ => false
    let e : WEntry := { slot := s.curSlot, kind := k, gpa := redirect s (myCore s).job gpa, va := va, n := n, data := x,
                        nc := nc || !(own && cls == 0) }
    let l0 (q : Core) : Tab (List (Nat × BitVec 512)) :=
      match k with
      | .store => l0Update q.l0d gpa n x.toNat
      | .vec m d => l0Change q.l0d (gpa / 64) fun l => lineMask l m d
      | .red _ => l0Drop q.l0d (l0dSet (gpa / 64)) (gpa / 64)
    .ok () (updMyCore s fun q => { q with wq := q.wq ++ [e], l0d := l0 q })

/-- A scalar store of the n low bytes of x at va (R251 to R254); one of another size than 8 to a privileged register traps as the load
does (R253). -/
def storeInstr (m : Completer) (n : Nat) (x va : BitVec 64) (len : BitVec 48) (s : State) : Res Unit :=
  (accessAt needWr n va s).andThen fun (g, cls) s =>
  (need (n == 8 || !isPrivReg s g) .busFault va s).andThen fun _ s =>
  (watchFor false true va s).andThen fun _ s =>
  (enqueue .store g cls n va x (m == .nc) s).andThen fun _ s => .ok () (retire len s)

/-- A reduction `RED.*` (R258). -/
def redInstr (op : AmOp) (n : Nat) (x va : BitVec 64) (s : State) : Res Unit :=
  (accessAt needRed n va s).andThen fun (g, cls) s =>
  (watchFor false true va s).andThen fun _ s =>
  (enqueue (.red op) g cls n va x false s).andThen fun _ s => .ok () (retire 4 s)

/-- The value an atomic writes to gd from the old value (R256): zero-extended for the floating-point forms at 4 bytes, otherwise
sign-extended. -/
def amWriteBack (op : AmOp) (n : Nat) (m : BitVec 64) : BitVec 64 :=
  if n = 4 then
    match op with
    | .fadd | .fmin | .fmax => (m.setWidth 32).zeroExtend 64
    | _ => (m.setWidth 32).signExtend 64
  else m

/-- The target takes no atomic: the barrier and register regions, of this device or of another (R257). -/
def noAtomic (s : State) (gpa : Nat) : Bool :=
  match regionOf s gpa with
  | .barrier _ _ | .service _ _ | .priv _ _ => true
  | _ => false

/-- An atomic finds no data at its address: in a column whose core bus failed (R76), or at an unmapped offset, where R253 and R257 name loads,
stores and the barrier and register regions only: the model's choice is BUS_FAULT at the instruction, as for a load (log entry 122). -/
def amRefused (s : State) (gpa : Nat) : Bool := degradedAt s gpa || regionOf s gpa == .unmapped

/-- An atomic `AM*` (R255 to R257): at the owner, in one operation. -/
def amInstr (op : AmOp) (n : Nat) (x va : BitVec 64) (d : BitVec 5) (s : State) : Res Unit :=
  (accessAt needAm n va s).andThen fun (g, cls) s =>
  let g := redirect s (myCore s).job g
  (need (!amRefused s g) .busFault va s).andThen fun _ s =>
  (watchFor true true va s).andThen fun _ s =>
    let e := gr s d
    let c := s.curCore.val
    let dst := destOf s c g
    let own := match targetOf s g with | .dram col _ => decide (col = colOf c) | _ => false
    let coh := own && cls == 0
    let s := updMyCore s fun q => { q with l0d := l0Drop q.l0d (l0dSet (g / 64)) (g / 64) }
    let unsent := match targetOf s g with | .device v => !routeUp s (colOf c) v | _ => false
    if unsent then .trap .busFault va s
    else if !mayReach s (colOf c) g 1 then .hold s
    else if noAtomic s g then
      .ok () (done4 d 0 (updMe (reach (colOf c) g 1 s) fun h => ((h.leave dst).acked dst s.clock).failed va s.nextId))
    else if inFlight s c g n || ((myCore s).wq.any fun w => meets w.gpa w.n g n) then .hold s
    else
      match targetOf s g with
      | .bank b w _ =>
        match bankCheck s b w with
        | some f => .trap f va s
        | none =>
          if bankHeld s c g || bankTaken s c b w then .hold s
          else if 9 ≤ (me s).beats then .trap .busFault va (updMe s fun h => { h with beats := 0 })
          else
          match ownerModify false op g n x e (takeBank c b w s) with
          | (none, s) => .trap .busFault va s
          | (some m, s) => .ok () (done4 d (amWriteBack op n m) s)
      | .device _ =>
        if 9 ≤ (me s).beats then .trap .busFault va (updMe s fun h => { h with beats := 0 })
        else
          match ownerModify false op g n x e (reach (colOf c) g 1 s) with
          | (none, s) => .trap .busFault va s
          | (some m, s) => .ok () (done4 d (amWriteBack op n m) (updMe s fun h => (h.leave dst).acked dst s.clock))
      | _ =>
        if s.split then
          let p := { newPkt s (.am op n x e d) g va (startLoc s s.curCore g) with wants := true, comb := op == .add, coh := coh }
          .hold (updMe (sendPkt s p) fun h => { h.leave dst with wait := .reply p.id, since := s.clock })
        else if homeBarred s coh g then .hold s
        else
          match ownerModify coh op g n x e s with
          | (none, s) => .trap .busFault va s
          | (some m, s) => .ok () (done4 d (amWriteBack op n m) (updMe s fun h => (h.leave dst).acked dst s.clock))

end Sys2Proof.Machine
end

