-- ==== Sys2Proof/Machine/Operands.lean ====
section
/-!
DEFINITION. Operand forms of the scalar instructions: immediates (R220, R246, R249), 16-bit expansions (R227, R228), and the
integer operations shared by their register, immediate, 32-bit and 16-bit forms (R242 to R248, R174).
-/

namespace Sys2Proof.Machine

/-- A sign-extended 12-bit immediate (R245). -/
def imm12 (i : BitVec 12) : BitVec 64 := i.signExtend 64
/-- A sign-extended 7-bit immediate of a 16-bit form (R227). -/
def imm7 (i : BitVec 7) : BitVec 64 := i.signExtend 64
/-- The upper immediate of `ldhi` and `pcadd` (R246). -/
def imm20 (i : BitVec 20) : BitVec 64 := i.signExtend 64 <<< 12
/-- The effective address of a load or store (R251). -/
def effAddr (s : State) (a : BitVec 5) (i : BitVec 12) : BitVec 64 := gr s a + imm12 i
/-- The effective address of a 16-bit load or store: base plus scale × off4 (R228). -/
def effAddr16 (s : State) (b : BitVec 3) (o : BitVec 4) (scale : Nat) : BitVec 64 := gr s (r8 b) + BitVec.ofNat 64 (scale * o.toNat)

/-- Signed and unsigned order as 1 or 0 (R242). -/
def opSlt (x y : BitVec 64) : BitVec 64 := if x.slt y then 1 else 0
def opSltn (x y : BitVec 64) : BitVec 64 := if x.ult y then 1 else 0
def opMin (x y : BitVec 64) : BitVec 64 := if x.sle y then x else y
def opMax (x y : BitVec 64) : BitVec 64 := if y.sle x then x else y
def opMinn (x y : BitVec 64) : BitVec 64 := if x.ule y then x else y
def opMaxn (x y : BitVec 64) : BitVec 64 := if y.ule x then x else y
/-- Shifts by gb[5:0] (R174, R242). -/
def opShl (x y : BitVec 64) : BitVec 64 := x <<< (y.setWidth 6).toNat
def opShr (x y : BitVec 64) : BitVec 64 := x >>> (y.setWidth 6).toNat
def opSra (x y : BitVec 64) : BitVec 64 := x.sshiftRight (y.setWidth 6).toNat
/-- High halves of the products (R243). -/
def opMulh (x y : BitVec 64) : BitVec 64 := BitVec.ofInt 64 (x.toInt * y.toInt / 2 ^ 64)
def opMulhn (x y : BitVec 64) : BitVec 64 := BitVec.ofNat 64 (x.toNat * y.toNat / 2 ^ 64)

/-- Division at any width (R174, R243): by zero all ones and the dividend; the overflow case wraps; quotients towards zero. -/
def opDiv {w : Nat} (x y : BitVec w) : BitVec w := if y = 0 then BitVec.allOnes w else x.sdiv y
def opDivn {w : Nat} (x y : BitVec w) : BitVec w := if y = 0 then BitVec.allOnes w else x / y
def opRem {w : Nat} (x y : BitVec w) : BitVec w := if y = 0 then x else x.srem y
def opRemn {w : Nat} (x y : BitVec w) : BitVec w := if y = 0 then x else x % y

/-- A 32-bit operation on the low halves, its result sign-extended from bit 31 (R244). -/
def inW (f : BitVec 32 → BitVec 32 → BitVec 32) (x y : BitVec 64) : BitVec 64 :=
  (f (x.setWidth 32) (y.setWidth 32)).signExtend 64
def wShl (x y : BitVec 32) : BitVec 32 := x <<< (y.setWidth 5).toNat
def wShr (x y : BitVec 32) : BitVec 32 := x >>> (y.setWidth 5).toNat
def wSra (x y : BitVec 32) : BitVec 32 := x.sshiftRight (y.setWidth 5).toNat

/-- Width and offset of the bit-field instructions (R247). -/
def bfW (b : BitVec 64) : Nat := (b.setWidth 7).toNat
def bfO (b : BitVec 64) : Nat := (b.extractLsb' 8 8).toNat
/-- `bext` (R247). -/
def opBext (a b : BitVec 64) : BitVec 64 :=
  let w := bfW b
  let o := bfO b
  if w = 0 ∨ 64 ≤ o then 0
  else (a >>> o) &&& BitVec.ofNat 64 (2 ^ (min w (64 - o)) - 1)
/-- `bins` into the old value of gd (R247). -/
def opBins (old a b : BitVec 64) : BitVec 64 :=
  let w := bfW b
  let o := bfO b
  if w = 0 ∨ 64 ≤ o then old
  else
    let m := BitVec.ofNat 64 (2 ^ (min w (64 - o)) - 1)
    (old &&& ~~~(m <<< o)) ||| ((a &&& m) <<< o)
/-- Counts (R248). -/
def popCount (n : Nat) : Nat → Nat
  | 0 => 0
  | k + 1 => (if n.testBit k then 1 else 0) + popCount n k
def opPopc (a : BitVec 64) : BitVec 64 := BitVec.ofNat 64 (popCount a.toNat 64)
def opClz (a : BitVec 64) : BitVec 64 := if a = 0 then 64 else BitVec.ofNat 64 (63 - Nat.log2 a.toNat)
/-- Zeros below the lowest 1 bit, looking at n bits. -/
def lowZeros (a : BitVec 64) : Nat → Nat
  | 0 => 0
  | k + 1 => if a.getLsbD (63 - k) then 0 else 1 + lowZeros a k
def opCtz (a : BitVec 64) : BitVec 64 := BitVec.ofNat 64 (lowZeros a 64)

/-- A taken branch: the instruction's address plus 2 × off (R249). -/
def branchTo (off : BitVec 64) (s : State) : State := retireAt ((me s).pc + (off <<< 1).setWidth 48) s
/-- A branch on a condition (R249); the instruction is len bytes. -/
def branchIf (b : Bool) (off : BitVec 64) (len : BitVec 48) (s : State) : State :=
  if b then branchTo off s else retire len s

end Sys2Proof.Machine
end

