-- ==== Sys2Proof/Machine/ScalarFloat.lean ====
section
/-!
DEFINITION. The meanings of the scalar floating-point instructions: majors 0x38 to 0x3A (R261 to R264).
-/

namespace Sys2Proof.Machine

/-- The word of an R-format instruction (R220): what ILLEGAL_OP, PRIV, SLOT and VOWN put into XVAL (R396). -/
def rWord (maj fn : Nat) (b a d : BitVec 5) : BitVec 64 :=
  BitVec.ofNat 64 (1 + 2 * maj + 2 ^ 7 * d.toNat + 2 ^ 12 * a.toNat + 2 ^ 17 * b.toNat + 2 ^ 22 * fn)

/-- The format a size bit selects (R261). -/
def fpFmt (z : BitVec 1) : Fmt := if z = 1 then f64 else f32
/-- The operand a size bit selects: `.w` forms ignore bits [63:32] (R261). -/
def fpIn (z : BitVec 1) (x : BitVec 64) : Nat := if z = 1 then x.toNat else (x.setWidth 32).toNat
/-- FSTAT.RM (R147). -/
def fstatRm (s : State) : Nat := ((me s).fstat.extractLsb' 8 3).toNat

/-- A scalar floating-point instruction (R261): FSTAT.RM 6 or 7 traps ILLEGAL_OP; RSR acts as RNE (R165); flags accumulate in
FSTAT; gd takes the result. -/
def fpInstr (maj op : Nat) (z : BitVec 1) (b a d : BitVec 5) (f : Nat → Nat × Flags) (s : State) : Res Unit :=
  let rm := fstatRm s
  if 6 ≤ rm then .trap .illegalOp (rWord maj (2 * op + z.toNat) b a d) s
  else
    let r := f (if rm = 5 then 0 else rm)
    .ok () (done4 d (BitVec.ofNat 64 r.1) (orFstat r.2 s))

/-- A truth value with flags as a result. -/
def asBit (r : Bool × Flags) : Nat × Flags := (if r.1 then 1 else 0, r.2)
/-- An integer result with flags. -/
def asInt (r : Int × Flags) : Nat × Flags := ((BitVec.ofInt 64 r.1).toNat, r.2)

/-- `fadd.S gd, ga, gb` (R262). -/
def execFadd (z : BitVec 1) (b a d : BitVec 5) (s : State) : Out :=
  finish (fpInstr 0x38 0 z b a d (fun rm => (fpFmt z).add rm 0 (fpIn z (gr s a)) (fpIn z (gr s b))) s)

/-- `fsub.S gd, ga, gb` (R262). -/
def execFsub (z : BitVec 1) (b a d : BitVec 5) (s : State) : Out :=
  finish (fpInstr 0x38 1 z b a d (fun rm => (fpFmt z).sub rm 0 (fpIn z (gr s a)) (fpIn z (gr s b))) s)

/-- `fmul.S gd, ga, gb` (R262). -/
def execFmul (z : BitVec 1) (b a d : BitVec 5) (s : State) : Out :=
  finish (fpInstr 0x38 2 z b a d (fun rm => (fpFmt z).mul rm 0 (fpIn z (gr s a)) (fpIn z (gr s b))) s)

/-- `fdiv.S gd, ga, gb` (R262). -/
def execFdiv (z : BitVec 1) (b a d : BitVec 5) (s : State) : Out :=
  finish (fpInstr 0x38 3 z b a d (fun rm => (fpFmt z).div rm 0 (fpIn z (gr s a)) (fpIn z (gr s b))) s)

/-- `fsqrt.S gd, ga` (R262). -/
def execFsqrt (z : BitVec 1) (a d : BitVec 5) (s : State) : Out :=
  finish (fpInstr 0x38 4 z 0 a d (fun rm => (fpFmt z).sqrt rm 0 (fpIn z (gr s a))) s)

/-- `fmin.S gd, ga, gb` (R170, R262). -/
def execFmin (z : BitVec 1) (b a d : BitVec 5) (s : State) : Out :=
  finish (fpInstr 0x38 5 z b a d (fun _ => (fpFmt z).min (fpIn z (gr s a)) (fpIn z (gr s b))) s)

/-- `fmax.S gd, ga, gb` (R170, R262). -/
def execFmax (z : BitVec 1) (b a d : BitVec 5) (s : State) : Out :=
  finish (fpInstr 0x38 6 z b a d (fun _ => (fpFmt z).max (fpIn z (gr s a)) (fpIn z (gr s b))) s)

/-- `ftoi.S gd, ga` (R161, R263). -/
def execFtoi (z : BitVec 1) (a d : BitVec 5) (s : State) : Out :=
  finish (fpInstr 0x39 0 z 0 a d (fun rm => asInt (toInt true 64 rm 0 ((fpFmt z).value (fpIn z (gr s a))))) s)

/-- `ftoin.S gd, ga` (R161, R263). -/
def execFtoin (z : BitVec 1) (a d : BitVec 5) (s : State) : Out :=
  finish (fpInstr 0x39 1 z 0 a d (fun rm => asInt (toInt false 64 rm 0 ((fpFmt z).value (fpIn z (gr s a))))) s)

/-- `itof.S gd, ga` (R161, R263). -/
def execItof (z : BitVec 1) (a d : BitVec 5) (s : State) : Out :=
  finish (fpInstr 0x39 2 z 0 a d (fun rm => (fpFmt z).ofInt rm 0 (gr s a).toInt) s)

/-- `intof.S gd, ga` (R161, R263). -/
def execIntof (z : BitVec 1) (a d : BitVec 5) (s : State) : Out :=
  finish (fpInstr 0x39 3 z 0 a d (fun rm => (fpFmt z).ofInt rm 0 ((gr s a).toNat : Int)) s)

/-- `fnar gd, ga`: f64 to f32 (R159, R160, R263). -/
def execFnar (a d : BitVec 5) (s : State) : Out :=
  finish (fpInstr 0x39 4 1 0 a d (fun rm => f32.ofVal rm 0 (f64.value (gr s a).toNat)) s)

/-- `fwid gd, ga`: f32 to f64, exact (R263). -/
def execFwid (a d : BitVec 5) (s : State) : Out :=
  finish (fpInstr 0x39 5 0 0 a d (fun rm => f64.ofVal rm 0 (f32.value (fpIn 0 (gr s a)))) s)

/-- `feq.S gd, ga, gb` (R263). -/
def execFeq (z : BitVec 1) (b a d : BitVec 5) (s : State) : Out :=
  finish (fpInstr 0x39 6 z b a d (fun _ => asBit ((fpFmt z).eq (fpIn z (gr s a)) (fpIn z (gr s b)))) s)

/-- `flt.S gd, ga, gb` (R263). -/
def execFlt (z : BitVec 1) (b a d : BitVec 5) (s : State) : Out :=
  finish (fpInstr 0x39 7 z b a d (fun _ => asBit ((fpFmt z).lt (fpIn z (gr s a)) (fpIn z (gr s b)))) s)

/-- `fle.S gd, ga, gb` (R263). -/
def execFle (z : BitVec 1) (b a d : BitVec 5) (s : State) : Out :=
  finish (fpInstr 0x39 8 z b a d (fun _ => asBit ((fpFmt z).le (fpIn z (gr s a)) (fpIn z (gr s b)))) s)

/-- `fclass.S gd, ga` (R263). -/
def execFclass (z : BitVec 1) (a d : BitVec 5) (s : State) : Out :=
  finish (fpInstr 0x39 9 z 0 a d (fun _ => ((fpFmt z).fclass (fpIn z (gr s a)), 0)) s)

/-- `fsgn.S gd, ga, gb` (R263). -/
def execFsgn (z : BitVec 1) (b a d : BitVec 5) (s : State) : Out :=
  finish (fpInstr 0x39 10 z b a d (fun _ => ((fpFmt z).withSign (fpIn z (gr s a)) ((fpFmt z).sign (fpIn z (gr s b))), 0)) s)

/-- `fsgnn.S gd, ga, gb` (R263). -/
def execFsgnn (z : BitVec 1) (b a d : BitVec 5) (s : State) : Out :=
  finish (fpInstr 0x39 11 z b a d (fun _ => ((fpFmt z).withSign (fpIn z (gr s a)) (!(fpFmt z).sign (fpIn z (gr s b))), 0)) s)

/-- `fsgnx.S gd, ga, gb` (R263). -/
def execFsgnx (z : BitVec 1) (b a d : BitVec 5) (s : State) : Out :=
  finish (fpInstr 0x39 12 z b a d (fun _ => ((fpFmt z).withSign (fpIn z (gr s a)) ((fpFmt z).sign (fpIn z (gr s a)) != (fpFmt z).sign (fpIn z (gr s b))), 0)) s)

/-- `fmadd.S gd, ga, gb` (R264). -/
def execFmadd (z : BitVec 1) (b a d : BitVec 5) (s : State) : Out :=
  finish (fpInstr 0x3A 0 z b a d (fun rm => (fpFmt z).fma rm 0 false false (fpIn z (gr s a)) (fpIn z (gr s b)) (fpIn z (gr s d))) s)

/-- `fmsub.S gd, ga, gb` (R264). -/
def execFmsub (z : BitVec 1) (b a d : BitVec 5) (s : State) : Out :=
  finish (fpInstr 0x3A 1 z b a d (fun rm => (fpFmt z).fma rm 0 false true (fpIn z (gr s a)) (fpIn z (gr s b)) (fpIn z (gr s d))) s)

/-- `fnmadd.S gd, ga, gb` (R264). -/
def execFnmadd (z : BitVec 1) (b a d : BitVec 5) (s : State) : Out :=
  finish (fpInstr 0x3A 2 z b a d (fun rm => (fpFmt z).fma rm 0 true false (fpIn z (gr s a)) (fpIn z (gr s b)) (fpIn z (gr s d))) s)

end Sys2Proof.Machine
end

