-- ==== Sys2Proof/Machine/Sync.lean ====
section
/-!
DEFINITION. Releases, acquires and the waits they bring (R195 to R202), the settled vector context (R134, R182), and the job
change of a core (R363).
-/

namespace Sys2Proof.Machine

/-! ## The devices of a job (R462) -/

/-- A router's place for a job in its job table (R462). -/
def jobPlace (c : Column) (job : BitVec 32) : Option Nat :=
  (List.range 16).find? fun j => (vget c.joblct j).getLsbD 63 && (vget c.joblct j).setWidth 32 == job

/-- An entry of a logical-core table is valid: VALID is 1 and every reserved bit 0 (R2, R462). -/
def entryValid (e : BitVec 64) : Bool := e.getLsbD 63 && e.extractLsb' 56 7 == 0 && e.extractLsb' 11 37 == 0

/-- The other devices of a job: those its logical-core table names (R462). -/
def jobDevices (s : State) (job : BitVec 32) : List (BitVec 8) :=
  match jobPlace (colAt s 0) job with
  | none => []
  | some j =>
    let n := (vget (colAt s 0).joblct j).toNat / 2 ^ 32 % 2 ^ 21
    let a := (vget (colAt s 0).lctbase j).toNat
    ((((List.range n).map fun l => dword s.mem (a + 8 * l)).filter entryValid).map fun e => e.extractLsb' 48 8).filter
      (fun d => d != s.fabric.dev) |>.dedup

/-! ## Release -/

/-- Devices the hart's release must probe (R199): those recorded, or with more than eight every device of the job. -/
def fabTargets (s : State) (h : Hart) : List Nat :=
  if !h.txmask.getLsbD 9 then []
  else (if h.fabMany then jobDevices s (myCore s).job else h.fab).map fun d => d.toNat

/-- A device of the list that no route can carry a probe to (R199). -/
def unroutable (s : State) (h : Hart) : Option Nat := (fabTargets s h).find? fun d => !routeUp s (colOf s.curCore) d

/-- Stores of a hart still in the write queue. -/
def Core.queuedOf (q : Core) (k : Fin 8) : Bool := q.wq.any fun e => e.slot == k

/-- Requests of a hart in flight that a release waits for: everything but messages, probes and waves. -/
def pktOfHart (s : State) (c : Nat) (k : Fin 8) : Bool :=
  s.net.any fun p => p.core == c && p.slot == k &&
    (match p.kind with
     | .loadC _ _ _ => true
     | k => k.isWrite)

/-- Nothing of the hart is outstanding: no write queued or unacknowledged, and both counts 0 (R198, R200). -/
def nothingOut (s : State) (c : Nat) (k : Fin 8) : Bool :=
  let h := hartAt s c k
  !(coreAt s c).queuedOf k && !pktOfHart s c k && h.bankOut == 0 && h.tokOut == 0

/-- The release completes: the masks and the device list are cleared (R200). -/
def Hart.covered (h : Hart) : Hart :=
  { h with tsmask := 0, txmask := 0, fab := [], fabMany := false, released := false, probed := false, unsent := none, probes := 0 }

/-- A release at scope k as part of an instruction (R200 to R202): at scope 0 nothing is waited for; otherwise the hart parks
until its writes are covered, and a held error traps BUS_FAULT instead, leaving the masks. -/
def withRelease (scope : BitVec 3) (s : State) (k : State → Res Unit) : Res Unit :=
  settled s fun s =>
  if scope = 0 then k s
  else if (me s).released || nothingOut s s.curCore s.curSlot then
    let far := if (me s).released then (me s).unsent else (unroutable s (me s)).map fun d => BitVec.ofNat 64 d
    match far, (me s).errAck with
    | _, some va => .trap .busFault va (updMe s fun h => { h with errAck := none, released := false, probed := false, unsent := none })
    | some d, none => .trap .busFault d (updMe s fun h => { h with released := false, probed := false, unsent := none })
    | none, none => k (updMe s Hart.covered)
  else .hold (park (.release scope) s)

/-- An acquire: the core's L0 data cache is dropped (R200, R115). -/
def acquire (s : State) : State := updMyCore s fun q => { q with l0d := [] }

/-- The probes of a release are sent, one per destination of the masks (R199): slices, columns, devices, host.  A device that no route
reaches gets none, which is held as an error until the release reports it. -/
def sendProbes (c : Nat) (k : Fin 8) (scope : BitVec 3) (s : State) : State :=
  let h := hartAt s c k
  let col := colOf c
  let slices := (List.range 64).filter fun i => h.tsmask.getLsbD i
  let cols := (List.range 8).filter fun i => h.txmask.getLsbD i
  let devs := fabTargets { s with curCore := ⟨c % 2048, Nat.mod_lt _ (by decide)⟩ } h
  let gpas := slices.map (fun i => mkGpa s col.val (64 * i)) ++ cols.map (fun i => mkGpa s i 0) ++
    (devs.filter fun d => routeUp s col d).map (fun d => d * 2 ^ 48) ++
    (if h.txmask.getLsbD 8 then [0xFE * 2 ^ 48] else [])
  let s := gpas.foldl (fun s g =>
    sendPkt s { id := s.nextId, core := c, slot := k, job := (coreAt s c).job, kind := .probe scope, gpa := g, va := 0, loc := .omega 1
                born := s.clock, wants := false, val := 0, err := false, comb := false, coh := false, beats := 0 }) s
  updHart s c k fun h => { h with
    probed := true, probes := gpas.length, unsent := (devs.find? fun d => !routeUp s col d).map fun d => BitVec.ofNat 64 d }

/-- A parked release goes on: its probes are sent once its stores have left the queue and both counts are 0, so that no write awaiting
tokens can still turn into one towards a slice; and it is done once every probe has echoed (R200). -/
def releaseStep (c : Nat) (k : Fin 8) (s : State) : State :=
  let h := hartAt s c k
  match h.wait with
  | .release scope =>
    if (coreAt s c).queuedOf k || h.bankOut != 0 || h.tokOut != 0 then s
    else if !h.probed then sendProbes c k scope s
    else if h.probes = 0 then
      updHart s c k fun h => { h.wake with released := true, probed := false }
    else s
  | _ => s

/-- Every parked release of a core goes on. -/
def releaseSteps (c : Nat) (s : State) : State :=
  (List.finRange 8).foldl (fun s k => releaseStep c k (releaseStep c k s)) s

/-! ## Clearing a core's job state (R363, R406) -/

/-- What R363 point 1 leaves of a slot; XBASE keeps its value, and of XSTAT only PRIV and PP are cleared.  R363 does not name a store error
that the slot still holds for its next release: the model drops it (log entry 123). -/
def Hart.cleared (h : Hart) : Hart :=
  { Hart.reset with xbase := h.xbase, xstat := h.xstat &&& ~~~(3#64), dstep := h.dstep, dconv := h.dconv, tsmask := h.tsmask, txmask := h.txmask
                    fab := h.fab, fabMany := h.fabMany, errAck := none }

/-- The vector context bound or unbound (R135, R166): every register, row and cell zero, the random states at their binding
values. -/
def Vec.bindTo (slot : Option (Fin 8)) : Vec :=
  { Vec.reset with bound := slot.isSome, slot := slot.getD 0 }

/-- Ways not in cache mode written to zero, full bits empty (R127 step 4, R363 point 4). -/
def clearWays (c : Nat) (ways : List Nat) (s : State) : State :=
  let base := bankGpa s c 0 0
  let s := { s with mem := ways.foldl (fun m w => memClear m (base + w * 2 ^ 18) (base + (w + 1) * 2 ^ 18)) s.mem }
  updCore s c fun q => { q with
    full := ways.foldl (fun t w => tabClear t (32768 * w) (32768 * (w + 1))) q.full
    vec := { q.vec with v := q.vec.v.filter fun e => !(ways.contains (e.1 % 32768 / 2048)) } }

/-- Messages on their way lose their sender: the slots of core c, but one, no longer count them (R363, R406).  They are retried up to the
limit of the slot they came from, and a last refusal is told to nobody: the model's choice (log entry 109). -/
def orphanMsgs (c : Nat) (keep : Option (Fin 8)) (s : State) : State :=
  { s with net := s.net.map fun p =>
      match p.kind with
      | .msg _ _ _ => if p.core = c ∧ some p.slot ≠ keep then { p with core := 2048 + c } else p
      | _ => p }

/-- The job state of a core is cleared, but for one slot (R363 points 1 to 6). -/
def clearJob (c : Nat) (keep : Option (Fin 8)) (s : State) : State :=
  let q := coreAt s c
  let nonCache := (List.range 16).filter fun w => decide (w < q.narr) || decide (16 - q.nbank ≤ w)
  let s := orphanMsgs c keep (clearWays c nonCache s)
  updCore s c fun q =>
    let q := q.mapHarts fun k h => if some k = keep then h else h.cleared
    { q with
      mb := Vector.replicate 8 0, mbFull := 0, tok := Vector.replicate 8 0, tokVa := Vector.replicate 8 0
      cstart := Vector.replicate 8 0, cpc := Vector.replicate 8 0, ring := Vector.replicate 4 [], bfmt := Vector.replicate 16 0x1F
      vec := Vec.bindTo none, latchSet := 0, latchDone := 0, rcache := q.rcache.filter fun e => e.job != q.job, l0d := [], l0i := [] }

/-- The conditions of a JOB change (R363): every other slot IDLE, no token BUSY, bound to no stage; and, since the clearing of the
recent-write record that comes first waits for it, every write of the other slots acknowledged. -/
def jobReady (s : State) (c : Nat) (keep : Option (Fin 8)) : Bool :=
  let q := coreAt s c
  ((List.finRange 8).all fun k => some k == keep || ((q.harts.get k).st == .idle && nothingOut s c k)) &&
    q.tok.toList.all (· != 1) && !q.bound

/-- The last core of a job unbound from this device ends its job entry (R368). -/
def dropJobEntry (job : BitVec 32) (s : State) : State :=
  if s.cores.any fun e => e.2.job == job then s
  else { s with dist := { s.dist with jobs := s.dist.jobs.filter fun j => j.job != job } }

/-- A held write of CTXJOB takes effect (R363); the writing hart's instruction then completes. -/
def jobChange (c : Nat) (s : State) : State :=
  match (coreAt s c).jobWrite with
  | none => s
  | some (v, k) =>
    if jobReady s c k then
      let old := (coreAt s c).job
      let s := clearJob c k s
      let s := updCore s c fun q => { q with ctxjob := v, jobWrite := none }
      let s := if old = 0 then s else dropJobEntry old s
      match k with
      | none => s
      | some k => actAs c k (retire 4) s
    else s

end Sys2Proof.Machine
end

