-- ==== Sys2Proof/Machine/SysRegs.lean ====
section
/-!
DEFINITION. The system registers (R146 to R148, R34, R96, R116, R118, R122, R123, R402, R421): numbers, reads, writes, and the
vector configuration they show (R137, R138).
-/

namespace Sys2Proof.Machine

/-! ## Vector configuration (R137, R138) -/

/-- Element width in bits of a VTYPE: 2^code (R147). -/
def vtSew (t : BitVec 64) : Nat := 2 ^ (t.toNat % 8)
def vtUns (t : BitVec 64) : Bool := t.getLsbD 3
def vtPl (t : BitVec 64) : Nat := t.toNat / 16 % 8
def vtRh (t : BitVec 64) : Bool := t.getLsbD 7
def vtRm (t : BitVec 64) : Nat := t.toNat / 256 % 8
def vtGrp (t : BitVec 64) : Nat := 2 ^ (t.toNat / 4096 % 4)
def vtIll (t : BitVec 64) : Bool := t.getLsbD 63

/-- VTYPE.ILL alone: the invalid configuration (R138), also the reset value (R147). -/
def vtBad : BitVec 64 := 1#64 <<< 63

/-- A VTYPE image's defined fields. -/
def vtMask (t : BitVec 64) : BitVec 64 := onlyBits t 13 12 ||| onlyBits t 10 0

/-- The conditions of R138. -/
def vtOk (t : BitVec 64) : Bool :=
  t.toNat % 8 != 7 && decide (vtRm t ≤ 5) && decide (vtPl t ≤ 3) &&
    (vtPl t == 0 || (vtSew t == 8 && !vtUns t)) && (!vtRh t || vtPl t != 0)

/-- GLANES (R137). -/
def Core.glanes (q : Core) : Nat := q.lanes * q.gang

/-- VLMAX = EPR × GRP (R137); 0 while ILL (R138). -/
def vlmaxOf (glanes : Nat) (t : BitVec 64) : Nat :=
  if vtIll t then 0
  else if vtSew t = 64 then glanes * vtGrp t
  else glanes * 32 / vtSew t * vtGrp t

def Core.vlmax (q : Core) : Nat := vlmaxOf q.glanes q.vec.vtype

/-! ## Reading -/

/-- CYC: stops while the core is frozen (R147, R429). -/
def cycOf (s : State) (q : Core) : BitVec 64 :=
  q.cycVal + BitVec.ofNat 64 ((q.cycStop.getD s.clock) - q.cycBase)

/-- Changes of a core's configuration whose harts still wait for them, in the order of their issue (R128). -/
def Core.wayQueue (q : Core) : List WayReq := q.wayReqs.filter fun r => (q.harts.get r.slot).wait == .ways

/-- The change whose steps have begun for core c, or for its gang's leader (R127, R144): that of its binding to a stage (R380), or the first of
its queue. -/
def wayChange (s : State) (c : Nat) : Option WayReq :=
  let q := coreAt s (leaderOf s c)
  match q.binding with
  | some (na, nb) => some { slot := 0, narr := na, nbank := nb, began := true }
  | none => q.wayQueue.head?.filter (·.began)

/-- WAYSTAT (R118): while a change runs BUSY is 1 and the counts are those of the new configuration. -/
def waystat (s : State) (c : Nat) : BitVec 64 :=
  let q := coreAt s c
  let (na, nb, busy) := match wayChange s c with | some r => (r.narr, r.nbank, 2 ^ 24) | none => (q.narr, q.nbank, 0)
  BitVec.ofNat 64 (16 - na - nb + 2 ^ 8 * na + 2 ^ 16 * nb + busy +
    (if (colAt s (colOf c)).layerctl.getLsbD 0 then 0 else 2 ^ 28))

/-- TKSTAT (R96). -/
def tkstat (q : Core) : BitVec 64 :=
  (List.range 8).foldl (fun r n => r + BitVec.ofNat 64 ((q.tok.toList.getD n 0).toNat * 4 ^ n)) 0

/-- Registers of the vector context by number (R132, R147). -/
def vecReg (n : Nat) : Bool := n ≤ 5 || n == 8 || (decide (0x20 ≤ n) && decide (n < 0x60))

/-- The value of system register n for slot k of core c; none when the number is unassigned (R146). -/
def sysGet (s : State) (c : Nat) (k : Fin 8) (n : Nat) : Option (BitVec 64) :=
  let q := coreAt s c
  let h := q.harts.get k
  let v := q.vec
  if n = 0 then some v.vl
  else if n = 1 then some v.vtype
  else if n = 2 then some v.vstart
  else if n = 3 then some v.vflags
  else if n = 4 then some v.vdirty
  else if n = 5 then some (BitVec.ofNat 64 q.vlmax)
  else if n = 8 then some v.mstat
  else if n = 0x10 then some (cycOf s q)
  else if n = 0x11 then some q.instret
  else if n = 0x12 then some q.speccnt
  else if n = 0x14 then some h.tsmask
  else if n = 0x15 then some h.txmask
  else if n = 0x16 then some h.bwto
  else if n = 0x17 then some h.geps
  else if n = 0x18 then some h.fstat
  else if 0x20 ≤ n ∧ n < 0x40 then some (vget v.vpi (n - 0x20))
  else if 0x40 ≤ n ∧ n < 0x60 then some (vget v.vhw (n - 0x40))
  else if 0xB0 ≤ n ∧ n < 0xB8 then some (vget q.cstart (n - 0xB0))
  else if 0xB8 ≤ n ∧ n < 0xC0 then some (vget q.cpc (n - 0xB8))
  else if n = 0xC0 then some (tkstat q)
  else if n = 0xC1 then some (q.mbFull.zeroExtend 64)
  else if n = 0xC2 then some 0
  else if n = 0xC3 then some (waystat s c)
  else if n = 0xC4 then some h.feretry
  else if 0xD0 ≤ n ∧ n < 0xE0 then some (vget q.bfmt (n - 0xD0))
  else if n = 0xE0 then some (hartId s c k)
  else if n = 0xE1 then some (if v.bound then 16 + BitVec.ofNat 64 v.slot.val else 0)
  else if n = 0xE2 then
    some ((q.gangLeader.zeroExtend 64 <<< 8) ||| (q.gangPos.zeroExtend 64 <<< 2) ||| q.gangSize.zeroExtend 64)
  else if n = 0x800 then some h.xpc
  else if n = 0x801 then some h.xcause
  else if n = 0x802 then some h.xval
  else if n = 0x803 then some h.xstat
  else if n = 0x804 then some h.xbase
  else if n = 0x805 then some h.xscratch
  else if n = 0x806 then some h.xconv
  else if 0x808 ≤ n ∧ n < 0x80F then some (vget h.xcpc (n - 0x808))
  else if n = 0x810 then some q.ctxjob
  else if n = 0x811 then some q.ctxlc
  else if n = 0x820 then some q.dbgctl
  else if n = 0x821 then some h.dstep
  else if n = 0x822 then some h.dconv
  else if 0x830 ≤ n ∧ n < 0x838 then
    some (if n % 2 = 0 then vget q.dbpa ((n - 0x830) / 2) else vget q.dbpc ((n - 0x830) / 2))
  else if n = 0x840 then some q.smpctl
  else if n = 0x841 then some q.smpbase
  else if n = 0x8C0 then some q.rdbase
  else if n = 0x8C1 then some (BitVec.ofNat 64 q.rcache.length)
  else none

/-- The register a number names through the privileged view, 0xA00 + n for n below 0x80 (R146). -/
def viewOf (n : Nat) : Option Nat := if 0xA00 ≤ n ∧ n < 0xA80 then some (n - 0xA00) else none

/-! ## Writing -/

/-- A privileged write of VL is clamped to VLMAX (R139); a VTYPE that breaks R138 leaves ILL alone set. -/
def writeVl (q : Core) (x : BitVec 64) : Core :=
  let n := (onlyBits x 25 0).toNat
  { q with vec := { q.vec with vl := BitVec.ofNat 64 (min n q.vlmax) } }

def writeVtype (q : Core) (x : BitVec 64) : Core :=
  let t := if x.getLsbD 63 || !vtOk (vtMask x) then vtBad else vtMask x
  { q with vec := { q.vec with vtype := t, vl := BitVec.ofNat 64 (min q.vec.vl.toNat (vlmaxOf q.glanes t)) } }

/-- MSTAT through the privileged view (R147): an MVL that is no tile size leaves MM and MVL; MM = 0 sets MVL to 0. -/
def writeMstat (v : Vec) (x : BitVec 64) : Vec :=
  let mvl := x.toNat % 128
  let w := setBits v.mstat x 32 32
  { v with mstat :=
      if x.getLsbD 63 then
        (if mvl % 8 = 0 ∧ 8 ≤ mvl ∧ mvl ≤ 64 then setBits (setBits w x 63 63) x 6 0 else w)
      else setBits (setBits w 0 63 63) 0 6 0 }

/-- A write of register n in its user view, reserved and read-only fields ignored (R2, R3). -/
def sysPut (c : Nat) (k : Fin 8) (n : Nat) (x : BitVec 64) (s : State) : State :=
  let updV (f : Vec → Vec) : State := updCore s c fun q => { q with vec := f q.vec }
  let updH (f : Hart → Hart) : State := updHart s c k f
  let updC (f : Core → Core) : State := updCore s c f
  if n = 2 then updV fun v => { v with vstart := onlyBits x 25 0 }
  else if n = 3 then updV fun v => { v with vflags := onlyBits x 5 0 }
  else if n = 8 then updV fun v => { v with mstat := setBits v.mstat x 32 32 }
  else if n = 0x16 then updH fun h => { h with bwto := onlyBits x 31 0 }
  else if n = 0x17 then updH fun h => { h with geps := onlyBits x 31 0 }
  else if n = 0x18 then updH fun h => { h with fstat := onlyBits x 10 8 ||| onlyBits x 4 0 }
  else if 0xB0 ≤ n ∧ n < 0xB8 then updC fun q => { q with cstart := vput q.cstart (n - 0xB0) (onlyBits x 63 56 ||| onlyBits x 47 0) }
  else if 0xB8 ≤ n ∧ n < 0xC0 then updC fun q => { q with cpc := vput q.cpc (n - 0xB8) (onlyBits x 47 0) }
  else if n = 0xC2 then
    updC fun q => { q with l0d := if x.getLsbD 1 then [] else q.l0d, l0i := if x.getLsbD 0 then [] else q.l0i }
  else if n = 0xC4 then updH fun h => { h with feretry := onlyBits x 15 0 }
  else if 0xD0 ≤ n ∧ n < 0xE0 then
    updC fun q => { q with bfmt := vput q.bfmt (n - 0xD0) (onlyBits x 49 32 ||| onlyBits x 23 16 ||| onlyBits x 4 0) }
  else if n = 0x800 then updH fun h => { h with xpc := onlyBits x 47 1 }
  else if n = 0x801 then updH fun h => { h with xcause := onlyBits x 7 0 }
  else if n = 0x802 then updH fun h => { h with xval := x }
  else if n = 0x803 then updH fun h => { h with xstat := setBits h.xstat x 2 1 }
  else if n = 0x804 then updH fun h => { h with xbase := onlyBits x 47 1 }
  else if n = 0x805 then updH fun h => { h with xscratch := x }
  else if n = 0x806 then updH fun h => { h with xconv := onlyBits x 62 60 ||| onlyBits x 58 56 ||| onlyBits x 51 0 }
  else if 0x808 ≤ n ∧ n < 0x80F then updH fun h => { h with xcpc := vput h.xcpc (n - 0x808) (onlyBits x 47 1) }
  else if n = 0x811 then updC fun q => { q with ctxlc := onlyBits x 19 0 }
  else if n = 0x820 then updC fun q => { q with dbgctl := onlyBits x 63 63 ||| onlyBits x 25 1 }
  else if n = 0x821 then updH fun h => { h with dstep := setBits h.dstep x 1 0 }
  else if 0x830 ≤ n ∧ n < 0x838 then
    updC fun q =>
      if n % 2 = 0 then { q with dbpa := vput q.dbpa ((n - 0x830) / 2) x }
      else { q with dbpc := vput q.dbpc ((n - 0x830) / 2) (onlyBits x 63 63 ||| onlyBits x 10 8 ||| onlyBits x 5 0) }
  else if n = 0x840 then
    updC fun q => { q with smpctl := setBits (setBits q.smpctl x 63 63) x 51 48 }
  else if n = 0x841 then updC fun q => { q with smpbase := onlyBits x 55 12 ||| onlyBits x 3 0 }
  else if n = 0x8C0 then updC fun q => { q with rdbase := onlyBits x 55 6 }
  else s

/-- A write of register n through its privileged view: fields read-only in the user view take effect (R146, R147). -/
def viewPut (c : Nat) (k : Fin 8) (n : Nat) (x : BitVec 64) (s : State) : State :=
  let updV (f : Vec → Vec) : State := updCore s c fun q => { q with vec := f q.vec }
  if n = 0 then updCore s c fun q => writeVl q x
  else if n = 1 then updCore s c fun q => writeVtype q x
  else if n = 4 then
    updV fun v => { v with
      vdirty := onlyBits x 31 0
      vhw := Vector.ofFn fun i => if x.getLsbD i.val then v.vhw.get i else 0 }
  else if n = 8 then updV fun v => writeMstat v x
  else if n = 0x10 then updCore s c fun q => { q with cycVal := x, cycBase := q.cycStop.getD s.clock }
  else if n = 0x11 then updCore s c fun q => { q with instret := x }
  else if n = 0x12 then updCore s c fun q => { q with speccnt := x }
  else if n = 0x14 then updHart s c k fun h => { h with tsmask := x }
  else if n = 0x15 then
    -- the bit of the own column is always 0 (R147)
    updHart s c k fun h => { h with txmask := onlyBits x 9 0 &&& ~~~(1#64 <<< (colOf c).val) }
  else if 0x20 ≤ n ∧ n < 0x40 then updV fun v => { v with vpi := vput v.vpi (n - 0x20) (onlyBits x 25 0) }
  else if 0x40 ≤ n ∧ n < 0x60 then updV fun v => { v with vhw := vput v.vhw (n - 0x40) (onlyBits x 22 0) }
  else sysPut c k n x s

/-- RCCTL.DROP and what it stands for (R34): every entry of the core is dropped. -/
def dropRanges (c : Nat) (s : State) : State := updCore s c fun q => { q with rcache := [] }

/-- The request is a hart's access to memory: a write, an atomic or a load. -/
def PKind.isAccess (k : PKind) : Bool :=
  k.isWrite || (match k with | .loadC _ _ _ | .tokRead | .barQuery _ _ | .gather _ _ | .gathered _ => true | _ => false)

/-- No access a hart of the core issued is outstanding: no store queued or unacknowledged, no load or atomic that has not returned (R34,
R40).  A token request that only ends a persistent one is none. -/
def coreDrained (s : State) (c : Nat) : Bool :=
  (coreAt s c).wq.isEmpty && !(s.net.any fun p => p.core == c && p.kind.isAccess && p.loc != .mesh) &&
    !(s.net.any fun p => p.core == c && p.writes != 0) &&
    ((List.finRange 8).all fun k => (hartAt s c k).bankOut == 0 && (hartAt s c k).tokOut == 0)

end Sys2Proof.Machine
end

