-- ==== Sys2Proof/Machine/Ways.lean ====
section
/-!
DEFINITION. Events of a core that others wait for: park latches (R269), mailboxes (R85), full/empty words and their waiters (R121,
R122), drops of range entries and L0 lines (R39, R114), and the change of a core's way configuration (R127, R128).
-/

namespace Sys2Proof.Machine

/-! ## Wake events -/

/-- An event bit of R269 is latched by every hart of a core; a hart parked in `park` wakes. -/
def noteEvent (c : Nat) (bit : BitVec 4) (s : State) : State :=
  updCore s c fun q => q.mapHarts fun _ h =>
    let h := { h with latch := h.latch ||| bit }
    if h.wait = .park then h.wake else h

/-- FERETRY.LIMIT of a hart (R122). -/
def Hart.feLimit (h : Hart) : Nat := h.feretry.toNat % 65536

/-- One wake-up or timed retry counts (R121, R85): past the limit the operation traps FE_LIMIT and the count is cleared;
otherwise the hart goes on as f says. -/
def countRetry (c : Nat) (k : Fin 8) (xval : BitVec 64) (f : State → State) (s : State) : State :=
  let h := hartAt s c k
  let n := h.feCount + 1
  if h.feLimit ≠ 0 ∧ h.feLimit < n then
    actAs c k (fun s => takeTrap .feLimit xval false s) (updHart s c k fun h => { h with feCount := 0 })
  else f (updHart s c k fun h => { h with feCount := n })

/-! ## Mailboxes -/

/-- The hart waits, parked, on mailbox n. -/
def mbWaits (h : Hart) (n : Nat) : Bool :=
  h.isParked && (match h.wait with | .mbput m _ => m == n | .mbget m _ => m == n | _ => false)
/-- Its operation matches the mailbox as it is. -/
def mbMatches (full : Bool) (h : Hart) (n : Nat) : Bool :=
  mbWaits h n && (match h.wait with | .mbput _ _ => !full | .mbget _ _ => full | _ => false)

def setMb (q : Core) (n : Nat) (v : BitVec 64) (full : Bool) : Core :=
  { q with mb := vput q.mb n v, mbFull := if full then q.mbFull ||| (1#8 <<< n) else q.mbFull &&& ~~~(1#8 <<< n) }

/-- The longest-parked hart of a list that satisfies p (R85). -/
def longest (s : State) (c : Nat) (p : Hart → Bool) : Option (Fin 8) :=
  (List.finRange 8).foldl (fun r k =>
    if p (hartAt s c k) then
      (match r with
       | none => some k
       | some j => if (hartAt s c k).since < (hartAt s c j).since then some k else r)
    else r) none

/-- What a change of a mailbox's full/empty bit brings about (R85, R269): the longest-parked matching hart completes in the same
s-cycle, which is a change again; every other hart parked there counts a wake-up. -/
def mbChange (c n : Nat) : Nat → State → State
  | 0, s => s
  | f + 1, s =>
    let s := noteEvent c 2 s
    let full := (coreAt s c).mbFull.getLsbD n
    let w := longest s c fun h => mbMatches full h n
    let s := (List.finRange 8).foldl (fun s k =>
      if some k ≠ w ∧ mbWaits (hartAt s c k) n then countRetry c k (BitVec.ofNat 64 n) id s else s) s
    match w with
    | none => s
    | some k =>
      match (hartAt s c k).wait with
      | .mbput _ v =>
        let s := updCore s c fun q => setMb q n v true
        mbChange c n f (actAs c k (fun s => retire 4 (updMe s fun h => { h with feCount := 0 })) s)
      | .mbget _ d =>
        let v := vget (coreAt s c).mb n
        let s := updCore s c fun q => setMb q n v false
        mbChange c n f (actAs c k (fun s => done4 d v (updMe s fun h => { h with feCount := 0 })) s)
      | _ => s

/-! ## Full/empty words -/

/-- Key of the full bit of the word at byte b of way w (R121). -/
def fullKey (w b : Nat) : Nat := 32768 * w + b / 8

/-- A waiter is woken and counts the wake-up (R121 points 2 and 4). -/
def feWake (c : Nat) (k : Fin 8) (s : State) : State :=
  match (hartAt s c k).wait with
  | .fullEmpty _ va _ => countRetry c k va (fun s => wake s c k) s
  | _ => s

/-- The full/empty bit of the word at GPA g: a bank's of this device, or one of another device's (R19, R121). -/
def feBit (s : State) (g : Nat) : Bool :=
  match targetOf s g with
  | .bank c w b => tabGet false (coreAt s c).full (fullKey w b)
  | _ => tabGet false s.farFull (g / 8)

def fePut (g : Nat) (v : Bool) (s : State) : State :=
  match targetOf s g with
  | .bank c w b => updCore s c fun q => { q with full := tabPut q.full (fullKey w b) v }
  | _ => { s with farFull := tabPut s.farFull (g / 8) v }

/-- The waiter table of the bank at GPA g. -/
def feWaiters (s : State) (g : Nat) : List Waiter :=
  match targetOf s g with
  | .bank c w _ => tabGet [] (coreAt s c).waiters w
  | _ => tabGet [] s.farWaiters (g / 2 ^ 18)

def putWaiters (g : Nat) (l : List Waiter) (s : State) : State :=
  match targetOf s g with
  | .bank c w _ => updCore s c fun q => { q with waiters := tabPut q.waiters w l }
  | _ => { s with farWaiters := tabPut s.farWaiters (g / 2 ^ 18) l }

/-- A change of a word's bit wakes every waiter recorded for it (R121 point 2). -/
def wakeWaiters (g : Nat) (s : State) : State :=
  let l := feWaiters s g
  let word := g % 2 ^ 18 / 8
  (l.filter fun e => e.word == word).foldl (fun s e => feWake e.core e.slot s) (putWaiters g (l.filter fun e => e.word != word) s)

/-- Every waiter of some ways is woken, the tables emptied (R127 step 2, R129). -/
def wakeWays (c : Nat) (ways : List Nat) (s : State) : State :=
  ways.foldl (fun s w =>
    let l := tabGet [] (coreAt s c).waiters w
    let s := updCore s c fun q => { q with waiters := tabDel q.waiters w }
    l.foldl (fun s e => feWake e.core e.slot s) s) s

/-! ## Drops -/

/-- GPA lines a descriptor's range covers. -/
def RDesc.lines (d : RDesc) : Nat × Nat := (d.tgt, d.tgt + (d.vlast - d.vbase))

/-- A drop request in one core (R39, R114): entries of the job that meet the span, and the L0 lines inside their targets. -/
def dropSpan (c : Nat) (job : BitVec 32) (lo hi : Nat) (s : State) : State :=
  updCore s c fun q =>
    let hit (e : REntry) : Bool := e.job == job && decide (e.desc.vbase * 64 ≤ hi) && decide (lo ≤ e.desc.vlast * 64 + 63)
    let gone := q.rcache.filter hit
    { q with
      rcache := q.rcache.filter fun e => !hit e
      l0d := gone.foldl (fun t e => l0DropSpan t e.desc.lines.1 e.desc.lines.2) q.l0d
      l0i := gone.foldl (fun t e => l0DropSpan t e.desc.lines.1 e.desc.lines.2) q.l0i }

/-! ## Way configurations -/

/-- Mode of way w under a configuration: 0 array, 1 cache, 2 scratchpad (R117). -/
def wayMode (narr nbank w : Nat) : Nat := if w < narr then 0 else if w + nbank < 16 then 1 else 2

/-- VHWn after a change (R128): the rows it covered stay covered. -/
def vhwAfter (gl gl' h : Nat) : Nat := if h = 0 ∨ gl = 0 then 0 else min ((h + gl - 1) / gl * gl') (gl' * 32)

/-- Steps 2 to 5 of the change sequence of R127 with the effects of R128 on one core: waiters of changing ways wake, the lines of changing
cache ways go home, changing ways are cleared, and the new modes take effect. -/
def applyWays (c narr nbank : Nat) (s : State) : State :=
  let q := coreAt s c
  let changing := (List.range 16).filter fun w => wayMode q.narr q.nbank w != wayMode narr nbank w
  let s := wakeWays c changing s
  let victims := q.cw.flatMap fun e => (e.2.filter fun l => changing.contains l.way).map (·.line)
  let s := victims.foldl (fun s ln => evictLine c ln s) s
  let s := clearWays c changing s
  let opened := changing.filter fun w => wayMode narr nbank w == 2
  updCore s c fun q =>
    let q' := { q with narr := narr, nbank := nbank, bfmt := opened.foldl (fun b w => vput b w 0x1F) q.bfmt }
    { q' with vec := { q'.vec with
        vl := BitVec.ofNat 64 (min q'.vec.vl.toNat q'.vlmax)
        vhw := q'.vec.vhw.map fun h => BitVec.ofNat 64 (vhwAfter q.glanes q'.glanes h.toNat)
        vdirty := if narr = 0 then 0 else q'.vec.vdirty } }

end Sys2Proof.Machine
end

