-- ==== Sys2Proof/Machine/System.lean ====
section
/-!
DEFINITION. The meanings of the ordering, waiting, system-register and operand-extension instructions, full/empty words and
mailboxes, traps and their return, breakpoints (R259, R260, R265 to R271, R413 to R416, R425).
-/

namespace Sys2Proof.Machine

/-- The word of an I-format instruction (R220). -/
def iWord (maj fn3 : Nat) (i : BitVec 12) (a d : BitVec 5) : BitVec 64 :=
  BitVec.ofNat 64 (1 + 2 * maj + 2 ^ 7 * d.toNat + 2 ^ 12 * a.toNat + 2 ^ 17 * i.toNat + 2 ^ 29 * fn3)

/-- An instruction that would park in the handler slot traps HANDLER_BLOCK instead (R394). -/
def orBlock (word : BitVec 64) (s : State) (k : State → Res Unit) : Res Unit :=
  if s.curSlot = 7 then .trap .handlerBlock word s else k s

/-! ## Full/empty words and mailboxes -/

/-- A full/empty operation at the bank word of GPA g (R121): on the word's bit as required it is performed, otherwise the hart is recorded
as a waiter, or retries after 256 s-cycles when the table is full.  A full write queue, which an `STE` passes through (R196), and an
earlier access of the core to the word on its way hold the hart. -/
def feAtBank (load : Bool) (x va : BitVec 64) (d : BitVec 5) (word : BitVec 64) (g : Nat) (s : State) : Res Unit :=
  (watchFor load (!load) va s).andThen fun _ s =>
  if bankHeld s s.curCore g || inFlight s s.curCore g 8 || ((myCore s).wq.any fun e => meets e.gpa e.n g 8) ||
      (!load && decide (32 ≤ (myCore s).wq.length)) then .hold s
  else if feBit s g = load then
    let old := BitVec.ofNat 64 (memRead s.mem g 8)
    let s := if load then s else { s with mem := memWrite s.mem g 8 x.toNat }
    -- an `STE` towards another device is a write of R198, acknowledged as it is performed
    let left (h : Hart) : Hart :=
      match destOf s s.curCore g with
      | .fabric d => if load then h else (h.leave (.fabric d)).acked (.fabric d) s.clock
      | _ => h
    let s := updMe (fePut g (!load) s) fun h => { left h with feCount := 0 }
    .ok () (wakeWaiters g (retire 4 (if load then setG s d old else s)))
  else
    orBlock word s fun s =>
      let l := feWaiters s g
      if l.length < 16 then .hold (park (.fullEmpty g va true) (putWaiters g (l ++ [⟨g % 2 ^ 18 / 8, s.curCore.val, s.curSlot⟩]) s))
      else .hold (updMe (park (.fullEmpty g va false) s) fun h => { h with timer := some (s.clock + 256) })

/-- A full/empty operation (R259, R121): at a scratchpad bank of this device, or of another device, whose packet needs a route and an
allowance (R19, R459, R462; log entry 89); at any other target it traps BUS_FAULT. -/
def fullEmpty (load : Bool) (x va : BitVec 64) (d : BitVec 5) (word : BitVec 64) (s : State) : Res Unit :=
  (accessAt (if load then needRdWr else needWr) 8 va s).andThen fun (g, _) s =>
  let g := redirect s (myCore s).job g
  if 9 ≤ (me s).beats then .trap .busFault va (updMe s fun h => { h with beats := 0 })
  else
  match targetOf s g with
  | .bank c w _ =>
    if lineBad s g then .trap .busFault va s
    else
      match bankCheck s c w with
      | some e => .trap e va s
      | none => if bankTaken s s.curCore c w then .hold s else feAtBank load x va d word g (takeBank s.curCore c w s)
  | .device v =>
    (match farTarget g with
     | .bank _ _ _ =>
       if !routeUp s (colOf s.curCore) v then .trap .busFault va s
       else if !maySend s (colOf s.curCore) v 0 then .hold s
       else feAtBank load x va d word g (useAllowance (colOf s.curCore) v 0 s)
     | _ => .trap .busFault va s)
  | _ => .trap .busFault va s

/-- `ldf.d gd, 0(ga)` (R259). -/
def execLdfD (a d : BitVec 5) (s : State) : Out := finish (fullEmpty true 0 (gr s a) d (rWord 0x16 0x083 0 a d) s)

/-- `ste.d gb, 0(ga)` (R259). -/
def execSteD (b a : BitVec 5) (s : State) : Out := finish (fullEmpty false (gr s b) (gr s a) 0 (rWord 0x16 0x093 b a 0) s)

/-- `mbput mbN, ga` (R85, R260). -/
def execMbput (a n : BitVec 5) (s : State) : Out :=
  let k := n.toNat
  finish (settled s fun s =>
    if (myCore s).mbFull.getLsbD k then
      orBlock (rWord 0x17 0 0 a n) s fun s => .hold (park (.mbput k (gr s a)) s)
    else
      let s := updMyCore s fun q => setMb q k (gr s a) true
      .ok () (mbChange s.curCore k 9 (retire 4 (updMe s fun h => { h with feCount := 0 }))))

/-- `mbget gd, mbN` (R85, R260). -/
def execMbget (n d : BitVec 5) (s : State) : Out :=
  let k := n.toNat
  finish (settled s fun s =>
    if (myCore s).mbFull.getLsbD k then
      let v := vget (myCore s).mb k
      let s := updMyCore s fun q => setMb q k v false
      .ok () (mbChange s.curCore k 9 (done4 d v (updMe s fun h => { h with feCount := 0 })))
    else orBlock (rWord 0x17 1 0 n d) s fun s => .hold (park (.mbget k d) s))

/-! ## Ordering -/

/-- A `fence` beside its release (R200, R393): earlier messages placed, a dropped one reported. -/
def fenceRest (s : State) (k : State → Res Unit) : Res Unit :=
  if 0 < (me s).msgsOut then .hold (park .messages s)
  else match (me s).dropped with
    | l :: t => .trap .sendLimit (l.zeroExtend 64) (updMe s fun h => { h with dropped := t })
    | [] => k s

/-- `fence s` (R200, R201). -/
def execFence (k : BitVec 3) (s : State) : Out :=
  finish (withRelease k s fun s => fenceRest s fun s => .ok () (retire 4 s))

/-- `acq s` (R200). -/
def execAcq (_k : BitVec 3) (s : State) : Out := finish (settled s fun s => .ok () (retire 4 (acquire s)))

/-- `rel s` (R200 to R202). -/
def execRel (k : BitVec 3) (s : State) : Out := finish (withRelease k s fun s => .ok () (retire 4 s))

/-- `phase s`: a release, then an acquire (R200). -/
def execPhase (k : BitVec 3) (s : State) : Out := finish (withRelease k s fun s => .ok () (retire 4 (acquire s)))

/-- `vfence` (R265): the vector hart's alone; every earlier vector, dense-tile and block-port command completes first. -/
def execVfence (s : State) : Out :=
  finish (
    if !isVecHart s then .trap .vown (iWord 0x1C 4 0 0 0) s
    else settled s fun s => .ok () (retire 4 s))

/-! ## Barrier wires, park, tokens -/

/-- The cores of a wire set: 0 the row cluster, 1 the mesh column, 2 the die (R267). -/
def wireSet (c w : Nat) : List Nat :=
  let base := 256 * (colOf c).val
  if w = 0 then (List.range 16).map fun k => base + 16 * rowOf c + k
  else if w = 1 then (List.range 16).map fun k => base + 16 * k + meshColOf c
  else (List.range 256).map fun k => base + k

/-- A core has arrived in a set: its latch is set, its leader's for a follower; a core bound to no stage counts (R267). -/
def wireArrived (s : State) (w c : Nat) : Bool :=
  !(coreAt s c).bound || (coreAt s c).unloaded || (coreAt s (leaderOf s c)).latchSet.getLsbD w

/-- The release scope of a set (R214). -/
def wireScope (w : Nat) : BitVec 3 := if w = 0 then 3 else 4

/-- `barw gd, wire` (R268): a release, the core's arrival, and a wait for the generation, with the time-out of BWTO.  Where the generation of
an arrival that timed out has completed since, the instruction is done. -/
def execBarw (w d : BitVec 5) (s : State) : Out :=
  finish (orBlock (rWord 0x1D 0 w 0 d) s fun s =>
    withRelease (wireScope w.toNat) s fun s =>
      if (myCore s).latchDone.getLsbD w.toNat then
        .ok () (done4 d 0 (acquire (updMyCore s fun q => { q with latchDone := q.latchDone &&& ~~~(1#3 <<< w.toNat) })))
      else
      let s := updMyCore s fun q => { q with latchSet := q.latchSet ||| (1#3 <<< w.toNat) }
      let lim := (me s).bwto.toNat % 2 ^ 32
      .hold (updMe (park (.wires w.toNat d) s) fun h => { h with timer := if lim = 0 then none else some (s.clock + lim) }))

/-- `park gd, ga` (R269); in the handler slot it traps whatever the latch holds (R394, log entry 61). -/
def execPark (a d : BitVec 5) (s : State) : Out :=
  finish (orBlock (rWord 0x1D 1 0 a d) s fun s => settled s fun s =>
    if (me s).latch ≠ 0 then
      .ok () (done4 d ((me s).latch.zeroExtend 64) (updMe s fun h => { h with latch := 0 }))
    else
        let t := (gr s a).toNat % 2 ^ 32
        .hold (updMe (park .park s) fun h => { h with timer := if t = 0 then none else some (h.timer.getD (s.clock + t)) }))

/-- The lowest token of a mask in a state (R94, R95). -/
def tokenIn (q : Core) (mask : BitVec 8) (st : BitVec 2) : Option Nat :=
  (List.range 8).find? fun n => mask.getLsbD n && (q.tok.toList.getD n 0) == st

/-- COPY_ERR for token n (R95, R106): the token becomes IDLE, XVAL is the address whose access faulted. -/
def copyErr (n : Nat) (s : State) : Res Unit :=
  .trap .copyErr (vget (myCore s).tokVa n) (updMyCore s fun q => { q with tok := vput q.tok n 0 })

/-- `waitt ga` (R95, R270). -/
def execWaitt (a : BitVec 5) (s : State) : Out :=
  let mask : BitVec 8 := (gr s a).setWidth 8
  finish (settled s fun s =>
    if s.curSlot ≠ 6 then .trap .slot (rWord 0x1D 2 0 a 0) s
    else match tokenIn (myCore s) mask 2 with
      | some n => copyErr n s
      | none =>
        match tokenIn (myCore s) mask 1 with
        | some _ => .hold (park (.tokens mask) s)
        | none => .ok () (retire 4 s))

/-! ## System registers, traps -/

/-- The checks of a register access by number (R146, R133): PRIV, ILLEGAL_OP, VOWN; goes on with the register and whether the
privileged view is meant.  While the vector context is unbound only the handler slot reaches its registers, through either view the table of
R133 gives it. -/
def sysAccess (n : BitVec 12) (word : BitVec 64) (write : Bool) (s : State) (k : Nat → Bool → Res Unit) : Res Unit :=
  let m := n.toNat
  if n.getLsbD 11 then
    if !isSys s then .trap .priv word s
    else match viewOf m with
      | some r =>
        if (sysGet s s.curCore s.curSlot r).isNone then .trap .illegalOp word s
        else if vecReg r && !(myCore s).vec.bound && s.curSlot != 7 then .trap .vown word s
        else k r true
      | none => if (sysGet s s.curCore s.curSlot m).isSome then k m false else .trap .illegalOp word s
  else if (sysGet s s.curCore s.curSlot m).isNone then .trap .illegalOp word s
  else if write && decide (0xB0 ≤ m) && decide (m ≤ 0xC1) && s.curSlot != 6 then .trap .slot word s
  else if vecReg m && !isVecHart s then .trap .vown word s
  else k m false

/-- `mfs gd, n` (R414): a user view of a vector-context register waits for the settled value, a privileged view by another hart does not
(R134); nor does the vector hart's own through a privileged view, of which R134 does not speak: the model's choice (log entry 118). -/
def execMfs (n : BitVec 12) (d : BitVec 5) (s : State) : Out :=
  finish (sysAccess n (iWord 0x1E 0 n 0 d) false s fun m view =>
    if vecReg m && !view && !(myCore s).quiet then .hold s
    else .ok () (done4 d ((sysGet s s.curCore s.curSlot m).getD 0) s))

/-- `mts n, ga` (R414): vector-context registers wait for the idle sequencer, and a waiting write of another hart than the vector hart holds
that hart's next vector command (R134); RCCTL.DROP until nothing is outstanding (R34); a change of CTXJOB.JOB parks until its conditions
hold (R363).  A write of INSTRET through its privileged view is followed by the count of the `mts` itself, so the register then holds
x + 1: the model's choice, R147 does not say (log entry 93). -/
def execMts (n : BitVec 12) (a : BitVec 5) (s : State) : Out :=
  let x := gr s a
  finish (sysAccess n (iWord 0x1E 1 n a 0) true s fun m view =>
    if (vecReg m || isVecHart s) && !(myCore s).quiet then
      .hold (if isVecHart s then s else updMe s fun h => { h with wait := .settle })
    else if view then .ok () (retire 4 (viewPut s.curCore s.curSlot m x s))
    else if m = 0x8C1 then
      if !x.getLsbD 8 then .ok () (retire 4 s)
      else if coreDrained s s.curCore then .ok () (retire 4 (dropRanges s.curCore s))
      else .hold (park (.inval 0) s)
    else if m = 0x810 then
      if (myCore s).jobWrite.isSome then .hold s
      else
      let s := jobWrite s.curCore x (some s.curSlot) s
      if (myCore s).jobWrite.isNone then .ok () (retire 4 s)
      else if jobReady s s.curCore (some s.curSlot) then .hold (jobChange s.curCore s)
      else .hold (park .jobWrite s)
    else .ok () (retire 4 (sysPut s.curCore s.curSlot m x s)))

/-- `trap imm12`: SYSCALL with XVAL := zext(imm12) (R415). -/
def execTrap (i : BitVec 12) (s : State) : Out := finish (.trap .syscall (i.zeroExtend 64) s)

/-- `xret` (R416): privileged; it ends the open convoy. -/
def execXret (s : State) : Out :=
  finish (
    if !isSys s then .trap .priv (rWord 0x1E 0x180 0 0 0) s
    else settled s fun s =>
      let s := updMe s Hart.returnFromTrap
      .ok () (retireAt (me s).pc s))

/-- `brk code` (R425). -/
def execBrk (c : BitVec 5) (s : State) : Out := finish (.trap .brk (c.zeroExtend 64) s)

/-- `nfall ga` (R425): starts a wave with CAUSE ga[7:0]; the hart freezes with PC at the next instruction and PEND = 0.  It waits for the
hart's earlier vector commands, which could still undo it (R399). -/
def execNfall (a : BitVec 5) (s : State) : Out :=
  finish (
    if !isSys s then .trap .priv (rWord 0x3E 0x101 0 a 0) s
    else settled s fun s =>
      let key := originKey s s.curCore s.curSlot.val
      let cause : BitVec 8 := (gr s a).setWidth 8
      .ok () (startWave key cause none (updMe (retire 4 s) fun h =>
        { h with st := .frozen, back := .ready, dstep := h.dstep &&& ~~~(2#64) })))

/-- A word that no table assigns traps ILLEGAL_OP with the word in XVAL (R218). -/
def execIllegalOp (w : BitVec 32) (s : State) : Out := finish (.trap .illegalOp (w.zeroExtend 64) s)

/-! ## Operand extension -/

/-- `oxli oxN, imm20` (R271). -/
def execOxli (i : BitVec 20) (n : BitVec 3) (s : State) : Out := .next (retire 4 (setOx s n (i.signExtend 64)))
/-- `oxhi oxN, imm20` (R271). -/
def execOxhi (i : BitVec 20) (n : BitVec 3) (s : State) : Out :=
  .next (retire 4 (setOx s n ((oxr s n <<< 20) ||| i.zeroExtend 64)))
/-- `oxmv oxN, ga` (R271). -/
def execOxmv (a : BitVec 5) (n : BitVec 3) (s : State) : Out := .next (retire 4 (setOx s n (gr s a)))
/-- `oxrd gd, oxN` (R271). -/
def execOxrd (d : BitVec 5) (n : BitVec 3) (s : State) : Out := .next (done4 d (oxr s n) s)

end Sys2Proof.Machine
end

