-- ==== Sys2Proof/Machine/RangeOps.lean ====
section
/-!
DEFINITION. The meanings of the range instructions, `waycfg` and the cache-walker instructions (R36 to R42, R68, R272 to R278).
-/

namespace Sys2Proof.Machine

/-! ## Editing a directory (R36 to R38) -/

def storeDesc (m : List Host.Cell) (h k : Nat) (d : RDesc) : List Host.Cell :=
  let a := h + 64 + 32 * k
  memWrite (memWrite (memWrite (memWrite m a 8 d.w0.toNat) (a + 8) 8 d.w1.toNat) (a + 16) 8 d.w2.toNat) (a + 24) 8 d.w3.toNat

/-- Descriptor words rebuilt from their fields (R24). -/
def RDesc.with (d : RDesc) (vbase vlast tgt ver wlo whi : Nat) : RDesc :=
  { w0 := BitVec.ofNat 64 (vbase * 64 + d.w0.toNat % 64)
    w1 := BitVec.ofNat 64 (vlast * 64 + d.w1.toNat % 64)
    w2 := BitVec.ofNat 64 (ver % 256 * 2 ^ 56 + tgt * 64)
    w3 := BitVec.ofNat 64 (whi * 2 ^ 32 + wlo) }

/-- COUNT, and GEN advanced as at the release of the lock (R29, R36). -/
def closeEdit (m : List Host.Cell) (h count : Nat) : List Host.Cell :=
  memWrite (memWrite m h 4 count) (h + 8) 8 (memRead m (h + 8) 8 + 1)

/-- Descriptors from lo on, n of them, moved by one place up or down. -/
def moveDescs (s : State) (h lo n : Nat) (up : Bool) (m : List Host.Cell) : List Host.Cell :=
  (List.range n).foldl (fun m i => storeDesc m h (if up then lo + i + 1 else lo + i - 1) (dirDesc s h (lo + i))) m

/-- The two pieces of a split at block s of range d (R37). -/
def splitPieces (d : RDesc) (blk : Nat) : RDesc × RDesc :=
  let n := blk - d.vbase
  let (uw, uh) := if n ≤ d.whi then (max d.wlo n - n, d.whi - n) else (0xFFFFFFFF, 0)
  let up := d.with blk d.vlast (d.tgt + n) (d.ver + 1) uw uh
  let (lw, lh) := if min d.whi (n - 1) < d.wlo then (0xFFFFFFFF, 0) else (d.wlo, min d.whi (n - 1))
  (d.with d.vbase (blk - 1) d.tgt (d.ver + 1) lw lh, up)

/-- The privilege rule of R37: US = 1, or system level. -/
def mayEdit (sys : Bool) (d : RDesc) : Bool := sys || d.perm.getLsbD 3

/-- A line of the directory at h that holds descriptors from number lo to hi - 1 has a data error (R273). -/
def descsBad (s : State) (h lo hi : Nat) : Bool :=
  (List.range ((hi + 1) / 2)).any fun l => decide (lo / 2 ≤ l) && lineBad s (h + 64 + 64 * l)

/-- The lines of descriptors lo to hi - 1 of the directory at h. -/
def descLines (h lo hi : Nat) : List Nat :=
  ((List.range ((hi + 1) / 2)).filter fun l => decide (lo / 2 ≤ l)).map fun l => h + 64 + 64 * l

/-- What an edit of a directory comes to: its status as R273 numbers them, or none where a line that it reads has a data error; memory after
it; and the descriptors it reads beyond those of its search, from the first number to below the second. -/
structure Edit where
  status : Option Nat
  mem : List Host.Cell
  lo : Nat
  hi : Nat

/-- An edit that changes nothing and has read no more than its search. -/
def Edit.stay (st : Option Nat) (s : State) : Edit := { status := st, mem := s.mem, lo := 0, hi := 0 }

/-- A split of the directory at h at address va (R37). -/
def splitAt (s : State) (h : Nat) (sys : Bool) (va : Nat) : Edit :=
  match searchIdx s h va with
  | .error _ => .stay none s
  | .ok none => .stay (some 1) s
  | .ok (some k) =>
    let d := dirDesc s h k
    let count := dirCount s h
    if va % 64 ≠ 0 ∨ va / 64 = d.vbase then .stay (some 2) s
    else if d.locked then .stay (some 3) s
    else if 65536 ≤ count then .stay (some 4) s
    else if !mayEdit sys d then .stay (some 5) s
    else if descsBad s h (k + 1) count then { Edit.stay none s with lo := k + 1, hi := count }
    else
      let (low, up) := splitPieces d (va / 64)
      let m := moveDescs s h (k + 1) (count - (k + 1)) true s.mem
      { status := some 0, mem := closeEdit (storeDesc (storeDesc m h (k + 1) up) h k low) h (count + 1), lo := k, hi := count + 1 }

def RDesc.emptyWin (d : RDesc) : Bool := decide (d.whi < d.wlo) || decide (d.vlast - d.vbase < d.wlo)

/-- The merged descriptor, when the windows join into one interval (R38); a window is its blocks within its range (R28). -/
def mergePieces (d e : RDesc) : Option RDesc :=
  let n := d.vlast - d.vbase
  let len := n + 1
  let dhi := min d.whi n
  let ehi := min e.whi (e.vlast - e.vbase)
  let (w, hi) :=
    if d.emptyWin && e.emptyWin then (0xFFFFFFFF, 0)
    else if d.emptyWin then (e.wlo + len, ehi + len)
    else if e.emptyWin then (d.wlo, dhi)
    else (d.wlo, ehi + len)
  if d.emptyWin || e.emptyWin || (d.whi == n && e.wlo == 0) then
    some (d.with d.vbase e.vlast d.tgt (d.ver + 1) w hi)
  else none

/-- A merge of the range that holds va with its successor (R38). -/
def mergeAt (s : State) (h : Nat) (sys : Bool) (va : Nat) : Edit :=
  match searchIdx s h va with
  | .error _ => .stay none s
  | .ok none => .stay (some 1) s
  | .ok (some k) =>
    let d := dirDesc s h k
    let e := dirDesc s h (k + 1)
    let count := dirCount s h
    let stop (st : Option Nat) : Edit := { Edit.stay st s with lo := k + 1, hi := min count (k + 2) }
    if k + 1 < count && lineBad s (h + 64 + 64 * ((k + 1) / 2)) then stop none
    else if count ≤ k + 1 ∨ e.vbase ≠ d.vlast + 1 ∨ !e.valid ∨ e.malformed then stop (some 6)
    else if d.locked || e.locked then stop (some 3)
    else if e.tgt ≠ d.tgt + (d.vlast - d.vbase) + 1 ∨ d.cls ≠ e.cls ∨ d.perm ≠ e.perm ∨ 2 ^ 32 ≤ e.vlast - d.vbase then stop (some 7)
    else match mergePieces d e with
      | none => stop (some 7)
      | some n =>
        if !mayEdit sys d || !mayEdit sys e then stop (some 5)
        else if descsBad s h (k + 2) count then { Edit.stay none s with lo := k + 1, hi := count }
        else
          let m := storeDesc s.mem h k n
          let m := moveDescs s h (k + 2) (count - (k + 2)) false m
          { status := some 0, mem := closeEdit m h (count - 1), lo := k, hi := count }

/-- The span an edit at va changes, from the directories before (s) and after it (t): the range split, or the range merged (R42). -/
def editSpan (s t : State) (h va : Nat) : Nat × Nat :=
  match searchIdx s h va with
  | .ok (some k) =>
    ((dirDesc s h k).vbase * 64, max ((dirDesc s h k).vlast * 64 + 63) ((dirDesc t h k).vlast * 64 + 63))
  | _ => (va, va)

/-- The lines an edit reads and, where it is made, writes, at their home slices (R51, R52, R73): those of its search, the others it reads, and
with a change the header and the descriptors changed, which the slices then hold dirty. -/
def editUses (e : Edit) (h va : Nat) (s : State) : State :=
  let s := (walkFrom (colOf s.curCore) h va s).getD s
  let lines := if e.lo < e.hi then descLines h e.lo e.hi else []
  if e.status = some 0 then readLines true (h :: lines) s else readLines false lines s

/-- A range edit as an instruction (R273): under the edit lock, then an invalidation at core scope (R39, R42), whose release comes first and
for whose end the hart parks.  R42 gives no span for it: the model takes the whole edited range, old and new (log entry 94).  GEN advances
with an edit that is made; one that fails leaves GEN as it was, where R29 would have every release of the lock advance it and R37, R38 and
R273 have nothing change: the model's choice (log entry 94). -/
def rangeEdit (edit : State → Nat → Bool → Nat → Edit) (a d : BitVec 5) (s : State) : Res Unit :=
  let h := hdrOf (myCore s).rdbase
  let va := (gr s a).toNat
  if dirEdit s h then .hold (park .edit s)
  else if (walkFrom (colOf s.curCore) h va s).isNone then .hold s
  else
    let e := edit s h (isSys s) va
    match e.status with
    | none => .trap .busFault (gr s a) (editUses e h va s)
    | some st =>
      if st ≠ 0 then .ok () (done4 d (BitVec.ofNat 64 st) (editUses e h va s))
      else withRelease 1 s fun s =>
        if !coreDrained s s.curCore then .hold (park .drain s)
        else
          -- the edit is made as its lines stand once they have been read: a data error that shows only then ends it, too
          let t := editUses (edit s h (isSys s) va) h va s
          let e := edit t h (isSys t) va
          match e.status with
          | some 0 =>
            let u := { t with mem := e.mem }
            let (lo, hi) := editSpan t u h va
            .ok () (done4 d 0 (dropSpan u.curCore (myCore u).job lo hi u))
          | _ => .trap .busFault (gr s a) t

/-- `rsplit gd, ga` (R273). -/
def execRsplit (a d : BitVec 5) (s : State) : Out := finish (rangeEdit splitAt a d s)
/-- `rmerge gd, ga` (R273). -/
def execRmerge (a d : BitVec 5) (s : State) : Out := finish (rangeEdit mergeAt a d s)

/-! ## Invalidation and probing -/

/-- Listed cores within scope s of core c (R195, R39); scopes 0 and 1 name the core itself. -/
def scopeCores (s : State) (c : Nat) (scope : Nat) : List Nat :=
  let job := (coreAt s c).job
  (s.cores.map fun e => e.1).filter fun x =>
    match scope with
    | 0 | 1 => x == c
    | 2 => (gangOf s c).contains x
    | 3 => colOf x == colOf c && rowOf x == rowOf c
    | 4 => colOf x == colOf c
    | 5 => true
    | _ => (coreAt s x).job == job

/-- Columns whose engines a drop request reaches (R41): none below scope 3; column c's own at 3 (its row's copy engine) and 4; every
column from 5 on. -/
def scopeCols (c scope : Nat) : List Nat :=
  if scope < 3 then [] else if scope < 5 then [(colOf c).val] else List.range 8

/-- `rinv ga, gb, s` (R274): a release, drop requests, and a wait for every acknowledgement (R39).  At scopes 0 and 1 a core with nothing
outstanding drops its entries at once.  Scopes 6 and 7 reach the cores of the job on this device; those of other devices are out of the model
(log entry 95). -/
def execRinv (k : BitVec 3) (b a : BitVec 5) (s : State) : Out :=
  finish (withRelease k s fun s =>
    let va := (gr s a).toNat
    let n := (gr s b).toNat
    if n = 0 then .ok () (retire 4 s)
    else
      let hi := min (va + n - 1) (2 ^ 64 - 1)
      let c := s.curCore.val
      if k.toNat ≤ 1 && coreDrained s c then .ok () (retire 4 (dropSpan c (myCore s).job va hi s))
      else
        let p := newPkt s (.drop va hi k (scopeCores s c k.toNat) (scopeCols c k.toNat)) 0 (gr s a) .mesh
        .hold (park (.inval p.id) (sendPkt s p)))

/-- What `rprobe` reports of a descriptor (R275). -/
def probeWord (d : RDesc) (va : Nat) : BitVec 64 :=
  BitVec.ofNat 64 (2 ^ 63 + (if d.locked then 2 ^ 62 else 0) + (if d.resident va then 2 ^ 61 else 0) + d.cls * 2 ^ 59 +
    d.gpa va / 64 * 64 + d.perm.toNat)

/-- `rprobe gd, ga` (R275): neither traps on a translation fault nor stalls on a lock.  While a miss waits for EDIT to clear (R31) the hart is
PARKED, where an access that waits for the header is STALLED: R275 names no state, it is the model's choice (log entry 121). -/
def execRprobe (a d : BitVec 5) (s : State) : Out :=
  let va := gr s a
  let q := myCore s
  let h := hdrOf q.rdbase
  finish (
    match rcLookup q.rcache q.job va.toNat with
    | some (e, es) => .ok () (done4 d (probeWord e va.toNat) (updMyCore s fun q => { q with rcache := es }))
    | none =>
      match walkFrom (colOf s.curCore) h va.toNat s with
      | none => .hold (park (.header va) s)
      | some s =>
      match searchIdx s h va.toNat with
      | .error _ => .trap .busFault va s
      | .ok none => if dirEdit s h then .hold (park (.header va) s) else .ok () (done4 d 0 s)
      | .ok (some k) =>
        let e := dirDesc s h k
        let s := if e.locked then s
          else updMyCore s fun q => { q with rcache := rcFill 32 q.rcache { job := q.job, desc := e } }
        .ok () (done4 d (probeWord e va.toNat) s))

/-! ## Way configuration -/

/-- The change of the issuing hart at the head of its core's queue takes its steps (R127): it waits for earlier changes (R128) and for a
power transition of the layer (R129), then quiesces, and then closes, evicts, clears and opens the ways of every member of the gang. -/
def wayStep (na nb : Nat) (d : BitVec 5) (s : State) : Res Unit :=
  match (myCore s).wayQueue with
  | r :: _ =>
    if r.slot ≠ s.curSlot || (myCore s).binding.isSome || (!r.began && (colAt s (colOf s.curCore)).layerctl.getLsbD 2) then .hold s
    else if !r.began then
      .hold (updMyCore s fun q => { q with
        wayReqs := q.wayReqs.map fun x => if x.slot = s.curSlot then { x with began := true } else x
        vec := { q.vec with ended := true } })
    else if !((gangOf s s.curCore).all fun c => (coreAt s c).quiet) then .hold s
    else
      let s := (gangOf s s.curCore).foldl (fun s c => applyWays c na nb s) s
      let s := updMyCore s fun q => { q with wayReqs := q.wayReqs.filter fun x => x.slot != s.curSlot }
      .ok () (done4 d 0 s)
  | [] => .hold s

/-- `waycfg gd, ga` (R276): a request that changes something joins the core's queue, and its hart parks until the change has been made.  In
the handler slot it traps whatever the request (R394, log entry 61).  Whatever the request, it ends the open convoy and a replay. -/
def execWaycfg (a d : BitVec 5) (s : State) : Out :=
  let x := (gr s a).toNat
  let na := x % 32
  let nb := x / 256 % 32
  let q := myCore s
  let word := rWord 0x3D 0x020 0 a d
  finish (
    if (me s).wait = .ways then wayStep na nb d s
    else if q.gang ≠ 1 ∧ !isVecHart s then .trap .vown word s
    else
      orBlock word s fun s =>
      -- the open convoy ends (R182), and so does a replay (R401)
      let s := updMe (updMyCore s fun q => { q with vec := { q.vec with ended := true } }) fun h => { h with xconv := setBits h.xconv 0 58 56, shadow := none }
      if 16 < na ∨ 16 < nb ∨ 16 < na + nb ∨ x ≠ na + 256 * nb then .ok () (done4 d 1 s)
      else if na = q.narr ∧ nb = q.nbank then .ok () (done4 d 0 s)
      else
        .hold (park .ways (updMyCore s fun q => { q with
          wayReqs := (q.wayReqs.filter fun x => x.slot != s.curSlot) ++ [{ slot := s.curSlot, narr := na, nbank := nb, began := false }] })))

/-! ## The cache walker -/

/-- A piece of a walker's span: its first and last GPA, and the descriptor it was translated under. -/
abbrev Walked := Nat × Nat × RDesc

/-- The pieces of a span, range by range (R278 point 1); or the lowest fault, or a lock. -/
def walkSpan (hi : Nat) : Nat → Nat → State → List Walked → Except (Cause × Nat) (Option (List Walked)) × State
  | 0, _, s, l => (.ok (some l), s)
  | f + 1, va, s, l =>
    if hi < va then (.ok (some l), s)
    else
      match translate s s.curCore (isSys s) needRd (BitVec.ofNat 64 va) with
      | (.fault c, s) => (.error (c, va), s)
      | (.lock, s) => (.ok none, stall (.lock (BitVec.ofNat 64 va)) s)
      | (.header, s) => (.ok none, stall (.header (BitVec.ofNat 64 va)) s)
      | (.ok g _ d, s) =>
        let last := min hi (min (d.vlast * 64 + 63) (d.vbase * 64 + d.whi * 64 + 63))
        walkSpan hi f (last + 1) s (l ++ [(g, g + (last - va), d)])

/-- The GPA names a barrier object of this device or of another (R20). -/
def isBarrierGpa (s : State) (g : Nat) : Bool :=
  g % 64 == 0 && decide (g < 2 ^ 56) &&
    (match targetOf s g with
     | .barrier _ _ => true
     | .device _ => (match farTarget g with | .barrier _ _ => true | _ => false)
     | _ => false)

/-- A contribution of a unit of the service die leaves for a barrier unit, marked with the request it belongs to; GPA 0 names none.
Towards another device it takes the column's router. -/
def sendContribution (k : PKind) (gpa : Nat) (tag : Nat) (s : State) : State :=
  if gpa = 0 then s
  else
    let loc : PLoc := match targetOf s gpa with | .barrier _ _ => .queued | _ => .router
    sendPkt s { newPkt s k gpa (BitVec.ofNat 64 tag) loc with core := 2048 }

/-- An arrival of a unit of the service die. -/
def sendArrive (gpa : Nat) (err : Bool) (s : State) : State :=
  sendContribution (if err then .barErrArrive else .barArrive) gpa 0 s

/-- The column whose walker does a piece: the one that owns it, the issuing core's for other targets (R68). -/
def walkerCol (s : State) (lo : Nat) : Fin 8 := match targetOf s lo with | .dram c _ => c | _ => colOf s.curCore

/-- Pieces queued at the walkers of their columns (R68). -/
def queuePieces (inv : Bool) (bar : BitVec 64) (group : Nat) (l : List Walked) (s : State) : State :=
  l.foldl (fun s (lo, hi, d) =>
    updCol s (walkerCol s lo) fun c => { c with walker := c.walker ++
      [{ core := s.curCore.val, slot := s.curSlot, group := group, inv := inv, first := lo, last := hi, cached := d.cls == 0
         entry := { job := (myCore s).job, desc := d }, bar := bar, err := false }] }) s

/-- The walker of a column is full: it holds 64 requests, each the pieces of one instruction (R68; log entry 96). -/
def walkerFull (s : State) (col : Fin 8) : Bool := decide (64 ≤ ((colAt s col).walker.map (·.group)).dedup.length)

/-- `cwflush` and `cwinv` (R277, R278). -/
def walkInstr (inv : Bool) (b a d : BitVec 5) (s : State) : Res Unit :=
  let n := (gr s b).toNat
  let va := (gr s a).toNat
  let bar := gr s d
  settled s fun s =>
  let first := va / 64 * 64
  let hi := min (va + n - 1) (2 ^ 64 - 1)
  let r := if n = 0 then (.ok (some []), s) else walkSpan hi 65540 first s []
  match r with
  | (.error (c, x), s) => .trap c (BitVec.ofNat 64 (max x va)) s
  | (.ok none, s) => .hold s
  | (.ok (some l), s) =>
    if bar ≠ 0 ∧ !isBarrierGpa s bar.toNat then .trap .busFault bar s
    else if l.isEmpty then .ok () (retire 4 (sendArrive bar.toNat false s))
    else if walkerFull s (colOf s.curCore) || l.any fun p => walkerFull s (walkerCol s p.1) then .hold (stall .queue s)
    else
      let g := s.nextId
      let s := queuePieces inv bar g l { s with nextId := s.nextId + 1 }
      if bar = 0 then .hold (park (.walker g) s) else .ok () (retire 4 s)

/-- `cwflush gd, ga, gb` (R277). -/
def execCwflush (b a d : BitVec 5) (s : State) : Out := finish (walkInstr false b a d s)
/-- `cwinv gd, ga, gb` (R277). -/
def execCwinv (b a d : BitVec 5) (s : State) : Out := finish (walkInstr true b a d s)

end Sys2Proof.Machine
end

