-- ==== Sys2Proof/Machine/Dist.lean ====
section
/-!
DEFINITION. The distributor (R362 to R385): host queue contexts, launch records, arming, selection, binding, stage queues, and
the start and end of records in a hart slot.
-/

namespace Sys2Proof.Machine

/-! ## Records and job entries -/

def LRec.idle : LRec :=
  { status := 0, snap := Vector.replicate 32 0, regs := [], prio := 0, selprio := 0, seq := 0, waited := 0, issued := 0, live := 0
    ctxs := [], queues := Vector.replicate 8 [], pushed := Vector.replicate 8 0 }

/-- Fields of a launch record (R370, R371). -/
def LRec.nstage (r : LRec) : Nat := (vget r.snap 0).toNat / 2 ^ 16 % 256
def LRec.work (r : LRec) : Nat := (vget r.snap 1).toNat % 2 ^ 48
def LRec.pred (r : LRec) (k : Nat) : Nat := (vget r.snap 2).toNat / 2 ^ (16 * k) % 65536
def LRec.bar (r : LRec) : Nat := (vget r.snap 3).toNat
def LRec.qoff (r : LRec) : Nat := (vget r.snap 4).toNat % 2 ^ 48
def LRec.stW (r : LRec) (s k : Nat) : Nat := (vget r.snap (8 + 3 * s + k)).toNat
def LRec.entry (r : LRec) (s : Nat) : Nat := r.stW s 0 % 2 ^ 48
def LRec.sflags (r : LRec) (s : Nat) : Nat := r.stW s 0 / 2 ^ 48
def LRec.vector (r : LRec) (s : Nat) : Bool := r.sflags s % 2 == 1
def LRec.vslot (r : LRec) (s : Nat) : Nat := r.sflags s / 2 % 8
def LRec.gang (r : LRec) (s : Nat) : Nat := 2 ^ (r.sflags s / 16 % 4)
def LRec.qcap (r : LRec) (s : Nat) : Nat := r.stW s 1 % 2 ^ 32
def LRec.cmin (r : LRec) (s : Nat) : Nat := r.stW s 1 / 2 ^ 32 % 65536
def LRec.cmax (r : LRec) (s : Nat) : Nat := r.stW s 1 / 2 ^ 48
def LRec.narr (r : LRec) (s : Nat) : Nat := r.stW s 2 % 256
def LRec.nbank (r : LRec) (s : Nat) : Nat := r.stW s 2 / 256 % 256
def LRec.regsVa (r : LRec) (s : Nat) : Nat := r.stW s 2 / 65536

/-- STATUS values (R373). -/
def stIdle : BitVec 16 := 0
def stArmed : BitVec 16 := 1
def stReady : BitVec 16 := 2
def stRunning : BitVec 16 := 3
def stDone : BitVec 16 := 4
def stZero : BitVec 16 := 5
def stRange : BitVec 16 := 6
def stInvalid : BitVec 16 := 7
def stPred : BitVec 16 := 8
def atRest (st : BitVec 16) : Bool := st == 0 || decide (4 ≤ st.toNat)

def findJob (s : State) (job : BitVec 32) : Option JobEnt := s.dist.jobs.find? fun j => j.job == job
def updJob (s : State) (job : BitVec 32) (f : JobEnt → JobEnt) : State :=
  { s with dist := { s.dist with jobs := s.dist.jobs.map fun j => if j.job = job then f j else j } }
def recOf (s : State) (job : BitVec 32) (k : Nat) : LRec :=
  match findJob s job with | some j => tabGet LRec.idle j.recs k | none => LRec.idle
def updRec (s : State) (job : BitVec 32) (k : Nat) (f : LRec → LRec) : State :=
  updJob s job fun j => { j with recs := tabPut j.recs k (f (tabGet LRec.idle j.recs k)) }

/-- GPA of record k of a job's pool (R370). -/
def poolAt (s : State) (job : BitVec 32) (k : Nat) : Nat :=
  match findJob s job with | some j => j.pool.toNat % 2 ^ 56 + 256 * k | none => 0

/-- A write of the distributor's, at the home as a coherent access (R194). -/
def distWrite (gpa n x : Nat) (s : State) : State := (ownerWrite true gpa n x s).2

/-- A field of record k is written in the pool by the device (R370). -/
def poolPut (s : State) (job : BitVec 32) (k off n x : Nat) : State :=
  match findJob s job with
  | none => s
  | some _ => distWrite (poolAt s job k + off) n x s

/-- The record takes a status, in the distributor's state and in the pool (R373). -/
def setStatus (s : State) (job : BitVec 32) (k : Nat) (st : BitVec 16) : State :=
  poolPut (updRec s job k fun r => { r with status := st }) job k 4 2 st.toNat

def setLive (s : State) (job : BitVec 32) (k n : Nat) : State :=
  poolPut (updRec s job k fun r => { r with live := n }) job k 48 8 n
def setIssued (s : State) (job : BitVec 32) (k n : Nat) : State :=
  poolPut (updRec s job k fun r => { r with issued := n }) job k 40 8 n

/-- A record comes to rest: vectors 16 to 63 of the contexts that named it (R366, R466). -/
def restIrq (job : BitVec 32) (k : Nat) (s : State) : State :=
  let cs := (recOf s job k).ctxs
  let s := cs.foldl (fun s q =>
    match (s.dist.ctxs.find? fun e => e.1 == q) with
    | none => s
    | some (_, c) =>
      let v := c.qirq.toNat % 64
      if c.qirq.getLsbD 15 && decide (16 ≤ v) then sendMsix v s else s) s
  updRec s job k fun r => { r with ctxs := [] }

/-- The record ends at rest with a status; DONE and ZERO_WORK make one arrival on BAR (R373, R379, R384). -/
def endRecord (job : BitVec 32) (k : Nat) (st : BitVec 16) (s : State) : State :=
  let s := setStatus s job k st
  let s := if st = stDone ∨ st = stZero then sendArrive (recOf s job k).bar false s else s
  restIrq job k s

/-! ## Arming (R374) -/

/-- What the distributor's agent reads: a value, nothing that can be read, or a locked range or an edit to wait for (R31, R45). -/
inductive Agent (α : Type) where
  | got (a : α)
  | bad
  | wait

/-- Word va of job memory, read through the directory of the job's contexts with RD and US (R372). -/
def agentWord (job : BitVec 32) (va : Nat) (s : State) : Agent (BitVec 64) × State :=
  match findJob s job with
  | none => (.bad, s)
  | some j =>
    let h := hdrOf j.rdir
    let read (d : RDesc) (es : List REntry) (s : State) : Agent (BitVec 64) × State :=
      let s := updJob s job fun j => { j with rcache := es }
      match checkDesc s d needRd false va with
      | .ok g cls _ =>
        match ownerRead (cls == 0) g 8 s with
        | (some x, s) => (.got (BitVec.ofNat 64 x), s)
        | (none, s) => (.bad, s)
      | _ => (.bad, s)
    match rcLookup j.rcache job va with
    | some (d, es) => read d es s
    | none =>
      match walkFrom 0 h va s with
      | none => (.wait, s)
      | some t =>
      match searchDir s h va with
      | .desc d => read d (rcFill 32 j.rcache { job := job, desc := d }) t
      | .stall => (.wait, t)
      | .miss => (if dirEdit s h then .wait else .bad, t)
      | .err => (.bad, t)

/-- The register block at a virtual address (R372). -/
def readBlock (job : BitVec 32) (va : Nat) (s : State) : Agent (List (BitVec 64)) × State :=
  (List.range 32).foldl (fun (r : Agent (List (BitVec 64)) × State) i =>
    match r.1 with
    | .got l =>
      (match agentWord job (va + 8 * i) r.2 with
       | (.got x, s) => (.got (l ++ [x]), s)
       | (.bad, s) => (.bad, s)
       | (.wait, s) => (.wait, s))
    | _ => r) (.got [], s)

/-- Stage s of a record keeps R371. -/
def stageOk (r : LRec) (s : Nat) : Bool :=
  r.entry s % 2 == 0 && decide (r.sflags s < 64) && decide (r.vslot s ≤ 5) && decide (r.sflags s / 16 % 4 ≤ 2) &&
  (r.gang s == 1 || (r.vector s && r.cmin s % r.gang s == 0 && r.cmax s % r.gang s == 0)) &&
  decide (16 ≤ r.qcap s) && decide (r.qcap s ≤ 65536) && decide (1 ≤ r.cmin s) && decide (r.cmin s ≤ r.cmax s) &&
  decide (r.cmax s ≤ 2048) && decide (r.narr s ≤ 16) && decide (r.nbank s ≤ 16 - r.narr s) && r.regsVa s % 64 == 0

/-- A record's header keeps R370; k is its number, n the pool's size. -/
def headerOk (r : LRec) (k n : Nat) : Bool :=
  let w0 := (vget r.snap 0).toNat
  w0 % 65536 == 1 && decide (1 ≤ r.nstage) && decide (r.nstage ≤ 8) && decide (w0 / 2 ^ 24 % 256 < 32) && w0 / 2 ^ 56 == 0 &&
  (vget r.snap 1).toNat / 2 ^ 48 == 0 &&
  ((List.range 4).all fun i => r.pred i == 0xFFFF || (decide (r.pred i < n) && r.pred i != k)) &&
  (r.bar == 0 || (r.bar % 64 == 0 && decide (r.bar / 2 ^ 56 = 0) && decide (gpaDev r.bar ≤ 0xFD) &&
    decide (0x18000000000 ≤ gpaOff r.bar) && decide (gpaOff r.bar < 0x18000100000))) &&
  (vget r.snap 4).toNat / 2 ^ 48 == 0 && r.qoff % 64 == 0 && vget r.snap 7 == 0

/-- The register blocks of a record's stages; bad when one cannot be read or its LOADMASK breaks R372. -/
def readRegs (job : BitVec 32) (r : LRec) (s : State) : Agent (Tab (BitVec 64)) × State :=
  (List.range r.nstage).foldl (fun (x : Agent (Tab (BitVec 64)) × State) st =>
    match x.1 with
    | .got t =>
      if r.regsVa st = 0 then x
      else
        (match readBlock job (r.regsVa st) x.2 with
         | (.got l, s) =>
           let m := (l.getD 0 0).toNat
           if m % 2 = 1 ∨ m / 2 ^ 10 % 16 ≠ 0 then (.bad, s)
           else (.got ((List.range 32).foldl (fun t i => tabPut t (32 * st + i) (l.getD i 0)) t), s)
         | (.bad, s) => (.bad, s)
         | (.wait, s) => (.wait, s))
    | _ => x) (.got [], s)

/-- The 256 bytes of record k as words, line by line at their home (R194); bad where a line meets an error (R73). -/
def readRecord (job : BitVec 32) (k : Nat) (s : State) : Agent (List (BitVec 64)) × State :=
  (List.range 4).foldl (fun (r : Agent (List (BitVec 64)) × State) i =>
    match r.1 with
    | .got l =>
      (match ownerRead true (poolAt s job k + 64 * i) 64 r.2 with
       | (some v, s) => (.got (l ++ (List.range 8).map fun j => BitVec.ofNat 64 (v / 2 ^ (64 * j))), s)
       | (none, s) => (.bad, s))
    | _ => r) (.got [], s)

/-- Arming of a record at rest (R374); no state while a register block waits for a locked range or an edit. -/
def armRecord (job : BitVec 32) (k : Nat) (s : State) : Option State :=
  match findJob s job with
  | none => some s
  | some j =>
    match readRecord job k s with
    | (.got l, s) =>
      let snap : Vector (BitVec 64) 32 := Vector.ofFn fun i => l.getD i.val 0
      let r := { LRec.idle with snap := snap, prio := (vget snap 0).extractLsb' 24 8, ctxs := (recOf s job k).ctxs }
      let ends (st : BitVec 16) (s : State) : Option State := some (endRecord job k st (updRec s job k fun _ => r))
      if !headerOk r k j.pooln || !((List.range r.nstage).all (stageOk r)) then ends stInvalid s
      else
        match readRegs job r s with
        | (.bad, s) => ends stInvalid s
        | (.wait, _) => none
        | (.got t, s) =>
          if 2 ^ 32 < r.work then ends stRange s
          else
            let s := { s with dist := { s.dist with seq := s.dist.seq + 1 } }
            let s := updRec s job k fun _ => { r with regs := t, seq := s.dist.seq }
            some (setStatus (setLive (setIssued s job k 0) job k 0) job k stArmed)
    | (_, s) => some (endRecord job k stInvalid (updRec s job k fun r => { LRec.idle with ctxs := r.ctxs }))

/-- A priority update: PRIO in the pool and in the distributor's copy (R374). -/
def setPrio (job : BitVec 32) (k : Nat) (p : BitVec 8) (s : State) : State :=
  poolPut (updRec s job k fun r => { r with prio := p }) job k 3 1 p.toNat

/-- The predecessors of an ARMED record (R375); then a record with no work ends ZERO_WORK (R379). -/
def resolveRec (job : BitVec 32) (k : Nat) (s : State) : State :=
  let r := recOf s job k
  let s :=
    if r.status = stArmed then
      let ps := ((List.range 4).map fun i => r.pred i).filter fun p => p != 0xFFFF
      let sts := ps.map fun p => (recOf s job p).status
      if sts.any fun x => x == stRange || x == stInvalid || x == stPred then endRecord job k stPred s
      else if sts.all fun x => x == stDone || x == stZero then setStatus (updRec s job k fun r => { r with waited := 0 }) job k stReady
      else s
    else s
  let r := recOf s job k
  if r.status = stReady ∧ r.work = 0 then endRecord job k stZero s else s

def resolveAll (s : State) : State :=
  (s.dist.jobs.filter fun j => !stilledAt s 0 j.job).foldl (fun s j => j.recs.foldl (fun s e => resolveRec j.job e.1 s) s) s

/-! ## Binding (R380) -/

/-- Free cores of a job: bound to it and to no stage, running and not unloaded (R376), lowest number first. -/
def freeCores (s : State) (job : BitVec 32) : List Nat :=
  (s.cores.filter fun e => e.2.job == job && !e.2.bound && !closed s e.1).map fun e => e.1

/-- The gangs of size n that can be placed on the free cores, by leader (R143); single cores for n = 1. -/
def placeable (free : List Nat) (n : Nat) : List (List Nat) :=
  if n = 1 then free.map fun c => [c]
  else (free.filter fun c => c % n = 0).filterMap fun c =>
    let l := (List.range n).map (c + ·)
    if l.all free.contains then some l else none

/-- Nothing of a core waits in the way of a change of its ways: neither its binding's nor a `waycfg`'s (R127, R128). -/
def waysStill (s : State) (c : Nat) : Bool := (coreAt s c).binding.isNone && (coreAt s c).wayQueue.isEmpty

/-- No power transition of a layer runs in the columns of some cores: their ways may change (R129). -/
def layersStill (s : State) (l : List Nat) : Bool := l.all fun c => !(colAt s (colOf c)).layerctl.getLsbD 2

/-- The change of the ways that a binding asks for, of a core alone or of a gang by its leader (R127): once all of them are quiet, and no power
transition meets it (R129), its steps 2 to 5 are made. -/
def bindStep (c : Nat) (s : State) : State :=
  match (coreAt s c).binding with
  | none => s
  | some (na, nb) =>
    let g := gangOf s c
    if !layersStill s g || !(g.all fun m => (coreAt s m).quiet) then s
    else g.foldl (fun s m => updCore (applyWays m na nb s) m fun q => { q with binding := none }) s

/-- Every binding goes on. -/
def bindSteps (s : State) : State := (s.cores.map (·.1)).foldl (fun s c => bindStep c s) s

/-- A core or gang is bound to stage st of record k (R380): the change of its ways begins.  A handler or child that runs in a follower's slot is
parked with it and goes on from its instruction at the unbinding: the model's choice, R144 does not say (log entry 106). -/
def bindGroup (job : BitVec 32) (k st : Nat) (g : List Nat) (s : State) : State :=
  let r := recOf s job k
  let lead := g.headD 0
  bindStep lead ((g.zipIdx).foldl (fun s (c, pos) =>
    updCore s c fun q =>
      let q := { q with
        ctxjob := setBits (setBits q.ctxjob (BitVec.ofNat 64 k <<< 36) 47 36) (BitVec.ofNat 64 st <<< 32) 34 32
        bound := true, marked := none
        binding := if pos = 0 then some (r.narr st, r.nbank st) else none
        gangSize := if g.length = 2 then 1 else if g.length = 4 then 2 else 0
        gangPos := if g.length = 1 then 0 else BitVec.ofNat 2 pos
        gangLeader := if g.length = 1 then 0 else BitVec.ofNat 8 (idxOf lead)
        vec := if r.vector st then (Vec.bindTo (if pos = 0 then some ⟨r.vslot st % 8, Nat.mod_lt _ (by decide)⟩ else none)) else q.vec }
      if pos = 0 then q else q.mapHarts fun _ h => (h.become .parked).waiting (.follower (h.under != .idle))) s)

/-- A core leaves its stage (R380, R132): its vector context is unbound and its gang dissolves. -/
def unbindCore (c : Nat) (s : State) : State :=
  updCore s c fun q =>
    let q := q.mapHarts fun _ h =>
      match h.wait with
      | .follower busy => (h.become (if busy then .ready else .idle)).waiting .none
      | _ => h
    { q with
      ctxjob := setBits (setBits q.ctxjob 0 47 36) 0 34 32, bound := false, marked := none, binding := none
      gangSize := 0, gangPos := 0, gangLeader := 0, vec := Vec.bindTo none }

/-- The cores of stage st of record k. -/
def stageCores (s : State) (job : BitVec 32) (k st : Nat) : List Nat :=
  (s.cores.filter fun e => e.2.job == job && e.2.bound && e.2.lrecIx.toNat == k && e.2.stageIx.toNat == st).map fun e => e.1

/-- No slot of a core awaits an answer that its binding as a follower would lose (log entry 106). -/
def answersIn (s : State) (c : Nat) : Bool :=
  (coreAt s c).harts.toList.all fun h =>
    match h.wait with
    | .reply _ | .tokenReq _ | .spawn _ | .port _ _ _ _ _ _ => false
    | _ => true

/-- A core or gang can be bound now: no power transition meets its ways, every earlier change of them has ended (R128), and no answer is on its
way to a follower. -/
def bindable (s : State) (g : List Nat) : Bool := layersStill s g && g.all (waysStill s) && (g.drop 1).all (answersIn s)

/-- Give stage st of record k one further core or gang, the lowest-numbered it can bind (R378). -/
def bindOne (job : BitVec 32) (k st : Nat) (s : State) : State :=
  match placeable (freeCores s job) ((recOf s job k).gang st) with
  | [] => s
  | g :: _ => if bindable s g then bindGroup job k st g s else s

/-- The cores and gangs a selection gives stages st on, each its CMIN, from some free cores: the lowest-numbered it can bind, stage by stage
(R378); none when a stage cannot be served, since what cannot be placed is not free for it (R380; log entry 105). -/
def chooseStages (r : LRec) : Nat → Nat → List Nat → Option (List (Nat × List Nat))
  | 0, _, _ => some []
  | n + 1, st, free =>
    let gs := (placeable free (r.gang st)).take (r.cmin st / r.gang st)
    if gs.length < r.cmin st / r.gang st then none
    else
      (chooseStages r n (st + 1) (free.filter fun c => !(gs.any fun g => g.contains c))).map fun l => gs.map (fun g => (st, g)) ++ l

/-! ## Selection (R376 to R378) -/

/-- Effective priority (R377). -/
def effPrio (r : LRec) : Nat := if 2 ^ 20 < r.waited then 31 else r.prio.toNat % 32

/-- The job has a resident context. -/
def hasResident (s : State) (job : BitVec 32) : Bool := s.dist.ctxs.any fun e => e.2.resident && e.2.job == job

/-- The READY records the distributor considers, as (job, number, record) (R376). -/
def readyRecs (s : State) : List (BitVec 32 × Nat × LRec) :=
  (s.dist.jobs.filter fun j => hasResident s j.job && !stilledAt s 0 j.job).flatMap fun j =>
    (j.recs.filter fun e => e.2.status == stReady).map fun e => (j.job, e.1, e.2)

/-- The head: highest effective priority, then lowest arming sequence (R376). -/
def headRec (l : List (BitVec 32 × Nat × LRec)) : Option (BitVec 32 × Nat × LRec) :=
  l.foldl (fun b x =>
    match b with
    | none => some x
    | some y =>
      if effPrio y.2.2 < effPrio x.2.2 ∨ (effPrio x.2.2 = effPrio y.2.2 ∧ x.2.2.seq.toNat < y.2.2.seq.toNat) then some x else b) none

/-- Every READY record counts a decision (R377). -/
def countDecision (s : State) : State :=
  { s with dist := { s.dist with jobs := s.dist.jobs.map fun j =>
      { j with recs := j.recs.map fun e => (e.1, if e.2.status = stReady then { e.2 with waited := e.2.waited + 1 } else e.2) } } }

/-- Selection of the head when the free cores of its job suffice (R376, R378); every READY record counts the decision (R377).  A core that
cannot be bound yet, a power transition of its layer running (R129), holds the selection. -/
def selectHead (s : State) : State :=
  match headRec (readyRecs s) with
  | none => s
  | some (job, k, r) =>
    match chooseStages r r.nstage 0 (freeCores s job) with
    | none => s
    | some gs =>
      if !(gs.all fun g => bindable s g.2) then s
      else
        let p := effPrio r
        let s := updRec (countDecision s) job k fun r => { r with selprio := BitVec.ofNat 8 p, waited := 0 }
        let s := setStatus (poolPut s job k 6 1 p) job k stRunning
        gs.foldl (fun s x => bindGroup job k x.1 x.2 s) s

/-- The running stages below CMAX in the order grants serve them (R378). -/
def grantOrder (s : State) : List (BitVec 32 × Nat × Nat) :=
  let l := (s.dist.jobs.filter fun j => !stilledAt s 0 j.job).flatMap fun j =>
    (j.recs.filter fun e => e.2.status == stRunning).map fun e => (j.job, e.1, e.2)
  let l := sortBy (fun a b =>
    decide (b.2.2.selprio.toNat < a.2.2.selprio.toNat) ||
      (a.2.2.selprio == b.2.2.selprio && decide (a.2.2.seq.toNat ≤ b.2.2.seq.toNat))) l
  l.flatMap fun (job, k, r) => (List.range r.nstage).map fun st => (job, k, st)

def grants (s : State) : State :=
  (grantOrder s).foldl (fun s (job, k, st) =>
    let r := recOf s job k
    if (stageCores s job k st).length + r.gang st ≤ r.cmax st then bindOne job k st s else s) s

/-! ## Host queue contexts (R364 to R369) -/

def QCtx.empty : QCtx :=
  { resident := false, job := 0, pool := 0, pooln := 0, qarea := 0, ring := 0, ringn := 0, tail := 0, head := 0, rdir := 0
    bad := false, loadReq := false, qirq := 0, used := 0, switching := false, tails := [] }
def ctxAt (s : State) (q : Nat) : QCtx := tabGet QCtx.empty s.dist.ctxs q
def updCtx (s : State) (q : Nat) (f : QCtx → QCtx) : State :=
  { s with dist := { s.dist with ctxs := tabPut s.dist.ctxs q (f (ctxAt s q)) } }

/-- QCTL.BAD rises (R366), vector 6 (R466). -/
def ctxBad (q : Nat) (s : State) : State :=
  if (ctxAt s q).bad then s else raiseInt 6 (updCtx s q fun c => { c with bad := true })

/-- GPA of a context's image (R364). -/
def ctxImage (s : State) (q : Nat) : Nat := s.dist.dqbase.toNat + 128 * q

/-- The image of a context as it stands in the table, and whether it keeps R364: the bytes it reserves are 0 (R2). -/
def readCtx (s : State) (q : Nat) : QCtx × Bool :=
  let a := ctxImage s q
  let w (k : Nat) := dword s.mem (a + 8 * k)
  let job : BitVec 32 := (w 0).setWidth 32
  let ringn := (w 5).toNat % 2 ^ 32
  let c := { ctxAt s q with
    job := job, pool := w 1, pooln := (w 2).toNat % 65536, qarea := w 3, ring := w 4, ringn := ringn
    tail := (w 6).setWidth 48 |>.zeroExtend 64, head := (w 7).setWidth 48 |>.zeroExtend 64, rdir := w 8 }
  let flags := (w 0).toNat / 2 ^ 32
  let same := match findJob s job with
    | some j => j.pool == c.pool && j.pooln == c.pooln && j.qarea == c.qarea && j.rdir == c.rdir
    | none => true
  (c, flags == 1 && (w 1).toNat % 256 == 0 && decide ((w 1).toNat < 2 ^ 56) && decide (1 ≤ c.pooln) && decide (c.pooln ≤ 4096) &&
    (w 2).toNat / 65536 == 0 && (w 3).toNat % 64 == 0 && decide ((w 3).toNat < 2 ^ 56) && (w 4).toNat % 64 == 0 &&
    decide ((w 4).toNat < 2 ^ 56) && (w 5).toNat / 2 ^ 32 == 0 && decide (16 ≤ ringn) && decide (ringn ≤ 65536) &&
    2 ^ (Nat.log2 ringn) == ringn && (w 6).toNat / 2 ^ 48 == 0 && (w 7).toNat / 2 ^ 48 == 0 && (w 8).toNat % 64 == 0 && w 8 != 0 &&
    decide ((w 8).toNat < 2 ^ 56) && ((List.range 7).all fun k => w (9 + k) == 0) && same)

/-- A write of QTAIL to the saved image, or to the resident context (R366, R369); a value out of range is ignored and sets BAD. -/
def putTail (q : Nat) (v : BitVec 64) (s : State) : State :=
  let t := v.toNat % 2 ^ 48
  let c := if (ctxAt s q).resident then ctxAt s q else (readCtx s q).1
  if t < c.head.toNat ∨ c.head.toNat + c.ringn < t then ctxBad q s
  else if c.resident then updCtx s q fun c => { c with tail := BitVec.ofNat 64 t }
  else distWrite (ctxImage s q + 48) 8 t (updCtx s q id)

/-- The words of a context's image; what is reserved for the distributor's use it leaves zero. -/
def QCtx.words (c : QCtx) : List Nat :=
  [c.job.toNat + 2 ^ 32, c.pool.toNat, c.pooln, c.qarea.toNat, c.ring.toNat, c.ringn, c.tail.toNat, c.head.toNat, c.rdir.toNat] ++
    List.replicate 7 0

/-- A resident context's 128-byte image is written back, and the QTAIL writes that waited are applied to it (R368, R369). -/
def switchOut (q : Nat) (s : State) : State :=
  let c := ctxAt s q
  if !c.resident then s
  else
    let line (k : Nat) : Nat := ((List.range 8).map fun i => c.words.getD (8 * k + i) 0 * 2 ^ (64 * i)).sum
    let s := distWrite (ctxImage s q + 64) 64 (line 1) (distWrite (ctxImage s q) 64 (line 0) s)
    c.tails.foldl (fun s v => putTail q v s) (updCtx s q fun c => { c with resident := false, switching := false, tails := [] })

/-- The job holds a record ARMED or READY. -/
def jobPending (s : State) (job : BitVec 32) : Bool :=
  match findJob s job with
  | none => false
  | some j => j.recs.any fun e => e.2.status == stArmed || e.2.status == stReady

/-- The context a switch-in of another displaces (R368). -/
def victimCtx (s : State) : Option Nat :=
  let res := s.dist.ctxs.filter fun e => e.2.resident && !e.2.switching
  let least (l : List (Nat × QCtx)) : Option Nat :=
    (l.foldl (fun b e => match b with
      | none => some e
      | some x => if e.2.used < x.2.used then some e else b) (none : Option (Nat × QCtx))).map (·.1)
  let idle := res.filter fun e => e.2.tail == e.2.head &&
    ((res.any fun x => x.1 != e.1 && x.2.job == e.2.job) || !jobPending s e.2.job)
  match least idle with
  | some q => some q
  | none => least res

/-- Eligibility of a context that is not resident (R368), of those the host has written to. -/
def ctxEligible (s : State) (q : Nat) : Bool :=
  let c := ctxAt s q
  let (i, _) := readCtx s q
  !c.resident && decide (q < 1024) && tabHas s.dist.ctxs q &&
    (c.loadReq || i.tail != i.head || (jobPending s i.job && !hasResident s i.job))

/-- The image of context q is read (R368): it becomes resident, its job gets an entry if it has none, or a bad image is rejected.  Two points
are the model's: a context that has never been consumed from takes its place among the least recently consumed by the time of its switch-in
(log entry 125), and an image whose read meets a data error is rejected with BAD (log entry 126). -/
def switchIn (q : Nat) (s : State) : State :=
  -- both lines are read at their home (R194)
  let (x, s) := ownerRead true (ctxImage s q) 64 s
  let (y, s) := ownerRead true (ctxImage s q + 64) 64 s
  let (c, ok) := readCtx s q
  let s := updCtx s q fun c => { c with loadReq := false, switching := false }
  if !ok || x.isNone || y.isNone then ctxBad q s
  else
    let s := updCtx s q fun _ => { c with resident := true, loadReq := false, used := s.clock, switching := false }
    if (findJob s c.job).isSome then s
    else { s with dist := { s.dist with
      jobs := s.dist.jobs ++ [{ job := c.job, pool := c.pool, pooln := c.pooln, qarea := c.qarea, rdir := c.rdir, recs := [], rcache := [] }] } }

/-- A switch of context q in progress ends, or one begins (R368): of q where there is a place for it among the 64, else of the one that
leaves. -/
def contextSwitch (q : Nat) (s : State) : State :=
  let c := ctxAt s q
  let begins (s : State) (q : Nat) : State := updCtx s q fun c => { c with switching := true }
  if c.switching then (if c.resident then switchOut q s else switchIn q s)
  else if !ctxEligible s q then s
  else if (s.dist.ctxs.filter fun e => e.2.resident || e.2.switching).length < 64 then begins s q
  else if s.dist.ctxs.any fun e => e.2.resident && e.2.switching then s
  else
    match victimCtx s with
    | some v => begins s v
    | none => s

/-- A write of QTAIL (R366, R369): one during a switch-out waits for its end. -/
def writeTail (q : Nat) (v : BitVec 64) (s : State) : State :=
  let c := ctxAt s q
  if c.resident && c.switching then updCtx s q fun c => { c with tails := c.tails ++ [v] } else putTail q v s

/-- A host read in a context's queue window (R366): QPROG shows a switch in progress and the HEAD last committed (R369). -/
def queueRead (s : State) (q r : Nat) : BitVec 64 :=
  let c := ctxAt s q
  let i := if c.resident then c else (readCtx s q).1
  if r = 0 then i.tail
  else if r = 8 then BitVec.ofNat 64 (i.head.toNat % 2 ^ 48 + (if c.resident then 2 ^ 62 else 0) + (if c.switching then 2 ^ 63 else 0))
  else if r = 0x10 then (if c.bad then 2 else 0)
  else if r = 0x18 then c.qirq
  else 0

/-- A resident context consumes one entry of its ring (R367); an entry whose read meets an error is skipped, the error logged (R73, R366), and one
whose register blocks cannot be read yet waits. -/
def consumeEntry (q : Nat) (s : State) : State :=
  let c := ctxAt s q
  if !c.resident ∨ c.switching ∨ c.tail = c.head ∨ stilledAt s 0 c.job then s
  else
    let a := c.ring.toNat + 4 * (c.head.toNat % c.ringn)
    let (x, t) := ownerRead true a 4 s
    -- R74 has no record for an address that names nothing: the model logs SRC 3 and UNIT 0 at column 0 (log entry 92)
    let t := if x.isNone && regionOf s a == .unmapped then logError 0 3 0 a t else t
    let t := updCtx t q fun c => { c with head := c.head + 1, used := s.clock }
    match x with
    | none => ctxBad q t
    | some e =>
      if 2 ^ 12 ≤ e ∨ c.pooln ≤ e then ctxBad q t
      else
        let t := updRec t c.job e fun r => { r with ctxs := if r.ctxs.contains q then r.ctxs else q :: r.ctxs }
        if atRest (recOf t c.job e).status then (armRecord c.job e t).getD s else t

/-- One decision cycle (R367, R375 to R378). -/
def decisionCycle (s : State) : State :=
  let s := bindSteps s
  let s := (s.dist.ctxs.map (·.1)).foldl (fun s q => consumeEntry q s) s
  grants (selectHead (resolveAll s))

/-! ## Stage queues (R381, R382) -/

/-- A continuation record (R382). -/
def contRec (vector : Bool) (job : BitVec 32) (pc : BitVec 48) (lrec stage : Nat) (w : Vector (BitVec 64) 4) (unit : BitVec 32) :
    Vector (BitVec 64) 8 :=
  #v[BitVec.ofNat 64 (1 + (if vector then 256 else 0) + 2 ^ 32 * job.toNat),
    BitVec.ofNat 64 (pc.toNat + 2 ^ 48 * (lrec + 2 ^ 12 * stage)), w.get 0, w.get 1, w.get 2, w.get 3, unit.zeroExtend 64, 0]

/-- GPA of place i of stage st's ring (R371). -/
def queueAt (s : State) (job : BitVec 32) (k st i : Nat) : Nat :=
  let r := recOf s job k
  let area := match findJob s job with | some j => j.qarea.toNat | none => 0
  area + r.qoff + 64 * (((List.range st).map r.qcap).sum + i)

def queueLen (s : State) (job : BitVec 32) (k st : Nat) : Nat := ((recOf s job k).queues.toList.getD st []).length
def queueFull (s : State) (job : BitVec 32) (k st : Nat) : Bool := decide ((recOf s job k).qcap st ≤ queueLen s job k st)

/-- A continuation record enters a stage queue, in the distributor's order and in DRAM (R381). -/
def pushCont (job : BitVec 32) (k st : Nat) (c : Vector (BitVec 64) 8) (s : State) : State :=
  let r := recOf s job k
  let n := r.pushed.toList.getD st 0
  let a := queueAt s job k st (n % (max 1 (r.qcap st)))
  let s := distWrite a 64 ((List.range 8).map fun i => (vget c i).toNat * 2 ^ (64 * i)).sum s
  updRec s job k fun r =>
    { r with queues := vput r.queues st (r.queues.toList.getD st [] ++ [c]), pushed := vput r.pushed st (n + 1) }

/-- The distributor feeds stage 0 with the next work unit, holding back while the queue is full (R381). -/
def stageFeed (job : BitVec 32) (k : Nat) (s : State) : State :=
  let r := recOf s job k
  if r.status ≠ stRunning ∨ r.work ≤ r.issued ∨ queueFull s job k 0 ∨ stilledAt s 0 job then s
  else
    let u := BitVec.ofNat 32 r.issued
    let c := contRec (r.vector 0) job (BitVec.ofNat 48 (r.entry 0)) k 0 #v[u.zeroExtend 64, 0, 0, 0] u
    setLive (setIssued (pushCont job k 0 c s) job k (r.issued + 1)) job k (r.live + 1)

/-! ## Starting and ending records -/

/-- The registers of a slot that takes a record or a child (R383, R389): from the stage's register block, g10 to g13 the words. -/
def startRegs (r : LRec) (st : Nat) (w : Vector (BitVec 64) 4) : Vector (BitVec 64) 32 :=
  let mask := (tabGet 0 r.regs (32 * st)).toNat
  Vector.ofFn fun i =>
    let n := i.val
    if n = 0 then 0
    else if 10 ≤ n ∧ n ≤ 13 then vget w (n - 10)
    else if mask.testBit n then tabGet 0 r.regs (32 * st + n) else 0

/-- A slot takes a continuation record or a child (R383). -/
def startHart (c : Nat) (k : Fin 8) (pc : BitVec 48) (w : Vector (BitVec 64) 4) (job : BitVec 32) (lrec st : Nat) (unit : BitVec 32)
    (s : State) : State :=
  let r := recOf s job lrec
  updHart s c k fun h => { h with
    st := if (coreAt s c).night then .frozen else .ready
    back := .ready, wait := .none, pc := pc, g := startRegs r st w, ox := Vector.replicate 8 0
    fstat := 0, bwto := 65536, geps := 0x34000000, feretry := 1024, xstat := h.xstat &&& ~~~(3#64), frames := [], hasRec := true
    unit := unit, lrec := BitVec.ofNat 12 lrec, stage := BitVec.ofNat 3 st, released := false, timer := none
    stepHead := none, stepDone := false }

/-- Slots that may take a record of a stage: VSLOT alone on a vector stage, else 0 to 6 (R383). -/
def recordSlots (r : LRec) (st : Nat) : List (Fin 8) :=
  (List.finRange 8).filter fun k => if r.vector st then k.val == r.vslot st else decide (k.val ≤ 6)

/-- A core takes the oldest record of its stage's queue for its lowest idle slot (R383). -/
def takeRecord (c : Nat) (s : State) : State :=
  let q := coreAt s c
  let k := q.lrecIx.toNat
  let st := q.stageIx.toNat
  let r := recOf s q.job k
  if !q.bound || q.marked.isSome || q.binding.isSome || !takesWork s c then s
  else
    match (recordSlots r st).find? fun j => (q.harts.get j).st == .idle, r.queues.toList.getD st [] with
    | some j, x :: rest =>
      let vectorOnly := (vget x 0).getLsbD 8
      if vectorOnly && !(q.vec.bound && q.vec.slot == j) then s
      else
        let s := updRec s q.job k fun r => { r with queues := vput r.queues st rest }
        let s := startHart c j ((vget x 1).setWidth 48) #v[vget x 2, vget x 3, vget x 4, vget x 5] q.job k st ((vget x 6).setWidth 32) s
        wakeAll s fun w => w == .stageQueue
    | _, _ => s

/-- A running record is complete (R384): DONE, one arrival on BAR, its cores unbound. -/
def checkDone (job : BitVec 32) (k : Nat) (s : State) : State :=
  let r := recOf s job k
  if r.status = stRunning ∧ r.issued = r.work ∧ r.live = 0 ∧ (r.queues.toList.all fun l => l.isEmpty) then
    let s := endRecord job k stDone s
    (List.range r.nstage).foldl (fun s st => (stageCores s job k st).foldl (fun s c => unbindCore c s) s) s
  else s

/-- A marked core whose slots 0 to 6 are all IDLE moves to its new stage (R385). -/
def tryMove (c : Nat) (s : State) : State :=
  let q := coreAt s c
  match q.marked with
  | none => s
  | some st =>
    let members := gangOf s c
    if !((List.finRange 8).all fun k => k.val == 7 || (q.harts.get k).st == .idle) || !bindable s members then s
    else
      let job := q.job
      let k := q.lrecIx.toNat
      let s := members.foldl (fun s c => unbindCore c s) s
      bindGroup job k st.toNat members s

/-- The balancer's examination of one running record (R385): a mark of an earlier period stays while its conditions hold, else it is
withdrawn.  Two stages whose gangs differ in size move no core: the model's choice (log entry 108). -/
def balance (job : BitVec 32) (k : Nat) (s : State) : State :=
  let r := recOf s job k
  if r.status ≠ stRunning ∨ r.nstage < 2 ∨ stilledAt s 0 job then s
  else
    -- one stage's queue is the fuller, by its fraction of its capacity
    let less (x y : Nat) : Bool := decide (queueLen s job k x * r.qcap y < queueLen s job k y * r.qcap x)
    let sts := List.range r.nstage
    let b := sts.foldl (fun b st => if less b st then st else b) 0
    let a := sts.foldl (fun a st => if less st a then st else a) 0
    let na := (stageCores s job k a).length
    let nb := (stageCores s job k b).length
    let g := r.gang a
    let ok := decide (3 * r.qcap b < 4 * queueLen s job k b) && decide (4 * queueLen s job k a < r.qcap a) && a != b &&
      decide (r.cmin a + g ≤ na) && decide (nb + g ≤ r.cmax b) && r.gang b == g
    let all := stageCores s job k a
    let stays (c : Nat) : Bool := ok && all.contains c && (coreAt s c).marked == some (BitVec.ofNat 3 b)
    let old := (sts.flatMap (stageCores s job k)).filter fun c => (coreAt s c).marked.isSome
    let s := (old.filter fun c => !stays c).foldl (fun s c => updCore s c fun q => { q with marked := none }) s
    if !ok then s
    else if old.any stays then all.foldl (fun s c => tryMove c s) s
    else
      let busy (c : Nat) : Nat := (List.finRange 8).countP fun j => j.val != 7 && ((coreAt s c).harts.get j).st != .idle
      let cand := all.filter fun c => leaderOf s c == c
      let best := cand.foldl (fun (x : Option Nat) c =>
        match x with
        | none => some c
        | some d => if busy c < busy d ∨ (busy c = busy d ∧ (coreAt s c).ctxlc.toNat < (coreAt s d).ctxlc.toNat) then some c else x) none
      match best with
      | none => s
      | some c => tryMove c (updCore s c fun q => { q with marked := some (BitVec.ofNat 3 b) })

end Sys2Proof.Machine
end

