-- ==== Sys2Proof/Machine/Launch.lean ====
section
/-!
DEFINITION. The launch and message instructions (R388 to R395), the resolution of logical cores (R462), and what spawn requests and
messages do where they arrive (R387, R389, R393).
-/

namespace Sys2Proof.Machine

/-! ## Logical cores (R462) -/

/-- What a logical core names. -/
inductive LTarget where
  | core (c : Nat)
  | device (d : Nat)
  | none
deriving DecidableEq, Repr

/-- What an entry of a logical-core table names (R462); one with a nonzero reserved bit is no valid entry (R2). -/
def entryTarget (s : State) (e : BitVec 64) : LTarget :=
  if !entryValid e then .none
  else if e.extractLsb' 48 8 = s.fabric.dev then .core (e.toNat % 2048)
  else .device (e.extractLsb' 48 8).toNat

/-- A column router resolves a logical core of a job (R462): from an entry it still caches, or from the table in DRAM.  Whether it
still caches one is a free choice (log entry 4). -/
def resolveCore (col : Fin 8) (job : BitVec 32) (l : Nat) (s : State) : LTarget × State :=
  let c := colAt s col
  match jobPlace c job with
  | none => (.none, s)
  | some j =>
    if (vget c.joblct j).toNat / 2 ^ 32 % 2 ^ 21 ≤ l then (.none, s)
    else
      let read (s : State) : LTarget × State :=
        match ownerRead true ((vget c.lctbase j).toNat + 8 * l) 8 s with
        | (none, s) => (.none, s)
        | (some v, s) =>
          let e := BitVec.ofNat 64 v
          let s := updCol s col fun c => { c with lctCache := (job, l, e) :: c.lctCache.filter fun x => !(x.1 == job && x.2.1 == l) }
          (entryTarget s e, s)
      match c.lctCache.find? fun x => x.1 == job && x.2.1 == l with
      | none => read s
      | some x =>
        let (keep, s) := takeChoice s
        if keep then (entryTarget s x.2.2, s) else read s

/-! ## Spawning (R389) -/

/-- The slot a child is placed in: the lowest IDLE one of 0 to 6 but the vector hart's (R389). -/
def childSlot (s : State) (c : Nat) : Option (Fin 8) :=
  let q := coreAt s c
  if closed s c then none
  else (List.finRange 8).find? fun k =>
    decide (k.val ≤ 6) && (q.harts.get k).st == .idle && !(q.vec.bound && q.vec.slot == k)

/-- What g14 to g17 hold: the four words of `spawn`, `emit` and `send` (R388). -/
def Hart.argWords (h : Hart) : Vector (BitVec 64) 4 := #v[h.gr 14, h.gr 15, h.gr 16, h.gr 17]

/-- LIVE of the record a hart runs changes (R384). -/
def liveBy (c : Nat) (k : Fin 8) (up : Bool) (s : State) : State :=
  let h := hartAt s c k
  if !h.hasRec then s
  else
    let job := (coreAt s c).job
    let n := (recOf s job h.lrec.toNat).live
    setLive s job h.lrec.toNat (if up then n + 1 else n - 1)

/-- A child of hart k of core c is placed in slot j of core t (R389, R383). -/
def placeChild (c : Nat) (k : Fin 8) (t : Nat) (j : Fin 8) (pc : BitVec 48) (w : Vector (BitVec 64) 4) (s : State) : State :=
  let h := hartAt s c k
  let s := startHart t j pc w (coreAt s c).job h.lrec.toNat h.stage.toNat h.unit s
  liveBy c k true (updHart s t j fun x => { x with hasRec := h.hasRec })

/-- A child starts inline in the caller's slot: the caller's frame is pushed (R389). -/
def inlineChild (pc : BitVec 48) (d : BitVec 5) (w : Vector (BitVec 64) 4) (s : State) : State :=
  let s := liveBy s.curCore s.curSlot true s
  let s := updMe s fun h => { h with
    frames := { ret := h.pc + 4, d := d } :: h.frames
    g := vput (vput (vput (vput h.g 10 (vget w 0)) 11 (vget w 1)) 12 (vget w 2)) 13 (vget w 3) }
  retireAt pc s

/-- The test at the target core t for the spawning hart k of core c: status 3, a slot claimed, or neither (R389). -/
def spawnClaim (c : Nat) (k : Fin 8) (t : Nat) (pc : BitVec 48) (w : Vector (BitVec 64) 4) (s : State) : BitVec 64 × Bool × State :=
  let job := (coreAt s c).job
  if colOf t ≠ colOf c ∨ (coreAt s t).job ≠ job ∨ job = 0 then (3, false, s)
  else
    match childSlot s t with
    | some j => (0, false, placeChild c k t j pc w s)
    | none => if (hartAt s c k).frames.length < 8 then (0, true, s) else (2, false, s)

/-- The answer of a spawn reaches the spawner (R389). -/
def spawnAnswered (st : BitVec 64) (inline : Bool) (pc : BitVec 48) (d : BitVec 5) (w : Vector (BitVec 64) 4) (s : State) : State :=
  if inline then inlineChild pc d w s else done4 d st s

/-- A trap SLOT unless the slot is one of 0 to 6 (R388). -/
def notHandler (word : BitVec 64) (s : State) (k : State → Res Unit) : Res Unit :=
  if s.curSlot = 7 then .trap .slot word s else k s

/-- `spawn gd, ga, gb` (R389). -/
def execSpawn (b a d : BitVec 5) (s : State) : Out :=
  let ga := gr s a
  let w := (me s).argWords
  let pc : BitVec 48 := ga.setWidth 48
  finish (notHandler (rWord 0x1F 0 b a d) s fun s =>
    if ga.getLsbD 0 then .trap .misalign ga s
    else settled s fun s =>
      let c := s.curCore.val
      match resolveCore (colOf c) (myCore s).job ((gr s b).toNat % 2 ^ 20) s with
      | (.core t, s) =>
        if colOf t ≠ colOf c then .ok () (done4 d 3 s)
        else if t = c then
          let (st, inl, s) := spawnClaim c s.curSlot c pc w s
          .ok () (spawnAnswered st inl pc d w s)
        else
          .hold (park (.spawn d) (sendPkt s (newPkt s (.spawn pc w ((gr s b).setWidth 20) d) t 0 .mesh)))
      | (_, s) => .ok () (done4 d 3 s))

/-! ## Suspend, emit, end (R390 to R392) -/

/-- The slot of the issuing hart becomes IDLE after its instruction: a marked core may then move (R385). -/
def goIdle (s : State) : State :=
  let s := updMe (retire 4 s) fun h => { h with st := .idle, back := .idle, hasRec := false, frames := [] }
  tryMove (leaderOf s s.curCore) s

/-- `suspend ga` (R390). -/
def execSuspend (a : BitVec 5) (s : State) : Out :=
  let word := rWord 0x1F 1 0 a 0
  finish (notHandler word s fun s =>
    let h := me s
    let job := (myCore s).job
    let k := h.lrec.toNat
    let st := (gr s a).toNat % 8
    let r := recOf s job k
    if !h.hasRec ∨ r.nstage ≤ st ∨ h.frames ≠ [] then .trap .slot word s
    else settled s fun s =>
      if queueFull s job k st then .hold (park .stageQueue s)
      else
        let c := contRec (r.vector st) job (h.pc + 4) k st #v[h.gr 10, h.gr 11, h.gr 12, h.gr 13] h.unit
        .ok () (goIdle (pushCont job k st c s)))

/-- `emit gd` (R391). -/
def execEmit (d : BitVec 5) (s : State) : Out :=
  let word := rWord 0x1F 2 0 0 d
  finish (notHandler word s fun s =>
    let h := me s
    let job := (myCore s).job
    let k := h.lrec.toNat
    let st := h.stage.toNat + 1
    let r := recOf s job k
    if !h.hasRec then .trap .slot word s
    else settled s fun s =>
      if r.nstage ≤ st then .ok () (done4 d 1 s)
      else if queueFull s job k st then .hold (park .stageQueue s)
      else
        let c := contRec (r.vector st) job (BitVec.ofNat 48 (r.entry st)) k st h.argWords h.unit
        .ok () (done4 d 0 (setLive (pushCont job k st c s) job k (r.live + 1))))

/-- `end` (R392): a release at scope 6, then the inline caller goes on, or the slot is IDLE and the record's end is checked. -/
def execEndI (s : State) : Out :=
  finish (notHandler (rWord 0x1F 3 0 0 0) s fun s =>
    withRelease 6 s fun s =>
      let h := me s
      let job := (myCore s).job
      let s := liveBy s.curCore s.curSlot false s
      match h.frames with
      | f :: rest => .ok () (retireAt f.ret (setG (updMe s fun h => { h with frames := rest }) f.d 1))
      | [] =>
        let s := goIdle s
        .ok () (if h.hasRec then resolveAll (checkDone job h.lrec.toNat s) else s))

/-! ## Messages (R387, R393, R394) -/

/-- The handler slot takes the oldest message of its highest non-empty class (R387); none at its freeze point (R429). -/
def takeMessage (c : Nat) (s : State) : State :=
  let q := coreAt s c
  let ring (k : Nat) : List Msg := q.ring.toList.getD k []
  if (q.harts.get 7).st ≠ .idle ∨ takesWork s c = false then s
  else
    match [3, 2, 1, 0].find? fun k => !(ring k).isEmpty with
    | none => s
    | some k =>
      match ring k with
      | [] => s
      | m :: rest =>
        updCore s c fun q =>
          { q with
            ring := vput q.ring k rest
            harts := q.harts.set 7
              (let h := q.harts.get 7
               { h with
                 st := .ready, back := .ready, stepHead := none, stepDone := false, wait := .none, pc := m.handler.setWidth 48, xstat := h.xstat &&& ~~~(3#64)
                 g := vput (vput (vput (vput (vput (vput h.g 10 (vget m.w 0)) 11 (vget m.w 1)) 12 (vget m.w 2)) 13 (vget m.w 3)) 14 m.sender)
                   15 (m.cls.zeroExtend 64) }) }

/-- A message has been placed or dropped: the sender counts one fewer, and what waits for it goes on (R393). -/
def msgSettled (c : Nat) (k : Fin 8) (s : State) : State :=
  updHart s c k fun h =>
    let h := { h with msgsOut := h.msgsOut - 1 }
    if h.wait = .sendSlot ∨ h.wait = .messages then h.wake else h

/-- `hend`: the slot becomes IDLE (R394). -/
def execHend (s : State) : Out :=
  finish (
    if s.curSlot ≠ 7 then .trap .slot (rWord 0x1F 4 0 0 0) s
    else .ok () (updMe (retire 4 s) fun h => { h with st := .idle, back := .idle }))

/-- `send ga, gb, c` (R393): a dropped message is reported first; a fifth outstanding message parks; one that finds the write queue full is
not issued (R196), and one that it takes leaves it in the same step. -/
def execSend (c : BitVec 2) (b a : BitVec 5) (s : State) : Out :=
  let ga := gr s a
  let word := rWord 0x1F (8 + c.toNat) b a 0
  finish (
    match (me s).dropped with
    | l :: t => .trap .sendLimit (l.zeroExtend 64) (if isVecHart s && !(myCore s).quiet then s else updMe s fun h => { h with dropped := t })
    | [] =>
      if ga.getLsbD 0 then .trap .misalign ga s
      else settled s fun s =>
        if 4 ≤ (me s).msgsOut then orBlock word s fun s => .hold (park .sendSlot s)
        else if 32 ≤ (myCore s).wq.length then .hold s
        else
          let m : Msg := { handler := ga, w := (me s).argWords, cls := c, sender := hartId s s.curCore s.curSlot }
          let s := sendPkt s (newPkt s (.msg m ((gr s b).setWidth 20) 0) 0 0 .router)
          .ok () (retire 4 (updMe s fun h => { h with msgsOut := h.msgsOut + 1 })))

/-! ## larm (R395) -/

/-- `larm gd, ga, gb` (R395). -/
def execLarm (b a d : BitVec 5) (s : State) : Out :=
  let job := (myCore s).job
  let k := (gr s a).toNat % 4096
  let p := (gr s b).toNat % 256
  finish (settled s fun s =>
    match findJob s job with
    | none => .ok () (done4 d 4 s)
    | some j =>
      if j.pooln ≤ k then .ok () (done4 d 2 s)
      else if 32 ≤ p ∧ p ≠ 0xFF then .ok () (done4 d 3 s)
      else if atRest (recOf s job k).status then
        withRelease 5 s fun s =>
          let s := if p = 0xFF then s else setPrio job k (BitVec.ofNat 8 p) s
          match armRecord job k s with
          | some s => .ok () (done4 d 0 (resolveAll s))
          | none => .hold (park .arm s)
      else .ok () (done4 d 1 (if p = 0xFF then s else setPrio job k (BitVec.ofNat 8 p) s)))

end Sys2Proof.Machine
end

