-- ==== Sys2Proof/Machine/Vector.lean ====
section
/-!
DEFINITION. Elements of vector registers (R126, R137), masks and activity (R7), progress, dirty bits and high-water marks (R140 to
R142), random states (R166), and the words of the vector formats (R223, R303).
-/

namespace Sys2Proof.Machine

/-- The word of a V- or VR-format instruction (R223, R303); x stands for bits [31:29]. -/
def vWord (maj fn5 x a m t u d : Nat) : BitVec 64 :=
  BitVec.ofNat 64 (1 + 2 * maj + 2 ^ 7 * d + 2 ^ 12 * u + 2 ^ 17 * t + 2 ^ 22 * fn5 + 2 ^ 27 * m + 2 ^ 28 * a + 2 ^ 29 * x)

/-! ## Placement -/

/-- The core that holds gang lane l of the gang led by core c (R137). -/
def laneCore (s : State) (c l : Nat) : Nat := c + l / max 1 (coreAt s c).lanes

/-- The 32 register rows of register r in gang lane l, row 0 in the highest bit. -/
def laneWord (s : State) (c l : Nat) (r : Nat) : BitVec 32 :=
  tabGet 0 (coreAt s (laneCore s c l)).vec.v (32768 * r + l % max 1 (coreAt s c).lanes)

def setLaneWord (c l r : Nat) (x : BitVec 32) (s : State) : State :=
  let k := l % max 1 (coreAt s c).lanes
  updCore s (laneCore s c l) fun q => { q with vec := { q.vec with
    v := if x = 0 then tabDel q.vec.v (32768 * r + k) else tabPut q.vec.v (32768 * r + k) x } }

/-- Elements per register, or per pair at width 64 (R137). -/
def eprOf (gl w : Nat) : Nat := if w = 64 then gl else gl * 32 / w

/-- Element e of the group at register r at width w (R126, R137), zero-extended. -/
def elemGet (s : State) (c w r e : Nat) : BitVec 64 :=
  let gl := max 1 (coreAt s c).glanes
  let l := e % gl
  if w = 64 then
    let p := r + 2 * (e / gl)
    (laneWord s c l p ++ laneWord s c l (p + 1) : BitVec 64)
  else
    let epr := eprOf gl w
    let sub := e % epr / gl
    (BitVec.ofNat 64 ((laneWord s c l (r + e / epr)).toNat / 2 ^ (32 - (sub + 1) * w) % 2 ^ w))

/-- A write to rows up to the last of a register marks it dirty and raises its high-water mark (R141, R142). -/
def markWrite (c r row l : Nat) (s : State) : State :=
  updCore s c fun q =>
    let gl := q.glanes
    { q with vec := { q.vec with
        vdirty := q.vec.vdirty ||| (1#64 <<< r)
        vhw := vput q.vec.vhw r (BitVec.ofNat 64 (max (vget q.vec.vhw r).toNat (row * gl + l + 1))) } }

/-- Element e of the group at register r written at width w. -/
def elemPut (c w r e : Nat) (x : BitVec 64) (s : State) : State :=
  let gl := max 1 (coreAt s c).glanes
  let l := e % gl
  if w = 64 then
    let p := r + 2 * (e / gl)
    markWrite c (p + 1) 31 l (markWrite c p 31 l
      (setLaneWord c l (p + 1) (x.setWidth 32) (setLaneWord c l p (x.extractLsb' 32 32) s)))
  else
    let epr := eprOf gl w
    let sub := e % epr / gl
    let k := r + e / epr
    let old := (laneWord s c l k).toNat
    let sh := 2 ^ (32 - (sub + 1) * w)
    let new := old - old / sh % 2 ^ w * sh + x.toNat % 2 ^ w * sh
    markWrite c k ((sub + 1) * w - 1) l (setLaneWord c l k (BitVec.ofNat 32 new) s)

/-- Bit e of a mask register (R126). -/
def maskBit (s : State) (c r e : Nat) : Bool := elemGet s c 1 r e != 0

/-- Whether gang lane l lies in an unpowered way (R129). -/
def laneOff (s : State) (c l : Nat) : Bool :=
  let lanes := max 1 (coreAt s c).lanes
  decide (8 ≤ l % lanes / 2048) && !(colAt s (colOf c)).layerctl.getLsbD 0

/-! ## Commands -/

def VCmd.sew (c : VCmd) : Nat := vtSew c.vtype
def VCmd.uns (c : VCmd) : Bool := vtUns c.vtype
def VCmd.grp (c : VCmd) : Nat := vtGrp c.vtype
def VCmd.rm (c : VCmd) : Nat := vtRm c.vtype

/-- Element e of a command is active (R7); the command runs on the gang led by core q. -/
def VCmd.active (c : VCmd) (s : State) (q e : Nat) : Bool :=
  decide (c.vstart ≤ e) && decide (e < c.vl) && (!c.m || maskBit s q 0 e)

/-- Active elements among lo to hi - 1. -/
def VCmd.actives (c : VCmd) (s : State) (q lo hi : Nat) : List Nat :=
  ((List.range (hi - lo)).map (lo + ·)).filter fun e => c.active s q e

/-! ## Random states (R166) -/

def vrsSeed : BitVec 64 := 0x9E3779B97F4A7C15#64

/-- The state of gang lane l; a lane not listed holds its binding value. -/
def vrsGet (s : State) (c l : Nat) : BitVec 64 :=
  let k := l % max 1 (coreAt s c).lanes
  tabGet (vrsSeed ^^^ BitVec.ofNat 64 l) (coreAt s (laneCore s c l)).vec.vrs k

def vrsPut (c l : Nat) (x : BitVec 64) (s : State) : State :=
  let k := l % max 1 (coreAt s c).lanes
  updCore s (laneCore s c l) fun q => { q with vec := { q.vec with vrs := tabPut q.vec.vrs k (if x = 0 then vrsSeed else x) } }

/-- One advance of a lane's state and its draw. -/
def vrsNext (c l : Nat) (s : State) : Nat × State :=
  let x := vrsStep (vrsGet s c l)
  (vrsDraw x, vrsPut c l x s)

/-! ## Operand groups (R137, R225, R288) -/

/-- How an operand's width and group follow from VTYPE: element width, twice it, the f32 group of `vfcvt.f4`, a mask. -/
inductive VKind where
  | s | w | f | m
deriving DecidableEq, Repr

def VKind.width (k : VKind) (sew : Nat) : Nat :=
  match k with
  | .s => sew
  | .w => 2 * sew
  | .f => 32
  | .m => 1

/-- Registers of a group. -/
def VKind.regs (k : VKind) (sew grp : Nat) : Nat :=
  match k with
  | .s => if sew = 64 then 2 * grp else grp
  | .w => if sew = 32 then 4 * grp else 2 * grp
  | .f => 8
  | .m => 1

def VOp.isFp : VOp → Bool
  | .fadd | .fsub | .frsub | .fmul | .fdiv | .frdiv | .fsqrt | .fmin | .fmax | .fsgn | .fsgnn | .fsgnx | .fclass
  | .feq | .fne | .flt | .fle | .fgt | .fge
  | .fredsum | .fredmin | .fredmax | .fsegsum | .fsegmin | .fsegmax => true
  | _ => false

def VOp.isCmp : VOp → Bool
  | .seq | .sne | .slt | .sle | .sgt | .sge | .feq | .fne | .flt | .fle | .fgt | .fge => true
  | _ => false

def VOp.isMask : VOp → Bool
  | .mand | .mor | .mxor | .mandn => true
  | _ => false

/-- The cross-lane instructions (R305). -/
def VOp.isCross : VOp → Bool
  | .redsum | .redmin | .redmax | .redand | .redor | .redxor | .fredsum | .fredmin | .fredmax | .redmini | .redmaxi
  | .tree | .ftree | .treeseg | .ftreeseg | .segsum | .segmin | .segmax | .fsegsum | .fsegmin | .fsegmax
  | .slideup | .slidedown | .slide1up | .slide1down | .gather | .compress | .expand | .bcast | .mrot => true
  | _ => false

def VOp.isMem : VOp → Bool
  | .ld | .st | .lds | .sts | .ldx | .stx => true
  | _ => false
def VOp.isStore : VOp → Bool
  | .st | .sts | .stx => true
  | _ => false
def VOp.indexed : VOp → Bool
  | .ldx | .stx => true
  | _ => false

/-- The destination group an operation writes in vector registers. -/
def VOp.dst (o : VOp) : Option VKind :=
  if o.isCmp || o.isMask then some .m
  else match o with
  | .wcvt | .fwcvt => some .w
  | .mvxs | .seed | .st | .sts | .stx | .stsp => none
  | .redsum | .redmin | .redmax | .redand | .redor | .redxor | .fredsum | .fredmin | .fredmax | .redmini | .redmaxi
  | .tree | .ftree | .treeseg | .ftreeseg => none
  | _ => some .s

/-- The source group of the vs2 field. -/
def VOp.src2 (o : VOp) (sc : Bool) : Option VKind :=
  if o.isMask then some .m
  else match o with
  | .ncvt | .nclip | .fncvt => some .w
  | .cvtF4 => some .f
  | .id | .rng | .seed | .ld | .st | .lds | .sts | .ldx | .stx | .ldsp | .stsp => none
  | .mv => if sc then none else some .s
  | _ => some .s

/-- The source group of the vs1 field, for forms that name a vector there. -/
def VOp.src1 (o : VOp) (sc : Bool) : Option VKind :=
  if sc then none
  else if o.isMask then some .m
  else match o with
  | .add | .sub | .mul | .mulh | .div | .rem | .min | .max | .sadd | .ssub | .and | .or | .xor | .andn | .shl | .shr | .sra
  | .seq | .sne | .slt | .sle | .merge | .fadd | .fsub | .fmul | .fdiv | .fmin | .fmax | .fsgn | .fsgnn | .fsgnx
  | .feq | .fne | .flt | .fle => some .s
  | .compress | .expand => some .m
  | _ => none

/-- The format of a width with the alternate-format bit (R297). -/
def vFmt (w : Nat) (alt : Bool) : Option Fmt :=
  if w = 4 then (if alt then none else some e2m1)
  else if w = 8 then some (if alt then e5m2 else e4m3)
  else if w = 16 then some (if alt then bf16 else f16)
  else if w = 32 then (if alt then none else some f32)
  else if w = 64 then (if alt then none else some f64)
  else none

/-- What an operation requires of SEW, GRP and UNS (R297, R300, R301, R307, R311, R319). -/
def VOp.requires (o : VOp) (sew grp : Nat) (uns : Bool) : Bool :=
  if o.isFp then decide (16 ≤ sew) && (vFmt sew uns).isSome
  else match o with
  | .wcvt | .ncvt | .nclip => decide (sew ≤ 32) && decide (grp ≤ 4)
  | .fwcvt | .fncvt => decide (4 ≤ sew) && decide (sew ≤ 32) && decide (grp ≤ 4) && (vFmt sew uns).isSome
  | .ftoi | .ftoin | .itof | .intof => decide (8 ≤ sew) && (vFmt sew uns).isSome
  | .cvtF4 => sew == 4 && grp == 1 && !uns
  | .lds | .sts | .ldx | .stx => decide (8 ≤ sew)
  | .tree | .treeseg => decide (sew ≤ 32)
  | .ftree | .ftreeseg => (sew == 16 || sew == 32) && (vFmt sew uns).isSome
  | _ => true

/-- Registers lo to lo + n - 1 meet registers lo' to lo' + n' - 1. -/
def overlap (a n b m : Nat) : Bool := decide (a < b + m) && decide (b < a + n)

/-- A group of n registers at register r is aligned (R137). -/
def aligned (r n : Nat) : Bool := decide (r % max 1 n = 0) && decide (r + n ≤ 32)

/-- The index group of `vgather` and of the indexed memory forms: width, registers, and whether its size is 1 to 8 (R313). -/
def VCmd.index (c : VCmd) : Nat × Nat × Bool :=
  let w := if c.k = 0 then c.sew else c.k
  let g := c.grp * w / c.sew
  (w, if w = 64 then 2 * g else g, decide (c.sew ≤ c.grp * w) && decide (g ≤ 8))

/-- VCFG of a vector command (R288 rules 1 to 6, R305, R311, R319); gl is GLANES. -/
def VCmd.badCfg (c : VCmd) (gl : Nat) : Bool :=
  let sew := c.sew
  let grp := c.grp
  if vtIll c.vtype || vlmaxOf gl c.vtype == 0 then true
  else
    let opnd (k : Option VKind) (r : BitVec 5) : List (Nat × Nat × Nat) :=
      match k with
      | none => []
      | some k => [(r.toNat, k.regs sew grp, k.width sew)]
    let dst := opnd c.op.dst c.vd
    let data := if c.op.isStore || c.op == .stsp then opnd (some .s) c.vd else []
    let ix := c.index
    let idx := if c.op == .gather then [(c.vs1.toNat, ix.2.1, ix.1)] else if c.op.indexed then [(c.vs2.toNat, ix.2.1, ix.1)] else []
    let srcs := opnd (c.op.src2 c.sc) c.vs2 ++ opnd (c.op.src1 c.sc) c.vs1 ++ idx
    let masks := c.op.isMask || c.op.isCmp || c.op == .merge || c.op == .compress || c.op == .expand
    (c.op.isCross && c.vstart != 0) ||
    ((dst ++ srcs ++ data).any fun (r, n, _) => !aligned r n) ||
    (!idx.isEmpty && !ix.2.2) ||
    (dst.any fun (r, n, w) => srcs.any fun (r', n', w') => overlap r n r' n' && (c.op.isCross || w != w')) ||
    ((c.m || c.op == .merge) && dst.any fun (r, n, _) => overlap r n 0 1) ||
    !c.op.requires sew grp c.uns ||
    ((c.m || masks) && decide (32 * gl < c.vl)) ||
    ((c.op == .treeseg || c.op == .ftreeseg) && decide (64 * c.k < c.vl))

end Sys2Proof.Machine
end

