-- ==== Sys2Proof/Machine/VecElem.lean ====
section
/-!
DEFINITION. What one element of an element instruction becomes (R291 to R302): integer, logical, compare, merge, floating point,
conversion.
-/

namespace Sys2Proof.Machine

/-! ## Integers -/

/-- The value of an element of width w, signed or not (R149). -/
def intOf (uns : Bool) (w : Nat) (x : BitVec 64) : Int :=
  let n := x.toNat % 2 ^ w
  if uns || decide (2 * n < 2 ^ w) then (n : Int) else (n : Int) - 2 ^ w

/-- An integer wrapped to width w. -/
def cutInt (w : Nat) (x : Int) : BitVec 64 := BitVec.ofInt 64 (x % 2 ^ w)

/-- An integer saturated to the range of width w (R149), and SAT. -/
def satInt (uns : Bool) (w : Nat) (x : Int) : Int × Flags :=
  let lo : Int := if uns then 0 else -(2 ^ (w - 1))
  let hi : Int := if uns then 2 ^ w - 1 else 2 ^ (w - 1) - 1
  if x < lo then (lo, fSAT) else if hi < x then (hi, fSAT) else (x, 0)

/-- Planes a view reads (R147). -/
def planes (pl : Nat) : Nat := if pl = 1 then 6 else if pl = 2 then 4 else if pl = 3 then 2 else 8

/-- The plane view of a pi8 element, with rounding when rh (R155, R156). -/
def viewInt (p : Nat) (rh : Bool) (x : BitVec 64) : Int × Flags :=
  let t := intOf false p (x >>> (8 - p)) + (if rh && x.getLsbD (7 - p) then 1 else 0)
  if t = 2 ^ (p - 1) then ((2 ^ (p - 1) - 1) * 2 ^ (8 - p), fSAT) else (t * 2 ^ (8 - p), 0)

/-- A vector source as an integer, viewed when the type has a plane view (R292). -/
def srcInt (t : BitVec 64) (view : Bool) (x : BitVec 64) : Int × Flags :=
  if view && vtPl t != 0 then viewInt (planes (vtPl t)) (vtRh t) x else (intOf (vtUns t) (vtSew t) x, 0)

/-- Integer arithmetic on exact values (R291): the result before it is cut to width w. -/
def intOp (o : VOp) (uns : Bool) (w : Nat) (x y : Int) : Int × Flags :=
  match o with
  | .add => (x + y, 0)
  | .sub => (x - y, 0)
  | .rsub => (y - x, 0)
  | .mul => (x * y, 0)
  | .mulh => (x * y / 2 ^ w, 0)
  | .div => (if y = 0 then -1 else x.tdiv y, 0)
  | .rem => (if y = 0 then x else x.tmod y, 0)
  | .min => (if x ≤ y then x else y, 0)
  | .max => (if x ≤ y then y else x, 0)
  | .sadd => satInt uns w (x + y)
  | .ssub => satInt uns w (x - y)
  | _ => (x, 0)

/-- The relation of an integer compare (R294). -/
def intCmp (o : VOp) (x y : Int) : Bool :=
  match o with
  | .seq => decide (x = y)
  | .sne => decide (x ≠ y)
  | .slt => decide (x < y)
  | .sle => decide (x ≤ y)
  | .sgt => decide (y < x)
  | .sge => decide (y ≤ x)
  | _ => false

/-- Logical and shift operations on elements of width w (R293). -/
def logOp (o : VOp) (w : Nat) (x y : BitVec 64) : BitVec 64 :=
  let sh := y.toNat % w
  match o with
  | .and => x &&& y
  | .or => x ||| y
  | .xor => x ^^^ y
  | .andn => x &&& ~~~y
  | .not => ~~~x
  | .shl => x <<< sh
  | .shr => x >>> sh
  | .sra => cutInt w (intOf false w x / 2 ^ sh)
  | _ => x

/-- An element cut to width w. -/
def cutBits (w : Nat) (x : BitVec 64) : BitVec 64 := BitVec.ofNat 64 (x.toNat % 2 ^ w)

/-! ## Floating point -/

/-- Floating-point arithmetic in a format (R298); rm and the draw r round. -/
def fpOp (o : VOp) (f : Fmt) (rm r : Nat) (x y : Nat) : Nat × Flags :=
  match o with
  | .fadd => f.add rm r x y
  | .fsub => f.sub rm r x y
  | .frsub => f.sub rm r y x
  | .fmul => f.mul rm r x y
  | .fdiv => f.div rm r x y
  | .frdiv => f.div rm r y x
  | .fsqrt => f.sqrt rm r x
  | .fmin => f.min x y
  | .fmax => f.max x y
  | .fsgn => (f.withSign x (f.sign y), 0)
  | .fsgnn => (f.withSign x (!f.sign y), 0)
  | .fsgnx => (f.withSign x (f.sign x != f.sign y), 0)
  | .fclass => (f.fclass x, 0)
  | _ => (x, 0)

/-- Floating-point compares (R299). -/
def fpCmp (o : VOp) (f : Fmt) (x y : Nat) : Bool × Flags :=
  match o with
  | .feq => f.eq x y
  | .fne => let (b, fl) := f.eq x y; (!b, fl)
  | .flt => f.lt x y
  | .fle => f.le x y
  | .fgt => f.lt y x
  | .fge => f.le y x
  | _ => (false, 0)

/-- The operations that pass through a rounding step, and so advance a lane's random state under RSR (R167). -/
def VOp.rounds : VOp → Bool
  | .fadd | .fsub | .frsub | .fmul | .fdiv | .frdiv | .fsqrt | .fncvt | .ftoi | .ftoin | .itof | .intof | .cvtF4 => true
  | _ => false

/-- The conversions (R300, R301). -/
def cvtOp (o : VOp) (t : BitVec 64) (r : Nat) (x : BitVec 64) : BitVec 64 × Flags :=
  let w := vtSew t
  let uns := vtUns t
  let rm := vtRm t
  let n := x.toNat
  let narrow := (vFmt w uns).getD f32
  let wide := (vFmt (2 * w) false).getD f64
  let nat (v : Nat × Flags) : BitVec 64 × Flags := (BitVec.ofNat 64 v.1, v.2)
  match o with
  | .wcvt => let (v, fl) := srcInt t true x; (cutInt (2 * w) v, fl)
  | .ncvt => (cutBits w x, 0)
  | .nclip => let (v, fl) := satInt uns w (intOf uns (2 * w) x); (cutInt w v, fl)
  | .fwcvt => nat (wide.ofVal 0 0 (narrow.value n))
  | .fncvt => nat (narrow.ofVal rm r (wide.value n))
  | .ftoi => let (v, fl) := toInt true w rm r (narrow.value n); (cutInt w v, fl)
  | .ftoin => let (v, fl) := toInt false w rm r (narrow.value n); (cutInt w v, fl)
  | .itof => nat (narrow.ofInt rm r (intOf false w x))
  | .intof => nat (narrow.ofInt rm r (intOf true w x))
  | .cvtF4 => nat (e2m1.ofVal rm r (f32.value n))
  | _ => (x, 0)

/-! ## One element -/

/-- What element e becomes from its sources x (vs2) and y (vs1 or scalar), the mask bit b of a merge, and the draw r (R291 to R302). -/
def elemOp (o : VOp) (t : BitVec 64) (sc : Bool) (e : Nat) (b : Bool) (r : Nat) (x y : BitVec 64) : BitVec 64 × Flags :=
  let w := vtSew t
  let uns := vtUns t
  let bit (v : Bool) : BitVec 64 := if v then 1 else 0
  match o with
  | .add | .sub | .rsub | .mul | .mulh | .div | .rem | .min | .max | .sadd | .ssub =>
    let (x, fx) := srcInt t true x
    let (y, fy) := srcInt t (!sc) y
    let (v, fl) := intOp o uns w x y
    (cutInt w v, fx ||| fy ||| fl)
  | .view => let (v, fl) := srcInt t true x; (cutInt w v, fl)
  | .id => (cutInt w e, 0)
  | .popc => (cutInt w (popCount x.toNat w), 0)
  | .and | .or | .xor | .andn | .not | .shl | .shr | .sra => (cutBits w (logOp o w x y), 0)
  | .seq | .sne | .slt | .sle | .sgt | .sge =>
    let (x, fx) := srcInt t true x
    let (y, fy) := srcInt t (!sc) y
    (bit (intCmp o x y), fx ||| fy)
  | .mand => (x &&& y, 0)
  | .mor => (x ||| y, 0)
  | .mxor => (x ^^^ y, 0)
  | .mandn => (x &&& ~~~y, 0)
  | .merge => (if b then y else x, 0)
  | .mv => (if sc then y else x, 0)
  | .feq | .fne | .flt | .fle | .fgt | .fge =>
    let (v, fl) := fpCmp o ((vFmt w uns).getD f32) x.toNat y.toNat
    (bit v, fl)
  | .fadd | .fsub | .frsub | .fmul | .fdiv | .frdiv | .fsqrt | .fmin | .fmax | .fsgn | .fsgnn | .fsgnx | .fclass =>
    let (v, fl) := fpOp o ((vFmt w uns).getD f32) (vtRm t) r x.toNat y.toNat
    (BitVec.ofNat 64 v, fl)
  | .wcvt | .ncvt | .nclip | .fwcvt | .fncvt | .ftoi | .ftoin | .itof | .intof | .cvtF4 => cvtOp o t r x
  | _ => (x, 0)

end Sys2Proof.Machine
end

