-- ==== Sys2Proof/Machine/VecRun.lean ====
section
/-!
DEFINITION. Elements of vector commands: of an element instruction (R285, R302), of a vector memory instruction (R320 to R323); a run
of elements, and the sample records (R439, R440).
-/

namespace Sys2Proof.Machine

/-- What a run of elements comes to: all performed, a stop at an element, or a wait at one, which may be for a locked range (R321). -/
inductive VRes where
  | done (c : VCmd) (s : State)
  | stop (e : Nat) (z : VEnd) (c : VCmd) (s : State)
  | stall (e : Nat) (lock : Bool) (c : VCmd) (s : State)

/-- Flags met by a command go to VFLAGS (R168). -/
def raise (f : Flags) (s : State) : State := updMyCore s fun q => { q with vec := orVflags f q.vec }

/-! ## One element of an element instruction -/

/-- Element e of an element instruction (R285, R302). -/
def elemStep (c : VCmd) (e : Nat) (s : State) : VRes :=
  let q := s.curCore.val
  let l := e % max 1 (myCore s).glanes
  if laneOff s q l then .stop e (.trap .layerOff (BitVec.ofNat 64 e)) c s
  else if c.op = .seed then
    .done c (if e < (myCore s).glanes then vrsPut q e (c.x ^^^ (BitVec.ofNat 64 e * vrsSeed)) s else s)
  else if c.op = .rng then
    let (_, s) := vrsNext q l s
    .done c (elemPut q c.sew c.vd.toNat e ((vrsGet s q l) >>> (64 - c.sew)) s)
  else
    let get (k : Option VKind) (r : BitVec 5) : BitVec 64 :=
      match k with
      | none => 0
      | some k => elemGet s q (k.width c.sew) r.toNat e
    let x := if c.rep = 0 then get (c.op.src2 c.sc) c.vs2 else c.seg.getD (e % c.rep) 0
    let y := if c.sc then cutBits c.sew c.x else get (c.op.src1 c.sc) c.vs1
    let b := c.op == .merge && maskBit s q 0 e
    let (r, s) := if c.op.rounds && c.rm == 5 then vrsNext q l s else (0, s)
    let (v, fl) := elemOp c.op c.vtype c.sc e b r x y
    let s := raise fl s
    match c.op.dst with
    | none => .done c s
    | some k => .done c (elemPut q (k.width c.sew) c.vd.toNat e v s)

/-! ## One element of a vector memory instruction -/

/-- A write of some bits of a 64-byte line by a vector store goes into the write queue (R196, R208): into the entry of the same hart that
holds the line, unless one of a younger write of the line stands behind it or the elements form requests of their own, or into a new one; none
is free in a full queue. -/
def vecEntry (own : Bool) (gpa cls : Nat) (m d : BitVec 512) (va : BitVec 64) (s : State) : Res Unit :=
  let g := redirect s (myCore s).job gpa
  let joined : Option (Nat × WEntry) :=
    match (myCore s).wq.zipIdx.reverse.find? fun x => meets x.1.gpa x.1.n g 64 with
    | some (e, i) =>
      (match e.kind with
       | .vec m' d' => if own || e.slot ≠ s.curSlot then none else some (i, { e with kind := .vec (m' ||| m) (lineMask d' m d) })
       | _ => none)
    | none => none
  match joined with
  | some (i, e) => .ok () (updMyCore s fun q => { q with wq := q.wq.set i e, l0d := l0Change q.l0d (g / 64) fun l => lineMask l m d })
  | none => enqueue (.vec m d) gpa cls 64 va 0 false s

/-- Element bits of a vector store, w bits from bit o of the byte at g, placed in the write queue (R320, R322). -/
def vStore (own : Bool) (g cls o w : Nat) (x : Nat) (va : BitVec 64) (s : State) : Res Unit :=
  let p := 8 * (g % 64) + o
  vecEntry own (g / 64 * 64) cls (BitVec.ofNat 512 ((2 ^ w - 1) * 2 ^ p)) (BitVec.ofNat 512 (x % 2 ^ w * 2 ^ p)) va s

/-- The virtual address of element e (R319). -/
def VCmd.addr (c : VCmd) (s : State) (e : Nat) : BitVec 64 :=
  match c.op with
  | .lds | .sts => c.x + BitVec.ofNat 64 e * c.y
  | .ldx | .stx => c.x + elemGet s s.curCore c.index.1 c.vs2.toNat e
  | _ => c.x + BitVec.ofNat 64 (e * c.sew / 8)

/-- The home slice of a DRAM address (R50). -/
def sliceHome (s : State) (a : Nat) : Option (Fin 8 × Nat) := match targetOf s a with | .dram col off => some (col, sliceOf off) | _ => none

/-- What a small gather that starts with the element e at address g takes along (R54, R322): of the active elements after it in its group, those
that an entry of the range cache translates to words of the same slice, and that no write of the core stands before; up to 8 addresses. -/
def gatherList (c : VCmd) (e g cls n : Nat) (s : State) : List Nat :=
  let q := myCore s
  let gl := max 1 q.glanes
  (c.actives s s.curCore (e + 1) (min c.vl ((e / gl + 1) * gl))).foldl (fun l x =>
    let va := c.addr s x
    match rcLookup q.rcache q.job va.toNat with
    | some (d, _) =>
      (match checkDesc s d needRd (isSys s) va.toNat with
       | .ok a cls' _ =>
         if l.length < 8 ∧ va.toNat % n = 0 ∧ sliceHome s a = sliceHome s g ∧ cls' = cls ∧ a ∉ l ∧ !inFlight s s.curCore a n ∧
             !(q.wq.any fun w => meets w.gpa w.n a n) then l ++ [a] else l
       | _ => l)
    | none => l) [g]

/-- An element of an indexed load that a small gather brings (R54, R322): its value when the gather has come, the gather itself when none is under
way. -/
def gatherElem (c : VCmd) (e g cls n : Nat) (va : BitVec 64) (s : State) : VRes :=
  match c.gathered.find? fun x => x.1 == g with
  | some (_, some v) => .done c (elemPut s.curCore c.sew c.vd.toNat e v s)
  | some (_, none) => .stop e (.trap .busFault va) c s
  | none =>
    if c.gather.isSome || inFlight s s.curCore g n then .stall e false c s
    else
      let own := match targetOf s g with | .dram col _ => col == colOf s.curCore | _ => false
      let p := { newPkt s (.gather n (gatherList c e g cls n s)) g va (startLoc s s.curCore g) with wants := true, coh := own && cls == 0 }
      .stall e false { c with gather := some p.id } (sendPkt s p)

/-- Element e of a vector memory instruction: the checks of R320 in their order, PRIV of R21 with the translation, then the access. -/
def memElem (c : VCmd) (e : Nat) (s : State) : VRes :=
  let q := s.curCore.val
  let w := c.sew
  let n := max 1 (w / 8)
  let va := c.addr s e
  let store := c.op.isStore
  if w < 8 ∧ c.x.toNat % 8 ≠ 0 then .stop e (.trap .misalign c.x) c s
  else if va.toNat % n ≠ 0 then .stop e (.trap .misalign va) c s
  else
    let miss := (rcLookup (myCore s).rcache (myCore s).job va.toNat).isNone
    match translate s q (isSys s) (if store then needWr else needRd) va with
    | (.fault z, s) => .stop e (.trap z va) c s
    | (.lock, s) => .stall e true c s
    | (.header, s) => .stall e true c s
    | (.ok g cls d, s) =>
      let c := { c with
        lines := if c.lines.contains (g / 64) then c.lines else (g / 64) :: c.lines
        rngs := if c.rngs.contains d.vbase then c.rngs else d.vbase :: c.rngs
        misses := if miss then c.misses + 1 else c.misses
        firstReq := c.firstReq.or (some s.clock) }
      let bad := match regionOf s g with
        | .barrier _ _ | .service _ _ | .priv _ _ | .unmapped => true
        | _ => false
      if bad then .stop e (.trap (if isPrivReg s g && !isSys s then .priv else .busFault) va) c s
      else if laneOff s q (e % max 1 (myCore s).glanes) then .stop e (.trap .layerOff va) c s
      else
        match watchHit s q store va.toNat with
        | some act => .stop e (if act then .halt else .trap .watch va) c s
        | none =>
          if store then
            match vStore c.op.indexed g cls (if w < 8 then e * w % 8 else 0) w (elemGet s q w c.vd.toNat e).toNat va s with
            | .ok _ s => .done c s
            | .trap z x s => .stop e (.trap z x) c s
            | .hold s => .stall e false c s
          else if c.op.indexed && s.split && decide (4 ≤ n) && (sliceHome s g).isSome && !degradedAt s g &&
              !((myCore s).wq.any fun x => meets x.gpa x.n g n) then gatherElem c e g cls n va s
          else
            match loadAt .c g cls n va s with
            | .trap z x s => .stop e (.trap z x) c s
            | .hold s => .stall e false c s
            | .ok v s => .done c (elemPut q w c.vd.toNat e (BitVec.ofNat 64 (if w < 8 then v / 2 ^ (e * w % 8) else v)) s)

/-! ## Runs of elements -/

def runElems (f : VCmd → Nat → State → VRes) : List Nat → VCmd → State → VRes
  | [], c, s => .done c s
  | e :: es, c, s =>
    match f c e s with
    | .done c s => runElems f es { c with performed := true } s
    | r => r

/-- VPI of the destination once the elements below p are completed (R140); a command that performed none leaves it (R289). -/
def setVpi (c : VCmd) (p : Nat) (s : State) : State :=
  if c.op.dst.isSome && c.performed then
    updMyCore s fun q => { q with vec := { q.vec with vpi := vput q.vec.vpi c.vd.toNat (BitVec.ofNat 64 p) } }
  else s

/-- The command reads vector register r, whole or in part. -/
def VCmd.readsReg (c : VCmd) (r : BitVec 5) : Bool :=
  let meet (k : Option VKind) (b : BitVec 5) : Bool :=
    match k with
    | none => false
    | some k => overlap b.toNat (k.regs c.sew c.grp) r.toNat 1
  let ix := c.index
  ((c.m || c.op == .merge) && r == 0) || meet (c.op.src2 c.sc) c.vs2 || meet (c.op.src1 c.sc) c.vs1 ||
    ((c.op.isStore || c.op == .stsp) && meet (some .s) c.vd) ||
    (c.op == .gather && overlap c.vs1.toNat ix.2.1 r.toNat 1) || (c.op.indexed && overlap c.vs2.toNat ix.2.1 r.toNat 1)

/-- An instruction that reads registers with chunk-mask bits sees the bytes of their chunks from now on: the L0 lines that the copy overwrote
leave (R99). -/
def readChunks (reads : BitVec 5 → Bool) (s : State) : State :=
  updMyCore s fun q =>
    let (seen, rest) := q.chunkLines.partition fun x => reads x.1
    { q with l0d := seen.foldl (fun t x => l0Drop t (l0dSet x.2) x.2) q.l0d, chunkLines := rest }

def seeChunks (c : VCmd) (s : State) : State := readChunks c.readsReg s

/-! ## Sampling (R439, R440) -/

def sampleIssue (c : VCmd) (s : State) : State :=
  let q := myCore s
  if c.op.isMem && q.smpctl.getLsbD 63 && (me s).wait == .none then
    updMyCore s fun q =>
      if 2 ^ (q.smpctl.toNat / 2 ^ 48 % 16) ≤ q.smpCount + 1 then { q with smpCount := 0, smpArmed := true }
      else { q with smpCount := q.smpCount + 1 }
  else s

def VOp.memFn : VOp → Nat
  | .ld => 0
  | .st => 1
  | .lds => 2
  | .sts => 3
  | .ldx => 4
  | _ => 5

/-- The record of a sampled instruction that completed; head, count and place of its convoy.  The average over no element has no
value: a free value (log entry 2). -/
def sampleDone (c : VCmd) (head : BitVec 48) (count pos : Nat) (s : State) : State :=
  let q := myCore s
  if !(c.op.isMem && q.smpArmed && q.smpctl.getLsbD 63) then s
  else
    let act := (c.actives s s.curCore c.vstart c.vl).length
    let (avg, s) :=
      match c.firstReq with
      | some t => if act = 0 then takeFree s else (BitVec.ofNat 64 (min 0xFFFFFFFF ((s.clock - t) * 65536 / act)), s)
      | none => takeFree s
    let lines := c.lines.length
    let cls := match c.op with
      | .ld | .st => 0
      | .lds | .sts => 1
      | _ => if 4 * lines ≤ act then 2 else 3
    let w : List Nat := [
      c.pc.toNat + 2 ^ 48 * c.op.memFn,
      head.toNat + 2 ^ 48 * (count % 16) + 2 ^ 52 * (pos % 16),
      cls + 2 ^ 8 * (c.vtype.toNat % 8) + 2 ^ 32 * c.vl,
      act + 2 ^ 32 * lines,
      c.conflicts % 2 ^ 32 + 2 ^ 32 * (c.rngs.length % 65536) + 2 ^ 48 * (c.misses % 65536),
      avg.toNat % 2 ^ 32 + 2 ^ 32 * (c.cyc.toNat % 2 ^ 32),
      c.cyc.toNat / 2 ^ 32, 0]
    let n := q.smpctl.toNat % 2 ^ 32
    let a := q.smpbase.toNat / 4096 * 4096 + 64 * (n % 2 ^ (q.smpbase.toNat % 16 + 6))
    let (_, s) := ownerWrite false a 64 ((w.zipIdx).foldl (fun t x => t + x.1 * 2 ^ (64 * x.2)) 0) s
    updMyCore s fun q => { q with smpArmed := false, smpctl := setBits q.smpctl (BitVec.ofNat 64 (n + 1)) 31 0 }

end Sys2Proof.Machine
end

