-- ==== Sys2Proof/Machine/VecCross.lean ====
section
/-!
DEFINITION. The cross-lane instructions: the reduction tree (R173), reductions and the tree transfer (R305 to R311), permutations
(R313 to R317).
-/

namespace Sys2Proof.Machine

/-! ## The tree (R173) -/

/-- One level over n places, of which the listed ones (rising) hold a value and the others the identity: 2i pairs with 2i + 1, a last
odd place passes up unchanged.  Two identities make the identity. -/
def treeLevel {α : Type} (f : α → α → α) (one : α) (n : Nat) : List (Nat × α) → List (Nat × α)
  | [] => []
  | [(i, x)] => [(i / 2, if i % 2 = 0 then (if i + 1 < n then f x one else x) else f one x)]
  | (i, x) :: (j, y) :: r =>
    if i / 2 = j / 2 then (i / 2, f x y) :: treeLevel f one n r
    else (i / 2, if i % 2 = 0 then f x one else f one x) :: treeLevel f one n ((j, y) :: r)

/-- The tree over n places, at most 2^fuel of them. -/
def treeOver {α : Type} (f : α → α → α) (one : α) : Nat → Nat → List (Nat × α) → Option α
  | 0, _, l => l.head?.map (·.2)
  | k + 1, n, l => if n ≤ 1 then l.head?.map (·.2) else treeOver f one k ((n + 1) / 2) (treeLevel f one n l)

/-- Values gathered by a key into rows, keys and places rising: each row's tree. -/
def treeRows {α : Type} (f : α → α → α) (one : α) (n : Nat) (key : Nat → Nat) (place : Nat → Nat) (l : List (Nat × α)) : List (Nat × α) :=
  let keys := sortBy (fun a b => decide (a ≤ b)) (l.map fun x => key x.1).dedup
  keys.filterMap fun k =>
    let row := sortBy (fun a b => decide (a.1 ≤ b.1)) ((l.filter fun x => key x.1 == k).map fun x => (place x.1, x.2))
    (treeOver f one 33 n row).map fun v => (k, v)

/-- The tree T of R173 over (element, value) pairs at width w with nreg registers (or pairs) in the group: lanes within a way, ways,
(register, sub-slot) pairs, members. -/
def treeAll {α : Type} (f : α → α → α) (one : α) (q : Core) (w nreg : Nat) (l : List (Nat × α)) : Option α :=
  let gl := max 1 q.glanes
  let lanes := max 1 q.lanes
  let epr := eprOf gl w
  let sub := max 1 (epr / gl)
  -- position of an element: member, register, sub-slot, way, lane as one number
  let pos (e : Nat) : Nat :=
    let g := e % gl
    ((((g / lanes) * nreg + e / epr) * sub + e % epr / gl) * q.narr + g % lanes / 2048) * 2048 + g % 2048
  let l1 := treeRows f one 2048 (· / 2048) (· % 2048) (l.map fun x => (pos x.1, x.2))
  let l2 := treeRows f one q.narr (· / q.narr) (· % q.narr) l1
  let l3 := treeRows f one (nreg * sub) (· / (nreg * sub)) (· % (nreg * sub)) l2
  treeOver f one 33 q.gang l3

/-! ## Reductions -/

/-- The sum, minimum or maximum a reduction forms; the operations by their place in R307. -/
inductive RKind where
  | sum | min | max | and | or | xor
deriving DecidableEq, Repr

def VOp.redKind : VOp → RKind
  | .redmin | .fredmin | .segmin | .fsegmin | .redmini => .min
  | .redmax | .fredmax | .segmax | .fsegmax | .redmaxi => .max
  | .redand => .and
  | .redor => .or
  | .redxor => .xor
  | _ => .sum

/-- The node of an integer reduction at width w, on values cut to it (R173). -/
def intNode (k : RKind) (uns : Bool) (w : Nat) (x y : BitVec 64) : BitVec 64 :=
  match k with
  | .sum => cutBits w (x + y)
  | .min => if intOf uns w x ≤ intOf uns w y then x else y
  | .max => if intOf uns w x ≤ intOf uns w y then y else x
  | .and => x &&& y
  | .or => x ||| y
  | .xor => x ^^^ y

/-- The identity of an integer reduction (R173). -/
def intOne (k : RKind) (uns : Bool) (w : Nat) : BitVec 64 :=
  match k with
  | .min => BitVec.ofNat 64 (if uns then 2 ^ w - 1 else 2 ^ (w - 1) - 1)
  | .max => if uns then 0 else BitVec.ofNat 64 (2 ^ (w - 1))
  | .and => BitVec.ofNat 64 (2 ^ w - 1)
  | _ => 0

/-- RSR acts as RNE in reductions (R165). -/
def redRm (t : BitVec 64) : Nat := if vtRm t = 5 then 0 else vtRm t

/-- The node of a floating-point reduction: a value and the flags met so far. -/
def fpNode (k : RKind) (f : Fmt) (rm : Nat) (x y : Nat × Flags) : Nat × Flags :=
  let (v, fl) := match k with
    | .min => f.min x.1 y.1
    | .max => f.max x.1 y.1
    | _ => f.add rm 0 x.1 y.1
  (v, x.2 ||| y.2 ||| fl)

/-- Its identity: -0, +∞, -∞. -/
def fpOne (k : RKind) (f : Fmt) : Nat × Flags :=
  match k with
  | .min => (f.infEnc, 0)
  | .max => (f.signBit true + f.infEnc, 0)
  | _ => (f.signBit true, 0)

/-- The active elements of vs2 with their values. -/
def VCmd.reads (c : VCmd) (s : State) : List (Nat × BitVec 64) :=
  (c.actives s s.curCore 0 c.vl).map fun e => (e, elemGet s s.curCore c.sew c.vs2.toNat e)

/-- A result extended as R308 writes it to a scalar register. -/
def extOut (uns : Bool) (w : Nat) (x : BitVec 64) : BitVec 64 := BitVec.ofInt 64 (intOf uns w x)

/-- A scalar reduction (R308). -/
def redScalar (c : VCmd) (s : State) : State :=
  let w := c.sew
  let k := c.op.redKind
  let l := c.reads s
  let init := cutBits w c.x
  if c.op.isFp then
    let f := (vFmt w c.uns).getD f32
    let node := fpNode k f (redRm c.vtype)
    let t := (treeAll node (fpOne k f) (myCore s) w c.grp (l.map fun x => (x.1, (x.2.toNat, (0 : Flags))))).getD (fpOne k f)
    let (v, fl) := node (init.toNat, 0) t
    raise fl (setG s c.vd (BitVec.ofNat 64 v))
  else
    let node := intNode k c.uns w
    let t := l.foldl (fun t x => node t x.2) (intOne k c.uns w)
    setG s c.vd (extOut c.uns w (node init t))

/-- The extreme value with its lowest index (R309). -/
def redIndex (c : VCmd) (s : State) : State :=
  let w := c.sew
  let k := c.op.redKind
  let better (x y : BitVec 64) : Bool :=
    if k = .min then decide (intOf c.uns w x < intOf c.uns w y) else decide (intOf c.uns w y < intOf c.uns w x)
  let (v, i) := (c.reads s).foldl (fun b x =>
    if better x.2 b.1 || (x.2 == b.1 && decide (x.1 < b.2)) then (x.2, x.1) else b) (intOne k c.uns w, 2 ^ 64 - 1)
  setG (setG s c.vs1 (extOut c.uns w v)) c.vd (BitVec.ofNat 64 i)

/-- Segments of length S: the trees over their active elements (R310). -/
def segTrees {α : Type} (f : α → α → α) (one : α) (len ns : Nat) (l : List (Nat × α)) : List (Nat × α) :=
  (List.range ns).map fun j =>
    (j, (treeOver f one 9 len ((l.filter fun x => x.1 / len == j).map fun x => (x.1 % len, x.2))).getD one)

/-- A segmented reduction (R310): what its segments become. -/
def redSegments (c : VCmd) (s : State) : State :=
  let w := c.sew
  let k := c.op.redKind
  let ns := (c.vl + c.k - 1) / max 1 c.k
  let l := c.reads s
  let put (j : Nat) (v : BitVec 64) (s : State) : State := elemPut s.curCore w c.vd.toNat j v s
  let s :=
    if c.op.isFp then
      let f := (vFmt w c.uns).getD f32
      (segTrees (fpNode k f (redRm c.vtype)) (fpOne k f) c.k ns (l.map fun x => (x.1, (x.2.toNat, (0 : Flags))))).foldl
        (fun s x => raise x.2.2 (put x.1 (BitVec.ofNat 64 x.2.1) s)) s
    else (segTrees (intNode k c.uns w) (intOne k c.uns w) c.k ns l).foldl (fun s x => put x.1 x.2 s) s
  if ns = 0 then s
  else updMyCore s fun q => { q with vec := { q.vec with vpi := vput q.vec.vpi c.vd.toNat (BitVec.ofNat 64 c.vl) } }

/-! ## The tree transfer (R311) -/

/-- Cell acc[i][j] (R136). -/
def accGet (s : State) (i j : Nat) : BitVec 32 := tabGet 0 (myCore s).vec.acc (64 * i + j)
def accPut (i j : Nat) (x : BitVec 32) (s : State) : State :=
  updMyCore s fun q => { q with vec := { q.vec with
    acc := if x = 0 then tabDel q.vec.acc (64 * i + j) else tabPut q.vec.acc (64 * i + j) x } }

/-- MSTAT.MSAT (R145). -/
def setMsat (b : Bool) (s : State) : State :=
  if b then updMyCore s fun q => { q with vec := { q.vec with mstat := q.vec.mstat ||| (1#64 <<< 32) } } else s

/-- An integer saturated to INT32, and whether it saturated (R171). -/
def sat32 (x : Int) : Int × Bool :=
  if x < -(2 ^ 31) then (-(2 ^ 31), true) else if 2 ^ 31 - 1 < x then (2 ^ 31 - 1, true) else (x, false)

/-- Row i of `acc` named by the vd field and bit 0 of the vs1 field (R307). -/
def VCmd.accRow (c : VCmd) : Nat := c.vd.toNat + 32 * (c.vs1.toNat % 2)

/-- A sum added into a cell, as INT32 or as f32 (R311). -/
def accAddInt (i j : Nat) (t : Int) (s : State) : State :=
  let (v, st) := sat32 ((accGet s i j).toInt + t)
  setMsat st (accPut i j (BitVec.ofInt 32 v) s)
def accAddFp (rm i j : Nat) (t : Nat × Flags) (s : State) : State :=
  let (v, fl) := f32.add rm 0 (accGet s i j).toNat t.1
  raise (t.2 ||| fl) (accPut i j (BitVec.ofNat 32 v) s)

/-- `vtree`, `vftree`, `vtreeseg`, `vftreeseg` (R311). -/
def treeTransfer (c : VCmd) (s : State) : State :=
  let w := c.sew
  let i := c.accRow
  let rm := redRm c.vtype
  let l := c.reads s
  let ns := (c.vl + c.k - 1) / max 1 c.k
  let ints : List (Nat × Int) := l.map fun x => (x.1, intOf c.uns w x.2)
  let fps : List (Nat × (Nat × Flags)) := l.map fun x => (x.1, f32.ofVal 0 0 (((vFmt w c.uns).getD f32).value x.2.toNat))
  match c.op with
  | .tree => accAddInt i 0 (ints.foldl (fun t x => t + x.2) 0) s
  | .ftree =>
    accAddFp rm i 0 ((treeAll (fpNode .sum f32 rm) (fpOne .sum f32) (myCore s) w c.grp fps).getD (fpOne .sum f32)) s
  | .treeseg => (segTrees (· + ·) 0 c.k ns ints).foldl (fun s x => accAddInt i x.1 x.2 s) s
  | _ => (segTrees (fpNode .sum f32 rm) (fpOne .sum f32) c.k ns fps).foldl (fun s x => accAddFp rm i x.1 x.2 s) s

/-! ## Permutations (R313 to R317) -/

/-- The source element element e of the destination reads, if it reads one (R313 to R317). -/
def VCmd.source (c : VCmd) (s : State) (e : Nat) : Option Nat :=
  let q := s.curCore.val
  let k := c.x.toNat
  let lim := vlmaxOf (myCore s).glanes c.vtype
  let below (i : Nat) : Option Nat := if i < lim then some i else none
  match c.op with
  | .slideup => if k ≤ e then some (e - k) else none
  | .slidedown => below (e + k)
  | .slide1up => if e = 0 then none else some (e - 1)
  | .slide1down => if e + 1 < c.vl then some (e + 1) else none
  | .gather => below (elemGet s q c.index.1 c.vs1.toNat e).toNat
  | .bcast => below k
  | .mrot =>
    let gl := max 1 (myCore s).glanes
    let lanes := max 1 (myCore s).lanes
    let g := (myCore s).gang
    let l := e % gl
    some (e - l + ((l / lanes + k % g) % g * lanes + l % lanes))
  | _ => none

/-- The destination elements of a permutation with their source elements; `vcompress` and `vexpand` count the bits of vs1. -/
def VCmd.moves (c : VCmd) (s : State) : List (Nat × Option Nat) :=
  let q := s.curCore.val
  let bits := (List.range c.vl).filter fun e => maskBit s q c.vs1.toNat e
  match c.op with
  | .compress => bits.zipIdx.map fun x => (x.2, some x.1)
  | .expand => bits.zipIdx.map fun x => (x.1, some x.2)
  | .slideup => ((c.actives s q 0 c.vl).filter fun e => decide (c.x.toNat ≤ e)).map fun e => (e, c.source s e)
  | _ => (c.actives s q 0 c.vl).map fun e => (e, c.source s e)

/-- A permutation (R313 to R317): every source is read before an element is written (R305). -/
def permute (c : VCmd) (s : State) : State :=
  let q := s.curCore.val
  let w := c.sew
  let one := match c.op with | .slide1up | .slide1down => true | _ => false
  let vals := (c.moves s).map fun x =>
    (x.1, match x.2 with
      | some i => elemGet s q w c.vs2.toNat i
      | none => if one then cutBits w c.x else 0)
  let s := vals.foldl (fun s x => elemPut q w c.vd.toNat x.1 x.2 s) s
  let s := if vals.isEmpty then s
    else updMyCore s fun q => { q with vec := { q.vec with vpi := vput q.vec.vpi c.vd.toNat (BitVec.ofNat 64 c.vl) } }
  if c.op = .compress then updMyCore s fun q => { q with vec := { q.vec with vl := BitVec.ofNat 64 vals.length } } else s

/-! ## The effect of a member -/

/-- The lowest element one of whose lanes, or a lane it reads, lies in an unpowered way (R305 rule 4): of a permutation, a destination
element's lane, its source's, or, of `vcompress` and `vexpand`, that of a bit of vs1; of a segmented reduction, a destination's too. -/
def VCmd.offElem (c : VCmd) (s : State) : Option Nat :=
  let gl := max 1 (myCore s).glanes
  let q := s.curCore.val
  let off (e : Nat) : Bool := laneOff s q (e % gl)
  let act := c.actives s q 0 c.vl
  let moved := ((c.moves s).filter fun x => off x.1 || (match x.2 with | some i => off i | none => false)).map (·.1)
  match c.op with
  | .slideup | .slidedown | .slide1up | .slide1down | .gather | .bcast | .mrot => (moved ++ act.filter off).min?
  | .compress | .expand => (moved ++ (List.range c.vl).filter off).min?
  | .segsum | .segmin | .segmax | .fsegsum | .fsegmin | .fsegmax =>
    (act ++ List.range ((c.vl + c.k - 1) / max 1 c.k)).filter off |>.min?
  | _ => act.find? off

/-- What a cross-lane instruction does (R307 to R317). -/
def crossEffect (c : VCmd) (s : State) : State :=
  match c.op with
  | .redsum | .redmin | .redmax | .redand | .redor | .redxor | .fredsum | .fredmin | .fredmax => redScalar c s
  | .redmini | .redmaxi => redIndex c s
  | .tree | .ftree | .treeseg | .ftreeseg => treeTransfer c s
  | .segsum | .segmin | .segmax | .fsegsum | .fsegmin | .fsegmax => redSegments c s
  | _ => permute c s

/-- `vmv.xs gd, vs2` (R296): element 0, whatever VL, VSTART and v0 hold. -/
def moveOut (c : VCmd) (s : State) : State :=
  setG s c.vd (extOut c.uns c.sew (elemGet s s.curCore c.sew c.vs2.toNat 0))

/-- The scalar registers a command writes when it completes (R296, R307). -/
def VCmd.scalarOut (c : VCmd) : List (BitVec 5) :=
  match c.op with
  | .redmini | .redmaxi => [c.vd, c.vs1]
  | .mvxs | .redsum | .redmin | .redmax | .redand | .redor | .redxor | .fredsum | .fredmin | .fredmax => [c.vd]
  | _ => []

end Sys2Proof.Machine
end

