-- ==== Sys2Proof/Machine/Formats.lean ====
section
/-!
DEFINITION. Format codes (R157, R158), operand rows and block scales of banks (R123, R124), elements of each format and block-scaled
conversion (R153 to R155, R162), and the loads and stores of rows between registers and banks (R325 to R328).
-/

namespace Sys2Proof.Machine

/-! ## Format codes (R157) -/

/-- Stored width of a code's elements; 0 for codes that name no format. -/
def codeWidth (k : Nat) : Nat :=
  if k = 0 then 32
  else if k ≤ 2 then 16
  else if k ≤ 4 then 8
  else if k ≤ 6 then 6
  else if k = 7 then 4
  else if k ≤ 9 then 8
  else if k ≤ 11 then 4
  else if k = 12 then 2
  else if k ≤ 14 then 8
  else if k ≤ 16 then 6
  else if k = 17 then 4
  else if k = 18 then 8
  else if k = 19 then 4
  else if k ≤ 23 then 8
  else 0

/-- Elements per operand row (R157). -/
def codeRow (k : Nat) : Nat :=
  let w := codeWidth k
  if w = 0 then 0 else if w = 6 then 504 else 3072 / w

/-- The floating-point format of a code, the base format for a block-scaled one. -/
def codeFmt (k : Nat) : Option Fmt :=
  if k = 0 then some f32
  else if k = 1 then some bf16
  else if k = 2 then some f16
  else if k = 3 ∨ k = 0x0D then some e4m3
  else if k = 4 ∨ k = 0x0E then some e5m2
  else if k = 5 ∨ k = 0x0F then some e3m2
  else if k = 6 ∨ k = 0x10 then some e2m3
  else if k = 7 ∨ k = 0x11 then some e2m1
  else none

def codeScaled (k : Nat) : Bool := decide (0x0D ≤ k) && decide (k ≤ 0x13)
/-- The integer codes: i8, n8, i4, n4, i2, pi8 and its views. -/
def codeInt (k : Nat) : Bool := (decide (8 ≤ k) && decide (k ≤ 0x0C)) || (decide (0x14 ≤ k) && decide (k ≤ 0x17))
def codeUns (k : Nat) : Bool := k == 9 || k == 11
/-- Codes that trap FMT at every consumer (R157). -/
def codeBad (k : Nat) : Bool := decide (0x18 ≤ k) && decide (k ≤ 0x1E)

/-- The integer an element of an integer code or of bsi8, bsi4 stands for; views read p planes (R155). -/
def codeIntVal (k : Nat) (x : Nat) : Int :=
  if k = 0x15 then (viewInt 6 false (BitVec.ofNat 64 x)).1
  else if k = 0x16 then (viewInt 4 false (BitVec.ofNat 64 x)).1
  else if k = 0x17 then (viewInt 2 false (BitVec.ofNat 64 x)).1
  else intOf (codeUns k) (codeWidth k) (BitVec.ofNat 64 x)

/-- The exact value of an element, scales excluded (R154, R171). -/
def codeVal (k : Nat) (x : Nat) : FVal :=
  match codeFmt k with
  | some f => f.value x
  | none => let v := codeIntVal k x; .fin (decide (v < 0)) v.natAbs 0

/-- A scale byte (R153). -/
def scaleVal (s : BitVec 8) : FVal := if s = 0xFF then .nan false else .fin false 1 ((s.toNat : Int) - 127)

/-- An element times its block scale, exactly (R154).  An element that is NaN in its base format reads as that NaN whatever the scale. -/
def scaledVal (k : Nat) (x : Nat) (s : BitVec 8) : FVal :=
  if codeScaled k && !(codeVal k x).isNan then (mulVal (codeVal k x) (scaleVal s)).1 else codeVal k x

/-! ## Banks -/

/-- BFMT fields of a way (R123). -/
def bfmtCode (w : BitVec 64) : Nat := w.toNat % 32
/-- SSTRIDE in bytes; 0 means 256 (R123). -/
def bfmtStride (w : BitVec 64) : Nat := let n := w.toNat / 2 ^ 16 % 256; if n = 0 then 256 else n
def bfmtScale (w : BitVec 64) : Nat := w.toNat / 2 ^ 32 % 2 ^ 18

/-- Bank offset of the scale byte of block j of operand row i (R124). -/
def scaleOff (b : BitVec 64) (i j : Nat) : Nat := (bfmtScale b + bfmtStride b * i + j) % 262144

/-- Bits lo to lo + n - 1 of an operand row of way w of core c, in the bit-string order of R150. -/
def rowBits (s : State) (c w row lo n : Nat) : Nat :=
  let a := bankGpa s c w (384 * row) + lo / 8
  memRead s.mem a ((lo % 8 + n + 7) / 8) / 2 ^ (lo % 8) % 2 ^ n

def putRowBits (c w row lo n x : Nat) (s : State) : State :=
  let a := bankGpa s c w (384 * row) + lo / 8
  let k := (lo % 8 + n + 7) / 8
  let old := memRead s.mem a k
  let sh := 2 ^ (lo % 8)
  { s with mem := memWrite s.mem a k (old - old / sh % 2 ^ n * sh + x % 2 ^ n * sh) }

def bankByte (s : State) (c w o : Nat) : BitVec 8 := memGet s.mem (bankGpa s c w o)
def putBankByte (c w o : Nat) (x : BitVec 8) (s : State) : State := { s with mem := memPut s.mem (bankGpa s c w o) x }

/-! ## Conversion to and from registers -/

/-- What `copyt` and `vldsp` write at width sew for an element of a bank in format k (R125, R327). -/
def codeIn (k sew : Nat) (x : Nat) (sc : BitVec 8) : BitVec 64 × Flags :=
  if k = 0x1F then (BitVec.ofNat 64 (x % 2 ^ sew), 0)
  else if codeInt k then (cutInt sew (codeIntVal k x), 0)
  else
    let (v, fl) := f32.ofVal 0 0 (scaledVal k x sc)
    (BitVec.ofNat 64 v, fl)

/-- The SEW `copyt` and `vldsp` require (R125). -/
def codeInOk (k sew : Nat) : Bool :=
  if k = 0x1F then true else if codeInt k then decide (codeWidth k ≤ sew) else sew == 32

/-- emax of a block-scaled code (R162). -/
def codeEmax (k : Nat) : Int :=
  if k = 0x0D then 8 else if k = 0x0E then 15 else if k = 0x0F then 4 else if k = 0x10 then 2 else if k = 0x11 then 2
  else if k = 0x12 then 6 else 2

/-- floor(log2) of a finite nonzero magnitude. -/
def log2Val : FVal → Int
  | .fin _ m e => e + Nat.log2 m
  | _ => 0
def isZero : FVal → Bool
  | .fin _ m _ => m == 0
  | _ => false
def isFin : FVal → Bool
  | .fin _ _ _ => true
  | _ => false

/-- A block of values, each with the draw of its lane, converted into a block-scaled format (R162): the scale byte, the elements, the
flags. -/
def toBlockR (k rm : Nat) (vs : List (FVal × Nat)) : BitVec 8 × List Nat × Flags :=
  if vs.any fun v => !isFin v.1 then (0xFF, vs.map fun _ => 0, fNV)
  else if vs.all fun v => isZero v.1 then
    (0, List.replicate vs.length 0, 0)
  else
    let top := ((vs.filter fun v => !isZero v.1).map fun v => log2Val v.1).foldl max (-100000)
    let x := max (-127) (min 127 (top - codeEmax k))
    let one (v : FVal × Nat) : Nat × Flags :=
      let u : FVal := match v.1 with | .fin n m e => .fin n m (e - x) | v => v
      match codeFmt k with
      | some f => f.ofVal rm v.2 u
      | none =>
        let w := codeWidth k
        match u with
        | .fin n m e =>
          let (i, lost) := roundAt rm n m e 0 false v.2
          let (i, ovf) := satInt false w (sgnInt n i)
          ((cutInt w i).toNat, flagIf (ovf != 0) (fOF ||| fNX) ||| flagIf lost fNX)
        | _ => (0, 0)
    let es := vs.map one
    (BitVec.ofInt 8 (x + 127), es.map (·.1), es.foldl (fun f e => f ||| e.2) 0)

/-- The same by a unit that draws no random bits (R165). -/
def toBlock (k rm : Nat) (vs : List FVal) : BitVec 8 × List Nat × Flags := toBlockR k rm (vs.map fun v => (v, 0))

/-! ## vldsp and vstsp (R325 to R328) -/

/-- Fields of g(vs1) (R325). -/
def VCmd.row0 (c : VCmd) : Nat := c.x.toNat % 1024
def VCmd.nrows (c : VCmd) : Nat := c.x.toNat / 2 ^ 16 % 1024
def VCmd.way (c : VCmd) : Nat := c.vs2.toNat

/-- Elements per operand row as `vldsp` and `vstsp` count them (R326). -/
def epRow (k sew : Nat) : Nat := if k = 0x1F then 3072 / sew else codeRow k

/-- The operand row and the place within it of element e (R326). -/
def VCmd.place (c : VCmd) (k e : Nat) : Nat × Nat :=
  let n := max 1 (epRow k c.sew)
  if c.k = 0 then (c.row0 + e / n, e % n) else (c.row0 + e % max 1 c.nrows, e / max 1 c.nrows)

/-- What `vstsp` requires of VTYPE (R328). -/
def codeOutOk (k : Nat) (c : VCmd) : Bool :=
  if k = 0x1F then true
  else if codeScaled k then c.sew == 32 && !c.m && c.vstart % 24 == 0 && c.vl % 24 == 0
  else if codeInt k then c.uns == codeUns k && decide (codeWidth k ≤ c.sew)
  else c.sew == 32

/-- VCFG of `vldsp` and `vstsp` (R326 to R328).  A format code that names no element has no elements per row: of R326, row0 and the rows of
T = 1 are then checked alone. -/
def spBad (c : VCmd) (s : State) : Bool :=
  let k := if c.way < 16 then bfmtCode (vget (myCore s).bfmt c.way) else 0x1F
  let noFmt := codeBad k || (c.op == .stsp && decide (0x15 ≤ k) && decide (k ≤ 0x17))
  let n := epRow k c.sew
  let last := (c.vl - 1) / max 1 n
  let places :=
    if c.k = 0 then decide (0 < c.vl) && decide (681 < c.row0 + (if n = 0 then 0 else last))
    else c.nrows == 0 || decide (682 < c.row0 + c.nrows) ||
      (decide (0 < c.vl) && n != 0 && decide (n ≤ (c.vl - 1) / max 1 c.nrows))
  places || (!noFmt && (if c.op = .ldsp then !codeInOk k c.sew else !codeOutOk k c))

/-- FMT, WAY_MODE and LAYER_OFF of the bank (R325); an instruction that performs no element takes none of them (R289, R306).  No value: the
XVAL of WAY_MODE and LAYER_OFF, which the spec does not state here. -/
def spBank (c : VCmd) (s : State) : Option (Cause × Option (BitVec 64)) :=
  let w := c.way
  let k := if w < 16 then bfmtCode (vget (myCore s).bfmt w) else 0x1F
  if codeBad k || (c.op == .stsp && decide (0x15 ≤ k) && decide (k ≤ 0x17)) then some (.fmt, some (BitVec.ofNat 64 k))
  else if 16 ≤ w ∨ w + (myCore s).nbank < 16 then some (.wayMode, none)
  else (bankCheck s s.curCore w).map fun z => (z, none)

/-- A store of the issuing core is on its way to its way w: the accesses of `vldsp` and `vstsp` come after it (R208, R323). -/
def storesToWay (s : State) (w : Nat) : Bool :=
  let c := s.curCore.val
  let way (g : Nat) : Bool := match targetOf s g with | .bank b v _ => b == c && v == w | _ => false
  ((myCore s).wq.any fun e => way e.gpa) || s.net.any fun p => p.core == c && p.writes != 0 && way p.gpa

/-! ### The blocks of a bank that a command has read or is to write (R329) -/

/-- Bits p to p + n - 1 of a way, as the blocks give them. -/
def blockBits (t : Tab (BitVec 512 × BitVec 512)) (p n : Nat) : Nat :=
  let at' (b : Nat) : Nat := (tabGet (0, 0) t b).2.toNat
  (at' (p / 512) + 2 ^ 512 * at' (p / 512 + 1)) / 2 ^ (p % 512) % 2 ^ n

/-- Blocks with x in the bits p to p + n - 1. -/
def blockPut (t : Tab (BitVec 512 × BitVec 512)) (p n x : Nat) : Tab (BitVec 512 × BitVec 512) :=
  let put (t : Tab (BitVec 512 × BitVec 512)) (b m d : Nat) : Tab (BitVec 512 × BitVec 512) :=
    if m % 2 ^ 512 = 0 then t
    else
      let (m', d') := tabGet (0, 0) t b
      tabPut t b (m' ||| BitVec.ofNat 512 m, lineMask d' (BitVec.ofNat 512 m) (BitVec.ofNat 512 d))
  let m := (2 ^ n - 1) * 2 ^ (p % 512)
  let d := x % 2 ^ n * 2 ^ (p % 512)
  put (put t (p / 512) m d) (p / 512 + 1) (m / 2 ^ 512) (d / 2 ^ 512)

/-- The blocks of these bits are read where the command has not read them yet, each once (R329); nothing while the bank serves the mesh
(R120). -/
def VCmd.readBlocks (c : VCmd) (p n : Nat) (s : State) : Option (VCmd × State) :=
  let q := s.curCore.val
  let new := ([p / 512, (p + n - 1) / 512].dedup).filter fun b => !tabHas c.blocks b
  if new.isEmpty then some (c, s)
  else if bankTaken s q q c.way then none
  else
    some ({ c with blocks := new.foldl (fun t b => tabPut t b (lineAll, homeLine s (bankGpa s q c.way (64 * b) / 64))) c.blocks },
      takeBank q q c.way s)

/-- The blocks of a `vstsp` are written, each in one merge (R328, R329): all in the step in which the command ends, the model's choice (log entry
119). -/
def VCmd.writeBlocks (c : VCmd) (s : State) : State :=
  let q := s.curCore.val
  c.blocks.foldl (fun s x =>
    let ln := bankGpa s q c.way (64 * x.1) / 64
    setHomeLine s ln (lineMask (homeLine s ln) x.2.1 x.2.2)) (takeBank q q c.way s)

/-- The block scales `vldsp` reads once at its start (R327): those of its rows from row0 on, row by row. -/
def ldspScales (c : VCmd) (s : State) : List (BitVec 64) :=
  let k := bfmtCode c.y
  let n := epRow k c.sew
  if !codeScaled k || c.vl = 0 then []
  else
    (List.range (if c.k = 0 then (c.vl - 1) / max 1 n + 1 else c.nrows)).flatMap fun r =>
      (List.range (n / 24)).map fun j => (bankByte s s.curCore c.way (scaleOff c.y (c.row0 + r) j)).zeroExtend 64

/-- Element e of `vldsp` (R327), in the format BFMT gave at issue. -/
def ldspElem (c : VCmd) (e : Nat) (s : State) : VRes :=
  let q := s.curCore.val
  if laneOff s q (e % max 1 (myCore s).glanes) then .stop e (.trap .layerOff (BitVec.ofNat 64 e)) c s
  else if storesToWay s c.way then .stall e false c s
  else
    let k := bfmtCode c.y
    let (row, i) := c.place k e
    let w := if k = 0x1F then c.sew else codeWidth k
    match c.readBlocks (3072 * row + i * w) w s with
    | none => .stall e false c s
    | some (c, s) =>
      let x := blockBits c.blocks (3072 * row + i * w) w
      let (v, fl) := codeIn k c.sew x ((c.seg.getD ((row - c.row0) * (epRow k c.sew / 24) + i / 24) 0).setWidth 8)
      .done c (raise fl (elemPut q c.sew c.vd.toNat e v s))

/-- `vstsp` gives element i of an operand row a value; a 6-bit row whose last block is written has bytes 378 to 383 written as zero (R328). -/
def VCmd.putRow (c : VCmd) (k row i w x : Nat) : VCmd :=
  let t := blockPut c.blocks (3072 * row + i * w) w x
  { c with blocks := if codeWidth k = 6 ∧ 480 ≤ i then blockPut t (3072 * row + 378 * 8) 48 0 else t }

/-- An element of `vstsp` as a value of a format that is not block-scaled, with its flags; a rounding one takes its lane's draw under RSR
(R165, R167, R328). -/
def stspOut (c : VCmd) (k e : Nat) (x : BitVec 64) (s : State) : Nat × Flags × State :=
  if k = 0x1F then (x.toNat, 0, s)
  else if codeInt k then
    let (v, fl) := satInt (codeUns k) (codeWidth k) (intOf c.uns c.sew x)
    ((cutInt (codeWidth k) v).toNat, fl, s)
  else
    let (r, s) := if c.rm = 5 then vrsNext s.curCore (e % max 1 (myCore s).glanes) s else (0, s)
    let (v, fl) := ((codeFmt k).getD f32).ofVal c.rm r (f32.value x.toNat)
    (v, fl, s)

/-- The elements of the block of 24 that element e of a block-scaled `vstsp` lies in (R328), rising. -/
def VCmd.blockElems (c : VCmd) (e : Nat) : List Nat :=
  let n := max 1 c.nrows
  ((List.range 24).map fun j => if c.k = 0 then e / 24 * 24 + j else e % n + n * (e / n / 24 * 24 + j)).filter fun x =>
    decide (c.vstart ≤ x) && decide (x < c.vl)

/-- One block of `vstsp` into a block-scaled format (R162, R328), from its elements es and the draws that their passes took: the command with its
bits, and the flags. -/
def stspBlock (c : VCmd) (es : List Nat) : VCmd × Flags :=
  let k := bfmtCode c.y
  let w := codeWidth k
  let at' (i : Nat) : Nat := (c.seg.getD i 0).toNat
  let (sc, xs, fl) := toBlockR k c.rm (es.map fun e => (f32.value (at' (2 * (e - c.vstart))), at' (2 * (e - c.vstart) + 1)))
  let c := (es.zip xs).foldl (fun c x => let (row, i) := c.place k x.1; c.putRow k row i w x.2) c
  let (row, i) := c.place k (es.headD 0)
  ({ c with blocks := blockPut c.blocks (8 * scaleOff c.y row (i / 24)) 8 sc.toNat }, fl)

/-- Element e of `vstsp` (R328); in a block-scaled format the block is converted with the last of its elements.  What it writes stands in the
command until that ends. -/
def stspElem (c : VCmd) (e : Nat) (s : State) : VRes :=
  let q := s.curCore.val
  let l := e % max 1 (myCore s).glanes
  let k := bfmtCode c.y
  let x := elemGet s q c.sew c.vd.toNat e
  if laneOff s q l then .stop e (.trap .layerOff (BitVec.ofNat 64 e)) c s
  else if storesToWay s c.way then .stall e false c s
  else if codeScaled k then
    let (d, s) := if c.rm = 5 then vrsNext q l s else (0, s)
    let c := { c with seg := c.seg ++ [x, BitVec.ofNat 64 d] }
    let es := c.blockElems e
    if es.getLastD e = e then (let (c, fl) := stspBlock c es; .done c (raise fl s)) else .done c s
  else
    let (v, fl, s) := stspOut c k e x s
    let (row, i) := c.place k e
    let w := if k = 0x1F then c.sew else codeWidth k
    .done (c.putRow k row i w v) (raise fl s)

/-- A `vstsp` stopped at element e commits the elements below it (R129): of a block-scaled one the blocks it has begun are converted from
those. -/
def stspFlush (c : VCmd) (e : Nat) (s : State) : State :=
  if c.op != .stsp then s
  else if !codeScaled (bfmtCode c.y) then c.writeBlocks s
  else
    let begun := ((List.range e).drop c.vstart).filter fun x => (c.blockElems x).head? == some x && decide (e ≤ (c.blockElems x).getLastD x)
    let (c, fl) := begun.foldl (fun (r : VCmd × Flags) x =>
      let (c, fl) := stspBlock r.1 ((r.1.blockElems x).filter fun y => decide (y < e))
      (c, r.2 ||| fl)) (c, 0)
    raise fl (c.writeBlocks s)

end Sys2Proof.Machine
end

