-- ==== Sys2Proof/Machine/VecConvoy.lean ====
section
/-!
DEFINITION. The convoy of vector commands (R178, R181 to R183): the part of a member, stops and their records (R399 to R401, R424), and the
issue of vector commands (R281, R288, R304, R305, R320, R325).
-/

namespace Sys2Proof.Machine

/-! ## A part of a command -/

/-- A command begins: what is read before its first pass is read (R224, R286, R327), the scales of a `vldsp` once the earlier stores to its bank are
performed (R323). -/
def VCmd.begin (c : VCmd) (s : State) : VCmd :=
  if c.began || (c.op == .ldsp && storesToWay s c.way) then c
  else { c with
    began := true
    seg :=
      if c.op = .ldsp then ldspScales c s
      else match c.op.src2 c.sc with
        | some k => (List.range c.rep).map fun i => elemGet s s.curCore (k.width c.sew) c.vs2.toNat i
        | none => [] }

/-- What performs an element. -/
def elemFn (o : VOp) : VCmd → Nat → State → VRes :=
  if o.isMem then memElem
  else match o with
    | .ldsp => ldspElem
    | .stsp => stspElem
    | _ => elemStep

/-- Elements lo to hi - 1 of a command, the progress index following (R140). -/
def runSpan (c : VCmd) (lo hi : Nat) (s : State) : VRes :=
  match runElems (elemFn c.op) (c.actives s s.curCore lo hi) c s with
  | .done c s => .done { c with next := max c.next hi } (setVpi c hi s)
  | .stop e z c s => .stop e z { c with next := e } (setVpi c e (stspFlush c e s))
  | .stall e l c s => .stall e l { c with next := e } (setVpi c e s)

/-- A command whose last element is performed ends; a `vstsp` writes its blocks then, when its bank serves the core (R120, R328). -/
def endElems (c : VCmd) (s : State) : VRes :=
  if c.next < c.vl then .done c s
  else if c.op != .stsp || c.blocks.isEmpty then .done { c with finished := true } s
  else if bankTaken s s.curCore s.curCore c.way then .stall c.next false c s
  else .done { c with finished := true } (c.writeBlocks s)

/-- A turn of a command (R178, R183): the elements of its next element group.  A cross-lane command has one turn, and so has `vmv.xs` (R296,
R305); a command that performs no element ends with its turn (R289). -/
def runTurn (c0 : VCmd) (s0 : State) : VRes :=
  let gl := max 1 (myCore s0).glanes
  let c := c0.begin s0
  let s := seeChunks c s0
  if c.op.isCross then
    match c.offElem s with
    | some e => .stop 0 (.trap .layerOff (BitVec.ofNat 64 e)) c s
    | none => .done { c with next := c.vl, finished := true } (crossEffect c s)
  else if c.op = .mvxs then .done { c with finished := true } (moveOut c s)
  else
    match runSpan c c.next (min c.vl ((c.next / gl + 1) * gl)) s with
    | .done c s => endElems { c with gather := none, gathered := [] } s
    | r => r

/-- DCONV when a member begins: head and members begun (R421). -/
def noteConvoy (head : BitVec 48) (n : Nat) (s : State) : State :=
  updMe s fun h => { h with dconv := (head.zeroExtend 64 &&& ~~~(1#64)) ||| BitVec.ofNat 64 (2 ^ 48 * n) }

/-! ## Stops -/

/-- XCONV (R402). -/
def xconvWord (fpos cnt fstart gstart : Nat) : BitVec 64 :=
  BitVec.ofNat 64 (2 ^ 60 * fpos + 2 ^ 56 * cnt + 2 ^ 26 * fstart + gstart)

/-- The dense-tile commands of core c that satisfy p leave, with their requests at other cores' banks. -/
def dropTile (c : Nat) (p : DtuOp → Bool) (s : State) : State :=
  if !((coreAt s c).vec.dtu.any p) then s
  else
    let s := updCore s c fun q => { q with vec := { q.vec with dtu := q.vec.dtu.filter fun d => !p d } }
    { s with cores := s.cores.map fun e =>
      (e.1, { e.2 with windows := (e.2.windows.map fun w => { w with cores := w.cores.filter (· != c) }).filter fun w => !w.cores.isEmpty }) }

/-- XCONV and the first XCPC registers take the record of a stop (R400). -/
def Hart.recordReplay (xc : BitVec 64) (members : List (BitVec 48)) (h : Hart) : Hart :=
  { h with xconv := xc, shadow := none
           xcpc := Vector.ofFn fun i => match members[i.val]? with | some p => p.zeroExtend 64 &&& ~~~(1#64) | none => h.xcpc.get i }

/-- A member of the convoy is settled (R399): completed, or, but for a vector load or store, begun while no lane of it can lack power. -/
def VCmd.settled (c : VCmd) (s : State) : Bool :=
  c.finished || (c.began && !c.op.isMem && ((colAt s (colOf s.curCore)).layerctl.getLsbD 0 || decide ((myCore s).narr ≤ 8)))

/-- A stop of the vector hart at a command (R399, R400, R424): VSTART, the checkpoint, the trap and the replay record; of the instructions that
the checkpoint takes back, and of members past the command that had completed, INSTRET counts none (R147): n are these members.  A watch region
with ACT = 1 halts the hart instead and writes no X register (R422); a freeze or pre-emption leaves it at the command, READY (R321), or HALTED
where the debug module steps it (R436).  The step unit under way goes on there (R426). -/
def vecStop (c : VCmd) (e : Nat) (z : VEnd) (xc : BitVec 64) (members : List (BitVec 48)) (n : Nat) (s : State) : State :=
  let undone := (me s).counted - c.check.counted
  let s := updMyCore s fun q => { q with
    instret := q.instret - BitVec.ofNat 64 (undone + n)
    vec := { q.vec with
      vstart := BitVec.ofNat 64 e, vl := BitVec.ofNat 64 c.vl, vtype := c.vtype, convoy := [], stop := none
      dtu := q.vec.dtu.map fun d => { d with after := 0 } } }
  let s := updMe s fun h => { h with pc := c.check.pc, g := c.check.g, ox := c.check.ox, fstat := c.check.fstat }
  match z with
  | .trap z x => updMe (takeTrap z x true s) (Hart.recordReplay xc members)
  | .halt => updMe s fun h => { h with
      shadow := some (xc, members.map fun p => p.zeroExtend 64 &&& ~~~(1#64)), st := .halted, back := .ready, wait := .none, replayed := 9
      stepDone := false, dbgStep := false }
  | .freeze => updMe s fun h =>
    let h := { (h.recordReplay xc members).goOn with wait := .none, replayed := 9, stepDone := false }
    if h.dbgStep then { h with st := .halted, back := .ready, dbgStep := false } else h

/-- A command with the machine to itself stopped in group g (R400): no member follows it. -/
def soloStop (c : VCmd) (e : Nat) (z : VEnd) (s : State) : State :=
  let gl := max 1 (myCore s).glanes
  let g := e / gl * gl
  vecStop c e z (xconvWord 0 0 g g) [] 0 s

/-! ## The convoy -/

/-- A turn of member i has been performed: the member as it is now; one that has completed counts in INSTRET, once (R147), is sampled, and
the scalar registers it wrote stand in the checkpoints of the members after it (R296, R399). -/
def endTurn (i : Nat) (c : VCmd) (s : State) : State :=
  let l := (myCore s).vec.convoy
  let head := match l with | m :: _ => m.pc | [] => c.pc
  let put (s : State) (f : VCmd → VCmd) : State :=
    updMyCore s fun q => { q with vec := { q.vec with convoy := (q.vec.convoy.set i c).mapIdx fun j x => if i < j then f x else x } }
  if !c.finished then put s id
  else
    let h := me s
    let keep (x : VCmd) : VCmd :=
      { x with check := { x.check with g := c.scalarOut.foldl (fun g r => if r = 0 then g else g.set r.toFin (h.gr r)) x.check.g } }
    let s := sampleDone c head l.length i (put s keep)
    updMyCore s fun q => { q with instret := q.instret + 1 }

/-- The record of a stop: member j is the one taken, member i the first that stopped, in the group that begins at element g (R400).  The
dense-tile commands issued after member j go with it (R399). -/
def recordStop (i j e g fst : Nat) (z : VEnd) (s : State) : State :=
  let l := (myCore s).vec.convoy
  match l[j]? with
  | none => s
  | some c =>
    let rest := (l.drop (j + 1)).filter (·.began)
    let xc := if j = i then xconvWord 0 rest.length g g else xconvWord (i - j - 1) rest.length fst g
    vecStop c e z xc (rest.map (·.pc)) ((l.drop (j + 1)).countP (·.finished)) (dropTile s.curCore (fun d => decide (j < d.after)) s)

/-- The stop of member i of the convoy at element e (R183): while an earlier member has passes left it is kept, for that one to run on; else it is
taken (R400). -/
def convoyStop (i e : Nat) (z : VEnd) (s : State) : State :=
  let gl := max 1 (myCore s).glanes
  let g := e / gl * gl
  if ((myCore s).vec.convoy.take i).all (·.finished) then recordStop i i e g g z s
  else updMyCore s fun q => { q with vec := { q.vec with stop := some (i, e, z) } }

/-- The element group of a member's next turn; `vmv.xs` runs in group 0 (R296). -/
def VCmd.group (c : VCmd) (gl : Nat) : Nat := if c.op = .mvxs then 0 else c.next / gl

/-- The member whose turn it is: the smallest next element group, program order within a group (R183); a cross-lane one once every earlier
member has completed (R305). -/
def nextMember (gl : Nat) (l : List VCmd) : Option Nat :=
  ((l.zipIdx).foldl (fun (b : Option (Nat × Nat)) x =>
    if x.1.finished then b
    else match b with
      | none => some (x.2, x.1.group gl)
      | some y => if !x.1.op.isCross && decide (x.1.group gl < y.2) then some (x.2, x.1.group gl) else b) none).map (·.1)

/-- A convoy whose members have all completed ends. -/
def endConvoy (s : State) : State :=
  if (myCore s).vec.convoy.all (·.finished) then
    updMyCore s fun q => { q with vec := { q.vec with convoy := [], dtu := q.vec.dtu.map fun d => { d with after := 0 } } }
  else s

/-- The core comes to its pre-emption points, or freezes (R405, R429). -/
def breaking (s : State) : Bool := (myCore s).wave || (myCore s).night || stopping s s.curCore

/-- Running on (R183): the earlier members complete one at a time, in program order, each turn by turn; one that stops itself is the one taken, and
at a freeze or pre-emption so is one that stands at a locked range (R321). -/
def runOn (i e : Nat) (z : VEnd) (s : State) : State :=
  let gl := max 1 (myCore s).glanes
  let l := (myCore s).vec.convoy
  match (List.range i).find? fun k => (l[k]?).any fun c => !c.finished with
  | none => convoyStop i e z s
  | some k =>
    match l[k]? with
    | none => s
    | some c =>
      match runTurn c s with
      | .done c s => convoyStop i e z (endTurn k c s)
      | .stop e' z' c s => recordStop i k e' (e / gl * gl) e z' (endTurn k c s)
      | .stall e' lock c s =>
        if lock && breaking s then recordStop i k e' (e / gl * gl) e .freeze (endTurn k c s) else endTurn k c s

/-- One turn of the convoy of the issuing core.  A member that waits keeps what it has done and is tried again; at a freeze or pre-emption one that
stands at a locked range stops there (R321). -/
def convoyPass (s0 : State) : State :=
  let gl := max 1 (myCore s0).glanes
  let l := (myCore s0).vec.convoy
  let head := match l with | c :: _ => c.pc | [] => 0
  match (myCore s0).vec.stop, nextMember gl l with
  | some (i, e, z), _ => runOn i e z s0
  | none, none => endConvoy s0
  | none, some i =>
    match l[i]? with
    | none => s0
    | some c =>
      let s := if c.began || (decide (c.vl ≤ c.vstart) && c.op != .mvxs) then s0 else noteConvoy head (l.countP (·.began) + 1) s0
      match runTurn c s with
      | .done c s => endConvoy (endTurn i c s)
      | .stop e z c s => convoyStop i e z (endTurn i c s)
      | .stall e lock c s => if lock && breaking s0 then convoyStop i e .freeze (endTurn i c s) else endTurn i c s

/-- Turns of the convoy until it ends, or until none gets on. -/
def convoyRun : Nat → State → State
  | 0, s => s
  | n + 1, s =>
    if (myCore s).vec.convoy.isEmpty then s
    else
      let t := convoyPass s
      if (myCore t).vec.convoy = (myCore s).vec.convoy ∧ (myCore t).vec.stop = (myCore s).vec.stop then t else convoyRun n t

/-! ## Capture and replay -/

/-- A command as its instruction gives it, before issue. -/
def mkCmd (op : VOp) (sc : Bool) (vd vs2 vs1 : BitVec 5) (m : Bool) (rep k : Nat) (word : BitVec 64) : VCmd :=
  { op := op, sc := sc, vd := vd, vs2 := vs2, vs1 := vs1, m := m, rep := rep, k := k, word := word, pc := 0, x := 0, y := 0, vl := 0
    vstart := 0, vtype := 0, check := { pc := 0, g := Vector.replicate 32 0, ox := Vector.replicate 8 0, fstat := 0, counted := 0 }, next := 0
    began := false, finished := false, performed := false, gather := none, gathered := [], seg := [], blocks := [], bank := none, cyc := 0, lines := [], rngs := []
    misses := 0, conflicts := 0, firstReq := none }

/-- The replay record: XCONV and the XCPC registers, or what an ACT = 1 watch keeps beside them (R400, R422). -/
def Hart.replayList (h : Hart) : BitVec 64 × List (BitVec 64) := h.shadow.getD (h.xconv, h.xcpc.toList)

/-- CNT of the record; the one that a watch keeps is gone when none is left, and XCONV then counts again. -/
def Hart.withCount (n : Nat) (h : Hart) : Hart :=
  let cut (x : BitVec 64) : BitVec 64 := setBits x (BitVec.ofNat 64 (2 ^ 56 * n)) 58 56
  match h.shadow with
  | none => { h with xconv := cut h.xconv }
  | some (x, l) => if n = 0 then { h with shadow := none, replayed := 10 } else { h with shadow := some (cut x, l) }

/-- XCONV.CNT := 0 (R401). -/
def endReplay (s : State) : State := updMe s fun h => { h with xconv := setBits h.xconv 0 58 56, shadow := none }

/-- The place of a command in the replay record (R401): that of the number of members replayed, or, for a context restored while it replayed, the
first that names the command (log entry 130). -/
def Hart.replayPlace (h : Hart) (l : List (BitVec 64)) (cnt : Nat) : Option Nat :=
  (List.range 7).find? fun k => (k + 1 == h.replayed || (h.replayed == 10 && decide (k + cnt ≤ 7))) && l.getD k 0 == h.pc.zeroExtend 64

/-- The match of a vector command against the replay record (R401): the restart element it gives, and the hart after it. -/
def Hart.replay (h : Hart) (gl : Nat) : Nat × Hart :=
  let (x, l) := h.replayList
  let xc := x.toNat
  let cnt := xc / 2 ^ 56 % 8
  if cnt = 0 then (0, h)
  else if ((h.replayed = 0 ∨ h.replayed = 10) ∧ h.pc.zeroExtend 64 = h.xpc) ∨ h.replayed = 9 then (0, { h with replayed := 1 })
  else
    match h.replayPlace l cnt with
    | some k =>
      let fpos := xc / 2 ^ 60 % 8
      let fst := xc / 2 ^ 26 % 2 ^ 26
      let gst := xc % 2 ^ 26
      (if k < fpos then gst + gl else if k = fpos then fst else gst, { h with replayed := k + 2 }.withCount (cnt - 1))
    | none => (0, h.withCount 0)

/-- The bank a command is aimed at when it issues (R320): 0 none, 1 a miss, otherwise 2 plus the way's number. -/
def aimedAt (s : State) (c : VCmd) : Nat :=
  if c.op = .ldsp ∨ c.op = .stsp then 2 + 16 * s.curCore.val + c.way
  else if !c.op.isMem then 0
  else
    match rcLookup (myCore s).rcache (myCore s).job c.x.toNat with
    | none => 1
    | some (d, _) =>
      match targetOf s (d.gpa c.x.toNat) with
      | .bank b w _ => 2 + 16 * b + w
      | _ => 0

/-- What a command captures at issue (R226, R281, R399); `vldsp` and `vstsp` their bank's BFMT (R124, R325). -/
def VCmd.capture (c : VCmd) (s : State) : VCmd :=
  let h := me s
  let v := (myCore s).vec
  let st := max v.vstart.toNat (h.replay (myCore s).glanes).1
  let c := { c with
    pc := h.pc, x := h.gr c.vs1, y := if c.op = VOp.ldsp ∨ c.op = VOp.stsp then vget (myCore s).bfmt c.way else h.gr c.vs2
    vl := v.vl.toNat, vstart := st, vtype := v.vtype, next := st
    check := { pc := h.pc, g := h.g, ox := h.ox, fstat := h.fstat, counted := h.counted }, cyc := cycOf s (myCore s) }
  { c with bank := some (aimedAt s c) }

/-- The replay record moves on when a command has issued (R401). -/
def takeReplay (s : State) : State := updMe s fun h => (h.replay (myCore s).glanes).2

/-! ## Joining -/

/-- A vector memory instruction, the forms that name a bank's rows included (R319). -/
def VCmd.memory (c : VCmd) : Bool := c.op.isMem || c.op == .ldsp || c.op == .stsp
def VCmd.stores (c : VCmd) : Bool := c.op.isStore || c.op == .stsp

/-- Rising numbers as spans: the next extends the last one, or opens another. -/
def addLine (l : List (Nat × Nat)) (n : Nat) : List (Nat × Nat) :=
  match l with
  | (a, b) :: r => if a ≤ n ∧ n ≤ b + 1 then (a, max b n) :: r else (n, n) :: l
  | [] => [(n, n)]

/-- The GPA lines a memory command may touch, as spans; no value where they are not known at issue (an indexed form, a locked range). -/
def VCmd.touches (c : VCmd) (s : State) : Option (List (Nat × Nat)) :=
  if c.op.indexed then none
  else if !c.op.isMem then
    let a := bankGpa s s.curCore c.way 0 / 64
    some [(a, a + 4095)]
  else
    let vas := ((List.range (c.vl - c.vstart)).foldl (fun l i => addLine l ((c.addr s (c.vstart + i)).toNat / 64)) []).flatMap fun x =>
      (List.range (x.2 + 1 - x.1)).map (x.1 + ·)
    vas.foldl (fun r n =>
      match r with
      | none => none
      | some l =>
        match (translate s s.curCore (isSys s) (if c.stores then needWr else needRd) (BitVec.ofNat 64 (64 * n))).1 with
        | .ok g _ _ => some (addLine l (redirect s (myCore s).job g / 64))
        | .fault _ => some l
        | _ => none) (some [])

/-- Two memory commands of which one stores may touch one line (R208, R323). -/
def conflict (s : State) (c d : VCmd) : Bool :=
  c.memory && d.memory && (c.stores || d.stores) &&
    (match c.touches s, d.touches s with
     | some a, some b => a.any fun x => b.any fun y => decide (x.1 ≤ y.2) && decide (y.1 ≤ x.2)
     | _, _ => true)

/-- The open convoy takes a command (R181, R182, R320): fewer than 8 members, equal VL, VSTART and VTYPE, no other bank, and nothing has ended
the convoy.  A command that may touch a line of a member, where one of the two stores, waits for the members to complete, as where the queue
runs empty (R182): so two vector memory instructions are performed in program order (R208).  A member whose gB misses the range cache counts as
aimed at another bank than the convoy's (R320); where the convoy has none yet it joins and sets none, the model's choice (log entry 120). -/
def convoyTakes (s : State) (c : VCmd) : Bool :=
  let v := (myCore s).vec
  match v.convoy with
  | [] => true
  | h :: _ =>
    !v.ended && decide (v.convoy.length < 8) && h.vl == c.vl && h.vstart == c.vstart && h.vtype == c.vtype &&
      (let b := c.bank.getD 0
       let banks := (v.convoy.map fun x => x.bank.getD 0).filter fun x => 2 ≤ x
       b == 0 || banks.isEmpty || banks.contains b) &&
      !(v.convoy.any fun d => !d.finished && conflict s c d)

/-- Whether a command of this machine goes into the queue, to run turn by turn; otherwise it runs whole as a convoy of its own, which
R181 and R182 allow (a queue that runs empty ends a convoy). -/
def queues (s : State) : Bool := s.vqueue

/-- A command enters the convoy and the hart goes on (R181, R399): VSTART := 0, but for `vmv.xs` (R139, R296).  A cross-lane command is the
last member, and a command that does not queue the only one, which runs at once. -/
def enterConvoy (c : VCmd) (s : State) : State :=
  let s := sampleIssue c s
  let alone := !queues s
  let s := updMyCore s fun q => { q with vec := { q.vec with
    convoy := q.vec.convoy ++ [c], ended := alone || c.op.isCross
    vstart := if c.op = .mvxs then q.vec.vstart else 0 } }
  let s := updMe (takeReplay s) fun h => h.passTo (h.pc + 4)
  if alone then convoyRun (c.vl + 1) s else s

/-- A trap of a vector command at its issue: VSTART is its restart point (R148, R288); earlier commands complete first (R398). -/
def issueTrap (z : Cause) (x : BitVec 64) (c : VCmd) (s : State) : State :=
  if !(myCore s).quiet then s
  else takeTrap z x true (updMyCore s fun q => { q with vec := { q.vec with vstart := BitVec.ofNat 64 c.vstart } })

/-- A command that has completed with the machine to itself: VSTART := 0, and the instruction retires (R139). -/
def vecDone (s : State) : State :=
  retire 4 (takeReplay (updMyCore s fun q => { q with vec := { q.vec with vstart := 0 } }))

/-! ## Issue -/

/-- What holds the vector hart's next vector, dense-tile or block-port command: a change of the ways that quiesces (R127), the upper layer on
its way to being powered off (R129), or a write of a vector-context register by another hart of the core (R134). -/
def cmdHeld (s : State) : Bool :=
  let q := myCore s
  let layer := (colAt s (colOf s.curCore)).layerctl
  (wayChange s s.curCore).isSome || (layer.getLsbD 2 && !layer.getLsbD 1 && layer.getLsbD 0) ||
    (List.finRange 8).any fun k => k != q.vec.slot && (q.harts.get k).st == .ready && (q.harts.get k).wait == .settle

/-- A vector command also waits while an ended convoy has not completed (R182). -/
def vecHeld (s : State) : Bool := cmdHeld s || ((myCore s).vec.ended && !(myCore s).vec.convoy.isEmpty)

/-- Scalar registers that members of the convoy have yet to write (R296). -/
def Core.owed (q : Core) : List (BitVec 5) := ((q.vec.convoy.filter fun c => !c.finished).flatMap VCmd.scalarOut).filter (· != 0)

/-- The checks every vector command takes, in the order of R219; goes on with the captured command. -/
def issueVec (c0 : VCmd) (s : State) (k : VCmd → State → State) : Out :=
  if !isVecHart s then finish (.trap .vown c0.word s)
  else if vecHeld s || (myCore s).owed.contains c0.vs1 || (myCore s).owed.contains c0.vs2 then .next s
  else
    let c := c0.capture s
    let tree := match c.op with | .tree | .ftree | .treeseg | .ftreeseg => true | _ => false
    if tree && (myCore s).vec.mstat.getLsbD 63 then .next (issueTrap .mmode c.word c s)
    else if c.badCfg (myCore s).glanes then .next (issueTrap .vcfg c.word c s)
    else .next (k c s)

/-- A command joins the convoy, or waits at its instruction until that has ended. -/
def joinConvoy (c : VCmd) (s : State) : State :=
  if queues s && convoyTakes s c || (myCore s).quiet then enterConvoy c s else s

/-- An element, vector memory or cross-lane instruction, or `vmv.xs` (R285, R296, R305, R320). -/
def vecInstr (c0 : VCmd) (s : State) : Out := issueVec c0 s joinConvoy

/-- `vldsp` and `vstsp` (R325 to R328): a trap of the bank's depends on the active elements, which earlier members may yet decide. -/
def spInstr (c0 : VCmd) (s : State) : Out :=
  issueVec c0 s fun c s =>
    if spBad c s then issueTrap .vcfg c.word c s
    else
      match spBank c s with
      | none => joinConvoy c s
      | some (z, x) =>
        if !(myCore s).quiet then s
        else if (c.actives s s.curCore c.vstart c.vl).isEmpty then joinConvoy c s
        else
          match x with
          | some x => issueTrap z x c s
          | none => let (x, s) := takeFree s; issueTrap z x c s

end Sys2Proof.Machine
end

