-- ==== Sys2Proof/Machine/VecInt.lean ====
section
/-!
DEFINITION. The element instructions on integers, masks and random states (R290 to R296, R302).
-/

namespace Sys2Proof.Machine

/-- Length of the replicated segment of vs2, 0 without replication (R224). -/
def repLen (r : BitVec 2) (p : BitVec 1) : Nat :=
  if p = 0 then 0 else if r = 0 then 1 else if r = 1 then 4 else if r = 2 then 8 else 32

/-- Index width of `vgather` and of the indexed memory forms; 0 stands for SEW (R313). -/
def indexBits (w : BitVec 2) : Nat := if w = 2 then 32 else if w = 3 then 64 else 0

/-- VADD_VV (R291). Element-wise integer add of two vectors. -/
def execVaddVv (r : BitVec 2) (p : BitVec 1) (a : BitVec 1) (m : BitVec 1) (t : BitVec 5) (u : BitVec 5) (d : BitVec 5) (s : State) : Out :=
  vecInstr (mkCmd .add false d t u (m == 1) (repLen r p) 0 (vWord 0x20 0 (2 * r.toNat + p.toNat) a.toNat m.toNat t.toNat u.toNat d.toNat)) s

/-- VADD_VX (R291). Integer add of a vector and a scalar. -/
def execVaddVx (r : BitVec 2) (p : BitVec 1) (a : BitVec 1) (m : BitVec 1) (t : BitVec 5) (u : BitVec 5) (d : BitVec 5) (s : State) : Out :=
  vecInstr (mkCmd .add true d t u (m == 1) (repLen r p) 0 (vWord 0x20 1 (2 * r.toNat + p.toNat) a.toNat m.toNat t.toNat u.toNat d.toNat)) s

/-- VSUB_VV (R291). Element-wise integer subtract. -/
def execVsubVv (r : BitVec 2) (p : BitVec 1) (a : BitVec 1) (m : BitVec 1) (t : BitVec 5) (u : BitVec 5) (d : BitVec 5) (s : State) : Out :=
  vecInstr (mkCmd .sub false d t u (m == 1) (repLen r p) 0 (vWord 0x20 2 (2 * r.toNat + p.toNat) a.toNat m.toNat t.toNat u.toNat d.toNat)) s

/-- VSUB_VX (R291). Vector minus scalar. -/
def execVsubVx (r : BitVec 2) (p : BitVec 1) (a : BitVec 1) (m : BitVec 1) (t : BitVec 5) (u : BitVec 5) (d : BitVec 5) (s : State) : Out :=
  vecInstr (mkCmd .sub true d t u (m == 1) (repLen r p) 0 (vWord 0x20 3 (2 * r.toNat + p.toNat) a.toNat m.toNat t.toNat u.toNat d.toNat)) s

/-- VRSUB_VX (R291). Scalar minus vector. -/
def execVrsubVx (r : BitVec 2) (p : BitVec 1) (a : BitVec 1) (m : BitVec 1) (t : BitVec 5) (u : BitVec 5) (d : BitVec 5) (s : State) : Out :=
  vecInstr (mkCmd .rsub true d t u (m == 1) (repLen r p) 0 (vWord 0x20 4 (2 * r.toNat + p.toNat) a.toNat m.toNat t.toNat u.toNat d.toNat)) s

/-- VMUL_VV (R291). Low bits of element-wise product. -/
def execVmulVv (r : BitVec 2) (p : BitVec 1) (a : BitVec 1) (m : BitVec 1) (t : BitVec 5) (u : BitVec 5) (d : BitVec 5) (s : State) : Out :=
  vecInstr (mkCmd .mul false d t u (m == 1) (repLen r p) 0 (vWord 0x20 5 (2 * r.toNat + p.toNat) a.toNat m.toNat t.toNat u.toNat d.toNat)) s

/-- VMUL_VX (R291). Low bits of vector times scalar. -/
def execVmulVx (r : BitVec 2) (p : BitVec 1) (a : BitVec 1) (m : BitVec 1) (t : BitVec 5) (u : BitVec 5) (d : BitVec 5) (s : State) : Out :=
  vecInstr (mkCmd .mul true d t u (m == 1) (repLen r p) 0 (vWord 0x20 6 (2 * r.toNat + p.toNat) a.toNat m.toNat t.toNat u.toNat d.toNat)) s

/-- VMULH_VV (R291). High bits of element-wise product. -/
def execVmulhVv (r : BitVec 2) (p : BitVec 1) (a : BitVec 1) (m : BitVec 1) (t : BitVec 5) (u : BitVec 5) (d : BitVec 5) (s : State) : Out :=
  vecInstr (mkCmd .mulh false d t u (m == 1) (repLen r p) 0 (vWord 0x20 7 (2 * r.toNat + p.toNat) a.toNat m.toNat t.toNat u.toNat d.toNat)) s

/-- VMULH_VX (R291). High bits of vector times scalar. -/
def execVmulhVx (r : BitVec 2) (p : BitVec 1) (a : BitVec 1) (m : BitVec 1) (t : BitVec 5) (u : BitVec 5) (d : BitVec 5) (s : State) : Out :=
  vecInstr (mkCmd .mulh true d t u (m == 1) (repLen r p) 0 (vWord 0x20 8 (2 * r.toNat + p.toNat) a.toNat m.toNat t.toNat u.toNat d.toNat)) s

/-- VDIV_VV (R291). Element-wise quotient. -/
def execVdivVv (r : BitVec 2) (p : BitVec 1) (a : BitVec 1) (m : BitVec 1) (t : BitVec 5) (u : BitVec 5) (d : BitVec 5) (s : State) : Out :=
  vecInstr (mkCmd .div false d t u (m == 1) (repLen r p) 0 (vWord 0x20 9 (2 * r.toNat + p.toNat) a.toNat m.toNat t.toNat u.toNat d.toNat)) s

/-- VDIV_VX (R291). Vector divided by scalar. -/
def execVdivVx (r : BitVec 2) (p : BitVec 1) (a : BitVec 1) (m : BitVec 1) (t : BitVec 5) (u : BitVec 5) (d : BitVec 5) (s : State) : Out :=
  vecInstr (mkCmd .div true d t u (m == 1) (repLen r p) 0 (vWord 0x20 10 (2 * r.toNat + p.toNat) a.toNat m.toNat t.toNat u.toNat d.toNat)) s

/-- VREM_VV (R291). Element-wise remainder. -/
def execVremVv (r : BitVec 2) (p : BitVec 1) (a : BitVec 1) (m : BitVec 1) (t : BitVec 5) (u : BitVec 5) (d : BitVec 5) (s : State) : Out :=
  vecInstr (mkCmd .rem false d t u (m == 1) (repLen r p) 0 (vWord 0x20 11 (2 * r.toNat + p.toNat) a.toNat m.toNat t.toNat u.toNat d.toNat)) s

/-- VREM_VX (R291). Vector remainder by scalar. -/
def execVremVx (r : BitVec 2) (p : BitVec 1) (a : BitVec 1) (m : BitVec 1) (t : BitVec 5) (u : BitVec 5) (d : BitVec 5) (s : State) : Out :=
  vecInstr (mkCmd .rem true d t u (m == 1) (repLen r p) 0 (vWord 0x20 12 (2 * r.toNat + p.toNat) a.toNat m.toNat t.toNat u.toNat d.toNat)) s

/-- VMIN_VV (R291). Element-wise integer minimum. -/
def execVminVv (r : BitVec 2) (p : BitVec 1) (a : BitVec 1) (m : BitVec 1) (t : BitVec 5) (u : BitVec 5) (d : BitVec 5) (s : State) : Out :=
  vecInstr (mkCmd .min false d t u (m == 1) (repLen r p) 0 (vWord 0x20 13 (2 * r.toNat + p.toNat) a.toNat m.toNat t.toNat u.toNat d.toNat)) s

/-- VMIN_VX (R291). Minimum of vector and scalar. -/
def execVminVx (r : BitVec 2) (p : BitVec 1) (a : BitVec 1) (m : BitVec 1) (t : BitVec 5) (u : BitVec 5) (d : BitVec 5) (s : State) : Out :=
  vecInstr (mkCmd .min true d t u (m == 1) (repLen r p) 0 (vWord 0x20 14 (2 * r.toNat + p.toNat) a.toNat m.toNat t.toNat u.toNat d.toNat)) s

/-- VMAX_VV (R291). Element-wise integer maximum. -/
def execVmaxVv (r : BitVec 2) (p : BitVec 1) (a : BitVec 1) (m : BitVec 1) (t : BitVec 5) (u : BitVec 5) (d : BitVec 5) (s : State) : Out :=
  vecInstr (mkCmd .max false d t u (m == 1) (repLen r p) 0 (vWord 0x20 15 (2 * r.toNat + p.toNat) a.toNat m.toNat t.toNat u.toNat d.toNat)) s

/-- VMAX_VX (R291). Maximum of vector and scalar. -/
def execVmaxVx (r : BitVec 2) (p : BitVec 1) (a : BitVec 1) (m : BitVec 1) (t : BitVec 5) (u : BitVec 5) (d : BitVec 5) (s : State) : Out :=
  vecInstr (mkCmd .max true d t u (m == 1) (repLen r p) 0 (vWord 0x20 16 (2 * r.toNat + p.toNat) a.toNat m.toNat t.toNat u.toNat d.toNat)) s

/-- VSADD_VV (R291). Saturating element-wise add, setting SAT. -/
def execVsaddVv (r : BitVec 2) (p : BitVec 1) (a : BitVec 1) (m : BitVec 1) (t : BitVec 5) (u : BitVec 5) (d : BitVec 5) (s : State) : Out :=
  vecInstr (mkCmd .sadd false d t u (m == 1) (repLen r p) 0 (vWord 0x20 17 (2 * r.toNat + p.toNat) a.toNat m.toNat t.toNat u.toNat d.toNat)) s

/-- VSADD_VX (R291). Saturating add of vector and scalar. -/
def execVsaddVx (r : BitVec 2) (p : BitVec 1) (a : BitVec 1) (m : BitVec 1) (t : BitVec 5) (u : BitVec 5) (d : BitVec 5) (s : State) : Out :=
  vecInstr (mkCmd .sadd true d t u (m == 1) (repLen r p) 0 (vWord 0x20 18 (2 * r.toNat + p.toNat) a.toNat m.toNat t.toNat u.toNat d.toNat)) s

/-- VSSUB_VV (R291). Saturating element-wise subtract. -/
def execVssubVv (r : BitVec 2) (p : BitVec 1) (a : BitVec 1) (m : BitVec 1) (t : BitVec 5) (u : BitVec 5) (d : BitVec 5) (s : State) : Out :=
  vecInstr (mkCmd .ssub false d t u (m == 1) (repLen r p) 0 (vWord 0x20 19 (2 * r.toNat + p.toNat) a.toNat m.toNat t.toNat u.toNat d.toNat)) s

/-- VSSUB_VX (R291). Saturating vector minus scalar. -/
def execVssubVx (r : BitVec 2) (p : BitVec 1) (a : BitVec 1) (m : BitVec 1) (t : BitVec 5) (u : BitVec 5) (d : BitVec 5) (s : State) : Out :=
  vecInstr (mkCmd .ssub true d t u (m == 1) (repLen r p) 0 (vWord 0x20 20 (2 * r.toNat + p.toNat) a.toNat m.toNat t.toNat u.toNat d.toNat)) s

/-- VID_V (R291). Writes each element's index. -/
def execVidV (a : BitVec 1) (m : BitVec 1) (d : BitVec 5) (s : State) : Out :=
  vecInstr (mkCmd .id false d 0 0 (m == 1) 0 0 (vWord 0x20 21 0 a.toNat m.toNat 0 0 d.toNat)) s

/-- VPOPC_V (R291). Counts the 1 bits of each element. -/
def execVpopcV (r : BitVec 2) (p : BitVec 1) (a : BitVec 1) (m : BitVec 1) (t : BitVec 5) (d : BitVec 5) (s : State) : Out :=
  vecInstr (mkCmd .popc false d t 0 (m == 1) (repLen r p) 0 (vWord 0x20 22 (2 * r.toNat + p.toNat) a.toNat m.toNat t.toNat 0 d.toNat)) s

/-- VVIEW_V (R291). Writes the plane view of each element as a full element. -/
def execVviewV (r : BitVec 2) (p : BitVec 1) (a : BitVec 1) (m : BitVec 1) (t : BitVec 5) (d : BitVec 5) (s : State) : Out :=
  vecInstr (mkCmd .view false d t 0 (m == 1) (repLen r p) 0 (vWord 0x20 23 (2 * r.toNat + p.toNat) a.toNat m.toNat t.toNat 0 d.toNat)) s

/-- VAND_VV (R293). Element-wise AND. -/
def execVandVv (r : BitVec 2) (p : BitVec 1) (a : BitVec 1) (m : BitVec 1) (t : BitVec 5) (u : BitVec 5) (d : BitVec 5) (s : State) : Out :=
  vecInstr (mkCmd .and false d t u (m == 1) (repLen r p) 0 (vWord 0x21 0 (2 * r.toNat + p.toNat) a.toNat m.toNat t.toNat u.toNat d.toNat)) s

/-- VAND_VX (R293). AND with a scalar. -/
def execVandVx (r : BitVec 2) (p : BitVec 1) (a : BitVec 1) (m : BitVec 1) (t : BitVec 5) (u : BitVec 5) (d : BitVec 5) (s : State) : Out :=
  vecInstr (mkCmd .and true d t u (m == 1) (repLen r p) 0 (vWord 0x21 1 (2 * r.toNat + p.toNat) a.toNat m.toNat t.toNat u.toNat d.toNat)) s

/-- VOR_VV (R293). Element-wise OR. -/
def execVorVv (r : BitVec 2) (p : BitVec 1) (a : BitVec 1) (m : BitVec 1) (t : BitVec 5) (u : BitVec 5) (d : BitVec 5) (s : State) : Out :=
  vecInstr (mkCmd .or false d t u (m == 1) (repLen r p) 0 (vWord 0x21 2 (2 * r.toNat + p.toNat) a.toNat m.toNat t.toNat u.toNat d.toNat)) s

/-- VOR_VX (R293). OR with a scalar. -/
def execVorVx (r : BitVec 2) (p : BitVec 1) (a : BitVec 1) (m : BitVec 1) (t : BitVec 5) (u : BitVec 5) (d : BitVec 5) (s : State) : Out :=
  vecInstr (mkCmd .or true d t u (m == 1) (repLen r p) 0 (vWord 0x21 3 (2 * r.toNat + p.toNat) a.toNat m.toNat t.toNat u.toNat d.toNat)) s

/-- VXOR_VV (R293). Element-wise XOR. -/
def execVxorVv (r : BitVec 2) (p : BitVec 1) (a : BitVec 1) (m : BitVec 1) (t : BitVec 5) (u : BitVec 5) (d : BitVec 5) (s : State) : Out :=
  vecInstr (mkCmd .xor false d t u (m == 1) (repLen r p) 0 (vWord 0x21 4 (2 * r.toNat + p.toNat) a.toNat m.toNat t.toNat u.toNat d.toNat)) s

/-- VXOR_VX (R293). XOR with a scalar. -/
def execVxorVx (r : BitVec 2) (p : BitVec 1) (a : BitVec 1) (m : BitVec 1) (t : BitVec 5) (u : BitVec 5) (d : BitVec 5) (s : State) : Out :=
  vecInstr (mkCmd .xor true d t u (m == 1) (repLen r p) 0 (vWord 0x21 5 (2 * r.toNat + p.toNat) a.toNat m.toNat t.toNat u.toNat d.toNat)) s

/-- VANDN_VV (R293). x AND NOT y. -/
def execVandnVv (r : BitVec 2) (p : BitVec 1) (a : BitVec 1) (m : BitVec 1) (t : BitVec 5) (u : BitVec 5) (d : BitVec 5) (s : State) : Out :=
  vecInstr (mkCmd .andn false d t u (m == 1) (repLen r p) 0 (vWord 0x21 6 (2 * r.toNat + p.toNat) a.toNat m.toNat t.toNat u.toNat d.toNat)) s

/-- VNOT_V (R293). Bitwise NOT of each element. -/
def execVnotV (r : BitVec 2) (p : BitVec 1) (a : BitVec 1) (m : BitVec 1) (t : BitVec 5) (d : BitVec 5) (s : State) : Out :=
  vecInstr (mkCmd .not false d t 0 (m == 1) (repLen r p) 0 (vWord 0x21 7 (2 * r.toNat + p.toNat) a.toNat m.toNat t.toNat 0 d.toNat)) s

/-- VSHL_VV (R293). Left shift by per-element amounts. -/
def execVshlVv (r : BitVec 2) (p : BitVec 1) (a : BitVec 1) (m : BitVec 1) (t : BitVec 5) (u : BitVec 5) (d : BitVec 5) (s : State) : Out :=
  vecInstr (mkCmd .shl false d t u (m == 1) (repLen r p) 0 (vWord 0x21 8 (2 * r.toNat + p.toNat) a.toNat m.toNat t.toNat u.toNat d.toNat)) s

/-- VSHL_VX (R293). Left shift by a uniform amount. -/
def execVshlVx (r : BitVec 2) (p : BitVec 1) (a : BitVec 1) (m : BitVec 1) (t : BitVec 5) (u : BitVec 5) (d : BitVec 5) (s : State) : Out :=
  vecInstr (mkCmd .shl true d t u (m == 1) (repLen r p) 0 (vWord 0x21 9 (2 * r.toNat + p.toNat) a.toNat m.toNat t.toNat u.toNat d.toNat)) s

/-- VSHR_VV (R293). Logical right shift by per-element amounts. -/
def execVshrVv (r : BitVec 2) (p : BitVec 1) (a : BitVec 1) (m : BitVec 1) (t : BitVec 5) (u : BitVec 5) (d : BitVec 5) (s : State) : Out :=
  vecInstr (mkCmd .shr false d t u (m == 1) (repLen r p) 0 (vWord 0x21 10 (2 * r.toNat + p.toNat) a.toNat m.toNat t.toNat u.toNat d.toNat)) s

/-- VSHR_VX (R293). Logical right shift by a uniform amount. -/
def execVshrVx (r : BitVec 2) (p : BitVec 1) (a : BitVec 1) (m : BitVec 1) (t : BitVec 5) (u : BitVec 5) (d : BitVec 5) (s : State) : Out :=
  vecInstr (mkCmd .shr true d t u (m == 1) (repLen r p) 0 (vWord 0x21 11 (2 * r.toNat + p.toNat) a.toNat m.toNat t.toNat u.toNat d.toNat)) s

/-- VSRA_VV (R293). Arithmetic right shift by per-element amounts. -/
def execVsraVv (r : BitVec 2) (p : BitVec 1) (a : BitVec 1) (m : BitVec 1) (t : BitVec 5) (u : BitVec 5) (d : BitVec 5) (s : State) : Out :=
  vecInstr (mkCmd .sra false d t u (m == 1) (repLen r p) 0 (vWord 0x21 12 (2 * r.toNat + p.toNat) a.toNat m.toNat t.toNat u.toNat d.toNat)) s

/-- VSRA_VX (R293). Arithmetic right shift by a uniform amount. -/
def execVsraVx (r : BitVec 2) (p : BitVec 1) (a : BitVec 1) (m : BitVec 1) (t : BitVec 5) (u : BitVec 5) (d : BitVec 5) (s : State) : Out :=
  vecInstr (mkCmd .sra true d t u (m == 1) (repLen r p) 0 (vWord 0x21 13 (2 * r.toNat + p.toNat) a.toNat m.toNat t.toNat u.toNat d.toNat)) s

/-- VMSEQ_VV (R294). Mask of elements where x = y. -/
def execVmseqVv (r : BitVec 2) (p : BitVec 1) (a : BitVec 1) (m : BitVec 1) (t : BitVec 5) (u : BitVec 5) (d : BitVec 5) (s : State) : Out :=
  vecInstr (mkCmd .seq false d t u (m == 1) (repLen r p) 0 (vWord 0x22 0 (2 * r.toNat + p.toNat) a.toNat m.toNat t.toNat u.toNat d.toNat)) s

/-- VMSEQ_VX (R294). Mask of elements equal to a scalar. -/
def execVmseqVx (r : BitVec 2) (p : BitVec 1) (a : BitVec 1) (m : BitVec 1) (t : BitVec 5) (u : BitVec 5) (d : BitVec 5) (s : State) : Out :=
  vecInstr (mkCmd .seq true d t u (m == 1) (repLen r p) 0 (vWord 0x22 1 (2 * r.toNat + p.toNat) a.toNat m.toNat t.toNat u.toNat d.toNat)) s

/-- VMSNE_VV (R294). Mask of elements where x ≠ y. -/
def execVmsneVv (r : BitVec 2) (p : BitVec 1) (a : BitVec 1) (m : BitVec 1) (t : BitVec 5) (u : BitVec 5) (d : BitVec 5) (s : State) : Out :=
  vecInstr (mkCmd .sne false d t u (m == 1) (repLen r p) 0 (vWord 0x22 2 (2 * r.toNat + p.toNat) a.toNat m.toNat t.toNat u.toNat d.toNat)) s

/-- VMSNE_VX (R294). Mask of elements unequal to a scalar. -/
def execVmsneVx (r : BitVec 2) (p : BitVec 1) (a : BitVec 1) (m : BitVec 1) (t : BitVec 5) (u : BitVec 5) (d : BitVec 5) (s : State) : Out :=
  vecInstr (mkCmd .sne true d t u (m == 1) (repLen r p) 0 (vWord 0x22 3 (2 * r.toNat + p.toNat) a.toNat m.toNat t.toNat u.toNat d.toNat)) s

/-- VMSLT_VV (R294). Mask of elements where x < y. -/
def execVmsltVv (r : BitVec 2) (p : BitVec 1) (a : BitVec 1) (m : BitVec 1) (t : BitVec 5) (u : BitVec 5) (d : BitVec 5) (s : State) : Out :=
  vecInstr (mkCmd .slt false d t u (m == 1) (repLen r p) 0 (vWord 0x22 4 (2 * r.toNat + p.toNat) a.toNat m.toNat t.toNat u.toNat d.toNat)) s

/-- VMSLT_VX (R294). Mask of elements below a scalar. -/
def execVmsltVx (r : BitVec 2) (p : BitVec 1) (a : BitVec 1) (m : BitVec 1) (t : BitVec 5) (u : BitVec 5) (d : BitVec 5) (s : State) : Out :=
  vecInstr (mkCmd .slt true d t u (m == 1) (repLen r p) 0 (vWord 0x22 5 (2 * r.toNat + p.toNat) a.toNat m.toNat t.toNat u.toNat d.toNat)) s

/-- VMSLE_VV (R294). Mask of elements where x ≤ y. -/
def execVmsleVv (r : BitVec 2) (p : BitVec 1) (a : BitVec 1) (m : BitVec 1) (t : BitVec 5) (u : BitVec 5) (d : BitVec 5) (s : State) : Out :=
  vecInstr (mkCmd .sle false d t u (m == 1) (repLen r p) 0 (vWord 0x22 6 (2 * r.toNat + p.toNat) a.toNat m.toNat t.toNat u.toNat d.toNat)) s

/-- VMSLE_VX (R294). Mask of elements at most a scalar. -/
def execVmsleVx (r : BitVec 2) (p : BitVec 1) (a : BitVec 1) (m : BitVec 1) (t : BitVec 5) (u : BitVec 5) (d : BitVec 5) (s : State) : Out :=
  vecInstr (mkCmd .sle true d t u (m == 1) (repLen r p) 0 (vWord 0x22 7 (2 * r.toNat + p.toNat) a.toNat m.toNat t.toNat u.toNat d.toNat)) s

/-- VMSGT_VX (R294). Mask of elements above a scalar. -/
def execVmsgtVx (r : BitVec 2) (p : BitVec 1) (a : BitVec 1) (m : BitVec 1) (t : BitVec 5) (u : BitVec 5) (d : BitVec 5) (s : State) : Out :=
  vecInstr (mkCmd .sgt true d t u (m == 1) (repLen r p) 0 (vWord 0x22 8 (2 * r.toNat + p.toNat) a.toNat m.toNat t.toNat u.toNat d.toNat)) s

/-- VMSGE_VX (R294). Mask of elements at least a scalar. -/
def execVmsgeVx (r : BitVec 2) (p : BitVec 1) (a : BitVec 1) (m : BitVec 1) (t : BitVec 5) (u : BitVec 5) (d : BitVec 5) (s : State) : Out :=
  vecInstr (mkCmd .sge true d t u (m == 1) (repLen r p) 0 (vWord 0x22 9 (2 * r.toNat + p.toNat) a.toNat m.toNat t.toNat u.toNat d.toNat)) s

/-- VMAND_MM (R294). AND of two masks. -/
def execVmandMm (a : BitVec 1) (m : BitVec 1) (t : BitVec 5) (u : BitVec 5) (d : BitVec 5) (s : State) : Out :=
  vecInstr (mkCmd .mand false d t u (m == 1) 0 0 (vWord 0x22 10 0 a.toNat m.toNat t.toNat u.toNat d.toNat)) s

/-- VMOR_MM (R294). OR of two masks. -/
def execVmorMm (a : BitVec 1) (m : BitVec 1) (t : BitVec 5) (u : BitVec 5) (d : BitVec 5) (s : State) : Out :=
  vecInstr (mkCmd .mor false d t u (m == 1) 0 0 (vWord 0x22 11 0 a.toNat m.toNat t.toNat u.toNat d.toNat)) s

/-- VMXOR_MM (R294). XOR of two masks. -/
def execVmxorMm (a : BitVec 1) (m : BitVec 1) (t : BitVec 5) (u : BitVec 5) (d : BitVec 5) (s : State) : Out :=
  vecInstr (mkCmd .mxor false d t u (m == 1) 0 0 (vWord 0x22 12 0 a.toNat m.toNat t.toNat u.toNat d.toNat)) s

/-- VMANDN_MM (R294). Mask vs2 AND NOT vs1. -/
def execVmandnMm (a : BitVec 1) (m : BitVec 1) (t : BitVec 5) (u : BitVec 5) (d : BitVec 5) (s : State) : Out :=
  vecInstr (mkCmd .mandn false d t u (m == 1) 0 0 (vWord 0x22 13 0 a.toNat m.toNat t.toNat u.toNat d.toNat)) s

/-- VMERGE_VV (R295). Selects between two vectors by the v0 mask. -/
def execVmergeVv (a : BitVec 1) (t : BitVec 5) (u : BitVec 5) (d : BitVec 5) (s : State) : Out :=
  vecInstr (mkCmd .merge false d t u false 0 0 (vWord 0x23 0 0 a.toNat 0 t.toNat u.toNat d.toNat)) s

/-- VMERGE_VX (R295). Selects between a vector and a scalar by the v0 mask. -/
def execVmergeVx (a : BitVec 1) (t : BitVec 5) (u : BitVec 5) (d : BitVec 5) (s : State) : Out :=
  vecInstr (mkCmd .merge true d t u false 0 0 (vWord 0x23 1 0 a.toNat 0 t.toNat u.toNat d.toNat)) s

/-- VMV_VV (R295). Copies active elements of vs2 into vd. -/
def execVmvVv (r : BitVec 2) (p : BitVec 1) (a : BitVec 1) (m : BitVec 1) (t : BitVec 5) (d : BitVec 5) (s : State) : Out :=
  vecInstr (mkCmd .mv false d t 0 (m == 1) (repLen r p) 0 (vWord 0x23 2 (2 * r.toNat + p.toNat) a.toNat m.toNat t.toNat 0 d.toNat)) s

/-- VMV_VX (R295). Writes a scalar into active elements. -/
def execVmvVx (a : BitVec 1) (m : BitVec 1) (u : BitVec 5) (d : BitVec 5) (s : State) : Out :=
  vecInstr (mkCmd .mv true d 0 u (m == 1) 0 0 (vWord 0x23 3 0 a.toNat m.toNat 0 u.toNat d.toNat)) s

/-- VMV_XS (R296). Moves element 0 of vs2 into gd. -/
def execVmvXs (t : BitVec 5) (d : BitVec 5) (s : State) : Out :=
  vecInstr (mkCmd .mvxs true d t 0 false 0 0 (vWord 0x23 4 0 0 0 t.toNat 0 d.toNat)) s

/-- VRNG_V (R302). Advances each lane's random state and writes its top bits. -/
def execVrngV (a : BitVec 1) (m : BitVec 1) (d : BitVec 5) (s : State) : Out :=
  vecInstr (mkCmd .rng false d 0 0 (m == 1) 0 0 (vWord 0x27 0 0 a.toNat m.toNat 0 0 d.toNat)) s

/-- VSEED_VX (R302). Seeds each active lane's random state from a scalar. -/
def execVseedVx (a : BitVec 1) (m : BitVec 1) (u : BitVec 5) (s : State) : Out :=
  vecInstr (mkCmd .seed true 0 0 u (m == 1) 0 0 (vWord 0x27 1 0 a.toNat m.toNat 0 u.toNat 0)) s

end Sys2Proof.Machine
end

