-- ==== Sys2Proof/Machine/VecFloat.lean ====
section
/-!
DEFINITION. The floating-point element instructions, compares and conversions (R297 to R301).
-/

namespace Sys2Proof.Machine

/-- VFADD_VV (R298). Floating-point element-wise add. -/
def execVfaddVv (r : BitVec 2) (p : BitVec 1) (a : BitVec 1) (m : BitVec 1) (t : BitVec 5) (u : BitVec 5) (d : BitVec 5) (s : State) : Out :=
  vecInstr (mkCmd .fadd false d t u (m == 1) (repLen r p) 0 (vWord 0x24 0 (2 * r.toNat + p.toNat) a.toNat m.toNat t.toNat u.toNat d.toNat)) s

/-- VFADD_VX (R298). Floating-point add of a scalar. -/
def execVfaddVx (r : BitVec 2) (p : BitVec 1) (a : BitVec 1) (m : BitVec 1) (t : BitVec 5) (u : BitVec 5) (d : BitVec 5) (s : State) : Out :=
  vecInstr (mkCmd .fadd true d t u (m == 1) (repLen r p) 0 (vWord 0x24 1 (2 * r.toNat + p.toNat) a.toNat m.toNat t.toNat u.toNat d.toNat)) s

/-- VFSUB_VV (R298). Floating-point subtract. -/
def execVfsubVv (r : BitVec 2) (p : BitVec 1) (a : BitVec 1) (m : BitVec 1) (t : BitVec 5) (u : BitVec 5) (d : BitVec 5) (s : State) : Out :=
  vecInstr (mkCmd .fsub false d t u (m == 1) (repLen r p) 0 (vWord 0x24 2 (2 * r.toNat + p.toNat) a.toNat m.toNat t.toNat u.toNat d.toNat)) s

/-- VFSUB_VX (R298). Floating-point vector minus scalar. -/
def execVfsubVx (r : BitVec 2) (p : BitVec 1) (a : BitVec 1) (m : BitVec 1) (t : BitVec 5) (u : BitVec 5) (d : BitVec 5) (s : State) : Out :=
  vecInstr (mkCmd .fsub true d t u (m == 1) (repLen r p) 0 (vWord 0x24 3 (2 * r.toNat + p.toNat) a.toNat m.toNat t.toNat u.toNat d.toNat)) s

/-- VFRSUB_VX (R298). Floating-point scalar minus vector. -/
def execVfrsubVx (r : BitVec 2) (p : BitVec 1) (a : BitVec 1) (m : BitVec 1) (t : BitVec 5) (u : BitVec 5) (d : BitVec 5) (s : State) : Out :=
  vecInstr (mkCmd .frsub true d t u (m == 1) (repLen r p) 0 (vWord 0x24 4 (2 * r.toNat + p.toNat) a.toNat m.toNat t.toNat u.toNat d.toNat)) s

/-- VFMUL_VV (R298). Floating-point multiply. -/
def execVfmulVv (r : BitVec 2) (p : BitVec 1) (a : BitVec 1) (m : BitVec 1) (t : BitVec 5) (u : BitVec 5) (d : BitVec 5) (s : State) : Out :=
  vecInstr (mkCmd .fmul false d t u (m == 1) (repLen r p) 0 (vWord 0x24 5 (2 * r.toNat + p.toNat) a.toNat m.toNat t.toNat u.toNat d.toNat)) s

/-- VFMUL_VX (R298). Floating-point multiply by a scalar. -/
def execVfmulVx (r : BitVec 2) (p : BitVec 1) (a : BitVec 1) (m : BitVec 1) (t : BitVec 5) (u : BitVec 5) (d : BitVec 5) (s : State) : Out :=
  vecInstr (mkCmd .fmul true d t u (m == 1) (repLen r p) 0 (vWord 0x24 6 (2 * r.toNat + p.toNat) a.toNat m.toNat t.toNat u.toNat d.toNat)) s

/-- VFDIV_VV (R298). Floating-point divide. -/
def execVfdivVv (r : BitVec 2) (p : BitVec 1) (a : BitVec 1) (m : BitVec 1) (t : BitVec 5) (u : BitVec 5) (d : BitVec 5) (s : State) : Out :=
  vecInstr (mkCmd .fdiv false d t u (m == 1) (repLen r p) 0 (vWord 0x24 7 (2 * r.toNat + p.toNat) a.toNat m.toNat t.toNat u.toNat d.toNat)) s

/-- VFDIV_VX (R298). Floating-point divide by a scalar. -/
def execVfdivVx (r : BitVec 2) (p : BitVec 1) (a : BitVec 1) (m : BitVec 1) (t : BitVec 5) (u : BitVec 5) (d : BitVec 5) (s : State) : Out :=
  vecInstr (mkCmd .fdiv true d t u (m == 1) (repLen r p) 0 (vWord 0x24 8 (2 * r.toNat + p.toNat) a.toNat m.toNat t.toNat u.toNat d.toNat)) s

/-- VFRDIV_VX (R298). Floating-point scalar divided by vector. -/
def execVfrdivVx (r : BitVec 2) (p : BitVec 1) (a : BitVec 1) (m : BitVec 1) (t : BitVec 5) (u : BitVec 5) (d : BitVec 5) (s : State) : Out :=
  vecInstr (mkCmd .frdiv true d t u (m == 1) (repLen r p) 0 (vWord 0x24 9 (2 * r.toNat + p.toNat) a.toNat m.toNat t.toNat u.toNat d.toNat)) s

/-- VFSQRT_V (R298). Floating-point square root. -/
def execVfsqrtV (r : BitVec 2) (p : BitVec 1) (a : BitVec 1) (m : BitVec 1) (t : BitVec 5) (d : BitVec 5) (s : State) : Out :=
  vecInstr (mkCmd .fsqrt false d t 0 (m == 1) (repLen r p) 0 (vWord 0x24 10 (2 * r.toNat + p.toNat) a.toNat m.toNat t.toNat 0 d.toNat)) s

/-- VFMIN_VV (R298). Floating-point minimum. -/
def execVfminVv (r : BitVec 2) (p : BitVec 1) (a : BitVec 1) (m : BitVec 1) (t : BitVec 5) (u : BitVec 5) (d : BitVec 5) (s : State) : Out :=
  vecInstr (mkCmd .fmin false d t u (m == 1) (repLen r p) 0 (vWord 0x24 11 (2 * r.toNat + p.toNat) a.toNat m.toNat t.toNat u.toNat d.toNat)) s

/-- VFMIN_VX (R298). Floating-point minimum with a scalar. -/
def execVfminVx (r : BitVec 2) (p : BitVec 1) (a : BitVec 1) (m : BitVec 1) (t : BitVec 5) (u : BitVec 5) (d : BitVec 5) (s : State) : Out :=
  vecInstr (mkCmd .fmin true d t u (m == 1) (repLen r p) 0 (vWord 0x24 12 (2 * r.toNat + p.toNat) a.toNat m.toNat t.toNat u.toNat d.toNat)) s

/-- VFMAX_VV (R298). Floating-point maximum. -/
def execVfmaxVv (r : BitVec 2) (p : BitVec 1) (a : BitVec 1) (m : BitVec 1) (t : BitVec 5) (u : BitVec 5) (d : BitVec 5) (s : State) : Out :=
  vecInstr (mkCmd .fmax false d t u (m == 1) (repLen r p) 0 (vWord 0x24 13 (2 * r.toNat + p.toNat) a.toNat m.toNat t.toNat u.toNat d.toNat)) s

/-- VFMAX_VX (R298). Floating-point maximum with a scalar. -/
def execVfmaxVx (r : BitVec 2) (p : BitVec 1) (a : BitVec 1) (m : BitVec 1) (t : BitVec 5) (u : BitVec 5) (d : BitVec 5) (s : State) : Out :=
  vecInstr (mkCmd .fmax true d t u (m == 1) (repLen r p) 0 (vWord 0x24 14 (2 * r.toNat + p.toNat) a.toNat m.toNat t.toNat u.toNat d.toNat)) s

/-- VFSGN_VV (R298). Magnitude of x with the sign of y. -/
def execVfsgnVv (r : BitVec 2) (p : BitVec 1) (a : BitVec 1) (m : BitVec 1) (t : BitVec 5) (u : BitVec 5) (d : BitVec 5) (s : State) : Out :=
  vecInstr (mkCmd .fsgn false d t u (m == 1) (repLen r p) 0 (vWord 0x24 15 (2 * r.toNat + p.toNat) a.toNat m.toNat t.toNat u.toNat d.toNat)) s

/-- VFSGNN_VV (R298). Magnitude of x with the inverted sign of y. -/
def execVfsgnnVv (r : BitVec 2) (p : BitVec 1) (a : BitVec 1) (m : BitVec 1) (t : BitVec 5) (u : BitVec 5) (d : BitVec 5) (s : State) : Out :=
  vecInstr (mkCmd .fsgnn false d t u (m == 1) (repLen r p) 0 (vWord 0x24 16 (2 * r.toNat + p.toNat) a.toNat m.toNat t.toNat u.toNat d.toNat)) s

/-- VFSGNX_VV (R298). Magnitude of x with the XOR of both signs. -/
def execVfsgnxVv (r : BitVec 2) (p : BitVec 1) (a : BitVec 1) (m : BitVec 1) (t : BitVec 5) (u : BitVec 5) (d : BitVec 5) (s : State) : Out :=
  vecInstr (mkCmd .fsgnx false d t u (m == 1) (repLen r p) 0 (vWord 0x24 17 (2 * r.toNat + p.toNat) a.toNat m.toNat t.toNat u.toNat d.toNat)) s

/-- VFCLASS_V (R298). Writes the class bit of each floating-point element. -/
def execVfclassV (r : BitVec 2) (p : BitVec 1) (a : BitVec 1) (m : BitVec 1) (t : BitVec 5) (d : BitVec 5) (s : State) : Out :=
  vecInstr (mkCmd .fclass false d t 0 (m == 1) (repLen r p) 0 (vWord 0x24 18 (2 * r.toNat + p.toNat) a.toNat m.toNat t.toNat 0 d.toNat)) s

/-- VMFEQ_VV (R299). Mask of floating-point x = y. -/
def execVmfeqVv (r : BitVec 2) (p : BitVec 1) (a : BitVec 1) (m : BitVec 1) (t : BitVec 5) (u : BitVec 5) (d : BitVec 5) (s : State) : Out :=
  vecInstr (mkCmd .feq false d t u (m == 1) (repLen r p) 0 (vWord 0x25 0 (2 * r.toNat + p.toNat) a.toNat m.toNat t.toNat u.toNat d.toNat)) s

/-- VMFEQ_VX (R299). Mask of floating-point equality with a scalar. -/
def execVmfeqVx (r : BitVec 2) (p : BitVec 1) (a : BitVec 1) (m : BitVec 1) (t : BitVec 5) (u : BitVec 5) (d : BitVec 5) (s : State) : Out :=
  vecInstr (mkCmd .feq true d t u (m == 1) (repLen r p) 0 (vWord 0x25 1 (2 * r.toNat + p.toNat) a.toNat m.toNat t.toNat u.toNat d.toNat)) s

/-- VMFNE_VV (R299). Mask of floating-point x ≠ y. -/
def execVmfneVv (r : BitVec 2) (p : BitVec 1) (a : BitVec 1) (m : BitVec 1) (t : BitVec 5) (u : BitVec 5) (d : BitVec 5) (s : State) : Out :=
  vecInstr (mkCmd .fne false d t u (m == 1) (repLen r p) 0 (vWord 0x25 2 (2 * r.toNat + p.toNat) a.toNat m.toNat t.toNat u.toNat d.toNat)) s

/-- VMFNE_VX (R299). Mask of floating-point inequality with a scalar. -/
def execVmfneVx (r : BitVec 2) (p : BitVec 1) (a : BitVec 1) (m : BitVec 1) (t : BitVec 5) (u : BitVec 5) (d : BitVec 5) (s : State) : Out :=
  vecInstr (mkCmd .fne true d t u (m == 1) (repLen r p) 0 (vWord 0x25 3 (2 * r.toNat + p.toNat) a.toNat m.toNat t.toNat u.toNat d.toNat)) s

/-- VMFLT_VV (R299). Mask of floating-point x < y. -/
def execVmfltVv (r : BitVec 2) (p : BitVec 1) (a : BitVec 1) (m : BitVec 1) (t : BitVec 5) (u : BitVec 5) (d : BitVec 5) (s : State) : Out :=
  vecInstr (mkCmd .flt false d t u (m == 1) (repLen r p) 0 (vWord 0x25 4 (2 * r.toNat + p.toNat) a.toNat m.toNat t.toNat u.toNat d.toNat)) s

/-- VMFLT_VX (R299). Mask of floating-point elements below a scalar. -/
def execVmfltVx (r : BitVec 2) (p : BitVec 1) (a : BitVec 1) (m : BitVec 1) (t : BitVec 5) (u : BitVec 5) (d : BitVec 5) (s : State) : Out :=
  vecInstr (mkCmd .flt true d t u (m == 1) (repLen r p) 0 (vWord 0x25 5 (2 * r.toNat + p.toNat) a.toNat m.toNat t.toNat u.toNat d.toNat)) s

/-- VMFLE_VV (R299). Mask of floating-point x ≤ y. -/
def execVmfleVv (r : BitVec 2) (p : BitVec 1) (a : BitVec 1) (m : BitVec 1) (t : BitVec 5) (u : BitVec 5) (d : BitVec 5) (s : State) : Out :=
  vecInstr (mkCmd .fle false d t u (m == 1) (repLen r p) 0 (vWord 0x25 6 (2 * r.toNat + p.toNat) a.toNat m.toNat t.toNat u.toNat d.toNat)) s

/-- VMFLE_VX (R299). Mask of floating-point elements at most a scalar. -/
def execVmfleVx (r : BitVec 2) (p : BitVec 1) (a : BitVec 1) (m : BitVec 1) (t : BitVec 5) (u : BitVec 5) (d : BitVec 5) (s : State) : Out :=
  vecInstr (mkCmd .fle true d t u (m == 1) (repLen r p) 0 (vWord 0x25 7 (2 * r.toNat + p.toNat) a.toNat m.toNat t.toNat u.toNat d.toNat)) s

/-- VMFGT_VX (R299). Mask of floating-point elements above a scalar. -/
def execVmfgtVx (r : BitVec 2) (p : BitVec 1) (a : BitVec 1) (m : BitVec 1) (t : BitVec 5) (u : BitVec 5) (d : BitVec 5) (s : State) : Out :=
  vecInstr (mkCmd .fgt true d t u (m == 1) (repLen r p) 0 (vWord 0x25 8 (2 * r.toNat + p.toNat) a.toNat m.toNat t.toNat u.toNat d.toNat)) s

/-- VMFGE_VX (R299). Mask of floating-point elements at least a scalar. -/
def execVmfgeVx (r : BitVec 2) (p : BitVec 1) (a : BitVec 1) (m : BitVec 1) (t : BitVec 5) (u : BitVec 5) (d : BitVec 5) (s : State) : Out :=
  vecInstr (mkCmd .fge true d t u (m == 1) (repLen r p) 0 (vWord 0x25 9 (2 * r.toNat + p.toNat) a.toNat m.toNat t.toNat u.toNat d.toNat)) s

/-- VWCVT_V (R300). Widens integers to 2·SEW by sign or zero extension. -/
def execVwcvtV (r : BitVec 2) (p : BitVec 1) (a : BitVec 1) (m : BitVec 1) (t : BitVec 5) (d : BitVec 5) (s : State) : Out :=
  vecInstr (mkCmd .wcvt false d t 0 (m == 1) (repLen r p) 0 (vWord 0x26 0 (2 * r.toNat + p.toNat) a.toNat m.toNat t.toNat 0 d.toNat)) s

/-- VNCVT_V (R300). Narrows integers by keeping the low SEW bits. -/
def execVncvtV (r : BitVec 2) (p : BitVec 1) (a : BitVec 1) (m : BitVec 1) (t : BitVec 5) (d : BitVec 5) (s : State) : Out :=
  vecInstr (mkCmd .ncvt false d t 0 (m == 1) (repLen r p) 0 (vWord 0x26 1 (2 * r.toNat + p.toNat) a.toNat m.toNat t.toNat 0 d.toNat)) s

/-- VNCLIP_V (R300). Narrows integers with saturation. -/
def execVnclipV (r : BitVec 2) (p : BitVec 1) (a : BitVec 1) (m : BitVec 1) (t : BitVec 5) (d : BitVec 5) (s : State) : Out :=
  vecInstr (mkCmd .nclip false d t 0 (m == 1) (repLen r p) 0 (vWord 0x26 2 (2 * r.toNat + p.toNat) a.toNat m.toNat t.toNat 0 d.toNat)) s

/-- VFWCVT_V (R300). Widens floating-point elements exactly. -/
def execVfwcvtV (r : BitVec 2) (p : BitVec 1) (a : BitVec 1) (m : BitVec 1) (t : BitVec 5) (d : BitVec 5) (s : State) : Out :=
  vecInstr (mkCmd .fwcvt false d t 0 (m == 1) (repLen r p) 0 (vWord 0x26 3 (2 * r.toNat + p.toNat) a.toNat m.toNat t.toNat 0 d.toNat)) s

/-- VFNCVT_V (R300). Narrows floating-point elements with one rounding. -/
def execVfncvtV (r : BitVec 2) (p : BitVec 1) (a : BitVec 1) (m : BitVec 1) (t : BitVec 5) (d : BitVec 5) (s : State) : Out :=
  vecInstr (mkCmd .fncvt false d t 0 (m == 1) (repLen r p) 0 (vWord 0x26 4 (2 * r.toNat + p.toNat) a.toNat m.toNat t.toNat 0 d.toNat)) s

/-- VFTOI_V (R300). Converts floating point to signed integers. -/
def execVftoiV (r : BitVec 2) (p : BitVec 1) (a : BitVec 1) (m : BitVec 1) (t : BitVec 5) (d : BitVec 5) (s : State) : Out :=
  vecInstr (mkCmd .ftoi false d t 0 (m == 1) (repLen r p) 0 (vWord 0x26 5 (2 * r.toNat + p.toNat) a.toNat m.toNat t.toNat 0 d.toNat)) s

/-- VFTOIN_V (R300). Converts floating point to unsigned integers. -/
def execVftoinV (r : BitVec 2) (p : BitVec 1) (a : BitVec 1) (m : BitVec 1) (t : BitVec 5) (d : BitVec 5) (s : State) : Out :=
  vecInstr (mkCmd .ftoin false d t 0 (m == 1) (repLen r p) 0 (vWord 0x26 6 (2 * r.toNat + p.toNat) a.toNat m.toNat t.toNat 0 d.toNat)) s

/-- VITOF_V (R300). Converts signed integers to floating point. -/
def execVitofV (r : BitVec 2) (p : BitVec 1) (a : BitVec 1) (m : BitVec 1) (t : BitVec 5) (d : BitVec 5) (s : State) : Out :=
  vecInstr (mkCmd .itof false d t 0 (m == 1) (repLen r p) 0 (vWord 0x26 7 (2 * r.toNat + p.toNat) a.toNat m.toNat t.toNat 0 d.toNat)) s

/-- VINTOF_V (R300). Converts unsigned integers to floating point. -/
def execVintofV (r : BitVec 2) (p : BitVec 1) (a : BitVec 1) (m : BitVec 1) (t : BitVec 5) (d : BitVec 5) (s : State) : Out :=
  vecInstr (mkCmd .intof false d t 0 (m == 1) (repLen r p) 0 (vWord 0x26 8 (2 * r.toNat + p.toNat) a.toNat m.toNat t.toNat 0 d.toNat)) s

/-- VFCVT_F4 (R301). Converts f32 to e2m1 with a single rounding. -/
def execVfcvtF4 (r : BitVec 2) (p : BitVec 1) (a : BitVec 1) (m : BitVec 1) (t : BitVec 5) (d : BitVec 5) (s : State) : Out :=
  vecInstr (mkCmd .cvtF4 false d t 0 (m == 1) (repLen r p) 0 (vWord 0x26 9 (2 * r.toNat + p.toNat) a.toNat m.toNat t.toNat 0 d.toNat)) s

end Sys2Proof.Machine
end

