-- ==== Sys2Proof/Machine/VecReduce.lean ====
section
/-!
DEFINITION. The reductions, the tree transfers and the segmented reductions (R307 to R311).
-/

namespace Sys2Proof.Machine

/-- VREDSUM_XS (R308). Integer sum reduction into a scalar. -/
def execVredsumXs (a : BitVec 1) (m : BitVec 1) (t : BitVec 5) (u : BitVec 5) (d : BitVec 5) (s : State) : Out :=
  vecInstr (mkCmd .redsum true d t u (m == 1) 0 0 (vWord 0x29 0 0 a.toNat m.toNat t.toNat u.toNat d.toNat)) s

/-- VREDMIN_XS (R308). Integer minimum reduction. -/
def execVredminXs (a : BitVec 1) (m : BitVec 1) (t : BitVec 5) (u : BitVec 5) (d : BitVec 5) (s : State) : Out :=
  vecInstr (mkCmd .redmin true d t u (m == 1) 0 0 (vWord 0x29 1 0 a.toNat m.toNat t.toNat u.toNat d.toNat)) s

/-- VREDMAX_XS (R308). Integer maximum reduction. -/
def execVredmaxXs (a : BitVec 1) (m : BitVec 1) (t : BitVec 5) (u : BitVec 5) (d : BitVec 5) (s : State) : Out :=
  vecInstr (mkCmd .redmax true d t u (m == 1) 0 0 (vWord 0x29 2 0 a.toNat m.toNat t.toNat u.toNat d.toNat)) s

/-- VREDAND_XS (R308). Bitwise AND reduction. -/
def execVredandXs (a : BitVec 1) (m : BitVec 1) (t : BitVec 5) (u : BitVec 5) (d : BitVec 5) (s : State) : Out :=
  vecInstr (mkCmd .redand true d t u (m == 1) 0 0 (vWord 0x29 3 0 a.toNat m.toNat t.toNat u.toNat d.toNat)) s

/-- VREDOR_XS (R308). Bitwise OR reduction. -/
def execVredorXs (a : BitVec 1) (m : BitVec 1) (t : BitVec 5) (u : BitVec 5) (d : BitVec 5) (s : State) : Out :=
  vecInstr (mkCmd .redor true d t u (m == 1) 0 0 (vWord 0x29 4 0 a.toNat m.toNat t.toNat u.toNat d.toNat)) s

/-- VREDXOR_XS (R308). Bitwise XOR reduction. -/
def execVredxorXs (a : BitVec 1) (m : BitVec 1) (t : BitVec 5) (u : BitVec 5) (d : BitVec 5) (s : State) : Out :=
  vecInstr (mkCmd .redxor true d t u (m == 1) 0 0 (vWord 0x29 5 0 a.toNat m.toNat t.toNat u.toNat d.toNat)) s

/-- VFREDSUM_XS (R308). Floating-point sum reduction in the fixed tree. -/
def execVfredsumXs (a : BitVec 1) (m : BitVec 1) (t : BitVec 5) (u : BitVec 5) (d : BitVec 5) (s : State) : Out :=
  vecInstr (mkCmd .fredsum true d t u (m == 1) 0 0 (vWord 0x29 6 0 a.toNat m.toNat t.toNat u.toNat d.toNat)) s

/-- VFREDMIN_XS (R308). Floating-point minimum reduction. -/
def execVfredminXs (a : BitVec 1) (m : BitVec 1) (t : BitVec 5) (u : BitVec 5) (d : BitVec 5) (s : State) : Out :=
  vecInstr (mkCmd .fredmin true d t u (m == 1) 0 0 (vWord 0x29 7 0 a.toNat m.toNat t.toNat u.toNat d.toNat)) s

/-- VFREDMAX_XS (R308). Floating-point maximum reduction. -/
def execVfredmaxXs (a : BitVec 1) (m : BitVec 1) (t : BitVec 5) (u : BitVec 5) (d : BitVec 5) (s : State) : Out :=
  vecInstr (mkCmd .fredmax true d t u (m == 1) 0 0 (vWord 0x29 8 0 a.toNat m.toNat t.toNat u.toNat d.toNat)) s

/-- VREDMINI_XS (R309). Minimum with the lowest index of its occurrence. -/
def execVredminiXs (a : BitVec 1) (m : BitVec 1) (t : BitVec 5) (u : BitVec 5) (d : BitVec 5) (s : State) : Out :=
  vecInstr (mkCmd .redmini true d t u (m == 1) 0 0 (vWord 0x29 9 0 a.toNat m.toNat t.toNat u.toNat d.toNat)) s

/-- VREDMAXI_XS (R309). Maximum with the lowest index of its occurrence. -/
def execVredmaxiXs (a : BitVec 1) (m : BitVec 1) (t : BitVec 5) (u : BitVec 5) (d : BitVec 5) (s : State) : Out :=
  vecInstr (mkCmd .redmaxi true d t u (m == 1) 0 0 (vWord 0x29 10 0 a.toNat m.toNat t.toNat u.toNat d.toNat)) s

/-- VTREE (R311). Adds the integer row sum into acc[i][0] with saturation. -/
def execVtree (a : BitVec 1) (m : BitVec 1) (t : BitVec 5) (h : BitVec 1) (n : BitVec 5) (s : State) : Out :=
  vecInstr (mkCmd .tree false n t (h.zeroExtend 5) (m == 1) 0 0 (vWord 0x29 11 0 a.toNat m.toNat t.toNat h.toNat n.toNat)) s

/-- VFTREE (R311). Adds the floating-point row sum into acc[i][0]. -/
def execVftree (a : BitVec 1) (m : BitVec 1) (t : BitVec 5) (h : BitVec 1) (n : BitVec 5) (s : State) : Out :=
  vecInstr (mkCmd .ftree false n t (h.zeroExtend 5) (m == 1) 0 0 (vWord 0x29 11 0 a.toNat m.toNat t.toNat (h.toNat + 2) n.toNat)) s

/-- VTREESEG (R311). Adds integer segment sums into a row of acc. -/
def execVtreeseg (c : BitVec 3) (a : BitVec 1) (m : BitVec 1) (t : BitVec 5) (h : BitVec 1) (n : BitVec 5) (s : State) : Out :=
  vecInstr (mkCmd .treeseg false n t (h.zeroExtend 5) (m == 1) 0 (2 ^ (c.toNat + 1)) (vWord 0x29 12 c.toNat a.toNat m.toNat t.toNat h.toNat n.toNat)) s

/-- VFTREESEG (R311). Adds floating-point segment sums into a row of acc. -/
def execVftreeseg (c : BitVec 3) (a : BitVec 1) (m : BitVec 1) (t : BitVec 5) (h : BitVec 1) (n : BitVec 5) (s : State) : Out :=
  vecInstr (mkCmd .ftreeseg false n t (h.zeroExtend 5) (m == 1) 0 (2 ^ (c.toNat + 1)) (vWord 0x29 12 c.toNat a.toNat m.toNat t.toNat (h.toNat + 2) n.toNat)) s

/-- VSEGSUM_V (R310). Integer sum per segment of S elements. -/
def execVsegsumV (c : BitVec 3) (a : BitVec 1) (m : BitVec 1) (t : BitVec 5) (d : BitVec 5) (s : State) : Out :=
  vecInstr (mkCmd .segsum false d t 0 (m == 1) 0 (2 ^ (c.toNat + 1)) (vWord 0x29 13 c.toNat a.toNat m.toNat t.toNat 0 d.toNat)) s

/-- VSEGMIN_V (R310). Integer minimum per segment. -/
def execVsegminV (c : BitVec 3) (a : BitVec 1) (m : BitVec 1) (t : BitVec 5) (d : BitVec 5) (s : State) : Out :=
  vecInstr (mkCmd .segmin false d t 0 (m == 1) 0 (2 ^ (c.toNat + 1)) (vWord 0x29 14 c.toNat a.toNat m.toNat t.toNat 0 d.toNat)) s

/-- VSEGMAX_V (R310). Integer maximum per segment. -/
def execVsegmaxV (c : BitVec 3) (a : BitVec 1) (m : BitVec 1) (t : BitVec 5) (d : BitVec 5) (s : State) : Out :=
  vecInstr (mkCmd .segmax false d t 0 (m == 1) 0 (2 ^ (c.toNat + 1)) (vWord 0x29 15 c.toNat a.toNat m.toNat t.toNat 0 d.toNat)) s

/-- VFSEGSUM_V (R310). Floating-point sum per segment. -/
def execVfsegsumV (c : BitVec 3) (a : BitVec 1) (m : BitVec 1) (t : BitVec 5) (d : BitVec 5) (s : State) : Out :=
  vecInstr (mkCmd .fsegsum false d t 0 (m == 1) 0 (2 ^ (c.toNat + 1)) (vWord 0x29 16 c.toNat a.toNat m.toNat t.toNat 0 d.toNat)) s

/-- VFSEGMIN_V (R310). Floating-point minimum per segment. -/
def execVfsegminV (c : BitVec 3) (a : BitVec 1) (m : BitVec 1) (t : BitVec 5) (d : BitVec 5) (s : State) : Out :=
  vecInstr (mkCmd .fsegmin false d t 0 (m == 1) 0 (2 ^ (c.toNat + 1)) (vWord 0x29 17 c.toNat a.toNat m.toNat t.toNat 0 d.toNat)) s

/-- VFSEGMAX_V (R310). Floating-point maximum per segment. -/
def execVfsegmaxV (c : BitVec 3) (a : BitVec 1) (m : BitVec 1) (t : BitVec 5) (d : BitVec 5) (s : State) : Out :=
  vecInstr (mkCmd .fsegmax false d t 0 (m == 1) 0 (2 ^ (c.toNat + 1)) (vWord 0x29 18 c.toNat a.toNat m.toNat t.toNat 0 d.toNat)) s

end Sys2Proof.Machine
end

