-- ==== Sys2Proof/Machine/VecPermute.lean ====
section
/-!
DEFINITION. The permutations (R313 to R317).
-/

namespace Sys2Proof.Machine

/-- VSLIDEUP_VX (R313). Slides elements up by k. -/
def execVslideupVx (a : BitVec 1) (m : BitVec 1) (t : BitVec 5) (u : BitVec 5) (d : BitVec 5) (s : State) : Out :=
  vecInstr (mkCmd .slideup true d t u (m == 1) 0 0 (vWord 0x2A 0 0 a.toNat m.toNat t.toNat u.toNat d.toNat)) s

/-- VSLIDEDOWN_VX (R313). Slides elements down by k. -/
def execVslidedownVx (a : BitVec 1) (m : BitVec 1) (t : BitVec 5) (u : BitVec 5) (d : BitVec 5) (s : State) : Out :=
  vecInstr (mkCmd .slidedown true d t u (m == 1) 0 0 (vWord 0x2A 1 0 a.toNat m.toNat t.toNat u.toNat d.toNat)) s

/-- VSLIDE1UP_VX (R313). Slides up by one, inserting a scalar at element 0. -/
def execVslide1upVx (a : BitVec 1) (m : BitVec 1) (t : BitVec 5) (u : BitVec 5) (d : BitVec 5) (s : State) : Out :=
  vecInstr (mkCmd .slide1up true d t u (m == 1) 0 0 (vWord 0x2A 2 0 a.toNat m.toNat t.toNat u.toNat d.toNat)) s

/-- VSLIDE1DOWN_VX (R313). Slides down by one, inserting a scalar at VL - 1. -/
def execVslide1downVx (a : BitVec 1) (m : BitVec 1) (t : BitVec 5) (u : BitVec 5) (d : BitVec 5) (s : State) : Out :=
  vecInstr (mkCmd .slide1down true d t u (m == 1) 0 0 (vWord 0x2A 3 0 a.toNat m.toNat t.toNat u.toNat d.toNat)) s

/-- VGATHER_VV (R313). Gathers vs2 elements by an index vector. -/
def execVgatherVv (w : BitVec 2) (a : BitVec 1) (m : BitVec 1) (t : BitVec 5) (u : BitVec 5) (d : BitVec 5) (s : State) : Out :=
  vecInstr (mkCmd .gather false d t u (m == 1) 0 (indexBits w) (vWord 0x2A 4 (2 * w.toNat) a.toNat m.toNat t.toNat u.toNat d.toNat)) s

/-- VCOMPRESS_VV (R315). Packs mask-selected elements and sets VL to their count. -/
def execVcompressVv (a : BitVec 1) (t : BitVec 5) (u : BitVec 5) (d : BitVec 5) (s : State) : Out :=
  vecInstr (mkCmd .compress false d t u false 0 0 (vWord 0x2A 5 0 a.toNat 0 t.toNat u.toNat d.toNat)) s

/-- VEXPAND_VV (R316). Spreads packed elements to the mask-selected places. -/
def execVexpandVv (a : BitVec 1) (t : BitVec 5) (u : BitVec 5) (d : BitVec 5) (s : State) : Out :=
  vecInstr (mkCmd .expand false d t u false 0 0 (vWord 0x2A 6 0 a.toNat 0 t.toNat u.toNat d.toNat)) s

/-- VBCAST_VX (R313). Broadcasts element k of vs2. -/
def execVbcastVx (a : BitVec 1) (m : BitVec 1) (t : BitVec 5) (u : BitVec 5) (d : BitVec 5) (s : State) : Out :=
  vecInstr (mkCmd .bcast true d t u (m == 1) 0 0 (vWord 0x2A 7 0 a.toNat m.toNat t.toNat u.toNat d.toNat)) s

/-- VMROT_VX (R317). Rotates whole member contents around the gang. -/
def execVmrotVx (a : BitVec 1) (m : BitVec 1) (t : BitVec 5) (u : BitVec 5) (d : BitVec 5) (s : State) : Out :=
  vecInstr (mkCmd .mrot true d t u (m == 1) 0 0 (vWord 0x2A 8 0 a.toNat m.toNat t.toNat u.toNat d.toNat)) s

end Sys2Proof.Machine
end

