-- ==== Sys2Proof/Machine/VecMemory.lean ====
section
/-!
DEFINITION. The vector memory instructions (R319 to R328) and the vector configuration (R279, R280).
-/

namespace Sys2Proof.Machine

/-! ## Vector configuration (R279, R280) -/

/-- A type image of `vsetl` as a VTYPE, or the invalid one (R279, R280). -/
def typeOf (x : BitVec 64) : BitVec 64 := if x = vtMask x ∧ vtOk x then x else vtBad

/-- The type image that imm12 of `vsetli` packs (R279). -/
def typeImm (i : BitVec 12) : BitVec 64 :=
  (i.extractLsb' 0 4).zeroExtend 64 ||| ((i.extractLsb' 4 2).zeroExtend 64 <<< 4) ||| ((i.extractLsb' 6 1).zeroExtend 64 <<< 7) |||
    ((i.extractLsb' 7 3).zeroExtend 64 <<< 8) ||| ((i.extractLsb' 10 2).zeroExtend 64 <<< 12)

/-- VSETL (R280): VTYPE, VL and VSTART, gd := VL.  It ends the open convoy and a replay (R281, R401) and waits for no command, but for one
that has yet to write VL (R315) or a scalar register of those it names; and, as a vector command, while another hart's privileged write is due
(R134). -/
def setConfig (names : List (BitVec 5)) (t n : BitVec 64) (d : BitVec 5) (word : BitVec 64) (s : State) : Out :=
  if !isVecHart s then finish (.trap .vown word s)
  else
    let s := updMyCore s fun q => { q with vec := { q.vec with ended := true } }
    if cmdHeld s || (myCore s).vec.convoy.any (fun c => !c.finished && c.op == .compress) ||
        (d :: names).any (fun r => (myCore s).owed.contains r) then .next s
    else
      let vl := BitVec.ofNat 64 (min n.toNat (vlmaxOf (myCore s).glanes t))
      let s := updMyCore s fun q => { q with vec := { q.vec with vtype := t, vl := vl, vstart := 0 } }
      .next (done4 d vl (endReplay s))

/-- VSETL (R280). Sets VTYPE from gb and VL from ga, returning VL. -/
def execVsetl (b a d : BitVec 5) (s : State) : Out := setConfig [a, b] (typeOf (gr s b)) (gr s a) d (rWord 0x2B 0 b a d) s

/-- VSETLI (R280). Sets VTYPE from an immediate and VL from ga. -/
def execVsetli (n : BitVec 12) (a d : BitVec 5) (s : State) : Out :=
  setConfig [a] (typeOf (typeImm n)) (gr s a) d (iWord 0x2B 1 n a d) s


/-- VLD (R320). Unit-stride vector load. -/
def execVld (a : BitVec 1) (m : BitVec 1) (u : BitVec 5) (d : BitVec 5) (s : State) : Out :=
  vecInstr (mkCmd .ld false d 0 u (m == 1) 0 0 (vWord 0x28 0 0 a.toNat m.toNat 0 u.toNat d.toNat)) s

/-- VST (R320). Unit-stride vector store. -/
def execVst (a : BitVec 1) (m : BitVec 1) (u : BitVec 5) (d : BitVec 5) (s : State) : Out :=
  vecInstr (mkCmd .st false d 0 u (m == 1) 0 0 (vWord 0x28 1 0 a.toNat m.toNat 0 u.toNat d.toNat)) s

/-- VLDS (R320). Strided vector load. -/
def execVlds (a : BitVec 1) (m : BitVec 1) (t : BitVec 5) (u : BitVec 5) (d : BitVec 5) (s : State) : Out :=
  vecInstr (mkCmd .lds false d t u (m == 1) 0 0 (vWord 0x28 2 0 a.toNat m.toNat t.toNat u.toNat d.toNat)) s

/-- VSTS (R320). Strided vector store. -/
def execVsts (a : BitVec 1) (m : BitVec 1) (t : BitVec 5) (u : BitVec 5) (d : BitVec 5) (s : State) : Out :=
  vecInstr (mkCmd .sts false d t u (m == 1) 0 0 (vWord 0x28 3 0 a.toNat m.toNat t.toNat u.toNat d.toNat)) s

/-- VLDX (R320). Indexed vector load. -/
def execVldx (w : BitVec 2) (a : BitVec 1) (m : BitVec 1) (t : BitVec 5) (u : BitVec 5) (d : BitVec 5) (s : State) : Out :=
  vecInstr (mkCmd .ldx false d t u (m == 1) 0 (indexBits w) (vWord 0x28 4 (2 * w.toNat) a.toNat m.toNat t.toNat u.toNat d.toNat)) s

/-- VSTX (R320). Indexed vector store. -/
def execVstx (w : BitVec 2) (a : BitVec 1) (m : BitVec 1) (t : BitVec 5) (u : BitVec 5) (d : BitVec 5) (s : State) : Out :=
  vecInstr (mkCmd .stx false d t u (m == 1) 0 (indexBits w) (vWord 0x28 5 (2 * w.toNat) a.toNat m.toNat t.toNat u.toNat d.toNat)) s

/-- VLDSP (R327). Loads operand rows of an own bank into a vector, converting by format. -/
def execVldsp (tr : BitVec 1) (a : BitVec 1) (m : BitVec 1) (k : BitVec 5) (u : BitVec 5) (d : BitVec 5) (s : State) : Out :=
  spInstr (mkCmd .ldsp false d k u (m == 1) 0 tr.toNat (vWord 0x28 6 tr.toNat a.toNat m.toNat k.toNat u.toNat d.toNat)) s

/-- VSTSP (R328). Stores a vector into operand rows of an own bank, converting by format. -/
def execVstsp (tr : BitVec 1) (a : BitVec 1) (m : BitVec 1) (k : BitVec 5) (u : BitVec 5) (d : BitVec 5) (s : State) : Out :=
  spInstr (mkCmd .stsp false d k u (m == 1) 0 tr.toNat (vWord 0x28 7 tr.toNat a.toNat m.toNat k.toNat u.toNat d.toNat)) s

end Sys2Proof.Machine
end

