-- ==== Sys2Proof/Machine/Matrix.lean ====
section
/-!
DEFINITION. The dense tile unit (R145, R171, R172, R186 to R189, R330 to R342): matrix mode, the tile, its transfers to and from
vector registers, and the outer products with their operand buffers and merge windows.
-/

namespace Sys2Proof.Machine

/-! ## Matrix mode -/

def Core.mm (q : Core) : Bool := q.vec.mstat.getLsbD 63
def Core.mvl (q : Core) : Nat := q.vec.mstat.toNat % 128

/-- A trap of a dense-tile or block-port command at its issue: earlier commands complete first (R398). -/
def tileTrap (z : Cause) (x : BitVec 64) (vec : Bool) (s : State) : State :=
  if !(myCore s).quiet then s else takeTrap z x vec s

/-- A dense-tile command: VOWN, then MMODE where the command needs matrix mode (R145, R330), then k once every earlier command of
the vector hart has completed and nothing holds the next. -/
def tileCmd (needMm : Bool) (word : BitVec 64) (s : State) (k : State → State) : Out :=
  if !isVecHart s then finish (.trap .vown word s)
  else if needMm && !(myCore s).mm then .next (tileTrap .mmode word true s)
  else .next (if !(myCore s).quiet || cmdHeld s then s else k s)

/-- MMODE (R332). Sets matrix mode and tile size. -/
def execMmode (a d : BitVec 5) (s : State) : Out :=
  tileCmd false (rWord 0x2C 0 0 a d) s fun s =>
    let v := gr s a
    let s := takeReplay s
    let put (w : BitVec 64) (r : BitVec 64) : State :=
      done4 d r (updMyCore s fun q => { q with vec := { q.vec with mstat := w } })
    let m := (myCore s).vec.mstat
    if v = 0 then put (setBits (setBits m 0 63 63) 0 6 0) 0
    else if v.toNat % 8 = 0 ∧ v.toNat ≤ 64 then put (setBits (m ||| (1#64 <<< 63)) v 6 0) 0
    else put m 1

/-- Cells of the tile, row by row. -/
def tileCells (n : Nat) : List (Nat × Nat) := (List.range (n * n)).map fun k => (k / n, k % n)

/-- MZERO (R333). Zeroes every cell of the tile. -/
def execMzero (s : State) : Out :=
  tileCmd true (rWord 0x2C 0x40 0 0 0) s fun s =>
    retire 4 (takeReplay ((tileCells (myCore s).mvl).foldl (fun s c => accPut c.1 c.2 0 s) s))

/-- A node of `mtree` on cells: the sum in FP32, or saturated in INT32 with whether it saturated (R334). -/
def foldNode (int : Bool) (x y : BitVec 32 × Bool) : BitVec 32 × Bool :=
  if int then
    let (v, st) := sat32 (x.1.toInt + y.1.toInt)
    (BitVec.ofInt 32 v, x.2 || y.2 || st)
  else (BitVec.ofNat 32 (f32.add 0 0 x.1.toNat y.1.toNat).1, false)

/-- One level of the fold: neighbours pair, a last odd member passes up unchanged. -/
def pairUp {α : Type} (f : α → α → α) : List α → List α
  | x :: y :: r => f x y :: pairUp f r
  | r => r

/-- The fold of at most 2^n values. -/
def pairTree {α : Type} (f : α → α → α) : Nat → List α → List α
  | 0, l => l
  | n + 1, l => if l.length ≤ 1 then l else pairTree f n (pairUp f l)

/-- MTREE (R334). Folds the tile into its first row by a pairwise tree. -/
def execMtree (t : BitVec 1) (s : State) : Out :=
  tileCmd true (rWord 0x2C (0x80 + 0x20 * t.toNat) 0 0 0) s fun s =>
    let n := (myCore s).mvl
    let tops := (List.range n).map fun j =>
      (j, (pairTree (foldNode (t == 1)) 7 ((List.range n).map fun r => (accGet s r j, false))).headD (0, false))
    retire 4 (takeReplay (tops.foldl (fun s x => setMsat x.2.2 (accPut 0 x.1 x.2.1 s)) s))

/-! ## The tile and vector registers (R335 to R337) -/

/-- The codes `mrd` and `mwr` refuse (R335). -/
def tileNoFmt (k : Nat) : Bool :=
  k == 5 || k == 6 || k == 0x0F || k == 0x10 || (decide (0x15 ≤ k) && decide (k ≤ 0x1E))

/-- An FP32 or INT32 cell as an exact value. -/
def cellVal (int : Bool) (c : BitVec 32) : FVal :=
  if int then .fin (decide (c.toInt < 0)) c.toInt.natAbs 0 else f32.value c.toNat

/-- A cell converted to an element of a format that is not block-scaled (R335). -/
def cellOut (k : Nat) (int : Bool) (rm : Nat) (c : BitVec 32) : BitVec 64 × Flags :=
  if k = 0x1F then (c.zeroExtend 64, 0)
  else
    match codeFmt k with
    | some f =>
      let (v, fl) := f.ofVal rm 0 (cellVal int c)
      (BitVec.ofNat 64 v, fl)
    | none =>
      let w := codeWidth k
      let sat (x : Int) (fl : Flags) : BitVec 64 × Flags :=
        let (v, fs) := satInt (codeUns k) w x
        (cutInt w v, fl ||| fs)
      let top : Int := 2 ^ 200
      match cellVal int c with
      | .nan _ => (0, fNV)
      | .inf n => (cutInt w (satInt (codeUns k) w (if n then -top else top)).1, fNV)
      | .fin n m e =>
        let (i, lost) := roundAt rm n m e 0 false 0
        sat (sgnInt n i) (flagIf lost fNX)

/-- An element of a format, with its block's scale byte, converted to a cell (R335). -/
def cellIn (k : Nat) (int : Bool) (rm : Nat) (x : Nat) (sc : BitVec 8) : BitVec 32 × Flags :=
  if k = 0x1F then (BitVec.ofNat 32 x, 0)
  else if int then
    let (v, fl) := toInt true 32 rm 0 (scaledVal k x sc)
    (BitVec.ofInt 32 v, fl)
  else
    let (v, fl) := f32.ofVal rm 0 (scaledVal k x sc)
    (BitVec.ofNat 32 v, fl)

/-- VCFG of `mrd` and `mwr` (R335); i is the first tile row, the vs2 field names vS. -/
def tileBad (c : VCmd) (mvl : Nat) : Bool :=
  let i := c.x.toNat % 64
  let g := VKind.regs .s c.sew c.grp
  (!tileNoFmt c.k && c.sew != (if c.k = 0x1F then 32 else codeWidth c.k)) ||
    decide (mvl ≤ i) || decide ((mvl - i) * mvl < c.vl) ||
    (codeScaled c.k && (c.vstart != 0 || overlap c.vd.toNat g c.vs2.toNat 1))

/-- `mrd` and `mwr`: the checks in the order of R219, then the transfer; a lane of an unpowered way stops it at its element. -/
def tileMove (c0 : VCmd) (s : State) (k : VCmd → List Nat → State → State) : Out :=
  tileCmd true c0.word s fun s =>
    let c := c0.capture s
    let q := s.curCore.val
    if c.badCfg (myCore s).glanes || tileBad c (myCore s).mvl then issueTrap .vcfg c.word c s
    else if tileNoFmt c.k then issueTrap .fmt (BitVec.ofNat 64 c.k) c s
    else
      let all := c.actives s q c.vstart c.vl
      -- what `mwr` reads of its registers, the one of the block scales included, is seen (R99)
      let s := readChunks (fun r => c.readsReg r || (c.op == .stsp && codeScaled c.k && r == c.vs2)) s
      match all.find? fun e => laneOff s q (e % max 1 (myCore s).glanes) with
      | some e => soloStop c e (.trap .layerOff (BitVec.ofNat 64 e)) (k c (all.filter fun x => decide (x < e)) s)
      | none => vecDone (k c all s)

/-- VPI of a register an instruction wrote, at its end (R140). -/
def putVpi (r n : Nat) (s : State) : State :=
  updMyCore s fun q => { q with vec := { q.vec with vpi := vput q.vec.vpi r (BitVec.ofNat 64 n) } }

/-- The cell of element e (R335). -/
def VCmd.cell (c : VCmd) (mvl e : Nat) : Nat × Nat := (c.x.toNat % 64 + e / max 1 mvl, e % max 1 mvl)

/-- The effect of `mrd` on the listed elements (R336). -/
def readTile (int : Bool) (c : VCmd) (es : List Nat) (s : State) : State :=
  let q := s.curCore.val
  let n := (myCore s).mvl
  let rm := redRm c.vtype
  let cell (e : Nat) : BitVec 32 := let p := c.cell n e; accGet s p.1 p.2
  let put (e : Nat) (x : BitVec 64) (s : State) : State := elemPut q c.sew c.vd.toNat e x s
  let s :=
    if codeScaled c.k then
      (List.range ((c.vl + 23) / 24)).foldl (fun s b =>
        let blk := (List.range 24).map (24 * b + ·) |>.filter fun e => decide (e < c.vl)
        let (sc, xs, fl) := toBlock c.k rm (blk.map fun e => cellVal int (cell e))
        let s := (blk.zip xs).foldl (fun s x => if es.contains x.1 then put x.1 (BitVec.ofNat 64 x.2) s else s) s
        raise fl (elemPut q 8 c.vs2.toNat b (sc.zeroExtend 64) s)) s
    else
      es.foldl (fun s e =>
        let (v, fl) := cellOut c.k int rm (cell e)
        raise fl (put e v s)) s
  if es.isEmpty then s
  else
    let s := putVpi c.vd.toNat (es.getLastD 0 + 1) s
    if codeScaled c.k then putVpi c.vs2.toNat (es.getLastD 0 + 1) s else s

/-- The effect of `mwr` on the listed elements (R337). -/
def writeTile (int : Bool) (c : VCmd) (es : List Nat) (s : State) : State :=
  let q := s.curCore.val
  let n := (myCore s).mvl
  let rm := redRm c.vtype
  es.foldl (fun s e =>
    let sc : BitVec 8 := (elemGet s q 8 c.vs2.toNat (e / 24)).setWidth 8
    let (v, fl) := cellIn c.k int rm (elemGet s q c.sew c.vd.toNat e).toNat sc
    let p := c.cell n e
    raise fl (accPut p.1 p.2 v s)) s

/-- MRD (R336). Reads tile cells into a vector, converting to a format. -/
def execMrd (t : BitVec 1) (f b a d : BitVec 5) (s : State) : Out :=
  tileMove (mkCmd .ldsp false d b a false 0 f.toNat (rWord 0x2C (0xC0 + 0x20 * t.toNat + f.toNat) b a d)) s (readTile (t == 1))

/-- MWR (R337). Writes vector elements into tile cells, converting from a format. -/
def execMwr (t : BitVec 1) (f b a d : BitVec 5) (s : State) : Out :=
  tileMove (mkCmd .stsp false d b a false 0 f.toNat (rWord 0x2C (0x100 + 0x20 * t.toNat + f.toNat) b a d)) s (writeTile (t == 1))

/-! ## Outer products (R171, R172, R338 to R342) -/

/-- Fields of an operand descriptor (R339), for an issuing core. -/
def opCore (c : Nat) (x : BitVec 64) : Nat := c / 16 * 16 + x.toNat / 2 ^ 16 % 16
def opRow (x : BitVec 64) : Nat := x.toNat / 16 % 1024
def opBank (x : BitVec 64) : Nat := x.toNat % 16
/-- The BFMT code of the way a descriptor names. -/
def opCode (s : State) (c : Nat) (x : BitVec 64) : Nat := bfmtCode (vget (coreAt s (opCore c x)).bfmt (opBank x))

/-- Way w of core c is a bank, and powered (R340). -/
def bankMode (s : State) (c w : Nat) : Bool := decide (16 ≤ w + (coreAt s c).nbank)
def wayOff (s : State) (c w : Nat) : Bool := decide (8 ≤ w) && !(colAt s (colOf c)).layerctl.getLsbD 0

/-- The checks of R340, A before B at each. -/
def opCheck (s : State) (c : Nat) (a b : BitVec 64) : Option (Cause × BitVec 64) :=
  let q := coreAt s c
  let ka := opCode s c a
  let kb := opCode s c b
  let bad (k : Nat) : Bool := k == 0x1F || codeBad k
  let both (p : BitVec 64 → Bool) (z : Cause) : Option (Cause × BitVec 64) :=
    if p a then some (z, a) else if p b then some (z, b) else none
  ((both (fun x => decide (682 < opRow x + q.mvl)) .vcfg).or
    (if bad ka then some (.fmt, BitVec.ofNat 64 ka) else if bad kb then some (.fmt, BitVec.ofNat 64 kb)
     else if codeWidth ka ≠ codeWidth kb then some (.fmt, BitVec.ofNat 64 kb) else none)).or
  ((both (fun x => (coreAt s (opCore c x)).job != q.job || (coreAt s (opCore c x)).job == 0) .busFault).or
    ((both (fun x => !bankMode s (opCore c x) (opBank x)) .wayMode).or
     (both (fun x => wayOff s (opCore c x) (opBank x)) .layerOff)))

/-- The rows and scale bytes of an operand, with the BFMT word they decode with (R187 to R189): all its blocks at one instant, so that a write
during the fill falls before all of them or after all, where R189 lets each block fall on its own side: the model's choice (log entry 119). -/
def readOperand (s : State) (c : Nat) (x : BitVec 64) (mvl : Nat) : DtuBuf :=
  let o := opCore c x
  let w := opBank x
  let b := vget (coreAt s o).bfmt w
  let blocks := if codeScaled (bfmtCode b) then codeRow (bfmtCode b) / 24 else 0
  { bfmt := b
    rows := (List.range mvl).map fun i => BitVec.ofNat 3072 (memRead s.mem (bankGpa s o w (384 * (opRow x + i))) 384)
    scales := (List.range mvl).map fun i => (List.range blocks).map fun j => bankByte s o w (scaleOff b (opRow x + i) j) }

/-- Element k of row i of an operand, scales excluded, and the scale of block g (R154, R157, R171). -/
def DtuBuf.elem (o : DtuBuf) (i k : Nat) : FVal :=
  let f := bfmtCode o.bfmt
  let w := codeWidth f
  codeVal f ((o.rows.getD i 0).toNat / 2 ^ (w * k) % 2 ^ w)
def DtuBuf.scale (o : DtuBuf) (i g : Nat) : FVal :=
  if codeScaled (bfmtCode o.bfmt) then scaleVal ((o.scales.getD i []).getD g 0) else .fin false 1 0

/-- A value times 2^q. -/
def FVal.shift (q : Int) : FVal → FVal
  | .fin n m e => .fin n m (e + q)
  | v => v

/-- A value added to an FP32 cell with one rounding; no flag is kept (R169). -/
def cellAdd (c : BitVec 32) (v : FVal) : BitVec 32 :=
  BitVec.ofNat 32 (f32.finish 0 0 (addVal 0 (f32.value c.toNat) v)).1

/-- What cell [i][j] becomes, and whether an INT32 sum saturated (R171, R172, R341); q is none for `mopa`. -/
def cellAcc (a b : DtuBuf) (q : Option (BitVec 8)) (i j : Nat) (c : BitVec 32) : BitVec 32 × Bool :=
  let ka := bfmtCode a.bfmt
  let kb := bfmtCode b.bfmt
  let sh : Int := match q with | some x => x.toInt | none => 0
  let prod (k : Nat) : FVal := (mulVal (a.elem i k) (b.elem j k)).1
  if codeWidth ka ≤ 8 then
    (List.range (codeRow ka / 24)).foldl (fun r g =>
      let sum := (List.range 24).foldl (fun t k => (addVal 0 t (prod (24 * g + k))).1) (.fin false 0 0)
      if codeInt ka && codeInt kb && q.isNone then
        match sum with
        | .fin n m e =>
          let (v, st) := sat32 (r.1.toInt + sgnInt n m * 2 ^ e.toNat)
          (BitVec.ofInt 32 v, r.2 || st)
        | _ => r
      else
        (cellAdd r.1 ((mulVal (mulVal sum (a.scale i g)).1 (b.scale j g)).1.shift sh), r.2)) (c, false)
  else
    ((List.range (codeRow ka)).foldl (fun r k => cellAdd r ((prod k).shift sh)) c, false)

/-- The accumulation of two operands into the tile of core c (R341). -/
def accumulate (c : Nat) (a b : DtuBuf) (q : Option (BitVec 8)) (s : State) : State :=
  let n := (coreAt s c).mvl
  actAs c (coreAt s c).vec.slot (fun s =>
    (tileCells n).foldl (fun s p =>
      let (v, st) := cellAcc a b q p.1 p.2 (accGet s p.1 p.2)
      setMsat st (accPut p.1 p.2 v s)) s) s

/-- A request for an operand reaches a bank of another core o: it joins an open merge window or opens one (R188). -/
def requestOne (c o : Nat) (x : BitVec 64) (second : Bool) (s : State) : State :=
    let n := (coreAt s c).mvl
    let fits (w : MWin) : Bool :=
      w.way == opBank x && w.row0 == opRow x && w.mvl == n && w.second == second && decide (s.clock < w.opened + 16)
    updCore s o fun q =>
      if q.windows.any fits then
        { q with windows := q.windows.map fun w => if fits w then { w with cores := w.cores ++ [c] } else w }
      else
        { q with windows := q.windows ++
            [{ way := opBank x, row0 := opRow x, mvl := n, second := second, opened := s.clock, cores := [c] }] }

/-- A command asks for an operand that lies in another core's bank. -/
def requestRows (c : Nat) (x : BitVec 64) (second : Bool) (s : State) : State :=
  if opCore c x = c then s else requestOne c (opCore c x) x second s

/-- `mopa` and `mopa.sc` (R340 to R342).  They run whole where commands are not queued; otherwise the hart holds, READY, until the
operand buffer is full.  Neither waits for a convoy (R191). -/
def outer (q : Option (BitVec 8)) (rs : List (BitVec 5)) (word a b : BitVec 64) (s : State) : Out :=
  let c := s.curCore.val
  let v := (myCore s).vec
  if !isVecHart s then finish (.trap .vown word s)
  else if (v.dtu.any fun o => !o.full) || cmdHeld s || rs.any (myCore s).owed.contains then .next s
  else if !(myCore s).mm then .next (tileTrap .mmode word true s)
  else
    match opCheck s c a b with
    | some (z, x) => .next (tileTrap z x true s)
    | none =>
      if queues s then
        if 2 ≤ v.dtu.length then .next s
        else
          let o : DtuOp := { word := word, da := a, db := b, q := q, codeA := opCode s c a, codeB := opCode s c b
                             a := none, b := none, full := false, after := v.convoy.length, stop := none }
          .next (requestRows c b true (requestRows c a false
            (updMyCore s fun q => { q with vec := { q.vec with dtu := q.vec.dtu ++ [o] } })))
      else if !(myCore s).quiet then .next s
      else
        let n := (myCore s).mvl
        .next (retire 4 (takeReplay (accumulate c (readOperand s c a n) (readOperand s c b n) q s)))

/-- MOPA (R341). Accumulates the outer product of two bank operands into the tile. -/
def execMopa (b a : BitVec 5) (s : State) : Out := outer none [a, b] (rWord 0x2D 0 b a 0) (gr s a) (gr s b) s

/-- MOPA_SC (R341). Accumulates a scaled outer product in FP32. -/
def execMopaSc (b a d : BitVec 5) (s : State) : Out :=
  outer (some ((gr s d).setWidth 8)) [a, b, d] (rWord 0x2D 1 b a d) (gr s a) (gr s b) s

/-! ## Filling the operand buffers -/

/-- The command of core c that fills its buffer is withdrawn and its hart traps at it; `acc` is unchanged (R189, R342). -/
def fillTrap (c : Nat) (z : Cause) (x : BitVec 64) (s : State) : State :=
  actAs c (coreAt s c).vec.slot (takeTrap z x true) (dropTile c (fun d => !d.full) s)

/-- What stops the fill of an operand (R342): a way reclaimed or unpowered, or, as long as the operand is not read, a changed code. -/
def fillStop (s : State) (c : Nat) (x : BitVec 64) (code : Nat) (read : Bool) : Option (Cause × BitVec 64) :=
  let o := opCore c x
  if !bankMode s o (opBank x) then some (.wayMode, x)
  else if wayOff s o (opBank x) then some (.layerOff, x)
  else if !read && opCode s c x != code then some (.fmt, BitVec.ofNat 64 (opCode s c x))
  else none

/-- A stop that the fill of core c's buffer has met is kept until it is taken (R189). -/
def noteStop (c : Nat) (z : Cause × BitVec 64) (s : State) : State :=
  updCore s c fun q => { q with vec := { q.vec with dtu := q.vec.dtu.map fun e => if e.full then e else { e with stop := e.stop.or (some z) } } }

/-- A stream that has been read reaches one of its receivers (R188). -/
def deliver (second : Bool) (way row0 : Nat) (o : Nat) (c : Nat) (s : State) : State :=
  match (coreAt s c).vec.dtu.find? fun d => !d.full with
  | none => s
  | some d =>
    let x := if second then d.db else d.da
    if opCore c x ≠ o ∨ opBank x ≠ way ∨ opRow x ≠ row0 then s
    else
      match fillStop s c x (if second then d.codeB else d.codeA) false with
      | some z => noteStop c z s
      | none =>
        let buf := readOperand s c x (coreAt s c).mvl
        updCore s c fun q => { q with vec := { q.vec with dtu := q.vec.dtu.map fun e =>
          if e.full then e else if second then { e with b := some buf } else { e with a := some buf } } }

/-- MERGE_WINDOW_CLOSE (R188). A bank's 16 s-cycle merge window closes and its merged operand stream starts; every receiver takes the
same bytes. -/
def execMergeWindowClose (core way : Nat) (s : State) : Out :=
  if 2048 ≤ core ∨ 16 ≤ way then .fault .noSuchUnit
  else
    match (coreAt s core).windows.find? fun w => w.way == way && decide (w.opened + 16 ≤ s.clock) with
    | none => .next s
    | some w =>
      if (colAt s (colOf core)).tripped then .next s
      else
      let s := updCore s core fun q => { q with windows := q.windows.erase w }
      .next (w.cores.foldl (fun s c => deliver w.second way w.row0 core c s) s)

/-- OPERAND_BUFFER_FULL (R342). The operand buffer of an issued `mopa` is full and the vector hart goes on; operands in the core's own
banks are read here, the others have come by their streams.  A trap of the fill waits for the convoy before it (R398). -/
def execOperandBufferFull (core : Nat) (s : State) : Out :=
  if 2048 ≤ core then .fault .noSuchUnit
  else
    match (coreAt s core).vec.dtu.find? fun d => !d.full with
    | none => .next s
    | some d =>
      let own (x : BitVec 64) : Bool := opCore core x == core
      if (colAt s (colOf core)).tripped || d.stop.isNone && ((d.a.isNone && !own d.da) || (d.b.isNone && !own d.db)) then .next s
      else
        let stop := (d.stop.or (fillStop s core d.da d.codeA d.a.isSome)).or (fillStop s core d.db d.codeB d.b.isSome)
        match stop with
        | some (z, x) => .next (if (coreAt s core).vec.convoy.isEmpty then fillTrap core z x s else noteStop core (z, x) s)
        | none =>
          let n := (coreAt s core).mvl
          let a := if own d.da then readOperand s core d.da n else d.a.getD (readOperand s core d.da n)
          let b := if own d.db then readOperand s core d.db n else d.b.getD (readOperand s core d.db n)
          let s := updCore s core fun q => { q with vec := { q.vec with dtu := q.vec.dtu.map fun e =>
            if e.full then e else { e with a := some a, b := some b, full := true } } }
          .next (actAs core (coreAt s core).vec.slot (fun s => retire 4 (takeReplay s)) s)

/-- ACCUMULATION_END (R342). The accumulation of the oldest `mopa` with a full buffer ends: the tile holds its result.  Where an earlier
vector command may still stop, the result comes once those have settled, so that a stop leaves `acc` as it was (R398, R399). -/
def execAccumulationEnd (core : Nat) (s : State) : Out :=
  if 2048 ≤ core then .fault .noSuchUnit
  else
    match (coreAt s core).vec.dtu with
    | [] => .next s
    | d :: r =>
      match d.full, d.a, d.b with
      | true, some a, some b =>
        let v := (coreAt s core).vec
        if (colAt s (colOf core)).tripped || !((v.convoy.take d.after).all fun c => c.settled { s with curCore := ⟨core % 2048, Nat.mod_lt _ (by decide)⟩ }) then .next s
        else
        let s := accumulate core a b d.q s
        .next (updCore s core fun q => { q with vec := { q.vec with dtu := r } })
      | _, _, _ => .next s

/-! ## The block port (R343 to R348) -/

/-- A pointer register's bank and byte offset (R344). -/
def ptrBank (x : BitVec 64) : Nat := x.toNat % 16
def ptrOff (x : BitVec 64) : Nat := x.toNat / 64 % 4096 * 64

/-- A block image as the port reads it: N, DAMP, TAG, whether a reserved byte is nonzero, and the f32 words of η and Λ (R343). -/
structure BlockImage where
  n : Nat
  damp : Nat
  tag : Nat
  dirty : Bool
  eta : List Nat
  lam : List Nat
deriving DecidableEq, Repr

/-- The image that 320 bytes hold (R343). -/
def imageOf (v : Nat) : BlockImage :=
  let word (i : Nat) : Nat := v / 2 ^ (32 * i) % 2 ^ 32
  { n := v % 256, damp := v / 2 ^ 8 % 256, tag := v / 2 ^ 16 % 256, dirty := v / 2 ^ 24 % 2 ^ 232 != 0
    eta := (List.range 8).map fun i => word (8 + i)
    lam := (List.range 64).map fun i => word (16 + i) }

/-- The image as bytes, reserved ones zero (R343). -/
def BlockImage.bytes (b : BlockImage) : Nat :=
  let words (l : List Nat) : Nat := packWords 32 (l.map (· % 2 ^ 32))
  b.n % 256 + 2 ^ 8 * (b.damp % 256) + 2 ^ 16 * (b.tag % 256) + 2 ^ 256 * words b.eta + 2 ^ 512 * words b.lam

/-- Where block n of the image a pointer names stands (R344, R348). -/
def blockPlace (s : State) (x : BitVec 64) (n : Nat) : Nat := bankGpa s s.curCore (ptrBank x) (ptrOff x) + 64 * n

/-- The image a pointer names (R344). -/
def readImage (s : State) (x : BitVec 64) : BlockImage := imageOf (memRead s.mem (blockPlace s x 0) 320)

def BlockImage.h (b : BlockImage) (i : Nat) : Nat := b.eta.getD i 0
def BlockImage.w (b : BlockImage) (r c : Nat) : Nat := b.lam.getD (8 * r + c) 0

/-- A result image: entries beyond N are +0 (R343). -/
def makeImage (n damp tag : Nat) (h : Nat → Nat) (w : Nat → Nat → Nat) : BlockImage :=
  { n := n, damp := damp, tag := tag, dirty := false
    eta := (List.range 8).map fun i => if i < n then h i else 0
    lam := (List.range 64).map fun i => if i / 8 < n ∧ i % 8 < n then w (i / 8) (i % 8) else 0 }

/-- The image written in full (R343, R348). -/
def writeImage (x : BitVec 64) (b : BlockImage) (s : State) : State :=
  { s with mem := memWrite s.mem (blockPlace s x 0) 320 b.bytes }

/-- A NaN made canonical (R152). -/
def canon (x : Nat) : Nat := if (f32.value x).isNan then f32.nanEnc else x

/-- `gadd` (R345). -/
def blockAdd (a b : BlockImage) : BlockImage :=
  makeImage a.n a.damp a.tag (fun i => (f32.add 0 0 (a.h i) (b.h i)).1) (fun r c => (f32.add 0 0 (a.w r c) (b.w r c)).1)

/-- One entry of `gdamp` (R347). -/
def blend (damp x y : Nat) : Nat :=
  if damp = 0 then canon x
  else
    let p := (mulVal (.fin false (256 - damp) (-8)) (f32.value x)).1
    let q := (mulVal (.fin false damp (-8)) (f32.value y)).1
    (f32.finish 0 0 (addVal 0 p q)).1

/-- `gdamp` (R347). -/
def blockBlend (a b : BlockImage) : BlockImage :=
  makeImage a.n a.damp a.tag (fun i => blend a.damp (a.h i) (b.h i)) (fun r c => blend a.damp (a.w r c) (b.w r c))

/-- The working matrix and vector of `gelim`: W[r][c] at 8 r + c, h at 64 + r. -/
abbrev Work := Tab Nat

/-- Step j of `gelim` (R346): the pivot test, then the fused updates in their order. -/
def elimStep (n j t : Nat) (w : Work) : Option Work :=
  let at' (w : Work) (r c : Nat) : Nat := tabGet 0 w (8 * r + c)
  let p := at' w j j
  if !(f32.lt t p).1 then none
  else
    let rows := (List.range n).filter fun r => decide (j < r)
    let l (r : Nat) : Nat := (f32.div 0 0 (at' w r j) p).1
    let w1 := rows.foldl (fun v r =>
      ((List.range (r + 1)).filter fun c => decide (j < c)).foldl (fun v c =>
        tabPut v (8 * r + c) (f32.fma 0 0 true false (l r) (at' w c j) (at' v r c)).1) v) w
    some (rows.foldl (fun v r => tabPut v (64 + r) (f32.fma 0 0 true false (l r) (tabGet 0 w (64 + j)) (tabGet 0 v (64 + r))).1) w1)

/-- The first k eliminations from variable j on: the work, or the pivot that failed. -/
def elimSteps (n t : Nat) : Nat → Nat → Work → Nat ⊕ Work
  | 0, _, w => .inr w
  | k + 1, j, w =>
    match elimStep n j t w with
    | none => .inl j
    | some w => elimSteps n t k (j + 1) w

/-- `gelim` (R346): the result image, or the singular pivot. -/
def blockElim (a : BlockImage) (k eps : Nat) : Nat ⊕ BlockImage :=
  let abs (r : Nat) : Nat := f32.withSign (a.w r r) false
  let dmax := ((List.range k).map abs).foldl (fun m x => (f32.max m x).1) 0
  let t := (f32.mul 0 0 eps dmax).1
  let w : Work := (List.range 64).map fun i => (i, a.lam.getD i 0)
  let w := (List.range 8).foldl (fun w i => tabPut w (64 + i) (a.h i)) w
  match elimSteps a.n t k 0 w with
  | .inl j => .inl j
  | .inr w =>
    .inr (makeImage (a.n - k) a.damp a.tag (fun i => tabGet 0 w (64 + k + i))
      (fun r c => if c ≤ r then tabGet 0 w (8 * (k + r) + (k + c)) else tabGet 0 w (8 * (k + c) + (k + r))))

/-- The checks of block-port pointers, each made for every pointer before the next (R344); the XVAL of WAY_MODE and LAYER_OFF is one
the spec does not state here (log entry 2). -/
def ptrCheck (s : State) (ps : List (BitVec 64)) : Option (Cause × Option (BitVec 64)) :=
  let c := s.curCore.val
  if ps.any fun x => !bankMode s c (ptrBank x) then some (.wayMode, none)
  else if ps.any fun x => wayOff s c (ptrBank x) then some (.layerOff, none)
  else (ps.find? fun x => decide (262144 < ptrOff x + 320)).map fun x => (.fmt, some x)

/-- FMT of the images of `gadd` and `gdamp` (R344). -/
def pairBad (a b : BlockImage) : Bool := a.n == 0 || decide (8 < a.n) || a.dirty || b.dirty || a.n != b.n

/-- What a block-port instruction makes of its images (R344 to R347): the trap it takes, or the image D.  k is g(rb) of `gelim`. -/
def portResult (op : Fin 3) (k eps : Nat) (x y : BlockImage) : (Cause × BitVec 64) ⊕ BlockImage :=
  if op = 1 then
    if x.n == 0 || decide (8 < x.n) || x.dirty || k == 0 || decide (x.n ≤ k) then .inl (.fmt, 0)
    else
      match blockElim x k eps with
      | .inl j => .inl (.gsing, BitVec.ofNat 64 j)
      | .inr r => .inr r
  else if pairBad x y then .inl (.fmt, 0)
  else .inr (if op = 0 then blockAdd x y else blockBlend x y)

/-- The pointers of the images an instruction reads. -/
def portReads (op : Fin 3) (a b : BitVec 64) : List (BitVec 64) := if op = 1 then [a] else [a, b]

/-- A block-port command of the vector hart moves its replay record on (R401). -/
def portReplay (s : State) : State := if isVecHart s then takeReplay s else s

/-- The outcome of a block-port instruction on its images, D written by the function given: a trap, or what that leaves. -/
def portDone (op : Fin 3) (b : BitVec 64) (x y : BlockImage) (put : BlockImage → State → State) (s : State) : Out :=
  match portResult op b.toNat ((me s).geps.toNat % 2 ^ 32) x y with
  | .inl (z, v) => finish (.trap z v (portReplay s))
  | .inr r => .next (put r s)

/-- Writes of the issuing core to n bytes from p are queued or on their way: an access of its block port comes after them (R197). -/
def bankPending (s : State) (p n : Nat) : Bool := ((myCore s).wq.any fun e => meets e.gpa e.n p n) || inFlight s s.curCore p n

/-- The commands of the vector hart before its block-port instruction can no longer trap (R399). -/
def portSettled (s : State) : Bool :=
  !isVecHart s || ((myCore s).vec.convoy.all (fun c => c.settled s) && (myCore s).vec.dtu.all (·.full))

/-- They have completed. -/
def portAlone (s : State) : Bool := !isVecHart s || ((myCore s).vec.convoy.isEmpty && (myCore s).vec.dtu.isEmpty)

/-- A block-port instruction (R344, R348), issued by the vector hart or by the handler slot; a change of the ways that quiesces holds it (R127).
The port serves one request at a time, beside the commands of the micro-sequencer and the DTU (R191); where accesses travel, it reads and writes
block by block while its hart stands at the instruction, and otherwise in one turn, once the vector hart's commands have completed. -/
def blockOp (op : Fin 3) (word a b d : BitVec 64) (s : State) : Out :=
  let ps := portReads op a b ++ [d]
  if !(isVecHart s || s.curSlot == 7) then finish (.trap .vown word s)
  else if cmdHeld s || (myCore s).portBusy then .next s
  else
    match ptrCheck s ps with
    | some (z, some x) => finish (.trap z x s)
    | some (z, none) => let (x, s) := takeFree s; finish (.trap z x s)
    | none =>
      if s.split then .next (updMe s fun h => { h with wait := .port op a b d [] [] })
      else
        finish (settled s fun s =>
          if ps.any fun x => bankPending s (blockPlace s x 0) 320 then .hold s
          else
            match portResult op b.toNat ((me s).geps.toNat % 2 ^ 32) (readImage s a) (readImage s b) with
            | .inl (z, v) => .trap z v (portReplay s)
            | .inr r => .ok () (retire 4 (portReplay (writeImage d r s))))

/-- An access of the port to the block at p of bank w has to wait: for a write of the core, or for the bank (R120, R197). -/
def portWaits (s : State) (w p : Nat) : Bool := bankPending s p 64 || bankTaken s s.curCore s.curCore w

/-- The next access of the block-port instruction the issuing hart stands at (R348): a block of A or B read once, the first of D's blocks written
when all are read, each of the others after it; with the last the instruction completes.  A write waits until the vector hart's earlier commands
have settled, a trap until they have completed (R398, R399). -/
def portTurn (s : State) : Out :=
  let c := s.curCore.val
  let at' (reads writes : List (BitVec 512)) (op : Fin 3) (a b d : BitVec 64) (s : State) : State :=
    updMe s fun h => { h with wait := .port op a b d reads writes }
  let image (l : List (BitVec 512)) : BlockImage := imageOf (packWords 512 (l.map (·.toNat)))
  match (me s).wait with
  | .port op a b d reads [] =>
    match (portReads op a b)[reads.length / 5]? with
    | some x =>
      let p := blockPlace s x (reads.length % 5)
      .next (if portWaits s (ptrBank x) p then s
        else at' (reads ++ [BitVec.ofNat 512 (memRead s.mem p 64)]) [] op a b d (takeBank c c (ptrBank x) s))
    | none =>
      if !portAlone s && (portResult op b.toNat ((me s).geps.toNat % 2 ^ 32) (image (reads.take 5)) (image (reads.drop 5))).isLeft then .next s
      else
        let lines (r : BlockImage) : List (BitVec 512) := (List.range 5).map fun n => BitVec.ofNat 512 (r.bytes / 2 ^ (512 * n))
        portDone op b (image (reads.take 5)) (image (reads.drop 5)) (fun r s => at' reads (lines r) op a b d s)
          (updMe s fun h => { h with wait := .none })
  | .port op a b d reads (w :: l) =>
    let p := blockPlace s d (4 - l.length)
    if portWaits s (ptrBank d) p || !portSettled s then .next s
    else
      let s := takeBank c c (ptrBank d) { s with mem := memWrite s.mem p 64 w.toNat }
      .next (if l.isEmpty then retire 4 (portReplay (updMe s fun h => { h with wait := .none })) else at' reads l op a b d s)
  | _ => .next s

/-- GADD (R345). Adds two Gaussian block images. -/
def execGadd (b a d : BitVec 5) (s : State) : Out := blockOp 0 (rWord 0x2E 0 b a d) (gr s a) (gr s b) (gr s d) s

/-- GELIM (R346). Eliminates the first k variables of a block image, trapping GSING on a singular pivot. -/
def execGelim (b a d : BitVec 5) (s : State) : Out := blockOp 1 (rWord 0x2E 1 b a d) (gr s a) (gr s b) (gr s d) s

/-- GDAMP (R347). Blends a new block image with an old one by the damping weight. -/
def execGdamp (b a d : BitVec 5) (s : State) : Out := blockOp 2 (rWord 0x2E 2 b a d) (gr s a) (gr s b) (gr s d) s

end Sys2Proof.Machine
end

