-- ==== Sys2Proof/Machine/Copy.lean ====
section
/-!
DEFINITION. The copy, collective and barrier instructions: what they read, check and queue (R84 to R88, R94 to R97, R109, R349 to
R361), and the barrier objects they act on (R100 to R102).
-/

namespace Sys2Proof.Machine

/-- The word of a C-format instruction (R222). -/
def cWord (maj fn3 : Nat) (w z m : BitVec 1) (k : BitVec 3) (b a d : BitVec 5) : BitVec 64 :=
  BitVec.ofNat 64 (1 + 2 * maj + 2 ^ 7 * d.toNat + 2 ^ 12 * a.toNat + 2 ^ 17 * b.toNat + 2 ^ 22 * k.toNat + 2 ^ 25 * fn3 +
    2 ^ 28 * m.toNat + 2 ^ 29 * z.toNat + 2 ^ 30 * w.toNat)

/-! ## A request -/

/-- Fields of ox5 (R350). -/
def ox5Code (x : BitVec 64) : Nat := x.toNat / 2 ^ 8 % 8
def ox5Reg (x : BitVec 64) : BitVec 5 := x.extractLsb' 11 5
def ox5Swz (x : BitVec 64) : Bool := x.getLsbD 16
def ox5Wide (x : BitVec 64) : Bool := x.getLsbD 17
def ox5Rowb (x : BitVec 64) : Nat := 8 * (x.toNat / 2 ^ 20 % 2 ^ 14)

/-- A request of the issuing copy hart, fields filled from its registers (R350). -/
def mkReq (kind : Nat) (w z m : BitVec 1) (k : BitVec 3) (b a d : BitVec 5) (s : State) : CReq :=
  let x := oxr s 5
  { id := s.nextId, core := s.curCore.val, job := (myCore s).job, dir := (myCore s).rdbase, user := !isSys s, kind := kind
    src := gr s a, dst := gr s d, len := (gr s b).toNat, rows := (gr s b).toNat, rowb := ox5Rowb x
    sstride := oxr s 6, dstride := oxr s 7, list := oxr s 7, wide := ox5Wide x, nrows := (oxr s 3).toNat
    swz := ox5Swz x && (kind == 1 || kind == 2), tok := k.toFin
    waitMask := if w = 1 then x.setWidth 8 else 0, bar := oxr s 4
    mask := if m = 1 then some (x.extractLsb' 8 3, ox5Reg x) else none
    z := z == 1, zn := 0, zv := 0, zfrom := 0, zgpa := 0, vreg := d, vt := (myCore s).vec.vtype, glanes := (myCore s).glanes
    lanes := (myCore s).lanes, fmt := none, scales := [], pc := (me s).pc, next := 0
    total := (gr s b).toNat, group := 0, rank := 0, op := 0, ty := 0, rootOnly := false, count := 0, result := none, wrote := 0
    rc := [], begun := false, done := false, failed := none }

/-- A stride's limits (R87). -/
def strideOk (x : BitVec 64) : Bool := decide (x.toInt % 8 = 0) && decide (x.toInt < 2 ^ 47) && decide (-(2 ^ 47) < x.toInt)

/-- Elements per chunk (R97). -/
def CReq.chunk (r : CReq) (c : BitVec 3) : Nat := if r.kind = 0 then 64 * 2 ^ c.toNat else 2 ^ c.toNat

/-- The bank a virtual address lies in now, looked up without a trap or a fill: core, way, byte (R353). -/
def peekBank (s : State) (va : BitVec 64) : Option (Nat × Nat × Nat) :=
  match (translate s s.curCore (isSys s) needRd va).1 with
  | .ok g _ _ =>
    match targetOf s (redirect s (myCore s).job g) with
    | .bank c w b => some (c, w, b)
    | _ => none
  | _ => none

/-- Elements of a source row of `copyt` (R353): the format code of a bank source, 0x1F for memory, and E. -/
def rowElems (code rowb sew : Nat) : Nat := if code = 0x1F then rowb * 8 / sew else codeRow code

/-- What R353 refuses of a `copyt` at issue. -/
def copytOk (r : CReq) (s : State) : Bool :=
  let q := myCore s
  let t := q.vec.vtype
  let sew := vtSew t
  let (code, off) := match peekBank s r.src with
    | some (c, w, b) => (bfmtCode (vget (coreAt s c).bfmt w), b)
    | none => (0x1F, 0)
  q.vec.bound && !vtIll t && aligned r.vreg.toNat (VKind.regs .s sew (vtGrp t)) && !codeBad code &&
    (code == 0x1F || (r.rowb == 384 && off % 384 == 0)) && codeInOk code sew &&
    decide (r.rows * rowElems code r.rowb sew ≤ q.vlmax)

/-- Whether a copy request meets R87, R88 and R350. -/
def reqOk (r : CReq) (s : State) : Bool :=
  let x := oxr s 5
  let q := myCore s
  let list := r.kind == 2 || r.kind == 3
  x.toNat / 2 ^ 34 == 0 && x.toNat / 2 ^ 18 % 4 == 0 &&
  (r.bar == 0 || isBarrierGpa s r.bar.toNat) &&
  (if r.kind = 0 then decide (1 ≤ r.len) && decide (r.len < 2 ^ 48)
   else decide (1 ≤ r.rows) && decide (r.rows < 2 ^ 32) && decide (8 ≤ r.rowb) && decide (r.rowb ≤ 65536)) &&
  (r.kind != 1 || (strideOk r.sstride && strideOk r.dstride)) &&
  (!list || (strideOk r.sstride && r.list.toNat % (if r.wide then 8 else 4) == 0 && decide (1 ≤ r.nrows) && decide (r.nrows < 2 ^ 48))) &&
  (!r.swz || r.rowb % 256 == 0) &&
  (match r.mask with
   | none => true
   | some (c, _) =>
     c != 7 && q.narr != 0 && decide ((r.total + r.chunk c - 1) / r.chunk c ≤ q.lanes * 32)) &&
  (r.kind != 4 || (q.narr != 0 && copytOk r s))

/-- The lowest token of those an instruction names that is in ERROR (R95, R351). -/
def reqTokens (r : CReq) : BitVec 8 := r.waitMask ||| (1#8 <<< r.tok.val)

/-- Requests waiting in a queue (R86). -/
def waiting (l : List CReq) : Nat := l.countP fun r => !r.begun

/-- A copy or collective instruction from the checks of R351 on: the resumption of R107, the token, the queue. -/
def issueReq (r : CReq) (ok : Bool) (queue : Column → List CReq) (put : List CReq → Column → Column) (s : State) : Res Unit :=
  match tokenIn (myCore s) (reqTokens r) 2 with
  | some n => copyErr n s
  | none =>
    if !ok then .trap .copyErr 0 s
    else
      let n := r.tok.val
      let col := colOf s.curCore
      let st := vget (myCore s).cstart n
      let resume := st.toNat % 2 ^ 48 != 0 && vget (myCore s).cpc n == r.pc.zeroExtend 64
      let start := if resume then st.toNat % 2 ^ 48 else 0
      if 32 ≤ waiting (queue (colAt s col)) then .hold (stall .queue s)
      else
        let s := updMyCore s fun q =>
          { q with cstart := if resume then q.cstart else vput q.cstart n 0, tok := vput q.tok n 1 }
        let s := updCol s col (put (queue (colAt s col) ++ [{ r with next := start }]))
        .ok () (retire 4 { s with nextId := s.nextId + 1 })

/-- A copy instruction (R351): the copy hart's alone (R84). -/
def copyInstr (kind : Nat) (w z m : BitVec 1) (k : BitVec 3) (b a d : BitVec 5) (s : State) : Out :=
  finish (
    if s.curSlot ≠ 6 then .trap .slot (cWord 0x30 kind w z m k b a d) s
    else settled s fun s =>
      let r := mkReq kind w z m k b a d s
      let e := rowOf s.curCore
      issueReq r (reqOk r s) (fun c => c.eng.toList.getD e []) (fun l c => { c with eng := vput c.eng e l }) s)

/-- COPY (R351). Issues a linear copy request to the row cluster's engine. -/
def execCopy (w z m : BitVec 1) (k : BitVec 3) (b a d : BitVec 5) (s : State) : Out := copyInstr 0 w z m k b a d s
/-- COPY2D (R351). Issues a strided two-dimensional copy request. -/
def execCopy2d (w z m : BitVec 1) (k : BitVec 3) (b a d : BitVec 5) (s : State) : Out := copyInstr 1 w z m k b a d s
/-- COPYGATH (R351). Issues a gather of table rows by an index list. -/
def execCopygath (w z m : BitVec 1) (k : BitVec 3) (b a d : BitVec 5) (s : State) : Out := copyInstr 2 w z m k b a d s
/-- COPYSCAT (R351). Issues a scatter of rows to table places by an index list. -/
def execCopyscat (w z m : BitVec 1) (k : BitVec 3) (b a d : BitVec 5) (s : State) : Out := copyInstr 3 w z m k b a d s
/-- COPYT (R351, R353). Issues a transposing copy of rows into a vector register group. -/
def execCopyt (w z m : BitVec 1) (k : BitVec 3) (b a d : BitVec 5) (s : State) : Out := copyInstr 4 w z m k b a d s

/-! ## Collectives (R109, R355, R356) -/

/-- Bytes of an element of a group's TYPE (R355). -/
def typeBytes (ty : Nat) : Nat := if ty = 3 then 2 else if ty = 4 then 8 else 4

/-- A group record (R109) as a number of 512 bits: whether it keeps the table for a rank. -/
def groupOk (s : State) (v rank : Nat) : Bool :=
  let count := v % 2 ^ 16
  let bar := v / 2 ^ 128 % 2 ^ 64
  let elems := v / 2 ^ 64 % 2 ^ 64
  decide (2 ≤ count) && decide (count ≤ 4096) && decide (v / 2 ^ 16 % 256 ≤ 2) && decide (v / 2 ^ 24 % 256 ≤ 4) &&
    decide (v / 2 ^ 32 % 256 ≤ 1) && v / 2 ^ 40 % 2 ^ 24 == 0 && v / 2 ^ 192 == 0 && decide (1 ≤ elems) && decide (elems ≤ 2 ^ 32) &&
    (bar == 0 || isBarrierGpa s bar) && decide (rank < count)

/-- The group record lies in DRAM (R109). -/
def groupPlace (s : State) (g : BitVec 64) : Bool :=
  g.toNat % 64 == 0 && decide (g.toNat < 2 ^ 56) &&
    (match targetOf s g.toNat with
     | .dram _ _ => true
     | .device _ => (match offTarget 0 (gpaOff g.toNat) with | .dram _ _ => true | _ => false)
     | _ => false)

/-- A collective instruction (R355, R356): the group record is read at its home as a coherent read; the request queues at collective
engine GPA[6] of the copy hart's column, where R109 puts the home in the column that owns the record (log entry 43).  The read comes after the
hart's own stores to the record (R197).  A data error of that read traps BUS_FAULT at the instruction, before the token check of R351, with
the record's GPA in XVAL: the model's choice, R109 and R356 do not say (log entry 99).  A record on another device is read over the fabric. -/
def collInstr (kind : Nat) (w z : BitVec 1) (k : BitVec 3) (b a d : BitVec 5) (s : State) : Out :=
  finish (
    if s.curSlot ≠ 6 then .trap .slot (cWord 0x31 (kind - 5) w z 0 k b a d) s
    else settled s fun s =>
      let g := gr s b
      let e := g.toNat / 64 % 2
      let put (l : List CReq) (c : Column) : Column := { c with coll := vput c.coll e l }
      let r := { mkReq kind w z 0 k b a d s with group := g, rank := (oxr s 3).toNat % 4096, total := 0 }
      let issue := fun (r : CReq) (ok : Bool) (s : State) => issueReq r ok (fun c => c.coll.toList.getD e []) put s
      let far := match targetOf s g.toNat with | .device v => some v | _ => none
      if !groupPlace s g || (oxr s 3).toNat / 4096 != 0 then issue r false s
      else if far.any fun v => !routeUp s (colOf s.curCore) v then .trap .busFault g s
      else if homeBarred s true g.toNat || inFlight s s.curCore g.toNat 64 || ((myCore s).wq.any fun e => meets e.gpa e.n g.toNat 64) || far.any fun v => !maySend s (colOf s.curCore) v 3 then .hold s
      else
        match ownerRead true g.toNat 64 (match far with | some v => useAllowance (colOf s.curCore) v 3 s | none => s) with
        | (none, s) => .trap .busFault g s
        | (some v, s) =>
          let r := { r with
            op := v / 2 ^ 16 % 256, ty := v / 2 ^ 24 % 256, rootOnly := v / 2 ^ 32 % 2 == 1, count := v % 2 ^ 16
            total := v / 2 ^ 64 % 2 ^ 64, bar := BitVec.ofNat 64 (v / 2 ^ 128) }
          issue r (groupOk s v r.rank) s)

/-- CREDUCE (R356). Contributes to a collective reduction. -/
def execCreduce (w z : BitVec 1) (k : BitVec 3) (b a d : BitVec 5) (s : State) : Out := collInstr 5 w z k b a d s
/-- CBCAST (R356). Takes part in a collective broadcast from rank 0. -/
def execCbcast (w z : BitVec 1) (k : BitVec 3) (b a d : BitVec 5) (s : State) : Out := collInstr 6 w z k b a d s

/-! ## Barrier objects (R100 to R102) -/

def BarObj.kind (o : BarObj) : Bool := o.mode.getLsbD 0
def BarObj.auto (o : BarObj) : Bool := o.mode.getLsbD 1

/-- Completion (R101): DONE and GEN, and the reload of AUTO in the same operation. -/
def BarObj.complete (o : BarObj) : BarObj :=
  let o := { o with gen := o.gen + 1, status := o.status ||| 1 }
  if o.auto then { o with pend := o.init, status := o.status &&& 0xFE } else o

/-- A contribution of n units (R101, R102): the object, and whether it completed. -/
def BarObj.take (o : BarObj) (n : Nat) : BarObj × Bool :=
  let p := o.pend.toNat
  if n = 0 then (o, false)
  else if p < n then
    let o' := { o with pend := 0, status := o.status ||| 2 }
    if p = 0 then (o', false) else (o'.complete, true)
  else if p = n then ({ o with pend := 0 }.complete, true)
  else ({ o with pend := BitVec.ofNat 64 (p - n) }, false)

/-- Initialise (R101): a zero count completes at once. -/
def BarObj.start (o : BarObj) (v : BitVec 64) (kind auto : Bool) : BarObj × Bool :=
  let o : BarObj := { o with init := v, pend := v, mode := (if kind then 1 else 0) ||| (if auto then 2 else 0), status := 0, oorcnt := 0, errcnt := 0 }
  if v = 0 then (o.complete, true) else (o, false)

/-- The status word `bwait` returns (R360). -/
def BarObj.result (o : BarObj) : BitVec 64 := o.gen.zeroExtend 64 ||| ((o.status &&& 7).zeroExtend 64 <<< 32)

/-- The harts parked in `bwait` on a completed object finish with its state (R101, R360): gd, and an acquire at scope 7. -/
def wakeBarrier (gpa : Nat) (o : BarObj) (s : State) : State :=
  let waits := s.cores.flatMap fun e => (List.finRange 8).filterMap fun k =>
    match (e.2.harts.get k).wait with
    | .barrier g d => if g = gpa then some (e.1, k, d) else none
    | _ => none
  waits.foldl (fun s (c, k, d) => actAs c k (fun s => done4 d o.result (acquire s)) s) s

/-- An operation on a barrier object, and what its completion brings (R101). -/
def barOp (gpa : Nat) (f : BarObj → BarObj × Bool) (s : State) : State :=
  let (o, fin) := f (barAt s gpa)
  let s := putBar gpa o s
  if fin then wakeBarrier (gpa / 64 * 64) o s else s

/-! ## Barrier instructions (R357 to R361) -/

/-- The object address of a barrier instruction, checked in the order of R357. -/
def barAddr (rights : BitVec 5) (va : BitVec 64) (s : State) : Res Nat :=
  if isVecHart s && !(myCore s).quiet then .hold s
  else if va.toNat % 64 ≠ 0 then .trap .misalign va s
  else (xlate rights va s).andThen fun (g, _) s =>
    if isBarrierGpa s g then .ok g s else .trap .busFault va s

/-- A barrier object of another device whose fabric route is missing answers with an error (R462), and so does one of a column whose core
bus failed (R76). -/
def barReach (va : BitVec 64) (g : Nat) (s : State) : Res Unit :=
  if degradedAt s g then .trap .busFault va s
  else
  match targetOf s g with
  | .device d => need (routeUp s (colOf s.curCore) d) .busFault va s
  | _ => .ok () s

/-- BINIT (R358). Initialises a barrier object and parks until it is performed, in the handler slot too: R394 does not name it. -/
def execBinit (f : BitVec 2) (b a : BitVec 5) (s : State) : Out :=
  finish (
    (barAddr needWr (gr s a) s).andThen fun g s =>
    (barReach (gr s a) g s).andThen fun _ s =>
      let p := newPkt s (.barInit (gr s b) (f.getLsbD 0) (f.getLsbD 1)) g (gr s a) (.omega 1)
      .hold (park (.reply p.id) (sendPkt s p)))

/-- BARRIVE (R359). Releases at scope 6 and sends one arrival to a barrier object. -/
def execBarrive (a : BitVec 5) (s : State) : Out :=
  finish ((barAddr needWr (gr s a) s).andThen fun g s =>
    (barReach (gr s a) g s).andThen fun _ s =>
    withRelease 6 s fun s =>
      let s := sendPkt s (newPkt s .barArrive g (gr s a) (.omega 1))
      .ok () (retire 4 (updMe s fun h => h.leave (destOf s s.curCore g))))

/-- BWAIT (R360). Parks until the object is DONE or its GEN changes, then acquires at scope 7.  In the handler slot it traps whatever the
object holds (R394, log entry 61).  The vector hart's acquire waits until its vector stores have left the write queue (R200, R208); the read of an object
of another device takes an allowance (R459). -/
def execBwait (b a d : BitVec 5) (s : State) : Out :=
  finish (orBlock (rWord 0x32 8 b a d) s fun s =>
    (barAddr needRd (gr s a) s).andThen fun g s =>
    (barReach (gr s a) g s).andThen fun _ s =>
    settled s fun s =>
      let o := barAt s g
      let c := colOf s.curCore
      if !mayReach s c g 1 then .hold s
      else
      let s := if (me s).wait = .barrier g d then s else reach c g 1 s
      if o.status.getLsbD 0 || o.gen != (gr s b).setWidth 32 then .ok () (done4 d o.result (acquire s))
      else .hold (park (.barrier g d) s))

/-- BQUERY (R361). Returns one word of a barrier object's image, at its place in arrival order: as a packet where requests travel, otherwise
once every operation that comes before it is performed. -/
def execBquery (b a d : BitVec 5) (s : State) : Out :=
  finish ((barAddr needRd (gr s a) s).andThen fun g s =>
    (barReach (gr s a) g s).andThen fun _ s =>
      let w := (gr s b).toNat % 8
      if s.split then
        let p := { newPkt s (.barQuery d w) g (gr s a) (.omega 1) with wants := true }
        .hold (updMe (sendPkt s p) fun h => { h with wait := .reply p.id, since := s.clock })
      else if barPending s g then .hold s
      else .ok () (done4 d (barWord (barAt s g) w) s))

end Sys2Proof.Machine
end

