-- ==== Sys2Proof/Machine/Engines.lean ====
section
/-!
DEFINITION. The steps of the copy and collective engines (R41, R86 to R98, R103 to R112, R353, R354), of the barrier units (R101,
R102), of the cache walker (R68, R70) and of the range compactor (R43, R44).
-/

namespace Sys2Proof.Machine

/-! ## Translation by an engine -/

/-- One translation of a request: its own 8 entries, then a search of the directory RDBASE named at issue (R41), whose lines the walker reads
at their home slices (R51). -/
def CReq.xl (r : CReq) (rights : BitVec 5) (va : BitVec 64) (s : State) : Xlat × CReq × State :=
  match rcLookup r.rc r.job va.toNat with
  | some (d, es) => (checkDesc s d rights (!r.user) va.toNat, { r with rc := es }, s)
  | none =>
    let h := hdrOf r.dir
    match walkFrom (colOf r.core) h va.toNat s with
    | none => (.header, r, s)
    | some t =>
      match searchDir s h va.toNat with
      | .err => (.fault .busFault, r, t)
      | .stall => (.lock, r, t)
      | .miss => (if dirEdit s h then .header else .fault .rangeMiss, r, t)
      | .desc d => (checkDesc s d rights (!r.user) va.toNat, { r with rc := rcFill 8 r.rc { job := r.job, desc := d } }, t)

/-- A piece of a span within one 64-byte block: GPA, bytes, performed as a coherent access (R92, R93). -/
structure Piece where
  gpa : Nat
  n : Nat
  coh : Bool
  /-- The column whose router it leaves by. -/
  col : Fin 8
deriving DecidableEq, Repr

/-- The translation of a span: its pieces, a fault, or a stall at a locked range (R45, R105). -/
inductive Span where
  | ok (l : List Piece) (r : CReq) (s : State)
  | fault (c : Cause) (r : CReq) (s : State)
  | stall (s : State)

/-- The core number that stands for an engine or the host at a bank: their accesses come over the mesh (R120). -/
def noCore : Nat := 2048

/-- What a piece at a GPA waits for: an allowance towards another device (R459), a held register write (R363), a bank that is being saved or whose
turn is another's (R120, R406), or a home under a persistent request (R64). -/
def pieceWaits (r : CReq) (coh : Bool) (g : Nat) (s : State) : Bool :=
  (match targetOf s g with
   | .device d => routeUp s (colOf r.core) d && !maySend s (colOf r.core) d 3
   | .priv c off => aliasHeld s c off
   | .bank c w _ => bankTaken s noCore c w
   | _ => false) || bankHeld s r.core g || homeBarred s coh g

/-- The pieces of n bytes from va on; fuel counts blocks. -/
def CReq.span (rights : BitVec 5) : Nat → BitVec 64 → Nat → List Piece → CReq → State → Span
  | 0, _, _, l, r, s => .ok l r s
  | f + 1, va, n, l, r, s =>
    if n = 0 then .ok l r s
    else
      let m := min n (64 - va.toNat % 64)
      match r.xl rights va s with
      | (.fault c, r, s) => .fault c r s
      | (.lock, _, s) | (.header, _, s) => .stall s
      | (.ok g cls _, r, s) =>
        let g := redirect s r.job g
        if isPrivReg s g && r.user then .fault .priv r s
        else if pieceWaits r (cls == 0) g s then .stall s
        else CReq.span rights f (va + BitVec.ofNat 64 m) (n - m) (l ++ [{ gpa := g, n := m, coh := cls == 0, col := colOf r.core }]) r s

def CReq.pieces (r : CReq) (rights : BitVec 5) (va : BitVec 64) (n : Nat) (s : State) : Span :=
  CReq.span rights (n / 64 + 2) va n [] r s

/-- Why an engine's access of a piece is not performed (R105). -/
def pieceStop (s : State) (p : Piece) : Option Cause :=
  match targetOf s p.gpa with
  | .bank c w _ => bankCheck s c w
  | .unmapped => some .busFault
  | .device d => if routeUp s p.col d then none else some .busFault
  | _ => none

/-- A piece towards another device uses a send allowance of the copies' class (R459); one of a bank takes its turn there (R120). -/
def passPiece (p : Piece) (s : State) : State :=
  match targetOf s p.gpa with
  | .device d => useAllowance p.col d 3 s
  | .bank c w _ => takeBank noCore c w s
  | _ => s

/-- A cache way of the column owns the line dirty: the home collects it whole before a coherent write (R65, R93). -/
def ownedDirty (s : State) (gpa : Nat) : Bool :=
  match targetOf s gpa with
  | .dram col _ => (holders s col (gpa / 64)).any fun e => e.2.owner && e.2.dirty
  | _ => false

/-- Why the write of a piece is not performed: that, or an error of its target (R73, R103, R253). -/
def writeStop (s : State) (p : Piece) : Option Cause :=
  let priv : Option Cause := if p.n = 8 then none else some .busFault
  match pieceStop s p with
  | some c => some c
  | none =>
    if degradedAt s p.gpa then some .busFault
    else
    match targetOf s p.gpa with
    | .dram _ _ => if p.n != 64 && lineBad s p.gpa && !(p.coh && ownedDirty s p.gpa) then some .busFault else none
    | .barrier _ _ => some .busFault
    | .priv _ _ => priv
    | .device _ =>
      (match farTarget p.gpa with
       | .dram _ _ | .bank _ _ _ | .service _ _ => none
       | .priv _ _ => priv
       | _ => some .busFault)
    | _ => none

/-- The bytes of a list of pieces as one number; a fault ends the read. -/
def readPieces : List Piece → Nat → Nat → State → Except Cause Nat × State
  | [], _, v, s => (.ok v, s)
  | p :: l, sh, v, s =>
    match pieceStop s p with
    | some c => (.error c, s)
    | none =>
      match ownerRead p.coh p.gpa p.n (passPiece p s) with
      | (none, s) => (.error .busFault, s)
      | (some x, s) => readPieces l (sh + 8 * p.n) (v + x * 2 ^ sh) s

/-- A number's bytes written to a list of pieces; a fault of any of them leaves all unwritten (R105), the data error it met logged (R74). -/
def writePieces (l : List Piece) (v : Nat) (s : State) : Option Cause × State :=
  match l.find? fun p => (writeStop s p).isSome with
  | some p => (writeStop s p, match targetOf s p.gpa with | .dram col off => (homeRead col off p.gpa true s).2 | _ => s)
  | none =>
    (none, (l.foldl (fun (t : Nat × State) p =>
      (t.1 / 2 ^ (8 * p.n), (ownerWrite p.coh p.gpa p.n (t.1 % 2 ^ (8 * p.n)) (passPiece p t.2)).2)) (v, s)).2)

/-! ## Elements -/

/-- An element ready to be performed: its pieces on both sides, addresses, length, and whether its index was out of range (R91). -/
structure Elem where
  idx : Nat
  /-- Elements it counts for: bytes of a `copy`, otherwise 1. -/
  count : Nat
  src : List Piece
  dst : List Piece
  sva : BitVec 64
  dva : BitVec 64
  n : Nat
  oor : Bool
deriving DecidableEq, Repr

inductive Plan where
  | ok (e : Elem) (r : CReq) (s : State)
  | fault (c : Cause) (va : BitVec 64) (r : CReq) (s : State)
  | stall (s : State)

/-- Translation of a source and a destination span, in that order; none is made for a missing table row (R91), and none for the registers that
`copyt` writes. -/
def CReq.both (r : CReq) (e : Elem) (s : State) : Plan :=
  match (if e.oor && r.kind == 2 then Span.ok [] r s else r.pieces needRd e.sva e.n s) with
  | .stall s => .stall s
  | .fault c r s => .fault c e.sva r s
  | .ok l r s =>
    match (if (e.oor && r.kind == 3) || r.kind == 4 then Span.ok [] r s else r.pieces needWr e.dva e.n s) with
    | .stall s => .stall s
    | .fault c r s => .fault c e.dva r s
    | .ok m r s => .ok { e with src := l, dst := m } r s

/-- The next element from place j on, at most lim elements of it (R89, R350). -/
def CReq.plan (r : CReq) (j lim : Nat) (s : State) : Plan :=
  let e : Elem := { idx := j, count := 1, src := [], dst := [], sva := 0, dva := 0, n := r.rowb, oor := false }
  let at' (b x : BitVec 64) (k : Nat) : BitVec 64 := b + x * BitVec.ofNat 64 k
  let row : BitVec 64 := BitVec.ofNat 64 r.rowb
  if r.kind = 0 then
    let a := r.src + BitVec.ofNat 64 j
    let b := r.dst + BitVec.ofNat 64 j
    let n := min (min (64 - a.toNat % 64) (64 - b.toNat % 64)) lim
    r.both { e with sva := a, dva := b, n := n, count := n } s
  else if r.kind = 1 then r.both { e with sva := at' r.src r.sstride j, dva := at' r.dst r.dstride j } s
  else if r.kind = 4 then r.both { e with sva := at' r.src row j } s
  else
    let w := if r.wide then 8 else 4
    let la := r.list + BitVec.ofNat 64 (j * w)
    match r.pieces needRd la w s with
    | .stall s => .stall s
    | .fault c r s => .fault c la r s
    | .ok l r s =>
      match readPieces l 0 0 s with
      | (.error c, s) => .fault c la r s
      | (.ok i, s) =>
        let tab (b : BitVec 64) := at' b r.sstride i
        let oor := decide (r.nrows ≤ i)
        if r.kind = 2 then r.both { e with sva := tab r.src, dva := at' r.dst row j, oor := oor } s
        else r.both { e with sva := at' r.src row j, dva := tab r.dst, oor := oor } s

/-- The 16-byte pieces of a row permuted (R90): row j of the copy. -/
def swizzle (j rowb v : Nat) : Nat :=
  (List.range (rowb / 16)).foldl (fun t i =>
    let p := i % 16
    t + v / 2 ^ (128 * i) % 2 ^ 128 * 2 ^ (128 * (i - p + (p ^^^ (j % 16))))) 0

/-- Encoded size of a destination line of n bytes (R112). -/
def lineSize (v n : Nat) : Nat :=
  let bytes := (List.range n).map fun i => v / 2 ^ (8 * i) % 256
  let nz := bytes.countP (· != 0)
  if n < 64 then 1 + n
  else if nz = 0 then 1
  else if bytes.all (· == bytes.headD 0) then 2
  else if nz ≤ 55 then 9 + nz
  else 65

/-- Column of this device an address lies in, if any. -/
def gpaColumn (s : State) (gpa : Nat) : Option Nat :=
  match targetOf s gpa with
  | .dram c _ => some c.val
  | .bank c _ _ => some (c / 256)
  | _ => none

/-- A port towards another device negotiated compression, bit 1 of FEAT (R112, R460). -/
def portCompresses (s : State) (d : Nat) (col : Fin 8) : Bool :=
  let ports := tabGet 0 (colAt s col).route d
  (List.range 16).any fun p =>
    ports.getLsbD p && (vget s.fabric.tflstat p).extractLsb' 62 2 == 1 && (vget s.fabric.tflstat p).getLsbD 1

/-- CZIN and CZOUT of the sending column for one piece of destination bytes (R112, R113); which of the two engines of the column takes
it is open (log entry 4). -/
def countLine (col n v : Nat) (s : State) : State :=
  let (b, s) := takeChoice s
  let z := if b then 1 else 0
  updCol s ⟨col % 8, Nat.mod_lt _ (by decide)⟩ fun c => { c with
    czin := vput c.czin z (vget c.czin z + BitVec.ofNat 64 n), czout := vput c.czout z (vget c.czout z + BitVec.ofNat 64 (lineSize v n)) }

/-- A line of n bytes crosses from one column to another, and on from there to where a GPA lies: each link or compressing port it crosses takes
it encoded (R112). -/
def crossLine (from' here gpa n v : Nat) (s : State) : State :=
  let s := if from' ≠ here then countLine from' n v s else s
  match targetOf s gpa with
  | .device d => if portCompresses s d ⟨here % 8, Nat.mod_lt _ (by decide)⟩ then countLine here n v s else s
  | _ => if (gpaColumn s gpa).getD here ≠ here then countLine here n v s else s

/-- The destination line that a request is assembling leaves, whole or in part (R112). -/
def CReq.flushLine (r : CReq) (s : State) : CReq × State :=
  if r.zn = 0 then (r, s)
  else ({ r with zn := 0, zv := 0 }, crossLine r.zfrom (colOf r.core).val r.zgpa r.zn r.zv s)

/-- n bytes for destination address va, from a column and for where a GPA lies, are gathered into 64-byte destination lines, which leave whole
(R112); fuel counts lines. -/
def CReq.lineBytes (from' gpa : Nat) : Nat → Nat → Nat → Nat → CReq → State → CReq × State
  | 0, _, _, _, r, s => (r, s)
  | f + 1, va, n, v, r, s =>
    if n = 0 || !r.z then (r, s)
    else
      let (r, s) := if r.zfrom ≠ from' then r.flushLine s else (r, s)
      let m := min n (64 - va % 64)
      let r := { r with zn := r.zn + m, zv := r.zv + v % 2 ^ (8 * m) * 2 ^ (8 * r.zn), zfrom := from', zgpa := gpa }
      let (r, s) := if (va + m) % 64 = 0 then r.flushLine s else (r, s)
      CReq.lineBytes from' gpa f (va + m) (n - m) (v / 2 ^ (8 * m)) r s

/-- The column that byte o of a list of pieces lies in, if any. -/
def columnAt (s : State) : List Piece → Nat → Option Nat
  | [], _ => none
  | p :: l, o => if o < p.n then gpaColumn s p.gpa else columnAt s l (o - p.n)

/-- The bytes v of a list of pieces for destination address va cross, from the columns of the source pieces or from one column. -/
def CReq.crossPieces (from' : Nat → Nat) : List Piece → Nat → Nat → Nat → CReq → State → CReq × State
  | [], _, _, _, r, s => (r, s)
  | p :: l, o, va, v, r, s =>
    let (r, s) := r.lineBytes (from' o) p.gpa (p.n / 64 + 2) va p.n (v % 2 ^ (8 * p.n)) s
    CReq.crossPieces from' l (o + p.n) (va + p.n) (v / 2 ^ (8 * p.n)) r s

/-- Compression of an element's destination lines on the links they cross: from the source's column to the engine's, and from the engine's on.
The bytes of a `copy` are gathered into whole destination lines; a row's last line ends with the row (R112). -/
def compress (r : CReq) (e : Elem) (v : Nat) (s : State) : CReq × State :=
  if !r.z then (r, s)
  else
    let here := (colOf r.core).val
    let (r, s) := r.crossPieces (fun o => (columnAt s e.src o).getD here) e.dst 0 e.dva.toNat v s
    if r.kind = 0 && !decide (r.total ≤ e.idx + e.n) then (r, s) else r.flushLine s

/-- A place of the vector registers by the lanes of a request's beginning, where it is now: none when its lane has left (R98, R354).  A gang's
lanes stand member by member (R137), and each member keeps its lowest ones. -/
def CReq.lanePlace (r : CReq) (k : Nat) (s : State) : Option Nat :=
  let g := max 1 r.glanes
  let q := coreAt s r.core
  let m := k % g / max 1 r.lanes
  let i := k % g % max 1 r.lanes
  if i < q.lanes && decide (m * q.lanes + i < q.glanes) then some (k / g * q.glanes + m * q.lanes + i) else none

/-- Row j of `copyt` written to the vector group (R353, R354): every lane, by the GLANES of the request's beginning, is checked before an
element is written. -/
def putColumn (r : CReq) (e : Elem) (v : Nat) (s : State) : Option Cause × State :=
  let q := coreAt s r.core
  let sew := vtSew r.vt
  let code := match r.fmt with | some b => bfmtCode b | none => 0x1F
  let n := rowElems code r.rowb sew
  let place (t : Nat) : Option Nat := r.lanePlace (e.idx + t * r.rows) s
  let gl := max 1 q.glanes
  let ts := List.range n
  if ts.any fun t => (place t).isNone then (some .wayMode, s)
  else if ts.any fun t => laneOff s r.core ((place t).getD 0 % gl) then (some .layerOff, s)
  else
    (none, ts.foldl (fun s t =>
      let w := if code = 0x1F then sew else codeWidth code
      let (x, fl) := codeIn code sew (v / 2 ^ (w * t) % 2 ^ w) ((r.scales.getD e.idx []).getD (t / 24) 0)
      let s := elemPut r.core sew r.vreg.toNat ((place t).getD 0) x s
      updCore s r.core fun q => { q with vec := orVflags fl q.vec }) s)

/-- Rows of one word that a batch of `copygath` reads by small gathers, one for each home slice: by GPA, none for a word that met an error (R54). -/
def gatherRows (r : CReq) (l : List Elem) (s : State) : List (Nat × Option (BitVec 64)) × State :=
  if r.kind ≠ 2 ∨ r.rowb ≠ 8 then ([], s)
  else
    let ps := l.filterMap fun e =>
      match e.src with
      | [p] => if !e.oor && p.gpa % 8 == 0 && (sliceHome s p.gpa).isSome then some p else none
      | _ => none
    (ps.map fun p => (sliceHome s p.gpa, p.coh)).dedup.foldl (fun t k =>
      let (g, s) := ownerGather k.2 8 ((ps.filter fun p => (sliceHome s p.gpa, p.coh) == k).map (·.gpa)) t.2
      (t.1 ++ g, s)) ([], s)

/-- The source bytes of an element: zeros for a missing table row (R91), what a small gather brought, or its pieces read. -/
def readSource (got : List (Nat × Option (BitVec 64))) (e : Elem) (s : State) : Except Cause Nat × State :=
  if e.oor then (.ok 0, s)
  else
    match e.src.head?.bind fun p => got.find? fun x => x.1 == p.gpa with
    | some (_, some v) => (.ok v.toNat, s)
    | some (_, none) => (.error .busFault, s)
    | none => readPieces e.src 0 0 s

/-- An element performed: every byte of its source is read, then its destination is written (R105). -/
def performElem (got : List (Nat × Option (BitVec 64))) (r : CReq) (e : Elem) (s : State) : Except (Cause × BitVec 64) CReq × State :=
  match readSource got e s with
  | (.error c, s) => (.error (c, e.sva), s)
  | (.ok v, s) =>
    if r.kind = 4 then
      match putColumn r e v s with
      | (some c, s) => (.error (c, e.sva), s)
      | (none, s) => (.ok r, s)
    else
      let v := if r.swz then swizzle e.idx r.rowb v else v
      match writePieces e.dst v s with
      | (some c, s) => (.error (c, e.dva), s)
      | (none, s) => let (r, s) := compress r e v s; (.ok r, s)

/-! ## Requests of an engine -/

/-- Request lists of a column: copy engines 0 to 15, collective engines 16 and 17. -/
def engList (c : Column) (e : Nat) : List CReq := if e < 16 then c.eng.toList.getD e [] else c.coll.toList.getD (e - 16) []
def putEng (col : Fin 8) (e : Nat) (l : List CReq) (s : State) : State :=
  updCol s col fun c => if e < 16 then { c with eng := vput c.eng e l } else { c with coll := vput c.coll (e - 16) l }

/-- A request replaced in its list. -/
def putReq (col : Fin 8) (e : Nat) (r : CReq) (s : State) : State :=
  putEng col e ((engList (colAt s col) e).map fun x => if x.id = r.id then r else x) s

/-- A request leaves its list, counted as completed or stopped (R113); harts stalled on a full queue try again. -/
def endReq (col : Fin 8) (e : Nat) (r : CReq) (s : State) : State :=
  let s := putEng col e ((engList (colAt s col) e).filter fun x => x.id != r.id) s
  let s := if e < 16 then
      updCol s col fun c =>
        let n := vget c.cereqs e
        { c with cereqs := vput c.cereqs e (if n = 0xFFFFFFFF then n else n + 1) }
    else s
  wakeAll s fun w => w == .queue

/-- Every request of a column. -/
def allReqs (c : Column) : List CReq := c.eng.toList.flatten ++ c.coll.toList.flatten

/-- A token's state changes; waits on it are tried again (R94, R269). -/
def setToken (core : Nat) (n : Nat) (st : BitVec 2) (s : State) : State :=
  let left := (coreAt s core).tok.toList.getD n 0 == 1 && st != 1
  let s := updCore s core fun q => { q with tok := vput q.tok n st }
  let s := updCore s core fun q => q.mapHarts fun _ h => match h.wait with | .tokens _ => h.wake | _ => h
  if left then noteEvent core 8 s else s

/-- A request stops at its next element (R94, R105). -/
def stopReq (col : Fin 8) (e : Nat) (r : CReq) (c : Cause) (va : BitVec 64) (s : State) : State :=
  let n := r.tok.val
  let keep (x : CReq) : Bool := x.begun || x.core != r.core || x.tok != r.tok || decide (x.id ≤ r.id)
  let s := updCol s col fun k => { k with eng := k.eng.map fun l => l.filter keep, coll := k.coll.map fun l => l.filter keep }
  let s := updCore s r.core fun q => { q with
    cstart := vput q.cstart n ((causeCode c).zeroExtend 64 <<< 56 ||| BitVec.ofNat 64 (r.next % 2 ^ 48))
    cpc := vput q.cpc n (r.pc.zeroExtend 64), tokVa := vput q.tokVa n va }
  setToken r.core n 2 (endReq col e r s)

/-- Every contribution that a request has sent is accepted (R94, R441). -/
def CReq.accepted (s : State) (r : CReq) : Bool :=
  !(s.net.any fun p => p.core == noCore && p.va == BitVec.ofNat 64 r.id && (match p.kind with | .barCredit _ _ | .barArrive => true | _ => false))

/-- A request meets a fault at its next element (R105): what it has assembled of a line has left (R112), and it stops once what it has credited is
performed (R441). -/
def failReq (col : Fin 8) (e : Nat) (r : CReq) (c : Cause) (va : BitVec 64) (s : State) : State :=
  let (r, s) := r.flushLine s
  if r.accepted s then stopReq col e r c va s else putReq col e { r with failed := some (c, va) } s

/-- A queued request may begin (R86, R92, R94, R95): fewer than 4 active, earlier requests of its token done, its wait mask idle, every
earlier store of its copy hart acknowledged. -/
def mayBegin (s : State) (col : Fin 8) (e : Nat) (r : CReq) : Bool :=
  let q := coreAt s r.core
  decide ((engList (colAt s col) e).countP (·.begun) < 4) && !stilledAt s col r.job &&
    !((allReqs (colAt s col)).any fun x => x.core == r.core && x.tok == r.tok && decide (x.id < r.id)) &&
    ((List.range 8).all fun n => !r.waitMask.getLsbD n || n == r.tok.val || (q.tok.toList.getD n 0) == 0) &&
    nothingOut s r.core 6

/-- What a `copyt` takes when it begins: VTYPE, and of a formatted bank BFMT and the scale bytes (R353).  The format of a bank of another device
is not told by R125: the model takes such a bank as raw, code 0x1F (log entry 100). -/
def beginCopyt (r : CReq) (s : State) : Plan :=
  let r := { r with vt := (coreAt s r.core).vec.vtype }
  let e : Elem := { idx := r.next, count := 0, src := [], dst := [], sva := r.src, dva := 0, n := 0, oor := false }
  match r.xl needRd r.src s with
  | (.fault c, r, s) => .fault c r.src r s
  | (.lock, _, s) | (.header, _, s) => .stall s
  | (.ok g _ _, r, s) =>
    match targetOf s (redirect s r.job g) with
    | .bank c w b =>
      let x := vget (coreAt s c).bfmt w
      let k := bfmtCode x
      if k = 0x1F then .ok e r s
      else
        let blocks := if codeScaled k then codeRow k / 24 else 0
        .ok e { r with
          fmt := some x
          scales := (List.range r.rows).map fun i => (List.range blocks).map fun j => bankByte s c w (scaleOff x (b / 384 + i) j) } s
    | _ => .ok e r s

/-- The home engine of a group: column and engine (R109).  That of another device's record is kept at the engine of the same numbers here,
apart from this device's by the record's GPA: the model holds it as far as this device's participants act on it (log entry 89). -/
def homeOf (g : BitVec 64) : Fin 8 × Nat := (⟨gpaCol g.toNat, Nat.mod_lt _ (by decide)⟩, g.toNat / 64 % 2)

def contribsOf (s : State) (h : Fin 8 × Nat) : List Contrib := (colAt s h.1).contribs.toList.getD h.2 []
def putContribs (h : Fin 8 × Nat) (l : List Contrib) (s : State) : State :=
  updCol s h.1 fun c => { c with contribs := vput c.contribs h.2 l }

/-- A contribution or kept result is of a request's rank in its group. -/
def Contrib.fits (r : CReq) (x : Contrib) : Bool := x.group == r.group && x.rank == r.rank

/-- A result that a request comes back for: that of a participant that stopped at this element of its destination (R107, R111). -/
def keptFor (r : CReq) (l : List Contrib) : Option Contrib := l.find? fun x => x.kept && x.fits r && x.elem == r.next

/-- The contribution of a request joins those of its group at their home when the request begins, so that a later one of its rank belongs to the next
round (R111): in the place of one whose request stopped, with the elements sent before, or as a new one. -/
def joinContrib (r : CReq) (s : State) : State :=
  let h := homeOf r.group
  let l := contribsOf s h
  let live (id : Nat) : Bool := s.cols.toList.any fun c => c.coll.toList.flatten.any fun x => x.id == id
  if r.kind < 5 || (l.any fun x => x.req == r.id && !x.kept) || (keptFor r l).isSome then s
  else
    match l.find? fun x => x.fits r && !x.complete && !x.kept && !live x.req with
    | some x =>
      putContribs h (l.map fun y => if y.req = x.req ∧ !y.kept then { y with req := r.id, data := y.data.take r.next } else y) s
    | none =>
      putContribs h (l ++ [{ group := r.group, rank := r.rank, req := r.id, data := [], complete := false, kept := false, elem := 0 }]) s

/-- REQUEST_BEGINS (R86). The oldest queued request of an engine (16, 17: the collective engines) leaves the queue. -/
def execRequestBegins (col e : Nat) (s : State) : Out :=
  if 8 ≤ col ∨ 18 ≤ e then .fault .noSuchUnit
  else
    let k : Fin 8 := ⟨col % 8, Nat.mod_lt _ (by decide)⟩
    match (engList (colAt s k) e).find? fun r => !r.begun with
    | none => .next s
    | some r =>
      if !mayBegin s k e r then .next s
      else
        let go (r : CReq) (s : State) : State :=
          wakeAll (joinContrib r (putReq k e { r with begun := true, glanes := (coreAt s r.core).glanes, lanes := (coreAt s r.core).lanes } s))
            fun w => w == .queue
        if r.kind = 4 then
          match beginCopyt r s with
          | .stall s => .next s
          | .fault c va r s => .next (stopReq k e r c va s)
          | .ok _ r s => .next (go r s)
        else .next (go r s)

/-- Chunk bits of the elements from lo to hi - 1 (R97, R98): a chunk's bit is set once its last element is performed, at the lane it had when
the request began; a bit whose lane has left, or is not powered, is dropped. -/
def setChunks (r : CReq) (lo hi : Nat) (s : State) : State :=
  match r.mask with
  | none => s
  | some (c, v) =>
    let n := r.chunk c
    let first := lo / n
    let last := if hi = r.total then (hi + n - 1) / n else hi / n
    ((List.range (last - first)).map (first + ·)).foldl (fun s k =>
      match r.lanePlace k s with
      | some p =>
        let gl := (coreAt s r.core).glanes
        if 32 * gl ≤ p || laneOff s r.core (p % max 1 gl) then s else elemPut r.core 1 v.toNat p 1 s
      | none => s) s

/-- Lines of the core's L0 data cache that performed elements of a request with a chunk mask have overwritten: an instruction that reads the mask
register drops them (R99). -/
def noteChunks (r : CReq) (l : List Elem) (s : State) : State :=
  match r.mask with
  | none => s
  | some (_, v) =>
    let lines := (l.flatMap fun e => e.dst.map fun p => p.gpa / 64).dedup
    updCore s r.core fun q => { q with
      chunkLines := q.chunkLines ++ (lines.filter fun ln => (tabGet [] q.l0d (l0dSet ln)).any fun x => x.1 == ln).map fun ln => (v, ln) }

/-- Elements planned and performed of a batch, and how it ended. -/
inductive Ended where
  | whole
  | stalled
  | fault (c : Cause) (va : BitVec 64)

/-- The translations of a batch, before any byte of it is written (R89). -/
def planBatch (stop : Nat) : Nat → Nat → CReq → State → List Elem → List Elem × Ended × CReq × State
  | 0, _, r, s, l => (l, .whole, r, s)
  | f + 1, j, r, s, l =>
    if stop ≤ j then (l, .whole, r, s)
    else
      match r.plan j (stop - j) s with
      | .stall s => (l, .stalled, r, s)
      | .fault c va r s => (l, .fault c va, r, s)
      | .ok e r s => planBatch stop f (j + e.count) r s (l ++ [e])

/-- What a batch has done: the next element, bytes credited, bytes written, rows out of range (R91, R104, R113). -/
structure Tally where
  next : Nat
  bytes : Nat
  written : Nat
  oor : Nat

/-- The planned elements performed in order, until one fails. -/
def performBatch (got : List (Nat × Option (BitVec 64))) : List Elem → CReq → Tally → State → CReq × Tally × Option (Cause × BitVec 64) × State
  | [], r, t, s => (r, t, none, s)
  | e :: l, r, t, s =>
    match performElem got r e s with
    | (.error x, s) => (r, t, some x, s)
    | (.ok r, s) =>
      let written := if e.oor && r.kind == 3 then t.written else t.written + e.n
      let oor := if e.oor then t.oor + 1 else t.oor
      performBatch got l r { next := e.idx + e.count, bytes := t.bytes + e.n, written := written, oor := oor } s

/-- Elements of a batch (R89). -/
def batchSize (kind : Nat) : Nat := if kind = 0 then 4096 else if kind = 2 ∨ kind = 3 then 8 else 1

/-- Whether a barrier object counts arrivals. -/
def countsArrivals (s : State) (gpa : Nat) : Bool := gpa == 0 || (barAt s gpa).kind

/-- One batch of a copy request (R89, R104, R105). -/
def copyBatch (col : Fin 8) (e : Nat) (r : CReq) (s : State) : State :=
  let stop := min r.total (r.next + batchSize r.kind)
  let (l, how, r, s) := planBatch stop 4200 r.next r s []
  let (got, s) := gatherRows r l s
  let (r, t, err, s) := performBatch got l r { next := r.next, bytes := 0, written := 0, oor := 0 } s
  let r' := { r with next := t.next, done := decide (r.total ≤ t.next) }
  let s := setChunks r r.next t.next (noteChunks r l s)
  let s := updCol s col fun c => { c with cebytes := vput c.cebytes e (vget c.cebytes e + BitVec.ofNat 64 t.written) }
  let s := if t.bytes = 0 then s else sendContribution (.barCredit t.bytes t.oor) r.bar.toNat r.id s
  let s := if r'.done && countsArrivals s r.bar.toNat then sendContribution .barArrive r.bar.toNat r.id s else s
  match err, how with
  | some (c, va), _ => failReq col e r' c va s
  | none, .fault c va => failReq col e r' c va s
  | none, _ => putReq col e r' s

/-! ## Collectives (R109 to R111) -/

/-- The record is this device's own. -/
def ownGroup (s : State) (g : BitVec 64) : Bool := gpaDev g.toNat == s.fabric.dev.toNat

/-- What the way of a participant to its group's home asks of the fabric, for another device's (R459, R462): nothing, an allowance that is there,
one that is not yet, or a port. -/
def groupWay (s : State) (r : CReq) : Option (Option Cause) :=
  let d := gpaDev r.group.toNat
  if ownGroup s r.group then none
  else if !routeUp s (colOf r.core) d then some (some .busFault)
  else if !maySend s (colOf r.core) d 3 then some none
  else none

/-- A packet of a participant uses its allowance. -/
def useGroupWay (r : CReq) (s : State) : State :=
  if ownGroup s r.group then s else useAllowance (colOf r.core) (gpaDev r.group.toNat) 3 s

/-- Whether a participant sends elements: every rank of `creduce`, rank 0 of `cbcast` (R356). -/
def CReq.sends (r : CReq) : Bool := r.kind == 5 || r.rank == 0
/-- Whether a participant's destination is written. -/
def CReq.receives (r : CReq) : Bool := r.kind == 6 || !r.rootOnly || r.rank == 0

/-- The elements a participant has read join its contribution (R111). -/
def addContrib (col : Fin 8) (e : Nat) (r : CReq) (xs : List (BitVec 64)) (next : Nat) (s : State) : State :=
  let h := homeOf r.group
  let s := joinContrib r s
  let s := putContribs h ((contribsOf s h).map fun x =>
    if x.req = r.id ∧ !x.kept then { x with data := x.data ++ xs, complete := decide (r.total ≤ next) || !r.sends } else x) s
  let s := updCol s col fun c =>
    { c with clelems := vput c.clelems (e - 16) (vget c.clelems (e - 16) + BitVec.ofNat 64 xs.length) }
  putReq col e { r with next := next } s

/-- n elements read at a participant's source and sent (R111): nothing at a stall; otherwise the state after, or the fault.  Their lines cross from the
source's column to the engine's and on to the home's (R112, R355). -/
def sendElems (col : Fin 8) (e : Nat) (r : CReq) (n : Nat) (s : State) : Except (Cause × State) State :=
  let w := typeBytes r.ty
  match r.pieces needRd (r.src + BitVec.ofNat 64 (r.next * w)) (n * w) s with
  | .stall s => .ok s
  | .fault c _ s => .error (c, s)
  | .ok l r s =>
    match readPieces l 0 0 s with
    | (.error c, s) => .error (c, s)
    | (.ok v, s) =>
      let xs := (List.range n).map fun i => BitVec.ofNat 64 (v / 2 ^ (8 * w * i) % 2 ^ (8 * w))
      let here := (colOf r.core).val
      let (r, s) := r.crossPieces (fun o => (columnAt s l o).getD here) (l.map fun p => { p with gpa := r.group.toNat }) 0
        (r.dst.toNat + r.next * w) v (useGroupWay r s)
      let (r, s) := if r.total ≤ r.next + n then r.flushLine s else (r, s)
      .ok (addContrib col e r xs (r.next + n) (putReq col e r s))

/-- Elements sent by a participant (R111): one batch, cut to one element where the batch faults, so that the request stops at the element whose
access faulted, with the address of it (R105, R106). -/
def sendBatch (col : Fin 8) (e : Nat) (r : CReq) (s : State) : State :=
  let w := typeBytes r.ty
  if !r.sends then addContrib col e r [] r.total (useGroupWay r s)
  else
    match sendElems col e r (min (r.total - r.next) (4096 / w)) s with
    | .ok s => s
    | .error _ =>
      match sendElems col e r 1 s with
      | .ok s => s
      | .error (c, s) => failReq col e r c (r.src + BitVec.ofNat 64 (r.next * w)) s

/-- n elements of a result written to a participant's destination (R111).  Their lines cross from the home's column to the engine's and on from there
(R112, R355). -/
def putElems (col : Fin 8) (e : Nat) (r : CReq) (res : List (BitVec 64)) (n : Nat) (s : State) : Except (Cause × State) State :=
  let w := typeBytes r.ty
  let va := r.dst + BitVec.ofNat 64 (r.wrote * w)
  let v := ((res.drop r.wrote).take n).zipIdx.foldl (fun t x => t + x.1.toNat % 2 ^ (8 * w) * 2 ^ (8 * w * x.2)) 0
  match r.pieces needWr va (n * w) s with
  | .stall s => .ok s
  | .fault c _ s => .error (c, s)
  | .ok l r s =>
    match writePieces l v s with
    | (some c, s) => .error (c, s)
    | (none, s) =>
      let wrote := r.wrote + n
      let home := if ownGroup s r.group then (homeOf r.group).1.val else (colOf r.core).val
      let (r, s) := r.crossPieces (fun _ => home) l 0 va.toNat v s
      let (r, s) := if r.total ≤ wrote then r.flushLine s else (r, s)
      let s := putReq col e { r with wrote := wrote, done := decide (r.total ≤ wrote) } s
      .ok (if r.total ≤ wrote then sendContribution .barArrive r.bar.toNat r.id s else s)

/-- A participant's destination is written, one batch, cut to one element where the batch faults.  A fault stops it at that element: its ELEM counts
the elements written and XVAL is the address of it, and its result is kept for the re-execution (R105, R106, R111; log entries 44 and 101). -/
def receiveBatch (col : Fin 8) (e : Nat) (r : CReq) (res : List (BitVec 64)) (s : State) : State :=
  let w := typeBytes r.ty
  let h := homeOf r.group
  let keep (s : State) : State :=
    putContribs h (contribsOf s h ++ [{ group := r.group, rank := r.rank, req := r.id, data := res, complete := true, kept := true, elem := r.wrote }]) s
  match putElems col e r res (min (r.total - r.wrote) (4096 / w)) s with
  | .ok s => s
  | .error _ =>
    match putElems col e r res 1 s with
    | .ok s => s
    | .error (c, s) => failReq col e { r with next := r.wrote } c (r.dst + BitVec.ofNat 64 (r.wrote * w)) (keep s)

/-- One batch of a collective request. -/
def collBatch (col : Fin 8) (e : Nat) (r : CReq) (s : State) : State :=
  match r.result with
  | some res => receiveBatch col e r res s
  | none =>
    let h := homeOf r.group
    match keptFor r (contribsOf s h) with
    | some x =>
      putReq col e { r with result := some x.data, wrote := r.next, next := r.total } (putContribs h ((contribsOf s h).erase x) s)
    | none =>
      if (contribsOf s h).any fun x => x.req == r.id && x.complete then s
      else
        match groupWay s r with
        | some (some c) => failReq col e r c (r.src + BitVec.ofNat 64 (r.next * typeBytes r.ty)) s
        | some none => s
        | none => sendBatch col e r s

/-- The address of a request's next access. -/
def CReq.nextVa (r : CReq) : BitVec 64 :=
  let at' (b x : BitVec 64) : BitVec 64 := b + x * BitVec.ofNat 64 r.next
  if r.kind = 0 then at' r.src 1
  else if r.kind = 1 then at' r.src r.sstride
  else if r.kind = 4 then at' r.src (BitVec.ofNat 64 r.rowb)
  else if r.kind < 4 then at' r.list (if r.wide then 8 else 4)
  else
    let w := typeBytes r.ty
    if r.result.isSome then r.dst + BitVec.ofNat 64 (r.wrote * w) else r.src + BitVec.ofNat 64 (r.next * w)

/-- A beat of what an engine transfers has been lost for good: the request whose turn it is meets an uncorrectable error at its next access (R71, R72,
R105; log entry 128). -/
def lostBeat (col : Fin 8) (e : Nat) (r : CReq) (s : State) : State :=
  let s := updCol s col fun c => { c with beats := tabPut c.beats e 0 }
  match r.result with
  | some res =>
    let h := homeOf r.group
    failReq col e { r with next := r.wrote } .busFault r.nextVa (putContribs h (contribsOf s h ++
      [{ group := r.group, rank := r.rank, req := r.id, data := res, complete := true, kept := true, elem := r.wrote }]) s)
  | none => failReq col e r .busFault r.nextVa s

/-- BATCH (R89). An engine performs one batch of the active request whose turn it is, round robin. -/
def execBatch (col e : Nat) (s : State) : Out :=
  if 8 ≤ col ∨ 18 ≤ e then .fault .noSuchUnit
  else
    let k : Fin 8 := ⟨col % 8, Nat.mod_lt _ (by decide)⟩
    let act := (engList (colAt s k) e).filter fun r => r.begun && !r.done && r.failed.isNone && !stilledAt s k r.job
    let i := (colAt s k).engNext.toList.getD e 0
    match act[i % max 1 act.length]? with
    | none => .next s
    | some r =>
      let s := updCol s k fun c => { c with engNext := vput c.engNext e (i % max 1 act.length + 1) }
      .next (if 9 ≤ tabGet 0 (colAt s k).beats e then lostBeat k e r s else if e < 16 then copyBatch k e r s else collBatch k e r s)

/-- REQUEST_COMPLETE (R94). A finished request whose barrier contribution has been accepted clears CSTART and frees its token; one that met a fault
stops when what it has credited is performed (R105, R441).  The token of a frozen job stays as it is (R429). -/
def execRequestComplete (col e : Nat) (s : State) : Out :=
  if 8 ≤ col ∨ 18 ≤ e then .fault .noSuchUnit
  else
    let k : Fin 8 := ⟨col % 8, Nat.mod_lt _ (by decide)⟩
    -- rank 0 of a `cbcast` waits for every destination (R111)
    let others (r : CReq) : Bool := r.kind == 6 && r.rank == 0 &&
      ((s.cols.toList.any fun c => c.coll.toList.flatten.any fun x => x.group == r.group && x.result.isSome && !x.done) ||
       ((contribsOf s (homeOf r.group)).any fun x => x.kept && x.group == r.group))
    match (engList (colAt s k) e).find? fun r => !stilledAt s k r.job && r.accepted s && (r.failed.isSome || (r.done && !others r)) with
    | none => .next s
    | some r =>
      match r.failed with
      | some (c, va) => .next (stopReq k e r c va s)
      | none =>
        let n := r.tok.val
        let s := endReq k e r s
        let s := updCore s r.core fun q => { q with cstart := vput q.cstart n 0 }
        if (allReqs (colAt s k)).any fun x => x.core == r.core && x.tok == r.tok then .next s
        else .next (setToken r.core n 0 s)

/-- A node of a collective's tree (R110): operation, type, elements as their bits. -/
def collNode (op ty : Nat) (x y : BitVec 64) : BitVec 64 :=
  let w := 8 * typeBytes ty
  let fp (f : Fmt) : BitVec 64 :=
    BitVec.ofNat 64 (if op = 0 then f.add 0 0 x.toNat y.toNat else if op = 1 then f.min x.toNat y.toNat else f.max x.toNat y.toNat).1
  if ty = 2 then fp f32
  else if ty = 3 then fp bf16
  else intNode (if op = 0 then .sum else if op = 1 then .min else .max) (ty == 1) w x y

/-- The fold over ranks, elementwise (R110). -/
def collTree (op ty : Nat) (l : List (List (BitVec 64))) : List (BitVec 64) :=
  (pairTree (fun x y => x.zipWith (collNode op ty) y) 13 l).headD []

/-- The contributions of a group's round that are whole: of each rank its first, as a later one belongs to the next round (R111). -/
def roundOf (l : List Contrib) (g : BitVec 64) (count : Nat) : List Contrib :=
  (List.range count).filterMap fun k => (l.find? fun x => x.group == g && x.rank == k && !x.kept).filter (·.complete)

/-- CONTRIBUTION (R110). The home engine combines a round whose contributions have all come, and its participants receive the result. -/
def execContribution (col k : Nat) (s : State) : Out :=
  if 8 ≤ col ∨ 2 ≤ k then .fault .noSuchUnit
  else
    let h : Fin 8 × Nat := (⟨col % 8, Nat.mod_lt _ (by decide)⟩, k)
    let l := contribsOf s h
    let reqs := s.cols.toList.flatMap fun c => c.coll.toList.flatten
    let req (x : Contrib) : Option CReq := reqs.find? fun r => r.id == x.req
    let ready := l.filterMap fun x =>
      (req x).bind fun r =>
        let rd := roundOf l r.group r.count
        if rd.length = r.count ∧ !stilledAt s h.1 r.job then some (r, rd) else none
    match ready.head? with
    | none => .next s
    | some (r, rd) =>
      let res := if r.kind = 5 then collTree r.op r.ty (rd.map (·.data)) else ((rd.map (·.data)).headD [])
      let ids := rd.map (·.req)
      let s := putContribs h (l.filter fun x => x.kept || !ids.contains x.req) s
      let s := if !ownGroup s r.group then s else updCol s h.1 fun c =>
        { c with clelems := vput c.clelems k (vget c.clelems k + BitVec.ofNat 64 (r.total * rd.length)) }
      let upd (x : CReq) : CReq :=
        if ids.contains x.id then (if x.receives then { x with result := some res } else { x with done := true }) else x
      .next { s with cols := s.cols.map fun c => { c with coll := c.coll.map fun q => q.map upd } }

/-! ## Barrier units (R101, R102) -/

/-- A request that waits in a unit's queue, by id. -/
def queuedPkt (s : State) (id : Nat) : Option Pkt := s.net.find? fun p => p.id == id && p.loc == .queued

def putPkt (p : Pkt) (s : State) : State := { s with net := s.net.map fun q => if q.id = p.id then p else q }
def dropPkt (id : Nat) (s : State) : State := { s with net := s.net.filter fun q => q.id != id }

/-- A request enters the queue of its unit: the queued requests stand in the list in arrival order (R53). -/
def queuePkt (p : Pkt) (s : State) : State := { s with net := (s.net.filter fun q => q.id != p.id) ++ [{ p with loc := .queued }] }

/-- No earlier arrival for the same line or object waits (R53). -/
def firstAt (s : State) (p : Pkt) : Bool :=
  ((s.net.find? fun q => q.loc == .queued && q.gpa / 64 == p.gpa / 64).map (·.id)) == some p.id

/-- An operation on an object of a column whose core bus failed is answered with an error (R76). -/
def barLost (p : Pkt) (s : State) : State :=
  match p.kind with
  | .barQuery _ _ => putPkt { p with loc := .reply 8, err := true } s
  | .barInit _ _ _ =>
    let s := updHart (dropPkt p.id s) p.core p.slot fun h => h.failed p.va p.id
    if (hartAt s p.core p.slot).wait = .reply p.id then actAs p.core p.slot (retire 4) s else s
  | _ => if p.core = 2048 then dropPkt p.id s else putPkt { p with loc := .ack, err := true } s

/-- A contribution is performed and its packet ends: one of a hart goes back as an acknowledgement. -/
def contributed (p : Pkt) (s : State) : State :=
  if p.core = 2048 then dropPkt p.id s else putPkt { p with loc := .ack } s

/-- INITIALISE (R101). A barrier unit initialises an object, and the parked hart goes on (R358). -/
def execInitialise (id : Nat) (s : State) : Out :=
  match queuedPkt s id with
  | none => .next s
  | some p =>
    match p.kind with
    | .barInit v kind auto =>
      if !firstAt s p then .next s
      else if degradedAt s p.gpa then .next (barLost p s)
      else
        let s := dropPkt id (barOp p.gpa (fun o => o.start v kind auto) s)
        .next (if (hartAt s p.core p.slot).wait = .reply id then actAs p.core p.slot (retire 4) s else s)
    | _ => .next s

/-- CREDIT (R101). A barrier unit lowers PEND by the bytes credited by a copy, when the object counts bytes; the out-of-range rows
delivered are counted whatever its kind (R91). -/
def execCredit (id : Nat) (s : State) : Out :=
  match queuedPkt s id with
  | none => .next s
  | some p =>
    match p.kind with
    | .barCredit n oor =>
      if !firstAt s p then .next s
      else if degradedAt s p.gpa then .next (barLost p s)
      else .next (contributed p (barOp p.gpa (fun o =>
        let o := { o with oorcnt := o.oorcnt + BitVec.ofNat 32 oor }
        if o.kind then (o, false) else o.take n) s))
    | _ => .next s

/-- ARRIVE (R101). A barrier unit lowers PEND by one for an arrival. -/
def execArrive (id : Nat) (s : State) : Out :=
  match queuedPkt s id with
  | none => .next s
  | some p =>
    match p.kind with
    | .barArrive =>
      if !firstAt s p then .next s
      else if degradedAt s p.gpa then .next (barLost p s)
      else .next (contributed p (barOp p.gpa (fun o => o.take 1) s))
    | _ => .next s

/-- ERROR_ARRIVE (R101). An arrival that carries an error status. -/
def execErrorArrive (id : Nat) (s : State) : Out :=
  match queuedPkt s id with
  | none => .next s
  | some p =>
    match p.kind with
    | .barErrArrive =>
      if !firstAt s p then .next s
      else if degradedAt s p.gpa then .next (barLost p s)
      else
        .next (contributed p (barOp p.gpa (fun o =>
          let (o, f) := o.take 1
          ({ o with errcnt := o.errcnt + 1, status := o.status ||| 4 }, f)) s))
    | _ => .next s

/-- QUERY (R101). A barrier unit reads its object at the query's place in arrival order; the word goes back (R361). -/
def execQuery (id : Nat) (s : State) : Out :=
  match queuedPkt s id with
  | none => .next s
  | some p =>
    match p.kind with
    | .barQuery _ w =>
      if !firstAt s p then .next s
      else if degradedAt s p.gpa then .next (barLost p s)
      else .next (putPkt { p with loc := .reply 8, val := barWord (barAt s p.gpa) w } s)
    | _ => .next s

/-! ## The cache walker (R68, R70) -/

/-- Lines of a column's cache ways inside a span of GPAs: core, copy. -/
def heldIn (s : State) (col : Fin 8) (lo hi : Nat) : List (Nat × CWLine) :=
  s.cores.flatMap fun e =>
    if colOf e.1 = col then
      (e.2.cw.flatMap (·.2)).filterMap fun l =>
        if lo ≤ l.line * 64 + 63 ∧ l.line * 64 ≤ hi then some (e.1, l) else none
    else []

/-- A dirty copy is written to the slice and left clean, its owner token at home (R68). -/
def cleanLine (c : Nat) (l : CWLine) (s : State) : State :=
  let s := if l.dirty then homeWriteLine (colOf c) l.line l.data s else s
  if l.tokens ≤ 1 then updCore s c fun q => q.cwDrop l.line
  else updCore s c fun q => q.cwPut { l with tokens := l.tokens - 1, owner := false, dirty := false }

/-- The dirty slice lines of a column inside a span of GPAs are written to DRAM and left clean (R52, R68): one whose copy has an uncorrectable error
is left in place and logged (R73, R74); true when there was one. -/
def cleanSlices (col : Fin 8) (lo hi : Nat) (s : State) : Bool × State :=
  let dirty := ((colAt s col).slices.flatMap (·.2)).filter fun x =>
    x.2 && decide (lo / 64 ≤ mkGpa s col.val (64 * x.1) / 64) && decide (mkGpa s col.val (64 * x.1) ≤ hi)
  dirty.foldl (fun (t : Bool × State) x =>
    if (colAt t.2 col).sliceBad.contains x.1 then (true, logError col 1 (sliceOf (64 * x.1)) (mkGpa t.2 col.val (64 * x.1)) t.2)
    else (t.1, updCol (sliceToDram col x.1 t.2) col fun c => { c with slices := c.slices.map fun e =>
      (e.1, e.2.map fun y => if y.1 = x.1 then (y.1, false) else y) })) (false, s)

/-- The lines of a piece in its column's cache ways and slices (R68); true when an error left one in place (R73). -/
def walkLines (col : Fin 8) (p : WPiece) (s : State) : Bool × State :=
  let isDram := match targetOf s p.first with | .dram _ _ => true | _ => false
  if !isDram || !p.cached then (false, s)
  else if (colAt s col).vbstat.getLsbD 63 then (true, s)
  else
    let s := (heldIn s col p.first p.last).foldl (fun s x => if x.2.owner && x.2.dirty then cleanLine x.1 x.2 s else s) s
    let s := if p.inv then (heldIn s col p.first p.last).foldl (fun s x => evictLine x.1 x.2.line s) s else s
    cleanSlices col p.first p.last s

/-- The work of one piece at its column's walker (R68), and whether an error left a line in place. -/
def walkPiece (col : Fin 8) (p : WPiece) (s : State) : Bool × State :=
  let (err, s) := walkLines col p s
  (err, if p.inv then
    { s with cores := s.cores.map fun e =>
        if colOf e.1 = colOf p.core then (e.1, { e.2 with l0d := l0DropSpan e.2.l0d (p.first / 64) (p.last / 64) }) else e }
  else s)

/-- WALKER_PIECE (R68). The walker of a column performs its oldest piece; with the last piece of an instruction the barrier arrival is
made (R69), or the waiting hart goes on (R278). -/
def execWalkerPiece (col : Nat) (s : State) : Out :=
  if 8 ≤ col then .fault .noSuchUnit
  else
    let k : Fin 8 := ⟨col % 8, Nat.mod_lt _ (by decide)⟩
    match (colAt s k).walker with
    | [] => .next s
    | p :: r =>
      if stilledAt s k (coreAt s p.core).job then .next s
      else
        let (bad, s) := walkPiece k p s
        let err := p.err || bad
        let s := updCol s k fun c => { c with walker := r }
        let s := wakeAll s fun w => w == .queue
        let more := s.cols.toList.any fun c => c.walker.any fun x => x.group == p.group
        if more then
          .next { s with cols := s.cols.map fun c => { c with walker := c.walker.map fun x =>
            if x.group = p.group then { x with err := x.err || err } else x } }
        else if p.bar ≠ 0 then .next (sendArrive p.bar.toNat err s)
        else if (hartAt s p.core p.slot).wait = .walker p.group then
          .next (actAs p.core p.slot (retire 4) s)
        else .next s

/-! ## The range compactor (R43, R44) -/

/-- The descriptor of a directory with the given VBASE: its number. -/
def findBase (s : State) (h vb : Nat) : Option Nat :=
  (List.range (dirCount s h)).find? fun k =>
    let d := dirDesc s h k
    d.valid && !d.malformed && d.vbase == vb

/-- Cores whose directory is the compactor's (R44). -/
def moveCores (s : State) (h : Nat) : List Nat := (s.cores.filter fun e => hdrOf e.2.rdbase == h).map (·.1)

/-- Every entry of the moved range leaves the cores, the engines and the distributor (R39, R41, R372). -/
def dropMoved (h : Nat) (d : RDesc) (s : State) : State :=
  let lo := d.vbase * 64
  let hi := d.vlast * 64 + 63
  let s := (moveCores s h).foldl (fun s c => dropSpan c (coreAt s c).job lo hi s) s
  let keep (e : REntry) : Bool := decide (hi < e.desc.vbase * 64) || decide (e.desc.vlast * 64 + 63 < lo)
  let hit (r : CReq) : CReq := if hdrOf r.dir = h then { r with rc := r.rc.filter keep } else r
  let s := { s with
    cols := s.cols.map fun c => { c with eng := c.eng.map fun l => l.map hit, coll := c.coll.map fun l => l.map hit }
    dist := { s.dist with jobs := s.dist.jobs.map fun j => if hdrOf j.rdir = h then { j with rcache := j.rcache.filter keep } else j } }
  wakeAll s fun w => match w with | .lock _ => true | _ => false

/-- A walker holds a piece of a core with this directory, translated under an entry that meets the moved range (R39, R41). -/
def walksUnder (s : State) (h : Nat) (d : RDesc) : Bool :=
  s.cols.toList.any fun c => c.walker.any fun p => hdrOf (coreAt s p.core).rdbase == h &&
    decide (p.entry.desc.vbase ≤ d.vlast) && decide (d.vbase ≤ p.entry.desc.vlast)

/-- A target a move may take (R43): in the column's own DRAM, not meeting the old one. -/
def moveOk (col : Fin 8) (d : RDesc) (t : Nat) (s : State) : Bool :=
  let n := d.vlast - d.vbase + 1
  let inDram (b : Nat) : Bool :=
    match targetOf s (b * 64), targetOf s ((b + n - 1) * 64) with
    | .dram c _, .dram c' _ => c == col && c' == col
    | _, _ => false
  inDram t && inDram d.tgt && (decide (t + n ≤ d.tgt) || decide (d.tgt + n ≤ t))

/-- The resident blocks copied to the new target (R44 step 2): each line is read at its home slice as by a coherent reader and written whole at the
new place; true when an uncorrectable error was met, which ends the copy.  Copies of the new lines that cache ways hold are neither collected nor
dropped by that write: the model's choice, R44 does not say (log entry 116). -/
def copyRange (col : Fin 8) (d : RDesc) (t : Nat) (s : State) : Bool × State :=
  if d.emptyWin then (false, s)
  else
    (List.range (min d.whi (d.vlast - d.vbase) - d.wlo + 1)).foldl (fun (r : Bool × State) i =>
      if r.1 then r
      else
        let src := d.tgt + d.wlo + i
        match ownerRead true (src * 64) 64 r.2 with
        | (none, s) => (true, s)
        | (some v, s) =>
          let dst := t + d.wlo + i
          (false, homeWriteLine col dst (BitVec.ofNat 512 v) (sliceTouch col (gpaOff (dst * 64)) true s))) (false, s)

/-- The copies of the old target in the column's cache ways are dropped (R44 step 4). -/
def dropOld (col : Fin 8) (d : RDesc) (tgt : Nat) (s : State) : State :=
  (heldIn s col (tgt * 64) ((tgt + (d.vlast - d.vbase)) * 64 + 63)).foldl (fun s x => updCore s x.1 fun q => q.cwDrop x.2.line) s

/-- The end of a move with a status (R43, R44). -/
def endMove (col : Fin 8) (st : BitVec 64) (s : State) : State :=
  let bar := (colAt s col).cmpbar.toNat
  sendArrive bar false (updCol s col fun c => { c with cmpctl := setBits 0 (st <<< 32) 34 32, cmpStep := 0 })

/-- MOVE (R44). One step of the compactor: 1 lock, 2 invalidate and copy, 3 swap, 4 invalidate, 5 finish; a step that needs the edit
lock waits for it (R46).  The registers CMPDIR, CMPVA, CMPTGT and CMPBAR are read anew at every step, so a write of them while BUSY acts on the
move: the model's choice, R43 does not say (log entry 102).  A move that finds its range already locked waits until the lock is gone: the model's
choice, R44 does not say (log entry 103).  A move that ends with STATUS 1 or 2 leaves GEN as it was (log entry 94).  Under the lock the directory's
lines are read, and the changed ones written, at their home slices (R51, R52); an error there is logged and ends the move with STATUS 3 (R73), also
at the swap, which then leaves L set: the model's choice (log entry 131).  After an error in the copy the old target stays the range's, and its copies
in cache ways stay too. -/
def execMove (col : Nat) (s : State) : Out :=
  if 8 ≤ col then .fault .noSuchUnit
  else
    let k : Fin 8 := ⟨col % 8, Nat.mod_lt _ (by decide)⟩
    let c := colAt s k
    let h := hdrOf c.cmpdir
    let vb := c.cmpva.toNat / 64
    let t := c.cmptgt.toNat / 64
    let step (n : Nat) (s : State) : State := updCol s k fun c => { c with cmpStep := n }
    let drained (d : RDesc) : Bool := (moveCores s h).all (fun q => coreDrained s q) && !walksUnder s h d
    -- the directory's lines read under the lock, those of descriptor i written
    let edited (i : Nat) (s : State) : Option State :=
      if lineBad s h || descsBad s h 0 (dirCount s h) then none
      else some (readLines true (h :: descLines h i (i + 1)) (readLines false (descLines h 0 (dirCount s h)) s))
    let lost (s : State) : State := readLines false (h :: descLines h 0 (dirCount s h)) s
    if c.cmpStep = 0 ∨ s.night.engines ∨ c.tripped then .next s
    else
      match findBase s h vb with
      | none => .next (if c.cmpStep = 1 && dirEdit s h then s else endMove k 1 s)
      | some i =>
        let d := dirDesc s h i
        if c.cmpStep = 1 then
          if dirEdit s h || d.locked then .next s
          else
            match edited i s with
            | none => .next (endMove k 3 (lost s))
            | some u =>
              if !moveOk k d t s then .next (endMove k 2 u)
              else
                let m := closeEdit (storeDesc u.mem h i { d with w0 := d.w0 ||| 2 }) h (dirCount s h)
                .next (step 2 (updCol { u with mem := m } k fun c => { c with cmpOld := d.tgt }))
        else if c.cmpStep = 2 then
          if !drained d then .next s
          else
            let (err, s) := copyRange k d t (dropMoved h d s)
            .next (step 3 (updCol s k fun c => { c with cmpErr := err }))
        else if c.cmpStep = 3 then
          if dirEdit s h then .next s
          else
            let n := if c.cmpErr then { d with w0 := d.w0 &&& ~~~(2#64) }
              else { d with w0 := d.w0 &&& ~~~(2#64), w2 := BitVec.ofNat 64 ((d.ver + 1) % 256 * 2 ^ 56 + t * 64) }
            match edited i s with
            | none => .next (endMove k 3 (lost s))
            | some u => .next (step 4 { u with mem := closeEdit (storeDesc u.mem h i n) h (dirCount s h) })
        else if c.cmpStep = 4 then
          if !drained d then .next s else .next (step 5 (if c.cmpErr then dropMoved h d s else dropOld k d c.cmpOld (dropMoved h d s)))
        else .next (endMove k (if c.cmpErr then 3 else 0) s)

end Sys2Proof.Machine
end

