-- ==== Sys2Proof/Machine/Network.lean ====
section
/-!
DEFINITION. Requests under way: the write queue's drain (R196, R198), the omega network with combining and reply entries (R56 to R60,
R211, R212), slices and banks (R53, R54, R120, R121), acknowledgements and probes (R192, R199, R201), the column routers (R419, R462),
token requests (R61 to R64), retries (R31, R36, R45), drop requests (R39 to R41) and beats (R71).
-/

namespace Sys2Proof.Machine

def findPkt (s : State) (id : Nat) : Option Pkt := s.net.find? fun p => p.id == id

/-! ## The omega network -/

/-- Output port of a request: 4 s + (i mod 4) for the slice its address uses (R56). -/
def outPort (p : Pkt) : Nat :=
  let off := gpaOff p.gpa
  let sl := if off < 0xC00000000 then sliceOf off else off / 64 % 64
  4 * sl + idxOf p.core % 4

/-- Switch a request from input port i to output port o passes at stage j (R56, R60). -/
def switchAt (j i o : Nat) : Nat := i % 2 ^ (8 - j) * 2 ^ (j - 1) + o / 2 ^ (9 - j)
/-- Which output of that switch it takes: the destination tag's bit. -/
def hopOut (j o : Nat) : Bool := o / 2 ^ (8 - j) % 2 == 1

/-- Two requests wait in one switch of stage j for one output. -/
def together (p q : Pkt) (j : Nat) : Bool :=
  colOf p.core == colOf q.core && q.loc == .omega j && outPort p == outPort q &&
    switchAt j (idxOf p.core) (outPort p) == switchAt j (idxOf q.core) (outPort q)

/-- What two requests combine to (R58): the combined operation, and what the second's reply adds. -/
def combineOps (a b : PKind) : Option (PKind × BitVec 64) :=
  let cut (n : Nat) (x : BitVec 64) : BitVec 64 := if n = 4 then (x.setWidth 32).zeroExtend 64 else x
  match a, b with
  | .am .add n x e d, .am .add m y _ _ => if n = m then some (.am .add n (cut n (x + y)) e d, cut n x) else none
  | .am .add n x e d, .red .add m y => if n = m then some (.am .add n (cut n (x + y)) e d, 0) else none
  | .red .add n x, .am .add m y e d => if n = m then some (.am .add n (cut n (x + y)) e d, cut n x) else none
  | .red .add n x, .red .add m y => if n = m then some (.red .add n (cut n (x + y)), 0) else none
  | .red op n x, .red op' m y =>
    if n = m ∧ op = op' then
      (match op with
       | .min | .max | .minn | .maxn => some (.red op n (amResult op n x y 0), 0)
       | _ => none)
    else none
  | .loadC n sx d, .loadC m _ _ => if n = m then some (.loadC n sx d, 0) else none
  | _, _ => none

/-- Requests marked combinable: integer adds, minimum and maximum reductions, `.c` loads so marked (R58, R59). -/
def combinablePkt (p : Pkt) : Bool :=
  match p.kind with
  | .am .add _ _ _ _ => true
  | .red .add _ _ | .red .min _ _ | .red .max _ _ | .red .minn _ _ | .red .maxn _ _ => true
  | .loadC _ _ _ => p.comb
  | _ => false

/-- Where a request stands: a combined one where the request that carries it does (R60). -/
def standsAt (s : State) : Nat → Pkt → PLoc
  | 0, p => p.loc
  | f + 1, p =>
    match p.loc with
    | .merged i _ _ => (match findPkt s i with | some q => standsAt s f q | none => p.loc)
    | l => l

/-- An earlier request of the same input port to the same output port, but for the one numbered but, has not passed stage j yet: p stays
behind it (R197). -/
def behind (s : State) (p : Pkt) (j but : Nat) : Bool :=
  s.net.any fun q => decide (q.id < p.id) && q.id != but && q.core == p.core && outPort q == outPort p &&
    (match standsAt s 8 q with | .omega k => decide (k ≤ j) | _ => false)

/-- Two requests of one switch combined, the first being the one from the lower input port (R58, R60).  Of two requests of one port, by two
harts of one core, the earlier is the first, as R197 asks where they are of one hart; R60 does not say (log entry 97).  Neither may stand
behind a third (R197).  A coherent request and a bypassing one do not combine: R58's conditions do not name the class, it is the model's choice (log
entry 117). -/
def mergePkts (j : Nat) (p q : Pkt) (s : State) : Option State :=
  if !(combinablePkt p && combinablePkt q && p.gpa == q.gpa && p.coh == q.coh) || behind s p j q.id || behind s q j p.id then none
  else
    let first := decide (idxOf p.core < idxOf q.core) || (idxOf p.core == idxOf q.core && decide (p.id < q.id))
    let (a, b) := if first then (p, q) else (q, p)
    (combineOps a.kind b.kind).map fun (k, add) =>
      putPkt { b with loc := .merged a.id j add } (putPkt { a with kind := k } s)

/-- The open reply entry of a switch for a request; one past its 512 s-cycles is closed (R212). -/
def entryFor (s : State) (p : Pkt) (j : Nat) : Option REnt :=
  let o := outPort p
  s.entries.find? fun e => decide (s.clock < e.opened + 512) && e.col == (colOf p.core).val && e.stage == j && e.switch == switchAt j (idxOf p.core) o && e.out == hopOut j o

/-- A performed request goes back: with its reply, or with its acknowledgement (R192). -/
def answered (p : Pkt) (v : BitVec 64) (err : Bool) (s : State) : State :=
  let kids := s.net.any fun q => match q.loc with | .merged i _ _ => i == p.id | .shared i _ => i == p.id | _ => false
  putPkt { p with val := v, err := err, loc := if p.wants || kids then .reply 8 else .ack } s

/-- The operation of a request performed at its owner (R53, R54, R120, R209). -/
def performPkt (p : Pkt) (s : State) : State :=
  match p.kind with
  | .store n x _ =>
    let (ok, s) := ownerWrite p.coh p.gpa n x.toNat s
    answered p 0 (!ok) s
  | .vstore m d =>
    let (ok, s) := ownerMask p.coh p.gpa m d s
    answered p 0 (!ok) s
  | .red op n x =>
    let (r, s) := ownerModify p.coh op p.gpa n x 0 s
    answered p 0 r.isNone s
  | .am op n x e _ =>
    let (r, s) := ownerModify p.coh op p.gpa n x e s
    answered p (r.getD 0) r.isNone s
  | .loadC n _ _ =>
    let (r, s) := ownerRead p.coh p.gpa n s
    answered p (BitVec.ofNat 64 (r.getD 0)) r.isNone s
  | .gather n els =>
    let (r, s) := ownerGather p.coh n els s
    putPkt { p with kind := .gathered r, loc := .reply 8 } s
  | _ => s

/-- A write of CTXJOB is held at the core a request names through its alias: the request waits for it (R363). -/
def atHeldAlias (s : State) (p : Pkt) : Bool :=
  match targetOf s p.gpa with
  | .priv c off => aliasHeld s c off
  | _ => false

/-- The request is an operation of a barrier unit (R101). -/
def PKind.isBar : PKind → Bool
  | .barInit _ _ _ | .barCredit _ _ | .barArrive | .barErrArrive | .barQuery _ _ => true
  | _ => false

/-- A request of a vector memory instruction joins its slice's queue: it is a slice conflict of that instruction when an earlier one of it waits
there (R440); the instruction is the member of the open convoy that named the lines (log entry 136). -/
def noteConflict (p : Pkt) (s : State) : State :=
  let vec (q : Pkt) : Bool := match q.kind with | .vstore _ _ | .gather _ _ => true | _ => false
  let slice (a : Nat) : Option (Fin 8 × Nat) := match targetOf s a with | .dram c off => some (c, sliceOf off) | _ => none
  let own (m : VCmd) (q : Pkt) : Bool := q.core == p.core && vec q && m.lines.contains (q.gpa / 64)
  let waits (m : VCmd) : Bool := own m p && s.net.any fun q => q.loc == .queued && q.id != p.id && own m q && slice q.gpa == slice p.gpa
  if !vec p then s
  else
    updCore s p.core fun q => { q with vec := { q.vec with convoy := q.vec.convoy.map fun m =>
      (if waits m then { m with conflicts := m.conflicts + 1 } else m) } }

/-- A request leaves the omega network at its output port (R56): a slice or barrier unit queues it, the router takes one for another
column, the host or another device; registers and unmapped offsets are answered at the port, and so is a store, reduction or atomic to the
barrier region, which is not performed (R103). -/
def leaveOmega (p : Pkt) (s : State) : State :=
  match p.kind with
  | .probe _ =>
    if gpaDev p.gpa = s.fabric.dev.toNat ∧ gpaCol p.gpa = (colOf p.core).val then queuePkt p s else putPkt { p with loc := .router } s
  | _ =>
    match targetOf s p.gpa with
    | .dram c _ => if c = colOf p.core then queuePkt p (noteConflict p s) else putPkt { p with loc := .router } s
    | .barrier c _ =>
      if c ≠ colOf p.core then putPkt { p with loc := .router } s
      else if p.kind.isBar then queuePkt p s else performPkt p s
    | .service c _ | .priv c _ => if c = colOf p.core then performPkt p s else putPkt { p with loc := .router } s
    | .unmapped =>
      if gpaDev p.gpa = s.fabric.dev.toNat ∧ gpaCol p.gpa ≠ (colOf p.core).val then putPkt { p with loc := .router } s
      else performPkt p s
    | _ => putPkt { p with loc := .router } s

/-- SWITCH_HOP (R56). A request passes a stage: two held together for one output combine (R58), a `.c` load may join a reply entry or
open one (R212), and requests of one input port to one output port keep their order (R197). -/
def execSwitchHop (id : Nat) (s : State) : Out :=
  match findPkt s id with
  | none => .next s
  | some p =>
    match p.loc with
    | .omega j =>
      if behind s p j p.id || (j == 8 && atHeldAlias s p) then .next s
      else
        match (s.net.filter fun q => q.id != p.id && together p q j).findSome? fun q => mergePkts j p q s with
        | some s => .next s
        | none =>
          let slice := match targetOf s p.gpa with | .dram c _ => decide (c = colOf p.core) | _ => false
          let (n, isC) := match p.kind with | .loadC n _ _ => (n, p.comb && slice) | _ => (0, false)
          let e := entryFor s p j
          match isC, e with
          | true, some e =>
            if e.gpa = p.gpa ∧ e.n = n then .next (putPkt { p with loc := .shared e.pkt j } s)
            else .next (if j < 8 then putPkt { p with loc := .omega (j + 1) } s else leaveOmega p s)
          | true, none =>
            let o := outPort p
            let open' := s.entries.filter fun e => decide (s.clock < e.opened + 512)
            let entry : REnt := { col := (colOf p.core).val, stage := j, switch := switchAt j (idxOf p.core) o
                                  out := hopOut j o, gpa := p.gpa, n := n, pkt := p.id, opened := s.clock }
            let s := { s with entries := open' ++ [entry] }
            .next (if j < 8 then putPkt { p with loc := .omega (j + 1) } s else leaveOmega p s)
          | false, _ => .next (if j < 8 then putPkt { p with loc := .omega (j + 1) } s else leaveOmega p s)
    | _ => .next s

/-- REPLY_ENTRY_EXPIRY (R212). A reply entry closes 512 s-cycles after it opened. -/
def execReplyEntryExpiry (k : Nat) (s : State) : Out :=
  match s.entries[k]? with
  | none => .next s
  | some e => .next (if e.opened + 512 ≤ s.clock then { s with entries := s.entries.eraseIdx k } else s)

/-- A reply reaches its hart: the instruction completes, or traps with the error it carries (R73); the packed reply of a small gather reaches the
vector command that sent it (R54). -/
def delivered (p : Pkt) (s : State) : State :=
  let s := dropPkt p.id s
  match p.kind with
  | .gathered els =>
    updCore s p.core fun q => { q with vec := { q.vec with convoy := q.vec.convoy.map fun m =>
      (if m.gather = some p.id then { m with gather := none, gathered := els } else m) } }
  | _ =>
  if (hartAt s p.core p.slot).wait ≠ .reply p.id then s
  else
    let dst := destOf s p.core p.gpa
    actAs p.core p.slot (fun s =>
      let s := updMe s fun h => { h with wait := .none }
      match p.kind with
      | .am op n _ _ d =>
        let s := updMe s fun h => h.acked dst s.clock
        if p.err then takeTrap .busFault p.va false s else done4 d (amWriteBack op n p.val) s
      | .loadC n sx d =>
        if p.err then takeTrap .busFault p.va false s
        else done4 d (if sx then BitVec.signExtend 64 (BitVec.ofNat (8 * n) p.val.toNat) else p.val) s
      | .barQuery d _ => if p.err then takeTrap .busFault p.va false s else done4 d p.val s
      | _ => s) s

/-- REPLY_HOP (R56, R60, R212). A reply passes a stage back: the requests combined or sharing there take their part. -/
def execReplyHop (id : Nat) (s : State) : Out :=
  match findPkt s id with
  | none => .next s
  | some p =>
    match p.loc with
    | .reply 0 => .next (if p.wants then delivered p s else putPkt { p with loc := .ack } s)
    | .reply (j + 1) =>
      let k := j + 1
      let split (q : Pkt) : Pkt :=
        match q.loc with
        | .merged i st add =>
          if i = id ∧ st = k then
            { q with err := p.err, val := p.val + add
                     loc := if q.wants || (s.net.any fun r => match r.loc with | .merged i' _ _ => i' == q.id | _ => false) then .reply j else .ack }
          else q
        | .shared i st => if i = id ∧ st = k then { q with err := p.err, val := p.val, loc := .reply j } else q
        | _ => q
      let s := { s with
        net := s.net.map fun q => if q.id = id then { q with loc := .reply j } else split q
        entries := s.entries.filter fun e => !(e.pkt == id && e.stage == k) }
      .next s
    | _ => .next s

/-! ## The write queue -/

/-- A line of the write queue that a `vst` of elements below a byte is still assembling: its next element, in its next pass, lies in that line and is
not the first there, so that the whole line leaves in one merge (R322).  None is while the convoy stands at a locked range, whose lock may wait for
this write (R40, R45). -/
def assembling (s : State) (core : Nat) (e : WEntry) : Bool :=
  let q := coreAt s core
  let at' : State := { s with curCore := ⟨core % 2048, Nat.mod_lt _ (by decide)⟩ }
  let stands (m : VCmd) : Bool :=
    let va := (m.addr at' m.next).toNat
    m.op.isMem && !m.finished && (rcLookup q.rcache q.job va).isNone &&
      (match searchDir s (hdrOf q.rdbase) va with
       | .stall => true
       | .miss => dirEdit s (hdrOf q.rdbase)
       | _ => false)
  let takes (m : VCmd) (i : Nat) : Bool :=
    let va := (m.addr at' m.next).toNat
    m.op == .st && m.began && !m.finished && decide (m.next < m.vl) && decide (m.sew < 8) && va / 64 == e.va.toNat / 64 &&
      (va % 64 != 0 || m.next * m.sew % 8 != 0) && q.vec.stop.all fun x => decide (i < x.1)
  match e.kind with
  | .vec _ _ => e.slot == q.vec.slot && !q.vec.convoy.any stands && q.vec.convoy.zipIdx.any fun x => takes x.1 x.2
  | _ => false

/-- The entry that leaves a write queue next, by its place: the oldest that is whole, no entry of its line before it (R196, R197). -/
def nextEntry (s : State) (core : Nat) : Option (WEntry × Nat) :=
  let l := (coreAt s core).wq
  l.zipIdx.find? fun x => !assembling s core x.1 && !((l.take x.2).any fun y => y.gpa / 64 == x.1.gpa / 64)

/-- WRITE_QUEUE_DRAIN (R196, R198). The oldest whole entry of a core's write queue is handed to the cache way, the bank port, the omega
network or the service mesh; it waits while an earlier write of the core to its line is on another path, so that accesses to one location
keep their order (R197), and while its column stands still (R468). -/
def execWriteQueueDrain (core : Nat) (s : State) : Out :=
  if 2048 ≤ core then .fault .noSuchUnit
  else
    match nextEntry s core with
    | none => .next s
    | some (e, i) =>
      let ln := e.gpa / 64
      let cached := !e.nc && e.kind == .store && decide (0 < cacheWays s core)
      -- earlier stores of the line that await tokens, and earlier writes of the line towards its home
      let awaiting := s.net.any fun p => p.core == core && p.gpa / 64 == ln && (match p.loc with | .tokens _ => p.writes != 0 | _ => false)
      let leaving := s.net.any fun p => p.core == core && p.gpa / 64 == ln && p.writes != 0 && (match p.loc with | .tokens _ => false | _ => true)
      if (if cached then leaving else awaiting) || (colAt s (colOf core)).tripped then .next s
      else
      let s := updCore s core fun q => { q with wq := q.wq.eraseIdx i }
      let k := e.slot
      let pk (kind : PKind) (loc : PLoc) (coh : Bool) : Pkt :=
        { id := s.nextId, core := core, slot := k, job := (coreAt s core).job, kind := kind, gpa := e.gpa, va := e.va, loc := loc
          born := s.clock, wants := false, val := 0, err := false, comb := false, coh := coh, beats := 0 }
      let kind : PKind := match e.kind with | .store => .store e.n e.data e.nc | .red op => .red op e.n e.data | .vec m d => .vstore m d
      let dst := destOf s core e.gpa
      let s :=
        if cached then
          let held := match (coreAt s core).cwFind ln with | some l => l.tokens == 256 | none => false
          if held && !awaiting then
            updHart (cwStore core ln (fun d => linePut d (e.gpa % 64) e.n e.data.toNat) s) core k fun h => h.recentWrite dst s.clock
          else
            updHart (sendPkt s (pk kind (.tokens 0) true)) core k fun h =>
              { h.recentWrite dst s.clock with tokOut := h.tokOut + 1 }
        else
          updHart (sendPkt s (pk kind (startLoc s core e.gpa) (!e.nc))) core k fun h => h.leave dst
      .next (releaseSteps core s)

/-! ## Slices and banks -/

/-- Requests that wait at a slice's ports. -/
def atSlice (s : State) (col slice : Nat) (p : Pkt) : Bool :=
  p.loc == .queued && (match p.kind with | .probe _ => false | _ => true) &&
    (match targetOf s p.gpa with | .dram c off => c.val == col && sliceOf off == slice | _ => false)

/-- An active persistent request keeps a request from being performed at its home, a small gather on account of any of its lines (R64, R65). -/
def pktBarred (s : State) (p : Pkt) : Bool :=
  match p.kind with
  | .gather _ els => els.any fun a => homeBarred s p.coh a
  | _ => homeBarred s p.coh p.gpa

/-- SLICE_REQUEST (R53). A slice takes the oldest request of the next port in round-robin order from the one after the port that won last,
which is its arrival order, and performs it.  A coherent one waits while a persistent request for its line is active (R64), and all while the column
stands still (R468). -/
def execSliceRequest (col slice : Nat) (s : State) : Out :=
  if 8 ≤ col ∨ 64 ≤ slice then .fault .noSuchUnit
  else
    let k : Fin 8 := ⟨col % 8, Nat.mod_lt _ (by decide)⟩
    let last := tabGet 3 (colAt s k).slicePort slice
    let first (i : Nat) : Option Pkt :=
      (s.net.find? fun p => atSlice s col slice p && outPort p % 4 == (last + 1 + i) % 4).filter fun p => !pktBarred s p
    if (colAt s k).tripped then .next s
    else
    match (List.range 4).findSome? first with
    | none => .next s
    | some p => .next (performPkt p (updCol s k fun c => { c with slicePort := tabPut c.slicePort slice (outPort p % 4) }))

/-- The bank a request is for, a forwarding entry applied (R419). -/
def pktBank (s : State) (p : Pkt) : Option (Nat × Nat) :=
  match targetOf s (redirect s p.job p.gpa) with
  | .bank c w _ => some (c, w)
  | _ => none

/-- A write waits at a bank. -/
def atBank (s : State) (core way : Nat) (p : Pkt) : Bool :=
  (p.loc == .queued || p.loc == .mesh) && pktBank s p == some (core, way) &&
    (match p.kind with | .store _ _ _ | .vstore _ _ | .red _ _ _ => true | _ => false)

/-- BANK_ACCESS (R120). A scratchpad bank takes local accesses and mesh arrivals in turn, the oldest of a kind first, and performs the
one it takes; while its core is being saved, accesses of other agents wait (R406), and all while the column stands still (R468). -/
def execBankAccess (core way : Nat) (s : State) : Out :=
  if 2048 ≤ core ∨ 16 ≤ way then .fault .noSuchUnit
  else
    let turn := !tabGet false (coreAt s core).bankLocal way
    let first (own : Bool) : Option Pkt :=
      s.net.find? fun p => atBank s core way p && (p.core == core) == own && (own || !stopping s core)
    if (colAt s (colOf core)).tripped then .next s
    else
    match (first turn).or (first (!turn)) with
    | none => .next s
    | some p => .next (performPkt { p with gpa := redirect s p.job p.gpa } (takeBank p.core core way s))

/-- TIMED_RETRY (R121 point 3). A hart that found the waiter table full tries again after 256 s-cycles. -/
def execTimedRetry (core : Nat) (slot : BitVec 3) (s : State) : Out :=
  if 2048 ≤ core then .fault .noSuchUnit
  else
    let h := hartAt s core slot.toFin
    match h.wait, h.timer with
    | .fullEmpty _ _ false, some t =>
      .next (if t ≤ s.clock && (h.st == .parked || h.st == .stalled) then feWake core slot.toFin s else s)
    | _, _ => .next s

/-! ## Acknowledgements and probes -/

/-- ACKNOWLEDGEMENT (R192). The requester learns that its write has been performed; an error is held against the hart (R201).  For a write to host
memory that is acknowledged already it is the CXL completion (R458). -/
def execAcknowledgement (id : Nat) (s : State) : Out :=
  match findPkt s id with
  | none => .next { s with boot := { s.boot with hostWrites := s.boot.hostWrites.filter fun w => w.1 != id } }
  | some p =>
    if p.loc ≠ .ack then .next s
    else
      let s := dropPkt id s
      if 2048 ≤ p.core then .next s
      else
        let dst := destOf s p.core p.gpa
        let s := updHart s p.core p.slot fun h =>
          let h := match p.kind with | .barInit _ _ _ => h | _ => h.acked dst s.clock
          if p.err then h.failed p.va p.id else h
        .next (releaseSteps p.core s)

/-- PROBE (R199). A destination answers a probe once every earlier write of the hart towards it is performed, and the errors of those that
failed have come back (R201): earlier writes and arrivals of the hart that are not acknowledged yet keep the probe.  Other harts' writes are
not waited for (R202).  At scope 7 the host agent echoes when the host has completed each of them, too (R458). -/
def execProbe (id : Nat) (s : State) : Out :=
  match queuedPkt s id with
  | none => .next s
  | some p =>
    match p.kind with
    | .probe scope =>
      let dst := destOf s p.core p.gpa
      let open' := scope == 7 && dst == .host && s.boot.hostWrites.any fun w => decide (w.1 < id) && w.2.1 == p.core && w.2.2 == p.slot
      let earlier := s.net.any fun q => decide (q.id < id) && q.core == p.core && q.slot == p.slot && q.kind.isWrite &&
        destOf s p.core q.gpa == dst && (match q.loc with | .tokens _ => false | _ => true)
      .next (if earlier || open' then s else putPkt { p with loc := .reply 0 } s)
    | _ => .next s

/-- ECHO (R199). A probe's echo returns to its hart. -/
def execEcho (id : Nat) (s : State) : Out :=
  match findPkt s id with
  | none => .next s
  | some p =>
    match p.kind, p.loc with
    | .probe _, .reply _ =>
      .next (releaseSteps p.core (updHart (dropPkt id s) p.core p.slot fun h => { h with probes := h.probes - 1 }))
    | _, _ => .next s

/-! ## The column router (R419, R462) -/

/-- An earlier request of the core for the same destination stands at the router: packets of one core keep their order (R197). -/
def routeBehind (s : State) (p : Pkt) : Bool :=
  decide (p.core < 2048) && s.net.any fun q => decide (q.id < p.id) && q.core == p.core && destOf s p.core q.gpa == destOf s p.core p.gpa &&
    (match standsAt s 8 q with | .router => true | _ => false)

/-- An operation on a barrier object leaves the router: for its unit, on another device over a port with an allowance, and with no port up for an
error (R73, R462). -/
def barRoute (p : Pkt) (s : State) : State :=
  match targetOf s p.gpa with
  | .device d =>
    if !routeUp s (colOf p.core) d then barLost p s
    else if maySend s (colOf p.core) d 0 then queuePkt p (useAllowance (colOf p.core) d 0 s)
    else s
  | _ => queuePkt p s

/-- What a core's packet finds in the logical-core table is held for messages by their own events; this is the rest of R462: a packet
for another column is handed to it, one for the host or another device is performed there, one that no up port carries fails. -/
def routePkt (p : Pkt) (s : State) : State :=
  let up (d : Nat) : Bool := routeUp s (colOf p.core) d
  match p.kind with
  | .probe _ =>
    (match targetOf s p.gpa with
     | .device d => if up d && maySend s (colOf p.core) d 0 then queuePkt p (useAllowance (colOf p.core) d 0 s) else s
     | _ => queuePkt p s)
  | .barInit _ _ _ | .barArrive | .barCredit _ _ | .barErrArrive =>
    barRoute p s
  | .barQuery _ _ => barRoute p s
  | .store _ _ _ | .vstore _ _ | .red _ _ _ | .am _ _ _ _ _ | .loadC _ _ _ | .gather _ _ =>
    match targetOf s p.gpa with
    | .dram _ _ => queuePkt p (noteConflict p s)
    | .host _ =>
      -- the agent has accepted a write, whose CXL completion comes later (R458)
      performPkt p (if p.kind.isWrite then { s with boot := { s.boot with hostWrites := (p.id, p.core, p.slot) :: s.boot.hostWrites } } else s)
    | .bank _ _ _ => putPkt { p with loc := .mesh } s
    | .priv c off => if aliasHeld s c off then s else performPkt p s
    | .device d =>
      if !up d then answered p 0 true s
      else if maySend s (colOf p.core) d 0 then performPkt p (useAllowance (colOf p.core) d 0 s) else s
    | _ => performPkt p s
  | _ => s

/-! ## Tokens (R61 to R64) -/

/-- The home cannot give a line's data: an uncorrectable error while no cache way owns it (R72). -/
def lineLost (s : State) (core ln : Nat) : Bool :=
  lineBad s (ln * 64) && !((holders s (colOf core) ln).any fun e => e.2.owner)

/-- Core c has a persistent request for a line at its home (R64). -/
def persists (s : State) (c ln : Nat) : Bool := (colAt s (colOf c)).persist.any fun e => e.1 == ln && e.2.1 == c

/-- An access that waited for tokens has been performed: its request is done, or becomes the deactivation of the core's persistent request
(R64). -/
def tokensDone (p : Pkt) (s : State) : State :=
  if persists s p.core (p.gpa / 64) then putPkt { p with loc := .mesh, kind := .tokRead } s else dropPkt p.id s

/-- The L0 data cache of a core is filled with a line of its cache ways (R115, R196), unless a write of the core to the line is under way, which the
fill would miss (R197, R206). -/
def l0FromWay (c ln : Nat) (s : State) : State :=
  match (coreAt s c).cwFind ln with
  | none => s
  | some e =>
    if inFlight s c (64 * ln) 64 || redQueued (coreAt s c).wq (64 * ln) 64 then s
    else updCore s c fun q => { q with l0d := l0Fill 8 q.l0d (l0dSet ln) ln (mergeQueue q.wq ln e.data) }

/-- A token request of a load ends: the load goes on, or traps with the error it met (R73). -/
def tokenLoaded (p : Pkt) (lost : Bool) (s : State) : State :=
  let s := tokensDone p s
  if (hartAt s p.core p.slot).wait ≠ .tokenReq p.id then s
  else actAs p.core p.slot (fun s =>
    let s := updMe s fun h => { h with wait := .none }
    if lost then takeTrap .busFault p.va false s else s) s

/-- A token request of a store ends, the store performed, or not on account of an error, which is held against the hart (R73). -/
def tokenStored (p : Pkt) (lost : Bool) (s : State) : State :=
  let s := updHart s p.core p.slot fun h =>
    let h := { h with tokOut := h.tokOut - 1 }.recentWrite (destOf s p.core p.gpa) s.clock
    if lost then h.failed p.va p.id else h
  releaseSteps p.core (tokensDone p s)

/-- TRANSIENT_READ (R63). A core's transient read brings data and a token; under its own active persistent request it brings every token and all
data (R64).  The line fills the L0 data cache, where the waiting load finds it as it goes on. -/
def execTransientRead (id : Nat) (s : State) : Out :=
  match findPkt s id with
  | none => .next s
  | some p =>
    match p.kind, p.loc with
    | .tokRead, .tokens _ =>
      let ln := p.gpa / 64
      let active := (activePersist (colAt s (colOf p.core))).any fun x => x.1 == ln && x.2.1 == p.core
      if barredBy s (colOf p.core) (some p.core) ln then .next s
      else
        let lost := lineLost s p.core ln
        .next (tokenLoaded p lost (
          if lost then homeFill (colOf p.core) ln s
          else if cacheWays s p.core = 0 then s
          else l0FromWay p.core ln (if active then tokenWrite p.core ln s else tokenRead p.core ln s)))
    | _, _ => .next s

/-- TRANSIENT_WRITE (R63). A core's transient write brings every token, and the waiting store is performed in its cache way; one whose
core has no cache way left is performed at the home (R194). -/
def execTransientWrite (id : Nat) (s : State) : Out :=
  match findPkt s id with
  | none => .next s
  | some p =>
    match p.kind, p.loc with
    | .store n x _, .tokens _ =>
      let ln := p.gpa / 64
      let older := s.net.any fun q => decide (q.id < id) && q.core == p.core && q.gpa / 64 == ln && q.writes != 0
      if older || barredBy s (colOf p.core) (some p.core) ln then .next s
      else if cacheWays s p.core = 0 then
        .next (updHart (putPkt { p with loc := .omega 1 } s) p.core p.slot fun h =>
          { h with tokOut := h.tokOut - 1 }.leave (destOf s p.core p.gpa))
      else
        let lost := lineLost s p.core ln
        .next (tokenStored p lost (
          if lost then homeFill (colOf p.core) ln s
          else cwStore p.core ln (fun d => linePut d (p.gpa % 64) n x.toNat) (tokenWrite p.core ln s)))
    | _, _ => .next s

/-- EVICTION (R63). A core returns all its tokens of a line to the home. -/
def execEviction (core line : Nat) (s : State) : Out :=
  if 2048 ≤ core then .fault .noSuchUnit else .next (evictLine core line s)

/-- TRANSIENT_FAILURE (R64). A transient request that lacks what it needs 1,024 s-cycles after issue fails and is issued again. -/
def execTransientFailure (id : Nat) (s : State) : Out :=
  match findPkt s id with
  | none => .next s
  | some p =>
    match p.loc with
    | .tokens f => .next (if p.born + 1024 * (f + 1) ≤ s.clock then putPkt { p with loc := .tokens (f + 1) } s else s)
    | _ => .next s

/-- PERSISTENT_REQUEST (R64). After four failures in a row a core sends a persistent request to the home. -/
def execPersistentRequest (id : Nat) (s : State) : Out :=
  match findPkt s id with
  | none => .next s
  | some p =>
    match p.loc with
    | .tokens f =>
      let x := (p.gpa / 64, p.core, p.slot.val)
      .next (if f < 4 || (colAt s (colOf p.core)).persist.contains x then s
        else updCol s (colOf p.core) fun c => { c with persist := c.persist ++ [x] })
    | _ => .next s

/-- DEACTIVATION (R64). The requester's access has been performed: the home drops its persistent request. -/
def execDeactivation (id : Nat) (s : State) : Out :=
  match findPkt s id with
  | none => .next s
  | some p =>
    match p.kind, p.loc with
    | .tokRead, .mesh =>
      .next (dropPkt id (updCol s (colOf p.core) fun c =>
        { c with persist := c.persist.filter fun x => !(x.1 == p.gpa / 64 && x.2.1 == p.core) }))
    | _, _ => .next s

/-- COUNTDOWN_EXPIRY (R59). A bit of a hart's recent-write record clears once no write towards the destination is unacknowledged and
its countdown has run out. -/
def execCountdownExpiry (core : Nat) (slot : BitVec 3) (dest : Nat) (s : State) : Out :=
  if 2048 ≤ core then .fault .noSuchUnit
  else
    let r := tabGet Recent.none (hartAt s core slot.toFin).recent dest
    .next (if r.out = 0 ∧ r.count ≤ s.clock ∧ r.bit then
      updHart s core slot.toFin fun h => { h with recent := tabPut h.recent dest { r with bit := false } } else s)

/-! ## The range walker and its retries -/

/-- RANGE_SEARCH (R31). The walker searches the directory for an address and fills the range cache. -/
def execRangeSearch (core : Nat) (slot : BitVec 3) (va : BitVec 64) (s : State) : Out :=
  if 2048 ≤ core then .fault .noSuchUnit else .next (translate s core (hartAt s core slot.toFin).sys needRd va).2

/-- HEADER_REREAD (R31). The walker looks at the header again for a hart held by an edit in progress. -/
def execHeaderReread (core : Nat) (slot : BitVec 3) (s : State) : Out :=
  if 2048 ≤ core then .fault .noSuchUnit
  else
    match (hartAt s core slot.toFin).wait with
    | .header _ => .next (if dirEdit s (hdrOf (coreAt s core).rdbase) then s else wake s core slot.toFin)
    | _ => .next s

/-- EDIT_RETRY (R36). A range edit that found the edit lock tries again. -/
def execEditRetry (core : Nat) (slot : BitVec 3) (s : State) : Out :=
  if 2048 ≤ core then .fault .noSuchUnit
  else
    match (hartAt s core slot.toFin).wait with
    | .edit => .next (if dirEdit s (hdrOf (coreAt s core).rdbase) then s else wake s core slot.toFin)
    | _ => .next s

/-- LOCK_RETRY (R45). A hart stalled on a locked range repeats its search every 4,096 s-cycles. -/
def execLockRetry (core : Nat) (slot : BitVec 3) (s : State) : Out :=
  if 2048 ≤ core then .fault .noSuchUnit
  else
    match (hartAt s core slot.toFin).wait with
    | .lock _ => .next (if (hartAt s core slot.toFin).since + 4096 ≤ s.clock then wake s core slot.toFin else s)
    | _ => .next s

/-! ## Drop requests (R39 to R41) -/

/-- DROP_REQUEST (R39, R40). A core drops the entries of the job that meet the span, once its accesses under them are performed, and
acknowledges; a core of another job acknowledges at once. -/
def execDropRequest (id core : Nat) (s : State) : Out :=
  match findPkt s id with
  | none => .next s
  | some p =>
    match p.kind with
    | .drop lo hi scope cores cols =>
      if !cores.contains core then .next s
      else if (coreAt s core).job == p.job && !coreDrained s core then .next s
      else
        let s := if (coreAt s core).job = p.job then dropSpan core p.job lo hi s else s
        let s := updCore s core fun q => q.mapHarts fun _ h => match h.wait with | .lock _ => h.wake | _ => h
        .next (putPkt { p with kind := .drop lo hi scope (cores.erase core) cols } s)
    | _ => .next s

/-- ENGINE_DROP (R41). The engines of a column that the scope reaches drop the entries of the job that meet the span, and acknowledge, the
walker once its pieces translated under such an entry are done; at column 0 the distributor drops its own (R372). -/
def execEngineDrop (id col : Nat) (s : State) : Out :=
  match findPkt s id with
  | none => .next s
  | some p =>
    match p.kind with
    | .drop lo hi scope cores cols =>
      if !cols.contains col || 8 ≤ col then .next s
      else
        let k : Fin 8 := ⟨col % 8, Nat.mod_lt _ (by decide)⟩
        let hit (e : REntry) : Bool := e.job == p.job && decide (e.desc.vbase * 64 ≤ hi) && decide (lo ≤ e.desc.vlast * 64 + 63)
        let clean (r : CReq) : CReq := { r with rc := r.rc.filter fun e => !hit e }
        if scope ≠ 3 ∧ (colAt s k).walker.any fun w => hit w.entry then .next s
        else
        let s := updCol s k fun c =>
          if scope = 3 then
            let e := rowOf p.core
            { c with eng := vput c.eng e ((c.eng.toList.getD e []).map clean) }
          else { c with eng := c.eng.map fun l => l.map clean, coll := c.coll.map fun l => l.map clean }
        let s := if col = 0 then
            { s with dist := { s.dist with jobs := s.dist.jobs.map fun j => { j with rcache := j.rcache.filter fun e => !hit e } } }
          else s
        .next (putPkt { p with kind := .drop lo hi scope cores (cols.erase col) } s)
    | _ => .next s

/-- DROP_ACKNOWLEDGEMENT (R39). Every core and engine of the scope has acknowledged: the parked hart goes on. -/
def execDropAcknowledgement (id : Nat) (s : State) : Out :=
  match findPkt s id with
  | none => .next s
  | some p =>
    match p.kind with
    | .drop _ _ _ [] [] =>
      let s := dropPkt id s
      let h := hartAt s p.core p.slot
      if h.wait ≠ .inval id then .next s
      else .next (actAs p.core p.slot (retire 4) s)
    | _ => .next s

/-- DROP (R34). RCCTL.DROP: every range-cache entry of a core is dropped once its accesses are performed, and a hart that wrote it goes
on; a range edit that waits for the same goes on, too (R39, R273). -/
def execDrop (core : Nat) (s : State) : Out :=
  if 2048 ≤ core then .fault .noSuchUnit
  else if !coreDrained s core then .next s
  else
    let s := updCore s core fun q => q.mapHarts fun _ h => if h.wait = .drain then h.wake else h
    match (List.finRange 8).find? fun k => (hartAt s core k).wait == .inval 0 with
    | none => .next s
    | some k => .next (actAs core k (retire 4) (dropRanges core s))

/-- DDROP (R116). L0CTL.DDROP: every line of a core's L0 data cache is dropped. -/
def execDdrop (core : Nat) (s : State) : Out :=
  if 2048 ≤ core then .fault .noSuchUnit else .next (updCore s core fun q => { q with l0d := [] })

/-- IDROP (R116). L0CTL.IDROP: every line of a core's L0 instruction cache is dropped. -/
def execIdrop (core : Nat) (s : State) : Out :=
  if 2048 ≤ core then .fault .noSuchUnit else .next (updCore s core fun q => { q with l0i := [] })

/-! ## Beats (R71) -/

/-- SRC code of the error log for a request's place (R74): the omega network, the service mesh, or the link it crosses; an acknowledgement comes
back from its destination. -/
def lossSrc (s : State) (p : Pkt) : Nat :=
  let byDest : Nat :=
    match destOf s p.core p.gpa with
    | .slice _ => 2
    | .bank => 5
    | _ => 4
  match p.loc with
  | .omega _ | .reply _ | .merged _ _ _ | .shared _ _ | .tokens _ => 2
  | .router | .away => 4
  | .ack | .queued => byDest
  | .mesh => (match p.kind with | .tokRead => 2 | _ => 5)
  | _ => 5

/-- UNIT of the error log (R74): the input port of an omega beat, the vertical bus of a core and the mesh router of a mesh beat are all the core's
index; of a beat on a link, the column the link leads to, the model's number for it (log entry 92). -/
def lossUnit (src : Nat) (p : Pkt) : Nat := if src = 4 then gpaCol p.gpa else idxOf p.core

/-- A request whose beat was lost for good (R72): what its requester learns.  A memory access is answered with an error, whether its request, its
reply or its acknowledgement was lost; a barrier arrival or initialisation, or a probe, brings its error acknowledgement back; a barrier query
traps as a load; a message is refused and will be tried again (R393); spawns, drop requests, the end of a persistent request and what the units
of the service die send travel again (log entry 98). -/
def lose (p : Pkt) (s : State) : State :=
  let p := { p with beats := 0 }
  match p.kind with
  | .store _ _ _ | .vstore _ _ | .red _ _ _ | .am _ _ _ _ _ | .loadC _ _ _ | .barQuery _ _ =>
    (match p.loc with
     | .omega _ | .router | .mesh | .queued => answered p 0 true s
     | .reply j => putPkt { p with err := true, loc := .reply j } s
     | .ack => putPkt { p with err := true } s
     | .tokens _ => tokenStored p true s
     | _ => putPkt p s)
  | .tokRead => (match p.loc with | .tokens _ => tokenLoaded p true s | _ => putPkt p s)
  | .gather _ els => putPkt { p with kind := .gathered (els.map fun a => (a, none)), loc := .reply 8 } s
  | .gathered els => putPkt { p with kind := .gathered (els.map fun x => (x.1, none)) } s
  | .barArrive =>
    if 2048 ≤ p.core then putPkt p s else putPkt { p with err := true, loc := .ack } s
  | .barInit _ _ _ =>
    let s := updHart (dropPkt p.id s) p.core p.slot fun h => h.failed p.va p.id
    if (hartAt s p.core p.slot).wait = .reply p.id then actAs p.core p.slot (retire 4) s else s
  | .probe _ => updHart (putPkt { p with loc := .reply 0 } s) p.core p.slot fun h => h.failed p.va p.id
  | .msg _ _ _ => (match p.loc with | .mesh | .away => putPkt { p with loc := .retry } s | _ => putPkt p s)
  | _ => putPkt p s

/-- A beat of an access that is performed in one step: of a hart, or of what an engine transfers (log entry 128).  Once it is lost for good, the
next access of that hart or engine meets an uncorrectable error. -/
def unitBeat (unit src : Nat) (ok : Bool) (s : State) : Out :=
  let count (b : Nat) : Nat := if 9 ≤ b then b else if ok then 0 else b + 1
  let seen (col : Fin 8) (u b : Nat) (s : State) : State :=
    if 9 ≤ b then s else if ok then countSoft col s else if b = 8 then logError col src u 0 s else s
  if src < 2 ∨ 5 < src then .next s
  else if unit < 16384 then
    let c := unit / 8
    let k : Fin 8 := ⟨unit % 8, Nat.mod_lt _ (by decide)⟩
    let b := (hartAt s c k).beats
    .next (seen (colOf c) (idxOf c) b (updHart s c k fun h => { h with beats := count b }))
  else if unit < 16640 then
    let col : Fin 8 := ⟨(unit - 16384) / 32 % 8, Nat.mod_lt _ (by decide)⟩
    let e := (unit - 16384) % 32
    let b := tabGet 0 (colAt s col).beats e
    if 18 ≤ e then .fault .noSuchUnit
    else .next (seen col e b (updCol s col fun c => { c with beats := tabPut c.beats e (count b) }))
  else .fault .noSuchUnit

/-- BEAT_RETRANSMISSION (R71, R72). A beat received with a failing CRC-16 is sent again; a corrected one is counted, and one that still
fails after 8 retransmissions is an uncorrectable error of its access, which is logged.  The beat is of a packet, on the network where it is or on
a vertical bus (SRC 3), or, with the packet number 0, of a unit's access that is performed in one step. -/
def execBeatRetransmission (b : Beat) (ok : Bool) (s : State) : Out :=
  if b.id = 0 then unitBeat b.unit b.src.toNat ok s
  else
    match findPkt s b.id with
    | none => .next s
    | some p =>
      let here := match p.loc with | .merged _ _ _ | .shared _ _ => false | _ => b.src == 3 || b.src.toNat == lossSrc s p
      if !here then .next s
      else if ok then .next (countSoft (colOf p.core) (putPkt { p with beats := 0 } s))
      else if p.beats < 8 then .next (putPkt { p with beats := p.beats + 1 } s)
      else .next (lose p (logError (colOf p.core) b.src.toNat (lossUnit b.src.toNat p) p.gpa s))

end Sys2Proof.Machine
end

