-- ==== Sys2Proof/Machine/Save.lean ====
section
/-!
DEFINITION. Vector save images (R410, R411), core save areas (R408, R409), the save and restore of a core (R404 to R407, R412), and
the meanings of `savev`, `rstv`, `migrate` and `fwdclr` (R417 to R420).
-/

namespace Sys2Proof.Machine

/-! ## Bytes -/

/-- Byte field of n bytes at byte o of a number. -/
def byteField (v o n : Nat) : Nat := v / 2 ^ (8 * o) % 2 ^ (8 * n)

/-- Bytes src to src + n - 1 of memory moved over bytes dst to dst + n - 1. -/
def moveBytes (src dst n : Nat) (m : List Host.Cell) : List Host.Cell :=
  (m.filter fun e => decide (src ≤ e.1) && decide (e.1 < src + n)).foldl (fun m e => memPut m (dst + (e.1 - src)) e.2)
    (memClear m dst (dst + n))

/-! ## The vector save image (R410, R411) -/

/-- ROWSn (R411). -/
def rowsOf (q : Core) (n : Nat) : Nat :=
  if q.vec.vdirty.getLsbD n then min 32 (((vget q.vec.vhw n).toNat + q.glanes - 1) / max 1 q.glanes) else 0

/-- The header of core c's image; in a gang the context's registers are the leader's. -/
def vecHeader (s : State) (c : Nat) : Nat :=
  let q := coreAt s c
  let o := coreAt s (leaderOf s c)
  let v := o.vec
  let flags := (if v.bound then 1 else 0) + (if q.vec.vrs.isEmpty then 0 else 2) + (if v.vdirty.getLsbD 0 then 4 else 0) +
    (if v.mstat.getLsbD 63 then 8 else 0)
  v.vl.toNat % 2 ^ 32 + 2 ^ 32 * (v.vstart.toNat % 2 ^ 32) + 2 ^ 64 * v.vtype.toNat + 2 ^ 128 * (v.vdirty.toNat % 2 ^ 32) +
    2 ^ 160 * flags + 2 ^ 168 * (q.gangSize.toNat + 4 * q.gangPos.toNat) + 2 ^ 176 * (v.mstat.toNat % 128) +
    2 ^ 184 * (v.vflags.toNat % 64) + 2 ^ 192 * packWords 6 ((List.range 32).map (rowsOf o)) + 2 ^ 384 * q.narr +
    2 ^ 392 * (if v.mstat.getLsbD 32 then 1 else 0)

/-- The 64-byte places an image holds after its header, in the order the sequencer writes them: `acc`, `vrs`, v0 first, then the other
dirty registers (R411). -/
def imagePlaces (lanes : Nat) (vrsp : Bool) (rows : Nat → Nat) : List Nat :=
  (List.range 256).map (fun i => 0x1000 + 64 * i) ++
    (if vrsp then (List.range (lanes / 8)).map (fun i => 0x8000 + 64 * i) else []) ++
    (List.range 32).flatMap fun n => (List.range (rows n)).flatMap fun r =>
      (List.range (lanes / 512)).map fun b => 0x48000 + 0x20000 * n + r * (lanes / 8) + 64 * b

/-- What stands at such a place of core c's image. -/
def imageLine (s : State) (c off : Nat) : Nat :=
  let q := coreAt s c
  if off < 0x8000 then
    packWords 32 ((List.range 16).map fun j => (tabGet 0 q.vec.acc (16 * ((off - 0x1000) / 64) + j)).toNat)
  else if off < 0x48000 then
    packWords 64 ((List.range 8).map fun j =>
      (vrsGet s (leaderOf s c) (q.gangPos.toNat * q.lanes + 8 * ((off - 0x8000) / 64) + j)).toNat)
  else
    let n := (off - 0x48000) / 0x20000
    let o := (off - 0x48000) % 0x20000
    let r := o / max 1 (q.lanes / 8)
    let b := o % max 1 (q.lanes / 8) / 64
    packWords 1 ((List.range 512).map fun j => if (tabGet 0 q.vec.v (32768 * n + 512 * b + j)).getLsbD (31 - r) then 1 else 0)

/-- Fields of a header. -/
def hdrRows (h n : Nat) : Nat := byteField h 24 24 / 2 ^ (6 * n) % 64
def hdrVrsp (h : Nat) : Bool := byteField h 20 1 / 2 % 2 == 1
def hdrNarr (h : Nat) : Nat := byteField h 48 1
def hdrBound (h : Nat) : Bool := byteField h 20 1 % 2 == 1

/-- A header keeps its table: reserved fields zero, counts within their limits (R408, R411). -/
def hdrOk (h glanes size pos : Nat) : Bool :=
  let flags := byteField h 20 1
  let vt := BitVec.ofNat 64 (byteField h 8 8)
  let mvl := byteField h 22 1
  let dirty := byteField h 16 4
  decide (flags < 16) && byteField h 21 1 == size + 4 * pos && decide (byteField h 23 1 < 64) && decide (byteField h 49 1 ≤ 1) &&
    byteField h 50 14 == 0 && decide (byteField h 4 4 < 2 ^ 26) && decide (hdrNarr h ≤ 16) &&
    (vt == vtBad || (vtMask vt == vt && vtOk vt)) && decide (byteField h 0 4 ≤ vlmaxOf glanes vt) &&
    (if flags / 8 % 2 = 1 then mvl % 8 == 0 && decide (8 ≤ mvl) && decide (mvl ≤ 64) else mvl == 0) &&
    (flags / 4 % 2 == dirty % 2) &&
    (List.range 32).all fun n => decide (hdrRows h n ≤ 32) && (dirty.testBit n || hdrRows h n == 0)

/-- The vector context an image gives (R412): rows at or above ROWSn zero, VHWn and VPIn from the header; the bound slot is kept. -/
def imageVec (old : Vec) (lanes glanes h : Nat) (lines : List (Nat × Nat)) : Vec :=
  let start := BitVec.ofNat 64 (byteField h 4 4)
  let acc := lines.foldl (fun t (off, x) =>
    if off < 0x8000 then
      (List.range 16).foldl (fun t j =>
        let w := BitVec.ofNat 32 (x / 2 ^ (32 * j))
        if w = 0 then t else tabPut t (16 * ((off - 0x1000) / 64) + j) w) t
    else t) []
  let vrs := lines.foldl (fun t (off, x) =>
    if 0x8000 ≤ off ∧ off < 0x48000 then
      (List.range 8).foldl (fun t j => tabPut t (8 * ((off - 0x8000) / 64) + j) (BitVec.ofNat 64 (x / 2 ^ (64 * j)))) t
    else t) []
  let v := lines.foldl (fun t (off, x) =>
    if 0x48000 ≤ off then
      let n := (off - 0x48000) / 0x20000
      let o := (off - 0x48000) % 0x20000
      let r := o / max 1 (lanes / 8)
      let b := o % max 1 (lanes / 8) / 64
      (List.range 512).foldl (fun t j =>
        if x.testBit j then
          let k := 32768 * n + 512 * b + j
          tabPut t k (tabGet 0 t k ||| (1#32 <<< (31 - r)))
        else t) t
    else t) []
  { Vec.reset with
    bound := old.bound, slot := old.slot
    vl := BitVec.ofNat 64 (byteField h 0 4), vtype := BitVec.ofNat 64 (byteField h 8 8), vstart := start
    vflags := BitVec.ofNat 64 (byteField h 23 1), vdirty := BitVec.ofNat 64 (byteField h 16 4)
    mstat := BitVec.ofNat 64 (byteField h 22 1 + 2 ^ 32 * byteField h 49 1 + (if byteField h 20 1 / 8 % 2 = 1 then 2 ^ 63 else 0))
    vpi := Vector.replicate 32 start
    vhw := Vector.ofFn fun n => BitVec.ofNat 64 (hdrRows h n.val * glanes)
    acc := acc, vrs := vrs, v := v }

/-! ## savev and rstv (R417) -/

/-- The core's own earlier writes of a line are on their way: the image's accesses of it come after them (R197). -/
def lineBusy (s : State) (g : Nat) : Bool :=
  let c := s.curCore.val
  inFlight s c (g / 64 * 64) 64 || (myCore s).wq.any fun e => meets e.gpa e.n (g / 64 * 64) 64

/-- The way of a hart of core c to one line or word of its own: BUS_FAULT with no route (R462), an allowance where this access takes one (R459), and
the turn of a bank (R120); none while it waits. -/
def wayTo (c g : Nat) (flit : Bool) (s : State) : Option (Option Cause × State) :=
  match targetOf s g with
  | .device d =>
    if !routeUp s (colOf c) d then some (some .busFault, s)
    else if !flit then some (none, s)
    else if maySend s (colOf c) d 0 then some (none, useAllowance (colOf c) d 0 s)
    else none
  | .bank b w _ => if bankHeld s c g || bankTaken s c b w then none else some (none, takeBank c b w s)
  | _ => some (none, s)

/-- One line of an image written past the caches; a line that its target refuses traps at the instruction (R73, R417). -/
def imageLineOut (g x : Nat) (va : BitVec 64) (s : State) : Res Unit :=
  let c := s.curCore.val
  if lineBusy s g then .hold s
  else
    match wayTo c g true s with
    | none => .hold s
    | some (some z, s) => .trap z va s
    | some (none, s) =>
      match ownerWrite false g 64 x s with
      | (false, s) => .trap .busFault va s
      | (true, s) =>
        let s := updMyCore s fun q => { q with l0d := l0Update q.l0d g 64 x }
        .ok () (updMe s fun h => (h.leave (destOf s c g)).acked (destOf s c g) s.clock)

/-- Lines written at job virtual addresses from va on, past the caches; a fault ends them, and a locked range or an edit holds the
hart. -/
def imageOut (va : BitVec 64) : List (Nat × Nat) → State → Res Unit
  | [], s => .ok () s
  | (off, x) :: l, s =>
    let a := va + BitVec.ofNat 64 off
    (xlate needWr a s).andThen fun (g, _) s =>
    (imageLineOut (redirect s (myCore s).job g) x a s).andThen fun _ s => imageOut va l s

/-- Lines read at job virtual addresses. -/
def imageIn (va : BitVec 64) : List Nat → List (Nat × Nat) → State → Res (List (Nat × Nat))
  | [], acc, s => .ok acc s
  | off :: l, acc, s =>
    let a := va + BitVec.ofNat 64 off
    (xlate needRd a s).andThen fun (g, _) s =>
    let g := redirect s (myCore s).job g
    if lineBusy s g then .hold s
    else
      match wayTo s.curCore g true s with
      | none => .hold s
      | some (some z, s) => .trap z a s
      | some (none, s) =>
        match ownerRead false g 64 s with
        | (none, s) => .trap .busFault a s
        | (some x, s) => imageIn va l (acc ++ [(off, x)]) s

/-- The common checks of `savev` and `rstv`: PRIV, MISALIGN, the idle sequencer, the vector hart's next command held meanwhile (R134), and the
statuses 1 and 2. -/
def imageInstr (fn : Nat) (a d : BitVec 5) (s : State) (k : BitVec 64 → State → Res Unit) : Res Unit :=
  let va := gr s a
  if !isSys s then .trap .priv (rWord 0x1E fn 0 a d) s
  else if va.toNat % 4096 ≠ 0 then .trap .misalign va s
  else if !(myCore s).quiet then .hold (if isVecHart s then s else updMe s fun h => { h with wait := .settle })
  else if (myCore s).gang ≠ 1 then .ok () (done4 d 2 s)
  else if !(myCore s).vec.bound then .ok () (done4 d 1 s)
  else k va s

/-- `savev gd, ga` (R417). -/
def execSavev (a d : BitVec 5) (s : State) : Out :=
  finish (imageInstr 0x181 a d s fun va s =>
    let c := s.curCore.val
    let s := readChunks (fun _ => true) s
    let q := coreAt s c
    let places := imagePlaces q.lanes (!q.vec.vrs.isEmpty) (rowsOf q)
    (imageOut va ((0, vecHeader s c) :: places.map fun o => (o, imageLine s c o)) s).andThen fun _ s =>
    .ok () (done4 d 0 (updMyCore s fun q => { q with vec := { q.vec with vdirty := 0, vhw := Vector.replicate 32 0 } })))

/-- `rstv gd, ga` (R417). -/
def execRstv (a d : BitVec 5) (s : State) : Out :=
  finish (imageInstr 0x182 a d s fun va s =>
    (imageIn va [0] [] s).andThen fun l s =>
    let q := myCore s
    let h := (l.headD (0, 0)).2
    if hdrNarr h ≠ q.narr then .ok () (done4 d 3 s)
    else if !hdrOk h q.glanes 0 0 then .ok () (done4 d 4 s)
    else
      (imageIn va (imagePlaces q.lanes (hdrVrsp h) (hdrRows h)) [] s).andThen fun lines s =>
      .ok () (done4 d 0 (updMyCore s fun q => { q with vec := imageVec q.vec q.lanes q.glanes h lines })))

/-! ## Stopping a core (R405) -/

/-- A slot is at its pre-emption point: READY between instructions, IDLE, or in a wait that R405 records. -/
def Hart.atPoint (h : Hart) : Bool :=
  match h.st with
  | .idle => true
  | .frozen | .halted => false
  | _ =>
    !h.released &&
      (match h.wait with
       | .release _ | .inval _ | .walker _ | .jobWrite | .migrate _ | .spawn _ | .reply _ | .tokenReq _ | .ways | .arm | .messages |
           .port _ _ _ _ _ _ => false
       | _ => true)

/-- The core has stopped and its releases are covered (R406 steps 1 and 2): every slot at its point, but the one that issues the move;
no vector command, no BUSY token, and no write outstanding. -/
def coreStopped (s : State) (c : Nat) (but : Option (Fin 8)) : Bool :=
  let q := coreAt s c
  q.quiet && q.tok.toList.all (· != 1) && q.wq.isEmpty &&
    (List.finRange 8).all fun k => nothingOut s c k && (some k == but || (q.harts.get k).atPoint)

/-- The BUS_FAULT a hart's release at scope 6 would raise, with its XVAL (R406 step 2, R201, R199). -/
def pendingFault (s : State) (c : Nat) (k : Fin 8) : Option (BitVec 64) :=
  let h := hartAt s c k
  match h.errAck with
  | some va => some va
  | none => (unroutable { s with curCore := ⟨c % 2048, Nat.mod_lt _ (by decide)⟩ } h).map fun d => BitVec.ofNat 64 d

/-- The core is freed (R406 steps 4 and 5): its job state cleared, its gang dissolved, CTXJOB 0. -/
def freeCore (c : Nat) (s : State) : State :=
  let s := clearJob c none s
  updCore s c fun q => { q with
    ctxjob := 0, bound := false, marked := none, gangSize := 0, gangPos := 0, gangLeader := 0
    rcache := []
    harts := q.harts.map fun h => { h with tsmask := 0, txmask := 0, fab := [], fabMany := false } }

/-! ## The core save area (R408, R409) -/

/-- The 64 words of a hart record (R409); a follower's slot that holds no hart is IDLE in it (log entry 106).  The members that a hart halted by a watch
region has still to match stand in its XCONV and XCPC (log entry 130). -/
def hartWords (s : State) (c : Nat) (k : Fin 8) : List Nat :=
  let h := hartAt s c k
  let pend := pendingFault s c k
  let st := if h.st = .idle ∨ h.wait = .follower false then 0 else if h.st = .ready then 1 else 2
  let (xconv, xcpc) := h.shadow.getD (h.xconv, h.xcpc.toList)
  let rest := match h.wait, h.timer with
    | .park, some t => t - s.clock
    | _, _ => 0
  let fr (i : Nat) : Nat :=
    match h.frames.reverse[i]? with
    | some f => f.ret.toNat + 2 ^ 48 * f.d.toNat
    | none => 0
  [st + (if h.sys then 4 else 0) + 8 * h.frames.length + (if pend.isSome then 128 else 0) + 256 * h.latch.toNat] ++
    (h.g.toList.drop 1).map (·.toNat) ++ h.ox.toList.map (·.toNat) ++
    [h.pc.toNat, h.xpc.toNat, h.xcause.toNat, h.xval.toNat, h.xstat.toNat, h.xbase.toNat, h.xscratch.toNat, xconv.toNat,
     h.fstat.toNat, h.bwto.toNat, h.geps.toNat, h.feretry.toNat, h.feCount, rest] ++
    ((List.range 7).map fun i => (xcpc.getD i 0).toNat) ++ [fr 0, fr 1, (pend.getD 0).toNat]

/-- The 64 bytes of a message in its ring (R408). -/
def msgWords (m : Msg) : List Nat := [m.handler.toNat] ++ m.w.toList.map (·.toNat) ++ [m.sender.toNat, 0, 0]

/-- The first 0x4000 bytes of an area as words. -/
def areaWords (s : State) (c : Nat) : List Nat :=
  let q := coreAt s c
  let ncls (k : Nat) : Nat := (q.ring.toList.getD k []).length
  let ring (k : Nat) : List Nat :=
    (List.range 32).flatMap fun i =>
      match (q.ring.toList.getD k [])[i]? with
      | some m => msgWords m
      | none => List.replicate 8 0
  [1 + 256 * (q.gangSize.toNat + 4 * q.gangPos.toNat) + 2 ^ 16 * ncls 0 + 2 ^ 24 * ncls 1 + 2 ^ 32 * ncls 2 + 2 ^ 40 * ncls 3,
   q.ctxjob.toNat, q.narr + 256 * q.nbank + 2 ^ 32 * (q.ctxlc.toNat % 2 ^ 20),
   (if q.vec.bound then 16 + q.vec.slot.val else 0) + 2 ^ 16 * (tkstat q).toNat + 2 ^ 32 * q.mbFull.toNat, 0, 0, 0, 0] ++
    q.mb.toList.map (·.toNat) ++ q.cstart.toList.map (·.toNat) ++ q.cpc.toList.map (·.toNat) ++ q.bfmt.toList.map (·.toNat) ++
    List.replicate 16 0 ++ (List.finRange 8).flatMap (hartWords s c) ++
    ((List.range 4).flatMap ring) ++ List.replicate 448 0

/-- Base and column of a core's save area; it must lie in DRAM of this device (R404, R408). -/
def areaBase (s : State) (c narrBanks : Nat) : Option (Nat × Fin 8) :=
  let a := (coreAt s c).svarea.toNat
  let last := a + 0x44C000 + 0x41000 * narrBanks - 1
  match targetOf s a, targetOf s last with
  | .dram k _, .dram k' _ => if k = k' then some (a, k) else none
  | _, _ => none

/-- Ways of a configuration that are banks, none when there is none: the area then ends with the vector save image. -/
def areaBanks (nbank : Nat) : Nat := if nbank = 0 then 0 else 16

/-- Bytes of an area that a restore reads, for a header and a number of banks. -/
def areaReads (hdr lanes nbank off : Nat) : Bool :=
  decide (off < 0x4040) ||
    (decide (0x5000 ≤ off) && decide (off < 0x9000)) ||
    (hdrVrsp hdr && decide (0xC000 ≤ off) && decide (off < 0xC000 + 8 * lanes)) ||
    (decide (0x4C000 ≤ off) && decide (off < 0x44C000) &&
      decide ((off - 0x4C000) % 0x20000 < hdrRows hdr ((off - 0x4C000) / 0x20000) * (lanes / 8))) ||
    (decide (0x44C000 ≤ off) && decide (16 ≤ (off - 0x44C000) / 0x41000 + nbank) && decide ((off - 0x44C000) / 0x41000 < 16))

/-- The GPAs of the lines of the area at a that a save writes and a restore reads. -/
def areaLines (a hdr lanes nbank : Nat) : List Nat :=
  ((List.range ((0x44C000 + 0x41000 * areaBanks nbank) / 64)).filter fun l => areaReads hdr lanes nbank (64 * l)).map fun l => a + 64 * l

/-- The bytes of core c's area at a laid over memory (R408). -/
def areaBytes (c a : Nat) (s : State) : List Host.Cell :=
  let q := coreAt s c
  let put (m : List Host.Cell) (off n x : Nat) : List Host.Cell := memWrite m (a + off) n x
  let m := put s.mem 0 0x4000 (packWords 64 (areaWords s c))
  let m := put m 0x4000 64 (vecHeader s c)
  let rows := rowsOf (coreAt s (leaderOf s c))
  let m := (imagePlaces q.lanes (!q.vec.vrs.isEmpty) rows).foldl (fun m o => put m (0x4000 + o) 64 (imageLine s c o)) m
  let banks := (List.range 16).filter fun w => decide (16 ≤ w + q.nbank)
  banks.foldl (fun m w =>
    let o := a + 0x44C000 + 0x41000 * w
    let m := moveBytes (bankGpa s c w 0) o 262144 m
    (List.range 4096).foldl (fun (m : List Host.Cell) i =>
      memPut m (o + 262144 + i) (BitVec.ofNat 8 (packWords 1 ((List.range 8).map fun j =>
        if tabGet false q.full (32768 * w + 8 * i + j) then 1 else 0)))) m) m

/-- The context of core c is written into its area, line by line at their home slices (R52, R406 step 3). -/
def writeArea (c a : Nat) (s : State) : State :=
  let q := coreAt s c
  let m := areaBytes c a s
  (areaLines a (vecHeader s c) q.lanes q.nbank).foldl (fun s g => (ownerWrite false g 64 (memRead m g 64) s).2) s

/-- Byte i of the frames kept under a hart's g2: its translation, PRIV of R21, and its way; where it lies, and as a coherent access or not.  None while
it waits. -/
def frameAt (c : Nat) (sys : Bool) (rights : BitVec 5) (va : BitVec 64) (i : Nat) (s : State) : Option (Except Cause (Bool × Nat) × State) :=
  match translate s c sys rights va with
  | (.ok g cls _, s) =>
    let own := match targetOf s g with | .dram col _ => decide (col = colOf c) | _ => false
    let g := redirect s (coreAt s c).job g
    if isPrivReg s g && !sys then some (.error .priv, s)
    else
      (wayTo c g (i == 0 || va.toNat % 64 == 0) s).map fun (z, s) =>
        (match z with | some z => .error z | none => .ok (own && cls == 0, g), s)
  | (.fault z, s) => some (.error z, s)
  | _ => none

/-- Frames 2 to 7 of a hart pushed below its g2 (R409), 48 bytes under the hart's own ranges: done, a fault, or a locked range. -/
def pushFrames (c : Nat) (k : Fin 8) (s : State) : Option (Option Cause × State) :=
  let h := hartAt s c k
  if h.frames.length ≤ 2 then some (none, s)
  else
    let bytes := packWords 64 ((List.range 6).map fun i =>
      match h.frames.reverse[i + 2]? with
      | some f => f.ret.toNat + 2 ^ 48 * f.d.toNat
      | none => 0)
    (List.range 48).foldl (fun (r : Option (Option Cause × State)) i =>
      match r with
      | some (none, s) =>
        (match frameAt c h.sys needWr (h.gr 2 - 48 + BitVec.ofNat 64 i) i s with
         | some (.ok (coh, g), s) =>
           let (ok, s) := ownerWrite coh g 1 (bytes / 2 ^ (8 * i) % 256) s
           some (if ok then (none, s) else (some .busFault, s))
         | some (.error z, s) => some (some z, s)
         | none => none)
      | r => r) (some (none, s))

/-- A save or restore ends with a status (R404). -/
def endSave (c status : Nat) (slot : Nat) (cause : BitVec 8) (s : State) : State :=
  updCore s c fun q => { q with svctl := BitVec.ofNat 64 (2 ^ 32 * status + 2 ^ 40 * cause.toNat + 2 ^ 48 * slot) }

/-- The frames of every slot of some cores pushed, in order: a status 6 with its slot and cause, or the state. -/
def pushAll (cs : List Nat) (s : State) : Option (Option (Nat × BitVec 8) × State) :=
  (cs.flatMap fun c => (List.finRange 8).map fun k => (c, k)).foldl (fun (r : Option (Option (Nat × BitVec 8) × State)) (c, k) =>
    match r with
    | some (none, s) =>
      (match pushFrames c k s with
       | none => none
       | some (none, s) => some (none, s)
       | some (some z, s) => some (some (k.val, causeCode z), s))
    | r => r) (some (none, s))

/-- SAVE (R406, R407). The save sequencer stores a core's context, its whole gang's, and frees it, once every slot has stopped.  The area has no place
for a `barw` latch (R409): a slot saved while it waits in `barw` sets the latch anew as it re-issues (log entry 132). -/
def execSave (core : Nat) (s : State) : Out :=
  if 2048 ≤ core then .fault .noSuchUnit
  else
    let q := coreAt s core
    if !(q.svctl.getLsbD 63 && q.svctl.getLsbD 0) || (colAt s (colOf core)).tripped then .next s
    else if q.job = 0 then .next (endSave core 1 0 0 s)
    else
      let cs := gangOf s core
      if !cs.all fun c => coreStopped s c none then .next s
      else if cs.any fun c => (areaBase s c (areaBanks (coreAt s c).nbank)).isNone then .next (endSave core 2 0 0 s)
      else if cs.any fun c =>
          (match areaBase s c 0 with | some (_, k) => (colAt s k).vbstat.getLsbD 63 | none => false) ||
          ((List.range 16).any fun w => decide (16 ≤ w + (coreAt s c).nbank) && lineBad s (bankGpa s c w 0)) then
        .next (endSave core 3 0 0 s)
      else
        match pushAll cs s with
        | none => .next s
        | some (some (slot, cause), s) => .next (endSave core 6 slot cause s)
        | some (none, s) =>
          let s := cs.foldl (fun s c =>
            wakeWays c ((List.range 16).filter fun w => decide (16 ≤ w + (coreAt s c).nbank)) s) s
          let s := cs.foldl (fun s c =>
            match areaBase s c 0 with
            | some (a, _) => writeArea c a s
            | none => s) s
          .next (endSave core 0 0 0 (cs.foldl (fun s c => freeCore c s) s))

/-! ## Restoring (R412) -/

/-- A hart resumes from its record (R409, R412); one with a pending BUS_FAULT traps as it resumes (R406). -/
def resumeHart (c : Nat) (k : Fin 8) (s : State) : State :=
  let h := hartAt s c k
  match h.errAck with
  | some va =>
    if h.st = .idle then s
    else actAs c k (takeTrap .busFault va false) (updHart s c k fun h => { h with errAck := none })
  | none => s

/-- The recent-write record of a restored or migrated hart: every bit set, every countdown at 512 (R59). -/
def freshRecent (now : Nat) : Tab Recent := (List.range 74).map fun k => (k, { bit := true, out := 0, count := now + 512 })

/-- The 64 words of a hart record as a hart; the unit of its record is not in the image and comes free (log entry 2).  Where in its replay it stood is
found again by the address of the next member (R400, R412; log entry 130). -/
def wordsHart (old : Hart) (w : Nat → BitVec 64) (frames : List Frame) (now : Nat) (hasRec : Bool) (unit : BitVec 32) (lrec : BitVec 12)
    (stage : BitVec 3) : Hart :=
  let st := (w 0).toNat % 4
  let rest := (w 53).toNat
  { old.cleared with
    st := if st = 0 then .idle else .ready
    pc := (w 40).setWidth 48 &&& ~~~(1#48)
    g := Vector.ofFn fun i => if i.val = 0 then 0 else w i.val
    ox := Vector.ofFn fun i => w (32 + i.val)
    xpc := w 41, xcause := w 42, xval := w 43, xstat := w 44, xbase := w 45, xscratch := w 46, xconv := w 47
    fstat := w 48, bwto := w 49, geps := w 50, feretry := w 51, feCount := (w 52).toNat
    xcpc := Vector.ofFn fun i => w (54 + i.val)
    latch := (w 0).extractLsb' 8 4
    replayed := 10
    timer := if rest = 0 then none else some (now + rest)
    recent := freshRecent now
    errAck := if (w 0).getLsbD 7 then some (w 63) else none
    frames := frames
    hasRec := hasRec && st != 0, unit := unit, lrec := lrec, stage := stage }

/-- The bits of word i of a hart record that carry something: those of the registers it holds (R148, R402, R409); every other is reserved
(R2). -/
def hartMask (i : Nat) (x : BitVec 64) : BitVec 64 :=
  if i = 0 then onlyBits x 11 0
  else if i = 40 ∨ i = 41 ∨ i = 45 ∨ (54 ≤ i ∧ i ≤ 60) then onlyBits x 47 1
  else if i = 42 then onlyBits x 7 0
  else if i = 44 then onlyBits x 2 0
  else if i = 47 then onlyBits x 62 60 ||| onlyBits x 58 56 ||| onlyBits x 51 0
  else if i = 48 then onlyBits x 10 8 ||| onlyBits x 4 0
  else if i = 49 ∨ i = 50 then onlyBits x 31 0
  else if i = 51 then onlyBits x 15 0
  else if i = 61 ∨ i = 62 then onlyBits x 52 0
  else x

/-- The limits of a hart record (R408), its reserved bits zero (R2). -/
def hartOk (w : Nat → BitVec 64) : Bool :=
  decide ((w 0).toNat % 4 ≤ 2) && decide ((w 0).toNat / 8 % 16 ≤ 8) && (w 0).getLsbD 2 == (w 44).getLsbD 0 &&
    (List.range 64).all fun i => hartMask i (w i) == w i

/-- Word i of an area. -/
def areaWord (s : State) (a i : Nat) : BitVec 64 := dword s.mem (a + 8 * i)

/-- Whether the image in an area is good for the core at a place of its gang (R408). -/
def areaOk (s : State) (a size pos : Nat) : Bool :=
  let w := areaWord s a
  let ncls (k : Nat) : Nat := byteField (w 0).toNat (2 + k) 1
  let narr := (w 2).toNat % 256
  let nbank := (w 2).toNat / 256 % 256
  let hdr := memRead s.mem (a + 0x4000) 64
  let vo := (w 3).toNat % 256
  let tk := (w 3).toNat / 2 ^ 16 % 65536
  (w 0).toNat % 256 == 1 && (w 0).toNat / 256 % 256 == size + 4 * pos && decide ((w 0).toNat / 2 ^ 48 = 0) &&
    ((List.range 4).all fun k => decide (ncls k ≤ 32)) &&
    w 1 == (onlyBits (w 1) 47 36 ||| onlyBits (w 1) 34 0) && (findJob s ((w 1).setWidth 32)).isSome &&
    decide (narr + nbank ≤ 16) && w 2 == (onlyBits (w 2) 4 0 ||| onlyBits (w 2) 12 8 ||| onlyBits (w 2) 51 32) &&
    decide ((w 3).toNat < 2 ^ 40) && byteField (w 3).toNat 1 1 == 0 && (vo == 0 || (decide (16 ≤ vo) && decide (vo ≤ 21))) &&
    ((List.range 8).all fun n => tk / 4 ^ n % 4 == 0 || tk / 4 ^ n % 4 == 2) &&
    ((List.range 4).all fun i => w (4 + i) == 0) && ((List.range 16).all fun i => w (48 + i) == 0) &&
    ((List.range 448).all fun i => w (1600 + i) == 0) &&
    ((List.range 8).all fun i => w (16 + i) == (onlyBits (w (16 + i)) 63 56 ||| onlyBits (w (16 + i)) 47 0) &&
      w (24 + i) == onlyBits (w (24 + i)) 47 0) &&
    ((List.range 16).all fun i =>
      w (32 + i) == (onlyBits (w (32 + i)) 49 32 ||| onlyBits (w (32 + i)) 23 16 ||| onlyBits (w (32 + i)) 4 0)) &&
    ((List.range 8).all fun k => hartOk fun i => w (64 + 64 * k + i)) &&
    ((List.range 4).all fun c => (List.range (ncls c)).all fun i =>
      let m := 576 + 256 * c + 8 * i
      w (m + 5) == (onlyBits (w (m + 5)) 63 45 ||| onlyBits (w (m + 5)) 39 20 ||| onlyBits (w (m + 5)) 2 0) &&
        w (m + 6) == 0 && w (m + 7) == 0) &&
    hdrNarr hdr == narr && (pos != 0 || hdrBound hdr == decide (16 ≤ vo)) &&
    hdrOk hdr (narr * 2048 * 2 ^ size) size pos

/-- The frames of a restored hart (R409): two from its record, the deeper ones popped from below its g2.  Words that cannot be read
give no frame value of their own: they read 0. -/
def popFrames (c : Nat) (w : Nat → BitVec 64) (s : State) : Option (Option Cause × List Frame × State) :=
  let depth := (w 0).toNat / 8 % 16
  let frame (x : BitVec 64) : Frame := { ret := x.setWidth 48, d := x.extractLsb' 48 5 }
  let deep := (List.range 48).foldl (fun (r : Option (Option Cause × Nat × State)) i =>
    match r with
    | some (none, v, s) =>
      (match frameAt c ((w 0).getLsbD 2) needRd (w 2 - 48 + BitVec.ofNat 64 i) i s with
       | some (.ok (coh, g), s) =>
         (match ownerRead coh g 1 s with
          | (some b, s) => some (none, v + b * 2 ^ (8 * i), s)
          | (none, s) => some (some .busFault, v, s))
       | some (.error z, s) => some (some z, v, s)
       | none => none)
    | r => r) (if depth ≤ 2 then some (some .busFault, 0, s) else some (none, 0, s))
  match deep with
  | none => none
  | some (e, v, s) =>
    let l := (List.range depth).map fun i => frame (if i < 2 then w (61 + i) else BitVec.ofNat 64 (v / 2 ^ (64 * (i - 2))))
    some (if depth ≤ 2 then none else e, l.reverse, s)

/-- The ways, banks, registers, rings and tokens of a core from its area (R412).  An area holds no faulting address of a token: XVAL of a
COPY_ERR taken on a token restored in ERROR is a free value (log entry 104). -/
def loadCore (c a : Nat) (s : State) : State :=
  let w := areaWord s a
  let narr := (w 2).toNat % 256
  let nbank := (w 2).toNat / 256 % 256
  let vo := (w 3).toNat % 256
  let hdr := memRead s.mem (a + 0x4000) 64
  let size := (w 0).toNat / 256 % 4
  let pos := (w 0).toNat / 1024 % 4
  let job : BitVec 32 := (w 1).setWidth 32
  let lrec := (w 1).toNat / 2 ^ 36 % 4096
  let stage := (w 1).toNat / 2 ^ 32 % 8
  let r := recOf s job lrec
  let busy := (List.range 7).any fun k => (w (64 + 64 * k)).toNat % 4 != 0
  let bound := r.status == stRunning && decide (stage < r.nstage) && (decide (lrec ≠ 0) || decide (stage ≠ 0) || busy || decide (16 ≤ vo))
  let s := applyWays c narr nbank s
  let lanes := narr * 2048
  let places := imagePlaces lanes (hdrVrsp hdr) (hdrRows hdr)
  let lines := places.map fun o => (o, memRead s.mem (a + 0x4000 + o) 64)
  let banks := (List.range 16).filter fun k => decide (16 ≤ k + nbank)
  let m := banks.foldl (fun m k => moveBytes (a + 0x44C000 + 0x41000 * k) (bankGpa s c k 0) 262144 m) s.mem
  let full := banks.foldl (fun t k => (List.range 32768).foldl (fun t i =>
    if (memGet s.mem (a + 0x44C000 + 0x41000 * k + 262144 + i / 8)).getLsbD (i % 8) then tabPut t (32768 * k + i) true else t) t) []
  let ring (k : Nat) : List Msg := (List.range (byteField (w 0).toNat (2 + k) 1)).map fun i =>
    let x (j : Nat) : BitVec 64 := w (576 + 256 * k + 8 * i + j)
    { handler := x 0, w := #v[x 1, x 2, x 3, x 4], cls := BitVec.ofNat 2 k, sender := x 5 }
  let tok (i : Nat) : BitVec 2 := BitVec.ofNat 2 ((w 3).toNat / 2 ^ 16 / 4 ^ i)
  updCore { s with mem := m, freeIdx := s.freeIdx + 8 } c fun q =>
    let owner : Vec := Vec.bindTo (if 16 ≤ vo then some ⟨(vo - 16) % 8, Nat.mod_lt _ (by decide)⟩ else none)
    let img := imageVec owner lanes (lanes * 2 ^ size) hdr lines
    { q with
      ctxjob := w 1, ctxlc := onlyBits ((w 2) >>> 32) 19 0, bound := bound
      gangSize := BitVec.ofNat 2 size, gangPos := BitVec.ofNat 2 pos, gangLeader := if size = 0 then 0 else BitVec.ofNat 8 (idxOf c - pos)
      mb := Vector.ofFn fun i => w (8 + i.val), mbFull := BitVec.ofNat 8 ((w 3).toNat / 2 ^ 32)
      tok := Vector.ofFn fun i => tok i.val
      tokVa := Vector.ofFn fun i => if tok i.val = 2 then Config.freeWord (s.freeIdx + i.val) else 0
      cstart := Vector.ofFn fun i => w (16 + i.val), cpc := Vector.ofFn fun i => w (24 + i.val)
      bfmt := Vector.ofFn fun i => w (32 + i.val)
      ring := Vector.ofFn fun i => ring i.val
      full := full, l0i := [], l0d := [], rcache := [], binding := none
      vec := if pos = 0 then img else { Vec.bindTo none with v := img.v, vrs := img.vrs, acc := img.acc } }

/-- The harts of a core from its area. -/
def loadHarts (c a : Nat) (s : State) : Option (Option (Nat × BitVec 8) × State) :=
  let pos := (areaWord s a 0).toNat / 1024 % 4
  (List.finRange 8).foldl (fun (r : Option (Option (Nat × BitVec 8) × State)) k =>
    match r with
    | some (none, s) =>
      let w (i : Nat) := areaWord s a (64 + 64 * k.val + i)
      (match popFrames c w s with
       | none => none
       | some (some z, _, s) => some (some (k.val, causeCode z), s)
       | some (none, fr, s) =>
         let (u, s) := if (w 0).toNat % 4 = 0 ∨ k.val = 7 then (0, s) else takeFree s
         let q := coreAt s c
         let s := updHart s c k fun h =>
           let n := wordsHart h w fr s.clock (q.bound && k.val != 7) (u.setWidth 32) q.lrecIx q.stageIx
           if pos = 0 then n else { n with st := .parked, wait := .follower (n.st != .idle) }
         some (none, resumeHart c k s))
    | r => r) (some (none, s))

/-- The cores a restore fills: a leader and its followers, from GANG of its area (R407). -/
def restoreCores (s : State) (core a : Nat) : List Nat :=
  (List.range (2 ^ ((areaWord s a 0).toNat / 256 % 4))).map (core + ·)

/-- Whether the slots of a core are all IDLE. -/
def slotsIdle (s : State) (c : Nat) : Bool := (coreAt s c).harts.toList.all fun h => h.st == .idle

/-- RESTORE (R407, R412). The save sequencer loads a context onto a free core, a gang's onto the same cores; it waits for a power transition of their
column to end (R129). -/
def execRestore (core : Nat) (s : State) : Out :=
  if 2048 ≤ core then .fault .noSuchUnit
  else
    let q := coreAt s core
    if !(q.svctl.getLsbD 63 && q.svctl.getLsbD 1) || (colAt s (colOf core)).tripped then .next s
    else if q.job ≠ 0 then .next (endSave core 1 0 0 s)
    else
      match areaBase s core 0 with
      | none => .next (endSave core 2 0 0 s)
      | some (a, _) =>
        if lineBad s a then .next (endSave core 3 0 0 (readLines false [a] s))
        else
          let cs := restoreCores s core a
          let size := (areaWord s a 0).toNat / 256 % 4
          let area (c : Nat) : Option (Nat × Fin 8) := areaBase s c (areaBanks ((areaWord s (coreAt s c).svarea.toNat 2).toNat / 256 % 256))
          if cs.any fun c => (coreAt s c).job != 0 || !slotsIdle s c then .next (endSave core 1 0 0 s)
          else if cs.any fun c => (area c).isNone then .next (endSave core 2 0 0 s)
          else
            let lines (c : Nat) : List Nat :=
              match area c with
              | none => []
              | some (b, _) =>
                areaLines b (memRead s.mem (b + 0x4000) 64) ((areaWord s b 2).toNat % 256 * 2048) ((areaWord s b 2).toNat / 256 % 256)
            let s' := cs.foldl (fun t c => readLines false (lines c) t) s
            if cs.any fun c => (lines c).any (lineBad s) then .next (endSave core 3 0 0 s')
            else if size = 3 || core % 2 ^ size != 0 ||
                !((cs.zipIdx).all fun (c, i) => areaOk s (coreAt s c).svarea.toNat size i) then .next (endSave core 4 0 0 s')
            else if cs.any fun c => (colAt s (colOf c)).layerctl.getLsbD 2 then .next s
            else
              let t := cs.foldl (fun s c => loadCore c (coreAt s c).svarea.toNat s) s'
              let r := cs.foldl (fun (r : Option (Option (Nat × BitVec 8) × State)) c =>
                match r with
                | some (none, s) => loadHarts c (coreAt s c).svarea.toNat s
                | r => r) (some (none, t))
              match r with
              | none => .next s
              | some (some (slot, cause), _) => .next (endSave core 6 slot cause s)
              | some (none, t) => .next (endSave core 0 0 0 t)

/-! ## Migration (R418 to R420) -/

/-- The status `migrate` reports without moving anything (R418). -/
def moveStatus (s : State) (x y : Nat) : Nat :=
  let a := coreAt s x
  let b := coreAt s y
  let high := (List.range 16).any fun w => decide (8 ≤ w) && wayMode a.narr a.nbank w != 1
  if a.job = 0 then 1
  else if b.job ≠ 0 ∨ !slotsIdle s y then 2
  else if a.gang ≠ 1 then 3
  else if 64 ≤ (colAt s (colOf x)).fwd.length then 4
  else if !(colAt s (colOf y)).layerctl.getLsbD 0 ∧ high then 5
  else if (List.range 16).any fun w => decide (16 ≤ w + a.nbank) && (lineBad s (bankGpa s x w 0) || lineBad s (bankGpa s y w 0)) then 6
  else 0

/-- The context of a stopped core streams to another (R418 step 2). -/
def streamCore (x y : Nat) (s : State) : State :=
  let a := coreAt s x
  let s := applyWays y a.narr a.nbank s
  let banks := (List.range 16).filter fun w => decide (16 ≤ w + a.nbank)
  let s := { s with mem := banks.foldl (fun m w => moveBytes (bankGpa s x w 0) (bankGpa s y w 0) 262144 m) s.mem }
  let moved (k : Fin 8) : Hart :=
    let h := a.harts.get k
    { h with
      st := if h.st = .idle then .idle else .ready
      wait := .none, errAck := pendingFault s x k, tsmask := 0, txmask := 0, fab := [], fabMany := false, recent := freshRecent s.clock
      msgsOut := 0, dropped := []
      timer := (match h.wait with | .park => h.timer | _ => none)
      dstep := (hartAt s y k).dstep, dconv := (hartAt s y k).dconv }
  updCore s y fun q => { q with
    harts := Vector.ofFn moved
    ctxjob := a.ctxjob, ctxlc := a.ctxlc, bound := a.bound, mb := a.mb, mbFull := a.mbFull, tok := a.tok, tokVa := a.tokVa
    latchSet := a.latchSet, latchDone := a.latchDone, cstart := a.cstart, cpc := a.cpc, bfmt := a.bfmt, ring := a.ring, full := a.full, l0i := [], l0d := [], rcache := []
    vec := { a.vec with
      vhw := Vector.ofFn fun n => BitVec.ofNat 64 (rowsOf a n.val * a.glanes)
      vpi := if a.vec.bound then Vector.replicate 32 a.vec.vstart else a.vec.vpi } }

/-- Every router's logical-core table names the new core, cached entries dropped, and a forwarding entry is installed (R418 step 3,
R462).  An older entry of the job that leads away from the new core goes: R419 does not say where packets end that two entries send round (log
entry 133). -/
def repoint (x y : Nat) (s : State) : State :=
  let a := coreAt s x
  let l := a.ctxlc.toNat % 2 ^ 20
  let e := 2 ^ 63 + s.fabric.dev.toNat * 2 ^ 48 + y
  let s := (List.finRange 8).foldl (fun s col =>
    let c := colAt s col
    let s := match jobPlace c a.job with
      | some j =>
        if l < (vget c.joblct j).toNat / 2 ^ 32 % 2 ^ 21 then (ownerWrite true ((vget c.lctbase j).toNat + 8 * l) 8 e s).2 else s
      | none => s
    updCol s col fun c => { c with lctCache := c.lctCache.filter fun z => !(z.1 == a.job && z.2.1 == l) }) s
  let f : Fwd := { job := a.job, src := idxOf x, dst := y }
  let s := updCol s (colOf y) fun c => { c with fwd := c.fwd.filter fun g => !(g.job == f.job && g.src == idxOf y) }
  updCol s (colOf x) fun c => { c with fwd := f :: c.fwd.filter fun g => !(g.job == f.job && g.src == f.src) }

/-- The move of a stopped core (R418). -/
def moveCore (x y : Nat) (s : State) : State :=
  let s := wakeWays x ((List.range 16).filter fun w => decide (16 ≤ w + (coreAt s x).nbank)) s
  freeCore x (repoint x y (streamCore x y s))

/-- The slots of the destination resume (R418 step 4). -/
def resumeAll (y : Nat) (s : State) : State := (List.finRange 8).foldl (fun s k => resumeHart y k s) s

/-- `migrate gd, ga, gb` (R418). -/
def execMigrate (b a d : BitVec 5) (s : State) : Out :=
  let x := (gr s a).toNat % 2048
  let y := (gr s b).toNat % 2048
  finish (
    if !isSys s then .trap .priv (rWord 0x1E 0x183 b a d) s
    else settled s fun s =>
      let own := x == s.curCore.val
      let st := moveStatus s x y
      if st ≠ 0 then .ok () (done4 d (BitVec.ofNat 64 st) s)
      else if !coreStopped s x (if own then some s.curSlot else none) || (colAt s (colOf y)).layerctl.getLsbD 2 then
        .hold (park (.migrate x) s)
      else if own then
        -- the instruction completes on the destination
        let k := s.curSlot
        .ok () (resumeAll y (actAs y k (done4 d 0) (moveCore x y s)))
      else .ok () (done4 d 0 (resumeAll y (moveCore x y s))))

/-- `fwdclr ga, gb` (R420). -/
def execFwdclr (b a : BitVec 5) (s : State) : Out :=
  let job : BitVec 32 := (gr s a).setWidth 32
  let n := (gr s b).toNat % 2048
  finish (
    if !isSys s then .trap .priv (rWord 0x1E 0x184 b a 0) s
    else settled s fun s =>
      let clean (c : Column) : Column := { c with fwd := c.fwd.filter fun f => !(f.job == job && (n == 0x7FF || f.src == n)) }
      .ok () (retire 4 { s with cols := s.cols.map clean }))

end Sys2Proof.Machine
end

