-- ==== Sys2Proof/Machine/Messages.lean ====
section
/-!
DEFINITION. Events of the column routers, the barrier wires, the time-outs (R267 to R269, R393, R462), the distributor's decisions
(R366 to R385), messages and spawn requests where they arrive (R387, R389, R393), a core's job change (R363), and a pass of the
convoy (R178).
-/

namespace Sys2Proof.Machine

/-! ## The router (R419, R462) -/

/-- A message is refused (R393): its own count rises and it waits for its retry. -/
def refuseMsg (p : Pkt) (s : State) : State :=
  match p.kind with
  | .msg m l n => putPkt { p with kind := .msg m l (n + 1), loc := .retry, born := s.clock } s
  | _ => s

/-- A message ends, placed or dropped: its sender, if it still has one, counts one fewer (R393). -/
def endMsg (p : Pkt) (s : State) : State :=
  let s := dropPkt p.id s
  if p.core < 2048 then msgSettled p.core p.slot s else s

/-- A router sends a message on by the logical-core table (R462): to a core of this device, to another device, whose answer it then waits for, or
nowhere, which refuses it. -/
def routeMsg (p : Pkt) (l : BitVec 20) (s : State) : State :=
  match resolveCore (colOf p.core) p.job l.toNat s with
  | (.core t, s) => putPkt { p with gpa := t, loc := .mesh } s
  | (.device d, t) =>
    if !routeUp s (colOf p.core) d then refuseMsg p t
    else if maySend s (colOf p.core) d 2 then putPkt { p with loc := .away } (useAllowance (colOf p.core) d 2 t) else s
  | (.none, s) => refuseMsg p s

/-- ROUTE (R419, R429, R462). A column router forwards a packet; while it holds the frozen job's packets only those of a hart that the
debug module steps pass (R436). -/
def execRoute (id : Nat) (s : State) : Out :=
  match findPkt s id with
  | none => .next s
  | some p =>
    let held := (colAt s (colOf p.core)).hold && p.job == s.night.nfctl.extractLsb' 32 32 &&
      !(decide (p.core < 2048) && (hartAt s p.core p.slot).stepped)
    if p.loc ≠ .router ∨ held ∨ routeBehind s p then .next s
    else
      match p.kind with
      | .msg _ l _ => .next (routeMsg p l s)
      | _ => .next (routePkt p s)

/-! ## Barrier wires and time-outs -/

/-- The cores of wire set k of a column by its kind: 0 row k, 1 mesh column k, 2 the die (R267). -/
def wireCores (col : Fin 8) (w k : Nat) : List Nat := wireSet (256 * col.val + (if w = 0 then 16 * k else k)) w

/-- A waiting hart's instruction completes with a value for its destination; extra is what comes with the completion. -/
def completeWait (c : Nat) (k : Fin 8) (d : BitVec 5) (v : BitVec 64) (extra : State → State) (s : State) : State :=
  actAs c k (fun s => done4 d v (extra s)) s

/-- WIRE_COMPLETION (R267, R268). A generation completes when every participating core has arrived: the latches are cleared and every
hart waiting on it goes on with 0, acquiring.  A core whose `barw` timed out is still owed the generation: its next `barw` on the set completes with
it (R268). -/
def execWireCompletion (col : Nat) (wire : BitVec 2) (k : Nat) (s : State) : Out :=
  if 8 ≤ col ∨ 3 ≤ wire.toNat ∨ 16 ≤ k then .fault .noSuchUnit
  else
    let w := wire.toNat
    let cs := wireCores ⟨col % 8, Nat.mod_lt _ (by decide)⟩ w k
    if !(cs.all (wireArrived s w)) || !(cs.any fun c => (coreAt s c).latchSet.getLsbD w) then .next s
    else
      let waits (c : Nat) : Bool := (coreAt s c).harts.toList.any fun h => match h.wait with | .wires w' _ => w' == w | _ => false
      let s := cs.foldl (fun s c =>
        if (coreAt s c).latchSet.getLsbD w then
          updCore s c fun q => { q with
            latchSet := q.latchSet &&& ~~~(1#3 <<< w), latchDone := if waits c then q.latchDone else q.latchDone ||| (1#3 <<< w) }
        else s) s
      .next (cs.foldl (fun s c => (List.finRange 8).foldl (fun s j =>
        match (hartAt s c j).wait with
        | .wires w' d => if w' = w then completeWait c j d 0 acquire s else s
        | _ => s) s) s)

/-- What `barw` reports of the cores that have not arrived (R268). -/
def missingCores (s : State) (c w : Nat) : BitVec 64 :=
  let absent := (wireSet c w).filter fun x => !wireArrived s w x
  let bits (f : Nat → Nat) : Nat := (List.range 16).foldl (fun r i => if absent.any fun x => f x == i then r + 2 ^ i else r) 0
  let low := if w = 0 then bits meshColOf else bits rowOf
  let high := if w = 2 then bits meshColOf else 0
  BitVec.ofNat 64 (2 ^ 63 + 2 ^ 16 * high + low)

/-- A hart's timer has run out; the timers of a FROZEN or HALTED hart stand still (R131). -/
def Hart.elapsed (h : Hart) (now : Nat) : Bool :=
  (h.st == .parked || h.st == .stalled) && (match h.timer with | some t => decide (t ≤ now) | none => false)

/-- BARW_TIMEOUT (R268). A `barw` that has waited BWTO.LIMIT s-cycles ends without its acquire and reports the missing cores; the
core's latch stays set. -/
def execBarwTimeout (core : Nat) (slot : BitVec 3) (s : State) : Out :=
  if 2048 ≤ core then .fault .noSuchUnit
  else
    let k := slot.toFin
    let h := hartAt s core k
    match h.wait with
    | .wires w d => .next (if h.elapsed s.clock then completeWait core k d (missingCores s core w) id s else s)
    | _ => .next s

/-- PARK_TIMEOUT (R269). The time given to `park` has passed: event bit 0 is latched and the hart goes on. -/
def execParkTimeout (core : Nat) (slot : BitVec 3) (s : State) : Out :=
  if 2048 ≤ core then .fault .noSuchUnit
  else
    let k := slot.toFin
    let h := hartAt s core k
    .next (if h.wait = .park ∧ h.elapsed s.clock then
      updHart s core k fun h => { h.wake with latch := h.latch ||| 1, timer := none } else s)

/-! ## The distributor -/

/-- DECISION_CYCLE (R367, R375 to R378). -/
def execDecisionCycle (s : State) : Out := .next (decisionCycle s)

/-- CONTEXT_SWITCH (R368). Context q, when eligible, is switched in, another one out if there is no place. -/
def execContextSwitch (q : Nat) (s : State) : Out :=
  if 1024 ≤ q then .fault .noSuchUnit
  else if stilledAt s 0 (readCtx s q).1.job then .next s
  else .next (contextSwitch q s)

/-- The queue windows do not answer: column 0 is being reset, or has halted on its temperature (R467, R468). -/
def queuesShut (s : State) : Bool := (s.boot.rstBusy && s.boot.rstCols.getLsbD 0) || (colAt s 0).tripped

/-- QTAIL (R366, R369). A host write of a context's TAIL; it waits while column 0 is reset (R467). -/
def execQtail (q : Nat) (v : BitVec 64) (s : State) : Out :=
  if 1024 ≤ q then .fault .noSuchUnit else .next (if queuesShut s then s else writeTail q v s)

/-- LOAD (R366). A host write of 1 to QCTL.LOAD: the image is read when the context is switched in; it waits while column 0 is reset (R467). -/
def execLoad (q : Nat) (s : State) : Out :=
  if 1024 ≤ q then .fault .noSuchUnit else .next (if queuesShut s then s else updCtx s q fun c => { c with loadReq := true })

/-- STAGE_FEED (R381). -/
def execStageFeed (job : BitVec 32) (n : Nat) (s : State) : Out := .next (stageFeed job n s)

/-- TAKE_RECORD (R383). -/
def execTakeRecord (core : Nat) (s : State) : Out :=
  if 2048 ≤ core then .fault .noSuchUnit else .next (takeRecord core s)

/-- BALANCER (R385). -/
def execBalancer (job : BitVec 32) (n : Nat) (s : State) : Out := .next (balance job n s)

/-! ## Messages and spawn requests -/

/-- TAKE_MESSAGE (R387). -/
def execTakeMessage (core : Nat) (s : State) : Out :=
  if 2048 ≤ core then .fault .noSuchUnit else .next (takeMessage core s)

/-- An older message of the same sender to the same logical core in the same class is still on its way (R387). -/
def msgBehind (s : State) (p : Pkt) (m : Msg) (l : BitVec 20) : Bool :=
  s.net.any fun q => decide (q.id < p.id) && q.core == p.core && q.slot == p.slot && q.job == p.job &&
    (match q.kind with | .msg m' l' _ => m'.cls == m.cls && l' == l | _ => false)

/-- A message is placed in the sub-ring of its class at the core that answers for its target, a follower's in its leader's ring (R144, R387, R419);
none where it is refused, the sub-ring full or the core of another job or taking none (R393). -/
def placeMsg (t : Nat) (job : BitVec 32) (m : Msg) (s : State) : Option State :=
  let t := leaderOf s (bankCore s job t)
  let q := coreAt s t
  let ring := q.ring.toList.getD m.cls.toNat []
  if q.job ≠ job ∨ job = 0 ∨ closed s t ∨ 32 ≤ ring.length then none
  else some (noteEvent t 4 (updCore s t fun q => { q with ring := vput q.ring m.cls.toNat (ring ++ [m]) }))

/-- A router holds the frozen job's packets (R429). -/
def heldAt (s : State) (col : Fin 8) (job : BitVec 32) : Bool := (colAt s col).hold && job == s.night.nfctl.extractLsb' 32 32

/-- A message of another device comes in by a port (R387, R393, R462): its router resolves the logical core by its own table, and the message is
placed, refused, or sent on; the answer takes an allowance of the reply class (R459).  The sending device keeps the count of its refusals. -/
def outsideMsg (port : Nat) (job : BitVec 32) (l : BitVec 20) (m : Msg) (s : State) : State :=
  let col : Fin 8 := ⟨port / 2 % 8, Nat.mod_lt _ (by decide)⟩
  let answers := tabGet 0 s.fabric.allow (4 * port + 1)
  if !portUp s port || heldAt s col job || (colAt s col).tripped || answers = 0 then s
  else
    let told (s : State) : State := { s with fabric := { s.fabric with allow := tabPut s.fabric.allow (4 * port + 1) (answers - 1) } }
    match resolveCore col job l.toNat s with
    | (.core t, s) => told (if (colAt s (colOf t)).tripped then s else (placeMsg t job m s).getD s)
    | (.device d, t) => if routeUp s col d && maySend s col d 2 then useAllowance col d 2 (told t) else told t
    | (.none, s) => told s

/-- MESSAGE_ARRIVAL (R387, R393, R419). A message reaches its core and is placed there or refused.  For one that went to another device it is the
answer from there, placed or refused; with the packet number 0 a message from another device comes in. -/
def execMessageArrival (a : Arrival) (s : State) : Out :=
  let word (i : Nat) : BitVec 64 := a.msg.getD i 0
  if a.id = 0 then
    .next (outsideMsg a.port a.job a.lcore { handler := word 0, w := #v[word 1, word 2, word 3, word 4], cls := (word 5).setWidth 2, sender := word 6 } s)
  else
    match findPkt s a.id with
    | none => .next s
    | some p =>
      match p.kind, p.loc with
      | .msg m l _, .mesh =>
        if msgBehind s p m l || (colAt s (colOf p.gpa)).tripped then .next s
        else .next (match placeMsg p.gpa p.job m s with | some s => endMsg p s | none => refuseMsg p s)
      | .msg _ _ _, .away => .next (if a.placed then endMsg p s else refuseMsg p s)
      | _, _ => .next s

/-- MESSAGE_RETRY (R393). A refused message is sent again after 64 s-cycles, or dropped once its refusals pass the sender's
FERETRY.LIMIT; a limit of 0 drops none.  In the night its timer stands still (R429). -/
def execMessageRetry (id : Nat) (s : State) : Out :=
  match findPkt s id with
  | none => .next s
  | some p =>
    match p.kind, p.loc with
    | .msg _ l n, .retry =>
      let lim := (hartAt s (p.core % 2048) p.slot).feLimit
      if heldAt s (colOf p.core) p.job then .next s
      else if lim ≠ 0 ∧ lim < n then
        let s := endMsg p s
        .next (if p.core < 2048 then updHart s p.core p.slot fun h => { h with dropped := h.dropped ++ [l] } else s)
      else if p.born + 64 ≤ s.clock then .next (putPkt { p with loc := .router } s)
      else .next s
    | _, _ => .next s

/-- SPAWN_REQUEST (R389). The request reaches its target, which claims a slot for the child or answers otherwise. -/
def execSpawnRequest (id : Nat) (s : State) : Out :=
  match findPkt s id with
  | none => .next s
  | some p =>
    match p.kind, p.loc with
    | .spawn pc w _ d, .mesh =>
      if (colAt s (colOf p.gpa)).tripped then .next s
      else
      let (st, inl, s) := spawnClaim p.core p.slot p.gpa pc w s
      .next (putPkt { p with kind := .spawnAnswer d st inl pc, loc := .reply 0 } s)
    | _, _ => .next s

/-- SPAWN_ANSWER (R389). The answer returns: gd is written, or the child begins inline in the caller's slot. -/
def execSpawnAnswer (id : Nat) (s : State) : Out :=
  match findPkt s id with
  | none => .next s
  | some p =>
    match p.kind with
    | .spawnAnswer d st inl pc =>
      let s := dropPkt id s
      let h := hartAt s p.core p.slot
      .next (if h.wait = .spawn d then actAs p.core p.slot (fun s => spawnAnswered st inl pc d h.argWords s) s else s)
    | _ => .next s

/-! ## A core's job (R363) -/

/-- CTXJOB_WRITE (R363). A write of CTXLC or CTXJOB of a core through the column alias; it waits while an earlier write is held. -/
def execCtxjobWrite (core : Nat) (lc : Bool) (v : BitVec 64) (s : State) : Out :=
  if 2048 ≤ core then .fault .noSuchUnit
  else if (coreAt s core).jobWrite.isSome then .next s
  else .next (privWrite (colOf core) (0xA000 + 16 * idxOf core + (if lc then 8 else 0)) v s)

/-- JOB_CHANGE (R363). A held write takes effect once the core is quiet. -/
def execJobChange (core : Nat) (s : State) : Out :=
  if 2048 ≤ core then .fault .noSuchUnit else .next (jobChange core s)

/-! ## The micro-sequencer -/

/-- PASS (R178, R183). One pass of the convoy of a core over an element group. -/
def execPass (core : Nat) (s : State) : Out :=
  if 2048 ≤ core then .fault .noSuchUnit
  else
    let v := (coreAt s core).vec
    .next (if v.bound && !v.convoy.isEmpty && !(colAt s (colOf core)).tripped then actAs core v.slot convoyPass s else s)

end Sys2Proof.Machine
end

