-- ==== Sys2Proof/Machine/Nightfall.lean ====
section
/-!
DEFINITION. Nightfall and Daybreak (R427 to R435), the debug module and the instrument network (R436 to R438).
-/

namespace Sys2Proof.Machine

/-! ## Freezing (R429) -/

/-- A READY slot is at an instruction boundary: no reply or token of its instruction is on its way, and the block port performs none of its. -/
def Hart.boundary (h : Hart) : Bool :=
  match h.wait with
  | .reply _ | .tokenReq _ | .port _ _ _ _ _ _ => false
  | _ => true

/-- The core is at its freeze boundary: no vector command runs, and every READY slot is between instructions. -/
def Core.boundary (q : Core) : Bool := q.quiet && q.harts.toList.all fun h => h.st != .ready || h.dbgStep || h.boundary

/-- A slot freezes: a READY one between instructions, a parked or stalled one in its wait; a slot that the debug module steps ends its
unit first. -/
def Hart.freeze (h : Hart) : Hart :=
  if h.dbgStep then h
  else match h.st with
  | .ready | .parked | .stalled => { h with st := .frozen, back := h.st }
  | _ => h

/-- The core freezes: CYC stops (R429). -/
def freezeCore (c : Nat) (s : State) : State :=
  updCore s c fun q =>
    { q.mapHarts (fun _ h => h.freeze) with night := true, wave := false, cycStop := some (q.cycStop.getD s.clock) }

/-- The job of Nightfall. -/
def nightJob (s : State) : BitVec 32 := s.night.nfctl.extractLsb' 32 32

/-- The last Daybreak step that holds here: 3 while none runs and the job is frozen is no step done (R433, R435). -/
def daySteps (s : State) : Nat :=
  if s.night.nfstat.getLsbD 62 && !s.night.again then (s.night.nfstat.extractLsb' 60 2).toNat else 0

/-- Every unit of the job on the device has settled (R429); the routers and ports had before a Daybreak's step 1 released them. -/
def allSettled (s : State) : Bool :=
  s.night.engines && (s.night.ports || decide (1 ≤ daySteps s)) &&
    s.cores.all fun e => e.2.job != nightJob s || (e.2.night && !e.2.wave && e.2.quiet && e.2.wq.isEmpty &&
      e.2.harts.toList.all fun h => h.st != .ready)

/-- An acknowledgement of a step leaves for the coordinator (R433). -/
def sendAck (leader : BitVec 8) (k : BitVec 2) (s : State) : State :=
  match portFor s 0 leader.toNat with
  | some p => if portNight s p then sendFlits [(p, .stepAck s.fabric.dev (nightJob s) k)] s else s
  | none => s

/-- WAVE (R428, R429). The wave reaches a unit: a core (0 to 2047), the engines with the distributor and the balancer (2048), or
the routers and ports (2049); 2050 is the report that every unit of the job has settled, with which an acknowledgement of step 1 that waited for it
leaves (R433). -/
def execWave (core : Nat) (s : State) : Out :=
  let night := s.night.nfstat.getLsbD 63
  if core < 2048 then
    let q := coreAt s core
    if (q.wave || q.night) && q.boundary then .next (freezeCore core s) else .next s
  else if core = 2048 then
    .next (if night && decide (daySteps s < 2) then { s with night := { s.night with engines := true } } else s)
  else if core = 2049 then
    .next (if night && decide (daySteps s < 1) then
      { s with night := { s.night with ports := true }, cols := s.cols.map fun c => { c with hold := true } } else s)
  else if core = 2050 then
    .next (if night && allSettled s then
      let t := { s with night := { s.night with nfstat := s.night.nfstat ||| (1#64 <<< 58), ackDue := false } }
      if s.night.ackDue then sendAck s.night.leader 1 t else t
    else s)
  else .fault .noSuchUnit

/-- NFCTL_NFALL (R427, R432). -/
def execNfctlNfall (s : State) : Out := .next (nfallWave s)

/-- NFCTL_JOB (R432). A write of NFCTL with its JOB. -/
def execNfctlJob (v : BitVec 64) (s : State) : Out := .next (nfctlWrite v s)

/-- ORIGIN_FLIT (R428, R430, R431). A Nightfall flit with another device's origin comes in by a port: with the wave of this device's job, or relayed
for another job.  A port without the feature passes none.  Each origin's flit reaches a device once: the model leaves out the copies that relays on
other ways bring (log entry 134). -/
def execOriginFlit (o : OriginIn) (cause : BitVec 8) (s : State) : Out :=
  .next (if !portNight s o.port then s
    else if nightJob s = 0 ∨ o.job ≠ nightJob s then sendNight o.job o.key cause (some o.port) s
    else startWave o.key cause (some o.port) s)

/-- NFCTL_DB (R432, R433). -/
def execNfctlDb (s : State) : Out := .next (startDaybreak s)

/-! ## Daybreak (R433 to R435) -/

/-- A slot at step 3 (R434): its own pending trap, the NIGHTFALL trap under MODE 1, or on in its state.  A HALTED slot stays HALTED. -/
def Hart.daybreak (h : Hart) (mode : Bool) (wseq : BitVec 64) : Hart :=
  let stop (x : Hart) : Hart := { x with st := (if h.st = .halted then .halted else .ready), back := .ready }
  if h.st = .idle then h
  else
  let h := { h with stepped := false }
  if h.dstep.getLsbD 1 then stop { h.vector with dstep := h.dstep &&& ~~~(2#64) }
  else if mode then stop (h.record .nightfall wseq false).vector
  else if h.st = .frozen then { h with st := h.back, back := .ready }
  else h

/-- The probes of some slots are forgotten: their releases were given up. -/
def dropProbes (c : Nat) (s : State) : State :=
  { s with net := s.net.filter fun p => !(p.core == c && (match p.kind with | .probe _ => true | _ => false)) }

/-- A core resumes; CYC goes on from where it stopped (R429). -/
def wakeCore (c : Nat) (mode : Bool) (wseq : BitVec 64) (s : State) : State :=
  let s := if mode then dropProbes c s else s
  updCore s c fun q =>
    { q.mapHarts (fun _ h => h.daybreak mode wseq) with
      night := false, wave := false, cycVal := cycOf s q, cycBase := s.clock, cycStop := none }

/-- Step 3 on this device (R433, R435). -/
def dayStep3 (s : State) : State :=
  let n := s.night
  let wseq := n.nfcause.setWidth 32 + 1
  let cause := setBits n.nfcause (wseq.zeroExtend 64) 31 0
  let st := setBits (n.nfstat &&& ~~~(1#64 <<< 62)) (3#64 <<< 60) 61 60
  let s :=
    if n.again then { s with night := { n with nfcause := cause, nfstat := st, again := false, coord := false, acks := [] } }
    else
      let st := st &&& ~~~((1#64 <<< 63) ||| (1#64 <<< 58) ||| 0xFFFF#64)
      let s := { s with night := { n with nfcause := cause, nfstat := st, coord := false, acks := [] } }
      (s.cores.filter fun e => e.2.night || e.2.wave).foldl (fun s e => wakeCore e.1 (n.nfctl.getLsbD 2) (wseq.zeroExtend 64) s) s
  raiseInt 2 s

/-- The devices of the job that a Nightfall flit reaches, each with the port towards it (R431). -/
def dayDevices (s : State) : List (Nat × BitVec 8) :=
  (jobDevices s (nightJob s)).filterMap fun d => (portFor s 0 d.toNat).bind fun p => if portNight s p then some (p, d) else none

/-- Step k performed on this device (R433). -/
def dayStep (k : BitVec 2) (s : State) : State :=
  let n := s.night
  let n := { n with nfstat := setBits (n.nfstat ||| (1#64 <<< 62)) (k.zeroExtend 64 <<< 60) 61 60 }
  if k = 1 then { s with night := { n with ports := false }, cols := s.cols.map fun c => { c with hold := false } }
  else if k = 2 then { s with night := { n with engines := false } }
  else dayStep3 { s with night := n }

/-- The steps done of the Daybreak that runs (R432). -/
def stepsDone (n : Night) : Nat := if n.nfstat.getLsbD 62 then (n.nfstat.extractLsb' 60 2).toNat else 0

/-- The coordinator performs its next step and sends it out, once every device has acknowledged the one before, its own acknowledgement of step 1
coming once SETTLED is 1 (R433). -/
def leadStep (k : BitVec 2) (s : State) : State :=
  let n := s.night
  if !n.coord || k.toNat != stepsDone n + 1 || !n.acks.isEmpty || (decide (2 ≤ k.toNat) && !n.nfstat.getLsbD 58) then s
  else
    let l := dayDevices s
    sendFlits (l.map fun x => (x.1, .step x.2 (nightJob s) k))
      (dayStep k { s with night := { n with acks := l.map (·.2) } })

/-- A coordinator's step comes in: it is performed and acknowledged, step 1 when SETTLED is 1.  Of two devices that started a Daybreak at once the one
with the lower number prevails (R433). -/
def followStep (dev : BitVec 8) (k : BitVec 2) (s : State) : State :=
  let n := s.night
  let done := stepsDone n
  if n.coord && decide (s.fabric.dev.toNat < dev.toNat) then s
  else if done + 1 < k.toNat || (decide (2 ≤ k.toNat) && !n.nfstat.getLsbD 58) then s
  else
    let s := { s with night := { n with coord := false, acks := [], leader := dev } }
    let t := if k.toNat = done + 1 then dayStep k s else s
    if k = 1 && !n.nfstat.getLsbD 58 then { t with night := { t.night with ackDue := true } } else sendAck dev k t

/-- DAYBREAK_STEP (R431, R433 to R435). This device takes its next step as the coordinator, or a step of another coordinator comes in by a port
that passes Daybreak flits. -/
def execDaybreakStep (d : StepIn) (s : State) : Out :=
  .next (if !s.night.nfstat.getLsbD 63 || d.job != nightJob s || d.k == 0 then s
    else if d.dev = s.fabric.dev then leadStep d.k s
    else if portNight s d.port then followStep d.dev d.k s else s)

/-- DAYBREAK_ACKNOWLEDGEMENT (R431, R433). A device's acknowledgement reaches the coordinator by a port that passes Daybreak flits. -/
def execDaybreakAcknowledgement (a : AckIn) (s : State) : Out :=
  .next (if portNight s a.port then { s with night := { s.night with acks := s.night.acks.filter (· != a.dev) } } else s)

/-! ## The debug module (R436, R437) -/

/-- The last command's result in the column's debug module. -/
def cmdDone (col : Fin 8) (err : BitVec 3) (v : BitVec 64) (s : State) : State :=
  updCol s col fun c => { c with cmderr := err, ddata := v }

/-- HALTREQ (R436). A READY hart halts at an instruction boundary, the vector hart with no command outstanding, or a FROZEN one. -/
def execHaltreq (core : Nat) (slot : BitVec 3) (s : State) : Out :=
  if 2048 ≤ core then .fault .noSuchUnit
  else
    let q := coreAt s core
    let k := slot.toFin
    let h := q.harts.get k
    let vec := q.vec.bound && q.vec.slot == k
    .next (if h.st = .ready ∧ h.boundary ∧ (!vec || q.quiet) then
        setHart s core k { h with st := .halted, back := .ready, dbgStep := false }
      else if h.st = .frozen then setHart s core k { h with st := .halted, dbgStep := false }
      else s)

/-- RESUMEREQ (R436, R438). A halted hart returns to the state it was halted from, FROZEN on a frozen core, or runs one step unit. -/
def execResumereq (core : Nat) (slot : BitVec 3) (s : State) : Out :=
  if 2048 ≤ core then .fault .noSuchUnit
  else
    let q := coreAt s core
    let k := slot.toFin
    let h := q.harts.get k
    if q.unloaded then .next (cmdDone (colOf core) 4 (colAt s (colOf core)).ddata s)
    else if h.st ≠ .halted then .next s
    else if h.dstep.getLsbD 0 then
      .next (setHart s core k { h with st := .ready, dbgStep := true, stepDone := false, stepHead := none, dstep := h.dstep &&& ~~~(4#64), stepped := h.stepped || q.night })
    else .next (setHart s core k (if q.night then { h with st := .frozen } else { h with st := h.back, back := .ready }))

/-- The selected register row and word of VWSEL: register, row, word (R436). -/
def vwSel (c : Column) : Nat × Nat × Nat := (c.vwsel.toNat % 32, c.vwsel.toNat / 32 % 32, c.vwsel.toNat / 1024 % 512)

/-- Lanes 64 word to 64 word + 63 of a register row (R436). -/
def vwRead (q : Core) (sel : Nat × Nat × Nat) : BitVec 64 :=
  let (r, row, w) := sel
  if q.lanes < 64 * (w + 1) then 0
  else BitVec.ofNat 64 (packWords 1 ((List.range 64).map fun j =>
    if (tabGet 0 q.vec.v (32768 * r + 64 * w + j)).getLsbD (31 - row) then 1 else 0))

/-- A write of them sets VDIRTY bit n and VHWn := GLANES × 32, which a gang keeps with its leader (R436). -/
def vwWrite (core : Nat) (sel : Nat × Nat × Nat) (x : BitVec 64) (s : State) : State :=
  let (r, row, w) := sel
  if (coreAt s core).lanes < 64 * (w + 1) then s
  else
    let s := updCore s core fun q => { q with vec := { q.vec with
      v := (List.range 64).foldl (fun t j =>
        let k := 32768 * r + 64 * w + j
        let old := tabGet 0 t k
        let m := 1#32 <<< (31 - row)
        let new := if x.getLsbD j then old ||| m else old &&& ~~~m
        if new = 0 then tabDel t k else tabPut t k new) q.vec.v } }
    updCore s (leaderOf s core) fun q => { q with vec := { q.vec with
      vdirty := q.vec.vdirty ||| (1#64 <<< r), vhw := vput q.vec.vhw r (BitVec.ofNat 64 (q.glanes * 32)) } }

/-- The system register that a debug register number names, and whether through the privileged view (R146, R436). -/
def dbgSys (s : State) (core : Nat) (k : Fin 8) (n : Nat) : Option (Nat × Bool) :=
  match viewOf n with
  | some m => if (sysGet s core k m).isSome then some (m, true) else none
  | none => if n < 0x1000 ∧ (sysGet s core k n).isSome then some (n, false) else none

/-- A debug register number names a piece of the vector context: its access waits for the commands outstanding (R134, R180, R436). -/
def dbgVec (s : State) (core : Nat) (k : Fin 8) (n : Nat) : Bool :=
  n == 0xC011 || (decide (0xD000 ≤ n) && decide (n < 0xE000)) || (dbgSys s core k n).any fun x => vecReg x.1

/-- The debug module's read of a register (R436). -/
def dbgRead (core : Nat) (k : Fin 8) (n : Nat) (s : State) : Option (BitVec 64) :=
  let q := coreAt s core
  let h := q.harts.get k
  if n < 0x1000 then (dbgSys s core k n).bind fun x => sysGet s core k x.1
  else if 0x1000 ≤ n ∧ n < 0x1020 then some (h.gr (BitVec.ofNat 5 n))
  else if 0xC000 ≤ n ∧ n < 0xC008 then some (vget h.ox (n - 0xC000))
  else if n = 0xC008 then some (h.pc.zeroExtend 64)
  else if n = 0xC010 then some (colAt s (colOf core)).vwsel
  else if n = 0xC011 then some (vwRead q (vwSel (colAt s (colOf core))))
  else if 0xC020 ≤ n ∧ n < 0xC028 then some (vget q.mb (n - 0xC020))
  else if 0xD000 ≤ n ∧ n < 0xE000 then some ((tabGet 0 q.vec.acc (n - 0xD000)).zeroExtend 64)
  else none

/-- The debug module's write of a register, where it is mapped; none while it waits (R363, R34, R436). -/
def dbgWrite (core : Nat) (k : Fin 8) (n : Nat) (v : BitVec 64) (s : State) : Option State :=
  let q := coreAt s core
  if n < 0x1000 then
    match dbgSys s core k n with
    | none => some s
    | some (m, view) =>
      if view then some (viewPut core k m v s)
      else if m = 0x810 then (if q.jobWrite.isSome then none else some (jobWrite core v none s))
      else if m = 0x8C1 then (if !v.getLsbD 8 then some s else if coreDrained s core then some (dropRanges core s) else none)
      else some (sysPut core k m v s)
  else if 0x1000 ≤ n ∧ n < 0x1020 then some (updHart s core k fun h => h.setG (BitVec.ofNat 5 n) v)
  else if 0xC000 ≤ n ∧ n < 0xC008 then some (updHart s core k fun h => { h with ox := vput h.ox (n - 0xC000) v })
  else if n = 0xC008 then some (updHart s core k fun h => { h with pc := v.setWidth 48 &&& ~~~(1#48) })
  else if n = 0xC010 then some (updCol s (colOf core) fun c => { c with vwsel := onlyBits v 18 0 })
  else if n = 0xC011 then some (vwWrite core (vwSel (colAt s (colOf core))) v s)
  else if 0xC020 ≤ n ∧ n < 0xC028 then some (updCore s core fun q => { q with mb := vput q.mb (n - 0xC020) v })
  else
    some (updCore s core fun q => { q with vec := { q.vec with
      acc := if v.setWidth 32 = 0#32 then tabDel q.vec.acc (n - 0xD000) else tabPut q.vec.acc (n - 0xD000) (v.setWidth 32) } })

/-- ACCESS_REGISTER (R436). An abstract command of cmdtype 0 reads or writes a register of a HALTED hart: otherwise cmderr 4; cmderr 2 for a size that
the register does not take and for an unmapped number, and for Quick Access, the program buffer and every other cmdtype but that of
`ACCESS_MEMORY`, which is an event of its own. -/
def execAccessRegister (core : Nat) (slot : BitVec 3) (reg : DebugReg) (sz : DebugSize) (write : Bool) (v : BitVec 64) (s : State) : Out :=
  if 2048 ≤ core then .fault .noSuchUnit
  else
    let k := slot.toFin
    let col := colOf core
    let n := reg.regno.toNat
    let old := (colAt s col).ddata
    let acc := decide (0xD000 ≤ n) && decide (n < 0xE000)
    if reg.cmdtype ≠ 0 ∨ sz.postexec then .next (cmdDone col 2 old s)
    else if (hartAt s core k).st ≠ .halted then .next (cmdDone col 4 old s)
    else
      match dbgRead core k n s with
      | none => .next (cmdDone col 2 old s)
      | some x =>
        if sz.size.toNat ≠ (if acc then 2 else 3) then .next (cmdDone col 2 old s)
        else if dbgVec s core k n && !(coreAt s core).quiet then .next s
        else if !write then .next (cmdDone col 0 x s)
        else
          match dbgWrite core k n v s with
          | none => .next s
          | some s => .next (cmdDone col 0 v s)

/-- The debug module's read of memory at a GPA of this device, past held routers (R437): none is cmderr 5, as for a degraded column (R76). -/
def dbgLoad (gpa n : Nat) (s : State) : Option Nat × State :=
  if degradedAt s gpa then ownerRead true gpa n s
  else
  match targetOf s gpa with
  | .barrier _ _ => (if n = 8 then some (barWord (barAt s gpa) (gpa % 64 / 8)).toNat else none, s)
  | .service col off => if n = 8 then (let (v, s) := serviceRead col off s; (some v.toNat, s)) else (none, s)
  | .priv col off => if n = 8 then (let (v, s) := privRead col off s; (some v.toNat, s)) else (none, s)
  | .bank c w _ => if (bankCheck s c w).isSome then (none, s) else ownerRead true gpa n s
  | _ => ownerRead true gpa n s

/-- The way of the debug module or the host to an address: none while a held register write or another's turn at a bank keeps it (R120, R363). -/
def wayFor (s : State) (a : Nat) : Option State :=
  match targetOf s a with
  | .priv c off => if aliasHeld s c off then none else some s
  | .bank c w _ => if bankTaken s noCore c w || bankHeld s noCore a then none else some (takeBank noCore c w s)
  | _ => some s

/-- ACCESS_MEMORY (R437). An abstract command reads or writes a GPA of this device, every token collected first; it waits for a held write of the
register it names (R363), and at a bank for its turn (R120). -/
def execAccessMemory (col : Nat) (gpa : BitVec 64) (size : BitVec 3) (virt write : Bool) (v : BitVec 64) (s : State) : Out :=
  if 8 ≤ col then .fault .noSuchUnit
  else
    let k : Fin 8 := ⟨col % 8, Nat.mod_lt _ (by decide)⟩
    let n := 2 ^ size.toNat
    let a := gpa.toNat
    let old := (colAt s k).ddata
    if virt || decide (8 < n) || decide (2 ^ 56 ≤ a) || gpaDev a != s.fabric.dev.toNat then .next (cmdDone k 2 old s)
    else if a % n ≠ 0 then .next (cmdDone k 5 old s)
    else
    match wayFor s a with
    | none => .next s
    | some s =>
    if write then
      let (ok, s) := ownerWrite true a n (v.toNat % 2 ^ (8 * n)) s
      .next (cmdDone k (if ok then 0 else 5) v s)
    else
      match dbgLoad a n s with
      | (some x, s) => .next (cmdDone k 0 (BitVec.ofNat 64 x) s)
      | (none, s) => .next (cmdDone k 5 old s)

/-! ## The instrument network (R438) -/

/-- A core may be unloaded: unbound, or every occupied slot HALTED, with nothing running or on its way. -/
def mayUnload (s : State) (c : Nat) : Bool :=
  let q := coreAt s c
  (q.job == 0 || q.harts.toList.all fun h => h.st == .idle || h.st == .halted) && q.quiet && coreDrained s c &&
    q.tok.toList.all (· != 1)

/-- A core of the cluster is evicted, scanned out and cleared, and counts as unbound. -/
def unloadCore (c : Nat) (s : State) : State :=
  let s := ((coreAt s c).cw.flatMap fun e => e.2.map (·.line)).foldl (fun s ln => evictLine c ln s) s
  let s := clearWays c (List.range 16) (wakeWays c (List.range 16) (orphanMsgs c none s))
  updCore s c fun q =>
    { q with
      harts := Vector.replicate 8 Hart.reset, ctxjob := 0, bound := false, marked := none, ring := Vector.replicate 4 []
      mb := Vector.replicate 8 0, mbFull := 0, tok := Vector.replicate 8 0, tokVa := Vector.replicate 8 0
      cstart := Vector.replicate 8 0, cpc := Vector.replicate 8 0, bfmt := Vector.replicate 16 0x1F
      vec := Vec.bindTo none, latchSet := 0, latchDone := 0, binding := none, rcache := [], l0d := [], l0i := [], jobWrite := none
      gangSize := 0, gangPos := 0, gangLeader := 0, unloaded := true }

/-- INSTRUMENT_UNLOAD (R438). -/
def execInstrumentUnload (col row : Nat) (s : State) : Out :=
  if 8 ≤ col ∨ 16 ≤ row then .fault .noSuchUnit
  else
    let cs := (List.range 16).map fun k => 256 * col + 16 * row + k
    let k : Fin 8 := ⟨col % 8, Nat.mod_lt _ (by decide)⟩
    .next (if cs.all (mayUnload s) then
      updCol (cs.foldl (fun s c => unloadCore c s) s) k fun c => { c with unloaded := c.unloaded ||| (1#16 <<< row) }
    else s)

end Sys2Proof.Machine
end

