-- ==== Sys2Proof/Machine/Boot.lean ====
section
/-!
DEFINITION. Reset (R76, R77), start-up and the management mailbox (R463 to R467), repairs (R79), upper-layer power (R80, R81), sensors
and thermal limits (R82, R468, R469), scrubbing (R51), counters that clear when read, register writes from the host, and the fabric
ports (R459 to R462).
-/

namespace Sys2Proof.Machine

/-- A column number as an index. -/
def colIx (c : Nat) : Fin 8 := ⟨c % 8, Nat.mod_lt _ (by decide)⟩

/-! ## Reset (R76, R77) -/

/-- Training of a column's buses (R76, R77, R79): a failed core bus degrades the column, a failed layer bus holds the upper layer off.
Whether they pass, and how many soft repairs it takes, is free. -/
def trainColumn (col now : Nat) (c : Column) : Column :=
  let core := Config.coreBusPasses col now
  let layer := Config.layerBusPasses col now
  let fused := onlyBits c.vbstat 55 48 ||| onlyBits c.vbstat 39 32
  { c with
    vbstat := fused ||| ((Config.softRepairs col now).zeroExtend 64 <<< 40) ||| (if core then (0 : BitVec 64) else 1#64 <<< 63) |||
      (if layer then (0 : BitVec 64) else 1#64 <<< 62) ||| (if core && layer then 1 else (0 : BitVec 64))
    layerctl := if layer then 3 else 2 }

/-- COLD_RESET (R4, R76, R77). Every register takes its Reset value and the buses are trained; fused and stored values stay, and so
does memory that is not this device's.  DRAM is undefined: it reads as at State.reset (log entry 1). -/
def execColdReset (s : State) : Out :=
  let r := State.reset
  let d := s.fabric.dev.toNat
  .next { r with
    cols := Vector.ofFn fun k => trainColumn k.val s.clock
      { Column.reset with vbstat := onlyBits (s.cols.get k).vbstat 55 48 ||| onlyBits (s.cols.get k).vbstat 39 32 }
    mem := s.mem.filter fun e => gpaDev e.1 != d && gpaDev e.1 != 0
    boot := { Boot.reset with
      keyDigest := s.boot.keyDigest, seed := s.boot.seed, minVer1 := s.boot.minVer1, minVer2 := s.boot.minVer2
      image1 := s.boot.image1, image2 := s.boot.image2, fails := s.boot.fails, bootwhy := s.boot.bootwhy }
    curCore := s.curCore, curSlot := s.curSlot, agenda := s.agenda, turn := s.turn, lastCore := s.lastCore
    nextId := s.nextId, freeIdx := s.freeIdx, split := s.split, vqueue := s.vqueue }

/-- The lines of a column that its slices hold dirty. -/
def Column.dirtyLines (c : Column) : List Nat := c.slices.flatMap fun e => (e.2.filter (·.2)).map (·.1)

/-- Every dirty line of a column's slices is written to DRAM (R77), with its error or ending the one there (R52, R72). -/
def slicesHome (col : Fin 8) (s : State) : State := (colAt s col).dirtyLines.foldl (fun s ln => sliceToDram col ln s) s

/-- A column after a warm reset (R77): what R77 keeps, everything else at its Reset value, its buses retrained. -/
def warmColumn (col now : Nat) (c : Column) : Column :=
  trainColumn col now { Column.reset with
    vbstat := c.vbstat, bad := c.bad, soft := c.soft, errinfo := c.errinfo, erraddr := c.erraddr, cecnt := c.cecnt }

/-- Every port goes down; a changed STATE raises vector 7 (R461, R466). -/
def portsDown (s : State) : State :=
  let up := s.fabric.tflstat.toList.any fun w => w.extractLsb' 62 2 != 0
  let s := { s with fabric := { s.fabric with tflstat := Vector.replicate 16 0, training := 0 } }
  if up then raiseInt 7 s else s

/-- The interrupts of what a column's warm reset changes: THERMCTL.SLOW and TRIP (vector 4), and with column 0 the ports (vector 7) (R466). -/
def resetInts (col : Fin 8) (s : State) : State :=
  let s := if (colAt s col).thermctl.extractLsb' 62 2 != 0 then raiseInt 4 s else s
  if col.val = 0 then portsDown s else s

/-- The requests a column's reset loses: those of its cores, and what waits in its own units for its own service die. -/
def lostInReset (s : State) (col : Fin 8) (p : Pkt) : Bool :=
  if p.core = 2048 then gpaDev p.gpa == s.fabric.dev.toNat && gpaCol p.gpa == col.val
  else colOf p.core == col

/-- The warm reset of one column (R77): cores stopped and cleared, slices written back, ways zero, registers reset.  A message of resetInts
goes out before the registers of column 0, INTSTAT among them, are reset. -/
def warmReset (col : Fin 8) (s : State) : State :=
  let base := mkGpa s col.val 0x10000000000
  let s := slicesHome col (resetInts col s)
  let cores := (List.range 256).foldl (fun t i =>
    tabPut t (256 * col.val + i) { Core.reset with cycBase := s.clock }) s.cores
  let s := { s with
    cores := cores
    mem := memClear s.mem base (base + 0x40000000)
    net := s.net.filter fun p => !lostInReset s col p
    entries := s.entries.filter fun e => e.col != col.val }
  let s := updCol s col (warmColumn col.val s.clock)
  if col.val = 0 then
    let r := State.reset
    let s := setDev 0 s
    { s with
      dist := r.dist, night := r.night, fabric := r.fabric
      boot := { s.boot with intstat := 0, mbxcmd := 0, mbxRun := 0, mbxsts := 0, mbxwin := 0, arg := [], resp := [], part1 := [], part2 := [] } }
  else s

/-- The columns of a mask warm-reset; RSTCTL.BUSY ends. -/
def warmResets (cols : BitVec 8) (s : State) : State :=
  let s := (List.finRange 8).foldl (fun s k => if cols.getLsbD k.val then warmReset k s else s) s
  { s with boot := { s.boot with rstBusy := false, rstCols := 0 } }

/-- WARM_RESET (R77, R467). The columns of a mask, or those a running request names, are warm-reset. -/
def execWarmReset (cols : BitVec 8) (s : State) : Out :=
  .next (warmResets (if s.boot.rstBusy then s.boot.rstCols else cols) s)

/-! ## Start-up (R463) -/

/-- Bytes of a 512-bit and of a 64-bit number, the lowest first (R1). -/
def bytes512 (x : BitVec 512) : List (BitVec 8) := (List.range 64).map fun i => x.extractLsb' (8 * i) 8
def bytes64 (x : BitVec 64) : List (BitVec 8) := (List.range 8).map fun i => x.extractLsb' (8 * i) 8

/-- MEAS := SHAKE256(MEAS followed by SHAKE256(image)) (R463). -/
def extendMeas (m : BitVec 512) (image : List (BitVec 8)) : BitVec 512 :=
  Config.shake512 (bytes512 m ++ bytes512 (Config.shake512 image))

/-- A start fails (R463, R466): the count of consecutive failures, its cause, vector 5; the third enters minimal mode, in which no fabric
port trains or stays up. -/
def bootFails (why : BitVec 4) (s : State) : State :=
  let n : BitVec 2 := if s.boot.fails = 3 then 3 else s.boot.fails + 1
  let s := raiseInt 5 { s with boot := { s.boot with fails := n, bootwhy := why, starting := false, step := 7, minimal := n == 3 } }
  if n = 3 then portsDown s else s

/-- BOOT (R463). The boot controller takes its next step: stage 1 verified, measured, run to train the buses; stage 2 verified and
measured; the CXL link trained; then it waits for OK. -/
def execBoot (s : State) : Out :=
  let b := s.boot
  let goto' (n : Nat) (s : State) : State := { s with boot := { s.boot with step := n } }
  if !b.starting then .next s
  else if b.step = 1 then
    .next (if !Config.verifies b.keyDigest b.image1 then bootFails 1 s
      else if (Config.version b.image1).toNat < b.minVer1.toNat then bootFails 2 s else goto' 2 s)
  else if b.step = 2 then
    .next (goto' 3 { s with boot := { b with meas0 := extendMeas b.meas0 b.image1, ver1 := Config.version b.image1 } })
  else if b.step = 3 then
    let s := { s with cols := Vector.ofFn fun k => trainColumn k.val s.clock (s.cols.get k) }
    .next (if (colAt s 0).vbstat.getLsbD 63 then bootFails 6 s else goto' 4 s)
  else if b.step = 4 then
    .next (if !Config.verifies b.keyDigest b.image2 then bootFails 3 s
      else if (Config.version b.image2).toNat < b.minVer2.toNat then bootFails 4 s
      else goto' 5 { s with boot := { b with meas1 := extendMeas b.meas1 b.image2, ver2 := Config.version b.image2 } })
  else if b.step = 5 then .next (if Config.cxlTrains s.clock then goto' 6 s else bootFails 7 s)
  else .next s

/-- BOOT_TIMEOUT (R463). OK has not been written within 2^32 s-cycles of power-on. -/
def execBootTimeout (s : State) : Out :=
  .next (if s.boot.starting ∧ s.boot.on + 2 ^ 32 ≤ s.clock then bootFails 5 s else s)

/-- BOOTCTL_OK (R463, R467). -/
def execBootctlOk (s : State) : Out := .next (bootOk s)

/-! ## The management mailbox (R464, R465) -/

def Boot.argByte (b : Boot) (i : Nat) : Nat := (tabGet 0 b.arg i).toNat
def Boot.argWord (b : Boot) (i n : Nat) : Nat := (List.range n).foldl (fun r k => r + b.argByte (i + k) * 256 ^ k) 0
/-- ARGLEN and CODE of the command that runs. -/
def Boot.arglen (b : Boot) : Nat := b.mbxRun.toNat / 2 ^ 16 % 65536
def Boot.code (b : Boot) : Nat := b.mbxRun.toNat % 256
def Boot.busy (b : Boot) : Bool := b.mbxsts.getLsbD 63

/-- A command ends with a result and a response: BUSY clears, vector 0 (R465). -/
def endCmd (result : Nat) (resp : List (BitVec 8)) (s : State) : State :=
  raiseInt 0 { s with boot := { s.boot with
    mbxsts := BitVec.ofNat 64 (2 ^ 32 * resp.length + result), resp := resp } }

/-- A write of MBXCMD with GO (R465): a code that no command has ends at once with result 1. -/
def mbxGo (v : BitVec 64) (s : State) : State :=
  let b := s.boot
  let s := { s with boot := { b with mbxcmd := onlyBits v 31 16 ||| onlyBits v 7 0 } }
  if !v.getLsbD 63 || b.busy then s
  else
    let s := { s with boot := { s.boot with mbxRun := s.boot.mbxcmd, mbxsts := 1#64 <<< 63, resp := [] } }
    if s.boot.code = 0 ∨ 4 < s.boot.code then endCmd 1 [] s else s

/-- A command of the given code runs. -/
def running (b : Boot) (code : Nat) : Bool := b.busy && b.code == code

/-- ATTEST (R464, R465). The signed report for the host's nonce. -/
def execAttest (s : State) : Out :=
  let b := s.boot
  if !running b 1 then .next s
  else if b.arglen < 32 then .next (endCmd 3 [] s)
  else
    let report := (List.range 32).map (fun i => tabGet 0 b.arg i) ++
      [s.fabric.dev, b.bootwhy.zeroExtend 8, b.fails.zeroExtend 8, if b.minimal then 1 else 0, 0, 0, 0, 0] ++
      bytes64 b.ver1 ++ bytes64 b.ver2 ++ bytes512 b.meas0 ++ bytes512 b.meas1 ++
      List.replicate 72 0
    .next (endCmd 0 (report ++ (List.range 29792).map (Config.sign b.seed report)) s)

/-- RESET (R464, R465, R467). A warm reset of the columns in the argument's mask is started; while one runs it cannot be. -/
def execMbxReset (s : State) : Out :=
  let b := s.boot
  if !running b 2 then .next s
  else if b.arglen < 1 then .next (endCmd 3 [] s)
  else if b.minimal ∧ b.argByte 0 ≠ 1 then .next (endCmd 2 [] s)
  else if b.rstBusy then .next (endCmd 5 [] s)
  else if b.argByte 0 = 0 then .next (endCmd 0 [] s)
  else
    let s := endCmd 0 [] s
    .next { s with boot := { s.boot with rstBusy := true, rstCols := BitVec.ofNat 8 (b.argByte 0) } }

/-- NIGHTREG (R464, R465). Reads or writes a Nightfall register.  In minimal mode, which does not allow it, result 2 comes before a look at the
argument: the model's choice (log entry 135). -/
def execNightreg (s : State) : Out :=
  let b := s.boot
  if !running b 3 then .next s
  else if b.minimal then .next (endCmd 2 [] s)
  else
    let wr := b.argByte 0
    let r := b.argByte 1
    if b.arglen < (if wr = 1 then 16 else 2) ∨ 1 < wr ∨ 2 < r ∨ (List.range (min b.arglen 8)).any (fun i => 2 ≤ i && b.argByte i != 0) then
      .next (endCmd 3 [] s)
    else
      let s := if wr = 1 then privWrite 0 (0x5000 + 8 * r) (BitVec.ofNat 64 (b.argWord 8 8)) s else s
      .next (endCmd 0 (bytes64 (privRead 0 (0x5000 + 8 * r) s).1) s)

/-- UPDATE (R465). A chunk of a firmware image; LAST commits the image to the boot store. -/
def execUpdate (s : State) : Out :=
  let b := s.boot
  if !running b 4 then .next s
  else
    let img := b.argByte 0
    let fl := b.argByte 1
    let len := b.argWord 4 4
    if b.arglen < 16 ∨ (img ≠ 1 ∧ img ≠ 2) ∨ 4 ≤ fl ∨ b.argWord 2 2 ≠ 0 ∨ len < 1 ∨ 1776 < len ∨ b.arglen < 16 + len then
      .next (endCmd 3 [] s)
    else
      let put (l : List (BitVec 8)) (b : Boot) : Boot := if img = 1 then { b with part1 := l } else { b with part2 := l }
      let part := if fl % 2 = 1 then [] else if img = 1 then b.part1 else b.part2
      if b.argWord 8 8 ≠ part.length ∨ 2 ^ 26 < part.length + len then
        .next (endCmd 4 [] { s with boot := put [] b })
      else
        let part := part ++ (List.range len).map fun i => tabGet 0 b.arg (16 + i)
        let b' := if fl / 2 % 2 = 1 then (let b := put [] b; if img = 1 then { b with image1 := part } else { b with image2 := part })
          else put part b
        .next (endCmd 0 [] { s with boot := b' })

/-- A host read of n bytes in the management mailbox (R465): RESP shows the 2 KiB that WIN selects, bytes past RESPLEN read 0. -/
def mailboxRead (s : State) (r n : Nat) : BitVec 64 :=
  let b := s.boot
  let word (f : Nat → BitVec 8) : BitVec 64 := BitVec.ofNat 64 (packWords 8 ((List.range n).map fun i => (f i).toNat))
  if r = 0 then b.mbxcmd
  else if r = 8 then b.mbxsts
  else if r = 0x10 then b.mbxwin
  else if 0x100 ≤ r ∧ r < 0x800 then word fun i => tabGet 0 b.arg (r - 0x100 + i)
  else if 0x800 ≤ r ∧ r < 0x1000 then word fun i => b.resp.getD (b.mbxwin.toNat * 2048 + (r - 0x800) + i) 0
  else 0

/-! ## Repairs (R79) -/

/-- COMMIT (R79). A written commit ends: every soft repair is burned into the fuse bank, or FAIL set when too few slots remain. -/
def execCommit (col : Nat) (s : State) : Out :=
  if 8 ≤ col then .fault .noSuchUnit
  else
    .next (updCol s (colIx col) fun c =>
      let free := c.vbstat.toNat / 2 ^ 48 % 256
      let soft := c.vbstat.toNat / 2 ^ 40 % 256
      let done := c.vbstat.toNat / 2 ^ 32 % 256
      if !c.vbctl.getLsbD 2 then c
      else if free < soft then { c with vbctl := 1 }
      else { c with
        vbctl := onlyBits c.vbctl 0 0
        vbstat := setBits c.vbstat (BitVec.ofNat 64 (2 ^ 48 * (free - soft) + 2 ^ 32 * (done + soft))) 55 32 })

/-! ## The upper layer (R80, R81, R129) -/

/-- LAYERCTL_REQ (R80). -/
def execLayerctlReq (col : Nat) (on : Bool) (s : State) : Out :=
  if 8 ≤ col then .fault .noSuchUnit else .next (layerReq (colIx col) on s)

/-- A transition ends with the layer on or off; a request made meanwhile takes effect (R80). -/
def endLayer (col : Fin 8) (on : Bool) (s : State) : State :=
  let next := (colAt s col).layerNext
  let s := updCol s col fun c =>
    { c with layerctl := setBits (c.layerctl &&& ~~~(4#64)) (if on then 1 else 0) 0 0, layerNext := none }
  match next with
  | some r => layerReq col r s
  | none => s

/-- The ways of the upper layer (R129). -/
def upperWays : List Nat := (List.range 8).map (8 + ·)

/-- Ways 8 to 15 of a core lose power (R81, R129): their cache lines go home, waiters wake, banks and array rows are lost. -/
def dropUpper (c : Nat) (s : State) : State :=
  let lines := (coreAt s c).cw.flatMap fun e => (e.2.filter fun l => decide (8 ≤ l.way)).map (·.line)
  clearWays c upperWays (wakeWays c upperWays (lines.foldl (fun s ln => evictLine c ln s) s))

/-- LAYER_POWER_OFF (R81, R129). Once every core of the column is quiet, and no change of its ways has begun, the layer loses power. -/
def execLayerPowerOff (col : Nat) (s : State) : Out :=
  if 8 ≤ col then .fault .noSuchUnit
  else
    let k := colIx col
    let w := (colAt s k).layerctl
    let cs := (s.cores.map (·.1)).filter fun c => colOf c == k
    if !(w.getLsbD 2 && !w.getLsbD 1 && w.getLsbD 0) || !(cs.all fun c => (coreAt s c).quiet && (wayChange s c).isNone) then .next s
    else
      let s := endLayer k false s
      .next (cs.foldl (fun s c => dropUpper c s) s)

/-- LAYER_POWER_ON (R81). The layer is powered, its ways zero in their configured modes. -/
def execLayerPowerOn (col : Nat) (s : State) : Out :=
  if 8 ≤ col then .fault .noSuchUnit
  else
    let k := colIx col
    let w := (colAt s k).layerctl
    let cs := (s.cores.map (·.1)).filter fun c => colOf c == k
    .next (if w.getLsbD 2 && w.getLsbD 1 && !w.getLsbD 0 then endLayer k true (cs.foldl (fun s c => clearWays c upperWays s) s) else s)

/-! ## Sensors and thermal limits (R82, R468, R469) -/

/-- The neighbours of a sensor (R82). -/
def sensorNear (i : Nat) : List Nat :=
  if i < 9 then (List.range 9).filter fun j =>
    (i / 3 == j / 3 && (i % 3 + 1 == j % 3 || j % 3 + 1 == i % 3)) || (i % 3 == j % 3 && (i / 3 + 1 == j / 3 || j / 3 + 1 == i / 3))
  else if i = 9 then [10, 4, 11]
  else if i = 10 then [9, 4, 12]
  else if i = 11 then [12, 9]
  else [11, 10]

/-- Twice the median of a list: the mean of the middle two of an even count (R82). -/
def twiceMedian (l : List Int) : Int :=
  let m := sortBy (fun a b => decide (a ≤ b)) l
  let n := m.length
  if n % 2 = 1 then 2 * m.getD (n / 2) 0 else m.getD (n / 2 - 1) 0 + m.getD (n / 2) 0

/-- The failed sensors of a period: more than 8 °C from the median of the neighbours' raw readings (R82). -/
def sensorFailed (raw : List Int) (i : Nat) : Bool :=
  let m := twiceMedian ((sensorNear i).map fun j => raw.getD j 0)
  decide (256 < (2 * raw.getD i 0 - m).natAbs)

def hottest (l : List Int) : Int :=
  match l with
  | [] => 0
  | a :: r => r.foldl max a

/-- The effective reading of a sensor (R82). -/
def sensorTemp (raw : List Int) (i : Nat) : Int :=
  if !sensorFailed raw i then raw.getD i 0
  else
    let good := (sensorNear i).filter fun j => !sensorFailed raw j
    80 + (if good.isEmpty then hottest raw else hottest (good.map fun j => raw.getD j 0))

/-- The limits of R468 and the power cap of R469 on a column's new readings: clocks halved or back, a trip, a step down of the clocks. -/
def thermalLimits (watts : BitVec 16) (col : Fin 8) (s : State) : State :=
  let c := colAt s col
  let t (i : Nat) := tempOf c i
  let is := List.range 13
  let slow := c.thermctl.getLsbD 62
  let hot := is.any fun i => decide (hotAt i ≤ t i)
  let cool := is.all fun i => decide (t i ≤ hotAt i - 80)
  let slow' := if hot then true else if cool then false else slow
  let trip := is.any fun i => decide (tripAt i ≤ t i)
  let trip' := c.thermctl.getLsbD 63 || trip
  let w := setBits c.thermctl ((if trip' then 1#64 <<< 63 else 0) ||| (if slow' then 1#64 <<< 62 else 0)) 63 62
  let over' := decide ((c.thermctl.setWidth 16 : BitVec 16).toNat < watts.toNat)
  let s := updCol s col fun c => { c with
    thermctl := w, tripped := c.tripped || trip, clk16 := if over' then max 1 (c.clk16 - 1) else c.clk16 }
  if slow' != slow || trip' != c.thermctl.getLsbD 63 then raiseInt 4 s else s

/-- TEMP_READING (R82, R83, R468, R469). A column reads and votes its 13 sensors, in sixteenths of a degree, and its power, and applies
the thermal limits. -/
def execTempReading (col : Nat) (raw : List (BitVec 16)) (watts : BitVec 16) (s : State) : Out :=
  if 8 ≤ col then .fault .noSuchUnit
  else
    let k := colIx col
    let c := colAt s k
    let r (i : Nat) : BitVec 16 := raw.getD i ((vget c.therm i).extractLsb' 32 16)
    let l := (List.range 13).map fun i => (r i).toInt
    .next (thermalLimits watts k (updCol s k fun c => { c with
      therm := Vector.ofFn fun i =>
        ((r i.val).zeroExtend 64 <<< 32) ||| (if sensorFailed l i.val then 1#64 <<< 31 else 0) |||
          (BitVec.ofInt 16 (sensorTemp l i.val)).zeroExtend 64 }))

/-- TRIP_CLEAR (R469). A write of 1 to THERMCTL.TRIP. -/
def execTripClear (col : Nat) (s : State) : Out :=
  if 8 ≤ col then .fault .noSuchUnit
  else .next (thermctlWrite (colIx col) (onlyBits (colAt s (colIx col)).thermctl 15 0 ||| (1#64 <<< 63)) s)

/-! ## Scrubbing and counters -/

/-- PATROL_SCRUB (R51, R72, R74). The scrubber reads one DRAM line: a correctable error is corrected, written back and counted, an
uncorrectable one logged. -/
def execPatrolScrub (col line : Nat) (s : State) : Out :=
  if 8 ≤ col ∨ 0x30000000 ≤ line then .fault .noSuchUnit
  else
    let k := colIx col
    let c := colAt s k
    if c.bad.contains line then .next (logError k 0 (sliceOf (64 * line)) (mkGpa s col (64 * line)) s)
    else if c.soft.contains line then .next (countSoft k (updCol s k fun c => { c with soft := c.soft.filter (· != line) }))
    else .next s

/-- CECNT_READ (R74). -/
def execCecntRead (col : Nat) (s : State) : Out :=
  if 8 ≤ col then .fault .noSuchUnit else .next (privRead (colIx col) 0x3110 s).2

/-- CEBYTES_READ (R113). -/
def execCebytesRead (col e : Nat) (s : State) : Out :=
  if 8 ≤ col ∨ 16 ≤ e then .fault .noSuchUnit else .next (serviceRead (colIx col) (0x18000100008 + 64 * e) s).2

/-- CEREQS_READ (R113). -/
def execCereqsRead (col e : Nat) (s : State) : Out :=
  if 8 ≤ col ∨ 16 ≤ e then .fault .noSuchUnit else .next (serviceRead (colIx col) (0x18000100010 + 64 * e) s).2

/-- CLELEMS_READ (R113). -/
def execClelemsRead (col k : Nat) (s : State) : Out :=
  if 8 ≤ col ∨ 2 ≤ k then .fault .noSuchUnit else .next (serviceRead (colIx col) (0x18000101008 + 64 * k) s).2

/-- CZIN_READ (R113). -/
def execCzinRead (col z : Nat) (s : State) : Out :=
  if 8 ≤ col ∨ 2 ≤ z then .fault .noSuchUnit else .next (serviceRead (colIx col) (0x18000102000 + 64 * z) s).2

/-- CZOUT_READ (R113). -/
def execCzoutRead (col z : Nat) (s : State) : Out :=
  if 8 ≤ col ∨ 2 ≤ z then .fault .noSuchUnit else .next (serviceRead (colIx col) (0x18000102008 + 64 * z) s).2

/-! ## Register writes -/

/-- A host write in a context's queue window (R366): QTAIL, QCTL, QIRQ; QPROG is read-only. -/
def queueWrite (q r : Nat) (v : BitVec 64) (s : State) : State :=
  if r = 0 then writeTail q v s
  else if r = 0x10 then
    updCtx s q fun c => { c with bad := c.bad && !v.getLsbD 1, loadReq := c.loadReq || v.getLsbD 0 }
  else if r = 0x18 then updCtx s q fun c => { c with qirq := onlyBits v 15 15 ||| onlyBits v 5 0 }
  else s

/-- n bytes written at byte r of ARG, little-endian (R1). -/
def argPut (n r : Nat) (v : BitVec 64) (l : Tab (BitVec 8)) : Tab (BitVec 8) :=
  (List.range n).foldl (fun t i => tabPut t (r + i) (v.extractLsb' (8 * i) 8)) l

/-- A host write of n bytes in the management mailbox (R465): ARG bytes are kept while a command runs. -/
def mailboxWrite (r n : Nat) (v : BitVec 64) (s : State) : State :=
  if r = 0 then mbxGo v s
  else if r = 0x10 then { s with boot := { s.boot with mbxwin := onlyBits v 3 0 } }
  else if 0x100 ≤ r ∧ r < 0x800 ∧ !s.boot.busy then
    { s with boot := { s.boot with arg := argPut n (r - 0x100) v s.boot.arg } }
  else s

/-- A vector unmasked while its bit is pending sends its message (R466). -/
def sendPending (s : State) : State :=
  (List.range 64).foldl (fun s v =>
    let b := s.boot
    if b.msixPend.getLsbD v && !b.msixFun && !b.msixMask.getLsbD v then
      { s with boot := { b with msixPend := b.msixPend &&& ~~~(1#64 <<< v), msixSent := v :: b.msixSent } }
    else s) s

/-! ## The function's BARs (R456) -/

/-- An access the host makes through a BAR ends with a completion: the data of a read, 0 for a write, none for the unsupported-request
status. -/
def barDone (x : Option (BitVec 64)) (s : State) : State := { s with boot := { s.boot with barData := x } }

/-- A size and place that a BAR's map takes: aligned 8-byte accesses, in ARG and RESP of the mailbox aligned 4-byte ones too (R456, R465). -/
def barTakes (bar : BitVec 3) (off n : Nat) : Bool :=
  (n == 8 && off % 8 == 0 &&
    (bar == 0 && decide (off < 0x10000) || bar == 2 && decide (off < 0x1000) || bar == 4 && decide (off < 0x8000000) || bar == 7 && decide (off < 16))) ||
  (n == 4 && off % 4 == 0 && bar == 2 && decide (0x100 ≤ off) && decide (off < 0x1000))

/-- An access of BAR4: the privileged register of a column at the offset that the column's 16 MiB give (R456); a write that is held keeps it
waiting (R363). -/
def columnAccess (off : Nat) (write : Bool) (v : BitVec 64) (s : State) : State :=
  let k := colIx (off / 2 ^ 24)
  let r := off % 2 ^ 24
  if aliasHeld s k r then s
  else
    let a := mkGpa s k.val (0x1F000000000 + r)
    if write then
      let (ok, t) := ownerWrite false a 8 v.toNat s
      barDone (if ok then some 0 else none) t
    else
      let (x, t) := dbgLoad a 8 s
      barDone (x.map (BitVec.ofNat 64)) t

/-- REGISTER_WRITE (R2, R3, R456, R465 to R467). The host accesses n bytes at an offset of a BAR: queue windows in BAR0, the management mailbox
in BAR2, the columns' privileged registers in BAR4 under their access codes.  A size or offset that the BAR's map does not take completes
with the unsupported-request status and changes nothing.  Queue windows and mailbox wait while column 0 is under warm reset or held by a
trip.  The masks of the MSI-X rules have no BAR in the spec: the model puts them at a number of their own, by vector and at 8 the
function mask (log entry 9). -/
def execRegisterWrite (bar : BitVec 3) (off : Nat) (a : BarAccess) (s : State) : Out :=
  let v := a.data
  if !barTakes bar off a.n then .next (barDone none s)
  else if bar = 4 then .next (columnAccess off a.write v s)
  else if bar = 7 then
    .next (if off = 0 then
        (if a.write then barDone (some 0) (sendPending { s with boot := { s.boot with msixMask := v } }) else barDone (some s.boot.msixMask) s)
      else if a.write then barDone (some 0) (sendPending { s with boot := { s.boot with msixFun := v.getLsbD 0 } })
      else barDone (some (if s.boot.msixFun then 1 else 0)) s)
  else if (s.boot.rstBusy ∧ s.boot.rstCols.getLsbD 0) ∨ (colAt s 0).tripped then .next s
  else if bar = 0 then
    .next (if a.write then barDone (some 0) (queueWrite (off / 64) (off % 64) v s) else barDone (some (queueRead s (off / 64) (off % 64))) s)
  else .next (if a.write then barDone (some 0) (mailboxWrite off a.n v s) else barDone (some (mailboxRead s off a.n)) s)

/-- PRIVILEGED_VIEW_WRITE (R134, R146). A privileged-view write of a register, by its number or its view's, waits for the idle vector
units where the register belongs to the vector context. -/
def execPrivilegedViewWrite (core : Nat) (slot : BitVec 3) (n : BitVec 12) (v : BitVec 64) (s : State) : Out :=
  if 2048 ≤ core then .fault .noSuchUnit
  else
    let m := (viewOf n.toNat).getD n.toNat
    .next (if 0x80 ≤ m || (sysGet s core slot.toFin m).isNone || (vecReg m && !(coreAt s core).quiet) then s
      else viewPut core slot.toFin m v s)

/-- MSTAT_WRITE (R134, R147). -/
def execMstatWrite (core : Nat) (slot : BitVec 3) (v : BitVec 64) (s : State) : Out :=
  if 2048 ≤ core then .fault .noSuchUnit
  else .next (if (coreAt s core).quiet then viewPut core slot.toFin 8 v s else s)

/-! ## The fabric (R459 to R462) and the host's memory accesses (R457) -/

/-- TRAIN (R460, R461, R463). Every enabled port sends its capability flit; none in minimal mode. -/
def execTrain (s : State) : Out :=
  .next (if s.boot.minimal then s else trainPorts s)

/-- CAPABILITY_FLIT (R460, R461). A training port reads its partner's flit and comes up, or stays down on a mismatch. -/
def execCapabilityFlit (p : Nat) (major minor : BitVec 8) (feat : BitVec 16) (dev : BitVec 8) (s : State) : Out :=
  if 16 ≤ p then .fault .noSuchUnit
  else
    let f := s.fabric
    if !f.training.getLsbD p || s.boot.minimal then .next s
    else
      let st : BitVec 64 := if major ≠ 2 then 2 else if dev = f.dev then 3 else 1
      let up := st == 1
      let w := (st <<< 62) ||| (dev.zeroExtend 64 <<< 40) ||| (major.zeroExtend 64 <<< 16) |||
        (if up then ((if minor.toNat < 1 then minor else 1).zeroExtend 64 <<< 8) ||| (feat &&& 3).zeroExtend 64 else 0)
      let old := vget f.tflstat p
      let s := { s with fabric := { f with tflstat := vput f.tflstat p w, training := f.training &&& ~~~(1#16 <<< p) } }
      .next (if old.extractLsb' 62 2 = w.extractLsb' 62 2 then s else raiseInt 7 s)

/-- ALLOWANCE_GRANT (R459). -/
def execAllowanceGrant (p : Nat) (cls : BitVec 2) (n : Nat) (s : State) : Out :=
  if 16 ≤ p then .fault .noSuchUnit
  else
    let k := 4 * p + cls.toNat
    .next { s with fabric := { s.fabric with allow := tabPut s.fabric.allow k (tabGet 0 s.fabric.allow k + n) } }

/-- JOBLCT_WRITE (R462). -/
def execJoblctWrite (col j : Nat) (v : BitVec 64) (s : State) : Out :=
  if 8 ≤ col ∨ 16 ≤ j then .fault .noSuchUnit else .next (lctWrite (colIx col) j false v s)

/-- LCTBASE_WRITE (R462). -/
def execLctbaseWrite (col j : Nat) (v : BitVec 64) (s : State) : Out :=
  if 8 ≤ col ∨ 16 ≤ j then .fault .noSuchUnit else .next (lctWrite (colIx col) j true v s)

/-- CXL_MEM_ACCESS (R52, R457). A host access to DRAM is performed at its home; while the column is under warm reset, held by a trip (R468), or the device in minimal mode (R463) it waits, as
a coherent access does while a persistent request for its line is active (R65). At a
degraded column a read is poisoned and a write discarded, and both are logged.  A read answers the host with its bytes, or with poison
where it meets an uncorrectable error (R73). -/
def execCxlMemAccess (col off n : Nat) (write : Bool) (data : List (BitVec 8)) (s : State) : Out :=
  if 8 ≤ col then .fault .noSuchUnit
  else
    let k := colIx col
    if 0xC00000000 < off + n ∨ n = 0 ∨ 64 < n ∨ off / 64 ≠ (off + n - 1) / 64 ∨ (s.boot.rstBusy ∧ s.boot.rstCols.getLsbD k.val) ∨
        (colAt s k).tripped ∨ s.boot.minimal ∨ homeBarred s true (mkGpa s col off) then .next s
    else
      let a := mkGpa s col off
      if write then .next (ownerWrite true a n (packWords 8 ((List.range n).map fun i => (data.getD i 0).toNat)) s).2
      else
        let (r, s) := ownerRead true a n s
        .next { s with boot := { s.boot with
          cxlData := (List.range n).map fun i => BitVec.ofNat 8 (r.getD 0 / 256 ^ i), cxlPoison := r.isNone } }

end Sys2Proof.Machine
end

