-- ==== Sys2Proof/Machine/Integer.lean ====
section
/-!
DEFINITION. The meanings of the scalar integer instructions: majors 0x00 to 0x07 and their 16-bit forms (R228, R240 to R248).
-/

namespace Sys2Proof.Machine

/-- 16-bit `add gd, gd, ga` (R228, R242). -/
def execAdd16 (a d : BitVec 3) (s : State) : Out := .next (done2 (r8 d) (gr s (r8 d) + gr s (r8 a)) s)

/-- 16-bit `sub gd, gd, ga` (R228, R242). -/
def execSub16 (a d : BitVec 3) (s : State) : Out := .next (done2 (r8 d) (gr s (r8 d) - gr s (r8 a)) s)

/-- 16-bit `and gd, gd, ga` (R228, R242). -/
def execAnd16 (a d : BitVec 3) (s : State) : Out := .next (done2 (r8 d) (gr s (r8 d) &&& gr s (r8 a)) s)

/-- 16-bit `or gd, gd, ga` (R228, R242). -/
def execOr16 (a d : BitVec 3) (s : State) : Out := .next (done2 (r8 d) (gr s (r8 d) ||| gr s (r8 a)) s)

/-- 16-bit `xor gd, gd, ga` (R228, R242). -/
def execXor16 (a d : BitVec 3) (s : State) : Out := .next (done2 (r8 d) (gr s (r8 d) ^^^ gr s (r8 a)) s)

/-- 16-bit `shl gd, gd, ga` (R228, R242). -/
def execShl16 (a d : BitVec 3) (s : State) : Out := .next (done2 (r8 d) (opShl (gr s (r8 d)) (gr s (r8 a))) s)

/-- 16-bit `shr gd, gd, ga` (R228, R242). -/
def execShr16 (a d : BitVec 3) (s : State) : Out := .next (done2 (r8 d) (opShr (gr s (r8 d)) (gr s (r8 a))) s)

/-- 16-bit `sra gd, gd, ga` (R228, R242). -/
def execSra16 (a d : BitVec 3) (s : State) : Out := .next (done2 (r8 d) (opSra (gr s (r8 d)) (gr s (r8 a))) s)

/-- `mv gd, ga`, which is `add gd, ga, g0` (R228). -/
def execMv16 (a d : BitVec 3) (s : State) : Out := .next (done2 (r8 d) (gr s (r8 a) + gr s 0) s)

/-- `addi gd, gd, imm7` (R228, R245). -/
def execAddi16 (i : BitVec 7) (d : BitVec 3) (s : State) : Out := .next (done2 (r8 d) (gr s (r8 d) + imm7 i) s)

/-- `li gd, imm7`, which is `addi gd, g0, imm7` (R228). -/
def execLi16 (i : BitVec 7) (d : BitVec 3) (s : State) : Out := .next (done2 (r8 d) (gr s 0 + imm7 i) s)

/-- `add gd, ga, gb` (R242). -/
def execAdd (b a d : BitVec 5) (s : State) : Out := .next (done4 d ((gr s a) + (gr s b)) s)

/-- `sub gd, ga, gb` (R242). -/
def execSub (b a d : BitVec 5) (s : State) : Out := .next (done4 d ((gr s a) - (gr s b)) s)

/-- `and gd, ga, gb` (R242). -/
def execAnd (b a d : BitVec 5) (s : State) : Out := .next (done4 d ((gr s a) &&& (gr s b)) s)

/-- `or gd, ga, gb` (R242). -/
def execOr (b a d : BitVec 5) (s : State) : Out := .next (done4 d ((gr s a) ||| (gr s b)) s)

/-- `xor gd, ga, gb` (R242). -/
def execXor (b a d : BitVec 5) (s : State) : Out := .next (done4 d ((gr s a) ^^^ (gr s b)) s)

/-- `shl gd, ga, gb` (R242). -/
def execShl (b a d : BitVec 5) (s : State) : Out := .next (done4 d (opShl (gr s a) (gr s b)) s)

/-- `shr gd, ga, gb` (R242). -/
def execShr (b a d : BitVec 5) (s : State) : Out := .next (done4 d (opShr (gr s a) (gr s b)) s)

/-- `sra gd, ga, gb` (R242). -/
def execSra (b a d : BitVec 5) (s : State) : Out := .next (done4 d (opSra (gr s a) (gr s b)) s)

/-- `slt gd, ga, gb` (R242). -/
def execSlt (b a d : BitVec 5) (s : State) : Out := .next (done4 d (opSlt (gr s a) (gr s b)) s)

/-- `sltn gd, ga, gb` (R242). -/
def execSltn (b a d : BitVec 5) (s : State) : Out := .next (done4 d (opSltn (gr s a) (gr s b)) s)

/-- `min gd, ga, gb` (R242). -/
def execMin (b a d : BitVec 5) (s : State) : Out := .next (done4 d (opMin (gr s a) (gr s b)) s)

/-- `max gd, ga, gb` (R242). -/
def execMax (b a d : BitVec 5) (s : State) : Out := .next (done4 d (opMax (gr s a) (gr s b)) s)

/-- `minn gd, ga, gb` (R242). -/
def execMinn (b a d : BitVec 5) (s : State) : Out := .next (done4 d (opMinn (gr s a) (gr s b)) s)

/-- `maxn gd, ga, gb` (R242). -/
def execMaxn (b a d : BitVec 5) (s : State) : Out := .next (done4 d (opMaxn (gr s a) (gr s b)) s)

/-- `andn gd, ga, gb` (R242). -/
def execAndn (b a d : BitVec 5) (s : State) : Out := .next (done4 d ((gr s a) &&& ~~~(gr s b)) s)

/-- `mul gd, ga, gb` (R243). -/
def execMul (b a d : BitVec 5) (s : State) : Out := .next (done4 d ((gr s a) * (gr s b)) s)

/-- `mulh gd, ga, gb` (R243). -/
def execMulh (b a d : BitVec 5) (s : State) : Out := .next (done4 d (opMulh (gr s a) (gr s b)) s)

/-- `mulhn gd, ga, gb` (R243). -/
def execMulhn (b a d : BitVec 5) (s : State) : Out := .next (done4 d (opMulhn (gr s a) (gr s b)) s)

/-- `div gd, ga, gb` (R243). -/
def execDiv (b a d : BitVec 5) (s : State) : Out := .next (done4 d (opDiv (gr s a) (gr s b)) s)

/-- `divn gd, ga, gb` (R243). -/
def execDivn (b a d : BitVec 5) (s : State) : Out := .next (done4 d (opDivn (gr s a) (gr s b)) s)

/-- `rem gd, ga, gb` (R243). -/
def execRem (b a d : BitVec 5) (s : State) : Out := .next (done4 d (opRem (gr s a) (gr s b)) s)

/-- `remn gd, ga, gb` (R243). -/
def execRemn (b a d : BitVec 5) (s : State) : Out := .next (done4 d (opRemn (gr s a) (gr s b)) s)

/-- `add.w gd, ga, gb` (R244). -/
def execAddW (b a d : BitVec 5) (s : State) : Out := .next (done4 d (inW (· + ·) (gr s a) (gr s b)) s)

/-- `sub.w gd, ga, gb` (R244). -/
def execSubW (b a d : BitVec 5) (s : State) : Out := .next (done4 d (inW (· - ·) (gr s a) (gr s b)) s)

/-- `shl.w gd, ga, gb` (R244). -/
def execShlW (b a d : BitVec 5) (s : State) : Out := .next (done4 d (inW wShl (gr s a) (gr s b)) s)

/-- `shr.w gd, ga, gb` (R244). -/
def execShrW (b a d : BitVec 5) (s : State) : Out := .next (done4 d (inW wShr (gr s a) (gr s b)) s)

/-- `sra.w gd, ga, gb` (R244). -/
def execSraW (b a d : BitVec 5) (s : State) : Out := .next (done4 d (inW wSra (gr s a) (gr s b)) s)

/-- `mul.w gd, ga, gb` (R244). -/
def execMulW (b a d : BitVec 5) (s : State) : Out := .next (done4 d (inW (· * ·) (gr s a) (gr s b)) s)

/-- `div.w gd, ga, gb` (R244). -/
def execDivW (b a d : BitVec 5) (s : State) : Out := .next (done4 d (inW opDiv (gr s a) (gr s b)) s)

/-- `divn.w gd, ga, gb` (R244). -/
def execDivnW (b a d : BitVec 5) (s : State) : Out := .next (done4 d (inW opDivn (gr s a) (gr s b)) s)

/-- `rem.w gd, ga, gb` (R244). -/
def execRemW (b a d : BitVec 5) (s : State) : Out := .next (done4 d (inW opRem (gr s a) (gr s b)) s)

/-- `remn.w gd, ga, gb` (R244). -/
def execRemnW (b a d : BitVec 5) (s : State) : Out := .next (done4 d (inW opRemn (gr s a) (gr s b)) s)

/-- `addi gd, ga, imm12` (R245). -/
def execAddi (i : BitVec 12) (a d : BitVec 5) (s : State) : Out := .next (done4 d ((gr s a) + (imm12 i)) s)

/-- `slti gd, ga, imm12` (R245). -/
def execSlti (i : BitVec 12) (a d : BitVec 5) (s : State) : Out := .next (done4 d (opSlt (gr s a) (imm12 i)) s)

/-- `sltni gd, ga, imm12` (R245). -/
def execSltni (i : BitVec 12) (a d : BitVec 5) (s : State) : Out := .next (done4 d (opSltn (gr s a) (imm12 i)) s)

/-- `andi gd, ga, imm12` (R245). -/
def execAndi (i : BitVec 12) (a d : BitVec 5) (s : State) : Out := .next (done4 d ((gr s a) &&& (imm12 i)) s)

/-- `ori gd, ga, imm12` (R245). -/
def execOri (i : BitVec 12) (a d : BitVec 5) (s : State) : Out := .next (done4 d ((gr s a) ||| (imm12 i)) s)

/-- `xori gd, ga, imm12` (R245). -/
def execXori (i : BitVec 12) (a d : BitVec 5) (s : State) : Out := .next (done4 d ((gr s a) ^^^ (imm12 i)) s)

/-- `shli gd, ga, h` (R245). -/
def execShli (h : BitVec 6) (a d : BitVec 5) (s : State) : Out := .next (done4 d ((gr s a) <<< h.toNat) s)

/-- `shri gd, ga, h` (R245). -/
def execShri (h : BitVec 6) (a d : BitVec 5) (s : State) : Out := .next (done4 d ((gr s a) >>> h.toNat) s)

/-- `srai gd, ga, h` (R245). -/
def execSrai (h : BitVec 6) (a d : BitVec 5) (s : State) : Out := .next (done4 d ((gr s a).sshiftRight h.toNat) s)

/-- `bext gd, ga, gb` (R247). -/
def execBext (b a d : BitVec 5) (s : State) : Out := .next (done4 d (opBext (gr s a) (gr s b)) s)

/-- `bins gd, ga, gb`, gd both source and destination (R247). -/
def execBins (b a d : BitVec 5) (s : State) : Out := .next (done4 d (opBins (gr s d) (gr s a) (gr s b)) s)

/-- `popc gd, ga` (R248). -/
def execPopc (a d : BitVec 5) (s : State) : Out := .next (done4 d (opPopc (gr s a)) s)

/-- `clz gd, ga` (R248). -/
def execClz (a d : BitVec 5) (s : State) : Out := .next (done4 d (opClz (gr s a)) s)

/-- `ctz gd, ga` (R248). -/
def execCtz (a d : BitVec 5) (s : State) : Out := .next (done4 d (opCtz (gr s a)) s)

/-- `ldhi gd, imm20` (R246). -/
def execLdhi (i : BitVec 20) (d : BitVec 5) (s : State) : Out := .next (done4 d (imm20 i) s)

/-- `pcadd gd, imm20` (R246). -/
def execPcadd (i : BitVec 20) (d : BitVec 5) (s : State) : Out := .next (done4 d (pc64 s + imm20 i) s)

end Sys2Proof.Machine
end

