-- ==== Sys2Proof/Machine/Memory.lean ====
section
/-!
DEFINITION. The meanings of the scalar loads and stores, the operations at the owner, branches and jumps (R228, R249 to R258).
-/

namespace Sys2Proof.Machine

/-- 16-bit `ld.d gd, 8*off(gbase)` (R228, R251). -/
def execLdD16 (o : BitVec 4) (b d : BitVec 3) (s : State) : Out := finish (loadInstr .ord 8 true (r8 d) (effAddr16 s b o 8) 2 s)

/-- 16-bit `st.d gd, 8*off(gbase)` (R228, R251). -/
def execStD16 (o : BitVec 4) (b d : BitVec 3) (s : State) : Out := finish (storeInstr .ord 8 (gr s (r8 d)) (effAddr16 s b o 8) 2 s)

/-- 16-bit `ld.w gd, 4*off(gbase)` (R228, R251). -/
def execLdW16 (o : BitVec 4) (b d : BitVec 3) (s : State) : Out := finish (loadInstr .ord 4 true (r8 d) (effAddr16 s b o 4) 2 s)

/-- 16-bit `st.w gd, 4*off(gbase)` (R228, R251). -/
def execStW16 (o : BitVec 4) (b d : BitVec 3) (s : State) : Out := finish (storeInstr .ord 4 (gr s (r8 d)) (effAddr16 s b o 4) 2 s)

/-- `ld.b gd, imm(ga)` (R251, R252). -/
def execLdB (i : BitVec 12) (a d : BitVec 5) (s : State) : Out :=
  finish (loadInstr .ord 1 true d (effAddr s a i) 4 s)

/-- `ld.h gd, imm(ga)` (R251, R252). -/
def execLdH (i : BitVec 12) (a d : BitVec 5) (s : State) : Out :=
  finish (loadInstr .ord 2 true d (effAddr s a i) 4 s)

/-- `ld.w gd, imm(ga)` (R251, R252). -/
def execLdW (i : BitVec 12) (a d : BitVec 5) (s : State) : Out :=
  finish (loadInstr .ord 4 true d (effAddr s a i) 4 s)

/-- `ld.d gd, imm(ga)` (R251, R252). -/
def execLdD (i : BitVec 12) (a d : BitVec 5) (s : State) : Out :=
  finish (loadInstr .ord 8 true d (effAddr s a i) 4 s)

/-- `ld.bn gd, imm(ga)` (R251, R252). -/
def execLdBn (i : BitVec 12) (a d : BitVec 5) (s : State) : Out :=
  finish (loadInstr .ord 1 false d (effAddr s a i) 4 s)

/-- `ld.hn gd, imm(ga)` (R251, R252). -/
def execLdHn (i : BitVec 12) (a d : BitVec 5) (s : State) : Out :=
  finish (loadInstr .ord 2 false d (effAddr s a i) 4 s)

/-- `ld.wn gd, imm(ga)` (R251, R252). -/
def execLdWn (i : BitVec 12) (a d : BitVec 5) (s : State) : Out :=
  finish (loadInstr .ord 4 false d (effAddr s a i) 4 s)

/-- `ld.b.nc gd, imm(ga)` (R251, R252). -/
def execLdBNc (i : BitVec 12) (a d : BitVec 5) (s : State) : Out :=
  finish (loadInstr .nc 1 true d (effAddr s a i) 4 s)

/-- `ld.h.nc gd, imm(ga)` (R251, R252). -/
def execLdHNc (i : BitVec 12) (a d : BitVec 5) (s : State) : Out :=
  finish (loadInstr .nc 2 true d (effAddr s a i) 4 s)

/-- `ld.w.nc gd, imm(ga)` (R251, R252). -/
def execLdWNc (i : BitVec 12) (a d : BitVec 5) (s : State) : Out :=
  finish (loadInstr .nc 4 true d (effAddr s a i) 4 s)

/-- `ld.d.nc gd, imm(ga)` (R251, R252). -/
def execLdDNc (i : BitVec 12) (a d : BitVec 5) (s : State) : Out :=
  finish (loadInstr .nc 8 true d (effAddr s a i) 4 s)

/-- `ld.bn.nc gd, imm(ga)` (R251, R252). -/
def execLdBnNc (i : BitVec 12) (a d : BitVec 5) (s : State) : Out :=
  finish (loadInstr .nc 1 false d (effAddr s a i) 4 s)

/-- `ld.hn.nc gd, imm(ga)` (R251, R252). -/
def execLdHnNc (i : BitVec 12) (a d : BitVec 5) (s : State) : Out :=
  finish (loadInstr .nc 2 false d (effAddr s a i) 4 s)

/-- `ld.wn.nc gd, imm(ga)` (R251, R252). -/
def execLdWnNc (i : BitVec 12) (a d : BitVec 5) (s : State) : Out :=
  finish (loadInstr .nc 4 false d (effAddr s a i) 4 s)

/-- `ld.b.c gd, imm(ga)` (R251, R252). -/
def execLdBC (i : BitVec 12) (a d : BitVec 5) (s : State) : Out :=
  finish (loadInstr .c 1 true d (effAddr s a i) 4 s)

/-- `ld.h.c gd, imm(ga)` (R251, R252). -/
def execLdHC (i : BitVec 12) (a d : BitVec 5) (s : State) : Out :=
  finish (loadInstr .c 2 true d (effAddr s a i) 4 s)

/-- `ld.w.c gd, imm(ga)` (R251, R252). -/
def execLdWC (i : BitVec 12) (a d : BitVec 5) (s : State) : Out :=
  finish (loadInstr .c 4 true d (effAddr s a i) 4 s)

/-- `ld.d.c gd, imm(ga)` (R251, R252). -/
def execLdDC (i : BitVec 12) (a d : BitVec 5) (s : State) : Out :=
  finish (loadInstr .c 8 true d (effAddr s a i) 4 s)

/-- `ld.bn.c gd, imm(ga)` (R251, R252). -/
def execLdBnC (i : BitVec 12) (a d : BitVec 5) (s : State) : Out :=
  finish (loadInstr .c 1 false d (effAddr s a i) 4 s)

/-- `ld.hn.c gd, imm(ga)` (R251, R252). -/
def execLdHnC (i : BitVec 12) (a d : BitVec 5) (s : State) : Out :=
  finish (loadInstr .c 2 false d (effAddr s a i) 4 s)

/-- `ld.wn.c gd, imm(ga)` (R251, R252). -/
def execLdWnC (i : BitVec 12) (a d : BitVec 5) (s : State) : Out :=
  finish (loadInstr .c 4 false d (effAddr s a i) 4 s)

/-- `st.b gdata, imm(gbase)` (R251, R252). -/
def execStB (i : BitVec 12) (b d : BitVec 5) (s : State) : Out :=
  finish (storeInstr .ord 1 (gr s d) (effAddr s b i) 4 s)

/-- `st.h gdata, imm(gbase)` (R251, R252). -/
def execStH (i : BitVec 12) (b d : BitVec 5) (s : State) : Out :=
  finish (storeInstr .ord 2 (gr s d) (effAddr s b i) 4 s)

/-- `st.w gdata, imm(gbase)` (R251, R252). -/
def execStW (i : BitVec 12) (b d : BitVec 5) (s : State) : Out :=
  finish (storeInstr .ord 4 (gr s d) (effAddr s b i) 4 s)

/-- `st.d gdata, imm(gbase)` (R251, R252). -/
def execStD (i : BitVec 12) (b d : BitVec 5) (s : State) : Out :=
  finish (storeInstr .ord 8 (gr s d) (effAddr s b i) 4 s)

/-- `st.b.nc gdata, imm(gbase)` (R251, R252). -/
def execStBNc (i : BitVec 12) (b d : BitVec 5) (s : State) : Out :=
  finish (storeInstr .nc 1 (gr s d) (effAddr s b i) 4 s)

/-- `st.h.nc gdata, imm(gbase)` (R251, R252). -/
def execStHNc (i : BitVec 12) (b d : BitVec 5) (s : State) : Out :=
  finish (storeInstr .nc 2 (gr s d) (effAddr s b i) 4 s)

/-- `st.w.nc gdata, imm(gbase)` (R251, R252). -/
def execStWNc (i : BitVec 12) (b d : BitVec 5) (s : State) : Out :=
  finish (storeInstr .nc 4 (gr s d) (effAddr s b i) 4 s)

/-- `st.d.nc gdata, imm(gbase)` (R251, R252). -/
def execStDNc (i : BitVec 12) (b d : BitVec 5) (s : State) : Out :=
  finish (storeInstr .nc 8 (gr s d) (effAddr s b i) 4 s)

/-- Bytes of an operation at the owner: size code 2 is `.w`, 3 is `.d` (R255). -/
def amSize (z : BitVec 1) : Nat := if z = 1 then 8 else 4

/-- `amadd.S gd, gb, 0(ga)` (R255, R256). -/
def execAmadd (z : BitVec 1) (b a d : BitVec 5) (s : State) : Out :=
  finish (amInstr .add (amSize z) (gr s b) (gr s a) d s)

/-- `amswap.S gd, gb, 0(ga)` (R255, R256). -/
def execAmswap (z : BitVec 1) (b a d : BitVec 5) (s : State) : Out :=
  finish (amInstr .swap (amSize z) (gr s b) (gr s a) d s)

/-- `amcas.S gd, gb, 0(ga)` (R255, R256). -/
def execAmcas (z : BitVec 1) (b a d : BitVec 5) (s : State) : Out :=
  finish (amInstr .cas (amSize z) (gr s b) (gr s a) d s)

/-- `amand.S gd, gb, 0(ga)` (R255, R256). -/
def execAmand (z : BitVec 1) (b a d : BitVec 5) (s : State) : Out :=
  finish (amInstr .and (amSize z) (gr s b) (gr s a) d s)

/-- `amor.S gd, gb, 0(ga)` (R255, R256). -/
def execAmor (z : BitVec 1) (b a d : BitVec 5) (s : State) : Out :=
  finish (amInstr .or (amSize z) (gr s b) (gr s a) d s)

/-- `amxor.S gd, gb, 0(ga)` (R255, R256). -/
def execAmxor (z : BitVec 1) (b a d : BitVec 5) (s : State) : Out :=
  finish (amInstr .xor (amSize z) (gr s b) (gr s a) d s)

/-- `ammin.S gd, gb, 0(ga)` (R255, R256). -/
def execAmmin (z : BitVec 1) (b a d : BitVec 5) (s : State) : Out :=
  finish (amInstr .min (amSize z) (gr s b) (gr s a) d s)

/-- `ammax.S gd, gb, 0(ga)` (R255, R256). -/
def execAmmax (z : BitVec 1) (b a d : BitVec 5) (s : State) : Out :=
  finish (amInstr .max (amSize z) (gr s b) (gr s a) d s)

/-- `amminn.S gd, gb, 0(ga)` (R255, R256). -/
def execAmminn (z : BitVec 1) (b a d : BitVec 5) (s : State) : Out :=
  finish (amInstr .minn (amSize z) (gr s b) (gr s a) d s)

/-- `ammaxn.S gd, gb, 0(ga)` (R255, R256). -/
def execAmmaxn (z : BitVec 1) (b a d : BitVec 5) (s : State) : Out :=
  finish (amInstr .maxn (amSize z) (gr s b) (gr s a) d s)

/-- `amfadd.S gd, gb, 0(ga)` (R255, R256). -/
def execAmfadd (z : BitVec 1) (b a d : BitVec 5) (s : State) : Out :=
  finish (amInstr .fadd (amSize z) (gr s b) (gr s a) d s)

/-- `amfmin.S gd, gb, 0(ga)` (R255, R256). -/
def execAmfmin (z : BitVec 1) (b a d : BitVec 5) (s : State) : Out :=
  finish (amInstr .fmin (amSize z) (gr s b) (gr s a) d s)

/-- `amfmax.S gd, gb, 0(ga)` (R255, R256). -/
def execAmfmax (z : BitVec 1) (b a d : BitVec 5) (s : State) : Out :=
  finish (amInstr .fmax (amSize z) (gr s b) (gr s a) d s)

/-- `red.add.S gb, 0(ga)` (R258). -/
def execRedAdd (z : BitVec 1) (b a : BitVec 5) (s : State) : Out :=
  finish (redInstr .add (amSize z) (gr s b) (gr s a) s)

/-- `red.min.S gb, 0(ga)` (R258). -/
def execRedMin (z : BitVec 1) (b a : BitVec 5) (s : State) : Out :=
  finish (redInstr .min (amSize z) (gr s b) (gr s a) s)

/-- `red.max.S gb, 0(ga)` (R258). -/
def execRedMax (z : BitVec 1) (b a : BitVec 5) (s : State) : Out :=
  finish (redInstr .max (amSize z) (gr s b) (gr s a) s)

/-- `red.minn.S gb, 0(ga)` (R258). -/
def execRedMinn (z : BitVec 1) (b a : BitVec 5) (s : State) : Out :=
  finish (redInstr .minn (amSize z) (gr s b) (gr s a) s)

/-- `red.maxn.S gb, 0(ga)` (R258). -/
def execRedMaxn (z : BitVec 1) (b a : BitVec 5) (s : State) : Out :=
  finish (redInstr .maxn (amSize z) (gr s b) (gr s a) s)

/-- `red.fadd.S gb, 0(ga)` (R258). -/
def execRedFadd (z : BitVec 1) (b a : BitVec 5) (s : State) : Out :=
  finish (redInstr .fadd (amSize z) (gr s b) (gr s a) s)

/-- `red.fmin.S gb, 0(ga)` (R258). -/
def execRedFmin (z : BitVec 1) (b a : BitVec 5) (s : State) : Out :=
  finish (redInstr .fmin (amSize z) (gr s b) (gr s a) s)

/-- `red.fmax.S gb, 0(ga)` (R258). -/
def execRedFmax (z : BitVec 1) (b a : BitVec 5) (s : State) : Out :=
  finish (redInstr .fmax (amSize z) (gr s b) (gr s a) s)

/-- `beq ga, gb, label` (R249). -/
def execBeq (o : BitVec 12) (b a : BitVec 5) (s : State) : Out :=
  .next (branchIf (gr s a == gr s b) (imm12 o) 4 s)

/-- `bne ga, gb, label` (R249). -/
def execBne (o : BitVec 12) (b a : BitVec 5) (s : State) : Out :=
  .next (branchIf (gr s a != gr s b) (imm12 o) 4 s)

/-- `blt ga, gb, label` (R249). -/
def execBlt (o : BitVec 12) (b a : BitVec 5) (s : State) : Out :=
  .next (branchIf ((gr s a).slt (gr s b)) (imm12 o) 4 s)

/-- `bge ga, gb, label` (R249). -/
def execBge (o : BitVec 12) (b a : BitVec 5) (s : State) : Out :=
  .next (branchIf (!(gr s a).slt (gr s b)) (imm12 o) 4 s)

/-- `bltn ga, gb, label` (R249). -/
def execBltn (o : BitVec 12) (b a : BitVec 5) (s : State) : Out :=
  .next (branchIf ((gr s a).ult (gr s b)) (imm12 o) 4 s)

/-- `bgen ga, gb, label` (R249). -/
def execBgen (o : BitVec 12) (b a : BitVec 5) (s : State) : Out :=
  .next (branchIf (!(gr s a).ult (gr s b)) (imm12 o) 4 s)

/-- 16-bit `beqz ga, label` (R228). -/
def execBeqz16 (o : BitVec 7) (a : BitVec 3) (s : State) : Out := .next (branchIf (gr s (r8 a) == gr s 0) (imm7 o) 2 s)

/-- 16-bit `bnez ga, label` (R228). -/
def execBnez16 (o : BitVec 7) (a : BitVec 3) (s : State) : Out := .next (branchIf (gr s (r8 a) != gr s 0) (imm7 o) 2 s)

/-- `jal gd, label` (R250). -/
def execJal (o : BitVec 20) (d : BitVec 5) (s : State) : Out :=
  .next (branchTo (o.signExtend 64) (setG s d (pc64 s + 4)))

/-- 16-bit `j label`, which is `jal g0` (R228). -/
def execJ16 (o : BitVec 10) (s : State) : Out := .next (branchTo (o.signExtend 64) s)

/-- An indirect jump (R250): a target with bit 0 set traps MISALIGN; otherwise gd := the address that follows. -/
def jumpTo (t : BitVec 64) (d : BitVec 5) (link : BitVec 64) (s : State) : Res Unit :=
  if t.getLsbD 0 then .trap .misalign t s else .ok () (retireAt (t.setWidth 48) (setG s d link))

/-- `jalr gd, imm(ga)` (R250). -/
def execJalr (i : BitVec 12) (a d : BitVec 5) (s : State) : Out := finish (jumpTo (gr s a + imm12 i) d (pc64 s + 4) s)

/-- 16-bit `ret`, which is `jalr g0, 0(ln)` (R228). -/
def execRet16 (s : State) : Out := finish (jumpTo (gr s 1) 0 0 s)

end Sys2Proof.Machine
end

