-- ==== Sys2Proof/Machine/Dispatch.lean ====
section
/-!
DEFINITION. The dispatch: one arm per constructor of Instr, each one direct call of the instruction's meaning.
-/

namespace Sys2Proof.Machine

/-- The meaning of an instruction or event in a state. -/
def exec (i : Instr) (s : State) : Host.Outcome State Fault Refusal :=
  match i with
  | .coldReset => Sys2Proof.Machine.execColdReset s
  | .warmReset cols => Sys2Proof.Machine.execWarmReset cols s
  | .boot => Sys2Proof.Machine.execBoot s
  | .bootTimeout => Sys2Proof.Machine.execBootTimeout s
  | .bootctlOk => Sys2Proof.Machine.execBootctlOk s
  | .attest => Sys2Proof.Machine.execAttest s
  | .mbxReset => Sys2Proof.Machine.execMbxReset s
  | .nightreg => Sys2Proof.Machine.execNightreg s
  | .update => Sys2Proof.Machine.execUpdate s
  | .commit col => Sys2Proof.Machine.execCommit col s
  | .layerctlReq col on => Sys2Proof.Machine.execLayerctlReq col on s
  | .layerPowerOff col => Sys2Proof.Machine.execLayerPowerOff col s
  | .layerPowerOn col => Sys2Proof.Machine.execLayerPowerOn col s
  | .tempReading col raw watts => Sys2Proof.Machine.execTempReading col raw watts s
  | .tripClear col => Sys2Proof.Machine.execTripClear col s
  | .patrolScrub col line => Sys2Proof.Machine.execPatrolScrub col line s
  | .cecntRead col => Sys2Proof.Machine.execCecntRead col s
  | .cebytesRead col e => Sys2Proof.Machine.execCebytesRead col e s
  | .cereqsRead col e => Sys2Proof.Machine.execCereqsRead col e s
  | .clelemsRead col k => Sys2Proof.Machine.execClelemsRead col k s
  | .czinRead col z => Sys2Proof.Machine.execCzinRead col z s
  | .czoutRead col z => Sys2Proof.Machine.execCzoutRead col z s
  | .registerWrite bar off a => Sys2Proof.Machine.execRegisterWrite bar off a s
  | .privilegedViewWrite core slot n v => Sys2Proof.Machine.execPrivilegedViewWrite core slot n v s
  | .mstatWrite core slot v => Sys2Proof.Machine.execMstatWrite core slot v s
  | .writeQueueDrain core => Sys2Proof.Machine.execWriteQueueDrain core s
  | .switchHop id => Sys2Proof.Machine.execSwitchHop id s
  | .replyEntryExpiry k => Sys2Proof.Machine.execReplyEntryExpiry k s
  | .replyHop id => Sys2Proof.Machine.execReplyHop id s
  | .sliceRequest col slice => Sys2Proof.Machine.execSliceRequest col slice s
  | .bankAccess core way => Sys2Proof.Machine.execBankAccess core way s
  | .timedRetry core slot => Sys2Proof.Machine.execTimedRetry core slot s
  | .acknowledgement id => Sys2Proof.Machine.execAcknowledgement id s
  | .probe id => Sys2Proof.Machine.execProbe id s
  | .echo id => Sys2Proof.Machine.execEcho id s
  | .route id => Sys2Proof.Machine.execRoute id s
  | .transientRead id => Sys2Proof.Machine.execTransientRead id s
  | .transientWrite id => Sys2Proof.Machine.execTransientWrite id s
  | .eviction core line => Sys2Proof.Machine.execEviction core line s
  | .transientFailure id => Sys2Proof.Machine.execTransientFailure id s
  | .persistentRequest id => Sys2Proof.Machine.execPersistentRequest id s
  | .deactivation id => Sys2Proof.Machine.execDeactivation id s
  | .countdownExpiry core slot dest => Sys2Proof.Machine.execCountdownExpiry core slot dest s
  | .rangeSearch core slot va => Sys2Proof.Machine.execRangeSearch core slot va s
  | .headerReread core slot => Sys2Proof.Machine.execHeaderReread core slot s
  | .editRetry core slot => Sys2Proof.Machine.execEditRetry core slot s
  | .lockRetry core slot => Sys2Proof.Machine.execLockRetry core slot s
  | .dropRequest id core => Sys2Proof.Machine.execDropRequest id core s
  | .engineDrop id col => Sys2Proof.Machine.execEngineDrop id col s
  | .dropAcknowledgement id => Sys2Proof.Machine.execDropAcknowledgement id s
  | .drop core => Sys2Proof.Machine.execDrop core s
  | .move col => Sys2Proof.Machine.execMove col s
  | .ddrop core => Sys2Proof.Machine.execDdrop core s
  | .idrop core => Sys2Proof.Machine.execIdrop core s
  | .walkerPiece col => Sys2Proof.Machine.execWalkerPiece col s
  | .requestBegins col e => Sys2Proof.Machine.execRequestBegins col e s
  | .batch col e => Sys2Proof.Machine.execBatch col e s
  | .requestComplete col e => Sys2Proof.Machine.execRequestComplete col e s
  | .contribution col k => Sys2Proof.Machine.execContribution col k s
  | .initialise id => Sys2Proof.Machine.execInitialise id s
  | .credit id => Sys2Proof.Machine.execCredit id s
  | .arrive id => Sys2Proof.Machine.execArrive id s
  | .errorArrive id => Sys2Proof.Machine.execErrorArrive id s
  | .query id => Sys2Proof.Machine.execQuery id s
  | .wireCompletion col wire k => Sys2Proof.Machine.execWireCompletion col wire k s
  | .barwTimeout core slot => Sys2Proof.Machine.execBarwTimeout core slot s
  | .parkTimeout core slot => Sys2Proof.Machine.execParkTimeout core slot s
  | .decisionCycle => Sys2Proof.Machine.execDecisionCycle s
  | .contextSwitch q => Sys2Proof.Machine.execContextSwitch q s
  | .qtail q v => Sys2Proof.Machine.execQtail q v s
  | .load q => Sys2Proof.Machine.execLoad q s
  | .stageFeed job rec => Sys2Proof.Machine.execStageFeed job rec s
  | .takeRecord core => Sys2Proof.Machine.execTakeRecord core s
  | .balancer job rec => Sys2Proof.Machine.execBalancer job rec s
  | .takeMessage core => Sys2Proof.Machine.execTakeMessage core s
  | .messageArrival a => Sys2Proof.Machine.execMessageArrival a s
  | .messageRetry id => Sys2Proof.Machine.execMessageRetry id s
  | .spawnRequest id => Sys2Proof.Machine.execSpawnRequest id s
  | .spawnAnswer id => Sys2Proof.Machine.execSpawnAnswer id s
  | .ctxjobWrite core lc v => Sys2Proof.Machine.execCtxjobWrite core lc v s
  | .jobChange core => Sys2Proof.Machine.execJobChange core s
  | .save core => Sys2Proof.Machine.execSave core s
  | .restore core => Sys2Proof.Machine.execRestore core s
  | .nfctlNfall => Sys2Proof.Machine.execNfctlNfall s
  | .nfctlJob v => Sys2Proof.Machine.execNfctlJob v s
  | .originFlit o cause => Sys2Proof.Machine.execOriginFlit o cause s
  | .wave core => Sys2Proof.Machine.execWave core s
  | .nfctlDb => Sys2Proof.Machine.execNfctlDb s
  | .daybreakStep d => Sys2Proof.Machine.execDaybreakStep d s
  | .haltreq core slot => Sys2Proof.Machine.execHaltreq core slot s
  | .resumereq core slot => Sys2Proof.Machine.execResumereq core slot s
  | .accessRegister core slot reg sz write v => Sys2Proof.Machine.execAccessRegister core slot reg sz write v s
  | .accessMemory col gpa size virt write v => Sys2Proof.Machine.execAccessMemory col gpa size virt write v s
  | .instrumentUnload col row => Sys2Proof.Machine.execInstrumentUnload col row s
  | .train => Sys2Proof.Machine.execTrain s
  | .capabilityFlit p major minor feat dev => Sys2Proof.Machine.execCapabilityFlit p major minor feat dev s
  | .allowanceGrant p cls n => Sys2Proof.Machine.execAllowanceGrant p cls n s
  | .joblctWrite col j v => Sys2Proof.Machine.execJoblctWrite col j v s
  | .lctbaseWrite col j v => Sys2Proof.Machine.execLctbaseWrite col j v s
  | .cxlMemAccess col off n write data => Sys2Proof.Machine.execCxlMemAccess col off n write data s
  | .mergeWindowClose core way => Sys2Proof.Machine.execMergeWindowClose core way s
  | .operandBufferFull core => Sys2Proof.Machine.execOperandBufferFull core s
  | .add16 a d => Sys2Proof.Machine.execAdd16 a d s
  | .sub16 a d => Sys2Proof.Machine.execSub16 a d s
  | .and16 a d => Sys2Proof.Machine.execAnd16 a d s
  | .or16 a d => Sys2Proof.Machine.execOr16 a d s
  | .xor16 a d => Sys2Proof.Machine.execXor16 a d s
  | .shl16 a d => Sys2Proof.Machine.execShl16 a d s
  | .shr16 a d => Sys2Proof.Machine.execShr16 a d s
  | .sra16 a d => Sys2Proof.Machine.execSra16 a d s
  | .mv16 a d => Sys2Proof.Machine.execMv16 a d s
  | .addi16 n d => Sys2Proof.Machine.execAddi16 n d s
  | .li16 n d => Sys2Proof.Machine.execLi16 n d s
  | .ldD16 o b d => Sys2Proof.Machine.execLdD16 o b d s
  | .stD16 o b d => Sys2Proof.Machine.execStD16 o b d s
  | .ldW16 o b d => Sys2Proof.Machine.execLdW16 o b d s
  | .stW16 o b d => Sys2Proof.Machine.execStW16 o b d s
  | .beqz16 o a => Sys2Proof.Machine.execBeqz16 o a s
  | .bnez16 o a => Sys2Proof.Machine.execBnez16 o a s
  | .j16 o => Sys2Proof.Machine.execJ16 o s
  | .ret16 => Sys2Proof.Machine.execRet16 s
  | .add b a d => Sys2Proof.Machine.execAdd b a d s
  | .sub b a d => Sys2Proof.Machine.execSub b a d s
  | .and b a d => Sys2Proof.Machine.execAnd b a d s
  | .or b a d => Sys2Proof.Machine.execOr b a d s
  | .xor b a d => Sys2Proof.Machine.execXor b a d s
  | .shl b a d => Sys2Proof.Machine.execShl b a d s
  | .shr b a d => Sys2Proof.Machine.execShr b a d s
  | .sra b a d => Sys2Proof.Machine.execSra b a d s
  | .slt b a d => Sys2Proof.Machine.execSlt b a d s
  | .sltn b a d => Sys2Proof.Machine.execSltn b a d s
  | .min b a d => Sys2Proof.Machine.execMin b a d s
  | .max b a d => Sys2Proof.Machine.execMax b a d s
  | .minn b a d => Sys2Proof.Machine.execMinn b a d s
  | .maxn b a d => Sys2Proof.Machine.execMaxn b a d s
  | .andn b a d => Sys2Proof.Machine.execAndn b a d s
  | .mul b a d => Sys2Proof.Machine.execMul b a d s
  | .mulh b a d => Sys2Proof.Machine.execMulh b a d s
  | .mulhn b a d => Sys2Proof.Machine.execMulhn b a d s
  | .div b a d => Sys2Proof.Machine.execDiv b a d s
  | .divn b a d => Sys2Proof.Machine.execDivn b a d s
  | .rem b a d => Sys2Proof.Machine.execRem b a d s
  | .remn b a d => Sys2Proof.Machine.execRemn b a d s
  | .addW b a d => Sys2Proof.Machine.execAddW b a d s
  | .subW b a d => Sys2Proof.Machine.execSubW b a d s
  | .shlW b a d => Sys2Proof.Machine.execShlW b a d s
  | .shrW b a d => Sys2Proof.Machine.execShrW b a d s
  | .sraW b a d => Sys2Proof.Machine.execSraW b a d s
  | .mulW b a d => Sys2Proof.Machine.execMulW b a d s
  | .divW b a d => Sys2Proof.Machine.execDivW b a d s
  | .divnW b a d => Sys2Proof.Machine.execDivnW b a d s
  | .remW b a d => Sys2Proof.Machine.execRemW b a d s
  | .remnW b a d => Sys2Proof.Machine.execRemnW b a d s
  | .addi n a d => Sys2Proof.Machine.execAddi n a d s
  | .slti n a d => Sys2Proof.Machine.execSlti n a d s
  | .sltni n a d => Sys2Proof.Machine.execSltni n a d s
  | .andi n a d => Sys2Proof.Machine.execAndi n a d s
  | .ori n a d => Sys2Proof.Machine.execOri n a d s
  | .xori n a d => Sys2Proof.Machine.execXori n a d s
  | .shli h a d => Sys2Proof.Machine.execShli h a d s
  | .shri h a d => Sys2Proof.Machine.execShri h a d s
  | .srai h a d => Sys2Proof.Machine.execSrai h a d s
  | .bext b a d => Sys2Proof.Machine.execBext b a d s
  | .bins b a d => Sys2Proof.Machine.execBins b a d s
  | .popc a d => Sys2Proof.Machine.execPopc a d s
  | .clz a d => Sys2Proof.Machine.execClz a d s
  | .ctz a d => Sys2Proof.Machine.execCtz a d s
  | .ldhi n d => Sys2Proof.Machine.execLdhi n d s
  | .pcadd n d => Sys2Proof.Machine.execPcadd n d s
  | .ldB n a d => Sys2Proof.Machine.execLdB n a d s
  | .ldH n a d => Sys2Proof.Machine.execLdH n a d s
  | .ldW n a d => Sys2Proof.Machine.execLdW n a d s
  | .ldD n a d => Sys2Proof.Machine.execLdD n a d s
  | .ldBn n a d => Sys2Proof.Machine.execLdBn n a d s
  | .ldHn n a d => Sys2Proof.Machine.execLdHn n a d s
  | .ldWn n a d => Sys2Proof.Machine.execLdWn n a d s
  | .ldBNc n a d => Sys2Proof.Machine.execLdBNc n a d s
  | .ldHNc n a d => Sys2Proof.Machine.execLdHNc n a d s
  | .ldWNc n a d => Sys2Proof.Machine.execLdWNc n a d s
  | .ldDNc n a d => Sys2Proof.Machine.execLdDNc n a d s
  | .ldBnNc n a d => Sys2Proof.Machine.execLdBnNc n a d s
  | .ldHnNc n a d => Sys2Proof.Machine.execLdHnNc n a d s
  | .ldWnNc n a d => Sys2Proof.Machine.execLdWnNc n a d s
  | .ldBC n a d => Sys2Proof.Machine.execLdBC n a d s
  | .ldHC n a d => Sys2Proof.Machine.execLdHC n a d s
  | .ldWC n a d => Sys2Proof.Machine.execLdWC n a d s
  | .ldDC n a d => Sys2Proof.Machine.execLdDC n a d s
  | .ldBnC n a d => Sys2Proof.Machine.execLdBnC n a d s
  | .ldHnC n a d => Sys2Proof.Machine.execLdHnC n a d s
  | .ldWnC n a d => Sys2Proof.Machine.execLdWnC n a d s
  | .stB n b u => Sys2Proof.Machine.execStB n b u s
  | .stH n b u => Sys2Proof.Machine.execStH n b u s
  | .stW n b u => Sys2Proof.Machine.execStW n b u s
  | .stD n b u => Sys2Proof.Machine.execStD n b u s
  | .stBNc n b u => Sys2Proof.Machine.execStBNc n b u s
  | .stHNc n b u => Sys2Proof.Machine.execStHNc n b u s
  | .stWNc n b u => Sys2Proof.Machine.execStWNc n b u s
  | .stDNc n b u => Sys2Proof.Machine.execStDNc n b u s
  | .amadd z b a d => Sys2Proof.Machine.execAmadd z b a d s
  | .amswap z b a d => Sys2Proof.Machine.execAmswap z b a d s
  | .amcas z b a d => Sys2Proof.Machine.execAmcas z b a d s
  | .amand z b a d => Sys2Proof.Machine.execAmand z b a d s
  | .amor z b a d => Sys2Proof.Machine.execAmor z b a d s
  | .amxor z b a d => Sys2Proof.Machine.execAmxor z b a d s
  | .ammin z b a d => Sys2Proof.Machine.execAmmin z b a d s
  | .ammax z b a d => Sys2Proof.Machine.execAmmax z b a d s
  | .amminn z b a d => Sys2Proof.Machine.execAmminn z b a d s
  | .ammaxn z b a d => Sys2Proof.Machine.execAmmaxn z b a d s
  | .amfadd z b a d => Sys2Proof.Machine.execAmfadd z b a d s
  | .amfmin z b a d => Sys2Proof.Machine.execAmfmin z b a d s
  | .amfmax z b a d => Sys2Proof.Machine.execAmfmax z b a d s
  | .redAdd z b a => Sys2Proof.Machine.execRedAdd z b a s
  | .redMin z b a => Sys2Proof.Machine.execRedMin z b a s
  | .redMax z b a => Sys2Proof.Machine.execRedMax z b a s
  | .redMinn z b a => Sys2Proof.Machine.execRedMinn z b a s
  | .redMaxn z b a => Sys2Proof.Machine.execRedMaxn z b a s
  | .redFadd z b a => Sys2Proof.Machine.execRedFadd z b a s
  | .redFmin z b a => Sys2Proof.Machine.execRedFmin z b a s
  | .redFmax z b a => Sys2Proof.Machine.execRedFmax z b a s
  | .ldfD a d => Sys2Proof.Machine.execLdfD a d s
  | .steD b a => Sys2Proof.Machine.execSteD b a s
  | .mbput a n => Sys2Proof.Machine.execMbput a n s
  | .mbget n d => Sys2Proof.Machine.execMbget n d s
  | .beq o b a => Sys2Proof.Machine.execBeq o b a s
  | .bne o b a => Sys2Proof.Machine.execBne o b a s
  | .blt o b a => Sys2Proof.Machine.execBlt o b a s
  | .bge o b a => Sys2Proof.Machine.execBge o b a s
  | .bltn o b a => Sys2Proof.Machine.execBltn o b a s
  | .bgen o b a => Sys2Proof.Machine.execBgen o b a s
  | .jal o d => Sys2Proof.Machine.execJal o d s
  | .jalr n a d => Sys2Proof.Machine.execJalr n a d s
  | .fence u => Sys2Proof.Machine.execFence u s
  | .acq u => Sys2Proof.Machine.execAcq u s
  | .rel u => Sys2Proof.Machine.execRel u s
  | .phase u => Sys2Proof.Machine.execPhase u s
  | .vfence => Sys2Proof.Machine.execVfence s
  | .barw w d => Sys2Proof.Machine.execBarw w d s
  | .park a d => Sys2Proof.Machine.execPark a d s
  | .waitt a => Sys2Proof.Machine.execWaitt a s
  | .mfs n d => Sys2Proof.Machine.execMfs n d s
  | .mts n a => Sys2Proof.Machine.execMts n a s
  | .trap n => Sys2Proof.Machine.execTrap n s
  | .xret => Sys2Proof.Machine.execXret s
  | .savev a d => Sys2Proof.Machine.execSavev a d s
  | .rstv a d => Sys2Proof.Machine.execRstv a d s
  | .migrate b a d => Sys2Proof.Machine.execMigrate b a d s
  | .fwdclr b a => Sys2Proof.Machine.execFwdclr b a s
  | .spawn b a d => Sys2Proof.Machine.execSpawn b a d s
  | .suspend a => Sys2Proof.Machine.execSuspend a s
  | .emit d => Sys2Proof.Machine.execEmit d s
  | .endI => Sys2Proof.Machine.execEndI s
  | .hend => Sys2Proof.Machine.execHend s
  | .larm b a d => Sys2Proof.Machine.execLarm b a d s
  | .send c b a => Sys2Proof.Machine.execSend c b a s
  | .vaddVv r p a m t u d => Sys2Proof.Machine.execVaddVv r p a m t u d s
  | .vaddVx r p a m t u d => Sys2Proof.Machine.execVaddVx r p a m t u d s
  | .vsubVv r p a m t u d => Sys2Proof.Machine.execVsubVv r p a m t u d s
  | .vsubVx r p a m t u d => Sys2Proof.Machine.execVsubVx r p a m t u d s
  | .vrsubVx r p a m t u d => Sys2Proof.Machine.execVrsubVx r p a m t u d s
  | .vmulVv r p a m t u d => Sys2Proof.Machine.execVmulVv r p a m t u d s
  | .vmulVx r p a m t u d => Sys2Proof.Machine.execVmulVx r p a m t u d s
  | .vmulhVv r p a m t u d => Sys2Proof.Machine.execVmulhVv r p a m t u d s
  | .vmulhVx r p a m t u d => Sys2Proof.Machine.execVmulhVx r p a m t u d s
  | .vdivVv r p a m t u d => Sys2Proof.Machine.execVdivVv r p a m t u d s
  | .vdivVx r p a m t u d => Sys2Proof.Machine.execVdivVx r p a m t u d s
  | .vremVv r p a m t u d => Sys2Proof.Machine.execVremVv r p a m t u d s
  | .vremVx r p a m t u d => Sys2Proof.Machine.execVremVx r p a m t u d s
  | .vminVv r p a m t u d => Sys2Proof.Machine.execVminVv r p a m t u d s
  | .vminVx r p a m t u d => Sys2Proof.Machine.execVminVx r p a m t u d s
  | .vmaxVv r p a m t u d => Sys2Proof.Machine.execVmaxVv r p a m t u d s
  | .vmaxVx r p a m t u d => Sys2Proof.Machine.execVmaxVx r p a m t u d s
  | .vsaddVv r p a m t u d => Sys2Proof.Machine.execVsaddVv r p a m t u d s
  | .vsaddVx r p a m t u d => Sys2Proof.Machine.execVsaddVx r p a m t u d s
  | .vssubVv r p a m t u d => Sys2Proof.Machine.execVssubVv r p a m t u d s
  | .vssubVx r p a m t u d => Sys2Proof.Machine.execVssubVx r p a m t u d s
  | .vidV a m d => Sys2Proof.Machine.execVidV a m d s
  | .vpopcV r p a m t d => Sys2Proof.Machine.execVpopcV r p a m t d s
  | .vviewV r p a m t d => Sys2Proof.Machine.execVviewV r p a m t d s
  | .vandVv r p a m t u d => Sys2Proof.Machine.execVandVv r p a m t u d s
  | .vandVx r p a m t u d => Sys2Proof.Machine.execVandVx r p a m t u d s
  | .vorVv r p a m t u d => Sys2Proof.Machine.execVorVv r p a m t u d s
  | .vorVx r p a m t u d => Sys2Proof.Machine.execVorVx r p a m t u d s
  | .vxorVv r p a m t u d => Sys2Proof.Machine.execVxorVv r p a m t u d s
  | .vxorVx r p a m t u d => Sys2Proof.Machine.execVxorVx r p a m t u d s
  | .vandnVv r p a m t u d => Sys2Proof.Machine.execVandnVv r p a m t u d s
  | .vnotV r p a m t d => Sys2Proof.Machine.execVnotV r p a m t d s
  | .vshlVv r p a m t u d => Sys2Proof.Machine.execVshlVv r p a m t u d s
  | .vshlVx r p a m t u d => Sys2Proof.Machine.execVshlVx r p a m t u d s
  | .vshrVv r p a m t u d => Sys2Proof.Machine.execVshrVv r p a m t u d s
  | .vshrVx r p a m t u d => Sys2Proof.Machine.execVshrVx r p a m t u d s
  | .vsraVv r p a m t u d => Sys2Proof.Machine.execVsraVv r p a m t u d s
  | .vsraVx r p a m t u d => Sys2Proof.Machine.execVsraVx r p a m t u d s
  | .vmseqVv r p a m t u d => Sys2Proof.Machine.execVmseqVv r p a m t u d s
  | .vmseqVx r p a m t u d => Sys2Proof.Machine.execVmseqVx r p a m t u d s
  | .vmsneVv r p a m t u d => Sys2Proof.Machine.execVmsneVv r p a m t u d s
  | .vmsneVx r p a m t u d => Sys2Proof.Machine.execVmsneVx r p a m t u d s
  | .vmsltVv r p a m t u d => Sys2Proof.Machine.execVmsltVv r p a m t u d s
  | .vmsltVx r p a m t u d => Sys2Proof.Machine.execVmsltVx r p a m t u d s
  | .vmsleVv r p a m t u d => Sys2Proof.Machine.execVmsleVv r p a m t u d s
  | .vmsleVx r p a m t u d => Sys2Proof.Machine.execVmsleVx r p a m t u d s
  | .vmsgtVx r p a m t u d => Sys2Proof.Machine.execVmsgtVx r p a m t u d s
  | .vmsgeVx r p a m t u d => Sys2Proof.Machine.execVmsgeVx r p a m t u d s
  | .vmandMm a m t u d => Sys2Proof.Machine.execVmandMm a m t u d s
  | .vmorMm a m t u d => Sys2Proof.Machine.execVmorMm a m t u d s
  | .vmxorMm a m t u d => Sys2Proof.Machine.execVmxorMm a m t u d s
  | .vmandnMm a m t u d => Sys2Proof.Machine.execVmandnMm a m t u d s
  | .vmergeVv a t u d => Sys2Proof.Machine.execVmergeVv a t u d s
  | .vmergeVx a t u d => Sys2Proof.Machine.execVmergeVx a t u d s
  | .vmvVv r p a m t d => Sys2Proof.Machine.execVmvVv r p a m t d s
  | .vmvVx a m u d => Sys2Proof.Machine.execVmvVx a m u d s
  | .vmvXs t d => Sys2Proof.Machine.execVmvXs t d s
  | .vfaddVv r p a m t u d => Sys2Proof.Machine.execVfaddVv r p a m t u d s
  | .vfaddVx r p a m t u d => Sys2Proof.Machine.execVfaddVx r p a m t u d s
  | .vfsubVv r p a m t u d => Sys2Proof.Machine.execVfsubVv r p a m t u d s
  | .vfsubVx r p a m t u d => Sys2Proof.Machine.execVfsubVx r p a m t u d s
  | .vfrsubVx r p a m t u d => Sys2Proof.Machine.execVfrsubVx r p a m t u d s
  | .vfmulVv r p a m t u d => Sys2Proof.Machine.execVfmulVv r p a m t u d s
  | .vfmulVx r p a m t u d => Sys2Proof.Machine.execVfmulVx r p a m t u d s
  | .vfdivVv r p a m t u d => Sys2Proof.Machine.execVfdivVv r p a m t u d s
  | .vfdivVx r p a m t u d => Sys2Proof.Machine.execVfdivVx r p a m t u d s
  | .vfrdivVx r p a m t u d => Sys2Proof.Machine.execVfrdivVx r p a m t u d s
  | .vfsqrtV r p a m t d => Sys2Proof.Machine.execVfsqrtV r p a m t d s
  | .vfminVv r p a m t u d => Sys2Proof.Machine.execVfminVv r p a m t u d s
  | .vfminVx r p a m t u d => Sys2Proof.Machine.execVfminVx r p a m t u d s
  | .vfmaxVv r p a m t u d => Sys2Proof.Machine.execVfmaxVv r p a m t u d s
  | .vfmaxVx r p a m t u d => Sys2Proof.Machine.execVfmaxVx r p a m t u d s
  | .vfsgnVv r p a m t u d => Sys2Proof.Machine.execVfsgnVv r p a m t u d s
  | .vfsgnnVv r p a m t u d => Sys2Proof.Machine.execVfsgnnVv r p a m t u d s
  | .vfsgnxVv r p a m t u d => Sys2Proof.Machine.execVfsgnxVv r p a m t u d s
  | .vfclassV r p a m t d => Sys2Proof.Machine.execVfclassV r p a m t d s
  | .vmfeqVv r p a m t u d => Sys2Proof.Machine.execVmfeqVv r p a m t u d s
  | .vmfeqVx r p a m t u d => Sys2Proof.Machine.execVmfeqVx r p a m t u d s
  | .vmfneVv r p a m t u d => Sys2Proof.Machine.execVmfneVv r p a m t u d s
  | .vmfneVx r p a m t u d => Sys2Proof.Machine.execVmfneVx r p a m t u d s
  | .vmfltVv r p a m t u d => Sys2Proof.Machine.execVmfltVv r p a m t u d s
  | .vmfltVx r p a m t u d => Sys2Proof.Machine.execVmfltVx r p a m t u d s
  | .vmfleVv r p a m t u d => Sys2Proof.Machine.execVmfleVv r p a m t u d s
  | .vmfleVx r p a m t u d => Sys2Proof.Machine.execVmfleVx r p a m t u d s
  | .vmfgtVx r p a m t u d => Sys2Proof.Machine.execVmfgtVx r p a m t u d s
  | .vmfgeVx r p a m t u d => Sys2Proof.Machine.execVmfgeVx r p a m t u d s
  | .vwcvtV r p a m t d => Sys2Proof.Machine.execVwcvtV r p a m t d s
  | .vncvtV r p a m t d => Sys2Proof.Machine.execVncvtV r p a m t d s
  | .vnclipV r p a m t d => Sys2Proof.Machine.execVnclipV r p a m t d s
  | .vfwcvtV r p a m t d => Sys2Proof.Machine.execVfwcvtV r p a m t d s
  | .vfncvtV r p a m t d => Sys2Proof.Machine.execVfncvtV r p a m t d s
  | .vftoiV r p a m t d => Sys2Proof.Machine.execVftoiV r p a m t d s
  | .vftoinV r p a m t d => Sys2Proof.Machine.execVftoinV r p a m t d s
  | .vitofV r p a m t d => Sys2Proof.Machine.execVitofV r p a m t d s
  | .vintofV r p a m t d => Sys2Proof.Machine.execVintofV r p a m t d s
  | .vfcvtF4 r p a m t d => Sys2Proof.Machine.execVfcvtF4 r p a m t d s
  | .vrngV a m d => Sys2Proof.Machine.execVrngV a m d s
  | .vseedVx a m u => Sys2Proof.Machine.execVseedVx a m u s
  | .vsetl b a d => Sys2Proof.Machine.execVsetl b a d s
  | .vsetli n a d => Sys2Proof.Machine.execVsetli n a d s
  | .vredsumXs a m t u d => Sys2Proof.Machine.execVredsumXs a m t u d s
  | .vredminXs a m t u d => Sys2Proof.Machine.execVredminXs a m t u d s
  | .vredmaxXs a m t u d => Sys2Proof.Machine.execVredmaxXs a m t u d s
  | .vredandXs a m t u d => Sys2Proof.Machine.execVredandXs a m t u d s
  | .vredorXs a m t u d => Sys2Proof.Machine.execVredorXs a m t u d s
  | .vredxorXs a m t u d => Sys2Proof.Machine.execVredxorXs a m t u d s
  | .vfredsumXs a m t u d => Sys2Proof.Machine.execVfredsumXs a m t u d s
  | .vfredminXs a m t u d => Sys2Proof.Machine.execVfredminXs a m t u d s
  | .vfredmaxXs a m t u d => Sys2Proof.Machine.execVfredmaxXs a m t u d s
  | .vredminiXs a m t u d => Sys2Proof.Machine.execVredminiXs a m t u d s
  | .vredmaxiXs a m t u d => Sys2Proof.Machine.execVredmaxiXs a m t u d s
  | .vtree a m t h n => Sys2Proof.Machine.execVtree a m t h n s
  | .vftree a m t h n => Sys2Proof.Machine.execVftree a m t h n s
  | .vtreeseg c a m t h n => Sys2Proof.Machine.execVtreeseg c a m t h n s
  | .vftreeseg c a m t h n => Sys2Proof.Machine.execVftreeseg c a m t h n s
  | .vsegsumV c a m t d => Sys2Proof.Machine.execVsegsumV c a m t d s
  | .vsegminV c a m t d => Sys2Proof.Machine.execVsegminV c a m t d s
  | .vsegmaxV c a m t d => Sys2Proof.Machine.execVsegmaxV c a m t d s
  | .vfsegsumV c a m t d => Sys2Proof.Machine.execVfsegsumV c a m t d s
  | .vfsegminV c a m t d => Sys2Proof.Machine.execVfsegminV c a m t d s
  | .vfsegmaxV c a m t d => Sys2Proof.Machine.execVfsegmaxV c a m t d s
  | .vslideupVx a m t u d => Sys2Proof.Machine.execVslideupVx a m t u d s
  | .vslidedownVx a m t u d => Sys2Proof.Machine.execVslidedownVx a m t u d s
  | .vslide1upVx a m t u d => Sys2Proof.Machine.execVslide1upVx a m t u d s
  | .vslide1downVx a m t u d => Sys2Proof.Machine.execVslide1downVx a m t u d s
  | .vgatherVv w a m t u d => Sys2Proof.Machine.execVgatherVv w a m t u d s
  | .vcompressVv a t u d => Sys2Proof.Machine.execVcompressVv a t u d s
  | .vexpandVv a t u d => Sys2Proof.Machine.execVexpandVv a t u d s
  | .vbcastVx a m t u d => Sys2Proof.Machine.execVbcastVx a m t u d s
  | .vmrotVx a m t u d => Sys2Proof.Machine.execVmrotVx a m t u d s
  | .vld a m u d => Sys2Proof.Machine.execVld a m u d s
  | .vst a m u d => Sys2Proof.Machine.execVst a m u d s
  | .vlds a m t u d => Sys2Proof.Machine.execVlds a m t u d s
  | .vsts a m t u d => Sys2Proof.Machine.execVsts a m t u d s
  | .vldx w a m t u d => Sys2Proof.Machine.execVldx w a m t u d s
  | .vstx w a m t u d => Sys2Proof.Machine.execVstx w a m t u d s
  | .vldsp tr a m k u d => Sys2Proof.Machine.execVldsp tr a m k u d s
  | .vstsp tr a m k u d => Sys2Proof.Machine.execVstsp tr a m k u d s
  | .mmode a d => Sys2Proof.Machine.execMmode a d s
  | .mzero => Sys2Proof.Machine.execMzero s
  | .mtree t => Sys2Proof.Machine.execMtree t s
  | .mrd t f b a d => Sys2Proof.Machine.execMrd t f b a d s
  | .mwr t f b a d => Sys2Proof.Machine.execMwr t f b a d s
  | .mopa b a => Sys2Proof.Machine.execMopa b a s
  | .mopaSc b a d => Sys2Proof.Machine.execMopaSc b a d s
  | .gadd b a d => Sys2Proof.Machine.execGadd b a d s
  | .gelim b a d => Sys2Proof.Machine.execGelim b a d s
  | .gdamp b a d => Sys2Proof.Machine.execGdamp b a d s
  | .copy w z m k b a d => Sys2Proof.Machine.execCopy w z m k b a d s
  | .copy2d w z m k b a d => Sys2Proof.Machine.execCopy2d w z m k b a d s
  | .copygath w z m k b a d => Sys2Proof.Machine.execCopygath w z m k b a d s
  | .copyscat w z m k b a d => Sys2Proof.Machine.execCopyscat w z m k b a d s
  | .copyt w z m k b a d => Sys2Proof.Machine.execCopyt w z m k b a d s
  | .creduce w z k b a d => Sys2Proof.Machine.execCreduce w z k b a d s
  | .cbcast w z k b a d => Sys2Proof.Machine.execCbcast w z k b a d s
  | .binit f b a => Sys2Proof.Machine.execBinit f b a s
  | .barrive a => Sys2Proof.Machine.execBarrive a s
  | .bwait b a d => Sys2Proof.Machine.execBwait b a d s
  | .bquery b a d => Sys2Proof.Machine.execBquery b a d s
  | .fadd z b a d => Sys2Proof.Machine.execFadd z b a d s
  | .fsub z b a d => Sys2Proof.Machine.execFsub z b a d s
  | .fmul z b a d => Sys2Proof.Machine.execFmul z b a d s
  | .fdiv z b a d => Sys2Proof.Machine.execFdiv z b a d s
  | .fsqrt z a d => Sys2Proof.Machine.execFsqrt z a d s
  | .fmin z b a d => Sys2Proof.Machine.execFmin z b a d s
  | .fmax z b a d => Sys2Proof.Machine.execFmax z b a d s
  | .ftoi z a d => Sys2Proof.Machine.execFtoi z a d s
  | .ftoin z a d => Sys2Proof.Machine.execFtoin z a d s
  | .itof z a d => Sys2Proof.Machine.execItof z a d s
  | .intof z a d => Sys2Proof.Machine.execIntof z a d s
  | .fnar a d => Sys2Proof.Machine.execFnar a d s
  | .fwid a d => Sys2Proof.Machine.execFwid a d s
  | .feq z b a d => Sys2Proof.Machine.execFeq z b a d s
  | .flt z b a d => Sys2Proof.Machine.execFlt z b a d s
  | .fle z b a d => Sys2Proof.Machine.execFle z b a d s
  | .fclass z a d => Sys2Proof.Machine.execFclass z a d s
  | .fsgn z b a d => Sys2Proof.Machine.execFsgn z b a d s
  | .fsgnn z b a d => Sys2Proof.Machine.execFsgnn z b a d s
  | .fsgnx z b a d => Sys2Proof.Machine.execFsgnx z b a d s
  | .fmadd z b a d => Sys2Proof.Machine.execFmadd z b a d s
  | .fmsub z b a d => Sys2Proof.Machine.execFmsub z b a d s
  | .fnmadd z b a d => Sys2Proof.Machine.execFnmadd z b a d s
  | .oxli n nx => Sys2Proof.Machine.execOxli n nx s
  | .oxhi n nx => Sys2Proof.Machine.execOxhi n nx s
  | .oxmv a n => Sys2Proof.Machine.execOxmv a n s
  | .oxrd d n => Sys2Proof.Machine.execOxrd d n s
  | .rsplit a d => Sys2Proof.Machine.execRsplit a d s
  | .rmerge a d => Sys2Proof.Machine.execRmerge a d s
  | .rinv u b a => Sys2Proof.Machine.execRinv u b a s
  | .rprobe a d => Sys2Proof.Machine.execRprobe a d s
  | .waycfg a d => Sys2Proof.Machine.execWaycfg a d s
  | .cwflush b a d => Sys2Proof.Machine.execCwflush b a d s
  | .cwinv b a d => Sys2Proof.Machine.execCwinv b a d s
  | .brk c => Sys2Proof.Machine.execBrk c s
  | .nfall a => Sys2Proof.Machine.execNfall a s
  | .illegalOp w => Sys2Proof.Machine.execIllegalOp w s
  | .pass core => Sys2Proof.Machine.execPass core s
  | .accumulationEnd core => Sys2Proof.Machine.execAccumulationEnd core s
  | .daybreakAcknowledgement a => Sys2Proof.Machine.execDaybreakAcknowledgement a s
  | .beatRetransmission b ok => Sys2Proof.Machine.execBeatRetransmission b ok s

end Sys2Proof.Machine
end

