-- ==== Sys2Proof/Machine/Issue.lean ====
section
/-!
DEFINITION. Issue: the slot a core issues from (R386), the fetch of an instruction (R216, R217), execute matches (R422), step units
(R426, R436), and the model's choice of who moves next when its agenda is empty.
-/

namespace Sys2Proof.Machine

/-! ## Fetch -/

/-- The first enabled execute region of a core that contains an address: its number, and ACT (R421, R422). -/
def execMatch (q : Core) (va : Nat) : Option (Nat × Bool) :=
  (List.range 4).findSome? fun n =>
    let pc := vget q.dbpc n
    let a := (vget q.dbpa n).toNat
    let sz := 2 ^ (pc.toNat % 64)
    if pc.getLsbD 63 && decide (pc.toNat / 256 % 4 = 0) && decide (a % sz = 0) && decide (a ≤ va) && decide (va < a + sz) then
      some (n, pc.getLsbD 10)
    else none

/-- A line for the L0 instruction cache from its owner (R26, R114): nothing where the owner reports an error (R73), or where a beat of the access
was lost for good (R72). -/
def fetchLine (gpa cls : Nat) (va : BitVec 64) (s : State) : Res (BitVec 512) :=
  let ln := gpa / 64
  let own := match targetOf s gpa with | .dram col _ => decide (col = colOf s.curCore) | _ => false
  let read (s : State) : Res (BitVec 512) :=
    match ownerRead (own && cls == 0) (ln * 64) 64 s with
    | (none, s) => .trap .busFault va s
    | (some v, s) => .ok (BitVec.ofNat 512 v) s
  if 9 ≤ (me s).beats then .trap .busFault va (updMe s fun h => { h with beats := 0 })
  else
  match targetOf s gpa with
  | .device d =>
    if !routeUp s (colOf s.curCore) d then .trap .busFault va s
    else if !maySend s (colOf s.curCore) d 0 then .hold s
    else read (useAllowance (colOf s.curCore) d 0 s)
  | _ => read s

/-- One halfword of an instruction: translated with EX, then from the L0 instruction cache, which fills on a miss for every class (R114,
R217). -/
def fetchHalf (va : BitVec 64) (s : State) : Res (BitVec 16) :=
  (xlate needEx va s).andThen fun (g, cls) s =>
    let g := redirect s (myCore s).job g
    let ln := g / 64
    match l0Find (myCore s).l0i (l0iSet ln) ln with
    | some (d, t) => .ok (BitVec.ofNat 16 (lineGet d (g % 64) 2)) (updMyCore s fun q => { q with l0i := t })
    | none =>
      (fetchLine g cls va s).andThen fun d s =>
        .ok (BitVec.ofNat 16 (lineGet d (g % 64) 2)) (updMyCore s fun q => { q with l0i := l0Fill 4 q.l0i (l0iSet ln) ln d })

/-- The two bytes of a halfword, little-endian (R1). -/
def halfBytes (h : BitVec 16) : List (BitVec 8) := [h.extractLsb' 0 8, h.extractLsb' 8 8]

/-- The bytes of the instruction at PC: one halfword, or two when its length bit is 1 (R216, R217). -/
def fetchBytes (s : State) : Res (List (BitVec 8)) :=
  let va := pc64 s
  (fetchHalf va s).andThen fun h0 s =>
    if !h0.getLsbD 0 then .ok (halfBytes h0) s
    else (fetchHalf (va + 2) s).andThen fun h1 s => .ok (halfBytes h0 ++ halfBytes h1) s

/-- The instruction bytes as one word, zero-extended (R218). -/
def wordOf (bs : List (BitVec 8)) : BitVec 32 := BitVec.ofNat 32 (bs.foldr (fun b n => b.toNat + 256 * n) 0)

/-- What the fetched bytes stand for: an instruction, or ILLEGAL_OP with its word (R218). -/
noncomputable def decoded (bs : List (BitVec 8)) : Instr :=
  match decode bs with
  | .ok (i, _) => i
  | .error _ => .illegalOp (wordOf bs)

/-- A trap of the fetch at PC.  One at XBASE, while XPC already is XBASE, halts the hart instead of vectoring again (R397). -/
def fetchTrap (c : Cause) (xval : BitVec 64) (s : State) : Out :=
  let h := me s
  let base := h.xbase.setWidth 48 &&& ~~~(1#48)
  if isVecHart s && !(myCore s).quiet then .next s
  else if c != .brk && h.pc == base && h.xpc == base.zeroExtend 64 then
    .next (updMe s fun h => { h.record c xval false with st := .halted, back := .ready })
  else .next (takeTrap c xval false s)

/-! ## Step units -/

/-- The hart counts step units: SS = 1 at user level, outside debug stepping (R426). -/
def Hart.stepping (h : Hart) : Bool := h.dstep.getLsbD 0 && !h.sys && !h.dbgStep

/-- At issue, a step unit begins at PC, unless the unit under way goes on (R426). -/
def beginUnit (s : State) : State :=
  updMe s fun h =>
    if h.stepping then (if h.stepHead.isSome && !h.stepDone then h else { h with stepHead := some h.pc, stepDone := false })
    else { h with stepHead := none, stepDone := if h.dbgStep then h.stepDone else false }

/-- The last instruction of a stepped hart's unit has completed: the unit goes on with the next, or ends before it (R426, R436). -/
def Hart.unitOver (h : Hart) : Bool := h.stepDone && (h.dbgStep || (h.stepping && h.stepHead.isSome))

/-- The end of a unit that the debug module steps: the hart halts after its instruction, the vector hart once every command of the unit has
completed, at the one it waits in, or in its own freeze (R436). -/
def endUnit (c : Nat) (k : Fin 8) (s : State) : State :=
  let q := coreAt s c
  let open' := q.vec.bound && q.vec.slot == k && !q.quiet
  updHart s c k fun h =>
    if !h.dbgStep then h
    else
      match h.st with
      | .parked | .stalled => { h with st := .halted, back := h.st, dbgStep := false }
      | .frozen => { h with st := .halted, back := .ready, dbgStep := false }
      | .ready => if h.stepDone && !open' then { h with st := .halted, back := .ready, dbgStep := false } else h
      | _ => { h with dbgStep := false }

/-- Send allowances enough for any instruction, at every port. -/
def plentyAllow : Tab Nat := (List.range 64).map fun k => (k, 1048576)

/-- Whether an instruction that takes s to t sends through a fabric port (R436): it used an allowance, or left a write, a request or a
message for another device. -/
def usedPort (s t : State) : Bool :=
  let c := s.curCore.val
  let far (s : State) (gpa : Nat) : Bool := match targetOf s gpa with | .device _ => true | _ => false
  t.fabric.allow != plentyAllow ||
  decide (((coreAt s c).wq.countP fun e => far s e.gpa) < (coreAt t c).wq.countP fun e => far t e.gpa) ||
  t.net.any fun p => decide (s.nextId ≤ p.id) &&
    (match p.kind with
     | .msg _ l _ => (match (resolveCore (colOf p.core) p.job l.toNat t).1 with | .device _ => true | _ => false)
     | _ => far t p.gpa)

/-- A vector, cross-lane or matrix command: majors 0x20 to 0x2A and 0x2D, bits 6 to 1 of its word (R218). -/
def joinsVector (w : BitVec 32) : Bool :=
  let m := (w.extractLsb' 1 6).toNat
  w.getLsbD 0 && ((decide (0x20 ≤ m) && decide (m ≤ 0x2A)) || m == 0x2D)

/-- A scalar instruction of majors 0x00 to 0x07, or one of 16 bits that expands to such: opcodes 0x01 to 0x03 (R227 to R229). -/
def unitScalar (w : BitVec 32) : Bool :=
  if w.getLsbD 0 then decide ((w.extractLsb' 1 6).toNat ≤ 7)
  else decide (1 ≤ (w.extractLsb' 1 5).toNat) && decide ((w.extractLsb' 1 5).toNat ≤ 3)

/-- The convoy of the unit under way is open. -/
def unitOpen (s : State) : Bool := isVecHart s && queues s && !(myCore s).vec.convoy.isEmpty && !(myCore s).vec.ended

/-- The instruction at PC belongs to the unit under way (R426): a vector command that joins its convoy, or a scalar instruction of majors
0x00 to 0x07; the unit ends before the first that is neither (log entry 80). -/
noncomputable def unitTakes (s : State) : Bool :=
  unitOpen s &&
    (match fetchBytes s with
     | .ok bs s =>
       (unitScalar (wordOf bs) && (myCore s).owed.isEmpty) ||
         (joinsVector (wordOf bs) &&
           (match exec (decoded bs) s with
            | .next t => decide ((myCore s).vec.convoy.length < (myCore t).vec.convoy.length)
            | _ => false))
     | _ => false)

/-- The rest of the unit under way, at most n instructions of it, is issued. -/
noncomputable def unitRest : Nat → State → State
  | 0, s => s
  | n + 1, s =>
    if !unitTakes s then s
    else
      match fetchBytes s with
      | .ok bs s => (match exec (decoded bs) s with | .next t => unitRest n t | _ => s)
      | _ => s

/-- A debug step that needs a fabric port during Nightfall (R436): its unit, tried out to the end, sends through one. -/
noncomputable def needsPort (i : Instr) (s : State) : Bool :=
  let s' := { s with fabric := { s.fabric with allow := plentyAllow } }
  (me s).dbgStep && s.night.nfstat.getLsbD 63 && !(isVecHart s && !(myCore s).quiet) &&
    (match exec i s' with | .next t => usedPort s' (convoyRun (2 ^ 30) (unitRest (2 ^ 47) t)) | _ => false)

/-! ## Issue -/

/-- A slot may issue (R131, R386): READY with no reply of its instruction on the way; a core that a wave has reached, that Nightfall holds
or that comes to its pre-emption points issues nothing, but for a hart the debug module steps and for releases that end (R405, R429). -/
def mayIssue (s : State) (c : Nat) (k : Fin 8) : Bool :=
  let q := coreAt s c
  let h := q.harts.get k
  match h.st, h.wait with
  | .ready, .reply _ => false
  | .ready, .tokenReq _ => false
  | .ready, .port _ _ _ _ _ _ => h.dbgStep || !q.night
  | .ready, _ => h.dbgStep || (!q.wave && !q.night && (!stopping s c || h.released))
  | _, _ => false

/-- A parked slot whose wait ends by the machine's own looking, apart from the core's issue: in `migrate` (R418), in an `larm` that could not read its
record (R395), or with the change of the ways that stands first in its core's queue (R128). -/
def mayLook (s : State) (c : Nat) (k : Fin 8) : Bool :=
  let q := coreAt s c
  let h := q.harts.get k
  coreRuns s c && !q.wave && !q.night && h.st == .parked &&
    (match h.wait with
     | .migrate _ | .arm => true
     | .ways => q.wayQueue.head?.any fun r => r.slot == k
     | _ => false)

/-- Slots 0 to 6 in round robin after the slot that last won (R386). -/
def roundRobin (q : Core) : List (Fin 8) :=
  (List.range 7).map fun i => ⟨(q.rr.val + 1 + i) % 7, Nat.lt_trans (Nat.mod_lt _ (by decide)) (by decide)⟩

/-- The copy hart has not issued in the three preceding s-cycles (R386). -/
def copyTurn (q : Core) : Bool := decide (3 ≤ q.sinceCopy)

/-- The slot a core issues from (R386): the copy hart when it has not issued in the three preceding s-cycles, the handler slot, then round
robin. -/
def pickSlot (s : State) (c : Nat) : Option (Fin 8) :=
  let q := coreAt s c
  if !coreRuns s c then none
  else if mayIssue s c 6 && copyTurn q then some 6
  else if mayIssue s c 7 then some 7
  else (roundRobin q).find? fun k => mayIssue s c k

/-- The issue history after slot k won: the copy hart's, and the round-robin place, which the copy hart's and the handler's turns leave
(R386). -/
def noteIssue (s : State) (c : Nat) (k : Fin 8) : State :=
  let q := coreAt s c
  let turn := k.val ≤ 6 && !(k.val == 6 && copyTurn q)
  setCore s c { q with sinceCopy := (if k.val = 6 then 0 else min 3 (q.sinceCopy + 1)), rr := if turn then k else q.rr }

/-- The state in which hart k of core c issues: it acts, its issue is noted, and its step unit begins. -/
def issuing (c : Fin 2048) (k : Fin 8) (s : State) : State :=
  beginUnit { noteIssue s c k with curCore := c, curSlot := k }

/-- `vsetl` and `vsetli`, major 0x2B (R280). -/
def setsVector (w : BitVec 32) : Bool := w.getLsbD 0 && (w.extractLsb' 1 6).toNat == 0x2B

/-- The hart waits for a scalar register that its convoy owes it (R296): of its instructions, commands that need no such register go on, and
`vsetl`, which waits for those it names alone (R281). -/
def awaitsScalar (bs : List (BitVec 8)) (s : State) : Bool :=
  isVecHart s && !(myCore s).owed.isEmpty && !joinsVector (wordOf bs) && !setsVector (wordOf bs)

/-- The issuing hart executes the instruction of the fetched bytes. -/
noncomputable def runBytes (bs : List (BitVec 8)) (s : State) : Out :=
  let i := decoded bs
  if awaitsScalar bs s then .next s
  else if needsPort i s then
    .next (updMe s fun h => { h with st := .halted, back := .ready, dbgStep := false, dstep := h.dstep ||| 4 })
  else exec i s

/-- The hart that acts fetches and executes the instruction at its PC. -/
noncomputable def fetchRun (s : State) : Out :=
  match fetchBytes s with
  | .trap c x s => fetchTrap c x s
  | .hold s => .next s
  | .ok bs s => runBytes bs s

/-- The instruction of the issuing hart (R219, R422): an execute match stops it first, then come the fetch and the instruction itself. -/
noncomputable def issueNew (s : State) : Out :=
  match execMatch (myCore s) (pc64 s).toNat with
  | some (n, act) =>
    if isVecHart s && !(myCore s).quiet then .next s
    else if act then .next (updMe s fun h => { h with st := .halted, back := .ready })
    else fetchTrap .brk (BitVec.ofNat 64 (32 + n)) s
  | none => fetchRun s

/-- The turn of the issuing hart: the next access of the block-port instruction it stands at (R348), or its next instruction. -/
noncomputable def issueInstr (s : State) : Out := if (me s).atPort then portTurn s else issueNew s

/-- The state in which hart k of core c issues a further instruction of its step unit. -/
def unitOn (c : Fin 2048) (k : Fin 8) (s : State) : State :=
  updMe { noteIssue s c k with curCore := c, curSlot := k } fun h => { h with stepDone := false }

/-- The turn of hart k of core c whose step unit has completed an instruction (R426, R436): the unit goes on with the next one, or is over.
Then STEP is taken once no command is outstanding, or, where the debug module steps, `endUnit` halts the hart.  While its convoy owes the
hart a scalar register, the unit is not yet over. -/
noncomputable def unitTurn (c : Fin 2048) (k : Fin 8) (s : State) : Out :=
  let v := { s with curCore := c, curSlot := k }
  if unitTakes v then issueInstr (unitOn c k s)
  else if (me v).dbgStep || (unitOpen v && !(myCore v).owed.isEmpty) then .next v
  else finish (.trap .step (((me v).stepHead.getD (me v).pc).zeroExtend 64) v)

/-- Hart k of core c takes its turn: its next instruction, or the end of its step unit. -/
noncomputable def issueHart (c : Fin 2048) (k : Fin 8) (s : State) : Out :=
  match if (hartAt s c k).unitOver then unitTurn c k s else issueInstr (issuing c k s) with
  | .next t => .next (endUnit c k t)
  | o => o

/-- Core c issues one instruction, if any slot may (R386). -/
noncomputable def issueCore (c : Fin 2048) (s : State) : Out :=
  match pickSlot s c with
  | none => .next { s with lastCore := c.val }
  | some k => issueHart c k { s with lastCore := c.val }

/-- A parked slot looks whether its instruction can complete: it takes no turn of its core (R386). -/
noncomputable def lookHart (c : Fin 2048) (k : Fin 8) (s : State) : Out :=
  if !mayLook s c k then .next s
  else
    match fetchRun { s with curCore := c, curSlot := k } with
    | .next t => .next (endUnit c k t)
    | o => o

/-! ## Time -/

/-- n s-cycles pass.  Time spent FROZEN or HALTED counts toward no time-out: the timers and countdowns of such harts move along (R59,
R131, R241). -/
def Hart.held (n : Nat) (h : Hart) : Hart :=
  if h.st = .frozen ∨ h.st = .halted then
    { h with timer := h.timer.map (· + n), since := h.since + n
             recent := h.recent.map fun e => (e.1, { e.2 with count := e.2.count + n }) }
  else h

/-- A core's counters after n s-cycles: in those it did not issue the copy hart's turn comes nearer (R386); SPECCNT rises by what the part fetches
ahead and discards while a slot is READY (R147, R403). -/
def idleCycles (n : Nat) (s : State) (c : Nat) (q : Core) : Core :=
  { q with
    sinceCopy := if (pickSlot s c).isNone then min 3 (q.sinceCopy + n) else q.sinceCopy
    speccnt := if q.harts.toList.any (·.st == .ready) then q.speccnt + Config.speculated c s.clock n else q.speccnt }

/-- n s-cycles pass.  The time a refused message has waited stands still while its router holds the job's packets (R429). -/
def advance (n : Nat) (s : State) : State :=
  { s with
    clock := s.clock + n
    cores := s.cores.map fun e => (e.1, (idleCycles n s e.1 e.2).mapHarts fun _ h => h.held n)
    net := s.net.map fun p => if p.loc == .retry && heldAt s (colOf p.core) p.job then { p with born := p.born + n } else p }

/-! ## The model's own choice of who moves next -/

/-- Cores with a slot that may issue, in order from the one after the core that issued last. -/
def coresToIssue (s : State) : List (Fin 2048) :=
  let cs := (s.cores.map (·.1)).filter fun c => (pickSlot s c).isSome
  ((cs.filter fun c => decide (s.lastCore < c)) ++ cs.filter fun c => decide (c ≤ s.lastCore)).map fun c =>
    ⟨c % 2048, Nat.mod_lt _ (by decide)⟩

/-- The event that moves a request on from where it is. -/
noncomputable def pktEvents (s : State) (p : Pkt) : List Instr :=
  match p.loc with
  | .omega _ => [.switchHop p.id]
  | .router => [.route p.id]
  | .queued =>
    (match p.kind with
     | .probe _ => [.probe p.id]
     | .barInit _ _ _ => [.initialise p.id]
     | .barCredit _ _ => [.credit p.id]
     | .barArrive => [.arrive p.id]
     | .barErrArrive => [.errorArrive p.id]
     | .barQuery _ _ => [.query p.id]
     | _ =>
       match targetOf s p.gpa with
       | .dram c off => [.sliceRequest c.val (sliceOf off)]
       | _ => (match pktBank s p with | some (c, w) => [.bankAccess c w] | none => []))
  | .reply _ =>
    (match p.kind with
     | .probe _ => [.echo p.id]
     | .spawnAnswer _ _ _ _ => [.spawnAnswer p.id]
     | _ => [.replyHop p.id])
  | .ack => [.acknowledgement p.id]
  | .mesh =>
    (match p.kind with
     | .msg _ _ _ => [.messageArrival ⟨p.id, true, 0, 0, 0, []⟩]
     | .spawn _ _ _ _ => [.spawnRequest p.id]
     | .spawnAnswer _ _ _ _ => [.spawnAnswer p.id]
     | .drop _ _ _ cores cols =>
       cores.map (fun c => .dropRequest p.id c) ++ cols.map (fun c => .engineDrop p.id c) ++ [.dropAcknowledgement p.id]
     | .tokRead => [.deactivation p.id]
     | _ => (match pktBank s p with | some (c, w) => [.bankAccess c w] | none => []))
  | .retry => [.messageRetry p.id]
  | .away => [.messageArrival ⟨p.id, Config.freeChoice s.clock, 0, 0, 0, []⟩]
  | .tokens _ => [.transientRead p.id, .transientWrite p.id, .transientFailure p.id, .persistentRequest p.id]
  | .merged _ _ _ => []
  | .shared _ _ => []

/-- Events of one hart's waits. -/
noncomputable def hartEvents (c : Nat) (k : Fin 8) (h : Hart) : List Instr :=
  let n : BitVec 3 := BitVec.ofNat 3 k.val
  (match h.wait with
   | .fullEmpty _ _ _ => [Instr.timedRetry c n]
   | .wires _ _ => [Instr.barwTimeout c n]
   | .park => [Instr.parkTimeout c n]
   | .lock _ => [Instr.lockRetry c n]
   | .header _ => [Instr.headerReread c n]
   | .edit => [Instr.editRetry c n]
   | _ => []) ++ (h.recent.filter fun e => e.2.bit).map fun e => Instr.countdownExpiry c n e.1

/-- Events of one core. -/
noncomputable def coreEvents (c : Nat) (q : Core) : List Instr :=
  (if q.wq.isEmpty then [] else [Instr.writeQueueDrain c]) ++
  (if q.vec.convoy.isEmpty then [] else [Instr.pass c]) ++
  (if q.vec.dtu.isEmpty then [] else [Instr.operandBufferFull c, Instr.accumulationEnd c]) ++
  q.windows.map (fun w => Instr.mergeWindowClose c w.way) ++
  (if q.ring.toList.all (·.isEmpty) then [] else [Instr.takeMessage c]) ++
  (if q.bound then [Instr.takeRecord c] else []) ++
  (if q.jobWrite.isSome then [Instr.jobChange c] else []) ++
  (if q.svctl.getLsbD 63 then [Instr.save c, Instr.restore c] else []) ++
  (if q.wave then [Instr.wave c] else []) ++
  [Instr.drop c] ++
  ((List.finRange 8).flatMap fun k => hartEvents c k (q.harts.get k)) ++
  (if q.latchSet = 0 then []
   else
     let col := (colOf c).val
     [Instr.wireCompletion col 0 (rowOf c), Instr.wireCompletion col 1 (meshColOf c), Instr.wireCompletion col 2 0])

/-- Events of one column's units. -/
noncomputable def colEvents (c : Nat) (q : Column) : List Instr :=
  ((List.range 18).flatMap fun e =>
    let l := if e < 16 then q.eng.toList.getD e [] else q.coll.toList.getD (e - 16) []
    if l.isEmpty then [] else [Instr.requestBegins c e, Instr.batch c e, Instr.requestComplete c e]) ++
  ((List.range 2).flatMap fun k => if (q.contribs.toList.getD k []).isEmpty then [] else [Instr.contribution c k]) ++
  (if q.walker.isEmpty then [] else [Instr.walkerPiece c]) ++
  (if q.cmpStep = 0 then [] else [Instr.move c]) ++
  (if q.layerctl.getLsbD 2 then [Instr.layerPowerOff c, Instr.layerPowerOn c] else []) ++
  (if q.vbctl.getLsbD 2 then [Instr.commit c] else [])

/-- Events of the distributor, Nightfall, the boot controller and the mailbox. -/
noncomputable def deviceEvents (s : State) : List Instr :=
  ((s.dist.ctxs.map (·.1)).map fun q => Instr.contextSwitch q) ++
  (s.dist.jobs.flatMap fun j => j.recs.flatMap fun r => [Instr.stageFeed j.job r.1, Instr.balancer j.job r.1]) ++
  (if s.dist.ctxs.isEmpty then [] else [Instr.decisionCycle]) ++
  (if s.night.nfstat.getLsbD 63 then
    [Instr.wave 2048, Instr.wave 2049, Instr.wave 2050] ++ (if s.night.nfstat.getLsbD 62 then [1, 2, 3].map fun k =>
      Instr.daybreakStep ⟨s.fabric.dev, 0, nightJob s, k⟩ else [])
   else []) ++
  (if s.boot.starting then [Instr.boot, Instr.bootTimeout] else []) ++
  (if s.boot.rstBusy then [Instr.warmReset 0] else []) ++
  (if s.boot.busy then [Instr.attest, Instr.mbxReset, Instr.nightreg, Instr.update] else []) ++
  (s.boot.hostWrites.map fun w => Instr.acknowledgement w.1) ++
  ((List.range s.entries.length).map fun k => Instr.replyEntryExpiry k)

/-- Every background event that may be under way. -/
noncomputable def backgroundEvents (s : State) : List Instr :=
  s.net.flatMap (pktEvents s) ++ s.cores.flatMap (fun e => coreEvents e.1 e.2) ++
    (List.finRange 8).flatMap (fun k => colEvents k.val (s.cols.get k)) ++ deviceEvents s

/-- An act performed. -/
noncomputable def doAct (a : Act) (s : State) : Out :=
  match a with
  | .core c => issueCore c s
  | .look c k => lookHart c k s
  | .ev i => exec i s
  | .tick n => .next (advance n s)

/-- The slots that may look. -/
def lookers (s : State) : List Act :=
  s.cores.flatMap fun e => ((List.finRange 8).filter fun k => mayLook s e.1 k).map fun k => .look ⟨e.1 % 2048, Nat.mod_lt _ (by decide)⟩ k

/-- An act changes the state. -/
noncomputable def changes (s : State) (a : Act) : Bool :=
  match doAct a s with
  | .next t => t != s
  | _ => false

/-- The background act that comes next by default: the first, from a place that moves with the clock, that changes anything. -/
noncomputable def nextEvent (s : State) : Option Act :=
  let l := (backgroundEvents s).map Act.ev ++ lookers s
  let n := s.clock % max 1 l.length
  (l.drop n ++ l.take n).find? (changes s)

/-- Who moves next, and the state with that choice taken: the head of the agenda, or by default background acts and cores in turn, or an
s-cycle in which nothing happens (log entry 5). -/
noncomputable def nextAct (s : State) : Act × State :=
  match s.agenda with
  | a :: r => (a, { s with agenda := r })
  | [] =>
    let s' := { s with turn := !s.turn }
    match s.turn, nextEvent s, (coresToIssue s).head? with
    | true, some a, _ => (a, s')
    | true, none, some c => (.core c, s')
    | false, _, some c => (.core c, s')
    | false, some a, none => (a, s')
    | _, none, none => (.tick 0, s')

/-- The descriptor that maps the block of an address, and the next, to the start of this device's DRAM for fetching (R24). -/
def fetchDesc (s : State) (va : Nat) : RDesc :=
  { w0 := BitVec.ofNat 64 (va / 64 * 64 + 9), w1 := BitVec.ofNat 64 ((va / 64 + 1) * 64 + 4)
    w2 := BitVec.ofNat 64 (mkGpa s 0 0), w3 := 0x100000000 }

/-- s with an instruction placed where the next step fetches it: the agenda names core 0, whose slot 0 is READY at system level and which
alone may issue there; the core runs job 1 and holds a range-cache entry for the fetch; the bytes stand in DRAM. -/
def placeInstr (s : State) (nbits w : Nat) : State :=
  let s := { s with agenda := [.core 0] }
  let h := hartAt s 0 0
  let a := mkGpa s 0 (h.pc.toNat % 64)
  let s := { s with mem := memWrite s.mem a 4 (w % 2 ^ nbits) }
  updCore s 0 fun q =>
    { q with
      harts := Vector.ofFn fun k =>
        if k = 0 then { h with st := .ready, wait := .none, xstat := h.xstat ||| 1 }
        else { q.harts.get k with st := .idle }
      ctxjob := q.ctxjob &&& ~~~(0xFFFFFFFF#64) ||| 1
      rcache := [{ job := 1, desc := fetchDesc s h.pc.toNat }]
      l0i := [] }

end Sys2Proof.Machine
end

