-- ==== Sys2Proof/Machine/Step.lean ====
section
/-!
DEFINITION. One step of the machine: one s-cycle passes and the next act is performed.  The placing of an instruction where the next
step fetches it.
-/

namespace Sys2Proof.Machine

/-- One step: who moves next is read from the agenda, or chosen by the default order; one s-cycle passes; the act is performed. -/
noncomputable def step (s : State) : Out := doAct (nextAct s).1 (advance 1 (nextAct s).2)

/-- s with an instruction of nbits bits whose bits are w where the next step fetches: the agenda names core 0, whose job is 1, slot 0 of
it is READY, a range-cache entry maps the block of its PC and the next to DRAM with EX at system level, and the bytes stand there
(log entry 6). -/
def State.withFetchWord (s : State) (nbits w : Nat) : State :=
  placeInstr s nbits w

end Sys2Proof.Machine
end

