-- ==== Sys2Proof/Safety.lean ====
section
/-!
DEFINITION. What claims about the machine are stated in: reading one byte of memory, the canonical form of memory, what an instruction
leaves unchanged, and an instruction that retires with one result.
-/

namespace Sys2Proof.Machine

/-- The byte of memory at an address (R192). -/
def byteAt (s : State) (a : Nat) : BitVec 8 := memGet s.mem a

/-- Memory is in its canonical form: addresses strictly rising, no byte listed that an unlisted address reads as. -/
abbrev State.memOk (s : State) : Prop := Memory.wf s.mem = true

/-! ## What an instruction leaves unchanged -/

/-- A hart without what every retirement may change: its g registers, PC, state and waiting marks.  Two harts that agree here agree in
ox, FSTAT, the touched masks, every trap register, the time-outs, the inline stack, the record, and all else a hart holds. -/
def Hart.kept (h : Hart) : Hart :=
  { h with pc := 0, g := Vector.replicate 32 0, st := .ready, back := .ready, wait := .none, timer := none, released := false, stepDone := false
           counted := 0 }

/-- A core without its harts and INSTRET. -/
def Core.kept (q : Core) : Core := { q with harts := Vector.replicate 8 Hart.reset, instret := 0 }

/-- The machine without its cores: memory, columns, networks, distributor, fabric, Nightfall, boot controller. -/
def State.kept (s : State) : State := { s with cores := [] }

/-- The other slots of the core, and every other core, are as before. -/
structure OthersKept (s t : State) : Prop where
  slots : ∀ k, k ≠ s.curSlot → hartAt t s.curCore k = hartAt s s.curCore k
  cores : ∀ c, c ≠ s.curCore.val → coreAt t c = coreAt s c

/-- The issuing hart goes on at p, and INSTRET has counted one instruction (R147). -/
structure GoesOn (s t : State) (p : BitVec 48) : Prop where
  pc : (me t).pc = p
  ready : (me s).st = .ready → (me t).st = .ready
  count : (myCore t).instret = (myCore s).instret + 1

/-- gd has become v, or stays 0 as g0 (R136), and every other g register is as before. -/
structure Wrote (s t : State) (d : BitVec 5) (v : BitVec 64) : Prop where
  dest : gr t d = if d = 0 then 0 else v
  rest : ∀ r, r ≠ d → gr t r = gr s r

/-- Nothing of the machine but the issuing hart's own registers has changed, and every byte of memory is as before. -/
structure RestKept (s t : State) : Prop where
  core : (myCore t).kept = (myCore s).kept
  others : OthersKept s t
  memory : ∀ a, byteAt t a = byteAt s a
  machine : t.kept = s.kept

/-- i retires at p with v in gd, and changes nothing else. -/
def Results (i : Instr) (s : State) (d : BitVec 5) (v : BitVec 64) (p : BitVec 48) : Prop :=
  ∃ t, exec i s = .next t ∧ GoesOn s t p ∧ Wrote s t d v ∧ (me t).kept = (me s).kept ∧ RestKept s t

/-- i retires at the next instruction, len bytes on, with v in gd, and changes nothing else. -/
def Gives (i : Instr) (s : State) (len : BitVec 48) (d : BitVec 5) (v : BitVec 64) : Prop := Results i s d v ((me s).pc + len)

/-! ## Taking a trap -/

/-- No vector, dense-tile or block-port command of the issuing hart is outstanding: what it issues now neither waits for one nor
follows one (R134, R398). -/
abbrev Settled (s : State) : Prop := isVecHart s = true → (myCore s).quiet = true

/-- A hart without what a trap changes (R397): PC, XPC, XCAUSE, XVAL, XSTAT, the replay count of XCONV (R401) and the waiting marks. -/
def Hart.untrapped (h : Hart) : Hart :=
  { h with
    st := .ready, back := .ready, pc := 0, xpc := 0, xcause := 0, xval := 0, xstat := 0, xconv := h.xconv &&& ~~~(7#64 <<< 56)
    wait := .none, timer := none, released := false, probed := false, unsent := none, shadow := none, stepHead := none, stepDone := false }

/-- The issuing hart has taken a trap (R397): cause c, value x, VEC as given, from the PC and privilege it had, to its vector.  Its other
registers, INSTRET and all else are as before. -/
structure Entered (s t : State) (c : Cause) (x : BitVec 64) (vec : Bool) : Prop where
  xpc : (me t).xpc = (me s).pc.zeroExtend 64 &&& ~~~1
  xcause : (me t).xcause = (causeCode c).zeroExtend 64
  xval : (me t).xval = x
  xstat : (me t).xstat = 1 ||| (if (me s).xstat.getLsbD 0 then 2 else 0) ||| (if vec then 4 else 0)
  pc : (me t).pc = (me s).xbase.setWidth 48 &&& ~~~1
  ready : (me s).st = .ready → (me t).st = .ready
  regs : ∀ r, gr t r = gr s r
  kept : (me t).untrapped = (me s).untrapped

/-- The same as `Settled`, and every element of a vector store has left the write queue: what a release, a fence, an acquire, a return from
a trap and the other instructions that wait as `vfence` does find done (R200, R208, R265). -/
abbrev Fenced (s : State) : Prop := isVecHart s = true → (myCore s).fenced = true

/-- i takes that trap and has no other effect. -/
def TakesTrap (i : Instr) (s : State) (c : Cause) (x : BitVec 64) : Prop :=
  Settled s → freezing s s.curCore c = false →
    ∃ t, exec i s = .next t ∧ Entered s t c x false ∧ (myCore t).instret = (myCore s).instret ∧ RestKept s t

/-! ## Floating point -/

/-- i retires with the value of r in gd and the flags of r accumulated in FSTAT (R261), and changes nothing else. -/
def FpGives (i : Instr) (s : State) (d : BitVec 5) (r : Nat × Flags) : Prop :=
  ∃ t, exec i s = .next t ∧ GoesOn s t ((me s).pc + 4) ∧ Wrote s t d (BitVec.ofNat 64 r.1) ∧
    (me t).fstat = (me s).fstat ||| r.2.zeroExtend 64 &&& 31 ∧
    { (me t).kept with fstat := 0 } = { (me s).kept with fstat := 0 } ∧ RestKept s t

/-- The rounding mode of scalar arithmetic: FSTAT.RM, with RSR acting as RNE (R165, R261). -/
def scalarRm (s : State) : Nat := if fstatRm s = 5 then 0 else fstatRm s

/-! ## Scalar accesses of memory -/

/-- The machine after an access with these rights has translated va (R35). -/
def translated (s : State) (rights : BitVec 5) (va : BitVec 64) : State := (translate s s.curCore (isSys s) rights va).2

/-- A byte of memory is as before, or that of a dirty owner copy of its line which has gone home from a cache way (R63, R65). -/
def ByteHomed (s t : State) (a : Nat) : Prop :=
  byteAt t a = byteAt s a ∨ ∃ c e, (coreAt s c).cwFind (a / 64) = some e ∧ e.owner = true ∧ e.dirty = true ∧
    byteAt t a = BitVec.ofNat 8 (e.data.toNat / 256 ^ (a % 64))

/-- A column without what a read at a home slice may change: the slice's tags, the errors of lines, the error registers (R51, R52, R74). -/
def Column.still (c : Column) : Column :=
  { c with slices := [], bad := [], soft := [], sliceBad := [], sliceSoft := [], errinfo := 0, erraddr := 0, cecnt := 0 }

/-- What reads of DRAM lines at their homes may have touched: range caches, slices and error records; lines that a full slice recalled have left
the cache ways, their dirty data at home; a directory on another device has cost send allowances.  No hart and nothing else of a core or of the
machine has changed (R31, R51, R52, R63, R459). -/
structure HomeTouched (s t : State) : Prop where
  cores : ∀ c, { coreAt t c with cw := [], rcache := [] } = { coreAt s c with cw := [], rcache := [] }
  ranges : ∀ c, c ≠ s.curCore.val → (coreAt t c).rcache = (coreAt s c).rcache
  lines : ∀ c ln, (coreAt t c).cwFind ln = (coreAt s c).cwFind ln ∨ (coreAt t c).cwFind ln = none
  cols : ∀ k, (colAt t k).still = (colAt s k).still
  boot : { t.boot with intstat := 0, msixPend := 0, msixSent := [] } = { s.boot with intstat := 0, msixPend := 0, msixSent := [] }
  fabric : { t.fabric with allow := [] } = { s.fabric with allow := [] }
  memory : s.memOk → ∀ a, ByteHomed s t a
  machine : { t with cores := s.cores, cols := s.cols, mem := s.mem, boot := s.boot, fabric := s.fabric } = s

/-- What reads of DRAM lines at their homes have left as it was beside the issuing hart, the core as an access may leave it (R31, R51, R52, R63, R459). -/
structure HomeRest (s t : State) : Prop where
  slots : ∀ k, k ≠ s.curSlot → hartAt t s.curCore k = hartAt s s.curCore k
  core : { (myCore t).kept with rcache := [], l0i := [], l0d := [], cw := [] } = { (myCore s).kept with rcache := [], l0i := [], l0d := [], cw := [] }
  cores : ∀ c, c ≠ s.curCore.val → { coreAt t c with cw := [] } = { coreAt s c with cw := [] }
  cols : ∀ k, (colAt t k).still = (colAt s k).still
  boot : { t.boot with intstat := 0, msixPend := 0, msixSent := [] } = { s.boot with intstat := 0, msixPend := 0, msixSent := [] }
  fabric : { t.fabric with allow := [] } = { s.fabric with allow := [] }
  machine : { t with cores := s.cores, cols := s.cols, mem := s.mem, boot := s.boot, fabric := s.fabric } = s

/-- The DRAM line of a GPA can be read without an error, now and if it leaves its slice. -/
def lineClean (s : State) (a : Nat) : Bool :=
  match targetOf s a with
  | .dram col off => !(colAt s col).bad.contains (off / 64) && !(colAt s col).sliceBad.contains (off / 64) && !(colAt s col).vbstat.getLsbD 63
  | _ => true

/-- No cache way holds data that its line's home has not (R61). -/
def homesCurrent (s : State) : Prop := ∀ c ln l, (coreAt s c).cwFind ln = some l → (l.owner && l.dirty) = false

/-- The machine after a read of the DRAM line of a GPA at its home (R51). -/
def homeAfter (s : State) (g : Nat) : State :=
  match targetOf s g with
  | .dram col off => (homeRead col off g false s).2
  | _ => s

/-- The other slots of the core are as before, and every other core but for which side its banks serve next (R120). -/
structure OthersButBanks (s t : State) : Prop where
  slots : ∀ k, k ≠ s.curSlot → hartAt t s.curCore k = hartAt s s.curCore k
  cores : ∀ c, c ≠ s.curCore.val → { coreAt t c with bankLocal := [] } = { coreAt s c with bankLocal := [] }

/-- The GPA and class of an access that passes every check of R254 up to its performance, and passes the watch regions (R421): the hart
waits for no vector command, the address is aligned, it translates (R35), and the privileged registers are reached at system level
only (R21). -/
def reaches (s : State) (rights : BitVec 5) (n : Nat) (rd wr : Bool) (va : BitVec 64) : Option (Nat × Nat) :=
  if (isVecHart s && !(myCore s).quiet) || va.toNat % n != 0 then none
  else if (rd && (watchHit s s.curCore false va.toNat).isSome) || (wr && (watchHit s s.curCore true va.toNat).isSome) then none
  else
    match (translate s s.curCore (isSys s) rights va).1 with
    | .ok g cls _ => if isPrivReg s g && !isSys s then none else some (g, cls)
    | _ => none

/-- Where a request of the core for that GPA is performed: a forwarding entry of a moved core redirects a bank (R419). -/
def performedAt (s : State) (g : Nat) : Nat := redirect s (myCore s).job g

/-- The bank byte at a GPA answers now: its way is a bank in a powered layer, its core answers, no access from the mesh is to go first,
nothing of the issuing core's own that touches the n bytes is queued or in flight, and no beat of the hart was lost (R20, R72, R120, R129, R196). -/
def bankAnswers (s : State) (g n : Nat) : Bool :=
  (match targetOf s g with
   | .bank b w _ => (bankCheck s b w).isNone && !bankTaken s s.curCore b w
   | _ => false) &&
  decide ((me s).beats < 9) && !bankHeld s s.curCore g && !lineBad s g && !degradedAt s g && !inFlight s s.curCore g n && !((myCore s).wq.any fun e => meets e.gpa e.n g n)

/-- The DRAM line at a GPA can be read at its home without an error, nothing of the issuing core's own that touches the n bytes is queued or in
flight, and no beat of the hart was lost (R72, R196). -/
def dramAnswers (s : State) (g n : Nat) : Bool :=
  (match targetOf s g with
   | .dram _ _ => !lineBad s g && !degradedAt s g
   | _ => false) &&
  decide ((me s).beats < 9) && !inFlight s s.curCore g n && !((myCore s).wq.any fun e => meets e.gpa e.n g n)

/-- A scalar load as R251 gives it: bytes, sign extension, completer, destination, length and address. -/
structure LoadForm where
  n : Nat
  signed : Bool
  via : Completer
  d : BitVec 5
  len : BitVec 48
  va : BitVec 64

/-- The scalar loads of R228, R251 and R252. -/
def loadForm (s : State) (i : Instr) : Option LoadForm :=
  match i with
  | .ldB n a d => some ⟨1, true, .ord, d, 4, gr s a + BitVec.ofInt 64 n.toInt⟩
  | .ldBNc n a d => some ⟨1, true, .nc, d, 4, gr s a + BitVec.ofInt 64 n.toInt⟩
  | .ldBC n a d => some ⟨1, true, .c, d, 4, gr s a + BitVec.ofInt 64 n.toInt⟩
  | .ldH n a d => some ⟨2, true, .ord, d, 4, gr s a + BitVec.ofInt 64 n.toInt⟩
  | .ldHNc n a d => some ⟨2, true, .nc, d, 4, gr s a + BitVec.ofInt 64 n.toInt⟩
  | .ldHC n a d => some ⟨2, true, .c, d, 4, gr s a + BitVec.ofInt 64 n.toInt⟩
  | .ldW n a d => some ⟨4, true, .ord, d, 4, gr s a + BitVec.ofInt 64 n.toInt⟩
  | .ldWNc n a d => some ⟨4, true, .nc, d, 4, gr s a + BitVec.ofInt 64 n.toInt⟩
  | .ldWC n a d => some ⟨4, true, .c, d, 4, gr s a + BitVec.ofInt 64 n.toInt⟩
  | .ldD n a d => some ⟨8, true, .ord, d, 4, gr s a + BitVec.ofInt 64 n.toInt⟩
  | .ldDNc n a d => some ⟨8, true, .nc, d, 4, gr s a + BitVec.ofInt 64 n.toInt⟩
  | .ldDC n a d => some ⟨8, true, .c, d, 4, gr s a + BitVec.ofInt 64 n.toInt⟩
  | .ldBn n a d => some ⟨1, false, .ord, d, 4, gr s a + BitVec.ofInt 64 n.toInt⟩
  | .ldBnNc n a d => some ⟨1, false, .nc, d, 4, gr s a + BitVec.ofInt 64 n.toInt⟩
  | .ldBnC n a d => some ⟨1, false, .c, d, 4, gr s a + BitVec.ofInt 64 n.toInt⟩
  | .ldHn n a d => some ⟨2, false, .ord, d, 4, gr s a + BitVec.ofInt 64 n.toInt⟩
  | .ldHnNc n a d => some ⟨2, false, .nc, d, 4, gr s a + BitVec.ofInt 64 n.toInt⟩
  | .ldHnC n a d => some ⟨2, false, .c, d, 4, gr s a + BitVec.ofInt 64 n.toInt⟩
  | .ldWn n a d => some ⟨4, false, .ord, d, 4, gr s a + BitVec.ofInt 64 n.toInt⟩
  | .ldWnNc n a d => some ⟨4, false, .nc, d, 4, gr s a + BitVec.ofInt 64 n.toInt⟩
  | .ldWnC n a d => some ⟨4, false, .c, d, 4, gr s a + BitVec.ofInt 64 n.toInt⟩
  | .ldD16 o b d => some ⟨8, true, .ord, BitVec.ofNat 5 (8 + d.toNat), 2, gr s (BitVec.ofNat 5 (8 + b.toNat)) + BitVec.ofNat 64 (8 * o.toNat)⟩
  | .ldW16 o b d => some ⟨4, true, .ord, BitVec.ofNat 5 (8 + d.toNat), 2, gr s (BitVec.ofNat 5 (8 + b.toNat)) + BitVec.ofNat 64 (4 * o.toNat)⟩
  | _ => none

/-- A loaded value as the form extends it (R251). -/
def LoadForm.ext (f : LoadForm) (v : Nat) : BitVec 64 :=
  if f.signed then BitVec.ofInt 64 (BitVec.ofNat (8 * f.n) v).toInt else BitVec.ofNat 64 v

/-- A scalar store as R251 gives it: bytes, the register's value, whether it is `.nc`, length and address. -/
structure StoreForm where
  n : Nat
  x : BitVec 64
  nc : Bool
  len : BitVec 48
  va : BitVec 64

/-- The scalar stores of R228 and R251. -/
def storeForm (s : State) (i : Instr) : Option StoreForm :=
  match i with
  | .stB n b u => some ⟨1, gr s u, false, 4, gr s b + BitVec.ofInt 64 n.toInt⟩
  | .stBNc n b u => some ⟨1, gr s u, true, 4, gr s b + BitVec.ofInt 64 n.toInt⟩
  | .stH n b u => some ⟨2, gr s u, false, 4, gr s b + BitVec.ofInt 64 n.toInt⟩
  | .stHNc n b u => some ⟨2, gr s u, true, 4, gr s b + BitVec.ofInt 64 n.toInt⟩
  | .stW n b u => some ⟨4, gr s u, false, 4, gr s b + BitVec.ofInt 64 n.toInt⟩
  | .stWNc n b u => some ⟨4, gr s u, true, 4, gr s b + BitVec.ofInt 64 n.toInt⟩
  | .stD n b u => some ⟨8, gr s u, false, 4, gr s b + BitVec.ofInt 64 n.toInt⟩
  | .stDNc n b u => some ⟨8, gr s u, true, 4, gr s b + BitVec.ofInt 64 n.toInt⟩
  | .stD16 o b u => some ⟨8, gr s (BitVec.ofNat 5 (8 + u.toNat)), false, 2, gr s (BitVec.ofNat 5 (8 + b.toNat)) + BitVec.ofNat 64 (8 * o.toNat)⟩
  | .stW16 o b u => some ⟨4, gr s (BitVec.ofNat 5 (8 + u.toNat)), false, 2, gr s (BitVec.ofNat 5 (8 + b.toNat)) + BitVec.ofNat 64 (4 * o.toNat)⟩
  | _ => none

/-- An operation at the owner (R255, R258): the operation, bytes, operand, address, and the destination of an `AM*`. -/
structure OwnerForm where
  op : AmOp
  n : Nat
  x : BitVec 64
  va : BitVec 64
  d : BitVec 5

/-- The atomics of R255. -/
def atomicForm (s : State) (i : Instr) : Option OwnerForm :=
  match i with
  | .amadd z b a d => some ⟨.add, if z = 1 then 8 else 4, gr s b, gr s a, d⟩
  | .amswap z b a d => some ⟨.swap, if z = 1 then 8 else 4, gr s b, gr s a, d⟩
  | .amcas z b a d => some ⟨.cas, if z = 1 then 8 else 4, gr s b, gr s a, d⟩
  | .amand z b a d => some ⟨.and, if z = 1 then 8 else 4, gr s b, gr s a, d⟩
  | .amor z b a d => some ⟨.or, if z = 1 then 8 else 4, gr s b, gr s a, d⟩
  | .amxor z b a d => some ⟨.xor, if z = 1 then 8 else 4, gr s b, gr s a, d⟩
  | .ammin z b a d => some ⟨.min, if z = 1 then 8 else 4, gr s b, gr s a, d⟩
  | .ammax z b a d => some ⟨.max, if z = 1 then 8 else 4, gr s b, gr s a, d⟩
  | .amminn z b a d => some ⟨.minn, if z = 1 then 8 else 4, gr s b, gr s a, d⟩
  | .ammaxn z b a d => some ⟨.maxn, if z = 1 then 8 else 4, gr s b, gr s a, d⟩
  | .amfadd z b a d => some ⟨.fadd, if z = 1 then 8 else 4, gr s b, gr s a, d⟩
  | .amfmin z b a d => some ⟨.fmin, if z = 1 then 8 else 4, gr s b, gr s a, d⟩
  | .amfmax z b a d => some ⟨.fmax, if z = 1 then 8 else 4, gr s b, gr s a, d⟩
  | _ => none

/-- The reductions of R258. -/
def reductionForm (s : State) (i : Instr) : Option OwnerForm :=
  match i with
  | .redAdd z b a => some ⟨.add, if z = 1 then 8 else 4, gr s b, gr s a, 0⟩
  | .redMin z b a => some ⟨.min, if z = 1 then 8 else 4, gr s b, gr s a, 0⟩
  | .redMax z b a => some ⟨.max, if z = 1 then 8 else 4, gr s b, gr s a, 0⟩
  | .redMinn z b a => some ⟨.minn, if z = 1 then 8 else 4, gr s b, gr s a, 0⟩
  | .redMaxn z b a => some ⟨.maxn, if z = 1 then 8 else 4, gr s b, gr s a, 0⟩
  | .redFadd z b a => some ⟨.fadd, if z = 1 then 8 else 4, gr s b, gr s a, 0⟩
  | .redFmin z b a => some ⟨.fmin, if z = 1 then 8 else 4, gr s b, gr s a, 0⟩
  | .redFmax z b a => some ⟨.fmax, if z = 1 then 8 else 4, gr s b, gr s a, 0⟩
  | _ => none

/-- The old value as an atomic writes it to gd (R256). -/
def OwnerForm.old (f : OwnerForm) (m : Nat) : BitVec 64 :=
  if f.n = 8 then BitVec.ofNat 64 m
  else if f.op = .fadd ∨ f.op = .fmin ∨ f.op = .fmax then BitVec.ofNat 64 (m % 2 ^ 32)
  else BitVec.ofInt 64 (BitVec.ofNat 32 m).toInt

/-- The new value an operation of n bytes makes of old value m and operand x (R255, R258); e is what `amcas` compares with. -/
def newValue (op : AmOp) (n m x e : Nat) : Nat :=
  let w := 8 * n
  let mask := 2 ^ w
  let sx (v : Nat) : Int := (BitVec.ofNat w v).toInt
  let f := if n = 4 then f32 else f64
  let x := x % mask
  match op with
  | .add => (m + x) % mask
  | .swap => x
  | .cas => if m = e % mask then x else m
  | .and => m &&& x
  | .or => m ||| x
  | .xor => m ^^^ x
  | .min => if sx m ≤ sx x then m else x
  | .max => if sx m < sx x then x else m
  | .minn => min m x
  | .maxn => max m x
  | .fadd => (f.add 0 0 m x).1
  | .fmin => (f.min m x).1
  | .fmax => (f.max m x).1

/-- The n low bytes of x stand at a, and every other byte is as before. -/
def Stored (s t : State) (a n x : Nat) : Prop :=
  (∀ k, k < n → byteAt t (a + k) = BitVec.ofNat 8 (x / 256 ^ k)) ∧ ∀ b, b < a ∨ a + n ≤ b → byteAt t b = byteAt s b

/-- A core as an access may leave it: range-cache order, caches, the write queue and the turns of its banks apart. -/
def Core.accessed (q : Core) : Core := { q.kept with rcache := [], l0i := [], l0d := [], cw := [], wq := [], bankLocal := [] }

/-! ## Vector instructions -/

/-- A vector instruction as its form gives it (R223, R303): operation, scalar second operand, register fields, mask, replicated
length, and segment length, index width or transposition. -/
structure VForm where
  op : VOp
  sc : Bool
  vd : BitVec 5
  vs2 : BitVec 5
  vs1 : BitVec 5
  m : Bool
  rep : Nat
  k : Nat

/-- The element instructions (R290 to R302). -/
def elemForm (i : Instr) : Option VForm :=
  match i with
  | .vaddVv r p _ m t u d => some ⟨.add, false, d, t, u, m == 1, repLen r p, 0⟩
  | .vaddVx r p _ m t u d => some ⟨.add, true, d, t, u, m == 1, repLen r p, 0⟩
  | .vsubVv r p _ m t u d => some ⟨.sub, false, d, t, u, m == 1, repLen r p, 0⟩
  | .vsubVx r p _ m t u d => some ⟨.sub, true, d, t, u, m == 1, repLen r p, 0⟩
  | .vrsubVx r p _ m t u d => some ⟨.rsub, true, d, t, u, m == 1, repLen r p, 0⟩
  | .vmulVv r p _ m t u d => some ⟨.mul, false, d, t, u, m == 1, repLen r p, 0⟩
  | .vmulVx r p _ m t u d => some ⟨.mul, true, d, t, u, m == 1, repLen r p, 0⟩
  | .vmulhVv r p _ m t u d => some ⟨.mulh, false, d, t, u, m == 1, repLen r p, 0⟩
  | .vmulhVx r p _ m t u d => some ⟨.mulh, true, d, t, u, m == 1, repLen r p, 0⟩
  | .vdivVv r p _ m t u d => some ⟨.div, false, d, t, u, m == 1, repLen r p, 0⟩
  | .vdivVx r p _ m t u d => some ⟨.div, true, d, t, u, m == 1, repLen r p, 0⟩
  | .vremVv r p _ m t u d => some ⟨.rem, false, d, t, u, m == 1, repLen r p, 0⟩
  | .vremVx r p _ m t u d => some ⟨.rem, true, d, t, u, m == 1, repLen r p, 0⟩
  | .vminVv r p _ m t u d => some ⟨.min, false, d, t, u, m == 1, repLen r p, 0⟩
  | .vminVx r p _ m t u d => some ⟨.min, true, d, t, u, m == 1, repLen r p, 0⟩
  | .vmaxVv r p _ m t u d => some ⟨.max, false, d, t, u, m == 1, repLen r p, 0⟩
  | .vmaxVx r p _ m t u d => some ⟨.max, true, d, t, u, m == 1, repLen r p, 0⟩
  | .vsaddVv r p _ m t u d => some ⟨.sadd, false, d, t, u, m == 1, repLen r p, 0⟩
  | .vsaddVx r p _ m t u d => some ⟨.sadd, true, d, t, u, m == 1, repLen r p, 0⟩
  | .vssubVv r p _ m t u d => some ⟨.ssub, false, d, t, u, m == 1, repLen r p, 0⟩
  | .vssubVx r p _ m t u d => some ⟨.ssub, true, d, t, u, m == 1, repLen r p, 0⟩
  | .vidV _ m d => some ⟨.id, false, d, 0, 0, m == 1, 0, 0⟩
  | .vpopcV r p _ m t d => some ⟨.popc, false, d, t, 0, m == 1, repLen r p, 0⟩
  | .vviewV r p _ m t d => some ⟨.view, false, d, t, 0, m == 1, repLen r p, 0⟩
  | .vandVv r p _ m t u d => some ⟨.and, false, d, t, u, m == 1, repLen r p, 0⟩
  | .vandVx r p _ m t u d => some ⟨.and, true, d, t, u, m == 1, repLen r p, 0⟩
  | .vorVv r p _ m t u d => some ⟨.or, false, d, t, u, m == 1, repLen r p, 0⟩
  | .vorVx r p _ m t u d => some ⟨.or, true, d, t, u, m == 1, repLen r p, 0⟩
  | .vxorVv r p _ m t u d => some ⟨.xor, false, d, t, u, m == 1, repLen r p, 0⟩
  | .vxorVx r p _ m t u d => some ⟨.xor, true, d, t, u, m == 1, repLen r p, 0⟩
  | .vandnVv r p _ m t u d => some ⟨.andn, false, d, t, u, m == 1, repLen r p, 0⟩
  | .vnotV r p _ m t d => some ⟨.not, false, d, t, 0, m == 1, repLen r p, 0⟩
  | .vshlVv r p _ m t u d => some ⟨.shl, false, d, t, u, m == 1, repLen r p, 0⟩
  | .vshlVx r p _ m t u d => some ⟨.shl, true, d, t, u, m == 1, repLen r p, 0⟩
  | .vshrVv r p _ m t u d => some ⟨.shr, false, d, t, u, m == 1, repLen r p, 0⟩
  | .vshrVx r p _ m t u d => some ⟨.shr, true, d, t, u, m == 1, repLen r p, 0⟩
  | .vsraVv r p _ m t u d => some ⟨.sra, false, d, t, u, m == 1, repLen r p, 0⟩
  | .vsraVx r p _ m t u d => some ⟨.sra, true, d, t, u, m == 1, repLen r p, 0⟩
  | .vmseqVv r p _ m t u d => some ⟨.seq, false, d, t, u, m == 1, repLen r p, 0⟩
  | .vmseqVx r p _ m t u d => some ⟨.seq, true, d, t, u, m == 1, repLen r p, 0⟩
  | .vmsneVv r p _ m t u d => some ⟨.sne, false, d, t, u, m == 1, repLen r p, 0⟩
  | .vmsneVx r p _ m t u d => some ⟨.sne, true, d, t, u, m == 1, repLen r p, 0⟩
  | .vmsltVv r p _ m t u d => some ⟨.slt, false, d, t, u, m == 1, repLen r p, 0⟩
  | .vmsltVx r p _ m t u d => some ⟨.slt, true, d, t, u, m == 1, repLen r p, 0⟩
  | .vmsleVv r p _ m t u d => some ⟨.sle, false, d, t, u, m == 1, repLen r p, 0⟩
  | .vmsleVx r p _ m t u d => some ⟨.sle, true, d, t, u, m == 1, repLen r p, 0⟩
  | .vmsgtVx r p _ m t u d => some ⟨.sgt, true, d, t, u, m == 1, repLen r p, 0⟩
  | .vmsgeVx r p _ m t u d => some ⟨.sge, true, d, t, u, m == 1, repLen r p, 0⟩
  | .vmandMm _ m t u d => some ⟨.mand, false, d, t, u, m == 1, 0, 0⟩
  | .vmorMm _ m t u d => some ⟨.mor, false, d, t, u, m == 1, 0, 0⟩
  | .vmxorMm _ m t u d => some ⟨.mxor, false, d, t, u, m == 1, 0, 0⟩
  | .vmandnMm _ m t u d => some ⟨.mandn, false, d, t, u, m == 1, 0, 0⟩
  | .vmergeVv _ t u d => some ⟨.merge, false, d, t, u, false, 0, 0⟩
  | .vmergeVx _ t u d => some ⟨.merge, true, d, t, u, false, 0, 0⟩
  | .vmvVv r p _ m t d => some ⟨.mv, false, d, t, 0, m == 1, repLen r p, 0⟩
  | .vmvVx _ m u d => some ⟨.mv, true, d, 0, u, m == 1, 0, 0⟩
  | .vrngV _ m d => some ⟨.rng, false, d, 0, 0, m == 1, 0, 0⟩
  | .vseedVx _ m u => some ⟨.seed, true, 0, 0, u, m == 1, 0, 0⟩
  | .vfaddVv r p _ m t u d => some ⟨.fadd, false, d, t, u, m == 1, repLen r p, 0⟩
  | .vfaddVx r p _ m t u d => some ⟨.fadd, true, d, t, u, m == 1, repLen r p, 0⟩
  | .vfsubVv r p _ m t u d => some ⟨.fsub, false, d, t, u, m == 1, repLen r p, 0⟩
  | .vfsubVx r p _ m t u d => some ⟨.fsub, true, d, t, u, m == 1, repLen r p, 0⟩
  | .vfrsubVx r p _ m t u d => some ⟨.frsub, true, d, t, u, m == 1, repLen r p, 0⟩
  | .vfmulVv r p _ m t u d => some ⟨.fmul, false, d, t, u, m == 1, repLen r p, 0⟩
  | .vfmulVx r p _ m t u d => some ⟨.fmul, true, d, t, u, m == 1, repLen r p, 0⟩
  | .vfdivVv r p _ m t u d => some ⟨.fdiv, false, d, t, u, m == 1, repLen r p, 0⟩
  | .vfdivVx r p _ m t u d => some ⟨.fdiv, true, d, t, u, m == 1, repLen r p, 0⟩
  | .vfrdivVx r p _ m t u d => some ⟨.frdiv, true, d, t, u, m == 1, repLen r p, 0⟩
  | .vfsqrtV r p _ m t d => some ⟨.fsqrt, false, d, t, 0, m == 1, repLen r p, 0⟩
  | .vfminVv r p _ m t u d => some ⟨.fmin, false, d, t, u, m == 1, repLen r p, 0⟩
  | .vfminVx r p _ m t u d => some ⟨.fmin, true, d, t, u, m == 1, repLen r p, 0⟩
  | .vfmaxVv r p _ m t u d => some ⟨.fmax, false, d, t, u, m == 1, repLen r p, 0⟩
  | .vfmaxVx r p _ m t u d => some ⟨.fmax, true, d, t, u, m == 1, repLen r p, 0⟩
  | .vfsgnVv r p _ m t u d => some ⟨.fsgn, false, d, t, u, m == 1, repLen r p, 0⟩
  | .vfsgnnVv r p _ m t u d => some ⟨.fsgnn, false, d, t, u, m == 1, repLen r p, 0⟩
  | .vfsgnxVv r p _ m t u d => some ⟨.fsgnx, false, d, t, u, m == 1, repLen r p, 0⟩
  | .vfclassV r p _ m t d => some ⟨.fclass, false, d, t, 0, m == 1, repLen r p, 0⟩
  | .vmfeqVv r p _ m t u d => some ⟨.feq, false, d, t, u, m == 1, repLen r p, 0⟩
  | .vmfeqVx r p _ m t u d => some ⟨.feq, true, d, t, u, m == 1, repLen r p, 0⟩
  | .vmfneVv r p _ m t u d => some ⟨.fne, false, d, t, u, m == 1, repLen r p, 0⟩
  | .vmfneVx r p _ m t u d => some ⟨.fne, true, d, t, u, m == 1, repLen r p, 0⟩
  | .vmfltVv r p _ m t u d => some ⟨.flt, false, d, t, u, m == 1, repLen r p, 0⟩
  | .vmfltVx r p _ m t u d => some ⟨.flt, true, d, t, u, m == 1, repLen r p, 0⟩
  | .vmfleVv r p _ m t u d => some ⟨.fle, false, d, t, u, m == 1, repLen r p, 0⟩
  | .vmfleVx r p _ m t u d => some ⟨.fle, true, d, t, u, m == 1, repLen r p, 0⟩
  | .vmfgtVx r p _ m t u d => some ⟨.fgt, true, d, t, u, m == 1, repLen r p, 0⟩
  | .vmfgeVx r p _ m t u d => some ⟨.fge, true, d, t, u, m == 1, repLen r p, 0⟩
  | .vwcvtV r p _ m t d => some ⟨.wcvt, false, d, t, 0, m == 1, repLen r p, 0⟩
  | .vncvtV r p _ m t d => some ⟨.ncvt, false, d, t, 0, m == 1, repLen r p, 0⟩
  | .vnclipV r p _ m t d => some ⟨.nclip, false, d, t, 0, m == 1, repLen r p, 0⟩
  | .vfwcvtV r p _ m t d => some ⟨.fwcvt, false, d, t, 0, m == 1, repLen r p, 0⟩
  | .vfncvtV r p _ m t d => some ⟨.fncvt, false, d, t, 0, m == 1, repLen r p, 0⟩
  | .vftoiV r p _ m t d => some ⟨.ftoi, false, d, t, 0, m == 1, repLen r p, 0⟩
  | .vftoinV r p _ m t d => some ⟨.ftoin, false, d, t, 0, m == 1, repLen r p, 0⟩
  | .vitofV r p _ m t d => some ⟨.itof, false, d, t, 0, m == 1, repLen r p, 0⟩
  | .vintofV r p _ m t d => some ⟨.intof, false, d, t, 0, m == 1, repLen r p, 0⟩
  | .vfcvtF4 r p _ m t d => some ⟨.cvtF4, false, d, t, 0, m == 1, repLen r p, 0⟩
  | _ => none

/-- The vector memory instructions (R319). -/
def vmemForm (i : Instr) : Option VForm :=
  match i with
  | .vld _ m u d => some ⟨.ld, false, d, 0, u, m == 1, 0, 0⟩
  | .vst _ m u d => some ⟨.st, false, d, 0, u, m == 1, 0, 0⟩
  | .vlds _ m t u d => some ⟨.lds, false, d, t, u, m == 1, 0, 0⟩
  | .vsts _ m t u d => some ⟨.sts, false, d, t, u, m == 1, 0, 0⟩
  | .vldx w _ m t u d => some ⟨.ldx, false, d, t, u, m == 1, 0, indexBits w⟩
  | .vstx w _ m t u d => some ⟨.stx, false, d, t, u, m == 1, 0, indexBits w⟩
  | _ => none

/-- The cross-lane instructions (R305 to R317). -/
def crossForm (i : Instr) : Option VForm :=
  match i with
  | .vredsumXs _ m t u d => some ⟨.redsum, true, d, t, u, m == 1, 0, 0⟩
  | .vredminXs _ m t u d => some ⟨.redmin, true, d, t, u, m == 1, 0, 0⟩
  | .vredmaxXs _ m t u d => some ⟨.redmax, true, d, t, u, m == 1, 0, 0⟩
  | .vredandXs _ m t u d => some ⟨.redand, true, d, t, u, m == 1, 0, 0⟩
  | .vredorXs _ m t u d => some ⟨.redor, true, d, t, u, m == 1, 0, 0⟩
  | .vredxorXs _ m t u d => some ⟨.redxor, true, d, t, u, m == 1, 0, 0⟩
  | .vfredsumXs _ m t u d => some ⟨.fredsum, true, d, t, u, m == 1, 0, 0⟩
  | .vfredminXs _ m t u d => some ⟨.fredmin, true, d, t, u, m == 1, 0, 0⟩
  | .vfredmaxXs _ m t u d => some ⟨.fredmax, true, d, t, u, m == 1, 0, 0⟩
  | .vredminiXs _ m t u d => some ⟨.redmini, true, d, t, u, m == 1, 0, 0⟩
  | .vredmaxiXs _ m t u d => some ⟨.redmaxi, true, d, t, u, m == 1, 0, 0⟩
  | .vtree _ m t h n => some ⟨.tree, false, n, t, h.zeroExtend 5, m == 1, 0, 0⟩
  | .vftree _ m t h n => some ⟨.ftree, false, n, t, h.zeroExtend 5, m == 1, 0, 0⟩
  | .vtreeseg c _ m t h n => some ⟨.treeseg, false, n, t, h.zeroExtend 5, m == 1, 0, 2 ^ (c.toNat + 1)⟩
  | .vftreeseg c _ m t h n => some ⟨.ftreeseg, false, n, t, h.zeroExtend 5, m == 1, 0, 2 ^ (c.toNat + 1)⟩
  | .vsegsumV c _ m t d => some ⟨.segsum, false, d, t, 0, m == 1, 0, 2 ^ (c.toNat + 1)⟩
  | .vsegminV c _ m t d => some ⟨.segmin, false, d, t, 0, m == 1, 0, 2 ^ (c.toNat + 1)⟩
  | .vsegmaxV c _ m t d => some ⟨.segmax, false, d, t, 0, m == 1, 0, 2 ^ (c.toNat + 1)⟩
  | .vfsegsumV c _ m t d => some ⟨.fsegsum, false, d, t, 0, m == 1, 0, 2 ^ (c.toNat + 1)⟩
  | .vfsegminV c _ m t d => some ⟨.fsegmin, false, d, t, 0, m == 1, 0, 2 ^ (c.toNat + 1)⟩
  | .vfsegmaxV c _ m t d => some ⟨.fsegmax, false, d, t, 0, m == 1, 0, 2 ^ (c.toNat + 1)⟩
  | .vslideupVx _ m t u d => some ⟨.slideup, true, d, t, u, m == 1, 0, 0⟩
  | .vslidedownVx _ m t u d => some ⟨.slidedown, true, d, t, u, m == 1, 0, 0⟩
  | .vslide1upVx _ m t u d => some ⟨.slide1up, true, d, t, u, m == 1, 0, 0⟩
  | .vslide1downVx _ m t u d => some ⟨.slide1down, true, d, t, u, m == 1, 0, 0⟩
  | .vgatherVv w _ m t u d => some ⟨.gather, false, d, t, u, m == 1, 0, indexBits w⟩
  | .vcompressVv _ t u d => some ⟨.compress, false, d, t, u, false, 0, 0⟩
  | .vexpandVv _ t u d => some ⟨.expand, false, d, t, u, false, 0, 0⟩
  | .vbcastVx _ m t u d => some ⟨.bcast, true, d, t, u, m == 1, 0, 0⟩
  | .vmrotVx _ m t u d => some ⟨.mrot, true, d, t, u, m == 1, 0, 0⟩
  | _ => none

/-- `vldsp` and `vstsp` (R325). -/
def spForm (i : Instr) : Option VForm :=
  match i with
  | .vldsp tr _ m k u d => some ⟨.ldsp, false, d, k, u, m == 1, 0, tr.toNat⟩
  | .vstsp tr _ m k u d => some ⟨.stsp, false, d, k, u, m == 1, 0, tr.toNat⟩
  | _ => none

/-- A vector instruction of majors 0x20 to 0x2A, or `vmv.xs`: every one of 0x20 to 0x2B but `vsetl` and `vsetli`. -/
def vecForm (i : Instr) : Option VForm :=
  match i with
  | .vmvXs r d => some ⟨.mvxs, true, d, r, 0, false, 0, 0⟩
  | i => (((elemForm i).or (vmemForm i)).or (crossForm i)).or (spForm i)

/-- The command with what it captures at issue (R281). -/
def VForm.cmd (f : VForm) (s : State) : VCmd := (mkCmd f.op f.sc f.vd f.vs2 f.vs1 f.m f.rep f.k 0).capture s

/-- The vector hart issues the command with none outstanding, outside matrix mode where the tree transfer asks it, and with no change of the ways
under way. -/
def VForm.issues (f : VForm) (s : State) : Bool :=
  let tree := match f.op with | .tree | .ftree | .treeseg | .ftreeseg => true | _ => false
  isVecHart s && (myCore s).quiet && !cmdHeld s && !(tree && (myCore s).vec.mstat.getLsbD 63)

/-- VCFG does not refuse the command, VL lies within VLMAX, and there are at most 16 array ways. -/
def VForm.legal (f : VForm) (s : State) : Bool :=
  let q := myCore s
  !(f.cmd s).badCfg q.glanes && decide (q.narr ≤ 16) && decide (q.vec.vl.toNat ≤ vlmaxOf q.glanes q.vec.vtype)

/-- The command issues on powered ways and VCFG does not refuse it. -/
def VForm.runs (f : VForm) (s : State) : Bool :=
  f.issues s && f.legal s && (colAt s (colOf s.curCore)).layerctl.getLsbD 0

/-- What VCFG refuses in a command (R288 rules 1 to 4 and 6, R305 rules 1 and 2): an illegal VTYPE, an operand group that is not aligned or
reaches past v31, a destination that overlaps a source of another width, or any of a cross-lane command's, or v0 under a mask, a mask shorter than
VL, and a cross-lane command that would begin past element 0. -/
def VForm.refused (f : VForm) (s : State) : Prop :=
  let c := f.cmd s
  let op := f.op
  let source (k : VKind) (r : BitVec 5) : Prop := op.src2 f.sc = some k ∧ r = f.vs2 ∨ op.src1 f.sc = some k ∧ r = f.vs1
  let size (k : VKind) : Nat := k.regs c.sew c.grp
  let meet (k : VKind) (r : BitVec 5) (k' : VKind) (r' : BitVec 5) : Prop := r.toNat < r'.toNat + size k' ∧ r'.toNat < r.toNat + size k
  let masked : Prop := f.m = true ∨ op = .merge
  (myCore s).vec.vtype.getLsbD 63 = true ∨ vlmaxOf (myCore s).glanes (myCore s).vec.vtype = 0 ∨
  (∃ k r, (op.dst = some k ∧ r = f.vd ∨ source k r) ∧ (r.toNat % size k ≠ 0 ∨ 32 < r.toNat + size k)) ∨
  (∃ k k' r, op.dst = some k ∧ source k' r ∧ meet k f.vd k' r ∧ (k.width c.sew ≠ k'.width c.sew ∨ op.isCross = true)) ∨
  (masked ∧ op.dst.isSome = true ∧ f.vd = 0) ∨
  ((masked ∨ op.isMask = true ∨ op.isCmp = true) ∧ 32 * (myCore s).glanes < (myCore s).vec.vl.toNat) ∨
  (op.isCross = true ∧ c.vstart ≠ 0)

/-- i takes s to t: at once where its command runs whole (R426), otherwise by the turns of the convoy that it opens (R178, R183). -/
def VForm.comesTo (f : VForm) (i : Instr) (s t : State) : Prop :=
  ∃ u, exec i s = .next u ∧ t = if queues s then convoyRun ((f.cmd s).vl + 1) u else u

/-- Element e of the group at register r, read by the issuing hart's core. -/
def vElem (s : State) (w : Nat) (r : BitVec 5) (e : Nat) : BitVec 64 := elemGet s s.curCore w r.toNat e

/-- Elements the destination group has room for (R137, R288). -/
def VForm.room (s : State) (k : VKind) : Nat :=
  if k = .m then 32 * (myCore s).glanes else vlmaxOf (myCore s).glanes (myCore s).vec.vtype

/-- Register r is outside the destination group. -/
def VForm.outside (f : VForm) (s : State) (r : Nat) : Prop :=
  ∀ k, f.op.dst = some k → r < f.vd.toNat ∨ f.vd.toNat + k.regs (f.cmd s).sew (f.cmd s).grp ≤ r

/-- A vector context without what a command may change: rows, dirty bits, marks, progress, flags, VSTART, VL, MSTAT, `acc`, random
states, and whether the convoy has ended. -/
def Vec.kept (v : Vec) : Vec :=
  { v with vl := 0, vstart := 0, vflags := 0, vdirty := 0, mstat := 0, vpi := Vector.replicate 32 0, vhw := Vector.replicate 32 0
           v := [], acc := [], vrs := [], ended := false }

/-- A hart without what a vector command may change beside: the replay record's count and DCONV (R401, R421). -/
def Hart.vecKept (h : Hart) : Hart := { h.kept with xconv := 0, replayed := 0, dconv := 0, shadow := none }

/-- A core as a vector command may leave it, its vector context as above, and L0 lines that a copy overwrote dropped with the chunk marks
the command saw (R99). -/
def Core.vecKept (q : Core) : Core := { q.kept with vec := q.vec.kept, l0d := [], chunkLines := [] }

/-- Nothing outside the vector context has changed but the hart's PC, and within it no register outside the destination group. -/
structure VecRest (s t : State) (outside : Nat → Prop) : Prop where
  cores : ∀ c, (coreAt t c).vecKept = (coreAt s c).vecKept
  counts : ∀ c, c ≠ s.curCore.val → (coreAt t c).instret = (coreAt s c).instret
  others : ∀ c k, c ≠ s.curCore.val ∨ k ≠ s.curSlot → hartAt t c k = hartAt s c k
  hart : (me t).vecKept = (me s).vecKept
  regs : ∀ l r, outside r → laneWord t s.curCore l r = laneWord s s.curCore l r
  memory : ∀ a, byteAt t a = byteAt s a
  machine : t.kept = s.kept

/-- The same for an instruction that reads or writes memory: range-cache order, the write queue, and the turns of the banks may have changed
as well, and what memory and the queue hold is said apart. -/
structure VecAccess (s t : State) (outside : Nat → Prop) : Prop where
  cores : ∀ c, { (coreAt t c).accessed with vec := (coreAt t c).vec.kept, chunkLines := [] } =
    { (coreAt s c).accessed with vec := (coreAt s c).vec.kept, chunkLines := [] }
  counts : ∀ c, c ≠ s.curCore.val → (coreAt t c).instret = (coreAt s c).instret
  others : ∀ c k, c ≠ s.curCore.val ∨ k ≠ s.curSlot → hartAt t c k = hartAt s c k
  hart : (me t).vecKept = (me s).vecKept
  regs : ∀ l r, outside r → laneWord t s.curCore l r = laneWord s s.curCore l r
  machine : { t.kept with mem := [] } = { s.kept with mem := [] }

/-- VL, MSTAT, `acc` and the random states are as before, on every core. -/
def VecStill (s t : State) : Prop :=
  ∀ c, (coreAt t c).vec.vl = (coreAt s c).vec.vl ∧ (coreAt t c).vec.mstat = (coreAt s c).vec.mstat ∧
    (coreAt t c).vec.acc = (coreAt s c).vec.acc ∧ (coreAt t c).vec.vrs = (coreAt s c).vec.vrs

/-- A vector instruction has completed alone: the hart goes on at the next instruction and VSTART is 0. -/
def VecGoesOn (s t : State) : Prop := GoesOn s t ((me s).pc + 4) ∧ (myCore t).vec.vstart = 0

/-- The elements of the destination group: element e is what new says, and as before where it says nothing. -/
def VForm.writes (f : VForm) (s t : State) (new : Nat → Option (BitVec 64)) : Prop :=
  ∀ k e, f.op.dst = some k → e < VForm.room s k →
    elemGet t s.curCore (k.width (f.cmd s).sew) f.vd.toNat e =
      match new e with
      | some x => cutBits (k.width (f.cmd s).sew) x
      | none => elemGet s s.curCore (k.width (f.cmd s).sew) f.vd.toNat e

/-- The draw of element e's lane when its operation rounds under RSR (R167), else 0. -/
def VForm.draw (f : VForm) (s : State) (e : Nat) : Nat :=
  if f.op.rounds && (f.cmd s).rm == 5 then vrsDraw (vrsStep (vrsGet s s.curCore e)) else 0

/-- What element e of an element instruction becomes, with its flags (R285, R291 to R302). -/
def VForm.value (f : VForm) (s : State) (e : Nat) : BitVec 64 × Flags :=
  let c := f.cmd s
  let read (k : Option VKind) (r : BitVec 5) (e : Nat) : BitVec 64 := match k with | some k => vElem s (k.width c.sew) r e | none => 0
  elemOp f.op c.vtype f.sc e (f.op == .merge && maskBit s s.curCore 0 e) (f.draw s e)
    (read (f.op.src2 f.sc) f.vs2 (if f.rep = 0 then e else e % f.rep))
    (if f.sc then cutBits c.sew (gr s f.vs1) else read (f.op.src1 f.sc) f.vs1 e)

/-- What element e of a member of a convoy becomes, with its flags: the same, with what the command holds of its scalar and its replicated segment. -/
def VCmd.value (m : VCmd) (s : State) (c e : Nat) : BitVec 64 × Flags :=
  let read (k : Option VKind) (r : BitVec 5) : BitVec 64 := match k with | some k => elemGet s c (k.width m.sew) r.toNat e | none => 0
  let draw := if m.op.rounds && m.rm == 5 then vrsDraw (vrsStep (vrsGet s c (e % (coreAt s c).glanes))) else 0
  elemOp m.op m.vtype m.sc e (m.op == .merge && maskBit s c 0 e) draw
    (if m.rep = 0 then read (m.op.src2 m.sc) m.vs2 else m.seg.getD (e % m.rep) 0)
    (if m.sc then cutBits m.sew m.x else read (m.op.src1 m.sc) m.vs1)

/-- The state of random lane l once the elements act of a member have been performed: seeded, or advanced where one of its elements draws (R166, R167). -/
def VCmd.lanes (m : VCmd) (s : State) (c : Nat) (act : List Nat) (l : Nat) : BitVec 64 :=
  let live (x : BitVec 64) : BitVec 64 := if x = 0 then vrsSeed else x
  if m.op = .seed ∧ l ∈ act then live (m.x ^^^ (BitVec.ofNat 64 l * vrsSeed))
  else if (m.op = .rng ∨ (m.op.rounds && m.rm == 5) = true) ∧ ∃ e ∈ act, e % (coreAt s c).glanes = l then live (vrsStep (vrsGet s c l))
  else vrsGet s c l

/-- What element e of a permutation becomes, if it is written (R313 to R317). -/
def VForm.permuted (f : VForm) (s : State) (e : Nat) : Option (BitVec 64) :=
  let c := f.cmd s
  let q := myCore s
  let k := (gr s f.vs1).toNat
  let x : BitVec 64 := cutBits c.sew (gr s f.vs1)
  let elem (i : Nat) : BitVec 64 := vElem s c.sew f.vs2 i
  let lim := vlmaxOf q.glanes c.vtype
  let sel (i : Nat) : Bool := maskBit s s.curCore f.vs1.toNat i
  let bits := (List.range c.vl).filter sel
  match f.op with
  | .compress => bits[e]?.map elem
  | .expand => if e < c.vl ∧ sel e then some (elem ((List.range e).countP sel)) else none
  | o =>
    if !c.active s s.curCore e then none
    else
      match o with
      | .slideup => if k ≤ e then some (elem (e - k)) else none
      | .slidedown => some (if e + k < lim then elem (e + k) else 0)
      | .slide1up => some (if e = 0 then x else elem (e - 1))
      | .slide1down => some (if e + 1 < c.vl then elem (e + 1) else x)
      | .gather => let i := (vElem s c.index.1 f.vs1 e).toNat; some (if i < lim then elem i else 0)
      | .bcast => some (if k < lim then elem k else 0)
      | _ =>
        let l := e % q.glanes
        some (elem (e - l + ((l / q.lanes + k) % q.gang * q.lanes + l % q.lanes)))

/-- The active elements of vs2 (R308). -/
def VForm.taken (f : VForm) (s : State) : List (Nat × BitVec 64) :=
  ((List.range (f.cmd s).vl).filter fun e => (f.cmd s).active s s.curCore e).map fun e => (e, vElem s (f.cmd s).sew f.vs2 e)

/-- Where element e of a vector memory instruction stands, when its access passes every check of R320 under an entry of the range cache and its
target is ready: its GPA, and whether its home collects the tokens (R322).  The target is a powered bank of the issuing core, or a DRAM line without
an error in a column that answers, which no persistent request holds; a read that collects nothing finds no dirty copy. -/
def VForm.placeAt (f : VForm) (s : State) (e : Nat) : Option (Nat × Bool) :=
  let c := f.cmd s
  let va := c.addr s e
  let n := max 1 (c.sew / 8)
  if (c.sew < 8 && (gr s f.vs1).toNat % 8 != 0) || va.toNat % n != 0 then none
  else
    match rcLookup (myCore s).rcache (myCore s).job va.toNat with
    | none => none
    | some (d, _) =>
      match checkDesc s d (if f.op.isStore then needWr else needRd) (isSys s) va.toNat with
      | .ok g cls _ =>
        let free : Bool := !degradedAt s g && (watchHit s s.curCore f.op.isStore va.toNat).isNone
        (match targetOf s g with
         | .bank b w _ =>
           if free ∧ b = s.curCore.val ∧ redirect s (myCore s).job g = g ∧ (bankCheck s b w).isNone ∧ !lineBad s g then some (g, false) else none
         | .dram col _ =>
           let coh := decide (col = colOf s.curCore) && cls == 0
           if free ∧ lineClean s g ∧ !homeBarred s coh g ∧
               (f.op.isStore ∨ coh ∨ s.cores.all fun x => (x.2.cwFind (g / 64)).all fun l => !(l.owner && l.dirty)) then some (g, coh) else none
         | _ => none)
      | _ => none

/-- The first check of R320 that element e of a vector memory instruction fails, translated under an entry of the range cache: the cause and XVAL. -/
def VForm.failsAt (f : VForm) (s : State) (e : Nat) : Option (Cause × BitVec 64) :=
  let c := f.cmd s
  let va := c.addr s e
  if c.sew < 8 ∧ (gr s f.vs1).toNat % 8 ≠ 0 then some (.misalign, gr s f.vs1)
  else if va.toNat % max 1 (c.sew / 8) ≠ 0 then some (.misalign, va)
  else
    match rcLookup (myCore s).rcache (myCore s).job va.toNat with
    | none => none
    | some (d, _) =>
      match checkDesc s d (if f.op.isStore then needWr else needRd) (isSys s) va.toNat with
      | .fault z => some (z, va)
      | .ok g _ _ =>
        (match regionOf s g with
         | .barrier _ _ | .service _ _ | .unmapped => some (.busFault, va)
         | .priv _ _ => some (if isSys s then .busFault else .priv, va)
         | _ => none)
      | _ => none

/-- Element e of an indexed load goes into a small gather where requests travel (R54). -/
def VForm.gathers (f : VForm) (s : State) (e : Nat) : Bool :=
  f.op == .ldx && s.split && decide (32 ≤ (f.cmd s).sew) && (match f.placeAt s e with | some (g, _) => (sliceHome s g).isSome | none => false)

/-- A vector memory instruction that has its range-cache entry, with no write of the core outstanding, no beat of the hart lost, and no sampling. -/
def VForm.ready (f : VForm) (s : State) : Bool :=
  f.runs s && decide ((me s).beats < 9) && (myCore s).rcache.length == 1 && (myCore s).wq.isEmpty && s.net.isEmpty && !(myCore s).smpctl.getLsbD 63

/-- The active elements that p names each stand at a place and wait for no gather. -/
def VForm.placed (f : VForm) (s : State) (p : Nat → Bool) : Bool :=
  (((List.range (f.cmd s).vl).filter fun e => (f.cmd s).active s s.curCore e).filter p).all fun e =>
    (f.placeAt s e).isSome && !f.gathers s e

/-- What a vector memory instruction has done with the active elements that p names (R320, R322): a load has given each the bytes, or the bits below
SEW 8, at its place, with those of a dirty copy in a cache way once the home has collected it; a store has put each there in the write queue, later elements over earlier
ones: a line with the queue laid over it holds the elements, and is as before in its other bits. -/
def VForm.memDone (f : VForm) (s t : State) (p : Nat → Bool) : Prop :=
  let c := f.cmd s
  let w := c.sew
  let n := max 1 (w / 8)
  let act := (c.actives s s.curCore c.vstart c.vl).filter p
  let at' (e : Nat) : Nat × Bool := (f.placeAt s e).getD (0, false)
  let place (e : Nat) : Nat := (at' e).1
  let home (e : Nat) : State :=
    match targetOf s (place e) with
    | .dram col _ => if (at' e).2 then collectAll col (place e / 64) s else s
    | _ => s
  let bit (e : Nat) : Nat := if w < 8 then e * w % 8 else 0
  let first (e : Nat) : Nat := 8 * (place e % 64) + bit e
  (f.op.isStore = false → (myCore t).wq = [] ∧
    f.writes s t (fun e => if e ∈ act then some (BitVec.ofNat 64 (memRead (home e).mem (place e) n / 2 ^ bit e % 2 ^ w)) else none)) ∧
  (f.op.isStore = true → ∀ ln,
    let new := mergeQueue (myCore t).wq ln (homeLine s ln)
    (∀ b, (∀ e ∈ act, place e / 64 = ln → b < first e ∨ first e + w ≤ b) → new.getLsbD b = (homeLine s ln).getLsbD b) ∧
    (∀ e ∈ act, place e / 64 = ln →
      f.op = .st ∨ (∀ e' ∈ act, e < e' → place e' + n ≤ place e ∨ place e + n ≤ place e') →
      new.toNat / 2 ^ first e % 2 ^ w = (vElem s w f.vd e).toNat))

/-- The vector hart has trapped at element e of its command (R139, R148, R397, R400): cause c, value x, VSTART := e and VEC set; the hart stands at
its vector with its g registers as before, no command is left, and XCONV names the group of e and no other member. -/
structure VecStopped (s t : State) (e : Nat) (c : Cause) (x : BitVec 64) : Prop where
  cause : (me t).xcause = (causeCode c).zeroExtend 64
  value : (me t).xval = x
  saved : (me t).xpc = (me s).pc.zeroExtend 64 &&& ~~~1
  status : (me t).xstat = 1 ||| (if (me s).xstat.getLsbD 0 then 2 else 0) ||| 4
  pc : (me t).pc = (me s).xbase.setWidth 48 &&& ~~~1
  start : (myCore t).vec.vstart = BitVec.ofNat 64 e
  convoy : (myCore t).vec.convoy = []
  replay : (me t).xconv = (let g := e / max 1 (myCore s).glanes * max 1 (myCore s).glanes; xconvWord 0 0 g g)
  regs : ∀ r, gr t r = gr s r
  count : (myCore t).instret = (myCore s).instret

/-- What else a command that stopped has left as it was, memory being as in w. -/
structure VecStopRest (w t : State) (outside : Nat → Prop) : Prop where
  cores : ∀ c, { (coreAt t c).accessed with vec := (coreAt t c).vec.kept, chunkLines := [] } =
    { (coreAt w c).accessed with vec := (coreAt w c).vec.kept, chunkLines := [] }
  others : ∀ c k, c ≠ w.curCore.val ∨ k ≠ w.curSlot → hartAt t c k = hartAt w c k
  hart : (me t).vecKept.untrapped = (me w).vecKept.untrapped
  regs : ∀ l r, outside r → laneWord t w.curCore l r = laneWord w w.curCore l r
  still : VecStill w t
  memory : ∀ a, byteAt t a = byteAt w a
  machine : { t.kept with mem := [] } = { w.kept with mem := [] }

/-! ## The dense tile unit and the block port -/

/-- The vector hart issues with none of its commands outstanding, and nothing holds the next. -/
def tileReady (s : State) : Bool := isVecHart s && (myCore s).quiet && !cmdHeld s

/-- Vector registers, their progress and marks, and the vector machine's other registers but MSTAT and `acc` are as before; the hart has
gone on with its g registers unchanged. -/
structure TileRest (s t : State) : Prop where
  on : GoesOn s t ((me s).pc + 4)
  rest : VecRest s t (fun _ => True)
  vec : { (myCore t).vec with acc := [], mstat := 0 } = { (myCore s).vec with acc := [], mstat := 0 }

/-- A `mopa` or `mopa.sc` takes s to t: at once where its command runs whole (R426), otherwise, its operands being in its own banks, when
its operand buffer is full and then its accumulation ends (R342). -/
def outerComes (i : Instr) (s t : State) : Prop :=
  if queues s then
    ∃ u v, exec i s = .next u ∧ exec (.operandBufferFull s.curCore.val) u = .next v ∧ exec (.accumulationEnd s.curCore.val) v = .next t
  else exec i s = .next t

/-- The transfer runs at once and neither VCFG nor FMT refuses it: matrix mode, a legal VTYPE whose width is the format's, cells inside
the tile, powered ways. -/
def tileRuns (c : VCmd) (s : State) : Bool :=
  tileReady s && (myCore s).mm && !c.badCfg (myCore s).glanes && !tileBad c (myCore s).mvl && !tileNoFmt c.k &&
    (colAt s (colOf s.curCore)).layerctl.getLsbD 0 && decide ((myCore s).narr ≤ 16)

/-- The command of `mrd` or `mwr` with what it captures. -/
def tileCommand (o : VOp) (f b a d : BitVec 5) (s : State) : VCmd := (mkCmd o false d b a false 0 f.toNat 0).capture s

/-- The bytes an image of the block port stands in (R343). -/
def imageAt (s : State) (x : BitVec 64) : Nat := bankGpa s s.curCore (ptrBank x) (ptrOff x)

/-- A block-port instruction may run: the vector hart with none of its commands and vector stores outstanding, or the handler slot, the port
serving no other, and no change of the ways under way; its pointers name powered banks with room for an image, and no earlier write of the core
to these is still on its way (R127, R197, R344, R348). -/
def portReady (s : State) (ps : List (BitVec 64)) : Bool :=
  (if isVecHart s then (myCore s).fenced else s.curSlot == 7) && !(myCore s).portBusy && !cmdHeld s && (ptrCheck s ps).isNone &&
    !(ps.any fun x => bankPending s (blockPlace s x 0) 320)

/-- The port performs the instruction in one turn: accesses do not travel. -/
def portWhole (s : State) : Bool := !s.split

/-- Nothing has changed but memory and what a retirement changes. -/
structure PortRest (s t : State) : Prop where
  regs : ∀ g, gr t g = gr s g
  hart : (me t).vecKept = (me s).vecKept
  core : (myCore t).kept = (myCore s).kept
  others : OthersKept s t
  machine : { t.kept with mem := [] } = { s.kept with mem := [] }

/-- i writes image r at x and has no other effect. -/
def WritesImage (i : Instr) (s : State) (x : BitVec 64) (r : BlockImage) : Prop :=
  ∃ t, exec i s = .next t ∧ GoesOn s t ((me s).pc + 4) ∧ readImage t x = r ∧
    (∀ a, a < imageAt s x ∨ imageAt s x + 320 ≤ a → byteAt t a = byteAt s a) ∧ PortRest s t

/-- A block-port instruction ends in a trap and no image is written; the replay of R401, if one runs, ends. -/
def PortTraps (o : Out) (s : State) (c : Cause) (x : BitVec 64) : Prop :=
  freezing s s.curCore c = false →
    ∃ t, o = .next t ∧ (me t).xcause = (causeCode c).zeroExtend 64 ∧ (me t).xval = x ∧
      (me t).xpc = (me s).pc.zeroExtend 64 &&& ~~~1 ∧ (∀ r, gr t r = gr s r) ∧ (myCore t).instret = (myCore s).instret ∧ RestKept s t

/-- i of the block port takes a trap and writes no image. -/
def BlockTraps (i : Instr) (s : State) (c : Cause) (x : BitVec 64) : Prop := PortTraps (exec i s) s c x

/-- The issuing hart stands at a block-port instruction with these blocks read and these to write, and nothing else has changed. -/
def PortAt (s : State) (op : Fin 3) (a b d : BitVec 64) (reads writes : List (BitVec 512)) (t : State) : Prop :=
  t = updMe s fun h => { h with wait := .port op a b d reads writes }

/-- The turns of a hart that stands at a block-port instruction (R348).  A turn waits for the bank and for earlier writes of the core to the block,
and so does a write for the vector hart's earlier commands (R120, R197, R399).  While a block of A or B is unread the turn reads the next, once,
and keeps it.  The turn after the last one computes D from the blocks read: it traps, nothing written, once those commands have completed, or
goes on to D's five blocks.  Each of the next turns writes one block whole and nothing else, at its place in D; with the last the instruction
completes. -/
def PortTurns (s : State) : Prop :=
  ∀ (op : Fin 3) (a b d : BitVec 64) (reads writes : List (BitVec 512)), (me s).wait = .port op a b d reads writes →
    let n := reads.length
    let image (l : List (BitVec 512)) : BlockImage := imageOf (packWords 512 (l.map (·.toNat)))
    let result := portResult op b.toNat ((me s).geps.toNat % 2 ^ 32) (image (reads.take 5)) (image (reads.drop 5))
    let taken (x : BitVec 64) : State := takeBank s.curCore s.curCore (ptrBank x) s
    (writes = [] → ∀ x, (portReads op a b)[n / 5]? = some x → let p := blockPlace s x (n % 5)
      (portWaits s (ptrBank x) p = true → portTurn s = .next s) ∧
      (portWaits s (ptrBank x) p = false →
        ∃ t w, portTurn s = .next t ∧ PortAt (taken x) op a b d (reads ++ [w]) [] t ∧ w.toNat = memRead s.mem p 64)) ∧
    (writes = [] → 5 * (portReads op a b).length ≤ n → ∀ r, result = .inr r →
      ∃ t l, portTurn s = .next t ∧ PortAt s op a b d reads l t ∧ l.length = 5 ∧ imageOf (packWords 512 (l.map (·.toNat))) = r) ∧
    (writes = [] → 5 * (portReads op a b).length ≤ n → ∀ z x, result = .inl (z, x) →
      (portAlone s = false → portTurn s = .next s) ∧
      (portAlone s = true → (isVecHart s = true → (myCore (updMe s fun h => { h with wait := .none })).quiet = true) → PortTraps (portTurn s) s z x)) ∧
    (∀ w l, writes = w :: l →
      let p := blockPlace s d (4 - l.length)
      (portWaits s (ptrBank d) p = true ∨ portSettled s = false → portTurn s = .next s) ∧
      (portWaits s (ptrBank d) p = false → portSettled s = true →
        ∃ t, portTurn s = .next t ∧ memRead t.mem p 64 = w.toNat ∧ (∀ e, e < p ∨ p + 64 ≤ e → byteAt t e = byteAt s e) ∧ PortRest (taken d) t ∧
          (l ≠ [] → PortAt { taken d with mem := t.mem } op a b d reads l t) ∧ (l = [] → GoesOn s t ((me s).pc + 4) ∧ (me t).wait = .none)))

/-! ## Requests, waits, launches -/

/-- Nothing but the issuing core, the packets under way, the columns and the model's own counters has changed, and every byte of memory is
as before. -/
structure NearRest (s t : State) : Prop where
  others : OthersKept s t
  memory : ∀ a, byteAt t a = byteAt s a
  machine : { t.kept with cols := s.cols, net := s.net, nextId := s.nextId, freeIdx := s.freeIdx } = s.kept

/-- The issuing hart parks at its instruction for w, its registers as before. -/
structure ParksFor (s t : State) (w : Wait) : Prop where
  parked : (me t).st = .parked
  wait : (me t).wait = w
  pc : (me t).pc = (me s).pc
  regs : ∀ r, gr t r = gr s r
  kept : { (me t).kept with since := 0 } = { (me s).kept with since := 0 }
  count : (myCore t).instret = (myCore s).instret

/-- The issuing core is as before but for its harts, INSTRET, range-cache order, L0 lines and the write queue. -/
def CoreStill (s t : State) : Prop := (myCore t).accessed = (myCore s).accessed

/-- A hart without what a release and the packet it sends may change (R59, R198, R200). -/
def Hart.sent (h : Hart) : Hart :=
  { h.kept with tsmask := 0, txmask := 0, fab := [], fabMany := false, probed := false, probes := 0, unsent := none, recent := [], bankOut := 0, since := 0 }

/-- A release of the issuing hart at scope k completes at once (R200, R201): its writes are covered and no error is held. -/
def covered (s : State) (k : BitVec 3) : Bool :=
  k == 0 || (nothingOut s s.curCore s.curSlot && (unroutable s (me s)).isNone && (me s).unsent.isNone && (me s).errAck.isNone)

/-- A packet of the issuing hart. -/
def fromMe (s : State) (p : Pkt) : Bool :=
  p.id == s.nextId && p.core == s.curCore.val && p.slot == s.curSlot && p.job == (myCore s).job

/-- The fields of a copy instruction (R350): kind, .W, .Z, .M, token, rb, ra, rd. -/
def copyCall (i : Instr) : Option (Nat × BitVec 1 × BitVec 1 × BitVec 1 × BitVec 3 × BitVec 5 × BitVec 5 × BitVec 5) :=
  match i with
  | .copy w z m k b a d => some (0, w, z, m, k, b, a, d)
  | .copy2d w z m k b a d => some (1, w, z, m, k, b, a, d)
  | .copygath w z m k b a d => some (2, w, z, m, k, b, a, d)
  | .copyscat w z m k b a d => some (3, w, z, m, k, b, a, d)
  | .copyt w z m k b a d => some (4, w, z, m, k, b, a, d)
  | _ => none

/-- The fields of a collective instruction (R355). -/
def collCall (i : Instr) : Option (Nat × BitVec 1 × BitVec 1 × BitVec 3 × BitVec 5 × BitVec 5 × BitVec 5) :=
  match i with
  | .creduce w z k b a d => some (5, w, z, k, b, a, d)
  | .cbcast w z k b a d => some (6, w, z, k, b, a, d)
  | _ => none

/-- The tokens a copy or collective names (R95): its own, and with .W those of ox5[7:0]. -/
def namesToken (s : State) (w : BitVec 1) (k : BitVec 3) (n : Fin 8) : Bool :=
  n == k.toFin || (w == 1 && (oxr s 5).getLsbD n.val)

/-- What a copy or collective leaves behind as it is queued in the list l, its request last (R86, R94, R107). -/
structure Queued (s t : State) (k : BitVec 3) (old new : List CReq) (u : CReq) : Prop where
  on : GoesOn s t ((me s).pc + 4)
  regs : ∀ r, gr t r = gr s r
  hart : (me t).kept = (me s).kept
  queue : new = old ++ [u]
  waits : u.begun = false ∧ u.done = false ∧ u.core = s.curCore.val ∧ u.job = (myCore s).job ∧ u.dir = (myCore s).rdbase ∧
    u.user = !isSys s ∧ u.tok = k.toFin ∧ u.pc = (me s).pc
  start : u.next = if (vget (myCore s).cstart k.toNat).toNat % 2 ^ 48 ≠ 0 ∧ vget (myCore s).cpc k.toNat = (me s).pc.zeroExtend 64 then
    (vget (myCore s).cstart k.toNat).toNat % 2 ^ 48 else 0
  busy : ∀ n : Fin 8, (myCore t).tok.get n = if n = k.toFin then 1 else (myCore s).tok.get n
  cstart : ∀ n : Fin 8, (myCore t).cstart.get n = if n = k.toFin ∧ u.next = 0 then 0 else (myCore s).cstart.get n
  core : { (myCore t).kept with tok := (myCore s).tok, cstart := (myCore s).cstart } = (myCore s).kept

/-- The machine as a collective's read of its group record begins: a record on another device uses an allowance of its port (R459). -/
def groupSent (s : State) (g : Nat) : State :=
  match targetOf s g with
  | .device v => useAllowance (colOf s.curCore) v 3 s
  | _ => s

/-- The read of a group record may go: no persistent request holds its line, no write of the core to it is queued or on its way (R197), and the record's
device is routed and grants an allowance. -/
def groupGoes (s : State) (g : Nat) : Bool :=
  !homeBarred s true g && !inFlight s s.curCore g 64 && !((myCore s).wq.any fun e => meets e.gpa e.n g 64) &&
    (match targetOf s g with | .device v => routeUp s (colOf s.curCore) v && maySend s (colOf s.curCore) v 3 | _ => true)

/-- The barrier object an instruction of R357 names at a virtual address, when every check lets it through (R35, R357, R462). -/
def barrierAt (s : State) (rights : BitVec 5) (va : BitVec 64) : Option Nat :=
  if va.toNat % 64 ≠ 0 then none
  else
    match (translate s s.curCore (isSys s) rights va).1 with
    | .ok g _ _ =>
      if isBarrierGpa s g && !degradedAt s g && (match targetOf s g with | .device d => routeUp s (colOf s.curCore) d | _ => true) then some g else none
    | _ => none

/-- The status a split of range k at va answers with (R37, R273). -/
def splitStatus (s : State) (h k va : Nat) : Nat :=
  let e := dirDesc s h k
  if va % 64 ≠ 0 ∨ va / 64 = e.vbase then 2
  else if e.locked then 3
  else if 65536 ≤ dirCount s h then 4
  else if isSys s || e.perm.getLsbD 3 then 0
  else 5

/-- The status a merge of range k with its successor answers with (R38, R273). -/
def mergeStatus (s : State) (h k : Nat) : Nat :=
  let e := dirDesc s h k
  let f := dirDesc s h (k + 1)
  let fits : Bool := f.tgt == e.tgt + (e.vlast - e.vbase) + 1 && e.cls == f.cls && e.perm == f.perm && decide (f.vlast - e.vbase < 2 ^ 32) &&
    (e.emptyWin || f.emptyWin || (e.whi == e.vlast - e.vbase && f.wlo == 0))
  if dirCount s h ≤ k + 1 ∨ f.vbase ≠ e.vlast + 1 ∨ f.valid = false ∨ f.malformed = true then 6
  else if e.locked || f.locked then 3
  else if !fits then 7
  else if isSys s || (e.perm.getLsbD 3 && f.perm.getLsbD 3) then 0
  else 5

/-- A split of range k meets a data error where it would write (R273). -/
def splitBad (s : State) (h k va : Nat) : Bool := splitStatus s h k va == 0 && descsBad s h (k + 1) (dirCount s h)

/-- A merge of range k meets a data error in its successor or where it would write (R273). -/
def mergeBad (s : State) (h k : Nat) : Bool :=
  (decide (k + 1 < dirCount s h) && lineBad s (h + 64 + 64 * ((k + 1) / 2))) ||
    (mergeStatus s h k == 0 && descsBad s h (k + 2) (dirCount s h))

/-- Descriptor n maps each of its addresses, with the window and the rights, as descriptor o does. -/
def MapsAs (o n : RDesc) : Prop :=
  n.cls = o.cls ∧ n.perm = o.perm ∧ n.locked = o.locked ∧ n.valid = o.valid ∧ n.ver = (o.ver + 1) % 256 ∧
    ∀ va, n.covers va = true → n.gpa va = o.gpa va ∧ n.resident va = o.resident va

/-- The directory at h was edited to count descriptors, the n-th being desc n, and GEN advanced; no other byte of memory changed. -/
structure Edited (s t : State) (h count : Nat) (desc : Nat → RDesc) : Prop where
  number : dirCount t h = count
  unlocked : dirEdit t h = false
  gen : dword t.mem (h + 8) = dword s.mem (h + 8) + 1
  places : ∀ n, n < count → dirDesc t h n = desc n
  memory : ∀ a, a < h ∨ h + 64 + 32 * max count (dirCount s h) ≤ a → byteAt t a = byteAt s a

/-- The span of a walker instruction, range by range (R278). -/
def walkSpanOf (s : State) (va n : Nat) : Except (Cause × Nat) (Option (List Walked)) × State :=
  if n = 0 then (.ok (some []), s) else walkSpan (min (va + n - 1) (2 ^ 64 - 1)) 65540 (va / 64 * 64) s []

/-- A device write at a GPA lands at its DRAM home and moves no other byte: no cache way holds a line, and the column answers (R63, R76). -/
def homed (s : State) (a : Nat) : Bool :=
  (s.cores.all fun e => e.2.cw.isEmpty) &&
    (match targetOf s a with | .dram c _ => !(colAt s c).vbstat.getLsbD 63 | _ => false)

/-- The LIVE field of the issuing hart's record, if it runs one, is homed. -/
def liveHomed (s : State) : Bool := !(me s).hasRec || homed s (poolAt s (myCore s).job (me s).lrec.toNat + 48)

/-- The entry of core x's logical core stands in DRAM in every column's table that has it (R462). -/
def entriesHomed (s : State) (x : Nat) : Bool :=
  let q := coreAt s x
  let l := q.ctxlc.toNat % 2 ^ 20
  (List.finRange 8).all fun col =>
    match jobPlace (colAt s col) q.job with
    | none => true
    | some j => match targetOf s ((vget (colAt s col).lctbase j).toNat + 8 * l) with | .dram _ _ => true | _ => false

/-- The ring place the next record of a stage queue takes (R371, R381). -/
def ringPlace (s : State) (job : BitVec 32) (k st : Nat) : Nat :=
  queueAt s job k st ((recOf s job k).pushed.toList.getD st 0 % max 1 ((recOf s job k).qcap st))

/-- A continuation record c has joined the queue of a stage, in the distributor's order and in its ring in DRAM at g (R381, R382). -/
structure Pushed (s t : State) (job : BitVec 32) (k st : Nat) (c : Vector (BitVec 64) 8) : Prop where
  queue : (recOf t job k).queues.toList.getD st [] = (recOf s job k).queues.toList.getD st [] ++ [c]
  ring : ∀ n : Fin 8, dword t.mem (ringPlace s job k st + 8 * n.val) = c.get n

/-- LIVE of the hart's record has become n, here and in the pool; no byte but the pool's LIVE field has changed (R370, R384). -/
structure LiveIs (s t : State) (job : BitVec 32) (k n : Nat) : Prop where
  live : (recOf t job k).live = n
  memory : ∀ a, a < poolAt s job k + 48 ∨ poolAt s job k + 56 ≤ a → byteAt t a = byteAt s a

/-- The caller's frame is pushed and the child runs in its slot at pc with the words in g10 to g13 (R389). -/
structure Inlined (s t : State) (pc : BitVec 48) (d : BitVec 5) : Prop where
  on : GoesOn s t pc
  frame : (me t).frames = { ret := (me s).pc + 4, d := d } :: (me s).frames
  words : gr t 10 = gr s 14 ∧ gr t 11 = gr s 15 ∧ gr t 12 = gr s 16 ∧ gr t 13 = gr s 17
  regs : ∀ r : BitVec 5, r.toNat < 10 ∨ 14 ≤ r.toNat → gr t r = gr s r

/-- Slot j of core c runs a child at pc: the words in g10 to g13, its registers from the stage's block, the parent's record (R383, R389). -/
structure ChildAt (s t : State) (c : Nat) (j : Fin 8) (pc : BitVec 48) : Prop where
  st : (hartAt t c j).st = if (coreAt s c).night then .frozen else .ready
  pc : (hartAt t c j).pc = pc
  words : (hartAt t c j).gr 10 = gr s 14 ∧ (hartAt t c j).gr 11 = gr s 15 ∧ (hartAt t c j).gr 12 = gr s 16 ∧ (hartAt t c j).gr 13 = gr s 17
  record : (hartAt t c j).hasRec = (me s).hasRec ∧ (hartAt t c j).lrec = (me s).lrec ∧ (hartAt t c j).stage = (me s).stage ∧
    (hartAt t c j).unit = (me s).unit
  block : ∀ r : BitVec 5, r ≠ 0 → r.toNat < 10 ∨ 14 ≤ r.toNat →
    let q := recOf s (myCore s).job (me s).lrec.toNat
    let st := (me s).stage.toNat
    (hartAt t c j).gr r = if (tabGet 0 q.regs (32 * st)).toNat.testBit r.toNat then tabGet 0 q.regs (32 * st + r.toNat) else 0
  user : (hartAt t c j).xstat = (hartAt s c j).xstat &&& ~~~3
  frames : (hartAt t c j).frames = []

/-- No slot of core c waits for a release. -/
def noRelease (s : State) (c : Nat) : Bool :=
  (List.finRange 8).all fun k => match (hartAt s c k).wait with | .release _ => false | _ => true

/-- The machine with the packet of that number replaced by q, or gone. -/
def withPkt (s : State) (id : Nat) (q : Pkt) : State := { s with net := s.net.map fun x => if x.id = id then q else x }
def withoutPkt (s : State) (id : Nat) : State := { s with net := s.net.filter fun x => x.id != id }

/-- No request was combined with that one, and none shares its reply (R60, R212). -/
def noGuests (s : State) (id : Nat) : Bool :=
  s.net.all fun q => match q.loc with | .merged i _ _ => i != id | .shared i _ => i != id | _ => true

/-- Core c and the machine outside the networks are as before; slot k of c may have changed. -/
structure SlotOnly (s t : State) (c : Nat) (k : Fin 8) : Prop where
  slots : ∀ j, j ≠ k → hartAt t c j = hartAt s c j
  core : (coreAt t c).kept = (coreAt s c).kept
  cores : ∀ x, x ≠ c → coreAt t x = coreAt s x
  machine : { t.kept with net := [] } = { s.kept with net := [] }

/-! ## Copy engines -/

/-- n bytes from va on lie, for an engine's request, from the GPA g on: the entries it holds translate them, all alike, to banks and DRAM lines that
answer, and nothing keeps its access there waiting (R41, R105). -/
structure CReq.spans (r : CReq) (s : State) (rights : BitVec 5) (va : BitVec 64) (n g : Nat) : Prop where
  fits : va.toNat + n ≤ 2 ^ 64
  maps : ∀ i, i < n → ∃ d cls, (∃ e ∈ r.rc, e.job = r.job ∧ e.desc.covers (va.toNat + i) = true) ∧
    (∀ e ∈ r.rc, e.job = r.job → e.desc.covers (va.toNat + i) = true → e.desc = d) ∧
    checkDesc s d rights (!r.user) (va.toNat + i) = .ok (g + i) cls d
  goes : ∀ i, i < n → redirect s r.job (g + i) = g + i ∧ bankHeld s r.core (g + i) = false ∧ homeBarred s true (g + i) = false ∧
    lineClean s (g + i) = true ∧ (match targetOf s (g + i) with | .bank _ _ _ => lineBad s (g + i) = false | .dram _ _ => True | _ => False)

/-- The one active request of an engine performs its next batch (R89): it has met no fault and lost no beat, its job runs, it asks for neither
compression nor a chunk mask, no cache way holds a line, and no packet waits at a bank. -/
structure CReq.turn (r : CReq) (s : State) (col : Fin 8) (e : Fin 16) : Prop where
  alone : (colAt s col).eng.get e = [r]
  begun : r.begun = true ∧ r.done = false ∧ r.failed = none
  runs : stilledAt s col r.job = false ∧ tabGet 0 (colAt s col).beats e.val < 9
  plain : r.z = false ∧ r.mask = none
  homes : State.memOk s ∧ (s.cores.all fun q => q.2.cw.isEmpty) = true
  net : ∀ p ∈ s.net, p.loc ≠ .queued ∧ p.loc ≠ .mesh

/-- A batch has been performed up to element next (R89, R91, R104, R113): the request stands there, CEBYTES counts the bytes written, the barrier
object is credited the batch's bytes and its rows out of range, and no hart has changed. -/
structure Batched (s t : State) (col : Fin 8) (e : Fin 16) (r : CReq) (next bytes written oor : Nat) : Prop where
  request : ∃ rc, (colAt t col).eng.get e = [{ r with next := next, done := decide (r.total ≤ next), rc := rc }]
  counted : (colAt t col).cebytes.get e = (colAt s col).cebytes.get e + BitVec.ofNat 64 written
  uncredited : r.bar = 0 → t.net = s.net
  credited : r.bar ≠ 0 → bytes ≠ 0 → ∃ p ∈ t.net, p.kind = .barCredit bytes oor ∧ p.gpa = r.bar.toNat ∧ p.core = 2048
  harts : ∀ c k, hartAt t c k = hartAt s c k

/-- The byte of a row that byte i of its copy comes from: under SWZ the 16-byte pieces of each 256 bytes change places by the row's number (R90). -/
def CReq.swizzled (r : CReq) (j i : Nat) : Nat :=
  if r.swz then i / 256 * 256 + ((i / 16 % 16) ^^^ (j % 16)) * 16 + i % 16 else i

end Sys2Proof.Machine
end

