-- ==== Sys2Proof/Certificates/Slice0/Obligations.lean ====
section
/-!
DEFINITION. The statements for the provers, from the numbered rules of spec/.  Each speaks of every state that meets its hypotheses; the
vocabulary stands in Sys2Proof/Safety.lean.
-/

open Sys2Proof Sys2Proof.Machine

/-! ## Scalar integer instructions -/

/-- R242: the register instructions of major 0x00, with their function values, write gd modulo 2^64, advance the PC by 4 and change nothing
else, no flag among it. -/
def Obligations.IntegerRegisterResults : Prop :=
  ∀ (s : State) (b a d : BitVec 5),
    let x := gr s a
    let y := gr s b
    let k := y.toNat % 64
    let word (maj fn : Nat) : Nat := 1 + 2 * maj + 2 ^ 7 * d.toNat + 2 ^ 12 * a.toNat + 2 ^ 17 * b.toNat + 2 ^ 22 * fn
    Gives (.add b a d) s 4 d (x + y) ∧ Gives (.sub b a d) s 4 d (x - y) ∧
    Gives (.and b a d) s 4 d (x &&& y) ∧ Gives (.or b a d) s 4 d (x ||| y) ∧ Gives (.xor b a d) s 4 d (x ^^^ y) ∧
    Gives (.andn b a d) s 4 d (x &&& ~~~y) ∧
    Gives (.shl b a d) s 4 d (BitVec.ofNat 64 (x.toNat * 2 ^ k)) ∧
    Gives (.shr b a d) s 4 d (BitVec.ofNat 64 (x.toNat / 2 ^ k)) ∧
    Gives (.sra b a d) s 4 d (BitVec.ofInt 64 (x.toInt / 2 ^ k)) ∧
    Gives (.slt b a d) s 4 d (if x.toInt < y.toInt then 1 else 0) ∧
    Gives (.sltn b a d) s 4 d (if x.toNat < y.toNat then 1 else 0) ∧
    Gives (.min b a d) s 4 d (if x.toInt ≤ y.toInt then x else y) ∧
    Gives (.max b a d) s 4 d (if x.toInt ≤ y.toInt then y else x) ∧
    Gives (.minn b a d) s 4 d (if x.toNat ≤ y.toNat then x else y) ∧
    Gives (.maxn b a d) s 4 d (if x.toNat ≤ y.toNat then y else x) ∧
    (∀ p ∈ ([(.add b a d, 0), (.sub b a d, 1), (.and b a d, 2), (.or b a d, 3), (.xor b a d, 4), (.shl b a d, 5), (.shr b a d, 6), (.sra b a d, 7), 
        (.slt b a d, 8), (.sltn b a d, 9), (.min b a d, 10), (.max b a d, 11), (.minn b a d, 12), (.maxn b a d, 13), (.andn b a d, 14)] : List (Instr × Nat)), encodeWord p.1 = word 0x00 p.2)

/-- R243: products and quotients of major 0x01; division by zero gives all ones and the dividend, −2^63 ÷ −1 gives −2^63 and 0, nothing traps.
R244: the 32-bit forms of major 0x07 read the low halves and write their 32-bit result sign-extended from bit 31. -/
def Obligations.MultiplyDivideAndWordResults : Prop :=
  (∀ (s : State) (b a d : BitVec 5),
    let x := gr s a
    let y := gr s b
    let word (maj fn : Nat) : Nat := 1 + 2 * maj + 2 ^ 7 * d.toNat + 2 ^ 12 * a.toNat + 2 ^ 17 * b.toNat + 2 ^ 22 * fn
    Gives (.mul b a d) s 4 d (BitVec.ofInt 64 (x.toInt * y.toInt)) ∧
    Gives (.mulh b a d) s 4 d ((x.signExtend 128 * y.signExtend 128).extractLsb' 64 64) ∧
    Gives (.mulhn b a d) s 4 d ((x.zeroExtend 128 * y.zeroExtend 128).extractLsb' 64 64) ∧
    Gives (.div b a d) s 4 d (if y = 0 then BitVec.allOnes 64 else BitVec.ofInt 64 (x.toInt.tdiv y.toInt)) ∧
    Gives (.divn b a d) s 4 d (if y = 0 then BitVec.allOnes 64 else BitVec.ofNat 64 (x.toNat / y.toNat)) ∧
    Gives (.rem b a d) s 4 d (if y = 0 then x else BitVec.ofInt 64 (x.toInt.tmod y.toInt)) ∧
    Gives (.remn b a d) s 4 d (if y = 0 then x else BitVec.ofNat 64 (x.toNat % y.toNat)) ∧
    (∀ p ∈ ([(.mul b a d, 0), (.mulh b a d, 1), (.mulhn b a d, 2), (.div b a d, 3), (.divn b a d, 4), (.rem b a d, 5), (.remn b a d, 6)] : List (Instr × Nat)), encodeWord p.1 = word 0x01 p.2)) ∧
  (∀ (s : State) (b a d : BitVec 5),
    let x : BitVec 32 := (gr s a).setWidth 32
    let y : BitVec 32 := (gr s b).setWidth 32
    let k := y.toNat % 32
    let w (v : BitVec 32) : BitVec 64 := v.signExtend 64
    let word (maj fn : Nat) : Nat := 1 + 2 * maj + 2 ^ 7 * d.toNat + 2 ^ 12 * a.toNat + 2 ^ 17 * b.toNat + 2 ^ 22 * fn
    Gives (.addW b a d) s 4 d (w (x + y)) ∧ Gives (.subW b a d) s 4 d (w (x - y)) ∧
    Gives (.shlW b a d) s 4 d (w (BitVec.ofNat 32 (x.toNat * 2 ^ k))) ∧
    Gives (.shrW b a d) s 4 d (w (BitVec.ofNat 32 (x.toNat / 2 ^ k))) ∧
    Gives (.sraW b a d) s 4 d (w (BitVec.ofInt 32 (x.toInt / 2 ^ k))) ∧
    Gives (.mulW b a d) s 4 d (w (x * y)) ∧
    Gives (.divW b a d) s 4 d (if y = 0 then BitVec.allOnes 64 else w (BitVec.ofInt 32 (x.toInt.tdiv y.toInt))) ∧
    Gives (.divnW b a d) s 4 d (if y = 0 then BitVec.allOnes 64 else w (BitVec.ofNat 32 (x.toNat / y.toNat))) ∧
    Gives (.remW b a d) s 4 d (if y = 0 then w x else w (BitVec.ofInt 32 (x.toInt.tmod y.toInt))) ∧
    Gives (.remnW b a d) s 4 d (if y = 0 then w x else w (BitVec.ofNat 32 (x.toNat % y.toNat))) ∧
    (∀ p ∈ ([(.addW b a d, 0x000), (.subW b a d, 0x001), (.shlW b a d, 0x005), (.shrW b a d, 0x006), (.sraW b a d, 0x007), 
        (.mulW b a d, 0x100), (.divW b a d, 0x103), (.divnW b a d, 0x104), (.remW b a d, 0x105), (.remnW b a d, 0x106)] : List (Instr × Nat)), encodeWord p.1 = word 0x07 p.2))

/-- R245, R246: the second operand is the sign-extended immediate; shifts take imm12[5:0]; the upper immediate is shifted by 12. -/
def Obligations.ImmediateResults : Prop :=
  ∀ (s : State) (n : BitVec 12) (u : BitVec 20) (h : BitVec 6) (a d : BitVec 5),
    let x := gr s a
    let y : BitVec 64 := BitVec.ofInt 64 n.toInt
    Gives (.addi n a d) s 4 d (x + y) ∧
    Gives (.slti n a d) s 4 d (if x.toInt < n.toInt then 1 else 0) ∧
    Gives (.sltni n a d) s 4 d (if x.toNat < y.toNat then 1 else 0) ∧
    Gives (.andi n a d) s 4 d (x &&& y) ∧ Gives (.ori n a d) s 4 d (x ||| y) ∧ Gives (.xori n a d) s 4 d (x ^^^ y) ∧
    Gives (.shli h a d) s 4 d (BitVec.ofNat 64 (x.toNat * 2 ^ h.toNat)) ∧
    Gives (.shri h a d) s 4 d (BitVec.ofNat 64 (x.toNat / 2 ^ h.toNat)) ∧
    Gives (.srai h a d) s 4 d (BitVec.ofInt 64 (x.toInt / 2 ^ h.toNat)) ∧
    Gives (.ldhi u d) s 4 d (BitVec.ofInt 64 (u.toInt * 4096)) ∧
    Gives (.pcadd u d) s 4 d (BitVec.ofInt 64 ((me s).pc.toNat + u.toInt * 4096))

/-- R247: `bext` and `bins`, bit by bit, for every width and offset; neither traps. R248: the counts of 1 bits, of leading and of trailing 0
bits, 64 for 0; the b field is 0. -/
def Obligations.BitFieldAndCountResults : Prop :=
  (∀ (s : State) (b a d : BitVec 5),
    let w := (gr s b).toNat % 128
    let o := (gr s b).toNat / 256 % 256
    let word (maj fn : Nat) : Nat := 1 + 2 * maj + 2 ^ 7 * d.toNat + 2 ^ 12 * a.toNat + 2 ^ 17 * b.toNat + 2 ^ 22 * fn
    (∃ v : BitVec 64, Gives (.bext b a d) s 4 d v ∧
      ∀ i, i < 64 → v.getLsbD i = (decide (i < w) && (gr s a).getLsbD (o + i))) ∧
    (∃ v : BitVec 64, Gives (.bins b a d) s 4 d v ∧
      ∀ i, i < 64 → v.getLsbD i = if o ≤ i ∧ i < o + w then (gr s a).getLsbD (i - o) else (gr s d).getLsbD i) ∧
    (∀ p ∈ ([(.bext b a d, 0), (.bins b a d, 1)] : List (Instr × Nat)), encodeWord p.1 = word 0x04 p.2)) ∧
  (∀ (s : State) (a d : BitVec 5),
    let x := gr s a
    Gives (.popc a d) s 4 d (BitVec.ofNat 64 ((List.range 64).countP fun i => x.getLsbD i)) ∧
    (∃ n, n ≤ 64 ∧ Gives (.clz a d) s 4 d (BitVec.ofNat 64 n) ∧
      (∀ i, i < n → x.getLsbD (63 - i) = false) ∧ (n < 64 → x.getLsbD (63 - n) = true)) ∧
    (∃ n, n ≤ 64 ∧ Gives (.ctz a d) s 4 d (BitVec.ofNat 64 n) ∧
      (∀ i, i < n → x.getLsbD i = false) ∧ (n < 64 → x.getLsbD n = true)) ∧
    (∀ p ∈ ([(.popc a d, 2), (.clz a d, 3), (.ctz a d, 4)] : List (Instr × Nat)),
      encodeWord p.1 = 1 + 2 * 0x04 + 2 ^ 7 * d.toNat + 2 ^ 12 * a.toNat + 2 ^ 22 * p.2))

/-- R228: the 16-bit forms have the effect of the forms they expand to, and advance the PC by 2. R271: the operand-extension registers are
built from immediates or a g register, and read back; only oxN changes. -/
def Obligations.CompactAndExtensionResults : Prop :=
  (∀ (s : State) (a d : BitVec 3) (n : BitVec 7),
    let gd : BitVec 5 := BitVec.ofNat 5 (8 + d.toNat)
    let x := gr s gd
    let y := gr s (BitVec.ofNat 5 (8 + a.toNat))
    let k := y.toNat % 64
    Gives (.add16 a d) s 2 gd (x + y) ∧ Gives (.sub16 a d) s 2 gd (x - y) ∧ Gives (.and16 a d) s 2 gd (x &&& y) ∧
    Gives (.or16 a d) s 2 gd (x ||| y) ∧ Gives (.xor16 a d) s 2 gd (x ^^^ y) ∧
    Gives (.shl16 a d) s 2 gd (BitVec.ofNat 64 (x.toNat * 2 ^ k)) ∧
    Gives (.shr16 a d) s 2 gd (BitVec.ofNat 64 (x.toNat / 2 ^ k)) ∧
    Gives (.sra16 a d) s 2 gd (BitVec.ofInt 64 (x.toInt / 2 ^ k)) ∧
    Gives (.mv16 a d) s 2 gd y ∧
    Gives (.addi16 n d) s 2 gd (x + BitVec.ofInt 64 n.toInt) ∧ Gives (.li16 n d) s 2 gd (BitVec.ofInt 64 n.toInt)) ∧
  (∀ (s : State) (u : BitVec 20) (a d : BitVec 5) (n : BitVec 3),
    let sets (i : Instr) (v : BitVec 64) : Prop := ∃ t, exec i s = .next t ∧ GoesOn s t ((me s).pc + 4) ∧
      oxr t n = v ∧ (∀ m, m ≠ n → oxr t m = oxr s m) ∧ (∀ r, gr t r = gr s r) ∧
      { (me t).kept with ox := (me s).ox } = (me s).kept ∧ RestKept s t
    sets (.oxli u n) (BitVec.ofInt 64 u.toInt) ∧
    sets (.oxhi u n) (BitVec.ofNat 64 ((oxr s n).toNat * 2 ^ 20 + u.toNat)) ∧
    sets (.oxmv a n) (gr s a) ∧
    Gives (.oxrd d n) s 4 d (oxr s n))

/-- R249, R228: a branch whose condition holds goes to its own address plus twice the offset, any other goes on; nothing but the PC and
INSTRET changes; fn3 6 and 7 have no instruction. R250, R228: jumps and the link they write; `jalr` to an odd address traps MISALIGN with
that address in XVAL and writes no register; fn3 1 to 7 of major 0x1A have no instruction. An even target of `jalr` or `ret16` at or above
2^48 goes to its low 48 bits: the model's reading, which no rule states (log entry 18). -/
def Obligations.BranchAndJumpTargets : Prop :=
  (∀ (s : State) (o : BitVec 12) (b a : BitVec 5) (o7 : BitVec 7) (c : BitVec 3),
    let x := gr s a
    let y := gr s b
    let z := gr s (BitVec.ofNat 5 (8 + c.toNat))
    let pc := (me s).pc
    let goes (i : Instr) (p : BitVec 48) : Prop := Results i s 0 0 p
    let there := pc + BitVec.ofInt 48 (2 * o.toInt)
    let there7 := pc + BitVec.ofInt 48 (2 * o7.toInt)
    goes (.beq o b a) (if x = y then there else pc + 4) ∧ goes (.bne o b a) (if x ≠ y then there else pc + 4) ∧
    goes (.blt o b a) (if x.toInt < y.toInt then there else pc + 4) ∧ goes (.bge o b a) (if y.toInt ≤ x.toInt then there else pc + 4) ∧
    goes (.bltn o b a) (if x.toNat < y.toNat then there else pc + 4) ∧ goes (.bgen o b a) (if y.toNat ≤ x.toNat then there else pc + 4) ∧
    goes (.beqz16 o7 c) (if z = 0 then there7 else pc + 2) ∧ goes (.bnez16 o7 c) (if z ≠ 0 then there7 else pc + 2) ∧
    (∀ p ∈ ([(.beq o b a, 0), (.bne o b a, 1), (.blt o b a, 2), (.bge o b a, 3), (.bltn o b a, 4), (.bgen o b a, 5)] : List (Instr × Nat)),
      encodeWord p.1 = 1 + 2 * 0x18 + 2 ^ 7 * a.toNat + 2 ^ 12 * b.toNat + 2 ^ 17 * o.toNat + 2 ^ 29 * p.2) ∧
    (∀ w : BitVec 32, w.getLsbD 0 = true → w.extractLsb' 1 6 = 0x18 → 6 ≤ (w.extractLsb' 29 3).toNat → ∃ e, decode (leBytes 4 w.toNat) = .error e)) ∧
  (∀ (s : State) (o : BitVec 20) (n : BitVec 12) (o10 : BitVec 10) (a d : BitVec 5),
    let pc := (me s).pc
    let link : BitVec 64 := BitVec.ofNat 64 (pc.toNat + 4)
    let t := gr s a + BitVec.ofInt 64 n.toInt
    Results (.jal o d) s d link (pc + BitVec.ofInt 48 (2 * o.toInt)) ∧
    Results (.j16 o10) s 0 0 (pc + BitVec.ofInt 48 (2 * o10.toInt)) ∧
    (t.getLsbD 0 = false → Results (.jalr n a d) s d link (BitVec.ofNat 48 t.toNat)) ∧
    ((gr s 1).getLsbD 0 = false → Results .ret16 s 0 0 (BitVec.ofNat 48 (gr s 1).toNat)) ∧
    (t.getLsbD 0 = true → TakesTrap (.jalr n a d) s .misalign t) ∧
    ((gr s 1).getLsbD 0 = true → TakesTrap .ret16 s .misalign (gr s 1)) ∧
    encodeWord (.jal o d) = 1 + 2 * 0x19 + 2 ^ 7 * d.toNat + 2 ^ 12 * o.toNat ∧
    encodeWord (.jalr n a d) = 1 + 2 * 0x1A + 2 ^ 7 * d.toNat + 2 ^ 12 * a.toNat + 2 ^ 17 * n.toNat ∧
    (∀ w : BitVec 32, w.getLsbD 0 = true → w.extractLsb' 1 6 = 0x1A → w.extractLsb' 29 3 ≠ 0 → ∃ e, decode (leBytes 4 w.toNat) = .error e))

/-! ## Scalar floating point -/

/-- R261, R262, R264: the arithmetic results are the exact values rounded once into the format of the size bit under FSTAT.RM; the flags
accumulate in FSTAT; nothing else changes. R261: with FSTAT.RM at 6 or 7 every scalar floating-point instruction traps ILLEGAL_OP, with
its word in XVAL, and writes nothing. -/
def Obligations.FloatArithmeticResults : Prop :=
  (∀ (s : State) (z : BitVec 1) (b a d : BitVec 5), fstatRm s < 6 →
    let f : Fmt := if z = 1 then f64 else f32
    let cut (v : BitVec 64) : Nat := if z = 1 then v.toNat else v.toNat % 2 ^ 32
    let rm := scalarRm s
    let x := f.value (cut (gr s a))
    let y := f.value (cut (gr s b))
    let w := f.value (cut (gr s d))
    let fma (p : FVal × Flags) (c : FVal) : FVal × Flags := ((addVal rm p.1 c).1, p.2 ||| (addVal rm p.1 c).2)
    FpGives (.fadd z b a d) s d (f.finish rm 0 (addVal rm x y)) ∧
    FpGives (.fsub z b a d) s d (f.finish rm 0 (addVal rm x y.neg)) ∧
    FpGives (.fmul z b a d) s d (f.finish rm 0 (mulVal x y)) ∧
    FpGives (.fdiv z b a d) s d (f.div rm 0 (cut (gr s a)) (cut (gr s b))) ∧
    FpGives (.fsqrt z a d) s d (f.sqrt rm 0 (cut (gr s a))) ∧
    FpGives (.fmin z b a d) s d (f.min (cut (gr s a)) (cut (gr s b))) ∧
    FpGives (.fmax z b a d) s d (f.max (cut (gr s a)) (cut (gr s b))) ∧
    FpGives (.fmadd z b a d) s d (f.finish rm 0 (fma (mulVal x y) w)) ∧
    FpGives (.fmsub z b a d) s d (f.finish rm 0 (fma (mulVal x y) w.neg)) ∧
    FpGives (.fnmadd z b a d) s d (f.finish rm 0 (fma ((mulVal x y).1.neg, (mulVal x y).2) w))) ∧
  (∀ (s : State) (z : BitVec 1) (b a d : BitVec 5), 6 ≤ fstatRm s →
    ∀ i, i ∈ ([.fadd z b a d, .fsub z b a d, .fmul z b a d, .fdiv z b a d, .fsqrt z a d, .fmin z b a d, .fmax z b a d,
        .ftoi z a d, .ftoin z a d, .itof z a d, .intof z a d, .fnar a d, .fwid a d, .feq z b a d, .flt z b a d, .fle z b a d,
        .fclass z a d, .fsgn z b a d, .fsgnn z b a d, .fsgnx z b a d, .fmadd z b a d, .fmsub z b a d, .fnmadd z b a d] : List Instr) →
      TakesTrap i s .illegalOp (BitVec.ofNat 64 (encodeWord i)))

/-- R261, R263: conversions, compares, classification and sign operations. -/
def Obligations.FloatConversionResults : Prop :=
  ∀ (s : State) (z : BitVec 1) (b a d : BitVec 5), fstatRm s < 6 →
    let f : Fmt := if z = 1 then f64 else f32
    let cut (v : BitVec 64) : Nat := if z = 1 then v.toNat else v.toNat % 2 ^ 32
    let rm := scalarRm s
    let x := cut (gr s a)
    let y := cut (gr s b)
    let int (r : Int × Flags) : Nat × Flags := ((BitVec.ofInt 64 r.1).toNat, r.2)
    let truth (p : Prop) [Decidable p] (fl : Flags) : Nat × Flags := (if p then 1 else 0, fl)
    let nan := (f.value x).isNan = true ∨ (f.value y).isNan = true
    let sig := (f.value x).isSig = true ∨ (f.value y).isSig = true
    let below (u v : Nat) : Prop := ltVal false (f.value u) (f.value v) = true
    let half := 2 ^ (f.width - 1)
    FpGives (.ftoi z a d) s d (int (toInt true 64 rm 0 (f.value x))) ∧
    FpGives (.ftoin z a d) s d (int (toInt false 64 rm 0 (f.value x))) ∧
    FpGives (.itof z a d) s d (f.ofInt rm 0 (gr s a).toInt) ∧
    FpGives (.intof z a d) s d (f.ofInt rm 0 (gr s a).toNat) ∧
    FpGives (.fnar a d) s d (f32.ofVal rm 0 (f64.value (gr s a).toNat)) ∧
    FpGives (.fwid a d) s d (f64.ofVal rm 0 (f32.value ((gr s a).toNat % 2 ^ 32))) ∧
    FpGives (.feq z b a d) s d (truth (¬nan ∧ ¬below x y ∧ ¬below y x) (if sig then fNV else 0)) ∧
    FpGives (.flt z b a d) s d (truth (¬nan ∧ below x y) (if nan then fNV else 0)) ∧
    FpGives (.fle z b a d) s d (truth (¬nan ∧ ¬below y x) (if nan then fNV else 0)) ∧
    FpGives (.fclass z a d) s d (f.fclass x, 0) ∧
    FpGives (.fsgn z b a d) s d (x % half + half * (y / half), 0) ∧
    FpGives (.fsgnn z b a d) s d (x % half + half * (1 - y / half), 0) ∧
    FpGives (.fsgnx z b a d) s d (x % half + half * ((x / half + y / half) % 2), 0)

/-- R151, R159, R163: rounding leaves a value that the format represents as it is, with no flag, in every rounding mode. -/
def Obligations.RoundingKeepsRepresentable : Prop :=
  ∀ f ∈ [f64, f32, bf16, f16, e5m2, e4m3, e3m2, e2m3, e2m1], ∀ (x rm r : Nat) (n : Bool) (m : Nat) (e : Int),
    x < 2 ^ f.width → f.value x = .fin n m e → f.round rm r n m e false = (x, 0)

/-! ## Scalar memory -/

/-- R251, R252, R253, R120: a load of a scratchpad bank, in every form, gives the bytes there, least significant first, extended as the form
says; no other register and no byte of memory changes. -/
def Obligations.BankLoadResults : Prop :=
  ∀ (s : State) (i : Instr) (f : LoadForm) (g cls : Nat), loadForm s i = some f →
    reaches s needRd f.n true false f.va = some (g, cls) →
    let u := translated s needRd f.va
    bankAnswers u (performedAt u g) f.n = true →
    ∃ t, exec i s = .next t ∧ GoesOn s t ((me s).pc + f.len) ∧
      Wrote s t f.d (f.ext (memRead u.mem (performedAt u g) f.n)) ∧ (me t).kept = (me s).kept ∧
      (myCore t).accessed = (myCore s).accessed ∧ (myCore t).wq = (myCore s).wq ∧ (myCore t).l0d = (myCore s).l0d ∧
      OthersButBanks u t ∧ (∀ b, byteAt t b = byteAt u b) ∧ t.kept = u.kept

/-- R26, R65, R252: a load that the L0 may not serve (`.nc`, of the bypass class, of another column's cached-coherent line, or `.c` that fails
the test of R59) of DRAM gives the bytes of the home, and fills no cache; a correctable error is corrected on the way. Where a cache way
of the own column owns the line, a `.c` load that fails that test gives the owner's copy instead (the model's reading, log entry 129).
R58, R59, R211, R252: a `.c` load of DRAM that passes the test of R59 leaves as a combinable request, and its hart waits for the reply.
R115, R252: an ordinary load of a class that the L0 may hold (cached, or cached-coherent in its own column), finding its line there, gives
the L0 copy; a cached load that does not find it fills the L0 with the home's line, the queued stores of the core laid over it. R196: a
load whose bytes all lie in queued stores takes them from the youngest entries: here from one store of the same place. -/
def Obligations.CachedLoadResults : Prop :=
  (∀ (s : State) (i : Instr) (f : LoadForm) (g cls : Nat) (col : Fin 8) (off : Nat), loadForm s i = some f →
    reaches s needRd f.n true false f.va = some (g, cls) →
    let u := translated s needRd f.va
    let w := homeAfter u g
    let owned := if f.via = .c then ownedValue u .cn g cls f.n else none
    targetOf s g = .dram col off → dramAnswers u g f.n = true →
    f.via = .nc ∨ (f.via = .ord ∧ (cls = 2 ∨ cls = 0 ∧ col ≠ colOf s.curCore)) ∨ (f.via = .c ∧ combinable (me s) (destOf s s.curCore g) = false) →
    (∀ v, owned = some v →
      ∃ t, exec i s = .next t ∧ GoesOn s t ((me s).pc + f.len) ∧ Wrote s t f.d (f.ext v) ∧ (me t).kept = (me s).kept ∧
        (myCore t).kept = (myCore u).kept ∧ OthersKept u t ∧ (∀ b, byteAt t b = byteAt u b) ∧ t.kept = u.kept) ∧
    (owned = none → ∃ t, exec i s = .next t ∧ GoesOn s t ((me s).pc + f.len) ∧ Wrote s t f.d (f.ext (memRead w.mem g f.n)) ∧
      (me t).kept = (me s).kept ∧ (myCore t).l0d = (myCore s).l0d ∧ (myCore t).cw = (myCore w).cw ∧ (myCore t).wq = (myCore s).wq ∧
      OthersKept w t ∧ (∀ b, byteAt t b = byteAt w b) ∧ t.kept = w.kept)) ∧
  (∀ (s : State) (i : Instr) (f : LoadForm) (g cls : Nat) (col : Fin 8) (off : Nat), loadForm s i = some f → f.via = .c →
    reaches s needRd f.n true false f.va = some (g, cls) →
    let u := translated s needRd f.va
    targetOf s g = .dram col off → dramAnswers u g f.n = true → combinable (me s) (destOf s s.curCore g) = true → s.split = true →
    ∃ t p, exec i s = .next t ∧ t.net = u.net ++ [p] ∧ fromMe u p = true ∧ p.kind = .loadC f.n f.signed f.d ∧ p.gpa = g ∧ p.va = f.va ∧
      p.loc = .omega 1 ∧ p.comb = true ∧ p.wants = true ∧ (me t).wait = .reply p.id ∧ (me t).pc = (me s).pc ∧ (∀ r, gr t r = gr s r) ∧
      { (me t).kept with since := 0 } = { (me s).kept with since := 0 } ∧ (myCore t).kept = (myCore u).kept ∧ OthersKept u t ∧
      (∀ b, byteAt t b = byteAt u b) ∧ { t.kept with net := [], nextId := 0 } = { u.kept with net := [], nextId := 0 }) ∧
  (∀ (s : State) (i : Instr) (f : LoadForm) (g cls : Nat) (col : Fin 8) (off : Nat), loadForm s i = some f → f.via = .ord →
    reaches s needRd f.n true false f.va = some (g, cls) →
    let u := translated s needRd f.va
    let w := homeAfter u (g / 64 * 64)
    let gives (x t : State) (ln : BitVec 512) (l : Tab (List (Nat × BitVec 512))) : Prop := exec i s = .next t ∧
      GoesOn s t ((me s).pc + f.len) ∧ Wrote s t f.d (f.ext (ln.toNat / 2 ^ (8 * (g % 64)) % 2 ^ (8 * f.n))) ∧ (me t).kept = (me s).kept ∧
      (myCore t).l0d = l ∧ { (myCore t).kept with l0d := [] } = { (myCore x).kept with l0d := [] } ∧ OthersKept x t ∧
      (∀ b, byteAt t b = byteAt x b) ∧ t.kept = x.kept
    targetOf s g = .dram col off → dramAnswers u g f.n = true →
    (cls = 1 ∨ (cls = 0 ∧ col = colOf s.curCore) →
      ∀ ln l, l0Find (myCore s).l0d (l0dSet (g / 64)) (g / 64) = some (ln, l) → ∃ t, gives u t ln l) ∧
    (cls = 1 → l0Find (myCore s).l0d (l0dSet (g / 64)) (g / 64) = none → inFlight u s.curCore (g / 64 * 64) 64 = false →
      redQueued (myCore s).wq (g / 64 * 64) 64 = false →
      let ln := mergeQueue (myCore s).wq (g / 64) (homeLine w (g / 64))
      ∃ t, gives w t ln (l0Fill 8 (myCore s).l0d (l0dSet (g / 64)) (g / 64) ln))) ∧
  (∀ (s : State) (i : Instr) (f : LoadForm) (g cls : Nat) (e : WEntry), loadForm s i = some f →
    reaches s needRd f.n true false f.va = some (g, cls) →
    let u := translated s needRd f.va
    (myCore s).wq.getLast? = some e → e.kind = .store → e.gpa = performedAt u g → e.n = f.n → degradedAt u (performedAt u g) = false →
    loadRefused s g f.n = false →
    ∃ t, exec i s = .next t ∧ GoesOn s t ((me s).pc + f.len) ∧ Wrote s t f.d (f.ext (e.data.toNat % 2 ^ (8 * f.n))) ∧
      (me t).kept = (me s).kept ∧ (myCore t).kept = (myCore u).kept ∧ OthersKept u t ∧ (∀ b, byteAt t b = byteAt u b) ∧ t.kept = u.kept)

/-- R196, R251, R253, R258: a store or a reduction enters the write queue and its hart goes on; no register and no byte of memory changes yet;
a full queue holds the hart at the instruction; a store of another size than 8 to a privileged register traps BUS_FAULT. -/
def Obligations.StoresEnterTheQueue : Prop :=
  ∀ (s : State) (i : Instr) (n : Nat) (x va : BitVec 64) (k : WKind) (rights : BitVec 5) (nc : Bool) (len : BitVec 48) (g cls : Nat),
    ((∃ f, storeForm s i = some f ∧ n = f.n ∧ x = f.x ∧ va = f.va ∧ k = .store ∧ rights = needWr ∧ nc = f.nc ∧ len = f.len) ∨
     (∃ f, reductionForm s i = some f ∧ n = f.n ∧ x = f.x ∧ va = f.va ∧ k = .red f.op ∧ rights = needRed ∧ nc = false ∧ len = 4)) →
    reaches s rights n false true va = some (g, cls) →
    let u := translated s rights va
    let own : Bool := match targetOf s g with | .dram col _ => decide (col = colOf s.curCore) | _ => false
    let wrong : Bool := k == .store && n != 8 && isPrivReg s g
    (wrong = false → (myCore s).wq.length < 32 →
      ∃ t e, exec i s = .next t ∧ GoesOn s t ((me s).pc + len) ∧ (∀ r, gr t r = gr s r) ∧ (me t).kept = (me s).kept ∧
        (myCore t).wq = (myCore s).wq ++ [e] ∧ e.slot = s.curSlot ∧ e.kind = k ∧ e.gpa = performedAt u g ∧ e.n = n ∧ e.data = x ∧
        e.va = va ∧ e.nc = (nc || !(own && cls == 0)) ∧
        { (myCore t).kept with wq := [], l0d := [] } = { (myCore u).kept with wq := [], l0d := [] } ∧ OthersKept u t ∧
        (∀ b, byteAt t b = byteAt u b) ∧ t.kept = u.kept) ∧
    (wrong = false → 32 ≤ (myCore s).wq.length → exec i s = .next u) ∧
    (wrong = true → freezing s s.curCore .busFault = false → ∃ t, exec i s = .next t ∧ Entered s t .busFault va false ∧
      (myCore t).instret = (myCore s).instret ∧ RestKept u t)

/-- R209, R255 to R257: an atomic at a scratchpad bank writes the old value to gd and the new one to memory in one operation; at a line of
DRAM it leaves as a request that its hart counts as a write, and waits for the reply; at a register or a barrier object, of this device or
of another that it can reach, nothing is performed, gd becomes 0 and the error is held for the next release; in a column whose core bus
failed it traps BUS_FAULT (R76), and so it does at an unmapped offset, which is the model's choice (log entry 122). R259, R121: `ldf.d` of
a full word gives the word and leaves it empty; `ste.d` of an empty word writes it and leaves it full, when the write queue has room; no
other word's bit changes. Here no hart waits for a word of the way. R85, R260: `mbput` to an empty mailbox fills it with ga; `mbget` of a
full one gives its value and empties it; the other mailboxes stay. Here no hart waits at the mailbox. -/
def Obligations.OwnerAndFullEmptyResults : Prop :=
  (∀ (s : State) (i : Instr) (f : OwnerForm) (g cls : Nat), s.memOk → atomicForm s i = some f →
    reaches s needAm f.n true true f.va = some (g, cls) →
    let u := translated s needAm f.va
    let a := performedAt u g
    let m := memRead u.mem a f.n
    let line (q : Core) : Core := { q.kept with l0d := [], bankLocal := [] }
    (bankAnswers u a f.n = true →
      ∃ t, exec i s = .next t ∧ GoesOn s t ((me s).pc + 4) ∧ Wrote s t f.d (f.old m) ∧
        Stored u t a f.n (newValue f.op f.n m f.x.toNat (gr s f.d).toNat) ∧ (me t).kept = (me s).kept ∧
        line (myCore t) = line (myCore u) ∧ OthersButBanks u t ∧ { t.kept with mem := [] } = { u.kept with mem := [] }) ∧
    (∀ col off, targetOf s g = .dram col off → dramAnswers u g f.n = true → s.split = true →
      ∃ t p, exec i s = .next t ∧ t.net = u.net ++ [p] ∧ fromMe u p = true ∧ p.kind = .am f.op f.n f.x (gr s f.d) f.d ∧ p.gpa = g ∧
        p.va = f.va ∧ p.loc = .omega 1 ∧ p.wants = true ∧ (me t).wait = .reply p.id ∧ (me t).pc = (me s).pc ∧ (∀ r, gr t r = gr s r) ∧
        { (me t).kept with since := 0 } = { ((me s).leave (destOf s s.curCore g)).kept with since := 0 } ∧ line (myCore t) = line (myCore u) ∧
        OthersKept u t ∧ (∀ b, byteAt t b = byteAt u b) ∧ { t.kept with net := [], nextId := 0 } = { u.kept with net := [], nextId := 0 }) ∧
    (noAtomic s g = true → amRefused u a = false → mayReach u (colOf s.curCore) g 1 = true →
      (∀ v, targetOf s g = .device v → routeUp u (colOf s.curCore) v = true) →
      ∃ t, exec i s = .next t ∧ GoesOn s t ((me s).pc + 4) ∧ Wrote s t f.d 0 ∧ (me t).errAck.isSome = true ∧
        ((me s).errAck = none → (me t).errAck = some f.va) ∧ line (myCore t) = line (myCore u) ∧ OthersKept u t ∧
        (∀ b, byteAt t b = byteAt u b) ∧ t.kept = (reach (colOf s.curCore) g 1 u).kept) ∧
    (amRefused u a = true → freezing s s.curCore .busFault = false → ∃ t, exec i s = .next t ∧ Entered s t .busFault f.va false ∧
      (myCore t).instret = (myCore s).instret ∧ RestKept u t)) ∧
  (∀ (s : State) (b a d : BitVec 5) (g cls c w o : Nat), s.memOk →
    let u (rights : BitVec 5) := translated s rights (gr s a)
    let ready (u : State) : Prop := targetOf u (performedAt u g) = .bank c w o ∧ bankAnswers u (performedAt u g) 8 = true ∧
      tabGet [] (coreAt s c).waiters w = []
    let other (t : State) : Prop := ∀ b k, (b ≠ c ∨ k ≠ fullKey w o) → tabGet false (coreAt t b).full k = tabGet false (coreAt s b).full k
    let hart (t : State) : Prop := { (me t).kept with feCount := 0 } = { (me s).kept with feCount := 0 }
    (ready (u needRdWr) → reaches s needRdWr 8 true false (gr s a) = some (g, cls) → tabGet false (coreAt s c).full (fullKey w o) = true →
      ∃ t, exec (.ldfD a d) s = .next t ∧ GoesOn s t ((me s).pc + 4) ∧
        Wrote s t d (BitVec.ofNat 64 (memRead (u needRdWr).mem (performedAt (u needRdWr) g) 8)) ∧
        tabGet false (coreAt t c).full (fullKey w o) = false ∧ other t ∧ hart t ∧ (∀ x, byteAt t x = byteAt (u needRdWr) x) ∧
        t.kept = (u needRdWr).kept) ∧
    (ready (u needWr) → reaches s needWr 8 false true (gr s a) = some (g, cls) → tabGet false (coreAt s c).full (fullKey w o) = false →
      (myCore s).wq.length < 32 →
      ∃ t, exec (.steD b a) s = .next t ∧ GoesOn s t ((me s).pc + 4) ∧ (∀ r, gr t r = gr s r) ∧
        Stored (u needWr) t (performedAt (u needWr) g) 8 (gr s b).toNat ∧ tabGet false (coreAt t c).full (fullKey w o) = true ∧
        other t ∧ hart t ∧ { t.kept with mem := [] } = { (u needWr).kept with mem := [] })) ∧
  (∀ (s : State) (a n d : BitVec 5), Fenced s → n.toNat < 8 → (∀ k, mbWaits (hartAt s s.curCore k) n.toNat = false) →
    let others (t : State) : Prop := (∀ m, m ≠ n.toNat → (myCore t).mbFull.getLsbD m = (myCore s).mbFull.getLsbD m ∧
        vget (myCore t).mb m = vget (myCore s).mb m) ∧ (∀ b, byteAt t b = byteAt s b) ∧
      { (me t).kept with feCount := 0, latch := 0 } = { (me s).kept with feCount := 0, latch := 0 }
    ((myCore s).mbFull.getLsbD n.toNat = false →
      ∃ t, exec (.mbput a n) s = .next t ∧ GoesOn s t ((me s).pc + 4) ∧ vget (myCore t).mb n.toNat = gr s a ∧
        (myCore t).mbFull.getLsbD n.toNat = true ∧ (∀ r, gr t r = gr s r) ∧ others t) ∧
    ((myCore s).mbFull.getLsbD n.toNat = true →
      ∃ t, exec (.mbget n d) s = .next t ∧ GoesOn s t ((me s).pc + 4) ∧ Wrote s t d (vget (myCore s).mb n.toNat) ∧
        (myCore t).mbFull.getLsbD n.toNat = false ∧ others t))

/-- R251, R254, R255, R258, R259: an address that is not a multiple of the size traps MISALIGN with the address in XVAL; nothing is accessed.
R35: an address that no valid, well-formed descriptor covers, with EDIT 0, traps RANGE_MISS; a range without a right the access needs
(R27) traps RANGE_PERM; a block outside the resident window (R28) traps PARTIAL_RES; XVAL is the address. Translating touches no more than
range caches, slices, error records and lines recalled from cache ways; a range-cache hit touches only the order of its entries (R32).
R253, R254: a load at an unmapped offset, or of another size than 8 at a barrier object or a register, of this device or of another, traps
BUS_FAULT once it has translated; nothing is read. R51, R52, R71, R72, R74: a read of a DRAM line at its home, which is of the slice where
it holds the line, succeeds unless that line has an uncorrectable error there or the column's core bus failed; a correctable one is
counted and gone, and the line then stands in the slice; nothing beyond R51, R52 and R63 is touched. -/
def Obligations.AccessTraps : Prop :=
  (∀ (s : State) (i : Instr) (n : Nat) (va : BitVec 64),
    ((∃ f, loadForm s i = some f ∧ f.n = n ∧ f.va = va) ∨ (∃ f, storeForm s i = some f ∧ f.n = n ∧ f.va = va) ∨
     (∃ f, atomicForm s i = some f ∧ f.n = n ∧ f.va = va) ∨ (∃ f, reductionForm s i = some f ∧ f.n = n ∧ f.va = va) ∨
     (∃ a d, i = .ldfD a d ∧ n = 8 ∧ va = gr s a) ∨ (∃ b a, i = .steD b a ∧ n = 8 ∧ va = gr s a)) →
    va.toNat % n ≠ 0 → TakesTrap i s .misalign va) ∧
  (∀ (s : State) (i : Instr) (n : Nat) (va : BitVec 64) (rights : BitVec 5) (c : Cause),
    ((∃ f, loadForm s i = some f ∧ f.n = n ∧ f.va = va ∧ rights = needRd) ∨
     (∃ f, storeForm s i = some f ∧ f.n = n ∧ f.va = va ∧ rights = needWr) ∨
     (∃ f, atomicForm s i = some f ∧ f.n = n ∧ f.va = va ∧ rights = needAm) ∨
     (∃ f, reductionForm s i = some f ∧ f.n = n ∧ f.va = va ∧ rights = needRed)) →
    let u := translated s rights va
    HomeTouched s u ∧
    (∀ d es, rcLookup (myCore s).rcache (myCore s).job va.toNat = some (d, es) → u = setCore s s.curCore { myCore s with rcache := es }) ∧
    (va.toNat % n = 0 → Settled s → freezing s s.curCore c = false →
      (c = .rangeMiss ∧ (rcLookup (myCore s).rcache (myCore s).job va.toNat).isNone ∧
          (walkFrom (colOf s.curCore) (hdrOf (myCore s).rdbase) va.toNat s).isSome ∧
          (searchIdx s (hdrOf (myCore s).rdbase) va.toNat).toOption = some none ∧ dirEdit s (hdrOf (myCore s).rdbase) = false) ∨
        (∃ d es, rcLookup (myCore s).rcache (myCore s).job va.toNat = some (d, es) ∧
          let need := if isSys s then rights else rights ||| 8
          (c = .rangePerm ∧ d.perm &&& need ≠ need) ∨
          (c = .partialRes ∧ d.perm &&& need = need ∧ d.resident va.toNat = false)) →
      ∃ t, exec i s = .next t ∧ Entered s t c va false ∧ (myCore t).instret = (myCore s).instret ∧ RestKept u t)) ∧
  (∀ (s : State) (i : Instr) (f : LoadForm) (g cls : Nat), loadForm s i = some f → reaches s needRd f.n true false f.va = some (g, cls) →
    let u := translated s needRd f.va
    loadRefused s g f.n = true → freezing s s.curCore .busFault = false →
    ∃ t, exec i s = .next t ∧ Entered s t .busFault f.va false ∧ (myCore t).instret = (myCore s).instret ∧ RestKept u t) ∧
  (∀ (s : State) (col : Fin 8) (off g : Nat) (write : Bool),
    let c := colAt s col
    let ln := off / 64
    let held := c.inSlice off
    let ok : Bool := !c.vbstat.getLsbD 63 && !(if held then c.sliceBad.contains ln else c.bad.contains ln)
    let r := homeRead col off g write s
    let soft (k : Column) : List Nat := if held then k.sliceSoft else k.soft
    r.1 = ok ∧ HomeTouched s r.2 ∧ (∀ x, (coreAt r.2 x).rcache = (coreAt s x).rcache) ∧
    (ok = true → ((tabGet [] (colAt r.2 col).slices (sliceKey off)).head?.map (·.1)) = some ln ∧ ln ∉ soft (colAt r.2 col) ∧
      (((tabGet [] c.slices (sliceKey off)).filter fun e => e.1 != ln).length < 16 → c.cecnt.toNat + 1 < 2 ^ 32 →
        (colAt r.2 col).cecnt.toNat = c.cecnt.toNat + (if ln ∈ soft c then 1 else 0))) ∧
    (ok = false → r.2.mem = s.mem ∧ r.2.cores = s.cores ∧ (colAt r.2 col).errinfo.getLsbD 63 = true ∧
      (c.errinfo.getLsbD 63 = false → (colAt r.2 col).erraddr = BitVec.ofNat 64 (g / 64 * 64))))

/-! ## Ordering, waiting, system registers, traps -/

/-- R200, R201, R265: with nothing of the hart outstanding, no error held and no message outstanding, each ordering instruction completes: a
release, phase or fence at a scope above 0 clears the touched masks, at scope 0 they stay; an acquire or phase drops the L0 data cache, a
release or fence keeps it; no register, no memory byte and no other hart changes. R201: a release, phase or fence above scope 0 that finds
an error held traps BUS_FAULT with the address of the failed write, and the touched masks stay. -/
def Obligations.OrderingResults : Prop :=
  (∀ (s : State) (k : BitVec 3), Fenced s →
    (k = 0 ∨ nothingOut s s.curCore s.curSlot = true ∧ unroutable s (me s) = none ∧ (me s).unsent = none ∧ (me s).errAck = none) →
    let masks (h : Hart) : Hart := { h.kept with tsmask := 0, txmask := 0, fab := [], fabMany := false, probed := false, probes := 0, unsent := none }
    let does (i : Instr) (rel acq : Bool) : Prop := ∃ t, exec i s = .next t ∧ GoesOn s t ((me s).pc + 4) ∧ (∀ r, gr t r = gr s r) ∧
      (if rel = true ∧ k ≠ 0 then (me t).tsmask = 0 ∧ (me t).txmask = 0 ∧ (me t).fab = [] else
        (me t).tsmask = (me s).tsmask ∧ (me t).txmask = (me s).txmask ∧ (me t).fab = (me s).fab) ∧
      masks (me t) = masks (me s) ∧ (myCore t).l0d = (if acq then [] else (myCore s).l0d) ∧
      { (myCore t).kept with l0d := [] } = { (myCore s).kept with l0d := [] } ∧ OthersKept s t ∧ (∀ b, byteAt t b = byteAt s b) ∧
      t.kept = s.kept
    does (.rel k) true false ∧ does (.acq k) false true ∧ does (.phase k) true true ∧
    ((me s).msgsOut = 0 → (me s).dropped = [] → does (.fence k) true false) ∧
    (isVecHart s = true → does .vfence false false) ∧
    (isVecHart s = false → TakesTrap .vfence s .vown (BitVec.ofNat 64 (encodeWord .vfence)))) ∧
  (∀ (s : State) (k : BitVec 3) (va : BitVec 64) (i : Instr), i = .rel k ∨ i = .phase k ∨ i = .fence k → k ≠ 0 → Fenced s →
    freezing s s.curCore .busFault = false → nothingOut s s.curCore s.curSlot = true → (me s).errAck = some va →
    ∃ t, exec i s = .next t ∧ (me t).xcause = 8 ∧ (me t).xval = va ∧ (me t).xpc = (me s).pc.zeroExtend 64 &&& ~~~1 ∧
      (me t).pc = (me s).xbase.setWidth 48 &&& ~~~1 ∧ (me t).tsmask = (me s).tsmask ∧ (me t).txmask = (me s).txmask ∧
      (∀ r, gr t r = gr s r) ∧ RestKept s t)

/-- R267, R268: `barw` with its release covered arrives: its core's latch of the wire set is set and the hart parks with the time-out of BWTO;
where the generation of an earlier arrival of the core, which timed out, has completed since, it completes at once with 0, acquiring.
R269, R270, R394: `park` with a latched event completes at once, gives every latched event and clears them; with none it parks, with the
time-out of ga[31:0]; in the handler slot it traps HANDLER_BLOCK, whatever is latched (log entry 61); `waitt` in slot 6 completes when no
named token is BUSY or in ERROR, and elsewhere traps SLOT. -/
def Obligations.WaitingInstructions : Prop :=
  (∀ (s : State) (w : Nat) (d : BitVec 5), w < 3 → Fenced s → s.curSlot ≠ 7 → nothingOut s s.curCore s.curSlot = true →
    unroutable s (me s) = none → (me s).unsent = none → (me s).errAck = none →
    ((myCore s).latchDone.getLsbD w = true → ∃ t, exec (.barw (BitVec.ofNat 5 w) d) s = .next t ∧ GoesOn s t ((me s).pc + 4) ∧ Wrote s t d 0 ∧
      (myCore t).l0d = [] ∧ (myCore t).latchDone = (myCore s).latchDone &&& ~~~(1#3 <<< w) ∧ (myCore t).latchSet = (myCore s).latchSet ∧
      (∀ b, byteAt t b = byteAt s b) ∧ OthersKept s t) ∧
    ((myCore s).latchDone.getLsbD w = false → ∃ t, exec (.barw (BitVec.ofNat 5 w) d) s = .next t ∧ (me t).st = .parked ∧ (me t).wait = .wires w d ∧ (me t).pc = (me s).pc ∧
      (myCore t).latchSet = (myCore s).latchSet ||| (1#3 <<< w) ∧
      (me t).timer = (if (me s).bwto.toNat % 2 ^ 32 = 0 then none else some (s.clock + (me s).bwto.toNat % 2 ^ 32)) ∧
      (∀ r, gr t r = gr s r) ∧ (∀ b, byteAt t b = byteAt s b) ∧ OthersKept s t)) ∧
  (∀ (s : State) (a d : BitVec 5), Fenced s →
    (s.curSlot = 7 → TakesTrap (.park a d) s .handlerBlock (BitVec.ofNat 64 (encodeWord (.park a d)))) ∧
    ((me s).latch ≠ 0 → s.curSlot ≠ 7 → ∃ t, exec (.park a d) s = .next t ∧ GoesOn s t ((me s).pc + 4) ∧ Wrote s t d ((me s).latch.zeroExtend 64) ∧
      (me t).latch = 0 ∧ { (me t).kept with latch := 0 } = { (me s).kept with latch := 0 } ∧ RestKept s t) ∧
    ((me s).latch = 0 → s.curSlot ≠ 7 → ∃ t, exec (.park a d) s = .next t ∧ (me t).st = .parked ∧ (me t).wait = .park ∧
      (me t).pc = (me s).pc ∧ (∀ r, gr t r = gr s r) ∧ ((gr s a).toNat % 2 ^ 32 = 0 → (me t).timer = none) ∧
      ((gr s a).toNat % 2 ^ 32 ≠ 0 → (me s).timer = none → (me t).timer = some (s.clock + (gr s a).toNat % 2 ^ 32)) ∧ RestKept s t) ∧
    (s.curSlot = 6 → (∀ n : Fin 8, (gr s a).getLsbD n.val = true → (myCore s).tok.get n = 0) → Results (.waitt a) s 0 0 ((me s).pc + 4)) ∧
    (s.curSlot ≠ 6 → TakesTrap (.waitt a) s .slot (BitVec.ofNat 64 (encodeWord (.waitt a)))))

/-- R146 to R148, R414: `mfs` of a register of a hart, of its core or, by the settled vector hart, of the vector context gives the register
and changes nothing. R2, R3, R147, R148, R414: `mts` sets the writable bits of a register and leaves its reserved bits 0; the g registers,
every other system register of the hart and its core, memory and every other hart and core are as before. -/
def Obligations.SystemRegisterAccess : Prop :=
  (∀ (s : State) (d : BitVec 5), Settled s →
    let h := me s
    let q := myCore s
    let v := q.vec
    (∀ p ∈ [(0x10, cycOf s q), (0x11, q.instret), (0x12, q.speccnt), (0x14, h.tsmask), (0x15, h.txmask), (0x16, h.bwto), (0x17, h.geps),
        (0x18, h.fstat), (0xC1, q.mbFull.zeroExtend 64), (0xC2, 0), (0xC4, h.feretry), (0xE0, hartId s s.curCore s.curSlot)],
      Gives (.mfs (BitVec.ofNat 12 p.1) d) s 4 d p.2) ∧
    (isSys s = true → ∀ p ∈ [(0x800, h.xpc), (0x801, h.xcause), (0x802, h.xval), (0x803, h.xstat), (0x804, h.xbase), (0x805, h.xscratch),
        (0x806, h.xconv), (0x810, q.ctxjob), (0x811, q.ctxlc), (0x820, q.dbgctl), (0x821, h.dstep), (0x822, h.dconv), (0x840, q.smpctl),
        (0x841, q.smpbase), (0x8C0, q.rdbase)], Gives (.mfs (BitVec.ofNat 12 p.1) d) s 4 d p.2) ∧
    (isVecHart s = true → ∀ p ∈ [(0, v.vl), (1, v.vtype), (2, v.vstart), (3, v.vflags), (4, v.vdirty), (8, v.mstat)],
      Gives (.mfs (BitVec.ofNat 12 p.1) d) s 4 d p.2) ∧
    (∀ n : Fin 16, Gives (.mfs (BitVec.ofNat 12 (0xD0 + n.val)) d) s 4 d (q.bfmt.get n)) ∧
    (∀ n : Fin 8, Gives (.mfs (BitVec.ofNat 12 (0xB0 + n.val)) d) s 4 d (q.cstart.get n) ∧
      Gives (.mfs (BitVec.ofNat 12 (0xB8 + n.val)) d) s 4 d (q.cpc.get n)) ∧
    (isVecHart s = true → ∀ n : Fin 32, Gives (.mfs (BitVec.ofNat 12 (0x20 + n.val)) d) s 4 d (v.vpi.get n) ∧
      Gives (.mfs (BitVec.ofNat 12 (0x40 + n.val)) d) s 4 d (v.vhw.get n))) ∧
  (∀ (s : State) (a : BitVec 5) (n : Nat) (mask : BitVec 64), Settled s →
    ((n, mask) ∈ [(0x16, 0xFFFFFFFF), (0x17, 0xFFFFFFFF), (0x18, 0x71F), (0xC4, 0xFFFF)] ∨
     isSys s = true ∧ (n, mask) ∈ [(0x800, 0xFFFFFFFFFFFE), (0x801, 0xFF), (0x802, 0xFFFFFFFFFFFFFFFF), (0x804, 0xFFFFFFFFFFFE),
       (0x805, 0xFFFFFFFFFFFFFFFF), (0x806, 0x770FFFFFFFFFFFFF), (0x811, 0xFFFFF), (0x820, 0x8000000003FFFFFE),
       (0x841, 0x00FFFFFFFFFFF00F), (0x8C0, 0x00FFFFFFFFFFFFC0)] ∨
     isSys s = true ∧ (∃ k < 7, n = 0x808 + k ∧ mask = 0xFFFFFFFFFFFE) ∨
     isSys s = true ∧ (∃ k < 4, n = 0x830 + 2 * k ∧ mask = 0xFFFFFFFFFFFFFFFF ∨ n = 0x831 + 2 * k ∧ mask = 0x800000000000073F) ∨
     (∃ k < 16, n = 0xD0 + k ∧ mask = 0x3FFFF00FF001F) ∨
     s.curSlot = 6 ∧ (∃ k < 8, n = 0xB0 + k ∧ mask = 0xFF00FFFFFFFFFFFF ∨ n = 0xB8 + k ∧ mask = 0xFFFFFFFFFFFF) ∨
     isVecHart s = true ∧ (n, mask) ∈ [(2, 0x3FFFFFF), (3, 0x3F)]) →
    ∃ t, exec (.mts (BitVec.ofNat 12 n) a) s = .next t ∧ GoesOn s t ((me s).pc + 4) ∧
      sysGet t t.curCore t.curSlot n = some (gr s a &&& mask) ∧
      (∀ m, m < 4096 → m ≠ n → m ≠ 0x11 → (m = 0xE0 → n ≠ 0x811) → sysGet t t.curCore t.curSlot m = sysGet s s.curCore s.curSlot m) ∧
      (∀ r, gr t r = gr s r) ∧ OthersKept s t ∧ (∀ b, byteAt t b = byteAt s b) ∧ t.kept = s.kept)

/-- R6, R146, R413, R416, R425: at user level a register number with bit 11 set and every privileged instruction trap PRIV, with the word in
XVAL, and have no other effect. R133, R146, R218: an unassigned register number and an unassigned word trap ILLEGAL_OP; a register of the
vector context traps VOWN unless the hart is the vector hart, and through the privileged view while the context is unbound, but in the
handler slot; XVAL holds the word. -/
def Obligations.AccessRightTraps : Prop :=
  (∀ (s : State) (n : BitVec 12) (a b d : BitVec 5), isSys s = false →
    let traps (i : Instr) : Prop := TakesTrap i s .priv (BitVec.ofNat 64 (encodeWord i))
    (n.getLsbD 11 = true → traps (.mfs n d) ∧ traps (.mts n a)) ∧
    traps .xret ∧ traps (.savev a d) ∧ traps (.rstv a d) ∧ traps (.migrate b a d) ∧ traps (.fwdclr b a) ∧ traps (.nfall a)) ∧
  (∀ (s : State) (n : BitVec 12) (a d : BitVec 5) (w : BitVec 32),
    TakesTrap (.illegalOp w) s .illegalOp (w.zeroExtend 64) ∧
    (n.getLsbD 11 = false → sysGet s s.curCore s.curSlot n.toNat = none →
      TakesTrap (.mfs n d) s .illegalOp (BitVec.ofNat 64 (encodeWord (.mfs n d))) ∧
      TakesTrap (.mts n a) s .illegalOp (BitVec.ofNat 64 (encodeWord (.mts n a)))) ∧
    ((n.toNat ≤ 5 ∨ n.toNat = 8 ∨ 0x20 ≤ n.toNat ∧ n.toNat < 0x60) →
      (isVecHart s = false → TakesTrap (.mfs n d) s .vown (BitVec.ofNat 64 (encodeWord (.mfs n d))) ∧
        TakesTrap (.mts n a) s .vown (BitVec.ofNat 64 (encodeWord (.mts n a)))) ∧
      (isSys s = true → (myCore s).vec.bound = false → s.curSlot ≠ 7 →
        TakesTrap (.mfs (0xA00 + n) d) s .vown (BitVec.ofNat 64 (encodeWord (.mfs (0xA00 + n) d))) ∧
        TakesTrap (.mts (0xA00 + n) a) s .vown (BitVec.ofNat 64 (encodeWord (.mts (0xA00 + n) a))))))

/-- R397, R415, R425: `trap` raises SYSCALL and `brk` BREAK: the PC and the privilege are saved, system level is entered, and the hart goes to
XBASE. R427, R430: a freezing trap saves as every trap does but does not vector: the hart is FROZEN at its PC with PEND set; NIGHT is set,
and every core of the job is sent the wave. -/
def Obligations.TrapEntry : Prop :=
  (∀ (s : State) (n : BitVec 12) (c : BitVec 5),
    TakesTrap (.trap n) s .syscall (n.zeroExtend 64) ∧ TakesTrap (.brk c) s .brk (c.zeroExtend 64)) ∧
  (∀ (s : State) (n : BitVec 12), Settled s → freezing s s.curCore .syscall = true →
    ∃ t, exec (.trap n) s = .next t ∧ (me t).st = .frozen ∧ (me t).pc = (me s).pc ∧ (me t).dstep.getLsbD 1 = true ∧
      (me t).xpc = (me s).pc.zeroExtend 64 &&& ~~~1 ∧ (me t).xcause = 0x0E ∧ (me t).xval = n.zeroExtend 64 ∧
      (me t).xstat.getLsbD 0 = (me s).xstat.getLsbD 0 ∧ (me t).xstat.getLsbD 1 = (me s).xstat.getLsbD 0 ∧
      (∀ r, gr t r = gr s r) ∧ t.night.nfstat.getLsbD 63 = true ∧
      (∀ c, (coreAt s c).job = (myCore s).job → (∃ v, (c, v) ∈ s.cores) → (coreAt t c).wave = !(coreAt s c).night) ∧
      ∀ b, byteAt t b = byteAt s b)

/-- R416: `xret` at system level restores the PC and the privilege and changes no other register. R399, R425, R427: `nfall` at system level,
none of the hart's vector commands outstanding, freezes the hart after it, with PEND 0, and starts a wave whatever FRZ holds. -/
def Obligations.TrapReturnAndNightfall : Prop :=
  (∀ s : State, isSys s = true → Fenced s →
    ∃ t, exec .xret s = .next t ∧ GoesOn s t ((me s).xpc.setWidth 48 &&& ~~~1) ∧ (∀ r, gr t r = gr s r) ∧
      (me t).xstat = ((me s).xstat &&& ~~~1) ||| (if (me s).xstat.getLsbD 1 then 1 else 0) ∧
      { (me t).kept with xstat := 0, replayed := 0 } = { (me s).kept with xstat := 0, replayed := 0 } ∧ RestKept s t) ∧
  (∀ (s : State) (a : BitVec 5), isSys s = true → Fenced s →
    ∃ t, exec (.nfall a) s = .next t ∧ (me t).st = .frozen ∧ (me t).back = .ready ∧ (me t).pc = (me s).pc + 4 ∧
      (me t).dstep = (me s).dstep &&& ~~~2 ∧ (∀ r, gr t r = gr s r) ∧ t.night.nfstat.getLsbD 63 = true ∧
      (s.night.nfstat.getLsbD 63 = false → t.night.nfcause.extractLsb' 32 8 = (gr s a).setWidth 8 ∧
        t.night.nfstat.setWidth 16 = 1#16 ∧ t.boot.intstat.getLsbD 1 = true) ∧
      (∀ b, byteAt t b = byteAt s b))

/-! ## Reset, decoding, a step, memory -/

/-- R4, R131, R147, R148: at cold reset every slot is IDLE and the registers hold the values that the spec's tables give; barrier objects, the
range compactor and the ways are zero (R77), and the upper layer is on (R80). Not stated here: the registers without a Reset value, and
DRAM, which the model fills as log entries 7 and 1 say. -/
def Obligations.ResetState : Prop :=
  ∀ (c : Fin 2048) (k col : Fin 8),
    (hartAt State.reset c k).st = .idle ∧
    (∀ p ∈ [((0x000 : Nat), (0 : BitVec 64)), (0x001, 1#64 <<< 63), (0x002, 0), (0x003, 0), (0x004, 0), (0x005, 0), (0x008, 0), (0x010, 0), (0x011, 0),
        (0x012, 0), (0x014, 0), (0x015, 0), (0x016, 65536), (0x017, 0x34000000), (0x018, 0), (0x0C4, 1024), (0x0E1, 0), (0x0E2, 0),
        (0x800, 0), (0x801, 0), (0x802, 0), (0x803, 1), (0x804, 0), (0x805, 0), (0x810, 0), (0x811, 0)],
      sysGet State.reset c k p.1 = some p.2) ∧
    (∀ n < 32, sysGet State.reset c k (0x20 + n) = some 0 ∧ sysGet State.reset c k (0x40 + n) = some 0) ∧
    (∀ n < 16, sysGet State.reset c k (0xD0 + n) = some 0x1F) ∧
    (colAt State.reset col).layerctl = 3 ∧ (colAt State.reset col).bars = [] ∧ (colAt State.reset col).cmpctl = 0 ∧
    (∀ w b, byteAt State.reset (bankGpa State.reset c w b) = 0)

/-- Memory at State.reset has the canonical form that the invariant of the next statement speaks of. What it then reads as is the model's
choice where R77 leaves it undefined (log entry 1). -/
def Obligations.ResetMemoryCanonical : Prop :=  State.reset.memOk

/-- R192, R193 (derived): whatever step the machine takes, from any state at all, memory keeps its canonical form: addresses strictly rising,
no byte listed that an unlisted address reads as (log entry 1). -/
def Obligations.MemoryCanonicalKept : Prop :=   ∀ s t : State, s.memOk → step s = .next t → t.memOk

/-- R216, R218, R220 to R230: decoding the bytes of any well-formed instruction, whatever its operands, gives that instruction and the length
R216 gives it. -/
def Obligations.DecodeEncode : Prop :=
  ∀ i : Instr, i.wf = true → encodeBits i ≠ 0 → decode (encode i) = .ok (i, encodeBits i / 8)

/-- R218: majors 0x08 to 0x0F, 0x1B, 0x2F, 0x33 to 0x37, 0x3B and 0x3F have no instruction, whatever the other bits of the word. Words written
out bit by bit from R220 to R230 and the instruction each stands for, one or two of every family. -/
def Obligations.WordsDecode : Prop :=
  (∀ w : BitVec 32, w.getLsbD 0 = true →
    w.extractLsb' 1 6 ∈ [0x08#6, 0x09#6, 0x0A#6, 0x0B#6, 0x0C#6, 0x0D#6, 0x0E#6, 0x0F#6, 0x1B#6, 0x2F#6, 0x33#6, 0x34#6, 0x35#6, 0x36#6,
      0x37#6, 0x3B#6, 0x3F#6] →
    ∃ e, decode (leBytes 4 w.toNat) = .error e) ∧
  (∀ p ∈ [(0x084A91C1, Instr.vaddVx 0 0 0 1 5 9 3), (0xA1082443, .vxorVv 2 1 0 0 4 2 8), (0x2006B557, .vsetli 3 11 10),
      (0x02CC0053, .vtree 0 0 6 0 0), (0x346C9A59, .mrd 0 17 22 9 20), (0x0014905B, .mopa 10 9), (0x6020A425, .ldDC 16 10 8),
      (0x1FF80331, .beq 0xFFC 0 6), (0x00CAC4AB, .amadd 1 5 12 9), (0x40080039, .rel 4), (0x0000043B, .barw 0 8), (0x00C0003F, .endI),
      (0x0000043D, .mfs 0 8), (0x400E003D, .trap 7), (0x6000003D, .xret), (0x4000007D, .brk 0)],
    decodeTableWord 32 p.1 = some p.2)

/-- R216 to R219, R386 (derived; the agenda is log entry 5's): a step of core c, whose slot k wins, which meets no execute region and whose
fetched bytes decode to instruction i, is the execution of i; bytes that decode to none are ILLEGAL_OP with their word. What the step adds
around it: an s-cycle passes, the issue is noted, and a stepped slot begins, goes on with or ends its unit. A hart whose convoy owes it a
scalar register (R296) waits at an instruction that is no vector command and no `vsetl`; one that stands at a block-port instruction takes
the next access of it (R348). A slot whose step unit has completed an instruction runs the next if that belongs to the unit, and otherwise
halts, where the debug module steps, or traps STEP with XPC the next instruction and XVAL the address of the unit's head, once no command
is outstanding (R426, R436; the bounds of a unit are log entry 80's). -/
def Obligations.StepRunsDecoded : Prop :=
  ∀ (s u : State) (c : Fin 2048) (k : Fin 8) (rest : List Act),
    s.agenda = .core c :: rest → u = { advance 1 { s with agenda := rest } with lastCore := c.val } →
    pickSlot (advance 1 { s with agenda := rest }) c = some k →
    let h := hartAt u c k
    let v : State := { u with curCore := c, curSlot := k }
    let runs (x : State) : Prop :=
      let ends (o : Out) : Out := match o with
        | .next v => .next (endUnit c k v)
        | o => o
      (h.atPort = true → step s = ends (portTurn x)) ∧
      (h.atPort = false → execMatch (myCore x) (pc64 x).toNat = none →
        ∀ (t : State) (bs : List (BitVec 8)), fetchBytes x = .ok bs t →
          (awaitsScalar bs t = true → step s = .next (endUnit c k t)) ∧
          (∀ i n, decode bs = .ok (i, n) → awaitsScalar bs t = false → needsPort i t = false → step s = ends (exec i t)) ∧
          (∀ e, decode bs = .error e → awaitsScalar bs t = false → needsPort (.illegalOp (wordOf bs)) t = false →
            step s = ends (exec (.illegalOp (wordOf bs)) t)))
    (h.unitOver = false → runs (issuing c k u)) ∧
    (h.unitOver = true → unitTakes v = true → runs (unitOn c k u)) ∧
    (h.unitOver = true → unitTakes v = false → (isVecHart v = true → (myCore v).quiet = true) →
      (h.dbgStep = true → h.st = .ready → ∃ t, step s = .next t ∧ (hartAt t c k).st = .halted ∧ (hartAt t c k).back = .ready ∧
        (hartAt t c k).dbgStep = false ∧ (hartAt t c k).pc = h.pc ∧ (∀ r, (hartAt t c k).gr r = h.gr r) ∧ t.mem = s.mem) ∧
      (h.dbgStep = false → freezing v c .step = false → ∃ t, step s = .next t ∧ (hartAt t c k).xcause = 0x0D ∧
        (hartAt t c k).xval = (h.stepHead.getD h.pc).zeroExtend 64 ∧ (hartAt t c k).xpc = h.pc.zeroExtend 64 &&& ~~~1 ∧
        (hartAt t c k).sys = true ∧ (hartAt t c k).pc = (h.xbase.setWidth 48 &&& ~~~1) ∧ (∀ r, (hartAt t c k).gr r = h.gr r) ∧ t.mem = s.mem))

/-! ## Vector instructions -/

/-- R285, R290 to R301: an element instruction writes each active element with its operation's value on the source elements, the scalar or the
replicated segment, and no other; flags are accumulated in VFLAGS; VPI of the destination becomes VL; no g register, no other vector
register, no byte of memory changes. Under RSR each lane rounds by its own draw, at most one element a lane. R181, R281: where commands
queue, the hart goes on at once: the instruction changes its PC, VSTART and the replay record, and puts the command, with what it
captured, into the convoy; the results above are those of the convoy's turns. -/
def Obligations.VectorElementResults : Prop :=
  ∀ (s : State) (i : Instr) (f : VForm), elemForm i = some f → f.runs s = true → f.op ≠ .seed → f.op ≠ .rng →
    ((f.op.rounds && (f.cmd s).rm == 5) = true → (f.cmd s).vl ≤ (myCore s).glanes) →
    let c := f.cmd s
    let act := c.actives s s.curCore c.vstart c.vl
    let v := (myCore s).vec
    (queues s = true → ∃ u c', exec i s = .next u ∧ (me u).pc = (me s).pc + 4 ∧ ((me s).st = .ready → (me u).st = .ready) ∧
      (myCore u).vec.convoy = [c'] ∧ { c' with word := 0 } = c ∧
      { (myCore u).vec with convoy := [], ended := false, vstart := 0 } = { v with convoy := [], ended := false, vstart := 0 } ∧
      (myCore u).vec.vstart = 0 ∧ (myCore u).instret = (myCore s).instret ∧ (∀ r, gr u r = gr s r) ∧
      VecRest s { u with cores := tabPut u.cores s.curCore { myCore u with vec := v } } (fun _ => True)) ∧
    ∃ t, f.comesTo i s t ∧ VecGoesOn s t ∧ VecRest s t (f.outside s) ∧ (∀ r, gr t r = gr s r) ∧
      f.writes s t (fun e => if e ∈ act then some (f.value s e).1 else none) ∧
      (myCore t).vec.vflags = act.foldl (fun x e => x ||| (f.value s e).2.zeroExtend 64) v.vflags ∧
      (myCore t).vec.vpi = (if f.op.dst.isSome ∧ act ≠ [] then vput v.vpi f.vd.toNat (BitVec.ofNat 64 c.vl) else v.vpi) ∧
      ((f.op.rounds && c.rm == 5) = false → VecStill s t)

/-- R149, R291, R293, R294: on elements of width w without a plane view, the integer operations are those of w-bit words: wrapping sum,
difference and product, the high half of the product, division truncated with quotient −1 and remainder x on a zero divisor, minimum,
maximum, saturating sum and difference with SAT exactly when they saturate, the logical operations, shifts by the count modulo w, and the
compares. -/
def Obligations.IntegerElementValues : Prop :=
  ∀ (t : BitVec 64) (w : Nat) (sc b : Bool) (e r : Nat) (X Y : BitVec w), vtSew t = w → w ≤ 64 → vtPl t = 0 →
    let x : BitVec 64 := X.setWidth 64
    let y : BitVec 64 := Y.setWidth 64
    let is (o : VOp) (z : BitVec w) : Prop := elemOp o t sc e b r x y = (z.setWidth 64, 0)
    let bit (p : Bool) : BitVec 64 := if p then 1 else 0
    let holds (o : VOp) (p : Bool) : Prop := elemOp o t sc e b r x y = (bit p, 0)
    let sat (o : VOp) (v lo hi : Int) : Prop :=
      elemOp o t sc e b r x y = ((BitVec.ofInt w (max lo (min hi v))).setWidth 64, if v < lo ∨ hi < v then fSAT else 0)
    is .add (X + Y) ∧ is .sub (X - Y) ∧ is .rsub (Y - X) ∧ is .mul (X * Y) ∧ is .and (X &&& Y) ∧ is .or (X ||| Y) ∧ is .xor (X ^^^ Y) ∧
    is .andn (X &&& ~~~Y) ∧ is .not (~~~X) ∧ is .shl (X <<< (Y.toNat % w)) ∧ is .shr (X >>> (Y.toNat % w)) ∧
    is .sra (X.sshiftRight (Y.toNat % w)) ∧ holds .seq (X == Y) ∧ holds .sne (X != Y) ∧
    (vtUns t = false →
      is .mulh (BitVec.ofInt w (X.toInt * Y.toInt / 2 ^ w)) ∧ is .div (if Y = 0 then BitVec.allOnes w else X.sdiv Y) ∧
      is .rem (if Y = 0 then X else X.srem Y) ∧ is .min (if X.sle Y then X else Y) ∧ is .max (if X.sle Y then Y else X) ∧
      holds .slt (X.slt Y) ∧ holds .sle (X.sle Y) ∧ holds .sgt (Y.slt X) ∧ holds .sge (Y.sle X) ∧
      sat .sadd (X.toInt + Y.toInt) (-(2 ^ (w - 1))) (2 ^ (w - 1) - 1) ∧ sat .ssub (X.toInt - Y.toInt) (-(2 ^ (w - 1))) (2 ^ (w - 1) - 1)) ∧
    (vtUns t = true →
      is .mulh (BitVec.ofNat w (X.toNat * Y.toNat / 2 ^ w)) ∧ is .div (if Y = 0 then BitVec.allOnes w else X / Y) ∧
      is .rem (if Y = 0 then X else X % Y) ∧ is .min (if X ≤ Y then X else Y) ∧ is .max (if X ≤ Y then Y else X) ∧
      holds .slt (X.ult Y) ∧ holds .sle (X.ule Y) ∧ holds .sgt (Y.ult X) ∧ holds .sge (Y.ule X) ∧
      sat .sadd (X.toNat + Y.toNat) 0 (2 ^ w - 1) ∧ sat .ssub ((X.toNat : Int) - Y.toNat) 0 (2 ^ w - 1))

/-- R166, R279 to R281, R296, R302: `vsetl` and `vsetli` write VTYPE, or the invalid type, VL := min(ga, VLMAX), VSTART := 0 and gd := VL, and
end the convoy without waiting for it, but for a `vcompress` or a scalar register that they name still to come; `vmv.xs` writes gd with
element 0, extended; `vrng` writes each active element with the top bits of its lane's advanced state; `vseed` sets the state of each
active lane. R133, R280, R288, R304, R305: a vector instruction of majors 0x20 to 0x2B traps VOWN on any hart but the vector hart; the
tree transfer traps MMODE in matrix mode; VCFG refuses a command before any element, VSTART its restart point. R129, R139, R285, R319,
R320: at a stop, the elements below the one that stops are performed, and it and the later ones are not: an element instruction stops with
LAYER_OFF at its first active element whose lane lies in an unpowered way, a vector memory instruction with MISALIGN, the fault of its
range, PRIV or BUS_FAULT at its first active element that fails a check. VSTART is that element, and XSTAT.VEC is set. -/
def Obligations.VectorControlResults : Prop :=
  (∀ s : State, isVecHart s = true →
    let q := myCore s
    (cmdHeld s = false → (∀ c ∈ q.vec.convoy, c.op = .compress → c.finished = true) → ∀ (i : Instr) (ty n : BitVec 64) (d : BitVec 5),
      d ∉ q.owed → (∃ a b, i = .vsetl b a d ∧ a ∉ q.owed ∧ b ∉ q.owed ∧ ty = gr s b ∧ n = gr s a) ∨
        (∃ a m, i = .vsetli m a d ∧ a ∉ q.owed ∧ n = gr s a ∧ ty = (m.setWidth 4).zeroExtend 64 ||| ((m.extractLsb' 4 2).zeroExtend 64 <<< 4) |||
          ((m.extractLsb' 6 1).zeroExtend 64 <<< 7) ||| ((m.extractLsb' 7 3).zeroExtend 64 <<< 8) ||| ((m.extractLsb' 10 2).zeroExtend 64 <<< 12)) →
      let ok := ty &&& ~~~(0x37FF#64) = 0 ∧ vtOk ty = true
      let vl := if ok then BitVec.ofNat 64 (min n.toNat (vlmaxOf q.glanes ty)) else 0
      ∃ t, exec i s = .next t ∧ VecGoesOn s t ∧ Wrote s t d vl ∧ (myCore t).vec.vl = vl ∧
        (myCore t).vec.vtype = (if ok then ty else 1#64 <<< 63) ∧ (myCore t).vec.convoy = q.vec.convoy ∧ (myCore t).vec.ended = true ∧
        (myCore t).vec.dtu = q.vec.dtu ∧ (myCore t).vec.v = q.vec.v ∧ (myCore t).vec.vpi = q.vec.vpi ∧
        (myCore t).vec.vhw = q.vec.vhw ∧ (myCore t).vec.vdirty = q.vec.vdirty ∧ (me t).vecKept = (me s).vecKept ∧ OthersKept s t ∧
        (∀ a, byteAt t a = byteAt s a) ∧ t.kept = s.kept) ∧
    (∀ (r d : BitVec 5), let f : VForm := ⟨.mvxs, true, d, r, 0, false, 0, 0⟩
      f.runs s = true →
      let w := vtSew q.vec.vtype
      let x := vElem s w r 0
      ∃ t, f.comesTo (.vmvXs r d) s t ∧ GoesOn s t ((me s).pc + 4) ∧ VecRest s t (fun _ => True) ∧ VecStill s t ∧
        (myCore t).vec.vstart = q.vec.vstart ∧
        Wrote s t d (if vtUns q.vec.vtype then BitVec.ofNat 64 (x.toNat % 2 ^ w) else BitVec.ofInt 64 (BitVec.ofNat w x.toNat).toInt)) ∧
    (∀ (i : Instr) (f : VForm), elemForm i = some f → f.runs s = true → (f.cmd s).vl ≤ q.glanes →
      let c := f.cmd s
      let act := c.actives s s.curCore c.vstart c.vl
      let live (x : BitVec 64) : BitVec 64 := if x = 0 then vrsSeed else x
      (f.op = .rng → ∃ t, f.comesTo i s t ∧ VecGoesOn s t ∧ VecRest s t (f.outside s) ∧ (∀ r, gr t r = gr s r) ∧
        (∀ l < q.glanes, vrsGet t s.curCore l = if l ∈ act then live (vrsStep (vrsGet s s.curCore l)) else vrsGet s s.curCore l) ∧
        f.writes s t (fun e => if e ∈ act then some (live (vrsStep (vrsGet s s.curCore e)) >>> (64 - c.sew)) else none)) ∧
      (f.op = .seed → ∃ t, f.comesTo i s t ∧ VecGoesOn s t ∧ VecRest s t (fun _ => True) ∧ (∀ r, gr t r = gr s r) ∧
        (∀ l < q.glanes, vrsGet t s.curCore l =
          if l ∈ act then live (gr s f.vs1 ^^^ (BitVec.ofNat 64 l * vrsSeed)) else vrsGet s s.curCore l)))) ∧
  (∀ (s : State) (i : Instr),
    let word := BitVec.ofNat 64 (encodeWord i)
    (((vecForm i).isSome = true ∨ (∃ b a d, i = .vsetl b a d) ∨ ∃ n a d, i = .vsetli n a d) → isVecHart s = false → TakesTrap i s .vown word) ∧
    (∀ f, vecForm i = some f →
      let c := f.cmd s
      let act := c.actives s s.curCore c.vstart c.vl
      let below (e : Nat) : List Nat := act.filter (· < e)
      let refusedBy (z : Cause) : Prop := freezing s s.curCore z = false → ∃ t, exec i s = .next t ∧ Entered s t z word true ∧
        (myCore t).vec = { (myCore s).vec with vstart := BitVec.ofNat 64 c.vstart } ∧
        { (myCore t).kept with vec := (myCore s).vec } = (myCore s).kept ∧ (myCore t).instret = (myCore s).instret ∧ OthersKept s t ∧
        (∀ a, byteAt t a = byteAt s a) ∧ t.kept = s.kept
      (f.op ∈ [VOp.tree, .ftree, .treeseg, .ftreeseg] → isVecHart s = true → (myCore s).quiet = true → cmdHeld s = false → (myCore s).mm = true →
        refusedBy .mmode) ∧
      (f.issues s = true → f.refused s → refusedBy .vcfg) ∧
      (elemForm i = some f → f.issues s = true → f.legal s = true → f.op ≠ .seed → f.op ≠ .rng → (f.op.rounds && c.rm == 5) = false →
        freezing s s.curCore .layerOff = false → ∀ e ∈ act, laneOff s s.curCore (e % (myCore s).glanes) = true →
        (∀ x ∈ below e, laneOff s s.curCore (x % (myCore s).glanes) = false) →
        ∃ t, f.comesTo i s t ∧ VecStopped s t e .layerOff (BitVec.ofNat 64 e) ∧ VecStopRest s t (f.outside s) ∧
          f.writes s t (fun x => if x ∈ below e then some (f.value s x).1 else none) ∧
          (myCore t).vec.vflags = (below e).foldl (fun y x => y ||| (f.value s x).2.zeroExtend 64) (myCore s).vec.vflags ∧
          (myCore t).vec.vpi = (if f.op.dst.isSome ∧ below e ≠ [] then vput (myCore s).vec.vpi f.vd.toNat (BitVec.ofNat 64 e) else (myCore s).vec.vpi)) ∧
      (vmemForm i = some f → s.memOk → f.ready s = true → ∀ e ∈ act, ∀ z x, f.failsAt s e = some (z, x) →
        f.placed s (fun y => decide (y < e)) = true → freezing s s.curCore z = false → (f.op.isStore = true → (below e).length ≤ 32) →
        ∃ w t, f.comesTo i s t ∧ HomeTouched s w ∧ (f.op.isStore = true → w = s) ∧ VecStopped s t e z x ∧ VecStopRest w t (f.outside s) ∧
          f.memDone s t (fun y => decide (y < e)))))

/-- R173, R308, R309: a scalar reduction writes gd with its initial value combined with every active element: the sum modulo 2^SEW, the
extreme, the bitwise fold, or the floating-point tree; `vredmini` and `vredmaxi` write the extreme and the lowest index it has. R173,
R310, R311: a segmented reduction writes element j of vd with segment j's result, the tree transfer adds the sum of the row, or of each
segment, into the cells of row i of `acc`: saturated to INT32 with MSAT, or rounded to f32. -/
def Obligations.ReductionResults : Prop :=
  (∀ (s : State) (i : Instr) (f : VForm), crossForm i = some f → f.runs s = true →
    let c := f.cmd s
    let w := c.sew
    let uns := c.uns
    let vals := (f.taken s).map (·.2)
    let x := cutBits w (gr s f.vs1)
    let out (v : BitVec 64) : BitVec 64 := BitVec.ofInt 64 (intOf uns w v)
    let gives (v : BitVec 64) (fl : Flags) : Prop :=
      ∃ t, f.comesTo i s t ∧ VecGoesOn s t ∧ VecRest s t (fun _ => True) ∧ VecStill s t ∧ Wrote s t f.vd v ∧
        (myCore t).vec.vflags = (myCore s).vec.vflags ||| fl.zeroExtend 64
    (f.op = .redsum → gives (out (BitVec.ofNat 64 ((x.toNat + (vals.map (·.toNat)).sum) % 2 ^ w))) 0) ∧
    (f.op = .redmin → ∃ m ∈ x :: vals, (∀ y ∈ x :: vals, intOf uns w m ≤ intOf uns w y) ∧ gives (out m) 0) ∧
    (f.op = .redmax → ∃ m ∈ x :: vals, (∀ y ∈ x :: vals, intOf uns w y ≤ intOf uns w m) ∧ gives (out m) 0) ∧
    (f.op = .redand → gives (out (vals.foldl (· &&& ·) x)) 0) ∧ (f.op = .redor → gives (out (vals.foldl (· ||| ·) x)) 0) ∧
    (f.op = .redxor → gives (out (vals.foldl (· ^^^ ·) x)) 0) ∧
    (f.op ∈ [VOp.fredsum, .fredmin, .fredmax] →
      let fm := (vFmt w uns).getD f32
      let node := fpNode f.op.redKind fm (if c.rm = 5 then 0 else c.rm)
      let one := fpOne f.op.redKind fm
      let r := node (x.toNat, 0) ((treeAll node one (myCore s) w c.grp ((f.taken s).map fun p => (p.1, (p.2.toNat, 0)))).getD one)
      gives (BitVec.ofNat 64 r.1) r.2) ∧
    (f.op ∈ [VOp.redmini, .redmaxi] → f.vd ≠ f.vs1 ∨ f.vd = 0 →
      let before (a b : BitVec 64) : Prop := if f.op = .redmini then intOf uns w a < intOf uns w b else intOf uns w b < intOf uns w a
      ∃ t v n, f.comesTo i s t ∧ VecGoesOn s t ∧ VecRest s t (fun _ => True) ∧ VecStill s t ∧
        gr t f.vd = (if f.vd = 0 then 0 else BitVec.ofNat 64 n) ∧ gr t f.vs1 = (if f.vs1 = 0 then 0 else out v) ∧
        (∀ r, r ≠ f.vd → r ≠ f.vs1 → gr t r = gr s r) ∧
        (f.taken s = [] → n = 2 ^ 64 - 1 ∧ v = intOne f.op.redKind uns w) ∧
        (f.taken s ≠ [] → (n, v) ∈ f.taken s ∧ ∀ p ∈ f.taken s, before v p.2 ∨ (v = p.2 ∧ n ≤ p.1)))) ∧
  (∀ (s : State) (i : Instr) (f : VForm), crossForm i = some f → f.runs s = true →
    let c := f.cmd s
    let w := c.sew
    let seg (j : Nat) : List (Nat × BitVec 64) := (f.taken s).filter fun p => p.1 / f.k == j
    let ns := (c.vl + f.k - 1) / f.k
    let row := f.vd.toNat + 32 * (f.vs1.toNat % 2)
    let rm := if c.rm = 5 then 0 else c.rm
    let fm := (vFmt w c.uns).getD f32
    let fkind := f.op.redKind
    let ftree (l : List (Nat × (Nat × Flags))) : Nat × Flags := (treeOver (fpNode fkind fm rm) (fpOne fkind fm) 9 f.k l).getD (fpOne fkind fm)
    let wide (p : Nat × BitVec 64) : Nat × (Nat × Flags) := (p.1 % f.k, f32.ofVal 0 0 (fm.value p.2.toNat))
    (f.op ∈ [VOp.segsum, .segmin, .segmax] → ∃ (t : State) (new : Nat → BitVec 64), f.comesTo i s t ∧ VecGoesOn s t ∧ VecRest s t (f.outside s) ∧ VecStill s t ∧
      (∀ r, gr t r = gr s r) ∧ f.writes s t (fun j => if j < ns then some (new j) else none) ∧
      (f.op = .segsum → ∀ j < ns, new j = BitVec.ofNat 64 (((seg j).map fun p => p.2.toNat).sum % 2 ^ w)) ∧
      (f.op ≠ .segsum → ∀ j < ns, (seg j = [] → new j = intOne f.op.redKind c.uns w) ∧ (seg j ≠ [] → new j ∈ (seg j).map (·.2) ∧
        ∀ p ∈ seg j, if f.op = .segmin then intOf c.uns w (new j) ≤ intOf c.uns w p.2 else intOf c.uns w p.2 ≤ intOf c.uns w (new j)))) ∧
    (f.op ∈ [VOp.fsegsum, .fsegmin, .fsegmax] →
      let new (j : Nat) := ftree ((seg j).map fun p => (p.1 % f.k, (p.2.toNat, 0)))
      ∃ t, f.comesTo i s t ∧ VecGoesOn s t ∧ VecRest s t (f.outside s) ∧ VecStill s t ∧ (∀ r, gr t r = gr s r) ∧
        f.writes s t (fun j => if j < ns then some (BitVec.ofNat 64 (new j).1) else none) ∧
        (myCore t).vec.vflags = (List.range ns).foldl (fun x j => x ||| (new j).2.zeroExtend 64) (myCore s).vec.vflags) ∧
    (f.op ∈ [VOp.tree, .treeseg] →
      let sum (j : Nat) : Int := ((if f.op = .tree then f.taken s else seg j).map fun p => intOf c.uns w p.2).sum
      let cells := if f.op = .tree then 1 else ns
      let old (j : Nat) : Int := (accGet s row j).toInt
      ∃ t, f.comesTo i s t ∧ VecGoesOn s t ∧ VecRest s t (fun _ => True) ∧ (∀ r, gr t r = gr s r) ∧
        (∀ a b, a < 64 → b < 64 → accGet t a b =
          if a = row ∧ b < cells then BitVec.ofInt 32 (max (-(2 ^ 31)) (min (2 ^ 31 - 1) (old b + sum b))) else accGet s a b) ∧
        (myCore t).vec.mstat = (myCore s).vec.mstat ||| (if (List.range cells).any (fun j =>
          decide (old j + sum j < -(2 ^ 31)) || decide (2 ^ 31 - 1 < old j + sum j)) then 1#64 <<< 32 else 0)) ∧
    (f.op ∈ [VOp.ftree, .ftreeseg] →
      let node := fpNode .sum f32 rm
      let one := fpOne .sum f32
      let all := (treeAll node one (myCore s) w c.grp ((f.taken s).map fun p => (p.1, f32.ofVal 0 0 (fm.value p.2.toNat)))).getD one
      let sum (j : Nat) : Nat × Flags := if f.op = .ftree then all else (treeOver node one 9 f.k ((seg j).map wide)).getD one
      let cells := if f.op = .ftree then 1 else ns
      ∃ t, f.comesTo i s t ∧ VecGoesOn s t ∧ VecRest s t (fun _ => True) ∧ (∀ r, gr t r = gr s r) ∧
        (∀ a b, a < 64 → b < 64 → accGet t a b =
          if a = row ∧ b < cells then BitVec.ofNat 32 (f32.add rm 0 (accGet s a b).toNat (sum b).1).1 else accGet s a b) ∧
        (myCore t).vec.mstat = (myCore s).vec.mstat))

/-- R313 to R317: a permutation writes each element of the destination that it moves something to with the source element its form names, 0
beyond VLMAX, or the scalar, every source read before any element is written; `vcompress` sets VL to the number of elements it packed. -/
def Obligations.PermutationResults : Prop :=
  ∀ (s : State) (i : Instr) (f : VForm), crossForm i = some f → f.runs s = true →
    f.op ∈ [VOp.slideup, .slidedown, .slide1up, .slide1down, .gather, .compress, .expand, .bcast, .mrot] →
    let c := f.cmd s
    ∃ t, f.comesTo i s t ∧ VecGoesOn s t ∧ VecRest s t (f.outside s) ∧ (∀ r, gr t r = gr s r) ∧ f.writes s t (f.permuted s) ∧
      (myCore t).vec.vl = (if f.op = .compress then
        BitVec.ofNat 64 ((List.range c.vl).countP fun e => maskBit s s.curCore f.vs1.toNat e) else (myCore s).vec.vl) ∧
      (myCore t).vec.mstat = (myCore s).vec.mstat ∧ (myCore t).vec.acc = (myCore s).vec.acc ∧ (myCore t).vec.vflags = (myCore s).vec.vflags

/-- R54, R65, R196, R319 to R322: a vector load writes each active element with the bytes, or the bits below SEW 8, at its address, of a bank
of its own core or of DRAM at the home: in a cached-coherent range of the own column the home first collects the tokens, and a dirty
copy's data with them. A vector store places each active element there in the write queue, later elements over earlier ones: a line with
the queue laid over it holds the elements, and is as before in its other bits; memory itself and every other element are as before. The
queue's lines then leave, and their homes perform them, as WritesArePerformed says. Where requests travel, an indexed load of DRAM sends a
small gather of up to 8 elements of one slice first. -/
def Obligations.VectorMemoryResults : Prop :=
  ∀ (s : State) (i : Instr) (f : VForm), s.memOk → vmemForm i = some f → f.ready s = true →
    let c := f.cmd s
    let act := c.actives s s.curCore c.vstart c.vl
    let all : Nat → Bool := fun _ => true
    (f.placed s all = true → (f.op.isStore = true → act.length ≤ 32) →
      ∃ w t, f.comesTo i s t ∧ HomeTouched s w ∧ (f.op.isStore = true → w = s) ∧ VecGoesOn s t ∧ VecAccess w t (f.outside s) ∧ VecStill s t ∧
        (∀ r, gr t r = gr s r) ∧ (∀ a, byteAt t a = byteAt w a) ∧ f.memDone s t all) ∧
    (∀ e l, act = e :: l → f.gathers s e = true →
      let g := ((f.placeAt s e).getD (0, false)).1
      ∃ t p els, f.comesTo i s t ∧ t.net = [p] ∧ fromMe s p = true ∧ p.kind = .gather (c.sew / 8) els ∧ els.head? = some g ∧ els.length ≤ 8 ∧
        (∀ a ∈ els, sliceHome s a = sliceHome s g) ∧ (me t).pc = (me s).pc + 4 ∧ (∀ r, gr t r = gr s r) ∧ (∀ a, byteAt t a = byteAt s a) ∧
        f.writes s t (fun _ => none))

/-- R123, R150, R154, R162, R325 to R328: `vldsp` writes each active element with its place of the operand rows, converted by the bank's
format; `vstsp` writes it there, converted, saturated or rounded, in a block-scaled format block by block with the block's scale byte; the
bytes outside those rows and, for a block-scaled format, its scale bytes, are as before. No access from the mesh is to come first at the
bank (R120). The blocks of a transposed store are those of the operand rows (log entry 27: the model's reading of R328), and all are
written as the command ends (log entry 119). -/
def Obligations.BankRowTransfers : Prop :=
  ∀ (s : State) (i : Instr) (f : VForm), s.memOk → spForm i = some f → f.runs s = true → spBad (f.cmd s) s = false →
    spBank (f.cmd s) s = none → storesToWay s (f.cmd s).way = false →
    bankTaken (takeBank s.curCore s.curCore (f.cmd s).way s) s.curCore s.curCore (f.cmd s).way = false →
    let c := f.cmd s
    let q := s.curCore.val
    let b := vget (myCore s).bfmt c.way
    let k := bfmtCode b
    let w := if k = 0x1F then c.sew else codeWidth k
    let act := c.actives s q c.vstart c.vl
    let row (e : Nat) : Nat := (c.place k e).1
    let lo (e : Nat) : Nat := (c.place k e).2 * w
    let scale (e : Nat) : Nat := scaleOff b (row e) ((c.place k e).2 / 24)
    let base := bankGpa s q c.way 0
    let inRow (a : Nat) : Prop := ∃ e ∈ act, base + 384 * row e ≤ a ∧ a < base + 384 * row e + 384
    let inScale (a : Nat) : Prop := codeScaled k = true ∧ ∃ e ∈ act, a = base + scale e
    ∃ t, f.comesTo i s t ∧ VecGoesOn s t ∧ (∀ r, gr t r = gr s r) ∧ VecAccess s t (f.outside s) ∧
      (f.op = .ldsp → (∀ a, byteAt t a = byteAt s a) ∧ VecStill s t ∧ f.writes s t (fun e => if e ∈ act then
        some (codeIn k c.sew (rowBits s q c.way (row e) (lo e) w) (bankByte s q c.way (scale e))).1 else none)) ∧
      (f.op = .stsp →
        (∀ a, ¬ inRow a → ¬ inScale a → byteAt t a = byteAt s a) ∧
        (∀ e ∈ act,
          let x := vElem s c.sew f.vd e
          (k = 0x1F → rowBits t q c.way (row e) (lo e) w = x.toNat) ∧
          (codeInt k = true → rowBits t q c.way (row e) (lo e) w = (cutInt w (satInt (codeUns k) w (intOf c.uns c.sew x)).1).toNat) ∧
          (k ≤ 7 → c.rm ≠ 5 →
            rowBits t q c.way (row e) (lo e) w = (((codeFmt k).getD f32).ofVal c.rm 0 (f32.value x.toNat)).1 % 2 ^ w) ∧
          (codeScaled k = true → c.rm ≠ 5 → (∀ a, inScale a → ¬ inRow a) →
            let es := c.blockElems e
            let r := toBlock k c.rm (es.map fun j => f32.value (vElem s c.sew f.vd j).toNat)
            rowBits t q c.way (row e) (lo e) w = r.2.1.getD (es.idxOf e) 0 % 2 ^ w ∧
            ((∀ j ∈ act, j ∉ es → scale j ≠ scale e) → bankByte t q c.way (scale e) = r.1))))

/-! ## Matrix mode, the tile, the block port -/

/-- R145, R332 to R334: `mmode` sets matrix mode and the tile size, or leaves both and answers 1; `mzero` zeroes every cell of the tile;
`mtree` replaces each cell of its first row by the pairwise tree of its column, and a saturated INT32 sum sets MSAT; no other cell and no
vector register changes. R133, R145, R219, R340: a dense-tile command traps VOWN in a hart that is not the vector hart; the vector hart's
traps MMODE with its word outside matrix mode, and an outer product what R340 finds first; VEC is 1 then, and nothing but the trap
registers changes. -/
def Obligations.MatrixModeResults : Prop :=
  (∀ (s : State) (a d : BitVec 5) (k : BitVec 1), tileReady s = true →
    let v := gr s a
    let m := (myCore s).vec.mstat
    let n := (myCore s).mvl
    let col (j : Nat) := (pairTree (foldNode (k == 1)) 7 ((List.range n).map fun r => (accGet s r j, false))).headD (0, false)
    let legal : Bool := decide (v.toNat % 8 = 0) && decide (v.toNat ≤ 64)
    (∃ t, exec (.mmode a d) s = .next t ∧ TileRest s t ∧ Wrote s t d (if legal then 0 else 1) ∧
      (myCore t).vec.acc = (myCore s).vec.acc ∧
      (legal = true → (myCore t).mm = decide (v ≠ 0) ∧ (myCore t).mvl = v.toNat) ∧
      (myCore t).vec.mstat &&& 0x7FFFFFFFFFFFFF80 = m &&& 0x7FFFFFFFFFFFFF80 ∧ (legal = false → (myCore t).vec.mstat = m)) ∧
    ((myCore s).mm = true → n ≤ 64 →
      (∃ t, exec .mzero s = .next t ∧ TileRest s t ∧ (∀ r, gr t r = gr s r) ∧ (myCore t).vec.mstat = m ∧
        ∀ i j, i < 64 → j < 64 → accGet t i j = if i < n ∧ j < n then 0 else accGet s i j) ∧
      (∃ t, exec (.mtree k) s = .next t ∧ TileRest s t ∧ (∀ r, gr t r = gr s r) ∧
        (myCore t).vec.mstat = m ||| (if (List.range n).any fun j => (col j).2 then 1#64 <<< 32 else 0) ∧
        ∀ i j, i < 64 → j < 64 → accGet t i j = if i = 0 ∧ j < n then (col j).1 else accGet s i j))) ∧
  (∀ (s : State) (k : BitVec 1) (f b a d : BitVec 5),
    let word (i : Instr) : BitVec 64 := BitVec.ofNat 64 (encodeWord i)
    let uses : List Instr := [.mzero, .mtree k, .mrd k f b a d, .mwr k f b a d, .mopa b a, .mopaSc b a d]
    let traps (i : Instr) (c : Cause) (x : BitVec 64) : Prop := freezing s s.curCore c = false →
      ∃ t, exec i s = .next t ∧ Entered s t c x true ∧ (myCore t).instret = (myCore s).instret ∧ RestKept s t
    (isVecHart s = false → ∀ i ∈ .mmode a d :: uses, TakesTrap i s .vown (word i)) ∧
    (isVecHart s = true → (myCore s).quiet = true → (myCore s).mm = false → ∀ i ∈ uses,
      (i = .mopa b a ∨ i = .mopaSc b a d → cmdHeld s = false) → traps i .mmode (word i)) ∧
    (isVecHart s = true → (myCore s).quiet = true → cmdHeld s = false → (myCore s).mm = true → ∀ z x, opCheck s s.curCore.val (gr s a) (gr s b) = some (z, x) →
      traps (.mopa b a) z x ∧ traps (.mopaSc b a d) z x))

/-- R335 to R337: `mrd` writes each element of vd with its cell, converted to the format, with the scale bytes of a block-scaled format in
vs2; `mwr` writes each named cell with its element, converted, and no other cell; flags are accumulated in VFLAGS. R171, R340, R341:
`mopa` and `mopa.sc` add to every cell of the tile the product of its row of A and its row of B, in exact groups with one rounding each,
or saturated in INT32 where both formats are integer; a saturation sets MSAT; no other cell changes. R187, R188, R191: where commands
queue, the instruction enters the DTU whatever the convoy holds, its requests join or open merge windows at other cores' banks, and its
hart stands at it. An operand is read whole at one instant (log entry 119). -/
def Obligations.TileResults : Prop :=
  (∀ (s : State) (k : BitVec 1) (f b a d : BitVec 5),
    let c := tileCommand .ldsp f b a d s
    let q := s.curCore.val
    let n := (myCore s).mvl
    let int := k == 1
    let rm := redRm c.vtype
    let act := c.actives s q c.vstart c.vl
    let cell (e : Nat) : BitVec 32 := accGet s (c.cell n e).1 (c.cell n e).2
    let block (g : Nat) := toBlock c.k rm (((List.range 24).map (24 * g + ·) |>.filter fun e => decide (e < c.vl)).map fun e => cellVal int (cell e))
    let out (e : Nat) : BitVec 64 := if codeScaled c.k then BitVec.ofNat 64 ((block (e / 24)).2.1.getD (e % 24) 0) else (cellOut c.k int rm (cell e)).1
    let room := vlmaxOf (myCore s).glanes c.vtype
    let into (e : Nat) := cellIn c.k int rm (vElem s c.sew d e).toNat ((vElem s 8 b (e / 24)).setWidth 8)
    let regs (r : Nat) : Prop := (r < d.toNat ∨ d.toNat + VKind.regs .s c.sew c.grp ≤ r) ∧ (codeScaled c.k = true → r ≠ b.toNat)
    tileRuns c s = true → n ≤ 64 → c.vl ≤ room →
      (∃ t, exec (.mrd k f b a d) s = .next t ∧ GoesOn s t ((me s).pc + 4) ∧ VecRest s t regs ∧ VecStill s t ∧ (∀ r, gr t r = gr s r) ∧
        (myCore t).vec.vstart = 0 ∧ (∀ e < room, vElem t c.sew d e = if e ∈ act then cutBits c.sew (out e) else vElem s c.sew d e) ∧
        (codeScaled c.k = false →
          (myCore t).vec.vflags = act.foldl (fun x e => x ||| (cellOut c.k int rm (cell e)).2.zeroExtend 64) (myCore s).vec.vflags) ∧
        (codeScaled c.k = true → ∀ g < (c.vl + 23) / 24, vElem t 8 b g = ((block g).1).zeroExtend 64)) ∧
      (∃ t, exec (.mwr k f b a d) s = .next t ∧ GoesOn s t ((me s).pc + 4) ∧ VecRest s t (fun _ => True) ∧ (∀ r, gr t r = gr s r) ∧
        (myCore t).vec.vstart = 0 ∧ (myCore t).vec.mstat = (myCore s).vec.mstat ∧
        (myCore t).vec.vflags = act.foldl (fun x e => x ||| (into e).2.zeroExtend 64) (myCore s).vec.vflags ∧
        (∀ e ∈ act, accGet t (c.cell n e).1 (c.cell n e).2 = (into e).1) ∧
        (∀ i j, i < 64 → j < 64 → (∀ e ∈ act, c.cell n e ≠ (i, j)) → accGet t i j = accGet s i j))) ∧
  (∀ (s : State) (b a d : BitVec 5), isVecHart s = true → cmdHeld s = false → (myCore s).mm = true → (myCore s).mvl ≤ 64 →
    opCheck s s.curCore.val (gr s a) (gr s b) = none →
    let c := s.curCore.val
    let n := (myCore s).mvl
    let A := readOperand s s.curCore.val (gr s a) n
    let B := readOperand s s.curCore.val (gr s b) n
    let adds (i : Instr) (q : Option (BitVec 8)) : Prop :=
      let new (i j : Nat) := cellAcc A B q i j (accGet s i j)
      ((myCore s).quiet = true → (queues s = true → opCore c (gr s a) = c ∧ opCore c (gr s b) = c) →
        ∃ t, outerComes i s t ∧ TileRest s t ∧ (∀ r, gr t r = gr s r) ∧
          (∀ i j, i < 64 → j < 64 → accGet t i j = if i < n ∧ j < n then (new i j).1 else accGet s i j) ∧
          (myCore t).vec.mstat = (myCore s).vec.mstat ||| (if (tileCells n).any fun p => (new p.1 p.2).2 then 1#64 <<< 32 else 0)) ∧
      (queues s = true → (myCore s).vec.dtu.length < 2 → (∀ o ∈ (myCore s).vec.dtu, o.full = true) → (myCore s).owed = [] →
        ∃ t o, exec i s = .next t ∧ (myCore t).vec.dtu = (myCore s).vec.dtu ++ [o] ∧ o.da = gr s a ∧ o.db = gr s b ∧ o.q = q ∧
          o.codeA = opCode s c (gr s a) ∧ o.codeB = opCode s c (gr s b) ∧ o.a = none ∧ o.b = none ∧ o.full = false ∧ o.stop = none ∧
          o.after = (myCore s).vec.convoy.length ∧ (∀ x k, hartAt t x k = hartAt s x k) ∧
          (∀ p ∈ [(gr s a, false), (gr s b, true)], opCore c p.1 ≠ c → ∃ w ∈ (coreAt t (opCore c p.1)).windows, w.way = opBank p.1 ∧
            w.row0 = opRow p.1 ∧ w.mvl = n ∧ w.second = p.2 ∧ s.clock < w.opened + 16 ∧ c ∈ w.cores) ∧
          (∀ x, { coreAt t x with windows := [], vec := { (coreAt t x).vec with dtu := [] } } =
            { coreAt s x with windows := [], vec := { (coreAt s x).vec with dtu := [] } }) ∧
          (∀ a, byteAt t a = byteAt s a) ∧ t.kept = s.kept)
    adds (.mopa b a) none ∧ adds (.mopaSc b a d) (some ((gr s d).setWidth 8)))

/-- R343 to R345, R347, R348: `gadd` writes the image of the rounded sums and `gdamp` the blend by DAMP/256, all 320 bytes of it; an illegal
pair of images traps FMT and nothing is written. Where accesses travel, the hart stands at the instruction: each turn reads one block of A
or B once, and when all are read and D is computed, writes one block of D whole, in ascending order; with the fifth the instruction
completes. R346 to R348: `gelim` writes the image that is left after the first k variables are eliminated, all 320 bytes of it; a pivot
not above the threshold traps GSING with its number, and an illegal image or k traps FMT; neither writes anything. Where accesses travel,
the hart stands at the instruction, whose turns the PortTurns clause of this statement gives. -/
def Obligations.BlockPortResults : Prop :=
  ((∀ (s : State) (b a d : BitVec 5), s.memOk → portReady s [gr s a, gr s b, gr s d] = true → portWhole s = true →
    let x := readImage s (gr s a)
    let y := readImage s (gr s b)
    (pairBad x y = false → WritesImage (.gadd b a d) s (gr s d) (blockAdd x y) ∧ WritesImage (.gdamp b a d) s (gr s d) (blockBlend x y)) ∧
    (pairBad x y = true → BlockTraps (.gadd b a d) s .fmt 0 ∧ BlockTraps (.gdamp b a d) s .fmt 0)) ∧
  (∀ (s : State) (b a d : BitVec 5), portReady s [gr s a, gr s b, gr s d] = true → portWhole s = false →
    (∃ t, exec (.gadd b a d) s = .next t ∧ PortAt s 0 (gr s a) (gr s b) (gr s d) [] [] t) ∧
    (∃ t, exec (.gdamp b a d) s = .next t ∧ PortAt s 2 (gr s a) (gr s b) (gr s d) [] [] t)) ∧
  (∀ s : State, s.memOk → PortTurns s)) ∧
  ((∀ (s : State) (b a d : BitVec 5), s.memOk → portReady s [gr s a, gr s d] = true → portWhole s = true →
    let x := readImage s (gr s a)
    let k := (gr s b).toNat
    let bad := x.n == 0 || decide (8 < x.n) || x.dirty || k == 0 || decide (x.n ≤ k)
    let r := blockElim x k ((me s).geps.toNat % 2 ^ 32)
    (bad = false → ∀ w, r = .inr w → WritesImage (.gelim b a d) s (gr s d) w) ∧
    (bad = false → ∀ j, r = .inl j → BlockTraps (.gelim b a d) s .gsing (BitVec.ofNat 64 j)) ∧
    (bad = true → BlockTraps (.gelim b a d) s .fmt 0)) ∧
  (∀ (s : State) (b a d : BitVec 5), portReady s [gr s a, gr s d] = true → portWhole s = false →
    ∃ t, exec (.gelim b a d) s = .next t ∧ PortAt s 1 (gr s a) (gr s b) (gr s d) [] [] t))

/-! ## Requests to the service layer -/

/-- R84, R86, R94, R95, R107, R350, R351: in slot 6, with no named token in ERROR and a place in the row's engine, a copy that meets R350
queues one request with what its registers say and the element CSTART names when the copy is resumed, marks its token BUSY, and goes on;
memory, the g registers and the other engines are as before. The lowest named token in ERROR becomes IDLE and COPY_ERR is taken with the
address it kept. Any other slot traps SLOT, and a copy that does not meet R350 traps COPY_ERR with 0. R109, R355, R356: a collective reads
its group record v, which lies in DRAM, as a coherent read, and queues one request with the record's OP, TYPE, FLAGS, COUNT, ELEMS and BAR
at the collective engine GPA[6] of the copy hart's own column (log entry 43: the model's reading of R109); a record or rank outside R109
traps COPY_ERR with 0 and queues nothing; any slot but 6 traps SLOT. A record that cannot be read, or that lies on a device without a
route, traps BUS_FAULT with the record's address (log entry 99: the model's choice). -/
def Obligations.TransferRequests : Prop :=
  (∀ (s : State) (i : Instr) (kind : Nat) (w z m : BitVec 1) (k : BitVec 3) (b a d : BitVec 5),
    copyCall i = some (kind, w, z, m, k, b, a, d) →
    let x := oxr s 5
    let e := rowOf s.curCore
    let col := colOf s.curCore
    let queue (s : State) := (colAt s col).eng.toList.getD e []
    let ok := reqOk (mkReq kind w z m k b a d s) s
    (s.curSlot ≠ 6 → TakesTrap i s .slot (BitVec.ofNat 64 (encodeWord i))) ∧
    (s.curSlot = 6 → Fenced s →
      (∀ n, namesToken s w k n = true → (myCore s).tok.get n = 2 →
        (∀ j, j < n → namesToken s w k j = true → (myCore s).tok.get j ≠ 2) → freezing s s.curCore .copyErr = false →
        ∃ t, exec i s = .next t ∧ Entered s t .copyErr ((myCore s).tokVa.get n) false ∧ (myCore t).tok.get n = 0 ∧
          { (myCore t).kept with tok := (myCore s).tok } = (myCore s).kept ∧ OthersKept s t ∧ t.kept = s.kept) ∧
      ((∀ n, namesToken s w k n = true → (myCore s).tok.get n ≠ 2) →
        (ok = false → TakesTrap i s .copyErr 0) ∧
        (ok = true → waiting (queue s) < 32 →
          ∃ t u, exec i s = .next t ∧ Queued s t k (queue s) (queue t) u ∧
            u.kind = kind ∧ u.src = gr s a ∧ u.dst = gr s d ∧ u.vreg = d ∧ u.len = (gr s b).toNat ∧ u.rows = (gr s b).toNat ∧
            u.total = (gr s b).toNat ∧ u.rowb = 8 * (x.extractLsb' 20 14).toNat ∧ u.sstride = oxr s 6 ∧ u.dstride = oxr s 7 ∧
            u.list = oxr s 7 ∧ u.wide = x.getLsbD 17 ∧ u.nrows = (oxr s 3).toNat ∧
            u.swz = (x.getLsbD 16 && (kind == 1 || kind == 2)) ∧ u.z = (z == 1) ∧
            u.waitMask = (if w = 1 then x.setWidth 8 else 0) ∧ u.bar = oxr s 4 ∧
            u.mask = (if m = 1 then some (x.extractLsb' 8 3, x.extractLsb' 11 5) else none) ∧
            (∀ n : Fin 16, n.val ≠ e → (colAt t col).eng.get n = (colAt s col).eng.get n) ∧
            { colAt t col with eng := (colAt s col).eng } = colAt s col ∧ (∀ c, c ≠ col → colAt t c = colAt s c) ∧
            NearRest s t ∧ t.net = s.net)))) ∧
  (∀ (s u : State) (i : Instr) (kind : Nat) (r : Option Nat) (w z : BitVec 1) (k : BitVec 3) (b a d : BitVec 5),
    collCall i = some (kind, w, z, k, b, a, d) →
    let g := gr s b
    let e := g.toNat / 64 % 2
    let col := colOf s.curCore
    let rank := (oxr s 3).toNat
    let queue (s : State) := (colAt s col).coll.toList.getD e []
    (s.curSlot ≠ 6 → TakesTrap i s .slot (BitVec.ofNat 64 (encodeWord i))) ∧
    (s.curSlot = 6 → Fenced s → (∀ n, namesToken s w k n = true → (myCore s).tok.get n ≠ 2) →
      (groupPlace s g = false ∨ 4096 ≤ rank → TakesTrap i s .copyErr 0) ∧
      (∀ v, groupPlace s g = true → rank < 4096 → targetOf s g.toNat = .device v → routeUp s col v = false → TakesTrap i s .busFault g) ∧
      (groupPlace s g = true → rank < 4096 → groupGoes s g.toNat = true → ownerRead true g.toNat 64 (groupSent s g.toNat) = (r, u) →
        (r = none → freezing s s.curCore .busFault = false →
          ∃ t, exec i s = .next t ∧ Entered u t .busFault g false ∧ queue t = queue u ∧ OthersKept u t ∧ t.kept = u.kept) ∧
        (∀ v, r = some v →
          (groupOk u v rank = false → freezing s s.curCore .copyErr = false →
            ∃ t, exec i s = .next t ∧ Entered u t .copyErr 0 false ∧ queue t = queue u ∧ OthersKept u t ∧ t.kept = u.kept) ∧
          (groupOk u v rank = true → waiting (queue u) < 32 →
            ∃ t q, exec i s = .next t ∧ Queued u t k (queue u) (queue t) q ∧ q.kind = kind ∧ q.src = gr s a ∧ q.dst = gr s d ∧
              q.group = g ∧ q.rank = rank ∧ q.count = v % 2 ^ 16 ∧ q.op = v / 2 ^ 16 % 256 ∧ q.ty = v / 2 ^ 24 % 256 ∧
              q.rootOnly = v.testBit 32 ∧ q.total = v / 2 ^ 64 % 2 ^ 64 ∧ q.bar = BitVec.ofNat 64 (v / 2 ^ 128) ∧ q.z = (z == 1) ∧
              (∀ c, (colAt t c).eng = (colAt u c).eng) ∧ (∀ c, c ≠ col → (colAt t c).coll = (colAt u c).coll) ∧
              NearRest u t ∧ t.net = u.net)))))

/-- R101, R196, R357 to R361, R394: past the checks of R357 a barrier instruction acts on the object at g, of this device or of another.
`binit` sends its packet and parks for the answer; `barrive` with its writes covered sends one arrival and goes on; `bwait` on a completed
object or another generation gives the object's state and drops the L0 data cache, otherwise it parks (its read of another device's object
taking an allowance, R459), and in the handler slot it traps HANDLER_BLOCK whatever the object holds (log entry 61: the model's reading);
`bquery` sends its packet and waits for the word, or, where requests do not travel and none for the object is on its way, gives the word
at once. A misaligned address traps. -/
def Obligations.BarrierInstructions : Prop :=
  ∀ (s : State) (f : BitVec 2) (b a d : BitVec 5) (g : Nat), Settled s →
    let va := gr s a
    let p4 := (me s).pc + 4
    let sent (u t : State) (p : Pkt) : Prop := t.net = u.net ++ [p] ∧ t.nextId = u.nextId + 1 ∧ fromMe u p = true ∧ p.gpa = g ∧ p.va = va ∧
      p.loc = .omega 1 ∧ t.cols = u.cols ∧ NearRest u t ∧ CoreStill u t
    let still (u t : State) : Prop := CoreStill u t ∧ NearRest u t ∧ t.cols = u.cols ∧ t.net = u.net
    (va.toNat % 64 ≠ 0 → TakesTrap (.binit f b a) s .misalign va ∧ TakesTrap (.barrive a) s .misalign va ∧
      TakesTrap (.bquery b a d) s .misalign va ∧ (s.curSlot ≠ 7 → TakesTrap (.bwait b a d) s .misalign va)) ∧
    (s.curSlot = 7 → TakesTrap (.bwait b a d) s .handlerBlock (BitVec.ofNat 64 (encodeWord (.bwait b a d)))) ∧
    (barrierAt s needWr va = some g →
      let u := translated s needWr va
      (∃ t p, exec (.binit f b a) s = .next t ∧ ParksFor u t (.reply u.nextId) ∧ sent u t p ∧
        p.kind = .barInit (gr s b) (f.getLsbD 0) (f.getLsbD 1)) ∧
      (Fenced s → covered u 6 = true → ∃ t p, exec (.barrive a) s = .next t ∧ GoesOn u t p4 ∧ (∀ r, gr t r = gr s r) ∧ sent u t p ∧
        p.kind = .barArrive ∧ (me t).sent = (me u).sent)) ∧
    (barrierAt s needRd va = some g →
      let u := translated s needRd va
      let o := barAt u g
      let past : Bool := o.status.getLsbD 0 || o.gen != (gr s b).setWidth 32
      let word := (gr s b).toNat % 8
      let v := if (me s).wait = .barrier g d then u else reach (colOf s.curCore) g 1 u
      (s.curSlot ≠ 7 → Fenced s → mayReach u (colOf s.curCore) g 1 = true →
        (past = true → ∃ t, exec (.bwait b a d) s = .next t ∧ GoesOn v t p4 ∧
          Wrote v t d (o.gen.zeroExtend 64 ||| ((o.status &&& 7).zeroExtend 64 <<< 32)) ∧ (me t).kept = (me v).kept ∧
          (myCore t).l0d = [] ∧ still v t) ∧
        (past = false → ∃ t, exec (.bwait b a d) s = .next t ∧ ParksFor v t (.barrier g d) ∧ still v t)) ∧
      (s.split = true → ∃ t p, exec (.bquery b a d) s = .next t ∧ sent u t p ∧ p.kind = .barQuery d word ∧ p.wants = true ∧
        (me t).wait = .reply u.nextId ∧ (me t).st = (me s).st ∧ (me t).pc = (me s).pc ∧ (∀ r, gr t r = gr s r) ∧
        (myCore t).instret = (myCore s).instret) ∧
      (s.split = false → barPending u g = false → ∃ t, exec (.bquery b a d) s = .next t ∧ GoesOn u t p4 ∧
        Wrote u t d (barWord o word) ∧ (me t).kept = (me u).kept ∧ still u t))

/-- R36 to R39, R42, R51, R52, R273: while the edit lock is held, `rsplit` and `rmerge` park. With it free they find the range of ga; without
one they answer 1. A split whose conditions hold leaves two ranges that map every address as before, the later descriptors moved up by one
place; a merge leaves one that does, the later ones moved down; both advance GEN, drop the core's entries of the edited range and answer
0, once the core's accesses are performed, for which they park. A condition that fails is answered with its status, and the directory does
not change; a data error traps BUS_FAULT and nothing is written. The directory's lines are read at their homes. Log entries: 87, that a
merge answers 3 before 7 and cuts windows to their ranges; 94, the span dropped, and that GEN stays with an edit that fails, where R29 has
every release of the lock advance it; 124, what a directory on another device costs. -/
def Obligations.RangeEdits : Prop :=
  ∀ (s : State) (a d : BitVec 5),
    let h := hdrOf (myCore s).rdbase
    let va := (gr s a).toNat
    let count := dirCount s h
    let homes (t : State) : Prop := HomeRest s t ∧ (s.memOk → ∀ b, ByteHomed s t b)
    let faults (i : Instr) : Prop := Settled s → freezing s s.curCore .busFault = false →
      ∃ t, exec i s = .next t ∧ Entered s t .busFault (gr s a) false ∧ (myCore t).instret = (myCore s).instret ∧ homes t
    let answers (i : Instr) (n : Nat) : Prop := ∃ t, exec i s = .next t ∧ GoesOn s t ((me s).pc + 4) ∧ Wrote s t d (BitVec.ofNat 64 n) ∧
      (me t).kept = (me s).kept ∧ homes t
    let waits (i : Instr) : Prop := ∃ t, exec i s = .next t ∧ ParksFor s t .edit ∧ RestKept s t
    (dirEdit s h = true → waits (.rsplit a d) ∧ waits (.rmerge a d)) ∧
    (dirEdit s h = false → (walkFrom (colOf s.curCore) h va s).isSome = true →
      (searchIdx s h va = .error () → faults (.rsplit a d) ∧ faults (.rmerge a d)) ∧
      (searchIdx s h va = .ok none → answers (.rsplit a d) 1 ∧ answers (.rmerge a d) 1) ∧
      (∀ k, searchIdx s h va = .ok (some k) →
        let e := dirDesc s h k
        let f := dirDesc s h (k + 1)
        let st := splitStatus s h k va
        let mt := mergeStatus s h k
        let free := Fenced s ∧ covered s 1 = true
        let drained := coreDrained s s.curCore = true
        let readable := State.memOk s ∧ homesCurrent s ∧ ∀ l < (count + 6) / 2, lineClean s (h + 64 * l) = true
        let rest (t : State) : Prop := GoesOn s t ((me s).pc + 4) ∧ Wrote s t d 0 ∧ (me t).sent = (me s).sent ∧ HomeRest s t
        let parks (i : Instr) : Prop := ∃ t, exec i s = .next t ∧ (me t).st = .parked ∧ (me t).wait = .drain ∧ (me t).pc = (me s).pc ∧
          (∀ r, gr t r = gr s r) ∧ (me t).sent = (me s).sent ∧ CoreStill s t ∧ OthersKept s t ∧ (∀ b, byteAt t b = byteAt s b) ∧ t.kept = s.kept
        (splitBad s h k va = true → faults (.rsplit a d)) ∧
        (st ≠ 0 → answers (.rsplit a d) st) ∧
        (st = 0 → splitBad s h k va = false → free →
          (¬ drained → parks (.rsplit a d)) ∧
          (drained → readable → ∃ t low up, exec (.rsplit a d) s = .next t ∧ rest t ∧ MapsAs e low ∧ MapsAs e up ∧
            low.vbase = e.vbase ∧ low.vlast + 1 = va / 64 ∧ up.vbase = va / 64 ∧ up.vlast = e.vlast ∧
            Edited s t h (count + 1) fun n => if n < k then dirDesc s h n else if n = k then low else if n = k + 1 then up else dirDesc s h (n - 1))) ∧
        (mergeBad s h k = true → faults (.rmerge a d)) ∧
        (mt ≠ 0 → mergeBad s h k = false → answers (.rmerge a d) mt) ∧
        (mt = 0 → mergeBad s h k = false → free →
          (¬ drained → parks (.rmerge a d)) ∧
          (drained → readable → ∃ t m, exec (.rmerge a d) s = .next t ∧ rest t ∧ m.vbase = e.vbase ∧ m.vlast = f.vlast ∧ m.ver = (e.ver + 1) % 256 ∧
            m.cls = e.cls ∧ m.perm = e.perm ∧
            (∀ x, e.covers x = true → m.gpa x = e.gpa x ∧ m.resident x = e.resident x) ∧
            (∀ x, f.covers x = true → m.gpa x = f.gpa x ∧ m.resident x = f.resident x) ∧
            Edited s t h (count - 1) fun n => if n < k then dirDesc s h n else if n = k then m else dirDesc s h (n + 1)))))

/-- R39, R114, R274, R275: `rinv` of no bytes only releases; at core scope it drops the core's entries of its job that meet the span, when the
core's accesses are performed; otherwise it sends one drop request and parks. `rprobe` reports the entry or descriptor that covers ga, or
0 when none does and no edit is under way, on which it parks (log entry 121: the model's choice of the state); a data error of its search
traps BUS_FAULT. Scopes 6 and 7 reach the cores of the job on this device (log entry 95). -/
def Obligations.RangeDropsAndProbes : Prop :=
  ∀ (s : State) (k : BitVec 3) (b a d : BitVec 5),
    let va := (gr s a).toNat
    let n := (gr s b).toNat
    let hi := min (va + n - 1) (2 ^ 64 - 1)
    let h := hdrOf (myCore s).rdbase
    let own : Bool := decide (k.toNat ≤ 1) && coreDrained s s.curCore
    let meets (e : REntry) : Bool := e.job == (myCore s).job && decide (e.desc.vbase * 64 ≤ hi) && decide (va ≤ e.desc.vlast * 64 + 63)
    let still (u t : State) : Prop := CoreStill u t ∧ NearRest u t
    (Fenced s → covered s k = true → n = 0 ∨ own = true →
      ∃ t, exec (.rinv k b a) s = .next t ∧ GoesOn s t ((me s).pc + 4) ∧ (∀ r, gr t r = gr s r) ∧ (me t).sent = (me s).sent ∧
        (myCore t).rcache = (if n = 0 then (myCore s).rcache else (myCore s).rcache.filter fun e => !meets e) ∧ still s t ∧ t.net = s.net) ∧
    (Fenced s → covered s k = true → n ≠ 0 → own = false →
      ∃ t p, exec (.rinv k b a) s = .next t ∧ (me t).st = .parked ∧ (me t).wait = .inval s.nextId ∧
        (me t).pc = (me s).pc ∧ (∀ r, gr t r = gr s r) ∧ (me t).sent = (me s).sent ∧ still s t ∧ t.net = s.net ++ [p] ∧
        fromMe s p = true ∧ p.kind = .drop va hi k (scopeCores s s.curCore k.toNat) (scopeCols s.curCore k.toNat)) ∧
    (∀ e es, rcLookup (myCore s).rcache (myCore s).job va = some (e, es) →
      ∃ t, exec (.rprobe a d) s = .next t ∧ GoesOn s t ((me s).pc + 4) ∧ Wrote s t d (probeWord e va) ∧ (me t).kept = (me s).kept ∧
        still s t ∧ t.net = s.net) ∧
    (rcLookup (myCore s).rcache (myCore s).job va = none →
      let w := (walkFrom (colOf s.curCore) h va s).getD s
      (walkFrom (colOf s.curCore) h va s).isSome = true →
      (∀ r, searchIdx w h va = .ok r → (r = none → dirEdit w h = false) →
        ∃ t, exec (.rprobe a d) s = .next t ∧ GoesOn w t ((me s).pc + 4) ∧
          Wrote w t d (match r with | none => 0 | some i => probeWord (dirDesc w h i) va) ∧ (me t).kept = (me w).kept ∧
          still w t ∧ t.net = w.net) ∧
      (searchIdx w h va = .ok none → dirEdit w h = true →
        ∃ t, exec (.rprobe a d) s = .next t ∧ ParksFor w t (.header (gr s a)) ∧ still w t ∧ t.net = w.net) ∧
      (searchIdx w h va = .error () → Settled s → freezing s s.curCore .busFault = false →
        ∃ t, exec (.rprobe a d) s = .next t ∧ Entered w t .busFault (gr s a) false ∧ RestKept w t))

/-- R117, R127, R128, R276, R394: the handler slot traps HANDLER_BLOCK (log entry 61: the model's reading of R394). Elsewhere, outside a gang,
`waycfg` with the configuration in force answers 0 and with one outside R276 answers 1; otherwise its request joins the core's queue and
the hart parks. The request at the head of the queue begins when no layer transition is under way, and is carried out once no vector
command is outstanding, its steps 2 to 5 in the one step that finds the core so (log entry 8: the model's reading of R127): the ways take
their new modes, those that change read zero, VL is clamped, and gd is 0. Every `waycfg` ends the open convoy and the replay of XCONV.
R68, R277, R278: `cwflush` and `cwinv` translate their span range by range and hand each piece to the walker of the column that owns its
target, in order; with a barrier object they go on, without one they park until the pieces are done. While a walker they need holds 64
requests they stall (log entry 96: the limit counts requests). An empty span goes on, its barrier arrival made at once; a fault of a range
traps, and a gd that names no barrier object traps BUS_FAULT. -/
def Obligations.WayAndWalkerRequests : Prop :=
  (∀ (s : State) (a d : BitVec 5), (myCore s).gang = 1 →
    let q := myCore s
    let x := (gr s a).toNat
    let na := x % 32
    let nb := x / 256 % 32
    let i := Instr.waycfg a d
    let legal : Bool := decide (na + nb ≤ 16) && x == na + 256 * nb
    let asked : Prop := (me s).wait ≠ .ways
    let changes (w : Nat) : Bool := decide (w < 16) && wayMode q.narr q.nbank w != wayMode na nb w
    let hart (h : Hart) : Hart := { h.kept with xconv := h.xconv &&& ~~~(7#64 <<< 56), since := 0, shadow := none }
    let core (r : Core) : Core := { r.kept with vec := { r.vec with ended := true } }
    let answers (v : BitVec 64) : Prop := ∃ t, exec i s = .next t ∧ GoesOn s t ((me s).pc + 4) ∧ Wrote s t d v ∧ hart (me t) = hart (me s) ∧
      (myCore t).kept = core q ∧ OthersKept s t ∧ t.kept = s.kept
    (asked → s.curSlot = 7 → TakesTrap i s .handlerBlock (BitVec.ofNat 64 (encodeWord i))) ∧
    (asked → s.curSlot ≠ 7 → legal = false → answers 1) ∧
    (asked → s.curSlot ≠ 7 → legal = true → na = q.narr → nb = q.nbank → answers 0) ∧
    (asked → s.curSlot ≠ 7 → legal = true → na ≠ q.narr ∨ nb ≠ q.nbank →
      ∃ t, exec i s = .next t ∧ (me t).st = .parked ∧ (me t).wait = .ways ∧ (me t).pc = (me s).pc ∧ (∀ r, gr t r = gr s r) ∧
        hart (me t) = hart (me s) ∧ (myCore t).instret = q.instret ∧
        (myCore t).wayReqs = (q.wayReqs.filter fun y => y.slot != s.curSlot) ++ [{ slot := s.curSlot, narr := na, nbank := nb, began := false }] ∧
        { (myCore t).kept with wayReqs := q.wayReqs } = core q ∧ OthersKept s t ∧ t.kept = s.kept) ∧
    (∀ r l, (me s).wait = .ways → q.wayQueue = r :: l → r.slot = s.curSlot → q.binding = none →
      (r.began = false → (colAt s (colOf s.curCore)).layerctl.getLsbD 2 = false →
        ∃ t, exec i s = .next t ∧ (myCore t).wayReqs = (q.wayReqs.map fun y => if y.slot = s.curSlot then { y with began := true } else y) ∧
          { (myCore t).kept with wayReqs := q.wayReqs } = core q ∧ me t = me s ∧ OthersKept s t ∧ t.kept = s.kept) ∧
      (r.began = true → q.quiet = true → q.cw = [] → q.waiters = [] → State.memOk s →
        ∃ t, exec i s = .next t ∧ GoesOn s t ((me s).pc + 4) ∧ Wrote s t d 0 ∧ (myCore t).narr = na ∧ (myCore t).nbank = nb ∧
          (∀ w k, changes w = true → k < 2 ^ 18 → byteAt t (bankGpa s s.curCore w k) = 0) ∧
          (∀ b, (∀ w, changes w = true → b < bankGpa s s.curCore w 0 ∨ bankGpa s s.curCore w 0 + 2 ^ 18 ≤ b) → byteAt t b = byteAt s b) ∧
          (myCore t).vec.vl.toNat = min q.vec.vl.toNat (myCore t).vlmax ∧ (me t).kept = (me s).kept ∧
          (myCore t).wayReqs = (q.wayReqs.filter fun y => y.slot != s.curSlot) ∧
          { (myCore t).kept with narr := q.narr, nbank := q.nbank, bfmt := q.bfmt, full := q.full, vec := q.vec, wayReqs := q.wayReqs } = q.kept ∧
          OthersKept s t ∧ { t.kept with mem := [] } = { s.kept with mem := [] }))) ∧
  (∀ (s u : State) (b a d : BitVec 5), Fenced s →
    let bar := gr s d
    let p4 := (me s).pc + 4
    let piece (inv : Bool) (p : Walked) : WPiece :=
      { core := s.curCore.val, slot := s.curSlot, group := u.nextId, inv := inv, first := p.1, last := p.2.1, cached := p.2.2.cls == 0
        entry := { job := (myCore s).job, desc := p.2.2 }, bar := bar, err := false }
    let rest (t : State) : Prop := CoreStill u t ∧ NearRest u t
    let full (l : List Walked) : Bool := walkerFull u (colOf s.curCore) || l.any fun p => walkerFull u (walkerCol s p.1)
    let does (i : Instr) (inv : Bool) : Prop :=
      (∀ l, walkSpanOf s (gr s a).toNat (gr s b).toNat = (.ok (some l), u) →
        (bar = 0 ∨ isBarrierGpa s bar.toNat = true →
          (l = [] → ∃ t, exec i s = .next t ∧ GoesOn u t p4 ∧ (∀ r, gr t r = gr s r) ∧ rest t ∧
            (bar = 0 → t.net = u.net) ∧ (bar ≠ 0 → ∃ p, t.net = u.net ++ [p] ∧ p.kind = .barArrive ∧ p.gpa = bar.toNat)) ∧
          (l ≠ [] → full l = true → ∃ t, exec i s = .next t ∧ (me t).st = .stalled ∧ (me t).wait = .queue ∧ (me t).pc = (me s).pc ∧
            (∀ r, gr t r = gr s r) ∧ rest t ∧ t.net = u.net ∧ t.cols = u.cols) ∧
          (l ≠ [] → full l = false →
            ∃ t, exec i s = .next t ∧
              (∀ c, (colAt t c).walker = (colAt u c).walker ++ (l.filter fun p => walkerCol s p.1 == c).map (piece inv)) ∧
              (∀ r, gr t r = gr s r) ∧ rest t ∧ t.net = u.net ∧
              (bar ≠ 0 → GoesOn u t p4) ∧ (bar = 0 → ParksFor u t (.walker u.nextId)))) ∧
        (bar ≠ 0 → isBarrierGpa s bar.toNat = false → freezing s s.curCore .busFault = false →
          ∃ t, exec i s = .next t ∧ Entered u t .busFault bar false ∧ rest t ∧ t.net = u.net)) ∧
      (∀ c x, walkSpanOf s (gr s a).toNat (gr s b).toNat = (.error (c, x), u) → freezing s s.curCore c = false →
        ∃ t, exec i s = .next t ∧ Entered u t c (BitVec.ofNat 64 (max x (gr s a).toNat)) false ∧ rest t ∧ t.net = u.net)
    does (.cwflush b a d) false ∧ does (.cwinv b a d) true)

/-! ## Launches, messages, contexts -/

/-- R388, R389, R462: with a halfword-aligned entry and outside the handler slot, `spawn` of a logical core that names none, or a core of
another column, answers 3. On its own core it claims the lowest IDLE slot, which runs the child, and answers 0; with none it runs the
child inline; with eight frames it answers 2. Towards another core it sends a request and parks. LIVE counts a child of a record. -/
def Obligations.SpawnResults : Prop :=
  ∀ (s : State) (b a d : BitVec 5),
    let c := s.curCore.val
    let job := (myCore s).job
    let pc : BitVec 48 := (gr s a).setWidth 48
    let r := resolveCore (colOf c) job ((gr s b).toNat % 2 ^ 20) s
    let u := r.2
    let p4 := (me s).pc + 4
    let live (t : State) : Prop := if (me s).hasRec = true ∧ (findJob u job).isSome = true then
        LiveIs u t job (me s).lrec.toNat ((recOf u job (me s).lrec.toNat).live + 1)
      else ∀ b, byteAt t b = byteAt u b
    let answers (v : BitVec 64) : Prop := ∃ t, exec (.spawn b a d) s = .next t ∧ GoesOn u t p4 ∧ Wrote u t d v ∧ (me t).kept = (me u).kept ∧
      (myCore t).kept = (myCore u).kept ∧ NearRest u t ∧ t.net = u.net
    (s.curSlot = 7 → TakesTrap (.spawn b a d) s .slot (BitVec.ofNat 64 (encodeWord (.spawn b a d)))) ∧
    (s.curSlot ≠ 7 → (gr s a).getLsbD 0 = true → TakesTrap (.spawn b a d) s .misalign (gr s a)) ∧
    (s.curSlot ≠ 7 → (gr s a).getLsbD 0 = false → Fenced s →
      ((∀ x, r.1 = .core x → colOf x ≠ colOf c) → answers 3) ∧
      (∀ x, r.1 = .core x → colOf x = colOf c → x ≠ c →
        ∃ t p, exec (.spawn b a d) s = .next t ∧ ParksFor u t (.spawn d) ∧ NearRest u t ∧ t.net = u.net ++ [p] ∧ fromMe u p = true ∧ p.gpa = x ∧
          p.kind = .spawn pc #v[gr s 14, gr s 15, gr s 16, gr s 17] ((gr s b).setWidth 20) d) ∧
      (r.1 = .core c → job = 0 → answers 3) ∧
      (r.1 = .core c → job ≠ 0 →
        (∀ j, childSlot u c = some j → (me s).st = .ready → liveHomed u = true →
          ∃ t, exec (.spawn b a d) s = .next t ∧ GoesOn u t p4 ∧ Wrote u t d 0 ∧ (me t).kept = (me u).kept ∧
            ChildAt u t c j pc ∧ (∀ i, i ≠ j → i ≠ s.curSlot → hartAt t c i = hartAt u c i) ∧ live t ∧ t.net = u.net) ∧
        (childSlot u c = none → (me s).frames.length < 8 → liveHomed u = true →
          ∃ t, exec (.spawn b a d) s = .next t ∧ Inlined u t pc d ∧ OthersKept u t ∧ live t ∧ t.net = u.net) ∧
        (childSlot u c = none → 8 ≤ (me s).frames.length → answers 2)))

/-- R381, R384, R388, R390 to R392, R394: `suspend` and `emit` push a continuation record onto a stage queue of the hart's record, or park
while it is full; `suspend` frees the slot, `emit` beyond the last stage answers 1 and otherwise 0, LIVE counting one more; `end` with its
writes covered goes on in the inline caller with gd = 1, or frees the slot; `hend` frees the handler slot. Another slot, or a hart without
what they name, traps SLOT. That `suspend` and `emit` of a hart that runs no record trap so is the model's reading (log entry 20). -/
def Obligations.RecordInstructions : Prop :=
  ∀ (s : State) (a d : BitVec 5),
    let h := me s
    let job := (myCore s).job
    let k := h.lrec.toNat
    let r := recOf s job k
    let st := (gr s a).toNat % 8
    let nx := h.stage.toNat + 1
    let sus := contRec (r.vector st) job (h.pc + 4) k st #v[gr s 10, gr s 11, gr s 12, gr s 13] h.unit
    let emi := contRec (r.vector nx) job (BitVec.ofNat 48 (r.entry nx)) k nx #v[gr s 14, gr s 15, gr s 16, gr s 17] h.unit
    let trapsSlot (i : Instr) : Prop := TakesTrap i s .slot (BitVec.ofNat 64 (encodeWord i))
    let idle (t : State) : Prop := (me t).st = .idle ∧ (me t).pc = h.pc + 4 ∧ (me t).hasRec = false ∧ (∀ r, gr t r = gr s r) ∧
      (myCore t).instret = (myCore s).instret + 1
    let place (st : Nat) : Prop := State.memOk s ∧ ringPlace s job k st % 64 = 0 ∧ homed s (ringPlace s job k st) = true
    let unmarked : Prop := (coreAt s (leaderOf s s.curCore)).marked = none
    (s.curSlot ≠ 7 → h.hasRec = true → (findJob s job).isSome = true → Fenced s →
      (st < r.nstage → h.frames = [] →
        (queueFull s job k st = false → place st → unmarked → ∃ t, exec (.suspend a) s = .next t ∧ idle t ∧ Pushed s t job k st sus ∧
          OthersKept s t ∧ ∀ x, x < ringPlace s job k st ∨ ringPlace s job k st + 64 ≤ x → byteAt t x = byteAt s x) ∧
        (queueFull s job k st = true → ∃ t, exec (.suspend a) s = .next t ∧ ParksFor s t .stageQueue ∧ RestKept s t)) ∧
      (r.nstage ≤ nx → Results (.emit d) s d 1 (h.pc + 4)) ∧
      (nx < r.nstage → nx < 8 →
        (queueFull s job k nx = false → place nx → liveHomed s = true → ∃ t, exec (.emit d) s = .next t ∧ GoesOn s t (h.pc + 4) ∧
          Wrote s t d 0 ∧ (me t).kept = (me s).kept ∧
          (recOf t job k).queues.toList.getD nx [] = r.queues.toList.getD nx [] ++ [emi] ∧ (recOf t job k).live = r.live + 1 ∧ OthersKept s t ∧
          ∀ x, x < ringPlace s job k nx ∨ ringPlace s job k nx + 64 ≤ x → x < poolAt s job k + 48 ∨ poolAt s job k + 56 ≤ x →
            byteAt t x = byteAt s x) ∧
        (queueFull s job k nx = true → ∃ t, exec (.emit d) s = .next t ∧ ParksFor s t .stageQueue ∧ RestKept s t))) ∧
    (s.curSlot = 7 → trapsSlot (.suspend a) ∧ trapsSlot (.emit d) ∧ trapsSlot .endI) ∧
    (h.hasRec = false → trapsSlot (.suspend a) ∧ trapsSlot (.emit d)) ∧
    (h.hasRec = true → r.nstage ≤ st ∨ h.frames ≠ [] → trapsSlot (.suspend a)) ∧
    (s.curSlot ≠ 7 → Fenced s → covered s 6 = true →
      (∀ f l, h.frames = f :: l → (h.hasRec = true → (findJob s job).isSome = true) → liveHomed s = true →
        ∃ t, exec .endI s = .next t ∧ GoesOn s t f.ret ∧ Wrote s t f.d 1 ∧ (me t).frames = l ∧ OthersKept s t ∧
          (if h.hasRec = true then LiveIs s t job k (r.live - 1) else ∀ b, byteAt t b = byteAt s b)) ∧
      (h.frames = [] → h.hasRec = false → unmarked →
        ∃ t, exec .endI s = .next t ∧ idle t ∧ OthersKept s t ∧ ∀ b, byteAt t b = byteAt s b) ∧
      (h.frames = [] → h.hasRec = true → (findJob s job).isSome = true → unmarked →
        ∃ t, exec .endI s = .next t ∧ idle t ∧ (recOf t job k).live = r.live - 1)) ∧
    (s.curSlot = 7 → ∃ t, exec .hend s = .next t ∧ (me t).st = .idle ∧ (me t).pc = h.pc + 4 ∧ (∀ r, gr t r = gr s r) ∧
      (me t).kept = (me s).kept ∧ RestKept s t) ∧
    (s.curSlot ≠ 7 → trapsSlot .hend)

/-- R374, R387, R393, R395: `send` with fewer than four messages outstanding sends one with its class, its words and the sender's HARTID, and
goes on, once the write queue has a place (R196); with four it parks; a message dropped before is reported first, as SEND_LIMIT. `larm`
answers 4, 2, 3 or 1 when it names no job, no record, no priority or a record not at rest, whose priority it may set; a record at rest it
arms from its pool and answers 0, or it parks while a register block cannot be read yet. -/
def Obligations.SendAndArm : Prop :=
  ∀ (s : State) (c : BitVec 2) (b a d : BitVec 5), Fenced s →
    let h := me s
    let job := (myCore s).job
    let k := (gr s a).toNat % 4096
    let p := (gr s b).toNat % 256
    let word := BitVec.ofNat 64 (encodeWord (.send c b a))
    (h.dropped = [] → (gr s a).getLsbD 0 = true → TakesTrap (.send c b a) s .misalign (gr s a)) ∧
    (h.dropped = [] → (gr s a).getLsbD 0 = false →
      (h.msgsOut < 4 → (myCore s).wq.length < 32 → ∃ t u, exec (.send c b a) s = .next t ∧ GoesOn s t (h.pc + 4) ∧ (∀ r, gr t r = gr s r) ∧ (me t).msgsOut = h.msgsOut + 1 ∧
        { (me t).kept with msgsOut := 0 } = { h.kept with msgsOut := 0 } ∧ (myCore t).kept = (myCore s).kept ∧ NearRest s t ∧
        t.net = s.net ++ [u] ∧ fromMe s u = true ∧ u.loc = .router ∧
        u.kind = .msg { handler := gr s a, w := #v[gr s 14, gr s 15, gr s 16, gr s 17], cls := c, sender := hartId s s.curCore s.curSlot }
          ((gr s b).setWidth 20) 0) ∧
      (h.msgsOut < 4 → 32 ≤ (myCore s).wq.length → exec (.send c b a) s = .next s) ∧
      (4 ≤ h.msgsOut → s.curSlot ≠ 7 → ∃ t, exec (.send c b a) s = .next t ∧ ParksFor s t .sendSlot ∧ RestKept s t) ∧
      (4 ≤ h.msgsOut → s.curSlot = 7 → TakesTrap (.send c b a) s .handlerBlock word)) ∧
    (∀ l t', h.dropped = l :: t' → freezing s s.curCore .sendLimit = false →
      ∃ t, exec (.send c b a) s = .next t ∧ (me t).xcause = 0x17 ∧ (me t).xval = l.zeroExtend 64 ∧ (me t).dropped = t' ∧
        (me t).xpc = h.pc.zeroExtend 64 &&& ~~~1 ∧ (∀ r, gr t r = gr s r) ∧ RestKept s t) ∧
    (findJob s job = none → Results (.larm b a d) s d 4 (h.pc + 4)) ∧
    (∀ j, findJob s job = some j →
      (j.pooln ≤ k → Results (.larm b a d) s d 2 (h.pc + 4)) ∧
      (k < j.pooln → 32 ≤ p → p ≠ 255 → Results (.larm b a d) s d 3 (h.pc + 4)) ∧
      (k < j.pooln → p < 32 ∨ p = 255 → atRest (recOf s job k).status = false → homed s (poolAt s job k + 3) = true →
        ∃ t, exec (.larm b a d) s = .next t ∧ GoesOn s t (h.pc + 4) ∧ Wrote s t d 1 ∧
          (recOf t job k).prio.toNat = (if p = 255 then (recOf s job k).prio.toNat else p) ∧
          (recOf t job k).status = (recOf s job k).status ∧ OthersKept s t ∧
          ∀ x, x ≠ poolAt s job k + 3 → byteAt t x = byteAt s x) ∧
      (k < j.pooln → p = 255 → atRest (recOf s job k).status = true → covered s 5 = true →
        let v := updMe s Hart.covered
        (∀ w, armRecord job k v = some w →
          ∃ t, exec (.larm b a d) s = .next t ∧ GoesOn s t (h.pc + 4) ∧ Wrote s t d 0 ∧ (recOf t job k).status ≠ 0 ∧
            (∀ l, (readRecord job k v).1 = .got l → ∀ n : Fin 32, (recOf t job k).snap.get n = l.getD n 0) ∧
            ((readRecord job k v).1 = .bad → (recOf t job k).status = stInvalid)) ∧
        (armRecord job k v = none →
          ∃ t, exec (.larm b a d) s = .next t ∧ (me t).st = .parked ∧ (me t).wait = .arm ∧ (me t).pc = h.pc ∧ (∀ r, gr t r = gr s r) ∧
            t.dist = s.dist ∧ ∀ x, byteAt t x = byteAt s x)))

/-- R410 to R412, R417: at system level, with an aligned address and nothing of the vector units outstanding (for which another hart waits,
R134), `savev` and `rstv` answer 2 in a gang and 1 with no vector context bound. Otherwise `savev`, when every line of the image of R411
is written (the machine is then s1), clears VDIRTY and every VHW and answers 0; `rstv`, its header read, answers 3 for another NARR, 4 for
a header outside its table, and otherwise, every line read (s2), takes the context the image gives and answers 0. A misaligned address
traps MISALIGN. The image of `savev` is taken once no later load of the hart can still hit a line that chunks of a vector load left behind
(R99). That MISALIGN comes before any status (log entry 50) and the order of the statuses (log entry 51) are the model's readings. R404,
R406 to R409, R412: a save answers 1 for an unbound core and 2 for an area outside DRAM; a stopped core with a good area has its context's
words written there and is freed, SVCTL then 0. A restore answers 1 for a bound core, 2 for such an area and 4 for a bad image; a good
image of a core outside a gang gives the core its job and every slot its registers and state. The area stands in a column that answers
while no cache way holds a line. The bad-header test is log entry 53, status 2 for an area outside DRAM entry 55, what else a bad image is
entry 59. -/
def Obligations.SavedContexts : Prop :=
  (∀ (s : State) (a d : BitVec 5), isSys s = true →
    let va := gr s a
    let q := myCore s
    let places := imagePlaces q.lanes (!q.vec.vrs.isEmpty) (rowsOf q)
    let ends (i : Instr) (u : State) (v : BitVec 64) (vec : Vec → Prop) : Prop :=
      ∃ t, exec i s = .next t ∧ GoesOn u t ((me u).pc + 4) ∧ Wrote u t d v ∧ OthersKept u t ∧ (me t).kept = (me u).kept ∧
        (∀ b, byteAt t b = byteAt u b) ∧ vec (myCore t).vec
    (va.toNat % 4096 ≠ 0 → TakesTrap (.savev a d) s .misalign va ∧ TakesTrap (.rstv a d) s .misalign va) ∧
    (va.toNat % 4096 = 0 → q.quiet = false → isVecHart s = false →
      let holds (i : Instr) : Prop := ∃ t, exec i s = .next t ∧ me t = { me s with wait := .settle } ∧ RestKept s t
      holds (.savev a d) ∧ holds (.rstv a d)) ∧
    (va.toNat % 4096 = 0 → q.quiet = true →
      (q.gang ≠ 1 → Gives (.savev a d) s 4 d 2 ∧ Gives (.rstv a d) s 4 d 2) ∧
      (q.gang = 1 → q.vec.bound = false → Gives (.savev a d) s 4 d 1 ∧ Gives (.rstv a d) s 4 d 1) ∧
      (q.gang = 1 → q.vec.bound = true →
        (∀ s1, imageOut va ((0, vecHeader s s.curCore) :: places.map fun o => (o, imageLine s s.curCore o)) (readChunks (fun _ => true) s) = .ok () s1 →
          ends (.savev a d) s1 0 fun v => v.vdirty = 0 ∧ (∀ n : Fin 32, v.vhw.get n = 0) ∧
            { v with vdirty := (myCore s1).vec.vdirty, vhw := (myCore s1).vec.vhw } = (myCore s1).vec) ∧
        (∀ s1 x, imageIn va [0] [] s = .ok [(0, x)] s1 →
          (hdrNarr x ≠ (myCore s1).narr → ends (.rstv a d) s1 3 fun v => v = (myCore s1).vec) ∧
          (hdrNarr x = (myCore s1).narr → hdrOk x (myCore s1).glanes 0 0 = false → ends (.rstv a d) s1 4 fun v => v = (myCore s1).vec) ∧
          (∀ s2 l, hdrNarr x = (myCore s1).narr → hdrOk x (myCore s1).glanes 0 0 = true →
            imageIn va (imagePlaces (myCore s1).lanes (hdrVrsp x) (hdrRows x)) [] s1 = .ok l s2 →
            ends (.rstv a d) s2 0 fun v =>
              v.vl = BitVec.ofNat 64 (byteField x 0 4) ∧ v.vstart = BitVec.ofNat 64 (byteField x 4 4) ∧
              v.vtype = BitVec.ofNat 64 (byteField x 8 8) ∧ v.vdirty = BitVec.ofNat 64 (byteField x 16 4) ∧
              v.vflags = BitVec.ofNat 64 (byteField x 23 1) ∧ (∀ n : Fin 32, v.vpi.get n = v.vstart) ∧
              (∀ n : Fin 32, v.vhw.get n = BitVec.ofNat 64 (hdrRows x n.val * (myCore s1).glanes)) ∧
              v.slot = (myCore s2).vec.slot ∧ v.bound = (myCore s2).vec.bound ∧ v.convoy = [] ∧ v.dtu = [] ∧
              let w := imageVec (myCore s2).vec (myCore s1).lanes (myCore s1).glanes x l
              v.v = w.v ∧ v.acc = w.acc ∧ v.vrs = w.vrs ∧ v.mstat = w.mstat))))) ∧
  (∀ (s : State) (c : Nat), c < 2048 → State.memOk s → (colAt s (colOf c)).tripped = false →
    let q := coreAt s c
    let ends (n : Nat) : Out := .next (setCore s c { q with svctl := BitVec.ofNat 64 (2 ^ 32 * n) })
    let banks := (List.range 16).filter fun w => decide (16 ≤ w + q.nbank)
    (q.svctl.getLsbD 63 = true → q.svctl.getLsbD 0 = true →
      (q.job = 0 → exec (.save c) s = ends 1) ∧
      (q.job ≠ 0 → q.gang = 1 → coreStopped s c none = true → q.waiters = [] →
        (areaBase s c (areaBanks q.nbank) = none → exec (.save c) s = ends 2) ∧
        (∀ a k, areaBase s c (areaBanks q.nbank) = some (a, k) → areaBase s c 0 = some (a, k) → a % 64 = 0 → homed s a = true →
          (banks.any fun w => lineBad s (bankGpa s c w 0)) = false → (∀ j : Fin 8, (hartAt s c j).frames.length ≤ 2) →
          ∃ t, exec (.save c) s = .next t ∧ (coreAt t c).ctxjob = 0 ∧ (coreAt t c).svctl = 0 ∧ (∀ j, (hartAt t c j).st = .idle) ∧
            (∀ i < 2048, dword t.mem (a + 8 * i) = BitVec.ofNat 64 ((areaWords s c).getD i 0)) ∧ (∀ x, x ≠ c → coreAt t x = coreAt s x)))) ∧
    (q.svctl.getLsbD 63 = true → q.svctl.getLsbD 1 = true → q.svctl.getLsbD 0 = false →
      (q.job ≠ 0 → exec (.restore c) s = ends 1) ∧
      (q.job = 0 → areaBase s c 0 = none → exec (.restore c) s = ends 2) ∧
      (∀ a k, q.job = 0 → slotsIdle s c = true → q.waiters = [] → areaBase s c 0 = some (a, k) → a % 64 = 0 → homed s a = true →
        let w := areaWord s a
        (w 0).toNat / 256 % 4 = 0 → areaBase s c (areaBanks ((w 2).toNat / 256 % 256)) = some (a, k) →
        (colAt s k).bad = [] → (colAt s k).soft = [] → (colAt s k).sliceBad = [] → (colAt s k).sliceSoft = [] →
        (areaOk s a 0 0 = false → ∃ t, exec (.restore c) s = .next t ∧ coreAt t c = { q with svctl := BitVec.ofNat 64 (2 ^ 32 * 4) } ∧
          (∀ x, x ≠ c → coreAt t x = coreAt s x) ∧ ∀ x, byteAt t x = byteAt s x) ∧
        (areaOk s a 0 0 = true → (colAt s (colOf c)).layerctl.getLsbD 2 = false →
          (∀ j : Fin 8, (w (64 + 64 * j.val)).toNat / 8 % 16 ≤ 2 ∧ (w (64 + 64 * j.val)).getLsbD 7 = false) →
          ∃ t, exec (.restore c) s = .next t ∧ (coreAt t c).ctxjob = w 1 ∧ (coreAt t c).svctl = 0 ∧
            (coreAt t c).narr = (w 2).toNat % 256 ∧ (coreAt t c).nbank = (w 2).toNat / 256 % 256 ∧
            (∀ n : Fin 8, (coreAt t c).mb.get n = w (8 + n.val)) ∧
            (∀ (j : Fin 8) (r : BitVec 5), r ≠ 0 → (hartAt t c j).gr r = w (64 + 64 * j.val + r.toNat)) ∧
            (∀ j : Fin 8, (hartAt t c j).pc = (w (64 + 64 * j.val + 40)).setWidth 48 ∧
              ((hartAt t c j).st = .idle ↔ (w (64 + 64 * j.val)).toNat % 4 = 0)) ∧ (∀ x, x ≠ c → coreAt t x = coreAt s x)))))

/-- R418 to R420: at system level `migrate` answers each status of R418 without moving anything; for a stopped core it moves the context: the
destination takes the source's CTXJOB, CTXLC, mailboxes, tokens, ring and every slot's registers, the source is unbound, a forwarding
entry names the destination, and the instruction answers 0, on the destination when the core moves itself. A source that has not stopped,
or a power transition at the destination (R129), parks the hart. `fwdclr` drops the job's entries for one source core, or all of them for
0x7FF, in every column. That the hart parks in its own slot is log entry 61; the order of the statuses and that the whole move is made in
one step, entry 62; an older entry that leads away from the destination goes, entry 133. -/
def Obligations.Moves : Prop :=
  ∀ (s : State) (a b d : BitVec 5), isSys s = true → Fenced s →
    let x := (gr s a).toNat % 2048
    let y := (gr s b).toNat % 2048
    let own : Bool := x == s.curCore.val
    let stopped : Bool := coreStopped s x (if own then some s.curSlot else none) && !(colAt s (colOf y)).layerctl.getLsbD 2
    (moveStatus s x y ≠ 0 → Gives (.migrate b a d) s 4 d (BitVec.ofNat 64 (moveStatus s x y))) ∧
    (moveStatus s x y = 0 → stopped = false → ∃ t, exec (.migrate b a d) s = .next t ∧ ParksFor s t (.migrate x) ∧ RestKept s t) ∧
    (moveStatus s x y = 0 → stopped = true → (coreAt s x).waiters = [] → (coreAt s y).waiters = [] → entriesHomed s x = true → ((List.finRange 8).all fun k => (pendingFault s x k).isNone) = true →
      ∃ t, exec (.migrate b a d) s = .next t ∧
        (coreAt t y).ctxjob = (coreAt s x).ctxjob ∧ (coreAt t y).ctxlc = (coreAt s x).ctxlc ∧ (coreAt t y).mb = (coreAt s x).mb ∧
        (coreAt t y).mbFull = (coreAt s x).mbFull ∧ (coreAt t y).tok = (coreAt s x).tok ∧ (coreAt t y).ring = (coreAt s x).ring ∧
        (coreAt t x).ctxjob = 0 ∧
        (∃ f ∈ (colAt t (colOf x)).fwd, f.job = (coreAt s x).job ∧ f.src = idxOf x ∧ f.dst = y) ∧
        (∀ k r, (own = true → k ≠ s.curSlot ∨ r ≠ d) → (hartAt t y k).gr r = (hartAt s x k).gr r) ∧
        (∀ k, (own = true → k ≠ s.curSlot) → (hartAt t y k).pc = (hartAt s x k).pc) ∧
        (if own = true then (hartAt t y s.curSlot).pc = (me s).pc + 4 ∧ (hartAt t y s.curSlot).gr d = 0
         else y ≠ s.curCore.val → GoesOn s t ((me s).pc + 4) ∧ Wrote s t d 0)) ∧
    (∃ t, exec (.fwdclr b a) s = .next t ∧ GoesOn s t ((me s).pc + 4) ∧ (∀ r, gr t r = gr s r) ∧ (me t).kept = (me s).kept ∧ RestKept { s with cols := t.cols } t ∧
      (∀ c f, f ∈ (colAt t c).fwd ↔ f ∈ (colAt s c).fwd ∧
        ¬ (f.job = (gr s a).setWidth 32 ∧ ((gr s b).toNat % 2048 = 0x7FF ∨ f.src = (gr s b).toNat % 2048))) ∧
      ∀ c, { colAt t c with fwd := [] } = { colAt s c with fwd := [] })

/-! ## What the machine does besides instructions -/

/-- R2, R3, R51, R74, R79, R113, R366, R456, R461, R462, R465: a counter that clears when read reads 0 after its event; the host's write of a
column register through BAR4 sets its writable bits and its read gives the register; the mailbox answers reads of 8 bytes, and of 4 in ARG
and RESP; another size completes with the unsupported-request status and changes nothing; JOBLCT and LCTBASE drop the job's cached
entries; the scrubber corrects and counts a correctable line and logs an uncorrectable one; a COMMIT under way burns the soft repairs, or
fails when too few slots are free. Nothing else changes. R457, R459 to R463: enabled ports train when asked, each sending its capability
flit (version 2.1, both features, the own device number), unless the start ended in minimal mode, where no port trains; a training port
whose partner's flit has major version 2 and another device number comes up, and otherwise stays down; an allowance grant adds; a host
access of DRAM through CXL.mem writes its bytes at the home, or answers with the bytes it reads, or with poison where the line has an
uncorrectable error, in its slice where the slice holds it, else in DRAM. -/
def Obligations.ColumnEvents : Prop :=
  (∀ (s : State) (k : Fin 8) (v : BitVec 64),
    let c := colAt s k
    let becomes (i : Instr) (c' : Column) : Prop := exec i s = .next (setCol s k c')
    becomes (.cecntRead k.val) { c with cecnt := 0 } ∧
    (∀ e : Fin 16, becomes (.cebytesRead k.val e.val) { c with cebytes := c.cebytes.set e.val 0 } ∧
      becomes (.cereqsRead k.val e.val) { c with cereqs := c.cereqs.set e.val 0 }) ∧
    (∀ e : Fin 2, becomes (.clelemsRead k.val e.val) { c with clelems := c.clelems.set e.val 0 } ∧
      becomes (.czinRead k.val e.val) { c with czin := c.czin.set e.val 0 } ∧
      becomes (.czoutRead k.val e.val) { c with czout := c.czout.set e.val 0 }) ∧
    (s.fabric.dev.toNat < 0xFE → c.vbstat.getLsbD 63 = false →
      let written (r : Nat) (c' : Column) : Prop := exec (.registerWrite 4 (2 ^ 24 * k.val + r) ⟨8, true, v⟩) s = .next (barDone (some 0) (setCol s k c'))
      let reads (r : Nat) (x : BitVec 64) : Prop := exec (.registerWrite 4 (2 ^ 24 * k.val + r) ⟨8, false, v⟩) s = .next (barDone (some x) s)
      written 0x2000 { c with cmpdir := v &&& 0x00FFFFFFFFFFFFC0 } ∧ written 0x2008 { c with cmpva := v &&& 0xFFFFFFFFFFFFFFC0 } ∧
      written 0x2010 { c with cmptgt := v &&& 0x00FFFFFFFFFFFFC0 } ∧ written 0x2018 { c with cmpbar := v &&& 0x00FFFFFFFFFFFFC0 } ∧
      written 0x3100 { c with errinfo := c.errinfo &&& ~~~(v &&& 0xC000000000000000) } ∧
      reads 0x2000 c.cmpdir ∧ reads 0x3000 c.vbstat ∧ reads 0x3100 c.errinfo ∧ reads 0x3108 c.erraddr ∧ reads 0x3200 c.layerctl ∧
      (k = 0 → exec (.registerWrite 4 0x4000 ⟨8, true, v⟩) s =
        .next (barDone (some 0) { s with dist := { s.dist with dqbase := v &&& 0x00FFFFFFFFFE0000 } }))) ∧
    (∀ (bar : BitVec 3) (off n : Nat) (wr : Bool), (n ≠ 8 ∧ n ≠ 4) ∨ off % n ≠ 0 ∨ (n = 4 ∧ bar ≠ 2) → exec (.registerWrite bar off ⟨n, wr, v⟩) s = .next (barDone none s)) ∧
    (∀ off, off < 0x1000 → s.boot.rstBusy = false → (colAt s 0).tripped = false →
      (off % 8 = 0 → exec (.registerWrite 2 off ⟨8, false, v⟩) s = .next (barDone (some (mailboxRead s off 8)) s)) ∧
      (off % 4 = 0 → 0x100 ≤ off → exec (.registerWrite 2 off ⟨4, false, v⟩) s = .next (barDone (some (mailboxRead s off 4)) s) ∧
        exec (.registerWrite 2 off ⟨4, true, v⟩) s = .next (barDone (some 0) (mailboxWrite off 4 v s)))) ∧
    (∀ j : Fin 16, ∃ t, exec (.joblctWrite k.val j.val v) s = .next t ∧
      (colAt t k).joblct = c.joblct.set j.val (v &&& 0x801FFFFFFFFFFFFF) ∧
      (∀ x, x ∈ (colAt t k).lctCache ↔ x ∈ c.lctCache ∧ x.1 ≠ (c.joblct.get j).setWidth 32 ∧ x.1 ≠ v.setWidth 32) ∧
      t = setCol s k { c with joblct := (colAt t k).joblct, lctCache := (colAt t k).lctCache }) ∧
    (∀ j : Fin 16, ∃ t, exec (.lctbaseWrite k.val j.val v) s = .next t ∧
      (colAt t k).lctbase = c.lctbase.set j.val (v &&& 0x00FFFFFFFFFFFFC0) ∧
      (∀ x, x ∈ (colAt t k).lctCache ↔ x ∈ c.lctCache ∧ x.1 ≠ (c.joblct.get j).setWidth 32) ∧
      t = setCol s k { c with lctbase := (colAt t k).lctbase, lctCache := (colAt t k).lctCache }) ∧
    (∀ line, line < 0x30000000 →
      (line ∉ c.bad → line ∈ c.soft → ∃ t, exec (.patrolScrub k.val line) s = .next t ∧ line ∉ (colAt t k).soft ∧
        (colAt t k).cecnt = (if c.cecnt = 0xFFFFFFFF then c.cecnt else c.cecnt + 1) ∧
        t = setCol s k { c with soft := (colAt t k).soft, cecnt := (colAt t k).cecnt }) ∧
      (line ∈ c.bad → c.errinfo.getLsbD 63 = false → ∃ t, exec (.patrolScrub k.val line) s = .next t ∧
        (colAt t k).errinfo.getLsbD 63 = true ∧ (colAt t k).erraddr = BitVec.ofNat 64 (mkGpa s k.val (64 * line)) ∧
        t.boot.intstat.getLsbD 3 = true ∧ t.mem = s.mem ∧ t.cores = s.cores) ∧
      (line ∉ c.bad → line ∉ c.soft → exec (.patrolScrub k.val line) s = .next s)) ∧
    (let free := c.vbstat.toNat / 2 ^ 48 % 256
     let soft := c.vbstat.toNat / 2 ^ 40 % 256
     let used := c.vbstat.toNat / 2 ^ 32 % 256
     (c.vbctl.getLsbD 2 = false → becomes (.commit k.val) c) ∧
     (c.vbctl.getLsbD 2 = true → free < soft → becomes (.commit k.val) { c with vbctl := 1 }) ∧
     (c.vbctl.getLsbD 2 = true → soft ≤ free → used + soft < 256 → ∃ t, exec (.commit k.val) s = .next t ∧
       (colAt t k).vbstat = (c.vbstat &&& 0xFF000000FFFFFFFF) ||| BitVec.ofNat 64 (2 ^ 48 * (free - soft) + 2 ^ 32 * (used + soft)) ∧
       (colAt t k).vbctl = c.vbctl &&& 1 ∧ t = setCol s k { c with vbstat := (colAt t k).vbstat, vbctl := (colAt t k).vbctl }))) ∧
  (∀ (s : State),
    (s.boot.minimal = true → exec .train s = .next s ∧ ∀ p major minor feat dev, p < 16 → exec (.capabilityFlit p major minor feat dev) s = .next s) ∧
    (s.boot.minimal = false → ∃ t, exec .train s = .next t ∧ t.fabric.training = s.fabric.enable ∧
      (∀ p, p < 16 → s.fabric.enable.getLsbD p = true → (p, Flit.capability 2 1 3 s.fabric.dev) ∈ t.fabric.sent) ∧
      t.fabric.tflstat = s.fabric.tflstat ∧ { t with fabric := s.fabric } = s) ∧
    (∀ (p : Fin 16) (major minor : BitVec 8) (feat : BitVec 16) (dev : BitVec 8), s.boot.minimal = false → s.fabric.training.getLsbD p.val = true →
      let up : Bool := major == 2 && dev != s.fabric.dev
      ∃ t, exec (.capabilityFlit p.val major minor feat dev) s = .next t ∧
        (t.fabric.tflstat.get p).extractLsb' 62 2 = (if up then 1 else if major ≠ 2 then 2 else 3) ∧
        (t.fabric.tflstat.get p).extractLsb' 40 8 = dev ∧ (t.fabric.tflstat.get p).extractLsb' 16 8 = major ∧
        (t.fabric.tflstat.get p).extractLsb' 8 8 = (if up then (if minor = 0 then 0 else 1) else 0) ∧
        (t.fabric.tflstat.get p).setWidth 8 = (if up then (feat &&& 3).setWidth 8 else 0) ∧
        (∀ q : Fin 16, q ≠ p → t.fabric.tflstat.get q = s.fabric.tflstat.get q) ∧
        t.fabric.training = s.fabric.training &&& ~~~(1#16 <<< p.val) ∧ t.cores = s.cores ∧ t.cols = s.cols ∧ t.mem = s.mem) ∧
    (∀ (p : Fin 16) (cls : BitVec 2) (n : Nat), ∃ t, exec (.allowanceGrant p.val cls n) s = .next t ∧
      (∀ k, tabGet 0 t.fabric.allow k = tabGet 0 s.fabric.allow k + (if k = 4 * p.val + cls.toNat then n else 0)) ∧
      t = { s with fabric := { s.fabric with allow := t.fabric.allow } }) ∧
    (∀ (k : Fin 8) (off n : Nat) (data : List (BitVec 8)), s.fabric.dev.toNat < 0xFE → 1 ≤ n → off % 64 + n ≤ 64 → off + n ≤ 0xC00000000 →
      s.boot.rstBusy = false → s.boot.minimal = false → (colAt s k).tripped = false → (colAt s k).vbstat.getLsbD 63 = false →
      let a := mkGpa s k.val off
      let bad : Prop := (colAt s k).lineErr off = true
      (s.cores.all fun q => q.2.cw.isEmpty) = true → homeBarred s true a = false →
      (State.memOk s → ¬ bad → ∃ t, exec (.cxlMemAccess k.val off n true data) s = .next t ∧
        (∀ b, byteAt t b = if a ≤ b ∧ b < a + n then data.getD (b - a) 0 else byteAt s b) ∧ t.cores = s.cores ∧ t.net = s.net) ∧
      (∃ t, exec (.cxlMemAccess k.val off n false data) s = .next t ∧ t.mem = s.mem ∧ t.cores = s.cores ∧ t.net = s.net ∧
        (¬ bad → t.boot.cxlPoison = false ∧ ∀ i, i < n → t.boot.cxlData.getD i 0 = byteAt s (a + i)) ∧
        (bad → t.boot.cxlPoison = true))))

/-- R80 to R83, R129, R134, R146, R147, R468, R469: a request for the upper layer starts a transition, or changes nothing where the layer
already is as asked; the transition ends with the layer off or on, ways 8 to 15 of the column reading zero; a reading stores the 13 voted
temperatures and applies the limits; clearing TRIP with every reading below the trip figures asks for the column's warm reset; and a
privileged-view write sets the writable bits of its register. -/
def Obligations.PowerAndViewEvents : Prop :=
  ∀ (s : State) (k : Fin 8),
    let c := colAt s k
    let w := c.layerctl
    let mine (x : Nat) : Prop := (∃ q, (x, q) ∈ s.cores) ∧ colOf x = k
    (∀ on : Bool, c.vbstat.getLsbD 62 = false →
      ∃ t, exec (.layerctlReq k.val on) s = .next t ∧
        (w.getLsbD 2 = true → t = setCol s k { c with layerNext := some on }) ∧
        (w.getLsbD 2 = false → (colAt t k).layerctl = (w &&& 1) ||| (w &&& ~~~7) ||| (if on then 2 else 0) ||| (if w.getLsbD 0 = on then 0 else 4) ∧
          t = setCol s k { c with layerctl := (colAt t k).layerctl })) ∧
    (w &&& 7 = 5 → c.layerNext = none → (∀ x, mine x → (coreAt s x).quiet = true ∧ (wayChange s x).isNone = true ∧ (coreAt s x).cw = [] ∧ (coreAt s x).waiters = []) →
      ∃ t, exec (.layerPowerOff k.val) s = .next t ∧ (colAt t k).layerctl &&& 7 = 0 ∧
        (∀ x n b, mine x → x < 2048 → 8 ≤ n → n < 16 → b < 2 ^ 18 → byteAt t (bankGpa s x n b) = 0) ∧
        (∀ x, ¬ mine x → coreAt t x = coreAt s x)) ∧
    (w &&& 7 = 6 → c.layerNext = none → ∃ t, exec (.layerPowerOn k.val) s = .next t ∧ (colAt t k).layerctl = (w &&& ~~~7) ||| 3 ∧
      (∀ x n b, mine x → x < 2048 → 8 ≤ n → n < 16 → b < 2 ^ 18 → byteAt t (bankGpa s x n b) = 0) ∧
      { colAt t k with layerctl := w } = c ∧ (∀ j, j ≠ k → colAt t j = colAt s j) ∧ (∀ x, ¬ mine x → coreAt t x = coreAt s x) ∧ t.net = s.net) ∧
    (∀ (raw : List (BitVec 16)) (watts : BitVec 16), raw.length = 13 →
      let l := raw.map (·.toInt)
      ∃ t, exec (.tempReading k.val raw watts) s = .next t ∧
        (∀ i : Fin 13, (colAt t k).therm.get i = ((raw.getD i.val 0).zeroExtend 64 <<< 32) |||
          (if sensorFailed l i.val then 1#64 <<< 31 else 0) ||| (BitVec.ofInt 16 (sensorTemp l i.val)).zeroExtend 64) ∧
        ((∃ i : Fin 13, tripAt i.val ≤ tempOf (colAt t k) i.val) → (colAt t k).thermctl.getLsbD 63 = true ∧ (colAt t k).tripped = true) ∧
        ((∃ i : Fin 13, hotAt i.val ≤ tempOf (colAt t k) i.val) → (colAt t k).thermctl.getLsbD 62 = true) ∧
        (colAt t k).thermctl.setWidth 16 = c.thermctl.setWidth 16 ∧
        (colAt t k).clk16 = (if (c.thermctl.setWidth 16).toNat < watts.toNat then max 1 (c.clk16 - 1) else c.clk16) ∧
        t.mem = s.mem ∧ t.cores = s.cores) ∧
    (c.thermctl.getLsbD 63 = true → (∀ i : Fin 13, tempOf c i.val < tripAt i.val) →
      ∃ t, exec (.tripClear k.val) s = .next t ∧ (colAt t k).thermctl = c.thermctl &&& ~~~(1#64 <<< 63) ∧
        t.boot.rstBusy = true ∧ t.boot.rstCols = s.boot.rstCols ||| (1#8 <<< k.val) ∧ t.boot.intstat.getLsbD 4 = true ∧ t.mem = s.mem ∧ t.cores = s.cores) ∧
    (∀ (x : Nat) (j : BitVec 3) (v : BitVec 64) (n : Nat) (m : BitVec 64), x < 2048 → (sysGet s x j.toFin n).isSome = true →
      ((coreAt s x).quiet = true ∨ 0x10 ≤ n) →
      (n, m) ∈ [(2, 0x3FFFFFF), (3, 0x3F), (4, 0xFFFFFFFF), (0x11, 0xFFFFFFFFFFFFFFFF), (0x12, 0xFFFFFFFFFFFFFFFF),
        (0x14, 0xFFFFFFFFFFFFFFFF), (0x15, 0x3FF &&& ~~~(1#64 <<< (colOf x).val)), (0x16, 0xFFFFFFFF), (0x17, 0xFFFFFFFF), (0x18, 0x71F)] →
      ∃ t, exec (.privilegedViewWrite x j (BitVec.ofNat 12 (0xA00 + n)) v) s = .next t ∧ sysGet t x j.toFin n = some (v &&& m) ∧
        (∀ r, (hartAt t x j.toFin).gr r = (hartAt s x j.toFin).gr r) ∧ (∀ y, y ≠ x → coreAt t y = coreAt s y) ∧ t.mem = s.mem ∧ t.kept = s.kept) ∧
    (∀ (x : Nat) (j : BitVec 3) (v : BitVec 64), x < 2048 → (coreAt s x).quiet = true →
      ∃ t, exec (.mstatWrite x j v) s = .next t ∧
        (v.getLsbD 63 = false → (coreAt t x).mm = false ∧ (coreAt t x).mvl = 0) ∧
        (v.getLsbD 63 = true → v.toNat % 8 = 0 → 8 ≤ v.toNat % 128 → v.toNat % 128 ≤ 64 → (coreAt t x).mm = true ∧ (coreAt t x).mvl = v.toNat % 128) ∧
        (coreAt t x).vec.mstat.getLsbD 32 = v.getLsbD 32 ∧ { (coreAt t x).vec with mstat := 0 } = { (coreAt s x).vec with mstat := 0 } ∧
        { coreAt t x with vec := (coreAt s x).vec } = coreAt s x ∧ (∀ y, y ≠ x → coreAt t y = coreAt s y) ∧ t.kept = s.kept)

/-- R4, R76, R77, R463, R467: a cold reset leaves every register at its Reset value, no byte of the device's memory set, and the columns'
buses trained; a warm reset clears the cores of the columns it names, zeroes their ways, writes the slices back, keeps DRAM, and trains
their buses; THERMCTL bits that it changes raise vector 4 (R466). That memory reads 0 after a cold reset is log entry 1, what a reset of
column 0 takes and what survives it is entry 77: the model's. R463, R466: the boot controller verifies, measures and starts each stage in
order and then waits for OK; a check that fails, or OK not written in time, ends the start, counted to at most 3, with its cause; OK,
written when every earlier step has passed, ends it and clears the count, and raises vector 5 whenever it is written. What a verification
or a training answers is free. That a start fails by the training of column 0 alone is log entry 70, that it has then ended until the next
reset entry 72: the model's. -/
def Obligations.ResetAndBootEvents : Prop :=
  (∀ (s : State) (m : BitVec 8),
    (∃ t, exec .coldReset s = .next t ∧ t.cores = [] ∧ t.net = [] ∧ t.entries = [] ∧ t.dist = State.reset.dist ∧ t.night = State.reset.night ∧
      t.fabric = State.reset.fabric ∧ t.boot.starting = true ∧ t.boot.step = 1 ∧ t.boot.meas0 = 0 ∧ t.boot.meas1 = 0 ∧
      t.boot.image1 = s.boot.image1 ∧ t.boot.image2 = s.boot.image2 ∧ t.boot.fails = s.boot.fails ∧
      (∀ b, gpaDev b = s.fabric.dev.toNat ∨ gpaDev b = 0 → byteAt t b = 0) ∧
      (∀ b, gpaDev b ≠ s.fabric.dev.toNat → gpaDev b ≠ 0 → byteAt t b = byteAt s b) ∧
      ∀ k, { colAt t k with vbstat := 0, layerctl := 0 } = { Column.reset with vbstat := 0, layerctl := 0 } ∧
        (colAt t k).vbstat.extractLsb' 48 8 = (colAt s k).vbstat.extractLsb' 48 8 ∧
        (colAt t k).vbstat.getLsbD 63 = !Config.coreBusPasses k.val s.clock) ∧
    (∃ t, exec (.warmReset m) s = .next t ∧ t.boot.rstBusy = false ∧
      let cols := if s.boot.rstBusy then s.boot.rstCols else m
      (∀ k : Fin 8, cols.getLsbD k.val = true →
        (∀ x, x < 2048 → colOf x = k → coreAt t x = { Core.reset with cycBase := s.clock }) ∧
        (State.memOk s → ∀ x w b, x < 2048 → colOf x = k → w < 16 → b < 2 ^ 18 → byteAt t (bankGpa t x w b) = 0) ∧
        (∀ ln, ln ∈ (colAt t k).bad ↔ if ln ∈ (colAt s k).dirtyLines then ln ∈ (colAt s k).sliceBad else ln ∈ (colAt s k).bad) ∧
        ((colAt s k).sliceSoft = [] → (colAt t k).cecnt = (colAt s k).cecnt) ∧
        (cols.getLsbD 0 = false → (colAt s k).thermctl.extractLsb' 62 2 ≠ 0 → t.boot.intstat.getLsbD 4 = true) ∧ (colAt t k).errinfo = (colAt s k).errinfo ∧
        (colAt t k).eng = Column.reset.eng ∧ (colAt t k).bars = [] ∧ (colAt t k).layerctl = (if Config.layerBusPasses k.val s.clock then 3 else 2)) ∧
      (∀ k : Fin 8, cols.getLsbD k.val = false → colAt t k = colAt s k ∧ ∀ x, colOf x = k → coreAt t x = coreAt s x) ∧
      (State.memOk s → ∀ (k : Fin 8) off, off < 0xC00000000 → byteAt t (mkGpa t k.val off) = byteAt s (mkGpa s k.val off)))) ∧
  (∀ (s : State), s.boot.starting = true →
    let b := s.boot
    let on (t : State) (n : Nat) : Prop := t.boot.step = n ∧ t.boot.starting = true ∧ t.mem = s.mem ∧ t.cores = s.cores
    let failed (t : State) (why : BitVec 4) : Prop := t.boot.starting = false ∧ t.boot.bootwhy = why ∧
      t.boot.fails = (if b.fails = 3 then 3 else b.fails + 1) ∧ t.boot.minimal = (t.boot.fails == 3) ∧ t.boot.intstat.getLsbD 5 = true ∧
      t.mem = s.mem ∧ t.cores = s.cores
    (b.step = 1 → ∃ t, exec .boot s = .next t ∧
      if Config.verifies b.keyDigest b.image1 = false then failed t 1
      else if (Config.version b.image1).toNat < b.minVer1.toNat then failed t 2 else on t 2) ∧
    (b.step = 2 → ∃ t, exec .boot s = .next t ∧ on t 3 ∧ t.boot.meas0 = Config.shake512 (bytes512 b.meas0 ++ bytes512 (Config.shake512 b.image1))) ∧
    (b.step = 3 → ∃ t, exec .boot s = .next t ∧ (∀ k, (colAt t k).vbstat.getLsbD 63 = !Config.coreBusPasses k.val s.clock) ∧
      if Config.coreBusPasses 0 s.clock = false then failed t 6 else on t 4) ∧
    (b.step = 4 → ∃ t, exec .boot s = .next t ∧
      if Config.verifies b.keyDigest b.image2 = false then failed t 3
      else if (Config.version b.image2).toNat < b.minVer2.toNat then failed t 4
      else on t 5 ∧ t.boot.meas1 = Config.shake512 (bytes512 b.meas1 ++ bytes512 (Config.shake512 b.image2))) ∧
    (b.step = 5 → ∃ t, exec .boot s = .next t ∧ if Config.cxlTrains s.clock = false then failed t 7 else on t 6) ∧
    (b.on + 2 ^ 32 ≤ s.clock → ∃ t, exec .bootTimeout s = .next t ∧ failed t 5) ∧
    (s.clock < b.on + 2 ^ 32 → exec .bootTimeout s = .next s) ∧
    (∃ t, exec .bootctlOk s = .next t ∧ (b.step = 6 → t.boot.starting = false ∧ t.boot.fails = 0) ∧
      (b.step ≠ 6 → t.boot.starting = true ∧ t.boot.fails = b.fails) ∧ t.boot.intstat.getLsbD 5 = true ∧
      t.mem = s.mem ∧ t.cores = s.cores ∧ t.cols = s.cols))

/-- R464, R465, R467: a command of the management mailbox ends with its result and response, BUSY clear and vector 0 raised: too short an
argument is 3, one that minimal mode does not allow is 2 (for NIGHTREG even with a short argument: the model's choice, log entry 135), a
RESET while one runs is 5 (the model's reading, log entry 74); otherwise ATTEST answers the nonce and the report, RESET asks for the warm
reset of its columns, NIGHTREG reads or writes its register, and UPDATE stores its chunk. -/
def Obligations.MailboxCommands : Prop :=
  ∀ (s : State), s.boot.busy = true →
    let b := s.boot
    let ends (i : Instr) (result : Nat) (boot : Boot → Prop) : Prop := ∃ t, exec i s = .next t ∧
      t.boot.mbxsts = BitVec.ofNat 64 (2 ^ 32 * t.boot.resp.length + result) ∧ t.boot.intstat.getLsbD 0 = true ∧ boot t.boot ∧
      t.cores = s.cores ∧ t.cols = s.cols ∧ t.mem = s.mem
    let byte := b.argByte
    (b.code = 1 →
      (b.arglen < 32 → ends .attest 3 fun c => c.resp = []) ∧
      (32 ≤ b.arglen → ends .attest 0 fun c => c.resp.length = 30048 ∧ (∀ n, n < 32 → c.resp.getD n 0 = tabGet 0 b.arg n) ∧
        c.resp.getD 32 0 = s.fabric.dev)) ∧
    (b.code = 2 →
      (b.arglen < 1 → ends .mbxReset 3 fun c => c.rstBusy = b.rstBusy) ∧
      (1 ≤ b.arglen → b.minimal = true → byte 0 ≠ 1 → ends .mbxReset 2 fun c => c.rstBusy = b.rstBusy) ∧
      (1 ≤ b.arglen → (b.minimal = true → byte 0 = 1) → b.rstBusy = true → ends .mbxReset 5 fun c => c.rstCols = b.rstCols) ∧
      (1 ≤ b.arglen → (b.minimal = true → byte 0 = 1) → b.rstBusy = false → byte 0 ≠ 0 →
        ends .mbxReset 0 fun c => c.rstBusy = true ∧ c.rstCols = BitVec.ofNat 8 (byte 0))) ∧
    (b.code = 3 →
      (b.minimal = true → ends .nightreg 2 fun c => c.resp = []) ∧
      (b.minimal = false → 2 ≤ b.arglen → byte 0 = 0 → byte 1 ≤ 2 → (∀ n, 2 ≤ n → n < 8 → byte n = 0) →
        ends .nightreg 0 fun c => c.resp = bytes64 (if byte 1 = 0 then s.night.nfstat else if byte 1 = 1 then s.night.nfcause else s.night.nfctl))) ∧
    (b.code = 4 →
      let len := b.argWord 4 4
      (b.arglen < 16 → ends .update 3 fun c => c.image1 = b.image1 ∧ c.image2 = b.image2) ∧
      (16 + len ≤ b.arglen → byte 0 = 1 ∨ byte 0 = 2 → byte 1 < 4 → b.argWord 2 2 = 0 → 1 ≤ len → len ≤ 1776 →
        let old := if byte 1 % 2 = 1 then [] else if byte 0 = 1 then b.part1 else b.part2
        let part := old ++ (List.range len).map fun n => tabGet 0 b.arg (16 + n)
        (b.argWord 8 8 = old.length → old.length + len ≤ 2 ^ 26 → ends .update 0 fun c =>
          if byte 1 / 2 = 1 then (if byte 0 = 1 then c.image1 = part ∧ c.part1 = [] ∧ c.image2 = b.image2 else c.image2 = part ∧ c.part2 = [] ∧ c.image1 = b.image1)
          else (if byte 0 = 1 then c.part1 = part ∧ c.image1 = b.image1 else c.part2 = part ∧ c.image2 = b.image2)) ∧
        (b.argWord 8 8 ≠ old.length → ends .update 4 fun c => (if byte 0 = 1 then c.part1 = [] else c.part2 = []))))

/-- R53, R56, R59, R60, R71, R73, R192, R199, R201, R212, R419, R458: where a request goes next, and what its arrival does. A hop of the omega
network takes a request one stage on, the last one to its unit's queue; a reply comes one stage back, and at the end completes its hart's
instruction; an acknowledgement ends a write, its error held against the hart; a probe is answered and its echo counted; the router hands
a request to its column; reply entries and recent-write bits expire; the CXL completion of a host write is taken (R458); a beat received
badly is sent again, up to 8 times, and is then an error of its access. -/
def Obligations.PacketEvents : Prop :=
  ∀ (s : State) (p : Pkt), findPkt s p.id = some p →
    let id := p.id
    let store : Bool := match p.kind with | .store _ _ _ => true | _ => false
    let h := hartAt s p.core p.slot
    -- a beat of the request on a vertical bus, or on the network where the request is
    let onBeat (src : BitVec 4) : Prop :=
      id ≠ 0 ∧ (∀ i j x, p.loc ≠ .merged i j x) ∧ (∀ i j, p.loc ≠ .shared i j) ∧ (src = 3 ∨ src.toNat = lossSrc s p)
    (∀ j, p.loc = .omega j → store = true → (∀ q ∈ s.net, q.id = id ∨ colOf q.core ≠ colOf p.core) →
      (j < 8 → exec (.switchHop id) s = .next (withPkt s id { p with loc := .omega (j + 1) })) ∧
      (j = 8 → (∃ off, targetOf s p.gpa = .dram (colOf p.core) off) →
        exec (.switchHop id) s = .next { s with net := (withoutPkt s id).net ++ [{ p with loc := .queued }] })) ∧
    (∀ j, p.loc = .reply (j + 1) → noGuests s id = true → ∃ t, exec (.replyHop id) s = .next t ∧
      t.net = s.net.map (fun x => if x.id = id then { x with loc := .reply j } else x) ∧
      { t with net := [], entries := [] } = { s with net := [], entries := [] }) ∧
    (∀ op n x e d, p.loc = .reply 0 → p.wants = true → p.kind = .am op n x e d → p.err = false → p.core < 2048 → h.wait = .reply id →
      ∃ t, exec (.replyHop id) s = .next t ∧ t.net = (withoutPkt s id).net ∧ (hartAt t p.core p.slot).pc = h.pc + 4 ∧
        (hartAt t p.core p.slot).gr d = (if d = 0 then 0 else amWriteBack op n p.val) ∧
        (∀ r, r ≠ d → (hartAt t p.core p.slot).gr r = h.gr r) ∧ (coreAt t p.core).instret = (coreAt s p.core).instret + 1 ∧
        SlotOnly s t p.core p.slot) ∧
    (p.loc = .ack → store = true → p.core < 2048 → noRelease s p.core = true → ∃ t, exec (.acknowledgement id) s = .next t ∧
      t.net = (withoutPkt s id).net ∧ (hartAt t p.core p.slot).errAck = (if p.err = true ∧ (h.errAck = none ∨ id < h.errId) then some p.va else h.errAck) ∧
      (hartAt t p.core p.slot).bankOut = (if destOf s p.core p.gpa = .bank then h.bankOut - 1 else h.bankOut) ∧
      (∀ r, (hartAt t p.core p.slot).gr r = h.gr r) ∧ (hartAt t p.core p.slot).pc = h.pc ∧ SlotOnly s t p.core p.slot) ∧
    (∀ k, p.kind = .probe k → p.loc = .queued →
      (∀ q ∈ s.net, q.id < id → q.core = p.core → q.slot = p.slot → q.kind.isWrite = true →
        destOf s p.core q.gpa ≠ destOf s p.core p.gpa ∨ ∃ f, q.loc = .tokens f) →
      (k = 7 → destOf s p.core p.gpa = .host → ∀ w ∈ s.boot.hostWrites, w.1 < id → w.2.1 = p.core → w.2.2 ≠ p.slot) →
      exec (.probe id) s = .next (withPkt s id { p with loc := .reply 0 })) ∧
    (∀ k j, p.kind = .probe k → p.loc = .reply j → noRelease s p.core = true → ∃ t, exec (.echo id) s = .next t ∧
      t.net = (withoutPkt s id).net ∧ hartAt t p.core p.slot = { h with probes := h.probes - 1 } ∧ SlotOnly s t p.core p.slot) ∧
    (p.loc = .router → store = true → (colAt s (colOf p.core)).hold = false → routeBehind s p = false → (∃ c off, targetOf s p.gpa = .dram c off) →
      exec (.route id) s = .next { s with net := (withoutPkt s id).net ++ [{ p with loc := .queued }] }) ∧
    (∀ i, findPkt s i = none → exec (.acknowledgement i) s =
      .next { s with boot := { s.boot with hostWrites := s.boot.hostWrites.filter fun w => w.1 != i } }) ∧
    (∀ unit src, p.beats < 8 → onBeat src → exec (.beatRetransmission ⟨id, unit, src⟩ false) s = .next (withPkt s id { p with beats := p.beats + 1 })) ∧
    (∀ unit src j, 8 ≤ p.beats → onBeat src → store = true → p.wants = false → p.loc = .omega j → noGuests s id = true →
      ∃ t, exec (.beatRetransmission ⟨id, unit, src⟩ false) s = .next t ∧ t.net = (withPkt s id { p with beats := 0, val := 0, err := true, loc := .ack }).net ∧
        (colAt t (colOf p.core)).errinfo.getLsbD 63 = true ∧ t.mem = s.mem ∧ t.cores = s.cores) ∧
    (∀ unit src, onBeat src → ∃ t, exec (.beatRetransmission ⟨id, unit, src⟩ true) s = .next t ∧ t.net = (withPkt s id { p with beats := 0 }).net ∧
      (colAt t (colOf p.core)).cecnt = (if (colAt s (colOf p.core)).cecnt = 0xFFFFFFFF then (colAt s (colOf p.core)).cecnt
        else (colAt s (colOf p.core)).cecnt + 1) ∧ t.mem = s.mem ∧ t.cores = s.cores) ∧
    (∀ n e, s.entries[n]? = some e → e.opened + 512 ≤ s.clock → exec (.replyEntryExpiry n) s = .next { s with entries := s.entries.eraseIdx n }) ∧
    (∀ (c : Nat) (k : BitVec 3) (n : Nat), c < 2048 →
      let r := tabGet Recent.none (hartAt s c k.toFin).recent n
      r.out = 0 → r.count ≤ s.clock → r.bit = true → ∃ t, exec (.countdownExpiry c k n) s = .next t ∧
        (∀ m, tabGet Recent.none (hartAt t c k.toFin).recent m = if m = n then { r with bit := false } else tabGet Recent.none (hartAt s c k.toFin).recent m) ∧
        { hartAt t c k.toFin with recent := [] } = { hartAt s c k.toFin with recent := [] } ∧ SlotOnly s t c k.toFin)

/-- R53, R58, R120, R192, R196, R198, R419: a slice and a bank perform the request of theirs that waits, a store writing exactly its bytes and
being acknowledged; two reductions held together for one output become one with the sum; and the oldest entry of the write queue is stored
in the core's cache way, when that holds every token, waits for its tokens, or leaves as a request that its hart counts. -/
def Obligations.WritesArePerformed : Prop :=
  ∀ (s : State) (p : Pkt) (n : Nat) (x : BitVec 64) (nc : Bool), State.memOk s →
    (findPkt s p.id = some p → p.kind = .store n x nc → p.wants = false → noGuests s p.id = true →
      (∀ c off, p.loc = .queued → targetOf s p.gpa = .dram c off → (∀ q ∈ s.net, q = p ∨ q.loc ≠ .queued) →
        (colAt s c).tripped = false → p.coh = false → (colAt s c).vbstat.getLsbD 63 = false → off / 64 ∉ (colAt s c).bad → off / 64 ∉ (colAt s c).sliceBad → n ≤ 8 →
        (s.cores.all fun e => e.2.cw.isEmpty) = true →
        ∃ t, exec (.sliceRequest c.val (sliceOf off)) s = .next t ∧ Stored s t p.gpa n x.toNat ∧
          t.net = (withPkt s p.id { p with val := 0, err := false, loc := .ack }).net ∧ t.cores = s.cores) ∧
      (∀ c w, p.loc = .mesh → pktBank s p = some (c, w) → c < 2048 → w < 16 → (∀ q ∈ s.net, q = p ∨ q.loc ≠ .mesh ∧ q.loc ≠ .queued) →
        (colAt s (colOf c)).tripped = false → degradedAt s (redirect s p.job p.gpa) = false →
        bankCheck s c w = none → lineBad s (redirect s p.job p.gpa) = false → stopping s c = false →
        ∃ t, exec (.bankAccess c w) s = .next t ∧ Stored s t (redirect s p.job p.gpa) n x.toNat ∧
          t.net = (withPkt s p.id { p with gpa := redirect s p.job p.gpa, val := 0, err := false, loc := .ack }).net ∧
          { coreAt t c with bankLocal := [] } = { coreAt s c with bankLocal := [] } ∧ ∀ y, y ≠ c → coreAt t y = coreAt s y)) ∧
    (∀ (q : Pkt) (j : Nat) (a b : BitVec 64), s.net = [p, q] → p.id < q.id → p.loc = .omega j → together p q j = true →
      p.kind = .red .add 8 a → q.kind = .red .add 8 b → p.gpa = q.gpa → p.coh = q.coh → idxOf p.core < idxOf q.core → atHeldAlias s p = false →
      exec (.switchHop p.id) s = .next { s with net := [{ p with kind := .red .add 8 (a + b) }, { q with loc := .merged p.id j 0 }] }) ∧
    (∀ (c : Nat) (e : WEntry) (r : List WEntry), c < 2048 → (coreAt s c).wq = e :: r → assembling s c e = false → noRelease s c = true →
      (colAt s (colOf c)).tripped = false →
      (∀ q ∈ s.net, q.core = c → q.gpa / 64 ≠ e.gpa / 64) →
      let kind : PKind := match e.kind with | .store => .store e.n e.data e.nc | .red op => .red op e.n e.data | .vec m d => .vstore m d
      (e.nc = true ∨ e.kind ≠ .store ∨ cacheWays s c = 0 →
        ∃ t q, exec (.writeQueueDrain c) s = .next t ∧ (coreAt t c).wq = r ∧ t.net = s.net ++ [q] ∧ q.kind = kind ∧ q.gpa = e.gpa ∧
          q.va = e.va ∧ q.core = c ∧ q.slot = e.slot ∧ q.loc = startLoc s c e.gpa ∧ t.mem = s.mem ∧
          hartAt t c e.slot = (hartAt s c e.slot).leave (destOf s c e.gpa)) ∧
      (∀ l, e.nc = false → e.kind = .store → 0 < cacheWays s c → (coreAt s c).cwFind (e.gpa / 64) = some l → l.tokens = 256 →
        ∃ t, exec (.writeQueueDrain c) s = .next t ∧ (coreAt t c).wq = r ∧ t.net = s.net ∧ t.mem = s.mem ∧
          (coreAt t c).cwFind (e.gpa / 64) = some { l with data := linePut l.data (e.gpa % 64) e.n e.data.toNat, dirty := true } ∧
          hartAt t c e.slot = (hartAt s c e.slot).recentWrite (destOf s c e.gpa) s.clock) ∧
      (e.nc = false → e.kind = .store → 0 < cacheWays s c → (coreAt s c).cwFind (e.gpa / 64) = none →
        ∃ t q, exec (.writeQueueDrain c) s = .next t ∧ (coreAt t c).wq = r ∧ t.net = s.net ++ [q] ∧ q.kind = kind ∧ q.gpa = e.gpa ∧
          q.loc = .tokens 0 ∧ (hartAt t c e.slot).tokOut = (hartAt s c e.slot).tokOut + 1 ∧ t.mem = s.mem))

/-- R61 to R64, R68: a transient read that nothing bars brings its core a copy of the line with a token, and a transient write a copy with
every token that its store has made dirty; a request that fails is counted, after four failures it is persistent, and it is deactivated
when performed; an eviction sends a dirty owner's data home. R31, R34, R36, R39 to R41, R45, R116, R121: a hart that waits for a lock, a
header, an edit or a retry goes on when its time has come or what it waits for is free; a drop request takes the entries of its job that
meet the span out of each core and column it reaches, and its hart goes on with the last acknowledgement; the drops of RCCTL and L0CTL
empty what they name. -/
def Obligations.TokenAndRetryEvents : Prop :=
  (∀ (s : State) (p : Pkt), findPkt s p.id = some p → p.core < 2048 →
    let id := p.id
    let ln := p.gpa / 64
    let col := colOf p.core
    let h := hartAt s p.core p.slot
    let clear : Prop := barredBy s col (some p.core) ln = false ∧ lineLost s p.core ln = false ∧ 0 < cacheWays s p.core
    let empty : Bool := s.cores.all fun q => q.2.cw.isEmpty
    let copy (t : State) : Option CWLine := (coreAt t p.core).cwFind ln
    (∀ f, p.kind = .tokRead → p.loc = .tokens f → clear → persists s p.core ln = false → h.wait = .tokenReq id → ∃ t l, exec (.transientRead id) s = .next t ∧
      t.net = (withoutPkt s id).net ∧ (hartAt t p.core p.slot).wait = .none ∧ copy t = some l ∧
      (empty = true → l.tokens = 1 ∧ l.owner = false ∧ l.data = homeLine s ln)) ∧
    (∀ n x nc f, p.kind = .store n x nc → p.loc = .tokens f → clear →
      (∀ q ∈ s.net, q.id < id → q.core = p.core → q.gpa / 64 ≠ ln) → noRelease s p.core = true →
      persists s p.core ln = false → ∃ t l, exec (.transientWrite id) s = .next t ∧
      t.net = (withoutPkt s id).net ∧ (hartAt t p.core p.slot).tokOut = h.tokOut - 1 ∧ copy t = some l ∧ l.tokens = 256 ∧ l.dirty = true ∧
      (empty = true → l.data = linePut (homeLine s ln) (p.gpa % 64) n x.toNat)) ∧
    (∀ f, p.loc = .tokens f → p.born + 1024 * (f + 1) ≤ s.clock →
      exec (.transientFailure id) s = .next (withPkt s id { p with loc := .tokens (f + 1) })) ∧
    (∀ f, p.loc = .tokens f → 4 ≤ f → (ln, p.core, p.slot.val) ∉ (colAt s col).persist →
      exec (.persistentRequest id) s = .next (setCol s col { colAt s col with persist := (colAt s col).persist ++ [(ln, p.core, p.slot.val)] })) ∧
    (p.kind = .tokRead → p.loc = .mesh → ∃ t, exec (.deactivation id) s = .next t ∧ t.net = (withoutPkt s id).net ∧
      (∀ x, x ∈ (colAt t col).persist ↔ x ∈ (colAt s col).persist ∧ ¬ (x.1 = ln ∧ x.2.1 = p.core)) ∧ t.cores = s.cores ∧ t.mem = s.mem) ∧
    (∀ c line, c < 2048 → State.memOk s → ∃ t, exec (.eviction c line) s = .next t ∧ (coreAt t c).cwFind line = none ∧ t.net = s.net ∧
      (∀ k, (colAt t k).still = (colAt s k).still) ∧
      (match (coreAt s c).cwFind line with
       | some l => if l.owner = true ∧ l.dirty = true then Stored s t (line * 64) 64 l.data.toNat else ∀ b, byteAt t b = byteAt s b
       | none => t = s))) ∧
  (∀ (s : State) (c : Nat) (k : BitVec 3) (va : BitVec 64), c < 2048 →
    let q := coreAt s c
    let h := hartAt s c k.toFin
    let i := k.toFin
    let hd := hdrOf q.rdbase
    let woken (i : Instr) : Prop := exec i s = .next (setHart s c k.toFin h.wake)
    (h.wait = .header va → dirEdit s hd = false → woken (.headerReread c k)) ∧
    (h.wait = .edit → dirEdit s hd = false → woken (.editRetry c k)) ∧
    (h.wait = .lock va → h.since + 4096 ≤ s.clock → woken (.lockRetry c k)) ∧
    (∀ g x tm, h.wait = .fullEmpty g x false → h.timer = some tm → tm ≤ s.clock → h.st = .parked → h.feCount < h.feLimit →
      ∃ t, exec (.timedRetry c k) s = .next t ∧ hartAt t c i = { h.wake with feCount := h.feCount + 1 } ∧ SlotOnly s t c i ∧ t.net = s.net) ∧
    (∀ d w, rcLookup q.rcache q.job va.toNat = none → walkFrom (colOf c) hd va.toNat s = some w → searchDir s hd va.toNat = .desc d →
      exec (.rangeSearch c k va) s = .next (setCore w c { coreAt w c with rcache := rcFill 32 (coreAt w c).rcache { job := q.job, desc := d } })) ∧
    exec (.ddrop c) s = .next (setCore s c { q with l0d := [] }) ∧
    exec (.idrop c) s = .next (setCore s c { q with l0i := [] }) ∧
    (coreDrained s c = true → h.wait = .inval 0 → (∀ j, j ≠ i → (hartAt s c j).wait ≠ .inval 0) →
      ∃ t, exec (.drop c) s = .next t ∧ (coreAt t c).rcache = [] ∧ (hartAt t c i).pc = h.pc + 4 ∧ (∀ r, (hartAt t c i).gr r = h.gr r) ∧
        t.mem = s.mem ∧ t.net = s.net) ∧
    (∀ (p : Pkt) lo hi sc cores cols, findPkt s p.id = some p → p.kind = .drop lo hi sc cores cols →
      let meets (e : REntry) : Bool := e.job == p.job && decide (e.desc.vbase * 64 ≤ hi) && decide (lo ≤ e.desc.vlast * 64 + 63)
      (cores.contains c = true → (q.job = p.job → coreDrained s c = true) → ∃ t, exec (.dropRequest p.id c) s = .next t ∧
        t.net = (withPkt s p.id { p with kind := .drop lo hi sc (cores.erase c) cols }).net ∧
        (coreAt t c).rcache = (if q.job = p.job then q.rcache.filter fun e => !meets e else q.rcache) ∧
        (∀ j r, (hartAt t c j).gr r = (hartAt s c j).gr r) ∧ (∀ x, x ≠ c → coreAt t x = coreAt s x) ∧ t.mem = s.mem) ∧
      (∀ n : Fin 8, cols.contains n.val = true → sc ≠ 3 → ((colAt s n).walker.any fun w => meets w.entry) = false → ∃ t, exec (.engineDrop p.id n.val) s = .next t ∧
        t.net = (withPkt s p.id { p with kind := .drop lo hi sc cores (cols.erase n.val) }).net ∧
        (colAt t n).eng = (colAt s n).eng.map (fun l => l.map fun r => { r with rc := r.rc.filter fun e => !meets e }) ∧
        (colAt t n).coll = (colAt s n).coll.map (fun l => l.map fun r => { r with rc := r.rc.filter fun e => !meets e }) ∧
        (∀ m, m ≠ n → colAt t m = colAt s m) ∧ t.cores = s.cores ∧ t.mem = s.mem) ∧
      (cores = [] → cols = [] → p.core = c → p.slot = i → h.wait = .inval p.id → ∃ t, exec (.dropAcknowledgement p.id) s = .next t ∧
        t.net = (withoutPkt s p.id).net ∧ (hartAt t c i).pc = h.pc + 4 ∧ (∀ r, (hartAt t c i).gr r = h.gr r) ∧ SlotOnly s t c i)))

/-- R91, R100 to R102, R192, R358: the barrier units. An initialisation sets the count, the kind and AUTO, completes at once on 0, and lets
its hart go on; bytes credited, an arrival and an error arrival lower PEND, the last to 0 completing the object: GEN rises, DONE is set
or, with AUTO, PEND is reloaded; too large a contribution is an overrun; a query's word is read in its turn. R267 to R269, R363: a
complete generation of a wire set clears its latches and lets the harts that wait on it go on with 0, acquiring; a time-out ends `barw`
with the missing cores named, and `park` with event 0 latched; a held write of CTXJOB takes effect once the core is quiet, clearing the
job's state. -/
def Obligations.BarrierEvents : Prop :=
  (∀ (s : State) (p : Pkt) (col : Fin 8) (n : Nat), queuedPkt s p.id = some p → firstAt s p = true → targetOf s p.gpa = .barrier col n →
    degradedAt s p.gpa = false → (∀ e ∈ s.cores, ∀ k d, (e.2.harts.get k).wait ≠ .barrier (p.gpa / 64 * 64) d) →
    let id := p.id
    let obj (s : State) (m : Nat) : BarObj := tabGet BarObj.zero (colAt s col).bars m
    let o := obj s n
    let at0 (o : BarObj) : BarObj := { o with gen := o.gen + 1, status := (o.status ||| 1), pend := 0 }
    let completed (o : BarObj) : BarObj := if o.mode.getLsbD 1 then { at0 o with pend := o.init, status := (at0 o).status &&& 0xFE } else at0 o
    let lowered (o : BarObj) (m : Nat) : BarObj :=
      if m = 0 then o
      else if o.pend.toNat < m then
        (if o.pend = 0 then { o with status := o.status ||| 2 } else completed { o with status := o.status ||| 2 })
      else if o.pend.toNat = m then completed o
      else { o with pend := BitVec.ofNat 64 (o.pend.toNat - m) }
    let after (i : Instr) (o' : BarObj) (net : List Pkt) : Prop := ∃ t, exec i s = .next t ∧ obj t n = o' ∧
      (∀ m, m ≠ n → obj t m = obj s m) ∧ (∀ c, c ≠ col → colAt t c = colAt s c) ∧ t.net = net ∧ t.mem = s.mem ∧ t.cores = s.cores
    let done : List Pkt := if p.core = 2048 then (withoutPkt s id).net else (withPkt s id { p with loc := .ack }).net
    (∀ v kind auto, p.kind = .barInit v kind auto → p.core < 2048 → (hartAt s p.core p.slot).wait = .reply id →
      let o' : BarObj := { o with init := v, pend := v, mode := (if kind then 1 else 0) ||| (if auto then 2 else 0), status := 0, oorcnt := 0, errcnt := 0 }
      ∃ t, exec (.initialise id) s = .next t ∧ obj t n = (if v = 0 then completed o' else o') ∧ t.net = (withoutPkt s id).net ∧
        (hartAt t p.core p.slot).pc = (hartAt s p.core p.slot).pc + 4 ∧ (∀ r, (hartAt t p.core p.slot).gr r = (hartAt s p.core p.slot).gr r) ∧
        SlotOnly { s with cols := t.cols } t p.core p.slot) ∧
    (∀ m oor, p.kind = .barCredit m oor →
      let o' := { o with oorcnt := o.oorcnt + BitVec.ofNat 32 oor }
      after (.credit id) (if o.mode.getLsbD 0 then o' else lowered o' m) done) ∧
    (p.kind = .barArrive → after (.arrive id) (lowered o 1) done) ∧
    (p.kind = .barErrArrive →
      after (.errorArrive id) { lowered o 1 with errcnt := o.errcnt + 1, status := (lowered o 1).status ||| 4 } done) ∧
    (∀ d w, p.kind = .barQuery d w →
      exec (.query id) s = .next (withPkt s id { p with loc := .reply 8, val := barWord o w }))) ∧
  (∀ (s : State) (c : Nat) (k : BitVec 3), c < 2048 →
    let h := hartAt s c k.toFin
    let i := k.toFin
    (∀ (col : Fin 8) (w n : Nat) (d : BitVec 5), w < 3 → n < 16 → colOf c = col → wireSet c w = wireCores col w n → h.wait = .wires w d →
      ((wireCores col w n).all (wireArrived s w)) = true → (coreAt s c).latchSet.getLsbD w = true →
      (∀ x j e, (x ≠ c ∨ j ≠ i) → (hartAt s x j).wait ≠ .wires w e) →
      ∃ t, exec (.wireCompletion col.val (BitVec.ofNat 2 w) n) s = .next t ∧ (∀ x ∈ wireCores col w n, (coreAt t x).latchSet.getLsbD w = false) ∧
        (hartAt t c i).pc = h.pc + 4 ∧ (hartAt t c i).gr d = 0 ∧ (∀ r, r ≠ d → (hartAt t c i).gr r = h.gr r) ∧ (coreAt t c).l0d = [] ∧
        t.mem = s.mem ∧ t.net = s.net) ∧
    (∀ w d tm, h.wait = .wires w d → h.st = .parked → h.timer = some tm → tm ≤ s.clock → ∃ t, exec (.barwTimeout c k) s = .next t ∧
      (hartAt t c i).pc = h.pc + 4 ∧ (hartAt t c i).gr d = (if d = 0 then 0 else missingCores s c w) ∧
      (∀ r, r ≠ d → (hartAt t c i).gr r = h.gr r) ∧ (coreAt t c).latchSet = (coreAt s c).latchSet ∧ (coreAt t c).l0d = (coreAt s c).l0d ∧
      SlotOnly s t c i) ∧
    (∀ tm, h.wait = .park → h.st = .parked → h.timer = some tm → tm ≤ s.clock →
      exec (.parkTimeout c k) s = .next (setHart s c i { h.wake with latch := h.latch ||| 1, timer := none })) ∧
    (∀ v, (coreAt s c).jobWrite = some (v, none) → jobReady s c none = true → (coreAt s c).job = 0 →
      ∃ t, exec (.jobChange c) s = .next t ∧ (coreAt t c).ctxjob = v ∧ (coreAt t c).jobWrite = none ∧ (coreAt t c).mbFull = 0 ∧
        (∀ n : Fin 8, (coreAt t c).tok.get n = 0 ∧ (coreAt t c).mb.get n = 0) ∧ (∀ j r, (hartAt t c j).gr r = 0) ∧ (coreAt t c).vec.bound = false ∧
        (∀ w b, w < 16 → wayMode (coreAt s c).narr (coreAt s c).nbank w ≠ 1 → b < 2 ^ 18 → byteAt t (bankGpa s c w b) = 0) ∧
        ∀ x, x ≠ c → coreAt t x = coreAt s x) ∧
    (∀ v, (coreAt s c).jobWrite = none → ∃ t, exec (.ctxjobWrite c true v) s = .next t ∧
      t = setCore s c { coreAt s c with ctxlc := v &&& 0xFFFFF }) ∧
    (∀ v : BitVec 64, (coreAt s c).jobWrite = none →
      exec (.ctxjobWrite c false v) s = .next (setCore s c
        (if v.setWidth 32 = (coreAt s c).job then { coreAt s c with ctxjob := v &&& 0x0000FFF7FFFFFFFF }
         else { coreAt s c with jobWrite := some (v &&& 0x0000FFF7FFFFFFFF, none) }))))

/-- R43, R44, R68, R73, R86, R89 to R91, R94, R104, R105, R110, R111, R113, R353, R354: the walkers, the copy and collective engines and the
compactor. A walker performs its oldest piece and, with the last of its instruction, makes the arrival; an engine begins a request whose
conditions hold; a batch of a `copy` (up to 4,096 bytes), a row of a `copy2d`, eight rows of a `copygath` or `copyscat` through their
list, each from and to banks or DRAM, writes exactly the bytes it read, zeros for a row out of range; a row of a raw `copyt` becomes
elements of its vector group; a finished request frees its token and counts; one that met a fault stops with its token in ERROR and its
element and address in CSTART and XVAL; a whole collective round, of any number of participants, gives every one that receives it the fold
of their contributions or rank 0's; the compactor locks the range it moves, or ends with a status. When the engines take their turns is
the model's event order (log entry 5), that a round's contributions are named when their requests begin is entry 44, what the compactor
does under errors is entry 131, and the walker's counting of requests is entry 96. -/
def Obligations.EngineEvents : Prop :=
  ∀ (s : State) (col : Fin 8) (r : CReq),
    let homesEmpty : Prop := (s.cores.all fun q => q.2.cw.isEmpty) = true
    (∀ w, (colAt s col).walker = [w] → w.bar ≠ 0 → w.cached = false → w.inv = false → stilledAt s col (coreAt s w.core).job = false →
      (∀ c, c ≠ col → (colAt s c).walker = []) → (∀ e ∈ s.cores, ∀ k, (e.2.harts.get k).wait ≠ .queue) → ∃ t p, exec (.walkerPiece col.val) s = .next t ∧
      (colAt t col).walker = [] ∧ t.net = s.net ++ [p] ∧ p.kind = (if w.err then .barErrArrive else .barArrive) ∧ p.gpa = w.bar.toNat ∧
      p.core = 2048 ∧ p.loc = (match targetOf s w.bar.toNat with | .barrier _ _ => .queued | _ => .router) ∧ t.mem = s.mem ∧ t.cores = s.cores) ∧
    (∀ e : Fin 16, (colAt s col).eng.get e = [r] → r.begun = false → r.kind < 4 → mayBegin s col e.val r = true →
      (∀ e ∈ s.cores, ∀ k, (e.2.harts.get k).wait ≠ .queue) → ∃ t, exec (.requestBegins col.val e.val) s = .next t ∧
        (colAt t col).eng.get e = [{ r with begun := true, glanes := (coreAt s r.core).glanes, lanes := (coreAt s r.core).lanes }] ∧
        t.mem = s.mem ∧ t.net = s.net) ∧
    (∀ (e : Fin 16) (A B : Nat), r.turn s col e → r.kind = 0 → r.swz = false → r.next < r.total →
      let m := min 4096 (r.total - r.next)
      r.spans s needRd (r.src + BitVec.ofNat 64 r.next) m A → r.spans s needWr (r.dst + BitVec.ofNat 64 r.next) m B → (A + m ≤ B ∨ B + m ≤ A) →
      ∃ t, exec (.batch col.val e.val) s = .next t ∧ Batched s t col e r (r.next + m) m m 0 ∧
        (∀ i, i < m → byteAt t (B + i) = byteAt s (A + i)) ∧ ∀ x, x < B ∨ B + m ≤ x → byteAt t x = byteAt s x) ∧
    (∀ (e : Fin 16) (A B : Nat), r.turn s col e → r.kind = 1 → (r.swz = true → r.rowb % 256 = 0) → r.next < r.total →
      r.spans s needRd (r.src + r.sstride * BitVec.ofNat 64 r.next) r.rowb A →
      r.spans s needWr (r.dst + r.dstride * BitVec.ofNat 64 r.next) r.rowb B →
      ∃ t, exec (.batch col.val e.val) s = .next t ∧ Batched s t col e r (r.next + 1) r.rowb r.rowb 0 ∧
        (∀ i, i < r.rowb → byteAt t (B + i) = byteAt s (A + r.swizzled r.next i)) ∧ ∀ x, x < B ∨ B + r.rowb ≤ x → byteAt t x = byteAt s x) ∧
    (∀ (e : Fin 16) (I L A D : Nat → Nat), r.turn s col e → r.kind = 2 ∨ r.kind = 3 → (r.swz = true → r.kind = 2 ∧ r.rowb % 256 = 0) → r.next < r.total →
      let n := min 8 (r.total - r.next)
      let w := if r.wide then 8 else 4
      let live (k : Nat) : Bool := decide (I k < r.nrows)
      let reads (k : Nat) : Bool := r.kind == 3 || live k
      let writes (k : Nat) : Bool := r.kind == 2 || live k
      let tab (b : BitVec 64) (k : Nat) : BitVec 64 := b + r.sstride * BitVec.ofNat 64 (I k)
      let row (b : BitVec 64) (k : Nat) : BitVec 64 := b + BitVec.ofNat 64 r.rowb * BitVec.ofNat 64 (r.next + k)
      (∀ k, k < n → r.spans s needRd (r.list + BitVec.ofNat 64 ((r.next + k) * w)) w (L k) ∧ memRead s.mem (L k) w = I k ∧
        (reads k = true → r.spans s needRd (if r.kind = 2 then tab r.src k else row r.src k) r.rowb (A k)) ∧
        (writes k = true → r.spans s needWr (if r.kind = 2 then row r.dst k else tab r.dst k) r.rowb (D k))) →
      (∀ k k', k < n → k' < n → writes k' = true → (reads k = true → A k + r.rowb ≤ D k' ∨ D k' + r.rowb ≤ A k) ∧
        (writes k = true → k ≠ k' → D k + r.rowb ≤ D k' ∨ D k' + r.rowb ≤ D k)) →
      ∃ t, exec (.batch col.val e.val) s = .next t ∧
        Batched s t col e r (r.next + n) (n * r.rowb) (((List.range n).countP writes) * r.rowb) ((List.range n).countP fun k => !live k) ∧
        (∀ k i, k < n → writes k = true → i < r.rowb →
          byteAt t (D k + i) = if reads k then byteAt s (A k + r.swizzled (r.next + k) i) else 0) ∧
        ∀ x, (∀ k, k < n → writes k = true → x < D k ∨ D k + r.rowb ≤ x) → byteAt t x = byteAt s x) ∧
    (∀ (e : Fin 16) (A : Nat), r.turn s col e → r.kind = 4 → r.swz = false → r.fmt = none → r.next < r.rows → r.next < r.total →
      let q := coreAt s r.core
      let w := vtSew r.vt
      let n := r.rowb * 8 / w
      q.vec.vtype = r.vt → vtIll r.vt = false → 0 < q.narr → q.narr ≤ 16 → aligned r.vreg.toNat (VKind.regs .s w (vtGrp r.vt)) = true →
      r.rows * n ≤ q.vlmax → 0 < q.glanes → r.glanes = q.glanes → r.lanes = q.lanes → (colAt s (colOf r.core)).layerctl.getLsbD 0 = true →
      r.spans s needRd (r.src + BitVec.ofNat 64 r.rowb * BitVec.ofNat 64 r.next) r.rowb A →
      ∃ t, exec (.batch col.val e.val) s = .next t ∧ Batched s t col e r (r.next + 1) r.rowb r.rowb 0 ∧
        (∀ j, j < n → elemGet t r.core w r.vreg.toNat (r.next + j * r.rows) =
          BitVec.ofNat 64 (memRead s.mem A r.rowb / 2 ^ (w * j) % 2 ^ w)) ∧ ∀ x, byteAt t x = byteAt s x) ∧
    (∀ e : Fin 16, (colAt s col).eng.get e = [r] → r.done = true → r.failed = none → r.kind < 5 → stilledAt s col r.job = false → s.net = [] → r.core < 2048 →
      (∀ f : Fin 16, f ≠ e → (colAt s col).eng.get f = []) → (∀ f : Fin 2, (colAt s col).coll.get f = []) →
      ∃ t, exec (.requestComplete col.val e.val) s = .next t ∧ (colAt t col).eng.get e = [] ∧ (coreAt t r.core).tok.get r.tok = 0 ∧
        (coreAt t r.core).cstart.get r.tok = 0 ∧ (∀ n, n ≠ r.tok → (coreAt t r.core).tok.get n = (coreAt s r.core).tok.get n) ∧
        (colAt t col).cereqs.get e = (if (colAt s col).cereqs.get e = 0xFFFFFFFF then 0xFFFFFFFF else (colAt s col).cereqs.get e + 1) ∧
        (∀ k x, (hartAt t r.core k).gr x = (hartAt s r.core k).gr x) ∧ t.mem = s.mem) ∧
    (∀ (e : Fin 16) cs va, (colAt s col).eng.get e = [r] → r.failed = some (cs, va) → stilledAt s col r.job = false → r.accepted s = true →
      ∃ t, exec (.requestComplete col.val e.val) s = .next t ∧ (colAt t col).eng.get e = [] ∧ (coreAt t r.core).tok.get r.tok = 2 ∧
        (coreAt t r.core).cstart.get r.tok = ((causeCode cs).zeroExtend 64 <<< 56 ||| BitVec.ofNat 64 (r.next % 2 ^ 48)) ∧
        (coreAt t r.core).cpc.get r.tok = r.pc.zeroExtend 64 ∧ (coreAt t r.core).tokVa.get r.tok = va ∧ t.mem = s.mem ∧ t.net = s.net) ∧
    (∀ (e : Fin 2) (xs : List Contrib) (qs : List CReq), (colAt s col).contribs.get e = xs → (colAt s col).coll.get e = qs →
      (∀ f : Fin 2, f ≠ e → (colAt s col).coll.get f = []) → (∀ c, c ≠ col → ∀ f : Fin 2, (colAt s c).coll.get f = []) →
      qs.head? = some r → qs.length = r.count → xs.length = r.count → (qs.map (·.id)).Nodup → stilledAt s col r.job = false →
      (∀ k (x : Contrib), xs[k]? = some x → x.group = r.group ∧ x.rank = k ∧ x.complete = true ∧ x.kept = false ∧ (qs[k]?).map (·.id) = some x.req) →
      let res := if r.kind = 5 then collTree r.op r.ty (xs.map (·.data)) else (xs.map (·.data)).headD []
      ∃ t, exec (.contribution col.val e.val) s = .next t ∧ (colAt t col).contribs.get e = [] ∧
        (colAt t col).coll.get e = qs.map (fun q => if q.receives then { q with result := some res } else { q with done := true }) ∧
        t.mem = s.mem ∧ t.cores = s.cores) ∧
    (∀ a b c : List (BitVec 64),
      collTree r.op r.ty [a, b] = a.zipWith (collNode r.op r.ty) b ∧
      collTree r.op r.ty [a, b, c] = (a.zipWith (collNode r.op r.ty) b).zipWith (collNode r.op r.ty) c) ∧
    (∀ i, (colAt s col).cmpStep = 1 → s.night.engines = false → (colAt s col).tripped = false → State.memOk s → homesEmpty →
      let c := colAt s col
      let h := hdrOf c.cmpdir
      let d := dirDesc s h i
      let bad : Bool := lineBad s h || descsBad s h 0 (dirCount s h)
      dirEdit s h = false →
      let ended (st : BitVec 64) : Prop := ∃ t, exec (.move col.val) s = .next t ∧ (colAt t col).cmpStep = 0 ∧
        (colAt t col).cmpctl = st <<< 32 ∧ t.mem = s.mem ∧ t.cores = s.cores ∧ t.net = s.net
      (findBase s h (c.cmpva.toNat / 64) = none → c.cmpbar = 0 → ended 1) ∧
      (findBase s h (c.cmpva.toNat / 64) = some i → d.locked = false →
        (bad = true → c.cmpbar = 0 → ended 3) ∧
        (bad = false → moveOk col d (c.cmptgt.toNat / 64) s = false → c.cmpbar = 0 → ended 2) ∧
        (bad = false → moveOk col d (c.cmptgt.toNat / 64) s = true → ∃ t, exec (.move col.val) s = .next t ∧ (colAt t col).cmpStep = 2 ∧
          (dirDesc t h i).locked = true ∧ (colAt t col).cmpOld = d.tgt ∧ Edited s t h (dirCount s h)
            (fun n => if n = i then { d with w0 := d.w0 ||| 2 } else dirDesc s h n) ∧ t.cores = s.cores)))

/-- R364 to R368, R374 to R385: the distributor. LOAD and TAIL writes are taken, a TAIL out of range sets BAD, one during a switch waits; a
switch of an eligible context begins, and ends with a good image resident and its job's entry made, or with the displaced context's image
written back; a decision consumes an entry, arming its record from the pool; a running record's work units are fed to stage 0; a bound
core's idle slot takes the oldest record of its stage. R143, R375 to R380, R384: selection and binding, and completion. The head is a
READY record of the highest effective priority, 31 past 2^20 decisions, and among equals of the lowest arming sequence; a gang is an
aligned run of free cores. A head whose stages' CMIN the free cores do not reach leaves the machine as it is; one that fits runs at
SELPRIO, each stage in ascending order bound to the lowest free cores, to its slot where it is a vector stage, and, where they are quiet,
with its NARR and NBANK; a running stage below CMAX is granted one further core; a record without work ends ZERO_WORK with one arrival.
The END that empties a running record sets DONE, makes one arrival, and unbinds its cores. (Distribution: one job with one context, one
record; stages of single cores. That cores which cannot be placed count as not free is log entry 105, the binding of a busy core entry
106.) R385: the balancer. In a running record whose fullest stage queue is more than 3/4 full and whose emptiest is less than 1/4 full,
the stages above CMIN and below CMAX, the core of the emptier stage with the fewest busy slots is marked, and moves at once when none is
busy; with one stage, or without such a pair of stages, no core is marked. (Stages of single cores; no core marked before; log entry 108.) -/
def Obligations.DistributorEvents : Prop :=
  (∀ (s : State) (q : Nat), q < 1024 →
    let c := ctxAt s q
    (queuesShut s = false → ∃ t, exec (.load q) s = .next t ∧ ctxAt t q = { c with loadReq := true } ∧ (∀ x, x ≠ q → ctxAt t x = ctxAt s x) ∧
      { t with dist := s.dist } = s) ∧
    (∀ v : BitVec 64, queuesShut s = false → c.resident = true → (c.switching = true → exec (.qtail q v) s = .next { s with dist := { s.dist with
        ctxs := tabPut s.dist.ctxs q { c with tails := c.tails ++ [v] } } }) ∧ (c.switching = false →
      let tl := v.toNat % 2 ^ 48
      (c.head.toNat ≤ tl → tl ≤ c.head.toNat + c.ringn → ∃ t, exec (.qtail q v) s = .next t ∧ ctxAt t q = { c with tail := BitVec.ofNat 64 tl } ∧
        (∀ x, x ≠ q → ctxAt t x = ctxAt s x) ∧ { t with dist := s.dist } = s) ∧
      (tl < c.head.toNat ∨ c.head.toNat + c.ringn < tl → ∃ t, exec (.qtail q v) s = .next t ∧ (ctxAt t q).bad = true ∧
        (ctxAt t q).tail = c.tail ∧ (c.bad = false → t.boot.intstat.getLsbD 6 = true) ∧ t.mem = s.mem ∧ t.cores = s.cores))) ∧
    (c.switching = false → ctxEligible s q = true → ((s.dist.ctxs.filter fun e => e.2.resident || e.2.switching).length < 64) →
      stilledAt s 0 (readCtx s q).1.job = false → ∃ t, exec (.contextSwitch q) s = .next t ∧ ctxAt t q = { c with switching := true } ∧
        (∀ x, x ≠ q → ctxAt t x = ctxAt s x) ∧ { t with dist := s.dist } = s) ∧
    (∀ i, readCtx s q = (i, true) → c.resident = false → c.switching = true → stilledAt s 0 i.job = false →
      (∀ k, k < 2 → homed s (ctxImage s q + 64 * k) = true ∧ lineClean s (ctxImage s q + 64 * k) = true) →
      ∃ t, exec (.contextSwitch q) s = .next t ∧ ctxAt t q = { i with resident := true, loadReq := false, used := s.clock, switching := false } ∧
        (∀ x, x ≠ q → ctxAt t x = ctxAt s x) ∧ (findJob t i.job).isSome = true ∧ t.mem = s.mem ∧ t.cores = s.cores ∧ t.net = s.net) ∧
    (c.resident = true → c.switching = true → c.tails = [] → c.pooln < 2 ^ 64 → c.ringn < 2 ^ 64 → stilledAt s 0 (readCtx s q).1.job = false → State.memOk s →
      ctxImage s q % 128 = 0 → (∀ k, k < 2 → homed s (ctxImage s q + 64 * k) = true) → ∃ t, exec (.contextSwitch q) s = .next t ∧
        ctxAt t q = { c with resident := false, switching := false } ∧ (∀ x, x ≠ q → ctxAt t x = ctxAt s x) ∧
        (∀ k, k < 16 → dword t.mem (ctxImage s q + 8 * k) = BitVec.ofNat 64 (c.words.getD k 0)) ∧
        (∀ a, a < ctxImage s q ∨ ctxImage s q + 128 ≤ a → byteAt t a = byteAt s a) ∧ t.cores = s.cores ∧ t.net = s.net) ∧
    (∀ (j : JobEnt), s.dist.ctxs = [(q, c)] → s.dist.jobs = [j] → j.job = c.job → j.recs = [] → c.resident = true → c.switching = false →
      c.head ≠ c.tail → stilledAt s 0 c.job = false → s.cores = [] →
      let a := c.ring.toNat + 4 * (c.head.toNat % c.ringn)
      let k := memRead s.mem a 4
      let word (n : Nat) := dword s.mem (poolAt s c.job k + 8 * n)
      k < 4096 → k < c.pooln → homed s a = true → lineClean s a = true →
      (∀ i, i < 4 → homed s (poolAt s c.job k + 64 * i) = true ∧ lineClean s (poolAt s c.job k + 64 * i) = true) →
      (∀ st, st < 8 → (word (10 + 3 * st)).toNat < 65536) →
      ∃ t, exec .decisionCycle s = .next t ∧ (ctxAt t q).head = c.head + 1 ∧ (recOf t c.job k).status ≠ 0 ∧
        (∀ n : Fin 32, (recOf t c.job k).snap.get n = word n.val)) ∧
    (∀ job k, let r := recOf s job k
      (findJob s job).isSome = true → r.status = stRunning → r.issued < r.work → queueFull s job k 0 = false → stilledAt s 0 job = false →
      r.work ≤ 2 ^ 32 → homed s (poolAt s job k + 40) = true → homed s (poolAt s job k + 48) = true → homed s (ringPlace s job k 0) = true →
      ∃ t, exec (.stageFeed job k) s = .next t ∧ (recOf t job k).issued = r.issued + 1 ∧ (recOf t job k).live = r.live + 1 ∧
        (recOf t job k).queues.toList.getD 0 [] = r.queues.toList.getD 0 [] ++
          [contRec (r.vector 0) job (BitVec.ofNat 48 (r.entry 0)) k 0 #v[BitVec.ofNat 64 r.issued, 0, 0, 0] (BitVec.ofNat 32 r.issued)] ∧
        t.cores = s.cores ∧ t.net = s.net) ∧
    (∀ (x : Nat) (i : Fin 8) (u : Vector (BitVec 64) 8) (l : List (Vector (BitVec 64) 8)), x < 2048 →
      let b := coreAt s x
      let k := b.lrecIx.toNat
      let st := b.stageIx.toNat
      let r := recOf s b.job k
      b.bound = true → b.marked = none → b.binding = none → takesWork s x = true → (findJob s b.job).isSome = true →
      (recordSlots r st).find? (fun j => (b.harts.get j).st == .idle) = some i → r.queues.toList.getD st [] = u :: l →
      ((u.get 0).getLsbD 8 = false ∨ b.vec.bound = true ∧ b.vec.slot = i) → ∃ t, exec (.takeRecord x) s = .next t ∧
        (recOf t b.job k).queues.toList.getD st [] = l ∧
        let g := hartAt t x i
        g.st = .ready ∧ g.pc = (u.get 1).setWidth 48 ∧ g.gr 10 = u.get 2 ∧ g.gr 11 = u.get 3 ∧ g.gr 12 = u.get 4 ∧ g.gr 13 = u.get 5 ∧
        (∀ n : BitVec 5, n ≠ 0 → n.toNat < 10 ∨ 13 < n.toNat → g.gr n =
          if (tabGet 0 r.regs (32 * st)).toNat.testBit n.toNat then tabGet 0 r.regs (32 * st + n.toNat) else 0) ∧
        g.hasRec = true ∧ g.unit = (u.get 6).setWidth 32 ∧ g.lrec = b.lrecIx ∧ g.stage = b.stageIx ∧ g.xstat = (b.harts.get i).xstat &&& ~~~(3#64) ∧ t.mem = s.mem)) ∧
  ((∀ l : List (BitVec 32 × Nat × LRec), (headRec l = none ↔ l = []) ∧ ∀ x, headRec l = some x → x ∈ l ∧ ∀ y ∈ l,
    effPrio y.2.2 ≤ effPrio x.2.2 ∧ (effPrio y.2.2 = effPrio x.2.2 → x.2.2.seq.toNat ≤ y.2.2.seq.toNat)) ∧
  (∀ r : LRec, effPrio r = if 2 ^ 20 < r.waited then 31 else r.prio.toNat % 32) ∧
  (∀ (free : List Nat) n g, n ≠ 1 → (g ∈ placeable free n ↔ ∃ c ∈ free, c % n = 0 ∧ g = (List.range n).map (c + ·) ∧ ∀ x ∈ g, x ∈ free)) ∧
  (∀ (r : LRec) (free : List Nat), free.Nodup → (∀ st, st < r.nstage → r.gang st = 1) →
    let need (st : Nat) : Nat := ((List.range st).map r.cmin).sum
    chooseStages r r.nstage 0 free =
      if need r.nstage ≤ free.length then
        some ((List.range r.nstage).flatMap fun st => ((free.drop (need st)).take (r.cmin st)).map fun c => (st, [c]))
      else none) ∧
  (∀ (s : State) (q k : Nat) (c : QCtx) (j : JobEnt) (r : LRec), s.dist.ctxs = [(q, c)] → s.dist.jobs = [j] → j.job = c.job → j.recs = [(k, r)] → k < 4096 →
    c.resident = true → c.switching = false → c.head = c.tail → stilledAt s 0 c.job = false → (s.cores.map (·.1)).Pairwise (· < ·) →
    (∀ e ∈ s.cores, e.2.binding = none ∧ e.2.cw = [] ∧ e.2.waiters = []) →
    let job := c.job
    let free := freeCores s job
    let need (st : Nat) : Nat := ((List.range st).map r.cmin).sum
    let opens (x : Nat) : Prop := (coreAt s x).wayReqs = [] ∧ (colAt s (colOf x)).layerctl.getLsbD 2 = false
    let bound (t : State) (st x : Nat) : Prop :=
      let b := coreAt t x
      b.bound = true ∧ b.marked = none ∧ b.lrecIx.toNat = k ∧ b.stageIx.toNat = st ∧ b.job = job ∧ b.gang = 1 ∧
        (r.vector st = true → b.vec.bound = true ∧ b.vec.slot.val = r.vslot st % 8) ∧
        ((coreAt s x).quiet = true → r.vector st = false → b.binding = none ∧ b.narr = r.narr st ∧ b.nbank = r.nbank st)
    (∀ st, st < r.nstage → r.gang st = 1) → r.nstage ≤ 8 →
    (r.status = stReady → 0 < r.work → free.length < need r.nstage → exec .decisionCycle s = .next s) ∧
    (r.status = stReady → 0 < r.work → need r.nstage ≤ free.length → (∀ st, st < r.nstage → r.cmax st = r.cmin st) → (∀ x ∈ free, opens x) →
      ∃ t, exec .decisionCycle s = .next t ∧ (recOf t job k).status = stRunning ∧ (recOf t job k).selprio = BitVec.ofNat 8 (effPrio r) ∧
        (recOf t job k).waited = 0 ∧
        (homed s (poolAt s job k + 4) = true → lineClean s (poolAt s job k + 4) = true → byteAt t (poolAt s job k + 4) = 3) ∧
        (∀ st x, st < r.nstage → x ∈ (free.drop (need st)).take (r.cmin st) → bound t st x) ∧
        ∀ x, x ∉ free.take (need r.nstage) → coreAt t x = coreAt s x) ∧
    (r.status = stRunning → r.nstage = 1 →
      (r.cmax 0 ≤ (stageCores s job k 0).length ∨ free = [] → exec .decisionCycle s = .next s) ∧
      ((stageCores s job k 0).length < r.cmax 0 → ∀ x l, free = x :: l → opens x →
        ∃ t, exec .decisionCycle s = .next t ∧ bound t 0 x ∧ (∀ y, y ≠ x → coreAt t y = coreAt s y) ∧ t.dist = s.dist)) ∧
    (r.status = stReady ∨ r.status = stArmed ∧ (∀ i, i < 4 → r.pred i = 0xFFFF) → r.work = 0 →
      ∃ t, exec .decisionCycle s = .next t ∧ (recOf t job k).status = stZero ∧ t.cores = s.cores ∧
        (r.bar ≠ 0 → ∃ p ∈ t.net, p.kind = .barArrive ∧ p.gpa = r.bar ∧ p.core = 2048))) ∧
  ∀ s : State,
    let h := me s
    let job := (myCore s).job
    let k := h.lrec.toNat
    let r := recOf s job k
    s.curSlot ≠ 7 → Fenced s → covered s 6 = true → h.frames = [] → h.hasRec = true → (findJob s job).isSome = true →
    (coreAt s (leaderOf s s.curCore)).marked = none → r.status = stRunning → r.issued = r.work → r.live = 1 → (∀ st : Fin 8, r.queues.get st = []) →
    ∃ t, exec .endI s = .next t ∧ (recOf t job k).status = stDone ∧
      (r.bar ≠ 0 → ∃ p ∈ t.net, p.kind = .barArrive ∧ p.gpa = r.bar ∧ p.core = 2048) ∧
      ∀ st x, st < r.nstage → x ∈ stageCores s job k st →
        (coreAt t x).bound = false ∧ (coreAt t x).vec.bound = false ∧ (coreAt t x).gang = 1) ∧
  (∀ (s : State) (job : BitVec 32) (k : Nat),
    let r := recOf s job k
    let len (st : Nat) : Nat := queueLen s job k st
    let full (x y : Nat) : Prop := len x * r.qcap y < len y * r.qcap x
    let cores (st : Nat) : List Nat := stageCores s job k st
    let busy (c : Nat) : Nat := (List.finRange 8).countP fun j => j.val != 7 && ((coreAt s c).harts.get j).st != .idle
    (r.status ≠ stRunning ∨ r.nstage < 2 ∨ stilledAt s 0 job = true → exec (.balancer job k) s = .next s) ∧
    (r.status = stRunning → 2 ≤ r.nstage → r.nstage ≤ 8 → stilledAt s 0 job = false →
      (∀ st, st < r.nstage → ∀ c ∈ cores st, (coreAt s c).marked = none) →
      ((∀ x y, x < r.nstage → y < r.nstage → ¬(3 * r.qcap y < 4 * len y ∧ 4 * len x < r.qcap x)) → exec (.balancer job k) s = .next s) ∧
      (∀ a b c, a < r.nstage → b < r.nstage → a ≠ b → (∀ st, st < r.nstage → st ≠ b → full st b) → (∀ st, st < r.nstage → st ≠ a → full a st) →
        3 * r.qcap b < 4 * len b → 4 * len a < r.qcap a → r.gang a = 1 → r.gang b = 1 →
        r.cmin a + 1 ≤ (cores a).length → (cores b).length + 1 ≤ r.cmax b → c ∈ cores a → c < 2048 → (∀ d ∈ cores a, (coreAt s d).gang = 1) →
        (∀ d ∈ cores a, d ≠ c → busy c < busy d) →
        (busy c ≠ 0 → exec (.balancer job k) s = .next (setCore s c { coreAt s c with marked := some (BitVec.ofNat 3 b) })) ∧
        (busy c = 0 → (coreAt s c).binding = none → (coreAt s c).wayReqs = [] → (coreAt s c).cw = [] → (coreAt s c).waiters = [] → (colAt s (colOf c)).layerctl.getLsbD 2 = false → ∃ t, exec (.balancer job k) s = .next t ∧
          let q := coreAt t c
          q.bound = true ∧ q.marked = none ∧ q.lrecIx = (coreAt s c).lrecIx ∧ q.stageIx = BitVec.ofNat 3 b ∧ q.job = (coreAt s c).job ∧
          q.gang = 1 ∧ (∀ x, x ≠ c → coreAt t x = coreAt s x)))))

/-- R387, R389, R393: a message that has come to its core joins the ring of its class and its sender counts one fewer, or is refused and
waits; one that went to another device is settled or refused by the answer from there, and one that comes from another device joins the
ring of the core that the port's column resolves (log entry 49); a refused one is sent again after 64 s-cycles, or dropped past the
sender's limit; the idle handler slot takes the oldest message of the highest class; a spawn request claims a slot of its target, or is
answered with 3, 2, or an inline start, and its answer completes the instruction. -/
def Obligations.MessageEvents : Prop :=
  ∀ (s : State) (p : Pkt), findPkt s p.id = some p → p.core < 2048 →
    let id := p.id
    let h := hartAt s p.core p.slot
    (∀ m l n ok port j lc msg, id ≠ 0 → p.kind = .msg m l n → p.loc = .mesh → msgBehind s p m l = false → (colAt s (colOf p.gpa)).tripped = false →
      let arrives : Instr := .messageArrival ⟨id, ok, port, j, lc, msg⟩
      let x := leaderOf s (bankCore s p.job p.gpa)
      let ring := (coreAt s x).ring.get m.cls.toFin
      let taken : Bool := (coreAt s x).job == p.job && p.job != 0 && !closed s x && decide (ring.length < 32)
      (taken = true → ∃ t, exec arrives s = .next t ∧ (coreAt t x).ring.get m.cls.toFin = ring ++ [m] ∧ t.net = (withoutPkt s id).net ∧
        (hartAt t p.core p.slot).msgsOut = h.msgsOut - 1 ∧ (∀ c k r, (hartAt t c k).gr r = (hartAt s c k).gr r) ∧ t.mem = s.mem) ∧
      (taken = false → exec arrives s = .next (withPkt s id { p with kind := .msg m l (n + 1), loc := .retry, born := s.clock }))) ∧
    (∀ m l n port j lc msg, id ≠ 0 → p.kind = .msg m l n → p.loc = .away →
      (∃ t, exec (.messageArrival ⟨id, true, port, j, lc, msg⟩) s = .next t ∧ t.net = (withoutPkt s id).net ∧
        (hartAt t p.core p.slot).msgsOut = h.msgsOut - 1 ∧ (∀ r, (hartAt t p.core p.slot).gr r = h.gr r) ∧ SlotOnly s t p.core p.slot) ∧
      exec (.messageArrival ⟨id, false, port, j, lc, msg⟩) s = .next (withPkt s id { p with kind := .msg m l (n + 1), loc := .retry, born := s.clock })) ∧
    (∀ port job lc msg ok c t, portUp s port = true → tabGet 0 s.fabric.allow (4 * port + 1) ≠ 0 →
      let col : Fin 8 := ⟨port / 2 % 8, Nat.mod_lt _ (by decide)⟩
      let m : Msg := { handler := msg.getD 0 0, w := #v[msg.getD 1 0, msg.getD 2 0, msg.getD 3 0, msg.getD 4 0]
                       cls := (msg.getD 5 0).setWidth 2, sender := msg.getD 6 0 }
      let x := leaderOf t (bankCore t job c)
      let ring := (coreAt t x).ring.get m.cls.toFin
      heldAt s col job = false → (colAt s col).tripped = false → resolveCore col job lc.toNat s = (.core c, t) → (colAt t (colOf c)).tripped = false →
      (coreAt t x).job = job → job ≠ 0 → closed t x = false → ring.length < 32 →
      ∃ u, exec (.messageArrival ⟨0, ok, port, job, lc, msg⟩) s = .next u ∧ (coreAt u x).ring.get m.cls.toFin = ring ++ [m] ∧ u.net = t.net ∧ u.mem = t.mem ∧
        ∀ c k r, (hartAt u c k).gr r = (hartAt t c k).gr r) ∧
    (∀ m l n, p.kind = .msg m l n → p.loc = .retry → heldAt s (colOf p.core) p.job = false →
      (h.feLimit = 0 ∨ n ≤ h.feLimit → p.born + 64 ≤ s.clock → exec (.messageRetry id) s = .next (withPkt s id { p with loc := .router })) ∧
      (h.feLimit ≠ 0 → h.feLimit < n → ∃ t, exec (.messageRetry id) s = .next t ∧ t.net = (withoutPkt s id).net ∧
        (hartAt t p.core p.slot).dropped = h.dropped ++ [l] ∧ (hartAt t p.core p.slot).msgsOut = h.msgsOut - 1 ∧
        (∀ r, (hartAt t p.core p.slot).gr r = h.gr r) ∧ SlotOnly s t p.core p.slot)) ∧
    (∀ (c : Nat) (k : Fin 4) (m : Msg) (r : List Msg), c < 2048 → (coreAt s c).ring.get k = m :: r →
      (∀ j : Fin 4, k < j → (coreAt s c).ring.get j = []) → (hartAt s c 7).st = .idle → takesWork s c = true →
      ∃ t, exec (.takeMessage c) s = .next t ∧ (coreAt t c).ring.get k = r ∧
        let g := hartAt t c 7
        g.st = .ready ∧ g.pc = m.handler.setWidth 48 ∧ g.gr 10 = m.w.get 0 ∧ g.gr 11 = m.w.get 1 ∧ g.gr 12 = m.w.get 2 ∧ g.gr 13 = m.w.get 3 ∧
        g.gr 14 = m.sender ∧ g.gr 15 = m.cls.zeroExtend 64 ∧ (∀ i, i ≠ 7 → hartAt t c i = hartAt s c i) ∧ t.mem = s.mem ∧ t.net = s.net) ∧
    (∀ pc w l d j, p.kind = .spawn pc w l d → p.loc = .mesh → (colAt s (colOf p.gpa)).tripped = false → colOf p.gpa = colOf p.core → (coreAt s p.gpa).job = (coreAt s p.core).job →
      (coreAt s p.core).job ≠ 0 → childSlot s p.gpa = some j → h.hasRec = false → p.gpa ≠ p.core →
      ∃ t, exec (.spawnRequest id) s = .next t ∧ t.net = (withPkt s id { p with kind := .spawnAnswer d 0 false pc, loc := .reply 0 }).net ∧
        (hartAt t p.gpa j).pc = pc ∧ (hartAt t p.gpa j).gr 10 = w.get 0 ∧ (hartAt t p.gpa j).gr 13 = w.get 3 ∧
        (∀ i, i ≠ j → hartAt t p.gpa i = hartAt s p.gpa i) ∧ t.mem = s.mem) ∧
    (∀ pc w l d, p.kind = .spawn pc w l d → p.loc = .mesh → (colAt s (colOf p.gpa)).tripped = false →
      let answer (st : BitVec 64) (inl : Bool) : Prop :=
        exec (.spawnRequest id) s = .next (withPkt s id { p with kind := .spawnAnswer d st inl pc, loc := .reply 0 })
      (colOf p.gpa ≠ colOf p.core ∨ (coreAt s p.gpa).job ≠ (coreAt s p.core).job ∨ (coreAt s p.core).job = 0 → answer 3 false) ∧
      (colOf p.gpa = colOf p.core → (coreAt s p.gpa).job = (coreAt s p.core).job → (coreAt s p.core).job ≠ 0 → childSlot s p.gpa = none →
        (h.frames.length < 8 → answer 0 true) ∧ (8 ≤ h.frames.length → answer 2 false))) ∧
    (∀ d st pc, p.kind = .spawnAnswer d st true pc → h.wait = .spawn d → h.hasRec = false → ∃ t, exec (.spawnAnswer id) s = .next t ∧
      t.net = (withoutPkt s id).net ∧
      let g := hartAt t p.core p.slot
      g.pc = pc ∧ g.frames = { ret := h.pc + 4, d := d } :: h.frames ∧ g.gr 10 = h.gr 14 ∧ g.gr 11 = h.gr 15 ∧ g.gr 12 = h.gr 16 ∧
      g.gr 13 = h.gr 17 ∧ (∀ r, r.toNat < 10 ∨ 13 < r.toNat → g.gr r = h.gr r) ∧ SlotOnly s t p.core p.slot) ∧
    (∀ d st pc, p.kind = .spawnAnswer d st false pc → h.wait = .spawn d → ∃ t, exec (.spawnAnswer id) s = .next t ∧ t.net = (withoutPkt s id).net ∧
      (hartAt t p.core p.slot).pc = h.pc + 4 ∧ (hartAt t p.core p.slot).gr d = (if d = 0 then 0 else st) ∧
      (∀ r, r ≠ d → (hartAt t p.core p.slot).gr r = h.gr r) ∧ SlotOnly s t p.core p.slot)

/-- R427 to R435: a write of NFCTL.NFALL and another device's origin flit for this device's job start the wave: NIGHT is 1, ORIGINS counts,
NFCAUSE keeps the lowest key, PARTIAL and PPORT are this night's, the job's cores are reached, and a Nightfall flit leaves by every other
port that passes one; a flit of another job is only relayed, and a port without the feature brings none. A write of JOB clears WSEQ. At
its freeze point a core freezes its slots and CYC, the engines stop, the routers hold, and SETTLED reports the end, with which a step 1
that waited for it is acknowledged. DB starts a Daybreak. The coordinator takes its next step once every device has acknowledged the one
before, from step 2 on with SETTLED 1, and sends it to every device that a port reaches; a device that a step reaches takes it and
acknowledges it, step 1 when SETTLED is 1; a coordinator with the lower number takes none. The steps release the ports, the engines and
the cores, each slot to its own trap, to the NIGHTFALL trap under MODE 1, or to its state; an acknowledgement is taken off those waited
for. PARTIAL as this night's is log entry 64, the wave by core, engines and ports entry 66, a HALTED slot at step 3 entry 67, one flit of
each origin entry 134. -/
def Obligations.NightfallEvents : Prop :=
  ∀ (s : State),
    let n := s.night
    let job := nightJob s
    let night := n.nfstat.getLsbD 63
    let settled := n.nfstat.getLsbD 58
    let first : Bool := !night || (n.nfstat.getLsbD 62 && !n.again)
    let count : BitVec 16 := if first then 0 else n.nfstat.setWidth 16
    let leaves (t : State) (job key : BitVec 32) (cause : BitVec 8) (by' : Option Nat) : Prop :=
      ∀ p, p < 16 → portNight s p = true → some p ≠ by' → (p, Flit.night job key cause) ∈ t.fabric.sent
    let started (t : State) (key : BitVec 32) (cause : BitVec 8) (by' : Option Nat) : Prop :=
      t.night.nfstat.getLsbD 63 = true ∧ t.night.nfstat.setWidth 16 = (if count = 0xFFFF then count else count + 1) ∧
      (first = true → t.night.nfstat &&& 0x080F000000000000 = partialBits s) ∧
      t.night.nfcause = (if first = false ∧ (keptKey n.nfcause).toNat ≤ key.toNat then n.nfcause else causeWord n.nfcause key cause) ∧
      (∀ c, coreAt t c = if (coreAt s c).job = job ∧ job ≠ 0 then { coreAt s c with wave := !(coreAt s c).night } else coreAt s c) ∧
      leaves t job key cause by' ∧ t.mem = s.mem ∧ t.net = s.net ∧ t.cols = s.cols ∧ (night = false → t.boot.intstat.getLsbD 1 = true)
    (∃ t, exec .nfctlNfall s = .next t ∧ started t (BitVec.ofNat 32 ((s.fabric.dev.toNat * 8) * 256 + 255) <<< 8) 0 none) ∧
    (∀ port j key cause,
      (portNight s port = false → exec (.originFlit ⟨port, j, key⟩ cause) s = .next s) ∧
      (portNight s port = true → job ≠ 0 → j = job → ∃ t, exec (.originFlit ⟨port, j, key⟩ cause) s = .next t ∧ started t key cause (some port)) ∧
      (portNight s port = true → job = 0 ∨ j ≠ job → ∃ t, exec (.originFlit ⟨port, j, key⟩ cause) s = .next t ∧ leaves t j key cause (some port) ∧
        { t with fabric := s.fabric } = s)) ∧
    (∀ v : BitVec 64, v.getLsbD 1 = false → v.getLsbD 0 = false → ∃ t, exec (.nfctlJob v) s = .next t ∧
      t.night.nfctl = v &&& 0xFFFFFFFF00000004 ∧ t.night.nfcause = n.nfcause &&& 0xFFFFFFFF00000000 ∧ t.night.nfstat = n.nfstat ∧
      { t with night := n } = s) ∧
    (∀ c, c < 2048 →
      let q := coreAt s c
      (q.wave = true ∨ q.night = true → q.boundary = true → ∃ t, exec (.wave c) s = .next t ∧ (coreAt t c).night = true ∧ (coreAt t c).wave = false ∧
        (coreAt t c).cycStop = some (q.cycStop.getD s.clock) ∧
        (∀ k, (hartAt t c k).pc = (hartAt s c k).pc ∧ (∀ r, (hartAt t c k).gr r = (hartAt s c k).gr r) ∧
          (((hartAt s c k).st = .ready ∨ (hartAt s c k).st = .parked ∨ (hartAt s c k).st = .stalled) → (hartAt s c k).dbgStep = false →
            (hartAt t c k).st = .frozen ∧ (hartAt t c k).back = (hartAt s c k).st)) ∧
        (∀ x, x ≠ c → coreAt t x = coreAt s x) ∧ t.kept = s.kept) ∧
      (q.wave = false → q.night = false → exec (.wave c) s = .next s)) ∧
    (night = true → daySteps s = 0 →
      exec (.wave 2048) s = .next { s with night := { n with engines := true } } ∧
      exec (.wave 2049) s = .next { s with night := { n with ports := true }, cols := s.cols.map fun c => { c with hold := true } }) ∧
    (night = true → ∃ t, exec (.wave 2050) s = .next t ∧ t.night.nfstat.getLsbD 58 = (settled || allSettled s) ∧
      { t with night := n, fabric := s.fabric } = s ∧ (n.ackDue = false → t.fabric = s.fabric) ∧
      (allSettled s = true → n.ackDue = true → ∀ p, portFor s 0 n.leader.toNat = some p → portNight s p = true →
        (p, Flit.stepAck s.fabric.dev job 1) ∈ t.fabric.sent)) ∧
    (n.nfstat.getLsbD 62 = false → ∃ t, exec .nfctlDb s = .next t ∧
      (night = true → t.night.nfstat.getLsbD 62 = true ∧ t.night.nfstat.extractLsb' 60 2 = 0 ∧ t.night.coord = true ∧ t.night.acks = []) ∧
      (night = false → t = s) ∧ { t with night := n } = s) ∧
    (night = true → ∀ port,
      let done := stepsDone n
      let first' (t : State) : Prop := t.night.ports = false ∧ t.cols = s.cols.map (fun c => { c with hold := false }) ∧
        t.night.nfstat.extractLsb' 60 2 = 1 ∧ t.cores = s.cores ∧ t.mem = s.mem ∧ t.net = s.net
      let second (t : State) : Prop := t.night.engines = false ∧ t.night.nfstat.extractLsb' 60 2 = 2 ∧ { t with night := n, fabric := s.fabric } = s
      let goes (k : BitVec 2) (t : State) : Prop := ∀ x ∈ dayDevices s, (x.1, Flit.step x.2 job k) ∈ t.fabric.sent
      (n.coord = true → n.acks = [] →
        (done = 0 → ∃ t, exec (.daybreakStep ⟨s.fabric.dev, port, job, 1⟩) s = .next t ∧ first' t ∧ goes 1 t ∧ t.night.acks = (dayDevices s).map (·.2)) ∧
        (done = 1 → settled = true → ∃ t, exec (.daybreakStep ⟨s.fabric.dev, port, job, 2⟩) s = .next t ∧ second t ∧ goes 2 t ∧
          t.night.acks = (dayDevices s).map (·.2)) ∧
        (done = 2 → settled = true → ∃ t, exec (.daybreakStep ⟨s.fabric.dev, port, job, 3⟩) s = .next t ∧ goes 3 t ∧
          t.night.nfcause = setBits n.nfcause ((n.nfcause.setWidth 32 + 1).zeroExtend 64) 31 0 ∧ t.mem = s.mem ∧
          (n.again = true → t.night.nfstat.getLsbD 63 = true ∧ t.cores = s.cores) ∧
          (n.again = false → t.night.nfstat.getLsbD 63 = false ∧ t.night.nfstat.setWidth 16 = 0#16) ∧
          (n.again = false → (s.cores.Pairwise fun a b => a.1 ≠ b.1) → ∀ c k,
            let h := hartAt s c k
            let h' := hartAt t c k
            ((coreAt s c).night = false → (coreAt s c).wave = false → coreAt t c = coreAt s c) ∧
            ((coreAt s c).night = true → (coreAt t c).night = false ∧
              (h.st = .idle → h' = h) ∧
              (h.st ≠ .idle → h.dstep.getLsbD 1 = true → h'.pc = (h.xbase.setWidth 48 &&& ~~~1) ∧ h'.dstep.getLsbD 1 = false ∧
                h'.xcause = h.xcause ∧ (h.st ≠ .halted → h'.st = .ready)) ∧
              (h.st ≠ .idle → h.dstep.getLsbD 1 = false → n.nfctl.getLsbD 2 = true → h'.pc = (h.xbase.setWidth 48 &&& ~~~1) ∧
                h'.xcause = (causeCode .nightfall).zeroExtend 64 ∧ h'.xval = (n.nfcause.setWidth 32 + 1).zeroExtend 64 ∧
                h'.xpc = (h.pc.zeroExtend 64 &&& ~~~1) ∧ (h.st ≠ .halted → h'.st = .ready)) ∧
              (h.st = .frozen → h.dstep.getLsbD 1 = false → n.nfctl.getLsbD 2 = false → h'.pc = h.pc ∧ h'.st = h.back ∧
                ∀ r, h'.gr r = h.gr r))))) ∧
      (∀ dev, dev ≠ s.fabric.dev → portNight s port = true →
        let acks (k : BitVec 2) (t : State) : Prop :=
          ∀ p, portFor s 0 dev.toNat = some p → portNight s p = true → (p, Flit.stepAck s.fabric.dev job k) ∈ t.fabric.sent
        (n.coord = true → s.fabric.dev.toNat < dev.toNat → ∀ k, exec (.daybreakStep ⟨dev, port, job, k⟩) s = .next s) ∧
        (n.coord = false ∨ dev.toNat ≤ s.fabric.dev.toNat →
          (done = 0 → ∃ t, exec (.daybreakStep ⟨dev, port, job, 1⟩) s = .next t ∧ first' t ∧ t.night.coord = false ∧ t.night.leader = dev ∧
            (settled = false → t.night.ackDue = true) ∧ (settled = true → acks 1 t)) ∧
          (done = 1 → settled = true → ∃ t, exec (.daybreakStep ⟨dev, port, job, 2⟩) s = .next t ∧ second t ∧ t.night.coord = false ∧ acks 2 t)))) ∧
    (∀ dev port, exec (.daybreakAcknowledgement ⟨dev, port⟩) s = .next
      (if portNight s port then { s with night := { n with acks := n.acks.filter (· != dev) } } else s))

/-- R436 to R438: haltreq halts a READY slot between instructions or a FROZEN one; resumereq returns a halted one to its state, or starts one
step unit; Access Register reads and writes the registers of a halted hart, with cmderr 4 otherwise and 2 for a wrong size or number, for
another cmdtype and for a program buffer; Access Memory reads and writes memory of the device, with cmderr 2 for another device or virtual
access and 5 for a misaligned address; a bank answers it in its turn (R120); a row cluster with no hart running is unloaded. What cmderr
shows is log entry 68, CTXJOB after an unload entry 69. -/
def Obligations.DebugEvents : Prop :=
  ∀ (s : State) (c : Nat) (k : BitVec 3), c < 2048 →
    let q := coreAt s c
    let i := k.toFin
    let h := hartAt s c i
    let col := colOf c
    let result (err : BitVec 3) (v : BitVec 64) (t u : State) : Prop :=
      (colAt t col).cmderr = err ∧ (colAt t col).ddata = v ∧ { colAt t col with cmderr := 0, ddata := 0 } = { colAt u col with cmderr := 0, ddata := 0 } ∧
        (∀ x, x ≠ col → colAt t x = colAt u x) ∧ { t with cols := u.cols } = u
    let old := (colAt s col).ddata
    (h.st = .ready → h.boundary = true → (q.vec.bound = false ∨ q.vec.slot ≠ i ∨ q.quiet = true) →
      exec (.haltreq c k) s = .next (setHart s c i { h with st := .halted, back := .ready, dbgStep := false })) ∧
    (h.st = .frozen → exec (.haltreq c k) s = .next (setHart s c i { h with st := .halted, dbgStep := false })) ∧
    (q.unloaded = true → ∃ t, exec (.resumereq c k) s = .next t ∧ result 4 old t s) ∧
    (q.unloaded = false → h.st = .halted →
      (h.dstep.getLsbD 0 = false → q.night = false → exec (.resumereq c k) s = .next (setHart s c i { h with st := h.back, back := .ready })) ∧
      (h.dstep.getLsbD 0 = false → q.night = true → exec (.resumereq c k) s = .next (setHart s c i { h with st := .frozen })) ∧
      (h.dstep.getLsbD 0 = true → ∃ t, exec (.resumereq c k) s = .next t ∧ (hartAt t c i).st = .ready ∧ (hartAt t c i).dbgStep = true ∧
        (hartAt t c i).pc = h.pc ∧ (∀ r, (hartAt t c i).gr r = h.gr r) ∧ SlotOnly s t c i)) ∧
    (∀ (r : BitVec 5) (n : BitVec 16) (z : BitVec 3) (wr : Bool) (v : BitVec 64), n.toNat = 0x1000 + r.toNat →
      (∀ (ct : BitVec 8) (px : Bool), ct ≠ 0 ∨ px = true → ∃ t, exec (.accessRegister c k ⟨ct, n⟩ ⟨z, px⟩ wr v) s = .next t ∧ result 2 old t s) ∧
      (h.st ≠ .halted → ∃ t, exec (.accessRegister c k ⟨0, n⟩ ⟨z, false⟩ wr v) s = .next t ∧ result 4 old t s) ∧
      (h.st = .halted → z ≠ 3 → ∃ t, exec (.accessRegister c k ⟨0, n⟩ ⟨z, false⟩ wr v) s = .next t ∧ result 2 old t s) ∧
      (h.st = .halted → z = 3 →
        (∃ t, exec (.accessRegister c k ⟨0, n⟩ ⟨z, false⟩ false v) s = .next t ∧ result 0 (h.gr r) t s) ∧
        (∃ t, exec (.accessRegister c k ⟨0, n⟩ ⟨z, false⟩ true v) s = .next t ∧ (hartAt t c i).gr r = (if r = 0 then 0 else v) ∧
          (∀ x, x ≠ r → (hartAt t c i).gr x = h.gr x) ∧ (hartAt t c i).pc = h.pc ∧ (colAt t col).cmderr = 0 ∧ t.mem = s.mem ∧
          (∀ j, j ≠ i → hartAt t c j = hartAt s c j) ∧ ∀ x, x ≠ c → coreAt t x = coreAt s x))) ∧
    (∀ (a : BitVec 64) (z : BitVec 3) (vi wr : Bool) (v : BitVec 64),
      let n := 2 ^ z.toNat
      (vi = true ∨ 3 < z.toNat ∨ 2 ^ 56 ≤ a.toNat ∨ gpaDev a.toNat ≠ s.fabric.dev.toNat →
        ∃ t, exec (.accessMemory col.val a z vi wr v) s = .next t ∧ result 2 old t s) ∧
      (z.toNat ≤ 3 → a.toNat < 2 ^ 56 → gpaDev a.toNat = s.fabric.dev.toNat →
        (a.toNat % n ≠ 0 → ∃ t, exec (.accessMemory col.val a z false wr v) s = .next t ∧ result 5 old t s) ∧
        (∀ b w o, a.toNat % n = 0 → targetOf s a.toNat = .bank b w o → bankCheck s b w = none → lineBad s a.toNat = false → State.memOk s →
          bankTaken s noCore b w = false → bankHeld s noCore a.toNat = false →
          let u := takeBank noCore b w s
          (∃ t, exec (.accessMemory col.val a z false false v) s = .next t ∧ result 0 (BitVec.ofNat 64 (memRead s.mem a.toNat n)) t u) ∧
          (∃ t, exec (.accessMemory col.val a z false true v) s = .next t ∧ Stored s t a.toNat n v.toNat ∧ result 0 v t { u with mem := t.mem })))) ∧
    (let row := idxOf c / 16
     let cs := (List.range 16).map fun j => 256 * col.val + 16 * row + j
     (cs.all fun x => mayUnload s x && (coreAt s x).cw.isEmpty && (coreAt s x).waiters.isEmpty) = true →
      ∃ t, exec (.instrumentUnload col.val row) s = .next t ∧ (colAt t col).unloaded.getLsbD row = true ∧
        (∀ x ∈ cs, (coreAt t x).unloaded = true ∧ (coreAt t x).ctxjob = 0 ∧ (∀ j, hartAt t x j = Hart.reset) ∧ (coreAt t x).vec.v = [] ∧
          (coreAt t x).vec.acc = [] ∧ ∀ w b, w < 16 → b < 2 ^ 18 → State.memOk s → byteAt t (bankGpa s x w b) = 0) ∧
        (∀ x, x ∉ cs → coreAt t x = coreAt s x))

/-- R178, R183, R188, R342: when a merge window closes its stream fills the waiting buffer of its receiver; a command whose operands are its
own core's has its buffer filled, and its hart goes on; the accumulation of the oldest command with a full buffer puts its sums into the
tile; a pass performs one element group of a convoy of one element command, of any of its forms, and a convoy that is done ends. When
windows close is log entry 86, when a MOPA accumulates entry 111, that an operand is read in one step entry 119. -/
def Obligations.SequencerEvents : Prop :=
  ∀ (s : State) (c : Nat), c < 2048 → (colAt s (colOf c)).tripped = false →
    let v := (coreAt s c).vec
    let n := (coreAt s c).mvl
    let h := hartAt s c v.slot
    (∀ (way : Nat) (w : MWin) (x : Nat) (d : DtuOp), way < 16 → (coreAt s c).windows = [w] → w.way = way → w.opened + 16 ≤ s.clock →
      w.cores = [x] → x ≠ c → (coreAt s x).vec.dtu = [d] → d.full = false →
      let op := if w.second then d.db else d.da
      opCore x op = c → opBank op = way → opRow op = w.row0 → fillStop s x op (if w.second then d.codeB else d.codeA) false = none →
      let buf := some (readOperand s x op (coreAt s x).mvl)
      ∃ t, exec (.mergeWindowClose c way) s = .next t ∧ (coreAt t c).windows = [] ∧
        (coreAt t x).vec.dtu = [if w.second then { d with b := buf } else { d with a := buf }] ∧ t.mem = s.mem ∧
        ∀ y k, hartAt t y k = hartAt s y k) ∧
    (∀ d : DtuOp, v.dtu = [d] → d.full = false → d.stop = none → opCore c d.da = c → opCore c d.db = c → fillStop s c d.da d.codeA d.a.isSome = none →
      fillStop s c d.db d.codeB d.b.isSome = none → ∃ t, exec (.operandBufferFull c) s = .next t ∧
        (coreAt t c).vec.dtu = [{ d with a := some (readOperand s c d.da n), b := some (readOperand s c d.db n), full := true }] ∧
        (hartAt t c v.slot).pc = h.pc + 4 ∧ (∀ r, (hartAt t c v.slot).gr r = h.gr r) ∧ (coreAt t c).vec.acc = v.acc ∧
        (coreAt t c).instret = (coreAt s c).instret + 1 ∧ t.mem = s.mem ∧ ∀ x, x ≠ c → coreAt t x = coreAt s x) ∧
    (∀ (d : DtuOp) (r : List DtuOp) (A B : DtuBuf), v.dtu = d :: r → d.full = true → (∀ m ∈ v.convoy.take d.after, m.finished = true) → d.a = some A → d.b = some B → n ≤ 64 →
      let cell (m : State) (i j : Nat) : BitVec 32 := tabGet 0 (coreAt m c).vec.acc (64 * i + j)
      let new (i j : Nat) := cellAcc A B d.q i j (cell s i j)
      ∃ t, exec (.accumulationEnd c) s = .next t ∧ (coreAt t c).vec.dtu = r ∧
        (∀ i j, i < 64 → j < 64 → cell t i j = if i < n ∧ j < n then (new i j).1 else cell s i j) ∧
        (coreAt t c).vec.mstat = v.mstat ||| (if (tileCells n).any fun p => (new p.1 p.2).2 then 1#64 <<< 32 else 0) ∧
        t.mem = s.mem ∧ (∀ k, hartAt t c k = hartAt s c k) ∧ ∀ x, x ≠ c → coreAt t x = coreAt s x) ∧
    (v.bound = true → v.stop = none → v.convoy ≠ [] → nextMember (max 1 (coreAt s c).glanes) v.convoy = none →
      exec (.pass c) s = .next (setCore s c { coreAt s c with vec := { v with convoy := [], dtu := v.dtu.map fun d => { d with after := 0 } } })) ∧
    (∀ (i : Instr) (f : VForm) (m : VCmd), elemForm i = some f → m.op = f.op → m.sc = f.sc →
      v.bound = true → v.stop = none → v.convoy = [m] → m.began = true → m.finished = false → m.next < m.vl →
      m.badCfg (coreAt s c).glanes = false → m.vl ≤ vlmaxOf (coreAt s c).glanes m.vtype → (colAt s (colOf c)).layerctl.getLsbD 0 = true →
      (coreAt s c).narr ≤ 16 →
      let gl := (coreAt s c).glanes
      let hi := min m.vl ((m.next / gl + 1) * gl)
      let act := m.actives s c m.next hi
      let live (x : BitVec 64) : BitVec 64 := if x = 0 then vrsSeed else x
      let new (e : Nat) : BitVec 64 := if m.op = .rng then live (vrsStep (vrsGet s c (e % gl))) >>> (64 - m.sew) else (m.value s c e).1
      ∃ t, exec (.pass c) s = .next t ∧
        (∀ k e, m.op.dst = some k → e < (if k = .m then 32 * gl else vlmaxOf gl m.vtype) → elemGet t c (k.width m.sew) m.vd.toNat e =
          if e ∈ act then cutBits (k.width m.sew) (new e) else elemGet s c (k.width m.sew) m.vd.toNat e) ∧
        (∀ l r, (∀ k, m.op.dst = some k → r < m.vd.toNat ∨ m.vd.toNat + k.regs m.sew m.grp ≤ r) → laneWord t c l r = laneWord s c l r) ∧
        (∀ l, l < gl → vrsGet t c l = m.lanes s c act l) ∧
        (coreAt t c).vec = { v with
          convoy := if hi = m.vl then [] else [{ m with next := hi, performed := m.performed || !act.isEmpty, gather := none, gathered := [] }]
          dtu := if hi = m.vl then v.dtu.map (fun d => { d with after := 0 }) else v.dtu
          vpi := if m.op.dst.isSome && (m.performed || !act.isEmpty) then vput v.vpi m.vd.toNat (BitVec.ofNat 64 hi) else v.vpi
          vflags := if m.op = .rng then v.vflags else act.foldl (fun x e => x ||| (m.value s c e).2.zeroExtend 64) v.vflags
          v := (coreAt t c).vec.v, vrs := (coreAt t c).vec.vrs, vdirty := (coreAt t c).vec.vdirty, vhw := (coreAt t c).vec.vhw } ∧
        (coreAt t c).instret = (coreAt s c).instret + (if hi = m.vl then 1 else 0) ∧
        (∀ x, { (coreAt t x).vecKept with vec := Vec.reset } = { (coreAt s x).vecKept with vec := Vec.reset }) ∧
        (∀ x k, hartAt t x k = hartAt s x k) ∧ t.kept = s.kept)
end

