-- ==== Sys2Proof/Laws/State.lean ====
section
/-!
SUPPORT. Tables, cores, harts and columns after an update: each named update of the state, read back through each accessor.
-/

namespace Sys2Proof.Machine

set_option Elab.async false

/-! ## Sparse tables -/

@[simp] theorem tabGet_tabPut_self {α : Type} (d : α) (k : Nat) (v : α) : ∀ t : Tab α, tabGet d (tabPut t k v) k = v
  | [] => by simp [tabPut, tabGet]
  | (j, w) :: t => by
    by_cases h1 : k < j
    · simp [tabPut, h1, tabGet]
    · by_cases h2 : k = j
      · simp [tabPut, h2, tabGet]
      · simp [tabPut, h1, h2, tabGet, Ne.symm h2, tabGet_tabPut_self d k v t]

theorem tabGet_tabPut_ne {α : Type} (d : α) (k i : Nat) (v : α) (h : i ≠ k) : ∀ t : Tab α, tabGet d (tabPut t k v) i = tabGet d t i
  | [] => by simp [tabPut, tabGet, Ne.symm h]
  | (j, w) :: t => by
    by_cases h1 : k < j
    · simp [tabPut, h1, tabGet, Ne.symm h]
    · by_cases h2 : k = j
      · subst h2; simp [tabPut, tabGet, Ne.symm h]
      · simp only [tabPut, if_neg h1, if_neg h2, tabGet, tabGet_tabPut_ne d k i v h t]

theorem tabGet_tabPut {α : Type} (d : α) (t : Tab α) (k i : Nat) (v : α) :
    tabGet d (tabPut t k v) i = if i = k then v else tabGet d t i := by
  by_cases h : i = k
  · subst h; simp
  · simp [h, tabGet_tabPut_ne]

/-- A map over the values that keeps the default is read value by value. -/
theorem tabGet_map {α : Type} (d : α) (f : Nat → α → α) (h : ∀ k, f k d = d) (k : Nat) :
    ∀ t : Tab α, tabGet d (t.map fun e => (e.1, f e.1 e.2)) k = f k (tabGet d t k)
  | [] => by simp [tabGet, h]
  | (j, w) :: t => by
    by_cases hj : j = k
    · subst hj; simp [tabGet]
    · simp [tabGet, hj, tabGet_map d f h k t]

/-! ## Vectors of registers -/

theorem vec_get_set_self {α : Type} {n : Nat} (v : Vector α n) (k : Fin n) (x : α) : (v.set k x).get k = x := by
  show (v.set k.val x)[k.val] = x
  simp

theorem vec_get_set_ne {α : Type} {n : Nat} (v : Vector α n) (k j : Fin n) (x : α) (h : j ≠ k) : (v.set k x).get j = v.get j := by
  have hv : k.val ≠ j.val := fun e => h (Fin.ext e.symm)
  show (v.set k.val x)[j.val] = v[j.val]
  simp [hv]

/-! ## Cores -/

@[simp] theorem setCore_cores (s : State) (c : Nat) (v : Core) : (setCore s c v).cores = tabPut s.cores c v := rfl
@[simp] theorem setCore_cols (s : State) (c : Nat) (v : Core) : (setCore s c v).cols = s.cols := rfl
@[simp] theorem setCore_mem (s : State) (c : Nat) (v : Core) : (setCore s c v).mem = s.mem := rfl
@[simp] theorem setCore_farFull (s : State) (c : Nat) (v : Core) : (setCore s c v).farFull = s.farFull := rfl
@[simp] theorem setCore_farWaiters (s : State) (c : Nat) (v : Core) : (setCore s c v).farWaiters = s.farWaiters := rfl
@[simp] theorem setCore_farBars (s : State) (c : Nat) (v : Core) : (setCore s c v).farBars = s.farBars := rfl
@[simp] theorem setCore_net (s : State) (c : Nat) (v : Core) : (setCore s c v).net = s.net := rfl
@[simp] theorem setCore_entries (s : State) (c : Nat) (v : Core) : (setCore s c v).entries = s.entries := rfl
@[simp] theorem setCore_dist (s : State) (c : Nat) (v : Core) : (setCore s c v).dist = s.dist := rfl
@[simp] theorem setCore_fabric (s : State) (c : Nat) (v : Core) : (setCore s c v).fabric = s.fabric := rfl
@[simp] theorem setCore_night (s : State) (c : Nat) (v : Core) : (setCore s c v).night = s.night := rfl
@[simp] theorem setCore_boot (s : State) (c : Nat) (v : Core) : (setCore s c v).boot = s.boot := rfl
@[simp] theorem setCore_curCore (s : State) (c : Nat) (v : Core) : (setCore s c v).curCore = s.curCore := rfl
@[simp] theorem setCore_curSlot (s : State) (c : Nat) (v : Core) : (setCore s c v).curSlot = s.curSlot := rfl
@[simp] theorem setCore_clock (s : State) (c : Nat) (v : Core) : (setCore s c v).clock = s.clock := rfl
@[simp] theorem setCore_agenda (s : State) (c : Nat) (v : Core) : (setCore s c v).agenda = s.agenda := rfl
@[simp] theorem setCore_turn (s : State) (c : Nat) (v : Core) : (setCore s c v).turn = s.turn := rfl
@[simp] theorem setCore_lastCore (s : State) (c : Nat) (v : Core) : (setCore s c v).lastCore = s.lastCore := rfl
@[simp] theorem setCore_nextId (s : State) (c : Nat) (v : Core) : (setCore s c v).nextId = s.nextId := rfl
@[simp] theorem setCore_freeIdx (s : State) (c : Nat) (v : Core) : (setCore s c v).freeIdx = s.freeIdx := rfl
@[simp] theorem setCore_split (s : State) (c : Nat) (v : Core) : (setCore s c v).split = s.split := rfl
@[simp] theorem setCore_vqueue (s : State) (c : Nat) (v : Core) : (setCore s c v).vqueue = s.vqueue := rfl

@[simp] theorem coreAt_setCore_self (s : State) (c : Nat) (v : Core) : coreAt (setCore s c v) c = v := by simp [coreAt]
theorem coreAt_setCore_ne (s : State) (c j : Nat) (v : Core) (h : j ≠ c) : coreAt (setCore s c v) j = coreAt s j := by
  simp [coreAt, tabGet_tabPut_ne _ _ _ _ h]
theorem coreAt_setCore (s : State) (c j : Nat) (v : Core) : coreAt (setCore s c v) j = if j = c then v else coreAt s j := by
  simp [coreAt, tabGet_tabPut]

@[simp] theorem coreAt_updCore_self (s : State) (c : Nat) (f : Core → Core) : coreAt (updCore s c f) c = f (coreAt s c) := by
  simp [updCore]
theorem coreAt_updCore_ne (s : State) (c j : Nat) (f : Core → Core) (h : j ≠ c) : coreAt (updCore s c f) j = coreAt s j :=
  coreAt_setCore_ne _ _ _ _ h
theorem coreAt_updCore (s : State) (c j : Nat) (f : Core → Core) :
    coreAt (updCore s c f) j = if j = c then f (coreAt s c) else coreAt s j := coreAt_setCore _ _ _ _

/-! ## Harts of a core -/

theorem setHart_harts (q : Core) (k : Fin 8) (h : Hart) : (q.setHart k h).harts = q.harts.set k h := rfl
@[simp] theorem setHart_get_self (q : Core) (k : Fin 8) (h : Hart) : (q.setHart k h).harts.get k = h := vec_get_set_self _ _ _
theorem setHart_get_ne (q : Core) (k j : Fin 8) (h : Hart) (hk : j ≠ k) : (q.setHart k h).harts.get j = q.harts.get j :=
  vec_get_set_ne _ _ _ _ hk

@[simp] theorem hartAt_setHart_self (s : State) (c : Nat) (k : Fin 8) (h : Hart) : hartAt (setHart s c k h) c k = h := by
  simp [hartAt, setHart]
theorem hartAt_setHart_slot (s : State) (c : Nat) (k j : Fin 8) (h : Hart) (hk : j ≠ k) :
    hartAt (setHart s c k h) c j = hartAt s c j := by
  simp only [hartAt, setHart, coreAt_updCore_self, setHart_get_ne _ _ _ _ hk]
theorem hartAt_setHart_core (s : State) (c b : Nat) (k j : Fin 8) (h : Hart) (hc : b ≠ c) :
    hartAt (setHart s c k h) b j = hartAt s b j := by
  simp only [hartAt, setHart, coreAt_updCore_ne _ _ _ _ hc]

@[simp] theorem hartAt_updHart_self (s : State) (c : Nat) (k : Fin 8) (f : Hart → Hart) :
    hartAt (updHart s c k f) c k = f (hartAt s c k) := hartAt_setHart_self _ _ _ _
@[simp] theorem coreAt_setHart_self (s : State) (c : Nat) (k : Fin 8) (h : Hart) :
    coreAt (setHart s c k h) c = (coreAt s c).setHart k h := coreAt_updCore_self _ _ _

/-- Two harts of the same slot written one after the other: the later stays. -/
@[simp] theorem setHart_setHart (q : Core) (k : Fin 8) (a b : Hart) : (q.setHart k a).setHart k b = q.setHart k b := by
  simp [Core.setHart, Vector.set]

/-! ## The issuing hart -/

@[simp] theorem curCore_updMe (s : State) (f : Hart → Hart) : (updMe s f).curCore = s.curCore := rfl
@[simp] theorem curSlot_updMe (s : State) (f : Hart → Hart) : (updMe s f).curSlot = s.curSlot := rfl
@[simp] theorem curCore_updMyCore (s : State) (f : Core → Core) : (updMyCore s f).curCore = s.curCore := rfl
@[simp] theorem curSlot_updMyCore (s : State) (f : Core → Core) : (updMyCore s f).curSlot = s.curSlot := rfl
@[simp] theorem curCore_setG (s : State) (r : BitVec 5) (v : BitVec 64) : (setG s r v).curCore = s.curCore := rfl
@[simp] theorem curSlot_setG (s : State) (r : BitVec 5) (v : BitVec 64) : (setG s r v).curSlot = s.curSlot := rfl

@[simp] theorem me_updMe (s : State) (f : Hart → Hart) : me (updMe s f) = f (me s) := hartAt_setHart_self _ _ _ _
@[simp] theorem myCore_updMe (s : State) (f : Hart → Hart) : myCore (updMe s f) = (myCore s).setHart s.curSlot (f (me s)) :=
  coreAt_setHart_self _ _ _ _
@[simp] theorem myCore_updMyCore (s : State) (f : Core → Core) : myCore (updMyCore s f) = f (myCore s) := coreAt_updCore_self _ _ _
@[simp] theorem me_updMyCore (s : State) (f : Core → Core) : me (updMyCore s f) = (f (myCore s)).harts.get s.curSlot := by
  simp only [me, hartAt, updMyCore, myCore]
  exact congrArg (fun q : Core => q.harts.get s.curSlot) (coreAt_updCore_self _ _ _)
theorem me_eq (s : State) : me s = (myCore s).harts.get s.curSlot := rfl

/-- A core that keeps its harts keeps the issuing hart. -/
theorem me_updMyCore_of_harts (s : State) (f : Core → Core) (h : (f (myCore s)).harts = (myCore s).harts) : me (updMyCore s f) = me s := by
  rw [me_updMyCore, h]; rfl

/-! ## The registers of a hart -/

@[simp] theorem gr_zero (h : Hart) : h.gr 0#5 = 0#64 := rfl
@[simp] theorem setG_zero (h : Hart) (v : BitVec 64) : h.setG 0#5 v = h := rfl
theorem gr_setG_self (h : Hart) (r : BitVec 5) (v : BitVec 64) (hr : r ≠ 0) : (h.setG r v).gr r = v := by
  simp only [Hart.gr, Hart.setG, if_neg hr]; exact vec_get_set_self _ _ _
theorem gr_setG_ne (h : Hart) (r q : BitVec 5) (v : BitVec 64) (hr : q ≠ r) : (h.setG r v).gr q = h.gr q := by
  unfold Hart.gr Hart.setG
  split
  · rfl
  · split
    · rfl
    · exact vec_get_set_ne _ _ _ _ fun e => hr (BitVec.toFin_inj.mp e)
theorem gr_setG (h : Hart) (r q : BitVec 5) (v : BitVec 64) :
    (h.setG r v).gr q = if q = r then (if r = 0 then 0 else v) else h.gr q := by
  by_cases hq : q = r
  · subst hq
    by_cases h0 : q = 0
    · rw [if_pos rfl, if_pos h0, h0]; rfl
    · rw [if_pos rfl, if_neg h0, gr_setG_self _ _ _ h0]
  · simp [hq, gr_setG_ne]

/-- Writing gd changes no field of the hart but the g registers. -/
theorem setG_rest (h : Hart) (r : BitVec 5) (v : BitVec 64) : h.setG r v = { h with g := (h.setG r v).g } := by
  unfold Hart.setG; split <;> rfl
@[simp] theorem setG_pc (h : Hart) (r : BitVec 5) (v : BitVec 64) : (h.setG r v).pc = h.pc := by rw [setG_rest]
@[simp] theorem setG_st (h : Hart) (r : BitVec 5) (v : BitVec 64) : (h.setG r v).st = h.st := by rw [setG_rest]
@[simp] theorem setG_fstat (h : Hart) (r : BitVec 5) (v : BitVec 64) : (h.setG r v).fstat = h.fstat := by rw [setG_rest]
@[simp] theorem setG_ox (h : Hart) (r : BitVec 5) (v : BitVec 64) : (h.setG r v).ox = h.ox := by rw [setG_rest]
@[simp] theorem setG_xstat (h : Hart) (r : BitVec 5) (v : BitVec 64) : (h.setG r v).xstat = h.xstat := by rw [setG_rest]

/-! ## Columns -/

@[simp] theorem colAt_setCol_self (s : State) (k : Fin 8) (v : Column) : colAt (setCol s k v) k = v := vec_get_set_self _ _ _
theorem colAt_setCol_ne (s : State) (k j : Fin 8) (v : Column) (h : j ≠ k) : colAt (setCol s k v) j = colAt s j :=
  vec_get_set_ne _ _ _ _ h
@[simp] theorem colAt_updCol_self (s : State) (k : Fin 8) (f : Column → Column) : colAt (updCol s k f) k = f (colAt s k) :=
  colAt_setCol_self _ _ _
theorem colAt_updCol_ne (s : State) (k j : Fin 8) (f : Column → Column) (h : j ≠ k) : colAt (updCol s k f) j = colAt s j :=
  colAt_setCol_ne _ _ _ _ h
@[simp] theorem setCol_mem (s : State) (k : Fin 8) (v : Column) : (setCol s k v).mem = s.mem := rfl
@[simp] theorem setCol_cores (s : State) (k : Fin 8) (v : Column) : (setCol s k v).cores = s.cores := rfl
@[simp] theorem updCol_mem (s : State) (k : Fin 8) (f : Column → Column) : (updCol s k f).mem = s.mem := rfl
@[simp] theorem updCol_cores (s : State) (k : Fin 8) (f : Column → Column) : (updCol s k f).cores = s.cores := rfl
@[simp] theorem coreAt_updCol (s : State) (k : Fin 8) (f : Column → Column) (c : Nat) : coreAt (updCol s k f) c = coreAt s c := rfl
@[simp] theorem hartAt_updCol (s : State) (k : Fin 8) (f : Column → Column) (c : Nat) (j : Fin 8) :
    hartAt (updCol s k f) c j = hartAt s c j := rfl

/-! ## The memory of those updates -/

@[simp] theorem updCore_mem (s : State) (c : Nat) (f : Core → Core) : (updCore s c f).mem = s.mem := rfl
@[simp] theorem updHart_mem (s : State) (c : Nat) (k : Fin 8) (f : Hart → Hart) : (updHart s c k f).mem = s.mem := rfl
@[simp] theorem updMe_mem (s : State) (f : Hart → Hart) : (updMe s f).mem = s.mem := rfl
@[simp] theorem updMyCore_mem (s : State) (f : Core → Core) : (updMyCore s f).mem = s.mem := rfl
@[simp] theorem setG_mem (s : State) (r : BitVec 5) (v : BitVec 64) : (setG s r v).mem = s.mem := rfl
@[simp] theorem setOx_mem (s : State) (n : BitVec 3) (v : BitVec 64) : (setOx s n v).mem = s.mem := rfl
@[simp] theorem orFstat_mem (f : Flags) (s : State) : (orFstat f s).mem = s.mem := rfl
@[simp] theorem retireAt_mem (p : BitVec 48) (s : State) : (retireAt p s).mem = s.mem := rfl
@[simp] theorem retire_mem (n : BitVec 48) (s : State) : (retire n s).mem = s.mem := rfl
@[simp] theorem done4_mem (d : BitVec 5) (v : BitVec 64) (s : State) : (done4 d v s).mem = s.mem := rfl
@[simp] theorem done2_mem (d : BitVec 5) (v : BitVec 64) (s : State) : (done2 d v s).mem = s.mem := rfl

end Sys2Proof.Machine
end

