-- ==== Sys2Proof/Laws/Retire.lean ====
section
/-!
SUPPORT. What retiring an instruction does to the machine (R147, R228): the PC, INSTRET, the destination register, and what stays.
-/

namespace Sys2Proof.Machine

set_option Elab.async false

/-- The hart after it retired at p. -/
def Hart.retired (p : BitVec 48) (h : Hart) : Hart :=
  { h.goOn with pc := p, released := false, wait := .none, timer := none, stepDone := true, counted := h.counted + 1 }

@[simp] theorem kept_retired (p : BitVec 48) (h : Hart) : (h.retired p).kept = h.kept := rfl
@[simp] theorem gr_retired (p : BitVec 48) (h : Hart) (r : BitVec 5) : (h.retired p).gr r = h.gr r := rfl
@[simp] theorem pc_retired (p : BitVec 48) (h : Hart) : (h.retired p).pc = p := rfl
@[simp] theorem fstat_retired (p : BitVec 48) (h : Hart) : (h.retired p).fstat = h.fstat := rfl
@[simp] theorem ox_retired (p : BitVec 48) (h : Hart) : (h.retired p).ox = h.ox := rfl
@[simp] theorem latch_retired (p : BitVec 48) (h : Hart) : (h.retired p).latch = h.latch := rfl

/-- A core whose slot k holds h, one more instruction counted. -/
def Core.counted (q : Core) (k : Fin 8) (h : Hart) : Core := { q with harts := q.harts.set k h, instret := q.instret + 1 }

@[simp] theorem counted_instret (q : Core) (k : Fin 8) (h : Hart) : (q.counted k h).instret = q.instret + 1 := rfl
@[simp] theorem counted_get (q : Core) (k : Fin 8) (h : Hart) : (q.counted k h).harts.get k = h := vec_get_set_self _ _ _
@[simp] theorem counted_setHart (q : Core) (k : Fin 8) (a b : Hart) : (q.setHart k a).counted k b = q.counted k b := by
  simp [Core.counted, Core.setHart, Vector.set]

/-- The core after its issuing hart retired. -/
theorem myCore_retireAt (p : BitVec 48) (s : State) :
    myCore (retireAt p s) = (myCore s).counted s.curSlot ((me s).retired p) := by
  simp only [retireAt, myCore_updMyCore, myCore_updMe]; rfl

@[simp] theorem me_retireAt (p : BitVec 48) (s : State) : me (retireAt p s) = (me s).retired p := by
  rw [me_eq, myCore_retireAt]; exact counted_get _ _ _

theorem kept_setHart (q : Core) (k : Fin 8) (h : Hart) : (q.setHart k h).kept = q.kept := rfl

/-- A state that differs from another in one hart and INSTRET only. -/
theorem restKept_counted (s : State) (h : Hart) : RestKept s (updMyCore s fun q => q.counted s.curSlot h) := by
  refine ⟨?_, ⟨?_, ?_⟩, fun a => rfl, rfl⟩
  · rw [myCore_updMyCore]; rfl
  · intro k hk
    simp only [hartAt, updMyCore, coreAt_updCore_self]
    exact vec_get_set_ne _ _ _ _ hk
  · intro c hc
    exact coreAt_updCore_ne _ _ _ _ hc

/-- Updating a core twice is updating it once. -/
theorem tabPut_tabPut {α : Type} (k : Nat) (a b : α) : ∀ t : Tab α, tabPut (tabPut t k a) k b = tabPut t k b
  | [] => by simp [tabPut]
  | (j, w) :: t => by
    by_cases h1 : k < j
    · simp [tabPut, h1]
    · by_cases h2 : k = j
      · subst h2; simp [tabPut]
      · simp [tabPut, h1, h2, tabPut_tabPut k a b t]

@[simp] theorem setCore_setCore (s : State) (c : Nat) (a b : Core) : setCore (setCore s c a) c b = setCore s c b := by
  simp [setCore, tabPut_tabPut]

@[simp] theorem updCore_updCore (s : State) (c : Nat) (f g : Core → Core) : updCore (updCore s c f) c g = updCore s c fun q => g (f q) := by
  rw [updCore, updCore, coreAt_setCore_self, setCore_setCore]; rfl

theorem retireAt_eq (p : BitVec 48) (s : State) : retireAt p s = updMyCore s fun q => q.counted s.curSlot ((me s).retired p) := by
  have : retireAt p s = updCore (updCore s s.curCore fun q => q.setHart s.curSlot ((me s).retired p)) s.curCore fun q => { q with instret := q.instret + 1 } := rfl
  rw [this, updCore_updCore]; rfl

/-- Everything the retirement of a hart changed by f does. -/
theorem retireAt_updMe (p : BitVec 48) (s : State) (f : Hart → Hart) :
    retireAt p (updMe s f) = updMyCore s fun q => q.counted s.curSlot ((f (me s)).retired p) := by
  have h1 : updMe s f = updCore s s.curCore fun q => q.setHart s.curSlot (f (me s)) := rfl
  rw [retireAt_eq, me_updMe, curSlot_updMe, updMyCore, curCore_updMe, h1, updCore_updCore]
  simp only [counted_setHart]
  rfl

theorem myCore_retireAt_updMe (p : BitVec 48) (s : State) (f : Hart → Hart) :
    myCore (retireAt p (updMe s f)) = (myCore s).counted s.curSlot ((f (me s)).retired p) := by
  rw [retireAt_updMe, myCore_updMyCore]

theorem restKept_retireAt_updMe (p : BitVec 48) (s : State) (f : Hart → Hart) : RestKept s (retireAt p (updMe s f)) := by
  rw [retireAt_updMe]; exact restKept_counted s _

theorem restKept_retireAt (p : BitVec 48) (s : State) : RestKept s (retireAt p s) := by
  rw [retireAt_eq]; exact restKept_counted s _

theorem goesOn_retireAt_updMe (p : BitVec 48) (s : State) (f : Hart → Hart) (h : (f (me s)).st = (me s).st) : GoesOn s (retireAt p (updMe s f)) p := by
  refine ⟨by simp, fun hr => ?_, ?_⟩
  · simp [Hart.retired, Hart.goOn, h, hr]
  · rw [myCore_retireAt_updMe, counted_instret]

theorem goesOn_retireAt (p : BitVec 48) (s : State) : GoesOn s (retireAt p s) p := by
  refine ⟨by simp, fun hr => ?_, ?_⟩
  · simp [Hart.retired, Hart.goOn, hr]
  · rw [myCore_retireAt, counted_instret]

theorem kept_setG (h : Hart) (d : BitVec 5) (v : BitVec 64) : (h.setG d v).kept = h.kept := by
  unfold Hart.setG; split <;> rfl

/-- Writing gd and retiring at p: the result, and that nothing else changes. -/
theorem results_of_next {i : Instr} {s : State} {d : BitVec 5} {v : BitVec 64} {p : BitVec 48}
    (h : exec i s = .next (retireAt p (setG s d v))) : Results i s d v p := by
  refine ⟨_, h, goesOn_retireAt_updMe p s _ (setG_st _ _ _), ⟨?_, ?_⟩, ?_, restKept_retireAt_updMe p s _⟩
  · simp only [gr, me_retireAt, gr_retired, setG, me_updMe, gr_setG, if_true]
  · intro r hr
    simp only [gr, me_retireAt, gr_retired, setG, me_updMe, gr_setG, if_neg hr]
  · simp only [me_retireAt, kept_retired, setG, me_updMe, kept_setG]

theorem gives_done4 {i : Instr} {s : State} {d : BitVec 5} {v : BitVec 64} (h : exec i s = .next (done4 d v s)) : Gives i s 4 d v := by
  refine results_of_next (h.trans (congrArg Host.Outcome.next ?_))
  show retireAt ((me (setG s d v)).pc + 4) _ = _
  simp [setG]

theorem gives_done2 {i : Instr} {s : State} {d : BitVec 5} {v : BitVec 64} (h : exec i s = .next (done2 d v s)) : Gives i s 2 d v := by
  refine results_of_next (h.trans (congrArg Host.Outcome.next ?_))
  show retireAt ((me (setG s d v)).pc + 2) _ = _
  simp [setG]

end Sys2Proof.Machine
end

