-- ==== Sys2Proof/Laws/Trap.lean ====
section
/-!
SUPPORT. What taking a trap does (R397), and the outcome of an instruction that traps (R398).
-/

namespace Sys2Proof.Machine

set_option Elab.async false

/-- The hart after the two steps of a trap. -/
theorem takeTrap_eq (c : Cause) (x : BitVec 64) (vec : Bool) (s : State) (h : freezing s s.curCore c = false) :
    takeTrap c x vec s = updMe s fun q => (q.record c x vec).vector := by
  have h1 : takeTrap c x vec s = updMe (updMe s fun q => q.record c x vec) Hart.vector := by
    unfold takeTrap; rw [h]; rfl
  have h2 : ∀ u : State, ∀ f g : Hart → Hart, updMe (updMe u f) g = updMe u fun q => g (f q) := by
    intro u f g
    have e : updMe (updMe u f) g = updCore (updCore u u.curCore fun q => q.setHart u.curSlot (f (me u))) u.curCore fun q =>
      q.setHart u.curSlot (g (me (updMe u f))) := rfl
    rw [e, updCore_updCore, me_updMe]
    simp only [setHart_setHart]
    rfl
  rw [h1, h2]

theorem restKept_updMe (s : State) (f : Hart → Hart) : RestKept s (updMe s f) := by
  refine ⟨by rw [myCore_updMe]; rfl, ⟨?_, ?_⟩, fun a => rfl, rfl⟩
  · intro k hk; exact hartAt_setHart_slot _ _ _ _ _ hk
  · intro c hc; exact coreAt_updCore_ne _ _ _ _ hc

theorem entered_takeTrap (c : Cause) (x : BitVec 64) (vec : Bool) (s : State) (h : freezing s s.curCore c = false) :
    Entered s (takeTrap c x vec s) c x vec := by
  rw [takeTrap_eq c x vec s h]
  refine ⟨?_, ?_, ?_, ?_, ?_, ?_, ?_, ?_⟩ <;> simp only [me_updMe, gr] <;>
    simp only [Hart.vector, Hart.record, Hart.goOn, Hart.gr, Hart.untrapped, Hart.sys]
  · rfl
  · have key : ∀ b v : Bool, ((if v then (4 : BitVec 64) else 0) ||| (if b then 3 else 0)) ||| 1 =
        1 ||| (if b then 2 else 0) ||| (if v then 4 else 0) := by decide
    exact key _ _
  · rfl
  · intro hr; simp [hr]
  · intro r; trivial
  · congr 1
    simp [BitVec.and_assoc]

/-- The outcome of an instruction whose parts trap. -/
theorem finish_trap (c : Cause) (x : BitVec 64) (s : State) (h : Settled s) :
    finish (.trap c x s) = .next (takeTrap c x false s) := by
  unfold finish
  by_cases hv : isVecHart s = true
  · simp [hv, h hv]
  · simp [hv]

theorem takesTrap_of {i : Instr} {s : State} {c : Cause} {x : BitVec 64} (h : exec i s = finish (.trap c x s)) : TakesTrap i s c x := by
  intro hs hf
  refine ⟨_, h.trans (finish_trap c x s hs), entered_takeTrap c x false s hf, ?_, ?_⟩
  · rw [takeTrap_eq c x false s hf, myCore_updMe]; rfl
  · rw [takeTrap_eq c x false s hf]; exact restKept_updMe s _

end Sys2Proof.Machine
end

