-- ==== Sys2Proof/Laws/Access.lean ====
section
/-!
SUPPORT. Reads at the home slices, and the translation of an access (R31, R35, R51): what they leave as it was; the checks of a load or
store.
-/

namespace Sys2Proof.Machine

set_option Elab.async false

/-! ## What reads at the home slices leave as it was -/

/-- Only range caches, cache ways, slices, error records, memory, pending interrupts and send allowances may differ. -/
structure Touched (s t : State) : Prop where
  cores : ∀ c, { coreAt t c with cw := [], rcache := [] } = { coreAt s c with cw := [], rcache := [] }
  cols : ∀ k, (colAt t k).still = (colAt s k).still
  fabric : { t.fabric with allow := [] } = { s.fabric with allow := [] }
  machine : { t with cores := s.cores, cols := s.cols, mem := s.mem, boot := s.boot, fabric := s.fabric } = s

namespace Touched

theorem refl (s : State) : Touched s s := ⟨fun _ => rfl, fun _ => rfl, rfl, rfl⟩

theorem trans {s t u : State} (h : Touched s t) (k : Touched t u) : Touched s u := by
  refine ⟨fun c => (k.cores c).trans (h.cores c), fun c => (k.cols c).trans (h.cols c), k.fabric.trans h.fabric, ?_⟩
  have h1 := h.machine
  have h2 := k.machine
  cases s; cases t; cases u
  simp only [State.mk.injEq] at h1 h2 ⊢
  simp_all

theorem core {s : State} (c : Nat) (f : Core → Core)
    (h : ∀ q, { f q with cw := [], rcache := [] } = { q with cw := [], rcache := [] }) : Touched s (updCore s c f) := by
  refine ⟨fun j => ?_, fun _ => rfl, rfl, rfl⟩
  by_cases hj : j = c
  · subst hj; rw [coreAt_updCore_self]; exact h _
  · rw [coreAt_updCore_ne _ _ _ _ hj]

theorem col {s : State} (k : Fin 8) (f : Column → Column) (h : ∀ c, (f c).still = c.still) : Touched s (updCol s k f) := by
  refine ⟨fun _ => rfl, fun j => ?_, rfl, rfl⟩
  by_cases hj : j = k
  · subst hj; rw [colAt_updCol_self]; exact h _
  · rw [colAt_updCol_ne _ _ _ _ hj]

theorem memory (s : State) (m : List Host.Cell) : Touched s { s with mem := m } := ⟨fun _ => rfl, fun _ => rfl, rfl, rfl⟩

theorem foldl {α : Type} (f : State → α → State) (h : ∀ s x, Touched s (f s x)) : ∀ (l : List α) (s : State), Touched s (l.foldl f s)
  | [], s => refl s
  | x :: l, s => (h s x).trans (foldl f h l (f s x))

end Touched

theorem touched_setHomeLine (s : State) (ln : Nat) (d : BitVec 512) : Touched s (setHomeLine s ln d) := .memory _ _

theorem touched_raiseInt (v : Nat) (s : State) : Touched s (raiseInt v s) := by
  unfold raiseInt sendMsix
  dsimp only
  split
  · exact .refl s
  · split <;> exact ⟨fun _ => rfl, fun _ => rfl, rfl, rfl⟩

theorem touched_logError (col : Fin 8) (src unit gpa : Nat) (s : State) : Touched s (logError col src unit gpa s) := by
  unfold logError
  dsimp only
  split
  · exact .col _ _ fun _ => rfl
  · refine Touched.trans ?_ (touched_raiseInt _ _)
    exact .col _ _ fun _ => rfl

theorem touched_countSoft (col : Fin 8) (s : State) : Touched s (countSoft col s) := .col _ _ fun _ => rfl
theorem touched_slicePut (col : Fin 8) (off : Nat) (w : Bool) (s : State) : Touched s (slicePut col off w s) := .col _ _ fun _ => rfl

theorem touched_sliceToDram (col : Fin 8) (ln : Nat) (s : State) : Touched s (sliceToDram col ln s) := by
  unfold sliceToDram
  dsimp only
  refine Touched.trans ?_ (.col _ _ fun _ => rfl)
  split
  · exact touched_countSoft _ _
  · exact .refl s

theorem touched_sliceOut (col : Fin 8) (k : Nat) (v : Nat × Bool) (s : State) : Touched s (sliceOut col k v s) := by
  unfold sliceOut
  refine Touched.trans ?_ (.col _ _ fun _ => rfl)
  split
  · exact touched_sliceToDram _ _ _
  · exact .refl s

theorem touched_homeWriteLine (col : Fin 8) (ln : Nat) (d : BitVec 512) (s : State) : Touched s (homeWriteLine col ln d s) := by
  refine ((touched_setHomeLine s ln d).trans ?_).trans (touched_slicePut _ _ _ _)
  exact .col _ _ fun _ => rfl

theorem touched_evictLine (c ln : Nat) (s : State) : Touched s (evictLine c ln s) := by
  unfold evictLine
  split
  · exact .refl s
  · dsimp only
    split
    · exact (touched_homeWriteLine _ _ _ _).trans (.core _ _ fun _ => rfl)
    · exact .core _ _ fun _ => rfl

theorem touched_collectAll (col : Fin 8) (ln : Nat) (s : State) : Touched s (collectAll col ln s) :=
  .foldl _ (fun _ _ => touched_evictLine _ _ _) _ _

theorem touched_sliceTouch (col : Fin 8) (off : Nat) (w : Bool) (s : State) : Touched s (sliceTouch col off w s) := by
  unfold sliceTouch
  dsimp only
  refine Touched.trans ?_ (touched_slicePut _ _ _ _)
  split
  · exact .refl s
  · split
    · exact touched_sliceOut _ _ _ _
    · exact (touched_collectAll _ _ _).trans (touched_sliceOut _ _ _ _)
    · exact .refl s

/-- What a read of a DRAM line at its home leaves as it was (R51). -/
theorem touched_homeRead (col : Fin 8) (off gpa : Nat) (w : Bool) (s : State) : Touched s (homeRead col off gpa w s).2 := by
  unfold homeRead
  dsimp only
  split
  · exact touched_logError _ _ _ _ _
  · split
    · exact touched_logError _ _ _ _ _
    · refine Touched.trans ?_ (touched_sliceTouch _ _ _ _)
      have soft (b : Bool) (f : Column → Column) (hf : ∀ c, (f c).still = c.still) :
          Touched s (if b then countSoft col (updCol s col f) else s) := by
        cases b
        · exact .refl s
        · exact Touched.trans (.col _ _ hf) (touched_countSoft _ _)
      cases (colAt s col).inSlice off
      · exact soft _ _ fun _ => rfl
      · exact soft _ _ fun _ => rfl

/-- What reads of lines at their homes leave as it was. -/
theorem touched_readLines (w : Bool) : ∀ (l : List Nat) (s : State), Touched s (readLines w l s)
  | [], s => .refl s
  | a :: l, s => by
    unfold readLines
    split
    · next col off _ =>
      have h := touched_homeRead col off a w s
      split
      · next u hu => rw [hu] at h; exact h.trans (touched_readLines w l u)
      · next u hu => rw [hu] at h; exact h
    · exact touched_readLines w l s

theorem touched_walkerReads (h va : Nat) (s : State) : Touched s (walkerReads h va s) := touched_readLines _ _ _

theorem touched_reach (c : Fin 8) (gpa n : Nat) (s : State) : Touched s (reach c gpa n s) := by
  unfold reach useAllowances
  split
  · split
    · exact ⟨fun _ => rfl, fun _ => rfl, rfl, rfl⟩
    · exact .refl s
  · exact .refl s

theorem touched_walkFrom {c : Fin 8} {h va : Nat} {s t : State} (e : walkFrom c h va s = some t) : Touched s t := by
  unfold walkFrom at e
  dsimp only at e
  split at e
  · cases e; exact (touched_walkerReads _ _ _).trans (touched_reach _ _ _ _)
  · cases e

/-- What a translation leaves as it was (R31, R35). -/
theorem touched_translate (s : State) (c : Nat) (sys : Bool) (rights : BitVec 5) (va : BitVec 64) :
    Touched s (translate s c sys rights va).2 := by
  unfold translate
  dsimp only
  split
  · exact .core (s := s) c (fun q => { q with rcache := _ }) fun _ => rfl
  · split
    · exact .refl s
    · next t ht =>
      have h := touched_walkFrom ht
      split
      · exact h
      · exact h
      · exact h
      · exact h.trans (Touched.core c (fun q => { q with rcache := _ }) fun _ => rfl)

/-! ## The machine after a translation -/

theorem translated_touched (s : State) (r : BitVec 5) (va : BitVec 64) : Touched s (translated s r va) := touched_translate _ _ _ _ _

@[simp] theorem translated_curCore (s : State) (r : BitVec 5) (va : BitVec 64) : (translated s r va).curCore = s.curCore :=
  (congrArg State.curCore (translated_touched s r va).machine :)
@[simp] theorem translated_curSlot (s : State) (r : BitVec 5) (va : BitVec 64) : (translated s r va).curSlot = s.curSlot :=
  (congrArg State.curSlot (translated_touched s r va).machine :)
@[simp] theorem translated_dev (s : State) (r : BitVec 5) (va : BitVec 64) : (translated s r va).fabric.dev = s.fabric.dev :=
  (congrArg Fabric.dev (translated_touched s r va).fabric :)
@[simp] theorem translated_net (s : State) (r : BitVec 5) (va : BitVec 64) : (translated s r va).net = s.net :=
  (congrArg State.net (translated_touched s r va).machine :)
@[simp] theorem translated_split (s : State) (r : BitVec 5) (va : BitVec 64) : (translated s r va).split = s.split :=
  (congrArg State.split (translated_touched s r va).machine :)

@[simp] theorem hartAt_translated (s : State) (r : BitVec 5) (va : BitVec 64) (c : Nat) (k : Fin 8) :
    hartAt (translated s r va) c k = hartAt s c k :=
  (congrArg (fun q : Core => q.harts.get k) ((translated_touched s r va).cores c) :)

/-- A part of a core that is no cache of its own reads as before. -/
theorem myCore_translated {α : Type} (f : Core → α) (hf : ∀ q, f q = f { q with cw := [], rcache := [] }) (s : State) (r : BitVec 5)
    (va : BitVec 64) : f (myCore (translated s r va)) = f (myCore s) := by
  unfold myCore
  rw [hf, translated_curCore, (translated_touched s r va).cores, ← hf]

@[simp] theorem me_translated (s : State) (r : BitVec 5) (va : BitVec 64) : me (translated s r va) = me s := by
  unfold me; rw [translated_curCore, translated_curSlot, hartAt_translated]
@[simp] theorem isSys_translated (s : State) (r : BitVec 5) (va : BitVec 64) : isSys (translated s r va) = isSys s := by
  unfold isSys; rw [me_translated]
@[simp] theorem gr_translated (s : State) (r : BitVec 5) (va : BitVec 64) (d : BitVec 5) : gr (translated s r va) d = gr s d := by
  unfold gr; rw [me_translated]
theorem targetOf_congr (s t : State) (h : t.fabric.dev = s.fabric.dev) (a : Nat) : targetOf t a = targetOf s a := by
  unfold targetOf; rw [h]
@[simp] theorem targetOf_translated (s : State) (r : BitVec 5) (va : BitVec 64) (a : Nat) :
    targetOf (translated s r va) a = targetOf s a := targetOf_congr _ _ (translated_dev _ _ _) _
@[simp] theorem isPrivReg_translated (s : State) (r : BitVec 5) (va : BitVec 64) (a : Nat) : isPrivReg (translated s r va) a = isPrivReg s a := by
  unfold isPrivReg regionOf; rw [targetOf_translated]
@[simp] theorem watchHit_translated (s : State) (r : BitVec 5) (va : BitVec 64) (c : Nat) (w : Bool) (x : Nat) :
    watchHit (translated s r va) c w x = watchHit s c w x := by
  have h := (translated_touched s r va).cores c
  unfold watchHit
  simp only [show (coreAt (translated s r va) c).dbpc = (coreAt s c).dbpc from (congrArg Core.dbpc h :),
    show (coreAt (translated s r va) c).dbpa = (coreAt s c).dbpa from (congrArg Core.dbpa h :)]
@[simp] theorem isVecHart_translated (s : State) (r : BitVec 5) (va : BitVec 64) : isVecHart (translated s r va) = isVecHart s := by
  unfold isVecHart; rw [translated_curSlot, myCore_translated Core.vec (fun _ => rfl)]
@[simp] theorem quiet_translated (s : State) (r : BitVec 5) (va : BitVec 64) : (myCore (translated s r va)).quiet = (myCore s).quiet :=
  myCore_translated Core.quiet (fun _ => rfl) s r va
@[simp] theorem wq_translated (s : State) (r : BitVec 5) (va : BitVec 64) : (myCore (translated s r va)).wq = (myCore s).wq :=
  myCore_translated Core.wq (fun _ => rfl) s r va
@[simp] theorem job_translated (s : State) (r : BitVec 5) (va : BitVec 64) : (myCore (translated s r va)).job = (myCore s).job :=
  myCore_translated Core.job (fun _ => rfl) s r va

/-- What an access that reaches its target comes to. -/
theorem reaches_spec {s : State} {rights : BitVec 5} {n : Nat} {rd wr : Bool} {va : BitVec 64} {g cls : Nat}
    (h : reaches s rights n rd wr va = some (g, cls)) :
    accessAt rights n va s = .ok (g, cls) (translated s rights va) ∧
      watchFor rd wr va (translated s rights va) = .ok () (translated s rights va) ∧ Settled s := by
  unfold reaches at h
  split at h
  · exact absurd h (by simp)
  · next h1 =>
    split at h
    · exact absurd h (by simp)
    · next h2 =>
      have hw : watchFor rd wr va (translated s rights va) = .ok () (translated s rights va) := by
        simp only [Bool.or_eq_true, Bool.and_eq_true, not_or, not_and, Bool.not_eq_true, Option.isSome_eq_false_iff, Option.isNone_iff_eq_none] at h2
        unfold watchFor
        cases rd <;> cases wr <;> simp [Res.andThen, watch, h2]
      refine ⟨?_, hw, ?_⟩
      · unfold accessAt xlate
        have h1' : ¬ (isVecHart s && !(myCore s).quiet) = true := fun e => h1 (by simp only [e, Bool.true_or])
        have h1'' : ¬ va.toNat % n ≠ 0 := fun e => h1 (by simp [e])
        rw [if_neg h1', if_neg h1'']
        generalize htr : translate s s.curCore (isSys s) rights va = r at h
        have ht : translated s rights va = r.2 := by unfold translated; rw [htr]
        obtain ⟨x, u⟩ := r
        simp only at ht
        subst ht
        cases x with
        | ok g' cls' d =>
          simp only at h ⊢
          split at h
          · exact absurd h (by simp)
          · next hp =>
            simp only [Option.some.injEq, Prod.mk.injEq] at h; obtain ⟨rfl, rfl⟩ := h
            simp [hp]
        | fault c => exact absurd h (by simp)
        | lock => exact absurd h (by simp)
        | header => exact absurd h (by simp)
      · intro hv
        by_contra hq
        exact h1 (by simp [hv, hq])

/-- One after the other. -/
theorem OthersKept.trans {s t u : State} (h : OthersKept s t) (k : OthersKept t u) (hc : t.curCore = s.curCore) (hk : t.curSlot = s.curSlot) :
    OthersKept s u := by
  refine ⟨fun j hj => ?_, fun c h' => ?_⟩
  · have := k.slots j (by rw [hk]; exact hj)
    rw [hc] at this; rw [this, h.slots j hj]
  · rw [k.cores c (by rw [hc]; exact h'), h.cores c h']

end Sys2Proof.Machine
end

