-- ==== Sys2Proof/Laws/Decode.lean ====
section
/-!
SUPPORT. Reading the fields of a packed word from the list it was packed from, and what a decoder of such fields gives for the bytes of
an encoded instruction.
-/

namespace Sys2Proof.Laws

set_option Elab.async false

theorem field_zero (lo len : Nat) : field lo len 0 = 0 := by simp [field]

theorem pack_lt : ∀ l : List (Nat × Nat), pack l < 2 ^ (l.map Prod.fst).sum
  | [] => by simp [pack]
  | (n, v) :: r => by
    have h := pack_lt r
    have hv : v % 2 ^ n < 2 ^ n := Nat.mod_lt _ (by positivity)
    simp only [pack, List.map_cons, List.sum_cons, Nat.pow_add]
    calc v % 2 ^ n + 2 ^ n * pack r < 2 ^ n + 2 ^ n * pack r := by omega
      _ = 2 ^ n * (pack r + 1) := by ring
      _ ≤ 2 ^ n * 2 ^ (r.map Prod.fst).sum := Nat.mul_le_mul_left _ h

theorem field_pack_head (n v : Nat) (r : List (Nat × Nat)) : field 0 n (pack ((n, v) :: r)) = v % 2 ^ n := by
  simp [field, pack, Nat.add_mod]

theorem field_pack_skip (n v lo len : Nat) (r : List (Nat × Nat)) (h : n ≤ lo) :
    field lo len (pack ((n, v) :: r)) = field (lo - n) len (pack r) := by
  have hv : v % 2 ^ n < 2 ^ n := Nat.mod_lt _ (by positivity)
  have hp : (2 : Nat) ^ lo = 2 ^ n * 2 ^ (lo - n) := by rw [← Nat.pow_add]; congr 1; omega
  simp only [field, pack]
  rw [hp, ← Nat.div_div_eq_div_mul, Nat.add_mul_div_left _ _ (by positivity : 0 < 2 ^ n), Nat.div_eq_of_lt hv, Nat.zero_add]

/-- A field of a packed word, found in the list where it stands there as a whole. -/
def lookupField : List (Nat × Nat) → Fields
  | [], _, _ => 0
  | (n, v) :: r, lo, len =>
    if lo = 0 ∧ len = n then v % 2 ^ n
    else if n ≤ lo then lookupField r (lo - n) len
    else field lo len (pack ((n, v) :: r))

theorem lookupField_eq : ∀ (l : List (Nat × Nat)) (lo len : Nat), lookupField l lo len = field lo len (pack l)
  | [], lo, len => (field_zero lo len).symm
  | (n, v) :: r, lo, len => by
    unfold lookupField
    split
    · next h => obtain ⟨rfl, rfl⟩ := h; exact (field_pack_head _ _ _).symm
    · split
      · next h => rw [lookupField_eq r, field_pack_skip _ _ _ _ _ h]
      · rfl

theorem fieldsOf_pack (l : List (Nat × Nat)) : fieldsOf (pack l) = lookupField l := by
  funext lo len; exact (lookupField_eq l lo len).symm

/-- A bit vector read back from its number: what a decoder finds in an encoder's field. -/
def readBack {n : Nat} (x : BitVec n) : BitVec n := BitVec.ofNat n (x.toNat % 2 ^ n)

theorem readBack_eq {n : Nat} (x : BitVec n) : readBack x = x := by
  simp [readBack]

theorem halfword_of_bytes (w : Nat) (h : w < 65536) :
    (BitVec.ofNat 8 w).toNat + 256 * (BitVec.ofNat 8 (w / 256)).toNat = w := by
  simp only [BitVec.toNat_ofNat]; omega

theorem word_of_bytes (w : Nat) (h : w < 4294967296) :
    (BitVec.ofNat 8 w).toNat + 256 * (BitVec.ofNat 8 (w / 256)).toNat + 65536 * (BitVec.ofNat 8 (w / 256 / 256)).toNat +
      16777216 * (BitVec.ofNat 8 (w / 256 / 256 / 256)).toNat = w := by
  simp only [BitVec.toNat_ofNat]; omega

theorem low_halfword_odd (w : Nat) (h : w % 2 = 1) :
    field 0 1 ((BitVec.ofNat 8 w).toNat + 256 * (BitVec.ofNat 8 (w / 256)).toNat) = 1 := by
  simp only [field, BitVec.toNat_ofNat]; omega

/-- Two bytes of an even halfword decode as its 16-bit instruction. -/
theorem decode_two_bytes (w : Nat) (i : Instr) (hlt : w < 65536) (hev : field 0 1 w = 0) (hd : decodeWord16 (fieldsOf w) = some i) :
    decode (leBytes 2 w) = .ok (i, 2) := by
  simp only [leBytes, decode, halfword_of_bytes w hlt, hev, if_true, decode16, hd]

/-- Four bytes of an odd word decode as its 32-bit instruction, when that is well formed. -/
theorem decode_four_bytes (w : Nat) (i : Instr) (hlt : w < 4294967296) (hodd : field 0 1 w = 1)
    (hd : decodeWord32 (fieldsOf w) = some i) (hw : i.wf = true) : decode (leBytes 4 w) = .ok (i, 4) := by
  have h2 : w % 2 = 1 := by simpa [field] using hodd
  simp only [leBytes, decode, low_halfword_odd w h2, word_of_bytes w hlt, decode32, hd, hw]
  rfl

/-- The bytes of an encoded 16-bit instruction decode to it, when its fields do. -/
theorem decode_encode16 (i : Instr) (hb : encodeBits i = 16) (h0 : lookupField (encodeFields i) 0 1 = 0)
    (hd : decodeWord16 (lookupField (encodeFields i)) = some i) : decode (encode i) = .ok (i, encodeBits i / 8) := by
  have hlt := pack_lt (encodeFields i)
  rw [show ((encodeFields i).map Prod.fst).sum = 16 from hb] at hlt
  rw [encode, hb]
  exact decode_two_bytes _ _ hlt (by rw [encodeWord, ← lookupField_eq]; exact h0) (by rw [encodeWord, fieldsOf_pack]; exact hd)

/-- The bytes of an encoded, well-formed 32-bit instruction decode to it, when its fields do. -/
theorem decode_encode32 (i : Instr) (hb : encodeBits i = 32) (h0 : lookupField (encodeFields i) 0 1 = 1)
    (hd : decodeWord32 (lookupField (encodeFields i)) = some i) (hw : i.wf = true) : decode (encode i) = .ok (i, encodeBits i / 8) := by
  have hlt := pack_lt (encodeFields i)
  rw [show ((encodeFields i).map Prod.fst).sum = 32 from hb] at hlt
  rw [encode, hb]
  exact decode_four_bytes _ _ hlt (by rw [encodeWord, ← lookupField_eq]; exact h0) (by rw [encodeWord, fieldsOf_pack]; exact hd) hw

end Sys2Proof.Laws
end

