-- ==== Sys2Proof/Laws/Fabric.lean ====
section
/-! SUPPORT. What the control flits, the forwarding entries and the header of a range directory can do, said once: the lemmas that a proof cites in
place of unfolding them. -/

namespace Sys2Proof.Machine

/-! ## Control flits (R428, R459, R460) -/

@[simp] theorem sendFlits_sent (l : List (Nat × Flit)) (s : State) : (sendFlits l s).fabric.sent = l.reverse ++ s.fabric.sent := rfl
@[simp] theorem sendFlits_cores (l : List (Nat × Flit)) (s : State) : (sendFlits l s).cores = s.cores := rfl
@[simp] theorem sendFlits_cols (l : List (Nat × Flit)) (s : State) : (sendFlits l s).cols = s.cols := rfl
@[simp] theorem sendFlits_mem (l : List (Nat × Flit)) (s : State) : (sendFlits l s).mem = s.mem := rfl
@[simp] theorem sendFlits_net (l : List (Nat × Flit)) (s : State) : (sendFlits l s).net = s.net := rfl
@[simp] theorem sendFlits_dist (l : List (Nat × Flit)) (s : State) : (sendFlits l s).dist = s.dist := rfl
@[simp] theorem sendFlits_night (l : List (Nat × Flit)) (s : State) : (sendFlits l s).night = s.night := rfl
@[simp] theorem sendFlits_boot (l : List (Nat × Flit)) (s : State) : (sendFlits l s).boot = s.boot := rfl
@[simp] theorem sendFlits_tflstat (l : List (Nat × Flit)) (s : State) : (sendFlits l s).fabric.tflstat = s.fabric.tflstat := rfl

/-- Sending no flit changes nothing. -/
@[simp] theorem sendFlits_nil (s : State) : sendFlits [] s = s := rfl

/-- A Nightfall flit leaves exactly the ports that pass one, but for the one it came by. -/
theorem mem_sendNight_sent (job key : BitVec 32) (cause : BitVec 8) (from' : Option Nat) (s : State) (x : Nat × Flit) :
    x ∈ (sendNight job key cause from' s).fabric.sent ↔
      (∃ p < 16, portNight s p = true ∧ some p ≠ from' ∧ x = (p, .night job key cause)) ∨ x ∈ s.fabric.sent := by
  simp only [sendNight, sendFlits_sent, List.mem_append, List.mem_reverse, List.mem_map, List.mem_filter, List.mem_range]
  refine or_congr ⟨?_, ?_⟩ Iff.rfl
  · rintro ⟨p, ⟨hp, hf⟩, rfl⟩
    simp only [Bool.and_eq_true, bne_iff_ne] at hf
    exact ⟨p, hp, hf.1, hf.2, rfl⟩
  · rintro ⟨p, hp, hn, hf, rfl⟩
    exact ⟨p, ⟨hp, by simp [hn, hf]⟩, rfl⟩

/-! ## Forwarding entries (R419) -/

/-- A core whose column has no entry for it answers for its own banks. -/
theorem bankCore_none (s : State) (job : BitVec 32) (c : Nat)
    (h : (colAt s (colOf c)).fwd.find? (fun f => f.job == job && f.src == idxOf c) = none) : bankCore s job c = c := by
  simp [bankCore, forwarded, h]

/-! ## The header of a range directory (R2, R29) -/

/-- A header that R2 calls invalid names no descriptor. -/
theorem dirCount_of_bad {s : State} {h : Nat} (hb : dirHeaderOk s h = false) : dirCount s h = 0 := by simp [dirCount, hb]
/-- It is under no edit. -/
theorem dirEdit_of_bad {s : State} {h : Nat} (hb : dirHeaderOk s h = false) : dirEdit s h = false := by simp [dirEdit, hb]
/-- A directory has at most 65,536 descriptors. -/
theorem dirCount_le (s : State) (h : Nat) : dirCount s h ≤ 65536 := by
  unfold dirCount
  split
  · rename_i hb
    simp only [dirHeaderOk, Bool.and_eq_true, decide_eq_true_eq] at hb
    exact hb.1.1
  · exact Nat.zero_le _

end Sys2Proof.Machine
end

