-- ==== Sys2Proof/Laws/Memory.lean ====
section
/-!
SUPPORT. The byte memory: reading after writing, and the canonical form kept by every operation on it.
-/

namespace Sys2Proof.Machine

set_option Elab.async false

/-! ## Reading after writing -/

theorem memGet_memCons (k i : Nat) (v : Byte) (t : List Host.Cell) (h : v = 0 → memGet t k = 0) :
    memGet (memCons k v t) i = if i = k then v else memGet t i := by
  unfold memCons
  by_cases hv : v = 0
  · rw [if_pos hv]
    by_cases hi : i = k
    · rw [if_pos hi, hi, h hv, hv]
    · rw [if_neg hi]
  · rw [if_neg hv, memGet]
    by_cases hi : i = k
    · rw [if_pos hi.symm, if_pos hi]
    · rw [if_neg (Ne.symm hi), if_neg hi]

theorem memAbove_lt (l : Nat) : ∀ (t : List Host.Cell) (k : Nat), memAbove (some l) t = true → k ≤ l → memGet t k = 0
  | [], _, _, _ => rfl
  | (j, v) :: t, k, h, hk => by
    simp only [memAbove, Bool.and_eq_true, decide_eq_true_eq] at h
    have hj : ¬ j = k := by omega
    simp only [memGet, if_neg hj]
    exact memAbove_lt j t k h.2 (by omega)

/-- A tail with a higher lower bound is above the lower one too. -/
theorem memAbove_mono {l m : Nat} (h : l ≤ m) : ∀ t : List Host.Cell, memAbove (some m) t = true → memAbove (some l) t = true
  | [], _ => rfl
  | (j, v) :: t, ht => by
    simp only [memAbove, Bool.and_eq_true, decide_eq_true_eq] at ht ⊢
    exact ⟨⟨by omega, ht.1.2⟩, ht.2⟩

/-- Any list above some address is in the canonical form. -/
theorem wf_of_above {l : Nat} : ∀ t : List Host.Cell, memAbove (some l) t = true → Memory.wf t = true
  | [], _ => rfl
  | (j, v) :: t, h => by
    simp only [Memory.wf, memAbove, Bool.and_eq_true, decide_eq_true_eq, Bool.true_and] at h ⊢
    exact ⟨h.1.2, h.2⟩

theorem memAbove_cons {k : Nat} {v : Byte} {o : Option Nat} {t : List Host.Cell} (ho : ∀ l, o = some l → l < k) (hv : v ≠ 0)
    (h : memAbove (some k) t = true) : memAbove o ((k, v) :: t) = true := by
  simp only [memAbove, Bool.and_eq_true]
  refine ⟨⟨?_, by simpa using hv⟩, h⟩
  cases o with
  | none => rfl
  | some l => simpa using ho l rfl

theorem memAbove_put (k : Nat) (v : Byte) : ∀ (o : Option Nat) (t : List Host.Cell), (∀ l, o = some l → l < k) →
    memAbove o t = true → memAbove o (memPut t k v) = true
  | o, [], ho, _ => by
    unfold memPut memCons
    split
    · rfl
    · next hv => exact memAbove_cons ho hv rfl
  | o, (j, w) :: t, ho, h => by
    simp only [memAbove, Bool.and_eq_true] at h
    obtain ⟨⟨h1, h2⟩, h3⟩ := h
    simp only [memPut]
    split
    · next hk =>
      by_cases hv : v = 0
      · simp only [memCons, if_pos hv, memAbove, Bool.and_eq_true]; exact ⟨⟨h1, h2⟩, h3⟩
      · rw [memCons, if_neg hv]
        refine memAbove_cons ho hv ?_
        simp only [memAbove, Bool.and_eq_true, decide_eq_true_eq]
        exact ⟨⟨hk, h2⟩, h3⟩
    · split
      · next hkj =>
        subst hkj
        by_cases hv : v = 0
        · simp only [memCons, if_pos hv]
          cases o with
          | none => exact wf_of_above t h3
          | some l => exact memAbove_mono (Nat.le_of_lt (ho l rfl)) t h3
        · rw [memCons, if_neg hv]
          exact memAbove_cons ho hv h3
      · next hk hkj =>
        simp only [memAbove, Bool.and_eq_true]
        exact ⟨⟨h1, h2⟩, memAbove_put k v (some j) t (fun l hl => by cases hl; omega) h3⟩

/-- Writing one byte keeps the canonical form. -/
theorem wf_memPut (m : List Host.Cell) (k : Nat) (v : Byte) (h : Memory.wf m = true) : Memory.wf (memPut m k v) = true :=
  memAbove_put k v none m (fun _ h => by cases h) h

theorem memGet_memPut_above (k i : Nat) (v : Byte) : ∀ (o : Option Nat) (t : List Host.Cell), memAbove o t = true →
    memGet (memPut t k v) i = if i = k then v else memGet t i
  | o, [], _ => memGet_memCons k i v [] fun _ => rfl
  | o, (j, w) :: t, h => by
    simp only [memAbove, Bool.and_eq_true] at h
    obtain ⟨_, h3⟩ := h
    simp only [memPut]
    split
    · next hk =>
      refine memGet_memCons k i v _ fun _ => ?_
      have : ¬ j = k := by omega
      simp only [memGet, if_neg this]
      exact memAbove_lt j t k h3 (by omega)
    · split
      · next hkj =>
        subst hkj
        rw [memGet_memCons k i v t fun _ => memAbove_lt k t k h3 (Nat.le_refl _)]
        by_cases hi : i = k
        · simp [hi]
        · simp [hi, memGet, Ne.symm hi]
      · next hk hkj =>
        by_cases hj : j = i
        · subst hj
          have : ¬ j = k := fun e => hkj e.symm
          simp [memGet, this]
        · simp only [memGet, if_neg hj, memGet_memPut_above k i v (some j) t h3]

/-- Reading a byte after writing one (canonical memory). -/
theorem memGet_memPut (m : List Host.Cell) (k i : Nat) (v : Byte) (h : Memory.wf m = true) :
    memGet (memPut m k v) i = if i = k then v else memGet m i := memGet_memPut_above k i v none m h

/-- Writing n bytes keeps the canonical form. -/
theorem wf_memWrite : ∀ (n : Nat) (m : List Host.Cell) (a x : Nat), Memory.wf m = true → Memory.wf (memWrite m a n x) = true
  | 0, _, _, _, h => h
  | n + 1, m, a, x, h => wf_memWrite n _ _ _ (wf_memPut m a _ h)

/-- A byte outside the bytes written reads as before. -/
theorem memGet_memWrite_outside : ∀ (n : Nat) (m : List Host.Cell) (a x i : Nat), Memory.wf m = true → i < a ∨ a + n ≤ i →
    memGet (memWrite m a n x) i = memGet m i
  | 0, _, _, _, _, _, _ => rfl
  | n + 1, m, a, x, i, h, hi => by
    rw [memWrite, memGet_memWrite_outside n _ _ _ _ (wf_memPut m a _ h) (by omega), memGet_memPut _ _ _ _ h,
      if_neg (by omega)]

/-- Byte k of the bytes written is byte k of the number. -/
theorem memGet_memWrite_inside : ∀ (n : Nat) (m : List Host.Cell) (a x k : Nat), Memory.wf m = true → k < n →
    memGet (memWrite m a n x) (a + k) = BitVec.ofNat 8 (x / 256 ^ k)
  | 0, _, _, _, _, _, hk => absurd hk (Nat.not_lt_zero _)
  | n + 1, m, a, x, k, h, hk => by
    rw [memWrite]
    cases k with
    | zero =>
      rw [memGet_memWrite_outside n _ _ _ _ (wf_memPut m a _ h) (by omega), memGet_memPut _ _ _ _ h]
      simp
    | succ k =>
      have e : a + (k + 1) = a + 1 + k := by omega
      rw [e, memGet_memWrite_inside n _ _ _ k (wf_memPut m a _ h) (by omega), Nat.div_div_eq_div_mul, Nat.pow_succ']

/-- The bytes read back from where a number was written, when it fits. -/
theorem memRead_memWrite : ∀ (n : Nat) (m : List Host.Cell) (a x : Nat), Memory.wf m = true →
    memRead (memWrite m a n x) a n = x % 256 ^ n
  | 0, _, _, x, _ => by simp [memRead, Nat.mod_one]
  | n + 1, m, a, x, h => by
    have h0 : memGet (memWrite m a (n + 1) x) a = BitVec.ofNat 8 x := by
      simpa using memGet_memWrite_inside (n + 1) m a x 0 h (Nat.succ_pos n)
    rw [memRead, h0, memWrite, memRead_memWrite n _ _ _ (wf_memPut m a _ h), BitVec.toNat_ofNat]
    rw [show (2 : Nat) ^ 8 = 256 from rfl, Nat.pow_succ 256 n, Nat.mul_comm (256 ^ n), ← Nat.mod_mul]

/-- A read of n bytes depends on those bytes alone. -/
theorem memRead_congr : ∀ (n : Nat) (m l : List Host.Cell) (a : Nat), (∀ k, k < n → memGet m (a + k) = memGet l (a + k)) →
    memRead m a n = memRead l a n
  | 0, _, _, _, _ => rfl
  | n + 1, m, l, a, h => by
    have h0 := h 0 (Nat.succ_pos n)
    rw [memRead, memRead, memRead_congr n m l (a + 1) fun k hk => by
      have := h (k + 1) (by omega)
      rwa [show a + (k + 1) = a + 1 + k by omega] at this]
    rw [Nat.add_zero] at h0
    rw [h0]

/-- Writing a list of bytes keeps the canonical form. -/
theorem wf_memBytes : ∀ (bs : List Byte) (m : List Host.Cell) (a : Nat), Memory.wf m = true → Memory.wf (memBytes m a bs) = true
  | [], _, _, h => h
  | b :: bs, m, a, h => wf_memBytes bs _ _ (wf_memPut m a b h)

theorem memAbove_filter (p : Host.Cell → Bool) : ∀ (o : Option Nat) (t : List Host.Cell), memAbove o t = true →
    memAbove o (t.filter p) = true
  | _, [], _ => rfl
  | o, (j, v) :: t, h => by
    simp only [memAbove, Bool.and_eq_true] at h
    obtain ⟨⟨h1, h2⟩, h3⟩ := h
    by_cases hp : p (j, v) = true
    · simp only [List.filter_cons_of_pos hp, memAbove, Bool.and_eq_true]
      exact ⟨⟨h1, h2⟩, memAbove_filter p _ t h3⟩
    · rw [List.filter_cons_of_neg hp]
      refine memAbove_filter p o t ?_
      cases o with
      | none => exact wf_of_above t h3
      | some l => exact memAbove_mono (Nat.le_of_lt (by simpa using h1)) t h3

/-- Leaving out cells keeps the canonical form. -/
theorem wf_filter (p : Host.Cell → Bool) (m : List Host.Cell) (h : Memory.wf m = true) : Memory.wf (m.filter p) = true :=
  memAbove_filter p none m h

/-- Clearing a span keeps the canonical form. -/
theorem wf_memClear (m : List Host.Cell) (lo hi : Nat) (h : Memory.wf m = true) : Memory.wf (memClear m lo hi) = true :=
  wf_filter _ m h

theorem memGet_filter (p : Nat → Bool) (i : Nat) : ∀ t : List Host.Cell,
    memGet (t.filter fun e => p e.1) i = if p i then memGet t i else 0
  | [] => by simp [memGet]
  | (j, v) :: t => by
    by_cases hj : j = i
    · subst hj
      by_cases hp : p j = true
      · simp [hp, memGet]
      · simp only [List.filter_cons, if_neg hp, memGet_filter p j t]
    · by_cases hp : p j = true
      · simp [hp, memGet, hj, memGet_filter p i t]
      · simp [hp, memGet, hj, memGet_filter p i t]

/-- A cleared span reads zero, every other byte as before. -/
theorem memGet_memClear (m : List Host.Cell) (lo hi i : Nat) :
    memGet (memClear m lo hi) i = if i < lo ∨ hi ≤ i then memGet m i else 0 := by
  have h := memGet_filter (fun a => decide (a < lo) || decide (hi ≤ a)) i m
  simpa [memClear] using h

end Sys2Proof.Machine
end

