-- ==== Sys2Proof/Laws/PerInstr.lean ====
section
/-!
SUPPORT. What holds of every instruction as syntax, constructor by constructor: decoding the encoding of a well-formed instruction gives it
back (R216, R218, R220 to R230).  An event has no encoding.
-/

namespace Sys2Proof.Laws

set_option Elab.async false

/-- Decoding gives back an encoded, well-formed instruction and its length. -/
def RoundTrip.Statement (i : Instr) : Prop := i.wf = true → encodeBits i ≠ 0 → decode (encode i) = .ok (i, encodeBits i / 8)

theorem RoundTrip.coldReset : RoundTrip.Statement (.coldReset) := fun _ h => absurd rfl h

theorem RoundTrip.warmReset (cols_ : BitVec 8) : RoundTrip.Statement (.warmReset cols_) := fun _ h => absurd rfl h

theorem RoundTrip.boot : RoundTrip.Statement (.boot) := fun _ h => absurd rfl h

theorem RoundTrip.bootTimeout : RoundTrip.Statement (.bootTimeout) := fun _ h => absurd rfl h

theorem RoundTrip.bootctlOk : RoundTrip.Statement (.bootctlOk) := fun _ h => absurd rfl h

theorem RoundTrip.attest : RoundTrip.Statement (.attest) := fun _ h => absurd rfl h

theorem RoundTrip.mbxReset : RoundTrip.Statement (.mbxReset) := fun _ h => absurd rfl h

theorem RoundTrip.nightreg : RoundTrip.Statement (.nightreg) := fun _ h => absurd rfl h

theorem RoundTrip.update : RoundTrip.Statement (.update) := fun _ h => absurd rfl h

theorem RoundTrip.commit (col_ : Nat) : RoundTrip.Statement (.commit col_) := fun _ h => absurd rfl h

theorem RoundTrip.layerctlReq (col_ : Nat) (on_ : Bool) : RoundTrip.Statement (.layerctlReq col_ on_) := fun _ h => absurd rfl h

theorem RoundTrip.layerPowerOff (col_ : Nat) : RoundTrip.Statement (.layerPowerOff col_) := fun _ h => absurd rfl h

theorem RoundTrip.layerPowerOn (col_ : Nat) : RoundTrip.Statement (.layerPowerOn col_) := fun _ h => absurd rfl h

theorem RoundTrip.tempReading (col_ : Nat) (raw_ : List (BitVec 16)) (watts_ : BitVec 16) : RoundTrip.Statement (.tempReading col_ raw_ watts_) := fun _ h => absurd rfl h

theorem RoundTrip.tripClear (col_ : Nat) : RoundTrip.Statement (.tripClear col_) := fun _ h => absurd rfl h

theorem RoundTrip.patrolScrub (col_ : Nat) (line_ : Nat) : RoundTrip.Statement (.patrolScrub col_ line_) := fun _ h => absurd rfl h

theorem RoundTrip.cecntRead (col_ : Nat) : RoundTrip.Statement (.cecntRead col_) := fun _ h => absurd rfl h

theorem RoundTrip.cebytesRead (col_ : Nat) (e_ : Nat) : RoundTrip.Statement (.cebytesRead col_ e_) := fun _ h => absurd rfl h

theorem RoundTrip.cereqsRead (col_ : Nat) (e_ : Nat) : RoundTrip.Statement (.cereqsRead col_ e_) := fun _ h => absurd rfl h

theorem RoundTrip.clelemsRead (col_ : Nat) (k_ : Nat) : RoundTrip.Statement (.clelemsRead col_ k_) := fun _ h => absurd rfl h

theorem RoundTrip.czinRead (col_ : Nat) (z_ : Nat) : RoundTrip.Statement (.czinRead col_ z_) := fun _ h => absurd rfl h

theorem RoundTrip.czoutRead (col_ : Nat) (z_ : Nat) : RoundTrip.Statement (.czoutRead col_ z_) := fun _ h => absurd rfl h

theorem RoundTrip.registerWrite (bar_ : BitVec 3) (off_ : Nat) (a_ : BarAccess) : RoundTrip.Statement (.registerWrite bar_ off_ a_) := fun _ h => absurd rfl h

theorem RoundTrip.privilegedViewWrite (core_ : Nat) (slot_ : BitVec 3) (n_ : BitVec 12) (v_ : BitVec 64) : RoundTrip.Statement (.privilegedViewWrite core_ slot_ n_ v_) := fun _ h => absurd rfl h

theorem RoundTrip.mstatWrite (core_ : Nat) (slot_ : BitVec 3) (v_ : BitVec 64) : RoundTrip.Statement (.mstatWrite core_ slot_ v_) := fun _ h => absurd rfl h

theorem RoundTrip.writeQueueDrain (core_ : Nat) : RoundTrip.Statement (.writeQueueDrain core_) := fun _ h => absurd rfl h

theorem RoundTrip.switchHop (id_ : Nat) : RoundTrip.Statement (.switchHop id_) := fun _ h => absurd rfl h

theorem RoundTrip.replyEntryExpiry (k_ : Nat) : RoundTrip.Statement (.replyEntryExpiry k_) := fun _ h => absurd rfl h

theorem RoundTrip.replyHop (id_ : Nat) : RoundTrip.Statement (.replyHop id_) := fun _ h => absurd rfl h

theorem RoundTrip.sliceRequest (col_ : Nat) (slice_ : Nat) : RoundTrip.Statement (.sliceRequest col_ slice_) := fun _ h => absurd rfl h

theorem RoundTrip.bankAccess (core_ : Nat) (way_ : Nat) : RoundTrip.Statement (.bankAccess core_ way_) := fun _ h => absurd rfl h

theorem RoundTrip.timedRetry (core_ : Nat) (slot_ : BitVec 3) : RoundTrip.Statement (.timedRetry core_ slot_) := fun _ h => absurd rfl h

theorem RoundTrip.acknowledgement (id_ : Nat) : RoundTrip.Statement (.acknowledgement id_) := fun _ h => absurd rfl h

theorem RoundTrip.probe (id_ : Nat) : RoundTrip.Statement (.probe id_) := fun _ h => absurd rfl h

theorem RoundTrip.echo (id_ : Nat) : RoundTrip.Statement (.echo id_) := fun _ h => absurd rfl h

theorem RoundTrip.route (id_ : Nat) : RoundTrip.Statement (.route id_) := fun _ h => absurd rfl h

theorem RoundTrip.transientRead (id_ : Nat) : RoundTrip.Statement (.transientRead id_) := fun _ h => absurd rfl h

theorem RoundTrip.transientWrite (id_ : Nat) : RoundTrip.Statement (.transientWrite id_) := fun _ h => absurd rfl h

theorem RoundTrip.eviction (core_ : Nat) (line_ : Nat) : RoundTrip.Statement (.eviction core_ line_) := fun _ h => absurd rfl h

theorem RoundTrip.transientFailure (id_ : Nat) : RoundTrip.Statement (.transientFailure id_) := fun _ h => absurd rfl h

theorem RoundTrip.persistentRequest (id_ : Nat) : RoundTrip.Statement (.persistentRequest id_) := fun _ h => absurd rfl h

theorem RoundTrip.deactivation (id_ : Nat) : RoundTrip.Statement (.deactivation id_) := fun _ h => absurd rfl h

theorem RoundTrip.countdownExpiry (core_ : Nat) (slot_ : BitVec 3) (dest_ : Nat) : RoundTrip.Statement (.countdownExpiry core_ slot_ dest_) := fun _ h => absurd rfl h

theorem RoundTrip.rangeSearch (core_ : Nat) (slot_ : BitVec 3) (va_ : BitVec 64) : RoundTrip.Statement (.rangeSearch core_ slot_ va_) := fun _ h => absurd rfl h

theorem RoundTrip.headerReread (core_ : Nat) (slot_ : BitVec 3) : RoundTrip.Statement (.headerReread core_ slot_) := fun _ h => absurd rfl h

theorem RoundTrip.editRetry (core_ : Nat) (slot_ : BitVec 3) : RoundTrip.Statement (.editRetry core_ slot_) := fun _ h => absurd rfl h

theorem RoundTrip.lockRetry (core_ : Nat) (slot_ : BitVec 3) : RoundTrip.Statement (.lockRetry core_ slot_) := fun _ h => absurd rfl h

theorem RoundTrip.dropRequest (id_ : Nat) (core_ : Nat) : RoundTrip.Statement (.dropRequest id_ core_) := fun _ h => absurd rfl h

theorem RoundTrip.engineDrop (id_ : Nat) (col_ : Nat) : RoundTrip.Statement (.engineDrop id_ col_) := fun _ h => absurd rfl h

theorem RoundTrip.dropAcknowledgement (id_ : Nat) : RoundTrip.Statement (.dropAcknowledgement id_) := fun _ h => absurd rfl h

theorem RoundTrip.drop (core_ : Nat) : RoundTrip.Statement (.drop core_) := fun _ h => absurd rfl h

theorem RoundTrip.move (col_ : Nat) : RoundTrip.Statement (.move col_) := fun _ h => absurd rfl h

theorem RoundTrip.ddrop (core_ : Nat) : RoundTrip.Statement (.ddrop core_) := fun _ h => absurd rfl h

theorem RoundTrip.idrop (core_ : Nat) : RoundTrip.Statement (.idrop core_) := fun _ h => absurd rfl h

theorem RoundTrip.walkerPiece (col_ : Nat) : RoundTrip.Statement (.walkerPiece col_) := fun _ h => absurd rfl h

theorem RoundTrip.requestBegins (col_ : Nat) (e_ : Nat) : RoundTrip.Statement (.requestBegins col_ e_) := fun _ h => absurd rfl h

theorem RoundTrip.batch (col_ : Nat) (e_ : Nat) : RoundTrip.Statement (.batch col_ e_) := fun _ h => absurd rfl h

theorem RoundTrip.requestComplete (col_ : Nat) (e_ : Nat) : RoundTrip.Statement (.requestComplete col_ e_) := fun _ h => absurd rfl h

theorem RoundTrip.contribution (col_ : Nat) (k_ : Nat) : RoundTrip.Statement (.contribution col_ k_) := fun _ h => absurd rfl h

theorem RoundTrip.initialise (id_ : Nat) : RoundTrip.Statement (.initialise id_) := fun _ h => absurd rfl h

theorem RoundTrip.credit (id_ : Nat) : RoundTrip.Statement (.credit id_) := fun _ h => absurd rfl h

theorem RoundTrip.arrive (id_ : Nat) : RoundTrip.Statement (.arrive id_) := fun _ h => absurd rfl h

theorem RoundTrip.errorArrive (id_ : Nat) : RoundTrip.Statement (.errorArrive id_) := fun _ h => absurd rfl h

theorem RoundTrip.query (id_ : Nat) : RoundTrip.Statement (.query id_) := fun _ h => absurd rfl h

theorem RoundTrip.wireCompletion (col_ : Nat) (wire_ : BitVec 2) (k_ : Nat) : RoundTrip.Statement (.wireCompletion col_ wire_ k_) := fun _ h => absurd rfl h

theorem RoundTrip.barwTimeout (core_ : Nat) (slot_ : BitVec 3) : RoundTrip.Statement (.barwTimeout core_ slot_) := fun _ h => absurd rfl h

theorem RoundTrip.parkTimeout (core_ : Nat) (slot_ : BitVec 3) : RoundTrip.Statement (.parkTimeout core_ slot_) := fun _ h => absurd rfl h

theorem RoundTrip.decisionCycle : RoundTrip.Statement (.decisionCycle) := fun _ h => absurd rfl h

theorem RoundTrip.contextSwitch (q_ : Nat) : RoundTrip.Statement (.contextSwitch q_) := fun _ h => absurd rfl h

theorem RoundTrip.qtail (q_ : Nat) (v_ : BitVec 64) : RoundTrip.Statement (.qtail q_ v_) := fun _ h => absurd rfl h

theorem RoundTrip.load (q_ : Nat) : RoundTrip.Statement (.load q_) := fun _ h => absurd rfl h

theorem RoundTrip.stageFeed (job_ : BitVec 32) (rec_ : Nat) : RoundTrip.Statement (.stageFeed job_ rec_) := fun _ h => absurd rfl h

theorem RoundTrip.takeRecord (core_ : Nat) : RoundTrip.Statement (.takeRecord core_) := fun _ h => absurd rfl h

theorem RoundTrip.balancer (job_ : BitVec 32) (rec_ : Nat) : RoundTrip.Statement (.balancer job_ rec_) := fun _ h => absurd rfl h

theorem RoundTrip.takeMessage (core_ : Nat) : RoundTrip.Statement (.takeMessage core_) := fun _ h => absurd rfl h

theorem RoundTrip.messageArrival (a_ : Arrival) : RoundTrip.Statement (.messageArrival a_) := fun _ h => absurd rfl h

theorem RoundTrip.messageRetry (id_ : Nat) : RoundTrip.Statement (.messageRetry id_) := fun _ h => absurd rfl h

theorem RoundTrip.spawnRequest (id_ : Nat) : RoundTrip.Statement (.spawnRequest id_) := fun _ h => absurd rfl h

theorem RoundTrip.spawnAnswer (id_ : Nat) : RoundTrip.Statement (.spawnAnswer id_) := fun _ h => absurd rfl h

theorem RoundTrip.ctxjobWrite (core_ : Nat) (lc_ : Bool) (v_ : BitVec 64) : RoundTrip.Statement (.ctxjobWrite core_ lc_ v_) := fun _ h => absurd rfl h

theorem RoundTrip.jobChange (core_ : Nat) : RoundTrip.Statement (.jobChange core_) := fun _ h => absurd rfl h

theorem RoundTrip.save (core_ : Nat) : RoundTrip.Statement (.save core_) := fun _ h => absurd rfl h

theorem RoundTrip.restore (core_ : Nat) : RoundTrip.Statement (.restore core_) := fun _ h => absurd rfl h

theorem RoundTrip.nfctlNfall : RoundTrip.Statement (.nfctlNfall) := fun _ h => absurd rfl h

theorem RoundTrip.nfctlJob (v_ : BitVec 64) : RoundTrip.Statement (.nfctlJob v_) := fun _ h => absurd rfl h

theorem RoundTrip.originFlit (o_ : OriginIn) (cause_ : BitVec 8) : RoundTrip.Statement (.originFlit o_ cause_) := fun _ h => absurd rfl h

theorem RoundTrip.wave (core_ : Nat) : RoundTrip.Statement (.wave core_) := fun _ h => absurd rfl h

theorem RoundTrip.nfctlDb : RoundTrip.Statement (.nfctlDb) := fun _ h => absurd rfl h

theorem RoundTrip.daybreakStep (d_ : StepIn) : RoundTrip.Statement (.daybreakStep d_) := fun _ h => absurd rfl h

theorem RoundTrip.haltreq (core_ : Nat) (slot_ : BitVec 3) : RoundTrip.Statement (.haltreq core_ slot_) := fun _ h => absurd rfl h

theorem RoundTrip.resumereq (core_ : Nat) (slot_ : BitVec 3) : RoundTrip.Statement (.resumereq core_ slot_) := fun _ h => absurd rfl h

theorem RoundTrip.accessRegister (core_ : Nat) (slot_ : BitVec 3) (reg_ : DebugReg) (sz_ : DebugSize) (write_ : Bool) (v_ : BitVec 64) : RoundTrip.Statement (.accessRegister core_ slot_ reg_ sz_ write_ v_) := fun _ h => absurd rfl h

theorem RoundTrip.accessMemory (col_ : Nat) (gpa_ : BitVec 64) (size_ : BitVec 3) (virt_ : Bool) (write_ : Bool) (v_ : BitVec 64) : RoundTrip.Statement (.accessMemory col_ gpa_ size_ virt_ write_ v_) := fun _ h => absurd rfl h

theorem RoundTrip.instrumentUnload (col_ : Nat) (row_ : Nat) : RoundTrip.Statement (.instrumentUnload col_ row_) := fun _ h => absurd rfl h

theorem RoundTrip.train : RoundTrip.Statement (.train) := fun _ h => absurd rfl h

theorem RoundTrip.capabilityFlit (p_ : Nat) (major_ : BitVec 8) (minor_ : BitVec 8) (feat_ : BitVec 16) (dev_ : BitVec 8) : RoundTrip.Statement (.capabilityFlit p_ major_ minor_ feat_ dev_) := fun _ h => absurd rfl h

theorem RoundTrip.allowanceGrant (p_ : Nat) (cls_ : BitVec 2) (n_ : Nat) : RoundTrip.Statement (.allowanceGrant p_ cls_ n_) := fun _ h => absurd rfl h

theorem RoundTrip.joblctWrite (col_ : Nat) (j_ : Nat) (v_ : BitVec 64) : RoundTrip.Statement (.joblctWrite col_ j_ v_) := fun _ h => absurd rfl h

theorem RoundTrip.lctbaseWrite (col_ : Nat) (j_ : Nat) (v_ : BitVec 64) : RoundTrip.Statement (.lctbaseWrite col_ j_ v_) := fun _ h => absurd rfl h

theorem RoundTrip.cxlMemAccess (col_ : Nat) (off_ : Nat) (n_ : Nat) (write_ : Bool) (data_ : List (BitVec 8)) : RoundTrip.Statement (.cxlMemAccess col_ off_ n_ write_ data_) := fun _ h => absurd rfl h

theorem RoundTrip.mergeWindowClose (core_ : Nat) (way_ : Nat) : RoundTrip.Statement (.mergeWindowClose core_ way_) := fun _ h => absurd rfl h

theorem RoundTrip.operandBufferFull (core_ : Nat) : RoundTrip.Statement (.operandBufferFull core_) := fun _ h => absurd rfl h

theorem RoundTrip.add16 (a_ : BitVec 3) (d_ : BitVec 3) : RoundTrip.Statement (.add16 a_ d_) := fun _ _ => decode_encode16 _ rfl rfl <| by
  have h : decodeWord16 (lookupField (encodeFields (.add16 a_ d_))) = some (.add16 (readBack a_) (readBack d_)) := rfl
  simpa only [readBack_eq] using h

theorem RoundTrip.sub16 (a_ : BitVec 3) (d_ : BitVec 3) : RoundTrip.Statement (.sub16 a_ d_) := fun _ _ => decode_encode16 _ rfl rfl <| by
  have h : decodeWord16 (lookupField (encodeFields (.sub16 a_ d_))) = some (.sub16 (readBack a_) (readBack d_)) := rfl
  simpa only [readBack_eq] using h

theorem RoundTrip.and16 (a_ : BitVec 3) (d_ : BitVec 3) : RoundTrip.Statement (.and16 a_ d_) := fun _ _ => decode_encode16 _ rfl rfl <| by
  have h : decodeWord16 (lookupField (encodeFields (.and16 a_ d_))) = some (.and16 (readBack a_) (readBack d_)) := rfl
  simpa only [readBack_eq] using h

theorem RoundTrip.or16 (a_ : BitVec 3) (d_ : BitVec 3) : RoundTrip.Statement (.or16 a_ d_) := fun _ _ => decode_encode16 _ rfl rfl <| by
  have h : decodeWord16 (lookupField (encodeFields (.or16 a_ d_))) = some (.or16 (readBack a_) (readBack d_)) := rfl
  simpa only [readBack_eq] using h

theorem RoundTrip.xor16 (a_ : BitVec 3) (d_ : BitVec 3) : RoundTrip.Statement (.xor16 a_ d_) := fun _ _ => decode_encode16 _ rfl rfl <| by
  have h : decodeWord16 (lookupField (encodeFields (.xor16 a_ d_))) = some (.xor16 (readBack a_) (readBack d_)) := rfl
  simpa only [readBack_eq] using h

theorem RoundTrip.shl16 (a_ : BitVec 3) (d_ : BitVec 3) : RoundTrip.Statement (.shl16 a_ d_) := fun _ _ => decode_encode16 _ rfl rfl <| by
  have h : decodeWord16 (lookupField (encodeFields (.shl16 a_ d_))) = some (.shl16 (readBack a_) (readBack d_)) := rfl
  simpa only [readBack_eq] using h

theorem RoundTrip.shr16 (a_ : BitVec 3) (d_ : BitVec 3) : RoundTrip.Statement (.shr16 a_ d_) := fun _ _ => decode_encode16 _ rfl rfl <| by
  have h : decodeWord16 (lookupField (encodeFields (.shr16 a_ d_))) = some (.shr16 (readBack a_) (readBack d_)) := rfl
  simpa only [readBack_eq] using h

theorem RoundTrip.sra16 (a_ : BitVec 3) (d_ : BitVec 3) : RoundTrip.Statement (.sra16 a_ d_) := fun _ _ => decode_encode16 _ rfl rfl <| by
  have h : decodeWord16 (lookupField (encodeFields (.sra16 a_ d_))) = some (.sra16 (readBack a_) (readBack d_)) := rfl
  simpa only [readBack_eq] using h

theorem RoundTrip.mv16 (a_ : BitVec 3) (d_ : BitVec 3) : RoundTrip.Statement (.mv16 a_ d_) := fun _ _ => decode_encode16 _ rfl rfl <| by
  have h : decodeWord16 (lookupField (encodeFields (.mv16 a_ d_))) = some (.mv16 (readBack a_) (readBack d_)) := rfl
  simpa only [readBack_eq] using h

theorem RoundTrip.addi16 (i_ : BitVec 7) (d_ : BitVec 3) : RoundTrip.Statement (.addi16 i_ d_) := fun _ _ => decode_encode16 _ rfl rfl <| by
  have h : decodeWord16 (lookupField (encodeFields (.addi16 i_ d_))) = some (.addi16 (readBack i_) (readBack d_)) := rfl
  simpa only [readBack_eq] using h

theorem RoundTrip.li16 (i_ : BitVec 7) (d_ : BitVec 3) : RoundTrip.Statement (.li16 i_ d_) := fun _ _ => decode_encode16 _ rfl rfl <| by
  have h : decodeWord16 (lookupField (encodeFields (.li16 i_ d_))) = some (.li16 (readBack i_) (readBack d_)) := rfl
  simpa only [readBack_eq] using h

theorem RoundTrip.ldD16 (o_ : BitVec 4) (b_ : BitVec 3) (d_ : BitVec 3) : RoundTrip.Statement (.ldD16 o_ b_ d_) := fun _ _ => decode_encode16 _ rfl rfl <| by
  have h : decodeWord16 (lookupField (encodeFields (.ldD16 o_ b_ d_))) = some (.ldD16 (readBack o_) (readBack b_) (readBack d_)) := rfl
  simpa only [readBack_eq] using h

theorem RoundTrip.stD16 (o_ : BitVec 4) (b_ : BitVec 3) (d_ : BitVec 3) : RoundTrip.Statement (.stD16 o_ b_ d_) := fun _ _ => decode_encode16 _ rfl rfl <| by
  have h : decodeWord16 (lookupField (encodeFields (.stD16 o_ b_ d_))) = some (.stD16 (readBack o_) (readBack b_) (readBack d_)) := rfl
  simpa only [readBack_eq] using h

theorem RoundTrip.ldW16 (o_ : BitVec 4) (b_ : BitVec 3) (d_ : BitVec 3) : RoundTrip.Statement (.ldW16 o_ b_ d_) := fun _ _ => decode_encode16 _ rfl rfl <| by
  have h : decodeWord16 (lookupField (encodeFields (.ldW16 o_ b_ d_))) = some (.ldW16 (readBack o_) (readBack b_) (readBack d_)) := rfl
  simpa only [readBack_eq] using h

theorem RoundTrip.stW16 (o_ : BitVec 4) (b_ : BitVec 3) (d_ : BitVec 3) : RoundTrip.Statement (.stW16 o_ b_ d_) := fun _ _ => decode_encode16 _ rfl rfl <| by
  have h : decodeWord16 (lookupField (encodeFields (.stW16 o_ b_ d_))) = some (.stW16 (readBack o_) (readBack b_) (readBack d_)) := rfl
  simpa only [readBack_eq] using h

theorem RoundTrip.beqz16 (o_ : BitVec 7) (a_ : BitVec 3) : RoundTrip.Statement (.beqz16 o_ a_) := fun _ _ => decode_encode16 _ rfl rfl <| by
  have h : decodeWord16 (lookupField (encodeFields (.beqz16 o_ a_))) = some (.beqz16 (readBack o_) (readBack a_)) := rfl
  simpa only [readBack_eq] using h

theorem RoundTrip.bnez16 (o_ : BitVec 7) (a_ : BitVec 3) : RoundTrip.Statement (.bnez16 o_ a_) := fun _ _ => decode_encode16 _ rfl rfl <| by
  have h : decodeWord16 (lookupField (encodeFields (.bnez16 o_ a_))) = some (.bnez16 (readBack o_) (readBack a_)) := rfl
  simpa only [readBack_eq] using h

theorem RoundTrip.j16 (o_ : BitVec 10) : RoundTrip.Statement (.j16 o_) := fun _ _ => decode_encode16 _ rfl rfl <| by
  have h : decodeWord16 (lookupField (encodeFields (.j16 o_))) = some (.j16 (readBack o_)) := rfl
  simpa only [readBack_eq] using h

theorem RoundTrip.ret16 : RoundTrip.Statement (.ret16) := fun _ _ => decode_encode16 _ rfl rfl <| rfl

theorem RoundTrip.add (b_ : BitVec 5) (a_ : BitVec 5) (d_ : BitVec 5) : RoundTrip.Statement (.add b_ a_ d_) := fun hw _ => decode_encode32 _ rfl rfl (by
  have h : decodeWord32 (lookupField (encodeFields (.add b_ a_ d_))) = some (.add (readBack b_) (readBack a_) (readBack d_)) := rfl
  simpa only [readBack_eq] using h) hw

theorem RoundTrip.sub (b_ : BitVec 5) (a_ : BitVec 5) (d_ : BitVec 5) : RoundTrip.Statement (.sub b_ a_ d_) := fun hw _ => decode_encode32 _ rfl rfl (by
  have h : decodeWord32 (lookupField (encodeFields (.sub b_ a_ d_))) = some (.sub (readBack b_) (readBack a_) (readBack d_)) := rfl
  simpa only [readBack_eq] using h) hw

theorem RoundTrip.and (b_ : BitVec 5) (a_ : BitVec 5) (d_ : BitVec 5) : RoundTrip.Statement (.and b_ a_ d_) := fun hw _ => decode_encode32 _ rfl rfl (by
  have h : decodeWord32 (lookupField (encodeFields (.and b_ a_ d_))) = some (.and (readBack b_) (readBack a_) (readBack d_)) := rfl
  simpa only [readBack_eq] using h) hw

theorem RoundTrip.or (b_ : BitVec 5) (a_ : BitVec 5) (d_ : BitVec 5) : RoundTrip.Statement (.or b_ a_ d_) := fun hw _ => decode_encode32 _ rfl rfl (by
  have h : decodeWord32 (lookupField (encodeFields (.or b_ a_ d_))) = some (.or (readBack b_) (readBack a_) (readBack d_)) := rfl
  simpa only [readBack_eq] using h) hw

theorem RoundTrip.xor (b_ : BitVec 5) (a_ : BitVec 5) (d_ : BitVec 5) : RoundTrip.Statement (.xor b_ a_ d_) := fun hw _ => decode_encode32 _ rfl rfl (by
  have h : decodeWord32 (lookupField (encodeFields (.xor b_ a_ d_))) = some (.xor (readBack b_) (readBack a_) (readBack d_)) := rfl
  simpa only [readBack_eq] using h) hw

theorem RoundTrip.shl (b_ : BitVec 5) (a_ : BitVec 5) (d_ : BitVec 5) : RoundTrip.Statement (.shl b_ a_ d_) := fun hw _ => decode_encode32 _ rfl rfl (by
  have h : decodeWord32 (lookupField (encodeFields (.shl b_ a_ d_))) = some (.shl (readBack b_) (readBack a_) (readBack d_)) := rfl
  simpa only [readBack_eq] using h) hw

theorem RoundTrip.shr (b_ : BitVec 5) (a_ : BitVec 5) (d_ : BitVec 5) : RoundTrip.Statement (.shr b_ a_ d_) := fun hw _ => decode_encode32 _ rfl rfl (by
  have h : decodeWord32 (lookupField (encodeFields (.shr b_ a_ d_))) = some (.shr (readBack b_) (readBack a_) (readBack d_)) := rfl
  simpa only [readBack_eq] using h) hw

theorem RoundTrip.sra (b_ : BitVec 5) (a_ : BitVec 5) (d_ : BitVec 5) : RoundTrip.Statement (.sra b_ a_ d_) := fun hw _ => decode_encode32 _ rfl rfl (by
  have h : decodeWord32 (lookupField (encodeFields (.sra b_ a_ d_))) = some (.sra (readBack b_) (readBack a_) (readBack d_)) := rfl
  simpa only [readBack_eq] using h) hw

theorem RoundTrip.slt (b_ : BitVec 5) (a_ : BitVec 5) (d_ : BitVec 5) : RoundTrip.Statement (.slt b_ a_ d_) := fun hw _ => decode_encode32 _ rfl rfl (by
  have h : decodeWord32 (lookupField (encodeFields (.slt b_ a_ d_))) = some (.slt (readBack b_) (readBack a_) (readBack d_)) := rfl
  simpa only [readBack_eq] using h) hw

theorem RoundTrip.sltn (b_ : BitVec 5) (a_ : BitVec 5) (d_ : BitVec 5) : RoundTrip.Statement (.sltn b_ a_ d_) := fun hw _ => decode_encode32 _ rfl rfl (by
  have h : decodeWord32 (lookupField (encodeFields (.sltn b_ a_ d_))) = some (.sltn (readBack b_) (readBack a_) (readBack d_)) := rfl
  simpa only [readBack_eq] using h) hw

theorem RoundTrip.min (b_ : BitVec 5) (a_ : BitVec 5) (d_ : BitVec 5) : RoundTrip.Statement (.min b_ a_ d_) := fun hw _ => decode_encode32 _ rfl rfl (by
  have h : decodeWord32 (lookupField (encodeFields (.min b_ a_ d_))) = some (.min (readBack b_) (readBack a_) (readBack d_)) := rfl
  simpa only [readBack_eq] using h) hw

theorem RoundTrip.max (b_ : BitVec 5) (a_ : BitVec 5) (d_ : BitVec 5) : RoundTrip.Statement (.max b_ a_ d_) := fun hw _ => decode_encode32 _ rfl rfl (by
  have h : decodeWord32 (lookupField (encodeFields (.max b_ a_ d_))) = some (.max (readBack b_) (readBack a_) (readBack d_)) := rfl
  simpa only [readBack_eq] using h) hw

theorem RoundTrip.minn (b_ : BitVec 5) (a_ : BitVec 5) (d_ : BitVec 5) : RoundTrip.Statement (.minn b_ a_ d_) := fun hw _ => decode_encode32 _ rfl rfl (by
  have h : decodeWord32 (lookupField (encodeFields (.minn b_ a_ d_))) = some (.minn (readBack b_) (readBack a_) (readBack d_)) := rfl
  simpa only [readBack_eq] using h) hw

theorem RoundTrip.maxn (b_ : BitVec 5) (a_ : BitVec 5) (d_ : BitVec 5) : RoundTrip.Statement (.maxn b_ a_ d_) := fun hw _ => decode_encode32 _ rfl rfl (by
  have h : decodeWord32 (lookupField (encodeFields (.maxn b_ a_ d_))) = some (.maxn (readBack b_) (readBack a_) (readBack d_)) := rfl
  simpa only [readBack_eq] using h) hw

theorem RoundTrip.andn (b_ : BitVec 5) (a_ : BitVec 5) (d_ : BitVec 5) : RoundTrip.Statement (.andn b_ a_ d_) := fun hw _ => decode_encode32 _ rfl rfl (by
  have h : decodeWord32 (lookupField (encodeFields (.andn b_ a_ d_))) = some (.andn (readBack b_) (readBack a_) (readBack d_)) := rfl
  simpa only [readBack_eq] using h) hw

theorem RoundTrip.mul (b_ : BitVec 5) (a_ : BitVec 5) (d_ : BitVec 5) : RoundTrip.Statement (.mul b_ a_ d_) := fun hw _ => decode_encode32 _ rfl rfl (by
  have h : decodeWord32 (lookupField (encodeFields (.mul b_ a_ d_))) = some (.mul (readBack b_) (readBack a_) (readBack d_)) := rfl
  simpa only [readBack_eq] using h) hw

theorem RoundTrip.mulh (b_ : BitVec 5) (a_ : BitVec 5) (d_ : BitVec 5) : RoundTrip.Statement (.mulh b_ a_ d_) := fun hw _ => decode_encode32 _ rfl rfl (by
  have h : decodeWord32 (lookupField (encodeFields (.mulh b_ a_ d_))) = some (.mulh (readBack b_) (readBack a_) (readBack d_)) := rfl
  simpa only [readBack_eq] using h) hw

theorem RoundTrip.mulhn (b_ : BitVec 5) (a_ : BitVec 5) (d_ : BitVec 5) : RoundTrip.Statement (.mulhn b_ a_ d_) := fun hw _ => decode_encode32 _ rfl rfl (by
  have h : decodeWord32 (lookupField (encodeFields (.mulhn b_ a_ d_))) = some (.mulhn (readBack b_) (readBack a_) (readBack d_)) := rfl
  simpa only [readBack_eq] using h) hw

theorem RoundTrip.div (b_ : BitVec 5) (a_ : BitVec 5) (d_ : BitVec 5) : RoundTrip.Statement (.div b_ a_ d_) := fun hw _ => decode_encode32 _ rfl rfl (by
  have h : decodeWord32 (lookupField (encodeFields (.div b_ a_ d_))) = some (.div (readBack b_) (readBack a_) (readBack d_)) := rfl
  simpa only [readBack_eq] using h) hw

theorem RoundTrip.divn (b_ : BitVec 5) (a_ : BitVec 5) (d_ : BitVec 5) : RoundTrip.Statement (.divn b_ a_ d_) := fun hw _ => decode_encode32 _ rfl rfl (by
  have h : decodeWord32 (lookupField (encodeFields (.divn b_ a_ d_))) = some (.divn (readBack b_) (readBack a_) (readBack d_)) := rfl
  simpa only [readBack_eq] using h) hw

theorem RoundTrip.rem (b_ : BitVec 5) (a_ : BitVec 5) (d_ : BitVec 5) : RoundTrip.Statement (.rem b_ a_ d_) := fun hw _ => decode_encode32 _ rfl rfl (by
  have h : decodeWord32 (lookupField (encodeFields (.rem b_ a_ d_))) = some (.rem (readBack b_) (readBack a_) (readBack d_)) := rfl
  simpa only [readBack_eq] using h) hw

theorem RoundTrip.remn (b_ : BitVec 5) (a_ : BitVec 5) (d_ : BitVec 5) : RoundTrip.Statement (.remn b_ a_ d_) := fun hw _ => decode_encode32 _ rfl rfl (by
  have h : decodeWord32 (lookupField (encodeFields (.remn b_ a_ d_))) = some (.remn (readBack b_) (readBack a_) (readBack d_)) := rfl
  simpa only [readBack_eq] using h) hw

theorem RoundTrip.addW (b_ : BitVec 5) (a_ : BitVec 5) (d_ : BitVec 5) : RoundTrip.Statement (.addW b_ a_ d_) := fun hw _ => decode_encode32 _ rfl rfl (by
  have h : decodeWord32 (lookupField (encodeFields (.addW b_ a_ d_))) = some (.addW (readBack b_) (readBack a_) (readBack d_)) := rfl
  simpa only [readBack_eq] using h) hw

theorem RoundTrip.subW (b_ : BitVec 5) (a_ : BitVec 5) (d_ : BitVec 5) : RoundTrip.Statement (.subW b_ a_ d_) := fun hw _ => decode_encode32 _ rfl rfl (by
  have h : decodeWord32 (lookupField (encodeFields (.subW b_ a_ d_))) = some (.subW (readBack b_) (readBack a_) (readBack d_)) := rfl
  simpa only [readBack_eq] using h) hw

theorem RoundTrip.shlW (b_ : BitVec 5) (a_ : BitVec 5) (d_ : BitVec 5) : RoundTrip.Statement (.shlW b_ a_ d_) := fun hw _ => decode_encode32 _ rfl rfl (by
  have h : decodeWord32 (lookupField (encodeFields (.shlW b_ a_ d_))) = some (.shlW (readBack b_) (readBack a_) (readBack d_)) := rfl
  simpa only [readBack_eq] using h) hw

theorem RoundTrip.shrW (b_ : BitVec 5) (a_ : BitVec 5) (d_ : BitVec 5) : RoundTrip.Statement (.shrW b_ a_ d_) := fun hw _ => decode_encode32 _ rfl rfl (by
  have h : decodeWord32 (lookupField (encodeFields (.shrW b_ a_ d_))) = some (.shrW (readBack b_) (readBack a_) (readBack d_)) := rfl
  simpa only [readBack_eq] using h) hw

theorem RoundTrip.sraW (b_ : BitVec 5) (a_ : BitVec 5) (d_ : BitVec 5) : RoundTrip.Statement (.sraW b_ a_ d_) := fun hw _ => decode_encode32 _ rfl rfl (by
  have h : decodeWord32 (lookupField (encodeFields (.sraW b_ a_ d_))) = some (.sraW (readBack b_) (readBack a_) (readBack d_)) := rfl
  simpa only [readBack_eq] using h) hw

theorem RoundTrip.mulW (b_ : BitVec 5) (a_ : BitVec 5) (d_ : BitVec 5) : RoundTrip.Statement (.mulW b_ a_ d_) := fun hw _ => decode_encode32 _ rfl rfl (by
  have h : decodeWord32 (lookupField (encodeFields (.mulW b_ a_ d_))) = some (.mulW (readBack b_) (readBack a_) (readBack d_)) := rfl
  simpa only [readBack_eq] using h) hw

theorem RoundTrip.divW (b_ : BitVec 5) (a_ : BitVec 5) (d_ : BitVec 5) : RoundTrip.Statement (.divW b_ a_ d_) := fun hw _ => decode_encode32 _ rfl rfl (by
  have h : decodeWord32 (lookupField (encodeFields (.divW b_ a_ d_))) = some (.divW (readBack b_) (readBack a_) (readBack d_)) := rfl
  simpa only [readBack_eq] using h) hw

theorem RoundTrip.divnW (b_ : BitVec 5) (a_ : BitVec 5) (d_ : BitVec 5) : RoundTrip.Statement (.divnW b_ a_ d_) := fun hw _ => decode_encode32 _ rfl rfl (by
  have h : decodeWord32 (lookupField (encodeFields (.divnW b_ a_ d_))) = some (.divnW (readBack b_) (readBack a_) (readBack d_)) := rfl
  simpa only [readBack_eq] using h) hw

theorem RoundTrip.remW (b_ : BitVec 5) (a_ : BitVec 5) (d_ : BitVec 5) : RoundTrip.Statement (.remW b_ a_ d_) := fun hw _ => decode_encode32 _ rfl rfl (by
  have h : decodeWord32 (lookupField (encodeFields (.remW b_ a_ d_))) = some (.remW (readBack b_) (readBack a_) (readBack d_)) := rfl
  simpa only [readBack_eq] using h) hw

theorem RoundTrip.remnW (b_ : BitVec 5) (a_ : BitVec 5) (d_ : BitVec 5) : RoundTrip.Statement (.remnW b_ a_ d_) := fun hw _ => decode_encode32 _ rfl rfl (by
  have h : decodeWord32 (lookupField (encodeFields (.remnW b_ a_ d_))) = some (.remnW (readBack b_) (readBack a_) (readBack d_)) := rfl
  simpa only [readBack_eq] using h) hw

theorem RoundTrip.addi (i_ : BitVec 12) (a_ : BitVec 5) (d_ : BitVec 5) : RoundTrip.Statement (.addi i_ a_ d_) := fun hw _ => decode_encode32 _ rfl rfl (by
  have h : decodeWord32 (lookupField (encodeFields (.addi i_ a_ d_))) = some (.addi (readBack i_) (readBack a_) (readBack d_)) := rfl
  simpa only [readBack_eq] using h) hw

theorem RoundTrip.slti (i_ : BitVec 12) (a_ : BitVec 5) (d_ : BitVec 5) : RoundTrip.Statement (.slti i_ a_ d_) := fun hw _ => decode_encode32 _ rfl rfl (by
  have h : decodeWord32 (lookupField (encodeFields (.slti i_ a_ d_))) = some (.slti (readBack i_) (readBack a_) (readBack d_)) := rfl
  simpa only [readBack_eq] using h) hw

theorem RoundTrip.sltni (i_ : BitVec 12) (a_ : BitVec 5) (d_ : BitVec 5) : RoundTrip.Statement (.sltni i_ a_ d_) := fun hw _ => decode_encode32 _ rfl rfl (by
  have h : decodeWord32 (lookupField (encodeFields (.sltni i_ a_ d_))) = some (.sltni (readBack i_) (readBack a_) (readBack d_)) := rfl
  simpa only [readBack_eq] using h) hw

theorem RoundTrip.andi (i_ : BitVec 12) (a_ : BitVec 5) (d_ : BitVec 5) : RoundTrip.Statement (.andi i_ a_ d_) := fun hw _ => decode_encode32 _ rfl rfl (by
  have h : decodeWord32 (lookupField (encodeFields (.andi i_ a_ d_))) = some (.andi (readBack i_) (readBack a_) (readBack d_)) := rfl
  simpa only [readBack_eq] using h) hw

theorem RoundTrip.ori (i_ : BitVec 12) (a_ : BitVec 5) (d_ : BitVec 5) : RoundTrip.Statement (.ori i_ a_ d_) := fun hw _ => decode_encode32 _ rfl rfl (by
  have h : decodeWord32 (lookupField (encodeFields (.ori i_ a_ d_))) = some (.ori (readBack i_) (readBack a_) (readBack d_)) := rfl
  simpa only [readBack_eq] using h) hw

theorem RoundTrip.xori (i_ : BitVec 12) (a_ : BitVec 5) (d_ : BitVec 5) : RoundTrip.Statement (.xori i_ a_ d_) := fun hw _ => decode_encode32 _ rfl rfl (by
  have h : decodeWord32 (lookupField (encodeFields (.xori i_ a_ d_))) = some (.xori (readBack i_) (readBack a_) (readBack d_)) := rfl
  simpa only [readBack_eq] using h) hw

theorem RoundTrip.shli (h_ : BitVec 6) (a_ : BitVec 5) (d_ : BitVec 5) : RoundTrip.Statement (.shli h_ a_ d_) := fun hw _ => decode_encode32 _ rfl rfl (by
  have h : decodeWord32 (lookupField (encodeFields (.shli h_ a_ d_))) = some (.shli (readBack h_) (readBack a_) (readBack d_)) := rfl
  simpa only [readBack_eq] using h) hw

theorem RoundTrip.shri (h_ : BitVec 6) (a_ : BitVec 5) (d_ : BitVec 5) : RoundTrip.Statement (.shri h_ a_ d_) := fun hw _ => decode_encode32 _ rfl rfl (by
  have h : decodeWord32 (lookupField (encodeFields (.shri h_ a_ d_))) = some (.shri (readBack h_) (readBack a_) (readBack d_)) := rfl
  simpa only [readBack_eq] using h) hw

theorem RoundTrip.srai (h_ : BitVec 6) (a_ : BitVec 5) (d_ : BitVec 5) : RoundTrip.Statement (.srai h_ a_ d_) := fun hw _ => decode_encode32 _ rfl rfl (by
  have h : decodeWord32 (lookupField (encodeFields (.srai h_ a_ d_))) = some (.srai (readBack h_) (readBack a_) (readBack d_)) := rfl
  simpa only [readBack_eq] using h) hw

theorem RoundTrip.bext (b_ : BitVec 5) (a_ : BitVec 5) (d_ : BitVec 5) : RoundTrip.Statement (.bext b_ a_ d_) := fun hw _ => decode_encode32 _ rfl rfl (by
  have h : decodeWord32 (lookupField (encodeFields (.bext b_ a_ d_))) = some (.bext (readBack b_) (readBack a_) (readBack d_)) := rfl
  simpa only [readBack_eq] using h) hw

theorem RoundTrip.bins (b_ : BitVec 5) (a_ : BitVec 5) (d_ : BitVec 5) : RoundTrip.Statement (.bins b_ a_ d_) := fun hw _ => decode_encode32 _ rfl rfl (by
  have h : decodeWord32 (lookupField (encodeFields (.bins b_ a_ d_))) = some (.bins (readBack b_) (readBack a_) (readBack d_)) := rfl
  simpa only [readBack_eq] using h) hw

theorem RoundTrip.popc (a_ : BitVec 5) (d_ : BitVec 5) : RoundTrip.Statement (.popc a_ d_) := fun hw _ => decode_encode32 _ rfl rfl (by
  have h : decodeWord32 (lookupField (encodeFields (.popc a_ d_))) = some (.popc (readBack a_) (readBack d_)) := rfl
  simpa only [readBack_eq] using h) hw

theorem RoundTrip.clz (a_ : BitVec 5) (d_ : BitVec 5) : RoundTrip.Statement (.clz a_ d_) := fun hw _ => decode_encode32 _ rfl rfl (by
  have h : decodeWord32 (lookupField (encodeFields (.clz a_ d_))) = some (.clz (readBack a_) (readBack d_)) := rfl
  simpa only [readBack_eq] using h) hw

theorem RoundTrip.ctz (a_ : BitVec 5) (d_ : BitVec 5) : RoundTrip.Statement (.ctz a_ d_) := fun hw _ => decode_encode32 _ rfl rfl (by
  have h : decodeWord32 (lookupField (encodeFields (.ctz a_ d_))) = some (.ctz (readBack a_) (readBack d_)) := rfl
  simpa only [readBack_eq] using h) hw

theorem RoundTrip.ldhi (i_ : BitVec 20) (d_ : BitVec 5) : RoundTrip.Statement (.ldhi i_ d_) := fun hw _ => decode_encode32 _ rfl rfl (by
  have h : decodeWord32 (lookupField (encodeFields (.ldhi i_ d_))) = some (.ldhi (readBack i_) (readBack d_)) := rfl
  simpa only [readBack_eq] using h) hw

theorem RoundTrip.pcadd (i_ : BitVec 20) (d_ : BitVec 5) : RoundTrip.Statement (.pcadd i_ d_) := fun hw _ => decode_encode32 _ rfl rfl (by
  have h : decodeWord32 (lookupField (encodeFields (.pcadd i_ d_))) = some (.pcadd (readBack i_) (readBack d_)) := rfl
  simpa only [readBack_eq] using h) hw

theorem RoundTrip.ldB (i_ : BitVec 12) (a_ : BitVec 5) (d_ : BitVec 5) : RoundTrip.Statement (.ldB i_ a_ d_) := fun hw _ => decode_encode32 _ rfl rfl (by
  have h : decodeWord32 (lookupField (encodeFields (.ldB i_ a_ d_))) = some (.ldB (readBack i_) (readBack a_) (readBack d_)) := rfl
  simpa only [readBack_eq] using h) hw

theorem RoundTrip.ldH (i_ : BitVec 12) (a_ : BitVec 5) (d_ : BitVec 5) : RoundTrip.Statement (.ldH i_ a_ d_) := fun hw _ => decode_encode32 _ rfl rfl (by
  have h : decodeWord32 (lookupField (encodeFields (.ldH i_ a_ d_))) = some (.ldH (readBack i_) (readBack a_) (readBack d_)) := rfl
  simpa only [readBack_eq] using h) hw

theorem RoundTrip.ldW (i_ : BitVec 12) (a_ : BitVec 5) (d_ : BitVec 5) : RoundTrip.Statement (.ldW i_ a_ d_) := fun hw _ => decode_encode32 _ rfl rfl (by
  have h : decodeWord32 (lookupField (encodeFields (.ldW i_ a_ d_))) = some (.ldW (readBack i_) (readBack a_) (readBack d_)) := rfl
  simpa only [readBack_eq] using h) hw

theorem RoundTrip.ldD (i_ : BitVec 12) (a_ : BitVec 5) (d_ : BitVec 5) : RoundTrip.Statement (.ldD i_ a_ d_) := fun hw _ => decode_encode32 _ rfl rfl (by
  have h : decodeWord32 (lookupField (encodeFields (.ldD i_ a_ d_))) = some (.ldD (readBack i_) (readBack a_) (readBack d_)) := rfl
  simpa only [readBack_eq] using h) hw

theorem RoundTrip.ldBn (i_ : BitVec 12) (a_ : BitVec 5) (d_ : BitVec 5) : RoundTrip.Statement (.ldBn i_ a_ d_) := fun hw _ => decode_encode32 _ rfl rfl (by
  have h : decodeWord32 (lookupField (encodeFields (.ldBn i_ a_ d_))) = some (.ldBn (readBack i_) (readBack a_) (readBack d_)) := rfl
  simpa only [readBack_eq] using h) hw

theorem RoundTrip.ldHn (i_ : BitVec 12) (a_ : BitVec 5) (d_ : BitVec 5) : RoundTrip.Statement (.ldHn i_ a_ d_) := fun hw _ => decode_encode32 _ rfl rfl (by
  have h : decodeWord32 (lookupField (encodeFields (.ldHn i_ a_ d_))) = some (.ldHn (readBack i_) (readBack a_) (readBack d_)) := rfl
  simpa only [readBack_eq] using h) hw

theorem RoundTrip.ldWn (i_ : BitVec 12) (a_ : BitVec 5) (d_ : BitVec 5) : RoundTrip.Statement (.ldWn i_ a_ d_) := fun hw _ => decode_encode32 _ rfl rfl (by
  have h : decodeWord32 (lookupField (encodeFields (.ldWn i_ a_ d_))) = some (.ldWn (readBack i_) (readBack a_) (readBack d_)) := rfl
  simpa only [readBack_eq] using h) hw

theorem RoundTrip.ldBNc (i_ : BitVec 12) (a_ : BitVec 5) (d_ : BitVec 5) : RoundTrip.Statement (.ldBNc i_ a_ d_) := fun hw _ => decode_encode32 _ rfl rfl (by
  have h : decodeWord32 (lookupField (encodeFields (.ldBNc i_ a_ d_))) = some (.ldBNc (readBack i_) (readBack a_) (readBack d_)) := rfl
  simpa only [readBack_eq] using h) hw

theorem RoundTrip.ldHNc (i_ : BitVec 12) (a_ : BitVec 5) (d_ : BitVec 5) : RoundTrip.Statement (.ldHNc i_ a_ d_) := fun hw _ => decode_encode32 _ rfl rfl (by
  have h : decodeWord32 (lookupField (encodeFields (.ldHNc i_ a_ d_))) = some (.ldHNc (readBack i_) (readBack a_) (readBack d_)) := rfl
  simpa only [readBack_eq] using h) hw

theorem RoundTrip.ldWNc (i_ : BitVec 12) (a_ : BitVec 5) (d_ : BitVec 5) : RoundTrip.Statement (.ldWNc i_ a_ d_) := fun hw _ => decode_encode32 _ rfl rfl (by
  have h : decodeWord32 (lookupField (encodeFields (.ldWNc i_ a_ d_))) = some (.ldWNc (readBack i_) (readBack a_) (readBack d_)) := rfl
  simpa only [readBack_eq] using h) hw

theorem RoundTrip.ldDNc (i_ : BitVec 12) (a_ : BitVec 5) (d_ : BitVec 5) : RoundTrip.Statement (.ldDNc i_ a_ d_) := fun hw _ => decode_encode32 _ rfl rfl (by
  have h : decodeWord32 (lookupField (encodeFields (.ldDNc i_ a_ d_))) = some (.ldDNc (readBack i_) (readBack a_) (readBack d_)) := rfl
  simpa only [readBack_eq] using h) hw

theorem RoundTrip.ldBnNc (i_ : BitVec 12) (a_ : BitVec 5) (d_ : BitVec 5) : RoundTrip.Statement (.ldBnNc i_ a_ d_) := fun hw _ => decode_encode32 _ rfl rfl (by
  have h : decodeWord32 (lookupField (encodeFields (.ldBnNc i_ a_ d_))) = some (.ldBnNc (readBack i_) (readBack a_) (readBack d_)) := rfl
  simpa only [readBack_eq] using h) hw

theorem RoundTrip.ldHnNc (i_ : BitVec 12) (a_ : BitVec 5) (d_ : BitVec 5) : RoundTrip.Statement (.ldHnNc i_ a_ d_) := fun hw _ => decode_encode32 _ rfl rfl (by
  have h : decodeWord32 (lookupField (encodeFields (.ldHnNc i_ a_ d_))) = some (.ldHnNc (readBack i_) (readBack a_) (readBack d_)) := rfl
  simpa only [readBack_eq] using h) hw

theorem RoundTrip.ldWnNc (i_ : BitVec 12) (a_ : BitVec 5) (d_ : BitVec 5) : RoundTrip.Statement (.ldWnNc i_ a_ d_) := fun hw _ => decode_encode32 _ rfl rfl (by
  have h : decodeWord32 (lookupField (encodeFields (.ldWnNc i_ a_ d_))) = some (.ldWnNc (readBack i_) (readBack a_) (readBack d_)) := rfl
  simpa only [readBack_eq] using h) hw

theorem RoundTrip.ldBC (i_ : BitVec 12) (a_ : BitVec 5) (d_ : BitVec 5) : RoundTrip.Statement (.ldBC i_ a_ d_) := fun hw _ => decode_encode32 _ rfl rfl (by
  have h : decodeWord32 (lookupField (encodeFields (.ldBC i_ a_ d_))) = some (.ldBC (readBack i_) (readBack a_) (readBack d_)) := rfl
  simpa only [readBack_eq] using h) hw

theorem RoundTrip.ldHC (i_ : BitVec 12) (a_ : BitVec 5) (d_ : BitVec 5) : RoundTrip.Statement (.ldHC i_ a_ d_) := fun hw _ => decode_encode32 _ rfl rfl (by
  have h : decodeWord32 (lookupField (encodeFields (.ldHC i_ a_ d_))) = some (.ldHC (readBack i_) (readBack a_) (readBack d_)) := rfl
  simpa only [readBack_eq] using h) hw

theorem RoundTrip.ldWC (i_ : BitVec 12) (a_ : BitVec 5) (d_ : BitVec 5) : RoundTrip.Statement (.ldWC i_ a_ d_) := fun hw _ => decode_encode32 _ rfl rfl (by
  have h : decodeWord32 (lookupField (encodeFields (.ldWC i_ a_ d_))) = some (.ldWC (readBack i_) (readBack a_) (readBack d_)) := rfl
  simpa only [readBack_eq] using h) hw

theorem RoundTrip.ldDC (i_ : BitVec 12) (a_ : BitVec 5) (d_ : BitVec 5) : RoundTrip.Statement (.ldDC i_ a_ d_) := fun hw _ => decode_encode32 _ rfl rfl (by
  have h : decodeWord32 (lookupField (encodeFields (.ldDC i_ a_ d_))) = some (.ldDC (readBack i_) (readBack a_) (readBack d_)) := rfl
  simpa only [readBack_eq] using h) hw

theorem RoundTrip.ldBnC (i_ : BitVec 12) (a_ : BitVec 5) (d_ : BitVec 5) : RoundTrip.Statement (.ldBnC i_ a_ d_) := fun hw _ => decode_encode32 _ rfl rfl (by
  have h : decodeWord32 (lookupField (encodeFields (.ldBnC i_ a_ d_))) = some (.ldBnC (readBack i_) (readBack a_) (readBack d_)) := rfl
  simpa only [readBack_eq] using h) hw

theorem RoundTrip.ldHnC (i_ : BitVec 12) (a_ : BitVec 5) (d_ : BitVec 5) : RoundTrip.Statement (.ldHnC i_ a_ d_) := fun hw _ => decode_encode32 _ rfl rfl (by
  have h : decodeWord32 (lookupField (encodeFields (.ldHnC i_ a_ d_))) = some (.ldHnC (readBack i_) (readBack a_) (readBack d_)) := rfl
  simpa only [readBack_eq] using h) hw

theorem RoundTrip.ldWnC (i_ : BitVec 12) (a_ : BitVec 5) (d_ : BitVec 5) : RoundTrip.Statement (.ldWnC i_ a_ d_) := fun hw _ => decode_encode32 _ rfl rfl (by
  have h : decodeWord32 (lookupField (encodeFields (.ldWnC i_ a_ d_))) = some (.ldWnC (readBack i_) (readBack a_) (readBack d_)) := rfl
  simpa only [readBack_eq] using h) hw

theorem RoundTrip.stB (i_ : BitVec 12) (b_ : BitVec 5) (s_ : BitVec 5) : RoundTrip.Statement (.stB i_ b_ s_) := fun hw _ => decode_encode32 _ rfl rfl (by
  have h : decodeWord32 (lookupField (encodeFields (.stB i_ b_ s_))) = some (.stB (readBack i_) (readBack b_) (readBack s_)) := rfl
  simpa only [readBack_eq] using h) hw

theorem RoundTrip.stH (i_ : BitVec 12) (b_ : BitVec 5) (s_ : BitVec 5) : RoundTrip.Statement (.stH i_ b_ s_) := fun hw _ => decode_encode32 _ rfl rfl (by
  have h : decodeWord32 (lookupField (encodeFields (.stH i_ b_ s_))) = some (.stH (readBack i_) (readBack b_) (readBack s_)) := rfl
  simpa only [readBack_eq] using h) hw

theorem RoundTrip.stW (i_ : BitVec 12) (b_ : BitVec 5) (s_ : BitVec 5) : RoundTrip.Statement (.stW i_ b_ s_) := fun hw _ => decode_encode32 _ rfl rfl (by
  have h : decodeWord32 (lookupField (encodeFields (.stW i_ b_ s_))) = some (.stW (readBack i_) (readBack b_) (readBack s_)) := rfl
  simpa only [readBack_eq] using h) hw

theorem RoundTrip.stD (i_ : BitVec 12) (b_ : BitVec 5) (s_ : BitVec 5) : RoundTrip.Statement (.stD i_ b_ s_) := fun hw _ => decode_encode32 _ rfl rfl (by
  have h : decodeWord32 (lookupField (encodeFields (.stD i_ b_ s_))) = some (.stD (readBack i_) (readBack b_) (readBack s_)) := rfl
  simpa only [readBack_eq] using h) hw

theorem RoundTrip.stBNc (i_ : BitVec 12) (b_ : BitVec 5) (s_ : BitVec 5) : RoundTrip.Statement (.stBNc i_ b_ s_) := fun hw _ => decode_encode32 _ rfl rfl (by
  have h : decodeWord32 (lookupField (encodeFields (.stBNc i_ b_ s_))) = some (.stBNc (readBack i_) (readBack b_) (readBack s_)) := rfl
  simpa only [readBack_eq] using h) hw

theorem RoundTrip.stHNc (i_ : BitVec 12) (b_ : BitVec 5) (s_ : BitVec 5) : RoundTrip.Statement (.stHNc i_ b_ s_) := fun hw _ => decode_encode32 _ rfl rfl (by
  have h : decodeWord32 (lookupField (encodeFields (.stHNc i_ b_ s_))) = some (.stHNc (readBack i_) (readBack b_) (readBack s_)) := rfl
  simpa only [readBack_eq] using h) hw

theorem RoundTrip.stWNc (i_ : BitVec 12) (b_ : BitVec 5) (s_ : BitVec 5) : RoundTrip.Statement (.stWNc i_ b_ s_) := fun hw _ => decode_encode32 _ rfl rfl (by
  have h : decodeWord32 (lookupField (encodeFields (.stWNc i_ b_ s_))) = some (.stWNc (readBack i_) (readBack b_) (readBack s_)) := rfl
  simpa only [readBack_eq] using h) hw

theorem RoundTrip.stDNc (i_ : BitVec 12) (b_ : BitVec 5) (s_ : BitVec 5) : RoundTrip.Statement (.stDNc i_ b_ s_) := fun hw _ => decode_encode32 _ rfl rfl (by
  have h : decodeWord32 (lookupField (encodeFields (.stDNc i_ b_ s_))) = some (.stDNc (readBack i_) (readBack b_) (readBack s_)) := rfl
  simpa only [readBack_eq] using h) hw

theorem RoundTrip.amadd (z_ : BitVec 1) (b_ : BitVec 5) (a_ : BitVec 5) (d_ : BitVec 5) : RoundTrip.Statement (.amadd z_ b_ a_ d_) := fun hw _ => decode_encode32 _ rfl rfl (by
  have h : decodeWord32 (lookupField (encodeFields (.amadd z_ b_ a_ d_))) = some (.amadd (readBack z_) (readBack b_) (readBack a_) (readBack d_)) := rfl
  simpa only [readBack_eq] using h) hw

theorem RoundTrip.amswap (z_ : BitVec 1) (b_ : BitVec 5) (a_ : BitVec 5) (d_ : BitVec 5) : RoundTrip.Statement (.amswap z_ b_ a_ d_) := fun hw _ => decode_encode32 _ rfl rfl (by
  have h : decodeWord32 (lookupField (encodeFields (.amswap z_ b_ a_ d_))) = some (.amswap (readBack z_) (readBack b_) (readBack a_) (readBack d_)) := rfl
  simpa only [readBack_eq] using h) hw

theorem RoundTrip.amcas (z_ : BitVec 1) (b_ : BitVec 5) (a_ : BitVec 5) (d_ : BitVec 5) : RoundTrip.Statement (.amcas z_ b_ a_ d_) := fun hw _ => decode_encode32 _ rfl rfl (by
  have h : decodeWord32 (lookupField (encodeFields (.amcas z_ b_ a_ d_))) = some (.amcas (readBack z_) (readBack b_) (readBack a_) (readBack d_)) := rfl
  simpa only [readBack_eq] using h) hw

theorem RoundTrip.amand (z_ : BitVec 1) (b_ : BitVec 5) (a_ : BitVec 5) (d_ : BitVec 5) : RoundTrip.Statement (.amand z_ b_ a_ d_) := fun hw _ => decode_encode32 _ rfl rfl (by
  have h : decodeWord32 (lookupField (encodeFields (.amand z_ b_ a_ d_))) = some (.amand (readBack z_) (readBack b_) (readBack a_) (readBack d_)) := rfl
  simpa only [readBack_eq] using h) hw

theorem RoundTrip.amor (z_ : BitVec 1) (b_ : BitVec 5) (a_ : BitVec 5) (d_ : BitVec 5) : RoundTrip.Statement (.amor z_ b_ a_ d_) := fun hw _ => decode_encode32 _ rfl rfl (by
  have h : decodeWord32 (lookupField (encodeFields (.amor z_ b_ a_ d_))) = some (.amor (readBack z_) (readBack b_) (readBack a_) (readBack d_)) := rfl
  simpa only [readBack_eq] using h) hw

theorem RoundTrip.amxor (z_ : BitVec 1) (b_ : BitVec 5) (a_ : BitVec 5) (d_ : BitVec 5) : RoundTrip.Statement (.amxor z_ b_ a_ d_) := fun hw _ => decode_encode32 _ rfl rfl (by
  have h : decodeWord32 (lookupField (encodeFields (.amxor z_ b_ a_ d_))) = some (.amxor (readBack z_) (readBack b_) (readBack a_) (readBack d_)) := rfl
  simpa only [readBack_eq] using h) hw

theorem RoundTrip.ammin (z_ : BitVec 1) (b_ : BitVec 5) (a_ : BitVec 5) (d_ : BitVec 5) : RoundTrip.Statement (.ammin z_ b_ a_ d_) := fun hw _ => decode_encode32 _ rfl rfl (by
  have h : decodeWord32 (lookupField (encodeFields (.ammin z_ b_ a_ d_))) = some (.ammin (readBack z_) (readBack b_) (readBack a_) (readBack d_)) := rfl
  simpa only [readBack_eq] using h) hw

theorem RoundTrip.ammax (z_ : BitVec 1) (b_ : BitVec 5) (a_ : BitVec 5) (d_ : BitVec 5) : RoundTrip.Statement (.ammax z_ b_ a_ d_) := fun hw _ => decode_encode32 _ rfl rfl (by
  have h : decodeWord32 (lookupField (encodeFields (.ammax z_ b_ a_ d_))) = some (.ammax (readBack z_) (readBack b_) (readBack a_) (readBack d_)) := rfl
  simpa only [readBack_eq] using h) hw

theorem RoundTrip.amminn (z_ : BitVec 1) (b_ : BitVec 5) (a_ : BitVec 5) (d_ : BitVec 5) : RoundTrip.Statement (.amminn z_ b_ a_ d_) := fun hw _ => decode_encode32 _ rfl rfl (by
  have h : decodeWord32 (lookupField (encodeFields (.amminn z_ b_ a_ d_))) = some (.amminn (readBack z_) (readBack b_) (readBack a_) (readBack d_)) := rfl
  simpa only [readBack_eq] using h) hw

theorem RoundTrip.ammaxn (z_ : BitVec 1) (b_ : BitVec 5) (a_ : BitVec 5) (d_ : BitVec 5) : RoundTrip.Statement (.ammaxn z_ b_ a_ d_) := fun hw _ => decode_encode32 _ rfl rfl (by
  have h : decodeWord32 (lookupField (encodeFields (.ammaxn z_ b_ a_ d_))) = some (.ammaxn (readBack z_) (readBack b_) (readBack a_) (readBack d_)) := rfl
  simpa only [readBack_eq] using h) hw

theorem RoundTrip.amfadd (z_ : BitVec 1) (b_ : BitVec 5) (a_ : BitVec 5) (d_ : BitVec 5) : RoundTrip.Statement (.amfadd z_ b_ a_ d_) := fun hw _ => decode_encode32 _ rfl rfl (by
  have h : decodeWord32 (lookupField (encodeFields (.amfadd z_ b_ a_ d_))) = some (.amfadd (readBack z_) (readBack b_) (readBack a_) (readBack d_)) := rfl
  simpa only [readBack_eq] using h) hw

theorem RoundTrip.amfmin (z_ : BitVec 1) (b_ : BitVec 5) (a_ : BitVec 5) (d_ : BitVec 5) : RoundTrip.Statement (.amfmin z_ b_ a_ d_) := fun hw _ => decode_encode32 _ rfl rfl (by
  have h : decodeWord32 (lookupField (encodeFields (.amfmin z_ b_ a_ d_))) = some (.amfmin (readBack z_) (readBack b_) (readBack a_) (readBack d_)) := rfl
  simpa only [readBack_eq] using h) hw

theorem RoundTrip.amfmax (z_ : BitVec 1) (b_ : BitVec 5) (a_ : BitVec 5) (d_ : BitVec 5) : RoundTrip.Statement (.amfmax z_ b_ a_ d_) := fun hw _ => decode_encode32 _ rfl rfl (by
  have h : decodeWord32 (lookupField (encodeFields (.amfmax z_ b_ a_ d_))) = some (.amfmax (readBack z_) (readBack b_) (readBack a_) (readBack d_)) := rfl
  simpa only [readBack_eq] using h) hw

theorem RoundTrip.redAdd (z_ : BitVec 1) (b_ : BitVec 5) (a_ : BitVec 5) : RoundTrip.Statement (.redAdd z_ b_ a_) := fun hw _ => decode_encode32 _ rfl rfl (by
  have h : decodeWord32 (lookupField (encodeFields (.redAdd z_ b_ a_))) = some (.redAdd (readBack z_) (readBack b_) (readBack a_)) := rfl
  simpa only [readBack_eq] using h) hw

theorem RoundTrip.redMin (z_ : BitVec 1) (b_ : BitVec 5) (a_ : BitVec 5) : RoundTrip.Statement (.redMin z_ b_ a_) := fun hw _ => decode_encode32 _ rfl rfl (by
  have h : decodeWord32 (lookupField (encodeFields (.redMin z_ b_ a_))) = some (.redMin (readBack z_) (readBack b_) (readBack a_)) := rfl
  simpa only [readBack_eq] using h) hw

theorem RoundTrip.redMax (z_ : BitVec 1) (b_ : BitVec 5) (a_ : BitVec 5) : RoundTrip.Statement (.redMax z_ b_ a_) := fun hw _ => decode_encode32 _ rfl rfl (by
  have h : decodeWord32 (lookupField (encodeFields (.redMax z_ b_ a_))) = some (.redMax (readBack z_) (readBack b_) (readBack a_)) := rfl
  simpa only [readBack_eq] using h) hw

theorem RoundTrip.redMinn (z_ : BitVec 1) (b_ : BitVec 5) (a_ : BitVec 5) : RoundTrip.Statement (.redMinn z_ b_ a_) := fun hw _ => decode_encode32 _ rfl rfl (by
  have h : decodeWord32 (lookupField (encodeFields (.redMinn z_ b_ a_))) = some (.redMinn (readBack z_) (readBack b_) (readBack a_)) := rfl
  simpa only [readBack_eq] using h) hw

theorem RoundTrip.redMaxn (z_ : BitVec 1) (b_ : BitVec 5) (a_ : BitVec 5) : RoundTrip.Statement (.redMaxn z_ b_ a_) := fun hw _ => decode_encode32 _ rfl rfl (by
  have h : decodeWord32 (lookupField (encodeFields (.redMaxn z_ b_ a_))) = some (.redMaxn (readBack z_) (readBack b_) (readBack a_)) := rfl
  simpa only [readBack_eq] using h) hw

theorem RoundTrip.redFadd (z_ : BitVec 1) (b_ : BitVec 5) (a_ : BitVec 5) : RoundTrip.Statement (.redFadd z_ b_ a_) := fun hw _ => decode_encode32 _ rfl rfl (by
  have h : decodeWord32 (lookupField (encodeFields (.redFadd z_ b_ a_))) = some (.redFadd (readBack z_) (readBack b_) (readBack a_)) := rfl
  simpa only [readBack_eq] using h) hw

theorem RoundTrip.redFmin (z_ : BitVec 1) (b_ : BitVec 5) (a_ : BitVec 5) : RoundTrip.Statement (.redFmin z_ b_ a_) := fun hw _ => decode_encode32 _ rfl rfl (by
  have h : decodeWord32 (lookupField (encodeFields (.redFmin z_ b_ a_))) = some (.redFmin (readBack z_) (readBack b_) (readBack a_)) := rfl
  simpa only [readBack_eq] using h) hw

theorem RoundTrip.redFmax (z_ : BitVec 1) (b_ : BitVec 5) (a_ : BitVec 5) : RoundTrip.Statement (.redFmax z_ b_ a_) := fun hw _ => decode_encode32 _ rfl rfl (by
  have h : decodeWord32 (lookupField (encodeFields (.redFmax z_ b_ a_))) = some (.redFmax (readBack z_) (readBack b_) (readBack a_)) := rfl
  simpa only [readBack_eq] using h) hw

theorem RoundTrip.ldfD (a_ : BitVec 5) (d_ : BitVec 5) : RoundTrip.Statement (.ldfD a_ d_) := fun hw _ => decode_encode32 _ rfl rfl (by
  have h : decodeWord32 (lookupField (encodeFields (.ldfD a_ d_))) = some (.ldfD (readBack a_) (readBack d_)) := rfl
  simpa only [readBack_eq] using h) hw

theorem RoundTrip.steD (b_ : BitVec 5) (a_ : BitVec 5) : RoundTrip.Statement (.steD b_ a_) := fun hw _ => decode_encode32 _ rfl rfl (by
  have h : decodeWord32 (lookupField (encodeFields (.steD b_ a_))) = some (.steD (readBack b_) (readBack a_)) := rfl
  simpa only [readBack_eq] using h) hw

theorem RoundTrip.mbput (a_ : BitVec 5) (n_ : BitVec 5) : RoundTrip.Statement (.mbput a_ n_) := fun hw _ => decode_encode32 _ rfl rfl (by
  have h : decodeWord32 (lookupField (encodeFields (.mbput a_ n_))) = some (.mbput (readBack a_) (readBack n_)) := rfl
  simpa only [readBack_eq] using h) hw

theorem RoundTrip.mbget (n_ : BitVec 5) (d_ : BitVec 5) : RoundTrip.Statement (.mbget n_ d_) := fun hw _ => decode_encode32 _ rfl rfl (by
  have h : decodeWord32 (lookupField (encodeFields (.mbget n_ d_))) = some (.mbget (readBack n_) (readBack d_)) := rfl
  simpa only [readBack_eq] using h) hw

theorem RoundTrip.beq (o_ : BitVec 12) (b_ : BitVec 5) (a_ : BitVec 5) : RoundTrip.Statement (.beq o_ b_ a_) := fun hw _ => decode_encode32 _ rfl rfl (by
  have h : decodeWord32 (lookupField (encodeFields (.beq o_ b_ a_))) = some (.beq (readBack o_) (readBack b_) (readBack a_)) := rfl
  simpa only [readBack_eq] using h) hw

theorem RoundTrip.bne (o_ : BitVec 12) (b_ : BitVec 5) (a_ : BitVec 5) : RoundTrip.Statement (.bne o_ b_ a_) := fun hw _ => decode_encode32 _ rfl rfl (by
  have h : decodeWord32 (lookupField (encodeFields (.bne o_ b_ a_))) = some (.bne (readBack o_) (readBack b_) (readBack a_)) := rfl
  simpa only [readBack_eq] using h) hw

theorem RoundTrip.blt (o_ : BitVec 12) (b_ : BitVec 5) (a_ : BitVec 5) : RoundTrip.Statement (.blt o_ b_ a_) := fun hw _ => decode_encode32 _ rfl rfl (by
  have h : decodeWord32 (lookupField (encodeFields (.blt o_ b_ a_))) = some (.blt (readBack o_) (readBack b_) (readBack a_)) := rfl
  simpa only [readBack_eq] using h) hw

theorem RoundTrip.bge (o_ : BitVec 12) (b_ : BitVec 5) (a_ : BitVec 5) : RoundTrip.Statement (.bge o_ b_ a_) := fun hw _ => decode_encode32 _ rfl rfl (by
  have h : decodeWord32 (lookupField (encodeFields (.bge o_ b_ a_))) = some (.bge (readBack o_) (readBack b_) (readBack a_)) := rfl
  simpa only [readBack_eq] using h) hw

theorem RoundTrip.bltn (o_ : BitVec 12) (b_ : BitVec 5) (a_ : BitVec 5) : RoundTrip.Statement (.bltn o_ b_ a_) := fun hw _ => decode_encode32 _ rfl rfl (by
  have h : decodeWord32 (lookupField (encodeFields (.bltn o_ b_ a_))) = some (.bltn (readBack o_) (readBack b_) (readBack a_)) := rfl
  simpa only [readBack_eq] using h) hw

theorem RoundTrip.bgen (o_ : BitVec 12) (b_ : BitVec 5) (a_ : BitVec 5) : RoundTrip.Statement (.bgen o_ b_ a_) := fun hw _ => decode_encode32 _ rfl rfl (by
  have h : decodeWord32 (lookupField (encodeFields (.bgen o_ b_ a_))) = some (.bgen (readBack o_) (readBack b_) (readBack a_)) := rfl
  simpa only [readBack_eq] using h) hw

theorem RoundTrip.jal (o_ : BitVec 20) (d_ : BitVec 5) : RoundTrip.Statement (.jal o_ d_) := fun hw _ => decode_encode32 _ rfl rfl (by
  have h : decodeWord32 (lookupField (encodeFields (.jal o_ d_))) = some (.jal (readBack o_) (readBack d_)) := rfl
  simpa only [readBack_eq] using h) hw

theorem RoundTrip.jalr (i_ : BitVec 12) (a_ : BitVec 5) (d_ : BitVec 5) : RoundTrip.Statement (.jalr i_ a_ d_) := fun hw _ => decode_encode32 _ rfl rfl (by
  have h : decodeWord32 (lookupField (encodeFields (.jalr i_ a_ d_))) = some (.jalr (readBack i_) (readBack a_) (readBack d_)) := rfl
  simpa only [readBack_eq] using h) hw

theorem RoundTrip.fence (s_ : BitVec 3) : RoundTrip.Statement (.fence s_) := fun hw _ => decode_encode32 _ rfl rfl (by
  have h : decodeWord32 (lookupField (encodeFields (.fence s_))) = some (.fence (readBack s_)) := rfl
  simpa only [readBack_eq] using h) hw

theorem RoundTrip.acq (s_ : BitVec 3) : RoundTrip.Statement (.acq s_) := fun hw _ => decode_encode32 _ rfl rfl (by
  have h : decodeWord32 (lookupField (encodeFields (.acq s_))) = some (.acq (readBack s_)) := rfl
  simpa only [readBack_eq] using h) hw

theorem RoundTrip.rel (s_ : BitVec 3) : RoundTrip.Statement (.rel s_) := fun hw _ => decode_encode32 _ rfl rfl (by
  have h : decodeWord32 (lookupField (encodeFields (.rel s_))) = some (.rel (readBack s_)) := rfl
  simpa only [readBack_eq] using h) hw

theorem RoundTrip.phase (s_ : BitVec 3) : RoundTrip.Statement (.phase s_) := fun hw _ => decode_encode32 _ rfl rfl (by
  have h : decodeWord32 (lookupField (encodeFields (.phase s_))) = some (.phase (readBack s_)) := rfl
  simpa only [readBack_eq] using h) hw

theorem RoundTrip.vfence : RoundTrip.Statement (.vfence) := fun hw _ => decode_encode32 _ rfl rfl (rfl) hw

theorem RoundTrip.barw (w_ : BitVec 5) (d_ : BitVec 5) : RoundTrip.Statement (.barw w_ d_) := fun hw _ => decode_encode32 _ rfl rfl (by
  have h : decodeWord32 (lookupField (encodeFields (.barw w_ d_))) = some (.barw (readBack w_) (readBack d_)) := rfl
  simpa only [readBack_eq] using h) hw

theorem RoundTrip.park (a_ : BitVec 5) (d_ : BitVec 5) : RoundTrip.Statement (.park a_ d_) := fun hw _ => decode_encode32 _ rfl rfl (by
  have h : decodeWord32 (lookupField (encodeFields (.park a_ d_))) = some (.park (readBack a_) (readBack d_)) := rfl
  simpa only [readBack_eq] using h) hw

theorem RoundTrip.waitt (a_ : BitVec 5) : RoundTrip.Statement (.waitt a_) := fun hw _ => decode_encode32 _ rfl rfl (by
  have h : decodeWord32 (lookupField (encodeFields (.waitt a_))) = some (.waitt (readBack a_)) := rfl
  simpa only [readBack_eq] using h) hw

theorem RoundTrip.mfs (n_ : BitVec 12) (d_ : BitVec 5) : RoundTrip.Statement (.mfs n_ d_) := fun hw _ => decode_encode32 _ rfl rfl (by
  have h : decodeWord32 (lookupField (encodeFields (.mfs n_ d_))) = some (.mfs (readBack n_) (readBack d_)) := rfl
  simpa only [readBack_eq] using h) hw

theorem RoundTrip.mts (n_ : BitVec 12) (a_ : BitVec 5) : RoundTrip.Statement (.mts n_ a_) := fun hw _ => decode_encode32 _ rfl rfl (by
  have h : decodeWord32 (lookupField (encodeFields (.mts n_ a_))) = some (.mts (readBack n_) (readBack a_)) := rfl
  simpa only [readBack_eq] using h) hw

theorem RoundTrip.trap (i_ : BitVec 12) : RoundTrip.Statement (.trap i_) := fun hw _ => decode_encode32 _ rfl rfl (by
  have h : decodeWord32 (lookupField (encodeFields (.trap i_))) = some (.trap (readBack i_)) := rfl
  simpa only [readBack_eq] using h) hw

theorem RoundTrip.xret : RoundTrip.Statement (.xret) := fun hw _ => decode_encode32 _ rfl rfl (rfl) hw

theorem RoundTrip.savev (a_ : BitVec 5) (d_ : BitVec 5) : RoundTrip.Statement (.savev a_ d_) := fun hw _ => decode_encode32 _ rfl rfl (by
  have h : decodeWord32 (lookupField (encodeFields (.savev a_ d_))) = some (.savev (readBack a_) (readBack d_)) := rfl
  simpa only [readBack_eq] using h) hw

theorem RoundTrip.rstv (a_ : BitVec 5) (d_ : BitVec 5) : RoundTrip.Statement (.rstv a_ d_) := fun hw _ => decode_encode32 _ rfl rfl (by
  have h : decodeWord32 (lookupField (encodeFields (.rstv a_ d_))) = some (.rstv (readBack a_) (readBack d_)) := rfl
  simpa only [readBack_eq] using h) hw

theorem RoundTrip.migrate (b_ : BitVec 5) (a_ : BitVec 5) (d_ : BitVec 5) : RoundTrip.Statement (.migrate b_ a_ d_) := fun hw _ => decode_encode32 _ rfl rfl (by
  have h : decodeWord32 (lookupField (encodeFields (.migrate b_ a_ d_))) = some (.migrate (readBack b_) (readBack a_) (readBack d_)) := rfl
  simpa only [readBack_eq] using h) hw

theorem RoundTrip.fwdclr (b_ : BitVec 5) (a_ : BitVec 5) : RoundTrip.Statement (.fwdclr b_ a_) := fun hw _ => decode_encode32 _ rfl rfl (by
  have h : decodeWord32 (lookupField (encodeFields (.fwdclr b_ a_))) = some (.fwdclr (readBack b_) (readBack a_)) := rfl
  simpa only [readBack_eq] using h) hw

theorem RoundTrip.spawn (b_ : BitVec 5) (a_ : BitVec 5) (d_ : BitVec 5) : RoundTrip.Statement (.spawn b_ a_ d_) := fun hw _ => decode_encode32 _ rfl rfl (by
  have h : decodeWord32 (lookupField (encodeFields (.spawn b_ a_ d_))) = some (.spawn (readBack b_) (readBack a_) (readBack d_)) := rfl
  simpa only [readBack_eq] using h) hw

theorem RoundTrip.suspend (a_ : BitVec 5) : RoundTrip.Statement (.suspend a_) := fun hw _ => decode_encode32 _ rfl rfl (by
  have h : decodeWord32 (lookupField (encodeFields (.suspend a_))) = some (.suspend (readBack a_)) := rfl
  simpa only [readBack_eq] using h) hw

theorem RoundTrip.emit (d_ : BitVec 5) : RoundTrip.Statement (.emit d_) := fun hw _ => decode_encode32 _ rfl rfl (by
  have h : decodeWord32 (lookupField (encodeFields (.emit d_))) = some (.emit (readBack d_)) := rfl
  simpa only [readBack_eq] using h) hw

theorem RoundTrip.endI : RoundTrip.Statement (.endI) := fun hw _ => decode_encode32 _ rfl rfl (rfl) hw

theorem RoundTrip.hend : RoundTrip.Statement (.hend) := fun hw _ => decode_encode32 _ rfl rfl (rfl) hw

theorem RoundTrip.larm (b_ : BitVec 5) (a_ : BitVec 5) (d_ : BitVec 5) : RoundTrip.Statement (.larm b_ a_ d_) := fun hw _ => decode_encode32 _ rfl rfl (by
  have h : decodeWord32 (lookupField (encodeFields (.larm b_ a_ d_))) = some (.larm (readBack b_) (readBack a_) (readBack d_)) := rfl
  simpa only [readBack_eq] using h) hw

theorem RoundTrip.send (c_ : BitVec 2) (b_ : BitVec 5) (a_ : BitVec 5) : RoundTrip.Statement (.send c_ b_ a_) := fun hw _ => decode_encode32 _ rfl rfl (by
  have h : decodeWord32 (lookupField (encodeFields (.send c_ b_ a_))) = some (.send (readBack c_) (readBack b_) (readBack a_)) := rfl
  simpa only [readBack_eq] using h) hw

theorem RoundTrip.vaddVv (r_ : BitVec 2) (p_ : BitVec 1) (a_ : BitVec 1) (m_ : BitVec 1) (t_ : BitVec 5) (s_ : BitVec 5) (d_ : BitVec 5) : RoundTrip.Statement (.vaddVv r_ p_ a_ m_ t_ s_ d_) := fun hw _ => decode_encode32 _ rfl rfl (by
  have h : decodeWord32 (lookupField (encodeFields (.vaddVv r_ p_ a_ m_ t_ s_ d_))) = some (.vaddVv (readBack r_) (readBack p_) (readBack a_) (readBack m_) (readBack t_) (readBack s_) (readBack d_)) := rfl
  simpa only [readBack_eq] using h) hw

theorem RoundTrip.vaddVx (r_ : BitVec 2) (p_ : BitVec 1) (a_ : BitVec 1) (m_ : BitVec 1) (t_ : BitVec 5) (s_ : BitVec 5) (d_ : BitVec 5) : RoundTrip.Statement (.vaddVx r_ p_ a_ m_ t_ s_ d_) := fun hw _ => decode_encode32 _ rfl rfl (by
  have h : decodeWord32 (lookupField (encodeFields (.vaddVx r_ p_ a_ m_ t_ s_ d_))) = some (.vaddVx (readBack r_) (readBack p_) (readBack a_) (readBack m_) (readBack t_) (readBack s_) (readBack d_)) := rfl
  simpa only [readBack_eq] using h) hw

theorem RoundTrip.vsubVv (r_ : BitVec 2) (p_ : BitVec 1) (a_ : BitVec 1) (m_ : BitVec 1) (t_ : BitVec 5) (s_ : BitVec 5) (d_ : BitVec 5) : RoundTrip.Statement (.vsubVv r_ p_ a_ m_ t_ s_ d_) := fun hw _ => decode_encode32 _ rfl rfl (by
  have h : decodeWord32 (lookupField (encodeFields (.vsubVv r_ p_ a_ m_ t_ s_ d_))) = some (.vsubVv (readBack r_) (readBack p_) (readBack a_) (readBack m_) (readBack t_) (readBack s_) (readBack d_)) := rfl
  simpa only [readBack_eq] using h) hw

theorem RoundTrip.vsubVx (r_ : BitVec 2) (p_ : BitVec 1) (a_ : BitVec 1) (m_ : BitVec 1) (t_ : BitVec 5) (s_ : BitVec 5) (d_ : BitVec 5) : RoundTrip.Statement (.vsubVx r_ p_ a_ m_ t_ s_ d_) := fun hw _ => decode_encode32 _ rfl rfl (by
  have h : decodeWord32 (lookupField (encodeFields (.vsubVx r_ p_ a_ m_ t_ s_ d_))) = some (.vsubVx (readBack r_) (readBack p_) (readBack a_) (readBack m_) (readBack t_) (readBack s_) (readBack d_)) := rfl
  simpa only [readBack_eq] using h) hw

theorem RoundTrip.vrsubVx (r_ : BitVec 2) (p_ : BitVec 1) (a_ : BitVec 1) (m_ : BitVec 1) (t_ : BitVec 5) (s_ : BitVec 5) (d_ : BitVec 5) : RoundTrip.Statement (.vrsubVx r_ p_ a_ m_ t_ s_ d_) := fun hw _ => decode_encode32 _ rfl rfl (by
  have h : decodeWord32 (lookupField (encodeFields (.vrsubVx r_ p_ a_ m_ t_ s_ d_))) = some (.vrsubVx (readBack r_) (readBack p_) (readBack a_) (readBack m_) (readBack t_) (readBack s_) (readBack d_)) := rfl
  simpa only [readBack_eq] using h) hw

theorem RoundTrip.vmulVv (r_ : BitVec 2) (p_ : BitVec 1) (a_ : BitVec 1) (m_ : BitVec 1) (t_ : BitVec 5) (s_ : BitVec 5) (d_ : BitVec 5) : RoundTrip.Statement (.vmulVv r_ p_ a_ m_ t_ s_ d_) := fun hw _ => decode_encode32 _ rfl rfl (by
  have h : decodeWord32 (lookupField (encodeFields (.vmulVv r_ p_ a_ m_ t_ s_ d_))) = some (.vmulVv (readBack r_) (readBack p_) (readBack a_) (readBack m_) (readBack t_) (readBack s_) (readBack d_)) := rfl
  simpa only [readBack_eq] using h) hw

theorem RoundTrip.vmulVx (r_ : BitVec 2) (p_ : BitVec 1) (a_ : BitVec 1) (m_ : BitVec 1) (t_ : BitVec 5) (s_ : BitVec 5) (d_ : BitVec 5) : RoundTrip.Statement (.vmulVx r_ p_ a_ m_ t_ s_ d_) := fun hw _ => decode_encode32 _ rfl rfl (by
  have h : decodeWord32 (lookupField (encodeFields (.vmulVx r_ p_ a_ m_ t_ s_ d_))) = some (.vmulVx (readBack r_) (readBack p_) (readBack a_) (readBack m_) (readBack t_) (readBack s_) (readBack d_)) := rfl
  simpa only [readBack_eq] using h) hw

theorem RoundTrip.vmulhVv (r_ : BitVec 2) (p_ : BitVec 1) (a_ : BitVec 1) (m_ : BitVec 1) (t_ : BitVec 5) (s_ : BitVec 5) (d_ : BitVec 5) : RoundTrip.Statement (.vmulhVv r_ p_ a_ m_ t_ s_ d_) := fun hw _ => decode_encode32 _ rfl rfl (by
  have h : decodeWord32 (lookupField (encodeFields (.vmulhVv r_ p_ a_ m_ t_ s_ d_))) = some (.vmulhVv (readBack r_) (readBack p_) (readBack a_) (readBack m_) (readBack t_) (readBack s_) (readBack d_)) := rfl
  simpa only [readBack_eq] using h) hw

theorem RoundTrip.vmulhVx (r_ : BitVec 2) (p_ : BitVec 1) (a_ : BitVec 1) (m_ : BitVec 1) (t_ : BitVec 5) (s_ : BitVec 5) (d_ : BitVec 5) : RoundTrip.Statement (.vmulhVx r_ p_ a_ m_ t_ s_ d_) := fun hw _ => decode_encode32 _ rfl rfl (by
  have h : decodeWord32 (lookupField (encodeFields (.vmulhVx r_ p_ a_ m_ t_ s_ d_))) = some (.vmulhVx (readBack r_) (readBack p_) (readBack a_) (readBack m_) (readBack t_) (readBack s_) (readBack d_)) := rfl
  simpa only [readBack_eq] using h) hw

theorem RoundTrip.vdivVv (r_ : BitVec 2) (p_ : BitVec 1) (a_ : BitVec 1) (m_ : BitVec 1) (t_ : BitVec 5) (s_ : BitVec 5) (d_ : BitVec 5) : RoundTrip.Statement (.vdivVv r_ p_ a_ m_ t_ s_ d_) := fun hw _ => decode_encode32 _ rfl rfl (by
  have h : decodeWord32 (lookupField (encodeFields (.vdivVv r_ p_ a_ m_ t_ s_ d_))) = some (.vdivVv (readBack r_) (readBack p_) (readBack a_) (readBack m_) (readBack t_) (readBack s_) (readBack d_)) := rfl
  simpa only [readBack_eq] using h) hw

theorem RoundTrip.vdivVx (r_ : BitVec 2) (p_ : BitVec 1) (a_ : BitVec 1) (m_ : BitVec 1) (t_ : BitVec 5) (s_ : BitVec 5) (d_ : BitVec 5) : RoundTrip.Statement (.vdivVx r_ p_ a_ m_ t_ s_ d_) := fun hw _ => decode_encode32 _ rfl rfl (by
  have h : decodeWord32 (lookupField (encodeFields (.vdivVx r_ p_ a_ m_ t_ s_ d_))) = some (.vdivVx (readBack r_) (readBack p_) (readBack a_) (readBack m_) (readBack t_) (readBack s_) (readBack d_)) := rfl
  simpa only [readBack_eq] using h) hw

theorem RoundTrip.vremVv (r_ : BitVec 2) (p_ : BitVec 1) (a_ : BitVec 1) (m_ : BitVec 1) (t_ : BitVec 5) (s_ : BitVec 5) (d_ : BitVec 5) : RoundTrip.Statement (.vremVv r_ p_ a_ m_ t_ s_ d_) := fun hw _ => decode_encode32 _ rfl rfl (by
  have h : decodeWord32 (lookupField (encodeFields (.vremVv r_ p_ a_ m_ t_ s_ d_))) = some (.vremVv (readBack r_) (readBack p_) (readBack a_) (readBack m_) (readBack t_) (readBack s_) (readBack d_)) := rfl
  simpa only [readBack_eq] using h) hw

theorem RoundTrip.vremVx (r_ : BitVec 2) (p_ : BitVec 1) (a_ : BitVec 1) (m_ : BitVec 1) (t_ : BitVec 5) (s_ : BitVec 5) (d_ : BitVec 5) : RoundTrip.Statement (.vremVx r_ p_ a_ m_ t_ s_ d_) := fun hw _ => decode_encode32 _ rfl rfl (by
  have h : decodeWord32 (lookupField (encodeFields (.vremVx r_ p_ a_ m_ t_ s_ d_))) = some (.vremVx (readBack r_) (readBack p_) (readBack a_) (readBack m_) (readBack t_) (readBack s_) (readBack d_)) := rfl
  simpa only [readBack_eq] using h) hw

theorem RoundTrip.vminVv (r_ : BitVec 2) (p_ : BitVec 1) (a_ : BitVec 1) (m_ : BitVec 1) (t_ : BitVec 5) (s_ : BitVec 5) (d_ : BitVec 5) : RoundTrip.Statement (.vminVv r_ p_ a_ m_ t_ s_ d_) := fun hw _ => decode_encode32 _ rfl rfl (by
  have h : decodeWord32 (lookupField (encodeFields (.vminVv r_ p_ a_ m_ t_ s_ d_))) = some (.vminVv (readBack r_) (readBack p_) (readBack a_) (readBack m_) (readBack t_) (readBack s_) (readBack d_)) := rfl
  simpa only [readBack_eq] using h) hw

theorem RoundTrip.vminVx (r_ : BitVec 2) (p_ : BitVec 1) (a_ : BitVec 1) (m_ : BitVec 1) (t_ : BitVec 5) (s_ : BitVec 5) (d_ : BitVec 5) : RoundTrip.Statement (.vminVx r_ p_ a_ m_ t_ s_ d_) := fun hw _ => decode_encode32 _ rfl rfl (by
  have h : decodeWord32 (lookupField (encodeFields (.vminVx r_ p_ a_ m_ t_ s_ d_))) = some (.vminVx (readBack r_) (readBack p_) (readBack a_) (readBack m_) (readBack t_) (readBack s_) (readBack d_)) := rfl
  simpa only [readBack_eq] using h) hw

theorem RoundTrip.vmaxVv (r_ : BitVec 2) (p_ : BitVec 1) (a_ : BitVec 1) (m_ : BitVec 1) (t_ : BitVec 5) (s_ : BitVec 5) (d_ : BitVec 5) : RoundTrip.Statement (.vmaxVv r_ p_ a_ m_ t_ s_ d_) := fun hw _ => decode_encode32 _ rfl rfl (by
  have h : decodeWord32 (lookupField (encodeFields (.vmaxVv r_ p_ a_ m_ t_ s_ d_))) = some (.vmaxVv (readBack r_) (readBack p_) (readBack a_) (readBack m_) (readBack t_) (readBack s_) (readBack d_)) := rfl
  simpa only [readBack_eq] using h) hw

theorem RoundTrip.vmaxVx (r_ : BitVec 2) (p_ : BitVec 1) (a_ : BitVec 1) (m_ : BitVec 1) (t_ : BitVec 5) (s_ : BitVec 5) (d_ : BitVec 5) : RoundTrip.Statement (.vmaxVx r_ p_ a_ m_ t_ s_ d_) := fun hw _ => decode_encode32 _ rfl rfl (by
  have h : decodeWord32 (lookupField (encodeFields (.vmaxVx r_ p_ a_ m_ t_ s_ d_))) = some (.vmaxVx (readBack r_) (readBack p_) (readBack a_) (readBack m_) (readBack t_) (readBack s_) (readBack d_)) := rfl
  simpa only [readBack_eq] using h) hw

theorem RoundTrip.vsaddVv (r_ : BitVec 2) (p_ : BitVec 1) (a_ : BitVec 1) (m_ : BitVec 1) (t_ : BitVec 5) (s_ : BitVec 5) (d_ : BitVec 5) : RoundTrip.Statement (.vsaddVv r_ p_ a_ m_ t_ s_ d_) := fun hw _ => decode_encode32 _ rfl rfl (by
  have h : decodeWord32 (lookupField (encodeFields (.vsaddVv r_ p_ a_ m_ t_ s_ d_))) = some (.vsaddVv (readBack r_) (readBack p_) (readBack a_) (readBack m_) (readBack t_) (readBack s_) (readBack d_)) := rfl
  simpa only [readBack_eq] using h) hw

theorem RoundTrip.vsaddVx (r_ : BitVec 2) (p_ : BitVec 1) (a_ : BitVec 1) (m_ : BitVec 1) (t_ : BitVec 5) (s_ : BitVec 5) (d_ : BitVec 5) : RoundTrip.Statement (.vsaddVx r_ p_ a_ m_ t_ s_ d_) := fun hw _ => decode_encode32 _ rfl rfl (by
  have h : decodeWord32 (lookupField (encodeFields (.vsaddVx r_ p_ a_ m_ t_ s_ d_))) = some (.vsaddVx (readBack r_) (readBack p_) (readBack a_) (readBack m_) (readBack t_) (readBack s_) (readBack d_)) := rfl
  simpa only [readBack_eq] using h) hw

theorem RoundTrip.vssubVv (r_ : BitVec 2) (p_ : BitVec 1) (a_ : BitVec 1) (m_ : BitVec 1) (t_ : BitVec 5) (s_ : BitVec 5) (d_ : BitVec 5) : RoundTrip.Statement (.vssubVv r_ p_ a_ m_ t_ s_ d_) := fun hw _ => decode_encode32 _ rfl rfl (by
  have h : decodeWord32 (lookupField (encodeFields (.vssubVv r_ p_ a_ m_ t_ s_ d_))) = some (.vssubVv (readBack r_) (readBack p_) (readBack a_) (readBack m_) (readBack t_) (readBack s_) (readBack d_)) := rfl
  simpa only [readBack_eq] using h) hw

theorem RoundTrip.vssubVx (r_ : BitVec 2) (p_ : BitVec 1) (a_ : BitVec 1) (m_ : BitVec 1) (t_ : BitVec 5) (s_ : BitVec 5) (d_ : BitVec 5) : RoundTrip.Statement (.vssubVx r_ p_ a_ m_ t_ s_ d_) := fun hw _ => decode_encode32 _ rfl rfl (by
  have h : decodeWord32 (lookupField (encodeFields (.vssubVx r_ p_ a_ m_ t_ s_ d_))) = some (.vssubVx (readBack r_) (readBack p_) (readBack a_) (readBack m_) (readBack t_) (readBack s_) (readBack d_)) := rfl
  simpa only [readBack_eq] using h) hw

theorem RoundTrip.vidV (a_ : BitVec 1) (m_ : BitVec 1) (d_ : BitVec 5) : RoundTrip.Statement (.vidV a_ m_ d_) := fun hw _ => decode_encode32 _ rfl rfl (by
  have h : decodeWord32 (lookupField (encodeFields (.vidV a_ m_ d_))) = some (.vidV (readBack a_) (readBack m_) (readBack d_)) := rfl
  simpa only [readBack_eq] using h) hw

theorem RoundTrip.vpopcV (r_ : BitVec 2) (p_ : BitVec 1) (a_ : BitVec 1) (m_ : BitVec 1) (t_ : BitVec 5) (d_ : BitVec 5) : RoundTrip.Statement (.vpopcV r_ p_ a_ m_ t_ d_) := fun hw _ => decode_encode32 _ rfl rfl (by
  have h : decodeWord32 (lookupField (encodeFields (.vpopcV r_ p_ a_ m_ t_ d_))) = some (.vpopcV (readBack r_) (readBack p_) (readBack a_) (readBack m_) (readBack t_) (readBack d_)) := rfl
  simpa only [readBack_eq] using h) hw

theorem RoundTrip.vviewV (r_ : BitVec 2) (p_ : BitVec 1) (a_ : BitVec 1) (m_ : BitVec 1) (t_ : BitVec 5) (d_ : BitVec 5) : RoundTrip.Statement (.vviewV r_ p_ a_ m_ t_ d_) := fun hw _ => decode_encode32 _ rfl rfl (by
  have h : decodeWord32 (lookupField (encodeFields (.vviewV r_ p_ a_ m_ t_ d_))) = some (.vviewV (readBack r_) (readBack p_) (readBack a_) (readBack m_) (readBack t_) (readBack d_)) := rfl
  simpa only [readBack_eq] using h) hw

theorem RoundTrip.vandVv (r_ : BitVec 2) (p_ : BitVec 1) (a_ : BitVec 1) (m_ : BitVec 1) (t_ : BitVec 5) (s_ : BitVec 5) (d_ : BitVec 5) : RoundTrip.Statement (.vandVv r_ p_ a_ m_ t_ s_ d_) := fun hw _ => decode_encode32 _ rfl rfl (by
  have h : decodeWord32 (lookupField (encodeFields (.vandVv r_ p_ a_ m_ t_ s_ d_))) = some (.vandVv (readBack r_) (readBack p_) (readBack a_) (readBack m_) (readBack t_) (readBack s_) (readBack d_)) := rfl
  simpa only [readBack_eq] using h) hw

theorem RoundTrip.vandVx (r_ : BitVec 2) (p_ : BitVec 1) (a_ : BitVec 1) (m_ : BitVec 1) (t_ : BitVec 5) (s_ : BitVec 5) (d_ : BitVec 5) : RoundTrip.Statement (.vandVx r_ p_ a_ m_ t_ s_ d_) := fun hw _ => decode_encode32 _ rfl rfl (by
  have h : decodeWord32 (lookupField (encodeFields (.vandVx r_ p_ a_ m_ t_ s_ d_))) = some (.vandVx (readBack r_) (readBack p_) (readBack a_) (readBack m_) (readBack t_) (readBack s_) (readBack d_)) := rfl
  simpa only [readBack_eq] using h) hw

theorem RoundTrip.vorVv (r_ : BitVec 2) (p_ : BitVec 1) (a_ : BitVec 1) (m_ : BitVec 1) (t_ : BitVec 5) (s_ : BitVec 5) (d_ : BitVec 5) : RoundTrip.Statement (.vorVv r_ p_ a_ m_ t_ s_ d_) := fun hw _ => decode_encode32 _ rfl rfl (by
  have h : decodeWord32 (lookupField (encodeFields (.vorVv r_ p_ a_ m_ t_ s_ d_))) = some (.vorVv (readBack r_) (readBack p_) (readBack a_) (readBack m_) (readBack t_) (readBack s_) (readBack d_)) := rfl
  simpa only [readBack_eq] using h) hw

theorem RoundTrip.vorVx (r_ : BitVec 2) (p_ : BitVec 1) (a_ : BitVec 1) (m_ : BitVec 1) (t_ : BitVec 5) (s_ : BitVec 5) (d_ : BitVec 5) : RoundTrip.Statement (.vorVx r_ p_ a_ m_ t_ s_ d_) := fun hw _ => decode_encode32 _ rfl rfl (by
  have h : decodeWord32 (lookupField (encodeFields (.vorVx r_ p_ a_ m_ t_ s_ d_))) = some (.vorVx (readBack r_) (readBack p_) (readBack a_) (readBack m_) (readBack t_) (readBack s_) (readBack d_)) := rfl
  simpa only [readBack_eq] using h) hw

theorem RoundTrip.vxorVv (r_ : BitVec 2) (p_ : BitVec 1) (a_ : BitVec 1) (m_ : BitVec 1) (t_ : BitVec 5) (s_ : BitVec 5) (d_ : BitVec 5) : RoundTrip.Statement (.vxorVv r_ p_ a_ m_ t_ s_ d_) := fun hw _ => decode_encode32 _ rfl rfl (by
  have h : decodeWord32 (lookupField (encodeFields (.vxorVv r_ p_ a_ m_ t_ s_ d_))) = some (.vxorVv (readBack r_) (readBack p_) (readBack a_) (readBack m_) (readBack t_) (readBack s_) (readBack d_)) := rfl
  simpa only [readBack_eq] using h) hw

theorem RoundTrip.vxorVx (r_ : BitVec 2) (p_ : BitVec 1) (a_ : BitVec 1) (m_ : BitVec 1) (t_ : BitVec 5) (s_ : BitVec 5) (d_ : BitVec 5) : RoundTrip.Statement (.vxorVx r_ p_ a_ m_ t_ s_ d_) := fun hw _ => decode_encode32 _ rfl rfl (by
  have h : decodeWord32 (lookupField (encodeFields (.vxorVx r_ p_ a_ m_ t_ s_ d_))) = some (.vxorVx (readBack r_) (readBack p_) (readBack a_) (readBack m_) (readBack t_) (readBack s_) (readBack d_)) := rfl
  simpa only [readBack_eq] using h) hw

theorem RoundTrip.vandnVv (r_ : BitVec 2) (p_ : BitVec 1) (a_ : BitVec 1) (m_ : BitVec 1) (t_ : BitVec 5) (s_ : BitVec 5) (d_ : BitVec 5) : RoundTrip.Statement (.vandnVv r_ p_ a_ m_ t_ s_ d_) := fun hw _ => decode_encode32 _ rfl rfl (by
  have h : decodeWord32 (lookupField (encodeFields (.vandnVv r_ p_ a_ m_ t_ s_ d_))) = some (.vandnVv (readBack r_) (readBack p_) (readBack a_) (readBack m_) (readBack t_) (readBack s_) (readBack d_)) := rfl
  simpa only [readBack_eq] using h) hw

theorem RoundTrip.vnotV (r_ : BitVec 2) (p_ : BitVec 1) (a_ : BitVec 1) (m_ : BitVec 1) (t_ : BitVec 5) (d_ : BitVec 5) : RoundTrip.Statement (.vnotV r_ p_ a_ m_ t_ d_) := fun hw _ => decode_encode32 _ rfl rfl (by
  have h : decodeWord32 (lookupField (encodeFields (.vnotV r_ p_ a_ m_ t_ d_))) = some (.vnotV (readBack r_) (readBack p_) (readBack a_) (readBack m_) (readBack t_) (readBack d_)) := rfl
  simpa only [readBack_eq] using h) hw

theorem RoundTrip.vshlVv (r_ : BitVec 2) (p_ : BitVec 1) (a_ : BitVec 1) (m_ : BitVec 1) (t_ : BitVec 5) (s_ : BitVec 5) (d_ : BitVec 5) : RoundTrip.Statement (.vshlVv r_ p_ a_ m_ t_ s_ d_) := fun hw _ => decode_encode32 _ rfl rfl (by
  have h : decodeWord32 (lookupField (encodeFields (.vshlVv r_ p_ a_ m_ t_ s_ d_))) = some (.vshlVv (readBack r_) (readBack p_) (readBack a_) (readBack m_) (readBack t_) (readBack s_) (readBack d_)) := rfl
  simpa only [readBack_eq] using h) hw

theorem RoundTrip.vshlVx (r_ : BitVec 2) (p_ : BitVec 1) (a_ : BitVec 1) (m_ : BitVec 1) (t_ : BitVec 5) (s_ : BitVec 5) (d_ : BitVec 5) : RoundTrip.Statement (.vshlVx r_ p_ a_ m_ t_ s_ d_) := fun hw _ => decode_encode32 _ rfl rfl (by
  have h : decodeWord32 (lookupField (encodeFields (.vshlVx r_ p_ a_ m_ t_ s_ d_))) = some (.vshlVx (readBack r_) (readBack p_) (readBack a_) (readBack m_) (readBack t_) (readBack s_) (readBack d_)) := rfl
  simpa only [readBack_eq] using h) hw

theorem RoundTrip.vshrVv (r_ : BitVec 2) (p_ : BitVec 1) (a_ : BitVec 1) (m_ : BitVec 1) (t_ : BitVec 5) (s_ : BitVec 5) (d_ : BitVec 5) : RoundTrip.Statement (.vshrVv r_ p_ a_ m_ t_ s_ d_) := fun hw _ => decode_encode32 _ rfl rfl (by
  have h : decodeWord32 (lookupField (encodeFields (.vshrVv r_ p_ a_ m_ t_ s_ d_))) = some (.vshrVv (readBack r_) (readBack p_) (readBack a_) (readBack m_) (readBack t_) (readBack s_) (readBack d_)) := rfl
  simpa only [readBack_eq] using h) hw

theorem RoundTrip.vshrVx (r_ : BitVec 2) (p_ : BitVec 1) (a_ : BitVec 1) (m_ : BitVec 1) (t_ : BitVec 5) (s_ : BitVec 5) (d_ : BitVec 5) : RoundTrip.Statement (.vshrVx r_ p_ a_ m_ t_ s_ d_) := fun hw _ => decode_encode32 _ rfl rfl (by
  have h : decodeWord32 (lookupField (encodeFields (.vshrVx r_ p_ a_ m_ t_ s_ d_))) = some (.vshrVx (readBack r_) (readBack p_) (readBack a_) (readBack m_) (readBack t_) (readBack s_) (readBack d_)) := rfl
  simpa only [readBack_eq] using h) hw

theorem RoundTrip.vsraVv (r_ : BitVec 2) (p_ : BitVec 1) (a_ : BitVec 1) (m_ : BitVec 1) (t_ : BitVec 5) (s_ : BitVec 5) (d_ : BitVec 5) : RoundTrip.Statement (.vsraVv r_ p_ a_ m_ t_ s_ d_) := fun hw _ => decode_encode32 _ rfl rfl (by
  have h : decodeWord32 (lookupField (encodeFields (.vsraVv r_ p_ a_ m_ t_ s_ d_))) = some (.vsraVv (readBack r_) (readBack p_) (readBack a_) (readBack m_) (readBack t_) (readBack s_) (readBack d_)) := rfl
  simpa only [readBack_eq] using h) hw

theorem RoundTrip.vsraVx (r_ : BitVec 2) (p_ : BitVec 1) (a_ : BitVec 1) (m_ : BitVec 1) (t_ : BitVec 5) (s_ : BitVec 5) (d_ : BitVec 5) : RoundTrip.Statement (.vsraVx r_ p_ a_ m_ t_ s_ d_) := fun hw _ => decode_encode32 _ rfl rfl (by
  have h : decodeWord32 (lookupField (encodeFields (.vsraVx r_ p_ a_ m_ t_ s_ d_))) = some (.vsraVx (readBack r_) (readBack p_) (readBack a_) (readBack m_) (readBack t_) (readBack s_) (readBack d_)) := rfl
  simpa only [readBack_eq] using h) hw

theorem RoundTrip.vmseqVv (r_ : BitVec 2) (p_ : BitVec 1) (a_ : BitVec 1) (m_ : BitVec 1) (t_ : BitVec 5) (s_ : BitVec 5) (d_ : BitVec 5) : RoundTrip.Statement (.vmseqVv r_ p_ a_ m_ t_ s_ d_) := fun hw _ => decode_encode32 _ rfl rfl (by
  have h : decodeWord32 (lookupField (encodeFields (.vmseqVv r_ p_ a_ m_ t_ s_ d_))) = some (.vmseqVv (readBack r_) (readBack p_) (readBack a_) (readBack m_) (readBack t_) (readBack s_) (readBack d_)) := rfl
  simpa only [readBack_eq] using h) hw

theorem RoundTrip.vmseqVx (r_ : BitVec 2) (p_ : BitVec 1) (a_ : BitVec 1) (m_ : BitVec 1) (t_ : BitVec 5) (s_ : BitVec 5) (d_ : BitVec 5) : RoundTrip.Statement (.vmseqVx r_ p_ a_ m_ t_ s_ d_) := fun hw _ => decode_encode32 _ rfl rfl (by
  have h : decodeWord32 (lookupField (encodeFields (.vmseqVx r_ p_ a_ m_ t_ s_ d_))) = some (.vmseqVx (readBack r_) (readBack p_) (readBack a_) (readBack m_) (readBack t_) (readBack s_) (readBack d_)) := rfl
  simpa only [readBack_eq] using h) hw

theorem RoundTrip.vmsneVv (r_ : BitVec 2) (p_ : BitVec 1) (a_ : BitVec 1) (m_ : BitVec 1) (t_ : BitVec 5) (s_ : BitVec 5) (d_ : BitVec 5) : RoundTrip.Statement (.vmsneVv r_ p_ a_ m_ t_ s_ d_) := fun hw _ => decode_encode32 _ rfl rfl (by
  have h : decodeWord32 (lookupField (encodeFields (.vmsneVv r_ p_ a_ m_ t_ s_ d_))) = some (.vmsneVv (readBack r_) (readBack p_) (readBack a_) (readBack m_) (readBack t_) (readBack s_) (readBack d_)) := rfl
  simpa only [readBack_eq] using h) hw

theorem RoundTrip.vmsneVx (r_ : BitVec 2) (p_ : BitVec 1) (a_ : BitVec 1) (m_ : BitVec 1) (t_ : BitVec 5) (s_ : BitVec 5) (d_ : BitVec 5) : RoundTrip.Statement (.vmsneVx r_ p_ a_ m_ t_ s_ d_) := fun hw _ => decode_encode32 _ rfl rfl (by
  have h : decodeWord32 (lookupField (encodeFields (.vmsneVx r_ p_ a_ m_ t_ s_ d_))) = some (.vmsneVx (readBack r_) (readBack p_) (readBack a_) (readBack m_) (readBack t_) (readBack s_) (readBack d_)) := rfl
  simpa only [readBack_eq] using h) hw

theorem RoundTrip.vmsltVv (r_ : BitVec 2) (p_ : BitVec 1) (a_ : BitVec 1) (m_ : BitVec 1) (t_ : BitVec 5) (s_ : BitVec 5) (d_ : BitVec 5) : RoundTrip.Statement (.vmsltVv r_ p_ a_ m_ t_ s_ d_) := fun hw _ => decode_encode32 _ rfl rfl (by
  have h : decodeWord32 (lookupField (encodeFields (.vmsltVv r_ p_ a_ m_ t_ s_ d_))) = some (.vmsltVv (readBack r_) (readBack p_) (readBack a_) (readBack m_) (readBack t_) (readBack s_) (readBack d_)) := rfl
  simpa only [readBack_eq] using h) hw

theorem RoundTrip.vmsltVx (r_ : BitVec 2) (p_ : BitVec 1) (a_ : BitVec 1) (m_ : BitVec 1) (t_ : BitVec 5) (s_ : BitVec 5) (d_ : BitVec 5) : RoundTrip.Statement (.vmsltVx r_ p_ a_ m_ t_ s_ d_) := fun hw _ => decode_encode32 _ rfl rfl (by
  have h : decodeWord32 (lookupField (encodeFields (.vmsltVx r_ p_ a_ m_ t_ s_ d_))) = some (.vmsltVx (readBack r_) (readBack p_) (readBack a_) (readBack m_) (readBack t_) (readBack s_) (readBack d_)) := rfl
  simpa only [readBack_eq] using h) hw

theorem RoundTrip.vmsleVv (r_ : BitVec 2) (p_ : BitVec 1) (a_ : BitVec 1) (m_ : BitVec 1) (t_ : BitVec 5) (s_ : BitVec 5) (d_ : BitVec 5) : RoundTrip.Statement (.vmsleVv r_ p_ a_ m_ t_ s_ d_) := fun hw _ => decode_encode32 _ rfl rfl (by
  have h : decodeWord32 (lookupField (encodeFields (.vmsleVv r_ p_ a_ m_ t_ s_ d_))) = some (.vmsleVv (readBack r_) (readBack p_) (readBack a_) (readBack m_) (readBack t_) (readBack s_) (readBack d_)) := rfl
  simpa only [readBack_eq] using h) hw

theorem RoundTrip.vmsleVx (r_ : BitVec 2) (p_ : BitVec 1) (a_ : BitVec 1) (m_ : BitVec 1) (t_ : BitVec 5) (s_ : BitVec 5) (d_ : BitVec 5) : RoundTrip.Statement (.vmsleVx r_ p_ a_ m_ t_ s_ d_) := fun hw _ => decode_encode32 _ rfl rfl (by
  have h : decodeWord32 (lookupField (encodeFields (.vmsleVx r_ p_ a_ m_ t_ s_ d_))) = some (.vmsleVx (readBack r_) (readBack p_) (readBack a_) (readBack m_) (readBack t_) (readBack s_) (readBack d_)) := rfl
  simpa only [readBack_eq] using h) hw

theorem RoundTrip.vmsgtVx (r_ : BitVec 2) (p_ : BitVec 1) (a_ : BitVec 1) (m_ : BitVec 1) (t_ : BitVec 5) (s_ : BitVec 5) (d_ : BitVec 5) : RoundTrip.Statement (.vmsgtVx r_ p_ a_ m_ t_ s_ d_) := fun hw _ => decode_encode32 _ rfl rfl (by
  have h : decodeWord32 (lookupField (encodeFields (.vmsgtVx r_ p_ a_ m_ t_ s_ d_))) = some (.vmsgtVx (readBack r_) (readBack p_) (readBack a_) (readBack m_) (readBack t_) (readBack s_) (readBack d_)) := rfl
  simpa only [readBack_eq] using h) hw

theorem RoundTrip.vmsgeVx (r_ : BitVec 2) (p_ : BitVec 1) (a_ : BitVec 1) (m_ : BitVec 1) (t_ : BitVec 5) (s_ : BitVec 5) (d_ : BitVec 5) : RoundTrip.Statement (.vmsgeVx r_ p_ a_ m_ t_ s_ d_) := fun hw _ => decode_encode32 _ rfl rfl (by
  have h : decodeWord32 (lookupField (encodeFields (.vmsgeVx r_ p_ a_ m_ t_ s_ d_))) = some (.vmsgeVx (readBack r_) (readBack p_) (readBack a_) (readBack m_) (readBack t_) (readBack s_) (readBack d_)) := rfl
  simpa only [readBack_eq] using h) hw

theorem RoundTrip.vmandMm (a_ : BitVec 1) (m_ : BitVec 1) (t_ : BitVec 5) (s_ : BitVec 5) (d_ : BitVec 5) : RoundTrip.Statement (.vmandMm a_ m_ t_ s_ d_) := fun hw _ => decode_encode32 _ rfl rfl (by
  have h : decodeWord32 (lookupField (encodeFields (.vmandMm a_ m_ t_ s_ d_))) = some (.vmandMm (readBack a_) (readBack m_) (readBack t_) (readBack s_) (readBack d_)) := rfl
  simpa only [readBack_eq] using h) hw

theorem RoundTrip.vmorMm (a_ : BitVec 1) (m_ : BitVec 1) (t_ : BitVec 5) (s_ : BitVec 5) (d_ : BitVec 5) : RoundTrip.Statement (.vmorMm a_ m_ t_ s_ d_) := fun hw _ => decode_encode32 _ rfl rfl (by
  have h : decodeWord32 (lookupField (encodeFields (.vmorMm a_ m_ t_ s_ d_))) = some (.vmorMm (readBack a_) (readBack m_) (readBack t_) (readBack s_) (readBack d_)) := rfl
  simpa only [readBack_eq] using h) hw

theorem RoundTrip.vmxorMm (a_ : BitVec 1) (m_ : BitVec 1) (t_ : BitVec 5) (s_ : BitVec 5) (d_ : BitVec 5) : RoundTrip.Statement (.vmxorMm a_ m_ t_ s_ d_) := fun hw _ => decode_encode32 _ rfl rfl (by
  have h : decodeWord32 (lookupField (encodeFields (.vmxorMm a_ m_ t_ s_ d_))) = some (.vmxorMm (readBack a_) (readBack m_) (readBack t_) (readBack s_) (readBack d_)) := rfl
  simpa only [readBack_eq] using h) hw

theorem RoundTrip.vmandnMm (a_ : BitVec 1) (m_ : BitVec 1) (t_ : BitVec 5) (s_ : BitVec 5) (d_ : BitVec 5) : RoundTrip.Statement (.vmandnMm a_ m_ t_ s_ d_) := fun hw _ => decode_encode32 _ rfl rfl (by
  have h : decodeWord32 (lookupField (encodeFields (.vmandnMm a_ m_ t_ s_ d_))) = some (.vmandnMm (readBack a_) (readBack m_) (readBack t_) (readBack s_) (readBack d_)) := rfl
  simpa only [readBack_eq] using h) hw

theorem RoundTrip.vmergeVv (a_ : BitVec 1) (t_ : BitVec 5) (s_ : BitVec 5) (d_ : BitVec 5) : RoundTrip.Statement (.vmergeVv a_ t_ s_ d_) := fun hw _ => decode_encode32 _ rfl rfl (by
  have h : decodeWord32 (lookupField (encodeFields (.vmergeVv a_ t_ s_ d_))) = some (.vmergeVv (readBack a_) (readBack t_) (readBack s_) (readBack d_)) := rfl
  simpa only [readBack_eq] using h) hw

theorem RoundTrip.vmergeVx (a_ : BitVec 1) (t_ : BitVec 5) (s_ : BitVec 5) (d_ : BitVec 5) : RoundTrip.Statement (.vmergeVx a_ t_ s_ d_) := fun hw _ => decode_encode32 _ rfl rfl (by
  have h : decodeWord32 (lookupField (encodeFields (.vmergeVx a_ t_ s_ d_))) = some (.vmergeVx (readBack a_) (readBack t_) (readBack s_) (readBack d_)) := rfl
  simpa only [readBack_eq] using h) hw

theorem RoundTrip.vmvVv (r_ : BitVec 2) (p_ : BitVec 1) (a_ : BitVec 1) (m_ : BitVec 1) (t_ : BitVec 5) (d_ : BitVec 5) : RoundTrip.Statement (.vmvVv r_ p_ a_ m_ t_ d_) := fun hw _ => decode_encode32 _ rfl rfl (by
  have h : decodeWord32 (lookupField (encodeFields (.vmvVv r_ p_ a_ m_ t_ d_))) = some (.vmvVv (readBack r_) (readBack p_) (readBack a_) (readBack m_) (readBack t_) (readBack d_)) := rfl
  simpa only [readBack_eq] using h) hw

theorem RoundTrip.vmvVx (a_ : BitVec 1) (m_ : BitVec 1) (s_ : BitVec 5) (d_ : BitVec 5) : RoundTrip.Statement (.vmvVx a_ m_ s_ d_) := fun hw _ => decode_encode32 _ rfl rfl (by
  have h : decodeWord32 (lookupField (encodeFields (.vmvVx a_ m_ s_ d_))) = some (.vmvVx (readBack a_) (readBack m_) (readBack s_) (readBack d_)) := rfl
  simpa only [readBack_eq] using h) hw

theorem RoundTrip.vmvXs (t_ : BitVec 5) (d_ : BitVec 5) : RoundTrip.Statement (.vmvXs t_ d_) := fun hw _ => decode_encode32 _ rfl rfl (by
  have h : decodeWord32 (lookupField (encodeFields (.vmvXs t_ d_))) = some (.vmvXs (readBack t_) (readBack d_)) := rfl
  simpa only [readBack_eq] using h) hw

theorem RoundTrip.vfaddVv (r_ : BitVec 2) (p_ : BitVec 1) (a_ : BitVec 1) (m_ : BitVec 1) (t_ : BitVec 5) (s_ : BitVec 5) (d_ : BitVec 5) : RoundTrip.Statement (.vfaddVv r_ p_ a_ m_ t_ s_ d_) := fun hw _ => decode_encode32 _ rfl rfl (by
  have h : decodeWord32 (lookupField (encodeFields (.vfaddVv r_ p_ a_ m_ t_ s_ d_))) = some (.vfaddVv (readBack r_) (readBack p_) (readBack a_) (readBack m_) (readBack t_) (readBack s_) (readBack d_)) := rfl
  simpa only [readBack_eq] using h) hw

theorem RoundTrip.vfaddVx (r_ : BitVec 2) (p_ : BitVec 1) (a_ : BitVec 1) (m_ : BitVec 1) (t_ : BitVec 5) (s_ : BitVec 5) (d_ : BitVec 5) : RoundTrip.Statement (.vfaddVx r_ p_ a_ m_ t_ s_ d_) := fun hw _ => decode_encode32 _ rfl rfl (by
  have h : decodeWord32 (lookupField (encodeFields (.vfaddVx r_ p_ a_ m_ t_ s_ d_))) = some (.vfaddVx (readBack r_) (readBack p_) (readBack a_) (readBack m_) (readBack t_) (readBack s_) (readBack d_)) := rfl
  simpa only [readBack_eq] using h) hw

theorem RoundTrip.vfsubVv (r_ : BitVec 2) (p_ : BitVec 1) (a_ : BitVec 1) (m_ : BitVec 1) (t_ : BitVec 5) (s_ : BitVec 5) (d_ : BitVec 5) : RoundTrip.Statement (.vfsubVv r_ p_ a_ m_ t_ s_ d_) := fun hw _ => decode_encode32 _ rfl rfl (by
  have h : decodeWord32 (lookupField (encodeFields (.vfsubVv r_ p_ a_ m_ t_ s_ d_))) = some (.vfsubVv (readBack r_) (readBack p_) (readBack a_) (readBack m_) (readBack t_) (readBack s_) (readBack d_)) := rfl
  simpa only [readBack_eq] using h) hw

theorem RoundTrip.vfsubVx (r_ : BitVec 2) (p_ : BitVec 1) (a_ : BitVec 1) (m_ : BitVec 1) (t_ : BitVec 5) (s_ : BitVec 5) (d_ : BitVec 5) : RoundTrip.Statement (.vfsubVx r_ p_ a_ m_ t_ s_ d_) := fun hw _ => decode_encode32 _ rfl rfl (by
  have h : decodeWord32 (lookupField (encodeFields (.vfsubVx r_ p_ a_ m_ t_ s_ d_))) = some (.vfsubVx (readBack r_) (readBack p_) (readBack a_) (readBack m_) (readBack t_) (readBack s_) (readBack d_)) := rfl
  simpa only [readBack_eq] using h) hw

theorem RoundTrip.vfrsubVx (r_ : BitVec 2) (p_ : BitVec 1) (a_ : BitVec 1) (m_ : BitVec 1) (t_ : BitVec 5) (s_ : BitVec 5) (d_ : BitVec 5) : RoundTrip.Statement (.vfrsubVx r_ p_ a_ m_ t_ s_ d_) := fun hw _ => decode_encode32 _ rfl rfl (by
  have h : decodeWord32 (lookupField (encodeFields (.vfrsubVx r_ p_ a_ m_ t_ s_ d_))) = some (.vfrsubVx (readBack r_) (readBack p_) (readBack a_) (readBack m_) (readBack t_) (readBack s_) (readBack d_)) := rfl
  simpa only [readBack_eq] using h) hw

theorem RoundTrip.vfmulVv (r_ : BitVec 2) (p_ : BitVec 1) (a_ : BitVec 1) (m_ : BitVec 1) (t_ : BitVec 5) (s_ : BitVec 5) (d_ : BitVec 5) : RoundTrip.Statement (.vfmulVv r_ p_ a_ m_ t_ s_ d_) := fun hw _ => decode_encode32 _ rfl rfl (by
  have h : decodeWord32 (lookupField (encodeFields (.vfmulVv r_ p_ a_ m_ t_ s_ d_))) = some (.vfmulVv (readBack r_) (readBack p_) (readBack a_) (readBack m_) (readBack t_) (readBack s_) (readBack d_)) := rfl
  simpa only [readBack_eq] using h) hw

theorem RoundTrip.vfmulVx (r_ : BitVec 2) (p_ : BitVec 1) (a_ : BitVec 1) (m_ : BitVec 1) (t_ : BitVec 5) (s_ : BitVec 5) (d_ : BitVec 5) : RoundTrip.Statement (.vfmulVx r_ p_ a_ m_ t_ s_ d_) := fun hw _ => decode_encode32 _ rfl rfl (by
  have h : decodeWord32 (lookupField (encodeFields (.vfmulVx r_ p_ a_ m_ t_ s_ d_))) = some (.vfmulVx (readBack r_) (readBack p_) (readBack a_) (readBack m_) (readBack t_) (readBack s_) (readBack d_)) := rfl
  simpa only [readBack_eq] using h) hw

theorem RoundTrip.vfdivVv (r_ : BitVec 2) (p_ : BitVec 1) (a_ : BitVec 1) (m_ : BitVec 1) (t_ : BitVec 5) (s_ : BitVec 5) (d_ : BitVec 5) : RoundTrip.Statement (.vfdivVv r_ p_ a_ m_ t_ s_ d_) := fun hw _ => decode_encode32 _ rfl rfl (by
  have h : decodeWord32 (lookupField (encodeFields (.vfdivVv r_ p_ a_ m_ t_ s_ d_))) = some (.vfdivVv (readBack r_) (readBack p_) (readBack a_) (readBack m_) (readBack t_) (readBack s_) (readBack d_)) := rfl
  simpa only [readBack_eq] using h) hw

theorem RoundTrip.vfdivVx (r_ : BitVec 2) (p_ : BitVec 1) (a_ : BitVec 1) (m_ : BitVec 1) (t_ : BitVec 5) (s_ : BitVec 5) (d_ : BitVec 5) : RoundTrip.Statement (.vfdivVx r_ p_ a_ m_ t_ s_ d_) := fun hw _ => decode_encode32 _ rfl rfl (by
  have h : decodeWord32 (lookupField (encodeFields (.vfdivVx r_ p_ a_ m_ t_ s_ d_))) = some (.vfdivVx (readBack r_) (readBack p_) (readBack a_) (readBack m_) (readBack t_) (readBack s_) (readBack d_)) := rfl
  simpa only [readBack_eq] using h) hw

theorem RoundTrip.vfrdivVx (r_ : BitVec 2) (p_ : BitVec 1) (a_ : BitVec 1) (m_ : BitVec 1) (t_ : BitVec 5) (s_ : BitVec 5) (d_ : BitVec 5) : RoundTrip.Statement (.vfrdivVx r_ p_ a_ m_ t_ s_ d_) := fun hw _ => decode_encode32 _ rfl rfl (by
  have h : decodeWord32 (lookupField (encodeFields (.vfrdivVx r_ p_ a_ m_ t_ s_ d_))) = some (.vfrdivVx (readBack r_) (readBack p_) (readBack a_) (readBack m_) (readBack t_) (readBack s_) (readBack d_)) := rfl
  simpa only [readBack_eq] using h) hw

theorem RoundTrip.vfsqrtV (r_ : BitVec 2) (p_ : BitVec 1) (a_ : BitVec 1) (m_ : BitVec 1) (t_ : BitVec 5) (d_ : BitVec 5) : RoundTrip.Statement (.vfsqrtV r_ p_ a_ m_ t_ d_) := fun hw _ => decode_encode32 _ rfl rfl (by
  have h : decodeWord32 (lookupField (encodeFields (.vfsqrtV r_ p_ a_ m_ t_ d_))) = some (.vfsqrtV (readBack r_) (readBack p_) (readBack a_) (readBack m_) (readBack t_) (readBack d_)) := rfl
  simpa only [readBack_eq] using h) hw

theorem RoundTrip.vfminVv (r_ : BitVec 2) (p_ : BitVec 1) (a_ : BitVec 1) (m_ : BitVec 1) (t_ : BitVec 5) (s_ : BitVec 5) (d_ : BitVec 5) : RoundTrip.Statement (.vfminVv r_ p_ a_ m_ t_ s_ d_) := fun hw _ => decode_encode32 _ rfl rfl (by
  have h : decodeWord32 (lookupField (encodeFields (.vfminVv r_ p_ a_ m_ t_ s_ d_))) = some (.vfminVv (readBack r_) (readBack p_) (readBack a_) (readBack m_) (readBack t_) (readBack s_) (readBack d_)) := rfl
  simpa only [readBack_eq] using h) hw

theorem RoundTrip.vfminVx (r_ : BitVec 2) (p_ : BitVec 1) (a_ : BitVec 1) (m_ : BitVec 1) (t_ : BitVec 5) (s_ : BitVec 5) (d_ : BitVec 5) : RoundTrip.Statement (.vfminVx r_ p_ a_ m_ t_ s_ d_) := fun hw _ => decode_encode32 _ rfl rfl (by
  have h : decodeWord32 (lookupField (encodeFields (.vfminVx r_ p_ a_ m_ t_ s_ d_))) = some (.vfminVx (readBack r_) (readBack p_) (readBack a_) (readBack m_) (readBack t_) (readBack s_) (readBack d_)) := rfl
  simpa only [readBack_eq] using h) hw

theorem RoundTrip.vfmaxVv (r_ : BitVec 2) (p_ : BitVec 1) (a_ : BitVec 1) (m_ : BitVec 1) (t_ : BitVec 5) (s_ : BitVec 5) (d_ : BitVec 5) : RoundTrip.Statement (.vfmaxVv r_ p_ a_ m_ t_ s_ d_) := fun hw _ => decode_encode32 _ rfl rfl (by
  have h : decodeWord32 (lookupField (encodeFields (.vfmaxVv r_ p_ a_ m_ t_ s_ d_))) = some (.vfmaxVv (readBack r_) (readBack p_) (readBack a_) (readBack m_) (readBack t_) (readBack s_) (readBack d_)) := rfl
  simpa only [readBack_eq] using h) hw

theorem RoundTrip.vfmaxVx (r_ : BitVec 2) (p_ : BitVec 1) (a_ : BitVec 1) (m_ : BitVec 1) (t_ : BitVec 5) (s_ : BitVec 5) (d_ : BitVec 5) : RoundTrip.Statement (.vfmaxVx r_ p_ a_ m_ t_ s_ d_) := fun hw _ => decode_encode32 _ rfl rfl (by
  have h : decodeWord32 (lookupField (encodeFields (.vfmaxVx r_ p_ a_ m_ t_ s_ d_))) = some (.vfmaxVx (readBack r_) (readBack p_) (readBack a_) (readBack m_) (readBack t_) (readBack s_) (readBack d_)) := rfl
  simpa only [readBack_eq] using h) hw

theorem RoundTrip.vfsgnVv (r_ : BitVec 2) (p_ : BitVec 1) (a_ : BitVec 1) (m_ : BitVec 1) (t_ : BitVec 5) (s_ : BitVec 5) (d_ : BitVec 5) : RoundTrip.Statement (.vfsgnVv r_ p_ a_ m_ t_ s_ d_) := fun hw _ => decode_encode32 _ rfl rfl (by
  have h : decodeWord32 (lookupField (encodeFields (.vfsgnVv r_ p_ a_ m_ t_ s_ d_))) = some (.vfsgnVv (readBack r_) (readBack p_) (readBack a_) (readBack m_) (readBack t_) (readBack s_) (readBack d_)) := rfl
  simpa only [readBack_eq] using h) hw

theorem RoundTrip.vfsgnnVv (r_ : BitVec 2) (p_ : BitVec 1) (a_ : BitVec 1) (m_ : BitVec 1) (t_ : BitVec 5) (s_ : BitVec 5) (d_ : BitVec 5) : RoundTrip.Statement (.vfsgnnVv r_ p_ a_ m_ t_ s_ d_) := fun hw _ => decode_encode32 _ rfl rfl (by
  have h : decodeWord32 (lookupField (encodeFields (.vfsgnnVv r_ p_ a_ m_ t_ s_ d_))) = some (.vfsgnnVv (readBack r_) (readBack p_) (readBack a_) (readBack m_) (readBack t_) (readBack s_) (readBack d_)) := rfl
  simpa only [readBack_eq] using h) hw

theorem RoundTrip.vfsgnxVv (r_ : BitVec 2) (p_ : BitVec 1) (a_ : BitVec 1) (m_ : BitVec 1) (t_ : BitVec 5) (s_ : BitVec 5) (d_ : BitVec 5) : RoundTrip.Statement (.vfsgnxVv r_ p_ a_ m_ t_ s_ d_) := fun hw _ => decode_encode32 _ rfl rfl (by
  have h : decodeWord32 (lookupField (encodeFields (.vfsgnxVv r_ p_ a_ m_ t_ s_ d_))) = some (.vfsgnxVv (readBack r_) (readBack p_) (readBack a_) (readBack m_) (readBack t_) (readBack s_) (readBack d_)) := rfl
  simpa only [readBack_eq] using h) hw

theorem RoundTrip.vfclassV (r_ : BitVec 2) (p_ : BitVec 1) (a_ : BitVec 1) (m_ : BitVec 1) (t_ : BitVec 5) (d_ : BitVec 5) : RoundTrip.Statement (.vfclassV r_ p_ a_ m_ t_ d_) := fun hw _ => decode_encode32 _ rfl rfl (by
  have h : decodeWord32 (lookupField (encodeFields (.vfclassV r_ p_ a_ m_ t_ d_))) = some (.vfclassV (readBack r_) (readBack p_) (readBack a_) (readBack m_) (readBack t_) (readBack d_)) := rfl
  simpa only [readBack_eq] using h) hw

theorem RoundTrip.vmfeqVv (r_ : BitVec 2) (p_ : BitVec 1) (a_ : BitVec 1) (m_ : BitVec 1) (t_ : BitVec 5) (s_ : BitVec 5) (d_ : BitVec 5) : RoundTrip.Statement (.vmfeqVv r_ p_ a_ m_ t_ s_ d_) := fun hw _ => decode_encode32 _ rfl rfl (by
  have h : decodeWord32 (lookupField (encodeFields (.vmfeqVv r_ p_ a_ m_ t_ s_ d_))) = some (.vmfeqVv (readBack r_) (readBack p_) (readBack a_) (readBack m_) (readBack t_) (readBack s_) (readBack d_)) := rfl
  simpa only [readBack_eq] using h) hw

theorem RoundTrip.vmfeqVx (r_ : BitVec 2) (p_ : BitVec 1) (a_ : BitVec 1) (m_ : BitVec 1) (t_ : BitVec 5) (s_ : BitVec 5) (d_ : BitVec 5) : RoundTrip.Statement (.vmfeqVx r_ p_ a_ m_ t_ s_ d_) := fun hw _ => decode_encode32 _ rfl rfl (by
  have h : decodeWord32 (lookupField (encodeFields (.vmfeqVx r_ p_ a_ m_ t_ s_ d_))) = some (.vmfeqVx (readBack r_) (readBack p_) (readBack a_) (readBack m_) (readBack t_) (readBack s_) (readBack d_)) := rfl
  simpa only [readBack_eq] using h) hw

theorem RoundTrip.vmfneVv (r_ : BitVec 2) (p_ : BitVec 1) (a_ : BitVec 1) (m_ : BitVec 1) (t_ : BitVec 5) (s_ : BitVec 5) (d_ : BitVec 5) : RoundTrip.Statement (.vmfneVv r_ p_ a_ m_ t_ s_ d_) := fun hw _ => decode_encode32 _ rfl rfl (by
  have h : decodeWord32 (lookupField (encodeFields (.vmfneVv r_ p_ a_ m_ t_ s_ d_))) = some (.vmfneVv (readBack r_) (readBack p_) (readBack a_) (readBack m_) (readBack t_) (readBack s_) (readBack d_)) := rfl
  simpa only [readBack_eq] using h) hw

theorem RoundTrip.vmfneVx (r_ : BitVec 2) (p_ : BitVec 1) (a_ : BitVec 1) (m_ : BitVec 1) (t_ : BitVec 5) (s_ : BitVec 5) (d_ : BitVec 5) : RoundTrip.Statement (.vmfneVx r_ p_ a_ m_ t_ s_ d_) := fun hw _ => decode_encode32 _ rfl rfl (by
  have h : decodeWord32 (lookupField (encodeFields (.vmfneVx r_ p_ a_ m_ t_ s_ d_))) = some (.vmfneVx (readBack r_) (readBack p_) (readBack a_) (readBack m_) (readBack t_) (readBack s_) (readBack d_)) := rfl
  simpa only [readBack_eq] using h) hw

theorem RoundTrip.vmfltVv (r_ : BitVec 2) (p_ : BitVec 1) (a_ : BitVec 1) (m_ : BitVec 1) (t_ : BitVec 5) (s_ : BitVec 5) (d_ : BitVec 5) : RoundTrip.Statement (.vmfltVv r_ p_ a_ m_ t_ s_ d_) := fun hw _ => decode_encode32 _ rfl rfl (by
  have h : decodeWord32 (lookupField (encodeFields (.vmfltVv r_ p_ a_ m_ t_ s_ d_))) = some (.vmfltVv (readBack r_) (readBack p_) (readBack a_) (readBack m_) (readBack t_) (readBack s_) (readBack d_)) := rfl
  simpa only [readBack_eq] using h) hw

theorem RoundTrip.vmfltVx (r_ : BitVec 2) (p_ : BitVec 1) (a_ : BitVec 1) (m_ : BitVec 1) (t_ : BitVec 5) (s_ : BitVec 5) (d_ : BitVec 5) : RoundTrip.Statement (.vmfltVx r_ p_ a_ m_ t_ s_ d_) := fun hw _ => decode_encode32 _ rfl rfl (by
  have h : decodeWord32 (lookupField (encodeFields (.vmfltVx r_ p_ a_ m_ t_ s_ d_))) = some (.vmfltVx (readBack r_) (readBack p_) (readBack a_) (readBack m_) (readBack t_) (readBack s_) (readBack d_)) := rfl
  simpa only [readBack_eq] using h) hw

theorem RoundTrip.vmfleVv (r_ : BitVec 2) (p_ : BitVec 1) (a_ : BitVec 1) (m_ : BitVec 1) (t_ : BitVec 5) (s_ : BitVec 5) (d_ : BitVec 5) : RoundTrip.Statement (.vmfleVv r_ p_ a_ m_ t_ s_ d_) := fun hw _ => decode_encode32 _ rfl rfl (by
  have h : decodeWord32 (lookupField (encodeFields (.vmfleVv r_ p_ a_ m_ t_ s_ d_))) = some (.vmfleVv (readBack r_) (readBack p_) (readBack a_) (readBack m_) (readBack t_) (readBack s_) (readBack d_)) := rfl
  simpa only [readBack_eq] using h) hw

theorem RoundTrip.vmfleVx (r_ : BitVec 2) (p_ : BitVec 1) (a_ : BitVec 1) (m_ : BitVec 1) (t_ : BitVec 5) (s_ : BitVec 5) (d_ : BitVec 5) : RoundTrip.Statement (.vmfleVx r_ p_ a_ m_ t_ s_ d_) := fun hw _ => decode_encode32 _ rfl rfl (by
  have h : decodeWord32 (lookupField (encodeFields (.vmfleVx r_ p_ a_ m_ t_ s_ d_))) = some (.vmfleVx (readBack r_) (readBack p_) (readBack a_) (readBack m_) (readBack t_) (readBack s_) (readBack d_)) := rfl
  simpa only [readBack_eq] using h) hw

theorem RoundTrip.vmfgtVx (r_ : BitVec 2) (p_ : BitVec 1) (a_ : BitVec 1) (m_ : BitVec 1) (t_ : BitVec 5) (s_ : BitVec 5) (d_ : BitVec 5) : RoundTrip.Statement (.vmfgtVx r_ p_ a_ m_ t_ s_ d_) := fun hw _ => decode_encode32 _ rfl rfl (by
  have h : decodeWord32 (lookupField (encodeFields (.vmfgtVx r_ p_ a_ m_ t_ s_ d_))) = some (.vmfgtVx (readBack r_) (readBack p_) (readBack a_) (readBack m_) (readBack t_) (readBack s_) (readBack d_)) := rfl
  simpa only [readBack_eq] using h) hw

theorem RoundTrip.vmfgeVx (r_ : BitVec 2) (p_ : BitVec 1) (a_ : BitVec 1) (m_ : BitVec 1) (t_ : BitVec 5) (s_ : BitVec 5) (d_ : BitVec 5) : RoundTrip.Statement (.vmfgeVx r_ p_ a_ m_ t_ s_ d_) := fun hw _ => decode_encode32 _ rfl rfl (by
  have h : decodeWord32 (lookupField (encodeFields (.vmfgeVx r_ p_ a_ m_ t_ s_ d_))) = some (.vmfgeVx (readBack r_) (readBack p_) (readBack a_) (readBack m_) (readBack t_) (readBack s_) (readBack d_)) := rfl
  simpa only [readBack_eq] using h) hw

theorem RoundTrip.vwcvtV (r_ : BitVec 2) (p_ : BitVec 1) (a_ : BitVec 1) (m_ : BitVec 1) (t_ : BitVec 5) (d_ : BitVec 5) : RoundTrip.Statement (.vwcvtV r_ p_ a_ m_ t_ d_) := fun hw _ => decode_encode32 _ rfl rfl (by
  have h : decodeWord32 (lookupField (encodeFields (.vwcvtV r_ p_ a_ m_ t_ d_))) = some (.vwcvtV (readBack r_) (readBack p_) (readBack a_) (readBack m_) (readBack t_) (readBack d_)) := rfl
  simpa only [readBack_eq] using h) hw

theorem RoundTrip.vncvtV (r_ : BitVec 2) (p_ : BitVec 1) (a_ : BitVec 1) (m_ : BitVec 1) (t_ : BitVec 5) (d_ : BitVec 5) : RoundTrip.Statement (.vncvtV r_ p_ a_ m_ t_ d_) := fun hw _ => decode_encode32 _ rfl rfl (by
  have h : decodeWord32 (lookupField (encodeFields (.vncvtV r_ p_ a_ m_ t_ d_))) = some (.vncvtV (readBack r_) (readBack p_) (readBack a_) (readBack m_) (readBack t_) (readBack d_)) := rfl
  simpa only [readBack_eq] using h) hw

theorem RoundTrip.vnclipV (r_ : BitVec 2) (p_ : BitVec 1) (a_ : BitVec 1) (m_ : BitVec 1) (t_ : BitVec 5) (d_ : BitVec 5) : RoundTrip.Statement (.vnclipV r_ p_ a_ m_ t_ d_) := fun hw _ => decode_encode32 _ rfl rfl (by
  have h : decodeWord32 (lookupField (encodeFields (.vnclipV r_ p_ a_ m_ t_ d_))) = some (.vnclipV (readBack r_) (readBack p_) (readBack a_) (readBack m_) (readBack t_) (readBack d_)) := rfl
  simpa only [readBack_eq] using h) hw

theorem RoundTrip.vfwcvtV (r_ : BitVec 2) (p_ : BitVec 1) (a_ : BitVec 1) (m_ : BitVec 1) (t_ : BitVec 5) (d_ : BitVec 5) : RoundTrip.Statement (.vfwcvtV r_ p_ a_ m_ t_ d_) := fun hw _ => decode_encode32 _ rfl rfl (by
  have h : decodeWord32 (lookupField (encodeFields (.vfwcvtV r_ p_ a_ m_ t_ d_))) = some (.vfwcvtV (readBack r_) (readBack p_) (readBack a_) (readBack m_) (readBack t_) (readBack d_)) := rfl
  simpa only [readBack_eq] using h) hw

theorem RoundTrip.vfncvtV (r_ : BitVec 2) (p_ : BitVec 1) (a_ : BitVec 1) (m_ : BitVec 1) (t_ : BitVec 5) (d_ : BitVec 5) : RoundTrip.Statement (.vfncvtV r_ p_ a_ m_ t_ d_) := fun hw _ => decode_encode32 _ rfl rfl (by
  have h : decodeWord32 (lookupField (encodeFields (.vfncvtV r_ p_ a_ m_ t_ d_))) = some (.vfncvtV (readBack r_) (readBack p_) (readBack a_) (readBack m_) (readBack t_) (readBack d_)) := rfl
  simpa only [readBack_eq] using h) hw

theorem RoundTrip.vftoiV (r_ : BitVec 2) (p_ : BitVec 1) (a_ : BitVec 1) (m_ : BitVec 1) (t_ : BitVec 5) (d_ : BitVec 5) : RoundTrip.Statement (.vftoiV r_ p_ a_ m_ t_ d_) := fun hw _ => decode_encode32 _ rfl rfl (by
  have h : decodeWord32 (lookupField (encodeFields (.vftoiV r_ p_ a_ m_ t_ d_))) = some (.vftoiV (readBack r_) (readBack p_) (readBack a_) (readBack m_) (readBack t_) (readBack d_)) := rfl
  simpa only [readBack_eq] using h) hw

theorem RoundTrip.vftoinV (r_ : BitVec 2) (p_ : BitVec 1) (a_ : BitVec 1) (m_ : BitVec 1) (t_ : BitVec 5) (d_ : BitVec 5) : RoundTrip.Statement (.vftoinV r_ p_ a_ m_ t_ d_) := fun hw _ => decode_encode32 _ rfl rfl (by
  have h : decodeWord32 (lookupField (encodeFields (.vftoinV r_ p_ a_ m_ t_ d_))) = some (.vftoinV (readBack r_) (readBack p_) (readBack a_) (readBack m_) (readBack t_) (readBack d_)) := rfl
  simpa only [readBack_eq] using h) hw

theorem RoundTrip.vitofV (r_ : BitVec 2) (p_ : BitVec 1) (a_ : BitVec 1) (m_ : BitVec 1) (t_ : BitVec 5) (d_ : BitVec 5) : RoundTrip.Statement (.vitofV r_ p_ a_ m_ t_ d_) := fun hw _ => decode_encode32 _ rfl rfl (by
  have h : decodeWord32 (lookupField (encodeFields (.vitofV r_ p_ a_ m_ t_ d_))) = some (.vitofV (readBack r_) (readBack p_) (readBack a_) (readBack m_) (readBack t_) (readBack d_)) := rfl
  simpa only [readBack_eq] using h) hw

theorem RoundTrip.vintofV (r_ : BitVec 2) (p_ : BitVec 1) (a_ : BitVec 1) (m_ : BitVec 1) (t_ : BitVec 5) (d_ : BitVec 5) : RoundTrip.Statement (.vintofV r_ p_ a_ m_ t_ d_) := fun hw _ => decode_encode32 _ rfl rfl (by
  have h : decodeWord32 (lookupField (encodeFields (.vintofV r_ p_ a_ m_ t_ d_))) = some (.vintofV (readBack r_) (readBack p_) (readBack a_) (readBack m_) (readBack t_) (readBack d_)) := rfl
  simpa only [readBack_eq] using h) hw

theorem RoundTrip.vfcvtF4 (r_ : BitVec 2) (p_ : BitVec 1) (a_ : BitVec 1) (m_ : BitVec 1) (t_ : BitVec 5) (d_ : BitVec 5) : RoundTrip.Statement (.vfcvtF4 r_ p_ a_ m_ t_ d_) := fun hw _ => decode_encode32 _ rfl rfl (by
  have h : decodeWord32 (lookupField (encodeFields (.vfcvtF4 r_ p_ a_ m_ t_ d_))) = some (.vfcvtF4 (readBack r_) (readBack p_) (readBack a_) (readBack m_) (readBack t_) (readBack d_)) := rfl
  simpa only [readBack_eq] using h) hw

theorem RoundTrip.vrngV (a_ : BitVec 1) (m_ : BitVec 1) (d_ : BitVec 5) : RoundTrip.Statement (.vrngV a_ m_ d_) := fun hw _ => decode_encode32 _ rfl rfl (by
  have h : decodeWord32 (lookupField (encodeFields (.vrngV a_ m_ d_))) = some (.vrngV (readBack a_) (readBack m_) (readBack d_)) := rfl
  simpa only [readBack_eq] using h) hw

theorem RoundTrip.vseedVx (a_ : BitVec 1) (m_ : BitVec 1) (s_ : BitVec 5) : RoundTrip.Statement (.vseedVx a_ m_ s_) := fun hw _ => decode_encode32 _ rfl rfl (by
  have h : decodeWord32 (lookupField (encodeFields (.vseedVx a_ m_ s_))) = some (.vseedVx (readBack a_) (readBack m_) (readBack s_)) := rfl
  simpa only [readBack_eq] using h) hw

theorem RoundTrip.vsetl (b_ : BitVec 5) (a_ : BitVec 5) (d_ : BitVec 5) : RoundTrip.Statement (.vsetl b_ a_ d_) := fun hw _ => decode_encode32 _ rfl rfl (by
  have h : decodeWord32 (lookupField (encodeFields (.vsetl b_ a_ d_))) = some (.vsetl (readBack b_) (readBack a_) (readBack d_)) := rfl
  simpa only [readBack_eq] using h) hw

theorem RoundTrip.vsetli (i_ : BitVec 12) (a_ : BitVec 5) (d_ : BitVec 5) : RoundTrip.Statement (.vsetli i_ a_ d_) := fun hw _ => decode_encode32 _ rfl rfl (by
  have h : decodeWord32 (lookupField (encodeFields (.vsetli i_ a_ d_))) = some (.vsetli (readBack i_) (readBack a_) (readBack d_)) := rfl
  simpa only [readBack_eq] using h) hw

theorem RoundTrip.vredsumXs (a_ : BitVec 1) (m_ : BitVec 1) (t_ : BitVec 5) (s_ : BitVec 5) (d_ : BitVec 5) : RoundTrip.Statement (.vredsumXs a_ m_ t_ s_ d_) := fun hw _ => decode_encode32 _ rfl rfl (by
  have h : decodeWord32 (lookupField (encodeFields (.vredsumXs a_ m_ t_ s_ d_))) = some (.vredsumXs (readBack a_) (readBack m_) (readBack t_) (readBack s_) (readBack d_)) := rfl
  simpa only [readBack_eq] using h) hw

theorem RoundTrip.vredminXs (a_ : BitVec 1) (m_ : BitVec 1) (t_ : BitVec 5) (s_ : BitVec 5) (d_ : BitVec 5) : RoundTrip.Statement (.vredminXs a_ m_ t_ s_ d_) := fun hw _ => decode_encode32 _ rfl rfl (by
  have h : decodeWord32 (lookupField (encodeFields (.vredminXs a_ m_ t_ s_ d_))) = some (.vredminXs (readBack a_) (readBack m_) (readBack t_) (readBack s_) (readBack d_)) := rfl
  simpa only [readBack_eq] using h) hw

theorem RoundTrip.vredmaxXs (a_ : BitVec 1) (m_ : BitVec 1) (t_ : BitVec 5) (s_ : BitVec 5) (d_ : BitVec 5) : RoundTrip.Statement (.vredmaxXs a_ m_ t_ s_ d_) := fun hw _ => decode_encode32 _ rfl rfl (by
  have h : decodeWord32 (lookupField (encodeFields (.vredmaxXs a_ m_ t_ s_ d_))) = some (.vredmaxXs (readBack a_) (readBack m_) (readBack t_) (readBack s_) (readBack d_)) := rfl
  simpa only [readBack_eq] using h) hw

theorem RoundTrip.vredandXs (a_ : BitVec 1) (m_ : BitVec 1) (t_ : BitVec 5) (s_ : BitVec 5) (d_ : BitVec 5) : RoundTrip.Statement (.vredandXs a_ m_ t_ s_ d_) := fun hw _ => decode_encode32 _ rfl rfl (by
  have h : decodeWord32 (lookupField (encodeFields (.vredandXs a_ m_ t_ s_ d_))) = some (.vredandXs (readBack a_) (readBack m_) (readBack t_) (readBack s_) (readBack d_)) := rfl
  simpa only [readBack_eq] using h) hw

theorem RoundTrip.vredorXs (a_ : BitVec 1) (m_ : BitVec 1) (t_ : BitVec 5) (s_ : BitVec 5) (d_ : BitVec 5) : RoundTrip.Statement (.vredorXs a_ m_ t_ s_ d_) := fun hw _ => decode_encode32 _ rfl rfl (by
  have h : decodeWord32 (lookupField (encodeFields (.vredorXs a_ m_ t_ s_ d_))) = some (.vredorXs (readBack a_) (readBack m_) (readBack t_) (readBack s_) (readBack d_)) := rfl
  simpa only [readBack_eq] using h) hw

theorem RoundTrip.vredxorXs (a_ : BitVec 1) (m_ : BitVec 1) (t_ : BitVec 5) (s_ : BitVec 5) (d_ : BitVec 5) : RoundTrip.Statement (.vredxorXs a_ m_ t_ s_ d_) := fun hw _ => decode_encode32 _ rfl rfl (by
  have h : decodeWord32 (lookupField (encodeFields (.vredxorXs a_ m_ t_ s_ d_))) = some (.vredxorXs (readBack a_) (readBack m_) (readBack t_) (readBack s_) (readBack d_)) := rfl
  simpa only [readBack_eq] using h) hw

theorem RoundTrip.vfredsumXs (a_ : BitVec 1) (m_ : BitVec 1) (t_ : BitVec 5) (s_ : BitVec 5) (d_ : BitVec 5) : RoundTrip.Statement (.vfredsumXs a_ m_ t_ s_ d_) := fun hw _ => decode_encode32 _ rfl rfl (by
  have h : decodeWord32 (lookupField (encodeFields (.vfredsumXs a_ m_ t_ s_ d_))) = some (.vfredsumXs (readBack a_) (readBack m_) (readBack t_) (readBack s_) (readBack d_)) := rfl
  simpa only [readBack_eq] using h) hw

theorem RoundTrip.vfredminXs (a_ : BitVec 1) (m_ : BitVec 1) (t_ : BitVec 5) (s_ : BitVec 5) (d_ : BitVec 5) : RoundTrip.Statement (.vfredminXs a_ m_ t_ s_ d_) := fun hw _ => decode_encode32 _ rfl rfl (by
  have h : decodeWord32 (lookupField (encodeFields (.vfredminXs a_ m_ t_ s_ d_))) = some (.vfredminXs (readBack a_) (readBack m_) (readBack t_) (readBack s_) (readBack d_)) := rfl
  simpa only [readBack_eq] using h) hw

theorem RoundTrip.vfredmaxXs (a_ : BitVec 1) (m_ : BitVec 1) (t_ : BitVec 5) (s_ : BitVec 5) (d_ : BitVec 5) : RoundTrip.Statement (.vfredmaxXs a_ m_ t_ s_ d_) := fun hw _ => decode_encode32 _ rfl rfl (by
  have h : decodeWord32 (lookupField (encodeFields (.vfredmaxXs a_ m_ t_ s_ d_))) = some (.vfredmaxXs (readBack a_) (readBack m_) (readBack t_) (readBack s_) (readBack d_)) := rfl
  simpa only [readBack_eq] using h) hw

theorem RoundTrip.vredminiXs (a_ : BitVec 1) (m_ : BitVec 1) (t_ : BitVec 5) (s_ : BitVec 5) (d_ : BitVec 5) : RoundTrip.Statement (.vredminiXs a_ m_ t_ s_ d_) := fun hw _ => decode_encode32 _ rfl rfl (by
  have h : decodeWord32 (lookupField (encodeFields (.vredminiXs a_ m_ t_ s_ d_))) = some (.vredminiXs (readBack a_) (readBack m_) (readBack t_) (readBack s_) (readBack d_)) := rfl
  simpa only [readBack_eq] using h) hw

theorem RoundTrip.vredmaxiXs (a_ : BitVec 1) (m_ : BitVec 1) (t_ : BitVec 5) (s_ : BitVec 5) (d_ : BitVec 5) : RoundTrip.Statement (.vredmaxiXs a_ m_ t_ s_ d_) := fun hw _ => decode_encode32 _ rfl rfl (by
  have h : decodeWord32 (lookupField (encodeFields (.vredmaxiXs a_ m_ t_ s_ d_))) = some (.vredmaxiXs (readBack a_) (readBack m_) (readBack t_) (readBack s_) (readBack d_)) := rfl
  simpa only [readBack_eq] using h) hw

theorem RoundTrip.vtree (a_ : BitVec 1) (m_ : BitVec 1) (t_ : BitVec 5) (h_ : BitVec 1) (i_ : BitVec 5) : RoundTrip.Statement (.vtree a_ m_ t_ h_ i_) := fun hw _ => decode_encode32 _ rfl rfl (by
  have h : decodeWord32 (lookupField (encodeFields (.vtree a_ m_ t_ h_ i_))) = some (.vtree (readBack a_) (readBack m_) (readBack t_) (readBack h_) (readBack i_)) := rfl
  simpa only [readBack_eq] using h) hw

theorem RoundTrip.vftree (a_ : BitVec 1) (m_ : BitVec 1) (t_ : BitVec 5) (h_ : BitVec 1) (i_ : BitVec 5) : RoundTrip.Statement (.vftree a_ m_ t_ h_ i_) := fun hw _ => decode_encode32 _ rfl rfl (by
  have h : decodeWord32 (lookupField (encodeFields (.vftree a_ m_ t_ h_ i_))) = some (.vftree (readBack a_) (readBack m_) (readBack t_) (readBack h_) (readBack i_)) := rfl
  simpa only [readBack_eq] using h) hw

theorem RoundTrip.vtreeseg (c_ : BitVec 3) (a_ : BitVec 1) (m_ : BitVec 1) (t_ : BitVec 5) (h_ : BitVec 1) (i_ : BitVec 5) : RoundTrip.Statement (.vtreeseg c_ a_ m_ t_ h_ i_) := fun hw _ => decode_encode32 _ rfl rfl (by
  have h : decodeWord32 (lookupField (encodeFields (.vtreeseg c_ a_ m_ t_ h_ i_))) = some (.vtreeseg (readBack c_) (readBack a_) (readBack m_) (readBack t_) (readBack h_) (readBack i_)) := rfl
  simpa only [readBack_eq] using h) hw

theorem RoundTrip.vftreeseg (c_ : BitVec 3) (a_ : BitVec 1) (m_ : BitVec 1) (t_ : BitVec 5) (h_ : BitVec 1) (i_ : BitVec 5) : RoundTrip.Statement (.vftreeseg c_ a_ m_ t_ h_ i_) := fun hw _ => decode_encode32 _ rfl rfl (by
  have h : decodeWord32 (lookupField (encodeFields (.vftreeseg c_ a_ m_ t_ h_ i_))) = some (.vftreeseg (readBack c_) (readBack a_) (readBack m_) (readBack t_) (readBack h_) (readBack i_)) := rfl
  simpa only [readBack_eq] using h) hw

theorem RoundTrip.vsegsumV (c_ : BitVec 3) (a_ : BitVec 1) (m_ : BitVec 1) (t_ : BitVec 5) (d_ : BitVec 5) : RoundTrip.Statement (.vsegsumV c_ a_ m_ t_ d_) := fun hw _ => decode_encode32 _ rfl rfl (by
  have h : decodeWord32 (lookupField (encodeFields (.vsegsumV c_ a_ m_ t_ d_))) = some (.vsegsumV (readBack c_) (readBack a_) (readBack m_) (readBack t_) (readBack d_)) := rfl
  simpa only [readBack_eq] using h) hw

theorem RoundTrip.vsegminV (c_ : BitVec 3) (a_ : BitVec 1) (m_ : BitVec 1) (t_ : BitVec 5) (d_ : BitVec 5) : RoundTrip.Statement (.vsegminV c_ a_ m_ t_ d_) := fun hw _ => decode_encode32 _ rfl rfl (by
  have h : decodeWord32 (lookupField (encodeFields (.vsegminV c_ a_ m_ t_ d_))) = some (.vsegminV (readBack c_) (readBack a_) (readBack m_) (readBack t_) (readBack d_)) := rfl
  simpa only [readBack_eq] using h) hw

theorem RoundTrip.vsegmaxV (c_ : BitVec 3) (a_ : BitVec 1) (m_ : BitVec 1) (t_ : BitVec 5) (d_ : BitVec 5) : RoundTrip.Statement (.vsegmaxV c_ a_ m_ t_ d_) := fun hw _ => decode_encode32 _ rfl rfl (by
  have h : decodeWord32 (lookupField (encodeFields (.vsegmaxV c_ a_ m_ t_ d_))) = some (.vsegmaxV (readBack c_) (readBack a_) (readBack m_) (readBack t_) (readBack d_)) := rfl
  simpa only [readBack_eq] using h) hw

theorem RoundTrip.vfsegsumV (c_ : BitVec 3) (a_ : BitVec 1) (m_ : BitVec 1) (t_ : BitVec 5) (d_ : BitVec 5) : RoundTrip.Statement (.vfsegsumV c_ a_ m_ t_ d_) := fun hw _ => decode_encode32 _ rfl rfl (by
  have h : decodeWord32 (lookupField (encodeFields (.vfsegsumV c_ a_ m_ t_ d_))) = some (.vfsegsumV (readBack c_) (readBack a_) (readBack m_) (readBack t_) (readBack d_)) := rfl
  simpa only [readBack_eq] using h) hw

theorem RoundTrip.vfsegminV (c_ : BitVec 3) (a_ : BitVec 1) (m_ : BitVec 1) (t_ : BitVec 5) (d_ : BitVec 5) : RoundTrip.Statement (.vfsegminV c_ a_ m_ t_ d_) := fun hw _ => decode_encode32 _ rfl rfl (by
  have h : decodeWord32 (lookupField (encodeFields (.vfsegminV c_ a_ m_ t_ d_))) = some (.vfsegminV (readBack c_) (readBack a_) (readBack m_) (readBack t_) (readBack d_)) := rfl
  simpa only [readBack_eq] using h) hw

theorem RoundTrip.vfsegmaxV (c_ : BitVec 3) (a_ : BitVec 1) (m_ : BitVec 1) (t_ : BitVec 5) (d_ : BitVec 5) : RoundTrip.Statement (.vfsegmaxV c_ a_ m_ t_ d_) := fun hw _ => decode_encode32 _ rfl rfl (by
  have h : decodeWord32 (lookupField (encodeFields (.vfsegmaxV c_ a_ m_ t_ d_))) = some (.vfsegmaxV (readBack c_) (readBack a_) (readBack m_) (readBack t_) (readBack d_)) := rfl
  simpa only [readBack_eq] using h) hw

theorem RoundTrip.vslideupVx (a_ : BitVec 1) (m_ : BitVec 1) (t_ : BitVec 5) (s_ : BitVec 5) (d_ : BitVec 5) : RoundTrip.Statement (.vslideupVx a_ m_ t_ s_ d_) := fun hw _ => decode_encode32 _ rfl rfl (by
  have h : decodeWord32 (lookupField (encodeFields (.vslideupVx a_ m_ t_ s_ d_))) = some (.vslideupVx (readBack a_) (readBack m_) (readBack t_) (readBack s_) (readBack d_)) := rfl
  simpa only [readBack_eq] using h) hw

theorem RoundTrip.vslidedownVx (a_ : BitVec 1) (m_ : BitVec 1) (t_ : BitVec 5) (s_ : BitVec 5) (d_ : BitVec 5) : RoundTrip.Statement (.vslidedownVx a_ m_ t_ s_ d_) := fun hw _ => decode_encode32 _ rfl rfl (by
  have h : decodeWord32 (lookupField (encodeFields (.vslidedownVx a_ m_ t_ s_ d_))) = some (.vslidedownVx (readBack a_) (readBack m_) (readBack t_) (readBack s_) (readBack d_)) := rfl
  simpa only [readBack_eq] using h) hw

theorem RoundTrip.vslide1upVx (a_ : BitVec 1) (m_ : BitVec 1) (t_ : BitVec 5) (s_ : BitVec 5) (d_ : BitVec 5) : RoundTrip.Statement (.vslide1upVx a_ m_ t_ s_ d_) := fun hw _ => decode_encode32 _ rfl rfl (by
  have h : decodeWord32 (lookupField (encodeFields (.vslide1upVx a_ m_ t_ s_ d_))) = some (.vslide1upVx (readBack a_) (readBack m_) (readBack t_) (readBack s_) (readBack d_)) := rfl
  simpa only [readBack_eq] using h) hw

theorem RoundTrip.vslide1downVx (a_ : BitVec 1) (m_ : BitVec 1) (t_ : BitVec 5) (s_ : BitVec 5) (d_ : BitVec 5) : RoundTrip.Statement (.vslide1downVx a_ m_ t_ s_ d_) := fun hw _ => decode_encode32 _ rfl rfl (by
  have h : decodeWord32 (lookupField (encodeFields (.vslide1downVx a_ m_ t_ s_ d_))) = some (.vslide1downVx (readBack a_) (readBack m_) (readBack t_) (readBack s_) (readBack d_)) := rfl
  simpa only [readBack_eq] using h) hw

theorem RoundTrip.vgatherVv (w_ : BitVec 2) (a_ : BitVec 1) (m_ : BitVec 1) (t_ : BitVec 5) (s_ : BitVec 5) (d_ : BitVec 5) : RoundTrip.Statement (.vgatherVv w_ a_ m_ t_ s_ d_) := fun hw _ => decode_encode32 _ rfl rfl (by
  have h : decodeWord32 (lookupField (encodeFields (.vgatherVv w_ a_ m_ t_ s_ d_))) = some (.vgatherVv (readBack w_) (readBack a_) (readBack m_) (readBack t_) (readBack s_) (readBack d_)) := rfl
  simpa only [readBack_eq] using h) hw

theorem RoundTrip.vcompressVv (a_ : BitVec 1) (t_ : BitVec 5) (s_ : BitVec 5) (d_ : BitVec 5) : RoundTrip.Statement (.vcompressVv a_ t_ s_ d_) := fun hw _ => decode_encode32 _ rfl rfl (by
  have h : decodeWord32 (lookupField (encodeFields (.vcompressVv a_ t_ s_ d_))) = some (.vcompressVv (readBack a_) (readBack t_) (readBack s_) (readBack d_)) := rfl
  simpa only [readBack_eq] using h) hw

theorem RoundTrip.vexpandVv (a_ : BitVec 1) (t_ : BitVec 5) (s_ : BitVec 5) (d_ : BitVec 5) : RoundTrip.Statement (.vexpandVv a_ t_ s_ d_) := fun hw _ => decode_encode32 _ rfl rfl (by
  have h : decodeWord32 (lookupField (encodeFields (.vexpandVv a_ t_ s_ d_))) = some (.vexpandVv (readBack a_) (readBack t_) (readBack s_) (readBack d_)) := rfl
  simpa only [readBack_eq] using h) hw

theorem RoundTrip.vbcastVx (a_ : BitVec 1) (m_ : BitVec 1) (t_ : BitVec 5) (s_ : BitVec 5) (d_ : BitVec 5) : RoundTrip.Statement (.vbcastVx a_ m_ t_ s_ d_) := fun hw _ => decode_encode32 _ rfl rfl (by
  have h : decodeWord32 (lookupField (encodeFields (.vbcastVx a_ m_ t_ s_ d_))) = some (.vbcastVx (readBack a_) (readBack m_) (readBack t_) (readBack s_) (readBack d_)) := rfl
  simpa only [readBack_eq] using h) hw

theorem RoundTrip.vmrotVx (a_ : BitVec 1) (m_ : BitVec 1) (t_ : BitVec 5) (s_ : BitVec 5) (d_ : BitVec 5) : RoundTrip.Statement (.vmrotVx a_ m_ t_ s_ d_) := fun hw _ => decode_encode32 _ rfl rfl (by
  have h : decodeWord32 (lookupField (encodeFields (.vmrotVx a_ m_ t_ s_ d_))) = some (.vmrotVx (readBack a_) (readBack m_) (readBack t_) (readBack s_) (readBack d_)) := rfl
  simpa only [readBack_eq] using h) hw

theorem RoundTrip.vld (a_ : BitVec 1) (m_ : BitVec 1) (s_ : BitVec 5) (d_ : BitVec 5) : RoundTrip.Statement (.vld a_ m_ s_ d_) := fun hw _ => decode_encode32 _ rfl rfl (by
  have h : decodeWord32 (lookupField (encodeFields (.vld a_ m_ s_ d_))) = some (.vld (readBack a_) (readBack m_) (readBack s_) (readBack d_)) := rfl
  simpa only [readBack_eq] using h) hw

theorem RoundTrip.vst (a_ : BitVec 1) (m_ : BitVec 1) (s_ : BitVec 5) (d_ : BitVec 5) : RoundTrip.Statement (.vst a_ m_ s_ d_) := fun hw _ => decode_encode32 _ rfl rfl (by
  have h : decodeWord32 (lookupField (encodeFields (.vst a_ m_ s_ d_))) = some (.vst (readBack a_) (readBack m_) (readBack s_) (readBack d_)) := rfl
  simpa only [readBack_eq] using h) hw

theorem RoundTrip.vlds (a_ : BitVec 1) (m_ : BitVec 1) (t_ : BitVec 5) (s_ : BitVec 5) (d_ : BitVec 5) : RoundTrip.Statement (.vlds a_ m_ t_ s_ d_) := fun hw _ => decode_encode32 _ rfl rfl (by
  have h : decodeWord32 (lookupField (encodeFields (.vlds a_ m_ t_ s_ d_))) = some (.vlds (readBack a_) (readBack m_) (readBack t_) (readBack s_) (readBack d_)) := rfl
  simpa only [readBack_eq] using h) hw

theorem RoundTrip.vsts (a_ : BitVec 1) (m_ : BitVec 1) (t_ : BitVec 5) (s_ : BitVec 5) (d_ : BitVec 5) : RoundTrip.Statement (.vsts a_ m_ t_ s_ d_) := fun hw _ => decode_encode32 _ rfl rfl (by
  have h : decodeWord32 (lookupField (encodeFields (.vsts a_ m_ t_ s_ d_))) = some (.vsts (readBack a_) (readBack m_) (readBack t_) (readBack s_) (readBack d_)) := rfl
  simpa only [readBack_eq] using h) hw

theorem RoundTrip.vldx (w_ : BitVec 2) (a_ : BitVec 1) (m_ : BitVec 1) (t_ : BitVec 5) (s_ : BitVec 5) (d_ : BitVec 5) : RoundTrip.Statement (.vldx w_ a_ m_ t_ s_ d_) := fun hw _ => decode_encode32 _ rfl rfl (by
  have h : decodeWord32 (lookupField (encodeFields (.vldx w_ a_ m_ t_ s_ d_))) = some (.vldx (readBack w_) (readBack a_) (readBack m_) (readBack t_) (readBack s_) (readBack d_)) := rfl
  simpa only [readBack_eq] using h) hw

theorem RoundTrip.vstx (w_ : BitVec 2) (a_ : BitVec 1) (m_ : BitVec 1) (t_ : BitVec 5) (s_ : BitVec 5) (d_ : BitVec 5) : RoundTrip.Statement (.vstx w_ a_ m_ t_ s_ d_) := fun hw _ => decode_encode32 _ rfl rfl (by
  have h : decodeWord32 (lookupField (encodeFields (.vstx w_ a_ m_ t_ s_ d_))) = some (.vstx (readBack w_) (readBack a_) (readBack m_) (readBack t_) (readBack s_) (readBack d_)) := rfl
  simpa only [readBack_eq] using h) hw

theorem RoundTrip.vldsp (tr_ : BitVec 1) (a_ : BitVec 1) (m_ : BitVec 1) (k_ : BitVec 5) (s_ : BitVec 5) (d_ : BitVec 5) : RoundTrip.Statement (.vldsp tr_ a_ m_ k_ s_ d_) := fun hw _ => decode_encode32 _ rfl rfl (by
  have h : decodeWord32 (lookupField (encodeFields (.vldsp tr_ a_ m_ k_ s_ d_))) = some (.vldsp (readBack tr_) (readBack a_) (readBack m_) (readBack k_) (readBack s_) (readBack d_)) := rfl
  simpa only [readBack_eq] using h) hw

theorem RoundTrip.vstsp (tr_ : BitVec 1) (a_ : BitVec 1) (m_ : BitVec 1) (k_ : BitVec 5) (s_ : BitVec 5) (d_ : BitVec 5) : RoundTrip.Statement (.vstsp tr_ a_ m_ k_ s_ d_) := fun hw _ => decode_encode32 _ rfl rfl (by
  have h : decodeWord32 (lookupField (encodeFields (.vstsp tr_ a_ m_ k_ s_ d_))) = some (.vstsp (readBack tr_) (readBack a_) (readBack m_) (readBack k_) (readBack s_) (readBack d_)) := rfl
  simpa only [readBack_eq] using h) hw

theorem RoundTrip.mmode (a_ : BitVec 5) (d_ : BitVec 5) : RoundTrip.Statement (.mmode a_ d_) := fun hw _ => decode_encode32 _ rfl rfl (by
  have h : decodeWord32 (lookupField (encodeFields (.mmode a_ d_))) = some (.mmode (readBack a_) (readBack d_)) := rfl
  simpa only [readBack_eq] using h) hw

theorem RoundTrip.mzero : RoundTrip.Statement (.mzero) := fun hw _ => decode_encode32 _ rfl rfl (rfl) hw

theorem RoundTrip.mtree (t_ : BitVec 1) : RoundTrip.Statement (.mtree t_) := fun hw _ => decode_encode32 _ rfl rfl (by
  have h : decodeWord32 (lookupField (encodeFields (.mtree t_))) = some (.mtree (readBack t_)) := rfl
  simpa only [readBack_eq] using h) hw

theorem RoundTrip.mrd (t_ : BitVec 1) (f_ : BitVec 5) (b_ : BitVec 5) (a_ : BitVec 5) (d_ : BitVec 5) : RoundTrip.Statement (.mrd t_ f_ b_ a_ d_) := fun hw _ => decode_encode32 _ rfl rfl (by
  have h : decodeWord32 (lookupField (encodeFields (.mrd t_ f_ b_ a_ d_))) = some (.mrd (readBack t_) (readBack f_) (readBack b_) (readBack a_) (readBack d_)) := rfl
  simpa only [readBack_eq] using h) hw

theorem RoundTrip.mwr (t_ : BitVec 1) (f_ : BitVec 5) (b_ : BitVec 5) (a_ : BitVec 5) (d_ : BitVec 5) : RoundTrip.Statement (.mwr t_ f_ b_ a_ d_) := fun hw _ => decode_encode32 _ rfl rfl (by
  have h : decodeWord32 (lookupField (encodeFields (.mwr t_ f_ b_ a_ d_))) = some (.mwr (readBack t_) (readBack f_) (readBack b_) (readBack a_) (readBack d_)) := rfl
  simpa only [readBack_eq] using h) hw

theorem RoundTrip.mopa (b_ : BitVec 5) (a_ : BitVec 5) : RoundTrip.Statement (.mopa b_ a_) := fun hw _ => decode_encode32 _ rfl rfl (by
  have h : decodeWord32 (lookupField (encodeFields (.mopa b_ a_))) = some (.mopa (readBack b_) (readBack a_)) := rfl
  simpa only [readBack_eq] using h) hw

theorem RoundTrip.mopaSc (b_ : BitVec 5) (a_ : BitVec 5) (d_ : BitVec 5) : RoundTrip.Statement (.mopaSc b_ a_ d_) := fun hw _ => decode_encode32 _ rfl rfl (by
  have h : decodeWord32 (lookupField (encodeFields (.mopaSc b_ a_ d_))) = some (.mopaSc (readBack b_) (readBack a_) (readBack d_)) := rfl
  simpa only [readBack_eq] using h) hw

theorem RoundTrip.gadd (b_ : BitVec 5) (a_ : BitVec 5) (d_ : BitVec 5) : RoundTrip.Statement (.gadd b_ a_ d_) := fun hw _ => decode_encode32 _ rfl rfl (by
  have h : decodeWord32 (lookupField (encodeFields (.gadd b_ a_ d_))) = some (.gadd (readBack b_) (readBack a_) (readBack d_)) := rfl
  simpa only [readBack_eq] using h) hw

theorem RoundTrip.gelim (b_ : BitVec 5) (a_ : BitVec 5) (d_ : BitVec 5) : RoundTrip.Statement (.gelim b_ a_ d_) := fun hw _ => decode_encode32 _ rfl rfl (by
  have h : decodeWord32 (lookupField (encodeFields (.gelim b_ a_ d_))) = some (.gelim (readBack b_) (readBack a_) (readBack d_)) := rfl
  simpa only [readBack_eq] using h) hw

theorem RoundTrip.gdamp (b_ : BitVec 5) (a_ : BitVec 5) (d_ : BitVec 5) : RoundTrip.Statement (.gdamp b_ a_ d_) := fun hw _ => decode_encode32 _ rfl rfl (by
  have h : decodeWord32 (lookupField (encodeFields (.gdamp b_ a_ d_))) = some (.gdamp (readBack b_) (readBack a_) (readBack d_)) := rfl
  simpa only [readBack_eq] using h) hw

theorem RoundTrip.copy (w_ : BitVec 1) (z_ : BitVec 1) (m_ : BitVec 1) (k_ : BitVec 3) (b_ : BitVec 5) (a_ : BitVec 5) (d_ : BitVec 5) : RoundTrip.Statement (.copy w_ z_ m_ k_ b_ a_ d_) := fun hw _ => decode_encode32 _ rfl rfl (by
  have h : decodeWord32 (lookupField (encodeFields (.copy w_ z_ m_ k_ b_ a_ d_))) = some (.copy (readBack w_) (readBack z_) (readBack m_) (readBack k_) (readBack b_) (readBack a_) (readBack d_)) := rfl
  simpa only [readBack_eq] using h) hw

theorem RoundTrip.copy2d (w_ : BitVec 1) (z_ : BitVec 1) (m_ : BitVec 1) (k_ : BitVec 3) (b_ : BitVec 5) (a_ : BitVec 5) (d_ : BitVec 5) : RoundTrip.Statement (.copy2d w_ z_ m_ k_ b_ a_ d_) := fun hw _ => decode_encode32 _ rfl rfl (by
  have h : decodeWord32 (lookupField (encodeFields (.copy2d w_ z_ m_ k_ b_ a_ d_))) = some (.copy2d (readBack w_) (readBack z_) (readBack m_) (readBack k_) (readBack b_) (readBack a_) (readBack d_)) := rfl
  simpa only [readBack_eq] using h) hw

theorem RoundTrip.copygath (w_ : BitVec 1) (z_ : BitVec 1) (m_ : BitVec 1) (k_ : BitVec 3) (b_ : BitVec 5) (a_ : BitVec 5) (d_ : BitVec 5) : RoundTrip.Statement (.copygath w_ z_ m_ k_ b_ a_ d_) := fun hw _ => decode_encode32 _ rfl rfl (by
  have h : decodeWord32 (lookupField (encodeFields (.copygath w_ z_ m_ k_ b_ a_ d_))) = some (.copygath (readBack w_) (readBack z_) (readBack m_) (readBack k_) (readBack b_) (readBack a_) (readBack d_)) := rfl
  simpa only [readBack_eq] using h) hw

theorem RoundTrip.copyscat (w_ : BitVec 1) (z_ : BitVec 1) (m_ : BitVec 1) (k_ : BitVec 3) (b_ : BitVec 5) (a_ : BitVec 5) (d_ : BitVec 5) : RoundTrip.Statement (.copyscat w_ z_ m_ k_ b_ a_ d_) := fun hw _ => decode_encode32 _ rfl rfl (by
  have h : decodeWord32 (lookupField (encodeFields (.copyscat w_ z_ m_ k_ b_ a_ d_))) = some (.copyscat (readBack w_) (readBack z_) (readBack m_) (readBack k_) (readBack b_) (readBack a_) (readBack d_)) := rfl
  simpa only [readBack_eq] using h) hw

theorem RoundTrip.copyt (w_ : BitVec 1) (z_ : BitVec 1) (m_ : BitVec 1) (k_ : BitVec 3) (b_ : BitVec 5) (a_ : BitVec 5) (d_ : BitVec 5) : RoundTrip.Statement (.copyt w_ z_ m_ k_ b_ a_ d_) := fun hw _ => decode_encode32 _ rfl rfl (by
  have h : decodeWord32 (lookupField (encodeFields (.copyt w_ z_ m_ k_ b_ a_ d_))) = some (.copyt (readBack w_) (readBack z_) (readBack m_) (readBack k_) (readBack b_) (readBack a_) (readBack d_)) := rfl
  simpa only [readBack_eq] using h) hw

theorem RoundTrip.creduce (w_ : BitVec 1) (z_ : BitVec 1) (k_ : BitVec 3) (b_ : BitVec 5) (a_ : BitVec 5) (d_ : BitVec 5) : RoundTrip.Statement (.creduce w_ z_ k_ b_ a_ d_) := fun hw _ => decode_encode32 _ rfl rfl (by
  have h : decodeWord32 (lookupField (encodeFields (.creduce w_ z_ k_ b_ a_ d_))) = some (.creduce (readBack w_) (readBack z_) (readBack k_) (readBack b_) (readBack a_) (readBack d_)) := rfl
  simpa only [readBack_eq] using h) hw

theorem RoundTrip.cbcast (w_ : BitVec 1) (z_ : BitVec 1) (k_ : BitVec 3) (b_ : BitVec 5) (a_ : BitVec 5) (d_ : BitVec 5) : RoundTrip.Statement (.cbcast w_ z_ k_ b_ a_ d_) := fun hw _ => decode_encode32 _ rfl rfl (by
  have h : decodeWord32 (lookupField (encodeFields (.cbcast w_ z_ k_ b_ a_ d_))) = some (.cbcast (readBack w_) (readBack z_) (readBack k_) (readBack b_) (readBack a_) (readBack d_)) := rfl
  simpa only [readBack_eq] using h) hw

theorem RoundTrip.binit (f_ : BitVec 2) (b_ : BitVec 5) (a_ : BitVec 5) : RoundTrip.Statement (.binit f_ b_ a_) := fun hw _ => decode_encode32 _ rfl rfl (by
  have h : decodeWord32 (lookupField (encodeFields (.binit f_ b_ a_))) = some (.binit (readBack f_) (readBack b_) (readBack a_)) := rfl
  simpa only [readBack_eq] using h) hw

theorem RoundTrip.barrive (a_ : BitVec 5) : RoundTrip.Statement (.barrive a_) := fun hw _ => decode_encode32 _ rfl rfl (by
  have h : decodeWord32 (lookupField (encodeFields (.barrive a_))) = some (.barrive (readBack a_)) := rfl
  simpa only [readBack_eq] using h) hw

theorem RoundTrip.bwait (b_ : BitVec 5) (a_ : BitVec 5) (d_ : BitVec 5) : RoundTrip.Statement (.bwait b_ a_ d_) := fun hw _ => decode_encode32 _ rfl rfl (by
  have h : decodeWord32 (lookupField (encodeFields (.bwait b_ a_ d_))) = some (.bwait (readBack b_) (readBack a_) (readBack d_)) := rfl
  simpa only [readBack_eq] using h) hw

theorem RoundTrip.bquery (b_ : BitVec 5) (a_ : BitVec 5) (d_ : BitVec 5) : RoundTrip.Statement (.bquery b_ a_ d_) := fun hw _ => decode_encode32 _ rfl rfl (by
  have h : decodeWord32 (lookupField (encodeFields (.bquery b_ a_ d_))) = some (.bquery (readBack b_) (readBack a_) (readBack d_)) := rfl
  simpa only [readBack_eq] using h) hw

theorem RoundTrip.fadd (z_ : BitVec 1) (b_ : BitVec 5) (a_ : BitVec 5) (d_ : BitVec 5) : RoundTrip.Statement (.fadd z_ b_ a_ d_) := fun hw _ => decode_encode32 _ rfl rfl (by
  have h : decodeWord32 (lookupField (encodeFields (.fadd z_ b_ a_ d_))) = some (.fadd (readBack z_) (readBack b_) (readBack a_) (readBack d_)) := rfl
  simpa only [readBack_eq] using h) hw

theorem RoundTrip.fsub (z_ : BitVec 1) (b_ : BitVec 5) (a_ : BitVec 5) (d_ : BitVec 5) : RoundTrip.Statement (.fsub z_ b_ a_ d_) := fun hw _ => decode_encode32 _ rfl rfl (by
  have h : decodeWord32 (lookupField (encodeFields (.fsub z_ b_ a_ d_))) = some (.fsub (readBack z_) (readBack b_) (readBack a_) (readBack d_)) := rfl
  simpa only [readBack_eq] using h) hw

theorem RoundTrip.fmul (z_ : BitVec 1) (b_ : BitVec 5) (a_ : BitVec 5) (d_ : BitVec 5) : RoundTrip.Statement (.fmul z_ b_ a_ d_) := fun hw _ => decode_encode32 _ rfl rfl (by
  have h : decodeWord32 (lookupField (encodeFields (.fmul z_ b_ a_ d_))) = some (.fmul (readBack z_) (readBack b_) (readBack a_) (readBack d_)) := rfl
  simpa only [readBack_eq] using h) hw

theorem RoundTrip.fdiv (z_ : BitVec 1) (b_ : BitVec 5) (a_ : BitVec 5) (d_ : BitVec 5) : RoundTrip.Statement (.fdiv z_ b_ a_ d_) := fun hw _ => decode_encode32 _ rfl rfl (by
  have h : decodeWord32 (lookupField (encodeFields (.fdiv z_ b_ a_ d_))) = some (.fdiv (readBack z_) (readBack b_) (readBack a_) (readBack d_)) := rfl
  simpa only [readBack_eq] using h) hw

theorem RoundTrip.fsqrt (z_ : BitVec 1) (a_ : BitVec 5) (d_ : BitVec 5) : RoundTrip.Statement (.fsqrt z_ a_ d_) := fun hw _ => decode_encode32 _ rfl rfl (by
  have h : decodeWord32 (lookupField (encodeFields (.fsqrt z_ a_ d_))) = some (.fsqrt (readBack z_) (readBack a_) (readBack d_)) := rfl
  simpa only [readBack_eq] using h) hw

theorem RoundTrip.fmin (z_ : BitVec 1) (b_ : BitVec 5) (a_ : BitVec 5) (d_ : BitVec 5) : RoundTrip.Statement (.fmin z_ b_ a_ d_) := fun hw _ => decode_encode32 _ rfl rfl (by
  have h : decodeWord32 (lookupField (encodeFields (.fmin z_ b_ a_ d_))) = some (.fmin (readBack z_) (readBack b_) (readBack a_) (readBack d_)) := rfl
  simpa only [readBack_eq] using h) hw

theorem RoundTrip.fmax (z_ : BitVec 1) (b_ : BitVec 5) (a_ : BitVec 5) (d_ : BitVec 5) : RoundTrip.Statement (.fmax z_ b_ a_ d_) := fun hw _ => decode_encode32 _ rfl rfl (by
  have h : decodeWord32 (lookupField (encodeFields (.fmax z_ b_ a_ d_))) = some (.fmax (readBack z_) (readBack b_) (readBack a_) (readBack d_)) := rfl
  simpa only [readBack_eq] using h) hw

theorem RoundTrip.ftoi (z_ : BitVec 1) (a_ : BitVec 5) (d_ : BitVec 5) : RoundTrip.Statement (.ftoi z_ a_ d_) := fun hw _ => decode_encode32 _ rfl rfl (by
  have h : decodeWord32 (lookupField (encodeFields (.ftoi z_ a_ d_))) = some (.ftoi (readBack z_) (readBack a_) (readBack d_)) := rfl
  simpa only [readBack_eq] using h) hw

theorem RoundTrip.ftoin (z_ : BitVec 1) (a_ : BitVec 5) (d_ : BitVec 5) : RoundTrip.Statement (.ftoin z_ a_ d_) := fun hw _ => decode_encode32 _ rfl rfl (by
  have h : decodeWord32 (lookupField (encodeFields (.ftoin z_ a_ d_))) = some (.ftoin (readBack z_) (readBack a_) (readBack d_)) := rfl
  simpa only [readBack_eq] using h) hw

theorem RoundTrip.itof (z_ : BitVec 1) (a_ : BitVec 5) (d_ : BitVec 5) : RoundTrip.Statement (.itof z_ a_ d_) := fun hw _ => decode_encode32 _ rfl rfl (by
  have h : decodeWord32 (lookupField (encodeFields (.itof z_ a_ d_))) = some (.itof (readBack z_) (readBack a_) (readBack d_)) := rfl
  simpa only [readBack_eq] using h) hw

theorem RoundTrip.intof (z_ : BitVec 1) (a_ : BitVec 5) (d_ : BitVec 5) : RoundTrip.Statement (.intof z_ a_ d_) := fun hw _ => decode_encode32 _ rfl rfl (by
  have h : decodeWord32 (lookupField (encodeFields (.intof z_ a_ d_))) = some (.intof (readBack z_) (readBack a_) (readBack d_)) := rfl
  simpa only [readBack_eq] using h) hw

theorem RoundTrip.fnar (a_ : BitVec 5) (d_ : BitVec 5) : RoundTrip.Statement (.fnar a_ d_) := fun hw _ => decode_encode32 _ rfl rfl (by
  have h : decodeWord32 (lookupField (encodeFields (.fnar a_ d_))) = some (.fnar (readBack a_) (readBack d_)) := rfl
  simpa only [readBack_eq] using h) hw

theorem RoundTrip.fwid (a_ : BitVec 5) (d_ : BitVec 5) : RoundTrip.Statement (.fwid a_ d_) := fun hw _ => decode_encode32 _ rfl rfl (by
  have h : decodeWord32 (lookupField (encodeFields (.fwid a_ d_))) = some (.fwid (readBack a_) (readBack d_)) := rfl
  simpa only [readBack_eq] using h) hw

theorem RoundTrip.feq (z_ : BitVec 1) (b_ : BitVec 5) (a_ : BitVec 5) (d_ : BitVec 5) : RoundTrip.Statement (.feq z_ b_ a_ d_) := fun hw _ => decode_encode32 _ rfl rfl (by
  have h : decodeWord32 (lookupField (encodeFields (.feq z_ b_ a_ d_))) = some (.feq (readBack z_) (readBack b_) (readBack a_) (readBack d_)) := rfl
  simpa only [readBack_eq] using h) hw

theorem RoundTrip.flt (z_ : BitVec 1) (b_ : BitVec 5) (a_ : BitVec 5) (d_ : BitVec 5) : RoundTrip.Statement (.flt z_ b_ a_ d_) := fun hw _ => decode_encode32 _ rfl rfl (by
  have h : decodeWord32 (lookupField (encodeFields (.flt z_ b_ a_ d_))) = some (.flt (readBack z_) (readBack b_) (readBack a_) (readBack d_)) := rfl
  simpa only [readBack_eq] using h) hw

theorem RoundTrip.fle (z_ : BitVec 1) (b_ : BitVec 5) (a_ : BitVec 5) (d_ : BitVec 5) : RoundTrip.Statement (.fle z_ b_ a_ d_) := fun hw _ => decode_encode32 _ rfl rfl (by
  have h : decodeWord32 (lookupField (encodeFields (.fle z_ b_ a_ d_))) = some (.fle (readBack z_) (readBack b_) (readBack a_) (readBack d_)) := rfl
  simpa only [readBack_eq] using h) hw

theorem RoundTrip.fclass (z_ : BitVec 1) (a_ : BitVec 5) (d_ : BitVec 5) : RoundTrip.Statement (.fclass z_ a_ d_) := fun hw _ => decode_encode32 _ rfl rfl (by
  have h : decodeWord32 (lookupField (encodeFields (.fclass z_ a_ d_))) = some (.fclass (readBack z_) (readBack a_) (readBack d_)) := rfl
  simpa only [readBack_eq] using h) hw

theorem RoundTrip.fsgn (z_ : BitVec 1) (b_ : BitVec 5) (a_ : BitVec 5) (d_ : BitVec 5) : RoundTrip.Statement (.fsgn z_ b_ a_ d_) := fun hw _ => decode_encode32 _ rfl rfl (by
  have h : decodeWord32 (lookupField (encodeFields (.fsgn z_ b_ a_ d_))) = some (.fsgn (readBack z_) (readBack b_) (readBack a_) (readBack d_)) := rfl
  simpa only [readBack_eq] using h) hw

theorem RoundTrip.fsgnn (z_ : BitVec 1) (b_ : BitVec 5) (a_ : BitVec 5) (d_ : BitVec 5) : RoundTrip.Statement (.fsgnn z_ b_ a_ d_) := fun hw _ => decode_encode32 _ rfl rfl (by
  have h : decodeWord32 (lookupField (encodeFields (.fsgnn z_ b_ a_ d_))) = some (.fsgnn (readBack z_) (readBack b_) (readBack a_) (readBack d_)) := rfl
  simpa only [readBack_eq] using h) hw

theorem RoundTrip.fsgnx (z_ : BitVec 1) (b_ : BitVec 5) (a_ : BitVec 5) (d_ : BitVec 5) : RoundTrip.Statement (.fsgnx z_ b_ a_ d_) := fun hw _ => decode_encode32 _ rfl rfl (by
  have h : decodeWord32 (lookupField (encodeFields (.fsgnx z_ b_ a_ d_))) = some (.fsgnx (readBack z_) (readBack b_) (readBack a_) (readBack d_)) := rfl
  simpa only [readBack_eq] using h) hw

theorem RoundTrip.fmadd (z_ : BitVec 1) (b_ : BitVec 5) (a_ : BitVec 5) (d_ : BitVec 5) : RoundTrip.Statement (.fmadd z_ b_ a_ d_) := fun hw _ => decode_encode32 _ rfl rfl (by
  have h : decodeWord32 (lookupField (encodeFields (.fmadd z_ b_ a_ d_))) = some (.fmadd (readBack z_) (readBack b_) (readBack a_) (readBack d_)) := rfl
  simpa only [readBack_eq] using h) hw

theorem RoundTrip.fmsub (z_ : BitVec 1) (b_ : BitVec 5) (a_ : BitVec 5) (d_ : BitVec 5) : RoundTrip.Statement (.fmsub z_ b_ a_ d_) := fun hw _ => decode_encode32 _ rfl rfl (by
  have h : decodeWord32 (lookupField (encodeFields (.fmsub z_ b_ a_ d_))) = some (.fmsub (readBack z_) (readBack b_) (readBack a_) (readBack d_)) := rfl
  simpa only [readBack_eq] using h) hw

theorem RoundTrip.fnmadd (z_ : BitVec 1) (b_ : BitVec 5) (a_ : BitVec 5) (d_ : BitVec 5) : RoundTrip.Statement (.fnmadd z_ b_ a_ d_) := fun hw _ => decode_encode32 _ rfl rfl (by
  have h : decodeWord32 (lookupField (encodeFields (.fnmadd z_ b_ a_ d_))) = some (.fnmadd (readBack z_) (readBack b_) (readBack a_) (readBack d_)) := rfl
  simpa only [readBack_eq] using h) hw

theorem RoundTrip.oxli (i_ : BitVec 20) (n_ : BitVec 3) : RoundTrip.Statement (.oxli i_ n_) := fun hw _ => decode_encode32 _ rfl rfl (by
  have h : decodeWord32 (lookupField (encodeFields (.oxli i_ n_))) = some (.oxli (readBack i_) (readBack n_)) := rfl
  simpa only [readBack_eq] using h) hw

theorem RoundTrip.oxhi (i_ : BitVec 20) (n_ : BitVec 3) : RoundTrip.Statement (.oxhi i_ n_) := fun hw _ => decode_encode32 _ rfl rfl (by
  have h : decodeWord32 (lookupField (encodeFields (.oxhi i_ n_))) = some (.oxhi (readBack i_) (readBack n_)) := rfl
  simpa only [readBack_eq] using h) hw

theorem RoundTrip.oxmv (a_ : BitVec 5) (n_ : BitVec 3) : RoundTrip.Statement (.oxmv a_ n_) := fun hw _ => decode_encode32 _ rfl rfl (by
  have h : decodeWord32 (lookupField (encodeFields (.oxmv a_ n_))) = some (.oxmv (readBack a_) (readBack n_)) := rfl
  simpa only [readBack_eq] using h) hw

theorem RoundTrip.oxrd (d_ : BitVec 5) (n_ : BitVec 3) : RoundTrip.Statement (.oxrd d_ n_) := fun hw _ => decode_encode32 _ rfl rfl (by
  have h : decodeWord32 (lookupField (encodeFields (.oxrd d_ n_))) = some (.oxrd (readBack d_) (readBack n_)) := rfl
  simpa only [readBack_eq] using h) hw

theorem RoundTrip.rsplit (a_ : BitVec 5) (d_ : BitVec 5) : RoundTrip.Statement (.rsplit a_ d_) := fun hw _ => decode_encode32 _ rfl rfl (by
  have h : decodeWord32 (lookupField (encodeFields (.rsplit a_ d_))) = some (.rsplit (readBack a_) (readBack d_)) := rfl
  simpa only [readBack_eq] using h) hw

theorem RoundTrip.rmerge (a_ : BitVec 5) (d_ : BitVec 5) : RoundTrip.Statement (.rmerge a_ d_) := fun hw _ => decode_encode32 _ rfl rfl (by
  have h : decodeWord32 (lookupField (encodeFields (.rmerge a_ d_))) = some (.rmerge (readBack a_) (readBack d_)) := rfl
  simpa only [readBack_eq] using h) hw

theorem RoundTrip.rinv (s_ : BitVec 3) (b_ : BitVec 5) (a_ : BitVec 5) : RoundTrip.Statement (.rinv s_ b_ a_) := fun hw _ => decode_encode32 _ rfl rfl (by
  have h : decodeWord32 (lookupField (encodeFields (.rinv s_ b_ a_))) = some (.rinv (readBack s_) (readBack b_) (readBack a_)) := rfl
  simpa only [readBack_eq] using h) hw

theorem RoundTrip.rprobe (a_ : BitVec 5) (d_ : BitVec 5) : RoundTrip.Statement (.rprobe a_ d_) := fun hw _ => decode_encode32 _ rfl rfl (by
  have h : decodeWord32 (lookupField (encodeFields (.rprobe a_ d_))) = some (.rprobe (readBack a_) (readBack d_)) := rfl
  simpa only [readBack_eq] using h) hw

theorem RoundTrip.waycfg (a_ : BitVec 5) (d_ : BitVec 5) : RoundTrip.Statement (.waycfg a_ d_) := fun hw _ => decode_encode32 _ rfl rfl (by
  have h : decodeWord32 (lookupField (encodeFields (.waycfg a_ d_))) = some (.waycfg (readBack a_) (readBack d_)) := rfl
  simpa only [readBack_eq] using h) hw

theorem RoundTrip.cwflush (b_ : BitVec 5) (a_ : BitVec 5) (d_ : BitVec 5) : RoundTrip.Statement (.cwflush b_ a_ d_) := fun hw _ => decode_encode32 _ rfl rfl (by
  have h : decodeWord32 (lookupField (encodeFields (.cwflush b_ a_ d_))) = some (.cwflush (readBack b_) (readBack a_) (readBack d_)) := rfl
  simpa only [readBack_eq] using h) hw

theorem RoundTrip.cwinv (b_ : BitVec 5) (a_ : BitVec 5) (d_ : BitVec 5) : RoundTrip.Statement (.cwinv b_ a_ d_) := fun hw _ => decode_encode32 _ rfl rfl (by
  have h : decodeWord32 (lookupField (encodeFields (.cwinv b_ a_ d_))) = some (.cwinv (readBack b_) (readBack a_) (readBack d_)) := rfl
  simpa only [readBack_eq] using h) hw

theorem RoundTrip.brk (c_ : BitVec 5) : RoundTrip.Statement (.brk c_) := fun hw _ => decode_encode32 _ rfl rfl (by
  have h : decodeWord32 (lookupField (encodeFields (.brk c_))) = some (.brk (readBack c_)) := rfl
  simpa only [readBack_eq] using h) hw

theorem RoundTrip.nfall (a_ : BitVec 5) : RoundTrip.Statement (.nfall a_) := fun hw _ => decode_encode32 _ rfl rfl (by
  have h : decodeWord32 (lookupField (encodeFields (.nfall a_))) = some (.nfall (readBack a_)) := rfl
  simpa only [readBack_eq] using h) hw

theorem RoundTrip.illegalOp (w_ : BitVec 32) : RoundTrip.Statement (.illegalOp w_) := fun _ h => absurd rfl h

theorem RoundTrip.pass (core_ : Nat) : RoundTrip.Statement (.pass core_) := fun _ h => absurd rfl h

theorem RoundTrip.accumulationEnd (core_ : Nat) : RoundTrip.Statement (.accumulationEnd core_) := fun _ h => absurd rfl h

theorem RoundTrip.daybreakAcknowledgement (a_ : AckIn) : RoundTrip.Statement (.daybreakAcknowledgement a_) := fun _ h => absurd rfl h

theorem RoundTrip.beatRetransmission (b_ : Beat) (ok_ : Bool) : RoundTrip.Statement (.beatRetransmission b_ ok_) := fun _ h => absurd rfl h

end Sys2Proof.Laws
end

