-- ==== Sys2Proof/Tests/Slice0.lean ====
section
/-!
SUPPORT. The row's own tests: ill-formed terms that WellFormed refuses, words of every family written out from the spec's encodings, the
spec's worked examples, and, for every statement with hypotheses, a state and operands that meet them (`wit_…`).
-/

open Sys2Proof Sys2Proof.Machine

namespace Sys2Proof.Tests

set_option Elab.async false

/-! ## States -/

/-- After reset, slot 0 of core 0 READY at system level. -/
def core0 : Core := Core.reset.mapHarts fun k h => if k = 0 then { h with st := .ready } else h

/-- A range of 2^20 lines at virtual 0 with every right, mapped to the GPA g of the class cls. -/
def range (g cls : Nat) : RDesc :=
  { w0 := BitVec.ofNat 64 (1 + 4 * cls), w1 := BitVec.ofNat 64 (64 * (2 ^ 20 - 1) + 31), w2 := BitVec.ofNat 64 g
    w3 := BitVec.ofNat 64 ((2 ^ 20 - 1) * 2 ^ 32) }

def withCore (f : Core → Core) : State := setCore State.reset 0 (f core0)
def withHart (f : Hart → Hart) : State := updHart (withCore id) 0 0 f
def ready : State := withCore id
def user : State := withHart fun h => { h with xstat := 0 }
def inSlot (k : Fin 8) (s : State) : State := { updHart s 0 k fun h => { h with st := .ready } with curSlot := k }

/-- Virtual 0 is DRAM of column 0. -/
def dram (cls : Nat) : State := withCore fun q => { q with rcache := [⟨0, range 0 cls⟩] }
/-- Virtual 0 is bank 15 of core 0. -/
def bank : State := withCore fun q => { q with nbank := 1, rcache := [⟨0, range 0x100003C0000 2⟩] }
def isDram (s : State) (a : Nat) : Bool := match targetOf s a with | .dram _ _ => true | _ => false
def put (a : Nat) (b : BitVec 8) (s : State) : State := { s with mem := memPut s.mem a b }

/-- Slot 0 is the vector hart of a core with n array ways, VL and VTYPE as given. -/
def vector (narr vl : Nat) (vtype : BitVec 64) : State :=
  withCore fun q => { q with narr := narr, vec := { Vec.bindTo (some 0) with vl := BitVec.ofNat 64 vl, vtype := vtype } }

/-! ## Scalar instructions -/

theorem wit_BranchAndJumpTargets_jump_even : (gr ready 5 + BitVec.ofInt 64 (4#12).toInt).getLsbD 0 = false ∧ (gr ready 1).getLsbD 0 = false := by decide +kernel
theorem wit_BranchAndJumpTargets_jump_odd : (gr ready 5 + BitVec.ofInt 64 (3#12).toInt).getLsbD 0 = true ∧
    (gr (withHart fun h => h.setG 1 7) 1).getLsbD 0 = true := by decide +kernel
theorem wit_BranchAndJumpTargets_branch_fn3 : (0xC0000031#32).getLsbD 0 = true ∧ (0xC0000031#32).extractLsb' 1 6 = 0x18 ∧
    6 ≤ ((0xC0000031#32).extractLsb' 29 3).toNat := by decide
theorem wit_BranchAndJumpTargets_jump_fn3 : (0x20000035#32).getLsbD 0 = true ∧ (0x20000035#32).extractLsb' 1 6 = 0x1A ∧
    (0x20000035#32).extractLsb' 29 3 ≠ 0 := by decide
theorem wit_FloatArithmeticResults : fstatRm ready < 6 := by decide +kernel
theorem wit_FloatArithmeticResults_reserved : 6 ≤ fstatRm (withHart fun h => { h with fstat := 0x600 }) := by decide +kernel
theorem wit_FloatConversionResults : fstatRm (withHart fun h => { h with fstat := 0x500 }) < 6 := by decide +kernel
theorem wit_RoundingKeepsRepresentable : 0x3F800000 < 2 ^ f32.width ∧ f32.value 0x3F800000 = .fin false 8388608 (-23) := by decide +kernel

theorem wit_BankLoadResults : (loadForm bank (.ldD 8 0 3)).isSome ∧ reaches bank needRd 8 true false 8 = some (0x100003C0008, 2) ∧
    bankAnswers bank (performedAt bank 0x100003C0008) 8 = true := by decide +kernel
theorem wit_CachedLoadResults_home : (loadForm (dram 0) (.ldDNc 8 0 3)).isSome ∧ reaches (dram 0) needRd 8 true false 8 = some (8, 0) ∧
    dramAnswers (dram 0) 8 8 = true ∧ isDram (dram 0) 8 = true := by decide +kernel
theorem wit_CachedLoadResults_home_bypass : (loadForm (dram 2) (.ldD 8 0 3)).isSome ∧ reaches (dram 2) needRd 8 true false 8 = some (8, 2) ∧
    dramAnswers (dram 2) 8 8 = true ∧ isDram (dram 2) 8 = true := by decide +kernel
/-- The hart has written to slice 0. -/
def touching : State := updHart (dram 0) 0 0 fun h => { h with tsmask := 1 }
theorem wit_CachedLoadResults_home_c : (loadForm touching (.ldDC 8 0 3)).isSome ∧ reaches touching needRd 8 true false 8 = some (8, 0) ∧
    dramAnswers touching 8 8 = true ∧ isDram touching 8 = true ∧ combinable (me touching) (destOf touching touching.curCore 8) = false ∧
    ownedValue (translated touching needRd 8) .cn 8 0 8 = none := by decide +kernel
/-- The same where slot 0's own cache way owns the line, dirty. -/
def owning : State := updHart (withCore fun q => { q with rcache := [⟨0, range 0 0⟩], cw := [(0, [⟨0, 0, 256, true, true, 0xAB0000000000000000#512⟩])] }) 0 0
  fun h => { h with tsmask := 1 }
theorem wit_CachedLoadResults_owned : reaches owning needRd 8 true false 8 = some (8, 0) ∧ dramAnswers owning 8 8 = true ∧
    isDram owning 8 = true ∧ combinable (me owning) (destOf owning owning.curCore 8) = false ∧
    (ownedValue (translated owning needRd 8) .cn 8 0 8).isSome := by decide +kernel
theorem wit_CachedLoadResults_combinable : (loadForm (dram 1) (.ldDC 8 0 3)).isSome ∧ reaches (dram 1) needRd 8 true false 8 = some (8, 1) ∧
    dramAnswers (dram 1) 8 8 = true ∧ isDram (dram 1) 8 = true ∧ combinable (me (dram 1)) (destOf (dram 1) (dram 1).curCore 8) = true ∧
    (dram 1).split = true := by decide +kernel
def l0Line : State := withCore fun q => { q with rcache := [⟨0, range 0 1⟩], l0d := [(0, [(0, 0x1234#512)])] }
theorem wit_CachedLoadResults_l0 : (loadForm l0Line (.ldD 8 0 3)).isSome ∧ reaches l0Line needRd 8 true false 8 = some (8, 1) ∧
    dramAnswers l0Line 8 8 = true ∧ (l0Find (myCore l0Line).l0d (l0dSet (8 / 64)) (8 / 64)).isSome := by decide +kernel
theorem wit_CachedLoadResults_fill : (loadForm (dram 1) (.ldD 8 0 3)).isSome ∧ reaches (dram 1) needRd 8 true false 8 = some (8, 1) ∧
    l0Find (myCore (dram 1)).l0d (l0dSet (8 / 64)) (8 / 64) = none ∧ inFlight (dram 1) (dram 1).curCore (8 / 64 * 64) 64 = false ∧
    redQueued (myCore (dram 1)).wq (8 / 64 * 64) 64 = false := by decide +kernel
def queued : State := withCore fun q => { q with rcache := [⟨0, range 0 2⟩], wq := [⟨0, .store, 8, 8, 8, 0xAB, false⟩] }
theorem wit_CachedLoadResults_queue : (loadForm queued (.ldD 8 0 3)).isSome ∧ reaches queued needRd 8 true false 8 = some (8, 2) ∧
    (myCore queued).wq.getLast? = some ⟨0, .store, 8, 8, 8, 0xAB, false⟩ ∧ 8 = performedAt queued 8 ∧ degradedAt queued 8 = false ∧ loadRefused queued 8 8 = false := by decide +kernel
theorem wit_StoresEnterTheQueue_store : (storeForm (dram 0) (.stD 8 0 3)).isSome ∧ reaches (dram 0) needWr 8 false true 8 = some (8, 0) ∧
    (myCore (dram 0)).wq.length < 32 := by decide +kernel
theorem wit_StoresEnterTheQueue_red : (reductionForm (dram 2) (.redAdd 1 3 0)).isSome ∧
    reaches (dram 2) needRed 8 false true 0 = some (0, 2) ∧ (myCore (dram 2)).wq.length < 32 := by decide +kernel
/-- Virtual 0 is the privileged registers of column 0. -/
def registers : State := withCore fun q => { q with rcache := [⟨0, range 0x1F000000000 2⟩] }
def queueFull32 : State := withCore fun q =>
  { q with rcache := [⟨0, range 0 2⟩], wq := List.replicate 32 ⟨0, .store, 8, 8, 8, 0xAB, false⟩ }
theorem wit_StoresEnterTheQueue_full : (storeForm queueFull32 (.stD 8 0 3)).isSome ∧
    reaches queueFull32 needWr 8 false true 8 = some (8, 2) ∧ 32 ≤ (myCore queueFull32).wq.length := by decide +kernel
theorem wit_OwnerAndFullEmptyResults_atomic : bank.memOk ∧ (atomicForm bank (.amadd 1 5 0 9)).isSome ∧
    reaches bank needAm 8 true true 0 = some (0x100003C0000, 2) ∧ bankAnswers bank (performedAt bank 0x100003C0000) 8 = true := by decide +kernel
theorem wit_StoresEnterTheQueue_wrong : (storeForm registers (.stH 8 0 3)).isSome ∧
    reaches registers needWr 2 false true 8 = some (0x1F000000008, 2) ∧ isPrivReg registers 0x1F000000008 = true ∧
    freezing registers registers.curCore .busFault = false := by decide +kernel
theorem wit_OwnerAndFullEmptyResults_atomic_dram : (dram 2).memOk ∧ (atomicForm (dram 2) (.amadd 1 5 0 9)).isSome ∧
    reaches (dram 2) needAm 8 true true 0 = some (0, 2) ∧ isDram (dram 2) 0 = true ∧ dramAnswers (dram 2) 0 8 = true ∧ (dram 2).split = true := by
  decide +kernel
theorem wit_OwnerAndFullEmptyResults_atomic_none : registers.memOk ∧ (atomicForm registers (.amadd 1 5 0 9)).isSome ∧
    reaches registers needAm 8 true true 0 = some (0x1F000000000, 2) ∧ noAtomic registers 0x1F000000000 = true ∧
    amRefused registers 0x1F000000000 = false ∧ mayReach registers (colOf registers.curCore) 0x1F000000000 1 = true := by decide +kernel
/-- Virtual 0 is an offset of column 0 that nothing answers at. -/
def nowhere : State := withCore fun q => { q with rcache := [⟨0, range 0x1A000000000 2⟩] }
theorem wit_OwnerAndFullEmptyResults_atomic_refused : nowhere.memOk ∧ (atomicForm nowhere (.amadd 1 5 0 9)).isSome ∧
    reaches nowhere needAm 8 true true 0 = some (0x1A000000000, 2) ∧ amRefused nowhere 0x1A000000000 = true ∧
    freezing nowhere nowhere.curCore .busFault = false := by decide +kernel
def full0 : State := withCore fun q => { q with nbank := 1, rcache := [⟨0, range 0x100003C0000 2⟩], full := [(fullKey 15 0, true)] }
theorem wit_OwnerAndFullEmptyResults_ldf : full0.memOk ∧ targetOf full0 (performedAt full0 0x100003C0000) = .bank 0 15 0 ∧
    bankAnswers full0 (performedAt full0 0x100003C0000) 8 = true ∧ tabGet [] (coreAt full0 0).waiters 15 = [] ∧
    reaches full0 needRdWr 8 true false (gr full0 0) = some (0x100003C0000, 2) ∧ tabGet false (coreAt full0 0).full (fullKey 15 0) = true := by
  decide +kernel
theorem wit_OwnerAndFullEmptyResults_ste : bank.memOk ∧ targetOf bank (performedAt bank 0x100003C0000) = .bank 0 15 0 ∧
    bankAnswers bank (performedAt bank 0x100003C0000) 8 = true ∧ tabGet [] (coreAt bank 0).waiters 15 = [] ∧
    reaches bank needWr 8 false true (gr bank 0) = some (0x100003C0000, 2) ∧ tabGet false (coreAt bank 0).full (fullKey 15 0) = false ∧ (myCore bank).wq.length < 32 := by
  decide +kernel
theorem wit_OwnerAndFullEmptyResults_mailbox_put : Fenced ready ∧ (7#5).toNat < 8 ∧ (∀ k, mbWaits (hartAt ready ready.curCore k) (7#5).toNat = false) ∧
    (myCore ready).mbFull.getLsbD 7 = false := by decide +kernel
def mbFull7 : State := withCore fun q => { q with mbFull := 0x80 }
theorem wit_OwnerAndFullEmptyResults_mailbox_get : Fenced mbFull7 ∧ (∀ k, mbWaits (hartAt mbFull7 mbFull7.curCore k) (7#5).toNat = false) ∧
    (myCore mbFull7).mbFull.getLsbD 7 = true := by decide +kernel
def odd : State := withHart fun h => h.setG 5 9
theorem wit_AccessTraps_misalign : (loadForm odd (.ldD 0 5 3)).isSome ∧ (storeForm odd (.stH 0 5 3)).isSome ∧ (atomicForm odd (.amadd 1 3 5 3)).isSome ∧
    (reductionForm odd (.redAdd 0 3 5)).isSome ∧ (gr odd 5).toNat % 8 ≠ 0 ∧ (gr odd 5).toNat % 2 ≠ 0 ∧ (gr odd 5).toNat % 4 ≠ 0 ∧ Settled odd ∧
    freezing odd odd.curCore .misalign = false := by decide +kernel
theorem wit_AccessTraps_miss : (loadForm ready (.ldD 8 0 3)).isSome ∧ Settled ready ∧ freezing ready ready.curCore .rangeMiss = false ∧
    (rcLookup (myCore ready).rcache (myCore ready).job 8).isNone ∧
    (walkFrom (colOf ready.curCore) (hdrOf (myCore ready).rdbase) 8 ready).isSome ∧
    (searchIdx ready (hdrOf (myCore ready).rdbase) 8).toOption = some none ∧ dirEdit ready (hdrOf (myCore ready).rdbase) = false := by decide +kernel
def readOnly : State := withCore fun q => { q with rcache := [⟨0, { range 0 0 with w1 := BitVec.ofNat 64 (64 * (2 ^ 20 - 1) + 1) }⟩] }
theorem wit_AccessTraps_perm : (storeForm readOnly (.stD 8 0 3)).isSome ∧ (rcLookup (myCore readOnly).rcache (myCore readOnly).job 8).isSome ∧
    ({ range 0 0 with w1 := BitVec.ofNat 64 (64 * (2 ^ 20 - 1) + 1) } : RDesc).perm &&& needWr ≠ needWr := by decide +kernel
def absent : RDesc := { range 0 0 with w3 := BitVec.ofNat 64 ((2 ^ 20 - 1) * 2 ^ 32 + 1) }
theorem wit_AccessTraps_partial : (rcLookup (myCore (withCore fun q => { q with rcache := [⟨0, absent⟩] })).rcache 0 8).isSome ∧
    absent.perm &&& needRd = needRd ∧ absent.resident 8 = false ∧ absent.resident 64 = true := by decide +kernel

theorem wit_AccessTraps_target : (loadForm registers (.ldH 8 0 3)).isSome ∧ reaches registers needRd 2 true false 8 = some (0x1F000000008, 2) ∧
    loadRefused registers 0x1F000000008 2 = true ∧ reaches nowhere needRd 8 true false 8 = some (0x1A000000008, 2) ∧
    loadRefused nowhere 0x1A000000008 8 = true ∧ freezing registers registers.curCore .busFault = false := by decide +kernel

/-! ## Ordering, waiting, system registers, traps -/

theorem wit_OrderingResults : Fenced ready ∧ nothingOut ready ready.curCore ready.curSlot = true ∧ unroutable ready (me ready) = none ∧
    (me ready).unsent = none ∧ (me ready).errAck = none ∧ (me ready).msgsOut = 0 ∧ (me ready).dropped = [] := by decide +kernel
theorem wit_OrderingResults_vfence : isVecHart (vector 2 4 3) = true ∧ Fenced (vector 2 4 3) ∧ isVecHart ready = false := by decide +kernel
def held : State := withHart fun h => { h with errAck := some 0x40 }
theorem wit_OrderingResults_error : Fenced held ∧ freezing held held.curCore .busFault = false ∧
    nothingOut held held.curCore held.curSlot = true ∧ (me held).errAck = some 0x40 := by decide +kernel
theorem wit_WaitingInstructions_barw : Fenced ready ∧ ready.curSlot ≠ 7 ∧ nothingOut ready ready.curCore ready.curSlot = true ∧
    unroutable ready (me ready) = none ∧ (me ready).unsent = none ∧ (me ready).errAck = none ∧
    (myCore ready).latchDone.getLsbD 2 = false ∧ (myCore (withCore fun q => { q with latchDone := 7 })).latchDone.getLsbD 2 = true := by decide +kernel
theorem wit_WaitingInstructions_park : Fenced ready ∧ Fenced (inSlot 7 ready) ∧ (inSlot 7 ready).curSlot = 7 ∧ (me (withHart fun h => { h with latch := 3 })).latch ≠ 0 ∧ (me ready).latch = 0 ∧ (me ready).timer = none ∧
    (gr ready 0).toNat % 2 ^ 32 = 0 ∧ (gr odd 5).toNat % 2 ^ 32 ≠ 0 := by decide +kernel
theorem wit_WaitingInstructions_waitt : Fenced (inSlot 6 ready) ∧ (inSlot 6 ready).curSlot = 6 ∧
    (∀ n : Fin 8, (gr (inSlot 6 ready) 5).getLsbD n.val = true → (myCore (inSlot 6 ready)).tok.get n = 0) ∧ ready.curSlot ≠ 6 := by decide +kernel
theorem wit_SystemRegisterAccess : Settled ready ∧ isSys ready = true ∧ isVecHart (vector 2 4 3) = true ∧ Settled (vector 2 4 3) := by decide +kernel
theorem wit_AccessRightTraps_priv : isSys user = false ∧ Settled user ∧ freezing user user.curCore .priv = false ∧ (0x800#12).getLsbD 11 = true := by
  decide +kernel
theorem wit_AccessRightTraps_number : (0x013#12).getLsbD 11 = false ∧ sysGet user user.curCore user.curSlot 0x013 = none ∧
    isVecHart user = false ∧ isSys ready = true ∧
    (myCore ready).vec.bound = false ∧ ready.curSlot ≠ 7 := by decide +kernel
def freezes : State := { withCore fun q => { q with ctxjob := 5, dbgctl := 0x8000000000004000 } with
  night := { State.reset.night with nfctl := 0x500000000 } }
theorem wit_TrapEntry : Settled ready ∧ freezing ready ready.curCore .syscall = false ∧ Settled freezes ∧
    freezing freezes freezes.curCore .syscall = true := by decide +kernel
theorem wit_TrapReturnAndNightfall : isSys ready = true ∧ Fenced ready ∧ ready.night.nfstat.getLsbD 63 = false := by decide +kernel
theorem wit_MemoryCanonicalKept : ready.memOk := by decide +kernel
theorem wit_DecodeEncode : (Instr.add 1 2 3).wf = true ∧ encodeBits (.add 1 2 3) ≠ 0 ∧ (Instr.addi16 3 1).wf = true ∧ encodeBits (.addi16 3 1) ≠ 0 := by
  decide +kernel

/-! ## Vector instructions, the tile, the block port -/

def fAdd : VForm := ⟨.add, false, 3, 1, 2, false, 0, 0⟩
theorem wit_VectorElementResults : elemForm (.vaddVv 0 0 0 0 1 2 3) = some fAdd ∧ fAdd.runs (vector 2 4 3) = true ∧ fAdd.op ≠ .seed ∧
    fAdd.op ≠ .rng ∧ (fAdd.op.rounds && (fAdd.cmd (vector 2 4 3)).rm == 5) = false := ⟨rfl, by decide +kernel⟩
def fRsr : VForm := ⟨.fadd, false, 3, 1, 2, false, 0, 0⟩
theorem wit_VectorElementResults_rsr : elemForm (.vfaddVv 0 0 0 0 1 2 3) = some fRsr ∧ fRsr.runs (vector 2 4 0x505) = true ∧
    (fRsr.op.rounds && (fRsr.cmd (vector 2 4 0x505)).rm == 5) = true ∧ (fRsr.cmd (vector 2 4 0x505)).vl ≤ (myCore (vector 2 4 0x505)).glanes :=
  ⟨rfl, by decide +kernel⟩
theorem wit_VectorElementResults_queues : queues (vector 2 4 3) = true ∧ (me (vector 2 4 3)).st = .ready := by
  decide +kernel
theorem wit_IntegerElementValues : vtSew 3 = 8 ∧ 8 ≤ 64 ∧ vtPl 3 = 0 ∧ vtUns 3 = false ∧ vtSew 0xE = 64 ∧ vtUns 0xE = true := by decide +kernel
theorem wit_VectorControlResults : isVecHart (vector 2 4 3) = true ∧ (myCore (vector 2 4 3)).owed = [] ∧
    (myCore (vector 2 4 3)).vec.convoy = [] ∧ vtOk 3 = true ∧ vtOk 7 = false ∧ (⟨.mvxs, true, 7, 1, 0, false, 0, 0⟩ : VForm).runs (vector 2 4 3) = true := by decide +kernel
def fRng : VForm := ⟨.rng, false, 3, 0, 0, false, 0, 0⟩
def fSeed : VForm := ⟨.seed, true, 0, 0, 5, false, 0, 0⟩
theorem wit_VectorControlResults_rng : elemForm (.vrngV 0 0 3) = some fRng ∧ fRng.runs (vector 2 4 3) = true ∧
    elemForm (.vseedVx 0 0 5) = some fSeed ∧ fSeed.runs (vector 2 4 3) = true ∧ (fRng.cmd (vector 2 4 3)).vl ≤ (myCore (vector 2 4 3)).glanes :=
  ⟨rfl, by decide +kernel, rfl, by decide +kernel⟩
def cross (o : VOp) (sc : Bool) (k : Nat) : VForm := ⟨o, sc, 6, 4, 2, false, 0, k⟩
theorem wit_ReductionResults : crossForm (.vredsumXs 0 0 4 2 6) = some (cross .redsum true 0) ∧
    (∀ o ∈ [VOp.redsum, .redmin, .redmax, .redand, .redor, .redxor, .redmini, .redmaxi], (cross o true 0).runs (vector 2 4 3) = true) ∧
    (∀ o ∈ [VOp.fredsum, .fredmin, .fredmax], (cross o true 0).runs (vector 2 4 5) = true) := ⟨rfl, by decide +kernel⟩
theorem wit_ReductionResults_indexed : (cross .redmini true 0).vd ≠ (cross .redmini true 0).vs1 ∧ (cross .redmini true 0).taken (vector 2 4 3) ≠ [] ∧
    (cross .redmini true 0).taken (vector 2 0 3) = [] ∧ (cross .redmini true 0).runs (vector 2 0 3) = true := by decide +kernel
theorem wit_SegmentResults : crossForm (.vsegsumV 2 0 0 4 6) = some ⟨.segsum, false, 6, 4, 0, false, 0, 8⟩ ∧
    (∀ o ∈ [VOp.segsum, .segmin, .segmax, .tree, .treeseg], (⟨o, false, 6, 4, 0, false, 0, 8⟩ : VForm).runs (vector 2 4 3) = true) ∧
    (∀ o ∈ [VOp.fsegsum, .fsegmin, .fsegmax, .ftree, .ftreeseg], (⟨o, false, 6, 4, 0, false, 0, 8⟩ : VForm).runs (vector 2 4 5) = true) :=
  ⟨rfl, by decide +kernel⟩
theorem wit_PermutationResults : crossForm (.vslideupVx 0 0 4 2 6) = some (cross .slideup true 0) ∧
    (∀ o ∈ [VOp.slideup, .slidedown, .slide1up, .slide1down, .bcast, .mrot], (cross o true 0).runs (vector 2 4 3) = true) ∧
    (∀ o ∈ [VOp.compress, .expand], (cross o false 0).runs (vector 2 4 3) = true) ∧
    (cross .gather false 0).runs (vector 2 4 5) = true := ⟨rfl, by decide +kernel⟩
def vecBank : State := withCore fun q => { q with narr := 2, nbank := 1, rcache := [⟨0, range 0x100003C0000 2⟩]
                                                  vec := { Vec.bindTo (some 0) with vl := 3, vtype := 3 } }
def mem (o : VOp) : VForm := ⟨o, false, 4, 8, 5, false, 0, if o = .ldx ∨ o = .stx then 32 else 0⟩
def memOps : List VOp := [.ld, .st, .lds, .sts, .ldx, .stx]
theorem wit_VectorMemoryResults : vecBank.memOk ∧ vmemForm (.vld 0 0 5 3) = some ⟨.ld, false, 3, 0, 5, false, 0, 0⟩ ∧
    (∀ o ∈ memOps, (mem o).ready vecBank = true ∧ (mem o).placed vecBank (fun _ => true) = true) ∧ (myCore vecBank).vec.vl = 3 :=
  ⟨by decide +kernel, rfl, by decide +kernel⟩
/-- Virtual 0 is DRAM of the own column, cached-coherent: its home collects the tokens; of another column, and bypass: it does not. -/
def vecDram (g cls : Nat) : State := withCore fun q =>
  { q with narr := 2, nbank := 1, rcache := [⟨0, range g cls⟩], vec := { Vec.bindTo (some 0) with vl := 3, vtype := 5 } }
theorem wit_VectorMemoryResults_dram : ∀ s ∈ [vecDram 0 0, vecDram 0 2, vecDram 0x200000000000 0], s.memOk ∧
    (∀ o ∈ memOps, (mem o).ready s = true) ∧ (∀ o ∈ memOps, (mem o).placed s (fun _ => true) = (o != .ldx)) := by decide +kernel
theorem wit_VectorMemoryResults_gathers : (mem .ldx).ready (vecDram 0 0) = true ∧ (mem .ldx).gathers (vecDram 0 0) 0 = true ∧
    ((mem .ldx).cmd (vecDram 0 0)).actives (vecDram 0 0) 0 0 3 = [0, 1, 2] ∧ (mem .ldx).placed { vecDram 0 0 with split := false } (fun _ => true) = true := by
  decide +kernel
theorem wit_VectorTraps_vown : isVecHart ready = false ∧ Settled ready ∧ freezing ready ready.curCore .vown = false ∧
    (vecForm (.vaddVv 0 0 0 0 1 2 3)).isSome = true := by decide +kernel
/-- The vector hart in matrix mode. -/
def inTile : State := withCore fun q => { q with narr := 2, vec := { Vec.bindTo (some 0) with vl := 4, vtype := 3, mstat := 0x8000000000000008 } }
theorem wit_VectorTraps_mmode : vecForm (.vtree 0 0 4 0 6) = some ⟨.tree, false, 6, 4, 0, false, 0, 0⟩ ∧ isVecHart inTile = true ∧
    (myCore inTile).quiet = true ∧ cmdHeld inTile = false ∧ (myCore inTile).mm = true := ⟨rfl, by decide +kernel⟩
/-- One refusal for each rule: the invalid VTYPE, a group past v31, an overlap of another width, v0 under a mask, a mask shorter than VL, VSTART. -/
theorem wit_VectorTraps_vcfg :
    (fAdd.issues (vector 2 4 0x8000000000000000) = true ∧ (myCore (vector 2 4 0x8000000000000000)).vec.vtype.getLsbD 63 = true) ∧
    (({ fAdd with vd := 31 } : VForm).issues (vector 2 4 0x1003) = true ∧ (31#5).toNat % VKind.regs .s (fAdd.cmd (vector 2 4 0x1003)).sew (fAdd.cmd (vector 2 4 0x1003)).grp ≠ 0) ∧
    (({ fAdd with m := true, vd := 0 } : VForm).issues (vector 2 4 3) = true ∧ VOp.add.dst.isSome = true) ∧
    ((cross .slideup true 0).issues (updCore (vector 2 4 3) 0 fun q => { q with vec := { q.vec with vstart := 1 } }) = true ∧ VOp.slideup.isCross = true) := by
  decide +kernel
/-- Nine array ways with the upper layer off: the lanes from 16384 on are unpowered. -/
def layerOff : State :=
  updCol (updCore (vector 9 16385 3) 0 fun q => { q with vec := { q.vec with vstart := 16383 } }) 0 fun c => { c with layerctl := 0 }
theorem wit_VectorTraps_layer : fAdd.issues layerOff = true ∧ fAdd.legal layerOff = true ∧ freezing layerOff 0 .layerOff = false ∧
    (fAdd.cmd layerOff).active layerOff 0 16383 = true ∧ laneOff layerOff 0 (16383 % (myCore layerOff).glanes) = false ∧
    (fAdd.cmd layerOff).active layerOff 0 16384 = true ∧ laneOff layerOff 0 (16384 % (myCore layerOff).glanes) = true ∧
    (fAdd.cmd layerOff).vstart = 16383 ∧ (fAdd.cmd layerOff).vl = 16385 := by decide +kernel
/-- A range of one line: element 8 of a strided load of 8-byte elements lies past its window. -/
def oneLine : State := withCore fun q =>
  { q with narr := 2, nbank := 1, rcache := [⟨0, { range 0x100003C0000 2 with w3 := 0 }⟩], vec := { Vec.bindTo (some 0) with vl := 9, vtype := 6 } }
theorem wit_VectorTraps_memory : oneLine.memOk ∧ (mem .ld).ready oneLine = true ∧ (mem .ld).failsAt oneLine 8 = some (.partialRes, 64) ∧
    (mem .ld).placed oneLine (fun y => decide (y < 8)) = true ∧ freezing oneLine 0 .partialRes = false ∧
    (mem .st).failsAt oneLine 8 = some (.partialRes, 64) ∧ (8 : Nat) ∈ ((mem .ld).cmd oneLine).actives oneLine 0 0 9 := by decide +kernel
theorem wit_VectorTraps_targets : ((mem .ld).failsAt { vecDram 0x1A000000000 2 with split := false } 0 = some (.busFault, 0)) ∧
    (mem .ld).failsAt (vecDram 0x1F000000000 2) 0 = some (.busFault, 0) ∧
    (mem .ld).failsAt (updHart (vecDram 0 2) 0 0 fun h => h.setG 5 1) 0 = some (.misalign, 1) := by decide +kernel
theorem wit_BankRowTransfers : vecBank.memOk ∧ spForm (.vldsp 0 0 0 15 0 3) = some ⟨.ldsp, false, 3, 15, 0, false, 0, 0⟩ ∧
    (∀ o ∈ [VOp.ldsp, .stsp], (⟨o, false, 3, 15, 0, false, 0, 0⟩ : VForm).runs vecBank = true ∧
      spBad ((⟨o, false, 3, 15, 0, false, 0, 0⟩ : VForm).cmd vecBank) vecBank = false ∧
      spBank ((⟨o, false, 3, 15, 0, false, 0, 0⟩ : VForm).cmd vecBank) vecBank = none ∧ storesToWay vecBank 15 = false ∧
      bankTaken (takeBank 0 0 15 vecBank) 0 0 15 = false) := ⟨by decide +kernel, rfl, by decide +kernel⟩
def tile : State := withCore fun q => { q with narr := 2, nbank := 4, ctxjob := 5, bfmt := Vector.replicate 16 8
                                               vec := { Vec.bindTo (some 0) with vl := 4, vtype := 3, mstat := 0x8000000000000008 } }
theorem wit_MatrixModeResults : tileReady tile = true ∧ (myCore tile).mm = true ∧ (myCore tile).mvl ≤ 64 := by decide +kernel
theorem wit_TileTraps : isVecHart ready = false ∧ Settled ready ∧ freezing ready ready.curCore .vown = false ∧
    isVecHart (vector 2 4 3) = true ∧ (myCore (vector 2 4 3)).quiet = true ∧ (myCore (vector 2 4 3)).mm = false ∧
    cmdHeld (vector 2 4 3) = false ∧ freezing (vector 2 4 3) 0 .mmode = false := by decide +kernel
theorem wit_TileTraps_operands : isVecHart tile = true ∧ (myCore tile).quiet = true ∧ cmdHeld tile = false ∧ (myCore tile).mm = true ∧ (opCheck tile tile.curCore.val (gr tile 0) (gr tile 0)).isSome = true := by decide +kernel
theorem wit_TileTransfers : tileRuns (tileCommand .ldsp 8 22 9 20 tile) tile = true ∧
    (tileCommand .ldsp 8 22 9 20 tile).vl ≤ vlmaxOf (myCore tile).glanes (tileCommand .ldsp 8 22 9 20 tile).vtype := by decide +kernel
def tile2 : State := updHart tile 0 0 fun h => (h.setG 5 0xC).setG 6 0xD
theorem wit_OuterProductResults : isVecHart tile2 = true ∧ cmdHeld tile2 = false ∧ (myCore tile2).quiet = true ∧ queues tile2 = true ∧
    opCore 0 (gr tile2 5) = 0 ∧ opCore 0 (gr tile2 6) = 0 ∧ (myCore tile2).vec.dtu = [] ∧ (myCore tile2).owed = [] ∧ (myCore tile2).mm = true ∧ (myCore tile2).mvl ≤ 64 ∧
    opCheck tile2 tile2.curCore.val (gr tile2 5) (gr tile2 6) = none := by decide +kernel
def images : State := updHart (put 0x1000030005F 0x40 (put 0x10000300020 0x80 (put 0x10000300000 2 tile))) 0 0 fun h =>
  ((h.setG 5 0xC).setG 6 0x200C).setG 7 1
/-- The same where accesses do not travel. -/
def whole : State := { images with split := false }
theorem wit_BlockImageResults : whole.memOk ∧ portReady whole [gr whole 5, gr whole 5, gr whole 6] = true ∧ portWhole whole = true ∧
    pairBad (readImage whole (gr whole 5)) (readImage whole (gr whole 5)) = false ∧
    pairBad (readImage whole (gr whole 6)) (readImage whole (gr whole 6)) = true ∧ freezing whole whole.curCore .fmt = false := by decide +kernel
theorem wit_BlockImageResults_travels : portReady images [gr images 5, gr images 5, gr images 6] = true ∧ portWhole images = false := by decide +kernel
/-- The hart stands at `gadd` with these blocks read and these to write. -/
def standing (reads writes : List (BitVec 512)) : State := updMe images fun h => { h with wait := .port 0 (gr images 5) (gr images 5) (gr images 6) reads writes }
theorem wit_BlockImageResults_turns : (standing [] []).memOk ∧ (portReads 0 (gr images 5) (gr images 5)).length = 2 ∧
    (List.replicate 10 (2#512)).length = 10 ∧ (myCore (updMe (standing [] []) fun h => { h with wait := .none })).quiet = true ∧
    (portResult 0 0 0 (imageOf 2) (imageOf 2)).isRight = true ∧ (portResult 0 0 0 (imageOf 0) (imageOf 0)).isLeft = true ∧
    (me (standing [] [7])).atPort = true := by decide +kernel
/-- A read turn keeps the first block, and the last write turn completes the instruction. -/
theorem test_port_reads : (match portTurn (standing [] []) with | .next t => (match (me t).wait with | .port _ _ _ _ r _ => r.length | _ => 9) | _ => 9) = 1 := by
  decide +kernel
theorem test_port_last : (match portTurn (standing [] [7]) with | .next t => (byteAt t 0x10000302100, (me t).pc - (me images).pc) | _ => (0, 0)) = (7, 4) := by
  decide +kernel
def badElim (s : State) : Bool :=
  let x := readImage s (gr s 5)
  let k := (gr s 7).toNat
  x.n == 0 || decide (8 < x.n) || x.dirty || k == 0 || decide (x.n ≤ k)
/-- Λ[0][0] is 1 in f32: the pivot is above the threshold. -/
def pivot : State := put 0x10000300043 0x3F (put 0x10000300042 0x80 images)
theorem wit_EliminationResults_travels : portReady images [gr images 5, gr images 6] = true ∧ portWhole images = false := by decide +kernel
theorem wit_EliminationResults : images.memOk ∧ pivot.memOk ∧ portReady whole [gr whole 5, gr whole 6] = true ∧ portWhole whole = true ∧
    portWhole { pivot with split := false } = true ∧ badElim images = false ∧
    blockElim (readImage images (gr images 5)) 1 ((me images).geps.toNat % 2 ^ 32) = .inl 0 ∧ badElim pivot = false ∧
    (match blockElim (readImage pivot (gr pivot 5)) 1 ((me pivot).geps.toNat % 2 ^ 32) with | .inr _ => true | _ => false) = true ∧
    badElim tile2 = true := by decide +kernel

/-! ## Requests, launches, saved contexts -/

def cells (l : List (Nat × Nat × Nat)) (s : State) : State := { s with mem := l.foldl (fun m x => memWrite m x.1 x.2.1 x.2.2) s.mem }

def copyHart : State := inSlot 6 (withCore fun q => { q with ctxjob := 5 })
def copyReady : State := updHart copyHart 0 6 fun h => h.setG 5 64
theorem wit_CopyRequests : copyCall (.copy 0 0 0 1 5 6 7) = some (0, 0, 0, 0, 1, 5, 6, 7) ∧ Fenced copyReady ∧ copyReady.curSlot = 6 ∧
    (∀ n, namesToken copyReady 0 1 n = true → (myCore copyReady).tok.get n ≠ 2) ∧ reqOk (mkReq 0 0 0 0 1 5 6 7 copyReady) copyReady = true ∧
    waiting ((colAt copyReady 0).eng.toList.getD 0 []) < 32 ∧ reqOk (mkReq 0 0 0 0 1 4 6 7 copyReady) copyReady = false ∧ ready.curSlot ≠ 6 := by
  decide +kernel
theorem wit_CopyRequests_error : (updCore copyReady 0 fun q => { q with tok := q.tok.set 1 2 }).curSlot = 6 ∧
    namesToken (updCore copyReady 0 fun q => { q with tok := q.tok.set 1 2 }) 0 1 1 = true ∧
    (myCore (updCore copyReady 0 fun q => { q with tok := q.tok.set 1 2 })).tok.get 1 = 2 ∧ freezing copyReady 0 .copyErr = false := by decide +kernel
def group : State := updHart (cells [(0x2000, 2, 2), (0x2008, 8, 1)] copyHart) 0 6 fun h => (h.setG 5 0x2000).setG 6 0x2001
theorem wit_CollectiveRequests : collCall (.creduce 0 0 1 5 6 7) = some (5, 0, 0, 1, 5, 6, 7) := rfl
theorem wit_CollectiveRequests_group : groupPlace group (gr group 5) = true ∧ groupGoes group (gr group 5).toNat = true ∧
    (ownerRead true (gr group 5).toNat 64 (groupSent group (gr group 5).toNat)).1 = some 18446744073709551618 ∧ groupOk group 18446744073709551618 (oxr group 3).toNat = true ∧
    (group.cores.all fun q => (q.2.cwFind ((gr group 5).toNat / 64)).isNone) = true ∧ groupPlace group (gr group 6) = false := by decide +kernel
theorem wit_CollectiveRequests_bad : (ownerRead true (gr copyReady 4).toNat 64 (groupSent copyReady (gr copyReady 4).toNat)).1 = some 0 ∧
    groupPlace copyReady (gr copyReady 4) = true ∧ groupOk copyReady 0 0 = false ∧ groupGoes copyReady (gr copyReady 4).toNat = true ∧ freezing copyReady copyReady.curCore .copyErr = false := by
  decide +kernel
/-- The group record stands on device 1, which has no route, or on a line that holds an uncorrectable error. -/
def groupFar : State := updHart group 0 6 fun h => h.setG 5 (BitVec.ofNat 64 (2 ^ 48 + 0x2000))
def groupBad : State := { group with cols := group.cols.set 0 { colAt group 0 with bad := [0x80] } }
theorem wit_CollectiveRequests_fault : groupPlace groupFar (gr groupFar 5) = true ∧ targetOf groupFar (gr groupFar 5).toNat = .device 1 ∧
    routeUp groupFar 0 1 = false ∧ freezing groupFar 0 .busFault = false ∧ groupPlace groupBad (gr groupBad 5) = true ∧
    groupGoes groupBad 0x2000 = true ∧ (ownerRead true 0x2000 64 (groupSent groupBad 0x2000)).1 = none := by decide +kernel
/-- Virtual 0 is barrier object 0 of column 0. -/
def barrier : State := withCore fun q => { q with rcache := [⟨0, range 0x18000000000 2⟩] }
theorem wit_BarrierInstructions : Settled barrier ∧ barrierAt barrier needWr (gr barrier 0) = some 0x18000000000 ∧ covered barrier 6 = true ∧
    barrierAt barrier needRd (gr barrier 0) = some 0x18000000000 ∧ targetOf barrier 0x18000000000 = .barrier 0 0 ∧ { barrier with split := false }.split = false ∧
    ((barAt barrier 0x18000000000).status.getLsbD 0 || (barAt barrier 0x18000000000).gen != (gr barrier 0).setWidth 32) = false := by decide +kernel
theorem wit_BarrierInstructions_sent : Fenced barrier ∧ barPending barrier 0x18000000000 = false ∧ State.reset.split = true ∧
    Settled { barrier with split := true } ∧ barrierAt { barrier with split := true } needRd (gr barrier 0) = some 0x18000000000 := by decide +kernel
theorem wit_BarrierInstructions_handler : (inSlot 7 barrier).curSlot = 7 ∧ barrierAt (inSlot 7 barrier) needRd 0 = some 0x18000000000 ∧
    freezing (inSlot 7 barrier) 0 .handlerBlock = false ∧ ((barAt barrier 0x18000000000).status.getLsbD 0 || (barAt barrier 0x18000000000).gen != 1) = true := by
  decide +kernel
def farBarrier : State := { withCore fun q => { q with rcache := [⟨0, range (2 ^ 48 + 0x18000000000) 2⟩] } with
  cols := State.reset.cols.map fun c => { c with route := [(1, 1)] }
  fabric := { State.reset.fabric with tflstat := Vector.replicate 16 (1#64 <<< 62) } }
theorem wit_BarrierInstructions_far : barrierAt farBarrier needRd (gr farBarrier 0) = some (2 ^ 48 + 0x18000000000) ∧
    targetOf farBarrier (2 ^ 48 + 0x18000000000) = .device 1 := by decide +kernel
theorem wit_BarrierInstructions_wait : Fenced barrier ∧ mayReach barrier (colOf barrier.curCore) 0x18000000000 1 = true ∧ barrier.curSlot ≠ 7 ∧
    Fenced farBarrier ∧ mayReach { farBarrier with fabric := { farBarrier.fabric with allow := (List.range 64).map fun n => (n, 1) } } 0 (2 ^ 48 + 0x18000000000) 1 = true ∧
    (me (updMe barrier fun h => { h with wait := .barrier 0x18000000000 5 })).wait = .barrier 0x18000000000 5 := by decide +kernel
/-- Two ranges at 0x10000: lines 0 to 15 and 16 to 31, on DRAM lines 0 and 16. -/
def directory : State := updHart (cells [(0x10000, 4, 2), (0x10040, 8, 1), (0x10048, 8, 64 * 15 + 31), (0x10058, 8, 15 * 2 ^ 32),
    (0x10060, 8, 64 * 16 + 1), (0x10068, 8, 64 * 31 + 31), (0x10070, 8, 0x400), (0x10078, 8, 15 * 2 ^ 32)]
  (withCore fun q => { q with rdbase := 0x10000 })) 0 0 fun h => ((h.setG 5 0x100).setG 6 0x10000).setG 7 0x104
theorem wit_RangeEdits : dirEdit directory (hdrOf (myCore directory).rdbase) = false ∧
    searchIdx directory (hdrOf (myCore directory).rdbase) (gr directory 5).toNat = .ok (some 0) ∧
    splitStatus directory (hdrOf (myCore directory).rdbase) 0 (gr directory 5).toNat = 0 ∧
    splitBad directory (hdrOf (myCore directory).rdbase) 0 (gr directory 5).toNat = false ∧ Fenced directory ∧ covered directory 1 = true ∧ directory.memOk ∧
    coreDrained directory directory.curCore = true ∧ mergeStatus directory (hdrOf (myCore directory).rdbase) 0 = 0 ∧
    mergeBad directory (hdrOf (myCore directory).rdbase) 0 = false ∧
    searchIdx directory (hdrOf (myCore directory).rdbase) (gr directory 6).toNat = .ok none := by decide +kernel
theorem wit_RangeEdits_readable : (walkFrom (colOf directory.curCore) 0x10000 0x100 directory).isSome = true ∧
    (∀ l < (dirCount directory 0x10000 + 6) / 2, lineClean directory (0x10000 + 64 * l) = true) ∧ homesCurrent directory := by
  refine ⟨by decide +kernel, by decide +kernel, fun c ln l h => ?_⟩
  match c with
  | 0 => exact absurd h (by show (none : Option CWLine) ≠ _; exact nofun)
  | c + 1 => exact absurd h (by show (none : Option CWLine) ≠ _; exact nofun)
/-- The same with a store of slot 1 still in the write queue. -/
def undrained : State := updCore directory 0 fun q => { q with wq := [⟨1, .store, 0x8000, 8, 0x8000, 1, false⟩] }
theorem wit_RangeEdits_drain : coreDrained undrained undrained.curCore = false ∧ Fenced undrained ∧ covered undrained 1 = true ∧
    searchIdx undrained 0x10000 0x100 = .ok (some 0) ∧ (walkFrom (colOf undrained.curCore) 0x10000 0x100 undrained).isSome = true := by decide +kernel
theorem wit_RangeEdits_refused : splitStatus directory (hdrOf (myCore directory).rdbase) 0 (gr directory 7).toNat = 2 ∧
    searchIdx directory (hdrOf (myCore directory).rdbase) (gr directory 7).toNat = .ok (some 0) ∧
    dirCount directory (hdrOf (myCore directory).rdbase) ≤ 1 + 1 := by decide +kernel
def lockedDir : State := cells [(0x10060, 8, 64 * 16 + 3)] directory
theorem wit_RangeEdits_locked : mergeStatus lockedDir 0x10000 0 = 3 ∧ mergeBad lockedDir 0x10000 0 = false ∧ 0 + 1 < dirCount lockedDir 0x10000 ∧
    (dirDesc lockedDir 0x10000 1).vbase = (dirDesc lockedDir 0x10000 0).vlast + 1 ∧ (dirDesc lockedDir 0x10000 1).valid = true ∧
    (dirDesc lockedDir 0x10000 1).malformed = false ∧ (dirDesc lockedDir 0x10000 1).locked = true := by decide +kernel
/-- An uncorrectable error in the directory's first descriptor line; a directory of five ranges whose third line holds one. -/
def badDir : State := { directory with cols := directory.cols.set 0 { colAt directory 0 with bad := [0x401] } }
def badNext : State :=
  let s := cells [(0x10000, 4, 5), (0x10080, 8, 64 * 32 + 1), (0x10088, 8, 64 * 47 + 31), (0x10090, 8, 0x800), (0x10098, 8, 15 * 2 ^ 32)] directory
  { s with cols := s.cols.set 0 { colAt s 0 with bad := [0x403] } }
def editing : State := cells [(0x10004, 1, 1)] directory
theorem wit_RangeEdits_faults : searchIdx badDir 0x10000 0x100 = .error () ∧ dirEdit badDir 0x10000 = false ∧ Settled badDir ∧
    freezing badDir 0 .busFault = false ∧ dirEdit badNext 0x10000 = false ∧ searchIdx badNext 0x10000 0x100 = .ok (some 0) ∧
    splitBad badNext 0x10000 0 0x100 = true ∧ mergeBad badNext 0x10000 0 = true ∧ dirEdit editing 0x10000 = true := by decide +kernel
theorem wit_RangeDropsAndProbes : Fenced (dram 0) ∧ covered (dram 0) 0 = true ∧ covered (dram 0) 2 = true ∧ coreDrained (dram 0) 0 = true ∧
    (gr odd 5).toNat ≠ 0 ∧ covered odd 2 = true ∧ (rcLookup (myCore (dram 0)).rcache (myCore (dram 0)).job 0).isSome ∧
    rcLookup (myCore directory).rcache (myCore directory).job 0x100 = none ∧ dirEdit directory 0x10000 = false ∧
    searchIdx ((walkFrom 0 0x10000 0x100 directory).getD directory) 0x10000 0x100 = .ok (some 0) ∧
    searchIdx ((walkFrom 0 0x10000 0x9000 editing).getD editing) 0x10000 0x9000 = .ok none ∧
    dirEdit ((walkFrom 0 0x10000 0x9000 editing).getD editing) 0x10000 = true ∧
    searchIdx ((walkFrom 0 0x10000 0x100 badDir).getD badDir) 0x10000 0x100 = .error () ∧ (walkFrom 0 0x10000 0x100 directory).isSome = true ∧
    (walkFrom 0 0x10000 0x9000 editing).isSome = true ∧ (walkFrom 0 0x10000 0x100 badDir).isSome = true := by decide +kernel
def chooses (x : BitVec 64) : State := withHart fun h => h.setG 5 x
theorem wit_WayConfigurations : (myCore (chooses 0x802)).gang = 1 ∧ (me (chooses 0x802)).wait ≠ .ways ∧ (chooses 0x802).curSlot ≠ 7 ∧ (myCore (chooses 0x802)).quiet = true ∧
    (colAt (chooses 0x802) 0).layerctl.getLsbD 2 = false ∧ (myCore (chooses 0x802)).cw = [] ∧ (myCore (chooses 0x802)).waiters = [] ∧
    (chooses 0x802).memOk ∧ (decide ((gr (chooses 0x802) 5).toNat % 32 + (gr (chooses 0x802) 5).toNat / 256 % 32 ≤ 16)) = true ∧
    (decide ((gr (chooses 0x80A) 5).toNat % 32 + (gr (chooses 0x80A) 5).toNat / 256 % 32 ≤ 16)) = false := by decide +kernel
/-- The change to two array ways and eight banks heads the queue of core 0 and is of slot 0. -/
def changing (began : Bool) : State := updHart (updCore (chooses 0x802) 0 fun q =>
  { q with wayReqs := [{ slot := 0, narr := 2, nbank := 8, began := began }] }) 0 0 fun h => { h with st := .parked, wait := .ways }
theorem wit_WayConfigurations_head : (myCore (changing true)).gang = 1 ∧ (me (changing true)).wait = .ways ∧
    (myCore (changing true)).wayQueue = [{ slot := 0, narr := 2, nbank := 8, began := true }] ∧ (myCore (changing true)).quiet = true ∧ (myCore (changing true)).binding = none ∧
    (myCore (changing true)).cw = [] ∧ (myCore (changing true)).waiters = [] ∧ (changing true).memOk ∧
    (myCore (changing false)).wayQueue = [{ slot := 0, narr := 2, nbank := 8, began := false }] ∧
    (colAt (changing false) 0).layerctl.getLsbD 2 = false ∧ (inSlot 7 (chooses 0)).curSlot = 7 ∧
    (chooses 0).cores.length = 1 ∧ (myCore (chooses 0)).narr = 0 ∧ (myCore (chooses 0)).nbank = 0 := by decide +kernel
def spanOk (s : State) (va n : Nat) : Option (List Walked) :=
  match (walkSpanOf s va n).1 with | .ok (some l) => some l | _ => none
theorem wit_WalkerRequests : Fenced (dram 0) ∧ walkerFull (dram 0) 0 = false ∧ spanOk (dram 0) 0 0 = some [] ∧ spanOk (dram 0) 0x40 128 ≠ none ∧
    spanOk (dram 0) 0x40 128 ≠ some [] ∧ isBarrierGpa (dram 0) 0x18000000000 = true ∧ isBarrierGpa (dram 0) 8 = false ∧
    (match (walkSpanOf ready 0x40 128).1 with | .error (.rangeMiss, _) => true | _ => false) = true := by decide +kernel

def job5 (s : State) : State := { updCore s 0 fun q => { q with ctxjob := 5 } with
  dist := { s.dist with jobs := [⟨5, 0x40000, 4, 0x80000, 0, [], []⟩] } }
/-- Record 0 of job 5 runs on slot 0: two stages, queues of one record. -/
def rec0 : LRec := { LRec.idle with status := stRunning, snap := (Vector.replicate 32 (0 : BitVec 64)).set 0 0x20000 |>.set 9 1 |>.set 12 1 |>.set 1 5 }
def running : State :=
  let s := job5 (withHart fun h => { h with hasRec := true, xstat := 0 })
  updRec s 5 0 fun _ => rec0
/-- Logical core 0 is core 0, logical core 1 is core 1, of three. -/
def cores2 (s : State) : State := { cells [(0x90000, 8, 2 ^ 63), (0x90008, 8, 2 ^ 63 + 1)] s with
  cols := s.cols.set 0 { colAt s 0 with joblct := (Vector.replicate 16 0).set 0 0x8000000300000005, lctbase := (Vector.replicate 16 0).set 0 0x90000 } }
def spawner : State := cores2 running
theorem wit_SpawnResults : Fenced spawner ∧ liveHomed spawner = true ∧ (me spawner).hasRec = true ∧ spawner.curSlot ≠ 7 ∧ (gr spawner 4).getLsbD 0 = false ∧ (myCore spawner).job ≠ 0 ∧
    (resolveCore 0 5 0 spawner).1 = .core 0 ∧ (resolveCore 0 5 0 spawner).2.cores = spawner.cores ∧ (resolveCore 0 5 0 spawner).2.mem = spawner.mem ∧
    (resolveCore 0 5 1 spawner).1 = .core 1 ∧ colOf 1 = colOf 0 ∧ (resolveCore 0 5 9 spawner).1 ≠ .core 0 ∧ childSlot spawner 0 = some 1 ∧
    (me spawner).st = .ready ∧ (findJob spawner (myCore spawner).job).isSome = true ∧ (gr odd 5).getLsbD 0 = true := by decide +kernel
def noSlot : State := updCore spawner 0 fun q => q.mapHarts fun k h => if k = 0 then h else { h with st := .ready }
theorem wit_SpawnResults_inline : childSlot noSlot 0 = none ∧ liveHomed noSlot = true ∧ (me noSlot).frames.length < 8 ∧ (resolveCore 0 5 0 noSlot).1 = .core 0 ∧
    8 ≤ (me (updHart noSlot 0 0 fun h => { h with frames := List.replicate 8 ⟨0, 0⟩ })).frames.length := by decide +kernel
theorem wit_RecordInstructions : Fenced running ∧ liveHomed running = true ∧ ringPlace running 5 0 0 % 64 = 0 ∧
    homed running (ringPlace running 5 0 0) = true ∧ homed running (ringPlace running 5 0 1) = true ∧ running.curSlot ≠ 7 ∧ (me running).hasRec = true ∧ (findJob running 5).isSome = true ∧
    (recOf running 5 0).nstage = 2 ∧ (me running).stage.toNat + 1 = 1 ∧ (me running).frames = [] ∧ running.memOk ∧
    (coreAt running (leaderOf running running.curCore)).marked = none ∧ queueFull running 5 0 0 = false ∧ queueFull running 5 0 1 = false ∧
    covered running 6 = true ∧ (me user).hasRec = false ∧ (inSlot 7 ready).curSlot = 7 := by decide +kernel
def busyQueue : State := updRec running 5 0 fun r => { r with queues := Vector.replicate 8 [Vector.replicate 8 0], pushed := Vector.replicate 8 1 }
theorem wit_RecordInstructions_full : queueFull busyQueue 5 0 0 = true ∧ queueFull busyQueue 5 0 1 = true ∧
    (me (updHart running 0 0 fun h => { h with frames := [⟨4, 3⟩] })).frames = ⟨4, 3⟩ :: [] ∧
    (me (updHart running 0 0 fun h => { h with stage := 1 })).stage.toNat + 1 = (recOf running 5 0).nstage := by decide +kernel
theorem wit_SendAndArm : Fenced running ∧ homed running (poolAt running 5 0 + 3) = true ∧ (me running).dropped = [] ∧ (gr running 4).getLsbD 0 = false ∧ (me running).msgsOut < 4 ∧ (myCore running).wq.length < 32 ∧
    32 ≤ (myCore (updCore running 0 fun q => { q with wq := List.replicate 32 ⟨0, .store, 0, 0, 1, 0, false⟩ })).wq.length ∧
    4 ≤ (me (updHart running 0 0 fun h => { h with msgsOut := 4 })).msgsOut ∧
    freezing running running.curCore .sendLimit = false ∧ findJob ready (myCore ready).job = none ∧ atRest (recOf running 5 0).status = false ∧
    atRest (recOf running 5 3).status = true ∧ covered running 5 = true := by decide +kernel

theorem wit_VectorImages : isSys (vector 0 0 3) = true ∧ (gr (vector 0 0 3) 4).toNat % 4096 = 0 ∧ (myCore (vector 0 0 3)).quiet = true ∧
    (myCore (vector 0 0 3)).gang = 1 ∧ (myCore (vector 0 0 3)).vec.bound = true ∧ (myCore ready).vec.bound = false ∧
    (gr odd 5).toNat % 4096 ≠ 0 ∧ (myCore (withCore fun q => { q with gangSize := 1 })).gang ≠ 1 := by decide +kernel
def goodRes {α : Type} (r : Res α) : Bool := match r with | .ok _ _ => true | _ => false
def imaged : State := updCore (vector 0 0 3) 0 fun q => { q with rcache := [⟨0, range 0 2⟩] }
theorem wit_VectorImages_lines :
    (let q := myCore imaged
     goodRes (imageOut 0 ((0, vecHeader imaged 0) :: (imagePlaces q.lanes (!q.vec.vrs.isEmpty) (rowsOf q)).map fun o => (o, imageLine imaged 0 o)) (readChunks (fun _ => true) imaged))) = true ∧
    goodRes (imageIn 0 [0] [] imaged) = true := by decide +kernel
def saver : State := withCore fun _ => { Core.reset with ctxjob := 5, svctl := 0x8000000000000001, svarea := 0x100000 }
theorem wit_SaveAndRestore : saver.memOk ∧ (coreAt saver 0).svctl.getLsbD 63 = true ∧ (coreAt saver 0).svctl.getLsbD 0 = true ∧
    (coreAt saver 0).job ≠ 0 ∧ (coreAt saver 0).gang = 1 ∧ coreStopped saver 0 none = true ∧ (coreAt saver 0).waiters = [] ∧
    areaBase saver 0 (areaBanks (coreAt saver 0).nbank) = some (0x100000, 0) ∧ areaBase saver 0 0 = some (0x100000, 0) ∧
    (colAt saver 0).vbstat.getLsbD 63 = false ∧ (∀ j : Fin 8, (hartAt saver 0 j).frames.length ≤ 2) ∧
    areaBase (withCore fun q => { q with svarea := 0x10000000000 }) 0 0 = none := by decide +kernel
/-- An image of an idle core of job 5: header word 1 with version 1, CTXJOB, and a vector header that says unbound. -/
def restorer : State := cells [(0x100000, 8, 1), (0x100008, 8, 5), (0x104008, 8, 2 ^ 63)]
  { withCore fun _ => { Core.reset with svctl := 0x8000000000000002, svarea := 0x100000 } with
    dist := { State.reset.dist with jobs := [⟨5, 0x40000, 4, 0x80000, 0, [], []⟩] } }
theorem wit_SaveAndRestore_restore : restorer.memOk ∧ (coreAt restorer 0).svctl.getLsbD 63 = true ∧ (coreAt restorer 0).svctl.getLsbD 1 = true ∧
    (coreAt restorer 0).svctl.getLsbD 0 = false ∧ (coreAt restorer 0).job = 0 ∧ slotsIdle restorer 0 = true ∧ (coreAt restorer 0).cw = [] ∧
    areaBase restorer 0 0 = some (0x100000, 0) ∧ (areaWord restorer 0x100000 0).toNat / 256 % 4 = 0 ∧
    areaBase restorer 0 (areaBanks ((areaWord restorer 0x100000 2).toNat / 256 % 256)) = some (0x100000, 0) ∧ (colAt restorer 0).bad = [] ∧ (colAt restorer 0).soft = [] ∧
    (colAt restorer 0).sliceBad = [] ∧ (colAt restorer 0).sliceSoft = [] ∧ (coreAt restorer 0).waiters = [] ∧
    (colAt restorer 0).layerctl.getLsbD 2 = false ∧ areaOk restorer 0x100000 0 0 = true ∧ areaOk restorer 0x200000 0 0 = false ∧
    (∀ j : Fin 8, (areaWord restorer 0x100000 (64 + 64 * j.val)).toNat / 8 % 16 ≤ 2 ∧ (areaWord restorer 0x100000 (64 + 64 * j.val)).getLsbD 7 = false) := by
  decide +kernel
def mover : State := updHart (setCore (updHart (withCore id) 0 0 fun h => (h.setG 5 1).setG 6 2) 1 { Core.reset with ctxjob := 5 }) 0 0 id
theorem wit_Moves : isSys mover = true ∧ Fenced mover ∧ entriesHomed mover 1 = true ∧ moveStatus mover 1 2 = 0 ∧ coreStopped mover 1 none = true ∧
    (coreAt mover 1).waiters = [] ∧ (coreAt mover 2).waiters = [] ∧ ((List.finRange 8).all fun k => (pendingFault mover 1 k).isNone) = true ∧
    moveStatus mover 3 2 ≠ 0 ∧ coreStopped (updHart mover 1 1 fun h => { h with st := .parked, wait := .inval 0 }) 1 none = false := by decide +kernel

/-! ## Events -/

def col0 (f : Column → Column) (s : State) : State := setCol s 0 (f (colAt s 0))
def scrubbed : State := col0 (fun c => { c with bad := [3], soft := [1, 2] }) ready
theorem wit_ColumnRegisterEvents : scrubbed.fabric.dev.toNat < 0xFE ∧ (colAt scrubbed 0).vbstat.getLsbD 63 = false ∧ 3 ∈ (colAt scrubbed 0).bad ∧ (colAt scrubbed 0).errinfo.getLsbD 63 = false ∧
    2 ∉ (colAt scrubbed 0).bad ∧ 2 ∈ (colAt scrubbed 0).soft ∧ 4 ∉ (colAt scrubbed 0).bad ∧ 4 ∉ (colAt scrubbed 0).soft := by decide +kernel
theorem wit_ColumnRegisterEvents_bars : (4 ≠ 8 ∧ 4 = 4 ∧ (4#3 : BitVec 3) ≠ 2) ∧ 12 % 8 ≠ 0 ∧ 0xFFC % 4 = 0 ∧ 0x100 ≤ 0xFFC ∧ 0xFFC < 0x1000 ∧
    ready.boot.rstBusy = false ∧ (colAt ready 0).tripped = false := by decide +kernel
/-- Free slots, soft repairs and slots in use of the fuse bank. -/
def fuses (free soft : Nat) : State := col0 (fun c => { c with vbctl := 4, vbstat := BitVec.ofNat 64 (2 ^ 48 * free + 2 ^ 40 * soft) }) ready
theorem wit_ColumnRegisterEvents_commit : (colAt (fuses 1 2) 0).vbctl.getLsbD 2 = true ∧ (colAt ready 0).vbctl.getLsbD 2 = false ∧
    (colAt (fuses 2 2) 0).vbctl.getLsbD 2 = true ∧ (colAt (fuses 1 2) 0).vbstat.toNat / 2 ^ 48 % 256 < (colAt (fuses 1 2) 0).vbstat.toNat / 2 ^ 40 % 256 ∧
    (colAt (fuses 2 2) 0).vbstat.toNat / 2 ^ 40 % 256 ≤ (colAt (fuses 2 2) 0).vbstat.toNat / 2 ^ 48 % 256 ∧
    (colAt (fuses 2 2) 0).vbstat.toNat / 2 ^ 32 % 256 + 2 < 256 := by decide +kernel

def layer (w : Nat) : State := col0 (fun c => { c with layerctl := BitVec.ofNat 64 w, thermctl := 2 ^ 63 }) ready
theorem wit_PowerAndViewEvents : (colAt (layer 7) 0).vbstat.getLsbD 62 = false ∧ (colAt (layer 7) 0).layerctl.getLsbD 2 = true ∧
    (colAt (layer 3) 0).layerctl.getLsbD 2 = false ∧ (colAt (layer 5) 0).layerctl &&& 7 = 5 ∧ (colAt (layer 5) 0).layerNext = none ∧
    (∀ e ∈ (layer 5).cores, (wayChange (layer 5) e.1).isNone = true ∧ e.2.quiet = true ∧ e.2.cw = [] ∧ e.2.waiters = []) ∧ (colAt (layer 6) 0).layerctl &&& 7 = 6 ∧
    (colAt (layer 3) 0).thermctl.getLsbD 63 = true ∧ (∀ i : Fin 13, tempOf (colAt (layer 3) 0) i.val < tripAt i.val) ∧
    (List.replicate 13 (1840 : BitVec 16)).length = 13 ∧ (∀ n ∈ [2, 3, 4, 0x11, 0x12, 0x14, 0x15, 0x16, 0x17, 0x18], (sysGet ready 0 0 n).isSome) ∧
    (coreAt ready 0).quiet = true ∧ (0x8000000000000008#64).toNat % 8 = 0 ∧ (0x8000000000000008#64).toNat % 128 = 8 := by decide +kernel

def minimal : State := { ready with boot := { ready.boot with minimal := true } }
def training : State := { ready with fabric := { ready.fabric with training := 1 } }
theorem wit_FabricEvents : training.fabric.training.getLsbD (0 : Fin 16).val = true ∧ training.fabric.dev.toNat < 0xFE ∧ ready.memOk ∧
    (60 % 64 + 4 ≤ 64 ∧ 0xBFFFFFFFC + 4 ≤ 0xC00000000) ∧ ready.boot.rstBusy = false ∧ ready.boot.minimal = false ∧ (colAt ready 0).tripped = false ∧ (colAt ready 0).lineErr 60 = false ∧ (colAt ready 0).vbstat.getLsbD 63 = false ∧
    (ready.cores.all fun q => q.2.cw.isEmpty) = true ∧ homeBarred ready true (mkGpa ready 0 60) = false ∧
    (colAt { ready with cols := ready.cols.set 0 { colAt ready 0 with bad := [0] } } 0).lineErr 60 = true ∧ minimal.boot.minimal = true ∧
    ({ ready with fabric := { ready.fabric with enable := 1 } } : State).fabric.enable.getLsbD 0 = true := by decide +kernel
theorem wit_ResetEvents : ready.memOk ∧ (0xFE#8).getLsbD 0 = false ∧ (0xFE#8).getLsbD 1 = true ∧ colOf 0 = 0 ∧ colOf 2047 = 7 ∧
    gpaDev 0 = 0 ∧ gpaDev (2 ^ 48) ≠ 0 ∧ (colAt ready 1).sliceSoft = [] ∧
    (colAt (updCol ready 1 fun c => { c with thermctl := 2 ^ 62 }) 1).thermctl.extractLsb' 62 2 ≠ 0 := by decide +kernel
theorem wit_BootEvents : State.reset.boot.starting = true ∧ State.reset.boot.step = 1 ∧ State.reset.clock < State.reset.boot.on + 2 ^ 32 ∧
    (∀ n ∈ [2, 3, 4, 5, 6], { State.reset with boot := { State.reset.boot with step := n } }.boot.step = n) ∧
    State.reset.boot.on + 2 ^ 32 ≤ { State.reset with clock := 2 ^ 32 }.clock := by decide +kernel

/-- The mailbox is busy with a command of that code and argument. -/
def asked (code : Nat) (arg : List Nat) (s : State) : State :=
  { s with boot := { s.boot with
      mbxRun := BitVec.ofNat 64 (code + 2 ^ 16 * arg.length), mbxsts := 0x8000000000000000
      arg := arg.zipIdx.map fun x => (x.2, BitVec.ofNat 8 x.1) } }
def resetting : State := { ready with boot := { ready.boot with rstBusy := true } }
theorem wit_MailboxCommands : (asked 1 (List.replicate 32 7) ready).boot.busy = true ∧ (asked 1 (List.replicate 32 7) ready).boot.code = 1 ∧
    32 ≤ (asked 1 (List.replicate 32 7) ready).boot.arglen ∧ (asked 1 [7] ready).boot.arglen < 32 ∧ (asked 2 [] ready).boot.arglen < 1 ∧
    (asked 2 [6] minimal).boot.minimal = true ∧ (asked 2 [6] minimal).boot.argByte 0 ≠ 1 ∧ (asked 2 [6] resetting).boot.rstBusy = true ∧
    (asked 2 [6] ready).boot.code = 2 ∧ (asked 2 [6] ready).boot.rstBusy = false ∧ (asked 2 [6] ready).boot.argByte 0 = 6 := by decide +kernel
theorem wit_MailboxCommands_nightreg : (asked 3 [0, 2, 0, 0, 0, 0, 0, 0] ready).boot.code = 3 ∧ 2 ≤ (asked 3 [0, 2, 0, 0, 0, 0, 0, 0] ready).boot.arglen ∧
    (asked 3 [0, 2, 0, 0, 0, 0, 0, 0] ready).boot.argByte 0 = 0 ∧ (asked 3 [0, 2, 0, 0, 0, 0, 0, 0] ready).boot.argByte 1 ≤ 2 ∧
    (∀ n < 8, 2 ≤ n → (asked 3 [0, 2, 0, 0, 0, 0, 0, 0] ready).boot.argByte n = 0) ∧ (asked 3 [] minimal).boot.minimal = true := by decide +kernel
/-- UPDATE of image 1: FIRST and LAST, one byte at offset 0. -/
def chunk (flags off : Nat) : State := asked 4 ([1, flags, 0, 0, 1, 0, 0, 0, off, 0, 0, 0, 0, 0, 0, 0, 0x5A]) ready
theorem wit_MailboxCommands_update : (chunk 3 0).boot.code = 4 ∧ (chunk 3 0).boot.argWord 4 4 = 1 ∧ 16 + 1 ≤ (chunk 3 0).boot.arglen ∧
    (chunk 3 0).boot.argByte 0 = 1 ∧ (chunk 3 0).boot.argByte 1 = 3 ∧ (chunk 3 0).boot.argWord 2 2 = 0 ∧ (chunk 3 0).boot.argWord 8 8 = 0 ∧
    (chunk 2 9).boot.argWord 8 8 ≠ (chunk 2 9).boot.part1.length ∧ (asked 4 [] ready).boot.arglen < 16 := by decide +kernel

/-- Request 1 of slot 0 of core 0 for the word at GPA 0x40. -/
def pkt (kind : PKind) (loc : PLoc) : Pkt :=
  { id := 1, core := 0, slot := 0, job := 0, kind := kind, gpa := 0x40, va := 0x40, loc := loc, born := 0, wants := false, val := 0, err := false
    comb := false, coh := false, beats := 0 }
def carrying (p : Pkt) (s : State) : State := { s with net := [p] }
def waits (w : Wait) (s : State) : State := updHart s 0 0 fun h => { h with st := .parked, wait := w }
def stored : PKind := .store 8 5 false
def arriving : State := carrying { pkt (.am .add 8 1 0 9) (.reply 0) with wants := true } (waits (.reply 1) ready)
theorem wit_PacketEvents : findPkt (carrying (pkt stored (.omega 8)) ready) 1 = some (pkt stored (.omega 8)) ∧ isDram ready 0x40 = true ∧
    (colAt ready 0).hold = false ∧ noGuests (carrying (pkt stored (.reply 4)) ready) 1 = true ∧ noRelease ready 0 = true ∧ routeBehind ready (pkt stored .router) = false ∧
    findPkt arriving 1 = some { pkt (.am .add 8 1 0 9) (.reply 0) with wants := true } ∧ (hartAt arriving 0 0).wait = .reply 1 ∧
    (pkt (.probe 1) .queued).beats < 8 ∧ 8 ≤ { pkt stored (.omega 8) with beats := 8 }.beats ∧ (∀ q ∈ (carrying (pkt (.probe 1) .queued) ready).net, ¬ q.id < 1) ∧
    (∀ w ∈ ready.boot.hostWrites, w.1 < 1 → w.2.1 = 0 → w.2.2 ≠ 0) := by decide +kernel
theorem wit_PacketEvents_beat : (3#4).toNat ≠ lossSrc ready (pkt stored (.omega 8)) ∧ (2#4).toNat = lossSrc ready (pkt stored (.omega 8)) ∧
    (5#4).toNat = lossSrc bank { pkt stored .mesh with gpa := 0x100003C0040 } ∧ (pkt stored (.omega 8)).id ≠ 0 ∧
    (pkt stored (.omega 8)).wants = false ∧ findPkt ready 7 = none := by decide +kernel
def sharing : State := { ready with entries := [{ col := 0, stage := 1, switch := 0, out := false, gpa := 0x40, n := 8, pkt := 1, opened := 0 }]
                                    clock := 512 }
def written : State := updHart ready 0 0 fun h => { h with recent := [(3, { bit := true, out := 0, count := 0 })] }
theorem wit_PacketEvents_expiry : sharing.entries[0]?.any (fun e => e.opened + 512 ≤ sharing.clock) = true ∧
    (tabGet Recent.none (hartAt written 0 0).recent 3) = { bit := true, out := 0, count := 0 } ∧
    (tabGet Recent.none (hartAt written 0 0).recent 3).count ≤ written.clock := by decide +kernel

def bankWrite : State := carrying { pkt stored .mesh with gpa := 0x100003C0040 } bank
theorem wit_WritesArePerformed : ready.memOk ∧ findPkt (carrying (pkt stored .queued) ready) 1 = some (pkt stored .queued) ∧
    (match targetOf ready 0x40 with | .dram c off => c == 0 && off == 0x40 | _ => false) = true ∧ 0x40 / 64 ∉ (colAt ready 0).bad ∧ 0x40 / 64 ∉ (colAt ready 0).sliceBad ∧ (colAt ready 0).tripped = false ∧ (colAt ready 0).vbstat.getLsbD 63 = false ∧ degradedAt bankWrite 0x100003C0040 = false ∧
    noGuests (carrying (pkt stored .queued) ready) 1 = true ∧ (pkt stored .queued).coh = false ∧
    pktBank bankWrite { pkt stored .mesh with gpa := 0x100003C0040 } = some (0, 15) ∧ bankCheck bankWrite 0 15 = none ∧
    lineBad bankWrite (redirect bankWrite 0 0x100003C0040) = false ∧ stopping bankWrite 0 = false := by decide +kernel
/-- Reductions of cores 0 and 4 to one address at the last stage. -/
def redA : Pkt := pkt (.red .add 8 1) (.omega 8)
def redB : Pkt := { pkt (.red .add 8 2) (.omega 8) with id := 2, core := 4 }
theorem wit_WritesArePerformed_combine : together redA redB 8 = true ∧ redA.id < redB.id ∧ redA.gpa = redB.gpa ∧ redA.coh = redB.coh ∧
    idxOf redA.core < idxOf redB.core ∧ atHeldAlias (carrying redA ready) redA = false := by decide +kernel
def caching (tokens : Nat) : State := withCore fun q =>
  { q with wq := [⟨0, .store, 8, 8, 8, 0xAB, false⟩], cw := [(0, [{ line := 0, way := 15, tokens := tokens, owner := true, dirty := false, data := 0 }])] }
theorem wit_WritesArePerformed_drain : (colAt queued (colOf 0)).tripped = false ∧ (∀ e ∈ (coreAt queued 0).wq, assembling queued 0 e = false) ∧ (coreAt queued 0).wq = [⟨0, .store, 8, 8, 8, 0xAB, false⟩] ∧ noRelease queued 0 = true ∧
    0 < cacheWays queued 0 ∧ ((coreAt queued 0).cwFind (8 / 64)).isNone ∧ 0 < cacheWays (caching 256) 0 ∧
    ((coreAt (caching 256) 0).cwFind (8 / 64)).any (fun l => l.tokens = 256) = true ∧
    cacheWays (updCore queued 0 fun q => { q with narr := 16 }) 0 = 0 := by decide +kernel
def wanting : State := carrying (pkt .tokRead (.tokens 4)) (waits (.tokenReq 1) ready)
theorem wit_TokenEvents : findPkt wanting 1 = some (pkt .tokRead (.tokens 4)) ∧ barredBy wanting 0 (some 0) 1 = false ∧ lineLost wanting 0 1 = false ∧ persists wanting 0 1 = false ∧
    0 < cacheWays wanting 0 ∧ (hartAt wanting 0 0).wait = .tokenReq 1 ∧ (wanting.cores.all fun q => (q.2.cwFind 1).isNone) = true ∧
    noRelease wanting 0 = true ∧ ((colAt wanting 0).persist.any fun e => e.1 == 1 && e.2.1 == 0) = false ∧ (1, 0, 0) ∉ (colAt wanting 0).persist ∧
    0 + 1024 * (4 + 1) ≤ { wanting with clock := 5120 }.clock ∧ wanting.memOk ∧
    (pkt stored (.tokens 0)).kind = .store 8 5 false ∧ (pkt .tokRead .mesh).loc = .mesh := by decide +kernel

def retrying : State := updHart (waits (.fullEmpty 0x40 0x40 false) { ready with clock := 9 }) 0 0 fun h => { h with timer := some 9, feCount := 0 }
theorem wit_RetryAndDropEvents : dirEdit (waits (.header 0x40) ready) (hdrOf (coreAt ready 0).rdbase) = false ∧
    (hartAt (waits (.lock 0x40) { ready with clock := 4096 }) 0 0).since + 4096 ≤ 4096 ∧
    (hartAt retrying 0 0).wait = .fullEmpty 0x40 0x40 false ∧ (hartAt retrying 0 0).timer = some 9 ∧ (hartAt retrying 0 0).st = .parked ∧
    (hartAt retrying 0 0).feCount < (hartAt retrying 0 0).feLimit := by decide +kernel
def dropping : State := waits (.inval 0) ready
def dropReq (cores cols : List Nat) : Pkt := pkt (.drop 0x40 0x7F 2 cores cols) .mesh
theorem wit_RetryAndDropEvents_drop : (walkFrom (colOf 0) (hdrOf (coreAt directory 0).rdbase) 0x100 directory).isSome = true ∧ coreDrained dropping 0 = true ∧ (hartAt dropping 0 0).wait = .inval 0 ∧
    (∀ j : Fin 8, j ≠ 0 → (hartAt dropping 0 j).wait ≠ .inval 0) ∧ rcLookup (coreAt directory 0).rcache (coreAt directory 0).job 0x100 = none ∧
    (match searchDir directory (hdrOf (coreAt directory 0).rdbase) 0x100 with | .desc _ => true | _ => false) = true ∧
    findPkt (carrying (dropReq [0] [0]) ready) 1 = some (dropReq [0] [0]) ∧ coreDrained (carrying (dropReq [0] []) ready) 0 = true ∧
    (hartAt (carrying (dropReq [] []) (waits (.inval 1) ready)) 0 0).wait = .inval 1 := by decide +kernel

/-- Request 1 of the kind stands first in the queue of barrier object 0 of column 0. -/
def barPkt (kind : PKind) : Pkt := { pkt kind .queued with gpa := 0x18000000000 }
def barQueue (kind : PKind) : State := carrying (barPkt kind) (waits (.reply 1) ready)
theorem wit_BarrierUnitEvents : queuedPkt (barQueue (.barInit 3 false true)) 1 = some (barPkt (.barInit 3 false true)) ∧
    firstAt (barQueue (.barInit 3 false true)) (barPkt (.barInit 3 false true)) = true ∧
    targetOf (barQueue .barArrive) (barPkt .barArrive).gpa = .barrier 0 0 ∧ (hartAt (barQueue .barArrive) 0 0).wait = .reply 1 ∧
    degradedAt (barQueue .barArrive) 0x18000000000 = false ∧
    (∀ k ∈ [PKind.barCredit 64 1, .barArrive, .barErrArrive, .barQuery 9 0], queuedPkt (barQueue k) 1 = some (barPkt k) ∧
      firstAt (barQueue k) (barPkt k) = true) := by decide +kernel
theorem wit_BarrierUnitEvents_waiters : ∀ e ∈ (barQueue .barArrive).cores, ∀ k d,
    (e.2.harts.get k).wait ≠ .barrier ((barPkt .barArrive).gpa / 64 * 64) d := by decide +kernel

def piece : WPiece := { core := 0, slot := 0, group := 1, inv := false, first := 0, last := 63, cached := false, entry := ⟨0, range 0 2⟩, bar := 0x18000000000, err := false }
def walking : State := col0 (fun c => { c with walker := [piece] }) ready
theorem wit_EngineEvents_walker : (colAt walking 0).walker = [piece] ∧ piece.bar ≠ 0 ∧ stilledAt walking 0 (coreAt walking 0).job = false ∧
    (∀ c, c ≠ 0 → (colAt walking c).walker = []) ∧ ∀ e ∈ walking.cores, ∀ k, (e.2.harts.get k).wait ≠ .queue := by decide +kernel
/-- A `copy` of 16 bytes within bank 15 of core 0. -/
def req : CReq := { mkReq 0 0 0 0 1 5 6 7 (updHart copyHart 0 6 fun h => ((h.setG 5 16).setG 6 0x100).setG 7 0x200) with
  rc := [⟨5, range 0x100003C0000 2⟩] }
def engine (r : CReq) : State := col0 (fun c => { c with eng := c.eng.set 0 [r] }) (updCore copyHart 0 fun q => { q with nbank := 1 })
/-- What `CReq.spans` asks of one byte beside its translation. -/
def spot (r : CReq) (s : State) (g : Nat) : Bool :=
  redirect s r.job g == g && !bankHeld s r.core g && !homeBarred s true g && lineClean s g &&
    (match targetOf s g with | .bank _ _ _ => !lineBad s g | .dram _ _ => true | _ => false)
/-- A span under the one entry that the request holds. -/
theorem spans_one (r : CReq) (s : State) (rights : BitVec 5) (va : BitVec 64) (n g cls : Nat) (d : RDesc) (hr : r.rc = [⟨r.job, d⟩])
    (hf : va.toNat + n ≤ 2 ^ 64) (hm : ∀ i, i < n → d.covers (va.toNat + i) = true ∧ checkDesc s d rights (!r.user) (va.toNat + i) = .ok (g + i) cls d)
    (hs : ∀ i, i < n → spot r s (g + i) = true) : r.spans s rights va n g where
  fits := hf
  maps i hi := by
    refine ⟨d, cls, ⟨⟨r.job, d⟩, by simp [hr], rfl, (hm i hi).1⟩, ?_, (hm i hi).2⟩
    intro e he _ _
    simp only [hr, List.mem_singleton] at he
    rw [he]
  goes i hi := by
    have h := hs i hi
    simp only [spot, Bool.and_eq_true, beq_iff_eq, Bool.not_eq_true'] at h
    obtain ⟨⟨⟨⟨h1, h2⟩, h3⟩, h4⟩, h5⟩ := h
    refine ⟨h1, h2, h3, h4, ?_⟩
    split at h5 <;> simp_all
theorem wit_EngineEvents_begin : (colAt (engine req) 0).eng.get 0 = [req] ∧ req.begun = false ∧ req.kind < 4 ∧ mayBegin (engine req) 0 0 req = true := by
  decide +kernel
/-- Request r is active in engine 0 of column 0, alone. -/
theorem turn_alone (r : CReq) (h : r.begun = true ∧ r.done = false ∧ r.failed = none) (hp : r.z = false ∧ r.mask = none)
    (hs : stilledAt (engine r) 0 r.job = false) (ha : (colAt (engine r) 0).eng.get 0 = [r]) : r.turn (engine r) 0 0 where
  alone := ha
  begun := h
  runs := ⟨hs, by show 0 < 9; decide⟩
  plain := hp
  homes := ⟨by show Memory.wf copyHart.mem = true; decide +kernel, by show ((updCore copyHart 0 fun q => { q with nbank := 1 }).cores.all fun q => q.2.cw.isEmpty) = true; decide +kernel⟩
  net p hp := by exact absurd hp (by show p ∉ copyHart.net; exact nofun)
/-- The same request, begun; two rows of 8 bytes of a `copy2d`; eight rows of a `copygath` whose list names row 0; one of a `copyscat`; a raw `copyt`. -/
def began (kind rows rowb total : Nat) : CReq := { req with begun := true, kind := kind, rows := rows, rowb := rowb, total := total, nrows := 1, sstride := 8, dstride := 8 }
def bank15 : RDesc := range 0x100003C0000 2
theorem wit_EngineEvents_batch : (began 0 1 16 16).turn (engine (began 0 1 16 16)) 0 0 ∧
    (began 0 1 16 16).spans (engine (began 0 1 16 16)) needRd 0x100 16 0x100003C0100 ∧
    (began 0 1 16 16).spans (engine (began 0 1 16 16)) needWr 0x200 16 0x100003C0200 :=
  ⟨turn_alone _ (by decide) (by decide) (by decide +kernel) (by decide +kernel),
   spans_one _ _ _ _ _ _ 2 bank15 rfl (by decide) (by decide +kernel) (by decide +kernel),
   spans_one _ _ _ _ _ _ 2 bank15 rfl (by decide) (by decide +kernel) (by decide +kernel)⟩
/-- The same between lines of DRAM. -/
def inDram : CReq := { began 0 1 16 16 with rc := [⟨5, range 0 2⟩] }
theorem wit_EngineEvents_batch_dram : inDram.turn (engine inDram) 0 0 ∧ inDram.spans (engine inDram) needRd 0x100 16 0x100 ∧
    inDram.spans (engine inDram) needWr 0x200 16 0x200 :=
  ⟨turn_alone _ (by decide) (by decide) (by decide +kernel) (by decide +kernel),
   spans_one _ _ _ _ _ _ 2 (range 0 2) rfl (by decide) (by decide +kernel) (by decide +kernel),
   spans_one _ _ _ _ _ _ 2 (range 0 2) rfl (by decide) (by decide +kernel) (by decide +kernel)⟩
theorem wit_EngineEvents_rows : (began 1 2 8 2).turn (engine (began 1 2 8 2)) 0 0 ∧
    (began 1 2 8 2).spans (engine (began 1 2 8 2)) needRd 0x100 8 0x100003C0100 ∧
    (began 1 2 8 2).spans (engine (began 1 2 8 2)) needWr 0x200 8 0x100003C0200 :=
  ⟨turn_alone _ (by decide) (by decide) (by decide +kernel) (by decide +kernel),
   spans_one _ _ _ _ _ _ 2 bank15 rfl (by decide) (by decide +kernel) (by decide +kernel),
   spans_one _ _ _ _ _ _ 2 bank15 rfl (by decide) (by decide +kernel) (by decide +kernel)⟩
/-- The list stands at 0; its entries are 0, so each row is row 0 of the table: in range of one row, out of range of none. -/
def gathering (nrows : Nat) : CReq := { began 2 8 8 8 with list := 0, nrows := nrows }
theorem wit_EngineEvents_gather : (gathering 1).turn (engine (gathering 1)) 0 0 ∧
    (∀ k, k < 8 → (gathering 1).spans (engine (gathering 1)) needRd (BitVec.ofNat 64 (k * 4)) 4 (0x100003C0000 + k * 4) ∧
      memRead (engine (gathering 1)).mem (0x100003C0000 + k * 4) 4 = 0) ∧
    (gathering 1).spans (engine (gathering 1)) needRd 0x100 8 0x100003C0100 ∧
    (∀ k, k < 8 → (gathering 1).spans (engine (gathering 1)) needWr (BitVec.ofNat 64 (0x200 + 8 * k)) 8 (0x100003C0200 + 8 * k)) ∧
    (gathering 0).turn (engine (gathering 0)) 0 0 ∧ (gathering 0).nrows = 0 := by
  refine ⟨turn_alone _ (by decide) (by decide) (by decide +kernel) (by decide +kernel), fun k hk => ⟨?_, ?_⟩,
    spans_one _ _ _ _ _ _ 2 bank15 rfl (by decide) (by decide +kernel) (by decide +kernel), fun k hk => ?_,
    turn_alone _ (by decide) (by decide) (by decide +kernel) (by decide +kernel), rfl⟩
  · have := (by decide +kernel : ∀ k : Fin 8, (BitVec.ofNat 64 (k.val * 4)).toNat + 4 ≤ 2 ^ 64 ∧
      (∀ i, i < 4 → bank15.covers ((BitVec.ofNat 64 (k.val * 4)).toNat + i) = true ∧
        checkDesc (engine (gathering 1)) bank15 needRd (!(gathering 1).user) ((BitVec.ofNat 64 (k.val * 4)).toNat + i) = .ok (0x100003C0000 + k.val * 4 + i) 2 bank15) ∧
      ∀ i, i < 4 → spot (gathering 1) (engine (gathering 1)) (0x100003C0000 + k.val * 4 + i) = true) ⟨k, hk⟩
    exact spans_one _ _ _ _ _ _ 2 bank15 rfl this.1 this.2.1 this.2.2
  · exact (by decide +kernel : ∀ k : Fin 8, memRead (engine (gathering 1)).mem (0x100003C0000 + k.val * 4) 4 = 0) ⟨k, hk⟩
  · have := (by decide +kernel : ∀ k : Fin 8, (BitVec.ofNat 64 (0x200 + 8 * k.val)).toNat + 8 ≤ 2 ^ 64 ∧
      (∀ i, i < 8 → bank15.covers ((BitVec.ofNat 64 (0x200 + 8 * k.val)).toNat + i) = true ∧
        checkDesc (engine (gathering 1)) bank15 needWr (!(gathering 1).user) ((BitVec.ofNat 64 (0x200 + 8 * k.val)).toNat + i) = .ok (0x100003C0200 + 8 * k.val + i) 2 bank15) ∧
      ∀ i, i < 8 → spot (gathering 1) (engine (gathering 1)) (0x100003C0200 + 8 * k.val + i) = true) ⟨k, hk⟩
    exact spans_one _ _ _ _ _ _ 2 bank15 rfl this.1 this.2.1 this.2.2
theorem wit_EngineEvents_scatter : (began 3 1 8 1).turn (engine (began 3 1 8 1)) 0 0 ∧ (began 3 1 8 1).kind = 3 ∧ (began 3 1 8 1).swz = false ∧ 0 < (began 3 1 8 1).nrows :=
  ⟨turn_alone _ (by decide) (by decide) (by decide +kernel) (by decide +kernel), by decide⟩
/-- A raw `copyt` of one row of 16 bytes into v4 of 8-bit elements. -/
def transposing : CReq := { began 4 1 16 1 with vt := 3, vreg := 4, glanes := 4096, lanes := 4096, fmt := none }
def transposed : State := updCore (engine transposing) 0 fun q => { q with narr := 2, vec := { Vec.bindTo (some 0) with vl := 16, vtype := 3 } }
theorem wit_EngineEvents_transpose : (colAt transposed 0).eng.get 0 = [transposing] ∧ transposing.begun = true ∧ transposing.z = false ∧ transposing.mask = none ∧
    (let q := coreAt transposed 0
     q.vec.vtype = 3 ∧ vtIll 3 = false ∧ 0 < q.narr ∧ q.narr ≤ 16 ∧ aligned 4 (VKind.regs .s 8 1) = true ∧ 1 * (16 * 8 / 8) ≤ q.vlmax ∧ q.glanes = 4096 ∧
       q.lanes = 4096 ∧ (colAt transposed 0).layerctl.getLsbD 0 = true) ∧ stilledAt transposed 0 5 = false ∧ transposed.memOk ∧
    (∀ i, i < 16 → spot transposing transposed (0x100003C0100 + i) = true ∧
      checkDesc transposed bank15 needRd (!transposing.user) (0x100 + i) = .ok (0x100003C0100 + i) 2 bank15) := by decide +kernel
theorem wit_EngineEvents_failed : CReq.accepted (engine { began 0 1 16 16 with failed := some (.busFault, 0x100) }) { began 0 1 16 16 with failed := some (.busFault, 0x100) } = true ∧
    stilledAt (engine { began 0 1 16 16 with failed := some (.busFault, 0x100) }) 0 5 = false := by decide +kernel
theorem wit_EngineEvents_complete :
    let s := engine { req with begun := true, done := true }
    s.net = [] ∧ req.core < 2048 ∧ (∀ f : Fin 16, f ≠ 0 → (colAt s 0).eng.get f = []) ∧ (∀ f : Fin 2, (colAt s 0).coll.get f = []) := by decide +kernel
def part (rank id : Nat) : Contrib := { group := 0x2000, rank := rank, req := id, data := [1, 2], complete := true, kept := false, elem := 0 }
/-- A `creduce` or `cbcast` of n participants, and its round when each has sent. -/
def collReq (kind n : Nat) (root : Bool) (id : Nat) : CReq :=
  { req with id := id, kind := kind, group := 0x2000, count := n, rank := id - 1, rootOnly := root }
def round (kind n : Nat) (root : Bool) : State := col0 (fun c => { c with
  contribs := c.contribs.set 0 ((List.range n).map fun k => part k (k + 1)), coll := c.coll.set 0 ((List.range n).map fun k => collReq kind n root (k + 1)) }) ready
theorem wit_EngineEvents_round : ∀ k ∈ [5, 6], ∀ n ∈ [1, 2, 3], ∀ root ∈ [true, false],
    (colAt (round k n root) 0).contribs.get 0 = (List.range n).map (fun k => part k (k + 1)) ∧
    (colAt (round k n root) 0).coll.get 0 = (List.range n).map (fun j => collReq k n root (j + 1)) ∧
    (∀ f : Fin 2, f ≠ 0 → (colAt (round k n root) 0).coll.get f = []) ∧ (∀ c, c ≠ 0 → ∀ f : Fin 2, (colAt (round k n root) c).coll.get f = []) ∧
    (((colAt (round k n root) 0).coll.get 0).map (·.id)).Nodup ∧ stilledAt (round k n root) 0 5 = false ∧ (collReq k n root 1).group = (part 0 1).group := by
  decide +kernel
def moving (target : Nat) : State :=
  col0 (fun c => { c with cmpStep := 1, cmpdir := 0x10000, cmpva := 0, cmptgt := BitVec.ofNat 64 target }) directory
theorem wit_EngineEvents_move : (colAt (moving 0x20000) 0).cmpStep = 1 ∧ (moving 0x20000).night.engines = false ∧ (colAt (moving 0x20000) 0).tripped = false ∧ (moving 0x20000).memOk ∧
    findBase (moving 0x20000) 0x10000 0 = some 0 ∧ dirEdit (moving 0x20000) 0x10000 = false ∧ (dirDesc (moving 0x20000) 0x10000 0).locked = false ∧
    lineBad (moving 0x20000) 0x10000 = false ∧ descsBad (moving 0x20000) 0x10000 0 2 = false ∧ findBase (moving 0x20000) 0x10000 5 = none ∧
    moveOk 0 (dirDesc (moving 0x20000) 0x10000 0) (0x20000 / 64) (moving 0x20000) = true ∧
    moveOk 0 (dirDesc (moving 0x40) 0x10000 0) (0x40 / 64) (moving 0x40) = false ∧ (colAt (moving 0x40) 0).cmpbar = 0 ∧
    ((moving 0x20000).cores.all fun q => q.2.cw.isEmpty) = true := by decide +kernel
theorem wit_EngineEvents_move_bad : (let s := col0 (fun c => { c with bad := [0x401] }) (moving 0x20000)
    (findBase s 0x10000 0 = some 0) ∧ descsBad s 0x10000 0 2 = true ∧ (colAt s 0).cmpbar = 0 ∧ (colAt s 0).cmpStep = 1) := by decide +kernel

/-- Every core of row 0 of column 0 is unbound but core 0, which has arrived. -/
def arrived : State := waits (.wires 0 9) (withCore fun q => { q with bound := true, latchSet := 1 })
theorem wit_WaitEvents_wires : wireSet 0 0 = wireCores 0 0 0 ∧ (hartAt arrived 0 0).wait = .wires 0 9 ∧
    ((wireCores 0 0 0).all (wireArrived arrived 0)) = true ∧ (coreAt arrived 0).latchSet.getLsbD 0 = true ∧
    (hartAt arrived 0 0).st = .parked := by decide +kernel
theorem tabGet_unlisted {α : Type} (d : α) : ∀ (l : Tab α) (x : Nat), x ∉ l.map (·.1) → tabGet d l x = d
  | [], _, _ => rfl
  | (n, v) :: l, x, h => by
    simp only [List.map_cons, List.mem_cons, not_or] at h
    rw [tabGet, if_neg (Ne.symm h.1)]; exact tabGet_unlisted d l x h.2
theorem wit_WaitEvents_others : ∀ x j e, (x ≠ 0 ∨ j ≠ 0) → (hartAt arrived x j).wait ≠ .wires 0 e := by
  have h0 : ∀ j : Fin 8, j ≠ 0 → (hartAt arrived 0 j).wait = .none := by decide +kernel
  have hl : arrived.cores.map (·.1) = [0] := by decide +kernel
  have hr : ∀ j : Fin 8, (Core.reset.harts.get j).wait = .none := by decide +kernel
  generalize arrived = s at h0 hl
  intro x j e h
  by_cases hx : x = 0
  · rw [hx, h0 j (by simpa [hx] using h)]; simp
  · rw [hartAt, coreAt, tabGet_unlisted _ _ _ (by rw [hl]; simpa using hx), hr j]; simp
def timing (w : Wait) : State := updHart { waits w ready with clock := 70000 } 0 0 fun h => { h with timer := some 65536 }
theorem wit_WaitEvents_timers : (∀ w ∈ [Wait.wires 0 9, .park], (hartAt (timing w) 0 0).wait = w ∧ (hartAt (timing w) 0 0).st = .parked ∧
    (hartAt (timing w) 0 0).timer = some 65536) ∧ 65536 ≤ (timing .park).clock := by decide +kernel
def taking : State := setCore State.reset 0 { Core.reset with jobWrite := some (5, none) }
theorem wit_WaitEvents_job : (coreAt taking 0).jobWrite = some (5, none) ∧ jobReady taking 0 none = true ∧ (coreAt taking 0).job = 0 ∧
    (coreAt ready 0).jobWrite = none := by decide +kernel

def queue0 : QCtx := { resident := true, job := 5, pool := 0x40000, pooln := 4, qarea := 0x80000, ring := 0x60000, ringn := 16, tail := 1, head := 0
                       rdir := 0x10000, bad := false, loadReq := false, qirq := 0, used := 0, switching := false, tails := [] }
def job5Ent (recs : Tab LRec) : JobEnt := ⟨5, 0x40000, 4, 0x80000, 0x10000, recs, []⟩
def queues : State := { State.reset with dist := { dqbase := 0x200000, ctxs := [(0, queue0)], jobs := [job5Ent []], seq := 0 } }
/-- The image of context 0 in the table: one entry in its ring. -/
def images0 : State := cells [(0x200000, 8, 2 ^ 32 + 5), (0x200008, 8, 0x40000), (0x200010, 8, 4), (0x200018, 8, 0x80000), (0x200020, 8, 0x60000),
  (0x200028, 8, 16), (0x200030, 8, 1), (0x200038, 8, 0), (0x200040, 8, 0x10000)]
  { State.reset with dist := { dqbase := 0x200000, ctxs := [(0, { queue0 with resident := false, loadReq := true })], jobs := [], seq := 0 } }
theorem wit_DistributorEvents_contexts : queuesShut queues = false ∧ (∀ k, k < 2 → lineClean images0 (ctxImage images0 0 + 64 * k) = true) ∧ (ctxAt queues 0).resident = true ∧ (ctxAt queues 0).head.toNat ≤ 16 ∧ 16 ≤ (ctxAt queues 0).head.toNat + 16 ∧
    (ctxAt queues 0).head.toNat + (ctxAt queues 0).ringn < 17 ∧ (readCtx images0 0).2 = true ∧ (ctxAt images0 0).resident = false ∧
    (ctxAt images0 0).loadReq = true ∧ ((images0.dist.ctxs.filter fun e => e.2.resident || e.2.switching).length < 64) ∧ stilledAt images0 0 (readCtx images0 0).1.job = false ∧
    ctxEligible images0 0 = true ∧ (ctxAt images0 0).switching = false ∧
    (∀ k, k < 2 → homed images0 (ctxImage images0 0 + 64 * k) = true ∧ lineBad images0 (ctxImage images0 0 + 64 * k) = false) := by
  decide +kernel
/-- A switch of context 0 is in progress: in, or out. -/
def switchingIn : State := { images0 with dist := { images0.dist with ctxs := [(0, { queue0 with resident := false, loadReq := true, switching := true })] } }
def switchingOut : State := { queues with dist := { queues.dist with ctxs := [(0, { queue0 with switching := true })] } }
theorem wit_DistributorEvents_switch : (readCtx switchingIn 0).2 = true ∧ (ctxAt switchingIn 0).resident = false ∧ (ctxAt switchingIn 0).switching = true ∧
    stilledAt switchingIn 0 (readCtx switchingIn 0).1.job = false ∧ homed switchingIn (ctxImage switchingIn 0) = true ∧
    homed switchingIn (ctxImage switchingIn 0 + 64) = true ∧ lineClean switchingIn (ctxImage switchingIn 0) = true ∧ lineClean switchingIn (ctxImage switchingIn 0 + 64) = true ∧
    (ctxAt switchingOut 0).resident = true ∧ (ctxAt switchingOut 0).switching = true ∧ (ctxAt switchingOut 0).tails = [] ∧
    (ctxAt switchingOut 0).pooln < 2 ^ 64 ∧ (ctxAt switchingOut 0).ringn < 2 ^ 64 ∧ stilledAt switchingOut 0 (readCtx switchingOut 0).1.job = false ∧
    switchingOut.memOk ∧ ctxImage switchingOut 0 % 128 = 0 ∧ homed switchingOut (ctxImage switchingOut 0) = true ∧
    homed switchingOut (ctxImage switchingOut 0 + 64) = true := by decide +kernel
theorem wit_DistributorEvents_decision : queues.dist.ctxs = [(0, ctxAt queues 0)] ∧ queues.dist.jobs = [job5Ent []] ∧
    (job5Ent []).job = (ctxAt queues 0).job ∧ (ctxAt queues 0).head ≠ (ctxAt queues 0).tail ∧ stilledAt queues 0 5 = false ∧ queues.cores = [] ∧
    (ctxAt queues 0).switching = false ∧
    (ctxAt queues 0).ring.toNat + 4 * ((ctxAt queues 0).head.toNat % (ctxAt queues 0).ringn) = 0x60000 ∧
    memRead queues.mem 0x60000 4 < 4 ∧ lineClean queues 0x60000 = true ∧ homed queues 0x60000 = true ∧
    (∀ i, i < 4 → homed queues (poolAt queues 5 0 + 64 * i) = true ∧ lineClean queues (poolAt queues 5 0 + 64 * i) = true) ∧
    (∀ st, st < 8 → (dword queues.mem (poolAt queues 5 0 + 8 * (10 + 3 * st))).toNat < 65536) := by decide +kernel
/-- Record 0 runs with a record in the queue of its stage 0. -/
def feeding : State :=
  let u : Vector (BitVec 64) 8 := (Vector.replicate 8 0).set 1 0x4000
  let q : Core := { Core.reset with ctxjob := 5, bound := true }
  { queues with dist := { queues.dist with jobs := [job5Ent [(0, { rec0 with queues := rec0.queues.set 0 [u] })]] }, cores := [(0, q)] }
theorem wit_DistributorEvents_records : (findJob running 5).isSome = true ∧ (recOf running 5 0).status = stRunning ∧
    (recOf running 5 0).issued < (recOf running 5 0).work ∧ queueFull running 5 0 0 = false ∧ stilledAt running 0 5 = false ∧
    (recOf running 5 0).work ≤ 2 ^ 32 ∧ homed running (poolAt running 5 0 + 40) = true ∧ homed running (poolAt running 5 0 + 48) = true ∧
    homed running (ringPlace running 5 0 0) = true ∧ (recOf running 5 3).status ≠ stRunning := by decide +kernel
theorem wit_DistributorEvents_take : (coreAt feeding 0).bound = true ∧ (coreAt feeding 0).marked = none ∧ (coreAt feeding 0).binding = none ∧ takesWork feeding 0 = true ∧
    (findJob feeding (coreAt feeding 0).job).isSome = true ∧
    (recordSlots (recOf feeding 5 0) 0).find? (fun j => ((coreAt feeding 0).harts.get j).st == .idle) = some 0 ∧
    (recOf feeding 5 0).queues.toList.getD 0 [] = [(Vector.replicate 8 0).set 1 0x4000] ∧
    (((Vector.replicate 8 0).set 1 0x4000 : Vector (BitVec 64) 8).get 0).getLsbD 8 = false := by decide +kernel

/-- Stage 0 of record 0 is empty and has cores 1 and 2, of which core 2 has n busy slots and core 1 has m; stage 1 is full and has none. -/
def balancing (m n : Nat) : State :=
  let u : Vector (BitVec 64) 8 := Vector.replicate 8 0
  let r := { rec0 with snap := (rec0.snap.set 9 4).set 12 (BitVec.ofNat 64 (4 + 2 ^ 49)), queues := rec0.queues.set 1 [u, u, u, u] }
  let q (m : Nat) : Core := { Core.reset.mapHarts (fun k h => if k.val < m then { h with st := .ready } else h) with ctxjob := 5, bound := true }
  { queues with dist := { queues.dist with jobs := [job5Ent [(0, r)]] }, cores := [(1, q m), (2, q n)] }
theorem wit_BalancerEvents : (∀ s ∈ [balancing 1 2, balancing 0 1], (recOf s 5 0).status = stRunning ∧ (recOf s 5 0).nstage = 2 ∧ stilledAt s 0 5 = false ∧
    stageCores s 5 0 0 = [1, 2] ∧ stageCores s 5 0 1 = [] ∧ (∀ c ∈ [1, 2], (coreAt s c).marked = none ∧ (coreAt s c).gang = 1) ∧
    queueLen s 5 0 0 * (recOf s 5 0).qcap 1 < queueLen s 5 0 1 * (recOf s 5 0).qcap 0 ∧
    3 * (recOf s 5 0).qcap 1 < 4 * queueLen s 5 0 1 ∧ 4 * queueLen s 5 0 0 < (recOf s 5 0).qcap 0 ∧
    (recOf s 5 0).gang 0 = 1 ∧ (recOf s 5 0).gang 1 = 1 ∧ (recOf s 5 0).cmin 0 + 1 ≤ 2 ∧ 0 + 1 ≤ (recOf s 5 0).cmax 1 ∧
    (coreAt s 1).binding = none ∧ (coreAt s 1).wayReqs = [] ∧ (coreAt s 1).cw = [] ∧ (coreAt s 1).waiters = [] ∧ (colAt s (colOf 1)).layerctl.getLsbD 2 = false) ∧
    (∀ e ∈ [(1, 2), (0, 1)], ∀ c ∈ [(1, e.1), (2, e.2)], ((List.finRange 8).countP fun j => j.val != 7 &&
      ((coreAt (balancing e.1 e.2) c.1).harts.get j).st != .idle) = c.2) := by decide +kernel
theorem wit_BalancerEvents_none : (recOf ready 5 0).status ≠ stRunning ∧
    ¬(3 * (recOf running 5 0).qcap 1 < 4 * queueLen running 5 0 1) ∧ ¬(3 * (recOf running 5 0).qcap 0 < 4 * queueLen running 5 0 0) := by
  decide +kernel

/-- Context 0 of job 5 with record 0 alone: two stages of one core each, without work or with two units, READY or running; n cores are free. -/
def selecting (status : BitVec 16) (nstage work cmin cmax n : Nat) : State :=
  let r := { rec0 with
    status := status
    snap := (((((rec0.snap.set 0 (BitVec.ofNat 64 (2 ^ 16 * nstage))).set 1 (BitVec.ofNat 64 work)).set 2 (-1)).set 3 0x18000000000).set 9
      (BitVec.ofNat 64 (4 + 2 ^ 32 * cmin + 2 ^ 48 * cmax))).set 12 (BitVec.ofNat 64 (4 + 2 ^ 32 * cmin + 2 ^ 48 * cmax)) }
  { queues with
    dist := { queues.dist with ctxs := [(0, { queue0 with tail := 0 })], jobs := [job5Ent [(0, r)]] }
    cores := (List.range n).map fun c => (c, { Core.reset with ctxjob := 5 }) }
theorem wit_SelectionEvents : ∀ s ∈ [selecting stReady 2 2 1 1 1, selecting stReady 2 2 1 1 2, selecting stReady 2 2 1 1 3, selecting stRunning 1 2 0 1 0,
      selecting stRunning 1 2 1 1 2, selecting stReady 2 0 1 1 2, selecting stArmed 2 0 1 1 2],
    s.dist.ctxs.length = 1 ∧ (∀ q ∈ s.dist.ctxs, q.2.resident = true ∧ q.2.switching = false ∧ q.2.head = q.2.tail ∧ q.2.job = 5) ∧
    s.dist.jobs.map (·.job) = [5] ∧ (s.dist.jobs.flatMap (·.recs)).map (·.1) = [0] ∧ stilledAt s 0 5 = false ∧
    (s.cores.map (·.1)).Pairwise (· < ·) ∧ (∀ e ∈ s.cores, e.2.binding = none ∧ e.2.cw = [] ∧ e.2.waiters = [] ∧ e.2.wayReqs = [] ∧ e.2.quiet = true) ∧
    (colAt s (colOf 0)).layerctl.getLsbD 2 = false ∧ (recOf s 5 0).nstage ≤ 8 ∧ (∀ st, st < (recOf s 5 0).nstage → (recOf s 5 0).gang st = 1) := by
  decide +kernel
/-- Two stages ask for two cores: one free core does not reach them, two and three do. -/
theorem wit_SelectionEvents_head : freeCores (selecting stReady 2 2 1 1 1) 5 = [0] ∧ freeCores (selecting stReady 2 2 1 1 2) 5 = [0, 1] ∧
    freeCores (selecting stReady 2 2 1 1 3) 5 = [0, 1, 2] ∧ (∀ st, st < 2 → (recOf (selecting stReady 2 2 1 1 2) 5 0).cmin st = 1 ∧
      (recOf (selecting stReady 2 2 1 1 2) 5 0).cmax st = 1) ∧ 0 < (recOf (selecting stReady 2 2 1 1 2) 5 0).work ∧
    (recOf (selecting stReady 2 2 1 1 2) 5 0).nstage = 2 := by decide +kernel
theorem wit_SelectionEvents_grow : freeCores (selecting stRunning 1 2 0 1 0) 5 = [] ∧ freeCores (selecting stRunning 1 2 1 1 2) 5 = [0, 1] ∧
    (stageCores (selecting stRunning 1 2 1 1 2) 5 0 0).length < (recOf (selecting stRunning 1 2 1 1 2) 5 0).cmax 0 ∧
    (recOf (selecting stRunning 1 2 1 1 2) 5 0).status = stRunning ∧ (recOf (selecting stRunning 1 2 1 1 2) 5 0).nstage = 1 := by decide +kernel
theorem wit_SelectionEvents_zero : (recOf (selecting stReady 2 0 1 1 2) 5 0).work = 0 ∧ (recOf (selecting stArmed 2 0 1 1 2) 5 0).status = stArmed ∧
    (∀ i, i < 4 → (recOf (selecting stArmed 2 0 1 1 2) 5 0).pred i = 0xFFFF) ∧ (recOf (selecting stReady 2 0 1 1 2) 5 0).bar ≠ 0 := by decide +kernel
/-- The last live record of record 0 ends on slot 0. -/
def lastEnd : State := updRec running 5 0 fun r => { r with issued := 5, live := 1 }
theorem wit_SelectionEvents_end : lastEnd.curSlot ≠ 7 ∧ Fenced lastEnd ∧ covered lastEnd 6 = true ∧ (me lastEnd).frames = [] ∧ (me lastEnd).hasRec = true ∧
    (findJob lastEnd (myCore lastEnd).job).isSome = true ∧ (coreAt lastEnd (leaderOf lastEnd lastEnd.curCore)).marked = none ∧
    (let r := recOf lastEnd (myCore lastEnd).job (me lastEnd).lrec.toNat
     r.status = stRunning ∧ r.issued = r.work ∧ r.live = 1 ∧ ∀ st : Fin 8, r.queues.get st = []) := by decide +kernel

def note : Msg := { handler := 0x4000, w := Vector.replicate 4 7, cls := 1, sender := 3 }
/-- A message on its way to logical core 0, which is core 0 of the job. -/
def posted (loc : PLoc) (n : Nat) : State :=
  { updCore spawner 0 fun q => { q with ctxjob := 5 } with net := [{ pkt (.msg note 0 n) loc with job := 5, gpa := 0 }], clock := 64 }
theorem wit_MessageEvents : findPkt (posted .mesh 0) 1 = some { pkt (.msg note 0 0) .mesh with job := 5, gpa := 0 } ∧
    msgBehind (posted .mesh 0) { pkt (.msg note 0 0) .mesh with job := 5, gpa := 0 } note 0 = false ∧ (coreAt (posted .mesh 0) 0).job = 5 ∧
    closed (posted .mesh 0) 0 = false ∧ leaderOf (posted .mesh 0) (bankCore (posted .mesh 0) 5 0) = 0 ∧
    (hartAt (posted .retry 1) 0 0).feLimit = 1024 ∧ (colAt (posted .mesh 0) (colOf 0)).tripped = false ∧ heldAt (posted .retry 1) 0 5 = false ∧ 0 + 64 ≤ (posted .retry 1).clock ∧ 1024 < 1025 := by decide +kernel
theorem wit_MessageEvents_away : findPkt (posted .away 0) 1 = some { pkt (.msg note 0 0) .away with job := 5, gpa := 0 } ∧
    ({ pkt (.msg note 0 0) .away with job := 5, gpa := 0 } : Pkt).id ≠ 0 := by decide +kernel
/-- Port 0 is up, with an allowance for an answer. -/
def fromOutside : State := { posted .mesh 0 with
  fabric := { State.reset.fabric with tflstat := State.reset.fabric.tflstat.set 0 (1#64 <<< 62), allow := [(1, 1)] } }
theorem wit_MessageEvents_outside : portUp fromOutside 0 = true ∧ tabGet 0 fromOutside.fabric.allow 1 ≠ 0 ∧ heldAt fromOutside 0 5 = false ∧
    (colAt fromOutside 0).tripped = false ∧ (resolveCore 0 5 0 fromOutside).1 = .core 0 ∧
    (let t := (resolveCore 0 5 0 fromOutside).2
     let x := leaderOf t (bankCore t 5 0)
     (coreAt t x).job = 5 ∧ closed t x = false ∧ ((coreAt t x).ring.get 1).length < 32 ∧ (colAt t (colOf 0)).tripped = false) := by decide +kernel
def ringing : State := withCore fun q => { q with ring := q.ring.set 2 [note] }
theorem wit_MessageEvents_take : (coreAt ringing 0).ring.get 2 = [note] ∧ (∀ j : Fin 4, 2 < j → (coreAt ringing 0).ring.get j = []) ∧
    (hartAt ringing 0 7).st = .idle ∧ takesWork ringing 0 = true := by decide +kernel
def spawnPkt : Pkt := { pkt (.spawn 0x4000 (Vector.replicate 4 7) 1 9) .mesh with job := 5, gpa := 1 }
def spawning : State := carrying spawnPkt (setCore (withCore fun q => { q with ctxjob := 5 }) 1 { Core.reset with ctxjob := 5 })
theorem wit_MessageEvents_spawn : findPkt spawning 1 = some spawnPkt ∧ colOf 1 = colOf 0 ∧ (coreAt spawning 1).job = (coreAt spawning 0).job ∧
    (coreAt spawning 0).job ≠ 0 ∧ childSlot spawning 1 = some 0 ∧ (hartAt spawning 0 0).hasRec = false ∧
    (coreAt (carrying spawnPkt ready) 1).job = (coreAt (carrying spawnPkt ready) 0).job ∧ (coreAt (carrying spawnPkt ready) 0).job = 0 ∧
    childSlot { spawning with cores := spawning.cores.map fun e => (e.1, if e.1 = 1 then e.2.mapHarts fun _ h => { h with st := .ready } else e.2) } 1 = none ∧
    (hartAt spawning 0 0).frames.length < 8 ∧
    (hartAt (carrying (pkt (.spawnAnswer 9 0 true 0x4000) (.reply 0)) (waits (.spawn 9) ready)) 0 0).hasRec = false ∧
    (hartAt (carrying (pkt (.spawnAnswer 9 0 false 0) (.reply 0)) (waits (.spawn 9) ready)) 0 0).wait = .spawn 9 := by decide +kernel

/-- Core 0 runs the job that Nightfall freezes. -/
def nightly (f : Night → Night) : State :=
  { withCore fun q => { q with ctxjob := 5, wave := true } with night := f { State.reset.night with nfctl := 0x500000000 } }
def darkened (f : Night → Night) : State := nightly fun n => f { n with nfstat := 2 ^ 63 }
theorem wit_NightfallEvents : nightJob (nightly id) ≠ 0 ∧ nightJob ready = 0 ∧ (0x500000004#64).getLsbD 1 = false ∧
    (0x500000004#64).getLsbD 0 = false ∧ (coreAt (nightly id) 0).wave = true ∧ (coreAt (nightly id) 0).boundary = true ∧
    (hartAt (nightly id) 0 0).st = .ready ∧ (coreAt ready 0).wave = false ∧ (coreAt ready 0).night = false ∧
    (darkened id).night.nfstat.getLsbD 63 = true ∧ daySteps (darkened id) = 0 ∧
    (nightly id).night.nfstat.getLsbD 62 = false := by decide +kernel
/-- A Daybreak after n steps, core 0 frozen. -/
def daybreak (n : Nat) : State :=
  updCore (darkened fun m => { m with nfstat := BitVec.ofNat 64 (2 ^ 63 + 2 ^ 62 + 2 ^ 60 * n) }) 0 fun q =>
    { q.mapHarts (fun k h => if k = 0 then { h with st := .frozen, back := .ready } else h) with night := true, wave := false }
theorem wit_NightfallEvents_daybreak : (daybreak 0).night.coord = false ∧
    (∀ n ∈ [0, 1, 2], ((daybreak n).night.nfstat.extractLsb' 60 2).toNat = n ∧ (daybreak n).night.nfstat.getLsbD 62 = true) ∧
    (daybreak 2).night.again = false ∧ ((daybreak 2).cores.Pairwise fun a b => a.1 ≠ b.1) ∧ (coreAt (daybreak 2) 0).night = true ∧
    (hartAt (daybreak 2) 0 0).st = .frozen ∧ (hartAt (daybreak 2) 0 0).dstep.getLsbD 1 = false := by decide +kernel

/-- Port 0 is up and its partner passes Nightfall; port 1 is up without the feature. -/
def wired (s : State) : State := { s with
  fabric := { s.fabric with tflstat := (s.fabric.tflstat.set 0 (1#64 + 1#64 <<< 62)).set 1 (1#64 <<< 62) }
  cols := s.cols.map fun c => { c with route := [(1, 1)] } }
theorem wit_NightfallEvents_flits : portNight (wired (nightly id)) 0 = true ∧ portNight (wired (nightly id)) 1 = false ∧ nightJob (wired (nightly id)) = 5 ∧
    partialBits (wired (nightly id)) ≠ 0 ∧ partialBits (nightly id) = 0 ∧ nightJob (wired ready) = 0 := by decide +kernel
theorem wit_NightfallEvents_settled : allSettled (updCore (darkened fun m => { m with engines := true, ports := true, ackDue := true, leader := 1 }) 0 fun q =>
      { q.mapHarts (fun _ h => { h with st := .frozen }) with night := true, wave := false }) = true ∧ portFor (wired ready) 0 1 = some 0 := by decide +kernel
/-- The coordinator after n steps, every acknowledgement in and SETTLED 1; the same on a device that a coordinator's step reaches. -/
def leading (n : Nat) (coord : Bool) : State := wired (updHart (updCore (daybreak n) 0 id) 0 0 id |> fun s => { s with
  night := { s.night with nfstat := s.night.nfstat ||| (1#64 <<< 58), coord := coord, acks := [] } })
theorem wit_NightfallEvents_steps : (∀ n ∈ [0, 1, 2], stepsDone (leading n true).night = n ∧ (leading n true).night.coord = true ∧ (leading n true).night.acks = [] ∧
      (leading n true).night.nfstat.getLsbD 63 = true ∧ (leading n true).night.nfstat.getLsbD 58 = true ∧ (leading n false).night.coord = false) ∧
    (leading 2 true).night.again = false ∧ (1#8 : BitVec 8) ≠ (leading 0 true).fabric.dev ∧ (leading 0 true).fabric.dev.toNat < 1 ∧ portNight (leading 0 false) 0 = true ∧
    (daybreak 0).night.nfstat.getLsbD 58 = false := by decide +kernel

def halted (f : Hart → Hart) : State := withHart fun h => f { h with st := .halted, back := .ready }
theorem wit_DebugEvents : (hartAt ready 0 0).st = .ready ∧ (hartAt ready 0 0).boundary = true ∧ (coreAt ready 0).vec.bound = false ∧
    (hartAt (daybreak 2) 0 0).st = .frozen ∧ (coreAt (withCore fun q => { q with unloaded := true }) 0).unloaded = true ∧
    (hartAt (halted id) 0 0).st = .halted ∧ (hartAt (halted id) 0 0).dstep.getLsbD 0 = false ∧ (coreAt (halted id) 0).unloaded = false ∧
    (hartAt (halted fun h => { h with dstep := 1 }) 0 0).dstep.getLsbD 0 = true ∧ (0x1005#16).toNat = 0x1000 + (5#5).toNat := by decide +kernel
theorem wit_DebugEvents_memory : (3#3).toNat ≤ 3 ∧ (0x100003C0008#64).toNat < 2 ^ 56 ∧ gpaDev (0x100003C0008#64).toNat = bank.fabric.dev.toNat ∧
    (0x100003C0008#64).toNat % 8 = 0 ∧ (0x100003C0009#64).toNat % 8 ≠ 0 ∧ (match targetOf bank 0x100003C0008 with | .bank b w o => b == 0 && w == 15 && o == 8 | _ => false) = true ∧
    bankCheck bank 0 15 = none ∧ lineBad bank 0x100003C0008 = false ∧ bank.memOk ∧ bankTaken bank noCore 0 15 = false ∧
    bankHeld bank noCore 0x100003C0008 = false ∧ (1#8 : BitVec 8) ≠ 0 ∧
    (((List.range 16).map fun j => 256 * 0 + 16 * 0 + j).all fun x => mayUnload ready x && (coreAt ready x).cw.isEmpty &&
      (coreAt ready x).waiters.isEmpty) = true := by decide +kernel

/-- A `mopa` of tile2 at the head of its core, with its operands in the core's own banks 12 and 13. -/
def op : DtuOp := { word := 0x0014905B, da := 0xC, db := 0xD, q := none, codeA := 8, codeB := 8, a := none, b := none, full := false, after := 0, stop := none }
def buffer : DtuBuf := { bfmt := 8, rows := [], scales := [] }
def opFull : DtuOp := { op with a := some buffer, b := some buffer, full := true }
def product (d : DtuOp) : State := updCore tile2 0 fun q => { q with vec := { q.vec with dtu := [d] } }
theorem wit_SequencerEvents_fill : (colAt (product op) (colOf 0)).tripped = false ∧ op.stop = none ∧ (coreAt (product op) 0).vec.dtu = [op] ∧ op.full = false ∧ opCore 0 op.da = 0 ∧ opCore 0 op.db = 0 ∧
    fillStop (product op) 0 op.da op.codeA op.a.isSome = none ∧ fillStop (product op) 0 op.db op.codeB op.b.isSome = none := by decide +kernel
theorem wit_SequencerEvents_accumulate : (coreAt (product opFull) 0).vec.dtu = [opFull] ∧ opFull.full = true ∧ opFull.after = 0 ∧ opFull.a = some buffer ∧
    opFull.b = some buffer ∧ (coreAt (product opFull) 0).mvl ≤ 64 := by decide +kernel
/-- A window at bank 12 of core 0 holds the request of core 1 for its first operand. -/
def window : MWin := ⟨12, 0, 8, false, 0, [1]⟩
def merging : State := { setCore (updCore tile2 0 fun q => { q with windows := [window] }) 1
  { Core.reset with vec := { (coreAt tile2 0).vec with dtu := [op] } } with clock := 16 }
theorem wit_SequencerEvents_window : (coreAt merging 0).windows = [window] ∧ window.way = 12 ∧ window.opened + 16 ≤ merging.clock ∧
    window.cores = [1] ∧ (coreAt merging 1).vec.dtu = [op] ∧ opCore 1 op.da = 0 ∧ opBank op.da = 12 ∧ opRow op.da = window.row0 ∧
    fillStop merging 1 op.da op.codeA false = none := by decide +kernel
def member : VCmd := { fAdd.cmd (vector 2 4 3) with began := true }
def convoying (m : VCmd) : State := updCore (vector 2 4 3) 0 fun q => { q with vec := { q.vec with convoy := [m] } }
/-- Members of every kind: integer, by a replicated segment, a compare, `vrng`, `vseed`, and under RSR; the last has more elements than one group. -/
noncomputable def members : List (Instr × VForm × State) :=
  [(.vaddVv 0 0 0 0 1 2 3, fAdd, vector 2 4 3), (.vaddVv 1 2 0 0 1 2 3, { fAdd with rep := repLen 1 2 }, vector 2 4 3),
   (.vmseqVx 0 0 0 0 1 2 3, ⟨.seq, true, 3, 1, 2, false, 0, 0⟩, vector 2 4 3), (.vrngV 0 0 3, fRng, vector 2 4 3), (.vseedVx 0 0 5, fSeed, vector 2 4 3),
   (.vfaddVv 0 0 0 0 1 2 3, fRsr, vector 2 4 0x505), (.vaddVv 0 0 0 0 8 16 0, { fAdd with vd := 0, vs2 := 8, vs1 := 16 }, vector 2 5000 0x3003)]
theorem wit_SequencerEvents_pass_forms : members.map (fun x => elemForm x.1) = members.map fun x => some x.2.1 := rfl
theorem wit_SequencerEvents_pass : ∀ x ∈ members,
    let m : VCmd := { x.2.1.cmd x.2.2 with began := true }
    let s := updCore x.2.2 0 fun q => { q with vec := { q.vec with convoy := [m] } }
    m.op = x.2.1.op ∧ m.sc = x.2.1.sc ∧ (coreAt s 0).vec.bound = true ∧ (coreAt s 0).vec.stop = none ∧ (coreAt s 0).vec.convoy = [m] ∧ m.finished = false ∧
    m.next < m.vl ∧ m.badCfg (coreAt s 0).glanes = false ∧ m.vl ≤ vlmaxOf (coreAt s 0).glanes m.vtype ∧
    (colAt s (colOf 0)).layerctl.getLsbD 0 = true ∧ (coreAt s 0).narr ≤ 16 ∧ (colAt s (colOf 0)).tripped = false := by decide +kernel
theorem wit_SequencerEvents_done : nextMember (max 1 (coreAt (vector 2 4 3) 0).glanes) [{ member with next := 4, finished := true }] = none := by decide +kernel

/-! ## A step runs the decoded instruction -/

/-- `trap 7` where the next step fetches: core 0 is named, its slot 0 is READY. -/
def placed : State := State.reset.withFetchWord 32 0x400E003D
def placedRest : State := { placed with agenda := [] }
def placedIssue : State := { advance 1 placedRest with lastCore := 0 }
def fetched : Option (List (BitVec 8)) := match fetchBytes (issuing 0 0 placedIssue) with | .ok bs _ => some bs | _ => none
theorem wit_StepRunsDecoded : placed.agenda = [.core 0] ∧ pickSlot (advance 1 placedRest) 0 = some 0 ∧
    (hartAt placedIssue 0 0).unitOver = false ∧ (hartAt placedIssue 0 0).atPort = false ∧ execMatch (myCore (issuing 0 0 placedIssue)) (pc64 (issuing 0 0 placedIssue)).toNat = none ∧
    fetched = some [0x3D, 0x00, 0x0E, 0x40] := by decide +kernel
/-- The unit of the vector hart, whose convoy holds one command, at the instruction w: the debug module steps the hart. -/
def inUnit (w : Nat) : State :=
  let m := { mkCmd .add false 0 2 4 false 0 0 0 with vl := 4, vtype := 3 }
  updHart (updCore ((vector 2 4 3).withFetchWord 32 w) 0 fun q => { q with vec := { q.vec with convoy := [m] } }) 0 0 fun h =>
    { h with stepDone := true, dbgStep := true }
def unitAt (s : State) : State := { advance 1 { s with agenda := [] } with lastCore := 0, curCore := 0, curSlot := 0 }
def overAt (f : Hart → Hart) : State := updHart placed 0 0 fun h => f { h with stepDone := true, stepHead := some 8 }
theorem wit_StepRunsDecoded_unit : (inUnit 0x1FFA9485).agenda = [.core 0] ∧ pickSlot (advance 1 { inUnit 0x1FFA9485 with agenda := [] }) 0 = some 0 ∧
    (me (unitAt (inUnit 0x1FFA9485))).unitOver = true ∧ unitTakes (unitAt (inUnit 0x1FFA9485)) = true ∧
    (me (unitAt (inUnit 0x1FFA9485))).atPort = false ∧ execMatch (myCore (unitAt (inUnit 0x1FFA9485))) 0 = none := by decide +kernel
theorem wit_StepRunsDecoded_over : ∀ s ∈ [overAt fun h => { h with dbgStep := true }, overAt fun h => { h with dstep := 1, xstat := 0 }],
    s.agenda = [.core 0] ∧ pickSlot (advance 1 { s with agenda := [] }) 0 = some 0 ∧ (me (unitAt s)).unitOver = true ∧ (me (unitAt s)).st = .ready ∧
    unitTakes (unitAt s) = false ∧ isVecHart (unitAt s) = false ∧ freezing (unitAt s) 0 .step = false := by decide +kernel
/-- R426: a command that joins the convoy belongs to the unit, a branch (major 0x18) does not. -/
theorem test_unit_bounds : unitTakes (unitAt (inUnit 0xA1082443)) = true ∧ unitTakes (unitAt (inUnit 0x1FF80331)) = false := by decide +kernel
theorem wit_StepRunsDecoded_decodes : decodeTableWord 32 0x400E003D = some (.trap 7) ∧ (decode [0xFF, 0xFF, 0xFF, 0xFF]).toOption = none := by
  decide +kernel

/-! ## Ill-formed terms -/

/-- One term for each check of WellFormed, which the check refuses, and the term beside it that it admits. -/
theorem test_wf_replicate : (Instr.vxorVx 1 0 0 0 0 0 0).wf = false ∧ (Instr.vxorVx 1 1 0 0 0 0 0).wf = true := by decide
theorem test_wf_index_width : (Instr.vstx 1 0 0 0 0 0).wf = false ∧ (Instr.vstx 2 0 0 0 0 0).wf = true := by decide
theorem test_wf_scale_register : (Instr.mwr 0 0x0C 1 0 0).wf = false ∧ (Instr.mwr 0 0x0D 1 0 0).wf = true := by decide
theorem test_wf_indexed_reduction : (Instr.vredminiXs 0 0 6 9 9).wf = false ∧ (Instr.vredminiXs 0 0 6 9 10).wf = true := by decide
theorem test_wf_wire : (Instr.barw 3 8).wf = false ∧ (Instr.barw 2 8).wf = true := by decide
theorem test_wf_mailbox : (Instr.mbput 5 8).wf = false ∧ (Instr.mbput 5 7).wf = true := by decide
theorem test_wf_column : (Instr.commit 8).wf = false ∧ (Instr.commit 7).wf = true := by decide
theorem test_wf_core : (Instr.save 2048).wf = false ∧ (Instr.save 2047).wf = true := by decide
theorem test_wf_wave : (Instr.wave 2051).wf = false ∧ (Instr.wave 2050).wf = true := by decide

/-! ## Words written out from the spec's encodings -/

theorem test_decode_scalar : ∀ p ∈ ([(0x00149409, .bext 10 9 8), (0x1FFA9485, .addi 0xFFD 9 9), (0x1FF80331, .beq 0xFFC 0 6)] : List (Nat × Instr)),
    decodeTableWord 32 p.1 = some p.2 := by decide +kernel
theorem test_decode_halfword : (decode [0x44, 0xFA]).toOption = some (.addi16 0x7D 1, 2) := by decide +kernel
theorem test_decode_memory : ∀ p ∈ ([(0x6020A425, .ldDC 16 10 8), (0x00CAC4AB, .amadd 1 5 12 9)] : List (Nat × Instr)),
    decodeTableWord 32 p.1 = some p.2 := by decide +kernel
theorem test_decode_system : ∀ p ∈ ([(0x40080039, .rel 4), (0x0000043B, .barw 0 8), (0x00C0003F, .endI), (0x002B443F, .spawn 21 20 8),
    (0x02EB403F, .send 3 21 20), (0x0000043D, .mfs 0 8), (0x3008503D, .mts 0x804 5), (0x400E003D, .trap 7), (0x6000003D, .xret),
    (0x6040943D, .savev 9 8), (0x60D4943D, .migrate 10 9 8), (0x4000007D, .brk 0), (0x400A007D, .brk 5), (0x4040507D, .nfall 5)] : List (Nat × Instr)),
    decodeTableWord 32 p.1 = some p.2 := by decide +kernel
theorem test_decode_vector : ∀ p ∈ ([(0x084A91C1, .vaddVx 0 0 0 1 5 9 3), (0xA1082443, .vxorVv 2 1 0 0 4 2 8), (0x2006B557, .vsetli 3 11 10)] :
    List (Nat × Instr)), decodeTableWord 32 p.1 = some p.2 := by decide +kernel
theorem test_decode_cross : ∀ p ∈ ([(0x43480353, .vsegsumV 2 0 0 4 6), (0x02CC0053, .vtree 0 0 6 0 0), (0x024CB553, .vredminiXs 0 0 6 11 10),
    (0x01482455, .vcompressVv 0 4 2 8)] : List (Nat × Instr)), decodeTableWord 32 p.1 = some p.2 := by decide +kernel
theorem test_decode_vector_memory : decodeTableWord 32 0x8120C451 = some (.vldx 2 0 0 16 12 8) := by decide +kernel
theorem test_decode_tile : ∀ p ∈ ([(0x346C9A59, .mrd 0 17 22 9 20), (0x0014905B, .mopa 10 9), (0x005495DB, .mopaSc 10 9 11)] : List (Nat × Instr)),
    decodeTableWord 32 p.1 = some p.2 := by decide +kernel
theorem test_decode_copy : ∀ p ∈ ([(0x109CD661, .copy 0 0 1 2 14 13 12), (0x0456D661, .copygath 0 0 0 1 11 13 12)] : List (Nat × Instr)),
    decodeTableWord 32 p.1 = some p.2 := by decide +kernel

/-! ## The spec's worked examples -/

/-- R248, "bit fields at the edges". -/
theorem test_bext : opBext 0xF0F0123456789ABC 0x0408 = 0xAB ∧ opBext 0xF0F0123456789ABC 0x0400 = 0 ∧ opBext 0xF0F0123456789ABC 0x3810 = 0xF0 ∧
    opBext 0xF0F0123456789ABC 0x4008 = 0 ∧ opBext 0xF0F0123456789ABC 0x0064 = 0xF0F0123456789ABC := by decide +kernel
theorem test_bins : opBins 0x1111111111111111 0xABCD 0x0408 = 0x1111111111111CD1 ∧ opBins 0x1111111111111111 0xABCD 0x0400 = 0x1111111111111111 ∧
    opBins 0x1111111111111111 0xABCD 0x3810 = 0xCD11111111111111 ∧ opBins 0x1111111111111111 0xABCD 0x4008 = 0x1111111111111111 ∧
    opBins 0x1111111111111111 0xABCD 0x0064 = 0xABCD := by decide +kernel
/-- R28, "a descriptor image", and R36, "splitting the range of the descriptor image". -/
def exampleRange : RDesc := ⟨0x40000001, 0x4FFFFFCB, 0x0003400200000000, 0x002FFFFF00000000⟩
theorem test_descriptor_image : exampleRange.valid = true ∧ exampleRange.cls = 0 ∧ exampleRange.vbase * 64 = 0x40000000 ∧
    exampleRange.vlast * 64 = 0x4FFFFFC0 ∧ exampleRange.perm = 0x0B ∧ exampleRange.tgt * 64 = 0x3400200000000 ∧ exampleRange.whi = 0x2FFFFF ∧
    exampleRange.wlo = 0 ∧ exampleRange.resident 0x40000000 = true ∧ exampleRange.resident 0x4C000000 = false := by decide +kernel
def splitting : State := updHart (cells [(0x10000, 4, 1), (0x10040, 8, 0x40000001), (0x10048, 8, 0x4FFFFFCB), (0x10050, 8, 0x3400200000000),
    (0x10058, 8, 0x2FFFFF00000000)] (withCore fun q => { q with rdbase := 0x10000 })) 0 0 fun h => h.setG 5 0x4C000000
theorem test_split_example :
    (match execRsplit 5 6 splitting with
     | .next t => gr t 6 == 0 && memRead t.mem 0x10000 4 == 2 && dirDesc t 0x10000 0 == ⟨0x40000001, 0x4BFFFFCB, 0x0103400200000000, 0x2FFFFF00000000⟩ &&
       dirDesc t 0x10000 1 == ⟨0x4C000001, 0x4FFFFFCB, 0x010340020C000000, 0xFFFFFFFF⟩
     | _ => false) = true := by decide +kernel
/-- R58, R60, "four adds to one counter": what combines, and what the reply of each second request adds. -/
theorem test_combined_adds : combineOps (.am .add 8 1 0 8) (.am .add 8 2 0 9) = some (.am .add 8 3 0 8, 1) ∧
    combineOps (.am .add 8 3 0 8) (.am .add 8 7 0 9) = some (.am .add 8 10 0 8, 3) ∧ switchAt 1 0 32 = switchAt 1 128 32 ∧
    switchAt 1 64 32 = switchAt 1 192 32 ∧ switchAt 1 0 32 ≠ switchAt 1 64 32 ∧ switchAt 2 0 32 = switchAt 2 64 32 := by decide +kernel
/-- R83: compute sensor 0 reads 71 °C beside 58 and 60, and is failed with the effective reading 65. -/
theorem test_failed_sensor : sensorFailed [1136, 928, 944, 960, 944, 944, 944, 944, 944, 944, 944, 944, 944] 0 = true ∧
    sensorTemp [1136, 928, 944, 960, 944, 944, 944, 944, 944, 944, 944, 944, 944] 0 = 0x410 := by decide +kernel
/-- R126, "where an element lives": element 40,000 of v5 with NARR 16 and SEW 8 is rows 8 to 15 of v5 in lane 7,232. -/
theorem test_element_place : tabGet 0 (coreAt (elemPut 0 8 5 40000 0xA5 (vector 16 0 3)) 0).vec.v (32768 * 5 + 7232) = 0x00A50000 := by decide +kernel
/-- R309, "a tie and an inactive smaller value". -/
def tie (mask : BitVec 64) : State :=
  elemPut 0 1 0 0 (mask &&& 1) <| elemPut 0 1 0 1 (mask >>> 1 &&& 1) <| elemPut 0 1 0 2 (mask >>> 2 &&& 1) <| elemPut 0 1 0 3 (mask >>> 3 &&& 1) <|
  elemPut 0 1 0 4 (mask >>> 4 &&& 1) <| elemPut 0 1 0 5 (mask >>> 5 &&& 1) <| elemPut 0 8 4 0 40 <| elemPut 0 8 4 1 17 <| elemPut 0 8 4 2 93 <|
  elemPut 0 8 4 3 17 <| elemPut 0 8 4 4 5 <| elemPut 0 8 4 5 200 <| { vector 1 6 0xB with vqueue := false }
def gives2 (o : Out) (x y : BitVec 64) : Bool := match o with | .next t => gr t 10 == x && gr t 11 == y | _ => false
theorem test_vredmini_tie : gives2 (execVredminiXs 0 1 4 11 10 (tie 0x2F)) 1 17 = true ∧ gives2 (execVredminiXs 0 0 4 11 10 (tie 0x2F)) 4 5 = true ∧
    gives2 (execVredminiXs 0 1 4 11 10 (tie 0)) 0xFFFFFFFFFFFFFFFF 255 = true := by decide +kernel
/-- R285, "one rounding against three", and R170, "converting a block to bse2m1": rounding to e2m1. -/
theorem test_round_e2m1 : e2m1.ofVal 0 0 (f32.value 0x3FA00001) = (3, 1) ∧ (e2m1.ofVal 0 0 (f32.value 0x40E00000)).1 = 7 ∧
    (e2m1.ofVal 0 0 (f32.value 0x40200000)).1 = 4 ∧ (e2m1.ofVal 0 0 (f32.value 0xBEC00000)).1 = 9 ∧ (e2m1.ofVal 0 0 (f32.value 0x3D4CCCCD)).1 = 0 := by
  decide +kernel
/-- R342, "one cell, two readings": i8 threes against i8 twos. -/
def i8Rows (x : Nat) : DtuBuf := { bfmt := 8, rows := List.replicate 8 (BitVec.ofNat 3072 (x * ((256 ^ 384 - 1) / 255))), scales := [] }
theorem test_mopa_cell : (cellAcc (i8Rows 3) (i8Rows 2) none 0 0 0).1 = 0x900 ∧ (cellAcc (i8Rows 3) (i8Rows 2) (some 0xFC) 0 0 0x900).1 = 0x43100000 := by
  decide +kernel
/-- R346, "a singular pivot and its repair". -/
def blockA (x : Nat) : BlockImage :=
  { n := 3, damp := 0, tag := 0, dirty := false, eta := [0x40800000, 0x40A00000, 0x40000000, 0, 0, 0, 0, 0]
    lam := [x, 0x40000000, 0x3F800000, 0, 0, 0, 0, 0, 0x40000000, x, 0x3F000000, 0, 0, 0, 0, 0, 0x3F800000, 0x3F000000, 0x40A00000] }
theorem test_singular_pivot : blockElim (blockA 0x40000000) 2 0x34000000 = .inl 1 ∧
    (match blockElim (blockA 0x40800000) 2 0x34000000 with
     | .inr d => d.n == 1 && d.lam.getD 0 1 == 0x40980000 && d.eta.getD 0 1 == 0x3F800000 && d.lam.getD 1 1 == 0
     | .inl _ => false) = true := by decide +kernel
/-- R332: `mmode` with 16 sets MM and MVL; with 12 it changes nothing and gives 1. -/
def asksTile (v : BitVec 64) : Out := execMmode 5 6 (updHart tile 0 0 fun h => h.setG 5 v)
theorem test_mmode : (match asksTile 16, asksTile 12 with
    | .next t, .next u => (coreAt t 0).mm && (coreAt t 0).mvl == 16 && gr t 6 == 0 && (coreAt u 0).mvl == 8 && gr u 6 == 1
    | _, _ => false) = true := by decide +kernel
end Sys2Proof.Tests
end

section
/-!
PROOFS. The operations of the scalar integer instructions (R242 to R244, R247, R248) in arithmetic or bit by bit, the words of R-format
instructions (R220), and the obligations O1, O2 and O4, which follow from them.  Each instruction retires through `done4`.
-/

namespace Sys2Proof.Machine

/-! ## Retiring with a result, and the word of an R-format instruction -/

/-- `gives_done4` with the result in another spelling. -/
theorem gives_done4_of_eq {i : Instr} {s : State} {d : BitVec 5} {v w : BitVec 64} (h : exec i s = .next (done4 d v s)) (e : v = w) :
    Gives i s 4 d w := gives_done4 (e ▸ h)

/-- The fields of an R-format instruction (R220). -/
def rFields (maj fn : Nat) (b a d : BitVec 5) : List (Nat × Nat) := [(1, 1), (6, maj), (5, d.toNat), (5, a.toNat), (5, b.toNat), (10, fn)]

theorem pack_rFields {maj fn : Nat} (b a d : BitVec 5) (hm : maj < 64) (hf : fn < 1024) :
    pack (rFields maj fn b a d) = 1 + 2 * maj + 2 ^ 7 * d.toNat + 2 ^ 12 * a.toNat + 2 ^ 17 * b.toNat + 2 ^ 22 * fn := by
  have field5 (x : BitVec 5) : x.toNat % 2 ^ 5 = x.toNat := Nat.mod_eq_of_lt x.isLt
  simp only [rFields, pack, field5]
  omega

/-- The words of R-format instructions of one major and one choice of registers, listed with their function values. -/
theorem encodeWord_of_rFields {maj : Nat} {b a d : BitVec 5} {l : List (Instr × Nat)} (hm : maj < 64) (hf : ∀ p ∈ l, p.2 < 1024)
    (h : l.map (fun p => encodeFields p.1) = l.map fun p => rFields maj p.2 b a d) :
    ∀ p ∈ l, encodeWord p.1 = 1 + 2 * maj + 2 ^ 7 * d.toNat + 2 ^ 12 * a.toNat + 2 ^ 17 * b.toNat + 2 ^ 22 * p.2 := by
  intro p hp
  rw [encodeWord, List.map_inj_left.mp h p hp, pack_rFields b a d hm (hf p hp)]

/-! ## Shifts (R174) -/

theorem shiftLeft_eq_ofNat {w : Nat} (x : BitVec w) (k : Nat) : x <<< k = BitVec.ofNat w (x.toNat * 2 ^ k) :=
  BitVec.eq_of_toNat_eq (by rw [BitVec.toNat_shiftLeft, BitVec.toNat_ofNat, Nat.shiftLeft_eq])

theorem ushiftRight_eq_ofNat {w : Nat} (x : BitVec w) (k : Nat) : x >>> k = BitVec.ofNat w (x.toNat / 2 ^ k) := by
  rw [← Nat.shiftRight_eq_div_pow, ← BitVec.toNat_ushiftRight, BitVec.ofNat_toNat, BitVec.setWidth_eq]

theorem sshiftRight_eq_ofInt {w : Nat} (x : BitVec w) (k : Nat) : x.sshiftRight k = BitVec.ofInt w (x.toInt / 2 ^ k) := by
  rw [BitVec.sshiftRight, Int.shiftRight_eq_div_pow, Nat.cast_pow, Nat.cast_ofNat]

theorem opShl_eq (x y : BitVec 64) : opShl x y = BitVec.ofNat 64 (x.toNat * 2 ^ (y.toNat % 64)) := by
  rw [opShl, shiftLeft_eq_ofNat, BitVec.toNat_setWidth]
theorem opShr_eq (x y : BitVec 64) : opShr x y = BitVec.ofNat 64 (x.toNat / 2 ^ (y.toNat % 64)) := by
  rw [opShr, ushiftRight_eq_ofNat, BitVec.toNat_setWidth]
theorem opSra_eq (x y : BitVec 64) : opSra x y = BitVec.ofInt 64 (x.toInt / 2 ^ (y.toNat % 64)) := by
  rw [opSra, sshiftRight_eq_ofInt, BitVec.toNat_setWidth]

theorem wShl_eq (x y : BitVec 32) : wShl x y = BitVec.ofNat 32 (x.toNat * 2 ^ (y.toNat % 32)) := by
  rw [wShl, shiftLeft_eq_ofNat, BitVec.toNat_setWidth]
theorem wShr_eq (x y : BitVec 32) : wShr x y = BitVec.ofNat 32 (x.toNat / 2 ^ (y.toNat % 32)) := by
  rw [wShr, ushiftRight_eq_ofNat, BitVec.toNat_setWidth]
theorem wSra_eq (x y : BitVec 32) : wSra x y = BitVec.ofInt 32 (x.toInt / 2 ^ (y.toNat % 32)) := by
  rw [wSra, sshiftRight_eq_ofInt, BitVec.toNat_setWidth]

/-! ## Comparisons, minimum and maximum (R242) -/

theorem opSlt_eq (x y : BitVec 64) : opSlt x y = if x.toInt < y.toInt then 1 else 0 := by
  simp only [opSlt, BitVec.slt_iff_toInt_lt]
theorem opSltn_eq (x y : BitVec 64) : opSltn x y = if x.toNat < y.toNat then 1 else 0 := by
  simp only [opSltn, BitVec.ult_iff_lt, BitVec.lt_def]
theorem opMin_eq (x y : BitVec 64) : opMin x y = if x.toInt ≤ y.toInt then x else y := by
  simp only [opMin, BitVec.sle_iff_toInt_le]
theorem opMinn_eq (x y : BitVec 64) : opMinn x y = if x.toNat ≤ y.toNat then x else y := by
  simp only [opMinn, BitVec.ule_iff_le, BitVec.le_def]

/-- The larger of two words is the same whichever of them a tie chooses: at a tie they are equal. -/
theorem ite_le_tie {α : Type} [LinearOrder α] {f : BitVec 64 → α} (inj : ∀ {x y}, f x = f y → x = y) (x y : BitVec 64) :
    (if f y ≤ f x then x else y) = if f x ≤ f y then y else x := by
  rcases lt_trichotomy (f x) (f y) with h | h | h
  · rw [if_neg (not_le.mpr h), if_pos h.le]
  · rw [if_pos h.ge, if_pos h.le, inj h]
  · rw [if_pos h.le, if_neg (not_le.mpr h)]

theorem opMax_eq (x y : BitVec 64) : opMax x y = if x.toInt ≤ y.toInt then y else x := by
  simp only [opMax, BitVec.sle_iff_toInt_le]
  exact ite_le_tie BitVec.eq_of_toInt_eq x y
theorem opMaxn_eq (x y : BitVec 64) : opMaxn x y = if x.toNat ≤ y.toNat then y else x := by
  simp only [opMaxn, BitVec.ule_iff_le, BitVec.le_def]
  exact ite_le_tie BitVec.eq_of_toNat_eq x y

/-! ## Products (R243) -/

theorem mul_eq_ofInt {w : Nat} (x y : BitVec w) : x * y = BitVec.ofInt w (x.toInt * y.toInt) := by
  rw [BitVec.ofInt_mul, BitVec.ofInt_toInt, BitVec.ofInt_toInt]

/-- The product of two sign-extended words does not wrap at twice the width. -/
theorem toInt_signExtend_mul (x y : BitVec 64) : (x.signExtend 128 * y.signExtend 128).toInt = x.toInt * y.toInt := by
  have lower : -2 ^ 126 ≤ x.toInt * y.toInt := BitVec.le_toInt_mul_toInt
  have upper : x.toInt * y.toInt ≤ 2 ^ 126 := BitVec.toInt_mul_toInt_le
  rw [BitVec.toInt_mul, BitVec.toInt_signExtend_of_le (by decide), BitVec.toInt_signExtend_of_le (by decide)]
  generalize x.toInt * y.toInt = p at lower upper
  exact Int.bmod_eq_of_le (by omega) (by omega)

/-- The high half of a double word is its signed value over 2^64, rounded down. -/
theorem highHalf_eq_ofInt (z : BitVec 128) : z.extractLsb' 64 64 = BitVec.ofInt 64 (z.toInt / 2 ^ 64) := by
  have h : z.extractLsb' 64 64 = (z.sshiftRight 64).signExtend 64 := by
    rw [BitVec.signExtend_eq_setWidth_of_le _ (by decide)]
    ext i hi
    have inside : i < 128 ∧ 64 + i < 128 := by omega
    simp [BitVec.getElem_sshiftRight, inside]
  rw [h, BitVec.signExtend, BitVec.toInt_sshiftRight, Int.shiftRight_eq_div_pow]
  rfl

theorem opMulh_eq (x y : BitVec 64) : opMulh x y = (x.signExtend 128 * y.signExtend 128).extractLsb' 64 64 := by
  rw [opMulh, highHalf_eq_ofInt, toInt_signExtend_mul]

theorem opMulhn_eq (x y : BitVec 64) : opMulhn x y = (x.zeroExtend 128 * y.zeroExtend 128).extractLsb' 64 64 := by
  have widened (v : BitVec 64) : (v.zeroExtend 128).toNat = v.toNat := BitVec.toNat_setWidth_of_le (by decide)
  have fits : (x.zeroExtend 128).toNat * (y.zeroExtend 128).toNat < 2 ^ 128 := by
    rw [widened, widened]; exact BitVec.toNat_mul_toNat_lt
  apply BitVec.eq_of_toNat_eq
  rw [opMulhn, BitVec.extractLsb'_toNat, BitVec.toNat_mul_of_lt fits, widened, widened, Nat.shiftRight_eq_div_pow, BitVec.toNat_ofNat]

/-! ## Quotients and remainders (R174, R243) -/

theorem sdiv_eq_ofInt {w : Nat} (x y : BitVec w) : x.sdiv y = BitVec.ofInt w (x.toInt.tdiv y.toInt) :=
  BitVec.eq_of_toInt_eq (by rw [BitVec.toInt_sdiv, BitVec.toInt_ofInt])

theorem srem_eq_ofInt {w : Nat} (x y : BitVec w) : x.srem y = BitVec.ofInt w (x.toInt.tmod y.toInt) := by
  rw [← BitVec.toInt_srem, BitVec.ofInt_toInt]

theorem opDiv_eq {w : Nat} (x y : BitVec w) :
    opDiv x y = if y = 0 then BitVec.allOnes w else BitVec.ofInt w (x.toInt.tdiv y.toInt) := by
  rw [opDiv, sdiv_eq_ofInt]
theorem opDivn_eq {w : Nat} (x y : BitVec w) :
    opDivn x y = if y = 0 then BitVec.allOnes w else BitVec.ofNat w (x.toNat / y.toNat) := by
  rw [opDivn, BitVec.udiv_def]
theorem opRem_eq {w : Nat} (x y : BitVec w) : opRem x y = if y = 0 then x else BitVec.ofInt w (x.toInt.tmod y.toInt) := by
  rw [opRem, srem_eq_ofInt]
theorem opRemn_eq {w : Nat} (x y : BitVec w) : opRemn x y = if y = 0 then x else BitVec.ofNat w (x.toNat % y.toNat) := by
  rw [opRemn, BitVec.umod_def]

/-! ## The 32-bit forms (R244) -/

/-- A 32-bit form reads the low halves and sign-extends its 32-bit result. -/
theorem inW_of_eq {f : BitVec 32 → BitVec 32 → BitVec 32} {x y : BitVec 64} {v : BitVec 32} (h : f (x.setWidth 32) (y.setWidth 32) = v) :
    inW f x y = v.signExtend 64 := congrArg _ h

/-- All ones, the 32-bit quotient by zero, sign-extends to all ones. -/
theorem signExtend_ite_allOnes (c : Prop) [Decidable c] (v : BitVec 32) :
    (if c then BitVec.allOnes 32 else v).signExtend 64 = if c then BitVec.allOnes 64 else v.signExtend 64 :=
  apply_ite (BitVec.signExtend 64) c _ _

/-! ## Bit fields (R247) -/

theorem bfW_eq (b : BitVec 64) : bfW b = b.toNat % 128 := BitVec.toNat_setWidth _ _

theorem bfO_eq (b : BitVec 64) : bfO b = b.toNat / 256 % 256 := by
  rw [bfO, BitVec.extractLsb'_toNat, Nat.shiftRight_eq_div_pow]

/-- The low n bits set. -/
theorem getLsbD_lowMask (n i : Nat) (hi : i < 64) : (BitVec.ofNat 64 (2 ^ n - 1)).getLsbD i = decide (i < n) := by
  rw [BitVec.getLsbD_ofNat, Nat.testBit_two_pow_sub_one, decide_eq_true hi, Bool.true_and]

/-- `bext` reads the field's bits down to bit 0, and 0 above the field and above bit 63 of ga. -/
theorem getLsbD_opBext (a b : BitVec 64) (i : Nat) (hi : i < 64) :
    (opBext a b).getLsbD i = (decide (i < bfW b) && a.getLsbD (bfO b + i)) := by
  unfold opBext
  by_cases empty : bfW b = 0 ∨ 64 ≤ bfO b
  · have no_bit : (decide (i < bfW b) && a.getLsbD (bfO b + i)) = false := by
      rcases empty with hw | ho
      · simp [hw]
      · simp [BitVec.getLsbD_of_ge a (bfO b + i) (by omega)]
    simp only [if_pos empty]
    rw [no_bit, BitVec.ofNat_eq_ofNat, BitVec.getLsbD_zero]
  · simp only [if_neg empty, BitVec.getLsbD_and, BitVec.getLsbD_ushiftRight, getLsbD_lowMask _ _ hi]
    by_cases inside : bfO b + i < 64
    · have : i < min (bfW b) (64 - bfO b) ↔ i < bfW b := by omega
      simp only [this, Bool.and_comm]
    · simp only [BitVec.getLsbD_of_ge a (bfO b + i) (by omega), Bool.false_and, Bool.and_false]

/-- `bins` puts the low bits of ga into the field, and keeps the old bits outside it. -/
theorem getLsbD_opBins (old a b : BitVec 64) (i : Nat) (hi : i < 64) :
    (opBins old a b).getLsbD i = if bfO b ≤ i ∧ i < bfO b + bfW b then a.getLsbD (i - bfO b) else old.getLsbD i := by
  unfold opBins
  by_cases empty : bfW b = 0 ∨ 64 ≤ bfO b
  · simp only [if_pos empty]
    rw [if_neg (by omega)]
  · have below : i - bfO b < 64 := by omega
    have in_mask : i - bfO b < min (bfW b) (64 - bfO b) ↔ i < bfO b + bfW b := by omega
    simp only [if_neg empty, BitVec.getLsbD_or, BitVec.getLsbD_and, BitVec.getLsbD_not, BitVec.getLsbD_shiftLeft, hi,
      getLsbD_lowMask _ _ below, in_mask]
    rcases Nat.lt_or_ge i (bfO b) with under | from_o
    · simp [under, Nat.not_le.mpr under]
    · by_cases inside : i < bfO b + bfW b
      · simp [inside, from_o, Nat.not_lt.mpr from_o]
      · simp [inside]

/-! ## Counts (R248) -/

theorem popCount_eq_countP (x n : Nat) : popCount x n = (List.range n).countP fun i => x.testBit i := by
  induction n with
  | zero => rfl
  | succ n ih => rw [popCount, List.range_succ, List.countP_append, List.countP_singleton, ih, Nat.add_comm]

theorem opPopc_eq (x : BitVec 64) : opPopc x = BitVec.ofNat 64 ((List.range 64).countP fun i => x.getLsbD i) := by
  rw [opPopc, popCount_eq_countP]; rfl

/-- n bits of x are 0 from its top bit on, and the next one, if there is one, is 1. -/
def LeadingZeros (x : BitVec 64) (n : Nat) : Prop := (∀ i, i < n → x.getLsbD (63 - i) = false) ∧ (n < 64 → x.getLsbD (63 - n) = true)

/-- n bits of x are 0 from bit 0 on, and the next one, if there is one, is 1. -/
def TrailingZeros (x : BitVec 64) (n : Nat) : Prop := (∀ i, i < n → x.getLsbD i = false) ∧ (n < 64 → x.getLsbD n = true)

theorem leadingZeros_zero : LeadingZeros 0 64 := ⟨fun _ _ => BitVec.getLsbD_zero, fun h => absurd h (lt_irrefl 64)⟩

/-- The highest 1 bit of a nonzero word is the one its logarithm names. -/
theorem leadingZeros_log2 {x : BitVec 64} (hx : x ≠ 0) : LeadingZeros x (63 - x.toNat.log2) := by
  have hne : x.toNat ≠ 0 := fun h => hx (BitVec.eq_of_toNat_eq h)
  have hlog : x.toNat.log2 < 64 := (Nat.log2_lt hne).mpr x.isLt
  refine ⟨fun i hi => Nat.testBit_lt_two_pow (Nat.lt_log2_self.trans_le (Nat.pow_le_pow_right (by decide) (by omega))), fun _ => ?_⟩
  rw [show 63 - (63 - x.toNat.log2) = x.toNat.log2 by omega]
  exact Nat.testBit_log2 hne

theorem opClz_spec (x : BitVec 64) : ∃ n ≤ 64, opClz x = BitVec.ofNat 64 n ∧ LeadingZeros x n := by
  by_cases hx : x = 0
  · exact ⟨64, le_rfl, if_pos hx, hx ▸ leadingZeros_zero⟩
  · exact ⟨63 - x.toNat.log2, by omega, if_neg hx, leadingZeros_log2 hx⟩

/-- Looking at the k highest bits, `lowZeros` counts the 0 bits from bit 64 − k up to the next 1 bit. -/
theorem lowZeros_spec (x : BitVec 64) : ∀ k ≤ 64, lowZeros x k ≤ k ∧ (∀ i < lowZeros x k, x.getLsbD (64 - k + i) = false) ∧
    (lowZeros x k < k → x.getLsbD (64 - k + lowZeros x k) = true)
  | 0, _ => by simp [lowZeros]
  | k + 1, hk => by
    have hbit : 64 - (k + 1) = 63 - k := by omega
    rw [lowZeros, hbit]
    by_cases h : x.getLsbD (63 - k) = true
    · rw [if_pos h]
      exact ⟨Nat.zero_le _, fun i hi => absurd hi (Nat.not_lt_zero i), fun _ => h⟩
    · obtain ⟨le, zeros, one⟩ := lowZeros_spec x k (by omega)
      have shifted (i : Nat) : 63 - k + (1 + i) = 64 - k + i := by omega
      rw [if_neg h, shifted]
      refine ⟨by omega, fun i hi => ?_, fun hlt => one (by omega)⟩
      cases i with
      | zero => exact Bool.eq_false_iff.mpr h
      | succ i => rw [Nat.add_comm i 1, shifted]; exact zeros i (by omega)

theorem opCtz_spec (x : BitVec 64) : ∃ n ≤ 64, opCtz x = BitVec.ofNat 64 n ∧ TrailingZeros x n := by
  obtain ⟨le, zeros, one⟩ := lowZeros_spec x 64 le_rfl
  simp only [Nat.sub_self, Nat.zero_add] at zeros one
  exact ⟨lowZeros x 64, le, rfl, zeros, one⟩

/-! ## The obligations -/

/-- Settles O1: each result is the model's operation in arithmetic. -/
theorem integerRegisterResults : Obligations.IntegerRegisterResults := by
  intro s b a d x y k word
  exact ⟨gives_done4 rfl, gives_done4 rfl, gives_done4 rfl, gives_done4 rfl, gives_done4 rfl, gives_done4 rfl,
    gives_done4_of_eq rfl (opShl_eq x y), gives_done4_of_eq rfl (opShr_eq x y), gives_done4_of_eq rfl (opSra_eq x y),
    gives_done4_of_eq rfl (opSlt_eq x y), gives_done4_of_eq rfl (opSltn_eq x y), gives_done4_of_eq rfl (opMin_eq x y),
    gives_done4_of_eq rfl (opMax_eq x y), gives_done4_of_eq rfl (opMinn_eq x y), gives_done4_of_eq rfl (opMaxn_eq x y),
    encodeWord_of_rFields (by decide) (by simp) rfl⟩

/-- Settles O2: the 32-bit forms are the 64-bit ones at the low halves, with the result sign-extended. -/
theorem multiplyDivideAndWordResults : Obligations.MultiplyDivideAndWordResults := by
  refine ⟨?_, ?_⟩
  · intro s b a d x y word
    exact ⟨gives_done4_of_eq rfl (mul_eq_ofInt x y), gives_done4_of_eq rfl (opMulh_eq x y), gives_done4_of_eq rfl (opMulhn_eq x y),
      gives_done4_of_eq rfl (opDiv_eq x y), gives_done4_of_eq rfl (opDivn_eq x y), gives_done4_of_eq rfl (opRem_eq x y),
      gives_done4_of_eq rfl (opRemn_eq x y), encodeWord_of_rFields (by decide) (by simp) rfl⟩
  · intro s b a d x y k w word
    exact ⟨gives_done4 rfl, gives_done4 rfl, gives_done4_of_eq rfl (inW_of_eq (wShl_eq x y)), gives_done4_of_eq rfl (inW_of_eq (wShr_eq x y)),
      gives_done4_of_eq rfl (inW_of_eq (wSra_eq x y)), gives_done4 rfl,
      gives_done4_of_eq rfl ((inW_of_eq (opDiv_eq x y)).trans (signExtend_ite_allOnes _ _)),
      gives_done4_of_eq rfl ((inW_of_eq (opDivn_eq x y)).trans (signExtend_ite_allOnes _ _)),
      gives_done4_of_eq rfl ((inW_of_eq (opRem_eq x y)).trans (apply_ite w _ _ _)),
      gives_done4_of_eq rfl ((inW_of_eq (opRemn_eq x y)).trans (apply_ite w _ _ _)),
      encodeWord_of_rFields (by decide) (by simp) rfl⟩

/-- Settles O4: `bext` and `bins` bit by bit, and each count by the bits it passes over. -/
theorem bitFieldAndCountResults : Obligations.BitFieldAndCountResults := by
  refine ⟨?_, ?_⟩
  · intro s b a d w o word
    have hw : bfW (gr s b) = w := bfW_eq _
    have ho : bfO (gr s b) = o := bfO_eq _
    refine ⟨⟨_, gives_done4 rfl, fun i hi => ?_⟩, ⟨_, gives_done4 rfl, fun i hi => ?_⟩, encodeWord_of_rFields (by decide) (by simp) rfl⟩
    · rw [getLsbD_opBext _ _ i hi, hw, ho]
    · rw [getLsbD_opBins _ _ _ i hi, hw, ho]
  · intro s a d x  -- a count's word is the R-format word whose b field is 0
    obtain ⟨m, hm, clz_eq, clz_bits⟩ := opClz_spec x
    obtain ⟨n, hn, ctz_eq, ctz_bits⟩ := opCtz_spec x
    exact ⟨gives_done4_of_eq rfl (opPopc_eq x), ⟨m, hm, gives_done4_of_eq rfl clz_eq, clz_bits⟩,
      ⟨n, hn, gives_done4_of_eq rfl ctz_eq, ctz_bits⟩, encodeWord_of_rFields (b := 0) (by decide) (by simp) rfl⟩

end Sys2Proof.Machine
end

section
/-!
PROOFS. The start of a wave (R428, R430), read through the accessors of cores and harts; the freezing form of a trap (R427), which saves as
every trap does and then starts a wave; and the obligation O19.
-/

namespace Sys2Proof.Machine

/-! ## The start of a wave (R428, R430) -/

/-- A core when the wave of a job is sent: a core of the job that Nightfall does not hold yet is to freeze. -/
def Core.waved (job : BitVec 32) (q : Core) : Core := if q.job = job ∧ job ≠ 0 then { q with wave := !q.night } else q

theorem harts_waved (job : BitVec 32) (q : Core) : (q.waved job).harts = q.harts := by unfold Core.waved; split <;> rfl

theorem wave_waved {job : BitVec 32} {q : Core} (member : q.job = job) (bound : job ≠ 0) : (q.waved job).wave = !q.night := by
  rw [Core.waved, if_pos ⟨member, bound⟩]

/-- A core at reset belongs to no job, so no wave is sent to it. -/
theorem waved_reset (job : BitVec 32) : Core.reset.waved job = Core.reset :=
  if_neg fun ⟨unbound, bound⟩ => bound (unbound ▸ rfl)

/-- An interrupt changes the boot controller only (R466). -/
theorem raiseInt_eq (v : Nat) (s : State) : raiseInt v s = { s with boot := (raiseInt v s).boot } := by
  unfold raiseInt sendMsix
  split
  · rfl
  · dsimp only; split <;> rfl

/-- A wave changes Nightfall's registers, the cores of the job, the flits sent and, by its interrupt, the boot controller: NIGHT is set. -/
theorem startWave_eq (key : BitVec 32) (cause : BitVec 8) (from' : Option Nat) (s : State) :
    ∃ night fabric boot, night.nfstat.getLsbD 63 = true ∧ startWave key cause from' s =
      { s with cores := s.cores.map fun e => (e.1, e.2.waved (nightJob s)), night := night, fabric := fabric, boot := boot } := by
  have night_set (a b c : BitVec 64) : (a ||| b ||| (1#64 <<< 63) ||| c).getLsbD 63 = true := by simp
  unfold startWave
  by_cases frozen : s.night.nfstat.getLsbD 63 = true
  · simp only [if_pos frozen]
    refine ⟨_, _, _, ?_, rfl⟩
    exact night_set _ _ _
  · simp only [if_neg frozen]
    rw [raiseInt_eq]
    refine ⟨_, _, _, ?_, rfl⟩
    exact night_set _ _ _

theorem coreAt_startWave (key : BitVec 32) (cause : BitVec 8) (from' : Option Nat) (s : State) (c : Nat) :
    coreAt (startWave key cause from' s) c = (coreAt s c).waved (nightJob s) := by
  obtain ⟨night, fabric, boot, -, eq⟩ := startWave_eq key cause from' s
  rw [eq]
  exact tabGet_map Core.reset (fun _ => Core.waved (nightJob s)) (fun _ => waved_reset _) c s.cores

theorem me_startWave (key : BitVec 32) (cause : BitVec 8) (from' : Option Nat) (s : State) : me (startWave key cause from' s) = me s := by
  obtain ⟨core, slot⟩ : (startWave key cause from' s).curCore = s.curCore ∧ (startWave key cause from' s).curSlot = s.curSlot := by
    obtain ⟨night, fabric, boot, -, eq⟩ := startWave_eq key cause from' s
    rw [eq]; exact ⟨rfl, rfl⟩
  rw [me, hartAt, coreAt_startWave, harts_waved, core, slot]; rfl

theorem startWave_night (key : BitVec 32) (cause : BitVec 8) (from' : Option Nat) (s : State) :
    (startWave key cause from' s).night.nfstat.getLsbD 63 = true := by
  obtain ⟨night, fabric, boot, set, eq⟩ := startWave_eq key cause from' s
  rw [eq]; exact set

theorem startWave_mem (key : BitVec 32) (cause : BitVec 8) (from' : Option Nat) (s : State) : (startWave key cause from' s).mem = s.mem := by
  obtain ⟨night, fabric, boot, -, eq⟩ := startWave_eq key cause from' s
  rw [eq]

/-! ## A freezing trap (R427) -/

/-- The hart that has saved a freezing trap: FROZEN, to be READY after it, with PEND set. -/
def Hart.frozenAt (h : Hart) : Hart := { h with st := .frozen, back := .ready, dstep := h.dstep ||| 2 }

/-- A trap that freezes is one in the job that Nightfall's registers name. -/
theorem job_of_freezing {s : State} {c : Nat} {cause : Cause} (h : freezing s c cause = true) :
    (coreAt s c).job = nightJob s ∧ nightJob s ≠ 0 := by
  simp only [freezing, Bool.and_eq_true, bne_iff_ne, beq_iff_eq] at h
  obtain ⟨⟨-, bound⟩, same⟩ := h
  exact ⟨same, fun unnamed => bound (same.trans unnamed)⟩

/-- What a core holds beside its harts stays when the issuing hart changes. -/
theorem coreAt_updMe_of_setHart {α : Type} (p : Core → α) (h : ∀ q k x, p (Core.setHart q k x) = p q) (s : State) (f : Hart → Hart) (c : Nat) :
    p (coreAt (updMe s f) c) = p (coreAt s c) := by
  show p (coreAt (updCore s s.curCore fun q => q.setHart s.curSlot (f (me s))) c) = _
  rw [coreAt_updCore]
  split
  next own => rw [h, own]
  next => rfl

section
variable {c : Cause} {s : State} (x : BitVec 64) (vec : Bool) (h : freezing s s.curCore c = true)
include h

theorem takeTrap_freezing_eq : takeTrap c x vec s = startWave (originKey s s.curCore s.curSlot.val) (causeCode c) none
    (updMe (updMe s fun q => q.record c x vec) Hart.frozenAt) := by
  unfold takeTrap; rw [h]; rfl

theorem me_takeTrap_freezing : me (takeTrap c x vec s) = ((me s).record c x vec).frozenAt := by
  rw [takeTrap_freezing_eq x vec h, me_startWave, me_updMe, me_updMe]

theorem takeTrap_freezing_night : (takeTrap c x vec s).night.nfstat.getLsbD 63 = true := by
  rw [takeTrap_freezing_eq x vec h, startWave_night]

theorem takeTrap_freezing_mem : (takeTrap c x vec s).mem = s.mem := by
  rw [takeTrap_freezing_eq x vec h, startWave_mem, updMe_mem, updMe_mem]

/-- R428: the wave is sent to every core of the job of the core that took the trap. -/
theorem wave_takeTrap_freezing {b : Nat} (member : (coreAt s b).job = (myCore s).job) :
    (coreAt (takeTrap c x vec s) b).wave = !(coreAt s b).night := by
  obtain ⟨named, bound⟩ := job_of_freezing h
  rw [takeTrap_freezing_eq x vec h, coreAt_startWave]
  refine (wave_waved ?_ bound).trans ?_
  · simp only [coreAt_updMe_of_setHart Core.job fun _ _ _ => rfl]
    exact member.trans named
  · simp only [coreAt_updMe_of_setHart Core.night fun _ _ _ => rfl]

end

/-- XSTAT after a trap without VEC: PP holds the privilege the trap came from, and so does PRIV until the hart vectors. -/
theorem xstat_record (h : Hart) (c : Cause) (x : BitVec 64) :
    (h.record c x false).xstat.getLsbD 0 = h.xstat.getLsbD 0 ∧ (h.record c x false).xstat.getLsbD 1 = h.xstat.getLsbD 0 := by
  have saved : ∀ priv : Bool, let xstat : BitVec 64 := (if false = true then 4 else 0) ||| (if priv then 3 else 0)
      xstat.getLsbD 0 = priv ∧ xstat.getLsbD 1 = priv := by decide
  exact saved h.sys

/-! ## The obligation -/

/-- Settles O19: both instructions only trap, and a freezing trap is the saving of a trap followed by the start of a wave. -/
theorem trapEntry : Obligations.TrapEntry := by
  refine ⟨fun s n c => ⟨takesTrap_of rfl, takesTrap_of rfl⟩, fun s n settled freezes => ?_⟩
  have hart : me (takeTrap .syscall (n.zeroExtend 64) false s) = _ := me_takeTrap_freezing _ _ freezes
  obtain ⟨priv, pp⟩ := xstat_record (me s) .syscall (n.zeroExtend 64)
  refine ⟨takeTrap .syscall (n.zeroExtend 64) false s, finish_trap _ _ _ settled, ?_⟩
  simp only [gr, byteAt, hart, takeTrap_freezing_mem _ _ freezes]
  exact ⟨rfl, rfl, by simp [Hart.frozenAt], rfl, rfl, rfl, priv, pp, fun _ => rfl, takeTrap_freezing_night _ _ freezes,
    fun _ member _ => wave_takeTrap_freezing _ _ freezes member, fun _ => trivial⟩

end Sys2Proof.Machine
end

section
/-!
PROOFS. The decoder (R216, R218) and the machine after cold reset (R4): the obligations O21, O22, O24 and O25.
-/

open Sys2Proof.Machine

namespace Sys2Proof.Laws

set_option Elab.async false

/-! ## Decoding -/

/-- The majors without an instruction (R218). -/
def unassignedMajors : List Nat := [0x08, 0x09, 0x0A, 0x0B, 0x0C, 0x0D, 0x0E, 0x0F, 0x1B, 0x2F, 0x33, 0x34, 0x35, 0x36, 0x37, 0x3B, 0x3F]

theorem decodeWord32_unassigned {f : Fields} (h : f 1 6 ∈ unassignedMajors) : decodeWord32 f = none := by
  unfold decodeWord32
  generalize f 1 6 = m at h
  simp only [unassignedMajors, List.mem_cons, List.not_mem_nil, or_false] at h
  rcases h with rfl | rfl | rfl | rfl | rfl | rfl | rfl | rfl | rfl | rfl | rfl | rfl | rfl | rfl | rfl | rfl | rfl <;> rfl

/-- A word whose length bit is 1 decodes as the instruction of its fields, or is rejected. -/
theorem decode_error_of_word32 {w : BitVec 32} (long : w.getLsbD 0 = true) (h : decodeWord32 (fieldsOf w.toNat) = none) :
    ∃ e, decode (leBytes 4 w.toNat) = .error e := by
  have odd : w.toNat % 2 = 1 := by simpa [BitVec.getLsbD, Nat.testBit_zero] using long
  refine ⟨.unassigned32, ?_⟩
  simp only [leBytes, decode, low_halfword_odd _ odd, word_of_bytes _ w.isLt, decode32, h]
  rfl

theorem fieldsOf_major (w : BitVec 32) : fieldsOf w.toNat 1 6 = (w.extractLsb' 1 6).toNat := by
  simp [fieldsOf, field, BitVec.extractLsb'_toNat, Nat.shiftRight_eq_div_pow]

/-- Settles O24, constructor by constructor. -/
theorem decodeEncode : Obligations.DecodeEncode :=
  Instr.rec (motive := RoundTrip.Statement)
    RoundTrip.coldReset RoundTrip.warmReset RoundTrip.boot RoundTrip.bootTimeout RoundTrip.bootctlOk RoundTrip.attest RoundTrip.mbxReset
    RoundTrip.nightreg RoundTrip.update RoundTrip.commit RoundTrip.layerctlReq RoundTrip.layerPowerOff RoundTrip.layerPowerOn
    RoundTrip.tempReading RoundTrip.tripClear RoundTrip.patrolScrub RoundTrip.cecntRead RoundTrip.cebytesRead RoundTrip.cereqsRead
    RoundTrip.clelemsRead RoundTrip.czinRead RoundTrip.czoutRead RoundTrip.registerWrite RoundTrip.privilegedViewWrite RoundTrip.mstatWrite
    RoundTrip.writeQueueDrain RoundTrip.switchHop RoundTrip.replyEntryExpiry RoundTrip.replyHop RoundTrip.sliceRequest RoundTrip.bankAccess
    RoundTrip.timedRetry RoundTrip.acknowledgement RoundTrip.probe RoundTrip.echo RoundTrip.route RoundTrip.transientRead
    RoundTrip.transientWrite RoundTrip.eviction RoundTrip.transientFailure RoundTrip.persistentRequest RoundTrip.deactivation
    RoundTrip.countdownExpiry RoundTrip.rangeSearch RoundTrip.headerReread RoundTrip.editRetry RoundTrip.lockRetry RoundTrip.dropRequest
    RoundTrip.engineDrop RoundTrip.dropAcknowledgement RoundTrip.drop RoundTrip.move RoundTrip.ddrop RoundTrip.idrop RoundTrip.walkerPiece
    RoundTrip.requestBegins RoundTrip.batch RoundTrip.requestComplete RoundTrip.contribution RoundTrip.initialise RoundTrip.credit
    RoundTrip.arrive RoundTrip.errorArrive RoundTrip.query RoundTrip.wireCompletion RoundTrip.barwTimeout RoundTrip.parkTimeout
    RoundTrip.decisionCycle RoundTrip.contextSwitch RoundTrip.qtail RoundTrip.load RoundTrip.stageFeed RoundTrip.takeRecord
    RoundTrip.balancer RoundTrip.takeMessage RoundTrip.messageArrival RoundTrip.messageRetry RoundTrip.spawnRequest RoundTrip.spawnAnswer
    RoundTrip.ctxjobWrite RoundTrip.jobChange RoundTrip.save RoundTrip.restore RoundTrip.nfctlNfall RoundTrip.nfctlJob RoundTrip.originFlit
    RoundTrip.wave RoundTrip.nfctlDb RoundTrip.daybreakStep RoundTrip.haltreq RoundTrip.resumereq RoundTrip.accessRegister
    RoundTrip.accessMemory RoundTrip.instrumentUnload RoundTrip.train RoundTrip.capabilityFlit RoundTrip.allowanceGrant
    RoundTrip.joblctWrite RoundTrip.lctbaseWrite RoundTrip.cxlMemAccess RoundTrip.mergeWindowClose RoundTrip.operandBufferFull
    RoundTrip.add16 RoundTrip.sub16 RoundTrip.and16 RoundTrip.or16 RoundTrip.xor16 RoundTrip.shl16 RoundTrip.shr16 RoundTrip.sra16
    RoundTrip.mv16 RoundTrip.addi16 RoundTrip.li16 RoundTrip.ldD16 RoundTrip.stD16 RoundTrip.ldW16 RoundTrip.stW16 RoundTrip.beqz16
    RoundTrip.bnez16 RoundTrip.j16 RoundTrip.ret16 RoundTrip.add RoundTrip.sub RoundTrip.and RoundTrip.or RoundTrip.xor RoundTrip.shl
    RoundTrip.shr RoundTrip.sra RoundTrip.slt RoundTrip.sltn RoundTrip.min RoundTrip.max RoundTrip.minn RoundTrip.maxn RoundTrip.andn
    RoundTrip.mul RoundTrip.mulh RoundTrip.mulhn RoundTrip.div RoundTrip.divn RoundTrip.rem RoundTrip.remn RoundTrip.addW RoundTrip.subW
    RoundTrip.shlW RoundTrip.shrW RoundTrip.sraW RoundTrip.mulW RoundTrip.divW RoundTrip.divnW RoundTrip.remW RoundTrip.remnW RoundTrip.addi
    RoundTrip.slti RoundTrip.sltni RoundTrip.andi RoundTrip.ori RoundTrip.xori RoundTrip.shli RoundTrip.shri RoundTrip.srai RoundTrip.bext
    RoundTrip.bins RoundTrip.popc RoundTrip.clz RoundTrip.ctz RoundTrip.ldhi RoundTrip.pcadd RoundTrip.ldB RoundTrip.ldH RoundTrip.ldW
    RoundTrip.ldD RoundTrip.ldBn RoundTrip.ldHn RoundTrip.ldWn RoundTrip.ldBNc RoundTrip.ldHNc RoundTrip.ldWNc RoundTrip.ldDNc
    RoundTrip.ldBnNc RoundTrip.ldHnNc RoundTrip.ldWnNc RoundTrip.ldBC RoundTrip.ldHC RoundTrip.ldWC RoundTrip.ldDC RoundTrip.ldBnC
    RoundTrip.ldHnC RoundTrip.ldWnC RoundTrip.stB RoundTrip.stH RoundTrip.stW RoundTrip.stD RoundTrip.stBNc RoundTrip.stHNc RoundTrip.stWNc
    RoundTrip.stDNc RoundTrip.amadd RoundTrip.amswap RoundTrip.amcas RoundTrip.amand RoundTrip.amor RoundTrip.amxor RoundTrip.ammin
    RoundTrip.ammax RoundTrip.amminn RoundTrip.ammaxn RoundTrip.amfadd RoundTrip.amfmin RoundTrip.amfmax RoundTrip.redAdd RoundTrip.redMin
    RoundTrip.redMax RoundTrip.redMinn RoundTrip.redMaxn RoundTrip.redFadd RoundTrip.redFmin RoundTrip.redFmax RoundTrip.ldfD RoundTrip.steD
    RoundTrip.mbput RoundTrip.mbget RoundTrip.beq RoundTrip.bne RoundTrip.blt RoundTrip.bge RoundTrip.bltn RoundTrip.bgen RoundTrip.jal
    RoundTrip.jalr RoundTrip.fence RoundTrip.acq RoundTrip.rel RoundTrip.phase RoundTrip.vfence RoundTrip.barw RoundTrip.park
    RoundTrip.waitt RoundTrip.mfs RoundTrip.mts RoundTrip.trap RoundTrip.xret RoundTrip.savev RoundTrip.rstv RoundTrip.migrate
    RoundTrip.fwdclr RoundTrip.spawn RoundTrip.suspend RoundTrip.emit RoundTrip.endI RoundTrip.hend RoundTrip.larm RoundTrip.send
    RoundTrip.vaddVv RoundTrip.vaddVx RoundTrip.vsubVv RoundTrip.vsubVx RoundTrip.vrsubVx RoundTrip.vmulVv RoundTrip.vmulVx
    RoundTrip.vmulhVv RoundTrip.vmulhVx RoundTrip.vdivVv RoundTrip.vdivVx RoundTrip.vremVv RoundTrip.vremVx RoundTrip.vminVv
    RoundTrip.vminVx RoundTrip.vmaxVv RoundTrip.vmaxVx RoundTrip.vsaddVv RoundTrip.vsaddVx RoundTrip.vssubVv RoundTrip.vssubVx
    RoundTrip.vidV RoundTrip.vpopcV RoundTrip.vviewV RoundTrip.vandVv RoundTrip.vandVx RoundTrip.vorVv RoundTrip.vorVx RoundTrip.vxorVv
    RoundTrip.vxorVx RoundTrip.vandnVv RoundTrip.vnotV RoundTrip.vshlVv RoundTrip.vshlVx RoundTrip.vshrVv RoundTrip.vshrVx RoundTrip.vsraVv
    RoundTrip.vsraVx RoundTrip.vmseqVv RoundTrip.vmseqVx RoundTrip.vmsneVv RoundTrip.vmsneVx RoundTrip.vmsltVv RoundTrip.vmsltVx
    RoundTrip.vmsleVv RoundTrip.vmsleVx RoundTrip.vmsgtVx RoundTrip.vmsgeVx RoundTrip.vmandMm RoundTrip.vmorMm RoundTrip.vmxorMm
    RoundTrip.vmandnMm RoundTrip.vmergeVv RoundTrip.vmergeVx RoundTrip.vmvVv RoundTrip.vmvVx RoundTrip.vmvXs RoundTrip.vfaddVv
    RoundTrip.vfaddVx RoundTrip.vfsubVv RoundTrip.vfsubVx RoundTrip.vfrsubVx RoundTrip.vfmulVv RoundTrip.vfmulVx RoundTrip.vfdivVv
    RoundTrip.vfdivVx RoundTrip.vfrdivVx RoundTrip.vfsqrtV RoundTrip.vfminVv RoundTrip.vfminVx RoundTrip.vfmaxVv RoundTrip.vfmaxVx
    RoundTrip.vfsgnVv RoundTrip.vfsgnnVv RoundTrip.vfsgnxVv RoundTrip.vfclassV RoundTrip.vmfeqVv RoundTrip.vmfeqVx RoundTrip.vmfneVv
    RoundTrip.vmfneVx RoundTrip.vmfltVv RoundTrip.vmfltVx RoundTrip.vmfleVv RoundTrip.vmfleVx RoundTrip.vmfgtVx RoundTrip.vmfgeVx
    RoundTrip.vwcvtV RoundTrip.vncvtV RoundTrip.vnclipV RoundTrip.vfwcvtV RoundTrip.vfncvtV RoundTrip.vftoiV RoundTrip.vftoinV
    RoundTrip.vitofV RoundTrip.vintofV RoundTrip.vfcvtF4 RoundTrip.vrngV RoundTrip.vseedVx RoundTrip.vsetl RoundTrip.vsetli
    RoundTrip.vredsumXs RoundTrip.vredminXs RoundTrip.vredmaxXs RoundTrip.vredandXs RoundTrip.vredorXs RoundTrip.vredxorXs
    RoundTrip.vfredsumXs RoundTrip.vfredminXs RoundTrip.vfredmaxXs RoundTrip.vredminiXs RoundTrip.vredmaxiXs RoundTrip.vtree
    RoundTrip.vftree RoundTrip.vtreeseg RoundTrip.vftreeseg RoundTrip.vsegsumV RoundTrip.vsegminV RoundTrip.vsegmaxV RoundTrip.vfsegsumV
    RoundTrip.vfsegminV RoundTrip.vfsegmaxV RoundTrip.vslideupVx RoundTrip.vslidedownVx RoundTrip.vslide1upVx RoundTrip.vslide1downVx
    RoundTrip.vgatherVv RoundTrip.vcompressVv RoundTrip.vexpandVv RoundTrip.vbcastVx RoundTrip.vmrotVx RoundTrip.vld RoundTrip.vst
    RoundTrip.vlds RoundTrip.vsts RoundTrip.vldx RoundTrip.vstx RoundTrip.vldsp RoundTrip.vstsp RoundTrip.mmode RoundTrip.mzero
    RoundTrip.mtree RoundTrip.mrd RoundTrip.mwr RoundTrip.mopa RoundTrip.mopaSc RoundTrip.gadd RoundTrip.gelim RoundTrip.gdamp
    RoundTrip.copy RoundTrip.copy2d RoundTrip.copygath RoundTrip.copyscat RoundTrip.copyt RoundTrip.creduce RoundTrip.cbcast RoundTrip.binit
    RoundTrip.barrive RoundTrip.bwait RoundTrip.bquery RoundTrip.fadd RoundTrip.fsub RoundTrip.fmul RoundTrip.fdiv RoundTrip.fsqrt
    RoundTrip.fmin RoundTrip.fmax RoundTrip.ftoi RoundTrip.ftoin RoundTrip.itof RoundTrip.intof RoundTrip.fnar RoundTrip.fwid RoundTrip.feq
    RoundTrip.flt RoundTrip.fle RoundTrip.fclass RoundTrip.fsgn RoundTrip.fsgnn RoundTrip.fsgnx RoundTrip.fmadd RoundTrip.fmsub
    RoundTrip.fnmadd RoundTrip.oxli RoundTrip.oxhi RoundTrip.oxmv RoundTrip.oxrd RoundTrip.rsplit RoundTrip.rmerge RoundTrip.rinv
    RoundTrip.rprobe RoundTrip.waycfg RoundTrip.cwflush RoundTrip.cwinv RoundTrip.brk RoundTrip.nfall RoundTrip.illegalOp RoundTrip.pass
    RoundTrip.accumulationEnd RoundTrip.daybreakAcknowledgement RoundTrip.beatRetransmission

/-- Settles O25: no major of the first list has a decoder, and the sample words are decoded. -/
theorem wordsDecode : Obligations.WordsDecode := by
  refine ⟨fun w long unassigned => decode_error_of_word32 long (decodeWord32_unassigned ?_), by decide +kernel⟩
  rw [fieldsOf_major]
  exact List.mem_map_of_mem (f := BitVec.toNat) unassigned

/-! ## After cold reset -/

theorem vec_get_replicate {α : Type} {n : Nat} (x : α) (k : Fin n) : (Vector.replicate n x).get k = x := by
  show (Vector.replicate n x)[k.val] = x
  simp

@[simp] theorem coreAt_reset (c : Nat) : coreAt State.reset c = Core.reset := rfl
@[simp] theorem hartAt_reset (c : Nat) (k : Fin 8) : hartAt State.reset c k = Hart.reset := vec_get_replicate _ _
@[simp] theorem colAt_reset (k : Fin 8) : colAt State.reset k = Column.reset := vec_get_replicate _ _

/-- At reset the registers of every slot read alike, but for WAYSTAT (0xC3) and HARTID (0xE0), which depend on the core. -/
theorem sysGet_reset {n : Nat} (not_waystat : n ≠ 0xC3) (not_hartid : n ≠ 0xE0) (c : Nat) (k : Fin 8) :
    sysGet State.reset c k n = sysGet State.reset 0 0 n := by
  have harts : ∀ k, Core.reset.harts.get k = Hart.reset := vec_get_replicate _
  simp only [sysGet, coreAt_reset, harts, if_neg not_waystat, if_neg not_hartid]
  rfl

/-- Settles O21: every slot reads as slot 0 of core 0 does, whose registers are listed. -/
theorem resetState : Obligations.ResetState := by
  intro c k col
  refine ⟨by rw [hartAt_reset]; rfl, fun p hp => ?_, fun n hn => ?_, fun n hn => ?_, by rw [colAt_reset]; rfl, by rw [colAt_reset]; rfl,
    by rw [colAt_reset]; rfl, fun _ _ => rfl⟩
  · have named : p.1 ≠ 0xC3 ∧ p.1 ≠ 0xE0 ∧ sysGet State.reset 0 0 p.1 = some p.2 := by revert p; decide +kernel
    obtain ⟨not_waystat, not_hartid, value⟩ := named
    rw [sysGet_reset not_waystat not_hartid, value]
  · rw [sysGet_reset (n := 0x20 + n) (by omega) (by omega), sysGet_reset (n := 0x40 + n) (by omega) (by omega)]
    revert n; decide +kernel
  · rw [sysGet_reset (by omega) (by omega)]
    revert n; decide +kernel

/-- Settles O22: no byte is listed. -/
theorem resetMemoryCanonical : Obligations.ResetMemoryCanonical := rfl

end Sys2Proof.Laws
end

section
/-!
PROOFS. Immediates, 16-bit forms, operand extension, branches and jumps (R228, R245, R246, R249, R250, R271): their operands and targets in
arithmetic, and the obligations O3, O5 and O6.
-/

namespace Sys2Proof.Machine

set_option Elab.async false

/-! ## Retiring without a result, and with one in another spelling -/

theorem setG_g0 (s : State) (v : BitVec 64) : (me s).setG 0 v = me s := rfl

/-- Retiring at p: the PC, and that nothing else changes. -/
theorem results_of_retireAt {i : Instr} {s : State} {v : BitVec 64} {p : BitVec 48} (h : exec i s = .next (retireAt p s)) : Results i s 0 v p := by
  refine ⟨_, h, goesOn_retireAt p s, ⟨?_, fun r _ => ?_⟩, ?_, restKept_retireAt p s⟩
  · simp [gr]
  · simp only [gr, me_retireAt, gr_retired]
  · simp only [me_retireAt, kept_retired]

theorem results_of_retireAt_eq {i : Instr} {s : State} {v : BitVec 64} {p q : BitVec 48} (h : exec i s = .next (retireAt p s)) (e : p = q) :
    Results i s 0 v q := results_of_retireAt (e ▸ h)

theorem results_of_next_eq {i : Instr} {s : State} {d : BitVec 5} {v w : BitVec 64} {p q : BitVec 48}
    (h : exec i s = .next (retireAt p (setG s d v))) (hv : v = w) (hp : p = q) : Results i s d w q := results_of_next (hv ▸ hp ▸ h)

/-- `gives_done2` with the result and the register in another spelling. -/
theorem gives_done2_of_eq {i : Instr} {s : State} {d e : BitVec 5} {v w : BitVec 64} (h : exec i s = .next (done2 d v s)) (hd : d = e) (hv : v = w) :
    Gives i s 2 e w := gives_done2 (hd ▸ hv ▸ h)

/-! ## Immediates and targets (R227, R246, R249) -/

theorem toInt_imm12 (n : BitVec 12) : (imm12 n).toInt = n.toInt := BitVec.toInt_signExtend_of_le (by decide)

theorem ofInt_two_pow (w k : Nat) : BitVec.ofInt w (2 ^ k) = BitVec.twoPow w k := by
  rw [show ((2 : Int) ^ k) = ((2 ^ k : Nat) : Int) by norm_cast, BitVec.ofInt_natCast]
  exact BitVec.eq_of_toNat_eq (by rw [BitVec.toNat_ofNat, BitVec.toNat_twoPow])

/-- A signed number shifted left is a product. -/
theorem shiftLeft_eq_ofInt {w : Nat} (x : BitVec w) (k : Nat) : x <<< k = BitVec.ofInt w (x.toInt * 2 ^ k) := by
  rw [BitVec.shiftLeft_eq_mul_twoPow, BitVec.ofInt_mul, BitVec.ofInt_toInt, ofInt_two_pow]

theorem imm20_eq (u : BitVec 20) : imm20 u = BitVec.ofInt 64 (u.toInt * 4096) := by
  rw [imm20, shiftLeft_eq_ofInt, BitVec.toInt_signExtend_of_le (by decide)]; rfl

theorem setWidth_ofInt (z : Int) : (BitVec.ofInt 64 z).setWidth 48 = BitVec.ofInt 48 z :=
  BitVec.eq_of_toNat_eq (by rw [BitVec.toNat_setWidth, BitVec.toNat_ofInt, BitVec.toNat_ofInt]; omega)

/-- The distance of a branch with an offset of n bits: twice the offset. -/
theorem distance_eq {n : Nat} (o : BitVec n) (h : n ≤ 64) : ((o.signExtend 64) <<< 1).setWidth 48 = BitVec.ofInt 48 (2 * o.toInt) := by
  rw [shiftLeft_eq_ofInt, setWidth_ofInt, BitVec.toInt_signExtend_of_le h]
  congr 1; ring

theorem r8_eq (k : BitVec 3) : r8 k = BitVec.ofNat 5 (8 + k.toNat) := by revert k; decide

theorem pc64_add_ofInt (s : State) (z : Int) : pc64 s + BitVec.ofInt 64 z = BitVec.ofInt 64 ((me s).pc.toNat + z) := by
  have pc : pc64 s = BitVec.ofInt 64 ((me s).pc.toNat) := by
    rw [BitVec.ofInt_natCast]; exact BitVec.eq_of_toNat_eq (by simp [pc64])
  rw [BitVec.ofInt_add, pc]

/-- The address after an instruction of 4 bytes, as it is linked. -/
theorem pc64_add_four (s : State) : pc64 s + 4 = BitVec.ofNat 64 ((me s).pc.toNat + 4) := by
  rw [pc64]; rfl

/-! ## Operand extension (R271) -/

/-- Twenty more bits appended below a word. -/
theorem shiftLeft_or_eq_ofNat (x : BitVec 64) (u : BitVec 20) :
    (x <<< 20) ||| u.zeroExtend 64 = BitVec.ofNat 64 (x.toNat * 2 ^ 20 + u.toNat) := by
  have low : x.toNat <<< 20 % 2 ^ 64 = (x.toNat % 2 ^ 44) <<< 20 := by simp only [Nat.shiftLeft_eq]; omega
  have hu : u.toNat % 2 ^ 64 = u.toNat := by omega
  apply BitVec.eq_of_toNat_eq
  rw [BitVec.toNat_or, BitVec.toNat_shiftLeft, BitVec.toNat_setWidth, BitVec.toNat_ofNat, low, hu, ← Nat.shiftLeft_add_eq_or_of_lt u.isLt,
    Nat.shiftLeft_eq]
  omega

/-- Writing oxn and retiring: what `oxli`, `oxhi` and `oxmv` do. -/
theorem setsOx {i : Instr} {s : State} {n : BitVec 3} {v : BitVec 64} (h : exec i s = .next (retire 4 (setOx s n v))) :
    ∃ t, exec i s = .next t ∧ GoesOn s t ((me s).pc + 4) ∧ oxr t n = v ∧ (∀ m, m ≠ n → oxr t m = oxr s m) ∧ (∀ r, gr t r = gr s r) ∧
      { (me t).kept with ox := (me s).ox } = (me s).kept ∧ RestKept s t := by
  have pc : (me (setOx s n v)).pc = (me s).pc := by rw [setOx, me_updMe]
  rw [retire, pc] at h
  refine ⟨_, h, goesOn_retireAt_updMe _ s _ rfl, ?_, fun m hm => ?_, fun r => ?_, ?_, restKept_retireAt_updMe _ s _⟩
  · simp only [oxr, Hart.oxr, me_retireAt, ox_retired, setOx, me_updMe]
    exact vec_get_set_self _ _ _
  · simp only [oxr, Hart.oxr, me_retireAt, ox_retired, setOx, me_updMe]
    exact vec_get_set_ne _ _ _ _ fun e => hm (BitVec.toFin_inj.mp e)
  · simp only [gr, me_retireAt, gr_retired, setOx, me_updMe]; rfl
  · simp only [me_retireAt, kept_retired, setOx, me_updMe]; rfl

/-! ## Branches and jumps (R249, R250) -/

/-- A branch goes on at its target or at the next instruction, and changes nothing else. -/
theorem results_of_branchIf {i : Instr} {s : State} {b : Bool} {P : Prop} [Decidable P] {off : BitVec 64} {len z : BitVec 48}
    (h : exec i s = .next (branchIf b off len s)) (cond : b = true ↔ P) (distance : (off <<< 1).setWidth 48 = z) :
    Results i s 0 0 (if P then (me s).pc + z else (me s).pc + len) := by
  refine results_of_retireAt (h.trans (congrArg Host.Outcome.next ?_))
  unfold branchIf branchTo retire
  by_cases hb : b = true
  · rw [if_pos hb, if_pos (cond.mp hb), distance]
  · rw [if_neg hb, if_neg fun hP => hb (cond.mpr hP)]

/-- The words of branches of one major and one choice of operands, listed with their function values (R220). -/
theorem encodeWord_of_bFields {maj : Nat} {o : BitVec 12} {b a : BitVec 5} {l : List (Instr × Nat)} (hm : maj < 64) (hf : ∀ p ∈ l, p.2 < 8)
    (h : l.map (fun p => encodeFields p.1) =
      l.map fun p => [(1, 1), (6, maj), (5, a.toNat), (5, b.toNat), (12, o.toNat), (3, p.2)]) :
    ∀ p ∈ l, encodeWord p.1 = 1 + 2 * maj + 2 ^ 7 * a.toNat + 2 ^ 12 * b.toNat + 2 ^ 17 * o.toNat + 2 ^ 29 * p.2 := by
  intro p hp
  have := hf p hp
  rw [encodeWord, List.map_inj_left.mp h p hp]
  simp only [pack]
  omega

theorem fieldsOf_fn3 (w : BitVec 32) : fieldsOf w.toNat 29 3 = (w.extractLsb' 29 3).toNat := by
  simp [fieldsOf, field, BitVec.extractLsb'_toNat, Nat.shiftRight_eq_div_pow]

theorem decodeWord32_branch {f : Fields} (major : f 1 6 = 0x18) (fn : 6 ≤ f 29 3) : decodeWord32 f = none := by
  have unassigned : decodeW18 f = none := by
    unfold decodeW18
    rw [if_neg (by omega), if_neg (by omega), if_neg (by omega), if_neg (by omega), if_neg (by omega), if_neg (by omega)]
  unfold decodeWord32
  rw [major]
  exact unassigned

theorem decodeWord32_jalr {f : Fields} (major : f 1 6 = 0x1A) (fn : f 29 3 ≠ 0) : decodeWord32 f = none := by
  have unassigned : decodeW1A f = none := if_neg fn
  unfold decodeWord32
  rw [major]
  exact unassigned

/-- A jump to an even address. -/
theorem results_of_jumpTo {i : Instr} {s : State} {t link : BitVec 64} {d : BitVec 5} (h : exec i s = finish (jumpTo t d link s))
    (even : t.getLsbD 0 = false) : Results i s d link (BitVec.ofNat 48 t.toNat) :=
  results_of_next (h.trans (by rw [jumpTo, even]; rfl))

theorem takesTrap_of_jumpTo {i : Instr} {s : State} {t link : BitVec 64} {d : BitVec 5} (h : exec i s = finish (jumpTo t d link s))
    (odd : t.getLsbD 0 = true) : TakesTrap i s .misalign t :=
  takesTrap_of (h.trans (by rw [jumpTo, if_pos odd]))

/-! ## The obligations -/

/-- Settles O3: the register forms at the extended immediate. -/
theorem immediateResults : Obligations.ImmediateResults := by
  intro s n u h a d x y
  exact ⟨gives_done4 rfl, gives_done4_of_eq rfl (by rw [opSlt_eq, toInt_imm12]), gives_done4_of_eq rfl (opSltn_eq x y),
    gives_done4 rfl, gives_done4 rfl, gives_done4 rfl, gives_done4_of_eq rfl (shiftLeft_eq_ofNat x _),
    gives_done4_of_eq rfl (ushiftRight_eq_ofNat x _), gives_done4_of_eq rfl (sshiftRight_eq_ofInt x _), gives_done4_of_eq rfl (imm20_eq u),
    gives_done4_of_eq rfl (by rw [imm20_eq, pc64_add_ofInt])⟩

/-- Settles O5: the 16-bit forms are the 32-bit ones at g8 to g15. -/
theorem compactAndExtensionResults : Obligations.CompactAndExtensionResults := by
  refine ⟨?_, ?_⟩
  · intro s a d n
    rw [← r8_eq, ← r8_eq]
    intro gd x y k
    have zero_add (v : BitVec 64) : gr s 0 + v = v := BitVec.zero_add v
    exact ⟨gives_done2 rfl, gives_done2 rfl, gives_done2 rfl, gives_done2 rfl, gives_done2 rfl, gives_done2_of_eq rfl rfl (opShl_eq x y),
      gives_done2_of_eq rfl rfl (opShr_eq x y), gives_done2_of_eq rfl rfl (opSra_eq x y), gives_done2_of_eq rfl rfl (BitVec.add_zero y),
      gives_done2 rfl, gives_done2_of_eq rfl rfl (zero_add _)⟩
  · intro s u a d n sets
    refine ⟨setsOx rfl, ?_, setsOx rfl, gives_done4 rfl⟩
    show sets (.oxhi u n) _
    rw [← shiftLeft_or_eq_ofNat]
    exact setsOx rfl

/-- Settles O6: a branch or jump retires at its target, or traps. -/
theorem branchAndJumpTargets : Obligations.BranchAndJumpTargets := by
  refine ⟨?_, ?_⟩
  · intro s o b a o7 c x y z pc goes there there7
    have distance := distance_eq o (by decide)
    have distance7 := distance_eq o7 (by decide)
    have register : gr s (r8 c) = z := by rw [r8_eq]
    refine ⟨results_of_branchIf rfl beq_iff_eq distance, results_of_branchIf rfl bne_iff_ne distance,
      results_of_branchIf rfl BitVec.slt_iff_toInt_lt distance, results_of_branchIf rfl ?_ distance,
      results_of_branchIf rfl BitVec.ult_iff_lt distance, results_of_branchIf rfl ?_ distance,
      results_of_branchIf rfl ?_ distance7, results_of_branchIf rfl ?_ distance7, encodeWord_of_bFields (by decide) (by simp) rfl, ?_⟩
    · rw [Bool.not_eq_true', ← Bool.not_eq_true, BitVec.slt_iff_toInt_lt, not_lt]
    · rw [Bool.not_eq_true', ← Bool.not_eq_true, BitVec.ult_iff_lt, BitVec.lt_def, not_lt]
    · rw [register]; exact beq_iff_eq
    · rw [register]; exact bne_iff_ne
    · intro w long major fn
      refine Laws.decode_error_of_word32 long (decodeWord32_branch ?_ ?_)
      · rw [Laws.fieldsOf_major, major]; rfl
      · rw [fieldsOf_fn3]; exact fn
  · intro s o n o10 a d pc link t
    refine ⟨results_of_next_eq rfl (pc64_add_four s) ?_, results_of_retireAt_eq rfl ?_, fun even => ?_, results_of_jumpTo rfl,
      takesTrap_of_jumpTo rfl, takesTrap_of_jumpTo rfl, ?_, ?_, ?_⟩
    · rw [distance_eq o (by decide), setG, me_updMe, setG_pc]
    · rw [distance_eq o10 (by decide)]
    · rw [show link = pc64 s + 4 from (pc64_add_four s).symm]
      exact results_of_jumpTo rfl even
    · show pack [(1, 1), (6, 0x19), (5, d.toNat), (20, o.toNat)] = _
      simp only [pack]; omega
    · show pack [(1, 1), (6, 0x1A), (5, d.toNat), (5, a.toNat), (12, n.toNat), (3, 0)] = _
      simp only [pack]; omega
    · intro w long major fn
      refine Laws.decode_error_of_word32 long (decodeWord32_jalr ?_ ?_)
      · rw [Laws.fieldsOf_major, major]; rfl
      · rw [fieldsOf_fn3]; exact fun h => fn (BitVec.eq_of_toNat_eq h)

end Sys2Proof.Machine
end

section
/-!
PROOFS. Scalar floating point (R261 to R264): what an instruction of majors 0x38 to 0x3A does, its operations as conditions on the values, and a representable
value under rounding (R163), and the obligations O7 to O9.
-/

namespace Sys2Proof.Machine

set_option Elab.async false

/-! ## What a scalar floating-point instruction does (R261) -/

/-- Two changes of the issuing hart are one. -/
theorem updMe_updMe (s : State) (f g : Hart → Hart) : updMe (updMe s f) g = updMe s fun h => g (f h) := by
  have own : updMe (updMe s f) g = updCore (updCore s s.curCore fun q => q.setHart s.curSlot (f (me s))) s.curCore fun q =>
    q.setHart s.curSlot (g (me (updMe s f))) := rfl
  rw [own, updCore_updCore, me_updMe]
  simp only [setHart_setHart]
  rfl

/-- The hart with flags accumulated in FSTAT (R168). -/
def Hart.orFstat (f : Flags) (h : Hart) : Hart := { h with fstat := h.fstat ||| ((f.setWidth 5).zeroExtend 64) }

theorem low5_eq (f : Flags) : (f.setWidth 5).zeroExtend 64 = f.zeroExtend 64 &&& 31 := by revert f; decide

/-- Below the reserved modes the result is written, the flags accumulate, and nothing else changes. -/
theorem fpGives_of_fpInstr {i : Instr} {s : State} {maj op : Nat} {z : BitVec 1} {b a d : BitVec 5} {f : Nat → Nat × Flags}
    (h : exec i s = finish (fpInstr maj op z b a d f s)) (mode : fstatRm s < 6) {r : Nat × Flags} (value : f (scalarRm s) = r) :
    FpGives i s d r := by
  have run : exec i s = .next (retireAt ((me s).pc + 4) (updMe s fun q => (q.orFstat r.2).setG d (BitVec.ofNat 64 r.1))) := by
    have twice := updMe_updMe s (Hart.orFstat r.2) fun q => q.setG d (BitVec.ofNat 64 r.1)
    have pc : (me (setG (orFstat r.2 s) d (BitVec.ofNat 64 r.1))).pc = (me s).pc := by simp [setG, orFstat]
    rw [h, fpInstr, if_neg (by omega), ← twice, ← pc, ← value]
    rfl
  refine ⟨_, run, goesOn_retireAt_updMe _ _ _ (setG_st _ _ _), ⟨?_, fun q hq => ?_⟩, ?_, ?_, restKept_retireAt_updMe _ _ _⟩
  · simp only [gr, me_retireAt, gr_retired, me_updMe, gr_setG, if_true]
  · simp only [gr, me_retireAt, gr_retired, me_updMe, gr_setG, if_neg hq]; rfl
  · simp only [me_retireAt, fstat_retired, me_updMe, setG_fstat, Hart.orFstat, low5_eq]
  · simp only [me_retireAt, kept_retired, me_updMe, kept_setG]; rfl

/-- The fields of a scalar floating-point instruction (R220, R261). -/
def fpFields (maj op : Nat) (z : BitVec 1) (b a d : BitVec 5) : List (Nat × Nat) :=
  [(1, 1), (6, maj), (5, d.toNat), (5, a.toNat), (5, b.toNat), (1, z.toNat), (9, op)]

/-- In the reserved modes it traps ILLEGAL_OP with its word. -/
theorem takesTrap_of_fpInstr {i : Instr} {s : State} {maj op : Nat} {z : BitVec 1} {b a d : BitVec 5} {f : Nat → Nat × Flags}
    (h : exec i s = finish (fpInstr maj op z b a d f s)) (fields : encodeFields i = fpFields maj op z b a d) (hm : maj < 64) (ho : op < 512)
    (mode : 6 ≤ fstatRm s) : TakesTrap i s .illegalOp (BitVec.ofNat 64 (encodeWord i)) := by
  have word : rWord maj (2 * op + z.toNat) b a d = BitVec.ofNat 64 (encodeWord i) := by
    rw [encodeWord, fields, rWord]
    congr 1
    simp only [fpFields, pack]
    omega
  refine takesTrap_of (h.trans ?_)
  rw [fpInstr, if_pos mode, word]

/-! ## Operands and operations -/

theorem fpIn_eq (z : BitVec 1) (x : BitVec 64) : fpIn z x = if z = 1 then x.toNat else x.toNat % 2 ^ 32 := by
  rfl

/-- An operand fits the format of its size bit. -/
theorem fpIn_lt (z : BitVec 1) (x : BitVec 64) : fpIn z x < 2 ^ (fpFmt z).width := by
  rw [fpIn_eq]
  unfold fpFmt
  split
  · exact x.isLt
  · exact Nat.mod_lt _ (by decide)

theorem isSig_isNan {v : FVal} (h : v.isSig = true) : v.isNan = true := by cases v <;> simp_all [FVal.isSig, FVal.isNan]

/-- Equal is neither below the other; any NaN gives false, a signalling one NV (R263). -/
theorem asBit_eq (f : Fmt) (x y : Nat) : asBit (f.eq x y) =
    (if ¬((f.value x).isNan = true ∨ (f.value y).isNan = true) ∧ ¬ltVal false (f.value x) (f.value y) = true ∧
        ¬ltVal false (f.value y) (f.value x) = true then 1 else 0,
      if (f.value x).isSig = true ∨ (f.value y).isSig = true then fNV else 0) := by
  have quiet {v : FVal} (h : v.isNan = false) : v.isSig = false := by
    cases hs : v.isSig
    · rfl
    · exact absurd (isSig_isNan hs) (by simp [h])
  unfold Fmt.eq asBit nanFlags flagIf
  rcases nan : (f.value x).isNan || (f.value y).isNan with _ | _
  · simp only [Bool.or_eq_false_iff] at nan
    simp [nan, quiet nan.1, quiet nan.2]
  · simp only [Bool.or_eq_true] at nan
    simp [nan]

theorem asBit_lt (f : Fmt) (x y : Nat) : asBit (f.lt x y) =
    (if ¬((f.value x).isNan = true ∨ (f.value y).isNan = true) ∧ ltVal false (f.value x) (f.value y) = true then 1 else 0,
      if (f.value x).isNan = true ∨ (f.value y).isNan = true then fNV else 0) := by
  unfold Fmt.lt asBit
  rcases nan : (f.value x).isNan || (f.value y).isNan with _ | _
  · simp only [Bool.or_eq_false_iff] at nan
    simp [nan]
  · simp only [Bool.or_eq_true] at nan
    simp [nan]

theorem asBit_le (f : Fmt) (x y : Nat) : asBit (f.le x y) =
    (if ¬((f.value x).isNan = true ∨ (f.value y).isNan = true) ∧ ¬ltVal false (f.value y) (f.value x) = true then 1 else 0,
      if (f.value x).isNan = true ∨ (f.value y).isNan = true then fNV else 0) := by
  unfold Fmt.le asBit
  rcases nan : (f.value x).isNan || (f.value y).isNan with _ | _
  · simp only [Bool.or_eq_false_iff] at nan
    simp [nan]
  · simp only [Bool.or_eq_true] at nan
    simp [nan]

/-- The sign of an encoding is its highest bit. -/
theorem sign_eq (f : Fmt) {y : Nat} (hy : y < 2 ^ f.width) : y / 2 ^ (f.width - 1) < 2 ∧ f.sign y = (y / 2 ^ (f.width - 1) == 1) := by
  have width : f.width = f.eb + f.mb + 1 := by unfold Fmt.width; omega
  have high : y / 2 ^ (f.eb + f.mb) < 2 := Nat.div_lt_of_lt_mul (by rw [← Nat.pow_succ, Nat.succ_eq_add_one, ← width]; exact hy)
  rw [show f.width - 1 = f.eb + f.mb by omega]
  exact ⟨high, by rw [Fmt.sign, Nat.mod_eq_of_lt high]⟩

/-- A magnitude with the sign that the number k has in its lowest bit. -/
theorem withSign_eq (f : Fmt) (x k : Nat) {neg : Bool} (hk : k < 2) (h : neg = (k == 1)) :
    f.withSign x neg = x % 2 ^ (f.width - 1) + 2 ^ (f.width - 1) * k := by
  rw [show f.width - 1 = f.eb + f.mb by unfold Fmt.width; omega, h]
  have : k = 0 ∨ k = 1 := by omega
  rcases this with rfl | rfl <;> simp [Fmt.withSign, Fmt.signBit]

theorem withSign_sign (f : Fmt) (x : Nat) {y : Nat} (hy : y < 2 ^ f.width) :
    f.withSign x (f.sign y) = x % 2 ^ (f.width - 1) + 2 ^ (f.width - 1) * (y / 2 ^ (f.width - 1)) :=
  withSign_eq f x _ (sign_eq f hy).1 (sign_eq f hy).2

theorem withSign_not_sign (f : Fmt) (x : Nat) {y : Nat} (hy : y < 2 ^ f.width) :
    f.withSign x (!f.sign y) = x % 2 ^ (f.width - 1) + 2 ^ (f.width - 1) * (1 - y / 2 ^ (f.width - 1)) := by
  obtain ⟨high, sign⟩ := sign_eq f hy
  refine withSign_eq f x _ (Nat.sub_lt_succ _ _) ?_
  rw [sign]
  generalize y / 2 ^ (f.width - 1) = k at high
  revert k; decide

theorem withSign_xor_sign (f : Fmt) {x y : Nat} (hx : x < 2 ^ f.width) (hy : y < 2 ^ f.width) :
    f.withSign x (f.sign x != f.sign y) =
      x % 2 ^ (f.width - 1) + 2 ^ (f.width - 1) * ((x / 2 ^ (f.width - 1) + y / 2 ^ (f.width - 1)) % 2) := by
  obtain ⟨highx, signx⟩ := sign_eq f hx
  obtain ⟨highy, signy⟩ := sign_eq f hy
  refine withSign_eq f x _ (Nat.mod_lt _ (by decide)) ?_
  rw [signx, signy]
  generalize x / 2 ^ (f.width - 1) = j at highx
  generalize y / 2 ^ (f.width - 1) = k at highy
  revert j k; decide

/-! ## Rounding a representable value (R151, R163) -/

/-- A finite value of an encoding without sign k, exponent field E and fraction field M. -/
structure Fmt.Represents (f : Fmt) (E M m : Nat) (e : Int) : Prop where
  fraction : M < 2 ^ f.mb
  finite : E * 2 ^ f.mb + M ≤ f.maxEnc
  value : E = 0 ∧ m = M ∧ e = f.qmin ∨ 0 < E ∧ m = 2 ^ f.mb + M ∧ e = f.qmin + E - 1

/-- An encoding is its sign, exponent field and fraction field. -/
theorem encoding_eq {f : Fmt} {x : Nat} (hx : x < 2 ^ f.width) :
    x = f.signBit (x / 2 ^ (f.eb + f.mb) % 2 == 1) + (x / 2 ^ f.mb % 2 ^ f.eb * 2 ^ f.mb + x % 2 ^ f.mb) := by
  have width : f.width = f.eb + f.mb + 1 := by unfold Fmt.width; omega
  have high : x / 2 ^ (f.eb + f.mb) < 2 := Nat.div_lt_of_lt_mul (by rw [← Nat.pow_succ, Nat.succ_eq_add_one, ← width]; exact hx)
  have sign : f.signBit (x / 2 ^ (f.eb + f.mb) % 2 == 1) = x / 2 ^ (f.eb + f.mb) * 2 ^ (f.eb + f.mb) := by
    generalize x / 2 ^ (f.eb + f.mb) = k at high
    have : k = 0 ∨ k = 1 := by omega
    rcases this with rfl | rfl <;> simp [Fmt.signBit]
  have parts : x / 2 ^ f.mb = x / 2 ^ (f.eb + f.mb) * 2 ^ f.eb + x / 2 ^ f.mb % 2 ^ f.eb := by
    rw [Nat.add_comm f.eb, Nat.pow_add, ← Nat.div_div_eq_div_mul]
    exact (Nat.div_add_mod' _ _).symm
  calc x = x / 2 ^ f.mb * 2 ^ f.mb + x % 2 ^ f.mb := (Nat.div_add_mod' _ _).symm
    _ = (x / 2 ^ (f.eb + f.mb) * 2 ^ f.eb + x / 2 ^ f.mb % 2 ^ f.eb) * 2 ^ f.mb + x % 2 ^ f.mb := by rw [← parts]
    _ = _ := by rw [sign, Nat.pow_add]; ring

/-- The fields of an encoding whose value is finite. -/
theorem represents_of_value {f : Fmt} {x : Nat} {n : Bool} {m : Nat} {e : Int} (hx : x < 2 ^ f.width) (h : f.value x = .fin n m e) :
    ∃ E M, f.Represents E M m e ∧ x = f.signBit n + (E * 2 ^ f.mb + M) := by
  have encoding := encoding_eq hx
  have hE : x / 2 ^ f.mb % 2 ^ f.eb < 2 ^ f.eb := Nat.mod_lt _ (Nat.two_pow_pos _)
  have hM : x % 2 ^ f.mb < 2 ^ f.mb := Nat.mod_lt _ (Nat.two_pow_pos _)
  unfold Fmt.value at h
  generalize x / 2 ^ f.mb % 2 ^ f.eb = E at *
  generalize x % 2 ^ f.mb = M at *
  generalize (x / 2 ^ (f.eb + f.mb) % 2 == 1) = neg at *
  -- the rows of exponent fields below E take up E rows of fractions
  have rows {k : Nat} (hk : E ≤ k) : E * 2 ^ f.mb ≤ k * 2 ^ f.mb := Nat.mul_le_mul_right _ hk
  have number (h : (if E = 0 then FVal.fin neg M f.qmin else .fin neg (2 ^ f.mb + M) (f.qmin + E - 1)) = .fin n m e)
      (finite : E * 2 ^ f.mb + M ≤ f.maxEnc) : ∃ E M, f.Represents E M m e ∧ x = f.signBit n + (E * 2 ^ f.mb + M) := by
    refine ⟨E, M, ⟨hM, finite, ?_⟩, ?_⟩ <;> split at h <;> simp only [FVal.fin.injEq] at h
    · exact .inl ⟨by assumption, h.2.1.symm, h.2.2.symm⟩
    · exact .inr ⟨by omega, h.2.1.symm, h.2.2.symm⟩
    · rw [← h.1]; exact encoding
    · rw [← h.1]; exact encoding
  cases kind : f.kind <;> simp only [kind] at h
  case ieee =>
    split at h
    · split at h <;> simp at h
    · refine number h ?_
      have := rows (k := 2 ^ f.eb - 2) (by omega)
      simp only [Fmt.maxEnc, kind]; omega
  case nanOnly =>
    split at h
    · simp at h
    · refine number h ?_
      simp only [Fmt.maxEnc, kind]
      by_cases top : E = 2 ^ f.eb - 1
      · subst top; omega
      · have := rows (k := 2 ^ f.eb - 2) (by omega)
        have : (2 ^ f.eb - 1) * 2 ^ f.mb = (2 ^ f.eb - 2) * 2 ^ f.mb + 2 ^ f.mb := by
          rw [← Nat.succ_mul]; congr 1; omega
        omega
  case finite =>
    refine number h ?_
    have := rows (k := 2 ^ f.eb - 1) (by omega)
    have : 2 ^ (f.eb + f.mb) = (2 ^ f.eb - 1) * 2 ^ f.mb + 2 ^ f.mb := by
      rw [← Nat.succ_mul, Nat.succ_eq_add_one, Nat.sub_add_cancel Nat.one_le_two_pow, Nat.pow_add]
    simp only [Fmt.maxEnc, kind]; omega

/-- Where the unit lies at or below that of the value nothing is lost. -/
theorem roundAt_fine {rm : Nat} {neg : Bool} {m : Nat} {e q : Int} {r : Nat} (h : q ≤ e) :
    roundAt rm neg m e q false r = (m * 2 ^ (e - q).toNat, false) := if_pos h

theorem round_represents {f : Fmt} {E M m : Nat} {e : Int} (h : f.Represents E M m e) (rm r : Nat) (n : Bool) :
    f.round rm r n m e false = (f.signBit n + (E * 2 ^ f.mb + M), 0) := by
  obtain ⟨fraction, finite, value⟩ := h
  have pos := Nat.two_pow_pos f.mb
  have double : 2 ^ (f.mb + 1) = 2 * 2 ^ f.mb := Nat.pow_succ' ..
  unfold Fmt.round
  by_cases zero : m = 0
  · have : E = 0 ∧ M = 0 := by
      rcases value with ⟨he, hm, -⟩ | ⟨-, hm, -⟩ <;> omega
    simp [zero, this]
  · have unit : (if e + Nat.log2 m - f.mb < f.qmin then f.qmin else e + Nat.log2 m - f.mb) = e := by
      rcases value with ⟨-, rfl, rfl⟩ | ⟨he, rfl, rfl⟩
      · have : m.log2 < f.mb := (Nat.log2_lt zero).mpr fraction
        rw [if_pos (by omega)]
      · have : (2 ^ f.mb + M).log2 = f.mb := (Nat.log2_eq_iff zero).mpr ⟨by omega, by omega⟩
        rw [this]
        split <;> omega
    have encoding : (if m < 2 ^ f.mb then m else (e - f.qmin + 1).toNat * 2 ^ f.mb + (m - 2 ^ f.mb)) = E * 2 ^ f.mb + M := by
      rcases value with ⟨rfl, rfl, rfl⟩ | ⟨he, rfl, rfl⟩
      · rw [if_pos fraction, Nat.zero_mul, Nat.zero_add]
      · rw [if_neg (by omega), show (f.qmin + E - 1 - f.qmin + 1).toNat = E by omega, Nat.add_sub_cancel_left]
    have carry : m ≠ 2 ^ (f.mb + 1) := by
      rcases value with ⟨-, rfl, -⟩ | ⟨-, rfl, -⟩ <;> omega
    simp only [zero, if_false, unit, roundAt_fine (le_refl e), Int.sub_self, Int.toNat_zero, Nat.pow_zero, Nat.mul_one, carry, encoding,
      if_neg (Nat.not_lt.mpr finite), Bool.and_false]
    rfl

/-! ## The obligations -/

/-- Settles O7: each instruction is `fpInstr` with its operation, and in a reserved mode with its word. -/
theorem floatArithmeticResults : Obligations.FloatArithmeticResults := by
  refine ⟨?_, ?_⟩
  · intro s z b a d mode f cut rm x y w fma
    exact ⟨fpGives_of_fpInstr rfl mode rfl, fpGives_of_fpInstr rfl mode rfl, fpGives_of_fpInstr rfl mode rfl, fpGives_of_fpInstr rfl mode rfl,
      fpGives_of_fpInstr rfl mode rfl, fpGives_of_fpInstr rfl mode rfl, fpGives_of_fpInstr rfl mode rfl, fpGives_of_fpInstr rfl mode rfl,
      fpGives_of_fpInstr rfl mode rfl, fpGives_of_fpInstr rfl mode rfl⟩
  · intro s z b a d mode i hi
    have instr : ∃ maj op z' b' f, exec i s = finish (fpInstr maj op z' b' a d f s) ∧ encodeFields i = fpFields maj op z' b' a d ∧
        maj < 64 ∧ op < 512 := by
      simp only [List.mem_cons, List.not_mem_nil, or_false] at hi
      rcases hi with rfl | rfl | rfl | rfl | rfl | rfl | rfl | rfl | rfl | rfl | rfl | rfl | rfl | rfl | rfl | rfl | rfl | rfl | rfl | rfl |
        rfl | rfl | rfl <;> exact ⟨_, _, _, _, _, rfl, rfl, by decide, by decide⟩
    obtain ⟨maj, op, z', b', f, run, fields, hm, ho⟩ := instr
    exact takesTrap_of_fpInstr run fields hm ho mode

/-- Settles O8: each operation is that of `fpInstr`, compares and sign operations as conditions on the values. -/
theorem floatConversionResults : Obligations.FloatConversionResults := by
  intro s z b a d mode f cut rm x y int truth nan sig below half
  have hx : x < 2 ^ f.width := fpIn_lt z (gr s a)
  have hy : y < 2 ^ f.width := fpIn_lt z (gr s b)
  have exact_sign {m n : Nat} (h : m = n) : ((m, 0) : Nat × Flags) = (n, 0) := congrArg (·, 0) h
  exact ⟨fpGives_of_fpInstr rfl mode rfl, fpGives_of_fpInstr rfl mode rfl, fpGives_of_fpInstr rfl mode rfl, fpGives_of_fpInstr rfl mode rfl,
    fpGives_of_fpInstr rfl mode rfl, fpGives_of_fpInstr rfl mode rfl, fpGives_of_fpInstr rfl mode (asBit_eq f x y),
    fpGives_of_fpInstr rfl mode (asBit_lt f x y), fpGives_of_fpInstr rfl mode (asBit_le f x y), fpGives_of_fpInstr rfl mode rfl,
    fpGives_of_fpInstr rfl mode (exact_sign (withSign_sign f x hy)), fpGives_of_fpInstr rfl mode (exact_sign (withSign_not_sign f x hy)),
    fpGives_of_fpInstr rfl mode (exact_sign (withSign_xor_sign f hx hy))⟩

/-- Settles O9. -/
theorem roundingKeepsRepresentable : Obligations.RoundingKeepsRepresentable := by
  intro f _ x rm r n m e hx h
  obtain ⟨E, M, fields, rfl⟩ := represents_of_value hx h
  exact round_represents fields rm r n

end Sys2Proof.Machine
end

section
/-!
PROOFS. Scalar loads (R115, R196, R251 to R253): which path an access that reaches its target takes, and the obligations O10 and O11.
-/

namespace Sys2Proof.Machine

set_option Elab.async false

/-! ## The forms of scalar accesses (R251, R255, R258) -/

theorem exec_load {s : State} {i : Instr} {f : LoadForm} (h : loadForm s i = some f) :
    exec i s = finish (loadInstr f.via f.n f.signed f.d f.va f.len s) := by
  cases i with
  | ldD16 o b d => cases h; rw [← r8_eq, ← r8_eq]; rfl
  | ldW16 o b d => cases h; rw [← r8_eq, ← r8_eq]; rfl
  | _ => cases h <;> rfl

theorem exec_store {s : State} {i : Instr} {f : StoreForm} (h : storeForm s i = some f) :
    exec i s = finish (storeInstr (if f.nc then .nc else .ord) f.n f.x f.va f.len s) := by
  cases i with
  | stD16 o b d => cases h; rw [← r8_eq, ← r8_eq]; rfl
  | stW16 o b d => cases h; rw [← r8_eq, ← r8_eq]; rfl
  | _ => cases h <;> rfl

theorem exec_atomic {s : State} {i : Instr} {f : OwnerForm} (h : atomicForm s i = some f) :
    exec i s = finish (amInstr f.op f.n f.x f.va f.d s) := by
  cases i <;> cases h <;> rfl

theorem exec_reduction {s : State} {i : Instr} {f : OwnerForm} (h : reductionForm s i = some f) :
    exec i s = finish (redInstr f.op f.n f.x f.va s) := by
  cases i <;> cases h <;> rfl


/-! ## Retiring with a result after an access -/

/-- The issuing hart and its instruction count are the same in both states. -/
structure SameHart (s w : State) : Prop where
  core : w.curCore = s.curCore
  slot : w.curSlot = s.curSlot
  hart : me w = me s
  count : (myCore w).instret = (myCore s).instret

theorem sameHart_translated (s : State) (r : BitVec 5) (va : BitVec 64) : SameHart s (translated s r va) :=
  ⟨translated_curCore s r va, translated_curSlot s r va, me_translated s r va, myCore_translated Core.instret (fun _ => rfl) s r va⟩

theorem Touched.sameHart {s w : State} (h : Touched s w) : SameHart s w := by
  have core : w.curCore = s.curCore := (congrArg State.curCore h.machine :)
  have slot : w.curSlot = s.curSlot := (congrArg State.curSlot h.machine :)
  refine ⟨core, slot, ?_, ?_⟩
  · rw [me, me, core, slot]; exact (congrArg (fun q : Core => q.harts.get s.curSlot) (h.cores s.curCore) :)
  · rw [myCore, myCore, core]; exact (congrArg Core.instret (h.cores s.curCore) :)

theorem SameHart.trans {s t u : State} (h : SameHart s t) (k : SameHart t u) : SameHart s u :=
  ⟨k.core.trans h.core, k.slot.trans h.slot, k.hart.trans h.hart, k.count.trans h.count⟩

theorem SameHart.goesOn {s w t : State} (h : SameHart s w) {p : BitVec 48} (k : GoesOn w t p) : GoesOn s t p :=
  ⟨k.pc, h.hart ▸ k.ready, h.count ▸ k.count⟩

/-- A load that has its value in w: gd takes it, the hart goes on, and the rest is as w has it. -/
theorem retire_setG {s w : State} (h : SameHart s w) (len : BitVec 48) (d : BitVec 5) (x : BitVec 64) :
    let t := retire len (setG w d x)
    GoesOn s t ((me s).pc + len) ∧ Wrote s t d x ∧ (me t).kept = (me s).kept ∧ RestKept w t := by
  have pc : (me (setG w d x)).pc = (me s).pc := by rw [setG, me_updMe, setG_pc, h.hart]
  intro t
  have ht : t = retireAt ((me s).pc + len) (setG w d x) := by rw [← pc]; rfl
  rw [ht]
  refine ⟨h.goesOn (goesOn_retireAt_updMe _ w _ (setG_st _ _ _)), ⟨?_, fun r hr => ?_⟩, ?_, restKept_retireAt_updMe _ w _⟩
  · simp only [gr, me_retireAt, gr_retired, setG, me_updMe, gr_setG, if_true]
  · simp only [gr, me_retireAt, gr_retired, setG, me_updMe, gr_setG, if_neg hr, h.hart]
  · simp only [me_retireAt, kept_retired, setG, me_updMe, kept_setG, h.hart]

/-- An access that retires without a result. -/
theorem retire_plain {s w : State} (h : SameHart s w) (len : BitVec 48) :
    let t := retire len w
    GoesOn s t ((me s).pc + len) ∧ (∀ r, gr t r = gr s r) ∧ (me t).kept = (me s).kept ∧ RestKept w t := by
  intro t
  have ht : t = retireAt ((me s).pc + len) w := by rw [← h.hart]; rfl
  rw [ht]
  refine ⟨h.goesOn (goesOn_retireAt _ w), fun r => ?_, ?_, restKept_retireAt _ w⟩
  · simp only [gr, me_retireAt, gr_retired, h.hart]
  · simp only [me_retireAt, kept_retired, h.hart]

/-! ## What a load finds in the write queue (R196) -/

theorem meets_byte {a n b m i : Nat} (hi : i < m) (h : meets a n (b + i) 1 = true) : meets a n b m = true := by
  simp only [meets, Bool.and_eq_true, decide_eq_true_eq] at h ⊢; omega

/-- The part of an entry of the queue in what byte a reads as. -/
def wqEntry (a : Nat) (r : Option (Option Nat)) (e : WEntry) : Option (Option Nat) :=
  if meets e.gpa e.n a 1 then
    (match e.kind with
     | .red _ => some none
     | .store => some (some (e.data.toNat / 2 ^ (8 * (a - e.gpa)) % 256))
     | .vec m d =>
       let b := lineGet m (a - e.gpa) 1
       if b = 0 then r else if b = 255 then some (some (lineGet d (a - e.gpa) 1)) else some none)
  else r

theorem wqByte_eq (q : List WEntry) (a : Nat) : wqByte q a = q.foldl (wqEntry a) none := rfl

theorem foldl_wqEntry_of_not_meets {a : Nat} {r : Option (Option Nat)} : ∀ {q : List WEntry}, (∀ e ∈ q, meets e.gpa e.n a 1 = false) →
    q.foldl (wqEntry a) r = r
  | [], _ => rfl
  | e :: q, h => by
    rw [List.foldl_cons, wqEntry, h e List.mem_cons_self, if_neg (by simp)]
    exact foldl_wqEntry_of_not_meets fun x hx => h x (List.mem_cons_of_mem e hx)

/-- No entry of the queue touches the span: the load finds nothing there. -/
theorem forward_none {q : List WEntry} {a n : Nat} (h : (q.any fun e => meets e.gpa e.n a n) = false) : forward q a n = .none := by
  refine if_pos (List.all_eq_true.mpr fun i hi => ?_)
  rw [wqByte_eq, foldl_wqEntry_of_not_meets]
  · rfl
  · intro e he
    have := List.any_eq_false.mp h e he
    by_contra hb
    exact this (meets_byte (List.mem_range.mp hi) (Bool.not_eq_false _ ▸ hb))

/-! ## A bank that answers (R120) -/

/-- What `bankAnswers` says of the address and the hart. -/
structure BankReady (s : State) (g n c w o : Nat) : Prop where
  target : targetOf s g = .bank c w o
  check : bankCheck s c w = none
  taken : bankTaken s s.curCore c w = false
  beats : (me s).beats < 9
  held : bankHeld s s.curCore g = false
  bad : lineBad s g = false
  degraded : degradedAt s g = false
  flight : inFlight s s.curCore g n = false
  queue : ((myCore s).wq.any fun e => meets e.gpa e.n g n) = false

theorem bankReady_of_answers {s : State} {g n : Nat} (h : bankAnswers s g n = true) : ∃ c w o, BankReady s g n c w o := by
  unfold bankAnswers at h
  simp only [Bool.and_eq_true, Bool.not_eq_true', decide_eq_true_eq] at h
  obtain ⟨⟨⟨⟨⟨⟨target, beats⟩, held⟩, bad⟩, degraded⟩, flight⟩, queue⟩ := h
  split at target
  · next c w o ht =>
    simp only [Bool.and_eq_true, Bool.not_eq_true', Option.isNone_iff_eq_none] at target
    exact ⟨c, w, o, ht, target.1, target.2, beats, held, bad, degraded, flight, queue⟩
  · exact absurd target (by decide)

/-- A load of a bank that answers. -/
theorem loadAt_bank {s : State} {g n c w o cls : Nat} {m : Completer} {va : BitVec 64} (h : BankReady s (performedAt s g) n c w o) :
    loadAt m g cls n va s = .ok (memRead s.mem (performedAt s g) n) (takeBank s.curCore c w s) := by
  have home : loadHome m false (performedAt s g) cls n va (takeBank s.curCore c w s) =
      .ok (memRead s.mem (performedAt s g) n) (takeBank s.curCore c w s) := by
    have target : targetOf (takeBank s.curCore c w s) (performedAt s g) = .bank c w o := h.target
    have flight : inFlight (takeBank s.curCore c w s) (takeBank s.curCore c w s).curCore (performedAt s g) n = false := h.flight
    have barred : homeBarred (takeBank s.curCore c w s) false (performedAt s g) = false := by rw [homeBarred, target]
    have degraded : degradedAt (takeBank s.curCore c w s) (performedAt s g) = false := h.degraded
    have bad : lineBad (takeBank s.curCore c w s) (performedAt s g) = false := by
      have unloaded : (coreAt (takeBank s.curCore c w s) c).unloaded = (coreAt s c).unloaded := by simp [takeBank]
      have bad := h.bad
      rw [lineBad, h.target] at bad
      rw [lineBad, target]
      simp only [unloaded]
      exact bad
    simp only [loadHome, flight, barred, ownedValue, target, ownerRead, degraded, bad]
    rfl
  unfold loadAt
  rw [show redirect s (myCore s).job g = performedAt s g from rfl]
  simp only [h.degraded, forward_none h.queue, usesL0, h.target, Bool.and_false, Bool.false_and, if_false, Bool.false_eq_true, unlessLost, h.check,
    h.held, h.taken, Bool.or_self, home, if_neg (Nat.not_le.mpr h.beats)]

/-! ## Loads past their checks (R252, R254) -/

/-- A load leaves as a combinable request (R59, R252). -/
def goesCombined (s : State) (m : Completer) (g n : Nat) : Bool :=
  m = .c && s.split && (targetOf s g matches .dram _ _) && combinable (me s) (destOf s s.curCore g) && !inFlight s s.curCore g n &&
    (forward (myCore s).wq g n matches .none)

/-- How a load that does not leave so travels: a `.c` load that fails the test of R59 as a `.nc` one (R252). -/
def travelsAs (s : State) (m : Completer) (g : Nat) : Completer :=
  if m = .c && !combinable (me s) (destOf s s.curCore g) then .cn else m

/-- The value of a scalar load, extended (R251). -/
def extended (sx : Bool) (n v : Nat) : BitVec 64 := if sx then BitVec.signExtend 64 (BitVec.ofNat (8 * n) v) else BitVec.ofNat 64 v

/-- An access of that GPA and class collects tokens: a cached-coherent line of the own column (R65). -/
def ownCoherent (s : State) (g cls : Nat) : Bool :=
  (match targetOf s g with | .dram col _ => decide (col = colOf s.curCore) | _ => false) && cls == 0

/-- The packet of a combinable load. -/
def combinedPkt (s : State) (n : Nat) (sx : Bool) (d : BitVec 5) (g : Nat) (va : BitVec 64) (coh : Bool) : Pkt :=
  { newPkt s (.loadC n sx d) g va (startLoc s s.curCore g) with wants := true, comb := true, coh := coh }

/-- A packet leaves and the issuing hart, changed by f, waits for its reply. -/
def sentAndWaits (s : State) (p : Pkt) (f : Hart → Hart) : State :=
  updMe (sendPkt s p) fun h => { f h with wait := .reply p.id, since := s.clock }

/-- What a request that leaves changes: the network and the issuing hart. -/
structure SentBy (s t : State) (p : Pkt) (f : Hart → Hart) : Prop where
  net : t.net = s.net ++ [p]
  hart : me t = { f (me s) with wait := .reply p.id, since := s.clock }
  core : (myCore t).kept = (myCore s).kept
  others : OthersKept s t
  memory : ∀ b, byteAt t b = byteAt s b
  machine : { t.kept with net := [], nextId := 0 } = { s.kept with net := [], nextId := 0 }

theorem sentBy_sentAndWaits (s : State) (p : Pkt) (f : Hart → Hart) : SentBy s (sentAndWaits s p f) p f := by
  have rest : RestKept (sendPkt s p) (sentAndWaits s p f) := restKept_updMe _ _
  refine ⟨rfl, me_updMe _ _, rest.core, ⟨rest.others.slots, rest.others.cores⟩, rest.memory, rfl⟩

theorem ext_eq_extended (f : LoadForm) (v : Nat) : extended f.signed f.n v = f.ext v := rfl

theorem loadRefused_translated (s : State) (r : BitVec 5) (va : BitVec 64) (g n : Nat) :
    loadRefused (translated s r va) g n = loadRefused s g n := by
  unfold loadRefused regionOf; rw [targetOf_translated]

section
variable {s : State} {m : Completer} {n g cls : Nat} {sx : Bool} {d : BitVec 5} {va : BitVec 64} {len : BitVec 48}

/-- A load that stays with its hart and finds its value. -/
theorem loadInstr_stays {v : Nat} {w : State} (h : reaches s needRd n true false va = some (g, cls)) (taken : loadRefused s g n = false)
    (stays : goesCombined (translated s needRd va) m g n = false)
    (found : loadAt (travelsAs (translated s needRd va) m g) g cls n va (translated s needRd va) = .ok v w) :
    loadInstr m n sx d va len s = .ok () (retire len (setG w d (extended sx n v))) := by
  obtain ⟨access, watched, -⟩ := reaches_spec h
  unfold loadInstr
  rw [access]
  simp only [Res.andThen, need, loadRefused_translated, taken, Bool.not_false, if_true, watched]
  refine (if_neg (Bool.eq_false_iff.mp stays)).trans ?_
  show (loadAt (travelsAs _ m g) g cls n va _).andThen _ = _
  rw [found]
  rfl

/-- A load that leaves as a combinable request. -/
theorem loadInstr_combined (h : reaches s needRd n true false va = some (g, cls)) (taken : loadRefused s g n = false)
    (leaves : goesCombined (translated s needRd va) m g n = true) :
    loadInstr m n sx d va len s =
      let u := translated s needRd va
      .hold (sentAndWaits u (combinedPkt u n sx d g va (ownCoherent u g cls)) id) := by
  obtain ⟨access, watched, -⟩ := reaches_spec h
  unfold loadInstr
  rw [access]
  simp only [Res.andThen, need, loadRefused_translated, taken, Bool.not_false, if_true, watched]
  exact if_pos leaves

end

theorem goesCombined_of_target {s : State} {m : Completer} {g n : Nat} (h : ∀ col off, targetOf s g ≠ .dram col off) :
    goesCombined s m g n = false := by
  unfold goesCombined
  split
  · next col off ht => exact absurd ht (h col off)
  · simp

/-- The target of an access that is performed at a bank is a bank. -/
theorem target_of_performedAt_bank {s : State} {g c w o : Nat} (h : targetOf s (performedAt s g) = .bank c w o) :
    ∃ c' w' o', targetOf s g = .bank c' w' o' := by
  unfold performedAt redirect at h
  split at h
  · next c' w' o' ht => exact ⟨c', w', o', ht⟩
  · exact ⟨c, w, o, h⟩

/-! ## Loads of a scratchpad bank (O10) -/

theorem loadRefused_of_bank {s : State} {g n c w o : Nat} (h : targetOf s g = .bank c w o) : loadRefused s g n = false := by
  simp [loadRefused, regionOf, h]

/-- What a load that went on in w has changed, for the parts of the core that w keeps. -/
theorem accessed_of_kept {q r : Core} (h : q.kept = r.kept) : q.accessed = r.accessed := by unfold Core.accessed; rw [h]

theorem accessed_translated (s : State) (r : BitVec 5) (va : BitVec 64) : (myCore (translated s r va)).accessed = (myCore s).accessed :=
  myCore_translated Core.accessed (fun _ => rfl) s r va

/-- What a bank access leaves as it was: all but the turn of the bank. -/
theorem coreAt_takeBank (s : State) (k c w j : Nat) : { coreAt (takeBank k c w s) j with bankLocal := [] } = { coreAt s j with bankLocal := [] } := by
  simp only [takeBank, coreAt_updCore]; split <;> simp_all

/-- A part of the issuing core that is no turn of a bank reads as before. -/
theorem myCore_takeBank {α : Type} (f : Core → α) (hf : ∀ q, f q = f { q with bankLocal := [] }) (s : State) (k c w : Nat) :
    f (myCore (takeBank k c w s)) = f (myCore s) := by
  rw [hf, myCore, show (takeBank k c w s).curCore = s.curCore from rfl, coreAt_takeBank, ← hf]; rfl

theorem sameHart_takeBank (s : State) (k c w : Nat) : SameHart s (takeBank k c w s) :=
  ⟨rfl, rfl, myCore_takeBank (fun q => q.harts.get s.curSlot) (fun _ => rfl) s k c w, myCore_takeBank Core.instret (fun _ => rfl) s k c w⟩

theorem OthersKept.butBanks {s w t : State} (h : OthersKept w t) (core : w.curCore = s.curCore) (slot : w.curSlot = s.curSlot)
    (banks : ∀ j, { coreAt w j with bankLocal := [] } = { coreAt s j with bankLocal := [] }) : OthersButBanks s t := by
  refine ⟨fun k hk => ?_, fun j hj => ?_⟩
  · rw [← core, h.slots k (slot ▸ hk), core]
    exact (congrArg (fun q : Core => q.harts.get k) (banks s.curCore) :)
  · rw [h.cores j (core ▸ hj)]; exact banks j

/-- Settles O10: the load finds its bytes in the bank and only the turn of the bank is new (`loadAt_bank`, `loadInstr_stays`). -/
theorem bankLoadResults : Obligations.BankLoadResults := by
  intro s i f g cls hf hr u ha
  obtain ⟨c, w, o, ready⟩ := bankReady_of_answers ha
  obtain ⟨c', w', o', target⟩ := target_of_performedAt_bank ready.target
  have refused : loadRefused s g f.n = false := loadRefused_of_bank (by rw [← targetOf_translated]; exact target)
  have loaded := loadInstr_stays (sx := f.signed) (d := f.d) (len := f.len) hr refused
    (goesCombined_of_target (m := f.via) fun _ _ e => by rw [target] at e; cases e) (loadAt_bank ready)
  have same : SameHart s (takeBank u.curCore c w u) := (sameHart_translated s needRd f.va).trans (sameHart_takeBank u u.curCore c w)
  obtain ⟨goes, wrote, kept, rest⟩ := retire_setG same f.len f.d (extended f.signed f.n (memRead u.mem (performedAt u g) f.n))
  refine ⟨_, (exec_load hf).trans (congrArg finish loaded), goes, wrote, kept, ?_, ?_, ?_, ?_, rest.memory, rest.machine⟩
  · exact (accessed_of_kept rest.core).trans ((myCore_takeBank Core.accessed (fun _ => rfl) u _ c w).trans (accessed_translated s _ _))
  · exact (congrArg Core.wq rest.core :).trans ((myCore_takeBank Core.wq (fun _ => rfl) u _ c w).trans (wq_translated s _ _))
  · exact (congrArg Core.l0d rest.core :).trans ((myCore_takeBank Core.l0d (fun _ => rfl) u _ c w).trans
      (myCore_translated Core.l0d (fun _ => rfl) s _ _))
  · exact rest.others.butBanks rfl rfl (coreAt_takeBank u _ c w)

/-! ## DRAM lines that answer -/

theorem offTarget_dram {col c : Fin 8} {o off : Nat} : offTarget col o = .dram c off ↔ c = col ∧ off = o ∧ o < 0xC00000000 := by
  unfold offTarget
  constructor
  · intro h
    split at h
    · cases h; exact ⟨rfl, rfl, ‹_›⟩
    · split_ifs at h
  · rintro ⟨rfl, rfl, h⟩; exact if_pos h

/-- What a GPA of DRAM of this device is (R20). -/
theorem targetOf_dram {s : State} {a off : Nat} {col : Fin 8} : targetOf s a = .dram col off ↔
    gpaDev a ≠ 0xFE ∧ gpaDev a ≠ 0xFF ∧ gpaDev a = s.fabric.dev.toNat ∧ col.val = gpaCol a ∧ off = gpaOff a ∧ gpaOff a < 0xC00000000 := by
  unfold targetOf
  constructor
  · intro h
    split_ifs at h with h1 h2 h3
    · dsimp only at h
      split at h <;> cases h
    · obtain ⟨rfl, hoff, hlt⟩ := offTarget_dram.mp h
      exact ⟨h1, h2, h3, rfl, hoff, hlt⟩
  · rintro ⟨h1, h2, h3, h4, h5, h6⟩
    rw [if_neg h1, if_neg h2, if_pos h3]
    exact offTarget_dram.mpr ⟨Fin.ext h4, h5, h6⟩

theorem targetOf_dram_line {s : State} {a off : Nat} {col : Fin 8} (h : targetOf s a = .dram col off) :
    targetOf s (a / 64 * 64) = .dram col (off / 64 * 64) := by
  obtain ⟨h1, h2, h3, h4, h5, h6⟩ := targetOf_dram.mp h
  have dev : gpaDev (a / 64 * 64) = gpaDev a := by unfold gpaDev; omega
  have col : gpaCol (a / 64 * 64) = gpaCol a := by unfold gpaCol; omega
  have low : gpaOff (a / 64 * 64) = gpaOff a / 64 * 64 := by unfold gpaOff; omega
  refine targetOf_dram.mpr ⟨dev ▸ h1, dev ▸ h2, dev ▸ h3, col ▸ h4, by rw [low, h5], by omega⟩

theorem gpaCol_line (a : Nat) : gpaCol (a / 64 * 64) = gpaCol a := by unfold gpaCol; omega
theorem gpaDev_line (a : Nat) : gpaDev (a / 64 * 64) = gpaDev a := by unfold gpaDev; omega

theorem degradedAt_line (s : State) (a : Nat) : degradedAt s (a / 64 * 64) = degradedAt s a := by
  unfold degradedAt; simp only [gpaCol_line, gpaDev_line]

theorem sliceKey_line (off : Nat) : sliceKey (off / 64 * 64) = sliceKey off := by
  unfold sliceKey sliceOf
  rw [show off / 64 * 64 / 2 ^ 6 = off / 2 ^ 6 by omega, show off / 64 * 64 / 2 ^ 12 = off / 2 ^ 12 by omega,
    show off / 64 * 64 / 2 ^ 18 = off / 2 ^ 18 by omega, show off / 64 * 64 / 2 ^ 24 = off / 2 ^ 24 by omega,
    show off / 64 * 64 / 2 ^ 30 = off / 2 ^ 30 by omega]

theorem lineErr_line (c : Column) (off : Nat) : c.lineErr (off / 64 * 64) = c.lineErr off := by
  unfold Column.lineErr Column.inSlice
  rw [sliceKey_line, Nat.mul_div_cancel _ (by decide)]

/-- What `dramAnswers` says of a line of DRAM and the hart. -/
structure DramReady (s : State) (g n : Nat) (col : Fin 8) (off : Nat) : Prop where
  target : targetOf s g = .dram col off
  bus : (colAt s col).vbstat.getLsbD 63 = false
  err : (colAt s col).lineErr off = false
  degraded : degradedAt s g = false
  beats : (me s).beats < 9
  flight : inFlight s s.curCore g n = false
  queue : ((myCore s).wq.any fun e => meets e.gpa e.n g n) = false

theorem dramReady_of_answers {s : State} {g n off : Nat} {col : Fin 8} (target : targetOf s g = .dram col off) (h : dramAnswers s g n = true) :
    DramReady s g n col off := by
  unfold dramAnswers at h
  simp only [target, lineBad, Bool.and_eq_true, Bool.not_eq_true', Bool.or_eq_false_iff, decide_eq_true_eq] at h
  obtain ⟨⟨⟨⟨⟨err, bus⟩, degraded⟩, beats⟩, flight⟩, queue⟩ := h
  exact ⟨target, bus, err, degraded, beats, flight, queue⟩

theorem performedAt_dram {s : State} {g off : Nat} {col : Fin 8} (h : targetOf s g = .dram col off) : performedAt s g = g := by
  simp [performedAt, redirect, h]

/-- A read of a good line at its home succeeds. -/
theorem homeRead_good {s : State} {col : Fin 8} {off g : Nat} {w : Bool} (bus : (colAt s col).vbstat.getLsbD 63 = false)
    (err : (colAt s col).lineErr off = false) : (homeRead col off g w s).1 = true := by
  simp only [homeRead, bus, err, Bool.false_eq_true, if_false]

theorem homeAfter_dram {s : State} {g off : Nat} {col : Fin 8} (h : targetOf s g = .dram col off) :
    homeAfter s g = (homeRead col off g false s).2 := by simp [homeAfter, h]

theorem touched_homeAfter (s : State) (g : Nat) : Touched s (homeAfter s g) := by
  unfold homeAfter
  split
  · exact touched_homeRead _ _ _ _ _
  · exact .refl s

/-- A read of a good line that collects nothing gives the bytes of the home. -/
theorem ownerRead_dram {s : State} {g n off : Nat} {col : Fin 8} (target : targetOf s g = .dram col off) (degraded : degradedAt s g = false)
    (bus : (colAt s col).vbstat.getLsbD 63 = false) (err : (colAt s col).lineErr off = false) :
    ownerRead false g n s = (some (memRead (homeAfter s g).mem g n), homeAfter s g) := by
  have good := homeRead_good (g := g) (w := false) bus err
  rw [homeAfter_dram target]
  generalize hr : homeRead col off g false s = r at good ⊢
  obtain ⟨ok, w⟩ := r
  cases good
  simp [ownerRead, degraded, target, hr]

section
variable {s : State} {g n cls off : Nat} {col : Fin 8} {m : Completer} {va : BitVec 64}

theorem loadAt_dram (h : DramReady s g n col off) (l0 : usesL0 s m g cls = false)
    (coh : (decide (col = colOf s.curCore) && cls == 0 && m != .nc && m != .cn) = false) :
    loadAt m g cls n va s = loadHome m false g cls n va s := by
  unfold loadAt
  rw [show redirect s (myCore s).job g = g from performedAt_dram h.target]
  simp only [h.degraded, forward_none h.queue, l0, h.target, coh, Bool.false_and, if_false, Bool.false_eq_true, unlessLost,
    if_neg (Nat.not_le.mpr h.beats)]

/-- The owner's copy of a line (log entry 129). -/
theorem loadHome_owned (h : DramReady s g n col off) {v : Nat} (hv : ownedValue s m g cls n = some v) :
    loadHome m false g cls n va s = .ok v s := by
  simp [loadHome, h.flight, homeBarred, h.target, hv]

/-- The bytes of the home. -/
theorem loadHome_home (h : DramReady s g n col off) (hv : ownedValue s m g cls n = none) :
    loadHome m false g cls n va s = .ok (memRead (homeAfter s g).mem g n) (homeAfter s g) := by
  simp [loadHome, h.flight, homeBarred, h.target, hv, ownerRead_dram h.target h.degraded h.bus h.err]

end

theorem ownedValue_of_ne {s : State} {m : Completer} {g cls n : Nat} (h : m ≠ .cn) : ownedValue s m g cls n = none := by
  unfold ownedValue
  split
  · rw [if_neg (by simp [h])]
  · rfl

theorem destOf_translated (s : State) (r : BitVec 5) (va : BitVec 64) (c g : Nat) : destOf (translated s r va) c g = destOf s c g := by
  unfold destOf; rw [targetOf_translated, translated_dev]

theorem loadRefused_of_dram {s : State} {g n off : Nat} {col : Fin 8} (h : targetOf s g = .dram col off) : loadRefused s g n = false := by
  simp [loadRefused, regionOf, h]

/-- A `.c` load that fails the test of R59 stays, and so does every other. -/
theorem goesCombined_of_not_combinable {s : State} {m : Completer} {g n : Nat} (h : m = .c → combinable (me s) (destOf s s.curCore g) = false) :
    goesCombined s m g n = false := by
  unfold goesCombined
  by_cases hm : m = .c
  · simp [h hm]
  · simp [hm]

theorem loadForm_via {s : State} {i : Instr} {f : LoadForm} (h : loadForm s i = some f) : f.via ≠ .cn := by
  cases i <;> cases h <;> simp

/-- What a load that the L0 may not serve travels as, its coherence, and the owner's copy it may find. -/
theorem travels_uncached {s : State} {m : Completer} {g cls n off : Nat} {col : Fin 8} (target : targetOf s g = .dram col off)
    (h : m = .nc ∨ (m = .ord ∧ (cls = 2 ∨ cls = 0 ∧ col ≠ colOf s.curCore)) ∨ (m = .c ∧ combinable (me s) (destOf s s.curCore g) = false)) :
    usesL0 s (travelsAs s m g) g cls = false ∧
    (decide (col = colOf s.curCore) && cls == 0 && travelsAs s m g != .nc && travelsAs s m g != .cn) = false ∧
    ownedValue s (travelsAs s m g) g cls n = if m = .c then ownedValue s .cn g cls n else none := by
  obtain rfl | ⟨rfl, hc⟩ | ⟨rfl, hc⟩ := h
  · refine ⟨by simp [usesL0, travelsAs], by simp [travelsAs], ownedValue_of_ne (by simp [travelsAs])⟩
  · have ord : travelsAs s .ord g = .ord := by simp [travelsAs]
    rw [ord]
    refine ⟨?_, ?_, ownedValue_of_ne (by simp)⟩
    · obtain rfl | ⟨rfl, hne⟩ := hc
      · simp [usesL0, target]
      · simp [usesL0, target, hne]
    · obtain rfl | ⟨rfl, hne⟩ := hc
      · simp
      · simp [hne]
  · have cn : travelsAs s .c g = .cn := by simp [travelsAs, hc]
    rw [cn]
    exact ⟨by simp [usesL0], by simp, by simp⟩

/-! ## Loads served by the L0 data cache and by the write queue (R115, R196) -/

/-- The issuing core with another L0 data cache. -/
def withL0 (s : State) (l : Tab (List (Nat × BitVec 512))) : State := updMyCore s fun q => { q with l0d := l }

theorem loadL0_hit {s : State} {g n : Nat} {coh : Bool} {va : BitVec 64} {ln : BitVec 512} {l : Tab (List (Nat × BitVec 512))}
    (hit : l0Find (myCore s).l0d (l0dSet (g / 64)) (g / 64) = some (ln, l)) :
    loadL0 coh g n va s = .ok (lineGet ln (g % 64) n) (withL0 s l) := by
  unfold myCore at hit
  simp only [loadL0, hit, withL0, updMyCore]

/-- The L0 copy of a line of its own is used first. -/
theorem loadAt_l0 {s : State} {g n cls : Nat} {m : Completer} {va : BitVec 64} {ln : BitVec 512} {l : Tab (List (Nat × BitVec 512))}
    (place : performedAt s g = g) (degraded : degradedAt s g = false) (queue : ((myCore s).wq.any fun e => meets e.gpa e.n g n) = false)
    (l0 : usesL0 s m g cls = true) (hit : l0Find (myCore s).l0d (l0dSet (g / 64)) (g / 64) = some (ln, l)) :
    loadAt m g cls n va s = .ok (lineGet ln (g % 64) n) (withL0 s l) := by
  rw [← loadL0_hit (coh := false) (va := va) hit]
  unfold loadAt
  rw [show redirect s (myCore s).job g = g from place]
  refine (if_neg (Bool.eq_false_iff.mp degraded)).trans ?_
  rw [forward_none queue]
  have hit' : (l0Find (coreAt s s.curCore).l0d (l0dSet (g / 64)) (g / 64)).isSome = true := by rw [← myCore, hit]; rfl
  exact if_pos (by rw [l0, hit', Bool.and_self])

theorem fillLine_of_ownerRead {s w : State} {g v : Nat} (h : ownerRead false (g / 64 * 64) 64 s = (some v, w)) :
    fillLine false g s = (some (BitVec.ofNat 512 v), w) := by
  simp only [fillLine, h, Bool.false_and, Bool.false_eq_true, if_false]

/-- The line of the home, for a fill that collects nothing. -/
theorem fillLine_dram {s : State} {g off : Nat} {col : Fin 8} (target : targetOf s g = .dram col off) (degraded : degradedAt s g = false)
    (bus : (colAt s col).vbstat.getLsbD 63 = false) (err : (colAt s col).lineErr off = false) :
    fillLine false g s = (some (homeLine (homeAfter s (g / 64 * 64)) (g / 64)), homeAfter s (g / 64 * 64)) := by
  rw [homeLine]
  exact fillLine_of_ownerRead
    (ownerRead_dram (targetOf_dram_line target) ((degradedAt_line s g).trans degraded) bus ((lineErr_line _ _).trans err))

/-- A line that the L0 lacks is filled from its home, the queued stores laid over it. -/
theorem loadL0_fill {s w : State} {g n : Nat} {va : BitVec 64} {ln : BitVec 512} (same : w.curCore = s.curCore)
    (filled : fillLine false g s = (some ln, w))
    (miss : l0Find (myCore s).l0d (l0dSet (g / 64)) (g / 64) = none) (flight : inFlight s s.curCore (g / 64 * 64) 64 = false)
    (reductions : redQueued (myCore s).wq (g / 64 * 64) 64 = false) :
    let ln := mergeQueue (myCore w).wq (g / 64) ln
    loadL0 false g n va s = .ok (lineGet ln (g % 64) n) (withL0 w (l0Fill 8 (myCore w).l0d (l0dSet (g / 64)) (g / 64) ln)) := by
  unfold myCore at *
  unfold withL0 updMyCore
  simp only [loadL0, miss, flight, reductions, filled, same, updCore, Bool.or_self, Bool.and_false, Bool.false_and, Bool.false_eq_true, if_false]

theorem loadAt_fill {s : State} {g n cls off : Nat} {col : Fin 8} {m : Completer} {va : BitVec 64} (h : DramReady s g n col off)
    (l0 : usesL0 s m g cls = true) (coh : (decide (col = colOf s.curCore) && cls == 0 && m != .nc && m != .cn) = false)
    (miss : l0Find (myCore s).l0d (l0dSet (g / 64)) (g / 64) = none) : loadAt m g cls n va s = loadL0 false g n va s := by
  have miss' : l0Find (coreAt s s.curCore).l0d (l0dSet (g / 64)) (g / 64) = none := miss
  unfold loadAt
  rw [show redirect s (myCore s).job g = g from performedAt_dram h.target]
  simp only [h.degraded, forward_none h.queue, l0, miss', Option.isSome_none, Bool.and_false, Bool.false_eq_true, if_false, if_true, unlessLost,
    if_neg (Nat.not_le.mpr h.beats), h.target, coh]

/-- The bytes that one queued store of the same place gives. -/
theorem forward_last {q : List WEntry} {e : WEntry} {n : Nat} (hn : 0 < n) (last : q.getLast? = some e) (kind : e.kind = .store) (size : e.n = n) :
    forward q e.gpa n = .all (e.data.toNat % 2 ^ (8 * n)) := by
  obtain ⟨q, rfl⟩ := List.getLast?_eq_some_iff.mp last
  have byte (i : Nat) (hi : i < n) : wqByte (q ++ [e]) (e.gpa + i) = some (some (e.data.toNat / 2 ^ (8 * i) % 256)) := by
    have touches : meets e.gpa e.n (e.gpa + i) 1 = true := by simp only [meets, size, Bool.and_eq_true, decide_eq_true_eq]; omega
    rw [wqByte_eq, List.foldl_append, List.foldl_cons, List.foldl_nil, wqEntry, if_pos touches, kind, Nat.add_sub_cancel_left]
  unfold forward
  rw [if_neg]
  · suffices h : ∀ k ≤ n, ((List.range k).foldl (fun r i => match r, wqByte (q ++ [e]) (e.gpa + i) with
        | .all v, some (some b) => .all (v + b * 2 ^ (8 * i))
        | _, _ => .part) (Fwded.all 0)) = .all (e.data.toNat % 2 ^ (8 * k)) from h n le_rfl
    intro k
    induction k with
    | zero => intro _; simp [Nat.mod_one]
    | succ k ih =>
      intro hk
      rw [List.range_succ, List.foldl_append, ih (by omega), List.foldl_cons, List.foldl_nil, byte k hk]
      simp only [Nat.mul_succ, pow_add, Nat.mod_mul]
      rw [Nat.mul_comm (2 ^ (8 * k))]
      rfl
  · intro all
    have := List.all_eq_true.mp all 0 (List.mem_range.mpr hn)
    rw [byte 0 hn] at this
    cases this

/-- A load that finds all its bytes in the queue takes them. -/
theorem loadAt_queue {s : State} {g n cls v : Nat} {m : Completer} {va : BitVec 64} (degraded : degradedAt s (performedAt s g) = false)
    (found : forward (myCore s).wq (performedAt s g) n = .all v) : loadAt m g cls n va s = .ok v s := by
  unfold loadAt
  rw [show redirect s (myCore s).job g = performedAt s g from rfl]
  refine (if_neg (Bool.eq_false_iff.mp degraded)).trans ?_
  rw [found]

/-- Nor does it leave as a request. -/
theorem goesCombined_of_queue {s : State} {m : Completer} {g n v : Nat} (found : forward (myCore s).wq (performedAt s g) n = .all v) :
    goesCombined s m g n = false := by
  unfold goesCombined
  split
  · next ht =>
    rw [performedAt_dram ht] at found
    rw [found]; exact Bool.and_false _
  · simp

theorem loadForm_size {s : State} {i : Instr} {f : LoadForm} (h : loadForm s i = some f) : 0 < f.n := by
  cases i <;> cases h <;> simp

/-! ## Loads of DRAM (O11) -/

/-- What answers a DRAM load before translation answers it after. -/
theorem dramReady_translated {s : State} {g n off : Nat} {col : Fin 8} {va : BitVec 64} (target : targetOf s g = .dram col off)
    (h : dramAnswers (translated s needRd va) g n = true) : DramReady (translated s needRd va) g n col off :=
  dramReady_of_answers ((targetOf_translated _ _ _ _).trans target) h

theorem usesL0_ord {s : State} {g cls off : Nat} {col : Fin 8} (target : targetOf s g = .dram col off)
    (h : cls = 1 ∨ (cls = 0 ∧ col = colOf s.curCore)) : usesL0 s .ord g cls = true := by
  obtain rfl | ⟨rfl, rfl⟩ := h <;> simp [usesL0, target]

theorem travelsAs_ord (s : State) (g : Nat) : travelsAs s .ord g = .ord := by simp [travelsAs]

theorem startLoc_dram {s : State} {c g off : Nat} {col : Fin 8} (h : targetOf s g = .dram col off) : startLoc s c g = .omega 1 := by
  simp [startLoc, h]

/-- A load that has its value in w, x with another L0: what it leaves in the L0 and elsewhere. -/
theorem results_of_l0 {x t : State} {l : Tab (List (Nat × BitVec 512))} (rest : RestKept (withL0 x l) t) :
    (myCore t).l0d = l ∧ { (myCore t).kept with l0d := [] } = { (myCore x).kept with l0d := [] } ∧ OthersKept x t ∧
      (∀ b, byteAt t b = byteAt x b) ∧ t.kept = x.kept := by
  have core := rest.core
  rw [withL0, myCore_updMyCore] at core
  refine ⟨(congrArg Core.l0d core :), (congrArg (fun q : Core => { q with l0d := [] }) core :), ⟨fun k hk => ?_, fun c hc => ?_⟩, rest.memory,
    rest.machine⟩
  · have slot : hartAt (withL0 x l) x.curCore k = hartAt x x.curCore k := by
      rw [hartAt, withL0, updMyCore, coreAt_updCore_self]; rfl
    exact (rest.others.slots k hk).trans slot
  · exact (rest.others.cores c hc).trans (coreAt_updCore_ne _ _ _ _ hc)

theorem sameHart_withL0 (s : State) (l : Tab (List (Nat × BitVec 512))) : SameHart s (withL0 s l) :=
  ⟨rfl, rfl, me_updMyCore_of_harts _ _ rfl, by rw [withL0, myCore_updMyCore]⟩

/-- Settles O11, path by path: the home (`loadHome_home`), the owner's copy (`loadHome_owned`), the combinable request
(`loadInstr_combined`), the L0 copy and the L0 fill (`loadAt_l0`, `loadL0_fill`), the write queue (`forward_last`). -/
theorem cachedLoadResults : Obligations.CachedLoadResults := by
  refine ⟨?home, ?request, ?l0, ?queue⟩
  case home =>
    intro s i f g cls col off hf hr u w owned target ha kind
    have ready := dramReady_translated target ha
    have kind' : f.via = .nc ∨ (f.via = .ord ∧ (cls = 2 ∨ cls = 0 ∧ col ≠ colOf u.curCore)) ∨
        (f.via = .c ∧ combinable (me u) (destOf u u.curCore g) = false) := by
      rw [me_translated, translated_curCore, destOf_translated]; exact kind
    obtain ⟨l0, coh, value⟩ := travels_uncached (n := f.n) ready.target kind'
    have stays : goesCombined u f.via g f.n = false := goesCombined_of_not_combinable fun hc => by
      obtain h | ⟨h, -⟩ | ⟨-, h⟩ := kind'
      · rw [h] at hc; cases hc
      · rw [h] at hc; cases hc
      · exact h
    have load {v : Nat} {x : State} (found : loadHome (travelsAs u f.via g) false g cls f.n f.va u = .ok v x) :
        exec i s = .next (retire f.len (setG x f.d (f.ext v))) :=
      (exec_load hf).trans (congrArg finish (loadInstr_stays hr (loadRefused_of_dram target) stays ((loadAt_dram ready l0 coh).trans found)))
    have same : SameHart s u := sameHart_translated s needRd f.va
    refine ⟨fun v hv => ?_, fun hn => ?_⟩
    · obtain ⟨goes, wrote, kept, rest⟩ := retire_setG same f.len f.d (f.ext v)
      exact ⟨_, load (loadHome_owned ready (value.trans hv)), goes, wrote, kept, rest.core, rest.others, rest.memory, rest.machine⟩
    · have touched : Touched u w := touched_homeAfter u g
      obtain ⟨goes, wrote, kept, rest⟩ := retire_setG (same.trans touched.sameHart) f.len f.d (f.ext (memRead w.mem g f.n))
      refine ⟨_, load (loadHome_home ready (value.trans hn)), goes, wrote, kept, ?_, (congrArg Core.cw rest.core :), ?_, rest.others, rest.memory,
        rest.machine⟩
      all_goals
        have core : { myCore w with cw := [], rcache := [] } = { myCore s with cw := [], rcache := [] } := by
          rw [myCore, (same.trans touched.sameHart).core]; exact ((translated_touched s needRd f.va).trans touched).cores _
      · exact (congrArg Core.l0d rest.core :).trans (congrArg Core.l0d core :)
      · exact (congrArg Core.wq rest.core :).trans (congrArg Core.wq core :)
  case request =>
    intro s i f g cls col off hf via hr u target ha share split
    have ready := dramReady_translated target ha
    have leaves : goesCombined u f.via g f.n = true := by
      unfold goesCombined
      rw [via, ready.target, forward_none ready.queue, ready.flight, translated_split, split, me_translated, translated_curCore,
        destOf_translated, share]
      rfl
    have sent := sentBy_sentAndWaits u (combinedPkt u f.n f.signed f.d g f.va (ownCoherent u g cls)) id
    have loc : startLoc u u.curCore g = .omega 1 := startLoc_dram ready.target
    have hart := sent.hart
    rw [me_translated] at hart
    refine ⟨_, _, (exec_load hf).trans (congrArg finish (loadInstr_combined hr (loadRefused_of_dram target) leaves)), sent.net, ?_, rfl, rfl, rfl,
      loc, rfl, rfl, (congrArg Hart.wait hart :), (congrArg Hart.pc hart :), fun r => (congrArg (fun h : Hart => h.gr r) hart :),
      (congrArg (fun h : Hart => { h.kept with since := 0 }) hart :), sent.core, sent.others, sent.memory, sent.machine⟩
    simp [fromMe, combinedPkt, newPkt]
  case l0 =>
    intro s i f g cls col off hf via hr u w gives target ha
    have ready := dramReady_translated target ha
    have same : SameHart s u := sameHart_translated s needRd f.va
    have l0d : (myCore u).l0d = (myCore s).l0d := myCore_translated Core.l0d (fun _ => rfl) s _ _
    have load {v : Nat} {x : State} (found : loadAt .ord g cls f.n f.va u = .ok v x) :
        exec i s = .next (retire f.len (setG x f.d (f.ext v))) := by
      refine (exec_load hf).trans (congrArg finish (loadInstr_stays hr (loadRefused_of_dram target) ?_ ?_))
      · exact goesCombined_of_not_combinable fun hc => by rw [via] at hc; cases hc
      · rw [via, travelsAs_ord]; exact found
    refine ⟨fun served ln l hit => ?_, fun served miss flight reductions => ?_⟩
    · have l0 : usesL0 u .ord g cls = true := usesL0_ord ready.target (by rw [translated_curCore]; exact served)
      have found := loadAt_l0 (n := f.n) (va := f.va) (performedAt_dram ready.target) ready.degraded ready.queue l0 (l0d ▸ hit)
      obtain ⟨goes, wrote, kept, rest⟩ := retire_setG (same.trans (sameHart_withL0 u l)) f.len f.d (f.ext (lineGet ln (g % 64) f.n))
      exact ⟨_, load found, goes, wrote, kept, results_of_l0 rest⟩
    · intro ln
      have l0 : usesL0 u .ord g cls = true := usesL0_ord ready.target (.inl served)
      have touched : Touched u w := touched_homeAfter u _
      have core : { myCore w with cw := [], rcache := [] } = { myCore s with cw := [], rcache := [] } := by
        rw [myCore, (same.trans touched.sameHart).core]; exact ((translated_touched s needRd f.va).trans touched).cores _
      have wq : (myCore w).wq = (myCore s).wq := (congrArg Core.wq core :)
      have l0w : (myCore w).l0d = (myCore s).l0d := (congrArg Core.l0d core :)
      have found := (loadAt_fill (n := f.n) (va := f.va) ready l0 (by simp [served]) (l0d ▸ miss)).trans
        (loadL0_fill touched.sameHart.core (fillLine_dram ready.target ready.degraded ready.bus ready.err) (l0d ▸ miss)
          (by rw [translated_curCore]; exact flight)
          (by rw [wq_translated]; exact reductions))
      rw [wq, l0w] at found
      obtain ⟨goes, wrote, kept, rest⟩ := retire_setG ((same.trans touched.sameHart).trans (sameHart_withL0 w _)) f.len f.d
        (f.ext (lineGet ln (g % 64) f.n))
      exact ⟨_, load found, goes, wrote, kept, results_of_l0 rest⟩
  case queue =>
    intro s i f g cls e hf hr u last kind place size degraded refused
    have same : SameHart s u := sameHart_translated s needRd f.va
    have found : forward (myCore u).wq (performedAt u g) f.n = .all (e.data.toNat % 2 ^ (8 * f.n)) := by
      rw [wq_translated, ← place]; exact forward_last (loadForm_size hf) last kind size
    have load : loadAt (travelsAs u f.via g) g cls f.n f.va u = .ok (e.data.toNat % 2 ^ (8 * f.n)) u := loadAt_queue degraded found
    have stays : goesCombined u f.via g f.n = false := goesCombined_of_queue found
    obtain ⟨goes, wrote, kept, rest⟩ := retire_setG same f.len f.d (f.ext (e.data.toNat % 2 ^ (8 * f.n)))
    exact ⟨_, (exec_load hf).trans (congrArg finish (loadInstr_stays hr refused stays load)), goes, wrote, kept, rest.core, rest.others,
      rest.memory, rest.machine⟩

end Sys2Proof.Machine
end

section
/-!
PROOFS. Reads at the home slices and translations (R31, R51, R52, R63): what the memory, the cache ways and the range caches are after them.
-/

namespace Sys2Proof.Machine

set_option Elab.async false

theorem coreAt_congr {s t : State} (h : t.cores = s.cores) (c : Nat) : coreAt t c = coreAt s c := by rw [coreAt, h]; rfl

/-! ## Copies in the cache ways (R61) -/

theorem cwFind_cwDrop_self (q : Core) (ln : Nat) : (q.cwDrop ln).cwFind ln = none := by
  unfold Core.cwDrop Core.cwFind
  rw [tabGet_tabPut_self, List.find?_filter]
  simp

theorem cwFind_cwDrop_ne (q : Core) {ln l : Nat} (h : l ≠ ln) : (q.cwDrop ln).cwFind l = q.cwFind l := by
  unfold Core.cwDrop Core.cwFind
  rw [tabGet_tabPut]
  split
  · next same =>
    rw [same, List.find?_filter]
    congr 1
    funext e
    by_cases he : e.line = l
    · simp [he, h]
    · simp [he]
  · rfl

/-! ## What reads at the homes leave: memory, cache ways and range caches -/

/-- As `HomeTouched`, for a core whose range cache may be new where P says so, and the canonical form of memory kept. -/
structure HomedBut (P : Nat → Prop) (s t : State) : Prop where
  touched : Touched s t
  ranges : ∀ c, ¬ P c → (coreAt t c).rcache = (coreAt s c).rcache
  lines : ∀ c ln, (coreAt t c).cwFind ln = (coreAt s c).cwFind ln ∨ (coreAt t c).cwFind ln = none
  boot : { t.boot with intstat := 0, msixPend := 0, msixSent := [] } = { s.boot with intstat := 0, msixPend := 0, msixSent := [] }
  ok : s.memOk → t.memOk
  memory : s.memOk → ∀ a, ByteHomed s t a

/-- What reads at the homes leave, with every range cache as it was. -/
abbrev Homed (s t : State) : Prop := HomedBut (fun _ => False) s t

namespace HomedBut
variable {P : Nat → Prop} {s t u : State}

theorem refl (s : State) : HomedBut P s s := ⟨.refl s, fun _ _ => rfl, fun _ _ => .inl rfl, rfl, id, fun _ _ => .inl rfl⟩

theorem trans (h : HomedBut P s t) (k : HomedBut P t u) : HomedBut P s u := by
  refine ⟨h.touched.trans k.touched, fun c hc => (k.ranges c hc).trans (h.ranges c hc), fun c ln => ?_, k.boot.trans h.boot,
    fun hs => k.ok (h.ok hs), fun hs a => ?_⟩
  · obtain same | gone := k.lines c ln
    · rw [same]; exact h.lines c ln
    · exact .inr gone
  · obtain same | ⟨c, e, copy, owner, dirty, byte⟩ := k.memory (h.ok hs) a
    · obtain before | ⟨c, e, copy, owner, dirty, byte⟩ := h.memory hs a
      · exact .inl (same.trans before)
      · exact .inr ⟨c, e, copy, owner, dirty, same.trans byte⟩
    · obtain before | gone := h.lines c (a / 64)
      · exact .inr ⟨c, e, before ▸ copy, owner, dirty, byte⟩
      · rw [gone] at copy; cases copy

theorem of_homed (h : Homed s t) : HomedBut P s t := ⟨h.touched, fun c _ => h.ranges c not_false, h.lines, h.boot, h.ok, h.memory⟩

theorem col (k : Fin 8) (f : Column → Column) (h : ∀ c, (f c).still = c.still) : HomedBut P s (updCol s k f) :=
  ⟨.col k f h, fun _ _ => rfl, fun _ _ => .inl rfl, rfl, id, fun _ _ => .inl rfl⟩

/-- Cores and memory as they were. -/
theorem of_same (h : Touched s t) (cores : t.cores = s.cores) (mem : t.mem = s.mem)
    (boot : { t.boot with intstat := 0, msixPend := 0, msixSent := [] } = { s.boot with intstat := 0, msixPend := 0, msixSent := [] }) :
    HomedBut P s t := by
  have core (c : Nat) : coreAt t c = coreAt s c := coreAt_congr cores c
  refine ⟨h, fun c _ => by rw [core], fun c ln => .inl (by rw [core]), boot, fun ok => ?_, fun _ a => .inl (by rw [byteAt, mem]; rfl)⟩
  rw [State.memOk, mem]; exact ok

theorem foldl {α : Type} (f : State → α → State) (h : ∀ s x, HomedBut P s (f s x)) : ∀ (l : List α) (s : State), HomedBut P s (l.foldl f s)
  | [], s => refl s
  | x :: l, s => (h s x).trans (foldl f h l (f s x))

theorem homeTouched (h : HomedBut P s t) (own : ∀ c, P c → c = s.curCore.val) : HomeTouched s t :=
  ⟨h.touched.cores, fun c hc => h.ranges c fun hp => hc (own c hp), h.lines, h.touched.cols, h.boot, h.touched.fabric, h.memory,
    h.touched.machine⟩

end HomedBut

variable (col : Fin 8) (s : State)

theorem raiseInt_cores (v : Nat) : (raiseInt v s).cores = s.cores := by
  unfold raiseInt sendMsix
  dsimp only
  split
  · rfl
  · split <;> rfl

theorem raiseInt_mem (v : Nat) : (raiseInt v s).mem = s.mem := by
  unfold raiseInt sendMsix
  dsimp only
  split
  · rfl
  · split <;> rfl

theorem raiseInt_boot (v : Nat) :
    { (raiseInt v s).boot with intstat := 0, msixPend := 0, msixSent := [] } = { s.boot with intstat := 0, msixPend := 0, msixSent := [] } := by
  unfold raiseInt sendMsix
  dsimp only
  split
  · rfl
  · split <;> rfl

theorem homed_raiseInt (v : Nat) : Homed s (raiseInt v s) :=
  .of_same (touched_raiseInt v s) (raiseInt_cores s v) (raiseInt_mem s v) (raiseInt_boot s v)

theorem homed_logError (src unit gpa : Nat) : Homed s (logError col src unit gpa s) := by
  unfold logError
  dsimp only
  split
  · exact .col _ _ fun _ => rfl
  · refine HomedBut.trans ?_ (homed_raiseInt _ _)
    exact .col _ _ fun _ => rfl

theorem homed_countSoft : Homed s (countSoft col s) := .col _ _ fun _ => rfl
theorem homed_slicePut (off : Nat) (w : Bool) : Homed s (slicePut col off w s) := .col _ _ fun _ => rfl

theorem homed_sliceToDram (ln : Nat) : Homed s (sliceToDram col ln s) := by
  unfold sliceToDram
  dsimp only
  refine HomedBut.trans ?_ (.col _ _ fun _ => rfl)
  split
  · exact homed_countSoft _ _
  · exact .refl s

theorem homed_sliceOut (k : Nat) (v : Nat × Bool) : Homed s (sliceOut col k v s) := by
  unfold sliceOut
  refine HomedBut.trans ?_ (.col _ _ fun _ => rfl)
  split
  · exact homed_sliceToDram _ _ _
  · exact .refl s

theorem homeWriteLine_mem (ln : Nat) (d : BitVec 512) : (homeWriteLine col ln d s).mem = memWrite s.mem (ln * 64) 64 d.toNat := by
  rw [homeWriteLine, slicePut, updCol_mem, updCol_mem, setHomeLine]

theorem memOk_homeWriteLine (ln : Nat) (d : BitVec 512) (h : s.memOk) : (homeWriteLine col ln d s).memOk := by
  rw [State.memOk, homeWriteLine_mem]; exact wf_memWrite _ _ _ _ h

/-- A byte after a line has been written at its home. -/
theorem byteAt_homeWriteLine (ln : Nat) (d : BitVec 512) (h : s.memOk) (a : Nat) :
    byteAt (homeWriteLine col ln d s) a = if a / 64 = ln then BitVec.ofNat 8 (d.toNat / 256 ^ (a % 64)) else byteAt s a := by
  rw [byteAt, homeWriteLine_mem]
  split
  · next same =>
    have place : a = ln * 64 + a % 64 := by omega
    have byte := memGet_memWrite_inside 64 s.mem (ln * 64) d.toNat (a % 64) h (Nat.mod_lt _ (by decide))
    rw [← place] at byte
    exact byte
  · exact memGet_memWrite_outside _ _ _ _ _ h (by omega)

theorem homeWriteLine_cores (ln : Nat) (d : BitVec 512) : (homeWriteLine col ln d s).cores = s.cores := by
  rw [homeWriteLine, slicePut, updCol_cores, updCol_cores, setHomeLine]

theorem homeWriteLine_boot (ln : Nat) (d : BitVec 512) : (homeWriteLine col ln d s).boot = s.boot := by
  rw [homeWriteLine, slicePut, updCol, setCol, updCol, setCol, setHomeLine]

/-- A copy leaves its cache way, its data not needed. -/
theorem homed_cwDrop (c ln : Nat) : Homed s (updCore s c fun q => q.cwDrop ln) := by
  refine ⟨.core _ _ fun _ => rfl, fun j _ => ?_, fun j l => ?_, rfl, id, fun _ _ => .inl rfl⟩
  · rw [coreAt_updCore]
    split
    · next hj => subst hj; rfl
    · rfl
  · rw [coreAt_updCore]
    split
    · next hj =>
      subst hj
      by_cases hl : l = ln
      · subst hl; exact .inr (cwFind_cwDrop_self _ _)
      · exact .inl (cwFind_cwDrop_ne _ hl)
    · exact .inl rfl

/-- The data of a dirty owner's copy goes home (R63). -/
theorem homed_homeWriteLine {s : State} {c ln : Nat} {e : CWLine} (copy : (coreAt s c).cwFind ln = some e) (owner : e.owner = true)
    (dirty : e.dirty = true) : Homed s (homeWriteLine (colOf c) ln e.data s) := by
  have core (j : Nat) : coreAt (homeWriteLine (colOf c) ln e.data s) j = coreAt s j := coreAt_congr (homeWriteLine_cores _ _ _ _) j
  refine ⟨touched_homeWriteLine _ _ _ _, fun j _ => by rw [core], fun j _ => .inl (by rw [core]), by rw [homeWriteLine_boot],
    memOk_homeWriteLine _ _ _ _, fun h a => ?_⟩
  have byte := byteAt_homeWriteLine (colOf c) s ln e.data h a
  split at byte
  · next same => exact .inr ⟨c, e, same ▸ copy, owner, dirty, byte⟩
  · exact .inl byte

/-- The eviction of a copy: it leaves the cache way, its data at home when the owner's copy is dirty (R63). -/
theorem homed_evictLine (c ln : Nat) : Homed s (evictLine c ln s) := by
  unfold evictLine
  split
  · exact .refl s
  · next e copy =>
    refine HomedBut.trans ?_ (homed_cwDrop _ c ln)
    split
    · next h =>
      rw [Bool.and_eq_true] at h
      exact homed_homeWriteLine copy h.1 h.2
    · exact .refl s

theorem homed_collectAll (ln : Nat) : Homed s (collectAll col ln s) := .foldl _ (fun _ _ => homed_evictLine _ _ _) _ _

theorem homed_sliceTouch (off : Nat) (w : Bool) : Homed s (sliceTouch col off w s) := by
  unfold sliceTouch
  dsimp only
  refine HomedBut.trans ?_ (homed_slicePut _ _ _ _)
  split
  · exact .refl s
  · split
    · exact homed_sliceOut _ _ _ _
    · exact (homed_collectAll _ _ _).trans (homed_sliceOut _ _ _ _)
    · exact .refl s

theorem homed_homeRead (off gpa : Nat) (w : Bool) : Homed s (homeRead col off gpa w s).2 := by
  unfold homeRead
  dsimp only
  split
  · exact homed_logError _ _ _ _ _
  · split
    · exact homed_logError _ _ _ _ _
    · refine HomedBut.trans ?_ (homed_sliceTouch _ _ _ _)
      have soft (b : Bool) (f : Column → Column) (hf : ∀ c, (f c).still = c.still) :
          Homed s (if b then countSoft col (updCol s col f) else s) := by
        cases b
        · exact .refl s
        · exact HomedBut.trans (.col _ _ hf) (homed_countSoft _ _)
      cases (colAt s col).inSlice off
      · exact soft _ _ fun _ => rfl
      · exact soft _ _ fun _ => rfl

theorem homed_readLines (w : Bool) : ∀ (l : List Nat) (s : State), Homed s (readLines w l s)
  | [], s => .refl s
  | a :: l, s => by
    unfold readLines
    split
    · next col off _ =>
      have h := homed_homeRead col s off a w
      split
      · next u hu => rw [hu] at h; exact h.trans (homed_readLines w l u)
      · next u hu => rw [hu] at h; exact h
    · exact homed_readLines w l s

theorem reach_fabric (c : Fin 8) (gpa n : Nat) : ∃ f, reach c gpa n s = { s with fabric := f } := by
  unfold reach useAllowances
  split
  · split
    · exact ⟨_, rfl⟩
    · exact ⟨s.fabric, rfl⟩
  · exact ⟨s.fabric, rfl⟩

theorem homed_reach (c : Fin 8) (gpa n : Nat) : Homed s (reach c gpa n s) := by
  have touched := touched_reach c gpa n s
  obtain ⟨f, hf⟩ := reach_fabric s c gpa n
  rw [hf] at touched ⊢
  exact .of_same touched rfl rfl rfl

theorem homed_walkFrom {s t : State} {c : Fin 8} {h va : Nat} (e : walkFrom c h va s = some t) : Homed s t := by
  unfold walkFrom at e
  dsimp only at e
  split at e
  · cases e; exact (homed_readLines _ _ _).trans (homed_reach _ _ _ _)
  · cases e

/-- A core that takes a new range cache. -/
theorem homed_rcache (c : Nat) (f : Core → Core) (h : ∀ q, f q = { q with rcache := (f q).rcache }) : HomedBut (· = c) s (updCore s c f) := by
  refine ⟨.core c f fun q => by rw [h], fun j hj => by rw [coreAt_updCore_ne _ _ _ _ hj], fun j ln => .inl ?_, rfl, id, fun _ _ => .inl rfl⟩
  rw [coreAt_updCore]
  split
  · next hj => subst hj; rw [h]; rfl
  · rfl

/-- What a translation leaves (R31, R35). -/
theorem homed_translate (c : Nat) (sys : Bool) (rights : BitVec 5) (va : BitVec 64) :
    HomedBut (· = c) s (translate s c sys rights va).2 := by
  unfold translate
  dsimp only
  split
  · exact homed_rcache s c (fun q => { q with rcache := _ }) fun _ => rfl
  · split
    · exact .refl s
    · next t ht =>
      have h := HomedBut.of_homed (P := (· = c)) (homed_walkFrom ht)
      split
      · exact h
      · exact h
      · exact h
      · exact h.trans (homed_rcache t c (fun q => { q with rcache := _ }) fun _ => rfl)

theorem homed_translated (r : BitVec 5) (va : BitVec 64) : HomedBut (· = s.curCore.val) s (translated s r va) := homed_translate _ _ _ _ _

theorem memOk_translated {s : State} (r : BitVec 5) (va : BitVec 64) (h : s.memOk) : (translated s r va).memOk := (homed_translated s r va).ok h

end Sys2Proof.Machine
end

section
/-!
PROOFS. The traps of scalar accesses (R35, R251 to R259) and reads at the homes (R51, R52, R74): the obligation O14.
-/

namespace Sys2Proof.Machine

set_option Elab.async false

/-! ## Trapping after an access has touched the machine -/

theorem takesTrap_of_settled {i : Instr} {s : State} {c : Cause} {x : BitVec 64} (h : Settled s → exec i s = finish (.trap c x s)) :
    TakesTrap i s c x := fun hs => takesTrap_of (h hs) hs

theorem Touched.core_eq {α : Type} {s t : State} (h : Touched s t) (f : Core → α) (hf : ∀ q, f q = f { q with cw := [], rcache := [] }) :
    f (myCore t) = f (myCore s) := by
  rw [hf, myCore, h.sameHart.core, h.cores, ← hf]; rfl

theorem Touched.isVecHart {s t : State} (h : Touched s t) : isVecHart t = isVecHart s := by
  unfold Machine.isVecHart; rw [h.core_eq Core.vec fun _ => rfl, h.sameHart.slot]

theorem Touched.settled {s t : State} (h : Touched s t) (hs : Settled s) : Settled t := fun hv => by
  rw [h.core_eq Core.quiet fun _ => rfl]; exact hs (h.isVecHart ▸ hv)

theorem Touched.freezing {s t : State} (h : Touched s t) (c : Cause) : freezing t t.curCore c = freezing s s.curCore c := by
  have core : { coreAt t t.curCore with cw := [], rcache := [] } = { coreAt s s.curCore with cw := [], rcache := [] } := by
    rw [h.sameHart.core]; exact h.cores _
  have night : t.night = s.night := (congrArg State.night h.machine :)
  unfold Machine.freezing
  dsimp only
  rw [show (coreAt t t.curCore).dbgctl = (coreAt s s.curCore).dbgctl from (congrArg Core.dbgctl core :),
    show (coreAt t t.curCore).job = (coreAt s s.curCore).job from (congrArg Core.job core :), night]

theorem Entered.of_sameHart {s u t : State} {c : Cause} {x : BitVec 64} {vec : Bool} (same : SameHart s u) (h : Entered u t c x vec) :
    Entered s t c x vec := by
  have regs (r : BitVec 5) : gr u r = gr s r := by rw [gr, same.hart]; rfl
  exact ⟨same.hart ▸ h.xpc, h.xcause, h.xval, same.hart ▸ h.xstat, same.hart ▸ h.pc, same.hart ▸ h.ready, fun r => (h.regs r).trans (regs r),
    same.hart ▸ h.kept⟩

/-- An access that traps once it has touched the machine. -/
theorem entered_of_finish {i : Instr} {s u : State} {c : Cause} {x : BitVec 64} (h : exec i s = finish (.trap c x u)) (touched : Touched s u)
    (hs : Settled s) (hf : freezing s s.curCore c = false) :
    ∃ t, exec i s = .next t ∧ Entered s t c x false ∧ (myCore t).instret = (myCore s).instret ∧ RestKept u t := by
  have nf : freezing u u.curCore c = false := (touched.freezing c).trans hf
  refine ⟨_, h.trans (finish_trap c x u (touched.settled hs)), (entered_takeTrap c x false u nf).of_sameHart touched.sameHart, ?_, ?_⟩
  · rw [takeTrap_eq c x false u nf, myCore_updMe]; exact touched.sameHart.count
  · rw [takeTrap_eq c x false u nf]; exact restKept_updMe u _

/-! ## The checks of an access (R35, R254) -/

theorem accessAt_misaligned {s : State} {r : BitVec 5} {n : Nat} {va : BitVec 64} (hs : Settled s) (h : va.toNat % n ≠ 0) :
    accessAt r n va s = .trap .misalign va s := by
  unfold accessAt
  rw [if_neg, if_pos h]
  intro wait
  rw [Bool.and_eq_true, Bool.not_eq_true'] at wait
  exact absurd (hs wait.1) (by rw [wait.2]; decide)

theorem accessAt_fault {s : State} {r : BitVec 5} {n : Nat} {va : BitVec 64} {c : Cause} (hs : Settled s) (h : va.toNat % n = 0)
    (fault : (translate s s.curCore (isSys s) r va).1 = .fault c) : accessAt r n va s = .trap c va (translated s r va) := by
  unfold accessAt xlate
  rw [if_neg, if_neg (not_not.mpr h)]
  · generalize ht : translate s s.curCore (isSys s) r va = t at fault
    have hu : translated s r va = t.2 := by rw [translated, ht]
    obtain ⟨x, u⟩ := t
    cases fault
    rw [hu]
  · intro wait
    rw [Bool.and_eq_true, Bool.not_eq_true'] at wait
    exact absurd (hs wait.1) (by rw [wait.2]; decide)

theorem translate_hit {s : State} {c : Nat} {sys : Bool} {r : BitVec 5} {va : BitVec 64} {d : RDesc} {es : List REntry}
    (h : rcLookup (coreAt s c).rcache (coreAt s c).job va.toNat = some (d, es)) :
    translate s c sys r va = (checkDesc s d r sys va.toNat, setCore s c { coreAt s c with rcache := es }) := by
  unfold translate
  simp only [h]

/-- No descriptor covers the address and no edit is under way (R31). -/
theorem translate_miss {s : State} {c : Nat} {sys : Bool} {r : BitVec 5} {va : BitVec 64}
    (miss : (rcLookup (coreAt s c).rcache (coreAt s c).job va.toNat).isNone)
    (walk : (walkFrom (colOf c) (hdrOf (coreAt s c).rdbase) va.toNat s).isSome)
    (none : (searchIdx s (hdrOf (coreAt s c).rdbase) va.toNat).toOption = some none) (edit : dirEdit s (hdrOf (coreAt s c).rdbase) = false) :
    (translate s c sys r va).1 = .fault .rangeMiss := by
  obtain ⟨t, ht⟩ := Option.isSome_iff_exists.mp walk
  have search : searchDir s (hdrOf (coreAt s c).rdbase) va.toNat = .miss := by
    unfold searchDir
    cases hx : searchIdx s (hdrOf (coreAt s c).rdbase) va.toNat with
    | error e => rw [hx] at none; cases none
    | ok o => rw [hx] at none; cases none; rfl
  unfold translate
  simp only [Option.isNone_iff_eq_none.mp miss, ht, search, edit, Bool.false_eq_true, if_false]

/-- A trap of the checks of an access is that of its instruction. -/
theorem exec_of_accessAt {i : Instr} {s u : State} {n : Nat} {va : BitVec 64} {rights : BitVec 5} {c : Cause}
    (form : (∃ f, loadForm s i = some f ∧ f.n = n ∧ f.va = va ∧ rights = needRd) ∨
      (∃ f, storeForm s i = some f ∧ f.n = n ∧ f.va = va ∧ rights = needWr) ∨
      (∃ f, atomicForm s i = some f ∧ f.n = n ∧ f.va = va ∧ rights = needAm) ∨
      (∃ f, reductionForm s i = some f ∧ f.n = n ∧ f.va = va ∧ rights = needRed))
    (h : accessAt rights n va s = .trap c va u) : exec i s = finish (.trap c va u) := by
  obtain ⟨f, hf, rfl, rfl, rfl⟩ | ⟨f, hf, rfl, rfl, rfl⟩ | ⟨f, hf, rfl, rfl, rfl⟩ | ⟨f, hf, rfl, rfl, rfl⟩ := form
  · rw [exec_load hf, loadInstr, h]; rfl
  · rw [exec_store hf, storeInstr, h]; rfl
  · rw [exec_atomic hf, amInstr, h]; rfl
  · rw [exec_reduction hf, redInstr, h]; rfl

theorem fullEmpty_of_accessAt {s u : State} {load : Bool} {x va word : BitVec 64} {d : BitVec 5} {c : Cause}
    (h : accessAt (if load then needRdWr else needWr) 8 va s = .trap c va u) : fullEmpty load x va d word s = .trap c va u := by
  rw [fullEmpty, h]; rfl

/-! ## Reads at the homes (R51, R52, R74) -/

/-- The correctable errors of a column's lines, in DRAM and in the slices, are among those before. -/
structure SoftShrinks (col : Fin 8) (s t : State) : Prop where
  dram : ∀ x ∈ (colAt t col).soft, x ∈ (colAt s col).soft
  slice : ∀ x ∈ (colAt t col).sliceSoft, x ∈ (colAt s col).sliceSoft

namespace SoftShrinks
variable {col : Fin 8} {s t u : State}

theorem refl (s : State) : SoftShrinks col s s := ⟨fun _ h => h, fun _ h => h⟩

theorem trans (h : SoftShrinks col s t) (k : SoftShrinks col t u) : SoftShrinks col s u :=
  ⟨fun x hx => h.dram x (k.dram x hx), fun x hx => h.slice x (k.slice x hx)⟩

theorem updCol (j : Fin 8) (f : Column → Column) (dram : ∀ c, ∀ x ∈ (f c).soft, x ∈ c.soft) (slice : ∀ c, ∀ x ∈ (f c).sliceSoft, x ∈ c.sliceSoft) :
    SoftShrinks col s (Machine.updCol s j f) := by
  by_cases h : col = j
  · subst h; exact ⟨by rw [colAt_updCol_self]; exact dram _, by rw [colAt_updCol_self]; exact slice _⟩
  · exact ⟨by rw [colAt_updCol_ne _ _ _ _ h]; exact fun _ hx => hx, by rw [colAt_updCol_ne _ _ _ _ h]; exact fun _ hx => hx⟩

theorem of_cols (h : t.cols = s.cols) : SoftShrinks col s t := by
  have same : colAt t col = colAt s col := by rw [colAt, h]; rfl
  exact ⟨by rw [same]; exact fun _ h => h, by rw [same]; exact fun _ h => h⟩

theorem foldl {α : Type} (f : State → α → State) (h : ∀ s x, SoftShrinks col s (f s x)) : ∀ (l : List α) (s : State), SoftShrinks col s (l.foldl f s)
  | [], s => refl s
  | x :: l, s => (h s x).trans (foldl f h l (f s x))

end SoftShrinks

section
variable (k col : Fin 8) (s : State)

theorem softShrinks_slicePut (off : Nat) (w : Bool) : SoftShrinks k s (slicePut col off w s) := .updCol _ _ (fun _ _ h => h) fun _ _ h => h

theorem softShrinks_sliceOut (key : Nat) (v : Nat × Bool) : SoftShrinks k s (sliceOut col key v s) := by
  have toDram : SoftShrinks k s (sliceToDram col v.1 s) := by
    unfold sliceToDram
    dsimp only
    refine SoftShrinks.trans ?_ (.updCol _ _ (fun _ _ h => List.mem_of_mem_filter h) fun _ _ h => List.mem_of_mem_filter h)
    split
    · exact .updCol _ _ (fun _ _ h => h) fun _ _ h => h
    · exact .refl s
  unfold sliceOut
  refine SoftShrinks.trans ?_ (.updCol _ _ (fun _ _ h => h) fun _ _ h => List.mem_of_mem_filter h)
  split
  · exact toDram
  · exact .refl s

theorem softShrinks_homeWriteLine (ln : Nat) (d : BitVec 512) : SoftShrinks k s (homeWriteLine col ln d s) := by
  have cols : SoftShrinks k s (setHomeLine s ln d) := .of_cols (by rw [setHomeLine])
  unfold homeWriteLine
  exact (cols.trans (.updCol _ _ (fun _ _ h => List.mem_of_mem_filter h) fun _ _ h => List.mem_of_mem_filter h)).trans
    (softShrinks_slicePut _ _ _ _ _)

theorem softShrinks_evictLine (c ln : Nat) : SoftShrinks k s (evictLine c ln s) := by
  have drop (x : State) : SoftShrinks k x (updCore x c fun q => q.cwDrop ln) := .of_cols rfl
  unfold evictLine
  split
  · exact .refl s
  · refine SoftShrinks.trans ?_ (drop _)
    split
    · exact softShrinks_homeWriteLine _ _ _ _ _
    · exact .refl s

theorem softShrinks_sliceTouch (off : Nat) (w : Bool) : SoftShrinks k s (sliceTouch col off w s) := by
  unfold sliceTouch
  dsimp only
  refine SoftShrinks.trans ?_ (softShrinks_slicePut _ _ _ _ _)
  split
  · exact .refl s
  · split
    · exact softShrinks_sliceOut _ _ _ _ _
    · exact SoftShrinks.trans (.foldl _ (fun _ _ => softShrinks_evictLine _ _ _ _) _ _) (softShrinks_sliceOut _ _ _ _ _)
    · exact .refl s

/-- The line stands first in its slice (R52). -/
theorem head_slicePut (off : Nat) (w : Bool) :
    ((tabGet [] (colAt (slicePut col off w s) col).slices (sliceKey off)).head?.map (·.1)) = some (off / 64) := by
  simp [slicePut]

theorem head_sliceTouch (off : Nat) (w : Bool) :
    ((tabGet [] (colAt (sliceTouch col off w s) col).slices (sliceKey off)).head?.map (·.1)) = some (off / 64) := head_slicePut _ _ _ _

/-- With a way free, no other line leaves. -/
theorem sliceTouch_free (off : Nat) (w : Bool) (h : ((tabGet [] (colAt s col).slices (sliceKey off)).filter fun e => e.1 != off / 64).length < 16) :
    sliceTouch col off w s = slicePut col off w s := by
  unfold sliceTouch
  simp only [h, if_true]

/-- The correctable errors of the lines of a slice, or of the DRAM behind it. -/
def softOf (held : Bool) (c : Column) : List Nat := if held then c.sliceSoft else c.soft

theorem SoftShrinks.softOf {col : Fin 8} {s t : State} (h : SoftShrinks col s t) (held : Bool) :
    ∀ x ∈ Machine.softOf held (colAt t col), x ∈ Machine.softOf held (colAt s col) := by
  cases held
  · exact h.dram
  · exact h.slice

/-- A column without the correctable error of a line. -/
def Column.mended (held : Bool) (ln : Nat) (c : Column) : Column :=
  if held then { c with sliceSoft := c.sliceSoft.filter (· != ln) } else { c with soft := c.soft.filter (· != ln) }

/-- The correctable error of a line at its home has been corrected and counted (R51, R71). -/
def corrected (off : Nat) (s : State) : State :=
  if (softOf ((colAt s col).inSlice off) (colAt s col)).contains (off / 64) then
    countSoft col (updCol s col (Column.mended ((colAt s col).inSlice off) (off / 64)))
  else s

theorem homeRead_ok {s : State} {col : Fin 8} {off g : Nat} {w : Bool} (bus : (colAt s col).vbstat.getLsbD 63 = false)
    (err : (colAt s col).lineErr off = false) : homeRead col off g w s = (true, sliceTouch col off w (corrected col off s)) := by
  simp only [homeRead, bus, err, Bool.false_eq_true, if_false]
  rfl

theorem not_mem_mended (held : Bool) (ln : Nat) (c : Column) : ln ∉ softOf held (c.mended held ln) := by
  cases held <;> simp [softOf, Column.mended]

theorem not_mem_corrected (off : Nat) : off / 64 ∉ softOf ((colAt s col).inSlice off) (colAt (corrected col off s) col) := by
  unfold corrected
  split
  · have count (c : Column) : softOf ((colAt s col).inSlice off) { c with cecnt := if c.cecnt = 0xFFFFFFFF then c.cecnt else c.cecnt + 1 } =
        softOf ((colAt s col).inSlice off) c := by unfold softOf; split <;> rfl
    rw [countSoft, colAt_updCol_self, colAt_updCol_self, count]
    exact not_mem_mended _ _ _
  · next good => exact fun m => good (List.contains_iff_mem.mpr m)

theorem slices_mended (held : Bool) (ln : Nat) (c : Column) : (c.mended held ln).slices = c.slices := by cases held <;> rfl
theorem cecnt_mended (held : Bool) (ln : Nat) (c : Column) : (c.mended held ln).cecnt = c.cecnt := by cases held <;> rfl

theorem slices_corrected (off : Nat) : (colAt (corrected col off s) col).slices = (colAt s col).slices := by
  unfold corrected
  split
  · rw [countSoft, colAt_updCol_self, colAt_updCol_self]; exact slices_mended _ _ _
  · rfl

/-- The count of corrected errors below its limit. -/
theorem cecnt_corrected (off : Nat) (h : (colAt s col).cecnt.toNat + 1 < 2 ^ 32) : (colAt (corrected col off s) col).cecnt.toNat =
    (colAt s col).cecnt.toNat + if off / 64 ∈ softOf ((colAt s col).inSlice off) (colAt s col) then 1 else 0 := by
  have below : (colAt s col).cecnt ≠ 0xFFFFFFFF := fun e => by rw [e] at h; exact absurd h (by decide)
  unfold corrected
  split
  · next soft =>
    rw [if_pos (List.contains_iff_mem.mp soft), countSoft, colAt_updCol_self, colAt_updCol_self]
    dsimp only
    rw [cecnt_mended, if_neg below, BitVec.toNat_add]
    exact Nat.mod_eq_of_lt (show (colAt s col).cecnt.toNat + 1 < 2 ^ 64 by omega)
  · next good => rw [if_neg fun m => good (List.contains_iff_mem.mpr m)]; rfl

/-! ## The error record (R74) -/

theorem colAt_raiseInt (v : Nat) (j : Fin 8) : colAt (raiseInt v s) j = colAt s j := by
  unfold raiseInt sendMsix
  dsimp only
  split
  · rfl
  · split <;> rfl

theorem mem_logError (src unit g : Nat) : (logError col src unit g s).mem = s.mem := by
  unfold logError
  dsimp only
  split
  · rfl
  · rw [raiseInt_mem]; rfl

theorem cores_logError (src unit g : Nat) : (logError col src unit g s).cores = s.cores := by
  unfold logError
  dsimp only
  split
  · rfl
  · rw [raiseInt_cores]; rfl

/-- The record is VALID, and of the line when it was free. -/
theorem record_logError (src unit g : Nat) : (colAt (logError col src unit g s) col).errinfo.getLsbD 63 = true ∧
    ((colAt s col).errinfo.getLsbD 63 = false → (colAt (logError col src unit g s) col).erraddr = BitVec.ofNat 64 (g / 64 * 64)) := by
  unfold logError
  dsimp only
  split
  · next taken =>
    rw [colAt_updCol_self]
    refine ⟨?_, fun free => absurd taken (by rw [free]; decide)⟩
    rw [BitVec.getLsbD_or, taken, Bool.true_or]
  · rw [colAt_raiseInt, colAt_updCol_self]
    refine ⟨?_, fun _ => rfl⟩
    simp only [BitVec.getLsbD_or]
    rfl

theorem homeRead_bad {s : State} {col : Fin 8} {off g : Nat} {w : Bool}
    (h : (!(colAt s col).vbstat.getLsbD 63 && !(colAt s col).lineErr off) = false) :
    ∃ src unit, homeRead col off g w s = (false, logError col src unit g s) := by
  unfold homeRead
  dsimp only
  split
  · exact ⟨_, _, rfl⟩
  · split
    · exact ⟨_, _, rfl⟩
    · next bus err => simp_all

end

/-! ## The obligation -/

/-- Settles O14: the checks of an access (`accessAt_misaligned`, `accessAt_fault`, `exec_of_accessAt`), the target rules of loads, and reads at
the homes (`homeRead_ok`, `homeRead_bad`). -/
theorem accessTraps : Obligations.AccessTraps := by
  refine ⟨?misaligned, ?translation, ?refused, ?home⟩
  case misaligned =>
    intro s i n va form odd
    refine takesTrap_of_settled fun hs => ?_
    obtain ⟨f, hf, hn, hva⟩ | ⟨f, hf, hn, hva⟩ | ⟨f, hf, hn, hva⟩ | ⟨f, hf, hn, hva⟩ | ⟨a, d, rfl, rfl, rfl⟩ | ⟨b, a, rfl, rfl, rfl⟩ := form
    · exact exec_of_accessAt (.inl ⟨f, hf, hn, hva, rfl⟩) (accessAt_misaligned hs odd)
    · exact exec_of_accessAt (.inr (.inl ⟨f, hf, hn, hva, rfl⟩)) (accessAt_misaligned hs odd)
    · exact exec_of_accessAt (.inr (.inr (.inl ⟨f, hf, hn, hva, rfl⟩))) (accessAt_misaligned hs odd)
    · exact exec_of_accessAt (.inr (.inr (.inr ⟨f, hf, hn, hva, rfl⟩))) (accessAt_misaligned hs odd)
    · exact congrArg finish (fullEmpty_of_accessAt (accessAt_misaligned hs odd))
    · exact congrArg finish (fullEmpty_of_accessAt (accessAt_misaligned hs odd))
  case translation =>
    intro s i n va rights c form u
    refine ⟨(homed_translated s rights va).homeTouched fun _ h => h, fun d es hit => ?_, fun aligned hs hf fault => ?_⟩
    · exact congrArg Prod.snd (translate_hit hit)
    · have failed : (translate s s.curCore (isSys s) rights va).1 = .fault c := by
        obtain ⟨rfl, miss, walk, none, edit⟩ | ⟨d, es, hit, ⟨rfl, perm⟩ | ⟨rfl, perm, window⟩⟩ := fault
        · exact translate_miss miss walk none edit
        · rw [translate_hit hit]; exact if_pos perm
        · rw [translate_hit hit]
          refine (if_neg (not_not.mpr perm)).trans (if_pos ?_)
          rw [window]; rfl
      exact entered_of_finish (exec_of_accessAt form (accessAt_fault hs aligned failed)) (translated_touched s rights va) hs hf
  case refused =>
    intro s i f g cls hf hr u refused nf
    obtain ⟨access, -, hs⟩ := reaches_spec hr
    refine entered_of_finish (u := u) ?_ (translated_touched s needRd f.va) hs nf
    rw [exec_load hf, loadInstr, access]
    simp only [Res.andThen, need, loadRefused_translated, refused, Bool.not_true, Bool.false_eq_true, if_false]
    rfl
  case home =>
    intro s col off g write c ln held ok r soft
    have homed := homed_homeRead col s off g write
    have okEq : ok = (!(colAt s col).vbstat.getLsbD 63 && !(colAt s col).lineErr off) := rfl
    refine ⟨?_, homed.homeTouched fun _ h => h.elim, fun x => homed.ranges x not_false, fun good => ?_, fun bad => ?_⟩
    · cases h : ok with
      | true =>
        rw [okEq, Bool.and_eq_true, Bool.not_eq_true', Bool.not_eq_true'] at h
        exact homeRead_good h.1 h.2
      | false =>
        obtain ⟨src, unit, hr⟩ := homeRead_bad (g := g) (w := write) (okEq.symm.trans h)
        exact congrArg Prod.fst hr
    · rw [okEq, Bool.and_eq_true, Bool.not_eq_true', Bool.not_eq_true'] at good
      have hr : r = (true, sliceTouch col off write (corrected col off s)) := homeRead_ok good.1 good.2
      rw [hr]
      refine ⟨head_sliceTouch _ _ _ _, fun m => ?_, fun room limit => ?_⟩
      · exact not_mem_corrected col s off ((softShrinks_sliceTouch col col _ off write).softOf held _ m)
      · rw [sliceTouch_free _ _ _ _ (by rw [slices_corrected]; exact room)]
        exact (congrArg BitVec.toNat (congrArg Column.cecnt (colAt_updCol_self _ _ _))).trans (cecnt_corrected col s off limit)
    · obtain ⟨src, unit, hr⟩ := homeRead_bad (g := g) (w := write) (okEq.symm.trans bad)
      have hr : r = (false, logError col src unit g s) := hr
      rw [hr]
      exact ⟨mem_logError _ _ _ _ _, cores_logError _ _ _ _ _, record_logError _ _ _ _ _⟩

end Sys2Proof.Machine
end

section
/-!
PROOFS. Stores and reductions on their way into the write queue (R196, R258): the obligation O12.
-/

namespace Sys2Proof.Machine

set_option Elab.async false

/-! ## Entering the write queue (R196) -/

/-- The entry that an access of the issuing hart makes in the write queue. -/
def wEntryFor (s : State) (k : WKind) (g cls n : Nat) (va x : BitVec 64) (nc : Bool) : WEntry :=
  { slot := s.curSlot, kind := k, gpa := performedAt s g, va := va, n := n, data := x, nc := nc || !ownCoherent s g cls }

/-- The machine with an entry more in the write queue, and the L0 data cache as l says. -/
def queuedWith (s : State) (e : WEntry) (l : Core → Tab (List (Nat × BitVec 512))) : State :=
  updMyCore s fun q => { q with wq := q.wq ++ [e], l0d := l q }

theorem ownCoherent_translated (s : State) (r : BitVec 5) (va : BitVec 64) (g cls : Nat) :
    ownCoherent (translated s r va) g cls = ownCoherent s g cls := by
  unfold ownCoherent; rw [targetOf_translated, translated_curCore]

theorem enqueue_room {s : State} {k : WKind} {g cls n : Nat} {va x : BitVec 64} {nc : Bool} (room : (myCore s).wq.length < 32) :
    ∃ l, enqueue k g cls n va x nc s = .ok () (queuedWith s (wEntryFor s k g cls n va x nc) l) := by
  refine ⟨?l, ?_⟩
  case l => exact fun q =>
    match k with
    | .store => l0Update q.l0d g n x.toNat
    | .vec m d => l0Change q.l0d (g / 64) fun l => lineMask l m d
    | .red _ => l0Drop q.l0d (l0dSet (g / 64)) (g / 64)
  unfold enqueue
  refine (if_neg (Nat.not_le.mpr room)).trans ?_
  cases k <;> rfl

theorem enqueue_full {s : State} {k : WKind} {g cls n : Nat} {va x : BitVec 64} {nc : Bool} (full : 32 ≤ (myCore s).wq.length) :
    enqueue k g cls n va x nc s = .hold s := if_pos full

theorem storeInstr_past {s : State} {m : Completer} {n g cls : Nat} {x va : BitVec 64} {len : BitVec 48}
    (h : reaches s needWr n false true va = some (g, cls)) (size : (n == 8 || !isPrivReg s g) = true) :
    storeInstr m n x va len s =
      (enqueue .store g cls n va x (m == .nc) (translated s needWr va)).andThen fun _ s => .ok () (retire len s) := by
  obtain ⟨access, watched, -⟩ := reaches_spec h
  unfold storeInstr
  rw [access]
  simp only [Res.andThen, need, isPrivReg_translated, size, if_true, watched]

theorem storeInstr_wrong {s : State} {m : Completer} {n g cls : Nat} {x va : BitVec 64} {len : BitVec 48}
    (h : reaches s needWr n false true va = some (g, cls)) (size : (n == 8 || !isPrivReg s g) = false) :
    storeInstr m n x va len s = .trap .busFault va (translated s needWr va) := by
  obtain ⟨access, -, -⟩ := reaches_spec h
  unfold storeInstr
  rw [access]
  simp only [Res.andThen, need, isPrivReg_translated, size, Bool.false_eq_true, if_false]

theorem redInstr_past {s : State} {op : AmOp} {n g cls : Nat} {x va : BitVec 64} (h : reaches s needRed n false true va = some (g, cls)) :
    redInstr op n x va s =
      (enqueue (.red op) g cls n va x false (translated s needRed va)).andThen fun _ s => .ok () (retire 4 s) := by
  obtain ⟨access, watched, -⟩ := reaches_spec h
  unfold redInstr
  rw [access]
  simp only [Res.andThen, watched]

theorem sameHart_queuedWith (s : State) (e : WEntry) (l : Core → Tab (List (Nat × BitVec 512))) : SameHart s (queuedWith s e l) :=
  ⟨rfl, rfl, me_updMyCore_of_harts _ _ rfl, by rw [queuedWith, myCore_updMyCore]⟩

/-- A part of the machine that keeps the harts of the issuing core keeps every other slot and core. -/
theorem othersKept_updMyCore (s : State) (f : Core → Core) (h : (f (myCore s)).harts = (myCore s).harts) : OthersKept s (updMyCore s f) := by
  refine ⟨fun k _ => ?_, fun c hc => coreAt_updCore_ne _ _ _ _ hc⟩
  rw [hartAt, updMyCore, coreAt_updCore_self]
  exact congrArg (fun v => Vector.get v k) h

/-- The forms of O12: what a store or a reduction does past its checks. -/
theorem exec_write {s : State} {i : Instr} {n : Nat} {x va : BitVec 64} {k : WKind} {rights : BitVec 5} {nc : Bool} {len : BitVec 48} {g cls : Nat}
    (form : (∃ f, storeForm s i = some f ∧ n = f.n ∧ x = f.x ∧ va = f.va ∧ k = .store ∧ rights = needWr ∧ nc = f.nc ∧ len = f.len) ∨
      (∃ f, reductionForm s i = some f ∧ n = f.n ∧ x = f.x ∧ va = f.va ∧ k = .red f.op ∧ rights = needRed ∧ nc = false ∧ len = 4))
    (hr : reaches s rights n false true va = some (g, cls)) :
    let u := translated s rights va
    let wrong : Bool := k == .store && n != 8 && isPrivReg s g
    (wrong = false → exec i s = finish ((enqueue k g cls n va x nc u).andThen fun _ s => .ok () (retire len s))) ∧
    (wrong = true → exec i s = finish (.trap .busFault va u)) := by
  obtain ⟨f, hf, rfl, rfl, rfl, rfl, rfl, rfl, rfl⟩ | ⟨f, hf, rfl, rfl, rfl, rfl, rfl, rfl, rfl⟩ := form
  · have size : (WKind.store == WKind.store && f.n != 8 && isPrivReg s g) = !(f.n == 8 || !isPrivReg s g) := by
      rw [beq_self_eq_true, Bool.true_and, Bool.not_or, Bool.not_not]; rfl
    have nc : ((if f.nc then Completer.nc else Completer.ord) == Completer.nc) = f.nc := by cases f.nc <;> rfl
    dsimp only
    rw [exec_store hf, size]
    refine ⟨fun right => ?_, fun wrong => ?_⟩
    · rw [storeInstr_past hr (by rwa [Bool.not_eq_false'] at right), nc]
    · rw [storeInstr_wrong hr (by rwa [Bool.not_eq_true'] at wrong)]
  · refine ⟨fun _ => ?_, fun wrong => absurd wrong (by simp)⟩
    rw [exec_reduction hf, redInstr_past hr]

/-- Settles O12 (`exec_write`, `enqueue_room`, `enqueue_full`). -/
theorem storesEnterTheQueue : Obligations.StoresEnterTheQueue := by
  intro s i n x va k rights nc len g cls form hr u own wrong
  obtain ⟨past, trap⟩ := exec_write form hr
  have same : SameHart s u := sameHart_translated s rights va
  refine ⟨fun right room => ?_, fun right full => ?_, fun bad nf => ?_⟩
  · obtain ⟨l, entered⟩ := enqueue_room (s := u) (k := k) (g := g) (cls := cls) (n := n) (va := va) (x := x) (nc := nc) (by rw [wq_translated]; exact room)
    obtain ⟨goes, regs, kept, rest⟩ := retire_plain (same.trans (sameHart_queuedWith u (wEntryFor u k g cls n va x nc) l)) len
    have core := rest.core
    rw [queuedWith, myCore_updMyCore] at core
    have others := othersKept_updMyCore u (fun q => { q with wq := q.wq ++ [wEntryFor u k g cls n va x nc], l0d := l q }) rfl
    have coherent : ownCoherent u g cls = (own && cls == 0) := ownCoherent_translated s rights va g cls
    refine ⟨_, wEntryFor u k g cls n va x nc, (past right).trans (by rw [entered]; rfl), goes, regs, kept, ?_, same.slot, rfl, rfl, rfl, rfl, rfl,
      congrArg (fun b => nc || !b) coherent, (congrArg (fun q : Core => { q with wq := [], l0d := [] }) core :),
      others.trans rest.others rfl rfl, rest.memory, rest.machine⟩
    exact (congrArg Core.wq core :).trans (congrArg (· ++ _) (wq_translated s rights va))
  · rw [past right, enqueue_full (by rw [wq_translated]; exact full)]; rfl
  · exact entered_of_finish (trap bad) (translated_touched s rights va) (reaches_spec hr).2.2 nf

end Sys2Proof.Machine
end

section
/-!
PROOFS. Operations at the owner, full/empty words and mailboxes (R209, R255 to R260): the obligation O13.
-/

namespace Sys2Proof.Machine

set_option Elab.async false

/-! ## The values of operations at the owner (R255, R256, R258) -/

/-- The low 4 or 8 bytes of a word, as the model cuts it. -/
def cutTo (n : Nat) (v : BitVec 64) : BitVec 64 := if n = 4 then (v.setWidth 32).zeroExtend 64 else v

theorem cutTo_toNat {n : Nat} (hn : n = 4 ∨ n = 8) (v : BitVec 64) : (cutTo n v).toNat = v.toNat % 2 ^ (8 * n) := by
  obtain rfl | rfl := hn
  · simp [cutTo]; omega
  · simp only [cutTo, show ¬(8 = 4) by decide, if_false]; omega

/-- A word of 4 or 8 bytes as a signed number. -/
def signedAs (n : Nat) (v : BitVec 64) : Int := if n = 4 then (v.setWidth 32).toInt else v.toInt

theorem signedAs_eq {n : Nat} (hn : n = 4 ∨ n = 8) (v : BitVec 64) : signedAs n v = (BitVec.ofNat (8 * n) v.toNat).toInt := by
  obtain rfl | rfl := hn
  · simp [signedAs, BitVec.ofNat_toNat]
  · simp [signedAs]

/-- The model's new value is that of the operation on words of n bytes (R255, R258). -/
theorem amResult_toNat {op : AmOp} {n : Nat} (hn : n = 4 ∨ n = 8) (m : Nat) (hm : m < 2 ^ (8 * n)) (x e : BitVec 64) :
    (amResult op n (BitVec.ofNat 64 m) x e).toNat % 2 ^ (8 * n) = newValue op n m x.toNat e.toNat % 2 ^ (8 * n) := by
  have le : 2 ^ (8 * n) ≤ 2 ^ 64 := by obtain rfl | rfl := hn <;> decide
  have hm64 : m % 2 ^ 64 = m := Nat.mod_eq_of_lt (lt_of_lt_of_le hm le)
  have cutM : (cutTo n (BitVec.ofNat 64 m)).toNat = m := by
    rw [cutTo_toNat hn, BitVec.toNat_ofNat, hm64, Nat.mod_eq_of_lt hm]
  have cutX : (cutTo n x).toNat = x.toNat % 2 ^ (8 * n) := cutTo_toNat hn x
  have cutE : (cutTo n e).toNat = e.toNat % 2 ^ (8 * n) := cutTo_toNat hn e
  have signM : signedAs n (cutTo n (BitVec.ofNat 64 m)) = (BitVec.ofNat (8 * n) m).toInt := by rw [signedAs_eq hn, cutM]
  have signX : signedAs n (cutTo n x) = (BitVec.ofNat (8 * n) (x.toNat % 2 ^ (8 * n))).toInt := by rw [signedAs_eq hn, cutX]
  have float (f : Nat) : (BitVec.ofNat 64 (f % 2 ^ (8 * n))).toNat % 2 ^ (8 * n) = f % 2 ^ (8 * n) := by
    rw [BitVec.toNat_ofNat, Nat.mod_eq_of_lt (lt_of_lt_of_le (Nat.mod_lt _ (by positivity)) le), Nat.mod_mod]
  cases op with
  | add =>
    show (cutTo n (cutTo n _ + cutTo n _)).toNat % _ = _
    rw [cutTo_toNat hn, BitVec.toNat_add, cutM, cutX, Nat.mod_mod,
      Nat.mod_mod_of_dvd _ (Nat.pow_dvd_pow 2 (by omega : 8 * n ≤ 64))]
    exact (Nat.mod_mod _ _).symm
  | swap => show (cutTo n x).toNat % _ = _; rw [cutX]; rfl
  | cas =>
    have same : cutTo n (BitVec.ofNat 64 m) = cutTo n e ↔ m = e.toNat % 2 ^ (8 * n) := by rw [← BitVec.toNat_inj, cutM, cutE]
    show (if cutTo n _ = cutTo n e then cutTo n x else cutTo n _).toNat % _ = (if _ then _ else _) % _
    by_cases h : m = e.toNat % 2 ^ (8 * n)
    · rw [if_pos (same.mpr h), if_pos h, cutX]
    · rw [if_neg fun k => h (same.mp k), if_neg h, cutM]
  | and => show (cutTo n _ &&& cutTo n _).toNat % _ = _; rw [BitVec.toNat_and, cutM, cutX]; rfl
  | or => show (cutTo n _ ||| cutTo n _).toNat % _ = _; rw [BitVec.toNat_or, cutM, cutX]; rfl
  | xor => show (cutTo n _ ^^^ cutTo n _).toNat % _ = _; rw [BitVec.toNat_xor, cutM, cutX]; rfl
  | min =>
    show (if signedAs n (cutTo n _) ≤ signedAs n (cutTo n x) then cutTo n _ else cutTo n x).toNat % _ = _
    rw [signM, signX, apply_ite BitVec.toNat, cutM, cutX]; rfl
  | max =>
    show (if signedAs n (cutTo n x) ≤ signedAs n (cutTo n _) then cutTo n _ else cutTo n x).toNat % _ = (if _ then _ else _) % _
    rw [signM, signX, apply_ite BitVec.toNat, cutM, cutX, ← ite_not]
    simp only [not_le]
  | minn =>
    show (if (cutTo n _).toNat ≤ (cutTo n x).toNat then cutTo n _ else cutTo n x).toNat % _ = _
    rw [apply_ite BitVec.toNat, cutM, cutX, ← min_def]; rfl
  | maxn =>
    show (if (cutTo n x).toNat ≤ (cutTo n _).toNat then cutTo n _ else cutTo n x).toNat % _ = _
    rw [apply_ite BitVec.toNat, cutM, cutX, ← max_def, max_comm]; rfl
  | fadd =>
    show (BitVec.ofNat 64 ((Fmt.add _ 0 0 (cutTo n _).toNat (cutTo n x).toNat).1 % 2 ^ (8 * n))).toNat % _ = _
    rw [cutM, cutX, float]; rfl
  | fmin =>
    show (BitVec.ofNat 64 ((Fmt.min _ (cutTo n _).toNat (cutTo n x).toNat).1 % 2 ^ (8 * n))).toNat % _ = _
    rw [cutM, cutX, float]; rfl
  | fmax =>
    show (BitVec.ofNat 64 ((Fmt.max _ (cutTo n _).toNat (cutTo n x).toNat).1 % 2 ^ (8 * n))).toNat % _ = _
    rw [cutM, cutX, float]; rfl

/-- The old value as the model writes it back. -/
theorem amWriteBack_eq {f : OwnerForm} (hn : f.n = 4 ∨ f.n = 8) (m : Nat) : amWriteBack f.op f.n (BitVec.ofNat 64 m) = f.old m := by
  obtain h | h := hn
  · have low : (BitVec.ofNat 64 m).setWidth 32 = BitVec.ofNat 32 m := by apply BitVec.eq_of_toNat_eq; simp
    have high : (BitVec.ofNat 32 m).setWidth 64 = BitVec.ofNat 64 (m % 2 ^ 32) := by apply BitVec.eq_of_toNat_eq; simp
    unfold amWriteBack OwnerForm.old
    rw [h, if_pos rfl, if_neg (by decide), low]
    cases f.op
    case fadd | fmin | fmax => exact high
    all_goals rfl
  · simp [amWriteBack, OwnerForm.old, h]

theorem memRead_lt (l : List Host.Cell) : ∀ (n a : Nat), memRead l a n < 256 ^ n
  | 0, _ => by simp [memRead]
  | n + 1, a => by
    have := memRead_lt l n (a + 1)
    have := (memGet l a).isLt
    simp only [memRead, pow_succ]; omega

/-- The bytes of a number depend on what is below them only. -/
theorem byte_of_mod {x y n k : Nat} (h : x % 2 ^ (8 * n) = y % 2 ^ (8 * n)) (hk : k < n) :
    BitVec.ofNat 8 (x / 256 ^ k) = BitVec.ofNat 8 (y / 256 ^ k) := by
  have pow (j : Nat) : (256 : Nat) ^ j = 2 ^ (8 * j) := by rw [Nat.pow_mul]
  have split : 2 ^ (8 * n) = 256 ^ k * (256 * 256 ^ (n - k - 1)) := by rw [← pow, ← pow_succ', ← pow_add]; congr 1; omega
  have byte (z : Nat) : z / 256 ^ k % 256 = z % 2 ^ (8 * n) / 256 ^ k % 256 := by
    rw [split, Nat.mod_mul_right_div_self, Nat.mod_mul_right_mod]
  apply BitVec.eq_of_toNat_eq
  rw [BitVec.toNat_ofNat, BitVec.toNat_ofNat]
  exact (byte x).trans ((congrArg (· / 256 ^ k % 256) h).trans (byte y).symm)

theorem atomicForm_size {s : State} {i : Instr} {f : OwnerForm} (h : atomicForm s i = some f) : f.n = 4 ∨ f.n = 8 := by
  have size (z : BitVec 1) : (if z = 1 then 8 else 4) = 4 ∨ (if z = 1 then 8 else 4) = 8 := by
    by_cases hz : z = 1
    · exact .inr (if_pos hz)
    · exact .inl (if_neg hz)
  cases i <;> cases h <;> exact size _

/-! ## Retiring with the issuing hart changed -/

/-- The issuing hart, changed by f in fields that no result names, takes gd and retires. -/
theorem retire_setG_updMe {s w : State} (same : SameHart s w) (f : Hart → Hart) (pc : (f (me s)).pc = (me s).pc) (st : (f (me s)).st = (me s).st)
    (regs : ∀ r, (f (me s)).gr r = (me s).gr r) (len : BitVec 48) (d : BitVec 5) (x : BitVec 64) :
    let t := retire len (setG (updMe w f) d x)
    GoesOn s t ((me s).pc + len) ∧ Wrote s t d x ∧ (me t).kept = (f (me s)).kept ∧ RestKept w t := by
  have own : setG (updMe w f) d x = updMe w fun h => (f h).setG d x := by rw [setG, updMe_updMe]
  have next : (me (setG (updMe w f) d x)).pc = (me s).pc := by rw [own, me_updMe, setG_pc, same.hart, pc]
  intro t
  have ht : t = retireAt ((me s).pc + len) (updMe w fun h => (f h).setG d x) := by rw [← next, ← own]; rfl
  rw [ht]
  refine ⟨same.goesOn (goesOn_retireAt_updMe _ w _ ?_), ⟨?_, fun r hr => ?_⟩, ?_, restKept_retireAt_updMe _ w _⟩
  · rw [setG_st, same.hart, st]
  · simp only [gr, me_retireAt, gr_retired, me_updMe, gr_setG, if_true]
  · simp only [gr, me_retireAt, gr_retired, me_updMe, gr_setG, if_neg hr, same.hart, regs]
  · simp only [me_retireAt, kept_retired, me_updMe, kept_setG, same.hart]

/-! ## Atomics past their checks (R255 to R257) -/

theorem coreAt_withL0 (s : State) (l : Tab (List (Nat × BitVec 512))) (j : Nat) :
    { coreAt (withL0 s l) j with l0d := [] } = { coreAt s j with l0d := [] } := by
  rw [withL0, updMyCore, coreAt_updCore]; split
  · next hj => subst hj; rfl
  · rfl

/-- A test of the cores that holds of no core at reset, after one core changed in nothing that it looks at. -/
theorem any_tabPut {α : Type} (p : α → Bool) (d v : α) (k : Nat) (hd : p d = false) : ∀ t : Tab α, p v = p (tabGet d t k) →
    ((tabPut t k v).any fun e => p e.2) = t.any fun e => p e.2
  | [], hv => by simp only [tabPut, List.any_cons, List.any_nil, Bool.or_false]; rw [hv]; exact hd
  | (j, w) :: t, hv => by
    have listed : ∀ t : Tab α, p (tabGet d t k) = true → (t.any fun e => p e.2) = true := by
      intro t
      induction t with
      | nil => intro h; rw [tabGet, hd] at h; cases h
      | cons e t ih =>
        intro h
        rw [tabGet] at h
        split at h
        · exact List.any_eq_true.mpr ⟨e, List.mem_cons_self, h⟩
        · rw [List.any_cons, ih h, Bool.or_true]
    rw [tabPut]
    split
    · rw [List.any_cons]
      cases hp : p v with
      | false => rw [Bool.false_or]
      | true => rw [Bool.true_or, listed _ (hv ▸ hp)]
    · split
      · next hkj => subst hkj; rw [tabGet, if_pos rfl] at hv; rw [List.any_cons, List.any_cons, hv]
      · next hkj =>
        rw [tabGet, if_neg (Ne.symm hkj)] at hv
        rw [List.any_cons, List.any_cons, any_tabPut p d v k hd t hv]

/-- What decides whether banks answer: everything but the harts' registers, the caches, the queue and memory. -/
structure SameBanks (s t : State) : Prop where
  cols : t.cols = s.cols
  dev : t.fabric.dev = s.fabric.dev
  net : t.net = s.net
  here : t.curCore = s.curCore
  loaded : ∀ c, (coreAt t c).unloaded = (coreAt s c).unloaded
  banks : ∀ c, (coreAt t c).nbank = (coreAt s c).nbank
  saves : ∀ c, (coreAt t c).svctl = (coreAt s c).svctl
  gangs : ∀ c, (coreAt t c).gangSize = (coreAt s c).gangSize
  leaders : ∀ c, (coreAt t c).gangLeader = (coreAt s c).gangLeader
  moves : ∀ c, moving t c = moving s c

namespace SameBanks
variable {s t : State} (h : SameBanks s t)
include h

theorem target (a : Nat) : targetOf t a = targetOf s a := targetOf_congr s t h.dev a

theorem bankCheck (c w : Nat) : bankCheck t c w = bankCheck s c w := by
  unfold Machine.bankCheck colAt; dsimp only; rw [h.cols, h.loaded, h.banks]

theorem lineBad {a c w o : Nat} (bank : targetOf s a = .bank c w o) : lineBad t a = lineBad s a := by
  unfold Machine.lineBad
  rw [h.target, bank]
  dsimp only
  unfold colAt
  rw [h.cols, h.loaded]

theorem stopping (c : Nat) : stopping t c = stopping s c := by
  have gang : (coreAt t c).gang = (coreAt s c).gang := by unfold Core.gang; rw [h.gangs]
  have members : gangOf t c = gangOf s c := by unfold gangOf; dsimp only; rw [gang, h.leaders]
  unfold Machine.stopping saving
  rw [h.moves, members]
  simp only [h.saves]

theorem bankHeld (k a : Nat) : bankHeld t k a = bankHeld s k a := by
  unfold Machine.bankHeld
  rw [h.target]
  split
  · rw [h.stopping]
  · rfl

theorem forwarded (job : BitVec 32) : ∀ n c, forwarded t job n c = forwarded s job n c
  | 0, _ => rfl
  | n + 1, c => by
    unfold Machine.forwarded colAt
    rw [h.cols]
    split
    · exact forwarded job n _
    · rfl

theorem redirect (job : BitVec 32) (a : Nat) : redirect t job a = redirect s job a := by
  unfold Machine.redirect bankCore bankGpa mkGpa
  rw [h.target, h.dev]
  simp only [h.forwarded]

theorem bankTaken {b w : Nat} (local' : (coreAt t b).bankLocal = (coreAt s b).bankLocal) (k : Nat) : bankTaken t k b w = bankTaken s k b w := by
  unfold Machine.bankTaken
  rw [local', h.net]
  simp only [h.redirect, h.target]

theorem degradedAt (a : Nat) : degradedAt t a = degradedAt s a := by
  unfold Machine.degradedAt colAt; rw [h.cols, h.dev]

theorem inFlight (c a n : Nat) : inFlight t c a n = inFlight s c a n := by
  unfold Machine.inFlight; rw [h.net]

theorem ready {g n c w o : Nat} (r : BankReady s g n c w o) (local' : (coreAt t c).bankLocal = (coreAt s c).bankLocal)
    (beats : (me t).beats < 9) (queue : (myCore t).wq = (myCore s).wq) : BankReady t g n c w o := by
  refine ⟨(h.target g).trans r.target, (h.bankCheck c w).trans r.check, ?_, beats, ?_, (h.lineBad r.target).trans r.bad,
    (h.degradedAt g).trans r.degraded, ?_, queue ▸ r.queue⟩
  · rw [h.here, h.bankTaken local']; exact r.taken
  · rw [h.here, h.bankHeld]; exact r.held
  · rw [h.here, h.inFlight]; exact r.flight

end SameBanks

/-- A core changed in what no bank's answer rests on. -/
theorem sameBanks_updCore (s : State) (c : Nat) (f : Core → Core) (harts : ∀ q, (f q).harts = q.harts) (loaded : ∀ q, (f q).unloaded = q.unloaded)
    (banks : ∀ q, (f q).nbank = q.nbank) (saves : ∀ q, (f q).svctl = q.svctl) (gangs : ∀ q, (f q).gangSize = q.gangSize)
    (leaders : ∀ q, (f q).gangLeader = q.gangLeader) : SameBanks s (updCore s c f) := by
  have core {α : Type} (g : Core → α) (hg : ∀ q, g (f q) = g q) (j : Nat) : g (coreAt (updCore s c f) j) = g (coreAt s j) := by
    rw [coreAt_updCore]
    split
    · next hj => subst hj; exact hg _
    · rfl
  refine ⟨rfl, rfl, rfl, rfl, core _ loaded, core _ banks, core _ saves, core _ gangs, core _ leaders, fun b => ?_⟩
  unfold moving
  refine any_tabPut (fun q : Core => q.harts.toList.any fun h => h.wait == .migrate b && h.st == .parked) Core.reset _ c ?_ _ ?_
  · have none : (Hart.reset.wait == Wait.migrate b) = false := rfl
    simp [Core.reset, none]
  · show ((f _).harts.toList.any _) = _
    rw [harts]; rfl

theorem BankReady.withL0 {s : State} {g n c w o : Nat} (h : BankReady s g n c w o) (l : Tab (List (Nat × BitVec 512))) :
    BankReady (withL0 s l) g n c w o := by
  have same : SameBanks s (Machine.withL0 s l) := sameBanks_updCore s _ (fun q => { q with l0d := l })
    (fun _ => rfl) (fun _ => rfl) (fun _ => rfl) (fun _ => rfl) (fun _ => rfl) (fun _ => rfl)
  exact same.ready h (congrArg Core.bankLocal (coreAt_withL0 s l c) :) ((sameHart_withL0 s l).hart ▸ h.beats)
    (congrArg Core.wq (coreAt_withL0 s l s.curCore) :)

theorem sameBanks_takeBank (s : State) (k c w : Nat) : SameBanks s (takeBank k c w s) :=
  sameBanks_updCore s _ _ (fun _ => rfl) (fun _ => rfl) (fun _ => rfl) (fun _ => rfl) (fun _ => rfl) (fun _ => rfl)

/-- An operation at a bank that answers. -/
theorem ownerModify_bank {s : State} {g n c w o : Nat} {op : AmOp} {x e : BitVec 64} (target : targetOf s g = .bank c w o)
    (bad : lineBad s g = false) (check : bankCheck s c w = none) :
    ownerModify false op g n x e s = (some (BitVec.ofNat 64 (memRead s.mem g n)),
      { s with mem := memWrite s.mem g n (amResult op n (BitVec.ofNat 64 (memRead s.mem g n)) x e).toNat }) := by
  simp only [ownerModify, target, bad, check, Option.isSome_none, Bool.or_self, Bool.false_eq_true, if_false]

/-- The issuing core drops the line of an atomic from its L0 data cache (R257). -/
def atomicStart (s : State) (a : Nat) : State := withL0 s (l0Drop (myCore s).l0d (l0dSet (a / 64)) (a / 64))

/-- The machine after an atomic has been performed at a bank. -/
def atomicAtBank (s : State) (op : AmOp) (a n c w : Nat) (x e : BitVec 64) : State :=
  let v := takeBank s.curCore c w (atomicStart s a)
  { v with mem := memWrite v.mem a n (amResult op n (BitVec.ofNat 64 (memRead v.mem a n)) x e).toNat }

theorem sameHart_atomicStart (s : State) (a : Nat) : SameHart s (atomicStart s a) := sameHart_withL0 s _

theorem othersKept_atomicStart (s : State) (a : Nat) : OthersKept s (atomicStart s a) := by
  refine ⟨fun k _ => ?_, fun c hc => coreAt_updCore_ne _ _ _ _ hc⟩
  exact (congrArg (fun q : Core => q.harts.get k) (coreAt_withL0 s (l0Drop (myCore s).l0d (l0dSet (a / 64)) (a / 64)) s.curCore) :)

/-- The packet of an atomic that goes to its home. -/
def atomicPkt (s : State) (op : AmOp) (n : Nat) (x e : BitVec 64) (d : BitVec 5) (a : Nat) (va : BitVec 64) (cls : Nat) : Pkt :=
  { newPkt s (.am op n x e d) a va (startLoc s s.curCore a) with wants := true, comb := op == .add, coh := ownCoherent s a cls }

/-- A write that leaves, is acknowledged at once and has failed (R73). -/
def Hart.refusedWrite (d : Dest) (now : Nat) (va : BitVec 64) (id : Nat) (h : Hart) : Hart := ((h.leave d).acked d now).failed va id

section
variable {s u : State} {op : AmOp} {n g a cls : Nat} {x va : BitVec 64} {d : BitVec 5}

theorem amRefused_bank {c w o : Nat} (h : BankReady u a n c w o) : amRefused u a = false := by
  simp [amRefused, h.degraded, regionOf, h.target]

theorem amInstr_bank {c w o : Nat} (access : accessAt needAm n va s = .ok (g, cls) u) (watched : watchFor true true va u = .ok () u)
    (place : redirect u (myCore u).job g = a) (ready : BankReady u a n c w o) :
    amInstr op n x va d s =
      .ok () (done4 d (amWriteBack op n (BitVec.ofNat 64 (memRead u.mem a n))) (atomicAtBank u op a n c w x (gr u d))) := by
  have start : BankReady (atomicStart u a) a n c w o := ready.withL0 _
  have taken := sameBanks_takeBank (atomicStart u a) u.curCore c w
  have modified := ownerModify_bank (n := n) (op := op) (x := x) (e := gr u d) ((taken.target a).trans start.target)
    ((taken.lineBad start.target).trans start.bad) ((taken.bankCheck c w).trans start.check)
  have begun : updMyCore u (fun q => { q with l0d := l0Drop q.l0d (l0dSet (a / 64)) (a / 64) }) = atomicStart u a := rfl
  have quiet : mayReach (atomicStart u a) (colOf u.curCore) a 1 = true := by rw [mayReach, start.target]
  have takes : noAtomic (atomicStart u a) a = false := by simp [noAtomic, regionOf, start.target]
  have flight : inFlight (atomicStart u a) u.curCore a n = false := start.flight
  have held : bankHeld (atomicStart u a) u.curCore a = false := start.held
  have free : bankTaken (atomicStart u a) u.curCore c w = false := start.taken
  unfold amInstr
  rw [access]
  simp only [Res.andThen, place, need, amRefused_bank ready, Bool.not_false, if_true, watched, begun, start.target, quiet, takes, flight,
    start.queue, Bool.not_true, Bool.false_eq_true, if_false, Bool.or_self, start.check, held, free, if_neg (Nat.not_le.mpr start.beats), modified]
  rfl

theorem amInstr_dram {col : Fin 8} {off : Nat} (access : accessAt needAm n va s = .ok (g, cls) u) (watched : watchFor true true va u = .ok () u)
    (place : redirect u (myCore u).job g = a) (ready : DramReady u a n col off) (split : u.split = true) :
    let v := atomicStart u a
    amInstr op n x va d s = .hold (sentAndWaits v (atomicPkt v op n x (gr u d) d a va cls) fun h => h.leave (destOf v u.curCore a)) := by
  have target : targetOf (atomicStart u a) a = .dram col off := ready.target
  have begun : updMyCore u (fun q => { q with l0d := l0Drop q.l0d (l0dSet (a / 64)) (a / 64) }) = atomicStart u a := rfl
  have quiet : mayReach (atomicStart u a) (colOf u.curCore) a 1 = true := by rw [mayReach, target]
  have takes : noAtomic (atomicStart u a) a = false := by simp [noAtomic, regionOf, target]
  have refused : amRefused u a = false := by simp [amRefused, ready.degraded, regionOf, ready.target]
  have flight : inFlight (atomicStart u a) u.curCore a n = false := ready.flight
  have queue : ((myCore (atomicStart u a)).wq.any fun e => meets e.gpa e.n a n) = false := by
    rw [show (myCore (atomicStart u a)).wq = (myCore u).wq from (congrArg Core.wq (coreAt_withL0 u _ u.curCore) :)]; exact ready.queue
  have travels : (atomicStart u a).split = true := split
  unfold amInstr
  rw [access]
  simp only [Res.andThen, place, need, refused, Bool.not_false, if_true, watched, begun, target, quiet, takes, flight, queue, Bool.not_true,
    Bool.false_eq_true, if_false, Bool.or_self, travels, atomicPkt, ownCoherent, ready.target]
  rfl

theorem amInstr_noAtomic (access : accessAt needAm n va s = .ok (g, cls) u) (watched : watchFor true true va u = .ok () u)
    (place : redirect u (myCore u).job g = a) (refused : amRefused u a = false) (none : noAtomic u a = true)
    (allowed : mayReach u (colOf u.curCore) a 1 = true) (route : ∀ v, targetOf u a = .device v → routeUp u (colOf u.curCore) v = true) :
    let v := atomicStart u a
    let dst := destOf v u.curCore a
    amInstr op n x va d s = .ok () (done4 d 0 (updMe (reach (colOf u.curCore) a 1 v) (Hart.refusedWrite dst v.clock va v.nextId))) := by
  have begun : updMyCore u (fun q => { q with l0d := l0Drop q.l0d (l0dSet (a / 64)) (a / 64) }) = atomicStart u a := rfl
  have quiet : mayReach (atomicStart u a) (colOf u.curCore) a 1 = true := allowed
  have takes : noAtomic (atomicStart u a) a = true := none
  have route' : ∀ v, targetOf (atomicStart u a) a = .device v → routeUp (atomicStart u a) (colOf u.curCore) v = true := route
  unfold amInstr
  rw [access]
  simp only [Res.andThen, place, need, refused, Bool.not_false, if_true, watched, begun]
  split
  · next dev hv =>
    simp only [route' dev hv, quiet, takes, Bool.not_true, Bool.false_eq_true, if_false, if_true]
    rfl
  · simp only [quiet, takes, Bool.not_true, Bool.false_eq_true, if_false, if_true]
    rfl

theorem amInstr_refused (access : accessAt needAm n va s = .ok (g, cls) u) (place : redirect u (myCore u).job g = a)
    (refused : amRefused u a = true) : amInstr op n x va d s = .trap .busFault va u := by
  unfold amInstr
  rw [access]
  simp only [Res.andThen, place, need, refused, Bool.not_true, Bool.false_eq_true, if_false]

end

/-! ## What an atomic leaves as it was -/

/-- A core without its L0 data cache and the turns of its banks. -/
def Core.sansLines (q : Core) : Core := { q.kept with l0d := [], bankLocal := [] }

theorem sansLines_of_kept {q r : Core} (h : q.kept = r.kept) : q.sansLines = r.sansLines := by unfold Core.sansLines; rw [h]

theorem coreAt_atomicAtBank (s : State) (op : AmOp) (a n c w j : Nat) (x e : BitVec 64) :
    { coreAt (atomicAtBank s op a n c w x e) j with l0d := [], bankLocal := [] } = { coreAt s j with l0d := [], bankLocal := [] } :=
  (congrArg (fun q : Core => { q with l0d := [] }) (coreAt_takeBank (atomicStart s a) s.curCore c w j) :).trans
    (congrArg (fun q : Core => { q with bankLocal := [] }) (coreAt_withL0 s _ j) :)

theorem coreAt_atomicAtBank_ne {s : State} {op : AmOp} {a n c w j : Nat} {x e : BitVec 64} (h : j ≠ s.curCore.val) :
    { coreAt (atomicAtBank s op a n c w x e) j with bankLocal := [] } = { coreAt s j with bankLocal := [] } :=
  (coreAt_takeBank (atomicStart s a) s.curCore c w j).trans
    (congrArg (fun q : Core => { q with bankLocal := [] }) (coreAt_updCore_ne s _ _ _ h))

theorem sameHart_atomicAtBank (s : State) (op : AmOp) (a n c w : Nat) (x e : BitVec 64) : SameHart s (atomicAtBank s op a n c w x e) :=
  ⟨rfl, rfl, (congrArg (fun q : Core => q.harts.get s.curSlot) (coreAt_atomicAtBank s op a n c w s.curCore x e) :),
    (congrArg Core.instret (coreAt_atomicAtBank s op a n c w s.curCore x e) :)⟩

theorem othersButBanks_atomicAtBank {s t : State} {op : AmOp} {a n c w : Nat} {x e : BitVec 64}
    (h : OthersKept (atomicAtBank s op a n c w x e) t) : OthersButBanks s t :=
  ⟨fun k hk => (h.slots k hk).trans (congrArg (fun q : Core => q.harts.get k) (coreAt_atomicAtBank s op a n c w s.curCore x e) :),
    fun j hj => (congrArg (fun q : Core => { q with bankLocal := [] }) (h.cores j hj)).trans (coreAt_atomicAtBank_ne hj)⟩

/-- The word after an operation at the owner (R256). -/
theorem stored_of_amResult {s t : State} {op : AmOp} {n a : Nat} {x e : BitVec 64} (hn : n = 4 ∨ n = 8) (ok : s.memOk)
    (mem : ∀ b, byteAt t b = memGet (memWrite s.mem a n (amResult op n (BitVec.ofNat 64 (memRead s.mem a n)) x e).toNat) b) :
    Stored s t a n (newValue op n (memRead s.mem a n) x.toNat e.toNat) := by
  have below : memRead s.mem a n < 2 ^ (8 * n) := by rw [Nat.pow_mul]; exact memRead_lt _ _ _
  refine ⟨fun k hk => ?_, fun b hb => ?_⟩
  · rw [mem, memGet_memWrite_inside _ _ _ _ _ ok hk]
    exact byte_of_mod (amResult_toNat hn _ below x e) hk
  · rw [mem]; exact memGet_memWrite_outside _ _ _ _ _ ok hb

theorem leave_g (h : Hart) (d : Dest) : (h.leave d).g = h.g := by
  cases d with
  | fabric v => simp only [Hart.leave]; split <;> [rfl; (split <;> rfl)]
  | _ => rfl
theorem gr_congr {h k : Hart} (e : h.g = k.g) (r : BitVec 5) : h.gr r = k.gr r := by unfold Hart.gr; rw [e]
theorem leave_gr (h : Hart) (d : Dest) (r : BitVec 5) : (h.leave d).gr r = h.gr r := gr_congr (leave_g h d) r
theorem leave_pc (h : Hart) (d : Dest) : (h.leave d).pc = h.pc := by
  cases d with
  | fabric v => simp only [Hart.leave]; split <;> [rfl; (split <;> rfl)]
  | _ => rfl
theorem leave_st (h : Hart) (d : Dest) : (h.leave d).st = h.st := by
  cases d with
  | fabric v => simp only [Hart.leave]; split <;> [rfl; (split <;> rfl)]
  | _ => rfl
theorem leave_errAck (h : Hart) (d : Dest) : (h.leave d).errAck = h.errAck := by
  cases d with
  | fabric v => simp only [Hart.leave]; split <;> [rfl; (split <;> rfl)]
  | _ => rfl

theorem acked_rest (h : Hart) (d : Dest) (now : Nat) :
    (h.acked d now).g = h.g ∧ (h.acked d now).pc = h.pc ∧ (h.acked d now).st = h.st ∧ (h.acked d now).errAck = h.errAck := by
  cases d <;> exact ⟨rfl, rfl, rfl, rfl⟩

theorem failed_rest (h : Hart) (va : BitVec 64) (id : Nat) :
    (h.failed va id).g = h.g ∧ (h.failed va id).pc = h.pc ∧ (h.failed va id).st = h.st := by
  unfold Hart.failed; split <;> exact ⟨rfl, rfl, rfl⟩

theorem refusedWrite_rest (d : Dest) (now : Nat) (va : BitVec 64) (id : Nat) (h : Hart) :
    (h.refusedWrite d now va id).g = h.g ∧ (h.refusedWrite d now va id).pc = h.pc ∧ (h.refusedWrite d now va id).st = h.st := by
  obtain ⟨g, pc, st⟩ := failed_rest ((h.leave d).acked d now) va id
  obtain ⟨g', pc', st', -⟩ := acked_rest (h.leave d) d now
  exact ⟨(g.trans g').trans (leave_g h d), (pc.trans pc').trans (leave_pc h d), (st.trans st').trans (leave_st h d)⟩

theorem refusedWrite_errAck (d : Dest) (now : Nat) (va : BitVec 64) (id : Nat) (h : Hart) :
    (h.refusedWrite d now va id).errAck.isSome = true ∧ (h.errAck = none → (h.refusedWrite d now va id).errAck = some va) := by
  have same : ((h.leave d).acked d now).errAck = h.errAck := (acked_rest _ d now).2.2.2.trans (leave_errAck h d)
  unfold Hart.refusedWrite Hart.failed
  rw [same]
  split
  · exact ⟨rfl, fun _ => rfl⟩
  · next later =>
    rw [Bool.or_eq_true, not_or, Option.isNone_iff_eq_none] at later
    refine ⟨?_, fun none => absurd none later.1⟩
    rw [same]; exact Option.isSome_iff_ne_none.mpr later.1

/-- A request that goes out changes the same outside the cores, whatever the L0 holds. -/
theorem kept_reach_withL0 (s : State) (l : Tab (List (Nat × BitVec 512))) (c : Fin 8) (a n : Nat) :
    (reach c a n (withL0 s l)).kept = (reach c a n s).kept := by
  unfold reach useAllowances
  rw [show targetOf (withL0 s l) a = targetOf s a from rfl]
  split
  · rw [show portFor (withL0 s l) c _ = portFor s c _ from rfl]
    split <;> rfl
  · rfl

theorem coreAt_reach (s : State) (c : Fin 8) (a n j : Nat) : coreAt (reach c a n s) j = coreAt s j := by
  obtain ⟨f, hf⟩ := reach_fabric s c a n
  rw [hf]; rfl

theorem reach_mem (s : State) (c : Fin 8) (a n : Nat) : (reach c a n s).mem = s.mem := by
  obtain ⟨f, hf⟩ := reach_fabric s c a n
  rw [hf]

theorem sameHart_reach (s : State) (c : Fin 8) (a n : Nat) : SameHart s (reach c a n s) := (touched_reach c a n s).sameHart

/-- A target that takes no atomic is no bank. -/
theorem performedAt_noAtomic {s : State} {g : Nat} (h : noAtomic s g = true) : performedAt s g = g := by
  unfold performedAt redirect
  split
  · next c w o ht => simp [noAtomic, regionOf, ht] at h
  · rfl

theorem noAtomic_translated (s : State) (r : BitVec 5) (va : BitVec 64) (g : Nat) : noAtomic (translated s r va) g = noAtomic s g := by
  unfold noAtomic regionOf; rw [targetOf_translated]

/-! ## Full/empty words (R121, R259) -/

theorem retire_updMe {s w : State} (same : SameHart s w) (f : Hart → Hart) (pc : (f (me s)).pc = (me s).pc) (st : (f (me s)).st = (me s).st)
    (regs : ∀ r, (f (me s)).gr r = (me s).gr r) (len : BitVec 48) :
    let t := retire len (updMe w f)
    GoesOn s t ((me s).pc + len) ∧ (∀ r, gr t r = gr s r) ∧ (me t).kept = (f (me s)).kept ∧ RestKept w t := by
  have next : (me (updMe w f)).pc = (me s).pc := by rw [me_updMe, same.hart, pc]
  intro t
  have ht : t = retireAt ((me s).pc + len) (updMe w f) := by rw [← next]; rfl
  rw [ht]
  refine ⟨same.goesOn (goesOn_retireAt_updMe _ w f (by rw [same.hart, st])), fun r => ?_, ?_, restKept_retireAt_updMe _ w f⟩
  · simp only [gr, me_retireAt, gr_retired, me_updMe, same.hart, regs]
  · simp only [me_retireAt, kept_retired, me_updMe, same.hart]

/-- What an instruction of the issuing hart leaves of every core. -/
theorem RestKept.coreAt {s t : State} (h : RestKept s t) (here : t.curCore = s.curCore) (j : Nat) :
    (coreAt t j).kept = (coreAt s j).kept := by
  by_cases hj : j = s.curCore
  · subst hj
    have core := h.core
    rw [myCore, here] at core
    exact core
  · rw [h.others.cores j hj]

theorem andThen_ok (r : Res Unit) : (r.andThen fun _ s => .ok () s) = r := by cases r <;> rfl

theorem watchHit_of_ok {wr : Bool} {va : BitVec 64} {s t : State} (h : watch wr va s = .ok () t) : watchHit s s.curCore wr va.toNat = none := by
  unfold watch at h
  split at h
  · assumption
  · cases h
  · cases h

/-- Passing the watch regions rests on the issuing core's own registers. -/
theorem watchFor_of_same {u v : State} {load : Bool} {va : BitVec 64} (places : (myCore v).dbpa = (myCore u).dbpa)
    (kinds : (myCore v).dbpc = (myCore u).dbpc) (h : watchFor load (!load) va u = .ok () u) : watchFor load (!load) va v = .ok () v := by
  have hit (wr : Bool) : watchHit v v.curCore wr va.toNat = watchHit u u.curCore wr va.toNat := by
    unfold watchHit
    simp only [show (Machine.coreAt v v.curCore).dbpc = _ from kinds, show (Machine.coreAt v v.curCore).dbpa = _ from places]
    rfl
  cases load with
  | false =>
    have none : watchHit u u.curCore true va.toNat = none := watchHit_of_ok h
    simp [watchFor, watch, Res.andThen, hit, none]
  | true =>
    have none : watchHit u u.curCore false va.toNat = none := watchHit_of_ok ((andThen_ok _).symm.trans h)
    simp [watchFor, watch, Res.andThen, hit, none]

/-! The machine after a full/empty operation, in its three steps. -/

/-- The bank has taken the access, and a store has written the word. -/
def feAccessed (s : State) (load : Bool) (a c w : Nat) (x : BitVec 64) : State :=
  let v := takeBank s.curCore c w s
  if load then v else { v with mem := memWrite v.mem a 8 x.toNat }

/-- The word's bit has changed. -/
def feMarked (s : State) (load : Bool) (a c w : Nat) (x : BitVec 64) : State := fePut a (!load) (feAccessed s load a c w x)

/-- The hart's count is cleared, gd written by a load, and the hart goes on. -/
def feRetired (s : State) (load : Bool) (a c w : Nat) (x : BitVec 64) (d : BitVec 5) : State :=
  let y := updMe (feMarked s load a c w x) fun h => { h with feCount := 0 }
  retire 4 (if load then setG y d (BitVec.ofNat 64 (memRead s.mem a 8)) else y)

section
variable {s : State} {load : Bool} {a c w o : Nat} {x : BitVec 64} {d : BitVec 5}

theorem feMarked_eq (target : targetOf s a = .bank c w o) :
    feMarked s load a c w x = updCore (feAccessed s load a c w x) c fun q => { q with full := tabPut q.full (fullKey w o) (!load) } := by
  have target' : targetOf (feAccessed s load a c w x) a = .bank c w o := by unfold feAccessed; cases load <;> exact target
  simp only [feMarked, fePut, target']

theorem coreAt_feAccessed (j : Nat) : { coreAt (feAccessed s load a c w x) j with bankLocal := [] } = { coreAt s j with bankLocal := [] } := by
  refine Eq.trans ?_ (coreAt_takeBank s s.curCore c w j)
  unfold feAccessed
  cases load <;> rfl

theorem sameHart_feAccessed : SameHart s (feAccessed s load a c w x) := by
  refine (sameHart_takeBank s s.curCore c w).trans ?_
  unfold feAccessed
  cases load <;> exact ⟨rfl, rfl, rfl, rfl⟩

/-- A part of a core that no bank access changes. -/
theorem coreAt_feMarked {α : Type} (target : targetOf s a = .bank c w o) (f : Core → α) (hf : ∀ q, f q = f { q with full := [], bankLocal := [] })
    (j : Nat) : f (coreAt (feMarked s load a c w x) j) = f (coreAt s j) := by
  have accessed : f (coreAt (feAccessed s load a c w x) j) = f (coreAt s j) := by
    rw [hf, hf (coreAt s j)]
    exact congrArg (fun q : Core => f { q with full := [] }) (coreAt_feAccessed j)
  rw [feMarked_eq target, coreAt_updCore]
  split
  · next hj => subst hj; rw [← accessed, hf, hf (coreAt (feAccessed _ _ _ _ _ _) _)]
  · exact accessed

theorem sameHart_feMarked (target : targetOf s a = .bank c w o) : SameHart s (feMarked s load a c w x) := by
  have rest : (feMarked s load a c w x).curCore = s.curCore ∧ (feMarked s load a c w x).curSlot = s.curSlot := by
    rw [feMarked_eq target]; exact ⟨sameHart_feAccessed.core, sameHart_feAccessed.slot⟩
  refine ⟨rest.1, rest.2, ?_, ?_⟩
  · rw [me, rest.1, rest.2]; exact coreAt_feMarked target (fun q => q.harts.get s.curSlot) (fun _ => rfl) _
  · rw [myCore, rest.1]; exact coreAt_feMarked target Core.instret (fun _ => rfl) _

/-- The bits of the words after the operation. -/
theorem full_feMarked (target : targetOf s a = .bank c w o) (j : Nat) :
    (coreAt (feMarked s load a c w x) j).full = if j = c then tabPut (coreAt s c).full (fullKey w o) (!load) else (coreAt s j).full := by
  have accessed (j : Nat) : (coreAt (feAccessed s load a c w x) j).full = (coreAt s j).full := (congrArg Core.full (coreAt_feAccessed j) :)
  rw [feMarked_eq target, coreAt_updCore]
  split
  · dsimp only; rw [accessed]
  · exact accessed j

theorem mem_feMarked (target : targetOf s a = .bank c w o) :
    (feMarked s load a c w x).mem = if load then s.mem else memWrite s.mem a 8 x.toNat := by
  rw [feMarked_eq target, updCore_mem]
  unfold feAccessed
  cases load <;> rfl

/-- A full/empty operation on a bank word whose bit is as it needs. -/
theorem fullEmpty_performs {g cls : Nat} {va word : BitVec 64} {u : State}
    (access : accessAt (if load then needRdWr else needWr) 8 va s = .ok (g, cls) u) (watched : watchFor load (!load) va u = .ok () u)
    (place : redirect u (myCore u).job g = a) (ready : BankReady u a 8 c w o) (bit : tabGet false (coreAt u c).full (fullKey w o) = load)
    (room : load = true ∨ (myCore u).wq.length < 32) :
    fullEmpty load x va d word s = .ok () (wakeWaiters a (feRetired u load a c w x d)) := by
  have taken := sameBanks_takeBank u u.curCore c w
  have passed : watchFor load (!load) va (takeBank u.curCore c w u) = .ok () (takeBank u.curCore c w u) :=
    watchFor_of_same (myCore_takeBank Core.dbpa (fun _ => rfl) u _ c w) (myCore_takeBank Core.dbpc (fun _ => rfl) u _ c w) watched
  have target : targetOf (takeBank u.curCore c w u) a = .bank c w o := ready.target
  have held : bankHeld (takeBank u.curCore c w u) (takeBank u.curCore c w u).curCore a = false := (taken.bankHeld _ a).trans ready.held
  have flight : inFlight (takeBank u.curCore c w u) (takeBank u.curCore c w u).curCore a 8 = false := ready.flight
  have wq : (myCore (takeBank u.curCore c w u)).wq = (myCore u).wq := myCore_takeBank Core.wq (fun _ => rfl) u _ c w
  have full : feBit (takeBank u.curCore c w u) a = load := by
    simp only [feBit, target]
    rw [show (coreAt (takeBank u.curCore c w u) c).full = (coreAt u c).full from (congrArg Core.full (coreAt_takeBank u _ c w c) :)]
    exact bit
  have space : (!load && decide (32 ≤ (myCore u).wq.length)) = false := by
    obtain rfl | h := room
    · rfl
    · simp [h]
  have at_bank : feAtBank load x va d word a (takeBank u.curCore c w u) = .ok () (wakeWaiters a (feRetired u load a c w x d)) := by
    unfold feAtBank
    rw [passed]
    simp only [Res.andThen, held, flight, wq, ready.queue, space, Bool.or_self, Bool.false_eq_true, if_false, full, if_true]
    cases load with
    | true =>
      have bank : destOf (takeBank u.curCore c w u) (takeBank u.curCore c w u).curCore a = .bank := by simp only [destOf, target]
      simp only [if_true, bank]
      rfl
    | false =>
      have bank : destOf { takeBank u.curCore c w u with mem := memWrite (takeBank u.curCore c w u).mem a 8 x.toNat }
          (takeBank u.curCore c w u).curCore a = .bank := by
        simp only [destOf, show targetOf { takeBank u.curCore c w u with mem := memWrite (takeBank u.curCore c w u).mem a 8 x.toNat } a = _ from target]
      simp only [Bool.false_eq_true, if_false, bank]
      rfl
  unfold fullEmpty
  rw [access]
  simp only [Res.andThen, place, if_neg (Nat.not_le.mpr ready.beats), ready.target, ready.bad, Bool.false_eq_true, if_false, ready.check, ready.taken,
    at_bank]

/-- No hart waits for a word of the way: the change of the bit wakes nobody. -/
theorem wakeWaiters_none {t : State} (target : targetOf t a = .bank c w o) (none : tabGet [] (coreAt t c).waiters w = []) :
    wakeWaiters a t = putWaiters a [] t := by
  have waiters : feWaiters t a = [] := by simp only [feWaiters, target]; exact none
  simp only [wakeWaiters, waiters, List.filter_nil, List.foldl_nil]

theorem coreAt_putWaiters (t : State) (l : List Waiter) (target : targetOf t a = .bank c w o) (j : Nat) :
    { coreAt (putWaiters a l t) j with waiters := [] } = { coreAt t j with waiters := [] } := by
  simp only [putWaiters, target, coreAt_updCore]
  split
  · next hj => subst hj; rfl
  · rfl

theorem putWaiters_rest (t : State) (l : List Waiter) (target : targetOf t a = .bank c w o) :
    (putWaiters a l t).mem = t.mem ∧ (putWaiters a l t).kept = t.kept ∧ SameHart t (putWaiters a l t) := by
  have core := coreAt_putWaiters t l target
  simp only [putWaiters, target] at core ⊢
  exact ⟨rfl, rfl, rfl, rfl, (congrArg (fun q : Core => q.harts.get t.curSlot) (core t.curCore) :), (congrArg Core.instret (core t.curCore) :)⟩

/-- What retiring does after the operation: gd, and everything else as the bit's change leaves it. -/
theorem feRetired_spec {s₀ : State} (same : SameHart s₀ s) (target : targetOf s a = .bank c w o) :
    let t := feRetired s load a c w x d
    GoesOn s₀ t ((me s₀).pc + 4) ∧ (load = true → Wrote s₀ t d (BitVec.ofNat 64 (memRead s.mem a 8))) ∧ (load = false → ∀ r, gr t r = gr s₀ r) ∧
      (me t).kept = { (me s₀).kept with feCount := 0 } ∧ RestKept (feMarked s load a c w x) t := by
  have marked := same.trans (sameHart_feMarked (load := load) (x := x) target)
  cases load with
  | true =>
    obtain ⟨goes, wrote, kept, rest⟩ := retire_setG_updMe marked (fun h => { h with feCount := 0 }) rfl rfl (fun _ => rfl) 4 d
      (BitVec.ofNat 64 (memRead s.mem a 8))
    exact ⟨goes, fun _ => wrote, fun h => absurd h (by decide), kept, rest⟩
  | false =>
    obtain ⟨goes, regs, kept, rest⟩ := retire_updMe marked (fun h => { h with feCount := 0 }) rfl rfl (fun _ => rfl) 4
    exact ⟨goes, fun h => absurd h (by decide), fun _ => regs, kept, rest⟩

theorem GoesOn.of_same {s₀ z t : State} {p : BitVec 48} (h : GoesOn s₀ z p) (same : SameHart z t) : GoesOn s₀ t p :=
  ⟨(congrArg Hart.pc same.hart).trans h.pc, fun hr => (congrArg Hart.st same.hart).trans (h.ready hr), same.count.trans h.count⟩

theorem SameHart.gr {z t : State} (same : SameHart z t) (r : BitVec 5) : gr t r = gr z r := by unfold Machine.gr; rw [same.hart]

theorem Wrote.of_same {s₀ z t : State} {d : BitVec 5} {v : BitVec 64} (h : Wrote s₀ z d v) (same : SameHart z t) : Wrote s₀ t d v :=
  ⟨(same.gr d).trans h.dest, fun r hr => (same.gr r).trans (h.rest r hr)⟩

theorem kept_feMarked (target : targetOf s a = .bank c w o) : { (feMarked s load a c w x).kept with mem := [] } = { s.kept with mem := [] } := by
  rw [feMarked_eq target]
  unfold feAccessed
  cases load <;> rfl

theorem kept_of_mem {s t : State} (h : { t.kept with mem := [] } = { s.kept with mem := [] }) (mem : t.mem = s.mem) : t.kept = s.kept := by
  have all (y : State) : y.kept = { { y.kept with mem := [] } with mem := y.mem } := rfl
  rw [all t, h, mem, ← all s]

/-- What a full/empty operation that is performed leaves: the hart, the words' bits, memory, and the machine. -/
theorem fullEmpty_spec {s₀ : State} (same : SameHart s₀ s) (target : targetOf s a = .bank c w o) (none : tabGet [] (coreAt s c).waiters w = []) :
    let t := wakeWaiters a (feRetired s load a c w x d)
    GoesOn s₀ t ((me s₀).pc + 4) ∧ (load = true → Wrote s₀ t d (BitVec.ofNat 64 (memRead s.mem a 8))) ∧ (load = false → ∀ r, gr t r = gr s₀ r) ∧
      (me t).kept = { (me s₀).kept with feCount := 0 } ∧
      (∀ j, (coreAt t j).full = if j = c then tabPut (coreAt s c).full (fullKey w o) (!load) else (coreAt s j).full) ∧
      t.mem = (if load then s.mem else memWrite s.mem a 8 x.toNat) ∧ { t.kept with mem := [] } = { s.kept with mem := [] } := by
  intro t
  obtain ⟨goes, wrote, regs, kept, rest⟩ := feRetired_spec (load := load) (x := x) (d := d) same target
  have here : (feRetired s load a c w x d).curCore = (feMarked s load a c w x).curCore := (congrArg State.curCore rest.machine :)
  have machine : { (feRetired s load a c w x d).kept with mem := [] } = { s.kept with mem := [] } :=
    (congrArg (fun y : State => { y with mem := [] }) rest.machine :).trans (kept_feMarked target)
  have target' : targetOf (feRetired s load a c w x d) a = .bank c w o :=
    (targetOf_congr _ _ (congrArg (fun y : State => y.fabric.dev) machine :) a).trans target
  have core (j : Nat) : (coreAt (feRetired s load a c w x d) j).kept = (coreAt (feMarked s load a c w x) j).kept := rest.coreAt here j
  have waiters : (coreAt (feRetired s load a c w x d) c).waiters = (coreAt s c).waiters :=
    (congrArg Core.waiters (core c) :).trans (coreAt_feMarked target Core.waiters (fun _ => rfl) c)
  have ht : t = putWaiters a [] (feRetired s load a c w x d) := wakeWaiters_none target' (by rw [waiters]; exact none)
  obtain ⟨mem, keptT, sameT⟩ := putWaiters_rest (feRetired s load a c w x d) [] target'
  rw [ht]
  refine ⟨goes.of_same sameT, fun h => (wrote h).of_same sameT, fun h r => (sameT.gr r).trans (regs h r), (congrArg Hart.kept sameT.hart).trans kept,
    fun j => ?_, ?_, (congrArg (fun y : State => { y with mem := [] }) keptT).trans machine⟩
  · exact (congrArg Core.full (coreAt_putWaiters _ _ target' j) :).trans ((congrArg Core.full (core j) :).trans (full_feMarked target j))
  · exact mem.trans ((congrArg State.mem rest.machine :).trans (mem_feMarked target))

end

/-! ## Mailboxes (R85, R260) -/

/-- A hart with an event of R269 latched. -/
def Hart.noted (bit : BitVec 4) (h : Hart) : Hart :=
  if h.wait = .park then { h with latch := h.latch ||| bit }.wake else { h with latch := h.latch ||| bit }

theorem noteEvent_eq (c : Nat) (bit : BitVec 4) (s : State) : noteEvent c bit s = updCore s c fun q => q.mapHarts fun _ h => h.noted bit := rfl

theorem hartAt_noteEvent (c : Nat) (bit : BitVec 4) (s : State) (k : Fin 8) : hartAt (noteEvent c bit s) c k = (hartAt s c k).noted bit := by
  rw [noteEvent_eq, hartAt, coreAt_updCore_self]
  exact Vector.getElem_ofFn k.isLt

theorem wake_wait (h : Hart) : h.wake.wait = h.wait := by
  unfold Hart.wake
  split
  · rfl
  · rfl
  · split <;> rfl
  · split <;> rfl
  · rfl

/-- An event wakes nobody who waits at a mailbox. -/
theorem mbWaits_noted (bit : BitVec 4) (h : Hart) (n : Nat) (wait : mbWaits h n = false) : mbWaits (h.noted bit) n = false := by
  unfold Hart.noted
  split
  · next park =>
    unfold mbWaits
    rw [wake_wait, show ({ h with latch := h.latch ||| bit } : Hart).wait = h.wait from rfl, park]
    exact Bool.and_false _
  · exact wait

theorem mbMatches_false {full : Bool} {h : Hart} {n : Nat} (wait : mbWaits h n = false) : mbMatches full h n = false := by
  unfold mbMatches; rw [wait]; rfl

theorem longest_none {s : State} {c : Nat} {p : Hart → Bool} (nobody : ∀ k, p (hartAt s c k) = false) : longest s c p = none := by
  unfold longest
  refine List.foldl_fixed' (fun k => ?_) _
  rw [nobody k]
  rfl

/-- A change of a mailbox at which no hart waits only latches the event. -/
theorem mbChange_unwaited {c n f : Nat} {s : State} (nobody : ∀ k, mbWaits (hartAt s c k) n = false) : mbChange c n (f + 1) s = noteEvent c 2 s := by
  have quiet (k : Fin 8) : mbWaits (hartAt (noteEvent c 2 s) c k) n = false := by
    rw [hartAt_noteEvent]; exact mbWaits_noted _ _ _ (nobody k)
  have unmatched : longest (noteEvent c 2 s) c (fun h => mbMatches ((coreAt (noteEvent c 2 s) c).mbFull.getLsbD n) h n) = none :=
    longest_none (p := fun h => mbMatches _ h n) fun k => mbMatches_false (quiet k)
  have counted : (List.finRange 8).foldl (fun s k =>
      if some k ≠ none ∧ mbWaits (hartAt s c k) n then countRetry c k (BitVec.ofNat 64 n) id s else s) (noteEvent c 2 s) = noteEvent c 2 s := by
    refine List.foldl_fixed' (fun k => if_neg ?_) _
    rw [quiet]
    exact fun h => Bool.false_ne_true h.2
  unfold mbChange
  simp only [unmatched, counted]

theorem settled_of_fenced {s : State} (h : Fenced s) (k : State → Res Unit) : settled s k = k s := by
  unfold settled
  refine if_neg fun wait => ?_
  rw [Bool.and_eq_true, Bool.not_eq_true'] at wait
  exact absurd (h wait.1) (by rw [wait.2]; decide)

theorem vget_eq {n : Nat} (v : Vector (BitVec 64) n) {i : Nat} (h : i < n) : vget v i = v[i] := by
  simp [vget, h]

theorem vget_vput_self {n : Nat} (v : Vector (BitVec 64) n) {i : Nat} (x : BitVec 64) (h : i < n) : vget (vput v i x) i = x := by
  rw [vget_eq _ h, vput]; simp [h]

theorem vget_vput_ne {n : Nat} (v : Vector (BitVec 64) n) {i j : Nat} (x : BitVec 64) (h : j ≠ i) : vget (vput v i x) j = vget v j := by
  unfold vput
  split
  · simp [vget, List.getD_eq_getElem?_getD, Vector.getElem?_set_ne _ (Ne.symm h)]
  · rfl

/-- Writing a mailbox: its value and bit, and the others. -/
theorem setMb_spec (q : Core) {n : Nat} (v : BitVec 64) (full : Bool) (hn : n < 8) :
    vget (setMb q n v full).mb n = v ∧ (setMb q n v full).mbFull.getLsbD n = full ∧
      ∀ m, m ≠ n → (setMb q n v full).mbFull.getLsbD m = q.mbFull.getLsbD m ∧ vget (setMb q n v full).mb m = vget q.mb m := by
  refine ⟨vget_vput_self _ _ hn, ?_, fun m hm => ⟨?_, vget_vput_ne _ _ hm⟩⟩
  · cases full <;> simp [setMb, hn]
  · have apart : (1#8 <<< n).getLsbD m = false := by
      by_cases h : m < n
      · simp [h]
      · have : m - n ≠ 0 := by omega
        simp [this]
    cases full
    · simp only [setMb, Bool.false_eq_true, if_false, BitVec.getLsbD_and, BitVec.getLsbD_not, apart, Bool.not_false, Bool.and_true]
      by_cases hm : m < 8
      · simp [hm]
      · simp [hm, BitVec.getLsbD_of_ge _ _ (Nat.not_lt.mp hm)]
    · simp only [setMb, if_true, BitVec.getLsbD_or, apart, Bool.or_false]

/-- A mailbox operation that completes: z is the machine once the hart has gone on. -/
theorem mailbox_spec {s z : State} {n : Nat} {v : BitVec 64} {full : Bool} (hn : n < 8) (nobody : ∀ k, mbWaits (hartAt s s.curCore k) n = false)
    (goes : GoesOn s z ((me s).pc + 4)) (wait : (me z).wait = .none) (kept : (me z).kept = { (me s).kept with feCount := 0 })
    (rest : RestKept (updMyCore s fun q => setMb q n v full) z) :
    let t := mbChange s.curCore n 9 z
    GoesOn s t ((me s).pc + 4) ∧ (∀ r, gr t r = gr z r) ∧ vget (myCore t).mb n = v ∧ (myCore t).mbFull.getLsbD n = full ∧
      (∀ m, m ≠ n → (myCore t).mbFull.getLsbD m = (myCore s).mbFull.getLsbD m ∧ vget (myCore t).mb m = vget (myCore s).mb m) ∧
      (∀ b, byteAt t b = byteAt s b) ∧
      { (me t).kept with feCount := 0, latch := 0 } = { (me s).kept with feCount := 0, latch := 0 } := by
  have here : z.curCore = s.curCore := (congrArg State.curCore rest.machine :)
  have slot : z.curSlot = s.curSlot := (congrArg State.curSlot rest.machine :)
  have unwaited (k : Fin 8) : mbWaits (hartAt z s.curCore k) n = false := by
    by_cases hk : k = s.curSlot
    · subst hk
      have : hartAt z s.curCore s.curSlot = me z := by rw [me, here, slot]
      rw [this, mbWaits, wait]
      exact Bool.and_false _
    · have same : hartAt (updMyCore s fun q => setMb q n v full) s.curCore k = hartAt s s.curCore k := by
        rw [hartAt, updMyCore, coreAt_updCore_self]; rfl
      have other : hartAt z s.curCore k = hartAt (updMyCore s fun q => setMb q n v full) s.curCore k := rest.others.slots k hk
      rw [other, same]
      exact nobody k
  have change : mbChange s.curCore n 9 z = noteEvent s.curCore 2 z := mbChange_unwaited unwaited
  rw [change]
  have hart : me (noteEvent s.curCore 2 z) = { me z with latch := (me z).latch ||| 2 } := by
    have noted : me (noteEvent s.curCore 2 z) = (me z).noted 2 := by
      have := hartAt_noteEvent s.curCore 2 z s.curSlot
      rw [← here, ← slot] at this
      rw [← here]
      exact this
    rw [noted, Hart.noted, if_neg (by rw [wait]; decide)]
  have core : { myCore (noteEvent s.curCore 2 z) with harts := (myCore z).harts } = myCore z := by
    rw [noteEvent_eq, ← here]
    exact congrArg (fun q : Core => { q with harts := (myCore z).harts }) (coreAt_updCore_self z z.curCore _)
  have own : (myCore z).kept = (setMb (myCore s) n v full).kept := by
    have := rest.core
    rw [myCore_updMyCore] at this
    exact this
  obtain ⟨value, bit, others⟩ := setMb_spec (myCore s) v full hn
  have mb : (myCore (noteEvent s.curCore 2 z)).mb = (setMb (myCore s) n v full).mb := (congrArg Core.mb core :).trans (congrArg Core.mb own :)
  have mbFull : (myCore (noteEvent s.curCore 2 z)).mbFull = (setMb (myCore s) n v full).mbFull :=
    (congrArg Core.mbFull core :).trans (congrArg Core.mbFull own :)
  refine ⟨⟨(congrArg Hart.pc hart).trans goes.pc, fun hr => (congrArg Hart.st hart).trans (goes.ready hr), ?_⟩,
    fun r => (congrArg (fun h : Hart => h.gr r) hart :), by rw [mb, value], by rw [mbFull, bit], fun m hm => by rw [mb, mbFull]; exact others m hm,
    rest.memory, ?_⟩
  · exact (congrArg Core.instret core :).trans goes.count
  · exact (congrArg (fun h : Hart => { h.kept with feCount := 0, latch := 0 }) hart :).trans
      (congrArg (fun h : Hart => { h with feCount := 0, latch := 0 }) kept :)

/-- Settles O13: the paths of an atomic (`amInstr_bank`, `amInstr_dram`, `amInstr_noAtomic`, `amInstr_refused`), of a full/empty operation
(`fullEmpty_performs`, `fullEmpty_spec`) and of a mailbox operation (`mailbox_spec`). -/
theorem ownerAndFullEmptyResults : Obligations.OwnerAndFullEmptyResults := by
  refine ⟨?atomics, ?words, ?mailboxes⟩
  case atomics =>
    intro s i f g cls ok hf hr u a m line
    obtain ⟨access, watched, hs⟩ := reaches_spec hr
    have same : SameHart s u := sameHart_translated s needAm f.va
    have size := atomicForm_size hf
    have old : gr u f.d = gr s f.d := gr_translated _ _ _ _
    refine ⟨fun answers => ?_, fun col off target answers split => ?_, fun none refused allowed route => ?_, fun refused nf => ?_⟩
    · obtain ⟨c, w, o, ready⟩ := bankReady_of_answers answers
      have run := (exec_atomic hf).trans (congrArg finish (amInstr_bank (op := f.op) (x := f.x) (d := f.d) access watched rfl ready))
      rw [old, amWriteBack_eq size] at run
      obtain ⟨goes, wrote, kept, rest⟩ := retire_setG (same.trans (sameHart_atomicAtBank u f.op a f.n c w f.x (gr s f.d))) 4 f.d (f.old m)
      refine ⟨_, run, goes, wrote, stored_of_amResult size (memOk_translated _ _ ok) rest.memory, kept, ?_, othersButBanks_atomicAtBank rest.others,
        (congrArg (fun x : State => { x with mem := [] }) rest.machine :)⟩
      exact (sansLines_of_kept rest.core).trans (congrArg Core.sansLines (coreAt_atomicAtBank u f.op a f.n c w u.curCore f.x (gr s f.d)) :)
    · have ready := dramReady_of_answers ((targetOf_translated s _ _ g).trans target) answers
      have place : a = g := performedAt_dram ready.target
      have run := (exec_atomic hf).trans (congrArg finish (amInstr_dram (op := f.op) (x := f.x) (d := f.d) access watched place ready
        ((translated_split s _ _).trans split)))
      have sent := sentBy_sentAndWaits (atomicStart u g) (atomicPkt (atomicStart u g) f.op f.n f.x (gr u f.d) f.d g f.va cls) fun h =>
        h.leave (destOf (atomicStart u g) u.curCore g)
      have hart := sent.hart
      rw [(same.trans (sameHart_atomicStart u g)).hart] at hart
      have dest : destOf (atomicStart u g) u.curCore g = destOf s s.curCore g := (destOf_translated s needAm f.va _ g).trans (by rw [same.core])
      refine ⟨_, _, run, sent.net, ?_, congrArg (PKind.am f.op f.n f.x · f.d) old, rfl, rfl, startLoc_dram ready.target, rfl,
        (congrArg Hart.wait hart :), (congrArg Hart.pc hart :).trans (leave_pc _ _), fun r => ?_, ?_, ?_, (othersKept_atomicStart u g).trans sent.others rfl rfl,
        sent.memory, sent.machine⟩
      · simp only [fromMe, Bool.and_eq_true, beq_iff_eq]
        exact ⟨⟨⟨rfl, rfl⟩, rfl⟩, (congrArg Core.job (coreAt_withL0 u _ u.curCore) :)⟩
      · exact (congrArg (fun h : Hart => h.gr r) hart :).trans (leave_gr _ _ _)
      · exact (congrArg (fun h : Hart => { h.kept with since := 0 }) hart :).trans (by rw [dest]; rfl)
      · exact (sansLines_of_kept sent.core).trans (congrArg Core.sansLines (coreAt_withL0 u _ u.curCore) :)
    · have taken : noAtomic u g = true := (noAtomic_translated s _ _ g).trans none
      have place : a = g := performedAt_noAtomic taken
      have run := (exec_atomic hf).trans (congrArg finish (amInstr_noAtomic (op := f.op) (x := f.x) (d := f.d) access watched place
        (place ▸ refused) taken (same.core ▸ allowed) fun v hv => same.core ▸ route v ((targetOf_translated s _ _ g).symm.trans hv)))
      have reached := (same.trans (sameHart_atomicStart u g)).trans
        (sameHart_reach (atomicStart u g) (colOf u.curCore) g 1)
      obtain ⟨goes, wrote, kept, rest⟩ := retire_setG_updMe reached
        (Hart.refusedWrite (destOf (atomicStart u g) u.curCore g) (atomicStart u g).clock f.va (atomicStart u g).nextId)
        (refusedWrite_rest _ _ _ _ _).2.1 (refusedWrite_rest _ _ _ _ _).2.2 (fun r => gr_congr (refusedWrite_rest _ _ _ _ _).1 r) 4 f.d 0
      obtain ⟨error, first⟩ := refusedWrite_errAck (destOf (atomicStart u g) u.curCore g) (atomicStart u g).clock f.va (atomicStart u g).nextId (me s)
      have errAck := (congrArg Hart.errAck kept :)
      refine ⟨_, run, goes, wrote, errAck ▸ error, fun none => errAck.trans (first none), ?_, ?_, ?_, ?_⟩
      · refine (sansLines_of_kept rest.core).trans ?_
        rw [myCore, (sameHart_reach (atomicStart u g) _ g 1).core, coreAt_reach]
        exact (congrArg Core.sansLines (coreAt_withL0 u _ u.curCore) :)
      · exact ((othersKept_atomicStart u g).trans ⟨fun k _ => by rw [hartAt, coreAt_reach]; rfl, fun c _ => coreAt_reach _ _ _ _ c⟩ rfl rfl).trans
          rest.others (sameHart_reach (atomicStart u g) _ g 1).core (sameHart_reach (atomicStart u g) _ g 1).slot
      · exact fun b => (rest.memory b).trans (congrArg (memGet · b) (reach_mem (atomicStart u g) _ g 1))
      · exact rest.machine.trans ((kept_reach_withL0 u _ _ g 1).trans (by rw [same.core]))
    · refine entered_of_finish (u := u) ?_ (translated_touched s needAm f.va) hs nf
      rw [exec_atomic hf, amInstr_refused access rfl refused]
  case words =>
    intro s b a d g cls c w o ok u ready other hart
    have same (rights : BitVec 5) : SameHart s (u rights) := sameHart_translated s rights (gr s a)
    have full (rights : BitVec 5) (j : Nat) : (coreAt (u rights) j).full = (coreAt s j).full :=
      (congrArg Core.full ((translated_touched s rights (gr s a)).cores j) :)
    have waiters (rights : BitVec 5) : (coreAt (u rights) c).waiters = (coreAt s c).waiters :=
      (congrArg Core.waiters ((translated_touched s rights (gr s a)).cores c) :)
    have otherBits {t : State} {v : Bool} (rights : BitVec 5)
        (bits : ∀ j, (coreAt t j).full = if j = c then tabPut (coreAt (u rights) c).full (fullKey w o) v else (coreAt (u rights) j).full) :
        other t := by
      intro j k apart
      rw [bits]
      split
      · next hj =>
        subst hj
        rw [tabGet_tabPut_ne _ _ _ _ (apart.resolve_left (fun h => h rfl)), full]
      · rw [full]
    refine ⟨fun hready hr isFull => ?_, fun hready hr isEmpty room => ?_⟩
    · obtain ⟨target, answers, none⟩ := hready
      obtain ⟨access, watched, -⟩ := reaches_spec hr
      obtain ⟨c', w', o', bank⟩ := bankReady_of_answers answers
      obtain ⟨rfl, rfl, rfl⟩ : c = c' ∧ w = w' ∧ o = o' := by
        have := target.symm.trans bank.target; cases this; exact ⟨rfl, rfl, rfl⟩
      have run := congrArg finish (fullEmpty_performs (load := true) (a := performedAt (u needRdWr) g) (x := 0) (d := d)
        (word := rWord 0x16 0x083 0 a d) access watched rfl bank (by rw [full]; exact isFull) (.inl rfl))
      obtain ⟨goes, wrote, -, kept, bits, mem, machine⟩ := fullEmpty_spec (load := true) (x := 0) (d := d) (same needRdWr) target
        (by rw [waiters]; exact none)
      refine ⟨_, run, goes, wrote rfl, ?_, otherBits needRdWr bits, (congrArg (fun h : Hart => { h with feCount := 0 }) kept :),
        fun b => congrArg (memGet · b) mem, kept_of_mem machine mem⟩
      exact (congrArg (tabGet false · _) ((bits c).trans (if_pos rfl))).trans (tabGet_tabPut_self _ _ _ _)
    · obtain ⟨target, answers, none⟩ := hready
      obtain ⟨access, watched, -⟩ := reaches_spec hr
      obtain ⟨c', w', o', bank⟩ := bankReady_of_answers answers
      obtain ⟨rfl, rfl, rfl⟩ : c = c' ∧ w = w' ∧ o = o' := by
        have := target.symm.trans bank.target; cases this; exact ⟨rfl, rfl, rfl⟩
      have run := congrArg finish (fullEmpty_performs (load := false) (a := performedAt (u needWr) g) (x := gr s b) (d := 0)
        (word := rWord 0x16 0x093 b a 0) access watched rfl bank (by rw [full]; exact isEmpty) (.inr (by rw [wq_translated]; exact room)))
      obtain ⟨goes, -, regs, kept, bits, mem, machine⟩ := fullEmpty_spec (load := false) (x := gr s b) (d := 0) (same needWr) target
        (by rw [waiters]; exact none)
      refine ⟨_, run, goes, regs rfl, ⟨fun k hk => ?_, fun y hy => ?_⟩, ?_, otherBits needWr bits,
        (congrArg (fun h : Hart => { h with feCount := 0 }) kept :), machine⟩
      · exact (congrArg (memGet · _) mem).trans (memGet_memWrite_inside _ _ _ _ _ (memOk_translated _ _ ok) hk)
      · exact (congrArg (memGet · _) mem).trans (memGet_memWrite_outside _ _ _ _ _ (memOk_translated _ _ ok) hy)
      · exact (congrArg (tabGet false · _) ((bits c).trans (if_pos rfl))).trans (tabGet_tabPut_self _ _ _ _)
  case mailboxes =>
    intro s a n d fenced hn nobody others
    have mailbox (v : BitVec 64) (full : Bool) : SameHart s (updMyCore s fun q => setMb q n.toNat v full) :=
      ⟨rfl, rfl, me_updMyCore_of_harts _ _ rfl, by rw [myCore_updMyCore]; rfl⟩
    refine ⟨fun empty => ?_, fun isFull => ?_⟩
    · obtain ⟨goes, regs, kept, rest⟩ := retire_updMe (mailbox (gr s a) true) (fun h => { h with feCount := 0 }) rfl rfl (fun _ => rfl) 4
      obtain ⟨goes', regs', value, bit, rest', mem, hart⟩ := mailbox_spec hn nobody goes (by rw [retire, me_retireAt]; rfl) kept rest
      refine ⟨_, ?_, goes', value, bit, fun r => (regs' r).trans (regs r), rest', mem, hart⟩
      show execMbput a n s = _
      unfold execMbput
      dsimp only
      rw [settled_of_fenced fenced, if_neg (by rw [empty]; decide)]
      rfl
    · obtain ⟨goes, wrote, kept, rest⟩ := retire_setG_updMe (mailbox (vget (myCore s).mb n.toNat) false) (fun h => { h with feCount := 0 }) rfl rfl
        (fun _ => rfl) 4 d (vget (myCore s).mb n.toNat)
      obtain ⟨goes', regs', -, bit, rest', mem, hart⟩ := mailbox_spec hn nobody goes (by rw [retire, me_retireAt]; rfl) kept rest
      refine ⟨_, ?_, goes', ⟨(regs' d).trans wrote.dest, fun r hr => (regs' r).trans (wrote.rest r hr)⟩, bit, rest', mem, hart⟩
      show execMbget n d s = _
      unfold execMbget
      dsimp only
      rw [settled_of_fenced fenced, if_pos isFull]
      rfl

end Sys2Proof.Machine
end

section
/-!
PROOFS. Releases, acquires, phases and fences, and the instructions that wait (R200, R201, R265 to R270).
-/

namespace Sys2Proof.Machine

set_option Elab.async false

/-! ## An update of the issuing core that keeps the other slots -/

/-- An update of the issuing core that leaves the other slots' harts as they are. -/
theorem othersKept_of_slots (s : State) (f : Core → Core) (h : ∀ k, k ≠ s.curSlot → (f (myCore s)).harts.get k = (myCore s).harts.get k) :
    OthersKept s (updMyCore s f) := by
  refine ⟨fun k hk => ?_, fun c hc => coreAt_updCore_ne _ _ _ _ hc⟩
  simp only [hartAt, updMyCore, coreAt_updCore_self]
  exact h k hk

theorem updMe_eq_updMyCore (s : State) (f : Hart → Hart) : updMe s f = updMyCore s fun q => q.setHart s.curSlot (f (me s)) := rfl

theorem updMyCore_updMyCore (s : State) (f g : Core → Core) : updMyCore (updMyCore s f) g = updMyCore s fun q => g (f q) :=
  updCore_updCore s s.curCore f g

theorem retireAt_updMyCore (p : BitVec 48) (s : State) (f : Core → Core) :
    retireAt p (updMyCore s f) = updMyCore s fun q => (f q).counted s.curSlot (((f (myCore s)).harts.get s.curSlot).retired p) := by
  rw [retireAt_eq, updMyCore_updMyCore, me_updMyCore]; rfl

/-- Retiring after an update of the issuing core that keeps the state of its hart and INSTRET: how it goes on, and that the other slots stay. -/
theorem goesOn_retireAt_updMyCore (p : BitVec 48) (s : State) (f : Core → Core) (count : (f (myCore s)).instret = (myCore s).instret)
    (st : ((f (myCore s)).harts.get s.curSlot).st = (me s).st)
    (slots : ∀ k, k ≠ s.curSlot → (f (myCore s)).harts.get k = (myCore s).harts.get k) :
    let t := retireAt p (updMyCore s f)
    GoesOn s t p ∧ me t = ((f (myCore s)).harts.get s.curSlot).retired p ∧ (myCore t).kept = (f (myCore s)).kept ∧ OthersKept s t ∧
      t.mem = s.mem ∧ t.kept = s.kept := by
  dsimp only
  rw [retireAt_updMyCore]
  have hme : me (updMyCore s fun q => (f q).counted s.curSlot (((f (myCore s)).harts.get s.curSlot).retired p)) =
      ((f (myCore s)).harts.get s.curSlot).retired p := by rw [me_updMyCore, counted_get]
  refine ⟨⟨by rw [hme]; rfl, fun hr => ?_, ?_⟩, hme, by rw [myCore_updMyCore]; rfl, othersKept_of_slots s _ fun k hk => ?_, rfl, rfl⟩
  · rw [hme]; simp [Hart.retired, Hart.goOn, st, hr]
  · rw [myCore_updMyCore, counted_instret, count]
  · rw [← slots k hk]; exact vec_get_set_ne _ _ _ _ hk

/-! ## Releases and acquires -/

/-- A release that finds nothing outstanding and no error held is done at once (R200). -/
theorem withRelease_covered {s : State} {k : BitVec 3} (fenced : Fenced s) (hk : k ≠ 0) (out : nothingOut s s.curCore s.curSlot = true)
    (route : unroutable s (me s) = none) (unsent : (me s).unsent = none) (err : (me s).errAck = none) (f : State → Res Unit) :
    withRelease k s f = f (updMe s Hart.covered) := by
  simp only [withRelease, settled_of_fenced fenced, if_neg hk, out, Bool.or_true, if_true, route, unsent, err, Option.map_none, ite_self]

/-- At scope 0 a release waits for nothing and clears nothing (R200). -/
theorem withRelease_zero {s : State} (fenced : Fenced s) (f : State → Res Unit) : withRelease 0 s f = f s := by
  simp only [withRelease, settled_of_fenced fenced, if_true]

/-- A core whose slot k did the release and the acquire of an ordering instruction; and the machine after them. -/
def Core.ordered (k : Fin 8) (h : Hart) (rel acq : Bool) (q : Core) : Core :=
  { q.setHart k (if rel then h.covered else h) with l0d := if acq then [] else q.l0d }

def ordered (s : State) (rel acq : Bool) : State := updMyCore s (Core.ordered s.curSlot (me s) rel acq)

theorem setHart_me (s : State) : (myCore s).setHart s.curSlot (me s) = myCore s := by
  rw [me_eq, Core.setHart]
  have : (myCore s).harts.set s.curSlot ((myCore s).harts.get s.curSlot) = (myCore s).harts := by
    apply Vector.ext; intro i hi
    by_cases h : s.curSlot.val = i
    · subst h; simp [Vector.get]
    · simp [h]
  rw [this]

/-- An update of the issuing core is what it makes of that core. -/
theorem updMyCore_congr {s : State} {f g : Core → Core} (h : f (myCore s) = g (myCore s)) : updMyCore s f = updMyCore s g :=
  congrArg (setCore s s.curCore) h

theorem updMe_covered (s : State) : updMe s Hart.covered = ordered s true false := rfl
theorem acquire_covered (s : State) : acquire (updMe s Hart.covered) = ordered s true true :=
  (updMyCore_updMyCore s _ fun q => { q with l0d := [] }).trans (updMyCore_congr rfl)
theorem acquire_eq_ordered (s : State) : acquire s = ordered s false true :=
  updMyCore_congr (by simp only [Core.ordered, if_false, Bool.false_eq_true, if_true, setHart_me])
theorem retireAt_ordered_none (p : BitVec 48) (s : State) : retireAt p (ordered s false false) = retireAt p s := by
  rw [ordered, retireAt_updMyCore, retireAt_eq]
  refine updMyCore_congr ?_
  simp only [Core.ordered, if_false, Bool.false_eq_true, setHart_me]
  rfl

/-- The hart without what a release clears (R200). -/
def Hart.unmasked (h : Hart) : Hart :=
  { h.kept with tsmask := 0, txmask := 0, fab := [], fabMany := false, probed := false, probes := 0, unsent := none }

theorem unmasked_covered (h : Hart) : h.covered.unmasked = h.unmasked := rfl

/-- What an ordering instruction leaves: the masks cleared by a release, the L0 data cache dropped by an acquire, all else as it was. -/
theorem retire_ordered (s : State) (rel acq : Bool) :
    let t := retireAt ((me s).pc + 4) (ordered s rel acq)
    GoesOn s t ((me s).pc + 4) ∧ (∀ r, gr t r = gr s r) ∧
      (if rel then (me t).tsmask = 0 ∧ (me t).txmask = 0 ∧ (me t).fab = [] else
        (me t).tsmask = (me s).tsmask ∧ (me t).txmask = (me s).txmask ∧ (me t).fab = (me s).fab) ∧
      (me t).unmasked = (me s).unmasked ∧ (myCore t).l0d = (if acq then [] else (myCore s).l0d) ∧
      { (myCore t).kept with l0d := [] } = { (myCore s).kept with l0d := [] } ∧ OthersKept s t ∧ (∀ b, byteAt t b = byteAt s b) ∧
      t.kept = s.kept := by
  dsimp only
  have hart : (Core.ordered s.curSlot (me s) rel acq (myCore s)).harts.get s.curSlot = if rel then (me s).covered else me s :=
    setHart_get_self _ _ _
  obtain ⟨goes, hart', kept, others, mem, rest⟩ := goesOn_retireAt_updMyCore ((me s).pc + 4) s (Core.ordered s.curSlot (me s) rel acq) rfl
    ((congrArg Hart.st hart).trans (by cases rel <;> rfl)) (fun k hk => setHart_get_ne _ _ _ _ hk)
  replace hart := hart'.trans (congrArg (Hart.retired _) hart)
  refine ⟨goes, fun r => ?_, ?_, ?_, congrArg Core.l0d kept, ?_, others, fun b => congrArg (memGet · b) mem, rest⟩
  · exact (congrArg (Hart.gr · r) hart).trans (by cases rel <;> rfl)
  · cases rel
    · exact ⟨(congrArg Hart.tsmask hart :), (congrArg Hart.txmask hart :), (congrArg Hart.fab hart :)⟩
    · exact ⟨(congrArg Hart.tsmask hart :), (congrArg Hart.txmask hart :), (congrArg Hart.fab hart :)⟩
  · exact (congrArg Hart.unmasked hart).trans (by cases rel <;> rfl)
  · exact congrArg (fun q : Core => { q with l0d := [] }) kept

theorem fenceRest_none {s : State} (out : (me s).msgsOut = 0) (dropped : (me s).dropped = []) (f : State → Res Unit) : fenceRest s f = f s := by
  simp only [fenceRest, out, dropped, if_neg (by decide : ¬ 0 < 0)]

/-- The release of an ordering instruction, then what follows: both where the scope is 0 and where nothing is outstanding. -/
theorem withRelease_ordered {s : State} {k : BitVec 3} (fenced : Fenced s)
    (out : k = 0 ∨ nothingOut s s.curCore s.curSlot = true ∧ unroutable s (me s) = none ∧ (me s).unsent = none ∧ (me s).errAck = none)
    (f : State → Res Unit) : withRelease k s f = f (if decide (k ≠ 0) then ordered s true false else s) := by
  by_cases hk : k = 0
  · rw [if_neg (fun h => absurd hk (of_decide_eq_true h)), hk, withRelease_zero fenced]
  · obtain ⟨out, route, unsent, err⟩ := out.resolve_left hk
    rw [if_pos (decide_eq_true hk), withRelease_covered fenced hk out route unsent err, updMe_covered]

theorem me_ordered (s : State) (rel acq : Bool) : me (ordered s rel acq) = if rel then (me s).covered else me s := by
  rw [ordered, me_updMyCore]; exact setHart_get_self _ _ _

/-- The release of an ordering instruction, its acquire, and its retirement. -/
theorem retire_acquire_ordered (s : State) (rel acq : Bool) :
    let u := if rel then ordered s true false else s
    retire 4 (if acq then acquire u else u) = retireAt ((me s).pc + 4) (ordered s rel acq) := by
  have pc : (me (ordered s rel acq)).pc = (me s).pc := by rw [me_ordered]; cases rel <;> rfl
  rw [← pc]
  cases rel <;> cases acq <;> simp only [if_true, if_false, Bool.false_eq_true]
  · rw [pc, retireAt_ordered_none]; rfl
  · rw [acquire_eq_ordered]; rfl
  · rfl
  · rw [← updMe_covered, acquire_covered]; rfl

/-! ## A trap that also notes something in its hart -/

theorem portBusy_setHart (q : Core) (k : Fin 8) (h : Hart) (port : h.atPort = (q.harts.get k).atPort) : (q.setHart k h).portBusy = q.portBusy := by
  have map : (q.harts.set k h).toList.map Hart.atPort = q.harts.toList.map Hart.atPort := by
    refine List.ext_getElem (by simp) fun i h1 h2 => ?_
    simp only [List.getElem_map, Vector.getElem_toList, Vector.getElem_set]
    split
    · next e => subst e; exact port
    · rfl
  have any (l : List Hart) : l.any Hart.atPort = (l.map Hart.atPort).any id := by simp [List.any_map]
  show (q.harts.set k h).toList.any Hart.atPort = q.harts.toList.any Hart.atPort
  rw [any, any, map]

theorem settled_updMe {s : State} (f : Hart → Hart) (port : (f (me s)).atPort = (me s).atPort) (h : Settled s) : Settled (updMe s f) := by
  intro hv
  have vec : (myCore (updMe s f)).vec = (myCore s).vec := by rw [myCore_updMe]; rfl
  have busy : (myCore (updMe s f)).portBusy = (myCore s).portBusy := by rw [myCore_updMe]; exact portBusy_setHart _ _ _ port
  have quiet : (myCore (updMe s f)).quiet = (myCore s).quiet := by unfold Core.quiet; rw [vec, busy]
  rw [quiet]
  exact h (by rw [← hv]; unfold isVecHart; rw [vec]; rfl)

theorem freezing_updMe (s : State) (f : Hart → Hart) (c : Cause) : freezing (updMe s f) (updMe s f).curCore c = freezing s s.curCore c := by
  have core : coreAt (updMe s f) (updMe s f).curCore = (myCore s).setHart s.curSlot (f (me s)) := myCore_updMe s f
  unfold freezing; rw [core]; rfl

theorem updMe_trap {s : State} {c : Cause} {x : BitVec 64} (f : Hart → Hart) (port : (f (me s)).atPort = (me s).atPort) (h : Settled s)
    (nf : freezing s s.curCore c = false) :
    finish (.trap c x (updMe s f)) = .next (updMe s fun h => ((f h).record c x false).vector) := by
  rw [finish_trap c x _ (settled_updMe f port h), takeTrap_eq c x false _ ((freezing_updMe s f c).trans nf), updMe_updMe]

theorem settled_of_fencedCore {s : State} (h : Fenced s) : Settled s := fun hv => by
  have := h hv
  rw [Core.fenced, Bool.and_eq_true] at this
  exact this.1

/-- A release that finds an error held reports it (R201). -/
theorem withRelease_error {s : State} {k : BitVec 3} {va : BitVec 64} (fenced : Fenced s) (hk : k ≠ 0)
    (out : nothingOut s s.curCore s.curSlot = true) (err : (me s).errAck = some va) (f : State → Res Unit) :
    withRelease k s f =
      .trap .busFault va (updMe s fun h => { h with errAck := none, released := false, probed := false, unsent := none }) := by
  simp only [withRelease, settled_of_fenced fenced, if_neg hk, out, Bool.or_true, if_true, err]

/-- Settles O15: each ordering instruction is a release, an acquire or both, and a retirement. -/
theorem orderingResults : Obligations.OrderingResults := by
  unfold Obligations.OrderingResults
  refine ⟨fun s k fenced out => ?_, fun s k va i form hk fenced nf out err => ?_⟩
  · intro masks does
    have doesOf (i : Instr) (rel acq : Bool) (h : exec i s = .next (retireAt ((me s).pc + 4) (ordered s (rel && k ≠ 0) acq))) : does i rel acq := by
      obtain ⟨goes, regs, cleared, masks, rest⟩ := retire_ordered s (rel && k ≠ 0) acq
      refine ⟨_, h, goes, regs, ?_, masks, rest⟩
      simpa only [Bool.and_eq_true, decide_eq_true_eq] using cleared
    have both (acq : Bool) (i : Instr)
        (h : exec i s = finish (withRelease k s fun s => .ok () (retire 4 (if acq then acquire s else s)))) : does i true acq := by
      rw [withRelease_ordered fenced out] at h
      exact doesOf i true acq (h.trans (congrArg Host.Outcome.next (retire_acquire_ordered s (decide (k ≠ 0)) acq)))
    have alone (acq : Bool) (i : Instr) (h : exec i s = .next (retire 4 (if acq then acquire s else s))) : does i false acq :=
      doesOf i false acq (h.trans (congrArg Host.Outcome.next (retire_acquire_ordered s false acq)))
    have fence (out' : (me s).msgsOut = 0) (dropped : (me s).dropped = []) : exec (.fence k) s =
        finish (withRelease k s fun s => .ok () (retire 4 s)) := by
      show finish (withRelease k s fun s => fenceRest s fun s => .ok () (retire 4 s)) = _
      rw [withRelease_ordered fenced out, withRelease_ordered fenced out, fenceRest_none]
      · cases decide (k ≠ 0)
        · exact out'
        · exact (congrArg Hart.msgsOut (me_ordered s true false)).trans out'
      · cases decide (k ≠ 0)
        · exact dropped
        · exact (congrArg Hart.dropped (me_ordered s true false)).trans dropped
    refine ⟨both false _ rfl, alone true _ ?_, both true _ rfl, fun h1 h2 => both false _ (fence h1 h2), fun hv => alone false _ ?_, fun hv => ?_⟩
    · exact congrArg finish (settled_of_fenced fenced _)
    · show finish (if !isVecHart s then _ else _) = _
      rw [hv, settled_of_fenced fenced]; rfl
    · refine takesTrap_of ?_
      show finish (if !isVecHart s then _ else _) = _
      rw [hv]; rfl
  · have traps (f : State → Res Unit) (h : exec i s = finish (withRelease k s f)) : exec i s = .next (updMe s fun h =>
        (({ h with errAck := none, released := false, probed := false, unsent := none } : Hart).record .busFault va false).vector) := by
      rw [h, withRelease_error fenced hk out err, updMe_trap _ (by rfl) (settled_of_fencedCore fenced) nf]
    have h : exec i s = .next (updMe s fun h =>
        (({ h with errAck := none, released := false, probed := false, unsent := none } : Hart).record .busFault va false).vector) := by
      obtain rfl | rfl | rfl := form
      · exact traps _ rfl
      · exact traps _ rfl
      · exact traps _ rfl
    refine ⟨_, h, ?_, ?_, ?_, ?_, ?_, ?_, fun r => ?_, restKept_updMe s _⟩
    · rw [me_updMe]; rfl
    · rw [me_updMe]; rfl
    · rw [me_updMe]; rfl
    · rw [me_updMe]; rfl
    · rw [me_updMe]; rfl
    · rw [me_updMe]; rfl
    · rw [gr, me_updMe]; rfl

end Sys2Proof.Machine
end

section
/-!
PROOFS. The instructions that wait, the return from a trap and nfall, and the traps of privilege and ownership (R6, R133, R146, R267 to
R270, R416, R425, R427).
-/

namespace Sys2Proof.Machine

set_option Elab.async false

/-! ## The word that a trap shows in XVAL (R220) -/

theorem ofNat_encodeWord_rFields {i : Instr} {maj fn : Nat} {b a d : BitVec 5} (hm : maj < 64) (hf : fn < 1024)
    (h : encodeFields i = rFields maj fn b a d) : BitVec.ofNat 64 (encodeWord i) = rWord maj fn b a d :=
  congrArg (BitVec.ofNat 64) (by rw [encodeWord, h, pack_rFields b a d hm hf])

theorem ofNat_encodeWord_iFields {i : Instr} {maj fn3 : Nat} {n : BitVec 12} {a d : BitVec 5} (hm : maj < 64) (hf : fn3 < 8)
    (h : encodeFields i = [(1, 1), (6, maj), (5, d.toNat), (5, a.toNat), (12, n.toNat), (3, fn3)]) :
    BitVec.ofNat 64 (encodeWord i) = iWord maj fn3 n a d := by
  refine congrArg (BitVec.ofNat 64) ?_
  have hd := d.isLt; have ha := a.isLt; have hn := n.isLt
  rw [encodeWord, h]; simp only [pack]; omega

theorem takesTrap_word {i : Instr} {s : State} {c : Cause} {w x : BitVec 64} (word : x = w) (h : exec i s = finish (.trap c w s)) :
    TakesTrap i s c x := word ▸ takesTrap_of h

/-! ## Barrier wires (R267, R268) -/

theorem wireScope_ne (w : Nat) : wireScope w ≠ 0 := by unfold wireScope; split <;> decide

/-- `barw` outside the handler slot, its release covered (R268). -/
theorem execBarw_covered {s : State} {w d : BitVec 5} (fenced : Fenced s) (slot : s.curSlot ≠ 7) (out : nothingOut s s.curCore s.curSlot = true)
    (route : unroutable s (me s) = none) (unsent : (me s).unsent = none) (err : (me s).errAck = none) :
    let u := updMe s Hart.covered
    execBarw w d s = finish (if (myCore u).latchDone.getLsbD w.toNat then
        .ok () (done4 d 0 (acquire (updMyCore u fun q => { q with latchDone := q.latchDone &&& ~~~(1#3 <<< w.toNat) })))
      else
      let v := updMyCore u fun q => { q with latchSet := q.latchSet ||| (1#3 <<< w.toNat) }
      let lim := (me v).bwto.toNat % 2 ^ 32
      .hold (updMe (park (.wires w.toNat d) v) fun h => { h with timer := if lim = 0 then none else some (v.clock + lim) })) := by
  rw [execBarw, orBlock, if_neg slot, withRelease_covered fenced (wireScope_ne _) out route unsent err]

/-- A core whose slot k has passed a wire set that was complete, with gd = 0, and has acquired; and one whose slot k arrives and parks. -/
def Core.wirePassed (k : Fin 8) (h : Hart) (w : Nat) (d : BitVec 5) (q : Core) : Core :=
  { q.setHart k (h.covered.setG d 0) with l0d := [], latchDone := q.latchDone &&& ~~~(1#3 <<< w) }

def Core.wireArrives (k : Fin 8) (h : Hart) (w : Nat) (q : Core) : Core := { q.setHart k h with latchSet := q.latchSet ||| (1#3 <<< w) }

/-- Updating the issuing hart after its core: one update of the core. -/
theorem updMe_updMyCore (s : State) (f : Core → Core) (g : Hart → Hart) :
    updMe (updMyCore s f) g = updMyCore s fun q => (f q).setHart s.curSlot (g ((f (myCore s)).harts.get s.curSlot)) := by
  rw [updMe_eq_updMyCore, updMyCore_updMyCore, me_updMyCore]; rfl

theorem setG_wirePassed (s : State) (w : Nat) (d : BitVec 5) :
    setG (acquire (updMyCore (updMe s Hart.covered) fun q => { q with latchDone := q.latchDone &&& ~~~(1#3 <<< w) })) d 0 =
      updMyCore s (Core.wirePassed s.curSlot (me s) w d) := by
  rw [updMe_eq_updMyCore, updMyCore_updMyCore, acquire, updMyCore_updMyCore, setG, updMe_updMyCore]
  refine updMyCore_congr ?_
  have hart : ((myCore s).setHart s.curSlot (me s).covered).harts.get s.curSlot = (me s).covered := setHart_get_self _ _ _
  dsimp only
  rw [hart]
  exact congrArg (fun q : Core => { q with l0d := [], latchDone := (myCore s).latchDone &&& ~~~(1#3 <<< w) })
    (setHart_setHart (myCore s) s.curSlot _ _)

/-- A hart that parks, with the time-out that it takes. -/
def Hart.parksFor (wait : Wait) (timer : Option Nat) (now : Nat) (h : Hart) : Hart :=
  { h with st := .parked, wait := wait, since := if h.wait = wait then h.since else now, timer := timer }

theorem park_updMe (wait : Wait) (timer : Option Nat) (s : State) :
    updMe (park wait s) (fun h => { h with timer := timer }) = updMe s (Hart.parksFor wait timer s.clock) := by
  rw [park, waitAs, updMe_updMe]; rfl

theorem park_wireArrives (s : State) (w : Nat) (wait : Wait) (timer : Option Nat) :
    updMe (park wait (updMyCore (updMe s Hart.covered) fun q => { q with latchSet := q.latchSet ||| (1#3 <<< w) })) (fun h => { h with timer := timer }) =
      updMyCore s (Core.wireArrives s.curSlot ((me s).covered.parksFor wait timer s.clock) w) := by
  rw [park_updMe, updMe_eq_updMyCore s, updMyCore_updMyCore, updMe_updMyCore]
  refine updMyCore_congr ?_
  have hart : ((myCore s).setHart s.curSlot (me s).covered).harts.get s.curSlot = (me s).covered := setHart_get_self _ _ _
  dsimp only
  rw [hart]
  exact congrArg (fun q : Core => { q with latchSet := (myCore s).latchSet ||| (1#3 <<< w) }) (setHart_setHart (myCore s) s.curSlot _ _)

theorem barw_passes {s : State} {w : Nat} {d : BitVec 5} {i : Instr}
    (h : exec i s = .next (done4 d 0 (acquire (updMyCore (updMe s Hart.covered) fun q => { q with latchDone := q.latchDone &&& ~~~(1#3 <<< w) })))) :
    ∃ t, exec i s = .next t ∧ GoesOn s t ((me s).pc + 4) ∧ Wrote s t d 0 ∧ (myCore t).l0d = [] ∧
      (myCore t).latchDone = (myCore s).latchDone &&& ~~~(1#3 <<< w) ∧ (myCore t).latchSet = (myCore s).latchSet ∧
      (∀ b, byteAt t b = byteAt s b) ∧ OthersKept s t := by
  have hart : (Core.wirePassed s.curSlot (me s) w d (myCore s)).harts.get s.curSlot = (me s).covered.setG d 0 := setHart_get_self _ _ _
  have pc : (me (updMyCore s (Core.wirePassed s.curSlot (me s) w d))).pc = (me s).pc := by
    rw [me_updMyCore, hart, setG_pc]; rfl
  rw [done4, setG_wirePassed, retire, pc] at h
  obtain ⟨goes, hart', kept, others, mem, -⟩ := goesOn_retireAt_updMyCore ((me s).pc + 4) s (Core.wirePassed s.curSlot (me s) w d) rfl
    ((congrArg Hart.st hart).trans (setG_st _ _ _)) (fun k hk => setHart_get_ne _ _ _ _ hk)
  rw [hart] at hart'
  refine ⟨_, h, goes, ⟨?_, fun r hr => ?_⟩, congrArg Core.l0d kept, congrArg Core.latchDone kept, (congrArg Core.latchSet kept :),
    fun b => congrArg (memGet · b) mem, others⟩
  · rw [gr, hart', gr_retired, gr_setG, if_pos rfl]
  · rw [gr, hart', gr_retired, gr_setG, if_neg hr]; rfl

theorem me_wireArrives (s : State) (h : Hart) (w : Nat) : me (updMyCore s (Core.wireArrives s.curSlot h w)) = h := by
  rw [me_updMyCore]; exact setHart_get_self _ _ _

theorem barw_arrives {s : State} {w : Nat} {wait : Wait} {timer : Option Nat} {i : Instr}
    (h : exec i s = .next (updMyCore s (Core.wireArrives s.curSlot ((me s).covered.parksFor wait timer s.clock) w))) :
    ∃ t, exec i s = .next t ∧ (me t).st = .parked ∧ (me t).wait = wait ∧ (me t).pc = (me s).pc ∧
      (myCore t).latchSet = (myCore s).latchSet ||| (1#3 <<< w) ∧ (me t).timer = timer ∧
      (∀ r, gr t r = gr s r) ∧ (∀ b, byteAt t b = byteAt s b) ∧ OthersKept s t := by
  refine ⟨_, h, ?_, ?_, ?_, ?_, ?_, fun r => ?_, fun b => rfl, othersKept_of_slots s _ fun k hk => setHart_get_ne _ _ _ _ hk⟩
  · rw [me_wireArrives]; rfl
  · rw [me_wireArrives]; rfl
  · rw [me_wireArrives]; rfl
  · rw [myCore_updMyCore]; rfl
  · rw [me_wireArrives]; rfl
  · rw [gr, me_wireArrives]; rfl

/-! ## park and waitt (R269, R270) -/

theorem execPark_slot {s : State} (a d : BitVec 5) (fenced : Fenced s) (slot : s.curSlot ≠ 7) :
    execPark a d s = finish (if (me s).latch ≠ 0 then .ok () (done4 d ((me s).latch.zeroExtend 64) (updMe s fun h => { h with latch := 0 }))
      else .hold (updMe (park .park s) fun h => { h with
        timer := if (gr s a).toNat % 2 ^ 32 = 0 then none else some (h.timer.getD (s.clock + (gr s a).toNat % 2 ^ 32)) })) := by
  rw [execPark, orBlock, if_neg slot, settled_of_fenced fenced]

theorem tokenIn_none {q : Core} {x : BitVec 64} {st : BitVec 2} (hst : st ≠ 0)
    (idle : ∀ n : Fin 8, x.getLsbD n.val = true → q.tok.get n = 0) : tokenIn q (x.setWidth 8) st = none := by
  refine List.find?_eq_none.mpr fun n hn named => ?_
  have lt : n < 8 := List.mem_range.mp hn
  rw [Bool.and_eq_true, BitVec.getLsbD_setWidth, Bool.and_eq_true, beq_iff_eq] at named
  obtain ⟨⟨-, named⟩, value⟩ := named
  have here := idle ⟨n, lt⟩ named
  refine hst (value.symm.trans ?_)
  rw [List.getD_eq_getElem?_getD, List.getElem?_eq_getElem (by simpa using lt)]
  exact here

/-- Settles O16: each of them by its cases. -/
theorem waitingInstructions : Obligations.WaitingInstructions := by
  unfold Obligations.WaitingInstructions
  refine ⟨fun s w d hw fenced slot out route unsent err => ?_, fun s a d fenced => ⟨fun slot => ?_, fun latch slot => ?_, fun latch slot => ?_,
    fun slot idle => ?_, fun slot => ?_⟩⟩
  · have number : (BitVec.ofNat 5 w).toNat = w := by rw [BitVec.toNat_ofNat]; omega
    have h : exec (.barw (BitVec.ofNat 5 w) d) s = _ := execBarw_covered (w := BitVec.ofNat 5 w) (d := d) fenced slot out route unsent err
    rw [number] at h
    have done : (myCore (updMe s Hart.covered)).latchDone = (myCore s).latchDone := by rw [myCore_updMe]; rfl
    refine ⟨fun passed => barw_passes (w := w) ?_, fun waits => ?_⟩
    · rw [h, done, if_pos passed]; rfl
    · have lim : (me (updMyCore (updMe s Hart.covered) fun q => { q with latchSet := q.latchSet ||| (1#3 <<< w) })).bwto = (me s).bwto := by
        rw [me_updMyCore_of_harts _ _ (by rfl), me_updMe]; rfl
      refine barw_arrives ?_
      rw [h, done, if_neg (by rw [waits]; decide)]
      dsimp only
      rw [lim, park_wireArrives]
      rfl
  · refine takesTrap_word (ofNat_encodeWord_rFields (maj := 0x1D) (fn := 1) (b := 0) (a := a) (d := d) (by decide) (by decide) rfl) ?_
    show finish (orBlock _ _ _) = _
    rw [orBlock, if_pos slot]
  · have h : exec (.park a d) s = _ := execPark_slot a d fenced slot
    rw [if_pos latch, done4, setG, updMe_updMe] at h
    have pc : (me (updMe s fun h : Hart => ({ h with latch := 0 } : Hart).setG d ((me s).latch.zeroExtend 64))).pc = (me s).pc := by
      rw [me_updMe, setG_pc]
    rw [retire, pc] at h
    refine ⟨_, h, goesOn_retireAt_updMe _ s _ (setG_st _ _ _), ⟨?_, fun r hr => ?_⟩, ?_, ?_, restKept_retireAt_updMe _ s _⟩
    · rw [gr, me_retireAt, me_updMe, gr_retired, gr_setG, if_pos rfl]
    · rw [gr, me_retireAt, me_updMe, gr_retired, gr_setG, if_neg hr]; rfl
    · rw [me_retireAt, me_updMe, latch_retired, setG_rest]
    · rw [me_retireAt, me_updMe, kept_retired, kept_setG]; rfl
  · have h : exec (.park a d) s = _ := execPark_slot a d fenced slot
    rw [if_neg (not_not_intro latch), park, waitAs, updMe_updMe] at h
    refine ⟨_, h, ?_, ?_, ?_, fun r => ?_, fun off => ?_, fun on clear => ?_, restKept_updMe s _⟩
    · rw [me_updMe]
    · rw [me_updMe]
    · rw [me_updMe]
    · rw [gr, me_updMe]; rfl
    · rw [me_updMe]; exact if_pos off
    · rw [me_updMe]; exact (if_neg on).trans (by rw [clear]; rfl)
  · refine results_of_retireAt ?_
    show finish (settled _ _) = _
    rw [settled_of_fenced fenced, if_neg (by simpa using slot), tokenIn_none (by decide) idle, tokenIn_none (by decide) idle]
    rfl
  · refine takesTrap_word (ofNat_encodeWord_rFields (maj := 0x1D) (fn := 2) (b := 0) (a := a) (d := 0) (by decide) (by decide) rfl) ?_
    show finish (settled _ _) = _
    rw [settled_of_fenced fenced, if_pos slot]

end Sys2Proof.Machine
end

section
/-!
PROOFS. The return from a trap and nfall, the traps of privilege, numbers and ownership, and what a write of a system register does not keep
(R6, R118, R133, R146, R218, R413, R416, R425, R427).
-/

namespace Sys2Proof.Machine

set_option Elab.async false

/-! ## Nightfall from an instruction (R425, R427, R430) -/

theorem intstat_raiseInt {v : Nat} (hv : v < 8) (s : State) : (raiseInt v s).boot.intstat.getLsbD v = true := by
  have raised : (s.boot.intstat ||| (1#8 <<< v)).getLsbD v = true := by
    simp only [BitVec.getLsbD_or, BitVec.getLsbD_shiftLeft, hv, decide_true, Nat.lt_irrefl, decide_false, Bool.not_false, Bool.true_and,
      Nat.sub_self, Bool.or_eq_true]
    exact .inr rfl
  unfold raiseInt sendMsix
  split
  · assumption
  · dsimp only; split <;> exact raised

/-- PARTIAL and PPORT stand above the count of origins. -/
theorem partialBits_low (s : State) : (partialBits s).setWidth 16 = 0#16 := by
  unfold partialBits
  split
  · next p _ =>
    refine BitVec.eq_of_getLsbD_eq fun i hi => ?_
    simp only [BitVec.getLsbD_setWidth, BitVec.getLsbD_or, BitVec.getLsbD_shiftLeft, BitVec.getLsbD_zero]
    rw [decide_eq_true (show i < 59 by omega), decide_eq_true (show i < 48 by omega)]
    simp
  · rfl

/-- The first origin of a night on a device that was not frozen (R430, R466). -/
theorem startWave_first (key : BitVec 32) (cause : BitVec 8) (from' : Option Nat) {s : State} (awake : s.night.nfstat.getLsbD 63 = false) :
    (startWave key cause from' s).night.nfcause = causeWord s.night.nfcause key cause ∧
      (startWave key cause from' s).night.nfstat.setWidth 16 = 1#16 ∧ (startWave key cause from' s).boot.intstat.getLsbD 1 = true := by
  unfold startWave
  simp only [awake, Bool.not_false, Bool.true_or, Bool.not_true, Bool.false_and, Bool.false_eq_true, if_true, if_false]
  refine ⟨by rw [raiseInt_eq]; rfl, ?_, intstat_raiseInt (by decide) _⟩
  rw [raiseInt_eq]
  simp only [sendNight, sendFlits, BitVec.setWidth_or, partialBits_low]
  have cleared : BitVec.setWidth 16 (~~~0x0C0F00000000FFFF#64) = 0#16 := by decide
  rw [BitVec.setWidth_and, cleared, BitVec.and_zero]
  rfl

/-- NFCAUSE holds the cause in its bits 39 to 32 (R430). -/
theorem causeWord_cause (old : BitVec 64) (key : BitVec 32) (cause : BitVec 8) : (causeWord old key cause).extractLsb' 32 8 = cause := by
  unfold causeWord
  refine BitVec.eq_of_getLsbD_eq fun i hi => ?_
  simp only [BitVec.getLsbD_extractLsb', BitVec.getLsbD_or, BitVec.getLsbD_shiftLeft, BitVec.getLsbD_setWidth]
  simp only [show 32 + i < 45 by omega, show 32 + i < 40 by omega, show ¬ 32 + i < 32 by omega, show 32 + i < 64 by omega, hi,
    show i < 64 by omega, decide_true, decide_false, Bool.not_true, Bool.not_false, Bool.and_false, Bool.false_and, Bool.true_and, Bool.or_false,
    Bool.false_or, Nat.add_sub_cancel_left]

theorem xret_returns {s : State} (sys : isSys s = true) (fenced : Fenced s) :
    exec .xret s = .next (retireAt ((me s).xpc.setWidth 48 &&& ~~~1) (updMe s Hart.returnFromTrap)) := by
  show finish (if !isSys s then _ else settled _ _) = _
  rw [sys, settled_of_fenced fenced]
  dsimp only
  rw [me_updMe]
  rfl

theorem nfall_freezes {s : State} (a : BitVec 5) (sys : isSys s = true) (fenced : Fenced s) :
    exec (.nfall a) s = .next (startWave (originKey s s.curCore s.curSlot.val) ((gr s a).setWidth 8) none
      (updMe (retire 4 s) fun h => { h with st := .frozen, back := .ready, dstep := h.dstep &&& ~~~2 })) := by
  show finish (if !isSys s then _ else settled _ _) = _
  rw [sys, settled_of_fenced fenced]
  rfl

/-- Settles O20: `xret` is a retirement of the hart that returned, `nfall` a wave after one. -/
theorem trapReturnAndNightfall : Obligations.TrapReturnAndNightfall := by
  unfold Obligations.TrapReturnAndNightfall
  refine ⟨fun s sys fenced => ?_, fun s a sys fenced => ?_⟩
  · refine ⟨_, xret_returns sys fenced, goesOn_retireAt_updMe _ s _ rfl, fun r => ?_, ?_, ?_, restKept_retireAt_updMe _ s _⟩
    · rw [gr, me_retireAt, me_updMe]; rfl
    · rw [me_retireAt, me_updMe]; rfl
    · rw [me_retireAt, me_updMe]; rfl
  · have hart : me (startWave (originKey s s.curCore s.curSlot.val) ((gr s a).setWidth 8) none
        (updMe (retire 4 s) fun h => { h with st := .frozen, back := .ready, dstep := h.dstep &&& ~~~2 })) =
        { (me s).retired ((me s).pc + 4) with st := .frozen, back := .ready, dstep := (me s).dstep &&& ~~~2 } := by
      rw [me_startWave, me_updMe, retire, me_retireAt]; rfl
    refine ⟨_, nfall_freezes a sys fenced, ?_, ?_, ?_, ?_, fun r => ?_, startWave_night _ _ _ _, fun awake => ?_, fun b => ?_⟩
    · rw [hart]
    · rw [hart]
    · rw [hart]; rfl
    · rw [hart]
    · rw [gr, hart]; rfl
    · obtain ⟨cause, origins, vector⟩ := startWave_first (originKey s s.curCore s.curSlot.val) ((gr s a).setWidth 8) none
        (s := updMe (retire 4 s) fun h => { h with st := .frozen, back := .ready, dstep := h.dstep &&& ~~~2 }) awake
      exact ⟨by rw [cause, causeWord_cause], origins, vector⟩
    · rw [byteAt, startWave_mem]; rfl

/-! ## The checks of a register access (R133, R146) -/

/-- The conditions under which an access by number traps, and what it raises. -/
def refusedAccess (s : State) (n : BitVec 12) : Cause → Prop
  | .priv => n.getLsbD 11 = true ∧ isSys s = false
  | .illegalOp => n.getLsbD 11 = false ∧ sysGet s s.curCore s.curSlot n.toNat = none
  | .vown => (vecReg n.toNat = true ∧ n.toNat < 0x60 ∧ isVecHart s = false) ∨
      ∃ r, n.toNat = 0xA00 + r ∧ r < 0x60 ∧ vecReg r = true ∧ isSys s = true ∧ (myCore s).vec.bound = false ∧ s.curSlot ≠ 7
  | _ => False

theorem sysGet_vecReg {s : State} {c : Nat} {k : Fin 8} {r : Nat} (h : vecReg r = true) : (sysGet s c k r).isNone = false := by
  simp only [vecReg, Bool.or_eq_true, Bool.and_eq_true, decide_eq_true_eq, beq_iff_eq] at h
  by_cases low : r < 0x20
  · have : r = 0 ∨ r = 1 ∨ r = 2 ∨ r = 3 ∨ r = 4 ∨ r = 5 ∨ r = 8 := by omega
    obtain rfl | rfl | rfl | rfl | rfl | rfl | rfl := this <;> rfl
  · unfold sysGet
    simp only [show r ≠ 0 by omega, show r ≠ 1 by omega, show r ≠ 2 by omega, show r ≠ 3 by omega, show r ≠ 4 by omega, show r ≠ 5 by omega,
      show r ≠ 8 by omega, show r ≠ 0x10 by omega, show r ≠ 0x11 by omega, show r ≠ 0x12 by omega, show r ≠ 0x14 by omega,
      show r ≠ 0x15 by omega, show r ≠ 0x16 by omega, show r ≠ 0x17 by omega, show r ≠ 0x18 by omega, if_false]
    by_cases vpi : r < 0x40
    · rw [if_pos ⟨by omega, vpi⟩]; rfl
    · rw [if_neg (by omega), if_pos ⟨by omega, by omega⟩]; rfl

theorem sysAccess_refused {s : State} {n : BitVec 12} {c : Cause} (h : refusedAccess s n c) (word : BitVec 64) (write : Bool)
    (k : Nat → Bool → Res Unit) : sysAccess n word write s k = .trap c word s := by
  have bit11 : n.getLsbD 11 = decide (0x800 ≤ n.toNat) := by
    have := n.isLt
    rw [BitVec.getLsbD, Nat.testBit_eq_decide_div_mod_eq]
    exact decide_eq_decide.mpr (by omega)
  cases c
  case priv => exact (if_pos h.1).trans (if_pos (by rw [h.2]; rfl))
  case illegalOp =>
    refine (if_neg (by rw [h.1]; decide)).trans (if_pos ?_)
    rw [h.2]; rfl
  case vown =>
    obtain ⟨vec, low, other⟩ | ⟨r, number, low, vec, sys, unbound, slot⟩ := h
    · refine (if_neg (by rw [bit11, decide_eq_false (by omega)]; decide)).trans ((if_neg ?_).trans ((if_neg ?_).trans (if_pos ?_)))
      · rw [sysGet_vecReg vec]; decide
      · simp only [Bool.and_eq_true, decide_eq_true_eq]; omega
      · rw [vec, other]; rfl
    · refine (if_pos (by rw [bit11]; exact decide_eq_true (by omega))).trans ((if_neg (by rw [sys]; decide)).trans ?_)
      have view : viewOf n.toNat = some r := by
        rw [viewOf, if_pos ⟨by omega, by omega⟩, number, Nat.add_sub_cancel_left]
      rw [view]
      refine (if_neg (by rw [sysGet_vecReg vec]; decide)).trans (if_pos ?_)
      rw [vec, unbound]
      simpa using slot
  all_goals exact h.elim

theorem mfs_refused {s : State} {n : BitVec 12} {c : Cause} (d : BitVec 5) (h : refusedAccess s n c) :
    TakesTrap (.mfs n d) s c (BitVec.ofNat 64 (encodeWord (.mfs n d))) := by
  refine takesTrap_word (ofNat_encodeWord_iFields (maj := 0x1E) (fn3 := 0) (n := n) (a := 0) (d := d) (by decide) (by decide) rfl) ?_
  exact congrArg finish (sysAccess_refused h _ _ _)

theorem mts_refused {s : State} {n : BitVec 12} {c : Cause} (a : BitVec 5) (h : refusedAccess s n c) :
    TakesTrap (.mts n a) s c (BitVec.ofNat 64 (encodeWord (.mts n a))) := by
  refine takesTrap_word (ofNat_encodeWord_iFields (maj := 0x1E) (fn3 := 1) (n := n) (a := a) (d := 0) (by decide) (by decide) rfl) ?_
  exact congrArg finish (sysAccess_refused h _ _ _)

/-- The words of the privileged instructions of major 0x1E: function value 0x180 + f. -/
theorem ofNat_encodeWord_privFields {i : Instr} {f : Nat} {b a d : BitVec 5} (hf : f < 128)
    (h : encodeFields i = [(1, 1), (6, 0x1E), (5, d.toNat), (5, a.toNat), (5, b.toNat), (7, f), (3, 3)]) :
    BitVec.ofNat 64 (encodeWord i) = rWord 0x1E (0x180 + f) b a d := by
  refine congrArg (BitVec.ofNat 64) ?_
  have hd := d.isLt; have ha := a.isLt; have hb := b.isLt
  rw [encodeWord, h]; simp only [pack]; omega

/-- A privileged instruction at user level (R6, R413). -/
theorem takesTrap_priv {i : Instr} {s : State} {w : BitVec 64} {k : Res Unit} (user : isSys s = false)
    (word : BitVec.ofNat 64 (encodeWord i) = w) (h : exec i s = finish (if !isSys s then .trap .priv w s else k)) :
    TakesTrap i s .priv (BitVec.ofNat 64 (encodeWord i)) :=
  takesTrap_word word (by rw [h, user]; rfl)

/-- Settles O18: by the checks of a register access, and by the check of the level that each privileged instruction begins with. -/
theorem accessRightTraps : Obligations.AccessRightTraps := by
  unfold Obligations.AccessRightTraps
  refine ⟨fun s n a b d user => ?_, fun s n a d w => ⟨?_, fun low unassigned => ?_, fun vec => ⟨fun other => ?_, fun sys unbound slot => ?_⟩⟩⟩
  · intro traps
    refine ⟨fun high => ⟨mfs_refused d ⟨high, user⟩, mts_refused a ⟨high, user⟩⟩, ?_, ?_, ?_, ?_, ?_, ?_⟩
    · exact takesTrap_priv user (ofNat_encodeWord_privFields (f := 0) (b := 0) (a := 0) (d := 0) (by decide) rfl) rfl
    · exact takesTrap_priv user (ofNat_encodeWord_privFields (f := 1) (b := 0) (a := a) (d := d) (by decide) rfl) rfl
    · exact takesTrap_priv user (ofNat_encodeWord_privFields (f := 2) (b := 0) (a := a) (d := d) (by decide) rfl) rfl
    · exact takesTrap_priv user (ofNat_encodeWord_privFields (f := 3) (b := b) (a := a) (d := d) (by decide) rfl) rfl
    · exact takesTrap_priv user (ofNat_encodeWord_privFields (f := 4) (b := b) (a := a) (d := 0) (by decide) rfl) rfl
    · exact takesTrap_priv user (ofNat_encodeWord_rFields (b := 0) (a := a) (d := 0) (by decide) (by decide) rfl) rfl
  · exact takesTrap_of rfl
  · exact ⟨mfs_refused d ⟨low, unassigned⟩, mts_refused a ⟨low, unassigned⟩⟩
  · have h : refusedAccess s n .vown := .inl ⟨by simpa [vecReg, or_assoc] using vec, by omega, other⟩
    exact ⟨mfs_refused d h, mts_refused a h⟩
  · have h : refusedAccess s (0xA00 + n) .vown := .inr ⟨n.toNat, by rw [BitVec.toNat_add]; show (0xA00 + n.toNat) % 4096 = _; omega, by omega,
      by simpa [vecReg, or_assoc] using vec, sys, unbound, slot⟩
    exact ⟨mfs_refused d h, mts_refused a h⟩

/-! ## A write that ends the wait of its own hart -/

/-- A hart of core 0 that waits for a change of configuration under way, and yet is the one that executes. -/
def waysWaiter : State :=
  updMyCore State.reset fun q => { q.setHart 0 { q.harts.get 0 with wait := .ways } with
    wayReqs := [{ slot := 0, narr := 1, nbank := 1, began := true }] }

/-- WAYSTAT of core 0 in the state an instruction leads to. -/
def waystatOf : Out → Option (BitVec 64)
  | .next t => sysGet t 0 0 0xC3
  | _ => none

theorem waystat_waysWaiter : sysGet waysWaiter 0 0 0xC3 = some 0x101010E := by decide
theorem waystat_mts_waysWaiter : waystatOf (exec (.mts 0x16 0) waysWaiter) ≠ some 0x101010E := by decide

/-- Refutes O17: WAYSTAT shows a change of configuration while its hart waits for it, and any instruction that retires ends that wait; `mts` of BWTO
by a hart that waits for such a change turns WAYSTAT.BUSY off. -/
theorem not_systemRegisterAccess : ¬ Obligations.SystemRegisterAccess := by
  unfold Obligations.SystemRegisterAccess
  rintro ⟨-, writes⟩
  have settled : Settled waysWaiter := fun h => absurd h (by decide)
  obtain ⟨t, next, -, -, others, -⟩ := writes waysWaiter 0 0x16 0xFFFFFFFF settled (.inl (by decide))
  have same : sysGet t t.curCore t.curSlot 0xC3 = some 0x101010E :=
    (others 0xC3 (by decide) (by decide) (by decide) (by decide)).trans waystat_waysWaiter
  have here : t.curCore.val = 0 ∧ t.curSlot = 0 := by
    have : Host.Outcome.next t = .next (retire 4 (sysPut 0 0 0x16 0 waysWaiter)) := next.symm.trans (by rfl)
    obtain rfl := Host.Outcome.next.inj this
    exact ⟨rfl, rfl⟩
  refine waystat_mts_waysWaiter ?_
  have next' : exec (.mts 0x16 0) waysWaiter = .next t := next
  rw [next', waystatOf, ← same, here.1, here.2]

end Sys2Proof.Machine
end

section
/-!
PROOFS. A step of a core runs what its fetched bytes decode to; the end of a step unit (R216 to R219, R386, R426, R436).
-/

namespace Sys2Proof.Machine

set_option Elab.async false

/-- What follows the turn of a hart: the end of a unit that the debug module steps. -/
def Out.unitEnds (c : Nat) (k : Fin 8) : Out → Out
  | .next t => .next (endUnit c k t)
  | o => o

/-- A step whose agenda names a core is the turn of the slot that wins there. -/
theorem step_core {s : State} {c : Fin 2048} {k : Fin 8} {rest : List Act} (agenda : s.agenda = .core c :: rest)
    (wins : pickSlot (advance 1 { s with agenda := rest }) c = some k) :
    step s = issueHart c k { advance 1 { s with agenda := rest } with lastCore := c.val } := by
  rw [step, nextAct, agenda]
  show issueCore c (advance 1 { s with agenda := rest }) = _
  rw [issueCore, wins]

theorem issueHart_eq (c : Fin 2048) (k : Fin 8) (u : State) :
    issueHart c k u = Out.unitEnds c k (if (hartAt u c k).unitOver then unitTurn c k u else issueInstr (issuing c k u)) := by
  rw [issueHart]
  generalize (if (hartAt u c k).unitOver then unitTurn c k u else issueInstr (issuing c k u)) = o
  cases o <;> rfl

/-- The instruction of a hart that stands at no block port and meets no execute region is that of its fetched bytes. -/
theorem issueInstr_fetched {x t : State} {bs : List (BitVec 8)} (port : (me x).atPort = false)
    (free : execMatch (myCore x) (pc64 x).toNat = none) (fetched : fetchBytes x = .ok bs t) : issueInstr x = runBytes bs t := by
  rw [issueInstr, if_neg (by rw [port]; decide), issueNew, free]
  show fetchRun x = _
  rw [fetchRun, fetched]

theorem issueInstr_port {x : State} (port : (me x).atPort = true) : issueInstr x = portTurn x := if_pos port

theorem runBytes_awaits {bs : List (BitVec 8)} {t : State} (h : awaitsScalar bs t = true) : runBytes bs t = .next t := if_pos h

theorem runBytes_exec {bs : List (BitVec 8)} {t : State} {i : Instr} (free : awaitsScalar bs t = false) (decodes : decoded bs = i)
    (port : needsPort i t = false) : runBytes bs t = exec i t := by
  rw [runBytes, decodes, if_neg (by rw [free]; decide), if_neg (by rw [port]; decide)]

theorem decoded_ok {bs : List (BitVec 8)} {i : Instr} {n : Nat} (h : decode bs = .ok (i, n)) : decoded bs = i := by rw [decoded, h]
theorem decoded_error {bs : List (BitVec 8)} {e : DecodeError} (h : decode bs = .error e) : decoded bs = .illegalOp (wordOf bs) := by
  rw [decoded, h]

/-! ## The hart that issues -/

theorem hartAt_noteIssue (s : State) (c : Nat) (k j : Fin 8) : hartAt (noteIssue s c k) c j = hartAt s c j := by
  rw [hartAt, noteIssue, coreAt_setCore_self]; rfl

theorem me_act (s : State) (c : Fin 2048) (k : Fin 8) : me { noteIssue s c k with curCore := c, curSlot := k } = hartAt s c k :=
  hartAt_noteIssue s c k k

theorem atPort_issuing (c : Fin 2048) (k : Fin 8) (s : State) : (me (issuing c k s)).atPort = (hartAt s c k).atPort := by
  rw [issuing, beginUnit, me_updMe, me_act]
  split
  · split <;> rfl
  · rfl

theorem atPort_unitOn (c : Fin 2048) (k : Fin 8) (s : State) : (me (unitOn c k s)).atPort = (hartAt s c k).atPort := by
  rw [unitOn, me_updMe, me_act]; rfl

/-! ## The end of a unit (R426, R436) -/

/-- A hart that the debug module does not step is left as it is. -/
theorem hartAt_endUnit_free {c : Nat} {k : Fin 8} {t : State} (free : (hartAt t c k).dbgStep = false) : hartAt (endUnit c k t) c k = hartAt t c k := by
  rw [endUnit, hartAt_updHart_self, if_pos (by rw [free]; rfl)]

/-- A READY hart whose stepped unit is over halts, nothing of it outstanding (R436). -/
theorem hartAt_endUnit_over {c : Nat} {k : Fin 8} {t : State} (steps : (hartAt t c k).dbgStep = true) (ready : (hartAt t c k).st = .ready)
    (done : (hartAt t c k).stepDone = true)
    (settled : ((coreAt t c).vec.bound && (coreAt t c).vec.slot == k && !(coreAt t c).quiet) = false) :
    hartAt (endUnit c k t) c k = { hartAt t c k with st := .halted, back := .ready, dbgStep := false } := by
  rw [endUnit, hartAt_updHart_self, if_neg (by rw [steps]; decide)]
  simp only [ready, done, settled, Bool.not_false, Bool.and_true, if_true]

theorem unitOpen_of_quiet {v : State} (quiet : isVecHart v = true → (myCore v).quiet = true) : unitOpen v = false := by
  cases vec : isVecHart v
  · rw [unitOpen, vec]; rfl
  · have := quiet vec
    simp only [Core.quiet, Bool.and_eq_true] at this
    obtain ⟨⟨⟨empty, -⟩, -⟩, -⟩ := this
    rw [unitOpen, empty]; simp

/-- The unit of hart k of core c ends before the instruction at its PC: the debug module's at `endUnit`, R426's with STEP. -/
theorem unitTurn_over {c : Fin 2048} {k : Fin 8} {u : State} (quiet : Settled { u with curCore := c, curSlot := k })
    (isOver : unitTakes { u with curCore := c, curSlot := k } = false) :
    unitTurn c k u = if (hartAt u c k).dbgStep then .next { u with curCore := c, curSlot := k } else
      .next (takeTrap .step (((hartAt u c k).stepHead.getD (hartAt u c k).pc).zeroExtend 64) false { u with curCore := c, curSlot := k }) := by
  have hart : me { u with curCore := c, curSlot := k } = hartAt u c k := rfl
  rw [unitTurn, isOver]
  simp only [unitOpen_of_quiet quiet, hart, Bool.false_and, Bool.or_false, Bool.false_eq_true, if_false]
  rw [finish_trap _ _ _ quiet]

/-- A trap's vector runs at system level. -/
theorem sys_vector (h : Hart) : h.vector.sys = true := by
  show (h.xstat ||| 1#64).getLsbD 0 = true
  rw [BitVec.getLsbD_or]; exact Bool.or_true _

/-- Settles O26: by what the turn of the slot that wins is, the instruction of its bytes or the end of its unit. -/
theorem stepRunsDecoded : Obligations.StepRunsDecoded := by
  unfold Obligations.StepRunsDecoded
  intro s u c k rest agenda hu wins h v runs
  have turn : step s = Out.unitEnds c k (if h.unitOver then unitTurn c k u else issueInstr (issuing c k u)) := by
    rw [step_core agenda wins, ← hu, issueHart_eq]
  have ran (x : State) (port : (me x).atPort = h.atPort) (takes : step s = Out.unitEnds c k (issueInstr x)) : runs x := by
    have ends (o : Out) : (match o with | .next v => .next (endUnit c k v) | o => o) = Out.unitEnds c k o := by cases o <;> rfl
    refine ⟨fun at' => ?_, fun away free t bs fetched => ⟨fun awaits => ?_, fun i n dec free' noPort => ?_, fun e dec free' noPort => ?_⟩⟩
    · rw [takes, issueInstr_port (port.trans at')]; exact (ends _).symm
    · rw [takes, issueInstr_fetched (port.trans away) free fetched, runBytes_awaits awaits]; rfl
    · rw [takes, issueInstr_fetched (port.trans away) free fetched, runBytes_exec free' (decoded_ok dec) noPort]; exact (ends _).symm
    · rw [takes, issueInstr_fetched (port.trans away) free fetched, runBytes_exec free' (decoded_error dec) noPort]; exact (ends _).symm
  refine ⟨fun isOver => ran _ (atPort_issuing c k u) ?_, fun isOver goes => ran _ (atPort_unitOn c k u) ?_, fun isOver ends quiet => ?_⟩
  · rw [turn, isOver]; rfl
  · rw [turn, isOver, if_pos rfl, unitTurn, if_pos goes]
  · rw [isOver, if_pos rfl, unitTurn_over quiet ends] at turn
    have mem : u.mem = s.mem := by rw [hu]; rfl
    refine ⟨fun steps ready => ?_, fun free nf => ?_⟩
    · rw [if_pos steps] at turn
      have done : h.stepDone = true := by
        have := isOver; simp only [Hart.unitOver, Bool.and_eq_true] at this; exact this.1
      have idle : ((coreAt v c).vec.bound && (coreAt v c).vec.slot == k && !(coreAt v c).quiet) = false := by
        show (isVecHart v && !(myCore v).quiet) = false
        cases vec : isVecHart v
        · rfl
        · rw [quiet vec]; rfl
      have hart : hartAt (endUnit c k v) c k = { h with st := .halted, back := .ready, dbgStep := false } :=
        hartAt_endUnit_over (t := v) steps ready done idle
      exact ⟨_, turn, by rw [hart], by rw [hart], by rw [hart], by rw [hart], fun r => by rw [hart]; rfl, mem⟩
    · rw [if_neg (by show ¬ h.dbgStep = true; rw [free]; decide), takeTrap_eq _ _ _ _ nf] at turn
      have trapped : hartAt (updMe v fun q => (q.record .step ((h.stepHead.getD h.pc).zeroExtend 64) false).vector) c k =
        (h.record .step ((h.stepHead.getD h.pc).zeroExtend 64) false).vector := me_updMe v _
      have hart := (hartAt_endUnit_free (c := c) (k := k) (by rw [trapped]; exact free)).trans trapped
      refine ⟨_, turn, ?_, ?_, ?_, ?_, ?_, fun r => ?_, mem⟩
      · exact (congrArg Hart.xcause hart).trans rfl
      · exact (congrArg Hart.xval hart).trans rfl
      · exact (congrArg Hart.xpc hart).trans rfl
      · exact (congrArg Hart.sys hart).trans (sys_vector _)
      · exact (congrArg Hart.pc hart).trans rfl
      · exact (congrArg (Hart.gr · r) hart).trans rfl

end Sys2Proof.Machine
end

section
/-!
PROOFS. What the integer operations give on one element: the operations of w-bit words (R149, R291, R293, R294).
-/

namespace Sys2Proof.Machine

set_option Elab.async false

/-- The integer a word of w bits stands for. -/
def wordVal {w : Nat} (uns : Bool) (X : BitVec w) : Int := if uns then X.toNat else X.toInt

theorem ofInt_wordVal {w : Nat} (uns : Bool) (X : BitVec w) : BitVec.ofInt w (wordVal uns X) = X := by
  cases uns
  · exact BitVec.ofInt_toInt
  · exact (BitVec.ofInt_natCast w X.toNat).trans ((BitVec.ofNat_toNat w X).trans (BitVec.setWidth_eq X))

section
variable {w : Nat} (hw : w ≤ 64)
include hw

theorem setWidth_mod (X : BitVec w) : (X.setWidth 64).toNat % 2 ^ w = X.toNat := by
  rw [BitVec.toNat_setWidth_of_le hw, Nat.mod_eq_of_lt X.isLt]

theorem intOf_setWidth (uns : Bool) (X : BitVec w) : intOf uns w (X.setWidth 64) = wordVal uns X := by
  rw [intOf, setWidth_mod hw, wordVal]
  cases uns
  · rw [BitVec.toInt_eq_toNat_cond]; simp
  · rfl

theorem cutInt_eq (z : Int) : cutInt w z = (BitVec.ofInt w z).setWidth 64 := by
  refine BitVec.eq_of_toNat_eq ?_
  have le : (2 : Int) ^ w ≤ 2 ^ 64 := by exact_mod_cast Nat.pow_le_pow_right (by decide) hw
  have pos : (0 : Int) < 2 ^ w := by positivity
  have lo := Int.emod_nonneg z pos.ne'
  have hi := Int.emod_lt_of_pos z pos
  rw [cutInt, BitVec.toNat_setWidth_of_le hw, BitVec.toNat_ofInt, BitVec.toNat_ofInt]
  congr 1
  push_cast
  exact Int.emod_eq_of_lt lo (lt_of_lt_of_le hi le)

theorem cutBits_eq (x : BitVec 64) : cutBits w x = (x.setWidth w).setWidth 64 := by
  refine BitVec.eq_of_toNat_eq ?_
  rw [cutBits, BitVec.toNat_setWidth_of_le hw, BitVec.toNat_setWidth, BitVec.toNat_ofNat]
  exact Nat.mod_eq_of_lt (lt_of_lt_of_le (Nat.mod_lt _ (by positivity)) (Nat.pow_le_pow_right (by decide) hw))

end

/-! ## The operations of the model -/

/-- Integer arithmetic on elements without a plane view. -/
def arithOf (o : VOp) (t x y : BitVec 64) (sc : Bool) : BitVec 64 × Flags :=
  let (x, fx) := srcInt t true x
  let (y, fy) := srcInt t (!sc) y
  let (v, fl) := intOp o (vtUns t) (vtSew t) x y
  (cutInt (vtSew t) v, fx ||| fy ||| fl)

/-- An integer compare of elements. -/
def compareOf (o : VOp) (t x y : BitVec 64) (sc : Bool) : BitVec 64 × Flags :=
  let (x, fx) := srcInt t true x
  let (y, fy) := srcInt t (!sc) y
  (if intCmp o x y then 1 else 0, fx ||| fy)

section
variable {t : BitVec 64} {w : Nat} {X Y : BitVec w} {sc : Bool} (sew : vtSew t = w) (hw : w ≤ 64) (plane : vtPl t = 0)
include sew hw plane

theorem srcInt_plain (view : Bool) : srcInt t view (X.setWidth 64) = (wordVal (vtUns t) X, 0) := by
  rw [srcInt, plane, if_neg (by simp), sew, intOf_setWidth hw]

theorem arithOf_eq (o : VOp) {v : Int × Flags} {z : BitVec w} (value : intOp o (vtUns t) w (wordVal (vtUns t) X) (wordVal (vtUns t) Y) = v)
    (word : BitVec.ofInt w v.1 = z) : arithOf o t (X.setWidth 64) (Y.setWidth 64) sc = (z.setWidth 64, v.2) := by
  rw [arithOf, srcInt_plain sew hw plane, srcInt_plain sew hw plane, sew]
  dsimp only
  rw [value, cutInt_eq hw, word]
  simp

theorem compareOf_eq (o : VOp) {p : Bool} (value : intCmp o (wordVal (vtUns t) X) (wordVal (vtUns t) Y) = p) :
    compareOf o t (X.setWidth 64) (Y.setWidth 64) sc = (if p then 1 else 0, 0) := by
  rw [compareOf, srcInt_plain sew hw plane, srcInt_plain sew hw plane]
  dsimp only
  rw [value]; rfl

end

/-! ## The words they give -/

theorem ofInt_tdiv {w : Nat} (X Y : BitVec w) : BitVec.ofInt w (X.toInt.tdiv Y.toInt) = X.sdiv Y := by
  refine BitVec.eq_of_toInt_eq ?_
  rw [BitVec.toInt_ofInt, BitVec.toInt_sdiv]

theorem ofInt_tmod {w : Nat} (X Y : BitVec w) : BitVec.ofInt w (X.toInt.tmod Y.toInt) = X.srem Y := by
  refine BitVec.eq_of_toInt_eq ?_
  rw [BitVec.toInt_ofInt, ← BitVec.toInt_srem, ← BitVec.toInt_ofInt, BitVec.ofInt_toInt]

/-- Saturation gives the nearest value of the range, with SAT exactly when the value was outside. -/
theorem satInt_eq (uns : Bool) (w : Nat) (x : Int) :
    let lo : Int := if uns then 0 else -(2 ^ (w - 1))
    let hi : Int := if uns then 2 ^ w - 1 else 2 ^ (w - 1) - 1
    satInt uns w x = (max lo (min hi x), if x < lo ∨ hi < x then fSAT else 0) := by
  intro lo hi
  have range : lo ≤ hi := by
    have h1 : (0 : Int) < 2 ^ w := by positivity
    have h2 : (0 : Int) < 2 ^ (w - 1) := by positivity
    cases uns
    · show -((2 : Int) ^ (w - 1)) ≤ 2 ^ (w - 1) - 1; omega
    · show (0 : Int) ≤ 2 ^ w - 1; omega
  show (if x < lo then (lo, fSAT) else if hi < x then (hi, fSAT) else (x, 0)) = _
  by_cases below : x < lo
  · rw [if_pos below, if_pos (.inl below), min_eq_right (by omega), max_eq_left (by omega)]
  · by_cases above : hi < x
    · rw [if_neg below, if_pos above, if_pos (.inr above), min_eq_left (by omega), max_eq_right range]
    · rw [if_neg below, if_neg above, if_neg (by omega), min_eq_right (by omega), max_eq_right (by omega)]

theorem setWidth_back {w : Nat} (hw : w ≤ 64) (X : BitVec w) : (X.setWidth 64).setWidth w = X := by
  rw [BitVec.setWidth_setWidth_of_le X hw, BitVec.setWidth_eq]

theorem setWidth_shr {w : Nat} (hw : w ≤ 64) (X : BitVec w) (n : Nat) : (X.setWidth 64 >>> n).setWidth w = X >>> n := by
  refine BitVec.eq_of_toNat_eq ?_
  rw [BitVec.toNat_setWidth, BitVec.toNat_ushiftRight, BitVec.toNat_ushiftRight, BitVec.toNat_setWidth_of_le hw]
  exact Nat.mod_eq_of_lt (lt_of_le_of_lt (by rw [Nat.shiftRight_eq_div_pow]; exact Nat.div_le_self _ _) X.isLt)

theorem setWidth_shl {w : Nat} (hw : w ≤ 64) (X : BitVec w) (n : Nat) : (X.setWidth 64 <<< n).setWidth w = X <<< n := by
  rw [BitVec.setWidth_shiftLeft_of_le hw, setWidth_back hw]

theorem logOp_sra {w : Nat} (hw : w ≤ 64) (X : BitVec w) (y : BitVec 64) :
    (logOp .sra w (X.setWidth 64) y).setWidth w = X.sshiftRight (y.toNat % w) := by
  show (cutInt w (intOf false w (X.setWidth 64) / 2 ^ (y.toNat % w))).setWidth w = _
  rw [cutInt_eq hw, setWidth_back hw, intOf_setWidth hw, wordVal, if_neg (by decide), BitVec.sshiftRight, Int.shiftRight_eq_div_pow]
  norm_cast

theorem wordVal_eq_iff {w : Nat} (uns : Bool) (X Y : BitVec w) : wordVal uns X = wordVal uns Y ↔ X = Y :=
  ⟨fun h => by rw [← ofInt_wordVal uns X, h, ofInt_wordVal], fun h => h ▸ rfl⟩

theorem wordVal_eq_zero {w : Nat} (uns : Bool) (Y : BitVec w) : wordVal uns Y = 0 ↔ Y = 0 := by
  rw [← wordVal_eq_iff uns Y 0]; cases uns <;> simp [wordVal]

theorem wordVal_false {w : Nat} (X : BitVec w) : wordVal false X = X.toInt := rfl
theorem wordVal_true {w : Nat} (X : BitVec w) : wordVal true X = X.toNat := rfl

theorem ofInt_ite {w : Nat} {P Q : Prop} [Decidable P] [Decidable Q] {a b : Int} {A B : BitVec w} (h : P ↔ Q) (ha : BitVec.ofInt w a = A)
    (hb : BitVec.ofInt w b = B) : BitVec.ofInt w (if P then a else b) = if Q then A else B := by
  by_cases hp : P
  · rw [if_pos hp, if_pos (h.mp hp), ha]
  · rw [if_neg hp, if_neg (fun q => hp (h.mpr q)), hb]

theorem ofInt_neg_one (w : Nat) : BitVec.ofInt w (-1) = BitVec.allOnes w := by
  have pos : (0 : Int) < 2 ^ w := by positivity
  refine BitVec.eq_of_toNat_eq ?_
  have wrap : (-1 : Int) % 2 ^ w = 2 ^ w - 1 := by
    rw [← Int.add_emod_right (-1) (2 ^ w), Int.emod_eq_of_lt (by omega) (by omega)]; omega
  rw [BitVec.toNat_ofInt, BitVec.toNat_allOnes]
  push_cast
  have nat : (2 : Int) ^ w - 1 = ((2 ^ w - 1 : Nat) : Int) := by push_cast [Nat.one_le_two_pow]; rfl
  rw [wrap, nat, Int.toNat_natCast]

/-- Settles O28: each operation is that of the integers its words stand for, cut to the width. -/
theorem integerElementValues : Obligations.IntegerElementValues := by
  unfold Obligations.IntegerElementValues
  intro t w sc b e r X Y sew hw plane x y is bit holds sat
  have arith (o : VOp) (h : elemOp o t sc e b r x y = arithOf o t x y sc) {v : Int} {z : BitVec w}
      (value : intOp o (vtUns t) w (wordVal (vtUns t) X) (wordVal (vtUns t) Y) = (v, 0)) (word : BitVec.ofInt w v = z) : is o z :=
    h.trans (arithOf_eq sew hw plane o value word)
  have compare (o : VOp) (h : elemOp o t sc e b r x y = compareOf o t x y sc) {p : Bool}
      (value : intCmp o (wordVal (vtUns t) X) (wordVal (vtUns t) Y) = p) : holds o p :=
    h.trans (compareOf_eq sew hw plane o value)
  have log (o : VOp) {z : BitVec w} (h : elemOp o t sc e b r x y = (cutBits (vtSew t) (logOp o (vtSew t) x y), 0))
      (value : (logOp o w x y).setWidth w = z) : is o z := by
    show elemOp o t sc e b r x y = _
    rw [h, sew, cutBits_eq hw, value]
  have add : BitVec.ofInt w (wordVal (vtUns t) X + wordVal (vtUns t) Y) = X + Y := by rw [BitVec.ofInt_add, ofInt_wordVal, ofInt_wordVal]
  have sub (A B : BitVec w) : BitVec.ofInt w (wordVal (vtUns t) A - wordVal (vtUns t) B) = A - B := by
    rw [eq_comm, BitVec.sub_eq_iff_eq_add]
    conv_rhs => rw [← ofInt_wordVal (vtUns t) B, ← BitVec.ofInt_add, ofInt_wordVal, sub_add_cancel, ofInt_wordVal]
  have mul : BitVec.ofInt w (wordVal (vtUns t) X * wordVal (vtUns t) Y) = X * Y := by rw [BitVec.ofInt_mul, ofInt_wordVal, ofInt_wordVal]
  have count : y.toNat = Y.toNat := BitVec.toNat_setWidth_of_le hw
  have back := setWidth_back hw (w := w)
  refine ⟨arith .add rfl rfl add, arith .sub rfl rfl (sub X Y), arith .rsub rfl rfl (sub Y X), arith .mul rfl rfl mul, log .and rfl ?_,
    log .or rfl ?_, log .xor rfl ?_, log .andn rfl ?_, log .not rfl ?_, log .shl rfl ?_, log .shr rfl ?_, log .sra rfl ?_,
    compare .seq rfl ?_, compare .sne rfl ?_, fun uns => ?_, fun uns => ?_⟩
  · show (x &&& y).setWidth w = _; rw [BitVec.setWidth_and, back, back]
  · show (x ||| y).setWidth w = _; rw [BitVec.setWidth_or, back, back]
  · show (x ^^^ y).setWidth w = _; rw [BitVec.setWidth_xor, back, back]
  · show (x &&& ~~~y).setWidth w = _; rw [BitVec.setWidth_and, BitVec.setWidth_not hw, back, back]
  · show (~~~x).setWidth w = _; rw [BitVec.setWidth_not hw, back]
  · show (x <<< (y.toNat % w)).setWidth w = _; rw [count, setWidth_shl hw]
  · show (x >>> (y.toNat % w)).setWidth w = _; rw [count, setWidth_shr hw]
  · rw [logOp_sra hw, count]
  · exact (decide_eq_decide.mpr (wordVal_eq_iff _ X Y)).trans (beq_eq_decide X Y).symm
  · show decide (wordVal (vtUns t) X ≠ wordVal (vtUns t) Y) = _
    rw [decide_eq_decide.mpr (not_congr (wordVal_eq_iff _ X Y)), bne, beq_eq_decide, decide_not]
  · have sat' (o : VOp) (h : elemOp o t sc e b r x y = arithOf o t x y sc) {v : Int}
        (value : intOp o (vtUns t) w (wordVal (vtUns t) X) (wordVal (vtUns t) Y) = satInt false w v) :
        sat o v (-(2 ^ (w - 1))) (2 ^ (w - 1) - 1) :=
      h.trans (arithOf_eq sew hw plane o (value.trans (satInt_eq false w v)) rfl)
    rw [uns] at arith compare sat'
    refine ⟨arith .mulh rfl rfl rfl, arith .div rfl rfl ?_, arith .rem rfl rfl ?_, arith .min rfl rfl ?_, arith .max rfl rfl ?_,
      compare .slt rfl ?_, compare .sle rfl ?_, compare .sgt rfl ?_, compare .sge rfl ?_, sat' .sadd rfl rfl, sat' .ssub rfl rfl⟩
    · exact ofInt_ite (wordVal_eq_zero _ Y) (ofInt_neg_one w) (ofInt_tdiv X Y)
    · exact ofInt_ite (wordVal_eq_zero _ Y) (ofInt_wordVal _ X) (ofInt_tmod X Y)
    · exact ofInt_ite BitVec.sle_iff_toInt_le.symm (ofInt_wordVal _ X) (ofInt_wordVal _ Y)
    · exact ofInt_ite BitVec.sle_iff_toInt_le.symm (ofInt_wordVal _ Y) (ofInt_wordVal _ X)
    · exact BitVec.slt_eq_decide.symm
    · exact BitVec.sle_eq_decide.symm
    · exact BitVec.slt_eq_decide.symm
    · exact BitVec.sle_eq_decide.symm
  · have sat' (o : VOp) (h : elemOp o t sc e b r x y = arithOf o t x y sc) {v : Int}
        (value : intOp o (vtUns t) w (wordVal (vtUns t) X) (wordVal (vtUns t) Y) = satInt true w v) : sat o v 0 (2 ^ w - 1) :=
      h.trans (arithOf_eq sew hw plane o (value.trans (satInt_eq true w v)) rfl)
    rw [uns] at arith compare sat'
    refine ⟨arith .mulh rfl rfl ?_, arith .div rfl rfl ?_, arith .rem rfl rfl ?_, arith .min rfl rfl ?_, arith .max rfl rfl ?_,
      compare .slt rfl ?_, compare .sle rfl ?_, compare .sgt rfl ?_, compare .sge rfl ?_, sat' .sadd rfl rfl, sat' .ssub rfl rfl⟩
    · show BitVec.ofInt w ((X.toNat : Int) * Y.toNat / 2 ^ w) = _
      rw [← BitVec.ofInt_natCast]; push_cast; rfl
    · refine ofInt_ite (wordVal_eq_zero _ Y) (ofInt_neg_one w) ?_
      show BitVec.ofInt w ((X.toNat : Int).tdiv Y.toNat) = _
      rw [← Int.ofNat_tdiv, BitVec.ofInt_natCast, BitVec.udiv_def]
    · refine ofInt_ite (wordVal_eq_zero _ Y) (ofInt_wordVal _ X) ?_
      show BitVec.ofInt w ((X.toNat : Int).tmod Y.toNat) = _
      rw [← Int.ofNat_tmod, BitVec.ofInt_natCast, BitVec.umod_def]
    · exact ofInt_ite (Int.ofNat_le.trans BitVec.le_def.symm) (ofInt_wordVal _ X) (ofInt_wordVal _ Y)
    · exact ofInt_ite (Int.ofNat_le.trans BitVec.le_def.symm) (ofInt_wordVal _ Y) (ofInt_wordVal _ X)
    · exact decide_eq_decide.mpr Int.ofNat_lt
    · exact decide_eq_decide.mpr Int.ofNat_le
    · exact decide_eq_decide.mpr Int.ofNat_lt
    · exact decide_eq_decide.mpr Int.ofNat_le

end Sys2Proof.Machine
end

section
/-!
PROOFS. The management mailbox (R464, R465, R467): how each of its commands ends.
-/

namespace Sys2Proof.Machine

set_option Elab.async false

/-- Raising a vector changes the interrupt state alone, and its bit is up then (R466). -/
theorem raiseInt_form (v : Nat) (s : State) : ∃ int pend sent,
    raiseInt v s = { s with boot := { s.boot with intstat := int, msixPend := pend, msixSent := sent } } ∧ (v < 8 → int.getLsbD v = true) := by
  have raised (hv : v < 8) := intstat_raiseInt hv s
  revert raised
  unfold raiseInt sendMsix
  split
  · exact fun raised => ⟨s.boot.intstat, s.boot.msixPend, s.boot.msixSent, rfl, raised⟩
  · dsimp only
    split
    · exact fun raised => ⟨_, _, s.boot.msixSent, rfl, raised⟩
    · exact fun raised => ⟨_, s.boot.msixPend, _, rfl, raised⟩

/-- What the obligation says of the end of a command. -/
def MailboxEnds (s : State) (i : Instr) (result : Nat) (boot : Boot → Prop) : Prop := ∃ t, exec i s = .next t ∧
  t.boot.mbxsts = BitVec.ofNat 64 (2 ^ 32 * t.boot.resp.length + result) ∧ t.boot.intstat.getLsbD 0 = true ∧ boot t.boot ∧
  t.cores = s.cores ∧ t.cols = s.cols ∧ t.mem = s.mem

/-- The registers of the boot controller after a command that left them as b. -/
def Boot.ended (b : Boot) (result : Nat) (resp : List (BitVec 8)) (int : BitVec 8) (pend : BitVec 64) (sent : List Nat) : Boot :=
  { b with mbxsts := BitVec.ofNat 64 (2 ^ 32 * resp.length + result), resp := resp, intstat := int, msixPend := pend, msixSent := sent }

/-- A command ends with its result, its response and vector 0 (R465). -/
theorem endCmd_ends {s : State} {i : Instr} {b : Boot} {result : Nat} {resp : List (BitVec 8)} {P : Boot → Prop}
    (run : exec i s = .next (endCmd result resp { s with boot := b })) (h : ∀ int pend sent, P (b.ended result resp int pend sent)) :
    MailboxEnds s i result P := by
  obtain ⟨int, pend, sent, eq, bit⟩ := raiseInt_form 0 { s with boot := { b with mbxsts := BitVec.ofNat 64 (2 ^ 32 * resp.length + result), resp := resp } }
  refine ⟨_, run, ?_⟩
  rw [endCmd, eq]
  exact ⟨rfl, bit (by decide), h int pend sent, rfl, rfl, rfl⟩

/-- The report that ATTEST signs (R464). -/
def attestReport (s : State) : List (BitVec 8) :=
  (List.range 32).map (fun i => tabGet 0 s.boot.arg i) ++
    [s.fabric.dev, s.boot.bootwhy.zeroExtend 8, s.boot.fails.zeroExtend 8, if s.boot.minimal then 1 else 0, 0, 0, 0, 0] ++
    bytes64 s.boot.ver1 ++ bytes64 s.boot.ver2 ++ bytes512 s.boot.meas0 ++ bytes512 s.boot.meas1 ++ List.replicate 72 0

/-- It starts with the nonce and the device number. -/
theorem attestReport_eq (s : State) : ∃ rest, rest.length = 223 ∧
    attestReport s = (List.range 32).map (fun i => tabGet 0 s.boot.arg i) ++ s.fabric.dev :: rest := by
  refine ⟨_, ?_, by rw [attestReport]; simp only [List.append_assoc, List.cons_append]; rfl⟩
  simp [bytes64, bytes512]

/-- The Nightfall register that a number names (R464). -/
theorem nightreg_read (s : State) (r : Nat) (h : r ≤ 2) : (privRead 0 (0x5000 + 8 * r) s).1 =
    if r = 0 then s.night.nfstat else if r = 1 then s.night.nfcause else s.night.nfctl := by
  obtain rfl | rfl | rfl : r = 0 ∨ r = 1 ∨ r = 2 := by omega
  · rfl
  · rfl
  · rfl

section
variable {s : State} (busy : s.boot.busy = true)
include busy

theorem running_code {k : Nat} (code : s.boot.code = k) : ¬ (!running s.boot k) = true := by simp [running, busy, code]

/-- ATTEST (R464): too short a nonce, or the report. -/
theorem attest_short (code : s.boot.code = 1) (short : s.boot.arglen < 32) : exec .attest s = .next (endCmd 3 [] s) :=
  (if_neg (running_code busy code)).trans (if_pos short)

theorem attest_run (code : s.boot.code = 1) (long : 32 ≤ s.boot.arglen) :
    exec .attest s = .next (endCmd 0 (attestReport s ++ (List.range 29792).map (Config.sign s.boot.seed (attestReport s))) s) :=
  (if_neg (running_code busy code)).trans (if_neg (Nat.not_lt.mpr long))

theorem attest_ends (code : s.boot.code = 1) :
    (s.boot.arglen < 32 → MailboxEnds s .attest 3 fun c => c.resp = []) ∧
    (32 ≤ s.boot.arglen → MailboxEnds s .attest 0 fun c => c.resp.length = 30048 ∧ (∀ n, n < 32 → c.resp.getD n 0 = tabGet 0 s.boot.arg n) ∧
      c.resp.getD 32 0 = s.fabric.dev) := by
  refine ⟨fun short => endCmd_ends (attest_short busy code short) fun _ _ _ => rfl, fun long => ?_⟩
  obtain ⟨rest, length, report⟩ := attestReport_eq s
  have run := attest_run busy code long
  have signed : ((List.range 29792).map (Config.sign s.boot.seed (attestReport s))).length = 29792 := by rw [List.length_map, List.length_range]
  generalize (List.range 29792).map (Config.sign s.boot.seed (attestReport s)) = signature at run signed
  rw [report] at run
  refine endCmd_ends run fun _ _ _ => ⟨?_, fun n hn => ?_, ?_⟩
  · simp [Boot.ended, length, signed]
  · simp [Boot.ended, List.getD_eq_getElem?_getD, List.getElem?_append, hn]
  · simp [Boot.ended, List.getD_eq_getElem?_getD]

/-- RESET (R464, R467), by its cases in order. -/
theorem mbxReset_ends (code : s.boot.code = 2) :
    (s.boot.arglen < 1 → MailboxEnds s .mbxReset 3 fun c => c.rstBusy = s.boot.rstBusy) ∧
    (1 ≤ s.boot.arglen → s.boot.minimal = true → s.boot.argByte 0 ≠ 1 → MailboxEnds s .mbxReset 2 fun c => c.rstBusy = s.boot.rstBusy) ∧
    (1 ≤ s.boot.arglen → (s.boot.minimal = true → s.boot.argByte 0 = 1) → s.boot.rstBusy = true →
      MailboxEnds s .mbxReset 5 fun c => c.rstCols = s.boot.rstCols) ∧
    (1 ≤ s.boot.arglen → (s.boot.minimal = true → s.boot.argByte 0 = 1) → s.boot.rstBusy = false → s.boot.argByte 0 ≠ 0 →
      MailboxEnds s .mbxReset 0 fun c => c.rstBusy = true ∧ c.rstCols = BitVec.ofNat 8 (s.boot.argByte 0)) := by
  have start {x : Out} (h : (if s.boot.arglen < 1 then .next (endCmd 3 [] s)
      else if s.boot.minimal ∧ s.boot.argByte 0 ≠ 1 then .next (endCmd 2 [] s)
      else if s.boot.rstBusy then .next (endCmd 5 [] s)
      else if s.boot.argByte 0 = 0 then .next (endCmd 0 [] s)
      else .next { endCmd 0 [] s with boot :=
        { (endCmd 0 [] s).boot with rstBusy := true, rstCols := BitVec.ofNat 8 (s.boot.argByte 0) } } : Out) = x) : exec .mbxReset s = x :=
    (if_neg (running_code busy code)).trans h
  refine ⟨fun short => ?_, fun long minimal one => ?_, fun long allowed rst => ?_, fun long allowed rst zero => ?_⟩
  · exact endCmd_ends (start (if_pos short)) fun _ _ _ => rfl
  · exact endCmd_ends (start ((if_neg (by omega)).trans (if_pos ⟨minimal, one⟩))) fun _ _ _ => rfl
  · exact endCmd_ends (start ((if_neg (by omega)).trans ((if_neg fun h => h.2 (allowed h.1)).trans (if_pos rst)))) fun _ _ _ => rfl
  · have run := start ((if_neg (by omega)).trans ((if_neg fun h => h.2 (allowed h.1)).trans ((if_neg (by rw [rst]; decide)).trans (if_neg zero))))
    obtain ⟨int, pend, sent, eq, bit⟩ := raiseInt_form 0 { s with boot := { s.boot with mbxsts := BitVec.ofNat 64 0, resp := [] } }
    rw [show endCmd 0 [] s = _ from eq] at run
    exact ⟨_, run, rfl, bit (by decide), ⟨rfl, rfl⟩, rfl, rfl, rfl⟩

/-- NIGHTREG (R464): refused in minimal mode, or a read. -/
theorem nightreg_ends (code : s.boot.code = 3) :
    (s.boot.minimal = true → MailboxEnds s .nightreg 2 fun c => c.resp = []) ∧
    (s.boot.minimal = false → 2 ≤ s.boot.arglen → s.boot.argByte 0 = 0 → s.boot.argByte 1 ≤ 2 → (∀ n, 2 ≤ n → n < 8 → s.boot.argByte n = 0) →
      MailboxEnds s .nightreg 0 fun c => c.resp = bytes64 (if s.boot.argByte 1 = 0 then s.night.nfstat
        else if s.boot.argByte 1 = 1 then s.night.nfcause else s.night.nfctl)) := by
  refine ⟨fun minimal => endCmd_ends ((if_neg (running_code busy code)).trans (if_pos minimal)) fun _ _ _ => rfl,
    fun minimal long read number padding => ?_⟩
  refine endCmd_ends (b := s.boot) (result := 0) (resp := bytes64 (privRead 0 (0x5000 + 8 * s.boot.argByte 1) s).1) ?_ fun _ _ _ => ?_
  · refine (if_neg (running_code busy code)).trans ((if_neg (by rw [minimal]; decide)).trans ((if_neg ?_).trans ?_))
    · rintro (short | write | unknown | pad)
      · rw [read] at short
        exact absurd short (by simp only [Nat.zero_ne_one, if_false]; omega)
      · rw [read] at write; exact absurd write (by decide)
      · omega
      · obtain ⟨i, hi, bad⟩ := List.any_eq_true.mp pad
        have hi := List.mem_range.mp hi
        rw [Bool.and_eq_true, decide_eq_true_eq, bne_iff_ne] at bad
        exact bad.2 (padding i bad.1 (by omega))
    · rw [read]; rfl
  · exact congrArg bytes64 (nightreg_read s _ number)

/-- UPDATE (R465): too short an argument. -/
theorem update_short (code : s.boot.code = 4) (short : s.boot.arglen < 16) :
    MailboxEnds s .update 3 fun c => c.image1 = s.boot.image1 ∧ c.image2 = s.boot.image2 :=
  endCmd_ends ((if_neg (running_code busy code)).trans (if_pos (.inl short))) fun _ _ _ => ⟨rfl, rfl⟩

end

/-- The chunks of an image received so far, those of this command laid behind them. -/
def Boot.stored (b : Boot) : List (BitVec 8) := if b.argByte 1 % 2 = 1 then [] else if b.argByte 0 = 1 then b.part1 else b.part2
def Boot.chunk (b : Boot) : List (BitVec 8) := (List.range (b.argWord 4 4)).map fun n => tabGet 0 b.arg (16 + n)

/-- The parts of an image, stored or dropped. -/
def Boot.putPart (b : Boot) (l : List (BitVec 8)) : Boot := if b.argByte 0 = 1 then { b with part1 := l } else { b with part2 := l }

/-- The chunk taken: with LAST the image is complete (R465). -/
def Boot.updated (b : Boot) : Boot :=
  if b.argByte 1 / 2 % 2 = 1 then
    if b.argByte 0 = 1 then { b.putPart [] with image1 := b.stored ++ b.chunk } else { b.putPart [] with image2 := b.stored ++ b.chunk }
  else b.putPart (b.stored ++ b.chunk)

/-- A well-formed UPDATE (R465). -/
structure Boot.UpdateOk (b : Boot) : Prop where
  long : 16 + b.argWord 4 4 ≤ b.arglen
  image : b.argByte 0 = 1 ∨ b.argByte 0 = 2
  flags : b.argByte 1 < 4
  padding : b.argWord 2 2 = 0
  some : 1 ≤ b.argWord 4 4
  most : b.argWord 4 4 ≤ 1776

section
variable {s : State} (busy : s.boot.busy = true) (code : s.boot.code = 4) (ok : s.boot.UpdateOk)
include busy code ok

theorem update_run : exec .update s =
    if s.boot.argWord 8 8 ≠ s.boot.stored.length ∨ 2 ^ 26 < s.boot.stored.length + s.boot.argWord 4 4 then
      .next (endCmd 4 [] { s with boot := s.boot.putPart [] })
    else .next (endCmd 0 [] { s with boot := s.boot.updated }) := by
  obtain ⟨long, image, flags, padding, some, most⟩ := ok
  refine (if_neg (running_code busy code)).trans ((if_neg ?_).trans rfl)
  omega

theorem update_ends :
    (s.boot.argWord 8 8 = s.boot.stored.length → s.boot.stored.length + s.boot.argWord 4 4 ≤ 2 ^ 26 → MailboxEnds s .update 0 fun c =>
      if s.boot.argByte 1 / 2 = 1 then
        (if s.boot.argByte 0 = 1 then c.image1 = s.boot.stored ++ s.boot.chunk ∧ c.part1 = [] ∧ c.image2 = s.boot.image2
          else c.image2 = s.boot.stored ++ s.boot.chunk ∧ c.part2 = [] ∧ c.image1 = s.boot.image1)
      else (if s.boot.argByte 0 = 1 then c.part1 = s.boot.stored ++ s.boot.chunk ∧ c.image1 = s.boot.image1
        else c.part2 = s.boot.stored ++ s.boot.chunk ∧ c.image2 = s.boot.image2)) ∧
    (s.boot.argWord 8 8 ≠ s.boot.stored.length → MailboxEnds s .update 4 fun c => (if s.boot.argByte 0 = 1 then c.part1 = [] else c.part2 = [])) := by
  have run := update_run busy code ok
  have flags := ok.flags
  refine ⟨fun place room => ?_, fun place => ?_⟩
  · refine endCmd_ends (run.trans (if_neg (by omega))) fun _ _ _ => ?_
    have last : s.boot.argByte 1 / 2 % 2 = s.boot.argByte 1 / 2 := Nat.mod_eq_of_lt (by omega)
    unfold Boot.updated Boot.putPart Boot.ended
    rw [last]
    split <;> split
    · exact ⟨rfl, rfl, rfl⟩
    · exact ⟨rfl, rfl, rfl⟩
    · exact ⟨rfl, rfl⟩
    · exact ⟨rfl, rfl⟩
  · refine endCmd_ends (run.trans (if_pos (.inl place))) fun _ _ _ => ?_
    unfold Boot.putPart Boot.ended
    split
    · rfl
    · rfl

end

/-- Settles O50, command by command. -/
theorem mailboxCommands : Obligations.MailboxCommands := by
  intro s busy
  refine ⟨attest_ends busy, mbxReset_ends busy, nightreg_ends busy, fun code => ⟨update_short busy code, ?_⟩⟩
  intro long image flags padding some most
  exact update_ends busy code ⟨long, image, flags, padding, some, most⟩

end Sys2Proof.Machine
end

section
/-!
PROOFS. Power, temperature and the privileged view (R80 to R83, R129, R134, R146, R147, R468, R469).
-/

namespace Sys2Proof.Machine

set_option Elab.async false

theorem colIx_val (k : Fin 8) : colIx k.val = k := Fin.ext (Nat.mod_eq_of_lt k.isLt)

/-- A column's instruction with a column's number: its unit is there. -/
theorem column_exists (k : Fin 8) : ¬ 8 ≤ k.val := Nat.not_le.mpr k.isLt

/-- A bit that is 0 alone. -/
theorem and_bit_zero {w : BitVec 64} {i : Nat} (h : w.getLsbD i = false) : w &&& BitVec.twoPow 64 i = 0#64 := by
  rw [BitVec.and_twoPow, h]; rfl

theorem and_bit_one {w : BitVec 64} {i : Nat} (h : w.getLsbD i = true) : w &&& BitVec.twoPow 64 i = BitVec.twoPow 64 i := by
  rw [BitVec.and_twoPow, h]; rfl

/-! ## A request for the upper layer (R80) -/

section
variable {s : State} {k : Fin 8} {on : Bool}

theorem layerReq_busy (bus : (colAt s k).vbstat.getLsbD 62 = false) (busy : (colAt s k).layerctl.getLsbD 2 = true) :
    layerReq k on s = setCol s k { colAt s k with layerNext := some on } := by
  rw [layerReq, updCol]
  refine congrArg (setCol s k) ((if_neg (by rw [bus]; decide)).trans (if_pos busy))

/-- LAYERCTL after a request that starts a transition, or finds the layer as asked. -/
def requested (w : BitVec 64) (on : Bool) : BitVec 64 :=
  (w &&& 1) ||| (w &&& ~~~7) ||| (if on then 2 else 0) ||| (if w.getLsbD 0 = on then 0 else 4)

theorem setBits_bit1 {w : BitVec 64} (x : BitVec 64) (h : w.getLsbD 2 = false) : setBits w x 1 1 = (w &&& 1) ||| (w &&& ~~~7) ||| (x &&& 2) := by
  have split : w &&& ~~~2 = (w &&& 1) ||| (w &&& ~~~7) ||| (w &&& BitVec.twoPow 64 2) := by
    rw [← BitVec.and_or_distrib_left, ← BitVec.and_or_distrib_left]; rfl
  rw [and_bit_zero h, BitVec.or_zero] at split
  rw [← split]; rfl

theorem layerReq_idle (bus : (colAt s k).vbstat.getLsbD 62 = false) (idle : (colAt s k).layerctl.getLsbD 2 = false) :
    layerReq k on s = setCol s k { colAt s k with layerctl := requested (colAt s k).layerctl on } := by
  rw [layerReq, updCol]
  refine congrArg (setCol s k) ((if_neg (by rw [bus]; decide)).trans ((if_neg (by rw [idle]; decide)).trans ?_))
  rw [setBits_bit1 _ idle, requested]
  have bit : (if on then (2 : BitVec 64) else 0) &&& 2 = if on then 2 else 0 := by cases on <;> rfl
  rw [bit]
  dsimp only
  split
  · rw [show (0 : BitVec 64) = 0#64 from rfl, BitVec.or_zero]
  · rfl

end

/-! ## Ways that lose power or gain it (R129) -/

/-- What the clearing of a core's ways leaves: the other cores, the columns, and no byte that was zero changed. -/
structure WaysCleared (c : Nat) (s t : State) : Prop where
  others : ∀ x, x ≠ c → coreAt t x = coreAt s x
  quiet : (coreAt t c).cw = (coreAt s c).cw ∧ ((coreAt s c).waiters = [] → (coreAt t c).waiters = [])
  cols : t.cols = s.cols
  net : t.net = s.net
  fabric : t.fabric = s.fabric
  zero : ∀ a, byteAt s a = 0 → byteAt t a = 0

theorem memGet_clearedWays (base a : Nat) : ∀ (ways : List Nat) (m : List Host.Cell),
    (memGet m a = 0 → memGet (ways.foldl (fun m w => memClear m (base + w * 2 ^ 18) (base + (w + 1) * 2 ^ 18)) m) a = 0) ∧
    ((∃ w ∈ ways, base + w * 2 ^ 18 ≤ a ∧ a < base + (w + 1) * 2 ^ 18) →
      memGet (ways.foldl (fun m w => memClear m (base + w * 2 ^ 18) (base + (w + 1) * 2 ^ 18)) m) a = 0)
  | [], _ => ⟨id, fun h => by obtain ⟨w, hw, -⟩ := h; cases hw⟩
  | w :: ways, m => by
    obtain ⟨stays, cleared⟩ := memGet_clearedWays base a ways (memClear m (base + w * 2 ^ 18) (base + (w + 1) * 2 ^ 18))
    refine ⟨fun zero => stays ?_, fun h => ?_⟩
    · rw [memGet_memClear, zero, ite_self]
    · obtain ⟨x, hx, low, high⟩ := h
      obtain rfl | hx := List.mem_cons.mp hx
      · exact stays (by rw [memGet_memClear, if_neg (by omega)])
      · exact cleared ⟨x, hx, low, high⟩

theorem waysCleared_clearWays (c : Nat) (ways : List Nat) (s : State) : WaysCleared c s (clearWays c ways s) := by
  refine ⟨fun x hx => coreAt_updCore_ne _ _ _ _ hx, ?_, rfl, rfl, rfl, fun a zero => (memGet_clearedWays _ a ways s.mem).1 zero⟩
  rw [clearWays, coreAt_updCore_self]
  exact ⟨rfl, id⟩

/-- The bytes of the cleared ways read zero. -/
theorem byteAt_clearWays (c : Nat) {ways : List Nat} {n b : Nat} (s : State) (hn : n ∈ ways) (hb : b < 2 ^ 18) :
    byteAt (clearWays c ways s) (bankGpa s c n b) = 0 := by
  refine (memGet_clearedWays _ _ ways s.mem).2 ⟨n, hn, ?_⟩
  unfold bankGpa mkGpa
  omega

theorem bankGpa_congr {s t : State} (h : t.fabric = s.fabric) (x n b : Nat) : bankGpa t x n b = bankGpa s x n b := by rw [bankGpa, mkGpa, h]; rfl

theorem mem_upperWays {n : Nat} (low : 8 ≤ n) (high : n < 16) : n ∈ upperWays := by
  refine List.mem_map.mpr ⟨n - 8, List.mem_range.mpr (by omega), by omega⟩

theorem waysCleared_wakeWays (c : Nat) : ∀ (ways : List Nat) (s : State), (coreAt s c).waiters = [] → WaysCleared c s (wakeWays c ways s)
  | [], s, _ => ⟨fun _ _ => rfl, ⟨rfl, id⟩, rfl, rfl, rfl, fun _ h => h⟩
  | w :: ways, s, nobody => by
    have step : wakeWays c (w :: ways) s = wakeWays c ways (updCore s c fun q => { q with waiters := tabDel q.waiters w }) := by
      unfold wakeWays
      rw [List.foldl_cons, nobody]
      rfl
    have empty : (coreAt (updCore s c fun q => { q with waiters := tabDel q.waiters w }) c).waiters = [] := by
      rw [coreAt_updCore_self, nobody]; rfl
    have rest := waysCleared_wakeWays c ways _ empty
    rw [step]
    refine ⟨fun x hx => (rest.others x hx).trans (coreAt_updCore_ne _ _ _ _ hx), ⟨rest.quiet.1.trans ?_, fun _ => rest.quiet.2 empty⟩,
      rest.cols, rest.net, rest.fabric, rest.zero⟩
    rw [coreAt_updCore_self]

/-- The upper ways of a core that holds no line and that nobody waits at. -/
theorem dropUpper_eq {c : Nat} {s : State} (h : (coreAt s c).cw = []) : dropUpper c s = clearWays c upperWays (wakeWays c upperWays s) := by
  rw [dropUpper, h]; rfl

theorem WaysCleared.trans {c : Nat} {s t u : State} (h : WaysCleared c s t) (k : WaysCleared c t u) : WaysCleared c s u :=
  ⟨fun x hx => (k.others x hx).trans (h.others x hx), ⟨k.quiet.1.trans h.quiet.1, fun e => k.quiet.2 (h.quiet.2 e)⟩, k.cols.trans h.cols,
    k.net.trans h.net, k.fabric.trans h.fabric, fun a z => k.zero a (h.zero a z)⟩

/-- What a step over the cores of a column does to each of them. -/
structure UpperCleared (c : Nat) (s t : State) : Prop extends WaysCleared c s t where
  banks : ∀ n b, 8 ≤ n → n < 16 → b < 2 ^ 18 → byteAt t (bankGpa s c n b) = 0

theorem upperCleared_clearWays (c : Nat) (s : State) : UpperCleared c s (clearWays c upperWays s) :=
  ⟨waysCleared_clearWays c upperWays s, fun _ _ low high hb => byteAt_clearWays c s (mem_upperWays low high) hb⟩

theorem upperCleared_dropUpper {c : Nat} {s : State} (lines : (coreAt s c).cw = []) (waiters : (coreAt s c).waiters = []) :
    UpperCleared c s (dropUpper c s) := by
  rw [dropUpper_eq lines]
  have woken := waysCleared_wakeWays c upperWays s waiters
  refine ⟨woken.trans (waysCleared_clearWays c _ _), fun n b low high hb => ?_⟩
  rw [← bankGpa_congr woken.fabric]
  exact byteAt_clearWays c _ (mem_upperWays low high) hb

/-- The upper ways of every core of a list, one after the other. -/
structure AllUpperCleared (cs : List Nat) (s t : State) : Prop where
  others : ∀ x, x ∉ cs → coreAt t x = coreAt s x
  cols : t.cols = s.cols
  net : t.net = s.net
  fabric : t.fabric = s.fabric
  zero : ∀ a, byteAt s a = 0 → byteAt t a = 0
  banks : ∀ c n b, c ∈ cs → 8 ≤ n → n < 16 → b < 2 ^ 18 → byteAt t (bankGpa s c n b) = 0

/-- A step that clears one core's upper ways, taken for each core of a list that keeps a condition P it needs. -/
theorem allUpperCleared_foldl {f : State → Nat → State} {P : Core → Prop} (step : ∀ s c, P (coreAt s c) → UpperCleared c s (f s c))
    (keeps : ∀ s c, P (coreAt s c) → P (coreAt (f s c) c)) : ∀ (cs : List Nat) (s : State), (∀ c ∈ cs, P (coreAt s c)) →
    AllUpperCleared cs s (cs.foldl f s)
  | [], s, _ => ⟨fun _ _ => rfl, rfl, rfl, rfl, fun _ h => h, fun c _ _ h => by cases h⟩
  | c :: cs, s, all => by
    have here := all c List.mem_cons_self
    have one := step s c here
    have later : ∀ x ∈ cs, P (coreAt (f s c) x) := fun x hx => by
      by_cases e : x = c
      · rw [e]; exact keeps s c here
      · rw [one.others x e]; exact all x (List.mem_cons_of_mem c hx)
    have rest := allUpperCleared_foldl step keeps cs (f s c) later
    rw [List.foldl_cons]
    refine ⟨fun x hx => ?_, rest.cols.trans one.cols, rest.net.trans one.net, rest.fabric.trans one.fabric, fun a z => rest.zero a (one.zero a z),
      fun x n b hx low high hb => ?_⟩
    · rw [List.mem_cons, not_or] at hx
      rw [rest.others x hx.2, one.others x hx.1]
    · obtain rfl | hx := List.mem_cons.mp hx
      · exact rest.zero _ (one.banks n b low high hb)
      · rw [← bankGpa_congr one.fabric]; exact rest.banks x n b hx low high hb

/-- The listed cores of a column. -/
def listedCores (s : State) (k : Fin 8) : List Nat := (s.cores.map (·.1)).filter fun c => colOf c == k

theorem mem_listedCores {s : State} {k : Fin 8} {x : Nat} : x ∈ listedCores s k ↔ (∃ q, (x, q) ∈ s.cores) ∧ colOf x = k := by
  simp [listedCores]

/-! ## The end of a transition (R80) -/

theorem endLayer_eq {s : State} {k : Fin 8} (on : Bool) (h : (colAt s k).layerNext = none) : endLayer k on s =
    updCol s k fun c => { c with layerctl := setBits (c.layerctl &&& ~~~(4#64)) (if on then 1 else 0) 0 0, layerNext := none } := by
  rw [endLayer, h]

/-- LAYERCTL's bits of a transition that ends with the layer off, and on. -/
theorem bits_of_off {w : BitVec 64} (h : w &&& 7 = 5) : w.getLsbD 2 = true ∧ w.getLsbD 1 = false ∧ w.getLsbD 0 = true ∧
    setBits (w &&& ~~~(4#64)) 0 0 0 &&& 7 = 0 := by
  have bit (i : Nat) (hi : (7 : BitVec 64).getLsbD i = true) : w.getLsbD i = (5 : BitVec 64).getLsbD i := by
    rw [← h, BitVec.getLsbD_and, hi, Bool.and_true]
  refine ⟨bit 2 rfl, bit 1 rfl, bit 0 rfl, ?_⟩
  have low : setBits (w &&& ~~~(4#64)) 0 0 0 &&& 7 = (w &&& 7) &&& 2 := by
    simp only [setBits]
    rw [show ((0 : BitVec 64) &&& BitVec.ofNat 64 (2 ^ (0 + 1 - 0) - 1) <<< 0) = 0#64 from rfl, BitVec.or_zero, BitVec.and_assoc, BitVec.and_assoc,
      BitVec.and_assoc]
    rfl
  rw [low, h]; rfl

theorem bits_of_on {w : BitVec 64} (h : w &&& 7 = 6) : w.getLsbD 2 = true ∧ w.getLsbD 1 = true ∧ w.getLsbD 0 = false ∧
    setBits (w &&& ~~~(4#64)) 1 0 0 = (w &&& ~~~7) ||| 3 := by
  have bit (i : Nat) (hi : (7 : BitVec 64).getLsbD i = true) : w.getLsbD i = (6 : BitVec 64).getLsbD i := by
    rw [← h, BitVec.getLsbD_and, hi, Bool.and_true]
  refine ⟨bit 2 rfl, bit 1 rfl, bit 0 rfl, ?_⟩
  have split : w &&& ~~~5 = (w &&& ~~~7) ||| (w &&& BitVec.twoPow 64 1) := by rw [← BitVec.and_or_distrib_left]; rfl
  rw [and_bit_one (bit 1 rfl)] at split
  have cleared : setBits (w &&& ~~~(4#64)) 1 0 0 = (w &&& ~~~5) ||| 1 := by
    simp only [setBits]
    rw [BitVec.and_assoc]; rfl
  rw [cleared, split, BitVec.or_assoc]; rfl

section
variable {s : State} {k : Fin 8}

/-- The layer loses power once every core of the column is quiet (R81, R129). -/
theorem layerPowerOff_run (w : (colAt s k).layerctl &&& 7 = 5)
    (quiet : ∀ x ∈ listedCores s k, (coreAt s x).quiet = true ∧ (wayChange s x).isNone = true) :
    exec (.layerPowerOff k.val) s = .next ((listedCores s k).foldl (fun s c => dropUpper c s) (endLayer k false s)) := by
  obtain ⟨b2, b1, b0, -⟩ := bits_of_off w
  refine (if_neg (column_exists k)).trans ?_
  dsimp only
  rw [colIx_val]
  refine if_neg ?_
  have all : (listedCores s k).all (fun c => (coreAt s c).quiet && (wayChange s c).isNone) = true :=
    List.all_eq_true.mpr fun x hx => by rw [(quiet x hx).1, (quiet x hx).2]; rfl
  rw [b2, b1, b0, show (((s.cores.map (·.1)).filter fun c => colOf c == k).all _) = true from all]
  decide

theorem layerPowerOff_clears (next : (colAt s k).layerNext = none) (w : (colAt s k).layerctl &&& 7 = 5)
    (quiet : ∀ x ∈ listedCores s k, (coreAt s x).quiet = true ∧ (wayChange s x).isNone = true ∧ (coreAt s x).cw = [] ∧ (coreAt s x).waiters = []) :
    ∃ t, exec (.layerPowerOff k.val) s = .next t ∧ AllUpperCleared (listedCores s k) (endLayer k false s) t := by
  refine ⟨_, layerPowerOff_run w fun x hx => ⟨(quiet x hx).1, (quiet x hx).2.1⟩, ?_⟩
  refine allUpperCleared_foldl (P := fun q => q.cw = [] ∧ q.waiters = []) (fun s c h => upperCleared_dropUpper h.1 h.2) (fun s c h => ?_) _ _ ?_
  · have same := (upperCleared_dropUpper h.1 h.2).quiet
    exact ⟨same.1.trans h.1, same.2 h.2⟩
  · rw [endLayer_eq false next]
    exact fun x hx => (quiet x hx).2.2

/-- The layer is powered, its ways zero (R81). -/
theorem layerPowerOn_run (w : (colAt s k).layerctl &&& 7 = 6) :
    exec (.layerPowerOn k.val) s = .next (endLayer k true ((listedCores s k).foldl (fun s c => clearWays c upperWays s) s)) := by
  obtain ⟨b2, b1, b0, -⟩ := bits_of_on w
  refine (if_neg (column_exists k)).trans ?_
  rw [colIx_val, b2, b1, b0]
  rfl

end

theorem clearedUpper (s : State) (k : Fin 8) :
    AllUpperCleared (listedCores s k) s ((listedCores s k).foldl (fun s c => clearWays c upperWays s) s) :=
  allUpperCleared_foldl (P := fun _ => True) (fun s c _ => upperCleared_clearWays c s) (fun _ _ _ => trivial) _ _ fun _ _ => trivial

/-! ## Sensors and thermal limits (R82, R468, R469) -/

theorem getLsbD_setBits_top (w x : BitVec 64) : (setBits w x 63 62).getLsbD 63 = x.getLsbD 63 ∧ (setBits w x 63 62).getLsbD 62 = x.getLsbD 62 ∧
    (setBits w x 63 62).setWidth 16 = w.setWidth 16 := by
  refine ⟨?_, ?_, ?_⟩
  · simp [setBits]
  · simp [setBits]
  · simp only [setBits, BitVec.setWidth_or, BitVec.setWidth_and]
    simp
    exact BitVec.and_allOnes

/-- A column with the readings r of a period voted (R82, R83). -/
def Column.sensed (c : Column) (r : Nat → BitVec 16) : Column := { c with
  therm := Vector.ofFn fun i => ((r i.val).zeroExtend 64 <<< 32) |||
    (if sensorFailed ((List.range 13).map fun i => (r i).toInt) i.val then 1#64 <<< 31 else 0) |||
    (BitVec.ofInt 16 (sensorTemp ((List.range 13).map fun i => (r i).toInt) i.val)).zeroExtend 64 }

/-- A sensor's raw reading, the last one where the event names none. -/
def rawReading (c : Column) (raw : List (BitVec 16)) (i : Nat) : BitVec 16 := raw.getD i ((vget c.therm i).extractLsb' 32 16)

theorem tempReading_run (s : State) (k : Fin 8) (raw : List (BitVec 16)) (watts : BitVec 16) :
    exec (.tempReading k.val raw watts) s = .next (thermalLimits watts k (updCol s k fun c => c.sensed (rawReading (colAt s k) raw))) := by
  refine (if_neg (column_exists k)).trans ?_
  rw [colIx_val]
  rfl

theorem therm_sensed (c : Column) {raw : List (BitVec 16)} (h : raw.length = 13) (i : Fin 13) :
    (c.sensed (rawReading c raw)).therm.get i = ((raw.getD i.val 0).zeroExtend 64 <<< 32) |||
      (if sensorFailed (raw.map (·.toInt)) i.val then 1#64 <<< 31 else 0) |||
      (BitVec.ofInt 16 (sensorTemp (raw.map (·.toInt)) i.val)).zeroExtend 64 := by
  have reading (i : Nat) (hi : i < raw.length) : rawReading c raw i = raw[i] := by
    rw [rawReading, List.getD_eq_getElem?_getD, List.getElem?_eq_getElem hi]; rfl
  have readings : (List.range 13).map (fun i => (rawReading c raw i).toInt) = raw.map (·.toInt) := by
    refine List.ext_getElem (by simp [h]) fun i hi hi' => ?_
    rw [List.length_map] at hi'
    rw [List.getElem_map, List.getElem_map, List.getElem_range, reading i hi']
  have here := i.isLt
  rw [Column.sensed, readings, Vector.get_ofFn, reading i.val (by omega), List.getD_eq_getElem _ _ (by omega)]

/-- A column after the limits of R468 and the power cap of R469. -/
structure Limited (watts : BitVec 16) (c d : Column) : Prop where
  therm : d.therm = c.therm
  trips : (∃ i : Fin 13, tripAt i.val ≤ tempOf c i.val) → d.thermctl.getLsbD 63 = true ∧ d.tripped = true
  slows : (∃ i : Fin 13, hotAt i.val ≤ tempOf c i.val) → d.thermctl.getLsbD 62 = true
  cap : d.thermctl.setWidth 16 = c.thermctl.setWidth 16
  clocks : d.clk16 = if (c.thermctl.setWidth 16).toNat < watts.toNat then max 1 (c.clk16 - 1) else c.clk16

theorem any_of_sensor {p : Nat → Bool} (h : ∃ i : Fin 13, p i.val = true) : (List.range 13).any p = true := by
  obtain ⟨i, hi⟩ := h
  exact List.any_eq_true.mpr ⟨i.val, List.mem_range.mpr i.isLt, hi⟩

theorem thermalLimits_limits (watts : BitVec 16) (k : Fin 8) (s : State) :
    Limited watts (colAt s k) (colAt (thermalLimits watts k s) k) ∧ (thermalLimits watts k s).mem = s.mem ∧
      (thermalLimits watts k s).cores = s.cores := by
  unfold thermalLimits
  dsimp only
  generalize hot : (List.range 13).any (fun i => decide (hotAt i ≤ tempOf (colAt s k) i)) = hot'
  generalize trip : (List.range 13).any (fun i => decide (tripAt i ≤ tempOf (colAt s k) i)) = trip'
  generalize cool : (if hot' then true else if (List.range 13).all (fun i => decide (tempOf (colAt s k) i ≤ hotAt i - 80)) then false
    else (colAt s k).thermctl.getLsbD 62) = slow
  obtain ⟨top, next, low⟩ := getLsbD_setBits_top (colAt s k).thermctl
    ((if (colAt s k).thermctl.getLsbD 63 || trip' then 1#64 <<< 63 else 0) ||| (if slow then 1#64 <<< 62 else 0))
  have limited : Limited watts (colAt s k) { colAt s k with
      thermctl := setBits (colAt s k).thermctl
        ((if (colAt s k).thermctl.getLsbD 63 || trip' then 1#64 <<< 63 else 0) ||| (if slow then 1#64 <<< 62 else 0)) 63 62
      tripped := (colAt s k).tripped || trip'
      clk16 := if decide (((colAt s k).thermctl.setWidth 16 : BitVec 16).toNat < watts.toNat) then max 1 ((colAt s k).clk16 - 1)
        else (colAt s k).clk16 } := by
    refine ⟨rfl, fun h => ?_, fun h => ?_, low, by simp only [decide_eq_true_eq]⟩
    · have on : trip' = true := trip.symm.trans (any_of_sensor (by simpa using h))
      refine ⟨top.trans ?_, (congrArg (_ || ·) on).trans (Bool.or_true _)⟩
      rw [on, Bool.or_true, if_pos rfl, BitVec.getLsbD_or]
      rfl
    · have on : hot' = true := hot.symm.trans (any_of_sensor (by simpa using h))
      rw [on, if_pos rfl] at cool
      refine next.trans ?_
      rw [← cool, if_pos rfl, BitVec.getLsbD_or]
      exact Bool.or_true _
  split
  · rw [colAt_raiseInt, raiseInt_mem, raiseInt_cores, colAt_updCol_self]
    exact ⟨limited, rfl, rfl⟩
  · rw [colAt_updCol_self]
    exact ⟨limited, rfl, rfl⟩

/-- A write of TRIP with the CAP that stands changes no other bit. -/
theorem cap_kept (w : BitVec 64) : setBits w (onlyBits w 15 0 ||| 1#64 <<< 63) 15 0 = w := by
  have cap : onlyBits w 15 0 = w &&& 65535#64 := by simp [onlyBits, setBits]
  have both : setBits w (onlyBits w 15 0 ||| 1#64 <<< 63) 15 0 = (w &&& ~~~65535#64) ||| ((onlyBits w 15 0 ||| 1#64 <<< 63) &&& 65535#64) := rfl
  rw [both, cap, BitVec.and_or_distrib_right, show (1#64 <<< 63) &&& 65535#64 = 0#64 from rfl, BitVec.or_zero, BitVec.and_assoc, BitVec.and_self,
    ← BitVec.and_or_distrib_left]
  exact BitVec.and_allOnes

/-- The release of a column from a trip (R469). -/
theorem tripClear_run {s : State} {k : Fin 8} (tripped : (colAt s k).thermctl.getLsbD 63 = true)
    (cool : ∀ i : Fin 13, tempOf (colAt s k) i.val < tripAt i.val) : ∃ c, c = (colAt s k).thermctl &&& ~~~(1#64 <<< 63) ∧
    exec (.tripClear k.val) s = .next
      (let u := raiseInt 4 (updCol s k fun q => { q with thermctl := c })
       { u with boot := { u.boot with rstBusy := true, rstCols := u.boot.rstCols ||| (1#8 <<< k.val) } }) := by
  refine ⟨_, rfl, (if_neg (column_exists k)).trans (congrArg Host.Outcome.next ?_)⟩
  rw [colIx_val, thermctlWrite]
  have written : (onlyBits (colAt s k).thermctl 15 0 ||| 1#64 <<< 63).getLsbD 63 = true := by rw [BitVec.getLsbD_or]; exact Bool.or_true _
  have same : setBits (colAt s k).thermctl (onlyBits (colAt s k).thermctl 15 0 ||| 1#64 <<< 63) 15 0 = (colAt s k).thermctl := cap_kept _
  dsimp only
  rw [written, tripped, same]
  refine (if_pos rfl).trans (if_pos ?_)
  exact List.all_eq_true.mpr fun i hi => decide_eq_true (cool ⟨i, List.mem_range.mp hi⟩)

/-! ## The privileged view (R134, R146, R147) -/

theorem privilegedViewWrite_run {s : State} {x n : Nat} {j : BitVec 3} (v : BitVec 64) (hx : x < 2048) (hn : n < 0x80)
    (assigned : (sysGet s x j.toFin n).isSome = true) (idle : vecReg n = true → (coreAt s x).quiet = true) :
    exec (.privilegedViewWrite x j (BitVec.ofNat 12 (0xA00 + n)) v) s = .next (viewPut x j.toFin n v s) := by
  refine (if_neg (Nat.not_le.mpr hx)).trans ?_
  have number : (BitVec.ofNat 12 (0xA00 + n)).toNat = 0xA00 + n := by rw [BitVec.toNat_ofNat]; exact Nat.mod_eq_of_lt (by omega)
  have view : viewOf (0xA00 + n) = some n := by rw [viewOf, if_pos (by omega), Nat.add_sub_cancel_left]
  rw [number, view]
  refine congrArg Host.Outcome.next (if_neg ?_)
  rw [Option.getD_some, decide_eq_false (by omega), Option.isNone_eq_false_iff.mpr assigned, Bool.false_or, Bool.false_or]
  cases vec : vecReg n with
  | false => exact Bool.false_ne_true
  | true => rw [idle vec]; exact Bool.false_ne_true

/-- What a privileged-view write of a register changes. -/
structure Viewed (s t : State) (x : Nat) (k : Fin 8) : Prop where
  regs : ∀ r, (hartAt t x k).gr r = (hartAt s x k).gr r
  others : ∀ y, y ≠ x → coreAt t y = coreAt s y
  mem : t.mem = s.mem
  kept : t.kept = s.kept

theorem viewed_updCore (s : State) (x : Nat) (k : Fin 8) {f : Core → Core} (h : ∀ q, (f q).harts = q.harts) : Viewed s (updCore s x f) x k :=
  ⟨fun r => by rw [hartAt, coreAt_updCore_self, h]; rfl, fun _ hy => coreAt_updCore_ne _ _ _ _ hy, rfl, rfl⟩

theorem viewed_updHart (s : State) (x : Nat) (k : Fin 8) {f : Hart → Hart} (h : ∀ q, (f q).g = q.g) : Viewed s (updHart s x k f) x k :=
  ⟨fun r => by rw [hartAt_updHart_self, Hart.gr, h]; rfl, fun _ hy => coreAt_updCore_ne _ _ _ _ hy, rfl, rfl⟩

/-- A register of the hart, and one of the core, after its write. -/
theorem sets_hart {s : State} {x n : Nat} {k : Fin 8} {v y : BitVec 64} (f : Hart → Hart) (p : Hart → BitVec 64)
    (put : viewPut x k n v s = updHart s x k f) (get : ∀ s, sysGet s x k n = some (p (hartAt s x k))) (regs : ∀ h, (f h).g = h.g)
    (value : ∀ h, p (f h) = y) : sysGet (viewPut x k n v s) x k n = some y ∧ Viewed s (viewPut x k n v s) x k := by
  rw [put, get, hartAt_updHart_self, value]
  exact ⟨rfl, viewed_updHart s x k regs⟩

theorem sets_core {s : State} {x n : Nat} {k : Fin 8} {v y : BitVec 64} (f : Core → Core) (p : Core → BitVec 64)
    (put : viewPut x k n v s = updCore s x f) (get : ∀ s, sysGet s x k n = some (p (coreAt s x))) (harts : ∀ q, (f q).harts = q.harts)
    (value : ∀ q, p (f q) = y) : sysGet (viewPut x k n v s) x k n = some y ∧ Viewed s (viewPut x k n v s) x k := by
  rw [put, get, coreAt_updCore_self, value]
  exact ⟨rfl, viewed_updCore s x k harts⟩

/-- The writable bits of the registers that the statement names. -/
def viewMasks (x : Nat) : List (Nat × BitVec 64) :=
  [(2, 0x3FFFFFF), (3, 0x3F), (4, 0xFFFFFFFF), (0x11, 0xFFFFFFFFFFFFFFFF), (0x12, 0xFFFFFFFFFFFFFFFF),
    (0x14, 0xFFFFFFFFFFFFFFFF), (0x15, 0x3FF &&& ~~~(1#64 <<< (colOf x).val)), (0x16, 0xFFFFFFFF), (0x17, 0xFFFFFFFF), (0x18, 0x71F)]

theorem viewPut_sets {x n : Nat} {m : BitVec 64} (s : State) (k : Fin 8) (v : BitVec 64) (h : (n, m) ∈ viewMasks x) :
    sysGet (viewPut x k n v s) x k n = some (v &&& m) ∧ Viewed s (viewPut x k n v s) x k := by
  have all : v &&& 0xFFFFFFFFFFFFFFFF = v := BitVec.and_allOnes
  simp only [viewMasks, List.mem_cons, List.not_mem_nil, or_false, Prod.mk.injEq] at h
  obtain ⟨rfl, rfl⟩ | ⟨rfl, rfl⟩ | ⟨rfl, rfl⟩ | ⟨rfl, rfl⟩ | ⟨rfl, rfl⟩ | ⟨rfl, rfl⟩ | ⟨rfl, rfl⟩ | ⟨rfl, rfl⟩ | ⟨rfl, rfl⟩ | ⟨rfl, rfl⟩ := h
  · exact sets_core (fun q => { q with vec := { q.vec with vstart := onlyBits v 25 0 } }) (fun q => q.vec.vstart) rfl (fun _ => rfl) (fun _ => rfl) fun _ => by simp [onlyBits, setBits]
  · exact sets_core (fun q => { q with vec := { q.vec with vflags := onlyBits v 5 0 } }) (fun q => q.vec.vflags) rfl (fun _ => rfl) (fun _ => rfl) fun _ => by simp [onlyBits, setBits]
  · exact sets_core (fun q => { q with vec := { q.vec with vdirty := onlyBits v 31 0, vhw := Vector.ofFn fun i => if v.getLsbD i.val then q.vec.vhw.get i else 0 } }) (fun q => q.vec.vdirty) rfl (fun _ => rfl) (fun _ => rfl) fun _ => by simp [onlyBits, setBits]
  · exact sets_core (fun q => { q with instret := v }) (fun q => q.instret) rfl (fun _ => rfl) (fun _ => rfl) fun _ => all.symm
  · exact sets_core (fun q => { q with speccnt := v }) (fun q => q.speccnt) rfl (fun _ => rfl) (fun _ => rfl) fun _ => all.symm
  · exact sets_hart (fun h => { h with tsmask := v }) (fun h => h.tsmask) rfl (fun _ => rfl) (fun _ => rfl) fun _ => all.symm
  · exact sets_hart (fun h => { h with txmask := onlyBits v 9 0 &&& ~~~(1#64 <<< (colOf x).val) }) (fun h => h.txmask) rfl (fun _ => rfl) (fun _ => rfl) fun _ => (by rw [← BitVec.and_assoc]; simp [onlyBits, setBits])
  · exact sets_hart (fun h => { h with bwto := onlyBits v 31 0 }) (fun h => h.bwto) rfl (fun _ => rfl) (fun _ => rfl) fun _ => by simp [onlyBits, setBits]
  · exact sets_hart (fun h => { h with geps := onlyBits v 31 0 }) (fun h => h.geps) rfl (fun _ => rfl) (fun _ => rfl) fun _ => by simp [onlyBits, setBits]
  · exact sets_hart (fun h => { h with fstat := onlyBits v 10 8 ||| onlyBits v 4 0 }) (fun h => h.fstat) rfl (fun _ => rfl) (fun _ => rfl) fun _ => by simp [onlyBits, setBits, ← BitVec.and_or_distrib_left]

/-! ## MSTAT (R134, R147) -/

theorem mstatWrite_run {s : State} {x : Nat} (j : BitVec 3) (v : BitVec 64) (hx : x < 2048) (quiet : (coreAt s x).quiet = true) :
    exec (.mstatWrite x j v) s = .next (updCore s x fun q => { q with vec := writeMstat q.vec v }) :=
  (if_neg (Nat.not_le.mpr hx)).trans (congrArg Host.Outcome.next (if_pos quiet))

theorem low7 (w : BitVec 64) : w.toNat % 128 = (w.setWidth 7).toNat := (BitVec.toNat_setWidth 7 w).symm

/-- MM and MVL under a written MSTAT. -/
theorem mstat_off (q : Vec) {v : BitVec 64} (h : v.getLsbD 63 = false) :
    (writeMstat q v).mstat.getLsbD 63 = false ∧ (writeMstat q v).mstat.toNat % 128 = 0 := by
  have off : (writeMstat q v).mstat = setBits (setBits (setBits q.mstat v 32 32) 0 63 63) 0 6 0 := if_neg (by rw [h]; decide)
  rw [off, low7]
  refine ⟨by simp [setBits], ?_⟩
  simp [setBits, BitVec.setWidth_or, BitVec.setWidth_and]

theorem mstat_on (q : Vec) {v : BitVec 64} (h : v.getLsbD 63 = true) (size : v.toNat % 8 = 0) (low : 8 ≤ v.toNat % 128) (high : v.toNat % 128 ≤ 64) :
    (writeMstat q v).mstat.getLsbD 63 = true ∧ (writeMstat q v).mstat.toNat % 128 = v.toNat % 128 := by
  have on : (writeMstat q v).mstat = setBits (setBits (setBits q.mstat v 32 32) v 63 63) v 6 0 :=
    (if_pos h).trans (if_pos ⟨by omega, low, high⟩)
  rw [on, low7, low7]
  refine ⟨by simp [setBits, h], ?_⟩
  simp only [setBits, BitVec.setWidth_or, BitVec.setWidth_and]
  simp
  exact (Nat.and_two_pow_sub_one_eq_mod _ 7).trans (Nat.mod_mod _ 128)

theorem mstat_bit32 (q : Vec) (v : BitVec 64) : (writeMstat q v).mstat.getLsbD 32 = v.getLsbD 32 := by
  unfold writeMstat
  dsimp only
  split
  · split
    · simp [setBits]
    · simp [setBits]
  · simp [setBits]

/-! ## The obligation -/

/-- Settles O48: the request (`layerReq_busy`, `layerReq_idle`), the ends of a transition (`layerPowerOff_clears`, `clearedUpper`), the limits
(`thermalLimits_limits`), the release (`tripClear_run`), and the privileged view (`viewPut_sets`, `mstat_off`, `mstat_on`). -/
theorem powerAndViewEvents : Obligations.PowerAndViewEvents := by
  intro s k c w mine
  refine ⟨?request, ?off, ?on, ?reading, ?clear, ?view, ?mstat⟩
  case request =>
    intro on bus
    have run : exec (.layerctlReq k.val on) s = .next (layerReq k on s) := (if_neg (column_exists k)).trans (by rw [colIx_val])
    refine ⟨_, run, fun busy => layerReq_busy bus busy, fun idle => ?_⟩
    rw [layerReq_idle bus idle, colAt_setCol_self]
    exact ⟨rfl, rfl⟩
  case off =>
    intro bits next quiet
    obtain ⟨t, run, cleared⟩ := layerPowerOff_clears next bits fun x hx => quiet x (mem_listedCores.mp hx)
    have ended := endLayer_eq false next
    have core (x : Nat) : coreAt (endLayer k false s) x = coreAt s x := by rw [ended]; rfl
    have fabric : (endLayer k false s).fabric = s.fabric := by rw [ended]; rfl
    refine ⟨t, run, ?_, fun x n b hx _ low high hb => ?_, fun x hx => ?_⟩
    · rw [colAt, cleared.cols, ended]
      show (colAt (updCol s k _) k).layerctl &&& 7 = 0
      rw [colAt_updCol_self]
      exact (bits_of_off bits).2.2.2
    · rw [← bankGpa_congr fabric]
      exact cleared.banks x n b (mem_listedCores.mpr hx) low high hb
    · rw [cleared.others x fun m => hx (mem_listedCores.mp m), core]
  case on =>
    intro bits next
    have cleared := clearedUpper s k
    have same : colAt ((listedCores s k).foldl (fun s c => clearWays c upperWays s) s) k = colAt s k := by rw [colAt, cleared.cols]; rfl
    have ended := endLayer_eq (s := (listedCores s k).foldl (fun s c => clearWays c upperWays s) s) true (by rw [same]; exact next)
    refine ⟨_, layerPowerOn_run bits, ?_, fun x n b hx _ low high hb => ?_, ?_, fun j hj => ?_, fun x hx => ?_, ?_⟩
    · rw [ended, colAt_updCol_self, same]
      exact (bits_of_on bits).2.2.2
    · rw [ended]
      exact cleared.banks x n b (mem_listedCores.mpr hx) low high hb
    · rw [ended, colAt_updCol_self, same, ← next]
    · rw [ended, colAt_updCol_ne _ _ _ _ hj, colAt, cleared.cols]; rfl
    · rw [ended]
      exact cleared.others x fun m => hx (mem_listedCores.mp m)
    · rw [ended]
      exact cleared.net
  case reading =>
    intro raw watts length l
    obtain ⟨limits, mem, cores⟩ := thermalLimits_limits watts k (updCol s k fun c => c.sensed (rawReading (colAt s k) raw))
    rw [colAt_updCol_self] at limits
    have temp (i : Nat) : tempOf (colAt (thermalLimits watts k (updCol s k fun c => c.sensed (rawReading (colAt s k) raw))) k) i =
        tempOf ((colAt s k).sensed (rawReading (colAt s k) raw)) i := by rw [tempOf, limits.therm, tempOf]
    refine ⟨_, tempReading_run s k raw watts, fun i => ?_, fun ⟨i, hi⟩ => limits.trips ⟨i, temp i ▸ hi⟩, fun ⟨i, hi⟩ => limits.slows ⟨i, temp i ▸ hi⟩,
      limits.cap, limits.clocks, mem, cores⟩
    rw [limits.therm]
    exact therm_sensed (colAt s k) length i
  case clear =>
    intro tripped cool
    obtain ⟨c', hc, run⟩ := tripClear_run tripped cool
    obtain ⟨int, pend, sent, raised, bit⟩ := raiseInt_form 4 (updCol s k fun q => { q with thermctl := c' })
    rw [raised] at run
    refine ⟨_, run, ?_, rfl, rfl, bit (by decide), rfl, rfl⟩
    exact (congrArg Column.thermctl (colAt_updCol_self s k fun q => { q with thermctl := c' })).trans hc
  case view =>
    intro x j v n m hx assigned idle named
    obtain ⟨value, regs, others, mem, kept⟩ := viewPut_sets s j.toFin v (show (n, m) ∈ viewMasks x from named)
    refine ⟨_, privilegedViewWrite_run v hx ?_ assigned fun vec => ?_, value, regs, others, mem, kept⟩
    · have small : ∀ p ∈ viewMasks x, p.1 < 0x19 := by simp [viewMasks]
      exact lt_trans (small _ named) (by decide)
    · obtain quiet | high := idle
      · exact quiet
      · have small : ∀ p ∈ viewMasks x, p.1 < 0x19 := by simp [viewMasks]
        have := small _ named
        have none : vecReg n = false := by simp only [vecReg]; simp; omega
        rw [none] at vec; cases vec
  case mstat =>
    intro x j v hx quiet
    refine ⟨_, mstatWrite_run j v hx quiet, ?_⟩
    rw [coreAt_updCore_self]
    refine ⟨fun h => ⟨(mstat_off _ h).1, (mstat_off _ h).2⟩, fun h size low high => ⟨(mstat_on _ h size low high).1, (mstat_on _ h size low high).2⟩,
      mstat_bit32 _ v, rfl, rfl, fun y hy => coreAt_updCore_ne _ _ _ _ hy, rfl⟩

end Sys2Proof.Machine
end

section
/-!
PROOFS. Bytes of numbers and of memory, the parts of a GPA, and homes while no cache way holds a line (R20, R52, R65, R73).
-/

namespace Sys2Proof.Machine

set_option Elab.async false

/-! ## Bytes -/

/-- Byte i of bytes laid one after the other. -/
theorem packWords_byte : ∀ (l : List Nat) (i : Nat), BitVec.ofNat 8 (packWords 8 l / 256 ^ i) = BitVec.ofNat 8 (l.getD i 0)
  | [], i => by simp [packWords]
  | x :: l, 0 => by
    rw [packWords, pow_zero, Nat.div_one, List.getD_cons_zero]
    refine BitVec.eq_of_toNat_eq ?_
    rw [BitVec.toNat_ofNat, BitVec.toNat_ofNat]
    omega
  | x :: l, i + 1 => by
    have h : packWords 8 (x :: l) / 256 = packWords 8 l := by
      rw [packWords]
      have := Nat.mod_lt x (show 0 < 2 ^ 8 by decide)
      omega
    rw [pow_succ', ← Nat.div_div_eq_div_mul, h, List.getD_cons_succ]
    exact packWords_byte l i

theorem packWords_lt : ∀ l : List Nat, packWords 8 l < 256 ^ l.length
  | [] => by simp [packWords]
  | x :: l => by
    have rest := packWords_lt l
    have low := Nat.mod_lt x (show 0 < 2 ^ 8 by decide)
    rw [packWords, List.length_cons, pow_succ']
    omega

/-- Byte i of a number read from memory. -/
theorem memRead_byte (m : List Host.Cell) : ∀ (n a i : Nat), i < n → BitVec.ofNat 8 (memRead m a n / 256 ^ i) = memGet m (a + i)
  | 0, _, _, h => absurd h (Nat.not_lt_zero _)
  | n + 1, a, 0, _ => by
    show BitVec.ofNat 8 (memRead m a (n + 1) / 256 ^ 0) = memGet m a
    refine BitVec.eq_of_toNat_eq ?_
    have := (memGet m a).isLt
    rw [memRead, pow_zero, Nat.div_one, BitVec.toNat_ofNat]
    omega
  | n + 1, a, i + 1, h => by
    have rest : memRead m a (n + 1) / 256 = memRead m (a + 1) n := by
      have := (memGet m a).isLt
      rw [memRead]
      omega
    rw [pow_succ', ← Nat.div_div_eq_div_mul, rest, memRead_byte m n (a + 1) i (by omega), Nat.add_assoc, Nat.add_comm 1 i]

/-- A byte of memory after n bytes have been written. -/
theorem memGet_memWrite {m : List Host.Cell} (h : Memory.wf m = true) (a n x b : Nat) :
    memGet (memWrite m a n x) b = if a ≤ b ∧ b < a + n then BitVec.ofNat 8 (x / 256 ^ (b - a)) else memGet m b := by
  split
  · next inside =>
    have byte := memGet_memWrite_inside n m a x (b - a) h (by omega)
    rwa [Nat.add_sub_cancel' inside.1] at byte
  · next outside => exact memGet_memWrite_outside n m a x b h (by omega)

/-! ## The parts of a GPA (R20) -/

section
variable (s : State) (k : Fin 8) {off : Nat} (h : off < 2 ^ 45)
include h

theorem gpaDev_mkGpa : gpaDev (mkGpa s k.val off) = s.fabric.dev.toNat := by
  have := s.fabric.dev.isLt
  have := k.isLt
  unfold gpaDev mkGpa
  omega

theorem gpaCol_mkGpa : gpaCol (mkGpa s k.val off) = k.val := by
  have := k.isLt
  unfold gpaCol mkGpa
  omega

theorem gpaOff_mkGpa : gpaOff (mkGpa s k.val off) = off := by
  have := k.isLt
  unfold gpaOff mkGpa
  omega

/-- What an address of this device names. -/
theorem targetOf_mkGpa (dev : s.fabric.dev.toNat < 0xFE) : targetOf s (mkGpa s k.val off) = offTarget k off := by
  have col : (⟨gpaCol (mkGpa s k.val off), Nat.mod_lt _ (by decide)⟩ : Fin 8) = k := Fin.ext (gpaCol_mkGpa s k h)
  unfold targetOf
  rw [gpaDev_mkGpa s k h, if_neg (by omega), if_neg (by omega), if_pos rfl, gpaOff_mkGpa s k h, col]

theorem degradedAt_mkGpa : degradedAt s (mkGpa s k.val off) = (colAt s k).vbstat.getLsbD 63 := by
  have col : (⟨gpaCol (mkGpa s k.val off), Nat.mod_lt _ (by decide)⟩ : Fin 8) = k := Fin.ext (gpaCol_mkGpa s k h)
  rw [degradedAt, col, gpaDev_mkGpa s k h, beq_self_eq_true, Bool.true_and]

end

/-! ## Homes while no cache way holds a line -/

/-- No core holds a line in a cache way. -/
def NoCopies (s : State) : Prop := (s.cores.all fun q => q.2.cw.isEmpty) = true

/-- Nothing but columns differs. -/
def OnlyCols (s t : State) : Prop := t = { s with cols := t.cols }

theorem OnlyCols.refl (s : State) : OnlyCols s s := rfl
theorem OnlyCols.trans {s t u : State} (h : OnlyCols s t) (k : OnlyCols t u) : OnlyCols s u := by
  unfold OnlyCols at *
  rw [k, h]
theorem onlyCols_updCol (s : State) (k : Fin 8) (f : Column → Column) : OnlyCols s (updCol s k f) := rfl

theorem OnlyCols.cores {s t : State} (h : OnlyCols s t) : t.cores = s.cores := (congrArg State.cores h :)
theorem OnlyCols.mem {s t : State} (h : OnlyCols s t) : t.mem = s.mem := (congrArg State.mem h :)
theorem OnlyCols.net {s t : State} (h : OnlyCols s t) : t.net = s.net := (congrArg State.net h :)
theorem OnlyCols.fabric {s t : State} (h : OnlyCols s t) : t.fabric = s.fabric := (congrArg State.fabric h :)
theorem OnlyCols.noCopies {s t : State} (h : OnlyCols s t) (none : NoCopies s) : NoCopies t := by
  unfold NoCopies; rw [h.cores]; exact none

theorem tabGet_nil {α : Type} (d : α) (k : Nat) : tabGet d [] k = d := rfl

theorem holders_none {s : State} (h : NoCopies s) (col : Fin 8) (ln : Nat) : holders s col ln = [] := by
  unfold holders
  refine List.filterMap_eq_nil_iff.mpr fun e he => ?_
  have empty : e.2.cw = [] := List.isEmpty_iff.mp (List.all_eq_true.mp h e he)
  split
  · rw [Core.cwFind, empty]; rfl
  · rfl

theorem collectAll_none {s : State} (h : NoCopies s) (col : Fin 8) (ln : Nat) : collectAll col ln s = s := by
  rw [collectAll, holders_none h]; rfl

theorem onlyCols_sliceToDram (col : Fin 8) (ln : Nat) (s : State) : OnlyCols s (sliceToDram col ln s) := by
  unfold sliceToDram
  dsimp only
  split
  · exact (onlyCols_updCol s col _).trans (onlyCols_updCol _ col _)
  · exact onlyCols_updCol s col _

theorem onlyCols_sliceOut (col : Fin 8) (k : Nat) (v : Nat × Bool) (s : State) : OnlyCols s (sliceOut col k v s) := by
  unfold sliceOut
  split
  · exact (onlyCols_sliceToDram col _ s).trans (onlyCols_updCol _ col _)
  · exact onlyCols_updCol s col _

theorem onlyCols_sliceTouch {s : State} (h : NoCopies s) (col : Fin 8) (off : Nat) (w : Bool) : OnlyCols s (sliceTouch col off w s) := by
  unfold sliceTouch
  dsimp only
  refine OnlyCols.trans ?_ (onlyCols_updCol _ col _)
  split
  · exact .refl s
  · split
    · exact onlyCols_sliceOut _ _ _ _
    · rw [collectAll_none h]; exact onlyCols_sliceOut _ _ _ _
    · exact .refl s

/-- A read of a good line at its home changes the column's slices alone. -/
theorem onlyCols_homeRead {s : State} (h : NoCopies s) {col : Fin 8} {off gpa : Nat} {w : Bool} (bus : (colAt s col).vbstat.getLsbD 63 = false)
    (err : (colAt s col).lineErr off = false) : OnlyCols s (homeRead col off gpa w s).2 := by
  unfold homeRead
  dsimp only
  rw [bus, err]
  simp only [Bool.false_eq_true, if_false]
  generalize (if (colAt s col).inSlice off then (colAt s col).sliceSoft else (colAt s col).soft).contains (off / 64) = soft
  cases soft
  · exact onlyCols_sliceTouch h _ _ _
  · have mended : OnlyCols s (countSoft col (updCol s col fun c => if (colAt s col).inSlice off then
        { c with sliceSoft := c.sliceSoft.filter (· != off / 64) } else { c with soft := c.soft.filter (· != off / 64) })) :=
      (onlyCols_updCol s col _).trans (onlyCols_updCol _ col _)
    exact mended.trans (onlyCols_sliceTouch (mended.noCopies h) _ _ _)

/-- A read at the home of a good line of DRAM. -/
theorem ownerRead_home {s : State} (none : NoCopies s) {coh : Bool} {a n off : Nat} {col : Fin 8} (target : targetOf s a = .dram col off)
    (degraded : degradedAt s a = false) (bus : (colAt s col).vbstat.getLsbD 63 = false) (err : (colAt s col).lineErr off = false) :
    ∃ t, ownerRead coh a n s = (some (memRead s.mem a n), t) ∧ OnlyCols s t := by
  have good := homeRead_good (g := a) (w := false) bus err
  have only := onlyCols_homeRead none (gpa := a) (w := false) bus err
  refine ⟨(homeRead col off a false s).2, ?_, only⟩
  have collected : (if coh then collectAll col (a / 64) s else s) = s := by rw [collectAll_none none, ite_self]
  rw [ownerRead, degraded, target]
  simp only [Bool.false_eq_true, if_false, collected]
  rw [← Prod.eta (homeRead col off a false s), good, ← only.mem]
  rfl

/-- A read at the home of a line with an uncorrectable error. -/
theorem ownerRead_error {s : State} (none : NoCopies s) {coh : Bool} {a n off : Nat} {col : Fin 8} (target : targetOf s a = .dram col off)
    (degraded : degradedAt s a = false) (err : (colAt s col).lineErr off = true) :
    ∃ src unit, ownerRead coh a n s = (Option.none, logError col src unit a s) := by
  obtain ⟨src, unit, read⟩ := homeRead_bad (s := s) (col := col) (off := off) (g := a) (w := false) (by rw [err]; simp)
  refine ⟨src, unit, ?_⟩
  have collected : (if coh then collectAll col (a / 64) s else s) = s := by rw [collectAll_none none, ite_self]
  rw [ownerRead, degraded, target]
  simp only [Bool.false_eq_true, if_false, collected, read]

/-- A write of n bytes at the home of a good line: those bytes, and columns. -/
theorem ownerWrite_home {s : State} (none : NoCopies s) (ok : State.memOk s) {coh : Bool} {a n x off : Nat} {col : Fin 8}
    (target : targetOf s a = .dram col off) (degraded : degradedAt s a = false) (bus : (colAt s col).vbstat.getLsbD 63 = false)
    (err : (colAt s col).lineErr off = false) (fits : a % 64 + n ≤ 64) (hx : x < 256 ^ n) :
    ∃ t, ownerWrite coh a n x s = (true, t) ∧ { t with cols := s.cols, mem := s.mem } = s ∧
      ∀ b, byteAt t b = if a ≤ b ∧ b < a + n then BitVec.ofNat 8 (x / 256 ^ (b - a)) else byteAt s b := by
  have collected : (if coh then collectAll col (a / 64) s else s) = s := by rw [collectAll_none none, ite_self]
  rw [ownerWrite, degraded, target]
  simp only [Bool.false_eq_true, if_false, collected]
  by_cases whole : n = 64
  · subst whole
    have big : x < 2 ^ (8 * 64) := (Nat.pow_mul 2 8 64).symm ▸ hx
    have only := onlyCols_sliceTouch none col off true
    refine ⟨_, if_pos rfl, ?_, fun b => ?_⟩
    · unfold OnlyCols at only
      generalize (sliceTouch col off true s).cols = c at only
      rw [only]; rfl
    · rw [byteAt_homeWriteLine _ _ _ _ (show State.memOk _ by rw [State.memOk, only.mem]; exact ok)]
      have same : byteAt (sliceTouch col off true s) b = byteAt s b := by rw [byteAt, only.mem]; rfl
      rw [same]
      by_cases here : b / 64 = a / 64
      · rw [if_pos here, if_pos (by omega), BitVec.toNat_ofNat, Nat.mod_eq_of_lt big, show b % 64 = b - a by omega]
      · rw [if_neg here, if_neg (by omega)]
  · have good := homeRead_good (g := a) (w := true) bus err
    have only := onlyCols_homeRead none (gpa := a) (w := true) bus err
    rw [if_neg whole, ← Prod.eta (homeRead col off a true s), good]
    refine ⟨_, rfl, ?_, fun b => ?_⟩
    · unfold OnlyCols at only
      generalize (homeRead col off a true s).2.cols = c at only
      rw [only]
    · show memGet (memWrite (homeRead col off a true s).2.mem a n x) b = _
      rw [only.mem]
      exact memGet_memWrite ok a n x b

end Sys2Proof.Machine
end

section
/-!
PROOFS. Column registers, counters, repairs, the fabric's ports and the host's accesses (R51, R74, R79, R113, R456 to R465).
-/

namespace Sys2Proof.Machine

set_option Elab.async false

/-! ## Counters that clear when read (R74, R113) -/

theorem vput_eq {α : Type} {n : Nat} (v : Vector α n) (i : Fin n) (x : α) : vput v i.val x = v.set i.val x := dif_pos i.isLt

theorem vget_get {n : Nat} (v : Vector (BitVec 64) n) (i : Fin n) : vget v i.val = v.get i := (vget_eq v i.isLt).trans rfl

/-- A read of a counter of an engine, of a collective engine and of a link. -/
theorem serviceRead_cebytes (k : Fin 8) (e : Fin 16) (s : State) {off : Nat} (h : off - 0x18000100000 = 64 * e.val + 8) :
    serviceRead k off s = (vget (colAt s k).cebytes e.val, updCol s k fun c => { c with cebytes := c.cebytes.set e.val 0 }) := by
  have he := e.isLt
  unfold serviceRead
  dsimp only
  rw [h, if_pos (by omega), if_neg (by omega), if_pos (by omega),
    show (64 * e.val + 8) / 64 = e.val by omega]
  simp only [vput_eq]

theorem serviceRead_cereqs (k : Fin 8) (e : Fin 16) (s : State) {off : Nat} (h : off - 0x18000100000 = 64 * e.val + 16) :
    serviceRead k off s = (vget (colAt s k).cereqs e.val, updCol s k fun c => { c with cereqs := c.cereqs.set e.val 0 }) := by
  have he := e.isLt
  unfold serviceRead
  dsimp only
  rw [h, if_pos (by omega), if_neg (by omega), if_neg (by omega),
    if_pos (by omega), show (64 * e.val + 16) / 64 = e.val by omega]
  simp only [vput_eq]

theorem serviceRead_clelems (k : Fin 8) (e : Fin 2) (s : State) {off : Nat} (h : off - 0x18000100000 = 0x1000 + 64 * e.val + 8) :
    serviceRead k off s = (vget (colAt s k).clelems e.val, updCol s k fun c => { c with clelems := c.clelems.set e.val 0 }) := by
  have he := e.isLt
  unfold serviceRead
  dsimp only
  rw [h, if_neg (by omega), if_pos (by omega), if_neg (by omega),
    if_pos (by omega), show (0x1000 + 64 * e.val + 8 - 0x1000) / 64 = e.val by omega]
  simp only [vput_eq]

theorem serviceRead_czin (k : Fin 8) (e : Fin 2) (s : State) {off : Nat} (h : off - 0x18000100000 = 0x2000 + 64 * e.val) :
    serviceRead k off s = (vget (colAt s k).czin e.val, updCol s k fun c => { c with czin := c.czin.set e.val 0 }) := by
  have he := e.isLt
  unfold serviceRead
  dsimp only
  rw [h, if_neg (by omega), if_neg (by omega), if_pos (by omega),
    if_pos (by omega), show (0x2000 + 64 * e.val - 0x2000) / 64 = e.val by omega]
  simp only [vput_eq]

theorem serviceRead_czout (k : Fin 8) (e : Fin 2) (s : State) {off : Nat} (h : off - 0x18000100000 = 0x2000 + 64 * e.val + 8) :
    serviceRead k off s = (vget (colAt s k).czout e.val, updCol s k fun c => { c with czout := c.czout.set e.val 0 }) := by
  have he := e.isLt
  unfold serviceRead
  dsimp only
  rw [h, if_neg (by omega), if_neg (by omega), if_pos (by omega),
    if_neg (by omega), if_pos (by omega), show (0x2000 + 64 * e.val + 8 - 0x2000) / 64 = e.val by omega]
  simp only [vput_eq]

/-- An event of a column's unit number. -/
theorem column_unit {k : Fin 8} {n m : Nat} (h : m < n) {x : Out} : (if 8 ≤ k.val ∨ n ≤ m then .fault .noSuchUnit else x) = x :=
  if_neg (by have := k.isLt; omega)

/-! ## The columns' registers through BAR4 (R456) -/

/-- The place of a privileged register. -/
def privGpa (s : State) (k : Fin 8) (r : Nat) : Nat := mkGpa s k.val (0x1F000000000 + r)

theorem targetOf_priv {s : State} {k : Fin 8} {r : Nat} (hr : r < 2 ^ 24) (dev : s.fabric.dev.toNat < 0xFE) :
    targetOf s (privGpa s k r) = .priv k r := by
  rw [privGpa, targetOf_mkGpa s k (by omega) dev, offTarget, if_neg (by omega), if_neg (by omega), if_neg (by omega), if_neg (by omega),
    if_pos (by omega), Nat.add_sub_cancel_left]

theorem degradedAt_priv {s : State} {k : Fin 8} {r : Nat} (hr : r < 2 ^ 24) (bus : (colAt s k).vbstat.getLsbD 63 = false) :
    degradedAt s (privGpa s k r) = false := by rw [privGpa, degradedAt_mkGpa s k (by omega), bus]

section
variable {s : State} {k : Fin 8} {r off : Nat} (hk : off / 2 ^ 24 = k.val) (hr : off % 2 ^ 24 = r) (free : aliasHeld s k r = false)
  (dev : s.fabric.dev.toNat < 0xFE) (bus : (colAt s k).vbstat.getLsbD 63 = false)
include hk hr free dev bus

theorem columnAccess_write (v : BitVec 64) : columnAccess off true v s = barDone (some 0) (privWrite k r v s) := by
  have write : ownerWrite false (mkGpa s k.val (0x1F000000000 + r)) 8 v.toNat s = (true, privWrite k r v s) := by
    rw [← privGpa, ownerWrite, degradedAt_priv (by omega) bus, targetOf_priv (by omega) dev]
    simp
  unfold columnAccess
  dsimp -iota only
  rw [hk, colIx_val, hr, if_neg (by rw [free]; decide), if_pos rfl, write]
  rfl

theorem columnAccess_read {x : BitVec 64} (value : privRead k r s = (x, s)) (v : BitVec 64) :
    columnAccess off false v s = barDone (some x) s := by
  have read : dbgLoad (mkGpa s k.val (0x1F000000000 + r)) 8 s = (some x.toNat, s) := by
    rw [← privGpa, dbgLoad, degradedAt_priv (by omega) bus, targetOf_priv (by omega) dev]
    simp [value]
  unfold columnAccess
  dsimp -iota only
  rw [hk, colIx_val, hr, if_neg (by rw [free]; decide), if_neg Bool.false_ne_true, read]
  simp

end

/-- A privileged register of column k, with 8 bytes at its place of BAR4. -/
theorem registerWrite_bar4 {s : State} {k : Fin 8} {r : Nat} (hr : r < 2 ^ 24) (aligned : r % 8 = 0) (a : BarAccess) (h : a.n = 8) :
    exec (.registerWrite 4 (2 ^ 24 * k.val + r) a) s = .next (columnAccess (2 ^ 24 * k.val + r) a.write a.data s) := by
  have := k.isLt
  have takes : barTakes 4 (2 ^ 24 * k.val + r) a.n = true := by
    rw [barTakes, h, beq_self_eq_true, Bool.true_and, show (2 ^ 24 * k.val + r) % 8 == 0 from beq_iff_eq.mpr (by omega)]
    simp
    omega
  exact (if_neg (by rw [takes]; decide)).trans (if_pos rfl)

/-- Whether a write of CTXJOB is held matters to its alias alone (R363). -/
theorem aliasHeld_low (s : State) (k : Fin 8) {r : Nat} (h : r < 0xA000) : aliasHeld s k r = false := by
  rw [aliasHeld, decide_eq_false (Nat.not_le.mpr h), Bool.false_and, Bool.false_and]

section
variable {s : State} {k : Fin 8} (dev : s.fabric.dev.toNat < 0xFE) (bus : (colAt s k).vbstat.getLsbD 63 = false)
include dev bus

/-- The host's write of a privileged register below the aliases of CTXJOB, and its read. -/
theorem bar4_written {r : Nat} {v : BitVec 64} {t : State} (low : r < 0xA000) (aligned : r % 8 = 0) (put : privWrite k r v s = t) :
    exec (.registerWrite 4 (2 ^ 24 * k.val + r) ⟨8, true, v⟩) s = .next (barDone (some 0) t) := by
  rw [registerWrite_bar4 (by omega) aligned ⟨8, true, v⟩ rfl, ← put]
  exact congrArg _ (columnAccess_write (by omega) (by omega) (aliasHeld_low s k low) dev bus v)

theorem bar4_reads {r : Nat} {v x : BitVec 64} (low : r < 0xA000) (aligned : r % 8 = 0) (get : privRead k r s = (x, s)) :
    exec (.registerWrite 4 (2 ^ 24 * k.val + r) ⟨8, false, v⟩) s = .next (barDone (some x) s) := by
  rw [registerWrite_bar4 (by omega) aligned ⟨8, false, v⟩ rfl]
  exact congrArg _ (columnAccess_read (by omega) (by omega) (aliasHeld_low s k low) dev bus get v)

end

/-- The fields of a written value that the access codes keep (R2, R3). -/
theorem bits_55_6 (v : BitVec 64) : onlyBits v 55 6 = v &&& 0x00FFFFFFFFFFFFC0 := by simp [onlyBits, setBits]
theorem bits_63_6 (v : BitVec 64) : onlyBits v 63 6 = v &&& 0xFFFFFFFFFFFFFFC0 := by simp [onlyBits, setBits]
theorem bits_63_62 (v : BitVec 64) : onlyBits v 63 62 = v &&& 0xC000000000000000 := by simp [onlyBits, setBits]
theorem bits_55_17 (v : BitVec 64) : onlyBits v 55 17 = v &&& 0x00FFFFFFFFFE0000 := by simp [onlyBits, setBits]
theorem bits_joblct (v : BitVec 64) : onlyBits v 63 63 ||| onlyBits v 52 0 = v &&& 0x801FFFFFFFFFFFFF := by
  simp [onlyBits, setBits, ← BitVec.and_or_distrib_left]

/-- A size or place that a BAR's map does not take (R456). -/
theorem registerWrite_untaken {bar : BitVec 3} {off n : Nat} {wr : Bool} {v : BitVec 64} (s : State)
    (h : (n ≠ 8 ∧ n ≠ 4) ∨ off % n ≠ 0 ∨ (n = 4 ∧ bar ≠ 2)) : exec (.registerWrite bar off ⟨n, wr, v⟩) s = .next (barDone none s) := by
  have untaken : barTakes bar off n = false := by
    rw [barTakes, Bool.or_eq_false_iff]
    constructor
    · rw [Bool.and_eq_false_iff, Bool.and_eq_false_iff, beq_eq_false_iff_ne, beq_eq_false_iff_ne]
      by_cases e : n = 8
      · subst e
        have odd : off % 8 ≠ 0 := by omega
        exact .inl (.inr odd)
      · exact .inl (.inl e)
    · simp only [Bool.and_eq_false_iff, beq_eq_false_iff_ne]
      by_cases e : n = 4
      · subst e
        obtain ⟨-, h⟩ | h | h := h
        · exact absurd rfl h
        · exact .inl (.inl (.inl (.inr h)))
        · exact .inl (.inl (.inr h.2))
      · exact .inl (.inl (.inl (.inl e)))
  exact if_pos (by rw [untaken]; rfl)

/-- The mailbox takes 8 bytes anywhere, and 4 in ARG and RESP (R465). -/
theorem registerWrite_mailbox {s : State} {off : Nat} {a : BarAccess} (rst : s.boot.rstBusy = false) (trip : (colAt s 0).tripped = false)
    (takes : barTakes 2 off a.n = true) : exec (.registerWrite 2 off a) s =
      .next (if a.write then barDone (some 0) (mailboxWrite off a.n a.data s) else barDone (some (mailboxRead s off a.n)) s) := by
  refine (if_neg (by rw [takes]; decide)).trans ((if_neg (by decide)).trans ((if_neg (by decide)).trans ((if_neg ?_).trans (if_neg (by decide)))))
  rw [rst, trip]
  simp

/-! ## JOBLCT and LCTBASE (R462) -/

section
variable (s : State) (k : Fin 8) (j : Fin 16) (v : BitVec 64)

theorem joblctWrite_run : exec (.joblctWrite k.val j.val v) s = .next (lctWrite k j.val false v s) := by
  refine (column_unit j.isLt).trans ?_
  rw [colIx_val]

theorem lctbaseWrite_run : exec (.lctbaseWrite k.val j.val v) s = .next (lctWrite k j.val true v s) := by
  refine (column_unit j.isLt).trans ?_
  rw [colIx_val]

theorem lctWrite_joblct : lctWrite k j.val false v s = setCol s k { colAt s k with
    joblct := (colAt s k).joblct.set j.val (v &&& 0x801FFFFFFFFFFFFF)
    lctCache := (colAt s k).lctCache.filter fun e => e.1 != ((colAt s k).joblct.get j).setWidth 32 && e.1 != v.setWidth 32 } := by
  have low : (v &&& 0x801FFFFFFFFFFFFF).setWidth 32 = v.setWidth 32 := by
    rw [BitVec.setWidth_and]; exact BitVec.and_allOnes
  rw [lctWrite, updCol]
  refine congrArg (setCol s k) ?_
  rw [vget_get]
  simp only [Bool.false_eq_true, if_false, vput_eq, bits_joblct]
  rw [vget_get, vec_get_set_self, low]

theorem lctWrite_lctbase : lctWrite k j.val true v s = setCol s k { colAt s k with
    lctbase := (colAt s k).lctbase.set j.val (v &&& 0x00FFFFFFFFFFFFC0)
    lctCache := (colAt s k).lctCache.filter fun e => e.1 != ((colAt s k).joblct.get j).setWidth 32 } := by
  rw [lctWrite, updCol]
  refine congrArg (setCol s k) ?_
  simp only [if_true, vput_eq, bits_55_6, vget_get, Bool.and_self]

end

/-! ## Scrubbing and repairs (R51, R74, R79) -/

section
variable {s : State} {k : Fin 8}

theorem patrolScrub_run {line : Nat} (h : line < 0x30000000) : exec (.patrolScrub k.val line) s =
    if (colAt s k).bad.contains line then .next (logError k 0 (sliceOf (64 * line)) (mkGpa s k.val (64 * line)) s)
    else if (colAt s k).soft.contains line then
      .next (countSoft k (updCol s k fun c => { c with soft := c.soft.filter (· != line) }))
    else .next s := by
  refine (column_unit h).trans ?_
  rw [colIx_val]

theorem updCol_updCol (s : State) (k : Fin 8) (f g : Column → Column) : updCol (updCol s k f) k g = updCol s k fun c => g (f c) := by
  rw [updCol, colAt_updCol_self]
  simp [updCol, setCol, Vector.set]

/-- The error record of a free register raises vector 3 (R74, R466). -/
theorem logError_free {gpa src unit : Nat} (free : (colAt s k).errinfo.getLsbD 63 = false) :
    (logError k src unit gpa s).boot.intstat.getLsbD 3 = true := by
  unfold logError
  dsimp only
  rw [if_neg (by rw [free]; decide)]
  exact intstat_raiseInt (by decide) _

theorem logError_net {gpa src unit : Nat} : (logError k src unit gpa s).net = s.net := by
  unfold logError
  dsimp only
  split
  · rfl
  · obtain ⟨int, pend, sent, raised, -⟩ := raiseInt_form 3 (updCol s k fun c => { c with
      errinfo := (1#64 <<< 63) ||| (c.errinfo &&& (1#64 <<< 62)) ||| (BitVec.ofNat 64 src <<< 52) ||| (BitVec.ofNat 64 unit <<< 40)
      erraddr := BitVec.ofNat 64 (gpa / 64 * 64) })
    rw [raised]
    rfl

/-- A repaired column's VBSTAT (R79). -/
def burned (w : BitVec 64) : BitVec 64 :=
  setBits w (BitVec.ofNat 64 (2 ^ 48 * (w.toNat / 2 ^ 48 % 256 - w.toNat / 2 ^ 40 % 256) +
    2 ^ 32 * (w.toNat / 2 ^ 32 % 256 + w.toNat / 2 ^ 40 % 256))) 55 32

theorem burned_eq {w : BitVec 64} (enough : w.toNat / 2 ^ 40 % 256 ≤ w.toNat / 2 ^ 48 % 256)
    (fits : w.toNat / 2 ^ 32 % 256 + w.toNat / 2 ^ 40 % 256 < 256) : burned w = (w &&& 0xFF000000FFFFFFFF) |||
      BitVec.ofNat 64 (2 ^ 48 * (w.toNat / 2 ^ 48 % 256 - w.toNat / 2 ^ 40 % 256) + 2 ^ 32 * (w.toNat / 2 ^ 32 % 256 + w.toNat / 2 ^ 40 % 256)) := by
  unfold burned
  have small : w.toNat / 2 ^ 48 % 256 < 256 := Nat.mod_lt _ (by decide)
  generalize w.toNat / 2 ^ 48 % 256 = free at *
  generalize w.toNat / 2 ^ 40 % 256 = soft at *
  generalize w.toNat / 2 ^ 32 % 256 = done at *
  have field (y : Nat) (h : y < 2 ^ 24) : BitVec.ofNat 64 (2 ^ 32 * y) &&& (0xFFFFFF#64 <<< 32) = BitVec.ofNat 64 (2 ^ 32 * y) := by
    have shifted : BitVec.ofNat 64 (2 ^ 32 * y) = BitVec.ofNat 64 y <<< 32 := by
      refine BitVec.eq_of_toNat_eq ?_
      rw [BitVec.toNat_shiftLeft, BitVec.toNat_ofNat, BitVec.toNat_ofNat, Nat.shiftLeft_eq]
      omega
    have low : BitVec.ofNat 64 y &&& 0xFFFFFF#64 = BitVec.ofNat 64 y := by
      refine BitVec.eq_of_toNat_eq ?_
      rw [BitVec.toNat_and, BitVec.toNat_ofNat, Nat.mod_eq_of_lt (by omega)]
      exact (Nat.and_two_pow_sub_one_eq_mod y 24).trans (Nat.mod_eq_of_lt h)
    rw [shifted, ← BitVec.shiftLeft_and_distrib, low]
  have word : 2 ^ 48 * (free - soft) + 2 ^ 32 * (done + soft) = 2 ^ 32 * (2 ^ 16 * (free - soft) + (done + soft)) := by omega
  rw [word, setBits]
  exact congrArg₂ (· ||| ·) rfl (field _ (by omega))

theorem commit_run : exec (.commit k.val) s = .next (setCol s k
    (if !(colAt s k).vbctl.getLsbD 2 then colAt s k
      else if (colAt s k).vbstat.toNat / 2 ^ 48 % 256 < (colAt s k).vbstat.toNat / 2 ^ 40 % 256 then { colAt s k with vbctl := 1 }
      else { colAt s k with vbctl := onlyBits (colAt s k).vbctl 0 0, vbstat := burned (colAt s k).vbstat })) := by
  refine (if_neg (column_exists k)).trans ?_
  rw [colIx_val]
  rfl

end

/-! ## The fabric's ports (R459 to R461) -/

theorem train_run {s : State} (h : s.boot.minimal = false) : exec .train s = .next (trainPorts s) :=
  congrArg Host.Outcome.next (if_neg (by rw [h]; decide))

/-- TFLSTAT of a port that read its partner's capability flit (R461). -/
def flitStatus (s : State) (major minor : BitVec 8) (feat : BitVec 16) (dev : BitVec 8) : BitVec 64 :=
  let st : BitVec 64 := if major ≠ 2 then 2 else if dev = s.fabric.dev then 3 else 1
  (st <<< 62) ||| (dev.zeroExtend 64 <<< 40) ||| (major.zeroExtend 64 <<< 16) |||
    (if st == 1 then ((if minor.toNat < 1 then minor else 1).zeroExtend 64 <<< 8) ||| (feat &&& 3).zeroExtend 64 else 0)

/-- The fields of a status word laid out so. -/
theorem status_fields (st : BitVec 2) (dev major minor feat : BitVec 8) :
    let w : BitVec 64 := (st.zeroExtend 64 <<< 62) ||| (dev.zeroExtend 64 <<< 40) ||| (major.zeroExtend 64 <<< 16) |||
      ((minor.zeroExtend 64 <<< 8) ||| feat.zeroExtend 64)
    w.extractLsb' 62 2 = st ∧ w.extractLsb' 40 8 = dev ∧ w.extractLsb' 16 8 = major ∧ w.extractLsb' 8 8 = minor ∧ w.setWidth 8 = feat := by
  refine ⟨?_, ?_, ?_, ?_, ?_⟩
  all_goals
    refine BitVec.eq_of_getLsbD_eq fun i hi => ?_
    interval_cases i <;> simp

/-- The port comes up: version 2 and another device's number. -/
def flitUp (s : State) (major dev : BitVec 8) : Bool := major == 2 && dev != s.fabric.dev

theorem flitStatus_fields (s : State) (major minor : BitVec 8) (feat : BitVec 16) (dev : BitVec 8) :
    let w := flitStatus s major minor feat dev
    let up := flitUp s major dev
    w.extractLsb' 62 2 = (if up then 1 else if major ≠ 2 then 2 else 3) ∧ w.extractLsb' 40 8 = dev ∧ w.extractLsb' 16 8 = major ∧
      w.extractLsb' 8 8 = (if up then (if minor = 0 then 0 else 1) else 0) ∧ w.setWidth 8 = (if up then (feat &&& 3).setWidth 8 else 0) := by
  have fields := status_fields (if flitUp s major dev then 1 else if major ≠ 2 then 2 else 3) dev major
    (if flitUp s major dev then (if minor = 0 then 0 else 1) else 0) (if flitUp s major dev then (feat &&& 3).setWidth 8 else 0)
  have word : flitStatus s major minor feat dev =
      (((if flitUp s major dev then 1 else if major ≠ 2 then 2 else 3 : BitVec 2).zeroExtend 64 <<< 62) ||| (dev.zeroExtend 64 <<< 40) |||
        (major.zeroExtend 64 <<< 16) |||
        (((if flitUp s major dev then (if minor = 0 then 0 else 1) else 0 : BitVec 8).zeroExtend 64 <<< 8) |||
          (if flitUp s major dev then (feat &&& 3).setWidth 8 else 0 : BitVec 8).zeroExtend 64)) := by
    have none : ((0 : BitVec 8).zeroExtend 64 <<< 8) ||| (0 : BitVec 8).zeroExtend 64 = (0 : BitVec 64) := rfl
    have low : ((feat &&& 3).setWidth 8).zeroExtend 64 = (feat &&& 3).zeroExtend 64 := by
      have small : (feat &&& 3).toNat ≤ 3 := by rw [BitVec.toNat_and]; exact Nat.and_le_right
      refine BitVec.eq_of_toNat_eq ?_
      simp only [BitVec.toNat_setWidth]
      omega
    have least : (if minor.toNat < 1 then minor else 1) = if minor = 0 then 0 else 1 := by
      by_cases zero : minor = 0
      · rw [zero]; rfl
      · have : ¬ minor.toNat < 1 := fun h => zero (BitVec.eq_of_toNat_eq (by simpa using h))
        rw [if_neg this, if_neg zero]
    unfold flitStatus flitUp
    generalize feat &&& 3 = x at low
    by_cases version : major = 2#8
    · by_cases same : dev = s.fabric.dev
      · simp [version, same]
      · simp only [least, ← low]
        simp [version, same]
    · simp [version]
  rw [← word] at fields
  exact fields

/-- The ports after a partner's capability flit. -/
def flitTaken (s : State) (p : Nat) (major minor : BitVec 8) (feat : BitVec 16) (dev : BitVec 8) : State :=
  { s with fabric := { s.fabric with
      tflstat := vput s.fabric.tflstat p (flitStatus s major minor feat dev), training := s.fabric.training &&& ~~~(1#16 <<< p) } }

theorem capabilityFlit_run {s : State} {p : Fin 16} (major minor : BitVec 8) (feat : BitVec 16) (dev : BitVec 8)
    (minimal : s.boot.minimal = false) (training : s.fabric.training.getLsbD p.val = true) :
    ∃ t, exec (.capabilityFlit p.val major minor feat dev) s = .next t ∧ t.fabric = (flitTaken s p.val major minor feat dev).fabric ∧
      t.cores = s.cores ∧ t.cols = s.cols ∧ t.mem = s.mem := by
  have run : exec (.capabilityFlit p.val major minor feat dev) s =
      .next (if (vget s.fabric.tflstat p.val).extractLsb' 62 2 = (flitStatus s major minor feat dev).extractLsb' 62 2
        then flitTaken s p.val major minor feat dev else raiseInt 7 (flitTaken s p.val major minor feat dev)) :=
    (if_neg (Nat.not_le.mpr p.isLt)).trans (if_neg (by rw [training, minimal]; decide))
  refine ⟨_, run, ?_⟩
  split
  · exact ⟨rfl, rfl, rfl, rfl⟩
  · obtain ⟨int, pend, sent, raised, -⟩ := raiseInt_form 7 (flitTaken s p.val major minor feat dev)
    rw [raised]
    exact ⟨rfl, rfl, rfl, rfl⟩

theorem allowanceGrant_run (s : State) (p : Fin 16) (cls : BitVec 2) (n : Nat) : exec (.allowanceGrant p.val cls n) s = .next
    { s with fabric := { s.fabric with
        allow := tabPut s.fabric.allow (4 * p.val + cls.toNat) (tabGet 0 s.fabric.allow (4 * p.val + cls.toNat) + n) } } :=
  if_neg (Nat.not_le.mpr p.isLt)

/-! ## The host's accesses to memory (R457) -/

section
variable {s : State} {k : Fin 8} {off n : Nat} (data : List (BitVec 8)) (some : 1 ≤ n) (line : off % 64 + n ≤ 64)
  (dram : off + n ≤ 0xC00000000) (rst : s.boot.rstBusy = false) (minimal : s.boot.minimal = false) (trip : (colAt s k).tripped = false)
  (free : homeBarred s true (mkGpa s k.val off) = false)
include some line dram rst minimal trip free

/-- Nothing keeps the access waiting. -/
theorem cxlMemAccess_free : ¬ (0xC00000000 < off + n ∨ n = 0 ∨ 64 < n ∨ off / 64 ≠ (off + n - 1) / 64 ∨
    (s.boot.rstBusy = true ∧ s.boot.rstCols.getLsbD k.val = true) ∨ (colAt s k).tripped = true ∨ s.boot.minimal = true ∨
    homeBarred s true (mkGpa s k.val off) = true) := by
  rw [rst, trip, minimal, free]
  simp only [Bool.false_eq_true, false_and, or_false, not_or]
  omega

theorem cxlMemAccess_write {t : State} {ok : Bool}
    (write : ownerWrite true (mkGpa s k.val off) n (packWords 8 ((List.range n).map fun i => (data.getD i 0).toNat)) s = (ok, t)) :
    exec (.cxlMemAccess k.val off n true data) s = .next t := by
  have all := cxlMemAccess_free some line dram rst minimal trip free
  show execCxlMemAccess k.val off n true data s = _
  unfold execCxlMemAccess
  extract_lets col a
  rw [if_neg (column_exists k), show col = k from colIx_val k, if_neg all, if_pos rfl, show a = mkGpa s k.val off from rfl, write]

theorem cxlMemAccess_read {t : State} {r : Option Nat} (read : ownerRead true (mkGpa s k.val off) n s = (r, t)) :
    exec (.cxlMemAccess k.val off n false data) s = .next { t with boot := { t.boot with
      cxlData := (List.range n).map fun i => BitVec.ofNat 8 (r.getD 0 / 256 ^ i), cxlPoison := r.isNone } } := by
  have all := cxlMemAccess_free some line dram rst minimal trip free
  show execCxlMemAccess k.val off n false data s = _
  unfold execCxlMemAccess
  extract_lets col a
  rw [if_neg (column_exists k), show col = k from colIx_val k, if_neg all, if_neg Bool.false_ne_true, show a = mkGpa s k.val off from rfl, read]

end

/-- What the host finds and leaves at a good home, and at one with an uncorrectable error. -/
theorem dram_home {s : State} {k : Fin 8} {off : Nat} (dev : s.fabric.dev.toNat < 0xFE) (dram : off < 0xC00000000) :
    targetOf s (mkGpa s k.val off) = .dram k off := by
  rw [targetOf_mkGpa s k (by omega) dev, offTarget, if_pos dram]

/-- Settles O47: counters (`serviceRead_cebytes` and its like), the columns' registers (`bar4_written`, `bar4_reads`), the places that no BAR
takes, JOBLCT and LCTBASE, scrubbing and repairs, the ports, and the host's accesses of memory at a home. -/
theorem columnEvents : Obligations.ColumnEvents := by
  refine ⟨fun s k v => ?_, fun s => ⟨?_, ?_, ?_, ?_, ?_⟩⟩
  · intro c becomes
    refine ⟨?_, fun e => ⟨?_, ?_⟩, fun e => ⟨?_, ?_, ?_⟩, ?_, ?_, ?_, ?_, ?_, ?_, ?_⟩
    · exact (if_neg (column_exists k)).trans (by rw [colIx_val]; rfl)
    · exact (column_unit e.isLt).trans (by rw [colIx_val, serviceRead_cebytes k e s (by omega)]; rfl)
    · exact (column_unit e.isLt).trans (by rw [colIx_val, serviceRead_cereqs k e s (by omega)]; rfl)
    · exact (column_unit e.isLt).trans (by rw [colIx_val, serviceRead_clelems k e s (by omega)]; rfl)
    · exact (column_unit e.isLt).trans (by rw [colIx_val, serviceRead_czin k e s (by omega)]; rfl)
    · exact (column_unit e.isLt).trans (by rw [colIx_val, serviceRead_czout k e s (by omega)]; rfl)
    · intro dev bus written reads
      have put {r : Nat} {c' : Column} (low : r < 0xA000) (aligned : r % 8 = 0) (h : privWrite k r v s = setCol s k c') : written r c' :=
        bar4_written dev bus low aligned h
      have get {r : Nat} {x : BitVec 64} (low : r < 0xA000) (aligned : r % 8 = 0) (h : privRead k r s = (x, s)) : reads r x :=
        bar4_reads dev bus low aligned h
      refine ⟨put (by decide) rfl ?_, put (by decide) rfl ?_, put (by decide) rfl ?_, put (by decide) rfl ?_, put (by decide) rfl ?_,
        get (by decide) rfl rfl, get (by decide) rfl rfl, get (by decide) rfl rfl, get (by decide) rfl rfl, get (by decide) rfl rfl, ?_⟩
      · rw [← bits_55_6]; rfl
      · rw [← bits_63_6]; rfl
      · rw [← bits_55_6]; rfl
      · rw [← bits_55_6]; rfl
      · rw [← bits_63_62]; rfl
      · rintro rfl
        have h := bar4_written (r := 0x4000) (v := v) dev bus (by decide) rfl rfl
        rw [← bits_55_17]
        exact h
    · exact fun bar off n wr h => registerWrite_untaken s h
    · intro off low rst trip
      refine ⟨fun aligned => ?_, fun aligned arg => ⟨?_, ?_⟩⟩
      · exact registerWrite_mailbox rst trip (by simp [barTakes, aligned, low])
      · exact registerWrite_mailbox rst trip (by simp [barTakes, aligned, low, arg])
      · exact registerWrite_mailbox (a := ⟨4, true, v⟩) rst trip (by simp [barTakes, aligned, low, arg])
    · intro j
      refine ⟨_, joblctWrite_run s k j v, ?_⟩
      rw [lctWrite_joblct, colAt_setCol_self]
      refine ⟨rfl, fun x => ?_, rfl⟩
      simp only [List.mem_filter, Bool.and_eq_true, bne_iff_ne, c]
    · intro j
      refine ⟨_, lctbaseWrite_run s k j v, ?_⟩
      rw [lctWrite_lctbase, colAt_setCol_self]
      refine ⟨rfl, fun x => ?_, rfl⟩
      simp only [List.mem_filter, bne_iff_ne, c]
    · intro line low
      have run := patrolScrub_run (s := s) (k := k) low
      refine ⟨fun good soft => ?_, fun bad free => ?_, fun good hard => ?_⟩
      · rw [if_neg (by simpa using good), if_pos (by simpa using soft)] at run
        refine ⟨_, run, ?_⟩
        rw [countSoft, colAt_updCol_self, colAt_updCol_self]
        refine ⟨by simp, rfl, ?_⟩
        rw [updCol_updCol]
        rfl
      · rw [if_pos (by simpa using bad)] at run
        obtain ⟨valid, addr⟩ := record_logError k s 0 (sliceOf (64 * line)) (mkGpa s k.val (64 * line))
        refine ⟨_, run, valid, ?_, ?_, mem_logError _ _ _ _ _, cores_logError _ _ _ _ _⟩
        · rw [addr free, show mkGpa s k.val (64 * line) / 64 * 64 = mkGpa s k.val (64 * line) by unfold mkGpa; omega]
        · exact logError_free free
      · exact run.trans ((if_neg (by simpa using good)).trans (if_neg (by simpa using hard)))
    · intro free soft used
      have run := commit_run (s := s) (k := k)
      refine ⟨fun idle => ?_, fun busy short => ?_, fun busy enough fits => ?_⟩
      · rw [if_pos (by rw [idle]; rfl)] at run
        exact run
      · rw [if_neg (by rw [busy]; decide), if_pos short] at run
        exact run
      · rw [if_neg (by rw [busy]; decide), if_neg (Nat.not_lt.mpr enough)] at run
        refine ⟨_, run, ?_⟩
        rw [colAt_setCol_self]
        refine ⟨?_, ?_, rfl⟩
        · exact burned_eq enough fits
        · simp [onlyBits, setBits, c]
  · exact fun minimal => ⟨congrArg Host.Outcome.next (if_pos minimal), fun p major minor feat dev hp =>
      (if_neg (Nat.not_le.mpr hp)).trans (if_pos (by rw [minimal]; exact Bool.or_true _))⟩
  · intro minimal
    refine ⟨_, train_run minimal, rfl, fun p hp enabled => ?_, rfl, rfl⟩
    rw [trainPorts, sendFlits_sent]
    refine List.mem_append_left _ (List.mem_reverse.mpr (List.mem_map.mpr ⟨p, ?_, rfl⟩))
    exact List.mem_filter.mpr ⟨List.mem_range.mpr hp, enabled⟩
  · intro p major minor feat dev minimal training up
    obtain ⟨t, run, fabric, cores, cols, mem⟩ := capabilityFlit_run (p := p) major minor feat dev minimal training
    obtain ⟨state, number, version, minor', features⟩ := flitStatus_fields s major minor feat dev
    have port : t.fabric.tflstat.get p = flitStatus s major minor feat dev := by
      rw [fabric, flitTaken, vput_eq]; exact vec_get_set_self _ _ _
    refine ⟨t, run, ?_, ?_, ?_, ?_, ?_, fun q hq => ?_, by rw [fabric]; rfl, cores, cols, mem⟩
    · rw [port]; exact state
    · rw [port]; exact number
    · rw [port]; exact version
    · rw [port]; exact minor'
    · rw [port]; exact features
    · rw [fabric, flitTaken, vput_eq]; exact vec_get_set_ne _ _ _ _ hq
  · intro p cls n
    refine ⟨_, allowanceGrant_run s p cls n, fun x => ?_, rfl⟩
    dsimp only
    rw [tabGet_tabPut]
    split
    · next h => rw [h]
    · rfl
  · intro k off n data dev some line dram rst minimal trip bus a bad none free
    have target : targetOf s a = .dram k off := dram_home dev (by omega)
    have degraded : degradedAt s a = false := (degradedAt_mkGpa s k (by omega)).trans bus
    refine ⟨fun ok good => ?_, ?_⟩
    · obtain ⟨t, write, rest, bytes⟩ := ownerWrite_home (coh := true) (n := n) none ok target degraded bus (Bool.eq_false_iff.mpr good)
        (x := packWords 8 ((List.range n).map fun i => (data.getD i 0).toNat)) (by
          have : a % 64 = off % 64 := by show mkGpa s k.val off % 64 = _; unfold mkGpa; omega
          omega)
        (lt_of_lt_of_eq (packWords_lt _) (by rw [List.length_map, List.length_range]))
      refine ⟨t, cxlMemAccess_write data some line dram rst minimal trip free write, fun b => ?_, (congrArg State.cores rest :), (congrArg State.net rest :)⟩
      rw [bytes b]
      split
      · next inside => 
        rw [packWords_byte, List.getD_eq_getElem _ _ (by rw [List.length_map, List.length_range]; omega), List.getElem_map, List.getElem_range]
        exact BitVec.ofNat_toNat _ _ |>.trans (BitVec.setWidth_eq _)
      · rfl
    · by_cases good : bad
      · obtain ⟨src, unit, read⟩ := ownerRead_error (coh := true) (n := n) none target degraded good
        have run := cxlMemAccess_read data some line dram rst minimal trip free read
        refine ⟨_, run, mem_logError _ _ _ _ _, cores_logError _ _ _ _ _, ?_, fun h => absurd good h, fun _ => rfl⟩
        exact logError_net
      · obtain ⟨t, read, only⟩ := ownerRead_home (coh := true) (n := n) none target degraded bus (Bool.eq_false_iff.mpr good)
        have run := cxlMemAccess_read data some line dram rst minimal trip free read
        refine ⟨_, run, only.mem, only.cores, only.net, fun _ => ⟨rfl, fun i hi => ?_⟩, fun h => absurd h good⟩
        
        rw [List.getD_eq_getElem _ _ (by rw [List.length_map, List.length_range]; exact hi), List.getElem_map, List.getElem_range]
        exact memRead_byte s.mem n a i hi

end Sys2Proof.Machine
end

section
/-!
PROOFS. Cold and warm reset and start-up (R4, R76, R77, R463, R466, R467).
-/

namespace Sys2Proof.Machine

set_option Elab.async false

/-! ## Bits of VBSTAT (R76, R79) -/

section
variable (k now : Nat) (c : Column)

theorem trainColumn_bus : (trainColumn k now c).vbstat.getLsbD 63 = !Config.coreBusPasses k now := by
  unfold trainColumn
  dsimp only
  cases Config.coreBusPasses k now <;> cases Config.layerBusPasses k now <;> simp [onlyBits, setBits]

theorem trainColumn_fused : (trainColumn k now c).vbstat.extractLsb' 48 8 = c.vbstat.extractLsb' 48 8 := by
  unfold trainColumn
  dsimp only
  refine BitVec.eq_of_getLsbD_eq fun i hi => ?_
  cases Config.coreBusPasses k now <;> cases Config.layerBusPasses k now <;> interval_cases i <;> simp [onlyBits, setBits]

/-- The rest of the column is as before training. -/
theorem trainColumn_rest : { trainColumn k now c with vbstat := c.vbstat, layerctl := c.layerctl } = c := rfl

theorem trainColumn_layer : (trainColumn k now c).layerctl = if Config.layerBusPasses k now then 3 else 2 := rfl

end

/-! ## Cold reset -/

theorem fused_kept (w : BitVec 64) : (onlyBits w 55 48 ||| onlyBits w 39 32).extractLsb' 48 8 = w.extractLsb' 48 8 := by
  refine BitVec.eq_of_getLsbD_eq fun i hi => ?_
  interval_cases i <;> simp [onlyBits, setBits]

/-- The memory that a cold reset leaves: what no address of this device or of device 0 names. -/
theorem byteAt_coldReset (m : List Host.Cell) (d b : Nat) :
    memGet (m.filter fun e => gpaDev e.1 != d && gpaDev e.1 != 0) b = if gpaDev b = d ∨ gpaDev b = 0 then 0 else memGet m b := by
  rw [memGet_filter (fun a => gpaDev a != d && gpaDev a != 0)]
  by_cases own : gpaDev b = d
  · simp [own]
  · by_cases zero : gpaDev b = 0
    · simp [zero]
    · simp [own, zero]

/-! ## A slice written home (R77) -/

/-- One line of a slice written to DRAM, in the column alone. -/
def Column.lineHome (c : Column) (ln : Nat) : Column := { c with
  cecnt := if c.sliceSoft.contains ln then (if c.cecnt = 0xFFFFFFFF then c.cecnt else c.cecnt + 1) else c.cecnt
  bad := if c.sliceBad.contains ln then ln :: c.bad.filter (· != ln) else c.bad.filter (· != ln)
  soft := c.soft.filter (· != ln), sliceSoft := c.sliceSoft.filter (· != ln) }

def Column.slicesHome (c : Column) : Column := c.dirtyLines.foldl Column.lineHome c

theorem setCol_setCol (s : State) (k : Fin 8) (a b : Column) : setCol (setCol s k a) k b = setCol s k b := by simp [setCol, Vector.set]

theorem sliceToDram_eq (k : Fin 8) (ln : Nat) (s : State) : sliceToDram k ln s = setCol s k ((colAt s k).lineHome ln) := by
  unfold sliceToDram
  dsimp only
  split
  · next soft =>
    rw [countSoft, updCol_updCol]
    refine congrArg (setCol s k) ?_
    rw [Column.lineHome, if_pos soft]
  · next hard =>
    refine congrArg (setCol s k) ?_
    rw [Column.lineHome, if_neg hard]

theorem setCol_self (s : State) (k : Fin 8) : setCol s k (colAt s k) = s := by
  unfold setCol colAt
  congr
  exact Vector.set_getElem_self ..

theorem slicesHome_foldl (k : Fin 8) : ∀ (l : List Nat) (s : State),
    l.foldl (fun s ln => sliceToDram k ln s) s = setCol s k (l.foldl Column.lineHome (colAt s k))
  | [], s => (setCol_self s k).symm
  | ln :: l, s => by
    rw [List.foldl_cons, slicesHome_foldl k l, sliceToDram_eq, colAt_setCol_self, setCol_setCol]
    rfl

theorem slicesHome_eq (k : Fin 8) (s : State) : slicesHome k s = setCol s k (colAt s k).slicesHome := slicesHome_foldl k _ s

/-- The errors of DRAM after some lines went home. -/
theorem lineHome_foldl : ∀ (l : List Nat) (c : Column),
    (l.foldl Column.lineHome c).sliceBad = c.sliceBad ∧
    (∀ ln, ln ∈ (l.foldl Column.lineHome c).bad ↔ if ln ∈ l then ln ∈ c.sliceBad else ln ∈ c.bad) ∧
    (c.sliceSoft = [] → (l.foldl Column.lineHome c).cecnt = c.cecnt) ∧ (l.foldl Column.lineHome c).errinfo = c.errinfo
  | [], c => ⟨rfl, fun _ => by simp, fun _ => rfl, rfl⟩
  | x :: l, c => by
    obtain ⟨slice, bad, count, info⟩ := lineHome_foldl l (c.lineHome x)
    refine ⟨slice, fun ln => ?_, fun none => ?_, info⟩
    · rw [List.foldl_cons, bad ln]
      have first : ln ∈ (c.lineHome x).bad ↔ if ln = x then ln ∈ c.sliceBad else ln ∈ c.bad := by
        by_cases here : ln = x
        · subst here
          by_cases hb : ln ∈ c.sliceBad <;> simp [Column.lineHome, hb]
        · by_cases hb : x ∈ c.sliceBad <;> simp [Column.lineHome, hb, here]
      by_cases here : ln = x
      · subst here
        rw [if_pos List.mem_cons_self]
        split
        · rfl
        · rw [first, if_pos rfl]
      · rw [first, if_neg here]
        simp only [List.mem_cons, here, false_or]
        rfl
    · have kept : (c.lineHome x).sliceSoft = [] := by simp [Column.lineHome, none]
      rw [List.foldl_cons, count kept]
      simp [Column.lineHome, none]

/-! ## The package takes a device number (R461) -/

theorem memAbove_keys {l : Nat} : ∀ t : List Host.Cell, memAbove (some l) t = true → ∀ e ∈ t, l < e.1
  | [], _, _, he => by cases he
  | (j, v) :: t, h, e, he => by
    simp only [memAbove, Bool.and_eq_true, decide_eq_true_eq] at h
    obtain rfl | he := List.mem_cons.mp he
    · exact h.1.1
    · exact lt_trans h.1.1 (memAbove_keys t h.2 e he)

theorem memGet_absent {z : Nat} : ∀ l : List Host.Cell, z ∉ l.map (·.1) → memGet l z = 0
  | [], _ => rfl
  | (j, v) :: l, h => by
    rw [List.map_cons, List.mem_cons, not_or] at h
    rw [memGet, if_neg (Ne.symm h.1)]
    exact memGet_absent l h.2

/-- Cells of one device's addresses written at another's: what they read as there. -/
theorem memGet_moved {a b : Nat} (z : Nat) (hz : gpaDev z = a) : ∀ (l : List Host.Cell) (o : Option Nat) (base : List Host.Cell),
    memAbove o l = true → (∀ e ∈ l, gpaDev e.1 = a) → Memory.wf base = true →
    Memory.wf (l.foldl (fun m e => memPut m (e.1 - a * 2 ^ 48 + b * 2 ^ 48) e.2) base) = true ∧
    memGet (l.foldl (fun m e => memPut m (e.1 - a * 2 ^ 48 + b * 2 ^ 48) e.2) base) (z - a * 2 ^ 48 + b * 2 ^ 48) =
      if z ∈ l.map (·.1) then memGet l z else memGet base (z - a * 2 ^ 48 + b * 2 ^ 48)
  | [], _, base, _, _, ok => ⟨ok, by simp⟩
  | (j, v) :: l, o, base, above, own, ok => by
    simp only [memAbove, Bool.and_eq_true] at above
    obtain ⟨-, above⟩ := above
    have hj : gpaDev j = a := own (j, v) List.mem_cons_self
    obtain ⟨wf, read⟩ := memGet_moved z hz l (some j) (memPut base (j - a * 2 ^ 48 + b * 2 ^ 48) v) above
      (fun e he => own e (List.mem_cons_of_mem _ he)) (wf_memPut _ _ _ ok)
    refine ⟨wf, read.trans ?_⟩
    by_cases here : z = j
    · subst here
      have absent : z ∉ l.map (·.1) := by
        intro m
        obtain ⟨e, he, key⟩ := List.mem_map.mp m
        have := memAbove_keys l above e he
        omega
      rw [if_neg absent, memGet_memPut _ _ _ _ ok, if_pos rfl]
      simp [memGet]
    · have apart : z - a * 2 ^ 48 + b * 2 ^ 48 ≠ j - a * 2 ^ 48 + b * 2 ^ 48 := by
        unfold gpaDev at hz hj; omega
      rw [memGet_memPut _ _ _ _ ok, if_neg apart]
      simp [memGet, here, Ne.symm here]

/-- Memory after a change of the device number: the device's own bytes under the new number. -/
theorem setDev_memory (d : BitVec 8) {s : State} (ok : s.memOk) : (setDev d s).memOk ∧
    ∀ (k : Fin 8) off, off < 2 ^ 45 → byteAt (setDev d s) (mkGpa (setDev d s) k.val off) = byteAt s (mkGpa s k.val off) := by
  unfold setDev
  dsimp only
  split
  · exact ⟨ok, fun _ _ _ => rfl⟩
  · next other =>
    have own : memAbove none (s.mem.filter fun e => gpaDev e.1 == s.fabric.dev.toNat) = true := memAbove_filter _ none _ ok
    have base : Memory.wf (s.mem.filter fun e => gpaDev e.1 != s.fabric.dev.toNat && gpaDev e.1 != d.toNat) = true := wf_filter _ _ ok
    have devs : ∀ e ∈ s.mem.filter fun e => gpaDev e.1 == s.fabric.dev.toNat, gpaDev e.1 = s.fabric.dev.toNat := fun e he => by
      simpa using (List.mem_filter.mp he).2
    refine ⟨(memGet_moved (s.fabric.dev.toNat * 2 ^ 48) (by unfold gpaDev; have := s.fabric.dev.isLt; omega) _ none _ own devs base).1,
      fun k off low => ?_⟩
    have here : gpaDev (mkGpa s k.val off) = s.fabric.dev.toNat := gpaDev_mkGpa s k low
    have moved := (memGet_moved (b := d.toNat) _ here _ none _ own devs base).2
    have place : mkGpa s k.val off - s.fabric.dev.toNat * 2 ^ 48 + d.toNat * 2 ^ 48 = d.toNat * 2 ^ 48 + k.val * 2 ^ 45 + off := by
      unfold mkGpa; omega
    rw [place] at moved
    refine moved.trans ?_
    have value : memGet (s.mem.filter fun e => gpaDev e.1 == s.fabric.dev.toNat) (mkGpa s k.val off) = byteAt s (mkGpa s k.val off) := by
      rw [memGet_filter (fun a => gpaDev a == s.fabric.dev.toNat), here, beq_self_eq_true, if_pos rfl]; rfl
    split
    · exact value
    · next absent =>
      rw [← value, memGet_absent _ absent, memGet_filter (fun a => gpaDev a != s.fabric.dev.toNat && gpaDev a != d.toNat), if_neg]
      have new : gpaDev (d.toNat * 2 ^ 48 + k.val * 2 ^ 45 + off) = d.toNat := by
        have := d.isLt
        have := k.isLt
        unfold gpaDev; omega
      rw [new]; simp

theorem setDev_dev (d : BitVec 8) (s : State) : (setDev d s).fabric.dev = d := by
  unfold setDev
  dsimp only
  split
  · next same => exact BitVec.eq_of_toNat_eq same
  · rfl

theorem setDev_form (d : BitVec 8) (s : State) : ∃ mem fabric, setDev d s = { s with mem := mem, fabric := fabric } := by
  unfold setDev
  dsimp only
  split
  · exact ⟨s.mem, s.fabric, rfl⟩
  · exact ⟨_, _, rfl⟩

/-! ## The warm reset of a column (R77) -/

/-- What the warm reset of some columns, each once, leaves. -/
structure WarmReset (l : List (Fin 8)) (s t : State) : Prop where
  clock : t.clock = s.clock
  cores : ∀ x, coreAt t x = if ∃ k ∈ l, x / 256 = k.val then { Core.reset with cycBase := s.clock } else coreAt s x
  reset : ∀ k ∈ l, colAt t k = warmColumn k.val s.clock (colAt s k).slicesHome
  others : ∀ k, k ∉ l → colAt t k = colAt s k
  memory : s.memOk → t.memOk ∧ ∀ (k : Fin 8) off, off < 2 ^ 45 → byteAt t (mkGpa t k.val off) =
    if k ∈ l ∧ 0x10000000000 ≤ off ∧ off < 0x10040000000 then 0 else byteAt s (mkGpa s k.val off)
  slow : 0 ∉ l → (s.boot.intstat.getLsbD 4 = true → t.boot.intstat.getLsbD 4 = true) ∧
    ∀ k ∈ l, (colAt s k).thermctl.extractLsb' 62 2 ≠ 0 → t.boot.intstat.getLsbD 4 = true

theorem warmReset_nil (s : State) : WarmReset [] s s :=
  ⟨rfl, fun _ => by simp, fun _ h => (by cases h), fun _ _ => rfl, fun ok => ⟨ok, fun _ _ _ => by simp⟩, fun _ => ⟨id, fun _ h => (by cases h)⟩⟩

theorem warmReset_cons {k : Fin 8} {l : List (Fin 8)} {s t u : State} (fresh : k ∉ l) (h : WarmReset [k] s t) (r : WarmReset l t u) :
    WarmReset (k :: l) s u := by
  have apart (j : Fin 8) (hj : j ∈ l) : j ∉ [k] := fun m => by rw [List.mem_singleton.mp m] at hj; exact fresh hj
  refine ⟨r.clock.trans h.clock, fun x => ?_, fun j hj => ?_, fun j hj => ?_, fun ok => ?_, fun zero => ?_⟩
  · rw [r.cores x, h.cores x, h.clock]
    by_cases here : x / 256 = k.val
    · simp [here]
    · simp [here]
  · obtain rfl | hj := List.mem_cons.mp hj
    · rw [r.others j fresh, h.reset j (List.mem_singleton.mpr rfl)]
    · rw [r.reset j hj, h.clock, h.others j (apart j hj)]
  · rw [List.mem_cons, not_or] at hj
    rw [r.others j hj.2, h.others j (by rw [List.mem_singleton]; exact hj.1)]
  · obtain ⟨ok', first⟩ := h.memory ok
    obtain ⟨ok'', rest⟩ := r.memory ok'
    refine ⟨ok'', fun j off low => ?_⟩
    rw [rest j off low, first j off low]
    by_cases bank : 0x10000000000 ≤ off ∧ off < 0x10040000000
    · by_cases here : j = k
      · simp [here, bank]
      · simp [here, bank]
    · simp [bank]
  · rw [List.mem_cons, not_or] at zero
    obtain ⟨keep, first⟩ := h.slow (by rw [List.mem_singleton]; exact zero.1)
    obtain ⟨keep', rest⟩ := r.slow zero.2
    refine ⟨fun b => keep' (keep b), fun j hj hot => ?_⟩
    obtain rfl | hj := List.mem_cons.mp hj
    · exact keep' (first j (List.mem_singleton.mpr rfl) hot)
    · exact rest j hj (by rw [h.others j (apart j hj)]; exact hot)

/-- A vector that is raised stays so when another is (R466). -/
theorem raiseInt_keeps (v i : Nat) (s : State) (h : s.boot.intstat.getLsbD i = true) : (raiseInt v s).boot.intstat.getLsbD i = true := by
  have kept : (s.boot.intstat ||| (1#8 <<< v)).getLsbD i = true := by rw [BitVec.getLsbD_or, h, Bool.true_or]
  unfold raiseInt sendMsix
  split
  · exact h
  · dsimp only
    split <;> exact kept

/-- A state with other interrupt registers and another fabric of the same number, the raised vectors still up. -/
def Signalled (s t : State) : Prop := ∃ int pend sent fabric,
  t = { s with boot := { s.boot with intstat := int, msixPend := pend, msixSent := sent }, fabric := fabric } ∧ fabric.dev = s.fabric.dev ∧
    ∀ i, s.boot.intstat.getLsbD i = true → int.getLsbD i = true

theorem signalled_refl (s : State) : Signalled s s := ⟨s.boot.intstat, s.boot.msixPend, s.boot.msixSent, s.fabric, rfl, rfl, fun _ h => h⟩

theorem Signalled.trans {s t u : State} (h : Signalled s t) (r : Signalled t u) : Signalled s u := by
  obtain ⟨int, pend, sent, fabric, rfl, dev, keep⟩ := h
  obtain ⟨int', pend', sent', fabric', rfl, dev', keep'⟩ := r
  exact ⟨int', pend', sent', fabric', rfl, dev'.trans dev, fun i hi => keep' i (keep i hi)⟩

theorem signalled_raiseInt (v : Nat) (s : State) : Signalled s (raiseInt v s) := by
  obtain ⟨int, pend, sent, raised, -⟩ := raiseInt_form v s
  have keep (i : Nat) := raiseInt_keeps v i s
  rw [raised] at keep ⊢
  exact ⟨int, pend, sent, s.fabric, rfl, rfl, keep⟩

/-- The interrupts of a reset change the boot controller and the ports alone. -/
theorem signalled_portsDown (s : State) : Signalled s (portsDown s) := by
  have down : Signalled s { s with fabric := { s.fabric with tflstat := Vector.replicate 16 0, training := 0 } } :=
    ⟨s.boot.intstat, s.boot.msixPend, s.boot.msixSent, _, rfl, rfl, fun _ h => h⟩
  unfold portsDown
  dsimp only
  split
  · exact down.trans (signalled_raiseInt 7 _)
  · exact down

theorem signalled_resetInts (k : Fin 8) (s : State) : Signalled s (resetInts k s) := by
  have first : Signalled s (if (colAt s k).thermctl.extractLsb' 62 2 != 0 then raiseInt 4 s else s) := by
    split
    · exact signalled_raiseInt 4 s
    · exact signalled_refl s
  unfold resetInts
  refine first.trans ?_
  generalize (if (colAt s k).thermctl.extractLsb' 62 2 != 0 then raiseInt 4 s else s) = u
  dsimp only
  split
  · exact signalled_portsDown u
  · exact signalled_refl u

theorem resetInts_slow {k : Fin 8} (hk : k ≠ 0) (s : State) :
    (s.boot.intstat.getLsbD 4 = true → (resetInts k s).boot.intstat.getLsbD 4 = true) ∧
    ((colAt s k).thermctl.extractLsb' 62 2 ≠ 0 → (resetInts k s).boot.intstat.getLsbD 4 = true) := by
  have other : ¬ k.val = 0 := fun e => hk (Fin.ext e)
  unfold resetInts
  dsimp only
  rw [if_neg other]
  refine ⟨fun h => ?_, fun hot => ?_⟩
  · split
    · exact raiseInt_keeps 4 4 s h
    · exact h
  · rw [if_pos (bne_iff_ne.mpr hot)]
    exact intstat_raiseInt (by decide) s

/-- The cores of a column, each cleared. -/
theorem tabGet_resetCores (base : Nat) (v : Core) : ∀ (n : Nat) (cores : Tab Core) (x : Nat),
    tabGet Core.reset ((List.range n).foldl (fun t i => tabPut t (base + i) v) cores) x =
      if base ≤ x ∧ x < base + n then v else tabGet Core.reset cores x
  | 0, _, _ => by rw [if_neg (by omega)]; rfl
  | n + 1, cores, x => by
    rw [List.range_succ, List.foldl_append, List.foldl_cons, List.foldl_nil, tabGet_tabPut, tabGet_resetCores base v n]
    by_cases last : x = base + n
    · rw [if_pos last, if_pos (by omega)]
    · rw [if_neg last]
      by_cases inside : base ≤ x ∧ x < base + n
      · rw [if_pos inside, if_pos (by omega)]
      · rw [if_neg inside, if_neg (by omega)]

theorem colAt_congr {s t : State} (h : t.cols = s.cols) (k : Fin 8) : colAt t k = colAt s k := by rw [colAt, h]; rfl

/-- A column's units cleared, with new cores, memory, requests and reply entries. -/
def columnReset (k : Fin 8) (cores : Tab Core) (mem : List Host.Cell) (net : List Pkt) (entries : List REnt) (u : State) : State :=
  updCol { u with cores := cores, mem := mem, net := net, entries := entries } k (warmColumn k.val u.clock)

theorem warmReset_columnReset {k : Fin 8} {s u : State} {cores : Tab Core} {mem : List Host.Cell} (net : List Pkt) (entries : List REnt)
    (newCores : ∀ x, tabGet Core.reset cores x =
      if 256 * k.val ≤ x ∧ x < 256 * k.val + 256 then { Core.reset with cycBase := s.clock } else tabGet Core.reset s.cores x)
    (newMem : mem = memClear s.mem (mkGpa s k.val 0x10000000000) (mkGpa s k.val 0x10000000000 + 0x40000000))
    (clock : u.clock = s.clock) (dev : u.fabric.dev = s.fabric.dev) (col : colAt u k = (colAt s k).slicesHome)
    (cols : ∀ j, j ≠ k → colAt u j = colAt s j)
    (slow : k ≠ 0 → (s.boot.intstat.getLsbD 4 = true → u.boot.intstat.getLsbD 4 = true) ∧
      ((colAt s k).thermctl.extractLsb' 62 2 ≠ 0 → u.boot.intstat.getLsbD 4 = true)) :
    WarmReset [k] s (columnReset k cores mem net entries u) := by
  refine ⟨clock, fun x => ?_, fun j hj => ?_, fun j hj => ?_, fun ok => ⟨?_, fun j off low => ?_⟩, fun zero => ?_⟩
  · refine (newCores x).trans ?_
    by_cases here : x / 256 = k.val
    · rw [if_pos (by omega), if_pos ⟨k, List.mem_singleton.mpr rfl, here⟩]
    · rw [if_neg (by omega), if_neg]
      · rfl
      · rintro ⟨j, hj, hx⟩
        rw [List.mem_singleton.mp hj] at hx
        exact here hx
  · rw [List.mem_singleton.mp hj, columnReset, colAt_updCol_self, clock, ← col]
    rfl
  · rw [List.mem_singleton] at hj
    rw [columnReset, colAt_updCol_ne _ _ _ _ hj, ← cols j hj]
    rfl
  · show Memory.wf mem = true
    rw [newMem]; exact wf_memClear _ _ _ ok
  · have place : mkGpa (columnReset k cores mem net entries u) j.val off = mkGpa s j.val off := by
      show u.fabric.dev.toNat * 2 ^ 48 + _ + _ = _
      rw [dev]; rfl
    rw [place]
    show memGet mem (mkGpa s j.val off) = _
    rw [newMem, memGet_memClear]
    have column : j = k ↔ j.val = k.val := Fin.ext_iff
    by_cases here : j = k ∧ 0x10000000000 ≤ off ∧ off < 0x10040000000
    · refine (if_neg ?_).trans (if_pos ⟨List.mem_singleton.mpr here.1, here.2⟩).symm
      rw [here.1]; unfold mkGpa; omega
    · refine (if_pos ?_).trans (if_neg (by rw [List.mem_singleton]; exact here)).symm
      rw [column] at here; unfold mkGpa; omega
  · obtain ⟨keep, hot⟩ := slow fun e => zero (List.mem_singleton.mpr e.symm)
    exact ⟨keep, fun j hj => by rw [List.mem_singleton.mp hj]; exact hot⟩

/-- Column 0's reset takes the device number with it (R461). -/
theorem WarmReset.renumbered {k : Fin 8} {s v x : State} (h : WarmReset [k] s v) (d : BitVec 8) (first : k = 0) (clock : x.clock = (setDev d v).clock)
    (cores : x.cores = (setDev d v).cores) (cols : x.cols = (setDev d v).cols) (dev : x.fabric.dev = (setDev d v).fabric.dev)
    (mem : x.mem = (setDev d v).mem) : WarmReset [k] s x := by
  have memory (ok : v.memOk) := setDev_memory d ok
  obtain ⟨m, fabric, form⟩ := setDev_form d v
  refine ⟨clock.trans (by rw [form]; exact h.clock), fun c => ?_, fun j hj => ?_, fun j hj => ?_, fun ok => ?_, fun zero => ?_⟩
  · rw [coreAt_congr cores, ← h.cores c, form]; rfl
  · rw [colAt_congr cols, ← h.reset j hj, form]; rfl
  · rw [colAt_congr cols, ← h.others j hj, form]; rfl
  · obtain ⟨ok', bytes⟩ := h.memory ok
    obtain ⟨ok'', same⟩ := memory ok'
    refine ⟨by rw [State.memOk, mem]; exact ok'', fun j off low => ?_⟩
    rw [mkGpa, dev, byteAt, mem, ← bytes j off low, ← same j off low]
    rfl
  · exact absurd (List.mem_singleton.mpr first.symm) zero

/-- The warm reset of one column. -/
theorem warmReset_one (k : Fin 8) (s : State) : WarmReset [k] s (warmReset k s) := by
  obtain ⟨int, pend, sent, fabric, ints, dev, -⟩ := signalled_resetInts k s
  have slow (hk : k ≠ 0) := resetInts_slow hk s
  have home : slicesHome k (resetInts k s) = setCol (resetInts k s) k (colAt s k).slicesHome := by rw [slicesHome_eq, ints]; rfl
  have newCores := tabGet_resetCores (256 * k.val) { Core.reset with cycBase := s.clock } 256 s.cores
  unfold warmReset
  extract_lets base u zero cores t v clear moved
  have hu : u = setCol (resetInts k s) k (colAt s k).slicesHome := home
  have clock : u.clock = s.clock := by rw [hu, ints]; rfl
  have old : u.cores = s.cores := by rw [hu, ints]; rfl
  have mem : u.mem = s.mem := by rw [hu, ints]; rfl
  have reset : WarmReset [k] s v := by
    refine warmReset_columnReset (cores := cores) (mem := memClear u.mem base (base + 0x40000000)) _ _ ?_ ?_ clock ?_ ?_ (fun j hj => ?_) fun hk => ?_
    · show ∀ x, tabGet Core.reset ((List.range 256).foldl (fun t i => tabPut t (256 * k.val + i) { Core.reset with cycBase := u.clock }) u.cores) x = _
      rw [clock, old]; exact newCores
    · rw [mem]
    · rw [hu, ints]; exact dev
    · rw [hu, colAt_setCol_self]
    · rw [hu, colAt_setCol_ne _ _ _ _ hj, ints]; rfl
    · rw [hu]; exact slow hk
  split
  · next first => exact reset.renumbered 0 (Fin.ext first) rfl rfl rfl (setDev_dev 0 v).symm rfl
  · exact reset

/-- The warm reset of several columns, one after the other. -/
theorem warmReset_foldl : ∀ (l : List (Fin 8)) (s : State), l.Nodup → WarmReset l s (l.foldl (fun s k => warmReset k s) s)
  | [], s, _ => warmReset_nil s
  | k :: l, s, h => by
    obtain ⟨fresh, h⟩ := List.nodup_cons.mp h
    exact warmReset_cons fresh (warmReset_one k s) (warmReset_foldl l _ h)

/-- The columns of a mask. -/
def maskCols (m : BitVec 8) : List (Fin 8) := (List.finRange 8).filter fun k => m.getLsbD k.val

theorem mem_maskCols {m : BitVec 8} {k : Fin 8} : k ∈ maskCols m ↔ m.getLsbD k.val = true := by simp [maskCols]

theorem warmResets_reset (m : BitVec 8) (s : State) : ∃ u, WarmReset (maskCols m) s u ∧
    warmResets m s = { u with boot := { u.boot with rstBusy := false, rstCols := 0 } } := by
  refine ⟨_, warmReset_foldl (maskCols m) s ((List.nodup_finRange 8).filter _), ?_⟩
  rw [maskCols, List.foldl_filter]
  rfl

/-! ## Start-up (R463) -/

/-- What the obligation says of a failed start. -/
def StartFailed (s t : State) (why : BitVec 4) : Prop := t.boot.starting = false ∧ t.boot.bootwhy = why ∧
  t.boot.fails = (if s.boot.fails = 3 then 3 else s.boot.fails + 1) ∧ t.boot.minimal = (t.boot.fails == 3) ∧ t.boot.intstat.getLsbD 5 = true ∧
  t.mem = s.mem ∧ t.cores = s.cores

/-- The start fails with its cause; ports that go down then leave it so. -/
theorem bootFails_fails (why : BitVec 4) (s : State) : StartFailed s (bootFails why s) why ∧ (bootFails why s).cols = s.cols := by
  unfold bootFails
  dsimp only
  generalize hn : (if s.boot.fails = 3 then 3 else s.boot.fails + 1) = n
  generalize hb : ({ s with boot := { s.boot with fails := n, bootwhy := why, starting := false, step := 7, minimal := n == 3 } } : State) = b
  obtain ⟨int, pend, sent, raised, bit⟩ := raiseInt_form 5 b
  have down : Signalled (raiseInt 5 b) (if n = 3 then portsDown (raiseInt 5 b) else raiseInt 5 b) := by
    split
    · exact signalled_portsDown _
    · exact signalled_refl _
  rw [raised] at down ⊢
  obtain ⟨int', pend', sent', fabric, form, -, keep⟩ := down
  rw [form, ← hb]
  exact ⟨⟨rfl, rfl, hn.symm, rfl, keep 5 (bit (by decide)), rfl, rfl⟩, rfl⟩

theorem bootOk_ok (s : State) (starting : s.boot.starting = true) :
    (s.boot.step = 6 → (bootOk s).boot.starting = false ∧ (bootOk s).boot.fails = 0) ∧
    (s.boot.step ≠ 6 → (bootOk s).boot.starting = true ∧ (bootOk s).boot.fails = s.boot.fails) ∧ (bootOk s).boot.intstat.getLsbD 5 = true ∧
    (bootOk s).mem = s.mem ∧ (bootOk s).cores = s.cores ∧ (bootOk s).cols = s.cols := by
  have bit : (bootOk s).boot.intstat.getLsbD 5 = true := intstat_raiseInt (by decide) _
  by_cases last : s.boot.step = 6
  · have ok : bootOk s = raiseInt 5 { s with boot := { s.boot with starting := false, fails := 0 } } :=
      congrArg (raiseInt 5) (if_pos (by rw [starting, last]; rfl))
    obtain ⟨int, pend, sent, raised, -⟩ := raiseInt_form 5 { s with boot := { s.boot with starting := false, fails := 0 } }
    rw [ok, raised] at bit ⊢
    exact ⟨fun _ => ⟨rfl, rfl⟩, fun h => absurd last h, bit, rfl, rfl, rfl⟩
  · have ok : bootOk s = raiseInt 5 s := congrArg (raiseInt 5) (if_neg (by simp [last]))
    obtain ⟨int, pend, sent, raised, -⟩ := raiseInt_form 5 s
    rw [ok, raised] at bit ⊢
    exact ⟨fun h => absurd h last, fun _ => ⟨starting, rfl⟩, bit, rfl, rfl, rfl⟩

/-- The start goes on at step n. -/
def StartGoesOn (s t : State) (n : Nat) : Prop := t.boot.step = n ∧ t.boot.starting = true ∧ t.mem = s.mem ∧ t.cores = s.cores

section
variable {s : State} (starting : s.boot.starting = true)
include starting

/-- The step that the boot controller takes. -/
theorem boot_step {x : Out} (h : (if s.boot.step = 1 then
      .next (if !Config.verifies s.boot.keyDigest s.boot.image1 then bootFails 1 s
        else if (Config.version s.boot.image1).toNat < s.boot.minVer1.toNat then bootFails 2 s else { s with boot := { s.boot with step := 2 } })
    else if s.boot.step = 2 then .next { s with boot := { s.boot with
      meas0 := extendMeas s.boot.meas0 s.boot.image1, ver1 := Config.version s.boot.image1, step := 3 } }
    else if s.boot.step = 3 then
      let s := { s with cols := Vector.ofFn fun k => trainColumn k.val s.clock (s.cols.get k) }
      .next (if (colAt s 0).vbstat.getLsbD 63 then bootFails 6 s else { s with boot := { s.boot with step := 4 } })
    else if s.boot.step = 4 then
      .next (if !Config.verifies s.boot.keyDigest s.boot.image2 then bootFails 3 s
        else if (Config.version s.boot.image2).toNat < s.boot.minVer2.toNat then bootFails 4 s
        else { s with boot := { s.boot with
          meas1 := extendMeas s.boot.meas1 s.boot.image2, ver2 := Config.version s.boot.image2, step := 5 } })
    else if s.boot.step = 5 then
      .next (if Config.cxlTrains s.clock then { s with boot := { s.boot with step := 6 } } else bootFails 7 s)
    else .next s : Out) = x) : exec .boot s = x := (if_neg (by rw [starting]; decide)).trans h

/-- Stage 1 verified. -/
theorem boot_step1 (h : s.boot.step = 1) : ∃ t, exec .boot s = .next t ∧
    if Config.verifies s.boot.keyDigest s.boot.image1 = false then StartFailed s t 1
    else if (Config.version s.boot.image1).toNat < s.boot.minVer1.toNat then StartFailed s t 2 else StartGoesOn s t 2 := by
  refine ⟨_, boot_step starting (if_pos h), ?_⟩
  cases Config.verifies s.boot.keyDigest s.boot.image1
  · exact (bootFails_fails 1 s).1
  · simp only [Bool.not_true, Bool.false_eq_true, if_false, Bool.true_eq_false]
    split
    · exact (bootFails_fails 2 s).1
    · exact ⟨rfl, starting, rfl, rfl⟩

/-- Stage 1 trains the buses. -/
theorem boot_step3 (h : s.boot.step = 3) : ∃ t, exec .boot s = .next t ∧
    (∀ k, (colAt t k).vbstat.getLsbD 63 = !Config.coreBusPasses k.val s.clock) ∧
    if Config.coreBusPasses 0 s.clock = false then StartFailed s t 6 else StartGoesOn s t 4 := by
  refine ⟨_, boot_step starting ((if_neg (by omega)).trans ((if_neg (by omega)).trans (if_pos h))), ?_⟩
  generalize hu : ({ s with cols := Vector.ofFn fun k => trainColumn k.val s.clock (s.cols.get k) } : State) = u
  have col (k : Fin 8) : (colAt u k).vbstat.getLsbD 63 = !Config.coreBusPasses k.val s.clock := by
    have at' : colAt u k = trainColumn k.val s.clock (s.cols.get k) := by rw [← hu]; exact Vector.get_ofFn _ _
    rw [at', trainColumn_bus]
  have first := col 0
  rw [first]
  cases hp : Config.coreBusPasses (0 : Fin 8).val s.clock with
  | false =>
    obtain ⟨failed, cols⟩ := bootFails_fails 6 u
    refine ⟨fun k => ?_, ?_⟩
    · simp only [Bool.not_false, if_true]
      rw [colAt_congr cols, col]
    · rw [if_pos (show Config.coreBusPasses 0 s.clock = false from hp)]
      simp only [Bool.not_false, if_true]
      have same : StartFailed s (bootFails 6 u) 6 ↔ StartFailed u (bootFails 6 u) 6 := by rw [← hu]; rfl
      exact same.mpr failed
  | true =>
    refine ⟨fun k => ?_, ?_⟩
    · simp only [Bool.not_true, Bool.false_eq_true, if_false]
      exact col k
    · rw [if_neg (by rw [show Config.coreBusPasses 0 s.clock = true from hp]; decide)]
      simp only [Bool.not_true, Bool.false_eq_true, if_false]
      rw [← hu]
      exact ⟨rfl, starting, rfl, rfl⟩

/-- Stage 2 verified and measured. -/
theorem boot_step4 (h : s.boot.step = 4) : ∃ t, exec .boot s = .next t ∧
    if Config.verifies s.boot.keyDigest s.boot.image2 = false then StartFailed s t 3
    else if (Config.version s.boot.image2).toNat < s.boot.minVer2.toNat then StartFailed s t 4
    else StartGoesOn s t 5 ∧ t.boot.meas1 = Config.shake512 (bytes512 s.boot.meas1 ++ bytes512 (Config.shake512 s.boot.image2)) := by
  refine ⟨_, boot_step starting ((if_neg (by omega)).trans ((if_neg (by omega)).trans ((if_neg (by omega)).trans (if_pos h)))), ?_⟩
  cases Config.verifies s.boot.keyDigest s.boot.image2
  · exact (bootFails_fails 3 s).1
  · simp only [Bool.not_true, Bool.false_eq_true, if_false, Bool.true_eq_false]
    split
    · exact (bootFails_fails 4 s).1
    · exact ⟨⟨rfl, starting, rfl, rfl⟩, rfl⟩

/-- The link trained. -/
theorem boot_step5 (h : s.boot.step = 5) : ∃ t, exec .boot s = .next t ∧
    if Config.cxlTrains s.clock = false then StartFailed s t 7 else StartGoesOn s t 6 := by
  refine ⟨_, boot_step starting ((if_neg (by omega)).trans ((if_neg (by omega)).trans ((if_neg (by omega)).trans ((if_neg (by omega)).trans
    (if_pos h))))), ?_⟩
  cases Config.cxlTrains s.clock
  · exact (bootFails_fails 7 s).1
  · exact ⟨rfl, starting, rfl, rfl⟩

end

/-- Settles O49: the cold reset field by field, the warm reset column by column (`warmReset_one`, `warmReset_foldl`), the steps of a start. -/
theorem resetAndBootEvents : Obligations.ResetAndBootEvents := by
  refine ⟨fun s m => ⟨?cold, ?warm⟩, fun s starting => ?start⟩
  case cold =>
    refine ⟨_, rfl, rfl, rfl, rfl, rfl, rfl, rfl, rfl, rfl, rfl, rfl, rfl, rfl, rfl, fun b own => ?_, fun b other host => ?_, fun k => ?_⟩
    · exact (byteAt_coldReset s.mem s.fabric.dev.toNat b).trans (if_pos own)
    · exact (byteAt_coldReset s.mem s.fabric.dev.toNat b).trans (if_neg (not_or.mpr ⟨other, host⟩))
    · have col := Vector.get_ofFn (fun k : Fin 8 => trainColumn k.val s.clock
        { Column.reset with vbstat := onlyBits (s.cols.get k).vbstat 55 48 ||| onlyBits (s.cols.get k).vbstat 39 32 }) k
      exact ⟨congrArg (fun c : Column => { c with vbstat := 0, layerctl := 0 }) col,
        (congrArg (fun c : Column => c.vbstat.extractLsb' 48 8) col).trans ((trainColumn_fused _ _ _).trans (fused_kept _)),
        (congrArg (fun c : Column => c.vbstat.getLsbD 63) col).trans (trainColumn_bus _ _ _)⟩
  case warm =>
    obtain ⟨u, reset, form⟩ := warmResets_reset (if s.boot.rstBusy then s.boot.rstCols else m) s
    refine ⟨_, congrArg Host.Outcome.next form, rfl, ?_⟩
    intro cols
    have on (k : Fin 8) : k ∈ maskCols cols ↔ cols.getLsbD k.val = true := mem_maskCols
    refine ⟨fun k hk => ?_, fun k hk => ?_, fun ok k off low => ?_⟩
    · have col : colAt u k = warmColumn k.val s.clock (colAt s k).slicesHome := reset.reset k ((on k).mpr hk)
      obtain ⟨-, bad, count, info⟩ := lineHome_foldl (colAt s k).dirtyLines (colAt s k)
      refine ⟨fun x hx mine => ?_, fun ok x w b hx mine hw hb => ?_, fun ln => ?_, fun none => ?_, fun first hot => ?_, ?_, ?_, ?_, ?_⟩
      · refine (reset.cores x).trans (if_pos ⟨k, (on k).mpr hk, ?_⟩)
        rw [← mine]
        show x / 256 = x / 256 % 8
        omega
      · have zero := (reset.memory ok).2 (colOf x) (0x10000000000 + idxOf x * 2 ^ 22 + w * 2 ^ 18 + b) (by unfold idxOf; omega)
        rw [if_pos ⟨by rw [mine]; exact (on k).mpr hk, by omega, by unfold idxOf; omega⟩] at zero
        exact zero
      · show ln ∈ (colAt u k).bad ↔ _
        rw [col]
        exact bad ln
      · show (colAt u k).cecnt = _
        rw [col]
        exact count none
      · refine ((reset.slow fun m => ?_).2 k ((on k).mpr hk) hot)
        rw [on] at m
        exact Bool.false_ne_true (first.symm.trans m)
      · show (colAt u k).errinfo = _
        rw [col]
        exact info
      · show (colAt u k).eng = _
        rw [col]; rfl
      · show (colAt u k).bars = _
        rw [col]; rfl
      · show (colAt u k).layerctl = _
        rw [col]; rfl
    · have out : k ∉ maskCols cols := by rw [on, hk]; exact Bool.false_ne_true
      refine ⟨reset.others k out, fun x mine => (reset.cores x).trans (if_neg ?_)⟩
      rintro ⟨j, hj, hx⟩
      have : k = j := by rw [← mine]; exact Fin.ext (show x / 256 % 8 = j.val by have := j.isLt; omega)
      exact out (this ▸ hj)
    · exact ((reset.memory ok).2 k off (by omega)).trans (if_neg fun h => by omega)
  case start =>
    refine ⟨boot_step1 starting, fun h => ?_, boot_step3 starting, boot_step4 starting, boot_step5 starting, fun late => ?_, fun early => ?_, ?_⟩
    · exact ⟨_, boot_step starting ((if_neg (by omega)).trans (if_pos h)), ⟨rfl, starting, rfl, rfl⟩, rfl⟩
    · exact ⟨_, congrArg Host.Outcome.next (if_pos ⟨starting, late⟩), (bootFails_fails 5 s).1⟩
    · exact congrArg Host.Outcome.next (if_neg fun h => by omega)
    · exact ⟨_, rfl, bootOk_ok s starting⟩

end Sys2Proof.Machine
end

section
/-!
PROOFS. What reads and writes at the homes, arrivals and the distributor's own writes leave as it was: harts, and the distributor's records
(R194, R370, R373).
-/

namespace Sys2Proof.Machine

set_option Elab.async false

/-! ## Cores that only homes and registers have touched -/

/-- A core without what its home accesses and its privileged column registers may change: cache ways, range cache, the save registers, CTXJOB
and CTXLC, and the wave under way (R61, R404, R363, R428). -/
def Core.calm (q : Core) : Core :=
  { q with cw := [], rcache := [], svarea := 0, svctl := 0, ctxjob := 0, ctxlc := 0, jobWrite := none, wave := false }

/-- Every core is as before but for what `Core.calm` leaves out, and keeps its job; the issuing hart is the same. -/
structure CalmCores (s t : State) : Prop where
  cores : ∀ c, (coreAt t c).calm = (coreAt s c).calm
  job : ∀ c, (coreAt t c).job = (coreAt s c).job
  curCore : t.curCore = s.curCore
  curSlot : t.curSlot = s.curSlot

namespace CalmCores
variable {s t u : State}

theorem refl (s : State) : CalmCores s s := ⟨fun _ => rfl, fun _ => rfl, rfl, rfl⟩

theorem trans (h : CalmCores s t) (k : CalmCores t u) : CalmCores s u :=
  ⟨fun c => (k.cores c).trans (h.cores c), fun c => (k.job c).trans (h.job c), k.curCore.trans h.curCore, k.curSlot.trans h.curSlot⟩

/-- The cores themselves as before. -/
theorem of_cores (cores : t.cores = s.cores) (core : t.curCore = s.curCore) (slot : t.curSlot = s.curSlot) : CalmCores s t :=
  ⟨fun c => by rw [coreAt_congr cores], fun c => by rw [coreAt_congr cores], core, slot⟩

theorem core (c : Nat) (f : Core → Core) (h : (f (coreAt s c)).calm = (coreAt s c).calm) (j : (f (coreAt s c)).job = (coreAt s c).job) :
    CalmCores s (updCore s c f) := by
  refine ⟨fun x => ?_, fun x => ?_, rfl, rfl⟩ <;> rw [coreAt_updCore] <;> split
  · next same => rw [same]; exact h
  · rfl
  · next same => rw [same]; exact j
  · rfl

theorem foldl {α : Type} (f : State → α → State) (h : ∀ s x, CalmCores s (f s x)) : ∀ (l : List α) (s : State), CalmCores s (l.foldl f s)
  | [], s => refl s
  | x :: l, s => (h s x).trans (foldl f h l (f s x))

theorem of_touched (h : Touched s t) : CalmCores s t := by
  have ctxjob (c : Nat) : (coreAt t c).ctxjob = (coreAt s c).ctxjob := (congrArg Core.ctxjob (h.cores c) :)
  refine ⟨fun c => ?_, fun c => ?_, (congrArg State.curCore h.machine :), (congrArg State.curSlot h.machine :)⟩
  · exact (congrArg Core.calm (h.cores c) :)
  · rw [Core.job, ctxjob]; rfl

theorem harts (h : CalmCores s t) (c : Nat) : (coreAt t c).harts = (coreAt s c).harts := (congrArg Core.harts (h.cores c) :)
theorem instret (h : CalmCores s t) (c : Nat) : (coreAt t c).instret = (coreAt s c).instret := (congrArg Core.instret (h.cores c) :)
theorem marked (h : CalmCores s t) (c : Nat) : (coreAt t c).marked = (coreAt s c).marked := (congrArg Core.marked (h.cores c) :)
theorem gangSize (h : CalmCores s t) (c : Nat) : (coreAt t c).gangSize = (coreAt s c).gangSize := (congrArg Core.gangSize (h.cores c) :)
theorem gangLeader (h : CalmCores s t) (c : Nat) : (coreAt t c).gangLeader = (coreAt s c).gangLeader := (congrArg Core.gangLeader (h.cores c) :)
theorem hartAt (h : CalmCores s t) (c : Nat) (k : Fin 8) : Machine.hartAt t c k = Machine.hartAt s c k := by
  rw [Machine.hartAt, h.harts]; rfl
theorem me (h : CalmCores s t) : Machine.me t = Machine.me s := by rw [Machine.me, h.curCore, h.curSlot, h.hartAt]; rfl
theorem gr (h : CalmCores s t) (r : BitVec 5) : Machine.gr t r = Machine.gr s r := by rw [Machine.gr, h.me]; rfl
theorem myInstret (h : CalmCores s t) : (myCore t).instret = (myCore s).instret := by rw [myCore, h.curCore, h.instret]; rfl
theorem myJob (h : CalmCores s t) : (myCore t).job = (myCore s).job := by rw [myCore, h.curCore, h.job]; rfl

end CalmCores

/-! ## Accesses at the homes and register writes -/

/-- As `CalmCores`, the distributor too as before but for DQBASE (R365). -/
structure Calm (s t : State) : Prop extends CalmCores s t where
  dist : { t.dist with dqbase := 0 } = { s.dist with dqbase := 0 }

namespace Calm
variable {s t u : State}

theorem refl (s : State) : Calm s s := ⟨.refl s, rfl⟩
theorem trans (h : Calm s t) (k : Calm t u) : Calm s u := ⟨h.toCalmCores.trans k.toCalmCores, k.dist.trans h.dist⟩

theorem of_cores (cores : t.cores = s.cores) (core : t.curCore = s.curCore) (slot : t.curSlot = s.curSlot) (dist : t.dist = s.dist) : Calm s t :=
  ⟨.of_cores cores core slot, by rw [dist]⟩

theorem core (c : Nat) (f : Core → Core) (h : (f (coreAt s c)).calm = (coreAt s c).calm) (j : (f (coreAt s c)).job = (coreAt s c).job) :
    Calm s (updCore s c f) := ⟨.core c f h j, rfl⟩

theorem col (k : Fin 8) (f : Column → Column) : Calm s (updCol s k f) := .of_cores rfl rfl rfl rfl

theorem foldl {α : Type} (f : State → α → State) (h : ∀ s x, Calm s (f s x)) : ∀ (l : List α) (s : State), Calm s (l.foldl f s)
  | [], s => refl s
  | x :: l, s => (h s x).trans (foldl f h l (f s x))

theorem of_touched (h : Touched s t) : Calm s t := ⟨.of_touched h, by rw [(congrArg State.dist h.machine :)]⟩

theorem ite {c : Prop} [Decidable c] (h : Calm s t) (k : Calm s u) : Calm s (if c then t else u) := by split <;> assumption

theorem findJob (h : Calm s t) (job : BitVec 32) : Machine.findJob t job = Machine.findJob s job := by
  rw [Machine.findJob, (congrArg Dist.jobs h.dist :)]; rfl
theorem recOf (h : Calm s t) (job : BitVec 32) (k : Nat) : Machine.recOf t job k = Machine.recOf s job k := by
  rw [Machine.recOf, h.findJob]; rfl
theorem poolAt (h : Calm s t) (job : BitVec 32) (k : Nat) : Machine.poolAt t job k = Machine.poolAt s job k := by
  rw [Machine.poolAt, h.findJob]; rfl

end Calm

variable (s : State)

theorem calm_raiseInt (v : Nat) : Calm s (raiseInt v s) := .of_touched (touched_raiseInt v s)
theorem calm_logError (col : Fin 8) (src unit gpa : Nat) : Calm s (logError col src unit gpa s) := .of_touched (homed_logError col s src unit gpa).touched

theorem calm_evictLine (c ln : Nat) : Calm s (evictLine c ln s) := .of_touched (homed_evictLine s c ln).touched
theorem calm_collectAll (col : Fin 8) (ln : Nat) : Calm s (collectAll col ln s) := .of_touched (homed_collectAll col s ln).touched
theorem calm_homeRead (col : Fin 8) (off gpa : Nat) (w : Bool) : Calm s (homeRead col off gpa w s).2 :=
  .of_touched (homed_homeRead col s off gpa w).touched

theorem calm_ownerRead (coh : Bool) (gpa n : Nat) : Calm s (ownerRead coh gpa n s).2 := by
  unfold ownerRead
  split
  · exact calm_logError _ _ _ _ _
  · split
    case h_1 col off _ =>
      have collected : Calm s (if coh then collectAll col (gpa / 64) s else s) := .ite (calm_collectAll _ _ _) (.refl s)
      refine collected.trans ?_
      generalize (if coh then collectAll col (gpa / 64) s else s) = u
      have read := calm_homeRead u col off gpa false
      dsimp only
      split <;> exact read
    case h_2 =>
      split
      · exact calm_logError _ _ _ _ _
      · exact .refl s
    case h_4 => split <;> exact .refl s
    all_goals exact .refl s

theorem calm_startWave (key : BitVec 32) (cause : BitVec 8) (from' : Option Nat) : Calm s (startWave key cause from' s) := by
  have waved (q : Core) (job : BitVec 32) : (q.waved job).calm = q.calm ∧ (q.waved job).job = q.job := by
    unfold Core.waved; split <;> exact ⟨rfl, rfl⟩
  obtain ⟨night, fabric, boot, -, eq⟩ := startWave_eq key cause from' s
  refine ⟨⟨fun c => ?_, fun c => ?_, by rw [eq], by rw [eq]⟩, by rw [eq]⟩
  · rw [coreAt_startWave, (waved _ _).1]
  · rw [coreAt_startWave, (waved _ _).2]

theorem calm_startDaybreak : Calm s (startDaybreak s) := by
  unfold startDaybreak
  dsimp only
  split <;> exact .of_cores rfl rfl rfl rfl

theorem calm_nfctlWrite (v : BitVec 64) : Calm s (nfctlWrite v s) := by
  have day {t : State} (h : Calm s t) : Calm s (if v.getLsbD 1 then startDaybreak t else t) := .ite (h.trans (calm_startDaybreak _)) h
  have base (n : Night) : Calm s { s with night := n } := .of_cores rfl rfl rfl rfl
  unfold nfctlWrite
  exact .ite ((day (base _)).trans (calm_startWave _ _ _ _)) (day (base _))

theorem calm_fabcfgWrite (v : BitVec 64) : Calm s (fabcfgWrite v s) := by
  have enabled (c : Prop) [Decidable c] (d : BitVec 8) (f : Fabric → Fabric) :
      Calm s { (if c then s else setDev d s) with fabric := f (if c then s else setDev d s).fabric } := by
    obtain ⟨mem, fabric, eq⟩ := setDev_form d s
    rw [eq]
    split <;> exact .of_cores rfl rfl rfl rfl
  have train (t : State) : Calm t (trainPorts t) := .of_cores rfl rfl rfl rfl
  unfold fabcfgWrite
  exact .ite (.trans (enabled _ _ fun f => { f with enable := v.extractLsb' 32 16 }) (train _))
    (enabled _ _ fun f => { f with enable := v.extractLsb' 32 16 })

theorem calm_bootOk : Calm s (bootOk s) := by
  unfold bootOk
  refine .trans ?_ (calm_raiseInt _ _)
  split <;> exact .of_cores rfl rfl rfl rfl

theorem calm_thermctlWrite (col : Fin 8) (v : BitVec 64) : Calm s (thermctlWrite col v s) := by
  unfold thermctlWrite
  dsimp only
  split
  · split
    · exact .trans (.trans (.col _ _) (calm_raiseInt _ _)) (.of_cores rfl rfl rfl rfl)
    · exact .trans (.col _ _) (calm_raiseInt _ _)
  · exact .col _ _

theorem job_or_low (q : Core) (v : BitVec 64) (h : v.setWidth 32 = q.job) : ({ q with ctxjob := v } : Core).job = q.job := h

theorem calm_jobWrite (c : Nat) (v : BitVec 64) (k : Option (Fin 8)) : Calm s (jobWrite c v k s) := by
  unfold jobWrite
  dsimp only
  refine .core _ _ ?_ ?_
  · split <;> rfl
  · split
    · next same => exact same
    · rfl

theorem calm_svGo (q : Core) (v : BitVec 64) : (svGo q v).calm = q.calm ∧ (svGo q v).job = q.job := by
  unfold svGo
  dsimp only
  split
  · exact ⟨rfl, rfl⟩
  · split <;> exact ⟨rfl, rfl⟩

theorem calm_lctWrite (col : Fin 8) (j : Nat) (base : Bool) (v : BitVec 64) : Calm s (lctWrite col j base v s) := .col _ _

theorem calm_privWrite (col : Fin 8) (off : Nat) (v : BitVec 64) : Calm s (privWrite col off v s) := by
  have registers (c : Nat) (x : BitVec 64) :
      Calm s (updCore s c fun q => if off % 16 = 0 then { q with svarea := x } else svGo q v) := by
    refine .core _ _ ?_ ?_ <;> split
    · rfl
    · exact (calm_svGo _ _).1
    · rfl
    · exact (calm_svGo _ _).2
  unfold privWrite
  exact .ite (.col _ _) <| .ite (.col _ _) <| .ite (.col _ _) <| .ite (.col _ _) <| .ite (.col _ _) <| .ite (.col _ _) <| .ite (.col _ _) <|
    .ite (.col _ _) <| .ite ⟨.of_cores rfl rfl rfl, rfl⟩ <| .ite (calm_nfctlWrite _ _) <| .ite (registers _ _) <| .ite (calm_fabcfgWrite _ _) <|
    .ite (.ite (calm_bootOk _) (.refl s)) <| .ite (.ite (.refl s) (.of_cores rfl rfl rfl rfl)) <| .ite (calm_thermctlWrite _ _ _) <|
    .ite (.of_cores rfl rfl rfl rfl) <| .ite (.ite (calm_jobWrite _ _ _ _) (.core _ _ rfl rfl)) <| .ite (.col _ _) <|
    .ite (calm_lctWrite _ _ _ _ _) (.refl s)

theorem calm_homeWriteLine (col : Fin 8) (ln : Nat) (d : BitVec 512) : Calm s (homeWriteLine col ln d s) := by
  have line : Calm s (setHomeLine s ln d) := by unfold setHomeLine; exact .of_cores rfl rfl rfl rfl
  have put (t : State) (off : Nat) (w : Bool) : Calm t (slicePut col off w t) := by unfold slicePut; exact .col _ _
  unfold homeWriteLine
  exact .trans (.trans line (.col _ _)) (put _ _ _)

theorem calm_sliceTouch (col : Fin 8) (off : Nat) (w : Bool) : Calm s (sliceTouch col off w s) := .of_touched (homed_sliceTouch col s off w).touched

theorem calm_ownerWrite (coh : Bool) (gpa n x : Nat) : Calm s (ownerWrite coh gpa n x s).2 := by
  have written (t : State) (m : List Host.Cell) : Calm t { t with mem := m } := .of_cores rfl rfl rfl rfl
  unfold ownerWrite
  split
  · exact calm_logError _ _ _ _ _
  · split
    case h_1 col off _ =>
      have collected : Calm s (if coh then collectAll col (gpa / 64) s else s) := .ite (calm_collectAll _ _ _) (.refl s)
      refine collected.trans ?_
      generalize (if coh then collectAll col (gpa / 64) s else s) = u
      dsimp only
      split
      · exact .trans (calm_sliceTouch _ _ _ _) (calm_homeWriteLine _ _ _ _)
      · have read := calm_homeRead u col off gpa true
        split
        · exact read.trans (written _ _)
        · exact read
    case h_2 =>
      split
      · exact .refl s
      · exact written _ _
    case h_3 => exact written _ _
    case h_4 => split <;> exact written _ _
    case h_5 => exact .refl s
    case h_6 =>
      split
      · exact calm_privWrite _ _ _ _
      · exact .refl s
    case h_7 => exact .refl s

theorem calm_sendContribution (k : PKind) (gpa tag : Nat) : Calm s (sendContribution k gpa tag s) := by
  unfold sendContribution
  exact .ite (.refl s) (.of_cores rfl rfl rfl rfl)

theorem calm_sendArrive (gpa : Nat) (err : Bool) : Calm s (sendArrive gpa err s) := calm_sendContribution _ _ _ _

theorem calm_distWrite (gpa n x : Nat) : Calm s (distWrite gpa n x s) := calm_ownerWrite _ _ _ _ _

theorem calm_sendMsix (v : Nat) : Calm s (sendMsix v s) := by
  unfold sendMsix
  exact .ite (.of_cores rfl rfl rfl rfl) (.of_cores rfl rfl rfl rfl)

theorem calm_poolPut (job : BitVec 32) (k off n x : Nat) : Calm s (poolPut s job k off n x) := by
  unfold poolPut
  split
  · exact .refl s
  · exact calm_distWrite _ _ _ _

/-! ## The distributor's records (R370, R373) -/

theorem find_updJobs (f : JobEnt → JobEnt) (keep : ∀ j, (f j).job = j.job) (job x : BitVec 32) : ∀ l : List JobEnt,
    (l.map fun j => if j.job = job then f j else j).find? (fun j => j.job == x) =
      (l.find? fun j => j.job == x).map fun j => if x = job then f j else j
  | [] => rfl
  | j :: l => by
    have kept : (if j.job = job then f j else j).job = j.job := by split <;> simp [keep]
    rw [List.map_cons, List.find?_cons, List.find?_cons, kept]
    by_cases hx : j.job = x
    · subst hx; simp
    · simp only [beq_eq_false_iff_ne.mpr hx]; exact find_updJobs f keep job x l

theorem findJob_updJob {s : State} {job : BitVec 32} {f : JobEnt → JobEnt} (keep : ∀ j, (f j).job = j.job) (x : BitVec 32) :
    findJob (updJob s job f) x = (findJob s x).map fun j => if x = job then f j else j := find_updJobs f keep job x _

theorem findJob_updRec_eq (job : BitVec 32) (k : Nat) (f : LRec → LRec) (x : BitVec 32) : findJob (updRec s job k f) x =
    (findJob s x).map fun j => if x = job then { j with recs := tabPut j.recs k (f (tabGet LRec.idle j.recs k)) } else j :=
  findJob_updJob (f := fun j => { j with recs := tabPut j.recs k (f (tabGet LRec.idle j.recs k)) }) (fun _ => rfl) x

theorem findJob_updRec (job : BitVec 32) (k : Nat) (f : LRec → LRec) (x : BitVec 32) :
    (findJob (updRec s job k f) x).isSome = (findJob s x).isSome := by
  rw [findJob_updRec_eq, Option.isSome_map]

theorem recOf_updRec {s : State} {job : BitVec 32} {k : Nat} {f : LRec → LRec} (listed : (findJob s job).isSome = true) (x : BitVec 32) (n : Nat) :
    recOf (updRec s job k f) x n = if x = job ∧ n = k then f (recOf s job k) else recOf s x n := by
  obtain ⟨j, hj⟩ := Option.isSome_iff_exists.mp listed
  rw [recOf, findJob_updRec_eq]
  by_cases hx : x = job
  · subst hx
    rw [recOf, recOf, hj]
    simp only [Option.map_some, if_true, true_and]
    exact tabGet_tabPut _ _ _ _ _
  · rw [if_neg fun h => hx h.1, recOf]
    cases findJob s x with
    | none => rfl
    | some e => simp only [Option.map_some, if_neg hx]

theorem calmCores_dist (d : Dist) : CalmCores s { s with dist := d } := .of_cores rfl rfl rfl
theorem calmCores_updRec (job : BitVec 32) (k : Nat) (f : LRec → LRec) : CalmCores s (updRec s job k f) := .of_cores rfl rfl rfl

theorem poolAt_updRec (job : BitVec 32) (k : Nat) (f : LRec → LRec) (x : BitVec 32) (n : Nat) :
    poolAt (updRec s job k f) x n = poolAt s x n := by
  rw [poolAt, poolAt, findJob_updRec_eq]
  cases findJob s x with
  | none => rfl
  | some j => dsimp only [Option.map_some]; split <;> rfl

theorem targetOf_updRec (job : BitVec 32) (k : Nat) (f : LRec → LRec) (a : Nat) : targetOf (updRec s job k f) a = targetOf s a := rfl

/-! ### Every step of a record keeps the cores, the jobs and the other records -/

/-- The cores are calm, the same jobs are listed, and every record but the k-th of the named job is as before; that one has become r. -/
structure RecordIs (s t : State) (named : BitVec 32) (k : Nat) (r : LRec) : Prop extends CalmCores s t where
  listed : ∀ x, (findJob t x).isSome = (findJob s x).isSome
  record : recOf t named k = r
  others : ∀ x n, ¬ (x = named ∧ n = k) → recOf t x n = recOf s x n

namespace RecordIs
variable {s t u : State} {job : BitVec 32} {k : Nat} {r r' : LRec}

theorem refl (s : State) (job : BitVec 32) (k : Nat) : RecordIs s s job k (recOf s job k) := ⟨.refl s, fun _ => rfl, rfl, fun _ _ _ => rfl⟩

theorem trans (h : RecordIs s t job k r) (g : RecordIs t u job k r') : RecordIs s u job k r' :=
  ⟨h.toCalmCores.trans g.toCalmCores, fun x => (g.listed x).trans (h.listed x), g.record, fun x n ne => (g.others x n ne).trans (h.others x n ne)⟩

theorem of_calm (h : Calm s t) : RecordIs s t job k (recOf s job k) :=
  ⟨h.toCalmCores, fun x => by rw [h.findJob], h.recOf _ _, fun _ _ _ => h.recOf _ _⟩

theorem calm (h : RecordIs s t job k r) (g : Calm t u) : RecordIs s u job k r :=
  h.trans (h.record ▸ of_calm g)

end RecordIs

section
variable {s : State} {job : BitVec 32} (k : Nat) (listed : (findJob s job).isSome = true)
include listed

theorem recordIs_updRec (f : LRec → LRec) : RecordIs s (updRec s job k f) job k (f (recOf s job k)) :=
  ⟨calmCores_updRec _ _ _ _, findJob_updRec _ _ _ _, by rw [recOf_updRec listed, if_pos ⟨rfl, rfl⟩],
    fun x n ne => by rw [recOf_updRec listed, if_neg ne]⟩

theorem recordIs_setStatus (st : BitVec 16) : RecordIs s (setStatus s job k st) job k { recOf s job k with status := st } :=
  (recordIs_updRec k listed _).calm (calm_poolPut _ _ _ _ _ _)

theorem recordIs_setLive (n : Nat) : RecordIs s (setLive s job k n) job k { recOf s job k with live := n } :=
  (recordIs_updRec k listed _).calm (calm_poolPut _ _ _ _ _ _)

theorem recordIs_setIssued (n : Nat) : RecordIs s (setIssued s job k n) job k { recOf s job k with issued := n } :=
  (recordIs_updRec k listed _).calm (calm_poolPut _ _ _ _ _ _)

theorem recordIs_setPrio (p : BitVec 8) : RecordIs s (setPrio job k p s) job k { recOf s job k with prio := p } :=
  (recordIs_updRec k listed _).calm (calm_poolPut _ _ _ _ _ _)

theorem recordIs_restIrq : RecordIs s (restIrq job k s) job k { recOf s job k with ctxs := [] } := by
  have signal (u : State) (c : QCtx) : Calm u (if c.qirq.getLsbD 15 && decide (16 ≤ c.qirq.toNat % 64) then sendMsix (c.qirq.toNat % 64) u else u) :=
    .ite (calm_sendMsix _ _) (.refl _)
  have after {u : State} (h : Calm s u) : RecordIs s (updRec u job k fun r => { r with ctxs := [] }) job k { recOf s job k with ctxs := [] } := by
    have := (RecordIs.of_calm h).trans (recordIs_updRec k (by rw [h.findJob]; exact listed) fun r => { r with ctxs := [] })
    rwa [h.recOf] at this
  refine after (.foldl _ (fun u q => ?_) _ _)
  dsimp only
  split
  · exact .refl u
  · exact signal u _

theorem recordIs_endRecord (st : BitVec 16) : RecordIs s (endRecord job k st s) job k { recOf s job k with status := st, ctxs := [] } := by
  unfold endRecord
  have ended := recordIs_setStatus k listed st
  have arrived : RecordIs s (if st = stDone ∨ st = stZero then sendArrive (recOf (setStatus s job k st) job k).bar false (setStatus s job k st)
      else setStatus s job k st) job k { recOf s job k with status := st } :=
    ended.calm (.ite (calm_sendArrive _ _ _) (.refl _))
  have := arrived.trans (recordIs_restIrq k ((arrived.listed _).trans listed))
  rw [arrived.record] at this
  exact this

end

/-! ## What reads by the distributor leave (R372, R374) -/

/-- The cores are calm, and the same jobs are listed, with the same pools and records. -/
structure SameRecs (s t : State) : Prop extends CalmCores s t where
  listed : ∀ x, (findJob t x).isSome = (findJob s x).isSome
  records : ∀ x n, recOf t x n = recOf s x n
  pools : ∀ x n, poolAt t x n = poolAt s x n

namespace SameRecs
variable {s t u : State}

theorem refl (s : State) : SameRecs s s := ⟨.refl s, fun _ => rfl, fun _ _ => rfl, fun _ _ => rfl⟩

theorem trans (h : SameRecs s t) (g : SameRecs t u) : SameRecs s u :=
  ⟨h.toCalmCores.trans g.toCalmCores, fun x => (g.listed x).trans (h.listed x), fun x n => (g.records x n).trans (h.records x n),
    fun x n => (g.pools x n).trans (h.pools x n)⟩

theorem of_calm (h : Calm s t) : SameRecs s t := ⟨h.toCalmCores, fun x => by rw [h.findJob], h.recOf, h.poolAt⟩

theorem recordIs (h : SameRecs s t) (job : BitVec 32) (k : Nat) : RecordIs s t job k (recOf s job k) :=
  ⟨h.toCalmCores, h.listed, h.records _ _, fun _ _ _ => h.records _ _⟩

end SameRecs

theorem sameRecs_cached (job : BitVec 32) (es : List REntry) : SameRecs s (updJob s job fun j => { j with rcache := es }) := by
  have found (x : BitVec 32) : findJob (updJob s job fun j => { j with rcache := es }) x =
      (findJob s x).map fun j => if x = job then { j with rcache := es } else j := findJob_updJob (f := fun j => { j with rcache := es }) (fun _ => rfl) x
  refine ⟨.of_cores rfl rfl rfl, fun x => by rw [found, Option.isSome_map], fun x n => ?_, fun x n => ?_⟩
  · rw [recOf, recOf, found]
    cases findJob s x with
    | none => rfl
    | some j => dsimp only [Option.map_some]; split <;> rfl
  · rw [poolAt, poolAt, found]
    cases findJob s x with
    | none => rfl
    | some j => dsimp only [Option.map_some]; split <;> rfl

theorem sameRecs_agentWord (job : BitVec 32) (va : Nat) : SameRecs s (agentWord job va s).2 := by
  have read (u : State) (d : RDesc) (es : List REntry) : SameRecs u
      (match checkDesc (updJob u job fun j => { j with rcache := es }) d needRd false va with
        | .ok g cls _ =>
          match ownerRead (cls == 0) g 8 (updJob u job fun j => { j with rcache := es }) with
          | (some x, s) => (Agent.got (BitVec.ofNat 64 x), s)
          | (none, s) => (.bad, s)
        | _ => (.bad, updJob u job fun j => { j with rcache := es })).2 := by
    refine (sameRecs_cached u job es).trans ?_
    generalize (updJob u job fun j => { j with rcache := es }) = w
    split
    · next g cls _ _ =>
      have read := calm_ownerRead w (cls == 0) g 8
      split <;> next eq => rw [eq] at read; exact .of_calm read
    · exact .refl w
  unfold agentWord
  split
  · exact .refl s
  · dsimp only
    split
    · exact read _ _ _
    · split
      · exact .refl s
      · next t eq =>
        have walked : SameRecs s t := .of_calm (.of_touched (homed_walkFrom eq).touched)
        split
        · exact walked.trans (read _ _ _)
        all_goals exact walked

/-- A fold over a list whose step keeps P of the state beside the answer. -/
theorem sameRecs_foldl {α β : Type} (f : Agent β × State → α → Agent β × State) (h : ∀ r x, SameRecs r.2 (f r x).2) :
    ∀ (l : List α) (r : Agent β × State), SameRecs r.2 (l.foldl f r).2
  | [], r => .refl r.2
  | x :: l, r => (h r x).trans (sameRecs_foldl f h l (f r x))

theorem sameRecs_readBlock (job : BitVec 32) (va : Nat) : SameRecs s (readBlock job va s).2 := by
  refine sameRecs_foldl _ (fun r i => ?_) _ (.got [], s)
  have word := sameRecs_agentWord r.2 job (va + 8 * i)
  split
  · split <;> next eq => rw [eq] at word; exact word
  · exact .refl _

theorem sameRecs_readRegs (job : BitVec 32) (r : LRec) : SameRecs s (readRegs job r s).2 := by
  refine sameRecs_foldl _ (fun x st => ?_) _ (.got [], s)
  have block := sameRecs_readBlock x.2 job (r.regsVa st)
  split
  · split
    · exact .refl _
    · split
      · next eq => rw [eq] at block; dsimp only; split <;> exact block
      · next eq => rw [eq] at block; exact block
      · next eq => rw [eq] at block; exact block
  · exact .refl _

theorem sameRecs_readRecord (job : BitVec 32) (k : Nat) : SameRecs s (readRecord job k s).2 := by
  refine sameRecs_foldl _ (fun r i => ?_) _ (.got [], s)
  have read := calm_ownerRead r.2 true (poolAt s job k + 64 * i) 64
  split
  · split <;> next eq => rw [eq] at read; exact .of_calm read
  · exact .refl _

/-! ## Arming and the predecessors (R374, R375) -/

/-- The words a record was armed with. -/
def snapOf (l : List (BitVec 64)) : Vector (BitVec 64) 32 := Vector.ofFn fun i => l.getD i.val 0

theorem armRecord_armed {s w : State} {job : BitVec 32} {k : Nat} (listed : (findJob s job).isSome = true) (armed : armRecord job k s = some w) :
    ∃ r, RecordIs s w job k r ∧ r.status ≠ 0 ∧ (∀ l, (readRecord job k s).1 = .got l → r.snap = snapOf l) ∧
      ((readRecord job k s).1 = .bad → r.status = stInvalid) := by
  obtain ⟨j, hj⟩ := Option.isSome_iff_exists.mp listed
  have read := sameRecs_readRecord s job k
  -- the record as it was read, and then as it comes to rest or is armed
  have kept {u : State} (h : SameRecs s u) (r : LRec) : RecordIs s (updRec u job k fun _ => r) job k r :=
    (h.recordIs job k).trans (recordIs_updRec k ((h.listed _).trans listed) _)
  have ended {u : State} {r : LRec} (h : RecordIs s u job k r) (st : BitVec 16) :
      RecordIs s (endRecord job k st u) job k { r with status := st, ctxs := [] } := by
    have := h.trans (recordIs_endRecord k ((h.listed _).trans listed) st)
    rwa [h.record] at this
  unfold armRecord at armed
  rw [hj] at armed
  dsimp only at armed
  split at armed
  · next l u eq =>
    rw [eq] at read
    have got {r : LRec} (h : r.snap = snapOf l) : (∀ m, (readRecord job k s).1 = .got m → r.snap = snapOf m) ∧
        ((readRecord job k s).1 = .bad → r.status = stInvalid) := by
      rw [eq]
      exact ⟨fun m same => by cases same; exact h, fun no => by cases no⟩
    split at armed
    · obtain rfl := Option.some.inj armed
      exact ⟨_, ended (kept read _) stInvalid, (by decide : stInvalid ≠ 0), got rfl⟩
    · split at armed
      · next v eq' =>
        have regs := sameRecs_readRegs u job { LRec.idle with snap := snapOf l, prio := (vget (snapOf l) 0).extractLsb' 24 8, ctxs := (recOf u job k).ctxs }
        erw [eq'] at regs
        obtain rfl := Option.some.inj armed
        exact ⟨_, ended (kept (read.trans regs) _) stInvalid, (by decide : stInvalid ≠ 0), got rfl⟩
      · cases armed
      · next t v eq' =>
        have regs := sameRecs_readRegs u job { LRec.idle with snap := snapOf l, prio := (vget (snapOf l) 0).extractLsb' 24 8, ctxs := (recOf u job k).ctxs }
        erw [eq'] at regs
        have both := read.trans regs
        split at armed
        · obtain rfl := Option.some.inj armed
          exact ⟨_, ended (kept both _) stRange, (by decide : stRange ≠ 0), got rfl⟩
        · obtain rfl := Option.some.inj armed
          have counted : SameRecs v { v with dist := { v.dist with seq := v.dist.seq + 1 } } := ⟨.of_cores rfl rfl rfl, fun _ => rfl, fun _ _ => rfl, fun _ _ => rfl⟩
          have new := kept (both.trans counted) { LRec.idle with
            snap := snapOf l, prio := (vget (snapOf l) 0).extractLsb' 24 8, ctxs := (recOf u job k).ctxs, regs := t, seq := v.dist.seq + 1 }
          have issued := new.trans (recordIs_setIssued k ((new.listed _).trans listed) 0)
          have live := issued.trans (recordIs_setLive k ((issued.listed _).trans listed) 0)
          have status := live.trans (recordIs_setStatus k ((live.listed _).trans listed) stArmed)
          rw [live.record, issued.record, new.record] at status
          exact ⟨_, status, (by decide : stArmed ≠ 0), got rfl⟩
  · next a u no eq =>
    rw [eq] at read
    obtain rfl := Option.some.inj armed
    have bad := (read.recordIs job k).trans (recordIs_updRec k ((read.listed _).trans listed) fun r => { LRec.idle with ctxs := r.ctxs })
    refine ⟨_, ended bad stInvalid, (by decide : stInvalid ≠ 0), fun l got => ?_, fun _ => rfl⟩
    rw [eq] at got
    exact (no l got).elim

/-- What the predecessors' examination leaves of a record: its words and its LIVE, and its status, which only an ARMED or READY one may change,
and not to IDLE. -/
structure Resolved (s t : State) : Prop extends CalmCores s t where
  listed : ∀ x, (findJob t x).isSome = (findJob s x).isSome
  snap : ∀ x n, (recOf t x n).snap = (recOf s x n).snap
  live : ∀ x n, (recOf t x n).live = (recOf s x n).live
  status : ∀ x n, (recOf t x n).status = (recOf s x n).status ∨
    ((recOf s x n).status = stArmed ∨ (recOf s x n).status = stReady) ∧ (recOf t x n).status ≠ 0

namespace Resolved
variable {s t u : State}

theorem refl (s : State) : Resolved s s := ⟨.refl s, fun _ => rfl, fun _ _ => rfl, fun _ _ => rfl, fun _ _ => .inl rfl⟩

theorem trans (h : Resolved s t) (g : Resolved t u) : Resolved s u := by
  refine ⟨h.toCalmCores.trans g.toCalmCores, fun x => (g.listed x).trans (h.listed x), fun x n => (g.snap x n).trans (h.snap x n),
    fun x n => (g.live x n).trans (h.live x n), fun x n => ?_⟩
  obtain hs | ⟨was, hs⟩ := h.status x n <;> obtain gs | ⟨was', gs⟩ := g.status x n
  · exact .inl (gs.trans hs)
  · exact .inr ⟨hs ▸ was', gs⟩
  · exact .inr ⟨was, gs ▸ hs⟩
  · exact .inr ⟨was, gs⟩

theorem foldl {α : Type} (f : State → α → State) (h : ∀ s x, Resolved s (f s x)) : ∀ (l : List α) (s : State), Resolved s (l.foldl f s)
  | [], s => refl s
  | x :: l, s => (h s x).trans (foldl f h l (f s x))

/-- One ARMED or READY record has taken another status. -/
theorem of_record {job : BitVec 32} {k : Nat} {r : LRec} (h : RecordIs s t job k r) (snap : r.snap = (recOf s job k).snap)
    (live : r.live = (recOf s job k).live) (was : (recOf s job k).status = stArmed ∨ (recOf s job k).status = stReady) (st : r.status ≠ 0) :
    Resolved s t := by
  refine ⟨h.toCalmCores, h.listed, fun x n => ?_, fun x n => ?_, fun x n => ?_⟩ <;> by_cases same : x = job ∧ n = k
  · obtain ⟨rfl, rfl⟩ := same; rw [h.record]; exact snap
  · rw [h.others x n same]
  · obtain ⟨rfl, rfl⟩ := same; rw [h.record]; exact live
  · rw [h.others x n same]
  · obtain ⟨rfl, rfl⟩ := same; rw [h.record]; exact .inr ⟨was, st⟩
  · rw [h.others x n same]; exact .inl rfl

end Resolved

theorem recOf_unlisted {s : State} {job : BitVec 32} (h : (findJob s job).isSome = false) (k : Nat) : recOf s job k = LRec.idle := by
  rw [recOf, Option.isSome_eq_false_iff.mp h |> Option.isNone_iff_eq_none.mp]

theorem listed_of_status {s : State} {job : BitVec 32} {k : Nat} (h : (recOf s job k).status ≠ 0) : (findJob s job).isSome = true := by
  by_contra no
  exact h (by rw [recOf_unlisted (by simpa using no)]; rfl)

theorem resolved_endRecord {job : BitVec 32} {k : Nat} {st : BitVec 16} (h : (recOf s job k).status = stArmed ∨ (recOf s job k).status = stReady)
    (st0 : st ≠ 0) : Resolved s (endRecord job k st s) := by
  have listed : (findJob s job).isSome = true := listed_of_status (k := k) (by obtain h | h := h <;> rw [h] <;> decide)
  exact .of_record (recordIs_endRecord k listed st) rfl rfl h st0

theorem resolved_resolveRec (job : BitVec 32) (k : Nat) : Resolved s (resolveRec job k s) := by
  have ends (t : State) : Resolved t (if (recOf t job k).status = stReady ∧ (recOf t job k).work = 0 then endRecord job k stZero t else t) := by
    split
    · next ready => exact resolved_endRecord t (.inr ready.1) (by decide)
    · exact .refl t
  unfold resolveRec
  refine .trans ?_ (ends _)
  split
  · next armed =>
    dsimp only
    split
    · exact resolved_endRecord s (.inl armed) (by decide)
    · split
      · have listed : (findJob s job).isSome = true := listed_of_status (k := k) (by rw [armed]; decide)
        have waited := recordIs_updRec k listed fun r => { r with waited := 0 }
        have ready := waited.trans (recordIs_setStatus k ((waited.listed _).trans listed) stReady)
        rw [waited.record] at ready
        exact .of_record ready rfl rfl (.inl armed) (by decide : stReady ≠ 0)
      · exact .refl s
  · exact .refl s

theorem resolved_resolveAll : Resolved s (resolveAll s) := .foldl _ (fun _ _ => .foldl _ (fun _ _ => resolved_resolveRec _ _ _) _ _) _ _

end Sys2Proof.Machine
end

section
/-!
PROOFS. A device write at its DRAM home (R194), and `send` and `larm` (R374, R387, R393, R395).
-/

namespace Sys2Proof.Machine

set_option Elab.async false

/-! ## A device write at its DRAM home (R63, R76, R194) -/

/-- A byte put elsewhere leaves a byte as it was, whatever the list of cells. -/
theorem memGet_memPut_ne {k i : Nat} (ne : i ≠ k) (v : Byte) : ∀ m : List Host.Cell, memGet (memPut m k v) i = memGet m i := by
  have cons (t : List Host.Cell) : memGet (memCons k v t) i = memGet t i := by
    unfold memCons
    split
    · rfl
    · rw [memGet, if_neg (Ne.symm ne)]
  intro m
  induction m with
  | nil => exact cons []
  | cons e t ih =>
    obtain ⟨j, w⟩ := e
    unfold memPut
    split
    · exact cons _
    · split
      · next same => rw [cons, memGet, if_neg (same ▸ Ne.symm ne)]
      · rw [memGet, memGet, ih]

/-- Bytes written elsewhere leave a byte as it was, whatever the list of cells. -/
theorem memGet_memWrite_ne {i : Nat} : ∀ (n : Nat) (m : List Host.Cell) (a x : Nat), i < a ∨ a + n ≤ i → memGet (memWrite m a n x) i = memGet m i
  | 0, _, _, _, _ => rfl
  | n + 1, m, a, x, out => by rw [memWrite, memGet_memWrite_ne n _ _ _ (by omega), memGet_memPut_ne (by omega)]

/-- A line written at its home changes columns and memory alone. -/
theorem homeWriteLine_machine (col : Fin 8) (ln : Nat) (d : BitVec 512) (s : State) :
    { homeWriteLine col ln d s with cols := s.cols, boot := s.boot, mem := s.mem } = s := by
  unfold homeWriteLine slicePut setHomeLine; rfl

/-- Only columns, the boot controller's interrupts and bytes from a up to a + n have changed. -/
structure HomeWrote (s t : State) (a n : Nat) : Prop where
  machine : { t with cols := s.cols, boot := s.boot, mem := s.mem } = s
  memory : ∀ b, b < a ∨ a + n ≤ b → byteAt t b = byteAt s b

namespace HomeWrote
variable {s t u : State} {a n : Nat}

theorem refl (s : State) (a n : Nat) : HomeWrote s s a n := ⟨rfl, fun _ _ => rfl⟩

theorem trans (h : HomeWrote s t a n) (g : HomeWrote t u a n) : HomeWrote s u a n := by
  refine ⟨?_, fun b hb => (g.memory b hb).trans (h.memory b hb)⟩
  obtain ⟨hm, -⟩ := h
  obtain ⟨gm, -⟩ := g
  rw [← hm]
  cases s; cases t; cases u
  simp only [State.mk.injEq] at gm ⊢
  simp_all

theorem cores (h : HomeWrote s t a n) : t.cores = s.cores := (congrArg State.cores h.machine :)
theorem net (h : HomeWrote s t a n) : t.net = s.net := (congrArg State.net h.machine :)
theorem dist (h : HomeWrote s t a n) : t.dist = s.dist := (congrArg State.dist h.machine :)
theorem curCore (h : HomeWrote s t a n) : t.curCore = s.curCore := (congrArg State.curCore h.machine :)
theorem curSlot (h : HomeWrote s t a n) : t.curSlot = s.curSlot := (congrArg State.curSlot h.machine :)

end HomeWrote

theorem homeWrote_logError (col : Fin 8) (src unit gpa : Nat) (s : State) (a n : Nat) : HomeWrote s (logError col src unit gpa s) a n := by
  refine ⟨?_, fun b _ => by rw [byteAt, mem_logError]; rfl⟩
  unfold logError raiseInt sendMsix
  dsimp only
  split
  · rfl
  · split
    · rfl
    · split <;> rfl

theorem OnlyCols.homeWrote {s t : State} (h : OnlyCols s t) (a n : Nat) : HomeWrote s t a n :=
  ⟨by unfold OnlyCols at h; generalize t.cols = c at h; subst h; rfl, fun b _ => by rw [byteAt, h.mem]; rfl⟩

/-- A device write at a homed address: in part of a line, or of a whole one. -/
theorem homeWrote_distWrite {s : State} {a n x : Nat} (home : homed s a = true) (line : n = 64 → a % 64 = 0) :
    HomeWrote s (distWrite a n x s) a n := by
  rw [homed, Bool.and_eq_true] at home
  obtain ⟨none, place⟩ := home
  have written (t : State) (h : HomeWrote s t a n) : HomeWrote s { t with mem := memWrite t.mem a n x } a n :=
    h.trans ⟨rfl, fun b hb => memGet_memWrite_ne _ _ _ _ hb⟩
  unfold distWrite ownerWrite
  split
  · exact homeWrote_logError _ _ _ _ _ _ _
  · split at place
    · next col off target =>
      rw [target]
      have bus : (colAt s col).vbstat.getLsbD 63 = false := by simpa using place
      simp only [if_true, collectAll_none none]
      split
      · next whole =>
        subst whole
        have touched := (onlyCols_sliceTouch none col off true).homeWrote a 64
        refine touched.trans ⟨?_, fun b hb => ?_⟩
        · exact homeWriteLine_machine _ _ _ _
        · rw [byteAt, homeWriteLine_mem, memGet_memWrite_ne _ _ _ _ (by have := line rfl; omega)]; rfl
      · have read : HomeWrote s (homeRead col off a true s).2 a n := by
          by_cases err : (colAt s col).lineErr off = true
          · unfold homeRead
            rw [if_neg (by rw [bus]; decide), if_pos err]
            exact homeWrote_logError _ _ _ _ _ _ _
          · exact (onlyCols_homeRead none bus (by simpa using err)).homeWrote a n
        split
        · exact written _ read
        · exact read
    · cases place

theorem homeWrote_poolPut {s : State} {job : BitVec 32} {k off n x : Nat} (home : homed s (poolAt s job k + off) = true) (part : n ≠ 64) :
    HomeWrote s (poolPut s job k off n x) (poolAt s job k + off) n := by
  unfold poolPut
  split
  · exact .refl s _ _
  · exact homeWrote_distWrite home fun h => absurd h part

/-! ## `send` (R393) -/

/-- The word of a launch instruction. -/
theorem ofNat_encodeWord_launch {i : Instr} {lo hi : Nat} {b a d : BitVec 5} (hlo : lo < 4) (hhi : hi < 256)
    (h : encodeFields i = [(1, 0x1), (6, 0x1f), (5, d.toNat), (5, a.toNat), (5, b.toNat), (2, lo), (8, hi)]) :
    BitVec.ofNat 64 (encodeWord i) = rWord 0x1F (lo + 4 * hi) b a d := by
  refine congrArg (BitVec.ofNat 64) ?_
  have hd := d.isLt; have ha := a.isLt; have hb := b.isLt
  rw [encodeWord, h]
  simp only [pack]
  omega

section
variable {s : State} {c : BitVec 2} {b a d : BitVec 5} (fenced : Fenced s)

/-- The state in which a `send` has left. -/
def sendLeft (c : BitVec 2) (b a : BitVec 5) (s : State) : State :=
  sendPkt s (newPkt s (.msg { handler := gr s a, w := (me s).argWords, cls := c, sender := hartId s s.curCore s.curSlot } ((gr s b).setWidth 20) 0) 0 0 .router)

theorem exec_send : exec (.send c b a) s = execSend c b a s := rfl

theorem ofNat_encodeWord_send : BitVec.ofNat 64 (encodeWord (.send c b a)) = rWord 0x1F (8 + c.toNat) b a 0 :=
  (ofNat_encodeWord_launch (lo := c.toNat) (hi := 2) c.isLt (by decide) rfl).trans (congrArg (rWord 0x1F · b a 0) (Nat.add_comm _ _))

/-- The issuing hart parks at its instruction (R241). -/
theorem parksFor_park (w : Wait) (s : State) : ParksFor s (park w s) w := by
  have now : me (park w s) = { me s with st := .parked, wait := w, since := if (me s).wait = w then (me s).since else s.clock } := by
    rw [park, waitAs, me_updMe]
  refine ⟨by rw [now], by rw [now], by rw [now], fun r => by rw [gr, now]; rfl, by rw [now]; rfl, ?_⟩
  rw [park, waitAs, myCore_updMe]; rfl

theorem restKept_park (w : Wait) (s : State) : RestKept s (park w s) := by unfold park waitAs; exact restKept_updMe _ _

theorem exec_send_odd (none : (me s).dropped = []) (odd : (gr s a).getLsbD 0 = true) :
    exec (.send c b a) s = finish (.trap .misalign (gr s a) s) := by
  show execSend c b a s = _
  unfold execSend
  simp only [none, odd, if_true]

include fenced in
theorem exec_send_plain (none : (me s).dropped = []) (even : (gr s a).getLsbD 0 = false) : exec (.send c b a) s =
    finish (if 4 ≤ (me s).msgsOut then orBlock (rWord 0x1F (8 + c.toNat) b a 0) s fun s => .hold (park .sendSlot s)
      else if 32 ≤ (myCore s).wq.length then .hold s
      else .ok () (retire 4 (updMe (sendLeft c b a s) fun h => { h with msgsOut := h.msgsOut + 1 }))) := by
  show execSend c b a s = _
  unfold execSend
  simp only [none, even, Bool.false_eq_true, if_false, settled_of_fenced fenced]
  rfl

include fenced in
theorem send_leaves (none : (me s).dropped = []) (even : (gr s a).getLsbD 0 = false) (few : (me s).msgsOut < 4) (room : (myCore s).wq.length < 32) :
    exec (.send c b a) s = .next (retireAt ((me s).pc + 4) (updMe (sendLeft c b a s) fun h => { h with msgsOut := h.msgsOut + 1 })) := by
  rw [exec_send_plain fenced none even, if_neg (by omega), if_neg (by omega)]
  show Host.Outcome.next (retireAt ((me (updMe (sendLeft c b a s) _)).pc + 4) _) = _
  rw [me_updMe]; rfl

/-- A hart whose instruction goes on in a state that differs from s outside its cores only. -/
theorem nearRest_sendLeft {t : State} (h : RestKept (sendLeft c b a s) t) : NearRest s t := by
  refine ⟨⟨h.others.slots, h.others.cores⟩, h.memory, ?_⟩
  have machine := h.machine
  generalize t.kept = m at machine
  subst machine
  rfl

include fenced in
theorem send_dropped {l : BitVec 20} {rest : List (BitVec 20)} (dropped : (me s).dropped = l :: rest) :
    exec (.send c b a) s = finish (.trap .sendLimit (l.zeroExtend 64) (updMe s fun h => { h with dropped := rest })) := by
  show execSend c b a s = _
  unfold execSend
  simp only [dropped]
  rw [if_neg]
  rw [Bool.and_eq_true, Bool.not_eq_true']
  rintro ⟨vec, busy⟩
  exact absurd (settled_of_fencedCore fenced vec) (by rw [busy]; decide)

end

/-! ## `larm` (R395) -/

theorem CalmCores.sameHart {s t : State} (h : CalmCores s t) : SameHart s t := ⟨h.curCore, h.curSlot, h.me, h.myInstret⟩

theorem finish_settled {s : State} (fenced : Fenced s) {f : State → Res Unit} {r : Res Unit} (h : f s = r) : finish (settled s f) = finish r := by
  rw [settled_of_fenced fenced, h]

theorem net_of_kept {s t : State} (h : t.kept = s.kept) : t.net = s.net := (congrArg State.net h :)

theorem recOf_of_kept {s t : State} (h : t.kept = s.kept) (job : BitVec 32) (k : Nat) : recOf t job k = recOf s job k := by
  have dist : t.dist = s.dist := (congrArg State.dist h :)
  rw [recOf, findJob, dist]; rfl

section
variable {s : State} {b a d : BitVec 5} (fenced : Fenced s)
include fenced

theorem exec_larm_unlisted (no : findJob s (myCore s).job = none) : exec (.larm b a d) s = .next (done4 d 4 s) := by
  refine finish_settled (r := .ok () (done4 d 4 s)) fenced ?_
  dsimp only
  rw [no]

theorem exec_larm_beyond {j : JobEnt} (found : findJob s (myCore s).job = some j) (few : j.pooln ≤ (gr s a).toNat % 4096) :
    exec (.larm b a d) s = .next (done4 d 2 s) := by
  refine finish_settled (r := .ok () (done4 d 2 s)) fenced ?_
  dsimp only
  rw [found]
  exact if_pos few

theorem exec_larm_priority {j : JobEnt} (found : findJob s (myCore s).job = some j) (inside : (gr s a).toNat % 4096 < j.pooln)
    (none : 32 ≤ (gr s b).toNat % 256) (other : (gr s b).toNat % 256 ≠ 255) : exec (.larm b a d) s = .next (done4 d 3 s) := by
  refine finish_settled (r := .ok () (done4 d 3 s)) fenced ?_
  dsimp only
  rw [found]
  exact (if_neg (by omega)).trans (if_pos ⟨none, other⟩)

theorem exec_larm_busy {j : JobEnt} (found : findJob s (myCore s).job = some j) (inside : (gr s a).toNat % 4096 < j.pooln)
    (prio : (gr s b).toNat % 256 < 32 ∨ (gr s b).toNat % 256 = 255)
    (busy : atRest (recOf s (myCore s).job ((gr s a).toNat % 4096)).status = false) :
    exec (.larm b a d) s = .next (done4 d 1 (if (gr s b).toNat % 256 = 255 then s
      else setPrio (myCore s).job ((gr s a).toNat % 4096) (BitVec.ofNat 8 ((gr s b).toNat % 256)) s)) := by
  refine finish_settled (r := .ok () (done4 d 1 (if (gr s b).toNat % 256 = 255 then s
    else setPrio (myCore s).job ((gr s a).toNat % 4096) (BitVec.ofNat 8 ((gr s b).toNat % 256)) s))) fenced ?_
  dsimp only
  rw [found]
  exact (if_neg (by omega)).trans ((if_neg (by omega)).trans (if_neg (by rw [busy]; decide)))

theorem exec_larm_rest {j : JobEnt} (found : findJob s (myCore s).job = some j) (inside : (gr s a).toNat % 4096 < j.pooln)
    (prio : (gr s b).toNat % 256 = 255) (rest : atRest (recOf s (myCore s).job ((gr s a).toNat % 4096)).status = true) (out : covered s 5 = true) :
    exec (.larm b a d) s = finish (match armRecord (myCore s).job ((gr s a).toNat % 4096) (updMe s Hart.covered) with
      | some s => .ok () (done4 d 0 (resolveAll s))
      | none => .hold (park .arm (updMe s Hart.covered))) := by
  have clear : nothingOut s s.curCore s.curSlot = true ∧ unroutable s (me s) = none ∧ (me s).unsent = none ∧ (me s).errAck = none := by
    simpa [covered, and_assoc] using out
  obtain ⟨nothing, route, unsent, err⟩ := clear
  refine finish_settled fenced ?_
  dsimp only
  rw [found]
  refine (if_neg (by omega)).trans ((if_neg (by omega)).trans ((if_pos rest).trans ?_))
  rw [withRelease_covered fenced (by decide) nothing route unsent err]
  simp only [prio, if_true] <;> rfl

end

/-- A record that is not at rest: its priority alone is new, in the distributor and in its pool (R374). -/
theorem larm_busy {s u : State} {job : BitVec 32} {k p : Nat} {d : BitVec 5} (listed : (findJob s job).isSome = true) (range : p < 256)
    (home : homed s (poolAt s job k + 3) = true) (hu : u = if p = 255 then s else setPrio job k (BitVec.ofNat 8 p) s) :
    let t := done4 d 1 u
    GoesOn s t ((me s).pc + 4) ∧ Wrote s t d 1 ∧ (recOf t job k).prio.toNat = (if p = 255 then (recOf s job k).prio.toNat else p) ∧
      (recOf t job k).status = (recOf s job k).status ∧ OthersKept s t ∧ ∀ x, x ≠ poolAt s job k + 3 → byteAt t x = byteAt s x := by
  intro t
  by_cases keep : p = 255
  · rw [if_pos keep] at hu
    subst hu
    obtain ⟨on, wrote, -, rest⟩ := retire_setG (⟨rfl, rfl, rfl, rfl⟩ : SameHart u u) 4 d 1
    have same : recOf t job k = recOf u job k := recOf_of_kept rest.machine _ _
    exact ⟨on, wrote, by rw [if_pos keep, same], by rw [same], rest.others, fun x _ => rest.memory x⟩
  · rw [if_neg keep] at hu
    have wrote : HomeWrote (updRec s job k fun r => { r with prio := BitVec.ofNat 8 p }) u (poolAt s job k + 3) 1 := by
      subst hu
      have := homeWrote_poolPut (s := updRec s job k fun r => { r with prio := BitVec.ofNat 8 p }) (job := job) (k := k) (off := 3) (n := 1)
        (x := (BitVec.ofNat 8 p).toNat) (by rw [poolAt_updRec]; exact home) (by decide)
      rwa [poolAt_updRec] at this
    have is := recordIs_setPrio k listed (BitVec.ofNat 8 p)
    rw [← hu] at is
    have calm := is.toCalmCores
    obtain ⟨on, wr, -, rest⟩ := retire_setG calm.sameHart 4 d 1
    have new : recOf t job k = { recOf s job k with prio := BitVec.ofNat 8 p } := (recOf_of_kept rest.machine _ _).trans is.record
    refine ⟨on, wr, ?_, by rw [new], ⟨fun j hj => ?_, fun c hc => ?_⟩, fun x hx => ?_⟩
    · rw [if_neg keep, new]; exact Nat.mod_eq_of_lt range
    · exact (calm.curCore ▸ rest.others.slots j (calm.curSlot ▸ hj) : _).trans (by rw [hartAt, coreAt_congr wrote.cores]; rfl)
    · exact (rest.others.cores c (calm.curCore ▸ hc)).trans (by rw [coreAt_congr wrote.cores]; rfl)
    · exact (rest.memory x).trans (wrote.memory x (by omega))

theorem snapOf_get (l : List (BitVec 64)) (n : Fin 32) : (snapOf l).get n = l.getD n 0 := by
  show (Vector.ofFn fun i : Fin 32 => l.getD i.val 0)[n.val] = _
  rw [Vector.getElem_ofFn]

theorem goesOn_covered {s t : State} {p : BitVec 48} (h : GoesOn (updMe s Hart.covered) t p) : GoesOn s t p := by
  refine ⟨h.pc, fun ready => h.ready ?_, h.count.trans ?_⟩
  · rw [me_updMe]; exact ready
  · rw [myCore_updMe]; rfl

theorem wrote_covered {s t : State} {d : BitVec 5} {x : BitVec 64} (h : Wrote (updMe s Hart.covered) t d x) : Wrote s t d x :=
  ⟨h.dest, fun r hr => (h.rest r hr).trans (by rw [gr, me_updMe]; rfl)⟩

/-- Settles O44: a message leaves with its words, and an armed record has the words its pool gives, whatever its status then is. -/
theorem sendAndArm : Obligations.SendAndArm := by
  intro s c b a d fenced h job k p word
  have settled : Settled s := settled_of_fencedCore fenced
  have trap {t : Cause} {x : BitVec 64} (e : exec (.send c b a) s = finish (.trap t x s)) : TakesTrap (.send c b a) s t x := takesTrap_of e
  refine ⟨fun none odd => trap ?_, fun none even => ⟨fun few room => ?_, fun few full => ?_, fun many slot => ?_, fun many slot => ?_⟩,
    fun l rest dropped nf => ?_, fun no => gives_done4 (exec_larm_unlisted fenced no), fun j found => ⟨fun beyond => ?_, fun inside hp other => ?_, ?_, ?_⟩⟩
  · exact exec_send_odd none odd
  · have left := send_leaves (c := c) (b := b) fenced none even few room
    have hm : me (sendLeft c b a s) = me s := rfl
    refine ⟨_, newPkt s (.msg { handler := gr s a, w := (me s).argWords, cls := c, sender := hartId s s.curCore s.curSlot } ((gr s b).setWidth 20) 0)
      0 0 .router, left, ?_, fun r => ?_, ?_, ?_, ?_, nearRest_sendLeft (restKept_retireAt_updMe _ _ _), ?_, ?_, rfl, rfl⟩
    · exact (⟨rfl, rfl, rfl, rfl⟩ : SameHart s (sendLeft c b a s)).goesOn (goesOn_retireAt_updMe _ _ _ rfl)
    · rw [gr, me_retireAt, gr_retired, me_updMe, hm]; rfl
    · rw [me_retireAt, me_updMe, hm]; rfl
    · rw [me_retireAt, kept_retired, me_updMe, hm]; rfl
    · exact (restKept_retireAt_updMe _ _ _).core
    · exact net_of_kept (restKept_retireAt_updMe _ (sendLeft c b a s) _).machine
    · simp [fromMe, newPkt]
  · rw [exec_send_plain fenced none even, if_neg (Nat.not_le.mpr few), if_pos full]; rfl
  · refine ⟨park .sendSlot s, ?_, parksFor_park _ _, restKept_park _ _⟩
    rw [exec_send_plain fenced none even, if_pos many, orBlock, if_neg slot]; rfl
  · refine takesTrap_word ofNat_encodeWord_send ?_
    rw [exec_send_plain fenced none even, if_pos many, orBlock, if_pos slot]
  · rw [send_dropped fenced dropped, updMe_trap _ rfl settled nf]
    have hm : me (updMe s fun h => (({ h with dropped := rest } : Hart).record .sendLimit (l.zeroExtend 64) false).vector) = _ := me_updMe _ _
    refine ⟨_, rfl, ?_, ?_, ?_, ?_, fun r => ?_, restKept_updMe _ _⟩
    · rw [hm]; rfl
    · rw [hm]; rfl
    · rw [hm]; rfl
    · rw [hm]; rfl
    · rw [gr, hm]; rfl
  · exact gives_done4 (exec_larm_beyond fenced found beyond)
  · exact gives_done4 (exec_larm_priority fenced found inside hp other)
  · intro inside prio busy home
    have busy := larm_busy (d := d) (u := _) (by rw [found]; rfl : (findJob s job).isSome = true) (Nat.mod_lt _ (by decide) : p < 256) home rfl
    exact ⟨_, exec_larm_busy fenced found inside prio ‹_›, busy⟩
  · intro inside prio rest out v
    rw [exec_larm_rest fenced found inside prio rest out]
    refine ⟨fun w armed => ?_, fun waits => ?_⟩
    · rw [show armRecord _ _ _ = some w from armed]
      obtain ⟨r, is, status, got, bad⟩ := armRecord_armed (s := v) (by rw [show findJob v job = some j from found]; rfl) armed
      have resolved := resolved_resolveAll w
      have hv : (me v).pc = h.pc := by rw [me_updMe]; rfl
      obtain ⟨on, wrote, -, kept⟩ := retire_setG (is.toCalmCores.trans resolved.toCalmCores).sameHart 4 d 0
      have same : recOf (done4 d 0 (resolveAll w)) job k = recOf (resolveAll w) job k := recOf_of_kept kept.machine _ _
      refine ⟨_, rfl, goesOn_covered (hv ▸ on), wrote_covered wrote, ?_, fun l read n => ?_, fun unread => ?_⟩
      · obtain same' | ⟨-, st⟩ := resolved.status job k
        · rw [same, same', is.record]; exact status
        · rw [same]; exact st
      · rw [same, resolved.snap, is.record, got l read]
        exact snapOf_get l n
      · obtain same' | ⟨was, -⟩ := resolved.status job k
        · rw [same, same', is.record]; exact bad unread
        · rw [is.record, bad unread] at was
          exact absurd was (by decide)
    · rw [show armRecord _ _ _ = none from waits]
      have parks := parksFor_park .arm v
      have hv : me v = (me s).covered := me_updMe _ _
      exact ⟨_, rfl, parks.parked, parks.wait, parks.pc.trans (by rw [hv]; rfl), fun r => (parks.regs r).trans (by rw [gr, hv]; rfl), rfl, fun x => rfl⟩

end Sys2Proof.Machine
end

section
/-!
PROOFS. `spawn` (R388, R389, R462).
-/

namespace Sys2Proof.Machine

set_option Elab.async false

variable {s : State} {b a d : BitVec 5}

/-! ## The target of a spawn -/

theorem calm_takeChoice (s : State) : Calm s (takeChoice s).2 := .of_cores rfl rfl rfl rfl

/-- Resolving a logical core reads its table at the home, and no more (R462). -/
theorem calm_resolveCore (col : Fin 8) (job : BitVec 32) (l : Nat) (s : State) : Calm s (resolveCore col job l s).2 := by
  have read (j : Nat) (u : State) : Calm u (match ownerRead true ((vget (colAt s col).lctbase j).toNat + 8 * l) 8 u with
      | (none, s) => (LTarget.none, s)
      | (some v, s) => (entryTarget (updCol s col fun c => { c with lctCache := (job, l, BitVec.ofNat 64 v) :: c.lctCache.filter fun x => !(x.1 == job && x.2.1 == l) })
          (BitVec.ofNat 64 v),
          updCol s col fun c => { c with lctCache := (job, l, BitVec.ofNat 64 v) :: c.lctCache.filter fun x => !(x.1 == job && x.2.1 == l) })).2 := by
    have calm := calm_ownerRead u true ((vget (colAt s col).lctbase j).toNat + 8 * l) 8
    generalize ownerRead true ((vget (colAt s col).lctbase j).toNat + 8 * l) 8 u = r at calm ⊢
    obtain ⟨x, w⟩ := r
    cases x with
    | none => exact calm
    | some v => exact calm.trans (t := w) (.of_cores rfl rfl rfl rfl)
  unfold resolveCore
  dsimp only
  split
  · exact .refl s
  · split
    · exact .refl s
    · split
      · exact read _ _
      · split
        · exact calm_takeChoice s
        · exact (calm_takeChoice s).trans (read _ _)

/-- A spawn whose target has been resolved, in the state u (R389). -/
def spawnTo (s : State) (b a d : BitVec 5) (t : LTarget) (u : State) : Res Unit :=
  let pc : BitVec 48 := (gr s a).setWidth 48
  match t with
  | .core t =>
    if colOf t ≠ colOf s.curCore.val then .ok () (done4 d 3 u)
    else if t = s.curCore.val then
      let r := spawnClaim s.curCore u.curSlot s.curCore pc (me s).argWords u
      .ok () (spawnAnswered r.1 r.2.1 pc d (me s).argWords r.2.2)
    else .hold (park (.spawn d) (sendPkt u (newPkt u (.spawn pc (me s).argWords ((gr u b).setWidth 20) d) t 0 .mesh)))
  | _ => .ok () (done4 d 3 u)

theorem exec_spawn (slot : s.curSlot ≠ 7) (even : (gr s a).getLsbD 0 = false) (fenced : Fenced s) : exec (.spawn b a d) s =
    finish (spawnTo s b a d (resolveCore (colOf s.curCore) (myCore s).job ((gr s b).toNat % 2 ^ 20) s).1
      (resolveCore (colOf s.curCore) (myCore s).job ((gr s b).toNat % 2 ^ 20) s).2) := by
  show execSpawn b a d s = _
  unfold execSpawn notHandler
  dsimp only
  rw [if_neg slot, if_neg (by rw [even]; decide), settled_of_fenced fenced]
  generalize resolveCore (colOf s.curCore) (myCore s).job ((gr s b).toNat % 2 ^ 20) s = r
  obtain ⟨t, u⟩ := r
  cases t <;> rfl

/-! ## LIVE of the hart's record (R384) -/

theorem liveBy_off {c : Nat} {k : Fin 8} (up : Bool) (h : (hartAt s c k).hasRec = false) : liveBy c k up s = s := by
  unfold liveBy
  dsimp only
  rw [h]; rfl

theorem liveBy_on {c : Nat} {k : Fin 8} (up : Bool) (h : (hartAt s c k).hasRec = true) :
    liveBy c k up s = setLive s (coreAt s c).job (hartAt s c k).lrec.toNat
      (if up then (recOf s (coreAt s c).job (hartAt s c k).lrec.toNat).live + 1 else (recOf s (coreAt s c).job (hartAt s c k).lrec.toNat).live - 1) := by
  unfold liveBy
  dsimp only
  rw [h]; rfl

theorem calmCores_liveBy (c : Nat) (k : Fin 8) (up : Bool) : CalmCores s (liveBy c k up s) := by
  cases h : (hartAt s c k).hasRec with
  | false => rw [liveBy_off up h]; exact .refl s
  | true => rw [liveBy_on up h]; exact (calmCores_updRec s _ _ _).trans (calm_poolPut _ _ _ _ _ _).toCalmCores

/-- LIVE written at its homed place in the pool: no other byte, no core and no packet changes. -/
theorem homeWrote_setLive {job : BitVec 32} {k n : Nat} (home : homed s (poolAt s job k + 48) = true) :
    HomeWrote (updRec s job k fun r => { r with live := n }) (setLive s job k n) (poolAt s job k + 48) 8 := by
  have := homeWrote_poolPut (s := updRec s job k fun r => { r with live := n }) (job := job) (k := k) (off := 48) (n := 8) (x := n)
    (by rw [poolAt_updRec]; exact home) (by decide)
  rwa [poolAt_updRec] at this

theorem setLive_unlisted {job : BitVec 32} {k n : Nat} (no : (findJob s job).isSome = false) :
    setLive s job k n = updRec s job k fun r => { r with live := n } := by
  have none : findJob (updRec s job k fun r => { r with live := n }) job = none := by
    rw [← Option.isNone_iff_eq_none, ← Option.isSome_eq_false_iff, findJob_updRec, no]
  rw [setLive, poolPut, none]

/-- What a change of LIVE of the record of hart k of core c leaves, its place homed: cores and packets as before, and LIVE's bytes alone new. -/
structure LiveChanged (s t : State) (job : BitVec 32) (k n : Nat) (on : Bool) : Prop where
  cores : t.cores = s.cores
  net : t.net = s.net
  cur : t.curCore = s.curCore ∧ t.curSlot = s.curSlot
  live : if on = true ∧ (findJob s job).isSome = true then LiveIs s t job k n else ∀ x, byteAt t x = byteAt s x

theorem liveChanged_liveBy {c : Nat} {k : Fin 8} (up : Bool)
    (home : (!(hartAt s c k).hasRec || homed s (poolAt s (coreAt s c).job (hartAt s c k).lrec.toNat + 48)) = true) :
    LiveChanged s (liveBy c k up s) (coreAt s c).job (hartAt s c k).lrec.toNat
      (if up then (recOf s (coreAt s c).job (hartAt s c k).lrec.toNat).live + 1 else (recOf s (coreAt s c).job (hartAt s c k).lrec.toNat).live - 1)
      (hartAt s c k).hasRec := by
  cases h : (hartAt s c k).hasRec with
  | false => rw [liveBy_off up h]; exact ⟨rfl, rfl, ⟨rfl, rfl⟩, by rw [if_neg (by simp)]; exact fun _ => rfl⟩
  | true =>
    rw [h] at home
    rw [liveBy_on up h]
    generalize (if up then _ else _ : Nat) = n
    by_cases listed : (findJob s (coreAt s c).job).isSome = true
    · have wrote := homeWrote_setLive (n := n) (home : homed s _ = true)
      refine ⟨wrote.cores, wrote.net, ⟨wrote.curCore, wrote.curSlot⟩, ?_⟩
      rw [if_pos ⟨rfl, listed⟩]
      exact ⟨by rw [(recordIs_setLive _ listed n).record], fun x hx => wrote.memory x hx⟩
    · rw [setLive_unlisted (by simpa using listed)]
      refine ⟨rfl, rfl, ⟨rfl, rfl⟩, ?_⟩
      rw [if_neg fun h => listed h.2]
      exact fun _ => rfl

/-! ## Homed places after a change of a core -/

theorem mem_of_tabPut {α : Type} {k : Nat} {v : α} {e : Nat × α} : ∀ {t : Tab α}, e ∈ tabPut t k v → e = (k, v) ∨ e ∈ t
  | [], h => .inl (List.mem_singleton.mp h)
  | (j, w) :: t, h => by
    unfold tabPut at h
    split at h
    · exact (List.mem_cons.mp h).imp_right id
    · split at h
      · exact (List.mem_cons.mp h).imp_right fun m => List.mem_cons_of_mem _ m
      · rcases List.mem_cons.mp h with rfl | m
        · exact .inr List.mem_cons_self
        · exact (mem_of_tabPut m).imp_right fun m => List.mem_cons_of_mem _ m

theorem cw_of_noCopies {s : State} (h : NoCopies s) (c : Nat) : (coreAt s c).cw = [] := by
  unfold NoCopies at h
  rw [List.all_eq_true] at h
  unfold coreAt
  have found : ∀ l : Tab Core, (∀ e ∈ l, e.2.cw.isEmpty = true) → (tabGet Core.reset l c).cw = [] := by
    intro l
    induction l with
    | nil => intro _; rfl
    | cons e t ih =>
      intro all
      obtain ⟨j, q⟩ := e
      unfold tabGet
      split
      · exact List.isEmpty_iff.mp (all _ List.mem_cons_self)
      · exact ih fun e m => all e (List.mem_cons_of_mem _ m)
  exact found _ h

theorem noCopies_updCore {s : State} (h : NoCopies s) (c : Nat) (f : Core → Core) (cw : (f (coreAt s c)).cw = (coreAt s c).cw) :
    NoCopies (updCore s c f) := by
  have all := List.all_eq_true.mp h
  refine List.all_eq_true.mpr fun e m => ?_
  rcases mem_of_tabPut m with rfl | m
  · show (f (coreAt s c)).cw.isEmpty = true
    rw [cw, cw_of_noCopies h]; rfl
  · exact all e m

theorem homed_updCore {s : State} {a : Nat} (h : homed s a = true) (c : Nat) (f : Core → Core) (cw : (f (coreAt s c)).cw = (coreAt s c).cw) :
    homed (updCore s c f) a = true := by
  rw [homed, Bool.and_eq_true] at h ⊢
  exact ⟨noCopies_updCore h.1 c f cw, h.2⟩

/-! ## A child in a slot of its own (R389) -/

section
variable {c : Nat} {k j : Fin 8} (pc : BitVec 48) (w : Vector (BitVec 64) 4)

/-- The machine with a child placed, before LIVE counts it. -/
def childPlaced (c : Nat) (k j : Fin 8) (pc : BitVec 48) (w : Vector (BitVec 64) 4) (s : State) : State :=
  updHart (startHart c j pc w (coreAt s c).job (hartAt s c k).lrec.toNat (hartAt s c k).stage.toNat (hartAt s c k).unit s) c j
    fun x => { x with hasRec := (hartAt s c k).hasRec }

theorem placeChild_eq : placeChild c k c j pc w s = liveBy c k true (childPlaced c k j pc w s) := rfl

/-- The hart of a child. -/
def childHart (q : Core) (r : LRec) (h x : Hart) (pc : BitVec 48) (w : Vector (BitVec 64) 4) : Hart :=
  { x with
    st := if q.night then .frozen else .ready
    back := .ready, wait := .none, pc := pc, g := startRegs r h.stage.toNat w, ox := Vector.replicate 8 0
    fstat := 0, bwto := 65536, geps := 0x34000000, feretry := 1024, xstat := x.xstat &&& ~~~(3#64), frames := [], hasRec := h.hasRec
    unit := h.unit, lrec := BitVec.ofNat 12 h.lrec.toNat, stage := BitVec.ofNat 3 h.stage.toNat, released := false, timer := none
    stepHead := none, stepDone := false }

theorem setHart_twice (s : State) (c : Nat) (k : Fin 8) (x y : Hart) : setHart (setHart s c k x) c k y = setHart s c k y := by
  unfold setHart
  rw [updCore_updCore]
  simp only [setHart_setHart]

theorem childPlaced_eq : childPlaced c k j pc w s = setHart s c j
    (childHart (coreAt s c) (recOf s (coreAt s c).job (hartAt s c k).lrec.toNat) (hartAt s c k) (hartAt s c j) pc w) := by
  unfold childPlaced startHart updHart
  rw [setHart_twice, hartAt_setHart_self]
  rfl

/-- Placing a child in another slot than the issuing one keeps the issuing hart, INSTRET, memory, the packets and the distributor. -/
theorem sameHart_childPlaced (ne : j ≠ s.curSlot) : SameHart s (childPlaced s.curCore k j pc w s) := by
  rw [childPlaced_eq]
  refine ⟨rfl, rfl, hartAt_setHart_slot _ _ _ _ _ ne.symm, ?_⟩
  show (coreAt (setHart s s.curCore j _) s.curCore).instret = _
  rw [coreAt_setHart_self]; rfl

theorem startRegs_get (r : LRec) (st : Nat) (w : Vector (BitVec 64) 4) (n : BitVec 5) : (startRegs r st w).get n.toFin =
    if n.toNat = 0 then 0 else if 10 ≤ n.toNat ∧ n.toNat ≤ 13 then vget w (n.toNat - 10)
      else if (tabGet 0 r.regs (32 * st)).toNat.testBit n.toNat then tabGet 0 r.regs (32 * st + n.toNat) else 0 := by
  show (Vector.ofFn fun i : Fin 32 => _)[n.toNat]'(n.isLt) = _
  rw [Vector.getElem_ofFn]

theorem gr_childHart (q : Core) (r : LRec) (h x : Hart) (n : BitVec 5) (n0 : n ≠ 0) : (childHart q r h x pc w).gr n =
    if 10 ≤ n.toNat ∧ n.toNat ≤ 13 then vget w (n.toNat - 10)
      else if (tabGet 0 r.regs (32 * h.stage.toNat)).toNat.testBit n.toNat then tabGet 0 r.regs (32 * h.stage.toNat + n.toNat) else 0 := by
  have pos : n.toNat ≠ 0 := fun h => n0 (BitVec.eq_of_toNat_eq h)
  rw [Hart.gr, if_neg n0]
  exact (startRegs_get _ _ _ _).trans (if_neg pos)

/-- What the issuing hart's child finds in its slot. -/
theorem childAt_of {t : State} (h : hartAt t s.curCore j = childHart (myCore s) (recOf s (myCore s).job (me s).lrec.toNat) (me s)
    (hartAt s s.curCore j) pc (me s).argWords) : ChildAt s t s.curCore j pc := by
  refine ⟨by rw [h]; rfl, by rw [h]; rfl, ?_, ?_, fun n n0 other => ?_, by rw [h]; rfl, by rw [h]; rfl⟩
  · rw [h]
    exact ⟨gr_childHart _ _ _ _ _ _ 10 (by decide), gr_childHart _ _ _ _ _ _ 11 (by decide), gr_childHart _ _ _ _ _ _ 12 (by decide),
      gr_childHart _ _ _ _ _ _ 13 (by decide)⟩
  · rw [h]
    exact ⟨rfl, BitVec.eq_of_toNat_eq (by simp [childHart]), BitVec.eq_of_toNat_eq (by simp [childHart]), rfl⟩
  · rw [h, gr_childHart _ _ _ _ _ _ n n0, if_neg (by omega)]

end

/-! ## The statement -/

theorem childSlot_idle {u : State} {c : Nat} {j : Fin 8} (h : childSlot u c = some j) : (hartAt u c j).st = .idle := by
  unfold childSlot at h
  dsimp only at h
  split at h
  · cases h
  · have := List.find?_some h
    simp only [Bool.and_eq_true, beq_iff_eq] at this
    exact this.1.2

theorem nearRest_of_restKept {s t : State} (h : RestKept s t) : NearRest s t := ⟨h.others, h.memory, by rw [h.machine]; rfl⟩

/-- A spawn that ends with an answer and nothing else. -/
theorem spawn_answers {u : State} {v : BitVec 64} (e : exec (.spawn b a d) s = .next (done4 d v u)) (calm : CalmCores s u) :
    ∃ t, exec (.spawn b a d) s = .next t ∧ GoesOn u t ((me s).pc + 4) ∧ Wrote u t d v ∧ (me t).kept = (me u).kept ∧
      (myCore t).kept = (myCore u).kept ∧ NearRest u t ∧ t.net = u.net := by
  obtain ⟨on, wrote, hart, rest⟩ := retire_setG (⟨rfl, rfl, rfl, rfl⟩ : SameHart u u) 4 d v
  exact ⟨_, e, by rw [← calm.me]; exact on, wrote, hart, rest.core, nearRest_of_restKept rest, net_of_kept rest.machine⟩

/-- What LIVE's change left, an instruction that only retires after it leaves too, against a machine s0 with the memory and distributor of s. -/
theorem LiveChanged.retired {s0 s u t : State} {job : BitVec 32} {k n : Nat} {on : Bool} (h : LiveChanged s u job k n on) (rest : RestKept u t)
    (mem : s.mem = s0.mem) (dist : s.dist = s0.dist) :
    (if on = true ∧ (findJob s0 job).isSome = true then LiveIs s0 t job k n else ∀ x, byteAt t x = byteAt s0 x) := by
  have found : findJob s job = findJob s0 job := by rw [findJob, dist]; rfl
  have place : poolAt s job k = poolAt s0 job k := by rw [poolAt, found]; rfl
  have byte (x : Nat) : byteAt s x = byteAt s0 x := by rw [byteAt, mem]; rfl
  have live := h.live
  rw [found] at live
  by_cases listed : on = true ∧ (findJob s0 job).isSome = true
  · rw [if_pos listed] at live ⊢
    exact ⟨(congrArg LRec.live (recOf_of_kept rest.machine _ _)).trans live.live,
      fun x hx => (rest.memory x).trans ((live.memory x (place ▸ hx)).trans (byte x))⟩
  · rw [if_neg listed] at live ⊢
    exact fun x => (rest.memory x).trans ((live x).trans (byte x))

section
variable (pc : BitVec 48) (u : State)

theorem spawnClaim_stranger (job : (myCore u).job = 0) (w : Vector (BitVec 64) 4) :
    spawnClaim u.curCore u.curSlot u.curCore pc w u = (3, false, u) := by
  unfold spawnClaim
  exact if_pos (.inr (.inr job))

theorem spawnClaim_own (job : (myCore u).job ≠ 0) (w : Vector (BitVec 64) 4) : spawnClaim u.curCore u.curSlot u.curCore pc w u =
    match childSlot u u.curCore with
    | some j => (0, false, placeChild u.curCore u.curSlot u.curCore j pc w u)
    | none => if (me u).frames.length < 8 then (0, true, u) else (2, false, u) := by
  unfold spawnClaim
  refine (if_neg ?_).trans rfl
  rintro (h | h | h)
  · exact h rfl
  · exact h rfl
  · exact job h

variable {u}

/-- A child placed in an idle slot of the own core, and the instruction done (R383, R389). -/
theorem child_done {j : Fin 8} (ne : j ≠ u.curSlot) (home : liveHomed u = true) :
    let t := done4 d 0 (placeChild u.curCore u.curSlot u.curCore j pc (me u).argWords u)
    GoesOn u t ((me u).pc + 4) ∧ Wrote u t d 0 ∧ (me t).kept = (me u).kept ∧ ChildAt u t u.curCore j pc ∧
      (∀ i, i ≠ j → i ≠ u.curSlot → hartAt t u.curCore i = hartAt u u.curCore i) ∧
      (if (me u).hasRec = true ∧ (findJob u (myCore u).job).isSome = true then
          LiveIs u t (myCore u).job (me u).lrec.toNat ((recOf u (myCore u).job (me u).lrec.toNat).live + 1)
        else ∀ x, byteAt t x = byteAt u x) ∧ t.net = u.net := by
  intro t
  have placed : SameHart u (childPlaced u.curCore u.curSlot j pc (me u).argWords u) := sameHart_childPlaced pc _ ne
  have form := childPlaced_eq (s := u) (c := u.curCore.val) (k := u.curSlot) (j := j) pc (me u).argWords
  obtain ⟨p, hp⟩ : ∃ p, p = childPlaced u.curCore u.curSlot j pc (me u).argWords u := ⟨_, rfl⟩
  rw [← hp] at placed form
  have at_j := congrArg (hartAt · u.curCore j) form
  rw [hartAt_setHart_self] at at_j
  have at_i (i : Fin 8) (hi : i ≠ j) : hartAt p u.curCore i = hartAt u u.curCore i := by rw [form]; exact hartAt_setHart_slot _ _ _ _ _ hi
  have job : (coreAt p u.curCore).job = (myCore u).job := by rw [form, coreAt_setHart_self]; rfl
  have slot : hartAt p u.curCore u.curSlot = me u := at_i _ ne.symm
  have rec' (x : BitVec 32) (n : Nat) : recOf p x n = recOf u x n := by rw [form]; rfl
  have home' : (!(hartAt p u.curCore u.curSlot).hasRec ||
      homed p (poolAt p (coreAt p u.curCore).job (hartAt p u.curCore u.curSlot).lrec.toNat + 48)) = true := by
    rw [slot, job, form]
    unfold liveHomed at home
    cases h : (me u).hasRec with
    | false => rfl
    | true => rw [h] at home; exact homed_updCore (home : homed u _ = true) _ _ rfl
  have live := liveChanged_liveBy (s := p) (c := u.curCore.val) (k := u.curSlot) true home'
  have calm := calmCores_liveBy (s := p) u.curCore u.curSlot true
  rw [slot, job, rec', if_pos rfl] at live
  have ht : t = retire 4 (setG (liveBy u.curCore u.curSlot true p) d 0) := by rw [hp]; rfl
  clear_value t
  generalize liveBy u.curCore u.curSlot true p = v at live calm ht
  obtain ⟨on, wrote, hart, rest⟩ := retire_setG (placed.trans calm.sameHart) 4 d 0
  rw [← ht] at on wrote hart rest
  have core : v.curCore = u.curCore := calm.curCore.trans placed.core
  have kept (i : Fin 8) (hi : i ≠ u.curSlot) : hartAt t u.curCore i = hartAt p u.curCore i := by
    rw [← calm.hartAt, ← core]
    exact rest.others.slots i (by rw [calm.curSlot, placed.slot]; exact hi)
  refine ⟨on, wrote, hart, childAt_of pc ((kept j ne).trans at_j), fun i hj hi => (kept i hi).trans (at_i i hj), ?_, ?_⟩
  · exact live.retired rest (by rw [form]; rfl) (by rw [form]; rfl)
  · exact (net_of_kept rest.machine).trans (live.net.trans (by rw [form]; rfl))

/-- The hart of a caller whose child starts inline: its frame pushed, the words in g10 to g13. -/
def Hart.calls (d : BitVec 5) (w : Vector (BitVec 64) 4) (h : Hart) : Hart :=
  { h with
    frames := { ret := h.pc + 4, d := d } :: h.frames
    g := vput (vput (vput (vput h.g 10 (vget w 0)) 11 (vget w 1)) 12 (vget w 2)) 13 (vget w 3) }

theorem get_vput {α : Type} {n : Nat} (v : Vector α n) {i : Nat} (hi : i < n) (x : α) (k : Fin n) :
    (vput v i x).get k = if k.val = i then x else v.get k := by
  rw [vput, dif_pos hi]
  show (v.set i x hi)[k.val] = _
  rw [Vector.getElem_set]
  by_cases h : i = k.val
  · rw [if_pos h, if_pos h.symm]
  · rw [if_neg h, if_neg (Ne.symm h)]; rfl

/-- Registers 10 to 13 after their four words have been put there. -/
theorem gr_calls (d : BitVec 5) (w : Vector (BitVec 64) 4) (h : Hart) (r : BitVec 5) :
    (h.calls d w).gr r = if 10 ≤ r.toNat ∧ r.toNat ≤ 13 then vget w (r.toNat - 10) else h.gr r := by
  have same : (r.toFin : Fin 32).val = r.toNat := rfl
  unfold Hart.gr Hart.calls
  by_cases r0 : r = 0
  · rw [if_pos r0, if_pos r0, if_neg (by rw [r0]; decide)]
  · rw [if_neg r0, if_neg r0, get_vput _ (by decide), get_vput _ (by decide), get_vput _ (by decide), get_vput _ (by decide), same]
    by_cases h13 : r.toNat = 13
    · simp [h13]
    · by_cases h12 : r.toNat = 12
      · simp [h12]
      · by_cases h11 : r.toNat = 11
        · simp [h11]
        · by_cases h10 : r.toNat = 10
          · simp [h10]
          · rw [if_neg h13, if_neg h12, if_neg h11, if_neg h10, if_neg (by omega)]

/-- A child that starts inline in its caller's slot (R389). -/
theorem inline_done (home : liveHomed u = true) :
    let t := inlineChild pc d (me u).argWords u
    Inlined u t pc d ∧ OthersKept u t ∧
      (if (me u).hasRec = true ∧ (findJob u (myCore u).job).isSome = true then
          LiveIs u t (myCore u).job (me u).lrec.toNat ((recOf u (myCore u).job (me u).lrec.toNat).live + 1)
        else ∀ x, byteAt t x = byteAt u x) ∧ t.net = u.net := by
  intro t
  have live := liveChanged_liveBy (s := u) (c := u.curCore.val) (k := u.curSlot) true home
  have calm := calmCores_liveBy (s := u) u.curCore u.curSlot true
  obtain ⟨v, hv⟩ : ∃ v, v = liveBy u.curCore u.curSlot true u := ⟨_, rfl⟩
  rw [← hv] at live calm
  have ht : t = retireAt pc (updMe v (Hart.calls d (me u).argWords)) := by rw [hv]; rfl
  clear_value t
  have rest := restKept_retireAt_updMe pc v (Hart.calls d (me u).argWords)
  have on := goesOn_retireAt_updMe pc v (Hart.calls d (me u).argWords) rfl
  rw [← ht] at rest on
  have hart : me t = ((me u).calls d (me u).argWords).retired pc := by rw [ht, me_retireAt, me_updMe, calm.me]
  have reg (r : BitVec 5) : gr t r = ((me u).calls d (me u).argWords).gr r := by rw [gr, hart, gr_retired]
  refine ⟨⟨calm.sameHart.goesOn on, by rw [hart]; rfl, ?_, fun r hr => ?_⟩, ⟨fun k hk => ?_, fun x hx => ?_⟩, live.retired rest rfl rfl,
    (net_of_kept rest.machine).trans live.net⟩
  · simp only [reg, gr_calls]
    exact ⟨rfl, rfl, rfl, rfl⟩
  · rw [reg, gr_calls, if_neg (by omega)]; rfl
  · exact (calm.curCore ▸ rest.others.slots k (by rw [calm.curSlot]; exact hk)).trans (by rw [hartAt, coreAt_congr live.cores]; rfl)
  · exact (rest.others.cores x (by rw [calm.curCore]; exact hx)).trans (coreAt_congr live.cores _)

end

/-- Settles O42: the target is resolved first, and all the rest of `spawn` starts from what that left. -/
theorem spawnResults : Obligations.SpawnResults := by
  intro s b a d c job pc r u p4 live answers
  refine ⟨fun slot => takesTrap_word (ofNat_encodeWord_launch (lo := 0) (hi := 0) (by decide) (by decide) rfl) ?_,
    fun slot odd => takesTrap_of ?_, fun slot even fenced => ?_⟩
  · show execSpawn b a d s = _
    simp only [execSpawn, notHandler, if_pos slot]
  · show execSpawn b a d s = _
    simp only [execSpawn, notHandler, if_neg slot, odd, if_true]
  have calm : CalmCores s u := (calm_resolveCore _ _ _ s).toCalmCores
  have run : exec (.spawn b a d) s = finish (spawnTo s b a d r.1 u) := exec_spawn slot even fenced
  have own (hr : r.1 = .core c) : exec (.spawn b a d) s =
      finish (.ok () (spawnAnswered (spawnClaim u.curCore u.curSlot u.curCore pc (me u).argWords u).1
        (spawnClaim u.curCore u.curSlot u.curCore pc (me u).argWords u).2.1 pc d (me u).argWords
        (spawnClaim u.curCore u.curSlot u.curCore pc (me u).argWords u).2.2)) := by
    rw [run, hr, calm.curCore, calm.me]
    exact congrArg finish ((if_neg (fun h => h rfl)).trans (if_pos rfl))
  have hc : u.curCore.val = c := congrArg Fin.val calm.curCore
  have hjob : (myCore u).job = job := calm.myJob
  refine ⟨fun other => ?_, fun x hx col ne => ?_, fun hr j0 => ?_, fun hr j0 => ⟨fun j free ready home => ?_, fun none few home => ?_, fun none many => ?_⟩⟩
  · refine spawn_answers ?_ calm
    rw [run]
    cases hr : r.1 with
    | core x => exact congrArg finish (if_pos (other x hr))
    | device _ => rfl
    | none => rfl
  · have word : (me u).argWords = #v[gr s 14, gr s 15, gr s 16, gr s 17] := by rw [calm.me]; rfl
    let p := newPkt u (.spawn pc (me u).argWords ((gr s b).setWidth 20) d) x 0 .mesh
    have left : exec (.spawn b a d) s = .next (park (.spawn d) (sendPkt u p)) := by
      rw [run, hx, spawnTo]
      refine (congrArg finish ((if_neg (fun h => h col)).trans (if_neg ne))).trans ?_
      rw [calm.gr, ← calm.me]; rfl
    have parks := parksFor_park (.spawn d) (sendPkt u p)
    have rest := restKept_park (.spawn d) (sendPkt u p)
    refine ⟨_, p, left, ⟨parks.parked, parks.wait, parks.pc, parks.regs, parks.kept, parks.count⟩, ⟨⟨rest.others.slots, rest.others.cores⟩, rest.memory, ?_⟩,
      net_of_kept rest.machine, by simp [fromMe, p, newPkt], rfl, by rw [← word]; rfl⟩
    rw [rest.machine]; rfl
  · refine spawn_answers ?_ calm
    rw [own hr, spawnClaim_stranger pc u (hjob.trans j0)]; rfl
  · rw [← hc] at free ⊢
    have ne : j ≠ u.curSlot := by
      rintro rfl
      have idle := childSlot_idle free
      have st : (hartAt u u.curCore u.curSlot).st = .ready := (congrArg Hart.st calm.me).trans ready
      rw [idle] at st; cases st
    have placed := child_done (d := d) pc ne home
    obtain ⟨t, ht⟩ : ∃ t, t = done4 d 0 (placeChild u.curCore u.curSlot u.curCore j pc (me u).argWords u) := ⟨_, rfl⟩
    dsimp only at placed
    rw [← ht] at placed
    obtain ⟨on, wrote, hart, child, others, counted, net⟩ := placed
    rw [calm.me] at on
    rw [calm.me, hjob] at counted
    refine ⟨t, ?_, on, wrote, hart, child, ?_, counted, net⟩
    · rw [own hr, spawnClaim_own pc u (by rw [hjob]; exact j0), free, ht]; rfl
    · rw [← calm.curSlot]; exact others
  · have called := inline_done (d := d) pc home
    obtain ⟨t, ht⟩ : ∃ t, t = inlineChild pc d (me u).argWords u := ⟨_, rfl⟩
    dsimp only at called
    rw [← ht] at called
    obtain ⟨inlined, others, counted, net⟩ := called
    rw [calm.me, hjob] at counted
    refine ⟨t, ?_, inlined, others, counted, net⟩
    · rw [own hr, spawnClaim_own pc u (by rw [hjob]; exact j0), show childSlot u u.curCore = .none from hc ▸ none]
      rw [← calm.me] at few
      simp only [if_pos few]
      rw [ht]; rfl
  · refine spawn_answers ?_ calm
    rw [own hr, spawnClaim_own pc u (by rw [hjob]; exact j0), show childSlot u u.curCore = .none from hc ▸ none]
    rw [← calm.me] at many
    simp only [if_neg (Nat.not_lt.mpr many)]; rfl

end Sys2Proof.Machine
end

section
/-!
PROOFS. `suspend`, `emit`, `end` and `hend`: stage queues and the end of a record (R381, R384, R390 to R392, R394).
-/

namespace Sys2Proof.Machine

set_option Elab.async false

variable {s : State}

/-! ## Numbers by their digits -/

theorem sum_digits_lt {B : Nat} (f : Nat → Nat) (hf : ∀ i, f i < B) : ∀ n, ((List.range n).map fun i => f i * B ^ i).sum < B ^ n
  | 0 => by simp
  | n + 1 => by
    rw [List.range_succ, List.map_append, List.sum_append]
    have low := sum_digits_lt f hf n
    have top : f n * B ^ n + B ^ n ≤ B ^ (n + 1) := by
      rw [Nat.pow_succ, Nat.mul_comm (B ^ n), ← Nat.succ_mul]
      exact Nat.mul_le_mul_right _ (hf n)
    simp only [List.map_cons, List.map_nil, List.sum_cons, List.sum_nil]
    omega

/-- Digit k of a number written in base B. -/
theorem sum_digits {B : Nat} (f : Nat → Nat) (hf : ∀ i, f i < B) : ∀ {n k : Nat}, k < n →
    ((List.range n).map fun i => f i * B ^ i).sum / B ^ k % B = f k
  | 0, _, h => absurd h (Nat.not_lt_zero _)
  | n + 1, k, h => by
    have pos : 0 < B := Nat.lt_of_le_of_lt (Nat.zero_le _) (hf 0)
    have low := sum_digits_lt f hf n
    rw [List.range_succ, List.map_append, List.sum_append]
    simp only [List.map_cons, List.map_nil, List.sum_cons, List.sum_nil, Nat.add_zero]
    obtain lt | rfl := Nat.lt_or_eq_of_le (Nat.le_of_lt_succ h)
    · have split : f n * B ^ n = B ^ k * (B * (f n * B ^ (n - k - 1))) := by
        have : n = k + (1 + (n - k - 1)) := by omega
        calc f n * B ^ n = f n * B ^ (k + (1 + (n - k - 1))) := by rw [← this]
          _ = _ := by rw [Nat.pow_add, Nat.pow_add, Nat.pow_one]; ring
      rw [split, Nat.add_mul_div_left _ _ (Nat.pow_pos pos), Nat.add_mul_mod_self_left]
      exact sum_digits f hf lt
    · rw [Nat.add_mul_div_right _ _ (Nat.pow_pos pos), Nat.div_eq_of_lt low, Nat.zero_add, Nat.mod_eq_of_lt (hf k)]

/-- What memory reads as, from its bytes. -/
theorem memRead_of_bytes {m : List Host.Cell} : ∀ {n a x : Nat}, (∀ i, i < n → memGet m (a + i) = BitVec.ofNat 8 (x / 256 ^ i)) →
    memRead m a n = x % 256 ^ n
  | 0, _, _, _ => by simp [memRead, Nat.mod_one]
  | n + 1, a, x, h => by
    have first : memGet m a = BitVec.ofNat 8 x := by simpa using h 0 (Nat.succ_pos _)
    have rest : memRead m (a + 1) n = x / 256 % 256 ^ n := memRead_of_bytes fun i hi => by
      rw [Nat.add_assoc, Nat.add_comm 1 i, h (i + 1) (by omega), Nat.div_div_eq_div_mul, ← Nat.pow_succ']
    rw [memRead, first, rest, BitVec.toNat_ofNat]
    show x % 256 + 256 * (x / 256 % 256 ^ n) = x % 256 ^ (n + 1)
    rw [Nat.pow_succ', Nat.mod_mul]

/-! ## A continuation record enters a stage queue (R381, R382) -/

/-- A write at a homed place touches no more than a read there. -/
theorem touched_distWrite {a n x : Nat} (home : homed s a = true) : Touched s (distWrite a n x s) := by
  rw [homed, Bool.and_eq_true] at home
  obtain ⟨none, place⟩ := home
  unfold distWrite ownerWrite
  split
  · exact (homed_logError _ _ _ _ _).touched
  · split at place
    · next col off target =>
      rw [target]
      simp only [if_true, collectAll_none none]
      split
      · exact (homed_sliceTouch _ _ _ _).touched.trans (touched_homeWriteLine _ _ _ _)
      · have read := (homed_homeRead col s off a true).touched
        split
        · exact read.trans (.memory _ _)
        · exact read
    · cases place

theorem touched_poolPut {job : BitVec 32} {k off n x : Nat} (home : homed s (poolAt s job k + off) = true) : Touched s (poolPut s job k off n x) := by
  unfold poolPut
  split
  · exact .refl s
  · exact touched_distWrite home

/-- Homed places stay homed while the cores are as before. -/
theorem homed_of_touched {t : State} (h : Touched s t) (cores : t.cores = s.cores) (a : Nat) : homed t a = homed s a := by
  have dev : t.fabric.dev = s.fabric.dev := (congrArg Fabric.dev h.fabric :)
  have bus (k : Fin 8) : (colAt t k).vbstat = (colAt s k).vbstat := (congrArg Column.vbstat (h.cols k) :)
  have target : targetOf t a = targetOf s a := by unfold targetOf; rw [dev]
  unfold homed
  rw [cores, target]
  congr 1
  split
  · rw [bus]
  · rfl

/-- The bytes of a whole line written at a homed place. -/
theorem byteAt_distWrite_line {a x : Nat} (home : homed s a = true) (ok : State.memOk s) (line : a % 64 = 0) {i : Nat} (hi : i < 64)
    (hx : x < 256 ^ 64) : byteAt (distWrite a 64 x s) (a + i) = BitVec.ofNat 8 (x / 256 ^ i) := by
  rw [homed, Bool.and_eq_true] at home
  obtain ⟨none, place⟩ := home
  unfold distWrite ownerWrite
  split at place
  · next col off target =>
    have bus : (colAt s col).vbstat.getLsbD 63 = false := by simpa using place
    have degraded : degradedAt s a = false := by
      obtain ⟨-, -, -, same, -, -⟩ := targetOf_dram.mp target
      rw [degradedAt, show (⟨gpaCol a, Nat.mod_lt _ (by decide)⟩ : Fin 8) = col from Fin.ext same.symm, bus, Bool.and_false]
    rw [degraded, target]
    simp only [Bool.false_eq_true, if_false, if_true, collectAll_none none]
    have ok' : State.memOk (sliceTouch col off true s) := (homed_sliceTouch _ _ _ _).ok ok
    rw [byteAt_homeWriteLine _ _ _ _ ok', if_pos (by omega), show (a + i) % 64 = i by omega]
    have big : x < 2 ^ (8 * 64) := (Nat.pow_mul 2 8 64).symm ▸ hx
    rw [BitVec.toNat_ofNat, Nat.mod_eq_of_lt big]
  · cases place

/-- The line of a continuation record, as a number. -/
def contLine (c : Vector (BitVec 64) 8) : Nat := ((List.range 8).map fun i => (vget c i).toNat * 2 ^ (64 * i)).sum

theorem contLine_digits (c : Vector (BitVec 64) 8) :
    contLine c < 256 ^ 64 ∧ ∀ n : Fin 8, contLine c / 256 ^ (8 * n.val) % 256 ^ 8 = (c.get n).toNat := by
  have line : contLine c = ((List.range 8).map fun i => (vget c i).toNat * (256 ^ 8) ^ i).sum := by
    unfold contLine
    simp only [Nat.pow_mul]
    norm_num
  have digit (i : Nat) : (vget c i).toNat < 256 ^ 8 := (vget c i).isLt
  refine ⟨?_, fun n => ?_⟩
  · rw [line]
    exact (sum_digits_lt (fun i => (vget c i).toNat) digit 8).trans_le (by norm_num)
  · rw [line, Nat.pow_mul, sum_digits (fun i => (vget c i).toNat) digit n.isLt, vget_eq _ n.isLt]; rfl

/-- A record's place in its ring, once written there. -/
theorem dword_distWrite {a : Nat} (home : homed s a = true) (ok : State.memOk s) (line : a % 64 = 0) (c : Vector (BitVec 64) 8) (n : Fin 8) :
    dword (distWrite a 64 (contLine c) s).mem (a + 8 * n.val) = c.get n := by
  obtain ⟨small, digits⟩ := contLine_digits c
  have bytes (i : Nat) (hi : i < 8) : memGet (distWrite a 64 (contLine c) s).mem (a + 8 * n.val + i) =
      BitVec.ofNat 8 (contLine c / 256 ^ (8 * n.val) / 256 ^ i) := by
    rw [Nat.add_assoc, Nat.div_div_eq_div_mul, ← Nat.pow_add]
    exact byteAt_distWrite_line home ok line (by omega) small
  rw [dword, memRead_of_bytes bytes, digits]
  exact BitVec.eq_of_toNat_eq (by simp)

/-- A queue with one more record at its end (R381). -/
def LRec.queued (r : LRec) (st : Nat) (c : Vector (BitVec 64) 8) : LRec :=
  { r with queues := vput r.queues st (r.queues.toList.getD st [] ++ [c]), pushed := vput r.pushed st (r.pushed.toList.getD st 0 + 1) }

theorem getD_vput {α : Type} {n : Nat} (v : Vector α n) {i : Nat} (hi : i < n) (x d : α) : (vput v i x).toList.getD i d = x := by
  rw [vput, dif_pos hi]
  simp [hi]

theorem pushCont_eq (job : BitVec 32) (k st : Nat) (c : Vector (BitVec 64) 8) : pushCont job k st c s =
    updRec (distWrite (ringPlace s job k st) 64 (contLine c) s) job k fun r =>
      { r with queues := vput r.queues st (r.queues.toList.getD st [] ++ [c])
               pushed := vput r.pushed st ((recOf s job k).pushed.toList.getD st 0 + 1) } := rfl

section
variable {job : BitVec 32} {k st : Nat} {c : Vector (BitVec 64) 8}

theorem recordIs_pushCont (listed : (findJob s job).isSome = true) : RecordIs s (pushCont job k st c s) job k ((recOf s job k).queued st c) := by
  rw [pushCont_eq]
  have calm := calm_distWrite s (ringPlace s job k st) 64 (contLine c)
  have := (RecordIs.of_calm (job := job) (k := k) calm).trans (recordIs_updRec k (by rw [calm.findJob]; exact listed) fun r =>
      { r with queues := vput r.queues st (r.queues.toList.getD st [] ++ [c])
               pushed := vput r.pushed st ((recOf s job k).pushed.toList.getD st 0 + 1) })
  rw [calm.recOf] at this
  exact this

theorem homeWrote_pushCont (home : homed s (ringPlace s job k st) = true) (line : ringPlace s job k st % 64 = 0) :
    HomeWrote s (distWrite (ringPlace s job k st) 64 (contLine c) s) (ringPlace s job k st) 64 := homeWrote_distWrite home fun _ => line

theorem cores_pushCont (home : homed s (ringPlace s job k st) = true) (line : ringPlace s job k st % 64 = 0) :
    (pushCont job k st c s).cores = s.cores := (homeWrote_pushCont home line).cores

theorem pushed_pushCont {t : State} (listed : (findJob s job).isSome = true) (ok : State.memOk s) (home : homed s (ringPlace s job k st) = true)
    (line : ringPlace s job k st % 64 = 0) (st8 : st < 8) (rec' : recOf t job k = recOf (pushCont job k st c s) job k)
    (mem : t.mem = (pushCont job k st c s).mem) : Pushed s t job k st c := by
  refine ⟨?_, fun n => ?_⟩
  · rw [rec', (recordIs_pushCont listed).record]
    exact getD_vput _ st8 _ _
  · rw [mem]; exact dword_distWrite home ok line c n

end

/-! ## A slot becomes idle (R385, R390) -/

/-- The hart of a slot that has become idle. -/
def Hart.idled (h : Hart) : Hart := { h with st := .idle, back := .idle, hasRec := false, frames := [] }

/-- The issuing hart's slot is idle after its instruction: what `suspend` and the last `end` leave of it. -/
structure SlotIdle (s t : State) : Prop where
  st : (me t).st = .idle
  pc : (me t).pc = (me s).pc + 4
  record : (me t).hasRec = false
  regs : ∀ r, gr t r = gr s r
  count : (myCore t).instret = (myCore s).instret + 1

theorem restKept_trans {s t u : State} (h : RestKept s t) (core : t.curCore = s.curCore) (slot : t.curSlot = s.curSlot) (g : RestKept t u) :
    RestKept s u := by
  have same : myCore t = coreAt t s.curCore := by rw [myCore, core]
  refine ⟨g.core.trans h.core, ⟨fun k hk => ?_, fun c hc => ?_⟩, fun a => (g.memory a).trans (h.memory a), g.machine.trans h.machine⟩
  · have := g.others.slots k (by rw [slot]; exact hk)
    rw [core] at this
    exact this.trans (h.others.slots k hk)
  · exact (g.others.cores c (by rw [core]; exact hc)).trans (h.others.cores c hc)

theorem tryMove_unmarked {c : Nat} (h : (coreAt s c).marked = none) : tryMove c s = s := by
  unfold tryMove
  dsimp only
  rw [h]

theorem leaderOf_calm {u : State} (calm : CalmCores s u) : leaderOf u u.curCore = leaderOf s s.curCore := by
  unfold leaderOf Core.gang
  simp only [calm.curCore, calm.gangSize, calm.gangLeader]

theorem curCore_of_kept {s t : State} (h : t.kept = s.kept) : t.curCore = s.curCore := (congrArg State.curCore h :)

theorem coreKept_of_restKept {t : State} (h : RestKept s t) (c : Nat) : (coreAt t c).kept = (coreAt s c).kept := by
  by_cases same : c = s.curCore.val
  · have core : (coreAt t t.curCore).kept = (coreAt s s.curCore).kept := h.core
    rw [curCore_of_kept h.machine] at core
    rw [same]; exact core
  · rw [h.others.cores c same]

theorem marked_of_kept {t : State} (h : ∀ c, (coreAt t c).kept = (coreAt s c).kept) (c : Nat) : (coreAt t c).marked = (coreAt s c).marked :=
  (congrArg Core.marked (h c) :)

theorem leaderOf_of_kept {t : State} (h : ∀ c, (coreAt t c).kept = (coreAt s c).kept) (c : Nat) : leaderOf t c = leaderOf s c := by
  have size : (coreAt t c).gangSize = (coreAt s c).gangSize := (congrArg Core.gangSize (h c) :)
  have lead : (coreAt t c).gangLeader = (coreAt s c).gangLeader := (congrArg Core.gangLeader (h c) :)
  unfold leaderOf Core.gang
  simp only [size, lead]

/-- The state in which the issuing slot has become idle. -/
theorem goIdle_idle {u : State} (calm : CalmCores s u) (unmarked : (coreAt s (leaderOf s s.curCore)).marked = none) :
    SlotIdle s (goIdle u) ∧ RestKept u (goIdle u) ∧ (me (goIdle u)).wait = .none ∧ (goIdle u).curCore = u.curCore ∧ (goIdle u).curSlot = u.curSlot := by
  have rest : RestKept u (updMe (retire 4 u) Hart.idled) :=
    restKept_trans (restKept_retireAt _ u) rfl rfl (restKept_updMe _ _)
  have hart : me (updMe (retire 4 u) Hart.idled) = ((me u).retired ((me u).pc + 4)).idled := by rw [me_updMe, retire, me_retireAt]
  have form : goIdle u = updMe (retire 4 u) Hart.idled := by
    refine tryMove_unmarked (s := updMe (retire 4 u) Hart.idled) ?_
    have core := coreKept_of_restKept rest
    have leader : leaderOf (updMe (retire 4 u) Hart.idled) u.curCore = leaderOf s s.curCore := by
      rw [leaderOf_of_kept core, leaderOf_calm calm]
    show (coreAt (updMe (retire 4 u) Hart.idled) (leaderOf (updMe (retire 4 u) Hart.idled) u.curCore)).marked = none
    rw [leader, marked_of_kept core, calm.marked]; exact unmarked
  rw [form]
  refine ⟨⟨by rw [hart]; rfl, ?_, by rw [hart]; rfl, fun r => ?_, ?_⟩, rest, by rw [hart]; rfl, rfl, rfl⟩
  · rw [hart, calm.me]; rfl
  · rw [gr, hart, ← calm.gr]; rfl
  · rw [myCore_updMe]
    show (myCore (retire 4 u)).instret = _
    exact (goesOn_retireAt ((me u).pc + 4) u).count.trans (by rw [calm.myInstret])

/-! ## A record that is complete (R384) -/

theorem get_mapHarts (q : Core) (f : Fin 8 → Hart → Hart) (k : Fin 8) : (q.mapHarts f).harts.get k = f k (q.harts.get k) := by
  show (Vector.ofFn fun k => f k (q.harts.get k))[k.val] = _
  rw [Vector.getElem_ofFn]

/-- A hart of a core that leaves its stage (R144, R380): a follower's slot is on its own again. -/
def Hart.unfollowed (h : Hart) : Hart :=
  match h.wait with
  | .follower busy => (h.become (if busy then .ready else .idle)).waiting .none
  | _ => h

theorem unfollowed_plain {h : Hart} (plain : h.wait = .none) : h.unfollowed = h := by unfold Hart.unfollowed; rw [plain]

/-- A core that has left its stage, but for its harts (R132, R380). -/
def Core.unbound (q : Core) : Core :=
  { q with
    ctxjob := setBits (setBits q.ctxjob 0 47 36) 0 34 32, bound := false, marked := none, binding := none
    gangSize := 0, gangPos := 0, gangLeader := 0, vec := Vec.bindTo none }

theorem unbindCore_eq (c : Nat) (s : State) : unbindCore c s = updCore s c fun q => (q.mapHarts fun _ h => h.unfollowed).unbound := rfl

theorem sameHart_unbindCore (c : Nat) (plain : (me s).wait = .none) : SameHart s (unbindCore c s) := by
  rw [unbindCore_eq]
  have core : coreAt (updCore s c fun q => (q.mapHarts fun _ h => h.unfollowed).unbound) s.curCore =
      if s.curCore.val = c then ((coreAt s c).mapHarts fun _ h => h.unfollowed).unbound else myCore s := coreAt_updCore _ _ _ _
  have hart : me (updCore s c fun q => (q.mapHarts fun _ h => h.unfollowed).unbound) = me s := by
    refine (congrArg (fun q : Core => q.harts.get s.curSlot) core).trans ?_
    split
    · next same =>
      rw [← same]
      exact (get_mapHarts _ _ _).trans (unfollowed_plain plain)
    · rfl
  refine ⟨rfl, rfl, hart, (congrArg Core.instret core).trans ?_⟩
  split
  · next same => rw [← same]; rfl
  · rfl

theorem sameHart_foldl {α : Type} (f : State → α → State) (h : ∀ s x, (me s).wait = .none → SameHart s (f s x) ∧ (f s x).dist = s.dist) :
    ∀ (l : List α) (s : State), (me s).wait = .none → SameHart s (l.foldl f s) ∧ (l.foldl f s).dist = s.dist
  | [], _, _ => ⟨⟨rfl, rfl, rfl, rfl⟩, rfl⟩
  | x :: l, s, plain => by
    obtain ⟨same, dist⟩ := h s x plain
    obtain ⟨same', dist'⟩ := sameHart_foldl f h l (f s x) (by rw [same.hart]; exact plain)
    exact ⟨same.trans same', dist'.trans dist⟩

theorem recOf_of_dist {t : State} (h : t.dist = s.dist) (job : BitVec 32) (k : Nat) : recOf t job k = recOf s job k := by
  rw [recOf, findJob, h]; rfl

theorem sameHart_checkDone (job : BitVec 32) (k : Nat) (plain : (me s).wait = .none) :
    SameHart s (checkDone job k s) ∧ (recOf (checkDone job k s) job k).live = (recOf s job k).live := by
  unfold checkDone
  dsimp only
  split
  · next done =>
    have listed : (findJob s job).isSome = true := listed_of_status (k := k) (by rw [done.1]; decide)
    have ended := recordIs_endRecord k listed stDone
    have calm := ended.toCalmCores
    obtain ⟨same, dist⟩ := sameHart_foldl (fun s st => (stageCores s job k st).foldl (fun s c => unbindCore c s) s)
      (fun s st plain => sameHart_foldl (fun s c => unbindCore c s) (fun s c plain => ⟨sameHart_unbindCore c plain, rfl⟩) _ s plain)
      (List.range (recOf s job k).nstage) (endRecord job k stDone s) (by rw [calm.me]; exact plain)
    refine ⟨calm.sameHart.trans same, ?_⟩
    rw [recOf_of_dist dist, ended.record]
  · exact ⟨⟨rfl, rfl, rfl, rfl⟩, rfl⟩

/-! ## The instructions, case by case -/

section
variable {a d : BitVec 5} (slot : s.curSlot ≠ 7) (fenced : Fenced s)

/-- The continuation record `suspend` leaves, and the one `emit` leaves (R382, R390, R391). -/
def suspendRec (s : State) (a : BitVec 5) : Vector (BitVec 64) 8 :=
  contRec ((recOf s (myCore s).job (me s).lrec.toNat).vector ((gr s a).toNat % 8)) (myCore s).job ((me s).pc + 4) (me s).lrec.toNat
    ((gr s a).toNat % 8) #v[gr s 10, gr s 11, gr s 12, gr s 13] (me s).unit

def emitRec (s : State) : Vector (BitVec 64) 8 :=
  contRec ((recOf s (myCore s).job (me s).lrec.toNat).vector ((me s).stage.toNat + 1)) (myCore s).job
    (BitVec.ofNat 48 ((recOf s (myCore s).job (me s).lrec.toNat).entry ((me s).stage.toNat + 1))) (me s).lrec.toNat ((me s).stage.toNat + 1)
    #v[gr s 14, gr s 15, gr s 16, gr s 17] (me s).unit

include slot fenced

theorem exec_suspend (rec' : (me s).hasRec = true) (inside : (gr s a).toNat % 8 < (recOf s (myCore s).job (me s).lrec.toNat).nstage)
    (frames : (me s).frames = []) : exec (.suspend a) s =
    finish (if queueFull s (myCore s).job (me s).lrec.toNat ((gr s a).toNat % 8) then .hold (park .stageQueue s)
      else .ok () (goIdle (pushCont (myCore s).job (me s).lrec.toNat ((gr s a).toNat % 8) (suspendRec s a) s))) := by
  show execSuspend a s = _
  unfold execSuspend notHandler
  dsimp only
  rw [if_neg slot, if_neg (by rw [rec']; simpa [frames] using inside), settled_of_fenced fenced]
  rfl

theorem exec_emit (rec' : (me s).hasRec = true) : exec (.emit d) s =
    finish (if (recOf s (myCore s).job (me s).lrec.toNat).nstage ≤ (me s).stage.toNat + 1 then .ok () (done4 d 1 s)
      else if queueFull s (myCore s).job (me s).lrec.toNat ((me s).stage.toNat + 1) then .hold (park .stageQueue s)
      else .ok () (done4 d 0 (setLive (pushCont (myCore s).job (me s).lrec.toNat ((me s).stage.toNat + 1) (emitRec s) s) (myCore s).job (me s).lrec.toNat
        ((recOf s (myCore s).job (me s).lrec.toNat).live + 1)))) := by
  show execEmit d s = _
  unfold execEmit notHandler
  dsimp only
  rw [if_neg slot, if_neg (by rw [rec']; decide), settled_of_fenced fenced]
  rfl

/-- `end` with its writes covered (R392). -/
theorem exec_endI (out : covered s 6 = true) : exec .endI s =
    let v := updMe s Hart.covered
    finish (match (me s).frames with
      | f :: rest => .ok () (retireAt f.ret (setG (updMe (liveBy v.curCore v.curSlot false v) fun h => { h with frames := rest }) f.d 1))
      | [] => .ok () (if (me s).hasRec then resolveAll (checkDone (myCore v).job (me s).lrec.toNat (goIdle (liveBy v.curCore v.curSlot false v)))
          else goIdle (liveBy v.curCore v.curSlot false v))) := by
  have clear : nothingOut s s.curCore s.curSlot = true ∧ unroutable s (me s) = none ∧ (me s).unsent = none ∧ (me s).errAck = none := by
    simpa [covered, and_assoc] using out
  obtain ⟨nothing, route, unsent, err⟩ := clear
  show execEndI s = _
  unfold execEndI notHandler
  dsimp only
  rw [if_neg slot, withRelease_covered fenced (by decide) nothing route unsent err]
  have hv : me (updMe s Hart.covered) = (me s).covered := me_updMe _ _
  rw [hv]
  rfl

end

/-- The traps of the record instructions (R388). -/
theorem notHandler_trap {word : BitVec 64} {k : State → Res Unit} (h : s.curSlot = 7) : notHandler word s k = .trap .slot word s := if_pos h

/-- LIVE after a covered `end`: its record counts one fewer. -/
theorem liveChanged_end (home : liveHomed s = true) :
    let v := updMe s Hart.covered
    LiveChanged v (liveBy v.curCore v.curSlot false v) (myCore s).job (me s).lrec.toNat ((recOf s (myCore s).job (me s).lrec.toNat).live - 1)
      (me s).hasRec := by
  intro v
  have hart : hartAt v v.curCore v.curSlot = (me s).covered := me_updMe _ _
  have job : (coreAt v v.curCore).job = (myCore s).job := by
    show (myCore v).job = _
    rw [myCore_updMe]; rfl
  have home' : (!(hartAt v v.curCore v.curSlot).hasRec ||
      homed v (poolAt v (coreAt v v.curCore).job (hartAt v v.curCore v.curSlot).lrec.toNat + 48)) = true := by
    rw [hart, job]
    unfold liveHomed at home
    cases h : (me s).hasRec with
    | false => rw [show (me s).covered.hasRec = (me s).hasRec from rfl, h]; rfl
    | true =>
      rw [h] at home
      rw [show (me s).covered.hasRec = (me s).hasRec from rfl, h]
      exact homed_updCore (home : homed s _ = true) _ _ rfl
  have live := liveChanged_liveBy (s := v) false home'
  rw [hart, job] at live
  exact live

/-- What an instruction leaves that goes on in a state u with the cores of s. -/
theorem othersKept_of_cores {u t : State} (core : u.curCore = s.curCore) (slot : u.curSlot = s.curSlot) (cores : u.cores = s.cores)
    (h : OthersKept u t) : OthersKept s t := by
  refine ⟨fun k hk => ?_, fun c hc => ?_⟩
  · have := h.slots k (by rw [slot]; exact hk)
    rw [core] at this
    exact this.trans (by rw [hartAt, coreAt_congr cores]; rfl)
  · exact (h.cores c (by rw [core]; exact hc)).trans (coreAt_congr cores c)

theorem mem_of_kept {s t : State} (h : t.kept = s.kept) : t.mem = s.mem := (congrArg State.mem h :)

section
variable {st : Nat} {c : Vector (BitVec 64) 8} {job : BitVec 32} {k : Nat} (listed : (findJob s job).isSome = true)
  (line : ringPlace s job k st % 64 = 0) (home : homed s (ringPlace s job k st) = true)
include listed line home

/-- A record pushed by a `suspend` in a free place: the slot is idle and the record stands in its queue (R390). -/
theorem suspend_pushed (st8 : st < 8) (ok : State.memOk s) (unmarked : (coreAt s (leaderOf s s.curCore)).marked = none) :
    let t := goIdle (pushCont job k st c s)
    SlotIdle s t ∧ Pushed s t job k st c ∧ OthersKept s t ∧
      ∀ x, x < ringPlace s job k st ∨ ringPlace s job k st + 64 ≤ x → byteAt t x = byteAt s x := by
  have calm := (recordIs_pushCont (k := k) (st := st) (c := c) listed).toCalmCores
  obtain ⟨idle, rest, -, -, -⟩ := goIdle_idle calm unmarked
  exact ⟨idle, pushed_pushCont listed ok home line st8 (recOf_of_kept rest.machine _ _) (mem_of_kept rest.machine),
    othersKept_of_cores calm.curCore calm.curSlot (cores_pushCont home line) rest.others,
    fun x hx => (rest.memory x).trans ((homeWrote_pushCont home line).memory x hx)⟩

/-- A record pushed by an `emit`: it stands in its queue, and LIVE counts one more (R391). -/
theorem emit_pushed (st8 : st < 8) (live : homed s (poolAt s job k + 48) = true) (n : Nat) (d : BitVec 5) :
    let t := done4 d 0 (setLive (pushCont job k st c s) job k n)
    GoesOn s t ((me s).pc + 4) ∧ Wrote s t d 0 ∧ (me t).kept = (me s).kept ∧
      (recOf t job k).queues.toList.getD st [] = (recOf s job k).queues.toList.getD st [] ++ [c] ∧ (recOf t job k).live = n ∧ OthersKept s t ∧
      ∀ x, x < ringPlace s job k st ∨ ringPlace s job k st + 64 ≤ x → x < poolAt s job k + 48 ∨ poolAt s job k + 56 ≤ x → byteAt t x = byteAt s x := by
  have pushed := recordIs_pushCont (k := k) (st := st) (c := c) listed
  have is := pushed.trans (recordIs_setLive k ((pushed.listed _).trans listed) n)
  rw [pushed.record] at is
  have calm := is.toCalmCores
  have pool : poolAt (pushCont job k st c s) job k = poolAt s job k := by
    rw [pushCont_eq, poolAt_updRec, (calm_distWrite s _ 64 (contLine c)).poolAt]
  have home' : homed (pushCont job k st c s) (poolAt (pushCont job k st c s) job k + 48) = true := by
    rw [pool]
    exact (homed_of_touched (touched_distWrite (x := contLine c) home) (cores_pushCont (c := c) home line) _).trans live
  have wrote := homeWrote_setLive (n := n) home'
  rw [pool] at wrote
  obtain ⟨w, hw⟩ : ∃ w, w = setLive (pushCont job k st c s) job k n := ⟨_, rfl⟩
  rw [← hw] at calm wrote is ⊢
  obtain ⟨on, wr, hart, rest⟩ := retire_setG calm.sameHart 4 d 0
  have same : recOf (done4 d 0 w) job k = recOf w job k := recOf_of_kept rest.machine _ _
  refine ⟨on, wr, hart, ?_, by rw [same, is.record],
    othersKept_of_cores calm.curCore calm.curSlot (wrote.cores.trans (cores_pushCont (c := c) home line)) rest.others,
    fun x out out' => (rest.memory x).trans ((wrote.memory x out').trans ((homeWrote_pushCont (c := c) home line).memory x out))⟩
  rw [same, is.record]
  exact getD_vput _ st8 _ _

end

section
variable {f : Frame} {l : List Frame}

/-- `end` of an inline child: its caller goes on, with 1 in its register (R392). -/
theorem end_inline (home : liveHomed s = true) :
    let v := updMe s Hart.covered
    let t := retireAt f.ret (setG (updMe (liveBy v.curCore v.curSlot false v) fun h => { h with frames := l }) f.d 1)
    GoesOn s t f.ret ∧ Wrote s t f.d 1 ∧ (me t).frames = l ∧ OthersKept s t ∧
      (if (me s).hasRec = true ∧ (findJob s (myCore s).job).isSome = true then
          LiveIs s t (myCore s).job (me s).lrec.toNat ((recOf s (myCore s).job (me s).lrec.toNat).live - 1)
        else ∀ x, byteAt t x = byteAt s x) := by
  intro v t
  have live := liveChanged_end home
  have calm := calmCores_liveBy (s := v) v.curCore v.curSlot false
  obtain ⟨w, hw⟩ : ∃ w, w = liveBy v.curCore v.curSlot false v := ⟨_, rfl⟩
  have ht : t = retireAt f.ret (updMe w fun h => ({ h with frames := l } : Hart).setG f.d 1) := by
    rw [hw]
    show retireAt f.ret (updMe (updMe _ _) _) = _
    rw [updMe_updMe]
  dsimp only at live
  rw [← hw] at live calm
  clear_value t
  have rest := restKept_retireAt_updMe f.ret w fun h => ({ h with frames := l } : Hart).setG f.d 1
  have on := goesOn_retireAt_updMe f.ret w (fun h => ({ h with frames := l } : Hart).setG f.d 1) (setG_st _ _ _)
  rw [← ht] at rest on
  have hart : me t = (({ (me s).covered with frames := l } : Hart).setG f.d 1).retired f.ret := by
    rw [ht, me_retireAt, me_updMe, calm.me, me_updMe]
  refine ⟨goesOn_covered (calm.sameHart.goesOn on), ⟨?_, fun r hr => ?_⟩, ?_, ?_, live.retired rest rfl rfl⟩
  · rw [gr, hart, gr_retired, gr_setG, if_pos rfl]
  · rw [gr, hart, gr_retired, gr_setG, if_neg hr]; rfl
  · rw [hart]
    show (({ (me s).covered with frames := l } : Hart).setG f.d 1).frames = l
    rw [setG_rest]
  · have others := othersKept_of_cores live.cur.1 live.cur.2 live.cores rest.others
    exact ⟨fun k hk => (others.slots k hk).trans ((restKept_updMe s Hart.covered).others.slots k hk),
      fun c hc => (others.cores c hc).trans ((restKept_updMe s Hart.covered).others.cores c hc)⟩

end

theorem SlotIdle.of_covered {t : State} (h : SlotIdle (updMe s Hart.covered) t) : SlotIdle s t :=
  ⟨h.st, h.pc.trans (by rw [me_updMe]; rfl), h.record, fun r => (h.regs r).trans (by rw [gr, me_updMe]; rfl),
    h.count.trans (by rw [myCore_updMe]; rfl)⟩

theorem unmarked_covered (unmarked : (coreAt s (leaderOf s s.curCore)).marked = none) :
    (coreAt (updMe s Hart.covered) (leaderOf (updMe s Hart.covered) (updMe s Hart.covered).curCore)).marked = none := by
  have core := coreKept_of_restKept (restKept_updMe s Hart.covered)
  rw [marked_of_kept core, leaderOf_of_kept core]
  exact unmarked

/-- The last frame of a record's unit ends: LIVE counts one fewer, the slot is idle, and the record's end is checked (R384, R392). -/
theorem end_record {job : BitVec 32} {k n : Nat} (listed : (findJob s job).isSome = true) (unmarked : (coreAt s (leaderOf s s.curCore)).marked = none) :
    let t := resolveAll (checkDone job k (goIdle (setLive s job k n)))
    SlotIdle s t ∧ (recOf t job k).live = n := by
  have is := recordIs_setLive (s := s) k listed n
  obtain ⟨idle, rest, plain, -, -⟩ := goIdle_idle is.toCalmCores unmarked
  have at_end : (recOf (goIdle (setLive s job k n)) job k).live = n := by rw [recOf_of_kept rest.machine, is.record]
  generalize goIdle (setLive s job k n) = u at idle plain at_end ⊢
  obtain ⟨same, live⟩ := sameHart_checkDone job k plain
  have resolved := resolved_resolveAll (checkDone job k u)
  have both := same.trans resolved.toCalmCores.sameHart
  exact ⟨⟨by rw [both.hart]; exact idle.st, by rw [both.hart]; exact idle.pc, by rw [both.hart]; exact idle.record,
    fun r => by rw [gr, both.hart]; exact idle.regs r, by rw [both.count]; exact idle.count⟩, by rw [resolved.live, live, at_end]⟩

theorem exec_endI_record (slot : s.curSlot ≠ 7) (fenced : Fenced s) (out : covered s 6 = true) (frames : (me s).frames = [])
    (rec' : (me s).hasRec = true) : exec .endI s = .next (resolveAll (checkDone (myCore s).job (me s).lrec.toNat
      (goIdle (setLive (updMe s Hart.covered) (myCore s).job (me s).lrec.toNat ((recOf s (myCore s).job (me s).lrec.toNat).live - 1))))) := by
  obtain ⟨v, hv⟩ : ∃ v, v = updMe s Hart.covered := ⟨_, rfl⟩
  have hart : hartAt v v.curCore v.curSlot = (me s).covered := by rw [hv]; exact me_updMe _ _
  have job : (myCore v).job = (myCore s).job := by rw [hv, myCore_updMe]; rfl
  have record : recOf v (myCore s).job (me s).lrec.toNat = recOf s (myCore s).job (me s).lrec.toNat := by rw [hv]; rfl
  have on : liveBy v.curCore v.curSlot false v =
      setLive v (myCore s).job (me s).lrec.toNat ((recOf s (myCore s).job (me s).lrec.toNat).live - 1) := by
    rw [liveBy_on false (by rw [hart]; exact rec'), hart, show (coreAt v v.curCore).job = (myCore s).job from job]
    exact congrArg (fun r : LRec => setLive v _ _ (r.live - 1)) record
  rw [exec_endI slot fenced out, frames, rec']
  dsimp only
  rw [← hv, on, job, if_pos rfl]; rfl

/-- Settles O43: a queue takes a record in its next free place, and LIVE counts what runs. -/
theorem recordInstructions : Obligations.RecordInstructions := by
  intro s a d h job k r st nx sus emi trapsSlot idle place unmarked
  have word1 : BitVec.ofNat 64 (encodeWord (.suspend a)) = rWord 0x1F 1 0 a 0 := ofNat_encodeWord_launch (lo := 1) (hi := 0) (by decide) (by decide) rfl
  have word2 : BitVec.ofNat 64 (encodeWord (.emit d)) = rWord 0x1F 2 0 0 d := ofNat_encodeWord_launch (lo := 2) (hi := 0) (by decide) (by decide) rfl
  have word3 : BitVec.ofNat 64 (encodeWord .endI) = rWord 0x1F 3 0 0 0 := ofNat_encodeWord_launch (lo := 3) (hi := 0) (by decide) (by decide) rfl
  have word4 : BitVec.ofNat 64 (encodeWord .hend) = rWord 0x1F 4 0 0 0 := ofNat_encodeWord_launch (lo := 0) (hi := 1) (by decide) (by decide) rfl
  have st8 : st < 8 := Nat.mod_lt _ (by decide)
  have suspendTraps (bad : s.curSlot ≠ 7 → h.hasRec = false ∨ r.nstage ≤ st ∨ h.frames ≠ []) : trapsSlot (.suspend a) := by
    refine takesTrap_word word1 ?_
    show execSuspend a s = _
    unfold execSuspend
    by_cases slot : s.curSlot = 7
    · exact congrArg finish (notHandler_trap slot)
    · exact congrArg finish ((if_neg slot).trans (if_pos (by simpa using bad slot)))
  have emitTraps (bad : s.curSlot ≠ 7 → h.hasRec = false) : trapsSlot (.emit d) := by
    refine takesTrap_word word2 ?_
    show execEmit d s = _
    unfold execEmit
    by_cases slot : s.curSlot = 7
    · exact congrArg finish (notHandler_trap slot)
    · exact congrArg finish ((if_neg slot).trans (if_pos (by simpa using bad slot)))
  refine ⟨fun slot rec' listed fenced => ⟨fun inside frames => ⟨fun room => ?_, fun full => ?_⟩, fun last => ?_, fun inside nx8 => ⟨fun room => ?_, fun full => ?_⟩⟩,
    fun slot => ⟨suspendTraps fun h => absurd slot h, emitTraps fun h => absurd slot h, ?_⟩,
    fun no => ⟨suspendTraps fun _ => .inl no, emitTraps fun _ => no⟩, fun _ bad => suspendTraps fun _ => .inr bad,
    fun slot fenced out => ⟨fun f l frames hlisted home => ?_, fun frames no unmarked => ?_, fun frames rec' listed unmarked => ?_⟩, fun slot => ?_, fun slot => ?_⟩
  · rintro ⟨ok, line, home⟩ unmarked
    obtain ⟨idle, pushed, others, mem⟩ := suspend_pushed (c := sus) listed line home st8 ok unmarked
    refine ⟨_, ?_, ⟨idle.st, idle.pc, idle.record, idle.regs, idle.count⟩, pushed, others, mem⟩
    rw [exec_suspend slot fenced rec' inside frames, if_neg (by rw [show queueFull s (myCore s).job _ _ = false from room]; decide)]; rfl
  · refine ⟨park .stageQueue s, ?_, parksFor_park _ _, restKept_park _ _⟩
    rw [exec_suspend slot fenced rec' inside frames, if_pos full]; rfl
  · refine gives_done4 ?_
    rw [exec_emit slot fenced rec', if_pos last]; rfl
  · rintro ⟨ok, line, home⟩ live
    have live' : homed s (poolAt s job k + 48) = true := by
      unfold liveHomed at live
      rwa [show (me s).hasRec = true from rec'] at live
    obtain ⟨on, wrote, hart, queue, count, others, mem⟩ := emit_pushed (c := emi) listed line home nx8 live' (r.live + 1) d
    refine ⟨_, ?_, on, wrote, hart, queue, count, others, mem⟩
    rw [exec_emit slot fenced rec', if_neg (Nat.not_le.mpr inside), if_neg (by rw [show queueFull s (myCore s).job _ _ = false from room]; decide)]; rfl
  · refine ⟨park .stageQueue s, ?_, parksFor_park _ _, restKept_park _ _⟩
    rw [exec_emit slot fenced rec', if_neg (Nat.not_le.mpr inside), if_pos full]; rfl
  · refine takesTrap_word word3 ?_
    show execEndI s = _
    exact congrArg finish (notHandler_trap slot)
  · obtain ⟨on, wrote, rest, others, live⟩ := end_inline (f := f) (l := l) home
    refine ⟨_, ?_, on, wrote, rest, others, ?_⟩
    · rw [exec_endI slot fenced out, show (me s).frames = _ from frames]; rfl
    · cases hrec : h.hasRec with
      | true => rw [if_pos ⟨hrec, hlisted hrec⟩] at live; rw [if_pos rfl]; exact live
      | false => rw [if_neg (by rw [show (me s).hasRec = false from hrec]; simp)] at live; exact live
  · have off : liveBy s.curCore s.curSlot false (updMe s Hart.covered) = updMe s Hart.covered := liveBy_off false (by
      show (me (updMe s Hart.covered)).hasRec = false
      rw [me_updMe]; exact no)
    obtain ⟨idle, rest, -, -, -⟩ := goIdle_idle (.refl (updMe s Hart.covered)) (unmarked_covered unmarked)
    have rest := restKept_trans (restKept_updMe s Hart.covered) rfl rfl rest
    have idle := idle.of_covered
    refine ⟨_, ?_, ⟨idle.st, idle.pc, idle.record, idle.regs, idle.count⟩, rest.others, rest.memory⟩
    rw [exec_endI slot fenced out, show (me s).frames = [] from frames, show (me s).hasRec = false from no]
    show finish (.ok () (goIdle (liveBy s.curCore s.curSlot false (updMe s Hart.covered)))) = _
    rw [off]; rfl
  · have listed' : (findJob (updMe s Hart.covered) job).isSome = true := listed
    obtain ⟨ended, live⟩ := end_record (k := k) (n := r.live - 1) listed' (unmarked_covered unmarked)
    have ended := ended.of_covered
    exact ⟨_, exec_endI_record slot fenced out frames rec', ⟨ended.st, ended.pc, ended.record, ended.regs, ended.count⟩, live⟩
  · have rest : RestKept s (updMe (retire 4 s) fun h => { h with st := .idle, back := .idle }) := restKept_trans (restKept_retireAt _ s) rfl rfl (restKept_updMe _ _)
    have hart : me (updMe (retire 4 s) fun h => { h with st := .idle, back := .idle }) =
        { (me s).retired ((me s).pc + 4) with st := .idle, back := .idle } := by rw [me_updMe, retire, me_retireAt]
    refine ⟨_, ?_, by rw [hart], by rw [hart]; rfl, fun r => by rw [gr, hart]; rfl, by rw [hart]; rfl, rest⟩
    show execHend s = _
    unfold execHend
    rw [if_neg (by rw [slot]; decide)]; rfl
  · refine takesTrap_word word4 ?_
    show execHend s = _
    unfold execHend
    rw [if_pos slot]

end Sys2Proof.Machine
end

section
/-!
PROOFS. Events of messages and spawn requests on their way (R387, R389, R393).
-/

namespace Sys2Proof.Machine

set_option Elab.async false

variable {s : State}

/-! ## One hart acts while another is issuing -/

/-- The machine as hart k of core c acts. -/
def asHart (c : Nat) (k : Fin 8) (s : State) : State := { s with curCore := ⟨c % 2048, Nat.mod_lt _ (by decide)⟩, curSlot := k }

theorem actAs_eq (c : Nat) (k : Fin 8) (f : State → State) (s : State) :
    actAs c k f s = { f (asHart c k s) with curCore := s.curCore, curSlot := s.curSlot } := rfl

theorem me_asHart {c : Nat} (hc : c < 2048) (k : Fin 8) (s : State) : me (asHart c k s) = hartAt s c k := by
  show hartAt s (c % 2048) k = _
  rw [Nat.mod_eq_of_lt hc]

/-- What hart k of core c leaves that changes only itself, the hart's own instruction done or not. -/
theorem slotOnly_actAs {c : Nat} {k : Fin 8} {f : State → State} (hc : c < 2048) (h : RestKept (asHart c k s) (f (asHart c k s))) :
    SlotOnly s (actAs c k f s) c k := by
  have core : (asHart c k s).curCore.val = c := Nat.mod_eq_of_lt hc
  have machine := h.machine
  have cur := curCore_of_kept machine
  refine ⟨fun j hj => ?_, ?_, fun x hx => h.others.cores x (by rw [core]; exact hx), ?_⟩
  · have := h.others.slots j hj
    rw [core] at this; exact this
  · have kept := h.core
    rw [myCore, cur, myCore, core] at kept; exact kept
  · rw [actAs_eq]
    generalize f (asHart c k s) = t at machine
    have whole : t = { asHart c k s with cores := t.cores } := by
      cases t
      simpa [State.kept, asHart] using machine
    rw [whole]; rfl

theorem SlotOnly.of_net {s0 t : State} {c : Nat} {k : Fin 8} (h : SlotOnly s t c k) (same : { s with net := s0.net } = s0) : SlotOnly s0 t c k := by
  rw [← same]
  exact ⟨h.slots, h.core, h.cores, h.machine⟩

theorem slotOnly_updHart (c : Nat) (k : Fin 8) (f : Hart → Hart) : SlotOnly s (updHart s c k f) c k :=
  ⟨fun _ hj => hartAt_setHart_slot _ _ _ _ _ hj, by unfold updHart; rw [coreAt_setHart_self]; rfl, fun _ hx => coreAt_updCore_ne _ _ _ _ hx, rfl⟩

/-! ## Harts that an event touches -/

theorem wake_form (h : Hart) : h.wake = { h with st := h.wake.st, back := h.wake.back } := by
  unfold Hart.wake
  split
  · rfl
  · rfl
  · split <;> rfl
  · split <;> rfl
  · rfl

/-- A sender one of whose messages has ended (R393). -/
def Hart.msgEnded (h : Hart) : Hart :=
  if h.wait = .sendSlot ∨ h.wait = .messages then { h with msgsOut := h.msgsOut - 1 }.wake else { h with msgsOut := h.msgsOut - 1 }

theorem msgEnded_form (h : Hart) : h.msgEnded = { h with st := h.msgEnded.st, back := h.msgEnded.back, msgsOut := h.msgsOut - 1 } := by
  unfold Hart.msgEnded
  split
  · exact wake_form _
  · rfl

theorem noted_form (bit : BitVec 4) (h : Hart) : h.noted bit = { h with st := (h.noted bit).st, back := (h.noted bit).back, latch := h.latch ||| bit } := by
  unfold Hart.noted
  split
  · exact wake_form _
  · rfl

theorem gr_msgEnded (h : Hart) (r : BitVec 5) : h.msgEnded.gr r = h.gr r := by rw [msgEnded_form]; rfl
theorem msgsOut_msgEnded (h : Hart) : h.msgEnded.msgsOut = h.msgsOut - 1 := by rw [msgEnded_form]
theorem gr_noted (bit : BitVec 4) (h : Hart) (r : BitVec 5) : (h.noted bit).gr r = h.gr r := by rw [noted_form]; rfl
theorem msgsOut_noted (bit : BitVec 4) (h : Hart) : (h.noted bit).msgsOut = h.msgsOut := by rw [noted_form]

/-! ## A message comes to its end (R393) -/

theorem endMsg_eq {p : Pkt} (hc : p.core < 2048) (s : State) : endMsg p s = updHart (withoutPkt s p.id) p.core p.slot Hart.msgEnded :=
  if_pos hc

theorem hartAt_updHart (s : State) (c x : Nat) (k j : Fin 8) (f : Hart → Hart) :
    hartAt (updHart s c k f) x j = if x = c ∧ j = k then f (hartAt s c k) else hartAt s x j := by
  by_cases hx : x = c
  · by_cases hj : j = k
    · rw [hx, hj, if_pos ⟨rfl, rfl⟩]; exact hartAt_setHart_self _ _ _ _
    · rw [if_neg fun h => hj h.2, hx]; exact hartAt_setHart_slot _ _ _ _ _ hj
  · rw [if_neg fun h => hx h.1]; exact hartAt_setHart_core _ _ _ _ _ _ hx

theorem ring_updHart (s : State) (c x : Nat) (k : Fin 8) (f : Hart → Hart) : (coreAt (updHart s c k f) x).ring = (coreAt s x).ring := by
  unfold updHart setHart
  rw [coreAt_updCore]
  split
  · next same => rw [same]; rfl
  · rfl

/-- A message has been placed: its ring, the packets and memory, and no register (R387). -/
theorem placeMsg_placed {t : Nat} {job : BitVec 32} {m : Msg} (own : (coreAt s (leaderOf s (bankCore s job t))).job = job) (bound : job ≠ 0)
    (opened : closed s (leaderOf s (bankCore s job t)) = false)
    (room : ((coreAt s (leaderOf s (bankCore s job t))).ring.get m.cls.toFin).length < 32) :
    ∃ u, placeMsg t job m s = some u ∧ u.net = s.net ∧ u.mem = s.mem ∧
      (coreAt u (leaderOf s (bankCore s job t))).ring.get m.cls.toFin = (coreAt s (leaderOf s (bankCore s job t))).ring.get m.cls.toFin ++ [m] ∧
      ∀ c k, (∀ r, (hartAt u c k).gr r = (hartAt s c k).gr r) ∧ (hartAt u c k).msgsOut = (hartAt s c k).msgsOut := by
  have list : (coreAt s (leaderOf s (bankCore s job t))).ring.toList.getD m.cls.toNat [] =
      (coreAt s (leaderOf s (bankCore s job t))).ring.get m.cls.toFin := by
    have : m.cls.toNat < 4 := m.cls.isLt
    simp [Vector.get, this]
  unfold placeMsg
  dsimp only
  rw [list, if_neg (by rw [opened]; simp only [own, bound, ne_eq, not_true_eq_false, Bool.false_eq_true, false_or]; omega)]
  generalize leaderOf s (bankCore s job t) = x
  generalize hring : (coreAt s x).ring.get m.cls.toFin ++ [m] = ring
  refine ⟨_, rfl, rfl, rfl, ?_, fun c k => ?_⟩
  · rw [noteEvent_eq, coreAt_updCore_self, coreAt_updCore_self]
    exact (get_vput _ m.cls.isLt _ _).trans (if_pos rfl)
  · by_cases hc : c = x
    · subst hc
      have same : hartAt (updCore s c fun q => { q with ring := vput q.ring m.cls.toNat ring }) c k = hartAt s c k := by
        rw [hartAt, coreAt_updCore_self]; rfl
      rw [hartAt_noteEvent, same]
      exact ⟨gr_noted _ _, msgsOut_noted _ _⟩
    · have same : hartAt (noteEvent x 4 (updCore s x fun q => { q with ring := vput q.ring m.cls.toNat ring })) c k = hartAt s c k := by
        rw [noteEvent_eq, hartAt, coreAt_updCore_ne _ _ _ _ hc, coreAt_updCore_ne _ _ _ _ hc]; rfl
      rw [same]
      exact ⟨fun _ => rfl, rfl⟩

theorem placeMsg_refused {t : Nat} {job : BitVec 32} {m : Msg} (no : ¬ ((coreAt s (leaderOf s (bankCore s job t))).job = job ∧ job ≠ 0 ∧
    closed s (leaderOf s (bankCore s job t)) = false ∧ ((coreAt s (leaderOf s (bankCore s job t))).ring.get m.cls.toFin).length < 32)) :
    placeMsg t job m s = none := by
  have list : (coreAt s (leaderOf s (bankCore s job t))).ring.toList.getD m.cls.toNat [] =
      (coreAt s (leaderOf s (bankCore s job t))).ring.get m.cls.toFin := by
    have : m.cls.toNat < 4 := m.cls.isLt
    simp [Vector.get, this]
  unfold placeMsg
  dsimp only
  rw [list]
  refine if_pos ?_
  by_contra good
  simp only [not_or, not_not] at good
  obtain ⟨own, bound, opened, room⟩ := good
  exact no ⟨own, bound, by simpa using opened, by omega⟩

/-! ## A message is taken (R387) -/

theorem find_highest (f : Nat → Bool) {k : Fin 4} (at_k : f k.val = true) (above : ∀ j : Fin 4, k < j → f j.val = false) :
    [3, 2, 1, 0].find? f = some k.val := by
  have h3 : k.val < 3 → f 3 = false := above 3
  have h2 : k.val < 2 → f 2 = false := above 2
  have h1 : k.val < 1 → f 1 = false := above 1
  obtain ⟨k, hk⟩ := k
  dsimp only at at_k h3 h2 h1
  clear above
  interval_cases k
  · simp [h3, h2, h1, at_k]
  · simp [h3, h2, at_k]
  · simp [h3, at_k]
  · simp [at_k]

theorem takeMessage_taken {c : Nat} {k : Fin 4} {m : Msg} {l : List Msg} (ring : (coreAt s c).ring.get k = m :: l)
    (highest : ∀ j : Fin 4, k < j → (coreAt s c).ring.get j = []) (idle : (hartAt s c 7).st = .idle) (works : takesWork s c = true) :
    takeMessage c s = updCore s c fun q => { q with
      ring := vput q.ring k.val l
      harts := q.harts.set 7 { q.harts.get 7 with
        st := .ready, back := .ready, stepHead := none, stepDone := false, wait := .none, pc := m.handler.setWidth 48
        xstat := (q.harts.get 7).xstat &&& ~~~(3#64)
        g := vput (vput (vput (vput (vput (vput (q.harts.get 7).g 10 (vget m.w 0)) 11 (vget m.w 1)) 12 (vget m.w 2)) 13 (vget m.w 3)) 14 m.sender)
          15 (m.cls.zeroExtend 64) } } := by
  have rings (j : Fin 4) : (coreAt s c).ring.toList.getD j.val [] = (coreAt s c).ring.get j := by simp [Vector.get]
  have found : [3, 2, 1, 0].find? (fun j => !((coreAt s c).ring.toList.getD j []).isEmpty) = some k.val := by
    have at_k : (!((coreAt s c).ring.toList.getD k.val []).isEmpty) = true := by rw [rings, ring]; rfl
    have above (j : Fin 4) (h : k < j) : (!((coreAt s c).ring.toList.getD j.val []).isEmpty) = false := by rw [rings, highest j h]; rfl
    exact find_highest (fun j => !((coreAt s c).ring.toList.getD j []).isEmpty) at_k above
  unfold takeMessage
  dsimp only
  rw [if_neg (by rw [works]; simpa [hartAt] using idle), found]
  dsimp only
  rw [rings, ring]

/-- What a handler's hart finds of a message in its registers. -/
def Hart.handles (m : Msg) (h : Hart) : Hart :=
  { h with
    st := .ready, back := .ready, stepHead := none, stepDone := false, wait := .none, pc := m.handler.setWidth 48, xstat := h.xstat &&& ~~~(3#64)
    g := vput (vput (vput (vput (vput (vput h.g 10 (vget m.w 0)) 11 (vget m.w 1)) 12 (vget m.w 2)) 13 (vget m.w 3)) 14 m.sender)
      15 (m.cls.zeroExtend 64) }

theorem gr_handles (m : Msg) (h : Hart) : (h.handles m).gr 10 = m.w.get 0 ∧ (h.handles m).gr 11 = m.w.get 1 ∧ (h.handles m).gr 12 = m.w.get 2 ∧
    (h.handles m).gr 13 = m.w.get 3 ∧ (h.handles m).gr 14 = m.sender ∧ (h.handles m).gr 15 = m.cls.zeroExtend 64 := by
  have reg (n : BitVec 5) (n0 : n ≠ 0) : (h.handles m).gr n = (h.handles m).g.get n.toFin := if_neg n0
  have word (i : Fin 4) : vget m.w i.val = m.w.get i := vget_eq _ i.isLt
  refine ⟨?_, ?_, ?_, ?_, ?_, ?_⟩ <;> rw [reg _ (by decide)] <;> simp only [Hart.handles, get_vput _ (show 10 < 32 by decide), get_vput _ (show 11 < 32 by decide),
    get_vput _ (show 12 < 32 by decide), get_vput _ (show 13 < 32 by decide), get_vput _ (show 14 < 32 by decide), get_vput _ (show 15 < 32 by decide)]
  · exact word 0
  · exact word 1
  · exact word 2
  · exact word 3
  · rfl
  · rfl

/-! ## Spawn requests and their answers (R389) -/

theorem spawnClaim_refused {c t : Nat} {k : Fin 8} {pc : BitVec 48} {w : Vector (BitVec 64) 4}
    (no : colOf t ≠ colOf c ∨ (coreAt s t).job ≠ (coreAt s c).job ∨ (coreAt s c).job = 0) : spawnClaim c k t pc w s = (3, false, s) := if_pos no

theorem spawnClaim_full {c t : Nat} {k : Fin 8} {pc : BitVec 48} {w : Vector (BitVec 64) 4} (col : colOf t = colOf c)
    (job : (coreAt s t).job = (coreAt s c).job) (bound : (coreAt s c).job ≠ 0) (none : childSlot s t = none) :
    spawnClaim c k t pc w s = if (hartAt s c k).frames.length < 8 then (0, true, s) else (2, false, s) := by
  refine (if_neg ?_).trans ?_
  · rintro (h | h | h)
    · exact h col
    · exact h job
    · exact bound h
  · rw [none]

/-- A child placed at another core than its parent's, whose hart runs no record. -/
theorem spawnClaim_placed {c t : Nat} {k j : Fin 8} {pc : BitVec 48} {w : Vector (BitVec 64) 4} (col : colOf t = colOf c)
    (job : (coreAt s t).job = (coreAt s c).job) (bound : (coreAt s c).job ≠ 0) (free : childSlot s t = some j) (no : (hartAt s c k).hasRec = false)
    (ne : t ≠ c) : ∃ u, spawnClaim c k t pc w s = (0, false, u) ∧ u.net = s.net ∧ u.mem = s.mem ∧ (hartAt u t j).pc = pc ∧
      (hartAt u t j).gr 10 = vget w 0 ∧ (hartAt u t j).gr 13 = vget w 3 ∧ ∀ i, i ≠ j → hartAt u t i = hartAt s t i := by
  have placed : placeChild c k t j pc w s = setHart s t j
      (childHart (coreAt s t) (recOf s (coreAt s c).job (hartAt s c k).lrec.toNat) (hartAt s c k) (hartAt s t j) pc w) := by
    have form : placeChild c k t j pc w s = liveBy c k true (updHart (startHart t j pc w (coreAt s c).job (hartAt s c k).lrec.toNat
      (hartAt s c k).stage.toNat (hartAt s c k).unit s) t j fun x => { x with hasRec := (hartAt s c k).hasRec }) := rfl
    rw [form]
    unfold startHart updHart
    rw [setHart_twice, hartAt_setHart_self, liveBy_off]
    · rfl
    · rw [hartAt_setHart_core _ _ _ _ _ _ (Ne.symm ne)]; exact no
  refine ⟨placeChild c k t j pc w s, (if_neg ?_).trans (by rw [free]), by rw [placed]; rfl, by rw [placed]; rfl, ?_, ?_, ?_, fun i hi => ?_⟩
  · rintro (h | h | h)
    · exact h col
    · exact h job
    · exact bound h
  · rw [placed, hartAt_setHart_self]; rfl
  · rw [placed, hartAt_setHart_self]; exact gr_childHart _ _ _ _ _ _ 10 (by decide)
  · rw [placed, hartAt_setHart_self]; exact gr_childHart _ _ _ _ _ _ 13 (by decide)
  · rw [placed]; exact hartAt_setHart_slot _ _ _ _ _ hi

/-! ## Messages of other devices (R462) -/

theorem outsideMsg_placed {port : Nat} {job : BitVec 32} {l : BitVec 20} {m : Msg} {c : Nat} {t u : State} (up : portUp s port = true)
    (grant : tabGet 0 s.fabric.allow (4 * port + 1) ≠ 0) (held : heldAt s ⟨port / 2 % 8, Nat.mod_lt _ (by decide)⟩ job = false)
    (cool : (colAt s ⟨port / 2 % 8, Nat.mod_lt _ (by decide)⟩).tripped = false)
    (resolved : resolveCore ⟨port / 2 % 8, Nat.mod_lt _ (by decide)⟩ job l.toNat s = (.core c, t)) (cool' : (colAt t (colOf c)).tripped = false)
    (placed : placeMsg c job m t = some u) : ∃ f, outsideMsg port job l m s = { u with fabric := f } := by
  unfold outsideMsg
  dsimp only
  rw [if_neg (by simp [up, held, cool, grant]), resolved]
  dsimp only
  rw [if_neg (by rw [cool']; decide), placed]
  exact ⟨_, rfl⟩

theorem inlineChild_plain (pc : BitVec 48) (d : BitVec 5) (w : Vector (BitVec 64) 4) (no : (me s).hasRec = false) :
    inlineChild pc d w s = retireAt pc (updMe s (Hart.calls d w)) := by
  unfold inlineChild
  dsimp only
  rw [liveBy_off true (no : (hartAt s s.curCore s.curSlot).hasRec = false)]
  rfl

theorem hartAt_actAs {c : Nat} {k : Fin 8} {f : State → State} (hc : c < 2048) (rest : RestKept (asHart c k s) (f (asHart c k s))) :
    hartAt (actAs c k f s) c k = me (f (asHart c k s)) := by
  have core : (asHart c k s).curCore.val = c := Nat.mod_eq_of_lt hc
  have slot : (f (asHart c k s)).curSlot = k := (congrArg State.curSlot rest.machine :)
  rw [me, curCore_of_kept rest.machine, slot, core]; rfl

/-- Settles O57: each event finds its packet by its number, and a hart acts only where an answer completes its instruction. -/
theorem messageEvents : Obligations.MessageEvents := by
  intro s p found hc id h
  refine ⟨fun m l n ok port j lc msg id0 kind loc first cool => ?_, fun m l n port j lc msg id0 kind loc => ?_, ?_, ?_, ?_, ?_, ?_, ?_, ?_⟩
  · intro arrives x ring taken
    have run : exec arrives s = .next (match placeMsg p.gpa p.job m s with | some s => endMsg p s | none => refuseMsg p s) := by
      show execMessageArrival _ s = _
      unfold execMessageArrival
      rw [if_neg id0, show findPkt s _ = _ from found]
      dsimp only
      rw [kind, loc]
      dsimp only
      rw [first, cool]; rfl
    refine ⟨fun yes => ?_, fun no => ?_⟩
    · have test : (coreAt s x).job = p.job ∧ p.job ≠ 0 ∧ closed s x = false ∧ ring.length < 32 := by
        simpa [taken, and_assoc] using yes
      obtain ⟨own, bound, opened, room⟩ := test
      obtain ⟨u, placed, net, mem, joined, harts⟩ := placeMsg_placed (m := m) own bound opened room
      rw [placed] at run
      dsimp only at run
      have ended := endMsg_eq hc u
      refine ⟨_, run, ?_, ?_, ?_, fun c k r => ?_, ?_⟩
      · rw [ended, ring_updHart]; exact joined
      · rw [ended]
        show (u.net.filter _) = _
        rw [net]; rfl
      · rw [ended, hartAt_updHart, if_pos ⟨rfl, rfl⟩, msgsOut_msgEnded]
        exact congrArg (· - 1) (harts _ _).2
      · rw [ended, hartAt_updHart]
        split
        · next same => rw [same.1, same.2, gr_msgEnded]; exact (harts _ _).1 r
        · exact (harts c k).1 r
      · rw [ended]; exact mem
    · have test : ¬ ((coreAt s x).job = p.job ∧ p.job ≠ 0 ∧ closed s x = false ∧ ring.length < 32) := by
        rintro ⟨own, bound, opened, room⟩
        have : taken = true := by
          rw [Bool.and_eq_true, Bool.and_eq_true, Bool.and_eq_true]
          exact ⟨⟨⟨beq_iff_eq.mpr own, bne_iff_ne.mpr bound⟩, by rw [opened]; rfl⟩, decide_eq_true room⟩
        rw [no] at this; cases this
      rw [run, placeMsg_refused test]
      unfold refuseMsg
      rw [kind]; rfl
  · have run (ok : Bool) : exec (.messageArrival ⟨id, ok, port, j, lc, msg⟩) s = .next (if ok then endMsg p s else refuseMsg p s) := by
      show execMessageArrival _ s = _
      unfold execMessageArrival
      rw [if_neg id0, show findPkt s _ = _ from found]
      dsimp only
      rw [kind, loc]
    have ended := endMsg_eq hc s
    refine ⟨⟨endMsg p s, by rw [run, if_pos rfl], by rw [ended]; rfl, ?_, fun r => ?_, ?_⟩, ?_⟩
    · rw [ended, hartAt_updHart, if_pos ⟨rfl, rfl⟩, msgsOut_msgEnded]; rfl
    · rw [ended, hartAt_updHart, if_pos ⟨rfl, rfl⟩, gr_msgEnded]; rfl
    · rw [ended]; exact (slotOnly_updHart _ _ _).of_net rfl
    · rw [run, if_neg (by decide)]
      unfold refuseMsg
      rw [kind]; rfl
  · intro port job lc msg ok c t up grant col m x ring held cool resolved cool' own bound opened room
    obtain ⟨u, placed, net, mem, joined, harts⟩ := placeMsg_placed (m := m) own bound opened room
    obtain ⟨f, done⟩ := outsideMsg_placed up grant held cool resolved cool' placed
    refine ⟨_, congrArg Host.Outcome.next done, joined, net, mem, fun c k => (harts c k).1⟩
  · intro m l n kind loc held
    have run : exec (.messageRetry id) s = .next (if h.feLimit ≠ 0 ∧ h.feLimit < n then
        updHart (endMsg p s) p.core p.slot fun h => { h with dropped := h.dropped ++ [l] }
        else if p.born + 64 ≤ s.clock then withPkt s id { p with loc := .router } else s) := by
      show execMessageRetry _ s = _
      unfold execMessageRetry
      rw [show findPkt s _ = _ from found]
      dsimp only
      rw [kind, loc]
      dsimp only
      rw [if_neg (by rw [held]; decide), if_pos hc, Nat.mod_eq_of_lt hc, ← apply_ite, ← apply_ite]
      rfl
    refine ⟨fun few old => ?_, fun limited many => ?_⟩
    · rw [run, if_neg (by omega), if_pos old]
    · rw [if_pos ⟨limited, many⟩, endMsg_eq hc] at run
      have twice : updHart (updHart (withoutPkt s id) p.core p.slot Hart.msgEnded) p.core p.slot (fun h => { h with dropped := h.dropped ++ [l] }) =
          updHart (withoutPkt s id) p.core p.slot fun h => { h.msgEnded with dropped := h.msgEnded.dropped ++ [l] } := by
        unfold updHart
        rw [setHart_twice, hartAt_setHart_self]
      rw [twice] at run
      have hart := hartAt_updHart_self (withoutPkt s id) p.core p.slot fun h => { h.msgEnded with dropped := h.msgEnded.dropped ++ [l] }
      refine ⟨_, run, rfl, ?_, ?_, fun r => ?_, (slotOnly_updHart _ _ _).of_net rfl⟩
      · rw [hart, msgEnded_form]; rfl
      · rw [hart]; exact msgsOut_msgEnded _
      · rw [hart]; exact gr_msgEnded _ r
  · intro c k m r hc ring highest idle works
    have taken := takeMessage_taken ring highest idle works
    have run : exec (.takeMessage c) s = .next (takeMessage c s) := if_neg (Nat.not_le.mpr hc)
    obtain ⟨t, ht⟩ : ∃ t, t = takeMessage c s := ⟨_, rfl⟩
    rw [← ht] at run taken
    have core : coreAt t c = _ := (congrArg (coreAt · c) taken).trans (coreAt_updCore_self _ _ _)
    have hart : hartAt t c 7 = (hartAt s c 7).handles m := by
      rw [hartAt, core]; exact vec_get_set_self (coreAt s c).harts 7 _
    obtain ⟨g10, g11, g12, g13, g14, g15⟩ := gr_handles m (hartAt s c 7)
    refine ⟨t, run, ?_, by rw [hart]; rfl, by rw [hart]; rfl, by rw [hart, g10], by rw [hart, g11], by rw [hart, g12], by rw [hart, g13], by rw [hart, g14],
      by rw [hart, g15], fun i hi => ?_, by rw [taken]; rfl, by rw [taken]; rfl⟩
    · rw [core]; exact (get_vput _ k.isLt _ _).trans (if_pos rfl)
    · rw [hartAt, core]; exact vec_get_set_ne (coreAt s c).harts 7 i _ hi
  · intro pc w l d j kind loc cool col job bound free no ne
    obtain ⟨u, claim, net, mem, at_pc, g10, g13, others⟩ := spawnClaim_placed (pc := pc) (w := w) col job bound free no ne
    refine ⟨withPkt u id { p with kind := .spawnAnswer d 0 false pc, loc := .reply 0 }, ?_, ?_, at_pc, g10.trans (vget_eq _ (by decide)), g13.trans (vget_eq _ (by decide)), others, mem⟩
    · show execSpawnRequest _ s = _
      unfold execSpawnRequest
      rw [show findPkt s _ = _ from found]
      dsimp only
      rw [kind, loc]
      dsimp only
      rw [if_neg (by rw [cool]; decide), claim]; rfl
    · show u.net.map _ = _
      rw [net]; rfl
  · intro pc w l d kind loc cool answer
    have run (st : BitVec 64) (inl : Bool) (claim : spawnClaim p.core p.slot p.gpa pc w s = (st, inl, s)) : answer st inl := by
      show execSpawnRequest _ s = _
      unfold execSpawnRequest
      rw [show findPkt s _ = _ from found]
      dsimp only
      rw [kind, loc]
      dsimp only
      rw [if_neg (by rw [cool]; decide), claim]; rfl
    refine ⟨fun no => run 3 false (spawnClaim_refused no), fun col job bound none => ⟨fun few => run 0 true ?_, fun many => run 2 false ?_⟩⟩
    · rw [spawnClaim_full col job bound none, if_pos few]
    · rw [spawnClaim_full col job bound none, if_neg (Nat.not_lt.mpr many)]
  · intro d st pc kind wait no
    have hart : me (asHart p.core p.slot (withoutPkt s id)) = h := me_asHart hc _ _
    have run : exec (.spawnAnswer id) s = .next (actAs p.core p.slot (fun s => inlineChild pc d h.argWords s) (withoutPkt s id)) := by
      show execSpawnAnswer _ s = _
      unfold execSpawnAnswer
      rw [show findPkt s _ = _ from found]
      dsimp only
      rw [kind]
      exact congrArg Host.Outcome.next (if_pos wait)
    have plain := inlineChild_plain (s := asHart p.core p.slot (withoutPkt s id)) pc d h.argWords (by rw [hart]; exact no)
    have rest : RestKept (asHart p.core p.slot (withoutPkt s id)) (inlineChild pc d h.argWords (asHart p.core p.slot (withoutPkt s id))) := by
      rw [plain]; exact restKept_retireAt_updMe _ _ _
    have only : SlotOnly s _ p.core p.slot := (slotOnly_actAs (s := withoutPkt s id) (f := fun s => inlineChild pc d h.argWords s) hc rest).of_net rfl
    have done : hartAt (actAs p.core p.slot (fun s => inlineChild pc d h.argWords s) (withoutPkt s id)) p.core p.slot = (h.calls d h.argWords).retired pc := by
      refine (hartAt_actAs hc rest).trans ?_
      rw [plain, me_retireAt, me_updMe, hart]
    have words (n : BitVec 5) (h1 : 10 ≤ n.toNat ∧ n.toNat ≤ 13) :
        ((h.calls d h.argWords).retired pc).gr n = vget h.argWords (n.toNat - 10) := by rw [gr_retired, gr_calls, if_pos h1]
    refine ⟨_, run, ?_, by rw [done]; rfl, by rw [done]; rfl, by rw [done]; exact words 10 (by decide), by rw [done]; exact words 11 (by decide),
      by rw [done]; exact words 12 (by decide), by rw [done]; exact words 13 (by decide), fun r hr => ?_, only⟩
    · rw [actAs_eq, plain]; rfl
    · rw [done, gr_retired, gr_calls, if_neg (by omega)]
  · intro d st pc kind wait
    have hart : me (asHart p.core p.slot (withoutPkt s id)) = h := me_asHart hc _ _
    have run : exec (.spawnAnswer id) s = .next (actAs p.core p.slot (fun s => done4 d st s) (withoutPkt s id)) := by
      show execSpawnAnswer _ s = _
      unfold execSpawnAnswer
      rw [show findPkt s _ = _ from found]
      dsimp only
      rw [kind]
      exact congrArg Host.Outcome.next (if_pos wait)
    obtain ⟨on, wrote, -, rest⟩ := retire_setG (⟨rfl, rfl, rfl, rfl⟩ : SameHart (asHart p.core p.slot (withoutPkt s id)) _) 4 d st
    have only : SlotOnly s _ p.core p.slot := (slotOnly_actAs (s := withoutPkt s id) (f := fun s => done4 d st s) hc rest).of_net rfl
    have done : hartAt (actAs p.core p.slot (fun s => done4 d st s) (withoutPkt s id)) p.core p.slot =
        me (done4 d st (asHart p.core p.slot (withoutPkt s id))) := hartAt_actAs hc rest
    have net : (done4 d st (asHart p.core p.slot (withoutPkt s id))).net = (asHart p.core p.slot (withoutPkt s id)).net := net_of_kept rest.machine
    refine ⟨_, run, net, ?_, ?_, fun r hr => ?_, only⟩
    · rw [done, ← hart]; exact on.pc
    · rw [done]; exact wrote.dest
    · rw [done, ← hart]; exact wrote.rest r hr

end Sys2Proof.Machine
end

section
/-!
PROOFS. Barrier units, barrier wires, time-outs and job changes (R91, R100 to R102, R267 to R269, R358, R363).
-/

namespace Sys2Proof.Machine

set_option Elab.async false

variable {s : State}

/-! ## Contributions to a barrier object (R101, R102) -/

/-- A barrier object that completes: GEN rises, and DONE is set or, with AUTO, PEND is reloaded. -/
def BarObj.completed (o : BarObj) : BarObj :=
  let done : BarObj := { o with gen := o.gen + 1, status := (o.status ||| 1), pend := 0 }
  if o.mode.getLsbD 1 then { done with pend := o.init, status := done.status &&& 0xFE } else done

/-- A barrier object after a contribution of m units. -/
def BarObj.lowered (o : BarObj) (m : Nat) : BarObj :=
  if m = 0 then o
  else if o.pend.toNat < m then
    (if o.pend = 0 then { o with status := o.status ||| 2 } else { o with status := o.status ||| 2 }.completed)
  else if o.pend.toNat = m then o.completed
  else { o with pend := BitVec.ofNat 64 (o.pend.toNat - m) }

theorem complete_zero (o : BarObj) : { o with pend := 0 }.complete = o.completed := by
  unfold BarObj.complete BarObj.completed BarObj.auto
  rfl

theorem take_lowered (o : BarObj) (m : Nat) : (o.take m).1 = o.lowered m := by
  have zero : o.pend.toNat = 0 ↔ o.pend = 0 := ⟨fun h => BitVec.eq_of_toNat_eq h, fun h => by rw [h]; rfl⟩
  unfold BarObj.take BarObj.lowered
  dsimp only
  split
  · rfl
  · split
    · by_cases h : o.pend = 0
      · rw [if_pos (zero.mpr h), if_pos h, h]
      · rw [if_neg (fun e => h (zero.mp e)), if_neg h]
        exact complete_zero { o with status := o.status ||| 2 }
    · split
      · exact complete_zero o
      · rfl

theorem errcnt_lowered (o : BarObj) (m : Nat) : (o.lowered m).errcnt = o.errcnt := by
  have completed (o : BarObj) : o.completed.errcnt = o.errcnt := by
    unfold BarObj.completed
    dsimp only
    split <;> rfl
  unfold BarObj.lowered
  split
  · rfl
  · split
    · split
      · rfl
      · exact completed _
    · split
      · exact completed _
      · rfl

theorem start_eq (o : BarObj) (v : BitVec 64) (kind auto : Bool) :
    let o' : BarObj := { o with init := v, pend := v, mode := (if kind then 1 else 0) ||| (if auto then 2 else 0), status := 0, oorcnt := 0, errcnt := 0 }
    (o.start v kind auto).1 = if v = 0 then o'.completed else o' := by
  unfold BarObj.start
  dsimp only
  split
  · next h =>
    subst h
    exact complete_zero { o with init := 0, mode := (if kind then 1 else 0) ||| (if auto then 2 else 0), status := 0, oorcnt := 0, errcnt := 0 }
  · rfl

/-! ## An operation on an object that nobody waits for -/

/-- Nobody waits for the barrier object at that place. -/
def nobodyAt (s : State) (g : Nat) : Prop := ∀ e ∈ s.cores, ∀ k d, (e.2.harts.get k).wait ≠ .barrier g d

/-- A column whose barrier object n is o. -/
def Column.holding (n : Nat) (o : BarObj) (q : Column) : Column := { q with bars := tabPut q.bars n o }

theorem wakeBarrier_nobody {g : Nat} (o : BarObj) (h : nobodyAt s g) : wakeBarrier g o s = s := by
  unfold wakeBarrier
  dsimp only
  refine (congrArg (List.foldl _ s) (List.flatMap_eq_nil_iff.mpr fun e he => List.filterMap_eq_nil_iff.mpr fun k _ => ?_)).trans rfl
  split
  · next g' d wait => exact if_neg fun same => h e he k d (by rw [wait, same])
  · rfl

section
variable {g n : Nat} {col : Fin 8} (object : targetOf s g = .barrier col n)
include object

theorem barAt_object : barAt s g = tabGet BarObj.zero (colAt s col).bars n := by unfold barAt; rw [object]

theorem barOp_nobody (free : nobodyAt s (g / 64 * 64)) (f : BarObj → BarObj × Bool) :
    barOp g f s = updCol s col (Column.holding n (f (barAt s g)).1) := by
  have put (o : BarObj) : putBar g o s = updCol s col (Column.holding n o) := by unfold putBar; rw [object]; rfl
  unfold barOp
  dsimp only
  rw [put]
  split
  · exact wakeBarrier_nobody _ free
  · rfl

end

theorem object_holding (col : Fin 8) (n : Nat) (o : BarObj) (s : State) :
    tabGet BarObj.zero (colAt (updCol s col (Column.holding n o)) col).bars n = o ∧
    (∀ m, m ≠ n → tabGet BarObj.zero (colAt (updCol s col (Column.holding n o)) col).bars m = tabGet BarObj.zero (colAt s col).bars m) ∧
    (∀ c, c ≠ col → colAt (updCol s col (Column.holding n o)) c = colAt s c) := by
  refine ⟨?_, fun m hm => ?_, fun c hc => colAt_updCol_ne _ _ _ _ hc⟩
  · rw [colAt_updCol_self]; exact tabGet_tabPut_self _ _ _ _
  · rw [colAt_updCol_self]; exact tabGet_tabPut_ne _ _ _ _ hm _

/-- A contribution past its checks: the object, and the packet gone or on its way back. -/
def contributionDone (s : State) (p : Pkt) : List Pkt :=
  if p.core = 2048 then (withoutPkt s p.id).net else (withPkt s p.id { p with loc := .ack }).net

theorem contributed_eq (p : Pkt) (s : State) : contributed p s = { s with net := contributionDone s p } := by
  unfold contributed contributionDone
  split <;> rfl

theorem contribution_after {p : Pkt} {n : Nat} {col : Fin 8} {i : Instr} {f : BarObj → BarObj × Bool} {o' : BarObj}
    (object : targetOf s p.gpa = .barrier col n) (free : nobodyAt s (p.gpa / 64 * 64))
    (run : exec i s = .next (contributed p (barOp p.gpa f s))) (value : (f (tabGet BarObj.zero (colAt s col).bars n)).1 = o') :
    ∃ t, exec i s = .next t ∧ tabGet BarObj.zero (colAt t col).bars n = o' ∧
      (∀ m, m ≠ n → tabGet BarObj.zero (colAt t col).bars m = tabGet BarObj.zero (colAt s col).bars m) ∧ (∀ c, c ≠ col → colAt t c = colAt s c) ∧
      t.net = contributionDone s p ∧ t.mem = s.mem ∧ t.cores = s.cores := by
  rw [barOp_nobody object free, barAt_object object, value, contributed_eq] at run
  obtain ⟨self, objects, columns⟩ := object_holding col n o' s
  exact ⟨_, run, self, objects, columns, rfl, rfl, rfl⟩

/-! ## Barrier wires (R267, R268) -/

/-- A list of steps of which one alone does something, and that once. -/
theorem foldl_once {α β : Type} {f : β → α → β} {y : α} {s t : β} (other : ∀ x, x ≠ y → f s x = s) (one : f s y = t) (after : ∀ x, f t x = t) :
    ∀ l : List α, y ∈ l → l.foldl f s = t
  | [], h => by cases h
  | x :: l, h => by
    have stay : ∀ l : List α, l.foldl f t = t := fun l => by
      induction l with
      | nil => rfl
      | cons z l ih => rw [List.foldl_cons, after, ih]
    by_cases same : x = y
    · rw [List.foldl_cons, same, one, stay]
    · rw [List.foldl_cons, other x same]
      exact foldl_once other one after l ((List.mem_cons.mp h).resolve_left (Ne.symm same))

theorem foldl_stays {α β : Type} {f : β → α → β} {s : β} (h : ∀ x, f s x = s) (l : List α) : l.foldl f s = s := by
  induction l with
  | nil => rfl
  | cons z l ih => rw [List.foldl_cons, h, ih]

/-- The latches of a wire set are cleared at one core. -/
def Core.unlatched (w : Nat) (waits : Bool) (q : Core) : Core := { q with
  latchSet := q.latchSet &&& ~~~(1#3 <<< w), latchDone := if waits then q.latchDone else q.latchDone ||| (1#3 <<< w) }

theorem latch_cleared {w : Nat} (hw : w < 3) (x : BitVec 3) : (x &&& ~~~(1#3 <<< w)).getLsbD w = false := by
  revert x
  interval_cases w <;> decide

/-- What the clearing of latches leaves: each core's harts, its L0 data cache, and the rest of the machine. -/
structure Unlatched (s t : State) : Prop where
  machine : { t with cores := [] } = { s with cores := [] }
  core : ∀ x, (coreAt t x).harts = (coreAt s x).harts ∧ (coreAt t x).l0d = (coreAt s x).l0d ∧ (coreAt t x).instret = (coreAt s x).instret

theorem unlatched_foldl {w : Nat} (hw : w < 3) (waits : Nat → Bool) : ∀ (cs : List Nat) (s : State),
    let t := cs.foldl (fun s c => if (coreAt s c).latchSet.getLsbD w then updCore s c (Core.unlatched w (waits c)) else s) s
    Unlatched s t ∧ (∀ x, (coreAt s x).latchSet.getLsbD w = false → (coreAt t x).latchSet.getLsbD w = false) ∧
      ∀ x ∈ cs, (coreAt t x).latchSet.getLsbD w = false
  | [], s => ⟨⟨rfl, fun _ => ⟨rfl, rfl, rfl⟩⟩, fun _ h => h, fun _ h => by cases h⟩
  | c :: cs, s => by
    dsimp only
    rw [List.foldl_cons]
    obtain ⟨u, hu⟩ : ∃ u, u = (if (coreAt s c).latchSet.getLsbD w then updCore s c (Core.unlatched w (waits c)) else s) := ⟨_, rfl⟩
    have step : Unlatched s u ∧ (∀ x, (coreAt s x).latchSet.getLsbD w = false → (coreAt u x).latchSet.getLsbD w = false) ∧
        (coreAt u c).latchSet.getLsbD w = false := by
      rw [hu]
      split
      · have cores (x : Nat) : coreAt (updCore s c (Core.unlatched w (waits c))) x = if x = c then (coreAt s c).unlatched w (waits c) else coreAt s x :=
          coreAt_updCore _ _ _ _
        refine ⟨⟨rfl, fun x => ?_⟩, fun x h => ?_, ?_⟩
        · rw [cores]; split
          · next e => subst e; exact ⟨rfl, rfl, rfl⟩
          · exact ⟨rfl, rfl, rfl⟩
        · rw [cores]; split
          · exact latch_cleared hw _
          · exact h
        · rw [cores, if_pos rfl]; exact latch_cleared hw _
      · next h => exact ⟨⟨rfl, fun _ => ⟨rfl, rfl, rfl⟩⟩, fun _ h => h, Bool.eq_false_iff.mpr h⟩
    rw [← hu]
    obtain ⟨first, keeps, here⟩ := step
    obtain ⟨rest, keeps', cleared⟩ := unlatched_foldl hw waits cs u
    refine ⟨⟨rest.machine.trans first.machine, fun x => ?_⟩, fun x h => keeps' x (keeps x h), fun x hx => ?_⟩
    · obtain ⟨a, b, d⟩ := rest.core x
      obtain ⟨a', b', d'⟩ := first.core x
      exact ⟨a.trans a', b.trans b', d.trans d'⟩
    · obtain rfl | hx := List.mem_cons.mp hx
      · exact keeps' _ here
      · exact cleared x hx

theorem mem_wireSet {c w : Nat} (hc : c < 2048) : c ∈ wireSet c w := by
  have col : (colOf c).val = c / 256 := Nat.mod_eq_of_lt (by omega)
  unfold wireSet
  dsimp only
  rw [col]
  split
  · exact List.mem_map.mpr ⟨c % 16, List.mem_range.mpr (by omega), by unfold rowOf; omega⟩
  · split
    · exact List.mem_map.mpr ⟨c % 256 / 16, List.mem_range.mpr (by omega), by unfold meshColOf; omega⟩
    · exact List.mem_map.mpr ⟨c % 256, List.mem_range.mpr (by omega), by omega⟩

/-- A core whose slot k has the result of a wait, with the acquire that ends it. -/
def Core.acquired (k : Fin 8) (h : Hart) (q : Core) : Core := { q.setHart k h with l0d := [] }

theorem setG_acquire (s : State) (d : BitVec 5) (v : BitVec 64) :
    setG (acquire s) d v = updMyCore s (Core.acquired s.curSlot ((me s).setG d v)) := by
  rw [acquire, setG, updMe_updMyCore]
  rfl

/-- What the end of a wait with an acquire leaves. -/
theorem completeWait_acquire {c : Nat} (hc : c < 2048) (k : Fin 8) (d : BitVec 5) (v : BitVec 64) (s : State) :
    let t := completeWait c k d v acquire s
    hartAt t c k = ((hartAt s c k).setG d v).retired ((hartAt s c k).pc + 4) ∧ (∀ x j, (x ≠ c ∨ j ≠ k) → hartAt t x j = hartAt s x j) ∧
      (coreAt t c).l0d = [] ∧ (∀ x, (coreAt t x).latchSet = (coreAt s x).latchSet) ∧ t.mem = s.mem ∧ t.net = s.net := by
  dsimp only
  have core : (asHart c k s).curCore.val = c := Nat.mod_eq_of_lt hc
  have start : me (asHart c k s) = hartAt s c k := me_asHart hc k s
  have hart : (Core.acquired k ((me (asHart c k s)).setG d v) (myCore (asHart c k s))).harts.get k = (me (asHart c k s)).setG d v := setHart_get_self _ _ _
  have pc : (me (setG (acquire (asHart c k s)) d v)).pc = (hartAt s c k).pc := by
    rw [setG_acquire, me_updMyCore]
    exact (congrArg Hart.pc hart).trans ((setG_pc _ _ _).trans (congrArg Hart.pc start))
  have whole : completeWait c k d v acquire s =
      { retireAt ((hartAt s c k).pc + 4) (updMyCore (asHart c k s) (Core.acquired k ((me (asHart c k s)).setG d v))) with
        curCore := s.curCore, curSlot := s.curSlot } := by
    rw [completeWait, actAs_eq, done4, retire, pc, setG_acquire]; rfl
  obtain ⟨-, me', kept, others, mem, rest⟩ := goesOn_retireAt_updMyCore ((hartAt s c k).pc + 4) (asHart c k s)
    (Core.acquired k ((me (asHart c k s)).setG d v)) rfl ((congrArg Hart.st hart).trans (setG_st _ _ _)) (fun j hj => setHart_get_ne _ _ _ _ hj)
  obtain ⟨t, ht⟩ : ∃ t, t = retireAt ((hartAt s c k).pc + 4) (updMyCore (asHart c k s) (Core.acquired k ((me (asHart c k s)).setG d v))) := ⟨_, rfl⟩
  rw [whole]
  rw [← ht] at me' kept others mem rest ⊢
  have here : t.curCore.val = c := by rw [curCore_of_kept rest]; exact core
  have slot : t.curSlot = k := (congrArg State.curSlot rest :)
  have mine : coreAt t c = myCore t := by rw [myCore, here]
  have start' : coreAt s c = myCore (asHart c k s) := by rw [myCore, core]; rfl
  refine ⟨?_, fun x j apart => ?_, ?_, fun x => ?_, mem, (net_of_kept rest : t.net = _)⟩
  · have := me'.trans (congrArg (Hart.retired _) hart)
    rw [start, me, here, slot] at this
    exact this
  · by_cases hx : x = c
    · subst hx
      have := others.slots j (apart.resolve_left fun h => h rfl)
      rw [core] at this
      exact this
    · exact congrArg (fun q : Core => q.harts.get j) (others.cores x (by rw [core]; exact hx))
  · exact (congrArg Core.l0d mine).trans (congrArg Core.l0d kept :)
  · by_cases hx : x = c
    · subst hx
      exact (congrArg Core.latchSet mine).trans ((congrArg Core.latchSet kept :).trans (congrArg Core.latchSet start').symm)
    · exact congrArg Core.latchSet (others.cores x (by rw [core]; exact hx))

/-- The wire set w is complete for the harts of core c that wait for it: slot j's part in that. -/
def wiresDone (w c : Nat) (s : State) (j : Fin 8) : State :=
  match (hartAt s c j).wait with
  | .wires w' d => if w' = w then completeWait c j d 0 acquire s else s
  | _ => s

theorem wiresDone_other {w c : Nat} {j : Fin 8} (h : ∀ d, (hartAt s c j).wait ≠ .wires w d) : wiresDone w c s j = s := by
  unfold wiresDone
  split
  · next w' d wait => exact if_neg fun same => h d (by rw [wait, same])
  · rfl

theorem wiresDone_waiting {w c : Nat} {j : Fin 8} {d : BitVec 5} (h : (hartAt s c j).wait = .wires w d) :
    wiresDone w c s j = completeWait c j d 0 acquire s := by
  unfold wiresDone
  rw [h]
  exact if_pos rfl

/-- One hart alone waits for wire set w, and it goes on. -/
theorem wiresDone_all {w c : Nat} (hc : c < 2048) {k : Fin 8} {d : BitVec 5} (waits : (hartAt s c k).wait = .wires w d)
    (alone : ∀ x j e, (x ≠ c ∨ j ≠ k) → (hartAt s x j).wait ≠ .wires w e) {cs : List Nat} (mem : c ∈ cs) :
    cs.foldl (fun s c => (List.finRange 8).foldl (wiresDone w c) s) s = completeWait c k d 0 acquire s := by
  obtain ⟨hart, others, -⟩ := completeWait_acquire hc k d 0 s
  have nobody (x : Nat) (j : Fin 8) : wiresDone w x (completeWait c k d 0 acquire s) j = completeWait c k d 0 acquire s := by
    refine wiresDone_other fun e wait => ?_
    by_cases same : x = c ∧ j = k
    · obtain ⟨rfl, rfl⟩ := same
      rw [hart] at wait
      cases wait
    · have apart : x ≠ c ∨ j ≠ k := not_and_or.mp same
      exact alone x j e apart ((others x j apart) ▸ wait)
  refine foldl_once (y := c) (fun x hx => ?_) ?_ (fun x => foldl_stays (nobody x) _) cs mem
  · exact foldl_stays (fun j => wiresDone_other fun e => alone x j e (.inl hx)) _
  · exact foldl_once (y := k) (fun j hj => wiresDone_other fun e => alone c j e (.inr hj)) (wiresDone_waiting waits) (nobody c) _ (List.mem_finRange k)

theorem wireCompletion_run {c w n : Nat} (hc : c < 2048) {k : Fin 8} {col : Fin 8} {d : BitVec 5} (hw : w < 3) (hn : n < 16)
    (set : wireSet c w = wireCores col w n) (waits : (hartAt s c k).wait = .wires w d)
    (arrived : (wireCores col w n).all (wireArrived s w) = true) (latched : (coreAt s c).latchSet.getLsbD w = true)
    (alone : ∀ x j e, (x ≠ c ∨ j ≠ k) → (hartAt s x j).wait ≠ .wires w e) :
    ∃ u, Unlatched s u ∧ (∀ x ∈ wireCores col w n, (coreAt u x).latchSet.getLsbD w = false) ∧
      exec (.wireCompletion col.val (BitVec.ofNat 2 w) n) s = .next (completeWait c k d 0 acquire u) := by
  have wire : (BitVec.ofNat 2 w).toNat = w := Nat.mod_eq_of_lt (by omega)
  have column : (⟨col.val % 8, Nat.mod_lt _ (by decide)⟩ : Fin 8) = col := Fin.ext (Nat.mod_eq_of_lt col.isLt)
  have mem : c ∈ wireCores col w n := set ▸ mem_wireSet hc
  obtain ⟨unlatched, -, cleared⟩ := unlatched_foldl hw
    (fun c => (coreAt s c).harts.toList.any fun h => match h.wait with | .wires w' _ => w' == w | _ => false) (wireCores col w n) s
  have harts (x : Nat) (j : Fin 8) := congrArg (fun v : Vector Hart 8 => v.get j) (unlatched.core x).1
  refine ⟨_, unlatched, cleared, ?_⟩
  rw [← wiresDone_all hc ((congrArg Hart.wait (harts c k)).trans waits)
    (fun x j e apart h => alone x j e apart ((congrArg Hart.wait (harts x j)).symm.trans h)) mem]
  show execWireCompletion _ _ _ s = _
  unfold execWireCompletion
  rw [if_neg (by rw [wire]; omega)]
  dsimp only
  rw [wire, column, if_neg (by rw [arrived, List.any_eq_true.mpr ⟨c, mem, latched⟩]; decide)]
  rfl

/-! ## A job change (R363) -/

theorem jobWrite_mask (v : BitVec 64) : onlyBits v 47 36 ||| onlyBits v 34 0 = v &&& 0x0000FFF7FFFFFFFF := by
  simp [onlyBits, setBits, ← BitVec.and_or_distrib_left]

theorem privWrite_alias {c : Nat} (hc : c < 2048) (v : BitVec 64) (s : State) :
    privWrite (colOf c) (0xA000 + 16 * idxOf c) v s = jobWrite c v none s ∧
    privWrite (colOf c) (0xA000 + 16 * idxOf c + 8) v s = updCore s c fun q => { q with ctxlc := onlyBits v 19 0 } := by
  have core : 256 * (colOf c).val + idxOf c = c := by
    unfold colOf idxOf
    dsimp only
    omega
  have idx : idxOf c < 256 := Nat.mod_lt _ (by decide)
  have place : (0xA000 + 16 * idxOf c - 0xA000) / 16 = idxOf c ∧ (0xA000 + 16 * idxOf c + 8 - 0xA000) / 16 = idxOf c := by omega
  constructor <;> unfold privWrite <;> dsimp -iota only
  · iterate 16 rw [if_neg (by omega)]
    rw [if_pos (by omega), if_pos (by omega), place.1, core]
  · iterate 16 rw [if_neg (by omega)]
    rw [if_pos (by omega), if_neg (by omega), place.2, core]

theorem jobReady_change {c : Nat} {v : BitVec 64} (held : (coreAt s c).jobWrite = some (v, none)) (ready : jobReady s c none = true)
    (free : (coreAt s c).job = 0) : jobChange c s = updCore (clearJob c none s) c fun q => { q with ctxjob := v, jobWrite := none } := by
  unfold jobChange
  rw [held]
  dsimp only
  rw [if_pos ready, if_pos free]

/-- The ways that a change of job clears (R363): the register and bank ways. -/
theorem mem_nonCache {narr nbank w : Nat} (hw : w < 16) (way : wayMode narr nbank w ≠ 1) :
    w ∈ (List.range 16).filter fun w => decide (w < narr) || decide (16 - nbank ≤ w) := by
  refine List.mem_filter.mpr ⟨List.mem_range.mpr hw, ?_⟩
  unfold wayMode at way
  split at way
  · next h => rw [decide_eq_true h]; rfl
  · split at way
    · exact absurd rfl way
    · next h => rw [decide_eq_true (by omega : 16 - nbank ≤ w), Bool.or_true]

/-- The ways that hold no cached lines. -/
def Core.nonCache (q : Core) : List Nat := (List.range 16).filter fun w => decide (w < q.narr) || decide (16 - q.nbank ≤ w)

/-- A core without its job's state (R363 points 1 to 6), its ways apart. -/
def Core.jobless (keep : Option (Fin 8)) (q : Core) : Core :=
  let q := q.mapHarts fun k h => if some k = keep then h else h.cleared
  { q with
    mb := Vector.replicate 8 0, mbFull := 0, tok := Vector.replicate 8 0, tokVa := Vector.replicate 8 0
    cstart := Vector.replicate 8 0, cpc := Vector.replicate 8 0, ring := Vector.replicate 4 [], bfmt := Vector.replicate 16 0x1F
    vec := Vec.bindTo none, latchSet := 0, latchDone := 0, rcache := q.rcache.filter fun e => e.job != q.job, l0d := [], l0i := [] }

theorem clearJob_eq (c : Nat) (keep : Option (Fin 8)) (s : State) :
    clearJob c keep s = updCore (orphanMsgs c keep (clearWays c (coreAt s c).nonCache s)) c (Core.jobless keep) := rfl

theorem jobless_hart (q : Core) (j : Fin 8) : (q.jobless none).harts.get j = (q.harts.get j).cleared := by
  unfold Core.jobless
  dsimp only
  rw [get_mapHarts, if_neg (by simp)]

theorem gr_cleared (h : Hart) (r : BitVec 5) : h.cleared.gr r = 0 := by
  have reset : Hart.reset.gr r = 0 := by revert r; decide
  exact reset

/-- The core whose job changed: what R363 clears. -/
theorem clearJob_clears (c : Nat) (s : State) :
    let t := clearJob c none s
    (coreAt t c).mbFull = 0 ∧ (∀ n : Fin 8, (coreAt t c).tok.get n = 0 ∧ (coreAt t c).mb.get n = 0) ∧ (∀ j r, (hartAt t c j).gr r = 0) ∧
      (coreAt t c).vec.bound = false ∧
      (∀ w b, w < 16 → wayMode (coreAt s c).narr (coreAt s c).nbank w ≠ 1 → b < 2 ^ 18 → byteAt t (bankGpa s c w b) = 0) ∧
      ∀ x, x ≠ c → coreAt t x = coreAt s x := by
  dsimp only
  rw [clearJob_eq]
  have zero (n : Fin 8) : (Vector.replicate 8 0#2).get n = 0#2 ∧ (Vector.replicate 8 0#64).get n = 0#64 := by revert n; decide
  unfold hartAt
  rw [coreAt_updCore_self]
  refine ⟨rfl, fun n => zero n, fun j r => ?_, rfl, fun w b hw way hb => ?_, fun x hx => ?_⟩
  · rw [jobless_hart, gr_cleared]
  · exact byteAt_clearWays c s (mem_nonCache hw way) hb
  · exact (coreAt_updCore_ne _ _ _ _ hx).trans ((waysCleared_clearWays c _ s).others x hx)

/-- A hart whose wait an event ends with a value in gd, nothing else of its core touched. -/
theorem slotOnly_completeWait {c : Nat} (hc : c < 2048) (k : Fin 8) (d : BitVec 5) (v : BitVec 64) (s : State) :
    let t := completeWait c k d v id s
    hartAt t c k = ((hartAt s c k).setG d v).retired ((hartAt s c k).pc + 4) ∧ SlotOnly s t c k := by
  have start : me (asHart c k s) = hartAt s c k := me_asHart hc k s
  have rest : RestKept (asHart c k s) (done4 d v (asHart c k s)) := restKept_retireAt_updMe _ _ _
  refine ⟨(hartAt_actAs hc rest).trans ?_, slotOnly_actAs hc rest⟩
  rw [done4, retire, setG, me_updMe, me_retireAt, me_updMe, setG_pc, start]

/-- An initialised object, and its hart going on (R101, R358). -/
theorem initialise_run {p : Pkt} {n : Nat} {col : Fin 8} {v : BitVec 64} {kind auto : Bool} (found : queuedPkt s p.id = some p)
    (first : firstAt s p = true) (object : targetOf s p.gpa = .barrier col n) (sound : degradedAt s p.gpa = false)
    (free : nobodyAt s (p.gpa / 64 * 64)) (k : p.kind = .barInit v kind auto) (waits : (hartAt s p.core p.slot).wait = .reply p.id) :
    exec (.initialise p.id) s = .next (actAs p.core p.slot (retire 4)
      (withoutPkt (updCol s col (Column.holding n ((tabGet BarObj.zero (colAt s col).bars n).start v kind auto).1)) p.id)) := by
  show execInitialise p.id s = _
  unfold execInitialise
  rw [found]; dsimp only
  rw [k]; dsimp only
  rw [first, sound, barOp_nobody object free, barAt_object object]
  exact congrArg Host.Outcome.next (if_pos waits)

theorem retire_slot {c : Nat} (hc : c < 2048) (k : Fin 8) (s : State) :
    let t := actAs c k (retire 4) s
    hartAt t c k = (hartAt s c k).retired ((hartAt s c k).pc + 4) ∧ SlotOnly s t c k := by
  have start : me (asHart c k s) = hartAt s c k := me_asHart hc k s
  have rest : RestKept (asHart c k s) (retire 4 (asHart c k s)) := restKept_retireAt _ _
  refine ⟨(hartAt_actAs hc rest).trans ?_, slotOnly_actAs hc rest⟩
  rw [retire, me_retireAt, start]

/-- Settles O54: each unit finds its packet by its number; a completed wait retires its hart, and nothing else moves. -/
theorem barrierEvents : Obligations.BarrierEvents := by
  refine ⟨?_, fun s c k hc => ?_⟩
  · intro s p col n found first object sound free id obj o at0 completed lowered after done
    refine ⟨?_, fun m oor k => ?_, fun k => ?_, fun k => ?_, fun d w k => ?_⟩
    · intro v kind auto k hc waits o'
      obtain ⟨hart, only⟩ := retire_slot hc p.slot (withoutPkt (updCol s col (Column.holding n (o.start v kind auto).1)) p.id)
      refine ⟨_, initialise_run found first object sound free k waits, ?_, ?_, congrArg Hart.pc hart, fun r => (congrArg (Hart.gr · r) hart :), only.of_net rfl⟩
      · exact (object_holding col n _ s).1.trans (start_eq o v kind auto)
      · exact rfl
    · refine contribution_after (f := fun o =>
          let o := { o with oorcnt := o.oorcnt + BitVec.ofNat 32 oor }
          if o.kind then (o, false) else o.take m) object free ?_ ?_
      · show execCredit id s = _
        unfold execCredit
        rw [found]; dsimp only
        rw [k]; dsimp only
        rw [first, sound]; rfl
      · dsimp only
        split
        · next count => exact (if_pos count).symm
        · next count => exact (take_lowered _ m).trans (if_neg count).symm
    · refine contribution_after (f := fun o => o.take 1) object free ?_ (take_lowered o 1)
      show execArrive id s = _
      unfold execArrive
      rw [found]; dsimp only
      rw [k]; dsimp only
      rw [first, sound]; rfl
    · refine contribution_after (f := fun o => ({ (o.take 1).1 with errcnt := (o.take 1).1.errcnt + 1, status := (o.take 1).1.status ||| 4 }, (o.take 1).2))
        object free ?_ ?_
      · show execErrorArrive id s = _
        unfold execErrorArrive
        rw [found]; dsimp only
        rw [k]; dsimp only
        rw [first, sound]; rfl
      · have same : (o.take 1).1 = lowered o 1 := take_lowered o 1
        show { (o.take 1).1 with errcnt := (o.take 1).1.errcnt + 1, status := (o.take 1).1.status ||| 4 } = _
        rw [same, show (lowered o 1).errcnt = o.errcnt from errcnt_lowered o 1]
    · show execQuery id s = _
      unfold execQuery
      rw [found]; dsimp only
      rw [k]; dsimp only
      rw [first, sound, barAt_object object]; rfl
  · dsimp only
    have here : ¬ 2048 ≤ c := Nat.not_le.mpr hc
    refine ⟨fun col w n d hw hn colEq set waits arrived latched alone => ?_, fun w d tm waits parked timer late => ?_,
      fun tm waits parked timer late => ?_, fun v held ready free => ?_, fun v unheld => ⟨_, ?_, rfl⟩, fun v unheld => ?_⟩
    · obtain ⟨u, unlatched, cleared, run⟩ := wireCompletion_run hc hw hn set waits arrived latched alone
      obtain ⟨hart, -, l0d, latches, mem, net⟩ := completeWait_acquire hc k.toFin d 0 u
      have start : hartAt u c k.toFin = hartAt s c k.toFin := congrArg (fun v : Vector Hart 8 => v.get k.toFin) (unlatched.core c).1
      rw [start] at hart
      refine ⟨_, run, fun x hx => ?_, congrArg Hart.pc hart, ?_, fun r hr => ?_, l0d, mem.trans (congrArg State.mem unlatched.machine :),
        net.trans (congrArg State.net unlatched.machine :)⟩
      · rw [latches]; exact cleared x hx
      · rw [hart, gr_retired, gr_setG, if_pos rfl, ite_self]
      · rw [hart, gr_retired, gr_setG, if_neg hr]
    · obtain ⟨hart, only⟩ := slotOnly_completeWait hc k.toFin d (missingCores s c w) s
      have run : exec (.barwTimeout c k) s = .next (completeWait c k.toFin d (missingCores s c w) id s) := by
        show execBarwTimeout c k s = _
        unfold execBarwTimeout
        rw [if_neg here]; dsimp only
        rw [waits]
        exact congrArg Host.Outcome.next (if_pos (by simp [Hart.elapsed, parked, timer, late]))
      refine ⟨_, run, congrArg Hart.pc hart, ?_, fun r hr => ?_, (congrArg Core.latchSet only.core :), (congrArg Core.l0d only.core :), only⟩
      · rw [hart, gr_retired, gr_setG, if_pos rfl]
      · rw [hart, gr_retired, gr_setG, if_neg hr]
    · show execParkTimeout c k s = _
      unfold execParkTimeout
      rw [if_neg here]
      exact congrArg Host.Outcome.next (if_pos ⟨waits, by simp [Hart.elapsed, parked, timer, late]⟩)
    · obtain ⟨full, toks, regs, bound, bytes, others⟩ := clearJob_clears c s
      have run : exec (.jobChange c) s = .next (jobChange c s) := if_neg here
      rw [jobReady_change held ready free] at run
      have core := coreAt_updCore_self (clearJob c none s) c fun q => { q with ctxjob := v, jobWrite := none }
      refine ⟨_, run, ?_⟩
      unfold hartAt
      rw [core]
      exact ⟨rfl, rfl, full, toks, regs, bound, bytes, fun x hx => (coreAt_updCore_ne _ _ _ _ hx).trans (others x hx)⟩
    · refine (if_neg here).trans ((if_neg (by rw [unheld]; decide)).trans (congrArg Host.Outcome.next ?_))
      exact (privWrite_alias hc v s).2.trans (by rw [show onlyBits v 19 0 = v &&& 0xFFFFF by simp [onlyBits, setBits]]; rfl)
    · refine (if_neg here).trans ((if_neg (by rw [unheld]; decide)).trans (congrArg Host.Outcome.next ?_))
      refine (privWrite_alias hc v s).1.trans ?_
      unfold jobWrite
      dsimp only
      have low : (v &&& 0x0000FFF7FFFFFFFF).setWidth 32 = v.setWidth 32 := by
        rw [BitVec.setWidth_and]
        exact BitVec.and_allOnes
      rw [jobWrite_mask, updCore, low]
end Sys2Proof.Machine
end

section
/-!
PROOFS. Packets on their way: hops, replies, acknowledgements, probes, the router, beats (R53, R56 to R60, R71, R192, R199, R201, R212).
-/

namespace Sys2Proof.Machine

set_option Elab.async false

variable {s : State}

/-! ## Releases that nobody waits for -/

theorem releaseStep_none {c : Nat} {k : Fin 8} (h : ∀ x, (hartAt s c k).wait ≠ .release x) : releaseStep c k s = s := by
  unfold releaseStep
  dsimp only
  split
  · next x wait => exact absurd wait (h x)
  · rfl

theorem releaseSteps_none {c : Nat} (h : noRelease s c = true) : releaseSteps c s = s := by
  have each (k : Fin 8) : ∀ x, (hartAt s c k).wait ≠ .release x := by
    intro x wait
    have := List.all_eq_true.mp h k (List.mem_finRange k)
    rw [wait] at this
    cases this
  exact foldl_stays (fun k => by rw [releaseStep_none (each k), releaseStep_none (each k)]) _

/-- The harts of a core still do not wait for a release when one of them changed, its wait apart. -/
theorem noRelease_updHart {c x : Nat} {k : Fin 8} {f : Hart → Hart} (same : (f (hartAt s x k)).wait = (hartAt s x k).wait)
    (h : noRelease s c = true) : noRelease (updHart s x k f) c = true := by
  refine List.all_eq_true.mpr fun j hj => ?_
  have old := List.all_eq_true.mp h j hj
  have wait : (hartAt (updHart s x k f) c j).wait = (hartAt s c j).wait := by
    rw [hartAt_updHart]
    split
    · next at_k => rw [same, at_k.1, at_k.2]
    · rfl
  rw [wait]
  exact old

/-! ## What an acknowledgement leaves of its hart (R192, R201) -/

theorem acked_form (d : Dest) (now : Nat) (h : Hart) : h.acked d now =
    { h with bankOut := if d = .bank then h.bankOut - 1 else h.bankOut, recent := (h.acked d now).recent } := by
  cases d <;> rfl

theorem failed_form (va : BitVec 64) (id : Nat) (h : Hart) : h.failed va id =
    { h with errAck := if h.errAck = none ∨ id < h.errId then some va else h.errAck, errId := (h.failed va id).errId } := by
  unfold Hart.failed
  by_cases c : h.errAck = none ∨ id < h.errId
  · rw [if_pos (by simpa using c), if_pos c]
  · rw [if_neg (by simpa using c), if_neg c]


/-- A hart whose request came back with its value (R192). -/
def Hart.answered (dst : Dest) (now : Nat) (h : Hart) : Hart := { h with wait := .none }.acked dst now

theorem answered_form (dst : Dest) (now : Nat) (h : Hart) : h.answered dst now =
    { h with wait := .none, bankOut := if dst = .bank then h.bankOut - 1 else h.bankOut, recent := (h.answered dst now).recent } := acked_form _ _ _

/-- An update of a hart of an event, with a value in gd and the instruction done: what it leaves. -/
theorem slotOnly_done {c : Nat} (hc : c < 2048) (k : Fin 8) (d : BitVec 5) (v : BitVec 64) (f : Hart → Hart) (pc : ∀ h, (f h).pc = h.pc) (s : State) :
    let t := actAs c k (fun s => done4 d v (updMe s f)) s
    hartAt t c k = ((f (hartAt s c k)).setG d v).retired ((hartAt s c k).pc + 4) ∧ (coreAt t c).instret = (coreAt s c).instret + 1 ∧
      t.net = s.net ∧ SlotOnly s t c k := by
  have start : me (asHart c k s) = hartAt s c k := me_asHart hc k s
  have core : (asHart c k s).curCore.val = c := Nat.mod_eq_of_lt hc
  have whole : done4 d v (updMe (asHart c k s) f) = retireAt ((hartAt s c k).pc + 4) (updMe (asHart c k s) fun h => (f h).setG d v) := by
    rw [done4, retire, setG, updMe_updMe, me_updMe, setG_pc, pc, start]
  have rest : RestKept (asHart c k s) (done4 d v (updMe (asHart c k s) f)) := by rw [whole]; exact restKept_retireAt_updMe _ _ _
  refine ⟨(hartAt_actAs hc rest).trans ?_, ?_, (net_of_kept rest.machine : _), slotOnly_actAs hc rest⟩
  · rw [whole, me_retireAt, me_updMe, start]
  · have same : coreAt (actAs c k (fun s => done4 d v (updMe s f)) s) c = myCore (done4 d v (updMe (asHart c k s) f)) := by
      rw [myCore, curCore_of_kept rest.machine, core]; rfl
    rw [same, whole, myCore_retireAt, counted_instret]
    rw [myCore_updMe]
    show (coreAt s (asHart c k s).curCore.val).instret + 1 = _
    rw [core]

/-! ## Packets that leave a stage -/

section
variable {p : Pkt} (found : findPkt s p.id = some p)
include found

/-- A store whose core's column has no other packet passes a stage of the omega network (R56). -/
theorem switchHop_store {j n : Nat} {x : BitVec 64} {nc : Bool} (loc : p.loc = .omega j) (kind : p.kind = .store n x nc)
    (alone : ∀ q ∈ s.net, q.id = p.id ∨ colOf q.core ≠ colOf p.core) (free : j = 8 → atHeldAlias s p = false) :
    exec (.switchHop p.id) s = .next (if j < 8 then putPkt { p with loc := .omega (j + 1) } s else leaveOmega p s) := by
  have first : behind s p j p.id = false := by
    refine List.any_eq_false.mpr fun q hq h => ?_
    obtain same | apart := alone q hq
    · simp [same] at h
    · simp only [Bool.and_eq_true, beq_iff_eq] at h
      exact apart (congrArg colOf h.1.1.2)
  have held : (j == 8 && atHeldAlias s p) = false := by
    by_cases h : j = 8
    · rw [free h, Bool.and_false]
    · rw [beq_false_of_ne h]; rfl
  have nobody : (s.net.filter fun q => q.id != p.id && together p q j) = [] := by
    refine List.filter_eq_nil_iff.mpr fun q hq h => ?_
    simp only [together, Bool.and_eq_true, bne_iff_ne, ne_eq, beq_iff_eq] at h
    obtain same | apart := alone q hq
    · exact h.1 same
    · exact apart h.2.1.1.1.symm
  show execSwitchHop p.id s = _
  unfold execSwitchHop
  rw [found]; dsimp only
  rw [loc]; dsimp only
  rw [first, held, nobody, kind]
  rfl

end

/-- A hart whose store has been performed, or has failed (R192, R201). -/
def Hart.performed (dst : Dest) (now : Nat) (p : Pkt) (h : Hart) : Hart :=
  if p.err then (h.acked dst now).failed p.va p.id else h.acked dst now

theorem performed_form (dst : Dest) (now : Nat) (p : Pkt) (h : Hart) : h.performed dst now p = { h with
    bankOut := if dst = .bank then h.bankOut - 1 else h.bankOut
    errAck := if p.err = true ∧ (h.errAck = none ∨ p.id < h.errId) then some p.va else h.errAck
    errId := (h.performed dst now p).errId, recent := (h.performed dst now p).recent } := by
  unfold Hart.performed
  by_cases err : p.err = true
  · rw [if_pos err, failed_form, acked_form]
    simp only [err, true_and]
  · rw [if_neg err, acked_form]
    simp only [err, false_and, if_false, Bool.false_eq_true]

section
variable {p : Pkt} (found : findPkt s p.id = some p)
include found

theorem queuedPkt_of_found (loc : p.loc = .queued) : queuedPkt s p.id = some p := by
  obtain ⟨at_id, before, after, split, none⟩ := List.find?_eq_some_iff_append.mp found
  refine List.find?_eq_some_iff_append.mpr ⟨by rw [at_id, loc]; rfl, before, after, split, fun a ha => ?_⟩
  have := none a ha
  simp only [Bool.not_eq_true'] at this ⊢
  rw [this, Bool.false_and]

/-- The reply of an atomic reaches its hart, which has its value (R56, R209). -/
theorem replyHop_am {op : AmOp} {n : Nat} {x e : BitVec 64} {d : BitVec 5} (loc : p.loc = .reply 0) (wants : p.wants = true)
    (kind : p.kind = .am op n x e d) (good : p.err = false) (waits : (hartAt s p.core p.slot).wait = .reply p.id) :
    exec (.replyHop p.id) s = .next (actAs p.core p.slot (fun u => done4 d (amWriteBack op n p.val)
      (updMe u (Hart.answered (destOf (dropPkt p.id s) p.core p.gpa) s.clock))) (dropPkt p.id s)) := by
  show execReplyHop p.id s = _
  unfold execReplyHop
  rw [found]; dsimp only
  rw [loc]; dsimp only
  rw [if_pos wants]
  unfold delivered
  rw [kind]; dsimp only
  refine congrArg Host.Outcome.next ((if_neg (not_not.mpr waits)).trans ?_)
  rw [actAs_eq, actAs_eq, good]
  simp only [updMe_updMe]
  rfl

/-- A beat of a request that comes again where the request is (R71). -/
theorem beat_run {unit : Nat} {src : BitVec 4} {ok : Bool} (here : p.id ≠ 0 ∧ (∀ i j x, p.loc ≠ .merged i j x) ∧ (∀ i j, p.loc ≠ .shared i j) ∧
    (src = 3 ∨ src.toNat = lossSrc s p)) : exec (.beatRetransmission ⟨p.id, unit, src⟩ ok) s = .next (
      if ok then countSoft (colOf p.core) (putPkt { p with beats := 0 } s)
      else if p.beats < 8 then putPkt { p with beats := p.beats + 1 } s
      else lose p (logError (colOf p.core) src.toNat (lossUnit src.toNat p) p.gpa s)) := by
  obtain ⟨named, apart, unshared, place⟩ := here
  show execBeatRetransmission _ ok s = _
  unfold execBeatRetransmission
  rw [if_neg named]; dsimp only
  rw [found]; dsimp only
  refine (if_neg ?_).trans ?_
  · rw [Bool.not_eq_true', Bool.not_eq_false]
    split
    · next at_p => exact absurd at_p (apart _ _ _)
    · next at_p => exact absurd at_p (unshared _ _)
    · simpa using place
  · split
    · rfl
    · split <;> rfl

theorem acknowledgement_store {n : Nat} {x : BitVec 64} {nc : Bool} (loc : p.loc = .ack) (kind : p.kind = .store n x nc) (hc : p.core < 2048)
    (calm : noRelease s p.core = true) : exec (.acknowledgement p.id) s =
      .next (updHart (dropPkt p.id s) p.core p.slot (Hart.performed (destOf s p.core p.gpa) s.clock p)) := by
  have run : exec (.acknowledgement p.id) s = .next (releaseSteps p.core
      (updHart (dropPkt p.id s) p.core p.slot (Hart.performed (destOf s p.core p.gpa) s.clock p))) := by
    show execAcknowledgement p.id s = _
    unfold execAcknowledgement
    rw [found]; dsimp only
    rw [if_neg (not_not.mpr loc), if_neg (Nat.not_le.mpr hc), kind]
    rfl
  rw [releaseSteps_none (noRelease_updHart (s := dropPkt p.id s) (by rw [performed_form]) calm)] at run
  exact run

end

theorem noteConflict_store {p : Pkt} {n : Nat} {x : BitVec 64} {nc : Bool} (kind : p.kind = .store n x nc) : noteConflict p s = s := by
  exact if_pos (by simp [kind])

theorem leaveOmega_store {p : Pkt} {n off : Nat} {x : BitVec 64} {nc : Bool} (kind : p.kind = .store n x nc)
    (home : targetOf s p.gpa = .dram (colOf p.core) off) : leaveOmega p s = queuePkt p s := by
  unfold leaveOmega
  rw [noteConflict_store kind, kind, home]
  exact if_pos rfl

theorem routePkt_store {p : Pkt} {n off : Nat} {c : Fin 8} {x : BitVec 64} {nc : Bool} (kind : p.kind = .store n x nc)
    (home : targetOf s p.gpa = .dram c off) : routePkt p s = queuePkt p s := by
  unfold routePkt
  rw [noteConflict_store kind, kind, home]

theorem answered_lost {p : Pkt} (plain : p.wants = false) (guests : noGuests s p.id = true) (v : BitVec 64) (err : Bool) :
    answered p v err s = putPkt { p with val := v, err := err, loc := .ack } s := by
  refine congrArg (fun l => putPkt { p with val := v, err := err, loc := l } s) (if_neg ?_)
  rw [plain, Bool.false_or, Bool.not_eq_true]
  refine List.any_eq_false.mpr fun q hq h => ?_
  have stranger := List.all_eq_true.mp guests q hq
  split at h
  · next at_q =>
    rw [at_q] at stranger
    exact bne_iff_ne.mp stranger (beq_iff_eq.mp h)
  · next at_q =>
    rw [at_q] at stranger
    exact bne_iff_ne.mp stranger (beq_iff_eq.mp h)
  · cases h

/-- The errors of a column are logged without a trace elsewhere (R74). -/
theorem logError_kept (k : Fin 8) (src unit gpa : Nat) (s : State) : (logError k src unit gpa s).mem = s.mem ∧
    (logError k src unit gpa s).cores = s.cores ∧ (colAt (logError k src unit gpa s) k).errinfo.getLsbD 63 = true := by
  unfold logError
  dsimp only
  split
  · next valid => exact ⟨rfl, rfl, by rw [colAt_updCol_self]; simp [valid]⟩
  · obtain ⟨u, hu⟩ : ∃ u, u = updCol s k fun c => { c with
      errinfo := (1#64 <<< 63) ||| (c.errinfo &&& (1#64 <<< 62)) ||| (BitVec.ofNat 64 src <<< 52) ||| (BitVec.ofNat 64 unit <<< 40)
      erraddr := BitVec.ofNat 64 (gpa / 64 * 64) } := ⟨_, rfl⟩
    rw [← hu]
    obtain ⟨int, pend, sent, raised, -⟩ := raiseInt_form 3 u
    rw [raised]
    refine ⟨(congrArg State.mem hu :), (congrArg State.cores hu :), ?_⟩
    show (colAt u k).errinfo.getLsbD 63 = true
    rw [hu, colAt_updCol_self]
    simp

/-- A store that is lost on the omega network is answered with an error (R72). -/
theorem lose_store {p : Pkt} {n j : Nat} {x : BitVec 64} {nc : Bool} (kind : p.kind = .store n x nc) (loc : p.loc = .omega j) (plain : p.wants = false)
    (guests : noGuests s p.id = true) : lose p s = putPkt { p with beats := 0, val := 0, err := true, loc := .ack } s := by
  have lost := answered_lost (p := { p with beats := 0 }) plain guests 0 true
  cases p
  subst kind loc
  exact lost

theorem store_of_match {p : Pkt} (h : (match p.kind with | .store _ _ _ => true | _ => false) = true) : ∃ n x nc, p.kind = .store n x nc := by
  split at h
  · exact ⟨_, _, _, ‹_›⟩
  · cases h

/-- Settles O51: each event finds its packet by its number and moves it alone. -/
theorem packetEvents : Obligations.PacketEvents := by
  intro s p found id store h onBeat
  have cold {p : Pkt} {t : State} {c : Fin 8} {off : Nat} (home : targetOf t p.gpa = .dram c off) : atHeldAlias t p = false := by
    unfold atHeldAlias; rw [home]
  refine ⟨fun j loc isStore alone => ?_, fun j loc guests => ?_, fun op n x e d loc wants kind good hc waits => ?_, fun loc isStore hc calm => ?_,
    fun k kind loc earlier hosts => ?_, fun k j kind loc calm => ?_, fun loc isStore hold order home => ?_, fun i lost => ?_,
    fun unit src few beat => ?_, fun unit src j many beat isStore plain loc guests => ?_, fun unit src beat => ?_, fun n e entry old => ?_, ?_⟩
  · obtain ⟨n, x, nc, kind⟩ := store_of_match isStore
    refine ⟨fun low => ?_, fun last home => ?_⟩
    · rw [switchHop_store found loc kind alone (fun e => absurd e (by omega)), if_pos low]; rfl
    · obtain ⟨off, home⟩ := home
      rw [switchHop_store found loc kind alone (fun _ => cold home), if_neg (by omega), leaveOmega_store kind home]; rfl
  · refine ⟨{ s with
      net := s.net.map fun x => if x.id = id then { x with loc := .reply j } else x
      entries := s.entries.filter fun e => !(e.pkt == id && e.stage == j + 1) }, ?_, rfl, rfl⟩
    show execReplyHop id s = _
    unfold execReplyHop
    rw [show findPkt s id = _ from found]; dsimp only
    rw [loc]; dsimp only
    refine congrArg (fun l => Host.Outcome.next { s with net := l, entries := s.entries.filter fun e => !(e.pkt == id && e.stage == j + 1) })
      (List.map_congr_left fun q hq => ?_)
    split
    · rfl
    · have stranger := List.all_eq_true.mp guests q hq
      split
      · next i st add at_q =>
        rw [at_q] at stranger
        exact if_neg fun same => bne_iff_ne.mp stranger same.1
      · next i st at_q =>
        rw [at_q] at stranger
        exact if_neg fun same => bne_iff_ne.mp stranger same.1
      · rfl
  · have run := replyHop_am found loc wants kind good waits
    obtain ⟨hart, count, net, only⟩ := slotOnly_done hc p.slot d (amWriteBack op n p.val)
      (Hart.answered (destOf (dropPkt id s) p.core p.gpa) s.clock) (fun h => by rw [answered_form]) (dropPkt id s)
    refine ⟨_, run, net, congrArg Hart.pc hart, ?_, fun r hr => ?_, count, only.of_net rfl⟩
    · rw [hart, gr_retired, gr_setG, if_pos rfl]
    · rw [hart, gr_retired, gr_setG, if_neg hr, answered_form]; rfl
  · obtain ⟨n, x, nc, kind⟩ := store_of_match isStore
    have run := acknowledgement_store found loc kind hc calm
    have hart := hartAt_updHart_self (dropPkt id s) p.core p.slot (Hart.performed (destOf s p.core p.gpa) s.clock p)
    refine ⟨_, run, rfl, ?_, ?_, fun r => ?_, ?_, (slotOnly_updHart _ _ _).of_net rfl⟩
    all_goals rw [hart, performed_form]
    · rfl
    · rfl
    · rfl
    · rfl
  · show execProbe id s = _
    unfold execProbe
    rw [queuedPkt_of_found found loc]; dsimp only
    rw [kind]; dsimp only
    refine congrArg Host.Outcome.next (if_neg ?_)
    rw [Bool.not_eq_true, Bool.or_eq_false_iff]
    refine ⟨List.any_eq_false.mpr fun q hq old => ?_, ?_⟩
    · simp only [Bool.and_eq_true, decide_eq_true_eq, beq_iff_eq] at old
      obtain ⟨⟨⟨⟨⟨first, core⟩, slot⟩, write⟩, dest⟩, settled⟩ := old
      obtain apart | waits := earlier q hq first core slot write
      · exact apart dest
      · obtain ⟨f, at_q⟩ := waits
        rw [at_q] at settled
        cases settled
    · rw [Bool.and_eq_false_iff]
      by_cases seven : k = 7 ∧ destOf s p.core p.gpa = .host
      · refine .inr (List.any_eq_false.mpr fun w hw open' => ?_)
        simp only [Bool.and_eq_true, decide_eq_true_eq, beq_iff_eq] at open'
        exact hosts seven.1 seven.2 w hw open'.1.1 open'.1.2 open'.2
      · refine .inl ?_
        simpa using seven
  · have run : exec (.echo id) s = .next (releaseSteps p.core (updHart (dropPkt id s) p.core p.slot fun h => { h with probes := h.probes - 1 })) := by
      show execEcho id s = _
      unfold execEcho
      rw [show findPkt s id = _ from found]; dsimp only
      rw [kind, loc]
    rw [releaseSteps_none (noRelease_updHart (s := dropPkt id s) rfl calm)] at run
    exact ⟨_, run, rfl, hartAt_updHart_self _ _ _ _, (slotOnly_updHart _ _ _).of_net rfl⟩
  · obtain ⟨n, x, nc, kind⟩ := store_of_match isStore
    obtain ⟨c, off, home⟩ := home
    show execRoute id s = _
    unfold execRoute
    rw [show findPkt s id = _ from found]; dsimp only
    rw [if_neg (by simp [loc, hold, order])]
    split
    · next l n at_p => rw [kind] at at_p; cases at_p
    · exact congrArg Host.Outcome.next (routePkt_store kind home)
  · show execAcknowledgement i s = _
    unfold execAcknowledgement
    rw [lost]
  · have run : exec (.beatRetransmission ⟨id, unit, src⟩ false) s = _ := beat_run found beat
    rw [run]
    exact congrArg Host.Outcome.next (if_pos few)
  · obtain ⟨n, x, nc, kind⟩ := store_of_match isStore
    have run : exec (.beatRetransmission ⟨id, unit, src⟩ false) s = _ := beat_run found beat
    obtain ⟨mem, cores, valid⟩ := logError_kept (colOf p.core) src.toNat (lossUnit src.toNat p) p.gpa s
    have net := logError_net (s := s) (k := colOf p.core) (src := src.toNat) (unit := lossUnit src.toNat p) (gpa := p.gpa)
    obtain ⟨t, ht⟩ : ∃ t, t = logError (colOf p.core) src.toNat (lossUnit src.toNat p) p.gpa s := ⟨_, rfl⟩
    rw [← ht] at mem cores valid net run
    have guests' : noGuests t p.id = true := by rw [noGuests, net]; exact guests
    rw [if_neg Bool.false_ne_true, if_neg (Nat.not_lt.mpr many), lose_store kind loc plain guests'] at run
    exact ⟨_, run, congrArg (List.map _) net, valid, mem, cores⟩
  · have run : exec (.beatRetransmission ⟨id, unit, src⟩ true) s = _ := beat_run found beat
    refine ⟨_, run, rfl, ?_, rfl, rfl⟩
    rw [if_pos rfl]
    unfold countSoft
    rw [colAt_updCol_self]
    rfl
  · show execReplyEntryExpiry n s = _
    unfold execReplyEntryExpiry
    rw [entry]
    exact congrArg Host.Outcome.next (if_pos old)
  · intro c k n hc r quiet old bit
    have run : exec (.countdownExpiry c k n) s =
        .next (updHart s c k.toFin fun h => { h with recent := tabPut h.recent n { r with bit := false } }) := by
      show execCountdownExpiry c k n s = _
      unfold execCountdownExpiry
      rw [if_neg (Nat.not_le.mpr hc)]
      exact congrArg Host.Outcome.next (if_pos ⟨quiet, old, bit⟩)
    refine ⟨_, run, fun m => ?_, ?_, slotOnly_updHart _ _ _⟩
    · rw [hartAt_updHart_self]
      exact tabGet_tabPut _ _ _ _ _
    · rw [hartAt_updHart_self]
end Sys2Proof.Machine
end

section
/-!
PROOFS. Slices, banks, combining and the drain of the write queue (R53, R58, R60, R120, R192, R196).
-/

namespace Sys2Proof.Machine

set_option Elab.async false

variable {s : State}

/-! ## A store performed at its owner -/

theorem answered_store {p : Pkt} {n : Nat} {x : BitVec 64} {nc : Bool} (kind : p.kind = .store n x nc) {t : State} {a : Nat}
    (write : ownerWrite p.coh a n x.toNat s = (true, t)) (plain : p.wants = false) (guests : noGuests t p.id = true) :
    performPkt { p with gpa := a } s = withPkt t p.id { p with gpa := a, val := 0, err := false, loc := .ack } := by
  have done := answered_lost (p := { p with gpa := a }) plain guests 0 false
  unfold performPkt
  dsimp -iota only
  rw [kind] at done ⊢
  dsimp only
  rw [write]
  exact done

theorem ownerWrite_bank {coh : Bool} {a n x c w b : Nat} (sound : degradedAt s a = false) (target : targetOf s a = .bank c w b)
    (good : lineBad s a = false) (on : bankCheck s c w = none) : ownerWrite coh a n x s = (true, { s with mem := memWrite s.mem a n x }) := by
  rw [ownerWrite, sound, if_neg Bool.false_ne_true, target]
  dsimp only
  rw [good, on]
  rfl

theorem stored_memWrite {t : State} (ok : State.memOk s) {a n x : Nat} (h : t.mem = memWrite s.mem a n x) : Stored s t a n x := by
  refine ⟨fun k hk => ?_, fun b out => ?_⟩
  · rw [byteAt, h]; exact memGet_memWrite_inside n s.mem a x k ok hk
  · rw [byteAt, h]; exact memGet_memWrite_outside n s.mem a x b ok out

/-- A store of at most 8 bytes at the home of a good line. -/
theorem ownerWrite_dram (none : NoCopies s) {coh : Bool} {a n x off : Nat} {col : Fin 8} (target : targetOf s a = .dram col off)
    (sound : degradedAt s a = false) (bus : (colAt s col).vbstat.getLsbD 63 = false) (err : (colAt s col).lineErr off = false) (small : n ≤ 8) :
    ∃ t, ownerWrite coh a n x s = (true, t) ∧ { t with cols := s.cols, mem := s.mem } = s ∧ t.mem = memWrite s.mem a n x := by
  have good := homeRead_good (g := a) (w := true) bus err
  have only := onlyCols_homeRead none (gpa := a) (w := true) bus err
  have collected : (if coh then collectAll col (a / 64) s else s) = s := by rw [collectAll_none none, ite_self]
  obtain ⟨u, hu⟩ : ∃ u, u = (homeRead col off a true s).2 := ⟨_, rfl⟩
  rw [← hu] at only
  refine ⟨{ u with mem := memWrite u.mem a n x }, ?_, ?_, ?_⟩
  · rw [ownerWrite, sound, if_neg Bool.false_ne_true, target]
    dsimp only
    rw [collected, if_neg (by omega), ← Prod.eta (homeRead col off a true s), good, ← hu]
    rfl
  · rw [only]
  · rw [only]

theorem degradedAt_dram {a off : Nat} {col : Fin 8} (target : targetOf s a = .dram col off) (bus : (colAt s col).vbstat.getLsbD 63 = false) :
    degradedAt s a = false := by
  obtain ⟨-, -, -, column, -⟩ := targetOf_dram.mp target
  have same : (⟨gpaCol a, Nat.mod_lt _ (by decide)⟩ : Fin 8) = col := Fin.ext column.symm
  rw [degradedAt, same, bus, Bool.and_false]

/-- The turn of a bank is no part of its checks. -/
theorem bankCheck_takeBank (k b w x y : Nat) : bankCheck (takeBank k b w s) x y = bankCheck s x y := by
  have core : (coreAt (takeBank k b w s) x).unloaded = (coreAt s x).unloaded ∧ (coreAt (takeBank k b w s) x).nbank = (coreAt s x).nbank := by
    unfold takeBank
    rw [coreAt_updCore]
    split
    · next same => rw [same]; exact ⟨rfl, rfl⟩
    · exact ⟨rfl, rfl⟩
  unfold bankCheck
  dsimp only
  rw [core.1, core.2]
  rfl

theorem lineBad_takeBank {a c y n : Nat} (target : targetOf s a = .bank c y n) (k b w : Nat) : lineBad (takeBank k b w s) a = lineBad s a := by
  have core : (coreAt (takeBank k b w s) c).unloaded = (coreAt s c).unloaded := by
    unfold takeBank
    rw [coreAt_updCore]
    split
    · next same => rw [same]
    · rfl
  have target' : targetOf (takeBank k b w s) a = .bank c y n := target
  rw [lineBad, lineBad, target, target']
  dsimp only
  rw [core]
  rfl

/-! ## Which request a unit takes -/

theorem sliceOf_lt (off : Nat) : sliceOf off < 64 := by
  unfold sliceOf
  have bound (i : Nat) : off / 2 ^ i % 64 < 2 ^ 6 := Nat.mod_lt _ (by decide)
  exact Nat.xor_lt_two_pow (Nat.xor_lt_two_pow (Nat.xor_lt_two_pow (Nat.xor_lt_two_pow (bound 6) (bound 12)) (bound 18)) (bound 24)) (bound 30)

/-- One of four ports in turn, the one whose request is the only one. -/
theorem findSome_port {α : Type} {f : Nat → Option α} {x : α} {i : Nat} (hi : i < 4) (one : f i = some x) (rest : ∀ j < 4, j ≠ i → f j = none) :
    (List.range 4).findSome? f = some x := by
  obtain ⟨y, hy⟩ : ∃ y, (List.range 4).findSome? f = some y :=
    Option.ne_none_iff_exists'.mp fun none => by
      have := List.findSome?_eq_none_iff.mp none i (List.mem_range.mpr hi)
      rw [one] at this; cases this
  obtain ⟨j, hj, found⟩ := List.exists_of_findSome?_eq_some hy
  by_cases same : j = i
  · rw [hy, ← found, same, one]
  · rw [rest j (List.mem_range.mp hj) same] at found; cases found

theorem find_only {α : Type} {f : α → Bool} {p : α} (yes : f p = true) : ∀ l : List α, p ∈ l → (∀ q ∈ l, q = p ∨ f q = false) → l.find? f = some p
  | [], h, _ => by cases h
  | q :: l, h, only => by
    by_cases hq : f q = true
    · have same : q = p := (only q (List.mem_cons_self)).resolve_right (by rw [hq]; decide)
      rw [List.find?_cons_of_pos hq, same]
    · rw [List.find?_cons_of_neg hq]
      refine find_only yes l ((List.mem_cons.mp h).resolve_left fun same => hq (same ▸ yes)) fun r hr => only r (List.mem_cons_of_mem _ hr)

theorem mem_of_findPkt {p : Pkt} (found : findPkt s p.id = some p) : p ∈ s.net := List.mem_of_find?_eq_some found

/-- The slice's port is turned to the one that won. -/
def Column.turned (slice port : Nat) (c : Column) : Column := { c with slicePort := tabPut c.slicePort slice port }

theorem sliceRequest_run {p : Pkt} {n off : Nat} {x : BitVec 64} {nc : Bool} {c : Fin 8} (found : findPkt s p.id = some p)
    (kind : p.kind = .store n x nc) (loc : p.loc = .queued) (home : targetOf s p.gpa = .dram c off) (alone : ∀ q ∈ s.net, q = p ∨ q.loc ≠ .queued)
    (cool : (colAt s c).tripped = false) (coh : p.coh = false) :
    exec (.sliceRequest c.val (sliceOf off)) s = .next (performPkt p (updCol s c (Column.turned (sliceOf off) (outPort p % 4)))) := by
  have here : atSlice s c.val (sliceOf off) p = true := by
    unfold atSlice
    rw [loc, kind, home]
    simp
  have open' : pktBarred s p = false := by
    unfold pktBarred homeBarred
    rw [kind, home, coh]
    rfl
  have only (f : Pkt → Bool) : ∀ q ∈ s.net, q = p ∨ (atSlice s c.val (sliceOf off) q && f q) = false := fun q hq =>
    (alone q hq).imp_right fun other => by
      unfold atSlice
      rw [beq_false_of_ne other]; rfl
  have column : (⟨c.val % 8, Nat.mod_lt _ (by decide)⟩ : Fin 8) = c := Fin.ext (Nat.mod_eq_of_lt c.isLt)
  show execSliceRequest _ _ s = _
  unfold execSliceRequest
  rw [if_neg (by have := c.isLt; have := sliceOf_lt off; omega)]
  dsimp only
  rw [column, if_neg (by rw [cool]; decide)]
  have port : ∃ i < 4, outPort p % 4 = (tabGet 3 (colAt s c).slicePort (sliceOf off) + 1 + i) % 4 :=
    ⟨(outPort p % 4 + 3 * (tabGet 3 (colAt s c).slicePort (sliceOf off) + 1)) % 4, Nat.mod_lt _ (by decide), by omega⟩
  obtain ⟨i, hi, port⟩ := port
  rw [findSome_port hi (x := p) ?_ ?_]
  · rfl
  · rw [find_only (p := p) (by rw [here, port]; simp) s.net (mem_of_findPkt found) (only _)]
    exact congrArg (fun b : Bool => if (!b) = true then some p else none) open'
  · intro j hj apart
    rw [List.find?_eq_none.mpr]
    · rfl
    · intro q hq at_q
      obtain rfl | no := only (fun q => outPort q % 4 == (tabGet 3 (colAt s c).slicePort (sliceOf off) + 1 + j) % 4) q hq
      · simp only [Bool.and_eq_true, beq_iff_eq] at at_q
        omega
      · rw [no] at at_q; cases at_q


theorem bankAccess_run {p : Pkt} {n c w : Nat} {x : BitVec 64} {nc : Bool} (found : findPkt s p.id = some p) (kind : p.kind = .store n x nc)
    (loc : p.loc = .mesh) (bank : pktBank s p = some (c, w)) (hc : c < 2048) (hw : w < 16) (alone : ∀ q ∈ s.net, q = p ∨ q.loc ≠ .mesh ∧ q.loc ≠ .queued)
    (cool : (colAt s (colOf c)).tripped = false) (stops : stopping s c = false) :
    exec (.bankAccess c w) s = .next (performPkt { p with gpa := redirect s p.job p.gpa } (takeBank p.core c w s)) := by
  have here : atBank s c w p = true := by
    unfold atBank
    rw [loc, kind, bank]
    simp
  have first (own : Bool) : (s.net.find? fun p => atBank s c w p && (p.core == c) == own && (own || !stopping s c)) =
      if (p.core == c) = own then some p else none := by
    have only (f : Pkt → Bool) : ∀ q ∈ s.net, q = p ∨ (atBank s c w q && f q) = false := fun q hq =>
      (alone q hq).imp_right fun other => by
        unfold atBank
        rw [beq_false_of_ne other.1, beq_false_of_ne other.2]; rfl
    simp only [stops, Bool.not_false, Bool.or_true, Bool.and_true]
    split
    · next same => exact find_only (by rw [here, same]; simp) s.net (mem_of_findPkt found) (only _)
    · next apart =>
      refine List.find?_eq_none.mpr fun q hq at_q => ?_
      obtain rfl | no := only (fun q => (q.core == c) == own) q hq
      · simp only [Bool.and_eq_true, beq_iff_eq] at at_q
        exact apart at_q.2
      · rw [no] at at_q; cases at_q
  show execBankAccess _ _ s = _
  unfold execBankAccess
  rw [if_neg (by omega)]
  dsimp only
  rw [if_neg (by rw [cool]; decide)]
  have taken : ((s.net.find? fun p => atBank s c w p && (p.core == c) == !tabGet false (coreAt s c).bankLocal w && (!tabGet false (coreAt s c).bankLocal w || !stopping s c)).or
      (s.net.find? fun p => atBank s c w p && (p.core == c) == !!tabGet false (coreAt s c).bankLocal w && (!!tabGet false (coreAt s c).bankLocal w || !stopping s c))) = some p := by
    rw [first, first]
    cases (p.core == c) <;> cases tabGet false (coreAt s c).bankLocal w <;> rfl
  rw [taken]

/-! ## Two reductions combined (R58, R60) -/

theorem switchHop_reds {p q : Pkt} {j : Nat} {a b : BitVec 64} (net : s.net = [p, q]) (order : p.id < q.id) (loc : p.loc = .omega j)
    (same : together p q j = true) (kp : p.kind = .red .add 8 a) (kq : q.kind = .red .add 8 b) (gpa : p.gpa = q.gpa) (coh : p.coh = q.coh)
    (ports : idxOf p.core < idxOf q.core) (free : atHeldAlias s p = false) :
    exec (.switchHop p.id) s = .next { s with net := [{ p with kind := .red .add 8 (a + b) }, { q with loc := .merged p.id j 0 }] } := by
  have found : findPkt s p.id = some p := by rw [findPkt, net]; exact List.find?_cons_of_pos (beq_self_eq_true _)
  have apart : q.id ≠ p.id := Nat.ne_of_gt order
  have first : behind s p j p.id = false ∧ behind s p j q.id = false ∧ behind s q j p.id = false := by
    simp [behind, net, Nat.lt_asymm order]
  have partner : (s.net.filter fun r => r.id != p.id && together p r j) = [q] := by simp [net, same, apart]
  have merged : mergePkts j p q s = some { s with net := [{ p with kind := .red .add 8 (a + b) }, { q with loc := .merged p.id j 0 }] } := by
    unfold mergePkts
    rw [if_neg (by simp [combinablePkt, kp, kq, gpa, coh, first])]
    dsimp only
    rw [if_pos (by simp [ports]), kp, kq]
    simp [combineOps, putPkt, net, apart, apart.symm]
  show execSwitchHop p.id s = _
  unfold execSwitchHop
  rw [found]; dsimp only
  rw [loc]; dsimp only
  rw [first.1, free, partner]
  simp [merged, loc]


/-! ## The drain of the write queue (R196, R198) -/

/-- The request that a write-queue entry leaves as. -/
def WEntry.request (e : WEntry) : PKind :=
  match e.kind with
  | .store => .store e.n e.data e.nc
  | .red op => .red op e.n e.data
  | .vec m d => .vstore m d

/-- The packet of an entry of core c that leaves the write queue. -/
def leavingPkt (s : State) (c : Nat) (e : WEntry) (loc : PLoc) (coh : Bool) : Pkt :=
  { id := s.nextId, core := c, slot := e.slot, job := (coreAt s c).job, kind := e.request, gpa := e.gpa, va := e.va, loc := loc
    born := s.clock, wants := false, val := 0, err := false, comb := false, coh := coh, beats := 0 }

/-- An entry that the core's cache ways serve. -/
def cachedEntry (s : State) (c : Nat) (e : WEntry) : Bool := !e.nc && e.kind == .store && decide (0 < cacheWays s c)

/-- Core c without the first entry of its write queue. -/
def drained (s : State) (c : Nat) : State := updCore s c fun q => { q with wq := q.wq.eraseIdx 0 }

/-- What the entry that left brings about. -/
def leaves (s : State) (c : Nat) (e : WEntry) (cached : Bool) : State :=
  let dst := destOf s c e.gpa
  if cached then
    let held := match (coreAt s c).cwFind (e.gpa / 64) with | some l => l.tokens == 256 | none => false
    if held then
      updHart (cwStore c (e.gpa / 64) (fun d => linePut d (e.gpa % 64) e.n e.data.toNat) s) c e.slot fun h => h.recentWrite dst s.clock
    else
      updHart (sendPkt s (leavingPkt s c e (.tokens 0) true)) c e.slot fun h => { h.recentWrite dst s.clock with tokOut := h.tokOut + 1 }
  else updHart (sendPkt s (leavingPkt s c e (startLoc s c e.gpa) (!e.nc))) c e.slot fun h => h.leave dst

section
variable {c : Nat} {e : WEntry} {r : List WEntry} (hc : c < 2048) (queue : (coreAt s c).wq = e :: r) (whole : assembling s c e = false)
  (cool : (colAt s (colOf c)).tripped = false) (alone : ∀ q ∈ s.net, q.core = c → q.gpa / 64 ≠ e.gpa / 64)
include hc queue whole cool alone

theorem drain_run : exec (.writeQueueDrain c) s = .next (releaseSteps c (leaves (drained s c) c e (cachedEntry s c e))) := by
  have next : nextEntry s c = some (e, 0) := by
    rw [nextEntry, queue]
    exact List.find?_cons_of_pos (by rw [whole]; rfl)
  have nobody (f : Pkt → Bool) (h : ∀ q, f q = true → (q.core == c && q.gpa / 64 == e.gpa / 64) = true) : s.net.any f = false := by
    refine List.any_eq_false.mpr fun q hq at_q => ?_
    have here := h q at_q
    simp only [Bool.and_eq_true, beq_iff_eq] at here
    exact alone q hq here.1 here.2
  show execWriteQueueDrain c s = _
  unfold execWriteQueueDrain
  rw [if_neg (Nat.not_le.mpr hc), next]
  dsimp only
  rw [nobody, nobody, cool, ite_self]
  · simp only [Bool.not_false, Bool.and_true, Bool.or_false, Bool.false_eq_true, if_false]
    rfl
  · intro q at_q
    exact (Bool.and_eq_true _ _ ▸ at_q).1
  · intro q at_q
    exact (Bool.and_eq_true _ _ ▸ (Bool.and_eq_true _ _ ▸ at_q).1).1
end

theorem wait_leave (h : Hart) (d : Dest) : (h.leave d).wait = h.wait := by
  cases d with
  | fabric v =>
    unfold Hart.leave
    dsimp only
    split
    · rfl
    · split <;> rfl
  | _ => rfl

theorem wait_recentWrite (h : Hart) (d : Dest) (now : Nat) : (h.recentWrite d now).wait = h.wait := rfl

theorem wq_drained {c : Nat} {e : WEntry} {r : List WEntry} (queue : (coreAt s c).wq = e :: r) :
    coreAt (drained s c) c = { coreAt s c with wq := r } := by
  unfold drained
  rw [coreAt_updCore_self, queue]
  rfl

theorem hartAt_drained (c x : Nat) (k : Fin 8) : hartAt (drained s c) x k = hartAt s x k := by
  unfold drained hartAt
  rw [coreAt_updCore]
  split
  · next same => rw [same]
  · rfl

theorem noRelease_drained {c : Nat} (calm : noRelease s c = true) : noRelease (drained s c) c = true :=
  List.all_eq_true.mpr fun k hk => by rw [hartAt_drained]; exact List.all_eq_true.mp calm k hk

theorem cwFind_line {q : Core} {ln : Nat} {l : CWLine} (h : q.cwFind ln = some l) : l.line = ln := by
  have := List.find?_some h
  exact beq_iff_eq.mp this

theorem cwFind_cwPut (q : Core) (l : CWLine) : (q.cwPut l).cwFind l.line = some l := by
  unfold Core.cwPut Core.cwFind
  dsimp only
  rw [tabGet_tabPut_self]
  exact List.find?_cons_of_pos (beq_self_eq_true _)

theorem destOf_drained (c x g : Nat) : destOf (drained s c) x g = destOf s x g := rfl
theorem clock_drained (c : Nat) : (drained s c).clock = s.clock := rfl

/-- An entry that no cache way serves leaves towards its home. -/
theorem leaves_home (c : Nat) (e : WEntry) :
    leaves s c e false = updHart (sendPkt s (leavingPkt s c e (startLoc s c e.gpa) (!e.nc))) c e.slot fun h => h.leave (destOf s c e.gpa) := rfl

/-- A store whose line the core holds whole is done there. -/
theorem leaves_held {c : Nat} {e : WEntry} {l : CWLine} (held : (coreAt s c).cwFind (e.gpa / 64) = some l) (all : l.tokens = 256) :
    leaves s c e true = updHart (updCore s c fun q => q.cwPut { l with data := linePut l.data (e.gpa % 64) e.n e.data.toNat, dirty := true }) c e.slot
      fun h => h.recentWrite (destOf s c e.gpa) s.clock := by
  unfold leaves cwStore updCore
  dsimp only
  rw [held]
  dsimp only
  rw [if_pos rfl, if_pos (beq_iff_eq.mpr all)]

/-- A store whose line the core does not hold waits for its tokens. -/
theorem leaves_transient {c : Nat} {e : WEntry} (none : (coreAt s c).cwFind (e.gpa / 64) = none) :
    leaves s c e true = updHart (sendPkt s (leavingPkt s c e (.tokens 0) true)) c e.slot fun h =>
      { h.recentWrite (destOf s c e.gpa) s.clock with tokOut := h.tokOut + 1 } := by
  unfold leaves
  rw [none]
  dsimp only
  rw [if_pos rfl, if_neg Bool.false_ne_true]

/-- What leaves makes nobody wait for a release. -/
theorem noRelease_leaves {c : Nat} {e : WEntry} {u : State} {f : Hart → Hart} (harts : ∀ k, hartAt u c k = hartAt s c k) (calm : noRelease s c = true)
    (wait : ∀ h, (f h).wait = h.wait) : noRelease (updHart u c e.slot f) c = true :=
  noRelease_updHart (wait _) (List.all_eq_true.mpr fun k hk => by rw [harts]; exact List.all_eq_true.mp calm k hk)

/-- Settles O52: the unit takes the one request that waits for it, and an entry leaves by one of three ways. -/
theorem writesArePerformed : Obligations.WritesArePerformed := by
  intro s p n x nc ok
  refine ⟨fun found kind plain guests => ⟨fun c off loc home alone cool coh bus good sliceGood small empty => ?_,
    fun c w loc bank hc hw alone cool sound on good stops => ?_⟩,
    fun q j a b net order loc same kp kq gpa coh ports free => switchHop_reds net order loc same kp kq gpa coh ports free, ?_⟩
  · have run := sliceRequest_run found kind loc home alone cool coh
    obtain ⟨u, hu⟩ : ∃ u, u = updCol s c (Column.turned (sliceOf off) (outPort p % 4)) := ⟨_, rfl⟩
    have column : colAt u c = (colAt s c).turned (sliceOf off) (outPort p % 4) := by rw [hu, colAt_updCol_self]
    have target : targetOf u p.gpa = .dram c off := by rw [hu]; exact home
    have bus' : (colAt u c).vbstat.getLsbD 63 = false := by rw [column]; exact bus
    have err : (colAt u c).lineErr off = false := by
      rw [column, show ((colAt s c).turned (sliceOf off) (outPort p % 4)).lineErr off = (colAt s c).lineErr off from rfl, Column.lineErr]
      split
      · simpa using sliceGood
      · simpa using good
    obtain ⟨t, write, rest, mem⟩ := ownerWrite_dram (by rw [hu]; exact empty) (coh := p.coh) (x := x.toNat) target (degradedAt_dram target bus') bus' err small
    have net : t.net = s.net := (congrArg State.net rest :).trans (by rw [hu]; rfl)
    rw [← hu] at run
    have done := answered_store kind write plain (by rw [noGuests, net]; exact guests)
    refine ⟨_, run.trans (congrArg Host.Outcome.next done), ?_, ?_, ?_⟩
    · exact stored_memWrite ok (mem.trans (by rw [hu]; rfl))
    · exact congrArg (List.map _) net
    · exact (congrArg State.cores rest :).trans (by rw [hu]; rfl)
  · have run := bankAccess_run found kind loc bank hc hw alone cool stops
    obtain ⟨b, target⟩ : ∃ b, targetOf s (redirect s p.job p.gpa) = .bank c w b := by
      unfold pktBank at bank
      split at bank
      · next c' w' b at_a =>
        cases bank
        exact ⟨b, at_a⟩
      · cases bank
    obtain ⟨u, hu⟩ : ∃ u, u = takeBank p.core c w s := ⟨_, rfl⟩
    have bankOn : bankCheck u c w = none := by rw [hu, ← on]; exact bankCheck_takeBank _ _ _ _ _
    have lineGood : lineBad u (redirect s p.job p.gpa) = false := by rw [← good, hu]; exact lineBad_takeBank target _ _ _
    have write := ownerWrite_bank (s := u) (coh := p.coh) (n := n) (x := x.toNat) (by rw [hu]; exact sound) (by rw [hu]; exact target) lineGood bankOn
    rw [← hu] at run
    have done := answered_store kind write plain (by rw [hu]; exact guests)
    refine ⟨_, run.trans (congrArg Host.Outcome.next done), ?_, ?_, ?_, fun y hy => ?_⟩
    · exact stored_memWrite ok (by rw [hu]; rfl)
    · rw [hu]; rfl
    · show { coreAt u c with bankLocal := [] } = _
      rw [hu, takeBank, coreAt_updCore_self]
    · show coreAt u y = _
      rw [hu]; exact coreAt_updCore_ne _ _ _ _ hy
  · intro c e r hc queue whole calm cool alone kind
    have run := drain_run hc queue whole cool alone
    have wq : (coreAt (drained s c) c).wq = r := congrArg Core.wq (wq_drained queue)
    have lines : (coreAt (drained s c) c).cwFind = (coreAt s c).cwFind := by rw [wq_drained queue]; rfl
    have hart := hartAt_drained (s := s) c c
    have net : (drained s c).net = s.net := rfl
    have mem : (drained s c).mem = s.mem := rfl
    have dest := destOf_drained (s := s) c c e.gpa
    have start : startLoc (drained s c) c e.gpa = startLoc s c e.gpa := rfl
    have clock := clock_drained (s := s) c
    generalize drained s c = u at run wq lines hart net mem dest start clock
    have same (l : CWLine) (k : Fin 8) : hartAt (updCore u c fun q => q.cwPut l) c k = hartAt u c k := by
      unfold hartAt; rw [coreAt_updCore_self]; rfl
    refine ⟨fun away => ?_, fun l plain store ways held all => ?_, fun plain store ways none => ?_⟩
    · have no : cachedEntry s c e = false := by
        unfold cachedEntry
        obtain nc | other | none := away
        · rw [nc]; rfl
        · rw [beq_false_of_ne other, Bool.and_false, Bool.false_and]
        · rw [none]; simp
      rw [no, leaves_home] at run
      replace run := run.trans (congrArg Host.Outcome.next (releaseSteps_none (noRelease_leaves (s := s) hart calm fun h => wait_leave h _)))
      refine ⟨_, leavingPkt u c e (startLoc u c e.gpa) (!e.nc), run, ?_, congrArg (· ++ _) net, rfl, rfl, rfl, rfl, rfl, start, mem, ?_⟩
      · unfold updHart; rw [coreAt_setHart_self]; exact wq
      · rw [hartAt_updHart_self, dest]
        exact congrArg (Hart.leave · _) (hart e.slot)
    · have yes : cachedEntry s c e = true := by simp [cachedEntry, plain, store, ways]
      rw [yes, leaves_held (lines ▸ held) all] at run
      replace run := run.trans (congrArg Host.Outcome.next (releaseSteps_none
        (noRelease_leaves (s := s) (fun k => (same _ k).trans (hart k)) calm fun h => wait_recentWrite h _ _)))
      refine ⟨_, run, ?_, net, mem, ?_, ?_⟩
      · unfold updHart; rw [coreAt_setHart_self, coreAt_updCore_self]; exact wq
      · unfold updHart
        rw [coreAt_setHart_self, coreAt_updCore_self, ← cwFind_line held]
        exact cwFind_cwPut (coreAt u c) { l with data := linePut l.data (e.gpa % 64) e.n e.data.toNat, dirty := true }
      · rw [hartAt_updHart_self, same, hart, dest, clock]
    · have yes : cachedEntry s c e = true := by simp [cachedEntry, plain, store, ways]
      rw [yes, leaves_transient (lines ▸ none)] at run
      replace run := run.trans (congrArg Host.Outcome.next (releaseSteps_none (noRelease_leaves (s := s) hart calm fun h => rfl)))
      refine ⟨_, leavingPkt u c e (.tokens 0) true, run, ?_, congrArg (· ++ _) net, rfl, rfl, rfl, ?_, mem⟩
      · unfold updHart; rw [coreAt_setHart_self]; exact wq
      · rw [hartAt_updHart_self]
        exact congrArg (fun h : Hart => h.tokOut + 1) (hart e.slot)

end Sys2Proof.Machine
end

section
/-!
PROOFS. Tokens of a line (R61 to R64, R68), and accesses that are tried again (R31, R34, R36, R39 to R41, R45, R116, R121).
-/

namespace Sys2Proof.Machine

set_option Elab.async false

variable {s : State}

/-! ## What moving copies of lines leaves as it was (R61 to R63) -/

/-- Only range caches, cache ways, slices, hints, error records, memory, pending interrupts and allowances differ. -/
structure LinesMoved (s t : State) : Prop where
  cores : ∀ c, { coreAt t c with cw := [], rcache := [] } = { coreAt s c with cw := [], rcache := [] }
  cols : ∀ k, (colAt t k).persist = (colAt s k).persist ∧ (colAt t k).layerctl = (colAt s k).layerctl
  machine : { t with cores := s.cores, cols := s.cols, mem := s.mem, boot := s.boot, fabric := s.fabric } = s

namespace LinesMoved

theorem refl (s : State) : LinesMoved s s := ⟨fun _ => rfl, fun _ => ⟨rfl, rfl⟩, rfl⟩

theorem of_touched {s t : State} (h : Touched s t) : LinesMoved s t :=
  ⟨h.cores, fun k => ⟨(congrArg Column.persist (h.cols k) :), (congrArg Column.layerctl (h.cols k) :)⟩, h.machine⟩

theorem trans {s t u : State} (h : LinesMoved s t) (k : LinesMoved t u) : LinesMoved s u := by
  refine ⟨fun c => (k.cores c).trans (h.cores c), fun c => ⟨(k.cols c).1.trans (h.cols c).1, (k.cols c).2.trans (h.cols c).2⟩, ?_⟩
  have h1 := h.machine
  have h2 := k.machine
  cases s; cases t; cases u
  simp only [State.mk.injEq] at h1 h2 ⊢
  simp_all

theorem core (c : Nat) (f : Core → Core) (h : ∀ q, { f q with cw := [], rcache := [] } = { q with cw := [], rcache := [] }) (s : State) :
    LinesMoved s (updCore s c f) := .of_touched (.core c f h)

theorem foldl {α : Type} (f : State → α → State) (h : ∀ s x, LinesMoved s (f s x)) : ∀ (l : List α) (s : State), LinesMoved s (l.foldl f s)
  | [], s => refl s
  | x :: l, s => (h s x).trans (foldl f h l (f s x))

theorem net {s t : State} (h : LinesMoved s t) : t.net = s.net := (congrArg State.net h.machine :)
theorem hartAt {s t : State} (h : LinesMoved s t) (c : Nat) (k : Fin 8) : hartAt t c k = Machine.hartAt s c k :=
  (congrArg (fun q : Core => q.harts.get k) (h.cores c) :)
theorem clock {s t : State} (h : LinesMoved s t) : t.clock = s.clock := (congrArg State.clock h.machine :)

theorem persists {s t : State} (h : LinesMoved s t) (c ln : Nat) : persists t c ln = Machine.persists s c ln := by
  unfold Machine.persists; rw [(h.cols _).1]

theorem cacheWayList {s t : State} (h : LinesMoved s t) (c : Nat) : cacheWayList t c = Machine.cacheWayList s c := by
  have narr : (coreAt t c).narr = (coreAt s c).narr := (congrArg Core.narr (h.cores c) :)
  have nbank : (coreAt t c).nbank = (coreAt s c).nbank := (congrArg Core.nbank (h.cores c) :)
  unfold Machine.cacheWayList
  dsimp only
  rw [narr, nbank, (h.cols _).2]

end LinesMoved

theorem linesMoved_noteHint (col : Fin 8) (ln c : Nat) (s : State) : LinesMoved s (noteHint col ln c s) := by
  refine ⟨fun _ => rfl, fun j => ?_, rfl⟩
  unfold noteHint
  by_cases same : j = col
  · subst same; rw [colAt_updCol_self]; exact ⟨rfl, rfl⟩
  · rw [colAt_updCol_ne _ _ _ _ same]; exact ⟨rfl, rfl⟩

theorem linesMoved_homeFill (col : Fin 8) (ln : Nat) (s : State) : LinesMoved s (homeFill col ln s) := .of_touched (touched_homeRead _ _ _ _ _)

theorem linesMoved_cwPut (c : Nat) (e : CWLine) (s : State) : LinesMoved s (updCore s c fun q => q.cwPut e) := .core c (fun q => q.cwPut e) (fun _ => rfl) s
theorem linesMoved_cwDrop (c ln : Nat) (s : State) : LinesMoved s (updCore s c fun q => q.cwDrop ln) := .core c (fun q => q.cwDrop ln) (fun _ => rfl) s

theorem linesMoved_cwInstall (c : Nat) (e : CWLine) (s : State) : LinesMoved s (cwInstall c e s) := by
  unfold cwInstall
  dsimp only
  split
  · split
    · exact .of_touched (touched_homeWriteLine _ _ _ _)
    · exact .refl s
  · split
    · exact linesMoved_cwPut _ _ _
    · exact linesMoved_cwPut _ _ _
    · exact (LinesMoved.of_touched (touched_evictLine _ _ _)).trans (linesMoved_cwPut _ _ _)
    · exact linesMoved_cwPut _ _ _

/-- A copy that is installed stands in a cache way of its core. -/
theorem cwInstall_copy {c : Nat} (e : CWLine) (ways : 0 < cacheWays s c) :
    ∃ w, (coreAt (cwInstall c e s) c).cwFind e.line = some { e with way := w } := by
  have put (u : State) (w : Nat) : (coreAt (updCore u c fun q => q.cwPut { e with way := w }) c).cwFind e.line = some { e with way := w } := by
    rw [coreAt_updCore_self]
    exact cwFind_cwPut (coreAt u c) { e with way := w }
  unfold cwInstall
  dsimp only
  rw [if_neg (by rw [List.isEmpty_iff]; intro none; rw [cacheWays, none] at ways; cases ways)]
  split
  · exact ⟨_, put _ _⟩
  · exact ⟨_, put _ _⟩
  · exact ⟨_, put _ _⟩
  · exact ⟨e.way, put _ _⟩

/-! ## Transient requests (R63) -/

theorem linesMoved_tokenRead (c ln : Nat) (s : State) : LinesMoved s (tokenRead c ln s) := by
  unfold tokenRead
  dsimp only
  split
  · exact linesMoved_cwPut _ _ _
  · have home : LinesMoved s (if homeTokens s (colOf c) ln = 0 then noteHint (colOf c) ln c s else homeFill (colOf c) ln (noteHint (colOf c) ln c s)) := by
      split
      · exact linesMoved_noteHint _ _ _ _
      · exact (linesMoved_noteHint _ _ _ _).trans (linesMoved_homeFill _ _ _)
    split
    · split
      · exact (home.trans (linesMoved_cwPut _ _ _)).trans (linesMoved_cwInstall _ _ _)
      · exact (home.trans (linesMoved_cwDrop _ _ _)).trans (linesMoved_cwInstall _ _ _)
    · exact home.trans (linesMoved_cwInstall _ _ _)


theorem linesMoved_tokenWrite (c ln : Nat) (s : State) : LinesMoved s (tokenWrite c ln s) := by
  unfold tokenWrite
  dsimp only
  refine LinesMoved.trans (LinesMoved.trans ?_ (.foldl _ (fun _ _ => linesMoved_cwDrop _ _ _) _ _)) (linesMoved_cwInstall _ _ _)
  refine LinesMoved.trans ?_ (linesMoved_noteHint _ _ _ _)
  split
  · exact .refl s
  · exact linesMoved_homeFill _ _ _

theorem LinesMoved.cacheWays {s t : State} (h : LinesMoved s t) (c : Nat) : cacheWays t c = Machine.cacheWays s c := congrArg List.length (h.cacheWayList c)

theorem tokenRead_copy {c ln : Nat} (ways : 0 < cacheWays s c) : ∃ l, (coreAt (tokenRead c ln s) c).cwFind ln = some l := by
  have installed (u : State) (moved : LinesMoved s u) (e : CWLine) (line : e.line = ln) :
      ∃ l, (coreAt (cwInstall c e u) c).cwFind ln = some l := by
    obtain ⟨w, copy⟩ := cwInstall_copy (s := u) e (by rw [moved.cacheWays]; exact ways)
    exact ⟨_, line ▸ copy⟩
  unfold tokenRead
  dsimp only
  split
  · next e held =>
    refine ⟨e, ?_⟩
    rw [coreAt_updCore_self, ← cwFind_line held]
    exact cwFind_cwPut _ _
  · have home : LinesMoved s (if homeTokens s (colOf c) ln = 0 then noteHint (colOf c) ln c s else homeFill (colOf c) ln (noteHint (colOf c) ln c s)) := by
      split
      · exact linesMoved_noteHint _ _ _ _
      · exact (linesMoved_noteHint _ _ _ _).trans (linesMoved_homeFill _ _ _)
    split
    · split
      · exact installed _ (home.trans (linesMoved_cwPut _ _ _)) _ rfl
      · exact installed _ (home.trans (linesMoved_cwDrop _ _ _)) _ rfl
    · exact installed _ home _ rfl

/-- The data that a transient write brings. -/
def ownedData (s : State) (col : Fin 8) (ln : Nat) : Option (Nat × CWLine) := (holders s col ln).find? fun e => e.2.owner

theorem tokenWrite_copy {c ln : Nat} (ways : 0 < cacheWays s c) : ∃ l, (coreAt (tokenWrite c ln s) c).cwFind ln = some l ∧ l.tokens = 256 := by
  unfold tokenWrite
  dsimp only
  obtain ⟨u, hu⟩ : ∃ u, u = noteHint (colOf c) ln c (if ((holders s (colOf c) ln).find? fun e => e.2.owner).isSome then s else homeFill (colOf c) ln s) :=
    ⟨_, rfl⟩
  have moved : LinesMoved s u := by
    rw [hu]
    refine LinesMoved.trans ?_ (linesMoved_noteHint _ _ _ _)
    split
    · exact .refl s
    · exact linesMoved_homeFill _ _ _
  rw [← hu]
  obtain ⟨v, hv⟩ : ∃ v, v = (holders s (colOf c) ln).foldl (fun s e => updCore s e.1 fun q => q.cwDrop ln) u := ⟨_, rfl⟩
  have moved' : LinesMoved s v := by rw [hv]; exact moved.trans (.foldl _ (fun _ _ => linesMoved_cwDrop _ _ _) _ _)
  rw [← hv]
  have ways' : 0 < cacheWays v c := by rw [moved'.cacheWays]; exact ways
  obtain ⟨w, copy⟩ := cwInstall_copy (s := v) (e := _) ways'
  exact ⟨_, copy, rfl⟩

/-! ### A column whose cache ways hold nothing -/

theorem cwFind_none (none : NoCopies s) (c ln : Nat) : (coreAt s c).cwFind ln = .none := by
  rw [Core.cwFind, cw_of_noCopies none]; rfl

theorem homeFill_home (none : NoCopies s) (col : Fin 8) (ln : Nat) : (homeFill col ln s).mem = s.mem ∧ (homeFill col ln s).cores = s.cores := by
  unfold homeFill
  by_cases bus : (colAt s col).vbstat.getLsbD 63 = true
  · unfold homeRead
    dsimp only
    rw [if_pos bus]
    exact ⟨(logError_kept _ _ _ _ _).1, (logError_kept _ _ _ _ _).2.1⟩
  · by_cases err : (colAt s col).lineErr (gpaOff (ln * 64)) = true
    · unfold homeRead
      dsimp only
      rw [if_neg bus, if_pos err]
      exact ⟨(logError_kept _ _ _ _ _).1, (logError_kept _ _ _ _ _).2.1⟩
    · have only := onlyCols_homeRead none (gpa := ln * 64) (w := false) (Bool.eq_false_iff.mpr bus) (Bool.eq_false_iff.mpr err)
      exact ⟨only.mem, (congrArg State.cores only :)⟩

theorem tokenRead_empty {c ln : Nat} (none : NoCopies s) (ways : 0 < cacheWays s c) : ∃ w, (coreAt (tokenRead c ln s) c).cwFind ln =
    some { line := ln, way := w, tokens := 1, owner := false, dirty := false, data := homeLine s ln } := by
  have tokens : homeTokens s (colOf c) ln = 256 := by rw [homeTokens, holders_none none]; rfl
  have noted : NoCopies (noteHint (colOf c) ln c s) := none
  obtain ⟨mem, cores⟩ := homeFill_home noted (colOf c) ln
  have moved : LinesMoved s (homeFill (colOf c) ln (noteHint (colOf c) ln c s)) := (linesMoved_noteHint _ _ _ _).trans (linesMoved_homeFill _ _ _)
  unfold tokenRead
  rw [cwFind_none none]
  dsimp only
  rw [tokens, if_neg (by decide)]
  generalize homeFill (colOf c) ln (noteHint (colOf c) ln c s) = u at mem cores moved
  have none' : NoCopies u := by unfold NoCopies; rw [cores]; exact none
  rw [holders_none none']
  have data : homeLine u ln = homeLine s ln := by unfold homeLine; rw [mem]; rfl
  obtain ⟨w, copy⟩ := cwInstall_copy (s := u) { line := ln, way := 0, tokens := 1, owner := decide (256 ≤ 1), dirty := false, data := homeLine u ln }
    (by rw [moved.cacheWays]; exact ways)
  exact ⟨w, copy.trans (by rw [data]; rfl)⟩

theorem tokenWrite_empty {c ln : Nat} (none : NoCopies s) (ways : 0 < cacheWays s c) : ∃ w, (coreAt (tokenWrite c ln s) c).cwFind ln =
    some { line := ln, way := w, tokens := 256, owner := true, dirty := false, data := homeLine s ln } := by
  obtain ⟨mem, cores⟩ := homeFill_home none (colOf c) ln
  have moved : LinesMoved s (noteHint (colOf c) ln c (homeFill (colOf c) ln s)) := (linesMoved_homeFill _ _ _).trans (linesMoved_noteHint _ _ _ _)
  unfold tokenWrite
  dsimp only
  rw [holders_none none]
  simp only [List.find?_nil, Option.isSome_none, List.foldl_nil, Bool.false_eq_true, if_false]
  have data : homeLine (noteHint (colOf c) ln c (homeFill (colOf c) ln s)) ln = homeLine s ln := by
    unfold homeLine
    show BitVec.ofNat 512 (memRead (homeFill (colOf c) ln s).mem _ _) = _
    rw [mem]
  generalize noteHint (colOf c) ln c (homeFill (colOf c) ln s) = u at data moved
  obtain ⟨w, copy⟩ := cwInstall_copy (s := u) { line := ln, way := 0, tokens := 256, owner := true, dirty := false, data := homeLine u ln }
    (by rw [moved.cacheWays]; exact ways)
  exact ⟨w, copy.trans (by rw [data])⟩


/-! ### Their events -/

theorem mem_activePersist {c : Column} {x : Nat × Nat × Nat} (h : x ∈ activePersist c) : x ∈ c.persist := by
  have all : ∀ (l : List (Nat × Nat × Nat)) (a : List (Nat × Nat × Nat)), x ∈ l.foldl (fun (l : List (Nat × Nat × Nat)) x =>
      if (l.any fun y => y.1 == x.1) || decide (4 ≤ (l.filter fun y => homeSlice y.1 == homeSlice x.1).length) then l else l ++ [x]) a → x ∈ a ∨ x ∈ l := by
    intro l
    induction l with
    | nil => exact fun a h => .inl h
    | cons y l ih =>
      intro a h
      rw [List.foldl_cons] at h
      obtain h | h := ih _ h
      · split at h
        · exact .inl h
        · obtain h | h := List.mem_append.mp h
          · exact .inl h
          · exact .inr (List.mem_cons.mpr (.inl (List.mem_singleton.mp h)))
      · exact .inr (List.mem_cons_of_mem _ h)
  exact (all c.persist [] h).resolve_left (List.not_mem_nil)

/-- A core without a persistent request for a line has no active one. -/
theorem inactive {c ln : Nat} (h : persists s c ln = false) : ((activePersist (colAt s (colOf c))).any fun x => x.1 == ln && x.2.1 == c) = false := by
  refine List.any_eq_false.mpr fun x hx at_x => ?_
  exact List.any_eq_false.mp h x (mem_activePersist hx) at_x

theorem linesMoved_l0 (c ln : Nat) (s : State) : l0FromWay c ln s = s ∨ ∃ f : Core → Core, l0FromWay c ln s = updCore s c f ∧
    (∀ q, (f q).harts = q.harts ∧ (f q).cw = q.cw) := by
  unfold l0FromWay
  split
  · exact .inl rfl
  · split
    · exact .inl rfl
    · exact .inr ⟨_, rfl, fun _ => ⟨rfl, rfl⟩⟩

/-- The fill of the L0 with a line leaves harts, copies, the networks and persistent requests. -/
theorem l0FromWay_kept (c ln : Nat) (s : State) : (∀ x k, hartAt (l0FromWay c ln s) x k = hartAt s x k) ∧
    (coreAt (l0FromWay c ln s) c).cwFind = (coreAt s c).cwFind ∧ (l0FromWay c ln s).net = s.net ∧ (∀ x l, persists (l0FromWay c ln s) x l = persists s x l) := by
  obtain same | ⟨f, filled, keeps⟩ := linesMoved_l0 c ln s
  · rw [same]; exact ⟨fun _ _ => rfl, rfl, rfl, fun _ _ => rfl⟩
  · rw [filled]
    refine ⟨fun x k => ?_, ?_, rfl, fun _ _ => rfl⟩
    · unfold hartAt
      rw [coreAt_updCore]
      split
      · next at_c => rw [(keeps _).1, at_c]
      · rfl
    · rw [coreAt_updCore_self]
      funext l
      unfold Core.cwFind
      rw [(keeps _).2]

section
variable {p : Pkt} (found : findPkt s p.id = some p) (open' : barredBy s (colOf p.core) (some p.core) (p.gpa / 64) = false)
  (good : lineLost s p.core (p.gpa / 64) = false) (ways : 0 < cacheWays s p.core)
include found open' good ways

theorem transientRead_run {f : Nat} (idle : persists s p.core (p.gpa / 64) = false) (kind : p.kind = .tokRead) (loc : p.loc = .tokens f) : exec (.transientRead p.id) s =
    .next (tokenLoaded p false (l0FromWay p.core (p.gpa / 64) (tokenRead p.core (p.gpa / 64) s))) := by
  show execTransientRead p.id s = _
  unfold execTransientRead
  rw [found]; dsimp only
  rw [kind, loc]; dsimp only
  rw [open', good, inactive idle, if_neg Bool.false_ne_true, if_neg Bool.false_ne_true, if_neg Bool.false_ne_true, if_neg (by omega)]

theorem transientWrite_run {f n : Nat} {x : BitVec 64} {nc : Bool} (kind : p.kind = .store n x nc) (loc : p.loc = .tokens f)
    (first : ∀ q ∈ s.net, q.id < p.id → q.core = p.core → q.gpa / 64 ≠ p.gpa / 64) : exec (.transientWrite p.id) s =
    .next (tokenStored p false (cwStore p.core (p.gpa / 64) (fun d => linePut d (p.gpa % 64) n x.toNat) (tokenWrite p.core (p.gpa / 64) s))) := by
  have oldest : (s.net.any fun q => decide (q.id < p.id) && q.core == p.core && q.gpa / 64 == p.gpa / 64 && q.writes != 0) = false := by
    refine List.any_eq_false.mpr fun q hq at_q => ?_
    simp only [Bool.and_eq_true, decide_eq_true_eq, beq_iff_eq] at at_q
    exact first q hq at_q.1.1.1 at_q.1.1.2 at_q.1.2
  show execTransientWrite p.id s = _
  unfold execTransientWrite
  rw [found]; dsimp only
  rw [kind, loc]; dsimp only
  rw [oldest, open', good, if_neg (by decide), if_neg (by omega), if_neg Bool.false_ne_true]

end

theorem updMe_asHart {c : Nat} (hc : c < 2048) (k : Fin 8) (s : State) (f : Hart → Hart) : updMe (asHart c k s) f = asHart c k (updHart s c k f) := by
  have core : (asHart c k s).curCore.val = c := Nat.mod_eq_of_lt hc
  show updHart (asHart c k s) (asHart c k s).curCore.val k f = _
  rw [core]
  rfl

/-- A load whose token has come goes on (R63). -/
theorem tokenLoaded_good {p : Pkt} (hc : p.core < 2048) (idle : persists s p.core (p.gpa / 64) = false)
    (waits : (hartAt s p.core p.slot).wait = .tokenReq p.id) : tokenLoaded p false s =
      updHart (withoutPkt s p.id) p.core p.slot fun h => { h with wait := .none } := by
  unfold tokenLoaded tokensDone
  rw [idle]
  dsimp only
  rw [if_neg Bool.false_ne_true]
  refine (if_neg (not_not.mpr waits)).trans ?_
  rw [actAs_eq, if_neg Bool.false_ne_true, updMe_asHart hc]
  rfl

/-- A store whose tokens have come is done (R63). -/
theorem tokenStored_good {p : Pkt} (idle : persists s p.core (p.gpa / 64) = false) (calm : noRelease s p.core = true) : tokenStored p false s =
    updHart (withoutPkt s p.id) p.core p.slot fun h => { h with tokOut := h.tokOut - 1 }.recentWrite (destOf s p.core p.gpa) s.clock := by
  obtain ⟨u, hu⟩ : ∃ u, u = updHart s p.core p.slot fun h => { h with tokOut := h.tokOut - 1 }.recentWrite (destOf s p.core p.gpa) s.clock := ⟨_, rfl⟩
  have idle' : persists u p.core (p.gpa / 64) = false := by rw [hu]; exact idle
  have calm' : noRelease u p.core = true := by rw [hu]; exact noRelease_updHart rfl calm
  have stored : tokenStored p false s = releaseSteps p.core (tokensDone p u) := by rw [hu]; rfl
  rw [stored, tokensDone, idle', if_neg Bool.false_ne_true, releaseSteps_none (s := dropPkt p.id u) calm', hu]
  rfl

/-! ## Evictions (R63) -/

theorem evictLine_held {c ln : Nat} {l : CWLine} (h : (coreAt s c).cwFind ln = some l) :
    evictLine c ln s = updCore (if l.owner && l.dirty then homeWriteLine (colOf c) ln l.data s else s) c fun q => q.cwDrop ln := by
  unfold evictLine; rw [h]

theorem evictLine_none {c ln : Nat} (h : (coreAt s c).cwFind ln = none) : evictLine c ln s = s := by
  unfold evictLine; rw [h]

theorem stored_updCore {u : State} {a n x : Nat} (h : Stored s u a n x) (c : Nat) (f : Core → Core) : Stored s (updCore u c f) a n x := h

theorem eviction_leaves (c ln : Nat) (ok : State.memOk s) :
    let t := evictLine c ln s
    (coreAt t c).cwFind ln = none ∧ t.net = s.net ∧ (∀ k, (colAt t k).still = (colAt s k).still) ∧
      (match (coreAt s c).cwFind ln with
       | some l => if l.owner = true ∧ l.dirty = true then Stored s t (ln * 64) 64 l.data.toNat else ∀ b, byteAt t b = byteAt s b
       | none => t = s) := by
  dsimp only
  have touched := touched_evictLine c ln s
  cases held : (coreAt s c).cwFind ln with
  | none =>
    rw [evictLine_none held]
    exact ⟨held, rfl, fun _ => rfl, rfl⟩
  | some l =>
    refine ⟨?_, (congrArg State.net touched.machine :), touched.cols, ?_⟩
    · rw [evictLine_held held, coreAt_updCore_self]; exact cwFind_cwDrop_self _ _
    · dsimp only
      rw [evictLine_held held]
      split
      · next both =>
        rw [if_pos (by simpa using both)]
        exact stored_updCore (stored_memWrite ok (homeWriteLine_mem (colOf c) s ln l.data)) c _
      · next other =>
        rw [if_neg (by simpa using other)]
        exact fun _ => rfl

/-! ## Retries and drops -/

/-- A walker's search that finds the descriptor fills the range cache (R31). -/
theorem translate_found {c : Nat} {sys : Bool} {r : BitVec 5} {va : BitVec 64} {w : State} {d : RDesc}
    (miss : rcLookup (coreAt s c).rcache (coreAt s c).job va.toNat = none) (walk : walkFrom (colOf c) (hdrOf (coreAt s c).rdbase) va.toNat s = some w)
    (hit : searchDir s (hdrOf (coreAt s c).rdbase) va.toNat = .desc d) : (translate s c sys r va).2 =
      setCore w c { coreAt w c with rcache := rcFill 32 (coreAt w c).rcache { job := (coreAt s c).job, desc := d } } := by
  have job : (coreAt w c).job = (coreAt s c).job := (congrArg Core.job ((homed_walkFrom walk).touched.cores c) :)
  unfold translate
  dsimp only
  rw [miss]; dsimp only
  rw [walk]; dsimp only
  rw [hit, ← job]
  rfl

theorem slotOnly_retire {c : Nat} (hc : c < 2048) (k : Fin 8) (s : State) :
    let t := actAs c k (retire 4) s
    hartAt t c k = (hartAt s c k).retired ((hartAt s c k).pc + 4) ∧ t.net = s.net ∧ t.mem = s.mem ∧ SlotOnly s t c k := by
  obtain ⟨hart, only⟩ := retire_slot hc k s
  exact ⟨hart, rfl, rfl, only⟩

/-- The one hart of a core that waits for the drop of its ranges goes on with it (R34). -/
theorem drop_run {c : Nat} {k : Fin 8} (hc : c < 2048) (drained : coreDrained s c = true) (waits : (hartAt s c k).wait = .inval 0)
    (alone : ∀ j, j ≠ k → (hartAt s c j).wait ≠ .inval 0) : exec (.drop c) s = .next (actAs c k (retire 4) (dropRanges c
      (updCore s c fun q => q.mapHarts fun _ h => if h.wait = .drain then h.wake else h))) := by
  have wait (j : Fin 8) : (hartAt (updCore s c fun q => q.mapHarts fun _ h => if h.wait = .drain then h.wake else h) c j).wait = (hartAt s c j).wait := by
    unfold hartAt
    rw [coreAt_updCore_self, get_mapHarts]
    split
    · rw [wake_form]
    · rfl
  show execDrop c s = _
  unfold execDrop
  rw [if_neg (Nat.not_le.mpr hc), if_neg (by rw [drained]; decide)]
  dsimp only
  rw [find_only (p := k) (by rw [wait, waits]; rfl) _ (List.mem_finRange k) fun j _ => ?_]
  by_cases same : j = k
  · exact .inl same
  · refine .inr ?_
    rw [wait]
    exact beq_false_of_ne (alone j same)

theorem cwFind_updHart (c x : Nat) (k : Fin 8) (f : Hart → Hart) (s : State) : (coreAt (updHart s c k f) x).cwFind = (coreAt s x).cwFind := by
  unfold updHart setHart
  rw [coreAt_updCore]
  split
  · next same => rw [same]; rfl
  · rfl

/-- A store into a line that the core holds. -/
theorem cwStore_copy {c ln : Nat} {l : CWLine} (held : (coreAt s c).cwFind ln = some l) (f : BitVec 512 → BitVec 512) :
    LinesMoved s (cwStore c ln f s) ∧ (coreAt (cwStore c ln f s) c).cwFind ln = some { l with data := f l.data, dirty := true } := by
  have put : cwStore c ln f s = updCore s c fun q => q.cwPut { l with data := f l.data, dirty := true } := by
    unfold cwStore updCore
    dsimp only
    rw [held]
  rw [put]
  refine ⟨linesMoved_cwPut _ _ _, ?_⟩
  rw [coreAt_updCore_self, ← cwFind_line held]
  exact cwFind_cwPut (coreAt s c) { l with data := f l.data, dirty := true }

section
variable {p : Pkt} (found : findPkt s p.id = some p) (open' : barredBy s (colOf p.core) (some p.core) (p.gpa / 64) = false)
  (good : lineLost s p.core (p.gpa / 64) = false) (ways : 0 < cacheWays s p.core) (idle : persists s p.core (p.gpa / 64) = false)
include found open' good ways idle

/-- A transient read ends with a copy of the line in the core's cache ways. -/
theorem transientRead_brings {f : Nat} (hc : p.core < 2048) (kind : p.kind = .tokRead) (loc : p.loc = .tokens f) (waits : (hartAt s p.core p.slot).wait = .tokenReq p.id) :
    ∃ t, exec (.transientRead p.id) s = .next t ∧ t.net = (withoutPkt s p.id).net ∧ (hartAt t p.core p.slot).wait = .none ∧
      (coreAt t p.core).cwFind (p.gpa / 64) = (coreAt (tokenRead p.core (p.gpa / 64) s) p.core).cwFind (p.gpa / 64) := by
  have run := transientRead_run found open' good ways idle kind loc
  have moved := linesMoved_tokenRead p.core (p.gpa / 64) s
  generalize tokenRead p.core (p.gpa / 64) s = u at run moved
  obtain ⟨harts, copies, net, persist⟩ := l0FromWay_kept p.core (p.gpa / 64) u
  generalize l0FromWay p.core (p.gpa / 64) u = v at run harts copies net persist
  rw [tokenLoaded_good hc (by rw [persist, moved.persists]; exact idle) (by rw [harts, moved.hartAt]; exact waits)] at run
  refine ⟨_, run, congrArg (List.filter _) (net.trans moved.net), ?_, ?_⟩
  · rw [hartAt_updHart_self]
  · rw [cwFind_updHart]; exact congrFun copies _

/-- A transient write ends with the core's copy holding every token, its store done. -/
theorem transientWrite_brings {f n : Nat} {x : BitVec 64} {nc : Bool} (kind : p.kind = .store n x nc) (loc : p.loc = .tokens f)
    (first : ∀ q ∈ s.net, q.id < p.id → q.core = p.core → q.gpa / 64 ≠ p.gpa / 64) (calm : noRelease s p.core = true) {l : CWLine}
    (held : (coreAt (tokenWrite p.core (p.gpa / 64) s) p.core).cwFind (p.gpa / 64) = some l) :
    ∃ t, exec (.transientWrite p.id) s = .next t ∧ t.net = (withoutPkt s p.id).net ∧
      (hartAt t p.core p.slot).tokOut = (hartAt s p.core p.slot).tokOut - 1 ∧
      (coreAt t p.core).cwFind (p.gpa / 64) = some { l with data := linePut l.data (p.gpa % 64) n x.toNat, dirty := true } := by
  have run := transientWrite_run found open' good ways kind loc first
  have moved := linesMoved_tokenWrite p.core (p.gpa / 64) s
  generalize tokenWrite p.core (p.gpa / 64) s = u at run moved held
  obtain ⟨stored, copy⟩ := cwStore_copy held fun d => linePut d (p.gpa % 64) n x.toNat
  generalize cwStore p.core (p.gpa / 64) (fun d => linePut d (p.gpa % 64) n x.toNat) u = v at run stored copy
  have moved := moved.trans stored
  have calm' : noRelease v p.core = true := List.all_eq_true.mpr fun k hk => by rw [moved.hartAt]; exact List.all_eq_true.mp calm k hk
  rw [tokenStored_good (by rw [moved.persists]; exact idle) calm'] at run
  refine ⟨_, run, congrArg (List.filter _) moved.net, ?_, ?_⟩
  · rw [hartAt_updHart_self]
    exact congrArg (fun h : Hart => h.tokOut - 1) (moved.hartAt _ _)
  · rw [cwFind_updHart]; exact copy

end

/-- The persistent request of a core for a line is gone (R64). -/
theorem deactivation_run {p : Pkt} (found : findPkt s p.id = some p) (kind : p.kind = .tokRead) (loc : p.loc = .mesh) : exec (.deactivation p.id) s =
    .next (updCol (withoutPkt s p.id) (colOf p.core) fun c => { c with persist := c.persist.filter fun x => !(x.1 == p.gpa / 64 && x.2.1 == p.core) }) := by
  show execDeactivation p.id s = _
  unfold execDeactivation
  rw [found]; dsimp only
  rw [kind, loc]
  rfl

theorem wake_feCount (h : Hart) (n : Nat) : { h with feCount := n }.wake = { h.wake with feCount := n } := by
  unfold Hart.wake
  dsimp only
  split
  · rfl
  · rfl
  · split <;> rfl
  · split <;> rfl
  · rfl

theorem updHart_updHart (c : Nat) (k : Fin 8) (f g : Hart → Hart) (s : State) : updHart (updHart s c k f) c k g = updHart s c k fun h => g (f h) := by
  rw [updHart, hartAt_updHart_self]
  exact setHart_twice _ _ _ _ _

/-- A timed retry within the limit wakes its hart (R121). -/
theorem timedRetry_run {c g tm : Nat} {x : BitVec 64} {k : BitVec 3} (hc : c < 2048) (waits : (hartAt s c k.toFin).wait = .fullEmpty g x false)
    (timer : (hartAt s c k.toFin).timer = some tm) (late : tm ≤ s.clock) (parked : (hartAt s c k.toFin).st = .parked)
    (more : (hartAt s c k.toFin).feCount < (hartAt s c k.toFin).feLimit) : exec (.timedRetry c k) s =
      .next (updHart s c k.toFin fun h => { h.wake with feCount := h.feCount + 1 }) := by
  have woken : feWake c k.toFin s = updHart s c k.toFin fun h => { h.wake with feCount := h.feCount + 1 } := by
    unfold feWake countRetry wake
    rw [waits]
    dsimp only
    rw [if_neg (by omega), updHart_updHart]
    exact congrArg (setHart s c k.toFin) (wake_feCount _ _)
  show execTimedRetry c k s = _
  unfold execTimedRetry
  rw [if_neg (Nat.not_le.mpr hc)]
  dsimp only
  rw [waits, timer]
  dsimp only
  rw [if_pos (by simp [late, parked]), woken]

theorem gr_wake (h : Hart) (r : BitVec 5) : h.wake.gr r = h.gr r := by rw [wake_form]; rfl

/-- A core performs a drop request (R39, R40). -/
theorem dropRequest_run {p : Pkt} {c lo hi : Nat} {sc : BitVec 3} {cores cols : List Nat} (found : findPkt s p.id = some p)
    (kind : p.kind = .drop lo hi sc cores cols) (listed : cores.contains c = true) (quiet : (coreAt s c).job = p.job → coreDrained s c = true) :
    exec (.dropRequest p.id c) s = .next (withPkt (updCore (if (coreAt s c).job = p.job then dropSpan c p.job lo hi s else s) c fun q =>
      q.mapHarts fun _ h => match h.wait with | .lock _ => h.wake | _ => h) p.id { p with kind := .drop lo hi sc (cores.erase c) cols }) := by
  have ready : ((coreAt s c).job == p.job && !coreDrained s c) = false := by
    by_cases own : (coreAt s c).job = p.job
    · rw [quiet own]; simp
    · rw [beq_false_of_ne own]; rfl
  show execDropRequest p.id c s = _
  unfold execDropRequest
  rw [found]; dsimp only
  rw [kind]; dsimp only
  rw [if_neg (by rw [listed]; decide), ready, if_neg Bool.false_ne_true]
  rfl

/-- What a drop request of a core's own job leaves of it, and of the machine. -/
theorem dropSpan_job (s : State) (c : Nat) (job : BitVec 32) (lo hi : Nat) :
    let u := if (coreAt s c).job = job then dropSpan c job lo hi s else s
    u.net = s.net ∧ u.mem = s.mem ∧ (∀ j, hartAt u c j = hartAt s c j) ∧ (∀ x, x ≠ c → coreAt u x = coreAt s x) ∧
      (coreAt u c).rcache = if (coreAt s c).job = job then (coreAt s c).rcache.filter fun e => !(e.job == job && decide (e.desc.vbase * 64 ≤ hi) &&
        decide (lo ≤ e.desc.vlast * 64 + 63)) else (coreAt s c).rcache := by
  dsimp only
  by_cases own : (coreAt s c).job = job
  · rw [if_pos own, if_pos own]
    unfold dropSpan hartAt
    rw [coreAt_updCore_self]
    exact ⟨rfl, rfl, fun _ => rfl, fun x hx => coreAt_updCore_ne _ _ _ _ hx, rfl⟩
  · rw [if_neg own, if_neg own]
    exact ⟨rfl, rfl, fun _ => rfl, fun _ _ => rfl, rfl⟩

theorem coreAt_withPkt (s : State) (id x : Nat) (q : Pkt) : coreAt (withPkt s id q) x = coreAt s x := rfl

/-- Another column's engines, or this one's, without the entries that a drop request names (R41). -/
def Column.cleaned (hit : REntry → Bool) (c : Column) : Column := { c with
  eng := c.eng.map fun l => l.map fun r => { r with rc := r.rc.filter fun e => !hit e }
  coll := c.coll.map fun l => l.map fun r => { r with rc := r.rc.filter fun e => !hit e } }

/-- An entry of that job that meets the span. -/
def spanned (job : BitVec 32) (lo hi : Nat) (e : REntry) : Bool :=
  e.job == job && decide (e.desc.vbase * 64 ≤ hi) && decide (lo ≤ e.desc.vlast * 64 + 63)

/-- The distributor's own entries go with those of column 0 (R372). -/
def distDropped (own : Prop) [Decidable own] (hit : REntry → Bool) (s : State) : State :=
  if own then { s with dist := { s.dist with jobs := s.dist.jobs.map fun j => { j with rcache := j.rcache.filter fun e => !hit e } } } else s

theorem distDropped_kept (own : Prop) [Decidable own] (hit : REntry → Bool) (s : State) : (distDropped own hit s).net = s.net ∧
    (distDropped own hit s).cols = s.cols ∧ (distDropped own hit s).cores = s.cores ∧ (distDropped own hit s).mem = s.mem := by
  unfold distDropped
  split <;> exact ⟨rfl, rfl, rfl, rfl⟩

theorem engineDrop_run {p : Pkt} {n : Fin 8} {lo hi : Nat} {sc : BitVec 3} {cores cols : List Nat} (found : findPkt s p.id = some p)
    (kind : p.kind = .drop lo hi sc cores cols) (listed : cols.contains n.val = true) (scope : sc ≠ 3)
    (clean : ((colAt s n).walker.any fun w => spanned p.job lo hi w.entry) = false) :
    exec (.engineDrop p.id n.val) s = .next (putPkt { p with kind := .drop lo hi sc cores (cols.erase n.val) } (distDropped (n.val = 0)
      (spanned p.job lo hi) (updCol s n (Column.cleaned (spanned p.job lo hi))))) := by
  have column : (⟨n.val % 8, Nat.mod_lt _ (by decide)⟩ : Fin 8) = n := Fin.ext (Nat.mod_eq_of_lt n.isLt)
  show execEngineDrop p.id n.val s = _
  unfold execEngineDrop
  rw [found]; dsimp only
  rw [kind]; dsimp only
  rw [if_neg (by rw [listed]; simp), column, if_neg fun both => Bool.eq_false_iff.mp clean both.2]
  simp only [if_neg scope]
  rfl

/-- Settles O53: each event finds its request by its number, or its hart by its slot, and does its part. -/
theorem tokenAndRetryEvents : Obligations.TokenAndRetryEvents := by
  refine ⟨fun s p found hc => ?_, fun s c k va hc => ?_⟩
  · intro id ln col h clear empty copy
    refine ⟨fun f kind loc pass idle waits => ?_, fun n x nc f kind loc pass first calm idle => ?_, fun f loc late => ?_, fun f loc many new => ?_,
      fun kind loc => ?_, fun c line hc ok => ⟨_, if_neg (Nat.not_le.mpr hc), eviction_leaves c line ok⟩⟩
    · obtain ⟨open', good, ways⟩ := pass
      obtain ⟨t, run, net, wait, same⟩ := transientRead_brings found open' good ways idle hc kind loc waits
      by_cases none : NoCopies s
      · obtain ⟨w, held⟩ := tokenRead_empty (ln := ln) none ways
        exact ⟨t, _, run, net, wait, same.trans held, fun _ => ⟨rfl, rfl, rfl⟩⟩
      · obtain ⟨l, held⟩ := tokenRead_copy (ln := ln) ways
        exact ⟨t, l, run, net, wait, same.trans held, fun e => absurd e none⟩
    · obtain ⟨open', good, ways⟩ := pass
      by_cases none : NoCopies s
      · obtain ⟨w, held⟩ := tokenWrite_empty (ln := ln) none ways
        obtain ⟨t, run, net, tok, same⟩ := transientWrite_brings found open' good ways idle kind loc first calm held
        exact ⟨t, _, run, net, tok, same, rfl, rfl, fun _ => rfl⟩
      · obtain ⟨l, held, all⟩ := tokenWrite_copy (ln := ln) ways
        obtain ⟨t, run, net, tok, same⟩ := transientWrite_brings found open' good ways idle kind loc first calm held
        exact ⟨t, _, run, net, tok, same, all, rfl, fun e => absurd e none⟩
    · show execTransientFailure id s = _
      unfold execTransientFailure
      rw [show findPkt s id = _ from found]; dsimp only
      rw [loc]
      exact congrArg Host.Outcome.next (if_pos late)
    · show execPersistentRequest id s = _
      unfold execPersistentRequest
      rw [show findPkt s id = _ from found]; dsimp only
      rw [loc]
      refine congrArg Host.Outcome.next (if_neg ?_)
      rw [Bool.or_eq_true, not_or]
      exact ⟨by simpa using many, by simpa using new⟩
    · refine ⟨_, deactivation_run found kind loc, rfl, fun x => ?_, rfl, rfl⟩
      rw [colAt_updCol_self, List.mem_filter, Bool.not_eq_true', ← Bool.not_eq_true, Bool.and_eq_true, beq_iff_eq, beq_iff_eq]
      exact Iff.rfl
  · dsimp only
    have here : ¬ 2048 ≤ c := Nat.not_le.mpr hc
    refine ⟨fun waits free => ?_, fun waits free => ?_, fun waits late => ?_, fun g x tm waits timer late parked more => ?_, fun d w miss walk hit => ?_,
      if_neg here, if_neg here, fun drained waits alone => ?_, fun p lo hi sc cores cols found kind => ⟨fun listed quiet => ?_, fun n listed scope clean => ?_,
      fun noCores noCols core slot waits => ?_⟩⟩
    · refine (if_neg here).trans ?_
      rw [waits]
      exact congrArg Host.Outcome.next (if_neg (by rw [free]; decide))
    · refine (if_neg here).trans ?_
      rw [waits]
      exact congrArg Host.Outcome.next (if_neg (by rw [free]; decide))
    · refine (if_neg here).trans ?_
      rw [waits]
      exact congrArg Host.Outcome.next (if_pos late)
    · have run := timedRetry_run hc waits timer late parked more
      exact ⟨_, run, hartAt_updHart_self _ _ _ _, slotOnly_updHart _ _ _, rfl⟩
    · exact (if_neg here).trans (congrArg Host.Outcome.next (translate_found miss walk hit))
    · obtain ⟨u, hu⟩ : ∃ u, u = dropRanges c (updCore s c fun q => q.mapHarts fun _ h => if h.wait = .drain then h.wake else h) := ⟨_, rfl⟩
      obtain ⟨hart, net, mem, only⟩ := slotOnly_retire hc k.toFin u
      have same : hartAt u c k.toFin = hartAt s c k.toFin := by
        rw [hu, dropRanges, updCore_updCore]
        unfold hartAt
        rw [coreAt_updCore_self]
        refine (get_mapHarts _ _ _).trans (if_neg ?_)
        rw [show ((coreAt s c).harts.get k.toFin).wait = _ from waits]
        simp
      have run := drop_run hc drained waits alone
      rw [← hu] at run
      rw [same] at hart
      refine ⟨_, run, ?_, congrArg Hart.pc hart, fun r => (congrArg (Hart.gr · r) hart).trans (gr_retired _ _ _), mem.trans (by rw [hu]; rfl), net.trans (by rw [hu]; rfl)⟩
      have cache : (coreAt u c).rcache = [] := by rw [hu, dropRanges, coreAt_updCore_self]
      exact (congrArg Core.rcache only.core :).trans cache
    · have run := dropRequest_run found kind listed quiet
      obtain ⟨u, hu⟩ : ∃ u, u = if (coreAt s c).job = p.job then dropSpan c p.job lo hi s else s := ⟨_, rfl⟩
      obtain ⟨net, mem, harts, others, cache⟩ := dropSpan_job s c p.job lo hi
      rw [← hu] at run net mem harts others cache
      refine ⟨_, run, congrArg (List.map _) net, ?_, fun j r => ?_, fun x hx => ?_, mem⟩
      · refine Eq.trans ?_ cache
        rw [coreAt_withPkt, coreAt_updCore_self]; rfl
      · rw [hartAt, coreAt_withPkt, coreAt_updCore_self, get_mapHarts, ← harts]
        split
        · exact gr_wake _ _
        · rfl
      · rw [coreAt_withPkt, coreAt_updCore_ne _ _ _ _ hx]; exact others x hx
    · have run := engineDrop_run found kind listed scope clean
      obtain ⟨net, columns, coresKept, mem⟩ := distDropped_kept (n.val = 0) (spanned p.job lo hi) (updCol s n (Column.cleaned (spanned p.job lo hi)))
      have column (m : Fin 8) := (colAt_congr columns m)
      refine ⟨_, run, congrArg (List.map _) net, ?_, ?_, fun m hm => ?_, coresKept, mem⟩
      · refine (congrArg Column.eng (column n)).trans ?_
        rw [colAt_updCol_self]; rfl
      · refine (congrArg Column.coll (column n)).trans ?_
        rw [colAt_updCol_self]; rfl
      · exact (column m).trans (colAt_updCol_ne _ _ _ _ hm)
    · have run : exec (.dropAcknowledgement p.id) s = .next (actAs c k.toFin (retire 4) (withoutPkt s p.id)) := by
        show execDropAcknowledgement p.id s = _
        unfold execDropAcknowledgement
        rw [found]; dsimp only
        rw [kind, noCores, noCols, core, slot]; dsimp only
        exact if_neg (not_not.mpr waits)
      obtain ⟨hart, net, -, only⟩ := slotOnly_retire hc k.toFin (withoutPkt s p.id)
      exact ⟨_, run, net, congrArg Hart.pc hart, fun r => (congrArg (Hart.gr · r) hart :), only.of_net rfl⟩

end Sys2Proof.Machine
end

section
/-!
PROOFS. The debug module and the instrument network (R436 to R438).
-/

namespace Sys2Proof.Machine

set_option Elab.async false

variable {s : State}

/-! ## The result of a command -/

/-- A command has ended in column col: its error and data there, nothing else of the machine it left. -/
theorem cmdDone_result (col : Fin 8) (err : BitVec 3) (v : BitVec 64) (u : State) :
    let t := cmdDone col err v u
    (colAt t col).cmderr = err ∧ (colAt t col).ddata = v ∧ { colAt t col with cmderr := 0, ddata := 0 } = { colAt u col with cmderr := 0, ddata := 0 } ∧
      (∀ x, x ≠ col → colAt t x = colAt u x) ∧ { t with cols := u.cols } = u := by
  dsimp only
  unfold cmdDone
  rw [colAt_updCol_self]
  exact ⟨rfl, rfl, rfl, fun x hx => colAt_updCol_ne _ _ _ _ hx, rfl⟩

/-! ## Access Register (R436) -/

section
variable {c : Nat} {k : BitVec 3} {n : BitVec 16} {r : BitVec 5} (hn : n.toNat = 0x1000 + r.toNat)
include hn

theorem dbgRead_g : dbgRead c k.toFin n.toNat s = some ((hartAt s c k.toFin).gr r) := by
  have := r.isLt
  have same : BitVec.ofNat 5 n.toNat = r := BitVec.eq_of_toNat_eq (by rw [hn, BitVec.toNat_ofNat]; omega)
  unfold dbgRead
  dsimp only
  rw [if_neg (by omega), if_pos (by omega), same]
  rfl

theorem dbgWrite_g (v : BitVec 64) : dbgWrite c k.toFin n.toNat v s = some (updHart s c k.toFin fun h => h.setG r v) := by
  have := r.isLt
  have same : BitVec.ofNat 5 n.toNat = r := BitVec.eq_of_toNat_eq (by rw [hn, BitVec.toNat_ofNat]; omega)
  unfold dbgWrite
  dsimp only
  rw [if_neg (by omega), if_pos (by omega), same]

theorem dbgVec_g : dbgVec s c k.toFin n.toNat = false := by
  have := r.isLt
  have view : viewOf n.toNat = none := if_neg (by omega)
  have sys : dbgSys s c k.toFin n.toNat = none := by
    unfold dbgSys
    rw [view]
    exact if_neg (by omega)
  unfold dbgVec
  rw [sys, beq_false_of_ne (by omega), decide_eq_false (by omega)]
  rfl

/-- A command for a g register, of the right size: it waits for nothing. -/
theorem accessRegister_g (hc : c < 2048) (halted : (hartAt s c k.toFin).st = .halted) (wr : Bool) (v : BitVec 64) :
    exec (.accessRegister c k ⟨0, n⟩ ⟨3, false⟩ wr v) s = .next (if wr then cmdDone (colOf c) 0 v (updHart s c k.toFin fun h => h.setG r v)
      else cmdDone (colOf c) 0 ((hartAt s c k.toFin).gr r) s) := by
  have := r.isLt
  show execAccessRegister _ _ _ _ _ _ s = _
  unfold execAccessRegister
  rw [if_neg (Nat.not_le.mpr hc)]
  dsimp only
  rw [if_neg (by simp), if_neg (by rw [halted]; simp), dbgRead_g hn]
  dsimp only
  rw [decide_eq_false (by omega), dbgVec_g hn, dbgWrite_g hn]
  cases wr <;> rfl

end

/-! ## Access Memory (R437) -/

theorem colOf_of_bank {a b w o : Nat} (target : targetOf s a = .bank b w o) : colOf b = ⟨gpaCol a, Nat.mod_lt _ (by decide)⟩ := by
  unfold targetOf at target
  dsimp only at target
  split at target
  · split at target <;> cases target
  · split at target
    · cases target
    · split at target
      · unfold offTarget at target
        split at target
        · cases target
        · split at target
          · next place =>
            cases target
            have := Nat.mod_lt (a / 2 ^ 45) (by decide : 0 < 8)
            refine Fin.ext ?_
            show (256 * gpaCol a + _) / 256 % 8 = gpaCol a
            unfold gpaCol at *
            omega
          · split at target
            · cases target
            · split at target
              · cases target
              · split at target <;> cases target
      · cases target

theorem degradedAt_bank {a b w o : Nat} (target : targetOf s a = .bank b w o) (on : bankCheck s b w = none) : degradedAt s a = false := by
  unfold bankCheck at on
  dsimp only at on
  split at on
  · cases on
  · next up =>
    rw [colOf_of_bank target] at up
    rw [degradedAt, Bool.and_eq_false_iff]
    exact .inr (by simp only [Bool.or_eq_true, not_or, Bool.not_eq_true] at up; exact up.1)

section
variable {col : Fin 8} {a : BitVec 64} {z : BitVec 3} {vi wr : Bool} {v : BitVec 64}

theorem accessMemory_refused (no : vi = true ∨ 3 < z.toNat ∨ 2 ^ 56 ≤ a.toNat ∨ gpaDev a.toNat ≠ s.fabric.dev.toNat) :
    exec (.accessMemory col.val a z vi wr v) s = .next (cmdDone col 2 (colAt s col).ddata s) := by
  have big : 3 < z.toNat → 8 < 2 ^ z.toNat := fun h => Nat.pow_lt_pow_right (by decide : 1 < 2) h
  have refused : (vi || decide (8 < 2 ^ z.toNat) || decide (2 ^ 56 ≤ a.toNat) || gpaDev a.toNat != s.fabric.dev.toNat) = true := by
    simp only [Bool.or_eq_true, decide_eq_true_eq, bne_iff_ne, ne_eq]
    obtain h | h | h | h := no
    · exact .inl (.inl (.inl h))
    · exact .inl (.inl (.inr (big h)))
    · exact .inl (.inr h)
    · exact .inr h
  have column : (⟨col.val % 8, Nat.mod_lt _ (by decide)⟩ : Fin 8) = col := Fin.ext (Nat.mod_eq_of_lt col.isLt)
  show execAccessMemory _ _ _ _ _ _ s = _
  unfold execAccessMemory
  rw [if_neg (by omega)]
  dsimp only
  rw [refused, if_pos rfl, column]

variable (size : z.toNat ≤ 3) (low : a.toNat < 2 ^ 56) (own : gpaDev a.toNat = s.fabric.dev.toNat)
include size low own

theorem accessMemory_taken : exec (.accessMemory col.val a z false wr v) s =
    if a.toNat % 2 ^ z.toNat ≠ 0 then .next (cmdDone col 5 (colAt s col).ddata s)
    else match wayFor s a.toNat with
      | none => .next s
      | some u =>
        if wr then .next (cmdDone col (if (ownerWrite true a.toNat (2 ^ z.toNat) (v.toNat % 2 ^ (8 * 2 ^ z.toNat)) u).1 then 0 else 5) v
          (ownerWrite true a.toNat (2 ^ z.toNat) (v.toNat % 2 ^ (8 * 2 ^ z.toNat)) u).2)
        else match dbgLoad a.toNat (2 ^ z.toNat) u with
          | (some x, s) => .next (cmdDone col 0 (BitVec.ofNat 64 x) s)
          | (none, t) => .next (cmdDone col 5 (colAt s col).ddata t) := by
  have small : 2 ^ z.toNat ≤ 2 ^ 3 := Nat.pow_le_pow_right (by decide) size
  have taken : (false || decide (8 < 2 ^ z.toNat) || decide (2 ^ 56 ≤ a.toNat) || gpaDev a.toNat != s.fabric.dev.toNat) = false := by
    rw [decide_eq_false (by omega), decide_eq_false (by omega), own, bne_self_eq_false]; rfl
  have column : (⟨col.val % 8, Nat.mod_lt _ (by decide)⟩ : Fin 8) = col := Fin.ext (Nat.mod_eq_of_lt col.isLt)
  show execAccessMemory _ _ _ _ _ _ s = _
  unfold execAccessMemory
  rw [if_neg (by omega)]
  dsimp only
  rw [taken, if_neg Bool.false_ne_true, column] <;> rfl

end

/-! ## The instrument network (R438) -/

/-- A core that was scanned out and cleared. -/
def Core.scanned (q : Core) : Core := { q with
  harts := Vector.replicate 8 Hart.reset, ctxjob := 0, bound := false, marked := none, ring := Vector.replicate 4 []
  mb := Vector.replicate 8 0, mbFull := 0, tok := Vector.replicate 8 0, tokVa := Vector.replicate 8 0
  cstart := Vector.replicate 8 0, cpc := Vector.replicate 8 0, bfmt := Vector.replicate 16 0x1F
  vec := Vec.bindTo none, latchSet := 0, latchDone := 0, binding := none, rcache := [], l0d := [], l0i := [], jobWrite := none
  gangSize := 0, gangPos := 0, gangLeader := 0, unloaded := true }

/-- What the unloading of cores leaves: no byte that was zero changed, and columns and addresses as they were. -/
structure Scanned (s t : State) : Prop where
  cols : t.cols = s.cols
  fabric : t.fabric = s.fabric
  zero : ∀ a, byteAt s a = 0 → byteAt t a = 0

/-- A core that an unloading cleared: the statement's registers, its bytes, and nothing held in its ways. -/
structure CoreScanned (s t : State) (c : Nat) : Prop where
  core : ∃ q : Core, coreAt t c = q.scanned
  quiet : (coreAt t c).cw = [] ∧ (coreAt t c).waiters = []
  banks : ∀ w b, w < 16 → b < 2 ^ 18 → byteAt t (bankGpa s c w b) = 0

theorem unloadCore_clears (c : Nat) (s : State) (lines : (coreAt s c).cw = []) (waiters : (coreAt s c).waiters = []) :
    Scanned s (unloadCore c s) ∧ CoreScanned s (unloadCore c s) c ∧ ∀ x, x ≠ c → coreAt (unloadCore c s) x = coreAt s x := by
  have whole : unloadCore c s = updCore (clearWays c (List.range 16) (wakeWays c (List.range 16) (orphanMsgs c none s))) c Core.scanned := by
    unfold unloadCore
    rw [lines]; rfl
  rw [whole]
  obtain ⟨o, ho⟩ : ∃ o, o = orphanMsgs c none s := ⟨_, rfl⟩
  have cores (x : Nat) : coreAt o x = coreAt s x := by rw [ho]; rfl
  have cols : o.cols = s.cols := by rw [ho]; rfl
  have fabric : o.fabric = s.fabric := by rw [ho]; rfl
  have bytes (a : Nat) : byteAt o a = byteAt s a := by rw [ho]; rfl
  rw [← ho]
  have woken := waysCleared_wakeWays c (List.range 16) o (by rw [cores]; exact waiters)
  generalize wakeWays c (List.range 16) o = u at woken ⊢
  have cleared := waysCleared_clearWays c (List.range 16) u
  have zero (w b : Nat) (hw : w < 16) (hb : b < 2 ^ 18) := byteAt_clearWays c u (List.mem_range.mpr hw) hb
  generalize clearWays c (List.range 16) u = v at cleared zero ⊢
  have ways := woken.trans cleared
  have core := coreAt_updCore_self v c Core.scanned
  refine ⟨⟨ways.cols.trans cols, ways.fabric.trans fabric, fun a h => ways.zero a (by rw [bytes]; exact h)⟩, ⟨⟨_, core⟩, ?_, fun w b hw hb => ?_⟩,
    fun x hx => (coreAt_updCore_ne _ _ _ _ hx).trans ((ways.others x hx).trans (cores x))⟩
  · rw [core]
    exact ⟨ways.quiet.1.trans (by rw [cores]; exact lines), ways.quiet.2 (by rw [cores]; exact waiters)⟩
  · have byte := zero w b hw hb
    rw [bankGpa_congr (woken.fabric.trans fabric) c w b] at byte
    exact byte

theorem unloadCore_foldl : ∀ (cs : List Nat) (s : State), (∀ x ∈ cs, (coreAt s x).cw = [] ∧ (coreAt s x).waiters = []) →
    let t := cs.foldl (fun s c => unloadCore c s) s
    Scanned s t ∧ (∀ x ∈ cs, CoreScanned s t x) ∧ ∀ x, x ∉ cs → coreAt t x = coreAt s x
  | [], s, _ => ⟨⟨rfl, rfl, fun _ h => h⟩, fun _ h => (List.not_mem_nil h).elim, fun _ _ => rfl⟩
  | c :: cs, s, empty => by
    dsimp only
    rw [List.foldl_cons]
    obtain ⟨lines, waiters⟩ := empty c List.mem_cons_self
    obtain ⟨first, here, others⟩ := unloadCore_clears c s lines waiters
    generalize unloadCore c s = u at first here others
    have empty' : ∀ x ∈ cs, (coreAt u x).cw = [] ∧ (coreAt u x).waiters = [] := fun x hx => by
      by_cases same : x = c
      · rw [same]; exact here.quiet
      · rw [others x same]; exact empty x (List.mem_cons_of_mem _ hx)
    obtain ⟨rest, there, others'⟩ := unloadCore_foldl cs u empty'
    refine ⟨⟨rest.cols.trans first.cols, rest.fabric.trans first.fabric, fun a h => rest.zero a (first.zero a h)⟩, fun x hx => ?_, fun x hx => ?_⟩
    · by_cases later : x ∈ cs
      · obtain ⟨core, quiet, banks⟩ := there x later
        exact ⟨core, quiet, fun w b hw hb => by rw [← bankGpa_congr first.fabric]; exact banks w b hw hb⟩
      · obtain rfl := (List.mem_cons.mp hx).resolve_right later
        have same := others' x later
        exact ⟨same ▸ here.core, same ▸ here.quiet, fun w b hw hb => rest.zero _ (here.banks w b hw hb)⟩
    · exact (others' x fun h => hx (List.mem_cons_of_mem _ h)).trans (others x fun h => hx (h ▸ List.mem_cons_self))


/-- A core that was scanned out, as the statement reads it. -/
theorem scanned_reset (q : Core) : q.scanned.unloaded = true ∧ q.scanned.ctxjob = 0 ∧ (∀ j, q.scanned.harts.get j = Hart.reset) ∧
    q.scanned.vec.v = [] ∧ q.scanned.vec.acc = [] := by
  refine ⟨rfl, rfl, fun j => ?_, rfl, rfl⟩
  show (Vector.replicate 8 Hart.reset)[j.val] = _
  exact Vector.getElem_replicate _

/-- A memory access of the debug module at a bank whose turn it is (R120). -/
theorem wayFor_bank {a b w o : Nat} (target : targetOf s a = .bank b w o) (taken : bankTaken s noCore b w = false) (held : bankHeld s noCore a = false) :
    wayFor s a = some (takeBank noCore b w s) := by
  unfold wayFor
  rw [target]
  dsimp only
  rw [taken, held]
  rfl

theorem dbgLoad_bank {a b w o n : Nat} (target : targetOf s a = .bank b w o) (on : bankCheck s b w = none) (good : lineBad s a = false) :
    dbgLoad a n s = (some (memRead s.mem a n), s) := by
  have sound := degradedAt_bank target on
  unfold dbgLoad ownerRead
  rw [sound, target, good]
  dsimp only
  rw [on]
  rfl

theorem stored_mod {t : State} {a n v : Nat} (h : Stored s t a n (v % 2 ^ (8 * n))) : Stored s t a n v := by
  refine ⟨fun k hk => (h.1 k hk).trans ?_, h.2⟩
  refine BitVec.eq_of_toNat_eq ?_
  rw [BitVec.toNat_ofNat, BitVec.toNat_ofNat, show (2 : Nat) ^ (8 * n) = 256 ^ k * (256 ^ (n - k - 1) * 256) by
    rw [← Nat.pow_succ, ← Nat.pow_add, show k + (n - k - 1).succ = n by omega, Nat.pow_mul], Nat.mod_mul_right_div_self]
  exact Nat.mod_mul_left_mod _ _ _

/-- Settles O59: each command checks its hart, size and place in turn, and leaves its result. -/
theorem debugEvents : Obligations.DebugEvents := by
  intro s c k hc q i h col result old
  have here : ¬ 2048 ≤ c := Nat.not_le.mpr hc
  refine ⟨fun ready boundary free => ?_, fun frozen => ?_, fun unloaded => ?_, fun loaded halted => ⟨fun step night => ?_, fun step night => ?_, fun step => ?_⟩,
    fun r n z wr v hn => ⟨fun ct px other => ?_, fun running => ?_, fun halted size => ?_, fun halted size => ⟨?_, ?_⟩⟩, ?_, ?_⟩
  · refine (if_neg here).trans (congrArg Host.Outcome.next (if_pos ⟨ready, boundary, ?_⟩))
    obtain free | free | free := free
    · rw [show (coreAt s c).vec.bound = false from free]; rfl
    · rw [beq_false_of_ne (show (coreAt s c).vec.slot ≠ k.toFin from free), Bool.and_false]; rfl
    · rw [show (coreAt s c).quiet = true from free, Bool.or_true]
  · refine (if_neg here).trans (congrArg Host.Outcome.next ((if_neg ?_).trans (if_pos frozen)))
    intro both
    have := both.1.symm.trans (show (hartAt s c k.toFin).st = .frozen from frozen)
    cases this
  · exact ⟨_, (if_neg here).trans (if_pos unloaded), cmdDone_result _ _ _ _⟩
  · refine (if_neg here).trans ((if_neg (by rw [show (coreAt s c).unloaded = false from loaded]; decide)).trans
      ((if_neg (not_not.mpr halted)).trans ((if_neg (by rw [show ((coreAt s c).harts.get k.toFin).dstep.getLsbD 0 = false from step]; decide)).trans ?_)))
    rw [show (coreAt s c).night = false from night]
    rfl
  · refine (if_neg here).trans ((if_neg (by rw [show (coreAt s c).unloaded = false from loaded]; decide)).trans
      ((if_neg (not_not.mpr halted)).trans ((if_neg (by rw [show ((coreAt s c).harts.get k.toFin).dstep.getLsbD 0 = false from step]; decide)).trans ?_)))
    rw [show (coreAt s c).night = true from night]
    rfl
  · refine ⟨_, (if_neg here).trans ((if_neg (by rw [show (coreAt s c).unloaded = false from loaded]; decide)).trans
      ((if_neg (not_not.mpr halted)).trans (if_pos step))), ?_⟩
    have hart := hartAt_setHart_self s c k.toFin { h with st := .ready, dbgStep := true, stepDone := false, stepHead := none, dstep := h.dstep &&& ~~~(4#64), stepped := h.stepped || q.night }
    refine ⟨(congrArg Hart.st hart :), (congrArg Hart.dbgStep hart :), (congrArg Hart.pc hart :), fun r => (congrArg (Hart.gr · r) hart :), ?_⟩
    exact slotOnly_updHart c k.toFin fun _ => { h with st := .ready, dbgStep := true, stepDone := false, stepHead := none, dstep := h.dstep &&& ~~~(4#64), stepped := h.stepped || q.night }
  · refine ⟨_, (if_neg here).trans (if_pos ?_), cmdDone_result _ _ _ _⟩
    exact other
  · exact ⟨_, (if_neg here).trans ((if_neg (by simp)).trans (if_pos running)), cmdDone_result _ _ _ _⟩
  · refine ⟨_, (if_neg here).trans ((if_neg (by simp)).trans ((if_neg (not_not.mpr halted)).trans ?_)), cmdDone_result _ _ _ _⟩
    dsimp only
    rw [dbgRead_g hn]
    have acc : decide (0xD000 ≤ n.toNat) = false := decide_eq_false (by have := r.isLt; omega)
    dsimp only
    rw [acc]
    exact if_pos fun e => size (BitVec.eq_of_toNat_eq e)
  · subst size
    exact ⟨_, accessRegister_g hn hc halted false v, cmdDone_result _ _ _ _⟩
  · subst size
    refine ⟨_, accessRegister_g hn hc halted true v, ?_, fun x hx => ?_, ?_, ?_, rfl, fun j hj => ?_, fun x hx => ?_⟩
    · exact (congrArg (Hart.gr · r) (hartAt_updHart_self s c k.toFin fun h => h.setG r v)).trans ((gr_setG _ _ _ _).trans (if_pos rfl))
    · exact (congrArg (Hart.gr · x) (hartAt_updHart_self s c k.toFin fun h => h.setG r v)).trans ((gr_setG _ _ _ _).trans (if_neg hx))
    · exact (congrArg Hart.pc (hartAt_updHart_self s c k.toFin fun h => h.setG r v)).trans (setG_pc _ _ _)
    · exact (cmdDone_result col 0 v _).1
    · exact hartAt_setHart_slot _ _ _ _ _ hj
    · exact (slotOnly_updHart (s := s) c k.toFin fun h => h.setG r v).cores x hx
  · intro a z vi wr v n
    refine ⟨fun no => ⟨_, accessMemory_refused no, cmdDone_result _ _ _ _⟩, fun size low own => ⟨fun odd => ?_, fun b w o even target on good ok taken held => ?_⟩⟩
    · exact ⟨_, (accessMemory_taken size low own).trans (if_pos odd), cmdDone_result _ _ _ _⟩
    · have way := wayFor_bank target taken held
      obtain ⟨u, hu⟩ : ∃ u, u = takeBank noCore b w s := ⟨_, rfl⟩
      have target' : targetOf u a.toNat = .bank b w o := by rw [hu]; exact target
      have on' : bankCheck u b w = none := by rw [hu, bankCheck_takeBank]; exact on
      have good' : lineBad u a.toNat = false := by rw [hu, lineBad_takeBank target]; exact good
      have mem : u.mem = s.mem := by rw [hu]; rfl
      rw [← hu] at way
      dsimp only
      rw [← hu]
      refine ⟨⟨cmdDone col 0 (BitVec.ofNat 64 (memRead s.mem a.toNat n)) u, ?_, cmdDone_result _ _ _ _⟩,
        ⟨cmdDone col 0 v { u with mem := memWrite u.mem a.toNat n (v.toNat % 2 ^ (8 * n)) }, ?_, ?_, cmdDone_result _ _ _ _⟩⟩
      · rw [accessMemory_taken size low own, if_neg (not_not.mpr even), way]
        dsimp only
        rw [if_neg Bool.false_ne_true, dbgLoad_bank target' on' good', mem]
      · rw [accessMemory_taken size low own, if_neg (not_not.mpr even), way]
        dsimp only
        rw [if_pos rfl, ownerWrite_bank (degradedAt_bank target' on') target' good' on']
        rfl
      · refine stored_mod (stored_memWrite ok ?_)
        show memWrite u.mem _ _ _ = _
        rw [mem]
  · intro row cs all
    have each (x : Nat) (hx : x ∈ cs) : mayUnload s x = true ∧ (coreAt s x).cw = [] ∧ (coreAt s x).waiters = [] := by
      have := List.all_eq_true.mp all x hx
      simp only [Bool.and_eq_true, List.isEmpty_iff] at this
      exact ⟨this.1.1, this.1.2, this.2⟩
    have hrow : row < 16 := by
      have : idxOf c < 256 := Nat.mod_lt _ (by decide)
      omega
    have column : (⟨col.val % 8, Nat.mod_lt _ (by decide)⟩ : Fin 8) = col := Fin.ext (Nat.mod_eq_of_lt col.isLt)
    obtain ⟨scanned, inside, outside⟩ := unloadCore_foldl cs s fun x hx => (each x hx).2
    have run : exec (.instrumentUnload col.val row) s = .next (updCol (cs.foldl (fun s c => unloadCore c s) s) col fun c =>
        { c with unloaded := c.unloaded ||| (1#16 <<< row) }) := by
      refine (if_neg (by have := col.isLt; omega)).trans (congrArg Host.Outcome.next ((if_pos (List.all_eq_true.mpr fun x hx => (each x hx).1)).trans ?_))
      rw [column]
    generalize cs.foldl (fun s c => unloadCore c s) s = t at scanned inside outside run
    refine ⟨_, run, ?_, fun x hx => ?_, fun x hx => outside x hx⟩
    · rw [colAt_updCol_self]
      simp [hrow]
    · obtain ⟨⟨q, core⟩, -, banks⟩ := inside x hx
      obtain ⟨unloaded, job, harts, v, acc⟩ := scanned_reset q
      refine ⟨?_, ?_, fun j => ?_, ?_, ?_, fun w b hw hb _ => banks w b hw hb⟩
      · exact (congrArg Core.unloaded core).trans unloaded
      · exact (congrArg Core.ctxjob core).trans job
      · exact (congrArg (fun q : Core => q.harts.get j) core).trans (harts j)
      · exact (congrArg (fun q : Core => q.vec.v) core).trans v
      · exact (congrArg (fun q : Core => q.vec.acc) core).trans acc

end Sys2Proof.Machine
end

section
/-!
PROOFS. Nightfall and Daybreak (R427 to R435): a wave, what it freezes, and the three steps that end it; obligation O58.
-/

namespace Sys2Proof.Machine

set_option Elab.async false

/-! ## The fields of NFSTAT (R432) -/

/-- A bit of a written field is the new word's inside the mask and the old one's outside. -/
theorem getLsbD_masked (u x m : BitVec 64) {i : Nat} (lt : i < 64) :
    ((u &&& ~~~m) ||| (x &&& m)).getLsbD i = if m.getLsbD i then x.getLsbD i else u.getLsbD i := by
  simp only [BitVec.getLsbD_or, BitVec.getLsbD_and, BitVec.getLsbD_not, lt, decide_true, Bool.true_and]
  cases m.getLsbD i <;> simp

/-- The number of a step written into DBSTEP, with DB set, is read back there; NIGHT and DB are as they were. -/
theorem dbstep_written (w : BitVec 64) (k : BitVec 2) : let v := setBits w (k.zeroExtend 64 <<< 60) 61 60
    v.extractLsb' 60 2 = k ∧ v.getLsbD 63 = w.getLsbD 63 ∧ v.getLsbD 62 = w.getLsbD 62 := by
  have mask : (BitVec.ofNat 64 (2 ^ (61 + 1 - 60) - 1)) <<< 60 = 3#64 <<< 60 := by decide
  simp only [setBits, mask]
  refine ⟨BitVec.eq_of_getLsbD_eq fun i hi => ?_, ?_, ?_⟩
  · rw [BitVec.getLsbD_extractLsb', getLsbD_masked _ _ _ (by omega)]
    obtain rfl | rfl : i = 0 ∨ i = 1 := by omega
    · simp
    · simp
  · rw [getLsbD_masked _ _ _ (by decide)]; simp
  · rw [getLsbD_masked _ _ _ (by decide)]; simp

/-- The count of a night's origins goes into a word whose own count is cleared. -/
theorem origins_noted (kept partialW : BitVec 64) (n : BitVec 16) (clear : kept.setWidth 16 = 0#16) (low : partialW.setWidth 16 = 0#16) :
    (kept ||| partialW ||| (1#64 <<< 63) ||| n.zeroExtend 64).setWidth 16 = n := by
  simp only [BitVec.setWidth_or, clear, low]
  refine BitVec.eq_of_getLsbD_eq fun i hi => ?_
  have : i < 64 := by omega
  have : i < 63 := by omega
  simp [*]

/-- PARTIAL and PPORT fill their own bits alone. -/
theorem partialBits_masked (s : State) : partialBits s &&& 0x080F000000000000 = partialBits s := by
  unfold partialBits
  split
  · next p found =>
    have lt : p < 16 := List.mem_range.1 (List.mem_of_find?_eq_some found)
    revert lt; clear found; revert p; decide
  · rfl

/-- The record of a night that begins names this night's port (R431, R435). -/
theorem partial_noted (w : BitVec 64) (n : BitVec 16) (s : State) :
    ((w &&& ~~~(0x0C0F00000000FFFF#64)) ||| partialBits s ||| (1#64 <<< 63) ||| n.zeroExtend 64) &&& 0x080F000000000000 = partialBits s := by
  have count : (n.zeroExtend 64) &&& (0x080F000000000000 : BitVec 64) = 0#64 := by
    refine BitVec.eq_of_getLsbD_eq fun i hi => ?_
    rw [BitVec.getLsbD_and, BitVec.zeroExtend, BitVec.getLsbD_setWidth]
    by_cases low : i < 16
    · have clear : (0x080F000000000000 : BitVec 64).getLsbD i = false := by revert low; clear * -; revert i; decide
      rw [clear, Bool.and_false, BitVec.getLsbD_zero]
    · rw [BitVec.getLsbD_of_ge n i (by omega)]; simp
  have other : (w &&& ~~~(0x0C0F00000000FFFF#64)) &&& (0x080F000000000000 : BitVec 64) = 0#64 := by
    rw [BitVec.and_assoc]
    rw [show ~~~(0x0C0F00000000FFFF#64) &&& (0x080F000000000000 : BitVec 64) = 0#64 by decide, BitVec.and_zero]
  rw [BitVec.and_or_distrib_right, BitVec.and_or_distrib_right, BitVec.and_or_distrib_right, other, count, partialBits_masked]
  simp

/-! ## The wave (R428, R430) -/

/-- Whether an origin is the first of a night's record. -/
def Night.first (n : Night) : Bool := !n.nfstat.getLsbD 63 || (n.nfstat.getLsbD 62 && !n.again)

/-- The origins that the record holds before. -/
def Night.origins (n : Night) : BitVec 16 := if n.first then 0 else n.nfstat.setWidth 16

/-- A Nightfall flit has left by every port that passes one, but for the one it came by. -/
def NightLeft (s t : State) (job key : BitVec 32) (cause : BitVec 8) (by' : Option Nat) : Prop :=
  ∀ p, p < 16 → portNight s p = true → some p ≠ by' → (p, Flit.night job key cause) ∈ t.fabric.sent

/-- What O58 says of the start of a wave. -/
def WaveStarted (s t : State) (key : BitVec 32) (cause : BitVec 8) (by' : Option Nat) : Prop :=
  t.night.nfstat.getLsbD 63 = true ∧ t.night.nfstat.setWidth 16 = (if s.night.origins = 0xFFFF then s.night.origins else s.night.origins + 1) ∧
  (s.night.first = true → t.night.nfstat &&& 0x080F000000000000 = partialBits s) ∧
  t.night.nfcause = (if s.night.first = false ∧ (keptKey s.night.nfcause).toNat ≤ key.toNat then s.night.nfcause
    else causeWord s.night.nfcause key cause) ∧
  (∀ c, coreAt t c = if (coreAt s c).job = nightJob s ∧ nightJob s ≠ 0 then { coreAt s c with wave := !(coreAt s c).night } else coreAt s c) ∧
  NightLeft s t (nightJob s) key cause by' ∧ t.mem = s.mem ∧ t.net = s.net ∧ t.cols = s.cols ∧
  (s.night.nfstat.getLsbD 63 = false → t.boot.intstat.getLsbD 1 = true)

/-- Nightfall's registers once an origin is noted. -/
def Night.noted (s : State) (key : BitVec 32) (cause : BitVec 8) : Night :=
  let n := s.night
  let kept := if n.first then n.nfstat &&& ~~~(0x0C0F00000000FFFF#64) else n.nfstat &&& ~~~(0x040000000000FFFF#64)
  { n with
    nfstat := kept ||| partialBits s ||| (1#64 <<< 63) ||| (if n.origins = 0xFFFF then n.origins else n.origins + 1).zeroExtend 64
    nfcause := if !n.first && decide ((keptKey n.nfcause).toNat ≤ key.toNat) then n.nfcause else causeWord n.nfcause key cause
    again := n.nfstat.getLsbD 63 && n.nfstat.getLsbD 62 }

/-- The state in which a wave's flits leave. -/
def noted (s : State) (key : BitVec 32) (cause : BitVec 8) : State :=
  { s with night := Night.noted s key cause, cores := s.cores.map fun e => (e.1, e.2.waved (nightJob s)) }

theorem startWave_noted (key : BitVec 32) (cause : BitVec 8) (by' : Option Nat) (s : State) : startWave key cause by' s =
    if s.night.nfstat.getLsbD 63 then sendNight (nightJob s) key cause by' (noted s key cause)
    else raiseInt 1 (sendNight (nightJob s) key cause by' (noted s key cause)) := rfl

theorem sendNight_left (job key : BitVec 32) (cause : BitVec 8) (by' : Option Nat) {s u : State} (ports : u.fabric = s.fabric) :
    NightLeft s (sendNight job key cause by' u) job key cause by' := fun p lt passes other =>
  (mem_sendNight_sent _ _ _ _ _ _).2 (.inl ⟨p, lt, by rw [portNight, portUp, ports]; exact passes, other, rfl⟩)

/-- The count that the record of a night holds (R430). -/
theorem origins_count (s : State) (key : BitVec 32) (cause : BitVec 8) : (Night.noted s key cause).nfstat.setWidth 16 =
    if s.night.origins = 0xFFFF then s.night.origins else s.night.origins + 1 := by
  refine origins_noted _ _ _ ?_ (partialBits_low s)
  have cleared : BitVec.setWidth 16 (~~~0x0C0F00000000FFFF#64) = 0#16 ∧ BitVec.setWidth 16 (~~~0x040000000000FFFF#64) = 0#16 := by decide
  split
  · rw [BitVec.setWidth_and, cleared.1, BitVec.and_zero]
  · rw [BitVec.setWidth_and, cleared.2, BitVec.and_zero]

theorem waveStarted (key : BitVec 32) (cause : BitVec 8) (by' : Option Nat) (s : State) :
    WaveStarted s (startWave key cause by' s) key cause by' := by
  have core (c : Nat) := coreAt_startWave key cause by' s c
  have night := startWave_night key cause by' s
  have left : NightLeft s (sendNight (nightJob s) key cause by' (noted s key cause)) (nightJob s) key cause by' := sendNight_left _ _ _ _ rfl
  obtain ⟨boot, form, vector⟩ : ∃ boot, startWave key cause by' s = { sendNight (nightJob s) key cause by' (noted s key cause) with boot := boot } ∧
      (s.night.nfstat.getLsbD 63 = false → boot.intstat.getLsbD 1 = true) := by
    rw [startWave_noted]
    split
    · next frozen => exact ⟨_, rfl, fun awake => absurd (frozen.symm.trans awake) (by decide)⟩
    · exact ⟨_, raiseInt_eq _ _, fun _ => intstat_raiseInt (by decide) _⟩
  rw [form] at core night ⊢
  refine ⟨night, origins_count s key cause, fun first => ?_, ?_, core, left, rfl, rfl, rfl, vector⟩
  · show (Night.noted s key cause).nfstat &&& 0x080F000000000000 = partialBits s
    simp only [Night.noted, first, if_true]
    exact partial_noted _ _ s
  · show (Night.noted s key cause).nfcause = _
    simp only [Night.noted, Bool.and_eq_true, Bool.not_eq_true', decide_eq_true_eq]

/-! ## A core freezes (R429) -/

theorem freeze_kept (h : Hart) : h.freeze.pc = h.pc ∧ ∀ r, h.freeze.gr r = h.gr r := by
  unfold Hart.freeze
  split
  · exact ⟨rfl, fun _ => rfl⟩
  · split <;> exact ⟨rfl, fun _ => rfl⟩

theorem freeze_running {h : Hart} (st : h.st = .ready ∨ h.st = .parked ∨ h.st = .stalled) (free : h.dbgStep = false) :
    h.freeze.st = .frozen ∧ h.freeze.back = h.st := by
  unfold Hart.freeze
  rw [if_neg (by rw [free]; decide)]
  obtain st | st | st := st <;> rw [st] <;> exact ⟨rfl, rfl⟩

theorem hart_freezeCore (s : State) (c : Nat) (k : Fin 8) : hartAt (freezeCore c s) c k = (hartAt s c k).freeze := by
  unfold freezeCore
  rw [hartAt, coreAt_updCore_self]
  exact get_mapHarts _ _ _

/-! ## What settles, and the acknowledgement (R429, R433) -/

theorem sendAck_form (dev : BitVec 8) (k : BitVec 2) (s : State) : ∃ sent, sendAck dev k s = { s with fabric := { s.fabric with sent := sent } } := by
  unfold sendAck
  split
  · split
    · exact ⟨_, rfl⟩
    · exact ⟨_, rfl⟩
  · exact ⟨_, rfl⟩

/-- The way towards a device depends on the routes and the ports alone. -/
theorem portFor_kept {s u : State} (route : (colAt u 0).route = (colAt s 0).route) (ports : u.fabric = s.fabric) (d : Nat) :
    portFor u 0 d = portFor s 0 d := by
  unfold portFor portUp
  rw [route, ports]

/-- The acknowledgement leaves by the port towards the coordinator (R431, R433). -/
theorem sendAck_sent {dev : BitVec 8} (k : BitVec 2) {s : State} {p : Nat} (port : portFor s 0 dev.toNat = some p) (passes : portNight s p = true) :
    (p, Flit.stepAck s.fabric.dev (nightJob s) k) ∈ (sendAck dev k s).fabric.sent := by
  unfold sendAck
  rw [port]
  dsimp only
  rw [if_pos passes, sendFlits_sent]
  exact List.mem_append_left _ (List.mem_reverse.2 (List.mem_singleton.2 rfl))

/-! ## Daybreak's steps (R433 to R435) -/

/-- A core at step 3. -/
def Core.dawned (s : State) (mode : Bool) (w : BitVec 64) (q : Core) : Core :=
  { q.mapHarts (fun _ h => h.daybreak mode w) with
    night := false, wave := false, cycVal := cycOf s q, cycBase := s.clock, cycStop := none }

/-- A core wakes: its probes may go, and it alone changes else. -/
theorem wakeCore_eq (c : Nat) (mode : Bool) (w : BitVec 64) (s : State) :
    ∃ net, wakeCore c mode w s = updCore { s with net := net } c (Core.dawned s mode w) := by
  unfold wakeCore
  cases mode
  · exact ⟨s.net, rfl⟩
  · exact ⟨_, rfl⟩

theorem wakeCore_form (c : Nat) (mode : Bool) (w : BitVec 64) (s : State) :
    (coreAt (wakeCore c mode w s) c).night = false ∧ (∀ k, hartAt (wakeCore c mode w s) c k = (hartAt s c k).daybreak mode w) ∧
    (∀ x, x ≠ c → coreAt (wakeCore c mode w s) x = coreAt s x) ∧
    ∃ net cores, wakeCore c mode w s = { s with cores := cores, net := net } := by
  obtain ⟨net, form⟩ := wakeCore_eq c mode w s
  rw [form]
  refine ⟨?_, fun k => ?_, fun x other => coreAt_updCore_ne _ _ _ _ other, net, _, rfl⟩
  · exact congrArg Core.night (coreAt_updCore_self _ _ _)
  · rw [hartAt, coreAt_updCore_self]
    exact get_mapHarts (coreAt s c) (fun _ h => h.daybreak mode w) k

/-- A hart of a core that step 3 wakes, or does not. -/
theorem wakeCores_waits (mode : Bool) (w : BitVec 64) {c : Nat} {l : List (Nat × Core)} (s : State) (out : c ∉ l.map (·.1)) :
    coreAt (l.foldl (fun s e => wakeCore e.1 mode w s) s) c = coreAt s c := by
  induction l generalizing s with
  | nil => rfl
  | cons e l ih =>
    obtain ⟨first, later⟩ := not_or.1 (fun mem => out (List.mem_cons.2 mem))
    obtain ⟨-, -, others, -⟩ := wakeCore_form e.1 mode w s
    exact (ih _ later).trans (others c first)

theorem wakeCores_woken (mode : Bool) (w : BitVec 64) {c : Nat} {l : List (Nat × Core)} (s : State) (nodup : (l.map (·.1)).Nodup)
    (mem : c ∈ l.map (·.1)) : (coreAt (l.foldl (fun s e => wakeCore e.1 mode w s) s) c).night = false ∧
      ∀ k, hartAt (l.foldl (fun s e => wakeCore e.1 mode w s) s) c k = (hartAt s c k).daybreak mode w := by
  induction l generalizing s with
  | nil => exact absurd mem List.not_mem_nil
  | cons e l ih =>
    obtain ⟨fresh, nodup⟩ := List.nodup_cons.1 nodup
    obtain ⟨night, harts, others, -⟩ := wakeCore_form e.1 mode w s
    rw [List.foldl_cons]
    obtain first | later := List.mem_cons.1 mem
    · subst first
      have after := wakeCores_waits mode w (wakeCore e.1 mode w s) fresh
      exact ⟨(congrArg Core.night after).trans night, fun k => (congrArg (fun q => q.harts.get k) after).trans (harts k)⟩
    · obtain ⟨night, hart⟩ := ih _ nodup later
      have same := others c fun same => fresh (Eq.subst (motive := (· ∈ l.map (·.1))) same later)
      exact ⟨night, fun k => (hart k).trans (congrArg (fun q : Core => (q.harts.get k).daybreak mode w) same)⟩

theorem wakeCores_form (mode : Bool) (w : BitVec 64) (l : List (Nat × Core)) (s : State) :
    ∃ net cores, l.foldl (fun s e => wakeCore e.1 mode w s) s = { s with cores := cores, net := net } := by
  induction l generalizing s with
  | nil => exact ⟨s.net, s.cores, rfl⟩
  | cons e l ih =>
    obtain ⟨-, -, -, net, cores, first⟩ := wakeCore_form e.1 mode w s
    obtain ⟨net', cores', rest⟩ := ih (wakeCore e.1 mode w s)
    exact ⟨net', cores', by rw [List.foldl_cons, rest, first]⟩

/-- A hart at step 3 (R434). -/
theorem daybreak_idle {h : Hart} (mode : Bool) (w : BitVec 64) (st : h.st = .idle) : h.daybreak mode w = h := if_pos st

/-- A hart that Daybreak starts again: a HALTED one stays so. -/
def Hart.dawned (x : Hart) (st : HState) : Hart := { x with st := (if st = .halted then .halted else .ready), back := .ready }

theorem daybreak_pending {h : Hart} (mode : Bool) (w : BitVec 64) (st : h.st ≠ .idle) (pend : h.dstep.getLsbD 1 = true) :
    let g := h.daybreak mode w
    g.pc = (h.xbase.setWidth 48 &&& ~~~1) ∧ g.dstep.getLsbD 1 = false ∧ g.xcause = h.xcause ∧ (h.st ≠ .halted → g.st = .ready) := by
  have form : h.daybreak mode w = Hart.dawned { ({ h with stepped := false } : Hart).vector with dstep := h.dstep &&& ~~~(2#64) } h.st :=
    (if_neg st).trans (if_pos pend)
  rw [form]
  have clear : (h.dstep &&& ~~~(2#64)).getLsbD 1 = false := by simp
  exact ⟨rfl, clear, rfl, fun runs => if_neg runs⟩

theorem daybreak_trap {h : Hart} (w : BitVec 64) (st : h.st ≠ .idle) (pend : h.dstep.getLsbD 1 = false) :
    let g := h.daybreak true w
    g.pc = (h.xbase.setWidth 48 &&& ~~~1) ∧ g.xcause = (causeCode .nightfall).zeroExtend 64 ∧ g.xval = w ∧
    g.xpc = (h.pc.zeroExtend 64 &&& ~~~1) ∧ (h.st ≠ .halted → g.st = .ready) := by
  have form : h.daybreak true w = Hart.dawned (({ h with stepped := false } : Hart).record .nightfall w false).vector h.st :=
    (if_neg st).trans ((if_neg (show ¬ h.dstep.getLsbD 1 = true by rw [pend]; decide)).trans (if_pos rfl))
  rw [form]
  exact ⟨rfl, rfl, rfl, rfl, fun runs => if_neg runs⟩

theorem daybreak_on {h : Hart} (w : BitVec 64) (st : h.st = .frozen) (pend : h.dstep.getLsbD 1 = false) :
    let g := h.daybreak false w
    g.pc = h.pc ∧ g.st = h.back ∧ ∀ r, g.gr r = h.gr r := by
  have form : h.daybreak false w = { h with stepped := false, st := h.back, back := .ready } :=
    (if_neg (by rw [st]; decide)).trans ((if_neg (show ¬ h.dstep.getLsbD 1 = true by rw [pend]; decide)).trans
      ((if_neg (by decide)).trans (if_pos st)))
  rw [form]
  exact ⟨rfl, rfl, fun _ => rfl⟩

/-! ### Step 3 on a device (R433, R435) -/

/-- NFCAUSE after step 3: WSEQ counts the nights. -/
def Night.nextCause (n : Night) : BitVec 64 := setBits n.nfcause ((n.nfcause.setWidth 32 + 1).zeroExtend 64) 31 0

/-- NFSTAT after step 3 of a Daybreak during which another wave came. -/
def Night.againStat (n : Night) : BitVec 64 := setBits (n.nfstat &&& ~~~(1#64 <<< 62)) (3#64 <<< 60) 61 60

/-- Nightfall's registers after step 3. -/
def Night.dawned (n : Night) : Night :=
  if n.again then { n with nfcause := n.nextCause, nfstat := n.againStat, again := false, coord := false, acks := [] }
  else { n with nfcause := n.nextCause, nfstat := n.againStat &&& ~~~((1#64 <<< 63) ||| (1#64 <<< 58) ||| 0xFFFF#64), coord := false, acks := [] }

/-- The cores that step 3 wakes. -/
def State.held (s : State) : List (Nat × Core) := s.cores.filter fun e => e.2.night || e.2.wave

/-- The cores of a job resume. -/
def State.wakeAll (s : State) (u : State) : State :=
  s.held.foldl (fun u e => wakeCore e.1 (s.night.nfctl.getLsbD 2) ((s.night.nfcause.setWidth 32 + 1).zeroExtend 64) u) u

theorem dayStep3_eq (s : State) : dayStep3 s = raiseInt 2 (if s.night.again then { s with night := s.night.dawned }
    else s.wakeAll { s with night := s.night.dawned }) := by
  unfold dayStep3 Night.dawned
  dsimp only
  cases s.night.again <;> rfl

theorem listed_tabGet {α : Type} (d : α) (x : Nat) : ∀ l : Tab α, tabGet d l x = d ∨ (x, tabGet d l x) ∈ l
  | [] => .inl rfl
  | (y, v) :: l => by
    unfold tabGet
    split
    · next same => exact .inr (same ▸ List.mem_cons_self)
    · exact (listed_tabGet d x l).imp_right (List.mem_cons_of_mem _)

theorem tabGet_of_listed {α : Type} (d : α) {x : Nat} {v : α} : ∀ {l : Tab α}, (l.Pairwise fun a b => a.1 ≠ b.1) → (x, v) ∈ l → tabGet d l x = v
  | (y, w) :: l, distinct, mem => by
    obtain ⟨fresh, distinct⟩ := List.pairwise_cons.1 distinct
    unfold tabGet
    obtain same | later := List.mem_cons.1 mem
    · obtain ⟨rfl, rfl⟩ := Prod.mk.inj same
      exact if_pos rfl
    · exact (if_neg (fresh _ later)).trans (tabGet_of_listed d distinct later)

theorem held_nodup {s : State} (distinct : s.cores.Pairwise fun a b => a.1 ≠ b.1) : (s.held.map (·.1)).Nodup :=
  List.pairwise_map.2 (distinct.sublist List.filter_sublist)

theorem mem_held {s : State} {c : Nat} (held : (coreAt s c).night = true) : c ∈ s.held.map (·.1) := by
  have listed : (c, coreAt s c) ∈ s.cores := (listed_tabGet Core.reset c s.cores).resolve_left fun reset =>
    absurd ((congrArg Core.night reset).symm.trans held) (by decide)
  exact List.mem_map.2 ⟨_, List.mem_filter.2 ⟨listed, by rw [held]; rfl⟩, rfl⟩

theorem not_mem_held {s : State} {c : Nat} (distinct : s.cores.Pairwise fun a b => a.1 ≠ b.1) (night : (coreAt s c).night = false)
    (wave : (coreAt s c).wave = false) : c ∉ s.held.map (·.1) := by
  intro mem
  obtain ⟨⟨x, q⟩, entry, rfl⟩ := List.mem_map.1 mem
  obtain ⟨listed, held⟩ := List.mem_filter.1 entry
  have same : coreAt s x = q := tabGet_of_listed Core.reset distinct listed
  rw [← same, night, wave] at held
  exact absurd held (by decide)

theorem dawned_cause (n : Night) : n.dawned.nfcause = n.nextCause := by
  unfold Night.dawned; split <;> rfl

theorem dawned_again {n : Night} (again : n.again = true) : n.dawned.nfstat.getLsbD 63 = n.nfstat.getLsbD 63 := by
  obtain ⟨-, night, -⟩ := dbstep_written (n.nfstat &&& ~~~(1#64 <<< 62)) 3
  have stat : n.dawned.nfstat = n.againStat := congrArg Night.nfstat (if_pos again)
  rw [stat]
  exact night.trans (by simp)

theorem dawned_over {n : Night} (last : n.again = false) : n.dawned.nfstat.getLsbD 63 = false ∧ n.dawned.nfstat.setWidth 16 = 0#16 := by
  have stat : n.dawned.nfstat = n.againStat &&& ~~~((1#64 <<< 63) ||| (1#64 <<< 58) ||| 0xFFFF#64) :=
    congrArg Night.nfstat (if_neg (by rw [last]; decide))
  have clear : (~~~((1#64 <<< 63) ||| (1#64 <<< 58) ||| 0xFFFF#64)).getLsbD 63 = false ∧
    (~~~((1#64 <<< 63) ||| (1#64 <<< 58) ||| 0xFFFF#64)).setWidth 16 = 0#16 := by decide
  rw [stat, BitVec.getLsbD_and, clear.1, Bool.and_false, BitVec.setWidth_and, clear.2, BitVec.and_zero]
  exact ⟨rfl, rfl⟩

/-! ### A step on the coordinator and on another device (R433) -/

/-- What O58 says of the slots and cores that step 3 starts again. -/
def DayBroken (s t : State) : Prop := ∀ c k,
  let h := hartAt s c k
  let h' := hartAt t c k
  ((coreAt s c).night = false → (coreAt s c).wave = false → coreAt t c = coreAt s c) ∧
  ((coreAt s c).night = true → (coreAt t c).night = false ∧
    (h.st = .idle → h' = h) ∧
    (h.st ≠ .idle → h.dstep.getLsbD 1 = true → h'.pc = (h.xbase.setWidth 48 &&& ~~~1) ∧ h'.dstep.getLsbD 1 = false ∧
      h'.xcause = h.xcause ∧ (h.st ≠ .halted → h'.st = .ready)) ∧
    (h.st ≠ .idle → h.dstep.getLsbD 1 = false → s.night.nfctl.getLsbD 2 = true → h'.pc = (h.xbase.setWidth 48 &&& ~~~1) ∧
      h'.xcause = (causeCode .nightfall).zeroExtend 64 ∧ h'.xval = (s.night.nfcause.setWidth 32 + 1).zeroExtend 64 ∧
      h'.xpc = (h.pc.zeroExtend 64 &&& ~~~1) ∧ (h.st ≠ .halted → h'.st = .ready)) ∧
    (h.st = .frozen → h.dstep.getLsbD 1 = false → s.night.nfctl.getLsbD 2 = false → h'.pc = h.pc ∧ h'.st = h.back ∧
      ∀ r, h'.gr r = h.gr r))

theorem dayBroken_wakeAll {s : State} (n : Night) (distinct : s.cores.Pairwise fun a b => a.1 ≠ b.1) :
    DayBroken s (s.wakeAll { s with night := n }) := by
  intro c k
  refine ⟨fun night wave => wakeCores_waits _ _ { s with night := n } (not_mem_held distinct night wave), fun night => ?_⟩
  obtain ⟨woken, harts⟩ := wakeCores_woken (s.night.nfctl.getLsbD 2) ((s.night.nfcause.setWidth 32 + 1).zeroExtend 64) { s with night := n }
    (held_nodup distinct) (mem_held night)
  have hart : hartAt (s.wakeAll { s with night := n }) c k = (hartAt s c k).daybreak _ _ := harts k
  refine ⟨woken, fun idle => hart.trans (daybreak_idle _ _ idle), ?_, ?_, ?_⟩
  · intro st pend
    rw [hart]
    exact daybreak_pending _ _ st pend
  · intro st pend mode
    rw [hart, mode]
    exact daybreak_trap _ st pend
  · intro st pend mode
    rw [hart, mode]
    exact daybreak_on _ st pend

theorem dayStep3_form (s : State) : ∃ boot net cores,
    dayStep3 s = { s with night := s.night.dawned, boot := boot, net := net, cores := cores } ∧ (s.night.again = true → cores = s.cores) := by
  rw [dayStep3_eq]
  split
  · next again =>
    rw [raiseInt_eq]
    exact ⟨_, s.net, s.cores, rfl, fun _ => rfl⟩
  · next last =>
    obtain ⟨net, cores, woken⟩ := wakeCores_form (s.night.nfctl.getLsbD 2) ((s.night.nfcause.setWidth 32 + 1).zeroExtend 64) s.held
      { s with night := s.night.dawned }
    rw [raiseInt_eq, State.wakeAll, woken]
    exact ⟨_, net, cores, rfl, fun again => absurd again last⟩

theorem dayBroken_dayStep3 {s : State} (last : s.night.again = false) (distinct : s.cores.Pairwise fun a b => a.1 ≠ b.1) :
    DayBroken s (dayStep3 s) := by
  rw [dayStep3_eq, if_neg (by rw [last]; decide), raiseInt_eq]
  exact dayBroken_wakeAll _ distinct

/-- NFSTAT while step k runs. -/
def Night.stepStat (n : Night) (k : BitVec 2) : BitVec 64 := setBits (n.nfstat ||| (1#64 <<< 62)) (k.zeroExtend 64 <<< 60) 61 60

theorem stepStat_written (n : Night) (k : BitVec 2) : (n.stepStat k).extractLsb' 60 2 = k ∧ (n.stepStat k).getLsbD 63 = n.nfstat.getLsbD 63 := by
  obtain ⟨step, night, -⟩ := dbstep_written (n.nfstat ||| (1#64 <<< 62)) k
  exact ⟨step, night.trans (by simp)⟩

theorem execStep_led {s : State} (port : Nat) {k : BitVec 2} (night : s.night.nfstat.getLsbD 63 = true) (step : k ≠ 0) :
    exec (.daybreakStep ⟨s.fabric.dev, port, nightJob s, k⟩) s = .next (leadStep k s) := by
  refine congrArg Host.Outcome.next ((if_neg ?_).trans (if_pos rfl))
  simpa [night] using step

theorem execStep_follows {s : State} {dev : BitVec 8} {port : Nat} {k : BitVec 2} (night : s.night.nfstat.getLsbD 63 = true) (step : k ≠ 0)
    (other : dev ≠ s.fabric.dev) (passes : portNight s port = true) :
    exec (.daybreakStep ⟨dev, port, nightJob s, k⟩) s = .next (followStep dev k s) := by
  refine congrArg Host.Outcome.next ((if_neg ?_).trans ((if_neg other).trans (if_pos passes)))
  simpa [night] using step

/-- The coordinator's next step, which every device has acknowledged the one before. -/
theorem leadStep_run {s : State} {k : BitVec 2} (coord : s.night.coord = true) (acked : s.night.acks = [])
    (next : k.toNat = stepsDone s.night + 1) (settled : 2 ≤ k.toNat → s.night.nfstat.getLsbD 58 = true) :
    leadStep k s = sendFlits ((dayDevices s).map fun x => (x.1, .step x.2 (nightJob s) k))
      (dayStep k { s with night := { s.night with acks := (dayDevices s).map (·.2) } }) := by
  refine if_neg ?_
  rw [coord, acked, next]
  simp only [bne_self_eq_false, List.isEmpty_nil, Bool.not_true, Bool.or_false, Bool.false_or, Bool.and_eq_true, decide_eq_true_eq,
    Bool.not_eq_true', not_and, Bool.not_eq_false]
  exact fun later => settled (next ▸ later)

theorem step_sent {s : State} {k : BitVec 2} (t : State) {x : Nat × BitVec 8} (mem : x ∈ dayDevices s) :
    (x.1, Flit.step x.2 (nightJob s) k) ∈ (sendFlits ((dayDevices s).map fun x => (x.1, .step x.2 (nightJob s) k)) t).fabric.sent := by
  rw [sendFlits_sent]
  exact List.mem_append_left _ (List.mem_reverse.2 (List.mem_map_of_mem mem))

/-- Another device's coordinator sends a step that this device takes. -/
theorem followStep_run {s : State} {dev : BitVec 8} {k : BitVec 2} (gives : s.night.coord = false ∨ dev.toNat ≤ s.fabric.dev.toNat)
    (next : k.toNat = stepsDone s.night + 1) (settled : 2 ≤ k.toNat → s.night.nfstat.getLsbD 58 = true) :
    followStep dev k s =
      let t := dayStep k { s with night := { s.night with coord := false, acks := [], leader := dev } }
      if k = 1 ∧ s.night.nfstat.getLsbD 58 = false then { t with night := { t.night with ackDue := true } } else sendAck dev k t := by
  have prevails : ¬ (s.night.coord && decide (s.fabric.dev.toNat < dev.toNat)) = true := by
    obtain no | low := gives
    · rw [no]; exact Bool.false_ne_true
    · rw [decide_eq_false (by omega), Bool.and_false]; decide
  have due : ¬ (stepsDone s.night + 1 < k.toNat || (decide (2 ≤ k.toNat) && !s.night.nfstat.getLsbD 58)) = true := by
    simp only [Bool.or_eq_true, decide_eq_true_eq, Bool.and_eq_true, Bool.not_eq_true', not_or, not_and, Bool.not_eq_false]
    exact ⟨by omega, settled⟩
  refine (if_neg prevails).trans ((if_neg due).trans ?_)
  dsimp only
  rw [if_pos next]
  simp only [Bool.and_eq_true, decide_eq_true_eq, Bool.not_eq_true']

/-! ## The obligation -/

/-- A flit that is not of this device's job passes through (R428). -/
theorem sendNight_kept (job key : BitVec 32) (cause : BitVec 8) (by' : Option Nat) (s : State) :
    { sendNight job key cause by' s with fabric := s.fabric } = s := rfl

theorem originFlit_events (s : State) (port : Nat) (j key : BitVec 32) (cause : BitVec 8) :
    (portNight s port = false → exec (.originFlit ⟨port, j, key⟩ cause) s = .next s) ∧
    (portNight s port = true → nightJob s ≠ 0 → j = nightJob s →
      ∃ t, exec (.originFlit ⟨port, j, key⟩ cause) s = .next t ∧ WaveStarted s t key cause (some port)) ∧
    (portNight s port = true → nightJob s = 0 ∨ j ≠ nightJob s → ∃ t, exec (.originFlit ⟨port, j, key⟩ cause) s = .next t ∧
      NightLeft s t j key cause (some port) ∧ { t with fabric := s.fabric } = s) := by
  refine ⟨fun shut => ?_, fun opened bound same => ⟨_, ?_, waveStarted _ _ _ _⟩, fun opened other => ⟨_, ?_, sendNight_left _ _ _ _ rfl, sendNight_kept _ _ _ _ _⟩⟩
  · exact congrArg Host.Outcome.next (if_pos (by simp [shut]))
  · exact congrArg Host.Outcome.next ((if_neg (by simp [opened])).trans (if_neg (not_or.2 ⟨bound, not_not.2 same⟩)))
  · exact congrArg Host.Outcome.next ((if_neg (by simp [opened])).trans (if_pos other))

/-- A write of NFCTL that neither starts a wave nor a Daybreak (R432). -/
theorem nfctlJob_events (s : State) (v : BitVec 64) (db : v.getLsbD 1 = false) (nfall : v.getLsbD 0 = false) :
    ∃ t, exec (.nfctlJob v) s = .next t ∧ t.night.nfctl = v &&& 0xFFFFFFFF00000004 ∧ t.night.nfcause = s.night.nfcause &&& 0xFFFFFFFF00000000 ∧
      t.night.nfstat = s.night.nfstat ∧ { t with night := s.night } = s := by
  have masks : (onlyBits v 63 32 ||| onlyBits v 2 2) = v &&& 0xFFFFFFFF00000004 := by
    have high : onlyBits v 63 32 = v &&& 0xFFFFFFFF00000000 := by simp [onlyBits, setBits]
    have mode : onlyBits v 2 2 = v &&& 4 := by simp [onlyBits, setBits]
    rw [high, mode, ← BitVec.and_or_distrib_left]
    rfl
  have cause : setBits s.night.nfcause 0 31 0 = s.night.nfcause &&& 0xFFFFFFFF00000000 := by
    simp [setBits]
  refine ⟨{ s with night := { s.night with nfctl := onlyBits v 63 32 ||| onlyBits v 2 2, nfcause := setBits s.night.nfcause 0 31 0 } }, ?_, masks, cause, rfl, rfl⟩
  show Host.Outcome.next (nfctlWrite v s) = _
  unfold nfctlWrite
  rw [db, nfall]
  rfl

/-- A core at its freeze point (R429). -/
theorem coreWave_events (s : State) (c : Nat) (hc : c < 2048) :
    let q := coreAt s c
    (q.wave = true ∨ q.night = true → q.boundary = true → ∃ t, exec (.wave c) s = .next t ∧ (coreAt t c).night = true ∧ (coreAt t c).wave = false ∧
      (coreAt t c).cycStop = some (q.cycStop.getD s.clock) ∧
      (∀ k, (hartAt t c k).pc = (hartAt s c k).pc ∧ (∀ r, (hartAt t c k).gr r = (hartAt s c k).gr r) ∧
        (((hartAt s c k).st = .ready ∨ (hartAt s c k).st = .parked ∨ (hartAt s c k).st = .stalled) → (hartAt s c k).dbgStep = false →
          (hartAt t c k).st = .frozen ∧ (hartAt t c k).back = (hartAt s c k).st)) ∧
      (∀ x, x ≠ c → coreAt t x = coreAt s x) ∧ t.kept = s.kept) ∧
    (q.wave = false → q.night = false → exec (.wave c) s = .next s) := by
  refine ⟨fun reached boundary => ⟨freezeCore c s, ?_, ?_, ?_, ?_, fun k => ?_, fun x other => ?_, rfl⟩, fun wave night => ?_⟩
  · exact (if_pos hc).trans (if_pos (by simp [reached, boundary]))
  · exact congrArg Core.night (coreAt_updCore_self _ _ _)
  · exact congrArg Core.wave (coreAt_updCore_self _ _ _)
  · exact congrArg Core.cycStop (coreAt_updCore_self _ _ _)
  · rw [hart_freezeCore]
    exact ⟨(freeze_kept _).1, (freeze_kept _).2, freeze_running⟩
  · exact coreAt_updCore_ne _ _ _ _ other
  · exact (if_pos hc).trans (if_neg (by simp [wave, night]))

/-- The engines stop, and the routers and ports hold (R429). -/
theorem unitWave_events (s : State) (night : s.night.nfstat.getLsbD 63 = true) (none : daySteps s = 0) :
    exec (.wave 2048) s = .next { s with night := { s.night with engines := true } } ∧
    exec (.wave 2049) s = .next { s with night := { s.night with ports := true }, cols := s.cols.map fun c => { c with hold := true } } := by
  constructor
  · refine congrArg Host.Outcome.next (if_pos ?_)
    rw [night, none]; decide
  · refine congrArg Host.Outcome.next (if_pos ?_)
    rw [night, none]; decide

/-- SETTLED reports the end, and an acknowledgement of step 1 that waited leaves (R429, R433). -/
theorem settledWave_events (s : State) (night : s.night.nfstat.getLsbD 63 = true) :
    ∃ t, exec (.wave 2050) s = .next t ∧ t.night.nfstat.getLsbD 58 = (s.night.nfstat.getLsbD 58 || allSettled s) ∧
      { t with night := s.night, fabric := s.fabric } = s ∧ (s.night.ackDue = false → t.fabric = s.fabric) ∧
      (allSettled s = true → s.night.ackDue = true → ∀ p, portFor s 0 s.night.leader.toNat = some p → portNight s p = true →
        (p, Flit.stepAck s.fabric.dev (nightJob s) 1) ∈ t.fabric.sent) := by
  obtain ⟨u, hu⟩ : ∃ u : State, u = { s with night := { s.night with nfstat := s.night.nfstat ||| (1#64 <<< 58), ackDue := false } } := ⟨_, rfl⟩
  have run : exec (.wave 2050) s = .next (if s.night.nfstat.getLsbD 63 && allSettled s then
      (if s.night.ackDue then sendAck s.night.leader 1 u else u) else s) := by
    subst hu
    rfl
  rw [night, Bool.true_and] at run
  cases settled : allSettled s
  · rw [settled] at run
    exact ⟨s, run, (Bool.or_false _).symm, rfl, fun _ => rfl, fun no => absurd no (by decide)⟩
  · rw [settled, if_pos rfl] at run
    have bit : (s.night.nfstat ||| (1#64 <<< 58)).getLsbD 58 = (s.night.nfstat.getLsbD 58 || true) := by simp
    cases due : s.night.ackDue
    · rw [due] at run
      subst hu
      exact ⟨_, run, bit, rfl, fun _ => rfl, fun _ no => absurd no (by decide)⟩
    · rw [due, if_pos rfl] at run
      obtain ⟨sent, form⟩ := sendAck_form s.night.leader 1 u
      refine ⟨_, run, ?_, ?_, fun no => absurd no (by decide), fun _ _ p port passes => ?_⟩
      · rw [form, hu]; exact bit
      · rw [form, hu]
      · subst hu
        exact sendAck_sent 1 (dev := s.night.leader) port passes

/-- DB starts a Daybreak (R432, R433). -/
theorem nfctlDb_events (s : State) (idle : s.night.nfstat.getLsbD 62 = false) : ∃ t, exec .nfctlDb s = .next t ∧
    (s.night.nfstat.getLsbD 63 = true → t.night.nfstat.getLsbD 62 = true ∧ t.night.nfstat.extractLsb' 60 2 = 0 ∧ t.night.coord = true ∧ t.night.acks = []) ∧
    (s.night.nfstat.getLsbD 63 = false → t = s) ∧ { t with night := s.night } = s := by
  refine ⟨startDaybreak s, rfl, fun night => ?_, fun awake => if_neg (by rw [awake]; exact Bool.false_ne_true), ?_⟩
  · obtain ⟨step, -, started⟩ := dbstep_written (s.night.nfstat ||| (1#64 <<< 62)) 0
    have form : startDaybreak s = _ := if_pos (by rw [night, idle]; rfl)
    rw [form]
    exact ⟨started.trans (by simp), step, rfl, rfl⟩
  · unfold startDaybreak
    dsimp only
    split <;> rfl

/-- What O58 says of a device after step 1, and after step 2. -/
def FirstStep (s t : State) : Prop := t.night.ports = false ∧ t.cols = s.cols.map (fun c => { c with hold := false }) ∧
  t.night.nfstat.extractLsb' 60 2 = 1 ∧ t.cores = s.cores ∧ t.mem = s.mem ∧ t.net = s.net

def SecondStep (s t : State) : Prop :=
  t.night.engines = false ∧ t.night.nfstat.extractLsb' 60 2 = 2 ∧ { t with night := s.night, fabric := s.fabric } = s

theorem dayStep_one (s : State) (n : Night) (stat : n.nfstat = s.night.nfstat) : FirstStep s (dayStep 1 { s with night := n }) :=
  ⟨rfl, rfl, (congrArg (fun w => BitVec.extractLsb' 60 2 (setBits (w ||| (1#64 <<< 62)) ((1 : BitVec 2).zeroExtend 64 <<< 60) 61 60)) stat).trans
    (stepStat_written s.night 1).1, rfl, rfl, rfl⟩

theorem dayStep_two (s : State) (n : Night) (stat : n.nfstat = s.night.nfstat) : SecondStep s (dayStep 2 { s with night := n }) :=
  ⟨rfl, (congrArg (fun w => BitVec.extractLsb' 60 2 (setBits (w ||| (1#64 <<< 62)) ((2 : BitVec 2).zeroExtend 64 <<< 60) 61 60)) stat).trans
    (stepStat_written s.night 2).1, rfl⟩

theorem dayStep_three (s : State) : dayStep 3 s = dayStep3 { s with night := { s.night with nfstat := s.night.stepStat 3 } } := rfl

/-- The coordinator's steps (R433). -/
theorem led_events (s : State) (port : Nat) (night : s.night.nfstat.getLsbD 63 = true) (coord : s.night.coord = true) (acked : s.night.acks = []) :
    let goes (k : BitVec 2) (t : State) : Prop := ∀ x ∈ dayDevices s, (x.1, Flit.step x.2 (nightJob s) k) ∈ t.fabric.sent
    (stepsDone s.night = 0 → ∃ t, exec (.daybreakStep ⟨s.fabric.dev, port, nightJob s, 1⟩) s = .next t ∧ FirstStep s t ∧ goes 1 t ∧
      t.night.acks = (dayDevices s).map (·.2)) ∧
    (stepsDone s.night = 1 → s.night.nfstat.getLsbD 58 = true → ∃ t, exec (.daybreakStep ⟨s.fabric.dev, port, nightJob s, 2⟩) s = .next t ∧
      SecondStep s t ∧ goes 2 t ∧ t.night.acks = (dayDevices s).map (·.2)) ∧
    (stepsDone s.night = 2 → s.night.nfstat.getLsbD 58 = true → ∃ t, exec (.daybreakStep ⟨s.fabric.dev, port, nightJob s, 3⟩) s = .next t ∧ goes 3 t ∧
      t.night.nfcause = s.night.nextCause ∧ t.mem = s.mem ∧
      (s.night.again = true → t.night.nfstat.getLsbD 63 = true ∧ t.cores = s.cores) ∧
      (s.night.again = false → t.night.nfstat.getLsbD 63 = false ∧ t.night.nfstat.setWidth 16 = 0#16) ∧
      (s.night.again = false → (s.cores.Pairwise fun a b => a.1 ≠ b.1) → DayBroken s t)) := by
  refine ⟨fun done => ?_, fun done settled => ?_, fun done settled => ?_⟩
  · refine ⟨_, (execStep_led port night (by decide)).trans (congrArg Host.Outcome.next (leadStep_run coord acked (by rw [done]; rfl)
      fun two => absurd two (by decide))), dayStep_one s _ rfl, fun x mem => step_sent _ mem, rfl⟩
  · refine ⟨_, (execStep_led port night (by decide)).trans (congrArg Host.Outcome.next (leadStep_run coord acked (by rw [done]; rfl)
      fun _ => settled)), ?_, fun x mem => step_sent _ mem, rfl⟩
    exact dayStep_two s _ rfl
  · refine ⟨_, (execStep_led port night (by decide)).trans (congrArg Host.Outcome.next (leadStep_run coord acked (by rw [done]; rfl)
      fun _ => settled)), fun x mem => step_sent _ mem, ?_⟩
    obtain ⟨u, hu⟩ : ∃ u : State, u = { s with night := { s.night with acks := (dayDevices s).map (·.2), nfstat := s.night.stepStat 3 } } := ⟨_, rfl⟩
    have three : dayStep 3 { s with night := { s.night with acks := (dayDevices s).map (·.2) } } = dayStep3 u := by rw [hu]; rfl
    obtain ⟨boot, net, cores, form, kept⟩ := dayStep3_form u
    have stat : u.night.nfstat.getLsbD 63 = true := by rw [hu]; exact (stepStat_written s.night 3).2.trans night
    have cause : u.night.nextCause = s.night.nextCause := by rw [hu]; rfl
    rw [three]
    have broken := @dayBroken_dayStep3 u
    rw [form] at broken ⊢
    refine ⟨(dawned_cause _).trans cause, by rw [hu]; rfl, fun again => ⟨?_, ?_⟩, fun last => dawned_over (by rw [hu]; exact last), fun last distinct => ?_⟩
    · exact (dawned_again (by rw [hu]; exact again)).trans stat
    · exact (kept (by rw [hu]; exact again)).trans (by rw [hu])
    · subst hu
      exact broken last distinct

/-- The steps of another device's coordinator (R433). -/
theorem followed_events (s : State) {dev : BitVec 8} {port : Nat} (night : s.night.nfstat.getLsbD 63 = true) (other : dev ≠ s.fabric.dev)
    (passes : portNight s port = true) :
    let acks (k : BitVec 2) (t : State) : Prop :=
      ∀ p, portFor s 0 dev.toNat = some p → portNight s p = true → (p, Flit.stepAck s.fabric.dev (nightJob s) k) ∈ t.fabric.sent
    (s.night.coord = true → s.fabric.dev.toNat < dev.toNat → ∀ k, exec (.daybreakStep ⟨dev, port, nightJob s, k⟩) s = .next s) ∧
    (s.night.coord = false ∨ dev.toNat ≤ s.fabric.dev.toNat →
      (stepsDone s.night = 0 → ∃ t, exec (.daybreakStep ⟨dev, port, nightJob s, 1⟩) s = .next t ∧ FirstStep s t ∧ t.night.coord = false ∧ t.night.leader = dev ∧
        (s.night.nfstat.getLsbD 58 = false → t.night.ackDue = true) ∧ (s.night.nfstat.getLsbD 58 = true → acks 1 t)) ∧
      (stepsDone s.night = 1 → s.night.nfstat.getLsbD 58 = true → ∃ t, exec (.daybreakStep ⟨dev, port, nightJob s, 2⟩) s = .next t ∧ SecondStep s t ∧
        t.night.coord = false ∧ acks 2 t)) := by
  refine ⟨fun coord lower k => ?_, fun gives => ⟨fun done => ?_, fun done settled => ?_⟩⟩
  · by_cases step : k = 0
    · exact congrArg Host.Outcome.next (if_pos (by simp [step]))
    · exact (execStep_follows night step other passes).trans (congrArg Host.Outcome.next (if_pos (by simp [coord, lower])))
  · have run := (execStep_follows night (by decide) other passes).trans (congrArg Host.Outcome.next (followStep_run (k := 1) gives
      (by rw [done]; rfl) fun two => absurd two (by decide)))
    dsimp only at run
    cases settled : s.night.nfstat.getLsbD 58
    · rw [settled, if_pos ⟨rfl, rfl⟩] at run
      exact ⟨_, run, dayStep_one s _ rfl, rfl, rfl, fun _ => rfl, fun yes => absurd yes (by decide)⟩
    · rw [settled, if_neg (by decide)] at run
      refine ⟨_, run, ?_⟩
      obtain ⟨u, hu⟩ : ∃ u, u = dayStep 1 { s with night := { s.night with coord := false, acks := [], leader := dev } } := ⟨_, rfl⟩
      obtain ⟨sent, form⟩ := sendAck_form dev 1 u
      have first : FirstStep s u := hu ▸ dayStep_one s _ rfl
      rw [← hu]
      refine ⟨?_, ?_, ?_, fun no => absurd no (by decide), fun _ p towards opened => ?_⟩
      · rw [form]; exact first
      · rw [form, hu]; rfl
      · rw [form, hu]; rfl
      · have route : (colAt u 0).route = (colAt s 0).route := by
          rw [hu]
          have got := congrArg Column.route (Vector.getElem_map (xs := s.cols) (fun c : Column => { c with hold := false }) (show 0 < 8 by decide))
          exact got
        have fabric : u.fabric = s.fabric := by rw [hu]; rfl
        have sent := sendAck_sent (s := u) 1 ((portFor_kept route fabric dev.toNat).trans towards) (by rw [portNight, portUp, fabric]; exact opened)
        rw [fabric, show nightJob u = nightJob s by rw [hu]; rfl] at sent
        exact sent
  · have run := (execStep_follows night (by decide) other passes).trans (congrArg Host.Outcome.next (followStep_run (k := 2) gives
      (by rw [done]; rfl) fun _ => settled))
    dsimp only at run
    rw [if_neg (by simp)] at run
    refine ⟨_, run, ?_⟩
    obtain ⟨u, hu⟩ : ∃ u, u = dayStep 2 { s with night := { s.night with coord := false, acks := [], leader := dev } } := ⟨_, rfl⟩
    obtain ⟨sent, form⟩ := sendAck_form dev 2 u
    have second : SecondStep s u := hu ▸ dayStep_two s _ rfl
    rw [← hu]
    refine ⟨?_, ?_, fun p towards opened => ?_⟩
    · rw [form]; exact second
    · rw [form, hu]; rfl
    · subst hu
      exact sendAck_sent (s := dayStep 2 { s with night := { s.night with coord := false, acks := [], leader := dev } }) 2 towards opened

/-- Settles O58: a wave and each of Daybreak's steps, by the device's part in it. -/
theorem nightfallEvents : Obligations.NightfallEvents := by
  unfold Obligations.NightfallEvents
  intro s n job night settled first count leaves started
  refine ⟨⟨_, rfl, waveStarted _ _ _ s⟩, originFlit_events s, nfctlJob_events s, coreWave_events s, unitWave_events s, settledWave_events s,
    nfctlDb_events s, fun frozen port => ⟨led_events s port frozen, fun dev other passes => followed_events s frozen other passes⟩, fun dev port => ?_⟩
  show Host.Outcome.next _ = _
  rfl

end Sys2Proof.Machine
end

section
/-!
PROOFS. The barrier instructions (R101, R357 to R361, R394): the checks of the object's address, and what each sends, reads or waits for;
obligation O38.
-/

namespace Sys2Proof.Machine

set_option Elab.async false

/-! ## A packet of the issuing hart -/

/-- An instruction that has sent a packet and touched no more than its core has left the rest as it was. -/
theorem nearRest_sendPkt {u t : State} {p : Pkt} (h : RestKept (sendPkt u p) t) : NearRest u t := by
  refine ⟨⟨h.others.slots, h.others.cores⟩, h.memory, ?_⟩
  have machine := h.machine
  generalize t.kept = m at machine
  subst machine
  rfl

/-- What O38 says of a packet sent. -/
def PktSent (g : Nat) (va : BitVec 64) (u t : State) (p : Pkt) : Prop :=
  t.net = u.net ++ [p] ∧ t.nextId = u.nextId + 1 ∧ fromMe u p = true ∧ p.gpa = g ∧ p.va = va ∧ p.loc = .omega 1 ∧ t.cols = u.cols ∧
    NearRest u t ∧ CoreStill u t

/-- A packet of the hart's is under way, and the hart and its core have moved no further than RestKept lets them. -/
theorem pktSent_of_restKept {u t : State} {p : Pkt} (mine : fromMe u p = true) (place : p.loc = .omega 1) (h : RestKept (sendPkt u p) t) :
    PktSent p.gpa p.va u t p :=
  ⟨(congrArg State.net h.machine :), (congrArg State.nextId h.machine :), mine, rfl, rfl, place, (congrArg State.cols h.machine :),
    nearRest_sendPkt h, accessed_of_kept h.core⟩

theorem fromMe_newPkt (u : State) (k : PKind) (g : Nat) (va : BitVec 64) (loc : PLoc) : fromMe u (newPkt u k g va loc) = true := by
  simp [fromMe, newPkt]

/-! ## The checks of R357 -/

/-- Nothing that a translation changes tells whether a column answers, or whether a device has a route. -/
theorem Touched.degradedAt {s t : State} (h : Touched s t) (a : Nat) : degradedAt t a = degradedAt s a := by
  have dev : t.fabric.dev = s.fabric.dev := (congrArg Fabric.dev h.fabric :)
  exact congrArg₂ (· && ·) (congrArg (gpaDev a == ·.toNat) dev) (congrArg (BitVec.getLsbD · 63) (congrArg Column.vbstat (h.cols _) :))

theorem Touched.routeUp {s t : State} (h : Touched s t) (c : Fin 8) (d : Nat) : routeUp t c d = routeUp s c d := by
  unfold Machine.routeUp portUp
  rw [show (colAt t c).route = (colAt s c).route from (congrArg Column.route (h.cols _) :),
    show t.fabric.tflstat = s.fabric.tflstat from (congrArg Fabric.tflstat h.fabric :)]

theorem isPrivReg_of_barrier {s : State} {g : Nat} (h : isBarrierGpa s g = true) : isPrivReg s g = false := by
  obtain ⟨-, object⟩ := Bool.and_eq_true_iff.1 h
  unfold isPrivReg regionOf
  split
  · next region =>
    split at region
    · next target =>
      rw [target] at object
      dsimp only at object
      rw [region] at object
      exact absurd object Bool.false_ne_true
    · rw [region] at object
      exact absurd object Bool.false_ne_true
  · rfl

section
variable {s : State} {rights : BitVec 5} {va : BitVec 64} {g : Nat} (object : barrierAt s rights va = some g)
include object

/-- What it takes for an object to be named (R357). -/
theorem barrierAt_spec : va.toNat % 64 = 0 ∧ (∃ cls x, (translate s s.curCore (isSys s) rights va).1 = .ok g cls x) ∧ isBarrierGpa s g = true ∧
    degradedAt s g = false ∧ ∀ d, targetOf s g = .device d → routeUp s (colOf s.curCore) d = true := by
  unfold barrierAt at object
  by_cases odd : va.toNat % 64 ≠ 0
  · rw [if_pos odd] at object
    exact absurd object (by simp)
  rw [if_neg odd] at object
  generalize found : (translate s s.curCore (isSys s) rights va).1 = r at object
  cases r with
  | ok g' cls x =>
    dsimp only at object
    by_cases all : (isBarrierGpa s g' && !degradedAt s g' && (match targetOf s g' with | .device d => routeUp s (colOf s.curCore) d | _ => true)) = true
    · obtain rfl : g' = g := Option.some.inj ((if_pos all).symm.trans object)
      simp only [Bool.and_eq_true, Bool.not_eq_true'] at all
      obtain ⟨⟨barrier, sound⟩, route⟩ := all
      exact ⟨not_not.1 odd, ⟨cls, x, rfl⟩, barrier, sound, fun d target => by rw [target] at route; exact route⟩
    · exact absurd ((if_neg all).symm.trans object) (by simp)
  | fault c => exact absurd object (by simp)
  | lock => exact absurd object (by simp)
  | header => exact absurd object (by simp)

theorem barAddr_object (settled : Settled s) : barAddr rights va s = .ok g (translated s rights va) := by
  obtain ⟨aligned, ⟨cls, x, found⟩, barrier, -, -⟩ := barrierAt_spec object
  have quiet : ¬ (isVecHart s && !(myCore s).quiet) = true := by
    rw [Bool.and_eq_true, Bool.not_eq_true']
    rintro ⟨vec, busy⟩
    exact absurd (settled vec) (by rw [busy]; decide)
  have reached : xlate rights va s = .ok (g, cls) (translated s rights va) := by
    have pair : translate s s.curCore (isSys s) rights va = (.ok g cls x, translated s rights va) := Prod.ext found rfl
    unfold xlate
    rw [pair]
    exact if_neg (by rw [isPrivReg_of_barrier barrier]; exact Bool.false_ne_true)
  have here : isBarrierGpa (translated s rights va) g = true := by
    unfold isBarrierGpa at barrier ⊢
    rw [targetOf_translated]
    exact barrier
  unfold barAddr
  rw [if_neg quiet, if_neg (not_not.2 aligned), reached]
  exact if_pos here

theorem barReach_object (x : BitVec 64) : barReach x g (translated s rights va) = .ok () (translated s rights va) := by
  obtain ⟨-, -, -, sound, route⟩ := barrierAt_spec object
  have touched := translated_touched s rights va
  unfold barReach
  rw [touched.degradedAt, sound, if_neg (by decide), targetOf_translated]
  split
  · next d target =>
    rw [touched.routeUp, translated_curCore, route d target]; rfl
  · rfl

end

theorem barAddr_odd {s : State} {rights : BitVec 5} {va : BitVec 64} (settled : Settled s) (odd : va.toNat % 64 ≠ 0) :
    barAddr rights va s = .trap .misalign va s := by
  have quiet : ¬ (isVecHart s && !(myCore s).quiet) = true := by
    rw [Bool.and_eq_true, Bool.not_eq_true']
    rintro ⟨vec, busy⟩
    exact absurd (settled vec) (by rw [busy]; decide)
  unfold barAddr
  rw [if_neg quiet, if_pos odd]

/-! ## The instructions (R358 to R361) -/

theorem barrier_odd {s : State} (f : BitVec 2) (b a d : BitVec 5) (settled : Settled s) (odd : (gr s a).toNat % 64 ≠ 0) :
    TakesTrap (.binit f b a) s .misalign (gr s a) ∧ TakesTrap (.barrive a) s .misalign (gr s a) ∧
      TakesTrap (.bquery b a d) s .misalign (gr s a) ∧ (s.curSlot ≠ 7 → TakesTrap (.bwait b a d) s .misalign (gr s a)) := by
  refine ⟨takesTrap_of ?_, takesTrap_of ?_, takesTrap_of ?_, fun slot => takesTrap_of ?_⟩
  · show finish _ = _
    rw [barAddr_odd settled odd]; rfl
  · show finish _ = _
    rw [barAddr_odd settled odd]; rfl
  · show finish _ = _
    rw [barAddr_odd settled odd]; rfl
  · show finish (orBlock _ s _) = _
    rw [orBlock, if_neg slot, barAddr_odd settled odd]; rfl

section
variable {s : State} {a : BitVec 5} {g : Nat}

theorem binit_parks (f : BitVec 2) (b : BitVec 5) (settled : Settled s) (object : barrierAt s needWr (gr s a) = some g) :
    let u := translated s needWr (gr s a)
    ∃ t p, exec (.binit f b a) s = .next t ∧ ParksFor u t (.reply u.nextId) ∧ PktSent g (gr s a) u t p ∧
      p.kind = .barInit (gr s b) (f.getLsbD 0) (f.getLsbD 1) := by
  intro u
  obtain ⟨p, hp⟩ : ∃ p, p = newPkt u (.barInit (gr s b) (f.getLsbD 0) (f.getLsbD 1)) g (gr s a) (.omega 1) := ⟨_, rfl⟩
  have mine : fromMe u p = true := hp ▸ fromMe_newPkt _ _ _ _ _
  have parks := parksFor_park (.reply u.nextId) (sendPkt u p)
  have sent := pktSent_of_restKept mine (by rw [hp]; rfl) (restKept_park (.reply u.nextId) (sendPkt u p))
  subst hp
  refine ⟨_, _, ?_, ⟨parks.parked, parks.wait, parks.pc, parks.regs, parks.kept, parks.count⟩, sent, rfl⟩
  show finish _ = _
  rw [barAddr_object object settled]
  simp only [Res.andThen, barReach_object object, gr_translated]
  rfl

/-- What a hart keeps as a write of its own leaves: all but the marks of its destination (R59, R198). -/
theorem leave_kept (h : Hart) (d : Dest) : (h.leave d).st = h.st ∧ (h.leave d).pc = h.pc ∧ (h.leave d).g = h.g ∧ (h.leave d).sent = h.sent := by
  cases d with
  | fabric v =>
    unfold Hart.leave
    dsimp only
    split
    · exact ⟨rfl, rfl, rfl, rfl⟩
    · split <;> exact ⟨rfl, rfl, rfl, rfl⟩
  | slice _ => exact ⟨rfl, rfl, rfl, rfl⟩
  | column _ => exact ⟨rfl, rfl, rfl, rfl⟩
  | host => exact ⟨rfl, rfl, rfl, rfl⟩
  | bank => exact ⟨rfl, rfl, rfl, rfl⟩

theorem fenced_translated {s : State} (fenced : Fenced s) (r : BitVec 5) (va : BitVec 64) : Fenced (translated s r va) := fun vec =>
  (myCore_translated Core.fenced (fun _ => rfl) s r va).trans (fenced ((isVecHart_translated s r va).symm.trans vec))

theorem covered_spec {u : State} {k : BitVec 3} (hk : k ≠ 0) (out : covered u k = true) : nothingOut u u.curCore u.curSlot = true ∧
    unroutable u (me u) = none ∧ (me u).unsent = none ∧ (me u).errAck = none := by
  have clear : k = 0 ∨ nothingOut u u.curCore u.curSlot = true ∧ unroutable u (me u) = none ∧ (me u).unsent = none ∧ (me u).errAck = none := by
    simpa [covered, and_assoc] using out
  exact clear.resolve_left hk

/-- The arrival's packet leaves with its hart's marks (R359). -/
theorem barrive_sends (settled : Settled s) (object : barrierAt s needWr (gr s a) = some g) (fenced : Fenced s)
    (out : covered (translated s needWr (gr s a)) 6 = true) :
    let u := translated s needWr (gr s a)
    ∃ t p, exec (.barrive a) s = .next t ∧ GoesOn u t ((me s).pc + 4) ∧ (∀ r, gr t r = gr s r) ∧ PktSent g (gr s a) u t p ∧
      p.kind = .barArrive ∧ (me t).sent = (me u).sent := by
  intro u
  obtain ⟨nothing, route, unsent, err⟩ := covered_spec (by decide) out
  obtain ⟨p, hp⟩ : ∃ p, p = newPkt u .barArrive g (gr s a) (.omega 1) := ⟨_, rfl⟩
  have mine : fromMe u p = true := hp ▸ fromMe_newPkt _ _ _ _ _
  obtain ⟨dest, hd⟩ : ∃ dest, dest = destOf u u.curCore g := ⟨_, rfl⟩
  have sent (f : Hart → Hart) := pktSent_of_restKept mine (by rw [hp]; rfl) (restKept_retireAt_updMe ((me s).pc + 4) (sendPkt u p) f)
  have job : newPkt (updMe u Hart.covered) .barArrive g (gr s a) (.omega 1) = p := by
    have same : (myCore (updMe u Hart.covered)).job = (myCore u).job := by rw [myCore_updMe]; rfl
    rw [hp, newPkt, newPkt, same]; rfl
  have run : exec (.barrive a) s = .next (retireAt ((me s).pc + 4) (updMe (sendPkt u p) fun h => (Hart.covered h).leave dest)) := by
    show finish _ = _
    rw [barAddr_object object settled]
    simp only [Res.andThen, barReach_object object]
    rw [withRelease_covered (fenced_translated fenced _ _) (by decide) nothing route unsent err]
    have pc (dest : Dest) : (me (updMe (sendPkt (updMe u Hart.covered) p) fun h => h.leave dest)).pc = (me s).pc := by
      rw [me_updMe, (leave_kept _ _).2.1]
      show (me (updMe u Hart.covered)).pc = _
      rw [me_updMe]
      show (me u).pc = _
      exact congrArg Hart.pc (me_translated s needWr (gr s a))
    have address : gr (updMe u Hart.covered) a = gr s a := by
      rw [gr, me_updMe]
      exact gr_translated s needWr (gr s a) a
    rw [address, job, retire, pc]
    have merged : updMe (sendPkt (updMe u Hart.covered) p) (fun h => h.leave dest) = updMe (sendPkt u p) fun h => (Hart.covered h).leave dest :=
      updMe_updMe (sendPkt u p) Hart.covered fun h => h.leave dest
    rw [← merged, hd]
    rfl
  obtain ⟨st, pc, g', kept⟩ := leave_kept (me u).covered dest
  have hart : me (retireAt ((me s).pc + 4) (updMe (sendPkt u p) fun h => (Hart.covered h).leave dest)) = ((me u).covered.leave dest).retired ((me s).pc + 4) := by
    rw [me_retireAt, me_updMe]; rfl
  have on : GoesOn (sendPkt u p) _ ((me s).pc + 4) := goesOn_retireAt_updMe ((me s).pc + 4) (sendPkt u p) (fun h => (Hart.covered h).leave dest) st
  subst hp
  refine ⟨_, _, run, ⟨on.pc, on.ready, on.count⟩, fun r => ?_, sent _, rfl, ?_⟩
  · rw [gr, hart, ← gr_translated s needWr (gr s a)]
    show (if r = 0 then 0 else ((me u).covered.leave dest).g.get r.toFin) = _
    rw [g']; rfl
  · rw [hart]; exact kept

/-! ### `bwait` and `bquery` (R360, R361) -/

theorem fenced_settled {s : State} (fenced : Fenced s) : Settled s := settled_of_fencedCore fenced

theorem myCore_acquire (v : State) : myCore (acquire v) = { myCore v with l0d := [] } := coreAt_updCore_self _ _ _

theorem sameHart_acquire (v : State) : SameHart v (acquire v) := by
  exact ⟨rfl, rfl, (congrArg (fun q : Core => q.harts.get v.curSlot) (myCore_acquire v) :), (congrArg Core.instret (myCore_acquire v) :)⟩

/-- What an instruction leaves that only retires after an acquire. -/
theorem restKept_acquired {v t : State} (h : RestKept (acquire v) t) : (myCore t).l0d = [] ∧ CoreStill v t ∧ NearRest v t ∧ t.cols = v.cols ∧ t.net = v.net := by
  have core : (myCore t).kept = { (myCore v).kept with l0d := [] } := h.core.trans (congrArg Core.kept (myCore_acquire v))
  refine ⟨(congrArg Core.l0d core :), ?_, ⟨⟨fun k hk => ?_, fun c hc => ?_⟩, h.memory, ?_⟩, (congrArg State.cols h.machine :), (congrArg State.net h.machine :)⟩
  · unfold CoreStill Core.accessed
    rw [core]
  · exact (h.others.slots k hk).trans (congrArg (fun q : Core => q.harts.get k) (myCore_acquire v) :)
  · exact (h.others.cores c hc).trans (coreAt_updCore_ne _ _ _ _ hc)
  · rw [h.machine]; rfl

section
variable {b d : BitVec 5} (object : barrierAt s needRd (gr s a) = some g)
include object

/-- A wait that may go on, outside the handler slot (R360). -/
theorem exec_bwait (slot : s.curSlot ≠ 7) (fenced : Fenced s)
    (may : mayReach (translated s needRd (gr s a)) (colOf s.curCore) g 1 = true) :
    let u := translated s needRd (gr s a)
    let v := if (me s).wait = .barrier g d then u else reach (colOf s.curCore) g 1 u
    exec (.bwait b a d) s = finish (if (barAt u g).status.getLsbD 0 || (barAt u g).gen != (gr s b).setWidth 32 then
      .ok () (done4 d (barAt u g).result (acquire v)) else .hold (park (.barrier g d) v)) := by
  intro u v
  have back : v = if (me u).wait = .barrier g d then u else reach (colOf u.curCore) g 1 u := by
    rw [show me u = me s from me_translated s needRd (gr s a), show u.curCore = s.curCore from translated_curCore s needRd (gr s a)]
  have word : gr v b = gr s b := by
    have same : SameHart s v := by
      show SameHart s (if _ then _ else _)
      split
      · exact sameHart_translated _ _ _
      · exact (sameHart_translated _ _ _).trans (sameHart_reach _ _ _ _)
    rw [gr, same.hart]; rfl
  show finish (orBlock _ s _) = _
  rw [orBlock, if_neg slot, barAddr_object object (fenced_settled fenced)]
  simp only [Res.andThen, barReach_object object]
  rw [settled_of_fenced (fenced_translated fenced _ _)]
  simp only [translated_curCore]
  rw [may]
  simp only [Bool.not_true, Bool.false_eq_true, if_false, me_translated]
  show finish (if (barAt u g).status.getLsbD 0 || (barAt u g).gen != (gr v b).setWidth 32 then _ else _) = _
  rw [word]

theorem bwait_events (slot : s.curSlot ≠ 7) (fenced : Fenced s)
    (may : mayReach (translated s needRd (gr s a)) (colOf s.curCore) g 1 = true) :
    let u := translated s needRd (gr s a)
    let o := barAt u g
    let past : Bool := o.status.getLsbD 0 || o.gen != (gr s b).setWidth 32
    let v := if (me s).wait = .barrier g d then u else reach (colOf s.curCore) g 1 u
    let still (t : State) : Prop := CoreStill v t ∧ NearRest v t ∧ t.cols = v.cols ∧ t.net = v.net
    (past = true → ∃ t, exec (.bwait b a d) s = .next t ∧ GoesOn v t ((me s).pc + 4) ∧ Wrote v t d o.result ∧ (me t).kept = (me v).kept ∧
      (myCore t).l0d = [] ∧ still t) ∧
    (past = false → ∃ t, exec (.bwait b a d) s = .next t ∧ ParksFor v t (.barrier g d) ∧ still t) := by
  intro u o past v still
  have run := exec_bwait (b := b) (d := d) object slot fenced may
  dsimp only at run
  have pc : (me v).pc = (me s).pc := by
    have same : SameHart s v := by
      show SameHart s (if _ then _ else _)
      split
      · exact sameHart_translated _ _ _
      · exact (sameHart_translated _ _ _).trans (sameHart_reach _ _ _ _)
    rw [same.hart]
  refine ⟨fun yes => ⟨_, run.trans (congrArg finish (if_pos yes)), ?_⟩, fun no => ⟨_, run.trans (congrArg finish (if_neg fun yes => Bool.false_ne_true (no.symm.trans yes))), ?_⟩⟩
  · obtain ⟨on, wrote, hart, rest⟩ := retire_setG (sameHart_acquire v) 4 d o.result
    obtain ⟨l0d, still⟩ := restKept_acquired rest
    exact ⟨pc ▸ on, wrote, hart, l0d, still⟩
  · have rest := restKept_park (.barrier g d) v
    exact ⟨parksFor_park _ _, accessed_of_kept rest.core, nearRest_of_restKept rest, (congrArg State.cols rest.machine :), (congrArg State.net rest.machine :)⟩

/-- The query's packet leaves and its hart waits for the word (R361). -/
theorem bquery_sends (settled : Settled s) (split : s.split = true) :
    let u := translated s needRd (gr s a)
    ∃ t p, exec (.bquery b a d) s = .next t ∧ PktSent g (gr s a) u t p ∧ p.kind = .barQuery d ((gr s b).toNat % 8) ∧ p.wants = true ∧
      (me t).wait = .reply u.nextId ∧ (me t).st = (me s).st ∧ (me t).pc = (me s).pc ∧ (∀ r, gr t r = gr s r) ∧
      (myCore t).instret = (myCore s).instret := by
  intro u
  obtain ⟨p, hp⟩ : ∃ p, p = { newPkt u (.barQuery d ((gr s b).toNat % 8)) g (gr s a) (.omega 1) with wants := true } := ⟨_, rfl⟩
  have mine : fromMe u p = true := hp ▸ fromMe_newPkt u (.barQuery d ((gr s b).toNat % 8)) g (gr s a) (.omega 1)
  have sent (f : Hart → Hart) := pktSent_of_restKept mine (by rw [hp]; rfl) (restKept_updMe (sendPkt u p) f)
  have hart (f : Hart → Hart) : me (updMe (sendPkt u p) f) = f (me s) := by
    rw [me_updMe]; exact congrArg f (me_translated s needRd (gr s a))
  have count (f : Hart → Hart) : (myCore (updMe (sendPkt u p) f)).instret = (myCore s).instret := by
    rw [myCore_updMe]; exact myCore_translated Core.instret (fun _ => rfl) s needRd (gr s a)
  subst hp
  refine ⟨_, _, ?_, sent (fun h => { h with wait := .reply u.nextId, since := u.clock }), rfl, rfl, ?_, ?_, ?_, fun r => ?_, count _⟩
  · show finish _ = _
    rw [barAddr_object object settled]
    simp only [Res.andThen, barReach_object object, translated_split, split, if_true, gr_translated]
    rfl
  · rw [hart]
  · rw [hart]
  · rw [hart]
  · rw [gr, hart]; rfl

/-- Where requests do not travel the word is read at once (R361). -/
theorem bquery_reads (settled : Settled s) (split : s.split = false) (none : barPending (translated s needRd (gr s a)) g = false) :
    let u := translated s needRd (gr s a)
    ∃ t, exec (.bquery b a d) s = .next t ∧ GoesOn u t ((me s).pc + 4) ∧ Wrote u t d (barWord (barAt u g) ((gr s b).toNat % 8)) ∧
      (me t).kept = (me u).kept ∧ CoreStill u t ∧ NearRest u t ∧ t.cols = u.cols ∧ t.net = u.net := by
  intro u
  obtain ⟨on, wrote, hart, rest⟩ := retire_setG (⟨rfl, rfl, rfl, rfl⟩ : SameHart u u) 4 d (barWord (barAt u g) ((gr s b).toNat % 8))
  have pc : (me u).pc = (me s).pc := congrArg Hart.pc (me_translated s needRd (gr s a))
  refine ⟨_, ?_, pc ▸ on, wrote, hart, accessed_of_kept rest.core, nearRest_of_restKept rest, (congrArg State.cols rest.machine :),
    (congrArg State.net rest.machine :)⟩
  show finish _ = _
  rw [barAddr_object object settled]
  simp only [Res.andThen, barReach_object object, translated_split, split, none, Bool.false_eq_true, if_false, gr_translated]
  rfl

end

end

/-- The word of an instruction whose function number stands in two fields. -/
theorem ofNat_encodeWord_parts {i : Instr} {maj lo hi : Nat} {b a d : BitVec 5} (hm : maj < 64) (hlo : lo < 4) (hhi : hi < 256)
    (h : encodeFields i = [(1, 1), (6, maj), (5, d.toNat), (5, a.toNat), (5, b.toNat), (2, lo), (8, hi)]) :
    BitVec.ofNat 64 (encodeWord i) = rWord maj (lo + 4 * hi) b a d := by
  refine congrArg (BitVec.ofNat 64) ?_
  have hd := d.isLt; have ha := a.isLt; have hb := b.isLt
  rw [encodeWord, h]
  simp only [pack]
  omega

/-- Settles O38: the checks of the address, then what each instruction sends or waits for. -/
theorem barrierInstructions : Obligations.BarrierInstructions := by
  unfold Obligations.BarrierInstructions
  intro s f b a d g settled va p4 sent still
  refine ⟨barrier_odd f b a d settled, fun slot => takesTrap_word
    (ofNat_encodeWord_parts (maj := 0x32) (lo := 0) (hi := 2) (b := b) (a := a) (d := d) (by decide) (by decide) (by decide) rfl) ?_, fun object => ⟨binit_parks f b settled object, barrive_sends settled object⟩,
    fun object => ⟨fun slot fenced may => bwait_events object slot fenced may, bquery_sends object settled, bquery_reads object settled⟩⟩
  show finish (orBlock _ s _) = _
  rw [orBlock, if_pos slot]

end Sys2Proof.Machine
end

section
/-!
PROOFS. The drop request of `rinv` (R39, R274): which cores it names; obligation O40.
-/

namespace Sys2Proof.Machine

set_option Elab.async false

/-- A core whose slot 0 has 8 in g1. -/
def eightCore : Core := Core.reset.setHart 0 (Hart.reset.setG 1 8)

/-- A machine whose table of cores lists core 1 before core 0, the issuing one. -/
def unsorted : State := { State.reset with cores := [(1, Core.reset), (0, eightCore)] }

theorem fenced_unsorted : Fenced unsorted := fun vec => absurd vec (by decide)

theorem covered_unsorted : covered unsorted 5 = true := by decide

/-- The drop request of `rinv` names the cores listed once its release is done (R39, R274). -/
theorem rinv_sends {s : State} {k : BitVec 3} {b a : BitVec 5} (fenced : Fenced s) (hk : k ≠ 0) (out : covered s k = true)
    (some : (gr s b).toNat ≠ 0) (wide : ¬ k.toNat ≤ 1) :
    let u := updMe s Hart.covered
    let p := newPkt u (.drop (gr s a).toNat (min ((gr s a).toNat + (gr s b).toNat - 1) (2 ^ 64 - 1)) k (scopeCores u u.curCore k.toNat)
      (scopeCols u.curCore k.toNat)) 0 (gr s a) .mesh
    exec (.rinv k b a) s = .next (park (.inval p.id) (sendPkt u p)) := by
  intro u p
  obtain ⟨nothing, route, unsent, err⟩ := covered_spec hk out
  have reg (r : BitVec 5) : gr (updMe s Hart.covered) r = gr s r := by
    rw [gr, me_updMe]; rfl
  show finish _ = _
  rw [withRelease_covered fenced hk nothing route unsent err]
  simp only [reg]
  rw [if_neg some, decide_eq_false wide, Bool.false_and, if_neg Bool.false_ne_true]
  rfl

/-- Refutes O40: where the table of cores does not list the issuing core in its place, the release of `rinv` lists it there once more, and the
drop request names the cores that the table lists then, not those it listed before. -/
theorem not_rangeDropsAndProbes : ¬ Obligations.RangeDropsAndProbes := by
  unfold Obligations.RangeDropsAndProbes
  intro h
  have some : (gr unsorted 1).toNat ≠ 0 := by decide
  obtain ⟨t, p, run, -, -, -, -, -, -, net, -, kind⟩ := (h unsorted 5 1 0 0).2.1 fenced_unsorted covered_unsorted some rfl
  rw [rinv_sends fenced_unsorted (by decide) covered_unsorted some (by decide)] at run
  have left : [newPkt (updMe unsorted Hart.covered) (.drop _ _ 5 (scopeCores (updMe unsorted Hart.covered) 0 5) _) 0 _ .mesh] = [p] :=
    (congrArg State.net (Host.Outcome.next.inj run)).trans net
  rw [← List.singleton_inj.1 left] at kind
  have cores : scopeCores (updMe unsorted Hart.covered) 0 5 = scopeCores unsorted 0 5 := by
    injection kind
  exact absurd cores (by decide)

end Sys2Proof.Machine
end

section
/-!
PROOFS. Copy and collective requests (R84, R86, R94, R95, R107, R109, R350, R351, R355, R356): what is checked at issue, and what is queued;
obligation O37.
-/

namespace Sys2Proof.Machine

set_option Elab.async false

/-! ## Tokens in ERROR (R95, R351) -/

theorem tokenIn_first {q : Core} {mask : BitVec 8} {st : BitVec 2} {n : Fin 8} (named : mask.getLsbD n.val = true) (holds : q.tok.get n = st)
    (first : ∀ j : Fin 8, j < n → mask.getLsbD j.val = true → q.tok.get j ≠ st) : tokenIn q mask st = some n.val := by
  have elem (j : Fin 8) : q.tok.toList.getD j.val 0 = q.tok.get j := by
    rw [List.getD_eq_getElem _ _ (by simp)]; rfl
  refine List.find?_range_eq_some.2 ⟨?_, List.mem_range.2 n.isLt, fun j lt => ?_⟩
  · rw [named, elem, holds]; simp
  · rw [elem ⟨j, by omega⟩, Bool.not_eq_true', Bool.and_eq_false_imp]
    exact fun named => beq_eq_false_iff_ne.2 (first ⟨j, by omega⟩ lt named)

theorem tokenIn_clear {q : Core} {mask : BitVec 8} {st : BitVec 2} (clear : ∀ j : Fin 8, mask.getLsbD j.val = true → q.tok.get j ≠ st) :
    tokenIn q mask st = none := by
  have elem (j : Fin 8) : q.tok.toList.getD j.val 0 = q.tok.get j := by
    rw [List.getD_eq_getElem _ _ (by simp)]; rfl
  refine List.find?_eq_none.2 fun j mem => ?_
  have lt := List.mem_range.1 mem
  rw [elem ⟨j, lt⟩, Bool.and_eq_true, beq_iff_eq, not_and]
  exact clear ⟨j, lt⟩

/-! ## A request joins its queue (R86, R94, R107) -/

/-- The element a request begins with, and the queue it joins. -/
def startOf (s : State) (r : CReq) : Nat :=
  if (vget (myCore s).cstart r.tok.val).toNat % 2 ^ 48 ≠ 0 ∧ vget (myCore s).cpc r.tok.val = r.pc.zeroExtend 64 then
    (vget (myCore s).cstart r.tok.val).toNat % 2 ^ 48 else 0

def Core.issues (n : Nat) (resumed : Bool) (q : Core) : Core :=
  { q with cstart := if resumed then q.cstart else vput q.cstart n 0, tok := vput q.tok n 1 }

/-- The machine once a request is queued. -/
def issued (r : CReq) (queue : Column → List CReq) (put : List CReq → Column → Column) (s : State) : State :=
  { updCol (updMyCore s (Core.issues r.tok.val (decide (startOf s r ≠ 0)))) (colOf s.curCore)
      (put (queue (colAt s (colOf s.curCore)) ++ [{ r with next := startOf s r }])) with nextId := s.nextId + 1 }

section
variable {s : State} {r : CReq} {ok : Bool} {queue : Column → List CReq} {put : List CReq → Column → Column}

theorem issueReq_error {n : Nat} (found : tokenIn (myCore s) (reqTokens r) 2 = some n) : issueReq r ok queue put s = copyErr n s := by
  unfold issueReq; rw [found]

theorem issueReq_refused (clear : tokenIn (myCore s) (reqTokens r) 2 = none) (bad : ok = false) :
    issueReq r ok queue put s = .trap .copyErr 0 s := by
  unfold issueReq; rw [clear, bad]; rfl

theorem issueReq_queued (clear : tokenIn (myCore s) (reqTokens r) 2 = none) (good : ok = true)
    (room : waiting (queue (colAt s (colOf s.curCore))) < 32) : issueReq r ok queue put s = .ok () (retire 4 (issued r queue put s)) := by
  have resumed : ((vget (myCore s).cstart r.tok.val).toNat % 2 ^ 48 != 0 && vget (myCore s).cpc r.tok.val == r.pc.zeroExtend 64) =
      decide (startOf s r ≠ 0) := by
    unfold startOf
    split
    · next both => rw [decide_eq_true both.1]; simpa using both
    · next no => rw [decide_eq_false (by simp)]; simpa using no
  have start : (if ((vget (myCore s).cstart r.tok.val).toNat % 2 ^ 48 != 0 && vget (myCore s).cpc r.tok.val == r.pc.zeroExtend 64) = true then
      (vget (myCore s).cstart r.tok.val).toNat % 2 ^ 48 else 0) = startOf s r := by
    unfold startOf
    simp only [Bool.and_eq_true, bne_iff_ne, beq_iff_eq]
  unfold issueReq
  rw [clear, good]
  simp only [Bool.not_true, Bool.false_eq_true, if_false, if_neg (Nat.not_le.2 room)]
  rw [start, resumed]
  rfl

theorem sameHart_issued : SameHart s (issued r queue put s) :=
  ⟨rfl, rfl, me_updMyCore_of_harts s _ rfl, (congrArg Core.instret (myCore_updMyCore s (Core.issues r.tok.val (decide (startOf s r ≠ 0)))) :)⟩

/-- What a request leaves as it is queued. -/
theorem queued_issued {k : BitVec 3} (new : r.begun = false ∧ r.done = false) (mine : r.core = s.curCore.val ∧ r.job = (myCore s).job ∧
    r.dir = (myCore s).rdbase ∧ r.user = !isSys s ∧ r.tok = k.toFin ∧ r.pc = (me s).pc)
    (lens : ∀ l c, queue (put l c) = l) :
    let t := retire 4 (issued r queue put s)
    Queued s t k (queue (colAt s (colOf s.curCore))) (queue (colAt t (colOf s.curCore))) { r with next := startOf s r } ∧
      colAt t (colOf s.curCore) = put (queue (colAt s (colOf s.curCore)) ++ [{ r with next := startOf s r }]) (colAt s (colOf s.curCore)) ∧
      (∀ c, c ≠ colOf s.curCore → colAt t c = colAt s c) ∧ NearRest s t ∧ t.net = s.net := by
  intro t
  obtain ⟨begun, done⟩ := new
  obtain ⟨core, job, dir, user, tok, pc⟩ := mine
  obtain ⟨on, regs, hart, rest⟩ := retire_plain (sameHart_issued (s := s) (r := r) (queue := queue) (put := put)) 4
  have tokNat : r.tok.val = k.toNat := by rw [tok]; rfl
  have cols (c : Fin 8) : colAt t c = colAt (issued r queue put s) c :=
    (congrArg (fun w : State => w.cols.get c) rest.machine :)
  have col : colAt t (colOf s.curCore) = put (queue (colAt s (colOf s.curCore)) ++ [{ r with next := startOf s r }]) (colAt s (colOf s.curCore)) :=
    (cols _).trans (colAt_updCol_self _ _ _)
  have kept : (myCore t).kept = ((myCore s).issues r.tok.val (decide (startOf s r ≠ 0))).kept :=
    rest.core.trans (congrArg Core.kept (myCore_updMyCore s _))
  refine ⟨⟨on, regs, hart, ?_, ⟨begun, done, core, job, dir, user, tok, pc⟩, ?_, fun n => ?_, fun n => ?_, ?_⟩, col, fun c hc => ?_, ⟨⟨fun j hj => ?_, fun c hc => ?_⟩, rest.memory, ?_⟩, (congrArg State.net rest.machine :)⟩
  · rw [col, lens]
  · show startOf s r = _
    rw [startOf, tokNat, pc]
  · have tokens : (myCore t).tok = vput (myCore s).tok r.tok.val 1 := (congrArg Core.tok kept :)
    rw [tokens, get_vput _ r.tok.isLt]
    simp only [Fin.val_inj, tok]
  · have starts : (myCore t).cstart = if decide (startOf s r ≠ 0) then (myCore s).cstart else vput (myCore s).cstart r.tok.val 0 :=
      (congrArg Core.cstart kept :)
    rw [starts]
    by_cases zero : startOf s r = 0
    · rw [if_neg (by simp [zero]), get_vput _ r.tok.isLt]
      simp only [Fin.val_inj, tok, zero, and_true]
    · rw [if_pos (by simp [zero]), if_neg fun both => zero both.2]
  · rw [kept]; rfl
  · exact (cols c).trans (colAt_updCol_ne _ _ _ _ hc)
  · exact (rest.others.slots j hj).trans ((othersKept_updMyCore s (Core.issues r.tok.val (decide (startOf s r ≠ 0))) rfl).slots j hj)
  · exact (rest.others.cores c hc).trans ((othersKept_updMyCore s (Core.issues r.tok.val (decide (startOf s r ≠ 0))) rfl).cores c hc)
  · rw [rest.machine]; rfl

end

/-! ## What a token in ERROR does (R95, R106) -/

/-- The trap of a token in ERROR, taken in a machine that an access may have touched. -/
theorem copyErr_taken {i : Instr} {s u : State} {n : Fin 8} (h : exec i s = finish (copyErr n.val u)) (settled : Settled u)
    (nf : freezing u u.curCore .copyErr = false) :
    ∃ t, exec i s = .next t ∧ Entered u t .copyErr ((myCore u).tokVa.get n) false ∧ (myCore t).tok.get n = 0 ∧
      { (myCore t).kept with tok := (myCore u).tok } = (myCore u).kept ∧ OthersKept u t ∧ t.kept = u.kept := by
  obtain ⟨v, hv⟩ : ∃ v, v = updMyCore u fun q => { q with tok := vput q.tok n.val 0 } := ⟨_, rfl⟩
  have core : myCore v = { myCore u with tok := vput (myCore u).tok n.val 0 } := by rw [hv]; exact myCore_updMyCore _ _
  have same : SameHart u v := by
    refine ⟨by rw [hv]; rfl, by rw [hv]; rfl, ?_, (congrArg Core.instret core :)⟩
    rw [hv]; exact me_updMyCore_of_harts _ _ rfl
  have others := othersKept_updMyCore u (fun q => { q with tok := vput q.tok n.val 0 }) rfl
  have settled' : Settled v := by
    intro vec
    have quiet : (myCore v).quiet = (myCore u).quiet := by rw [core]; rfl
    rw [quiet]
    refine settled ?_
    unfold isVecHart at vec ⊢
    rw [core, same.slot] at vec
    exact vec
  have nf' : freezing v v.curCore .copyErr = false := by
    have dbg : (coreAt v v.curCore).dbgctl = (coreAt u u.curCore).dbgctl ∧ (coreAt v v.curCore).job = (coreAt u u.curCore).job :=
      ⟨(congrArg Core.dbgctl core :), (congrArg Core.job core :)⟩
    have night : v.night = u.night := by rw [hv]; rfl
    unfold freezing at nf ⊢
    dsimp only at nf ⊢
    rw [dbg.1, dbg.2, night]
    exact nf
  have trap : copyErr n.val u = .trap .copyErr ((myCore u).tokVa.get n) v := by
    rw [copyErr, hv, vget_get]
  rw [trap] at h
  have rest : RestKept v (takeTrap .copyErr ((myCore u).tokVa.get n) false v) := by
    rw [takeTrap_eq _ _ _ _ nf']; exact restKept_updMe _ _
  have kept : (myCore (takeTrap .copyErr ((myCore u).tokVa.get n) false v)).kept = { (myCore u).kept with tok := vput (myCore u).tok n.val 0 } :=
    rest.core.trans (congrArg Core.kept core)
  refine ⟨_, h.trans (finish_trap _ _ v settled'), (entered_takeTrap _ _ _ v nf').of_sameHart same, ?_, ?_, ⟨fun k hk => ?_, fun c hc => ?_⟩, ?_⟩
  · have tokens : (myCore (takeTrap .copyErr ((myCore u).tokVa.get n) false v)).tok = vput (myCore u).tok n.val 0 := (congrArg Core.tok kept :)
    rw [tokens, get_vput _ n.isLt, if_pos rfl]
  · rw [kept]; rfl
  · have slot := rest.others.slots k (by rw [same.slot]; exact hk)
    rw [same.core] at slot
    rw [slot, hv]; exact others.slots k hk
  · rw [rest.others.cores c (by rw [same.core]; exact hc), hv]; exact others.cores c hc
  · rw [rest.machine, hv]; rfl

/-! ## Copy instructions (R350, R351) -/

theorem reqTokens_named {s : State} {kind : Nat} {w z m : BitVec 1} {k : BitVec 3} {b a d : BitVec 5} (n : Fin 8) :
    (reqTokens (mkReq kind w z m k b a d s)).getLsbD n.val = namesToken s w k n := by
  have own : (1#8 <<< k.toFin.val).getLsbD n.val = (n == k.toFin) := by
    revert n; revert k; decide
  have named : (if w = 1 then (oxr s 5).setWidth 8 else 0 : BitVec 8).getLsbD n.val = (w == 1 && (oxr s 5).getLsbD n.val) := by
    by_cases all : w = 1
    · rw [if_pos all, all, BitVec.getLsbD_setWidth, decide_eq_true n.isLt]; rfl
    · rw [if_neg all, beq_eq_false_iff_ne.2 all, Bool.false_and]; simp
  show ((if w = 1 then (oxr s 5).setWidth 8 else 0 : BitVec 8) ||| (1#8 <<< k.toFin.val)).getLsbD n.val = _
  rw [BitVec.getLsbD_or, own, named, Bool.or_comm]; rfl

section
variable {s : State} {i : Instr} {kind : Nat} {w z m : BitVec 1} {k : BitVec 3} {b a d : BitVec 5}

/-- The number of a C-format word's fields (R222). -/
theorem pack_cFields {maj n : Nat} (hm : maj < 64) (hn : n < 8) : pack [(1, 0x1), (6, maj), (5, d.toNat), (5, a.toNat), (5, b.toNat), (3, k.toNat),
    (3, n), (1, m.toNat), (1, z.toNat), (1, w.toNat), (1, 0x0)] = 1 + 2 * maj + 2 ^ 7 * d.toNat + 2 ^ 12 * a.toNat + 2 ^ 17 * b.toNat +
      2 ^ 22 * k.toNat + 2 ^ 25 * n + 2 ^ 28 * m.toNat + 2 ^ 29 * z.toNat + 2 ^ 30 * w.toNat := by
  have mod5 (x : BitVec 5) : x.toNat % 2 ^ 5 = x.toNat := Nat.mod_eq_of_lt x.isLt
  have mod1 (x : BitVec 1) : x.toNat % 2 ^ 1 = x.toNat := Nat.mod_eq_of_lt x.isLt
  simp only [pack, mod5, mod1, Nat.mod_eq_of_lt (show k.toNat < 2 ^ 3 from k.isLt), Nat.mod_eq_of_lt (show maj < 2 ^ 6 from hm),
    Nat.mod_eq_of_lt (show n < 2 ^ 3 from hn)]
  ring

theorem exec_copy (call : copyCall i = some (kind, w, z, m, k, b, a, d)) : exec i s = copyInstr kind w z m k b a d s ∧
    BitVec.ofNat 64 (encodeWord i) = cWord 0x30 kind w z m k b a d := by
  have fields (n : Nat) (hn : n < 8) (h : encodeFields i = [(1, 0x1), (6, 0x30), (5, d.toNat), (5, a.toNat), (5, b.toNat), (3, k.toNat), (3, n),
      (1, m.toNat), (1, z.toNat), (1, w.toNat), (1, 0x0)]) : BitVec.ofNat 64 (encodeWord i) = cWord 0x30 n w z m k b a d :=
    congrArg (BitVec.ofNat 64) (by rw [encodeWord, h, pack_cFields (by decide) hn])
  unfold copyCall at call
  split at call
  · cases call; exact ⟨rfl, fields 0 (by decide) rfl⟩
  · cases call; exact ⟨rfl, fields 1 (by decide) rfl⟩
  · cases call; exact ⟨rfl, fields 2 (by decide) rfl⟩
  · cases call; exact ⟨rfl, fields 3 (by decide) rfl⟩
  · cases call; exact ⟨rfl, fields 4 (by decide) rfl⟩
  · cases call

theorem rowOf_lt (c : Nat) : rowOf c < 16 := by unfold rowOf; omega

theorem ox5Rowb_eq (x : BitVec 64) : ox5Rowb x = 8 * (x.extractLsb' 20 14).toNat := by
  rw [ox5Rowb, BitVec.extractLsb'_toNat, Nat.shiftRight_eq_div_pow]

/-- A copy of the copy hart, from the checks of R351 on. -/
theorem exec_copy_issue (call : copyCall i = some (kind, w, z, m, k, b, a, d)) (slot : s.curSlot = 6) (fenced : Fenced s) :
    exec i s = finish (issueReq (mkReq kind w z m k b a d s) (reqOk (mkReq kind w z m k b a d s) s) (fun c => c.eng.toList.getD (rowOf s.curCore) [])
      (fun l c => { c with eng := vput c.eng (rowOf s.curCore) l }) s) := by
  rw [(exec_copy call).1, copyInstr, if_neg (not_not.2 slot), settled_of_fenced fenced]

theorem copy_error (call : copyCall i = some (kind, w, z, m, k, b, a, d)) (slot : s.curSlot = 6) (fenced : Fenced s) {n : Fin 8}
    (named : namesToken s w k n = true) (error : (myCore s).tok.get n = 2)
    (first : ∀ j, j < n → namesToken s w k j = true → (myCore s).tok.get j ≠ 2) (nf : freezing s s.curCore .copyErr = false) :
    ∃ t, exec i s = .next t ∧ Entered s t .copyErr ((myCore s).tokVa.get n) false ∧ (myCore t).tok.get n = 0 ∧
      { (myCore t).kept with tok := (myCore s).tok } = (myCore s).kept ∧ OthersKept s t ∧ t.kept = s.kept := by
  refine copyErr_taken ((exec_copy_issue call slot fenced).trans (congrArg finish (issueReq_error ?_))) (settled_of_fencedCore fenced) nf
  exact tokenIn_first ((reqTokens_named n).trans named) error fun j lt named => first j lt ((reqTokens_named j).symm.trans named)

theorem copy_clear (clear : ∀ n, namesToken s w k n = true → (myCore s).tok.get n ≠ 2) :
    tokenIn (myCore s) (reqTokens (mkReq kind w z m k b a d s)) 2 = none :=
  tokenIn_clear fun j named => clear j ((reqTokens_named j).symm.trans named)

theorem copy_queued (call : copyCall i = some (kind, w, z, m, k, b, a, d)) (slot : s.curSlot = 6) (fenced : Fenced s)
    (clear : ∀ n, namesToken s w k n = true → (myCore s).tok.get n ≠ 2) (ok : reqOk (mkReq kind w z m k b a d s) s = true)
    (room : waiting ((colAt s (colOf s.curCore)).eng.toList.getD (rowOf s.curCore) []) < 32) :
    let r := mkReq kind w z m k b a d s
    let queue (s' : State) := (colAt s' (colOf s.curCore)).eng.toList.getD (rowOf s.curCore) []
    ∃ t, exec i s = .next t ∧ Queued s t k (queue s) (queue t) { r with next := startOf s r } ∧
      (∀ n : Fin 16, n.val ≠ rowOf s.curCore → (colAt t (colOf s.curCore)).eng.get n = (colAt s (colOf s.curCore)).eng.get n) ∧
      { colAt t (colOf s.curCore) with eng := (colAt s (colOf s.curCore)).eng } = colAt s (colOf s.curCore) ∧
      (∀ c, c ≠ colOf s.curCore → colAt t c = colAt s c) ∧ NearRest s t ∧ t.net = s.net := by
  intro r queue
  have row := rowOf_lt s.curCore
  obtain ⟨queued, col, others, near, net⟩ := queued_issued (s := s) (r := r) (k := k) (queue := fun c => c.eng.toList.getD (rowOf s.curCore) [])
    (put := fun l c => { c with eng := vput c.eng (rowOf s.curCore) l }) ⟨rfl, rfl⟩ ⟨rfl, rfl, rfl, rfl, rfl, rfl⟩ fun l c => getD_vput _ row _ _
  refine ⟨_, (exec_copy_issue call slot fenced).trans (congrArg finish (issueReq_queued (copy_clear clear) ok room)), queued, fun n other => ?_, ?_, others, near, net⟩
  · rw [col]
    exact (get_vput _ row _ _).trans (if_neg other)
  · rw [col]

end

/-! ## Collectives (R109, R355, R356) -/

theorem touched_useAllowance (c : Fin 8) (d k : Nat) (s : State) : Touched s (useAllowance c d k s) := by
  unfold useAllowance useAllowances
  split
  · exact ⟨fun _ => rfl, fun _ => rfl, rfl, rfl⟩
  · exact .refl s

theorem touched_ownerRead (coh : Bool) (gpa n : Nat) (s : State) : Touched s (ownerRead coh gpa n s).2 := by
  unfold ownerRead
  split
  · exact touched_logError _ _ _ _ _
  · split
    case h_1 col off _ =>
      have collected : Touched s (if coh then collectAll col (gpa / 64) s else s) := by
        split
        · exact touched_collectAll _ _ _
        · exact .refl s
      refine collected.trans ?_
      generalize (if coh then collectAll col (gpa / 64) s else s) = u
      have read := touched_homeRead col off gpa false u
      dsimp only
      split <;> exact read
    case h_2 =>
      split
      · exact touched_logError _ _ _ _ _
      · exact .refl s
    case h_4 => split <;> exact .refl s
    all_goals exact .refl s

theorem touched_groupSent (s : State) (g : Nat) : Touched s (groupSent s g) := by
  unfold groupSent
  split
  · exact touched_useAllowance _ _ _ _
  · exact .refl s

/-- The request of a collective whose group record reads as v. -/
def collReq (kind : Nat) (w z : BitVec 1) (k : BitVec 3) (b a d : BitVec 5) (s : State) (v : Nat) : CReq :=
  { mkReq kind w z 0 k b a d s with
    group := gr s b, rank := (oxr s 3).toNat % 4096
    op := v / 2 ^ 16 % 256, ty := v / 2 ^ 24 % 256, rootOnly := v / 2 ^ 32 % 2 == 1, count := v % 2 ^ 16
    total := v / 2 ^ 64 % 2 ^ 64, bar := BitVec.ofNat 64 (v / 2 ^ 128) }

section
variable {s : State} {i : Instr} {kind : Nat} {w z : BitVec 1} {k : BitVec 3} {b a d : BitVec 5}

theorem exec_coll (call : collCall i = some (kind, w, z, k, b, a, d)) : exec i s = collInstr kind w z k b a d s ∧
    BitVec.ofNat 64 (encodeWord i) = cWord 0x31 (kind - 5) w z 0 k b a d := by
  have fields (n : Nat) (hn : n < 2) (h : encodeFields i = [(1, 0x1), (6, 0x31), (5, d.toNat), (5, a.toNat), (5, b.toNat), (3, k.toNat), (4, n),
      (1, z.toNat), (1, w.toNat), (1, 0x0)]) : BitVec.ofNat 64 (encodeWord i) = cWord 0x31 n w z 0 k b a d := by
    have same : pack (encodeFields i) = pack [(1, 0x1), (6, 0x31), (5, d.toNat), (5, a.toNat), (5, b.toNat), (3, k.toNat), (3, n), (1, (0 : BitVec 1).toNat),
        (1, z.toNat), (1, w.toNat), (1, 0x0)] := by
      rw [h]
      simp only [pack, Nat.mod_eq_of_lt (show n < 2 ^ 4 by omega), Nat.mod_eq_of_lt (show n < 2 ^ 3 by omega)]
      simp
      ring
    exact congrArg (BitVec.ofNat 64) (by rw [encodeWord, same, pack_cFields (by decide) (by omega)])
  unfold collCall at call
  split at call
  · cases call; exact ⟨rfl, fields 0 (by decide) rfl⟩
  · cases call; exact ⟨rfl, fields 1 (by decide) rfl⟩
  · cases call

theorem coll_clear {v : Nat} (touchedClear : ∀ n, namesToken s w k n = true → (myCore s).tok.get n ≠ 2) {u : State} (h : Touched s u) :
    tokenIn (myCore u) (reqTokens (collReq kind w z k b a d s v)) 2 = none := by
  have tokens : (myCore u).tok = (myCore s).tok := h.core_eq Core.tok fun _ => rfl
  refine tokenIn_clear fun j named => ?_
  rw [tokens]
  exact touchedClear j ((reqTokens_named (kind := kind) (z := z) (m := 0) (b := b) (a := a) (d := d) j).symm.trans named)

/-- How a collective's request is issued. -/
def collIssue (s0 : State) (b : BitVec 5) (r : CReq) (ok : Bool) (s : State) : Res Unit :=
  issueReq r ok (fun c => c.coll.toList.getD ((gr s0 b).toNat / 64 % 2) []) (fun l c => { c with coll := vput c.coll ((gr s0 b).toNat / 64 % 2) l }) s

variable (call : collCall i = some (kind, w, z, k, b, a, d)) (slot : s.curSlot = 6) (fenced : Fenced s)
include call slot fenced

theorem exec_coll_bad (bad : groupPlace s (gr s b) = false ∨ 4096 ≤ (oxr s 3).toNat) :
    exec i s = finish (collIssue s b { mkReq kind w z 0 k b a d s with group := gr s b, rank := (oxr s 3).toNat % 4096, total := 0 } false s) := by
  rw [(exec_coll call).1, collInstr, if_neg (not_not.2 slot), settled_of_fenced fenced]
  refine congrArg finish (if_pos ?_)
  obtain no | high := bad
  · rw [no]; rfl
  · simpa using .inr high

theorem exec_coll_far {v : Nat} (place : groupPlace s (gr s b) = true) (rank : (oxr s 3).toNat < 4096)
    (far : targetOf s (gr s b).toNat = .device v) (route : routeUp s (colOf s.curCore) v = false) :
    exec i s = finish (.trap .busFault (gr s b) s) := by
  rw [(exec_coll call).1, collInstr, if_neg (not_not.2 slot), settled_of_fenced fenced]
  refine congrArg finish ((if_neg (by simpa [place] using rank)).trans (if_pos ?_))
  rw [far]
  simp [route]

/-- The group record is read at its home (R109). -/
theorem exec_coll_read {r : Option Nat} {u : State} (place : groupPlace s (gr s b) = true) (rank : (oxr s 3).toNat < 4096)
    (goes : groupGoes s (gr s b).toNat = true) (read : ownerRead true (gr s b).toNat 64 (groupSent s (gr s b).toNat) = (r, u)) :
    exec i s = finish (match r with
      | none => .trap .busFault (gr s b) u
      | some v => collIssue s b (collReq kind w z k b a d s v) (groupOk u v ((oxr s 3).toNat % 4096)) u) := by
  unfold groupGoes at goes
  simp only [Bool.and_eq_true, Bool.not_eq_true'] at goes
  obtain ⟨⟨⟨barred, flight⟩, queued⟩, route⟩ := goes
  have start : (match (match targetOf s (gr s b).toNat with | .device v => some v | _ => none) with
      | some v => useAllowance (colOf s.curCore) v 3 s | none => s) = groupSent s (gr s b).toNat := by
    unfold groupSent
    cases targetOf s (gr s b).toNat <;> rfl
  have reaches : (match targetOf s (gr s b).toNat with | .device v => some v | _ => none : Option Nat).any (fun v => !routeUp s (colOf s.curCore) v) = false ∧
      (match targetOf s (gr s b).toNat with | .device v => some v | _ => none : Option Nat).any (fun v => !maySend s (colOf s.curCore) v 3) = false := by
    cases target : targetOf s (gr s b).toNat with
    | device v =>
      rw [target] at route
      obtain ⟨up, may⟩ := Bool.and_eq_true_iff.1 route
      simp [up, may]
    | _ => exact ⟨rfl, rfl⟩
  rw [(exec_coll call).1, collInstr, if_neg (not_not.2 slot), settled_of_fenced fenced]
  refine congrArg finish ((if_neg (by simpa [place] using rank)).trans ((if_neg ?_).trans ((if_neg ?_).trans ?_)))
  · exact fun shut => Bool.false_ne_true (reaches.1.symm.trans shut)
  · rw [barred, flight, queued]
    exact fun shut => Bool.false_ne_true (reaches.2.symm.trans shut)
  · generalize answer : ownerRead true (gr s b).toNat 64 _ = x
    obtain rfl : x = (r, u) := answer.symm.trans ((congrArg (ownerRead true (gr s b).toNat 64) start).trans read)
    cases r <;> rfl

end

section
variable {s u : State} {i : Instr} {kind : Nat} {w z : BitVec 1} {k : BitVec 3} {b a d : BitVec 5}

/-- A trap of a collective leaves the queues of the engines. -/
theorem coll_traps {c : Cause} {x : BitVec 64} {e : Nat} (h : exec i s = finish (.trap c x u)) (settled : Settled u) (nf : freezing u u.curCore c = false) :
    ∃ t, exec i s = .next t ∧ Entered u t c x false ∧
      (colAt t (colOf s.curCore)).coll.toList.getD e [] = (colAt u (colOf s.curCore)).coll.toList.getD e [] ∧ OthersKept u t ∧ t.kept = u.kept := by
  have rest : RestKept u (takeTrap c x false u) := by rw [takeTrap_eq _ _ _ _ nf]; exact restKept_updMe _ _
  refine ⟨_, h.trans (finish_trap c x u settled), entered_takeTrap c x false u nf, ?_, rest.others, rest.machine⟩
  exact (congrArg (fun w : State => (w.cols.get (colOf s.curCore)).coll.toList.getD e []) rest.machine :)

/-- The request of a collective joins its engine's queue. -/
theorem coll_queued {v : Nat} (touched : Touched s u) (clear : ∀ n, namesToken s w k n = true → (myCore s).tok.get n ≠ 2) (ok : Bool) (good : ok = true)
    (h : exec i s = finish (collIssue s b (collReq kind w z k b a d s v) ok u))
    (room : waiting ((colAt u (colOf s.curCore)).coll.toList.getD ((gr s b).toNat / 64 % 2) []) < 32) :
    let r := collReq kind w z k b a d s v
    let queue (s' : State) := (colAt s' (colOf s.curCore)).coll.toList.getD ((gr s b).toNat / 64 % 2) []
    ∃ t, exec i s = .next t ∧ Queued u t k (queue u) (queue t) { r with next := startOf u r } ∧
      (∀ c, (colAt t c).eng = (colAt u c).eng) ∧ (∀ c, c ≠ colOf s.curCore → (colAt t c).coll = (colAt u c).coll) ∧ NearRest u t ∧ t.net = u.net := by
  intro r queue
  have engine : (gr s b).toNat / 64 % 2 < 2 := Nat.mod_lt _ (by decide)
  have core := touched.sameHart.core
  have sys : isSys u = isSys s := by rw [isSys, touched.sameHart.hart]; rfl
  rw [← core] at room
  obtain ⟨queued, col, others, near, net⟩ := queued_issued (s := u) (r := r) (k := k) (queue := fun c => c.coll.toList.getD ((gr s b).toNat / 64 % 2) [])
    (put := fun l c => { c with coll := vput c.coll ((gr s b).toNat / 64 % 2) l }) ⟨rfl, rfl⟩
    ⟨by rw [core]; rfl, (touched.core_eq Core.job fun _ => rfl).symm, (touched.core_eq Core.rdbase fun _ => rfl).symm, by rw [sys]; rfl, rfl,
      by rw [touched.sameHart.hart]; rfl⟩ fun l c => getD_vput _ engine _ _
  rw [core] at queued col others
  refine ⟨_, h.trans (congrArg finish (issueReq_queued (coll_clear clear touched) good room)), queued, fun c => ?_, fun c other => ?_, near, net⟩
  · by_cases own : c = colOf s.curCore
    · rw [own, col]
    · rw [others c own]
  · rw [others c other]

end

/-- Settles O37: the checks, then the request that joins its queue. -/
theorem transferRequests : Obligations.TransferRequests := by
  unfold Obligations.TransferRequests
  refine ⟨fun s i kind w z m k b a d call => ?_, fun s u i kind r w z k b a d call => ?_⟩
  · intro x e col queue ok
    refine ⟨fun slot => ?_, fun slot fenced => ⟨fun n named error first nf => copy_error call slot fenced named error first nf, fun clear => ⟨fun bad => ?_, fun good room => ?_⟩⟩⟩
    · refine takesTrap_word (exec_copy (s := s) call).2 ?_
      rw [(exec_copy call).1, copyInstr, if_pos slot]
    · exact takesTrap_of ((exec_copy_issue call slot fenced).trans (congrArg finish (issueReq_refused (copy_clear clear) bad)))
    · obtain ⟨t, run, queued, engines, col', others, near, net⟩ := copy_queued call slot fenced clear good room
      exact ⟨t, _, run, queued, rfl, rfl, rfl, rfl, rfl, rfl, rfl, ox5Rowb_eq _, rfl, rfl, rfl, rfl, rfl, rfl, rfl, rfl, rfl, rfl, engines, col', others, near, net⟩
  · intro g e col rank queue
    have readTouched (read : ownerRead true g.toNat 64 (groupSent s g.toNat) = (r, u)) : Touched s u := by
      have touched := touched_ownerRead true g.toNat 64 (groupSent s g.toNat)
      rw [read] at touched
      exact (touched_groupSent s g.toNat).trans touched
    refine ⟨fun slot => ?_, fun slot fenced clear => ⟨fun bad => ?_, fun v place low far route => ?_, fun place low goes read => ⟨fun lost nf => ?_, fun v found => ⟨fun bad nf => ?_, fun good room => ?_⟩⟩⟩⟩
    · refine takesTrap_word (exec_coll (s := s) call).2 ?_
      rw [(exec_coll call).1, collInstr, if_pos slot]
    · refine takesTrap_of ((exec_coll_bad call slot fenced bad).trans (congrArg finish (issueReq_refused ?_ rfl)))
      exact coll_clear (v := 0) clear (.refl s)
    · exact takesTrap_of (exec_coll_far call slot fenced place low far route)
    · subst lost
      have touched := readTouched read
      exact coll_traps (exec_coll_read call slot fenced place low goes read) (touched.settled (settled_of_fencedCore fenced)) ((touched.freezing _).trans nf)
    · subst found
      have touched := readTouched read
      have small : rank % 4096 = rank := Nat.mod_eq_of_lt low
      refine coll_traps ((exec_coll_read call slot fenced place low goes read).trans (congrArg finish (issueReq_refused (coll_clear clear touched) ?_)))
        (touched.settled (settled_of_fencedCore fenced)) ((touched.freezing _).trans nf)
      rw [small]; exact bad
    · subst found
      have touched := readTouched read
      have small : rank % 4096 = rank := Nat.mod_eq_of_lt low
      obtain ⟨t, run, queued, engines, others, near, net⟩ := coll_queued touched clear _ (by rw [small]; exact good)
        (exec_coll_read call slot fenced place low goes read) room
      refine ⟨t, _, run, queued, rfl, rfl, rfl, rfl, small, rfl, rfl, rfl, ?_, rfl, rfl, rfl, engines, others, near, net⟩
      show (v / 2 ^ 32 % 2 == 1) = v.testBit 32
      rw [Nat.testBit_eq_decide_div_mod_eq]; rfl

end Sys2Proof.Machine
end

section
/-!
PROOFS. Way configurations and the cache walker's instructions (R68, R117, R127, R128, R276 to R278, R394); obligation O41.
-/

namespace Sys2Proof.Machine

set_option Elab.async false

/-! ## `waycfg` (R127, R276) -/

/-- A hart whose replay has ended (R401). -/
def Hart.unreplayed (h : Hart) : Hart := { h with xconv := setBits h.xconv 0 58 56, shadow := none }

/-- A core whose open convoy has ended, its slot k at h (R182). -/
def Core.endsConvoy (k : Fin 8) (h : Hart) (q : Core) : Core := { q with vec := { q.vec with ended := true } }.setHart k h

/-- What the statement compares of a hart that issues `waycfg`. -/
def Hart.configured (h : Hart) : Hart := { h.kept with xconv := h.xconv &&& ~~~(7#64 <<< 56), since := 0, shadow := none }

theorem configured_unreplayed (h : Hart) : h.unreplayed.configured = h.configured := by
  have ended : setBits h.xconv 0 58 56 = h.xconv &&& ~~~(7#64 <<< 56) := by simp [setBits]
  unfold Hart.configured Hart.unreplayed
  dsimp only
  rw [ended, BitVec.and_assoc, BitVec.and_self]
  rfl

theorem configured_congr {g h : Hart} (same : g.kept = h.kept) : g.configured = h.configured :=
  (congrArg (fun k : Hart => { k with xconv := k.xconv &&& ~~~(7#64 <<< 56), since := 0, shadow := none }) same :)

theorem updMe_endsConvoy (s : State) (f : Hart → Hart) : updMe (updMyCore s fun q => { q with vec := { q.vec with ended := true } }) f =
    updMyCore s (Core.endsConvoy s.curSlot (f (me s))) := by
  rw [updMe_updMyCore]; rfl

theorem me_endsConvoy (s : State) (h : Hart) : me (updMyCore s (Core.endsConvoy s.curSlot h)) = h := by
  rw [me_updMyCore]; exact setHart_get_self _ _ _

theorem word_waycfg (a d : BitVec 5) : BitVec.ofNat 64 (encodeWord (.waycfg a d)) = rWord 0x3D 0x020 0 a d := by
  refine congrArg (BitVec.ofNat 64) ?_
  have hd := d.isLt; have ha := a.isLt
  rw [encodeWord, show encodeFields (.waycfg a d) = [(1, 0x1), (6, 0x3d), (5, d.toNat), (5, a.toNat), (5, 0x0), (3, 0x0), (7, 0x4)] from rfl]
  simp only [pack]
  have zero : (0 : BitVec 5).toNat = 0 := rfl
  omega

section
variable {s : State} {a d : BitVec 5} (alone : (myCore s).gang = 1) (asked : (me s).wait ≠ .ways)
include alone asked

theorem exec_waycfg_handler (slot : s.curSlot = 7) : TakesTrap (.waycfg a d) s .handlerBlock (BitVec.ofNat 64 (encodeWord (.waycfg a d))) := by
  refine takesTrap_word (word_waycfg a d) ?_
  show finish (if (me s).wait = .ways then _ else if _ then _ else orBlock _ s _) = _
  rw [if_neg asked, if_neg (by rw [alone]; simp), orBlock, if_pos slot]

theorem exec_waycfg (slot : s.curSlot ≠ 7) : exec (.waycfg a d) s =
    let x := (gr s a).toNat
    let u := updMyCore s (Core.endsConvoy s.curSlot (me s).unreplayed)
    finish (if 16 < x % 32 ∨ 16 < x / 256 % 32 ∨ 16 < x % 32 + x / 256 % 32 ∨ x ≠ x % 32 + 256 * (x / 256 % 32) then .ok () (done4 d 1 u)
      else if x % 32 = (myCore s).narr ∧ x / 256 % 32 = (myCore s).nbank then .ok () (done4 d 0 u)
      else .hold (park .ways (updMyCore u fun q => { q with
        wayReqs := (q.wayReqs.filter fun x => x.slot != s.curSlot) ++ [{ slot := s.curSlot, narr := x % 32, nbank := x / 256 % 32, began := false }] }))) := by
  show finish (if (me s).wait = .ways then _ else if _ then _ else orBlock _ s _) = _
  rw [if_neg asked, if_neg (by rw [alone]; simp), orBlock, if_neg slot]
  dsimp only
  rw [updMe_endsConvoy]
  rfl

end

/-- An answer of `waycfg` at once. -/
theorem waycfg_answered (s : State) (d : BitVec 5) (v : BitVec 64) :
    let t := done4 d v (updMyCore s (Core.endsConvoy s.curSlot (me s).unreplayed))
    GoesOn s t ((me s).pc + 4) ∧ Wrote s t d v ∧ (me t).configured = (me s).configured ∧
      (myCore t).kept = { (myCore s).kept with vec := { (myCore s).vec with ended := true } } ∧ OthersKept s t ∧ t.kept = s.kept := by
  have hart := me_endsConvoy s (me s).unreplayed
  have whole : done4 d v (updMyCore s (Core.endsConvoy s.curSlot (me s).unreplayed)) =
      retireAt ((me s).pc + 4) (updMyCore s (Core.endsConvoy s.curSlot ((me s).unreplayed.setG d v))) := by
    have put : setG (updMyCore s (Core.endsConvoy s.curSlot (me s).unreplayed)) d v =
        updMyCore s (Core.endsConvoy s.curSlot ((me s).unreplayed.setG d v)) := by
      rw [setG, updMe_updMyCore]
      refine updMyCore_congr ?_
      have slot : (Core.endsConvoy s.curSlot (me s).unreplayed (myCore s)).harts.get s.curSlot = (me s).unreplayed := setHart_get_self _ _ _
      rw [slot]
      exact setHart_setHart _ _ _ _
    have pc : (me (updMyCore s (Core.endsConvoy s.curSlot ((me s).unreplayed.setG d v)))).pc = (me s).pc := by
      rw [me_endsConvoy, setG_pc]; rfl
    rw [done4, retire, put, pc]
  have slot : (Core.endsConvoy s.curSlot ((me s).unreplayed.setG d v) (myCore s)).harts.get s.curSlot = (me s).unreplayed.setG d v :=
    setHart_get_self _ _ _
  rw [whole]
  obtain ⟨on, hart', kept, others, -, rest⟩ := goesOn_retireAt_updMyCore ((me s).pc + 4) s (Core.endsConvoy s.curSlot ((me s).unreplayed.setG d v)) rfl
    ((congrArg Hart.st slot).trans (setG_st _ _ _)) fun k hk => setHart_get_ne _ _ _ _ hk
  rw [slot] at hart'
  refine ⟨on, ⟨?_, fun r hr => ?_⟩, ?_, kept, others, rest⟩
  · rw [gr, hart', gr_retired, gr_setG, if_pos rfl]
  · rw [gr, hart', gr_retired, gr_setG, if_neg hr]; rfl
  · rw [hart', ← configured_unreplayed (me s)]
    exact configured_congr (kept_setG _ _ _)

/-- The request of `waycfg` joins its core's queue (R128). -/
theorem waycfg_queued (s : State) (r : WayReq) :
    let t := park .ways (updMyCore (updMyCore s (Core.endsConvoy s.curSlot (me s).unreplayed)) fun q => { q with
      wayReqs := (q.wayReqs.filter fun x => x.slot != s.curSlot) ++ [r] })
    (me t).st = .parked ∧ (me t).wait = .ways ∧ (me t).pc = (me s).pc ∧ (∀ r, gr t r = gr s r) ∧ (me t).configured = (me s).configured ∧
      (myCore t).instret = (myCore s).instret ∧ (myCore t).wayReqs = ((myCore s).wayReqs.filter fun x => x.slot != s.curSlot) ++ [r] ∧
      { (myCore t).kept with wayReqs := (myCore s).wayReqs } = { (myCore s).kept with vec := { (myCore s).vec with ended := true } } ∧
      OthersKept s t ∧ t.kept = s.kept := by
  intro t
  obtain ⟨u, hu⟩ : ∃ u, u = updMyCore (updMyCore s (Core.endsConvoy s.curSlot (me s).unreplayed)) fun q => { q with
      wayReqs := (q.wayReqs.filter fun x => x.slot != s.curSlot) ++ [r] } := ⟨_, rfl⟩
  have core : myCore u = { Core.endsConvoy s.curSlot (me s).unreplayed (myCore s) with
      wayReqs := ((myCore s).wayReqs.filter fun x => x.slot != s.curSlot) ++ [r] } := by
    rw [hu, myCore_updMyCore, myCore_updMyCore]; rfl
  have same : u.curCore = s.curCore ∧ u.curSlot = s.curSlot := by rw [hu]; exact ⟨rfl, rfl⟩
  have hart : me u = (me s).unreplayed := by
    rw [me_eq, core, same.2]; exact setHart_get_self _ _ _
  have parks : ParksFor u t .ways := by rw [show t = park .ways u by rw [hu]]; exact parksFor_park _ _
  have rest : RestKept u t := by rw [show t = park .ways u by rw [hu]]; exact restKept_park _ _
  have slots (k : Fin 8) (hk : k ≠ s.curSlot) : hartAt u s.curCore k = hartAt s s.curCore k := by
    have slot := congrArg (fun q : Core => q.harts.get k) core
    rw [myCore, same.1] at slot
    exact slot.trans (setHart_get_ne _ _ _ _ hk)
  have cores (c : Nat) (hc : c ≠ s.curCore.val) : coreAt u c = coreAt s c := by
    rw [hu]
    exact (coreAt_updCore_ne _ _ _ _ hc).trans (coreAt_updCore_ne _ _ _ _ hc)
  refine ⟨parks.parked, parks.wait, ?_, fun x => ?_, ?_, ?_, ?_, ?_, ⟨fun k hk => ?_, fun c hc => ?_⟩, ?_⟩
  · rw [parks.pc, hart]; rfl
  · rw [parks.regs, gr, hart]; rfl
  · rw [← configured_unreplayed (me s), ← hart]
    exact (congrArg (fun k : Hart => { k with xconv := k.xconv &&& ~~~(7#64 <<< 56), shadow := none }) parks.kept :)
  · rw [parks.count, core]; rfl
  · have reqs : (myCore t).wayReqs = (myCore u).wayReqs := (congrArg Core.wayReqs rest.core :)
    rw [reqs, core]
  · rw [rest.core, core]; rfl
  · have slot := rest.others.slots k (by rw [same.2]; exact hk)
    rw [same.1] at slot
    exact slot.trans (slots k hk)
  · exact (rest.others.cores c (by rw [same.1]; exact hc)).trans (cores c hc)
  · rw [rest.machine, hu]; rfl

/-! ### The steps of a change (R127) -/

section
variable {s : State} {a d : BitVec 5} {r : WayReq} {l : List WayReq} (alone : (myCore s).gang = 1) (waits : (me s).wait = .ways)
  (head : (myCore s).wayQueue = r :: l) (own : r.slot = s.curSlot) (free : (myCore s).binding = none)
include waits head own free

/-- The request at the head of the queue begins (R127 step 1). -/
theorem exec_waycfg_begins (fresh : r.began = false) (steady : (colAt s (colOf s.curCore)).layerctl.getLsbD 2 = false) :
    exec (.waycfg a d) s = .next (updMyCore s fun q => { q with
      wayReqs := q.wayReqs.map fun x => if x.slot = s.curSlot then { x with began := true } else x
      vec := { q.vec with ended := true } }) := by
  show finish (if (me s).wait = .ways then wayStep _ _ d s else _) = _
  rw [if_pos waits, wayStep, head]
  dsimp only
  rw [free, fresh, steady, own]
  simp only [ne_eq, not_true_eq_false, decide_false, Option.isSome_none, Bool.or_self, Bool.and_false, Bool.false_eq_true, if_false, Bool.not_false, if_true]
  rfl

include alone in
/-- It is carried out once the core is quiet (R127 steps 2 to 5). -/
theorem exec_waycfg_done (began : r.began = true) (quiet : (myCore s).quiet = true) :
    let u := applyWays s.curCore ((gr s a).toNat % 32) ((gr s a).toNat / 256 % 32) s
    exec (.waycfg a d) s = .next (done4 d 0 (updMyCore u fun q => { q with wayReqs := q.wayReqs.filter fun x => x.slot != u.curSlot })) := by
  intro u
  have gang : gangOf s s.curCore = [s.curCore.val] := if_pos alone
  show finish (if (me s).wait = .ways then wayStep _ _ d s else _) = _
  rw [if_pos waits, wayStep, head]
  dsimp only
  have all : ([s.curCore.val].all fun c => (coreAt s c).quiet) = true := by
    rw [List.all_cons, List.all_nil, Bool.and_true]; exact quiet
  rw [free, began, own, gang, all, List.foldl_cons, List.foldl_nil]
  simp only [ne_eq, not_true_eq_false, decide_false, Option.isSome_none, Bool.or_self, Bool.not_true, Bool.false_and, Bool.false_eq_true, if_false]
  rfl

end

/-- A core after a change of its ways' modes, apart from what clearing them did. -/
def Core.rewayed (na nb : Nat) (changing : List Nat) (q : Core) : Core :=
  let opened := changing.filter fun w => wayMode na nb w == 2
  let q' := { q with narr := na, nbank := nb, bfmt := opened.foldl (fun b w => vput b w 0x1F) q.bfmt }
  { q' with vec := { q'.vec with
      vl := BitVec.ofNat 64 (min q'.vec.vl.toNat q'.vlmax)
      vhw := q'.vec.vhw.map fun h => BitVec.ofNat 64 (vhwAfter q.glanes q'.glanes h.toNat)
      vdirty := if na = 0 then 0 else q'.vec.vdirty } }

/-- The ways whose mode changes. -/
def changingWays (q : Core) (na nb : Nat) : List Nat := (List.range 16).filter fun w => wayMode q.narr q.nbank w != wayMode na nb w

theorem applyWays_eq {c na nb : Nat} {s : State} (lines : (coreAt s c).cw = []) : applyWays c na nb s =
    updCore (clearWays c (changingWays (coreAt s c) na nb) (wakeWays c (changingWays (coreAt s c) na nb) s)) c
      (Core.rewayed na nb (changingWays (coreAt s c) na nb)) := by
  unfold applyWays
  dsimp only
  rw [lines]
  simp only [List.flatMap_nil, List.foldl_nil]
  rw [show (List.range 16).filter (fun w => wayMode (coreAt s c).narr (coreAt s c).nbank w != wayMode na nb w) =
    changingWays (coreAt s c) na nb from rfl]
  generalize changingWays (coreAt s c) na nb = l
  rfl

/-- Waking nobody changes nothing but the table of waiters, which stays empty. -/
theorem wakeWays_nobody {c : Nat} : ∀ (ways : List Nat) {s : State}, (coreAt s c).waiters = [] → 
    (∀ x, coreAt (wakeWays c ways s) x = coreAt s x) ∧ ∃ cores, wakeWays c ways s = { s with cores := cores }
  | [], s, _ => ⟨fun _ => rfl, s.cores, rfl⟩
  | w :: ways, s, nobody => by
    have step : wakeWays c (w :: ways) s = wakeWays c ways (updCore s c fun q => { q with waiters := tabDel q.waiters w }) := by
      unfold wakeWays
      rw [List.foldl_cons, nobody]
      rfl
    have core : coreAt (updCore s c fun q => { q with waiters := tabDel q.waiters w }) c = coreAt s c := by
      rw [coreAt_updCore_self, nobody]
      show { coreAt s c with waiters := [] } = coreAt s c
      rw [← nobody]
    obtain ⟨same, cores, form⟩ := wakeWays_nobody ways (s := updCore s c fun q => { q with waiters := tabDel q.waiters w }) (by rw [core]; exact nobody)
    rw [step]
    refine ⟨fun x => (same x).trans ?_, cores, by rw [form]; rfl⟩
    by_cases own : x = c
    · rw [own, core]
    · exact coreAt_updCore_ne _ _ _ _ own

theorem memGet_otherWays (base a : Nat) : ∀ (ways : List Nat) (m : List Host.Cell), (∀ w ∈ ways, a < base + w * 2 ^ 18 ∨ base + (w + 1) * 2 ^ 18 ≤ a) →
    memGet (ways.foldl (fun m w => memClear m (base + w * 2 ^ 18) (base + (w + 1) * 2 ^ 18)) m) a = memGet m a
  | [], _, _ => rfl
  | w :: ways, m, out => by
    rw [List.foldl_cons, memGet_otherWays base a ways _ fun x hx => out x (List.mem_cons_of_mem _ hx), memGet_memClear]
    have := out w List.mem_cons_self
    exact if_pos (by omega)

theorem updCore_form (s : State) (c : Nat) (f : Core → Core) : ∃ cores, updCore s c f = { s with cores := cores } := ⟨_, rfl⟩

theorem clearWays_core (c : Nat) (ways : List Nat) (s : State) :
    ∃ full v, coreAt (clearWays c ways s) c = { coreAt s c with full := full, vec := { (coreAt s c).vec with v := v } } := by
  unfold clearWays
  exact ⟨_, _, coreAt_updCore_self _ _ _⟩

theorem clearWays_form (c : Nat) (ways : List Nat) (s : State) : ∃ cores mem, clearWays c ways s = { s with cores := cores, mem := mem } := by
  unfold clearWays
  exact ⟨_, _, rfl⟩

theorem mem_changingWays {q : Core} {na nb w : Nat} : w ∈ changingWays q na nb ↔ (decide (w < 16) && wayMode q.narr q.nbank w != wayMode na nb w) = true := by
  unfold changingWays
  rw [List.mem_filter, List.mem_range, Bool.and_eq_true, decide_eq_true_eq]

/-- Way w of a core changes its mode. -/
def Core.changesWay (q : Core) (na nb w : Nat) : Bool := decide (w < 16) && wayMode q.narr q.nbank w != wayMode na nb w

/-- The modes of the ways of core c have changed from s to u: those that change read zero (R127). -/
structure Rewayed (c na nb : Nat) (s u : State) : Prop where
  zero : ∀ w k, (coreAt s c).changesWay na nb w = true → k < 2 ^ 18 → byteAt u (bankGpa s c w k) = 0
  same : ∀ b, (∀ w, (coreAt s c).changesWay na nb w = true → b < bankGpa s c w 0 ∨ bankGpa s c w 0 + 2 ^ 18 ≤ b) → byteAt u b = byteAt s b
  others : ∀ x, x ≠ c → coreAt u x = coreAt s x
  core : ∃ full v, coreAt u c = Core.rewayed na nb (changingWays (coreAt s c) na nb) { coreAt s c with full := full, vec := { (coreAt s c).vec with v := v } }
  machine : ∃ cores mem, u = { s with cores := cores, mem := mem }

/-- A change of the modes of a quiet core's ways, which hold no line and nobody waits at. -/
theorem applyWays_done {c na nb : Nat} {s : State} (lines : (coreAt s c).cw = []) (nobody : (coreAt s c).waiters = []) :
    Rewayed c na nb s (applyWays c na nb s) := by
  have whole := applyWays_eq (na := na) (nb := nb) lines
  obtain ⟨same, cores, form⟩ := wakeWays_nobody (changingWays (coreAt s c) na nb) nobody
  have ways (w : Nat) : w ∈ changingWays (coreAt s c) na nb ↔ (coreAt s c).changesWay na nb w = true := mem_changingWays
  rw [whole]
  obtain ⟨l, hl⟩ : ∃ l, l = changingWays (coreAt s c) na nb := ⟨_, rfl⟩
  rw [← hl] at same form ways ⊢
  have gpa (w k : Nat) : bankGpa (wakeWays c l s) c w k = bankGpa s c w k := bankGpa_congr (by rw [form]) c w k
  have bytes (a : Nat) : byteAt (wakeWays c l s) a = byteAt s a := by rw [form]; rfl
  refine ⟨fun w k change hk => ?_, fun b out => ?_, fun x hx => ?_, ?_, ?_⟩
  · rw [← gpa]
    exact byteAt_clearWays c (wakeWays c l s) ((ways w).2 change) hk
  · rw [← bytes]
    refine memGet_otherWays (bankGpa (wakeWays c l s) c 0 0) b l _ fun w mem => ?_
    have apart := out w ((ways w).1 mem)
    have place : bankGpa s c w 0 = bankGpa s c 0 0 + w * 2 ^ 18 := by
      unfold bankGpa mkGpa
      ring
    rw [place] at apart
    rw [gpa, Nat.add_mul, Nat.one_mul, ← Nat.add_assoc]
    exact apart
  · exact (coreAt_updCore_ne _ _ _ _ hx).trans ((coreAt_updCore_ne _ _ _ _ hx).trans (same x))
  · rw [coreAt_updCore_self]
    obtain ⟨full, v, cleared⟩ := clearWays_core c l (wakeWays c l s)
    rw [same] at cleared
    rw [← hl]
    exact ⟨full, v, congrArg (Core.rewayed na nb l) cleared⟩
  · obtain ⟨cores', mem, cleared⟩ := clearWays_form c l (wakeWays c l s)
    obtain ⟨cores'', changed⟩ := updCore_form (clearWays c l (wakeWays c l s)) c (Core.rewayed na nb l)
    exact ⟨cores'', mem, by rw [changed, cleared, form]⟩

/-- What `waycfg` leaves once its change has been made. -/
theorem waycfg_done {s u : State} (d : BitVec 5) {na nb : Nat} (changed : Rewayed s.curCore na nb s u) :
    let t := done4 d 0 (updMyCore u fun q => { q with wayReqs := q.wayReqs.filter fun x => x.slot != u.curSlot })
    let q := myCore s
    GoesOn s t ((me s).pc + 4) ∧ Wrote s t d 0 ∧ (myCore t).narr = na ∧ (myCore t).nbank = nb ∧
      (∀ w k, q.changesWay na nb w = true → k < 2 ^ 18 → byteAt t (bankGpa s s.curCore w k) = 0) ∧
      (∀ b, (∀ w, q.changesWay na nb w = true → b < bankGpa s s.curCore w 0 ∨ bankGpa s s.curCore w 0 + 2 ^ 18 ≤ b) → byteAt t b = byteAt s b) ∧
      (myCore t).vec.vl.toNat = min q.vec.vl.toNat (myCore t).vlmax ∧ (me t).kept = (me s).kept ∧
      (myCore t).wayReqs = (q.wayReqs.filter fun y => y.slot != s.curSlot) ∧
      { (myCore t).kept with narr := q.narr, nbank := q.nbank, bfmt := q.bfmt, full := q.full, vec := q.vec, wayReqs := q.wayReqs } = q.kept ∧
      OthersKept s t ∧ { t.kept with mem := [] } = { s.kept with mem := [] } := by
  intro t q
  obtain ⟨zero, same, others, ⟨full, v, core⟩, cores, mem, form⟩ := changed
  have core' : u.curCore = s.curCore := (congrArg State.curCore form :)
  have slot : u.curSlot = s.curSlot := (congrArg State.curSlot form :)
  obtain ⟨w, hw⟩ : ∃ w, w = updMyCore u fun q => { q with wayReqs := q.wayReqs.filter fun x => x.slot != u.curSlot } := ⟨_, rfl⟩
  have mine : myCore w = { Core.rewayed na nb (changingWays q na nb) { q with full := full, vec := { q.vec with v := v } } with
      wayReqs := q.wayReqs.filter fun x => x.slot != s.curSlot } := by
    rw [hw, myCore_updMyCore, myCore, core', slot]
    rw [core]; rfl
  have wcore : w.curCore = s.curCore := by rw [hw]; exact core'
  have hart (k : Fin 8) : hartAt w s.curCore k = hartAt s s.curCore k := by
    have harts := congrArg (fun q : Core => q.harts.get k) mine
    rw [myCore, wcore] at harts
    exact harts
  have wslot : w.curSlot = s.curSlot := by rw [hw]; exact slot
  have sameHart : SameHart s w := by
    refine ⟨wcore, wslot, ?_, (congrArg Core.instret mine :)⟩
    rw [me, wcore, wslot]; exact hart _
  obtain ⟨on, wrote, kept, rest⟩ := retire_setG sameHart 4 d 0
  rw [show retire 4 (setG w d 0) = t by rw [hw]; rfl] at on wrote kept rest
  have tcore : (myCore t).kept = (myCore w).kept := rest.core
  have bytes (b : Nat) : byteAt t b = byteAt u b := (rest.memory b).trans (by rw [hw]; rfl)
  have vec : (myCore t).vec = (myCore w).vec ∧ (myCore t).vlmax = (myCore w).vlmax := ⟨(congrArg Core.vec tcore :), (congrArg Core.vlmax tcore :)⟩
  refine ⟨on, wrote, ?_, ?_, fun x k change hk => ?_, fun b out => ?_, ?_, kept, ?_, ?_, ⟨fun k hk => ?_, fun c hc => ?_⟩, ?_⟩
  · exact (congrArg Core.narr tcore).trans (congrArg Core.narr mine)
  · exact (congrArg Core.nbank tcore).trans (congrArg Core.nbank mine)
  · rw [bytes]; exact zero x k change hk
  · rw [bytes]; exact same b out
  · rw [vec.1, vec.2, mine]
    show (BitVec.ofNat 64 (min q.vec.vl.toNat _)).toNat = min q.vec.vl.toNat _
    rw [BitVec.toNat_ofNat, Nat.mod_eq_of_lt (lt_of_le_of_lt (Nat.min_le_left _ _) q.vec.vl.isLt)]
    rfl
  · exact (congrArg Core.wayReqs tcore).trans (congrArg Core.wayReqs mine)
  · rw [tcore, mine]; rfl
  · have slots := rest.others.slots k (by rw [wslot]; exact hk)
    rw [wcore] at slots
    exact slots.trans (hart k)
  · refine (rest.others.cores c (by rw [wcore]; exact hc)).trans ?_
    rw [hw]
    exact (coreAt_updCore_ne _ _ _ _ (by rw [core']; exact hc)).trans (others c hc)
  · rw [rest.machine, hw]
    exact congrArg (fun x : State => { x.kept with mem := [] }) form

/-! ## `cwflush` and `cwinv` (R68, R277, R278) -/

/-- A walk over a span that ends with pieces or a fault has touched no hart. -/
theorem touched_walkSpan {hi : Nat} : ∀ (f va : Nat) (s : State) (l : List Walked) {r : Except (Cause × Nat) (Option (List Walked))} {u : State},
    walkSpan hi f va s l = (r, u) → r ≠ .ok none → Touched s u
  | 0, va, s, l, r, u, h, _ => by
    obtain ⟨-, rfl⟩ := Prod.mk.inj h
    exact .refl s
  | f + 1, va, s, l, r, u, h, ended => by
    unfold walkSpan at h
    split at h
    · obtain ⟨-, rfl⟩ := Prod.mk.inj h
      exact .refl s
    · have touched := touched_translate s s.curCore (isSys s) needRd (BitVec.ofNat 64 va)
      split at h
      · next w found =>
        rw [found] at touched
        obtain ⟨-, rfl⟩ := Prod.mk.inj h
        exact touched
      · obtain ⟨rfl, -⟩ := Prod.mk.inj h
        exact absurd rfl ended
      · obtain ⟨rfl, -⟩ := Prod.mk.inj h
        exact absurd rfl ended
      · next w found =>
        rw [found] at touched
        exact touched.trans (touched_walkSpan f _ _ _ h ended)

theorem touched_walkSpanOf {s u : State} {va n : Nat} {r : Except (Cause × Nat) (Option (List Walked))} (h : walkSpanOf s va n = (r, u))
    (ended : r ≠ .ok none) : Touched s u := by
  unfold walkSpanOf at h
  split at h
  · obtain ⟨-, rfl⟩ := Prod.mk.inj h
    exact .refl s
  · exact touched_walkSpan _ _ _ _ h ended

/-- A number of the model's own counters is taken. -/
def State.fresh (s : State) : State := { s with nextId := s.nextId + 1 }

/-- A piece as its walker's queue holds it. -/
def queuedPiece (s : State) (inv : Bool) (bar : BitVec 64) (group : Nat) (p : Walked) : WPiece :=
  { core := s.curCore.val, slot := s.curSlot, group := group, inv := inv, first := p.1, last := p.2.1, cached := p.2.2.cls == 0
    entry := { job := (myCore s).job, desc := p.2.2 }, bar := bar, err := false }

theorem queuePieces_form (inv : Bool) (bar : BitVec 64) (group : Nat) : ∀ (l : List Walked) (s : State),
    ∃ cols, queuePieces inv bar group l s = { s with cols := cols } ∧
      ∀ c, (cols.get c).walker = (colAt s c).walker ++ (l.filter fun p => walkerCol s p.1 == c).map (queuedPiece s inv bar group)
  | [], s => ⟨s.cols, rfl, fun c => (List.append_nil _).symm⟩
  | p :: l, s => by
    obtain ⟨u, hu⟩ : ∃ u, u = updCol s (walkerCol s p.1) fun c => { c with walker := c.walker ++ [queuedPiece s inv bar group p] } := ⟨_, rfl⟩
    obtain ⟨cols, form, walkers⟩ := queuePieces_form inv bar group l u
    have first : queuePieces inv bar group (p :: l) s = queuePieces inv bar group l u := by rw [hu]; rfl
    refine ⟨cols, by rw [first, form, hu]; rfl, fun c => ?_⟩
    have same (x : Nat) : walkerCol u x = walkerCol s x := by rw [hu]; rfl
    have piece : queuedPiece u inv bar group = queuedPiece s inv bar group := by rw [hu]; rfl
    rw [walkers c, List.filter_cons, piece]
    simp only [same]
    by_cases own : walkerCol s p.1 = c
    · rw [if_pos (beq_iff_eq.2 own), hu, own, colAt_updCol_self, List.map_cons, List.append_assoc]
      rfl
    · rw [if_neg (by simpa using own), hu, colAt_updCol_ne _ _ _ _ (Ne.symm own)]

theorem nearRest_moved {u v t : State} (cores : v.cores = u.cores) (mem : v.mem = u.mem) (here : v.curCore = u.curCore ∧ v.curSlot = u.curSlot)
    (machine : { v.kept with cols := u.cols, net := u.net, nextId := u.nextId, freeIdx := u.freeIdx } = u.kept) (h : RestKept v t) :
    CoreStill u t ∧ NearRest u t := by
  obtain ⟨core, slot⟩ := here
  have at' (c : Nat) : coreAt v c = coreAt u c := by rw [coreAt, cores]; rfl
  have mine : myCore v = myCore u := by rw [myCore, core, at']; rfl
  refine ⟨accessed_of_kept (h.core.trans (congrArg Core.kept mine)), ⟨⟨fun k hk => ?_, fun c hc => ?_⟩, fun a => (h.memory a).trans (by rw [byteAt, mem]; rfl), ?_⟩⟩
  · have slots := h.others.slots k (by rw [slot]; exact hk)
    rw [core] at slots
    exact slots.trans (by rw [hartAt, at']; rfl)
  · exact (h.others.cores c (by rw [core]; exact hc)).trans (at' c)
  · rw [h.machine]; exact machine

section
variable {s u : State} {inv : Bool} {b a d : BitVec 5} (fenced : Fenced s)
include fenced

theorem walkInstr_error {c : Cause} {x : Nat} (walk : walkSpanOf s (gr s a).toNat (gr s b).toNat = (.error (c, x), u)) :
    walkInstr inv b a d s = .trap c (BitVec.ofNat 64 (max x (gr s a).toNat)) u := by
  unfold walkInstr
  rw [settled_of_fenced fenced]
  unfold walkSpanOf at walk
  dsimp only
  rw [walk]

theorem walkInstr_pieces {l : List Walked} (walk : walkSpanOf s (gr s a).toNat (gr s b).toNat = (.ok (some l), u)) :
    walkInstr inv b a d s = if gr s d ≠ 0 ∧ !isBarrierGpa u (gr s d).toNat then .trap .busFault (gr s d) u
      else if l.isEmpty then .ok () (retire 4 (sendArrive (gr s d).toNat false u))
      else if walkerFull u (colOf u.curCore) || l.any fun p => walkerFull u (walkerCol u p.1) then .hold (stall .queue u)
      else if gr s d = 0 then .hold (park (.walker u.nextId) (queuePieces inv (gr s d) u.nextId l u.fresh))
      else .ok () (retire 4 (queuePieces inv (gr s d) u.nextId l u.fresh)) := by
  unfold walkInstr
  rw [settled_of_fenced fenced]
  unfold walkSpanOf at walk
  dsimp only
  rw [walk]
  rfl

end

section
variable {s u : State} {i : Instr} {inv : Bool} {b a d : BitVec 5} {l : List Walked} (run : exec i s = finish (walkInstr inv b a d s)) (fenced : Fenced s)
  (walk : walkSpanOf s (gr s a).toNat (gr s b).toNat = (.ok (some l), u))

include walk in
theorem walk_touched : Touched s u := touched_walkSpanOf walk (by simp)

include walk in
theorem isBarrierGpa_walked (g : Nat) : isBarrierGpa u g = isBarrierGpa s g := by
  unfold isBarrierGpa
  rw [targetOf_congr s u (congrArg Fabric.dev (walk_touched walk).fabric :)]

include run fenced walk

omit run fenced in
theorem barrier_good (bar : gr s d = 0 ∨ isBarrierGpa s (gr s d).toNat = true) : ¬ (gr s d ≠ 0 ∧ (!isBarrierGpa u (gr s d).toNat) = true) := by
  rw [isBarrierGpa_walked walk]
  rintro ⟨some, bad⟩
  rw [bar.resolve_left some] at bad
  exact absurd bad (by decide)

/-- An empty span: its arrival is made at once (R278). -/
theorem walk_empty (bar : gr s d = 0 ∨ isBarrierGpa s (gr s d).toNat = true) (none : l = []) :
    ∃ t, exec i s = .next t ∧ GoesOn u t ((me s).pc + 4) ∧ (∀ r, gr t r = gr s r) ∧ (CoreStill u t ∧ NearRest u t) ∧
      (gr s d = 0 → t.net = u.net) ∧ (gr s d ≠ 0 → ∃ p, t.net = u.net ++ [p] ∧ p.kind = .barArrive ∧ p.gpa = (gr s d).toNat) := by
  have touched := walk_touched walk
  have same := touched.sameHart
  have good := barrier_good walk bar
  have retires (v : State) (h : SameHart u v) (cores : v.cores = u.cores) (mem : v.mem = u.mem)
      (machine : { v.kept with cols := u.cols, net := u.net, nextId := u.nextId, freeIdx := u.freeIdx } = u.kept) :
      GoesOn u (retire 4 v) ((me s).pc + 4) ∧ (∀ r, gr (retire 4 v) r = gr s r) ∧ (CoreStill u (retire 4 v) ∧ NearRest u (retire 4 v)) ∧ (retire 4 v).net = v.net := by
    obtain ⟨on, regs, -, rest⟩ := retire_plain h 4
    refine ⟨by rw [← same.hart]; exact on, fun r => (regs r).trans (by rw [gr, same.hart]; rfl), nearRest_moved cores mem ⟨h.core, h.slot⟩ machine rest, (congrArg State.net rest.machine :)⟩
  have go : exec i s = .next (retire 4 (sendArrive (gr s d).toNat false u)) := by
    rw [run, walkInstr_pieces fenced walk, if_neg good, none]
    rfl
  by_cases zero : gr s d = 0
  · have stays : sendArrive (gr s d).toNat false u = u := by rw [zero]; rfl
    rw [stays] at go
    obtain ⟨on, regs, rest, net⟩ := retires u ⟨rfl, rfl, rfl, rfl⟩ rfl rfl rfl
    exact ⟨_, go, on, regs, rest, fun _ => net, fun some => absurd zero some⟩
  · have gpa : (gr s d).toNat ≠ 0 := fun h => zero (BitVec.eq_of_toNat_eq h)
    obtain ⟨p, kind, place, sent⟩ : ∃ p : Pkt, p.kind = .barArrive ∧ p.gpa = (gr s d).toNat ∧ sendArrive (gr s d).toNat false u = sendPkt u p :=
      ⟨_, rfl, rfl, if_neg gpa⟩
    rw [sent] at go
    obtain ⟨on, regs, rest, net⟩ := retires (sendPkt u p) ⟨rfl, rfl, rfl, rfl⟩ rfl rfl rfl
    exact ⟨_, go, on, regs, rest, fun h => absurd h zero, fun _ => ⟨p, net, kind, place⟩⟩

/-- A full walker stalls the instruction, and one with room takes its pieces (R68). -/
theorem walk_queued (bar : gr s d = 0 ∨ isBarrierGpa s (gr s d).toNat = true) (some : l ≠ []) :
    let full : Bool := walkerFull u (colOf s.curCore) || l.any fun p => walkerFull u (walkerCol s p.1)
    let rest (t : State) : Prop := CoreStill u t ∧ NearRest u t
    (full = true → ∃ t, exec i s = .next t ∧ (me t).st = .stalled ∧ (me t).wait = .queue ∧ (me t).pc = (me s).pc ∧
      (∀ r, gr t r = gr s r) ∧ rest t ∧ t.net = u.net ∧ t.cols = u.cols) ∧
    (full = false → ∃ t, exec i s = .next t ∧
      (∀ c, (colAt t c).walker = (colAt u c).walker ++ (l.filter fun p => walkerCol s p.1 == c).map (queuedPiece s inv (gr s d) u.nextId)) ∧
      (∀ r, gr t r = gr s r) ∧ rest t ∧ t.net = u.net ∧
      (gr s d ≠ 0 → GoesOn u t ((me s).pc + 4)) ∧ (gr s d = 0 → ParksFor u t (.walker u.nextId))) := by
  intro full rest
  have touched := walk_touched walk
  have same := touched.sameHart
  have regs (r : BitVec 5) : gr u r = gr s r := by rw [gr, same.hart]; rfl
  have col (x : Nat) : walkerCol u x = walkerCol s x := by
    unfold walkerCol
    rw [targetOf_congr s u (congrArg Fabric.dev touched.fabric :), same.core]
  have piece : queuedPiece u.fresh inv (gr s d) u.nextId = queuedPiece s inv (gr s d) u.nextId := by
    funext p
    unfold queuedPiece
    rw [show (myCore u.fresh).job = (myCore s).job from touched.core_eq Core.job fun _ => rfl,
      show u.fresh.curCore = s.curCore from same.core, show u.fresh.curSlot = s.curSlot from same.slot]
  have go := run.trans (congrArg finish (walkInstr_pieces fenced walk))
  rw [if_neg (barrier_good walk bar), if_neg (by simpa using some), same.core] at go
  simp only [col] at go
  refine ⟨fun yes => ?_, fun no => ?_⟩
  · rw [if_pos yes] at go
    have now : me (stall .queue u) = { me u with st := .stalled, wait := .queue, since := if (me u).wait = .queue then (me u).since else u.clock } := by
      rw [stall, waitAs, me_updMe]
    have kept : RestKept u (stall .queue u) := by unfold stall waitAs; exact restKept_updMe _ _
    refine ⟨_, go, by rw [now], by rw [now], by rw [now, same.hart], fun r => ?_, nearRest_moved rfl rfl ⟨rfl, rfl⟩ rfl kept, rfl, rfl⟩
    rw [gr, now, ← regs]; rfl
  · rw [if_neg fun yes => Bool.false_ne_true (no.symm.trans yes)] at go
    obtain ⟨cols, form, walkers⟩ := queuePieces_form inv (gr s d) u.nextId l u.fresh
    rw [form] at go
    rw [piece] at walkers
    obtain ⟨v, hv⟩ : ∃ v : State, v = { u.fresh with cols := cols } := ⟨_, rfl⟩
    rw [← hv] at go
    have walkers' (c : Fin 8) : (colAt v c).walker = (colAt u c).walker ++ (l.filter fun p => walkerCol s p.1 == c).map (queuedPiece s inv (gr s d) u.nextId) := by
      rw [hv]
      refine (walkers c).trans (congrArg (fun f : Walked → Bool => (colAt u c).walker ++ (l.filter f).map _) (funext fun p => ?_))
      exact congrArg (· == c) (col p.1)
    have cores : v.cores = u.cores := by rw [hv]; rfl
    have mem : v.mem = u.mem := by rw [hv]; rfl
    have machine : { v.kept with cols := u.cols, net := u.net, nextId := u.nextId, freeIdx := u.freeIdx } = u.kept := by rw [hv]; rfl
    have here : SameHart u v := by rw [hv]; exact ⟨rfl, rfl, rfl, rfl⟩
    have net : v.net = u.net := by rw [hv]; rfl
    by_cases zero : gr s d = 0
    · rw [if_pos zero] at go
      have parks := parksFor_park (.walker u.nextId) v
      have kept := restKept_park (.walker u.nextId) v
      refine ⟨_, go, fun c => (congrArg (fun x : State => (x.cols.get c).walker) kept.machine :).trans (walkers' c), fun r => ?_, nearRest_moved cores mem ⟨here.core, here.slot⟩ machine kept, net, fun some => absurd zero some, fun _ => ?_⟩
      · rw [parks.regs, ← regs, gr, here.hart]; rfl
      · exact ⟨parks.parked, parks.wait, parks.pc.trans (congrArg Hart.pc here.hart), fun r => (parks.regs r).trans (by rw [gr, here.hart]; rfl),
          parks.kept.trans (by rw [here.hart]), parks.count.trans here.count⟩
    · rw [if_neg zero] at go
      obtain ⟨on, regs', -, kept⟩ := retire_plain here 4
      exact ⟨_, go, fun c => (congrArg (fun x : State => (x.cols.get c).walker) kept.machine :).trans (walkers' c), fun r => (regs' r).trans (regs r),
        nearRest_moved cores mem ⟨here.core, here.slot⟩ machine kept, (congrArg State.net kept.machine :).trans net,
        fun _ => by rw [← same.hart]; exact on, fun h => absurd h zero⟩

end

/-- A trap of a walker instruction. -/
theorem walk_traps {s u : State} {i : Instr} {c : Cause} {x : BitVec 64} (touched : Touched s u) (fenced : Fenced s) (run : exec i s = finish (.trap c x u))
    (nf : freezing s s.curCore c = false) : ∃ t, exec i s = .next t ∧ Entered u t c x false ∧ (CoreStill u t ∧ NearRest u t) ∧ t.net = u.net := by
  have nf' : freezing u u.curCore c = false := (touched.freezing c).trans nf
  have kept : RestKept u (takeTrap c x false u) := by rw [takeTrap_eq _ _ _ _ nf']; exact restKept_updMe _ _
  exact ⟨_, run.trans (finish_trap c x u (touched.settled (settled_of_fencedCore fenced))), entered_takeTrap c x false u nf',
    nearRest_moved rfl rfl ⟨rfl, rfl⟩ rfl kept, (congrArg State.net kept.machine :)⟩

/-- Settles O41: `waycfg` by what it is asked and by the state of its request, the walker's instructions by their span. -/
theorem wayAndWalkerRequests : Obligations.WayAndWalkerRequests := by
  unfold Obligations.WayAndWalkerRequests
  refine ⟨fun s a d alone => ?_, fun s u b a d fenced => ?_⟩
  · intro q x na nb i legal asked changes hart core answers
    have lawful (ok : legal = true) : ¬ (16 < na ∨ 16 < nb ∨ 16 < na + nb ∨ x ≠ na + 256 * nb) := by
      obtain ⟨few, whole⟩ := Bool.and_eq_true_iff.1 ok
      have := of_decide_eq_true few
      have := beq_iff_eq.1 whole
      omega
    refine ⟨fun wants slot => exec_waycfg_handler alone wants slot, fun wants slot bad => ?_, fun wants slot ok same same' => ?_, fun wants slot ok other => ?_,
      fun r l waits head own free => ⟨fun fresh steady => ?_, fun began quiet lines nobody _ => ?_⟩⟩
    · have unlawful : 16 < na ∨ 16 < nb ∨ 16 < na + nb ∨ x ≠ na + 256 * nb := by
        rcases Bool.and_eq_false_iff.1 bad with many | part
        · have := of_decide_eq_false many
          omega
        · exact .inr (.inr (.inr (beq_eq_false_iff_ne.1 part)))
      exact ⟨_, (exec_waycfg alone wants slot).trans (congrArg finish (if_pos unlawful)), waycfg_answered s d 1⟩
    · exact ⟨_, (exec_waycfg alone wants slot).trans (congrArg finish ((if_neg (lawful ok)).trans (if_pos ⟨same, same'⟩))), waycfg_answered s d 0⟩
    · refine ⟨_, (exec_waycfg alone wants slot).trans (congrArg finish ((if_neg (lawful ok)).trans (if_neg ?_))), waycfg_queued s _⟩
      rintro ⟨same, same'⟩
      exact other.elim (fun h => h same) fun h => h same'
    · refine ⟨_, exec_waycfg_begins waits head own free fresh steady, congrArg Core.wayReqs (myCore_updMyCore _ _), ?_, ?_, othersKept_updMyCore _ _ rfl, rfl⟩
      · rw [myCore_updMyCore]; rfl
      · exact me_updMyCore_of_harts _ _ rfl
    · have changed : Rewayed s.curCore na nb s (applyWays s.curCore na nb s) := applyWays_done lines nobody
      exact ⟨_, exec_waycfg_done alone waits head own free began quiet, waycfg_done d changed⟩
  · intro bar p4 piece rest full does
    have both (i : Instr) (inv : Bool) (run : exec i s = finish (walkInstr inv b a d s)) : does i inv := by
      refine ⟨fun l walk => ⟨fun good => ⟨fun none => walk_empty run fenced walk good none, fun some => (walk_queued run fenced walk good some).1,
        fun some => (walk_queued run fenced walk good some).2⟩, fun some bad nf => ?_⟩, fun c x walk nf => ?_⟩
      · refine walk_traps (walk_touched walk) fenced (run.trans (congrArg finish ((walkInstr_pieces fenced walk).trans (if_pos ⟨some, ?_⟩)))) nf
        rw [isBarrierGpa_walked walk, bad]; rfl
      · exact walk_traps (touched_walkSpanOf walk (by simp)) fenced (run.trans (congrArg finish (walkInstr_error fenced walk))) nf
    exact ⟨both _ _ rfl, both _ _ rfl⟩

end Sys2Proof.Machine
end

section
/-!
PROOFS. `migrate` of another core to the issuing one (R418); obligation O46.
-/

namespace Sys2Proof.Machine

set_option Elab.async false

/-- A core whose slot 0 is IDLE at system level, with 1 in g1. -/
def idleCaller : Core := Core.reset.setHart 0 (Hart.reset.setG 1 1)

/-- A machine whose core 1 runs job 1, all its slots at rest; the issuing slot of core 0 is IDLE. -/
def restingCaller : State := { State.reset with cores := [(0, idleCaller), (1, { Core.reset with ctxjob := 1 })] }

theorem moveStatus_restingCaller : moveStatus restingCaller 1 0 = 0 := by decide

theorem stopped_restingCaller : coreStopped restingCaller 1 none = true := by decide

theorem homed_restingCaller : entriesHomed restingCaller 1 = true := by decide

theorem faultless_restingCaller : ((List.finRange 8).all fun k => (pendingFault restingCaller 1 k).isNone) = true := by decide

theorem fenced_restingCaller : Fenced restingCaller := fun vec => absurd vec (by decide)

/-- `migrate` of another core, stopped, moves it and goes on where it was issued (R418). -/
theorem migrate_moves {s : State} {a b d : BitVec 5} (sys : isSys s = true) (fenced : Fenced s)
    (other : ((gr s a).toNat % 2048 == s.curCore.val) = false) (ok : moveStatus s ((gr s a).toNat % 2048) ((gr s b).toNat % 2048) = 0)
    (stopped : coreStopped s ((gr s a).toNat % 2048) none = true)
    (still : (colAt s (colOf ((gr s b).toNat % 2048))).layerctl.getLsbD 2 = false) :
    exec (.migrate b a d) s = .next (done4 d 0 (resumeAll ((gr s b).toNat % 2048) (moveCore ((gr s a).toNat % 2048) ((gr s b).toNat % 2048) s))) := by
  show finish (ite _ _ _) = _
  rw [sys, Bool.not_true, if_neg Bool.false_ne_true, settled_of_fenced fenced, other, ok, if_neg (fun no => no rfl), if_neg Bool.false_ne_true,
    stopped, still]
  rfl

theorem pc_restingCaller : (hartAt (done4 0 0 (resumeAll 0 (moveCore 1 0 restingCaller))) 0 0).pc = 4 := by
  decide +kernel

/-- Refutes O46: `migrate` of core 1 to core 0, where it is issued in a slot that is IDLE, as every slot of the destination must be: it goes on
after the instruction in the slot that the moved hart has just taken, whose PC is then not the one it had. -/
theorem not_moves : ¬ Obligations.Moves := by
  unfold Obligations.Moves
  intro h
  obtain ⟨-, -, moves, -⟩ := h restingCaller 1 0 0 rfl fenced_restingCaller
  obtain ⟨t, run, -, -, -, -, -, -, -, -, -, pc, -⟩ := moves moveStatus_restingCaller (by decide) rfl rfl homed_restingCaller
    faultless_restingCaller
  have moved := Host.Outcome.next.inj ((migrate_moves (a := 1) (b := 0) (d := 0) rfl fenced_restingCaller (by decide) moveStatus_restingCaller
    stopped_restingCaller (by decide)).symm.trans run)
  have kept : (hartAt t 0 0).pc = 0 := pc 0 nofun
  rw [← moved] at kept
  exact absurd (kept.symm.trans pc_restingCaller) (by decide)

end Sys2Proof.Machine
end

section
/-!
PROOFS. The end of a launch record whose pool lies over core registers (R384); obligation O56.
-/

namespace Sys2Proof.Machine

set_option Elab.async false

/-- A record with one stage and no work left, one work unit live. -/
def lastUnit : LRec :=
  { LRec.idle with status := stRunning, snap := Vector.ofFn fun i => if i.val = 0 then 65536 else 0, live := 1 }

/-- Job 0 with a pool whose record 1 has its LIVE field at the alias of core 1's CTXJOB (R363, R370). -/
def aliasJob : JobEnt :=
  { job := 0, pool := 0x1F00000A010 - 48 - 256, pooln := 2, qarea := 0, rdir := 0, recs := [(1, lastUnit)], rcache := [] }

/-- A core whose slot 0 runs record 1. -/
def recordCore : Core := Core.reset.setHart 0 { Hart.reset with hasRec := true, lrec := 1 }

/-- A machine whose core 0 runs record 1 of job 0, core 1 being bound to its stage. -/
def aliased : State :=
  { State.reset with
    cores := [(0, recordCore), (1, { Core.reset with ctxjob := 1#64 <<< 36, bound := true })]
    dist := { State.reset.dist with jobs := [aliasJob] } }

theorem fenced_aliased : Fenced aliased := fun vec => absurd vec (by decide)

theorem covered_aliased : covered aliased 6 = true := by decide

theorem stageCores_aliased : stageCores aliased (myCore aliased).job (me aliased).lrec.toNat 0 = [1] := by decide

/-- Whether core 1 is bound after an outcome. -/
def coreOneBound : Out → Bool
  | .next t => (coreAt t 1).bound
  | _ => false

/-- LIVE := 0 clears the LREC field of core 1's CTXJOB, so that the record's end no longer finds that core in its stage. -/
theorem coreOneBound_aliased : coreOneBound (execEndI aliased) = true := by decide +kernel

/-- Refutes O56: the END that empties a running record writes LIVE in a pool that lies over the alias of another core's CTXJOB; the core is
then no longer found in the record's stage and stays bound. -/
theorem not_distributorEvents : ¬ Obligations.DistributorEvents := by
  unfold Obligations.DistributorEvents
  intro h
  obtain ⟨-, ⟨-, -, -, -, -, ends⟩, -⟩ := h
  obtain ⟨t, run, -, -, unbound⟩ := ends aliased (by decide) fenced_aliased covered_aliased rfl rfl rfl rfl rfl (by decide) rfl
    (by decide)
  have free := (unbound 0 1 (by decide) (stageCores_aliased ▸ List.mem_singleton_self 1)).1
  have bound := coreOneBound_aliased
  rw [show execEndI aliased = .next t from run] at bound
  exact Bool.false_ne_true (free.symm.trans bound)

end Sys2Proof.Machine
end

section
/-!
PROOFS. The outer products in a column that has tripped (R340 to R342, R468); obligation O35.
-/

namespace Sys2Proof.Machine

set_option Elab.async false

/-- No operand buffer fills in a column that has tripped. -/
theorem operandBufferFull_tripped {s : State} {c : Nat} (hc : c < 2048) (tripped : (colAt s (colOf c)).tripped = true) :
    exec (.operandBufferFull c) s = .next s := by
  show execOperandBufferFull c s = _
  unfold execOperandBufferFull
  rw [if_neg (Nat.not_le.2 hc)]
  cases (coreAt s c).vec.dtu.find? fun d => !d.full with
  | none => rfl
  | some d => exact if_pos (by rw [tripped, Bool.true_or])

/-- No accumulation ends in a column that has tripped. -/
theorem accumulationEnd_tripped {s : State} {c : Nat} (hc : c < 2048) (tripped : (colAt s (colOf c)).tripped = true) :
    exec (.accumulationEnd c) s = .next s := by
  show execAccumulationEnd c s = _
  unfold execAccumulationEnd
  rw [if_neg (Nat.not_le.2 hc)]
  split
  · rfl
  · split
    · exact if_pos (by rw [tripped, Bool.true_or])
    · rfl

/-- A core of job 1 in matrix mode whose slot 0 is the vector hart, all its ways banks of f32. -/
def tileCore : Core :=
  { Core.reset with
    ctxjob := 1, nbank := 16, bfmt := Vector.replicate 16 0
    vec := { Vec.reset with bound := true, slot := 0, mstat := 1#64 <<< 63 } }

/-- A machine whose core 0 is such a core, commands being queued, in a column that has tripped. -/
def trippedTile : State :=
  { State.reset with
    cores := [(0, tileCore)], vqueue := true, cols := State.reset.cols.map fun c => { c with tripped := true } }

theorem opCheck_trippedTile : opCheck trippedTile 0 0 0 = none := by decide

theorem cmdHeld_trippedTile : cmdHeld trippedTile = false := by decide +kernel

/-- Whether an outcome leaves the issuing hart at address 0, in a column that has tripped. -/
def stuck : Out → Bool
  | .next t => (colAt t (colOf 0)).tripped && (me t).pc == 0
  | _ => false

theorem stuck_mopa : stuck (execMopa 0 0 trippedTile) = true := by decide +kernel

/-- Refutes O35: in a column that has tripped the operand buffer of a queued `mopa` never fills, and its hart does not go on. -/
theorem not_tileResults : ¬ Obligations.TileResults := by
  unfold Obligations.TileResults
  intro h
  obtain ⟨-, outer⟩ := h
  obtain ⟨⟨done, -⟩, -⟩ := outer trippedTile 0 0 0 rfl cmdHeld_trippedTile (by decide) (by decide) opCheck_trippedTile
  obtain ⟨t, comes, rest, -⟩ := done (by decide) fun _ => ⟨rfl, rfl⟩
  obtain ⟨u, v, issue, fill, finish⟩ := (if_pos rfl : outerComes (.mopa 0 0) trippedTile t = _).mp comes
  have stays := stuck_mopa
  rw [show execMopa 0 0 trippedTile = .next u from issue] at stays
  obtain ⟨tripped, pc⟩ := Bool.and_eq_true_iff.1 stays
  obtain rfl : u = v := Host.Outcome.next.inj ((operandBufferFull_tripped (by decide) tripped).symm.trans fill)
  obtain rfl : u = t := Host.Outcome.next.inj ((accumulationEnd_tripped (by decide) tripped).symm.trans finish)
  exact absurd ((eq_of_beq pc).symm.trans rest.on.pc) (by decide)

end Sys2Proof.Machine
end

section
/-!
PROOFS. Matrix mode (R145, R332 to R334): `mmode`, `mzero`, `mtree`, and the traps of the tile commands.
-/

namespace Sys2Proof.Machine

set_option Elab.async false

/-! ## A machine in which only the issuing core has changed -/

/-- t is s with q in place of the issuing core. -/
structure Became (s t : State) (q : Core) : Prop where
  mine : myCore t = q
  cores : ∀ c, c ≠ s.curCore.val → coreAt t c = coreAt s c
  machine : t.kept = s.kept

theorem became_self (s : State) : Became s s (myCore s) := ⟨rfl, fun _ _ => rfl, rfl⟩

theorem Became.curCore {s t : State} {q : Core} (h : Became s t q) : t.curCore = s.curCore := (congrArg State.curCore h.machine :)
theorem Became.curSlot {s t : State} {q : Core} (h : Became s t q) : t.curSlot = s.curSlot := (congrArg State.curSlot h.machine :)
theorem Became.mem {s t : State} {q : Core} (h : Became s t q) : t.mem = s.mem := (congrArg State.mem h.machine :)

theorem Became.me {s t : State} {q : Core} (h : Became s t q) : me t = q.harts.get s.curSlot := by
  rw [me_eq, h.mine, h.curSlot]

theorem Became.updMyCore {s t : State} {q : Core} (h : Became s t q) (f : Core → Core) : Became s (updMyCore t f) (f q) where
  mine := (myCore_updMyCore t f).trans (congrArg f h.mine)
  cores c hc := (coreAt_updCore_ne _ _ _ _ (h.curCore ▸ hc)).trans (h.cores c hc)
  machine := h.machine

theorem Became.updMe {s t : State} {q : Core} (h : Became s t q) (f : Hart → Hart) :
    Became s (updMe t f) (q.setHart s.curSlot (f (q.harts.get s.curSlot))) where
  mine := by rw [myCore_updMe, h.mine, h.me, h.curSlot]
  cores c hc := (coreAt_updCore_ne _ _ _ _ (h.curCore ▸ hc)).trans (h.cores c hc)
  machine := h.machine

theorem Became.retireAt {s t : State} {q : Core} (h : Became s t q) (p : BitVec 48) :
    Became s (retireAt p t) (q.counted s.curSlot ((q.harts.get s.curSlot).retired p)) := by
  have := h.updMyCore fun r => r.counted s.curSlot ((q.harts.get s.curSlot).retired p)
  rwa [retireAt_eq, h.curSlot, h.me]

/-- The match against the replay record changes what the record keeps of its progress only (R401). -/
theorem replay_form (h : Hart) (gl : Nat) : ∃ x r l, (h.replay gl).2 = { h with xconv := x, replayed := r, shadow := l } := by
  have count : ∀ (h : Hart) n, ∃ x r l, h.withCount n = { h with xconv := x, replayed := r, shadow := l } := by
    intro h n
    unfold Hart.withCount
    split
    · exact ⟨_, h.replayed, h.shadow, rfl⟩
    · split
      · exact ⟨h.xconv, _, _, rfl⟩
      · exact ⟨h.xconv, h.replayed, _, rfl⟩
  simp only [Hart.replay]
  split
  · exact ⟨h.xconv, h.replayed, h.shadow, rfl⟩
  · split
    · exact ⟨h.xconv, 1, h.shadow, rfl⟩
    · split
      · next k _ => exact count { h with replayed := k + 2 } _
      · exact count h 0

@[simp] theorem replay_pc (h : Hart) (gl : Nat) : (h.replay gl).2.pc = h.pc := by
  obtain ⟨x, r, l, e⟩ := replay_form h gl; rw [e]
@[simp] theorem replay_st (h : Hart) (gl : Nat) : (h.replay gl).2.st = h.st := by
  obtain ⟨x, r, l, e⟩ := replay_form h gl; rw [e]
@[simp] theorem replay_gr (h : Hart) (gl : Nat) (d : BitVec 5) : (h.replay gl).2.gr d = h.gr d := by
  obtain ⟨x, r, l, e⟩ := replay_form h gl; rw [e]; rfl
@[simp] theorem replay_vecKept (h : Hart) (gl : Nat) : (h.replay gl).2.vecKept = h.vecKept := by
  obtain ⟨x, r, l, e⟩ := replay_form h gl; rw [e]; rfl
@[simp] theorem retired_vecKept (p : BitVec 48) (h : Hart) : (h.retired p).vecKept = h.vecKept := rfl
theorem setG_vecKept (h : Hart) (d : BitVec 5) (v : BitVec 64) : (h.setG d v).vecKept = h.vecKept := by
  unfold Hart.setG; split <;> rfl

/-- A hart that has gone on over an instruction of four bytes from r, with the registers of r. -/
structure WentOn (h r : Hart) : Prop where
  pc : r.pc = h.pc + 4
  ready : h.st = .ready → r.st = .ready
  kept : r.vecKept = h.vecKept

/-- The issuing hart after its replay record moved on and the instruction retired. -/
theorem wentOn_replayed (h : Hart) (gl : Nat) (p : BitVec 48) (hp : p = h.pc + 4) : WentOn h ((h.replay gl).2.retired p) where
  pc := hp
  ready hr := by simp [Hart.retired, Hart.goOn, hr]
  kept := by simp

theorem Became.slots {s t : State} {q : Core} {h : Hart} (b : Became s t (q.counted s.curSlot h)) (hq : q.harts = (myCore s).harts)
    (k : Fin 8) (hk : k ≠ s.curSlot) : hartAt t s.curCore k = hartAt s s.curCore k := by
  have e : hartAt t s.curCore k = (myCore t).harts.get k := by rw [myCore, b.curCore]; rfl
  rw [e, b.mine]
  exact (vec_get_set_ne _ _ _ _ hk).trans (congrArg (·.get k) hq)

/-- A machine whose issuing core kept its harts, its rows and all else but what a vector command may change, once its instruction has
gone on. -/
theorem Became.vecRest {s t : State} {q : Core} {h : Hart} (b : Became s t (q.counted s.curSlot h)) (hq : q.harts = (myCore s).harts)
    (hk : q.vecKept = (myCore s).vecKept) (hv : q.vec.v = (myCore s).vec.v) (hh : h.vecKept = (Machine.me s).vecKept) (p : Nat → Prop) :
    VecRest s t p where
  cores c := by
    by_cases hc : c = s.curCore.val
    · subst hc
      have e : coreAt t s.curCore = q.counted s.curSlot h := by rw [← b.mine, myCore, b.curCore]
      rw [e]; exact hk
    · rw [b.cores c hc]
  counts c hc := congrArg Core.instret (b.cores c hc)
  others c k hck := by
    by_cases hc : c = s.curCore.val
    · subst hc; exact b.slots hq k (hck.resolve_left fun n => n rfl)
    · exact congrArg (fun x : Core => x.harts.get k) (b.cores c hc)
  hart := by rw [b.me, counted_get, hh]
  regs l r _ := by
    have key : ∀ c, (coreAt t c).lanes = (coreAt s c).lanes ∧ (coreAt t c).vec.v = (coreAt s c).vec.v := by
      intro c
      by_cases hc : c = s.curCore.val
      · subst hc
        have e : coreAt t s.curCore = q.counted s.curSlot h := by rw [← b.mine, myCore, b.curCore]
        rw [e]
        exact ⟨(congrArg Core.lanes hk :), hv⟩
      · rw [b.cores c hc]; exact ⟨rfl, rfl⟩
    unfold laneWord laneCore
    rw [(key _).1, (key _).2]
  memory a := congrArg (fun m => memGet m a) b.mem
  machine := b.machine

theorem Became.goesOn {s t : State} {q : Core} {h : Hart} (b : Became s t (q.counted s.curSlot h)) (hi : q.instret = (myCore s).instret)
    (w : WentOn (Machine.me s) h) : GoesOn s t ((Machine.me s).pc + 4) where
  pc := by rw [b.me, counted_get, w.pc]
  ready hr := by rw [b.me, counted_get, w.ready hr]
  count := by rw [b.mine, counted_instret, hi]

theorem Became.gr {s t : State} {q : Core} {h : Hart} (b : Became s t (q.counted s.curSlot h)) (d : BitVec 5) : gr t d = h.gr d := by
  rw [Machine.gr, b.me, counted_get]

/-! ## The tile -/

/-- A core with another tile and MSTAT. -/
def Core.tiled (q : Core) (a : Tab (BitVec 32)) (m : BitVec 64) : Core := { q with vec := { q.vec with acc := a, mstat := m } }

/-- s but for the tile and MSTAT of the issuing core, which are a and m. -/
abbrev Tiled (s t : State) (a : Tab (BitVec 32)) (m : BitVec 64) : Prop := Became s t ((myCore s).tiled a m)

theorem tiled_self (s : State) : Tiled s s (myCore s).vec.acc (myCore s).vec.mstat := became_self s

/-- A cell of the tile written. -/
def cellPut (a : Tab (BitVec 32)) (k : Nat) (x : BitVec 32) : Tab (BitVec 32) := if x = 0 then tabDel a k else tabPut a k x

theorem Tiled.accPut {s t : State} {a : Tab (BitVec 32)} {m : BitVec 64} (h : Tiled s t a m) (i j : Nat) (x : BitVec 32) :
    Tiled s (accPut i j x t) (cellPut a (64 * i + j) x) m := h.updMyCore _

theorem Tiled.setMsat {s t : State} {a : Tab (BitVec 32)} {m : BitVec 64} (h : Tiled s t a m) (b : Bool) :
    Tiled s (setMsat b t) a (m ||| if b then 1#64 <<< 32 else 0) := by
  unfold Machine.setMsat
  cases b with
  | true => exact h.updMyCore _
  | false => simpa using h

theorem Tiled.accGet {s t : State} {a : Tab (BitVec 32)} {m : BitVec 64} (h : Tiled s t a m) (i j : Nat) :
    accGet t i j = tabGet 0 a (64 * i + j) := by
  rw [Machine.accGet, h.mine]; rfl

theorem Tiled.updMe_retire {s t : State} {a : Tab (BitVec 32)} {m : BitVec 64} (h : Tiled s t a m) (f : Hart → Hart) (p : BitVec 48) :
    Became s (retireAt p (updMe t f)) (((myCore s).tiled a m).counted s.curSlot ((f (me s)).retired p)) := by
  have b := (h.updMe f).retireAt p
  rw [counted_setHart, setHart_get_self] at b
  exact b

/-- A tile command that has given the tile and MSTAT and gone on. -/
theorem tileRest_of {s t : State} {a : Tab (BitVec 32)} {m : BitVec 64} {h : Hart}
    (b : Became s t (((myCore s).tiled a m).counted s.curSlot h)) (w : WentOn (me s) h) : TileRest s t where
  on := b.goesOn rfl w
  rest := b.vecRest rfl rfl rfl w.kept _
  vec := by rw [b.mine]; rfl

/-! ## Cells written one after the other -/

theorem tabGet_tabDel {α : Type} (d : α) (k i : Nat) : ∀ t : Tab α, tabGet d (tabDel t k) i = if i = k then d else tabGet d t i
  | [] => by simp [tabDel, tabGet]
  | (j, w) :: t => by
    have ih := tabGet_tabDel d k i t
    unfold tabDel at ih ⊢
    by_cases hj : j = k
    · subst hj
      rw [List.filter_cons_of_neg (by simp), ih]
      by_cases hi : i = j
      · rw [if_pos hi, if_pos hi]
      · rw [if_neg hi, if_neg hi, tabGet, if_neg (Ne.symm hi)]
    · rw [List.filter_cons_of_pos (by simpa using hj), tabGet, tabGet, ih]
      by_cases hi : j = i
      · subst hi; rw [if_pos rfl, if_neg hj, if_pos rfl]
      · rw [if_neg hi, if_neg hi]

theorem tabGet_cellPut (a : Tab (BitVec 32)) (k i : Nat) (x : BitVec 32) : tabGet 0 (cellPut a k x) i = if i = k then x else tabGet 0 a i := by
  unfold cellPut
  split
  · next h => rw [tabGet_tabDel, h]
  · rw [tabGet_tabPut]

/-- A run over distinct cells of the tile, where each step gives its cell a new value of the one it held, and MSAT, and changes nothing
else. -/
theorem tiled_foldl {α : Type} (key : α → Nat) (new : α → BitVec 32 → BitVec 32 × Bool) (step : State → α → State) {s : State}
    (one : ∀ u a m x, Tiled s u a m →
      Tiled s (step u x) (cellPut a (key x) (new x (tabGet 0 a (key x))).1) (m ||| if (new x (tabGet 0 a (key x))).2 then 1#64 <<< 32 else 0)) :
    ∀ (l : List α) (u : State) (a : Tab (BitVec 32)) (m : BitVec 64), (l.map key).Nodup → Tiled s u a m →
      ∃ a', Tiled s (l.foldl step u) a' (m ||| if l.any fun x => (new x (tabGet 0 a (key x))).2 then 1#64 <<< 32 else 0) ∧
        (∀ x ∈ l, tabGet 0 a' (key x) = (new x (tabGet 0 a (key x))).1) ∧ ∀ k, k ∉ l.map key → tabGet 0 a' k = tabGet 0 a k
  | [], u, a, m, _, h => ⟨a, by simpa using h, by simp, fun _ _ => rfl⟩
  | x :: l, u, a, m, nd, h => by
    obtain ⟨fresh, nd⟩ := List.nodup_cons.mp (by simpa only [List.map_cons] using nd)
    obtain ⟨a', h', hin, hout⟩ := tiled_foldl key new step one l _ _ _ nd (one u a m x h)
    have ne : ∀ y ∈ l, key y ≠ key x := fun y hy e => fresh (e ▸ List.mem_map_of_mem hy)
    have same : ∀ y ∈ l, tabGet 0 (cellPut a (key x) (new x (tabGet 0 a (key x))).1) (key y) = tabGet 0 a (key y) := fun y hy => by
      rw [tabGet_cellPut, if_neg (ne y hy)]
    refine ⟨a', ?_, fun y hy => ?_, fun k hk => ?_⟩
    · have any : (l.any fun y => (new y (tabGet 0 (cellPut a (key x) (new x (tabGet 0 a (key x))).1) (key y))).2) =
          l.any fun y => (new y (tabGet 0 a (key y))).2 := by
        rw [Bool.eq_iff_iff, List.any_eq_true, List.any_eq_true]
        constructor
        · rintro ⟨y, hy, e⟩; exact ⟨y, hy, by rwa [same y hy] at e⟩
        · rintro ⟨y, hy, e⟩; exact ⟨y, hy, by rwa [same y hy]⟩
      rw [any] at h'
      have or : ∀ b c : Bool, m ||| (if b then 1#64 <<< 32 else 0) ||| (if c then 1#64 <<< 32 else 0) = m ||| if b || c then 1#64 <<< 32 else 0 := by
        intro b c; cases b <;> cases c <;> simp [BitVec.or_assoc]
      rw [or, ← List.any_cons (f := fun y => (new y (tabGet 0 a (key y))).2)] at h'
      exact h'
    · rcases List.mem_cons.mp hy with rfl | hy
      · rw [hout _ fresh, tabGet_cellPut, if_pos rfl]
      · rw [hin y hy, same y hy]
    · obtain ⟨hx, hl⟩ := not_or.mp (mt List.mem_cons.mpr (by simpa only [List.map_cons] using hk))
      rw [hout k hl, tabGet_cellPut, if_neg hx]

theorem mem_tileCells {n : Nat} {p : Nat × Nat} : p ∈ tileCells n ↔ p.1 < n ∧ p.2 < n := by
  unfold tileCells
  simp only [List.mem_map, List.mem_range]
  constructor
  · rintro ⟨k, hk, rfl⟩
    have hn : 0 < n := Nat.pos_of_ne_zero fun e => by simp [e] at hk
    exact ⟨(Nat.div_lt_iff_lt_mul hn).mpr hk, Nat.mod_lt _ hn⟩
  · rintro ⟨hi, hj⟩
    have hn : 0 < n := by omega
    refine ⟨n * p.1 + p.2, ?_, ?_⟩
    · calc n * p.1 + p.2 < n * p.1 + n := by omega
        _ = n * (p.1 + 1) := by ring
        _ ≤ n * n := Nat.mul_le_mul_left _ hi
    · rw [Nat.mul_add_div hn, Nat.div_eq_of_lt hj, Nat.mul_add_mod, Nat.mod_eq_of_lt hj]; rfl

/-- The tile has at most 64 columns, so each cell has a place of its own. -/
theorem nodup_cellKeys {n : Nat} (hn : n ≤ 64) : ((tileCells n).map fun p => 64 * p.1 + p.2).Nodup := by
  unfold tileCells
  rw [List.map_map]
  refine List.Nodup.map_on (fun x hx y hy e => ?_) List.nodup_range
  have hp : 0 < n := Nat.pos_of_ne_zero fun z => by simp [z] at hx
  have hx2 := Nat.mod_lt x hp
  have hy2 := Nat.mod_lt y hp
  have e : 64 * (x / n) + x % n = 64 * (y / n) + y % n := e
  have hq : x / n = y / n := by omega
  have hr : x % n = y % n := by omega
  rw [← Nat.div_add_mod x n, ← Nat.div_add_mod y n, hq, hr]

theorem cellKey_inj {i j i' j' : Nat} (hj : j < 64) (hj' : j' < 64) (h : 64 * i + j = 64 * i' + j') : i = i' ∧ j = j' := by omega

/-! ## Commands that run -/

theorem tileReady_iff {s : State} (h : tileReady s = true) : isVecHart s = true ∧ (myCore s).quiet = true ∧ cmdHeld s = false := by
  simpa [tileReady, and_assoc] using h

theorem tileCmd_ready {s : State} (h : tileReady s = true) (need : Bool) (word : BitVec 64) (k : State → State)
    (mm : (need && !(myCore s).mm) = false) : tileCmd need word s k = .next (k s) := by
  obtain ⟨vec, quiet, free⟩ := tileReady_iff h
  simp [tileCmd, vec, quiet, free, mm]

/-- A tile command that has changed the tile and MSTAT retires. -/
theorem tileRetire {s u : State} {a : Tab (BitVec 32)} {m : BitVec 64} (h : Tiled s u a m) :
    let t := retire 4 (takeReplay u)
    TileRest s t ∧ (∀ r, gr t r = gr s r) ∧ (myCore t).vec.mstat = m ∧ ∀ i j, accGet t i j = tabGet 0 a (64 * i + j) := by
  intro t
  have me : me u = me s := h.me
  have b := h.updMe_retire (fun x => (x.replay (myCore u).glanes).2) ((Machine.me s).pc + 4)
  have e : t = retireAt ((Machine.me s).pc + 4) (updMe u fun x => (x.replay (myCore u).glanes).2) := by
    show retireAt ((Machine.me (updMe u _)).pc + 4) _ = _
    rw [me_updMe, replay_pc, me]; rfl
  rw [← e] at b
  refine ⟨tileRest_of b (wentOn_replayed _ _ _ rfl), fun r => ?_, by rw [b.mine]; rfl, fun i j => by rw [accGet, b.mine]; rfl⟩
  rw [b.gr, gr_retired, replay_gr, gr]

/-! ## `mmode` (R332) -/

/-- What `mmode` makes of MSTAT. -/
def mmodeStat (m v : BitVec 64) : BitVec 64 :=
  if v = 0 then setBits (setBits m 0 63 63) 0 6 0 else if v.toNat % 8 = 0 ∧ v.toNat ≤ 64 then setBits (m ||| (1#64 <<< 63)) v 6 0 else m

theorem mmodeStat_rest (m v : BitVec 64) : mmodeStat m v &&& 0x7FFFFFFFFFFFFF80 = m &&& 0x7FFFFFFFFFFFFF80 := by
  unfold mmodeStat
  split
  · simp [setBits, BitVec.and_assoc]
  · split
    · simp only [setBits]
      ext i hi
      simp only [BitVec.getElem_and, BitVec.getElem_or, BitVec.getElem_not]
      interval_cases i <;> simp
    · rfl

theorem mmodeStat_legal (m v : BitVec 64) (h8 : v.toNat % 8 = 0) (h64 : v.toNat ≤ 64) :
    (mmodeStat m v).getLsbD 63 = decide (v ≠ 0) ∧ (mmodeStat m v).toNat % 128 = v.toNat := by
  have low : ∀ w : BitVec 64, (setBits w v 6 0).toNat % 128 = v.toNat := by
    intro w
    have e : (setBits w v 6 0).setWidth 7 = v.setWidth 7 := by
      ext i hi
      interval_cases i <;> simp [setBits]
    have := congrArg BitVec.toNat e
    simp only [BitVec.toNat_setWidth] at this
    omega
  unfold mmodeStat
  by_cases h0 : v = 0
  · subst h0
    rw [if_pos rfl]
    exact ⟨by simp [setBits], low _⟩
  · rw [if_neg h0, if_pos ⟨h8, h64⟩]
    exact ⟨by simpa [setBits] using h0, low _⟩

theorem execMmode_ready {s : State} (h : tileReady s = true) (a d : BitVec 5) :
    ∃ u, exec (.mmode a d) s = .next (done4 d (if (gr s a).toNat % 8 = 0 ∧ (gr s a).toNat ≤ 64 then 0 else 1) u) ∧
      Became s u (((myCore s).tiled (myCore s).vec.acc (mmodeStat (myCore s).vec.mstat (gr s a))).setHart s.curSlot
        ((me s).replay (myCore s).glanes).2) := by
  have stat : (myCore (takeReplay s)).vec.mstat = (myCore s).vec.mstat := by rw [takeReplay, myCore_updMe]; rfl
  refine ⟨updMyCore (takeReplay s) fun q => { q with vec := { q.vec with mstat := mmodeStat (myCore s).vec.mstat (gr s a) } }, ?_, ?_⟩
  · show execMmode a d s = _
    rw [execMmode, tileCmd_ready h false _ _ (Bool.false_and _)]
    refine congrArg Host.Outcome.next ?_
    simp only [stat, mmodeStat]
    by_cases h0 : gr s a = 0
    · rw [if_pos h0, if_pos h0, if_pos (by simp [h0])]
    · rw [if_neg h0, if_neg h0]
      by_cases hl : (gr s a).toNat % 8 = 0 ∧ (gr s a).toNat ≤ 64
      · rw [if_pos hl, if_pos hl, if_pos hl]
      · rw [if_neg hl, if_neg hl, if_neg hl]
  · exact ((became_self s).updMe _).updMyCore _

theorem mmode_results {s : State} (h : tileReady s = true) (a d : BitVec 5) :
    ∃ t, exec (.mmode a d) s = .next t ∧ TileRest s t ∧ Wrote s t d (if (gr s a).toNat % 8 = 0 ∧ (gr s a).toNat ≤ 64 then 0 else 1) ∧
      (myCore t).vec.acc = (myCore s).vec.acc ∧ (myCore t).vec.mstat = mmodeStat (myCore s).vec.mstat (gr s a) := by
  obtain ⟨u, run, b⟩ := execMmode_ready h a d
  generalize (if (gr s a).toNat % 8 = 0 ∧ (gr s a).toNat ≤ 64 then (0 : BitVec 64) else 1) = v at run ⊢
  have hart : me u = ((me s).replay (myCore s).glanes).2 := by rw [b.me, setHart_get_self]
  have b := (b.updMe fun x => x.setG d v).retireAt ((me s).pc + 4)
  rw [setHart_setHart, setHart_get_self, setHart_get_self, counted_setHart] at b
  have e : done4 d v u = retireAt ((me s).pc + 4) (updMe u fun x => x.setG d v) := by
    show retireAt ((me (updMe u _)).pc + 4) _ = _
    rw [me_updMe, setG_pc, hart, replay_pc]; rfl
  rw [← e] at b
  have went : WentOn (me s) (((((me s).replay (myCore s).glanes).2).setG d v).retired ((me s).pc + 4)) :=
    ⟨rfl, fun hr => by simp [Hart.retired, Hart.goOn, hr], by rw [retired_vecKept, setG_vecKept, replay_vecKept]⟩
  have regs : ∀ r, gr (done4 d v u) r = if r = d then (if d = 0 then 0 else v) else gr s r := by
    intro r
    rw [b.gr, gr_retired, gr_setG, replay_gr, gr]
  refine ⟨_, run, tileRest_of b went, ⟨by rw [regs, if_pos rfl], fun r hr => by rw [regs, if_neg hr]⟩, by rw [b.mine]; rfl, by rw [b.mine]; rfl⟩

/-! ## `mzero` and `mtree` (R333, R334) -/

section

variable {s : State} (ready : tileReady s = true) (mm : (myCore s).mm = true) (small : (myCore s).mvl ≤ 64)
include ready mm small

theorem mzero_results : ∃ t, exec .mzero s = .next t ∧ TileRest s t ∧ (∀ r, gr t r = gr s r) ∧ (myCore t).vec.mstat = (myCore s).vec.mstat ∧
    ∀ i j, i < 64 → j < 64 → accGet t i j = if i < (myCore s).mvl ∧ j < (myCore s).mvl then 0 else accGet s i j := by
  obtain ⟨a, tiled, inside, outside⟩ := tiled_foldl (fun p : Nat × Nat => 64 * p.1 + p.2) (fun _ _ => (0, false))
    (fun u p => accPut p.1 p.2 0 u) (s := s) (fun u a m x h => by simpa using h.accPut x.1 x.2 0) (tileCells (myCore s).mvl) s _ _
    (nodup_cellKeys small) (tiled_self s)
  obtain ⟨rest, regs, stat, cells⟩ := tileRetire tiled
  refine ⟨_, ?_, rest, regs, by rw [stat]; simp, fun i j hi hj => ?_⟩
  · show execMzero s = _
    rw [execMzero, tileCmd_ready ready true _ _ (by simp [mm])]
  rw [cells]
  by_cases h : i < (myCore s).mvl ∧ j < (myCore s).mvl
  · rw [if_pos h]; exact inside (i, j) (mem_tileCells.mpr h)
  · rw [if_neg h]
    refine outside _ fun hm => h ?_
    obtain ⟨p, hp, e⟩ := List.mem_map.mp hm
    obtain ⟨hp1, hp2⟩ := mem_tileCells.mp hp
    obtain ⟨rfl, rfl⟩ := cellKey_inj (by omega) hj e
    exact ⟨hp1, hp2⟩

/-- The tree of column j (R334). -/
def treeTop (s : State) (k : BitVec 1) (j : Nat) : BitVec 32 × Bool :=
  (pairTree (foldNode (k == 1)) 7 ((List.range (myCore s).mvl).map fun r => (accGet s r j, false))).headD (0, false)

theorem mtree_results (k : BitVec 1) : ∃ t, exec (.mtree k) s = .next t ∧ TileRest s t ∧ (∀ r, gr t r = gr s r) ∧
    (myCore t).vec.mstat = (myCore s).vec.mstat ||| (if (List.range (myCore s).mvl).any fun j => (treeTop s k j).2 then 1#64 <<< 32 else 0) ∧
    ∀ i j, i < 64 → j < 64 → accGet t i j = if i = 0 ∧ j < (myCore s).mvl then (treeTop s k j).1 else accGet s i j := by
  have keys : (((List.range (myCore s).mvl).map fun j => (j, treeTop s k j)).map fun x => 64 * 0 + x.1).Nodup := by
    rw [List.map_map]
    exact List.nodup_range.map fun x y e => by simpa using e
  obtain ⟨a, tiled, inside, outside⟩ := tiled_foldl (fun x : Nat × BitVec 32 × Bool => 64 * 0 + x.1) (fun x _ => x.2)
    (fun u x => setMsat x.2.2 (accPut 0 x.1 x.2.1 u)) (s := s) (fun u a m x h => (h.accPut 0 x.1 x.2.1).setMsat x.2.2) _ s _ _ keys (tiled_self s)
  obtain ⟨rest, regs, stat, cells⟩ := tileRetire tiled
  refine ⟨_, ?_, rest, regs, stat.trans ?_, fun i j hi hj => ?_⟩
  · show execMtree k s = _
    rw [execMtree, tileCmd_ready ready true _ _ (by simp [mm])]
    rfl
  · rw [List.any_map]; rfl
  · rw [cells]
    by_cases h : i = 0 ∧ j < (myCore s).mvl
    · obtain ⟨rfl, hj'⟩ := h
      rw [if_pos ⟨rfl, hj'⟩]
      exact inside (j, treeTop s k j) (List.mem_map_of_mem (List.mem_range.mpr hj'))
    · rw [if_neg h]
      refine outside _ fun hm => h ?_
      obtain ⟨p, hp, e⟩ := List.mem_map.mp hm
      obtain ⟨j', hj', rfl⟩ := List.mem_map.mp hp
      have hj' := List.mem_range.mp hj'
      obtain ⟨rfl, rfl⟩ := cellKey_inj (by omega) hj e
      exact ⟨rfl, hj'⟩

end

/-! ## Traps (R133, R145, R340) -/

/-- The word of a tile transfer, whose function number stands in three fields. -/
theorem ofNat_encodeWord_tile {i : Instr} {maj f t n : Nat} {b a d : BitVec 5} (hm : maj < 64) (hf : f < 32) (ht : t < 2) (hn : n < 16)
    (h : encodeFields i = [(1, 1), (6, maj), (5, d.toNat), (5, a.toNat), (5, b.toNat), (5, f), (1, t), (4, n)]) :
    BitVec.ofNat 64 (encodeWord i) = rWord maj (f + 32 * t + 64 * n) b a d := by
  refine congrArg (BitVec.ofNat 64) ?_
  have hd := d.isLt; have ha := a.isLt; have hb := b.isLt
  rw [encodeWord, h]
  simp only [pack]
  omega

/-- A trap of a dense-tile command with nothing outstanding (R340, R397). -/
theorem tileTrap_entered {i : Instr} {s : State} {c : Cause} {x : BitVec 64} (quiet : (myCore s).quiet = true)
    (run : exec i s = .next (tileTrap c x true s)) (nf : freezing s s.curCore c = false) :
    ∃ t, exec i s = .next t ∧ Entered s t c x true ∧ (myCore t).instret = (myCore s).instret ∧ RestKept s t := by
  have e : tileTrap c x true s = takeTrap c x true s := if_neg (by simp [quiet])
  refine ⟨_, run.trans (congrArg _ e), entered_takeTrap c x true s nf, ?_, ?_⟩
  · rw [takeTrap_eq c x true s nf, myCore_updMe]; rfl
  · rw [takeTrap_eq c x true s nf]; exact restKept_updMe s _

section

variable (s : State) (k : BitVec 1) (f b a d : BitVec 5)

theorem word_mmode : BitVec.ofNat 64 (encodeWord (.mmode a d)) = rWord 0x2C 0 0 a d :=
  ofNat_encodeWord_tile (f := 0) (t := 0) (n := 0) (b := 0) (by decide) (by decide) (by decide) (by decide) rfl
theorem word_mzero : BitVec.ofNat 64 (encodeWord .mzero) = rWord 0x2C 0x40 0 0 0 := rfl
theorem word_mtree : BitVec.ofNat 64 (encodeWord (.mtree k)) = rWord 0x2C (0x80 + 0x20 * k.toNat) 0 0 0 := by
  rw [ofNat_encodeWord_tile (i := .mtree k) (maj := 0x2C) (f := 0) (t := k.toNat) (n := 2) (b := 0) (a := 0) (d := 0)
    (by decide) (by decide) k.isLt (by decide) rfl]
  congr 1; omega
theorem word_mrd : BitVec.ofNat 64 (encodeWord (.mrd k f b a d)) = rWord 0x2C (0xC0 + 0x20 * k.toNat + f.toNat) b a d := by
  rw [ofNat_encodeWord_tile (i := .mrd k f b a d) (n := 3) (by decide) f.isLt k.isLt (by decide) rfl]
  congr 1; omega
theorem word_mwr : BitVec.ofNat 64 (encodeWord (.mwr k f b a d)) = rWord 0x2C (0x100 + 0x20 * k.toNat + f.toNat) b a d := by
  rw [ofNat_encodeWord_tile (i := .mwr k f b a d) (n := 4) (by decide) f.isLt k.isLt (by decide) rfl]
  congr 1; omega
theorem word_mopa : BitVec.ofNat 64 (encodeWord (.mopa b a)) = rWord 0x2D 0 b a 0 :=
  ofNat_encodeWord_rFields (by decide) (by decide) rfl
theorem word_mopaSc : BitVec.ofNat 64 (encodeWord (.mopaSc b a d)) = rWord 0x2D 1 b a d :=
  ofNat_encodeWord_rFields (by decide) (by decide) rfl

variable {s k f b a d}

theorem tileCmd_other (h : isVecHart s = false) (need : Bool) (word : BitVec 64) (k : State → State) :
    tileCmd need word s k = finish (.trap .vown word s) := if_pos (by simp [h])

theorem tileCmd_noMode (vec : isVecHart s = true) (mm : (myCore s).mm = false) (word : BitVec 64) (k : State → State) :
    tileCmd true word s k = .next (tileTrap .mmode word true s) := by
  simp [tileCmd, vec, mm]

theorem tileMove_other (h : isVecHart s = false) (c : VCmd) (k : VCmd → List Nat → State → State) :
    tileMove c s k = finish (.trap .vown c.word s) := tileCmd_other h _ _ _

theorem tileMove_noMode (vec : isVecHart s = true) (mm : (myCore s).mm = false) (c : VCmd) (k : VCmd → List Nat → State → State) :
    tileMove c s k = .next (tileTrap .mmode c.word true s) := tileCmd_noMode vec mm _ _

/-- Nothing in the DTU holds the next command, and the convoy owes no register, when nothing is outstanding. -/
theorem quiet_holds (quiet : (myCore s).quiet = true) (free : cmdHeld s = false) (rs : List (BitVec 5)) :
    (((myCore s).vec.dtu.any fun o => !o.full) || cmdHeld s || rs.any (myCore s).owed.contains) = false := by
  simp only [Core.quiet, Bool.and_eq_true, List.isEmpty_iff] at quiet
  obtain ⟨⟨⟨convoy, -⟩, dtu⟩, -⟩ := quiet
  simp [dtu, free, Core.owed, convoy]

variable {q : Option (BitVec 8)} {rs : List (BitVec 5)} {w x y : BitVec 64}

theorem outer_other (h : isVecHart s = false) : outer q rs w x y s = finish (.trap .vown w s) := if_pos (by simp [h])

theorem outer_noMode (vec : isVecHart s = true) (quiet : (myCore s).quiet = true) (free : cmdHeld s = false) (mm : (myCore s).mm = false) :
    outer q rs w x y s = .next (tileTrap .mmode w true s) := by
  have holds := quiet_holds quiet free rs
  simp only [outer, vec, holds, mm]
  rfl

theorem outer_refused (vec : isVecHart s = true) (quiet : (myCore s).quiet = true) (free : cmdHeld s = false) (mm : (myCore s).mm = true)
    {z : Cause} {v : BitVec 64} (bad : opCheck s s.curCore.val x y = some (z, v)) :
    outer q rs w x y s = .next (tileTrap z v true s) := by
  have holds := quiet_holds quiet free rs
  simp only [outer, vec, holds, mm, bad]
  rfl

end

/-- The dense-tile commands that need matrix mode. -/
noncomputable def tileUses (k : BitVec 1) (f b a d : BitVec 5) : List Instr := [.mzero, .mtree k, .mrd k f b a d, .mwr k f b a d, .mopa b a, .mopaSc b a d]

theorem tile_vown {s : State} (other : isVecHart s = false) (k : BitVec 1) (f b a d : BitVec 5) :
    ∀ i ∈ .mmode a d :: tileUses k f b a d, TakesTrap i s .vown (BitVec.ofNat 64 (encodeWord i)) := by
  intro i hi
  simp only [tileUses, List.mem_cons, List.not_mem_nil, or_false] at hi
  rcases hi with rfl | rfl | rfl | rfl | rfl | rfl | rfl
  · exact takesTrap_word (word_mmode a d) (show execMmode a d s = _ from tileCmd_other other _ _ _)
  · exact takesTrap_word word_mzero (show execMzero s = _ from tileCmd_other other _ _ _)
  · exact takesTrap_word (word_mtree k) (show execMtree k s = _ from tileCmd_other other _ _ _)
  · exact takesTrap_word (word_mrd k f b a d) (show execMrd k f b a d s = _ from tileMove_other other _ _)
  · exact takesTrap_word (word_mwr k f b a d) (show execMwr k f b a d s = _ from tileMove_other other _ _)
  · exact takesTrap_word (word_mopa b a) (outer_other other)
  · exact takesTrap_word (word_mopaSc b a d) (outer_other other)

theorem tile_noMode {s : State} (vec : isVecHart s = true) (quiet : (myCore s).quiet = true) (mm : (myCore s).mm = false)
    (k : BitVec 1) (f b a d : BitVec 5) :
    ∀ i ∈ tileUses k f b a d, (i = .mopa b a ∨ i = .mopaSc b a d → cmdHeld s = false) →
      exec i s = .next (tileTrap .mmode (BitVec.ofNat 64 (encodeWord i)) true s) := by
  intro i hi free
  simp only [tileUses, List.mem_cons, List.not_mem_nil, or_false] at hi
  rcases hi with rfl | rfl | rfl | rfl | rfl | rfl
  · rw [word_mzero]; exact (show execMzero s = _ from tileCmd_noMode vec mm _ _)
  · rw [word_mtree]; exact (show execMtree k s = _ from tileCmd_noMode vec mm _ _)
  · rw [word_mrd]; exact (show execMrd k f b a d s = _ from tileMove_noMode vec mm _ _)
  · rw [word_mwr]; exact (show execMwr k f b a d s = _ from tileMove_noMode vec mm _ _)
  · rw [word_mopa]; exact outer_noMode vec quiet (free (.inl rfl)) mm
  · rw [word_mopaSc]; exact outer_noMode vec quiet (free (.inr rfl)) mm

/-- Settles O34: `mmode`, `mzero` and `mtree` where nothing holds them, then the traps in the order VOWN, MMODE, the checks of R340. -/
theorem matrixModeResults : Obligations.MatrixModeResults := by
  unfold Obligations.MatrixModeResults
  refine ⟨fun s a d k ready => ⟨?_, fun mm small => ⟨mzero_results ready mm small, mtree_results ready mm small k⟩⟩,
    fun s k f b a d => ⟨fun other => tile_vown other k f b a d, fun vec quiet mm i hi free nf =>
      tileTrap_entered quiet (tile_noMode vec quiet mm k f b a d i hi free) nf, fun vec quiet free mm z x bad =>
      ⟨tileTrap_entered quiet (outer_refused vec quiet free mm bad), tileTrap_entered quiet (outer_refused vec quiet free mm bad)⟩⟩⟩
  obtain ⟨t, run, rest, wrote, acc, stat⟩ := mmode_results ready a d
  refine ⟨t, run, rest, ?_, acc, fun legal => ?_, by rw [stat]; exact mmodeStat_rest _ _, fun illegal => ?_⟩
  · simpa using wrote
  · obtain ⟨h8, h64⟩ : (gr s a).toNat % 8 = 0 ∧ (gr s a).toNat ≤ 64 := by simpa using legal
    obtain ⟨hm, hn⟩ := mmodeStat_legal (myCore s).vec.mstat (gr s a) h8 h64
    rw [Core.mm, Core.mvl, stat]
    exact ⟨hm, hn⟩
  · have bad : ¬((gr s a).toNat % 8 = 0 ∧ (gr s a).toNat ≤ 64) := by simpa using illegal
    rw [stat, mmodeStat, if_neg (fun h0 => bad (by simp [h0])), if_neg bad]

end Sys2Proof.Machine
end

section
/-!
PROOFS. The block port (R343 to R348): images as bytes, the results of `gadd`, `gdamp` and `gelim`, and the turns of a hart that stands at one.
-/

namespace Sys2Proof.Machine

set_option Elab.async false

/-! ## Words packed into a number -/

theorem packWords_lt_pow (w : Nat) : ∀ l : List Nat, packWords w l < 2 ^ (w * l.length)
  | [] => by simp [packWords]
  | x :: l => by
    have rest := packWords_lt_pow w l
    have first := Nat.mod_lt x (Nat.two_pow_pos w)
    rw [packWords, List.length_cons, Nat.mul_succ, Nat.add_comm, Nat.pow_add, Nat.mul_comm (2 ^ (w * l.length))]
    calc 2 ^ w * packWords w l + x % 2 ^ w < 2 ^ w * packWords w l + 2 ^ w := by omega
      _ = 2 ^ w * (packWords w l + 1) := by ring
      _ ≤ 2 ^ w * 2 ^ (w * l.length) := Nat.mul_le_mul_left _ rest

theorem packWords_get (w : Nat) : ∀ (l : List Nat) (i : Nat), packWords w l / 2 ^ (w * i) % 2 ^ w = l.getD i 0 % 2 ^ w
  | [], i => by simp [packWords]
  | x :: l, 0 => by simp [packWords]
  | x :: l, i + 1 => by
    have h : packWords w (x :: l) / 2 ^ w = packWords w l := by
      rw [packWords, Nat.add_mul_div_left _ _ (Nat.two_pow_pos w), Nat.div_eq_of_lt (Nat.mod_lt _ (Nat.two_pow_pos w)), Nat.zero_add]
    rw [Nat.mul_succ, Nat.add_comm, Nat.pow_add, ← Nat.div_div_eq_div_mul, h, packWords_get w l i, List.getD_cons_succ]

/-- The words of a number, packed again. -/
theorem packWords_digits (w : Nat) : ∀ (n x : Nat), packWords w ((List.range n).map fun i => x / 2 ^ (w * i)) = x % 2 ^ (w * n)
  | 0, x => by simp [packWords, Nat.mod_one]
  | n + 1, x => by
    have tail : (fun i => x / 2 ^ (w * i)) ∘ Nat.succ = fun i => x / 2 ^ w / 2 ^ (w * i) := by
      funext i
      rw [Function.comp_apply, Nat.div_div_eq_div_mul, ← Nat.pow_add, Nat.mul_succ, Nat.add_comm]
    rw [List.range_succ_eq_map, List.map_cons, List.map_map, packWords, tail, packWords_digits w n, Nat.mul_zero, Nat.pow_zero, Nat.div_one,
      Nat.mul_succ, Nat.add_comm (w * n), Nat.pow_add, ← Nat.mod_mul]

theorem packWords_mod (w : Nat) : ∀ l : List Nat, packWords w (l.map (· % 2 ^ w)) = packWords w l
  | [] => rfl
  | x :: l => by rw [List.map_cons, packWords, packWords, packWords_mod w l, Nat.mod_mod]

/-! ## Images (R343) -/

/-- What an image of the port holds: fields of a byte, no reserved byte set, 8 and 64 words. -/
structure BlockImage.Good (b : BlockImage) : Prop where
  n : b.n < 256
  damp : b.damp < 256
  tag : b.tag < 256
  clean : b.dirty = false
  etaLen : b.eta.length = 8
  lamLen : b.lam.length = 64
  eta : ∀ x ∈ b.eta, x < 2 ^ 32
  lam : ∀ x ∈ b.lam, x < 2 ^ 32

/-- The words of a list, read back from where they stand. -/
theorem words_read {l : List Nat} {n : Nat} (len : l.length = n) (small : ∀ x ∈ l, x < 2 ^ 32) :
    ((List.range n).map fun i => packWords 32 (l.map (· % 2 ^ 32)) / 2 ^ (32 * i) % 2 ^ 32) = l := by
  refine List.ext_getElem (by simp [len]) fun i h1 h2 => ?_
  rw [List.getElem_map, List.getElem_range, packWords_mod, packWords_get, List.getD_eq_getElem _ _ h2, Nat.mod_eq_of_lt (small _ (List.getElem_mem h2))]

/-- Word i below bit 32 n of a number in two parts. -/
theorem word_below {lo hi n i : Nat} (hi' : i < n) : (lo + 2 ^ (32 * n) * hi) / 2 ^ (32 * i) % 2 ^ 32 = lo / 2 ^ (32 * i) % 2 ^ 32 := by
  obtain ⟨k, rfl⟩ := Nat.exists_eq_add_of_lt hi'
  rw [show 32 * (i + k + 1) = 32 * i + 32 + 32 * k by ring, Nat.pow_add, Nat.pow_add, Nat.mul_assoc, Nat.mul_assoc,
    Nat.add_mul_div_left _ _ (Nat.two_pow_pos _), Nat.add_mul_mod_self_left]

/-- The fields of a number made of a word of small fields and two lists of words. -/
theorem imageOf_parts {n damp tag E L : Nat} (hn : n < 256) (hd : damp < 256) (ht : tag < 256) (hE : E < 2 ^ 256) :
    imageOf (n + 2 ^ 8 * damp + 2 ^ 16 * tag + 2 ^ 256 * (E + 2 ^ 256 * L)) =
      ⟨n, damp, tag, false, (List.range 8).map fun i => E / 2 ^ (32 * i) % 2 ^ 32, (List.range 64).map fun i => L / 2 ^ (32 * i) % 2 ^ 32⟩ := by
  generalize hH : E + 2 ^ 256 * L = H
  have high : (n + 2 ^ 8 * damp + 2 ^ 16 * tag + 2 ^ 256 * H) / 2 ^ 256 = H := by omega
  have higher : H / 2 ^ 256 = L := by omega
  have eta : ∀ i < 8, (n + 2 ^ 8 * damp + 2 ^ 16 * tag + 2 ^ 256 * H) / 2 ^ (32 * (8 + i)) % 2 ^ 32 = E / 2 ^ (32 * i) % 2 ^ 32 := by
    intro i hi
    rw [show 32 * (8 + i) = 256 + 32 * i by ring, Nat.pow_add, ← Nat.div_div_eq_div_mul, high, ← hH]
    exact word_below (n := 8) hi
  have lam : ∀ i, (n + 2 ^ 8 * damp + 2 ^ 16 * tag + 2 ^ 256 * H) / 2 ^ (32 * (16 + i)) % 2 ^ 32 = L / 2 ^ (32 * i) % 2 ^ 32 := by
    intro i
    rw [show 32 * (16 + i) = 256 + (256 + 32 * i) by ring, Nat.pow_add, Nat.pow_add, ← Nat.div_div_eq_div_mul, ← Nat.div_div_eq_div_mul, high, higher]
  have fn : (n + 2 ^ 8 * damp + 2 ^ 16 * tag + 2 ^ 256 * H) % 256 = n := by omega
  have fd : (n + 2 ^ 8 * damp + 2 ^ 16 * tag + 2 ^ 256 * H) / 2 ^ 8 % 256 = damp := by omega
  have ft : (n + 2 ^ 8 * damp + 2 ^ 16 * tag + 2 ^ 256 * H) / 2 ^ 16 % 256 = tag := by omega
  have fr : (n + 2 ^ 8 * damp + 2 ^ 16 * tag + 2 ^ 256 * H) / 2 ^ 24 % 2 ^ 232 = 0 := by omega
  generalize n + 2 ^ 8 * damp + 2 ^ 16 * tag + 2 ^ 256 * H = v at *
  rw [show imageOf v = ⟨v % 256, v / 2 ^ 8 % 256, v / 2 ^ 16 % 256, v / 2 ^ 24 % 2 ^ 232 != 0,
    (List.range 8).map fun i => v / 2 ^ (32 * (8 + i)) % 2 ^ 32, (List.range 64).map fun i => v / 2 ^ (32 * (16 + i)) % 2 ^ 32⟩ from rfl,
    fn, fd, ft, fr, List.map_congr_left fun i hi => eta i (List.mem_range.mp hi), List.map_congr_left fun i _ => lam i]
  rfl

theorem bytes_parts (b : BlockImage) (g : b.Good) : b.bytes = b.n + 2 ^ 8 * b.damp + 2 ^ 16 * b.tag +
    2 ^ 256 * (packWords 32 (b.eta.map (· % 2 ^ 32)) + 2 ^ 256 * packWords 32 (b.lam.map (· % 2 ^ 32))) := by
  unfold BlockImage.bytes
  rw [Nat.mod_eq_of_lt g.n, Nat.mod_eq_of_lt g.damp, Nat.mod_eq_of_lt g.tag, Nat.mul_add, ← Nat.mul_assoc, ← Nat.pow_add, Nat.add_assoc _ (2 ^ 256 * _)]

theorem etaWords_lt {b : BlockImage} (g : b.Good) : packWords 32 (b.eta.map (· % 2 ^ 32)) < 2 ^ 256 := by
  have h := packWords_lt_pow 32 (b.eta.map (· % 2 ^ 32))
  rwa [List.length_map, g.etaLen] at h

theorem imageOf_bytes {b : BlockImage} (g : b.Good) : imageOf b.bytes = b := by
  rw [bytes_parts b g, imageOf_parts g.n g.damp g.tag (etaWords_lt g), words_read g.etaLen g.eta, words_read g.lamLen g.lam, ← g.clean]

theorem imageBits : (256 : Nat) ^ 320 = 2 ^ (8 * 320) := (congrArg (· ^ 320) (show (256 : Nat) = 2 ^ 8 from rfl)).trans (Nat.pow_mul 2 8 320).symm

/-- An image fits its 320 bytes. -/
theorem bytes_lt {b : BlockImage} (g : b.Good) : b.bytes < 256 ^ 320 := by
  have hE := etaWords_lt g
  have hL : packWords 32 (b.lam.map (· % 2 ^ 32)) < 2 ^ (32 * 64) := by
    have h := packWords_lt_pow 32 (b.lam.map (· % 2 ^ 32))
    rwa [List.length_map, g.lamLen] at h
  have hn := g.n
  have hd := g.damp
  have ht := g.tag
  have whole : (256 : Nat) ^ 320 = 2 ^ 256 * (2 ^ 256 * 2 ^ (32 * 64)) := by
    rw [imageBits, ← Nat.pow_add, ← Nat.pow_add]
  rw [bytes_parts b g, whole]
  generalize packWords 32 (b.eta.map (· % 2 ^ 32)) = E at hE
  generalize packWords 32 (b.lam.map (· % 2 ^ 32)) = L at hL
  generalize 2 ^ (32 * 64) = top at hL
  omega

/-! ## Words of results (R152, R159) -/

theorem f32_signBit_le (n : Bool) : f32.signBit n ≤ 2 ^ 31 := by cases n <;> decide

theorem f32_round_lt (rm r : Nat) (n : Bool) (m : Nat) (e : Int) (st : Bool) : (f32.round rm r n m e st).1 < 2 ^ 32 := by
  have sign := f32_signBit_le n
  have big : f32.overflow rm n < 2 ^ 32 := by
    unfold Fmt.overflow
    show f32.signBit n + (if rm = 1 ∨ (rm = 2 ∧ !n) ∨ (rm = 3 ∧ n) then f32.maxEnc else f32.infEnc) < _
    have h1 : f32.maxEnc < 2 ^ 31 := by decide
    have h2 : f32.infEnc < 2 ^ 31 := by decide
    split <;> omega
  have key : ∀ (x : Nat) (f g : Flags), (if f32.maxEnc < x then (f32.overflow rm n, f) else (f32.signBit n + x, g)).1 < 2 ^ 32 := by
    intro x f g
    have h1 : f32.maxEnc < 2 ^ 31 := by decide
    split
    · exact big
    · show f32.signBit n + x < _; omega
  unfold Fmt.round
  split
  · exact lt_of_le_of_lt sign (by decide)
  · exact key _ _ _

theorem f32_ofVal_lt (rm r : Nat) (v : FVal) : (f32.ofVal rm r v).1 < 2 ^ 32 := by
  cases v with
  | nan s => exact (by decide : f32.nanEnc < 2 ^ 32)
  | inf n => cases n; exacts [(by decide : f32.signBit false + f32.infEnc < 2 ^ 32), (by decide : f32.signBit true + f32.infEnc < 2 ^ 32)]
  | fin n m e => exact f32_round_lt _ _ _ _ _ _

theorem f32_finish_lt (rm r : Nat) (v : FVal × Flags) : (f32.finish rm r v).1 < 2 ^ 32 := f32_ofVal_lt rm r v.1

theorem canon_lt {x : Nat} (h : x < 2 ^ 32) : canon x < 2 ^ 32 := by
  unfold canon; split
  · decide
  · exact h

theorem blend_lt (damp : Nat) {x : Nat} (y : Nat) (h : x < 2 ^ 32) : blend damp x y < 2 ^ 32 := by
  unfold blend; split
  · exact canon_lt h
  · exact f32_finish_lt _ _ _

theorem f32_fma_lt (rm r : Nat) (p q : Bool) (a b c : Nat) : (f32.fma rm r p q a b c).1 < 2 ^ 32 := f32_finish_lt _ _ _

/-! ## Results of the port are images (R345 to R347) -/

theorem makeImage_good {n damp tag : Nat} {h : Nat → Nat} {w : Nat → Nat → Nat} (hn : n < 256) (hd : damp < 256) (ht : tag < 256)
    (hh : ∀ i, h i < 2 ^ 32) (hw : ∀ r c, w r c < 2 ^ 32) : (makeImage n damp tag h w).Good where
  n := hn
  damp := hd
  tag := ht
  clean := rfl
  etaLen := by simp [makeImage]
  lamLen := by simp [makeImage]
  eta x hx := by
    obtain ⟨i, -, rfl⟩ := List.mem_map.mp hx
    split
    · exact hh i
    · decide
  lam x hx := by
    obtain ⟨i, -, rfl⟩ := List.mem_map.mp hx
    split
    · exact hw _ _
    · decide

/-- What the port reads of an image: fields of a byte, words of 32 bits. -/
structure BlockImage.Read (b : BlockImage) : Prop where
  n : b.n < 256
  damp : b.damp < 256
  tag : b.tag < 256
  eta : ∀ i, b.h i < 2 ^ 32
  lam : ∀ i, b.lam.getD i 0 < 2 ^ 32

theorem getD_map_lt (f : Nat → Nat) (hf : ∀ i, f i < 2 ^ 32) (n i : Nat) : ((List.range n).map f).getD i 0 < 2 ^ 32 := by
  by_cases h : i < n
  · rw [List.getD_eq_getElem _ _ (by simpa using h), List.getElem_map]; exact hf _
  · rw [List.getD_eq_default _ _ (by simpa using h)]; decide

theorem imageOf_read (v : Nat) : (imageOf v).Read where
  n := Nat.mod_lt _ (by decide)
  damp := Nat.mod_lt _ (by decide)
  tag := Nat.mod_lt _ (by decide)
  eta i := getD_map_lt _ (fun _ => Nat.mod_lt _ (by decide)) _ _
  lam i := getD_map_lt _ (fun _ => Nat.mod_lt _ (by decide)) _ _

theorem blockAdd_good {a : BlockImage} (ha : a.Read) (b : BlockImage) : (blockAdd a b).Good :=
  makeImage_good ha.n ha.damp ha.tag (fun _ => f32_finish_lt _ _ _) fun _ _ => f32_finish_lt _ _ _

theorem blockBlend_good {a : BlockImage} (ha : a.Read) (b : BlockImage) : (blockBlend a b).Good :=
  makeImage_good ha.n ha.damp ha.tag (fun i => blend_lt _ _ (ha.eta i)) fun r c => blend_lt _ _ (ha.lam (8 * r + c))

/-- Every entry of the working matrix and vector is a word. -/
def WorkWords (w : Work) : Prop := ∀ k, tabGet 0 w k < 2 ^ 32

theorem WorkWords.put {w : Work} (h : WorkWords w) (k : Nat) {x : Nat} (hx : x < 2 ^ 32) : WorkWords (tabPut w k x) := by
  intro i
  rw [tabGet_tabPut]
  split
  · exact hx
  · exact h i

/-- A run of writes of words keeps the work one of words. -/
theorem WorkWords.foldl {α : Type} (f : Work → α → Work) (hf : ∀ w x, WorkWords w → WorkWords (f w x)) :
    ∀ (l : List α) (w : Work), WorkWords w → WorkWords (l.foldl f w)
  | [], _, h => h
  | x :: l, w, h => WorkWords.foldl f hf l _ (hf w x h)

theorem WorkWords.elimStep {n j t : Nat} {w v : Work} (h : WorkWords w) (e : elimStep n j t w = some v) : WorkWords v := by
  simp only [Machine.elimStep] at e
  split at e
  · exact absurd e nofun
  · obtain rfl := Option.some.inj e
    refine WorkWords.foldl _ (fun v r hv => hv.put _ (f32_fma_lt _ _ _ _ _ _ _)) _ _ ?_
    exact WorkWords.foldl _ (fun v r hv => WorkWords.foldl _ (fun v c hv => hv.put _ (f32_fma_lt _ _ _ _ _ _ _)) _ _ hv) _ _ h

theorem WorkWords.elimSteps {n t : Nat} : ∀ (k j : Nat) (w v : Work), WorkWords w → elimSteps n t k j w = .inr v → WorkWords v
  | 0, j, w, v, h, e => by obtain rfl := Sum.inr.inj e; exact h
  | k + 1, j, w, v, h, e => by
    rw [Machine.elimSteps] at e
    split at e
    · exact absurd e nofun
    · next w' hs => exact WorkWords.elimSteps k (j + 1) w' v (h.elimStep hs) e

theorem workWords_of_forall : ∀ (w : Work), (∀ x ∈ w, x.2 < 2 ^ 32) → WorkWords w
  | [], _ => fun _ => by rw [tabGet]; decide
  | (j, x) :: w, h => fun k => by
    rw [tabGet]
    split
    · exact h (j, x) (List.mem_cons_self ..)
    · exact workWords_of_forall w (fun y hy => h y (List.mem_cons_of_mem _ hy)) k

theorem blockElim_good {a b : BlockImage} (ha : a.Read) (k eps : Nat) (e : blockElim a k eps = .inr b) : b.Good := by
  have start : WorkWords ((List.range 8).foldl (fun w i => tabPut w (64 + i) (a.h i)) ((List.range 64).map fun i => (i, a.lam.getD i 0))) := by
    refine WorkWords.foldl _ (fun w i hw => hw.put _ (ha.eta i)) _ _ (workWords_of_forall _ fun x hx => ?_)
    obtain ⟨i, -, rfl⟩ := List.mem_map.mp hx
    exact ha.lam i
  simp only [blockElim] at e
  split at e
  · exact absurd e nofun
  · next w hs =>
    obtain rfl := Sum.inr.inj e
    have words := start.elimSteps _ _ _ _ hs
    refine makeImage_good (lt_of_le_of_lt (Nat.sub_le _ _) ha.n) ha.damp ha.tag (fun i => words _) fun r c => ?_
    split
    · exact words _
    · exact words _

/-- An image the port makes of images it read fits its bytes and is read back from them. -/
theorem portResult_good {op : Fin 3} {k eps : Nat} {x y r : BlockImage} (hx : x.Read) (e : portResult op k eps x y = .inr r) : r.Good := by
  unfold portResult at e
  split at e
  · split at e
    · exact absurd e nofun
    · split at e
      · exact absurd e nofun
      · next hs => obtain rfl := Sum.inr.inj e; exact blockElim_good hx _ _ hs
  · split at e
    · exact absurd e nofun
    · obtain rfl := Sum.inr.inj e
      split
      · exact blockAdd_good hx _
      · exact blockBlend_good hx _

section

variable {k eps : Nat} {x y : BlockImage} (ok : (x.n == 0 || decide (8 < x.n) || x.dirty || k == 0 || decide (x.n ≤ k)) = false)
include ok

theorem portResult_elim_good {r : BlockImage} (e : blockElim x k eps = .inr r) : portResult 1 k eps x y = .inr r := by
  rw [portResult, if_pos rfl, ok, e]; rfl

theorem portResult_elim_singular {j : Nat} (e : blockElim x k eps = .inl j) : portResult 1 k eps x y = .inl (.gsing, BitVec.ofNat 64 j) := by
  rw [portResult, if_pos rfl, ok, e]; rfl

end

/-- The five blocks of an image are its bytes. -/
theorem imageOf_lines {r : BlockImage} (g : r.Good) :
    imageOf (packWords 512 (((List.range 5).map fun n => BitVec.ofNat 512 (r.bytes / 2 ^ (512 * n))).map (·.toNat))) = r := by
  have h := packWords_digits 512 5 r.bytes
  rw [← packWords_mod, List.map_map] at h
  rw [List.map_map, show (fun x : BitVec 512 => x.toNat) ∘ (fun n => BitVec.ofNat 512 (r.bytes / 2 ^ (512 * n))) =
    (· % 2 ^ 512) ∘ fun n => r.bytes / 2 ^ (512 * n) from rfl, h, Nat.mod_eq_of_lt (lt_of_lt_of_eq (bytes_lt g) ?_), imageOf_bytes g]
  exact imageBits

/-! ## The place of an image -/

theorem readImage_writeImage {s : State} (wf : s.memOk) (x : BitVec 64) {r : BlockImage} (g : r.Good) {t : State}
    (mem : t.mem = memWrite s.mem (blockPlace s x 0) 320 r.bytes) (fabric : t.fabric = s.fabric) (core : t.curCore = s.curCore) :
    readImage t x = r := by
  have place : blockPlace t x 0 = blockPlace s x 0 := by
    unfold blockPlace
    rw [core, bankGpa_congr fabric]
  rw [readImage, mem, place, memRead_memWrite _ _ _ _ wf, Nat.mod_eq_of_lt (bytes_lt g), imageOf_bytes g]

/-! ## The replay record of a block-port command -/

/-- A hart whose replay record has moved on: its PC, state and registers are those of h. -/
structure ReplayOf (h r : Hart) : Prop where
  pc : r.pc = h.pc
  st : r.st = h.st
  regs : ∀ d, r.gr d = h.gr d
  wait : r.wait = h.wait
  kept : r.vecKept = h.vecKept

theorem replay_wait (h : Hart) (gl : Nat) : (h.replay gl).2.wait = h.wait := by
  obtain ⟨x, r, l, e⟩ := replay_form h gl; rw [e]

theorem setHart_get (q : Core) (k : Fin 8) : q.setHart k (q.harts.get k) = q := by
  have h : q.harts.set k (q.harts.get k) = q.harts := by
    apply Vector.ext
    intro i hi
    rw [Vector.getElem_set]
    split
    · next e => subst e; rfl
    · rfl
  unfold Core.setHart
  exact congrArg (fun x => { q with harts := x }) h

theorem became_portReplay (s : State) : ∃ r, Became s (portReplay s) ((myCore s).setHart s.curSlot r) ∧ ReplayOf (me s) r := by
  unfold portReplay
  split
  · exact ⟨_, (became_self s).updMe _, replay_pc _ _, replay_st _ _, replay_gr _ _, replay_wait _ _, replay_vecKept _ _⟩
  · refine ⟨me s, ?_, rfl, rfl, fun _ => rfl, rfl, rfl⟩
    rw [me_eq, setHart_get]; exact became_self s

theorem Became.others {s t : State} {q : Core} (b : Became s t q) (h : ∀ k, k ≠ s.curSlot → q.harts.get k = (myCore s).harts.get k) : OthersKept s t where
  slots k hk := by
    have e : hartAt t s.curCore k = (myCore t).harts.get k := by rw [myCore, b.curCore]; rfl
    rw [e, b.mine]; exact h k hk
  cores := b.cores

/-- A machine in which only the issuing hart has changed. -/
theorem Became.restKept {s t : State} {h : Hart} (b : Became s t ((myCore s).setHart s.curSlot h)) : RestKept s t where
  core := by rw [b.mine]; rfl
  others := b.others fun _ hk => setHart_get_ne _ _ _ _ hk
  memory a := congrArg (fun m => memGet m a) b.mem
  machine := b.machine

theorem Became.freezing {s t : State} {h : Hart} (b : Became s t ((myCore s).setHart s.curSlot h)) (c : Cause) :
    freezing t t.curCore c = freezing s s.curCore c := by
  have core : coreAt t t.curCore = (coreAt s s.curCore).setHart s.curSlot h := b.mine
  have night : t.night = s.night := (congrArg State.night b.machine :)
  unfold Machine.freezing
  rw [core, night]
  rfl

theorem Became.settled {s t : State} {h : Hart} (b : Became s t ((myCore s).setHart s.curSlot h)) (wait : h.wait = (Machine.me s).wait)
    (g : Settled s) : Settled t := by
  have busy : (myCore t).portBusy = (myCore s).portBusy := by
    rw [b.mine]; exact portBusy_setHart _ _ _ (by unfold Hart.atPort; rw [wait]; rfl)
  have vec : (myCore t).vec = (myCore s).vec := by rw [b.mine]; rfl
  intro hv
  have quiet : (myCore t).quiet = (myCore s).quiet := by unfold Core.quiet; rw [vec, busy]
  rw [quiet]
  exact g (by rw [← hv]; unfold isVecHart; rw [vec, b.curSlot])

/-- A trap of a block-port command, its replay record moved on, with no other command of the vector hart outstanding. -/
theorem portTraps_of {s u : State} {r : Hart} {c : Cause} {x : BitVec 64} (b : Became s u ((myCore s).setHart s.curSlot r))
    (pc : r.pc = (me s).pc) (regs : ∀ d, r.gr d = (me s).gr d) (settled : Settled u) : PortTraps (finish (.trap c x u)) s c x := by
  intro nf
  have nf' : freezing u u.curCore c = false := (b.freezing c).trans nf
  have hart : me u = r := by rw [b.me, setHart_get_self]
  have t := entered_takeTrap c x false u nf'
  have form : Became s (takeTrap c x false u) ((myCore s).setHart s.curSlot (r.record c x false).vector) := by
    rw [takeTrap_eq c x false u nf']
    have b' := b.updMe fun q => (q.record c x false).vector
    rwa [setHart_setHart, setHart_get_self] at b'
  refine ⟨_, finish_trap c x u settled, t.xcause, t.xval, ?_, fun d => ?_, ?_, form.restKept⟩
  · rw [t.xpc, hart, pc]
  · rw [t.regs, gr, hart, regs]; rfl
  · rw [form.mine]; rfl

/-! ## The instruction performed in one turn (R344 to R347) -/

theorem portReady_parts {s : State} {ps : List (BitVec 64)} (h : portReady s ps = true) :
    ((isVecHart s || s.curSlot == 7) = true ∧ (isVecHart s = true → (myCore s).fenced = true)) ∧ (cmdHeld s || (myCore s).portBusy) = false ∧
      ptrCheck s ps = none ∧ (ps.any fun x => bankPending s (blockPlace s x 0) 320) = false := by
  simp only [portReady, Bool.and_eq_true, Option.isNone_iff_eq_none, Bool.not_eq_true'] at h
  obtain ⟨⟨⟨⟨hart, port⟩, held⟩, ptr⟩, pending⟩ := h
  refine ⟨?_, by rw [held, port]; rfl, ptr, pending⟩
  by_cases hv : isVecHart s = true
  · rw [if_pos hv] at hart; exact ⟨by rw [hv]; rfl, fun _ => hart⟩
  · rw [if_neg hv] at hart; exact ⟨by rw [hart, Bool.or_true], fun e => absurd e hv⟩

section

variable {s : State} {op : Fin 3} {word a b d : BitVec 64} (ready : portReady s (portReads op a b ++ [d]) = true)
include ready

theorem blockOp_split (split : s.split = true) : blockOp op word a b d s = .next (updMe s fun h => { h with wait := .port op a b d [] [] }) := by
  obtain ⟨⟨hart, -⟩, free, ptr, -⟩ := portReady_parts ready
  simp only [blockOp, hart, free, ptr, split]
  rfl

theorem settled_whole (k : State → Res Unit) : settled s k = k s := by
  obtain ⟨⟨-, fenced⟩, -⟩ := portReady_parts ready
  unfold settled
  by_cases hv : isVecHart s = true
  · rw [fenced hv, Bool.not_true, Bool.and_false]; rfl
  · rw [Bool.not_eq_true] at hv; rw [hv, Bool.false_and]; rfl

theorem blockOp_made (whole : s.split = false) {r : BlockImage}
    (e : portResult op b.toNat ((me s).geps.toNat % 2 ^ 32) (readImage s a) (readImage s b) = .inr r) :
    blockOp op word a b d s = .next (retire 4 (portReplay (writeImage d r s))) := by
  obtain ⟨⟨hart, -⟩, free, ptr, pending⟩ := portReady_parts ready
  simp only [blockOp, hart, free, ptr, whole, settled_whole ready, pending, e]
  rfl

theorem blockOp_refused (whole : s.split = false) {z : Cause} {v : BitVec 64}
    (e : portResult op b.toNat ((me s).geps.toNat % 2 ^ 32) (readImage s a) (readImage s b) = .inl (z, v)) :
    blockOp op word a b d s = finish (.trap z v (portReplay s)) := by
  obtain ⟨⟨hart, -⟩, free, ptr, pending⟩ := portReady_parts ready
  simp only [blockOp, hart, free, ptr, whole, settled_whole ready, pending, e]
  rfl

end

theorem Became.trans {s t u : State} {p q : Core} (h : Became s t p) (g : Became t u q) : Became s u q where
  mine := g.mine
  cores c hc := (g.cores c (h.curCore ▸ hc)).trans (h.cores c hc)
  machine := g.machine.trans h.machine

/-- A machine in which the issuing hart has changed, its replay record moved on. -/
theorem Became.portReplay {s v : State} {h : Hart} (b : Became s v ((myCore s).setHart s.curSlot h)) :
    ∃ r, Became s (portReplay v) ((myCore s).setHart s.curSlot r) ∧ ReplayOf h r := by
  obtain ⟨r, c, rep⟩ := became_portReplay v
  rw [b.me, setHart_get_self] at rep
  have d := b.trans c
  rw [b.mine, b.curSlot, setHart_setHart] at d
  exact ⟨r, d, rep⟩

/-- The end of a command of the block port, which may have left another mark of waiting. -/
theorem portRetire {s v : State} {w : Wait} (b : Became s v ((myCore s).setHart s.curSlot { me s with wait := w })) :
    let t := retire 4 (portReplay v)
    ∃ r : Hart, Became s t ((myCore s).counted s.curSlot r) ∧ WentOn (me s) r ∧ r.wait = .none ∧ ∀ d, r.gr d = (me s).gr d := by
  intro t
  obtain ⟨r, c, rep⟩ := b.portReplay
  have hart : me (portReplay v) = r := by rw [c.me, setHart_get_self]
  have c := c.retireAt ((me s).pc + 4)
  rw [setHart_get_self, counted_setHart] at c
  have e : t = retireAt ((me s).pc + 4) (portReplay v) := by
    show retireAt ((me (portReplay v)).pc + 4) _ = _
    rw [hart, rep.pc]
  rw [← e] at c
  refine ⟨_, c, ⟨rfl, fun hr => ?_, ?_⟩, rfl, fun d => ?_⟩
  · have st : r.st = .ready := rep.st.trans hr
    simp [Hart.retired, Hart.goOn, st]
  · rw [retired_vecKept, rep.kept]; rfl
  · rw [gr_retired, rep.regs]; rfl

/-- What the end of a command of the block port leaves as it was, m being the memory it wrote. -/
theorem portRest_counted {s t : State} {m : List Host.Cell} {r : Hart} (b : Became { s with mem := m } t ((myCore s).counted s.curSlot r))
    (w : WentOn (me s) r) (regs : ∀ d, r.gr d = (me s).gr d) : GoesOn s t ((me s).pc + 4) ∧ PortRest s t where
  left := ⟨b.goesOn rfl w |>.pc, b.goesOn rfl w |>.ready, b.goesOn rfl w |>.count⟩
  right :=
    { regs := fun d => by rw [b.gr, regs]; rfl
      hart := by
        have h : me t = r := by rw [b.me, counted_get]
        rw [h, w.kept]
      core := by rw [b.mine]; rfl
      others := by
        obtain ⟨slots, cores⟩ := b.others fun k hk => vec_get_set_ne _ _ _ _ hk
        exact ⟨slots, cores⟩
      machine := (congrArg (fun u : State => { u with mem := [] }) b.machine :) }

/-! ## The three instructions -/

section

variable {s : State} {op : Fin 3} {word a b d : BitVec 64} (ready : portReady s (portReads op a b ++ [d]) = true) (whole : portWhole s = true)
include ready whole

theorem blockOp_writes {i : Instr} (x : exec i s = blockOp op word a b d s) (wf : s.memOk) {r : BlockImage}
    (e : portResult op b.toNat ((me s).geps.toNat % 2 ^ 32) (readImage s a) (readImage s b) = .inr r) : WritesImage i s d r := by
  have split : s.split = false := by simpa [portWhole] using whole
  have good : r.Good := portResult_good (imageOf_read _) e
  obtain ⟨m, hm⟩ : ∃ m, m = memWrite s.mem (blockPlace s d 0) 320 r.bytes := ⟨_, rfl⟩
  have base : Became { s with mem := m } { s with mem := m } ((myCore s).setHart s.curSlot { me s with wait := (me s).wait }) := by
    show Became _ _ ((myCore s).setHart s.curSlot ((myCore s).harts.get s.curSlot))
    rw [setHart_get]
    exact became_self { s with mem := m }
  obtain ⟨h, c, went, -, regs⟩ := portRetire base
  obtain ⟨on, rest⟩ := portRest_counted c went regs
  have run : exec i s = .next (retire 4 (portReplay { s with mem := m })) := by
    rw [x, blockOp_made ready split e, writeImage, hm]
  refine ⟨_, run, on, readImage_writeImage wf d good (c.mem.trans hm) (congrArg State.fabric c.machine :) c.curCore, fun p hp => ?_, rest⟩
  unfold byteAt
  rw [c.mem]
  have place : imageAt s d = blockPlace s d 0 := by rw [imageAt, blockPlace, Nat.mul_zero, Nat.add_zero]
  rw [place] at hp
  show memGet m p = memGet s.mem p
  rw [hm, memGet_memWrite_outside _ _ _ _ _ wf hp]

theorem blockOp_traps {i : Instr} (x : exec i s = blockOp op word a b d s) {z : Cause} {v : BitVec 64}
    (e : portResult op b.toNat ((me s).geps.toNat % 2 ^ 32) (readImage s a) (readImage s b) = .inl (z, v)) : BlockTraps i s z v := by
  have split : s.split = false := by simpa [portWhole] using whole
  unfold BlockTraps
  rw [x, blockOp_refused ready split e]
  obtain ⟨r, c, rep⟩ := became_portReplay s
  exact portTraps_of c rep.pc rep.regs (c.settled rep.wait fun hv => settled_of_fencedCore (portReady_parts ready).1.2 hv)

end

theorem became_wait (s : State) (w : Wait) : Became s (updMe s fun h => { h with wait := w }) ((myCore s).setHart s.curSlot { me s with wait := w }) :=
  (became_self s).updMe _

/-! ## The turns of a hart that stands at an instruction (R348) -/

theorem takeBank_mem (k b w : Nat) (s : State) (m : List Host.Cell) :
    takeBank k b w { s with mem := m } = { takeBank k b w s with mem := m } := rfl

section

variable {s : State} {op : Fin 3} {a b d : BitVec 64} {reads writes : List (BitVec 512)}

theorem portTurn_reading (at' : (me s).wait = .port op a b d reads []) {x : BitVec 64} (h : (portReads op a b)[reads.length / 5]? = some x) :
    portTurn s = .next (if portWaits s (ptrBank x) (blockPlace s x (reads.length % 5)) then s
      else updMe (takeBank s.curCore s.curCore (ptrBank x) s) fun h =>
        { h with wait := .port op a b d (reads ++ [BitVec.ofNat 512 (memRead s.mem (blockPlace s x (reads.length % 5)) 64)]) [] }) := by
  simp only [portTurn, at', h]

/-- The images of the blocks read. -/
def blocksImage (l : List (BitVec 512)) : BlockImage := imageOf (packWords 512 (l.map (·.toNat)))

/-- What the instruction makes of the blocks read. -/
def turnResult (s : State) (op : Fin 3) (b : BitVec 64) (reads : List (BitVec 512)) : (Cause × BitVec 64) ⊕ BlockImage :=
  portResult op b.toNat ((me s).geps.toNat % 2 ^ 32) (blocksImage (reads.take 5)) (blocksImage (reads.drop 5))

theorem portTurn_made (at' : (me s).wait = .port op a b d reads []) (h : 5 * (portReads op a b).length ≤ reads.length) {r : BlockImage}
    (e : turnResult s op b reads = .inr r) :
    portTurn s = .next (updMe s fun h => { h with wait := .port op a b d reads ((List.range 5).map fun n => BitVec.ofNat 512 (r.bytes / 2 ^ (512 * n))) }) := by
  have last : (portReads op a b)[reads.length / 5]? = none := List.getElem?_eq_none (by omega)
  unfold turnResult blocksImage at e
  have e' : portResult op b.toNat ((me (updMe s fun h => { h with wait := .none })).geps.toNat % 2 ^ 32)
      (imageOf (packWords 512 ((reads.take 5).map (·.toNat)))) (imageOf (packWords 512 ((reads.drop 5).map (·.toNat)))) = .inr r := by
    rw [me_updMe]; exact e
  simp only [portTurn, at', last, e, Sum.isLeft, Bool.and_false, portDone, e']
  exact congrArg Host.Outcome.next (updMe_updMe _ _ _)

theorem portTurn_refused (at' : (me s).wait = .port op a b d reads []) (h : 5 * (portReads op a b).length ≤ reads.length) {z : Cause} {x : BitVec 64}
    (e : turnResult s op b reads = .inl (z, x)) :
    portTurn s = if portAlone s then finish (.trap z x (portReplay (updMe s fun h => { h with wait := .none }))) else .next s := by
  have last : (portReads op a b)[reads.length / 5]? = none := List.getElem?_eq_none (by omega)
  unfold turnResult blocksImage at e
  have e' : portResult op b.toNat ((me (updMe s fun h => { h with wait := .none })).geps.toNat % 2 ^ 32)
      (imageOf (packWords 512 ((reads.take 5).map (·.toNat)))) (imageOf (packWords 512 ((reads.drop 5).map (·.toNat)))) = .inl (z, x) := by
    rw [me_updMe]; exact e
  simp only [portTurn, at', last, e, Sum.isLeft, Bool.and_true, portDone, e']
  cases portAlone s <;> rfl

theorem portTurn_writing {w : BitVec 512} (at' : (me s).wait = .port op a b d reads (w :: writes)) :
    portTurn s = .next (if portWaits s (ptrBank d) (blockPlace s d (4 - writes.length)) || !portSettled s then s
      else
        let u := takeBank s.curCore s.curCore (ptrBank d) { s with mem := memWrite s.mem (blockPlace s d (4 - writes.length)) 64 w.toNat }
        if writes.isEmpty then retire 4 (portReplay (updMe u fun h => { h with wait := .none }))
        else updMe u fun h => { h with wait := .port op a b d reads writes }) := by
  simp only [portTurn, at']
  split <;> rfl

end

/-- A block is 64 bytes. -/
theorem blockSize : (2 : Nat) ^ 512 = 256 ^ 64 := (Nat.pow_mul 2 8 64).trans (congrArg (· ^ 64) (show (2 : Nat) ^ 8 = 256 from rfl))

/-- A turn that writes one block of D: the block, and nothing else but the end of the instruction with the last one. -/
theorem portTurn_writes {s : State} {op : Fin 3} {a b d : BitVec 64} {reads writes : List (BitVec 512)} {w : BitVec 512} (wf : s.memOk)
    (at' : (me s).wait = .port op a b d reads (w :: writes)) (free : portWaits s (ptrBank d) (blockPlace s d (4 - writes.length)) = false)
    (settled : portSettled s = true) :
    ∃ t, portTurn s = .next t ∧ memRead t.mem (blockPlace s d (4 - writes.length)) 64 = w.toNat ∧
      (∀ e, e < blockPlace s d (4 - writes.length) ∨ blockPlace s d (4 - writes.length) + 64 ≤ e → byteAt t e = byteAt s e) ∧
      PortRest (takeBank s.curCore s.curCore (ptrBank d) s) t ∧
      (writes ≠ [] → PortAt { takeBank s.curCore s.curCore (ptrBank d) s with mem := t.mem } op a b d reads writes t) ∧
      (writes = [] → GoesOn s t ((me s).pc + 4) ∧ (me t).wait = .none) := by
  have run := portTurn_writing at'
  rw [free, settled, if_neg (by decide)] at run
  dsimp only at run
  generalize blockPlace s d (4 - writes.length) = p at run ⊢
  obtain ⟨m, hm⟩ : ∃ m, m = memWrite s.mem p 64 w.toNat := ⟨_, rfl⟩
  rw [← hm, takeBank_mem] at run
  have core : coreAt (takeBank s.curCore s.curCore (ptrBank d) s) s.curCore = { coreAt s s.curCore with bankLocal := tabPut (coreAt s s.curCore).bankLocal (ptrBank d) (decide (s.curCore.val = s.curCore.val)) } :=
    coreAt_updCore_self _ _ _
  have same : ∀ k : Fin 8, hartAt (takeBank s.curCore s.curCore (ptrBank d) s) s.curCore k = hartAt s s.curCore k := fun k =>
    by rw [hartAt, core]; rfl
  have pc : (me (takeBank s.curCore s.curCore (ptrBank d) s)).pc = (me s).pc := congrArg Hart.pc (same s.curSlot)
  have st : (me (takeBank s.curCore s.curCore (ptrBank d) s)).st = (me s).st := congrArg Hart.st (same s.curSlot)
  have count : (myCore (takeBank s.curCore s.curCore (ptrBank d) s)).instret = (myCore s).instret := by
    rw [show myCore (takeBank s.curCore s.curCore (ptrBank d) s) = _ from core]; rfl
  generalize takeBank s.curCore s.curCore (ptrBank d) s = u at run pc st count ⊢
  have read : memRead m p 64 = w.toNat := by
    rw [hm, memRead_memWrite _ _ _ _ wf]
    exact Nat.mod_eq_of_lt (lt_of_lt_of_eq w.isLt blockSize)
  have outside : ∀ e, e < p ∨ p + 64 ≤ e → memGet m e = memGet s.mem e := fun e he => by
    rw [hm]; exact memGet_memWrite_outside _ _ _ _ _ wf he
  cases hw : writes with
  | nil =>
    subst hw
    rw [List.isEmpty_nil, if_pos rfl] at run
    obtain ⟨r, c, went, wait, regs⟩ := portRetire (became_wait { u with mem := m } .none)
    obtain ⟨on, rest⟩ := portRest_counted c went regs
    refine ⟨_, run, ?_, fun e he => ?_, rest, fun h => absurd rfl h, fun _ => ⟨⟨?_, fun h => on.ready (st.trans h), ?_⟩, ?_⟩⟩
    · rw [show State.mem _ = m from c.mem]; exact read
    · exact (congrArg (fun l => memGet l e) c.mem).trans (outside e he)
    · exact on.pc.trans (congrArg (· + 4) pc)
    · exact on.count.trans (congrArg (· + 1) count)
    · exact (congrArg Hart.wait c.me).trans (by rw [counted_get, wait])
  | cons x l =>
    subst hw
    rw [List.isEmpty_cons, if_neg Bool.false_ne_true] at run
    have b := became_wait { u with mem := m } (.port op a b d reads (x :: l))
    refine ⟨_, run, read, outside, ?_, fun _ => rfl, fun h => absurd h nofun⟩
    exact
      { regs := fun g => by
          show (me (updMe { u with mem := m } _)).gr g = (me u).gr g
          rw [me_updMe]; rfl
        hart := by
          show (me (updMe { u with mem := m } _)).vecKept = _
          rw [me_updMe]; rfl
        core := by
          show (myCore (updMe { u with mem := m } _)).kept = _
          rw [b.mine]; rfl
        others := by
          obtain ⟨slots, cores⟩ := b.others fun k hk => setHart_get_ne _ _ _ _ hk
          exact ⟨slots, cores⟩
        machine := rfl }

theorem portTurns (s : State) (wf : s.memOk) : PortTurns s := by
  intro op a b d reads writes at' n image result taken
  refine ⟨?_, ?_, ?_, ?_⟩
  · rintro rfl x hx p
    have run := portTurn_reading at' hx
    refine ⟨fun held => by rw [run, if_pos held], fun free => ⟨_, _, by rw [run, if_neg (by rw [free]; exact Bool.false_ne_true)], rfl, ?_⟩⟩
    rw [BitVec.toNat_ofNat, Nat.mod_eq_of_lt]
    exact lt_of_lt_of_eq (memRead_lt _ _ _) blockSize.symm
  · rintro rfl h r e
    have good : r.Good := portResult_good (imageOf_read _) e
    exact ⟨_, _, portTurn_made at' h e, rfl, by simp, imageOf_lines good⟩
  · rintro rfl h z x e
    have run := portTurn_refused at' h e
    refine ⟨fun other => by rw [run, other]; rfl, fun alone quiet => ?_⟩
    rw [run, if_pos alone]
    obtain ⟨r, c, rep⟩ := (became_wait s .none).portReplay
    have settled : Settled (updMe s fun h => { h with wait := .none }) := fun hv => quiet (by
      rw [← hv, isVecHart, isVecHart, myCore_updMe]; rfl)
    obtain ⟨r', c', rep'⟩ := became_portReplay (updMe s fun h => { h with wait := .none })
    exact portTraps_of c rep.pc rep.regs (c'.settled rep'.wait settled)
  · rintro w l rfl p
    refine ⟨fun held => ?_, fun free settled => portTurn_writes wf at' free settled⟩
    rw [portTurn_writing at', if_pos]
    rcases held with held | held
    · rw [show portWaits s (ptrBank d) (blockPlace s d (4 - l.length)) = true from held]; rfl
    · rw [held]; simp

theorem portResult_add {k eps : Nat} {x y : BlockImage} (good : pairBad x y = false) : portResult 0 k eps x y = .inr (blockAdd x y) := by
  rw [portResult, if_neg (by decide), good]; rfl

theorem portResult_blend {k eps : Nat} {x y : BlockImage} (good : pairBad x y = false) : portResult 2 k eps x y = .inr (blockBlend x y) := by
  rw [portResult, if_neg (by decide), good]; rfl

theorem portResult_pair {op : Fin 3} (h : op ≠ 1) {k eps : Nat} {x y : BlockImage} (bad : pairBad x y = true) : portResult op k eps x y = .inl (.fmt, 0) := by
  rw [portResult, if_neg h, if_pos bad]

theorem portResult_elim_bad {k eps : Nat} {x y : BlockImage} (bad : (x.n == 0 || decide (8 < x.n) || x.dirty || k == 0 || decide (x.n ≤ k)) = true) :
    portResult 1 k eps x y = .inl (.fmt, 0) := by
  rw [portResult, if_pos rfl, if_pos bad]

section

variable (s : State) (b a d : BitVec 5)

theorem exec_gadd : exec (.gadd b a d) s = blockOp 0 (rWord 0x2E 0 b a d) (gr s a) (gr s b) (gr s d) s := rfl
theorem exec_gelim : exec (.gelim b a d) s = blockOp 1 (rWord 0x2E 1 b a d) (gr s a) (gr s b) (gr s d) s := rfl
theorem exec_gdamp : exec (.gdamp b a d) s = blockOp 2 (rWord 0x2E 2 b a d) (gr s a) (gr s b) (gr s d) s := rfl

end

/-- Settles O36: in one turn, the result's bytes read back as the image, or the trap; otherwise the turns one by one. -/
theorem blockPortResults : Obligations.BlockPortResults := by
  unfold Obligations.BlockPortResults
  refine ⟨⟨fun s b a d wf ready whole => ?_, fun s b a d ready whole => ?_, portTurns⟩, fun s b a d wf ready whole => ?_, fun s b a d ready whole => ?_⟩
  · exact ⟨fun good => ⟨blockOp_writes (op := 0) ready whole (exec_gadd s b a d) wf (portResult_add good),
        blockOp_writes (op := 2) ready whole (exec_gdamp s b a d) wf (portResult_blend good)⟩,
      fun bad => ⟨blockOp_traps (op := 0) ready whole (exec_gadd s b a d) (portResult_pair (by decide) bad),
        blockOp_traps (op := 2) ready whole (exec_gdamp s b a d) (portResult_pair (by decide) bad)⟩⟩
  · have split : s.split = true := by simpa [portWhole] using whole
    exact ⟨⟨_, (exec_gadd s b a d).trans (blockOp_split (op := 0) ready split), rfl⟩,
      ⟨_, (exec_gdamp s b a d).trans (blockOp_split (op := 2) ready split), rfl⟩⟩
  · exact ⟨fun good w e => blockOp_writes (op := 1) ready whole (exec_gelim s b a d) wf (portResult_elim_good good e),
      fun good j e => blockOp_traps (op := 1) ready whole (exec_gelim s b a d) (portResult_elim_singular good e),
      fun bad => blockOp_traps (op := 1) ready whole (exec_gelim s b a d) (portResult_elim_bad bad)⟩
  · have split : s.split = true := by simpa [portWhole] using whole
    exact ⟨_, (exec_gelim s b a d).trans (blockOp_split (op := 1) ready split), rfl⟩

end Sys2Proof.Machine
end

section
/-!
PROOFS. Elements wider than a register. VTYPE whose SEW field is 7 (a width of 128) is not refused by VCFG unless ILL is set with it; a register
row holds 32 bits of such an element. The statements on vector results that speak of every VTYPE VCFG lets through fail there: O27, O29 to O33, O60.
-/

namespace Sys2Proof.Machine

set_option Elab.async false

/-! ## Elements of 128 bits -/

/-- An element of width 128 is read from the 32 bits of one row. -/
theorem elemGet_wide_lt (s : State) (c r e : Nat) : (elemGet s c 128 r e).toNat < 2 ^ 32 := by
  have row : ∀ (x : BitVec 32) (k : Nat), (BitVec.ofNat 64 (x.toNat / 2 ^ k % 2 ^ 128)).toNat < 2 ^ 32 := by
    intro x k
    rw [BitVec.toNat_ofNat]
    exact lt_of_le_of_lt (Nat.mod_le _ _) (lt_of_le_of_lt (Nat.mod_le _ _) (lt_of_le_of_lt (Nat.div_le_self _ _) x.isLt))
  exact row _ _

/-- No such element has become a value of more than 32 bits. -/
theorem wide_cut_ne {s : State} {c r e : Nat} {x : BitVec 64} (large : 2 ^ 32 ≤ x.toNat) : elemGet s c 128 r e ≠ cutBits 128 x := by
  intro h
  have lt := elemGet_wide_lt s c r e
  rw [h, cutBits, BitVec.toNat_ofNat] at lt
  have hx := x.isLt
  omega

theorem not_writes_wide {f : VForm} {s t : State} {new : Nat → Option (BitVec 64)} {x : BitVec 64} (dst : f.op.dst = some .s)
    (sew : (f.cmd s).sew = 128) (room : 0 < VForm.room s .s) (e : new 0 = some x) (large : 2 ^ 32 ≤ x.toNat) : ¬ f.writes s t new := by
  intro h
  have h := h .s 0 dst room
  rw [e, show VKind.width .s (f.cmd s).sew = 128 from sew] at h
  exact wide_cut_ne large h

/-! ## A machine with such a VTYPE -/

/-- A range of 2^20 lines at virtual 0 with every right, mapped to bank 15 of core 0, of the class bypass. -/
def wideRange : RDesc :=
  { w0 := 9, w1 := BitVec.ofNat 64 (64 * (2 ^ 20 - 1) + 31), w2 := 0x100003C0000, w3 := BitVec.ofNat 64 ((2 ^ 20 - 1) * 2 ^ 32) }

/-- Slot 0 of core 0 is the vector hart of one array way and one bank, VL is n, VTYPE's SEW field 7; g1 is 2^40, and v4 holds all ones in lanes 0 and 1.
Virtual 0 is bank 15, of raw format, whose byte 4 is 1. -/
def wideState (n : Nat) : State :=
  let core : Core := Core.reset.mapHarts fun k h => if k = 0 then { h with st := .ready }.setG 1 (2 ^ 40) else h
  { State.reset with
    vqueue := false
    mem := [⟨0x100003C0004, 1⟩]
    cores := [(0, { core with
      narr := 1, nbank := 1, rcache := [⟨0, wideRange⟩], bfmt := Vector.replicate 16 0x1F
      vec := { Vec.bindTo (some 0) with vl := BitVec.ofNat 64 n, vtype := 7, v := [(131072, 0xFFFFFFFF), (131073, 0xFFFFFFFF)] } })] }

/-- `vadd.vx v8, v4, g1`. -/
def wideAdd : VForm := ⟨.add, true, 8, 4, 1, false, 0, 0⟩

theorem wideAdd_runs : wideAdd.runs (wideState 1) = true := by decide +kernel
theorem wideAdd_active : 0 ∈ (wideAdd.cmd (wideState 1)).actives (wideState 1) 0 0 1 := by decide +kernel
theorem wideAdd_value : 2 ^ 32 ≤ (wideAdd.value (wideState 1) 0).1.toNat := by decide +kernel

/-- Refutes O27: at a width of 128 `vadd.vx` gives an element of which a register row holds the low half only. -/
theorem not_vectorElementResults : ¬ Obligations.VectorElementResults := by
  unfold Obligations.VectorElementResults
  intro h
  obtain ⟨-, t, -, -, -, -, writes, -⟩ := h (wideState 1) (.vaddVx 0 0 0 0 4 1 8) wideAdd rfl wideAdd_runs (by decide) (by decide) (by decide)
  exact not_writes_wide rfl rfl (by decide +kernel) (if_pos wideAdd_active) wideAdd_value writes

/-! ## `vrng`, permutations, segmented reductions -/

/-- `vrng v8`. -/
def wideRng : VForm := ⟨.rng, false, 8, 0, 0, false, 0, 0⟩

theorem wideRng_runs : wideRng.runs (wideState 1) = true := by decide +kernel
theorem wideRng_active : 0 ∈ (wideRng.cmd (wideState 1)).actives (wideState 1) 0 (wideRng.cmd (wideState 1)).vstart (wideRng.cmd (wideState 1)).vl := by
  decide +kernel
theorem wideRng_value : let x := vrsStep (vrsGet (wideState 1) 0 0)
    2 ^ 32 ≤ ((if x = 0 then vrsSeed else x) >>> (64 - 128)).toNat := by decide +kernel

/-- Refutes O29: at a width of 128 `vrng` draws more bits than a register row holds. -/
theorem not_vectorControlResults : ¬ Obligations.VectorControlResults := by
  unfold Obligations.VectorControlResults
  intro h
  obtain ⟨-, -, random⟩ := h.1 (wideState 1) (by decide +kernel)
  obtain ⟨t, -, -, -, -, -, writes⟩ := (random (.vrngV 0 0 8) wideRng rfl wideRng_runs (by decide +kernel)).1 rfl
  exact not_writes_wide rfl rfl (by decide +kernel) (if_pos wideRng_active) wideRng_value writes

/-- `vslide1up.vx v8, v4, g1`. -/
def wideSlide : VForm := ⟨.slide1up, true, 8, 4, 1, false, 0, 0⟩

theorem wideSlide_runs : wideSlide.runs (wideState 1) = true := by decide +kernel
theorem wideSlide_value : wideSlide.permuted (wideState 1) 0 = some (2 ^ 40) := by decide +kernel

/-- Refutes O31: at a width of 128 the scalar that `vslide1up` moves in does not fit a register row. -/
theorem not_permutationResults : ¬ Obligations.PermutationResults := by
  unfold Obligations.PermutationResults
  intro h
  obtain ⟨t, -, -, -, -, writes, -⟩ := h (wideState 1) (.vslide1upVx 0 0 4 1 8) wideSlide rfl wideSlide_runs (by decide)
  exact not_writes_wide rfl rfl (by decide +kernel) wideSlide_value (by decide) writes

/-- `vsegsum v8, v4` in segments of two. -/
def wideSum : VForm := ⟨.segsum, false, 8, 4, 0, false, 0, 2⟩

theorem wideSum_runs : wideSum.runs (wideState 2) = true := by decide +kernel
theorem wideSum_segments : 0 < ((wideSum.cmd (wideState 2)).vl + 2 - 1) / 2 := by decide +kernel
theorem wideSum_value : 2 ^ 32 ≤ (BitVec.ofNat 64 ((((wideSum.taken (wideState 2)).filter fun p => p.1 / 2 == 0).map fun p => p.2.toNat).sum %
    2 ^ (wideSum.cmd (wideState 2)).sew)).toNat := by decide +kernel

/-- Refutes O30: at a width of 128 the sum of a segment of two elements does not fit a register row. -/
theorem not_reductionResults : ¬ Obligations.ReductionResults := by
  unfold Obligations.ReductionResults
  intro h
  obtain ⟨segments, -⟩ := h.2 (wideState 2) (.vsegsumV 0 0 0 4 8) wideSum rfl wideSum_runs
  obtain ⟨t, new, -, -, -, -, -, writes, sum, -⟩ := segments (by decide)
  refine not_writes_wide rfl rfl (by decide +kernel) (if_pos wideSum_segments) ?_ writes
  rw [sum rfl 0 wideSum_segments]
  exact wideSum_value

/-! ## Loads of memory and of a bank -/

/-- `vld v8, (g2)`, of the bank at virtual 0. -/
def wideLoad : VForm := ⟨.ld, false, 8, 0, 2, false, 0, 0⟩

theorem wideLoad_ready : wideLoad.ready (wideState 1) = true := by decide +kernel
theorem wideLoad_placed : wideLoad.placed (wideState 1) (fun _ => true) = true := by decide +kernel

/-- Refutes O32: at a width of 128 a vector load brings more bytes than a register row holds. -/
theorem not_vectorMemoryResults : ¬ Obligations.VectorMemoryResults := by
  unfold Obligations.VectorMemoryResults
  intro h
  obtain ⟨w, t, -, -, -, -, -, -, -, -, done⟩ := (h (wideState 1) (.vld 0 0 2 8) wideLoad (by decide) rfl wideLoad_ready).1 wideLoad_placed (by decide)
  obtain ⟨-, writes⟩ := done.1 rfl
  exact not_writes_wide rfl rfl (by decide +kernel) (if_pos (by decide +kernel)) (by decide +kernel) writes

/-- `vldsp v8, way 15, g2`. -/
def wideRow : VForm := ⟨.ldsp, false, 8, 15, 2, false, 0, 0⟩

theorem wideRow_runs : wideRow.runs (wideState 1) = true := by decide +kernel

/-- Refutes O33: at a width of 128 `vldsp` of a bank of raw format brings more bits than a register row holds. -/
theorem not_bankRowTransfers : ¬ Obligations.BankRowTransfers := by
  unfold Obligations.BankRowTransfers
  intro h
  obtain ⟨t, -, -, -, -, load, -⟩ := h (wideState 1) (.vldsp 0 0 0 15 2 8) wideRow (by decide) rfl wideRow_runs (by decide +kernel) (by decide +kernel)
    (by decide +kernel) (by decide +kernel)
  obtain ⟨-, -, writes⟩ := load rfl
  exact not_writes_wide rfl rfl (by decide +kernel) (if_pos (by decide +kernel)) (by decide +kernel) writes

/-! ## A pass of a convoy -/

/-- `vadd.vx v8, v4, g1` in a convoy, its turn begun. -/
def wideMember : VCmd := { wideAdd.cmd (wideState 1) with began := true }

/-- The machine of width 128 with that command in its convoy. -/
def widePass : State := updCore (wideState 1) 0 fun q => { q with vec := { q.vec with convoy := [wideMember] } }

theorem wideMember_active : 0 ∈ wideMember.actives widePass 0 wideMember.next
    (min wideMember.vl ((wideMember.next / (coreAt widePass 0).glanes + 1) * (coreAt widePass 0).glanes)) := by decide +kernel
theorem wideMember_value : 2 ^ 32 ≤ (wideMember.value widePass 0 0).1.toNat := by decide +kernel

/-- Refutes O60: at a width of 128 a pass of `vadd.vx` gives an element of which a register row holds the low half only. -/
theorem not_sequencerEvents : ¬ Obligations.SequencerEvents := by
  unfold Obligations.SequencerEvents
  intro h
  obtain ⟨-, -, -, -, pass⟩ := h widePass 0 (by decide) (by decide +kernel)
  obtain ⟨t, -, writes, -⟩ := pass (.vaddVx 0 0 0 0 4 1 8) wideAdd wideMember rfl rfl rfl (by decide +kernel) (by decide +kernel) (by decide +kernel)
    rfl (by decide +kernel) (by decide +kernel) (by decide +kernel) (by decide +kernel) (by decide +kernel) (by decide +kernel)
  have cell := writes .s 0 rfl (by decide +kernel)
  rw [if_pos wideMember_active] at cell
  exact wide_cut_ne wideMember_value cell

end Sys2Proof.Machine
end

section
/-!
PROOFS. A transposing copy of elements wider than a register row (R353); obligation O55.
-/

namespace Sys2Proof.Machine

set_option Elab.async false

/-- A `copyt` of one row of 16 bytes from virtual 0 into v8, issued under a VTYPE whose SEW field is 7. -/
def wideCopy : CReq :=
  { id := 0, core := 0, job := 0, dir := 0, user := false, kind := 4, src := 0, dst := 0, len := 16, rows := 1, rowb := 16, sstride := 0, dstride := 0
    list := 0, wide := false, nrows := 0, swz := false, tok := 0, waitMask := 0, bar := 0, mask := none, z := false, zn := 0, zv := 0, zfrom := 0, zgpa := 0
    vreg := 8, vt := 7, glanes := 2048, lanes := 2048, fmt := none, scales := [], pc := 0, next := 0, total := 1, group := 0, rank := 0, op := 0, ty := 0
    rootOnly := false, count := 0, result := none, wrote := 0, rc := [⟨0, wideRange⟩], begun := true, done := false, failed := none }

/-- The machine of width 128 with that request active in engine 0 of column 0. -/
def wideEngine : State := updCol (wideState 1) 0 fun c => { c with eng := c.eng.set 0 [wideCopy] }

theorem wideCopy_turn : wideCopy.turn wideEngine 0 0 where
  alone := rfl
  begun := ⟨rfl, rfl, rfl⟩
  runs := by decide +kernel
  plain := ⟨rfl, rfl⟩
  homes := by decide +kernel
  net p h := absurd h List.not_mem_nil

theorem wideCopy_target : ∀ i < 16, targetOf wideEngine (0x100003C0000 + i) = .bank 0 15 i := by decide +kernel

theorem wideCopy_spans : wideCopy.spans wideEngine needRd 0 16 0x100003C0000 where
  fits := by decide
  maps i hi := by
    refine ⟨wideRange, 2, ?_⟩
    revert i
    decide +kernel
  goes i hi := by
    rw [wideCopy_target i hi]
    revert i
    decide +kernel

theorem wideCopy_value : 2 ^ 32 ≤ (BitVec.ofNat 64 (memRead wideEngine.mem 0x100003C0000 16 / 2 ^ (128 * 0) % 2 ^ 128)).toNat := by decide +kernel

/-- Refutes O55: at a width of 128 an element of a `copyt` does not fit a register row. -/
theorem not_engineEvents : ¬ Obligations.EngineEvents := by
  unfold Obligations.EngineEvents
  intro h
  obtain ⟨-, -, -, -, -, transposed, -⟩ := h wideEngine 0 wideCopy
  obtain ⟨t, -, -, elems, -⟩ := transposed 0 0x100003C0000 wideCopy_turn rfl rfl rfl (by decide) (by decide) (by decide +kernel) (by decide) (by decide +kernel)
    (by decide +kernel) (by decide) (by decide +kernel) (by decide +kernel) (by decide +kernel) (by decide +kernel) (by decide +kernel) wideCopy_spans
  have first := elems 0 (by decide)
  have lt := elemGet_wide_lt t 0 8 0
  have value := wideCopy_value
  have read : elemGet t 0 128 8 0 = BitVec.ofNat 64 (memRead wideEngine.mem 0x100003C0000 16 / 2 ^ (128 * 0) % 2 ^ 128) := first
  rw [read] at lt
  exact absurd value (Nat.not_le.2 lt)

end Sys2Proof.Machine
end

section
/-!
PROOFS. The vector save image (R410 to R412, R417), and the save of a core into its area (R404 to R409).
-/

namespace Sys2Proof.Machine

set_option Elab.async false

/-! ## Instructions that retire with a status after a change of the own core -/

/-- A status in gd, once the core has changed in its vector context alone. -/
theorem done4_newVec (u : State) (d : BitVec 5) (v : BitVec 64) (f : Core → Vec) :
    let t := done4 d v (updMyCore u fun q => { q with vec := f q })
    GoesOn u t ((me u).pc + 4) ∧ Wrote u t d v ∧ OthersKept u t ∧ (me t).kept = (me u).kept ∧ (∀ b, byteAt t b = byteAt u b) ∧
      (myCore t).vec = f (myCore u) := by
  have hart : me (updMyCore u fun q => { q with vec := f q }) = me u := by rw [me_updMyCore]; rfl
  obtain ⟨g, hg⟩ : ∃ g : Core → Core, g = fun q => { q with vec := f q }.setHart u.curSlot ((me u).setG d v) := ⟨_, rfl⟩
  have whole : done4 d v (updMyCore u fun q => { q with vec := f q }) = retireAt ((me u).pc + 4) (updMyCore u g) := by
    have put : setG (updMyCore u fun q => { q with vec := f q }) d v = updMyCore u g := by
      rw [setG, updMe_eq_updMyCore, updMyCore_updMyCore, hart, hg]
      rfl
    have pc : (me (updMyCore u g)).pc = (me u).pc := by
      rw [me_updMyCore, hg]
      exact (congrArg Hart.pc (setHart_get_self _ _ _)).trans (setG_pc _ _ _)
    rw [done4, retire, put, pc]
  have slot : (g (myCore u)).harts.get u.curSlot = (me u).setG d v := by rw [hg]; exact setHart_get_self _ _ _
  obtain ⟨on, hart', kept, others, mem, -⟩ := goesOn_retireAt_updMyCore ((me u).pc + 4) u g (by rw [hg]; rfl)
    ((congrArg Hart.st slot).trans (setG_st _ _ _)) fun k hk => by rw [hg]; exact setHart_get_ne _ _ _ _ hk
  rw [slot] at hart'
  intro t
  rw [show t = _ from whole]
  refine ⟨on, ⟨?_, fun r hr => ?_⟩, others, ?_, fun b => congrArg (memGet · b) mem, ?_⟩
  · rw [gr, hart', gr_retired, gr_setG, if_pos rfl]
  · rw [gr, hart', gr_retired, gr_setG, if_neg hr]; rfl
  · rw [hart', kept_retired, kept_setG]
  · exact (congrArg Core.vec kept).trans (by rw [hg]; rfl)

/-! ## `savev` and `rstv` (R417) -/

section

variable {s : State} {a : BitVec 5} (d : BitVec 5) (fn : Nat) (k : BitVec 64 → State → Res Unit) (sys : isSys s = true)
include sys

theorem imageInstr_misaligned (off : (gr s a).toNat % 4096 ≠ 0) : imageInstr fn a d s k = .trap .misalign (gr s a) s := by
  simp [imageInstr, sys, off]

variable (line : (gr s a).toNat % 4096 = 0)
include line

theorem imageInstr_waits (busy : (myCore s).quiet = false) (other : isVecHart s = false) :
    imageInstr fn a d s k = .hold (updMe s fun h => { h with wait := .settle }) := by
  simp [imageInstr, sys, line, busy, other]

variable (quiet : (myCore s).quiet = true)
include quiet

theorem imageInstr_gang (gang : (myCore s).gang ≠ 1) : imageInstr fn a d s k = .ok () (done4 d 2 s) := by
  simp [imageInstr, sys, line, quiet, gang]

theorem imageInstr_unbound (gang : (myCore s).gang = 1) (free : (myCore s).vec.bound = false) :
    imageInstr fn a d s k = .ok () (done4 d 1 s) := by
  simp [imageInstr, sys, line, quiet, gang, free]

theorem imageInstr_goes (gang : (myCore s).gang = 1) (bound : (myCore s).vec.bound = true) : imageInstr fn a d s k = k (gr s a) s := by
  simp [imageInstr, sys, line, quiet, gang, bound]

end

/-- The chunks of vector loads are the L0 data cache's business (R99). -/
theorem coreAt_readChunks (s : State) (x : Nat) :
    ∃ f l, coreAt (readChunks (fun _ => true) s) x = { coreAt s x with l0d := f, chunkLines := l } := by
  by_cases own : x = s.curCore.val
  · subst own
    exact ⟨_, _, coreAt_updCore_self _ _ _⟩
  · exact ⟨(coreAt s x).l0d, (coreAt s x).chunkLines, coreAt_updCore_ne _ _ _ _ own⟩

/-- The image of a core reads none of what `readChunks` changes. -/
theorem image_readChunks (s : State) (gang : (myCore s).gang = 1) :
    let u := readChunks (fun _ => true) s
    vecHeader u s.curCore = vecHeader s s.curCore ∧ (∀ o, imageLine u s.curCore o = imageLine s s.curCore o) ∧
      imagePlaces (coreAt u s.curCore).lanes (!(coreAt u s.curCore).vec.vrs.isEmpty) (rowsOf (coreAt u s.curCore)) =
        imagePlaces (myCore s).lanes (!(myCore s).vec.vrs.isEmpty) (rowsOf (myCore s)) := by
  intro u
  have part {α : Type} (f : Core → α) (hf : ∀ q, f q = f { q with l0d := [], chunkLines := [] }) (x : Nat) : f (coreAt u x) = f (coreAt s x) := by
    obtain ⟨d, l, hu⟩ := coreAt_readChunks s x
    rw [hf, show coreAt u x = _ from hu, hf (coreAt s x)]
  have vec (x : Nat) : (coreAt u x).vec = (coreAt s x).vec := part Core.vec (fun _ => rfl) x
  have lanes (x : Nat) : (coreAt u x).lanes = (coreAt s x).lanes := part Core.lanes (fun _ => rfl) x
  have gang' : (coreAt u s.curCore).gang = (coreAt s s.curCore).gang := part Core.gang (fun _ => rfl) _
  have rows : rowsOf (coreAt u s.curCore) = rowsOf (coreAt s s.curCore) := part rowsOf (fun _ => rfl) _
  have own : leaderOf s s.curCore = s.curCore := if_pos gang
  have own' : leaderOf u s.curCore = s.curCore := if_pos (gang'.trans gang)
  refine ⟨?_, fun o => ?_, ?_⟩
  · simp only [vecHeader, own, own', vec, rows, part Core.gangSize (fun _ => rfl), part Core.gangPos (fun _ => rfl), part Core.narr fun _ => rfl]
  · have vrs : vrsGet u = vrsGet s := by
      funext c l
      rw [vrsGet, vrsGet, laneCore, laneCore, lanes, vec]
    unfold imageLine
    dsimp only
    rw [own, own', vrs, vec, lanes, part Core.gangPos fun _ => rfl]
  · rw [vec, lanes, rows]
    rfl

/-- The arrays of the issuing core are as they were. -/
structure ArraysKept (s t : State) : Prop where
  here : t.curCore = s.curCore
  narr : (myCore t).narr = (myCore s).narr
  size : (myCore t).gangSize = (myCore s).gangSize

theorem ArraysKept.trans {s t u : State} (h : ArraysKept s t) (k : ArraysKept t u) : ArraysKept s u :=
  ⟨k.here.trans h.here, k.narr.trans h.narr, k.size.trans h.size⟩

theorem ArraysKept.lanes {s t : State} (h : ArraysKept s t) : (myCore t).lanes = (myCore s).lanes := by rw [Core.lanes, h.narr]; rfl

theorem ArraysKept.glanes {s t : State} (h : ArraysKept s t) : (myCore t).glanes = (myCore s).glanes := by
  rw [Core.glanes, h.lanes, Core.gang, h.size]; rfl

theorem Touched.arraysKept {s t : State} (h : Touched s t) : ArraysKept s t :=
  ⟨(congrArg State.curCore h.machine :), h.core_eq Core.narr fun _ => rfl, h.core_eq Core.gangSize fun _ => rfl⟩

theorem arraysKept_wayTo {c g : Nat} {flit : Bool} {s t : State} {z : Option Cause} (h : wayTo c g flit s = some (z, t)) : ArraysKept s t := by
  have taken (k b w : Nat) : ArraysKept s (takeBank k b w s) :=
    ⟨rfl, myCore_takeBank Core.narr (fun _ => rfl) s k b w, myCore_takeBank Core.gangSize (fun _ => rfl) s k b w⟩
  unfold wayTo at h
  grind [touched_useAllowance, Touched.arraysKept, Touched.refl]

theorem arraysKept_xlate {r : BitVec 5} {va : BitVec 64} {s t : State} {g : Nat × Nat} (h : xlate r va s = .ok g t) : ArraysKept s t := by
  have touched := touched_translate s s.curCore (isSys s) r va
  unfold xlate at h
  split at h
  · next e =>
    rw [e] at touched
    split at h
    · cases h
    · cases h; exact touched.arraysKept
  all_goals cases h

/-- The reads of an image change no array. -/
theorem arraysKept_imageIn {va : BitVec 64} : ∀ {l : List Nat} {acc out : List (Nat × Nat)} {s t : State}, imageIn va l acc s = .ok out t → ArraysKept s t
  | [], _, _, s, t, h => by cases h; exact ⟨rfl, rfl, rfl⟩
  | off :: l, acc, out, s, t, h => by
    rw [imageIn] at h
    dsimp only at h
    obtain ⟨r, hx⟩ : ∃ r, r = xlate needRd (va + BitVec.ofNat 64 off) s := ⟨_, rfl⟩
    rw [← hx] at h
    cases r with
    | trap => cases h
    | hold => cases h
    | ok g u =>
      obtain ⟨g, x⟩ := g
      have moved := arraysKept_xlate hx.symm
      simp only [Res.andThen] at h
      split at h
      · cases h
      · split at h
        · cases h
        · cases h
        · next v hv =>
          have read := touched_ownerRead false (redirect u (myCore u).job g) 64 v
          split at h
          · cases h
          · next x w hw =>
            rw [hw] at read
            exact ((moved.trans (arraysKept_wayTo hv)).trans read.arraysKept).trans (arraysKept_imageIn h)

/-- i answers v in a machine that has come to u, its vector context then being one that P holds of. -/
def Answers (i : Instr) (s u : State) (d : BitVec 5) (v : BitVec 64) (P : Vec → Prop) : Prop :=
  ∃ t, exec i s = .next t ∧ GoesOn u t ((me u).pc + 4) ∧ Wrote u t d v ∧ OthersKept u t ∧ (me t).kept = (me u).kept ∧
    (∀ b, byteAt t b = byteAt u b) ∧ P (myCore t).vec

theorem answers_newVec {i : Instr} {s u : State} {d : BitVec 5} {v : BitVec 64} {P : Vec → Prop} (f : Core → Vec)
    (run : exec i s = .next (done4 d v (updMyCore u fun q => { q with vec := f q }))) (h : P (f (myCore u))) : Answers i s u d v P := by
  obtain ⟨on, wrote, others, kept, mem, vec⟩ := done4_newVec u d v f
  exact ⟨_, run, on, wrote, others, kept, mem, by rw [vec]; exact h⟩

theorem answers_done4 {i : Instr} {s u : State} {d : BitVec 5} {v : BitVec 64} (run : exec i s = .next (done4 d v u)) :
    Answers i s u d v fun w => w = (myCore u).vec := by
  have whole : done4 d v u = retireAt ((me u).pc + 4) (updMe u fun h => h.setG d v) := by
    rw [done4, retire, setG, me_updMe, setG_pc]
  have hart : me (done4 d v u) = ((me u).setG d v).retired ((me u).pc + 4) := by rw [whole, me_retireAt, me_updMe]
  have rest : RestKept u (done4 d v u) := by rw [whole]; exact restKept_retireAt_updMe _ _ _
  refine ⟨_, run, ?_, ⟨?_, fun r hr => ?_⟩, rest.others, ?_, rest.memory, (congrArg Core.vec rest.core :)⟩
  · rw [whole]; exact goesOn_retireAt_updMe _ _ _ (setG_st _ _ _)
  · rw [gr, hart, gr_retired, gr_setG, if_pos rfl]
  · rw [gr, hart, gr_retired, gr_setG, if_neg hr]; rfl
  · rw [hart, kept_retired, kept_setG]

section

variable {s : State} {a : BitVec 5} (d : BitVec 5) (sys : isSys s = true) (line : (gr s a).toNat % 4096 = 0) (quiet : (myCore s).quiet = true)
  (gang : (myCore s).gang = 1) (bound : (myCore s).vec.bound = true)
include sys line quiet gang bound

theorem savev_saves {s1 : State}
    (written : imageOut (gr s a) ((0, vecHeader s s.curCore) ::
      (imagePlaces (myCore s).lanes (!(myCore s).vec.vrs.isEmpty) (rowsOf (myCore s))).map fun o => (o, imageLine s s.curCore o))
        (readChunks (fun _ => true) s) = .ok () s1) :
    Answers (.savev a d) s s1 d 0 fun v => v.vdirty = 0 ∧ (∀ n : Fin 32, v.vhw.get n = 0) ∧
      { v with vdirty := (myCore s1).vec.vdirty, vhw := (myCore s1).vec.vhw } = (myCore s1).vec := by
  obtain ⟨header, places, list⟩ := image_readChunks s gang
  refine answers_newVec (fun q => { q.vec with vdirty := 0, vhw := Vector.replicate 32 0 }) ?_ ⟨rfl, fun n => ?_, rfl⟩
  · show execSavev a d s = _
    rw [execSavev, imageInstr_goes d _ _ sys line quiet gang bound]
    simp only [list, header, places, written, Res.andThen, finish]
  · simp [Vector.get]

variable {s1 : State} {x : Nat} (header : imageIn (gr s a) [0] [] s = .ok [(0, x)] s1)
include header

theorem rstv_refused {n : BitVec 64} (why : (hdrNarr x ≠ (myCore s1).narr ∧ n = 3) ∨
    (hdrNarr x = (myCore s1).narr ∧ hdrOk x (myCore s1).glanes 0 0 = false ∧ n = 4)) :
    Answers (.rstv a d) s s1 d n fun v => v = (myCore s1).vec := by
  refine answers_done4 ?_
  show execRstv a d s = _
  rw [execRstv, imageInstr_goes d _ _ sys line quiet gang bound]
  obtain ⟨narr, rfl⟩ | ⟨narr, bad, rfl⟩ := why
  · simp only [header, Res.andThen, List.headD_cons, ne_eq, narr, not_false_eq_true, if_true, finish]
  · simp only [header, Res.andThen, List.headD_cons, narr, ne_eq, not_true_eq_false, if_false, bad, Bool.not_false, if_true, finish]

theorem rstv_restores (narr : hdrNarr x = (myCore s1).narr) (good : hdrOk x (myCore s1).glanes 0 0 = true) {s2 : State} {l : List (Nat × Nat)}
    (lines : imageIn (gr s a) (imagePlaces (myCore s1).lanes (hdrVrsp x) (hdrRows x)) [] s1 = .ok l s2) :
    Answers (.rstv a d) s s2 d 0 fun v => v = imageVec (myCore s2).vec (myCore s1).lanes (myCore s1).glanes x l := by
  have kept := arraysKept_imageIn lines
  refine answers_newVec (fun q => imageVec q.vec q.lanes q.glanes x l) ?_ (by rw [kept.lanes, kept.glanes])
  show execRstv a d s = _
  rw [execRstv, imageInstr_goes d _ _ sys line quiet gang bound]
  simp only [header, Res.andThen, List.headD_cons, narr, ne_eq, not_true_eq_false, if_false, good, Bool.not_true, Bool.false_eq_true, lines, finish]

end

/-! ## Save areas in DRAM (R404, R408) -/

/-- What lies between two places of a column's DRAM that an area spans. -/
theorem targetOf_between {s : State} {a z x o o' : Nat} {k : Fin 8} (first : targetOf s a = .dram k o) (last : targetOf s z = .dram k o')
    (low : a ≤ x) (high : x ≤ z) (small : z < a + 2 ^ 24) : targetOf s x = .dram k (gpaOff x) := by
  obtain ⟨host, all, here, col, -, near⟩ := targetOf_dram.1 first
  obtain ⟨-, -, -, -, -, far⟩ := targetOf_dram.1 last
  have upper : x / 2 ^ 45 = a / 2 ^ 45 := by unfold gpaOff at near far; omega
  have dev : gpaDev x = gpaDev a := by unfold gpaDev; omega
  have col' : gpaCol x = gpaCol a := by unfold gpaCol; omega
  exact targetOf_dram.2 ⟨dev ▸ host, dev ▸ all, dev ▸ here, col.trans col'.symm, rfl, by unfold gpaOff at *; omega⟩

/-- No byte of DRAM is one of a bank's. -/
theorem dram_apart {s : State} {x o : Nat} {k : Fin 8} (dram : targetOf s x = .dram k o) (c : Nat) {w : Nat} (hw : w < 16) :
    x < bankGpa s c w 0 ∨ bankGpa s c w 0 + 2 ^ 18 ≤ x := by
  obtain ⟨-, -, -, -, -, near⟩ := targetOf_dram.1 dram
  have core : idxOf c < 256 := Nat.mod_lt _ (by decide)
  unfold bankGpa mkGpa gpaOff at *
  omega

/-- Core c's area is at a, in column k, with room for b banks. -/
theorem areaBase_iff {s : State} {c b a : Nat} {k : Fin 8} : areaBase s c b = some (a, k) ↔
    a = (coreAt s c).svarea.toNat ∧ (∃ o, targetOf s a = .dram k o) ∧ ∃ o, targetOf s (a + 0x44C000 + 0x41000 * b - 1) = .dram k o := by
  unfold areaBase
  dsimp only
  constructor
  · intro h
    split at h
    · next k' o k'' o' first last =>
      split at h
      · next same => cases h; subst same; exact ⟨rfl, ⟨_, first⟩, ⟨_, last⟩⟩
      · cases h
    · cases h
  · rintro ⟨rfl, ⟨o, first⟩, ⟨o', last⟩⟩
    rw [first, last]
    simp

/-- Every byte of an area lies in the DRAM of its column. -/
theorem area_dram {s : State} {c n a x : Nat} {k : Fin 8} (area : areaBase s c (areaBanks n) = some (a, k)) (low : a ≤ x)
    (high : x < a + 0x44C000 + 0x41000 * areaBanks n) : targetOf s x = .dram k (gpaOff x) := by
  obtain ⟨-, ⟨o, first⟩, ⟨o', last⟩⟩ := areaBase_iff.1 area
  have banks : areaBanks n ≤ 16 := by unfold areaBanks; split <;> omega
  exact targetOf_between first last low (by omega) (by omega)

theorem mem_areaLines {a hdr lanes n g : Nat} (h : g ∈ areaLines a hdr lanes n) :
    ∃ l, g = a + 64 * l ∧ 64 * l < 0x44C000 + 0x41000 * areaBanks n := by
  obtain ⟨l, hl, rfl⟩ := List.mem_map.1 h
  have := List.mem_range.1 (List.mem_filter.1 hl).1
  exact ⟨l, rfl, by omega⟩

/-- The lines of the core's context proper, which every save writes. -/
theorem first_mem_areaLines (a hdr lanes n : Nat) {l : Nat} (h : l < 257) : a + 64 * l ∈ areaLines a hdr lanes n := by
  refine List.mem_map.2 ⟨l, List.mem_filter.2 ⟨List.mem_range.2 (by omega), ?_⟩, rfl⟩
  have : 64 * l < 0x4040 := by omega
  simp [areaReads, this]

/-! ## The bytes of an area (R408) -/

/-- Steps that leave a byte as it was, one after the other. -/
theorem memGet_foldl {α : Type} {f : List Host.Cell → α → List Host.Cell} {i : Nat} : ∀ (l : List α) (m : List Host.Cell),
    (∀ m, ∀ y ∈ l, memGet (f m y) i = memGet m i) → memGet (l.foldl f m) i = memGet m i
  | [], _, _ => rfl
  | y :: l, m, h => by
    rw [List.foldl_cons, memGet_foldl l _ fun m z hz => h m z (List.mem_cons_of_mem _ hz), h m y List.mem_cons_self]

theorem memGet_moveBytes_ne {src dst n i : Nat} (m : List Host.Cell) (out : i < dst ∨ dst + n ≤ i) : memGet (moveBytes src dst n m) i = memGet m i := by
  unfold moveBytes
  rw [memGet_foldl _ _ fun m e he => ?_, memGet_memClear, if_pos out]
  obtain ⟨-, inside⟩ := List.mem_filter.1 he
  rw [Bool.and_eq_true, decide_eq_true_eq, decide_eq_true_eq] at inside
  exact memGet_memPut_ne (by omega) _ _

theorem low_imagePlaces {lanes o : Nat} {p : Bool} {rows : Nat → Nat} (h : o ∈ imagePlaces lanes p rows) : 0x1000 ≤ o := by
  unfold imagePlaces at h
  rw [List.mem_append, List.mem_append] at h
  obtain (h | h) | h := h
  · obtain ⟨i, -, rfl⟩ := List.mem_map.1 h; omega
  · split at h
    · obtain ⟨i, -, rfl⟩ := List.mem_map.1 h; omega
    · cases h
  · obtain ⟨n, -, h⟩ := List.mem_flatMap.1 h
    obtain ⟨r, -, h⟩ := List.mem_flatMap.1 h
    obtain ⟨b, -, rfl⟩ := List.mem_map.1 h
    omega

/-- The words of an area stand in it alone. -/
theorem memGet_areaBytes {s : State} {c a x : Nat} (high : x < a + 0x4000) :
    memGet (areaBytes c a s) x = memGet (memWrite s.mem a 0x4000 (packWords 64 (areaWords s c))) x := by
  unfold areaBytes
  dsimp only
  rw [memGet_foldl _ _ fun m w _ => ?banks, memGet_foldl _ _ fun m o ho => ?image, memGet_memWrite_ne _ _ _ _ (by omega), Nat.add_zero]
  case banks =>
    rw [memGet_foldl _ _ fun m i _ => memGet_memPut_ne (by omega) _ _, memGet_moveBytes_ne _ (by omega)]
  case image =>
    have := low_imagePlaces ho
    exact memGet_memWrite_ne _ _ _ _ (by omega)

/-- A word of the area, as written. -/
theorem dword_areaBytes {s : State} (wf : s.memOk) {c a i : Nat} (hi : i < 2048) {m : List Host.Cell}
    (same : ∀ x, a ≤ x → x < a + 0x4000 → memGet m x = memGet (areaBytes c a s) x) :
    dword m (a + 8 * i) = BitVec.ofNat 64 ((areaWords s c).getD i 0) := by
  have bytes : ∀ j, j < 8 → memGet m (a + 8 * i + j) = BitVec.ofNat 8 (packWords 64 (areaWords s c) / 2 ^ (64 * i) / 256 ^ j) := fun j hj => by
    rw [same _ (by omega) (by omega), memGet_areaBytes (by omega), Nat.add_assoc, memGet_memWrite_inside _ _ _ _ _ wf (by omega), Nat.div_div_eq_div_mul]
    congr 2
    rw [show (256 : Nat) = 2 ^ 8 from rfl, ← Nat.pow_mul, ← Nat.pow_mul, ← Nat.pow_add]
    congr 1
    omega
  rw [dword, memRead_of_bytes bytes, show 256 ^ 8 = 2 ^ 64 from rfl, packWords_get]
  exact BitVec.eq_of_toNat_eq (by simp)

/-! ## The lines of an area leave for their home (R52, R406) -/

/-- A whole line written at its home: its bytes, and the column's slices and error records. -/
theorem ownerWrite_line {s : State} (none : NoCopies s) {g x o : Nat} {k : Fin 8} (target : targetOf s g = .dram k o)
    (bus : (colAt s k).vbstat.getLsbD 63 = false) (fits : x < 256 ^ 64) :
    let t := (ownerWrite false g 64 x s).2
    Touched s t ∧ { t with cols := s.cols, mem := s.mem } = s ∧ (s.memOk → t.memOk ∧
      ∀ b, byteAt t b = if b / 64 = g / 64 then BitVec.ofNat 8 (x / 256 ^ (b % 64)) else byteAt s b) := by
  have degraded : degradedAt s g = false := degradedAt_dram target bus
  have write : ownerWrite false g 64 x s = (true, homeWriteLine k (g / 64) (BitVec.ofNat 512 x) (sliceTouch k o true s)) := by
    rw [ownerWrite, degraded, target]
    rfl
  intro t
  rw [show t = homeWriteLine k (g / 64) (BitVec.ofNat 512 x) (sliceTouch k o true s) from congrArg Prod.snd write]
  have only := onlyCols_sliceTouch none k o true
  refine ⟨(touched_sliceTouch _ _ _ _).trans (touched_homeWriteLine _ _ _ _), ?_, fun ok => ?_⟩
  · unfold OnlyCols at only
    generalize (sliceTouch k o true s).cols = c at only
    rw [only]; rfl
  · have ok' : (sliceTouch k o true s).memOk := by rw [State.memOk, only.mem]; exact ok
    have same (b : Nat) : byteAt (sliceTouch k o true s) b = byteAt s b := by rw [byteAt, only.mem]; rfl
    refine ⟨memOk_homeWriteLine _ _ _ _ ok', fun b => ?_⟩
    have big : x < 2 ^ (8 * 64) := (Nat.pow_mul 2 8 64).symm ▸ fits
    rw [byteAt_homeWriteLine _ _ _ _ ok', same, BitVec.toNat_ofNat, Nat.mod_eq_of_lt big]

/-- Lines of the same column's DRAM, each with what m holds there. -/
theorem writeLines (m : List Host.Cell) {k : Fin 8} : ∀ (l : List Nat) {s : State}, NoCopies s → s.memOk → (colAt s k).vbstat.getLsbD 63 = false →
    (∀ g ∈ l, g % 64 = 0 ∧ ∃ o, targetOf s g = .dram k o) →
    let t := l.foldl (fun s g => (ownerWrite false g 64 (memRead m g 64) s).2) s
    Touched s t ∧ { t with cols := s.cols, mem := s.mem } = s ∧ t.memOk ∧ ∀ b, byteAt t b = if b / 64 * 64 ∈ l then memGet m b else byteAt s b
  | [], s, _, ok, _, _ => ⟨.refl s, rfl, ok, fun b => by simp⟩
  | g :: l, s, home, ok, bus, lines => by
    obtain ⟨line, o, target⟩ := lines g List.mem_cons_self
    obtain ⟨touched, machine, written⟩ := ownerWrite_line home target bus (memRead_lt m 64 g)
    obtain ⟨ok', bytes⟩ := written ok
    rw [List.foldl_cons]
    generalize (ownerWrite false g 64 (memRead m g 64) s).2 = u at touched machine ok' bytes
    have home' : NoCopies u := by unfold NoCopies at *; rw [← home, ← congrArg State.cores machine]
    have bus' : (colAt u k).vbstat.getLsbD 63 = false := by rw [show (colAt u k).vbstat = _ from (congrArg Column.vbstat (touched.cols k) :)]; exact bus
    have dev : u.fabric.dev = s.fabric.dev := (congrArg Fabric.dev touched.fabric :)
    obtain ⟨touched', machine', ok'', bytes'⟩ := writeLines m l home' ok' bus' fun x hx => by
      obtain ⟨line, o, target⟩ := lines x (List.mem_cons_of_mem _ hx)
      exact ⟨line, o, (targetOf_congr _ _ dev _).trans target⟩
    refine ⟨touched.trans touched', ?_, ok'', fun b => ?_⟩
    · exact (congrArg (fun v : State => { v with cols := s.cols, mem := s.mem }) machine').trans machine
    · have own (h : b / 64 = g / 64) : BitVec.ofNat 8 (memRead m g 64 / 256 ^ (b % 64)) = memGet m b := by
        rw [memRead_byte m 64 g _ (Nat.mod_lt _ (by decide)), show g + b % 64 = b by omega]
      rw [bytes', bytes]
      by_cases later : b / 64 * 64 ∈ l
      · rw [if_pos later, if_pos (List.mem_cons_of_mem _ later)]
      · rw [if_neg later]
        by_cases here : b / 64 = g / 64
        · rw [if_pos here, own here, if_pos (by rw [show b / 64 * 64 = g by omega]; exact List.mem_cons_self)]
        · rw [if_neg here, if_neg]
          rw [List.mem_cons, not_or]
          exact ⟨by omega, later⟩

/-! ## The save of a core (R406) -/

/-- A core that its job's context has left. -/
def Core.freed (q : Core) : Core :=
  { q with
    ctxjob := 0, bound := false, marked := none, gangSize := 0, gangPos := 0, gangLeader := 0
    rcache := []
    harts := q.harts.map fun h => { h with tsmask := 0, txmask := 0, fab := [], fabMany := false } }

/-- A freed core's slots are IDLE and it has no job; of memory only its banks change. -/
theorem freeCore_frees (c : Nat) (s : State) :
    let t := freeCore c s
    (coreAt t c).ctxjob = 0 ∧ (∀ j, (hartAt t c j).st = .idle) ∧ (∀ x, x ≠ c → coreAt t x = coreAt s x) ∧
      ∀ b, (∀ w < 16, b < bankGpa s c w 0 ∨ bankGpa s c w 0 + 2 ^ 18 ≤ b) → byteAt t b = byteAt s b := by
  intro t
  have whole : t = updCore (clearJob c none s) c Core.freed := rfl
  obtain ⟨-, -, -, -, -, others⟩ := clearJob_clears c s
  have mine : coreAt t c = ((coreAt (clearWays c (coreAt s c).nonCache s) c).jobless none).freed := by
    rw [whole, coreAt_updCore_self, clearJob_eq, coreAt_updCore_self]
    rfl
  refine ⟨by rw [mine]; rfl, fun j => ?_, fun x hx => ?_, fun b out => ?_⟩
  · have hart : (hartAt t c j).st = (((coreAt (clearWays c (coreAt s c).nonCache s) c).jobless none).harts.get j).st := by
      rw [hartAt, mine]
      simp [Core.freed, Vector.get]
      rfl
    rw [hart, jobless_hart]
    rfl
  · rw [whole, coreAt_updCore_ne _ _ _ _ hx, others x hx]
  · refine memGet_otherWays (bankGpa s c 0 0) b (coreAt s c).nonCache s.mem fun w mem => ?_
    have apart := out w (List.mem_range.1 (List.mem_filter.1 mem).1)
    have place : bankGpa s c w 0 = bankGpa s c 0 0 + w * 2 ^ 18 := by
      unfold bankGpa mkGpa
      ring
    rw [place] at apart
    omega

/-- The area's words depend on the cores, the columns and the fabric. -/
theorem areaWords_congr {s t : State} (cores : ∀ x, coreAt t x = coreAt s x) (machine : ∃ l, t = { s with cores := l }) (c : Nat) :
    areaWords t c = areaWords s c := by
  obtain ⟨l, rfl⟩ := machine
  have core (h : Fin 2048) : myCore { s with cores := l, curCore := h } = myCore { s with curCore := h } := cores h
  have hart (k : Fin 8) : hartAt { s with cores := l } c k = hartAt s c k := by rw [hartAt, cores]; rfl
  have fault (k : Fin 8) : pendingFault { s with cores := l } c k = pendingFault s c k := by
    unfold pendingFault unroutable fabTargets
    dsimp only
    rw [hart, core]
    rfl
  have harts (k : Fin 8) : hartWords { s with cores := l } c k = hartWords s c k := by
    unfold hartWords
    dsimp only
    rw [hart, fault]
  unfold areaWords
  simp only [cores, funext harts]

/-- Two frames of a hart stand in its record: none has to be pushed. -/
theorem pushAll_shallow {c : Nat} {s : State} (shallow : ∀ j : Fin 8, (hartAt s c j).frames.length ≤ 2) : pushAll [c] s = some (none, s) := by
  have step (k : Fin 8) : pushFrames c k s = some (none, s) := if_pos (shallow k)
  unfold pushAll
  rw [List.flatMap_cons, List.flatMap_nil, List.append_nil]
  induction List.finRange 8 with
  | nil => rfl
  | cons k l ih =>
    rw [List.map_cons, List.foldl_cons]
    dsimp only
    rw [step]
    exact ih

section

variable {s : State} {c : Nat} (hc : c < 2048) (up : (colAt s (colOf c)).tripped = false)
  (busy : (coreAt s c).svctl.getLsbD 63 = true) (save : (coreAt s c).svctl.getLsbD 0 = true)
include up busy save

theorem save_begins : ¬ (!((coreAt s c).svctl.getLsbD 63 && (coreAt s c).svctl.getLsbD 0) || (colAt s (colOf c)).tripped) = true := by
  rw [busy, save, up]; decide

include hc

theorem save_unbound (free : (coreAt s c).job = 0) : exec (.save c) s = .next (endSave c 1 0 0 s) := by
  show execSave c s = _
  rw [execSave, if_neg (Nat.not_le.2 hc)]
  exact (if_neg (save_begins up busy save)).trans (if_pos free)

variable (bound : (coreAt s c).job ≠ 0) (alone : (coreAt s c).gang = 1) (stopped : coreStopped s c none = true)
include bound alone stopped

theorem save_noArea (area : areaBase s c (areaBanks (coreAt s c).nbank) = none) : exec (.save c) s = .next (endSave c 2 0 0 s) := by
  show execSave c s = _
  rw [execSave, if_neg (Nat.not_le.2 hc)]
  refine (if_neg (save_begins up busy save)).trans ((if_neg bound).trans ?_)
  rw [show gangOf s c = [c] from if_pos alone]
  exact (if_neg (by simp [stopped])).trans (if_pos (by simp [area]))

theorem save_saves {a : Nat} {k : Fin 8} (area : areaBase s c (areaBanks (coreAt s c).nbank) = some (a, k)) (base : areaBase s c 0 = some (a, k))
    (bus : (colAt s k).vbstat.getLsbD 63 = false)
    (banks : (((List.range 16).filter fun w => decide (16 ≤ w + (coreAt s c).nbank)).any fun w => lineBad s (bankGpa s c w 0)) = false)
    (shallow : ∀ j : Fin 8, (hartAt s c j).frames.length ≤ 2) {u : State}
    (woken : u = wakeWays c ((List.range 16).filter fun w => decide (16 ≤ w + (coreAt s c).nbank)) s) (there : areaBase u c 0 = some (a, k)) :
    exec (.save c) s = .next (endSave c 0 0 0 (freeCore c (writeArea c a u))) := by
  show execSave c s = _
  rw [execSave, if_neg (Nat.not_le.2 hc)]
  refine (if_neg (save_begins up busy save)).trans ((if_neg bound).trans ?_)
  rw [show gangOf s c = [c] from if_pos alone]
  refine (if_neg (by simp [stopped])).trans ((if_neg (by simp [area])).trans ((if_neg ?_).trans ?_))
  · rw [List.any_filter] at banks
    rw [List.any_cons, List.any_nil, Bool.or_false, base, Bool.or_eq_true, not_or]
    refine ⟨ne_true_of_eq_false bus, ?_⟩
    rw [banks]
    decide
  · rw [pushAll_shallow shallow]
    simp only [List.foldl_cons, List.foldl_nil, ← woken, there]

end

theorem noCopies_wakeWays {c : Nat} : ∀ (ways : List Nat) {s : State}, (coreAt s c).waiters = [] → NoCopies s → NoCopies (wakeWays c ways s)
  | [], _, _, home => home
  | w :: ways, s, nobody, home => by
    have step : wakeWays c (w :: ways) s = wakeWays c ways (updCore s c fun q => { q with waiters := tabDel q.waiters w }) := by
      unfold wakeWays
      rw [List.foldl_cons, nobody]
      rfl
    rw [step]
    refine noCopies_wakeWays ways ?_ (noCopies_updCore home c _ rfl)
    rw [coreAt_updCore_self, nobody]
    rfl

theorem endSave_core (c status slot : Nat) (cause : BitVec 8) (s : State) :
    coreAt (endSave c status slot cause s) c =
      { coreAt s c with svctl := BitVec.ofNat 64 (2 ^ 32 * status + 2 ^ 40 * cause.toNat + 2 ^ 48 * slot) } := coreAt_updCore_self _ _ _

/-- What a save leaves: the words of the context in the area, the core free. -/
theorem saved_area {s u : State} {c a : Nat} {k : Fin 8} (area : areaBase s c (areaBanks (coreAt s c).nbank) = some (a, k)) (ok : s.memOk)
    (line : a % 64 = 0) (bus : (colAt s k).vbstat.getLsbD 63 = false) (cores : ∀ x, coreAt u x = coreAt s x) (machine : ∃ l, u = { s with cores := l })
    (home : NoCopies u) :
    let t := endSave c 0 0 0 (freeCore c (writeArea c a u))
    (coreAt t c).ctxjob = 0 ∧ (coreAt t c).svctl = 0 ∧ (∀ j, (hartAt t c j).st = .idle) ∧
      (∀ i < 2048, dword t.mem (a + 8 * i) = BitVec.ofNat 64 ((areaWords s c).getD i 0)) ∧ ∀ x, x ≠ c → coreAt t x = coreAt s x := by
  intro t
  have words := areaWords_congr cores machine c
  obtain ⟨l, hl⟩ := machine
  have dev : u.fabric = s.fabric := by rw [hl]
  have mem : u.mem = s.mem := by rw [hl]
  have cols : u.cols = s.cols := by rw [hl]
  have dram {x : Nat} (low : a ≤ x) (high : x < a + 0x44C000 + 0x41000 * areaBanks (coreAt s c).nbank) : targetOf u x = .dram k (gpaOff x) :=
    (targetOf_congr _ _ (by rw [dev]) _).trans (area_dram area low high)
  obtain ⟨lines, hlines⟩ : ∃ lines, lines = areaLines a (vecHeader u c) (coreAt u c).lanes (coreAt u c).nbank := ⟨_, rfl⟩
  have place : ∀ g ∈ lines, g % 64 = 0 ∧ ∃ o, targetOf u g = .dram k o := fun g hg => by
    rw [hlines, cores] at hg
    obtain ⟨n, rfl, inside⟩ := mem_areaLines hg
    exact ⟨by omega, _, dram (by omega) (by omega)⟩
  have bus' : (colAt u k).vbstat.getLsbD 63 = false := by rw [colAt, cols]; exact bus
  have ok' : u.memOk := by rw [State.memOk, mem]; exact ok
  obtain ⟨touched, kept, -, bytes⟩ := writeLines (areaBytes c a u) lines home ok' bus' place
  have written : writeArea c a u = lines.foldl (fun s g => (ownerWrite false g 64 (memRead (areaBytes c a u) g 64) s).2) u := by
    rw [hlines]; rfl
  rw [← written] at touched kept bytes
  obtain ⟨job, idle, others, free⟩ := freeCore_frees c (writeArea c a u)
  have fabric : (writeArea c a u).fabric = s.fabric := (congrArg State.fabric kept : _).trans dev
  have core (x : Nat) : coreAt (writeArea c a u) x = coreAt s x := (coreAt_congr (congrArg State.cores kept :) x).trans (cores x)
  have mine := endSave_core c 0 0 0 (freeCore c (writeArea c a u))
  refine ⟨(congrArg Core.ctxjob mine).trans job, congrArg Core.svctl mine, fun j => ?_, fun i hi => ?_, fun x hx => ?_⟩
  · exact (congrArg (fun q : Core => (q.harts.get j).st) mine).trans (idle j)
  · rw [← words]
    refine dword_areaBytes ok' hi fun x low high => ?_
    have stays : byteAt (freeCore c (writeArea c a u)) x = byteAt (writeArea c a u) x := free x fun w hw => by
      rw [bankGpa_congr (fabric.trans dev.symm)]
      exact dram_apart (dram low (by omega)) c hw
    have here : x / 64 * 64 ∈ lines := by
      rw [hlines, show x / 64 * 64 = a + 64 * ((x - a) / 64) by omega]
      exact first_mem_areaLines _ _ _ _ (by omega)
    have whole := bytes x
    rw [if_pos here] at whole
    exact stays.trans whole
  · exact (coreAt_updCore_ne _ _ _ _ hx).trans ((others x hx).trans (core x))

end Sys2Proof.Machine
end

section
/-!
PROOFS. The restore of a core from its save area (R404, R407 to R409, R412); obligation O45.
-/

namespace Sys2Proof.Machine

set_option Elab.async false

/-! ## The restore of a core (R407, R412) -/

/-- A read at a home, with or without its error, leaves memory and the cores as they were. -/
theorem homeRead_keeps {s : State} (home : NoCopies s) (col : Fin 8) (off g : Nat) (w : Bool) :
    (homeRead col off g w s).2.mem = s.mem ∧ (homeRead col off g w s).2.cores = s.cores := by
  by_cases bad : (colAt s col).vbstat.getLsbD 63 = true ∨ (colAt s col).lineErr off = true
  · obtain ⟨src, unit, e⟩ := homeRead_bad (s := s) (col := col) (off := off) (g := g) (w := w) (by obtain b | b := bad <;> rw [b] <;> simp)
    rw [e]
    exact ⟨(logError_kept _ _ _ _ _).1, (logError_kept _ _ _ _ _).2.1⟩
  · rw [not_or, Bool.not_eq_true, Bool.not_eq_true] at bad
    have only := onlyCols_homeRead home (gpa := g) (w := w) bad.1 bad.2
    exact ⟨only.mem, only.cores⟩

theorem readLines_keeps (w : Bool) : ∀ (l : List Nat) {s : State}, NoCopies s → (readLines w l s).mem = s.mem ∧ (readLines w l s).cores = s.cores
  | [], _, _ => ⟨rfl, rfl⟩
  | a :: l, s, home => by
    unfold readLines
    split
    · next col off _ =>
      obtain ⟨mem, cores⟩ := homeRead_keeps home col off a w
      split
      · next u hu =>
        rw [hu] at mem cores
        obtain ⟨mem', cores'⟩ := readLines_keeps w l (s := u) (by unfold NoCopies at *; rw [← home, ← cores])
        exact ⟨mem'.trans mem, cores'.trans cores⟩
      · next u hu =>
        rw [hu] at mem cores
        exact ⟨mem, cores⟩
    · exact readLines_keeps w l home

/-- A machine as a restore has read its area: memory, the cores and the device are as before. -/
structure AreaRead (s t : State) : Prop where
  mem : t.mem = s.mem
  cores : t.cores = s.cores
  dev : t.fabric.dev = s.fabric.dev

theorem areaRead_readLines {s : State} (home : NoCopies s) (w : Bool) (l : List Nat) : AreaRead s (readLines w l s) :=
  ⟨(readLines_keeps w l home).1, (readLines_keeps w l home).2, (congrArg Fabric.dev (touched_readLines w l s).fabric :)⟩

section

variable {s : State} {c : Nat} (hc : c < 2048) (up : (colAt s (colOf c)).tripped = false)
  (busy : (coreAt s c).svctl.getLsbD 63 = true) (restore : (coreAt s c).svctl.getLsbD 1 = true)
include up busy restore

theorem restore_begins : ¬ (!((coreAt s c).svctl.getLsbD 63 && (coreAt s c).svctl.getLsbD 1) || (colAt s (colOf c)).tripped) = true := by
  rw [busy, restore, up]; decide

include hc

theorem restore_bound (bound : (coreAt s c).job ≠ 0) : exec (.restore c) s = .next (endSave c 1 0 0 s) := by
  show execRestore c s = _
  rw [execRestore, if_neg (Nat.not_le.2 hc)]
  exact (if_neg (restore_begins up busy restore)).trans (if_pos bound)

variable (free : (coreAt s c).job = 0)
include free

theorem restore_noArea (area : areaBase s c 0 = none) : exec (.restore c) s = .next (endSave c 2 0 0 s) := by
  show execRestore c s = _
  rw [execRestore, if_neg (Nat.not_le.2 hc)]
  refine (if_neg (restore_begins up busy restore)).trans ((if_neg (not_not.2 free)).trans ?_)
  rw [area]

variable {a : Nat} {k : Fin 8} (idle : slotsIdle s c = true) (base : areaBase s c 0 = some (a, k)) (alone : (areaWord s a 0).toNat / 256 % 4 = 0)
  (area : areaBase s c (areaBanks ((areaWord s a 2).toNat / 256 % 256)) = some (a, k)) (good : ∀ x, (∃ o, targetOf s x = .dram k o) → lineBad s x = false)
include idle base alone area good

/-- The area of a core outside a gang that is restored into it, its lines read: a bad image is refused, a good one loaded. -/
theorem restore_reads : ∃ l,
    (areaOk s a 0 0 = false → exec (.restore c) s = .next (endSave c 4 0 0 (readLines false l s))) ∧
    (areaOk s a 0 0 = true → (colAt s (colOf c)).layerctl.getLsbD 2 = false → ∀ u t, u = loadCore c a (readLines false l s) →
      loadHarts c (coreAt u c).svarea.toNat u = some (none, t) → exec (.restore c) s = .next (endSave c 0 0 0 t)) := by
  obtain ⟨place, ⟨o, first⟩, -⟩ := areaBase_iff.1 base
  have cs : restoreCores s c a = [c] := by unfold restoreCores; rw [alone]; rfl
  refine ⟨areaLines a (memRead s.mem (a + 0x4000) 64) ((areaWord s a 2).toNat % 256 * 2048) ((areaWord s a 2).toNat / 256 % 256), ?_⟩
  generalize hl : areaLines a _ _ _ = l
  have clean : l.any (lineBad s) = false := by
    rw [List.any_eq_false, ← hl]
    intro g hg
    obtain ⟨n, rfl, inside⟩ := mem_areaLines hg
    rw [good _ ⟨_, area_dram area (by omega) (by omega)⟩]
    decide
  have same : (coreAt (readLines false l s) c).svarea = (coreAt s c).svarea := (congrArg Core.svarea ((touched_readLines false l s).cores c) :)
  have begun : exec (.restore c) s = execRestore c s := rfl
  rw [begun, execRestore, if_neg (Nat.not_le.2 hc)]
  dsimp only
  rw [if_neg (restore_begins up busy restore), if_neg (not_not.2 free), base]
  dsimp only
  rw [good a ⟨o, first⟩, cs, alone]
  simp only [List.any_cons, List.any_nil, Bool.or_false, List.foldl_cons, List.foldl_nil, free, idle, ← place, same, area, hl, clean,
    List.zipIdx_cons, List.zipIdx_nil, List.all_cons, List.all_nil, Bool.and_true]
  have aligned : (decide (0 = 3) || c % 2 ^ 0 != 0) = false := by rw [Nat.pow_zero, Nat.mod_one]; rfl
  rw [aligned, Bool.false_or]
  refine ⟨fun bad => ?_, fun whole steady u t hu loaded => ?_⟩
  · rw [bad]
    rfl
  · rw [whole, steady, ← hu, loaded]
    rfl

end

/-- What a core's ways, banks and registers are loaded with, as far as its area says it in words. -/
structure Loaded (c a : Nat) (s u : State) : Prop where
  apart : ∀ b, (∀ w < 16, b < bankGpa s c w 0 ∨ bankGpa s c w 0 + 2 ^ 18 ≤ b) → byteAt u b = byteAt s b
  others : ∀ x, x ≠ c → coreAt u x = coreAt s x
  job : (coreAt u c).ctxjob = areaWord s a 1
  narr : (coreAt u c).narr = (areaWord s a 2).toNat % 256
  nbank : (coreAt u c).nbank = (areaWord s a 2).toNat / 256 % 256
  boxes : ∀ n : Fin 8, (coreAt u c).mb.get n = areaWord s a (8 + n.val)
  area : (coreAt u c).svarea = (coreAt s c).svarea

theorem loadCore_loads {c a : Nat} {s : State} (lines : (coreAt s c).cw = []) (nobody : (coreAt s c).waiters = []) : Loaded c a s (loadCore c a s) := by
  obtain ⟨v, hv⟩ : ∃ v, v = applyWays c ((areaWord s a 2).toNat % 256) ((areaWord s a 2).toNat / 256 % 256) s := ⟨_, rfl⟩
  have rewayed := applyWays_done (na := (areaWord s a 2).toNat % 256) (nb := (areaWord s a 2).toNat / 256 % 256) lines nobody
  rw [← hv] at rewayed
  obtain ⟨full, w, core⟩ := rewayed.core
  obtain ⟨cores, mem, machine⟩ := rewayed.machine
  have fabric : v.fabric = s.fabric := by rw [machine]
  unfold loadCore
  dsimp only
  rw [← hv]
  refine ⟨fun b out => ?_, fun x hx => ?_, ?_, ?_, ?_, fun n => ?_, ?_⟩
  · refine (memGet_foldl _ _ fun m k hk => memGet_moveBytes_ne m ?_).trans (rewayed.same b fun k change => ?_)
    · rw [bankGpa_congr fabric]
      exact out k (List.mem_range.1 (List.mem_filter.1 hk).1)
    · rw [Core.changesWay, Bool.and_eq_true, decide_eq_true_eq] at change
      exact out k change.1
  · exact (coreAt_updCore_ne _ _ _ _ hx).trans (rewayed.others x hx)
  · rw [coreAt_updCore_self]
  · rw [coreAt_updCore_self]
    exact congrArg Core.narr core
  · rw [coreAt_updCore_self]
    exact congrArg Core.nbank core
  · rw [coreAt_updCore_self]
    simp [Vector.get]
    rfl
  · rw [coreAt_updCore_self]
    exact (congrArg Core.svarea core :)

/-- The frames of a hart with at most two stand in its record: none is popped from memory. -/
theorem popFrames_shallow {c : Nat} {w : Nat → BitVec 64} {s : State} (shallow : (w 0).toNat / 8 % 16 ≤ 2) :
    ∃ l, popFrames c w s = some (none, l, s) := by
  have stays : ∀ (l : List Nat) (f : Option (Option Cause × Nat × State) → Nat → Option (Option Cause × Nat × State)) (z : Option Cause × Nat × State),
      (∀ i, f (some z) i = some z) → l.foldl f (some z) = some z := fun l f z h => by
    induction l with
    | nil => rfl
    | cons i l ih => rw [List.foldl_cons, h, ih]
  unfold popFrames
  dsimp only
  rw [if_pos shallow, stays _ _ _ fun _ => rfl]
  dsimp only
  rw [if_pos shallow]
  exact ⟨_, rfl⟩

/-- A hart's registers are those of words in its record, and it is IDLE as they say. -/
structure Resumed (w : Nat → BitVec 64) (h : Hart) : Prop where
  regs : ∀ r : BitVec 5, r ≠ 0 → h.gr r = w r.toNat
  pc : h.pc = (w 40).setWidth 48 &&& ~~~1
  idle : h.st = .idle ↔ (w 0).toNat % 4 = 0

theorem get_ofFn {α : Type} {n : Nat} (f : Fin n → α) (i : Fin n) : (Vector.ofFn f).get i = f i := Vector.getElem_ofFn i.isLt

theorem gr_of_ofFn {h : Hart} {w : Nat → BitVec 64} (g : h.g = Vector.ofFn fun i => if i.val = 0 then 0 else w i.val) {r : BitVec 5} (hr : r ≠ 0) :
    h.gr r = w r.toNat := by
  have pos : r.toNat ≠ 0 := fun e => hr (BitVec.eq_of_toNat_eq e)
  rw [Hart.gr, if_neg hr, g, get_ofFn]
  exact if_neg pos

theorem resumed_of_fields {h : Hart} {w : Nat → BitVec 64} (g : h.g = Vector.ofFn fun i => if i.val = 0 then 0 else w i.val)
    (pc : h.pc = (w 40).setWidth 48 &&& ~~~1) (st : h.st = if (w 0).toNat % 4 = 0 then .idle else .ready) : Resumed w h := by
  refine ⟨fun r hr => gr_of_ofFn g hr, pc, ?_⟩
  rw [st]
  by_cases zero : (w 0).toNat % 4 = 0
  · rw [if_pos zero]; exact ⟨fun _ => zero, fun _ => rfl⟩
  · rw [if_neg zero]; exact ⟨fun e => absurd e (by decide), fun e => absurd e zero⟩

theorem resumed_wordsHart (old : Hart) (w : Nat → BitVec 64) (fr : List Frame) (now : Nat) (hasRec : Bool) (u : BitVec 32) (lrec : BitVec 12)
    (stage : BitVec 3) : Resumed w (wordsHart old w fr now hasRec u lrec stage) :=
  resumed_of_fields (by unfold wordsHart; dsimp only) (by unfold wordsHart; dsimp only; rfl) (by unfold wordsHart; dsimp only)

/-- The words of a hart's record in the area at a. -/
def recordWord (s : State) (a : Nat) (k : Fin 8) (i : Nat) : BitVec 64 := areaWord s a (64 + 64 * k.val + i)

/-- Some slots of a core have resumed from their records. -/
structure SlotsLoaded (c a : Nat) (ks : List (Fin 8)) (s t : State) : Prop where
  mem : t.mem = s.mem
  others : ∀ x, x ≠ c → coreAt t x = coreAt s x
  core : coreAt t c = { coreAt s c with harts := (coreAt t c).harts }
  slots : ∀ k ∈ ks, Resumed (recordWord s a k) (hartAt t c k)
  rest : ∀ k, k ∉ ks → hartAt t c k = hartAt s c k

/-- Steps that each load one slot load all of a list. -/
theorem slotsLoaded_foldl {c a : Nat} {f : Option (Option (Nat × BitVec 8) × State) → Fin 8 → Option (Option (Nat × BitVec 8) × State)}
    {m : List Host.Cell} (step : ∀ s k, s.mem = m → ∃ t, f (some (none, s)) k = some (none, t) ∧ SlotsLoaded c a [k] s t) :
    ∀ (ks : List (Fin 8)) (s : State), s.mem = m → ∃ t, ks.foldl f (some (none, s)) = some (none, t) ∧ SlotsLoaded c a ks s t
  | [], s, _ => ⟨s, rfl, rfl, fun _ _ => rfl, rfl, fun _ h => (by cases h), fun _ _ => rfl⟩
  | k :: ks, s, hm => by
    obtain ⟨u, first, one⟩ := step s k hm
    obtain ⟨t, later, rest⟩ := slotsLoaded_foldl step ks u (one.mem.trans hm)
    have words : recordWord u a = recordWord s a := by funext j i; rw [recordWord, areaWord, one.mem]; rfl
    refine ⟨t, by rw [List.foldl_cons, first, later], rest.mem.trans one.mem, fun x hx => (rest.others x hx).trans (one.others x hx), ?_, fun j hj => ?_,
      fun j hj => ?_⟩
    · rw [rest.core, one.core]
    · by_cases mem : j ∈ ks
      · rw [← words]; exact rest.slots j mem
      · obtain rfl | later := List.mem_cons.1 hj
        · rw [rest.rest _ mem]; exact one.slots _ List.mem_cons_self
        · exact absurd later mem
    · rw [List.mem_cons, not_or] at hj
      rw [rest.rest j hj.2, one.rest j (by simpa using hj.1)]

/-- A slot resumes from the words of its record, its frames read. -/
def resumedSlot (c : Nat) (w : Nat → BitVec 64) (fr : List Frame) (k : Fin 8) (s : State) : State :=
  let p := if (w 0).toNat % 4 = 0 ∨ k.val = 7 then (0, s) else takeFree s
  let q := coreAt p.2 c
  resumeHart c k (updHart p.2 c k fun h => wordsHart h w fr p.2.clock (q.bound && k.val != 7) (p.1.setWidth 32) q.lrecIx q.stageIx)

/-- One step of the load of a leader's harts, when it needs no memory. -/
theorem loadHarts_eq {c a : Nat} {s : State} (leader : (areaWord s a 0).toNat / 1024 % 4 = 0) :
    ∃ f : Option (Option (Nat × BitVec 8) × State) → Fin 8 → Option (Option (Nat × BitVec 8) × State),
      loadHarts c a s = (List.finRange 8).foldl f (some (none, s)) ∧
      ∀ u k l, popFrames c (recordWord u a k) u = some (none, l, u) → f (some (none, u)) k = some (none, resumedSlot c (recordWord u a k) l k u) := by
  refine ⟨_, by unfold loadHarts; exact rfl, fun u k l popped => ?_⟩
  dsimp -zeta only
  extract_lets w
  have same : recordWord u a k = w := rfl
  rw [same] at popped ⊢
  clear_value w
  rw [popped]
  dsimp -zeta only
  simp -zeta only [leader, if_true]
  rw [resumedSlot]

/-- A slot that resumes with no error held becomes the hart its record says, and nothing else of the machine's cores or memory changes. -/
theorem resumedSlot_loads {c a : Nat} {k : Fin 8} {u : State} (fr : List Frame) (calm : (recordWord u a k 0).getLsbD 7 = false) :
    SlotsLoaded c a [k] u (resumedSlot c (recordWord u a k) fr k u) := by
  generalize hw : recordWord u a k = w at calm
  obtain ⟨p, hp⟩ : ∃ p, p = if (w 0).toNat % 4 = 0 ∨ k.val = 7 then ((0 : BitVec 64), u) else takeFree u := ⟨_, rfl⟩
  have cores : p.2.cores = u.cores ∧ p.2.mem = u.mem := by rw [hp]; split <;> exact ⟨rfl, rfl⟩
  obtain ⟨h, hh⟩ : ∃ h, h = wordsHart (hartAt p.2 c k) w fr p.2.clock ((coreAt p.2 c).bound && k.val != 7) (p.1.setWidth 32) (coreAt p.2 c).lrecIx
    (coreAt p.2 c).stageIx := ⟨_, rfl⟩
  have clear : h.errAck = none := by
    rw [hh, wordsHart]
    exact if_neg (ne_true_of_eq_false calm)
  have whole : resumedSlot c w fr k u = setHart p.2 c k h := by
    have begun : resumedSlot c w fr k u = resumeHart c k (setHart p.2 c k h) := by rw [hh, hp]; rfl
    rw [begun, resumeHart, hartAt_setHart_self, clear]
  have before (x : Nat) : coreAt p.2 x = coreAt u x := coreAt_congr cores.1 x
  rw [whole]
  refine ⟨cores.2, fun x hx => ?_, ?_, fun j hj => ?_, fun j hj => ?_⟩
  · rw [← before]; exact coreAt_updCore_ne _ _ _ _ hx
  · rw [coreAt_setHart_self, before]; rfl
  · obtain rfl := List.mem_singleton.1 hj
    rw [hartAt_setHart_self, hh, hw]
    exact resumed_wordsHart _ _ _ _ _ _ _ _
  · rw [hartAt_setHart_slot _ _ _ _ _ (by simpa using hj), hartAt, before]; rfl

/-- The harts of a core outside a gang, at most two frames each and none with an error held (R409, R412). -/
theorem loadHarts_loads {c a : Nat} {s : State} (leader : (areaWord s a 0).toNat / 1024 % 4 = 0)
    (plain : ∀ j : Fin 8, (recordWord s a j 0).toNat / 8 % 16 ≤ 2 ∧ (recordWord s a j 0).getLsbD 7 = false) :
    ∃ t, loadHarts c a s = some (none, t) ∧ SlotsLoaded c a (List.finRange 8) s t := by
  obtain ⟨f, whole, step⟩ := loadHarts_eq (c := c) leader
  rw [whole]
  refine slotsLoaded_foldl (m := s.mem) (fun u k hu => ?_) _ _ rfl
  have words : recordWord u a = recordWord s a := by funext j i; rw [recordWord, areaWord, hu]; rfl
  obtain ⟨shallow, calm⟩ := plain k
  rw [← words] at shallow calm
  obtain ⟨l, popped⟩ := popFrames_shallow (c := c) (w := recordWord u a k) (s := u) shallow
  exact ⟨_, step u k l popped, resumedSlot_loads l calm⟩

/-- An address whose word keeps bits 47 to 1 alone. -/
theorem even_setWidth {x : BitVec 64} (h : onlyBits x 47 1 = x) : x.setWidth 48 &&& ~~~1#48 = x.setWidth 48 := by
  have bit : x.getLsbD 0 = false := by
    rw [← h]
    simp [onlyBits, setBits]
  refine BitVec.eq_of_getLsbD_eq fun i hi => ?_
  rw [BitVec.getLsbD_and, BitVec.getLsbD_setWidth]
  by_cases zero : i = 0
  · subst zero
    rw [bit, Bool.and_false, Bool.false_and]
  · rw [BitVec.getLsbD_not, BitVec.getLsbD_one, decide_eq_true hi, decide_eq_false zero, Bool.and_false, Bool.not_false, Bool.and_true, Bool.and_true]

/-- A good image's leader is at place 0 of its gang, and the address of each of its harts is even. -/
theorem areaOk_parts {s : State} {a : Nat} (ok : areaOk s a 0 0 = true) : (areaWord s a 0).toNat / 1024 % 4 = 0 ∧
    ∀ k : Fin 8, (recordWord s a k 40).setWidth 48 &&& ~~~1#48 = (recordWord s a k 40).setWidth 48 := by
  unfold areaOk at ok
  dsimp only at ok
  simp only [Bool.and_eq_true] at ok
  obtain ⟨⟨⟨⟨⟨⟨⟨⟨⟨⟨⟨⟨⟨⟨⟨⟨⟨⟨⟨⟨⟨-, place⟩, -⟩, -⟩, -⟩, -⟩, -⟩, -⟩, -⟩, -⟩, -⟩, -⟩, -⟩, -⟩, -⟩, -⟩, -⟩, harts⟩, -⟩, -⟩, -⟩, -⟩ := ok
  have gang : (areaWord s a 0).toNat / 256 % 256 = 0 := by simpa using place
  refine ⟨by omega, fun k => even_setWidth ?_⟩
  have hart := List.all_eq_true.1 harts k.val (List.mem_range.2 k.isLt)
  rw [hartOk, Bool.and_eq_true] at hart
  exact eq_of_beq (List.all_eq_true.1 hart.2 40 (List.mem_range.2 (by decide)))

/-! ## The obligation -/

/-- The core bus of a good area's column is up, and no cache way holds a line. -/
theorem area_homed {s : State} {c a n : Nat} {k : Fin 8} (base : areaBase s c n = some (a, k)) (home : homed s a = true) :
    NoCopies s ∧ (colAt s k).vbstat.getLsbD 63 = false := by
  obtain ⟨-, ⟨o, first⟩, -⟩ := areaBase_iff.1 base
  rw [homed, Bool.and_eq_true, first] at home
  exact ⟨home.1, by simpa using home.2⟩

/-- No line of a column with neither a bad line nor a failed bus is bad. -/
theorem lineBad_clean {s : State} {k : Fin 8} (bus : (colAt s k).vbstat.getLsbD 63 = false) (bad : (colAt s k).bad = [])
    (sliceBad : (colAt s k).sliceBad = []) {x o : Nat} (target : targetOf s x = .dram k o) : lineBad s x = false := by
  rw [lineBad, target]
  dsimp only
  rw [bus, Bool.or_false, Column.lineErr, bad, sliceBad]
  exact ite_self _

section

variable {s : State} {c : Nat} (hc : c < 2048) (up : (colAt s (colOf c)).tripped = false) (busy : (coreAt s c).svctl.getLsbD 63 = true)
  {a : Nat} {k : Fin 8} (base : areaBase s c 0 = some (a, k)) (home : homed s a = true)
include hc up busy base home

theorem save_of_good (ok : s.memOk) (nobody : (coreAt s c).waiters = []) (save : (coreAt s c).svctl.getLsbD 0 = true) (bound : (coreAt s c).job ≠ 0)
    (alone : (coreAt s c).gang = 1) (stopped : coreStopped s c none = true) (area : areaBase s c (areaBanks (coreAt s c).nbank) = some (a, k))
    (line : a % 64 = 0)
    (banks : (((List.range 16).filter fun w => decide (16 ≤ w + (coreAt s c).nbank)).any fun w => lineBad s (bankGpa s c w 0)) = false)
    (shallow : ∀ j : Fin 8, (hartAt s c j).frames.length ≤ 2) :
    ∃ t, exec (.save c) s = .next t ∧ (coreAt t c).ctxjob = 0 ∧ (coreAt t c).svctl = 0 ∧ (∀ j, (hartAt t c j).st = .idle) ∧
      (∀ i < 2048, dword t.mem (a + 8 * i) = BitVec.ofNat 64 ((areaWords s c).getD i 0)) ∧ ∀ x, x ≠ c → coreAt t x = coreAt s x := by
  obtain ⟨empty, bus⟩ := area_homed base home
  obtain ⟨ways, hways⟩ : ∃ ways, ways = (List.range 16).filter fun w => decide (16 ≤ w + (coreAt s c).nbank) := ⟨_, rfl⟩
  obtain ⟨u, woken⟩ : ∃ u, u = wakeWays c ways s := ⟨_, rfl⟩
  obtain ⟨cores, machine⟩ := wakeWays_nobody ways nobody
  have empty' := noCopies_wakeWays ways nobody empty
  rw [← woken] at cores machine empty'
  have there : areaBase u c 0 = some (a, k) := by
    obtain ⟨place, ⟨o, first⟩, ⟨o', last⟩⟩ := areaBase_iff.1 base
    have dev : u.fabric.dev = s.fabric.dev := by obtain ⟨l, hl⟩ := machine; rw [hl]
    exact areaBase_iff.2 ⟨by rw [cores]; exact place, ⟨o, (targetOf_congr _ _ dev _).trans first⟩, ⟨o', (targetOf_congr _ _ dev _).trans last⟩⟩
  rw [hways] at woken
  exact ⟨_, save_saves hc up busy save bound alone stopped area base bus banks shallow woken there, saved_area area ok line bus cores machine empty'⟩

variable (nobody : (coreAt s c).waiters = []) (restore : (coreAt s c).svctl.getLsbD 1 = true) (free : (coreAt s c).job = 0)
  (idle : slotsIdle s c = true) (alone : (areaWord s a 0).toNat / 256 % 4 = 0)
  (area : areaBase s c (areaBanks ((areaWord s a 2).toNat / 256 % 256)) = some (a, k)) (bad : (colAt s k).bad = []) (sliceBad : (colAt s k).sliceBad = [])
include restore free idle alone area bad sliceBad

theorem restore_of_bad (refused : areaOk s a 0 0 = false) :
    ∃ t, exec (.restore c) s = .next t ∧ coreAt t c = { coreAt s c with svctl := BitVec.ofNat 64 (2 ^ 32 * 4) } ∧
      (∀ x, x ≠ c → coreAt t x = coreAt s x) ∧ ∀ x, byteAt t x = byteAt s x := by
  obtain ⟨empty, bus⟩ := area_homed base home
  obtain ⟨l, fails, -⟩ := restore_reads hc up busy restore free idle base alone area fun x ⟨_, dram⟩ => lineBad_clean bus bad sliceBad dram
  have read := areaRead_readLines empty false l
  refine ⟨_, fails refused, ?_, fun x hx => ?_, fun x => congrArg (memGet · x) read.mem⟩
  · rw [endSave_core, coreAt_congr read.cores]
    rfl
  · exact (coreAt_updCore_ne _ _ _ _ hx).trans (coreAt_congr read.cores x)

include nobody

theorem restore_of_good (good : areaOk s a 0 0 = true) (steady : (colAt s (colOf c)).layerctl.getLsbD 2 = false)
    (plain : ∀ j : Fin 8, (recordWord s a j 0).toNat / 8 % 16 ≤ 2 ∧ (recordWord s a j 0).getLsbD 7 = false) :
    ∃ t, exec (.restore c) s = .next t ∧ (coreAt t c).ctxjob = areaWord s a 1 ∧ (coreAt t c).svctl = 0 ∧
      (coreAt t c).narr = (areaWord s a 2).toNat % 256 ∧ (coreAt t c).nbank = (areaWord s a 2).toNat / 256 % 256 ∧
      (∀ n : Fin 8, (coreAt t c).mb.get n = areaWord s a (8 + n.val)) ∧
      (∀ (j : Fin 8) (r : BitVec 5), r ≠ 0 → (hartAt t c j).gr r = areaWord s a (64 + 64 * j.val + r.toNat)) ∧
      (∀ j : Fin 8, (hartAt t c j).pc = (areaWord s a (64 + 64 * j.val + 40)).setWidth 48 ∧
        ((hartAt t c j).st = .idle ↔ (areaWord s a (64 + 64 * j.val)).toNat % 4 = 0)) ∧ ∀ x, x ≠ c → coreAt t x = coreAt s x := by
  obtain ⟨empty, bus⟩ := area_homed base home
  obtain ⟨l, -, loads⟩ := restore_reads hc up busy restore free idle base alone area fun x ⟨_, dram⟩ => lineBad_clean bus bad sliceBad dram
  have read := areaRead_readLines empty false l
  obtain ⟨v, hv⟩ : ∃ v, v = readLines false l s := ⟨_, rfl⟩
  rw [← hv] at read loads
  have core (x : Nat) : coreAt v x = coreAt s x := coreAt_congr read.cores x
  have before (i : Nat) : areaWord v a i = areaWord s a i := by rw [areaWord, read.mem]; rfl
  have loaded := loadCore_loads (a := a) (s := v) (c := c) (by rw [core]; exact cw_of_noCopies empty c) (by rw [core]; exact nobody)
  obtain ⟨u, hu⟩ : ∃ u, u = loadCore c a v := ⟨_, rfl⟩
  rw [← hu] at loaded
  have place : (coreAt u c).svarea.toNat = a := by rw [loaded.area, core, ← (areaBase_iff.1 base).1]
  have words (i : Nat) (hi : i < 2048) : areaWord u a i = areaWord s a i := by
    rw [← before]
    refine congrArg (BitVec.ofNat 64) (memRead_congr 8 _ _ _ fun n hn => loaded.apart _ fun w hw => ?_)
    exact dram_apart ((targetOf_congr _ _ read.dev _).trans (area_dram area (by omega) (by omega))) c hw
  obtain ⟨leader, even⟩ := areaOk_parts good
  obtain ⟨t, harts, slots⟩ := loadHarts_loads (c := c) (a := a) (s := u) (by rw [words 0 (by decide)]; exact leader) fun j => by
    rw [recordWord, words _ (by omega)]; exact plain j
  have mine := endSave_core c 0 0 0 t
  have part {α : Type} (f : Core → α) (hf : ∀ q x y, f { q with svctl := x, harts := y } = f q) : f (coreAt (endSave c 0 0 0 t) c) = f (coreAt u c) := by
    rw [mine, slots.core]
    exact hf (coreAt u c) _ _
  have hart (j : Fin 8) : Resumed (recordWord s a j) (hartAt (endSave c 0 0 0 t) c j) := by
    have same : hartAt (endSave c 0 0 0 t) c j = hartAt t c j := (congrArg (fun q : Core => q.harts.get j) mine :)
    have resumed := slots.slots j (List.mem_finRange j)
    rw [same]
    refine ⟨fun r hr => ?_, ?_, ?_⟩
    · rw [resumed.regs r hr, recordWord, words _ (by omega)]; rfl
    · rw [resumed.pc, recordWord, words _ (by omega)]; rfl
    · rw [resumed.idle, recordWord, words _ (by omega)]; rfl
  refine ⟨_, loads good steady u t hu (by rw [place]; exact harts), (part Core.ctxjob fun _ _ _ => rfl).trans (loaded.job.trans (before 1)),
    congrArg Core.svctl mine, (part Core.narr fun _ _ _ => rfl).trans ?_, (part Core.nbank fun _ _ _ => rfl).trans ?_, fun n => ?_, fun j r hr => (hart j).regs r hr,
    fun j => ⟨(hart j).pc.trans (even j), (hart j).idle⟩, fun x hx => ?_⟩
  · rw [loaded.narr, before]
  · rw [loaded.nbank, before]
  · rw [part (fun q => q.mb.get n) fun _ _ _ => rfl, loaded.boxes, before]
  · exact (coreAt_updCore_ne _ _ _ _ hx).trans ((slots.others x hx).trans ((loaded.others x hx).trans (core x)))

end

/-- A status that a save or a restore ends with. -/
theorem endSave_status (c n : Nat) (s : State) :
    endSave c n 0 0 s = setCore s c { coreAt s c with svctl := BitVec.ofNat 64 (2 ^ 32 * n) } := rfl

/-- The fields of a context that an image's header gives. -/
theorem imageVec_fields (old : Vec) (lanes glanes x : Nat) (l : List (Nat × Nat)) :
    let v := imageVec old lanes glanes x l
    v.vl = BitVec.ofNat 64 (byteField x 0 4) ∧ v.vstart = BitVec.ofNat 64 (byteField x 4 4) ∧
      v.vtype = BitVec.ofNat 64 (byteField x 8 8) ∧ v.vdirty = BitVec.ofNat 64 (byteField x 16 4) ∧
      v.vflags = BitVec.ofNat 64 (byteField x 23 1) ∧ (∀ n : Fin 32, v.vpi.get n = v.vstart) ∧
      (∀ n : Fin 32, v.vhw.get n = BitVec.ofNat 64 (hdrRows x n.val * glanes)) ∧
      v.slot = old.slot ∧ v.bound = old.bound ∧ v.convoy = [] ∧ v.dtu = [] ∧
      let w := imageVec old lanes glanes x l
      v.v = w.v ∧ v.acc = w.acc ∧ v.vrs = w.vrs ∧ v.mstat = w.mstat := by
  intro v
  have vpi : v.vpi = Vector.replicate 32 v.vstart := rfl
  have vhw : v.vhw = Vector.ofFn fun n => BitVec.ofNat 64 (hdrRows x n.val * glanes) := rfl
  refine ⟨rfl, rfl, rfl, rfl, rfl, fun n => ?_, fun n => ?_, rfl, rfl, rfl, rfl, rfl, rfl, rfl, rfl⟩
  · rw [vpi]; simp [Vector.get]
  · rw [vhw, get_ofFn]

/-- Settles O45: images of `savev` and `rstv` (`savev_saves`, `rstv_restores`), the save (`save_saves`, `saved_area`) and the restore of a core
(`restore_reads`, `loadCore_loads`, `loadHarts_loads`). -/
theorem savedContexts : Obligations.SavedContexts := by
  unfold Obligations.SavedContexts
  refine ⟨fun s a d sys => ⟨fun off => ⟨takesTrap_of ?_, takesTrap_of ?_⟩, fun line busy other => ?_, fun line quiet => ⟨fun gang => ⟨gives_done4 ?_, gives_done4 ?_⟩,
      fun gang unbound => ⟨gives_done4 ?_, gives_done4 ?_⟩, fun gang bound => ⟨fun s1 written => savev_saves d sys line quiet gang bound written,
        fun s1 x header => ⟨fun narr => rstv_refused d sys line quiet gang bound header (.inl ⟨narr, rfl⟩),
          fun narr bad => rstv_refused d sys line quiet gang bound header (.inr ⟨narr, bad, rfl⟩), fun s2 l narr good lines => ?_⟩⟩⟩⟩,
    fun s c hc ok up => ⟨fun busy save => ⟨fun free => ?_, fun bound alone stopped nobody => ⟨fun area => ?_,
        fun a k area base line home banks shallow => save_of_good hc up busy base home ok nobody save bound alone stopped area line banks shallow⟩⟩,
    fun busy restore other => ⟨fun bound => ?_, fun free area => ?_, fun a k free idle nobody base line home alone area bad soft sliceBad sliceSoft =>
      ⟨restore_of_bad hc up busy base home restore free idle alone area bad sliceBad,
        restore_of_good hc up busy base home nobody restore free idle alone area bad sliceBad⟩⟩⟩⟩
  · exact congrArg finish (imageInstr_misaligned d 0x181 _ sys off)
  · exact congrArg finish (imageInstr_misaligned d 0x182 _ sys off)
  · have hart : me (updMe s fun h => { h with wait := .settle }) = { me s with wait := .settle } := me_updMe _ _
    exact ⟨⟨_, congrArg finish (imageInstr_waits d 0x181 _ sys line busy other), hart, restKept_updMe _ _⟩,
      ⟨_, congrArg finish (imageInstr_waits d 0x182 _ sys line busy other), hart, restKept_updMe _ _⟩⟩
  · exact congrArg finish (imageInstr_gang d 0x181 _ sys line quiet gang)
  · exact congrArg finish (imageInstr_gang d 0x182 _ sys line quiet gang)
  · exact congrArg finish (imageInstr_unbound d 0x181 _ sys line quiet gang unbound)
  · exact congrArg finish (imageInstr_unbound d 0x182 _ sys line quiet gang unbound)
  · obtain ⟨t, run, on, wrote, others, kept, mem, vec⟩ := rstv_restores d sys line quiet gang bound header narr good lines
    exact ⟨t, run, on, wrote, others, kept, mem, vec ▸ imageVec_fields _ _ _ _ _⟩
  · rw [save_unbound hc up busy save free, endSave_status]
  · rw [save_noArea hc up busy save bound alone stopped area, endSave_status]
  · rw [restore_bound hc up busy restore bound, endSave_status]
  · rw [restore_noArea hc up busy restore free area, endSave_status]

end Sys2Proof.Machine
end

section
/-!
PROOFS. Memory kept in canonical form (R192, R193): the operations on homes, caches, translations and registers; obligation O23.
-/

namespace Sys2Proof.Machine
set_option Elab.async false

/-- The memory of what an operation comes to. -/
def Res.mem {α : Type} : Res α → List Host.Cell
  | .ok _ s => s.mem
  | .trap _ _ s => s.mem
  | .hold s => s.mem

/-- What an operation comes to has its memory in canonical form. -/
abbrev Res.memOk {α : Type} (r : Res α) : Prop := Memory.wf r.mem = true

/-- A step that goes on leaves memory in canonical form. -/
def Canonical (o : Out) : Prop := ∀ t, o = .next t → t.memOk

section
variable {α β : Type} {s t : State}

@[simp] theorem Res.ok_mem (a : α) (s : State) : (Res.ok a s).mem = s.mem := rfl
@[simp] theorem Res.trap_mem (c : Cause) (x : BitVec 64) (s : State) : (Res.trap (α := α) c x s).mem = s.mem := rfl
@[simp] theorem Res.hold_mem (s : State) : (Res.hold (α := α) s).mem = s.mem := rfl
theorem Res.memOk_of_ok {r : Res α} {a : α} (h : r = .ok a s) (wf : r.memOk) : s.memOk := by rwa [h] at wf
theorem Res.memOk_of_trap {r : Res α} {c : Cause} {x : BitVec 64} (h : r = .trap c x s) (wf : r.memOk) : s.memOk := by rwa [h] at wf
theorem Res.memOk_of_hold {r : Res α} (h : r = .hold s) (wf : r.memOk) : s.memOk := by rwa [h] at wf
theorem Res.mem_of_ok {r : Res α} {a : α} (h : r = .ok a s) : s.mem = r.mem := by rw [h, ok_mem]
theorem Res.mem_of_trap {r : Res α} {c : Cause} {x : BitVec 64} (h : r = .trap c x s) : s.mem = r.mem := by rw [h, trap_mem]
theorem Res.mem_of_hold {r : Res α} (h : r = .hold s) : s.mem = r.mem := by rw [h, hold_mem]

@[simp] theorem Res.memOk_iff {r : Res α} : r.memOk ↔ Memory.wf r.mem = true := Iff.rfl
@[simp] theorem State.memOk_iff : s.memOk ↔ Memory.wf s.mem = true := Iff.rfl
@[simp] theorem canonical_next : Canonical (.next t) ↔ t.memOk := by simp [Canonical]
@[simp] theorem canonical_fault (e : Fault) : Canonical (.fault e) := by simp [Canonical]
@[simp] theorem canonical_refused (e : Refusal) : Canonical (.refused e) := by simp [Canonical]
theorem canonical_ite {c : Prop} [Decidable c] {a b : Out} (ha : Canonical a) (hb : Canonical b) :
    Canonical (if c then a else b) := by split <;> assumption

theorem resOk_ite {c : Prop} [Decidable c] {r q : Res α} (hr : r.memOk) (hq : q.memOk) : (if c then r else q).memOk := by
  split <;> assumption
theorem memOk_ite {c : Prop} [Decidable c] (hs : s.memOk) (ht : t.memOk) : (if c then s else t).memOk := by
  split <;> assumption

theorem memOk_of_snd {p : α × State} {a : α} (h : p = (a, t)) (wf : p.2.memOk) : t.memOk := by rwa [h] at wf
theorem snd_of_eq {p : α × β} {a : α} {b : β} (h : p = (a, b)) : p.2 = b := by rw [h]

@[simp] theorem canonical_ite_eq (c : Prop) [Decidable c] (a b : Out) :
    Canonical (if c then a else b) = if c then Canonical a else Canonical b :=
  apply_ite _ _ _ _
@[simp] theorem ite_mem (c : Prop) [Decidable c] (s t : State) : (if c then s else t).mem = if c then s.mem else t.mem :=
  apply_ite _ _ _ _
@[simp] theorem ite_resMem (c : Prop) [Decidable c] (r q : Res α) : (if c then r else q).mem = if c then r.mem else q.mem :=
  apply_ite _ _ _ _

@[simp] theorem ite_snd (c : Prop) [Decidable c] (p q : α × β) : (if c then p else q).2 = if c then p.2 else q.2 :=
  apply_ite _ _ _ _
@[simp] theorem wf_ite (c : Prop) [Decidable c] (m n : List Host.Cell) :
    Memory.wf (if c then m else n) = if c then Memory.wf m else Memory.wf n :=
  apply_ite _ _ _ _

/-- A fold of moves that each keep memory keeps it. -/
theorem foldl_mem {f : State → α → State} (h : ∀ s x, (f s x).mem = s.mem) (l : List α) (s : State) :
    (l.foldl f s).mem = s.mem := by
  induction l generalizing s with
  | nil => rfl
  | cons x l ih => rw [List.foldl_cons, ih, h]

/-- A fold of moves that each keep memory canonical keeps it so. -/
theorem foldl_memOk {f : State → α → State} (h : ∀ s x, s.memOk → (f s x).memOk) (l : List α) {s : State} (ok : s.memOk) :
    (l.foldl f s).memOk := by
  induction l generalizing s with
  | nil => exact ok
  | cons x l ih => exact ih (h s x ok)
end

@[simp] theorem reset_mem : State.reset.mem = [] := rfl

/-! ## Cores, harts, columns -/

@[simp] theorem setHart_mem (s : State) (c : ℕ) (k : Fin 8) (h : Hart) : (setHart s c k h).mem = s.mem := rfl

/-! ## The issuing hart -/

@[simp] theorem setMe_mem (s : State) (h : Hart) : (setMe s h).mem = s.mem := rfl

/-! ## Leaving an instruction -/

@[simp] theorem waitAs_mem (st : HState) (w : Wait) (s : State) : (waitAs st w s).mem = s.mem := rfl

@[simp] theorem park_mem (w : Wait) (s : State) : (park w s).mem = s.mem := rfl

@[simp] theorem stall_mem (w : Wait) (s : State) : (stall w s).mem = s.mem := rfl

@[simp] theorem wake_mem (s : State) (c : ℕ) (k : Fin 8) : (wake s c k).mem = s.mem := rfl

@[simp] theorem wakeAll_mem (s : State) (p : Wait → Bool) : (wakeAll s p).mem = s.mem := rfl

theorem actAs_mem {f : State → State} (h : ∀ t, (f t).mem = t.mem) (c : ℕ) (k : Fin 8) (s : State) : (actAs c k f s).mem = s.mem :=
  h _
theorem actAs_memOk {f : State → State} (h : ∀ t, t.memOk → (f t).memOk) (c : ℕ) (k : Fin 8) {s : State} (wf : s.memOk) :
    (actAs c k f s).memOk :=
  h _ wf

/-! ## Causes and traps -/

@[simp] theorem sendMsix_mem (v : ℕ) (s : State) : (sendMsix v s).mem = s.mem := by unfold sendMsix; dsimp only; split <;> rfl

/-! ## Control flits (R459) -/

@[simp] theorem sendNight_mem (job key : BitVec 32) (cause : BitVec 8) (from' : Option ℕ) (s : State) :
    (sendNight job key cause from' s).mem = s.mem := rfl

@[simp] theorem trainPorts_mem (s : State) : (trainPorts s).mem = s.mem := rfl

/-! ## The wave (R427 to R431) -/

@[simp] theorem takeTrap_mem (c : Cause) (xval : BitVec 64) (vec : Bool) (s : State) : (takeTrap c xval vec s).mem = s.mem := by
  unfold takeTrap; dsimp only; split
  · simp [startWave_mem]
  · rfl

/-! ## Results of the parts of an instruction -/

@[simp] theorem Res.andThen_memOk {α β : Type} {r : Res α} {k : α → State → Res β} (h : r.memOk)
    (hk : ∀ a t, t.memOk → (k a t).memOk) : (r.andThen k).memOk :=
  match r, h with
  | .ok a t, h => hk a t h
  | .trap _ _ _, h => h
  | .hold _, h => h

/-! ## The vector context's owner -/

@[simp] theorem settled_memOk {s : State} {k : State → Res Unit} (wf : s.memOk) (hk : ∀ t, t.memOk → (k t).memOk) :
    (settled s k).memOk := by
  unfold settled; split
  · simpa using wf
  · exact hk s wf

/-! ## Outcomes -/

@[simp] theorem finish_canonical {r : Res Unit} (h : r.memOk) : Canonical (finish r) :=
  match r, h with
  | .ok _ _, h => by simpa [finish] using h
  | .trap _ _ _, h => by simpa [finish] using h
  | .hold _, h => by simpa [finish] using h

@[simp] theorem need_mem (b : Bool) (c : Cause) (xval : BitVec 64) (s : State) : (need b c xval s).mem = s.mem := by unfold need; split <;> rfl

/-! ## Free values -/

@[simp] theorem takeFree_mem (s : State) : (takeFree s).2.mem = s.mem := rfl

@[simp] theorem takeChoice_mem (s : State) : (takeChoice s).2.mem = s.mem := rfl

/-! ## The directory and its walker -/

@[simp] theorem useAllowances_mem (c : Fin 8) (d k n : ℕ) (s : State) : (useAllowances c d k n s).mem = s.mem := by
  unfold useAllowances; split <;> rfl

@[simp] theorem useAllowance_mem (c : Fin 8) (d k : ℕ) (s : State) : (useAllowance c d k s).mem = s.mem := by simp [useAllowance]

/-! ## Bytes of a line -/

@[simp] theorem setHomeLine_memOk (s : State) (ln : ℕ) (d : BitVec 512) (wf : s.memOk) : (setHomeLine s ln d).memOk := by
  simp [setHomeLine, wf_memWrite, wf]

/-! ## Errors (R71 to R74) -/

@[simp] theorem logError_mem (col : Fin 8) (src unit gpa : ℕ) (s : State) : (logError col src unit gpa s).mem = s.mem := by
  unfold logError; dsimp only; split
  · rfl
  · simp [raiseInt_mem]

@[simp] theorem countSoft_mem (col : Fin 8) (s : State) : (countSoft col s).mem = s.mem := rfl

/-! ## Slices -/

@[simp] theorem slicePut_mem (col : Fin 8) (off : ℕ) (write : Bool) (s : State) : (slicePut col off write s).mem = s.mem := rfl

@[simp] theorem sliceToDram_mem (col : Fin 8) (ln : ℕ) (s : State) : (sliceToDram col ln s).mem = s.mem := by
  unfold sliceToDram; dsimp only; split <;> rfl

@[simp] theorem sliceOut_mem (col : Fin 8) (k : ℕ) (v : ℕ × Bool) (s : State) : (sliceOut col k v s).mem = s.mem := by simp [sliceOut]

@[simp] theorem homeWriteLine_memOk (col : Fin 8) (ln : ℕ) (d : BitVec 512) (s : State) (wf : s.memOk) : (homeWriteLine col ln d s).memOk := by
  simp [homeWriteLine, wf]

/-! ## Cache ways and tokens -/

@[simp] theorem evictLine_memOk (c ln : ℕ) (s : State) (wf : s.memOk) : (evictLine c ln s).memOk := by
  unfold evictLine; split
  · exact wf
  · dsimp only; split <;> simp [wf]

@[simp] theorem collectAll_memOk (col : Fin 8) (ln : ℕ) (s : State) (wf : s.memOk) : (collectAll col ln s).memOk :=
  foldl_memOk (fun s _ wf => evictLine_memOk _ _ s wf) _ wf

@[simp] theorem sliceTouch_memOk (col : Fin 8) (off : ℕ) (write : Bool) (s : State) (wf : s.memOk) : (sliceTouch col off write s).memOk := by
  unfold sliceTouch; extract_lets k others lnOf s1
  have moved : s1.memOk := by
    unfold s1; split
    · exact wf
    · split <;> simp [wf]
  simpa using moved

@[simp] theorem homeRead_memOk (col : Fin 8) (off gpa : ℕ) (write : Bool) (s : State) (wf : s.memOk) : (homeRead col off gpa write s).2.memOk := by
  simp [homeRead, wf]

@[simp] theorem readLines_memOk (write : Bool) (l : List ℕ) (s : State) (wf : s.memOk) : (readLines write l s).memOk := by
  induction l generalizing s with
  | nil => exact wf
  | cons a l ih =>
    unfold readLines; split
    · next col off _ =>
      have read := homeRead_memOk col off a write s wf
      split <;> simp_all
    · exact ih s wf

@[simp] theorem cwInstall_memOk (c : ℕ) (e : CWLine) (s : State) (wf : s.memOk) : (cwInstall c e s).memOk := by
  unfold cwInstall; dsimp only; split
  · split <;> simp [wf]
  · split <;> simp [wf]

@[simp] theorem noteHint_mem (col : Fin 8) (ln c : ℕ) (s : State) : (noteHint col ln c s).mem = s.mem := rfl

@[simp] theorem homeFill_memOk (col : Fin 8) (ln : ℕ) (s : State) (wf : s.memOk) : (homeFill col ln s).memOk := by simp [homeFill, wf]

@[simp] theorem tokenRead_memOk (c ln : ℕ) (s : State) (wf : s.memOk) : (tokenRead c ln s).memOk := by
  unfold tokenRead; dsimp only; split
  · exact wf
  · split <;> simp [wf]

@[simp] theorem tokenWrite_memOk (c ln : ℕ) (s : State) (wf : s.memOk) : (tokenWrite c ln s).memOk := by
  unfold tokenWrite; dsimp only
  refine cwInstall_memOk _ _ _ (foldl_memOk (fun s _ wf => by simpa using wf) _ ?_)
  split <;> simp [wf]

@[simp] theorem cwStore_mem (c ln : ℕ) (f : BitVec 512 → BitVec 512) (s : State) : (cwStore c ln f s).mem = s.mem := rfl

/-! ## Translation -/

@[simp] theorem walkerReads_memOk (h va : ℕ) (s : State) (wf : s.memOk) : (walkerReads h va s).memOk := by simp [walkerReads, wf]

theorem walkFrom_memOk (c : Fin 8) (h va : ℕ) (s : State) (wf : s.memOk) {u : State} (eq : walkFrom c h va s = some u) : u.memOk := by
  unfold walkFrom at eq; dsimp only at eq; split at eq
  · cases eq; simp [wf, reach_mem]
  · simp at eq

@[simp] theorem translate_memOk (s : State) (c : ℕ) (sys : Bool) (rights : BitVec 5) (va : BitVec 64) (wf : s.memOk) :
    (translate s c sys rights va).2.memOk := by
  unfold translate; dsimp only; split
  · exact wf
  · split
    · exact wf
    · next t walked =>
      have kept := walkFrom_memOk _ _ _ s wf walked
      split <;> simpa using kept

@[simp] theorem xlate_memOk (rights : BitVec 5) (va : BitVec 64) (s : State) (wf : s.memOk) : (xlate rights va s).memOk := by
  have kept := translate_memOk s s.curCore (isSys s) rights va wf
  unfold xlate; split <;> simp_all

/-! ## What register writes start -/

@[simp] theorem layerReq_mem (col : Fin 8) (on : Bool) (s : State) : (layerReq col on s).mem = s.mem := rfl

@[simp] theorem jobWrite_mem (c : ℕ) (v : BitVec 64) (k : Option (Fin 8)) (s : State) : (jobWrite c v k s).mem = s.mem := rfl

@[simp] theorem startDaybreak_mem (s : State) : (startDaybreak s).mem = s.mem := by unfold startDaybreak; dsimp only; split <;> rfl

@[simp] theorem nfallWave_mem (s : State) : (nfallWave s).mem = s.mem := startWave_mem _ _ _ _

@[simp] theorem nfctlWrite_mem (v : BitVec 64) (s : State) : (nfctlWrite v s).mem = s.mem := by simp [nfctlWrite]

@[simp] theorem setDev_memOk (d : BitVec 8) (s : State) (wf : s.memOk) : (setDev d s).memOk := (setDev_memory d wf).1

@[simp] theorem fabcfgWrite_memOk (v : BitVec 64) (s : State) (wf : s.memOk) : (fabcfgWrite v s).memOk := by simp [fabcfgWrite, wf]

@[simp] theorem bootOk_mem (s : State) : (bootOk s).mem = s.mem := by
  unfold bootOk; rw [raiseInt_mem]; split <;> rfl

@[simp] theorem thermctlWrite_mem (col : Fin 8) (v : BitVec 64) (s : State) : (thermctlWrite col v s).mem = s.mem := by
  unfold thermctlWrite; dsimp only; split
  · split <;> simp [raiseInt_mem]
  · rfl

@[simp] theorem lctWrite_mem (col : Fin 8) (j : ℕ) (base : Bool) (v : BitVec 64) (s : State) : (lctWrite col j base v s).mem = s.mem := rfl

/-! ## Service registers -/

@[simp] theorem serviceRead_mem (col : Fin 8) (off : ℕ) (s : State) : (serviceRead col off s).2.mem = s.mem := by
  unfold serviceRead; simp

/-! ## Privileged column registers -/

@[simp] theorem privRead_mem (col : Fin 8) (off : ℕ) (s : State) : (privRead col off s).2.mem = s.mem := by
  unfold privRead; simp

@[simp] theorem privWrite_memOk (col : Fin 8) (off : ℕ) (v : BitVec 64) (s : State) (wf : s.memOk) : (privWrite col off v s).memOk := by
  simp [privWrite, wf]

/-! ## Where migrated banks are -/

@[simp] theorem mem_takeBank (c b w : ℕ) (s : State) : (takeBank c b w s).mem = s.mem := rfl

end Sys2Proof.Machine
end

section
/-!
PROOFS. Memory kept in canonical form: the scalar instructions, ranges, ways and walkers; obligation O23.
-/

namespace Sys2Proof.Machine
set_option Elab.async false

/-! ## Performing at the owner -/

theorem collected_memOk (coh : Bool) (col : Fin 8) (ln : ℕ) {s : State} (wf : s.memOk) : (if coh then collectAll col ln s else s).memOk := by
  split <;> simp [wf]
@[simp] theorem ownerRead_memOk (coh : Bool) (gpa n : ℕ) (s : State) (wf : s.memOk) : (ownerRead coh gpa n s).2.memOk := by
  unfold ownerRead; split
  · simpa using wf
  · split
    case h_1 col off _ =>
      have collected := collected_memOk coh col (gpa / 64) wf
      dsimp only
      generalize (if coh then collectAll col (gpa / 64) s else s) = t at collected ⊢
      simp [collected]
    all_goals simp [wf]

@[simp] theorem ownerWrite_memOk (coh : Bool) (gpa n x : ℕ) (s : State) (wf : s.memOk) : (ownerWrite coh gpa n x s).2.memOk := by
  unfold ownerWrite; split
  · simpa using wf
  · split
    case h_1 col off _ =>
      have collected := collected_memOk coh col (gpa / 64) wf
      dsimp only
      generalize (if coh then collectAll col (gpa / 64) s else s) = t at collected ⊢
      simp [collected, wf_memWrite]
    case h_4 => split <;> simp [wf, wf_memWrite]
    all_goals simp [wf, wf_memWrite]

@[simp] theorem ownerMask_memOk (coh : Bool) (gpa : ℕ) (m d : BitVec 512) (s : State) (wf : s.memOk) : (ownerMask coh gpa m d s).2.memOk := by
  unfold ownerMask; split
  · simp [wf]
  · split
    case h_1 col off _ =>
      have collected := collected_memOk coh col (gpa / 64) wf
      dsimp only
      generalize (if coh then collectAll col (gpa / 64) s else s) = t at collected ⊢
      simp [collected, wf_memWrite]
    all_goals simp [wf, wf_memWrite]

@[simp] theorem ownerModify_memOk (coh : Bool) (op : AmOp) (gpa n : ℕ) (x e : BitVec 64) (s : State) (wf : s.memOk) :
    (ownerModify coh op gpa n x e s).2.memOk := by
  have read := ownerRead_memOk coh gpa n s wf
  unfold ownerModify; split
  case h_5 => simp [wf, wf_memWrite]
  case h_6 =>
    split
    · simp_all
    · simp only [State.memOk]
      refine wf_memWrite _ _ _ _ ?_
      split <;> simp_all
  all_goals exact wf

@[simp] theorem ownerGather_memOk (coh : Bool) (n : ℕ) (l : List ℕ) (s : State) (wf : s.memOk) : (ownerGather coh n l s).2.memOk := by
  induction l generalizing s with
  | nil => exact wf
  | cons a l ih => exact ih _ (ownerRead_memOk coh a n s wf)

/-! ## Loads -/

@[simp] theorem watch_mem (wr : Bool) (va : BitVec 64) (s : State) : (watch wr va s).mem = s.mem := by unfold watch; split <;> rfl

@[simp] theorem fillLine_memOk (coh : Bool) (gpa : ℕ) (s : State) (wf : s.memOk) : (fillLine coh gpa s).2.memOk := by
  have read := ownerRead_memOk false (gpa / 64 * 64) 64 s wf
  have readCoh := ownerRead_memOk coh (gpa / 64 * 64) 64 s wf
  unfold fillLine; dsimp only; split
  · split
    · simp [wf]
    · simp [wf]
    · split <;> simp_all
  · split <;> simp_all

@[simp] theorem sendPkt_mem (s : State) (p : Pkt) : (sendPkt s p).mem = s.mem := rfl

@[simp] theorem loadL0_memOk (coh : Bool) (gpa n : ℕ) (va : BitVec 64) (s : State) (wf : s.memOk) : (loadL0 coh gpa n va s).memOk := by
  have filled := fillLine_memOk coh gpa s wf
  unfold loadL0; dsimp only
  repeat' split
  all_goals simp_all

@[simp] theorem putBar_mem (gpa : ℕ) (o : BarObj) (s : State) : (putBar gpa o s).mem = s.mem := by unfold putBar; split <;> rfl

@[simp] theorem unlessLost_memOk {va : BitVec 64} {s : State} {k : State → Res ℕ} (wf : s.memOk) (hk : ∀ t, t.memOk → (k t).memOk) :
    (unlessLost va s k).memOk := by
  unfold unlessLost; split
  · simpa using wf
  · exact hk s wf

@[simp] theorem loadHome_memOk (m : Completer) (coh : Bool) (gpa cls n : ℕ) (va : BitVec 64) (s : State) (wf : s.memOk) :
    (loadHome m coh gpa cls n va s).memOk := by
  have read := ownerRead_memOk coh gpa n s wf
  unfold loadHome
  repeat' split
  all_goals simp_all

@[simp] theorem loadAt_memOk (m : Completer) (gpa cls n : ℕ) (va : BitVec 64) (s : State) (wf : s.memOk) : (loadAt m gpa cls n va s).memOk := by
  unfold loadAt; extract_lets c home l0
  refine resOk_ite wf ?_
  split
  · exact wf
  · exact wf
  · refine resOk_ite (by simp [wf]) (unlessLost_memOk wf fun t wf => ?_)
    split
    case h_2 b w _ _ => split <;> simp [wf]
    case h_4 col off _ =>
      have read := serviceRead_mem col off t
      refine resOk_ite ?_ wf
      generalize serviceRead col off t = r at read ⊢
      obtain ⟨v, u⟩ := r
      simp_all
    case h_5 col off _ =>
      have read := privRead_mem col off t
      generalize privRead col off t = r at read ⊢
      simp [read, wf]
    case h_7 => exact resOk_ite wf (by split <;> simp [wf])
    all_goals simp [wf]

@[simp] theorem accessAt_memOk (rights : BitVec 5) (n : ℕ) (va : BitVec 64) (s : State) (wf : s.memOk) : (accessAt rights n va s).memOk := by
  simp [accessAt, wf]

@[simp] theorem watchFor_memOk (rd wr : Bool) (va : BitVec 64) (s : State) (wf : s.memOk) : (watchFor rd wr va s).memOk := by
  refine Res.andThen_memOk ?_ fun _ t wf => ?_ <;> split <;> simp [wf]

@[simp] theorem loadInstr_memOk (m : Completer) (n : ℕ) (sx : Bool) (d : BitVec 5) (va : BitVec 64) (len : BitVec 48) (s : State) (wf : s.memOk) :
    (loadInstr m n sx d va len s).memOk := by
  refine Res.andThen_memOk (accessAt_memOk _ _ _ _ wf) fun p s wf => ?_
  refine Res.andThen_memOk (by simp [wf]) fun _ s wf => ?_
  refine Res.andThen_memOk (by simp [wf]) fun _ s wf => ?_
  extract_lets dst own far
  refine resOk_ite ?_ ?_
  · simp [wf]
  · exact Res.andThen_memOk (loadAt_memOk _ _ _ _ _ _ wf) fun _ t wf => by simp [wf]

/-! ## Stores, reductions, atomics -/

@[simp] theorem enqueue_mem (k : WKind) (gpa cls n : ℕ) (va x : BitVec 64) (nc : Bool) (s : State) :
    (enqueue k gpa cls n va x nc s).mem = s.mem := by unfold enqueue; split <;> rfl

@[simp] theorem storeInstr_memOk (m : Completer) (n : ℕ) (x va : BitVec 64) (len : BitVec 48) (s : State) (wf : s.memOk) :
    (storeInstr m n x va len s).memOk := by
  refine Res.andThen_memOk (accessAt_memOk _ _ _ _ wf) fun p s wf => ?_
  refine Res.andThen_memOk (by simp [wf]) fun _ s wf => ?_
  refine Res.andThen_memOk (by simp [wf]) fun _ s wf => ?_
  refine Res.andThen_memOk (by simp [wf]) fun _ s wf => ?_
  simp [wf]

@[simp] theorem redInstr_memOk (op : AmOp) (n : ℕ) (x va : BitVec 64) (s : State) (wf : s.memOk) : (redInstr op n x va s).memOk := by
  refine Res.andThen_memOk (accessAt_memOk _ _ _ _ wf) fun p s wf => ?_
  refine Res.andThen_memOk (by simp [wf]) fun _ s wf => ?_
  refine Res.andThen_memOk (by simp [wf]) fun _ s wf => ?_
  simp [wf]

@[simp] theorem amInstr_memOk (op : AmOp) (n : ℕ) (x va : BitVec 64) (d : BitVec 5) (s : State) (wf : s.memOk) :
    (amInstr op n x va d s).memOk := by
  refine Res.andThen_memOk (accessAt_memOk _ _ _ _ wf) fun ⟨a, cls⟩ s wf => ?_
  dsimp -zeta only; extract_lets g
  refine Res.andThen_memOk (by simp [wf]) fun _ s wf => ?_
  refine Res.andThen_memOk (by simp [wf]) fun _ s wf => ?_
  clear_value g
  extract_lets e c dst own coh t unsent
  have wf : t.memOk := by simpa [t] using wf
  clear_value t
  refine resOk_ite wf (resOk_ite wf (resOk_ite (by simpa [reach_mem] using wf) (resOk_ite wf ?_)))
  split
  · split
    · exact wf
    · refine resOk_ite wf (resOk_ite (by simpa using wf) ?_)
      have modified := fun b w => ownerModify_memOk false op g n x e (takeBank c b w t) (by simpa using wf)
      split
      · next modify => exact memOk_of_snd modify (modified _ _)
      · next modify => simpa using memOk_of_snd modify (modified _ _)
  · refine resOk_ite (by simpa using wf) ?_
    have modified := ownerModify_memOk false op g n x e (reach (colOf c) g 1 t) (by simpa [reach_mem] using wf)
    split
    · next modify => exact memOk_of_snd modify modified
    · next modify => simpa using memOk_of_snd modify modified
  · refine resOk_ite (by simpa using wf) (resOk_ite wf ?_)
    have modified := ownerModify_memOk coh op g n x e t wf
    split
    · next modify => exact memOk_of_snd modify modified
    · next modify => simpa using memOk_of_snd modify modified

@[simp] theorem branchTo_mem (off : BitVec 64) (s : State) : (branchTo off s).mem = s.mem := rfl

@[simp] theorem branchIf_mem (b : Bool) (off : BitVec 64) (len : BitVec 48) (s : State) : (branchIf b off len s).mem = s.mem := by
  unfold branchIf; split <;> rfl

@[simp] theorem fpInstr_mem (maj op : ℕ) (z : BitVec 1) (b a d : BitVec 5) (f : ℕ → ℕ × Flags) (s : State) :
    (fpInstr maj op z b a d f s).mem = s.mem := by unfold fpInstr; dsimp only; split <;> rfl

@[simp] theorem execFadd_canonical (z : BitVec 1) (b a d : BitVec 5) (s : State) (wf : s.memOk) : Canonical (execFadd z b a d s) :=
  finish_canonical (by simp [wf])

@[simp] theorem execFsub_canonical (z : BitVec 1) (b a d : BitVec 5) (s : State) (wf : s.memOk) : Canonical (execFsub z b a d s) :=
  finish_canonical (by simp [wf])

@[simp] theorem execFmul_canonical (z : BitVec 1) (b a d : BitVec 5) (s : State) (wf : s.memOk) : Canonical (execFmul z b a d s) :=
  finish_canonical (by simp [wf])

@[simp] theorem execFdiv_canonical (z : BitVec 1) (b a d : BitVec 5) (s : State) (wf : s.memOk) : Canonical (execFdiv z b a d s) :=
  finish_canonical (by simp [wf])

@[simp] theorem execFsqrt_canonical (z : BitVec 1) (a d : BitVec 5) (s : State) (wf : s.memOk) : Canonical (execFsqrt z a d s) :=
  finish_canonical (by simp [wf])

@[simp] theorem execFmin_canonical (z : BitVec 1) (b a d : BitVec 5) (s : State) (wf : s.memOk) : Canonical (execFmin z b a d s) :=
  finish_canonical (by simp [wf])

@[simp] theorem execFmax_canonical (z : BitVec 1) (b a d : BitVec 5) (s : State) (wf : s.memOk) : Canonical (execFmax z b a d s) :=
  finish_canonical (by simp [wf])

@[simp] theorem execFtoi_canonical (z : BitVec 1) (a d : BitVec 5) (s : State) (wf : s.memOk) : Canonical (execFtoi z a d s) :=
  finish_canonical (by simp [wf])

@[simp] theorem execFtoin_canonical (z : BitVec 1) (a d : BitVec 5) (s : State) (wf : s.memOk) : Canonical (execFtoin z a d s) :=
  finish_canonical (by simp [wf])

@[simp] theorem execItof_canonical (z : BitVec 1) (a d : BitVec 5) (s : State) (wf : s.memOk) : Canonical (execItof z a d s) :=
  finish_canonical (by simp [wf])

@[simp] theorem execIntof_canonical (z : BitVec 1) (a d : BitVec 5) (s : State) (wf : s.memOk) : Canonical (execIntof z a d s) :=
  finish_canonical (by simp [wf])

@[simp] theorem execFnar_canonical (a d : BitVec 5) (s : State) (wf : s.memOk) : Canonical (execFnar a d s) := finish_canonical (by simp [wf])

@[simp] theorem execFwid_canonical (a d : BitVec 5) (s : State) (wf : s.memOk) : Canonical (execFwid a d s) := finish_canonical (by simp [wf])

@[simp] theorem execFeq_canonical (z : BitVec 1) (b a d : BitVec 5) (s : State) (wf : s.memOk) : Canonical (execFeq z b a d s) :=
  finish_canonical (by simp [wf])

@[simp] theorem execFlt_canonical (z : BitVec 1) (b a d : BitVec 5) (s : State) (wf : s.memOk) : Canonical (execFlt z b a d s) :=
  finish_canonical (by simp [wf])

@[simp] theorem execFle_canonical (z : BitVec 1) (b a d : BitVec 5) (s : State) (wf : s.memOk) : Canonical (execFle z b a d s) :=
  finish_canonical (by simp [wf])

@[simp] theorem execFclass_canonical (z : BitVec 1) (a d : BitVec 5) (s : State) (wf : s.memOk) : Canonical (execFclass z a d s) :=
  finish_canonical (by simp [wf])

@[simp] theorem execFsgn_canonical (z : BitVec 1) (b a d : BitVec 5) (s : State) (wf : s.memOk) : Canonical (execFsgn z b a d s) :=
  finish_canonical (by simp [wf])

@[simp] theorem execFsgnn_canonical (z : BitVec 1) (b a d : BitVec 5) (s : State) (wf : s.memOk) : Canonical (execFsgnn z b a d s) :=
  finish_canonical (by simp [wf])

@[simp] theorem execFsgnx_canonical (z : BitVec 1) (b a d : BitVec 5) (s : State) (wf : s.memOk) : Canonical (execFsgnx z b a d s) :=
  finish_canonical (by simp [wf])

@[simp] theorem execFmadd_canonical (z : BitVec 1) (b a d : BitVec 5) (s : State) (wf : s.memOk) : Canonical (execFmadd z b a d s) :=
  finish_canonical (by simp [wf])

@[simp] theorem execFmsub_canonical (z : BitVec 1) (b a d : BitVec 5) (s : State) (wf : s.memOk) : Canonical (execFmsub z b a d s) :=
  finish_canonical (by simp [wf])

@[simp] theorem execFnmadd_canonical (z : BitVec 1) (b a d : BitVec 5) (s : State) (wf : s.memOk) : Canonical (execFnmadd z b a d s) :=
  finish_canonical (by simp [wf])

/-! ## Release -/

@[simp] theorem withRelease_memOk {scope : BitVec 3} {s : State} {k : State → Res Unit} (wf : s.memOk) (hk : ∀ t, t.memOk → (k t).memOk) :
    (withRelease scope s k).memOk := by
  refine settled_memOk wf fun t wf => ?_
  split
  · exact hk t wf
  · split
    · dsimp only; split
      · simpa using wf
      · simpa using wf
      · exact hk _ wf
    · simpa using wf

@[simp] theorem acquire_mem (s : State) : (acquire s).mem = s.mem := rfl

@[simp] theorem sendProbes_mem (c : ℕ) (k : Fin 8) (scope : BitVec 3) (s : State) : (sendProbes c k scope s).mem = s.mem := by
  unfold sendProbes; dsimp only
  rw [updHart_mem]
  exact foldl_mem (fun _ _ => sendPkt_mem _ _) _ _

@[simp] theorem releaseStep_mem (c : ℕ) (k : Fin 8) (s : State) : (releaseStep c k s).mem = s.mem := by
  unfold releaseStep; dsimp only; split <;> simp

@[simp] theorem releaseSteps_mem (c : ℕ) (s : State) : (releaseSteps c s).mem = s.mem :=
  foldl_mem (fun _ _ => by simp) _ _

/-! ## Clearing a core's job state (R363, R406) -/

@[simp] theorem clearWays_memOk (c : ℕ) (ways : List ℕ) (s : State) (wf : s.memOk) : (clearWays c ways s).memOk := by
  unfold clearWays; simp only [State.memOk, updCore_mem]
  exact List.foldlRecOn (motive := fun m => Memory.wf m = true) ways _ wf fun m wf w _ => wf_memClear m _ _ wf

@[simp] theorem orphanMsgs_mem (c : ℕ) (keep : Option (Fin 8)) (s : State) : (orphanMsgs c keep s).mem = s.mem := rfl

@[simp] theorem clearJob_memOk (c : ℕ) (keep : Option (Fin 8)) (s : State) (wf : s.memOk) : (clearJob c keep s).memOk := by simp [clearJob, wf]

@[simp] theorem dropJobEntry_mem (job : BitVec 32) (s : State) : (dropJobEntry job s).mem = s.mem := by unfold dropJobEntry; split <;> rfl

@[simp] theorem jobChange_memOk (c : ℕ) (s : State) (wf : s.memOk) : (jobChange c s).memOk := by
  unfold jobChange; split
  · exact wf
  · split
    · dsimp only
      split <;> split <;> simp [wf, actAs]
    · exact wf

/-! ## Writing -/

@[simp] theorem sysPut_mem (c : ℕ) (k : Fin 8) (n : ℕ) (x : BitVec 64) (s : State) : (sysPut c k n x s).mem = s.mem := by simp [sysPut]

@[simp] theorem viewPut_mem (c : ℕ) (k : Fin 8) (n : ℕ) (x : BitVec 64) (s : State) : (viewPut c k n x s).mem = s.mem := by simp [viewPut]

@[simp] theorem dropRanges_mem (c : ℕ) (s : State) : (dropRanges c s).mem = s.mem := rfl

/-! ## Wake events -/

@[simp] theorem noteEvent_mem (c : ℕ) (bit : BitVec 4) (s : State) : (noteEvent c bit s).mem = s.mem := rfl

theorem countRetry_mem {f : State → State} (h : ∀ t, (f t).mem = t.mem) (c : ℕ) (k : Fin 8) (xval : BitVec 64) (s : State) :
    (countRetry c k xval f s).mem = s.mem := by
  unfold countRetry; dsimp only; split
  · exact actAs_mem (fun t => takeTrap_mem _ _ _ t) _ _ _
  · exact h _

/-! ## Mailboxes -/

@[simp] theorem mbChange_mem (c n f : ℕ) (s : State) : (mbChange c n f s).mem = s.mem := by
  induction f generalizing s with
  | zero => rfl
  | succ f ih =>
    unfold mbChange; dsimp only
    have retried (l : List (Fin 8)) (w : Option (Fin 8)) (t : State) : (l.foldl (fun s k =>
        if some k ≠ w ∧ mbWaits (hartAt s c k) n then countRetry c k (BitVec.ofNat 64 n) id s else s) t).mem = t.mem :=
      foldl_mem (fun s k => by split; exacts [countRetry_mem (fun _ => rfl) _ _ _ _, rfl]) _ _
    split
    · simp [retried]
    · split <;> simp [retried, ih, actAs]

/-! ## Full/empty words -/

@[simp] theorem feWake_mem (c : ℕ) (k : Fin 8) (s : State) : (feWake c k s).mem = s.mem := by
  unfold feWake; split
  · exact countRetry_mem (fun t => by simp) _ _ _ _
  · rfl

@[simp] theorem fePut_mem (g : ℕ) (v : Bool) (s : State) : (fePut g v s).mem = s.mem := by unfold fePut; split <;> rfl

@[simp] theorem putWaiters_mem (g : ℕ) (l : List Waiter) (s : State) : (putWaiters g l s).mem = s.mem := by unfold putWaiters; split <;> rfl

@[simp] theorem wakeWaiters_mem (g : ℕ) (s : State) : (wakeWaiters g s).mem = s.mem := by
  unfold wakeWaiters; dsimp only
  rw [foldl_mem fun _ _ => feWake_mem _ _ _, putWaiters_mem]

@[simp] theorem wakeWays_mem (c : ℕ) (ways : List ℕ) (s : State) : (wakeWays c ways s).mem = s.mem :=
  foldl_mem (fun _ _ => by dsimp only; rw [foldl_mem fun _ _ => feWake_mem _ _ _, updCore_mem]) _ _

/-! ## Drops -/

@[simp] theorem dropSpan_mem (c : ℕ) (job : BitVec 32) (lo hi : ℕ) (s : State) : (dropSpan c job lo hi s).mem = s.mem := rfl

/-! ## Way configurations -/

@[simp] theorem applyWays_memOk (c narr nbank : ℕ) (s : State) (wf : s.memOk) : (applyWays c narr nbank s).memOk := by
  unfold applyWays; dsimp only
  rw [State.memOk, updCore_mem]
  refine clearWays_memOk _ _ _ (foldl_memOk (fun t _ wf => evictLine_memOk _ _ t wf) _ ?_)
  simpa using wf

@[simp] theorem orBlock_memOk {word : BitVec 64} {s : State} {k : State → Res Unit} (wf : s.memOk) (hk : ∀ t, t.memOk → (k t).memOk) :
    (orBlock word s k).memOk := by
  unfold orBlock; split
  · exact wf
  · exact hk s wf

/-! ## Full/empty words and mailboxes -/

@[simp] theorem feAtBank_memOk (load : Bool) (x va : BitVec 64) (d : BitVec 5) (word : BitVec 64) (g : ℕ) (s : State) (wf : s.memOk) :
    (feAtBank load x va d word g s).memOk := by
  refine Res.andThen_memOk (watchFor_memOk _ _ _ _ wf) fun _ s wf => resOk_ite wf (resOk_ite ?_ (orBlock_memOk wf fun t wf => ?_))
  · have stored : (if load then s else { s with mem := memWrite s.mem g 8 x.toNat }).memOk := memOk_ite wf (wf_memWrite _ _ _ _ wf)
    generalize (if load then s else { s with mem := memWrite s.mem g 8 x.toNat }) = u at stored ⊢
    simp [stored]
  · exact resOk_ite (by simp [wf]) (by simp [wf])

@[simp] theorem fullEmpty_memOk (load : Bool) (x va : BitVec 64) (d : BitVec 5) (word : BitVec 64) (s : State) (wf : s.memOk) :
    (fullEmpty load x va d word s).memOk := by
  refine Res.andThen_memOk (accessAt_memOk _ _ _ _ wf) fun p s wf => resOk_ite (by simp [wf]) ?_
  split
  · refine resOk_ite wf ?_
    split <;> simp [wf]
  · split <;> simp [wf]
  · exact wf

@[simp] theorem execLdfD_canonical (a d : BitVec 5) (s : State) (wf : s.memOk) : Canonical (execLdfD a d s) := by simp [execLdfD, wf]

@[simp] theorem execSteD_canonical (b a : BitVec 5) (s : State) (wf : s.memOk) : Canonical (execSteD b a s) := by simp [execSteD, wf]

@[simp] theorem execMbput_canonical (a n : BitVec 5) (s : State) (wf : s.memOk) : Canonical (execMbput a n s) := by
  refine finish_canonical (settled_memOk wf fun t wf => resOk_ite (orBlock_memOk wf fun u wf => ?_) ?_)
  · simpa using wf
  · simpa using wf

@[simp] theorem execMbget_canonical (n d : BitVec 5) (s : State) (wf : s.memOk) : Canonical (execMbget n d s) := by
  refine finish_canonical (settled_memOk wf fun t wf => resOk_ite ?_ (orBlock_memOk wf fun u wf => ?_))
  · simpa using wf
  · simpa using wf

/-! ## Ordering -/

@[simp] theorem fenceRest_memOk {s : State} {k : State → Res Unit} (wf : s.memOk) (hk : ∀ t, t.memOk → (k t).memOk) :
    (fenceRest s k).memOk := by
  unfold fenceRest; split
  · simpa using wf
  · split
    · simpa using wf
    · exact hk s wf

@[simp] theorem execFence_canonical (k : BitVec 3) (s : State) (wf : s.memOk) : Canonical (execFence k s) :=
  finish_canonical (withRelease_memOk wf fun _ wf => fenceRest_memOk wf fun _ wf => by simpa using wf)

@[simp] theorem execAcq_canonical (_k : BitVec 3) (s : State) (wf : s.memOk) : Canonical (execAcq _k s) := by simp [execAcq, wf]

@[simp] theorem execRel_canonical (k : BitVec 3) (s : State) (wf : s.memOk) : Canonical (execRel k s) := by simp [execRel, wf]

@[simp] theorem execPhase_canonical (k : BitVec 3) (s : State) (wf : s.memOk) : Canonical (execPhase k s) := by simp [execPhase, wf]

@[simp] theorem execVfence_canonical (s : State) (wf : s.memOk) : Canonical (execVfence s) := by simp [execVfence, wf]

/-! ## Barrier wires, park, tokens -/

@[simp] theorem execBarw_canonical (w d : BitVec 5) (s : State) (wf : s.memOk) : Canonical (execBarw w d s) := by
  refine finish_canonical (orBlock_memOk wf fun _ wf => withRelease_memOk wf fun _ wf => resOk_ite ?_ ?_)
  · simpa using wf
  · simpa using wf

@[simp] theorem execPark_canonical (a d : BitVec 5) (s : State) (wf : s.memOk) : Canonical (execPark a d s) := by
  refine finish_canonical (orBlock_memOk wf fun _ wf => settled_memOk wf fun _ wf => resOk_ite ?_ ?_)
  · simpa using wf
  · simpa using wf

@[simp] theorem copyErr_mem (n : ℕ) (s : State) : (copyErr n s).mem = s.mem := rfl

@[simp] theorem execWaitt_canonical (a : BitVec 5) (s : State) (wf : s.memOk) : Canonical (execWaitt a s) := by
  refine finish_canonical (settled_memOk wf fun _ wf => resOk_ite wf ?_)
  split
  · simpa using wf
  · split <;> simpa using wf

/-! ## System registers, traps -/

@[simp] theorem sysAccess_memOk {n : BitVec 12} {word : BitVec 64} {write : Bool} {s : State} {k : ℕ → Bool → Res Unit} (wf : s.memOk)
    (hk : ∀ m v, (k m v).memOk) : (sysAccess n word write s k).memOk := by
  refine resOk_ite (resOk_ite wf ?_) (resOk_ite wf (resOk_ite wf (resOk_ite wf (hk _ _))))
  split
  · exact resOk_ite wf (resOk_ite wf (hk _ _))
  · exact resOk_ite (hk _ _) wf

@[simp] theorem execMfs_canonical (n : BitVec 12) (d : BitVec 5) (s : State) (wf : s.memOk) : Canonical (execMfs n d s) := by simp [execMfs, wf]

@[simp] theorem execMts_canonical (n : BitVec 12) (a : BitVec 5) (s : State) (wf : s.memOk) : Canonical (execMts n a s) := by
  refine finish_canonical (sysAccess_memOk wf fun m v => resOk_ite ?_ (resOk_ite ?_ (resOk_ite ?_ (resOk_ite ?_ ?_))))
  all_goals simp [wf]

@[simp] theorem execTrap_canonical (i : BitVec 12) (s : State) (wf : s.memOk) : Canonical (execTrap i s) := by simp [execTrap, wf]

@[simp] theorem execXret_canonical (s : State) (wf : s.memOk) : Canonical (execXret s) := by simp [execXret, wf]

@[simp] theorem execBrk_canonical (c : BitVec 5) (s : State) (wf : s.memOk) : Canonical (execBrk c s) := by simp [execBrk, wf]

@[simp] theorem execNfall_canonical (a : BitVec 5) (s : State) (wf : s.memOk) : Canonical (execNfall a s) := by
  refine finish_canonical (resOk_ite wf (settled_memOk wf fun _ wf => ?_))
  simpa [startWave_mem] using wf

@[simp] theorem execIllegalOp_canonical (w : BitVec 32) (s : State) (wf : s.memOk) : Canonical (execIllegalOp w s) := by simp [execIllegalOp, wf]

/-! ## Operand extension -/

@[simp] theorem execOxli_canonical (i : BitVec 20) (n : BitVec 3) (s : State) (wf : s.memOk) : Canonical (execOxli i n s) := by
  simp [execOxli, wf]

@[simp] theorem execOxhi_canonical (i : BitVec 20) (n : BitVec 3) (s : State) (wf : s.memOk) : Canonical (execOxhi i n s) := by
  simp [execOxhi, wf]

@[simp] theorem execOxmv_canonical (a : BitVec 5) (n : BitVec 3) (s : State) (wf : s.memOk) : Canonical (execOxmv a n s) := by
  simp [execOxmv, wf]

@[simp] theorem execOxrd_canonical (d : BitVec 5) (n : BitVec 3) (s : State) (wf : s.memOk) : Canonical (execOxrd d n s) := by
  simp [execOxrd, wf]

/-! ## Editing a directory (R36 to R38) -/

@[simp] theorem editUses_memOk (e : Edit) (h va : ℕ) (s : State) (wf : s.memOk) : (editUses e h va s).memOk := by
  have walked : ((walkFrom (colOf s.curCore) h va s).getD s).memOk := by
    cases eq : walkFrom (colOf s.curCore) h va s with
    | none => exact wf
    | some t => exact walkFrom_memOk _ _ _ s wf eq
  exact memOk_ite (readLines_memOk _ _ _ walked) (readLines_memOk _ _ _ walked)

section
variable {m : List Host.Cell} (h n : ℕ)

@[simp] theorem closeEdit_wf (wf : Memory.wf m = true) : Memory.wf (closeEdit m h n) = true :=
  wf_memWrite _ _ _ _ (wf_memWrite _ _ _ _ wf)

@[simp] theorem storeDesc_wf (d : RDesc) (wf : Memory.wf m = true) : Memory.wf (storeDesc m h n d) = true :=
  wf_memWrite _ _ _ _ (wf_memWrite _ _ _ _ (wf_memWrite _ _ _ _ (wf_memWrite _ _ _ _ wf)))

@[simp] theorem moveDescs_wf (s : State) (lo : ℕ) (up : Bool) (wf : Memory.wf m = true) : Memory.wf (moveDescs s h lo n up m) = true :=
  List.foldlRecOn (motive := fun m => Memory.wf m = true) _ _ wf fun _ wf _ _ => storeDesc_wf _ _ _ wf
end

theorem splitAt_wf (s : State) (h : ℕ) (sys : Bool) (va : ℕ) (wf : s.memOk) : Memory.wf (splitAt s h sys va).mem = true := by
  unfold splitAt; split
  · exact wf
  · exact wf
  · dsimp only
    repeat (split; · exact wf)
    dsimp only
    exact closeEdit_wf _ _ (storeDesc_wf _ _ _ (storeDesc_wf _ _ _ (moveDescs_wf _ _ _ _ _ wf)))

theorem mergeAt_wf (s : State) (h : ℕ) (sys : Bool) (va : ℕ) (wf : s.memOk) : Memory.wf (mergeAt s h sys va).mem = true := by
  unfold mergeAt; split
  · exact wf
  · exact wf
  · dsimp only
    repeat (split; · exact wf)
    dsimp only
    exact closeEdit_wf _ _ (moveDescs_wf _ _ _ _ _ (storeDesc_wf _ _ _ wf))

/-- A range edit keeps memory canonical if the edit that it makes does. -/
theorem rangeEdit_memOk {edit : State → ℕ → Bool → ℕ → Edit} (edited : ∀ s h sys va, s.memOk → Memory.wf (edit s h sys va).mem = true)
    (a d : BitVec 5) (s : State) (wf : s.memOk) : (rangeEdit edit a d s).memOk := by
  unfold rangeEdit; extract_lets h va e
  refine resOk_ite (by simp [wf]) (resOk_ite wf ?_)
  split
  · simp [wf]
  · refine resOk_ite (by simp [wf]) (withRelease_memOk wf fun s wf => resOk_ite (by simp [wf]) ?_)
    have read := editUses_memOk (edit s h (isSys s) va) h va s wf
    extract_lets t e; split
    · simpa using edited _ _ _ _ read
    · exact read

@[simp] theorem execRsplit_canonical (a d : BitVec 5) (s : State) (wf : s.memOk) : Canonical (execRsplit a d s) :=
  finish_canonical (rangeEdit_memOk splitAt_wf _ _ _ wf)

@[simp] theorem execRmerge_canonical (a d : BitVec 5) (s : State) (wf : s.memOk) : Canonical (execRmerge a d s) :=
  finish_canonical (rangeEdit_memOk mergeAt_wf _ _ _ wf)

/-! ## Invalidation and probing -/

@[simp] theorem execRinv_canonical (k : BitVec 3) (b a : BitVec 5) (s : State) (wf : s.memOk) : Canonical (execRinv k b a s) := by
  simp [execRinv, wf]

@[simp] theorem execRprobe_canonical (a d : BitVec 5) (s : State) (wf : s.memOk) : Canonical (execRprobe a d s) := by
  refine finish_canonical ?_
  split
  · simp [wf]
  · split
    · simp [wf]
    · next t walked =>
      have kept := walkFrom_memOk _ _ _ s wf walked
      split
      · exact kept
      · exact resOk_ite (by simpa using kept) (by simpa using kept)
      · dsimp only; split <;> simpa using kept

/-! ## Way configuration -/

@[simp] theorem wayStep_memOk (na nb : ℕ) (d : BitVec 5) (s : State) (wf : s.memOk) : (wayStep na nb d s).memOk := by
  unfold wayStep; split
  · refine resOk_ite wf (resOk_ite (by simp [wf]) (resOk_ite wf ?_))
    have applied : ((gangOf s s.curCore).foldl (fun s c => applyWays c na nb s) s).memOk :=
      foldl_memOk (fun t _ wf => applyWays_memOk _ _ _ t wf) _ wf
    simpa using applied
  · exact wf

@[simp] theorem execWaycfg_canonical (a d : BitVec 5) (s : State) (wf : s.memOk) : Canonical (execWaycfg a d s) := by simp [execWaycfg, wf]

/-! ## The cache walker -/

@[simp] theorem walkSpan_memOk (hi f va : ℕ) (s : State) (l : List Walked) (wf : s.memOk) : (walkSpan hi f va s l).2.memOk := by
  induction f generalizing va s l with
  | zero => exact wf
  | succ f ih =>
    unfold walkSpan
    have kept := translate_memOk s s.curCore (isSys s) needRd (BitVec.ofNat 64 va) wf
    split
    · exact wf
    · split <;> simp_all

@[simp] theorem sendContribution_mem (k : PKind) (gpa tag : ℕ) (s : State) : (sendContribution k gpa tag s).mem = s.mem := by
  unfold sendContribution; split <;> rfl

@[simp] theorem sendArrive_mem (gpa : ℕ) (err : Bool) (s : State) : (sendArrive gpa err s).mem = s.mem := by simp [sendArrive]

@[simp] theorem queuePieces_mem (inv : Bool) (bar : BitVec 64) (group : ℕ) (l : List Walked) (s : State) :
    (queuePieces inv bar group l s).mem = s.mem :=
  foldl_mem (fun _ _ => updCol_mem _ _ _) _ _

@[simp] theorem walkInstr_memOk (inv : Bool) (b a d : BitVec 5) (s : State) (wf : s.memOk) : (walkInstr inv b a d s).memOk := by
  unfold walkInstr; extract_lets n va bar first hi
  refine settled_memOk wf fun t wf => ?_
  extract_lets r
  have walked : r.2.memOk := by unfold r; split <;> simp [wf]
  clear_value r
  split <;> simp_all

@[simp] theorem execCwflush_canonical (b a d : BitVec 5) (s : State) (wf : s.memOk) : Canonical (execCwflush b a d s) := by
  simp [execCwflush, wf]

@[simp] theorem execCwinv_canonical (b a d : BitVec 5) (s : State) (wf : s.memOk) : Canonical (execCwinv b a d s) := by simp [execCwinv, wf]

end Sys2Proof.Machine
end

section
/-!
PROOFS. Memory kept in canonical form: records, selection, messages and the instructions about them; obligation O23.
-/

namespace Sys2Proof.Machine
set_option Elab.async false

/-! ## Records and job entries -/

@[simp] theorem updJob_mem (s : State) (job : BitVec 32) (f : JobEnt → JobEnt) : (updJob s job f).mem = s.mem := rfl

@[simp] theorem updRec_mem (s : State) (job : BitVec 32) (k : ℕ) (f : LRec → LRec) : (updRec s job k f).mem = s.mem := rfl

@[simp] theorem distWrite_memOk (gpa n x : ℕ) (s : State) (wf : s.memOk) : (distWrite gpa n x s).memOk := by simp [distWrite, wf]

@[simp] theorem poolPut_memOk (s : State) (job : BitVec 32) (k off n x : ℕ) (wf : s.memOk) : (poolPut s job k off n x).memOk := by
  unfold poolPut; split <;> simp [wf]

@[simp] theorem setStatus_memOk (s : State) (job : BitVec 32) (k : ℕ) (st : BitVec 16) (wf : s.memOk) : (setStatus s job k st).memOk := by
  simp [setStatus, wf]

@[simp] theorem setLive_memOk (s : State) (job : BitVec 32) (k n : ℕ) (wf : s.memOk) : (setLive s job k n).memOk := by simp [setLive, wf]

@[simp] theorem setIssued_memOk (s : State) (job : BitVec 32) (k n : ℕ) (wf : s.memOk) : (setIssued s job k n).memOk := by simp [setIssued, wf]

@[simp] theorem restIrq_mem (job : BitVec 32) (k : ℕ) (s : State) : (restIrq job k s).mem = s.mem := by
  unfold restIrq; dsimp only
  rw [updRec_mem]
  refine foldl_mem (fun t q => ?_) _ _
  split
  · rfl
  · split <;> simp

@[simp] theorem endRecord_memOk (job : BitVec 32) (k : ℕ) (st : BitVec 16) (s : State) (wf : s.memOk) : (endRecord job k st s).memOk := by
  simp [endRecord, wf]

/-! ## Arming (R374) -/

@[simp] theorem agentWord_memOk (job : BitVec 32) (va : ℕ) (s : State) (wf : s.memOk) : (agentWord job va s).2.memOk := by
  unfold agentWord; split
  · exact wf
  · next j _ =>
    extract_lets h read
    have readOk : ∀ d es t, t.memOk → (read d es t).2.memOk := fun d es t wf => by
      unfold read; dsimp only; split
      · next g cls _ _ =>
        have kept := ownerRead_memOk (cls == 0) g 8 (updJob t job fun j => { j with rcache := es }) (by simpa using wf)
        split <;> simp_all
      · simpa using wf
    split
    · exact readOk _ _ _ wf
    · split
      · exact wf
      · next t walked =>
        have kept := walkFrom_memOk _ _ _ s wf walked
        split
        · exact readOk _ _ _ kept
        all_goals exact kept

@[simp] theorem readBlock_memOk (job : BitVec 32) (va : ℕ) (s : State) (wf : s.memOk) : (readBlock job va s).2.memOk := by
  refine List.foldlRecOn (motive := fun (r : Agent (List (BitVec 64)) × State) => r.2.memOk) _ _ wf fun r wf i _ => ?_
  have word := agentWord_memOk job (va + 8 * i) r.2 wf
  split
  · split <;> simp_all
  · exact wf

@[simp] theorem readRegs_memOk (job : BitVec 32) (r : LRec) (s : State) (wf : s.memOk) : (readRegs job r s).2.memOk := by
  refine List.foldlRecOn (motive := fun (x : Agent (Tab (BitVec 64)) × State) => x.2.memOk) _ _ wf fun x wf st _ => ?_
  have block := readBlock_memOk job (r.regsVa st) x.2 wf
  split
  · split
    · exact wf
    · split
      · dsimp only; split <;> simp_all
      all_goals simp_all
  · exact wf

@[simp] theorem readRecord_memOk (job : BitVec 32) (k : ℕ) (s : State) (wf : s.memOk) : (readRecord job k s).2.memOk := by
  refine List.foldlRecOn (motive := fun (r : Agent (List (BitVec 64)) × State) => r.2.memOk) _ _ wf fun r wf i _ => ?_
  have line := ownerRead_memOk true (poolAt s job k + 64 * i) 64 r.2 wf
  split
  · split <;> simp_all
  · exact wf

theorem armRecord_memOk (job : BitVec 32) (k : ℕ) (s : State) (wf : s.memOk) {u : State} (eq : armRecord job k s = some u) : u.memOk := by
  unfold armRecord at eq; split at eq
  · cases eq; exact wf
  · have read := readRecord_memOk job k s wf
    split at eq
    · next l t record =>
      have kept := memOk_of_snd record read
      dsimp only at eq
      split at eq
      · cases eq; exact endRecord_memOk _ _ _ _ (by simpa using kept)
      · split at eq
        · next regs =>
          have kept := memOk_of_snd regs (readRegs_memOk _ _ _ kept)
          cases eq; exact endRecord_memOk _ _ _ _ (by simpa using kept)
        · cases eq
        · next regs =>
          have kept := memOk_of_snd regs (readRegs_memOk _ _ _ kept)
          split at eq
          · cases eq; exact endRecord_memOk _ _ _ _ (by simpa using kept)
          · cases eq; exact setStatus_memOk _ _ _ _ (setLive_memOk _ _ _ _ (setIssued_memOk _ _ _ _ (by simpa using kept)))
    · next record => cases eq; exact endRecord_memOk _ _ _ _ (by simpa using memOk_of_snd record read)

@[simp] theorem setPrio_memOk (job : BitVec 32) (k : ℕ) (p : BitVec 8) (s : State) (wf : s.memOk) : (setPrio job k p s).memOk := by
  simp [setPrio, wf]

@[simp] theorem resolveRec_memOk (job : BitVec 32) (k : ℕ) (s : State) (wf : s.memOk) : (resolveRec job k s).memOk := by simp [resolveRec, wf]

@[simp] theorem resolveAll_memOk (s : State) (wf : s.memOk) : (resolveAll s).memOk :=
  foldl_memOk (fun _ _ wf => foldl_memOk (fun t _ wf => resolveRec_memOk _ _ t wf) _ wf) _ wf

/-! ## Binding (R380) -/

@[simp] theorem bindStep_memOk (c : ℕ) (s : State) (wf : s.memOk) : (bindStep c s).memOk := by
  unfold bindStep; split
  · exact wf
  · exact memOk_ite wf (foldl_memOk (fun t _ wf => by simp [wf]) _ wf)

@[simp] theorem bindSteps_memOk (s : State) (wf : s.memOk) : (bindSteps s).memOk :=
  foldl_memOk (fun t _ wf => bindStep_memOk _ t wf) _ wf

@[simp] theorem bindGroup_memOk (job : BitVec 32) (k st : ℕ) (g : List ℕ) (s : State) (wf : s.memOk) : (bindGroup job k st g s).memOk :=
  bindStep_memOk _ _ (foldl_memOk (fun t _ wf => by simpa using wf) _ wf)

@[simp] theorem unbindCore_mem (c : ℕ) (s : State) : (unbindCore c s).mem = s.mem := rfl

@[simp] theorem bindOne_memOk (job : BitVec 32) (k st : ℕ) (s : State) (wf : s.memOk) : (bindOne job k st s).memOk := by
  unfold bindOne; split <;> simp [wf]

/-! ## Selection (R376 to R378) -/

@[simp] theorem countDecision_mem (s : State) : (countDecision s).mem = s.mem := rfl

@[simp] theorem selectHead_memOk (s : State) (wf : s.memOk) : (selectHead s).memOk := by
  unfold selectHead; split
  · exact wf
  · split
    · exact wf
    · exact memOk_ite wf (foldl_memOk (fun t _ wf => bindGroup_memOk _ _ _ _ t wf) _
        (setStatus_memOk _ _ _ _ (poolPut_memOk _ _ _ _ _ _ (by simpa using wf))))

@[simp] theorem grants_memOk (s : State) (wf : s.memOk) : (grants s).memOk :=
  foldl_memOk (fun t _ wf => memOk_ite (bindOne_memOk _ _ _ t wf) wf) _ wf

/-! ## Host queue contexts (R364 to R369) -/

@[simp] theorem updCtx_mem (s : State) (q : ℕ) (f : QCtx → QCtx) : (updCtx s q f).mem = s.mem := rfl

@[simp] theorem ctxBad_mem (q : ℕ) (s : State) : (ctxBad q s).mem = s.mem := by
  simp [ctxBad, raiseInt_mem]

@[simp] theorem putTail_memOk (q : ℕ) (v : BitVec 64) (s : State) (wf : s.memOk) : (putTail q v s).memOk := by simp [putTail, wf]

@[simp] theorem switchOut_memOk (q : ℕ) (s : State) (wf : s.memOk) : (switchOut q s).memOk := by
  unfold switchOut; extract_lets c line t
  refine memOk_ite wf (foldl_memOk (fun t _ wf => putTail_memOk _ _ t wf) _ ?_)
  have written : t.memOk := by simp [t, wf]
  simpa using written

@[simp] theorem switchIn_memOk (q : ℕ) (s : State) (wf : s.memOk) : (switchIn q s).memOk := by simp [switchIn, wf]

@[simp] theorem contextSwitch_memOk (q : ℕ) (s : State) (wf : s.memOk) : (contextSwitch q s).memOk := by
  unfold contextSwitch; extract_lets c begins
  have beginsOk : ∀ t q, t.memOk → (begins t q).memOk := fun t q wf => by simpa [begins] using wf
  refine memOk_ite (memOk_ite (by simp [wf]) (by simp [wf])) (memOk_ite wf (memOk_ite (beginsOk _ _ wf) (memOk_ite wf ?_)))
  split
  · exact beginsOk _ _ wf
  · exact wf

@[simp] theorem writeTail_memOk (q : ℕ) (v : BitVec 64) (s : State) (wf : s.memOk) : (writeTail q v s).memOk := by simp [writeTail, wf]

@[simp] theorem consumeEntry_memOk (q : ℕ) (s : State) (wf : s.memOk) : (consumeEntry q s).memOk := by
  unfold consumeEntry; extract_lets c a
  refine memOk_ite wf ?_
  have read := ownerRead_memOk true a 4 s wf
  split
  next x t eq =>
  rw [eq] at read
  extract_lets t1 t2
  have kept : t2.memOk := by
    simp only [t2, State.memOk, updCtx_mem]
    exact memOk_ite (by simpa using read) read
  clear_value t2
  split
  · simpa using kept
  · next e =>
    refine memOk_ite (by simpa using kept) (memOk_ite ?_ (by simpa using kept))
    have recorded : (updRec t2 c.job e fun r => { r with ctxs := if r.ctxs.contains q then r.ctxs else q :: r.ctxs }).memOk := by
      simpa using kept
    cases armed : armRecord c.job e (updRec t2 c.job e fun r => { r with ctxs := if r.ctxs.contains q then r.ctxs else q :: r.ctxs }) with
    | none => exact wf
    | some u => exact armRecord_memOk _ _ _ recorded armed

@[simp] theorem decisionCycle_memOk (s : State) (wf : s.memOk) : (decisionCycle s).memOk :=
  grants_memOk _ (selectHead_memOk _ (resolveAll_memOk _ (foldl_memOk (fun t _ wf => consumeEntry_memOk _ t wf) _ (bindSteps_memOk _ wf))))

/-! ## Stage queues (R381, R382) -/

@[simp] theorem pushCont_memOk (job : BitVec 32) (k st : ℕ) (c : Vector (BitVec 64) 8) (s : State) (wf : s.memOk) :
    (pushCont job k st c s).memOk := by simp [pushCont, wf]

@[simp] theorem stageFeed_memOk (job : BitVec 32) (k : ℕ) (s : State) (wf : s.memOk) : (stageFeed job k s).memOk :=
  memOk_ite wf (setLive_memOk _ _ _ _ (setIssued_memOk _ _ _ _ (pushCont_memOk _ _ _ _ _ wf)))

/-! ## Starting and ending records -/

@[simp] theorem startHart_mem (c : ℕ) (k : Fin 8) (pc : BitVec 48) (w : Vector (BitVec 64) 4) (job : BitVec 32) (lrec st : ℕ) (unit : BitVec 32) (s : State) :
    (startHart c k pc w job lrec st unit s).mem = s.mem := rfl

@[simp] theorem takeRecord_mem (c : ℕ) (s : State) : (takeRecord c s).mem = s.mem := by
  unfold takeRecord; dsimp only; split
  · rfl
  · split
    · split <;> simp
    · rfl

@[simp] theorem checkDone_memOk (job : BitVec 32) (k : ℕ) (s : State) (wf : s.memOk) : (checkDone job k s).memOk :=
  memOk_ite (foldl_memOk (fun _ _ wf => foldl_memOk (fun t _ wf => by simpa using wf) _ wf) _ (endRecord_memOk _ _ _ _ wf)) wf

@[simp] theorem tryMove_memOk (c : ℕ) (s : State) (wf : s.memOk) : (tryMove c s).memOk := by
  unfold tryMove; extract_lets q; split
  · exact wf
  · exact memOk_ite wf (bindGroup_memOk _ _ _ _ _ (foldl_memOk (fun t _ wf => by simpa using wf) _ wf))

@[simp] theorem balance_memOk (job : BitVec 32) (k : ℕ) (s : State) (wf : s.memOk) : (balance job k s).memOk := by
  unfold balance; extract_lets r less sts b a na nb g ok all stays old t busy cand best
  have unmarked : t.memOk := foldl_memOk (fun u _ wf => by simpa using wf) _ wf
  refine memOk_ite wf (memOk_ite unmarked (memOk_ite (foldl_memOk (fun u _ wf => tryMove_memOk _ u wf) _ unmarked) ?_))
  clear_value best; split
  · exact unmarked
  · exact tryMove_memOk _ _ (by simpa using unmarked)

/-! ## Logical cores (R462) -/

@[simp] theorem resolveCore_memOk (col : Fin 8) (job : BitVec 32) (l : ℕ) (s : State) (wf : s.memOk) : (resolveCore col job l s).2.memOk := by
  unfold resolveCore; extract_lets c; split
  · exact wf
  · next j _ =>
    split
    · exact wf
    · extract_lets read
      have readOk : ∀ t, t.memOk → (read t).2.memOk := fun t wf => by
        have kept := ownerRead_memOk true ((vget c.lctbase j).toNat + 8 * l) 8 t wf
        unfold read; split <;> simp_all
      split
      · exact readOk _ wf
      · split
        next keep t eq =>
        have kept : t.memOk := by have := takeChoice_mem s; simp_all
        split
        · exact kept
        · exact readOk _ kept

/-! ## Spawning (R389) -/

@[simp] theorem liveBy_memOk (c : ℕ) (k : Fin 8) (up : Bool) (s : State) (wf : s.memOk) : (liveBy c k up s).memOk := by simp [liveBy, wf]

@[simp] theorem placeChild_memOk (c : ℕ) (k : Fin 8) (t : ℕ) (j : Fin 8) (pc : BitVec 48) (w : Vector (BitVec 64) 4) (s : State) (wf : s.memOk) :
    (placeChild c k t j pc w s).memOk := by simp [placeChild, wf]

@[simp] theorem inlineChild_memOk (pc : BitVec 48) (d : BitVec 5) (w : Vector (BitVec 64) 4) (s : State) (wf : s.memOk) :
    (inlineChild pc d w s).memOk := by simp [inlineChild, wf]

@[simp] theorem spawnClaim_memOk (c : ℕ) (k : Fin 8) (t : ℕ) (pc : BitVec 48) (w : Vector (BitVec 64) 4) (s : State) (wf : s.memOk) :
    (spawnClaim c k t pc w s).2.2.memOk := by unfold spawnClaim; split <;> simp [wf]

@[simp] theorem spawnAnswered_memOk (st : BitVec 64) (inline : Bool) (pc : BitVec 48) (d : BitVec 5) (w : Vector (BitVec 64) 4) (s : State) (wf : s.memOk) :
    (spawnAnswered st inline pc d w s).memOk := by simp [spawnAnswered, wf]

@[simp] theorem notHandler_memOk {word : BitVec 64} {s : State} {k : State → Res Unit} (wf : s.memOk) (hk : ∀ t, t.memOk → (k t).memOk) :
    (notHandler word s k).memOk :=
  resOk_ite wf (hk s wf)

@[simp] theorem execSpawn_canonical (b a d : BitVec 5) (s : State) (wf : s.memOk) : Canonical (execSpawn b a d s) := by
  refine finish_canonical (notHandler_memOk wf fun s wf => resOk_ite wf (settled_memOk wf fun s wf => ?_))
  extract_lets c
  have found := resolveCore_memOk (colOf c) (myCore s).job ((gr s b).toNat % 2 ^ 20) s wf
  split
  · next t u eq =>
    have kept := memOk_of_snd eq found
    exact resOk_ite (by simpa using kept) (resOk_ite (by simp [kept]) (by simpa using kept))
  · next eq => simpa using memOk_of_snd eq found

/-! ## Suspend, emit, end (R390 to R392) -/

@[simp] theorem goIdle_memOk (s : State) (wf : s.memOk) : (goIdle s).memOk := by simp [goIdle, wf]

@[simp] theorem execSuspend_canonical (a : BitVec 5) (s : State) (wf : s.memOk) : Canonical (execSuspend a s) := by
  refine finish_canonical (notHandler_memOk wf fun s wf => resOk_ite wf (settled_memOk wf fun s wf => resOk_ite ?_ ?_))
  all_goals simp [wf]

@[simp] theorem execEmit_canonical (d : BitVec 5) (s : State) (wf : s.memOk) : Canonical (execEmit d s) := by
  refine finish_canonical (notHandler_memOk wf fun s wf => resOk_ite wf (settled_memOk wf fun s wf => resOk_ite ?_ (resOk_ite ?_ ?_)))
  all_goals simp [wf]

@[simp] theorem execEndI_canonical (s : State) (wf : s.memOk) : Canonical (execEndI s) := by
  refine finish_canonical (notHandler_memOk wf fun s wf => withRelease_memOk wf fun s wf => ?_)
  have counted := liveBy_memOk s.curCore s.curSlot false s wf
  dsimp only
  split
  · simpa using counted
  · exact memOk_ite (resolveAll_memOk _ (checkDone_memOk _ _ _ (goIdle_memOk _ counted))) (goIdle_memOk _ counted)

/-! ## Messages (R387, R393, R394) -/

@[simp] theorem takeMessage_mem (c : ℕ) (s : State) : (takeMessage c s).mem = s.mem := by
  unfold takeMessage; dsimp only; split
  · rfl
  · split
    · rfl
    · split <;> rfl

@[simp] theorem msgSettled_mem (c : ℕ) (k : Fin 8) (s : State) : (msgSettled c k s).mem = s.mem := rfl

@[simp] theorem execHend_canonical (s : State) (wf : s.memOk) : Canonical (execHend s) := by simp [execHend, wf]

@[simp] theorem execSend_canonical (c : BitVec 2) (b a : BitVec 5) (s : State) (wf : s.memOk) : Canonical (execSend c b a s) := by
  refine finish_canonical ?_
  split
  · simp [wf]
  · refine resOk_ite wf (settled_memOk wf fun s wf => resOk_ite (orBlock_memOk wf fun t wf => ?_) (resOk_ite wf ?_))
    all_goals simp [wf]

/-! ## larm (R395) -/

@[simp] theorem execLarm_canonical (b a d : BitVec 5) (s : State) (wf : s.memOk) : Canonical (execLarm b a d s) := by
  refine finish_canonical (settled_memOk wf fun s wf => ?_)
  split
  · simp [wf]
  · refine resOk_ite (by simp [wf]) (resOk_ite (by simp [wf]) (resOk_ite (withRelease_memOk wf fun s wf => ?_) (by simp [wf])))
    extract_lets t
    have prio : t.memOk := memOk_ite wf (setPrio_memOk _ _ _ _ wf)
    split
    · next u armed => simpa using resolveAll_memOk _ (armRecord_memOk _ _ _ prio armed)
    · simpa using prio

/-! ## Placement -/

@[simp] theorem setLaneWord_mem (c l r : ℕ) (x : BitVec 32) (s : State) : (setLaneWord c l r x s).mem = s.mem := rfl

@[simp] theorem markWrite_mem (c r row l : ℕ) (s : State) : (markWrite c r row l s).mem = s.mem := rfl

@[simp] theorem elemPut_mem (c w r e : ℕ) (x : BitVec 64) (s : State) : (elemPut c w r e x s).mem = s.mem := by unfold elemPut; split <;> rfl

end Sys2Proof.Machine
end

section
/-!
PROOFS. Memory kept in canonical form: the vector instructions, the tile and the block port; obligation O23.
-/

namespace Sys2Proof.Machine
set_option Elab.async false

/-! ## Random states (R166) -/

@[simp] theorem vrsPut_mem (c l : ℕ) (x : BitVec 64) (s : State) : (vrsPut c l x s).mem = s.mem := rfl

@[simp] theorem vrsNext_mem (c l : ℕ) (s : State) : (vrsNext c l s).2.mem = s.mem := rfl

/-! ## One element -/

@[simp] theorem raise_mem (f : Flags) (s : State) : (raise f s).mem = s.mem := rfl

/-! ## One element of a vector memory instruction -/

@[simp] theorem vecEntry_mem (own : Bool) (gpa cls : ℕ) (m d : BitVec 512) (va : BitVec 64) (s : State) :
    (vecEntry own gpa cls m d va s).mem = s.mem := by unfold vecEntry; dsimp only; split <;> simp

@[simp] theorem vStore_mem (own : Bool) (g cls o w x : ℕ) (va : BitVec 64) (s : State) : (vStore own g cls o w x va s).mem = s.mem := by
  simp [vStore]

/-! ## Runs of elements -/

@[simp] theorem setVpi_mem (c : VCmd) (p : ℕ) (s : State) : (setVpi c p s).mem = s.mem := by unfold setVpi; split <;> rfl

@[simp] theorem readChunks_mem (reads : BitVec 5 → Bool) (s : State) : (readChunks reads s).mem = s.mem := rfl

@[simp] theorem seeChunks_mem (c : VCmd) (s : State) : (seeChunks c s).mem = s.mem := rfl

/-! ## Sampling (R439, R440) -/

@[simp] theorem sampleIssue_mem (c : VCmd) (s : State) : (sampleIssue c s).mem = s.mem := by unfold sampleIssue; dsimp only; split <;> rfl

@[simp] theorem sampleDone_memOk (c : VCmd) (head : BitVec 48) (count pos : ℕ) (s : State) (wf : s.memOk) :
    (sampleDone c head count pos s).memOk := by
  unfold sampleDone; extract_lets q act
  refine memOk_ite wf ?_
  split
  next avg t taken =>
  have kept : t.memOk := by
    refine memOk_of_snd taken ?_
    split
    · split <;> simp [wf]
    · simp [wf]
  extract_lets
  split
  next b u written =>
  simpa using memOk_of_snd written (ownerWrite_memOk _ _ _ _ _ kept)

/-! ## Reductions -/

@[simp] theorem redScalar_mem (c : VCmd) (s : State) : (redScalar c s).mem = s.mem := by unfold redScalar; split <;> rfl

@[simp] theorem redIndex_mem (c : VCmd) (s : State) : (redIndex c s).mem = s.mem := rfl

@[simp] theorem redSegments_mem (c : VCmd) (s : State) : (redSegments c s).mem = s.mem := by
  unfold redSegments; extract_lets w k ns l put f t
  have put_mem : ∀ j v u, (put j v u).mem = u.mem := fun _ _ _ => elemPut_mem _ _ _ _ _ _
  have written : t.mem = s.mem := by
    unfold t; split <;> exact foldl_mem (fun _ _ => by simp [put_mem]) _ _
  split <;> simp [written]

/-! ## The tree transfer (R311) -/

@[simp] theorem accPut_mem (i j : ℕ) (x : BitVec 32) (s : State) : (accPut i j x s).mem = s.mem := rfl

@[simp] theorem setMsat_mem (b : Bool) (s : State) : (setMsat b s).mem = s.mem := by unfold setMsat; split <;> rfl

@[simp] theorem accAddInt_mem (i j : ℕ) (t : ℤ) (s : State) : (accAddInt i j t s).mem = s.mem := by simp [accAddInt]

@[simp] theorem accAddFp_mem (rm i j : ℕ) (t : ℕ × Flags) (s : State) : (accAddFp rm i j t s).mem = s.mem := rfl

@[simp] theorem treeTransfer_mem (c : VCmd) (s : State) : (treeTransfer c s).mem = s.mem := by
  unfold treeTransfer; extract_lets
  split
  · simp
  · simp
  · exact foldl_mem (fun _ _ => by simp) _ _
  · exact foldl_mem (fun _ _ => by simp) _ _

/-! ## Permutations (R313 to R317) -/

@[simp] theorem permute_mem (c : VCmd) (s : State) : (permute c s).mem = s.mem := by
  unfold permute; extract_lets q w one vals t u
  have put : t.mem = s.mem := foldl_mem (fun _ _ => by simp) _ _
  have noted : u.mem = s.mem := by unfold u; split <;> simp [put]
  split <;> simp [noted]

/-! ## The effect of a member -/

@[simp] theorem crossEffect_mem (c : VCmd) (s : State) : (crossEffect c s).mem = s.mem := by unfold crossEffect; split <;> simp

@[simp] theorem moveOut_mem (c : VCmd) (s : State) : (moveOut c s).mem = s.mem := rfl

/-! ## The blocks of a bank that a command has read or is to write (R329) -/

theorem VCmd.readBlocks_mem (c : VCmd) (p n : ℕ) (s : State) {r : VCmd × State} (eq : c.readBlocks p n s = some r) : r.2.mem = s.mem := by
  unfold VCmd.readBlocks at eq; dsimp only at eq
  split at eq
  · cases eq; rfl
  · split at eq
    · cases eq
    · cases eq; simp

@[simp] theorem VCmd.writeBlocks_memOk (c : VCmd) (s : State) (wf : s.memOk) : (c.writeBlocks s).memOk :=
  foldl_memOk (fun t _ wf => setHomeLine_memOk t _ _ wf) _ (by simpa using wf)

@[simp] theorem stspOut_mem (c : VCmd) (k e : ℕ) (x : BitVec 64) (s : State) : (stspOut c k e x s).2.2.mem = s.mem := by
  unfold stspOut; split
  · rfl
  · split
    · rfl
    · dsimp only; split <;> simp

@[simp] theorem stspFlush_memOk (c : VCmd) (e : ℕ) (s : State) (wf : s.memOk) : (stspFlush c e s).memOk := by
  unfold stspFlush
  refine memOk_ite wf (memOk_ite (VCmd.writeBlocks_memOk _ _ wf) ?_)
  dsimp only
  simpa using VCmd.writeBlocks_memOk _ _ wf

/-! ## A part of a command -/

@[simp] theorem noteConvoy_mem (head : BitVec 48) (n : ℕ) (s : State) : (noteConvoy head n s).mem = s.mem := rfl

/-! ## Stops -/

@[simp] theorem dropTile_mem (c : ℕ) (p : DtuOp → Bool) (s : State) : (dropTile c p s).mem = s.mem := by unfold dropTile; split <;> rfl

@[simp] theorem vecStop_mem (c : VCmd) (e : ℕ) (z : VEnd) (xc : BitVec 64) (members : List (BitVec 48)) (n : ℕ) (s : State) :
    (vecStop c e z xc members n s).mem = s.mem := by unfold vecStop; split <;> simp

@[simp] theorem soloStop_mem (c : VCmd) (e : ℕ) (z : VEnd) (s : State) : (soloStop c e z s).mem = s.mem := by simp [soloStop]

/-! ## The convoy -/

/-- The memory of what a run of elements comes to. -/
def VRes.mem : VRes → List Host.Cell
  | .done _ s => s.mem
  | .stop _ _ _ s => s.mem
  | .stall _ _ _ s => s.mem

/-- What a run of elements comes to has its memory in canonical form. -/
abbrev VRes.memOk (r : VRes) : Prop := Memory.wf r.mem = true

section
variable {c : VCmd} {s : State} {e : ℕ}

theorem VRes.memOk_ite {p : Prop} [Decidable p] {r q : VRes} (hr : r.memOk) (hq : q.memOk) : (if p then r else q).memOk := by
  split <;> assumption
theorem VRes.memOk_of_done {r : VRes} (h : r = .done c s) (wf : r.memOk) : s.memOk := by rwa [h] at wf
theorem VRes.memOk_of_stop {r : VRes} {z : VEnd} (h : r = .stop e z c s) (wf : r.memOk) : s.memOk := by rwa [h] at wf
theorem VRes.memOk_of_stall {r : VRes} {l : Bool} (h : r = .stall e l c s) (wf : r.memOk) : s.memOk := by rwa [h] at wf
end

theorem elemStep_memOk (c : VCmd) (e : ℕ) (s : State) (wf : s.memOk) : (elemStep c e s).memOk := by
  unfold elemStep; extract_lets q l
  refine VRes.memOk_ite wf (VRes.memOk_ite ?_ (VRes.memOk_ite ?_ ?_))
  · show (if e < (myCore s).glanes then vrsPut q e (c.x ^^^ (BitVec.ofNat 64 e * vrsSeed)) s else s).memOk
    exact Machine.memOk_ite (by simpa using wf) wf
  · show (elemPut _ _ _ _ _ _).memOk
    simpa using wf
  · extract_lets
    split
    next r t drawn =>
    have kept : t.memOk := memOk_of_snd drawn (by split <;> simp [wf])
    split
    next v fl _ =>
    split
    · show (raise fl t).memOk
      simpa using kept
    · show (elemPut _ _ _ _ _ _).memOk
      simpa using kept

theorem gatherElem_memOk (c : VCmd) (e g cls n : ℕ) (va : BitVec 64) (s : State) (wf : s.memOk) : (gatherElem c e g cls n va s).memOk := by
  unfold gatherElem; split
  · show (elemPut _ _ _ _ _ _).memOk
    simpa using wf
  · exact wf
  · refine VRes.memOk_ite wf ?_
    show (sendPkt _ _).memOk
    simpa using wf

theorem memElem_memOk (c : VCmd) (e : ℕ) (s : State) (wf : s.memOk) : (memElem c e s).memOk := by
  unfold memElem; extract_lets q w n va store
  refine VRes.memOk_ite wf (VRes.memOk_ite wf ?_)
  extract_lets
  have walked := translate_memOk s q (isSys s) (if store then needWr else needRd) va wf
  split
  · next eq => exact memOk_of_snd eq walked
  · next eq => exact memOk_of_snd eq walked
  · next eq => exact memOk_of_snd eq walked
  · next g cls d t eq =>
    have wf := memOk_of_snd eq walked
    extract_lets c' bad
    refine VRes.memOk_ite wf (VRes.memOk_ite wf ?_)
    split
    · exact wf
    · refine VRes.memOk_ite ?_ (VRes.memOk_ite (gatherElem_memOk _ _ _ _ _ _ _ wf) ?_)
      · have stored : (vStore c'.op.indexed g cls (if w < 8 then e * w % 8 else 0) w (elemGet t q w c'.vd.toNat e).toNat va t).memOk := by
          simpa using wf
        split
        · next eq => exact Res.memOk_of_ok eq stored
        · next eq => exact Res.memOk_of_trap eq stored
        · next eq => exact Res.memOk_of_hold eq stored
      · have loaded := loadAt_memOk .c g cls n va t wf
        split
        · next eq => exact Res.memOk_of_trap eq loaded
        · next eq => exact Res.memOk_of_hold eq loaded
        · next eq =>
          show (elemPut _ _ _ _ _ _).memOk
          simpa using Res.memOk_of_ok eq loaded

theorem ldspElem_memOk (c : VCmd) (e : ℕ) (s : State) (wf : s.memOk) : (ldspElem c e s).memOk := by
  unfold ldspElem; extract_lets q k
  refine VRes.memOk_ite wf (VRes.memOk_ite wf ?_)
  split
  split
  · exact wf
  · next c' t read =>
    have kept : t.mem = s.mem := VCmd.readBlocks_mem _ _ _ _ read
    extract_lets x
    split
    show (raise _ (elemPut _ _ _ _ _ _)).memOk
    simpa [kept] using wf

theorem stspElem_memOk (c : VCmd) (e : ℕ) (s : State) (wf : s.memOk) : (stspElem c e s).memOk := by
  unfold stspElem; extract_lets q l k x
  refine VRes.memOk_ite wf (VRes.memOk_ite wf (VRes.memOk_ite ?_ ?_))
  · split
    next d t drawn =>
    have kept : t.memOk := memOk_of_snd drawn (by split <;> simp [wf])
    extract_lets c' es
    refine VRes.memOk_ite ?_ kept
    split
    next fl _ =>
    show (raise fl t).memOk
    simpa using kept
  · split
    next v fl t out =>
    have kept : t.mem = s.mem := by simpa [out] using stspOut_mem c k e x s
    split
    show (raise fl t).memOk
    simpa [kept] using wf

theorem elemFn_memOk (o : VOp) (c : VCmd) (e : ℕ) (s : State) (wf : s.memOk) : (elemFn o c e s).memOk := by
  unfold elemFn; split
  · exact memElem_memOk _ _ _ wf
  · split
    · exact ldspElem_memOk _ _ _ wf
    · exact stspElem_memOk _ _ _ wf
    · exact elemStep_memOk _ _ _ wf

theorem runElems_memOk {f : VCmd → ℕ → State → VRes} (hf : ∀ c e s, s.memOk → (f c e s).memOk) (l : List ℕ) (c : VCmd) {s : State}
    (wf : s.memOk) : (runElems f l c s).memOk := by
  induction l generalizing c s with
  | nil => exact wf
  | cons e l ih =>
    unfold runElems
    have one := hf c e s wf
    split
    · next eq => exact ih _ (VRes.memOk_of_done eq one)
    · exact one

theorem runSpan_memOk (c : VCmd) (lo hi : ℕ) (s : State) (wf : s.memOk) : (runSpan c lo hi s).memOk := by
  unfold runSpan
  have run := runElems_memOk (elemFn_memOk c.op) (c.actives s s.curCore lo hi) c wf
  split
  · next eq =>
    show (setVpi _ _ _).memOk
    simpa using VRes.memOk_of_done eq run
  · next eq =>
    show (setVpi _ _ _).memOk
    simpa using stspFlush_memOk _ _ _ (VRes.memOk_of_stop eq run)
  · next eq =>
    show (setVpi _ _ _).memOk
    simpa using VRes.memOk_of_stall eq run

theorem endElems_memOk (c : VCmd) (s : State) (wf : s.memOk) : (endElems c s).memOk :=
  VRes.memOk_ite wf (VRes.memOk_ite wf (VRes.memOk_ite wf (VCmd.writeBlocks_memOk _ _ wf)))

theorem runTurn_memOk (c : VCmd) (s : State) (wf : s.memOk) : (runTurn c s).memOk := by
  unfold runTurn; extract_lets gl c' t
  have seen : t.memOk := by simpa [t] using wf
  refine VRes.memOk_ite ?_ (VRes.memOk_ite ?_ ?_)
  · split
    · exact seen
    · show (crossEffect _ _).memOk
      simpa using seen
  · show (moveOut _ _).memOk
    simpa using seen
  · have run := runSpan_memOk c' c'.next (min c'.vl ((c'.next / gl + 1) * gl)) t seen
    split
    · next eq => exact endElems_memOk _ _ (VRes.memOk_of_done eq run)
    · exact run

@[simp] theorem endTurn_memOk (i : ℕ) (c : VCmd) (s : State) (wf : s.memOk) : (endTurn i c s).memOk := by
  unfold endTurn; extract_lets l head put h keep t
  have put_mem : ∀ t f, (put t f).mem = t.mem := fun t f => updMyCore_mem _ _
  refine memOk_ite (by simpa [put_mem] using wf) ?_
  have sampled : t.memOk := sampleDone_memOk _ _ _ _ _ (by simpa [put_mem] using wf)
  simpa using sampled

@[simp] theorem recordStop_mem (i j e g fst : ℕ) (z : VEnd) (s : State) : (recordStop i j e g fst z s).mem = s.mem := by
  unfold recordStop; dsimp only; split <;> simp

@[simp] theorem convoyStop_mem (i e : ℕ) (z : VEnd) (s : State) : (convoyStop i e z s).mem = s.mem := by simp [convoyStop]

@[simp] theorem endConvoy_mem (s : State) : (endConvoy s).mem = s.mem := by unfold endConvoy; split <;> rfl

@[simp] theorem runOn_memOk (i e : ℕ) (z : VEnd) (s : State) (wf : s.memOk) : (runOn i e z s).memOk := by
  unfold runOn; extract_lets gl l; split
  · simpa using wf
  · split
    · exact wf
    · next c _ =>
      have turn := runTurn_memOk c s wf
      split
      · next eq => simpa using endTurn_memOk _ _ _ (VRes.memOk_of_done eq turn)
      · next eq => simpa using endTurn_memOk _ _ _ (VRes.memOk_of_stop eq turn)
      · next eq =>
        have kept := VRes.memOk_of_stall eq turn
        exact memOk_ite (by simpa using endTurn_memOk _ _ _ kept) (endTurn_memOk _ _ _ kept)

@[simp] theorem convoyPass_memOk (s : State) (wf : s.memOk) : (convoyPass s).memOk := by
  unfold convoyPass; extract_lets gl l head; split
  · simp [wf]
  · simpa using wf
  · split
    · exact wf
    · next c _ =>
      extract_lets t
      have noted : t.memOk := memOk_ite wf (by simpa using wf)
      have turn := runTurn_memOk c t noted
      split
      · next eq => simpa using endTurn_memOk _ _ _ (VRes.memOk_of_done eq turn)
      · next eq => simpa using endTurn_memOk _ _ _ (VRes.memOk_of_stop eq turn)
      · next eq =>
        have kept := VRes.memOk_of_stall eq turn
        exact memOk_ite (by simpa using endTurn_memOk _ _ _ kept) (endTurn_memOk _ _ _ kept)

@[simp] theorem convoyRun_memOk (n : ℕ) (s : State) (wf : s.memOk) : (convoyRun n s).memOk := by
  induction n generalizing s with
  | zero => exact wf
  | succ n ih =>
    unfold convoyRun
    have passed := convoyPass_memOk s wf
    exact memOk_ite wf (memOk_ite passed (ih _ passed))

/-! ## Capture and replay -/

@[simp] theorem endReplay_mem (s : State) : (endReplay s).mem = s.mem := rfl

@[simp] theorem takeReplay_mem (s : State) : (takeReplay s).mem = s.mem := rfl

/-! ## Joining -/

@[simp] theorem enterConvoy_memOk (c : VCmd) (s : State) (wf : s.memOk) : (enterConvoy c s).memOk := by simp [enterConvoy, wf]

@[simp] theorem issueTrap_mem (z : Cause) (x : BitVec 64) (c : VCmd) (s : State) : (issueTrap z x c s).mem = s.mem := by simp [issueTrap]

@[simp] theorem vecDone_mem (s : State) : (vecDone s).mem = s.mem := rfl

/-! ## Issue -/

@[simp] theorem issueVec_canonical {c0 : VCmd} {s : State} {k : VCmd → State → State} (wf : s.memOk)
    (hk : ∀ c t, t.memOk → (k c t).memOk) : Canonical (issueVec c0 s k) := by
  unfold issueVec
  refine canonical_ite (finish_canonical wf) (canonical_ite (by simpa using wf) ?_)
  exact canonical_ite (by simpa using wf) (canonical_ite (by simpa using wf) (by simpa using hk _ _ wf))

@[simp] theorem joinConvoy_memOk (c : VCmd) (s : State) (wf : s.memOk) : (joinConvoy c s).memOk := by simp [joinConvoy, wf]

@[simp] theorem vecInstr_canonical (c0 : VCmd) (s : State) (wf : s.memOk) : Canonical (vecInstr c0 s) :=
  issueVec_canonical wf fun c t wf => joinConvoy_memOk c t wf

@[simp] theorem spInstr_canonical (c0 : VCmd) (s : State) (wf : s.memOk) : Canonical (spInstr c0 s) := by
  refine issueVec_canonical wf fun c t wf => memOk_ite (by simpa using wf) ?_
  split
  · exact joinConvoy_memOk _ _ wf
  · refine memOk_ite wf (memOk_ite (joinConvoy_memOk _ _ wf) ?_)
    split <;> simpa using wf

@[simp] theorem execVaddVv_canonical (r : BitVec 2) (p a m : BitVec 1) (t u d : BitVec 5) (s : State) (wf : s.memOk) :
    Canonical (execVaddVv r p a m t u d s) := by simp [execVaddVv, wf]

@[simp] theorem execVaddVx_canonical (r : BitVec 2) (p a m : BitVec 1) (t u d : BitVec 5) (s : State) (wf : s.memOk) :
    Canonical (execVaddVx r p a m t u d s) := by simp [execVaddVx, wf]

@[simp] theorem execVsubVv_canonical (r : BitVec 2) (p a m : BitVec 1) (t u d : BitVec 5) (s : State) (wf : s.memOk) :
    Canonical (execVsubVv r p a m t u d s) := by simp [execVsubVv, wf]

@[simp] theorem execVsubVx_canonical (r : BitVec 2) (p a m : BitVec 1) (t u d : BitVec 5) (s : State) (wf : s.memOk) :
    Canonical (execVsubVx r p a m t u d s) := by simp [execVsubVx, wf]

@[simp] theorem execVrsubVx_canonical (r : BitVec 2) (p a m : BitVec 1) (t u d : BitVec 5) (s : State) (wf : s.memOk) :
    Canonical (execVrsubVx r p a m t u d s) := by simp [execVrsubVx, wf]

@[simp] theorem execVmulVv_canonical (r : BitVec 2) (p a m : BitVec 1) (t u d : BitVec 5) (s : State) (wf : s.memOk) :
    Canonical (execVmulVv r p a m t u d s) := by simp [execVmulVv, wf]

@[simp] theorem execVmulVx_canonical (r : BitVec 2) (p a m : BitVec 1) (t u d : BitVec 5) (s : State) (wf : s.memOk) :
    Canonical (execVmulVx r p a m t u d s) := by simp [execVmulVx, wf]

@[simp] theorem execVmulhVv_canonical (r : BitVec 2) (p a m : BitVec 1) (t u d : BitVec 5) (s : State) (wf : s.memOk) :
    Canonical (execVmulhVv r p a m t u d s) := by simp [execVmulhVv, wf]

@[simp] theorem execVmulhVx_canonical (r : BitVec 2) (p a m : BitVec 1) (t u d : BitVec 5) (s : State) (wf : s.memOk) :
    Canonical (execVmulhVx r p a m t u d s) := by simp [execVmulhVx, wf]

@[simp] theorem execVdivVv_canonical (r : BitVec 2) (p a m : BitVec 1) (t u d : BitVec 5) (s : State) (wf : s.memOk) :
    Canonical (execVdivVv r p a m t u d s) := by simp [execVdivVv, wf]

@[simp] theorem execVdivVx_canonical (r : BitVec 2) (p a m : BitVec 1) (t u d : BitVec 5) (s : State) (wf : s.memOk) :
    Canonical (execVdivVx r p a m t u d s) := by simp [execVdivVx, wf]

@[simp] theorem execVremVv_canonical (r : BitVec 2) (p a m : BitVec 1) (t u d : BitVec 5) (s : State) (wf : s.memOk) :
    Canonical (execVremVv r p a m t u d s) := by simp [execVremVv, wf]

@[simp] theorem execVremVx_canonical (r : BitVec 2) (p a m : BitVec 1) (t u d : BitVec 5) (s : State) (wf : s.memOk) :
    Canonical (execVremVx r p a m t u d s) := by simp [execVremVx, wf]

@[simp] theorem execVminVv_canonical (r : BitVec 2) (p a m : BitVec 1) (t u d : BitVec 5) (s : State) (wf : s.memOk) :
    Canonical (execVminVv r p a m t u d s) := by simp [execVminVv, wf]

@[simp] theorem execVminVx_canonical (r : BitVec 2) (p a m : BitVec 1) (t u d : BitVec 5) (s : State) (wf : s.memOk) :
    Canonical (execVminVx r p a m t u d s) := by simp [execVminVx, wf]

@[simp] theorem execVmaxVv_canonical (r : BitVec 2) (p a m : BitVec 1) (t u d : BitVec 5) (s : State) (wf : s.memOk) :
    Canonical (execVmaxVv r p a m t u d s) := by simp [execVmaxVv, wf]

@[simp] theorem execVmaxVx_canonical (r : BitVec 2) (p a m : BitVec 1) (t u d : BitVec 5) (s : State) (wf : s.memOk) :
    Canonical (execVmaxVx r p a m t u d s) := by simp [execVmaxVx, wf]

@[simp] theorem execVsaddVv_canonical (r : BitVec 2) (p a m : BitVec 1) (t u d : BitVec 5) (s : State) (wf : s.memOk) :
    Canonical (execVsaddVv r p a m t u d s) := by simp [execVsaddVv, wf]

@[simp] theorem execVsaddVx_canonical (r : BitVec 2) (p a m : BitVec 1) (t u d : BitVec 5) (s : State) (wf : s.memOk) :
    Canonical (execVsaddVx r p a m t u d s) := by simp [execVsaddVx, wf]

@[simp] theorem execVssubVv_canonical (r : BitVec 2) (p a m : BitVec 1) (t u d : BitVec 5) (s : State) (wf : s.memOk) :
    Canonical (execVssubVv r p a m t u d s) := by simp [execVssubVv, wf]

@[simp] theorem execVssubVx_canonical (r : BitVec 2) (p a m : BitVec 1) (t u d : BitVec 5) (s : State) (wf : s.memOk) :
    Canonical (execVssubVx r p a m t u d s) := by simp [execVssubVx, wf]

@[simp] theorem execVidV_canonical (a m : BitVec 1) (d : BitVec 5) (s : State) (wf : s.memOk) : Canonical (execVidV a m d s) := by
  simp [execVidV, wf]

@[simp] theorem execVpopcV_canonical (r : BitVec 2) (p a m : BitVec 1) (t d : BitVec 5) (s : State) (wf : s.memOk) :
    Canonical (execVpopcV r p a m t d s) := by simp [execVpopcV, wf]

@[simp] theorem execVviewV_canonical (r : BitVec 2) (p a m : BitVec 1) (t d : BitVec 5) (s : State) (wf : s.memOk) :
    Canonical (execVviewV r p a m t d s) := by simp [execVviewV, wf]

@[simp] theorem execVandVv_canonical (r : BitVec 2) (p a m : BitVec 1) (t u d : BitVec 5) (s : State) (wf : s.memOk) :
    Canonical (execVandVv r p a m t u d s) := by simp [execVandVv, wf]

@[simp] theorem execVandVx_canonical (r : BitVec 2) (p a m : BitVec 1) (t u d : BitVec 5) (s : State) (wf : s.memOk) :
    Canonical (execVandVx r p a m t u d s) := by simp [execVandVx, wf]

@[simp] theorem execVorVv_canonical (r : BitVec 2) (p a m : BitVec 1) (t u d : BitVec 5) (s : State) (wf : s.memOk) :
    Canonical (execVorVv r p a m t u d s) := by simp [execVorVv, wf]

@[simp] theorem execVorVx_canonical (r : BitVec 2) (p a m : BitVec 1) (t u d : BitVec 5) (s : State) (wf : s.memOk) :
    Canonical (execVorVx r p a m t u d s) := by simp [execVorVx, wf]

@[simp] theorem execVxorVv_canonical (r : BitVec 2) (p a m : BitVec 1) (t u d : BitVec 5) (s : State) (wf : s.memOk) :
    Canonical (execVxorVv r p a m t u d s) := by simp [execVxorVv, wf]

@[simp] theorem execVxorVx_canonical (r : BitVec 2) (p a m : BitVec 1) (t u d : BitVec 5) (s : State) (wf : s.memOk) :
    Canonical (execVxorVx r p a m t u d s) := by simp [execVxorVx, wf]

@[simp] theorem execVandnVv_canonical (r : BitVec 2) (p a m : BitVec 1) (t u d : BitVec 5) (s : State) (wf : s.memOk) :
    Canonical (execVandnVv r p a m t u d s) := by simp [execVandnVv, wf]

@[simp] theorem execVnotV_canonical (r : BitVec 2) (p a m : BitVec 1) (t d : BitVec 5) (s : State) (wf : s.memOk) :
    Canonical (execVnotV r p a m t d s) := by simp [execVnotV, wf]

@[simp] theorem execVshlVv_canonical (r : BitVec 2) (p a m : BitVec 1) (t u d : BitVec 5) (s : State) (wf : s.memOk) :
    Canonical (execVshlVv r p a m t u d s) := by simp [execVshlVv, wf]

@[simp] theorem execVshlVx_canonical (r : BitVec 2) (p a m : BitVec 1) (t u d : BitVec 5) (s : State) (wf : s.memOk) :
    Canonical (execVshlVx r p a m t u d s) := by simp [execVshlVx, wf]

@[simp] theorem execVshrVv_canonical (r : BitVec 2) (p a m : BitVec 1) (t u d : BitVec 5) (s : State) (wf : s.memOk) :
    Canonical (execVshrVv r p a m t u d s) := by simp [execVshrVv, wf]

@[simp] theorem execVshrVx_canonical (r : BitVec 2) (p a m : BitVec 1) (t u d : BitVec 5) (s : State) (wf : s.memOk) :
    Canonical (execVshrVx r p a m t u d s) := by simp [execVshrVx, wf]

@[simp] theorem execVsraVv_canonical (r : BitVec 2) (p a m : BitVec 1) (t u d : BitVec 5) (s : State) (wf : s.memOk) :
    Canonical (execVsraVv r p a m t u d s) := by simp [execVsraVv, wf]

@[simp] theorem execVsraVx_canonical (r : BitVec 2) (p a m : BitVec 1) (t u d : BitVec 5) (s : State) (wf : s.memOk) :
    Canonical (execVsraVx r p a m t u d s) := by simp [execVsraVx, wf]

@[simp] theorem execVmseqVv_canonical (r : BitVec 2) (p a m : BitVec 1) (t u d : BitVec 5) (s : State) (wf : s.memOk) :
    Canonical (execVmseqVv r p a m t u d s) := by simp [execVmseqVv, wf]

@[simp] theorem execVmseqVx_canonical (r : BitVec 2) (p a m : BitVec 1) (t u d : BitVec 5) (s : State) (wf : s.memOk) :
    Canonical (execVmseqVx r p a m t u d s) := by simp [execVmseqVx, wf]

@[simp] theorem execVmsneVv_canonical (r : BitVec 2) (p a m : BitVec 1) (t u d : BitVec 5) (s : State) (wf : s.memOk) :
    Canonical (execVmsneVv r p a m t u d s) := by simp [execVmsneVv, wf]

@[simp] theorem execVmsneVx_canonical (r : BitVec 2) (p a m : BitVec 1) (t u d : BitVec 5) (s : State) (wf : s.memOk) :
    Canonical (execVmsneVx r p a m t u d s) := by simp [execVmsneVx, wf]

@[simp] theorem execVmsltVv_canonical (r : BitVec 2) (p a m : BitVec 1) (t u d : BitVec 5) (s : State) (wf : s.memOk) :
    Canonical (execVmsltVv r p a m t u d s) := by simp [execVmsltVv, wf]

@[simp] theorem execVmsltVx_canonical (r : BitVec 2) (p a m : BitVec 1) (t u d : BitVec 5) (s : State) (wf : s.memOk) :
    Canonical (execVmsltVx r p a m t u d s) := by simp [execVmsltVx, wf]

@[simp] theorem execVmsleVv_canonical (r : BitVec 2) (p a m : BitVec 1) (t u d : BitVec 5) (s : State) (wf : s.memOk) :
    Canonical (execVmsleVv r p a m t u d s) := by simp [execVmsleVv, wf]

@[simp] theorem execVmsleVx_canonical (r : BitVec 2) (p a m : BitVec 1) (t u d : BitVec 5) (s : State) (wf : s.memOk) :
    Canonical (execVmsleVx r p a m t u d s) := by simp [execVmsleVx, wf]

@[simp] theorem execVmsgtVx_canonical (r : BitVec 2) (p a m : BitVec 1) (t u d : BitVec 5) (s : State) (wf : s.memOk) :
    Canonical (execVmsgtVx r p a m t u d s) := by simp [execVmsgtVx, wf]

@[simp] theorem execVmsgeVx_canonical (r : BitVec 2) (p a m : BitVec 1) (t u d : BitVec 5) (s : State) (wf : s.memOk) :
    Canonical (execVmsgeVx r p a m t u d s) := by simp [execVmsgeVx, wf]

@[simp] theorem execVmandMm_canonical (a m : BitVec 1) (t u d : BitVec 5) (s : State) (wf : s.memOk) :
    Canonical (execVmandMm a m t u d s) := by simp [execVmandMm, wf]

@[simp] theorem execVmorMm_canonical (a m : BitVec 1) (t u d : BitVec 5) (s : State) (wf : s.memOk) : Canonical (execVmorMm a m t u d s) := by
  simp [execVmorMm, wf]

@[simp] theorem execVmxorMm_canonical (a m : BitVec 1) (t u d : BitVec 5) (s : State) (wf : s.memOk) :
    Canonical (execVmxorMm a m t u d s) := by simp [execVmxorMm, wf]

@[simp] theorem execVmandnMm_canonical (a m : BitVec 1) (t u d : BitVec 5) (s : State) (wf : s.memOk) :
    Canonical (execVmandnMm a m t u d s) := by simp [execVmandnMm, wf]

@[simp] theorem execVmergeVv_canonical (a : BitVec 1) (t u d : BitVec 5) (s : State) (wf : s.memOk) : Canonical (execVmergeVv a t u d s) := by
  simp [execVmergeVv, wf]

@[simp] theorem execVmergeVx_canonical (a : BitVec 1) (t u d : BitVec 5) (s : State) (wf : s.memOk) : Canonical (execVmergeVx a t u d s) := by
  simp [execVmergeVx, wf]

@[simp] theorem execVmvVv_canonical (r : BitVec 2) (p a m : BitVec 1) (t d : BitVec 5) (s : State) (wf : s.memOk) :
    Canonical (execVmvVv r p a m t d s) := by simp [execVmvVv, wf]

@[simp] theorem execVmvVx_canonical (a m : BitVec 1) (u d : BitVec 5) (s : State) (wf : s.memOk) : Canonical (execVmvVx a m u d s) := by
  simp [execVmvVx, wf]

@[simp] theorem execVmvXs_canonical (t d : BitVec 5) (s : State) (wf : s.memOk) : Canonical (execVmvXs t d s) := by simp [execVmvXs, wf]

@[simp] theorem execVrngV_canonical (a m : BitVec 1) (d : BitVec 5) (s : State) (wf : s.memOk) : Canonical (execVrngV a m d s) := by
  simp [execVrngV, wf]

@[simp] theorem execVseedVx_canonical (a m : BitVec 1) (u : BitVec 5) (s : State) (wf : s.memOk) : Canonical (execVseedVx a m u s) := by
  simp [execVseedVx, wf]

@[simp] theorem execVfaddVv_canonical (r : BitVec 2) (p a m : BitVec 1) (t u d : BitVec 5) (s : State) (wf : s.memOk) :
    Canonical (execVfaddVv r p a m t u d s) := by simp [execVfaddVv, wf]

@[simp] theorem execVfaddVx_canonical (r : BitVec 2) (p a m : BitVec 1) (t u d : BitVec 5) (s : State) (wf : s.memOk) :
    Canonical (execVfaddVx r p a m t u d s) := by simp [execVfaddVx, wf]

@[simp] theorem execVfsubVv_canonical (r : BitVec 2) (p a m : BitVec 1) (t u d : BitVec 5) (s : State) (wf : s.memOk) :
    Canonical (execVfsubVv r p a m t u d s) := by simp [execVfsubVv, wf]

@[simp] theorem execVfsubVx_canonical (r : BitVec 2) (p a m : BitVec 1) (t u d : BitVec 5) (s : State) (wf : s.memOk) :
    Canonical (execVfsubVx r p a m t u d s) := by simp [execVfsubVx, wf]

@[simp] theorem execVfrsubVx_canonical (r : BitVec 2) (p a m : BitVec 1) (t u d : BitVec 5) (s : State) (wf : s.memOk) :
    Canonical (execVfrsubVx r p a m t u d s) := by simp [execVfrsubVx, wf]

@[simp] theorem execVfmulVv_canonical (r : BitVec 2) (p a m : BitVec 1) (t u d : BitVec 5) (s : State) (wf : s.memOk) :
    Canonical (execVfmulVv r p a m t u d s) := by simp [execVfmulVv, wf]

@[simp] theorem execVfmulVx_canonical (r : BitVec 2) (p a m : BitVec 1) (t u d : BitVec 5) (s : State) (wf : s.memOk) :
    Canonical (execVfmulVx r p a m t u d s) := by simp [execVfmulVx, wf]

@[simp] theorem execVfdivVv_canonical (r : BitVec 2) (p a m : BitVec 1) (t u d : BitVec 5) (s : State) (wf : s.memOk) :
    Canonical (execVfdivVv r p a m t u d s) := by simp [execVfdivVv, wf]

@[simp] theorem execVfdivVx_canonical (r : BitVec 2) (p a m : BitVec 1) (t u d : BitVec 5) (s : State) (wf : s.memOk) :
    Canonical (execVfdivVx r p a m t u d s) := by simp [execVfdivVx, wf]

@[simp] theorem execVfrdivVx_canonical (r : BitVec 2) (p a m : BitVec 1) (t u d : BitVec 5) (s : State) (wf : s.memOk) :
    Canonical (execVfrdivVx r p a m t u d s) := by simp [execVfrdivVx, wf]

@[simp] theorem execVfsqrtV_canonical (r : BitVec 2) (p a m : BitVec 1) (t d : BitVec 5) (s : State) (wf : s.memOk) :
    Canonical (execVfsqrtV r p a m t d s) := by simp [execVfsqrtV, wf]

@[simp] theorem execVfminVv_canonical (r : BitVec 2) (p a m : BitVec 1) (t u d : BitVec 5) (s : State) (wf : s.memOk) :
    Canonical (execVfminVv r p a m t u d s) := by simp [execVfminVv, wf]

@[simp] theorem execVfminVx_canonical (r : BitVec 2) (p a m : BitVec 1) (t u d : BitVec 5) (s : State) (wf : s.memOk) :
    Canonical (execVfminVx r p a m t u d s) := by simp [execVfminVx, wf]

@[simp] theorem execVfmaxVv_canonical (r : BitVec 2) (p a m : BitVec 1) (t u d : BitVec 5) (s : State) (wf : s.memOk) :
    Canonical (execVfmaxVv r p a m t u d s) := by simp [execVfmaxVv, wf]

@[simp] theorem execVfmaxVx_canonical (r : BitVec 2) (p a m : BitVec 1) (t u d : BitVec 5) (s : State) (wf : s.memOk) :
    Canonical (execVfmaxVx r p a m t u d s) := by simp [execVfmaxVx, wf]

@[simp] theorem execVfsgnVv_canonical (r : BitVec 2) (p a m : BitVec 1) (t u d : BitVec 5) (s : State) (wf : s.memOk) :
    Canonical (execVfsgnVv r p a m t u d s) := by simp [execVfsgnVv, wf]

@[simp] theorem execVfsgnnVv_canonical (r : BitVec 2) (p a m : BitVec 1) (t u d : BitVec 5) (s : State) (wf : s.memOk) :
    Canonical (execVfsgnnVv r p a m t u d s) := by simp [execVfsgnnVv, wf]

@[simp] theorem execVfsgnxVv_canonical (r : BitVec 2) (p a m : BitVec 1) (t u d : BitVec 5) (s : State) (wf : s.memOk) :
    Canonical (execVfsgnxVv r p a m t u d s) := by simp [execVfsgnxVv, wf]

@[simp] theorem execVfclassV_canonical (r : BitVec 2) (p a m : BitVec 1) (t d : BitVec 5) (s : State) (wf : s.memOk) :
    Canonical (execVfclassV r p a m t d s) := by simp [execVfclassV, wf]

@[simp] theorem execVmfeqVv_canonical (r : BitVec 2) (p a m : BitVec 1) (t u d : BitVec 5) (s : State) (wf : s.memOk) :
    Canonical (execVmfeqVv r p a m t u d s) := by simp [execVmfeqVv, wf]

@[simp] theorem execVmfeqVx_canonical (r : BitVec 2) (p a m : BitVec 1) (t u d : BitVec 5) (s : State) (wf : s.memOk) :
    Canonical (execVmfeqVx r p a m t u d s) := by simp [execVmfeqVx, wf]

@[simp] theorem execVmfneVv_canonical (r : BitVec 2) (p a m : BitVec 1) (t u d : BitVec 5) (s : State) (wf : s.memOk) :
    Canonical (execVmfneVv r p a m t u d s) := by simp [execVmfneVv, wf]

@[simp] theorem execVmfneVx_canonical (r : BitVec 2) (p a m : BitVec 1) (t u d : BitVec 5) (s : State) (wf : s.memOk) :
    Canonical (execVmfneVx r p a m t u d s) := by simp [execVmfneVx, wf]

@[simp] theorem execVmfltVv_canonical (r : BitVec 2) (p a m : BitVec 1) (t u d : BitVec 5) (s : State) (wf : s.memOk) :
    Canonical (execVmfltVv r p a m t u d s) := by simp [execVmfltVv, wf]

@[simp] theorem execVmfltVx_canonical (r : BitVec 2) (p a m : BitVec 1) (t u d : BitVec 5) (s : State) (wf : s.memOk) :
    Canonical (execVmfltVx r p a m t u d s) := by simp [execVmfltVx, wf]

@[simp] theorem execVmfleVv_canonical (r : BitVec 2) (p a m : BitVec 1) (t u d : BitVec 5) (s : State) (wf : s.memOk) :
    Canonical (execVmfleVv r p a m t u d s) := by simp [execVmfleVv, wf]

@[simp] theorem execVmfleVx_canonical (r : BitVec 2) (p a m : BitVec 1) (t u d : BitVec 5) (s : State) (wf : s.memOk) :
    Canonical (execVmfleVx r p a m t u d s) := by simp [execVmfleVx, wf]

@[simp] theorem execVmfgtVx_canonical (r : BitVec 2) (p a m : BitVec 1) (t u d : BitVec 5) (s : State) (wf : s.memOk) :
    Canonical (execVmfgtVx r p a m t u d s) := by simp [execVmfgtVx, wf]

@[simp] theorem execVmfgeVx_canonical (r : BitVec 2) (p a m : BitVec 1) (t u d : BitVec 5) (s : State) (wf : s.memOk) :
    Canonical (execVmfgeVx r p a m t u d s) := by simp [execVmfgeVx, wf]

@[simp] theorem execVwcvtV_canonical (r : BitVec 2) (p a m : BitVec 1) (t d : BitVec 5) (s : State) (wf : s.memOk) :
    Canonical (execVwcvtV r p a m t d s) := by simp [execVwcvtV, wf]

@[simp] theorem execVncvtV_canonical (r : BitVec 2) (p a m : BitVec 1) (t d : BitVec 5) (s : State) (wf : s.memOk) :
    Canonical (execVncvtV r p a m t d s) := by simp [execVncvtV, wf]

@[simp] theorem execVnclipV_canonical (r : BitVec 2) (p a m : BitVec 1) (t d : BitVec 5) (s : State) (wf : s.memOk) :
    Canonical (execVnclipV r p a m t d s) := by simp [execVnclipV, wf]

@[simp] theorem execVfwcvtV_canonical (r : BitVec 2) (p a m : BitVec 1) (t d : BitVec 5) (s : State) (wf : s.memOk) :
    Canonical (execVfwcvtV r p a m t d s) := by simp [execVfwcvtV, wf]

@[simp] theorem execVfncvtV_canonical (r : BitVec 2) (p a m : BitVec 1) (t d : BitVec 5) (s : State) (wf : s.memOk) :
    Canonical (execVfncvtV r p a m t d s) := by simp [execVfncvtV, wf]

@[simp] theorem execVftoiV_canonical (r : BitVec 2) (p a m : BitVec 1) (t d : BitVec 5) (s : State) (wf : s.memOk) :
    Canonical (execVftoiV r p a m t d s) := by simp [execVftoiV, wf]

@[simp] theorem execVftoinV_canonical (r : BitVec 2) (p a m : BitVec 1) (t d : BitVec 5) (s : State) (wf : s.memOk) :
    Canonical (execVftoinV r p a m t d s) := by simp [execVftoinV, wf]

@[simp] theorem execVitofV_canonical (r : BitVec 2) (p a m : BitVec 1) (t d : BitVec 5) (s : State) (wf : s.memOk) :
    Canonical (execVitofV r p a m t d s) := by simp [execVitofV, wf]

@[simp] theorem execVintofV_canonical (r : BitVec 2) (p a m : BitVec 1) (t d : BitVec 5) (s : State) (wf : s.memOk) :
    Canonical (execVintofV r p a m t d s) := by simp [execVintofV, wf]

@[simp] theorem execVfcvtF4_canonical (r : BitVec 2) (p a m : BitVec 1) (t d : BitVec 5) (s : State) (wf : s.memOk) :
    Canonical (execVfcvtF4 r p a m t d s) := by simp [execVfcvtF4, wf]

@[simp] theorem execVredsumXs_canonical (a m : BitVec 1) (t u d : BitVec 5) (s : State) (wf : s.memOk) :
    Canonical (execVredsumXs a m t u d s) := by simp [execVredsumXs, wf]

@[simp] theorem execVredminXs_canonical (a m : BitVec 1) (t u d : BitVec 5) (s : State) (wf : s.memOk) :
    Canonical (execVredminXs a m t u d s) := by simp [execVredminXs, wf]

@[simp] theorem execVredmaxXs_canonical (a m : BitVec 1) (t u d : BitVec 5) (s : State) (wf : s.memOk) :
    Canonical (execVredmaxXs a m t u d s) := by simp [execVredmaxXs, wf]

@[simp] theorem execVredandXs_canonical (a m : BitVec 1) (t u d : BitVec 5) (s : State) (wf : s.memOk) :
    Canonical (execVredandXs a m t u d s) := by simp [execVredandXs, wf]

@[simp] theorem execVredorXs_canonical (a m : BitVec 1) (t u d : BitVec 5) (s : State) (wf : s.memOk) :
    Canonical (execVredorXs a m t u d s) := by simp [execVredorXs, wf]

@[simp] theorem execVredxorXs_canonical (a m : BitVec 1) (t u d : BitVec 5) (s : State) (wf : s.memOk) :
    Canonical (execVredxorXs a m t u d s) := by simp [execVredxorXs, wf]

@[simp] theorem execVfredsumXs_canonical (a m : BitVec 1) (t u d : BitVec 5) (s : State) (wf : s.memOk) :
    Canonical (execVfredsumXs a m t u d s) := by simp [execVfredsumXs, wf]

@[simp] theorem execVfredminXs_canonical (a m : BitVec 1) (t u d : BitVec 5) (s : State) (wf : s.memOk) :
    Canonical (execVfredminXs a m t u d s) := by simp [execVfredminXs, wf]

@[simp] theorem execVfredmaxXs_canonical (a m : BitVec 1) (t u d : BitVec 5) (s : State) (wf : s.memOk) :
    Canonical (execVfredmaxXs a m t u d s) := by simp [execVfredmaxXs, wf]

@[simp] theorem execVredminiXs_canonical (a m : BitVec 1) (t u d : BitVec 5) (s : State) (wf : s.memOk) :
    Canonical (execVredminiXs a m t u d s) := by simp [execVredminiXs, wf]

@[simp] theorem execVredmaxiXs_canonical (a m : BitVec 1) (t u d : BitVec 5) (s : State) (wf : s.memOk) :
    Canonical (execVredmaxiXs a m t u d s) := by simp [execVredmaxiXs, wf]

@[simp] theorem execVtree_canonical (a m : BitVec 1) (t : BitVec 5) (h : BitVec 1) (n : BitVec 5) (s : State) (wf : s.memOk) :
    Canonical (execVtree a m t h n s) := by simp [execVtree, wf]

@[simp] theorem execVftree_canonical (a m : BitVec 1) (t : BitVec 5) (h : BitVec 1) (n : BitVec 5) (s : State) (wf : s.memOk) :
    Canonical (execVftree a m t h n s) := by simp [execVftree, wf]

@[simp] theorem execVtreeseg_canonical (c : BitVec 3) (a m : BitVec 1) (t : BitVec 5) (h : BitVec 1) (n : BitVec 5) (s : State) (wf : s.memOk) :
    Canonical (execVtreeseg c a m t h n s) := by simp [execVtreeseg, wf]

@[simp] theorem execVftreeseg_canonical (c : BitVec 3) (a m : BitVec 1) (t : BitVec 5) (h : BitVec 1) (n : BitVec 5) (s : State) (wf : s.memOk) :
    Canonical (execVftreeseg c a m t h n s) := by simp [execVftreeseg, wf]

@[simp] theorem execVsegsumV_canonical (c : BitVec 3) (a m : BitVec 1) (t d : BitVec 5) (s : State) (wf : s.memOk) :
    Canonical (execVsegsumV c a m t d s) := by simp [execVsegsumV, wf]

@[simp] theorem execVsegminV_canonical (c : BitVec 3) (a m : BitVec 1) (t d : BitVec 5) (s : State) (wf : s.memOk) :
    Canonical (execVsegminV c a m t d s) := by simp [execVsegminV, wf]

@[simp] theorem execVsegmaxV_canonical (c : BitVec 3) (a m : BitVec 1) (t d : BitVec 5) (s : State) (wf : s.memOk) :
    Canonical (execVsegmaxV c a m t d s) := by simp [execVsegmaxV, wf]

@[simp] theorem execVfsegsumV_canonical (c : BitVec 3) (a m : BitVec 1) (t d : BitVec 5) (s : State) (wf : s.memOk) :
    Canonical (execVfsegsumV c a m t d s) := by simp [execVfsegsumV, wf]

@[simp] theorem execVfsegminV_canonical (c : BitVec 3) (a m : BitVec 1) (t d : BitVec 5) (s : State) (wf : s.memOk) :
    Canonical (execVfsegminV c a m t d s) := by simp [execVfsegminV, wf]

@[simp] theorem execVfsegmaxV_canonical (c : BitVec 3) (a m : BitVec 1) (t d : BitVec 5) (s : State) (wf : s.memOk) :
    Canonical (execVfsegmaxV c a m t d s) := by simp [execVfsegmaxV, wf]

@[simp] theorem execVslideupVx_canonical (a m : BitVec 1) (t u d : BitVec 5) (s : State) (wf : s.memOk) :
    Canonical (execVslideupVx a m t u d s) := by simp [execVslideupVx, wf]

@[simp] theorem execVslidedownVx_canonical (a m : BitVec 1) (t u d : BitVec 5) (s : State) (wf : s.memOk) :
    Canonical (execVslidedownVx a m t u d s) := by simp [execVslidedownVx, wf]

@[simp] theorem execVslide1upVx_canonical (a m : BitVec 1) (t u d : BitVec 5) (s : State) (wf : s.memOk) :
    Canonical (execVslide1upVx a m t u d s) := by simp [execVslide1upVx, wf]

@[simp] theorem execVslide1downVx_canonical (a m : BitVec 1) (t u d : BitVec 5) (s : State) (wf : s.memOk) :
    Canonical (execVslide1downVx a m t u d s) := by simp [execVslide1downVx, wf]

@[simp] theorem execVgatherVv_canonical (w : BitVec 2) (a m : BitVec 1) (t u d : BitVec 5) (s : State) (wf : s.memOk) :
    Canonical (execVgatherVv w a m t u d s) := by simp [execVgatherVv, wf]

@[simp] theorem execVcompressVv_canonical (a : BitVec 1) (t u d : BitVec 5) (s : State) (wf : s.memOk) :
    Canonical (execVcompressVv a t u d s) := by simp [execVcompressVv, wf]

@[simp] theorem execVexpandVv_canonical (a : BitVec 1) (t u d : BitVec 5) (s : State) (wf : s.memOk) :
    Canonical (execVexpandVv a t u d s) := by simp [execVexpandVv, wf]

@[simp] theorem execVbcastVx_canonical (a m : BitVec 1) (t u d : BitVec 5) (s : State) (wf : s.memOk) :
    Canonical (execVbcastVx a m t u d s) := by simp [execVbcastVx, wf]

@[simp] theorem execVmrotVx_canonical (a m : BitVec 1) (t u d : BitVec 5) (s : State) (wf : s.memOk) :
    Canonical (execVmrotVx a m t u d s) := by simp [execVmrotVx, wf]

/-! ## Vector configuration (R279, R280) -/

@[simp] theorem setConfig_canonical (names : List (BitVec 5)) (t n : BitVec 64) (d : BitVec 5) (word : BitVec 64) (s : State) (wf : s.memOk) :
    Canonical (setConfig names t n d word s) := by
  refine canonical_ite (finish_canonical wf) (canonical_ite ?_ ?_) <;> simpa using wf

@[simp] theorem execVsetl_canonical (b a d : BitVec 5) (s : State) (wf : s.memOk) : Canonical (execVsetl b a d s) := by simp [execVsetl, wf]

@[simp] theorem execVsetli_canonical (n : BitVec 12) (a d : BitVec 5) (s : State) (wf : s.memOk) : Canonical (execVsetli n a d s) := by
  simp [execVsetli, wf]

@[simp] theorem execVld_canonical (a m : BitVec 1) (u d : BitVec 5) (s : State) (wf : s.memOk) : Canonical (execVld a m u d s) := by
  simp [execVld, wf]

@[simp] theorem execVst_canonical (a m : BitVec 1) (u d : BitVec 5) (s : State) (wf : s.memOk) : Canonical (execVst a m u d s) := by
  simp [execVst, wf]

@[simp] theorem execVlds_canonical (a m : BitVec 1) (t u d : BitVec 5) (s : State) (wf : s.memOk) : Canonical (execVlds a m t u d s) := by
  simp [execVlds, wf]

@[simp] theorem execVsts_canonical (a m : BitVec 1) (t u d : BitVec 5) (s : State) (wf : s.memOk) : Canonical (execVsts a m t u d s) := by
  simp [execVsts, wf]

@[simp] theorem execVldx_canonical (w : BitVec 2) (a m : BitVec 1) (t u d : BitVec 5) (s : State) (wf : s.memOk) :
    Canonical (execVldx w a m t u d s) := by simp [execVldx, wf]

@[simp] theorem execVstx_canonical (w : BitVec 2) (a m : BitVec 1) (t u d : BitVec 5) (s : State) (wf : s.memOk) :
    Canonical (execVstx w a m t u d s) := by simp [execVstx, wf]

@[simp] theorem execVldsp_canonical (tr a m : BitVec 1) (k u d : BitVec 5) (s : State) (wf : s.memOk) :
    Canonical (execVldsp tr a m k u d s) := by simp [execVldsp, wf]

@[simp] theorem execVstsp_canonical (tr a m : BitVec 1) (k u d : BitVec 5) (s : State) (wf : s.memOk) :
    Canonical (execVstsp tr a m k u d s) := by simp [execVstsp, wf]

/-! ## Matrix mode -/

@[simp] theorem tileTrap_mem (z : Cause) (x : BitVec 64) (vec : Bool) (s : State) : (tileTrap z x vec s).mem = s.mem := by simp [tileTrap]

@[simp] theorem tileCmd_canonical {needMm : Bool} {word : BitVec 64} {s : State} {k : State → State} (wf : s.memOk)
    (hk : ∀ t, t.memOk → (k t).memOk) : Canonical (tileCmd needMm word s k) := by
  refine canonical_ite (finish_canonical wf) (canonical_ite (by simpa using wf) ?_)
  exact canonical_next.mpr (memOk_ite wf (hk s wf))

@[simp] theorem execMmode_canonical (a d : BitVec 5) (s : State) (wf : s.memOk) : Canonical (execMmode a d s) := by
  refine tileCmd_canonical wf fun t wf => memOk_ite ?_ (memOk_ite ?_ ?_) <;> simpa using wf

@[simp] theorem execMzero_canonical (s : State) (wf : s.memOk) : Canonical (execMzero s) := by
  refine tileCmd_canonical wf fun t wf => ?_
  rw [State.memOk, retire_mem, takeReplay_mem, foldl_mem fun _ _ => accPut_mem _ _ _ _]
  exact wf

@[simp] theorem execMtree_canonical (t : BitVec 1) (s : State) (wf : s.memOk) : Canonical (execMtree t s) := by
  refine tileCmd_canonical wf fun u wf => ?_
  extract_lets n tops
  have put : (tops.foldl (fun s x => setMsat x.2.2 (accPut 0 x.1 x.2.1 s)) u).mem = u.mem := foldl_mem (fun _ _ => by simp) _ _
  simpa [put] using wf

/-! ## The tile and vector registers (R335 to R337) -/

@[simp] theorem tileMove_canonical {c0 : VCmd} {s : State} {k : VCmd → List ℕ → State → State} (wf : s.memOk)
    (hk : ∀ c l t, t.memOk → (k c l t).memOk) : Canonical (tileMove c0 s k) := by
  refine tileCmd_canonical wf fun t wf => memOk_ite (by simpa using wf) (memOk_ite (by simpa using wf) ?_)
  extract_lets all u
  have seen : u.memOk := by simpa [u] using wf
  split
  · simpa using hk _ _ _ seen
  · simpa using hk _ _ _ seen

@[simp] theorem putVpi_mem (r n : ℕ) (s : State) : (putVpi r n s).mem = s.mem := rfl

@[simp] theorem readTile_mem (int : Bool) (c : VCmd) (es : List ℕ) (s : State) : (readTile int c es s).mem = s.mem := by
  unfold readTile; extract_lets q n rm cell put t
  have put_mem : ∀ e x u, (put e x u).mem = u.mem := fun _ _ _ => elemPut_mem _ _ _ _ _ _
  have read : t.mem = s.mem := by
    unfold t; split
    · refine foldl_mem (fun u b => ?_) _ _
      rw [raise_mem, elemPut_mem]
      exact foldl_mem (fun u x => by split <;> simp [put_mem]) _ _
    · exact foldl_mem (fun u x => by simp [put_mem]) _ _
  split
  · exact read
  · rw [ite_mem, putVpi_mem, putVpi_mem, read, ite_self]

@[simp] theorem writeTile_mem (int : Bool) (c : VCmd) (es : List ℕ) (s : State) : (writeTile int c es s).mem = s.mem :=
  foldl_mem (fun _ _ => by simp) _ _

@[simp] theorem execMrd_canonical (t : BitVec 1) (f b a d : BitVec 5) (s : State) (wf : s.memOk) : Canonical (execMrd t f b a d s) :=
  tileMove_canonical wf fun c l u wf => by simpa using wf

@[simp] theorem execMwr_canonical (t : BitVec 1) (f b a d : BitVec 5) (s : State) (wf : s.memOk) : Canonical (execMwr t f b a d s) :=
  tileMove_canonical wf fun c l u wf => by simpa using wf

/-! ## Outer products (R171, R172, R338 to R342) -/

@[simp] theorem accumulate_mem (c : ℕ) (a b : DtuBuf) (q : Option (BitVec 8)) (s : State) : (accumulate c a b q s).mem = s.mem :=
  actAs_mem (fun _ => foldl_mem (fun _ _ => by simp) _ _) _ _ _

@[simp] theorem requestOne_mem (c o : ℕ) (x : BitVec 64) (second : Bool) (s : State) : (requestOne c o x second s).mem = s.mem := rfl

@[simp] theorem requestRows_mem (c : ℕ) (x : BitVec 64) (second : Bool) (s : State) : (requestRows c x second s).mem = s.mem := by
  unfold requestRows; split <;> rfl

@[simp] theorem outer_canonical (q : Option (BitVec 8)) (rs : List (BitVec 5)) (word a b : BitVec 64) (s : State) (wf : s.memOk) :
    Canonical (outer q rs word a b s) := by
  refine canonical_ite (finish_canonical wf) (canonical_ite (by simpa using wf) (canonical_ite (by simpa using wf) ?_))
  split
  · simpa using wf
  · refine canonical_ite (canonical_ite ?_ ?_) (canonical_ite ?_ ?_) <;> simpa using wf

@[simp] theorem execMopa_canonical (b a : BitVec 5) (s : State) (wf : s.memOk) : Canonical (execMopa b a s) := by simp [execMopa, wf]

@[simp] theorem execMopaSc_canonical (b a d : BitVec 5) (s : State) (wf : s.memOk) : Canonical (execMopaSc b a d s) := by simp [execMopaSc, wf]

/-! ## Filling the operand buffers -/

@[simp] theorem fillTrap_mem (c : ℕ) (z : Cause) (x : BitVec 64) (s : State) : (fillTrap c z x s).mem = s.mem := by
  unfold fillTrap
  rw [actAs_mem fun t => takeTrap_mem _ _ _ t, dropTile_mem]

@[simp] theorem noteStop_mem (c : ℕ) (z : Cause × BitVec 64) (s : State) : (noteStop c z s).mem = s.mem := rfl

@[simp] theorem deliver_mem (second : Bool) (way row0 o c : ℕ) (s : State) : (deliver second way row0 o c s).mem = s.mem := by
  unfold deliver; split
  · rfl
  · extract_lets x
    clear_value x
    split
    · rfl
    · split <;> simp

@[simp] theorem execMergeWindowClose_canonical (core way : ℕ) (s : State) (wf : s.memOk) : Canonical (execMergeWindowClose core way s) := by
  unfold execMergeWindowClose
  refine canonical_ite (canonical_fault _) ?_
  split
  · simpa using wf
  · refine canonical_ite (by simpa using wf) (canonical_next.mpr (foldl_memOk (fun t _ wf => by simpa using wf) _ ?_))
    simpa using wf

@[simp] theorem execOperandBufferFull_canonical (core : ℕ) (s : State) (wf : s.memOk) : Canonical (execOperandBufferFull core s) := by
  unfold execOperandBufferFull
  refine canonical_ite (canonical_fault _) ?_
  split
  · simpa using wf
  · refine canonical_ite (by simpa using wf) ?_
    extract_lets stop n a b t
    have filled : t.memOk := by simpa [t] using wf
    clear_value stop t
    split
    · simp [wf]
    · exact canonical_next.mpr (actAs_memOk (fun t wf => by simpa using wf) _ _ filled)

@[simp] theorem execAccumulationEnd_canonical (core : ℕ) (s : State) (wf : s.memOk) : Canonical (execAccumulationEnd core s) := by
  unfold execAccumulationEnd
  refine canonical_ite (canonical_fault _) ?_
  split
  · simpa using wf
  · split
    · exact canonical_ite (by simpa using wf) (by simpa using wf)
    · simpa using wf

/-! ## The block port (R343 to R348) -/

@[simp] theorem writeImage_memOk (x : BitVec 64) (b : BlockImage) (s : State) (wf : s.memOk) : (writeImage x b s).memOk := by
  simp [writeImage, wf_memWrite, wf]

@[simp] theorem portReplay_mem (s : State) : (portReplay s).mem = s.mem := by unfold portReplay; split <;> rfl

theorem portDone_canonical {op : Fin 3} {b : BitVec 64} {x y : BlockImage} {put : BlockImage → State → State} {s : State} (wf : s.memOk)
    (hput : ∀ r t, t.memOk → (put r t).memOk) : Canonical (portDone op b x y put s) := by
  unfold portDone; split
  · exact finish_canonical (by simpa using wf)
  · exact canonical_next.mpr (hput _ _ wf)

@[simp] theorem blockOp_canonical (op : Fin 3) (word a b d : BitVec 64) (s : State) (wf : s.memOk) : Canonical (blockOp op word a b d s) := by
  unfold blockOp; extract_lets ps
  refine canonical_ite (finish_canonical wf) (canonical_ite (by simpa using wf) ?_)
  split
  · exact finish_canonical wf
  · exact finish_canonical (by simpa using wf)
  · refine canonical_ite (by simpa using wf) (finish_canonical (settled_memOk wf fun t wf => resOk_ite wf ?_))
    split
    · simpa using wf
    · simpa using writeImage_memOk d _ t wf

@[simp] theorem portTurn_canonical (s : State) (wf : s.memOk) : Canonical (portTurn s) := by
  unfold portTurn; extract_lets c at' image
  have at_mem : ∀ r w op a b d t, (at' r w op a b d t).mem = t.mem := fun _ _ _ _ _ _ _ => updMe_mem _ _
  split
  · split
    · exact canonical_next.mpr (memOk_ite wf (by simpa [at_mem] using wf))
    · exact canonical_ite (by simpa using wf) (portDone_canonical (by simpa using wf) fun r t wf => by simpa [at_mem] using wf)
  · refine canonical_ite (by simpa using wf) ?_
    extract_lets u
    have written : u.memOk := by simp [u, wf_memWrite, wf]
    exact canonical_next.mpr (memOk_ite (by simpa using written) (by simpa [at_mem] using written))
  · simpa using wf

@[simp] theorem execGadd_canonical (b a d : BitVec 5) (s : State) (wf : s.memOk) : Canonical (execGadd b a d s) := by simp [execGadd, wf]

@[simp] theorem execGelim_canonical (b a d : BitVec 5) (s : State) (wf : s.memOk) : Canonical (execGelim b a d s) := by simp [execGelim, wf]

@[simp] theorem execGdamp_canonical (b a d : BitVec 5) (s : State) (wf : s.memOk) : Canonical (execGdamp b a d s) := by simp [execGdamp, wf]

end Sys2Proof.Machine
end

section
/-!
PROOFS. Memory kept in canonical form: barrier objects, engines, walkers, packets and tokens; obligation O23.
-/

namespace Sys2Proof.Machine
set_option Elab.async false

/-! ## A request -/

@[simp] theorem issueReq_mem (r : CReq) (ok : Bool) (queue : Column → List CReq) (put : List CReq → Column → Column) (s : State) :
    (issueReq r ok queue put s).mem = s.mem := by
  unfold issueReq; repeat' split
  all_goals simp

@[simp] theorem copyInstr_canonical (kind : ℕ) (w z m : BitVec 1) (k : BitVec 3) (b a d : BitVec 5) (s : State) (wf : s.memOk) :
    Canonical (copyInstr kind w z m k b a d s) := by simp [copyInstr, wf]

@[simp] theorem execCopy_canonical (w z m : BitVec 1) (k : BitVec 3) (b a d : BitVec 5) (s : State) (wf : s.memOk) :
    Canonical (execCopy w z m k b a d s) := by simp [execCopy, wf]

@[simp] theorem execCopy2d_canonical (w z m : BitVec 1) (k : BitVec 3) (b a d : BitVec 5) (s : State) (wf : s.memOk) :
    Canonical (execCopy2d w z m k b a d s) := by simp [execCopy2d, wf]

@[simp] theorem execCopygath_canonical (w z m : BitVec 1) (k : BitVec 3) (b a d : BitVec 5) (s : State) (wf : s.memOk) :
    Canonical (execCopygath w z m k b a d s) := by simp [execCopygath, wf]

@[simp] theorem execCopyscat_canonical (w z m : BitVec 1) (k : BitVec 3) (b a d : BitVec 5) (s : State) (wf : s.memOk) :
    Canonical (execCopyscat w z m k b a d s) := by simp [execCopyscat, wf]

@[simp] theorem execCopyt_canonical (w z m : BitVec 1) (k : BitVec 3) (b a d : BitVec 5) (s : State) (wf : s.memOk) :
    Canonical (execCopyt w z m k b a d s) := by simp [execCopyt, wf]

/-! ## Collectives (R109, R355, R356) -/

@[simp] theorem collInstr_canonical (kind : ℕ) (w z : BitVec 1) (k : BitVec 3) (b a d : BitVec 5) (s : State) (wf : s.memOk) :
    Canonical (collInstr kind w z k b a d s) := by
  refine finish_canonical (resOk_ite wf (settled_memOk wf fun t wf => ?_))
  extract_lets g e put r0 r issue far
  have issued : ∀ r ok u, u.memOk → (issue r ok u).memOk := fun r ok u wf => by simpa [issue] using wf
  refine resOk_ite (issued _ _ _ wf) (resOk_ite wf (resOk_ite wf ?_))
  have read := ownerRead_memOk true g.toNat 64 (match far with | some v => useAllowance (colOf t.curCore) v 3 t | none => t) (by
    clear_value far
    split <;> simpa using wf)
  split
  · next eq => exact memOk_of_snd eq read
  · next eq => exact issued _ _ _ (memOk_of_snd eq read)

@[simp] theorem execCreduce_canonical (w z : BitVec 1) (k : BitVec 3) (b a d : BitVec 5) (s : State) (wf : s.memOk) :
    Canonical (execCreduce w z k b a d s) := by simp [execCreduce, wf]

@[simp] theorem execCbcast_canonical (w z : BitVec 1) (k : BitVec 3) (b a d : BitVec 5) (s : State) (wf : s.memOk) :
    Canonical (execCbcast w z k b a d s) := by simp [execCbcast, wf]

/-! ## Barrier objects (R100 to R102) -/

@[simp] theorem wakeBarrier_mem (gpa : ℕ) (o : BarObj) (s : State) : (wakeBarrier gpa o s).mem = s.mem :=
  foldl_mem (fun t x => actAs_mem (fun u => by simp) _ _ t) _ _

@[simp] theorem barOp_mem (gpa : ℕ) (f : BarObj → BarObj × Bool) (s : State) : (barOp gpa f s).mem = s.mem := by simp [barOp]

/-! ## Barrier instructions (R357 to R361) -/

@[simp] theorem barAddr_memOk (rights : BitVec 5) (va : BitVec 64) (s : State) (wf : s.memOk) : (barAddr rights va s).memOk := by
  simp [barAddr, wf]

@[simp] theorem barReach_memOk (va : BitVec 64) (g : ℕ) (s : State) (wf : s.memOk) : (barReach va g s).memOk := by
  refine resOk_ite wf ?_
  split <;> simp [wf]

@[simp] theorem execBinit_canonical (f : BitVec 2) (b a : BitVec 5) (s : State) (wf : s.memOk) : Canonical (execBinit f b a s) := by
  refine finish_canonical (Res.andThen_memOk (barAddr_memOk _ _ _ wf) fun g t wf => ?_)
  exact Res.andThen_memOk (barReach_memOk _ _ _ wf) fun _ u wf => by simpa using wf

@[simp] theorem execBarrive_canonical (a : BitVec 5) (s : State) (wf : s.memOk) : Canonical (execBarrive a s) := by
  refine finish_canonical (Res.andThen_memOk (barAddr_memOk _ _ _ wf) fun g t wf => ?_)
  refine Res.andThen_memOk (barReach_memOk _ _ _ wf) fun _ u wf => withRelease_memOk wf fun v wf => ?_
  simpa using wf

@[simp] theorem execBwait_canonical (b a d : BitVec 5) (s : State) (wf : s.memOk) : Canonical (execBwait b a d s) := by
  refine finish_canonical (orBlock_memOk wf fun s wf => Res.andThen_memOk (barAddr_memOk _ _ _ wf) fun g t wf => ?_)
  refine Res.andThen_memOk (barReach_memOk _ _ _ wf) fun _ u wf => settled_memOk wf fun v wf => ?_
  simp [reach_mem, wf]

@[simp] theorem execBquery_canonical (b a d : BitVec 5) (s : State) (wf : s.memOk) : Canonical (execBquery b a d s) := by
  refine finish_canonical (Res.andThen_memOk (barAddr_memOk _ _ _ wf) fun g t wf => ?_)
  exact Res.andThen_memOk (barReach_memOk _ _ _ wf) fun _ u wf => by simp [wf]

/-! ## Translation by an engine -/

@[simp] theorem CReq.xl_memOk (r : CReq) (rights : BitVec 5) (va : BitVec 64) (s : State) (wf : s.memOk) : (r.xl rights va s).2.2.memOk := by
  unfold CReq.xl; split
  · exact wf
  · extract_lets h; split
    · exact wf
    · next t walked =>
      have kept := walkFrom_memOk _ _ _ s wf walked
      split <;> exact kept

@[simp] theorem passPiece_mem (p : Piece) (s : State) : (passPiece p s).mem = s.mem := by
  unfold passPiece; repeat' split
  all_goals simp

@[simp] theorem readPieces_memOk (l : List Piece) (sh v : ℕ) (s : State) (wf : s.memOk) : (readPieces l sh v s).2.memOk := by
  induction l generalizing sh v s with
  | nil => exact wf
  | cons p l ih =>
    unfold readPieces; split
    · exact wf
    · have read := ownerRead_memOk p.coh p.gpa p.n (passPiece p s) (by simpa using wf)
      split
      · next eq => exact memOk_of_snd eq read
      · next eq => exact ih _ _ _ (memOk_of_snd eq read)

@[simp] theorem writePieces_memOk (l : List Piece) (v : ℕ) (s : State) (wf : s.memOk) : (writePieces l v s).2.memOk := by
  unfold writePieces; split
  · dsimp only; split <;> simp [wf]
  · exact List.foldlRecOn (motive := fun (t : ℕ × State) => t.2.memOk) _ _ wf fun t wf p _ =>
      ownerWrite_memOk _ _ _ _ _ (by simpa using wf)

/-! ## Elements -/

@[simp] theorem countLine_mem (col n v : ℕ) (s : State) : (countLine col n v s).mem = s.mem := rfl

@[simp] theorem crossLine_mem (from' here gpa n v : ℕ) (s : State) : (crossLine from' here gpa n v s).mem = s.mem := by
  unfold crossLine; dsimp only; split <;> simp

@[simp] theorem CReq.flushLine_mem (r : CReq) (s : State) : (CReq.flushLine r s).2.mem = s.mem := by simp [CReq.flushLine]

@[simp] theorem CReq.lineBytes_mem (from' gpa f va n v : ℕ) (r : CReq) (s : State) : (CReq.lineBytes from' gpa f va n v r s).2.mem = s.mem := by
  induction f generalizing va n v r s with
  | zero => rfl
  | succ f ih =>
    unfold CReq.lineBytes; split
    · rfl
    · dsimp only
      rw [ih]
      split <;> split <;> simp

@[simp] theorem CReq.crossPieces_mem (from' : ℕ → ℕ) (l : List Piece) (o va v : ℕ) (r : CReq) (s : State) :
    (CReq.crossPieces from' l o va v r s).2.mem = s.mem := by
  induction l generalizing o va v r s with
  | nil => rfl
  | cons p l ih => unfold CReq.crossPieces; dsimp only; rw [ih, CReq.lineBytes_mem]

@[simp] theorem compress_mem (r : CReq) (e : Elem) (v : ℕ) (s : State) : (compress r e v s).2.mem = s.mem := by simp [compress]

@[simp] theorem putColumn_mem (r : CReq) (e : Elem) (v : ℕ) (s : State) : (putColumn r e v s).2.mem = s.mem := by
  unfold putColumn; extract_lets q sew code n place gl ts
  split
  · rfl
  · split
    · rfl
    · exact foldl_mem (fun _ _ => by simp) _ _

@[simp] theorem gatherRows_memOk (r : CReq) (l : List Elem) (s : State) (wf : s.memOk) : (gatherRows r l s).2.memOk := by
  unfold gatherRows; split
  · exact wf
  · exact List.foldlRecOn (motive := fun (t : List (ℕ × Option (BitVec 64)) × State) => t.2.memOk) _ _ wf fun t wf k _ =>
      ownerGather_memOk _ _ _ _ wf

@[simp] theorem readSource_memOk (got : List (ℕ × Option (BitVec 64))) (e : Elem) (s : State) (wf : s.memOk) : (readSource got e s).2.memOk := by
  unfold readSource; split
  · exact wf
  · split <;> simp [wf]

@[simp] theorem performElem_memOk (got : List (ℕ × Option (BitVec 64))) (r : CReq) (e : Elem) (s : State) (wf : s.memOk) :
    (performElem got r e s).2.memOk := by
  unfold performElem
  have read := readSource_memOk got e s wf
  split
  · next eq => exact memOk_of_snd eq read
  · next v t eq =>
    have wf := memOk_of_snd eq read
    split
    · have put := putColumn_mem r e v t
      split <;> simp_all
    · extract_lets x
      have written := writePieces_memOk e.dst x t wf
      split <;> simp_all

/-! ## Requests of an engine -/

@[simp] theorem putEng_mem (col : Fin 8) (e : ℕ) (l : List CReq) (s : State) : (putEng col e l s).mem = s.mem := rfl

@[simp] theorem putReq_mem (col : Fin 8) (e : ℕ) (r : CReq) (s : State) : (putReq col e r s).mem = s.mem := rfl

@[simp] theorem endReq_mem (col : Fin 8) (e : ℕ) (r : CReq) (s : State) : (endReq col e r s).mem = s.mem := by unfold endReq; split <;> rfl

@[simp] theorem setToken_mem (core n : ℕ) (st : BitVec 2) (s : State) : (setToken core n st s).mem = s.mem := by
  unfold setToken; dsimp only; split <;> rfl

@[simp] theorem stopReq_mem (col : Fin 8) (e : ℕ) (r : CReq) (c : Cause) (va : BitVec 64) (s : State) :
    (stopReq col e r c va s).mem = s.mem := by simp [stopReq]

@[simp] theorem failReq_mem (col : Fin 8) (e : ℕ) (r : CReq) (c : Cause) (va : BitVec 64) (s : State) :
    (failReq col e r c va s).mem = s.mem := by simp [failReq]

@[simp] theorem putContribs_mem (h : Fin 8 × ℕ) (l : List Contrib) (s : State) : (putContribs h l s).mem = s.mem := rfl

@[simp] theorem joinContrib_mem (r : CReq) (s : State) : (joinContrib r s).mem = s.mem := by
  unfold joinContrib; extract_lets h l live
  split
  · rfl
  · split <;> simp

/-- The memory of what the planning of an element comes to. -/
def Plan.mem : Plan → List Host.Cell
  | .ok _ _ s => s.mem
  | .fault _ _ _ s => s.mem
  | .stall s => s.mem

/-- What the planning of an element comes to has its memory in canonical form. -/
abbrev Plan.memOk (p : Plan) : Prop := Memory.wf p.mem = true

/-- The memory of what the translation of a span comes to. -/
def Span.mem : Span → List Host.Cell
  | .ok _ _ s => s.mem
  | .fault _ _ s => s.mem
  | .stall s => s.mem

/-- What the translation of a span comes to has its memory in canonical form. -/
abbrev Span.memOk (p : Span) : Prop := Memory.wf p.mem = true

section
variable {s : State} {r : CReq} {c : Cause}

theorem Plan.memOk_of_ok {p : Plan} {e : Elem} (h : p = .ok e r s) (wf : p.memOk) : s.memOk := by rwa [h] at wf
theorem Plan.memOk_of_fault {p : Plan} {va : BitVec 64} (h : p = .fault c va r s) (wf : p.memOk) : s.memOk := by rwa [h] at wf
theorem Plan.memOk_of_stall {p : Plan} (h : p = .stall s) (wf : p.memOk) : s.memOk := by rwa [h] at wf
theorem Span.memOk_of_ok {p : Span} {l : List Piece} (h : p = .ok l r s) (wf : p.memOk) : s.memOk := by rwa [h] at wf
theorem Span.memOk_of_fault {p : Span} (h : p = .fault c r s) (wf : p.memOk) : s.memOk := by rwa [h] at wf
theorem Span.memOk_of_stall {p : Span} (h : p = .stall s) (wf : p.memOk) : s.memOk := by rwa [h] at wf
theorem memOk_of_snd_snd {α β : Type} {p : α × β × State} {a : α} {b : β} (h : p = (a, b, s)) (wf : p.2.2.memOk) : s.memOk := by rwa [h] at wf
end

theorem beginCopyt_memOk (r : CReq) (s : State) (wf : s.memOk) : (beginCopyt r s).memOk := by
  unfold beginCopyt; extract_lets q e
  have walked := CReq.xl_memOk q needRd q.src s wf
  split
  · next eq => exact memOk_of_snd_snd eq walked
  · next eq => exact memOk_of_snd_snd eq walked
  · next eq => exact memOk_of_snd_snd eq walked
  · next eq =>
    have wf := memOk_of_snd_snd eq walked
    split
    · extract_lets x k
      split <;> exact wf
    · exact wf

@[simp] theorem execRequestBegins_canonical (col e : ℕ) (s : State) (wf : s.memOk) : Canonical (execRequestBegins col e s) := by
  unfold execRequestBegins
  refine canonical_ite (canonical_fault _) ?_
  extract_lets k go
  split
  · simpa using wf
  · next r _ =>
    refine canonical_ite (by simpa using wf) ?_
    have gone : ∀ r t, t.memOk → Canonical (.next (go r t)) := fun r t wf => by simpa [go] using wf
    refine canonical_ite ?_ (gone _ _ wf)
    have begun := beginCopyt_memOk r s wf
    split
    · next eq => exact canonical_next.mpr (Plan.memOk_of_stall eq begun)
    · next eq => simpa using Plan.memOk_of_fault eq begun
    · next eq => exact gone _ _ (Plan.memOk_of_ok eq begun)

@[simp] theorem setChunks_mem (r : CReq) (lo hi : ℕ) (s : State) : (setChunks r lo hi s).mem = s.mem := by
  unfold setChunks; split
  · rfl
  · refine foldl_mem (fun t k => ?_) _ _
    split
    · extract_lets gl; split <;> simp
    · rfl

@[simp] theorem noteChunks_mem (r : CReq) (l : List Elem) (s : State) : (noteChunks r l s).mem = s.mem := by unfold noteChunks; split <;> rfl

theorem CReq.span_memOk (rights : BitVec 5) (f : ℕ) (va : BitVec 64) (n : ℕ) (l : List Piece) (r : CReq) (s : State) (wf : s.memOk) :
    (CReq.span rights f va n l r s).memOk := by
  induction f generalizing va n l r s with
  | zero => exact wf
  | succ f ih =>
    unfold CReq.span; split
    · exact wf
    · extract_lets m
      have walked := CReq.xl_memOk r rights va s wf
      split
      · next eq => exact memOk_of_snd_snd eq walked
      · next eq => exact memOk_of_snd_snd eq walked
      · next eq => exact memOk_of_snd_snd eq walked
      · next eq =>
        have wf := memOk_of_snd_snd eq walked
        extract_lets g
        split
        · exact wf
        · split
          · exact wf
          · exact ih _ _ _ _ _ wf

theorem CReq.pieces_memOk (r : CReq) (rights : BitVec 5) (va : BitVec 64) (n : ℕ) (s : State) (wf : s.memOk) : (r.pieces rights va n s).memOk :=
  CReq.span_memOk _ _ _ _ _ _ _ wf

theorem CReq.both_memOk (r : CReq) (e : Elem) (s : State) (wf : s.memOk) : (r.both e s).memOk := by
  unfold CReq.both
  have source : (if e.oor && r.kind == 2 then Span.ok [] r s else r.pieces needRd e.sva e.n s).memOk := by
    split
    · exact wf
    · exact CReq.pieces_memOk _ _ _ _ _ wf
  split
  · next eq => exact Span.memOk_of_stall eq source
  · next eq => exact Span.memOk_of_fault eq source
  · next l r t eq =>
    have wf := Span.memOk_of_ok eq source
    have dest : (if (e.oor && r.kind == 3) || r.kind == 4 then Span.ok [] r t else r.pieces needWr e.dva e.n t).memOk := by
      split
      · exact wf
      · exact CReq.pieces_memOk _ _ _ _ _ wf
    split
    · next eq => exact Span.memOk_of_stall eq dest
    · next eq => exact Span.memOk_of_fault eq dest
    · next eq => exact Span.memOk_of_ok eq dest

theorem CReq.plan_memOk (r : CReq) (j lim : ℕ) (s : State) (wf : s.memOk) : (r.plan j lim s).memOk := by
  unfold CReq.plan; extract_lets e at' row a b n w la
  split
  · exact CReq.both_memOk _ _ _ wf
  · split
    · exact CReq.both_memOk _ _ _ wf
    · split
      · exact CReq.both_memOk _ _ _ wf
      · have list := CReq.pieces_memOk r needRd la w s wf
        split
        · next eq => exact Span.memOk_of_stall eq list
        · next eq => exact Span.memOk_of_fault eq list
        · next l r t eq =>
          have read := readPieces_memOk l 0 0 t (Span.memOk_of_ok eq list)
          split
          · next eq => exact memOk_of_snd eq read
          · next eq =>
            have wf := memOk_of_snd eq read
            extract_lets tab oor
            split <;> exact CReq.both_memOk _ _ _ wf

@[simp] theorem planBatch_memOk (stop f j : ℕ) (r : CReq) (s : State) (l : List Elem) (wf : s.memOk) :
    (planBatch stop f j r s l).2.2.2.memOk := by
  induction f generalizing j r s l with
  | zero => exact wf
  | succ f ih =>
    unfold planBatch; split
    · exact wf
    · have plan := CReq.plan_memOk r j (stop - j) s wf
      split
      · next eq => exact Plan.memOk_of_stall eq plan
      · next eq => exact Plan.memOk_of_fault eq plan
      · next eq => exact ih _ _ _ _ (Plan.memOk_of_ok eq plan)

@[simp] theorem performBatch_memOk (got : List (ℕ × Option (BitVec 64))) (l : List Elem) (r : CReq) (t : Tally) (s : State) (wf : s.memOk) :
    (performBatch got l r t s).2.2.2.memOk := by
  induction l generalizing r t s with
  | nil => exact wf
  | cons e l ih =>
    unfold performBatch
    have one := performElem_memOk got r e s wf
    split
    · next eq => exact memOk_of_snd eq one
    · next eq => exact ih _ _ _ (memOk_of_snd eq one)

@[simp] theorem copyBatch_memOk (col : Fin 8) (e : ℕ) (r : CReq) (s : State) (wf : s.memOk) : (copyBatch col e r s).memOk := by
  unfold copyBatch; extract_lets stop
  have planned := planBatch_memOk stop 4200 r.next r s [] wf
  split
  next l how r' t eq =>
  rw [eq] at planned
  have gathered := gatherRows_memOk r' l t planned
  split
  next got t' eq =>
  have performed := performBatch_memOk got l r' { next := r'.next, bytes := 0, written := 0, oor := 0 } t' (memOk_of_snd eq gathered)
  split
  next r'' tally err u eq =>
  rw [eq] at performed
  extract_lets q u1 u2 u3 u4
  have kept : u4.mem = u.mem := by
    have noted : u2.mem = u.mem := by simp [u2, u1]
    have credited : u3.mem = u.mem := by unfold u3; split <;> simp [noted]
    unfold u4; split <;> simp [credited]
  clear_value u4
  split <;> simpa [kept] using performed

/-! ## Collectives (R109 to R111) -/

@[simp] theorem useGroupWay_mem (r : CReq) (s : State) : (useGroupWay r s).mem = s.mem := by simp [useGroupWay]

@[simp] theorem addContrib_mem (col : Fin 8) (e : ℕ) (r : CReq) (xs : List (BitVec 64)) (next : ℕ) (s : State) :
    (addContrib col e r xs next s).mem = s.mem := by simp [addContrib]

/-- The state that the transfer of some elements comes to. -/
def endState : Except (Cause × State) State → State
  | .ok s => s
  | .error x => x.2

theorem memOk_of_ended {x : Except (Cause × State) State} {t : State} (h : x = .ok t) (wf : (endState x).memOk) : t.memOk := by rwa [h] at wf
theorem memOk_of_failed {x : Except (Cause × State) State} {c : Cause} {t : State} (h : x = .error (c, t)) (wf : (endState x).memOk) :
    t.memOk := by rwa [h] at wf

theorem sendElems_memOk (col : Fin 8) (e : ℕ) (r : CReq) (n : ℕ) (s : State) (wf : s.memOk) : (endState (sendElems col e r n s)).memOk := by
  unfold sendElems; extract_lets w
  have list := CReq.pieces_memOk r needRd (r.src + BitVec.ofNat 64 (r.next * w)) (n * w) s wf
  split
  · next eq => exact Span.memOk_of_stall eq list
  · next eq => exact Span.memOk_of_fault eq list
  · next l _ u eq =>
    have read := readPieces_memOk l 0 0 u (Span.memOk_of_ok eq list)
    split
    · next eq => exact memOk_of_snd eq read
    · next eq => simp [endState, memOk_of_snd eq read]

@[simp] theorem sendBatch_memOk (col : Fin 8) (e : ℕ) (r : CReq) (s : State) (wf : s.memOk) : (sendBatch col e r s).memOk := by
  unfold sendBatch; extract_lets w
  refine memOk_ite (by simpa using wf) ?_
  have sent := fun n => sendElems_memOk col e r n s wf
  split
  · next eq => exact memOk_of_ended eq (sent _)
  · split
    · next eq => exact memOk_of_ended eq (sent _)
    · next eq => simpa using memOk_of_failed eq (sent _)

theorem putElems_memOk (col : Fin 8) (e : ℕ) (r : CReq) (res : List (BitVec 64)) (n : ℕ) (s : State) (wf : s.memOk) :
    (endState (putElems col e r res n s)).memOk := by
  unfold putElems; extract_lets w va v
  have list := CReq.pieces_memOk r needWr va (n * w) s wf
  split
  · next eq => exact Span.memOk_of_stall eq list
  · next eq => exact Span.memOk_of_fault eq list
  · next l _ u eq =>
    have written := writePieces_memOk l v u (Span.memOk_of_ok eq list)
    split
    · next eq => exact memOk_of_snd eq written
    · next eq => simp [endState, memOk_of_snd eq written]

@[simp] theorem receiveBatch_memOk (col : Fin 8) (e : ℕ) (r : CReq) (res : List (BitVec 64)) (s : State) (wf : s.memOk) :
    (receiveBatch col e r res s).memOk := by
  unfold receiveBatch; extract_lets w h keep
  have put := fun n => putElems_memOk col e r res n s wf
  split
  · next eq => exact memOk_of_ended eq (put _)
  · split
    · next eq => exact memOk_of_ended eq (put _)
    · next eq => simpa [keep] using memOk_of_failed eq (put _)

@[simp] theorem collBatch_memOk (col : Fin 8) (e : ℕ) (r : CReq) (s : State) (wf : s.memOk) : (collBatch col e r s).memOk := by
  unfold collBatch; split
  · simp [wf]
  · extract_lets h
    split
    · simpa using wf
    · split
      · exact wf
      · split <;> simp [wf]

@[simp] theorem lostBeat_mem (col : Fin 8) (e : ℕ) (r : CReq) (s : State) : (lostBeat col e r s).mem = s.mem := by
  unfold lostBeat; repeat' split
  all_goals simp

@[simp] theorem execBatch_canonical (col e : ℕ) (s : State) (wf : s.memOk) : Canonical (execBatch col e s) := by
  unfold execBatch; dsimp only; repeat' split
  all_goals simp [wf]

@[simp] theorem execRequestComplete_canonical (col e : ℕ) (s : State) (wf : s.memOk) : Canonical (execRequestComplete col e s) := by
  unfold execRequestComplete; dsimp only; repeat' split
  all_goals simp [wf]

@[simp] theorem execContribution_canonical (col k : ℕ) (s : State) (wf : s.memOk) : Canonical (execContribution col k s) := by
  unfold execContribution; dsimp only; repeat' split
  all_goals simp [wf]

/-! ## Barrier units (R101, R102) -/

@[simp] theorem putPkt_mem (p : Pkt) (s : State) : (putPkt p s).mem = s.mem := rfl

@[simp] theorem dropPkt_mem (id : ℕ) (s : State) : (dropPkt id s).mem = s.mem := rfl

@[simp] theorem queuePkt_mem (p : Pkt) (s : State) : (queuePkt p s).mem = s.mem := rfl

@[simp] theorem barLost_mem (p : Pkt) (s : State) : (barLost p s).mem = s.mem := by
  unfold barLost; split
  · simp
  · extract_lets t
    split
    · rw [actAs_mem fun u => retire_mem _ u, updHart_mem, dropPkt_mem]
    · rw [updHart_mem, dropPkt_mem]
  · split <;> simp

@[simp] theorem contributed_mem (p : Pkt) (s : State) : (contributed p s).mem = s.mem := by unfold contributed; split <;> rfl

@[simp] theorem execInitialise_canonical (id : ℕ) (s : State) (wf : s.memOk) : Canonical (execInitialise id s) := by
  unfold execInitialise; split
  · simpa using wf
  · split
    · refine canonical_ite (by simpa using wf) (canonical_ite (by simpa using wf) ?_)
      exact canonical_next.mpr (memOk_ite (actAs_memOk (fun t wf => by simpa using wf) _ _ (by simpa using wf)) (by simpa using wf))
    · simpa using wf

@[simp] theorem execCredit_canonical (id : ℕ) (s : State) (wf : s.memOk) : Canonical (execCredit id s) := by
  unfold execCredit; repeat' split
  all_goals simp [wf]

@[simp] theorem execArrive_canonical (id : ℕ) (s : State) (wf : s.memOk) : Canonical (execArrive id s) := by
  unfold execArrive; repeat' split
  all_goals simp [wf]

@[simp] theorem execErrorArrive_canonical (id : ℕ) (s : State) (wf : s.memOk) : Canonical (execErrorArrive id s) := by
  unfold execErrorArrive; repeat' split
  all_goals simp [wf]

@[simp] theorem execQuery_canonical (id : ℕ) (s : State) (wf : s.memOk) : Canonical (execQuery id s) := by
  unfold execQuery; repeat' split
  all_goals simp [wf]

/-! ## The cache walker (R68, R70) -/

@[simp] theorem cleanLine_memOk (c : ℕ) (l : CWLine) (s : State) (wf : s.memOk) : (cleanLine c l s).memOk := by simp [cleanLine, wf]

@[simp] theorem cleanSlices_mem (col : Fin 8) (lo hi : ℕ) (s : State) : (cleanSlices col lo hi s).2.mem = s.mem := by
  refine List.foldlRecOn (motive := fun (t : Bool × State) => t.2.mem = s.mem) _ _ rfl fun t kept x _ => ?_
  split <;> simp [kept]

@[simp] theorem walkLines_memOk (col : Fin 8) (p : WPiece) (s : State) (wf : s.memOk) : (walkLines col p s).2.memOk := by
  unfold walkLines; extract_lets isDram t u
  split
  · exact wf
  · split
    · exact wf
    · have cleaned : t.memOk := foldl_memOk (fun v x wf => memOk_ite (cleanLine_memOk _ _ v wf) wf) _ wf
      have dropped : u.memOk := memOk_ite (foldl_memOk (fun v x wf => evictLine_memOk _ _ v wf) _ cleaned) cleaned
      simpa using dropped

@[simp] theorem walkPiece_memOk (col : Fin 8) (p : WPiece) (s : State) (wf : s.memOk) : (walkPiece col p s).2.memOk := by simp [walkPiece, wf]

@[simp] theorem execWalkerPiece_canonical (col : ℕ) (s : State) (wf : s.memOk) : Canonical (execWalkerPiece col s) := by
  unfold execWalkerPiece
  refine canonical_ite (canonical_fault _) ?_
  extract_lets k
  split
  · simpa using wf
  · next p r _ =>
    refine canonical_ite (by simpa using wf) ?_
    have walked := walkPiece_memOk k p s wf
    split
    next bad t eq =>
    have wf := memOk_of_snd eq walked
    extract_lets err t1 t2 more
    have kept : t2.memOk := by simpa [t2, t1] using wf
    clear_value t2
    refine canonical_ite (canonical_next.mpr kept) (canonical_ite (by simpa using kept) (canonical_ite ?_ (canonical_next.mpr kept)))
    exact canonical_next.mpr (actAs_memOk (fun u wf => by simpa using wf) _ _ kept)

/-! ## The range compactor (R43, R44) -/

@[simp] theorem dropMoved_mem (h : ℕ) (d : RDesc) (s : State) : (dropMoved h d s).mem = s.mem := by
  unfold dropMoved; extract_lets lo hi t keep hit u
  rw [wakeAll_mem]
  exact foldl_mem (fun v c => dropSpan_mem _ _ _ _ v) _ _

@[simp] theorem copyRange_memOk (col : Fin 8) (d : RDesc) (t : ℕ) (s : State) (wf : s.memOk) : (copyRange col d t s).2.memOk := by
  unfold copyRange; split
  · exact wf
  · refine List.foldlRecOn (motive := fun (r : Bool × State) => r.2.memOk) _ _ wf fun r wf i _ => ?_
    split
    · exact wf
    · extract_lets src
      have read := ownerRead_memOk true (src * 64) 64 r.2 wf
      split
      · next eq => exact memOk_of_snd eq read
      · next eq => simp [memOk_of_snd eq read]

@[simp] theorem dropOld_mem (col : Fin 8) (d : RDesc) (tgt : ℕ) (s : State) : (dropOld col d tgt s).mem = s.mem :=
  foldl_mem (fun t _ => updCore_mem t _ _) _ _

@[simp] theorem endMove_mem (col : Fin 8) (st : BitVec 64) (s : State) : (endMove col st s).mem = s.mem := by simp [endMove]

@[simp] theorem execMove_canonical (col : ℕ) (s : State) (wf : s.memOk) : Canonical (execMove col s) := by
  unfold execMove; split
  · simp
  · extract_lets k c h vb t step drained edited lost
    have editedOk : ∀ i {u}, edited i s = some u → u.memOk := fun i u eq => by
      unfold edited at eq; split at eq
      · cases eq
      · cases eq; simp [wf]
    have lostOk : (lost s).memOk := by simp [lost, wf]
    clear_value edited lost
    split
    · simpa using wf
    · split
      · split <;> simpa using wf
      · next i _ =>
        extract_lets d n
        split
        · split
          · simpa using wf
          · split
            · simpa using lostOk
            · next u edit =>
              have u_ok := editedOk i edit
              split
              · simpa using u_ok
              · simp [step, closeEdit_wf, storeDesc_wf, u_ok]
        · split
          · split
            · simpa using wf
            · simp [step, copyRange_memOk, wf]
          · split
            · split
              · simpa using wf
              · split
                · simpa using lostOk
                · next u edit => simp [step, closeEdit_wf, storeDesc_wf, editedOk i edit]
            · split
              · split
                · simpa using wf
                · split <;> simpa [step] using wf
              · split <;> simpa using wf

/-! ## The omega network -/

theorem mergePkts_mem (j : ℕ) (p q : Pkt) (s : State) {u : State} (eq : mergePkts j p q s = some u) : u.mem = s.mem := by
  unfold mergePkts at eq; split at eq
  · cases eq
  · obtain ⟨x, -, rfl⟩ := Option.map_eq_some_iff.mp eq
    simp

@[simp] theorem answered_mem (p : Pkt) (v : BitVec 64) (err : Bool) (s : State) : (answered p v err s).mem = s.mem := rfl

@[simp] theorem performPkt_memOk (p : Pkt) (s : State) (wf : s.memOk) : (performPkt p s).memOk := by unfold performPkt; split <;> simp [wf]

@[simp] theorem noteConflict_mem (p : Pkt) (s : State) : (noteConflict p s).mem = s.mem := by unfold noteConflict; dsimp only; split <;> rfl

@[simp] theorem leaveOmega_memOk (p : Pkt) (s : State) (wf : s.memOk) : (leaveOmega p s).memOk := by
  unfold leaveOmega; split
  · split <;> simp [wf]
  · split <;> simp [wf]

@[simp] theorem execSwitchHop_canonical (id : ℕ) (s : State) (wf : s.memOk) : Canonical (execSwitchHop id s) := by
  unfold execSwitchHop; split
  · simpa using wf
  · next p _ =>
    split
    · next j _ =>
      refine canonical_ite (by simpa using wf) ?_
      split
      · next t merged =>
        obtain ⟨q, -, merged⟩ := List.exists_of_findSome?_eq_some merged
        simpa [mergePkts_mem _ _ _ _ merged] using wf
      · extract_lets slice e o opened
        clear_value e
        split
        split
        · simp [wf]
        · extract_lets entry t
          have entered : t.memOk := wf
          clear_value t
          simp [entered]
        · simp [wf]
    · simpa using wf

@[simp] theorem execReplyEntryExpiry_canonical (k : ℕ) (s : State) (wf : s.memOk) : Canonical (execReplyEntryExpiry k s) := by
  unfold execReplyEntryExpiry; repeat' split
  all_goals simp [wf]

@[simp] theorem delivered_mem (p : Pkt) (s : State) : (delivered p s).mem = s.mem := by
  unfold delivered; extract_lets t
  have dropped : t.mem = s.mem := dropPkt_mem _ _
  split
  · rw [updCore_mem, dropped]
  · split
    · exact dropped
    · rw [actAs_mem, dropped]
      intro u
      dsimp only
      split <;> simp

@[simp] theorem execReplyHop_canonical (id : ℕ) (s : State) (wf : s.memOk) : Canonical (execReplyHop id s) := by
  unfold execReplyHop; repeat' split
  all_goals simp [wf]

/-! ## The write queue -/

@[simp] theorem execWriteQueueDrain_canonical (core : ℕ) (s : State) (wf : s.memOk) : Canonical (execWriteQueueDrain core s) := by
  unfold execWriteQueueDrain
  refine canonical_ite (canonical_fault _) ?_
  split
  · simpa using wf
  · extract_lets ln cached awaiting leaving t k pk kind dst held u
    refine canonical_ite (by simpa using wf) ?_
    have kept : u.memOk := by unfold u; simp [t, wf]
    simpa using kept

/-! ## Slices and banks -/

@[simp] theorem execSliceRequest_canonical (col slice : ℕ) (s : State) (wf : s.memOk) : Canonical (execSliceRequest col slice s) := by
  unfold execSliceRequest
  refine canonical_ite (canonical_fault _) ?_
  extract_lets k last first
  refine canonical_ite (by simpa using wf) ?_
  split
  · simpa using wf
  · exact canonical_next.mpr (performPkt_memOk _ _ (by simpa using wf))

@[simp] theorem execBankAccess_canonical (core way : ℕ) (s : State) (wf : s.memOk) : Canonical (execBankAccess core way s) := by
  unfold execBankAccess
  refine canonical_ite (canonical_fault _) ?_
  extract_lets turn first
  refine canonical_ite (by simpa using wf) ?_
  split
  · simpa using wf
  · exact canonical_next.mpr (performPkt_memOk _ _ wf)

@[simp] theorem execTimedRetry_canonical (core : ℕ) (slot : BitVec 3) (s : State) (wf : s.memOk) : Canonical (execTimedRetry core slot s) := by
  unfold execTimedRetry; dsimp only; repeat' split
  all_goals simp [wf]

/-! ## Acknowledgements and probes -/

@[simp] theorem execAcknowledgement_canonical (id : ℕ) (s : State) (wf : s.memOk) : Canonical (execAcknowledgement id s) := by
  unfold execAcknowledgement; repeat' split
  all_goals simp [wf]

@[simp] theorem execProbe_canonical (id : ℕ) (s : State) (wf : s.memOk) : Canonical (execProbe id s) := by
  unfold execProbe; repeat' split
  all_goals simp [wf]

@[simp] theorem execEcho_canonical (id : ℕ) (s : State) (wf : s.memOk) : Canonical (execEcho id s) := by
  unfold execEcho; repeat' split
  all_goals simp [wf]

/-! ## The column router (R419, R462) -/

@[simp] theorem barRoute_mem (p : Pkt) (s : State) : (barRoute p s).mem = s.mem := by
  unfold barRoute; repeat' split
  all_goals simp

@[simp] theorem routePkt_memOk (p : Pkt) (s : State) (wf : s.memOk) : (routePkt p s).memOk := by
  cases k : p.kind <;> simp only [routePkt, k]
  case probe | store | vstore | red | am | loadC | gather => split <;> simp [wf]
  all_goals simp [wf]

/-! ## Tokens (R61 to R64) -/

@[simp] theorem tokensDone_mem (p : Pkt) (s : State) : (tokensDone p s).mem = s.mem := by unfold tokensDone; split <;> rfl

@[simp] theorem l0FromWay_mem (c ln : ℕ) (s : State) : (l0FromWay c ln s).mem = s.mem := by
  unfold l0FromWay; repeat' split
  all_goals simp

@[simp] theorem tokenLoaded_mem (p : Pkt) (lost : Bool) (s : State) : (tokenLoaded p lost s).mem = s.mem := by
  unfold tokenLoaded; dsimp only; split
  · simp
  · rw [actAs_mem fun t => by split <;> simp, tokensDone_mem]

@[simp] theorem tokenStored_mem (p : Pkt) (lost : Bool) (s : State) : (tokenStored p lost s).mem = s.mem := by simp [tokenStored]

@[simp] theorem execTransientRead_canonical (id : ℕ) (s : State) (wf : s.memOk) : Canonical (execTransientRead id s) := by
  unfold execTransientRead; split
  · simpa using wf
  · split
    · simp [wf]
    · simpa using wf

@[simp] theorem execTransientWrite_canonical (id : ℕ) (s : State) (wf : s.memOk) : Canonical (execTransientWrite id s) := by
  unfold execTransientWrite; split
  · simpa using wf
  · split
    · simp [wf]
    · simpa using wf

@[simp] theorem execEviction_canonical (core line : ℕ) (s : State) (wf : s.memOk) : Canonical (execEviction core line s) := by
  simp [execEviction, wf]

@[simp] theorem execTransientFailure_canonical (id : ℕ) (s : State) (wf : s.memOk) : Canonical (execTransientFailure id s) := by
  unfold execTransientFailure; repeat' split
  all_goals simp [wf]

@[simp] theorem execPersistentRequest_canonical (id : ℕ) (s : State) (wf : s.memOk) : Canonical (execPersistentRequest id s) := by
  unfold execPersistentRequest; repeat' split
  all_goals simp [wf]

@[simp] theorem execDeactivation_canonical (id : ℕ) (s : State) (wf : s.memOk) : Canonical (execDeactivation id s) := by
  unfold execDeactivation; repeat' split
  all_goals simp [wf]

@[simp] theorem execCountdownExpiry_canonical (core : ℕ) (slot : BitVec 3) (dest : ℕ) (s : State) (wf : s.memOk) :
    Canonical (execCountdownExpiry core slot dest s) := by simp [execCountdownExpiry, wf]

end Sys2Proof.Machine
end

section
/-!
PROOFS. Memory kept in canonical form: retries, saved contexts, the distributor, Nightfall, debug, reset and the host; obligation O23.
-/

namespace Sys2Proof.Machine
set_option Elab.async false

/-! ## The range walker and its retries -/

@[simp] theorem execRangeSearch_canonical (core : ℕ) (slot : BitVec 3) (va : BitVec 64) (s : State) (wf : s.memOk) :
    Canonical (execRangeSearch core slot va s) := by simp [execRangeSearch, wf]

@[simp] theorem execHeaderReread_canonical (core : ℕ) (slot : BitVec 3) (s : State) (wf : s.memOk) :
    Canonical (execHeaderReread core slot s) := by
  unfold execHeaderReread; repeat' split
  all_goals simp [wf]

@[simp] theorem execEditRetry_canonical (core : ℕ) (slot : BitVec 3) (s : State) (wf : s.memOk) : Canonical (execEditRetry core slot s) := by
  unfold execEditRetry; repeat' split
  all_goals simp [wf]

@[simp] theorem execLockRetry_canonical (core : ℕ) (slot : BitVec 3) (s : State) (wf : s.memOk) : Canonical (execLockRetry core slot s) := by
  unfold execLockRetry; repeat' split
  all_goals simp [wf]

/-! ## Drop requests (R39 to R41) -/

@[simp] theorem execDropRequest_canonical (id core : ℕ) (s : State) (wf : s.memOk) : Canonical (execDropRequest id core s) := by
  unfold execDropRequest; repeat' split
  all_goals simp [wf]

@[simp] theorem execEngineDrop_canonical (id col : ℕ) (s : State) (wf : s.memOk) : Canonical (execEngineDrop id col s) := by
  unfold execEngineDrop; repeat' split
  all_goals simp [wf]

@[simp] theorem execDropAcknowledgement_canonical (id : ℕ) (s : State) (wf : s.memOk) : Canonical (execDropAcknowledgement id s) := by
  unfold execDropAcknowledgement; split
  · simpa using wf
  · split
    · dsimp only; split
      · simpa using wf
      · exact canonical_next.mpr (actAs_memOk (fun t wf => by simpa using wf) _ _ (by simpa using wf))
    · simpa using wf

@[simp] theorem execDrop_canonical (core : ℕ) (s : State) (wf : s.memOk) : Canonical (execDrop core s) := by
  unfold execDrop; split
  · simp
  · split
    · simpa using wf
    · dsimp only; split
      · simpa using wf
      · exact canonical_next.mpr (actAs_memOk (fun t wf => by simpa using wf) _ _ (by simpa using wf))

@[simp] theorem execDdrop_canonical (core : ℕ) (s : State) (wf : s.memOk) : Canonical (execDdrop core s) := by simp [execDdrop, wf]

@[simp] theorem execIdrop_canonical (core : ℕ) (s : State) (wf : s.memOk) : Canonical (execIdrop core s) := by simp [execIdrop, wf]

/-! ## Beats (R71) -/

@[simp] theorem lose_mem (p : Pkt) (s : State) : (lose p s).mem = s.mem := by
  cases kind : p.kind <;> simp only [lose, kind]
  case store | vstore | red | am | loadC | barQuery | tokRead | msg => split <;> simp
  all_goals simp [actAs]

@[simp] theorem unitBeat_canonical (unit src : ℕ) (ok : Bool) (s : State) (wf : s.memOk) : Canonical (unitBeat unit src ok s) := by
  simp [unitBeat, wf]

@[simp] theorem execBeatRetransmission_canonical (b : Beat) (ok : Bool) (s : State) (wf : s.memOk) :
    Canonical (execBeatRetransmission b ok s) := by
  unfold execBeatRetransmission; repeat' split
  all_goals simp [wf]

/-! ## savev and rstv (R417) -/

theorem wayTo_mem (c g : ℕ) (flit : Bool) (s : State) {r : Option Cause × State} (eq : wayTo c g flit s = some r) : r.2.mem = s.mem := by
  unfold wayTo at eq; split at eq
  · split at eq
    · cases eq; rfl
    · split at eq
      · cases eq; rfl
      · split at eq <;> cases eq
        simp
  · split at eq <;> cases eq
    simp
  · cases eq; rfl
theorem wayTo_memOk {c g : ℕ} {flit : Bool} {s t : State} {z : Option Cause} (way : wayTo c g flit s = some (z, t)) (wf : s.memOk) : t.memOk := by
  have same : t.mem = s.mem := wayTo_mem _ _ _ _ way
  rwa [State.memOk, same]

@[simp] theorem imageLineOut_memOk (g x : ℕ) (va : BitVec 64) (s : State) (wf : s.memOk) : (imageLineOut g x va s).memOk := by
  unfold imageLineOut; dsimp only; split
  · exact wf
  · split
    · exact wf
    · next way => exact wayTo_memOk way wf
    · next t way =>
      have written := ownerWrite_memOk false g 64 x t (wayTo_memOk way wf)
      split
      · next write => exact memOk_of_snd write written
      · next write => simpa using memOk_of_snd write written

@[simp] theorem imageOut_memOk (va : BitVec 64) (l : List (ℕ × ℕ)) (s : State) (wf : s.memOk) : (imageOut va l s).memOk := by
  induction l generalizing s with
  | nil => exact wf
  | cons p l ih =>
    exact Res.andThen_memOk (xlate_memOk _ _ _ wf) fun _ _ wf => Res.andThen_memOk (imageLineOut_memOk _ _ _ _ wf) fun _ _ wf => ih _ wf

@[simp] theorem imageIn_memOk (va : BitVec 64) (l : List ℕ) (acc : List (ℕ × ℕ)) (s : State) (wf : s.memOk) : (imageIn va l acc s).memOk := by
  induction l generalizing acc s with
  | nil => exact wf
  | cons off l ih =>
    refine Res.andThen_memOk (xlate_memOk _ _ _ wf) fun p t wf => resOk_ite wf ?_
    split
    · exact wf
    · next way => exact wayTo_memOk way wf
    · next way =>
      have read := ownerRead_memOk false (redirect t (myCore t).job p.1) 64 _ (wayTo_memOk way wf)
      split
      · next r => exact memOk_of_snd r read
      · next r => exact ih _ _ (memOk_of_snd r read)

theorem imageInstr_memOk {fn : ℕ} {a d : BitVec 5} {s : State} {k : BitVec 64 → State → Res Unit} (wf : s.memOk)
    (hk : ∀ va t, t.memOk → (k va t).memOk) : (imageInstr fn a d s k).memOk := by
  refine resOk_ite wf (resOk_ite wf (resOk_ite ?_ (resOk_ite ?_ (resOk_ite ?_ (hk _ s wf)))))
  all_goals simp [wf]

@[simp] theorem execSavev_canonical (a d : BitVec 5) (s : State) (wf : s.memOk) : Canonical (execSavev a d s) :=
  finish_canonical (imageInstr_memOk wf fun va t wf =>
    Res.andThen_memOk (imageOut_memOk _ _ _ (by simpa using wf)) fun _ _ wf => by simpa using wf)

@[simp] theorem execRstv_canonical (a d : BitVec 5) (s : State) (wf : s.memOk) : Canonical (execRstv a d s) :=
  finish_canonical (imageInstr_memOk wf fun va t wf =>
    Res.andThen_memOk (imageIn_memOk _ _ _ _ wf) fun _ _ wf => resOk_ite (by simpa using wf) (resOk_ite (by simpa using wf)
      (Res.andThen_memOk (imageIn_memOk _ _ _ _ wf) fun _ _ wf => by simpa using wf)))

/-! ## Stopping a core (R405) -/

@[simp] theorem freeCore_memOk (c : ℕ) (s : State) (wf : s.memOk) : (freeCore c s).memOk := by simp [freeCore, wf]

/-! ## The core save area (R408, R409) -/

@[simp] theorem writeArea_memOk (c a : ℕ) (s : State) (wf : s.memOk) : (writeArea c a s).memOk :=
  foldl_memOk (fun t _ wf => ownerWrite_memOk _ _ _ _ t wf) _ wf

theorem frameAt_memOk (c : ℕ) (sys : Bool) (rights : BitVec 5) (va : BitVec 64) (i : ℕ) (s : State) (wf : s.memOk)
    {r : Except Cause (Bool × ℕ) × State} (eq : frameAt c sys rights va i s = some r) : r.2.memOk := by
  have kept := translate_memOk s c sys rights va wf
  unfold frameAt at eq; split at eq
  · next walked =>
    have kept := memOk_of_snd walked kept
    dsimp only at eq; split at eq
    · cases eq; exact kept
    · obtain ⟨⟨z, u⟩, way, rfl⟩ := Option.map_eq_some_iff.mp eq
      exact wayTo_memOk way kept
  · next walked => cases eq; exact memOk_of_snd walked kept
  · cases eq

theorem pushFrames_memOk (c : ℕ) (k : Fin 8) (s : State) (wf : s.memOk) {r : Option Cause × State} (eq : pushFrames c k s = some r) :
    r.2.memOk := by
  unfold pushFrames at eq; dsimp only at eq; split at eq
  · cases eq; exact wf
  · refine List.foldlRecOn (motive := fun (r : Option (Option Cause × State)) => ∀ p, r = some p → p.2.memOk) _ _ ?_ (fun r ok i _ => ?_) _ eq
    · rintro _ ⟨⟩; exact wf
    · intro p eq
      split at eq
      · next t =>
        split at eq
        · next coh g u frame =>
          have written x := ownerWrite_memOk coh g 1 x u (frameAt_memOk _ _ _ _ _ t (ok _ rfl) frame)
          cases eq; split <;> exact written _
        · next frame => cases eq; exact frameAt_memOk _ _ _ _ _ t (ok _ rfl) frame
        · cases eq
      · exact ok _ eq

@[simp] theorem endSave_mem (c status slot : ℕ) (cause : BitVec 8) (s : State) : (endSave c status slot cause s).mem = s.mem := rfl

theorem pushAll_memOk (cs : List ℕ) (s : State) (wf : s.memOk) {r : Option (ℕ × BitVec 8) × State} (eq : pushAll cs s = some r) :
    r.2.memOk := by
  refine List.foldlRecOn (motive := fun (r : Option (Option (ℕ × BitVec 8) × State)) => ∀ p, r = some p → p.2.memOk) _ _ ?_
    (fun r ok x _ => ?_) _ eq
  · rintro _ ⟨⟩; exact wf
  · intro p eq
    dsimp only at eq; split at eq
    · next t =>
      split at eq
      · cases eq
      · next push => cases eq; exact pushFrames_memOk _ _ t (ok _ rfl) push
      · next push => cases eq; exact pushFrames_memOk _ _ t (ok _ rfl) push
    · exact ok _ eq

@[simp] theorem execSave_canonical (core : ℕ) (s : State) (wf : s.memOk) : Canonical (execSave core s) := by
  unfold execSave; split
  · simp
  · extract_lets q cs
    refine canonical_ite (by simpa using wf) (canonical_ite (by simpa using wf) (canonical_ite (by simpa using wf)
      (canonical_ite (by simpa using wf) (canonical_ite (by simpa using wf) ?_))))
    split
    · simpa using wf
    · next push => simpa using pushAll_memOk _ s wf push
    · next t push =>
      have pushed : t.memOk := pushAll_memOk _ s wf push
      rw [canonical_next, State.memOk, endSave_mem]
      refine foldl_memOk (fun t _ wf => freeCore_memOk _ t wf) _ (foldl_memOk (fun t _ wf => ?_) _ (foldl_memOk (fun t _ wf => ?_) _ pushed))
      · split <;> simp [wf]
      · simpa using wf

/-! ## Restoring (R412) -/

@[simp] theorem resumeHart_mem (c : ℕ) (k : Fin 8) (s : State) : (resumeHart c k s).mem = s.mem := by
  unfold resumeHart; dsimp only; split
  · split
    · rfl
    · rw [actAs_mem fun t => takeTrap_mem _ _ _ t, updHart_mem]
  · rfl

theorem popFrames_memOk (c : ℕ) (w : ℕ → BitVec 64) (s : State) (wf : s.memOk) {r : Option Cause × List Frame × State}
    (eq : popFrames c w s = some r) : r.2.2.memOk := by
  unfold popFrames at eq; extract_lets depth frame deep at eq
  have deepOk : ∀ p, deep = some p → p.2.2.memOk := by
    refine List.foldlRecOn (motive := fun (r : Option (Option Cause × ℕ × State)) => ∀ p, r = some p → p.2.2.memOk) _ _ ?_ fun r ok i _ => ?_
    · intro p eq
      split at eq <;> (cases eq; exact wf)
    · intro p eq
      split at eq
      · next t =>
        split at eq
        · next coh g u frame =>
          have read := ownerRead_memOk coh g 1 u (frameAt_memOk _ _ _ _ _ t (ok _ rfl) frame)
          split at eq
          · next r => cases eq; exact memOk_of_snd r read
          · next r => cases eq; exact memOk_of_snd r read
        · next frame => cases eq; exact frameAt_memOk _ _ _ _ _ t (ok _ rfl) frame
        · cases eq
      · exact ok _ eq
  clear_value deep
  split at eq
  · cases eq
  · cases eq; exact deepOk _ rfl

theorem moveBytes_wf (src dst n : ℕ) {m : List Host.Cell} (wf : Memory.wf m = true) : Memory.wf (moveBytes src dst n m) = true :=
  List.foldlRecOn (motive := fun m => Memory.wf m = true) _ _ (wf_memClear _ _ _ wf) fun m wf _ _ => wf_memPut m _ _ wf
@[simp] theorem loadCore_memOk (c a : ℕ) (s : State) (wf : s.memOk) : (loadCore c a s).memOk := by
  unfold loadCore
  exact List.foldlRecOn (motive := fun m => Memory.wf m = true) _ _ (applyWays_memOk _ _ _ s wf) fun _ wf _ _ => moveBytes_wf _ _ _ wf

theorem loadHarts_memOk (c a : ℕ) (s : State) (wf : s.memOk) {r : Option (ℕ × BitVec 8) × State} (eq : loadHarts c a s = some r) :
    r.2.memOk := by
  refine List.foldlRecOn (motive := fun (r : Option (Option (ℕ × BitVec 8) × State)) => ∀ p, r = some p → p.2.memOk) _ _ ?_
    (fun r ok k _ => ?_) _ eq
  · rintro _ ⟨⟩; exact wf
  · intro p eq
    split at eq
    · next t =>
      dsimp only at eq; split at eq
      · cases eq
      · next pop => cases eq; exact popFrames_memOk _ _ t (ok _ rfl) pop
      · next pop =>
        have popped := popFrames_memOk _ _ t (ok _ rfl) pop
        cases eq; split <;> simpa using popped
    · exact ok _ eq

@[simp] theorem execRestore_canonical (core : ℕ) (s : State) (wf : s.memOk) : Canonical (execRestore core s) := by
  unfold execRestore; split
  · simp
  · extract_lets q area lines
    refine canonical_ite (by simpa using wf) (canonical_ite (by simpa using wf) ?_)
    split
    · simpa using wf
    · split
      · simp [wf]
      · extract_lets cs size s' t r
        have read : s'.memOk := foldl_memOk (fun t _ wf => readLines_memOk _ _ t wf) _ wf
        have loaded : t.memOk := foldl_memOk (fun t _ wf => loadCore_memOk _ _ t wf) _ read
        have harts : ∀ p, r = some p → p.2.memOk := by
          refine List.foldlRecOn (motive := fun (r : Option (Option (ℕ × BitVec 8) × State)) => ∀ p, r = some p → p.2.memOk) _ _ ?_
            fun r ok c _ => ?_
          · rintro _ ⟨⟩; exact loaded
          · intro p eq
            split at eq
            · exact loadHarts_memOk _ _ _ (ok _ rfl) eq
            · exact ok _ eq
        clear_value s' t r
        refine canonical_ite (by simpa using wf) (canonical_ite (by simpa using wf) (canonical_ite (by simpa using read)
          (canonical_ite (by simpa using read) (canonical_ite (by simpa using wf) ?_))))
        split
        · simpa using wf
        · simpa using wf
        · simpa using harts _ rfl

/-! ## Migration (R418 to R420) -/

@[simp] theorem streamCore_memOk (x y : ℕ) (s : State) (wf : s.memOk) : (streamCore x y s).memOk := by
  unfold streamCore
  exact List.foldlRecOn (motive := fun m => Memory.wf m = true) _ _ (applyWays_memOk _ _ _ s wf) fun _ wf _ _ => moveBytes_wf _ _ _ wf

@[simp] theorem repoint_memOk (x y : ℕ) (s : State) (wf : s.memOk) : (repoint x y s).memOk := by
  unfold repoint; dsimp only
  rw [State.memOk, updCol_mem, updCol_mem]
  refine foldl_memOk (fun t col wf => ?_) _ wf
  rw [State.memOk, updCol_mem]
  split
  · split <;> simp [wf]
  · exact wf

@[simp] theorem moveCore_memOk (x y : ℕ) (s : State) (wf : s.memOk) : (moveCore x y s).memOk :=
  freeCore_memOk _ _ (repoint_memOk _ _ _ (streamCore_memOk _ _ _ (by simpa using wf)))

@[simp] theorem resumeAll_mem (y : ℕ) (s : State) : (resumeAll y s).mem = s.mem := foldl_mem (fun _ _ => resumeHart_mem _ _ _) _ _

@[simp] theorem execMigrate_canonical (b a d : BitVec 5) (s : State) (wf : s.memOk) : Canonical (execMigrate b a d s) := by
  unfold execMigrate; extract_lets x y
  refine finish_canonical (resOk_ite wf (settled_memOk wf fun t wf => ?_))
  have moved := moveCore_memOk x y t wf
  refine resOk_ite (by simpa using wf) (resOk_ite (by simpa using wf) (resOk_ite ?_ ?_))
  · simpa [actAs] using moved
  · simpa using moved

@[simp] theorem execFwdclr_canonical (b a : BitVec 5) (s : State) (wf : s.memOk) : Canonical (execFwdclr b a s) := by simp [execFwdclr, wf]

/-! ## The router (R419, R462) -/

@[simp] theorem refuseMsg_mem (p : Pkt) (s : State) : (refuseMsg p s).mem = s.mem := by unfold refuseMsg; split <;> rfl

@[simp] theorem endMsg_mem (p : Pkt) (s : State) : (endMsg p s).mem = s.mem := by unfold endMsg; split <;> rfl

@[simp] theorem routeMsg_memOk (p : Pkt) (l : BitVec 20) (s : State) (wf : s.memOk) : (routeMsg p l s).memOk := by
  have resolved := resolveCore_memOk (colOf p.core) p.job l.toNat s wf
  unfold routeMsg; split
  · next r => simpa using memOk_of_snd r resolved
  · next r =>
    have kept := memOk_of_snd r resolved
    split
    · simpa using kept
    · split
      · simpa using kept
      · exact wf
  · next r => simpa using memOk_of_snd r resolved

@[simp] theorem execRoute_canonical (id : ℕ) (s : State) (wf : s.memOk) : Canonical (execRoute id s) := by
  unfold execRoute; repeat' split
  all_goals simp [wf]

/-! ## Barrier wires and time-outs -/

theorem completeWait_mem {f : State → State} (h : ∀ t, (f t).mem = t.mem) (c : ℕ) (k : Fin 8) (d : BitVec 5) (v : BitVec 64) (s : State) :
    (completeWait c k d v f s).mem = s.mem :=
  actAs_mem (fun t => by rw [done4_mem, h]) _ _ _

@[simp] theorem execWireCompletion_canonical (col : ℕ) (wire : BitVec 2) (k : ℕ) (s : State) (wf : s.memOk) :
    Canonical (execWireCompletion col wire k s) := by
  refine canonical_ite (by simp) (canonical_ite (by simpa using wf) (canonical_next.mpr ?_))
  refine foldl_memOk (fun t c wf => ?_) _ (foldl_memOk (fun t c wf => by dsimp only; split <;> simpa using wf) _ wf)
  refine foldl_memOk (fun t j wf => ?_) _ wf
  split
  · split
    · rw [State.memOk, completeWait_mem acquire_mem]; exact wf
    · exact wf
  · exact wf

@[simp] theorem execBarwTimeout_canonical (core : ℕ) (slot : BitVec 3) (s : State) (wf : s.memOk) : Canonical (execBarwTimeout core slot s) := by
  unfold execBarwTimeout; split
  · simp
  · dsimp only; split
    · split
      · rw [canonical_next, State.memOk, completeWait_mem (f := id) fun _ => rfl]; exact wf
      · simpa using wf
    · simpa using wf

@[simp] theorem execParkTimeout_canonical (core : ℕ) (slot : BitVec 3) (s : State) (wf : s.memOk) :
    Canonical (execParkTimeout core slot s) := by simp [execParkTimeout, wf]

/-! ## The distributor -/

@[simp] theorem execDecisionCycle_canonical (s : State) (wf : s.memOk) : Canonical (execDecisionCycle s) := by simp [execDecisionCycle, wf]

@[simp] theorem execContextSwitch_canonical (q : ℕ) (s : State) (wf : s.memOk) : Canonical (execContextSwitch q s) := by
  simp [execContextSwitch, wf]

@[simp] theorem execQtail_canonical (q : ℕ) (v : BitVec 64) (s : State) (wf : s.memOk) : Canonical (execQtail q v s) := by simp [execQtail, wf]

@[simp] theorem execLoad_canonical (q : ℕ) (s : State) (wf : s.memOk) : Canonical (execLoad q s) := by simp [execLoad, wf]

@[simp] theorem execStageFeed_canonical (job : BitVec 32) (n : ℕ) (s : State) (wf : s.memOk) : Canonical (execStageFeed job n s) := by
  simp [execStageFeed, wf]

@[simp] theorem execTakeRecord_canonical (core : ℕ) (s : State) (wf : s.memOk) : Canonical (execTakeRecord core s) := by
  simp [execTakeRecord, wf]

@[simp] theorem execBalancer_canonical (job : BitVec 32) (n : ℕ) (s : State) (wf : s.memOk) : Canonical (execBalancer job n s) := by
  simp [execBalancer, wf]

/-! ## Messages and spawn requests -/

@[simp] theorem execTakeMessage_canonical (core : ℕ) (s : State) (wf : s.memOk) : Canonical (execTakeMessage core s) := by
  simp [execTakeMessage, wf]

theorem placeMsg_mem (t : ℕ) (job : BitVec 32) (m : Msg) (s : State) {u : State} (eq : placeMsg t job m s = some u) : u.mem = s.mem := by
  unfold placeMsg at eq; dsimp only at eq; split at eq <;> cases eq
  simp

@[simp] theorem outsideMsg_memOk (port : ℕ) (job : BitVec 32) (l : BitVec 20) (m : Msg) (s : State) (wf : s.memOk) :
    (outsideMsg port job l m s).memOk := by
  unfold outsideMsg; extract_lets col answers told
  have toldOk : ∀ t, t.memOk → (told t).memOk := fun t wf => by simpa [told] using wf
  clear_value told
  have resolved := resolveCore_memOk col job l.toNat s wf
  refine memOk_ite wf ?_
  split
  · next t u r =>
    have kept := memOk_of_snd r resolved
    refine toldOk _ (memOk_ite kept ?_)
    cases place : placeMsg t job m u with
    | none => exact kept
    | some v => simpa [placeMsg_mem _ _ _ _ place] using kept
  · next r =>
    have kept := toldOk _ (memOk_of_snd r resolved)
    exact memOk_ite (by simpa using kept) kept
  · next r => exact toldOk _ (memOk_of_snd r resolved)

@[simp] theorem execMessageArrival_canonical (a : Arrival) (s : State) (wf : s.memOk) : Canonical (execMessageArrival a s) := by
  unfold execMessageArrival; dsimp only; split
  · simp [wf]
  · split
    · simpa using wf
    · split
      · split
        · simpa using wf
        · split
          · next place => simpa [placeMsg_mem _ _ _ _ place] using wf
          · simpa using wf
      · split <;> simpa using wf
      · simpa using wf

@[simp] theorem execMessageRetry_canonical (id : ℕ) (s : State) (wf : s.memOk) : Canonical (execMessageRetry id s) := by
  unfold execMessageRetry; repeat' split
  all_goals simp [wf]

@[simp] theorem execSpawnRequest_canonical (id : ℕ) (s : State) (wf : s.memOk) : Canonical (execSpawnRequest id s) := by
  unfold execSpawnRequest; dsimp only; repeat' split
  all_goals simp [wf]

@[simp] theorem execSpawnAnswer_canonical (id : ℕ) (s : State) (wf : s.memOk) : Canonical (execSpawnAnswer id s) := by
  unfold execSpawnAnswer; split
  · simpa using wf
  · split
    · dsimp only; split
      · exact canonical_next.mpr (actAs_memOk (fun t wf => spawnAnswered_memOk _ _ _ _ _ t wf) _ _ (by simpa using wf))
      · simpa using wf
    · simpa using wf

/-! ## A core's job (R363) -/

@[simp] theorem execCtxjobWrite_canonical (core : ℕ) (lc : Bool) (v : BitVec 64) (s : State) (wf : s.memOk) :
    Canonical (execCtxjobWrite core lc v s) := by simp [execCtxjobWrite, wf]

@[simp] theorem execJobChange_canonical (core : ℕ) (s : State) (wf : s.memOk) : Canonical (execJobChange core s) := by simp [execJobChange, wf]

/-! ## The micro-sequencer -/

@[simp] theorem execPass_canonical (core : ℕ) (s : State) (wf : s.memOk) : Canonical (execPass core s) :=
  canonical_ite (by simp) (canonical_next.mpr (memOk_ite (actAs_memOk (fun t wf => convoyPass_memOk t wf) _ _ wf) wf))

/-! ## Freezing (R429) -/

@[simp] theorem freezeCore_mem (c : ℕ) (s : State) : (freezeCore c s).mem = s.mem := rfl

@[simp] theorem sendAck_mem (leader : BitVec 8) (k : BitVec 2) (s : State) : (sendAck leader k s).mem = s.mem := by
  unfold sendAck; repeat' split
  all_goals simp

@[simp] theorem execWave_canonical (core : ℕ) (s : State) (wf : s.memOk) : Canonical (execWave core s) := by simp [execWave, wf]

@[simp] theorem execNfctlNfall_canonical (s : State) (wf : s.memOk) : Canonical (execNfctlNfall s) := by simp [execNfctlNfall, wf]

@[simp] theorem execNfctlJob_canonical (v : BitVec 64) (s : State) (wf : s.memOk) : Canonical (execNfctlJob v s) := by simp [execNfctlJob, wf]

@[simp] theorem execOriginFlit_canonical (o : OriginIn) (cause : BitVec 8) (s : State) (wf : s.memOk) : Canonical (execOriginFlit o cause s) :=
  canonical_next.mpr (memOk_ite wf (memOk_ite (by simpa using wf) (by simpa [startWave_mem] using wf)))

@[simp] theorem execNfctlDb_canonical (s : State) (wf : s.memOk) : Canonical (execNfctlDb s) := by simp [execNfctlDb, wf]

/-! ## Daybreak (R433 to R435) -/

@[simp] theorem dropProbes_mem (c : ℕ) (s : State) : (dropProbes c s).mem = s.mem := rfl

@[simp] theorem wakeCore_mem (c : ℕ) (mode : Bool) (wseq : BitVec 64) (s : State) : (wakeCore c mode wseq s).mem = s.mem := by
  unfold wakeCore; split <;> rfl

@[simp] theorem dayStep3_mem (s : State) : (dayStep3 s).mem = s.mem := by
  unfold dayStep3; dsimp only
  rw [raiseInt_mem]; split
  · rfl
  · rw [foldl_mem fun _ _ => wakeCore_mem _ _ _ _]

@[simp] theorem dayStep_mem (k : BitVec 2) (s : State) : (dayStep k s).mem = s.mem := by simp [dayStep]

@[simp] theorem leadStep_mem (k : BitVec 2) (s : State) : (leadStep k s).mem = s.mem := by simp [leadStep]

@[simp] theorem followStep_mem (dev : BitVec 8) (k : BitVec 2) (s : State) : (followStep dev k s).mem = s.mem := by simp [followStep]

@[simp] theorem execDaybreakStep_canonical (d : StepIn) (s : State) (wf : s.memOk) : Canonical (execDaybreakStep d s) := by
  simp [execDaybreakStep, wf]

@[simp] theorem execDaybreakAcknowledgement_canonical (a : AckIn) (s : State) (wf : s.memOk) :
    Canonical (execDaybreakAcknowledgement a s) := by simp [execDaybreakAcknowledgement, wf]

/-! ## The debug module (R436, R437) -/

@[simp] theorem cmdDone_mem (col : Fin 8) (err : BitVec 3) (v : BitVec 64) (s : State) : (cmdDone col err v s).mem = s.mem := rfl

@[simp] theorem execHaltreq_canonical (core : ℕ) (slot : BitVec 3) (s : State) (wf : s.memOk) : Canonical (execHaltreq core slot s) := by
  simp [execHaltreq, wf]

@[simp] theorem execResumereq_canonical (core : ℕ) (slot : BitVec 3) (s : State) (wf : s.memOk) : Canonical (execResumereq core slot s) := by
  simp [execResumereq, wf]

@[simp] theorem vwWrite_mem (core : ℕ) (sel : ℕ × ℕ × ℕ) (x : BitVec 64) (s : State) : (vwWrite core sel x s).mem = s.mem := by
  unfold vwWrite; dsimp only; split <;> rfl

theorem dbgWrite_mem (core : ℕ) (k : Fin 8) (n : ℕ) (v : BitVec 64) (s : State) {u : State} (eq : dbgWrite core k n v s = some u) :
    u.mem = s.mem := by
  unfold dbgWrite at eq; dsimp only at eq; split at eq
  · repeat' split at eq
    all_goals cases eq
    all_goals simp
  · repeat' split at eq
    all_goals cases eq
    all_goals simp

@[simp] theorem execAccessRegister_canonical (core : ℕ) (slot : BitVec 3) (reg : DebugReg) (sz : DebugSize) (write : Bool) (v : BitVec 64)
    (s : State) (wf : s.memOk) : Canonical (execAccessRegister core slot reg sz write v s) := by
  unfold execAccessRegister; split
  · simp
  · extract_lets k col n old acc
    refine canonical_ite (by simpa using wf) (canonical_ite (by simpa using wf) ?_)
    split
    · simpa using wf
    · refine canonical_ite (by simpa using wf) (canonical_ite (by simpa using wf) (canonical_ite (by simpa using wf) ?_))
      split
      · simpa using wf
      · next write => simpa [dbgWrite_mem _ _ _ _ _ write] using wf

@[simp] theorem dbgLoad_memOk (gpa n : ℕ) (s : State) (wf : s.memOk) : (dbgLoad gpa n s).2.memOk := by
  have read := ownerRead_memOk true gpa n s wf
  unfold dbgLoad; split
  · exact read
  · split
    · exact wf
    · next col off _ =>
      have same := serviceRead_mem col off s
      generalize serviceRead col off s = r at same
      obtain ⟨v, t⟩ := r
      split <;> simp_all
    · next col off _ =>
      have same := privRead_mem col off s
      generalize privRead col off s = r at same
      obtain ⟨v, t⟩ := r
      split <;> simp_all
    · split
      · exact wf
      · exact read
    · exact read

theorem wayFor_mem (s : State) (a : ℕ) {u : State} (eq : wayFor s a = some u) : u.mem = s.mem := by
  unfold wayFor at eq; split at eq
  · split at eq <;> cases eq
    rfl
  · split at eq <;> cases eq
    simp
  · cases eq; rfl

@[simp] theorem execAccessMemory_canonical (col : ℕ) (gpa : BitVec 64) (size : BitVec 3) (virt write : Bool) (v : BitVec 64) (s : State)
    (wf : s.memOk) : Canonical (execAccessMemory col gpa size virt write v s) := by
  unfold execAccessMemory; split
  · simp
  · extract_lets k n a old
    refine canonical_ite (by simpa using wf) (canonical_ite (by simpa using wf) ?_)
    split
    · simpa using wf
    · next t way =>
      have reached : t.memOk := by rw [State.memOk, wayFor_mem _ _ way]; exact wf
      have read := dbgLoad_memOk a n t reached
      refine canonical_ite (by simp [reached]) ?_
      split
      · next r => simpa using memOk_of_snd r read
      · next r => simpa using memOk_of_snd r read

/-! ## The instrument network (R438) -/

@[simp] theorem unloadCore_memOk (c : ℕ) (s : State) (wf : s.memOk) : (unloadCore c s).memOk := by
  unfold unloadCore; dsimp only
  rw [State.memOk, updCore_mem]
  refine clearWays_memOk _ _ _ ?_
  have evicted := foldl_memOk (f := fun s ln => evictLine c ln s) (fun t ln wf => evictLine_memOk c ln t wf)
    ((coreAt s c).cw.flatMap fun e => e.2.map (·.line)) wf
  simpa using evicted

@[simp] theorem execInstrumentUnload_canonical (col row : ℕ) (s : State) (wf : s.memOk) : Canonical (execInstrumentUnload col row s) := by
  refine canonical_ite (by simp) (canonical_next.mpr (memOk_ite ?_ wf))
  rw [State.memOk, updCol_mem]
  exact foldl_memOk (fun t _ wf => unloadCore_memOk _ t wf) _ wf

/-! ## Reset (R76, R77) -/

@[simp] theorem execColdReset_canonical (s : State) (wf : s.memOk) : Canonical (execColdReset s) :=
  canonical_next.mpr (wf_filter _ _ wf)

@[simp] theorem slicesHome_mem (col : Fin 8) (s : State) : (slicesHome col s).mem = s.mem := foldl_mem (fun _ _ => sliceToDram_mem _ _ _) _ _

@[simp] theorem portsDown_mem (s : State) : (portsDown s).mem = s.mem := by simp [portsDown, raiseInt_mem]

@[simp] theorem resetInts_mem (col : Fin 8) (s : State) : (resetInts col s).mem = s.mem := by simp [resetInts, raiseInt_mem]

@[simp] theorem warmReset_memOk (col : Fin 8) (s : State) (wf : s.memOk) : (warmReset col s).memOk := by
  unfold warmReset; extract_lets base s1 reset cores s2 s3 r s4 boot
  have cleared : s2.memOk := wf_memClear _ _ _ (by simpa [s1] using wf)
  have kept : s3.memOk := by simpa [s3] using cleared
  exact memOk_ite (setDev_memOk 0 s3 kept) kept

@[simp] theorem warmResets_memOk (cols : BitVec 8) (s : State) (wf : s.memOk) : (warmResets cols s).memOk :=
  foldl_memOk (f := fun s (k : Fin 8) => if cols.getLsbD k.val then warmReset k s else s)
    (fun t _ wf => memOk_ite (warmReset_memOk _ t wf) wf) (List.finRange 8) wf

@[simp] theorem execWarmReset_canonical (cols : BitVec 8) (s : State) (wf : s.memOk) : Canonical (execWarmReset cols s) := by
  simp [execWarmReset, wf]

/-! ## Start-up (R463) -/

@[simp] theorem bootFails_mem (why : BitVec 4) (s : State) : (bootFails why s).mem = s.mem := by simp [bootFails, raiseInt_mem]

@[simp] theorem execBoot_canonical (s : State) (wf : s.memOk) : Canonical (execBoot s) := by simp [execBoot, wf]

@[simp] theorem execBootTimeout_canonical (s : State) (wf : s.memOk) : Canonical (execBootTimeout s) := by simp [execBootTimeout, wf]

@[simp] theorem execBootctlOk_canonical (s : State) (wf : s.memOk) : Canonical (execBootctlOk s) := by simp [execBootctlOk, wf]

/-! ## The management mailbox (R464, R465) -/

@[simp] theorem endCmd_mem (result : ℕ) (resp : List (BitVec 8)) (s : State) : (endCmd result resp s).mem = s.mem := raiseInt_mem _ _

@[simp] theorem mbxGo_mem (v : BitVec 64) (s : State) : (mbxGo v s).mem = s.mem := by simp [mbxGo]

@[simp] theorem execAttest_canonical (s : State) (wf : s.memOk) : Canonical (execAttest s) := by simp [execAttest, wf]

@[simp] theorem execMbxReset_canonical (s : State) (wf : s.memOk) : Canonical (execMbxReset s) := by simp [execMbxReset, wf]

@[simp] theorem execNightreg_canonical (s : State) (wf : s.memOk) : Canonical (execNightreg s) := by simp [execNightreg, wf]

@[simp] theorem execUpdate_canonical (s : State) (wf : s.memOk) : Canonical (execUpdate s) := by simp [execUpdate, wf]

/-! ## Repairs (R79) -/

@[simp] theorem execCommit_canonical (col : ℕ) (s : State) (wf : s.memOk) : Canonical (execCommit col s) := by simp [execCommit, wf]

/-! ## The upper layer (R80, R81, R129) -/

@[simp] theorem execLayerctlReq_canonical (col : ℕ) (on : Bool) (s : State) (wf : s.memOk) : Canonical (execLayerctlReq col on s) := by
  simp [execLayerctlReq, wf]

@[simp] theorem endLayer_mem (col : Fin 8) (on : Bool) (s : State) : (endLayer col on s).mem = s.mem := by
  unfold endLayer; dsimp only; split <;> rfl

@[simp] theorem dropUpper_memOk (c : ℕ) (s : State) (wf : s.memOk) : (dropUpper c s).memOk := by
  unfold dropUpper; dsimp only
  refine clearWays_memOk _ _ _ ?_
  have evicted := foldl_memOk (f := fun s ln => evictLine c ln s) (fun t ln wf => evictLine_memOk c ln t wf)
    ((coreAt s c).cw.flatMap fun e => (e.2.filter fun l => decide (8 ≤ l.way)).map (·.line)) wf
  simpa using evicted

@[simp] theorem execLayerPowerOff_canonical (col : ℕ) (s : State) (wf : s.memOk) : Canonical (execLayerPowerOff col s) :=
  canonical_ite (by simp) (canonical_ite (by simpa using wf)
    (canonical_next.mpr (foldl_memOk (fun t _ wf => dropUpper_memOk _ t wf) _ (by simpa using wf))))

@[simp] theorem execLayerPowerOn_canonical (col : ℕ) (s : State) (wf : s.memOk) : Canonical (execLayerPowerOn col s) := by
  refine canonical_ite (by simp) (canonical_next.mpr (memOk_ite ?_ wf))
  rw [State.memOk, endLayer_mem]
  exact foldl_memOk (fun t _ wf => clearWays_memOk _ _ t wf) _ wf

/-! ## Sensors and thermal limits (R82, R468, R469) -/

@[simp] theorem thermalLimits_mem (watts : BitVec 16) (col : Fin 8) (s : State) : (thermalLimits watts col s).mem = s.mem := by
  unfold thermalLimits; extract_lets c t is slow hot cool slow' trip trip' w over' u
  have same : u.mem = s.mem := updCol_mem _ _ _
  clear_value u slow' trip'
  split
  · rw [raiseInt_mem, same]
  · exact same

@[simp] theorem execTempReading_canonical (col : ℕ) (raw : List (BitVec 16)) (watts : BitVec 16) (s : State) (wf : s.memOk) :
    Canonical (execTempReading col raw watts s) := by simp [execTempReading, wf]

@[simp] theorem execTripClear_canonical (col : ℕ) (s : State) (wf : s.memOk) : Canonical (execTripClear col s) := by simp [execTripClear, wf]

/-! ## Scrubbing and counters -/

@[simp] theorem execPatrolScrub_canonical (col line : ℕ) (s : State) (wf : s.memOk) : Canonical (execPatrolScrub col line s) := by
  simp [execPatrolScrub, wf]

@[simp] theorem execCecntRead_canonical (col : ℕ) (s : State) (wf : s.memOk) : Canonical (execCecntRead col s) := by simp [execCecntRead, wf]

@[simp] theorem execCebytesRead_canonical (col e : ℕ) (s : State) (wf : s.memOk) : Canonical (execCebytesRead col e s) := by
  simp [execCebytesRead, wf]

@[simp] theorem execCereqsRead_canonical (col e : ℕ) (s : State) (wf : s.memOk) : Canonical (execCereqsRead col e s) := by
  simp [execCereqsRead, wf]

@[simp] theorem execClelemsRead_canonical (col k : ℕ) (s : State) (wf : s.memOk) : Canonical (execClelemsRead col k s) := by
  simp [execClelemsRead, wf]

@[simp] theorem execCzinRead_canonical (col z : ℕ) (s : State) (wf : s.memOk) : Canonical (execCzinRead col z s) := by simp [execCzinRead, wf]

@[simp] theorem execCzoutRead_canonical (col z : ℕ) (s : State) (wf : s.memOk) : Canonical (execCzoutRead col z s) := by simp [execCzoutRead, wf]

/-! ## Register writes -/

@[simp] theorem queueWrite_memOk (q r : ℕ) (v : BitVec 64) (s : State) (wf : s.memOk) : (queueWrite q r v s).memOk := by simp [queueWrite, wf]

@[simp] theorem mailboxWrite_mem (r n : ℕ) (v : BitVec 64) (s : State) : (mailboxWrite r n v s).mem = s.mem := by simp [mailboxWrite]

@[simp] theorem sendPending_mem (s : State) : (sendPending s).mem = s.mem :=
  foldl_mem (fun _ _ => by dsimp only; split <;> rfl) _ _

/-! ## The function's BARs (R456) -/

@[simp] theorem barDone_mem (x : Option (BitVec 64)) (s : State) : (barDone x s).mem = s.mem := rfl

@[simp] theorem columnAccess_memOk (off : ℕ) (write : Bool) (v : BitVec 64) (s : State) (wf : s.memOk) : (columnAccess off write v s).memOk := by
  unfold columnAccess; extract_lets k r a
  clear_value a r
  refine memOk_ite wf (memOk_ite ?_ ?_)
  · have written := ownerWrite_memOk false a 8 v.toNat s wf
    split
    next write => simpa using memOk_of_snd write written
  · have read := dbgLoad_memOk a 8 s wf
    split
    next read' => simpa using memOk_of_snd read' read

@[simp] theorem execRegisterWrite_canonical (bar : BitVec 3) (off : ℕ) (a : BarAccess) (s : State) (wf : s.memOk) :
    Canonical (execRegisterWrite bar off a s) := by
  unfold execRegisterWrite; extract_lets v
  refine canonical_ite (by simpa using wf) (canonical_ite ?_ ?_)
  · exact canonical_next.mpr (columnAccess_memOk off a.write v s wf)
  · simp [wf]

@[simp] theorem execPrivilegedViewWrite_canonical (core : ℕ) (slot : BitVec 3) (n : BitVec 12) (v : BitVec 64) (s : State) (wf : s.memOk) :
    Canonical (execPrivilegedViewWrite core slot n v s) := by simp [execPrivilegedViewWrite, wf]

@[simp] theorem execMstatWrite_canonical (core : ℕ) (slot : BitVec 3) (v : BitVec 64) (s : State) (wf : s.memOk) :
    Canonical (execMstatWrite core slot v s) := by simp [execMstatWrite, wf]

/-! ## The fabric (R459 to R462) and the host's memory accesses (R457) -/

@[simp] theorem execTrain_canonical (s : State) (wf : s.memOk) : Canonical (execTrain s) := by simp [execTrain, wf]

@[simp] theorem execCapabilityFlit_canonical (p : ℕ) (major minor : BitVec 8) (feat : BitVec 16) (dev : BitVec 8) (s : State) (wf : s.memOk) :
    Canonical (execCapabilityFlit p major minor feat dev s) :=
  canonical_ite (by simp) (canonical_ite (by simpa using wf) (canonical_next.mpr (memOk_ite wf (by simpa [raiseInt_mem] using wf))))

@[simp] theorem execAllowanceGrant_canonical (p : ℕ) (cls : BitVec 2) (n : ℕ) (s : State) (wf : s.memOk) :
    Canonical (execAllowanceGrant p cls n s) := by simp [execAllowanceGrant, wf]

@[simp] theorem execJoblctWrite_canonical (col j : ℕ) (v : BitVec 64) (s : State) (wf : s.memOk) : Canonical (execJoblctWrite col j v s) := by
  simp [execJoblctWrite, wf]

@[simp] theorem execLctbaseWrite_canonical (col j : ℕ) (v : BitVec 64) (s : State) (wf : s.memOk) :
    Canonical (execLctbaseWrite col j v s) := by simp [execLctbaseWrite, wf]

@[simp] theorem execCxlMemAccess_canonical (col off n : ℕ) (write : Bool) (data : List (BitVec 8)) (s : State) (wf : s.memOk) :
    Canonical (execCxlMemAccess col off n write data s) := by
  unfold execCxlMemAccess; split
  · simp
  · extract_lets k a
    refine canonical_ite (by simpa using wf) (canonical_ite (canonical_next.mpr (ownerWrite_memOk _ _ _ _ _ wf)) ?_)
    have read := ownerRead_memOk true a n s wf
    split
    next r => simpa using memOk_of_snd r read

@[simp] theorem execAdd16_canonical (a d : BitVec 3) (s : State) (wf : s.memOk) : Canonical (execAdd16 a d s) := by simp [execAdd16, wf]

@[simp] theorem execSub16_canonical (a d : BitVec 3) (s : State) (wf : s.memOk) : Canonical (execSub16 a d s) := by simp [execSub16, wf]

@[simp] theorem execAnd16_canonical (a d : BitVec 3) (s : State) (wf : s.memOk) : Canonical (execAnd16 a d s) := by simp [execAnd16, wf]

@[simp] theorem execOr16_canonical (a d : BitVec 3) (s : State) (wf : s.memOk) : Canonical (execOr16 a d s) := by simp [execOr16, wf]

@[simp] theorem execXor16_canonical (a d : BitVec 3) (s : State) (wf : s.memOk) : Canonical (execXor16 a d s) := by simp [execXor16, wf]

@[simp] theorem execShl16_canonical (a d : BitVec 3) (s : State) (wf : s.memOk) : Canonical (execShl16 a d s) := by simp [execShl16, wf]

@[simp] theorem execShr16_canonical (a d : BitVec 3) (s : State) (wf : s.memOk) : Canonical (execShr16 a d s) := by simp [execShr16, wf]

@[simp] theorem execSra16_canonical (a d : BitVec 3) (s : State) (wf : s.memOk) : Canonical (execSra16 a d s) := by simp [execSra16, wf]

@[simp] theorem execMv16_canonical (a d : BitVec 3) (s : State) (wf : s.memOk) : Canonical (execMv16 a d s) := by simp [execMv16, wf]

@[simp] theorem execAddi16_canonical (i : BitVec 7) (d : BitVec 3) (s : State) (wf : s.memOk) : Canonical (execAddi16 i d s) := by
  simp [execAddi16, wf]

@[simp] theorem execLi16_canonical (i : BitVec 7) (d : BitVec 3) (s : State) (wf : s.memOk) : Canonical (execLi16 i d s) := by
  simp [execLi16, wf]

@[simp] theorem execAdd_canonical (b a d : BitVec 5) (s : State) (wf : s.memOk) : Canonical (execAdd b a d s) := by simp [execAdd, wf]

@[simp] theorem execSub_canonical (b a d : BitVec 5) (s : State) (wf : s.memOk) : Canonical (execSub b a d s) := by simp [execSub, wf]

@[simp] theorem execAnd_canonical (b a d : BitVec 5) (s : State) (wf : s.memOk) : Canonical (execAnd b a d s) := by simp [execAnd, wf]

@[simp] theorem execOr_canonical (b a d : BitVec 5) (s : State) (wf : s.memOk) : Canonical (execOr b a d s) := by simp [execOr, wf]

@[simp] theorem execXor_canonical (b a d : BitVec 5) (s : State) (wf : s.memOk) : Canonical (execXor b a d s) := by simp [execXor, wf]

@[simp] theorem execShl_canonical (b a d : BitVec 5) (s : State) (wf : s.memOk) : Canonical (execShl b a d s) := by simp [execShl, wf]

@[simp] theorem execShr_canonical (b a d : BitVec 5) (s : State) (wf : s.memOk) : Canonical (execShr b a d s) := by simp [execShr, wf]

@[simp] theorem execSra_canonical (b a d : BitVec 5) (s : State) (wf : s.memOk) : Canonical (execSra b a d s) := by simp [execSra, wf]

@[simp] theorem execSlt_canonical (b a d : BitVec 5) (s : State) (wf : s.memOk) : Canonical (execSlt b a d s) := by simp [execSlt, wf]

@[simp] theorem execSltn_canonical (b a d : BitVec 5) (s : State) (wf : s.memOk) : Canonical (execSltn b a d s) := by simp [execSltn, wf]

@[simp] theorem execMin_canonical (b a d : BitVec 5) (s : State) (wf : s.memOk) : Canonical (execMin b a d s) := by simp [execMin, wf]

@[simp] theorem execMax_canonical (b a d : BitVec 5) (s : State) (wf : s.memOk) : Canonical (execMax b a d s) := by simp [execMax, wf]

@[simp] theorem execMinn_canonical (b a d : BitVec 5) (s : State) (wf : s.memOk) : Canonical (execMinn b a d s) := by simp [execMinn, wf]

@[simp] theorem execMaxn_canonical (b a d : BitVec 5) (s : State) (wf : s.memOk) : Canonical (execMaxn b a d s) := by simp [execMaxn, wf]

@[simp] theorem execAndn_canonical (b a d : BitVec 5) (s : State) (wf : s.memOk) : Canonical (execAndn b a d s) := by simp [execAndn, wf]

@[simp] theorem execMul_canonical (b a d : BitVec 5) (s : State) (wf : s.memOk) : Canonical (execMul b a d s) := by simp [execMul, wf]

@[simp] theorem execMulh_canonical (b a d : BitVec 5) (s : State) (wf : s.memOk) : Canonical (execMulh b a d s) := by simp [execMulh, wf]

@[simp] theorem execMulhn_canonical (b a d : BitVec 5) (s : State) (wf : s.memOk) : Canonical (execMulhn b a d s) := by simp [execMulhn, wf]

@[simp] theorem execDiv_canonical (b a d : BitVec 5) (s : State) (wf : s.memOk) : Canonical (execDiv b a d s) := by simp [execDiv, wf]

@[simp] theorem execDivn_canonical (b a d : BitVec 5) (s : State) (wf : s.memOk) : Canonical (execDivn b a d s) := by simp [execDivn, wf]

@[simp] theorem execRem_canonical (b a d : BitVec 5) (s : State) (wf : s.memOk) : Canonical (execRem b a d s) := by simp [execRem, wf]

@[simp] theorem execRemn_canonical (b a d : BitVec 5) (s : State) (wf : s.memOk) : Canonical (execRemn b a d s) := by simp [execRemn, wf]

@[simp] theorem execAddW_canonical (b a d : BitVec 5) (s : State) (wf : s.memOk) : Canonical (execAddW b a d s) := by simp [execAddW, wf]

@[simp] theorem execSubW_canonical (b a d : BitVec 5) (s : State) (wf : s.memOk) : Canonical (execSubW b a d s) := by simp [execSubW, wf]

@[simp] theorem execShlW_canonical (b a d : BitVec 5) (s : State) (wf : s.memOk) : Canonical (execShlW b a d s) := by simp [execShlW, wf]

@[simp] theorem execShrW_canonical (b a d : BitVec 5) (s : State) (wf : s.memOk) : Canonical (execShrW b a d s) := by simp [execShrW, wf]

@[simp] theorem execSraW_canonical (b a d : BitVec 5) (s : State) (wf : s.memOk) : Canonical (execSraW b a d s) := by simp [execSraW, wf]

@[simp] theorem execMulW_canonical (b a d : BitVec 5) (s : State) (wf : s.memOk) : Canonical (execMulW b a d s) := by simp [execMulW, wf]

@[simp] theorem execDivW_canonical (b a d : BitVec 5) (s : State) (wf : s.memOk) : Canonical (execDivW b a d s) := by simp [execDivW, wf]

@[simp] theorem execDivnW_canonical (b a d : BitVec 5) (s : State) (wf : s.memOk) : Canonical (execDivnW b a d s) := by simp [execDivnW, wf]

@[simp] theorem execRemW_canonical (b a d : BitVec 5) (s : State) (wf : s.memOk) : Canonical (execRemW b a d s) := by simp [execRemW, wf]

@[simp] theorem execRemnW_canonical (b a d : BitVec 5) (s : State) (wf : s.memOk) : Canonical (execRemnW b a d s) := by simp [execRemnW, wf]

@[simp] theorem execAddi_canonical (i : BitVec 12) (a d : BitVec 5) (s : State) (wf : s.memOk) : Canonical (execAddi i a d s) := by
  simp [execAddi, wf]

@[simp] theorem execSlti_canonical (i : BitVec 12) (a d : BitVec 5) (s : State) (wf : s.memOk) : Canonical (execSlti i a d s) := by
  simp [execSlti, wf]

@[simp] theorem execSltni_canonical (i : BitVec 12) (a d : BitVec 5) (s : State) (wf : s.memOk) : Canonical (execSltni i a d s) := by
  simp [execSltni, wf]

@[simp] theorem execAndi_canonical (i : BitVec 12) (a d : BitVec 5) (s : State) (wf : s.memOk) : Canonical (execAndi i a d s) := by
  simp [execAndi, wf]

@[simp] theorem execOri_canonical (i : BitVec 12) (a d : BitVec 5) (s : State) (wf : s.memOk) : Canonical (execOri i a d s) := by
  simp [execOri, wf]

@[simp] theorem execXori_canonical (i : BitVec 12) (a d : BitVec 5) (s : State) (wf : s.memOk) : Canonical (execXori i a d s) := by
  simp [execXori, wf]

@[simp] theorem execShli_canonical (h : BitVec 6) (a d : BitVec 5) (s : State) (wf : s.memOk) : Canonical (execShli h a d s) := by
  simp [execShli, wf]

@[simp] theorem execShri_canonical (h : BitVec 6) (a d : BitVec 5) (s : State) (wf : s.memOk) : Canonical (execShri h a d s) := by
  simp [execShri, wf]

@[simp] theorem execSrai_canonical (h : BitVec 6) (a d : BitVec 5) (s : State) (wf : s.memOk) : Canonical (execSrai h a d s) := by
  simp [execSrai, wf]

@[simp] theorem execBext_canonical (b a d : BitVec 5) (s : State) (wf : s.memOk) : Canonical (execBext b a d s) := by simp [execBext, wf]

@[simp] theorem execBins_canonical (b a d : BitVec 5) (s : State) (wf : s.memOk) : Canonical (execBins b a d s) := by simp [execBins, wf]

@[simp] theorem execPopc_canonical (a d : BitVec 5) (s : State) (wf : s.memOk) : Canonical (execPopc a d s) := by simp [execPopc, wf]

@[simp] theorem execClz_canonical (a d : BitVec 5) (s : State) (wf : s.memOk) : Canonical (execClz a d s) := by simp [execClz, wf]

@[simp] theorem execCtz_canonical (a d : BitVec 5) (s : State) (wf : s.memOk) : Canonical (execCtz a d s) := by simp [execCtz, wf]

@[simp] theorem execLdhi_canonical (i : BitVec 20) (d : BitVec 5) (s : State) (wf : s.memOk) : Canonical (execLdhi i d s) := by
  simp [execLdhi, wf]

@[simp] theorem execPcadd_canonical (i : BitVec 20) (d : BitVec 5) (s : State) (wf : s.memOk) : Canonical (execPcadd i d s) := by
  simp [execPcadd, wf]

@[simp] theorem execLdD16_canonical (o : BitVec 4) (b d : BitVec 3) (s : State) (wf : s.memOk) : Canonical (execLdD16 o b d s) := by
  simp [execLdD16, wf]

@[simp] theorem execStD16_canonical (o : BitVec 4) (b d : BitVec 3) (s : State) (wf : s.memOk) : Canonical (execStD16 o b d s) := by
  simp [execStD16, wf]

@[simp] theorem execLdW16_canonical (o : BitVec 4) (b d : BitVec 3) (s : State) (wf : s.memOk) : Canonical (execLdW16 o b d s) := by
  simp [execLdW16, wf]

@[simp] theorem execStW16_canonical (o : BitVec 4) (b d : BitVec 3) (s : State) (wf : s.memOk) : Canonical (execStW16 o b d s) := by
  simp [execStW16, wf]

@[simp] theorem execLdB_canonical (i : BitVec 12) (a d : BitVec 5) (s : State) (wf : s.memOk) : Canonical (execLdB i a d s) := by
  simp [execLdB, wf]

@[simp] theorem execLdH_canonical (i : BitVec 12) (a d : BitVec 5) (s : State) (wf : s.memOk) : Canonical (execLdH i a d s) := by
  simp [execLdH, wf]

@[simp] theorem execLdW_canonical (i : BitVec 12) (a d : BitVec 5) (s : State) (wf : s.memOk) : Canonical (execLdW i a d s) := by
  simp [execLdW, wf]

@[simp] theorem execLdD_canonical (i : BitVec 12) (a d : BitVec 5) (s : State) (wf : s.memOk) : Canonical (execLdD i a d s) := by
  simp [execLdD, wf]

@[simp] theorem execLdBn_canonical (i : BitVec 12) (a d : BitVec 5) (s : State) (wf : s.memOk) : Canonical (execLdBn i a d s) := by
  simp [execLdBn, wf]

@[simp] theorem execLdHn_canonical (i : BitVec 12) (a d : BitVec 5) (s : State) (wf : s.memOk) : Canonical (execLdHn i a d s) := by
  simp [execLdHn, wf]

@[simp] theorem execLdWn_canonical (i : BitVec 12) (a d : BitVec 5) (s : State) (wf : s.memOk) : Canonical (execLdWn i a d s) := by
  simp [execLdWn, wf]

@[simp] theorem execLdBNc_canonical (i : BitVec 12) (a d : BitVec 5) (s : State) (wf : s.memOk) : Canonical (execLdBNc i a d s) := by
  simp [execLdBNc, wf]

@[simp] theorem execLdHNc_canonical (i : BitVec 12) (a d : BitVec 5) (s : State) (wf : s.memOk) : Canonical (execLdHNc i a d s) := by
  simp [execLdHNc, wf]

@[simp] theorem execLdWNc_canonical (i : BitVec 12) (a d : BitVec 5) (s : State) (wf : s.memOk) : Canonical (execLdWNc i a d s) := by
  simp [execLdWNc, wf]

@[simp] theorem execLdDNc_canonical (i : BitVec 12) (a d : BitVec 5) (s : State) (wf : s.memOk) : Canonical (execLdDNc i a d s) := by
  simp [execLdDNc, wf]

@[simp] theorem execLdBnNc_canonical (i : BitVec 12) (a d : BitVec 5) (s : State) (wf : s.memOk) : Canonical (execLdBnNc i a d s) := by
  simp [execLdBnNc, wf]

@[simp] theorem execLdHnNc_canonical (i : BitVec 12) (a d : BitVec 5) (s : State) (wf : s.memOk) : Canonical (execLdHnNc i a d s) := by
  simp [execLdHnNc, wf]

@[simp] theorem execLdWnNc_canonical (i : BitVec 12) (a d : BitVec 5) (s : State) (wf : s.memOk) : Canonical (execLdWnNc i a d s) := by
  simp [execLdWnNc, wf]

@[simp] theorem execLdBC_canonical (i : BitVec 12) (a d : BitVec 5) (s : State) (wf : s.memOk) : Canonical (execLdBC i a d s) := by
  simp [execLdBC, wf]

@[simp] theorem execLdHC_canonical (i : BitVec 12) (a d : BitVec 5) (s : State) (wf : s.memOk) : Canonical (execLdHC i a d s) := by
  simp [execLdHC, wf]

@[simp] theorem execLdWC_canonical (i : BitVec 12) (a d : BitVec 5) (s : State) (wf : s.memOk) : Canonical (execLdWC i a d s) := by
  simp [execLdWC, wf]

@[simp] theorem execLdDC_canonical (i : BitVec 12) (a d : BitVec 5) (s : State) (wf : s.memOk) : Canonical (execLdDC i a d s) := by
  simp [execLdDC, wf]

@[simp] theorem execLdBnC_canonical (i : BitVec 12) (a d : BitVec 5) (s : State) (wf : s.memOk) : Canonical (execLdBnC i a d s) := by
  simp [execLdBnC, wf]

@[simp] theorem execLdHnC_canonical (i : BitVec 12) (a d : BitVec 5) (s : State) (wf : s.memOk) : Canonical (execLdHnC i a d s) := by
  simp [execLdHnC, wf]

@[simp] theorem execLdWnC_canonical (i : BitVec 12) (a d : BitVec 5) (s : State) (wf : s.memOk) : Canonical (execLdWnC i a d s) := by
  simp [execLdWnC, wf]

@[simp] theorem execStB_canonical (i : BitVec 12) (b d : BitVec 5) (s : State) (wf : s.memOk) : Canonical (execStB i b d s) := by
  simp [execStB, wf]

@[simp] theorem execStH_canonical (i : BitVec 12) (b d : BitVec 5) (s : State) (wf : s.memOk) : Canonical (execStH i b d s) := by
  simp [execStH, wf]

@[simp] theorem execStW_canonical (i : BitVec 12) (b d : BitVec 5) (s : State) (wf : s.memOk) : Canonical (execStW i b d s) := by
  simp [execStW, wf]

@[simp] theorem execStD_canonical (i : BitVec 12) (b d : BitVec 5) (s : State) (wf : s.memOk) : Canonical (execStD i b d s) := by
  simp [execStD, wf]

@[simp] theorem execStBNc_canonical (i : BitVec 12) (b d : BitVec 5) (s : State) (wf : s.memOk) : Canonical (execStBNc i b d s) := by
  simp [execStBNc, wf]

@[simp] theorem execStHNc_canonical (i : BitVec 12) (b d : BitVec 5) (s : State) (wf : s.memOk) : Canonical (execStHNc i b d s) := by
  simp [execStHNc, wf]

@[simp] theorem execStWNc_canonical (i : BitVec 12) (b d : BitVec 5) (s : State) (wf : s.memOk) : Canonical (execStWNc i b d s) := by
  simp [execStWNc, wf]

@[simp] theorem execStDNc_canonical (i : BitVec 12) (b d : BitVec 5) (s : State) (wf : s.memOk) : Canonical (execStDNc i b d s) := by
  simp [execStDNc, wf]

@[simp] theorem execAmadd_canonical (z : BitVec 1) (b a d : BitVec 5) (s : State) (wf : s.memOk) : Canonical (execAmadd z b a d s) := by
  simp [execAmadd, wf]

@[simp] theorem execAmswap_canonical (z : BitVec 1) (b a d : BitVec 5) (s : State) (wf : s.memOk) : Canonical (execAmswap z b a d s) := by
  simp [execAmswap, wf]

@[simp] theorem execAmcas_canonical (z : BitVec 1) (b a d : BitVec 5) (s : State) (wf : s.memOk) : Canonical (execAmcas z b a d s) := by
  simp [execAmcas, wf]

@[simp] theorem execAmand_canonical (z : BitVec 1) (b a d : BitVec 5) (s : State) (wf : s.memOk) : Canonical (execAmand z b a d s) := by
  simp [execAmand, wf]

@[simp] theorem execAmor_canonical (z : BitVec 1) (b a d : BitVec 5) (s : State) (wf : s.memOk) : Canonical (execAmor z b a d s) := by
  simp [execAmor, wf]

@[simp] theorem execAmxor_canonical (z : BitVec 1) (b a d : BitVec 5) (s : State) (wf : s.memOk) : Canonical (execAmxor z b a d s) := by
  simp [execAmxor, wf]

@[simp] theorem execAmmin_canonical (z : BitVec 1) (b a d : BitVec 5) (s : State) (wf : s.memOk) : Canonical (execAmmin z b a d s) := by
  simp [execAmmin, wf]

@[simp] theorem execAmmax_canonical (z : BitVec 1) (b a d : BitVec 5) (s : State) (wf : s.memOk) : Canonical (execAmmax z b a d s) := by
  simp [execAmmax, wf]

@[simp] theorem execAmminn_canonical (z : BitVec 1) (b a d : BitVec 5) (s : State) (wf : s.memOk) : Canonical (execAmminn z b a d s) := by
  simp [execAmminn, wf]

@[simp] theorem execAmmaxn_canonical (z : BitVec 1) (b a d : BitVec 5) (s : State) (wf : s.memOk) : Canonical (execAmmaxn z b a d s) := by
  simp [execAmmaxn, wf]

@[simp] theorem execAmfadd_canonical (z : BitVec 1) (b a d : BitVec 5) (s : State) (wf : s.memOk) : Canonical (execAmfadd z b a d s) := by
  simp [execAmfadd, wf]

@[simp] theorem execAmfmin_canonical (z : BitVec 1) (b a d : BitVec 5) (s : State) (wf : s.memOk) : Canonical (execAmfmin z b a d s) := by
  simp [execAmfmin, wf]

@[simp] theorem execAmfmax_canonical (z : BitVec 1) (b a d : BitVec 5) (s : State) (wf : s.memOk) : Canonical (execAmfmax z b a d s) := by
  simp [execAmfmax, wf]

@[simp] theorem execRedAdd_canonical (z : BitVec 1) (b a : BitVec 5) (s : State) (wf : s.memOk) : Canonical (execRedAdd z b a s) := by
  simp [execRedAdd, wf]

@[simp] theorem execRedMin_canonical (z : BitVec 1) (b a : BitVec 5) (s : State) (wf : s.memOk) : Canonical (execRedMin z b a s) := by
  simp [execRedMin, wf]

@[simp] theorem execRedMax_canonical (z : BitVec 1) (b a : BitVec 5) (s : State) (wf : s.memOk) : Canonical (execRedMax z b a s) := by
  simp [execRedMax, wf]

@[simp] theorem execRedMinn_canonical (z : BitVec 1) (b a : BitVec 5) (s : State) (wf : s.memOk) : Canonical (execRedMinn z b a s) := by
  simp [execRedMinn, wf]

@[simp] theorem execRedMaxn_canonical (z : BitVec 1) (b a : BitVec 5) (s : State) (wf : s.memOk) : Canonical (execRedMaxn z b a s) := by
  simp [execRedMaxn, wf]

@[simp] theorem execRedFadd_canonical (z : BitVec 1) (b a : BitVec 5) (s : State) (wf : s.memOk) : Canonical (execRedFadd z b a s) := by
  simp [execRedFadd, wf]

@[simp] theorem execRedFmin_canonical (z : BitVec 1) (b a : BitVec 5) (s : State) (wf : s.memOk) : Canonical (execRedFmin z b a s) := by
  simp [execRedFmin, wf]

@[simp] theorem execRedFmax_canonical (z : BitVec 1) (b a : BitVec 5) (s : State) (wf : s.memOk) : Canonical (execRedFmax z b a s) := by
  simp [execRedFmax, wf]

@[simp] theorem execBeq_canonical (o : BitVec 12) (b a : BitVec 5) (s : State) (wf : s.memOk) : Canonical (execBeq o b a s) := by
  simp [execBeq, wf]

@[simp] theorem execBne_canonical (o : BitVec 12) (b a : BitVec 5) (s : State) (wf : s.memOk) : Canonical (execBne o b a s) := by
  simp [execBne, wf]

@[simp] theorem execBlt_canonical (o : BitVec 12) (b a : BitVec 5) (s : State) (wf : s.memOk) : Canonical (execBlt o b a s) := by
  simp [execBlt, wf]

@[simp] theorem execBge_canonical (o : BitVec 12) (b a : BitVec 5) (s : State) (wf : s.memOk) : Canonical (execBge o b a s) := by
  simp [execBge, wf]

@[simp] theorem execBltn_canonical (o : BitVec 12) (b a : BitVec 5) (s : State) (wf : s.memOk) : Canonical (execBltn o b a s) := by
  simp [execBltn, wf]

@[simp] theorem execBgen_canonical (o : BitVec 12) (b a : BitVec 5) (s : State) (wf : s.memOk) : Canonical (execBgen o b a s) := by
  simp [execBgen, wf]

@[simp] theorem execBeqz16_canonical (o : BitVec 7) (a : BitVec 3) (s : State) (wf : s.memOk) : Canonical (execBeqz16 o a s) := by
  simp [execBeqz16, wf]

@[simp] theorem execBnez16_canonical (o : BitVec 7) (a : BitVec 3) (s : State) (wf : s.memOk) : Canonical (execBnez16 o a s) := by
  simp [execBnez16, wf]

@[simp] theorem execJal_canonical (o : BitVec 20) (d : BitVec 5) (s : State) (wf : s.memOk) : Canonical (execJal o d s) := by simp [execJal, wf]

@[simp] theorem execJ16_canonical (o : BitVec 10) (s : State) (wf : s.memOk) : Canonical (execJ16 o s) := by simp [execJ16, wf]

@[simp] theorem jumpTo_mem (t : BitVec 64) (d : BitVec 5) (link : BitVec 64) (s : State) : (jumpTo t d link s).mem = s.mem := by
  unfold jumpTo; split <;> rfl

@[simp] theorem execJalr_canonical (i : BitVec 12) (a d : BitVec 5) (s : State) (wf : s.memOk) : Canonical (execJalr i a d s) := by
  simp [execJalr, wf]

@[simp] theorem execRet16_canonical (s : State) (wf : s.memOk) : Canonical (execRet16 s) := by simp [execRet16, wf]

end Sys2Proof.Machine
end

section
/-!
PROOFS. Every step keeps memory in canonical form: fetch, issue and the step itself; obligation O23.
-/

namespace Sys2Proof.Machine
set_option Elab.async false

/-! ## Fetch -/

@[simp] theorem exec_canonical (i : Instr) (s : State) (wf : s.memOk) : Canonical (exec i s) := by
  cases i
  all_goals simp [exec, wf]
@[simp] theorem fetchLine_memOk (gpa cls : ℕ) (va : BitVec 64) (s : State) (wf : s.memOk) : (fetchLine gpa cls va s).memOk := by
  unfold fetchLine; extract_lets ln own read
  have readOk : ∀ t, t.memOk → (read t).memOk := fun t wf => by
    have line := ownerRead_memOk (own && cls == 0) (ln * 64) 64 t wf
    unfold read; split
    · next r => exact memOk_of_snd r line
    · next r => exact memOk_of_snd r line
  clear_value read
  refine resOk_ite (by simpa using wf) ?_
  split
  · exact resOk_ite wf (resOk_ite wf (readOk _ (by simpa using wf)))
  · exact readOk _ wf

@[simp] theorem fetchHalf_memOk (va : BitVec 64) (s : State) (wf : s.memOk) : (fetchHalf va s).memOk := by
  refine Res.andThen_memOk (xlate_memOk _ _ _ wf) fun p t wf => ?_
  dsimp only; split
  · simpa using wf
  · exact Res.andThen_memOk (fetchLine_memOk _ _ _ _ wf) fun _ _ wf => by simpa using wf

@[simp] theorem fetchBytes_memOk (s : State) (wf : s.memOk) : (fetchBytes s).memOk :=
  Res.andThen_memOk (fetchHalf_memOk _ _ wf) fun _ _ wf =>
    resOk_ite wf (Res.andThen_memOk (fetchHalf_memOk _ _ wf) fun _ _ wf => wf)

@[simp] theorem fetchTrap_canonical (c : Cause) (xval : BitVec 64) (s : State) (wf : s.memOk) : Canonical (fetchTrap c xval s) := by
  simp [fetchTrap, wf]

/-! ## Step units -/

@[simp] theorem beginUnit_mem (s : State) : (beginUnit s).mem = s.mem := rfl

@[simp] theorem endUnit_mem (c : ℕ) (k : Fin 8) (s : State) : (endUnit c k s).mem = s.mem := rfl

/-! ## Issue -/

@[simp] theorem noteIssue_mem (s : State) (c : ℕ) (k : Fin 8) : (noteIssue s c k).mem = s.mem := rfl

@[simp] theorem issuing_mem (c : Fin 2048) (k : Fin 8) (s : State) : (issuing c k s).mem = s.mem := rfl

@[simp] theorem runBytes_canonical (bs : List (BitVec 8)) (s : State) (wf : s.memOk) : Canonical (runBytes bs s) :=
  canonical_ite (by simpa using wf) (canonical_ite (by simpa using wf) (exec_canonical _ s wf))

@[simp] theorem fetchRun_canonical (s : State) (wf : s.memOk) : Canonical (fetchRun s) := by
  have fetched := fetchBytes_memOk s wf
  unfold fetchRun; split
  · next fetch => exact fetchTrap_canonical _ _ _ (Res.memOk_of_trap fetch fetched)
  · next fetch => exact canonical_next.mpr (Res.memOk_of_hold fetch fetched)
  · next fetch => exact runBytes_canonical _ _ (Res.memOk_of_ok fetch fetched)

@[simp] theorem issueNew_canonical (s : State) (wf : s.memOk) : Canonical (issueNew s) := by
  unfold issueNew; split
  · simp [wf]
  · exact fetchRun_canonical s wf

@[simp] theorem issueInstr_canonical (s : State) (wf : s.memOk) : Canonical (issueInstr s) := by simp [issueInstr, wf]

@[simp] theorem unitOn_mem (c : Fin 2048) (k : Fin 8) (s : State) : (unitOn c k s).mem = s.mem := rfl

@[simp] theorem unitTurn_canonical (c : Fin 2048) (k : Fin 8) (s : State) (wf : s.memOk) : Canonical (unitTurn c k s) := by simp [unitTurn, wf]

@[simp] theorem issueHart_canonical (c : Fin 2048) (k : Fin 8) (s : State) (wf : s.memOk) : Canonical (issueHart c k s) := by
  have issued : Canonical (if (hartAt s c k).unitOver then unitTurn c k s else issueInstr (issuing c k s)) :=
    canonical_ite (unitTurn_canonical c k s wf) (issueInstr_canonical _ (by simpa using wf))
  unfold issueHart; split
  · next ran => simpa using issued _ ran
  · exact issued

@[simp] theorem issueCore_canonical (c : Fin 2048) (s : State) (wf : s.memOk) : Canonical (issueCore c s) := by
  unfold issueCore; repeat' split
  all_goals simp [wf]

@[simp] theorem lookHart_canonical (c : Fin 2048) (k : Fin 8) (s : State) (wf : s.memOk) : Canonical (lookHart c k s) := by
  have ran : Canonical (fetchRun { s with curCore := c, curSlot := k }) := fetchRun_canonical _ wf
  refine canonical_ite (canonical_next.mpr wf) ?_
  split
  · next looked => simpa using ran _ looked
  · exact ran

/-! ## Time -/

@[simp] theorem advance_mem (n : ℕ) (s : State) : (advance n s).mem = s.mem := rfl

/-! ## The model's own choice of who moves next -/

@[simp] theorem doAct_canonical (a : Act) (s : State) (wf : s.memOk) : Canonical (doAct a s) := by
  cases a with
  | core c => exact issueCore_canonical c s wf
  | look c k => exact lookHart_canonical c k s wf
  | ev i => exact exec_canonical i s wf
  | tick n => simpa [doAct] using wf

@[simp] theorem nextAct_mem (s : State) : (nextAct s).2.mem = s.mem := by
  unfold nextAct; repeat' split
  all_goals simp

@[simp] theorem step_canonical (s : State) (wf : s.memOk) : Canonical (step s) := by simp [step, wf]

/-- Settles O23: no operation of the model lists a byte that an unlisted address reads as, or lists out of order, so no step does. -/
theorem memoryCanonicalKept : Obligations.MemoryCanonicalKept := fun s t wf next => step_canonical s wf t next

end Sys2Proof.Machine
end
